-- ==== Sys2Proof/Word.lean ====
section
/-! DEFINITION. The word types of the model: registers, counters and addresses as the spec writes them as bits. -/

namespace Sys2Proof

/-- A 64-bit register or general register of either part. -/
abbrev Word := BitVec 64

/-- One byte of a memory, a frame payload or a message. -/
abbrev Byte := BitVec 8

end Sys2Proof
end

