-- ==== Sys2Proof/Config.lean ====
section
/-! DEFINITION. What a licence or an implementation fixes, and the free values: constants the spec leaves open, about which nothing can be proved. -/

namespace Sys2Proof

/-- The licensed parameters of an Elesh instance (R2), its block revision and its number of clock regions (R406). -/
structure Licence where
  cores      : Nat
  cntPerCore : Nat
  engPerCore : Nat
  talLanes   : Nat
  spmMib     : Nat
  tbCount    : Nat
  streams    : Nat
  planes     : Nat
  dmaCh      : Nat
  watches    : Nat
  rev        : BitVec 16
  regions    : Nat
  deriving DecidableEq, Repr

namespace Config

/-- The full configuration of R2, with four clock regions (R490). DESIGN CHOICE (log 3): the revision, which R482 calls an instance value, is 0. -/
def fullLicence : Licence :=
  { cores := 256, cntPerCore := 64, engPerCore := 8, talLanes := 8, spmMib := 16, tbCount := 4,
    streams := 64, planes := 2, dmaCh := 16, watches := 4096, rev := 0, regions := 4 }

/-- A value the spec leaves open, one per draw (log 2). No body: nothing can be proved of it. -/
opaque freeWord : Nat → BitVec 64

/-- The fraction FRC[15:0] that the time-to-digital converter of the Elesh (0) or of the Uhloux (1) fills in within an ACLK tick (R42), which no rule gives: free, one per tick (log 91). -/
opaque frcFraction : Nat → Nat → BitVec 16

/-- The payload bytes of a message whose layout no rule gives (log 92): free, one per draw. -/
opaque openPayload : Nat → List (BitVec 8)

/-- What the REQ_ fields of a tree image are compared with in place of EL_IDENT, which a Uhloux chip lacks (R156, R165): by the field's offset in the header, free (log 30). -/
opaque treeLimit : Nat → Nat

/-- Whether a child chip, by its key as a subject, has a member die below it (R228), which no message tells its parent: free, one per look (log 34). -/
opaque membersBelow : Nat → Nat → Bool

/-- Member dies of the hall (PDI and LSI) that a chip has not heard of, which R316 and R347 wait for as well: free, one list per look (log 34). -/
opaque hallMembers : Nat → List (Nat × Nat)

/-- A commit of these staged registers names the tree program (R165); no rule says which register does: free (log 29). -/
opaque namesTree : List (Nat × BitVec 64) → Bool

/-- The public key of the identity key pair R453 derives from the PUF response, which no rule gives: of the Elesh (0) and of the Uhloux (1), 96 bytes, free. -/
opaque identityKey : Nat → BitVec 768

/-- An ECDSA signature the part makes (R454): it depends on the private key and a nonce the spec does not give; free, one per draw and digest. -/
opaque signature : Nat → BitVec 384 → BitVec 768

/-- The 32-byte debug challenge of the Elesh (0) and of the Uhloux (1) (R459), which no rule gives: free. -/
opaque debugChallenge : Nat → BitVec 256

/-- The clock region of Uhloux that holds the tree sequencer (R412, R164), which no rule names: free, reduced modulo 64. -/
opaque treeRegion : Nat

/-- The bytes of HBM in service for a set of stacks (R483, R489): no rule gives a stack's capacity; free. -/
opaque hbmInService : BitVec 8 → Nat

/-- A word of a crash dump's sections (R431), whose content the spec does not lay down: of dump `n` at word `i`, free. -/
opaque dumpWord : Nat → Nat → BitVec 64

end Config
end Sys2Proof
end

