-- ==== Sys2Proof/Machine/Bits.lean ====
section
/-! DEFINITION. Bit fields of registers (R5), sign extension, little-endian bytes (R6), sparse tables in canonical form, and HXT arithmetic (R39). -/

namespace Sys2Proof.Machine

/-! ### Fields of a word -/

/-- Bits [hi:lo] of a word, as a number (R5). -/
def fget (w : Word) (hi lo : Nat) : Nat := (w.toNat >>> lo) % 2 ^ (hi + 1 - lo)

/-- `w` with bits [hi:lo] set to the low bits of `v` (R5). -/
def fset (w : Word) (hi lo v : Nat) : Word :=
  BitVec.ofNat 64 ((w.toNat % 2 ^ lo) ||| ((v % 2 ^ (hi + 1 - lo)) <<< lo) ||| ((w.toNat >>> (hi + 1)) <<< (hi + 1)))

/-- A number of `n` bits read as two's complement. -/
def signed (n v : Nat) : Int :=
  if v % 2 ^ n < 2 ^ (n - 1) then ((v % 2 ^ n : Nat) : Int) else ((v % 2 ^ n : Nat) : Int) - ((2 ^ n : Nat) : Int)

/-- An integer as an `n`-bit two's complement number. -/
def unsigned (n : Nat) (i : Int) : Nat := (i % ((2 ^ n : Nat) : Int)).toNat

/-- A 24-bit offset sign-extended to 64 bits (`sext24` of R190 and R193). -/
def sext24 (o : BitVec 24) : Word := o.signExtend 64

/-- A 32-bit immediate sign-extended to 64 bits (`sext32`, before R196). -/
def sext32 (v : BitVec 32) : Word := v.signExtend 64

/-- Addition that stops at the top of an `n`-bit count ("saturating"). -/
def satAdd (n a b : Nat) : Nat := min (2 ^ n - 1) (a + b)

/-- The smallest whole number at or above `a / b`. -/
def ceilDiv (a b : Nat) : Nat := (a + b - 1) / b

/-! ### Bytes -/

/-- The `n` bytes of a number, least significant first (R6). -/
def leBytes : Nat → Nat → List Byte
  | 0, _ => []
  | n + 1, v => BitVec.ofNat 8 (v % 256) :: leBytes n (v / 256)

/-- The number whose bytes, least significant first, are `bs` (R6). -/
def leNat : List Byte → Nat
  | [] => 0
  | b :: bs => b.toNat + 256 * leNat bs

/-- The `n` bytes of a number, most significant first (the exception of R6 for cryptographic values). -/
def beBytes (n v : Nat) : List Byte := (leBytes n v).reverse

/-- The number whose bytes, most significant first, are `bs`. -/
def beNat (bs : List Byte) : Nat := bs.foldl (fun a b => a * 256 + b.toNat) 0

/-! ### Sparse tables -/

/-- A sparse table: keys strictly rising, no entry equal to what an unlisted key reads as. -/
abbrev Tbl (α : Type) := List (Nat × α)

/-- The value at a key; `d` at an unlisted key. -/
def tget {α : Type} (d : α) : Tbl α → Nat → α
  | [], _ => d
  | (k', v) :: t, k => if k' = k then v else tget d t k

/-- The table without a key. -/
def terase {α : Type} (t : Tbl α) (k : Nat) : Tbl α := t.filter (fun e => e.1 != k)

/-- Insert an entry before the first larger key. -/
def tins {α : Type} : Tbl α → Nat → α → Tbl α
  | [], k, v => [(k, v)]
  | (k', v') :: t, k, v => if k < k' then (k, v) :: (k', v') :: t else (k', v') :: tins t k v

/-- The table with `v` at `k`; writing what an unlisted key reads as removes the entry. -/
def tput {α : Type} [DecidableEq α] (d : α) (t : Tbl α) (k : Nat) (v : α) : Tbl α :=
  if v = d then terase t k else tins (terase t k) k v

/-- The canonical form: keys strictly rising, no entry equal to the value `d k` of an unlisted key. -/
def twf {α : Type} [DecidableEq α] (d : Nat → α) (t : Tbl α) : Bool :=
  decide (t.Pairwise (fun a b => a.1 < b.1)) && t.all (fun e => decide (e.2 ≠ d e.1))

/-- A memory of bytes; an unlisted byte reads 0 (log 4). -/
abbrev Mem := List (Nat × BitVec 8)

/-- One byte of a memory. -/
def mget (m : Mem) (a : Nat) : Byte := tget 0 m a

/-- Write one byte of a memory. -/
def mput (m : Mem) (a : Nat) (b : Byte) : Mem := tput 0 m a b

/-- `n` bytes from address `a`. -/
def mread (m : Mem) (a : Nat) : Nat → List Byte
  | 0 => []
  | n + 1 => mget m a :: mread m (a + 1) n

/-- Write bytes from address `a` on. -/
def mwrite (m : Mem) (a : Nat) : List Byte → Mem
  | [] => m
  | b :: bs => mwrite (mput m a b) (a + 1) bs

/-- Clear the bytes `lo` to `hi - 1` to 0. -/
def mclear (m : Mem) (lo hi : Nat) : Mem := m.filter (fun e => e.1 < lo || hi ≤ e.1)

/-- A memory holds its canonical form: addresses strictly rising and no listed byte equal to 0. -/
abbrev Memory.wf (m : Mem) : Bool := twf (fun _ => (0 : Byte)) m

/-! ### HXT values (R39): a number of 2^-32 ns units, seconds modulo 2^64 -/

/-- FRAC units in one second. -/
def hxtSec : Nat := 1000000000 * 2 ^ 32

/-- The modulus of HXT arithmetic: SEC is taken modulo 2^64 (R39). -/
def hxtMod : Nat := 2 ^ 64 * hxtSec

/-- An HXT value from its SEC register and its NS and FRAC register (R39). -/
def hxtOf (sec nsf : Word) : Nat :=
  (sec.toNat * hxtSec + (nsf.toNat >>> 32) * 2 ^ 32 + nsf.toNat % 2 ^ 32) % hxtMod

/-- The SEC field of an HXT value. -/
def hxtSecW (t : Nat) : Word := BitVec.ofNat 64 (t % hxtMod / hxtSec)

/-- The 16 bytes of an HXT value, FRAC first (R6, R38). -/
def hxtBytes (t : Nat) : List Byte := leBytes 4 t ++ leBytes 4 (t % hxtSec / 2 ^ 32) ++ leBytes 8 (t % hxtMod / hxtSec)

/-- The NS and FRAC fields of an HXT value, NS in [63:32] and FRAC in [31:0]. -/
def hxtNsfW (t : Nat) : Word :=
  BitVec.ofNat 64 ((t % hxtSec / 2 ^ 32) * 2 ^ 32 + t % 2 ^ 32)

/-- HXT units of `n` nanoseconds. -/
def hxtNs (n : Nat) : Nat := n * 2 ^ 32

/-- The sum of two HXT values (R39). -/
def hxtAdd (a b : Nat) : Nat := (a + b) % hxtMod

/-- The difference of two HXT values (R39). -/
def hxtSub (a b : Nat) : Nat := (a + hxtMod - b % hxtMod) % hxtMod

/-- An HXT difference in picoseconds, rounded down. -/
def hxtPs (d : Nat) : Nat := d * 1000 / 2 ^ 32

/-- The NS field of a register pair is legal (R40). -/
def nsOk (nsf : Word) : Bool := nsf.toNat >>> 32 ≤ 999999999

end Sys2Proof.Machine
end

