-- ==== Sys2Proof/Machine/RegMap.lean ====
section
/-! DEFINITION. The register maps of Elesh (R490) and Uhloux (R491): every register with its offset, its reset word and its fields with their access types (R9), and a name for every field. The values an encoding table leaves valid (R8) stand with the field. -/

namespace Sys2Proof.Machine

/-- The access types of R9. -/
inductive Acc where
  | rw | ro | w1c | w1s | wo | st | rwl
  deriving DecidableEq, Repr

/-- A named field: the offset of its register and its bits [hi:lo]. -/
structure Fld where
  off : Nat
  hi  : Nat
  lo  : Nat
  deriving DecidableEq, Repr

/-- A field of a register map: bits, access type, and the values its encoding leaves valid (R8). -/
structure FieldRow where
  hi   : Nat
  lo   : Nat
  acc  : Acc
  okLo : Nat
  okHi : Nat
  deriving DecidableEq, Repr

/-- A register, or a run of `count` registers `stride` bytes apart, with its reset word and its fields. Bits in no field are reserved (R7). -/
structure RegRow where
  base   : Nat
  stride : Nat
  count  : Nat
  reset  : Word
  fields : List FieldRow
  deriving DecidableEq, Repr

/-- A field row whose every value is valid. -/
def fr (hi lo : Nat) (a : Acc) : FieldRow := ⟨hi, lo, a, 0, 2 ^ 64 - 1⟩

/-- A field row with a valid range (R8). -/
def frr (hi lo : Nat) (a : Acc) (l h : Nat) : FieldRow := ⟨hi, lo, a, l, h⟩

/-- Elesh Time registers (TIME_CTRL, TIME_STAT, FRC_LO, FRC_HI, TB_PLANEDIFF, TB2_EPOCH_SEC, TB2_EPOCH_NSF, TB_CTRL, TB_STAT, TB_OFS_SEC, TB_OFS_NSF, TB_ANCHOR_LO, TB_ANCHOR_HI). -/
def elTimeRows0 : List RegRow :=
  [⟨0x1000, 0x8, 1, 0x1F4, [frr 15 0 .rw 1 2000]⟩,
   ⟨0x1008, 0x8, 1, 0x0, [fr 3 3 .ro, fr 2 2 .ro, fr 1 1 .ro, fr 0 0 .ro]⟩,
   ⟨0x1010, 0x8, 1, 0x0, [fr 63 0 .ro]⟩,
   ⟨0x1018, 0x8, 1, 0x0, [fr 15 0 .ro]⟩,
   ⟨0x1020, 0x8, 1, 0x8000000000000000, [fr 63 0 .ro]⟩,
   ⟨0x1028, 0x8, 1, 0x0, [fr 63 0 .st]⟩,
   ⟨0x1030, 0x8, 1, 0x0, [fr 63 32 .st, fr 31 0 .st]⟩,
   ⟨0x1100, 0x80, 3, 0x0, []⟩,
   ⟨0x1280, 0x80, 1, 0x0, [fr 1 1 .wo, fr 0 0 .wo]⟩,
   ⟨0x1108, 0x80, 4, 0x0, [fr 39 8 .ro, fr 5 5 .w1c, fr 4 4 .ro, fr 3 3 .w1c, fr 2 0 .ro]⟩,
   ⟨0x1110, 0x80, 4, 0x0, [fr 63 0 .ro]⟩,
   ⟨0x1118, 0x80, 4, 0x0, [fr 63 32 .ro, fr 31 0 .ro]⟩,
   ⟨0x1120, 0x80, 4, 0x0, [fr 63 0 .ro]⟩,
   ⟨0x1128, 0x80, 4, 0x0, [fr 15 0 .ro]⟩]

/-- Elesh Time registers (TB_RATE, TB_STEP_SEC, TB_STEP_NSF, TB_READ_SEC, TB_READ_NSF, PULSE_CTRL, PULSE_STAT, PULSE_START_SEC, PULSE_START_NSF, PULSE_PER_SEC, PULSE_PER_NSF). -/
def elTimeRows1 : List RegRow :=
  [⟨0x1130, 0x80, 3, 0x0, [fr 63 40 .ro, fr 39 0 .ro]⟩,
   ⟨0x12B0, 0x80, 1, 0x0, [fr 63 40 .ro, fr 39 0 .rw]⟩,
   ⟨0x1138, 0x80, 3, 0x0, []⟩,
   ⟨0x12B8, 0x80, 1, 0x0, [fr 63 0 .rw]⟩,
   ⟨0x1140, 0x80, 3, 0x0, []⟩,
   ⟨0x12C0, 0x80, 1, 0x0, [fr 63 32 .rw, fr 31 0 .rw]⟩,
   ⟨0x1148, 0x80, 4, 0x0, [fr 63 0 .ro]⟩,
   ⟨0x1150, 0x80, 4, 0x0, [fr 63 32 .ro, fr 31 0 .ro]⟩,
   ⟨0x1400, 0x40, 4, 0x0, [fr 7 7 .wo, fr 6 6 .wo, fr 5 5 .rw, frr 4 3 .rw 0 2, fr 1 0 .rw]⟩,
   ⟨0x1408, 0x40, 4, 0x0, [fr 33 33 .w1c, fr 32 32 .ro, fr 31 0 .ro]⟩,
   ⟨0x1410, 0x40, 4, 0x0, [fr 63 0 .rw]⟩,
   ⟨0x1418, 0x40, 4, 0x0, [fr 63 32 .rw, fr 31 0 .rw]⟩,
   ⟨0x1420, 0x40, 4, 0x0, [fr 31 0 .rw]⟩,
   ⟨0x1428, 0x40, 4, 0x0, [fr 63 32 .rw, fr 31 0 .rw]⟩]

/-- Elesh Time registers (PULSE_WIDTH, PULSE_COUNT, CAP_CTRL, CAP_STAT, CAP_SEC, CAP_NSF). -/
def elTimeRows2 : List RegRow :=
  [⟨0x1430, 0x40, 4, 0x0, [fr 47 16 .rw, fr 15 0 .rw]⟩,
   ⟨0x1438, 0x40, 4, 0x0, [fr 31 0 .rw]⟩,
   ⟨0x1500, 0x20, 4, 0x0, [fr 23 8 .rw, fr 4 4 .rw, frr 3 2 .rw 0 2, fr 1 0 .rw]⟩,
   ⟨0x1508, 0x20, 4, 0x0, [fr 11 11 .w1c, fr 10 10 .w1c, fr 9 9 .ro, fr 4 0 .ro]⟩,
   ⟨0x1510, 0x20, 4, 0x0, [fr 63 0 .ro]⟩,
   ⟨0x1518, 0x20, 4, 0x0, [fr 63 32 .ro, fr 31 0 .ro]⟩]

/-- All Time rows. -/
def elTimeRows : List RegRow := elTimeRows0 ++ elTimeRows1 ++ elTimeRows2

/-- Elesh Seq registers (SEQ_CTRL, SEQ_STAT, SEQ_RUNCFG, SEQ_STEP, SEQ_STEP_CUR, SEQ_LOAD_ADDR, SEQ_LOAD_LEN, SEQ_PC, SEQ_SLIPS, SEQ_LATE, SEQ_QLEVEL, SEQ_QSTAT, SEQ_IMGHASH). -/
def elSeqRows : List RegRow :=
  [⟨0x2000, 0x8, 1, 0x0, [fr 2 2 .wo, fr 1 1 .wo, fr 0 0 .wo]⟩,
   ⟨0x2008, 0x8, 1, 0x0, [fr 15 8 .ro, fr 5 5 .ro, fr 4 4 .ro, fr 3 0 .ro]⟩,
   ⟨0x2010, 0x8, 1, 0x0, [fr 63 44 .st, fr 41 21 .st, fr 2 2 .st, fr 1 0 .st]⟩,
   ⟨0x2018, 0x8, 1, 0x0, [fr 63 0 .st]⟩,
   ⟨0x2020, 0x8, 1, 0x0, [fr 63 0 .ro]⟩,
   ⟨0x2028, 0x8, 1, 0x0, [fr 63 6 .rw]⟩,
   ⟨0x2030, 0x8, 1, 0x0, [fr 31 0 .rw]⟩,
   ⟨0x2038, 0x8, 1, 0x0, [fr 31 16 .ro, fr 15 0 .ro]⟩,
   ⟨0x2040, 0x8, 1, 0x0, [fr 63 32 .ro, fr 31 0 .ro]⟩,
   ⟨0x2048, 0x8, 1, 0xFFFFFFFF00000000, [fr 63 32 .ro, fr 31 0 .ro]⟩,
   ⟨0x2050, 0x8, 1, 0x0, [fr 49 40 .ro, fr 39 30 .ro, fr 29 20 .ro, fr 19 10 .ro, fr 9 0 .ro]⟩,
   ⟨0x2058, 0x8, 1, 0x0, [fr 63 63 .w1c, fr 51 48 .ro, fr 47 45 .ro, fr 31 16 .ro, fr 15 0 .ro]⟩,
   ⟨0x2060, 0x8, 6, 0x0, [fr 63 0 .ro]⟩]

/-- Elesh Link registers (LINK_CTRL, HC_STAT, HC_CTRL, LANE_CTRL, LANE_STAT, LANE_DELAY, LANE_TCAL, LANE_ERR, LANE_FEC, LANE_CRED). -/
def elLinkRows : List RegRow :=
  [⟨0x3000, 0x8, 1, 0x0, [fr 0 0 .st]⟩,
   ⟨0x3040, 0x8, 1, 0x0, [fr 63 32 .ro, fr 11 10 .ro, fr 9 8 .ro, fr 7 7 .ro, fr 6 6 .ro, fr 5 5 .w1c, fr 4 4 .ro, fr 2 0 .ro]⟩,
   ⟨0x3048, 0x8, 1, 0x0, [fr 0 0 .wo]⟩,
   ⟨0x3100, 0x80, 2, 0x4, [fr 31 16 .rw, fr 3 3 .wo, fr 2 2 .rw, fr 1 1 .wo, fr 0 0 .wo]⟩,
   ⟨0x3108, 0x80, 2, 0x0, [fr 47 40 .ro, fr 34 32 .ro, fr 11 8 .ro, fr 4 4 .ro, fr 3 3 .ro, fr 2 0 .ro]⟩,
   ⟨0x3110, 0x80, 2, 0x0, [fr 31 0 .ro]⟩,
   ⟨0x3118, 0x80, 2, 0x0, [fr 31 16 .ro, fr 3 3 .w1c, fr 2 2 .wo, fr 0 0 .ro]⟩,
   ⟨0x3120, 0x80, 2, 0x0, [fr 63 48 .ro, fr 47 32 .ro, fr 31 16 .ro, fr 15 0 .ro]⟩,
   ⟨0x3128, 0x80, 2, 0x0, [fr 63 0 .ro]⟩,
   ⟨0x3130, 0x80, 2, 0x0, [fr 63 0 .ro]⟩]

/-- Elesh Sync registers (SYNC_CTRL, SYNC_STAT, SYNC_TMO0, SYNC_TMO1, SYNC_HINC, SYNC_PEEK_IDX, SYNC_PEEK, SYNC_LANDQ, SYNC_DLDSNAP, LARM, BAR). -/
def elSyncRows : List RegRow :=
  [⟨0x4000, 0x8, 1, 0x1000000000, [frr 39 16 .rw 1 16777215]⟩,
   ⟨0x4008, 0x8, 1, 0x0, [fr 7 7 .w1c, fr 6 6 .w1c, fr 5 5 .w1c, fr 4 4 .w1c, fr 3 3 .w1c, fr 2 2 .w1c, fr 1 1 .w1c]⟩,
   ⟨0x4010, 0x8, 1, 0xF4240000F4240, [fr 57 56 .rw, frr 55 32 .rw 1 16777215, fr 25 24 .rw, frr 23 0 .rw 1 16777215]⟩,
   ⟨0x4018, 0x8, 1, 0x1000000000F4240, [fr 57 56 .rw, fr 25 24 .rw, frr 23 0 .rw 1 16777215]⟩,
   ⟨0x4020, 0x8, 1, 0x0, [fr 63 56 .wo, fr 55 50 .wo, fr 39 0 .wo]⟩,
   ⟨0x4028, 0x8, 1, 0x0, [fr 13 0 .rw]⟩,
   ⟨0x4030, 0x8, 1, 0x0, [fr 39 0 .ro]⟩,
   ⟨0x4038, 0x8, 1, 0x0, [fr 25 16 .ro, fr 9 0 .ro]⟩,
   ⟨0x4040, 0x8, 1, 0x0, [fr 12 0 .ro]⟩,
   ⟨0x4400, 0x8, 64, 0x0, [fr 63 48 .ro, fr 47 32 .ro, fr 31 16 .ro, fr 15 0 .ro]⟩,
   ⟨0x4800, 0x8, 256, 0xF4240FFFF, [fr 63 48 .ro, fr 47 46 .ro, fr 45 45 .ro, frr 39 16 .rw 1 16777215, fr 15 0 .st]⟩]

/-- Elesh Tal registers (TAL_STAT, TAL_CNT, TAL_LAST). -/
def elTalRows : List RegRow :=
  [⟨0x5000, 0x8, 1, 0x0, [fr 15 12 .ro, fr 4 4 .w1c, fr 3 3 .w1c, fr 2 2 .w1c, fr 1 1 .w1c, fr 0 0 .ro]⟩,
   ⟨0x5008, 0x8, 1, 0x0, [fr 63 48 .ro, fr 47 32 .ro, fr 31 0 .ro]⟩,
   ⟨0x5010, 0x8, 1, 0x0, [fr 63 60 .ro, fr 59 54 .ro, fr 47 32 .ro, fr 15 0 .ro]⟩]

/-- Elesh Chk registers (CHK_CTRL, CHK_STAT, CHK_SEAL, CHK_FAILSTEP, CHK_REPEAT, CHK_TALWIN0, CHK_TALWIN1, CHK_CNT, CHK_SUSP_STEP, CHK_SUSP_INFO, CHK_SUSP_VALA, CHK_SUSP_VALB). -/
def elChkRows : List RegRow :=
  [⟨0x6000, 0x8, 1, 0x0, [fr 2 2 .st, fr 1 1 .st, fr 0 0 .st]⟩,
   ⟨0x6008, 0x8, 1, 0x0, [fr 6 6 .w1c, fr 5 5 .w1c, fr 4 4 .w1c, fr 3 3 .w1c, fr 2 2 .w1c, fr 0 0 .ro]⟩,
   ⟨0x6010, 0x8, 1, 0xFFFFFFFFFFFFFFFF, [fr 63 0 .ro]⟩,
   ⟨0x6018, 0x8, 1, 0x0, [fr 63 0 .ro]⟩,
   ⟨0x6020, 0x8, 1, 0x40, [fr 39 16 .st, fr 15 0 .st]⟩,
   ⟨0x6028, 0x8, 1, 0x0, [fr 47 24 .st, fr 23 0 .st]⟩,
   ⟨0x6030, 0x8, 1, 0x0, [fr 55 32 .st, fr 31 0 .st]⟩,
   ⟨0x6038, 0x8, 1, 0x0, [fr 63 48 .ro, fr 47 32 .ro, fr 31 16 .ro, fr 15 0 .ro]⟩,
   ⟨0x6080, 0x20, 4, 0x0, [fr 63 0 .ro]⟩,
   ⟨0x6088, 0x20, 4, 0x0, [fr 63 48 .ro, fr 47 44 .ro, fr 0 0 .ro]⟩,
   ⟨0x6090, 0x20, 4, 0x0, [fr 63 0 .ro]⟩,
   ⟨0x6098, 0x20, 4, 0x0, [fr 63 0 .ro]⟩]

/-- Elesh Seed registers (SEED_RUNKEY0, SEED_RUNKEY1, SEED_RKCHK, SEED_DP, SEED_STAT, SEED_S_CFG0, SEED_S_CFG1, SEED_S_CURSOR, SEED_S_CUR). -/
def elSeedRows : List RegRow :=
  [⟨0x7000, 0x8, 1, 0x0, [fr 63 0 .st]⟩,
   ⟨0x7008, 0x8, 1, 0x0, [fr 63 0 .st]⟩,
   ⟨0x7010, 0x8, 1, 0x0, [fr 32 32 .ro, fr 31 0 .ro]⟩,
   ⟨0x7018, 0x8, 1, 0x0, [fr 19 0 .st]⟩,
   ⟨0x7020, 0x8, 1, 0x0, [fr 63 32 .ro, fr 1 1 .w1c, fr 0 0 .w1c]⟩,
   ⟨0x7100, 0x20, 64, 0x0, [fr 63 24 .st, fr 23 0 .st]⟩,
   ⟨0x7108, 0x20, 64, 0x0, [fr 63 32 .st, fr 31 12 .st, fr 0 0 .st]⟩,
   ⟨0x7110, 0x20, 64, 0xFFFFFFFFFFFFFFFF, [fr 63 0 .ro]⟩,
   ⟨0x7118, 0x20, 64, 0x0, [fr 63 24 .ro, fr 23 0 .ro]⟩]

/-- Elesh Dma registers (DMA_CTRL, DMA_GO, DMA_STAT, DMA_RING_BASE, DMA_RING_SIZE, DMA_RESIDUE, DMA_CNT, DMA_IRQEN, DMAG_CTRL, SPM_CTRL, SPM_STAT, SPM_CNT, SPM_PERR). -/
def elDmaRows : List RegRow :=
  [⟨0x8000, 0x100, 16, 0x30000, [fr 19 16 .rw, fr 1 1 .wo, fr 0 0 .wo]⟩,
   ⟨0x8008, 0x100, 16, 0x0, [fr 15 0 .wo]⟩,
   ⟨0x8010, 0x100, 16, 0x0, [fr 63 48 .ro, fr 47 32 .ro, fr 31 28 .ro, fr 27 24 .ro, fr 11 11 .w1c, fr 10 10 .w1c, fr 9 9 .w1c, fr 8 8 .w1c, fr 7 7 .w1c, fr 6 6 .w1c, fr 2 0 .ro]⟩,
   ⟨0x8018, 0x100, 16, 0x0, [fr 63 6 .rw]⟩,
   ⟨0x8020, 0x100, 16, 0x10000, [frr 16 0 .rw 1 65536]⟩,
   ⟨0x8028, 0x100, 16, 0x0, [fr 40 0 .ro]⟩,
   ⟨0x8030, 0x100, 16, 0x0, [fr 63 32 .ro, fr 31 0 .ro]⟩,
   ⟨0x8038, 0x100, 16, 0xF, [fr 3 3 .rw, fr 2 2 .rw, fr 1 1 .rw, fr 0 0 .rw]⟩,
   ⟨0x80C0, 0x8, 1, 0x10, [frr 6 0 .rw 1 64]⟩,
   ⟨0x80C8, 0x8, 1, 0x10000, [frr 23 0 .rw 1 16777215]⟩,
   ⟨0x80D0, 0x8, 1, 0x0, [fr 4 4 .ro, fr 3 3 .w1c, fr 2 2 .w1c, fr 1 1 .w1c, fr 0 0 .w1c]⟩,
   ⟨0x80D8, 0x8, 1, 0x0, [fr 63 48 .ro, fr 47 32 .ro, fr 31 16 .ro]⟩,
   ⟨0x80E0, 0x8, 1, 0x0, [fr 63 60 .ro, fr 23 0 .ro]⟩]

/-- Elesh Guard registers (GUARD_CTRL, GUARD_STAT, GUARD_WD, GUARD_DUMP_IDX, GUARD_DUMP_DATA). -/
def elGuardRows : List RegRow :=
  [⟨0x9000, 0x8, 1, 0x2000000004, [frr 39 24 .rw 1 65535, fr 3 3 .rw, fr 2 2 .rw, fr 1 1 .rw, fr 0 0 .wo]⟩,
   ⟨0x9008, 0x8, 1, 0x0, [fr 63 48 .ro, fr 47 32 .ro, fr 31 24 .ro, fr 23 20 .ro, fr 19 18 .ro, fr 7 7 .ro, fr 6 6 .ro, fr 5 5 .w1c, fr 4 4 .ro, fr 3 3 .ro]⟩,
   ⟨0x9010, 0x8, 1, 0x10F4240, [fr 32 26 .rw, fr 25 24 .rw, frr 23 0 .rw 1 16777215]⟩,
   ⟨0x9018, 0x8, 1, 0x0, [fr 14 0 .rw]⟩,
   ⟨0x9020, 0x8, 1, 0x0, [fr 63 0 .ro]⟩]

/-- Elesh Pwr registers (PWR, PWR_STAT, CLK_CTRL, CLK_STAT, CLK_STRETCH). -/
def elPwrRows : List RegRow :=
  [⟨0xA000, 0x8, 1, 0x1F, [fr 12 9 .rw, fr 8 8 .rw, fr 4 0 .rw]⟩,
   ⟨0xA008, 0x8, 1, 0x2AAA, [fr 47 16 .ro, fr 15 15 .ro, fr 14 14 .ro, fr 13 0 .ro]⟩,
   ⟨0xA010, 0x8, 1, 0x1810000100601, [frr 49 41 .rw 25 256, frr 40 32 .rw 25 256, fr 23 16 .rw, fr 15 8 .rw, fr 0 0 .rw]⟩,
   ⟨0xA018, 0x8, 1, 0x10000000000, [fr 40 32 .ro, fr 7 6 .ro, fr 5 5 .ro, fr 4 4 .ro, fr 3 3 .ro, fr 2 2 .w1c, fr 1 0 .ro]⟩,
   ⟨0xA020, 0x8, 1, 0x0, [fr 63 48 .ro, fr 47 32 .ro, fr 31 16 .ro, fr 15 0 .ro]⟩]

/-- Elesh Man registers (MAN_CTRL, MAN_STAT, MAN_AT_SEC, MAN_AT_NSF, MAN_UNITEN, MAN_DRAIN). -/
def elManRows : List RegRow :=
  [⟨0xB000, 0x8, 1, 0x0, [fr 3 3 .wo, fr 2 2 .wo, fr 1 1 .wo, fr 0 0 .wo]⟩,
   ⟨0xB008, 0x8, 1, 0x4, [fr 51 32 .ro, fr 29 20 .ro, fr 7 4 .ro, fr 3 3 .w1c, fr 2 2 .ro, fr 1 0 .ro]⟩,
   ⟨0xB010, 0x8, 1, 0x0, [fr 63 0 .rw]⟩,
   ⟨0xB018, 0x8, 1, 0x0, [fr 63 32 .rw, fr 31 0 .rw]⟩,
   ⟨0xB020, 0x8, 1, 0x3E, [fr 5 1 .st]⟩,
   ⟨0xB028, 0x8, 1, 0x64, [frr 23 0 .rw 1 16777215]⟩]

/-- Elesh Sec registers (SEC_CTRL, SEC_STAT, SEC_KUSE, SEC_LKEY, SEC_LKGEN, SEC_KSLOT_ID). -/
def elSecRows : List RegRow :=
  [⟨0xC000, 0x8, 1, 0x0, [fr 5 5 .w1c, fr 4 4 .wo, fr 2 2 .rwl, fr 1 1 .wo, fr 0 0 .w1s]⟩,
   ⟨0xC008, 0x8, 1, 0x0, [fr 63 32 .ro, fr 12 8 .ro, fr 4 4 .w1c, fr 3 3 .ro, fr 2 2 .ro, fr 0 0 .ro]⟩,
   ⟨0xC010, 0x8, 1, 0x0, [fr 31 24 .w1s, fr 23 0 .rwl]⟩,
   ⟨0xC020, 0x8, 4, 0x0, [fr 63 0 .wo]⟩,
   ⟨0xC040, 0x8, 1, 0x0, [fr 2 0 .st]⟩,
   ⟨0xC100, 0x8, 8, 0x0, [fr 63 0 .rwl]⟩]

/-- Elesh Test registers (TEST_CTRL, TEST_STREQ, TEST_STSTAT, TEST_LINK, TEST_CLK, TEST_PFLIP). -/
def elTestRows : List RegRow :=
  [⟨0xD000, 0x8, 1, 0x0, [fr 0 0 .rw]⟩,
   ⟨0xD008, 0x8, 1, 0x0, [frr 31 24 .rw 1 4, fr 23 16 .rw, fr 1 1 .rw, fr 0 0 .wo]⟩,
   ⟨0xD010, 0x8, 1, 0x0, [fr 7 4 .ro, fr 3 0 .ro]⟩,
   ⟨0xD018, 0x8, 1, 0x0, [fr 63 63 .rw, fr 47 40 .rw, fr 39 32 .rw, fr 31 16 .rw, fr 15 14 .rw, frr 9 0 .rw 0 1000]⟩,
   ⟨0xD020, 0x8, 1, 0x0, [fr 63 63 .rw, fr 23 20 .rw, fr 19 16 .rw, fr 15 0 .rw]⟩,
   ⟨0xD028, 0x8, 1, 0x0, [fr 63 63 .rw, fr 24 24 .rw, fr 23 0 .rw]⟩]

/-- Elesh Ident registers (IDENT_ID, IDENT_PARAM0, IDENT_PARAM1, IDENT_ERR). -/
def elIdentRows : List RegRow :=
  [⟨0x0, 0x8, 1, 0x6F150E1E00000000, [fr 63 48 .ro, fr 47 32 .ro, fr 31 16 .ro]⟩,
   ⟨0x8, 0x8, 1, 0x0, [fr 63 48 .ro, fr 47 40 .ro, fr 39 32 .ro, fr 31 28 .ro, fr 27 24 .ro, fr 23 19 .ro, fr 18 16 .ro, fr 8 0 .ro]⟩,
   ⟨0x10, 0x8, 1, 0x0, [fr 15 8 .ro, fr 1 0 .ro]⟩,
   ⟨0x18, 0x8, 1, 0x0, [fr 55 52 .ro, fr 51 50 .ro, fr 49 49 .ro, fr 48 48 .w1c, fr 47 0 .ro]⟩]

/-- Uhloux Time registers (TIME_CTRL, TIME_STAT, FRC_LO, FRC_HI, TB_CTRL, TB_STAT, TB_OFS_SEC, TB_OFS_NSF, TB_ANCHOR_LO, TB_ANCHOR_HI, TB_RATE, TB_STEP_SEC). -/
def uxTimeRows0 : List RegRow :=
  [⟨0x1000, 0x8, 1, 0x1F4, [frr 15 0 .rw 1 2000]⟩,
   ⟨0x1008, 0x8, 1, 0x0, [fr 3 3 .ro, fr 1 1 .ro, fr 0 0 .ro]⟩,
   ⟨0x1010, 0x8, 1, 0x0, [fr 63 0 .ro]⟩,
   ⟨0x1018, 0x8, 1, 0x0, [fr 15 0 .ro]⟩,
   ⟨0x1100, 0x80, 1, 0x0, []⟩,
   ⟨0x1280, 0x80, 1, 0x0, [fr 1 1 .wo, fr 0 0 .wo]⟩,
   ⟨0x1108, 0x180, 2, 0x0, [fr 39 8 .ro, fr 5 5 .w1c, fr 4 4 .ro, fr 3 3 .w1c, fr 2 0 .ro]⟩,
   ⟨0x1110, 0x180, 2, 0x0, [fr 63 0 .ro]⟩,
   ⟨0x1118, 0x180, 2, 0x0, [fr 63 32 .ro, fr 31 0 .ro]⟩,
   ⟨0x1120, 0x180, 2, 0x0, [fr 63 0 .ro]⟩,
   ⟨0x1128, 0x180, 2, 0x0, [fr 15 0 .ro]⟩,
   ⟨0x1130, 0x80, 1, 0x0, [fr 63 40 .ro, fr 39 0 .ro]⟩,
   ⟨0x12B0, 0x80, 1, 0x0, [fr 63 40 .ro, fr 39 0 .rw]⟩,
   ⟨0x1138, 0x80, 1, 0x0, []⟩]

/-- Uhloux Time registers (TB_STEP_SEC, TB_STEP_NSF, TB_READ_SEC, TB_READ_NSF, PULSE_CTRL, PULSE_STAT, PULSE_START_SEC, PULSE_START_NSF, PULSE_PER_SEC). -/
def uxTimeRows1 : List RegRow :=
  [⟨0x12B8, 0x80, 1, 0x0, [fr 63 0 .rw]⟩,
   ⟨0x1140, 0x80, 1, 0x0, []⟩,
   ⟨0x12C0, 0x80, 1, 0x0, [fr 63 32 .rw, fr 31 0 .rw]⟩,
   ⟨0x1148, 0x180, 2, 0x0, [fr 63 0 .ro]⟩,
   ⟨0x1150, 0x180, 2, 0x0, [fr 63 32 .ro, fr 31 0 .ro]⟩,
   ⟨0x1400, 0x40, 4, 0x0, [fr 7 7 .wo, fr 6 6 .wo, fr 5 5 .rw, frr 4 3 .rw 0 2, fr 1 0 .rw]⟩,
   ⟨0x1600, 0x40, 4, 0x0, [fr 7 7 .wo, fr 6 6 .wo, fr 5 5 .rw, frr 4 3 .rw 0 2, fr 1 0 .rw]⟩,
   ⟨0x1408, 0x40, 4, 0x0, [fr 33 33 .w1c, fr 32 32 .ro, fr 31 0 .ro]⟩,
   ⟨0x1608, 0x40, 4, 0x0, [fr 33 33 .w1c, fr 32 32 .ro, fr 31 0 .ro]⟩,
   ⟨0x1410, 0x40, 4, 0x0, [fr 63 0 .rw]⟩,
   ⟨0x1610, 0x40, 4, 0x0, [fr 63 0 .rw]⟩,
   ⟨0x1418, 0x40, 4, 0x0, [fr 63 32 .rw, fr 31 0 .rw]⟩,
   ⟨0x1618, 0x40, 4, 0x0, [fr 63 32 .rw, fr 31 0 .rw]⟩,
   ⟨0x1420, 0x40, 4, 0x0, [fr 31 0 .rw]⟩]

/-- Uhloux Time registers (PULSE_PER_SEC, PULSE_PER_NSF, PULSE_WIDTH, PULSE_COUNT, CAP_CTRL, CAP_STAT, CAP_SEC, CAP_NSF). -/
def uxTimeRows2 : List RegRow :=
  [⟨0x1620, 0x40, 4, 0x0, [fr 31 0 .rw]⟩,
   ⟨0x1428, 0x40, 4, 0x0, [fr 63 32 .rw, fr 31 0 .rw]⟩,
   ⟨0x1628, 0x40, 4, 0x0, [fr 63 32 .rw, fr 31 0 .rw]⟩,
   ⟨0x1430, 0x40, 4, 0x0, [fr 47 16 .rw, fr 15 0 .rw]⟩,
   ⟨0x1630, 0x40, 4, 0x0, [fr 47 16 .rw, fr 15 0 .rw]⟩,
   ⟨0x1438, 0x40, 4, 0x0, [fr 31 0 .rw]⟩,
   ⟨0x1638, 0x40, 4, 0x0, [fr 31 0 .rw]⟩,
   ⟨0x1500, 0x20, 4, 0x0, [fr 23 8 .rw, fr 4 4 .rw, frr 3 2 .rw 0 2, fr 1 0 .rw]⟩,
   ⟨0x1508, 0x20, 4, 0x0, [fr 11 11 .w1c, fr 10 10 .w1c, fr 9 9 .ro, fr 4 0 .ro]⟩,
   ⟨0x1510, 0x20, 4, 0x0, [fr 63 0 .ro]⟩,
   ⟨0x1518, 0x20, 4, 0x0, [fr 63 32 .ro, fr 31 0 .ro]⟩]

/-- All Time rows. -/
def uxTimeRows : List RegRow := uxTimeRows0 ++ uxTimeRows1 ++ uxTimeRows2

/-- Uhloux Seq registers (SEQ_CTRL, SEQ_STAT, SEQ_LOAD_ADDR, SEQ_LOAD_LEN, SEQ_PC, SEQ_SLIPS, SEQ_LATE, SEQ_QLEVEL, SEQ_QSTAT, SEQ_IMGHASH). -/
def uxSeqRows : List RegRow :=
  [⟨0x2000, 0x8, 1, 0x0, [fr 2 2 .wo, fr 1 1 .wo, fr 0 0 .wo]⟩,
   ⟨0x2008, 0x8, 1, 0x0, [fr 15 8 .ro, fr 5 5 .ro, fr 4 4 .ro, fr 3 0 .ro]⟩,
   ⟨0x2028, 0x8, 1, 0x0, [fr 63 6 .rw]⟩,
   ⟨0x2030, 0x8, 1, 0x0, [fr 31 0 .rw]⟩,
   ⟨0x2038, 0x8, 1, 0x0, [fr 31 16 .ro, fr 15 0 .ro]⟩,
   ⟨0x2040, 0x8, 1, 0x0, [fr 63 32 .ro, fr 31 0 .ro]⟩,
   ⟨0x2048, 0x8, 1, 0xFFFFFFFF00000000, [fr 63 32 .ro, fr 31 0 .ro]⟩,
   ⟨0x2050, 0x8, 1, 0x0, [fr 49 40 .ro, fr 39 30 .ro, fr 29 20 .ro, fr 19 10 .ro, fr 9 0 .ro]⟩,
   ⟨0x2058, 0x8, 1, 0x0, [fr 63 63 .w1c, fr 51 48 .ro, fr 47 45 .ro, fr 31 16 .ro, fr 15 0 .ro]⟩,
   ⟨0x2060, 0x8, 6, 0x0, [fr 63 0 .ro]⟩]

/-- Uhloux Lane registers (LANE_CTRL, LANE_STAT, LANE_DELAY, LANE_TCAL, LANE_ERR, LANE_FEC, LANE_CRED, UX_LANE_HC). -/
def uxLaneRows : List RegRow :=
  [⟨0x40000, 0x100, 160, 0x4, [fr 31 16 .rw, fr 3 3 .wo, fr 2 2 .rw, fr 1 1 .wo, fr 0 0 .wo]⟩,
   ⟨0x40008, 0x100, 160, 0x0, [fr 47 40 .ro, fr 34 32 .ro, fr 11 8 .ro, fr 4 4 .ro, fr 3 3 .ro, fr 2 0 .ro]⟩,
   ⟨0x40010, 0x100, 160, 0x0, [fr 31 0 .ro]⟩,
   ⟨0x40018, 0x100, 160, 0x0, [fr 47 32 .st, fr 31 16 .ro, fr 3 3 .w1c, fr 2 2 .wo, fr 1 1 .ro, fr 0 0 .ro]⟩,
   ⟨0x40020, 0x100, 160, 0x0, [fr 63 48 .ro, fr 47 32 .ro, fr 31 16 .ro, fr 15 0 .ro]⟩,
   ⟨0x40028, 0x100, 160, 0x0, [fr 63 0 .ro]⟩,
   ⟨0x40030, 0x100, 160, 0x0, [fr 63 0 .ro]⟩,
   ⟨0x40038, 0x100, 160, 0xFFFF0000000000, [fr 63 56 .ro, fr 55 40 .ro, fr 34 32 .ro, fr 31 30 .ro, fr 29 28 .ro, fr 27 27 .ro, fr 26 26 .w1c, fr 25 25 .st, fr 24 24 .ro]⟩]

/-- Uhloux Guard registers (GUARD_CTRL, GUARD_STAT, GUARD_WD, GUARD_DUMP_IDX, GUARD_DUMP_DATA). -/
def uxGuardRows : List RegRow :=
  [⟨0x9000, 0x8, 1, 0x2000000004, [frr 39 24 .rw 1 65535, fr 3 3 .rw, fr 2 2 .rw, fr 1 1 .rw, fr 0 0 .wo]⟩,
   ⟨0x9008, 0x8, 1, 0x0, [fr 63 48 .ro, fr 47 32 .ro, fr 31 24 .ro, fr 23 20 .ro, fr 19 18 .ro, fr 7 7 .ro, fr 6 6 .ro, fr 5 5 .w1c, fr 4 4 .ro, fr 3 3 .ro]⟩,
   ⟨0x9010, 0x8, 1, 0x10F4240, [fr 32 26 .rw, fr 25 24 .rw, frr 23 0 .rw 1 16777215]⟩,
   ⟨0x9018, 0x8, 1, 0x0, [fr 16 0 .rw]⟩,
   ⟨0x9020, 0x8, 1, 0x0, [fr 63 0 .ro]⟩]

/-- Uhloux Man registers (MAN_CTRL, MAN_STAT, MAN_AT_SEC, MAN_AT_NSF, MAN_DRAIN, UX_MAN_STAGED, UX_MAN_HALL_AT_SEC, UX_MAN_HALL_AT_NSF, UX_MAN_HALL_CTRL). -/
def uxManRows : List RegRow :=
  [⟨0xB000, 0x8, 1, 0x0, [fr 3 3 .wo, fr 2 2 .wo, fr 1 1 .wo, fr 0 0 .wo]⟩,
   ⟨0xB008, 0x8, 1, 0x4, [fr 51 32 .ro, fr 29 20 .ro, fr 7 4 .ro, fr 3 3 .w1c, fr 2 2 .ro, fr 1 0 .ro]⟩,
   ⟨0xB010, 0x8, 1, 0x0, [fr 63 0 .rw]⟩,
   ⟨0xB018, 0x8, 1, 0x0, [fr 63 32 .rw, fr 31 0 .rw]⟩,
   ⟨0xB028, 0x8, 1, 0x64, [frr 23 0 .rw 1 16777215]⟩,
   ⟨0xB030, 0x8, 1, 0x0, [fr 12 0 .ro]⟩,
   ⟨0xB040, 0x8, 1, 0x0, [fr 63 0 .rw]⟩,
   ⟨0xB048, 0x8, 1, 0x0, [fr 63 0 .rw]⟩,
   ⟨0xB050, 0x8, 1, 0xA000186A00000, [fr 63 48 .rw, fr 47 16 .rw, fr 5 2 .ro, fr 1 1 .ro, fr 0 0 .wo]⟩]

/-- Uhloux Sec registers (SEC_CTRL, SEC_STAT, SEC_KUSE, SEC_LKEY, SEC_LKGEN, SEC_KSLOT_ID, UX_SEC_ALLOW). -/
def uxSecRows : List RegRow :=
  [⟨0xC000, 0x8, 1, 0x0, [fr 5 5 .w1c, fr 4 4 .wo, fr 2 2 .rwl, fr 1 1 .wo, fr 0 0 .w1s]⟩,
   ⟨0xC008, 0x8, 1, 0x0, [fr 63 32 .ro, fr 12 8 .ro, fr 4 4 .w1c, fr 3 3 .ro, fr 2 2 .ro, fr 0 0 .ro]⟩,
   ⟨0xC010, 0x8, 1, 0x0, [fr 31 24 .w1s, fr 23 0 .rwl]⟩,
   ⟨0xC020, 0x8, 4, 0x0, [fr 63 0 .wo]⟩,
   ⟨0xC040, 0x8, 1, 0x0, [fr 2 0 .st]⟩,
   ⟨0xC100, 0x8, 8, 0x0, [fr 63 0 .rwl]⟩,
   ⟨0xC048, 0x8, 1, 0x0, [fr 47 16 .rw, fr 15 0 .rw]⟩]

/-- Uhloux Test registers (TEST_CTRL, TEST_STREQ, TEST_STSTAT, TEST_LINK, TEST_CLK, UX_TEST_REFSTORM). -/
def uxTestRows : List RegRow :=
  [⟨0xD000, 0x8, 1, 0x0, [fr 0 0 .rw]⟩,
   ⟨0xD008, 0x8, 1, 0x0, [frr 31 24 .rw 1 4, fr 23 16 .rw, fr 1 1 .rw, fr 0 0 .wo]⟩,
   ⟨0xD010, 0x8, 1, 0x0, [fr 7 4 .ro, fr 3 0 .ro]⟩,
   ⟨0xD018, 0x8, 1, 0x0, [fr 63 63 .rw, fr 47 40 .rw, fr 39 32 .rw, fr 31 16 .rw, fr 15 14 .rw, frr 9 0 .rw 0 1000]⟩,
   ⟨0xD020, 0x8, 1, 0x0, [fr 63 63 .rw, fr 23 20 .rw, fr 19 16 .rw, fr 15 0 .rw]⟩,
   ⟨0xD030, 0x8, 1, 0x0, [fr 63 63 .rw, fr 11 4 .rw, fr 3 0 .rw]⟩]

/-- Uhloux Ident registers (UX_IDENT_ID, UX_IDENT_ROLE, UX_IDENT_HBM, UX_HWIN, UX_LIDX_SEL, UX_VWIN_SEL, UX_IDENT_ERR). -/
def uxIdentRows : List RegRow :=
  [⟨0x0, 0x8, 1, 0x6F15012800000000, [fr 63 48 .ro, fr 47 32 .ro, fr 31 16 .ro]⟩,
   ⟨0x8, 0x8, 1, 0x0, [fr 18 8 .st, fr 3 3 .st, frr 1 0 .st 0 2]⟩,
   ⟨0x10, 0x8, 1, 0x0, [fr 7 0 .ro]⟩,
   ⟨0x18, 0x8, 1, 0x0, [fr 47 24 .rw]⟩,
   ⟨0x20, 0x8, 1, 0x0, [fr 4 0 .rw]⟩,
   ⟨0x28, 0x8, 1, 0x0, [fr 16 16 .ro, fr 15 15 .rw, fr 14 8 .rw, fr 5 0 .rw]⟩,
   ⟨0x30, 0x8, 1, 0x0, [fr 55 52 .ro, fr 51 50 .ro, fr 49 49 .ro, fr 48 48 .w1c, fr 47 0 .ro]⟩]

/-- Uhloux Ref registers (UX_REF_CTRL, UX_REF_STAT, UX_REF_PRIO, UX_REF_FORCE, UX_REF_TAIOFS_SEC, UX_REF_TAIOFS_NSF, UX_DCO_NOMINAL, UX_DCO_STEER, UX_DCO_STAT, UX_DCO_HIST, UX_XPLANE_DIFF, UX_XPLANE_CTRL, UX_REF_IN_CFG, UX_REF_IN_STAT). -/
def uxRefRows0 : List RegRow :=
  [⟨0x3000, 0x8, 1, 0x12C00780A649250, [fr 63 48 .rw, fr 47 32 .rw, fr 31 24 .rw, fr 23 16 .rw, frr 15 11 .rw 0 18, frr 10 6 .rw 0 18, fr 5 5 .rw, fr 4 4 .rw, frr 3 2 .rw 0 2, fr 1 1 .wo]⟩,
   ⟨0x3008, 0x8, 1, 0x0, [fr 63 48 .ro, fr 39 32 .ro, fr 31 24 .ro, fr 15 15 .w1c, fr 14 14 .w1c, fr 13 13 .w1c, fr 7 7 .ro, fr 6 6 .ro, fr 5 3 .ro, fr 1 0 .ro]⟩,
   ⟨0x3010, 0x8, 1, 0x86, [fr 63 63 .st, fr 58 56 .st, fr 55 55 .st, fr 50 48 .st, fr 47 47 .st, fr 42 40 .st, fr 39 39 .st, fr 34 32 .st, fr 31 31 .st, fr 26 24 .st, fr 23 23 .st, fr 18 16 .st, fr 15 15 .st, fr 10 8 .st, fr 7 7 .st, fr 2 0 .st]⟩,
   ⟨0x3018, 0x8, 1, 0x0, [fr 2 0 .rw]⟩,
   ⟨0x3020, 0x8, 1, 0x0, [fr 63 0 .ro]⟩,
   ⟨0x3028, 0x8, 1, 0x0, [fr 63 32 .ro, fr 31 0 .ro]⟩,
   ⟨0x3030, 0x8, 1, 0x0, [fr 63 40 .ro, fr 39 0 .rw]⟩,
   ⟨0x3038, 0x8, 1, 0x0, [fr 63 40 .ro, fr 39 0 .rw]⟩,
   ⟨0x3040, 0x8, 1, 0x0, [fr 63 40 .ro, fr 39 0 .ro]⟩,
   ⟨0x3048, 0x8, 1, 0x0, [fr 63 40 .ro, fr 39 0 .ro]⟩,
   ⟨0x3050, 0x8, 1, 0x8000000000000000, [fr 63 0 .ro]⟩,
   ⟨0x3058, 0x8, 1, 0x5, [fr 15 0 .rw]⟩,
   ⟨0x3100, 0x20, 4, 0x0, [fr 31 16 .rw, fr 7 7 .rw, fr 6 6 .rw, fr 5 5 .rw, frr 2 0 .rw 0 3]⟩,
   ⟨0x3108, 0x20, 4, 0x0, [fr 63 32 .ro, fr 3 3 .ro, fr 2 2 .w1c, fr 1 1 .ro, fr 0 0 .ro]⟩]

/-- Uhloux Ref registers (UX_REF_IN_TOD, UX_TP_CFG, UX_TP_STAT). -/
def uxRefRows1 : List RegRow :=
  [⟨0x3110, 0x20, 4, 0x0, [fr 63 0 .rw]⟩,
   ⟨0x3180, 0x10, 2, 0x18004000, [fr 47 32 .rw, fr 31 24 .rw, fr 17 16 .rw, fr 15 12 .rw, fr 2 2 .rw, fr 1 1 .rw, fr 0 0 .rw]⟩,
   ⟨0x3188, 0x10, 2, 0x0, [fr 63 32 .ro, fr 31 16 .ro, fr 15 12 .ro, fr 7 7 .ro, fr 6 6 .ro, fr 2 2 .w1c, fr 1 1 .ro, fr 0 0 .ro]⟩]

/-- All Ref rows. -/
def uxRefRows : List RegRow := uxRefRows0 ++ uxRefRows1

/-- Uhloux Sync registers (UX_SYNC_CTRL, UX_LAUNCH_CTRL, UX_LAUNCH_DL, UX_LAUNCH_CNT). -/
def uxSyncRows : List RegRow :=
  [⟨0x4000, 0x8, 1, 0x10F4240000F4240, [fr 57 56 .rw, frr 55 32 .rw 1 16777215, fr 25 24 .rw, frr 23 0 .rw 1 16777215]⟩,
   ⟨0x4008, 0x8, 1, 0xC8, [fr 16 16 .st, fr 15 0 .rw]⟩,
   ⟨0x4010, 0x8, 1, 0x0, [fr 63 32 .ro, fr 31 0 .ro]⟩,
   ⟨0x4018, 0x8, 1, 0x0, [fr 63 32 .ro, fr 31 0 .ro]⟩]

/-- Uhloux Tal registers (UX_RED_STAT). -/
def uxTalRows : List RegRow :=
  [⟨0x5000, 0x8, 1, 0x0, [fr 63 48 .ro, fr 47 32 .ro, fr 12 0 .ro]⟩]

/-- Uhloux Ledg registers (UX_LEDG_CFG, UX_LEDG_CTRL, UX_LEDG_STAT, UX_LEDG_ARCH, UX_SEAL_CTRL, UX_SEAL_NEXT, UX_SEAL_STAT, UX_SEAL_FAIL, UX_LOCK_CTRL, UX_LOCK_DIV0, UX_LOCK_DIV1). -/
def uxLedgRows : List RegRow :=
  [⟨0x6000, 0x8, 1, 0x60000000181800, [frr 55 48 .st 1 128, fr 47 30 .st, fr 29 14 .st, fr 13 0 .ro]⟩,
   ⟨0x6008, 0x8, 1, 0x0, [fr 1 1 .wo, fr 0 0 .wo]⟩,
   ⟨0x6010, 0x8, 1, 0x0, [fr 63 32 .ro, fr 31 16 .ro, fr 2 2 .w1c, fr 1 1 .w1c, fr 0 0 .w1c]⟩,
   ⟨0x6018, 0x8, 1, 0x0, [fr 63 0 .ro]⟩,
   ⟨0x6040, 0x8, 1, 0x2, [frr 4 0 .st 1 16]⟩,
   ⟨0x6048, 0x8, 1, 0x0, [fr 63 0 .st]⟩,
   ⟨0x6050, 0x8, 1, 0xFFFFFFFFFFFFFFFF, [fr 63 0 .ro]⟩,
   ⟨0x6058, 0x8, 1, 0x0, [fr 63 44 .ro, fr 0 0 .ro]⟩,
   ⟨0x6080, 0x8, 1, 0x0, [fr 15 15 .st, fr 14 8 .st, fr 6 0 .st]⟩,
   ⟨0x6088, 0x8, 1, 0x0, [fr 63 0 .ro]⟩,
   ⟨0x6090, 0x8, 1, 0x0, [fr 63 48 .ro, fr 47 36 .ro, fr 35 16 .ro, fr 0 0 .w1c]⟩]

/-- Uhloux Hc registers (UX_HC_CTRL, UX_HC_RUN, UX_HC_STAT, UX_HC_CMD, UX_HC_SPTAB, UX_HC_PEER, UX_VAULT_CFG, UX_VAULT_STAT, UX_OCS_CFG, UX_OCS_STAT, UX_REPLACE). -/
def uxHcRows : List RegRow :=
  [⟨0x7000, 0x8, 1, 0xC0804004020E1028, [fr 63 56 .st, fr 55 48 .st, fr 47 40 .st, fr 39 32 .st, fr 31 24 .st, fr 23 8 .st, frr 7 2 .st 1 63, fr 1 1 .st]⟩,
   ⟨0x7008, 0x8, 1, 0x0, [fr 46 26 .st, fr 25 21 .st, fr 20 0 .st]⟩,
   ⟨0x7010, 0x8, 1, 0x0, [fr 63 32 .ro, fr 31 20 .ro, fr 19 8 .ro, fr 7 7 .ro, fr 6 6 .ro, fr 5 5 .ro, fr 4 4 .ro, fr 3 3 .ro]⟩,
   ⟨0x7018, 0x8, 1, 0x0, [fr 22 22 .wo, fr 21 21 .wo, fr 20 20 .wo, fr 19 0 .wo]⟩,
   ⟨0x7020, 0x8, 1, 0x0, [fr 47 12 .st, fr 11 0 .st]⟩,
   ⟨0x7028, 0x8, 1, 0x0, [fr 39 32 .st, fr 29 19 .st, fr 18 8 .st, fr 0 0 .st]⟩,
   ⟨0x7040, 0x8, 1, 0x10, [fr 47 30 .st, frr 7 0 .st 1 64]⟩,
   ⟨0x7048, 0x8, 1, 0x8000000000000000, [fr 63 56 .ro, fr 55 48 .ro, fr 2 2 .w1c, fr 1 1 .w1c, fr 0 0 .ro]⟩,
   ⟨0x7080, 0x8, 1, 0x0, [fr 47 12 .st, fr 1 1 .st, fr 0 0 .st]⟩,
   ⟨0x7088, 0x8, 1, 0x0, [fr 23 16 .ro, fr 15 0 .ro]⟩,
   ⟨0x7090, 0x8, 1, 0x3F00000000, [fr 37 32 .rw, fr 5 0 .w1c]⟩]

/-- Uhloux Pwr registers (UX_PWR_CTRL, UX_PWR_STAT, UX_CLK_CTRL, UX_CLK_STAT). -/
def uxPwrRows : List RegRow :=
  [⟨0xA000, 0x8, 1, 0x6400000000, [frr 47 32 .rw 1 65535, fr 23 0 .rw]⟩,
   ⟨0xA008, 0x8, 1, 0xAAAAAAAAAAAA, [fr 47 0 .ro]⟩,
   ⟨0xA010, 0x8, 1, 0x608, [fr 15 8 .rw, frr 3 0 .st 4 8]⟩,
   ⟨0xA018, 0x8, 1, 0x0, [fr 63 32 .ro, fr 3 3 .ro, fr 2 2 .w1c, fr 1 0 .ro]⟩]

/-- The rows of the block that holds an offset (R473). -/
def elBlock (off : Nat) : List RegRow :=
  match off / 0x1000 with
  | 1 => elTimeRows
  | 2 => elSeqRows
  | 3 => elLinkRows
  | 4 => elSyncRows
  | 5 => elTalRows
  | 6 => elChkRows
  | 7 => elSeedRows
  | 8 => elDmaRows
  | 9 => elGuardRows
  | 10 => elPwrRows
  | 11 => elManRows
  | 12 => elSecRows
  | 13 => elTestRows
  | 0 => elIdentRows
  | _ => []

/-- The rows of the block that holds an offset (R484). -/
def uxBlock (off : Nat) : List RegRow :=
  if 0x40000 ≤ off ∧ off < 0x4A000 then uxLaneRows else
  match off / 0x1000 with
  | 1 => uxTimeRows
  | 2 => uxSeqRows
  | 9 => uxGuardRows
  | 11 => uxManRows
  | 12 => uxSecRows
  | 13 => uxTestRows
  | 0 => uxIdentRows
  | 3 => uxRefRows
  | 4 => uxSyncRows
  | 5 => uxTalRows
  | 6 => uxLedgRows
  | 7 => uxHcRows
  | 10 => uxPwrRows
  | _ => []

/-- The row of a register map that holds an offset. -/
def findRow : List RegRow → Nat → Option RegRow
  | [], _ => none
  | r :: rs, off =>
    if r.base ≤ off ∧ (off - r.base) % r.stride = 0 ∧ (off - r.base) / r.stride < r.count then some r
    else findRow rs off

/-- The register at an offset of the Elesh window. -/
def elRow (off : Nat) : Option RegRow := findRow (elBlock off) off

/-- The register at an offset of Uhloux BAR0. -/
def uxRow (off : Nat) : Option RegRow := findRow (uxBlock off) off

/-- The reset word of an Elesh register; 0 at a reserved offset (R478, R490). -/
def elResetWord (off : Nat) : Word := ((elRow off).map RegRow.reset).getD 0

/-- The reset word of a Uhloux register; 0 at a reserved offset (R478, R491). -/
def uxResetWord (off : Nat) : Word := ((uxRow off).map RegRow.reset).getD 0

/-- Base of the registers of time base `n` (R63). -/
def tbBase (n : Nat) : Nat := 0x80 * n

/-- Base of the registers of pulse `i`; PULSE4 to PULSE7 lie at R485's offset. -/
def pulseBase (i : Nat) : Nat := if i < 4 then 0x1400 + 0x40 * i else 0x1600 + 0x40 * (i - 4)

namespace Reg

/-- TIME_CTRL.SLEW_LIMIT (R63). -/ def TIME_CTRL_SLEW_LIMIT : Fld := ⟨0x1000, 15, 0⟩
/-- TIME_STAT.EPOCH_TAI (R63). -/ def TIME_STAT_EPOCH_TAI : Fld := ⟨0x1008, 3, 3⟩
/-- TIME_STAT.PLANE (R63). -/ def TIME_STAT_PLANE : Fld := ⟨0x1008, 2, 2⟩
/-- TIME_STAT.CAL_B (R63). -/ def TIME_STAT_CAL_B : Fld := ⟨0x1008, 1, 1⟩
/-- TIME_STAT.CAL_A (R63). -/ def TIME_STAT_CAL_A : Fld := ⟨0x1008, 0, 0⟩
/-- FRC_LO.FRC_LO (R63). -/ def FRC_LO_FRC_LO : Fld := ⟨0x1010, 63, 0⟩
/-- FRC_HI.FRC_HI (R63). -/ def FRC_HI_FRC_HI : Fld := ⟨0x1018, 15, 0⟩
/-- TB_PLANEDIFF.DIFF (R63). -/ def TB_PLANEDIFF_DIFF : Fld := ⟨0x1020, 63, 0⟩
/-- TB2_EPOCH_SEC.SEC (R63). -/ def TB2_EPOCH_SEC_SEC : Fld := ⟨0x1028, 63, 0⟩
/-- TB2_EPOCH_NSF.NS (R63). -/ def TB2_EPOCH_NSF_NS : Fld := ⟨0x1030, 63, 32⟩
/-- TB2_EPOCH_NSF.FRAC (R63). -/ def TB2_EPOCH_NSF_FRAC : Fld := ⟨0x1030, 31, 0⟩
/-- TB_CTRL.LOCK_DECL (R63). -/ def TB_CTRL_LOCK_DECL (n : Nat) : Fld := ⟨0x1100 + 0x80 * n, 1, 1⟩
/-- TB_CTRL.STEP (R63). -/ def TB_CTRL_STEP (n : Nat) : Fld := ⟨0x1100 + 0x80 * n, 0, 0⟩
/-- TB_STAT.PHASE_ERR (R63). -/ def TB_STAT_PHASE_ERR (n : Nat) : Fld := ⟨0x1108 + 0x80 * n, 39, 8⟩
/-- TB_STAT.STEP_REFUSED (R63). -/ def TB_STAT_STEP_REFUSED (n : Nat) : Fld := ⟨0x1108 + 0x80 * n, 5, 5⟩
/-- TB_STAT.FIRST_LOCK (R63). -/ def TB_STAT_FIRST_LOCK (n : Nat) : Fld := ⟨0x1108 + 0x80 * n, 4, 4⟩
/-- TB_STAT.SLEW_CLAMP (R63). -/ def TB_STAT_SLEW_CLAMP (n : Nat) : Fld := ⟨0x1108 + 0x80 * n, 3, 3⟩
/-- TB_STAT.STATE (R63). -/ def TB_STAT_STATE (n : Nat) : Fld := ⟨0x1108 + 0x80 * n, 2, 0⟩
/-- TB_OFS_SEC.SEC (R63). -/ def TB_OFS_SEC_SEC (n : Nat) : Fld := ⟨0x1110 + 0x80 * n, 63, 0⟩
/-- TB_OFS_NSF.NS (R63). -/ def TB_OFS_NSF_NS (n : Nat) : Fld := ⟨0x1118 + 0x80 * n, 63, 32⟩
/-- TB_OFS_NSF.FRAC (R63). -/ def TB_OFS_NSF_FRAC (n : Nat) : Fld := ⟨0x1118 + 0x80 * n, 31, 0⟩
/-- TB_ANCHOR_LO.ANCHOR_LO (R63). -/ def TB_ANCHOR_LO_ANCHOR_LO (n : Nat) : Fld := ⟨0x1120 + 0x80 * n, 63, 0⟩
/-- TB_ANCHOR_HI.ANCHOR_HI (R63). -/ def TB_ANCHOR_HI_ANCHOR_HI (n : Nat) : Fld := ⟨0x1128 + 0x80 * n, 15, 0⟩
/-- TB_RATE.RATE_SX (R63). -/ def TB_RATE_RATE_SX (n : Nat) : Fld := ⟨0x1130 + 0x80 * n, 63, 40⟩
/-- TB_RATE.RATE (R63). -/ def TB_RATE_RATE (n : Nat) : Fld := ⟨0x1130 + 0x80 * n, 39, 0⟩
/-- TB_STEP_SEC.SEC (R63). -/ def TB_STEP_SEC_SEC (n : Nat) : Fld := ⟨0x1138 + 0x80 * n, 63, 0⟩
/-- TB_STEP_NSF.NS (R63). -/ def TB_STEP_NSF_NS (n : Nat) : Fld := ⟨0x1140 + 0x80 * n, 63, 32⟩
/-- TB_STEP_NSF.FRAC (R63). -/ def TB_STEP_NSF_FRAC (n : Nat) : Fld := ⟨0x1140 + 0x80 * n, 31, 0⟩
/-- TB_READ_SEC.SEC (R63). -/ def TB_READ_SEC_SEC (n : Nat) : Fld := ⟨0x1148 + 0x80 * n, 63, 0⟩
/-- TB_READ_NSF.NS (R63). -/ def TB_READ_NSF_NS (n : Nat) : Fld := ⟨0x1150 + 0x80 * n, 63, 32⟩
/-- TB_READ_NSF.FRAC (R63). -/ def TB_READ_NSF_FRAC (n : Nat) : Fld := ⟨0x1150 + 0x80 * n, 31, 0⟩
/-- PULSE_CTRL.ARM (R63). -/ def PULSE_CTRL_ARM (i : Nat) : Fld := ⟨pulseBase i + 0x0, 7, 7⟩
/-- PULSE_CTRL.DISARM (R63). -/ def PULSE_CTRL_DISARM (i : Nat) : Fld := ⟨pulseBase i + 0x0, 6, 6⟩
/-- PULSE_CTRL.POL (R63). -/ def PULSE_CTRL_POL (i : Nat) : Fld := ⟨pulseBase i + 0x0, 5, 5⟩
/-- PULSE_CTRL.MODE (R63). -/ def PULSE_CTRL_MODE (i : Nat) : Fld := ⟨pulseBase i + 0x0, 4, 3⟩
/-- PULSE_CTRL.TB (R63). -/ def PULSE_CTRL_TB (i : Nat) : Fld := ⟨pulseBase i + 0x0, 1, 0⟩
/-- PULSE_STAT.LATE (R63). -/ def PULSE_STAT_LATE (i : Nat) : Fld := ⟨pulseBase i + 0x8, 33, 33⟩
/-- PULSE_STAT.ARMED (R63). -/ def PULSE_STAT_ARMED (i : Nat) : Fld := ⟨pulseBase i + 0x8, 32, 32⟩
/-- PULSE_STAT.EDGES_LEFT (R63). -/ def PULSE_STAT_EDGES_LEFT (i : Nat) : Fld := ⟨pulseBase i + 0x8, 31, 0⟩
/-- PULSE_START_SEC.SEC (R63). -/ def PULSE_START_SEC_SEC (i : Nat) : Fld := ⟨pulseBase i + 0x10, 63, 0⟩
/-- PULSE_START_NSF.NS (R63). -/ def PULSE_START_NSF_NS (i : Nat) : Fld := ⟨pulseBase i + 0x18, 63, 32⟩
/-- PULSE_START_NSF.FRAC (R63). -/ def PULSE_START_NSF_FRAC (i : Nat) : Fld := ⟨pulseBase i + 0x18, 31, 0⟩
/-- PULSE_PER_SEC.SEC (R63). -/ def PULSE_PER_SEC_SEC (i : Nat) : Fld := ⟨pulseBase i + 0x20, 31, 0⟩
/-- PULSE_PER_NSF.NS (R63). -/ def PULSE_PER_NSF_NS (i : Nat) : Fld := ⟨pulseBase i + 0x28, 63, 32⟩
/-- PULSE_PER_NSF.FRAC (R63). -/ def PULSE_PER_NSF_FRAC (i : Nat) : Fld := ⟨pulseBase i + 0x28, 31, 0⟩
/-- PULSE_WIDTH.NS (R63). -/ def PULSE_WIDTH_NS (i : Nat) : Fld := ⟨pulseBase i + 0x30, 47, 16⟩
/-- PULSE_WIDTH.FRAC16 (R63). -/ def PULSE_WIDTH_FRAC16 (i : Nat) : Fld := ⟨pulseBase i + 0x30, 15, 0⟩
/-- PULSE_COUNT.COUNT (R63). -/ def PULSE_COUNT_COUNT (i : Nat) : Fld := ⟨pulseBase i + 0x38, 31, 0⟩
/-- CAP_CTRL.DLY (R63). -/ def CAP_CTRL_DLY (i : Nat) : Fld := ⟨0x1500 + 0x20 * i, 23, 8⟩
/-- CAP_CTRL.EN (R63). -/ def CAP_CTRL_EN (i : Nat) : Fld := ⟨0x1500 + 0x20 * i, 4, 4⟩
/-- CAP_CTRL.EDGE (R63). -/ def CAP_CTRL_EDGE (i : Nat) : Fld := ⟨0x1500 + 0x20 * i, 3, 2⟩
/-- CAP_CTRL.TB (R63). -/ def CAP_CTRL_TB (i : Nat) : Fld := ⟨0x1500 + 0x20 * i, 1, 0⟩
/-- CAP_STAT.OVF (R63). -/ def CAP_STAT_OVF (i : Nat) : Fld := ⟨0x1508 + 0x20 * i, 11, 11⟩
/-- CAP_STAT.MISS (R63). -/ def CAP_STAT_MISS (i : Nat) : Fld := ⟨0x1508 + 0x20 * i, 10, 10⟩
/-- CAP_STAT.HEAD_EDGE (R63). -/ def CAP_STAT_HEAD_EDGE (i : Nat) : Fld := ⟨0x1508 + 0x20 * i, 9, 9⟩
/-- CAP_STAT.LEVEL (R63). -/ def CAP_STAT_LEVEL (i : Nat) : Fld := ⟨0x1508 + 0x20 * i, 4, 0⟩
/-- CAP_SEC.SEC (R63). -/ def CAP_SEC_SEC (i : Nat) : Fld := ⟨0x1510 + 0x20 * i, 63, 0⟩
/-- CAP_NSF.NS (R63). -/ def CAP_NSF_NS (i : Nat) : Fld := ⟨0x1518 + 0x20 * i, 63, 32⟩
/-- CAP_NSF.FRAC (R63). -/ def CAP_NSF_FRAC (i : Nat) : Fld := ⟨0x1518 + 0x20 * i, 31, 0⟩
/-- SEQ_CTRL.START (R167). -/ def SEQ_CTRL_START : Fld := ⟨0x2000, 2, 2⟩
/-- SEQ_CTRL.UNLOAD (R167). -/ def SEQ_CTRL_UNLOAD : Fld := ⟨0x2000, 1, 1⟩
/-- SEQ_CTRL.LOAD (R167). -/ def SEQ_CTRL_LOAD : Fld := ⟨0x2000, 0, 0⟩
/-- SEQ_STAT.REFUSE_CAUSE (R167). -/ def SEQ_STAT_REFUSE_CAUSE : Fld := ⟨0x2008, 15, 8⟩
/-- SEQ_STAT.TIMED_WAIT (R167). -/ def SEQ_STAT_TIMED_WAIT : Fld := ⟨0x2008, 5, 5⟩
/-- SEQ_STAT.QUIET (R167). -/ def SEQ_STAT_QUIET : Fld := ⟨0x2008, 4, 4⟩
/-- SEQ_STAT.STATE (R167). -/ def SEQ_STAT_STATE : Fld := ⟨0x2008, 3, 0⟩
/-- SEQ_RUNCFG.LSI (R167). -/ def SEQ_RUNCFG_LSI : Fld := ⟨0x2010, 63, 44⟩
/-- SEQ_RUNCFG.W (R167). -/ def SEQ_RUNCFG_W : Fld := ⟨0x2010, 41, 21⟩
/-- SEQ_RUNCFG.LSI_VALID (R167). -/ def SEQ_RUNCFG_LSI_VALID : Fld := ⟨0x2010, 2, 2⟩
/-- SEQ_RUNCFG.MODE (R167). -/ def SEQ_RUNCFG_MODE : Fld := ⟨0x2010, 1, 0⟩
/-- SEQ_STEP.NEXT (R167). -/ def SEQ_STEP_NEXT : Fld := ⟨0x2018, 63, 0⟩
/-- SEQ_STEP_CUR.CUR (R167). -/ def SEQ_STEP_CUR_CUR : Fld := ⟨0x2020, 63, 0⟩
/-- SEQ_LOAD_ADDR.ADDR (R167). -/ def SEQ_LOAD_ADDR_ADDR : Fld := ⟨0x2028, 63, 6⟩
/-- SEQ_LOAD_LEN.LEN (R167). -/ def SEQ_LOAD_LEN_LEN : Fld := ⟨0x2030, 31, 0⟩
/-- SEQ_PC.ANCHOR (R167). -/ def SEQ_PC_ANCHOR : Fld := ⟨0x2038, 31, 16⟩
/-- SEQ_PC.PC (R167). -/ def SEQ_PC_PC : Fld := ⟨0x2038, 15, 0⟩
/-- SEQ_SLIPS.STEP (R167). -/ def SEQ_SLIPS_STEP : Fld := ⟨0x2040, 63, 32⟩
/-- SEQ_SLIPS.SEGMENT (R167). -/ def SEQ_SLIPS_SEGMENT : Fld := ⟨0x2040, 31, 0⟩
/-- SEQ_LATE.SLACK_MIN (R167). -/ def SEQ_LATE_SLACK_MIN : Fld := ⟨0x2048, 63, 32⟩
/-- SEQ_LATE.LATE (R167). -/ def SEQ_LATE_LATE : Fld := ⟨0x2048, 31, 0⟩
/-- SEQ_QLEVEL.BAR (R167). -/ def SEQ_QLEVEL_BAR : Fld := ⟨0x2050, 49, 40⟩
/-- SEQ_QLEVEL.LEDG (R167). -/ def SEQ_QLEVEL_LEDG : Fld := ⟨0x2050, 39, 30⟩
/-- SEQ_QLEVEL.CHK (R167). -/ def SEQ_QLEVEL_CHK : Fld := ⟨0x2050, 29, 20⟩
/-- SEQ_QLEVEL.RED (R167). -/ def SEQ_QLEVEL_RED : Fld := ⟨0x2050, 19, 10⟩
/-- SEQ_QLEVEL.MOVE (R167). -/ def SEQ_QLEVEL_MOVE : Fld := ⟨0x2050, 9, 0⟩
/-- SEQ_QSTAT.FLAG (R167). -/ def SEQ_QSTAT_FLAG : Fld := ⟨0x2058, 63, 63⟩
/-- SEQ_QSTAT.STATUS (R167). -/ def SEQ_QSTAT_STATUS : Fld := ⟨0x2058, 51, 48⟩
/-- SEQ_QSTAT.QUEUE (R167). -/ def SEQ_QSTAT_QUEUE : Fld := ⟨0x2058, 47, 45⟩
/-- SEQ_QSTAT.COUNT (R167). -/ def SEQ_QSTAT_COUNT : Fld := ⟨0x2058, 31, 16⟩
/-- SEQ_QSTAT.PC (R167). -/ def SEQ_QSTAT_PC : Fld := ⟨0x2058, 15, 0⟩
/-- SEQ_IMGHASH.HASH (R167). -/ def SEQ_IMGHASH_HASH (i : Nat) : Fld := ⟨0x2060 + 0x8 * i, 63, 0⟩
/-- LINK_CTRL.SEL_PLANE (R131). -/ def LINK_CTRL_SEL_PLANE : Fld := ⟨0x3000, 0, 0⟩
/-- HC_STAT.EPOCH (R369). -/ def HC_STAT_EPOCH : Fld := ⟨0x3040, 63, 32⟩
/-- HC_STAT.VSTEPS (R369). -/ def HC_STAT_VSTEPS : Fld := ⟨0x3040, 11, 10⟩
/-- HC_STAT.FSTEPS (R369). -/ def HC_STAT_FSTEPS : Fld := ⟨0x3040, 9, 8⟩
/-- HC_STAT.MIRROR_FULL (R369). -/ def HC_STAT_MIRROR_FULL : Fld := ⟨0x3040, 7, 7⟩
/-- HC_STAT.ROLLBACK (R369). -/ def HC_STAT_ROLLBACK : Fld := ⟨0x3040, 6, 6⟩
/-- HC_STAT.VIEW_CONFLICT (R369). -/ def HC_STAT_VIEW_CONFLICT : Fld := ⟨0x3040, 5, 5⟩
/-- HC_STAT.PROBATION (R369). -/ def HC_STAT_PROBATION : Fld := ⟨0x3040, 4, 4⟩
/-- HC_STAT.STATE (R369). -/ def HC_STAT_STATE : Fld := ⟨0x3040, 2, 0⟩
/-- HC_CTRL.RESTORED (R369). -/ def HC_CTRL_RESTORED : Fld := ⟨0x3048, 0, 0⟩
/-- LANE_CTRL.REPLAY_TO (R131). -/ def LANE_CTRL_REPLAY_TO (b : Nat) : Fld := ⟨b + 0x0, 31, 16⟩
/-- LANE_CTRL.CNT_CLR (R131). -/ def LANE_CTRL_CNT_CLR (b : Nat) : Fld := ⟨b + 0x0, 3, 3⟩
/-- LANE_CTRL.AUTO_JOIN (R131). -/ def LANE_CTRL_AUTO_JOIN (b : Nat) : Fld := ⟨b + 0x0, 2, 2⟩
/-- LANE_CTRL.LEAVE (R131). -/ def LANE_CTRL_LEAVE (b : Nat) : Fld := ⟨b + 0x0, 1, 1⟩
/-- LANE_CTRL.JOIN (R131). -/ def LANE_CTRL_JOIN (b : Nat) : Fld := ⟨b + 0x0, 0, 0⟩
/-- LANE_STAT.UNACKED (R131). -/ def LANE_STAT_UNACKED (b : Nat) : Fld := ⟨b + 0x8, 47, 40⟩
/-- LANE_STAT.RETRY (R131). -/ def LANE_STAT_RETRY (b : Nat) : Fld := ⟨b + 0x8, 34, 32⟩
/-- LANE_STAT.FAIL_CAUSE (R131). -/ def LANE_STAT_FAIL_CAUSE (b : Nat) : Fld := ⟨b + 0x8, 11, 8⟩
/-- LANE_STAT.AWAY (R131). -/ def LANE_STAT_AWAY (b : Nat) : Fld := ⟨b + 0x8, 4, 4⟩
/-- LANE_STAT.SELECTED (R131). -/ def LANE_STAT_SELECTED (b : Nat) : Fld := ⟨b + 0x8, 3, 3⟩
/-- LANE_STAT.STATE (R131). -/ def LANE_STAT_STATE (b : Nat) : Fld := ⟨b + 0x8, 2, 0⟩
/-- LANE_DELAY.D_PS (R131). -/ def LANE_DELAY_D_PS (b : Nat) : Fld := ⟨b + 0x10, 31, 0⟩
/-- LANE_TCAL.ASYM (R95). -/ def LANE_TCAL_ASYM (b : Nat) : Fld := ⟨b + 0x18, 47, 32⟩
/-- LANE_TCAL.A_INT (R95). -/ def LANE_TCAL_A_INT (b : Nat) : Fld := ⟨b + 0x18, 31, 16⟩
/-- LANE_TCAL.DRIFT (R95). -/ def LANE_TCAL_DRIFT (b : Nat) : Fld := ⟨b + 0x18, 3, 3⟩
/-- LANE_TCAL.RECAL (R95). -/ def LANE_TCAL_RECAL (b : Nat) : Fld := ⟨b + 0x18, 2, 2⟩
/-- LANE_TCAL.PARENT (R95). -/ def LANE_TCAL_PARENT (b : Nat) : Fld := ⟨b + 0x18, 1, 1⟩
/-- LANE_TCAL.CAL_DONE (R95). -/ def LANE_TCAL_CAL_DONE (b : Nat) : Fld := ⟨b + 0x18, 0, 0⟩
/-- LANE_ERR.CRC_FAIL (R131). -/ def LANE_ERR_CRC_FAIL (b : Nat) : Fld := ⟨b + 0x20, 63, 48⟩
/-- LANE_ERR.REPLAYS (R131). -/ def LANE_ERR_REPLAYS (b : Nat) : Fld := ⟨b + 0x20, 47, 32⟩
/-- LANE_ERR.FEC_UNCORR (R131). -/ def LANE_ERR_FEC_UNCORR (b : Nat) : Fld := ⟨b + 0x20, 31, 16⟩
/-- LANE_ERR.MARK_SKIP (R131). -/ def LANE_ERR_MARK_SKIP (b : Nat) : Fld := ⟨b + 0x20, 15, 0⟩
/-- LANE_FEC.CORR_SYM (R131). -/ def LANE_FEC_CORR_SYM (b : Nat) : Fld := ⟨b + 0x28, 63, 0⟩
/-- LANE_CRED.CREDITS (R131). -/ def LANE_CRED_CREDITS (b : Nat) : Fld := ⟨b + 0x30, 63, 0⟩
/-- UX_LANE_HC.HEALTH (R369). -/ def UX_LANE_HC_HEALTH (x : Nat) : Fld := ⟨0x40038 + 0x100 * x, 63, 56⟩
/-- UX_LANE_HC.AGE (R369). -/ def UX_LANE_HC_AGE (x : Nat) : Fld := ⟨0x40038 + 0x100 * x, 55, 40⟩
/-- UX_LANE_HC.STATE (R369). -/ def UX_LANE_HC_STATE (x : Nat) : Fld := ⟨0x40038 + 0x100 * x, 34, 32⟩
/-- UX_LANE_HC.VSTEPS (R369). -/ def UX_LANE_HC_VSTEPS (x : Nat) : Fld := ⟨0x40038 + 0x100 * x, 31, 30⟩
/-- UX_LANE_HC.FSTEPS (R369). -/ def UX_LANE_HC_FSTEPS (x : Nat) : Fld := ⟨0x40038 + 0x100 * x, 29, 28⟩
/-- UX_LANE_HC.PROBATION (R369). -/ def UX_LANE_HC_PROBATION (x : Nat) : Fld := ⟨0x40038 + 0x100 * x, 27, 27⟩
/-- UX_LANE_HC.VIEW_CONFLICT (R369). -/ def UX_LANE_HC_VIEW_CONFLICT (x : Nat) : Fld := ⟨0x40038 + 0x100 * x, 26, 26⟩
/-- UX_LANE_HC.PRIV (R369). -/ def UX_LANE_HC_PRIV (x : Nat) : Fld := ⟨0x40038 + 0x100 * x, 25, 25⟩
/-- UX_LANE_HC.SUSPECT_ACT (R369). -/ def UX_LANE_HC_SUSPECT_ACT (x : Nat) : Fld := ⟨0x40038 + 0x100 * x, 24, 24⟩
/-- SYNC_CTRL.DLD_WINDOW (R241). -/ def SYNC_CTRL_DLD_WINDOW : Fld := ⟨0x4000, 39, 16⟩
/-- SYNC_STAT.LAND_STALE (R241). -/ def SYNC_STAT_LAND_STALE : Fld := ⟨0x4008, 7, 7⟩
/-- SYNC_STAT.DEADLOCK (R241). -/ def SYNC_STAT_DEADLOCK : Fld := ⟨0x4008, 6, 6⟩
/-- SYNC_STAT.WATCH_TMO (R241). -/ def SYNC_STAT_WATCH_TMO : Fld := ⟨0x4008, 5, 5⟩
/-- SYNC_STAT.CROSS_CORE (R241). -/ def SYNC_STAT_CROSS_CORE : Fld := ⟨0x4008, 4, 4⟩
/-- SYNC_STAT.PAIR_OVER (R241). -/ def SYNC_STAT_PAIR_OVER : Fld := ⟨0x4008, 3, 3⟩
/-- SYNC_STAT.PAIR_UNDER (R241). -/ def SYNC_STAT_PAIR_UNDER : Fld := ⟨0x4008, 2, 2⟩
/-- SYNC_STAT.SAT (R241). -/ def SYNC_STAT_SAT : Fld := ⟨0x4008, 1, 1⟩
/-- SYNC_TMO0.ANN_PRE (R241). -/ def SYNC_TMO0_ANN_PRE : Fld := ⟨0x4010, 57, 56⟩
/-- SYNC_TMO0.ANN (R241). -/ def SYNC_TMO0_ANN : Fld := ⟨0x4010, 55, 32⟩
/-- SYNC_TMO0.LAND_PRE (R241). -/ def SYNC_TMO0_LAND_PRE : Fld := ⟨0x4010, 25, 24⟩
/-- SYNC_TMO0.LAND (R241). -/ def SYNC_TMO0_LAND : Fld := ⟨0x4010, 23, 0⟩
/-- SYNC_TMO1.BAR_PRE (R241). -/ def SYNC_TMO1_BAR_PRE : Fld := ⟨0x4018, 57, 56⟩
/-- SYNC_TMO1.SLOT_PRE (R241). -/ def SYNC_TMO1_SLOT_PRE : Fld := ⟨0x4018, 25, 24⟩
/-- SYNC_TMO1.SLOT (R241). -/ def SYNC_TMO1_SLOT : Fld := ⟨0x4018, 23, 0⟩
/-- SYNC_HINC.CORE (R241). -/ def SYNC_HINC_CORE : Fld := ⟨0x4020, 63, 56⟩
/-- SYNC_HINC.K (R241). -/ def SYNC_HINC_K : Fld := ⟨0x4020, 55, 50⟩
/-- SYNC_HINC.AMT (R241). -/ def SYNC_HINC_AMT : Fld := ⟨0x4020, 39, 0⟩
/-- SYNC_PEEK_IDX.INDEX (R241). -/ def SYNC_PEEK_IDX_INDEX : Fld := ⟨0x4028, 13, 0⟩
/-- SYNC_PEEK.STEP_VIEW (R241). -/ def SYNC_PEEK_STEP_VIEW : Fld := ⟨0x4030, 39, 0⟩
/-- SYNC_LANDQ.HWM (R241). -/ def SYNC_LANDQ_HWM : Fld := ⟨0x4038, 25, 16⟩
/-- SYNC_LANDQ.LEVEL (R241). -/ def SYNC_LANDQ_LEVEL : Fld := ⟨0x4038, 9, 0⟩
/-- SYNC_DLDSNAP.WAITERS (R241). -/ def SYNC_DLDSNAP_WAITERS : Fld := ⟨0x4040, 12, 0⟩
/-- LARM.MASK3 (R241). -/ def LARM_MASK3 (i : Nat) : Fld := ⟨0x4400 + 0x8 * i, 63, 48⟩
/-- LARM.MASK2 (R241). -/ def LARM_MASK2 (i : Nat) : Fld := ⟨0x4400 + 0x8 * i, 47, 32⟩
/-- LARM.MASK1 (R241). -/ def LARM_MASK1 (i : Nat) : Fld := ⟨0x4400 + 0x8 * i, 31, 16⟩
/-- LARM.MASK0 (R241). -/ def LARM_MASK0 (i : Nat) : Fld := ⟨0x4400 + 0x8 * i, 15, 0⟩
/-- BAR.GEN (R241). -/ def BAR_GEN (i : Nat) : Fld := ⟨0x4800 + 0x8 * i, 63, 48⟩
/-- BAR.SCOPE (R241). -/ def BAR_SCOPE (i : Nat) : Fld := ⟨0x4800 + 0x8 * i, 47, 46⟩
/-- BAR.SEQ_ARR (R241). -/ def BAR_SEQ_ARR (i : Nat) : Fld := ⟨0x4800 + 0x8 * i, 45, 45⟩
/-- BAR.TMO (R241). -/ def BAR_TMO (i : Nat) : Fld := ⟨0x4800 + 0x8 * i, 39, 16⟩
/-- BAR.GROUPS (R241). -/ def BAR_GROUPS (i : Nat) : Fld := ⟨0x4800 + 0x8 * i, 15, 0⟩
/-- TAL_STAT.LANES (R268). -/ def TAL_STAT_LANES : Fld := ⟨0x5000, 15, 12⟩
/-- TAL_STAT.REFUSED (R268). -/ def TAL_STAT_REFUSED : Fld := ⟨0x5000, 4, 4⟩
/-- TAL_STAT.MISMATCH (R268). -/ def TAL_STAT_MISMATCH : Fld := ⟨0x5000, 3, 3⟩
/-- TAL_STAT.NAN (R268). -/ def TAL_STAT_NAN : Fld := ⟨0x5000, 2, 2⟩
/-- TAL_STAT.SAT (R268). -/ def TAL_STAT_SAT : Fld := ⟨0x5000, 1, 1⟩
/-- TAL_STAT.BUSY (R268). -/ def TAL_STAT_BUSY : Fld := ⟨0x5000, 0, 0⟩
/-- TAL_CNT.REFUSED_OPS (R268). -/ def TAL_CNT_REFUSED_OPS : Fld := ⟨0x5008, 63, 48⟩
/-- TAL_CNT.NAN_BLOCKS (R268). -/ def TAL_CNT_NAN_BLOCKS : Fld := ⟨0x5008, 47, 32⟩
/-- TAL_CNT.SAT_BLOCKS (R268). -/ def TAL_CNT_SAT_BLOCKS : Fld := ⟨0x5008, 31, 0⟩
/-- TAL_LAST.STATUS (R268). -/ def TAL_LAST_STATUS : Fld := ⟨0x5010, 63, 60⟩
/-- TAL_LAST.OP (R268). -/ def TAL_LAST_OP : Fld := ⟨0x5010, 59, 54⟩
/-- TAL_LAST.BLOCK (R268). -/ def TAL_LAST_BLOCK : Fld := ⟨0x5010, 47, 32⟩
/-- TAL_LAST.PC (R268). -/ def TAL_LAST_PC : Fld := ⟨0x5010, 15, 0⟩
/-- CHK_CTRL.SHADOW (R324). -/ def CHK_CTRL_SHADOW : Fld := ⟨0x6000, 2, 2⟩
/-- CHK_CTRL.DETAIL (R324). -/ def CHK_CTRL_DETAIL : Fld := ⟨0x6000, 1, 1⟩
/-- CHK_CTRL.TAL_VERIFY (R324). -/ def CHK_CTRL_TAL_VERIFY : Fld := ⟨0x6000, 0, 0⟩
/-- CHK_STAT.SUSP_OVF (R324). -/ def CHK_STAT_SUSP_OVF : Fld := ⟨0x6008, 6, 6⟩
/-- CHK_STAT.EXT (R324). -/ def CHK_STAT_EXT : Fld := ⟨0x6008, 5, 5⟩
/-- CHK_STAT.XCHK (R324). -/ def CHK_STAT_XCHK : Fld := ⟨0x6008, 4, 4⟩
/-- CHK_STAT.FPCMP (R324). -/ def CHK_STAT_FPCMP : Fld := ⟨0x6008, 3, 3⟩
/-- CHK_STAT.BCV (R324). -/ def CHK_STAT_BCV : Fld := ⟨0x6008, 2, 2⟩
/-- CHK_STAT.FAILED (R324). -/ def CHK_STAT_FAILED : Fld := ⟨0x6008, 0, 0⟩
/-- CHK_SEAL.LAST (R324). -/ def CHK_SEAL_LAST : Fld := ⟨0x6010, 63, 0⟩
/-- CHK_FAILSTEP.STEP (R324). -/ def CHK_FAILSTEP_STEP : Fld := ⟨0x6018, 63, 0⟩
/-- CHK_REPEAT.ADDR (R324). -/ def CHK_REPEAT_ADDR : Fld := ⟨0x6020, 39, 16⟩
/-- CHK_REPEAT.K (R324). -/ def CHK_REPEAT_K : Fld := ⟨0x6020, 15, 0⟩
/-- CHK_TALWIN0.BASE (R324). -/ def CHK_TALWIN0_BASE : Fld := ⟨0x6028, 47, 24⟩
/-- CHK_TALWIN0.LEN (R324). -/ def CHK_TALWIN0_LEN : Fld := ⟨0x6028, 23, 0⟩
/-- CHK_TALWIN1.BCV_ADDR (R324). -/ def CHK_TALWIN1_BCV_ADDR : Fld := ⟨0x6030, 55, 32⟩
/-- CHK_TALWIN1.TAG (R324). -/ def CHK_TALWIN1_TAG : Fld := ⟨0x6030, 31, 0⟩
/-- CHK_CNT.BCV_FAIL (R324). -/ def CHK_CNT_BCV_FAIL : Fld := ⟨0x6038, 63, 48⟩
/-- CHK_CNT.EXT_FAIL (R324). -/ def CHK_CNT_EXT_FAIL : Fld := ⟨0x6038, 47, 32⟩
/-- CHK_CNT.FPCMP_FAIL (R324). -/ def CHK_CNT_FPCMP_FAIL : Fld := ⟨0x6038, 31, 16⟩
/-- CHK_CNT.XCHK_FAIL (R324). -/ def CHK_CNT_XCHK_FAIL : Fld := ⟨0x6038, 15, 0⟩
/-- CHK_SUSP_STEP.STEP (R324). -/ def CHK_SUSP_STEP_STEP (i : Nat) : Fld := ⟨0x6080 + 0x20 * i, 63, 0⟩
/-- CHK_SUSP_INFO.PC (R324). -/ def CHK_SUSP_INFO_PC (i : Nat) : Fld := ⟨0x6088 + 0x20 * i, 63, 48⟩
/-- CHK_SUSP_INFO.OP (R324). -/ def CHK_SUSP_INFO_OP (i : Nat) : Fld := ⟨0x6088 + 0x20 * i, 47, 44⟩
/-- CHK_SUSP_INFO.OPEN (R324). -/ def CHK_SUSP_INFO_OPEN (i : Nat) : Fld := ⟨0x6088 + 0x20 * i, 0, 0⟩
/-- CHK_SUSP_VALA.VALA (R324). -/ def CHK_SUSP_VALA_VALA (i : Nat) : Fld := ⟨0x6090 + 0x20 * i, 63, 0⟩
/-- CHK_SUSP_VALB.VALB (R324). -/ def CHK_SUSP_VALB_VALB (i : Nat) : Fld := ⟨0x6098 + 0x20 * i, 63, 0⟩
/-- SEED_RUNKEY0.RK_LO (R286). -/ def SEED_RUNKEY0_RK_LO : Fld := ⟨0x7000, 63, 0⟩
/-- SEED_RUNKEY1.RK_HI (R286). -/ def SEED_RUNKEY1_RK_HI : Fld := ⟨0x7008, 63, 0⟩
/-- SEED_RKCHK.VALID (R286). -/ def SEED_RKCHK_VALID : Fld := ⟨0x7010, 32, 32⟩
/-- SEED_RKCHK.CHK (R286). -/ def SEED_RKCHK_CHK : Fld := ⟨0x7010, 31, 0⟩
/-- SEED_DP.RANK (R286). -/ def SEED_DP_RANK : Fld := ⟨0x7018, 19, 0⟩
/-- SEED_STAT.PERM_SLIPS (R286). -/ def SEED_STAT_PERM_SLIPS : Fld := ⟨0x7020, 63, 32⟩
/-- SEED_STAT.EMPTY (R286). -/ def SEED_STAT_EMPTY : Fld := ⟨0x7020, 1, 1⟩
/-- SEED_STAT.POS_EXH (R286). -/ def SEED_STAT_POS_EXH : Fld := ⟨0x7020, 0, 0⟩
/-- SEED_S_CFG0.N (R286). -/ def SEED_S_CFG0_N (i : Nat) : Fld := ⟨0x7100 + 0x20 * i, 63, 24⟩
/-- SEED_S_CFG0.B (R286). -/ def SEED_S_CFG0_B (i : Nat) : Fld := ⟨0x7100 + 0x20 * i, 23, 0⟩
/-- SEED_S_CFG1.SEED (R286). -/ def SEED_S_CFG1_SEED (i : Nat) : Fld := ⟨0x7108 + 0x20 * i, 63, 32⟩
/-- SEED_S_CFG1.U (R286). -/ def SEED_S_CFG1_U (i : Nat) : Fld := ⟨0x7108 + 0x20 * i, 31, 12⟩
/-- SEED_S_CFG1.ASSIGN (R286). -/ def SEED_S_CFG1_ASSIGN (i : Nat) : Fld := ⟨0x7108 + 0x20 * i, 0, 0⟩
/-- SEED_S_CURSOR.CURSOR (R286). -/ def SEED_S_CURSOR_CURSOR (i : Nat) : Fld := ⟨0x7110 + 0x20 * i, 63, 0⟩
/-- SEED_S_CUR.L (R286). -/ def SEED_S_CUR_L (i : Nat) : Fld := ⟨0x7118 + 0x20 * i, 63, 24⟩
/-- SEED_S_CUR.POS (R286). -/ def SEED_S_CUR_POS (i : Nat) : Fld := ⟨0x7118 + 0x20 * i, 23, 0⟩
/-- DMA_CTRL.RETRY_MAX (R400). -/ def DMA_CTRL_RETRY_MAX (i : Nat) : Fld := ⟨0x8000 + 0x100 * i, 19, 16⟩
/-- DMA_CTRL.CLR_HALT (R400). -/ def DMA_CTRL_CLR_HALT (i : Nat) : Fld := ⟨0x8000 + 0x100 * i, 1, 1⟩
/-- DMA_CTRL.ABORT (R400). -/ def DMA_CTRL_ABORT (i : Nat) : Fld := ⟨0x8000 + 0x100 * i, 0, 0⟩
/-- DMA_GO.COUNT (R400). -/ def DMA_GO_COUNT (i : Nat) : Fld := ⟨0x8008 + 0x100 * i, 15, 0⟩
/-- DMA_STAT.POS (R400). -/ def DMA_STAT_POS (i : Nat) : Fld := ⟨0x8010 + 0x100 * i, 63, 48⟩
/-- DMA_STAT.LEFT (R400). -/ def DMA_STAT_LEFT (i : Nat) : Fld := ⟨0x8010 + 0x100 * i, 47, 32⟩
/-- DMA_STAT.LAST_STATUS (R400). -/ def DMA_STAT_LAST_STATUS (i : Nat) : Fld := ⟨0x8010 + 0x100 * i, 31, 28⟩
/-- DMA_STAT.LAST_CAUSE (R400). -/ def DMA_STAT_LAST_CAUSE (i : Nat) : Fld := ⟨0x8010 + 0x100 * i, 27, 24⟩
/-- DMA_STAT.VAULT_DISC (R400). -/ def DMA_STAT_VAULT_DISC (i : Nat) : Fld := ⟨0x8010 + 0x100 * i, 11, 11⟩
/-- DMA_STAT.REFUSED (R400). -/ def DMA_STAT_REFUSED (i : Nat) : Fld := ⟨0x8010 + 0x100 * i, 10, 10⟩
/-- DMA_STAT.ABORT (R400). -/ def DMA_STAT_ABORT (i : Nat) : Fld := ⟨0x8010 + 0x100 * i, 9, 9⟩
/-- DMA_STAT.HALT (R400). -/ def DMA_STAT_HALT (i : Nat) : Fld := ⟨0x8010 + 0x100 * i, 8, 8⟩
/-- DMA_STAT.FULL (R400). -/ def DMA_STAT_FULL (i : Nat) : Fld := ⟨0x8010 + 0x100 * i, 7, 7⟩
/-- DMA_STAT.HALF (R400). -/ def DMA_STAT_HALF (i : Nat) : Fld := ⟨0x8010 + 0x100 * i, 6, 6⟩
/-- DMA_STAT.STATE (R400). -/ def DMA_STAT_STATE (i : Nat) : Fld := ⟨0x8010 + 0x100 * i, 2, 0⟩
/-- DMA_RING_BASE.BASE (R400). -/ def DMA_RING_BASE_BASE (i : Nat) : Fld := ⟨0x8018 + 0x100 * i, 63, 6⟩
/-- DMA_RING_SIZE.SIZE (R400). -/ def DMA_RING_SIZE_SIZE (i : Nat) : Fld := ⟨0x8020 + 0x100 * i, 16, 0⟩
/-- DMA_RESIDUE.RESIDUE (R400). -/ def DMA_RESIDUE_RESIDUE (i : Nat) : Fld := ⟨0x8028 + 0x100 * i, 40, 0⟩
/-- DMA_CNT.RETRIES (R400). -/ def DMA_CNT_RETRIES (i : Nat) : Fld := ⟨0x8030 + 0x100 * i, 63, 32⟩
/-- DMA_CNT.DESC_DONE (R400). -/ def DMA_CNT_DESC_DONE (i : Nat) : Fld := ⟨0x8030 + 0x100 * i, 31, 0⟩
/-- DMA_IRQEN.HALT (R400). -/ def DMA_IRQEN_HALT (i : Nat) : Fld := ⟨0x8038 + 0x100 * i, 3, 3⟩
/-- DMA_IRQEN.ABORT (R400). -/ def DMA_IRQEN_ABORT (i : Nat) : Fld := ⟨0x8038 + 0x100 * i, 2, 2⟩
/-- DMA_IRQEN.FULL (R400). -/ def DMA_IRQEN_FULL (i : Nat) : Fld := ⟨0x8038 + 0x100 * i, 1, 1⟩
/-- DMA_IRQEN.HALF (R400). -/ def DMA_IRQEN_HALF (i : Nat) : Fld := ⟨0x8038 + 0x100 * i, 0, 0⟩
/-- DMAG_CTRL.MAXOUT (R400). -/ def DMAG_CTRL_MAXOUT : Fld := ⟨0x80C0, 6, 0⟩
/-- SPM_CTRL.HOST_TMO (R400). -/ def SPM_CTRL_HOST_TMO : Fld := ⟨0x80C8, 23, 0⟩
/-- SPM_STAT.CLEARING (R400). -/ def SPM_STAT_CLEARING : Fld := ⟨0x80D0, 4, 4⟩
/-- SPM_STAT.HOST_TMO (R400). -/ def SPM_STAT_HOST_TMO : Fld := ⟨0x80D0, 3, 3⟩
/-- SPM_STAT.PERSIST (R400). -/ def SPM_STAT_PERSIST : Fld := ⟨0x80D0, 2, 2⟩
/-- SPM_STAT.REPLAY (R400). -/ def SPM_STAT_REPLAY : Fld := ⟨0x80D0, 1, 1⟩
/-- SPM_STAT.WLOST (R400). -/ def SPM_STAT_WLOST : Fld := ⟨0x80D0, 0, 0⟩
/-- SPM_CNT.WLOST (R400). -/ def SPM_CNT_WLOST : Fld := ⟨0x80D8, 63, 48⟩
/-- SPM_CNT.REPLAYS (R400). -/ def SPM_CNT_REPLAYS : Fld := ⟨0x80D8, 47, 32⟩
/-- SPM_CNT.HOST_TMO (R400). -/ def SPM_CNT_HOST_TMO : Fld := ⟨0x80D8, 31, 16⟩
/-- SPM_PERR.PORT (R400). -/ def SPM_PERR_PORT : Fld := ⟨0x80E0, 63, 60⟩
/-- SPM_PERR.ADDR (R400). -/ def SPM_PERR_ADDR : Fld := ⟨0x80E0, 23, 0⟩
/-- GUARD_CTRL.HANG_WINDOW (R435). -/ def GUARD_CTRL_HANG_WINDOW : Fld := ⟨0x9000, 39, 24⟩
/-- GUARD_CTRL.DUMP_OVERWRITE (R435). -/ def GUARD_CTRL_DUMP_OVERWRITE : Fld := ⟨0x9000, 3, 3⟩
/-- GUARD_CTRL.DUMP_PUSH (R435). -/ def GUARD_CTRL_DUMP_PUSH : Fld := ⟨0x9000, 2, 2⟩
/-- GUARD_CTRL.FAULT_HOLD (R435). -/ def GUARD_CTRL_FAULT_HOLD : Fld := ⟨0x9000, 1, 1⟩
/-- GUARD_CTRL.FATAL_CLR (R435). -/ def GUARD_CTRL_FATAL_CLR : Fld := ⟨0x9000, 0, 0⟩
/-- GUARD_STAT.DUMP_LOST (R435). -/ def GUARD_STAT_DUMP_LOST : Fld := ⟨0x9008, 63, 48⟩
/-- GUARD_STAT.LATER (R435). -/ def GUARD_STAT_LATER : Fld := ⟨0x9008, 47, 32⟩
/-- GUARD_STAT.UNIT (R435). -/ def GUARD_STAT_UNIT : Fld := ⟨0x9008, 31, 24⟩
/-- GUARD_STAT.TRIGGER (R435). -/ def GUARD_STAT_TRIGGER : Fld := ⟨0x9008, 23, 20⟩
/-- GUARD_STAT.STAGE (R435). -/ def GUARD_STAT_STAGE : Fld := ⟨0x9008, 19, 18⟩
/-- GUARD_STAT.DIE_FATAL (R435). -/ def GUARD_STAT_DIE_FATAL : Fld := ⟨0x9008, 7, 7⟩
/-- GUARD_STAT.MEM_RETAIN (R435). -/ def GUARD_STAT_MEM_RETAIN : Fld := ⟨0x9008, 6, 6⟩
/-- GUARD_STAT.DUMP_VALID (R435). -/ def GUARD_STAT_DUMP_VALID : Fld := ⟨0x9008, 5, 5⟩
/-- GUARD_STAT.DUMP_BUSY (R435). -/ def GUARD_STAT_DUMP_BUSY : Fld := ⟨0x9008, 4, 4⟩
/-- GUARD_STAT.ACTIVE (R435). -/ def GUARD_STAT_ACTIVE : Fld := ⟨0x9008, 3, 3⟩
/-- GUARD_WD.EN (R435). -/ def GUARD_WD_EN : Fld := ⟨0x9010, 32, 26⟩
/-- GUARD_WD.PRE (R435). -/ def GUARD_WD_PRE : Fld := ⟨0x9010, 25, 24⟩
/-- GUARD_WD.TMO (R435). -/ def GUARD_WD_TMO : Fld := ⟨0x9010, 23, 0⟩
/-- GUARD_DUMP_IDX.IDX (R435). -/ def GUARD_DUMP_IDX_IDX : Fld := ⟨0x9018, 14, 0⟩
/-- GUARD_DUMP_DATA.DATA (R435). -/ def GUARD_DUMP_DATA_DATA : Fld := ⟨0x9020, 63, 0⟩
/-- PWR.GROUP_RET (R435). -/ def PWR_GROUP_RET : Fld := ⟨0xA000, 12, 9⟩
/-- PWR.AUTO_SLEEP (R435). -/ def PWR_AUTO_SLEEP : Fld := ⟨0xA000, 8, 8⟩
/-- PWR.SLEEP_MASK (R435). -/ def PWR_SLEEP_MASK : Fld := ⟨0xA000, 4, 0⟩
/-- PWR_STAT.LAST_WAKE (R435). -/ def PWR_STAT_LAST_WAKE : Fld := ⟨0xA008, 47, 16⟩
/-- PWR_STAT.WAKING (R435). -/ def PWR_STAT_WAKING : Fld := ⟨0xA008, 15, 15⟩
/-- PWR_STAT.ASLEEP (R435). -/ def PWR_STAT_ASLEEP : Fld := ⟨0xA008, 14, 14⟩
/-- PWR_STAT.DSTATE (R435). -/ def PWR_STAT_DSTATE : Fld := ⟨0xA008, 13, 0⟩
/-- CLK_CTRL.FMUL_THR (R435). -/ def CLK_CTRL_FMUL_THR : Fld := ⟨0xA010, 49, 41⟩
/-- CLK_CTRL.FMUL_RUN (R435). -/ def CLK_CTRL_FMUL_RUN : Fld := ⟨0xA010, 40, 32⟩
/-- CLK_CTRL.FSTEP (R435). -/ def CLK_CTRL_FSTEP : Fld := ⟨0xA010, 23, 16⟩
/-- CLK_CTRL.DROOP_TH (R435). -/ def CLK_CTRL_DROOP_TH : Fld := ⟨0xA010, 15, 8⟩
/-- CLK_CTRL.THR_EN (R435). -/ def CLK_CTRL_THR_EN : Fld := ⟨0xA010, 0, 0⟩
/-- CLK_STAT.FMUL_CUR (R435). -/ def CLK_STAT_FMUL_CUR : Fld := ⟨0xA018, 40, 32⟩
/-- CLK_STAT.REGIONS (R435). -/ def CLK_STAT_REGIONS : Fld := ⟨0xA018, 7, 6⟩
/-- CLK_STAT.RO (R435). -/ def CLK_STAT_RO : Fld := ⟨0xA018, 5, 5⟩
/-- CLK_STAT.THROTTLE (R435). -/ def CLK_STAT_THROTTLE : Fld := ⟨0xA018, 4, 4⟩
/-- CLK_STAT.PLL_SEL (R435). -/ def CLK_STAT_PLL_SEL : Fld := ⟨0xA018, 3, 3⟩
/-- CLK_STAT.PLL_FAIL (R435). -/ def CLK_STAT_PLL_FAIL : Fld := ⟨0xA018, 2, 2⟩
/-- CLK_STAT.ACLK_SRC (R435). -/ def CLK_STAT_ACLK_SRC : Fld := ⟨0xA018, 1, 0⟩
/-- CLK_STRETCH.STR3 (R435). -/ def CLK_STRETCH_STR3 : Fld := ⟨0xA020, 63, 48⟩
/-- CLK_STRETCH.STR2 (R435). -/ def CLK_STRETCH_STR2 : Fld := ⟨0xA020, 47, 32⟩
/-- CLK_STRETCH.STR1 (R435). -/ def CLK_STRETCH_STR1 : Fld := ⟨0xA020, 31, 16⟩
/-- CLK_STRETCH.STR0 (R435). -/ def CLK_STRETCH_STR0 : Fld := ⟨0xA020, 15, 0⟩
/-- MAN_CTRL.NOW (R471). -/ def MAN_CTRL_NOW : Fld := ⟨0xB000, 3, 3⟩
/-- MAN_CTRL.DISARM (R471). -/ def MAN_CTRL_DISARM : Fld := ⟨0xB000, 2, 2⟩
/-- MAN_CTRL.ARM (R471). -/ def MAN_CTRL_ARM : Fld := ⟨0xB000, 1, 1⟩
/-- MAN_CTRL.DISCARD (R471). -/ def MAN_CTRL_DISCARD : Fld := ⟨0xB000, 0, 0⟩
/-- MAN_STAT.FAIL_OFS (R471). -/ def MAN_STAT_FAIL_OFS : Fld := ⟨0xB008, 51, 32⟩
/-- MAN_STAT.STAGED (R471). -/ def MAN_STAT_STAGED : Fld := ⟨0xB008, 29, 20⟩
/-- MAN_STAT.FAIL_CODE (R471). -/ def MAN_STAT_FAIL_CODE : Fld := ⟨0xB008, 7, 4⟩
/-- MAN_STAT.LATE (R471). -/ def MAN_STAT_LATE : Fld := ⟨0xB008, 3, 3⟩
/-- MAN_STAT.CHECK_OK (R471). -/ def MAN_STAT_CHECK_OK : Fld := ⟨0xB008, 2, 2⟩
/-- MAN_STAT.STATE (R471). -/ def MAN_STAT_STATE : Fld := ⟨0xB008, 1, 0⟩
/-- MAN_AT_SEC.SEC (R471). -/ def MAN_AT_SEC_SEC : Fld := ⟨0xB010, 63, 0⟩
/-- MAN_AT_NSF.NS (R471). -/ def MAN_AT_NSF_NS : Fld := ⟨0xB018, 63, 32⟩
/-- MAN_AT_NSF.FRAC (R471). -/ def MAN_AT_NSF_FRAC : Fld := ⟨0xB018, 31, 0⟩
/-- MAN_UNITEN.EN (R471). -/ def MAN_UNITEN_EN : Fld := ⟨0xB020, 5, 1⟩
/-- MAN_DRAIN.DRAIN_TIMEOUT (R471). -/ def MAN_DRAIN_DRAIN_TIMEOUT : Fld := ⟨0xB028, 23, 0⟩
/-- SEC_CTRL.ATT_DONE (R471). -/ def SEC_CTRL_ATT_DONE : Fld := ⟨0xC000, 5, 5⟩
/-- SEC_CTRL.ATT_GO (R471). -/ def SEC_CTRL_ATT_GO : Fld := ⟨0xC000, 4, 4⟩
/-- SEC_CTRL.TEST_PERMIT (R471). -/ def SEC_CTRL_TEST_PERMIT : Fld := ⟨0xC000, 2, 2⟩
/-- SEC_CTRL.DBG_UNLOCK (R471). -/ def SEC_CTRL_DBG_UNLOCK : Fld := ⟨0xC000, 1, 1⟩
/-- SEC_CTRL.PROV_LOCK (R471). -/ def SEC_CTRL_PROV_LOCK : Fld := ⟨0xC000, 0, 0⟩
/-- SEC_STAT.AUTH_FAIL (R471). -/ def SEC_STAT_AUTH_FAIL : Fld := ⟨0xC008, 63, 32⟩
/-- SEC_STAT.REVOKED (R471). -/ def SEC_STAT_REVOKED : Fld := ⟨0xC008, 12, 8⟩
/-- SEC_STAT.KEY_AGE (R471). -/ def SEC_STAT_KEY_AGE : Fld := ⟨0xC008, 4, 4⟩
/-- SEC_STAT.DBG_OPEN (R471). -/ def SEC_STAT_DBG_OPEN : Fld := ⟨0xC008, 3, 3⟩
/-- SEC_STAT.LOCKED (R471). -/ def SEC_STAT_LOCKED : Fld := ⟨0xC008, 2, 2⟩
/-- SEC_STAT.PUF_OK (R471). -/ def SEC_STAT_PUF_OK : Fld := ⟨0xC008, 0, 0⟩
/-- SEC_KUSE.REVOKE (R471). -/ def SEC_KUSE_REVOKE : Fld := ⟨0xC010, 31, 24⟩
/-- SEC_KUSE.USE (R471). -/ def SEC_KUSE_USE : Fld := ⟨0xC010, 23, 0⟩
/-- SEC_LKEY.KEY (R471). -/ def SEC_LKEY_KEY (i : Nat) : Fld := ⟨0xC020 + 0x8 * i, 63, 0⟩
/-- SEC_LKGEN.GEN (R471). -/ def SEC_LKGEN_GEN : Fld := ⟨0xC040, 2, 0⟩
/-- SEC_KSLOT_ID.KEY_ID (R471). -/ def SEC_KSLOT_ID_KEY_ID (i : Nat) : Fld := ⟨0xC100 + 0x8 * i, 63, 0⟩
/-- TEST_CTRL.TEST_UNLOCK (R471). -/ def TEST_CTRL_TEST_UNLOCK : Fld := ⟨0xD000, 0, 0⟩
/-- TEST_STREQ.ACTION (R471). -/ def TEST_STREQ_ACTION : Fld := ⟨0xD008, 31, 24⟩
/-- TEST_STREQ.MASK (R471). -/ def TEST_STREQ_MASK : Fld := ⟨0xD008, 23, 16⟩
/-- TEST_STREQ.FORCE (R471). -/ def TEST_STREQ_FORCE : Fld := ⟨0xD008, 1, 1⟩
/-- TEST_STREQ.GO (R471). -/ def TEST_STREQ_GO : Fld := ⟨0xD008, 0, 0⟩
/-- TEST_STSTAT.STATUS (R471). -/ def TEST_STSTAT_STATUS : Fld := ⟨0xD010, 7, 4⟩
/-- TEST_STSTAT.STATE (R471). -/ def TEST_STSTAT_STATE : Fld := ⟨0xD010, 3, 0⟩
/-- TEST_LINK.EN (R471). -/ def TEST_LINK_EN : Fld := ⟨0xD018, 63, 63⟩
/-- TEST_LINK.NTH (R471). -/ def TEST_LINK_NTH : Fld := ⟨0xD018, 47, 40⟩
/-- TEST_LINK.VCMASK (R471). -/ def TEST_LINK_VCMASK : Fld := ⟨0xD018, 39, 32⟩
/-- TEST_LINK.HOLD_US (R471). -/ def TEST_LINK_HOLD_US : Fld := ⟨0xD018, 31, 16⟩
/-- TEST_LINK.LANES (R471). -/ def TEST_LINK_LANES : Fld := ⟨0xD018, 15, 14⟩
/-- TEST_LINK.DELAY (R471). -/ def TEST_LINK_DELAY : Fld := ⟨0xD018, 9, 0⟩
/-- TEST_CLK.EN (R471). -/ def TEST_CLK_EN : Fld := ⟨0xD020, 63, 63⟩
/-- TEST_CLK.SHIFT (R471). -/ def TEST_CLK_SHIFT : Fld := ⟨0xD020, 23, 20⟩
/-- TEST_CLK.REGIONS (R471). -/ def TEST_CLK_REGIONS : Fld := ⟨0xD020, 19, 16⟩
/-- TEST_CLK.PERIOD (R471). -/ def TEST_CLK_PERIOD : Fld := ⟨0xD020, 15, 0⟩
/-- TEST_PFLIP.EN (R471). -/ def TEST_PFLIP_EN : Fld := ⟨0xD028, 63, 63⟩
/-- TEST_PFLIP.MODE (R471). -/ def TEST_PFLIP_MODE : Fld := ⟨0xD028, 24, 24⟩
/-- TEST_PFLIP.ADDR (R471). -/ def TEST_PFLIP_ADDR : Fld := ⟨0xD028, 23, 0⟩
/-- IDENT_ID.VENDOR (R482). -/ def IDENT_ID_VENDOR : Fld := ⟨0x0, 63, 48⟩
/-- IDENT_ID.PART (R482). -/ def IDENT_ID_PART : Fld := ⟨0x0, 47, 32⟩
/-- IDENT_ID.REV (R482). -/ def IDENT_ID_REV : Fld := ⟨0x0, 31, 16⟩
/-- IDENT_PARAM0.WATCHES (R482). -/ def IDENT_PARAM0_WATCHES : Fld := ⟨0x8, 63, 48⟩
/-- IDENT_PARAM0.STREAMS (R482). -/ def IDENT_PARAM0_STREAMS : Fld := ⟨0x8, 47, 40⟩
/-- IDENT_PARAM0.CNT_PER_CORE (R482). -/ def IDENT_PARAM0_CNT_PER_CORE : Fld := ⟨0x8, 39, 32⟩
/-- IDENT_PARAM0.ENG_PER_CORE (R482). -/ def IDENT_PARAM0_ENG_PER_CORE : Fld := ⟨0x8, 31, 28⟩
/-- IDENT_PARAM0.TAL_LANES (R482). -/ def IDENT_PARAM0_TAL_LANES : Fld := ⟨0x8, 27, 24⟩
/-- IDENT_PARAM0.SPM_MIB (R482). -/ def IDENT_PARAM0_SPM_MIB : Fld := ⟨0x8, 23, 19⟩
/-- IDENT_PARAM0.TB_COUNT (R482). -/ def IDENT_PARAM0_TB_COUNT : Fld := ⟨0x8, 18, 16⟩
/-- IDENT_PARAM0.CORES (R482). -/ def IDENT_PARAM0_CORES : Fld := ⟨0x8, 8, 0⟩
/-- IDENT_PARAM1.DMA_CH (R482). -/ def IDENT_PARAM1_DMA_CH : Fld := ⟨0x10, 15, 8⟩
/-- IDENT_PARAM1.PLANES (R482). -/ def IDENT_PARAM1_PLANES : Fld := ⟨0x10, 1, 0⟩
/-- IDENT_ERR.CAUSE (R482). -/ def IDENT_ERR_CAUSE : Fld := ⟨0x18, 55, 52⟩
/-- IDENT_ERR.SPACE (R482). -/ def IDENT_ERR_SPACE : Fld := ⟨0x18, 51, 50⟩
/-- IDENT_ERR.WRITE (R482). -/ def IDENT_ERR_WRITE : Fld := ⟨0x18, 49, 49⟩
/-- IDENT_ERR.VALID (R482). -/ def IDENT_ERR_VALID : Fld := ⟨0x18, 48, 48⟩
/-- IDENT_ERR.OFFSET (R482). -/ def IDENT_ERR_OFFSET : Fld := ⟨0x18, 47, 0⟩
/-- UX_IDENT_ID.VENDOR (R489). -/ def UX_IDENT_ID_VENDOR : Fld := ⟨0x0, 63, 48⟩
/-- UX_IDENT_ID.PART (R489). -/ def UX_IDENT_ID_PART : Fld := ⟨0x0, 47, 32⟩
/-- UX_IDENT_ID.REV (R489). -/ def UX_IDENT_ID_REV : Fld := ⟨0x0, 31, 16⟩
/-- UX_IDENT_ROLE.POS (R489). -/ def UX_IDENT_ROLE_POS : Fld := ⟨0x8, 18, 8⟩
/-- UX_IDENT_ROLE.PLANE (R489). -/ def UX_IDENT_ROLE_PLANE : Fld := ⟨0x8, 3, 3⟩
/-- UX_IDENT_ROLE.TIER (R489). -/ def UX_IDENT_ROLE_TIER : Fld := ⟨0x8, 1, 0⟩
/-- UX_IDENT_HBM.STACKS (R489). -/ def UX_IDENT_HBM_STACKS : Fld := ⟨0x10, 7, 0⟩
/-- UX_HWIN.BASE (R489). -/ def UX_HWIN_BASE : Fld := ⟨0x18, 47, 24⟩
/-- UX_LIDX_SEL.SLICE (R489). -/ def UX_LIDX_SEL_SLICE : Fld := ⟨0x20, 4, 0⟩
/-- UX_VWIN_SEL.VALID (R489). -/ def UX_VWIN_SEL_VALID : Fld := ⟨0x28, 16, 16⟩
/-- UX_VWIN_SEL.SRC (R489). -/ def UX_VWIN_SEL_SRC : Fld := ⟨0x28, 15, 15⟩
/-- UX_VWIN_SEL.LANE (R489). -/ def UX_VWIN_SEL_LANE : Fld := ⟨0x28, 14, 8⟩
/-- UX_VWIN_SEL.SLICE (R489). -/ def UX_VWIN_SEL_SLICE : Fld := ⟨0x28, 5, 0⟩
/-- UX_IDENT_ERR.CAUSE (R482). -/ def UX_IDENT_ERR_CAUSE : Fld := ⟨0x30, 55, 52⟩
/-- UX_IDENT_ERR.SPACE (R482). -/ def UX_IDENT_ERR_SPACE : Fld := ⟨0x30, 51, 50⟩
/-- UX_IDENT_ERR.WRITE (R482). -/ def UX_IDENT_ERR_WRITE : Fld := ⟨0x30, 49, 49⟩
/-- UX_IDENT_ERR.VALID (R482). -/ def UX_IDENT_ERR_VALID : Fld := ⟨0x30, 48, 48⟩
/-- UX_IDENT_ERR.OFFSET (R482). -/ def UX_IDENT_ERR_OFFSET : Fld := ⟨0x30, 47, 0⟩
/-- UX_REF_CTRL.WTR (R94). -/ def UX_REF_CTRL_WTR : Fld := ⟨0x3000, 63, 48⟩
/-- UX_REF_CTRL.START_WAIT (R94). -/ def UX_REF_CTRL_START_WAIT : Fld := ⟨0x3000, 47, 32⟩
/-- UX_REF_CTRL.QUAL_TIME (R94). -/ def UX_REF_CTRL_QUAL_TIME : Fld := ⟨0x3000, 31, 24⟩
/-- UX_REF_CTRL.FREQ_TOL (R94). -/ def UX_REF_CTRL_FREQ_TOL : Fld := ⟨0x3000, 23, 16⟩
/-- UX_REF_CTRL.BW_UP (R94). -/ def UX_REF_CTRL_BW_UP : Fld := ⟨0x3000, 15, 11⟩
/-- UX_REF_CTRL.BW_EXT (R94). -/ def UX_REF_CTRL_BW_EXT : Fld := ⟨0x3000, 10, 6⟩
/-- UX_REF_CTRL.QL_EN (R94). -/ def UX_REF_CTRL_QL_EN : Fld := ⟨0x3000, 5, 5⟩
/-- UX_REF_CTRL.REVERTIVE (R94). -/ def UX_REF_CTRL_REVERTIVE : Fld := ⟨0x3000, 4, 4⟩
/-- UX_REF_CTRL.MODE (R94). -/ def UX_REF_CTRL_MODE : Fld := ⟨0x3000, 3, 2⟩
/-- UX_REF_CTRL.START (R94). -/ def UX_REF_CTRL_START : Fld := ⟨0x3000, 1, 1⟩
/-- UX_REF_STAT.WTR_LEFT (R94). -/ def UX_REF_STAT_WTR_LEFT : Fld := ⟨0x3008, 63, 48⟩
/-- UX_REF_STAT.QUAL (R94). -/ def UX_REF_STAT_QUAL : Fld := ⟨0x3008, 39, 32⟩
/-- UX_REF_STAT.VALID (R94). -/ def UX_REF_STAT_VALID : Fld := ⟨0x3008, 31, 24⟩
/-- UX_REF_STAT.DCO_LIMIT (R94). -/ def UX_REF_STAT_DCO_LIMIT : Fld := ⟨0x3008, 15, 15⟩
/-- UX_REF_STAT.ACQ_TIMEOUT (R94). -/ def UX_REF_STAT_ACQ_TIMEOUT : Fld := ⟨0x3008, 14, 14⟩
/-- UX_REF_STAT.TDC_FAIL (R94). -/ def UX_REF_STAT_TDC_FAIL : Fld := ⟨0x3008, 13, 13⟩
/-- UX_REF_STAT.TRACEABLE (R94). -/ def UX_REF_STAT_TRACEABLE : Fld := ⟨0x3008, 7, 7⟩
/-- UX_REF_STAT.TAI_VALID (R94). -/ def UX_REF_STAT_TAI_VALID : Fld := ⟨0x3008, 6, 6⟩
/-- UX_REF_STAT.SEL (R94). -/ def UX_REF_STAT_SEL : Fld := ⟨0x3008, 5, 3⟩
/-- UX_REF_STAT.STATE (R94). -/ def UX_REF_STAT_STATE : Fld := ⟨0x3008, 1, 0⟩
/-- UX_REF_PRIO.ENTRIES (R94). -/ def UX_REF_PRIO_ENTRIES : Fld := ⟨0x3010, 63, 0⟩
/-- UX_REF_FORCE.CAND (R94). -/ def UX_REF_FORCE_CAND : Fld := ⟨0x3018, 2, 0⟩
/-- UX_REF_TAIOFS_SEC.SEC (R94). -/ def UX_REF_TAIOFS_SEC_SEC : Fld := ⟨0x3020, 63, 0⟩
/-- UX_REF_TAIOFS_NSF.NS (R94). -/ def UX_REF_TAIOFS_NSF_NS : Fld := ⟨0x3028, 63, 32⟩
/-- UX_REF_TAIOFS_NSF.FRAC (R94). -/ def UX_REF_TAIOFS_NSF_FRAC : Fld := ⟨0x3028, 31, 0⟩
/-- UX_DCO_NOMINAL.SX (R94). -/ def UX_DCO_NOMINAL_SX : Fld := ⟨0x3030, 63, 40⟩
/-- UX_DCO_NOMINAL.VALUE (R94). -/ def UX_DCO_NOMINAL_VALUE : Fld := ⟨0x3030, 39, 0⟩
/-- UX_DCO_STEER.SX (R94). -/ def UX_DCO_STEER_SX : Fld := ⟨0x3038, 63, 40⟩
/-- UX_DCO_STEER.VALUE (R94). -/ def UX_DCO_STEER_VALUE : Fld := ⟨0x3038, 39, 0⟩
/-- UX_DCO_STAT.SX (R94). -/ def UX_DCO_STAT_SX : Fld := ⟨0x3040, 63, 40⟩
/-- UX_DCO_STAT.VALUE (R94). -/ def UX_DCO_STAT_VALUE : Fld := ⟨0x3040, 39, 0⟩
/-- UX_DCO_HIST.SX (R94). -/ def UX_DCO_HIST_SX : Fld := ⟨0x3048, 63, 40⟩
/-- UX_DCO_HIST.VALUE (R94). -/ def UX_DCO_HIST_VALUE : Fld := ⟨0x3048, 39, 0⟩
/-- UX_XPLANE_DIFF.DIFF (R94). -/ def UX_XPLANE_DIFF_DIFF : Fld := ⟨0x3050, 63, 0⟩
/-- UX_XPLANE_CTRL.TOL (R94). -/ def UX_XPLANE_CTRL_TOL : Fld := ⟨0x3058, 15, 0⟩
/-- UX_REF_IN_CFG.DLY (R95). -/ def UX_REF_IN_CFG_DLY (i : Nat) : Fld := ⟨0x3100 + 0x20 * i, 31, 16⟩
/-- UX_REF_IN_CFG.TRACE (R95). -/ def UX_REF_IN_CFG_TRACE (i : Nat) : Fld := ⟨0x3100 + 0x20 * i, 7, 7⟩
/-- UX_REF_IN_CFG.EN (R95). -/ def UX_REF_IN_CFG_EN (i : Nat) : Fld := ⟨0x3100 + 0x20 * i, 6, 6⟩
/-- UX_REF_IN_CFG.PPS_FALL (R95). -/ def UX_REF_IN_CFG_PPS_FALL (i : Nat) : Fld := ⟨0x3100 + 0x20 * i, 5, 5⟩
/-- UX_REF_IN_CFG.TYPE (R95). -/ def UX_REF_IN_CFG_TYPE (i : Nat) : Fld := ⟨0x3100 + 0x20 * i, 2, 0⟩
/-- UX_REF_IN_STAT.FREQ_OFS (R95). -/ def UX_REF_IN_STAT_FREQ_OFS (i : Nat) : Fld := ⟨0x3108 + 0x20 * i, 63, 32⟩
/-- UX_REF_IN_STAT.TOD_VALID (R95). -/ def UX_REF_IN_STAT_TOD_VALID (i : Nat) : Fld := ⟨0x3108 + 0x20 * i, 3, 3⟩
/-- UX_REF_IN_STAT.LOST (R95). -/ def UX_REF_IN_STAT_LOST (i : Nat) : Fld := ⟨0x3108 + 0x20 * i, 2, 2⟩
/-- UX_REF_IN_STAT.QUAL (R95). -/ def UX_REF_IN_STAT_QUAL (i : Nat) : Fld := ⟨0x3108 + 0x20 * i, 1, 1⟩
/-- UX_REF_IN_STAT.VALID (R95). -/ def UX_REF_IN_STAT_VALID (i : Nat) : Fld := ⟨0x3108 + 0x20 * i, 0, 0⟩
/-- UX_REF_IN_TOD.SEC (R95). -/ def UX_REF_IN_TOD_SEC (i : Nat) : Fld := ⟨0x3110 + 0x20 * i, 63, 0⟩
/-- UX_TP_CFG.ASYM (R95). -/ def UX_TP_CFG_ASYM (i : Nat) : Fld := ⟨0x3180 + 0x10 * i, 47, 32⟩
/-- UX_TP_CFG.DOMAIN (R95). -/ def UX_TP_CFG_DOMAIN (i : Nat) : Fld := ⟨0x3180 + 0x10 * i, 31, 24⟩
/-- UX_TP_CFG.TRANSPORT (R95). -/ def UX_TP_CFG_TRANSPORT (i : Nat) : Fld := ⟨0x3180 + 0x10 * i, 17, 16⟩
/-- UX_TP_CFG.QL_MIN (R95). -/ def UX_TP_CFG_QL_MIN (i : Nat) : Fld := ⟨0x3180 + 0x10 * i, 15, 12⟩
/-- UX_TP_CFG.SYNCE_EN (R95). -/ def UX_TP_CFG_SYNCE_EN (i : Nat) : Fld := ⟨0x3180 + 0x10 * i, 2, 2⟩
/-- UX_TP_CFG.PTP_EN (R95). -/ def UX_TP_CFG_PTP_EN (i : Nat) : Fld := ⟨0x3180 + 0x10 * i, 1, 1⟩
/-- UX_TP_CFG.PORT_EN (R95). -/ def UX_TP_CFG_PORT_EN (i : Nat) : Fld := ⟨0x3180 + 0x10 * i, 0, 0⟩
/-- UX_TP_STAT.OFS_MASTER (R95). -/ def UX_TP_STAT_OFS_MASTER (i : Nat) : Fld := ⟨0x3188 + 0x10 * i, 63, 32⟩
/-- UX_TP_STAT.MEAN_PATH (R95). -/ def UX_TP_STAT_MEAN_PATH (i : Nat) : Fld := ⟨0x3188 + 0x10 * i, 31, 16⟩
/-- UX_TP_STAT.QL_RX (R95). -/ def UX_TP_STAT_QL_RX (i : Nat) : Fld := ⟨0x3188 + 0x10 * i, 15, 12⟩
/-- UX_TP_STAT.TRACEABLE (R95). -/ def UX_TP_STAT_TRACEABLE (i : Nat) : Fld := ⟨0x3188 + 0x10 * i, 7, 7⟩
/-- UX_TP_STAT.LINK_UP (R95). -/ def UX_TP_STAT_LINK_UP (i : Nat) : Fld := ⟨0x3188 + 0x10 * i, 6, 6⟩
/-- UX_TP_STAT.LOST (R95). -/ def UX_TP_STAT_LOST (i : Nat) : Fld := ⟨0x3188 + 0x10 * i, 2, 2⟩
/-- UX_TP_STAT.QUAL (R95). -/ def UX_TP_STAT_QUAL (i : Nat) : Fld := ⟨0x3188 + 0x10 * i, 1, 1⟩
/-- UX_TP_STAT.VALID (R95). -/ def UX_TP_STAT_VALID (i : Nat) : Fld := ⟨0x3188 + 0x10 * i, 0, 0⟩
/-- UX_SYNC_CTRL.BAR_PRE (R243). -/ def UX_SYNC_CTRL_BAR_PRE : Fld := ⟨0x4000, 57, 56⟩
/-- UX_SYNC_CTRL.BAR_TMO (R243). -/ def UX_SYNC_CTRL_BAR_TMO : Fld := ⟨0x4000, 55, 32⟩
/-- UX_SYNC_CTRL.SLOT_PRE (R243). -/ def UX_SYNC_CTRL_SLOT_PRE : Fld := ⟨0x4000, 25, 24⟩
/-- UX_SYNC_CTRL.SLOT_TMO (R243). -/ def UX_SYNC_CTRL_SLOT_TMO : Fld := ⟨0x4000, 23, 0⟩
/-- UX_LAUNCH_CTRL.BAR_PLANE (R243). -/ def UX_LAUNCH_CTRL_BAR_PLANE : Fld := ⟨0x4008, 16, 16⟩
/-- UX_LAUNCH_CTRL.GUARD (R243). -/ def UX_LAUNCH_CTRL_GUARD : Fld := ⟨0x4008, 15, 0⟩
/-- UX_LAUNCH_DL.D_LAUNCH (R243). -/ def UX_LAUNCH_DL_D_LAUNCH : Fld := ⟨0x4010, 63, 32⟩
/-- UX_LAUNCH_DL.DOWN_MAX (R243). -/ def UX_LAUNCH_DL_DOWN_MAX : Fld := ⟨0x4010, 31, 0⟩
/-- UX_LAUNCH_CNT.REFUSED (R243). -/ def UX_LAUNCH_CNT_REFUSED : Fld := ⟨0x4018, 63, 32⟩
/-- UX_LAUNCH_CNT.ACCEPTED (R243). -/ def UX_LAUNCH_CNT_ACCEPTED : Fld := ⟨0x4018, 31, 0⟩
/-- UX_RED_STAT.SAT_VALUES (R268). -/ def UX_RED_STAT_SAT_VALUES : Fld := ⟨0x5000, 63, 48⟩
/-- UX_RED_STAT.DISCARDS (R268). -/ def UX_RED_STAT_DISCARDS : Fld := ⟨0x5000, 47, 32⟩
/-- UX_RED_STAT.OPEN (R268). -/ def UX_RED_STAT_OPEN : Fld := ⟨0x5000, 12, 0⟩
/-- UX_LEDG_CFG.GIB (R325). -/ def UX_LEDG_CFG_GIB : Fld := ⟨0x6000, 55, 48⟩
/-- UX_LEDG_CFG.BASE (R325). -/ def UX_LEDG_CFG_BASE : Fld := ⟨0x6000, 47, 30⟩
/-- UX_LEDG_CFG.MBASE (R325). -/ def UX_LEDG_CFG_MBASE : Fld := ⟨0x6000, 29, 14⟩
/-- UX_LEDG_CFG.RET (R325). -/ def UX_LEDG_CFG_RET : Fld := ⟨0x6000, 13, 0⟩
/-- UX_LEDG_CTRL.VERIFY (R325). -/ def UX_LEDG_CTRL_VERIFY : Fld := ⟨0x6008, 1, 1⟩
/-- UX_LEDG_CTRL.CHAIN_RESET (R325). -/ def UX_LEDG_CTRL_CHAIN_RESET : Fld := ⟨0x6008, 0, 0⟩
/-- UX_LEDG_STAT.DROPPED (R325). -/ def UX_LEDG_STAT_DROPPED : Fld := ⟨0x6010, 63, 32⟩
/-- UX_LEDG_STAT.OVERWRITES (R325). -/ def UX_LEDG_STAT_OVERWRITES : Fld := ⟨0x6010, 31, 16⟩
/-- UX_LEDG_STAT.CHAIN_BAD (R325). -/ def UX_LEDG_STAT_CHAIN_BAD : Fld := ⟨0x6010, 2, 2⟩
/-- UX_LEDG_STAT.OVERWRITE (R325). -/ def UX_LEDG_STAT_OVERWRITE : Fld := ⟨0x6010, 1, 1⟩
/-- UX_LEDG_STAT.GROUP_FULL (R325). -/ def UX_LEDG_STAT_GROUP_FULL : Fld := ⟨0x6010, 0, 0⟩
/-- UX_LEDG_ARCH.STEP (R325). -/ def UX_LEDG_ARCH_STEP : Fld := ⟨0x6018, 63, 0⟩
/-- UX_SEAL_CTRL.LAG (R325). -/ def UX_SEAL_CTRL_LAG : Fld := ⟨0x6040, 4, 0⟩
/-- UX_SEAL_NEXT.NEXT (R325). -/ def UX_SEAL_NEXT_NEXT : Fld := ⟨0x6048, 63, 0⟩
/-- UX_SEAL_STAT.LAST (R325). -/ def UX_SEAL_STAT_LAST : Fld := ⟨0x6050, 63, 0⟩
/-- UX_SEAL_FAIL.LSI (R325). -/ def UX_SEAL_FAIL_LSI : Fld := ⟨0x6058, 63, 44⟩
/-- UX_SEAL_FAIL.PENDING (R325). -/ def UX_SEAL_FAIL_PENDING : Fld := ⟨0x6058, 0, 0⟩
/-- UX_LOCK_CTRL.EN (R325). -/ def UX_LOCK_CTRL_EN : Fld := ⟨0x6080, 15, 15⟩
/-- UX_LOCK_CTRL.SHD (R325). -/ def UX_LOCK_CTRL_SHD : Fld := ⟨0x6080, 14, 8⟩
/-- UX_LOCK_CTRL.PRI (R325). -/ def UX_LOCK_CTRL_PRI : Fld := ⟨0x6080, 6, 0⟩
/-- UX_LOCK_DIV0.STEP (R325). -/ def UX_LOCK_DIV0_STEP : Fld := ⟨0x6088, 63, 0⟩
/-- UX_LOCK_DIV1.BUNDLE (R325). -/ def UX_LOCK_DIV1_BUNDLE : Fld := ⟨0x6090, 63, 48⟩
/-- UX_LOCK_DIV1.TENSOR (R325). -/ def UX_LOCK_DIV1_TENSOR : Fld := ⟨0x6090, 47, 36⟩
/-- UX_LOCK_DIV1.BLOCK (R325). -/ def UX_LOCK_DIV1_BLOCK : Fld := ⟨0x6090, 35, 16⟩
/-- UX_LOCK_DIV1.VALID (R325). -/ def UX_LOCK_DIV1_VALID : Fld := ⟨0x6090, 0, 0⟩
/-- UX_HC_CTRL.EXPEL (R369). -/ def UX_HC_CTRL_EXPEL : Fld := ⟨0x7000, 63, 56⟩
/-- UX_HC_CTRL.PROB (R369). -/ def UX_HC_CTRL_PROB : Fld := ⟨0x7000, 55, 48⟩
/-- UX_HC_CTRL.WATCH (R369). -/ def UX_HC_CTRL_WATCH : Fld := ⟨0x7000, 47, 40⟩
/-- UX_HC_CTRL.LOW_WATER (R369). -/ def UX_HC_CTRL_LOW_WATER : Fld := ⟨0x7000, 39, 32⟩
/-- UX_HC_CTRL.BUDGET (R369). -/ def UX_HC_CTRL_BUDGET : Fld := ⟨0x7000, 31, 24⟩
/-- UX_HC_CTRL.BUDGET_WIN (R369). -/ def UX_HC_CTRL_BUDGET_WIN : Fld := ⟨0x7000, 23, 8⟩
/-- UX_HC_CTRL.DECAY (R369). -/ def UX_HC_CTRL_DECAY : Fld := ⟨0x7000, 7, 2⟩
/-- UX_HC_CTRL.AUTO_SHRINK (R369). -/ def UX_HC_CTRL_AUTO_SHRINK : Fld := ⟨0x7000, 1, 1⟩
/-- UX_HC_RUN.W_MIN (R369). -/ def UX_HC_RUN_W_MIN : Fld := ⟨0x7008, 46, 26⟩
/-- UX_HC_RUN.LSI_SPLIT (R369). -/ def UX_HC_RUN_LSI_SPLIT : Fld := ⟨0x7008, 25, 21⟩
/-- UX_HC_RUN.W (R369). -/ def UX_HC_RUN_W : Fld := ⟨0x7008, 20, 0⟩
/-- UX_HC_STAT.EPOCH (R369). -/ def UX_HC_STAT_EPOCH : Fld := ⟨0x7010, 63, 32⟩
/-- UX_HC_STAT.SPARES_FREE (R369). -/ def UX_HC_STAT_SPARES_FREE : Fld := ⟨0x7010, 31, 20⟩
/-- UX_HC_STAT.DISCARDS (R369). -/ def UX_HC_STAT_DISCARDS : Fld := ⟨0x7010, 19, 8⟩
/-- UX_HC_STAT.UNRECOVERABLE (R369). -/ def UX_HC_STAT_UNRECOVERABLE : Fld := ⟨0x7010, 7, 7⟩
/-- UX_HC_STAT.AUTHORITY (R369). -/ def UX_HC_STAT_AUTHORITY : Fld := ⟨0x7010, 6, 6⟩
/-- UX_HC_STAT.WAIT (R369). -/ def UX_HC_STAT_WAIT : Fld := ⟨0x7010, 5, 5⟩
/-- UX_HC_STAT.ROLLBACK (R369). -/ def UX_HC_STAT_ROLLBACK : Fld := ⟨0x7010, 4, 4⟩
/-- UX_HC_STAT.GATE_CLOSED (R369). -/ def UX_HC_STAT_GATE_CLOSED : Fld := ⟨0x7010, 3, 3⟩
/-- UX_HC_CMD.READMIT (R369). -/ def UX_HC_CMD_READMIT : Fld := ⟨0x7018, 22, 22⟩
/-- UX_HC_CMD.ADVISE_FAILED (R369). -/ def UX_HC_CMD_ADVISE_FAILED : Fld := ⟨0x7018, 21, 21⟩
/-- UX_HC_CMD.FENCE (R369). -/ def UX_HC_CMD_FENCE : Fld := ⟨0x7018, 20, 20⟩
/-- UX_HC_CMD.PDI (R369). -/ def UX_HC_CMD_PDI : Fld := ⟨0x7018, 19, 0⟩
/-- UX_HC_SPTAB.BASE (R369). -/ def UX_HC_SPTAB_BASE : Fld := ⟨0x7020, 47, 12⟩
/-- UX_HC_SPTAB.COUNT (R369). -/ def UX_HC_SPTAB_COUNT : Fld := ⟨0x7020, 11, 0⟩
/-- UX_HC_PEER.DOMAIN (R369). -/ def UX_HC_PEER_DOMAIN : Fld := ⟨0x7028, 39, 32⟩
/-- UX_HC_PEER.PARTNER2 (R369). -/ def UX_HC_PEER_PARTNER2 : Fld := ⟨0x7028, 29, 19⟩
/-- UX_HC_PEER.PARTNER (R369). -/ def UX_HC_PEER_PARTNER : Fld := ⟨0x7028, 18, 8⟩
/-- UX_HC_PEER.WAYS3 (R369). -/ def UX_HC_PEER_WAYS3 : Fld := ⟨0x7028, 0, 0⟩
/-- UX_VAULT_CFG.BASE (R369). -/ def UX_VAULT_CFG_BASE : Fld := ⟨0x7040, 47, 30⟩
/-- UX_VAULT_CFG.BUDGET (R369). -/ def UX_VAULT_CFG_BUDGET : Fld := ⟨0x7040, 7, 0⟩
/-- UX_VAULT_STAT.CAP_DIES (R369). -/ def UX_VAULT_STAT_CAP_DIES : Fld := ⟨0x7048, 63, 56⟩
/-- UX_VAULT_STAT.UNMIRRORED (R369). -/ def UX_VAULT_STAT_UNMIRRORED : Fld := ⟨0x7048, 55, 48⟩
/-- UX_VAULT_STAT.OVER (R369). -/ def UX_VAULT_STAT_OVER : Fld := ⟨0x7048, 2, 2⟩
/-- UX_VAULT_STAT.MISMATCH (R369). -/ def UX_VAULT_STAT_MISMATCH : Fld := ⟨0x7048, 1, 1⟩
/-- UX_VAULT_STAT.APPLYING (R369). -/ def UX_VAULT_STAT_APPLYING : Fld := ⟨0x7048, 0, 0⟩
/-- UX_OCS_CFG.BASE (R472). -/ def UX_OCS_CFG_BASE : Fld := ⟨0x7080, 47, 12⟩
/-- UX_OCS_CFG.IPV6 (R472). -/ def UX_OCS_CFG_IPV6 : Fld := ⟨0x7080, 1, 1⟩
/-- UX_OCS_CFG.PORT (R472). -/ def UX_OCS_CFG_PORT : Fld := ⟨0x7080, 0, 0⟩
/-- UX_OCS_STAT.STATUS (R472). -/ def UX_OCS_STAT_STATUS : Fld := ⟨0x7088, 23, 16⟩
/-- UX_OCS_STAT.PATHSET (R472). -/ def UX_OCS_STAT_PATHSET : Fld := ⟨0x7088, 15, 0⟩
/-- UX_REPLACE.EN (R472). -/ def UX_REPLACE_EN : Fld := ⟨0x7090, 37, 32⟩
/-- UX_REPLACE.CAUSE (R472). -/ def UX_REPLACE_CAUSE : Fld := ⟨0x7090, 5, 0⟩
/-- UX_PWR_CTRL.IDLE_US (R436). -/ def UX_PWR_CTRL_IDLE_US : Fld := ⟨0xA000, 47, 32⟩
/-- UX_PWR_CTRL.FORCE_ON (R436). -/ def UX_PWR_CTRL_FORCE_ON : Fld := ⟨0xA000, 23, 0⟩
/-- UX_PWR_STAT.DSTATE (R436). -/ def UX_PWR_STAT_DSTATE : Fld := ⟨0xA008, 47, 0⟩
/-- UX_CLK_CTRL.DROOP_TH (R436). -/ def UX_CLK_CTRL_DROOP_TH : Fld := ⟨0xA010, 15, 8⟩
/-- UX_CLK_CTRL.CMUL (R436). -/ def UX_CLK_CTRL_CMUL : Fld := ⟨0xA010, 3, 0⟩
/-- UX_CLK_STAT.STRETCH (R436). -/ def UX_CLK_STAT_STRETCH : Fld := ⟨0xA018, 63, 32⟩
/-- UX_CLK_STAT.PLL_SEL (R436). -/ def UX_CLK_STAT_PLL_SEL : Fld := ⟨0xA018, 3, 3⟩
/-- UX_CLK_STAT.PLL_FAIL (R436). -/ def UX_CLK_STAT_PLL_FAIL : Fld := ⟨0xA018, 2, 2⟩
/-- UX_CLK_STAT.ACLK_SRC (R436). -/ def UX_CLK_STAT_ACLK_SRC : Fld := ⟨0xA018, 1, 0⟩
/-- UX_MAN_STAGED.COUNT (R489). -/ def UX_MAN_STAGED_COUNT : Fld := ⟨0xB030, 12, 0⟩
/-- UX_MAN_HALL_AT_SEC.SEC (R472). -/ def UX_MAN_HALL_AT_SEC_SEC : Fld := ⟨0xB040, 63, 0⟩
/-- UX_MAN_HALL_AT_NSF.NSF (R472). -/ def UX_MAN_HALL_AT_NSF_NSF : Fld := ⟨0xB048, 63, 0⟩
/-- UX_MAN_HALL_CTRL.HALL_TMO (R472). -/ def UX_MAN_HALL_CTRL_HALL_TMO : Fld := ⟨0xB050, 63, 48⟩
/-- UX_MAN_HALL_CTRL.COMMIT_GUARD (R472). -/ def UX_MAN_HALL_CTRL_COMMIT_GUARD : Fld := ⟨0xB050, 47, 16⟩
/-- UX_MAN_HALL_CTRL.HALL_STAT (R472). -/ def UX_MAN_HALL_CTRL_HALL_STAT : Fld := ⟨0xB050, 5, 2⟩
/-- UX_MAN_HALL_CTRL.BUSY (R472). -/ def UX_MAN_HALL_CTRL_BUSY : Fld := ⟨0xB050, 1, 1⟩
/-- UX_MAN_HALL_CTRL.GO (R472). -/ def UX_MAN_HALL_CTRL_GO : Fld := ⟨0xB050, 0, 0⟩
/-- UX_SEC_ALLOW.BASE (R472). -/ def UX_SEC_ALLOW_BASE : Fld := ⟨0xC048, 47, 16⟩
/-- UX_SEC_ALLOW.COUNT (R472). -/ def UX_SEC_ALLOW_COUNT : Fld := ⟨0xC048, 15, 0⟩
/-- UX_TEST_REFSTORM.EN (R472). -/ def UX_TEST_REFSTORM_EN : Fld := ⟨0xD030, 63, 63⟩
/-- UX_TEST_REFSTORM.STACKS (R472). -/ def UX_TEST_REFSTORM_STACKS : Fld := ⟨0xD030, 11, 4⟩
/-- UX_TEST_REFSTORM.MULT (R472). -/ def UX_TEST_REFSTORM_MULT : Fld := ⟨0xD030, 3, 0⟩

end Reg
end Sys2Proof.Machine
end

