-- ==== Sys2Proof/Syntax.lean ====
section
/-! DEFINITION. The commands of the model: one constructor of `Instr` per row of spec/opcode_table.json, with the operands the spec gives the row.
A slot operation of a bundle (R133) is a command of its own; its `Env` holds the predicate fields of its envelope and says whether it is the last executing operation of its bundle (the end of the issue cycle, R136). -/

namespace Sys2Proof

/-- The part a command acts on: the Elesh block or the Uhloux chip (the scope chapter). -/
inductive Part where
  | el | ux
  deriving DecidableEq, Repr

/-- The envelope of a slot operation (R133): predication, and whether this operation closes its bundle. -/
structure Env where
  pen   : Bool
  pneg  : Bool
  pflag : Fin 8
  last  : Bool
  deriving DecidableEq, Repr

/-- The completion counter and amount of a queued operation (format Q, R170): SC[core].k on Elesh, TC[core] on Uhloux, amount `amt + 1`. -/
structure QDest where
  core : BitVec 8
  k    : BitVec 6
  amt  : BitVec 4
  deriving DecidableEq, Repr

/-- The second operand of an integer operation (format R, before R196): a register or a sign-extended 32-bit immediate. -/
inductive Opnd where
  | reg (b : Fin 64)
  | imm (v : BitVec 32)
  deriving DecidableEq, Repr

/-- The tail of a format T operation (R184). -/
structure TArgs where
  ga  : Fin 64
  gb  : Fin 64
  gn  : Fin 64
  ge  : Fin 64
  fmt : BitVec 4
  cls : Fin 4
  mx  : Bool
  deriving DecidableEq, Repr

/-- The tail of a format K operation (before R190). -/
structure KArgs where
  ga   : Fin 64
  gb   : Fin 64
  gn   : Fin 64
  gt   : Fin 64
  fa   : Fin 16
  kind : BitVec 4
  deriving DecidableEq, Repr

/-- The queues of R140 and R164. -/
inductive QueueId where
  | move | red | chk | ledger | barrier | tree | vault | ledg
  deriving DecidableEq, Repr

/-- What arrives from outside when a queued operation ends (R143): the answer of the root, the leaf, a remote die or the tree.
`own` is the end of an operation whose result the part computes alone. -/
inductive Answer where
  | own
  | accepted
  | refused
  | late
  | timeout
  | values (vs : List Int) (sat : Bool)
  deriving DecidableEq, Repr

/-- A VC0 time message (R82). Times are HXT values in units of 2^-32 ns. -/
structure TimeMsg where
  t1        : Nat
  t4        : Nat
  seq       : BitVec 16
  echoSeq   : BitVec 16
  asym      : BitVec 16
  upbSel    : Bool
  epochTai  : Bool
  traceable : Bool
  dpll      : BitVec 2
  depth     : BitVec 8
  deriving DecidableEq, Repr

/-- A ferry frame as it is received (R99): header fields, the 244 payload bytes and the CRC field. -/
structure RxFrame where
  type    : Byte
  vcf     : Byte
  seq     : Byte
  ackSeq  : Byte
  ackf    : Byte
  len     : Byte
  credit  : BitVec 16
  payload : List Byte
  crc     : BitVec 32
  deriving DecidableEq, Repr

/-- A join record (R126). -/
structure JoinRec where
  kind    : Byte
  plane   : Byte
  port    : Byte
  depth   : Byte
  pdi     : BitVec 32
  version : BitVec 16
  deriving DecidableEq, Repr

/-- The dataset of a PTP master, as its Announce carries it (R68, IEEE 1588-2019). -/
structure PtpData where
  priority1 : Byte
  clsClock  : Byte
  accuracy  : Byte
  variance  : BitVec 16
  priority2 : Byte
  identity  : Word
  steps     : BitVec 16
  traceable : Bool
  deriving DecidableEq, Repr

/-- What a PTP message says (R68 to R70). Times are HXT values in units of 2^-32 ns; a two-step Sync has its origin time in its Follow_Up. `unsupported` is a message that needs a function R69 leaves out. -/
inductive PtpBody where
  | announce (d : PtpData)
  | sync (seq : BitVec 16) (origin : Option Nat)
  | followUp (seq : BitVec 16) (origin : Nat)
  | delayResp (seq : BitVec 16) (received : Nat)
  | esmc (ql : BitVec 4)
  | unsupported
  deriving DecidableEq, Repr

/-- A message a time port receives (R68): its domain number, its transport as UX_TPp_CFG.TRANSPORT codes it, the identity of its sender, and its body. -/
structure PtpMsg where
  domain    : Byte
  transport : BitVec 2
  sender    : Word
  body      : PtpBody
  deriving DecidableEq, Repr

/-- An announcement (R219). -/
structure AnnMsg where
  src   : BitVec 20
  step  : Word
  bytes : BitVec 48
  rcore : BitVec 8
  rk    : BitVec 6
  ramt  : BitVec 4
  ident : Nat
  deriving DecidableEq, Repr

/-- A launch as requested and as sent (R234, R237); `ident` is the requester's own number for it, by which a request that arrives again is known (R110). -/
structure LaunchMsg where
  lid   : BitVec 8
  t     : Nat
  gmask : BitVec 16
  start : Bool
  lsi   : BitVec 20
  ident : Nat
  deriving DecidableEq, Repr

/-- A VC2 reduction message (R263): KIND 0 to 2 with its values. -/
structure RedMsg where
  rid   : BitVec 12
  kind  : Byte
  min   : Bool
  sat   : Bool
  down  : Bool
  first : BitVec 32
  src   : BitVec 32
  step  : Word
  vals  : List Int
  deriving DecidableEq, Repr

/-- A ledger record (R296). -/
structure LedgerRec where
  step   : Word
  fp     : Word
  blocks : BitVec 32
  mism   : BitVec 32
  tensor : BitVec 16
  kind   : Byte
  flags  : Byte
  lsi    : BitVec 32
  deriving DecidableEq, Repr

/-- One histogram entry of a cross-check (R309). -/
structure HistEntry where
  fp     : Word
  blocks : BitVec 32
  count  : Nat
  deriving DecidableEq, Repr

/-- A contribution to a cross-check group (R307): a histogram, or the overflow a node forwards in its place. -/
inductive XchkMsg where
  | hist (es : List HistEntry)
  | overflow
  deriving DecidableEq, Repr

/-- The subject of a headcount message in SUBJ form (R331): tier 0 die, 1 leaf, 2 spine, 3 root, and the PDI. -/
structure Subj where
  tier : Fin 4
  pdi  : BitVec 20
  deriving DecidableEq, Repr

/-- A heartbeat (R332): the counts of ARG1 and the flags of ARG2. -/
structure Hb where
  subj       : Subj
  step       : BitVec 32
  epoch      : BitVec 32
  parity     : BitVec 16
  slipOver   : BitVec 8
  transient  : BitVec 8
  permanent  : BitVec 8
  stepMissed : Bool
  dieFatal   : Bool
  deriving DecidableEq, Repr

/-- A PROPOSE message (R332). `type` is the raw TYPE byte, so that a reserved TYPE can be discarded and counted. -/
structure ProposeMsg where
  subj   : Subj
  kind   : Byte
  hard   : Bool
  domain : Byte
  ageP   : BitVec 32
  ageT   : BitVec 32
  epoch  : BitVec 32
  origin : Subj
  deriving DecidableEq, Repr

/-- A VOTE message (R332). -/
structure VoteMsg where
  subj   : Subj
  kind   : Byte
  yes    : Bool
  epoch  : BitVec 32
  origin : Subj
  deriving DecidableEq, Repr

/-- A DECISION message (R337). -/
structure DecisionMsg where
  subj   : Subj
  kind   : Byte
  arg0   : BitVec 32
  target : Word
  epoch  : BitVec 32
  deriving DecidableEq, Repr

/-- A VC4 message (R353), mirror and restore kinds. -/
structure VaultMsg where
  kind   : Byte
  lane   : BitVec 7
  step   : BitVec 32
  ofs    : BitVec 32
  target : BitVec 20
  data   : List Byte
  deriving DecidableEq, Repr

/-- The size of a host access: 4 or 8 bytes (R497); 1, 2 or any other number of bytes, each with its byte enable, which R477 allows only in the upper windows of BAR0, up to 4,096; `other` is a size no region allows. -/
inductive AccSize where
  | one | two | four | eight | other
  | long (data : List (Option (BitVec 8)))
  deriving DecidableEq, Repr

/-- How the words of the DMA buffer that a request reads come out (R379, R380): all good, one healed by a replay, or one that stays bad, by its index in the buffer. -/
inductive BufRead where
  | good
  | healed (word : BitVec 15)
  | bad (word : BitVec 15)
  deriving DecidableEq, Repr

/-- What a relayed or own barrier arrival at a node says (R228, R230, R535): the barrier, its generation and its scope. -/
structure BarArrive where
  bid   : BitVec 8
  gen   : BitVec 16
  scope : Fin 4
  deriving DecidableEq, Repr

/-- The generation of a barrier that a release or a refusal closes (R227, R534, R535), and the position of the die a leaf passes it to (R230). -/
structure BarClose where
  gen : BitVec 16
  pos : Option (Fin 128)
  deriving DecidableEq, Repr

/-- A launch message, and the part it reaches (R230, R237). -/
structure LaunchDown where
  part   : Part
  launch : LaunchMsg
  deriving DecidableEq, Repr

/-- A cross-check contribution with the SRC and STEP of its header (R263, R309). -/
structure XchkUp where
  src  : BitVec 32
  step : Word
  body : XchkMsg
  deriving DecidableEq, Repr

/-- The verdict of a cross-check as it travels down (R308, R309): SRC and STEP of its header, the majority if there is one, and how many contributions there were. -/
structure XchkDown where
  src      : BitVec 32
  step     : Word
  majority : Option HistEntry
  total    : BitVec 32
  deriving DecidableEq, Repr

/-- A PASS vote or a FAIL: the sender's LSI and the step (R305, R316). -/
structure SealVote where
  lsi  : BitVec 20
  step : Word
  deriving DecidableEq, Repr

/-- How the reads of a DMA request come out (R379, R380): the SPM word whose read was replayed, and the words of the DMA buffer. -/
structure DmaReads where
  replay : Option (BitVec 24)
  buf    : BufRead
  deriving DecidableEq, Repr

/-- One command: one row of spec/opcode_table.json. -/
inductive Instr where
  -- power and time (chapters 2 and 16); with the commit of a manifest, which a tick queues, ahead of its chapter: compiled code builds only the first constructors
  | powerOn (p : Part) (cfgFilt cfgSlew : Fin 4)
  | tb3Step (p : Part)
  | tb3LockDecl (p : Part)
  | tb3RateWrite (p : Part) (v : Word)
  | tbLockDwell (p : Part) (n : Fin 4)
  | tbSourceTimeout (p : Part) (n : Fin 4)
  | refclkLoss
  | pulseArm (p : Part) (i : Fin 8)
  | pulseDisarm (p : Part) (i : Fin 8)
  | pulseEdge (p : Part) (i : Fin 8)
  | capEdge (p : Part) (c : Fin 4) (rising : Bool) (sub : BitVec 16)
  | capPop (p : Part) (c : Fin 4)
  | frcRead (p : Part)
  | tbRead (p : Part) (n : Fin 4)
  | dumpDataRead (p : Part)
  | manifestCommit (p : Part)
  -- references (chapter 3)
  | refValid (k : Fin 8)
  | refQualified (k : Fin 8)
  | refLost (k : Fin 8) (monitor : BitVec 8)
  | dpllLocked (freqOfs : BitVec 40) (candTime : Nat)
  | acqTimeout
  | wtrExpiry
  | refModeWrite (mode : Fin 4)
  | rootStart
  | startWaitExpiry
  | todWrite (n : Fin 4) (sec : Word) (lateForEdge : Bool)
  | ppsEdge (n : Fin 4)
  | ptpMessage (port : Fin 2) (m : PtpMsg)
  -- distribution (chapter 3) and ferry links (chapter 4)
  | timeMessage (p : Part) (lane : Fin 160) (m : TimeMsg)
  | upwardMark (p : Part) (lane : Fin 160) (seq : BitVec 16) (dPs : BitVec 32)
  | markSend (p : Part) (lane : Fin 160)
  | tcalRecal (p : Part) (lane : Fin 160)
  | frameSlot (p : Part) (lane : Fin 160)
  | frameReceive (p : Part) (lane : Fin 160) (f : RxFrame)
  | replayTimeout (p : Part) (lane : Fin 160)
  | losPersist (p : Part) (lane : Fin 160) (cdr : Bool)
  | fecAlignLoss (p : Part) (lane : Fin 160)
  | awayFrame (p : Part) (lane : Fin 160) (set : Bool)
  | signalDetect (p : Part) (lane : Fin 160)
  | laneJoinCmd (p : Part) (lane : Fin 160)
  | trainDone (p : Part) (lane : Fin 160) (aInt : BitVec 16)
  | trainTimeout (p : Part) (lane : Fin 160)
  | joinFrame (p : Part) (lane : Fin 160) (j : JoinRec) (authOk : Bool)
  | laneLeaveCmd (p : Part) (lane : Fin 160)
  | leaveFrame (p : Part) (lane : Fin 160)
  | drainEmpty (p : Part) (lane : Fin 160)
  | laneDrainTimeout (p : Part) (lane : Fin 160)
  | laneCntClr (p : Part) (lane : Fin 160)
  | moduleInterrupt (m : Fin 20) (lane : Fin 8) (flag : Byte) (fatal : Bool)
  | modulePoll
  -- slot operations: SEQ (R174, R197)
  | nop (p : Part) (e : Env)
  | br (p : Part) (e : Env) (tgt : BitVec 16)
  | brr (p : Part) (e : Env) (a : Fin 64)
  | loop (p : Part) (e : Env) (d : Fin 64) (tgt : BitVec 16)
  | waitt (p : Part) (e : Env) (tb : Fin 4) (rel : Bool) (a : Fin 64) (ns : BitVec 32)
  | anchorRelease (p : Part)
  | waitc (p : Part) (e : Env) (core : BitVec 8) (k : BitVec 6) (a : Fin 64) (eq : Bool) (pre : Fin 4) (tmo : BitVec 24) (cf : Fin 8)
  | waitcTimeout (p : Part)
  | halt (p : Part) (e : Env)
  | quiet (p : Part) (e : Env) (mask : BitVec 7) (n : BitVec 24)
  | windowClose (p : Part)
  -- TIME slot (R179)
  | trd (e : Env) (d : Fin 64) (tb : Fin 4) (nsf : Bool)
  | frcrd (e : Env) (d : Fin 64)
  | parm (e : Env) (i : Fin 4) (tb : Fin 4) (rel : Bool) (a : Fin 64) (cf : Fin 8) (ns : BitVec 32)
  | lreq (e : Env) (q : QDest) (a : Fin 64) (rel start : Bool) (lid : BitVec 8) (gmask : BitVec 16)
  | larm (e : Env) (lid : BitVec 8) (gmask : BitVec 16)
  -- SYNC slot (R181)
  | cinc (e : Env) (core : BitVec 8) (k : BitVec 6) (amt : BitVec 16)
  | cincr (e : Env) (core : BitVec 8) (k : BitVec 6) (a : Fin 64)
  | crd (e : Env) (d : Fin 64) (core : BitVec 8) (k : BitVec 6)
  | wreg (e : Env) (core : BitVec 8) (k : BitVec 6) (a : Fin 64) (eq : Bool) (eng : Fin 8) (widx : BitVec 12)
  | wclr (e : Env) (widx : BitVec 12)
  | arrive (e : Env) (q : QDest) (bid : BitVec 8) (scope : Fin 4)
  | bar (e : Env) (q : QDest) (bid : BitVec 8) (scope : Fin 4)
  | ann (e : Env) (q : QDest) (a b : Fin 64) (rcore : BitVec 8) (rk : BitVec 6) (ramt : BitVec 4)
  -- RED slot (R185)
  | scale (e : Env) (q : QDest) (t : TArgs)
  | tconv (e : Env) (q : QDest) (t : TArgs)
  | tadd (e : Env) (q : QDest) (t : TArgs)
  | tfin (e : Env) (q : QDest) (t : TArgs)
  | psum (e : Env) (q : QDest) (t : TArgs)
  | spass (e : Env) (q : QDest) (rid : BitVec 12) (gn ge : Fin 64) (min : Bool)
  | ssum (e : Env) (q : QDest) (rid : BitVec 12) (gn ge : Fin 64)
  -- CHK slot (R190)
  | bcvg (e : Env) (q : QDest) (k : KArgs)
  | bcvv (e : Env) (q : QDest) (k : KArgs)
  | fpa (e : Env) (q : QDest) (k : KArgs)
  | fpcmp (e : Env) (q : QDest) (fa fb : Fin 16)
  | xchk (e : Env) (q : QDest) (rid : BitVec 12) (fa : Fin 16)
  | lemit (e : Env) (q : QDest) (gt : Fin 64) (fa : Fin 16) (kind : BitVec 4)
  | sealv (e : Env) (q : QDest) (a : Fin 64)
  | sealq (e : Env) (q : QDest) (a : Fin 64)
  | lstag (e : Env) (q : QDest) (fa : Fin 16)
  | fclr (e : Env) (fa : Fin 16)
  | frd (e : Env) (d : Fin 64) (fa : Fin 16) (sel : Fin 4)
  | fsto (e : Env) (fa : Fin 16) (a : Fin 64) (ofs : BitVec 24)
  -- SEED slot (R191)
  | rng (e : Env) (d a b : Fin 64) (purpose : BitVec 16)
  | rngx (e : Env) (d a b : Fin 64) (purpose : BitVec 16)
  | srng (e : Env) (d : Fin 64) (s : Fin 64) (purpose : BitVec 16)
  | snext (e : Env) (d : Fin 64) (s : Fin 64)
  | sset (e : Env) (s : Fin 64) (a b : Fin 64)
  | srd (e : Env) (d : Fin 64) (s : Fin 64)
  | rsto (e : Env) (a b c : Fin 64) (purpose : BitVec 16)
  -- MOVE slot (R193)
  | ld (e : Env) (d a : Fin 64) (ofs : BitVec 24) (replays : Fin 3)
  | st (e : Env) (a b : Fin 64) (ofs : BitVec 24)
  | dmago (e : Env) (q : QDest) (ch : Fin 16) (a : Fin 64)
  | dmaab (e : Env) (ch : Fin 16)
  -- CTRL slot (R194)
  | rdstep (e : Env) (d : Fin 64)
  | rdid (e : Env) (d : Fin 64) (sel : Fin 8)
  | rdcnt (e : Env) (d : Fin 64) (src : Fin 16)
  | mstg (e : Env) (cf : Fin 8) (a b : Fin 64)
  | mchk (e : Env) (cf : Fin 8)
  | mcommit (e : Env) (cf : Fin 8) (rel : Bool) (a : Fin 64) (ns : BitVec 32)
  | evt (e : Env) (a : Fin 64) (tag : BitVec 16)
  | gkick (e : Env) (mask : BitVec 7)
  | gtrap (e : Env) (a : Fin 64)
  -- integer operations (R196)
  | mov (p : Part) (e : Env) (d : Fin 64) (o : Opnd)
  | add (p : Part) (e : Env) (d a : Fin 64) (o : Opnd)
  | sub (p : Part) (e : Env) (d a : Fin 64) (o : Opnd)
  | and (p : Part) (e : Env) (d a : Fin 64) (o : Opnd)
  | or (p : Part) (e : Env) (d a : Fin 64) (o : Opnd)
  | xor (p : Part) (e : Env) (d a : Fin 64) (o : Opnd)
  | shl (p : Part) (e : Env) (d a : Fin 64) (o : Opnd)
  | shr (p : Part) (e : Env) (d a : Fin 64) (o : Opnd)
  | sar (p : Part) (e : Env) (d a : Fin 64) (o : Opnd)
  | mul (p : Part) (e : Env) (d a : Fin 64) (o : Opnd)
  | movh (p : Part) (e : Env) (d : Fin 64) (v : BitVec 32)
  | cmp (p : Part) (e : Env) (cd : Fin 8) (cond : Fin 8) (a : Fin 64) (o : Opnd)
  | fop (p : Part) (e : Env) (cd ca cb : Fin 8) (fn : Fin 4)
  -- tree program (R197, R198, R199)
  | treeTrd (e : Env) (d : Fin 64) (tb : Fin 4) (nsf : Bool)
  | tslot (e : Env) (q : QDest) (rid : BitVec 12) (opk : Fin 8) (a b : Fin 64)
  | tbar (e : Env) (q : QDest) (bid : BitVec 8) (a : Fin 64)
  | tlreq (e : Env) (q : QDest) (a : Fin 64) (rel start : Bool) (lid : BitVec 8) (gmask : BitVec 16)
  | tcmpg (e : Env) (q : QDest) (rid : BitVec 12) (a n : Fin 64)
  | tlock (e : Env) (q : QDest) (a b c : Fin 64)
  | trel (e : Env) (q : QDest) (rid : BitVec 12)
  | vgen (e : Env) (q : QDest) (a b : Fin 64)
  | vseal (e : Env) (q : QDest) (a : Fin 64)
  | vcmp (e : Env) (q : QDest) (a b : Fin 64)
  | vrest (e : Env) (q : QDest) (a b : Fin 64)
  | vdrop (e : Env) (q : QDest) (a : Fin 64)
  | lseal (e : Env) (q : QDest) (a : Fin 64)
  | lflush (e : Env) (q : QDest)
  | larch (e : Env) (q : QDest) (a b : Fin 64)
  | ltrim (e : Env) (q : QDest) (a : Fin 64)
  -- queues, images and lifecycle (chapter 5)
  | queuedOpStart (p : Part) (q : QueueId) (replay : Option (BitVec 24))
  | queuedOpCompletion (p : Part) (qid : Nat) (ans : Answer)
  | progRefetch (p : Part) (slot : Fin 8) (ok : Bool)
  | seqLoad
  | imageLoadEnd (p : Part) (readOk : Bool)
  | seqUnload (p : Part)
  | seqStart
  | tseqLoad
  | tseqStart
  -- counters, watches, landing queue (chapter 7, R499 to R505)
  | csInc (c : BitVec 8) (eng : Fin 8) (core : BitVec 8) (k : BitVec 6) (amt : BitVec 40)
  | csWreg (c : BitVec 8) (eng : Fin 8) (core : BitVec 8) (k : BitVec 6) (target : BitVec 40) (eq : Bool) (widx : BitVec 12)
  | csWrel (c : BitVec 8) (eng : Fin 8) (widx : BitVec 12)
  | csArrive (c : BitVec 8) (eng : Fin 8) (core : BitVec 8) (k : BitVec 6) (bid : BitVec 8)
  | wakeSend (core : BitVec 8)
  | watchTimeout (w : BitVec 12)
  | hincWrite (v : Word)
  | deadlock
  | engRst (c : BitVec 8) (e : Fin 8)
  | gateAck (c : BitVec 8) (e : Fin 8) (level : Bool)
  | annMessage (m : AnnMsg)
  | annResend (qid : Nat)
  | annTimeout (qid : Nat)
  | landTimeout (tag : Fin 512)
  | idcChangeNotice (src : BitVec 20)
  | idcAnswer (tag : Fin 512) (grant : Bool)
  | idcClearAck
  -- barriers and launches (chapter 7)
  | barLocalComplete (bid : BitVec 8)
  | barNodeArrival (lane : Fin 160) (pos : Fin 128) (m : BarArrive)
  | barRelease (p : Part) (bid : BitVec 8) (m : BarClose)
  | barRefusal (p : Part) (bid : BitVec 8) (m : BarClose)
  | barTimeout (bid : BitVec 8)
  | barNodeTimeout (bid : BitVec 8)
  | launchRequest (m : LaunchMsg) (lane : Fin 160)
  | dlaunchRecompute (reports : List (Fin 160 × BitVec 32))
  | launchMessage (m : LaunchDown)
  | launchFire (lid : BitVec 8)
  -- reduction slots and cross-checks (chapters 8 and 10)
  | reductionContribution (m : RedMsg) (lane : Fin 160)
  | slotHeldExpiry (cluster : Fin 4) (idx : Nat)
  | slotTimeout (p : Part) (key : Nat)
  | xchkContribution (rid : BitVec 12) (lane : Fin 160) (m : XchkUp)
  | xchkBroadcast (rid : BitVec 12) (m : XchkDown)
  -- checks, ledger, seal (chapter 10)
  | chkerrReport (tag : BitVec 32) (mover : BitVec 4)
  | ledgerRecords (lane : Fin 128) (ord : BitVec 32) (recs : List LedgerRec)
  | lockRearm
  | passVote (lane : Fin 160) (v : SealVote)
  | failMessage (lane : Fin 160) (v : SealVote)
  | sealMessage (p : Part) (step : Word)
  | ledgVerify
  | ledgChainReset
  -- headcount (chapter 11)
  | hbSend (p : Part)
  | hbMessage (lane : Fin 160) (m : Hb)
  | hbMiss (subj : Subj) (nth : Fin 4) (ageNs : BitVec 32)
  | hearReq (subj : Subj) (lane : Fin 160)
  | hearAns (subj : Subj) (ageNs : BitVec 32)
  | hearTimeout (subj : Subj)
  | propose (m : ProposeMsg)
  | vote (m : VoteMsg)
  | proposeResend (subj : Subj)
  | authoritySelfVote (subj : Subj)
  | decision (p : Part) (m : DecisionMsg)
  | rollback (p : Part) (step : Word)
  | rbReady (pdi : BitVec 20) (next : Word)
  | rbCommit (p : Part) (tc : Nat)
  | fenceMessage (p : Part) (subj : Subj)
  | probation (action : BitVec 32) (k : BitVec 16)
  | healthDecay
  | restoredWrite
  | hcReadmit (w : Word)
  | hcAdviseFailed (w : Word)
  | hcFence (w : Word)
  | vaultMessage (lane : Fin 160) (m : VaultMsg)
  | pathReply (seq : BitVec 32) (status : Byte)
  | pathResend (seq : BitVec 32)
  -- scratchpad and DMA (chapter 12)
  | dmaHostGo (ch : Fin 16) (count : BitVec 16)
  | dmaHostAbort (ch : Fin 16)
  | dmaClrHalt (ch : Fin 16)
  | dmaDescriptorFetch (ch : Fin 16)
  | dmaRequestDone (ch : Fin 16) (r : DmaReads)
  | dmaBusError (ch : Fin 16)
  | vaultRestoreMessage (m : VaultMsg)
  | spmHostAccess (write : Bool) (addr : BitVec 24) (size : AccSize) (data : Word) (replay : Bool)
  | spmHostTimeout (write : Bool) (addr : BitVec 24)
  | progApertureRead (write : Bool) (addr : BitVec 24) (size : AccSize) (parity : Bool)
  | spmClearDone (cycles : Nat)
  -- clocks, power and the guard (chapter 13)
  | fclkSwitch (p : Part)
  | pllFail (p : Part)
  | droopStretch (p : Part) (region : Fin 64)
  | throttleChange (level : Bool)
  | sleepEntry
  | wakeTrigger
  | wakeEnd (durNs : BitVec 32)
  | uxDomainIdle (d : Fin 24)
  | watchdog (p : Part) (unit : Byte)
  | hang (p : Part) (cause : Fin 10)
  | dumpReadTimeout (p : Part) (unit : Byte) (word : BitVec 32)
  | dumpComplete (p : Part)
  | resetDoneReport (p : Part) (d : Fin 24)
  | stageTimeout (p : Part)
  | fatalClr (p : Part)
  | faultHoldRelease (p : Part)
  -- management, manifests, security and test (chapter 14)
  | stageWrite (p : Part) (off : BitVec 26) (v : Word) (size : AccSize)
  | manArm (p : Part)
  | manNow (p : Part)
  | manDisarm (p : Part)
  | manDiscard (p : Part)
  | hallGo
  | manPrep (p : Part)
  | manVote (lane : Fin 160) (passes fails : Nat) (firstFail : Option Subj)
  | hallTimeout
  | manCommitMessage (p : Part) (t : Nat)
  | unitDrainTimeout (unit : Fin 5)
  | vc5RdReq (p : Part) (addr : Word) (len : BitVec 16) (seq : BitVec 16)
  | vc5WrReq (p : Part) (addr : Word) (data : List Byte) (seq : BitVec 16)
  | attGo (p : Part)
  | attestReq (p : Part) (lane : Fin 160) (nonce : List Byte)
  | attestRsp (lane : Fin 160) (report : List Byte) (pubKey : List Byte)
  | attestRetry (lane : Fin 160)
  | provLock (p : Part)
  | dbgUnlock (p : Part) (sig : List Byte)
  | keyRevoke (p : Part) (mask : Byte)
  | fwImage (image : List Byte) (keyId : Word) (sig : List Byte)
  | selftestGo (p : Part) (action mask : Byte) (force : Bool)
  | selftestStart (p : Part)
  | selftestDefer (p : Part)
  | selftestDone (p : Part) (result : Byte)
  | testUnlock (p : Part) (v : Bool)
  | thermWarn (tj : BitVec 16) (sensor : Fin 16)
  | thermClear (sensor : Fin 16)
  | thermtrip (tj : BitVec 16) (sensor : Fin 16)
  | hbmStackFail (stack : Fin 8)
  | replaceClear (mask : BitVec 6) (persist : BitVec 6)
  -- address maps and ports (chapters 15 and 16)
  | registerWrite (p : Part) (off : BitVec 26) (size : AccSize) (v : Word)
  | accessDomainTimeout (p : Part) (write : Bool) (off : BitVec 26)
  | supplyChange (supply : Fin 3) (good : Bool)
  | engRstLow (c : BitVec 8) (e : Fin 8)
  | evtTransfer
  | uxDomainOn (d : Fin 24)
  | quadrantFail (q : Fin 4)
  | corePllTimeout
  | attDone (p : Part)
  deriving DecidableEq, Repr

end Sys2Proof
end

