-- ==== Sys2Proof/Machine/State.lean ====
section
/-! DEFINITION. The state of the model: one Elesh block, one Uhloux chip and the queue of waiting commands, as plain data; the reasons a step can stop; the state after reset.
Every register of R490 and R491 stands in its part's register file `regs` under its offset; what is not a register stands in a named field. -/

namespace Sys2Proof.Machine

/-- An event record (R13). -/
structure EvtRec where
  ns     : BitVec 32
  frac   : BitVec 32
  secLo  : BitVec 32
  code   : BitVec 16
  source : BitVec 16
  object : BitVec 32
  waiter : BitVec 32
  detail : Word
  deriving DecidableEq, Repr

/-- What a part sends in a ferry frame, one message a frame (log 12). The VC of each is `Msg.vc`. -/
inductive Msg where
  | timeMark (m : TimeMsg)
  | upMark (seq : BitVec 16) (dPs : BitVec 32)
  | join (j : JoinRec)
  | leave
  | away (set : Bool)
  | ann (dst : BitVec 20) (m : AnnMsg)
  | annAnswer (ident : Nat) (code : Nat)
  | barArrival (bid : BitVec 8) (gen : BitVec 16) (scope : Nat) (pos : Option Nat)
  | barRelease (bid : BitVec 8) (gen : BitVec 16) (pos : Option Nat)
  | barRefusal (bid : BitVec 8) (gen : BitVec 16) (pos : Option Nat)
  | launchReq (m : LaunchMsg)
  | launchAnswer (lid : BitVec 8) (status : Nat)
  | launch (m : LaunchMsg)
  | delayReport (ps : Nat)
  | red (m : RedMsg)
  | xchkUp (rid : BitVec 12) (src : BitVec 32) (step : Word) (m : XchkMsg)
  | xchkDown (rid : BitVec 12) (src : BitVec 32) (step : Word) (majority : Option HistEntry) (total : Nat)
  | ledger (ord : Nat) (recs : List LedgerRec)
  | ledgerAck (ord : Nat)
  | sealMsg (type : Nat) (lsi : BitVec 20) (step : Word)
  | hb (m : Hb)
  | hearReq (s : Subj)
  | hearAns (s : Subj) (ageNs : BitVec 32)
  | propose (m : ProposeMsg)
  | vote (m : VoteMsg)
  | decision (m : DecisionMsg)
  | rollback (step : Word)
  | rbReady (pdi : BitVec 20) (next : Word)
  | rbCommit (tc : Nat)
  | fence (s : Subj)
  | probation (action : Nat) (k : Nat)
  | vault (m : VaultMsg)
  | rdRsp (seq : BitVec 16) (addr : Nat) (status : Nat) (data : List Byte)
  | wrRsp (seq : BitVec 16) (addr : Nat) (status : Nat)
  | event (r : EvtRec)
  | dump (offset bytes : Nat) (last : Bool)
  | attestReq (nonce : List Byte)
  | attestRsp (status offset : Nat) (report : List Byte) (last : Bool)
  | manPrep
  | manVote (passes fails : Nat) (firstFail : Option Subj)
  | manCommit (t : Nat)
  | manDisarm
  deriving DecidableEq, Repr

/-- The bytes of a frame that a replay repeats (R99): TYPE, VCF, LEN and the 244 payload bytes. -/
structure FrameBody where
  type    : Byte
  vcf     : Byte
  len     : Byte
  payload : List Byte
  deriving DecidableEq, Repr

/-- A sequenced frame held for replay (R101): its number, its VC, its message and bytes, how often it was sent, and the ACLK tick of its last transmission (R103). -/
structure TxFrame where
  seq    : Byte
  vc     : Nat
  msg    : Msg
  body   : FrameBody
  sends  : Nat
  sentAt : Nat
  deriving DecidableEq, Repr

/-- A frame as it left on the wire: a sequenced frame or an IDLE, with the acknowledgement fields it carries (R99, R102, R115) and the time the link delay of R466 held it. Its 256 bytes are `WireFrame.bytes`. -/
structure WireFrame where
  vc       : Option Nat
  seq      : Byte
  ackSeq   : Byte
  ackValid : Bool
  nak      : Bool
  creditVc : Nat
  credit   : Nat
  msg      : Option Msg
  body     : FrameBody
  heldNs   : Nat
  deriving DecidableEq, Repr

/-- The state of one ferry lane beside its registers (R98 to R129, the time exchange of R83, and what the link perturbations of R466 count: the first number never received, the first transmissions received, the tick to which each VC's credit returns are withheld, the count last shown of each VC, and the VC whose turn it is; the boundary of 256 ticks whose mark was sent last (R118), the launches waiting whose credit their acceptance consumed (R234), the partner's accepted join record (R125), the status of the last LEAVE (R128), the exchanges a restarted calibration still asks of the parent (R86), and the second that FEC_HIGH counts in (R130)). -/
structure Lane where
  txq       : List (Nat × Msg)
  replay    : List TxFrame
  resend    : List TxFrame
  nextSeq   : Byte
  expSeq    : Byte
  nakOwed   : Bool
  nakSent   : Bool
  freed     : Tbl Nat
  unreported : List Nat
  creditSeen : Tbl Nat
  lowWait   : Nat
  authCtr   : Nat
  authRx    : Nat
  authRxOld : Nat
  leaveSent : Bool
  leaveRcvd : Bool
  wire      : List WireFrame
  markSeq   : BitVec 16
  t3        : Tbl Nat
  lastUp    : BitVec 16
  lastT4    : Nat
  matched   : Nat
  calPs     : Nat
  partnerKind : Nat
  partnerPort : Nat
  joinPdi   : BitVec 20
  discards  : Nat
  rxHigh    : Byte
  firsts    : Nat
  starveTo  : Tbl Nat
  shown     : Tbl Nat
  turn      : Nat
  markSlot  : Nat
  paid      : Nat
  joinRcvd  : Option JoinRec
  leaveSt   : Option Nat
  recalLeft : Nat
  fecFrom   : Nat
  fecCount  : Nat
  fecLogged : Bool
  deriving DecidableEq, Repr

/-- A lane as it stands at power-up. -/
def Lane.zero : Lane :=
  { txq := [], replay := [], resend := [], nextSeq := 0, expSeq := 0, nakOwed := false, nakSent := false,
    freed := [], unreported := [], creditSeen := [], lowWait := 0, authCtr := 0, authRx := 0, authRxOld := 0, leaveSent := false,
    leaveRcvd := false, wire := [], markSeq := 0, t3 := [], lastUp := 0, lastT4 := 0, matched := 0, calPs := 0,
    partnerKind := 0, partnerPort := 0, joinPdi := 0, discards := 0, rxHigh := 0, firsts := 0, starveTo := [], shown := [], turn := 0,
    markSlot := 0, paid := 0, joinRcvd := none, leaveSt := none, recalLeft := 0, fecFrom := 0, fecCount := 0, fecLogged := false }

/-- Why a bundle is held (R139), as far as the hold is state: an anchor and its arrival time, a counter wait with its start tick, or another row of R139, with the unit whose queue lacks entries (R425). -/
inductive Hold where
  | none
  | anchor (t arrived : Nat)
  | waitc (core k target : Nat) (eq : Bool) (cf : Nat) (limit since : Nat)
  | other (row unit : Nat)
  deriving DecidableEq, Repr

/-- An open slack-water window (R150): unit mask over slots 1 to 7, its end on TB0 when it has one, and whether its hold was logged. -/
structure Window where
  mask   : Nat
  until? : Option Nat
  ready  : Bool
  logged : Bool
  deriving DecidableEq, Repr

/-- A pair of the loaded image (R207). -/
structure Pair where
  core : Nat
  prod : Nat
  cons : Nat
  cap  : Nat
  deriving DecidableEq, Repr

/-- A queued operation (R141 to R143) with the operands it captured at issue (R136). Numbers are SPM addresses, counts and indices. -/
inductive QKind where
  | lreq (m : LaunchMsg)
  | arrive (bid : BitVec 8) (scope : Nat)
  | bar (bid : BitVec 8) (scope : Nat)
  | ann (dst : BitVec 20) (m : AnnMsg)
  | tal (op src dst n e : Nat) (fmt : Nat) (cls : Nat) (mx : Bool)
  | spass (rid n addr : Nat) (min : Bool)
  | ssum (rid n addr : Nat)
  | bcvg (data bcv n tag : Nat)
  | bcvv (data bcv n tag : Nat)
  | fpa (bcv n tag fa : Nat)
  | fpcmp (fa fb : Nat)
  | xchk (rid fa : Nat) (sent : Option HistEntry)
  | lemit (tag fa kind : Nat)
  | sealv (step : Word)
  | sealq (step : Word)
  | lstag (fa : Nat)
  | dmago (ch count : Nat)
  | tslot (rid opk contributors n : Nat)
  | tbar (bid : BitVec 8) (count : Nat)
  | tlreq (m : LaunchMsg)
  | tcmpg (rid addr n : Nat)
  | tlock (d1 d2 : Nat) (step : Word)
  | trel (rid : Nat)
  | vgen (die : Nat) (step : Word)
  | vseal (step : Word)
  | vcmp (die : Nat) (step : Word)
  | vrest (die lane : Nat)
  | vdrop (die : Nat)
  | lseal (step : Word)
  | lflush
  | larch (lo hi : Word)
  | ltrim (step : Word)
  deriving DecidableEq, Repr

/-- What a slot operation does at the end of its issue cycle (R136, R171): every effect of a bundle stands here until its last executing operation, and all take effect together. -/
inductive Act where
  | g (d : Nat) (v : Word)
  | flag (c : Nat) (b : Bool)
  | inc (core k n : Nat)
  | branch (t : Nat)
  | fault (code : Nat) (detail : Nat)
  | halt
  | window (mask n : Nat)
  | pulse (i tb t : Nat)
  | larm (lid gmask : Nat)
  | wreg (core k target : Nat) (eq : Bool) (eng widx : Nat)
  | wclr (widx : Nat)
  | queue (q : QueueId) (kind : QKind) (core k amt entries : Nat)
  | refuse (q : QueueId) (op : Nat)
  | unit (slot : Nat)
  | load (addr : Nat)
  | fclr (fa : Nat)
  | spm (slot addr : Nat) (ws : List Word)
  | stream (s : Nat) (cursor : Word) (pos : Nat)
  | streamPos (s pos : Nat)
  | seedLog (s code : Nat)
  | replay (addr n : Nat)
  | log (unit code object detail : Nat)
  | stage (off : Nat) (v : Word)
  | commit (t : Nat)
  | kick (mask : Nat)
  | abort (ch : Nat)
  deriving DecidableEq, Repr

/-- A sequencer: registers and flags, the bundle that issues, holds, the step, and the loaded image (chapters 5 and 6); `segNew`: the bundle of the last anchor has not issued yet, and its issue starts the segment (R147). -/
structure Seq where
  g        : Tbl Word
  c        : BitVec 8
  acts     : List Act
  skip     : Bool
  hold     : Hold
  anchorOk : Bool
  segNew   : Bool
  tStep    : Nat
  heldStarts : List Nat
  window   : Option Window
  stopIssue : Bool
  prog     : Tbl Word
  bundles  : Nat
  entry    : Nat
  fclkNom  : Nat
  mShards  : Nat
  lsiSplit : Nat
  units    : Nat
  pairs    : List Pair
  deriving DecidableEq, Repr

/-- A sequencer at power-up: EMPTY, nothing loaded. -/
def Seq.zero : Seq :=
  { g := [], c := 0, acts := [], skip := false, hold := .none, anchorOk := false, segNew := false, tStep := 0, heldStarts := [], window := none,
    stopIssue := false, prog := [], bundles := 0, entry := 0, fclkNom := 0, mShards := 0, lsiSplit := 0, units := 0, pairs := [] }

/-- An entry of a queue: identity, queue, operation, issuing bundle, completion counter, entries it takes, whether it has started. -/
structure QOp where
  id      : Nat
  queue   : QueueId
  kind    : QKind
  pc      : Nat
  core    : Nat
  k       : Nat
  amt     : Nat
  entries : Nat
  started : Bool
  deriving DecidableEq, Repr

/-- A capture input: its FIFO of stamps with edge direction (R60), the ACLK tick of its last edge (R61), and the FRC value of its last stamp, with which a step in the same tick restamps it (R54). -/
structure Cap where
  fifo     : List (Nat × Bool)
  lastTick : Option Nat
  lastFrc  : Option Nat
  deriving DecidableEq, Repr

/-- A pulse output: the next edge on its time base, the value from which that edge is awaited (R39), how many edges have fired, and the assertion in progress as its edge and its end (R56). -/
structure Pulse where
  nextEdge : Nat
  from'    : Nat
  fired    : Nat
  on       : Option (Nat × Nat)
  deriving DecidableEq, Repr

/-- A pulse output never armed. -/
def Pulse.zero : Pulse := { nextEdge := 0, from' := 0, fired := 0, on := none }

/-- The stage a guard action stands in (R426, R427). -/
inductive GPhase where
  | idle
  | dumping
  | heldFault
  | stage (n : Nat)
  deriving DecidableEq, Repr

/-- The dump in dump RAM (R431): the trigger and culprit, TB0, STEP_CUR and EL_SEQ_PC at the trigger, the sections whose reads timed out with their first bad word, the number of the dump, and whether it is complete. -/
structure Dump where
  trigger : Nat
  unit    : Nat
  hxt     : Nat
  step    : Word
  pc      : Nat
  bad     : List (Nat × Nat)
  id      : Nat
  done    : Bool
  deriving DecidableEq, Repr

/-- The guard beside its registers (R422 to R432). -/
structure Guard where
  phase       : GPhase
  trigger     : Nat
  culprit     : Nat
  firstStage  : Nat
  fclkLoss    : Bool
  done        : List Nat
  hbStopped   : Bool
  rbHeld      : Bool
  dump        : Option Dump
  deriving DecidableEq, Repr

/-- A guard with no action in progress and an empty dump RAM. -/
def Guard.zero : Guard :=
  { phase := .idle, trigger := 0, culprit := 0, firstStage := 0, fclkLoss := false, done := [], hbStopped := false,
    rbHeld := false, dump := none }

/-- The PLL pair (R404, R405): whether each is locked, the value the standby one relocks to, and whether a switch waits for its tick. -/
structure Pll where
  activeLocked  : Bool
  standbyLocked : Bool
  standbyMul    : Nat
  relocking     : Bool
  deriving DecidableEq, Repr

/-- The self-test unit's held request (R463), and whether the hold of a bundle by its action was logged (R151, R153). -/
structure SelfTest where
  action : Nat
  mask   : Nat
  force  : Bool
  logged : Bool
  deriving DecidableEq, Repr

/-- A ford (R409): the entries between its read and its write pointer, oldest first, each valid or empty; the producer holds a credit for each of the other entries of the eight. -/
structure Ford where
  entries : List Bool
  deriving DecidableEq, Repr

/-- A ford after an alignment pulse (R410): four empty entries. -/
def Ford.aligned : Ford := { entries := [false, false, false, false] }

/-- The credits a producer holds (R409). -/
def Ford.credits (f : Ford) : Nat := 8 - f.entries.length

/-- What both parts carry; `fords` by producer and consumer region (64 times the one plus the other), an unlisted one as aligned, `stretchAt` the ACLK tick, plus 1, of a region's last stretch (R408); `tbFreq` is the part of a time base's RATE that follows its source's frequency (R50), `stepTick` the ACLK tick, plus 1, in which a time base took its step (R54), `hcNums` the headcount messages sent last with their numbers and `hcNext` the next number (R331). -/
structure Base where
  regs     : Tbl Word
  staged   : Tbl Word
  frc      : BitVec 80
  rdata    : Word
  rerr     : Bool
  lanes    : Tbl Lane
  seq      : Seq
  qops     : List QOp
  nextQid  : Nat
  events   : List EvtRec
  caps     : Tbl Cap
  pulses   : Tbl Pulse
  manAt    : Option Nat
  hallArm  : Bool
  hallSeen : Option Nat
  rbAt     : Option Nat
  guard    : Guard
  pll      : Pll
  selftest : SelfTest
  secBytes : Mem
  hallKey  : List Byte
  wdCount  : Tbl Nat
  prevKey  : List Byte
  prevGen  : Option Nat
  prevUntil : Nat
  lkeyNew  : Tbl Word
  attPend  : Option (List Byte)
  fwHash   : List Byte
  mem      : Mem
  cfgFilt  : Nat
  cfgSlew  : Nat
  ident    : Nat
  tbFreq   : Tbl Int
  stepTick : Tbl Nat
  hcNums   : List (Msg × Nat)
  hcNext   : Nat
  fords    : Tbl Ford
  stretchAt : Tbl Nat
  deriving DecidableEq, Repr

/-- The shared part at cold power-up. -/
def Base.zero (mul : Nat) : Base :=
  { regs := [], staged := [], frc := 0, rdata := 0, rerr := false, lanes := [], seq := Seq.zero, qops := [], nextQid := 0, events := [],
    caps := [], pulses := [], manAt := none, hallArm := false, hallSeen := none, rbAt := none, guard := Guard.zero,
    pll := { activeLocked := true, standbyLocked := true, standbyMul := mul, relocking := false },
    selftest := { action := 0, mask := 0, force := false, logged := false }, secBytes := [], hallKey := [], wdCount := [], prevKey := [], prevGen := none, prevUntil := 0, lkeyNew := [], attPend := none,
    fwHash := [], mem := [], cfgFilt := 0, cfgSlew := 0, ident := 0, tbFreq := [], stepTick := [], hcNums := [], hcNext := 0, fords := [], stretchAt := [] }

/-- A watch entry (R210, R242). -/
structure Watch where
  pre    : Nat
  tmo    : Nat
  armed  : Bool
  owner  : Bool
  eq     : Bool
  eng    : Nat
  core   : Nat
  k      : Nat
  target : Nat
  deriving DecidableEq, Repr

/-- A watch entry at reset (R242). -/
def Watch.zero : Watch :=
  { pre := 1, tmo := 0xF4240, armed := false, owner := false, eq := false, eng := 0, core := 0, k := 0, target := 0 }

/-- A wake waiting to leave (R213): engine, kind (0 FIRE, 1 TIMEOUT, 2 CANCEL, 3 KILL), EQUAL and the watch index. -/
structure Wake where
  core  : Nat
  eng   : Nat
  kind  : Nat
  equal : Bool
  widx  : Nat
  deriving DecidableEq, Repr

/-- The clock gate of one engine (R500, R501). -/
structure Gate where
  req : Bool
  ack : Bool
  rst : Bool
  deriving DecidableEq, Repr

/-- A landing-queue entry (R219 to R224). -/
structure LandEntry where
  tag     : Nat
  src     : BitVec 20
  step    : Word
  bytes   : Nat
  rcore   : Nat
  rk      : Nat
  ramt    : Nat
  tmoLogged : Bool
  deriving DecidableEq, Repr

/-- The die-local level of a barrier beside its register EL_BARb (R226): the cores that arrived with the counters they name, whether the arrival has been sent up, the BAR that waits, and whether it has timed out. -/
structure Bar where
  cores   : List (Nat × Nat)
  sentUp  : Bool
  qid     : Option Nat
  timedOut : Bool
  deriving DecidableEq, Repr

/-- A die-local barrier with no arrival. -/
def Bar.zero : Bar := { cores := [], sentUp := false, qid := none, timedOut := false }

/-- A fingerprint accumulator (R189). -/
structure Fa where
  fp     : Word
  blocks : Nat
  mism   : Nat
  deriving DecidableEq, Repr

/-- The running transfer of a DMA channel (R385, R393): descriptors left, the DMAGO that waits, the descriptor's CTL and length, the bytes written, the retries of the request in error, whether an error met it, the status its end takes, whether a block of it failed its check, and the restore data received (R392). -/
structure Dma where
  left      : Nat
  qid       : Option Nat
  fetched   : Bool
  ctl       : BitVec 32
  total     : Nat
  written   : Nat
  retries   : Nat
  busError  : Bool
  endSt     : Nat
  failed    : Bool
  got       : List (Nat × Nat)
  deriving DecidableEq, Repr

/-- A DMA channel with no start. -/
def Dma.zero : Dma :=
  { left := 0, qid := none, fetched := false, ctl := 0, total := 0, written := 0, retries := 0, busError := false, endSt := 5, failed := false, got := [] }

/-- The counts a heartbeat reports since the previous one (R332). -/
structure HbCounts where
  parity     : Nat
  slipOver   : Nat
  transient  : Nat
  permanent  : Nat
  stepMissed : Bool
  deriving DecidableEq, Repr

/-- The ports of R493 that are no register. The scan chains are held at 0 outside test; `tdrSel` says that a test data register is selected (R516). -/
structure Ports where
  launch      : BitVec 16
  rollbackReq : Bool
  rbStep      : Word
  throttle    : Bool
  wakes       : List Wake
  csOk        : Bool
  idcClear    : Bool
  claims      : List (BitVec 20 × Nat × Nat)
  reclaim     : List (BitVec 20)
  evtQ        : List EvtRec
  scanEn      : Bool
  scanIn      : BitVec 32
  scanOut     : BitVec 32
  tdrSel      : Bool
  deriving DecidableEq, Repr

/-- The Elesh block. -/
structure Elesh where
  base       : Base
  lic        : Licence
  spm        : Mem
  spmBad     : List Nat
  counters   : Tbl Nat
  satBits    : Tbl Bool
  stepBase   : Tbl Nat
  watches    : Tbl Watch
  wakeQ      : List Wake
  gates      : Tbl Gate
  land       : List LandEntry
  landSeen   : List (BitVec 20 × Nat)
  landFull   : Bool
  bars       : Tbl Bar
  launches   : List LaunchMsg
  launchSeen : Tbl Nat
  fas        : Tbl Fa
  cur        : Tbl Nat
  posLogged  : List Nat
  emptyLogged : List Nat
  wlostLogged : Bool
  ledgOrd    : Nat
  suspHash   : List Byte
  dma        : Tbl Dma
  hbCounts   : HbCounts
  restored   : Bool
  readySent  : Bool
  spareNamed : Bool
  probK      : Option Nat
  stepEvents : Nat
  dldLogged  : Bool
  followLane : Nat
  laneChosen : Bool
  switchOwed : Bool
  chosenAt   : Nat
  switchTick : Option Nat
  epochTaken : Bool
  refclkLost : Bool
  supplyCore : Bool
  supplyRet  : Bool
  supplyPhy  : Bool
  restoreBuf : List VaultMsg
  ports      : Ports
  deriving DecidableEq, Repr

/-- The Elesh block at cold power-up, at the full configuration (log 3). -/
def Elesh.zero : Elesh :=
  { base := Base.zero 256, lic := Config.fullLicence, spm := [], spmBad := [], counters := [], satBits := [], stepBase := [], watches := [],
    wakeQ := [], gates := [], land := [], landSeen := [], landFull := false, bars := [], launches := [], launchSeen := [], fas := [], cur := [], posLogged := [],
    emptyLogged := [], wlostLogged := false, ledgOrd := 0, suspHash := [], dma := [],
    hbCounts := { parity := 0, slipOver := 0, transient := 0, permanent := 0, stepMissed := false }, restored := false,
    readySent := false, spareNamed := false, probK := none, stepEvents := 0, dldLogged := false, followLane := 0, laneChosen := false, switchOwed := false, chosenAt := 0, switchTick := none, epochTaken := false, refclkLost := false,
    supplyCore := true, supplyRet := true, supplyPhy := true, restoreBuf := [],
    ports := { launch := 0, rollbackReq := false, rbStep := 0, throttle := false, wakes := [], csOk := false, idcClear := false,
               claims := [], reclaim := [], evtQ := [], scanEn := false, scanIn := 0, scanOut := 0, tdrSel := false } }

/-- An arrival at a barrier node (R228, R230): the downlink or position it is counted at, the sender's generation, its scope, and whether the twin relayed it. -/
structure BarArr where
  pos     : Nat
  gen     : BitVec 16
  scope   : Nat
  relayed : Bool
  deriving DecidableEq, Repr

/-- A barrier node of Uhloux (R228, R229): the open generation's scope, the downlinks it expects and what arrived, what waits for the next generation, the count TBAR armed, and the generation, plus 1, last counted from each downlink (R110). -/
structure BarNode where
  gen     : Nat
  isOpen  : Bool
  scope   : Nat
  expect  : List Nat
  arrived : List BarArr
  next    : List BarArr
  armed   : Option Nat
  sentUp  : Bool
  qid     : Option Nat
  last    : Tbl Nat
  deriving DecidableEq, Repr

/-- A barrier node with no open generation. -/
def BarNode.zero : BarNode := { gen := 0, isOpen := false, scope := 0, expect := [], arrived := [], next := [], armed := none, sentUp := false, qid := none, last := [] }

/-- An open scalar reduction slot (R264): its operation, expected contributors and values, step, the identities combined and the lanes they came on, the contributors of each index and the values so far, whether the result has been sent, and the identities and number of values of it that have passed down. -/
structure Slot where
  opk      : Nat
  expect   : Nat
  n        : Nat
  step     : Option Word
  seen     : List (BitVec 32 × BitVec 32)
  ports    : List Nat
  given    : Tbl (List (BitVec 32))
  vals     : Tbl Int
  mismatch : Bool
  sent     : Bool
  downs    : List (BitVec 32 × BitVec 32)
  down     : Nat
  qid      : Nat
  deriving DecidableEq, Repr

/-- A replica cross-check group (R307): its members' LSIs, the lanes it expects, the step of its first contribution, the contributions, and whether its answer has been sent. -/
structure XGroup where
  members  : List Nat
  expect   : List Nat
  step     : Option Word
  got      : List (Nat × XchkMsg)
  sent     : Bool
  qid      : Nat
  deriving DecidableEq, Repr

/-- A proposal at its proposer or the authority (R335, R336): its subject, its evidence once it has arrived, the voters that said yes, and the epoch in which it was decided (R338). -/
structure Proposal where
  subj    : Subj
  msg     : Option ProposeMsg
  yes     : List Subj
  settled : Option (BitVec 32)
  deriving DecidableEq, Repr

/-- An open rollback at the authority (R343 to R350): its target, the dies it is known to wait for and those that are ready, the dies that still need a spare with the kind of decision that said so, the spares assigned with the die each replaces and its path set, the dies that left the run, and the commit instant once sent. -/
structure Rollback where
  target   : Word
  waitFor  : List Nat
  ready    : List Nat
  need     : List (Nat × Nat)
  assigned : List (Nat × Nat × Nat)
  leaving  : Nat
  tc       : Option Nat
  deriving DecidableEq, Repr

/-- A path command of the set in progress (R462): its number, set and path, its datagram, how often it was sent again, whether the last reply was BUSY, and its final status. -/
structure PathCmd where
  seq     : Nat
  pathset : Nat
  path    : Nat
  bytes   : List Byte
  resends : Nat
  busy    : Bool
  status  : Option Nat
  deriving DecidableEq, Repr

/-- The rates at which the PCIe endpoint trains, in GT/s: 32, 16, 8, 5, 2.5 (R437). -/
inductive PcieRate where
  | gt32 | gt16 | gt8 | gt5 | gt2half
  deriving DecidableEq, Repr

/-- The widths at which the PCIe endpoint trains (R437). -/
inductive PcieWidth where
  | x4 | x2 | x1
  deriving DecidableEq, Repr

/-- A trained PCIe link (R437). -/
structure Pcie where
  rate  : PcieRate
  width : PcieWidth
  deriving DecidableEq, Repr

/-- A logged write of a vault's current generation (R352). -/
structure VWrite where
  step : Nat
  ofs  : Nat
  data : List Byte
  bcv  : Bool
  deriving DecidableEq, Repr

/-- The vault's state for one mirrored die (R352, R355): whether it serves the die, the sealed generation as the writes applied to it in order, whether there is one, the steps whose stream has ended, the current generation's log, and the VGEN that waits with its step. -/
structure VGen where
  seen      : Bool
  hasSealed : Bool
  sealedGen : List VWrite
  ended     : List Nat
  log       : List VWrite
  isOpen    : Option Nat
  qid       : Option Nat
  deriving DecidableEq, Repr

/-- A vault that holds nothing for a die. -/
def VGen.zero : VGen := { seen := false, hasSealed := false, sealedGen := [], ended := [], log := [], isOpen := none, qid := none }

/-- The DPLL beside its registers (R71 to R81): the candidates whose wait-to-restore timer runs with their start ticks, oldest first, those whose timer has expired, the seconds counted by a stopped timer plus 1, and the candidate that TAIOFS was measured against. -/
structure Dpll where
  wtr        : List (Nat × Nat)
  wtrDone    : List Nat
  wtrCounted : Tbl Nat
  measured   : Option Nat
  alarmAcq : Bool
  traceable : List Nat
  upTrace  : Bool
  upState  : Nat
  deriving DecidableEq, Repr

/-- What a time port sends (R68, R70): the Delay_Req of the end-to-end mechanism with its number and its time of departure, and ESMC with a quality level. -/
inductive TpMsg where
  | delayReq (port : Nat) (seq : Nat) (t3 : Nat)
  | esmc (port : Nat) (ql : Nat)
  deriving DecidableEq, Repr

/-- The slave-only clock of a time port (R68): the dataset of the best master announced, the Sync in progress with its number, its time of arrival T2 and, once known, its origin time T1, and the Delay_Req in flight with its number and departure T3. -/
structure PtpClock where
  master : Option PtpData
  sync   : Option (Nat × Nat × Option Nat)
  req    : Option (Nat × Nat)
  reqSeq : Nat
  deriving DecidableEq, Repr

/-- A time port that has heard nothing. -/
def PtpClock.zero : PtpClock := { master := none, sync := none, req := none, reqSeq := 0 }

/-- The states of a module that holds no fault (R124), as CMIS names them. -/
inductive ModState where
  | lowPwr | pwrUp | ready | pwrDn
  deriving DecidableEq, Repr

/-- An OSFP module (R124): its state, whether the 200GAUI-1 application is selected, the lanes whose data path is initialised, the flags raised, and the monitors last polled. -/
structure Module where
  state    : ModState
  app      : Bool
  dataPath : Nat
  flags    : Tbl Nat
  monitors : Word
  deriving DecidableEq, Repr

/-- A module in low power. -/
def Module.zero : Module := { state := .lowPwr, app := false, dataPath := 0, flags := [], monitors := 0 }

/-- A hall-wide commit's votes at a node (R448): passes, fails, the first failing subject, and the downlinks that have not voted. -/
structure HallVote where
  passes   : Nat
  fails    : Nat
  firstFail : Option Subj
  waiting  : List Nat
  deriving DecidableEq, Repr

/-- An observer's record of a subject (R333, R334): whether it was ever heard, the ACLK tick at which its age was last known with that age in ns, the misses counted since, and whether its twin has been asked. -/
structure Obs where
  heard   : Bool
  at'     : Nat
  age     : Nat
  misses  : Nat
  asked   : Bool
  deriving DecidableEq, Repr

/-- A subject never heard. -/
def Obs.zero : Obs := { heard := false, at' := 0, age := 0, misses := 0, asked := false }

/-- A record a lock-step leaf has from the primary or the shadow (R315). -/
structure LockRec where
  ord : Nat
  record : LedgerRec
  deriving DecidableEq, Repr

/-- The Uhloux chip. -/
structure Uhloux where
  base      : Base
  tc        : Tbl Nat
  tcSat     : Tbl Bool
  dpll      : Dpll
  todNext   : Tbl Nat
  todSkip   : Tbl Nat
  ptpDiscards : Nat
  rootUpbSel : Bool
  bars      : Tbl BarNode
  pending   : List LaunchMsg
  downRep   : Tbl Nat
  slots     : Tbl Slot
  held      : List (RedMsg × Nat)
  groups    : Tbl XGroup
  chainD3   : Tbl (List Byte)
  chainLog  : List (Nat × Nat × List Byte)
  lastSeal  : Word
  archived  : List (Word × Nat × List Byte)
  hallLsis  : List Nat
  accepted  : List (Nat × Word × Nat)
  lockPri   : List LockRec
  lockShd   : List LockRec
  lockBlock : Option LedgerRec
  lockSync  : Bool
  passVotes : List (Nat × Word)
  lseals    : List (Word × Nat)
  members   : Tbl Nat
  lsiOf     : Tbl Nat
  lsiPort   : Tbl Nat
  relayFrom : List Nat
  obs       : Tbl Obs
  proposals : List Proposal
  rollback  : Option Rollback
  expulsions : List (Nat × Nat)
  healthKind : Tbl Nat
  vaults    : Tbl VGen
  peTurn    : Nat
  privLost  : List Nat
  attested  : List Nat
  votesOut  : List VoteMsg
  deadOf    : Tbl Nat
  assigned  : List (Nat × Nat)
  paths     : List PathCmd
  tpOut     : List (List Byte)
  pathSeq   : Nat
  hall      : Option HallVote
  nonces    : Tbl (List Byte)
  fwNext    : Option (List Byte)
  modules   : Tbl Module
  ptp       : Tbl PtpClock
  tpSent    : List TpMsg
  slewFrom  : Nat
  warnCap   : Bool
  lanesHeld : Bool
  tripped   : Bool
  stacksLost : List Nat
  corePllLost : Bool
  awaySent  : Bool
  launched  : Bool
  pcie      : Option Pcie
  junction  : Tbl Nat
  deriving DecidableEq, Repr

/-- The Uhloux chip at cold power-up. -/
def Uhloux.zero : Uhloux :=
  { base := Base.zero 8, tc := [], tcSat := [],
    dpll := { wtr := [], wtrDone := [], wtrCounted := [], measured := none, alarmAcq := false, traceable := [], upTrace := false, upState := 0 },
    todNext := [], todSkip := [], ptpDiscards := 0, rootUpbSel := false, bars := [], pending := [], downRep := [], slots := [], held := [],
    groups := [], chainD3 := [], chainLog := [], lastSeal := 0xFFFFFFFFFFFFFFFF, archived := [], hallLsis := [], accepted := [], lockPri := [], lockShd := [], lockBlock := none, lockSync := false, passVotes := [], lseals := [],
    members := [], lsiOf := [], lsiPort := [], relayFrom := [], obs := [], proposals := [], rollback := none, expulsions := [],
    healthKind := [], vaults := [], peTurn := 0, privLost := [], attested := [], votesOut := [], deadOf := [], assigned := [], paths := [], tpOut := [], pathSeq := 0, hall := none,
    nonces := [], fwNext := none, modules := [], ptp := [], tpSent := [], slewFrom := 0, warnCap := false, lanesHeld := false, tripped := false, stacksLost := [], corePllLost := false, awaySent := false, launched := false, pcie := none, junction := [] }

/-- The machine: one Elesh block, one Uhloux chip, the commands that wait, first in first out, and `draws`, the model's own count of the free values taken (log 2). -/
structure State where
  el      : Elesh
  ux      : Uhloux
  pending : List Instr
  draws   : Nat
  deriving DecidableEq, Repr

/-- The machine after the cold power-up of both parts: every register at its reset word (R490, R491), no command waiting. -/
def State.reset : State :=
  { el := Elesh.zero, ux := Uhloux.zero, pending := [], draws := 0 }

/-- The reasons a step stops with a fault. -/
inductive Fault where
  /-- Raised by no meaning: the spec names no behaviour of the block that stops it for good. Safe. -/
  | none
  deriving DecidableEq, Repr

/-- The reasons a command is refused by the model. -/
inductive Refusal where
  /-- A row whose meaning is not written yet; raised only in Machine/Dispatch.lean. Safe. -/
  | notModelled (mnemonic : String)
  /-- A slot operation whose operands R169, R178, R180, R186 or R271 reserve: no image that holds it loads (R135), so it never executes. Raised by the slot operations. Safe. -/
  | reservedEncoding
  deriving DecidableEq, Repr

end Sys2Proof.Machine
end

