-- ==== Sys2Proof/Machine/Ops.lean ====
section
/-! DEFINITION. The named operations every meaning is built from: the registers of a part, its time bases, its events, its lanes and messages, the free values, and the answer of a host access. -/

namespace Sys2Proof.Machine

/-- What a meaning answers. -/
abbrev Out := Host.Outcome State Fault Refusal

/-! ### The parts and their registers -/

/-- The shared half of a part. -/
def State.base (s : State) : Part → Base
  | .el => s.el.base
  | .ux => s.ux.base

/-- The state with the shared half of a part replaced. -/
def State.setBase (s : State) (p : Part) (b : Base) : State :=
  match p with
  | .el => { s with el := { s.el with base := b } }
  | .ux => { s with ux := { s.ux with base := b } }

/-- The state with the shared half of a part changed. -/
def State.mod (s : State) (p : Part) (f : Base → Base) : State := s.setBase p (f (s.base p))

/-- The state with the Elesh block changed. -/
def State.modEl (s : State) (f : Elesh → Elesh) : State := { s with el := f s.el }

/-- The state with the Uhloux chip changed. -/
def State.modUx (s : State) (f : Uhloux → Uhloux) : State := { s with ux := f s.ux }

/-- The reset word of a register (R490, R491). -/
def resetWord : Part → Nat → Word
  | .el => elResetWord
  | .ux => uxResetWord

/-- The register at an offset. -/
def State.reg (s : State) (p : Part) (off : Nat) : Word := tget (resetWord p off) (s.base p).regs off

/-- The state with the register at an offset replaced. -/
def State.setReg (s : State) (p : Part) (off : Nat) (w : Word) : State :=
  s.mod p (fun b => { b with regs := tput (resetWord p off) b.regs off w })

/-- A field of a register. -/
def State.get (s : State) (p : Part) (f : Fld) : Nat := fget (s.reg p f.off) f.hi f.lo

/-- A field of a register is not 0. -/
def State.bit (s : State) (p : Part) (f : Fld) : Bool := s.get p f != 0

/-- A field of a register read as two's complement. -/
def State.getI (s : State) (p : Part) (f : Fld) : Int := signed (f.hi + 1 - f.lo) (s.get p f)

/-- The state with a field of a register replaced. -/
def State.put (s : State) (p : Part) (f : Fld) (v : Nat) : State := s.setReg p f.off (fset (s.reg p f.off) f.hi f.lo v)

/-- The state with a two's complement field replaced. -/
def State.putI (s : State) (p : Part) (f : Fld) (v : Int) : State := s.put p f (unsigned (f.hi + 1 - f.lo) v)

/-- The state with `n` added to a count, which stops at the top of its field. -/
def State.count (s : State) (p : Part) (f : Fld) (n : Nat) : State := s.put p f (satAdd (f.hi + 1 - f.lo) (s.get p f) n)

/-- The state with the bits of `v` set in a field. -/
def State.setBits (s : State) (p : Part) (f : Fld) (v : Nat) : State := s.put p f (s.get p f ||| v)

/-- The reset value of a field. -/
def resetField (p : Part) (f : Fld) : Nat := fget (resetWord p f.off) f.hi f.lo

/-- The answer of a host access (R497): the data, and whether it failed. -/
def State.answer (s : State) (p : Part) (d : Word) (err : Bool) : State := s.mod p (fun b => { b with rdata := d, rerr := err })

/-- One free value (log 2) and the state that has drawn it. -/
def State.draw (s : State) : Word × State := (Config.freeWord s.draws, { s with draws := s.draws + 1 })

/-! ### Time bases (chapter 2) -/

/-- The time bases a part has (R48, R485). -/
def State.tbHas (s : State) (p : Part) (n : Nat) : Bool :=
  match p with
  | .el => n < s.el.lic.tbCount
  | .ux => n == 0 || n == 3

/-- The state code of a time base (R53); TB2 reports TB0's. -/
def State.tbState (s : State) (p : Part) (n : Nat) : Nat := s.get p (Reg.TB_STAT_STATE (if n = 2 then 0 else n))

/-- A rational rounded to the nearest integer, ties to even (R44). -/
def roundEven (num : Int) (den : Nat) : Int :=
  let q := num / (den : Int)
  let r := 2 * (num % (den : Int))
  if r < (den : Int) then q else if (den : Int) < r then q + 1 else if q % 2 = 0 then q else q + 1

/-- The ANCHOR of a time base. -/
def State.tbAnchor (s : State) (p : Part) (n : Nat) : Nat :=
  (s.reg p (Reg.TB_ANCHOR_LO_ANCHOR_LO n).off).toNat + s.get p (Reg.TB_ANCHOR_HI_ANCHOR_HI n) * 2 ^ 64

/-- The OFS of a time base. -/
def State.tbOfs (s : State) (p : Part) (n : Nat) : Nat :=
  hxtOf (s.reg p (Reg.TB_OFS_SEC_SEC n).off) (s.reg p (Reg.TB_OFS_NSF_NS n).off)

/-- The RATE of a time base. -/
def State.tbRate (s : State) (p : Part) (n : Nat) : Int := s.getI p (Reg.TB_RATE_RATE n)

/-- The time that passes on a time base of rate `rate` in `d` units of the FRC, as a number over 5 * 2^48 FRAC units: 6.4 ns / 2^16 is 2097152 / 5 FRAC units (R42, R44). -/
def frcSpan (d : Nat) (rate : Int) : Int := (d : Int) * 2097152 * (281474976710656 + rate)

/-- The read formula of R44 at a value of the FRC, less `less` over 125 * 2^48 FRAC units; the whole value is rounded, ties to even. -/
def State.tbRaw (s : State) (p : Part) (n : Nat) (frc : Nat) (less : Int) : Nat :=
  let d := (frc + 2 ^ 80 - s.tbAnchor p n) % 2 ^ 80
  (roundEven ((s.tbOfs p n : Int) * (125 * 2 ^ 48) + frcSpan d (s.tbRate p n) * 25 - less) (125 * 2 ^ 48) % (hxtMod : Int)).toNat

/-- A time base at a value of the FRC: 0 while UNSET (R47); TB2 is TB0 less the run epoch. -/
def State.tbAt (s : State) (p : Part) (n : Nat) (frc : Nat) : Nat :=
  if s.tbState p n = 0 then 0
  else if n = 2 then
    hxtSub (s.tbRaw p 0 frc 0) (hxtOf (s.reg p Reg.TB2_EPOCH_SEC_SEC.off) (s.reg p Reg.TB2_EPOCH_NSF_NS.off))
  else s.tbRaw p n frc 0

/-- The FRC of a part at the start of the current ACLK tick, as a number of 2^-16 ticks (R42). -/
def State.frcNow (s : State) (p : Part) : Nat := (s.base p).frc.toNat

/-- A time base now. -/
def State.tbNow (s : State) (p : Part) (n : Nat) : Nat := s.tbAt p n (s.frcNow p)

/-- The ACLK tick count FRC[79:16]. -/
def State.tick (s : State) (p : Part) : Nat := s.frcNow p / 2 ^ 16

/-- The FRC as a read or a stamp finds it (R42): the tick count with the converter's fraction of the tick, which is free (log 91). -/
def State.frcSample (s : State) (p : Part) : Nat :=
  s.tick p * 2 ^ 16 + (Config.frcFraction (match p with | .el => 0 | .ux => 1) (s.tick p)).toNat

/-- A time base as a read or a stamp finds it. -/
def State.tbSample (s : State) (p : Part) (n : Nat) : Nat := s.tbAt p n (s.frcSample p)

/-- `t` has been reached on a time base: it is set and reads `t` or later. -/
def State.tbReached (s : State) (p : Part) (n : Nat) (t : Nat) : Bool := s.tbState p n != 0 && decide (t ≤ s.tbNow p n)

/-! ### Events (R12 to R14, R507) -/

/-- A lane's register block (R131, R484). -/
def laneBlk : Part → Nat → Nat
  | .el, x => 0x3100 + 0x80 * x
  | .ux, x => 0x40000 + 0x100 * x

/-- The state code of a lane (R125). -/
def State.laneState (s : State) (p : Part) (x : Nat) : Nat := s.get p (Reg.LANE_STAT_STATE (laneBlk p x))

/-- What a lane holds beside its registers. -/
def State.lane (s : State) (p : Part) (x : Nat) : Lane := tget Lane.zero (s.base p).lanes x

/-- The state with a lane's own data changed. -/
def State.modLane (s : State) (p : Part) (x : Nat) (f : Lane → Lane) : State :=
  s.mod p (fun b => { b with lanes := tput Lane.zero b.lanes x (f (tget Lane.zero b.lanes x)) })

/-- The virtual channel of a message (R113). -/
def Msg.vc : Msg → Nat
  | .timeMark _ | .upMark _ _ => 0
  | .join _ | .leave | .away _ => 5
  | .ann _ _ | .annAnswer _ _ | .barArrival _ _ _ _ | .barRelease _ _ _ | .barRefusal _ _ _ | .launchReq _ | .launchAnswer _ _
  | .launch _ | .delayReport _ | .sealMsg _ _ _ | .manCommit _ | .manDisarm => 1
  | .red _ | .xchkUp _ _ _ _ | .xchkDown _ _ _ _ _ => 2
  | .ledger _ _ | .ledgerAck _ => 3
  | .hb _ | .hearReq _ | .hearAns _ _ | .propose _ | .vote _ | .decision _ | .rollback _ | .rbReady _ _ | .rbCommit _
  | .fence _ | .probation _ _ => 6
  | .vault _ => 4
  | .rdRsp _ _ _ _ | .wrRsp _ _ _ | .event _ | .dump _ _ _ | .attestReq _ | .attestRsp _ _ _ _ | .manPrep | .manVote _ _ _ => 5

/-- A lane of the lock-step pair of a leaf (R314): `f` is PRI or SHD. -/
def State.lockLane (s : State) (f : Fld) (x : Nat) : Bool :=
  s.bit .ux Reg.UX_LOCK_CTRL_EN && s.get .ux Reg.UX_IDENT_ROLE_TIER == 0 && s.get .ux f == x

/-- The streams of the lock-step comparator start afresh (R315). -/
def State.lockClear (s : State) : State := s.modUx (fun u => { u with lockPri := [], lockShd := [], lockBlock := none, lockSync := false })

/-- A leaf absorbs what comes from a lock-step shadow (R314). -/
def State.absorbed (s : State) (lane : Fin 160) : Bool := s.lockLane Reg.UX_LOCK_CTRL_SHD lane

/-- A message waits for a slot of a lane. A lane outside JOIN, CAL and ACTIVE takes none (R125, R128), and a lane that is AWAY takes VC5 and VC7 only (R112). -/
def State.sendOne (s : State) (p : Part) (x : Nat) (m : Msg) : State :=
  let st := s.laneState p x
  if (st == 2 || st == 3 || st == 4) && (!s.bit p (Reg.LANE_STAT_AWAY (laneBlk p x)) || m.vc == 5 || m.vc == 7) then
    s.modLane p x (fun l => { l with txq := l.txq ++ [(m.vc, m)] })
  else s

/-- A message goes out on a lane; the shadow of a lock-step pair receives a copy of each VC1 and VC2 message to the primary (R314). -/
def State.send (s : State) (p : Part) (x : Nat) (m : Msg) : State :=
  let t := s.sendOne p x m
  if p == .ux && s.lockLane Reg.UX_LOCK_CTRL_PRI x && (m.vc == 1 || m.vc == 2) then t.sendOne .ux (s.get .ux Reg.UX_LOCK_CTRL_SHD) m else t

/-- The lane of an Elesh that carries VC1 to VC4 (R107): the selected one. -/
def State.selLane (s : State) : Option Nat :=
  if s.bit .el (Reg.LANE_STAT_SELECTED (laneBlk .el 0)) then some 0
  else if s.bit .el (Reg.LANE_STAT_SELECTED (laneBlk .el 1)) then some 1 else none

/-- The uplink of a Uhloux chip that carries VC1 to VC4 (R111): U0, or U1 of a leaf. -/
def State.upLane (s : State) : Option Nat :=
  if s.bit .ux (Reg.LANE_STAT_SELECTED (laneBlk .ux 128)) then some 128
  else if s.bit .ux (Reg.LANE_STAT_SELECTED (laneBlk .ux 129)) then some 129 else none

/-- A message goes up from a part: on the selected lane of an Elesh, on the traffic uplink of a Uhloux. With none it is lost, and its end-to-end identity brings it again (R110). -/
def State.sendUp (s : State) (p : Part) (m : Msg) : State :=
  match (match p with | .el => s.selLane | .ux => s.upLane) with
  | some x => s.send p x m
  | none => s

/-- A message goes down every ACTIVE downlink of a Uhloux chip among `xs`. -/
def State.sendDown (s : State) (xs : List Nat) (m : Msg) : State :=
  xs.foldl (fun t x => if t.laneState .ux x = 4 then t.send .ux x m else t) s

/-- All downlinks D0 to D127 (R93). -/
def downLanes : List Nat := List.range 128

/-- The record of an event (R13): its stamp is TB0 at detection. -/
def State.record (s : State) (p : Part) (unit code object waiter detail : Nat) : EvtRec :=
  let t := s.tbNow p 0
  { ns := BitVec.ofNat 32 (t % hxtSec / 2 ^ 32), frac := BitVec.ofNat 32 t, secLo := BitVec.ofNat 32 (t / hxtSec),
    code := BitVec.ofNat 16 code, source := BitVec.ofNat 16 ((match p with | .el => 0 | .ux => 0x100) + unit),
    object := BitVec.ofNat 32 object, waiter := BitVec.ofNat 32 waiter, detail := BitVec.ofNat 64 detail }

/-- A record is logged. An Elesh presents it on its event port, which holds 64 records (R507), and sends a copy on VC5 (R440). -/
def State.logRec (s : State) (p : Part) (r : EvtRec) : State :=
  let s := s.mod p (fun b => { b with events := b.events ++ [r] })
  match p with
  | .ux => s
  | .el =>
    (s.modEl (fun e => if e.ports.evtQ.length < 64 then { e with stepEvents := e.stepEvents + 1, ports := { e.ports with evtQ := e.ports.evtQ ++ [r] } } else { e with stepEvents := e.stepEvents + 1 })).sendUp .el (.event r)

/-- An event with a waiter is logged (R13). -/
def State.logW (s : State) (p : Part) (unit code object waiter detail : Nat) : State :=
  s.logRec p (s.record p unit code object waiter detail)

/-- An event is logged (R13). -/
def State.log (s : State) (p : Part) (unit code object detail : Nat) : State := s.logW p unit code object 0 detail

/-- An event whose DETAIL is a signed number is logged. -/
def State.logI (s : State) (p : Part) (unit code object : Nat) (detail : Int) : State :=
  s.log p unit code object (unsigned 64 detail)

/-- The event R8 logs when a reserved value is refused, and R9 after provisioning lock: the area is given, the code within it is free (log 5). -/
def State.logOpen (s : State) (p : Part) (unit area object : Nat) : State :=
  let d := s.draw
  d.2.log p unit (area * 0x1000 + d.1.toNat % 0x1000) object 0

/-! ### Source unit codes (R14, R423, R433) -/

/-- The unit that reports time-base events. -/
def unitTime : Part → Nat | .el => 0x02 | .ux => 0x45
/-- The unit that reports sequencer events. -/
def unitSeq : Part → Nat | .el => 0x01 | .ux => 0x41
/-- The unit that reports manifest events. -/
def unitMan : Part → Nat | .el => 0x0B | .ux => 0x47
/-- The unit that reports security events. -/
def unitSec : Part → Nat | .el => 0x0C | .ux => 0x47
/-- The unit that reports test events. -/
def unitTest : Part → Nat | .el => 0x0D | .ux => 0x47
/-- The unit that reports clock and power events. -/
def unitClk : Part → Nat | .el => 0x0E | .ux => 0x46
/-- The unit that reports guard events. -/
def unitGuard : Part → Nat | .el => 0x0A | .ux => 0x46
/-- The unit that reports a lane's events: LINK, or the quadrant that holds the lane (R14, R433). -/
def unitLane : Part → Nat → Nat | .el, _ => 0x09 | .ux, x => 0x58 + x / 40

end Sys2Proof.Machine
end

