-- ==== Sys2Proof/Machine/TimeOps.lean ====
section
/-! DEFINITION. Operations on a time base (chapter 2): re-anchoring, rate, step, states, and the plane switch. -/

namespace Sys2Proof.Machine

/-- ANCHOR and OFS of a time base set to the current FRC and a value (R45, R49). -/
def State.tbAnchorAt (s : State) (p : Part) (n : Nat) (v : Nat) : State :=
  let frc := s.frcNow p
  (((s.setReg p (Reg.TB_OFS_SEC_SEC n).off (hxtSecW v)).setReg p (Reg.TB_OFS_NSF_NS n).off (hxtNsfW v)).setReg p
    (Reg.TB_ANCHOR_LO_ANCHOR_LO n).off (BitVec.ofNat 64 frc)).put p (Reg.TB_ANCHOR_HI_ANCHOR_HI n) (frc / 2 ^ 64)

/-- A new RATE: the time base is re-anchored first, and so stays continuous (R45). -/
def State.tbSetRate (s : State) (p : Part) (n : Nat) (r : Int) : State :=
  (s.tbAnchorAt p n (s.tbNow p n)).setReg p (Reg.TB_RATE_RATE n).off (BitVec.ofInt 64 r)

/-- The largest |RATE| (R46). -/
def rateMax : Int := 56294995342

/-- SLEW_LIMIT in units of 2^-48: tenths of a ppm, rounded to the nearest integer as in the worked read of R44 (log 6). -/
def State.slewLimit (s : State) (p : Part) : Int :=
  (((s.get p Reg.TIME_CTRL_SLEW_LIMIT * 2 ^ 48 * 2 + 10000000) / 20000000 : Nat) : Int)

/-- The state code of a time base replaced. -/
def State.tbSetState (s : State) (p : Part) (n code : Nat) : State := s.put p (Reg.TB_STAT_STATE n) code

/-- The capture record with nothing held. -/
def Cap.zero : Cap := { fifo := [], lastTick := none, lastFrc := none }

/-- The stamp of an edge that a capture input sees at a value of the FRC (R60): its time base less DLY modulo 2^64 s (R39). A time base that is UNSET, or that the part lacks, reads 0 (R47, R7). DLY is taken off before the one rounding of R44 (log 7): one picosecond is 2^32 / 1000 FRAC units, 2^77 over the denominator of the read formula. -/
def State.capStamp (s : State) (p : Part) (c : Nat) (frc : Nat) : Nat :=
  let tb := s.get p (Reg.CAP_CTRL_TB c)
  let less := s.getI p (Reg.CAP_CTRL_DLY c) * 2 ^ 77
  if !s.tbHas p tb || s.tbState p tb == 0 then (roundEven (-less) (125 * 2 ^ 48) % (hxtMod : Int)).toNat
  else if tb = 2 then hxtSub (s.tbRaw p 0 frc less) (hxtOf (s.reg p Reg.TB2_EPOCH_SEC_SEC.off) (s.reg p Reg.TB2_EPOCH_NSF_NS.off))
  else s.tbRaw p tb frc less

/-- A capture of this tick on a time base is compared with the value the step left (R54): its stamp, the last of the FIFO, is taken again. -/
def State.restamp (s : State) (p : Part) (n : Nat) : State :=
  ([0, 1, 2, 3] : List Nat).foldl (fun t c =>
    let k : Cap := tget Cap.zero (t.base p).caps c
    let tb := t.get p (Reg.CAP_CTRL_TB c)
    match k.lastFrc, k.fifo.getLast? with
    | some f, some e =>
      if k.lastTick == some (t.tick p) && (tb == n || (n == 0 && tb == 2)) then
        t.mod p (fun b => { b with caps := tput Cap.zero b.caps c { k with fifo := k.fifo.dropLast ++ [(t.capStamp p c f, e.2)] } })
      else t
    | _, _ => t) s

/-- A time base took its step in this ACLK tick (R54). -/
def State.steppedNow (s : State) (p : Part) (n : Nat) : Bool := tget 0 (s.base p).stepTick n == s.tick p + 1

/-- A step is applied (R49, R53): the value is set, the state becomes ACQUIRE, event 0x1001 carries the signed change, cut to 64 bits where it does not fit (log 93). Within its tick the step comes before a plane switch, which leaves TB0 SLEWING, and before the captures (R54). -/
def State.tbStep (s : State) (p : Part) (n : Nat) (v : Nat) : State :=
  let old := s.tbNow p n
  let st := if p == .el && n == 0 && s.el.switchTick == some (s.tick .el) then 3 else 1
  let s := ((s.tbAnchorAt p n v).tbSetState p n st).mod p (fun b => { b with stepTick := tput 0 b.stepTick n (s.tick p + 1) })
  (s.restamp p n).logI p (unitTime p) 0x1001 n ((v : Int) - (old : Int))

/-- A step request is refused (R49). -/
def State.tbStepRefused (s : State) (p : Part) (n : Nat) : State :=
  (s.put p (Reg.TB_STAT_STEP_REFUSED n) 1).log p (unitTime p) 0x1002 n 0

/-- HOLDOVER is entered (R53): event 0x1004 carries RATE. -/
def State.tbHoldover (s : State) (p : Part) (n : Nat) : State :=
  (s.tbSetState p n 4).logI p (unitTime p) 0x1004 n (s.tbRate p n)

/-- LOCKED is entered, which sets FIRST_LOCK (R53): event 0x1003 carries the phase error in ps. -/
def State.tbLock (s : State) (p : Part) (n : Nat) : State :=
  ((s.tbSetState p n 2).put p (Reg.TB_STAT_FIRST_LOCK n) 1).logI p (unitTime p) 0x1003 n (s.getI p (Reg.TB_STAT_PHASE_ERR n))

/-- A number within bounds. -/
def clampI (lo hi x : Int) : Int := max lo (min hi x)

/-- The part of RATE that corrects phase is brought within SLEW_LIMIT (R50): a smaller limit takes effect on the servoed time bases at once (log 94). -/
def State.slewHold (s : State) (p : Part) : State :=
  ([0, 1] : List Nat).foldl (fun t n =>
    let f := tget 0 (t.base p).tbFreq n
    let lim := t.slewLimit p
    let ph := t.tbRate p n - f
    let st := t.tbState p n
    if t.tbHas p n && (st == 1 || st == 2 || st == 3) && (decide (lim < ph) || decide (ph < -lim)) then t.tbSetRate p n (f + clampI (-lim) lim ph) else t) s

/-- A difference of two HXT values as a signed number. -/
def hxtDiff (a b : Nat) : Int :=
  let d := hxtSub a b
  if 2 * d < hxtMod then (d : Int) else (d : Int) - (hxtMod : Int)

/-- A number of HXT units (2^-32 ns) as picoseconds, rounded to the nearest, ties to even (log 7). -/
def psOf (d : Int) : Int := roundEven (d * 1000) 4294967296

/-- TB1 - TB0 as a signed number of FRAC units, the shorter way round (R39); none while either is UNSET or absent (R63, R48). -/
def State.planeDiff (s : State) : Option Int :=
  if s.el.lic.tbCount < 2 || s.tbState .el 0 == 0 || s.tbState .el 1 == 0 then none
  else some (hxtDiff (s.tbNow .el 1) (s.tbNow .el 0))

/-- Which lane a time base of an Elesh follows (R107): TB0 the followed lane, TB1 the other. -/
def State.tbLane (s : State) (n : Nat) : Nat := if n = 0 then s.el.followLane else 1 - s.el.followLane

/-- The time base that follows a lane of an Elesh; an instance with one time base follows one lane only (R48). -/
def State.laneTb (s : State) (x : Nat) : Option Nat :=
  if x = s.el.followLane then some 0 else if 2 ≤ s.el.lic.tbCount then some 1 else none

/-- The plane switch of R55 to lane `x`: TB0 takes the other plane as its source without changing its value and enters SLEWING; TB1 takes the former plane and enters HOLDOVER when that lane is down. -/
def State.planeSwitch (s : State) (x : Nat) : State :=
  let d := s.planeDiff
  let former := s.el.followLane
  let s := (s.modEl (fun e => { e with followLane := x, laneChosen := true })).put .el Reg.TIME_STAT_PLANE x
  let s := s.modEl (fun e => { e with switchTick := some (s.tick .el) })
  let s := if s.tbState .el 0 = 0 || s.el.refclkLost then s else s.tbSetState .el 0 3
  let s := match d with
    | some v => (s.putI .el (Reg.TB_STAT_PHASE_ERR 0) (psOf (-v))).logI .el (unitTime .el) 0x1005 0 v
    | none =>
      if s.el.lic.tbCount < 2 then s.modEl (fun e => { e with switchOwed := true })
      else s.log .el (unitTime .el) 0x1005 0 0x8000000000000000
  let st1 := s.tbState .el 1
  if 2 ≤ s.el.lic.tbCount && (st1 == 1 || st1 == 2 || st1 == 3) && !(s.laneState .el former == 3 || s.laneState .el former == 4)
  then s.tbHoldover .el 1 else s

end Sys2Proof.Machine
end

