-- ==== Sys2Proof/Machine/RefOps.lean ====
section
/-! DEFINITION. Operations of reference selection, the DPLL and the root's time plane (R64 to R81). -/

namespace Sys2Proof.Machine

/-- The tier of the Uhloux chip (R489): 0 leaf, 1 spine, 2 root. -/
def State.tier (s : State) : Nat := s.get .ux Reg.UX_IDENT_ROLE_TIER

/-- Bit `k` of a number. -/
def bitOf (v k : Nat) : Bool := v / 2 ^ k % 2 == 1

/-- `v` with bit `k` set or cleared. -/
def bitSet (v k : Nat) (b : Bool) : Nat := if b then v ||| 2 ^ k else v - (if bitOf v k then 2 ^ k else 0)

/-- A candidate is valid. -/
def State.candValid (s : State) (k : Nat) : Bool := bitOf (s.get .ux Reg.UX_REF_STAT_VALID) k

/-- A candidate is qualified. -/
def State.candQual (s : State) (k : Nat) : Bool := bitOf (s.get .ux Reg.UX_REF_STAT_QUAL) k

/-- The enabled entries of UX_REF_PRIO, highest first. -/
def State.prioList (s : State) : List Nat :=
  let w := s.get .ux Reg.UX_REF_PRIO_ENTRIES
  ((List.range 8).map (fun i => w / 2 ^ (8 * i) % 256)).filterMap (fun e => if 128 ≤ e then some (e % 8) else none)

/-- The highest-priority enabled qualified candidate (R73). -/
def State.bestCand (s : State) : Option Nat := s.prioList.find? (fun k => s.candQual k)

/-- The place of a candidate in the priority table; 8 when it is not enabled. -/
def State.prioOf (s : State) (k : Nat) : Nat := s.prioList.findIdx (fun c => c == k)

/-- A candidate delivers time (R66). -/
def State.timeCapable (s : State) (k : Nat) : Bool :=
  if k < 4 then s.get .ux (Reg.UX_REF_IN_CFG_TYPE k) == 0 && s.bit .ux (Reg.UX_REF_IN_STAT_TOD_VALID k) else true

/-- A candidate is traceable (R67). -/
def State.candTraceable (s : State) (k : Nat) : Bool :=
  if k < 4 then s.timeCapable k && s.bit .ux (Reg.UX_REF_IN_CFG_TRACE k)
  else if k < 6 then s.bit .ux (Reg.UX_TP_STAT_TRACEABLE (k - 4))
  else s.ux.dpll.upTrace

/-- The state code of the DPLL (R71). -/
def State.dpllState (s : State) : Nat := s.get .ux Reg.UX_REF_STAT_STATE

/-- The DCO offset that FREE asks for, limited to 50 ppm (R75, R77): 50 ppm is 14,073,748,835 units of 2^-48. -/
def State.dcoFree (s : State) : Int := s.getI .ux Reg.UX_DCO_NOMINAL_VALUE + s.getI .ux Reg.UX_DCO_STEER_VALUE

/-- The limit of the DCO offset (R77). -/
def dcoLimit : Int := 14073748835

/-- A replace cause holds (R468, R469): its bit is set, and a newly set one logs 0x9050. -/
def State.replaceSet (s : State) (k : Nat) : State :=
  if bitOf (s.get .ux Reg.UX_REPLACE_CAUSE) k then s
  else (s.setBits .ux Reg.UX_REPLACE_CAUSE (2 ^ k)).log .ux 0x47 0x9050 0 k

/-- An ALARM cause is set (R72, R77): event 0x1036 carries the cause bits, and the chip asks for replacement (R468). -/
def State.dpllAlarm (s : State) (f : Fld) : State :=
  let s := s.put .ux f 1
  let bits := s.get .ux Reg.UX_REF_STAT_DCO_LIMIT * 4 + s.get .ux Reg.UX_REF_STAT_ACQ_TIMEOUT * 2 + s.get .ux Reg.UX_REF_STAT_TDC_FAIL
  (s.log .ux 0x45 0x1036 0 bits).replaceSet 2

/-- The DCO takes an offset, clamped with ALARM beyond 50 ppm (R77). -/
def State.dcoSet (s : State) (v : Int) : State :=
  let c := clampI (-dcoLimit) dcoLimit v
  let s := s.setReg .ux Reg.UX_DCO_STAT_VALUE.off (BitVec.ofInt 64 c)
  if c = v then s else s.dpllAlarm Reg.UX_REF_STAT_DCO_LIMIT

/-- The DCO takes the offset of FREE (R75). -/
def State.dcoApply (s : State) : State := s.dcoSet s.dcoFree

/-- The DCO takes the offset its loop demands (R77), which no command brings: free (log 2). -/
def State.dcoLoop (s : State) : State :=
  let d := s.draw
  d.2.dcoSet (signed 40 d.1.toNat)

/-! ### The root's time plane (R78 to R81) -/

/-- The root steps its TB0 (R78), once; after the step it is LOCKED (R79, log 96). -/
def State.rootStep (s : State) (v : Nat) (tai : Bool) : State :=
  ((s.tbStep .ux 0 v).put .ux Reg.TIME_STAT_EPOCH_TAI (if tai then 1 else 0)).tbLock .ux 0

/-- The root's TB0 takes a phase difference to its candidate, in ps, and slews it out at SLEW_LIMIT (R79, R80): RATE runs against the error until the dwell ends it. -/
def State.rootSlew (s : State) (pe : Int) : State :=
  let s := (s.putI .ux (Reg.TB_STAT_PHASE_ERR 0) pe).modUx (fun u => { u with slewFrom := s.tick .ux })
  if pe = 0 then s else (s.tbSetRate .ux 0 (-pe.sign * s.slewLimit .ux)).tbSetState .ux 0 3

/-- What the slew has left of the root's phase error, in ps (R80): the error it began with, changed by RATE over the ticks since, and 0 once it has been passed. -/
def State.rootLeft (s : State) : Int :=
  let pe := s.getI .ux (Reg.TB_STAT_PHASE_ERR 0)
  let moved := roundEven ((s.tick .ux - s.ux.slewFrom : Nat) * 6400 * s.tbRate .ux 0) (2 ^ 48)
  let left := pe + moved
  if left.sign = pe.sign then left else 0

/-- The root's TB0 is LOCKED and its rate follows the DCO again (R79). -/
def State.rootSettle (s : State) : State :=
  ((s.putI .ux (Reg.TB_STAT_PHASE_ERR 0) s.rootLeft).tbSetRate .ux 0 0).tbLock .ux 0

/-- The root stops slewing: it has lost the time it followed (R79). -/
def State.rootIdle (s : State) : State := if s.tier == 2 && s.tbState .ux 0 == 3 then s.rootSettle else s

/-- The root's TB0 follows the selected candidate's time (R79): a phase difference measured in ps is slewed out. -/
def State.rootFollow (s : State) (k : Nat) (pe : Int) : State :=
  if s.tier == 2 && s.dpllState == 2 && s.get .ux Reg.UX_REF_STAT_SEL == k && s.tbState .ux 0 != 0 && s.bit .ux Reg.TIME_STAT_EPOCH_TAI && s.timeCapable k
  then s.rootSlew pe else s

/-- A free HXT value (log 2). -/
def State.freeHxt (s : State) : Nat × State :=
  let a := s.draw
  let b := a.2.draw
  (hxtOf a.1 b.1, b.2)

/-- UX_REF_TAIOFS takes HXT - TAI measured against the selected candidate (R81): seconds, and NS and FRAC of the same sign. -/
def State.taiWrite (s : State) (cand : Nat) : State :=
  let d := (s.tbNow .ux 0 : Int) - (cand : Int)
  let s := (s.setReg .ux Reg.UX_REF_TAIOFS_SEC_SEC.off (BitVec.ofInt 64 (d.sign * (d.natAbs / hxtSec : Nat)))).setReg .ux
    Reg.UX_REF_TAIOFS_NSF_NS.off (hxtNsfW d.natAbs)
  s.modUx (fun u => { u with dpll := { u.dpll with measured := some (s.get .ux Reg.UX_REF_STAT_SEL) } })

/-- TAIOFS is measured against a candidate when it becomes the one that counts, and whenever its time is known (R81): where no message gives the candidate's time, the measure is free (log 2). -/
def State.taiMeasure (s : State) (cand : Option Nat) : State :=
  match cand with
  | some c => s.taiWrite c
  | none =>
    if s.ux.dpll.measured = some (s.get .ux Reg.UX_REF_STAT_SEL) then s
    else let f := s.freeHxt; f.2.taiWrite f.1

/-- TRACEABLE and TAI_VALID follow the selected candidate (R81, R94), whose time is given where it is known. A root LOCKED on a traceable candidate before its TB0 was ever set steps to that candidate's time (R41, R78). A change of TAI_VALID logs 0x1039. -/
def State.refTraceAt (s : State) (cand : Option Nat) : State :=
  let sel := s.get .ux Reg.UX_REF_STAT_SEL
  let tr := s.dpllState != 0 && s.candTraceable sel
  let s := s.put .ux Reg.UX_REF_STAT_TRACEABLE (if tr then 1 else 0)
  let s := if s.tier == 2 && s.dpllState == 2 && tr && s.tbState .ux 0 == 0 then
      (match cand with
        | some c => s.rootStep c true
        | none => let f := s.freeHxt; f.2.rootStep f.1 true) else s
  let tv := tr && s.bit .ux Reg.TIME_STAT_EPOCH_TAI
  let s := if tv then s.taiMeasure cand else s.modUx (fun u => { u with dpll := { u.dpll with measured := none } })
  if tv = s.bit .ux Reg.UX_REF_STAT_TAI_VALID then s
  else (s.put .ux Reg.UX_REF_STAT_TAI_VALID (if tv then 1 else 0)).log .ux 0x45 0x1039 0 (if tv then 1 else 0)

/-- TRACEABLE and TAI_VALID follow the selected candidate, whose time nothing gives at this instant. -/
def State.refTrace (s : State) : State := s.refTraceAt none

/-- SEL changes (event 0x1033 carries the old and the new code). A root that follows the new candidate's time takes the whole difference as phase error and slews it out (R79, R80); the difference is a free value until it is measured (log 2). With a candidate whose time it does not follow it stops slewing. -/
def State.refSelect (s : State) (k : Nat) : State :=
  let old := s.get .ux Reg.UX_REF_STAT_SEL
  if old = k then s
  else
    let s := (s.put .ux Reg.UX_REF_STAT_SEL k).log .ux 0x45 0x1033 k (old * 256 + k)
    if s.tier == 2 && s.tbState .ux 0 != 0 && s.bit .ux Reg.TIME_STAT_EPOCH_TAI && s.timeCapable k then
      let d := s.draw
      d.2.rootSlew (signed 32 d.1.toNat)
    else s.rootIdle

/-- The source of a Uhloux chip's ACLK shows (R412, R436): the DCO at the root, else the uplink its DPLL follows, or holdover; 0x8003 with the DCO's value when it becomes 3. -/
def State.uxAclk (s : State) : State :=
  let sel := s.get .ux Reg.UX_REF_STAT_SEL
  let n := if s.tier = 2 then 0 else if s.dpllState = 0 then 3 else if sel = 6 then 1 else 2
  if n = s.get .ux Reg.UX_CLK_STAT_ACLK_SRC then s
  else
    let s := s.put .ux Reg.UX_CLK_STAT_ACLK_SRC n
    if n = 3 then s.logI .ux 0x46 0x8003 0 (s.getI .ux Reg.UX_DCO_STAT_VALUE) else s

/-- FREE is entered (R75): event 0x1035 carries NOMINAL + STEER. The wait-to-restore timers have nothing left to restore, and a root's TB0 stops slewing (R79). -/
def State.dpllFree (s : State) : State :=
  let s := (s.put .ux Reg.UX_REF_STAT_STATE 0).logI .ux 0x45 0x1035 0 s.dcoFree
  (s.modUx (fun u => { u with dpll := { u.dpll with wtr := [], wtrDone := [], alarmAcq := false } })).dcoApply.rootIdle.refTrace.uxAclk

/-- ACQUIRE or SWITCHING is entered, or goes on, on candidate `k` (R71, R74). The wait-to-restore timers of candidates that do not rank above it have nothing left to restore (R76). -/
def State.dpllSeek (s : State) (code k : Nat) : State :=
  let above := fun c => decide (s.prioOf c < s.prioOf k)
  (((s.put .ux Reg.UX_REF_STAT_STATE code).refSelect k).modUx (fun u => { u with dpll := { u.dpll with
    wtr := u.dpll.wtr.filter (fun e => above e.1), wtrDone := u.dpll.wtrDone.filter above, alarmAcq := false } })).refTrace.uxAclk

/-- Whole seconds a wait-to-restore timer has counted since a tick. -/
def State.wtrSeconds (s : State) (since : Nat) : Nat := (s.tick .ux - since) * 64 / 10000000000

/-- UX_REF_STAT.WTR_LEFT (R94): the seconds left to the timer that expires first. -/
def State.wtrLeft (s : State) : Nat :=
  match s.ux.dpll.wtr with
  | [] => 0
  | (_, t) :: _ => s.get .ux Reg.UX_REF_CTRL_WTR - s.wtrSeconds t

/-- The wait-to-restore timer of a lost candidate stops; what it has counted is kept for its restart (R76). -/
def State.wtrStop (s : State) (k : Nat) : State :=
  match s.ux.dpll.wtr.find? (fun e => e.1 == k) with
  | none => s.modUx (fun u => { u with dpll := { u.dpll with wtrDone := u.dpll.wtrDone.filter (· != k) } })
  | some e =>
    let n := s.wtrSeconds e.2
    s.modUx (fun u => { u with dpll := { u.dpll with wtr := u.dpll.wtr.filter (fun e => e.1 != k), wtrCounted := tput 0 u.dpll.wtrCounted k (n + 1) } })

/-- A wait-to-restore timer starts for candidate `k` (R76), each candidate having its own (log 97). A start after a stop is a restart, logged as 0x1037 with the seconds already counted. -/
def State.wtrStart (s : State) (k : Nat) : State :=
  let n := tget 0 s.ux.dpll.wtrCounted k
  let s := if n = 0 then s else s.log .ux 0x45 0x1037 k (n - 1)
  let t := s.tick .ux
  s.modUx (fun u => { u with dpll := { u.dpll with wtr := u.dpll.wtr.filter (fun e => e.1 != k) ++ [(k, t)], wtrCounted := tput 0 u.dpll.wtrCounted k 0 } })

/-- No wait-to-restore timer runs. -/
def State.wtrClear (s : State) : State := s.modUx (fun u => { u with dpll := { u.dpll with wtr := [], wtrDone := [] } })

/-- The highest-priority candidate whose timer has expired, still qualified and above the selected one, while REVERTIVE and AUTO hold (R76). -/
def State.wtrDue (s : State) : Option Nat :=
  let sel := s.get .ux Reg.UX_REF_STAT_SEL
  if s.bit .ux Reg.UX_REF_CTRL_REVERTIVE && s.get .ux Reg.UX_REF_CTRL_MODE == 0 then
    s.prioList.find? (fun k => s.ux.dpll.wtrDone.contains k && s.candQual k && decide (s.prioOf k < s.prioOf sel))
  else none

/-- The DPLL takes the state that MODE and the qualified candidates give (R71, R73): AUTO leaves FREE when a candidate is qualified, FORCED follows CAND, FREE stays. -/
def State.refResolve (s : State) : State :=
  let st := s.dpllState
  let sel := s.get .ux Reg.UX_REF_STAT_SEL
  match s.get .ux Reg.UX_REF_CTRL_MODE with
  | 0 =>
    if st = 0 then match s.bestCand with
      | some k => s.dpllSeek 1 k
      | none => s
    else if s.candQual sel then s
    else match s.bestCand with
      | some k => s.dpllSeek (if st = 1 then 1 else 3) k
      | none => s.dpllFree
  | 1 =>
    let c := s.get .ux Reg.UX_REF_FORCE_CAND
    if s.candQual c then
      if st = 0 then s.dpllSeek 1 c
      else if c = sel then s
      else if st = 2 then s.dpllSeek 3 c
      else if s.candQual sel then s
      else s.dpllSeek st c
    else if st = 0 then s else s.dpllFree
  | _ => if st = 0 then s else s.dpllFree

/-- The bits of a candidate in UX_REF_STAT, and in its input or port status, follow its monitors. -/
def State.candPut (s : State) (k : Nat) (valid qual : Bool) : State :=
  let b2n := fun b : Bool => if b then 1 else 0
  let s := s.put .ux Reg.UX_REF_STAT_VALID (bitSet (s.get .ux Reg.UX_REF_STAT_VALID) k valid)
  let s := s.put .ux Reg.UX_REF_STAT_QUAL (bitSet (s.get .ux Reg.UX_REF_STAT_QUAL) k qual)
  if k < 4 then (s.put .ux (Reg.UX_REF_IN_STAT_VALID k) (b2n valid)).put .ux (Reg.UX_REF_IN_STAT_QUAL k) (b2n qual)
  else if k < 6 then (s.put .ux (Reg.UX_TP_STAT_VALID (k - 4)) (b2n valid)).put .ux (Reg.UX_TP_STAT_QUAL (k - 4)) (b2n qual)
  else s

/-- Whether a candidate exists at a tier: REF and PTP at the root, UPA at a leaf or spine, UPB at a leaf or the root (R64). -/
def candAt (tier k : Nat) : Bool :=
  if k < 6 then tier == 2 else if k = 6 then tier == 0 || tier == 1 else tier == 0 || tier == 2

/-- Whether a candidate exists at the chip's tier (R64). -/
def State.candHere (s : State) (k : Nat) : Bool := candAt s.tier k

/-- The received quality level of a time port is worse than QL_MIN while QL_EN = 1 (R65); SSM codes worsen as they rise (log 13). -/
def State.qlBad (s : State) (port : Nat) : Bool :=
  s.bit .ux Reg.UX_REF_CTRL_QL_EN && decide (s.get .ux (Reg.UX_TP_CFG_QL_MIN port) < s.get .ux (Reg.UX_TP_STAT_QL_RX port))

/-- A candidate is lost (R65): its bits clear, LOST is set, TOD_VALID clears (R66), event 0x1032 carries the monitor, a timer for it stops (R76), and the DPLL leaves it when it was selected (R73, R74). -/
def State.candLost (s : State) (k monitor : Nat) : State :=
  if !s.candValid k then s else
  let s := s.candPut k false false
  let s := if k < 4 then (s.put .ux (Reg.UX_REF_IN_STAT_LOST k) 1).put .ux (Reg.UX_REF_IN_STAT_TOD_VALID k) 0
    else if k < 6 then (s.put .ux (Reg.UX_TP_STAT_LOST (k - 4)) 1).modUx (fun u => { u with ptp := tput PtpClock.zero u.ptp (k - 4) PtpClock.zero }) else s
  let s := s.log .ux 0x45 0x1032 k monitor
  (s.wtrStop k).refResolve.refTrace

/-! ### Pins (R71) -/

/-- The pin LOCK: the DPLL is LOCKED. -/
def State.pinLock (s : State) : Bool := s.dpllState == 2

/-- The pin FREE: the DPLL runs free. -/
def State.pinFree (s : State) : Bool := s.dpllState == 0

/-- The pins REFSEL[2:0]: the selected candidate, the last one in FREE. -/
def State.pinRefsel (s : State) : BitVec 3 := BitVec.ofNat 3 (s.get .ux Reg.UX_REF_STAT_SEL)

end Sys2Proof.Machine
end

