-- ==== Sys2Proof/Machine/LaneOps.lean ====
section
/-! DEFINITION. Operations on a ferry lane (chapter 4): roles, activation, failure, failover, and the end of a lane. -/

namespace Sys2Proof.Machine

/-! ### Roles (R19, R93, R107, R111) -/

/-- A lane exists for its part and tier (R17, R19). -/
def State.laneUsed (s : State) (p : Part) (x : Nat) : Bool :=
  match p with
  | .el => x < s.el.lic.planes
  | .ux =>
    match s.tier with
    | 0 => x < 128 || x == 128 || x == 129 || (144 ≤ x && x < 160)
    | 1 => x < 128 || x == 128
    | 2 => x < 16 || x == 152
    | _ => false

/-- A part has a register block for a lane. -/
def laneHere (p : Part) (x : Nat) : Bool :=
  match p with
  | .el => x < 2
  | .ux => x < 160

/-- The position of the partner leaf that a lane PE0 to PE7 leads to (R356): the second one on PE4 to PE7 of a three-way leaf. -/
def State.partnerPos (s : State) (x : Nat) : Nat :=
  if s.bit .ux Reg.UX_HC_PEER_WAYS3 && 148 ≤ x then s.get .ux Reg.UX_HC_PEER_PARTNER2 else s.get .ux Reg.UX_HC_PEER_PARTNER

/-- This end is the parent of the link (R83): a downlink; of a link between twins the plane-A end, of one between partners the lower position (log 8). -/
def State.laneParent (s : State) (p : Part) (x : Nat) : Bool :=
  match p with
  | .el => false
  | .ux => x < 128 || (152 ≤ x && !s.bit .ux Reg.UX_IDENT_ROLE_PLANE) || (144 ≤ x && x < 152 && decide (s.get .ux Reg.UX_IDENT_ROLE_POS < s.partnerPos x))

/-- The candidate a lane delivers (chapter 3): UPA on U0, UPB on U1 of a leaf and on PE8 of a root. -/
def State.laneCand (s : State) (x : Nat) : Option Nat :=
  if x = 128 then some 6 else if x = 129 && s.tier == 0 then some 7 else if x = 152 && s.tier == 2 then some 7 else none

/-- The PDI of a die on a downlink of this leaf (R22). -/
def State.pdiOf (s : State) (x : Nat) : Nat := s.get .ux Reg.UX_IDENT_ROLE_POS * 128 + x

/-- The PDI an Elesh learned from its leaf's join record (R126). -/
def State.myPdi (s : State) : Nat :=
  let x := s.el.followLane
  (s.lane .el x).joinPdi.toNat

/-- The member state of a die, leaf or spine by its PDI, as this chip holds it (R326). -/
def State.member (s : State) (pdi : Nat) : Nat := tget 0 s.ux.members pdi

/-- The member state of a die at its leaf changes. The leaf shows it in UX_LANEx_HC, and the die mirrors it when it is the Elesh of this model (R326, log 9). -/
def State.setMember (s : State) (pdi code : Nat) : State :=
  let s := s.modUx (fun u => { u with members := tput 0 u.members pdi code })
  if s.tier == 0 && pdi / 128 == s.get .ux Reg.UX_IDENT_ROLE_POS then
    let s := s.put .ux (Reg.UX_LANE_HC_STATE (pdi % 128)) code
    if s.myPdi == pdi && (s.laneState .el 0 == 4 || s.laneState .el 1 == 4) then s.put .el Reg.HC_STAT_STATE code else s
  else s

/-- A lane of a chip is powered (R19, R128): one its tier uses, and not DOWN. -/
def State.lanePowered (s : State) (p : Part) (x : Nat) : Bool := s.laneUsed p x && s.laneState p x != 0

/-- A lane takes part in the exchange of marks: CAL or ACTIVE, and not AWAY. -/
def State.laneTimes (s : State) (p : Part) (x : Nat) : Bool :=
  s.laneUsed p x && (s.laneState p x == 3 || s.laneState p x == 4) && !s.bit p (Reg.LANE_STAT_AWAY (laneBlk p x))

/-! ### Modules (R124) -/

/-- The module that serves a lane of a Uhloux chip, eight lanes each. -/
def State.modMod (s : State) (x : Nat) (f : Module → Module) : State :=
  s.modUx (fun u => { u with modules := tput Module.zero u.modules (x / 8) (f (tget Module.zero u.modules (x / 8))) })

/-- A lane that trains initialises its data path; its module selects the 200GAUI-1 application and leaves low power (R124). -/
def State.moduleUp (s : State) (p : Part) (x : Nat) : State :=
  match p with
  | .el => s
  | .ux => s.modMod x (fun m => { m with state := if m.state == .ready then .ready else .pwrUp, app := true, dataPath := bitSet m.dataPath (x % 8) true })

/-- A lane that goes DOWN de-initialises its data path; a module with none left powers down (R124). -/
def State.moduleDown (s : State) (p : Part) (x : Nat) : State :=
  match p with
  | .el => s
  | .ux => s.modMod x (fun m =>
      let d := bitSet m.dataPath (x % 8) false
      { m with dataPath := d, state := if d = 0 then .pwrDn else m.state })

/-! ### Credits (R113) -/

/-- The credits of a VC at join. -/
def joinCredits : Nat → Nat
  | 0 => 4 | 1 => 32 | 2 => 64 | 3 => 16 | 4 => 64 | 5 => 16 | 6 => 8 | _ => 8

/-- The LANE_CRED word at join: one byte a VC. -/
def joinCredWord : Word := 0x0808104010402004

/-- Send credits held on a VC. -/
def State.credit (s : State) (p : Part) (x vc : Nat) : Nat := fget (s.reg p (Reg.LANE_CRED_CREDITS (laneBlk p x)).off) (8 * vc + 7) (8 * vc)

/-- The state with the send credits of a VC replaced. -/
def State.setCredit (s : State) (p : Part) (x vc n : Nat) : State :=
  let off := (Reg.LANE_CRED_CREDITS (laneBlk p x)).off
  s.setReg p off (fset (s.reg p off) (8 * vc + 7) (8 * vc) n)

/-! ### Becoming ACTIVE (R125) -/

/-- The clock source an Elesh steers ACLK from (R401): the selected lane, before any selection the first lane in CAL, else holdover; 0x8003 when it becomes 3. -/
def State.aclkSource (s : State) : State :=
  let inCal := fun x => s.laneState .el x == 3 || s.laneState .el x == 4
  let cur := s.get .el Reg.CLK_STAT_ACLK_SRC
  let f := s.el.followLane
  let n := match s.selLane with
    | some x => x + 1
    | none => if s.el.laneChosen && inCal f then f + 1 else if cur = 0 then 0 else 3
  if n = cur then s
  else
    let s := s.put .el Reg.CLK_STAT_ACLK_SRC n
    if n = 3 then
      let d := s.draw
      d.2.log .el 0x0E 0x8003 0 d.1.toNat
    else s

/-- The UNACKED and RETRY fields follow the replay buffer (R131). -/
def State.laneShow (s : State) (p : Part) (x : Nat) : State :=
  let l := s.lane p x
  let retry := match l.replay with | f :: _ => f.sends - 1 | [] => 0
  (s.put p (Reg.LANE_STAT_UNACKED (laneBlk p x)) l.replay.length).put p (Reg.LANE_STAT_RETRY (laneBlk p x)) (min 7 retry)

/-- The state of a lane replaced. -/
def State.laneSet (s : State) (p : Part) (x code : Nat) : State := s.put p (Reg.LANE_STAT_STATE (laneBlk p x)) code

/-- ATTEST_REQ with a fresh nonce to the child on a downlink (R455); its 32 bytes are free. What the child attested before no longer counts. -/
def State.attestAsk (s : State) (x : Nat) : State :=
  let a := s.draw
  let b := a.2.draw
  let c := b.2.draw
  let d := c.2.draw
  let nonce := leBytes 8 a.1.toNat ++ leBytes 8 b.1.toNat ++ leBytes 8 c.1.toNat ++ leBytes 8 d.1.toNat
  (d.2.modUx (fun u => { u with nonces := tput [] u.nonces x nonce, attested := u.attested.filter (fun y => y != x) })).send .ux x (.attestReq nonce)

/-- A lane in CAL becomes ACTIVE once its link is calibrated and, on a die, the time base that follows it is LOCKED (R125). The followed lane of an Elesh then carries VC1 to VC4 (R107); the first uplink of a Uhloux does (R111), and clears the AWAY it sent (R112). A die whose lane is ACTIVE is JOINING (R326), and a parent asks the child for an attestation report (R455). -/
def State.laneActivate (s : State) (p : Part) (x : Nat) : State :=
  let blk := laneBlk p x
  if s.laneState p x == 3 && s.bit p (Reg.LANE_TCAL_CAL_DONE blk) then
    match p with
    | .el =>
      let ready := match s.laneTb x with
        | some n => s.tbState .el n == 2
        | none => true
      if ready then
        let s := (s.laneSet .el x 4).log .el 0x09 0x2002 x (s.get .el (Reg.LANE_DELAY_D_PS blk))
        let s := if s.selLane.isNone && x == s.el.followLane then
            (s.put .el (Reg.LANE_STAT_SELECTED blk) 1).put .el Reg.TIME_STAT_PLANE x else s
        let s := if s.get .el Reg.HC_STAT_STATE = 0 then s.put .el Reg.HC_STAT_STATE 1 else s
        s.aclkSource
      else s
    | .ux =>
      let s := (s.laneSet .ux x 4).log .ux (unitLane .ux x) 0x2002 x (s.get .ux (Reg.LANE_DELAY_D_PS blk))
      if x < 128 then
        let s := s.put .ux (Reg.LANE_STAT_SELECTED blk) 1
        (if s.tier == 0 && s.member (s.pdiOf x) == 0 then s.setMember (s.pdiOf x) 1 else s).attestAsk x
      else if (x == 128 || x == 129) && s.upLane.isNone then
        let s := s.put .ux (Reg.LANE_STAT_SELECTED blk) 1
        if s.ux.awaySent then (s.sendDown downLanes (.away false)).modUx (fun u => { u with awaySent := false }) else s
      else s
  else s

/-- Every lane of an Elesh that waits for time base `n` is looked at again. -/
def State.lanesWait (s : State) (p : Part) (n : Nat) : State :=
  match p with
  | .ux => s
  | .el => if n = 2 || n = 3 then s else (s.laneActivate .el 0).laneActivate .el 1

/-- LOCKED is entered (R53), and a lane that waits for it becomes ACTIVE (R125). -/
def State.tbEnterLocked (s : State) (p : Part) (n : Nat) : State := (s.tbLock p n).lanesWait p n

/-! ### Failure (R104, R107 to R112) -/

/-- What a lane still has to send of VC1 to VC4, in order, and how many of those frames were sent before. -/
def Lane.traffic (l : Lane) : List (Nat × Msg) :=
  ((l.replay.map (fun f => (f.vc, f.msg))) ++ l.txq).filter (fun e => 1 ≤ e.1 && e.1 ≤ 4)

/-- The sequenced frames of VC1 to VC4 that a lane holds for replay. -/
def Lane.unackedTraffic (l : Lane) : Nat := (l.replay.filter (fun f => 1 ≤ f.vc && f.vc ≤ 4)).length

/-- What a lane that no longer serves may still send: VC5 and VC7 of one that is AWAY (R112), nothing of one that has failed. -/
def State.laneKeeps (s : State) (p : Part) (x : Nat) (vc : Nat) : Bool := s.bit p (Reg.LANE_STAT_AWAY (laneBlk p x)) && s.laneState p x == 4 && (vc == 5 || vc == 7)

/-- The frames of a lane move to another lane of the same part: those of VC1 to VC4 are resent ahead of its new frames, the rest are discarded and counted (R108, R111, R112). -/
def State.laneMove (s : State) (p : Part) (x y : Nat) : State :=
  let l := s.lane p x
  let lost := (l.replay.filter (fun f => !(1 ≤ f.vc && f.vc ≤ 4))).length
  let keep := s.laneKeeps p x
  let s := s.modLane p x (fun l => { l with txq := l.txq.filter (fun e => keep e.1), replay := [], resend := [], discards := l.discards + lost })
  (s.modLane p y (fun m => { m with txq := l.traffic ++ m.txq })).laneShow p x

/-- A message of a lane between twins or partners that the other lanes of its group take over (R111): all but what belongs to the lane itself (log 99). -/
def Msg.moves : Msg → Bool
  | .timeMark _ | .upMark _ _ | .join _ | .leave | .away _ => false
  | _ => true

/-- The frames of a PE lane are resent on the lanes `ys`, in turn and ahead of their new frames (R111, log 99). -/
def State.laneSpread (s : State) (x : Nat) (ys : List Nat) : State :=
  let l := s.lane .ux x
  let es := ((l.replay.map (fun f => (f.vc, f.msg))) ++ l.txq).filter (fun e => e.2.moves)
  let lost := (l.replay.filter (fun f => !f.msg.moves)).length
  let s := s.modLane .ux x (fun l => { l with txq := [], replay := [], resend := [], discards := l.discards + lost })
  let part := fun i => (es.zipIdx.filter (fun e => e.2 % ys.length == i)).map (·.1)
  (ys.zipIdx.foldl (fun t y => t.modLane .ux y.1 (fun m => { m with txq := part y.2 ++ m.txq })) s).laneShow .ux x

/-- Every frame of a lane is discarded, but for what one that is AWAY still carries (R109, R112). -/
def State.laneDrop (s : State) (p : Part) (x : Nat) : State :=
  let keep := s.laneKeeps p x
  (s.modLane p x (fun l => { l with txq := l.txq.filter (fun e => keep e.1), replay := [], resend := [], discards := l.discards + l.replay.length })).laneShow p x

/-- The other lane of an Elesh is a failover target (R108). -/
def State.failoverTarget (s : State) (x : Nat) : Bool :=
  s.el.lic.planes == 2 && s.laneState .el (1 - x) == 4 && !s.bit .el (Reg.LANE_STAT_AWAY (laneBlk .el (1 - x)))

/-- The selected lane of an Elesh moves to the other lane: failover, or a planned switch (R108). -/
def State.failover (s : State) (x : Nat) : State :=
  let y := 1 - x
  let n := (s.lane .el x).unackedTraffic
  let s := (s.put .el (Reg.LANE_STAT_SELECTED (laneBlk .el x)) 0).put .el (Reg.LANE_STAT_SELECTED (laneBlk .el y)) 1
  (((s.planeSwitch y).laneMove .el x y).log .el 0x09 0x2004 x n).aclkSource

/-- The selected lane of an Elesh no longer serves: failover, or a linkless die (R108, R109). An unselected lane only loses its own traffic. Before any selection TB0 takes the other lane, which is selected when it is ACTIVE (R107). -/
def State.elLaneLoss (s : State) (x : Nat) : State :=
  if s.bit .el (Reg.LANE_STAT_SELECTED (laneBlk .el x)) then
    if s.failoverTarget x then s.failover x
    else (((s.put .el (Reg.LANE_STAT_SELECTED (laneBlk .el x)) 0).laneDrop .el x).log .el 0x09 0x200B x 0).aclkSource
  else if s.selLane.isNone && s.el.laneChosen && x == s.el.followLane && s.el.lic.planes == 2 then
    let y := 1 - x
    let s := (s.planeSwitch y).laneDrop .el x
    (if s.laneState .el y == 4 && !s.bit .el (Reg.LANE_STAT_AWAY (laneBlk .el y)) then s.put .el (Reg.LANE_STAT_SELECTED (laneBlk .el y)) 1 else s).aclkSource
  else s.laneDrop .el x

/-- The privileged dies of this leaf. -/
def State.privLanes (s : State) : List Nat := downLanes.filter (fun x => s.bit .ux (Reg.UX_LANE_HC_PRIV x))

/-- MIRROR_FULL of the Elesh of this model follows the vault when this chip is its vault, the partner of its leaf (R355, log 41). -/
def State.mirrorFull (s : State) : State :=
  let v := tget VGen.zero s.ux.vaults (s.myPdi % 128)
  if s.tier = 0 ∧ s.myPdi / 128 = s.get .ux Reg.UX_HC_PEER_PARTNER ∧ v.seen then s.put .el Reg.HC_STAT_MIRROR_FULL (if v.hasSealed then 0 else 1) else s

/-- UNMIRRORED counts the dies of this chip's vault without a sealed generation and its own privileged dies whose vault is lost (R355); 0x6041 when it rises. -/
def State.unmirrored (s : State) : State :=
  let n := min 255 (s.ux.vaults.countP (fun v => v.2.seen && !v.2.hasSealed) + s.ux.privLost.length)
  let old := s.get .ux Reg.UX_VAULT_STAT_UNMIRRORED
  let s := (s.put .ux Reg.UX_VAULT_STAT_UNMIRRORED n).mirrorFull
  if old < n then s.log .ux 0x44 0x6041 0 n else s

/-- The vault of a leaf is lost (R358): its privileged dies are unmirrored. -/
def State.vaultLost (s : State) : State :=
  let own := s.myPdi / 128 = s.get .ux Reg.UX_IDENT_ROLE_POS ∧ s.privLanes.contains (s.myPdi % 128)
  let s := if own then s.put .el Reg.HC_STAT_MIRROR_FULL 1 else s
  (s.modUx (fun u => { u with privLost := s.privLanes })).unmirrored

/-- A die's lane on the other plane is neither DOWN nor FAILED (R326). Of the Elesh of this model its own lanes tell; of another die no message does, and it is free (log 34). -/
def State.otherPlaneUp (s : State) (pdi : Nat) : Bool × State :=
  if s.myPdi = pdi then
    let y := 1 - s.get .ux Reg.UX_IDENT_ROLE_PLANE
    (decide (y < s.el.lic.planes) && s.laneState .el y != 0 && s.laneState .el y != 6, s)
  else let d := s.draw; (d.1.toNat % 2 == 1, d.2)

/-- A JOINING or STANDBY die whose lane here is gone is ABSENT where its lane on the other plane is gone too (R326). -/
def State.childAbsent (s : State) (x : Nat) : State :=
  let m := s.member (s.pdiOf x)
  if x < 128 && s.tier == 0 && (m == 1 || m == 2) then
    let r := s.otherPlaneUp (s.pdiOf x)
    if r.1 then r.2 else r.2.setMember (s.pdiOf x) 0
  else s

/-- A Uhloux lane no longer serves (R111): a leaf's U0 hands over to U1; the loss of the last uplink sends AWAY down; a downlink's frames are discarded; a PE lane hands over within its group; a leaf without a lane to its partner has lost its vault (R358). -/
def State.uxLaneLoss (s : State) (x : Nat) : State :=
  let s := match s.laneCand x with
    | some k => s.candLost k (if k = 6 || k = 7 then 3 else 0)
    | none => s
  if x < 128 then
    ((s.put .ux (Reg.LANE_STAT_SELECTED (laneBlk .ux x)) 0).laneDrop .ux x).childAbsent x
  else if x == 128 || x == 129 then
    if s.bit .ux (Reg.LANE_STAT_SELECTED (laneBlk .ux x)) then
      let y := if x = 128 then 129 else 128
      let n := (s.lane .ux x).unackedTraffic
      let s := s.put .ux (Reg.LANE_STAT_SELECTED (laneBlk .ux x)) 0
      if s.tier == 0 && s.laneState .ux y == 4 && !s.bit .ux (Reg.LANE_STAT_AWAY (laneBlk .ux y)) then
        ((s.put .ux (Reg.LANE_STAT_SELECTED (laneBlk .ux y)) 1).laneMove .ux x y).log .ux (unitLane .ux x) 0x2004 x n
      else ((s.laneDrop .ux x).sendDown downLanes (.away true)).modUx (fun u => { u with awaySent := true })
    else s.laneDrop .ux x
  else if 144 ≤ x then
    let lo := if x < 152 then 144 else 152
    let ys := ((List.range 8).map (fun i => lo + i)).filter (fun y => y != x && s.laneState .ux y == 4)
    if ys.isEmpty then (if s.tier = 0 ∧ lo = 144 then (s.laneDrop .ux x).vaultLost else s.laneDrop .ux x)
    else
      let n := ((s.lane .ux x).replay.filter (fun f => f.msg.moves)).length
      (s.laneSpread x ys).log .ux (unitLane .ux x) 0x2004 x n
  else s.laneDrop .ux x

/-- A lane of a part no longer serves. -/
def State.laneLoss (s : State) (p : Part) (x : Nat) : State :=
  match p with
  | .el => s.elLaneLoss x
  | .ux => s.uxLaneLoss x

/-- A die with both lanes down or failed is ABSENT unless it is a member (R326), here and at its leaf. -/
def State.absentCheck (s : State) (p : Part) : State :=
  match p with
  | .ux => s
  | .el =>
    let down := fun x => s.laneState .el x == 0 || s.laneState .el x == 6
    let st := s.get .el Reg.HC_STAT_STATE
    if down 0 && down 1 && (st == 1 || st == 2) then
      let s := s.put .el Reg.HC_STAT_STATE 0
      if s.tier == 0 && s.myPdi / 128 == s.get .ux Reg.UX_IDENT_ROLE_POS && (s.member s.myPdi == 1 || s.member s.myPdi == 2) then s.setMember s.myPdi 0 else s
    else s

/-- Calibration of a lane is void (R86): CAL_DONE and D_PS read 0 (R131), and UX_XPLANE_DIFF its uncalibrated value once no link to the twin is calibrated (R91). -/
def State.calClear (s : State) (p : Part) (x : Nat) : State :=
  let blk := laneBlk p x
  let s := (s.put p (Reg.LANE_TCAL_CAL_DONE blk) 0).put p (Reg.LANE_DELAY_D_PS blk) 0
  match p with
  | .el => s.put .el (if x = 0 then Reg.TIME_STAT_CAL_A else Reg.TIME_STAT_CAL_B) 0
  | .ux =>
    if 152 ≤ x && !(List.range 8).any (fun i => s.bit .ux (Reg.LANE_TCAL_CAL_DONE (laneBlk .ux (152 + i)))) then
      s.setReg .ux Reg.UX_XPLANE_DIFF_DIFF.off (resetWord .ux Reg.UX_XPLANE_DIFF_DIFF.off)
    else s

/-- A leave in progress on a lane that fails ends with status RETRY_EXHAUSTED (R128). -/
def State.leaveFail (s : State) (p : Part) (x : Nat) : State :=
  if s.laneState p x == 5 then s.modLane p x (fun l => { l with leaveSt := some 3 }) else s

/-- FAILED is entered with a cause (R104, R125, R130): event 0x2003, calibration is void, and the lane's traffic moves or is lost. -/
def State.laneFail (s : State) (p : Part) (x cause : Nat) : State :=
  let blk := laneBlk p x
  let s := (((s.leaveFail p x).laneSet p x 6).put p (Reg.LANE_STAT_FAIL_CAUSE blk) cause).log p (unitLane p x) 0x2003 x cause
  ((s.calClear p x).laneLoss p x).absentCheck p

/-- A lane fails for a reason no FAIL_CAUSE names: the cause reported is free (log 10). -/
def State.laneFailOpen (s : State) (p : Part) (x : Nat) : State :=
  let d := s.draw
  d.2.laneFail p x (1 + d.1.toNat % 9)

/-- A lane that is up: not DOWN and not FAILED. -/
def State.laneUp (s : State) (p : Part) (x : Nat) : Bool := s.laneState p x != 0 && s.laneState p x != 6

/-- Both lanes of an Elesh fail in one tick (R109): neither is a failover target of the other. No rule names their FAIL_CAUSE (log 10). -/
def State.bothFail (s : State) : State :=
  let up := fun x => s.laneUp .el x
  let t := if up 1 then (s.leaveFail .el 1).laneSet .el 1 6 else s
  let t := if up 0 then t.laneFailOpen .el 0 else t
  if up 1 then t.laneFailOpen .el 1 else t

/-- Calibration of a lane restarts (R86): CAL_DONE and D_PS fall at this end, and 4,096 matched exchanges count again. A parent counts them by the child's marks. -/
def State.recal (s : State) (p : Part) (x : Nat) : State :=
  (s.calClear p x).modLane p x (fun l => { l with matched := 0, calPs := 0, recalLeft := 4096 })

/-- A part keeps its lanes down: a chip whose warm reset failed or whose junction tripped (R433, R528), a die without VDD_PHY (R496). -/
def State.lanesHeld (s : State) : Part → Bool
  | .el => !s.el.supplyPhy
  | .ux => s.ux.lanesHeld

/-- TRAIN is entered (R125): calibration restarts with the re-training (R86). -/
def State.laneTrain (s : State) (p : Part) (x : Nat) : State := if s.lanesHeld p then s else ((s.recal p x).laneSet p x 1).moduleUp p x

end Sys2Proof.Machine
end

