-- ==== Sys2Proof/Machine/ClkOps.lean ====
section
/-! DEFINITION. The FCLK multiplier, the PLL pair, the voltage and clock steps of probation, and the fords (R365, R403, R404, R409 to R412). -/

namespace Sys2Proof.Machine

/-- The throttle input is honoured and asserted (R403). -/
def State.throttled (s : State) : Bool := s.el.ports.throttle && s.bit .el Reg.CLK_CTRL_THR_EN

/-- FMUL_EFF (R403). -/
def State.fmulEff (s : State) : Nat :=
  let f := max 25 (s.get .el Reg.CLK_CTRL_FMUL_RUN - s.get .el Reg.CLK_CTRL_FSTEP * s.get .el Reg.HC_STAT_FSTEPS)
  if s.throttled then min f (s.get .el Reg.CLK_CTRL_FMUL_THR) else f

/-- The state with the PLL pair of a part changed. -/
def State.modPll (s : State) (p : Part) (f : Pll → Pll) : State := s.mod p (fun b => { b with pll := f b.pll })

/-- FMUL_EFF may have changed (R404): the standby PLL relocks to the newest value; the active PLL's own value cancels a relock. -/
def State.fmulFollow (s : State) : State :=
  let f := s.fmulEff
  let s := s.put .el Reg.CLK_STAT_THROTTLE (if s.throttled then 1 else 0)
  if f = s.get .el Reg.CLK_STAT_FMUL_CUR then
    if s.el.base.pll.relocking then s.modPll .el (fun q => { q with relocking := false, standbyMul := f, standbyLocked := true }) else s
  else if s.el.base.pll.relocking && s.el.base.pll.standbyMul == f then s
  else s.modPll .el (fun q => { q with relocking := true, standbyMul := f, standbyLocked := false })

/-- A voltage step (action 1) or a clock step (action 2) of R365; at most two of each. -/
def State.probAct (s : State) (action : Nat) : State :=
  if action = 1 then s.put .el Reg.HC_STAT_VSTEPS (min 2 (s.get .el Reg.HC_STAT_VSTEPS + 1))
  else if action = 2 then (s.put .el Reg.HC_STAT_FSTEPS (min 2 (s.get .el Reg.HC_STAT_FSTEPS + 1))).fmulFollow
  else s

/-- The steps and the PROBATION flag end when the die leaves membership or is readmitted (R365). -/
def State.probEnd (s : State) : State :=
  (((s.put .el Reg.HC_STAT_VSTEPS 0).put .el Reg.HC_STAT_FSTEPS 0).put .el Reg.HC_STAT_PROBATION 0).fmulFollow

/-- A CLASS_PERMANENT at the die takes one of the two actions; which one no rule gives, so it is free (log 2). -/
def State.probPermanent (s : State) : State :=
  let d := s.draw
  d.2.probAct (1 + d.1.toNat % 2)

/-! ### Fords (R409 to R412) -/

/-- The clock regions of a part (R406, R412). -/
def State.regionCount (s : State) : Part → Nat
  | .el => s.el.lic.regions
  | .ux => 64

/-- Two regions share fords, one each way: any two of an Elesh, neighbours in the 8 by 8 grid of a Uhloux chip (R412). -/
def fordPair (p : Part) (a b : Nat) : Bool :=
  match p with
  | .el => a != b
  | .ux => (a / 8 == b / 8 && (a + 1 == b || b + 1 == a)) || (a % 8 == b % 8 && (a + 8 == b || b + 8 == a))

/-- The ford from one region to another. -/
def State.ford (s : State) (p : Part) (a b : Nat) : Ford := tget Ford.aligned (s.base p).fords (64 * a + b)

/-- A ford holds `n` entries; which of them are valid depends on what was written in the cycles between, and is free. -/
def State.fordSet (s : State) (p : Part) (a b n : Nat) : State :=
  let d := s.draw
  let f : Ford := { entries := (List.range n).map (fun i => bitOf d.1.toNat i) }
  d.2.mod p (fun x => { x with fords := tput Ford.aligned x.fords (64 * a + b) f })

/-- A stretch of region `r` (R411): a ford it produces into loses one entry, and at none its consumer takes a bubble; one it consumes from gains one, and at eight its producer holds for credit. -/
def State.fordsStretch (s : State) (p : Part) (r : Nat) : State :=
  ((List.range (s.regionCount p)).filter (fordPair p r)).foldl (fun t x =>
    let t := t.fordSet p r x ((t.ford p r x).entries.length - 1)
    t.fordSet p x r (min 8 ((t.ford p x r).entries.length + 1))) s

/-- An alignment pulse reaches the fords of the regions named (R410). -/
def State.align (s : State) (p : Part) (rs : Nat → Bool) : State :=
  s.mod p (fun x => { x with fords := x.fords.filter (fun e => !rs (e.1 / 64) && !rs (e.1 % 64)) })

/-- The clock region of a power domain of an Elesh (R406, R414): a region the instance lacks is merged into region 0. -/
def State.domainRegion (s : State) (d : Nat) : Nat :=
  let r := match d with | 3 => 1 | 4 => 2 | 5 => 3 | _ => 0
  if r < s.el.lic.regions then r else 0

/-- A domain release under the reset ladder sends an alignment pulse (R410): it reaches the fords of the domain's region, on Uhloux every ford (log 114). -/
def State.alignDomain (s : State) (p : Part) (d : Nat) : State :=
  match p with
  | .el => s.align .el (fun r => r == s.domainRegion d)
  | .ux => s.align .ux (fun _ => true)

end Sys2Proof.Machine
end

