-- ==== Sys2Proof/Machine/Crypto.lean ====
section
/-! DEFINITION. The check and cryptographic functions the spec names by their standards: CRC-32 (R100), CRC-32C (R290), SipHash-2-4 (R293), SHA-384 (FIPS 180-4), HMAC and HKDF (RFC 2104, RFC 5869), AES-256 GMAC (FIPS 197, SP 800-38D) and the verification of ECDSA over P-384 (FIPS 186-5).
The spec names the standards and does not repeat them: their text is PRESUMED (log 14). -/

namespace Sys2Proof.Machine

/-! ### Cyclic redundancy checks -/

/-- Eight steps of a reflected CRC with a reflected polynomial. -/
def crcBits (poly : Nat) : Nat → Nat → Nat
  | 0, c => c
  | n + 1, c => crcBits poly n (if c % 2 = 1 then Nat.xor (c / 2) poly else c / 2)

/-- A reflected 32-bit CRC with initial value and final XOR of all ones. -/
def crcRef (poly : Nat) (bs : List Byte) : Nat :=
  Nat.xor (bs.foldl (fun c b => crcBits poly 8 (Nat.xor c b.toNat)) 0xFFFFFFFF) 0xFFFFFFFF

/-- CRC-32 of IEEE 802.3 (R100): polynomial 0x04C1_1DB7, reflected. -/
def crc32 (bs : List Byte) : BitVec 32 := BitVec.ofNat 32 (crcRef 0xEDB88320 bs)

/-- CRC-32C (Castagnoli): polynomial 0x1EDC_6F41, reflected. -/
def crc32c (bs : List Byte) : BitVec 32 := BitVec.ofNat 32 (crcRef 0x82F63B78 bs)

/-! ### Words modulo 2^64 -/

/-- Addition modulo 2^64. -/
def add64 (a b : Nat) : Nat := (a + b) % 2 ^ 64

/-- Rotation of a 64-bit word to the right. -/
def rotr64 (a n : Nat) : Nat := Nat.lor (a >>> n) ((a <<< (64 - n)) % 2 ^ 64)

/-- Rotation of a 64-bit word to the left. -/
def rotl64 (a n : Nat) : Nat := rotr64 a (64 - n)

/-! ### SipHash-2-4 -/

/-- The four words of SipHash. -/
structure SipSt where
  v0 : Nat
  v1 : Nat
  v2 : Nat
  v3 : Nat
  deriving DecidableEq, Repr

/-- One SipRound. -/
def sipRound (s : SipSt) : SipSt :=
  let a := add64 s.v0 s.v1
  let b := Nat.xor (rotl64 s.v1 13) a
  let a := rotl64 a 32
  let c := add64 s.v2 s.v3
  let d := Nat.xor (rotl64 s.v3 16) c
  let a2 := add64 a d
  let d2 := Nat.xor (rotl64 d 21) a2
  let c2 := add64 c b
  let b2 := Nat.xor (rotl64 b 17) c2
  { v0 := a2, v1 := b2, v2 := rotl64 c2 32, v3 := d2 }

/-- One message word of SipHash-2-4. -/
def sipWord (s : SipSt) (m : Nat) : SipSt :=
  let s := sipRound (sipRound { s with v3 := Nat.xor s.v3 m })
  { s with v0 := Nat.xor s.v0 m }

/-- The 64-bit words of a message, the last one closed with its length, as SipHash pads. -/
def sipPad : Nat → List Byte → List Nat → List Nat
  | 0, _, acc => acc
  | fuel + 1, bs, acc =>
    if bs.length < 8 then acc ++ [leNat bs] else sipPad fuel (bs.drop 8) (acc ++ [leNat (bs.take 8)])

/-- SipHash-2-4 of bytes under the key k0, k1. -/
def sipHash (k0 k1 : Nat) (bs : List Byte) : Word :=
  let s : SipSt := { v0 := Nat.xor k0 0x736F6D6570736575, v1 := Nat.xor k1 0x646F72616E646F6D,
                     v2 := Nat.xor k0 0x6C7967656E657261, v3 := Nat.xor k1 0x7465646279746573 }
  let ws := sipPad (bs.length / 8 + 1) bs []
  let last := ws.getLast?.getD 0 + bs.length % 256 * 2 ^ 56
  let s := sipWord ((ws.dropLast).foldl sipWord s) last
  let s := sipRound (sipRound (sipRound (sipRound { s with v2 := Nat.xor s.v2 0xFF })))
  BitVec.ofNat 64 (Nat.xor (Nat.xor s.v0 s.v1) (Nat.xor s.v2 s.v3))

/-! ### SHA-384 -/

/-- Round constants 0 to 19 of SHA-384. -/
def shaK0 : List Nat :=
  [0x428A2F98D728AE22, 0x7137449123EF65CD, 0xB5C0FBCFEC4D3B2F, 0xE9B5DBA58189DBBC,
   0x3956C25BF348B538, 0x59F111F1B605D019, 0x923F82A4AF194F9B, 0xAB1C5ED5DA6D8118,
   0xD807AA98A3030242, 0x12835B0145706FBE, 0x243185BE4EE4B28C, 0x550C7DC3D5FFB4E2,
   0x72BE5D74F27B896F, 0x80DEB1FE3B1696B1, 0x9BDC06A725C71235, 0xC19BF174CF692694,
   0xE49B69C19EF14AD2, 0xEFBE4786384F25E3, 0x0FC19DC68B8CD5B5, 0x240CA1CC77AC9C65]

/-- Round constants 20 to 39 of SHA-384. -/
def shaK1 : List Nat :=
  [0x2DE92C6F592B0275, 0x4A7484AA6EA6E483, 0x5CB0A9DCBD41FBD4, 0x76F988DA831153B5,
   0x983E5152EE66DFAB, 0xA831C66D2DB43210, 0xB00327C898FB213F, 0xBF597FC7BEEF0EE4,
   0xC6E00BF33DA88FC2, 0xD5A79147930AA725, 0x06CA6351E003826F, 0x142929670A0E6E70,
   0x27B70A8546D22FFC, 0x2E1B21385C26C926, 0x4D2C6DFC5AC42AED, 0x53380D139D95B3DF,
   0x650A73548BAF63DE, 0x766A0ABB3C77B2A8, 0x81C2C92E47EDAEE6, 0x92722C851482353B]

/-- Round constants 40 to 59 of SHA-384. -/
def shaK2 : List Nat :=
  [0xA2BFE8A14CF10364, 0xA81A664BBC423001, 0xC24B8B70D0F89791, 0xC76C51A30654BE30,
   0xD192E819D6EF5218, 0xD69906245565A910, 0xF40E35855771202A, 0x106AA07032BBD1B8,
   0x19A4C116B8D2D0C8, 0x1E376C085141AB53, 0x2748774CDF8EEB99, 0x34B0BCB5E19B48A8,
   0x391C0CB3C5C95A63, 0x4ED8AA4AE3418ACB, 0x5B9CCA4F7763E373, 0x682E6FF3D6B2B8A3,
   0x748F82EE5DEFB2FC, 0x78A5636F43172F60, 0x84C87814A1F0AB72, 0x8CC702081A6439EC]

/-- Round constants 60 to 79 of SHA-384. -/
def shaK3 : List Nat :=
  [0x90BEFFFA23631E28, 0xA4506CEBDE82BDE9, 0xBEF9A3F7B2C67915, 0xC67178F2E372532B,
   0xCA273ECEEA26619C, 0xD186B8C721C0C207, 0xEADA7DD6CDE0EB1E, 0xF57D4F7FEE6ED178,
   0x06F067AA72176FBA, 0x0A637DC5A2C898A6, 0x113F9804BEF90DAE, 0x1B710B35131C471B,
   0x28DB77F523047D84, 0x32CAAB7B40C72493, 0x3C9EBE0A15C9BEBC, 0x431D67C49C100D4C,
   0x4CC5D4BECB3E42B6, 0x597F299CFC657E2A, 0x5FCB6FAB3AD6FAEC, 0x6C44198C4A475817]

/-- The initial value of SHA-384. -/
def shaInit : List Nat :=
  [0xCBBB9D5DC1059ED8, 0x629A292A367CD507, 0x9159015A3070DD17, 0x152FECD8F70E5939,
   0x67332667FFC00B31, 0x8EB44A8768581511, 0xDB0C2E0D64F98FA7, 0x47B5481DBEFA4FA4]

/-- The round constants of SHA-384. -/
def shaK : List Nat := shaK0 ++ shaK1 ++ shaK2 ++ shaK3

/-- The big-endian 64-bit words of bytes. -/
def beWords : Nat → List Byte → List Nat
  | 0, _ => []
  | n + 1, bs => beNat (bs.take 8) :: beWords n (bs.drop 8)

/-- The message schedule, newest word first. -/
def shaSched : Nat → List Nat → List Nat
  | 0, w => w
  | n + 1, w =>
    let x := w.getD 14 0
    let y := w.getD 1 0
    let s0 := Nat.xor (Nat.xor (rotr64 x 1) (rotr64 x 8)) (x >>> 7)
    let s1 := Nat.xor (Nat.xor (rotr64 y 19) (rotr64 y 61)) (y >>> 6)
    shaSched n (add64 (add64 s1 (w.getD 6 0)) (add64 s0 (w.getD 15 0)) :: w)

/-- One round: the eight working words, the constant and the schedule word. -/
def shaRound (st : List Nat) (kw : Nat × Nat) : List Nat :=
  match st with
  | [a, b, c, d, e, f, g, h] =>
    let t1 := add64 (add64 h (Nat.xor (Nat.xor (rotr64 e 14) (rotr64 e 18)) (rotr64 e 41)))
      (add64 (Nat.xor (Nat.land e f) (Nat.land (2 ^ 64 - 1 - e) g)) (add64 kw.1 kw.2))
    let t2 := add64 (Nat.xor (Nat.xor (rotr64 a 28) (rotr64 a 34)) (rotr64 a 39))
      (Nat.xor (Nat.xor (Nat.land a b) (Nat.land a c)) (Nat.land b c))
    [add64 t1 t2, a, b, c, add64 d t1, e, f, g]
  | _ => st

/-- One 128-byte block. -/
def shaBlock (h : List Nat) (blk : List Byte) : List Nat :=
  let w := (shaSched 64 (beWords 16 blk).reverse).reverse
  List.zipWith add64 h ((shaK.zip w).foldl shaRound h)

/-- The blocks of a message. -/
def shaBlocks : Nat → List Nat → List Byte → List Nat
  | 0, h, _ => h
  | n + 1, h, bs => shaBlocks n (shaBlock h (bs.take 128)) (bs.drop 128)

/-- SHA-384 (FIPS 180-4) of bytes: 48 bytes in the standard's order (R6). -/
def sha384 (bs : List Byte) : List Byte :=
  let n := bs.length
  let pad := (256 - (n + 17) % 128) % 128
  let m := bs ++ [0x80] ++ List.replicate pad 0 ++ beBytes 16 (8 * n)
  ((shaBlocks (m.length / 128) shaInit m).take 6).flatMap (beBytes 8)

/-! ### HMAC and HKDF -/

/-- HMAC with SHA-384. -/
def hmac384 (key msg : List Byte) : List Byte :=
  let k := if 128 < key.length then sha384 key else key
  let k := k ++ List.replicate (128 - k.length) 0
  sha384 (k.map (fun b => b ^^^ 0x5C) ++ sha384 (k.map (fun b => b ^^^ 0x36) ++ msg))

/-- The first 48 bytes of HKDF with SHA-384 and no salt. -/
def hkdf384 (ikm info : List Byte) : List Byte :=
  hmac384 (hmac384 (List.replicate 48 0) ikm) (info ++ [1])

/-! ### AES-256 and GMAC -/

/-- Multiplication by x in the field of AES. -/
def aesX (a : Nat) : Nat := if 128 ≤ a then Nat.xor (2 * a % 256) 0x1B else 2 * a

/-- Multiplication in the field of AES. -/
def aesMul : Nat → Nat → Nat → Nat
  | 0, _, _ => 0
  | n + 1, a, b => Nat.xor (if b % 2 = 1 then a else 0) (aesMul n (aesX a) (b / 2))

/-- The inverse of a byte in the field of AES, as its 254th power; 0 for 0. -/
def aesInv (a : Nat) : Nat :=
  let m := aesMul 8
  let a2 := m a a
  let a3 := m a2 a
  let a6 := m a3 a3
  let a12 := m a6 a6
  let a15 := m a12 a3
  let a30 := m a15 a15
  let a60 := m a30 a30
  let a120 := m a60 a60
  let a240 := m a120 a120
  m (m a240 a12) a2

/-- The substitution of AES. -/
def aesSub (a : Nat) : Nat :=
  let b := aesInv a
  let r := fun n => Nat.lor (b * 2 ^ n % 256) (b >>> (8 - n))
  Nat.xor (Nat.xor (Nat.xor (Nat.xor (Nat.xor b (r 1)) (r 2)) (r 3)) (r 4)) 0x63

/-- XOR of two byte lists. -/
def xorN (a b : List Nat) : List Nat := List.zipWith Nat.xor a b

/-- The key schedule of AES-256, as words of four bytes, newest first. -/
def aesExpand : Nat → Nat → Nat → List (List Nat) → List (List Nat)
  | 0, _, _, w => w
  | n + 1, i, rc, w =>
    let t := w.getD 0 []
    let u := w.getD 7 []
    if i % 8 = 0 then
      let t := xorN ((t.drop 1 ++ t.take 1).map aesSub) [rc, 0, 0, 0]
      aesExpand n (i + 1) (aesX rc) (xorN u t :: w)
    else if i % 8 = 4 then aesExpand n (i + 1) rc (xorN u (t.map aesSub) :: w)
    else aesExpand n (i + 1) rc (xorN u t :: w)

/-- Lists of `k` elements. -/
def chunks {α : Type} (k : Nat) : Nat → List α → List (List α)
  | 0, _ => []
  | n + 1, l => l.take k :: chunks k n (l.drop k)

/-- MixColumns of one column. -/
def aesMix (c : List Nat) : List Nat :=
  match c with
  | [a, b, d, e] =>
    let x := aesX
    [Nat.xor (Nat.xor (x a) (Nat.xor (x b) b)) (Nat.xor d e), Nat.xor (Nat.xor a (x b)) (Nat.xor (Nat.xor (x d) d) e),
     Nat.xor (Nat.xor a b) (Nat.xor (x d) (Nat.xor (x e) e)), Nat.xor (Nat.xor (Nat.xor (x a) a) b) (Nat.xor d (x e))]
  | _ => c

/-- ShiftRows of a state in column order. -/
def aesShift (s : List Nat) : List Nat := (List.range 16).map (fun i => s.getD ((i + 4 * (i % 4)) % 16) 0)

/-- The rounds of AES after the first key addition; the last one mixes no columns. -/
def aesRounds : List (List Nat) → List Nat → List Nat
  | [], s => s
  | [k], s => xorN (aesShift (s.map aesSub)) k
  | k :: k' :: ks, s => aesRounds (k' :: ks) (xorN ((chunks 4 4 (aesShift (s.map aesSub))).flatMap aesMix) k)

/-- AES-256 of one block. -/
def aes256 (key blk : List Byte) : List Nat :=
  let w := (aesExpand 52 8 1 (chunks 4 8 (key.map BitVec.toNat)).reverse).reverse
  let ks := chunks 4 15 w |>.map List.flatten
  match ks with
  | [] => []
  | k :: ks => aesRounds ks (xorN (blk.map BitVec.toNat) k)

/-- Multiplication in the field of GCM; the leftmost bit of a block is its first. -/
def gcmMul : Nat → Nat → Nat → Nat → Nat
  | 0, _, _, z => z
  | n + 1, x, v, z =>
    let z := if x >>> n % 2 = 1 then Nat.xor z v else z
    gcmMul n x (if v % 2 = 1 then Nat.xor (v / 2) (0xE1 <<< 120) else v / 2) z

/-- The GMAC tag of additional data under AES-256 with a 12-byte IV, 16 bytes as a number. -/
def gmac (key iv aad : List Byte) : Nat :=
  let h := (aes256 key (List.replicate 16 0)).foldl (fun a b => a * 256 + b) 0
  let n := aad.length
  let m := aad ++ List.replicate ((16 - n % 16) % 16) 0 ++ beBytes 8 (8 * n) ++ beBytes 8 0
  let g := (chunks 16 (m.length / 16) m).foldl (fun y b => gcmMul 128 (Nat.xor y (beNat b)) h 0) 0
  Nat.xor g ((aes256 key (iv ++ [0, 0, 0, 1])).foldl (fun a b => a * 256 + b) 0)

/-- The 64-bit authentication tag of a frame (R456): the leftmost 8 bytes of the GMAC tag. -/
def gmacTag (key iv aad : List Byte) : List Byte := beBytes 8 (gmac key iv aad >>> 64)

/-! ### P-384 -/

/-- The prime of P-384. -/
def ecP : Nat := 2 ^ 384 - 2 ^ 128 - 2 ^ 96 + 2 ^ 32 - 1

/-- The order of P-384. -/
def ecN : Nat := 0xFFFFFFFFFFFFFFFFFFFFFFFFFFFFFFFFFFFFFFFFFFFFFFFFC7634D81F4372DDF581A0DB248B0A77AECEC196ACCC52973

/-- The coefficient b of P-384. -/
def ecB : Nat := 0xB3312FA7E23EE7E4988E056BE3F82D19181D9C6EFE8141120314088F5013875AC656398D8A2ED19D2A85C8EDD3EC2AEF

/-- The base point of P-384. -/
def ecG : Nat × Nat :=
  (0xAA87CA22BE8B05378EB1C71EF320AD746E1D3B628BA79B9859F741E082542A385502F25DBF55296C3A545E3872760AB7,
   0x3617DE4A96262C6F5D9E98BF9292DC29F8F41DBD289A147CE9DA3113B5F0B8C00A60B1CE1D7E819D7A431D7C90EA0E5F)

/-- A power modulo `m`, by squaring over the bits of the exponent. -/
def powMod (m : Nat) : Nat → Nat → Nat → Nat → Nat
  | 0, _, _, acc => acc
  | n + 1, b, e, acc => powMod m n (b * b % m) (e / 2) (if e % 2 = 1 then acc * b % m else acc)

/-- The inverse modulo a 384-bit prime. -/
def invMod (m a : Nat) : Nat := powMod m 384 (a % m) (m - 2) 1

/-- A point in Jacobian coordinates; z = 0 at infinity. -/
abbrev EcPt := Nat × Nat × Nat

/-- Subtraction modulo the prime. -/
def ecSub (a b : Nat) : Nat := (a + (ecP - b % ecP)) % ecP

/-- Twice a point. -/
def ecDbl (q : EcPt) : EcPt :=
  let (x, y, z) := q
  if z = 0 || y = 0 then (1, 1, 0)
  else
    let d := z * z % ecP
    let g := y * y % ecP
    let b := x * g % ecP
    let a := 3 * (ecSub x d * ((x + d) % ecP)) % ecP
    let x3 := ecSub (a * a) (8 * b)
    let z3 := ecSub (ecSub ((y + z) * (y + z)) g) d
    (x3, ecSub (a * ecSub (4 * b) x3) (8 * g * g), z3)

/-- The sum of two points. -/
def ecAdd (q r : EcPt) : EcPt :=
  let (x1, y1, z1) := q
  let (x2, y2, z2) := r
  if z1 = 0 then r else if z2 = 0 then q
  else
    let a := z1 * z1 % ecP
    let b := z2 * z2 % ecP
    let u1 := x1 * b % ecP
    let u2 := x2 * a % ecP
    let s1 := y1 * (z2 * b % ecP) % ecP
    let s2 := y2 * (z1 * a % ecP) % ecP
    if u1 = u2 then (if s1 = s2 then ecDbl q else (1, 1, 0))
    else
      let h := ecSub u2 u1
      let w := ecSub s2 s1
      let h2 := h * h % ecP
      let h3 := h2 * h % ecP
      let v := u1 * h2 % ecP
      let x3 := ecSub (ecSub (w * w) h3) (2 * v)
      (x3, ecSub (w * ecSub v x3) (s1 * h3), z1 * z2 % ecP * h % ecP)

/-- A multiple of a point, by doubling over the bits of the factor. -/
def ecMul : Nat → Nat → EcPt → EcPt → EcPt
  | 0, _, _, acc => acc
  | n + 1, k, q, acc => ecMul n (k / 2) (ecDbl q) (if k % 2 = 1 then ecAdd acc q else acc)

/-- An ECDSA P-384 signature (96 bytes, r then s) over a SHA-384 digest is valid under a public key (96 bytes, x then y) (R6, R451). -/
def ecdsaVerify (pub digest sig : List Byte) : Bool :=
  let x := beNat (pub.take 48)
  let y := beNat (pub.drop 48)
  let r := beNat (sig.take 48)
  let s := beNat (sig.drop 48)
  let e := beNat digest
  if pub.length != 96 || sig.length != 96 || r = 0 || ecN ≤ r || s = 0 || ecN ≤ s || ecP ≤ x || ecP ≤ y then false
  else if y * y % ecP != (x * x * x + (ecP - 3) * x + ecB) % ecP then false
  else
    let w := invMod ecN s
    let q := ecAdd (ecMul 384 (e * w % ecN) (ecG.1, ecG.2, 1) (1, 1, 0)) (ecMul 384 (r * w % ecN) (x, y, 1) (1, 1, 0))
    if q.2.2 = 0 then false
    else
      let zi := invMod ecP q.2.2
      (q.1 * (zi * zi % ecP) % ecP) % ecN == r

end Sys2Proof.Machine
end

