-- ==== Sys2Proof/Machine/CntOps.lean ====
section
/-! DEFINITION. Operations on the sync counters, tree counters, watches and wakes (R201 to R216, R499 to R501). -/

namespace Sys2Proof.Machine

/-! ### Counters -/

/-- The place of SC[core].k in the counter file (R242). -/
def cntKey (core k : Nat) : Nat := core * 64 + k

/-- An instance has the counter (R242). -/
def State.cntHas (s : State) (core k : Nat) : Bool := core < s.el.lic.cores && k < s.el.lic.cntPerCore

/-- The absolute value of a counter. -/
def State.cntAbs (s : State) (i : Nat) : Nat := tget 0 s.el.counters i

/-- The step view of a counter: its value less its step base (R202). -/
def State.cntView (s : State) (i : Nat) : Nat := s.cntAbs i - tget 0 s.el.stepBase i

/-- The largest value of a counter (R203). -/
def cntTop : Nat := 2 ^ 40 - 1

/-- OBJECT of a counter (R216). -/
def cntObj (i : Nat) : Nat := i / 64 * 256 + i % 64

/-- One cycle's sum is added to a counter; beyond the top it saturates with SAT and 0x3001 (R203). A change ends a deadlock report (R217). -/
def State.cntAdd (s : State) (i n : Nat) : State :=
  let v := s.cntAbs i + n
  if n = 0 then s
  else if v ≤ cntTop then s.modEl (fun e => { e with counters := tput 0 e.counters i v, dldLogged := false })
  else
    let s := s.modEl (fun e => { e with counters := tput 0 e.counters i cntTop, satBits := tput false e.satBits i true, dldLogged := false })
    (s.put .el Reg.SYNC_STAT_SAT 1).log .el 0x03 0x3001 (cntObj i) (v - cntTop)

/-- A tree counter: 40 bits, saturating by the same rule (before R197). -/
def State.tcAdd (s : State) (i n : Nat) : State :=
  let v := tget 0 s.ux.tc i + n
  if n = 0 then s
  else if v ≤ cntTop then s.modUx (fun u => { u with tc := tput 0 u.tc i v })
  else
    let s := s.modUx (fun u => { u with tc := tput 0 u.tc i cntTop, tcSat := tput false u.tcSat i true })
    s.log .ux 0x41 0x3001 (i * 256) (v - cntTop)

/-- What a step or tree program sees of a counter (R171, R202): the step view of SC[core].k, or TC[core]. -/
def State.cntRead (s : State) (p : Part) (core k : Nat) : Nat :=
  match p with
  | .el => s.cntView (cntKey core k)
  | .ux => tget 0 s.ux.tc core

/-- The increments of one cycle summed per counter (R171). -/
def sumIncs : List (Nat × Nat) → List (Nat × Nat)
  | [] => []
  | (i, n) :: r =>
    let t := sumIncs r
    (i, n + tget 0 t i) :: t.filter (fun e => e.1 != i)

/-! ### Watches and wakes -/

/-- A watch entry. -/
def State.watchAt (s : State) (w : Nat) : Watch := tget Watch.zero s.el.watches w

/-- The state with a watch entry replaced. -/
def State.setWatch (s : State) (w : Nat) (x : Watch) : State := s.modEl (fun e => { e with watches := tput Watch.zero e.watches w x })

/-- An entry returns to IDLE. -/
def State.disarm (s : State) (w : Nat) : State := s.setWatch w { s.watchAt w with armed := false }

/-- A wake waits to leave the SYNC unit (R213), and its entry is IDLE (R215). -/
def State.wakeWatch (s : State) (w kind : Nat) (equal : Bool) : State :=
  let x := s.watchAt w
  (s.disarm w).modEl (fun e => { e with wakeQ := e.wakeQ ++ [{ core := x.core, eng := x.eng, kind := kind, equal := equal, widx := w }] })

/-- An ARMED watch whose target the step view has reached fires (R211). -/
def State.watchTry (s : State) (w : Nat) : State :=
  let x := s.watchAt w
  let v := s.cntView (cntKey x.core x.k)
  if x.armed && decide (x.target ≤ v) then s.wakeWatch w 0 (x.eq && v == x.target) else s

/-- Every watch on one of the changed counters compares, in ascending index (R212, R213). -/
def State.watchScan (s : State) (keys : List Nat) : State :=
  s.el.watches.foldl (fun t e => if e.2.armed && keys.contains (cntKey e.2.core e.2.k) then t.watchTry e.1 else t) s

/-- The key of the clock gate of engine `e` of core `c`. -/
def gateKey (c e : Nat) : Nat := c * 8 + e

/-- A gate with no request. -/
def Gate.zero : Gate := { req := false, ack := false, rst := false }

/-- The clock gate of an engine. -/
def State.gate (s : State) (c e : Nat) : Gate := tget Gate.zero s.el.gates (gateKey c e)

/-- The state with the clock gate of an engine replaced. -/
def State.setGate (s : State) (c e : Nat) (g : Gate) : State := s.modEl (fun x => { x with gates := tput Gate.zero x.gates (gateKey c e) g })

/-- GATE_REQ rises for an engine with an ARMED watch, once its GATE_ACK is 0 (R500). -/
def State.gateAsk (s : State) (c e : Nat) : State :=
  let g := s.gate c e
  let owed := s.el.watches.any (fun x => x.2.armed && x.2.core == c && x.2.eng == e)
  if owed && !g.ack && !g.rst then s.setGate c e { g with req := true } else s

/-- A watch is registered (R210): the entry is set, keeps its TMO and PRE, and is ARMED; the engine's clock gate is asked for; a target already met fires in the same cycle (R211). On an ARMED entry nothing happens but 0x3011. -/
def State.watchReg (s : State) (owner : Bool) (core k target : Nat) (eq : Bool) (eng w : Nat) : State × Bool :=
  let x := s.watchAt w
  if x.armed then (s.logW .el 0x03 0x3011 (cntObj (cntKey core k)) (core * 2 ^ 24 + eng * 2 ^ 21 + w) w, false)
  else
    let s := s.setWatch w { x with armed := true, owner := owner, eq := eq, eng := eng, core := core, k := k, target := target }
    ((s.gateAsk core eng).watchTry w, true)

/-- A watch is released (R181, R215): an ARMED entry sends a CANCEL wake. -/
def State.watchClear (s : State) (w : Nat) : State := if (s.watchAt w).armed then s.wakeWatch w 2 false else s

/-- Every ARMED watch receives KILL (R215). -/
def State.watchKill (s : State) : State := s.el.watches.foldl (fun t e => if e.2.armed then t.wakeWatch e.1 3 false else t) s

/-- The clearing points of R201 clear the counter file, with its SAT bits and step bases. -/
def State.cntClear (s : State) : State := s.modEl (fun e => { e with counters := [], satBits := [], stepBase := [] })

end Sys2Proof.Machine
end

