-- ==== Sys2Proof/Machine/SeqOps.lean ====
section
/-! DEFINITION. Operations on a sequencer and its queues (chapter 5): states, registers, queue entries, failed completions, slack-water windows. -/

namespace Sys2Proof.Machine

/-! ### Completion statuses (R10) -/

/-- OK. -/ def stOk : Nat := 0
/-- LATE. -/ def stLate : Nat := 1
/-- WLOST. -/ def stWlost : Nat := 2
/-- RETRY_EXHAUSTED. -/ def stRetry : Nat := 3
/-- DISABLED. -/ def stDisabled : Nat := 4
/-- ABORTED. -/ def stAborted : Nat := 5
/-- TIMEOUT. -/ def stTimeout : Nat := 6
/-- SAT. -/ def stSat : Nat := 7
/-- NAN. -/ def stNan : Nat := 8
/-- MISMATCH. -/ def stMismatch : Nat := 9
/-- REFUSED. -/ def stRefused : Nat := 10
/-- DEFERRED. -/ def stDeferred : Nat := 11

/-- The statuses with which a completion adds to its counter (R143). -/
def stAdds (st : Nat) : Bool := st == stOk || st == stSat || st == stNan || st == stMismatch

/-! ### Sequencer state -/

/-- The state code of a sequencer (R160). -/
def State.seqState (s : State) (p : Part) : Nat := s.get p Reg.SEQ_STAT_STATE

/-- The state with a sequencer's state code replaced. -/
def State.setSeqState (s : State) (p : Part) (c : Nat) : State := s.put p Reg.SEQ_STAT_STATE c

/-- A sequencer. -/
def State.seq (s : State) (p : Part) : Seq := (s.base p).seq

/-- The state with a sequencer changed. -/
def State.modSeq (s : State) (p : Part) (f : Seq → Seq) : State := s.mod p (fun b => { b with seq := f b.seq })

/-- A general register. -/
def State.greg (s : State) (p : Part) (a : Nat) : Word := tget 0 (s.seq p).g a

/-- The state with a general register replaced. -/
def State.setGreg (s : State) (p : Part) (a : Nat) (v : Word) : State := s.modSeq p (fun q => { q with g := tput 0 q.g a v })

/-- A flag C0 to C7. -/
def State.flag (s : State) (p : Part) (c : Nat) : Bool := bitOf (s.seq p).c.toNat c

/-- The state with a flag replaced. -/
def State.setFlag (s : State) (p : Part) (c : Nat) (b : Bool) : State :=
  s.modSeq p (fun q => { q with c := BitVec.ofNat 8 (bitSet q.c.toNat c b) })

/-- The bundle index of the next bundle. -/
def State.pc (s : State) (p : Part) : Nat := s.get p Reg.SEQ_PC_PC

/-- STEP_CUR. -/
def State.stepCur (s : State) : Nat := (s.reg .el Reg.SEQ_STEP_CUR_CUR.off).toNat

/-- The run mode of EL_SEQ_RUNCFG: 0 RUN, 1 STARTUP, 2 TEST, 3 RECOVERY. -/
def State.runMode (s : State) : Nat := s.get .el Reg.SEQ_RUNCFG_MODE

/-- A held cycle that counts as a slip (R139, R149). -/
def State.slip (s : State) (p : Part) (n : Nat) : State := (s.count p Reg.SEQ_SLIPS_STEP n).count p Reg.SEQ_SLIPS_SEGMENT n

/-! ### Queues (R140 to R144, R164) -/

/-- The entries a queue holds at most. -/
def queueCap : QueueId → Nat
  | .move => 128 | .red => 256 | .chk => 128 | .ledger => 64 | .barrier => 64 | .tree => 256 | .vault => 64 | .ledg => 64

/-- The QUEUE code of EL_SEQ_QSTAT and UX_TSEQ_QSTAT (R165, R167). -/
def queueCode : QueueId → Nat
  | .move => 0 | .red => 1 | .chk => 2 | .ledger => 3 | .barrier => 4 | .tree => 0 | .vault => 1 | .ledg => 2

/-- The part that has a queue. -/
def queuePart : QueueId → Part
  | .tree | .vault | .ledg => .ux
  | _ => .el

/-- The entries in use in a queue. -/
def State.queueUsed (s : State) (q : QueueId) : Nat :=
  (((s.base (queuePart q)).qops.filter (fun o => o.queue == q)).map QOp.entries).sum

/-- The place in EL_MAN_UNITEN.EN of the unit of a queue (R425, R471): 0 SYNC, 1 RED, 2 CHK, 3 SEED, 4 MOVE. -/
def queueUnit : QueueId → Option Nat
  | .move => some 4 | .red => some 1 | .chk | .ledger => some 2 | .barrier => some 0
  | _ => none

/-- The unit of a queue is enabled (R450). -/
def State.queueOn (s : State) (q : QueueId) : Bool :=
  match queueUnit q with
  | some u => bitOf (s.get .el Reg.MAN_UNITEN_EN) u
  | none => true

/-- A failed completion is recorded in QSTAT and logged as 0x8083 (R143, R166). -/
def State.qfail (s : State) (p : Part) (q : QueueId) (pc st : Nat) : State :=
  let n := if s.bit p Reg.SEQ_QSTAT_FLAG then satAdd 16 (s.get p Reg.SEQ_QSTAT_COUNT) 1 else 1
  let s := (((s.put p Reg.SEQ_QSTAT_FLAG 1).put p Reg.SEQ_QSTAT_STATUS st).put p Reg.SEQ_QSTAT_QUEUE (queueCode q)).put p Reg.SEQ_QSTAT_COUNT n
  (s.put p Reg.SEQ_QSTAT_PC pc).logW p (unitSeq p) 0x8083 pc (queueCode q) st

/-- The opcode of a RED operation (R185); 0 for any other. -/
def QKind.redOp : QKind → Nat
  | .tal op _ _ _ _ _ _ _ => op
  | .spass _ _ _ _ => 6
  | .ssum _ _ _ => 7
  | _ => 0

/-- EL_TAL_LAST holds the last RED operation that completed other than OK (R268); `op` 0 is none. -/
def State.talLast (s : State) (op pc st block : Nat) : State :=
  if op = 0 ∨ st = 0 then s
  else s.setReg .el Reg.TAL_LAST_STATUS.off (BitVec.ofNat 64 (st * 2 ^ 60 + op * 2 ^ 54 + block % 2 ^ 16 * 2 ^ 32 + pc))

/-- What a RED operation that completes other than OK leaves in the TAL registers and the log (R267, R268): `first` and `n` are its first affected block and their number. -/
def State.talReport (s : State) (op pc st first n : Nat) : State :=
  let detail := op * 2 ^ 58 + first % 2 ^ 16 * 2 ^ 32 + n
  let s := s.talLast op pc st first
  if st = stRefused then ((s.put .el Reg.TAL_STAT_REFUSED 1).count .el Reg.TAL_CNT_REFUSED_OPS 1).log .el 0x04 0x4003 pc detail
  else if st = stMismatch then s.put .el Reg.TAL_STAT_MISMATCH 1
  else if st = stNan then (s.put .el Reg.TAL_STAT_NAN 1).log .el 0x04 0x4002 pc detail
  else if st = stSat then (s.put .el Reg.TAL_STAT_SAT 1).log .el 0x04 0x4001 pc detail
  else s

/-- A queued operation leaves its queue (R142). -/
def State.dropOp (s : State) (p : Part) (id : Nat) : State := s.mod p (fun b => { b with qops := b.qops.filter (fun o => o.id != id) })

/-- A queued operation of a part, by its identity. -/
def State.findOp (s : State) (p : Part) (id : Nat) : Option QOp := (s.base p).qops.find? (fun o => o.id == id)

/-! ### Slack-water windows (R150 to R152) -/

/-- The unit mask of the open window, over slots 1 to 7. -/
def State.windowMask (s : State) (p : Part) : Nat := match (s.seq p).window with | some w => w.mask | none => 0

/-- A window opens, replacing one that is open. -/
def State.openWindow (s : State) (p : Part) (w : Window) : State :=
  (s.modSeq p (fun q => { q with window := some w })).put p Reg.SEQ_STAT_QUIET 1

/-- The open window closes. -/
def State.closeWindow (s : State) (p : Part) : State :=
  (s.modSeq p (fun q => { q with window := none })).put p Reg.SEQ_STAT_QUIET 0

/-- The length of `n` nominal periods at FCLK_NOM kHz in 2^-32 ns, rounded down (R150). -/
def nomPeriods (n khz : Nat) : Nat := if khz = 0 then 0 else n * 1000000 * 2 ^ 32 / khz

end Sys2Proof.Machine
end

