-- ==== Sys2Proof/Machine/StepOps.lean ====
section
/-! DEFINITION. Operations on SPM words, the ledger stream of a die, and the step lifecycle: anchors, step start, the entry to READY (R147 to R163, R276, R297, R310, R377). -/

namespace Sys2Proof.Machine

/-! ### SPM words (R371, R467) -/

/-- The bytes of SPM (R371). -/
def State.spmBytes (s : State) : Nat := s.el.lic.spmMib * 2 ^ 20

/-- `n` bytes at `a` lie in SPM. -/
def State.spmIn (s : State) (a n : Nat) : Bool := a + n ≤ s.spmBytes

/-- The word at an SPM address, as it is stored. -/
def State.spmRaw (s : State) (a : Nat) : Word := BitVec.ofNat 64 (leNat (mread s.el.spm (a - a % 8) 8))

/-- The next write of the word is the one an enabled parity flip inverts (R467). -/
def State.flips (s : State) (a : Nat) : Bool := s.bit .el Reg.TEST_PFLIP_EN && s.get .el Reg.TEST_PFLIP_ADDR / 8 == a / 8

/-- A word is written with good parity, or flipped once under R467: with MODE 0 the parity is left stale. -/
def State.spmPut (s : State) (a : Nat) (w : Word) : State :=
  let hit := s.flips a
  let stale := hit && !s.bit .el Reg.TEST_PFLIP_MODE
  let v := if hit then w ^^^ 1 else w
  let good := s.el.spmBad.filter (fun x => x != a / 8)
  let s := s.modEl (fun e => { e with spm := mwrite e.spm (a - a % 8) (leBytes 8 v.toNat), spmBad := if stale then good ++ [a / 8] else good })
  if hit then (s.put .el Reg.TEST_PFLIP_EN 0).log .el 0x0D 0xA002 0 (s.get .el Reg.TEST_PFLIP_ADDR) else s

/-- Words are written from an address on. -/
def State.spmPutWords (s : State) (a : Nat) : List Word → State
  | [] => s
  | w :: ws => (s.spmPut a w).spmPutWords (a + 8) ws

/-! ### The ledger stream (R296 to R299) -/

/-- The LSI of this die. -/
def State.lsi (s : State) : Nat := s.get .el Reg.SEQ_RUNCFG_LSI

/-- A record is emitted: it takes the next ordinal and leaves on VC3 (R299). -/
def State.emit (s : State) (r : LedgerRec) : State :=
  let o := s.el.ledgOrd
  (s.modEl (fun e => { e with ledgOrd := o + 1 })).sendUp .el (.ledger o [r])

/-- A record of this die (R296). -/
def State.ledgerRec (s : State) (kind tensor : Nat) (fp : Word) (blocks mism : Nat) (sat : Bool) : LedgerRec :=
  { step := BitVec.ofNat 64 s.stepCur, fp := fp, blocks := BitVec.ofNat 32 blocks, mism := BitVec.ofNat 32 mism, tensor := BitVec.ofNat 16 tensor,
    kind := BitVec.ofNat 8 kind, flags := if sat then 1 else 0, lsi := BitVec.ofNat 32 s.lsi }

/-- The STEP record of a step start (R297). -/
def State.stepRecord (s : State) : LedgerRec :=
  s.ledgerRec 5 0xFFF (s.reg .el (Reg.SEQ_IMGHASH_HASH 0).off) (s.get .el Reg.SEED_RKCHK_CHK) (s.get .el Reg.SEQ_RUNCFG_W) false

/-! ### Anchors (R147 to R149, R532) -/

/-- An anchor at bundle `pc` with time `t` is passed, its bundle having become the next to issue at TB0 time `a` (R147, R149); the segment count is cleared when the bundle issues. While TB0 is UNSET nothing is judged (R532). -/
def State.anchorIssue (s : State) (p : Part) (t a : Nat) : State :=
  let pc := s.pc p
  let s := (s.put p Reg.SEQ_PC_ANCHOR pc).modSeq p (fun q => { q with segNew := true })
  if s.tbState p 0 = 0 then s
  else if a ≤ t then s.put p Reg.SEQ_LATE_SLACK_MIN (min (s.get p Reg.SEQ_LATE_SLACK_MIN) ((t - a) / 2 ^ 32))
  else
    let ps := (psOf ((a - t : Nat) : Int)).toNat
    let s := (s.put p Reg.SEQ_LATE_LATE (min (2 ^ 32 - 1) ps)).log p (unitSeq p) 0x8080 pc ps
    match p with
    | .el => s.modEl (fun e => { e with hbCounts := { e.hbCounts with slipOver := e.hbCounts.slipOver + 1 } })
    | .ux => s

/-! ### Step start (R161) -/

/-- The oldest landing entry of a source. -/
def State.landOldest (s : State) (src : BitVec 20) : Option LandEntry := s.el.land.find? (fun l => l.src == src)

/-- A source that waits to be claimed is claimed when it can be (R503 to R505): its oldest entry is not of a later step (R223), no claim of it is outstanding, fewer than 16 are, and IDC_CLEAR is low. A source with no entry is forgotten (R504). -/
def State.claimTry (s : State) (src : BitVec 20) : State :=
  let p := s.el.ports
  let drop := fun (t : State) => t.modEl (fun e => { e with ports := { e.ports with reclaim := e.ports.reclaim.filter (fun x => x != src) } })
  match s.landOldest src with
  | none => drop s
  | some l =>
    if p.idcClear || decide (16 ≤ p.claims.length) || p.claims.any (fun c => c.1 == src) || decide (s.stepCur < l.step.toNat) then s
    else (drop s).modEl (fun e => { e with ports := { e.ports with claims := e.ports.claims ++ [(src, l.bytes, l.tag)] } })

/-- Every source that waits is tried, in order. -/
def State.claimPump (s : State) : State := s.el.ports.reclaim.foldl (fun t src => t.claimTry src) s

/-- A source asks to be claimed: its oldest entry has just become so, or a change notice came (R504). -/
def State.claimWant (s : State) (src : BitVec 20) : State :=
  (if s.el.ports.reclaim.contains src then s
   else s.modEl (fun e => { e with ports := { e.ports with reclaim := e.ports.reclaim ++ [src] } })).claimPump

/-- LEVEL and HWM follow the landing queue (R241). -/
def State.landShow (s : State) : State :=
  let n := s.el.land.length
  (s.put .el Reg.SYNC_LANDQ_LEVEL n).put .el Reg.SYNC_LANDQ_HWM (max n (s.get .el Reg.SYNC_LANDQ_HWM))

/-- The landing queue discards the entries of earlier steps (R223); entries that waited for this step may be claimed. -/
def State.landStale (s : State) : State :=
  let old := s.el.land.filter (fun l => l.step.toNat < s.stepCur)
  if old.isEmpty then s.claimPump
  else
    let s := s.modEl (fun e => { e with land := e.land.filter (fun l => !(decide (l.step.toNat < s.stepCur))), landFull := false })
    let s := (old.map LandEntry.src).eraseDups.foldl (fun t x => t.claimWant x) s.landShow
    old.foldl (fun t l => t.log .el 0x03 0x3032 l.src.toNat l.src.toNat) (s.put .el Reg.SYNC_STAT_LAND_STALE 1)

/-- Every stream is set to its state at step start (R276). -/
def State.streamsReset (s : State) : State :=
  let s := (List.range s.el.lic.streams).foldl (fun t n =>
    (t.setReg .el (Reg.SEED_S_CURSOR_CURSOR n).off 0xFFFFFFFFFFFFFFFF).setReg .el (Reg.SEED_S_CUR_L n).off 0) s
  (s.put .el Reg.SEED_STAT_PERM_SLIPS 0).modEl (fun e => { e with cur := [], posLogged := [], emptyLogged := [] })

/-- The repeat descriptor is written to SPM (R310). -/
def State.repeatWrite (s : State) : State :=
  let k := s.get .el Reg.CHK_REPEAT_K
  let ph := if k = 0 then 0 else s.stepCur % k
  s.spmPut (s.get .el Reg.CHK_REPEAT_ADDR) (BitVec.ofNat 64 (ph * 2 ^ 32 + k))

/-- The watchdogs of the units in a GKICK mask restart (R424). -/
def State.wdRestart (s : State) (p : Part) (mask : Nat) : State :=
  s.mod p (fun b => { b with wdCount := b.wdCount.filter (fun x => !bitOf mask x.1) })

/-- The die sleeps or wakes: both FCLK PLLs stand still until the wake ends (R416, R418). -/
def State.fclkStopped (s : State) : Bool := s.bit .el Reg.PWR_STAT_ASLEEP || s.bit .el Reg.PWR_STAT_WAKING

/-- A step starts with launch time `t`, its entry bundle next to issue at `a` (R161, R163, R202, R276, R299, R310); the counts since step start begin again (R400, R435), and the write of the repeat descriptor holds the entry bundle for one cycle (R139, log 24). A K that PROBATION brought is committed just before (R365). During a wake the entry bundle meets its anchor when the wake ends (R419). -/
def State.stepStart (s : State) (t a : Nat) : State :=
  let s := match s.el.probK with
    | some k => ((s.put .el Reg.CHK_REPEAT_K k).modEl (fun e => { e with probK := none })).log .el 0x0B 0x9001 0 1
    | none => s
  let n := (s.reg .el Reg.SEQ_STEP_NEXT.off)
  let s := (s.setReg .el Reg.SEQ_STEP_CUR_CUR.off n).setReg .el Reg.SEQ_STEP_NEXT.off (n + 1)
  let s := s.modSeq .el (fun q => { q with g := [], c := 0, acts := [], skip := false, hold := .none, anchorOk := false, tStep := t })
  let s := s.modEl (fun e => { e with stepBase := e.counters, fas := [], ledgOrd := 0, stepEvents := 0, wlostLogged := false })
  let s := ((s.landStale.streamsReset.wdRestart .el 0x7F).emit s.stepRecord).repeatWrite
  let s := (s.setReg .el 0xA020 0).setReg .el Reg.TAL_CNT_SAT_BLOCKS.off 0
  let s := ((((s.put .el Reg.SPM_CNT_WLOST 0).put .el Reg.SEQ_SLIPS_STEP 0).slip .el 1).put .el Reg.SEQ_LATE_SLACK_MIN 0xFFFFFFFF).put .el Reg.SEQ_PC_PC (s.seq .el).entry
  let s := match (s.seq .el).window with
    | some w => if w.ready then s.closeWindow .el else s
    | none => s
  let s := s.setSeqState .el 3
  if s.fclkStopped then s else s.anchorIssue .el t a

/-- A self-test or calibration action runs (R153). -/
def State.testRunning (s : State) (p : Part) : Bool := s.get p Reg.TEST_STSTAT_STATE == 2

/-- A step start starts nothing: 0x8085 with the sequencer's state (R162), reported in the next heartbeat unless a rollback is open (R348). -/
def State.stepMissed (s : State) : State :=
  let s := s.log .el 0x01 0x8085 (s.pc .el) (s.seqState .el)
  if s.bit .el Reg.HC_STAT_ROLLBACK then s else s.modEl (fun e => { e with hbCounts := { e.hbCounts with stepMissed := true } })

/-- A guard action is in progress (R426). -/
def State.guardActive (s : State) (p : Part) : Bool := s.bit p Reg.GUARD_STAT_ACTIVE

/-- An EXPELLED die takes no launch, and its LSI assignment has ended (R329, R24). -/
def State.expelled (s : State) : Bool := s.get .el Reg.HC_STAT_STATE == 6

/-- A step start starts nothing (R161, R162, R345, R429): no LSI is assigned, a rollback is open, or a guard action is in progress. -/
def State.startBarred (s : State) : Bool :=
  s.guardActive .el || s.bit .el Reg.HC_STAT_ROLLBACK || !s.bit .el Reg.SEQ_RUNCFG_LSI_VALID || s.expelled

/-- A held step start begins: 0x8081 with the delay in ps (R162); its entry bundle is a late anchor. Where nothing may start, every held one is missed. -/
def State.heldRelease (s : State) : State :=
  if s.startBarred then (s.seq .el).heldStarts.foldl (fun t _ => t.stepMissed) (s.modSeq .el (fun q => { q with heldStarts := [] })) else
  match (s.seq .el).heldStarts with
  | [] => s
  | t :: ts =>
    let now := s.tbNow .el 0
    let s := s.modSeq .el (fun q => { q with heldStarts := ts })
    (s.log .el 0x01 0x8081 (s.seq .el).entry (psOf ((now : Int) - (t : Int))).toNat).stepStart t now

/-- A step-start launch with time `t` fires, its entry bundle next to issue at `a` (R161, R162, R153, R348, R429). -/
def State.stepLaunch (s : State) (t a : Nat) : State :=
  let st := s.seqState .el
  if s.startBarred then s.stepMissed
  else if st = 2 then
    if s.testRunning .el then s.modSeq .el (fun q => { q with heldStarts := q.heldStarts ++ [t] }) else s.stepStart t a
  else if st = 3 || st = 4 then s.modSeq .el (fun q => { q with heldStarts := q.heldStarts ++ [t] })
  else s.stepMissed

/-- The time of the earliest accepted step-start launch the die holds. -/
def State.nextStart (s : State) : Option Nat :=
  (s.el.launches.filter (fun l => l.start)).foldl (fun a l => match a with | some t => some (min t l.t) | none => some l.t) none

/-- RB_READY (R346): from a member die, or one named as a spare, whose sequencer is READY once RESTORED has been written; it carries the staged STEP.NEXT. -/
def State.readyTry (s : State) : State :=
  let st := s.get .el Reg.HC_STAT_STATE
  if s.el.restored && !s.el.readySent && s.bit .el Reg.HC_STAT_ROLLBACK && s.seqState .el == 2 && (st == 3 || st == 4 || s.el.spareNamed) then
    let off := Reg.SEQ_STEP_NEXT.off
    let next := match s.el.base.staged.find? (fun e => e.1 == off) with
      | some e => e.2
      | none => s.reg .el off
    (s.modEl (fun e => { e with readySent := true })).sendUp .el (.rbReady (BitVec.ofNat 20 s.myPdi) next)
  else s

/-- The entry to READY at the end of a step or tree program (R150, R160, R162): on an Elesh a held step start begins, and where none does a window over every unit opens. -/
def State.enterReady (s : State) (p : Part) : State :=
  let s := s.setSeqState p 2
  match p with
  | .ux => s
  | .el =>
    let s := s.heldRelease
    if s.seqState .el = 2 then (s.openWindow .el { mask := 0x7F, until? := s.nextStart, ready := true, logged := false }).readyTry else s

/-- The tree program starts (R165): a READY one at its entry bundle with registers and flags 0; in another state it starts nothing, 0x8089. A tree program has no step: its counts of slips and of slack begin at its start (log 107). -/
def State.treeStart (s : State) : State :=
  if s.seqState .ux = 2 then
    let s := s.modSeq .ux (fun q => { q with g := [], c := 0, acts := [], skip := false, hold := .none, anchorOk := false, segNew := false, tStep := s.tbNow .ux 0 })
    (((s.setReg .ux Reg.SEQ_SLIPS_STEP.off 0).put .ux Reg.SEQ_LATE_SLACK_MIN 0xFFFFFFFF).put .ux Reg.SEQ_PC_PC (s.seq .ux).entry).setSeqState .ux 3
  else s.log .ux 0x41 0x8089 (s.pc .ux) (s.seqState .ux)

/-- DRAINING ends when no queued operation is left (R160). -/
def State.drainCheck (s : State) (p : Part) : State :=
  if s.seqState p == 4 && (s.base p).qops.isEmpty then s.enterReady p else s

/-- A queued operation ends with a status that adds nothing (R143); EL_TAL_LAST of a REFUSED one holds what its report left there (R268). -/
def State.endFail (s : State) (p : Part) (o : QOp) (st : Nat) : State :=
  (((s.dropOp p o.id).talLast (if st = stRefused then 0 else o.kind.redOp) o.pc st 0).qfail p o.queue o.pc st).drainCheck p

end Sys2Proof.Machine
end

