-- ==== Sys2Proof/Machine/GuardOps.lean ====
section
/-! DEFINITION. Operations of the DMA channels' abort, the step kill, the guard, its ladder and the domain resets (R345, R383 to R396, R414 to R433). -/

namespace Sys2Proof.Machine

/-! ### Ends of a DMA descriptor (R385, R395) -/

/-- A DMA channel beside its registers. -/
def State.dma (s : State) (ch : Nat) : Dma := tget Dma.zero s.el.dma ch

/-- The state with a DMA channel changed. -/
def State.modDma (s : State) (ch : Nat) (f : Dma → Dma) : State :=
  s.modEl (fun e => { e with dma := tput Dma.zero e.dma ch (f (tget Dma.zero e.dma ch)) })

/-- Bytes of die memory are written. -/
def State.memWrite (s : State) (p : Part) (a : Nat) (bs : List Byte) : State := s.mod p (fun b => { b with mem := mwrite b.mem a bs })

/-- The address of the descriptor at POS. -/
def State.dmaAddr (s : State) (ch : Nat) : Nat :=
  (s.get .el (Reg.DMA_RING_BASE_BASE ch) * 64 + 64 * s.get .el (Reg.DMA_STAT_POS ch)) % 2 ^ 64

/-- A descriptor ends: RESULT is written, then CTL with OWN = 0, and POS advances (R385, R386). -/
def State.dmaWriteBack (s : State) (ch st cause : Nat) : State :=
  let d := s.dma ch
  let a := s.dmaAddr ch
  let residue := d.total - d.written
  let s := s.memWrite .el (a + 0x38) (leBytes 8 (st * 2 ^ 60 + cause * 2 ^ 56 + residue % 2 ^ 41))
  let s := s.memWrite .el a (leBytes 4 (d.ctl.toNat % 2 ^ 31))
  let size := s.get .el (Reg.DMA_RING_SIZE_SIZE ch)
  let s := s.put .el (Reg.DMA_STAT_POS ch) (if size = 0 then 0 else (s.get .el (Reg.DMA_STAT_POS ch) + 1) % size)
  let s := (s.put .el (Reg.DMA_STAT_LAST_STATUS ch) st).put .el (Reg.DMA_STAT_LAST_CAUSE ch) cause
  let s := ((s.put .el (Reg.DMA_RESIDUE_RESIDUE ch) residue).count .el (Reg.DMA_CNT_DESC_DONE ch) 1).put .el (Reg.DMA_STAT_LEFT ch) (d.left - 1)
  s.modDma ch (fun d => { d with left := d.left - 1, fetched := false })

/-- The interrupt of a channel (R397, R508): the level of DMA_IRQ. -/
def State.dmaIrq (s : State) (ch : Nat) : Bool :=
  (s.bit .el (Reg.DMA_STAT_HALF ch) && s.bit .el (Reg.DMA_IRQEN_HALF ch)) || (s.bit .el (Reg.DMA_STAT_FULL ch) && s.bit .el (Reg.DMA_IRQEN_FULL ch))
    || (s.bit .el (Reg.DMA_STAT_HALT ch) && s.bit .el (Reg.DMA_IRQEN_HALT ch)) || (s.bit .el (Reg.DMA_STAT_ABORT ch) && s.bit .el (Reg.DMA_IRQEN_ABORT ch))

/-- A start ends with a status that adds nothing; the DMAGO that made it completes so. -/
def State.dmaEndFail (s : State) (ch st : Nat) : State :=
  let q := (s.dma ch).qid
  let s := ((s.put .el (Reg.DMA_STAT_STATE ch) 0).put .el (Reg.DMA_STAT_LEFT ch) 0).modDma ch (fun _ => Dma.zero)
  match q with
  | some id => match s.findOp .el id with
    | some o => s.endFail .el o st
    | none => s
  | none => s

/-- The end of an abort or of a disable (R395, R396): STAT.ABORT, 0x7012 with the residue; a descriptor in progress is written back. -/
def State.dmaAborted (s : State) (ch : Nat) : State :=
  let d := s.dma ch
  let pos := s.get .el (Reg.DMA_STAT_POS ch)
  let residue := if d.fetched then d.total - d.written else 0
  let s := if d.fetched then s.dmaWriteBack ch d.endSt (if d.busError then 1 else 0) else s
  ((s.put .el (Reg.DMA_STAT_ABORT ch) 1).logW .el 0x07 0x7012 ch pos residue).dmaEndFail ch d.endSt

/-- An abort (R395): a RUNNING channel lets its outstanding requests finish in ABORTING, or ends at once between two descriptors; an IDLE or HALTED one is left alone. -/
def State.dmaAbort (s : State) (ch st : Nat) : State :=
  let c := s.get .el (Reg.DMA_STAT_STATE ch)
  if c = 1 then
    let s := s.modDma ch (fun d => { d with endSt := st })
    if (s.dma ch).fetched then s.put .el (Reg.DMA_STAT_STATE ch) 2 else s.dmaAborted ch
  else if c = 2 && st == stDisabled then s.modDma ch (fun d => { d with endSt := st })
  else s

/-! ### The step kill (R345, R429) -/

/-- A sequencer enters FAULT and what its bundle would have done is lost. -/
def State.toFault (s : State) (p : Part) : State :=
  (s.setSeqState p 5).modSeq p (fun q => { q with acts := [], skip := false, hold := .none, anchorOk := false })

/-- Held step starts are cancelled (R162). -/
def State.cancelHeld (s : State) : State :=
  let n := (s.seq .el).heldStarts.length
  (List.range n).foldl (fun t _ => t.stepMissed) (s.modSeq .el (fun q => { q with heldStarts := [] }))

/-- The step kill: a RUNNING or DRAINING sequencer enters FAULT, every queued operation completes ABORTED, running channels abort, every ARMED watch receives KILL, and a held step start is cancelled. -/
def State.stepKill (s : State) : State :=
  let st := s.seqState .el
  let s := if st = 3 || st = 4 then s.toFault .el else s
  let s := (List.range s.el.lic.dmaCh).foldl (fun t c => (t.modDma c (fun d => { d with qid := none })).dmaAbort c stAborted) s
  let ops := s.el.base.qops
  let s := s.modEl (fun e => { e with base := { e.base with qops := [] } })
  let s := ops.foldl (fun t o => (t.talLast o.kind.redOp o.pc stAborted 0).qfail .el o.queue o.pc stAborted) s
  let s := s.put .el Reg.TAL_STAT_BUSY 0
  s.watchKill.cancelHeld

/-! ### Domain resets (R414, R415, R218, R433) -/

/-- The domain of an Elesh register that a domain reset returns to its reset value; STEP_CUR and the suspect entries lie in AON, the SEC unit's provisioning is kept (log 19). -/
def elDomain (off : Nat) : Nat :=
  if off = 0x2020 || (0x6080 ≤ off && off < 0x6100) then 0
  else match off / 0x1000 with
    | 2 => 1 | 11 => 1 | 13 => 1 | 4 => 2 | 5 => 3 | 6 => 4 | 7 => 4 | 8 => 5 | _ => 0

/-- A register after a domain reset: its reset word with the committed value of every ST field (R415). -/
def domainWord (off : Nat) (w : Word) : Word :=
  match elRow off with
  | none => w
  | some r => r.fields.foldl (fun v f => if f.acc = .st then fset v f.hi f.lo (fget w f.hi f.lo) else v) r.reset

/-- A domain reset of an Elesh: registers, and what the domain holds beside them. Staged values of the domain are lost; with the manifest unit's domain all of them are. KILL wakes on their way still leave (R215). -/
def State.elDomainReset (s : State) (d : Nat) : State :=
  let s := s.modEl (fun e => { e with base := { e.base with
    regs := e.base.regs.filterMap (fun x =>
      if elDomain x.1 = d then (let w := domainWord x.1 x.2; if w = elResetWord x.1 then none else some (x.1, w)) else some x)
    staged := if d = 1 then [] else e.base.staged.filter (fun x => elDomain x.1 != d) } })
  match d with
  | 1 => (s.modSeq .el (fun q => { Seq.zero with tStep := q.tStep })).modEl (fun e => { e with base := { e.base with manAt := none, hallArm := false } })
  | 2 => s.cntClear.modEl (fun e => { e with watches := [], wakeQ := e.wakeQ.filter (fun w => w.kind == 3), bars := [], land := [], landSeen := [], landFull := false, dldLogged := false, ports := { e.ports with idcClear := true, reclaim := [] } })
  | 4 => s.modEl (fun e => { e with fas := [], cur := [], posLogged := [], emptyLogged := [] })
  | 5 => s.modEl (fun e => { e with dma := [], spm := [], spmBad := [] })
  | _ => s

/-- The Elesh domain of a unit (R423). -/
def elUnitDomain : Nat → Nat
  | 1 => 1 | 2 => 1 | 3 => 2 | 4 => 3 | 5 => 4 | 6 => 4 | 7 => 5 | 8 => 1 | _ => 0

/-- The Uhloux domain of a unit (R420, R433). -/
def uxUnitDomain (u : Nat) : Nat :=
  if u = 0x43 then 19 else if u = 0x44 then 20
  else if 0x49 ≤ u && u ≤ 0x4B then 16 + (u - 0x49)
  else if 0x50 ≤ u && u ≤ 0x57 then 3 + (u - 0x50)
  else if 0x58 ≤ u && u ≤ 0x5B then 11 + (u - 0x58) else 15

/-- A Uhloux register that a warm reset leaves: AON and TIME (time bases, references, guard, power, clocks) and the chip's identity. -/
def uxKept (off : Nat) : Bool :=
  off < 0x40000 && (off / 0x1000 == 1 || off / 0x1000 == 3 || off / 0x1000 == 9 || off / 0x1000 == 10 || off / 0x1000 == 0 || off / 0x1000 == 12)

/-- The PCIe endpoint trains (R437): at one of its rates and widths, which depends on the other end and is free (log 115). -/
def State.pcieTrain (s : State) : State :=
  let d := s.draw
  let n := d.1.toNat
  let r : PcieRate := match n % 5 with | 0 => .gt32 | 1 => .gt16 | 2 => .gt8 | 3 => .gt5 | _ => .gt2half
  let w : PcieWidth := match n / 8 % 3 with | 0 => .x4 | 1 => .x2 | _ => .x1
  d.2.modUx (fun u => { u with pcie := some { rate := r, width := w } })

/-- A warm reset (R433): every domain except AON and TIME; the lanes rejoin under R125; what HBM held is lost. -/
def State.warmReset (s : State) : State :=
  let s := (List.range 160).foldl (fun t x => if t.laneUp .ux x then t.uxLaneLoss x else t) s
  let u := s.ux
  { s with ux := { u with
      base := { u.base with
        regs := u.base.regs.filter (fun x => uxKept x.1), staged := [], lanes := [], seq := Seq.zero, qops := [], manAt := none, hallArm := false, rbAt := none, mem := [] }
      tc := [], tcSat := [], bars := [], pending := [], slots := [], held := [], groups := [], chainD3 := [], chainLog := [], lastSeal := 0xFFFFFFFFFFFFFFFF, hallLsis := [], accepted := [],
      lockPri := [], lockShd := [], lockBlock := none, lockSync := false, passVotes := [], lseals := [], members := [], lsiOf := [], lsiPort := [], relayFrom := [], obs := [],
      proposals := [], rollback := none, expulsions := [], healthKind := [], vaults := [],
      attested := [], votesOut := [], deadOf := [], assigned := [], paths := [], hall := none, nonces := [], awaySent := false, pcie := none } }

/-! ### Power states (R435, R436): 0 OFF, 1 RET or SR, 2 ON, 3 RESET -/

/-- The DSTATE field of a part. -/
def dstateFld : Part → Fld
  | .el => Reg.PWR_STAT_DSTATE
  | .ux => Reg.UX_PWR_STAT_DSTATE

/-- The state of a power domain. -/
def State.dstate (s : State) (p : Part) (d : Nat) : Nat := s.get p (dstateFld p) / 4 ^ d % 4

/-- The state of a power domain replaced. -/
def State.setDstate (s : State) (p : Part) (d v : Nat) : State :=
  let w := s.get p (dstateFld p)
  s.put p (dstateFld p) (w / 4 ^ (d + 1) * 4 ^ (d + 1) + v % 4 * 4 ^ d + w % 4 ^ d)

/-! ### The guard (R422 to R433) -/

/-- The state with a guard changed. -/
def State.modGuard (s : State) (p : Part) (f : Guard → Guard) : State := s.mod p (fun b => { b with guard := f b.guard })

/-- A guard. -/
def State.guard (s : State) (p : Part) : Guard := (s.base p).guard

/-- The rollback request that a guard action held is asserted (R429), once the ladder has succeeded or FATAL_CLR was written. -/
def State.rbRequest (s : State) (p : Part) : State :=
  if p == .el && (s.guard .el).rbHeld && !s.bit .el Reg.GUARD_STAT_DIE_FATAL then
    (s.modGuard .el (fun g => { g with rbHeld := false })).modEl (fun e => { e with ports := { e.ports with rollbackReq := true } })
  else s

/-- A guard action ends: issue is no longer stopped. -/
def State.guardEnd (s : State) (p : Part) : State :=
  (((s.put p Reg.GUARD_STAT_ACTIVE 0).modGuard p (fun g => { g with phase := .idle, done := [] })).modSeq p (fun q => { q with stopIssue := false })).rbRequest p

/-- The FAIL a guard action sends for STEP_CUR, and 0x5010 (R426). -/
def State.guardFail (s : State) : State :=
  (s.sendUp .el (.sealMsg 0x31 (BitVec.ofNat 20 s.lsi) (BitVec.ofNat 64 s.stepCur))).log .el 0x0A 0x5010 (s.pc .el) s.stepCur

/-- The domains a warm reset resets: every one except AON and TIME (R433). -/
def uxWarmDomains : List Nat := 1 :: (List.range 21).map (fun i => i + 3)

/-- The queue of a Uhloux unit (R433). -/
def unitQueue (u : Nat) : Option QueueId := if u = 0x41 then some .tree else if u = 0x44 then some .vault else if u = 0x43 then some .ledg else none

/-- A ladder stage starts (R427, R433): stages 1 and 2 with the culprit as OBJECT. No stage resets AON. Where the SYNC domain is reset, every ARMED watch receives KILL first (R215). -/
def State.stageStart (s : State) (p : Part) (n : Nat) : State :=
  let g := s.guard p
  let s := (s.put p Reg.GUARD_STAT_STAGE n).modGuard p (fun g => { g with phase := .stage n, done := [] })
  match p with
  | .el =>
    if n = 1 then s.log .el 0x0A 0x8022 g.culprit g.trigger
    else if n = 2 then
      let d := elUnitDomain g.culprit
      let s := s.log .el 0x0A 0x8023 g.culprit d
      if d = 0 then s else ((if d = 2 then s.watchKill else s).elDomainReset d).setDstate .el d 3
    else
      let s := ((s.log .el 0x0A 0x8024 0 g.trigger).put .el Reg.GUARD_STAT_MEM_RETAIN 1).put .el Reg.GUARD_STAT_DIE_FATAL 1
      ([1, 2, 3, 4, 5] : List Nat).foldl (fun t d => (t.elDomainReset d).setDstate .el d 3) s.watchKill
  | .ux =>
    if n = 1 then
      (s.log .ux 0x46 0x8022 g.culprit g.trigger).mod .ux (fun b => { b with qops := b.qops.filter (fun o => some o.queue != unitQueue g.culprit) })
    else if n = 2 then
      let d := uxUnitDomain g.culprit
      let s := (s.log .ux 0x46 0x8023 g.culprit d).setDstate .ux d 3
      if 3 ≤ d && d ≤ 10 then s.modUx (fun u => { u with vaults := u.vaults.map (fun v => (v.1, { VGen.zero with seen := true })) }) else s
    else uxWarmDomains.foldl (fun t d => t.setDstate .ux d 3) (s.log .ux 0x46 0x8030 g.culprit g.trigger).warmReset

/-- What follows the crash dump (R426): with FAULT_HOLD in MODE TEST the action is held; else the step kill and the ladder from the trigger's first stage. A FCLK_LOSS meanwhile moves the action to stage 3 (R429). -/
def State.guardProceed (s : State) (p : Part) : State :=
  let g := s.guard p
  if p == .el && s.runMode == 2 && s.bit .el Reg.GUARD_CTRL_FAULT_HOLD then s.modGuard p (fun g => { g with phase := .heldFault })
  else
    let s := match p with
      | .el => s.stepKill
      | .ux => s
    let first := if g.fclkLoss then 3 else g.firstStage
    if first = 0 then s.guardEnd p else s.stageStart p first

/-- A guard trigger (R422, R426, R432). `ran` says that the sequencer ran, or left RUNNING or DRAINING in the event that raised the trigger. -/
def State.guardTrigger (s : State) (p : Part) (code unit first : Nat) (ran : Bool) : State :=
  if s.guardActive p then
    let s := s.count p Reg.GUARD_STAT_LATER 1
    if code = 6 then
      let s := s.modGuard p (fun g => { g with fclkLoss := true })
      match (s.guard p).phase with
      | .stage n => if n < 3 then s.stageStart p 3 else s
      | _ => s
    else s
  else
    let s := (((s.put p Reg.GUARD_STAT_ACTIVE 1).put p Reg.GUARD_STAT_TRIGGER code).put p Reg.GUARD_STAT_UNIT unit).put p Reg.GUARD_STAT_STAGE 0
    let s := s.modGuard p (fun g => { g with trigger := code, culprit := unit, firstStage := first, fclkLoss := code == 6, phase := .dumping })
    let s := s.modSeq p (fun q => { q with stopIssue := true })
    let st := s.seqState p
    let s := if p == .el && (ran || st == 3 || st == 4) then s.guardFail else s
    if s.bit p Reg.GUARD_STAT_DUMP_VALID && !s.bit p Reg.GUARD_CTRL_DUMP_OVERWRITE then
      ((s.count p Reg.GUARD_STAT_DUMP_LOST 1).log p (unitGuard p) 0x8026 unit code).guardProceed p
    else
      let d : Dump :=
        { trigger := code, unit := unit, hxt := s.tbNow p 0, step := (if p == .el then BitVec.ofNat 64 s.stepCur else 0),
          pc := (s.reg p Reg.SEQ_PC_PC.off).toNat % 2 ^ 32, bad := [], id := s.draws, done := false }
      let s : State := { s with draws := s.draws + 1 }
      (s.put p Reg.GUARD_STAT_DUMP_BUSY 1).modGuard p (fun g => { g with dump := some d })

/-- A RUNNING sequencer enters FAULT by its program (R172, R177, R209, R138), which is trigger PROGRAM. -/
def State.programFault (s : State) (p : Part) : State :=
  if s.seqState p = 3 then (s.toFault p).guardTrigger p 3 0 0 true else s

/-! ### The crash dump (R423, R430, R431) -/

/-- The sections of a dump: unit and bytes (R423). The lengths of Uhloux sections stand in no rule. -/
def dumpSections (l : Licence) : Part → List (Nat × Nat)
  | .el => [(1, 8192), (2, 2048), (3, 8 * l.cores * l.cntPerCore + 16 * l.watches + 18432), (4, 4096), (5, 4096), (6, 4096), (7, 8192), (8, 2048), (9, 4096), (10, 2048)]
  | .ux => []

/-- The units dumped on a Uhloux (R433). -/
def uxDumpUnits : List Nat := [0x41, 0x42, 0x43, 0x44, 0x48, 0x49, 0x4A, 0x4B, 0x50, 0x51, 0x52, 0x53, 0x54, 0x55, 0x56, 0x57, 0x58, 0x59, 0x5A, 0x5B]

/-- The units whose section is NOT_DUMPED, as a mask: bit u - 1, or u - 0x41 on Uhloux (R431, R433). -/
def Dump.mask (d : Dump) (p : Part) : Nat :=
  (d.bad.map (fun b => 2 ^ (b.1 - (match p with | .el => 1 | .ux => 0x41)))).sum

/-- The length of a dump in bytes; free on Uhloux. -/
def Dump.bytes (d : Dump) (l : Licence) : Part → Nat
  | .el => 64 + ((dumpSections l .el).map (fun x => 16 + x.2)).sum
  | .ux => (Config.dumpWord d.id (2 ^ 32)).toNat % 2 ^ 20

/-- The dump header (R431, R433). -/
def Dump.header (d : Dump) (l : Licence) (p : Part) : List Byte :=
  ([0x48, 0x58, 0x44, 0x31] : List Byte) ++ leBytes 1 d.trigger ++ leBytes 1 d.unit ++ leBytes 2 (match p with | .el => (dumpSections l .el).length | .ux => uxDumpUnits.length)
    ++ hxtBytes d.hxt ++ leBytes 8 d.step.toNat ++ leBytes 4 d.pc ++ leBytes 4 (d.bytes l p)
    ++ (match p with | .el => leBytes 2 (d.mask .el) ++ List.replicate 22 (0 : Byte) | .ux => leBytes 8 (d.mask .ux) ++ List.replicate 16 (0 : Byte))

/-- The first bad word of a unit's section. -/
def Dump.firstBad (d : Dump) (u : Nat) : Option Nat := (d.bad.find? (fun b => b.1 == u)).map Prod.snd

/-- Word `k` of a section, its header included; `i` is its place in the dump. -/
def Dump.sectionWord (d : Dump) (u len k i : Nat) : Word :=
  match k with
  | 0 => BitVec.ofNat 64 (u + (if (d.firstBad u).isSome then 2 ^ 16 else 0) + len * 2 ^ 32)
  | 1 => BitVec.ofNat 64 ((d.firstBad u).getD (2 ^ 32 - 1))
  | k + 2 => match d.firstBad u with
    | some w => if w ≤ k then BitVec.ofNat 64 (0xDEAD0000 + u) else Config.dumpWord d.id i
    | none => Config.dumpWord d.id i

/-- Word `k` after the header, in the sections that follow. -/
def Dump.bodyWord (d : Dump) : List (Nat × Nat) → Nat → Nat → Word
  | [], _, _ => 0
  | (u, len) :: r, k, i => if k < 2 + len / 8 then d.sectionWord u len k i else bodyWord d r (k - (2 + len / 8)) i

/-- A word of a complete dump (R431). -/
def Dump.word (d : Dump) (l : Licence) (p : Part) (i : Nat) : Word :=
  if i < 8 then BitVec.ofNat 64 (leNat (((d.header l p).drop (8 * i)).take 8))
  else match p with
    | .el => d.bodyWord (dumpSections l .el) (i - 8) i
    | .ux => if i < d.bytes l .ux / 8 then Config.dumpWord d.id i else 0

/-- A word of dump RAM: 0 where no complete dump stands (log 47). -/
def State.dumpAt (s : State) (p : Part) (i : Nat) : Word :=
  match (s.guard p).dump with
  | some d => if d.done then d.word s.el.lic p i else 0
  | none => 0

/-! ### Reads of SPM (R379, R380) -/

/-- A word that stays bad after both replays (R380), read for bundle `obj` (R399): PERSIST, the port and address, 0x7002, and the guard's trigger SPM_PERSIST. -/
def State.spmPersist (s : State) (port a obj : Nat) : State :=
  let s := ((s.put .el Reg.SPM_STAT_PERSIST 1).put .el Reg.SPM_PERR_PORT port).put .el Reg.SPM_PERR_ADDR a
  (s.log .el 0x07 0x7002 obj (port * 2 ^ 60 + a)).guardTrigger .el 5 7 2 false

/-- A word read through a port: a word with bad parity reads 0 and is persistent. -/
def State.spmRead (s : State) (port a obj : Nat) : Word × State :=
  if s.el.spmBad.contains (a / 8) then (0, s.spmPersist port (a - a % 8) obj) else (s.spmRaw a, s)

/-- A read that succeeds on replay (R379). -/
def State.spmReplay (s : State) (port a obj : Nat) : State :=
  let s := (s.count .el Reg.SPM_CNT_REPLAYS 1).put .el Reg.SPM_STAT_REPLAY 1
  (s.log .el 0x07 0x7001 obj (port * 2 ^ 60 + a)).modEl (fun e => { e with hbCounts := { e.hbCounts with parity := e.hbCounts.parity + 1 } })

/-- Bytes `lo` to `hi - 1` of SPM read through a port: every word with bad parity reads 0 and is persistent. -/
def State.spmReadBytes (s : State) (port a n obj : Nat) : List Byte × State :=
  let bad := s.el.spmBad.filter (fun w => a / 8 ≤ w && w < ceilDiv (a + n) 8)
  let bs := (List.range n).map (fun i => if bad.contains ((a + i) / 8) then (0 : Byte) else mget s.el.spm (a + i))
  (bs, bad.foldl (fun t w => t.spmPersist port (8 * w) obj) s)

/-- Bytes are written to SPM from `a` on: whole words are written with good parity; a part of a word with bad parity is dropped, and the read part of its read-modify-write is persistent (R380). -/
def State.spmPutBytes (s : State) (port a : Nat) (bs : List Byte) (obj : Nat) : State :=
  let n := bs.length
  let w0 := a / 8
  let w1 := ceilDiv (a + n) 8
  (List.range (w1 - w0)).foldl (fun t i =>
    let w := w0 + i
    let part := decide (8 * w < a) || decide (a + n < 8 * w + 8)
    if part && t.el.spmBad.contains w then t.spmPersist port (8 * w) obj
    else
      let old := leBytes 8 (t.spmRaw (8 * w)).toNat
      let new := (List.range 8).map (fun j => if a ≤ 8 * w + j && 8 * w + j < a + n then bs.getD (8 * w + j - a) 0 else old.getD j 0)
      t.spmPut (8 * w) (BitVec.ofNat 64 (leNat new))) s

end Sys2Proof.Machine
end

