-- ==== Sys2Proof/Machine/SeedOps.lean ====
section
/-! DEFINITION. The generator, derived keys, sample streams and the sample permutation of the SEED unit (R269 to R281). -/

namespace Sys2Proof.Machine

/-! ### Philox4x32-10 (R272) -/

/-- The low 32 bits of a number. -/
def lo32 (n : Nat) : Nat := n % 2 ^ 32

/-- A counter or an output of the generator, words 0 to 3. -/
structure Quad where
  c0 : Nat
  c1 : Nat
  c2 : Nat
  c3 : Nat
  deriving DecidableEq, Repr

/-- One round under a round key. -/
def philoxRound (q : Quad) (k0 k1 : Nat) : Quad :=
  let p0 := 0xD2511F53 * q.c0
  let p1 := 0xCD9E8D57 * q.c2
  { c0 := (p1 / 2 ^ 32) ^^^ q.c1 ^^^ k0, c1 := lo32 p1, c2 := (p0 / 2 ^ 32) ^^^ q.c3 ^^^ k1, c3 := lo32 p0 }

/-- Rounds with the key schedule of R272. -/
def philoxRounds : Nat → Quad → Nat → Nat → Quad
  | 0, q, _, _ => q
  | n + 1, q, k0, k1 => philoxRounds n (philoxRound q k0 k1) (lo32 (k0 + 0x9E3779B9)) (lo32 (k1 + 0xBB67AE85))

/-- Philox4x32-10 of a counter under a key. -/
def philox (q : Quad) (k0 k1 : Nat) : Quad := philoxRounds 10 q k0 k1

/-- The committed run key, RK[63:0] and RK[127:64] (R269). -/
def State.runKey (s : State) : Nat × Nat := ((s.reg .el Reg.SEED_RUNKEY0_RK_LO.off).toNat, (s.reg .el Reg.SEED_RUNKEY1_RK_HI.off).toNat)

/-- The derivation of R270 for a purpose. -/
def deriveQuad (lo hi purpose : Nat) : Quad :=
  philox { c0 := purpose % 2 ^ 16, c1 := 0x53454544, c2 := lo32 hi, c3 := hi / 2 ^ 32 } (lo32 lo) (lo / 2 ^ 32)

/-- A derivation under the committed run key. -/
def State.derive (s : State) (purpose : Nat) : Quad := deriveQuad s.runKey.1 s.runKey.2 purpose

/-- A commit of the run key (R270, R285): RKCHK is recomputed and valid, and 0x4022 is logged where the commit changed the key. -/
def State.runKeyCommit (s : State) (changed : Bool) : State :=
  let c := (s.derive 0xFF00).c0
  let s := (s.put .el Reg.SEED_RKCHK_VALID 1).put .el Reg.SEED_RKCHK_CHK c
  if changed then s.log .el 0x06 0x4022 0 c else s

/-- The counter of R273: logical sample index, position and step. -/
def drawCounter (l pos step : Nat) : Quad :=
  { c0 := pos % 2 ^ 24 + l % 256 * 2 ^ 24, c1 := l % 2 ^ 40 / 256, c2 := lo32 step, c3 := step / 2 ^ 32 % 2 ^ 32 }

/-- The 128 bits drawn for a purpose, sample, position and the current step (R273). -/
def State.drawQuad (s : State) (purpose l pos : Nat) : Quad :=
  let k := s.derive purpose
  philox (drawCounter l pos s.stepCur) k.c0 k.c1

/-- The first word of a result, as R274 places it in G[d]. -/
def Quad.wordA (q : Quad) : Word := BitVec.ofNat 64 (q.c1 * 2 ^ 32 + q.c0)

/-- The second word of a result, as R274 places it in G[d+1]. -/
def Quad.wordB (q : Quad) : Word := BitVec.ofNat 64 (q.c3 * 2 ^ 32 + q.c2)

/-- The fingerprint key of R294 as 16 bytes. -/
def State.fpKey (s : State) : List Byte :=
  let q := s.derive 0xFF01
  leBytes 8 q.wordA.toNat ++ leBytes 8 q.wordB.toNat

/-! ### The sample permutation (R279) -/

/-- The smallest even `b` from 2 on with 2^b at least `n`; `fuel` steps. -/
def permBits (n : Nat) : Nat → Nat → Nat
  | 0, b => b
  | f + 1, b => if n ≤ 2 ^ b then b else permBits n f (b + 2)

/-- One evaluation of the Feistel network on [0, 2^(2h)). -/
def feistel (k0 k1 e seed h x : Nat) : Nat :=
  let f := fun (r : Nat) (v : Nat) => (philox { c0 := v, c1 := r, c2 := lo32 e, c3 := seed } k0 k1).c0 % 2 ^ h
  let go := fun (a : Nat × Nat) (r : Nat) => (a.2, a.1 ^^^ f r a.2)
  let a := ([0, 1, 2, 3] : List Nat).foldl go (x / 2 ^ h, x % 2 ^ h)
  a.1 * 2 ^ h + a.2

/-- Cycle-walking from a value until one lies below `n`. The walk of a bijection on 2^b points returns within 2^b evaluations, the fuel given. -/
def permWalk (step : Nat → Nat) (n : Nat) : Nat → Nat → Nat
  | 0, x => x
  | f + 1, x => if x < n then x else permWalk step n f (step x)

/-- How many evaluations of the network the walk takes. -/
def permEvals (step : Nat → Nat) (n : Nat) : Nat → Nat → Nat
  | 0, _ => 0
  | f + 1, x => if x < n then 0 else 1 + permEvals step n f (step x)

/-- perm(s, e, j) of R279. -/
def permIndex (k0 k1 n e seed j : Nat) : Nat :=
  let b := permBits n 20 2
  let st := feistel k0 k1 e seed (b / 2)
  permWalk st n (2 ^ b) (st j)

/-! ### Streams (R275 to R278) -/

/-- The micro-batch u of a stream at a cursor (R277), an unsigned 64-bit number. -/
def State.streamUnit (s : State) (n k : Nat) : Nat :=
  let i := k / s.get .el (Reg.SEED_S_CFG0_B n)
  if s.bit .el (Reg.SEED_S_CFG1_ASSIGN n) then (s.get .el Reg.SEED_DP_RANK + i * s.get .el Reg.SEQ_RUNCFG_W) % 2 ^ 64 else i

/-- The logical sample index of a stream at a cursor (R277); none where the map gives all-ones. -/
def State.streamIndex (s : State) (n k : Nat) : Option Nat :=
  let nn := s.get .el (Reg.SEED_S_CFG0_N n)
  let bb := s.get .el (Reg.SEED_S_CFG0_B n)
  let uu := s.get .el (Reg.SEED_S_CFG1_U n)
  if nn = 0 then none
  else
    let u := s.streamUnit n k
    if uu ≤ u then none
    else
      let g := (s.stepCur * uu * bb + u * bb + k % bb) % 2 ^ 64
      let key := s.derive 0xFFFF
      some (permIndex key.c0 key.c1 nn (g / nn % 2 ^ 32) (s.get .el (Reg.SEED_S_CFG1_SEED n)) (g % nn))

/-- J of R280: the evaluations the index at a cursor needs; 0 where the map gives all-ones. -/
def State.streamEvals (s : State) (n k : Nat) : Nat :=
  let nn := s.get .el (Reg.SEED_S_CFG0_N n)
  let bb := s.get .el (Reg.SEED_S_CFG0_B n)
  let uu := s.get .el (Reg.SEED_S_CFG1_U n)
  let u := s.streamUnit n k
  if nn = 0 || uu ≤ u then 0
  else
    let g := (s.stepCur * uu * bb + u * bb + k % bb) % 2 ^ 64
    let key := s.derive 0xFFFF
    let b := permBits nn 20 2
    let st := feistel key.c0 key.c1 (g / nn % 2 ^ 32) (s.get .el (Reg.SEED_S_CFG1_SEED n)) (b / 2)
    1 + permEvals st nn (2 ^ b) (st (g % nn))

/-- The stretch of R280 until an index is ready: as many slips as a free value up to 12 + J says, since it depends on the generator cycles left free (log 2). -/
def State.permStretch (s : State) (n k : Nat) : State :=
  let d := s.draw
  let m := d.1.toNat % (13 + s.streamEvals n k)
  (d.2.slip .el m).count .el Reg.SEED_STAT_PERM_SLIPS m

/-- The cursor of a stream. -/
def State.cursor (s : State) (n : Nat) : Word := s.reg .el (Reg.SEED_S_CURSOR_CURSOR n).off

/-- The position of a stream. -/
def State.streamPos (s : State) (n : Nat) : Nat := s.get .el (Reg.SEED_S_CUR_POS n)

/-- The current sample of a stream: kept as 1 + L, 0 while none. -/
def State.curSample (s : State) (n : Nat) : Option Nat :=
  match tget 0 s.el.cur n with
  | 0 => none
  | l + 1 => some l

/-- The state with a stream at a cursor and position; the sample there is the current one (R277, R278). -/
def State.setStream (s : State) (n : Nat) (cursor : Word) (pos : Nat) : State :=
  let l := s.streamIndex n cursor.toNat
  let s := s.setReg .el (Reg.SEED_S_CURSOR_CURSOR n).off cursor
  let s := (s.put .el (Reg.SEED_S_CUR_L n) (l.getD 0)).put .el (Reg.SEED_S_CUR_POS n) pos
  s.modEl (fun e => { e with cur := tput 0 e.cur n (match l with | some v => v + 1 | none => 0) })

end Sys2Proof.Machine
end

