-- ==== Sys2Proof/Machine/QueueOps.lean ====
section
/-! DEFINITION. The increments of a cycle with their pair checks and watches, the end of a queued operation, and the marking of check failures and suspects (R143, R171, R209, R305, R312, R313). -/

namespace Sys2Proof.Machine

/-! ### Increments (R171, R203, R209, R211) -/

/-- A pair of the loaded image is checked (R209): the state with its event, and whether it faulted. OBJECT names the producer (log 17). -/
def State.pairTry (s : State) (pr : Pair) : State × Bool :=
  let a := s.cntAbs (cntKey pr.core pr.prod)
  let b := s.cntAbs (cntKey pr.core pr.cons)
  let obj := cntObj (cntKey pr.core pr.prod)
  if a < b then ((s.put .el Reg.SYNC_STAT_PAIR_UNDER 1).logI .el 0x03 0x3002 obj ((a : Int) - (b : Int)), true)
  else if pr.cap < a - b then ((s.put .el Reg.SYNC_STAT_PAIR_OVER 1).log .el 0x03 0x3003 obj (a - b), true)
  else (s, false)

/-- Every pair with a changed counter is checked. -/
def State.pairCheck (s : State) (keys : List Nat) : State × Bool :=
  ((s.seq .el).pairs.filter (fun pr => keys.contains (cntKey pr.core pr.prod) || keys.contains (cntKey pr.core pr.cons))).foldl
    (fun a pr => let r := a.1.pairTry pr; (r.1, a.2 || r.2)) (s, false)

/-- The increments of one cycle of an Elesh take effect together: summed, saturated, pairs checked, watches compared; and whether a pair faulted. -/
def State.incRaw (s : State) (incs : List (Nat × Nat)) : State × Bool :=
  let sums := (sumIncs incs).filter (fun e => e.2 != 0)
  let keys := sums.map Prod.fst
  let r := (sums.foldl (fun t e => t.cntAdd e.1 e.2) s).pairCheck keys
  (r.1.watchScan keys, r.2)

/-- The increments of one cycle; a pair fault is a fault of a RUNNING sequencer (R209). -/
def State.incAll (s : State) (incs : List (Nat × Nat)) : State :=
  let r := s.incRaw incs
  if r.2 then r.1.programFault .el else r.1

/-- The increments of one cycle on a part: keys of SC on Elesh, TC indices on Uhloux. -/
def State.incPart (s : State) (p : Part) (incs : List (Nat × Nat)) : State :=
  match p with
  | .el => s.incAll incs
  | .ux => (sumIncs incs).foldl (fun t e => t.tcAdd e.1 e.2) s

/-! ### The end of a queued operation (R143) -/

/-- The counter key a queued operation names. -/
def QOp.key (o : QOp) : Nat := match queuePart o.queue with | .el => cntKey o.core o.k | .ux => o.core

/-- A queued operation ends with a status: OK, SAT, NAN and MISMATCH add its amount once; any other is recorded (R143). DRAINING may end. -/
def State.endOp (s : State) (o : QOp) (st : Nat) : State :=
  let p := queuePart o.queue
  if stAdds st then ((s.dropOp p o.id).incPart p [(o.key, o.amt)]).drainCheck p else s.endFail p o st

/-- Several operations of a part end OK in one cycle: their amounts join one sum (R171). Commands that follow one another act in cycles of their own (log 53). -/
def State.endAll (s : State) (p : Part) (os : List QOp) : State :=
  ((os.foldl (fun t o => t.dropOp p o.id) s).incPart p (os.map (fun o => (o.key, o.amt)))).drainCheck p

/-! ### Check failures (R305) and suspects (R312, R313) -/

/-- A check failure is marked: the first since the last commit of NEXT sets FAILED, records the step, sends FAIL and logs 0x5010. -/
def State.checkFail (s : State) (pc : Nat) : State :=
  if s.bit .el Reg.CHK_STAT_FAILED then s
  else
    let s := (s.put .el Reg.CHK_STAT_FAILED 1).setReg .el Reg.CHK_FAILSTEP_STEP.off (BitVec.ofNat 64 s.stepCur)
    (s.sendUp .el (.sealMsg 0x31 (BitVec.ofNat 20 s.lsi) (BitVec.ofNat 64 s.stepCur))).log .el 0x05 0x5010 pc s.stepCur

/-- The open suspect entry of an operation: same step, bundle and operation. -/
def State.suspAt (s : State) (pc op : Nat) : Option Nat :=
  ([0, 1, 2, 3] : List Nat).find? (fun i => s.bit .el (Reg.CHK_SUSP_INFO_OPEN i) && s.get .el (Reg.CHK_SUSP_INFO_PC i) == pc
    && s.get .el (Reg.CHK_SUSP_INFO_OP i) == op && (s.reg .el (Reg.CHK_SUSP_STEP_STEP i).off).toNat == s.stepCur)

/-- A suspect entry opens (R312); with four open, SUSP_OVF. -/
def State.suspOpen (s : State) (pc op : Nat) (va vb : Word) : State :=
  match ([0, 1, 2, 3] : List Nat).find? (fun i => !s.bit .el (Reg.CHK_SUSP_INFO_OPEN i)) with
  | none => s.put .el Reg.CHK_STAT_SUSP_OVF 1
  | some i =>
    let s := ((s.setReg .el (Reg.CHK_SUSP_STEP_STEP i).off (BitVec.ofNat 64 s.stepCur)).put .el (Reg.CHK_SUSP_INFO_PC i) pc).put .el (Reg.CHK_SUSP_INFO_OP i) op
    ((s.put .el (Reg.CHK_SUSP_INFO_OPEN i) 1).setReg .el (Reg.CHK_SUSP_VALA_VALA i).off va).setReg .el (Reg.CHK_SUSP_VALB_VALB i).off vb

/-- An entry is classified transient. -/
def State.suspTransient (s : State) (i pc : Nat) : State :=
  ((s.put .el (Reg.CHK_SUSP_INFO_OPEN i) 0).log .el 0x05 0x5011 pc i).modEl (fun e => { e with hbCounts := { e.hbCounts with transient := e.hbCounts.transient + 1 } })

/-- An entry is classified permanent; the die takes a step of R365. -/
def State.suspPermanent (s : State) (i pc : Nat) : State :=
  (((s.put .el (Reg.CHK_SUSP_INFO_OPEN i) 0).log .el 0x05 0x5012 pc i).modEl (fun e => { e with hbCounts := { e.hbCounts with permanent := e.hbCounts.permanent + 1 } })).probPermanent

/-- A BCVV, FPCMP or XCHK completed OK: a replay of a suspect is transient (R313). -/
def State.suspOk (s : State) (pc op : Nat) : State :=
  match s.suspAt pc op with
  | some i => s.suspTransient i pc
  | none => s

/-- A BCVV, FPCMP or XCHK completed MISMATCH with two values (R312, R313). -/
def State.suspMismatch (s : State) (pc op : Nat) (va vb : Word) : State :=
  match s.suspAt pc op with
  | some i =>
    if s.reg .el (Reg.CHK_SUSP_VALA_VALA i).off = va ∧ s.reg .el (Reg.CHK_SUSP_VALB_VALB i).off = vb then s.suspPermanent i pc
    else (s.suspTransient i pc).suspOpen pc op va vb
  | none => s.suspOpen pc op va vb

/-- Every open entry closes, unclassified (R313). -/
def State.suspCloseAll (s : State) : State := ([0, 1, 2, 3] : List Nat).foldl (fun t i => t.put .el (Reg.CHK_SUSP_INFO_OPEN i) 0) s

/-- Blocks of one operation or transfer failed their check values (R293): each counts, the first is logged as 0x5001 with its computed CRC and tag (log 33), and a check failure is marked. -/
def State.bcvFails (s : State) (pc : Nat) (fails : List (Nat × Nat)) : State :=
  match fails with
  | [] => s
  | (crc, tag) :: _ =>
    (((s.count .el Reg.CHK_CNT_BCV_FAIL fails.length).put .el Reg.CHK_STAT_BCV 1).log .el 0x05 0x5001 pc (crc * 2 ^ 32 + tag)).checkFail pc

/-- The check value of a block (R288). -/
def bcvOf (block : List Byte) (tag : Nat) : Nat := (crc32c (block ++ leBytes 4 tag)).toNat

/-- The tag of block `i` (R290): the block index advances, the tensor ID stays. -/
def tagAt (tag i : Nat) : Nat := tag / 2 ^ 20 * 2 ^ 20 + (tag + i) % 2 ^ 20

/-- The block index would pass its field within `n` blocks (R290). -/
def tagOver (tag n : Nat) : Bool := 2 ^ 20 < tag % 2 ^ 20 + n

end Sys2Proof.Machine
end

