-- ==== Sys2Proof/Machine/ManOps.lean ====
section
/-! DEFINITION. The manifest unit: the staging store, the check and the commit (R8, R40, R47, R269, R275, R310, R442 to R447). -/

namespace Sys2Proof.Machine

/-! ### The register maps -/

/-- The row of a part's register map at an offset. -/
def regRow : Part → Nat → Option RegRow
  | .el => elRow
  | .ux => uxRow

/-- The ST fields of a register. -/
def stFields (p : Part) (off : Nat) : List FieldRow :=
  match regRow p off with
  | some r => r.fields.filter (fun f => f.acc == .st)
  | none => []

/-- A register of a resource the instance lacks is reserved (R4): a plane, a time base, a stream, a DMA channel, the tally lanes. -/
def State.regHere (s : State) (p : Part) (off : Nat) : Bool :=
  match p with
  | .ux => true
  | .el =>
    if 0x3180 ≤ off && off < 0x3200 then s.el.lic.planes == 2
    else if off = 0x1020 || off = 0x3000 then s.el.lic.planes == 2
    else if off = 0x1028 || off = 0x1030 then 3 ≤ s.el.lic.tbCount
    else if 0x1100 ≤ off && off < 0x1300 then (off - 0x1100) / 0x80 < s.el.lic.tbCount
    else if 0x7100 ≤ off && off < 0x7900 then (off - 0x7100) / 0x20 < s.el.lic.streams
    else if 0x8000 ≤ off && off < 0x9000 && !(0x80C0 ≤ off && off < 0x8100) then (off - 0x8000) / 0x100 < s.el.lic.dmaCh
    else if (0x5000 ≤ off && off < 0x6000) || off = 0x6028 || off = 0x6030 then s.el.lic.talLanes != 0
    else true

/-- The ST bits of a resource the instance lacks, which are reserved too (R4, R7): TAL_VERIFY without tally lanes. -/
def State.absentBits (s : State) (p : Part) (off : Nat) (v : Word) : Word :=
  if p == .el && off == 0x6000 && s.el.lic.talLanes == 0 then fset v Reg.CHK_CTRL_TAL_VERIFY.hi Reg.CHK_CTRL_TAL_VERIFY.lo 0 else v

/-- A register holds an ST field (R195). -/
def State.isSt (s : State) (p : Part) (off : Nat) : Bool := s.regHere p off && !(stFields p off).isEmpty

/-- The ST fields of one word put into another. -/
def stMerge (p : Part) (off : Nat) (w v : Word) : Word :=
  (stFields p off).foldl (fun a f => fset a f.hi f.lo (fget v f.hi f.lo)) w

/-! ### The staging store (R442 to R444) -/

/-- The staged value at an offset. -/
def stagedAt : Tbl Word → Nat → Option Word
  | [], _ => none
  | (k, v) :: t, off => if k = off then some v else stagedAt t off

/-- What the shadow window reads at an offset (R442): the staged value, or the committed one. -/
def State.staged (s : State) (p : Part) (off : Nat) : Word :=
  match stagedAt (s.base p).staged off with
  | some v => v
  | none => s.reg p off

/-- The registers the staging store holds at most. -/
def stageCap : Part → Nat
  | .el => 512
  | .ux => 4096

/-- The state code of the manifest unit (R443). -/
def State.manState (s : State) (p : Part) : Nat := s.get p Reg.MAN_STAT_STATE

/-- A staged write is refused (R442, R444). -/
def State.stageRefuse (s : State) (p : Part) (off : Nat) : State := s.log p (unitMan p) 0x9003 off off

/-- A value is staged into the ST register at an offset (R442 to R444), and whether it was. An HXT value with NS above 999,999,999 is refused (R40). A reserved value is staged as written (R8). -/
def State.stage (s : State) (p : Part) (off : Nat) (v : Word) : State × Bool :=
  if s.manState p = 2 then (s.stageRefuse p off, false)
  else if p == .el && off == 0x1030 && !nsOk v then (s.log .el 0x02 0x1008 2 off, false)
  else
    let st := (s.base p).staged
    if (stagedAt st off).isNone && stageCap p ≤ st.length then (s.stageRefuse p off, false)
    else
      let w := stMerge p off (s.staged p off) (s.absentBits p off v)
      ((s.mod p (fun b => { b with staged := tins (terase b.staged off) off w })).put p Reg.MAN_STAT_STATE 1, true)

/-! ### The check (R445) -/

/-- The value a register would have after the commit. -/
def State.next (s : State) (p : Part) (f : Fld) : Nat := fget (s.staged p f.off) f.hi f.lo

/-- The commit would change a field. -/
def State.changes (s : State) (p : Part) (f : Fld) : Bool := s.next p f != s.get p f

/-- Every ST field holds a value its encoding leaves valid (R8). -/
def State.stLegal (s : State) (p : Part) (off : Nat) : Bool :=
  (stFields p off).all (fun f => let v := fget (s.staged p off) f.hi f.lo; decide (f.okLo ≤ v) && decide (v ≤ f.okHi))

/-- RANK lies at or above W while W is set (R275). -/
def State.rankBad (s : State) : Bool :=
  let w := s.next .el Reg.SEQ_RUNCFG_W
  w != 0 && decide (w ≤ s.next .el Reg.SEED_DP_RANK)

/-- A program is loaded in a sequencer. -/
def State.loaded (s : State) (p : Part) : Bool := (s.seq p).bundles != 0

/-- A count of dies beyond the limit of R21. -/
def hallOver (n : Nat) : Bool := decide (262144 < n)

/-- The FAIL_CODE of one staged Elesh register; 0 where it passes. -/
def State.checkEl (s : State) (off : Nat) : Nat :=
  if !s.stLegal .el off then 1
  else if off = 0x1028 || off = 0x1030 then
    let e := hxtOf (s.staged .el 0x1028) (s.staged .el 0x1030)
    if s.loaded .el && (s.staged .el 0x1028 != s.reg .el 0x1028 || s.staged .el 0x1030 != s.reg .el 0x1030) then 2
    else if s.tbNow .el 0 < e then 1 else 0
  else if off = 0x2010 then
    let w := s.next .el Reg.SEQ_RUNCFG_W
    if (s.loaded .el && decide (2 ^ (s.seq .el).lsiSplit < w)) || decide (1048576 < w) || (s.next .el Reg.SEQ_RUNCFG_LSI_VALID == 1 && w == 0) || s.rankBad then 1
    else if s.next .el Reg.SEQ_RUNCFG_MODE == 0 && s.bit .el Reg.SEC_STAT_DBG_OPEN then 2
    else if hallOver w then 5 else 0
  else if off = 0x6020 then
    let a := s.next .el Reg.CHK_REPEAT_ADDR
    if a % 8 != 0 || !s.spmIn a 8 then 1 else 0
  else if off = 0x6028 then (if s.next .el Reg.CHK_TALWIN0_BASE % 4096 != 0 || s.next .el Reg.CHK_TALWIN0_LEN % 4096 != 0 then 1 else 0)
  else if off = 0x6030 then (if s.next .el Reg.CHK_TALWIN1_BCV_ADDR % 4 != 0 then 1 else 0)
  else if off = 0x7000 || off = 0x7008 then
    (if s.staged .el off != s.reg .el off && (s.seqState .el == 3 || s.seqState .el == 4) then 2 else 0)
  else if off = 0x7018 then (if s.rankBad then 1 else 0)
  else if 0x7100 ≤ off && off < 0x7900 then
    let n := (off - 0x7100) / 0x20
    if s.next .el (Reg.SEED_S_CFG0_N n) != 0 && (s.next .el (Reg.SEED_S_CFG0_B n) == 0 || s.next .el (Reg.SEED_S_CFG1_U n) == 0) then 4 else 0
  else if off = 0xB020 then
    let gone := fun j => s.next .el Reg.MAN_UNITEN_EN / 2 ^ j % 2 == 0 && s.loaded .el && bitOf (s.seq .el).units (j + 2)
    if ([0, 1, 2, 3, 4] : List Nat).any gone then 3 else 0
  else 0

/-- An entry of a priority table as it would be after the commit: enabled, and its candidate. -/
def State.prioEntry (s : State) (i : Nat) : Bool × Nat :=
  let e := s.next .ux Reg.UX_REF_PRIO_ENTRIES / 2 ^ (8 * i) % 256
  (decide (128 ≤ e), e % 8)

/-- Two entries of the priority table enable one candidate, or one enables a candidate not valid at the tier as it would be after the commit (R64, R445). -/
def State.prioBad (s : State) : Bool :=
  let es := ((List.range 8).map s.prioEntry).filter (fun e => e.1)
  es.any (fun e => !candAt (s.next .ux Reg.UX_IDENT_ROLE_TIER) e.2 || 1 < es.countP (fun f => f.2 == e.2))

/-- The spare table that a commit would name holds an entry of STATE 3 (R339). -/
def State.spareBad (s : State) : Bool :=
  let base := s.next .ux Reg.UX_HC_SPTAB_BASE * 4096
  (List.range (s.next .ux Reg.UX_HC_SPTAB_COUNT)).any (fun i => (mget s.ux.base.mem (base + 8 * i + 7)).toNat / 64 == 3)

/-- LAG times BUDGET passes the log capacity of a die (R354). -/
def State.budgetBad (s : State) : Bool :=
  let cap := if s.next .ux Reg.UX_HC_PEER_WAYS3 = 1 then 512 else 1024
  decide (cap < s.next .ux Reg.UX_SEAL_CTRL_LAG * s.next .ux Reg.UX_VAULT_CFG_BUDGET * 16)

/-- The PDI of an entry of the spare table that a commit would name (R339). -/
def State.stagedSparePdi (s : State) (i : Nat) : Nat := leNat (mread s.ux.base.mem (s.next .ux Reg.UX_HC_SPTAB_BASE * 4096 + 8 * i) 8) % 2 ^ 20

/-- The DOMAIN of an entry of the spare table that a commit would name. -/
def State.stagedSpareDomain (s : State) (i : Nat) : Nat := leNat (mread s.ux.base.mem (s.next .ux Reg.UX_HC_SPTAB_BASE * 4096 + 8 * i) 8) / 2 ^ 54 % 256

/-- The failure domains in which the spare table places a leaf (R18): those of its spares, an unknown one left out (log 21). -/
def State.leafDomains (s : State) (pos : Nat) : List Nat :=
  ((List.range (s.next .ux Reg.UX_HC_SPTAB_COUNT)).filter (fun i => s.stagedSparePdi i / 128 == pos && s.stagedSpareDomain i != 255)).map s.stagedSpareDomain

/-- A partner of the leaf lies in its own failure domain, or the two partners of a three-way leaf in one (R18, R356): the spare table says so or, for `same`, they are one leaf. -/
def State.peerBad (s : State) (same : Bool) : Bool :=
  let own := s.next .ux Reg.UX_IDENT_ROLE_POS
  let a := s.next .ux Reg.UX_HC_PEER_PARTNER
  let b := s.next .ux Reg.UX_HC_PEER_PARTNER2
  let bad := fun (x : Nat) => (same && x == own) || (s.leafDomains x).contains (s.next .ux Reg.UX_HC_PEER_DOMAIN)
  s.next .ux Reg.UX_IDENT_ROLE_TIER == 0 &&
    (bad a || (s.next .ux Reg.UX_HC_PEER_WAYS3 == 1 && (bad b || (same && a == b) || (s.leafDomains a).any (fun d => (s.leafDomains b).contains d))))

/-- A hall that the spare table and the width of the run take past R21: more dies than 262,144, spares counted, or a spare beyond its 16 spines. -/
def State.hallBad (s : State) : Bool :=
  hallOver (s.next .ux Reg.UX_HC_RUN_W + s.next .ux Reg.UX_HC_SPTAB_COUNT) || (List.range (s.next .ux Reg.UX_HC_SPTAB_COUNT)).any (fun i => 2 ^ 18 ≤ s.stagedSparePdi i)

/-- The FAIL_CODE of one staged Uhloux register; 0 where it passes. -/
def State.checkUx (s : State) (off : Nat) : Nat :=
  if !s.stLegal .ux off then 1
  else if off = 0x8 then
    let pos := s.next .ux Reg.UX_IDENT_ROLE_POS
    let t := s.next .ux Reg.UX_IDENT_ROLE_TIER
    if (t == 1 && pos % 128 != 0) || (t == 2 && pos != 0) then 1
    else if s.staged .ux 8 != s.reg .ux 8 && (List.range 160).any (fun x => s.laneUp .ux x) then 2 else 0
  else if off = 0x3010 then (if s.prioBad then 4 else 0)
  else if off = 0x6000 then
    let a := s.next .ux Reg.UX_LEDG_CFG_BASE
    let m := s.next .ux Reg.UX_LEDG_CFG_MBASE
    if a ≤ m && m < a + s.next .ux Reg.UX_LEDG_CFG_GIB then 4 else 0
  else if off = 0x6040 || off = 0x7040 then (if s.budgetBad then 1 else 0)
  else if off = 0x7008 then
    (if 20 < s.next .ux Reg.UX_HC_RUN_LSI_SPLIT || 2 ^ s.next .ux Reg.UX_HC_RUN_LSI_SPLIT < s.next .ux Reg.UX_HC_RUN_W then 1 else if s.hallBad then 5 else 0)
  else if off = 0x7020 then (if s.spareBad || s.peerBad false then 4 else if s.hallBad then 5 else 0)
  else if off = 0x7028 then (if s.budgetBad then 1 else if s.peerBad true then 4 else 0)
  else if off = 0xA010 then
    (if s.changes .ux Reg.UX_CLK_CTRL_CMUL && !(s.ux.base.hallArm && (s.bit .ux Reg.UX_HC_STAT_GATE_CLOSED || !s.ux.launched)) then 2 else 0)
  else 0

/-- The FAIL_CODE of one staged register. -/
def State.checkReg (s : State) : Part → Nat → Nat
  | .el => s.checkEl
  | .ux => s.checkUx

/-- The manifest check (R195, R445): the first failing register in ascending offset with its code; none where the check passes. -/
def State.manCheck (s : State) (p : Part) : Option (Nat × Nat) :=
  ((s.base p).staged.find? (fun e => s.checkReg p e.1 != 0)).map (fun e => (s.checkReg p e.1, e.1))

/-- EL_MAN_STAT as it reads: the state and LATE it holds, with the current result of the check and the count of staged registers. -/
def State.manStat (s : State) (p : Part) : Word :=
  let n := (s.base p).staged.length
  let w := fset (s.reg p 0xB008) 29 20 (min 1023 n)
  match s.manCheck p with
  | none => fset (fset (fset w 2 2 1) 7 4 0) 51 32 0
  | some (c, off) => fset (fset (fset w 2 2 0) 7 4 c) 51 32 off

/-! ### Arming (R444, R446) -/

/-- A commit is armed for an instant on TB0 when the check passes and the instant lies 64 ns ahead; else LATE (R446). EMPTY does nothing, ARMED refuses (R444). The answer says whether it was accepted. -/
def State.manArm (s : State) (p : Part) (t : Nat) : State × Bool :=
  if s.manState p = 0 then (s, false)
  else if s.manState p = 2 then (s.stageRefuse p Reg.MAN_CTRL_ARM.off, false)
  else if s.tbState p 0 = 0 || (s.manCheck p).isSome || t < hxtAdd (s.tbNow p 0) (hxtNs 64) then (s.put p Reg.MAN_STAT_LATE 1, false)
  else ((s.put p Reg.MAN_STAT_STATE 2).mod p (fun b => { b with manAt := some t, hallArm := false }), true)

/-- A commit is armed for the next ACLK tick, whatever TB0's state (R446): its instant is 0, which every time base has reached. With a failing check LATE is set, as for ARM (log 22). -/
def State.manNow (s : State) (p : Part) : State :=
  if s.manState p = 0 then s
  else if s.manState p = 2 then s.stageRefuse p Reg.MAN_CTRL_NOW.off
  else if (s.manCheck p).isSome then s.put p Reg.MAN_STAT_LATE 1
  else (s.put p Reg.MAN_STAT_STATE 2).mod p (fun b => { b with manAt := some 0, hallArm := false })

/-- DISARM (R443): ARMED becomes STAGED; staged values are kept. -/
def State.manDisarm (s : State) (p : Part) : State :=
  if s.manState p = 2 then (s.put p Reg.MAN_STAT_STATE (if (s.base p).staged.isEmpty then 0 else 1)).mod p (fun b => { b with manAt := none, hallArm := false }) else s

/-- DISCARD (R443): the staging store is cleared; while ARMED it is refused (R444). -/
def State.manDiscard (s : State) (p : Part) : State :=
  if s.manState p = 2 then s.stageRefuse p Reg.MAN_CTRL_DISCARD.off
  else (s.mod p (fun b => { b with staged := [] })).put p Reg.MAN_STAT_STATE 0

/-! ### The commit (R446, R447) -/

/-- A clearing point of R201 on an Elesh: the counter file and the landing queue are cleared, IDC_CLEAR rises (R224, R505). -/
def State.clearPoint (s : State) : State :=
  let s := s.cntClear.modEl (fun e => { e with land := [], landFull := false, ports := { e.ports with idcClear := true, reclaim := [] } })
  s.setReg .el Reg.SYNC_LANDQ_LEVEL.off 0

/-- What a commit of EL_SEQ_STEP.NEXT does (R201, R305, R317). -/
def State.nextCommit (s : State) : State :=
  let n := s.reg .el Reg.SEQ_STEP_NEXT.off
  (s.clearPoint.put .el Reg.CHK_STAT_FAILED 0).setReg .el Reg.CHK_SEAL_LAST.off (n - 1)

/-- A commit of the run epoch is TB2's step (R47, R49, R62): the first of a run takes effect, with 0x1001; a later one leaves TB2 as it was and is refused with STEP_REFUSED and 0x1002. A run begins at a commit of NEXT with no program loaded (log 106). -/
def State.epochCommit (s was : State) : State :=
  if s.el.epochTaken then ((s.setReg .el 0x1028 (was.reg .el 0x1028)).setReg .el 0x1030 (was.reg .el 0x1030)).tbStepRefused .el 2
  else (s.modEl (fun e => { e with epochTaken := true })).logI .el (unitTime .el) 0x1001 2 ((s.tbNow .el 2 : Int) - (was.tbNow .el 2 : Int))

/-- What a commit of LKGEN does (R457): each lane sends and receives under the new generation from counter 0, and the previous one is accepted for 100 µs, 15,625 ticks. -/
def State.keyCommit (s : State) (p : Part) (old : Nat) : State :=
  let until' := s.tick p + 15625
  s.mod p (fun b =>
    let new := (List.range 4).flatMap (fun i => leBytes 8 (tget (0 : Word) b.lkeyNew i).toNat)
    { b with prevKey := b.hallKey, prevGen := some old, prevUntil := until', hallKey := new,
             lanes := b.lanes.map (fun e => (e.1, { e.2 with authCtr := 0, authRxOld := e.2.authRx, authRx := 0 })) })

/-- A planned switch of the selected plane (R108): the other lane is ACTIVE and not AWAY. -/
def State.planePlan (s : State) : State :=
  let y := s.get .el Reg.LINK_CTRL_SEL_PLANE
  match s.selLane with
  | some x => if x != y && s.failoverTarget x then s.failover x else s
  | none => s

/-- RET of the ledger (R300). -/
def State.retWrite (s : State) : State := s.put .ux Reg.UX_LEDG_CFG_RET (min (64 * s.get .ux Reg.UX_LEDG_CFG_GIB) 8192)

/-- What a commit of UX_SEAL_NEXT does at the root (R318, R325). -/
def State.sealNextCommit (s : State) : State :=
  if s.tier ≠ 2 then s else
  let n := s.reg .ux Reg.UX_SEAL_NEXT_NEXT.off
  ((s.setReg .ux Reg.UX_SEAL_STAT_LAST.off (n - 1)).setReg .ux Reg.UX_SEAL_FAIL_PENDING.off 0).modUx (fun u => { u with launched := false })

/-- The effects of a commit beside the new values: `was` is the state before it. A commit on a Uhloux chip that names the tree program starts it (R165, log 29). -/
def State.commitEffects (s : State) (p : Part) (offs : List Nat) (was : State) : State :=
  let has := fun o => offs.contains o
  match p with
  | .el =>
    let s := if has 0x2018 && !was.loaded .el then s.modEl (fun e => { e with epochTaken := false }) else s
    let s := if has 0x1028 || has 0x1030 then s.epochCommit was else s
    let s := if has 0x2018 then s.nextCommit else s
    let s := if has 0x7000 || has 0x7008 then s.runKeyCommit (was.runKey != s.runKey) else s
    let s := if has 0x2010 && was.lsi != s.lsi then s.suspCloseAll else s
    let s := if has 0xC040 && was.get .el Reg.SEC_LKGEN_GEN != s.get .el Reg.SEC_LKGEN_GEN then s.keyCommit .el (was.get .el Reg.SEC_LKGEN_GEN) else s
    if has 0x3000 then s.planePlan else s
  | .ux =>
    let s := if has 0x6048 then s.sealNextCommit else s
    let s := if has 0xC040 && was.get .ux Reg.SEC_LKGEN_GEN != s.get .ux Reg.SEC_LKGEN_GEN then s.keyCommit .ux (was.get .ux Reg.SEC_LKGEN_GEN) else s
    let s := if has 0x6000 then s.retWrite else s
    let s := if has 0x6080 then s.lockClear else s
    let s := if has 0xA010 && was.get .ux Reg.UX_CLK_CTRL_CMUL != s.get .ux Reg.UX_CLK_CTRL_CMUL then
        s.log .ux 0x46 0x8001 0 (s.get .ux Reg.UX_CLK_CTRL_CMUL) else s
    let s := if has 0x3010 then s.refResolve else s
    if Config.namesTree (was.base .ux).staged then s.treeStart else s

/-- Every staged value takes effect in one tick (R446, R447): 0x9001 carries the number of registers, and the unit is EMPTY. -/
def State.commitAll (s : State) (p : Part) : State :=
  let st := (s.base p).staged
  let was := s
  let s := st.foldl (fun t e => t.setReg p e.1 (stMerge p e.1 (t.reg p e.1) e.2)) s
  let s := (s.mod p (fun b => { b with staged := [], manAt := none, hallArm := false })).put p Reg.MAN_STAT_STATE 0
  (s.commitEffects p (st.map Prod.fst) was).log p (unitMan p) 0x9001 0 st.length

/-- A commit whose check fails (R446): nothing takes effect, the unit is STAGED, 0x9004 carries the code. -/
def State.commitFail (s : State) (p : Part) (code : Nat) : State :=
  (s.manDisarm p).log p (unitMan p) 0x9004 0 code

/-- The commit at its instant (R446): the check runs again. -/
def State.commitNow (s : State) (p : Part) : State :=
  match s.manCheck p with
  | none => s.commitAll p
  | some (c, _) => s.commitFail p c

end Sys2Proof.Machine
end

