-- ==== Sys2Proof/Machine/Time.lean ====
section
/-! DEFINITION. The commands of the time bases, pulse outputs and capture inputs (chapter 2), and the reads with a side effect (R63, R435, R441). -/

namespace Sys2Proof.Machine

/-! ### Time base 3 -/

/-- TB3_STEP (R49, R51): a write of TB3's STEP applies STEP_SEC and STEP_NSF once, while UNSET; later requests are refused. -/
def execTb3Step (p : Part) (s : State) : Out :=
  if !s.tbHas p 3 then .next s
  else if s.tbState p 3 = 0 && !s.bit p (Reg.TB_STAT_FIRST_LOCK 3) then
    .next (s.tbStep p 3 (hxtOf (s.reg p (Reg.TB_STEP_SEC_SEC 3).off) (s.reg p (Reg.TB_STEP_NSF_NS 3).off)))
  else .next (s.tbStepRefused p 3)

/-- TB3_LOCK_DECL (R51, R53, R54): ACQUIRE becomes LOCKED, but not in the tick of the step. -/
def execTb3LockDecl (p : Part) (s : State) : Out :=
  .next (if s.tbHas p 3 && s.tbState p 3 == 1 && !s.steppedNow p 3 then s.tbLock p 3 else s)

/-- TB3_RATE_WRITE (R46, R52): out of range is refused with 0x1007; a change beyond SLEW_LIMIT is clamped with 0x1006; the time base is re-anchored first (R45). -/
def execTb3RateWrite (p : Part) (v : Word) (s : State) : Out :=
  if !s.tbHas p 3 then .next s
  else
    let want := signed 40 v.toNat
    if want > rateMax || want < -rateMax then .next (s.logI p (unitTime p) 0x1007 3 want)
    else
      let cur := s.tbRate p 3
      let lim := s.slewLimit p
      let r := max (cur - lim) (min (cur + lim) want)
      let s := s.tbSetRate p 3 r
      .next (if r = want then s else (s.put p (Reg.TB_STAT_SLEW_CLAMP 3) 1).logI p (unitTime p) 0x1006 3 want)

/-! ### Dwell and loss of source (R53) -/

/-- The magnitude of a time base's phase error in ps. -/
def State.phaseAbs (s : State) (p : Part) (n : Nat) : Nat := (s.getI p (Reg.TB_STAT_PHASE_ERR n)).natAbs

/-- TB_LOCK_DWELL (R53, R54): after 10 µs within 500 ps, ACQUIRE or SLEWING becomes LOCKED, but not in the tick of the step. TB3 has no servo and TB2 reports TB0. At the root the error is what its slew has left (R80). A lane waiting for the lock becomes ACTIVE (R125). -/
def execTbLockDwell (p : Part) (n : Fin 4) (s : State) : Out :=
  if s.tbHas p n && (n.val == 0 || n.val == 1) && (s.tbState p n == 1 || s.tbState p n == 3) && !s.steppedNow p n then
    if p == .ux && s.tier == 2 then .next (if s.rootLeft.natAbs ≤ 500 then s.rootSettle else s)
    else .next (if s.phaseAbs p n ≤ 500 then s.tbEnterLocked p n else s)
  else .next s

/-- TB_SOURCE_TIMEOUT (R53, R79): 100 µs without a valid time message put a servoed time base in HOLDOVER; the root's TB0 never is. -/
def execTbSourceTimeout (p : Part) (n : Fin 4) (s : State) : Out :=
  let st := s.tbState p n
  .next (if s.tbHas p n && (n.val == 0 || n.val == 1) && (st == 1 || st == 2 || st == 3) && !(p == .ux && s.tier == 2)
    then s.tbHoldover p n else s)

/-- REFCLK_LOSS (R402): both lanes fail, AON runs on the ring oscillator, set time bases enter HOLDOVER, 0x8004. No rule names the lanes' FAIL_CAUSE, which is open (log 10). -/
def execRefclkLoss (s : State) : Out :=
  let s := s.modEl (fun e => { e with refclkLost := true })
  let s := s.put .el Reg.CLK_STAT_RO 1
  let s := s.bothFail
  let hold := fun (t : State) (n : Nat) => if t.tbHas .el n && t.tbState .el n != 0 && t.tbState .el n != 4 then t.tbHoldover .el n else t
  .next ((([0, 1, 3] : List Nat).foldl hold s).log .el 0x0E 0x8004 0 0)

/-! ### Pulse outputs (R56 to R59) -/

/-- A part has a pulse output (chapter 2, R485). -/
def pulseHas (p : Part) (i : Nat) : Bool :=
  match p with
  | .el => i < 4
  | .ux => i < 8

/-- OBJECT of a pulse event (R62). -/
def pulseObj (i : Nat) : Nat := 0x100 + i

/-- PERIOD of a pulse output. -/
def State.pulsePeriod (s : State) (p : Part) (i : Nat) : Nat :=
  s.get p (Reg.PULSE_PER_SEC_SEC i) * hxtSec + s.get p (Reg.PULSE_PER_NSF_NS i) * 2 ^ 32 + s.get p (Reg.PULSE_PER_NSF_FRAC i)

/-- WIDTH of a pulse output. -/
def State.pulseWidth (s : State) (p : Part) (i : Nat) : Nat :=
  (s.get p (Reg.PULSE_WIDTH_NS i) * 2 ^ 16 + s.get p (Reg.PULSE_WIDTH_FRAC16 i)) * 2 ^ 16

/-- What R57 refuses: an UNSET time base, PERIOD below 6.4 ns, WIDTH below 1.6 ns, a gap below 1.6 ns, MODE 2 with COUNT 0. Times in 2^-32 ns. -/
def State.pulseRefused (s : State) (p : Part) (i : Nat) : Bool :=
  let tb := s.get p (Reg.PULSE_CTRL_TB i)
  let per := s.pulsePeriod p i
  let wid := s.pulseWidth p i
  !s.tbHas p tb || s.tbState p tb == 0 || decide (per * 5 < 32 * 2 ^ 32) || decide (wid * 5 < 8 * 2 ^ 32) || decide (per * 5 < wid * 5 + 8 * 2 ^ 32)
    || (s.get p (Reg.PULSE_CTRL_MODE i) == 2 && s.get p (Reg.PULSE_COUNT_COUNT i) == 0)

/-- START of a pulse output. -/
def State.pulseStart (s : State) (p : Part) (i : Nat) : Nat :=
  hxtOf (s.reg p (Reg.PULSE_START_SEC_SEC i).off) (s.reg p (Reg.PULSE_START_NSF_NS i).off)

/-- START lies before the selected time base plus 64 ns, a sum modulo 2^64 s (R58, R39). -/
def State.pulseLate (s : State) (p : Part) (i : Nat) : Bool :=
  s.pulseStart p i < hxtAdd (s.tbNow p (s.get p (Reg.PULSE_CTRL_TB i))) (hxtNs 64)

/-- A pulse output's own data. -/
def State.pulse (s : State) (p : Part) (i : Nat) : Pulse := tget Pulse.zero (s.base p).pulses i

/-- The edge an armed output awaits has come (R56): measured from where the wait began, so that a wrap of the time base neither fires it early nor loses it (R39). -/
def State.pulseDue (s : State) (p : Part) (i : Nat) : Bool :=
  let tb := s.get p (Reg.PULSE_CTRL_TB i)
  let u := s.pulse p i
  s.tbState p tb != 0 && decide (hxtSub u.nextEdge u.from' ≤ hxtSub (s.tbNow p tb) u.from')

/-- The level of a pulse output (R56, R63): high for WIDTH from each edge, on its time base; POL inverts it. -/
def State.pulseLevel (s : State) (p : Part) (i : Nat) : Bool :=
  let on := match (s.pulse p i).on with
    | some (a, b) => decide (hxtSub (s.tbNow p (s.get p (Reg.PULSE_CTRL_TB i))) a < hxtSub b a)
    | none => false
  on != s.bit p (Reg.PULSE_CTRL_POL i)

/-- Arming a pulse output (R57, R58), and whether it was accepted. An output that is already ARMED and is armed again starts afresh from START (log 95). -/
def State.pulseArm (s : State) (p : Part) (i : Nat) : State × Bool :=
  if s.pulseRefused p i then (s.log p (unitTime p) 0x1011 (pulseObj i) (Reg.PULSE_CTRL_ARM i).off, false)
  else if s.pulseLate p i then
    ((s.put p (Reg.PULSE_STAT_LATE i) 1).log p (unitTime p) 0x1010 (pulseObj i) (s.get p (Reg.PULSE_START_NSF_NS i)), false)
  else
    let n := if s.get p (Reg.PULSE_CTRL_MODE i) = 2 then s.get p (Reg.PULSE_COUNT_COUNT i) else 0
    let t := s.pulseStart p i
    let s := (s.put p (Reg.PULSE_STAT_ARMED i) 1).put p (Reg.PULSE_STAT_EDGES_LEFT i) n
    let now := s.tbNow p (s.get p (Reg.PULSE_CTRL_TB i))
    (s.mod p (fun b => { b with pulses := tput Pulse.zero b.pulses i { (tget Pulse.zero b.pulses i) with nextEdge := t, from' := now, fired := 0 } }), true)

/-- PULSE_ARM (R57, R58). -/
def execPulseArm (p : Part) (i : Fin 8) (s : State) : Out :=
  .next (if pulseHas p i then (s.pulseArm p i).1 else s)

/-- PULSE_DISARM (R63): an assertion in progress completes its WIDTH. -/
def execPulseDisarm (p : Part) (i : Fin 8) (s : State) : Out :=
  .next (if pulseHas p i then s.put p (Reg.PULSE_STAT_ARMED i) 0 else s)

/-- PULSE_EDGE (R56, R59): the time base has reached the programmed edge; the output is asserted for WIDTH, and the next edge is START + k PERIOD; a single or counted output disarms after its last edge. -/
def execPulseEdge (p : Part) (i : Fin 8) (s : State) : Out :=
  let u := s.pulse p i
  if pulseHas p i && s.bit p (Reg.PULSE_STAT_ARMED i) && s.pulseDue p i then
    let mode := s.get p (Reg.PULSE_CTRL_MODE i)
    let left := s.get p (Reg.PULSE_STAT_EDGES_LEFT i)
    let v : Pulse := { nextEdge := hxtAdd u.nextEdge (s.pulsePeriod p i), from' := u.nextEdge, fired := u.fired + 1,
                       on := some (u.nextEdge, hxtAdd u.nextEdge (s.pulseWidth p i)) }
    let s := s.mod p (fun b => { b with pulses := tput Pulse.zero b.pulses i v })
    let s := if mode = 2 then s.put p (Reg.PULSE_STAT_EDGES_LEFT i) (left - 1) else s
    .next (if mode = 0 || (mode = 2 && left ≤ 1) then s.put p (Reg.PULSE_STAT_ARMED i) 0 else s)
  else .next s

/-! ### Capture inputs (R60, R61) -/

/-- OBJECT of a capture event (R62). -/
def capObj (c : Nat) : Nat := 0x200 + c

/-- A capture input selects an edge: 0 rising, 1 falling, 2 both. -/
def capSelects (edge : Nat) (rising : Bool) : Bool := edge == 2 || (edge == 0 && rising) || (edge == 1 && !rising)

/-- CAP_EDGE (R60, R61): an enabled input stamps a selected edge with its time base less DLY; a second edge in one tick is a MISS (0x1021), an edge on a full FIFO an OVF (0x1020). `sub` is the TDC's fraction of the tick (R42). -/
def execCapEdge (p : Part) (c : Fin 4) (rising : Bool) (sub : BitVec 16) (s : State) : Out :=
  if !(s.bit p (Reg.CAP_CTRL_EN c) && capSelects (s.get p (Reg.CAP_CTRL_EDGE c)) rising) then .next s
  else
    let k : Cap := tget Cap.zero (s.base p).caps c
    let now := s.tick p
    let s := s.mod p (fun b => { b with caps := tput Cap.zero b.caps c { k with lastTick := some now, lastFrc := if k.lastTick = some now then k.lastFrc else none } })
    if k.lastTick = some now then
      .next ((s.put p (Reg.CAP_STAT_MISS c) 1).log p (unitTime p) 0x1021 (capObj c) 0)
    else if 16 ≤ k.fifo.length then
      .next ((s.put p (Reg.CAP_STAT_OVF c) 1).log p (unitTime p) 0x1020 (capObj c) 0)
    else
      let frc := now * 2 ^ 16 + sub.toNat
      .next (s.mod p (fun b => { b with caps := tput Cap.zero b.caps c { lastTick := some now, lastFrc := some frc, fifo := k.fifo ++ [(s.capStamp p c frc, rising)] } }))

/-! ### Reads with a side effect (R63, R441) -/

/-- The head stamp's NS and FRAC, and the FIFO without its head; 0 and nothing popped when empty. -/
def State.capPop (s : State) (p : Part) (c : Nat) : Word × State :=
  let k : Cap := tget Cap.zero (s.base p).caps c
  match k.fifo with
  | [] => (0, s)
  | (t, _) :: rest => (hxtNsfW t, s.mod p (fun b => { b with caps := tput Cap.zero b.caps c { k with fifo := rest, lastFrc := if rest.isEmpty then none else k.lastFrc } }))

/-- CAP_POP (R63): a read of the head's NSF returns it and pops the head. -/
def execCapPop (p : Part) (c : Fin 4) (s : State) : Out :=
  let r := s.capPop p c
  .next (r.2.answer p r.1 false)

/-- FRC[63:0], and FRC[79:64] latched into FRC_HI. -/
def State.frcRead (s : State) (p : Part) : Word × State :=
  (BitVec.ofNat 64 (s.frcSample p), s.put p Reg.FRC_HI_FRC_HI (s.frcSample p / 2 ^ 64))

/-- FRC_READ (R63). -/
def execFrcRead (p : Part) (s : State) : Out :=
  let r := s.frcRead p
  .next (r.2.answer p r.1 false)

/-- The seconds of a time base, and its NS and FRAC of the same instant latched into READ_NSF. -/
def State.tbReadSec (s : State) (p : Part) (n : Nat) : Word × State :=
  if s.tbHas p n then
    let t := s.tbSample p n
    (hxtSecW t, s.setReg p (Reg.TB_READ_NSF_NS n).off (hxtNsfW t))
  else (0, s)

/-- TB_READ (R63). -/
def execTbRead (p : Part) (n : Fin 4) (s : State) : Out :=
  let r := s.tbReadSec p n
  .next (r.2.answer p r.1 false)

/-- The dump index: [14:0] on Elesh, [16:0] on Uhloux (R435, R436). -/
def dumpIdx : Part → Fld
  | .el => Reg.GUARD_DUMP_IDX_IDX
  | .ux => { Reg.GUARD_DUMP_IDX_IDX with hi := 16 }

/-- The dump word at IDX, and IDX one further, modulo its field. -/
def State.dumpRead (s : State) (p : Part) : Word × State :=
  let i := s.get p (dumpIdx p)
  (s.dumpAt p i, s.put p (dumpIdx p) (i + 1))

/-- DUMP_DATA_READ (R435). -/
def execDumpDataRead (p : Part) (s : State) : Out :=
  let r := s.dumpRead p
  .next (r.2.answer p r.1 false)

end Sys2Proof.Machine
end

