-- ==== Sys2Proof/Machine/Operands.lean ====
section
/-! DEFINITION. The operand forms of the slot operations (chapter 6): which encodings R135, R169, R175, R178, R180, R186 and R297 reserve, predication (R134), registers, immediates, HXT pairs, counters, SPM addresses and tags. -/

namespace Sys2Proof.Machine

/-! ### Reserved encodings -/

/-- An envelope without predication names no flag (R135). -/
def envOk (e : Env) : Bool := e.pen || (!e.pneg && e.pflag == 0)

/-- A register index is one of the part's (R169): G0 to G63, or G0 to G31 on Uhloux. -/
def regOk (p : Part) (a : Fin 64) : Bool := match p with | .el => true | .ux => a.val < 32

/-- A register pair begins at an even index (R169). -/
def pairOk (p : Part) (a : Fin 64) : Bool := regOk p a && a.val % 2 == 0

/-- A PURPOSE below those the device keeps for itself; one of 0xFF00 to 0xFFFF is a reserved encoding (R271). -/
def purposeOk (f : BitVec 16) : Bool := decide (f.toNat < 0xFF00)

/-- The second operand of an integer operation. -/
def opndOk (p : Part) : Opnd → Bool
  | .reg b => regOk p b
  | .imm _ => true

/-- A counter the instance has (R169): SC[core].k, or TC[core] with K reserved. -/
def cntOk (l : Licence) (p : Part) (core : BitVec 8) (k : BitVec 6) : Bool :=
  match p with
  | .el => decide (core.toNat < l.cores) && decide (k.toNat < l.cntPerCore)
  | .ux => k == 0

/-- The completion counter of a queued operation. -/
def destOk (l : Licence) (p : Part) (q : QDest) : Bool := cntOk l p q.core q.k

/-- A WAITT names TB0 or TB2, relative or absolute (R147, R175); on Uhloux TB0 absolute (R197). -/
def waittOk (l : Licence) (p : Part) (tb : Fin 4) (rel : Bool) (a : Fin 64) : Bool :=
  match p with
  | .el => if rel then tb == 0 else (tb == 0 || (tb == 2 && decide (2 < l.tbCount))) && pairOk .el a
  | .ux => !rel && tb == 0 && pairOk .ux a

/-- A time base of a TRD (R169, R197), with an even register for the two-word form (R179). -/
def trdOk (l : Licence) (p : Part) (d : Fin 64) (tb : Fin 4) (nsf : Bool) : Bool :=
  (match p with | .el => decide (tb.val < l.tbCount) | .ux => tb == 0 || tb == 3) && regOk p d && (nsf || d.val % 2 == 0)

/-- A launch request (R180): with REL = 0 the register begins an HXT pair, and it names a group or starts a step. -/
def lreqOk (p : Part) (a : Fin 64) (rel start : Bool) (gmask : BitVec 16) : Bool :=
  regOk p a && (rel || a.val % 2 == 0) && (start || gmask != 0)

/-- A number format is an integer one (R186). -/
def fmtInt (f : Nat) : Bool := 0xA ≤ f && f ≤ 0xE

/-- A format that MX may scale (R186). -/
def mxOk (t : TArgs) : Bool := !t.mx || (0x5 ≤ t.fmt.toNat && t.fmt.toNat ≤ 0x9)

/-- A format wider than 16 bits (R186). -/
def fmtWide (f : Nat) : Bool := f == 0 || f == 1 || f == 2 || f == 0xA || f == 0xB

/-- SCALE leaves Gb and CLS unused (R185, R186). -/
def scaleOk (t : TArgs) : Bool := t.fmt != 0xF && mxOk t && t.gb == 0 && t.cls == 0

/-- TCONV (R186): with an integer format Ge is reserved and the class is T64; T32 takes no format wider than 16 bits. -/
def tconvOk (t : TArgs) : Bool :=
  t.fmt != 0xF && mxOk t && t.cls != 3 && (!fmtInt t.fmt.toNat || (t.cls == 2 && t.ge == 0)) && !(t.cls == 0 && fmtWide t.fmt.toNat)

/-- TADD leaves Ge, FMT and MX unused (R185). -/
def taddOk (t : TArgs) : Bool := t.cls != 3 && t.ge == 0 && t.fmt == 0 && !t.mx

/-- TFIN leaves Ge unused (R185, R186). -/
def tfinOk (t : TArgs) : Bool := t.fmt != 0xF && mxOk t && t.cls != 3 && t.ge == 0 && (!fmtInt t.fmt.toNat || t.cls == 2)

/-- PSUM leaves Ge and CLS unused and takes no integer format (R185, R186). -/
def psumOk (t : TArgs) : Bool := t.fmt != 0xF && mxOk t && t.ge == 0 && t.cls == 0 && !fmtInt t.fmt.toNat

/-- QUIET (R178): N = 0 takes no mask, N above 0 takes one; on Uhloux the mask names slots 1 to 3. -/
def quietOk (mask : BitVec 7) (n : BitVec 24) : Bool :=
  (n == 0) == (mask == 0)

/-! ### Values -/

/-- A predicated operation executes when C[PFLAG] XOR PNEG = 1 (R134). -/
def State.runs (s : State) (p : Part) (e : Env) : Bool := !e.pen || (s.flag p e.pflag != e.pneg)

/-- The second operand B of an integer operation (before R196). -/
def State.opnd (s : State) (p : Part) : Opnd → Word
  | .reg b => s.greg p b
  | .imm v => sext32 v

/-- The HXT value in a register pair (chapter 6, Operand conventions). -/
def State.gpair (s : State) (p : Part) (a : Nat) : Nat := hxtOf (s.greg p a) (s.greg p (a + 1))

/-- The run epoch of TB2 as an HXT value. -/
def State.tb2Epoch (s : State) : Nat := hxtOf (s.reg .el Reg.TB2_EPOCH_SEC_SEC.off) (s.reg .el Reg.TB2_EPOCH_NSF_NS.off)

/-- The time of WAITT on TB0 (R174, R175). -/
def State.anchorTime (s : State) (p : Part) (tb : Nat) (rel : Bool) (a : Nat) (ns : Nat) : Nat :=
  if rel then hxtAdd (s.seq p).tStep (hxtNs ns)
  else if tb = 2 then hxtAdd (s.gpair p a) s.tb2Epoch else s.gpair p a

/-- An SPM address `g[a] + sext24(ofs)` (R190, R193). -/
def State.spmAddr (s : State) (a : Nat) (ofs : BitVec 24) : Nat := (s.greg .el a + sext24 ofs).toNat

/-- An unqueued access of `n` bytes to SPM is aligned to `n` and lies in SPM (R172, R192). -/
def State.spmOk (s : State) (a n : Nat) : Bool := a % n == 0 && s.spmIn a n

/-- DETAIL of OPERAND_RANGE: the slot, and 60 bits of the address (R200). -/
def rangeDetail (slot a : Nat) : Nat := slot * 2 ^ 60 + a % 2 ^ 60

/-- The prescale of a timeout, in ACLK ticks (R176). -/
def prescale (pre : Nat) : Nat := 16 ^ pre

/-- A watch, WAITC or barrier timeout in ticks, divided by 2^SHIFT while the perturbation of R466 is enabled. -/
def State.tmoTicks (s : State) (p : Part) (tmo pre : Nat) : Nat :=
  let n := tmo * prescale pre
  if s.bit p Reg.TEST_CLK_EN then n / 2 ^ s.get p Reg.TEST_CLK_SHIFT else n

end Sys2Proof.Machine
end

