-- ==== Sys2Proof/WellFormed.lean ====
section
/-! DEFINITION. Well-formed commands: the operand encodings the spec reserves, judged for a licence and a number of bundles (R135, R147, R169, R175, R178, R180, R186, R192, R194, R198, R297, R298), and the lanes, channels and indices a part has. -/

namespace Sys2Proof

open Sys2Proof.Machine

/-- The envelope of a slot operation. -/
def Instr.env : Instr → Option Env
  | .nop _ e | .br _ e _ | .brr _ e _ | .loop _ e _ _ | .waitt _ e _ _ _ _ | .waitc _ e _ _ _ _ _ _ _ | .halt _ e | .quiet _ e _ _
  | .trd e _ _ _ | .frcrd e _ | .parm e _ _ _ _ _ _ | .lreq e _ _ _ _ _ _ | .larm e _ _
  | .cinc e _ _ _ | .cincr e _ _ _ | .crd e _ _ _ | .wreg e _ _ _ _ _ _ | .wclr e _ | .arrive e _ _ _ | .bar e _ _ _ | .ann e _ _ _ _ _ _
  | .scale e _ _ | .tconv e _ _ | .tadd e _ _ | .tfin e _ _ | .psum e _ _ | .spass e _ _ _ _ _ | .ssum e _ _ _ _
  | .bcvg e _ _ | .bcvv e _ _ | .fpa e _ _ | .fpcmp e _ _ _ | .xchk e _ _ _ | .lemit e _ _ _ _ | .sealv e _ _ | .sealq e _ _ | .lstag e _ _
  | .fclr e _ | .frd e _ _ _ | .fsto e _ _ _
  | .rng e _ _ _ _ | .rngx e _ _ _ _ | .srng e _ _ _ | .snext e _ _ | .sset e _ _ _ | .srd e _ _ | .rsto e _ _ _ _
  | .ld e _ _ _ _ | .st e _ _ _ | .dmago e _ _ _ | .dmaab e _
  | .rdstep e _ | .rdid e _ _ | .rdcnt e _ _ | .mstg e _ _ _ | .mchk e _ | .mcommit e _ _ _ _ | .evt e _ _ | .gkick e _ | .gtrap e _
  | .mov _ e _ _ | .add _ e _ _ _ | .sub _ e _ _ _ | .and _ e _ _ _ | .or _ e _ _ _ | .xor _ e _ _ _ | .shl _ e _ _ _ | .shr _ e _ _ _
  | .sar _ e _ _ _ | .mul _ e _ _ _ | .movh _ e _ _ | .cmp _ e _ _ _ _ | .fop _ e _ _ _ _
  | .treeTrd e _ _ _ | .tslot e _ _ _ _ _ | .tbar e _ _ _ | .tlreq e _ _ _ _ _ _ | .tcmpg e _ _ _ _ | .tlock e _ _ _ _ | .trel e _ _
  | .vgen e _ _ _ | .vseal e _ _ | .vcmp e _ _ _ | .vrest e _ _ _ | .vdrop e _ _ | .lseal e _ _ | .lflush e _ | .larch e _ _ _ | .ltrim e _ _ => some e
  | _ => none

/-- The operands of a slot operation hold no reserved encoding; of another command, they name things its part has. -/
def Instr.operandsOk (l : Licence) (bundles : Nat) : Instr → Bool
  | .br _ _ t => t.toNat < bundles
  | .brr p _ a => regOk p a
  | .loop p _ d t => regOk p d && decide (t.toNat < bundles)
  | .waitt p _ tb rel a _ => waittOk l p tb rel a
  | .waitc p _ c k a _ _ tmo _ => cntOk l p c k && regOk p a && tmo != 0
  | .quiet _ _ mask n => quietOk mask n
  | .trd _ d tb nsf => trdOk l .el d tb nsf
  | .frcrd _ d => pairOk .el d
  | .parm _ _ tb rel a _ _ => decide (tb.val < l.tbCount) && (if rel then tb == 0 else a.val % 2 == 0)
  | .lreq _ q a rel start _ g => destOk l .el q && lreqOk .el a rel start g
  | .cinc _ c k amt => cntOk l .el c k && amt != 0
  | .cincr _ c k _ | .crd _ _ c k => cntOk l .el c k
  | .wreg _ c k _ _ eng w => cntOk l .el c k && decide (eng.val < l.engPerCore) && decide (w.toNat < l.watches)
  | .wclr _ w => w.toNat < l.watches
  | .arrive _ q _ _ | .bar _ q _ _ | .ann _ q _ _ _ _ _ | .spass _ q _ _ _ _ | .ssum _ q _ _ _
  | .fpcmp _ q _ _ | .xchk _ q _ _ | .sealv _ q _ | .sealq _ q _ | .lstag _ q _ => destOk l .el q
  | .scale _ q t => destOk l .el q && scaleOk t
  | .tconv _ q t => destOk l .el q && tconvOk t
  | .tadd _ q t => destOk l .el q && taddOk t
  | .tfin _ q t => destOk l .el q && tfinOk t
  | .psum _ q t => destOk l .el q && psumOk t
  | .bcvg _ q k | .bcvv _ q k => destOk l .el q && k.fa == 0 && k.kind == 0
  | .fpa _ q k => destOk l .el q && k.ga == 0 && k.kind == 0
  | .lemit _ q _ _ kind => destOk l .el q && decide (kind.toNat ≤ 4)
  | .frd _ _ _ sel => sel != 3
  | .rng _ d _ _ f => pairOk .el d && purposeOk f
  | .rngx _ d _ _ f => d.val % 8 == 0 && purposeOk f
  | .srng _ d n f => pairOk .el d && decide (n.val < l.streams) && purposeOk f
  | .rsto _ _ _ _ f => purposeOk f
  | .srd _ d n => pairOk .el d && decide (n.val < l.streams)
  | .snext _ _ n | .sset _ n _ _ => n.val < l.streams
  | .dmago _ q ch _ => destOk l .el q && decide (ch.val < l.dmaCh)
  | .dmaab _ ch => ch.val < l.dmaCh
  | .rdid _ _ sel => sel.val < 6
  | .rdcnt _ _ src => src.val < 6
  | .mcommit _ _ rel a _ => rel || a.val % 2 == 0
  | .mov p _ d o => regOk p d && opndOk p o
  | .add p _ d a o | .sub p _ d a o | .and p _ d a o | .or p _ d a o | .xor p _ d a o | .shl p _ d a o | .shr p _ d a o | .sar p _ d a o
  | .mul p _ d a o => regOk p d && regOk p a && opndOk p o
  | .movh p _ d _ => regOk p d
  | .cmp p _ _ cond a o => decide (cond.val < 6) && regOk p a && opndOk p o
  | .treeTrd _ d tb nsf => trdOk l .ux d tb nsf
  | .tslot _ q _ opk a b => destOk l .ux q && regOk .ux a && regOk .ux b && decide (opk.val < 6)
  | .tbar _ q _ a => destOk l .ux q && regOk .ux a
  | .tlreq _ q a rel start _ g => destOk l .ux q && lreqOk .ux a rel start g
  | .tcmpg _ q _ a b | .vgen _ q a b | .vcmp _ q a b | .vrest _ q a b | .larch _ q a b => destOk l .ux q && regOk .ux a && regOk .ux b
  | .tlock _ q a b c => destOk l .ux q && regOk .ux a && regOk .ux b && regOk .ux c
  | .vseal _ q a | .vdrop _ q a | .lseal _ q a | .ltrim _ q a => destOk l .ux q && regOk .ux a
  | .trel _ q _ | .lflush _ q => destOk l .ux q
  | .pulseArm p i | .pulseDisarm p i | .pulseEdge p i => (match p with | .el => decide (i.val < 4) | .ux => true)
  | .timeMessage p x _ | .upwardMark p x _ _ | .markSend p x | .tcalRecal p x | .frameSlot p x | .frameReceive p x _ | .replayTimeout p x
  | .losPersist p x _ | .fecAlignLoss p x | .awayFrame p x _ | .signalDetect p x | .laneJoinCmd p x | .trainDone p x _ | .trainTimeout p x
  | .joinFrame p x _ _ | .laneLeaveCmd p x | .leaveFrame p x | .drainEmpty p x | .laneDrainTimeout p x | .laneCntClr p x => laneHere p x
  | .dmaHostGo ch _ | .dmaHostAbort ch | .dmaClrHalt ch | .dmaDescriptorFetch ch | .dmaRequestDone ch _ | .dmaBusError ch => ch.val < l.dmaCh
  | .watchTimeout w => w.toNat < l.watches
  | .gateAck c e _ | .engRst c e | .engRstLow c e => decide (c.toNat < l.cores) && decide (e.val < l.engPerCore)
  | _ => true

/-- A command is well formed. -/
def Instr.wf (l : Licence) (bundles : Nat) (i : Instr) : Bool :=
  (match i.env with | some e => envOk e | none => true) && i.operandsOk l bundles

end Sys2Proof
end

