-- ==== Sys2Proof/Decode.lean ====
section
/-! DEFINITION. The decoder of slot operations (R133, R164, R168 to R199): 64-bit words of program memory to commands. The opcode table gives its rows no bits, so decodeTableWord answers none. -/

namespace Sys2Proof

open Sys2Proof.Machine

namespace Dec

/-- Bits [hi:lo] of a word. -/
def bf (w hi lo : Nat) : Nat := w / 2 ^ lo % 2 ^ (hi + 1 - lo)

/-- A register index at bit `lo`. -/
def rg (w lo : Nat) : Fin 64 := Fin.ofNat 64 (w / 2 ^ lo)

/-- A flag index at bit `lo`. -/
def cf (w lo : Nat) : Fin 8 := Fin.ofNat 8 (w / 2 ^ lo)

/-- A two-bit field at bit `lo`. -/
def f2 (w lo : Nat) : Fin 4 := Fin.ofNat 4 (w / 2 ^ lo)

/-- A four-bit field at bit `lo`. -/
def f4 (w lo : Nat) : Fin 16 := Fin.ofNat 16 (w / 2 ^ lo)

/-- A bit. -/
def bit (w lo : Nat) : Bool := bf w lo lo == 1

/-- `n` bits at bit `lo`. -/
def bv (n w lo : Nat) : BitVec n := BitVec.ofNat n (w / 2 ^ lo)

/-- Reserved bits are 0, and the operation is `i` (R169). -/
def z (w : Nat) (rs : List (Nat × Nat)) (i : Instr) : Option Instr :=
  if rs.all (fun r => bf w r.1 r.2 == 0) then some i else none

/-- The envelope (R133). -/
def envOf (w : Nat) (last : Bool) : Env := { pen := bit w 57, pneg := bit w 56, pflag := cf w 53, last := last }

/-- The completion counter of format Q (R170). -/
def qd (w : Nat) : QDest := { core := bv 8 w 45, k := bv 6 w 39, amt := bv 4 w 35 }

/-- The tail of format T (R184). -/
def tArgs (w : Nat) : TArgs :=
  { ga := rg w 29, gb := rg w 23, gn := rg w 17, ge := rg w 11, fmt := bv 4 w 7, cls := f2 w 5, mx := bit w 4 }

/-- The tail of format K (before R190). -/
def kArgs (w : Nat) : KArgs := { ga := rg w 29, gb := rg w 23, gn := rg w 17, gt := rg w 11, fa := f4 w 7, kind := bv 4 w 3 }

/-- The SEQ slot (R174); on Uhloux with K reserved in WAITC, and TRD (R197). -/
def seqSlot (p : Part) (op w : Nat) (e : Env) : Option Instr :=
  match op with
  | 0x01 => z w [(52, 16)] (.br p e (bv 16 w 0))
  | 0x02 => z w [(52, 47), (40, 0)] (.brr p e (rg w 41))
  | 0x03 => z w [(46, 16)] (.loop p e (rg w 47) (bv 16 w 0))
  | 0x04 => z w [(49, 47), (40, 32)] (.waitt p e (f2 w 51) (bit w 50) (rg w 41) (bv 32 w 0))
  | 0x05 => z w [(2, 0)] (.waitc p e (bv 8 w 45) (bv 6 w 39) (rg w 33) (bit w 32) (f2 w 30) (bv 24 w 6) (cf w 3))
  | 0x06 => z w [(52, 0)] (.halt p e)
  | 0x07 => z w [(45, 24)] (.quiet p e (bv 7 w 46) (bv 24 w 0))
  | 0x08 => match p with
    | .ux => z w [(43, 0)] (.treeTrd e (rg w 47) (f2 w 45) (bit w 44))
    | .el => none
  | _ => none

/-- The TIME slot (R179). -/
def timeSlot (op w : Nat) (e : Env) : Option Instr :=
  match op with
  | 0x01 => z w [(43, 0)] (.trd e (rg w 47) (f2 w 45) (bit w 44))
  | 0x02 => z w [(46, 0)] (.frcrd e (rg w 47))
  | 0x03 => z w [(47, 47), (37, 32)] (.parm e (f2 w 51) (f2 w 49) (bit w 48) (rg w 41) (cf w 38) (bv 32 w 0))
  | 0x04 => z w [(18, 16)] (.lreq e (qd w) (rg w 29) (bit w 28) (bit w 27) (bv 8 w 19) (bv 16 w 0))
  | 0x05 => z w [(28, 0)] (.larm e (bv 8 w 45) (bv 16 w 29))
  | _ => none

/-- The SYNC slot (R181). -/
def syncSlot (op w : Nat) (e : Env) : Option Instr :=
  match op with
  | 0x01 => z w [(22, 0)] (.cinc e (bv 8 w 45) (bv 6 w 39) (bv 16 w 23))
  | 0x02 => z w [(32, 0)] (.cincr e (bv 8 w 45) (bv 6 w 39) (rg w 33))
  | 0x03 => z w [(32, 0)] (.crd e (rg w 47) (bv 8 w 39) (bv 6 w 33))
  | 0x04 => z w [(16, 0)] (.wreg e (bv 8 w 45) (bv 6 w 39) (rg w 33) (bit w 32) (cf w 29) (bv 12 w 17))
  | 0x05 => z w [(52, 29), (16, 0)] (.wclr e (bv 12 w 17))
  | 0x06 => z w [(24, 0)] (.arrive e (qd w) (bv 8 w 27) (f2 w 25))
  | 0x07 => z w [(24, 0)] (.bar e (qd w) (bv 8 w 27) (f2 w 25))
  | 0x08 => z w [(4, 0)] (.ann e (qd w) (rg w 29) (rg w 23) (bv 8 w 15) (bv 6 w 9) (bv 4 w 5))
  | _ => none

/-- The RED slot (R184, R185). -/
def redSlot (op w : Nat) (e : Env) : Option Instr :=
  match op with
  | 0x01 => z w [(3, 0)] (.scale e (qd w) (tArgs w))
  | 0x02 => z w [(3, 0)] (.tconv e (qd w) (tArgs w))
  | 0x03 => z w [(3, 0)] (.tadd e (qd w) (tArgs w))
  | 0x04 => z w [(3, 0)] (.tfin e (qd w) (tArgs w))
  | 0x05 => z w [(3, 0)] (.psum e (qd w) (tArgs w))
  | 0x06 => z w [(9, 0)] (.spass e (qd w) (bv 12 w 23) (rg w 17) (rg w 11) (bit w 10))
  | 0x07 => z w [(10, 0)] (.ssum e (qd w) (bv 12 w 23) (rg w 17) (rg w 11))
  | _ => none

/-- The CHK slot (R190). -/
def chkSlot (op w : Nat) (e : Env) : Option Instr :=
  match op with
  | 0x01 => z w [(2, 0)] (.bcvg e (qd w) (kArgs w))
  | 0x02 => z w [(2, 0)] (.bcvv e (qd w) (kArgs w))
  | 0x03 => z w [(2, 0)] (.fpa e (qd w) (kArgs w))
  | 0x04 => z w [(30, 11), (6, 0)] (.fpcmp e (qd w) (f4 w 7) (f4 w 31))
  | 0x05 => z w [(22, 11), (6, 0)] (.xchk e (qd w) (bv 12 w 23) (f4 w 7))
  | 0x06 => z w [(34, 17), (2, 0)] (.lemit e (qd w) (rg w 11) (f4 w 7) (bv 4 w 3))
  | 0x07 => z w [(28, 0)] (.sealv e (qd w) (rg w 29))
  | 0x08 => z w [(28, 0)] (.sealq e (qd w) (rg w 29))
  | 0x09 => z w [(34, 11), (6, 0)] (.lstag e (qd w) (f4 w 7))
  | 0x10 => z w [(48, 0)] (.fclr e (f4 w 49))
  | 0x11 => z w [(40, 0)] (.frd e (rg w 47) (f4 w 43) (f2 w 41))
  | 0x12 => z w [(48, 47), (40, 24)] (.fsto e (f4 w 49) (rg w 41) (bv 24 w 0))
  | _ => none

/-- The SEED slot (R191). -/
def seedSlot (op w : Nat) (e : Env) : Option Instr :=
  match op with
  | 0x01 => z w [(18, 0)] (.rng e (rg w 47) (rg w 41) (rg w 35) (bv 16 w 19))
  | 0x02 => z w [(18, 0)] (.rngx e (rg w 47) (rg w 41) (rg w 35) (bv 16 w 19))
  | 0x03 => z w [(40, 35), (18, 0)] (.srng e (rg w 47) (rg w 41) (bv 16 w 19))
  | 0x04 => z w [(40, 0)] (.snext e (rg w 47) (rg w 41))
  | 0x05 => z w [(52, 47), (28, 0)] (.sset e (rg w 41) (rg w 35) (rg w 29))
  | 0x06 => z w [(40, 0)] (.srd e (rg w 47) (rg w 41))
  | 0x07 => z w [(52, 47), (12, 0)] (.rsto e (rg w 41) (rg w 35) (rg w 29) (bv 16 w 13))
  | _ => none

/-- The MOVE slot (R193). -/
def moveSlot (op w : Nat) (e : Env) : Option Instr :=
  match op with
  | 0x01 => z w [(40, 24)] (.ld e (rg w 47) (rg w 41) (bv 24 w 0) 0)
  | 0x02 => z w [(52, 47), (34, 24)] (.st e (rg w 41) (rg w 35) (bv 24 w 0))
  | 0x03 => z w [(24, 0)] (.dmago e (qd w) (f4 w 31) (rg w 25))
  | 0x04 => z w [(48, 0)] (.dmaab e (f4 w 49))
  | _ => none

/-- The second operand of format R (before R196), with its reserved bits. -/
def opnd (w : Nat) : Option Opnd :=
  if bf w 33 32 ≠ 0 then none
  else if bit w 34 then (if bf w 40 35 = 0 then some (.imm (bv 32 w 0)) else none)
  else if bf w 31 0 = 0 then some (.reg (rg w 35)) else none

/-- The integer operations (R196). -/
def intOp (p : Part) (op w : Nat) (e : Env) : Option Instr :=
  let d := rg w 47
  let a := rg w 41
  match op with
  | 0x20 => if bf w 46 41 = 0 then (opnd w).map (fun o => .mov p e d o) else none
  | 0x21 => (opnd w).map (fun o => .add p e d a o)
  | 0x22 => (opnd w).map (fun o => .sub p e d a o)
  | 0x23 => (opnd w).map (fun o => .and p e d a o)
  | 0x24 => (opnd w).map (fun o => .or p e d a o)
  | 0x25 => (opnd w).map (fun o => .xor p e d a o)
  | 0x26 => (opnd w).map (fun o => .shl p e d a o)
  | 0x27 => (opnd w).map (fun o => .shr p e d a o)
  | 0x28 => (opnd w).map (fun o => .sar p e d a o)
  | 0x29 => (opnd w).map (fun o => .mul p e d a o)
  | 0x2A => if bit w 34 then z w [(46, 41), (40, 35), (33, 32)] (.movh p e d (bv 32 w 0)) else none
  | 0x2B => (opnd w).map (fun o => .cmp p e (cf w 50) (cf w 47) a o)
  | 0x2C => z w [(41, 0)] (.fop p e (cf w 50) (cf w 47) (cf w 44) (f2 w 42))
  | _ => none

/-- The CTRL slot (R194), with the integer operations. -/
def ctrlSlot (op w : Nat) (e : Env) : Option Instr :=
  match op with
  | 0x01 => z w [(46, 0)] (.rdstep e (rg w 47))
  | 0x02 => z w [(43, 0)] (.rdid e (rg w 47) (cf w 44))
  | 0x03 => z w [(42, 0)] (.rdcnt e (rg w 47) (f4 w 43))
  | 0x04 => z w [(49, 47), (34, 0)] (.mstg e (cf w 50) (rg w 41) (rg w 35))
  | 0x05 => z w [(49, 0)] (.mchk e (cf w 50))
  | 0x06 => z w [(48, 47), (40, 32)] (.mcommit e (cf w 50) (bit w 49) (rg w 41) (bv 32 w 0))
  | 0x07 => z w [(52, 47), (40, 16)] (.evt e (rg w 41) (bv 16 w 0))
  | 0x08 => z w [(45, 0)] (.gkick e (bv 7 w 46))
  | 0x09 => z w [(52, 47), (40, 0)] (.gtrap e (rg w 41))
  | _ => intOp .el op w e

/-- The TREE slot (R198). -/
def treeSlot (op w : Nat) (e : Env) : Option Instr :=
  match op with
  | 0x01 => z w [(7, 0)] (.tslot e (qd w) (bv 12 w 23) (cf w 20) (rg w 14) (rg w 8))
  | 0x02 => z w [(20, 0)] (.tbar e (qd w) (bv 8 w 27) (rg w 21))
  | 0x03 => z w [(18, 16)] (.tlreq e (qd w) (rg w 29) (bit w 28) (bit w 27) (bv 8 w 19) (bv 16 w 0))
  | 0x04 => z w [(10, 0)] (.tcmpg e (qd w) (bv 12 w 23) (rg w 17) (rg w 11))
  | 0x05 => z w [(34, 23), (4, 0)] (.tlock e (qd w) (rg w 17) (rg w 11) (rg w 5))
  | 0x06 => z w [(22, 0)] (.trel e (qd w) (bv 12 w 23))
  | _ => none

/-- The VAULT slot (R199); fields an operation does not name are reserved. -/
def vaultSlot (op w : Nat) (e : Env) : Option Instr :=
  match op with
  | 0x01 => z w [(22, 0)] (.vgen e (qd w) (rg w 29) (rg w 23))
  | 0x02 => z w [(28, 0)] (.vseal e (qd w) (rg w 29))
  | 0x03 => z w [(22, 0)] (.vcmp e (qd w) (rg w 29) (rg w 23))
  | 0x04 => z w [(22, 0)] (.vrest e (qd w) (rg w 29) (rg w 23))
  | 0x05 => z w [(28, 0)] (.vdrop e (qd w) (rg w 29))
  | _ => none

/-- The LEDG slot (R199). -/
def ledgSlot (op w : Nat) (e : Env) : Option Instr :=
  match op with
  | 0x01 => z w [(28, 0)] (.lseal e (qd w) (rg w 29))
  | 0x02 => z w [(34, 0)] (.lflush e (qd w))
  | 0x03 => z w [(22, 0)] (.larch e (qd w) (rg w 29) (rg w 23))
  | 0x04 => z w [(28, 0)] (.ltrim e (qd w) (rg w 29))
  | _ => none

end Dec

/-- The raw decoding of a slot's word; NOP in every slot has OP 0. -/
def decodeRaw (p : Part) (slot w : Nat) (last : Bool) : Option Instr :=
  let op := Dec.bf w 63 58
  let e := Dec.envOf w last
  if op = 0 then some (.nop p e)
  else match p, slot with
  | .el, 0 => Dec.seqSlot .el op w e
  | .el, 1 => Dec.timeSlot op w e
  | .el, 2 => Dec.syncSlot op w e
  | .el, 3 => Dec.redSlot op w e
  | .el, 4 => Dec.chkSlot op w e
  | .el, 5 => Dec.seedSlot op w e
  | .el, 6 => Dec.moveSlot op w e
  | .el, 7 => Dec.ctrlSlot op w e
  | .ux, 0 => if 0x20 ≤ op then Dec.intOp .ux op w e else Dec.seqSlot .ux op w e
  | .ux, 1 => Dec.treeSlot op w e
  | .ux, 2 => Dec.vaultSlot op w e
  | .ux, 3 => Dec.ledgSlot op w e
  | _, _ => none

/-- A slot's word as a command; none where R135, R147 or R169 refuses it. -/
def decodeSlot (l : Licence) (bundles : Nat) (p : Part) (slot w : Nat) (last : Bool) : Option Instr :=
  match decodeRaw p slot w last with
  | some i => if i.wf l bundles then some i else none
  | none => none

/-- The slots of a bundle (R132, R164). -/
def slotCount : Part → Nat
  | .el => 8
  | .ux => 4

/-- A destination a slot operation names (R137): a register or a flag. -/
inductive Dest where
  | g (n : Nat)
  | c (n : Nat)
  deriving DecidableEq, Repr

/-- The destinations of a slot operation. -/
def Instr.dests : Instr → List Dest
  | .loop _ _ d _ | .crd _ d _ _ | .frd _ d _ _ | .snext _ d _ | .ld _ d _ _ _ | .rdstep _ d | .rdid _ d _ | .rdcnt _ d _ | .mov _ _ d _
  | .add _ _ d _ _ | .sub _ _ d _ _ | .and _ _ d _ _ | .or _ _ d _ _ | .xor _ _ d _ _ | .shl _ _ d _ _ | .shr _ _ d _ _ | .sar _ _ d _ _
  | .mul _ _ d _ _ | .movh _ _ d _ => [.g d]
  | .trd _ d _ nsf | .treeTrd _ d _ nsf => if nsf then [.g d] else [.g d, .g (d + 1)]
  | .frcrd _ d | .rng _ d _ _ _ | .srng _ d _ _ | .srd _ d _ => [.g d, .g (d + 1)]
  | .rngx _ d _ _ _ => (List.range 8).map (fun i => .g (d + i))
  | .waitc _ _ _ _ _ eq _ _ f => if eq then [.c f] else []
  | .parm _ _ _ _ _ f _ | .mstg _ f _ _ | .mchk _ f | .mcommit _ f _ _ _ | .cmp _ _ f _ _ _ | .fop _ _ f _ _ _ => [.c f]
  | _ => []

/-- Two operations of one bundle may share a destination only when predicated on one flag with opposite PNEG (R137). -/
def destClash (i j : Instr) : Bool :=
  i.dests.any (fun d => j.dests.contains d) &&
    (match i.env, j.env with
     | some a, some b => !(a.pen && b.pen && a.pflag == b.pflag && a.pneg != b.pneg)
     | _, _ => true)

/-- The words of the slots decoded; the last slot closes the bundle. -/
def decodeBundle (l : Licence) (bundles : Nat) (p : Part) (ws : List Nat) : Option (List Instr) :=
  (List.range (slotCount p)).mapM (fun k => decodeSlot l bundles p k (ws.getD k 0) (k + 1 == slotCount p))

/-- The cause R135, R137 or R147 gives a bundle (R158): 8 ENCODING, 9 DEST_CONFLICT, 0 none. -/
def bundleCause (l : Licence) (bundles : Nat) (p : Part) (ws : List Nat) : Nat :=
  match decodeBundle l bundles p ws with
  | none => 8
  | some is => if (List.range is.length).any (fun i => (List.range i).any (fun j => destClash (is.getD i (.modulePoll)) (is.getD j (.modulePoll)))) then 9 else 0

/-- The command a word of the opcode table spells: the table gives its rows no bits, so none. -/
def decodeTableWord (_nbits _w : Nat) : Option Instr := none

end Sys2Proof
end

