-- ==== Sys2Proof/Machine/Flags.lean ====
section
/-! DEFINITION. The flag computations of the integer operations (R196): the conditions of CMP and the functions of FOP. Arithmetic sets no flag. -/

namespace Sys2Proof.Machine

/-- A CMP condition: 0 EQ, 1 NE, 2 LTU, 3 GEU, 4 LT, 5 GE. -/
def cmpCond (cond : Nat) (a b : Word) : Bool :=
  match cond with
  | 0 => a == b
  | 1 => a != b
  | 2 => a.ult b
  | 3 => !a.ult b
  | 4 => a.slt b
  | _ => !a.slt b

/-- A FOP function: 0 AND, 1 OR, 2 XOR, 3 AND NOT. -/
def fopFn (fn : Nat) (a b : Bool) : Bool :=
  match fn with
  | 0 => a && b
  | 1 => a || b
  | 2 => a != b
  | _ => a && !b

end Sys2Proof.Machine
end

