-- ==== Sys2Proof/Machine/Issue.lean ====
section
/-! DEFINITION. The issue of a bundle (R134, R136, R138, R139, R144, R151, R172, R377): slot operations gather what the bundle does; its last executing operation ends the issue cycle, and all of it takes effect together, or the bundle is held. -/

namespace Sys2Proof.Machine

/-! ### Same-word writes (R377) -/

/-- The words an SPM write makes: slot, address, word. -/
def Act.words : Act → List (Nat × Nat × Word)
  | .spm slot addr ws => (List.range ws.length).map (fun i => (slot, addr + 8 * i, ws.getD i 0))
  | _ => []

/-- A word is also written by a lower-numbered slot. -/
def wordLost (all : List (Nat × Nat × Word)) (x : Nat × Nat × Word) : Bool := all.any (fun y => y.1 < x.1 && y.2.1 == x.2.1)

/-- An operation has lost a word (R377): WLOST is counted, and 0x7003 is logged once per step. -/
def State.wlost (s : State) (addr : Nat) : State :=
  let s := (s.count .el Reg.SPM_CNT_WLOST 1).put .el Reg.SPM_STAT_WLOST 1
  if s.el.wlostLogged then s else (s.log .el 0x07 0x7003 (s.pc .el) addr).modEl (fun e => { e with wlostLogged := true })

/-- The SPM writes of a bundle: of two writes of one word the lower slot's is made; a losing operation is counted once. -/
def State.spmWrites (s : State) (acts : List Act) : State :=
  let all := acts.flatMap Act.words
  let s := (all.filter (fun x => !wordLost all x)).foldl (fun t x => t.spmPut x.2.1 x.2.2) s
  acts.foldl (fun t a => match a.words.find? (wordLost all) with
    | some x => t.wlost x.2.1
    | none => t) s

/-- The SPM accesses of a bundle that are made: word addresses. -/
def bundleAccesses (acts : List Act) : List Nat :=
  let all := acts.flatMap Act.words
  ((all.filter (fun x => !wordLost all x)).map (fun x => x.2.1 / 8)) ++ acts.filterMap (fun a => match a with | .load addr => some (addr / 8) | _ => none)

/-- The cycles a bundle is held for bank conflicts (R139, R371): one per access beyond the first to each bank. -/
def bankSlips (ws : List Nat) : Nat := ws.length - ((ws.map (fun w => w % 32)).eraseDups).length

/-! ### What one operation does -/

/-- LARM sets launch_arm of an identity (R179, R241). -/
def State.larm (s : State) (lid gmask : Nat) : State :=
  let off := (Reg.LARM_MASK0 (lid / 4)).off
  s.setReg .el off (fset (s.reg .el off) (16 * (lid % 4) + 15) (16 * (lid % 4)) gmask)

/-- PARM sets START and the time base of a pulse and arms it; an armed pulse is left unchanged with 0x1011 (R59, R179, log 23). The answer says whether it was armed. -/
def State.parm (s : State) (i tb t : Nat) : State × Bool :=
  if s.bit .el (Reg.PULSE_STAT_ARMED i) then (s.log .el 0x02 0x1011 (pulseObj i) (Reg.PULSE_CTRL_ARM i).off, false)
  else
    (((s.setReg .el (Reg.PULSE_START_SEC_SEC i).off (hxtSecW t)).setReg .el (Reg.PULSE_START_NSF_NS i).off (hxtNsfW t)).put .el
      (Reg.PULSE_CTRL_TB i) tb).pulseArm .el i

/-- A slack-water window of QUIET (R150): N = 0 closes the open one, else it opens over the mask until its issue time plus N nominal periods. While TB0 is UNSET the issue time is the 0 it reads (log 109). -/
def State.quiet (s : State) (p : Part) (mask n : Nat) : State :=
  if n = 0 then s.closeWindow p
  else s.openWindow p { mask := mask, until? := some (hxtAdd (s.tbNow p 0) (nomPeriods n (s.seq p).fclkNom)), ready := false, logged := false }

/-- An announcement's end-to-end identity is that of the operation that sends it (R219). -/
def QKind.withIdent (k : QKind) (id : Nat) : QKind :=
  match k with
  | .ann d m => .ann d { m with ident := id }
  | _ => k

/-- An operation enters its queue (R142); one issued to a disabled unit completes DISABLED instead (R450). -/
def State.enqueue (s : State) (p : Part) (q : QueueId) (kind : QKind) (core k amt entries : Nat) : State :=
  if s.queueOn q then
    s.mod p (fun b => { b with nextQid := b.nextQid + 1, qops := b.qops ++ [{ id := b.nextQid, queue := q, kind := kind.withIdent b.nextQid, pc := s.pc p, core := core, k := k, amt := amt, entries := entries, started := false }] })
  else (s.talLast kind.redOp (s.pc p) stDisabled 0).qfail p q (s.pc p) stDisabled

/-- A RED operation refused at issue for its count (R141, R187), or DISABLED (R450). -/
def State.refuse (s : State) (p : Part) (q : QueueId) (op : Nat) : State :=
  if s.queueOn q then (s.talReport op (s.pc p) stRefused 0 0).qfail p q (s.pc p) stRefused
  else (s.talLast op (s.pc p) stDisabled 0).qfail p q (s.pc p) stDisabled

/-- SRNG at the last position (0x4020, with the current sample) or without a sample (0x4021, with CURSOR): logged once per stream and step (R192, R278, R285). -/
def State.seedLog (s : State) (n code : Nat) : State :=
  if code = 0x4020 then
    if s.el.posLogged.contains n then s
    else ((s.put .el Reg.SEED_STAT_POS_EXH 1).log .el 0x06 0x4020 n ((s.curSample n).getD 0)).modEl (fun e => { e with posLogged := e.posLogged ++ [n] })
  else
    if s.el.emptyLogged.contains n then s
    else ((s.put .el Reg.SEED_STAT_EMPTY 1).log .el 0x06 0x4021 n (s.cursor n).toNat).modEl (fun e => { e with emptyLogged := e.emptyLogged ++ [n] })

/-- The effect of one operation of a bundle, but for its SPM writes, increments, watches, control flow and faults. -/
def State.applyAct (s : State) (p : Part) (a : Act) : State :=
  match a with
  | .g d v => s.setGreg p d v
  | .flag c b => s.setFlag p c b
  | .window mask n => s.quiet p mask n
  | .pulse i tb t => (s.parm i tb t).1
  | .larm lid gmask => s.larm lid gmask
  | .queue q kind core k amt entries => s.enqueue p q kind core k amt entries
  | .refuse q op => s.refuse p q op
  | .fclr fa => s.modEl (fun e => { e with fas := tput ⟨0, 0, 0⟩ e.fas fa ⟨0, 0, 0⟩ })
  | .stream n cursor pos => (s.permStretch n cursor.toNat).setStream n cursor pos
  | .streamPos n pos => s.put .el (Reg.SEED_S_CUR_POS n) pos
  | .seedLog n code => s.seedLog n code
  | .log unit code object detail => s.log p unit code object detail
  | .stage off v => (s.stage p off v).1
  | .commit t => (s.manArm p t).1
  | .kick mask => s.wdRestart p mask
  | .abort ch => s.dmaAbort ch stAborted
  | .inc _ _ _ | .branch _ | .fault _ _ | .halt | .wreg _ _ _ _ _ _ | .wclr _ | .spm _ _ _ | .unit _ | .load _ | .replay _ _ => s

/-- The watch registrations and releases of a bundle, compared with the counters as the cycle leaves them (R211). -/
def State.applyWatch (s : State) (a : Act) : State :=
  match a with
  | .wreg core k target eq eng w => (s.watchReg false core k target eq eng w).1
  | .wclr w => s.watchClear w
  | _ => s

/-- The increments of a bundle. -/
def bundleIncs (acts : List Act) : List (Nat × Nat) := acts.filterMap (fun a => match a with | .inc core k n => some (cntKey core k, n) | _ => none)

/-- The loads of a bundle whose word is persistently bad (R380), after two replays of two slips each, and those a replay heals (R379). -/
def State.applyLoad (s : State) (a : Act) : State :=
  match a with
  | .load addr => if s.el.spmBad.contains (addr / 8) then (s.slip .el 4).spmPersist 6 addr (s.pc .el) else s
  | .replay addr n => if n = 0 || s.el.spmBad.contains (addr / 8) then s else (s.slip .el (2 * n)).spmReplay 6 addr (s.pc .el)
  | _ => s

/-- The runtime faults of a bundle are logged (R172, R200). -/
def State.logFault (s : State) (p : Part) (a : Act) : State :=
  match a with
  | .fault code detail => s.log p (unitSeq p) code (s.pc p) detail
  | _ => s

/-- The branch target of a bundle. -/
def bundleBranch (acts : List Act) : Option Nat := acts.findSome? (fun a => match a with | .branch t => some t | _ => none)

/-- A bundle holds a fault. -/
def bundleFaults (acts : List Act) : Bool := acts.any (fun a => match a with | .fault _ _ => true | _ => false)

/-- A bundle holds a HALT. -/
def bundleHalts (acts : List Act) : Bool := acts.contains .halt

/-- Control flow at the end of an issue cycle (R138, R160, R172): a fault ends the step, HALT starts the drain, a branch redirects, and running past the last bundle is a fault. -/
def State.bundleFlow (s : State) (p : Part) (acts : List Act) (pairFault : Bool) : State :=
  let pc := s.pc p
  let next := (bundleBranch acts).getD (pc + 1)
  let past := !bundleHalts acts && !bundleFaults acts && next == (s.seq p).bundles
  let s := acts.foldl (fun t a => t.logFault p a) s
  let s := if past then s.log p (unitSeq p) 0x8086 pc (s.seq p).bundles else s
  let s := if s.seqState p = 3 then s.put p Reg.SEQ_PC_PC next else s
  if bundleFaults acts || pairFault || past then s.programFault p
  else if bundleHalts acts && s.seqState p == 3 then (s.setSeqState p 4).drainCheck p
  else s

/-- Everything a bundle does takes effect at the end of its issue cycle (R136, R171). -/
def State.applyBundle (s : State) (p : Part) (acts : List Act) : State :=
  let loads := fun (t : State) => acts.foldl (fun u a => u.applyLoad a) t
  let s := (loads s).spmWrites acts
  let s := acts.foldl (fun t a => t.applyAct p a) s
  let r := match p with
    | .el => s.incRaw (bundleIncs acts)
    | .ux => (s, false)
  let s := acts.foldl (fun t a => t.applyWatch a) r.1
  s.bundleFlow p acts r.2

/-! ### Holds (R139) -/

/-- A slack-water window is open: it has not reached its end (R150). -/
def State.windowOpen (s : State) (p : Part) : Option Window :=
  match (s.seq p).window with
  | some w => match w.until? with
    | some t => if s.tbReached p 0 t then none else some w
    | none => some w
  | none => none

/-- The units of slots 1 to 7 a bundle addresses, as a window's mask numbers them. -/
def bundleUnits (acts : List Act) : List Nat := acts.filterMap (fun a => match a with | .unit (n + 1) => some n | _ => none)

/-- A bundle addresses a unit of an open window (R151). -/
def State.windowHeld (s : State) (p : Part) (acts : List Act) : Option Window :=
  match s.windowOpen p with
  | some w => if (bundleUnits acts).any (fun n => bitOf w.mask n) then some w else none
  | none => none

/-- The units an action takes, as a window's mask numbers them (R463): MASK, MOVE, TIME; HBM training takes stacks, and TDC calibration no unit of a tree bundle. -/
def actionUnits (p : Part) (a mask : Nat) : Nat := if a = 1 then mask else if p = .ux then 0 else if a = 2 then 32 else if a = 3 then 1 else 0

/-- A forced action holds a sequencer (R464). -/
def State.testHeld (s : State) (p : Part) : Bool := s.testRunning p && (s.base p).selftest.force

/-- A tree bundle addresses a unit on which an action runs (R153). -/
def State.actionHeld (s : State) (p : Part) (acts : List Act) : Bool :=
  let q := (s.base p).selftest
  p == .ux && s.testRunning p && (bundleUnits acts).any (fun n => bitOf (actionUnits p q.action q.mask) n)

/-- The queues in the order of their QUEUE codes. -/
def queueList : Part → List QueueId
  | .el => [.move, .red, .chk, .ledger, .barrier]
  | .ux => [.tree, .vault, .ledg]

/-- The entries a bundle needs of a queue (R144). An operation to a disabled unit takes none. -/
def State.queueNeed (s : State) (acts : List Act) (q : QueueId) : Nat :=
  if s.queueOn q then (acts.map (fun a => match a with | .queue q' _ _ _ _ n => if q' == q then n else 0 | _ => 0)).sum else 0

/-- The first queue that lacks the entries a bundle needs (R144, R425). -/
def State.queueLack (s : State) (p : Part) (acts : List Act) : Option QueueId :=
  (queueList p).find? (fun q => queueCap q < s.queueUsed q + s.queueNeed acts q)

/-- The guard's unit of a queue (R425). -/
def queueGuardUnit : QueueId → Nat
  | .move => 7 | .red => 4 | .chk | .ledger => 5 | .barrier => 3 | .tree => 0x41 | .vault => 0x44 | .ledg => 0x43

/-- A bundle is held for a row of R139 with a slip: nothing of it takes effect, and it is next to issue again. -/
def State.holdBundle (s : State) (p : Part) (row unit : Nat) : State :=
  (s.slip p 1).modSeq p (fun q => { q with acts := [], hold := .other row unit })

/-- A bundle is held under R151, as by a window over some units: 0x8084 is logged once. -/
def State.unitsHold (s : State) (p : Part) (logged : Bool) (mask : Nat) : State :=
  (if logged then s else s.log p (unitSeq p) 0x8084 (s.pc p) mask).holdBundle p 6 1

/-- A bundle issues (R138): where it is an anchor's, the segment counts from here (R147). -/
def State.bundleIssue (s : State) (p : Part) (acts : List Act) : State :=
  let s := s.slip p (bankSlips (bundleAccesses acts))
  let s := if (s.seq p).segNew then s.put p Reg.SEQ_SLIPS_SEGMENT 0 else s
  (s.modSeq p (fun q => { q with acts := [], hold := .none, anchorOk := false, segNew := false })).applyBundle p acts

/-- The end of an issue cycle (R138): the bundle is held for one of the causes of R139, or all of it takes effect. -/
def State.bundleEnd (s : State) (p : Part) : State :=
  let q := s.seq p
  let acts := q.acts
  if q.skip then s.modSeq p (fun q => { q with acts := [], skip := false })
  else if s.testHeld p then s.holdBundle p 7 1
  else if s.actionHeld p acts then
    let t := (s.base p).selftest
    (s.unitsHold p t.logged (actionUnits p t.action t.mask)).mod p (fun b => { b with selftest := { b.selftest with logged := true } })
  else match s.windowHeld p acts with
  | some w => (s.unitsHold p w.logged w.mask).modSeq p (fun q => { q with window := some { w with logged := true } })
  | none =>
    match s.queueLack p acts with
    | some k => s.holdBundle p 3 (queueGuardUnit k)
    | none => s.bundleIssue p acts

/-! ### One slot operation -/

/-- What an executing operation of a slot does joins its bundle. -/
def State.addActs (s : State) (p : Part) (slot : Nat) (acts : List Act) : State :=
  s.modSeq p (fun q => { q with acts := q.acts ++ .unit slot :: acts })

/-- A sequencer takes slot operations: it is RUNNING, its issue is not stopped (R138, R426), its domain is ON, and its clock runs: a step that starts during a wake issues when the wake ends (R419). -/
def State.issuing (s : State) (p : Part) : Bool := s.seqState p == 3 && !(s.seq p).stopIssue && (p == .ux || (s.dstate .el 1 == 2 && !s.fclkStopped))

/-- A slot operation: predicated (R134), it joins its bundle; the last one of a bundle ends the issue cycle. A sequencer that does not issue takes none. -/
def State.slotOp (s : State) (p : Part) (e : Env) (slot : Nat) (acts : List Act) : State :=
  if s.issuing p then
    let s := if s.runs p e && !(s.seq p).skip then s.addActs p slot acts else s
    if e.last then s.bundleEnd p else s
  else s

/-- A slot operation with its encoding judged first (R135, R169). -/
def State.issue (s : State) (p : Part) (e : Env) (slot : Nat) (ok : Bool) (acts : List Act) : Out :=
  if envOk e && ok then .next (s.slotOp p e slot acts) else .refused .reservedEncoding

end Sys2Proof.Machine
end

