-- ==== Sys2Proof/Machine/TimeIsa.lean ====
section
/-! DEFINITION. The TIME slot (R179, R180) and the tree program's TRD (R197). -/

namespace Sys2Proof.Machine

/-- A queued operation with its completion counter (R170). -/
def qAct (q : QueueId) (kind : QKind) (d : QDest) (entries : Nat) : Act := .queue q kind d.core.toNat d.k.toNat (d.amt.toNat + 1) entries

/-- What TRD writes (R179): nanoseconds modulo 2^64, or SEC and then NS with FRAC. -/
def trdActs (t : Nat) (d : Nat) (nsf : Bool) : List Act :=
  if nsf then [.g d (BitVec.ofNat 64 (t / 2 ^ 32))] else [.g d (hxtSecW t), .g (d + 1) (hxtNsfW t)]

/-- TRD (R179): a time base is read, with the fraction of the tick (R42); an UNSET one reads 0. -/
def execTrd (e : Env) (d : Fin 64) (tb : Fin 4) (nsf : Bool) (s : State) : Out :=
  s.issue .el e 1 (trdOk s.el.lic .el d tb nsf) (trdActs (s.tbSample .el tb) d nsf)

/-- The tree program's TRD (R197): TB0 or TB3, in the SEQ slot. -/
def execTreeTrd (e : Env) (d : Fin 64) (tb : Fin 4) (nsf : Bool) (s : State) : Out :=
  s.issue .ux e 0 (trdOk s.el.lic .ux d tb nsf) (trdActs (s.tbSample .ux tb) d nsf)

/-- FRCRD (R179). -/
def execFrcrd (e : Env) (d : Fin 64) (s : State) : Out :=
  s.issue .el e 1 (pairOk .el d) [.g d (BitVec.ofNat 64 (s.frcSample .el)), .g (d + 1) (BitVec.ofNat 64 (s.frcSample .el / 2 ^ 64))]

/-- The START that PARM sets: as WAITT names its time, on the pulse's own time base (R179). -/
def State.parmTime (s : State) (rel : Bool) (a : Nat) (ns : Nat) : Nat :=
  if rel then hxtAdd (s.seq .el).tStep (hxtNs ns) else s.gpair .el a

/-- PARM (R179): START is set and the pulse armed under R57 to R59; the flag says whether it was armed. An HXT pair with NS above 999,999,999 is refused (R40). -/
def execParm (e : Env) (i : Fin 4) (tb : Fin 4) (rel : Bool) (a : Fin 64) (cf : Fin 8) (ns : BitVec 32) (s : State) : Out :=
  let t := s.parmTime rel a ns.toNat
  s.issue .el e 1 (decide (tb.val < s.el.lic.tbCount) && (if rel then tb == 0 else a.val % 2 == 0))
    (if rel || nsOk (s.greg .el (a + 1)) then [.pulse i tb t, .flag cf (s.parm i tb t).2]
     else [.log 0x02 0x1008 (pulseObj i) (Reg.PULSE_START_NSF_NS i).off, .flag cf false])

/-- The time a launch request names (R179). -/
def State.lreqTime (s : State) (rel : Bool) (a : Nat) : Nat :=
  if rel then hxtAdd (s.seq .el).tStep (hxtNs (s.greg .el a).toNat) else s.gpair .el a

/-- LREQ (R179, R180): a launch request enters the barrier queue. -/
def execLreq (e : Env) (q : QDest) (a : Fin 64) (rel start : Bool) (lid : BitVec 8) (gmask : BitVec 16) (s : State) : Out :=
  s.issue .el e 1 (destOk s.el.lic .el q && lreqOk .el a rel start gmask)
    [qAct .barrier (.lreq { lid := lid, t := s.lreqTime rel a, gmask := gmask, start := start, lsi := BitVec.ofNat 20 s.lsi, ident := 0 }) q 1]

/-- LARM (R179). -/
def execLarm (e : Env) (lid : BitVec 8) (gmask : BitVec 16) (s : State) : Out := s.issue .el e 1 true [.larm lid.toNat gmask.toNat]

end Sys2Proof.Machine
end

