-- ==== Sys2Proof/Machine/ChkIsa.lean ====
section
/-! DEFINITION. The CHK slot (R189, R190, R297, R298). -/

namespace Sys2Proof.Machine

/-- A fingerprint accumulator. -/
def State.fa (s : State) (i : Nat) : Fa := tget ⟨0, 0, 0⟩ s.el.fas i

/-- The 32-bit tag in a register (R287). -/
def State.gtag (s : State) (a : Nat) : Nat := (s.greg .el a).toNat % 2 ^ 32

/-- The block count in a register. -/
def State.gnum (s : State) (a : Nat) : Nat := (s.greg .el a).toNat

/-- BCVG (R190); FA and KIND are reserved. -/
def execBcvg (e : Env) (q : QDest) (k : KArgs) (s : State) : Out :=
  s.issue .el e 4 (destOk s.el.lic .el q && k.fa == 0 && k.kind == 0) [qAct .chk (.bcvg (s.gnum k.ga) (s.gnum k.gb) (s.gnum k.gn) (s.gtag k.gt)) q 1]

/-- BCVV (R190); FA and KIND are reserved. -/
def execBcvv (e : Env) (q : QDest) (k : KArgs) (s : State) : Out :=
  s.issue .el e 4 (destOk s.el.lic .el q && k.fa == 0 && k.kind == 0) [qAct .chk (.bcvv (s.gnum k.ga) (s.gnum k.gb) (s.gnum k.gn) (s.gtag k.gt)) q 1]

/-- FPA (R190); Ga and KIND are reserved. -/
def execFpa (e : Env) (q : QDest) (k : KArgs) (s : State) : Out :=
  s.issue .el e 4 (destOk s.el.lic .el q && k.ga == 0 && k.kind == 0) [qAct .chk (.fpa (s.gnum k.gb) (s.gnum k.gn) (s.gtag k.gt) k.fa) q 1]

/-- FPCMP (R190). -/
def execFpcmp (e : Env) (q : QDest) (fa fb : Fin 16) (s : State) : Out := s.issue .el e 4 (destOk s.el.lic .el q) [qAct .chk (.fpcmp fa fb) q 1]

/-- XCHK (R190). -/
def execXchk (e : Env) (q : QDest) (rid : BitVec 12) (fa : Fin 16) (s : State) : Out := s.issue .el e 4 (destOk s.el.lic .el q) [qAct .chk (.xchk rid.toNat fa none) q 1]

/-- LEMIT (R190, R297, R298): kinds 0 to 4, the tensor ID in G[t][31:20]. -/
def execLemit (e : Env) (q : QDest) (gt : Fin 64) (fa : Fin 16) (kind : BitVec 4) (s : State) : Out :=
  s.issue .el e 4 (destOk s.el.lic .el q && decide (kind.toNat ≤ 4)) [qAct .ledger (.lemit (s.gtag gt / 2 ^ 20) fa kind.toNat) q 1]

/-- SEALV (R190). -/
def execSealv (e : Env) (q : QDest) (a : Fin 64) (s : State) : Out := s.issue .el e 4 (destOk s.el.lic .el q) [qAct .ledger (.sealv (s.greg .el a)) q 1]

/-- SEALQ (R190). -/
def execSealq (e : Env) (q : QDest) (a : Fin 64) (s : State) : Out := s.issue .el e 4 (destOk s.el.lic .el q) [qAct .ledger (.sealq (s.greg .el a)) q 1]

/-- LSTAG (R190). -/
def execLstag (e : Env) (q : QDest) (fa : Fin 16) (s : State) : Out := s.issue .el e 4 (destOk s.el.lic .el q) [qAct .ledger (.lstag fa) q 1]

/-- FCLR (R189, R190). -/
def execFclr (e : Env) (fa : Fin 16) (s : State) : Out := s.issue .el e 4 true [.fclr fa]

/-- A field of an accumulator as FRD reads it. -/
def Fa.sel (f : Fa) : Nat → Word
  | 0 => f.fp
  | 1 => BitVec.ofNat 64 f.blocks
  | _ => BitVec.ofNat 64 f.mism

/-- FRD (R190); SEL = 3 is reserved. -/
def execFrd (e : Env) (d : Fin 64) (fa : Fin 16) (sel : Fin 4) (s : State) : Out := s.issue .el e 4 (sel != 3) [.g d ((s.fa fa).sel sel)]

/-- FSTO (R190): the fingerprint is stored to SPM, or fault 0x8088. -/
def execFsto (e : Env) (fa : Fin 16) (a : Fin 64) (ofs : BitVec 24) (s : State) : Out :=
  let x := s.spmAddr a ofs
  s.issue .el e 4 true (if s.spmOk x 8 then [.spm 4 x [(s.fa fa).fp]] else [.fault 0x8088 (rangeDetail 4 x)])

end Sys2Proof.Machine
end

