-- ==== Sys2Proof/Machine/Clk.lean ====
section
/-! DEFINITION. The rows of clocks and power: FCLK switch, PLL failure, stretch, throttle, sleep and wake, supplies, and the domains of Uhloux (R402 to R421, R468, R496). -/

namespace Sys2Proof.Machine

/-! ### The PLL pair (R404, R405, R412) -/

/-- The regions switch to the standby PLL: PLL_SEL changes; the former active PLL becomes the standby one and is taken to relock at once (log 46). A switch stretches at most one period of each region: whether the sequencer's region slips is free (R139, R404). -/
def State.pllSwitch (s : State) (p : Part) (ok : Bool) : State :=
  let f := Reg.CLK_STAT_PLL_SEL
  let fu := Reg.UX_CLK_STAT_PLL_SEL
  let s := match p with
    | .el => (s.put .el f (1 - s.get .el f)).put .el Reg.CLK_STAT_FMUL_CUR s.el.base.pll.standbyMul
    | .ux => s.put .ux fu (1 - s.get .ux fu)
  let s := s.modPll p (fun q => { q with activeLocked := true, standbyLocked := ok, relocking := false })
  if s.seqState p == 3 then
    let d := s.draw
    if d.1.toNat % 2 = 1 then d.2.slip p 1 else d.2
  else s

/-- FCLK_SWITCH (R404): the standby PLL has locked at FMUL_EFF, and the regions switch in a tick with FRC[21:16] = 0. Without a change in progress, or with the PLLs stopped, nothing switches; a change of CMUL applies at its commit (R413). -/
def execFclkSwitch (p : Part) (s : State) : Out :=
  .next (if (s.base p).pll.relocking && s.tick p % 64 == 0 && !(p == .el && s.fclkStopped) then
      let s := s.pllSwitch p true
      s.log p (unitClk p) 0x8001 (match p with | .el => s.get .el Reg.CLK_STAT_PLL_SEL | .ux => s.get .ux Reg.UX_CLK_STAT_PLL_SEL)
        (match p with | .el => s.get .el Reg.CLK_STAT_FMUL_CUR | .ux => s.get .ux Reg.UX_CLK_CTRL_CMUL)
    else s)

/-- The index of the active PLL. -/
def State.pllSel (s : State) : Part → Nat
  | .el => s.get .el Reg.CLK_STAT_PLL_SEL
  | .ux => s.get .ux Reg.UX_CLK_STAT_PLL_SEL

/-- The active PLL has failed with the standby PLL locked (R405): PLL_FAIL, 0x8002 with the failed PLL, and the switch. -/
def State.pllFailover (s : State) (p : Part) : State :=
  let i := s.pllSel p
  let s := s.put p (match p with | .el => Reg.CLK_STAT_PLL_FAIL | .ux => Reg.UX_CLK_STAT_PLL_FAIL) 1
  let s := (s.log p (unitClk p) 0x8002 i i).pllSwitch p false
  match p with
  | .el => s.fmulFollow
  | .ux => s

/-- Both PLLs are lost (R405, R412): FCLK_LOSS, which on Uhloux is a warm reset. -/
def State.fclkLost (s : State) (p : Part) : State := (s.modPll p (fun q => { q with activeLocked := false })).guardTrigger p 6 0 3 false

/-- PLL_FAIL (R405): the active PLL has lost lock. Whether a standby PLL that failed or relocks has locked again by then is free, but for one known lost (R468). -/
def execPllFail (p : Part) (s : State) : Out :=
  .next (if p == .el && s.fclkStopped then s
    else if (s.base p).pll.standbyLocked then s.pllFailover p
    else if p == .ux && s.ux.corePllLost then s.fclkLost .ux
    else
      let d := s.draw
      if d.1.toNat % 2 = 1 then d.2.pllFailover p else d.2.fclkLost p)

/-- CORE_PLL_TIMEOUT (R468): a failed core PLL has not relocked within 1 s. -/
def execCorePllTimeout (s : State) : Out :=
  .next (if s.ux.base.pll.standbyLocked then s else (s.modUx (fun u => { u with corePllLost := true })).replaceSet 3)

/-! ### Stretch and throttle (R403, R407, R408) -/

/-- The count of a region's stretches. -/
def strFld : Nat → Fld
  | 1 => Reg.CLK_STRETCH_STR1
  | 2 => Reg.CLK_STRETCH_STR2
  | 3 => Reg.CLK_STRETCH_STR3
  | _ => Reg.CLK_STRETCH_STR0

/-- A Uhloux region may stretch again: 32 core-clock periods, 32 / CMUL ticks, have passed since it last did (R408). -/
def State.mayStretch (s : State) (r : Nat) : Bool :=
  match tget 0 s.ux.base.stretchAt r with
  | 0 => true
  | t + 1 => decide (32 ≤ (s.tick .ux - t) * s.get .ux Reg.UX_CLK_CTRL_CMUL)

/-- DROOP_STRETCH (R406 to R408, R411): a region's period is stretched, and its fords with it; regions an instance lacks are merged into region 0. A stretch in the region of a running sequencer is a slip (R139, R164). -/
def execDroopStretch (p : Part) (region : Fin 64) (s : State) : Out :=
  .next (match p with
    | .ux =>
      let r := region.val
      if !s.mayStretch r then s
      else
        let now := s.tick .ux
        let s := ((s.count .ux Reg.UX_CLK_STAT_STRETCH 1).mod .ux (fun b => { b with stretchAt := tput 0 b.stretchAt r (now + 1) })).fordsStretch .ux r
        if r = Config.treeRegion % 64 && s.seqState .ux == 3 then s.slip .ux 1 else s
    | .el =>
      let r := if region.val < s.el.lic.regions then region.val else 0
      let s := (s.count .el (strFld r) 1).fordsStretch .el r
      if r = 0 && s.seqState .el == 3 then s.slip .el 1 else s)

/-- THROTTLE_CHANGE (R403): the level of the throttle input. -/
def execThrottleChange (level : Bool) (s : State) : Out :=
  .next (s.modEl (fun e => { e with ports := { e.ports with throttle := level } })).fmulFollow

/-! ### Sleep and wake (R381, R382, R414 to R419) -/

/-- The bank group of an SPM address (R381). -/
def State.spmGroup (s : State) (a : Nat) : Nat := a / (s.el.lic.spmMib * 2 ^ 18)

/-- SPM as it stands when MOVE+SPM goes off: the groups in RETAIN keep contents and parity, the others are cleared at wake. -/
def State.spmOff (s : State) : State :=
  let keep := fun (a : Nat) => bitOf (s.get .el Reg.PWR_GROUP_RET) (s.spmGroup a)
  s.modEl (fun e => { e with spm := e.spm.filter (fun c => keep c.1), spmBad := e.spmBad.filter (fun w => keep (8 * w)) })

/-- A domain of an Elesh enters its low state: RET keeps what the domain holds; OFF loses it, but for SPM under R381, and its registers return at wake with the shadow (log 42). -/
def State.domainLow (s : State) (d : Nat) : State :=
  if d = 3 then (s.elDomainReset 3).setDstate .el 3 0
  else if d = 5 then
    let m := s.spmOff
    ((s.elDomainReset 5).modEl (fun e => { e with spm := m.el.spm, spmBad := m.el.spmBad })).setDstate .el 5 0
  else s.setDstate .el d 1

/-- The conditions of R416 hold. -/
def State.canSleep (s : State) : Bool :=
  s.bit .el Reg.PWR_AUTO_SLEEP && !s.fclkStopped && (s.seqState .el == 0 || s.seqState .el == 2) && s.el.base.qops.isEmpty
    && (List.range s.el.lic.dmaCh).all (fun c => s.get .el (Reg.DMA_STAT_STATE c) == 0) && s.el.watches.all (fun w => !w.2.armed)
    && s.el.land.isEmpty && !s.testRunning .el

/-- SLEEP_ENTRY (R416): each domain of SLEEP_MASK that is ON enters its low state, and both PLLs stop. Staged values, which the manifest unit retains, are kept. -/
def execSleepEntry (s : State) : Out :=
  .next (if s.canSleep then
      let st := s.el.base.staged
      let ds := ([1, 2, 3, 4, 5] : List Nat).filter (fun d => bitOf (s.get .el Reg.PWR_SLEEP_MASK) (d - 1) && s.dstate .el d == 2)
      let s := ds.foldl (fun t d => t.domainLow d) s
      (s.mod .el (fun b => { b with staged := st })).put .el Reg.PWR_STAT_ASLEEP 1
    else s)

/-- WAKE_TRIGGER (R417, R418, R382): a sleeping die begins its wake; CLEARING is 1 from there when MOVE+SPM was off. -/
def execWakeTrigger (s : State) : Out :=
  .next (if s.bit .el Reg.PWR_STAT_ASLEEP then
      let s := (s.put .el Reg.PWR_STAT_ASLEEP 0).put .el Reg.PWR_STAT_WAKING 1
      if s.dstate .el 5 = 0 then s.put .el Reg.SPM_STAT_CLEARING 1 else s
    else s)

/-- WAKE_END (R418, R419): the low domains are ON where their supply is good, both PLLs are locked at FMUL_EFF, an alignment pulse sets every ford (R410), and the entry bundle of a step that started meanwhile meets its anchor. -/
def execWakeEnd (durNs : BitVec 32) (s : State) : Out :=
  .next (if s.bit .el Reg.PWR_STAT_WAKING then
      let s := ([1, 2, 3, 4, 5] : List Nat).foldl (fun t d => if t.dstate .el d ≤ 1 && t.el.supplyCore then t.setDstate .el d 2 else t) s
      let s := ((s.put .el Reg.PWR_STAT_WAKING 0).put .el Reg.PWR_STAT_LAST_WAKE durNs.toNat).put .el Reg.CLK_STAT_FMUL_CUR s.fmulEff
      let s := s.modPll .el (fun q => { q with activeLocked := true, standbyLocked := true, standbyMul := s.fmulEff, relocking := false })
      let s := (s.align .el (fun _ => true)).log .el 0x0E 0x8010 0 durNs.toNat
      if s.seqState .el = 3 then s.anchorIssue .el (s.seq .el).tStep (s.tbNow .el 0) else s
    else s)

/-! ### Supplies (R495, R496) -/

/-- Domains 1 to 5 lose VDD_CORE: those that are not held in retention lose what they hold (log 49). -/
def State.coreFalls (s : State) : State :=
  let s := ([1, 2, 3, 4, 5] : List Nat).foldl (fun t d =>
    if t.dstate .el d = 1 then t
    else if t.dstate .el d = 2 then
      let t := if d = 5 then t.domainLow 5 else t.elDomainReset d
      let t := if d = 2 then t.modEl (fun e => { e with wakeQ := [] }) else t
      t.setDstate .el d 0
    else t) s
  if s.dstate .el 1 = 0 then s.mod .el (fun b => { b with qops := [] }) else s

/-- VDD_RET falls: what it retained is lost (R495). -/
def State.retFalls (s : State) : State :=
  let s := ([1, 2, 4] : List Nat).foldl (fun t d => if t.dstate .el d = 1 then ((t.elDomainReset d).modEl (fun e => if d = 2 then { e with wakeQ := [] } else e)).setDstate .el d 0 else t) s
  if s.dstate .el 5 = 0 then s.modEl (fun e => { e with spm := [], spmBad := [] }) else s

/-- SUPPLY_CHANGE (R496): 0 VDD_CORE, 1 VDD_RET, 2 VDD_PHY. A domain leaves OFF only once its supply is good; the lanes fail with VDD_PHY (log 10). -/
def execSupplyChange (supply : Fin 3) (good : Bool) (s : State) : Out :=
  .next (match supply.val with
    | 0 =>
      let s := s.modEl (fun e => { e with supplyCore := good })
      if good then
        if s.fclkStopped then s else ([1, 2, 3, 4, 5] : List Nat).foldl (fun t d => if t.dstate .el d = 0 then t.setDstate .el d 2 else t) s
      else s.coreFalls
    | 1 =>
      let s := s.modEl (fun e => { e with supplyRet := good })
      if good then s else s.retFalls
    | _ =>
      let s := s.modEl (fun e => { e with supplyPhy := good })
      if good then s.setDstate .el 6 2
      else
        let s := ([0, 1] : List Nat).foldl (fun t x => if t.laneUp .el x then t.laneFailOpen .el x else t) s
        s.setDstate .el 6 0)

/-! ### Domains of Uhloux (R420, R421) -/

/-- The low state of a domain that sleeps automatically (R420): SR for the HBM domains, OFF for E1 to E3, RET for LEDGER and VAULT; none for the others. -/
def uxLow (d : Nat) : Option Nat := if 3 ≤ d && d ≤ 10 then some 1 else if 16 ≤ d && d ≤ 18 then some 0 else if d = 19 || d = 20 then some 1 else none

/-- UX_DOMAIN_IDLE (R421): a domain that sleeps automatically enters its low state, unless FORCE_ON keeps it ON; above the thermal warning E1 to E3 go off regardless (R528). -/
def execUxDomainIdle (d : Fin 24) (s : State) : Out :=
  .next (match uxLow d.val with
    | some v =>
      let forced := bitOf (s.get .ux Reg.UX_PWR_CTRL_FORCE_ON) d.val && !(s.ux.warnCap && decide (16 ≤ d.val) && decide (d.val ≤ 18))
      if s.dstate .ux d.val = 2 && !forced then s.setDstate .ux d.val v else s
    | none => s)

/-- UX_DOMAIN_ON (R420, R421): a domain in its low state has woken; a stack that comes from OFF has been trained and is in service (R489). A stack that has failed (R468) stays OFF; a domain held in reset is in none. -/
def execUxDomainOn (d : Fin 24) (s : State) : Out :=
  .next (if s.dstate .ux d.val ≤ 1 && !s.ux.stacksLost.contains d.val then
      let s := if 3 ≤ d.val && d.val ≤ 10 then s.setBits .ux Reg.UX_IDENT_HBM_STACKS (2 ^ (d.val - 3)) else s
      s.setDstate .ux d.val 2
    else s)

end Sys2Proof.Machine
end

