-- ==== Sys2Proof/Machine/CtrlIsa.lean ====
section
/-! DEFINITION. The CTRL slot (R194, R195). -/

namespace Sys2Proof.Machine

/-- RDSTEP (R194). -/
def execRdstep (e : Env) (d : Fin 64) (s : State) : Out := s.issue .el e 7 true [.g d (BitVec.ofNat 64 s.stepCur)]

/-- An identity value (R23, R194): 0 LSI, 1 m, 2 w, 3 M, 4 W, 5 s. -/
def State.identSel (s : State) : Nat → Nat
  | 0 => s.lsi
  | 1 => s.lsi / 2 ^ (s.seq .el).lsiSplit
  | 2 => s.lsi % 2 ^ (s.seq .el).lsiSplit
  | 3 => (s.seq .el).mShards
  | 4 => s.get .el Reg.SEQ_RUNCFG_W
  | _ => (s.seq .el).lsiSplit

/-- RDID (R194); SEL 6 and 7 are reserved. -/
def execRdid (e : Env) (d : Fin 64) (sel : Fin 8) (s : State) : Out :=
  s.issue .el e 7 (decide (sel.val < 6)) [.g d (BitVec.ofNat 64 (s.identSel sel))]

/-- A count (R194): 0 slips of the step, 1 of the segment, 2 LATE, 3 WLOST, 4 QSTAT.COUNT, 5 events since step start. -/
def State.cntSel (s : State) : Nat → Nat
  | 0 => s.get .el Reg.SEQ_SLIPS_STEP
  | 1 => s.get .el Reg.SEQ_SLIPS_SEGMENT
  | 2 => s.get .el Reg.SEQ_LATE_LATE
  | 3 => s.get .el Reg.SPM_CNT_WLOST
  | 4 => s.get .el Reg.SEQ_QSTAT_COUNT
  | _ => s.el.stepEvents

/-- RDCNT (R194); SRC 6 to 15 are reserved. -/
def execRdcnt (e : Env) (d : Fin 64) (src : Fin 16) (s : State) : Out :=
  s.issue .el e 7 (decide (src.val < 6)) [.g d (BitVec.ofNat 64 (s.cntSel src))]

/-- MSTG (R194, R195): nothing is staged at an offset that is no ST register's. -/
def execMstg (e : Env) (cf : Fin 8) (a b : Fin 64) (s : State) : Out :=
  let off := (s.greg .el a).toNat
  s.issue .el e 7 true (if s.isSt .el off then [.stage off (s.greg .el b), .flag cf (s.stage .el off (s.greg .el b)).2] else [.flag cf false])

/-- MCHK (R194, R195). -/
def execMchk (e : Env) (cf : Fin 8) (s : State) : Out := s.issue .el e 7 true [.flag cf (s.manCheck .el).isNone]

/-- MCOMMIT (R194, R195). -/
def execMcommit (e : Env) (cf : Fin 8) (rel : Bool) (a : Fin 64) (ns : BitVec 32) (s : State) : Out :=
  let t := s.parmTime rel a ns.toNat
  s.issue .el e 7 (rel || a.val % 2 == 0) [.commit t, .flag cf (s.manArm .el t).2]

/-- EVT (R194, R200): OBJECT is TAG, DETAIL is G[a]. -/
def execEvt (e : Env) (a : Fin 64) (tag : BitVec 16) (s : State) : Out := s.issue .el e 7 true [.log 0x08 0x9088 tag.toNat (s.greg .el a).toNat]

/-- GKICK (R194, R424). -/
def execGkick (e : Env) (mask : BitVec 7) (s : State) : Out := s.issue .el e 7 true [.kick mask.toNat]

/-- GTRAP (R194): fault 0x8087 with G[a]. -/
def execGtrap (e : Env) (a : Fin 64) (s : State) : Out := s.issue .el e 7 true [.fault 0x8087 (s.greg .el a).toNat]

end Sys2Proof.Machine
end

