-- ==== Sys2Proof/Machine/AccOps.lean ====
section
/-! DEFINITION. The answers of host accesses: access errors and sizes (R477, R478, R483, R497). -/

namespace Sys2Proof.Machine

/-- IDENT_ERR of a part: EL at 0x18, UX at 0x30 (R482, R489). -/
def errOff : Part → Nat
  | .el => Reg.IDENT_ERR_VALID.off
  | .ux => Reg.UX_IDENT_ERR_VALID.off

/-- The ERR value of a failed access (R482). -/
def errWord (cause space off : Nat) (write : Bool) : Nat :=
  cause * 2 ^ 52 + space * 2 ^ 50 + (if write then 2 ^ 49 else 0) + 2 ^ 48 + off % 2 ^ 48

/-- All ones. -/
def allOnes : Word := BitVec.allOnes 64

/-- A failed access (R477, R483): 0x9070, ERR records it unless an earlier one stands, a read answers all ones with an error, a write is dropped. The rules name no reporting unit: the management unit (log 43). -/
def State.accessErr (s : State) (p : Part) (cause space off : Nat) (write : Bool) : State :=
  let e := errWord cause space off write
  let s := s.log p (unitMan p) 0x9070 0 e
  let s := if bitOf (s.reg p (errOff p)).toNat 48 then s else s.setReg p (errOff p) (BitVec.ofNat 64 e)
  s.answer p (if write then 0 else allOnes) true

/-- The bytes of an access to a register window or an aperture; none for a size R477 does not allow there. -/
def accBytes : AccSize → Option Nat
  | .four => some 4
  | .eight => some 8
  | _ => none

/-- The access error of a size and address: 1 SIZE, 2 ALIGN, 0 none (R477). -/
def accCause (size : AccSize) (addr : Nat) : Nat :=
  match accBytes size with
  | none => 1
  | some n => if addr % n = 0 then 0 else 2

/-- What a read of a 64-bit word answers: a 4-byte read gives the half at its address, in the low half of the data (log 44). -/
def accHalf (size : AccSize) (addr : Nat) (w : Word) : Word :=
  match size with
  | .four => BitVec.ofNat 64 (if addr % 8 = 0 then w.toNat % 2 ^ 32 else w.toNat / 2 ^ 32)
  | _ => w

end Sys2Proof.Machine
end

