-- ==== Sys2Proof/Machine/SyncOps.lean ====
section
/-! DEFINITION. The die-local level of barriers, the landing queue and launches of an Elesh (R219 to R238, R499 to R505). -/

namespace Sys2Proof.Machine

/-! ### Die-local barriers (R225 to R227) -/

/-- A die-local barrier beside its register. -/
def State.bar (s : State) (b : Nat) : Bar := tget Bar.zero s.el.bars b

/-- The state with a die-local barrier replaced. -/
def State.setBar (s : State) (b : Nat) (x : Bar) : State := s.modEl (fun e => { e with bars := tput Bar.zero e.bars b x })

/-- The core group of a core (R225). -/
def State.coreGroup (s : State) (c : Nat) : Nat := if s.el.lic.cores = 0 then 0 else 16 * c / s.el.lic.cores

/-- A core's group arrives at a barrier. -/
def State.barCore (s : State) (b c : Nat) : Bool := bitOf (s.get .el (Reg.BAR_GROUPS b)) (s.coreGroup c)

/-- The die-local level has every arrival it expects (R226). -/
def State.barComplete (s : State) (b : Nat) : Bool :=
  s.bit .el (Reg.BAR_SEQ_ARR b) && (List.range s.el.lic.cores).all (fun c => !s.barCore b c || (s.bar b).cores.any (fun x => x.1 == c))

/-- The generation of a die-local barrier closes: GEN advances (R227). -/
def State.barNext (s : State) (b : Nat) : State :=
  (((s.put .el (Reg.BAR_GEN b) (s.get .el (Reg.BAR_GEN b) + 1)).put .el (Reg.BAR_SEQ_ARR b) 0).put .el (Reg.BAR_SCOPE b) 0).setBar b Bar.zero

/-- A queued operation ends OK in the cycle of further increments: all of them are one cycle's sum (R171, R227). -/
def State.endWith (s : State) (o : Option QOp) (incs : List (Nat × Nat)) : State :=
  match o with
  | none => s.incAll incs
  | some o => ((s.dropOp .el o.id).incAll ((o.key, o.amt) :: incs)).drainCheck .el

/-- The BAR that waits at a die-local barrier. -/
def State.barOp (s : State) (b : Nat) : Option QOp := (s.bar b).qid.bind (fun id => s.findOp .el id)

/-- A release (R227, R231): the BAR completes OK, each arrived core's counter advances in the same cycle, GEN advances; a BAR that timed out is logged as 0x3041. -/
def State.barRelease (s : State) (b : Nat) : State :=
  let x := s.bar b
  let o := s.barOp b
  let gen := s.get .el (Reg.BAR_GEN b)
  let s := if x.timedOut then s.log .el 0x03 0x3041 b gen else s
  (s.barNext b).endWith o (x.cores.map (fun e => (cntKey e.1 e.2, 1)))

/-- A refusal (R534): the generation closes without release; 0x3043, and the BAR completes REFUSED. -/
def State.barRefuse (s : State) (b : Nat) : State :=
  let o := s.barOp b
  let s := (s.log .el 0x03 0x3043 b (s.get .el (Reg.BAR_GEN b))).barNext b
  match o with
  | some o => s.endFail .el o stRefused
  | none => s

/-- The sequencer arrives by ARRIVE or BAR (R226, R228); a second arrival in a generation is REFUSED (R182). -/
def State.barArrive (s : State) (o : QOp) (b scope : Nat) (waits : Bool) : State :=
  if s.bit .el (Reg.BAR_SEQ_ARR b) then s.endFail .el o stRefused
  else
    let s := (s.put .el (Reg.BAR_SEQ_ARR b) 1).put .el (Reg.BAR_SCOPE b) scope
    s.setBar b { s.bar b with qid := if waits then some o.id else none }

/-! ### The landing queue (R219 to R224) -/

/-- The tags 0 to 511 that neither an entry nor an outstanding claim uses. -/
def State.landTag (s : State) : Option Nat :=
  (List.range 512).find? (fun t => !(s.el.land.any (fun l => l.tag == t)) && !(s.el.ports.claims.any (fun c => c.2.2 == t)))

/-- An announcement is answered (R219): 0 accepted, 1 refused, 2 busy. -/
def State.annAnswer (s : State) (m : AnnMsg) (code : Nat) : State := s.sendUp .el (.annAnswer m.ident code)

/-- An announcement arrives (R219, R222): refused without its counter, accepted once (R110), busy with 512 entries held or with SYNC disabled (R450), else it takes an entry; the first of its source is claimed. -/
def State.annTake (s : State) (m : AnnMsg) : State :=
  if !s.cntHas m.rcore.toNat m.rk.toNat then (s.log .el 0x03 0x3033 (cntObj (cntKey m.rcore.toNat m.rk.toNat)) m.src.toNat).annAnswer m 1
  else if s.el.landSeen.contains (m.src, m.ident) then s.annAnswer m 0
  else match (if s.el.land.length < 512 && s.queueOn .barrier then s.landTag else none) with
  | none =>
    let s := if s.el.landFull || decide (s.el.land.length < 512) then s else (s.log .el 0x03 0x3030 m.src.toNat m.src.toNat).modEl (fun e => { e with landFull := true })
    s.annAnswer m 2
  | some t =>
    let first := (s.landOldest m.src).isNone
    let s := s.modEl (fun e => { e with
      landSeen := e.landSeen ++ [(m.src, m.ident)]
      land := e.land ++ [{ tag := t, src := m.src, step := m.step, bytes := m.bytes.toNat, rcore := m.rcore.toNat, rk := m.rk.toNat, ramt := m.ramt.toNat, tmoLogged := false }] })
    let s := s.landShow.annAnswer m 0
    if first then s.claimWant m.src else s

/-- A landing entry is released at its grant (R220): its bytes are claimed and its counter advances; the next entry of the source may be claimed. -/
def State.landRelease (s : State) (l : LandEntry) : State :=
  let s := s.modEl (fun e => { e with land := e.land.filter (fun x => x.tag != l.tag), landFull := false })
  let s := s.landShow.incAll [(cntKey l.rcore l.rk, l.ramt + 1)]
  if (s.landOldest l.src).isSome then s.claimWant l.src else s.claimPump

/-! ### Launches (R237, R238) -/

/-- launch_arm of an identity (R179). -/
def State.launchArm (s : State) (lid : Nat) : Nat := fget (s.reg .el (Reg.LARM_MASK0 (lid / 4)).off) (16 * (lid % 4) + 15) (16 * (lid % 4))

/-- A launch fires (R237): LAUNCH of its armed groups for the tick, and a step start whose entry bundle is next to issue at `a`. -/
def State.launchNow (s : State) (m : LaunchMsg) (a : Nat) : State :=
  let mask := m.gmask.toNat &&& s.launchArm m.lid.toNat
  let s := s.modEl (fun e => { e with ports := { e.ports with launch := e.ports.launch ||| BitVec.ofNat 16 mask }, launches := e.launches.filter (fun l => l.lid != m.lid) })
  if m.start then s.stepLaunch m.t a else s

/-- A READY window without an end closes at the earliest accepted step start (R150). -/
def State.windowBound (s : State) : State :=
  match (s.seq .el).window with
  | some w => if w.ready then s.modSeq .el (fun q => { q with window := some { w with until? := s.nextStart } }) else s
  | none => s

/-- A launch message arrives (R237, R238), and takes effect once (R110): with T passed on TB0 it fires at once with 0x3050, else it is held until T; while TB0 is UNSET nothing has passed. -/
def State.launchTake (s : State) (m : LaunchMsg) : State :=
  let now := s.tbNow .el 0
  if s.expelled || tget 0 s.el.launchSeen m.lid.toNat == m.t + 1 then s
  else
  let s := s.modEl (fun e => { e with launchSeen := tput 0 e.launchSeen m.lid.toNat (m.t + 1) })
  if s.tbState .el 0 != 0 && decide (m.t < now) then
    (s.log .el 0x03 0x3050 m.lid.toNat (psOf ((now : Int) - (m.t : Int))).toNat).launchNow m now
  else (s.modEl (fun e => { e with launches := e.launches.filter (fun l => l.lid != m.lid) ++ [m] })).windowBound

end Sys2Proof.Machine
end

