-- ==== Sys2Proof/Machine/MemberOps.lean ====
section
/-! DEFINITION. Membership at a Uhloux chip: subjects, child lanes, the authority, suspicion and the health score (R228 to R230, R326 to R328, R331, R363 to R365). -/

namespace Sys2Proof.Machine

/-! ### Subjects and positions (R22, R331) -/

/-- The key of a subject in the membership and observer tables; a die's is its PDI. -/
def subjKey (x : Subj) : Nat := x.tier.val * 2 ^ 20 + x.pdi.toNat

/-- A subject as OBJECT of an event (R331, R368). -/
def subjObj (x : Subj) : Nat := x.tier.val * 2 ^ 30 + x.pdi.toNat

/-- A die as a subject. -/
def dieSubj (pdi : Nat) : Subj := { tier := 0, pdi := BitVec.ofNat 20 pdi }

/-- This chip as a subject. -/
def State.chipSubj (s : State) : Subj :=
  { tier := if s.tier = 0 then 1 else if s.tier = 1 then 2 else 3, pdi := BitVec.ofNat 20 (s.get .ux Reg.UX_IDENT_ROLE_POS * 128) }

/-- The child on a downlink: a die at a leaf, a leaf at a spine, a spine at a root. -/
def State.childSubj (s : State) (x : Nat) : Subj :=
  match s.tier with
  | 0 => dieSubj (s.pdiOf x)
  | 1 => { tier := 1, pdi := BitVec.ofNat 20 ((s.get .ux Reg.UX_IDENT_ROLE_POS + x) * 128) }
  | _ => { tier := 2, pdi := BitVec.ofNat 20 (x * 16384) }

/-- The downlink of this chip on a die's path; none for a die elsewhere. -/
def State.portOf (s : State) (pdi : Nat) : Option Nat :=
  let pos := s.get .ux Reg.UX_IDENT_ROLE_POS
  match s.tier with
  | 0 => if pdi / 128 = pos then some (pdi % 128) else none
  | 1 => if pos ≤ pdi / 128 ∧ pdi / 128 < pos + 128 then some (pdi / 128 - pos) else none
  | _ => if pdi / 16384 < 16 then some (pdi / 16384) else none

/-- A state of R326 that counts as membership: MEMBER or SUSPECT (R327). -/
def inMembers (st : Nat) : Bool := st == 3 || st == 4

/-- The downlinks a node expects arrivals from (R228): a leaf's member dies; above it the children this chip counts as members (log 34). A lock-step shadow is not counted (R314). -/
def State.memberPorts (s : State) : List Nat :=
  downLanes.filter (fun x => inMembers (tget 0 s.ux.members (subjKey (s.childSubj x))) && !s.lockLane Reg.UX_LOCK_CTRL_SHD x)

/-- The state of a subject's membership replaced; a die's also shows in its lane register (R326). -/
def State.setSubj (s : State) (x : Subj) (code : Nat) : State :=
  if x.tier = 0 then s.setMember x.pdi.toNat code else s.modUx (fun u => { u with members := tput 0 u.members (subjKey x) code })

/-- This chip publishes decisions (chapter 11): the barrier-plane root, or the twin root that an AUTHORITY_MOVE made so (R359). -/
def State.authority (s : State) : Bool :=
  s.tier == 2 && (s.get .ux Reg.UX_IDENT_ROLE_PLANE == s.get .ux Reg.UX_LAUNCH_CTRL_BAR_PLANE || s.bit .ux Reg.UX_HC_STAT_AUTHORITY)

/-- The headcount epoch this chip carries in its messages (R328). -/
def State.epoch (s : State) : BitVec 32 := BitVec.ofNat 32 (s.get .ux Reg.UX_HC_STAT_EPOCH)

/-- The first ACTIVE lane of a group of PE lanes: PE0 to PE7 to the partner, PE8 to PE15 to the twin (R17). -/
def State.peLane (s : State) (lo : Nat) : Option Nat := ((List.range 8).map (fun i => lo + i)).find? (fun y => s.laneState .ux y == 4)

/-- A message to the partner leaf. -/
def State.toPartner (s : State) (m : Msg) : State := match s.peLane 144 with | some y => s.send .ux y m | none => s

/-- A message to every partner: with three ways the second one lies behind PE4 to PE7 (R330, R356). -/
def State.toPartners (s : State) (m : Msg) : State :=
  if s.bit .ux Reg.UX_HC_PEER_WAYS3 then
    [144, 148].foldl (fun t lo => match ((List.range 4).map (fun i => lo + i)).find? (fun y => t.laneState .ux y == 4) with
      | some y => t.send .ux y m
      | none => t) s
  else s.toPartner m

/-- A message to the twin. -/
def State.toTwin (s : State) (m : Msg) : State := match s.peLane 152 with | some y => s.send .ux y m | none => s

/-- A leaf on the other plane relays barrier and launch messages to its twin (R230). -/
def State.relays (s : State) : Bool := s.tier == 0 && s.get .ux Reg.UX_IDENT_ROLE_PLANE != s.get .ux Reg.UX_LAUNCH_CTRL_BAR_PLANE

/-- A headcount message goes to the authority: up, or from an other-plane root or leaf over its twin (R338). -/
def State.toAuthority (s : State) (m : Msg) : State := if s.tier = 2 ∨ s.relays then s.toTwin m else s.sendUp .ux m

/-! ### Proposals (R335) -/

/-- A proposal of this chip (R335): 0x6003, to the voters and the authority; it is resent until settled (R336). The way to the voters on a chip is the model's (log 113). -/
def State.proposeOwn (s : State) (x : Subj) (hard : Bool) (ageP ageT : Nat) : State :=
  let m : ProposeMsg := { subj := x, kind := 0, hard := hard, domain := BitVec.ofNat 8 (s.get .ux Reg.UX_HC_PEER_DOMAIN), ageP := BitVec.ofNat 32 ageP,
                          ageT := BitVec.ofNat 32 ageT, epoch := s.epoch, origin := s.chipSubj }
  let s := s.log .ux 0x42 0x6003 (subjObj x) (if hard then 256 else 0)
  let s := s.modUx (fun u => { u with proposals := u.proposals.filter (fun q => q.subj != x || q.settled.isSome) ++ [{ subj := x, msg := some m, yes := [s.chipSubj], settled := none }] })
  let s := s.toAuthority (.propose m)
  if hard then
    let down := downLanes.filter (fun l => s.laneState .ux l == 4 && s.childSubj l != x)
    match s.tier with
    | 0 => (if s.relays then s.sendUp .ux (.propose m) else s).toPartner (.propose m)
    | 1 => s.sendDown down (.propose m)
    | _ => s.sendDown (down.take 2) (.propose m)
  else s

/-! ### The health score (R363 to R365) -/

/-- The lane of a die of this leaf. -/
def State.dieLane (s : State) (pdi : Nat) : Option Nat := if s.tier = 0 then s.portOf pdi else none

/-- The repeat divisor a leaf sends in PROBATION (R364): max(1, K / 4), or 16 for 0, from the K of the Elesh of this model when it is the die; for another die K is not known here and the value is free (log 35). -/
def State.probationK (s : State) (pdi : Nat) : Nat × State :=
  if s.myPdi = pdi then
    let k := s.get .el Reg.CHK_REPEAT_K
    (if k = 0 then 16 else max 1 (k / 4), s)
  else
    let d := s.draw
    (d.1.toNat % 65536, d.2)

/-- PROBATION is sent to the die on a lane (R364): a voltage step when the inputs since the last crossing are mostly CLASS_TRANSIENT or XCHK points, else a clock step; 0x6021. -/
def State.probation (s : State) (x pdi : Nat) : State :=
  let soft := tget 0 s.ux.healthKind (2 * x)
  let rest := tget 0 s.ux.healthKind (2 * x + 1)
  let action := if rest < soft then 1 else 2
  let k := s.probationK pdi
  let s := (k.2.send .ux x (.probation action k.1)).log .ux 0x42 0x6021 (subjObj (dieSubj pdi)) action
  let s := (s.put .ux (Reg.UX_LANE_HC_PROBATION x) 1).put .ux (Reg.UX_LANE_HC_SUSPECT_ACT x) 1
  let f := if action = 1 then Reg.UX_LANE_HC_VSTEPS x else Reg.UX_LANE_HC_FSTEPS x
  s.put .ux f (min 2 (s.get .ux f + 1))

/-- Points are added to the score of a member die on a downlink (R363, R364). `soft` marks CLASS_TRANSIENT and XCHK points. -/
def State.healthAdd (s : State) (x pts : Nat) (soft : Bool) : State :=
  let pdi := s.pdiOf x
  if s.tier ≠ 0 ∨ !inMembers (s.member pdi) ∨ pts = 0 then s
  else
    let old := s.get .ux (Reg.UX_LANE_HC_HEALTH x)
    let new := min 255 (old + pts)
    let w := s.get .ux Reg.UX_HC_CTRL_WATCH
    let p := s.get .ux Reg.UX_HC_CTRL_PROB
    let e := s.get .ux Reg.UX_HC_CTRL_EXPEL
    let i := if soft then 2 * x else 2 * x + 1
    let s := (s.put .ux (Reg.UX_LANE_HC_HEALTH x) new).modUx (fun u => { u with healthKind := tput 0 u.healthKind i (tget 0 u.healthKind i + pts) })
    let up := fun t => decide (old < t) && decide (t ≤ new)
    let s := if up w then s.log .ux 0x42 0x6020 (subjObj (dieSubj pdi)) new else s
    let s := if up p then s.probation x pdi else s
    let s := if old < new && decide (e ≤ new) then s.proposeOwn (dieSubj pdi) false 0 0 else s
    if up w || up p || up e then s.modUx (fun u => { u with healthKind := tput 0 (tput 0 u.healthKind (2 * x) 0) (2 * x + 1) 0 }) else s

end Sys2Proof.Machine
end

