-- ==== Sys2Proof/Machine/TreeOps.lean ====
section
/-! DEFINITION. The Uhloux tree: barrier nodes, the launch root, scalar reduction slots and cross-check groups (R228 to R239, R261 to R265, R307 to R309). -/

namespace Sys2Proof.Machine

/-- An operation of the tree program, by its identity, ends with a status; one that is gone ends nothing. -/
def State.endQid (s : State) (qid st : Nat) : State :=
  match s.findOp .ux qid with
  | some o => s.endOp o st
  | none => s

/-! ### Barrier nodes (R228, R229, R232, R534) -/

/-- A barrier node. -/
def State.node (s : State) (b : Nat) : BarNode := tget BarNode.zero s.ux.bars b

/-- The state with a barrier node replaced. -/
def State.setNode (s : State) (b : Nat) (n : BarNode) : State := s.modUx (fun u => { u with bars := tput BarNode.zero u.bars b n })

/-- The open generation has every arrival: the count TBAR armed, or each expected downlink. -/
def BarNode.full (n : BarNode) : Bool :=
  match n.armed with
  | some k => decide (k ≤ n.arrived.length)
  | none => n.expect.all (fun x => n.arrived.any (fun a => a.pos == x))

/-- What a node answers goes back by the path the arrival took (R230): down its downlink, or over the twin with the die's position. -/
def State.barBack (s : State) (a : BarArr) (mk : BitVec 16 → Option Nat → Msg) : State :=
  if a.relayed then s.toTwin (mk a.gen (some a.pos)) else s.send .ux a.pos (mk a.gen none)

/-- The downlinks a generation expects as it opens (R228): a leaf's member dies; above it each child with at least one member die, which is free where this chip cannot tell (log 34). -/
def State.expectPorts (s : State) : List Nat :=
  s.memberPorts.filter (fun x => s.tier == 0 || Config.membersBelow s.draws (subjKey (s.childSubj x)))

/-- The next generation of a node opens with the arrivals that wait for it (R229): the first fixes its scope and what it expects. -/
def State.nodeOpen (s : State) (b : Nat) (n : BarNode) (arrived : List BarArr) : State :=
  match arrived with
  | [] => s.setNode b n
  | a :: _ => s.draw.2.setNode b { n with isOpen := true, scope := a.scope, expect := s.expectPorts, arrived := arrived.filter (fun x => x.scope == a.scope) }

/-- The generation of a node closes and the next one opens with what waits for it. -/
def State.nodeNext (s : State) (b : Nat) (n z : BarNode) : State := s.nodeOpen b { z with gen := n.gen + 1, last := n.last } n.next

/-- A generation is released downwards (R228): its TBAR completes OK. -/
def State.nodeRelease (s : State) (b : Nat) : State :=
  let n := s.node b
  let s := s.nodeNext b n BarNode.zero
  let s := n.arrived.foldl (fun t a => t.barBack a (.barRelease (BitVec.ofNat 8 b))) s
  match n.qid with
  | some q => s.endQid q stOk
  | none => s

/-- A complete generation is released where the scope is reached, else forwarded as one arrival (R228). -/
def State.nodeStep (s : State) (b : Nat) : State :=
  let n := s.node b
  if n.isOpen && !n.sentUp && n.full then
    if n.scope ≤ s.tier + 1 then s.nodeRelease b
    else (s.setNode b { n with sentUp := true }).sendUp .ux (.barArrival (BitVec.ofNat 8 b) (BitVec.ofNat 16 n.gen) n.scope none)
  else s

/-- A node is looked at; a release may leave the next generation complete at once. -/
def State.nodeCheck (s : State) (b : Nat) : State := (s.nodeStep b).nodeStep b

/-- An arrival is counted (R228, R229): the first of a generation fixes its scope and what it expects; another scope is refused; a die admitted while the generation was open is counted in the next one. -/
def State.nodeCount (s : State) (b : Nat) (a : BarArr) : State :=
  let n := s.node b
  let n := { n with last := tput 0 n.last a.pos (a.gen.toNat + 1) }
  if !n.isOpen then (s.nodeOpen b n [a]).nodeCheck b
  else if n.scope ≠ a.scope then (s.setNode b n).barBack a (.barRefusal (BitVec.ofNat 8 b))
  else if n.arrived.any (fun x => x.pos == a.pos) then s.setNode b n
  else if n.sentUp || (!n.expect.contains a.pos && s.memberPorts.contains a.pos) then s.setNode b { n with next := n.next ++ [a] }
  else (s.setNode b { n with arrived := n.arrived ++ [a] }).nodeCheck b

/-- A downlink whose traffic comes over the twin is remembered, for what goes back to it and for D_launch (R230, R235). -/
def State.relayNote (s : State) (x : Nat) : State :=
  s.modUx (fun u => { u with relayFrom := if u.relayFrom.contains x then u.relayFrom else u.relayFrom ++ [x] })

/-- An arrival at a node (R228): one that arrives again takes effect once (R110). A leaf on the other plane relays it with the die's position (R230). -/
def State.nodeArrive (s : State) (b : Nat) (a : BarArr) : State :=
  if s.relays then (s.relayNote a.pos).toTwin (.barArrival (BitVec.ofNat 8 b) a.gen a.scope (some a.pos))
  else if tget 0 (s.node b).last a.pos = a.gen.toNat + 1 then s
  else (if a.relayed then s.relayNote a.pos else s).nodeCount b a

/-- A refusal comes down (R534): passed on to every die whose arrival the generation contained, and it closes without release; a count armed by TBAR stays for the next one. -/
def State.nodeRefuse (s : State) (b : Nat) : State :=
  let n := s.node b
  let s := s.nodeNext b n { BarNode.zero with armed := n.armed, qid := n.qid }
  (n.arrived.foldl (fun t a => t.barBack a (.barRefusal (BitVec.ofNat 8 b))) s).nodeCheck b

/-- TBAR arms a node for a count of arrivals (R198); a second one before release replaces the count. -/
def State.nodeArm (s : State) (o : QOp) (b count : Nat) : State := (s.setNode b { s.node b with armed := some count, qid := some o.id }).nodeCheck b

/-- The downlinks whose arrival a generation lacks. -/
def BarNode.absent (n : BarNode) : List Nat := n.expect.filter (fun x => !n.arrived.any (fun a => a.pos == x))

/-- The arrivals a generation lacks (R232). -/
def BarNode.missing (n : BarNode) : Nat :=
  match n.armed with
  | some k => k - n.arrived.length
  | none => n.absent.length

/-- Downlinks leave membership (R229): the open generation no longer expects them, and a count armed by TBAR falls by those that had not arrived. -/
def BarNode.lower (n : BarNode) (ports : List Nat) : BarNode :=
  { n with expect := n.expect.filter (fun x => ports.contains x), armed := n.armed.map (fun k => k - n.absent.countP (fun x => !ports.contains x)) }

/-! ### Scalar reduction slots (R261 to R265) -/

/-- The state with a reduction slot opened, changed or closed; UX_RED_STAT.OPEN follows (R268). -/
def State.setSlots (s : State) (t : Tbl Slot) : State := (s.modUx (fun u => { u with slots := t })).put .ux Reg.UX_RED_STAT_OPEN t.length

/-- An open slot. -/
def slotAt : Tbl Slot → Nat → Option Slot
  | [], _ => none
  | (k, v) :: t, r => if k = r then some v else slotAt t r

/-- An open cross-check group. -/
def groupAt : Tbl XGroup → Nat → Option XGroup
  | [], _ => none
  | (k, v) :: t, r => if k = r then some v else groupAt t r

/-- A VC2 message is discarded and counted (R268). -/
def State.redDiscard (s : State) : State := s.count .ux Reg.UX_RED_STAT_DISCARDS 1

/-- The KIND and MIN of a contribution match a slot's OPK (R264): I16 for MAX and MIN, I64 or I128 for the T64 sum; the rule gives no pair for OPK 0, 4 and 5, which nothing matches (log 36). -/
def redMatch (opk : Nat) (m : RedMsg) : Bool :=
  let k := m.kind.toNat
  match opk with
  | 1 => k == 0 && !m.min
  | 2 => k == 0 && m.min
  | 3 => k == 1 || k == 2
  | _ => false

/-- The largest of two bytes at each place of a 64-bit value (OPK 0). -/
def maxBytes (a b : Int) : Int :=
  let x := unsigned 64 a
  let y := unsigned 64 b
  signed 64 (((List.range 8).map (fun i => max (x / 2 ^ (8 * i) % 256) (y / 2 ^ (8 * i) % 256) * 2 ^ (8 * i))).sum)

/-- Two contributions of one index combined (R198). -/
def redCombine (opk : Nat) (a b : Int) : Int :=
  match opk with
  | 0 => maxBytes a b
  | 1 => max a b
  | 2 => min a b
  | 3 => a + b
  | 4 => signed 64 (unsigned 64 (a + b))
  | _ => a

/-- One value of a contributor joins a slot, once for each index (R264); an index beyond the slot's count is ignored, as is a contributor beyond the expected count (log 36). -/
def slotValue (src : BitVec 32) (t : Slot) (j : Nat) (v : Int) : Slot :=
  let g := tget [] t.given j
  if t.n ≤ j ∨ t.expect ≤ g.length ∨ g.contains src then t
  else
    let old := tget 0 t.vals j
    { t with given := tput [] t.given j (g ++ [src]), vals := tput 0 t.vals j (if g.isEmpty then v else redCombine t.opk old v),
             mismatch := t.mismatch || (t.opk == 5 && !g.isEmpty && old != v) }

/-- Every index has its expected contributions. -/
def Slot.full (t : Slot) : Bool := (List.range t.n).all (fun j => (tget [] t.given j).length == t.expect)

/-- The values of a slot in frames of `per` values, each with the index of its first. -/
def redFrames (per : Nat) (vs : List Int) : List (Nat × List Int) :=
  (List.range (ceilDiv vs.length per)).map (fun i => (i * per, (vs.drop (i * per)).take per))

/-- Values a message holds (R263). -/
def redPer (kind : Nat) : Nat := if kind = 0 then 110 else if kind = 1 then 27 else 13

/-- SRC of this chip (R263). -/
def State.redSrc (s : State) : BitVec 32 :=
  BitVec.ofNat 32 ((s.tier + 1) * 2 ^ 30 + (if s.tier = 0 then s.get .ux Reg.UX_IDENT_ROLE_POS else if s.tier = 1 then s.get .ux Reg.UX_IDENT_ROLE_POS / 128 else 0))

/-- A value held in INT64 (R261), and whether it saturated. -/
def sat64 (v : Int) : Int × Bool :=
  if 9223372036854775807 < v then (9223372036854775807, true) else if v < -9223372036854775808 then (-9223372036854775808, true) else (v, false)

/-- A complete slot sends its result (R198, R261): partial results up; at the root the saturated result down to every contributor, and the slot closes. -/
def State.slotSend (s : State) (rid : Nat) (t : Slot) : State :=
  let vs := (List.range t.n).map (fun j => tget 0 t.vals j)
  let root := s.tier == 2
  let kind := if t.opk = 1 ∨ t.opk = 2 then 0 else if t.opk = 3 ∧ !root then 2 else 1
  let res := if root && t.opk == 3 then vs.map sat64 else vs.map (fun v => (v, false))
  let nsat := res.countP Prod.snd
  let src := s.redSrc
  let mk := fun (f : Nat × List Int) => RedMsg.mk (BitVec.ofNat 12 rid) (BitVec.ofNat 8 kind) (t.opk == 2) (nsat != 0) root (BitVec.ofNat 32 f.1) src (t.step.getD 0) f.2
  let frames := redFrames (redPer kind) (res.map Prod.fst)
  let s := if root then frames.foldl (fun a f => t.ports.foldl (fun b x => b.send .ux x (.red (mk f))) a) s
    else frames.foldl (fun a f => a.sendUp .ux (.red (mk f))) s
  let s := if nsat = 0 then s else (s.count .ux Reg.UX_RED_STAT_SAT_VALUES nsat).log .ux 0x4C 0x4012 rid nsat
  let s := if root then s.setSlots (terase s.ux.slots rid) else s.setSlots (tins (terase s.ux.slots rid) rid { t with sent := true })
  s.endQid t.qid (if t.mismatch then stMismatch else if nsat != 0 then stSat else stOk)

/-- A contribution to an open slot (R264). -/
def State.slotTake (s : State) (rid : Nat) (t : Slot) (m : RedMsg) (lane : Nat) : State :=
  if !redMatch t.opk m then (s.log .ux 0x4C 0x4010 rid m.src.toNat).redDiscard
  else if t.step.isSome && t.step != some m.step then (s.log .ux 0x4C 0x4011 rid m.step.toNat).redDiscard
  else if t.sent || t.seen.contains (m.src, m.first) then s.redDiscard
  else
    let t := { t with step := some m.step, seen := t.seen ++ [(m.src, m.first)], ports := if t.ports.contains lane then t.ports else t.ports ++ [lane] }
    let vs := (List.range m.vals.length).map (fun i => (m.first.toNat + i, m.vals.getD i 0))
    let t := vs.foldl (fun a v => slotValue m.src a v.1 v.2) t
    if t.full then s.slotSend rid t else s.setSlots (tins (terase s.ux.slots rid) rid t)

/-- The cluster that serves a lane (R265): each serves 32 downlinks. -/
def laneCluster (lane : Nat) : Nat := min 3 (lane / 32)

/-- A contribution for a RID no TSLOT has opened is held, 256 to a cluster, else discarded with 0x4013 (R265). -/
def State.slotHold (s : State) (m : RedMsg) (lane : Nat) : State :=
  if 256 ≤ s.ux.held.countP (fun h => laneCluster h.2 == laneCluster lane) then (s.log .ux 0x4C 0x4013 m.rid.toNat m.src.toNat).redDiscard
  else s.modUx (fun u => { u with held := u.held ++ [(m, lane)] })

/-- A result comes down through a node (R261, R263): each message of the slot's step passes once to every lane that contributed, and the slot closes once all of it has passed. -/
def State.slotDown (s : State) (rid : Nat) (t : Slot) (m : RedMsg) : State :=
  if !t.sent || t.step != some m.step || t.downs.contains (m.src, m.first) then s.redDiscard
  else
    let s := t.ports.foldl (fun a x => a.send .ux x (.red m)) s
    let n := t.down + m.vals.length
    if t.n ≤ n then s.setSlots (terase s.ux.slots rid) else s.setSlots (tins (terase s.ux.slots rid) rid { t with down := n, downs := t.downs ++ [(m.src, m.first)] })

/-- TSLOT opens a slot (R198, R265): REFUSED where the RID is open; the messages held for it are combined in arrival order. -/
def State.slotOpen (s : State) (o : QOp) (rid opk contributors n : Nat) : State :=
  if (slotAt s.ux.slots rid).isSome || (groupAt s.ux.groups rid).isSome then s.endOp o stRefused
  else
    let t : Slot := { opk := opk, expect := contributors, n := n, step := none, seen := [], ports := [], given := [], vals := [], mismatch := false, sent := false, downs := [], down := 0, qid := o.id }
    let mine := s.ux.held.filter (fun h => h.1.rid.toNat == rid)
    let s := (s.setSlots (tins s.ux.slots rid t)).modUx (fun u => { u with held := u.held.filter (fun h => h.1.rid.toNat != rid) })
    mine.foldl (fun a h => match slotAt a.ux.slots rid with
      | some t => a.slotTake rid t h.1 h.2
      | none => a.slotHold h.1 h.2) s

/-- The distinct contributors a slot has heard. -/
def Slot.heard (t : Slot) : Nat := ((t.seen.map Prod.fst).eraseDups).length

/-! ### Cross-check groups (R307, R308) -/

/-- The downlinks with a listed member die below them (R307). On which downlink an LSI lies this chip knows from the votes and messages it has seen (log 34). -/
def State.groupPorts (s : State) (lsis : List Nat) : List Nat :=
  (lsis.filterMap (fun l => match tget 0 s.ux.lsiPort l with
    | 0 => none
    | x + 1 => some x)).eraseDups.filter (fun x => s.memberPorts.contains x)

/-- The downlink of an LSI is learned from a message that names it (log 34). -/
def State.learnPort (s : State) (lane lsi : Nat) : State :=
  if 128 ≤ lane || s.lockLane Reg.UX_LOCK_CTRL_SHD lane then s else s.modUx (fun u => { u with lsiPort := tput 0 u.lsiPort lsi (lane + 1) })

/-- A value joins a histogram. -/
def histAdd (h : List HistEntry) (e : HistEntry) : List HistEntry :=
  if h.any (fun x => x.fp == e.fp && x.blocks == e.blocks) then h.map (fun x => if x.fp == e.fp && x.blocks == e.blocks then { x with count := x.count + e.count } else x)
  else h ++ [e]

/-- The combined histogram of a group's contributions; none when one overflowed or there are five distinct values (R307). -/
def XGroup.hist (g : XGroup) : Option (List HistEntry) :=
  let r := g.got.foldl (fun (a : Option (List HistEntry)) c => match a, c.2 with
    | some h, .hist es => some (es.foldl histAdd h)
    | _, _ => none) (some [])
  match r with
  | some h => if 4 < h.length then none else some h
  | none => none

/-- All contributions of a group, as its histograms count them. -/
def XGroup.total (g : XGroup) : Nat :=
  (g.got.map (fun c => match c.2 with
    | .hist es => (es.map HistEntry.count).sum
    | .overflow => 0)).sum

/-- The majority of a histogram (R308): one value with more than half of all contributions. -/
def histMajority (h : List HistEntry) (total : Nat) : Option HistEntry := h.find? (fun e => total < 2 * e.count)

/-- The state with the cross-check groups replaced. -/
def State.setGroups (s : State) (t : Tbl XGroup) : State := s.modUx (fun u => { u with groups := t })

/-- The leaf adds XCHK points for each die of a group that the broadcast leaves in the minority (R308, R363). -/
def State.groupPoints (s : State) (g : XGroup) (maj : Option HistEntry) : State :=
  match maj with
  | none => s
  | some e => g.got.foldl (fun t c => match c.2 with
    | .hist es => if es.all (fun x => x.fp == e.fp && x.blocks == e.blocks) then t else t.healthAdd c.1 32 true
    | .overflow => t) s

/-- Every contribution of a group agrees with the majority. -/
def XGroup.agrees (g : XGroup) (maj : Option HistEntry) : Bool :=
  match maj, g.hist with
  | some e, some h => h.all (fun x => x.fp == e.fp && x.blocks == e.blocks)
  | _, _ => false

/-- The verdict of a group passes down and the group closes: TCMPG completes OK where all below agree, else MISMATCH (R198, R308). -/
def State.groupVerdict (s : State) (rid : Nat) (g : XGroup) (src : BitVec 32) (maj : Option HistEntry) (total : Nat) : State :=
  let s := g.got.foldl (fun t c => t.send .ux c.1 (.xchkDown (BitVec.ofNat 12 rid) src (g.step.getD 0) maj total)) s
  ((s.setGroups (terase s.ux.groups rid)).groupPoints g maj).endQid g.qid (if g.agrees maj then stOk else stMismatch)

/-- A group has every contribution it expects: one on each lane and, at the root, as many in all as it lists members when it does not know where one of them lies (log 34). -/
def State.groupFull (s : State) (g : XGroup) : Bool :=
  !g.got.isEmpty && g.expect.all (fun x => g.got.any (fun c => c.1 == x))
    && (s.tier != 2 || g.hist.isNone || g.members.all (fun l => tget 0 s.ux.lsiPort l != 0) || decide (g.members.length ≤ g.total))

/-- A complete group: the root declares the majority, another node sends its histogram or an overflow up (R307, R308). -/
def State.groupCheck (s : State) (rid : Nat) (g : XGroup) : State :=
  if g.sent || !s.groupFull g then s.setGroups (tins (terase s.ux.groups rid) rid g)
  else if s.tier == 2 then s.groupVerdict rid g s.redSrc ((g.hist).bind (fun h => histMajority h g.total)) g.total
  else
    (s.setGroups (tins (terase s.ux.groups rid) rid { g with sent := true })).sendUp .ux
      (.xchkUp (BitVec.ofNat 12 rid) s.redSrc (g.step.getD 0) (match g.hist with | some h => .hist h | none => .overflow))

/-- A contribution to a group (R307): once from each downlink. One from a downlink on which no listed member was known has a member there after all (log 34). -/
def State.groupTake (s : State) (rid : Nat) (g : XGroup) (lane : Nat) (step : Word) (m : XchkMsg) : State :=
  if g.sent || 128 ≤ lane || g.got.any (fun c => c.1 == lane) then s.redDiscard
  else s.groupCheck rid { g with step := some (g.step.getD step), expect := if g.expect.contains lane then g.expect else g.expect ++ [lane], got := g.got ++ [(lane, m)] }

/-- The member list of TCMPG (R307): entries of 4 bytes in HBM, an LSI in [19:0]. -/
def State.groupList (s : State) (a n : Nat) : List Nat := (List.range n).map (fun i => leNat (mread s.ux.base.mem (a + 4 * i) 4) % 2 ^ 20)

/-- TCMPG forms a group (R198, R307); a RID already open is REFUSED as for TSLOT (log 36). -/
def State.groupOpen (s : State) (o : QOp) (rid a n : Nat) : State :=
  if (slotAt s.ux.slots rid).isSome || (groupAt s.ux.groups rid).isSome then s.endOp o stRefused
  else
    let ls := s.groupList a n
    s.groupCheck rid { members := ls, expect := s.groupPorts ls, step := none, got := [], sent := false, qid := o.id }

/-! ### Changes of membership (R229, R307) -/

/-- Every open generation and group lowers what it expects; one that is then complete goes on. -/
def State.membersChanged (s : State) : State :=
  let ports := s.memberPorts
  let s := s.ux.bars.foldl (fun t e => if e.2.isOpen then (t.setNode e.1 (e.2.lower ports)).nodeCheck e.1 else t) s
  s.ux.groups.foldl (fun t e => if e.2.sent then t else t.groupCheck e.1 { e.2 with expect := e.2.expect.filter (fun x => ports.contains x) }) s

/-- The membership of a subject changes (R229). -/
def State.setMembership (s : State) (x : Subj) (code : Nat) : State :=
  let old := tget 0 s.ux.members (subjKey x)
  let s := s.setSubj x code
  if inMembers old && !inMembers code then s.membersChanged else s

/-! ### Launch requests at the root (R234 to R237, R318, R344) -/

/-- D_launch in ps (R235). -/
def State.dLaunch (s : State) : Nat := s.get .ux Reg.UX_LAUNCH_DL_D_LAUNCH

/-- The launches that still wait for their T (R236). -/
def State.pendingLaunches (s : State) : List LaunchMsg := s.ux.pending.filter (fun m => !s.tbReached .ux 0 m.t)

/-- A picosecond count in HXT units, rounded up. -/
def psHxt (n : Nat) : Nat := ceilDiv (n * 2 ^ 32) 1000

/-- An accepted launch consumes a VC1 credit of a downlink at once (R29, R234); where the lane holds none, the message waits for one. -/
def State.launchPay (s : State) (x : Nat) : State :=
  let c := s.credit .ux x 1
  if c = 0 || s.laneState .ux x != 4 then s else (s.setCredit .ux x 1 (c - 1)).modLane .ux x (fun l => { l with paid := l.paid + 1 })

/-- The root judges a launch request that came on a lane, or from its own program (R234, R236, R318, R344): the state and the status. A request that arrives again while its launch is held is accepted without a further effect (R110). A request that both comes too late and is refused is answered REFUSED, and one at a root whose TB0 is UNSET is LATE (log 105). -/
def State.launchJudge (s : State) (m : LaunchMsg) (lane : Nat) : State × Nat :=
  let now := s.tbNow .ux 0
  let lid := m.lid.toNat
  let no := fun (t : State) st => (t.count .ux Reg.UX_LAUNCH_CNT_REFUSED 1, st)
  let next := s.reg .ux Reg.UX_SEAL_NEXT_NEXT.off
  let diff := psOf ((m.t : Int) - (now : Int))
  if s.tier ≠ 2 then (s, stRefused)
  else if s.ux.pending.contains m then (s, stOk)
  else if s.bit .ux Reg.UX_HC_STAT_GATE_CLOSED then no (s.log .ux 0x42 0x6007 lid m.lsi.toNat) stRefused
  else if m.start ∧ s.get .ux Reg.UX_SEAL_CTRL_LAG < (next - s.reg .ux Reg.UX_SEAL_STAT_LAST.off).toNat then no (s.log .ux 0x4C 0x5021 lane next.toNat) stRefused
  else if s.pendingLaunches.any (fun l => l.lid == m.lid) then no (s.logI .ux 0x4C 0x3051 lid diff) stRefused
  else if s.tbState .ux 0 = 0 ∨ m.t < now + psHxt s.dLaunch then no (s.logI .ux 0x4C 0x3051 lid diff) stLate
  else
    let s := (s.count .ux Reg.UX_LAUNCH_CNT_ACCEPTED 1).modUx (fun u => { u with pending := s.pendingLaunches ++ [m], launched := true })
    let s := if m.start then s.setReg .ux Reg.UX_SEAL_NEXT_NEXT.off (next + 1) else s
    ((s.memberPorts.foldl State.launchPay s).sendDown s.memberPorts (.launch m), stOk)

/-- D_LAUNCH of the root is DOWN_MAX with its GUARD (R235). -/
def State.guardAdd (s : State) : State :=
  s.put .ux Reg.UX_LAUNCH_DL_D_LAUNCH (s.get .ux Reg.UX_LAUNCH_DL_DOWN_MAX + 1000 * s.get .ux Reg.UX_LAUNCH_CTRL_GUARD)

/-- D_launch is computed from the reports of the nodes below (R235): a leaf reports its largest die-lane delay, a spine adds its downlinks, and the root adds its own and the three hops of 110 ns. A leaf that relays reports the dies it relays for to its twin, which adds the link between them and one hop (R230). -/
def State.dlaunch (s : State) (reports : List (Nat × Nat)) : State :=
  let s := s.modUx (fun u => { u with downRep := reports.foldl (fun t r => tput 0 t r.1 r.2) u.downRep })
  let ps := fun (x : Nat) => s.get .ux (Reg.LANE_DELAY_D_PS (laneBlk .ux x))
  let d := fun (x : Nat) => ps x + (if s.tier = 0 then 0 else tget 0 s.ux.downRep x)
  let most := (s.memberPorts.map d).foldl max 0
  if s.tier = 2 then (s.put .ux Reg.UX_LAUNCH_DL_DOWN_MAX (most + 330000)).guardAdd
  else if s.relays then s.toTwin (.delayReport ((s.ux.relayFrom.map ps).foldl max 0))
  else
    let twinLanes := ((List.range 8).map (fun i => 152 + i)).filter (fun y => tget 0 s.ux.downRep y != 0)
    let far := (twinLanes.map (fun y => tget 0 s.ux.downRep y + ps y + 110000)).foldl max 0
    s.sendUp .ux (.delayReport (if s.tier = 0 && !s.ux.relayFrom.isEmpty then max most far else most))

end Sys2Proof.Machine
end

