-- ==== Sys2Proof/Machine/LedgOps.lean ====
section
/-! DEFINITION. The ledger of a leaf, its chain and the lock-step comparator, and the seal at the root, the leaf and the die (R299 to R306, R314 to R318). -/

namespace Sys2Proof.Machine

/-! ### Pages and index entries (R300, R301) -/

/-- Bytes of HBM are replaced. -/
def State.hbmPut (s : State) (a : Nat) (bs : List Byte) : State := s.memWrite .ux a bs

/-- Bytes of HBM. -/
def State.hbm (s : State) (a n : Nat) : List Byte := mread s.ux.base.mem a n

/-- The steps the ledger keeps (R300). -/
def State.ret (s : State) : Nat := s.get .ux Reg.UX_LEDG_CFG_RET

/-- The position of a page (R300). -/
def State.ledgPos (s : State) (step lane group : Nat) : Nat := ((if s.ret = 0 then 0 else step % s.ret) * 128 + lane) * 32 + group

/-- The address of a page. -/
def State.pageAddr (s : State) (pos : Nat) : Nat := s.get .ux Reg.UX_LEDG_CFG_BASE * 2 ^ 30 + 4096 * pos

/-- The start of the ledger metadata area. -/
def State.metaBase (s : State) : Nat := s.get .ux Reg.UX_LEDG_CFG_MBASE * 2 ^ 30

/-- The address of an index entry. -/
def State.indexAddr (s : State) (pos : Nat) : Nat := s.metaBase + 16 * pos

/-- An index entry (R300). -/
structure LedgIndex where
  step   : Nat
  count  : Nat
  lane   : Nat
  group  : Nat
  isSealed : Bool
  ovf    : Bool
  valid  : Bool
  deriving DecidableEq, Repr

/-- An index entry from its 128 bits. -/
def ledgIndexOf (v : Nat) : LedgIndex :=
  { step := v / 2 ^ 64, count := v / 2 ^ 16 % 256, lane := v / 2 ^ 9 % 128, group := v / 2 ^ 4 % 32, isSealed := v / 4 % 2 == 1, ovf := v / 2 % 2 == 1, valid := v % 2 == 1 }

/-- The 128 bits of an index entry. -/
def LedgIndex.word (i : LedgIndex) : Nat :=
  i.step * 2 ^ 64 + i.count * 2 ^ 16 + i.lane * 2 ^ 9 + i.group * 2 ^ 4 + (if i.isSealed then 4 else 0) + (if i.ovf then 2 else 0) + (if i.valid then 1 else 0)

/-- The index entry at a position. -/
def State.ledgIndex (s : State) (pos : Nat) : LedgIndex := ledgIndexOf (leNat (s.hbm (s.indexAddr pos) 16))

/-- The state with the index entry at a position replaced. -/
def State.setIndex (s : State) (pos : Nat) (i : LedgIndex) : State := s.hbmPut (s.indexAddr pos) (leBytes 16 i.word)

/-- The 32 bytes of a record (R296). -/
def recBytes (r : LedgerRec) : List Byte :=
  leBytes 8 r.step.toNat ++ leBytes 8 r.fp.toNat ++ leBytes 4 r.blocks.toNat ++ leBytes 4 r.mism.toNat ++ leBytes 2 r.tensor.toNat ++ [r.kind, r.flags] ++ leBytes 4 r.lsi.toNat

/-- The record in 32 bytes. -/
def recOf (bs : List Byte) : LedgerRec :=
  let f := fun (o n : Nat) => leNat ((bs.drop o).take n)
  { step := BitVec.ofNat 64 (f 0 8), fp := BitVec.ofNat 64 (f 8 8), blocks := BitVec.ofNat 32 (f 16 4), mism := BitVec.ofNat 32 (f 20 4),
    tensor := BitVec.ofNat 16 (f 24 2), kind := BitVec.ofNat 8 (f 26 1), flags := BitVec.ofNat 8 (f 27 1), lsi := BitVec.ofNat 32 (f 28 4) }

/-- A record is stored in its page (R300, R301): a full page drops it; the first record of a step overwrites what the slot held, with 0x5031 where a sealed step not yet archived is lost, and that step of the lane is no longer retained. -/
def State.ledgStore (s : State) (lane : Nat) (r : LedgerRec) : State :=
  let step := r.step.toNat
  let group := r.tensor.toNat / 128 % 32
  let pos := s.ledgPos step lane group
  let i := s.ledgIndex pos
  if i.valid && i.step == step then
    if i.count < 128 then (s.hbmPut (s.pageAddr pos + 32 * i.count) (recBytes r)).setIndex pos { i with count := i.count + 1 }
    else
      let s := (s.count .ux Reg.UX_LEDG_STAT_DROPPED 1).put .ux Reg.UX_LEDG_STAT_GROUP_FULL 1
      let s := if i.ovf then s else s.log .ux 0x43 0x5030 lane (step * 256 % 2 ^ 64 + group)
      s.setIndex pos { i with ovf := true }
  else
    let lost := i.valid && i.isSealed && decide (i.step < step) && decide ((s.reg .ux Reg.UX_LEDG_ARCH_STEP.off).toNat < i.step)
    let s := if lost then ((s.count .ux Reg.UX_LEDG_STAT_OVERWRITES 1).put .ux Reg.UX_LEDG_STAT_OVERWRITE 1).log .ux 0x43 0x5031 lane i.step else s
    let s := if i.valid then s.modUx (fun u => { u with chainLog := u.chainLog.filter (fun c => !(c.1 == lane && c.2.1 == i.step)) }) else s
    (s.hbmPut (s.pageAddr pos) (recBytes r ++ List.replicate 4064 0)).setIndex pos
      { step := step, count := 1, lane := lane, group := group, isSealed := false, ovf := false, valid := true }

/-- The positions whose index entry is written. -/
def State.ledgPositions (s : State) : List Nat :=
  let lo := s.metaBase
  ((s.ux.base.mem.filter (fun c => lo ≤ c.1 && c.1 < lo + 2 ^ 29)).map (fun c => (c.1 - lo) / 16)).eraseDups

/-- A rollback clears the pages of every step above the target (R301); target none, all-ones, clears every page. -/
def State.ledgRollback (s : State) (target : Word) : State :=
  s.ledgPositions.foldl (fun t p =>
    let i := t.ledgIndex p
    if i.valid && (target == 0xFFFFFFFFFFFFFFFF || decide (target.toNat < i.step)) then t.setIndex p { i with valid := false, isSealed := false, ovf := false, count := 0 } else t) s

/-! ### The chain (R302, R303) -/

/-- The order of records in a page (R302). -/
def recKey (r : LedgerRec) : List Nat := [r.tensor.toNat, r.kind.toNat, r.fp.toNat, r.blocks.toNat, r.mism.toNat, r.flags.toNat]

/-- One list of numbers is at or before another. -/
def listLe : List Nat → List Nat → Bool
  | [], _ => true
  | _, [] => false
  | a :: as, b :: bs => a < b || (a == b && listLe as bs)

/-- A record put into a sorted list. -/
def recInsert (r : LedgerRec) : List LedgerRec → List LedgerRec
  | [] => [r]
  | x :: xs => if listLe (recKey r) (recKey x) then r :: x :: xs else x :: recInsert r xs

/-- The records a page holds of a step. -/
def State.pageRecs (s : State) (step lane group : Nat) : List LedgerRec :=
  let pos := s.ledgPos step lane group
  let i := s.ledgIndex pos
  if i.valid && i.step == step then (List.range i.count).map (fun k => recOf (s.hbm (s.pageAddr pos + 32 * k) 32)) else []

/-- A page as it is hashed: its records sorted, empty slots zero (R302). -/
def State.pageSorted (s : State) (step lane group : Nat) : List Byte :=
  let rs := (s.pageRecs step lane group).foldr recInsert []
  rs.flatMap recBytes ++ List.replicate (4096 - 32 * rs.length) 0

/-- The four digests of a lane's pages of a step (R302). -/
def State.chainDigests (s : State) (step lane : Nat) (prev : List Byte) : List (List Byte) :=
  let one := fun (d : List Byte) (j : Nat) => sha384 (d ++ leBytes 8 step ++ leBytes 1 lane ++ leBytes 1 j ++ (List.range 8).flatMap (fun k => s.pageSorted step lane (8 * j + k)))
  let d0 := one prev 0
  let d1 := one d0 1
  let d2 := one d1 2
  [d0, d1, d2, one d2 3]

/-- Where digest `j` of a lane and step is stored (R302). -/
def State.digestAddr (s : State) (step lane j : Nat) : Nat :=
  s.metaBase + 2 ^ 29 + 48 * (4 * ((if s.ret = 0 then 0 else step % s.ret) * 128 + lane) + j)

/-- The lane's D_3 of the last step it chained; 48 zero bytes at the chain's start. -/
def State.chainPrev (s : State) (lane : Nat) : List Byte :=
  match tget [] s.ux.chainD3 lane with
  | [] => List.replicate 48 0
  | d => d

/-- A lane that holds pages of a step is chained (R302): pages sorted, digests stored, the 32 index entries SEALED. -/
def State.chainLane (s : State) (step lane : Nat) : State :=
  let groups := (List.range 32).filter (fun g => let i := s.ledgIndex (s.ledgPos step lane g); i.valid && i.step == step)
  if groups.isEmpty then s
  else
    let prev := s.chainPrev lane
    let ds := s.chainDigests step lane prev
    let s := groups.foldl (fun t g => t.hbmPut (t.pageAddr (t.ledgPos step lane g)) (t.pageSorted step lane g)) s
    let s := ds.foldl (fun (a : State × Nat) d => (a.1.hbmPut (a.1.digestAddr step lane a.2) d, a.2 + 1)) (s, 0)
    let s := (List.range 32).foldl (fun t g => let p := t.ledgPos step lane g; t.setIndex p { t.ledgIndex p with isSealed := true }) s.1
    s.modUx (fun u => { u with chainD3 := tput [] u.chainD3 lane (ds.getD 3 []),
                               chainLog := u.chainLog.filter (fun c => !(c.1 == lane && c.2.1 % max 1 s.ret == step % max 1 s.ret)) ++ [(lane, step, prev)] })

/-- A leaf chains a sealed step (R302, R317). -/
def State.chainStep (s : State) (step : Nat) : State := (List.range 128).foldl (fun t l => t.chainLane step l) s

/-- A retained step of a lane is recomputed (R303): a digest that differs sets CHAIN_BAD with 0x5032. -/
def State.chainCheck (s : State) (lane step : Nat) (prev : List Byte) : State :=
  let held := (List.range 32).any (fun g => let i := s.ledgIndex (s.ledgPos step lane g); i.valid && i.step == step)
  let stored := (List.range 4).map (fun j => s.hbm (s.digestAddr step lane j) 48)
  if held && s.chainDigests step lane prev != stored then (s.put .ux Reg.UX_LEDG_STAT_CHAIN_BAD 1).log .ux 0x43 0x5032 lane step else s

/-- Every retained sealed step from `lo` to `hi` is recomputed. -/
def State.chainVerify (s : State) (lo hi : Nat) : State :=
  s.ux.chainLog.foldl (fun t c => if lo ≤ c.2.1 && c.2.1 ≤ hi then t.chainCheck c.1 c.2.1 c.2.2 else t) s

/-- LARCH (R303, R304): the retained sealed steps of the range are recomputed and streamed, lane by lane, as 32 pages and four digests; ARCH.STEP holds the range's end. -/
def State.ledgArchive (s : State) (lo hi : Word) : State :=
  let s := s.chainVerify lo.toNat hi.toNat
  let hits := s.ux.chainLog.filter (fun c => decide (lo.toNat ≤ c.2.1) && decide (c.2.1 ≤ hi.toNat))
  let out := hits.map (fun c => (BitVec.ofNat 64 c.2.1, c.1,
    (List.range 32).flatMap (fun g => s.pageSorted c.2.1 c.1 g) ++ (List.range 4).flatMap (fun j => s.hbm (s.digestAddr c.2.1 c.1 j) 48)))
  (s.modUx (fun u => { u with archived := u.archived ++ out })).setReg .ux Reg.UX_LEDG_ARCH_STEP.off hi

/-- LTRIM releases the records of the steps below one (R199). -/
def State.ledgTrim (s : State) (step : Word) : State :=
  (s.ledgPositions.foldl (fun t p => let i := t.ledgIndex p; if i.valid && decide (i.step < step.toNat) then t.setIndex p { i with valid := false } else t) s).modUx
    (fun u => { u with chainLog := u.chainLog.filter (fun c => decide (step.toNat ≤ c.2.1)) })

/-! ### Lock-step (R314, R315) -/

/-- Two records agree, LSI excluded. -/
def recSame (a b : LedgerRec) : Bool := { a with lsi := 0 } == { b with lsi := 0 }

/-- The first divergence is recorded (R315): bundle, tensor and block come from the pair when it is of kind 7, else from the nearest earlier DETAIL record; with none they are free (log 112). -/
def State.lockDiverge (s : State) (r : LedgerRec) : State :=
  let d := if r.kind = 7 then some r else s.ux.lockBlock
  let s := s.setReg .ux Reg.UX_LOCK_DIV0_STEP.off r.step
  let s := match d with
    | some x => ((s.put .ux Reg.UX_LOCK_DIV1_BUNDLE x.blocks.toNat).put .ux Reg.UX_LOCK_DIV1_TENSOR x.tensor.toNat).put .ux Reg.UX_LOCK_DIV1_BLOCK (x.fp.toNat / 2 ^ 32)
    | none =>
      let v := s.draw
      let w := v.1.toNat
      ((v.2.put .ux Reg.UX_LOCK_DIV1_BUNDLE w).put .ux Reg.UX_LOCK_DIV1_TENSOR (w / 2 ^ 16)).put .ux Reg.UX_LOCK_DIV1_BLOCK (w / 2 ^ 28)
  (s.put .ux Reg.UX_LOCK_DIV1_VALID 1).log .ux 0x43 0x5040 (s.get .ux Reg.UX_LOCK_CTRL_PRI) r.step.toNat

/-- The place of a record in its stream: its step and ordinal. -/
def LockRec.place (x : LockRec) : Nat := x.record.step.toNat * 2 ^ 32 + x.ord

/-- The two streams are compared in ORD order, as far as both reach; `fuel` records. Until a first pair of one step and ordinal has been found, a record whose partner came before the streams began is passed over (log 112). -/
def State.lockCompare : Nat → State → State
  | 0, s => s
  | n + 1, s =>
    match s.ux.lockPri, s.ux.lockShd with
    | a :: as, b :: bs =>
      if !s.ux.lockSync && decide (a.place < b.place) then lockCompare n (s.modUx (fun u => { u with lockPri := as }))
      else if !s.ux.lockSync && decide (b.place < a.place) then lockCompare n (s.modUx (fun u => { u with lockShd := bs }))
      else
      let t := s.modUx (fun u => { u with lockPri := as, lockShd := bs, lockSync := true })
      if recSame a.record b.record then lockCompare n (if a.record.kind = 7 then t.modUx (fun u => { u with lockBlock := some a.record }) else t)
      else t.lockDiverge a.record
    | _, _ => s

/-- A record of a paired lane joins its stream while the comparator is armed. -/
def State.lockTake (s : State) (lane ord : Nat) (r : LedgerRec) : State :=
  if !s.bit .ux Reg.UX_LOCK_CTRL_EN || s.bit .ux Reg.UX_LOCK_DIV1_VALID then s
  else
    let x : LockRec := { ord := ord, record := r }
    let s := if lane = s.get .ux Reg.UX_LOCK_CTRL_PRI then s.modUx (fun u => { u with lockPri := u.lockPri ++ [x] })
      else if lane = s.get .ux Reg.UX_LOCK_CTRL_SHD then s.modUx (fun u => { u with lockShd := u.lockShd ++ [x] }) else s
    State.lockCompare (s.ux.lockPri.length + s.ux.lockShd.length) s

/-! ### Records at the leaf (R299) -/

/-- A leaf learns from a record which die has its LSI, and that the die is a member (log 34); a lock-step shadow teaches nothing (R314). -/
def State.learnLsi (s : State) (lane lsi : Nat) : State :=
  if s.lockLane Reg.UX_LOCK_CTRL_SHD lane then s else
  let pdi := s.pdiOf lane
  let s := s.modUx (fun u => { u with lsiOf := tput 0 u.lsiOf lsi (pdi + 1), hallLsis := if u.hallLsis.contains lsi then u.hallLsis else u.hallLsis ++ [lsi] })
  if s.member pdi = 2 then s.setMember pdi 3 else s

/-- One record with its ordinal: accepted once, compared, and stored where R297 says so. -/
def State.ledgTake (s : State) (lane ord : Nat) (r : LedgerRec) : State :=
  if s.ux.accepted.contains (lane, r.step, ord) then s
  else
    let s := (s.modUx (fun u => { u with accepted := u.accepted ++ [(lane, r.step, ord)] })).learnLsi lane (r.lsi.toNat % 2 ^ 20)
    let s := s.lockTake lane ord r
    if r.kind.toNat ≤ 5 then s.ledgStore lane r else s

/-! ### The seal (R316 to R318) -/

/-- No step. -/
def noStep : Word := 0xFFFFFFFFFFFFFFFF

/-- The last sealed step this chip knows: UX_SEAL_STAT.LAST at the root, what its SEAL messages said elsewhere. -/
def State.lastSealed (s : State) : Word := if s.tier = 2 then s.reg .ux Reg.UX_SEAL_STAT_LAST.off else s.ux.lastSeal

/-- A step is sealed, with the last sealed step `last`. -/
def isSealedBy (last step : Word) : Bool := last != noStep && decide (step.toNat ≤ last.toNat)

/-- Every LSEAL of this chip for a step up to the sealed one completes OK. -/
def State.lsealDone (s : State) (step : Word) : State :=
  let hit := s.ux.lseals.filter (fun l => decide (l.1.toNat ≤ step.toNat))
  (s.modUx (fun u => { u with lseals := u.lseals.filter (fun l => !decide (l.1.toNat ≤ step.toNat)) })).endAll .ux (hit.filterMap (fun l => s.findOp .ux l.2))

/-- The root publishes the seal of a step (R316): SEAL goes down, 0x5020. -/
def State.sealPublish (s : State) (step : Word) : State :=
  let s := (s.setReg .ux Reg.UX_SEAL_STAT_LAST.off step).modUx (fun u => { u with passVotes := u.passVotes.filter (fun v => v.2 != step) })
  ((s.sendDown s.memberPorts (.sealMsg 0x32 0 step)).log .ux 0x4C 0x5020 0 step.toNat).lsealDone step

/-- The conditions of R316 hold for the step after the last sealed one: every member die the root has heard of has voted, and every other one (log 34). -/
def State.sealReady (s : State) (step : Word) : Bool :=
  s.tier == 2 && !s.bit .ux Reg.UX_SEAL_FAIL_PENDING && !s.bit .ux Reg.UX_HC_STAT_ROLLBACK && s.ux.lseals.any (fun l => l.1 == step)
    && !s.ux.hallLsis.isEmpty && s.ux.hallLsis.all (fun l => s.ux.passVotes.contains (l, step))
    && (Config.hallMembers s.draws).all (fun m => s.ux.passVotes.contains (m.2, step))

/-- Seals are published while their conditions hold; `fuel` steps. -/
def State.sealTry : Nat → State → State
  | 0, s => s
  | n + 1, s =>
    let step := s.lastSealed + 1
    if s.sealReady step then sealTry n (s.draw.2.sealPublish step) else s.draw.2

/-- SEAL reaches an Elesh (R317): LAST rises and every SEALQ for steps up to it completes; a SEAL for a step already sealed is discarded (R367). -/
def State.elSeal (s : State) (step : Word) : State :=
  let last := s.reg .el Reg.CHK_SEAL_LAST.off
  if isSealedBy last step then s
  else
    let s := s.setReg .el Reg.CHK_SEAL_LAST.off step
    let hit := s.el.base.qops.filter (fun o => o.started && (match o.kind with | .sealq x => decide (x.toNat ≤ step.toNat) | _ => false))
    s.endAll .el hit

/-- A leaf holds pages of a step that are not chained. -/
def State.unchained (s : State) (step : Nat) : Bool :=
  downLanes.any (fun l => (List.range 32).any (fun g => let i := s.ledgIndex (s.ledgPos step l g); i.valid && i.step == step && !i.isSealed))

/-- A SEAL has been taken before at this leaf or spine (R306): its step is the last one taken or, at a leaf, lies below it and no page of it waits to be chained. A run that starts at a lower step brings SEALs again (log 110). -/
def State.sealTaken (s : State) (step : Word) : Bool :=
  step == s.ux.lastSeal || (s.tier == 0 && isSealedBy s.ux.lastSeal step && !s.unchained step.toNat)

/-- SEAL reaches a leaf or spine (R317): it passes down, a leaf chains the step, and LSEAL records it. -/
def State.uxSeal (s : State) (step : Word) : State :=
  if s.tier = 2 ∨ s.sealTaken step then s
  else
    let s := (s.modUx (fun u => { u with lastSeal := step })).sendDown s.memberPorts (.sealMsg 0x32 0 step)
    let s := if s.tier = 0 then s.chainStep step.toNat else s
    s.lsealDone step

/-- LSEAL is open for a step (R316, R199): at once OK where the step is sealed; at the root it may now be published. -/
def State.lsealOpen (s : State) (o : QOp) (step : Word) : State :=
  if isSealedBy s.lastSealed step then s.endOp o stOk
  else
    let s := s.modUx (fun u => { u with lseals := u.lseals ++ [(step, o.id)] })
    State.sealTry s.ux.lseals.length s

end Sys2Proof.Machine
end

