-- ==== Sys2Proof/Machine/HcOps.lean ====
section
/-! DEFINITION. Headcount: observation, proposals and votes, the authority's decisions, the spare table, path commands, rollback and its commit (R326 to R370, R460 to R462). -/

namespace Sys2Proof.Machine

/-! ### Observation (R330, R333, R334) -/

/-- What this chip has observed of a subject. -/
def State.obsOf (s : State) (x : Subj) : Obs := tget Obs.zero s.ux.obs (subjKey x)

/-- The state with an observation replaced. -/
def State.setObs (s : State) (x : Subj) (o : Obs) : State := s.modUx (fun u => { u with obs := tput Obs.zero u.obs (subjKey x) o })

/-- The age in ns of the last heartbeat of a subject here, saturating; all-ones for one never heard. -/
def State.hbAge (s : State) (x : Subj) : Nat :=
  let o := s.obsOf x
  if o.heard then min (2 ^ 32 - 1) (o.age + (s.tick .ux - o.at') * 64 / 10) else 2 ^ 32 - 1

/-- The membership code of a subject as this chip holds it. -/
def State.codeOf (s : State) (x : Subj) : Nat := tget 0 s.ux.members (subjKey x)

/-- The downlink on which a subject is a child of this chip. -/
def State.childLane (s : State) (x : Subj) : Option Nat :=
  match s.portOf x.pdi.toNat with
  | some l => if s.childSubj l == x then some l else none
  | none => none

/-- A heartbeat is heard: its observation begins again. -/
def State.hbHeard (s : State) (x : Subj) : State :=
  let s := s.setObs x { heard := true, at' := s.tick .ux, age := 0, misses := 0, asked := false }
  match s.childLane x with
  | some l => s.put .ux (Reg.UX_LANE_HC_AGE l) 0
  | none => s

/-- Unsettled proposals of a subject, and this chip's vote on it, are dropped. -/
def State.dropProposals (s : State) (x : Subj) : State :=
  s.modUx (fun u => { u with proposals := u.proposals.filter (fun q => q.subj != x || q.settled.isSome), votesOut := u.votesOut.filter (fun v => v.subj != x) })

/-- The probation record of a die at its leaf ends with its membership (R365). -/
def State.laneProbEnd (s : State) (x : Subj) : State :=
  match (if x.tier = 0 then s.dieLane x.pdi.toNat else none) with
  | some l => (((s.put .ux (Reg.UX_LANE_HC_VSTEPS l) 0).put .ux (Reg.UX_LANE_HC_FSTEPS l) 0).put .ux (Reg.UX_LANE_HC_PROBATION l) 0).put .ux (Reg.UX_LANE_HC_SUSPECT_ACT l) 0
  | none => s

/-- A die leaves membership to a code: EXPELLED, FENCED or STANDBY. -/
def State.leaves (s : State) (x : Subj) (code : Nat) : State := (s.setMembership x code).laneProbEnd x

/-- A subject is suspect (R232, R333): 0x6001 with its age, and a leaf asks its twin about a die (R334); a chip is proposed by the caller. -/
def State.suspect (s : State) (x : Subj) (age : Nat) : State :=
  let s := (s.setMembership x 4).log .ux 0x42 0x6001 (subjObj x) age
  if x.tier = 0 then (s.setObs x { s.obsOf x with asked := true }).toTwin (.hearReq x) else s

/-- A lane is reported to headcount as a suspect (R232): its child, while a member and not suspect yet (log 104). -/
def State.suspectLane (s : State) (x : Nat) : State :=
  let y := s.childSubj x
  if s.codeOf y = 3 then s.suspect y (s.hbAge y) else s

/-! ### Barriers, slots and groups at a rollback (R345) -/

/-- Every open generation is discarded; a count armed by TBAR stays for the next one. -/
def State.nodesDiscard (s : State) : State :=
  s.ux.bars.foldl (fun t e => t.setNode e.1 { BarNode.zero with gen := if e.2.isOpen then e.2.gen + 1 else e.2.gen, armed := e.2.armed, qid := e.2.qid }) s

/-- Every open slot and group is discarded; the operation that opened it completes ABORTED (log 38). -/
def State.slotsDiscard (s : State) : State :=
  let qs := s.ux.slots.map (fun e => e.2.qid) ++ s.ux.groups.map (fun e => e.2.qid)
  let s := ((s.setSlots []).setGroups []).modUx (fun u => { u with held := [] })
  qs.foldl (fun t q => t.endQid q stAborted) s

/-- A step lies above a rollback target; above none every step does. -/
def aboveTarget (target step : Word) : Bool := target == noStep || decide (target.toNat < step.toNat)

/-- What a rollback does at a Uhloux chip (R345, R449): generations, slots and groups are discarded, a leaf clears its ledger pages above the target and accepts their records anew, the vault's current generations go, an ARMED manifest is disarmed. -/
def State.uxRollback (s : State) (target : Word) : State :=
  let s := s.nodesDiscard.slotsDiscard.manDisarm .ux
  let s := if s.tier = 0 then (s.ledgRollback target).lockClear else s
  s.modUx (fun u => { u with
    accepted := u.accepted.filter (fun a => !aboveTarget target a.2.1)
    passVotes := []
    vaults := u.vaults.map (fun v => (v.1, { v.2 with log := [], ended := [] })) })

/-! ### The spare table (R339 to R342) -/

/-- The address of an entry of the spare table. -/
def State.spareAddr (s : State) (i : Nat) : Nat := s.get .ux Reg.UX_HC_SPTAB_BASE * 4096 + 8 * i

/-- An entry of the spare table. -/
def State.spareEntry (s : State) (i : Nat) : Nat := leNat (s.hbm (s.spareAddr i) 8)

/-- STATE of an entry. -/
def spareState (v : Nat) : Nat := v / 2 ^ 62
/-- DOMAIN of an entry. -/
def spareDomain (v : Nat) : Nat := v / 2 ^ 54 % 256
/-- PATHSET of an entry. -/
def sparePathset (v : Nat) : Nat := v / 2 ^ 38 % 65536
/-- PDI of an entry. -/
def sparePdi (v : Nat) : Nat := v % 2 ^ 20

/-- The entries in table order. -/
def State.spareList (s : State) : List Nat := List.range (s.get .ux Reg.UX_HC_SPTAB_COUNT)

/-- STATE of an entry is written. -/
def State.spareMark (s : State) (i st : Nat) : State := s.hbmPut (s.spareAddr i) (leBytes 8 (s.spareEntry i % 2 ^ 62 + st * 2 ^ 62))

/-- SPARES_FREE follows the table (R342); 0x6010 when it falls below LOW_WATER. -/
def State.sparesShow (s : State) : State :=
  let n := min 4095 (s.spareList.countP (fun i => spareState (s.spareEntry i) == 0))
  let low := s.get .ux Reg.UX_HC_CTRL_LOW_WATER
  let old := s.get .ux Reg.UX_HC_STAT_SPARES_FREE
  let s := s.put .ux Reg.UX_HC_STAT_SPARES_FREE n
  if n < low ∧ low ≤ old then s.log .ux 0x42 0x6010 0 n else s

/-- Whether a die is STANDBY as far as the authority knows: by what it holds of the die, else free (log 35). -/
def State.hallStandby (s : State) (pdi : Nat) : Bool × State :=
  match s.member pdi with
  | 0 => let d := s.draw; (d.1.toNat % 2 == 1, d.2)
  | c => (c == 2, s)

/-- The first FREE entry whose word passes; one whose PDI is not STANDBY is skipped and set UNAVAILABLE (R340). The chosen entry becomes ASSIGNED. -/
def State.spareScan (ok : Nat → Bool) : List Nat → State → Option Nat × State
  | [], s => (none, s)
  | i :: is, s =>
    let v := s.spareEntry i
    if spareState v ≠ 0 || !ok v then State.spareScan ok is s
    else
      let r := s.hallStandby (sparePdi v)
      if r.1 then (some v, r.2.spareMark i 1) else State.spareScan ok is (r.2.spareMark i 2)

/-- The spare for a failed die of domain `dom` (R340): the word of its entry. For a privileged die the domain of its vault holder, which no message carries here, is free (log 35). -/
def State.sparePick (s : State) (dom : Nat) (priv : Bool) : Option Nat × State :=
  let d := s.draw
  let vault := d.1.toNat % 256
  let far := fun (a b : Nat) => a != b && a != 255 && b != 255
  let r := State.spareScan (fun v => far (spareDomain v) dom && (!priv || far (spareDomain v) vault)) s.spareList d.2
  let r := match r.1 with
    | some _ => r
    | none => State.spareScan (fun _ => true) r.2.spareList r.2
  (r.1, r.2.sparesShow)

/-- An entry for a die that left the run (R349): FREE, domain unknown, no path set; not above 4,095 entries. -/
def State.spareAppend (s : State) (pdi : Nat) : State :=
  let n := s.get .ux Reg.UX_HC_SPTAB_COUNT
  if 4095 ≤ n then s.log .ux 0x42 0x6010 0 0xFFFFFFFF
  else (s.hbmPut (s.spareAddr n) (leBytes 8 (255 * 2 ^ 54 + 65535 * 2 ^ 38 + pdi))).put .ux Reg.UX_HC_SPTAB_COUNT (n + 1)

/-! ### Path commands (R341, R460 to R462) -/

/-- The address of a path-set entry of the OCS table. -/
def State.ocsSet (s : State) (pathset : Nat) : Nat := s.get .ux Reg.UX_OCS_CFG_BASE * 4096 + 8192 + 64 * pathset

/-- The datagram of a path command (R461). TIMEOUT, which no register gives, is free (log 2). -/
def pathBytes (cmd pathset seq path switch portIn portOut timeout epoch : Nat) : List Byte :=
  leBytes 4 0x31505848 ++ leBytes 1 1 ++ leBytes 1 cmd ++ leBytes 2 pathset ++ leBytes 4 seq ++ leBytes 1 path ++ leBytes 1 switch
    ++ leBytes 2 portIn ++ leBytes 2 portOut ++ leBytes 2 timeout ++ leBytes 4 epoch ++ leBytes 8 0

/-- A datagram leaves the time port of UX_OCS_CFG. -/
def State.tpSend (s : State) (bs : List Byte) : State := s.modUx (fun u => { u with tpOut := u.tpOut ++ [bs] })

/-- One path of a set is sent. -/
def State.pathSend1 (s : State) (pathset i : Nat) : State :=
  let a := s.ocsSet pathset + 8 + 8 * i
  let f := fun (o n : Nat) => leNat (s.hbm (a + o) n)
  let d := s.draw
  let seq := s.ux.pathSeq
  let bs := pathBytes (f 5 1) pathset seq i (f 0 1) (f 1 2) (f 3 2) (d.1.toNat % 65536) (s.get .ux Reg.UX_HC_STAT_EPOCH)
  (d.2.tpSend bs).modUx (fun u => { u with
    pathSeq := (u.pathSeq + 1) % 2 ^ 32
    paths := u.paths ++ [{ seq := seq, pathset := pathset, path := i, bytes := bs, resends := 0, busy := false, status := none }] })

/-- The last set's status and number (R462). -/
def State.pathShow (s : State) (pathset status : Nat) : State := (s.put .ux Reg.UX_OCS_STAT_STATUS status).put .ux Reg.UX_OCS_STAT_PATHSET pathset

/-! ### Rollback at the authority (R343, R344, R347) -/

/-- The state with the open rollback changed. -/
def State.modRb (s : State) (f : Rollback → Rollback) : State := s.modUx (fun u => { u with rollback := u.rollback.map f })

/-- The member dies this chip knows by PDI. -/
def State.knownMembers (s : State) : List Nat := (s.ux.members.filter (fun e => e.1 < 2 ^ 20 && inMembers e.2)).map Prod.fst

/-- A rollback opens (R343, R344): the gate closes, 0x6005; a further trigger joins the open one. -/
def State.rbOpen (s : State) (obj : Nat) : State :=
  if s.ux.rollback.isSome then s
  else
    let t := s.reg .ux Reg.UX_SEAL_STAT_LAST.off
    let s := s.modUx (fun u => { u with rollback := some { target := t, waitFor := s.knownMembers, ready := [], need := [], assigned := [], leaving := 0, tc := none } })
    let s := ((s.put .ux Reg.UX_HC_STAT_ROLLBACK 1).put .ux Reg.UX_HC_STAT_GATE_CLOSED 1).log .ux 0x42 0x6005 obj t.toNat
    s.uxRollback t

/-- ROLLBACK goes to every chip and die. -/
def State.rbSend (s : State) : State :=
  match s.ux.rollback with
  | some r => (s.sendDown downLanes (.rollback r.target)).toTwin (.rollback r.target)
  | none => s

/-- A rollback with no decision: a FAIL (R343). -/
def State.rbFail (s : State) : State := if s.ux.rollback.isSome then s else (s.rbOpen 0).rbSend

/-- The commit (R347): once every die it waits for is ready and no spare is owed, RB_COMMIT goes out with T_c. The dies it waits for are those known by PDI, as many as there are member LSIs, and every other one (log 34). -/
def State.rbTry (s : State) : State :=
  match s.ux.rollback with
  | none => s
  | some r =>
    let more := (Config.hallMembers s.draws).all (fun m => s.codeOf (dieSubj m.1) = 5 || s.codeOf (dieSubj m.1) = 6 || r.ready.contains m.1)
    let s := s.draw.2
    if more && r.tc.isNone && r.need.isEmpty && r.waitFor.all (fun d => r.ready.contains d) && decide (s.ux.hallLsis.length ≤ r.ready.length)
        && s.ux.paths.all (fun c => c.status.isSome) then
      let t := s.pendingLaunches.foldl (fun a l => max a l.t) (hxtAdd (s.tbNow .ux 0) (psHxt s.dLaunch))
      let s := (s.modRb (fun r => { r with tc := some t })).mod .ux (fun b => { b with rbAt := some t })
      (s.sendDown downLanes (.rbCommit t)).toTwin (.rbCommit t)
    else s

/-- RB_READY from a die (R347); one that was expelled or fenced is not waited for. -/
def State.rbReadyTake (s : State) (pdi : Nat) : State :=
  let c := s.member pdi
  if c = 5 ∨ c = 6 then s
  else (s.modRb (fun r => { r with ready := if r.ready.contains pdi then r.ready else r.ready ++ [pdi] })).rbTry

/-! ### Decisions (R336 to R342, R349, R350, R357 to R359) -/

/-- The LSI of a die, where this chip has seen it; else free (log 35). -/
def State.lsiOfDie (s : State) (pdi : Nat) : Nat × State :=
  match s.ux.lsiOf.find? (fun e => e.2 == pdi + 1) with
  | some e => (e.1, s)
  | none => let d := s.draw; (d.1.toNat % 2 ^ 20, d.2)

/-- The PDI of an LSI, where this chip has seen it; else free (log 35). -/
def State.dieOfLsi (s : State) (lsi : Nat) : Nat × State :=
  match tget 0 s.ux.lsiOf lsi with
  | 0 => let d := s.draw; (d.1.toNat % 2 ^ 18, d.2)
  | p + 1 => (p, s)

/-- A number put into an ascending list. -/
def natInsert (n : Nat) : List Nat → List Nat
  | [] => [n]
  | x :: xs => if n ≤ x then n :: x :: xs else x :: natInsert n xs

/-- The dies that leave with a failed one at a shrink (R349), in ascending LSI: those of equal data-parallel index. LSI_SPLIT takes effect at the authority; elsewhere the split is free (log 35). The failed die's LSI leaves too. -/
def State.shrink (s : State) (pdi : Nat) : State :=
  let f := s.lsiOfDie pdi
  let d := f.2.draw
  let auth := s.authority
  let split := if auth then s.get .ux Reg.UX_HC_RUN_LSI_SPLIT else d.1.toNat % 21
  let s := if auth then f.2 else d.2
  let all := s.ux.hallLsis ++ ((Config.hallMembers s.draws).map Prod.snd).filter (fun l => !s.ux.hallLsis.contains l)
  let gone := (all.filter (fun l => l != f.1 && l % 2 ^ split == f.1 % 2 ^ split)).foldr natInsert []
  let s := gone.foldl (fun t l =>
    let r := t.dieOfLsi l
    let t := r.2.leaves (dieSubj r.1) 2
    let t := t.modRb (fun b => { b with waitFor := b.waitFor.filter (fun x => x != r.1) })
    if auth then t.spareAppend r.1 else t) s
  let s := s.modUx (fun u => { u with hallLsis := u.hallLsis.filter (fun l => !gone.contains l && l != f.1) })
  if auth then s.sparesShow else s

/-- A chip is lost (R358): it leaves membership, and a leaf whose partner it is has its privileged dies unmirrored. -/
def State.chipLost (s : State) (x : Subj) : State :=
  let s := s.leaves x 6
  let leaf := x.pdi.toNat / 128
  if s.tier = 0 ∧ x.tier = 1 ∧ (leaf = s.get .ux Reg.UX_HC_PEER_PARTNER ∨ (s.bit .ux Reg.UX_HC_PEER_WAYS3 ∧ leaf = s.get .ux Reg.UX_HC_PEER_PARTNER2)) then
    s.vaultLost
  else s

/-- What a decision does at a Uhloux chip that publishes or receives it (R326, R337, R349, R358, R359). A FENCED die stays FENCED (R362). -/
def State.decisionApply (s : State) (x : Subj) (kind arg0 : Nat) : State :=
  let s := s.dropProposals x
  let expel := kind = 1 ∨ kind = 2 ∨ kind = 3 ∨ kind = 7
  let s := if x.tier = 0 ∧ expel then
      (if s.codeOf x = 5 then s else s.leaves x 6).modRb (fun r => { r with
        waitFor := r.waitFor.filter (fun d => d != x.pdi.toNat), ready := r.ready.filter (fun d => d != x.pdi.toNat)
        assigned := r.assigned.filter (fun a => a.2.1 != x.pdi.toNat), need := r.need.filter (fun d => d.1 != x.pdi.toNat) })
    else if kind = 5 then s.chipLost x else s
  if kind = 1 then s.modUx (fun u => { u with assigned := u.assigned.filter (fun a => a.1 != x.pdi.toNat) ++ [(x.pdi.toNat, arg0)] })
  else if kind = 2 then s.shrink x.pdi.toNat
  else if kind = 6 then
    let f := Reg.UX_LAUNCH_CTRL_BAR_PLANE
    (s.stage .ux f.off (fset (s.staged .ux f.off) f.hi f.lo arg0)).1
  else s

/-- The authority publishes a decision (R328, R336, R337): the epoch advances, 0x6004, DECISION to every chip and die, and ROLLBACK where it opens one. -/
def State.publish (s : State) (x : Subj) (kind arg0 : Nat) (rolls : Bool) : State :=
  let e := (s.get .ux Reg.UX_HC_STAT_EPOCH + 1) % 2 ^ 32
  let s := s.put .ux Reg.UX_HC_STAT_EPOCH e
  let fresh := rolls && s.ux.rollback.isNone
  let s := s.log .ux 0x42 0x6004 (subjObj x) (e * 2 ^ 32 + kind * 2 ^ 24 + arg0 % 2 ^ 20)
  let s := if rolls then s.rbOpen (subjObj x) else s
  let target := match s.ux.rollback with
    | some r => if rolls then r.target else noStep
    | none => noStep
  let m : DecisionMsg := { subj := x, kind := BitVec.ofNat 8 kind, arg0 := BitVec.ofNat 32 arg0, target := target, epoch := BitVec.ofNat 32 e }
  let s := (s.sendDown downLanes (.decision m)).toTwin (.decision m)
  let s := if fresh then s.rbSend else s
  s.decisionApply x kind arg0

/-- Whole seconds on this chip's ACLK. -/
def State.seconds (s : State) : Nat := s.tick .ux * 64 / 10000000000

/-- An expulsion counts against the budget of its domain (R366). -/
def State.budgetAdd (s : State) (dom : Nat) : State :=
  let now := s.seconds
  s.modUx (fun u => { u with expulsions := u.expulsions ++ [(dom, now)] })

/-- Expulsions of a domain within BUDGET_WIN. -/
def State.budgetCount (s : State) (dom : Nat) : Nat :=
  let now := s.seconds
  let win := s.get .ux Reg.UX_HC_CTRL_BUDGET_WIN
  s.ux.expulsions.countP (fun e => e.1 == dom && decide (now ≤ e.2 + win))

/-- The dies that need a spare hold the rollback open (R350, R357). -/
def State.rbNeed (s : State) (pdi kind : Nat) (f : Fld) : State := (s.modRb (fun r => { r with need := r.need ++ [(pdi, kind)] })).put .ux f 1

/-- EXPEL_ASSIGN of the spare in an entry (R341). -/
def State.assign (s : State) (x : Subj) (v : Nat) : State :=
  let pdi := sparePdi v
  let s := (s.publish x 1 pdi true).modRb (fun r => { r with
    assigned := r.assigned ++ [(x.pdi.toNat, pdi, sparePathset v)], waitFor := r.waitFor.filter (fun d => d != pdi) ++ [pdi] })
  if sparePathset v = 65535 then s
  else
    let n := leNat (s.hbm (s.ocsSet (sparePathset v)) 1)
    (List.range (min 7 n)).foldl (fun t i => t.pathSend1 (sparePathset v) i) s

/-- What the authority knows of a die it decided on, of its leaf's domain and whether it is privileged; free where it has not decided on it (log 35). -/
def State.deadInfo (s : State) (pdi : Nat) : (Nat × Bool) × State :=
  match tget 0 s.ux.deadOf pdi with
  | 0 => let d := s.draw; ((d.1.toNat % 256, d.1.toNat / 256 % 2 == 1), d.2)
  | k + 1 => ((k % 256, k / 256 % 2 == 1), s)

/-- A vault holder is lost during a rollback (R357): a privileged die whose spare is not ready yet may have lost its last sealed copy, which no message tells (log 35). -/
def State.vaultsLost (s : State) : State :=
  match s.ux.rollback with
  | none => s
  | some r => r.assigned.foldl (fun t a =>
      let i := t.deadInfo a.1
      let d := i.2.draw
      if i.1.2 && !r.ready.contains a.2.1 && d.1.toNat % 2 == 1 then
        let x := dieSubj a.1
        let t := d.2.modRb (fun b => { b with assigned := b.assigned.filter (fun c => c.1 != a.1), waitFor := b.waitFor.filter (fun y => y != a.2.1) })
        let t := (t.publish x 7 (d.1.toNat / 4 % 2 ^ 32) true).rbNeed a.1 7 Reg.UX_HC_STAT_UNRECOVERABLE
        t.log .ux 0x42 0x6042 (subjObj x) (d.1.toNat / 4 % 2 ^ 32)
      else d.2) s

/-- The authority decides on a die or chip (R337, R340, R349, R350, R357 to R359), whose leaf lies in domain `dom`. Whether a die is privileged, and whether its vaults are lost and who held them, no message tells the authority: free (log 35). Whether a lost chip is on the barrier plane SUBJ does not say: free, but for a child of this chip. -/
def State.decideOn (s : State) (x : Subj) (dom : Nat) : State :=
  let d := s.draw
  let v := d.1.toNat
  let s := d.2
  match x.tier.val with
  | 0 =>
    let s := s.budgetAdd dom
    let priv := v % 2 == 1
    let s := s.modUx (fun u => { u with deadOf := tput 0 u.deadOf x.pdi.toNat (dom % 256 + (if priv then 256 else 0) + 1) })
    let lost := v / 2 % 2 == 1
    let w := s.get .ux Reg.UX_HC_RUN_W
    if (priv && lost) || (!priv && decide (w ≤ 1)) then
      let holder := if priv then v / 4 % 2 ^ 32 else 0
      let s := (s.publish x 7 holder true).rbNeed x.pdi.toNat 7 Reg.UX_HC_STAT_UNRECOVERABLE
      s.log .ux 0x42 0x6042 (subjObj x) holder
    else
      let r := s.sparePick dom priv
      match r.1 with
      | some e => r.2.assign x e
      | none =>
        if !priv && s.bit .ux Reg.UX_HC_CTRL_AUTO_SHRINK && decide (max 1 (s.get .ux Reg.UX_HC_RUN_W_MIN) ≤ w - 1) then
          (r.2.publish x 2 (w - 1) true).rbTry
        else (r.2.publish x 3 0 true).rbNeed x.pdi.toNat 3 Reg.UX_HC_STAT_WAIT
  | 3 =>
    let s := s.put .ux Reg.UX_HC_STAT_AUTHORITY 1
    s.publish x 6 (s.get .ux Reg.UX_IDENT_ROLE_PLANE) true
  | _ =>
    let s := s.publish x 5 0 ((s.childLane x).isSome || v % 2 == 1)
    if x.tier.val = 1 then s.vaultsLost else s

/-- A spare that has become available ends a wait or a halt (R350, R357), as an assignment; `fuel` dies. -/
def State.serveWait : Nat → State → State
  | 0, s => s
  | n + 1, s =>
    match s.ux.rollback with
    | some r =>
      match r.need with
      | [] => s
      | (pdi, _) :: rest =>
        let i := s.deadInfo pdi
        let q := i.2.sparePick i.1.1 i.1.2
        match q.1 with
        | none => q.2
        | some e =>
          let t := (q.2.modRb (fun b => { b with need := rest })).assign (dieSubj pdi) e
          serveWait n (if rest.any (fun y => y.2 == 3) then t else t.put .ux Reg.UX_HC_STAT_WAIT 0)
    | none => s

/-- The spare table or the spares may have changed: SPARES_FREE follows, and waiting dies are served. -/
def State.spareEvent (s : State) : State :=
  if s.authority then
    let s := s.sparesShow
    State.serveWait (match s.ux.rollback with | some r => r.need.length | none => 0) s
  else s

/-! ### Proposals and votes at the authority (R335, R336, R338, R366) -/

/-- This chip counts the votes on a subject: the authority, or the twin root on its root. -/
def State.counts (s : State) (x : Subj) : Bool := s.authority || (s.tier == 2 && x.tier == 3)

/-- A subject has been decided in the epoch a message carries, or before. -/
def State.decided (s : State) (x : Subj) (epoch : BitVec 32) : Bool :=
  s.ux.proposals.any (fun q => q.subj == x && (match q.settled with | some e => decide (epoch.toNat ≤ e.toNat) | none => false))

/-- The unsettled proposal of a subject. -/
def State.openProposal (s : State) (x : Subj) : Option Proposal := s.ux.proposals.find? (fun q => q.subj == x && q.settled.isNone)

/-- The unsettled proposal of a subject replaced. -/
def State.putProposal (s : State) (q : Proposal) : State :=
  (s.dropProposals q.subj).modUx (fun u => { u with proposals := u.proposals ++ [q] })

/-- A proposal is settled in this epoch, and decided. -/
def State.settle (s : State) (x : Subj) (dom : Nat) : State :=
  let q : Proposal := { subj := x, msg := none, yes := [], settled := some s.epoch }
  ((s.dropProposals x).modUx (fun u => { u with proposals := u.proposals.filter (fun r => r.subj != x) ++ [q] })).decideOn x dom

/-- Two yes votes on a subject settle it (R336). -/
def State.quorum (s : State) (x : Subj) : State :=
  match s.openProposal x with
  | some q => (match q.msg with
    | some m => if 2 ≤ q.yes.length then s.settle x m.domain.toNat else s
    | none => s)
  | none => s

/-- A yes joins the votes on a subject, each voter once; a vote ahead of its proposal is kept. -/
def State.addYes (s : State) (x voter : Subj) (m : Option ProposeMsg) : State :=
  let q := (s.openProposal x).getD { subj := x, msg := none, yes := [], settled := none }
  (s.putProposal { q with msg := q.msg.or m, yes := if q.yes.contains voter then q.yes else q.yes ++ [voter] }).quorum x

/-- A proposal reaches the chip that counts (R336, R338, R366): a FENCED die's and a decided subject's are discarded, a soft one is decided or deferred, a hard one is its proposer's yes. -/
def State.proposalTake (s : State) (m : ProposeMsg) : State :=
  if s.codeOf m.subj = 5 ∨ s.decided m.subj m.epoch then s
  else if m.hard then s.addYes m.subj m.origin (some m)
  else
    let n := s.budgetCount m.domain.toNat
    if s.get .ux Reg.UX_HC_CTRL_BUDGET ≤ n ∨ s.get .ux Reg.UX_HC_STAT_SPARES_FREE < s.get .ux Reg.UX_HC_CTRL_LOW_WATER then
      s.log .ux 0x42 0x6022 (subjObj m.subj) n
    else s.settle m.subj m.domain.toNat

/-- What this chip answers as a voter (R335). -/
def State.votesYes (s : State) (m : ProposeMsg) : Bool :=
  decide (s.hbAge m.origin < 30000) && s.codeOf m.subj != 5 && s.codeOf m.subj != 6 && !s.decided m.subj m.epoch
    && (m.subj.tier == 0 || decide (3 ≤ (s.obsOf m.subj).misses))

/-- This chip is a voter on a hard proposal it receives (R335): a spine on its leaf's die; a leaf on a die of its partner, on its partner or twin, and on a spine or root. -/
def State.isVoter (s : State) (m : ProposeMsg) : Bool :=
  let partner := s.get .ux Reg.UX_HC_PEER_PARTNER
  m.hard && m.origin != s.chipSubj && (match s.tier with
    | 0 => (match m.subj.tier.val with
      | 0 => m.origin.tier == 1 && m.origin.pdi.toNat / 128 == partner
      | 1 => m.subj.pdi.toNat / 128 == partner || m.subj.pdi == s.chipSubj.pdi
      | _ => true)
    | 1 => m.subj.tier == 0 && m.origin.tier == 1
    | _ => false)

/-- A proposal passes through this chip on its way to the authority: at a spine, at the other plane's root, and at a leaf from its twin (R338). -/
def State.forwards (s : State) (m : ProposeMsg) : Bool := s.tier != 0 || m.origin == s.chipSubj

/-- A die or chip is silent, or becomes a hard failure: its observer proposes (R334, R335), or the authority counts its own proposal. -/
def State.propose (s : State) (x : Subj) (hard : Bool) (ageP ageT : Nat) : State :=
  (s.proposeOwn x hard ageP ageT).quorum x

/-! ### The commit at T_c (R347, R348) -/

/-- A die's state by its own commit: STANDBY with LSI_VALID = 1 becomes MEMBER (R326); its leaf follows where it is the chip of this model. -/
def State.dieMember (s : State) (code : Nat) : State :=
  let s := if s.tier == 0 && s.myPdi / 128 == s.get .ux Reg.UX_IDENT_ROLE_POS && (s.laneState .el 0 == 4 || s.laneState .el 1 == 4) then s.setMember s.myPdi code else s
  s.put .el Reg.HC_STAT_STATE code

/-- A commit has given a STANDBY die LSI_VALID = 1. -/
def State.standbyJoin (s : State) : State :=
  if s.get .el Reg.HC_STAT_STATE = 2 ∧ s.bit .el Reg.SEQ_RUNCFG_LSI_VALID then s.dieMember 3 else s

/-- T_c at a die: every staged value is committed, counter file, landing queue and FAILED are cleared, and the rollback ends. A check that fails commits nothing and marks a check failure (R449). -/
def State.elRbCommit (s : State) : State :=
  let s := s.mod .el (fun b => { b with rbAt := none })
  match s.manCheck .el with
  | some (c, _) => (s.commitFail .el c).checkFail 0
  | none =>
    let s := if s.el.base.staged.isEmpty then s else s.commitAll .el
    let s := (s.clearPoint.put .el Reg.CHK_STAT_FAILED 0).put .el Reg.HC_STAT_ROLLBACK 0
    let s := s.modEl (fun e => { e with restored := false, readySent := false, spareNamed := false, ports := { e.ports with rollbackReq := false } })
    (s.modGuard .el (fun g => { g with rbHeld := false })).standbyJoin

/-- T_c at a Uhloux chip: staged values are committed; the assigned spares become members, those this chip held as FENCED or EXPELLED having been readmitted (log 113); at the authority UX_SEAL_NEXT takes s + 1, or after a halt of R357 the value staged, and the gate opens with 0x6006. -/
def State.uxRbCommit (s : State) (tc : Nat) : State :=
  let halted := s.bit .ux Reg.UX_HC_STAT_UNRECOVERABLE && s.ux.base.staged.any (fun e => e.1 == Reg.UX_SEAL_NEXT_NEXT.off)
  let s := s.mod .ux (fun b => { b with rbAt := none, hallArm := true })
  let s := (if s.ux.base.staged.isEmpty then s else s.commitNow .ux).mod .ux (fun b => { b with hallArm := false })
  let s := s.ux.assigned.foldl (fun t a => if t.member a.2 = 2 ∨ t.member a.2 = 5 ∨ t.member a.2 = 6 then t.setMember a.2 3 else t) s
  let s := s.modUx (fun u => { u with assigned := [] })
  match s.ux.rollback with
  | none => s
  | some r =>
    let s := if halted then s else (s.setReg .ux Reg.UX_SEAL_NEXT_NEXT.off (r.target + 1)).sealNextCommit
    let s := s.modUx (fun u => { u with rollback := none })
    let s := ((s.put .ux Reg.UX_HC_STAT_ROLLBACK 0).put .ux Reg.UX_HC_STAT_GATE_CLOSED 0).put .ux Reg.UX_HC_STAT_WAIT 0
    (s.put .ux Reg.UX_HC_STAT_UNRECOVERABLE 0).log .ux 0x42 0x6006 0 (tc % hxtSec / 2 ^ 32)

end Sys2Proof.Machine
end

