-- ==== Sys2Proof/Machine/Ledg.lean ====
section
/-! DEFINITION. The commands of checks, ledger, lock-step and seal (chapter 10, R506). -/

namespace Sys2Proof.Machine

/-- A die receives the verdict of its XCHK (R308) and compares the contribution it sent: it completes OK, or MISMATCH as a minority or without a majority, which is a check failure. -/
def State.xchkVerdict (s : State) (o : QOp) (own : HistEntry) (maj : Option HistEntry) : State :=
  let bad := fun (code : Nat) (vb : Word) =>
    let s := ((s.put .el Reg.CHK_STAT_XCHK 1).count .el Reg.CHK_CNT_XCHK_FAIL 1).log .el 0x05 code o.pc own.fp.toNat
    (((s.suspMismatch o.pc 3 own.fp vb).checkFail o.pc)).endOp o stMismatch
  match maj with
  | none => bad 0x5005 0
  | some e => if e.fp = own.fp ∧ e.blocks = own.blocks then (s.suspOk o.pc 3).endOp o stOk else bad 0x5004 e.fp

/-- The started XCHK of a RID, with what it sent. -/
def State.xchkOp (s : State) (rid : Nat) : Option (QOp × HistEntry) :=
  s.el.base.qops.findSome? (fun o => match o.kind with
    | .xchk r _ (some e) => if o.started && r == rid then some (o, e) else none
    | _ => none)

/-- XCHK_BROADCAST (R308): it passes down a group that was sent up and closes it, and completes the XCHK of a die. -/
def execXchkBroadcast (rid : BitVec 12) (m : XchkDown) (s : State) : Out :=
  let r := rid.toNat
  let s := match groupAt s.ux.groups r with
    | some g => if g.sent then s.groupVerdict r g m.src m.majority m.total.toNat else s
    | none => s
  .next (match s.xchkOp r with
    | some (o, e) => s.xchkVerdict o e m.majority
    | none => s)

/-- CHKERR_REPORT (R292, R506). -/
def execChkerrReport (tag : BitVec 32) (_mover : BitVec 4) (s : State) : Out :=
  .next ((((s.put .el Reg.CHK_STAT_EXT 1).count .el Reg.CHK_CNT_EXT_FAIL 1).log .el 0x05 0x5002 0 tag.toNat).checkFail 0)

/-- LEDGER_RECORDS (R299): a leaf takes each record once, by its ordinal, and acknowledges the message. -/
def execLedgerRecords (lane : Fin 128) (ord : BitVec 32) (recs : List LedgerRec) (s : State) : Out :=
  if s.tier ≠ 0 then .next s
  else
    let r := recs.foldl (fun (a : State × Nat) x => (a.1.ledgTake lane a.2 x, a.2 + 1)) (s, ord.toNat)
    .next (r.1.send .ux lane (.ledgerAck ord.toNat))

/-- LOCK_REARM (R325): the comparator starts afresh. -/
def execLockRearm (s : State) : Out :=
  .next (s.put .ux Reg.UX_LOCK_DIV1_VALID 0).lockClear

/-- PASS_VOTE (R316, R317, R344): counted once at the root, discarded after a FAIL or while a rollback is open; below the root it goes up. -/
def execPassVote (lane : Fin 160) (v : SealVote) (s : State) : Out :=
  let s := s.learnPort lane v.lsi.toNat
  if s.absorbed lane then .next s
  else if s.tier ≠ 2 then .next (s.sendUp .ux (.sealMsg 0x30 v.lsi v.step))
  else if s.bit .ux Reg.UX_SEAL_FAIL_PENDING || s.bit .ux Reg.UX_HC_STAT_ROLLBACK then .next s
  else
    let l := v.lsi.toNat
    let s := s.modUx (fun u => { u with
      passVotes := if u.passVotes.contains (l, v.step) then u.passVotes else u.passVotes ++ [(l, v.step)]
      hallLsis := if u.hallLsis.contains l then u.hallLsis else u.hallLsis ++ [l] })
    .next (State.sealTry s.ux.lseals.length s)

/-- FAIL_MESSAGE (R305, R325, R343): the root records the first sender and starts or joins a rollback; below the root it goes up. -/
def execFailMessage (lane : Fin 160) (v : SealVote) (s : State) : Out :=
  if s.absorbed lane then .next s
  else if s.tier ≠ 2 then .next (s.sendUp .ux (.sealMsg 0x31 v.lsi v.step))
  else
    let s := if s.bit .ux Reg.UX_SEAL_FAIL_PENDING then s else (s.put .ux Reg.UX_SEAL_FAIL_LSI v.lsi.toNat).put .ux Reg.UX_SEAL_FAIL_PENDING 1
    .next (if s.authority then s.rbFail else s)

/-- SEAL_MESSAGE (R317, R367). -/
def execSealMessage (p : Part) (step : Word) (s : State) : Out :=
  match p with
  | .el => .next (s.elSeal step)
  | .ux => .next (s.uxSeal step)

/-- LEDG_VERIFY (R303): the chain of every retained sealed step is recomputed. -/
def execLedgVerify (s : State) : Out := .next (s.chainVerify 0 (2 ^ 64 - 1))

/-- LEDG_CHAIN_RESET (R303): every lane's chain restarts at zero bytes from the next seal. -/
def execLedgChainReset (s : State) : Out := .next (s.modUx (fun u => { u with chainD3 := [] }))

end Sys2Proof.Machine
end

