-- ==== Sys2Proof/Machine/NumFmt.lean ====
section
/-! DEFINITION. The number formats of chapter 8 (R244 to R247), their rounding and range (R245), and the tally block (R248 to R250).
Every finite value of a format is a sign, a whole number and a power of two; rounding is done on those, exactly. -/

namespace Sys2Proof.Machine

/-! ### Values -/

/-- A value: NaN, an infinity, or a signed `m * 2^e`. -/
inductive Num where
  | nan
  | inf (neg : Bool)
  | fin (neg : Bool) (m : Nat) (e : Int)
  deriving DecidableEq, Repr

/-- The value is finite. -/
def Num.finite : Num → Bool
  | .fin _ _ _ => true
  | _ => false

/-- The binary exponent of a finite non-zero value: the floor of log2 of its magnitude. -/
def Num.log? : Num → Option Int
  | .fin _ m e => if m = 0 then none else some ((Nat.log2 m : Int) + e)
  | _ => none

/-- A value times `2^k`. -/
def Num.shift (k : Int) : Num → Num
  | .fin n m e => .fin n m (e + k)
  | x => x

/-- A whole number divided by `2^n`, rounded to nearest, ties to even (R245). -/
def shiftRne (m n : Nat) : Nat :=
  let q := m / 2 ^ n
  let r := 2 * (m % 2 ^ n)
  if r < 2 ^ n then q else if 2 ^ n < r then q + 1 else if q % 2 = 0 then q else q + 1

/-- `m * 2^e` as a multiple of `2^q`, rounded to nearest, ties to even. -/
def gridRne (m : Nat) (e q : Int) : Nat := if q ≤ e then m * 2 ^ (e - q).toNat else shiftRne m (q - e).toNat

/-- The exact sum of two finite values; zero only when both are negative zero or the sum is zero, in which case its sign follows IEEE 754 (R245). -/
def Num.sum : Num → Num → Num
  | .fin n1 m1 e1, .fin n2 m2 e2 =>
    let e := min e1 e2
    let i := fun (n : Bool) (m : Nat) (x : Int) => (let v : Int := ((m * 2 ^ (x - e).toNat : Nat) : Int); if n then -v else v)
    let v := i n1 m1 e1 + i n2 m2 e2
    if v = 0 then .fin (n1 && n2 && m1 == 0 && m2 == 0) 0 e else .fin (decide (v < 0)) v.natAbs e
  | _, _ => .nan

/-! ### Formats (R244) -/

/-- A floating-point format: exponent bits, mantissa bits, bias, and its special values: 2 infinities and NaNs, 1 one NaN only, 0 none. -/
structure FpFmt where
  exp  : Nat
  man  : Nat
  bias : Nat
  spec : Nat
  deriving DecidableEq, Repr

/-- The floating-point format of a code; FP19 stands for bits [31:13] of its container. -/
def fpFmt : Nat → FpFmt
  | 0x0 => ⟨11, 52, 1023, 2⟩
  | 0x1 => ⟨8, 23, 127, 2⟩
  | 0x2 => ⟨8, 10, 127, 2⟩
  | 0x3 => ⟨8, 7, 127, 2⟩
  | 0x4 => ⟨5, 10, 15, 2⟩
  | 0x5 => ⟨4, 3, 7, 1⟩
  | 0x6 => ⟨5, 2, 15, 2⟩
  | 0x7 => ⟨3, 2, 3, 0⟩
  | 0x8 => ⟨2, 3, 1, 0⟩
  | _ => ⟨2, 1, 1, 0⟩

/-- Storage bits of a format. -/
def fmtBits : Nat → Nat
  | 0x0 => 64 | 0x1 => 32 | 0x2 => 32 | 0x3 => 16 | 0x4 => 16 | 0x5 => 8 | 0x6 => 8 | 0x7 => 6 | 0x8 => 6 | 0x9 => 4
  | 0xA => 64 | 0xB => 32 | 0xC => 16 | 0xD => 8 | _ => 4

/-- A code is an integer format. -/
def fmtIsInt (f : Nat) : Bool := 0xA ≤ f && f ≤ 0xE

/-- The bits of the largest finite value of a floating-point format. -/
def FpFmt.maxBits (f : FpFmt) : Nat :=
  match f.spec with
  | 2 => (2 ^ f.exp - 1) * 2 ^ f.man - 1
  | 1 => 2 ^ (f.exp + f.man) - 2
  | _ => 2 ^ (f.exp + f.man) - 1

/-- The canonical NaN of a format; 0 where it has none (R244, R256). -/
def FpFmt.nanBits (f : FpFmt) : Nat :=
  match f.spec with
  | 2 => (2 ^ f.exp - 1) * 2 ^ f.man + 2 ^ (f.man - 1)
  | 1 => 2 ^ (f.exp + f.man) - 1
  | _ => 0

/-- A finite magnitude from its exponent and mantissa bits: a whole number and a power of two. -/
def FpFmt.mag (f : FpFmt) (b : Nat) : Nat × Int :=
  let ef := b / 2 ^ f.man % 2 ^ f.exp
  let mf := b % 2 ^ f.man
  if ef = 0 then (mf, 1 - (f.bias : Int) - f.man) else (2 ^ f.man + mf, (ef : Int) - f.bias - f.man)

/-- The value of an element of a floating-point format. -/
def FpFmt.decode (f : FpFmt) (b : Nat) : Num :=
  let neg := b / 2 ^ (f.exp + f.man) % 2 == 1
  let low := b % 2 ^ (f.exp + f.man)
  if f.spec = 2 ∧ low / 2 ^ f.man = 2 ^ f.exp - 1 then (if low % 2 ^ f.man = 0 then .inf neg else .nan)
  else if f.spec = 1 ∧ low = 2 ^ (f.exp + f.man) - 1 then .nan
  else .fin neg (f.mag low).1 (f.mag low).2

/-- A finite value rounded to a floating-point format, and whether it was beyond the largest finite one (R245). -/
def FpFmt.encode (f : FpFmt) (neg : Bool) (m : Nat) (e : Int) : Nat × Bool :=
  let sign := if neg then 2 ^ (f.exp + f.man) else 0
  if m = 0 then (sign, false)
  else
    let emin : Int := 1 - (f.bias : Int)
    let q := max ((Nat.log2 m : Int) + e) emin - f.man
    let r := gridRne m e q
    let top := f.mag f.maxBits
    if top.2 ≤ q ∧ top.1 < r * 2 ^ (q - top.2).toNat then (sign + f.maxBits, true)
    else (sign + (q + f.man - emin).toNat * 2 ^ f.man + r, false)

/-- The largest value of an integer format. -/
def intMax (w : Nat) : Nat := 2 ^ (w - 1) - 1

/-- A finite value rounded to an integer format; beyond the largest value in magnitude it is that value with the sign of the result (R245, log 32). -/
def intEncode (w : Nat) (neg : Bool) (m : Nat) (e : Int) : Nat × Bool :=
  let r := gridRne m e 0
  let sat := decide (intMax w < r)
  let v : Int := ((min r (intMax w) : Nat) : Int)
  (unsigned w (if neg then -v else v), sat)

/-- The value of an element of any format. -/
def fmtDecode (fmt b : Nat) : Num :=
  if fmtIsInt fmt then
    let v := signed (fmtBits fmt) b
    .fin (decide (v < 0)) v.natAbs 0
  else if fmt = 2 then (fpFmt 2).decode (b / 2 ^ 13)
  else (fpFmt fmt).decode b

/-- A finite value written in any format, and whether it saturated. -/
def fmtEncode (fmt : Nat) (neg : Bool) (m : Nat) (e : Int) : Nat × Bool :=
  if fmtIsInt fmt then intEncode (fmtBits fmt) neg m e
  else
    let r := (fpFmt fmt).encode neg m e
    if fmt = 2 then (r.1 * 2 ^ 13, r.2) else r

/-- The canonical NaN element of any format (R256). -/
def fmtNan (fmt : Nat) : Nat :=
  if fmtIsInt fmt then 0 else if fmt = 2 then (fpFmt 2).nanBits * 2 ^ 13 else (fpFmt fmt).nanBits

/-! ### Source blocks (R246, R247) -/

/-- Bytes of one source block. -/
def srcStride (fmt : Nat) (mx : Bool) : Nat := 8 * fmtBits fmt + (if mx then 8 else 0)

/-- The elements of a little-endian bit string. -/
def elemsOf (w : Nat) (bs : List Byte) (n : Nat) : List Nat :=
  let v := leNat bs
  (List.range n).map (fun i => v / 2 ^ (w * i) % 2 ^ w)

/-- Elements as a little-endian bit string. -/
def elemsBytes (w : Nat) (es : List Nat) : List Byte := leBytes (w * es.length / 8) (es.foldr (fun x a => x + 2 ^ w * a) 0)

/-- The 64 values of a source block. -/
def srcDecode (fmt : Nat) (mx : Bool) (bs : List Byte) : List Num :=
  if mx then
    let scale := fun i => ((bs.getD (i / 32) 0).toNat)
    let es := elemsOf (fmtBits fmt) (bs.drop 8) 64
    (List.range 64).map (fun i => if scale i = 255 then .nan else (fmtDecode fmt (es.getD i 0)).shift ((scale i : Int) - 127))
  else (elemsOf (fmtBits fmt) bs 64).map (fmtDecode fmt)

/-- A canonical NaN block of a format (R256). -/
def nanBlock (fmt : Nat) (mx : Bool) : List Byte :=
  if mx then [255, 255, 0, 0, 0, 0, 0, 0] ++ List.replicate (8 * fmtBits fmt) 0
  else elemsBytes (fmtBits fmt) (List.replicate 64 (fmtNan fmt))

/-- emax of an MX element format (R255). -/
def mxEmax : Nat → Int
  | 5 => 8 | 6 => 15 | 7 => 4 | _ => 2

/-- The E8M0 scale byte of a group of values (R255). -/
def mxScale (fmt : Nat) (vs : List Num) : Nat :=
  match vs.filterMap Num.log? with
  | [] => 0
  | k :: ks => (min 254 (max 0 (ks.foldl max k - mxEmax fmt + 127))).toNat

/-- Values written as elements under a scale, and whether one saturated. -/
def encodeElems (fmt : Nat) (scale : Int) (vs : List Num) : List Nat × Bool :=
  let rs := vs.map (fun v => match v with
    | .fin n m e => fmtEncode fmt n m (e - scale)
    | _ => (fmtNan fmt, false))
  (rs.map Prod.fst, rs.any Prod.snd)

/-- A block of 64 finite values in a format, and whether an element saturated (R255). -/
def blockEncode (fmt : Nat) (mx : Bool) (vs : List Num) : List Byte × Bool :=
  if mx then
    let s0 := mxScale fmt (vs.take 32)
    let s1 := mxScale fmt (vs.drop 32)
    let a := encodeElems fmt ((s0 : Int) - 127) (vs.take 32)
    let b := encodeElems fmt ((s1 : Int) - 127) (vs.drop 32)
    ([BitVec.ofNat 8 s0, BitVec.ofNat 8 s1, 0, 0, 0, 0, 0, 0] ++ elemsBytes (fmtBits fmt) (a.1 ++ b.1), a.2 || b.2)
  else
    let a := encodeElems fmt 0 vs
    (elemsBytes (fmtBits fmt) a.1, a.2)

/-! ### Tally blocks (R248 to R250) -/

/-- The element width of an operand class. -/
def tallyWidth : Nat → Nat
  | 0 => 32 | 1 => 48 | _ => 64

/-- F of an operand class. -/
def tallyF : Nat → Nat
  | 0 => 16 | 1 => 32 | _ => 44

/-- The most summands of a class. -/
def tallyMax : Nat → Nat
  | 0 => 2 ^ 14 | 1 => 2 ^ 14 | _ => 2 ^ 18

/-- Bytes of a tally block. -/
def tallyStride (cls : Nat) : Nat := 8 + 8 * tallyWidth cls

/-- A tally block: the fields of its header and its elements. -/
structure Tally where
  e     : Int
  src   : Nat
  cls   : Nat
  count : Nat
  sat   : Bool
  ninf  : Bool
  pinf  : Bool
  nan   : Bool
  q     : List Int
  deriving DecidableEq, Repr

/-- A bit as a number. -/
def bitNat (b : Bool) : Nat := if b then 1 else 0

/-- The header word (R249). -/
def Tally.header (t : Tally) : Nat :=
  unsigned 16 t.e * 2 ^ 48 + t.src * 2 ^ 44 + t.cls * 2 ^ 42 + t.count * 2 ^ 20 + bitNat t.sat * 8 + bitNat t.ninf * 4 + bitNat t.pinf * 2 + bitNat t.nan

/-- The bytes of a tally block of an operand class. -/
def Tally.bytes (t : Tally) (cls : Nat) : List Byte :=
  leBytes 8 t.header ++ t.q.flatMap (fun v => leBytes (tallyWidth cls / 8) (unsigned (tallyWidth cls) v))

/-- A tally block of an operand class from its bytes; reserved header bits are ignored. -/
def tallyOf (cls : Nat) (bs : List Byte) : Tally :=
  let h := leNat (bs.take 8)
  let w := tallyWidth cls
  { e := signed 16 (h / 2 ^ 48), src := h / 2 ^ 44 % 16, cls := h / 2 ^ 42 % 4, count := h / 2 ^ 20 % 2 ^ 20, sat := h / 8 % 2 == 1,
    ninf := h / 4 % 2 == 1, pinf := h / 2 % 2 == 1, nan := h % 2 == 1, q := (elemsOf w (bs.drop 8) 64).map (signed w) }

/-- A header flag makes the block a canonical NaN (R256). -/
def Tally.special (t : Tally) : Bool := t.nan || t.pinf || t.ninf

/-! ### The block operations (R251 to R256, R262) -/

/-- E_blk of a source block (R251). -/
def blockExp (vs : List Num) : Int :=
  match vs.filterMap Num.log? with
  | [] => -32768
  | k :: ks => ks.foldl max k + 1

/-- q of a floating-point value at E (R253), and whether it was clamped. -/
def tconvElem (f : Nat) (e : Int) : Num → Int × Bool
  | .fin n m x =>
    let r := gridRne m x (e - f)
    let v : Int := ((min r (2 ^ f) : Nat) : Int)
    (if n then -v else v, decide (2 ^ f < r))
  | _ => (0, false)

/-- What a block operation answers: the block it writes, whether it is a canonical NaN, whether an element newly saturated. -/
structure BlockOut where
  bytes : List Byte
  nan   : Bool
  sat   : Bool
  deriving DecidableEq, Repr

/-- TCONV of one block (R253, R256). -/
def tconvBlock (fmt : Nat) (mx : Bool) (cls : Nat) (e : Int) (bs : List Byte) : BlockOut :=
  let vs := srcDecode fmt mx bs
  if fmtIsInt fmt then
    let t : Tally := { e := 0, src := fmt, cls := 3, count := 1, sat := false, ninf := false, pinf := false, nan := false,
                       q := (elemsOf (fmtBits fmt) bs 64).map (signed (fmtBits fmt)) }
    ⟨t.bytes 2, false, false⟩
  else
    let rs := vs.map (tconvElem (tallyF cls) e)
    let bad := vs.any (fun v => !v.finite)
    let sat := !bad && rs.any Prod.snd
    let t : Tally := { e := e, src := fmt, cls := cls, count := 1, sat := sat, ninf := vs.contains (.inf true), pinf := vs.contains (.inf false),
                       nan := vs.contains .nan, q := if bad then List.replicate 64 0 else rs.map Prod.fst }
    ⟨t.bytes cls, bad, sat⟩

/-- An element sum held in the range of its width (R254), and whether it was beyond it. -/
def clampSum (w : Nat) (v : Int) : Int × Bool :=
  let hi : Int := ((2 ^ (w - 1) : Nat) : Int) - 1
  let lo : Int := -((2 ^ (w - 1) : Nat) : Int)
  if hi < v then (hi, true) else if v < lo then (lo, true) else (v, false)

/-- TADD of one block (R254, R256): none where the headers disagree in E or class. -/
def taddBlock (cls : Nat) (dst src : Tally) : Option BlockOut :=
  if dst.e ≠ src.e ∨ dst.cls ≠ src.cls then none
  else
    let rs := (dst.q.zip src.q).map (fun x => clampSum (tallyWidth cls) (x.1 + x.2))
    let bad := dst.special || src.special
    let count := dst.count + src.count
    let new := !bad && (rs.any Prod.snd || decide (tallyMax cls < count))
    let t : Tally := { dst with count := min (2 ^ 20 - 1) count, sat := dst.sat || src.sat || new, ninf := dst.ninf || src.ninf, pinf := dst.pinf || src.pinf,
                                nan := dst.nan || src.nan, q := if bad then List.replicate 64 0 else rs.map Prod.fst }
    some ⟨t.bytes cls, bad, new⟩

/-- TFIN of one block (R255, R256). -/
def tfinBlock (fmt : Nat) (mx : Bool) (cls : Nat) (t : Tally) : BlockOut :=
  if t.special then ⟨nanBlock fmt mx, true, false⟩
  else
    let f : Int := if t.cls = 3 then 0 else (tallyF cls : Int)
    let r := blockEncode fmt mx (t.q.map (fun v => Num.fin (decide (v < 0)) v.natAbs (t.e - f)))
    ⟨r.1, false, r.2⟩

/-- PSUM of one block (R256, R262). -/
def psumBlock (fmt : Nat) (mx : Bool) (dst src : List Num) : BlockOut :=
  if (dst ++ src).any (fun v => !v.finite) then ⟨nanBlock fmt mx, true, false⟩
  else
    let r := blockEncode fmt mx ((dst.zip src).map (fun x => x.1.sum x.2))
    ⟨r.1, false, r.2⟩

end Sys2Proof.Machine
end

