-- ==== Sys2Proof/Machine/RedOps.lean ====
section
/-! DEFINITION. The format T operations of the tally reducer, carried out on SPM (R187, R251 to R258, R262, R290, R293). -/

namespace Sys2Proof.Machine

/-- The operands of a format T operation. -/
structure TalArgs where
  op  : Nat
  src : Nat
  dst : Nat
  n   : Nat
  e   : Nat
  fmt : Nat
  cls : Nat
  mx  : Bool
  deriving DecidableEq, Repr

/-- Bytes of one source block of an operation. -/
def TalArgs.inStride (a : TalArgs) : Nat := if a.op = 3 ∨ a.op = 4 then tallyStride a.cls else srcStride a.fmt a.mx

/-- Bytes of one destination block of an operation; SCALE writes two bytes a block. -/
def TalArgs.outStride (a : TalArgs) : Nat :=
  if a.op = 1 then 2 else if a.op = 2 ∨ a.op = 3 then tallyStride a.cls else srcStride a.fmt a.mx

/-- Where the destination blocks begin; SCALE writes the exponent array. -/
def TalArgs.out (a : TalArgs) : Nat := if a.op = 1 then a.e else a.dst

/-- TCONV of a floating-point format reads the exponent array. -/
def TalArgs.readsExp (a : TalArgs) : Bool := a.op == 2 && !fmtIsInt a.fmt

/-- The SPM ranges of the operands: address and bytes. -/
def TalArgs.ranges (a : TalArgs) : List (Nat × Nat) :=
  [(a.src, a.n * a.inStride), (a.out, a.n * a.outStride)] ++ (if a.readsExp then [(a.e, 2 * a.n)] else [])

/-- The lanes exist and every operand is 8-byte aligned and lies in SPM (R187). -/
def State.talFits (s : State) (a : TalArgs) : Bool := s.el.lic.talLanes != 0 && a.ranges.all (fun r => r.1 % 8 == 0 && s.spmIn r.1 r.2)

/-! ### The check window (R290, R293) -/

/-- The window blocks that the source range touches, while TAL_VERIFY is set. -/
def State.talWindow (s : State) (a : TalArgs) : List Nat :=
  let base := s.get .el Reg.CHK_TALWIN0_BASE
  let len := s.get .el Reg.CHK_TALWIN0_LEN
  if s.bit .el Reg.CHK_CTRL_TAL_VERIFY then
    (List.range (len / 4096)).filter (fun j => decide (a.src < base + 4096 * j + 4096) && decide (base + 4096 * j < a.src + a.n * a.inStride))
  else []

/-- The tag of a touched window block would pass the block-index field. -/
def State.talTagOver (s : State) (js : List Nat) : Bool := js.any (fun j => tagOver (s.get .el Reg.CHK_TALWIN1_TAG) (j + 1))

/-- One window block is verified: its number, computed CRC and tag when it fails. -/
def State.talVerify (s : State) (pc j : Nat) : Option (Nat × Nat × Nat) × State :=
  let tag := tagAt (s.get .el Reg.CHK_TALWIN1_TAG) j
  let r := s.spmReadBytes 3 (s.get .el Reg.CHK_TALWIN0_BASE + 4096 * j) 4096 pc
  let v := r.2.spmReadBytes 3 (s.get .el Reg.CHK_TALWIN1_BCV_ADDR + 4 * j) 4 pc
  let crc := bcvOf r.1 tag
  (if crc = leNat v.1 then none else some (j, crc, tag), v.2)

/-- Every touched window block is verified: the failing ones. -/
def State.talVerifyAll (s : State) (pc : Nat) (js : List Nat) : List (Nat × Nat × Nat) × State :=
  js.foldl (fun a j => let r := a.2.talVerify pc j; (a.1 ++ r.1.toList, r.2)) ([], s)

/-! ### The blocks (R258) -/

/-- What the blocks processed so far have shown: canonical NaN blocks, blocks with a new saturation, blocks whose headers disagreed, and blocks whose SAT header TFIN met. -/
structure TalAcc where
  nan  : List Nat
  sat  : List Nat
  bad  : List Nat
  hist : List Nat
  deriving DecidableEq, Repr

/-- The exponent of block `i` from the exponent array. -/
def State.talExp (s : State) (a : TalArgs) (pc i : Nat) : Int × State :=
  if a.readsExp then
    let r := s.spmReadBytes 3 (a.e + 2 * i) 2 pc
    (signed 16 (leNat r.1), r.2)
  else (0, s)

/-- What a block operation writes for block `i`: none where TADD leaves it unchanged. The third part says that TFIN met a SAT header. -/
def talBlock (a : TalArgs) (e : Int) (src dst : List Byte) : Option BlockOut × Bool :=
  match a.op with
  | 1 => (some ⟨leBytes 2 (unsigned 16 (blockExp (srcDecode a.fmt a.mx src))), false, false⟩, false)
  | 2 => (some (tconvBlock a.fmt a.mx a.cls e src), false)
  | 3 => (taddBlock a.cls (tallyOf a.cls dst) (tallyOf a.cls src), false)
  | 4 => (some (tfinBlock a.fmt a.mx a.cls (tallyOf a.cls src)), (tallyOf a.cls src).sat)
  | _ => (some (psumBlock a.fmt a.mx (srcDecode a.fmt a.mx dst) (srcDecode a.fmt a.mx src)), false)

/-- The operation also reads its destination block. -/
def TalArgs.readsDst (a : TalArgs) : Bool := a.op == 3 || a.op == 5

/-- Block `i` is read, processed and written (R258). -/
def State.talStep (s : State) (a : TalArgs) (pc : Nat) (acc : TalAcc) (i : Nat) : TalAcc × State :=
  let src := s.spmReadBytes 3 (a.src + i * a.inStride) a.inStride pc
  let dst := if a.readsDst then src.2.spmReadBytes 3 (a.dst + i * a.outStride) a.outStride pc else ([], src.2)
  let e := dst.2.talExp a pc i
  let r := talBlock a e.1 src.1 dst.1
  match r.1 with
  | none => ({ acc with bad := acc.bad ++ [i] }, e.2)
  | some b =>
    ({ acc with nan := if b.nan then acc.nan ++ [i] else acc.nan, sat := if b.sat then acc.sat ++ [i] else acc.sat, hist := if r.2 then acc.hist ++ [i] else acc.hist },
     e.2.spmPutBytes 3 (a.out + i * a.outStride) b.bytes pc)

/-- Every block in ascending index. -/
def State.talBlocks (s : State) (a : TalArgs) (pc : Nat) : TalAcc × State :=
  (List.range a.n).foldl (fun x i => x.2.talStep a pc x.1 i) (⟨[], [], [], []⟩, s)

/-- The status by precedence (R257), with its first affected block and their number. -/
def talStatus (a : TalArgs) (base : Nat) (acc : TalAcc) (fails : List Nat) : Nat × Nat × Nat :=
  let hit := (List.range a.n).filter (fun i => fails.any (fun j => a.src + i * a.inStride < base + 4096 * j + 4096 && base + 4096 * j < a.src + (i + 1) * a.inStride))
  let sat := (List.range a.n).filter (fun i => acc.sat.contains i || acc.hist.contains i)
  if !acc.bad.isEmpty then (stRefused, acc.bad.headD 0, acc.bad.length)
  else if !fails.isEmpty then (stMismatch, hit.headD 0, hit.length)
  else if !acc.nan.isEmpty then (stNan, acc.nan.headD 0, acc.nan.length)
  else if !sat.isEmpty then (stSat, sat.headD 0, sat.length)
  else (stOk, 0, 0)

/-- A format T operation is carried out, reported and ended (R187, R257, R267, R268). -/
def State.talRun (s : State) (o : QOp) (a : TalArgs) : State :=
  let s := s.put .el Reg.TAL_STAT_BUSY 0
  let js := s.talWindow a
  if !s.talFits a || s.talTagOver js then (s.talReport a.op o.pc stRefused 0 0).endOp o stRefused
  else
    let v := s.talVerifyAll o.pc js
    let r := v.2.talBlocks a o.pc
    let s := r.2.bcvFails o.pc (v.1.map Prod.snd)
    let s := (s.count .el Reg.TAL_CNT_NAN_BLOCKS r.1.nan.length).count .el Reg.TAL_CNT_SAT_BLOCKS r.1.sat.length
    let s := if r.1.bad.isEmpty then s else s.log .el 0x04 0x4004 o.pc (a.op * 2 ^ 58 + r.1.bad.headD 0 * 2 ^ 32 + r.1.bad.length)
    let st := talStatus a (s.get .el Reg.CHK_TALWIN0_BASE) r.1 (v.1.map Prod.fst)
    (s.talReport a.op o.pc st.1 st.2.1 st.2.2).endOp o st.1

end Sys2Proof.Machine
end

