-- ==== Sys2Proof/Machine/Sync.lean ====
section
/-! DEFINITION. The commands of the SYNC unit: the core sync port, watches, the landing queue and its claims, die-local barriers, and launches at an Elesh (chapter 7, R499 to R505). -/

namespace Sys2Proof.Machine

/-! ### The core sync port (R204, R499 to R501) -/

/-- CS_RSP_OK of the last request (R499). -/
def State.csAnswer (s : State) (ok : Bool) : State := s.modEl (fun e => { e with ports := { e.ports with csOk := ok } })

/-- A request names another core's counter (R204). -/
def State.crossCore (s : State) (c core k : Nat) : State :=
  ((s.put .el Reg.SYNC_STAT_CROSS_CORE 1).log .el 0x03 0x3004 (cntObj (cntKey core k)) c).csAnswer false

/-- The engine exists and is not in reset (R501). -/
def State.csHere (s : State) (c e : Nat) : Bool := c < s.el.lic.cores && e < s.el.lic.engPerCore && !(s.gate c e).rst

/-- CS_INC (R499): 1 to 65,535 on a counter of the requesting core. -/
def execCsInc (c : BitVec 8) (eng : Fin 8) (core : BitVec 8) (k : BitVec 6) (amt : BitVec 40) (s : State) : Out :=
  let key := cntKey core.toNat k.toNat
  .next (if !s.csHere c.toNat eng then s.csAnswer false
    else if core != c then s.crossCore c.toNat core.toNat k.toNat
    else if s.cntHas core.toNat k.toNat && decide (1 ≤ amt.toNat ∧ amt.toNat ≤ 65535) then (s.csAnswer true).incAll [(key, amt.toNat)]
    else s.csAnswer false)

/-- CS_WREG (R210, R499). -/
def execCsWreg (c : BitVec 8) (eng : Fin 8) (core : BitVec 8) (k : BitVec 6) (target : BitVec 40) (eq : Bool) (widx : BitVec 12) (s : State) : Out :=
  .next (if !s.csHere c.toNat eng then s.csAnswer false
    else if core != c then s.crossCore c.toNat core.toNat k.toNat
    else if s.cntHas core.toNat k.toNat && decide (widx.toNat < s.el.lic.watches) then
      (let r := s.watchReg true core.toNat k.toNat target.toNat eq eng widx.toNat; r.1.csAnswer r.2)
    else s.csAnswer false)

/-- CS_WREL (R215, R499). -/
def execCsWrel (c : BitVec 8) (eng : Fin 8) (widx : BitVec 12) (s : State) : Out :=
  .next (if s.csHere c.toNat eng && decide (widx.toNat < s.el.lic.watches) then (s.watchClear widx.toNat).csAnswer true else s.csAnswer false)

/-- CS_ARRIVE (R226, R227): counted once a generation, from a core whose group arrives; else refused with 0x3043. -/
def execCsArrive (c : BitVec 8) (eng : Fin 8) (core : BitVec 8) (k : BitVec 6) (bid : BitVec 8) (s : State) : Out :=
  let b := bid.toNat
  .next (if !s.csHere c.toNat eng then s.csAnswer false
    else if core != c then s.crossCore c.toNat core.toNat k.toNat
    else if !s.cntHas core.toNat k.toNat then s.csAnswer false
    else if (s.bar b).cores.any (fun x => x.1 == c.toNat) || !s.barCore b c.toNat then (s.log .el 0x03 0x3043 b (s.get .el (Reg.BAR_GEN b))).csAnswer false
    else (s.setBar b { s.bar b with cores := (s.bar b).cores ++ [(c.toNat, k.toNat)] }).csAnswer true)

/-- WAKE_SEND (R213, R500): the next wake of a core is presented, and its engine's GATE_REQ falls. -/
def execWakeSend (core : BitVec 8) (s : State) : Out :=
  match s.el.wakeQ.find? (fun w => w.core == core.toNat) with
  | none => .next s
  | some w =>
    .next ((s.modEl (fun e => { e with wakeQ := e.wakeQ.erase w, ports := { e.ports with wakes := e.ports.wakes.filter (fun x => x.core != w.core) ++ [w] } })).setGate
      w.core w.eng { s.gate w.core w.eng with req := false })

/-- GATE_ACK (R500): at its fall the engine may be asked for again. -/
def execGateAck (c : BitVec 8) (e : Fin 8) (level : Bool) (s : State) : Out :=
  let s := s.setGate c.toNat e { s.gate c.toNat e with ack := level }
  .next (if level then s else s.gateAsk c.toNat e)

/-- ENG_RST (R218, R501): the engine's ARMED watches return to IDLE without a wake, each with 0x3012, and GATE_REQ falls. -/
def execEngRst (c : BitVec 8) (e : Fin 8) (s : State) : Out :=
  let s := s.setGate c.toNat e { s.gate c.toNat e with rst := true, req := false }
  .next (s.el.watches.foldl (fun t w =>
    if w.2.armed && w.2.core == c.toNat && w.2.eng == e.val then
      (t.disarm w.1).logW .el 0x03 0x3012 (cntObj (cntKey w.2.core w.2.k)) (w.2.core * 2 ^ 24 + w.2.eng * 2 ^ 21 + w.1) w.1
    else t) s)

/-- ENG_RST_LOW (R501): the engine's requests are accepted again. -/
def execEngRstLow (c : BitVec 8) (e : Fin 8) (s : State) : Out := .next (s.setGate c.toNat e { s.gate c.toNat e with rst := false })

/-! ### Watches, host increments, the deadlock detector -/

/-- WATCH_TIMEOUT (R214). -/
def execWatchTimeout (w : BitVec 12) (s : State) : Out :=
  let x := s.watchAt w.toNat
  .next (if x.armed then
      ((s.put .el Reg.SYNC_STAT_WATCH_TMO 1).logW .el 0x03 0x3010 (cntObj (cntKey x.core x.k)) (x.core * 2 ^ 24 + x.eng * 2 ^ 21 + w.toNat) x.target).wakeWatch w.toNat 1 false
    else s)

/-- HINC_WRITE (R206): in STARTUP or TEST a counter advances; otherwise 0x3005. -/
def execHincWrite (v : Word) (s : State) : Out :=
  let core := fget v 63 56
  let k := fget v 55 50
  let amt := fget v 39 0
  .next (if (s.runMode == 1 || s.runMode == 2) && s.cntHas core k then s.incAll [(cntKey core k, amt)]
    else s.log .el 0x03 0x3005 (cntObj (cntKey core k)) amt)

/-- The waiters of the deadlock detector (R217). -/
def State.waiters (s : State) : Nat :=
  s.el.watches.countP (fun w => w.2.armed) + (match (s.seq .el).hold with | .waitc _ _ _ _ _ _ _ => 1 | _ => 0)

/-- DEADLOCK (R217): the conditions are met, once until a counter changes; the mode of that cycle decides whether the event is logged, and in RUN it is not. -/
def execDeadlock (s : State) : Out :=
  let n := s.waiters
  .next (if n != 0 && !s.el.dldLogged then
      (if s.runMode != 0 then ((s.put .el Reg.SYNC_STAT_DEADLOCK 1).put .el Reg.SYNC_DLDSNAP_WAITERS n).log .el 0x03 0x3020 0 n else s).modEl (fun e => { e with dldLogged := true })
    else s)

/-! ### The landing queue -/

/-- ANN_MESSAGE (R219, R222). -/
def execAnnMessage (m : AnnMsg) (s : State) : Out := .next (s.annTake m)

/-- ANN_RESEND (R222): the sender sends its announcement again, 1 µs after a busy answer. -/
def execAnnResend (qid : Nat) (s : State) : Out :=
  .next (match s.findOp .el qid with
    | some o => (match o.kind with
      | .ann d m => if o.started then s.sendUp .el (.ann d m) else s
      | _ => s)
    | none => s)

/-- ANN_TIMEOUT (R222). -/
def execAnnTimeout (qid : Nat) (s : State) : Out :=
  .next (match s.findOp .el qid with
    | some o => (match o.kind with
      | .ann _ _ => if o.started then s.endFail .el o stTimeout else s
      | _ => s)
    | none => s)

/-- LAND_TIMEOUT (R224): logged once, the entry stays held. -/
def execLandTimeout (tag : Fin 512) (s : State) : Out :=
  .next (match s.el.land.find? (fun l => l.tag == tag.val) with
    | some l =>
      if l.tmoLogged then s
      else (s.log .el 0x03 0x3031 l.src.toNat (l.src.toNat % 2 ^ 16 * 2 ^ 48 + l.bytes % 2 ^ 48)).modEl (fun e => { e with
        land := e.land.map (fun x => if x.tag == tag.val then { x with tmoLogged := true } else x) })
    | none => s)

/-- IDC_CHANGE_NOTICE (R504): the oldest entry of the source is claimed; without one the notice is ignored. -/
def execIdcChangeNotice (src : BitVec 20) (s : State) : Out := .next (if (s.landOldest src).isSome then s.claimWant src else s)

/-- IDC_ANSWER (R503, R505): a grant releases the claimed entry; one whose entry is gone adds to no counter. -/
def execIdcAnswer (tag : Fin 512) (grant : Bool) (s : State) : Out :=
  .next (if s.el.ports.claims.any (fun c => c.2.2 == tag.val) then
      let s := s.modEl (fun e => { e with ports := { e.ports with claims := e.ports.claims.filter (fun c => c.2.2 != tag.val) } })
      (match (if grant then s.el.land.find? (fun l => l.tag == tag.val) else none) with
        | some l => s.landRelease l
        | none => s.claimPump)
    else s)

/-- IDC_CLEAR_ACK (R505): IDC_CLEAR falls, and every source with an entry is claimed. -/
def execIdcClearAck (s : State) : Out :=
  if s.el.ports.idcClear then
    let s := s.modEl (fun e => { e with ports := { e.ports with idcClear := false } })
    .next ((s.el.land.map LandEntry.src).eraseDups.foldl (fun t x => t.claimWant x) s)
  else .next s

/-! ### Die-local barriers -/

/-- BAR_LOCAL_COMPLETE (R226): scope 0 releases; a wider scope sends the die's arrival up. -/
def execBarLocalComplete (bid : BitVec 8) (s : State) : Out :=
  let b := bid.toNat
  .next (if s.barComplete b && !(s.bar b).sentUp then
      if s.get .el (Reg.BAR_SCOPE b) = 0 then s.barRelease b
      else (s.setBar b { s.bar b with sentUp := true }).sendUp .el (.barArrival bid (BitVec.ofNat 16 (s.get .el (Reg.BAR_GEN b))) (s.get .el (Reg.BAR_SCOPE b)) none)
    else s)

/-- BAR_TIMEOUT (R231): the BAR completes TIMEOUT with 0x3040; the arrival stays counted. -/
def execBarTimeout (bid : BitVec 8) (s : State) : Out :=
  let b := bid.toNat
  .next (match s.barOp b with
    | some o => (((s.log .el 0x03 0x3040 b (s.get .el (Reg.BAR_GEN b))).setBar b { s.bar b with qid := none, timedOut := true })).endFail .el o stTimeout
    | none => s)

/-! ### Launches -/

/-- LAUNCH_MESSAGE (R110, R230, R237, R238): an Elesh takes it; a node passes it down to its members, and a leaf over its twin to the dies it relays for. -/
def execLaunchMessage (m : LaunchDown) (s : State) : Out :=
  match m.part with
  | .el => .next (s.launchTake m.launch)
  | .ux =>
    let s := s.sendDown s.memberPorts (.launch m.launch)
    .next (if s.ux.relayFrom.isEmpty then s else s.toTwin (.launch m.launch))

/-- LAUNCH_FIRE (R237): the launch of an identity fires once its T is reached on TB0; an EXPELLED die fires none (R329). -/
def execLaunchFire (lid : BitVec 8) (s : State) : Out :=
  .next (match s.el.launches.find? (fun l => l.lid == lid) with
    | some m => if s.tbReached .el 0 m.t && !s.expelled then s.launchNow m m.t else s
    | none => s)

end Sys2Proof.Machine
end

