-- ==== Sys2Proof/Machine/Tree.lean ====
section
/-! DEFINITION. The commands of the Uhloux tree: barrier nodes, launch requests, reduction slots and cross-checks (chapters 7, 8 and 10). -/

namespace Sys2Proof.Machine

/-- BAR_NODE_ARRIVAL (R228). -/
def execBarNodeArrival (lane : Fin 160) (pos : Fin 128) (m : BarArrive) (s : State) : Out :=
  .next (if s.absorbed lane then s
    else s.nodeArrive m.bid.toNat { pos := if lane.val < 128 then lane.val else pos.val, gen := m.gen, scope := m.scope, relayed := decide (128 ≤ lane.val) })

/-- The generation of this number is the open one, and its arrival was sent up (R535). -/
def State.awaits (s : State) (p : Part) (b : Nat) (gen : BitVec 16) : Bool :=
  match p with
  | .el => (s.bar b).sentUp && s.get .el (Reg.BAR_GEN b) % 2 ^ 16 == gen.toNat
  | .ux => (s.node b).isOpen && (s.node b).sentUp && (s.node b).gen % 2 ^ 16 == gen.toNat

/-- BAR_RELEASE (R227, R230, R231, R535): at a node or a die-local level whose arrival of that generation was sent up; otherwise 0x3044. A leaf that relays passes it to the die at the position it names. -/
def execBarRelease (p : Part) (bid : BitVec 8) (m : BarClose) (s : State) : Out :=
  let b := bid.toNat
  match p with
  | .el => .next (if s.awaits .el b m.gen then s.barRelease b else s.log .el 0x03 0x3044 b m.gen.toNat)
  | .ux => .next (match (if s.relays then m.pos else none) with
    | some x => s.send .ux x (.barRelease bid m.gen none)
    | none => if s.awaits .ux b m.gen then (s.nodeRelease b).nodeCheck b else s.log .ux 0x4C 0x3044 b m.gen.toNat)

/-- BAR_REFUSAL (R230, R534): closes the generation whose arrival was sent up; any other refusal finds nothing to close. -/
def execBarRefusal (p : Part) (bid : BitVec 8) (m : BarClose) (s : State) : Out :=
  let b := bid.toNat
  match p with
  | .el => .next (if s.awaits .el b m.gen then s.barRefuse b else s)
  | .ux => .next (match (if s.relays then m.pos else none) with
    | some x => s.send .ux x (.barRefusal bid m.gen none)
    | none => if s.awaits .ux b m.gen then s.nodeRefuse b else s)

/-- BAR_NODE_TIMEOUT (R232): 0x3042 with the arrivals missing, whose lanes are reported to headcount as suspects; a TBAR completes TIMEOUT, and the node stays open (log 37). -/
def execBarNodeTimeout (bid : BitVec 8) (s : State) : Out :=
  let b := bid.toNat
  let n := s.node b
  if n.isOpen && !n.sentUp then
    let s := n.absent.foldl State.suspectLane (s.log .ux 0x4C 0x3042 b n.missing)
    .next (match n.qid with
      | some q => (s.setNode b { n with qid := none }).endQid q stTimeout
      | none => s)
  else .next s

/-- LAUNCH_REQUEST (R234): judged at the root and answered by the path it took; below the root it goes up, from an other-plane leaf over its twin (R230). -/
def execLaunchRequest (m : LaunchMsg) (lane : Fin 160) (s : State) : Out :=
  if s.absorbed lane then .next s
  else
  let s := s.learnPort lane m.lsi.toNat
  if s.tier = 2 then
    let r := s.launchJudge m lane
    .next (r.1.send .ux lane (.launchAnswer m.lid r.2))
  else if s.relays then .next ((s.relayNote lane).toTwin (.launchReq m))
  else .next (s.sendUp .ux (.launchReq m))

/-- DLAUNCH_RECOMPUTE (R235). -/
def execDlaunchRecompute (reports : List (Fin 160 × BitVec 32)) (s : State) : Out :=
  .next (s.dlaunch (reports.map (fun r => (r.1.val, r.2.toNat))))

/-- REDUCTION_CONTRIBUTION (R263 to R265): a result passes down; a contribution is combined, held, or discarded for a reserved KIND. -/
def execReductionContribution (m : RedMsg) (lane : Fin 160) (s : State) : Out :=
  let rid := m.rid.toNat
  .next (if s.absorbed lane then s else if 2 < m.kind.toNat then s.redDiscard
    else match slotAt s.ux.slots rid with
    | some t => if m.down then s.slotDown rid t m else s.slotTake rid t m lane
    | none => if m.down then s.redDiscard else s.slotHold m lane)

/-- SLOT_HELD_EXPIRY (R265): the held message at a place of a cluster is discarded with 0x4013. -/
def execSlotHeldExpiry (cluster : Fin 4) (idx : Nat) (s : State) : Out :=
  .next (match (s.ux.held.filter (fun h => laneCluster h.2 == cluster.val))[idx]? with
    | some h => ((s.modUx (fun u => { u with held := u.held.erase h })).log .ux 0x4C 0x4013 h.1.rid.toNat h.1.src.toNat).redDiscard
    | none => s)

/-- SLOT_TIMEOUT (R239): a slot or group with a first contribution and no result ends TIMEOUT with 0x3060; at a die, the SPASS, SSUM or XCHK of an identity completes TIMEOUT. -/
def execSlotTimeout (p : Part) (key : Nat) (s : State) : Out :=
  match p with
  | .el => .next (match s.findOp .el key with
      | some o => (match o.kind with
        | .spass _ _ _ _ | .ssum _ _ _ | .xchk _ _ _ => if o.started then s.endOp o stTimeout else s
        | _ => s)
      | none => s)
  | .ux => .next (match slotAt s.ux.slots key with
      | some t =>
        if t.sent || t.seen.isEmpty then s
        else ((s.log .ux 0x4C 0x3060 key (t.expect - t.heard)).setSlots (terase s.ux.slots key)).endQid t.qid stTimeout
      | none => (match groupAt s.ux.groups key with
        | some g =>
          if g.sent || g.got.isEmpty then s
          else ((s.log .ux 0x4C 0x3060 key (g.expect.countP (fun x => !g.got.any (fun c => c.1 == x)))).setGroups (terase s.ux.groups key)).endQid g.qid stTimeout
        | none => s))

/-- XCHK_CONTRIBUTION (R307, R308); for a RID no group has open it is discarded and counted. -/
def execXchkContribution (rid : BitVec 12) (lane : Fin 160) (m : XchkUp) (s : State) : Out :=
  .next (if s.absorbed lane then s else match groupAt s.ux.groups rid.toNat with
    | some g => s.groupTake rid.toNat g lane m.step m.body
    | none => s.redDiscard)

end Sys2Proof.Machine
end

