-- ==== Sys2Proof/Machine/Vault.lean ====
section
/-! DEFINITION. The vault: mirror streams, generations, comparison and restore (R199, R351 to R356). -/

namespace Sys2Proof.Machine

/-- The vault's state for a die of the partner leaf. -/
def State.vault (s : State) (die : Nat) : VGen := tget VGen.zero s.ux.vaults die

/-- The state with a die's vault state replaced. -/
def State.setVault (s : State) (die : Nat) (v : VGen) : State := s.modUx (fun u => { u with vaults := tput VGen.zero u.vaults die v })

/-- The bytes a die has mirrored for a step. -/
def VGen.written (v : VGen) (step : Nat) : Nat := ((v.log.filter (fun w => w.step == step && !w.bcv)).map (fun w => w.data.length)).sum

/-- FAIL is sent for a die of the partner leaf (R311, R354); its LSI is free where this chip has not seen it (log 35). -/
def State.vaultFail (s : State) (die : Nat) (step : Word) : State :=
  let r := s.lsiOfDie ((if die < 128 then s.get .ux Reg.UX_HC_PEER_PARTNER else s.get .ux Reg.UX_HC_PEER_PARTNER2) * 128 + die % 128)
  r.2.sendUp .ux (.sealMsg 0x31 (BitVec.ofNat 20 r.1) step)

/-- The stream of a step has ended: an open VGEN for it completes OK, or SAT beyond the budget with OVER, 0x6040 and FAIL (R354). -/
def State.vaultEnd (s : State) (die : Nat) : State :=
  let v := s.vault die
  match v.isOpen, v.qid with
  | some step, some q =>
    if v.ended.contains (step % 2 ^ 32) then
      let n := v.written (step % 2 ^ 32)
      let past : Bool := decide (s.get .ux Reg.UX_VAULT_CFG_BUDGET * 2 ^ 24 < n)
      let s := s.setVault die { v with isOpen := none, qid := none }
      if past then (((s.put .ux Reg.UX_VAULT_STAT_OVER 1).log .ux 0x44 0x6040 die n).vaultFail die (BitVec.ofNat 64 step)).endQid q stSat
      else s.endQid q stOk
    else s
  | _, _ => s

/-- VGEN opens a die's current generation for a step (R199, R352): its stream is accepted, and the operation completes at the stream's end. -/
def State.vgen (s : State) (o : QOp) (die : Nat) (step : Word) : State :=
  ((s.setVault die { s.vault die with seen := true, isOpen := some step.toNat, qid := some o.id }).unmirrored).vaultEnd die

/-- A write's step lies at or before a step; both are compared by their low 32 bits. -/
def stepUpTo (tag step : Nat) : Bool := (step + 2 ^ 32 - tag) % 2 ^ 32 < 2 ^ 31

/-- VSEAL for a die (R352): every logged write of steps up to the sealed one is applied in step order, and freed. -/
def VGen.promote (v : VGen) (step : Nat) : VGen :=
  if v.ended.contains step || v.log.any (fun w => w.step == step) then
    let hit := v.log.filter (fun w => stepUpTo w.step step)
    let steps := ((hit.map VWrite.step).eraseDups).foldr natInsert []
    { v with hasSealed := true, sealedGen := v.sealedGen ++ steps.flatMap (fun t => hit.filter (fun w => w.step == t)),
             log := v.log.filter (fun w => !stepUpTo w.step step), ended := v.ended.filter (fun t => !stepUpTo t step) }
  else v

/-- The vault has room for a die: of the dies it serves, those beyond CAP_DIES in descending lane order stay unmirrored (R468). -/
def State.vaultHolds (s : State) (die : Nat) : Bool :=
  s.ux.vaults.countP (fun v => v.2.seen && decide (v.1 < die)) < s.get .ux Reg.UX_VAULT_STAT_CAP_DIES

/-- VSEAL (R199, R352, R355): REFUSED for a step that is not sealed. -/
def State.vseal (s : State) (o : QOp) (step : Word) : State :=
  if isSealedBy s.lastSealed step then
    ((s.modUx (fun u => { u with vaults := u.vaults.map (fun v => (v.1, if s.vaultHolds v.1 then v.2.promote (step.toNat % 2 ^ 32) else v.2)) })).unmirrored).endOp o stOk
  else s.endOp o stRefused

/-- VCMP (R199, R311): neither the fingerprint key nor the die's ledger records reach the vault by any message of the spec, so the comparison's result is free (log 41); MISMATCH sets the flag, logs 0x5006 and sends FAIL. -/
def State.vcmp (s : State) (o : QOp) (die : Nat) (step : Word) : State :=
  let d := s.draw
  if d.1.toNat % 2 = 0 then d.2.endOp o stOk
  else (((d.2.put .ux Reg.UX_VAULT_STAT_MISMATCH 1).log .ux 0x44 0x5006 die step.toNat).vaultFail die step).endOp o stMismatch

/-- The restore messages of a sealed generation for a target die (R353). -/
def restoreMsgs (v : VGen) (die target : Nat) (step : Nat) : List VaultMsg :=
  let mk := fun (kind ofs : Nat) (data : List Byte) => VaultMsg.mk (BitVec.ofNat 8 kind) (BitVec.ofNat 7 die) (BitVec.ofNat 32 step) (BitVec.ofNat 32 ofs) (BitVec.ofNat 20 target) data
  v.sealedGen.map (fun w => mk (if w.bcv then 5 else 4) w.ofs w.data) ++ [mk 6 0 []]

/-- A restore message goes towards its target: down where the die lies below this chip, else up. -/
def State.restoreRoute (s : State) (m : VaultMsg) : State :=
  match s.portOf m.target.toNat with
  | some x => s.send .ux x (.vault m)
  | none => s.sendUp .ux (.vault m)

/-- VREST (R199): the sealed generation of a die is streamed. A lane below 128 names the die on this leaf's downlink, any other value a PDI (log 41). -/
def State.vrest (s : State) (die lane : Nat) : State :=
  let target := if lane < 128 then s.pdiOf lane else lane % 2 ^ 20
  (restoreMsgs (s.vault die) die target (s.lastSealed.toNat % 2 ^ 32)).foldl (fun t m => t.restoreRoute m) s

/-- VDROP (R199, R352): both generations go, and the die is unmirrored. -/
def State.vdrop (s : State) (o : QOp) (die : Nat) : State :=
  ((s.setVault die { VGen.zero with seen := true, isOpen := (s.vault die).isOpen, qid := (s.vault die).qid }).unmirrored).endOp o stOk

/-- The lanes a mirror message leaves on (R351, R356): the ACTIVE lanes of the partner's group in turn; three-way, one of each half. -/
def State.mirrorLanes (s : State) : List Nat :=
  let act := fun (l : List Nat) => l.filter (fun x => s.laneState .ux x == 4)
  let pick := fun (l : List Nat) => match l with
    | [] => []
    | _ => [l.getD (s.ux.peTurn % l.length) 0]
  if s.bit .ux Reg.UX_HC_PEER_WAYS3 then pick (act ((List.range 4).map (fun i => 144 + i))) ++ pick (act ((List.range 4).map (fun i => 148 + i)))
  else pick (act ((List.range 8).map (fun i => 144 + i)))

/-- A leaf forwards a mirror message to its partner or partners; on the other plane its twin does (R351). -/
def State.mirrorForward (s : State) (m : VaultMsg) : State :=
  if s.relays then s.toTwin (.vault m)
  else (s.mirrorLanes.foldl (fun t x => t.send .ux x (.vault m)) s).modUx (fun u => { u with peTurn := u.peTurn + 1 })

/-- The vault's number for a die: its downlink at its own leaf, and 128 more for a die of PARTNER2, whose messages a three-way vault has on PE4 to PE7 (R356, log 41). -/
def State.vaultDie (s : State) (x lane : Nat) : Nat := lane + (if s.bit .ux Reg.UX_HC_PEER_WAYS3 && decide (148 ≤ x) then 128 else 0)

/-- The vault takes a mirror message of a partner (R352, R353), once for its (KIND, LANE, STEP, OFS). -/
def State.mirrorTake (s : State) (x : Nat) (m : VaultMsg) : State :=
  let die := s.vaultDie x m.lane.toNat
  let step := m.step.toNat
  let v := { s.vault die with seen := true }
  if m.kind = 3 then
    ((s.setVault die { v with ended := if v.ended.contains step then v.ended else v.ended ++ [step] }).unmirrored).vaultEnd die
  else
    let w : VWrite := { step := step, ofs := m.ofs.toNat, data := m.data, bcv := m.kind == 2 }
    let same := v.log.any (fun x => x.step == step && x.ofs == w.ofs && x.bcv == w.bcv)
    (s.setVault die (if same then v else { v with log := v.log ++ [w] })).unmirrored

/-- VAULT_MESSAGE (R314, R351 to R353): mirror messages of a die or of the twin go to the partner, those from the partner into the vault; restore messages go on towards their target; a reserved KIND is discarded and counted. -/
def execVaultMessage (lane : Fin 160) (m : VaultMsg) (s : State) : Out :=
  let k := m.kind.toNat
  let x := lane.val
  .next (if k = 0 ∨ 6 < k then s.modLane .ux x (fun l => { l with discards := l.discards + 1 })
    else if s.lockLane Reg.UX_LOCK_CTRL_SHD x then s
    else if 4 ≤ k then s.restoreRoute m
    else if s.tier ≠ 0 then (if s.tier = 2 then s.toTwin (.vault m) else s.sendUp .ux (.vault m))
    else if 144 ≤ x ∧ x < 152 then s.mirrorTake x m
    else s.mirrorForward m)

end Sys2Proof.Machine
end

