-- ==== Sys2Proof/Machine/Queued.lean ====
section
/-! DEFINITION. The start and the end of queued operations (R142, R143, R188, R533): what each sends when it starts, and what it has done when it ends. -/

namespace Sys2Proof.Machine

/-- A queued operation has started. -/
def State.markStarted (s : State) (p : Part) (id : Nat) : State :=
  s.mod p (fun b => { b with qops := b.qops.map (fun o => if o.id == id then { o with started := true } else o) })

/-- The oldest operation of a queue that has not started (R142). -/
def State.headOp (s : State) (q : QueueId) : Option QOp := (s.base (queuePart q)).qops.find? (fun o => o.queue == q && !o.started)

/-- A started operation holds its unit (R188, R533): a format T operation the tally lanes, an operation of the CHK queue the CHK unit; SPASS, SSUM and XCHK have released theirs once they have sent. -/
def QKind.holds : QKind → Bool
  | .tal _ _ _ _ _ _ _ _ | .bcvg _ _ _ _ | .bcvv _ _ _ _ | .fpa _ _ _ _ | .fpcmp _ _ => true
  | _ => false

/-- The unit of a queue is free. -/
def State.queueFree (s : State) (q : QueueId) : Bool := (s.base (queuePart q)).qops.all (fun o => !(o.queue == q && o.started && o.kind.holds))

/-! ### Scalar reductions (R252, R261, R263) -/

/-- The values of a scalar operation lie 8-byte aligned in SPM, and the lanes exist (R187). -/
def State.scalarFits (s : State) (addr n width : Nat) : Bool := s.el.lic.talLanes != 0 && addr % 8 == 0 && s.spmIn addr (n * width)

/-- SPASS or SSUM sends its values to the tree (R252, R261), or is REFUSED whole (R187). -/
def State.scalarSend (s : State) (o : QOp) (rid addr n width : Nat) (min : Bool) : State :=
  if !s.scalarFits addr n width then (s.talReport o.kind.redOp o.pc stRefused 0 0).endOp o stRefused
  else
    let r := s.spmReadBytes 3 addr (n * width) o.pc
    let vs := (List.range n).map (fun j => signed (8 * width) (leNat ((r.1.drop (width * j)).take width)))
    let kind := if width = 2 then 0 else 1
    let mk := fun (f : Nat × List Int) => RedMsg.mk (BitVec.ofNat 12 rid) (BitVec.ofNat 8 kind) min false false (BitVec.ofNat 32 f.1)
      (BitVec.ofNat 32 s.lsi) (BitVec.ofNat 64 s.stepCur) f.2
    (redFrames (redPer kind) vs).foldl (fun t f => t.sendUp .el (.red (mk f))) r.2

/-- The tree's values are written back in place (R252, R261). Which values an SSUM result saturated the message does not say: the block and count it reports are free (log 2). -/
def State.scalarDone (s : State) (o : QOp) (addr n width : Nat) (vs : List Int) (sat : Bool) : State :=
  if vs.length ≠ n then s
  else
    let s := s.spmPutBytes 3 addr (vs.flatMap (fun v => leBytes width (unsigned (8 * width) v))) o.pc
    if sat then
      let d := s.draw
      (d.2.talReport o.kind.redOp o.pc stSat (d.1.toNat % 2 ^ 16) (d.1.toNat / 2 ^ 16 % 2 ^ 32)).endOp o stSat
    else s.endOp o stOk

/-! ### The CHK queue (R190, R290, R295) -/

/-- The operands of a format K operation are valid: its count, its tags, and its data and check values in SPM. -/
def State.chkFits (s : State) (data : Option Nat) (bcv n tag : Nat) : Bool :=
  decide (1 ≤ n ∧ n ≤ 65536) && !tagOver tag n && s.spmIn bcv (4 * n) && (match data with | some a => s.spmIn a (4096 * n) | none => true)

/-- BCVG writes the check value of each block. -/
def State.bcvgRun (s : State) (pc data bcv n tag : Nat) : State :=
  (List.range n).foldl (fun t i =>
    let r := t.spmReadBytes 4 (data + 4096 * i) 4096 pc
    r.2.spmPutBytes 4 (bcv + 4 * i) (leBytes 4 (bcvOf r.1 (tagAt tag i))) pc) s

/-- BCVV verifies each block: the computed CRC and tag of those that fail. -/
def State.bcvvRun (s : State) (pc data bcv n tag : Nat) : List (Nat × Nat) × State :=
  (List.range n).foldl (fun a i =>
    let r := a.2.spmReadBytes 4 (data + 4096 * i) 4096 pc
    let v := r.2.spmReadBytes 4 (bcv + 4 * i) 4 pc
    let crc := bcvOf r.1 (tagAt tag i)
    (if crc = leNat v.1 then a.1 else a.1 ++ [(crc, tagAt tag i)], v.2)) ([], s)

/-- The end of a BCVV (R190, R305, R312, R313). -/
def State.bcvvEnd (s : State) (o : QOp) (fails : List (Nat × Nat)) : State :=
  match fails with
  | [] => (s.suspOk o.pc 1).endOp o stOk
  | (crc, tag) :: _ => ((s.bcvFails o.pc fails).suspMismatch o.pc 1 (BitVec.ofNat 64 tag) (BitVec.ofNat 64 crc)).endOp o stMismatch

/-- The fingerprint term of a block (R295). -/
def fpTerm (key : List Byte) (tag bcv : Nat) : Word := sipHash (leNat (key.take 8)) (leNat (key.drop 8)) (leBytes 4 tag ++ leBytes 4 bcv)

/-- The check values an FPA reads. -/
def State.fpaBcvs (s : State) (pc bcv n : Nat) : List Nat × State :=
  let r := s.spmReadBytes 4 bcv (4 * n) pc
  ((List.range n).map (fun i => leNat ((r.1.drop (4 * i)).take 4)), r.2)

/-- The DETAIL records of an FPA leave as it starts (R297, R299). -/
def State.fpaDetail (s : State) (pc bcv n tag : Nat) : State :=
  if s.bit .el Reg.CHK_CTRL_DETAIL && s.chkFits none bcv n tag then
    let r := s.fpaBcvs pc bcv n
    ((List.range n).zip r.1).foldl (fun t e =>
      t.emit (t.ledgerRec 7 (tagAt tag e.1 / 2 ^ 20) (BitVec.ofNat 64 (tagAt tag e.1 % 2 ^ 20 * 2 ^ 32 + e.2)) pc 0 false)) r.2
  else s

/-- The state with an accumulator replaced. -/
def State.setFa (s : State) (i : Nat) (f : Fa) : State := s.modEl (fun e => { e with fas := tput ⟨0, 0, 0⟩ e.fas i f })

/-- FPA folds the blocks into an accumulator (R189, R190). -/
def State.fpaRun (s : State) (pc bcv n tag i : Nat) : State :=
  let r := s.fpaBcvs pc bcv n
  let key := r.2.fpKey
  let fp := ((List.range n).zip r.1).foldl (fun (a : Word) e => a + fpTerm key (tagAt tag e.1) e.2) (r.2.fa i).fp
  r.2.setFa i { r.2.fa i with fp := fp, blocks := satAdd 32 (r.2.fa i).blocks n }

/-- FPCMP compares two accumulators (R190, R305, R312, R313). -/
def State.fpcmpRun (s : State) (o : QOp) (i j : Nat) : State :=
  let a := s.fa i
  let b := s.fa j
  if a.fp = b.fp ∧ a.blocks = b.blocks then (s.suspOk o.pc 2).endOp o stOk
  else
    let s := (s.setFa i { a with mism := satAdd 32 a.mism 1 }).put .el Reg.CHK_STAT_FPCMP 1
    let s := (s.count .el Reg.CHK_CNT_FPCMP_FAIL 1).log .el 0x05 0x5003 o.pc a.fp.toNat
    ((s.suspMismatch o.pc 2 a.fp b.fp).checkFail o.pc).endOp o stMismatch

/-! ### The ledger queue (R190, R297, R298, R305) -/

/-- LEMIT sends its record, or is REFUSED at once for tensor 0xFFF. -/
def State.lemitStart (s : State) (o : QOp) (tensor i kind : Nat) : State :=
  if tensor = 0xFFF then s.endOp o stRefused
  else let f := s.fa i; s.emit (s.ledgerRec kind tensor f.fp f.blocks f.mism (f.blocks == 2 ^ 32 - 1))

/-- SEALV sends PASS, or FAIL in its place while a check failure is marked. -/
def State.sealvStart (s : State) (o : QOp) (step : Word) : State :=
  if s.stepCur < step.toNat ∨ isSealedBy (s.reg .el Reg.CHK_SEAL_LAST.off) step then s.endOp o stRefused
  else s.sendUp .el (.sealMsg (if s.bit .el Reg.CHK_STAT_FAILED then 0x31 else 0x30) (BitVec.ofNat 20 s.lsi) step)

/-- SEALQ completes at once for a sealed step. -/
def State.sealqStart (s : State) (o : QOp) (step : Word) : State := if isSealedBy (s.reg .el Reg.CHK_SEAL_LAST.off) step then s.endOp o stOk else s

/-! ### DMAGO (R193, R384) -/

/-- A channel starts `count` descriptors. -/
def State.dmaStart (s : State) (ch count : Nat) (qid : Option Nat) : State :=
  ((s.put .el (Reg.DMA_STAT_STATE ch) 1).put .el (Reg.DMA_STAT_LEFT ch) count).modDma ch (fun _ => { Dma.zero with left := count, qid := qid })

/-- DMAGO starts its channel, or is REFUSED. -/
def State.dmagoStart (s : State) (o : QOp) (ch count : Nat) : State :=
  if count = 0 ∨ 65535 < count ∨ s.get .el (Reg.DMA_STAT_STATE ch) ≠ 0 then s.endOp o stRefused else s.dmaStart ch count (some o.id)

/-! ### XCHK (R306, R308) -/

/-- XCHK sends its accumulator as it stands, and keeps what it sent for its verdict. -/
def State.xchkStart (s : State) (o : QOp) (rid i : Nat) : State :=
  let e : HistEntry := { fp := (s.fa i).fp, blocks := BitVec.ofNat 32 (s.fa i).blocks, count := 1 }
  (s.mod .el (fun b => { b with qops := b.qops.map (fun q => if q.id == o.id then { q with kind := .xchk rid i (some e) } else q) })).sendUp .el
    (.xchkUp (BitVec.ofNat 12 rid) (BitVec.ofNat 32 s.lsi) (BitVec.ofNat 64 s.stepCur) (.hist [e]))

/-! ### Starts -/

/-- What an operation does as it starts. -/
def State.opStart (s : State) (o : QOp) : State :=
  match o.kind with
  | .lreq m => s.sendUp .el (.launchReq { m with ident := o.id })
  | .arrive bid scope => s.barArrive o bid.toNat scope false
  | .bar bid scope => s.barArrive o bid.toNat scope true
  | .ann d m => s.sendUp .el (.ann d m)
  | .tal _ _ _ _ _ _ _ _ => s.put .el Reg.TAL_STAT_BUSY 1
  | .spass rid n addr min => s.scalarSend o rid addr n 2 min
  | .ssum rid n addr => s.scalarSend o rid addr n 8 false
  | .fpa bcv n tag _ => s.fpaDetail o.pc bcv n tag
  | .xchk rid i _ => s.xchkStart o rid i
  | .lemit tensor i kind => s.lemitStart o tensor i kind
  | .sealv step => s.sealvStart o step
  | .sealq step => s.sealqStart o step
  | .lstag i => s.emit (s.ledgerRec 6 o.pc (s.fa i).fp (s.fa i).blocks 0 ((s.fa i).blocks == 2 ^ 32 - 1))
  | .dmago ch count => s.dmagoStart o ch count
  | .tslot rid opk contributors n => s.slotOpen o rid opk contributors n
  | .tbar bid count => s.nodeArm o bid.toNat count
  | .tcmpg rid addr n => s.groupOpen o rid addr n
  | .vgen die step => s.vgen o die step
  | .vrest die lane => s.vrest die lane
  | .lseal step => s.lsealOpen o step
  | .bcvg _ _ _ _ | .bcvv _ _ _ _ | .fpcmp _ _ | .tlreq _ | .tlock _ _ _ | .trel _ | .vseal _ | .vcmp _ _ | .vdrop _ | .lflush | .larch _ _ | .ltrim _ => s

/-- The SPM port of a queue's unit (R258, R371). -/
def queuePort : QueueId → Option Nat
  | .red => some 3
  | .chk => some 4
  | _ => none

/-- QUEUED_OP_START (R142): the oldest operation of a queue that has not started starts when its unit is free. `replay` is a word it reads from SPM that needs a replay (R379). -/
def execQueuedOpStart (p : Part) (q : QueueId) (replay : Option (BitVec 24)) (s : State) : Out :=
  .next (if queuePart q = p && s.queueFree q then
    (match s.headOp q with
    | some o =>
      let s := s.markStarted p o.id
      let s := match queuePort q, replay with
        | some port, some a => if s.el.spmBad.contains (a.toNat / 8) then s else s.spmReplay port a.toNat o.pc
        | _, _ => s
      s.opStart { o with started := true }
    | none => s)
  else s)

/-! ### Ends -/

/-- An operation with a format K check: REFUSED where its operands are invalid, else it runs. -/
def State.chkRun (s : State) (o : QOp) (data : Option Nat) (bcv n tag : Nat) (f : State → State) : State :=
  if s.chkFits data bcv n tag then f s else s.endOp o stRefused

/-- TREL (R198): an operation open on the slot or group completes ABORTED. -/
def State.slotRelease (s : State) (rid : Nat) : State :=
  match slotAt s.ux.slots rid with
  | some t => (s.setSlots (terase s.ux.slots rid)).endQid t.qid stAborted
  | none => match groupAt s.ux.groups rid with
    | some g => (s.setGroups (terase s.ux.groups rid)).endQid g.qid stAborted
    | none => s

/-- The lanes are those the comparator of this leaf pairs (R314, R315). -/
def State.lockPaired (s : State) (a b : Nat) : Bool :=
  let pri := s.get .ux Reg.UX_LOCK_CTRL_PRI
  let shd := s.get .ux Reg.UX_LOCK_CTRL_SHD
  s.bit .ux Reg.UX_LOCK_CTRL_EN && s.tier == 0 && ((a == pri && b == shd) || (a == shd && b == pri))

/-- TLOCK (R198, R315): MISMATCH where the first divergence of the pair named lies at or before the step. Of lanes that the comparator does not pair no stream is held, and the result is free (log 112). -/
def State.lockEnd (s : State) (o : QOp) (a b : Nat) (step : Word) : State :=
  if s.lockPaired a b then
    s.endOp o (if s.bit .ux Reg.UX_LOCK_DIV1_VALID && decide ((s.reg .ux Reg.UX_LOCK_DIV0_STEP.off).toNat ≤ step.toNat) then stMismatch else stOk)
  else let d := s.draw; d.2.endOp o (if d.1.toNat % 2 = 0 then stOk else stMismatch)

/-- LTRIM is REFUSED above the last sealed step + 1 (R199). -/
def State.trimOk (s : State) (step : Word) : Bool := decide (step.toNat ≤ (s.lastSealed + 1).toNat)

/-- VGEN ends without its stream's end (R199). -/
def State.vgenTimeout (s : State) (o : QOp) (die : Nat) : State := (s.setVault die { s.vault die with isOpen := none, qid := none }).endOp o stTimeout

/-- The end of an operation with what ended it; an end that the operation does not have does nothing. -/
def State.opEnd (s : State) (o : QOp) (ans : Answer) : State :=
  match o.kind, ans with
  | .lreq _, .accepted => s.endOp o stOk
  | .lreq _, .late => s.endOp o stLate
  | .lreq _, .refused => s.endOp o stRefused
  | .ann _ _, .accepted => s.endOp o stOk
  | .ann _ _, .refused => s.endOp o stRefused
  | .arrive _ _, .own => s.endOp o stOk
  | .tal op src dst n e fmt cls mx, .own => s.talRun o { op := op, src := src, dst := dst, n := n, e := e, fmt := fmt, cls := cls, mx := mx }
  | .spass _ n addr _, .values vs _ => s.scalarDone o addr n 2 vs false
  | .ssum _ n addr, .values vs sat => s.scalarDone o addr n 8 vs sat
  | .spass _ _ _ _, .timeout => s.endOp o stTimeout
  | .ssum _ _ _, .timeout => s.endOp o stTimeout
  | .xchk _ _ _, .timeout => s.endOp o stTimeout
  | .bcvg data bcv n tag, .own => s.chkRun o (some data) bcv n tag (fun t => (t.bcvgRun o.pc data bcv n tag).endOp o stOk)
  | .bcvv data bcv n tag, .own => s.chkRun o (some data) bcv n tag (fun t => let r := t.bcvvRun o.pc data bcv n tag; r.2.bcvvEnd o r.1)
  | .fpa bcv n tag i, .own => s.chkRun o none bcv n tag (fun t => (t.fpaRun o.pc bcv n tag i).endOp o stOk)
  | .fpcmp i j, .own => s.fpcmpRun o i j
  | .lemit _ _ _, .own => s.endOp o stOk
  | .lstag _, .own => s.endOp o stOk
  | .sealv _, .own => s.endOp o stOk
  | .tlreq m, .own => let r := s.launchJudge { m with ident := o.id } 0; r.1.endOp o r.2
  | .tlock a b step, .own => s.lockEnd o a b step
  | .trel rid, .own => (s.slotRelease rid).endOp o stOk
  | .vgen die _, .timeout => s.vgenTimeout o die
  | .vseal step, .own => s.vseal o step
  | .vcmp die step, .own => s.vcmp o die step
  | .vrest _ _, .own => s.endOp o stOk
  | .vrest _ _, .timeout => s.endOp o stTimeout
  | .vdrop die, .own => s.vdrop o die
  | .lflush, .own => s.endOp o stOk
  | .larch lo hi, .own => (s.ledgArchive lo hi).endOp o stOk
  | .larch _ _, .refused => s.endOp o stAborted
  | .ltrim step, .own => if s.trimOk step then (s.ledgTrim step).endOp o stOk else s.endOp o stRefused
  | _, _ => s

/-- QUEUED_OP_COMPLETION (R143): a started operation ends. An ARRIVE, BAR, SEALQ, DMAGO, TSLOT, TBAR, TCMPG, XCHK, VGEN or LSEAL whose end is another command's effect ends there. -/
def execQueuedOpCompletion (p : Part) (qid : Nat) (ans : Answer) (s : State) : Out :=
  .next (match s.findOp p qid with
    | some o => if o.started then s.opEnd o ans else s
    | none => s)

end Sys2Proof.Machine
end

