-- ==== Sys2Proof/Machine/DmaOps.lean ====
section
/-! DEFINITION. DMA channels: descriptors, their checks, patterns, transfers, and restores from the vault (R383 to R397). -/

namespace Sys2Proof.Machine

/-! ### Descriptors (R386, R387) -/

/-- A descriptor as it stands in the ring. -/
structure Desc where
  ctl       : Nat
  tag       : Nat
  src       : Nat
  dst       : Nat
  bcv       : Nat
  srcLine   : Nat
  srcStride : Nat
  dstLine   : Nat
  dstStride : Nat
  lines     : Nat
  rsv       : Nat
  deriving DecidableEq, Repr

/-- A descriptor from its 64 bytes. -/
def descOf (bs : List Byte) : Desc :=
  let f := fun (o n : Nat) => leNat ((bs.drop o).take n)
  { ctl := f 0 4, tag := f 4 4, src := f 8 8, dst := f 16 8, bcv := f 24 8, srcLine := f 0x20 4, srcStride := f 0x24 4,
    dstLine := f 0x28 4, dstStride := f 0x2C 4, lines := f 0x30 4, rsv := f 0x34 4 }

/-- A bit field [hi:lo] of a number. -/
def nbits (v hi lo : Nat) : Nat := v / 2 ^ lo % 2 ^ (hi + 1 - lo)

/-- SWAP. -/ def Desc.swap (d : Desc) : Nat := nbits d.ctl 23 20
/-- DST_SPACE: 0 SPM, 1 DIE, 2 VAULT. -/ def Desc.dstSpace (d : Desc) : Nat := nbits d.ctl 19 18
/-- SRC_SPACE. -/ def Desc.srcSpace (d : Desc) : Nat := nbits d.ctl 17 16
/-- Bytes of a source element. -/ def Desc.srcW (d : Desc) : Nat := nbits d.ctl 15 10 + 1
/-- Bytes of a destination element. -/ def Desc.dstW (d : Desc) : Nat := nbits d.ctl 9 4 + 1
/-- Bytes of a source line. -/ def Desc.srcLen (d : Desc) : Nat := nbits d.srcLine 23 0 + 1
/-- Bytes of a destination line. -/ def Desc.dstLen (d : Desc) : Nat := nbits d.dstLine 23 0 + 1
/-- Source lines. -/ def Desc.srcLines (d : Desc) : Nat := nbits d.lines 15 0 + 1
/-- Destination lines. -/ def Desc.dstLines (d : Desc) : Nat := nbits d.lines 31 16 + 1
/-- Bytes of the source stream. -/ def Desc.srcBytes (d : Desc) : Nat := d.srcLen * d.srcLines
/-- Bytes of the destination stream. -/ def Desc.dstBytes (d : Desc) : Nat := d.dstLen * d.dstLines
/-- Either space is the vault. -/ def Desc.vault (d : Desc) : Bool := d.srcSpace == 2 || d.dstSpace == 2
/-- The unit of a SWAP code in bytes. -/
def swapUnit : Nat → Nat
  | 1 => 2
  | 2 => 4
  | 3 => 8
  | 4 => 4
  | 5 => 8
  | _ => 1

/-- The address of a byte of a stream of lines (R389). -/
def streamAddr (base len stride k : Nat) : Nat := (((base : Int) + (k / len : Nat) * signed 32 stride + (k % len : Nat)) % (2 ^ 64 : Nat)).toNat

/-- The address of byte `k` of the source stream. -/
def Desc.srcAddr (d : Desc) (k : Nat) : Nat := streamAddr d.src d.srcLen d.srcStride k

/-- The address of byte `k` of the destination stream. -/
def Desc.dstAddr (d : Desc) (k : Nat) : Nat := streamAddr d.dst d.dstLen d.dstStride k

/-! ### Checks (R388, R391, R392) -/

/-- Every line of a pattern lies in SPM: its first and its last line do. -/
def State.patternIn (s : State) (base len stride lines : Nat) : Bool :=
  let last : Int := (base : Int) + ((lines - 1 : Nat) : Int) * signed 32 stride
  decide (base + len ≤ s.spmBytes) && decide (0 ≤ last) && decide (last + (len : Int) ≤ (s.spmBytes : Int))

/-- The conditions of R391, and those R390 sets for the vault: a source range of one line, a destination aligned to a block (log 45). -/
def Desc.verifyOk (d : Desc) : Bool :=
  (d.srcLines == 1 || signed 32 d.srcStride == (d.srcLen : Int)) && d.srcBytes % 4096 == 0 && !tagOver d.tag (d.srcBytes / 4096)
    && (!d.vault || (d.srcW == d.dstW && d.swap == 0)) && (d.srcSpace != 2 || d.srcLines == 1) && (d.dstSpace != 2 || d.dst % 4096 == 0)

/-- A descriptor uses block check values. -/
def Desc.checked (d : Desc) : Bool := bitOf d.ctl 28 || d.vault

/-- The space of the check values (R386). -/
def Desc.bcvSpace (d : Desc) : Nat := if d.srcSpace = 2 then d.dstSpace else d.srcSpace

/-- The space, pattern and check values lie where they can be reached (RANGE). -/
def State.descRange (s : State) (d : Desc) : Bool :=
  (d.srcSpace != 0 || s.patternIn d.src d.srcLen d.srcStride d.srcLines) && (d.dstSpace != 0 || s.patternIn d.dst d.dstLen d.dstStride d.dstLines)
    && (!d.checked || d.bcvSpace != 0 || decide (d.bcv + 4 * (d.srcBytes / 4096) ≤ s.spmBytes))

/-- The descriptor a running channel works on. -/
def State.dmaDesc (s : State) (ch : Nat) : Desc :=
  let b := descOf (mread s.el.base.mem (s.dmaAddr ch) 64)
  { b with ctl := (s.dma ch).ctl.toNat }

/-- The channel that runs with SRC_SPACE VAULT (R392). -/
def State.restoreCh (s : State) : Option Nat :=
  (List.range s.el.lic.dmaCh).find? (fun c => let t := s.get .el (Reg.DMA_STAT_STATE c); (t == 1 || t == 2) && (s.dma c).fetched && nbits (s.dma c).ctl.toNat 17 16 == 2)

/-- The CAUSE of a refusal (R388), the lowest code where several hold (log 45); 0 where the descriptor passes. -/
def State.descCause (s : State) (d : Desc) : Nat :=
  if d.rsv ≠ 0 ∨ nbits d.ctl 25 24 ≠ 0 ∨ nbits d.ctl 3 0 ≠ 0 ∨ nbits d.srcLine 31 24 ≠ 0 ∨ nbits d.dstLine 31 24 ≠ 0 ∨ 5 < d.swap ∨ d.srcSpace = 3 ∨ d.dstSpace = 3 then 4
  else if d.srcLen % d.srcW ≠ 0 ∨ d.dstLen % d.dstW ≠ 0 ∨ d.srcBytes / d.srcW ≠ d.dstBytes / d.dstW then 5
  else if 1 < d.dstLines ∧ (signed 32 d.dstStride).natAbs < d.dstLen then 6
  else if !s.descRange d then 7
  else if d.srcW % swapUnit d.swap ≠ 0 then 8
  else if d.checked && !d.verifyOk then 9
  else if (d.srcSpace = 2 ∧ d.dstSpace = 2) ∨ (d.srcSpace = 2 ∧ s.restoreCh.isSome) then 10
  else 0

/-! ### The spaces (R390) -/

/-- Bytes at addresses of SPM (space 0, through the DMA read port) or of die memory. -/
def State.spaceRead (s : State) (space : Nat) (addrs : List Nat) : List Byte × State :=
  if space = 0 then
    let bad := ((addrs.map (fun a => a / 8)).filter (fun w => s.el.spmBad.contains w)).eraseDups
    (addrs.map (fun a => if bad.contains (a / 8) then (0 : Byte) else mget s.el.spm a), bad.foldl (fun t w => t.spmPersist 8 (8 * w) 0) s)
  else (addrs.map (fun a => mget s.el.base.mem a), s)

/-- Bytes written at an address of SPM (through the DMA write port) or of die memory. -/
def State.spaceWrite (s : State) (space a : Nat) (bs : List Byte) : State :=
  if space = 0 then s.spmPutBytes 9 a bs 0 else s.memWrite .el a bs

/-- The check value of block `j`. -/
def State.descBcv (s : State) (d : Desc) (j : Nat) : Nat × State :=
  let r := s.spaceRead d.bcvSpace ((List.range 4).map (fun i => d.bcv + 4 * j + i))
  (leNat r.1, r.2)

/-- Failing blocks of a transfer (R293): all are counted, one 0x5001 a transfer (log 33). -/
def State.dmaFails (s : State) (ch : Nat) (fails : List (Nat × Nat)) : State :=
  if fails.isEmpty then s
  else if (s.dma ch).failed then s.count .el Reg.CHK_CNT_BCV_FAIL fails.length
  else (s.bcvFails 0 fails).modDma ch (fun t => { t with failed := true })

/-- Blocks `lo` to `hi - 1` are verified from the bytes `at j` of each. -/
def State.dmaVerify (s : State) (ch : Nat) (d : Desc) (space : Nat) (addr : Nat → Nat) (js : List Nat) : State :=
  let r := js.foldl (fun (a : List (Nat × Nat) × State) j =>
    let x := a.2.spaceRead space ((List.range 4096).map (fun i => addr (4096 * j + i)))
    let v := x.2.descBcv d j
    let crc := bcvOf x.1 (tagAt d.tag j)
    (if crc = v.1 then a.1 else a.1 ++ [(crc, tagAt d.tag j)], v.2)) ([], s)
  r.2.dmaFails ch r.1

/-! ### The pontoon register (R389) -/

/-- One unit with its parts swapped. -/
def swapOne (code : Nat) (u : List Byte) : List Byte :=
  if code = 4 ∨ code = 5 then ((chunks 2 u.length u).reverse).flatten else if code = 0 then u else u.reverse

/-- SWAP of an element. -/
def swapElem (code : Nat) (e : List Byte) : List Byte := ((chunks (swapUnit code) e.length e).map (swapOne code)).flatten

/-- An element widened or narrowed to `w` bytes. -/
def fitElem (sext : Bool) (w : Nat) (e : List Byte) : List Byte :=
  let top := if sext && 128 ≤ (e.getLastD 0).toNat then (0xFF : Byte) else 0
  (e ++ List.replicate (w - e.length) top).take w

/-- An element through the pontoon register. -/
def Desc.elem (d : Desc) (e : List Byte) : List Byte := fitElem (bitOf d.ctl 26) d.dstW (swapElem d.swap e)

/-- Bytes `lo` to `hi - 1` of the destination stream. -/
def State.descBytes (s : State) (d : Desc) (lo hi : Nat) : List Byte × State :=
  let e0 := lo / d.dstW
  let e1 := ceilDiv hi d.dstW
  let r := s.spaceRead d.srcSpace ((List.range ((e1 - e0) * d.srcW)).map (fun i => d.srcAddr (e0 * d.srcW + i)))
  let out := ((chunks d.srcW r.1.length r.1).map d.elem).flatten
  ((out.drop (lo - e0 * d.dstW)).take (hi - lo), r.2)

/-! ### Ends -/

/-- A start is done (R385): the channel is IDLE and a DMAGO completes OK. -/
def State.dmaStartOk (s : State) (ch : Nat) : State :=
  let q := (s.dma ch).qid
  let s := ((s.put .el (Reg.DMA_STAT_STATE ch) 0).put .el (Reg.DMA_STAT_LEFT ch) 0).modDma ch (fun _ => Dma.zero)
  match q.bind (fun id => s.findOp .el id) with
  | some o => s.endOp o stOk
  | none => s

/-- A descriptor completes OK (R385, R397), and with the last one its start. -/
def State.dmaDescOk (s : State) (ch : Nat) : State :=
  let full := bitOf (s.dma ch).ctl.toNat 29
  let s := s.dmaWriteBack ch stOk 0
  let s := if full then s.put .el (Reg.DMA_STAT_FULL ch) 1 else s
  if (s.dma ch).left = 0 then s.dmaStartOk ch else s

/-- A descriptor ends a start with a status other than OK (R385). -/
def State.dmaDescFail (s : State) (ch st cause : Nat) : State := (s.dmaWriteBack ch st cause).dmaEndFail ch st

/-- 0x7013 of a refused descriptor or host start (R384, R388). -/
def State.dmaRefused (s : State) (ch detail : Nat) : State := s.logW .el 0x07 0x7013 ch (s.get .el (Reg.DMA_STAT_POS ch)) detail

/-- STAT.HALF is set when a descriptor with IRQ_HALF first has at most half its length left (R397): `w0` bytes were written before, `w1` are now. -/
def State.dmaHalf (s : State) (ch total w0 w1 : Nat) : State :=
  if bitOf (s.dma ch).ctl.toNat 30 && decide (total / 2 < total - w0) && decide (total - w1 ≤ total / 2) then s.put .el (Reg.DMA_STAT_HALF ch) 1 else s

/-! ### Restores (R390, R392, R353) -/

/-- Whole blocks of the running range that the restore data received covers. -/
def wholeBlocks (src total : Nat) (got : List (Nat × Nat)) : List Nat :=
  (List.range (total / 4096)).filter (fun j => 4096 ≤ (got.map (fun g =>
    min (g.1 + g.2) (src + 4096 * j + 4096) - max g.1 (src + 4096 * j))).sum)

/-- RESTORE END: the whole blocks are verified; a range with bytes missing ends ABORTED with cause VAULT_RANGE. -/
def State.restoreEnd (s : State) (ch : Nat) : State :=
  let d := s.dmaDesc ch
  let t := s.dma ch
  let s := s.dmaVerify ch d d.dstSpace d.dstAddr (wholeBlocks d.src t.total t.got)
  if t.total ≤ t.written then s.dmaDescOk ch else s.dmaDescFail ch stAborted 11

/-- A restore message for the running range: data and check values are placed; a stray is discarded with 0x7014. -/
def State.restoreTake (s : State) (ch : Nat) (m : VaultMsg) : State :=
  let d := s.dmaDesc ch
  let t := s.dma ch
  let ofs := if m.kind = 5 then m.ofs.toNat * 4096 else m.ofs.toNat
  let stray := (s.put .el (Reg.DMA_STAT_VAULT_DISC ch) 1).logW .el 0x07 0x7014 ch (s.get .el (Reg.DMA_STAT_POS ch)) m.ofs.toNat
  if m.kind = 6 then s.restoreEnd ch
  else if ofs < d.src ∨ d.src + t.total ≤ ofs then stray
  else if m.kind = 5 then s.spaceWrite d.bcvSpace (d.bcv + 4 * ((ofs - d.src) / 4096)) (m.data.take (4 * ((d.src + t.total - ofs) / 4096)))
  else
    let bs := m.data.take (d.src + t.total - ofs)
    let k := ofs - d.src
    let s := (List.range bs.length).foldl (fun u i => u.spaceWrite d.dstSpace (d.dstAddr (k + i)) [bs.getD i 0]) s
    let new := if t.got.any (fun g => g.1 == ofs) then t else { t with got := t.got ++ [(ofs, bs.length)], written := t.written + bs.length }
    ((s.modDma ch (fun _ => new)).put .el (Reg.DMA_RESIDUE_RESIDUE ch) (t.total - new.written)).dmaHalf ch t.total t.written new.written

/-- Held restore messages are taken while a channel runs with SRC_SPACE VAULT (R392); `fuel` messages. -/
def State.restoreDrain : Nat → State → State
  | 0, s => s
  | n + 1, s =>
    match s.restoreCh, s.el.restoreBuf with
    | some ch, m :: ms => restoreDrain n ((s.modEl (fun e => { e with restoreBuf := ms })).restoreTake ch m)
    | _, _ => s

/-! ### Fetch and requests (R385, R393, R397) -/

/-- A descriptor is read (R385): without OWN the start ends REFUSED; one that fails R388 is refused and written back; else its transfer starts. -/
def State.dmaFetch (s : State) (ch : Nat) : State :=
  let d := descOf (mread s.el.base.mem (s.dmaAddr ch) 64)
  if !bitOf d.ctl 31 then (s.dmaRefused ch 3).dmaEndFail ch stRefused
  else
    let cause := s.descCause d
    let s := (s.modDma ch (fun t => { t with ctl := BitVec.ofNat 32 d.ctl, total := d.dstBytes, written := 0, retries := 0, busError := false, failed := false, got := [] })).put .el
      (Reg.DMA_RESIDUE_RESIDUE ch) d.dstBytes
    if cause ≠ 0 then (s.dmaRefused ch cause).dmaDescFail ch stRefused cause
    else
      let s := s.modDma ch (fun t => { t with fetched := true })
      State.restoreDrain s.el.restoreBuf.length s

/-- The next request's bytes of the destination stream: up to 4 KiB of one line (R393). -/
def Desc.chunk (d : Desc) (written : Nat) : Nat := min (min 4096 (d.dstBytes - written)) (d.dstLen - written % d.dstLen)

/-- Mirror data of a request in VC4 messages of up to 224 bytes (R353, R390). -/
def State.mirrorSend (s : State) (d : Desc) (lo : Nat) (bs : List Byte) : State :=
  let mk := fun (kind ofs : Nat) (data : List Byte) => Msg.vault (VaultMsg.mk (BitVec.ofNat 8 kind) (BitVec.ofNat 7 s.myPdi) (BitVec.ofNat 32 s.stepCur) (BitVec.ofNat 32 ofs) 0 data)
  let at' := d.dstAddr lo
  (List.range (ceilDiv bs.length 224)).foldl (fun t i => t.sendUp .el (mk 1 (at' + 224 * i) ((bs.drop (224 * i)).take 224))) s

/-- The check values of blocks `j0` to `j1 - 1` go to the mirror, up to 56 a message; the END message follows the last block with END = 1. -/
def State.mirrorBcvs (s : State) (d : Desc) (j0 j1 : Nat) (last : Bool) : State :=
  let mk := fun (kind ofs : Nat) (data : List Byte) => Msg.vault (VaultMsg.mk (BitVec.ofNat 8 kind) (BitVec.ofNat 7 s.myPdi) (BitVec.ofNat 32 s.stepCur) (BitVec.ofNat 32 ofs) 0 data)
  let s := (List.range (ceilDiv (j1 - j0) 56)).foldl (fun t i =>
    let lo := j0 + 56 * i
    let r := t.spaceRead d.bcvSpace ((List.range (4 * min 56 (j1 - lo))).map (fun b => d.bcv + 4 * lo + b))
    r.2.sendUp .el (mk 2 (d.dst / 4096 + lo) r.1)) s
  if last && bitOf d.ctl 27 then s.sendUp .el (mk 3 (d.dst + d.dstBytes) []) else s

/-- One request of a transfer is done: its bytes are written, completed source blocks verified, the residue and HALF follow. -/
def State.dmaChunk (s : State) (ch : Nat) : State :=
  let d := s.dmaDesc ch
  let w := (s.dma ch).written
  let n := d.chunk w
  let r := s.descBytes d w (w + n)
  let c0 := w / d.dstW * d.srcW / 4096
  let c1 := (w + n) / d.dstW * d.srcW / 4096
  let s := if bitOf d.ctl 28 then r.2.dmaVerify ch d d.srcSpace d.srcAddr ((List.range (c1 - c0)).map (fun i => c0 + i)) else r.2
  let s := if d.dstSpace = 2 then (s.mirrorSend d w r.1).mirrorBcvs d c0 c1 (decide (d.dstBytes ≤ w + n)) else s.spaceWrite d.dstSpace (d.dstAddr w) r.1
  let s := s.dmaHalf ch d.dstBytes w (w + n)
  (s.modDma ch (fun t => { t with written := w + n, retries := 0, busError := false })).put .el (Reg.DMA_RESIDUE_RESIDUE ch) (d.dstBytes - (w + n))

/-- A request of a channel is done (R393, R395): a channel in ABORTING ends its abort; a completed stream ends its descriptor. A transfer from the vault advances by restore messages. -/
def State.dmaRequest (s : State) (ch : Nat) : State :=
  let st := s.get .el (Reg.DMA_STAT_STATE ch)
  let fromVault := nbits (s.dma ch).ctl.toNat 17 16 == 2
  if !(s.dma ch).fetched then s
  else if st = 2 then (if fromVault then s else s.dmaChunk ch).dmaAborted ch
  else if st = 1 && !fromVault then
    let s := s.dmaChunk ch
    if (s.dma ch).total ≤ (s.dma ch).written then s.dmaDescOk ch else s
  else s

/-- The retries of a running descriptor are exhausted (R380, R394): RESULT with the cause, 0x7011, and the channel is HALTED. -/
def State.dmaHalt (s : State) (ch cause : Nat) : State :=
  let t := s.dma ch
  let pos := s.get .el (Reg.DMA_STAT_POS ch)
  let s := (s.dmaWriteBack ch stRetry cause).put .el (Reg.DMA_STAT_HALT ch) 1
  ((s.logW .el 0x07 0x7011 ch pos (t.total - t.written)).dmaEndFail ch stRetry).put .el (Reg.DMA_STAT_STATE ch) 3

/-- A word of the DMA buffer that stays bad (R380): PERSIST, PERR with port 11 and 0x7002 (log 117); its data is passed to no one, and a RUNNING channel ends as after its last retry, with cause PARITY. -/
def State.dmaBufBad (s : State) (ch w : Nat) : State :=
  let st := s.get .el (Reg.DMA_STAT_STATE ch)
  if !(s.dma ch).fetched || !(st == 1 || st == 2) then s
  else
    let s := ((s.put .el Reg.SPM_STAT_PERSIST 1).put .el Reg.SPM_PERR_PORT 11).put .el Reg.SPM_PERR_ADDR w
    let s := s.log .el 0x07 0x7002 0 (11 * 2 ^ 60 + w)
    if st = 2 then s.dmaAborted ch else s.dmaHalt ch 2

/-- A bus error (R394, R395, R398): retried while RUNNING up to RETRY_MAX times, then HALTED; in ABORTING it is not retried and ends the abort with cause BUS_ERROR. -/
def State.dmaError (s : State) (ch : Nat) : State :=
  let st := s.get .el (Reg.DMA_STAT_STATE ch)
  let t := s.dma ch
  let pos := s.get .el (Reg.DMA_STAT_POS ch)
  if !t.fetched then s
  else if st = 2 then (s.modDma ch (fun x => { x with busError := true })).dmaAborted ch
  else if st ≠ 1 then s
  else if t.retries < s.get .el (Reg.DMA_CTRL_RETRY_MAX ch) then
    ((s.count .el (Reg.DMA_CNT_RETRIES ch) 1).logW .el 0x07 0x7010 ch pos (t.retries + 1)).modDma ch (fun x => { x with retries := x.retries + 1, busError := true })
  else s.dmaHalt ch 1

end Sys2Proof.Machine
end

