-- ==== Sys2Proof/Machine/Dma.lean ====
section
/-! DEFINITION. The commands of the DMA channels and of the host's SPM and program apertures (chapter 12, R475, R476). -/

namespace Sys2Proof.Machine

/-- DMA_HOST_GO (R384, R450): an IDLE channel starts; else REFUSED and 0x7013 with 0xFF. A channel the instance lacks is reserved (R4). -/
def execDmaHostGo (ch : Fin 16) (count : BitVec 16) (s : State) : Out :=
  let c := ch.val
  .next (if s.el.lic.dmaCh ≤ c then s
    else if s.get .el (Reg.DMA_STAT_STATE c) ≠ 0 ∨ count = 0 ∨ !s.queueOn .move then (s.put .el (Reg.DMA_STAT_REFUSED c) 1).dmaRefused c 0xFF
    else s.dmaStart c count.toNat none)

/-- DMA_HOST_ABORT (R395). -/
def execDmaHostAbort (ch : Fin 16) (s : State) : Out := .next (s.dmaAbort ch stAborted)

/-- DMA_CLR_HALT (R383): HALTED becomes IDLE. -/
def execDmaClrHalt (ch : Fin 16) (s : State) : Out :=
  .next (if s.get .el (Reg.DMA_STAT_STATE ch) = 3 then s.put .el (Reg.DMA_STAT_STATE ch) 0 else s)

/-- DMA_DESCRIPTOR_FETCH (R385): by a RUNNING channel between two descriptors. -/
def execDmaDescriptorFetch (ch : Fin 16) (s : State) : Out :=
  .next (if s.get .el (Reg.DMA_STAT_STATE ch) = 1 ∧ !(s.dma ch).fetched ∧ 0 < (s.dma ch).left then s.dmaFetch ch else s)

/-- DMA_REQUEST_DONE (R393, R379, R380). A replayed SPM word is healed; of the words of the DMA buffer, the source read of a bad one is reissued, and one that stays bad ends the descriptor. -/
def execDmaRequestDone (ch : Fin 16) (r : DmaReads) (s : State) : Out :=
  let s := match r.replay with
    | some a => if (s.dma ch).fetched && !s.el.spmBad.contains (a.toNat / 8) then s.spmReplay 8 a.toNat 0 else s
    | none => s
  .next (match r.buf with
    | .good => s.dmaRequest ch
    | .healed w => (if (s.dma ch).fetched then s.spmReplay 11 w.toNat 0 else s).dmaRequest ch
    | .bad w => s.dmaBufBad ch w.toNat)

/-- DMA_BUS_ERROR (R394). -/
def execDmaBusError (ch : Fin 16) (s : State) : Out := .next (s.dmaError ch)

/-- VAULT_RESTORE_MESSAGE (R353, R390, R392): held until a channel runs with SRC_SPACE VAULT; another KIND is discarded and counted, and one for another die does nothing here. -/
def execVaultRestoreMessage (m : VaultMsg) (s : State) : Out :=
  .next (if m.kind.toNat < 4 ∨ 6 < m.kind.toNat then
      (match s.selLane with
      | some x => s.modLane .el x (fun l => { l with discards := l.discards + 1 })
      | none => s)
    else if m.target.toNat ≠ s.myPdi then s
    else
      let s := s.modEl (fun e => { e with restoreBuf := e.restoreBuf ++ [m] })
      State.restoreDrain s.el.restoreBuf.length s)

/-! ### The SPM aperture (R376, R380, R476) -/

/-- A host read of SPM that has passed its checks. -/
def State.spmHostRead (s : State) (addr : Nat) (size : AccSize) : State :=
  if s.el.spmBad.contains (addr / 8) then (s.spmPersist 10 (addr - addr % 8) 0).accessErr .el 6 2 addr false
  else s.answer .el (accHalf size addr (s.spmRaw addr)) false

/-- A host write of SPM that has passed its checks. -/
def State.spmHostWrite (s : State) (addr : Nat) (size : AccSize) (data : Word) : State :=
  match size with
  | .four => (s.spmPutBytes 10 addr (leBytes 4 (data.toNat % 2 ^ 32)) 0).answer .el 0 false
  | _ => (s.spmPut addr data).answer .el 0 false

/-- SPM_HOST_ACCESS (R476, R477, R379, R380). `replay` says that the read found a parity error that a replay healed. -/
def execSpmHostAccess (write : Bool) (addr : BitVec 24) (size : AccSize) (data : Word) (replay : Bool) (s : State) : Out :=
  let a := addr.toNat
  let c := accCause size a
  .next (if c ≠ 0 then s.accessErr .el c 2 a write
    else if s.spmBytes ≤ a then s.accessErr .el 3 2 a write
    else
      let s := if replay && !s.el.spmBad.contains (a / 8) then s.spmReplay 10 (a - a % 8) 0 else s
      if write then s.spmHostWrite a size data else s.spmHostRead a size)

/-- SPM_HOST_TIMEOUT (R376): HOST_TMO, its count, 0x7004; a read answers all ones with an error, a write is dropped. No cause of R483 names it, so IDENT_ERR is not written. -/
def execSpmHostTimeout (write : Bool) (addr : BitVec 24) (s : State) : Out :=
  .next ((((s.put .el Reg.SPM_STAT_HOST_TMO 1).count .el Reg.SPM_CNT_HOST_TMO 1).log .el 0x07 0x7004 0 addr.toNat).answer .el (if write then 0 else allOnes) true)

/-- A word of a program memory (R475): slot k of bundle b at 8k of its bytes. -/
def State.progWord (s : State) (p : Part) (addr : Nat) : Word := tget (0 : Word) (s.seq p).prog (addr / 8)

/-- PROG_APERTURE_READ (R475, R477): 0 while EMPTY, all ones with PROG_BUSY while LOADING, else the stored word; PARITY after a second parity failure; a write is ignored with PROG_WRITE. -/
def execProgApertureRead (write : Bool) (addr : BitVec 24) (size : AccSize) (parity : Bool) (s : State) : Out :=
  let a := addr.toNat
  let c := accCause size a
  let st := s.seqState .el
  .next (if write then s.accessErr .el 4 1 a true
    else if c ≠ 0 then s.accessErr .el c 1 a false
    else if st = 0 then s.answer .el 0 false
    else if st = 1 then s.accessErr .el 5 1 a false
    else if parity then s.accessErr .el 6 1 a false
    else s.answer .el (accHalf size a (s.progWord .el (a % 2 ^ 22))) false)

/-- SPM_CLEAR_DONE (R382): CLEARING falls, 0x7005. -/
def execSpmClearDone (cycles : Nat) (s : State) : Out :=
  .next (if s.bit .el Reg.SPM_STAT_CLEARING then (s.put .el Reg.SPM_STAT_CLEARING 0).log .el 0x07 0x7005 0 cycles else s)

end Sys2Proof.Machine
end

