-- ==== Sys2Proof/Machine/Frame.lean ====
section
/-! DEFINITION. The bytes of a ferry frame (R99) and of the messages it carries (R13, R82, R118, R126, R263, R296, R299, R306, R309, R331, R332, R353, R440, R448), and the authentication tag of VC5 and VC6 (R456 to R458). Multi-byte fields are little-endian (R6); what no rule lays down is free (log 92). -/

namespace Sys2Proof.Machine

/-! ### Records -/

/-- The 32 bytes of an event record (R13). -/
def recordBytes (r : EvtRec) : List Byte :=
  leBytes 4 r.ns.toNat ++ leBytes 4 r.frac.toNat ++ leBytes 4 r.secLo.toNat ++ leBytes 2 r.code.toNat ++ leBytes 2 r.source.toNat
    ++ leBytes 4 r.object.toNat ++ leBytes 4 r.waiter.toNat ++ leBytes 8 r.detail.toNat

/-- A join record in the bytes of R126, its reserved bytes 0. -/
def joinBytes (j : JoinRec) : List Byte :=
  [j.kind, j.plane, j.port, j.depth] ++ leBytes 4 j.pdi.toNat ++ leBytes 2 j.version.toNat ++ List.replicate 22 0

/-- The join record in 32 bytes (R126). -/
def joinOf (bs : List Byte) : JoinRec :=
  let b := fun i => bs.getD i 0
  { kind := b 0, plane := b 1, port := b 2, depth := b 3, pdi := BitVec.ofNat 32 (leNat ((bs.drop 4).take 4)), version := BitVec.ofNat 16 (leNat ((bs.drop 8).take 2)) }

/-- The 48 bytes of a time message (R82). -/
def timeBytes (m : TimeMsg) : List Byte :=
  let b := fun (x : Bool) (k : Nat) => if x then 2 ^ k else 0
  hxtBytes m.t1 ++ hxtBytes m.t4 ++ leBytes 2 m.seq.toNat ++ leBytes 2 m.echoSeq.toNat ++ leBytes 2 m.asym.toNat
    ++ leBytes 1 (b m.upbSel 5 + b m.epochTai 4 + b m.traceable 3 + m.dpll.toNat) ++ leBytes 1 m.depth.toNat ++ List.replicate 8 0

/-- A subject in the SUBJ form of R331. -/
def subjBytes (x : Subj) : List Byte := leBytes 4 (subjObj x)

/-- The values of a VC2 message (R263): 2, 8 or 16 bytes each by KIND. -/
def redValBytes (kind : Byte) (vs : List Int) : List Byte :=
  let n := if kind = 0 then 2 else if kind = 1 then 8 else 16
  vs.flatMap (fun v => leBytes n (unsigned (8 * n) v))

/-- The head of a VC2 message (R263): RID, KIND, FLAGS, NVAL, FIRST, SRC and STEP. -/
def redHead (rid : BitVec 12) (kind : Byte) (flags nval : Nat) (first src : BitVec 32) (step : Word) : List Byte :=
  leBytes 2 rid.toNat ++ [kind] ++ leBytes 1 flags ++ leBytes 2 nval ++ leBytes 2 0 ++ leBytes 4 first.toNat ++ leBytes 4 src.toNat ++ leBytes 8 step.toNat

/-- A reduction message (R263). -/
def redBytes (m : RedMsg) : List Byte :=
  redHead m.rid m.kind ((if m.min then 4 else 0) + (if m.sat then 2 else 0) + (if m.down then 1 else 0)) m.vals.length m.first m.src m.step
    ++ redValBytes m.kind m.vals

/-- A value entry of a cross-check (R309). -/
def histBytes (e : HistEntry) : List Byte := leBytes 8 e.fp.toNat ++ leBytes 4 e.blocks.toNat ++ leBytes 4 e.count

/-! ### Payloads (R99) -/

/-- Bytes cut to a length, or filled with zeros. -/
def padTo (n : Nat) (bs : List Byte) : List Byte := (bs ++ List.replicate (n - bs.length) 0).take n

/-- Bytes with others laid over them from an offset. -/
def layOver (bs : List Byte) (o : Nat) (cs : List Byte) : List Byte := bs.take o ++ cs ++ bs.drop (o + cs.length)

/-- The authority as a subject (R331): the root. -/
def rootSubj : Subj := { tier := 3, pdi := 0 }

/-- A part as the originator of a headcount message (R331). -/
def State.ownSubj (s : State) : Part → Subj
  | .el => dieSubj s.myPdi
  | .ux => s.chipSubj

/-- A VC6 message (R331, R332): its 48 bytes from its type, kind, subject, epoch, arguments and originator. -/
def hcBytes (type kind num : Nat) (subj : List Byte) (epoch arg0 arg1 arg2 : Nat) (origin : Subj) : List Byte :=
  leBytes 1 type ++ leBytes 1 kind ++ leBytes 2 num ++ subj ++ leBytes 4 epoch ++ leBytes 4 arg0 ++ leBytes 8 arg1 ++ leBytes 8 arg2 ++ subjBytes origin ++ List.replicate 12 0

/-- A VC5 message (R440) but for its tag: its type, LAST, number, addressee, offset, status and data. The number and the addressee of a message that answers no request are free (log 92). -/
def vc5Bytes (type : Nat) (last : Bool) (num target : List Byte) (addr status : Nat) (data : List Byte) : List Byte :=
  leBytes 1 type ++ leBytes 1 (if last then 1 else 0) ++ num ++ target ++ leBytes 8 addr ++ leBytes 2 data.length ++ leBytes 2 status ++ leBytes 4 0 ++ padTo 212 data

/-- The LEN and the payload of a message (R99), given its headcount number and the free bytes of this frame. -/
def State.msgBytes (s : State) (p : Part) (x num : Nat) (free : List Byte) (m : Msg) : Nat × List Byte :=
  let any := padTo 244 free
  let cut := fun (o n : Nat) => (any.drop o).take n
  let own := s.ownSubj p
  let ep := match p with
    | .el => s.get .el Reg.HC_STAT_EPOCH
    | .ux => s.get .ux Reg.UX_HC_STAT_EPOCH
  let hc := fun (type kind : Nat) (subj : List Byte) (epoch arg0 arg1 arg2 : Nat) (origin : Subj) => (48, hcBytes type kind num subj epoch arg0 arg1 arg2 origin)
  let vc5 := fun (type : Nat) (last : Bool) (num' target : List Byte) (addr status : Nat) (data : List Byte) => (244, vc5Bytes type last num' target addr status data)
  match m with
  | .timeMark t => (48, timeBytes t)
  | .upMark seq d => (48, leBytes 2 seq.toNat ++ leBytes 4 d.toNat)
  | .join j => (32, joinBytes j)
  | .leave => (0, [])
  | .away set => (1, [if set then 1 else 0])
  | .red r => (244, redBytes r)
  | .xchkUp rid src step (.hist es) => (244, redHead rid 0x10 0 es.length 0 src step ++ es.flatMap histBytes)
  | .xchkUp rid src step .overflow => (244, redHead rid 0x12 0 0 0 src step)
  | .xchkDown rid src step (some e) total =>
    (244, redHead rid 0x11 1 2 0 src step ++ histBytes e ++ histBytes { fp := 0, blocks := 0, count := total })
  | .xchkDown rid src step none _ => (244, redHead rid 0x13 1 0 0 src step)
  | .ledger ord recs => (244, leBytes 1 recs.length ++ leBytes 3 0 ++ leBytes 4 ord ++ recs.flatMap recBytes)
  | .sealMsg type lsi step => (16, leBytes 1 type ++ leBytes 3 0 ++ leBytes 4 lsi.toNat ++ leBytes 8 step.toNat)
  | .manCommit t => (24, leBytes 1 0x40 ++ leBytes 7 0 ++ hxtBytes t)
  | .hb h => hc 0x01 0 (subjBytes h.subj) h.epoch.toNat h.step.toNat
      (h.parity.toNat * 2 ^ 48 + h.slipOver.toNat * 2 ^ 40 + h.transient.toNat * 2 ^ 32 + h.permanent.toNat * 2 ^ 24)
      ((if h.stepMissed then 2 else 0) + (if h.dieFatal then 1 else 0)) h.subj
  | .hearReq y => hc 0x02 0 (subjBytes y) ep 0 0 0 own
  | .hearAns y age => hc 0x03 0 (subjBytes y) ep age.toNat 0 0 own
  | .propose q => hc 0x04 q.kind.toNat (subjBytes q.subj) q.epoch.toNat ((if q.hard then 256 else 0) + q.domain.toNat) (q.ageP.toNat * 2 ^ 32 + q.ageT.toNat) 0 q.origin
  | .vote v => hc 0x05 v.kind.toNat (subjBytes v.subj) v.epoch.toNat (if v.yes then 1 else 0) 0 0 v.origin
  | .decision d => hc 0x06 d.kind.toNat (subjBytes d.subj) d.epoch.toNat d.arg0.toNat d.target.toNat 0 rootSubj
  | .rollback step => hc 0x07 0 (cut 4 4) ep 0 step.toNat 0 rootSubj
  | .rbReady pdi next => hc 0x08 0 (subjBytes (dieSubj pdi.toNat)) ep 0 next.toNat 0 (dieSubj pdi.toNat)
  | .rbCommit tc => hc 0x09 0 (cut 4 4) ep 0 (hxtSecW tc).toNat (hxtNsfW tc).toNat rootSubj
  | .fence y => hc 0x0A 0 (subjBytes y) ep 0 0 0 rootSubj
  | .probation action k => hc 0x0B 0 (subjBytes (s.childSubj x)) ep action k 0 own
  | .vault v => (244, leBytes 1 v.kind.toNat ++ leBytes 1 v.lane.toNat ++ leBytes 2 v.data.length ++ leBytes 4 v.step.toNat ++ leBytes 4 v.ofs.toNat ++ leBytes 4 v.target.toNat ++ v.data)
  | .rdRsp seq addr status data => vc5 0x02 true (leBytes 2 seq.toNat) (cut 4 4) addr status data
  | .wrRsp seq addr status => vc5 0x04 true (leBytes 2 seq.toNat) (cut 4 4) addr status []
  | .event r => vc5 0x05 true (cut 2 2) (cut 4 4) 0 0 (recordBytes r)
  | .dump o n last => vc5 0x06 last (cut 2 2) (cut 4 4) o 0 ((List.range n).map (fun i => BitVec.ofNat 8 ((s.dumpAt p ((o + i) / 8)).toNat / 2 ^ (8 * ((o + i) % 8)))))
  | .attestReq nonce => vc5 0x07 true (cut 2 2) (subjBytes (s.childSubj x)) 0 0 nonce
  | .attestRsp status o data last => vc5 0x08 last (cut 2 2) (cut 4 4) o status data
  | .manPrep => vc5 0x09 true (cut 2 2) (subjBytes (s.childSubj x)) 0 0 []
  | .manVote _ _ _ => vc5 0x0A true (cut 2 2) (cut 4 4) 0 0 (cut 24 212)
  | .ann _ _ | .annAnswer _ _ | .barArrival _ _ _ _ | .barRelease _ _ _ | .barRefusal _ _ _ | .launchReq _ | .launchAnswer _ _ | .launch _
  | .delayReport _ | .ledgerAck _ | .manDisarm => (((cut 0 1).headD 0).toNat % 245, any)

/-- A long message goes out in fragments of up to 212 bytes (R440): their offsets and lengths, and whether each is the last. -/
def fragments (n : Nat) : List (Nat × Nat × Bool) :=
  (List.range (max 1 (ceilDiv n 212))).map (fun i => (212 * i, min 212 (n - 212 * i), decide (n ≤ 212 * (i + 1))))

/-! ### Authentication (R456 to R458) -/

/-- The hall key in use: 32 bytes, zero until one is committed. -/
def State.hallKeyOf (s : State) (p : Part) : List Byte := padTo 32 (s.base p).hallKey

/-- The child's PDI and the parent's lane index of a link (R457). A child of a chip is the one its downlink serves; of a link between twins or partners it is the end that is not the parent (log 8). -/
def State.linkEnds (s : State) (p : Part) (x : Nat) : Nat × Nat :=
  let l := s.lane p x
  let own := s.get .ux Reg.UX_IDENT_ROLE_POS * 128
  match p with
  | .el => (l.joinPdi.toNat, l.partnerPort)
  | .ux =>
    if x < 128 then ((s.childSubj x).pdi.toNat, x)
    else if s.laneParent .ux x then (if 152 ≤ x then own else s.partnerPos x * 128, x)
    else (own, l.partnerPort)

/-- The plane of a lane: an Elesh's A and B, or the chip's own (R126). -/
def State.planeOf (s : State) (p : Part) (x : Nat) : Nat :=
  match p with
  | .el => x
  | .ux => s.get .ux Reg.UX_IDENT_ROLE_PLANE

/-- The link key of a lane (R457): the first 32 bytes of HKDF of the hall key; the widths of the info's fields are those the spec's records give them, 1, 4 and 2 bytes (log 15). -/
def State.linkKey (s : State) (p : Part) (x : Nat) (hall : List Byte) : List Byte :=
  let e := s.linkEnds p x
  (hkdf384 hall ([0x48, 0x58, 0x4C, 0x31] ++ leBytes 1 (s.planeOf p x) ++ leBytes 4 e.1 ++ leBytes 2 e.2)).take 32

/-- The IV of a frame (R456): direction, key generation, the parent's lane index, the frame counter. -/
def authIv (dir gen lane ctr : Nat) : List Byte := leBytes 1 dir ++ leBytes 1 gen ++ leBytes 2 lane ++ leBytes 8 ctr

/-- The tag of a frame under a key, a generation and a counter (R456), over its additional data: TYPE, VCF, SEQ, LEN and all but the last 8 payload bytes. -/
def State.frameTag (s : State) (p : Part) (x dir : Nat) (head payload : List Byte) (hall : List Byte) (gen ctr : Nat) : List Byte :=
  gmacTag (s.linkKey p x hall) (authIv dir gen (s.linkEnds p x).2 ctr) (head ++ payload.take 236)

/-! ### Frames (R99, R100) -/

/-- The type of the frame a message goes in. -/
def Msg.frameType : Msg → Nat
  | .join _ => 2
  | .leave => 3
  | .away _ => 4
  | _ => 1

/-- The number of a headcount message (R331): the next one, or, for a copy or a resend of one of the last 64 messages, that message's own. -/
def State.hcNumber (s : State) (p : Part) (m : Msg) : Nat × State :=
  let b := s.base p
  match b.hcNums.find? (fun e => e.1 == m) with
  | some e => (e.2, s)
  | none => (b.hcNext, s.mod p (fun b => { b with hcNums := ((m, b.hcNext) :: b.hcNums).take 64, hcNext := (b.hcNext + 1) % 2 ^ 16 }))

/-- The bytes of a new frame that a replay repeats (R99, R118, R456), and the state that has drawn its free bytes: a mark sets MARK, a frame of VC5 or VC6 carries its tag, a JOIN none. -/
def State.frameBody (s : State) (p : Part) (x vc : Nat) (m : Msg) : FrameBody × State :=
  let free := Config.openPayload s.draws
  let s : State := { s with draws := s.draws + 1 }
  let n := if vc = 6 then s.hcNumber p m else (0, s)
  let s := n.2
  let b := s.msgBytes p x n.1 free m
  let auth := (vc == 5 || vc == 6) && m.frameType != 2
  let type : Byte := BitVec.ofNat 8 m.frameType
  let vcf : Byte := BitVec.ofNat 8 (vc + (if vc = 0 then 8 else 0) + (if auth then 16 else 0))
  let len : Byte := BitVec.ofNat 8 b.1
  let pay := padTo 244 b.2
  let l := s.lane p x
  let tag := s.frameTag p x (if s.laneParent p x then 0 else 1) [type, vcf, l.nextSeq, len] pay (s.hallKeyOf p) (s.get p Reg.SEC_LKGEN_GEN) l.authCtr
  ({ type := type, vcf := vcf, len := len, payload := if auth then pay.take 236 ++ tag else pay }, s)

/-- An IDLE frame carries no message. -/
def idleBody : FrameBody := { type := 0, vcf := 0, len := 0, payload := List.replicate 244 0 }

/-- The 252 bytes of a frame that its CRC covers (R99). -/
def frameBytes (f : RxFrame) : List Byte :=
  [f.type, f.vcf, f.seq, f.ackSeq, f.ackf, f.len] ++ leBytes 2 f.credit.toNat ++ f.payload

/-- A frame as its receiver finds it: the frame that left, with its CRC (R99, R100). -/
def WireFrame.rx (w : WireFrame) : RxFrame :=
  let f : RxFrame := RxFrame.mk w.body.type w.body.vcf w.seq w.ackSeq (BitVec.ofNat 8 ((if w.nak then 2 else 0) + (if w.ackValid then 1 else 0))) w.body.len
    (BitVec.ofNat 16 (w.creditVc * 2 ^ 13 + w.credit % 256)) w.body.payload 0
  { f with crc := crc32 (frameBytes f) }

/-- The 256 bytes of a frame on the wire (R99). -/
def WireFrame.bytes (w : WireFrame) : List Byte := frameBytes w.rx ++ leBytes 4 w.rx.crc.toNat

end Sys2Proof.Machine
end

