-- ==== Sys2Proof/Machine/Guard.lean ====
section
/-! DEFINITION. The rows of the guard: watchdogs, hangs, the crash dump and the reset ladder (R422 to R433). -/

namespace Sys2Proof.Machine

/-! ### Triggers (R424, R425) -/

/-- The watchdog of a unit: its bit in EN and in the window mask (R423, R424, R433). -/
def wdBit (p : Part) (u : Nat) : Option Nat :=
  match p with
  | .el => if 2 ≤ u && u ≤ 8 then some (u - 2) else none
  | .ux => if u = 0x41 then some 0 else if u = 0x44 then some 1 else if u = 0x43 then some 2 else none

/-- The ticks a watchdog runs before it expires. -/
def State.wdLimit (s : State) (p : Part) : Nat := s.get p Reg.GUARD_WD_TMO * prescale (s.get p Reg.GUARD_WD_PRE)

/-- WATCHDOG (R424): an enabled watchdog of a RUNNING part, its unit outside an open window, has counted TMO times its prescale. -/
def execWatchdog (p : Part) (unit : Byte) (s : State) : Out :=
  .next (match wdBit p unit.toNat with
    | some i =>
      if bitOf (s.get p Reg.GUARD_WD_EN) i && s.seqState p == 3 && !bitOf (s.windowMask p) i && s.wdLimit p ≤ tget 0 (s.base p).wdCount i then
        (s.log p (unitGuard p) 0x8020 unit.toNat (s.get p Reg.GUARD_WD_TMO)).guardTrigger p 1 unit.toNat 1 false
      else s
    | none => s)

/-- The guard's unit of a sequencer. -/
def seqUnit : Part → Nat
  | .el => 1
  | .ux => 0x41

/-- The culprit of a hang with a cause code of R425; none where the sequencer's state does not bear that cause. -/
def State.hangCulprit (s : State) (p : Part) (cause : Nat) : Option Nat :=
  let st := s.seqState p
  if cause = 9 then
    if st = 4 then ((queueList p).find? (fun q => s.queueUsed q != 0)).map queueGuardUnit else none
  else if st = 3 && !(cause == 0 || cause == 1 || cause == 6) then
    match (s.seq p).hold with
    | .other 3 u => if cause = 3 then some u else none
    | .anchor _ _ => none
    | .waitc _ _ _ _ _ _ _ => none
    | _ => if cause = 3 then none else some (seqUnit p)
  else none

/-- HANG (R425): the hang counter has reached HANG_WINDOW times 1,024; the count of cycles is the command's. -/
def execHang (p : Part) (cause : Fin 10) (s : State) : Out :=
  .next (match s.hangCulprit p cause.val with
    | some u => (s.log p (unitGuard p) 0x8021 u cause.val).guardTrigger p 2 u 1 false
    | none => s)

/-! ### The crash dump (R430 to R432) -/

/-- A dump in progress holds a word of a unit's section. -/
def State.dumpWordIn (s : State) (p : Part) (u w : Nat) : Bool :=
  match p with
  | .el => (dumpSections s.el.lic .el).any (fun x => x.1 == u && decide (8 * w < x.2))
  | .ux => uxDumpUnits.contains u

/-- DUMP_READ_TIMEOUT (R430): the rest of the section is NOT_DUMPED from this word on. -/
def execDumpReadTimeout (p : Part) (unit : Byte) (word : BitVec 32) (s : State) : Out :=
  .next (if s.bit p Reg.GUARD_STAT_DUMP_BUSY && s.dumpWordIn p unit.toNat word.toNat then
      s.modGuard p (fun g => { g with dump := g.dump.map (fun d => if (d.firstBad unit.toNat).isSome then d else { d with bad := d.bad ++ [(unit.toNat, word.toNat)] }) })
    else s)

/-- DUMP_COMPLETE (R432): DUMP_VALID, 0x8025 with the NOT_DUMPED mask, the dump on VC5 where DUMP_PUSH asks for it; then the guard's action proceeds (R426). -/
def execDumpComplete (p : Part) (s : State) : Out :=
  .next (match (s.guard p).dump, s.bit p Reg.GUARD_STAT_DUMP_BUSY with
    | some d, true =>
      let s := (s.put p Reg.GUARD_STAT_DUMP_BUSY 0).put p Reg.GUARD_STAT_DUMP_VALID 1
      let s := (s.modGuard p (fun g => { g with dump := some { d with done := true } })).log p (unitGuard p) 0x8025 d.unit (d.mask p)
      let s := if s.bit p Reg.GUARD_CTRL_DUMP_PUSH then (fragments (d.bytes s.el.lic p)).foldl (fun t f => t.sendUp p (.dump f.1 f.2.1 f.2.2)) s else s
      s.guardProceed p
    | _, _ => s)

/-! ### The reset ladder (R427, R428, R433) -/

/-- The domain of a unit. -/
def unitDomain : Part → Nat → Nat
  | .el => elUnitDomain
  | .ux => uxUnitDomain

/-- The domains that stage 3 resets. -/
def stage3Domains : Part → List Nat
  | .el => [1, 2, 3, 4, 5]
  | .ux => uxWarmDomains

/-- A received firmware image is activated at the warm reset (R439). -/
def State.fwActivate (s : State) : State :=
  match s.ux.fwNext with
  | some h => (s.mod .ux (fun b => { b with fwHash := h })).modUx (fun u => { u with fwNext := none })
  | none => s

/-- RESET_DONE_REPORT (R427): stages 1 and 2 succeed at the report of the culprit's unit or domain, stage 3 at the last domain's. A domain's release sends an alignment pulse (R410), and with MGMT the PCIe endpoint trains again (R437). -/
def execResetDoneReport (p : Part) (d : Fin 24) (s : State) : Out :=
  .next (if p == .ux && s.ux.tripped then s else match (s.guard p).phase with
    | .stage 3 =>
      if (stage3Domains p).contains d.val && !(s.guard p).done.contains d.val then
        let s := ((s.setDstate p d.val 2).alignDomain p d.val).modGuard p (fun g => { g with done := g.done ++ [d.val] })
        let s := if p == .ux && d.val == 1 then s.pcieTrain else s
        if (stage3Domains p).all (fun x => (s.guard p).done.contains x) then
          match p with
          | .el => s.guardEnd .el
          | .ux => (s.guardEnd .ux).fwActivate
        else s
      else s
    | .stage n => if d.val = unitDomain p (s.guard p).culprit then (if n = 2 then (s.setDstate p d.val 2).alignDomain p d.val else s).guardEnd p else s
    | _ => s)

/-- STAGE_TIMEOUT (R427, R428, R433): 0x8027 and the next stage; a failure in E0 goes from stage 1 to the warm reset. At the end of a stage 3 that failed, an Elesh stops its heartbeats, and a Uhloux keeps its lanes down and asks for replacement. -/
def execStageTimeout (p : Part) (s : State) : Out :=
  .next (match (s.guard p).phase with
    | .stage n =>
      let s := s.log p (unitGuard p) 0x8027 (s.guard p).culprit n
      if n = 1 then s.stageStart p (if p == .ux && uxUnitDomain (s.guard .ux).culprit == 15 then 3 else 2)
      else if n = 2 then s.stageStart p 3
      else match p with
        | .el => (s.modGuard .el (fun g => { g with hbStopped := true })).guardEnd .el
        | .ux => ((s.modUx (fun u => { u with lanesHeld := true })).replaceSet 4).guardEnd .ux
    | _ => s)

/-- FATAL_CLR after stage 3 has ended (R428, R429): DIE_FATAL and MEM_RETAIN_REQ fall, and a rollback request held by the guard is asserted. -/
def State.fatalClr (s : State) (p : Part) : State :=
  if s.bit p Reg.GUARD_STAT_DIE_FATAL && (s.guard p).phase != .stage 3 then
    ((s.put p Reg.GUARD_STAT_DIE_FATAL 0).put p Reg.GUARD_STAT_MEM_RETAIN 0).rbRequest p
  else s

/-- FATAL_CLR (R428). -/
def execFatalClr (p : Part) (s : State) : Out := .next (s.fatalClr p)

/-- FAULT_HOLD written 0 (R426): a held action proceeds with the step kill and the ladder. -/
def State.faultHoldOff (s : State) (p : Part) : State :=
  let s := s.put p Reg.GUARD_CTRL_FAULT_HOLD 0
  if (s.guard p).phase = .heldFault then s.guardProceed p else s

/-- FAULT_HOLD_RELEASE (R426). -/
def execFaultHoldRelease (p : Part) (s : State) : Out := .next (s.faultHoldOff p)

end Sys2Proof.Machine
end

