-- ==== Sys2Proof/Machine/Hc.lean ====
section
/-! DEFINITION. The commands of headcount: heartbeats, suspicion, votes, decisions, rollback, fencing, health and path commands (chapter 11). -/

namespace Sys2Proof.Machine

/-! ### Heartbeats -/

/-- The heartbeat of this die (R332). -/
def State.elHb (s : State) : Hb :=
  let c := s.el.hbCounts
  { subj := dieSubj s.myPdi, step := BitVec.ofNat 32 s.stepCur, epoch := BitVec.ofNat 32 (s.get .el Reg.HC_STAT_EPOCH),
    parity := BitVec.ofNat 16 (min 65535 c.parity), slipOver := BitVec.ofNat 8 (min 255 c.slipOver), transient := BitVec.ofNat 8 (min 255 c.transient),
    permanent := BitVec.ofNat 8 (min 255 c.permanent), stepMissed := c.stepMissed, dieFatal := s.bit .el Reg.GUARD_STAT_DIE_FATAL }

/-- The heartbeat of this chip (R332). -/
def State.uxHb (s : State) : Hb :=
  { subj := s.chipSubj, step := 0, epoch := s.epoch, parity := 0, slipOver := 0, transient := 0, permanent := 0, stepMissed := false, dieFatal := false }

/-- A message goes out on a lane that is ACTIVE. -/
def State.sendActive (s : State) (p : Part) (x : Nat) (m : Msg) : State := if s.laneState p x = 4 then s.send p x m else s

/-- A new heartbeat takes a number of its own (R331). -/
def State.hbNew (s : State) (p : Part) : State :=
  s.mod p (fun b => { b with hcNums := b.hcNums.filter (fun e => match e.1 with
    | .hb _ => false
    | _ => true) })

/-- HB_SEND (R330, R428): a die on both lanes, unless its guard has stopped heartbeats; a leaf on its uplinks and one lane to each partner and the twin; a spine on U0; a root to its twin. -/
def execHbSend (p : Part) (s : State) : Out :=
  match p with
  | .el =>
    if (s.guard .el).hbStopped then .next s
    else
      let m := Msg.hb s.elHb
      let s := (s.hbNew .el).modEl (fun e => { e with hbCounts := { parity := 0, slipOver := 0, transient := 0, permanent := 0, stepMissed := false } })
      .next ((s.sendActive .el 0 m).sendActive .el 1 m)
  | .ux =>
    let m := Msg.hb s.uxHb
    let s := s.hbNew .ux
    .next (match s.tier with
      | 0 => (((s.sendActive .ux 128 m).sendActive .ux 129 m).toPartners m).toTwin m
      | 1 => s.sendActive .ux 128 m
      | _ => s.sendActive .ux 152 m)

/-- The points a die's heartbeat adds (R363), and the hard failure of a CLASS_PERMANENT after an action (R365). -/
def State.hbHealth (s : State) (x : Nat) (m : Hb) : State :=
  let acted := s.bit .ux (Reg.UX_LANE_HC_SUSPECT_ACT x)
  let s := s.healthAdd x (32 * m.transient.toNat) true
  let s := s.healthAdd x (m.parity.toNat + 4 * m.slipOver.toNat + 64 * m.permanent.toNat + (if m.stepMissed then 16 else 0) + (if m.dieFatal then 64 else 0)) false
  if m.permanent = 0 then s
  else
    let s := s.put .ux (Reg.UX_LANE_HC_SUSPECT_ACT x) 1
    if acted || decide (2 ≤ m.permanent.toNat) then s.propose m.subj true 0 0 else s

/-- HB_MESSAGE (R326, R333, R343, R363, R365, R367): a FENCED subject's is ignored; a SUSPECT one is a member again; a JOINING die that has attested is STANDBY; a member die's counts reach its health score; STEP_MISSED or DIE_FATAL of a member goes to the authority, which answers with ROLLBACK_ONLY unless a rollback is open. -/
def execHbMessage (lane : Fin 160) (m : Hb) (s : State) : Out :=
  let x := m.subj
  let st := s.codeOf x
  if st = 5 then .next s
  else
    let s := s.hbHeard x
    let s := if st = 4 then (s.setMembership x 3).dropProposals x else s
    let s := if st = 1 ∧ s.tier = 0 ∧ lane.val < 128 ∧ s.ux.attested.contains lane.val ∧ x = dieSubj (s.pdiOf lane) then (s.setMember x.pdi.toNat 2).spareEvent else s
    let s := if x.tier ≠ 0 ∧ st = 0 ∧ (s.childLane x).isSome then s.setMembership x 3 else s
    let s := if s.tier = 0 ∧ lane.val < 128 ∧ x = dieSubj (s.pdiOf lane) then s.hbHealth lane m else s
    let relayed := s.tier ≠ 0 ∧ x.tier = 0
    .next (if (m.stepMissed || m.dieFatal) && (inMembers st || relayed) then
        if s.authority then (if s.ux.rollback.isSome then s else s.publish x 4 0 true)
        else s.toAuthority (.hb m)
      else s)

/-! ### Suspicion -/

/-- A silent subject is proposed (R334, R335); of a chip there is no twin's age, which reads as all-ones (log 39). -/
def State.silent (s : State) (x : Subj) (ageT : Nat) : State := s.propose x true (s.hbAge x) ageT

/-- HB_MISS (R333, R334): the miss is counted and AGE follows; at the third a member is SUSPECT with 0x6001, a leaf asks its twin about a die, any other observer proposes. -/
def execHbMiss (subj : Subj) (nth : Fin 4) (ageNs : BitVec 32) (s : State) : Out :=
  let o := s.obsOf subj
  let s := s.setObs subj { o with at' := s.tick .ux, age := ageNs.toNat, misses := nth }
  let s := match s.childLane subj with
    | some l => s.put .ux (Reg.UX_LANE_HC_AGE l) (min 65535 (ageNs.toNat / 1000))
    | none => s
  .next (if nth = 3 ∧ s.codeOf subj = 3 then
      let s := s.suspect subj ageNs.toNat
      if subj.tier = 0 then s else s.silent subj 0xFFFFFFFF
    else s)

/-- HEAR_REQ (R334): the age of the die's last heartbeat on this plane; all-ones when its lane is not ACTIVE. -/
def execHearReq (subj : Subj) (lane : Fin 160) (s : State) : Out :=
  let up := match s.childLane subj with
    | some l => s.laneState .ux l == 4
    | none => false
  .next (s.send .ux lane (.hearAns subj (BitVec.ofNat 32 (if up then s.hbAge subj else 0xFFFFFFFF))))

/-- The twin's answer (R334): below 30 µs the die is alive on the other plane, 0x6002; else it is silent. -/
def State.hearTake (s : State) (x : Subj) (age : Nat) : State :=
  if (s.obsOf x).asked && s.codeOf x == 4 then
    let s := s.setObs x { s.obsOf x with asked := false }
    if age < 30000 then (s.log .ux 0x42 0x6002 (subjObj x) age).setMembership x 3 else s.silent x age
  else s

/-- HEAR_ANS (R334). -/
def execHearAns (subj : Subj) (ageNs : BitVec 32) (s : State) : Out := .next (s.hearTake subj ageNs.toNat)

/-- HEAR_TIMEOUT (R334). -/
def execHearTimeout (subj : Subj) (s : State) : Out := .next (s.hearTake subj 0xFFFFFFFF)

/-! ### Proposals, votes, decisions -/

/-- PROPOSE (R335, R336, R338): logged as 0x6003; counted where votes are counted, else voted on and passed on. A reserved KIND is discarded and counted (R332). -/
def execPropose (m : ProposeMsg) (s : State) : Out :=
  if 7 < m.kind.toNat then .next (s.count .ux Reg.UX_HC_STAT_DISCARDS 1)
  else
    let s := s.log .ux 0x42 0x6003 (subjObj m.subj) ((if m.hard then 256 else 0) + m.kind.toNat)
    .next (if s.counts m.subj then s.proposalTake m
      else
        let v : VoteMsg := { subj := m.subj, kind := m.kind, yes := s.votesYes m, epoch := s.epoch, origin := s.chipSubj }
        let s := if s.isVoter m then (s.modUx (fun u => { u with votesOut := u.votesOut.filter (fun w => w.subj != v.subj) ++ [v] })).toAuthority (.vote v) else s
        if s.forwards m then s.toAuthority (.propose m) else s)

/-- VOTE (R336, R338): a yes is counted once for each voter. -/
def execVote (m : VoteMsg) (s : State) : Out :=
  .next (if s.counts m.subj then
      (if m.yes && s.codeOf m.subj != 5 && !s.decided m.subj m.epoch then s.addYes m.subj m.origin none else s)
    else s.toAuthority (.vote m))

/-- PROPOSE_RESEND (R336): this chip's vote and its proposal are sent again every 50 µs until the subject is settled. -/
def execProposeResend (subj : Subj) (s : State) : Out :=
  let s := (s.ux.votesOut.filter (fun v => v.subj == subj)).foldl (fun t v => t.toAuthority (.vote v)) s
  .next (match s.openProposal subj with
    | some q => (match q.msg with
      | some m => if m.origin = s.chipSubj then s.toAuthority (.propose m) else s
      | none => s)
    | none => s)

/-- AUTHORITY_SELF_VOTE (R336): with both ages at or above 30 µs, or HARD, the authority's own yes settles the proposal. -/
def execAuthoritySelfVote (subj : Subj) (s : State) : Out :=
  .next (match (if s.counts subj then s.openProposal subj else none) with
    | some q => (match q.msg with
      | some m => if m.hard || (decide (30000 ≤ m.ageP.toNat) && decide (30000 ≤ m.ageT.toNat)) then s.settle subj m.domain.toNat else s
      | none => s)
    | none => s)

/-- DECISION at a die (R328, R329, R346, R349): one that expels it is EXPELLED, or stays FENCED, with the step kill; a spare learns its assignment; a shrink sends the dies of the failed die's replica to STANDBY, whose LSI no message carries and is free (log 35). -/
def State.elDecision (s : State) (m : DecisionMsg) : State :=
  let k := m.kind.toNat
  let s := s.put .el Reg.HC_STAT_EPOCH m.epoch.toNat
  if m.subj = dieSubj s.myPdi ∧ (k = 1 ∨ k = 2 ∨ k = 3 ∨ k = 7) then
    let s := if s.get .el Reg.HC_STAT_STATE = 5 then s else s.put .el Reg.HC_STAT_STATE 6
    s.probEnd.stepKill
  else if k = 1 ∧ m.arg0.toNat = s.myPdi then s.modEl (fun e => { e with spareNamed := true })
  else if k = 2 ∧ inMembers (s.get .el Reg.HC_STAT_STATE) then
    let d := s.draw
    let w := 2 ^ (s.seq .el).lsiSplit
    if d.1.toNat % w = s.lsi % w then (d.2.put .el Reg.HC_STAT_STATE 2).probEnd else d.2
  else s

/-- DECISION (R328, R337): a chip passes it down and applies it. A reserved KIND is discarded and counted. -/
def execDecision (p : Part) (m : DecisionMsg) (s : State) : Out :=
  let k := m.kind.toNat
  match p with
  | .el => .next (s.elDecision m)
  | .ux =>
    if k = 0 ∨ 7 < k then .next (s.count .ux Reg.UX_HC_STAT_DISCARDS 1)
    else .next (((s.put .ux Reg.UX_HC_STAT_EPOCH m.epoch.toNat).sendDown downLanes (.decision m)).decisionApply m.subj k m.arg0.toNat)

/-! ### Rollback -/

/-- ROLLBACK at a die (R345, R429, R449): the seal first, then the step kill, then the request to the surroundings, which a guard action holds back. -/
def State.elRollback (s : State) (step : Word) : State :=
  let last := s.reg .el Reg.CHK_SEAL_LAST.off
  let s := if step ≠ noStep ∧ (last = noStep ∨ last.toNat < step.toNat) then s.elSeal step else s
  let s := (s.stepKill.manDisarm .el).put .el Reg.HC_STAT_ROLLBACK 1
  let s := s.modEl (fun e => { e with restored := false, readySent := false, ports := { e.ports with rbStep := step } })
  if s.guardActive .el then s.modGuard .el (fun g => { g with rbHeld := true })
  else s.modEl (fun e => { e with ports := { e.ports with rollbackReq := true } })

/-- ROLLBACK (R345). -/
def execRollback (p : Part) (step : Word) (s : State) : Out :=
  match p with
  | .el => .next (s.elRollback step)
  | .ux => .next ((s.sendDown downLanes (.rollback step)).uxRollback step)

/-- RB_READY (R347): taken at the authority, else passed on. -/
def execRbReady (pdi : BitVec 20) (next : Word) (s : State) : Out :=
  .next (if s.authority then s.rbReadyTake pdi.toNat else s.toAuthority (.rbReady pdi next))

/-- RB_COMMIT (R347): a chip passes it down; the part commits at T_c. -/
def execRbCommit (p : Part) (tc : Nat) (s : State) : Out :=
  let s := match p with
    | .el => s
    | .ux => s.sendDown downLanes (.rbCommit tc)
  .next (s.mod p (fun b => { b with rbAt := some tc }))

/-- RESTORED_WRITE (R346, R428): ignored until FATAL_CLR. -/
def execRestoredWrite (s : State) : Out :=
  .next (if s.bit .el Reg.GUARD_STAT_DIE_FATAL then s else (s.modEl (fun e => { e with restored := true })).readyTry)

/-! ### Fencing and management commands -/

/-- FENCE_MESSAGE (R362): the subject is FENCED, at the die and at its leaf; a chip passes it on towards the subject. -/
def execFenceMessage (p : Part) (subj : Subj) (s : State) : Out :=
  match p with
  | .el => .next (if subj = dieSubj s.myPdi then (s.put .el Reg.HC_STAT_STATE 5).probEnd else s)
  | .ux =>
    let s := match s.portOf subj.pdi.toNat with
      | some l => s.sendActive .ux l (.fence subj)
      | none => s
    .next ((s.leaves subj 5).dropProposals subj)

/-- PROBATION at a die (R364, R365): the step is taken, K waits for the next step start. -/
def execProbation (action : BitVec 32) (k : BitVec 16) (s : State) : Out :=
  .next (((s.put .el Reg.HC_STAT_PROBATION 1).modEl (fun e => { e with probK := some k.toNat })).probAct action.toNat)

/-- HEALTH_DECAY (R363): every member die's score falls by 1. -/
def execHealthDecay (s : State) : Out :=
  .next (downLanes.foldl (fun t x =>
    if t.tier == 0 && inMembers (t.member (t.pdiOf x)) then t.put .ux (Reg.UX_LANE_HC_HEALTH x) (t.get .ux (Reg.UX_LANE_HC_HEALTH x) - 1) else t) s)

/-- A write of UX_HC_CMD that R370 refuses: more than one action, or a PDI on no downlink of the hall. -/
def hcRefused (w : Word) : Bool := 1 < fget w 20 20 + fget w 21 21 + fget w 22 22 || 2 ^ 18 ≤ fget w 19 0

/-- A write of UX_HC_CMD: it takes effect at the authority (R369), and is refused as R370 says with 0x6032. -/
def State.hcCmd (s : State) (w : Word) (act : Subj → State) : State :=
  if !s.authority then s
  else if hcRefused w then s.log .ux 0x42 0x6032 (fget w 19 0) w.toNat
  else act (dieSubj (fget w 19 0))

/-- HC_READMIT (R326, R369): a FENCED or EXPELLED die is STANDBY, at the authority and at the die (log 113), and may serve a wait. -/
def execHcReadmit (w : Word) (s : State) : Out :=
  .next (s.hcCmd w (fun x =>
    let c := s.codeOf x
    let s := if s.myPdi = x.pdi.toNat ∧ (s.get .el Reg.HC_STAT_STATE = 5 ∨ s.get .el Reg.HC_STAT_STATE = 6) then (s.put .el Reg.HC_STAT_STATE 2).probEnd else s
    if c = 5 ∨ c = 6 then ((s.leaves x 2).modUx (fun u => { u with proposals := u.proposals.filter (fun q => q.subj != x) })).spareEvent else s))

/-- HC_ADVISE_FAILED (R361): membership does not change; VIEW_CONFLICT is set at the die, and at its leaf where this chip is it. -/
def execHcAdviseFailed (w : Word) (s : State) : Out :=
  .next (s.hcCmd w (fun x =>
    let c := s.codeOf x
    if c = 0 ∨ inMembers c then
      let s := if s.myPdi = x.pdi.toNat then s.put .el Reg.HC_STAT_VIEW_CONFLICT 1 else s
      let s := match s.dieLane x.pdi.toNat with
        | some l => s.put .ux (Reg.UX_LANE_HC_VIEW_CONFLICT l) 1
        | none => s
      s.log .ux 0x42 0x6030 (subjObj x) 0
    else s))

/-- HC_FENCE (R362): FENCE goes in-band, 0x6031, and a hard decision follows without a vote. -/
def execHcFence (w : Word) (s : State) : Out :=
  .next (s.hcCmd w (fun x =>
    let m := Msg.fence x
    let s := match s.portOf x.pdi.toNat with
      | some l => s.sendActive .ux l m
      | none => s
    let s := ((s.toTwin m).leaves x 5).log .ux 0x42 0x6031 (subjObj x) 0
    let i := s.deadInfo x.pdi.toNat
    i.2.settle x i.1.1))

/-! ### Path commands (R341, R462) -/

/-- A path set has ended other than OK: the spare's entry is UNAVAILABLE, 0x6011, and the die it replaced is decided again (R341). -/
def State.pathFailed (s : State) (pathset status : Nat) : State :=
  let s := (s.pathShow pathset status).modUx (fun u => { u with paths := u.paths.filter (fun c => c.pathset != pathset) })
  match s.ux.rollback with
  | none => s
  | some r =>
    match r.assigned.find? (fun a => a.2.2 == pathset) with
    | none => s
    | some (dead, spare, _) =>
      let s := s.spareList.foldl (fun t i => if sparePdi (t.spareEntry i) = spare ∧ spareState (t.spareEntry i) = 1 then t.spareMark i 2 else t) s
      let s := s.log .ux 0x42 0x6011 (subjObj (dieSubj spare)) status
      let s := s.modRb (fun r => { r with assigned := r.assigned.filter (fun a => a.2.2 != pathset), waitFor := r.waitFor.filter (fun d => d != spare), ready := r.ready.filter (fun d => d != spare) })
      let i := s.deadInfo dead
      i.2.decideOn (dieSubj dead) i.1.1

/-- A path command has its final status (R462): the first other than OK ends its set; the last OK completes it. -/
def State.pathFinal (s : State) (seq status : Nat) : State :=
  match s.ux.paths.find? (fun c => c.seq == seq && c.status.isNone) with
  | none => s
  | some c =>
    if status ≠ 0 then s.pathFailed c.pathset status
    else
      let s := s.modUx (fun u => { u with paths := u.paths.map (fun y => if y.seq == seq then { y with status := some 0 } else y) })
      if s.ux.paths.all (fun y => y.pathset != c.pathset || y.status.isSome) then
        ((s.pathShow c.pathset 0).modUx (fun u => { u with paths := u.paths.filter (fun y => y.pathset != c.pathset) })).rbTry
      else s

/-- PATH_REPLY (R461, R462): BUSY waits for a resend; a reserved code is FAULT. -/
def execPathReply (seq : BitVec 32) (status : Byte) (s : State) : Out :=
  let st := status.toNat
  .next (if st = 1 then s.modUx (fun u => { u with paths := u.paths.map (fun c => if c.seq == seq.toNat then { c with busy := true } else c) })
    else s.pathFinal seq.toNat (if st ≤ 4 then st else 4))

/-- The time port's link is up. -/
def State.tpUp (s : State) : Bool := s.bit .ux (Reg.UX_TP_STAT_LINK_UP (s.get .ux Reg.UX_OCS_CFG_PORT))

/-- PATH_RESEND (R462): up to 3 times with the same number; then TIMEOUT or BUSY, and NET while the time port's link is down. -/
def execPathResend (seq : BitVec 32) (s : State) : Out :=
  match s.ux.paths.find? (fun c => c.seq == seq.toNat && c.status.isNone) with
  | none => .next s
  | some c =>
    .next (if !s.tpUp then s.pathFinal c.seq 0xF1
      else if 3 ≤ c.resends then s.pathFinal c.seq (if c.busy then 1 else 0xF0)
      else (s.tpSend c.bytes).modUx (fun u => { u with paths := u.paths.map (fun y => if y.seq == c.seq then { y with resends := y.resends + 1, busy := false } else y) }))

end Sys2Proof.Machine
end

