-- ==== Sys2Proof/Machine/SecOps.lean ====
section
/-! DEFINITION. Key slots and byte windows of the SEC unit (R451, R454, R471). -/

namespace Sys2Proof.Machine

/-- The public key of a key slot (R471): 96 bytes of its window. -/
def State.keyPub (s : State) (p : Part) (k : Nat) : List Byte := mread (s.base p).secBytes (0xC400 + 0x80 * k) 96

/-- A key slot is revoked (R451). -/
def State.keyRevoked (s : State) (p : Part) (k : Nat) : Bool := bitOf (s.get p Reg.SEC_KUSE_REVOKE) k

/-- A key slot has a use: 0 IMAGE, 1 FIRMWARE, 2 DEBUG (R471). -/
def State.keyUse (s : State) (p : Part) (k use : Nat) : Bool := bitOf (s.get p Reg.SEC_KUSE_USE) (3 * k + use)

/-- A signature over a digest verifies under an unrevoked slot of this KEY_ID and use (R451). -/
def State.sigOk (s : State) (p : Part) (use : Nat) (keyId : Word) (digest sig : List Byte) : Bool :=
  (List.range 8).any (fun k => !s.keyRevoked p k && s.keyUse p k use && s.reg p (Reg.SEC_KSLOT_ID_KEY_ID k).off == keyId
    && ecdsaVerify (s.keyPub p k) digest sig)

/-! ### JTAG and test data registers (R459, R516) -/

/-- What JTAG can be asked for: the boundary-scan instructions of R459, and any other, which is debug. -/
inductive JtagInstr where
  | idcode | bypass | samplePreload | extest | debug
  deriving DecidableEq, Repr

/-- JTAG and the test data registers are not restricted (R459, R516): before provisioning lock, or while debug is unlocked. -/
def State.jtagOpen (s : State) (p : Part) : Bool := !s.bit p Reg.SEC_STAT_LOCKED || s.bit p Reg.SEC_STAT_DBG_OPEN

/-- JTAG offers an instruction (R459). -/
def State.jtagOffers (s : State) (p : Part) (i : JtagInstr) : Bool := i != .debug || s.jtagOpen p

/-- A part that restricts its test data registers selects none (R516). -/
def State.tdrGate (s : State) : State :=
  if s.jtagOpen .el then s else s.modEl (fun e => { e with ports := { e.ports with tdrSel := false } })

end Sys2Proof.Machine
end

