-- ==== Sys2Proof/Machine/Image.lean ====
section
/-! DEFINITION. Step images: the load checks of R156, the ends of a load, UNLOAD and the starts of both sequencers (R154 to R165, R207, R208). -/

namespace Sys2Proof.Machine

/-! ### The image (R154, R155, R207) -/

/-- A little-endian field of an image. -/
def imgField (img : List Byte) (off n : Nat) : Nat := leNat ((img.drop off).take n)

/-- The bytes of one bundle. -/
def bundleBytes (p : Part) : Nat := 8 * slotCount p

/-- The words of bundle `b`. -/
def imgBundle (img : List Byte) (p : Part) (b : Nat) : List Nat :=
  (List.range (slotCount p)).map (fun k => imgField img (0x100 + b * bundleBytes p + 8 * k) 8)

/-- An entry of the pairing table at an offset, with its reserved bytes. -/
def imgPair (img : List Byte) (off : Nat) : Pair × Nat :=
  ({ core := imgField img off 2, prod := imgField img (off + 2) 1, cons := imgField img (off + 3) 1, cap := imgField img (off + 4) 5 }, imgField img (off + 9) 7)

/-- The pairing table of an image. -/
def imgPairs (img : List Byte) (p : Part) : List (Pair × Nat) :=
  (List.range (imgField img 0x18 4)).map (fun i => imgPair img (0x100 + imgField img 0x10 4 * bundleBytes p + 16 * i))

/-- The image with bytes `lo` to `hi - 1` taken as zero. -/
def imgZero (img : List Byte) (lo hi : Nat) : List Byte := img.take lo ++ List.replicate (min hi img.length - lo) 0 ++ img.drop hi

/-- The image with the signature taken as zero (R155). -/
def imgUnsigned (img : List Byte) : List Byte := imgZero img (img.length - 96) img.length

/-- The hash of an image (R155): the hash and the signature taken as zero. -/
def imgHash (img : List Byte) : List Byte := sha384 (imgZero (imgUnsigned img) 0x40 0x70)

/-! ### The checks (R156, R158) -/

/-- MAGIC, VERSION and TARGET. -/
def imgHead (img : List Byte) (p : Part) : Nat :=
  if imgField img 0 4 ≠ 0x31535848 then 1
  else if imgField img 4 2 ≠ 1 then 2
  else if imgField img 6 1 ≠ (match p with | .el => 0 | .ux => 1) then 3 else 0

/-- BUNDLES and the length. -/
def imgLength (img : List Byte) (p : Part) : Bool :=
  let b := imgField img 0x10 4
  1 ≤ b && b ≤ 65536 && img.length == 256 + b * bundleBytes p + imgField img 0x18 4 * 16 + 104

/-- The REQ_ fields of an image header: offset, width and the resource (R154). -/
def reqFields (l : Licence) : List (Nat × Nat × Nat) :=
  [(0x20, 2, l.cores), (0x22, 1, l.cntPerCore), (0x23, 1, l.engPerCore), (0x24, 1, l.talLanes), (0x25, 1, l.spmMib), (0x26, 1, l.streams),
   (0x27, 1, l.dmaCh), (0x28, 2, l.watches), (0x2A, 1, l.tbCount)]

/-- The REQ_ fields against the part's resources, those of a tree program's chip being free (log 30), and FCLK_NOM (R156). -/
def imgParam (l : Licence) (img : List Byte) (p : Part) : Bool :=
  let f := imgField img 0x0C 4
  (reqFields l).all (fun r => imgField img r.1 r.2.1 ≤ (match p with | .el => r.2.2 | .ux => Config.treeLimit r.1)) && 1 ≤ f && f ≤ 1600000

/-- LSI_SPLIT and M with R23; W is judged when it is set. A tree program has LSI_SPLIT 0 and M 1 (R165). -/
def State.imgSplit (s : State) (img : List Byte) (p : Part) : Bool :=
  let k := imgField img 7 1
  let m := imgField img 8 4
  match p with
  | .ux => k == 0 && m == 1
  | .el => k ≤ 20 && 1 ≤ m && m ≤ 1048576 && m ≤ 2 ^ (20 - k) && s.get .el Reg.SEQ_RUNCFG_W ≤ 2 ^ k

/-- The bundle checks, bundle by bundle (log 31). -/
def imgBundles (l : Licence) (img : List Byte) (p : Part) : Nat :=
  let n := imgField img 0x10 4
  ((List.range n).findSome? (fun b => match bundleCause l n p (imgBundle img p b) with | 0 => none | c => some c)).getD 0

/-- The pairing table passes R208. -/
def pairsOk (l : Licence) (ps : List (Pair × Nat)) : Bool :=
  let keys := ps.flatMap (fun e => [cntKey e.1.core e.1.prod, cntKey e.1.core e.1.cons])
  ps.length ≤ 8192 && ps.all (fun e => decide (e.1.core < l.cores) && decide (e.1.prod < l.cntPerCore) && decide (e.1.cons < l.cntPerCore)
    && e.1.prod != e.1.cons && e.1.cap != 0 && e.2 == 0) && keys.eraseDups.length == keys.length

/-- The first failing check of a load, as its cause (R156, R158); 0 where all pass. -/
def State.imgCause (s : State) (img : List Byte) (p : Part) : Nat :=
  let l := s.el.lic
  let head := imgHead img p
  if head ≠ 0 then head
  else if !imgLength img p then 4
  else if imgField img 0x10 4 ≤ imgField img 0x14 4 then 5
  else if !imgParam l img p then 6
  else if !s.imgSplit img p then 7
  else
    let c := imgBundles l img p
    if c ≠ 0 then c
    else if p == .el && !pairsOk l (imgPairs img p) then 10
    else if imgHash img != (img.drop 0x40).take 48 then 11
    else if !s.sigOk p 0 (BitVec.ofNat 64 (imgField img (img.length - 104) 8)) (sha384 (imgUnsigned img)) (img.drop (img.length - 96)) then 12
    else 0

/-! ### The load (R156, R157) -/

/-- A load is refused with a cause. No bundle belongs to it, and OBJECT is 0, as of a load that succeeds (log 108). -/
def State.loadRefuse (s : State) (p : Part) (cause : Nat) : State :=
  (s.put p Reg.SEQ_STAT_REFUSE_CAUSE cause).log p (unitSeq p) 0x9081 0 cause

/-- Program memory is cleared. -/
def State.progClear (s : State) (p : Part) : State := s.modSeq p (fun q => { q with prog := [], bundles := 0, pairs := [] })

/-- The words of IMGHASH. -/
def State.setImgHash (s : State) (p : Part) (h : List Byte) : State :=
  (List.range 6).foldl (fun t i => t.setReg p (Reg.SEQ_IMGHASH_HASH i).off (BitVec.ofNat 64 (leNat ((h.drop (8 * i)).take 8)))) s

/-- LOAD (R156, R157, R384, R444): from EMPTY or READY the load engine starts on channel 0; in another state, with channel 0 not IDLE or while a commit is ARMED it is refused with STATE. -/
def State.loadStart (s : State) (p : Part) : State :=
  let st := s.seqState p
  if s.manState p = 2 then (s.stageRefuse p Reg.SEQ_CTRL_LOAD.off).loadRefuse p 13
  else if (st = 0 ∨ st = 2) ∧ (p = .ux ∨ s.get .el (Reg.DMA_STAT_STATE 0) = 0) then
    let s := (s.progClear p).setSeqState p 1
    match p with
    | .el => s.put .el (Reg.DMA_STAT_STATE 0) 4
    | .ux => s
  else s.loadRefuse p 13

/-- SEQ_LOAD (R156). -/
def execSeqLoad (s : State) : Out := .next (s.loadStart .el)

/-- TSEQ_LOAD (R165). -/
def execTseqLoad (s : State) : Out := .next (s.loadStart .ux)

/-- The image that LOAD_ADDR and LOAD_LEN name: the model reads them and its bytes at the end of the load (log 108). -/
def State.loadImage (s : State) (p : Part) : List Byte :=
  mread (s.base p).mem (s.get p Reg.SEQ_LOAD_ADDR_ADDR * 64) (s.get p Reg.SEQ_LOAD_LEN_LEN)

/-- A load fails (R157): program memory and IMGHASH are cleared, the sequencer is EMPTY. -/
def State.loadFail (s : State) (p : Part) (cause : Nat) : State :=
  (((s.progClear p).setImgHash p []).setSeqState p 0).loadRefuse p cause

/-- A load succeeds (R157): program memory, header and pairs are the image's; suspects of another image close (R313). -/
def State.loadDone (s : State) (p : Part) (img : List Byte) : State :=
  let n := imgField img 0x10 4
  let h := (img.drop 0x40).take 48
  let s := s.modSeq p (fun q => { q with
    prog := (List.range n).flatMap (fun b => (List.range (slotCount p)).filterMap (fun k =>
      match BitVec.ofNat 64 ((imgBundle img p b).getD k 0) with
      | 0 => none
      | w => some (b * slotCount p + k, w)))
    bundles := n, entry := imgField img 0x14 4, fclkNom := imgField img 0x0C 4, mShards := imgField img 8 4, lsiSplit := imgField img 7 1,
    units := imgField img 0x2C 4, pairs := if p = .el then (imgPairs img p).map Prod.fst else [] })
  let s := if p = .el ∧ s.el.suspHash ≠ h then s.suspCloseAll.modEl (fun e => { e with suspHash := h }) else s
  let s := ((s.setImgHash p h).setSeqState p 2).log p (unitSeq p) 0x9080 0 (leNat (h.take 8))
  match p with
  | .el => s.readyTry
  | .ux => s

/-- IMAGE_LOAD_END (R156, R157): the load engine ends, with a read error or with the checks. -/
def execImageLoadEnd (p : Part) (readOk : Bool) (s : State) : Out :=
  if s.seqState p ≠ 1 then .next s
  else
    let img := s.loadImage p
    let cause := if readOk then s.imgCause img p else 14
    let s := match p with
      | .el => s.put .el (Reg.DMA_STAT_STATE 0) 0
      | .ux => s
    .next (if cause = 0 then s.loadDone p img else s.loadFail p cause)

/-- SEQ_UNLOAD (R167): READY or FAULT becomes EMPTY, program memory cleared; refused while a commit is ARMED (R444), ignored in other states. -/
def execSeqUnload (p : Part) (s : State) : Out :=
  let st := s.seqState p
  if s.manState p = 2 then .next (s.stageRefuse p Reg.SEQ_CTRL_UNLOAD.off)
  else .next (if st = 2 ∨ st = 5 then (s.progClear p).setSeqState p 0 else s)

/-- SEQ_START (R161, R167): in MODE 1 or 2 a step-start launch at the instant of the write, with T = 0 while TB0 is UNSET (R532); else refused with 0x8085. -/
def execSeqStart (s : State) : Out :=
  if s.runMode = 1 ∨ s.runMode = 2 then .next (s.stepLaunch (s.tbNow .el 0) (s.tbNow .el 0))
  else .next (s.log .el 0x01 0x8085 (s.pc .el) (s.seqState .el))

/-- TSEQ_START (R165). -/
def execTseqStart (s : State) : Out := .next s.treeStart

/-- PROG_REFETCH (R159): good parity releases the hold, whose length no rule gives and is free (log 2), and is a replayed parity error that a die's heartbeat counts (R35, R332); a second failure is 0x8082 with the word's address (log 28), FAULT, and the guard's PROG_PARITY. -/
def execProgRefetch (p : Part) (slot : Fin 8) (ok : Bool) (s : State) : Out :=
  if s.seqState p ≠ 3 then .next s
  else
    let d := s.draw
    let s := d.2.slip p d.1.toNat
    if ok then
      .next (match p with
        | .el => s.modEl (fun e => { e with hbCounts := { e.hbCounts with parity := e.hbCounts.parity + 1 } })
        | .ux => s)
    else
      let pc := s.pc p
      .next (((s.log p (unitSeq p) 0x8082 pc (pc * bundleBytes p + 8 * slot)).toFault p).guardTrigger p 4 (unitSeq p) 2 true)

end Sys2Proof.Machine
end

