-- ==== Sys2Proof/Machine/IntIsa.lean ====
section
/-! DEFINITION. The integer operations (R196): the CTRL slot of Elesh and the SEQ slot of Uhloux. -/

namespace Sys2Proof.Machine

/-- The slot that holds integer operations. -/
def intSlot : Part → Nat | .el => 7 | .ux => 0

/-- An operation that writes G[d] from G[a] and the second operand. -/
def State.intOp (s : State) (p : Part) (e : Env) (d a : Fin 64) (o : Opnd) (f : Word → Word → Word) : Out :=
  s.issue p e (intSlot p) (regOk p d && regOk p a && opndOk p o) [.g d (f (s.greg p a) (s.opnd p o))]

/-- MOV. -/
def execMov (p : Part) (e : Env) (d : Fin 64) (o : Opnd) (s : State) : Out :=
  s.issue p e (intSlot p) (regOk p d && opndOk p o) [.g d (s.opnd p o)]

/-- ADD, modulo 2^64. -/
def execAdd (p : Part) (e : Env) (d a : Fin 64) (o : Opnd) (s : State) : Out := s.intOp p e d a o (fun x y => x + y)

/-- SUB, modulo 2^64. -/
def execSub (p : Part) (e : Env) (d a : Fin 64) (o : Opnd) (s : State) : Out := s.intOp p e d a o (fun x y => x - y)

/-- AND. -/
def execAnd (p : Part) (e : Env) (d a : Fin 64) (o : Opnd) (s : State) : Out := s.intOp p e d a o (fun x y => x &&& y)

/-- OR. -/
def execOr (p : Part) (e : Env) (d a : Fin 64) (o : Opnd) (s : State) : Out := s.intOp p e d a o (fun x y => x ||| y)

/-- XOR. -/
def execXor (p : Part) (e : Env) (d a : Fin 64) (o : Opnd) (s : State) : Out := s.intOp p e d a o (fun x y => x ^^^ y)

/-- SHL by the low six bits of B. -/
def execShl (p : Part) (e : Env) (d a : Fin 64) (o : Opnd) (s : State) : Out := s.intOp p e d a o (fun x y => x <<< (y.toNat % 64))

/-- SHR by the low six bits of B, logical. -/
def execShr (p : Part) (e : Env) (d a : Fin 64) (o : Opnd) (s : State) : Out := s.intOp p e d a o (fun x y => x >>> (y.toNat % 64))

/-- SAR by the low six bits of B, arithmetic. -/
def execSar (p : Part) (e : Env) (d a : Fin 64) (o : Opnd) (s : State) : Out := s.intOp p e d a o (fun x y => x.sshiftRight (y.toNat % 64))

/-- MUL, the low 64 bits. -/
def execMul (p : Part) (e : Env) (d a : Fin 64) (o : Opnd) (s : State) : Out := s.intOp p e d a o (fun x y => x * y)

/-- MOVH: the high half of G[d] is the immediate, the low half stays. -/
def execMovh (p : Part) (e : Env) (d : Fin 64) (v : BitVec 32) (s : State) : Out :=
  s.issue p e (intSlot p) (regOk p d) [.g d (v ++ (s.greg p d).setWidth 32)]

/-- CMP writes a flag; conditions 6 and 7 are reserved. -/
def execCmp (p : Part) (e : Env) (cd : Fin 8) (cond : Fin 8) (a : Fin 64) (o : Opnd) (s : State) : Out :=
  s.issue p e (intSlot p) (decide (cond.val < 6) && regOk p a && opndOk p o) [.flag cd (cmpCond cond (s.greg p a) (s.opnd p o))]

/-- FOP combines two flags. -/
def execFop (p : Part) (e : Env) (cd ca cb : Fin 8) (fn : Fin 4) (s : State) : Out :=
  s.issue p e (intSlot p) true [.flag cd (fopFn fn (s.flag p ca) (s.flag p cb))]

end Sys2Proof.Machine
end

