-- ==== Sys2Proof/Machine/Link.lean ====
section
/-! DEFINITION. The commands of the ferry links (chapter 4): frames, replay, joining and leaving, failure, modules; with the authentication of frames (R456 to R458). -/

namespace Sys2Proof.Machine

/-! ### Authentication (R456 to R458) -/

/-- A frame's tag is right under a key, a generation and a counter: what a parent receives goes up. -/
def State.tagOk (s : State) (p : Part) (x : Nat) (f : RxFrame) (hall : List Byte) (gen ctr : Nat) : Bool :=
  s.frameTag p x (if s.laneParent p x then 1 else 0) [f.type, f.vcf, f.seq, f.len] f.payload hall gen ctr == f.payload.drop 236

/-- The check of a received frame's tag (R456, R457): under the current generation, or under the previous one for 100 µs. -/
inductive TagCheck where
  | current | previous | bad
  deriving DecidableEq, Repr

/-- The check of a received frame's tag. -/
def State.tagCheck (s : State) (p : Part) (x : Nat) (f : RxFrame) : TagCheck :=
  let b := s.base p
  let l := s.lane p x
  if s.tagOk p x f (s.hallKeyOf p) (s.get p Reg.SEC_LKGEN_GEN) l.authRx then .current
  else match b.prevGen with
    | some g => if s.tick p < b.prevUntil && s.tagOk p x f (padTo 32 b.prevKey) g l.authRxOld then .previous else .bad
    | none => .bad

/-- A tag failed (R456, R470): AUTH_FAIL counts and 0x9010 is logged with the VC. -/
def State.authFail (s : State) (p : Part) (x vc : Nat) : State :=
  (s.count p Reg.SEC_STAT_AUTH_FAIL 1).log p (unitSec p) 0x9010 x vc

/-! ### Ends of a lane (R125, R128) -/

/-- DOWN is entered after an exchange of LEAVE (R128): event 0x2007, the leave ends with status OK, and the lane is off. -/
def State.laneDown (s : State) (p : Part) (x : Nat) : State :=
  let blk := laneBlk p x
  let s := ((s.laneSet p x 0).put p (Reg.LANE_STAT_SELECTED blk) 0).calClear p x
  let s := s.log p (unitLane p x) 0x2007 x 0
  let s := ((s.modLane p x (fun l => { l with leaveSent := false, leaveRcvd := false, leaveSt := some 0 })).laneDrop p x).moduleDown p x
  match p with
  | .el => (s.absentCheck .el).aclkSource
  | .ux =>
    let s := match s.laneCand x with
      | some k => s.candLost k 3
      | none => s
    s.childAbsent x

/-- JOIN moves to CAL (R107, R125, R127) with 0x2001, whose DETAIL packs KIND above PORT (log 16): the first lane of an Elesh in CAL is the one TB0 follows, lane A where both enter CAL in one tick. The exchange of marks starts at the next boundary (R118). -/
def State.laneCal (s : State) (p : Part) (x : Nat) (j : JoinRec) : State :=
  let b := s.tick p / 256 + 1
  let s := (s.laneSet p x 3).modLane p x (fun l => { l with markSlot := b })
  let s := s.log p (unitLane p x) 0x2001 x (j.kind.toNat * 256 + j.port.toNat)
  match p with
  | .el =>
    let now := s.tick .el
    let tie := x == 0 && s.selLane.isNone && s.el.laneChosen && s.el.followLane == 1 && s.el.chosenAt == now && s.laneState .el 1 == 3
    (if !s.el.laneChosen || tie then s.modEl (fun e => { e with laneChosen := true, followLane := x, chosenAt := now }) else s).aclkSource
  | .ux => s.put .ux (Reg.LANE_TCAL_PARENT (laneBlk .ux x)) (if s.laneParent .ux x then 1 else 0)

/-- A message is a join record. -/
def Msg.isJoin : Msg → Bool
  | .join _ => true
  | _ => false

/-- Join records are accepted both ways (R125): the partner's was, and the part's own is acknowledged. -/
def State.joinCheck (s : State) (p : Part) (x : Nat) : State :=
  let l := s.lane p x
  match l.joinRcvd with
  | some j => if s.laneState p x == 2 && !l.txq.any (fun e => e.2.isJoin) && !l.replay.any (fun f => f.msg.isJoin) then s.laneCal p x j else s
  | none => s

/-- A draining lane goes DOWN once both LEAVEs were exchanged and its own is acknowledged (R125, R128). -/
def State.leaveCheck (s : State) (p : Part) (x : Nat) : State :=
  let l := s.lane p x
  if s.laneState p x == 5 && l.leaveSent && l.leaveRcvd && l.replay.isEmpty && !l.txq.any (fun e => e.2 == .leave) then s.laneDown p x else s

/-- A lane carries frames: JOIN, CAL, ACTIVE or DRAIN. -/
def State.laneLinked (s : State) (p : Part) (x : Nat) : Bool := 2 ≤ s.laneState p x && s.laneState p x ≤ 5

/-- R104 declares a lane failed: a failure during DRAIN ends the leave as well (R128). -/
def State.laneFault (s : State) (p : Part) (x cause : Nat) : State :=
  if laneHere p x && s.laneLinked p x then s.laneFail p x cause else s

/-! ### Sending (R101 to R103, R114 to R117) -/

/-- A message that may use the reserved VC1 credits of a downlink (R117): a launch or a barrier release. -/
def Msg.reserved : Msg → Bool
  | .launch _ | .barRelease _ _ _ => true
  | _ => false

/-- A message is a launch. -/
def Msg.isLaunch : Msg → Bool
  | .launch _ => true
  | _ => false

/-- A waiting message may go: its lane's state lets it, a lane that is AWAY carries VC5 and VC7 only (R112), and its VC has a credit beyond the reserve, or its launch has consumed one already (R234). -/
def State.mayGo (s : State) (p : Part) (x : Nat) (e : Nat × Msg) : Bool :=
  let c := s.credit p x e.1
  let need := if e.2.isLaunch && 0 < (s.lane p x).paid then 0 else if p == .ux && x < 128 && e.1 == 1 && !e.2.reserved then 5 else 1
  let st := s.laneState p x
  decide (need ≤ c) && (!s.bit p (Reg.LANE_STAT_AWAY (laneBlk p x)) || e.1 == 5 || e.1 == 7) && (if st == 5 then e.2 == .leave else if st == 2 then (match e.2 with | .join _ => true | _ => false) else true)

/-- The priority order of the VCs (R113). -/
def vcOrder : List Nat := [0, 6, 1, 2, 5, 3, 4, 7]

/-- The VC that a slot goes to (R116): the highest with a frame and a credit; after 31 slots in which VC3, VC4 or VC7 waited, the highest of those, unless VC0, VC6 or VC1 has a frame. -/
def State.pickVc (s : State) (p : Part) (x : Nat) : Option Nat :=
  let l := s.lane p x
  let ready := fun vc => l.txq.any (fun e => e.1 == vc && s.mayGo p x e)
  let starve := decide (31 ≤ l.lowWait) && !l.txq.any (fun e => e.1 == 0 || e.1 == 6 || e.1 == 1)
  match (if starve then ([3, 4, 7] : List Nat).find? ready else none) with
  | some vc => some vc
  | none => vcOrder.find? ready

/-- The list without its first element that meets a test. -/
def dropFirst {α : Type} (f : α → Bool) : List α → List α
  | [] => []
  | a :: as => if f a then as else a :: dropFirst f as

/-- Credit returns of a VC are withheld (R466): it is in VCMASK, and HOLD_US has not passed since it had a credit to return. -/
def State.starved (s : State) (p : Part) (x vc : Nat) : Bool :=
  s.bit p Reg.TEST_LINK_EN && bitOf (s.get p Reg.TEST_LINK_VCMASK) vc && decide (s.tick p < tget 0 (s.lane p x).starveTo vc)

/-- The VC a frame reports (R115, R466): the one whose freed count changed longest ago without a report and is not withheld, or the VCs in turn. -/
def State.creditVc (s : State) (p : Part) (x : Nat) : Nat :=
  let l := s.lane p x
  ((l.unreported.filter (fun v => !s.starved p x v)).head?).getD l.turn

/-- The time for which the link delay of R466 holds a frame at egress, in ns: DELAY on the lanes of a plane in LANES, and VC0 and IDLE frames never. -/
def State.egressHold (s : State) (p : Part) (x : Nat) (vc : Option Nat) : Nat :=
  match vc with
  | some (_ + 1) => if s.bit p Reg.TEST_LINK_EN && bitOf (s.get p Reg.TEST_LINK_LANES) (s.planeOf p x) then 10 * s.get p Reg.TEST_LINK_DELAY else 0
  | _ => 0

/-- The frame a lane sends now: a message with its bytes, and the acknowledgement and credit fields (R99, R102, R115, R466): the last accepted number, valid once there is one, an owed NAK, and the freed count of the VC it reports; a withheld VC shows its last count. -/
def State.wireFrame (s : State) (p : Part) (x : Nat) (vc : Option Nat) (seq : Byte) (m : Option Msg) (b : FrameBody) : WireFrame :=
  let l := s.lane p x
  let cv := s.creditVc p x
  { vc := vc, seq := seq, ackSeq := l.expSeq - 1, ackValid := !l.freed.isEmpty, nak := l.nakOwed, creditVc := cv,
    credit := if s.starved p x cv then tget 0 l.shown cv else tget 0 l.freed cv % 256, msg := m, body := b, heldNs := s.egressHold p x vc }

/-- A frame goes on the wire, and what it reports is reported. -/
def State.onWire (s : State) (p : Part) (x : Nat) (w : WireFrame) : State :=
  let held := s.starved p x w.creditVc
  s.modLane p x (fun l => { l with wire := l.wire ++ [w], nakOwed := false, turn := (w.creditVc + 1) % 8,
                                   shown := tput 0 l.shown w.creditVc w.credit,
                                   unreported := if held then l.unreported else l.unreported.filter (fun v => v != w.creditVc) })

/-- The departure of a mark is stamped (R83, R118): T1 goes into the time message, T3 of a child's mark is kept for its echo. Between twins and partners a mark is both (log 8). -/
def State.markLeaves (s : State) (p : Part) (x : Nat) (m : Msg) : Msg × State :=
  let n := match p with
    | .el => (s.laneTb x).getD 0
    | .ux => 0
  let t3 := s.tbRaw p n (s.frcSample p) 0
  let keep := fun (seq : BitVec 16) => s.modLane p x (fun l => { l with t3 := tput 0 l.t3 seq.toNat (t3 + 1) })
  match m with
  | .timeMark t => (.timeMark { t with t1 := s.tbSample p 0 }, if 144 ≤ x then keep t.seq else s)
  | .upMark seq _ => (m, keep seq)
  | _ => (m, s)

/-- A first transmission (R99, R101, R114, R458): the frame takes the next number and a credit of its VC and waits in the replay buffer; an authenticated frame counts, but for a JOIN. -/
def State.firstSend (s : State) (p : Part) (x vc : Nat) (m : Msg) : State :=
  let s := s.modLane p x (fun l => { l with txq := dropFirst (fun e => e == (vc, m)) l.txq })
  let k := s.markLeaves p x m
  let b := k.2.frameBody p x vc k.1
  let s := b.2
  let s := s.onWire p x (s.wireFrame p x (some vc) (s.lane p x).nextSeq (some k.1) b.1)
  let now := s.tick p
  let s := s.modLane p x (fun l => { l with nextSeq := l.nextSeq + 1, replay := l.replay ++ [{ seq := l.nextSeq, vc := vc, msg := k.1, body := b.1, sends := 1, sentAt := now }] })
  let s := (if m.isLaunch && 0 < (s.lane p x).paid then s.modLane p x (fun l => { l with paid := l.paid - 1 }) else s.setCredit p x vc (s.credit p x vc - 1)).laneShow p x
  if (vc = 5 || vc = 6) && m.frameType != 2 then
    let n := (s.lane p x).authCtr + 1
    let s := s.modLane p x (fun l => { l with authCtr := n })
    if n = 2 ^ 31 then (s.put p Reg.SEC_STAT_KEY_AGE 1).log p (unitSec p) 0x9011 x n
    else if n = 2 ^ 32 then s.laneFault p x 8
    else s
  else s

/-- FRAME_SLOT (R98, R101, R103, R116): a slot sends a replayed frame, a new frame while fewer than 64 are unacknowledged, or IDLE. Every slot in which VC3, VC4 or VC7 waits counts towards their turn. -/
def execFrameSlot (p : Part) (lane : Fin 160) (s : State) : Out :=
  if laneHere p lane && s.laneLinked p lane then
    let l := s.lane p lane
    let waits := l.txq.any (fun e => (e.1 == 3 || e.1 == 4 || e.1 == 7) && s.mayGo p lane e)
    match l.resend with
    | f :: fs =>
      let s := s.onWire p lane (s.wireFrame p lane (some f.vc) f.seq (some f.msg) f.body)
      let again := fun (g : TxFrame) => if g.seq == f.seq then { g with sentAt := s.tick p } else g
      let wait := if waits then l.lowWait + 1 else 0
      .next (s.modLane p lane (fun l => { l with resend := fs, lowWait := wait, replay := l.replay.map again }))
    | [] =>
      match (if l.replay.length < 64 then s.pickVc p lane else none) with
      | some vc =>
        let s := s.modLane p lane (fun l => { l with lowWait := if waits && !(vc == 3 || vc == 4 || vc == 7) then l.lowWait + 1 else 0 })
        match l.txq.find? (fun e => e.1 == vc && s.mayGo p lane e) with
        | some e => .next (s.firstSend p lane vc e.2)
        | none => .next s
      | none =>
        let s := s.modLane p lane (fun l => { l with lowWait := if waits then l.lowWait + 1 else 0 })
        .next (s.onWire p lane (s.wireFrame p lane none 0 none idleBody))
  else .next s

/-- A replay on a die's lane is counted; every sixteenth adds a point to the die's score at its leaf (R363). -/
def State.replayCount (s : State) (p : Part) (x : Nat) : State :=
  let f := Reg.LANE_ERR_REPLAYS (laneBlk p x)
  let s := s.count p f 1
  if p = .ux ∧ x < 128 ∧ s.get p f % 16 = 0 then s.healthAdd x 1 false else s

/-- A replay starts (R103, R104): every unacknowledged frame is resent in order and one retry counts against the oldest, whose wait starts anew (log 100); after its seventh replay the lane fails. -/
def State.startReplay (s : State) (p : Part) (x : Nat) : State :=
  match (s.lane p x).replay with
  | [] => s
  | f :: fs =>
    if 8 ≤ f.sends then s.laneFault p x 1
    else
      let r := { f with sends := f.sends + 1, sentAt := s.tick p } :: fs
      ((s.modLane p x (fun l => { l with replay := r, resend := r })).replayCount p x).laneShow p x

/-- REPLAY_TO of a lane in ps (R105): the register's ns, or 2 D_PS + 256 ns, or 10 µs before CAL_DONE. -/
def State.replayTo (s : State) (p : Part) (x : Nat) : Nat :=
  let blk := laneBlk p x
  let f := s.get p (Reg.LANE_CTRL_REPLAY_TO blk)
  if f != 0 then f * 1000
  else if s.bit p (Reg.LANE_TCAL_CAL_DONE blk) then 2 * s.get p (Reg.LANE_DELAY_D_PS blk) + 256000 else 10000000

/-- The oldest unacknowledged frame of a lane has waited REPLAY_TO since its last transmission (R103), in ticks of 6.4 ns. -/
def State.replayDue (s : State) (p : Part) (x : Nat) : Bool :=
  laneHere p x && s.laneLinked p x && match (s.lane p x).replay with
    | f :: _ => decide (s.replayTo p x ≤ (s.tick p - f.sentAt) * 6400)
    | [] => false

/-- REPLAY_TIMEOUT (R103, R105). -/
def execReplayTimeout (p : Part) (lane : Fin 160) (s : State) : Out :=
  .next (if s.replayDue p lane then s.startReplay p lane else s)

/-! ### Receiving (R100 to R102, R115) -/

/-- A frame's CRC is good, its type is one of R99 and its LEN within the payload (log 101). -/
def frameGood (f : RxFrame) : Bool := f.payload.length == 244 && decide (f.len.toNat ≤ 244) && crc32 (frameBytes f) == f.crc && decide (f.type.toNat ≤ 4)

/-- A gap owes one NAK until the expected frame arrives (R102). -/
def State.oweNak (s : State) (p : Part) (x : Nat) : State :=
  s.modLane p x (fun l => if l.nakSent then l else { l with nakOwed := true, nakSent := true })

/-- A frame counts as a CRC failure (R102): an IDLE frame is only counted, every other is answered with a NAK. -/
def State.crcFail (s : State) (p : Part) (x : Nat) (idle : Bool) : State :=
  let s := s.count p (Reg.LANE_ERR_CRC_FAIL (laneBlk p x)) 1
  if idle then s else s.modLane p x (fun l => { l with nakOwed := true, nakSent := true })

/-- The frames that a cumulative acknowledgement leaves in the replay buffer. -/
def ackReplay (a : Byte) (r : List TxFrame) : List TxFrame :=
  match r.findIdx? (fun f => f.seq == a) with
  | some i => r.drop (i + 1)
  | none => r

/-- Acknowledgement, NAK and credit of a good frame are applied (R102, R103, R115). -/
def State.applyHead (s : State) (p : Part) (x : Nat) (f : RxFrame) : State :=
  let s := if f.ackf.toNat % 2 = 1 then
      (s.modLane p x (fun l => { l with replay := ackReplay f.ackSeq l.replay, resend := l.resend.filter (fun g => (ackReplay f.ackSeq l.replay).any (fun h => h.seq == g.seq)) })).laneShow p x
    else s
  let vc := f.credit.toNat / 2 ^ 13
  let n := f.credit.toNat % 256
  let seen := tget 0 (s.lane p x).creditSeen vc
  let s := (s.setCredit p x vc (s.credit p x vc + (n + 256 - seen) % 256)).modLane p x (fun l => { l with creditSeen := tput 0 l.creditSeen vc n })
  let s := if f.ackf.toNat / 2 % 2 = 1 then s.startReplay p x else s
  (s.joinCheck p x).leaveCheck p x

/-- A buffer of a VC is freed, and its credit is owed (R115); where the VC is withheld, its hold starts with the first credit owed (R466). -/
def State.freeBuffer (s : State) (p : Part) (x vc : Nat) : State :=
  let till := s.tick p + s.get p Reg.TEST_LINK_HOLD_US * 15625 / 100
  let hold := s.bit p Reg.TEST_LINK_EN && bitOf (s.get p Reg.TEST_LINK_VCMASK) vc && !(s.lane p x).unreported.contains vc
  s.modLane p x (fun l => { l with freed := tput 0 l.freed vc (tget 0 l.freed vc + 1),
                                   unreported := if l.unreported.contains vc then l.unreported else l.unreported ++ [vc],
                                   starveTo := if hold then tput 0 l.starveTo vc till else l.starveTo })

/-- The sequence rule (R102): the next expected frame is accepted and its buffer freed; one of the 64 numbers before it was accepted before and is only acknowledged (log 102); a gap is answered with a NAK. -/
def State.acceptSeq (s : State) (p : Part) (x : Nat) (f : RxFrame) : State :=
  let l := s.lane p x
  if f.seq = l.expSeq then
    (s.modLane p x (fun l => { l with expSeq := l.expSeq + 1, nakSent := false })).freeBuffer p x (f.vcf.toNat % 8)
  else if (l.expSeq - f.seq).toNat ≤ 64 then s
  else s.oweNak p x

/-- The lane's perturbation is to refuse this frame (R466): it arrives for the first time, it is the NTHth to do so, and EN, NTH and the bit of its plane in LANES are set. -/
def State.forcedNak (s : State) (p : Part) (x : Nat) (f : RxFrame) : Bool :=
  let l := s.lane p x
  let nth := s.get p Reg.TEST_LINK_NTH
  s.bit p Reg.TEST_LINK_EN && nth != 0 && bitOf (s.get p Reg.TEST_LINK_LANES) (s.planeOf p x)
    && f.seq == l.expSeq && f.seq == l.rxHigh && (l.firsts + 1) % nth == 0

/-- A sequenced frame that arrives for the first time is counted while the perturbation is on (R466). -/
def State.firstSeen (s : State) (p : Part) (x : Nat) (f : RxFrame) : State :=
  let on := s.bit p Reg.TEST_LINK_EN && s.get p Reg.TEST_LINK_NTH != 0
  s.modLane p x (fun l => if (f.seq - l.rxHigh).toNat < 128 then { l with rxHigh := f.seq + 1, firsts := if on then l.firsts + 1 else 0 } else l)

/-- A good sequenced frame is taken (R100 to R102, R440, R456): a VC5 or VC6 frame must carry its tag; a VC5 frame without AUTH is discarded and counted. -/
def State.takeFrame (s : State) (p : Part) (x : Nat) (f : RxFrame) : State :=
  let vc := f.vcf.toNat % 8
  let auth := f.vcf.toNat / 16 % 2 == 1
  let ok := fun (t : State) => (t.applyHead p x f).acceptSeq p x f
  if f.type != 2 && (vc == 5 || vc == 6) && f.seq == (s.lane p x).expSeq then
    if vc == 5 && !auth then ok (s.count p Reg.SEC_STAT_AUTH_FAIL 1)
    else
      match (if auth then s.tagCheck p x f else .bad) with
      | .bad => (s.authFail p x vc).crcFail p x false
      | .current => ok (s.modLane p x (fun l => { l with authRx := l.authRx + 1 }))
      | .previous => ok (s.modLane p x (fun l => { l with authRxOld := l.authRxOld + 1 }))
  else ok s

/-- The FEC under a received frame (R96, R130, R131): the symbols it corrected, at most 15 a codeword, and whether a codeword was beyond correction are free values (log 2). Over 10^6 corrected symbols within 1 s log 0x200A with the count, once for each second (log 103). -/
def State.fecCount (s : State) (p : Part) (x : Nat) : State :=
  let blk := laneBlk p x
  let d := s.draw
  let n := d.1.toNat % 16
  let s := d.2.count p (Reg.LANE_FEC_CORR_SYM blk) n
  let s := if bitOf d.1.toNat 4 then s.count p (Reg.LANE_ERR_FEC_UNCORR blk) 1 else s
  let now := s.tick p
  let l := s.lane p x
  let fresh := decide (156250000 ≤ now - l.fecFrom)
  let c := (if fresh then 0 else l.fecCount) + n
  let hit := decide (1000000 < c) && (fresh || !l.fecLogged)
  let s := s.modLane p x (fun l => { l with fecFrom := if fresh then now else l.fecFrom, fecCount := c, fecLogged := hit || (!fresh && l.fecLogged) })
  if hit then s.log p (unitLane p x) 0x200A x c else s

/-- FRAME_RECEIVE (R99 to R102, R115, R440, R456, R466): CRC and type are checked, acknowledgement and credit applied, the sequence rule followed. A frame that the perturbation of R466 refuses is answered with a NAK. The message inside is a command of its own (log 12). -/
def execFrameReceive (p : Part) (lane : Fin 160) (f : RxFrame) (s : State) : Out :=
  if !(laneHere p lane && s.laneLinked p lane) then .next s
  else
  let s := s.fecCount p lane
  if !frameGood f then .next (s.crcFail p lane (f.type == 0))
  else if f.type = 0 then .next (s.applyHead p lane f)
  else if s.forcedNak p lane f then .next (((s.firstSeen p lane f).applyHead p lane f).oweNak p lane)
  else .next ((s.firstSeen p lane f).takeFrame p lane f)

/-! ### Failure (R104, R112, R124) -/

/-- LOS_PERSIST (R104): loss of signal or of lock for 1 µs. -/
def execLosPersist (p : Part) (lane : Fin 160) (cdr : Bool) (s : State) : Out :=
  .next (s.laneFault p lane (if cdr then 3 else 2))

/-- FEC_ALIGN_LOSS (R104). -/
def execFecAlignLoss (p : Part) (lane : Fin 160) (s : State) : Out := .next (s.laneFault p lane 4)

/-- AWAY_FRAME (R111, R112): an Elesh treats AWAY set as a failure of the lane, which stays ACTIVE; clear restores it as a failover target. A Uhloux passes what its uplink says to its downlinks. Event 0x2008. -/
def execAwayFrame (p : Part) (lane : Fin 160) (set : Bool) (s : State) : Out :=
  if laneHere p lane && s.laneState p lane == 4 then
    let blk := laneBlk p lane
    let s := (s.put p (Reg.LANE_STAT_AWAY blk) (if set then 1 else 0)).log p (unitLane p lane) 0x2008 lane (if set then 1 else 0)
    match p with
    | .el => .next (if set then s.elLaneLoss lane else s)
    | .ux => .next (if s.upLane == some lane.val then s.sendDown downLanes (.away set) else s)
  else .next s

/-- MODULE_INTERRUPT (R104, R124): event 0x2010 with the flag byte; LOS, LOL or a Tx fault fails the lane with cause MODULE. Module m serves lanes 8m to 8m + 7. -/
def execModuleInterrupt (m : Fin 20) (lane : Fin 8) (flag : Byte) (fatal : Bool) (s : State) : Out :=
  let x := 8 * m.val + lane.val
  let s := s.modMod x (fun m => { m with flags := tput 0 m.flags lane (Nat.lor (tget 0 m.flags lane) flag.toNat) })
  let s := s.log .ux (unitLane .ux x) 0x2010 x flag.toNat
  .next (if fatal then s.laneFault .ux x 5 else s)

/-- A module's state machine moves on (R124): powering up ends READY, powering down in low power; its monitors read a free value (log 2). -/
def State.modulePoll (s : State) (m : Nat) : State :=
  let d := s.draw
  d.2.modMod (8 * m) (fun k => { k with monitors := d.1, state := match k.state with
    | .pwrUp => .ready
    | .pwrDn => .lowPwr
    | st => st })

/-- MODULE_POLL (R124): all twenty modules are polled. -/
def execModulePoll (s : State) : Out := .next ((List.range 20).foldl State.modulePoll s)

/-! ### Joining (R125 to R127) -/

/-- A join is refused (R127): the lane is FAILED with the cause, and 0x2005 is logged. -/
def State.joinRefuse (s : State) (p : Part) (x cause : Nat) : State :=
  (if s.laneState p x == 6 then s.put p (Reg.LANE_STAT_FAIL_CAUSE (laneBlk p x)) cause else s.laneFail p x cause).log p (unitLane p x) 0x2005 x cause

/-- SIGNAL_DETECT (R19, R125, R127): a DOWN lane with AUTO_JOIN trains; an attempt on a lane unused for the tier is refused as JOIN_ROLE. -/
def execSignalDetect (p : Part) (lane : Fin 160) (s : State) : Out :=
  .next (if !laneHere p lane || !(s.laneState p lane == 0 || s.laneState p lane == 6) then s
    else if !s.laneUsed p lane then s.joinRefuse p lane 7
    else if s.laneState p lane == 0 && s.bit p (Reg.LANE_CTRL_AUTO_JOIN (laneBlk p lane)) then s.laneTrain p lane else s)

/-- LANE_JOIN_CMD (R125, R127): JOIN starts training from DOWN or FAILED, and is refused on a lane unused for the tier. -/
def execLaneJoinCmd (p : Part) (lane : Fin 160) (s : State) : Out :=
  .next (if laneHere p lane && (s.laneState p lane == 0 || s.laneState p lane == 6) then
      (if s.laneUsed p lane then s.laneTrain p lane else s.joinRefuse p lane 7)
    else s)

/-- The KIND of a part's join record (R126). -/
def State.joinKind (s : State) (p : Part) : Nat := match p with | .el => 0 | .ux => s.tier + 1

/-- The join record an end sends (R126). -/
def State.joinRec (s : State) (p : Part) (x : Nat) : JoinRec :=
  { kind := BitVec.ofNat 8 (s.joinKind p), plane := BitVec.ofNat 8 (s.planeOf p x), port := BitVec.ofNat 8 x,
    depth := BitVec.ofNat 8 (match p with | .el => 3 | .ux => 2 - s.tier),
    pdi := BitVec.ofNat 32 (if p == .ux && s.tier == 0 && x < 128 then s.pdiOf x else 0), version := 1 }

/-- TRAIN_DONE (R84, R113, R125): A_INT is measured, JOIN is entered with the credits of R113 and fresh numbers, and the join record is sent. -/
def execTrainDone (p : Part) (lane : Fin 160) (aInt : BitVec 16) (s : State) : Out :=
  if laneHere p lane && s.laneState p lane == 1 then
    let blk := laneBlk p lane
    let s := (s.laneSet p lane 2).put p (Reg.LANE_TCAL_A_INT blk) aInt.toNat
    let s := s.setReg p (Reg.LANE_CRED_CREDITS blk).off joinCredWord
    let s := s.modLane p lane (fun _ => Lane.zero)
    .next ((s.laneShow p lane).send p lane (.join (s.joinRec p lane)))
  else .next s

/-- TRAIN_TIMEOUT (R97): a lane still training after 1 s fails. -/
def execTrainTimeout (p : Part) (lane : Fin 160) (s : State) : Out :=
  .next (if laneHere p lane && s.laneState p lane == 1 then s.laneFail p lane 6 else s)

/-- The partner's KIND and PORT fit the roles of the lane (R19, R127). -/
def State.roleOk (s : State) (p : Part) (x : Nat) (j : JoinRec) : Bool :=
  let k := j.kind.toNat
  let q := j.port.toNat
  match p with
  | .el => k == 1 && q < 128
  | .ux =>
    match s.tier with
    | 0 => if x < 128 then k == 0 && q == s.planeOf .ux x else if x < 144 then k == 2 && q < 128
           else if x < 152 then k == 1 && 144 ≤ q && q < 152 else k == 1 && 152 ≤ q && q < 160
    | 1 => if x < 128 then k == 1 && (q == 128 || q == 129) else k == 3 && q < 16
    | _ => if x < 128 then k == 2 && q == 128 else k == 3 && q == 152

/-- Why a join is refused (R127): 7 JOIN_ROLE, 8 JOIN_AUTH. -/
def State.joinCause (s : State) (p : Part) (x : Nat) (j : JoinRec) (authOk : Bool) : Option Nat :=
  if !s.laneUsed p x || (j.plane.toNat != s.planeOf p x && !(p == .ux && 152 ≤ x)) || !s.roleOk p x j || j.version != 1 then some 7
  else if !authOk then some 8 else none

/-- JOIN_FRAME (R107, R125 to R127): a record that fits is accepted, and the lane enters CAL once its own is accepted too; a refused one fails the lane with 0x2005. -/
def execJoinFrame (p : Part) (lane : Fin 160) (j : JoinRec) (authOk : Bool) (s : State) : Out :=
  .next (if laneHere p lane && s.laneState p lane == 2 then
      match s.joinCause p lane j authOk with
      | some c => s.joinRefuse p lane c
      | none =>
        (s.modLane p lane (fun l => { l with joinRcvd := some j, partnerKind := j.kind.toNat, partnerPort := j.port.toNat,
                                             joinPdi := BitVec.ofNat 20 j.pdi.toNat })).joinCheck p lane
    else s)

/-! ### Leaving (R128) -/

/-- Headcount counts a member behind this lane: the die itself, the die of a downlink, or any member below a chip. -/
def State.carriesMember (s : State) (p : Part) (x : Nat) : Bool :=
  let isMem := fun c => c == 3 || c == 4
  match p with
  | .el => isMem (s.get .el Reg.HC_STAT_STATE)
  | .ux => if x < 128 && s.tier == 0 then isMem (s.member (s.pdiOf x)) else s.ux.members.any (fun e => isMem e.2)

/-- LANE_LEAVE_CMD (R128): refused with status REFUSED for a lane that carries selected-plane traffic of a member; else an ACTIVE lane drains. -/
def execLaneLeaveCmd (p : Part) (lane : Fin 160) (s : State) : Out :=
  .next (if laneHere p lane && s.laneState p lane == 4 then
      if s.bit p (Reg.LANE_STAT_SELECTED (laneBlk p lane)) && s.carriesMember p lane then s.modLane p lane (fun l => { l with leaveSt := some 0xA })
      else (s.laneSet p lane 5).modLane p lane (fun l => { l with leaveSt := none })
    else s)

/-- LEAVE_FRAME (R128): the partner leaves; the lane drains too, and goes DOWN once both have left. -/
def execLeaveFrame (p : Part) (lane : Fin 160) (s : State) : Out :=
  if laneHere p lane && (s.laneState p lane == 4 || s.laneState p lane == 5) then
    let s := (s.laneSet p lane 5).modLane p lane (fun l => { l with leaveRcvd := true })
    .next (s.leaveCheck p lane)
  else .next s

/-- DRAIN_EMPTY (R128): a draining lane whose replay buffer is empty sends LEAVE. -/
def execDrainEmpty (p : Part) (lane : Fin 160) (s : State) : Out :=
  let l := s.lane p lane
  .next (if laneHere p lane && s.laneState p lane == 5 && l.replay.isEmpty && !l.leaveSent then
    s.modLane p lane (fun l => { l with leaveSent := true, txq := [(5, .leave)] }) else s)

/-- LANE_DRAIN_TIMEOUT (R125): 100 µs in DRAIN fail the lane with LEAVE_TIMEOUT. -/
def execLaneDrainTimeout (p : Part) (lane : Fin 160) (s : State) : Out :=
  .next (if laneHere p lane && s.laneState p lane == 5 then s.laneFail p lane 9 else s)

/-- LANE_CNT_CLR (R131): LANE_ERR and LANE_FEC clear. -/
def execLaneCntClr (p : Part) (lane : Fin 160) (s : State) : Out :=
  .next (if laneHere p lane then (s.setReg p (laneBlk p lane + 0x20) 0).setReg p (laneBlk p lane + 0x28) 0 else s)

end Sys2Proof.Machine
end

