-- ==== Sys2Proof/Machine/Man.lean ====
section
/-! DEFINITION. The rows of the manifest unit: arming, commits, the hall-wide commit, and the drain of a disabled unit (R442 to R450). -/

namespace Sys2Proof.Machine

/-! ### Arming (R443, R446) -/

/-- The instant in MAN_AT. -/
def State.manInstant (s : State) (p : Part) : Nat := hxtOf (s.reg p Reg.MAN_AT_SEC_SEC.off) (s.reg p Reg.MAN_AT_NSF_NS.off)

/-- MAN_ARM (R446). -/
def execManArm (p : Part) (s : State) : Out := .next (s.manArm p (s.manInstant p)).1

/-- MAN_NOW (R446). -/
def execManNow (p : Part) (s : State) : Out := .next (s.manNow p)

/-- DISARM, written or received from the root (R443, R448): a node that a MAN_PREP armed passes it down (log 51). -/
def State.manDisarmHall (s : State) (p : Part) : State :=
  let s := match p with
    | .el => s
    | .ux => if s.ux.base.hallArm || s.ux.hall.isSome then (s.sendDown downLanes .manDisarm).modUx (fun u => { u with hall := none }) else s
  s.manDisarm p

/-- MAN_DISARM (R443). -/
def execManDisarm (p : Part) (s : State) : Out := .next (s.manDisarmHall p)

/-- MAN_DISCARD (R443, R444). -/
def execManDiscard (p : Part) (s : State) : Out := .next (s.manDiscard p)

/-! ### The commit at its instant (R446, R447, R449, R347) -/

/-- The commit of an armed manifest whose instant TB0 has reached. A check that fails at the instant of a hall-wide commit is a check failure of the die (R449). -/
def State.manFire (s : State) (p : Part) : State :=
  match p with
  | .el =>
    let hall := s.el.base.hallArm
    match s.manCheck .el with
    | none => (s.commitAll .el).standbyJoin
    | some (c, _) => let s := s.commitFail .el c
                     if hall then s.checkFail 0 else s
  | .ux => (s.commitNow .ux).spareEvent

/-- An instant has come: 0 is the next ACLK tick, whatever TB0 reads (R446). -/
def State.instantCome (s : State) (p : Part) (t : Nat) : Bool := t == 0 || s.tbReached p 0 t

/-- MANIFEST_COMMIT (R446, R347): the rollback's T_c, or the armed instant, has come; else there is nothing to commit. -/
def execManifestCommit (p : Part) (s : State) : Out :=
  .next (match (s.base p).rbAt with
    | some t => if s.instantCome p t then (match p with | .el => s.elRbCommit | .ux => s.uxRbCommit t) else s
    | none => match (s.base p).manAt with
      | some t => if s.manState p = 2 && s.instantCome p t then s.manFire p else s
      | none => s)

/-! ### The hall-wide commit (R448, R449) -/

/-- A part arms its manifest for a hall-wide commit: its instant is not known yet. With nothing staged nothing is armed. -/
def State.hallPrep (s : State) (p : Part) : State :=
  if (s.base p).staged.isEmpty then s.mod p (fun b => { b with hallSeen := none })
  else (s.put p Reg.MAN_STAT_STATE 2).mod p (fun b => { b with manAt := none, hallArm := true, hallSeen := none })

/-- The downlinks a hall-wide commit goes to (R448): a leaf's member dies, every chip below a spine or root. -/
def State.hallLanes (s : State) : List Nat :=
  (if s.tier = 0 then s.memberPorts else downLanes).filter (fun x => s.laneState .ux x == 4)

/-- A vote joins those of a node (R448): the counts add, and the first failing subject stands. -/
def HallVote.join (v : HallVote) (passes fails : Nat) (first : Option Subj) : HallVote :=
  { v with passes := v.passes + passes, fails := v.fails + fails, firstFail := match v.firstFail with | some x => some x | none => first }

/-- The vote of a part: its CHECK_OK (R448). -/
def State.ownVote (s : State) (p : Part) : Nat × Nat × Option Subj :=
  if (s.manCheck p).isNone then (1, 0, none) else (0, 1, some (match p with | .el => dieSubj s.myPdi | .ux => s.chipSubj))

/-- The root ends a hall-wide commit without committing (R448): DISARM, HALL_STAT and 0x9005. -/
def State.hallRefuse (s : State) (st : Nat) : State :=
  let s := ((s.sendDown s.hallLanes .manDisarm).manDisarm .ux).modUx (fun u => { u with hall := none })
  ((s.put .ux Reg.UX_MAN_HALL_CTRL_BUSY 0).put .ux Reg.UX_MAN_HALL_CTRL_HALL_STAT st).log .ux 0x47 0x9005 0 st

/-- The instant in UX_MAN_HALL_AT. -/
def State.hallAt (s : State) : Nat := hxtOf (s.reg .ux Reg.UX_MAN_HALL_AT_SEC_SEC.off) (s.reg .ux Reg.UX_MAN_HALL_AT_NSF_NSF.off)

/-- The root's verdict once every vote is in (R448): HALL_AT must lie D_launch and COMMIT_GUARD ahead; while TB0 is UNSET it cannot be judged, and is LATE as for ARM. -/
def State.hallVerdict (s : State) (v : HallVote) : State :=
  if v.fails ≠ 0 then s.hallRefuse stRefused
  else if s.tbState .ux 0 = 0 || s.hallAt < s.tbNow .ux 0 + psHxt s.dLaunch + hxtNs (s.get .ux Reg.UX_MAN_HALL_CTRL_COMMIT_GUARD) then s.hallRefuse stLate
  else
    let t := s.hallAt
    let s := (s.sendDown s.hallLanes (.manCommit t)).modUx (fun u => { u with hall := none })
    let s := (s.put .ux Reg.UX_MAN_HALL_CTRL_BUSY 0).put .ux Reg.UX_MAN_HALL_CTRL_HALL_STAT stOk
    if s.ux.base.hallArm then s.mod .ux (fun b => { b with manAt := some t, hallSeen := some t }) else s

/-- Every vote below a node is in (R448): the root judges, another node sends the counts up. -/
def State.hallCheck (s : State) : State :=
  match s.ux.hall with
  | some v =>
    if v.waiting.isEmpty then
      if s.tier = 2 then s.hallVerdict v else (s.sendUp .ux (.manVote v.passes v.fails v.firstFail)).modUx (fun u => { u with hall := none })
    else s
  | none => s

/-- A node starts a hall-wide commit below itself: MAN_PREP goes down, it arms its own manifest, and its own vote is the first. -/
def State.hallStart (s : State) : State :=
  let ls := s.hallLanes
  let s := (s.sendDown ls .manPrep).hallPrep .ux
  let v := s.ownVote .ux
  (s.modUx (fun u => { u with hall := some (({ passes := 0, fails := 0, firstFail := none, waiting := ls } : HallVote).join v.1 v.2.1 v.2.2) })).hallCheck

/-- HALL_GO (R448): at the barrier-plane root; one at a time. -/
def execHallGo (s : State) : Out :=
  .next (if s.authority && !s.bit .ux Reg.UX_MAN_HALL_CTRL_BUSY then (s.put .ux Reg.UX_MAN_HALL_CTRL_BUSY 1).hallStart else s)

/-- MAN_PREP (R448): a die answers with its vote; a chip passes it down and votes once the votes below it are in. -/
def execManPrep (p : Part) (s : State) : Out :=
  .next (match p with
    | .el =>
      let s := s.hallPrep .el
      let v := s.ownVote .el
      s.sendUp .el (.manVote v.1 v.2.1 v.2.2)
    | .ux => s.hallStart)

/-- MAN_VOTE (R448): counted once from each downlink that owes one. -/
def execManVote (lane : Fin 160) (passes fails : Nat) (firstFail : Option Subj) (s : State) : Out :=
  .next (match s.ux.hall with
    | some v =>
      if v.waiting.contains lane.val then
        (s.modUx (fun u => { u with hall := some ({ v with waiting := v.waiting.filter (fun x => x != lane.val) }.join passes fails firstFail) })).hallCheck
      else s
    | none => s)

/-- HALL_TIMEOUT (R448): HALL_TMO has passed with votes missing. -/
def execHallTimeout (s : State) : Out :=
  .next (if s.bit .ux Reg.UX_MAN_HALL_CTRL_BUSY then s.hallRefuse stTimeout else s)

/-- MAN_COMMIT_MESSAGE (R448, R449), once for its identity, the instant: a chip passes it down. In time, an armed part commits at the instant; late, a die commits nothing and marks a check failure, and a chip commits on arrival with 0x9006. -/
def execManCommitMessage (p : Part) (t : Nat) (s : State) : Out :=
  if (s.base p).hallSeen = some t then .next s
  else
    let s := s.mod p (fun b => { b with hallSeen := some t })
    let s := match p with
      | .el => s
      | .ux => s.sendDown s.hallLanes (.manCommit t)
    let now := s.tbNow p 0
    if now ≤ t then .next (if (s.base p).hallArm then s.mod p (fun b => { b with manAt := some t }) else s)
    else .next (match p with
      | .el => (s.manDisarm .el).checkFail 0
      | .ux => (if s.ux.base.hallArm then (s.commitNow .ux).spareEvent else s).log .ux 0x47 0x9006 0 (psOf ((now - t : Nat) : Int)).toNat)

/-! ### Disabled units (R450, R396) -/

/-- The guard's identifier of a unit of MAN_UNITEN: 0 SYNC, 1 RED, 2 CHK, 3 SEED, 4 MOVE (R423, R471). -/
def unitenUnit (u : Nat) : Nat := 3 + u

/-- UNIT_DRAIN_TIMEOUT (R450, R396): work of a disabled unit that is unfinished after DRAIN_TIMEOUT ends DISABLED; a running channel acts as under an abort, and the DMAGO that started it ends with it. 0x9007 carries the number. -/
def execUnitDrainTimeout (unit : Fin 5) (s : State) : Out :=
  let u := unit.val
  .next (if bitOf (s.get .el Reg.MAN_UNITEN_EN) u then s
    else
      let ops := s.el.base.qops.filter (fun o => queueUnit o.queue == some u)
      let onCh := fun (o : QOp) => (List.range s.el.lic.dmaCh).any (fun c => (s.dma c).qid == some o.id)
      let host := if u = 4 then (List.range s.el.lic.dmaCh).countP (fun c => s.get .el (Reg.DMA_STAT_STATE c) == 1 && (s.dma c).qid.isNone) else 0
      let s := (ops.filter (fun o => !onCh o)).foldl (fun t o => t.endFail .el o stDisabled) s
      let s := if u = 4 then (List.range s.el.lic.dmaCh).foldl (fun t c => t.dmaAbort c stDisabled) s else s
      let s := if u = 1 then s.put .el Reg.TAL_STAT_BUSY 0 else s
      s.log .el 0x0B 0x9007 (unitenUnit u) (ops.length + host))

end Sys2Proof.Machine
end

