-- ==== Sys2Proof/Machine/MoveIsa.lean ====
section
/-! DEFINITION. The MOVE slot (R193). -/

namespace Sys2Proof.Machine

/-- LD (R193): the word as it stood before the bundle (R378), 0 when it stays bad (R380), or fault 0x8088. `replays` is how often the read was replayed before it succeeded (R379). -/
def execLd (e : Env) (d a : Fin 64) (ofs : BitVec 24) (replays : Fin 3) (s : State) : Out :=
  let x := s.spmAddr a ofs
  s.issue .el e 6 true (if s.spmOk x 8 then [.load x, .replay x replays, .g d (if s.el.spmBad.contains (x / 8) then 0 else s.spmRaw x)]
    else [.fault 0x8088 (rangeDetail 6 x)])

/-- ST (R193), or fault 0x8088. -/
def execSt (e : Env) (a b : Fin 64) (ofs : BitVec 24) (s : State) : Out :=
  let x := s.spmAddr a ofs
  s.issue .el e 6 true (if s.spmOk x 8 then [.spm 6 x [s.greg .el b]] else [.fault 0x8088 (rangeDetail 6 x)])

/-- DMAGO (R193): G[a] descriptors of a channel. -/
def execDmago (e : Env) (q : QDest) (ch : Fin 16) (a : Fin 64) (s : State) : Out :=
  s.issue .el e 6 (destOk s.el.lic .el q && decide (ch.val < s.el.lic.dmaCh)) [qAct .move (.dmago ch (s.greg .el a).toNat) q 1]

/-- DMAAB (R193, R395). -/
def execDmaab (e : Env) (ch : Fin 16) (s : State) : Out := s.issue .el e 6 (decide (ch.val < s.el.lic.dmaCh)) [.abort ch]

end Sys2Proof.Machine
end

