-- ==== Sys2Proof/Machine/RedIsa.lean ====
section
/-! DEFINITION. The RED slot (R141, R184 to R186): operations enter the RED queue with the operands they captured, or are refused at issue for their count. -/

namespace Sys2Proof.Machine

/-- A format T operation of n tally blocks (R141): refused at issue when n is 0 or above 256, else it takes n entries. `op` is its opcode. -/
def State.talActs (s : State) (op : Nat) (q : QDest) (t : TArgs) : List Act :=
  let n := (s.greg .el t.gn).toNat
  if n = 0 ∨ 256 < n then [.refuse .red op]
  else [qAct .red (.tal op (s.greg .el t.ga).toNat (s.greg .el t.gb).toNat n (s.greg .el t.ge).toNat t.fmt.toNat t.cls t.mx) q n]

/-- SCALE (R251). -/
def execScale (e : Env) (q : QDest) (t : TArgs) (s : State) : Out := s.issue .el e 3 (destOk s.el.lic .el q && scaleOk t) (s.talActs 1 q t)

/-- TCONV (R253). -/
def execTconv (e : Env) (q : QDest) (t : TArgs) (s : State) : Out := s.issue .el e 3 (destOk s.el.lic .el q && tconvOk t) (s.talActs 2 q t)

/-- TADD (R254). -/
def execTadd (e : Env) (q : QDest) (t : TArgs) (s : State) : Out := s.issue .el e 3 (destOk s.el.lic .el q && taddOk t) (s.talActs 3 q t)

/-- TFIN (R255). -/
def execTfin (e : Env) (q : QDest) (t : TArgs) (s : State) : Out := s.issue .el e 3 (destOk s.el.lic .el q && tfinOk t) (s.talActs 4 q t)

/-- PSUM (R262). -/
def execPsum (e : Env) (q : QDest) (t : TArgs) (s : State) : Out := s.issue .el e 3 (destOk s.el.lic .el q && psumOk t) (s.talActs 5 q t)

/-- The entries of a format S operation of n values (R141): none where it is refused at issue. -/
def scalarEntries (n : Nat) : Option Nat := if n = 0 ∨ 16384 < n then none else some (ceilDiv n 64)

/-- SPASS (R252). -/
def execSpass (e : Env) (q : QDest) (rid : BitVec 12) (gn ge : Fin 64) (min : Bool) (s : State) : Out :=
  let n := (s.greg .el gn).toNat
  s.issue .el e 3 (destOk s.el.lic .el q) (match scalarEntries n with
    | none => [.refuse .red 6]
    | some k => [qAct .red (.spass rid.toNat n (s.greg .el ge).toNat min) q k])

/-- SSUM (R261). -/
def execSsum (e : Env) (q : QDest) (rid : BitVec 12) (gn ge : Fin 64) (s : State) : Out :=
  let n := (s.greg .el gn).toNat
  s.issue .el e 3 (destOk s.el.lic .el q) (match scalarEntries n with
    | none => [.refuse .red 7]
    | some k => [qAct .red (.ssum rid.toNat n (s.greg .el ge).toNat) q k])

end Sys2Proof.Machine
end

