-- ==== Sys2Proof/Machine/Refs.lean ====
section
/-! DEFINITION. The commands of reference selection and of the distribution of time (chapter 3). -/

namespace Sys2Proof.Machine

/-! ### Candidates (R65, R66) -/

/-- The lane whose time messages are a candidate (chapter 3): U0, and U1 of a leaf or PE8 of a root. -/
def State.candLane (s : State) (k : Nat) : Nat := if k = 6 then 128 else if s.tier = 2 then 152 else 129

/-- REF_VALID (R65): a candidate enabled at this tier, of whose monitors none that State holds reports a fault: a quality level too low, a lane down or failed, a twin that selects UPB (R92). Event 0x1030. The measured FREQ_OFS of a REF input is a free value (log 2). -/
def execRefValid (k : Fin 8) (s : State) : Out :=
  let en := if k.val < 4 then s.bit .ux (Reg.UX_REF_IN_CFG_EN k)
    else if k.val < 6 then s.bit .ux (Reg.UX_TP_CFG_PORT_EN (k - 4)) && s.bit .ux (Reg.UX_TP_CFG_PTP_EN (k - 4)) && !s.qlBad (k - 4)
    else s.laneTimes .ux (s.candLane k) && !(k.val == 7 && s.tier == 2 && s.ux.rootUpbSel)
  if s.candHere k && en && !s.candValid k then
    let s := (s.candPut k true false).log .ux 0x45 0x1030 k 0
    if k.val < 4 then
      let d := s.draw
      .next (d.2.put .ux (Reg.UX_REF_IN_STAT_FREQ_OFS k) d.1.toNat)
    else .next s
  else .next s

/-- REF_QUALIFIED (R65, R71, R73, R76): a valid candidate has been valid for QUAL_TIME; event 0x1031. FREE may leave for it; with REVERTIVE a higher-priority one starts the wait-to-restore timer. -/
def execRefQualified (k : Fin 8) (s : State) : Out :=
  if s.candValid k && !s.candQual k then
    let s := (s.candPut k true true).log .ux 0x45 0x1031 k 0
    let sel := s.get .ux Reg.UX_REF_STAT_SEL
    let timer := s.dpllState != 0 && s.get .ux Reg.UX_REF_CTRL_MODE == 0 && s.bit .ux Reg.UX_REF_CTRL_REVERTIVE
      && s.candQual sel && decide (s.prioOf k < s.prioOf sel)
    .next (if timer then s.wtrStart k else s.refResolve)
  else .next s

/-- REF_LOST (R65): a monitor declares a candidate lost. -/
def execRefLost (k : Fin 8) (monitor : BitVec 8) (s : State) : Out := .next (s.candLost k monitor.toNat)

/-- A revertive switch that is due happens once the DPLL is LOCKED (R76). -/
def State.wtrSwitch (s : State) : State :=
  match s.wtrDue with
  | some k => if s.dpllState = 2 then s.dpllSeek 3 k else s
  | none => s

/-- DPLL_LOCKED (R71, R72, R76, R78, R81): the lock criterion holds; event 0x1034. A root's first lock on a traceable candidate steps TB0 to its time; a root that follows it measures the phase error; a wait-to-restore that expired meanwhile switches at once. The offset the loop demands of the DCO, and its mean, are free values (log 2). -/
def execDpllLocked (freqOfs : BitVec 40) (candTime : Nat) (s : State) : Out :=
  if s.dpllState == 1 || s.dpllState == 3 then
    let k := s.get .ux Reg.UX_REF_STAT_SEL
    let s := (s.put .ux Reg.UX_REF_STAT_STATE 2).logI .ux 0x45 0x1034 k (freqOfs.toInt)
    let s := s.dcoLoop
    let b := s.draw
    let s := b.2.setReg .ux Reg.UX_DCO_HIST_VALUE.off (BitVec.ofInt 64 (((b.1.toNat % 28147497671 : Nat) : Int) - dcoLimit))
    let c := candTime % hxtMod
    let s := s.rootFollow k (psOf (hxtDiff (s.tbNow .ux 0) c))
    let s := s.refTraceAt (some c)
    .next (match s.wtrDue with
      | some _ => s.wtrSwitch
      | none => s.refResolve)
  else .next s

/-- ACQ_TIMEOUT (R72, R77): ALARM with cause ACQ_TIMEOUT; the DPLL keeps trying, and its loop may demand more than the DCO gives. -/
def execAcqTimeout (s : State) : Out :=
  .next (if (s.dpllState == 1 || s.dpllState == 3) && !s.ux.dpll.alarmAcq then
    ((s.modUx (fun u => { u with dpll := { u.dpll with alarmAcq := true } })).dpllAlarm Reg.UX_REF_STAT_ACQ_TIMEOUT).dcoLoop else s)

/-- WTR_EXPIRY (R76): the timer that started first expires; a LOCKED DPLL switches, else the switch waits for LOCKED. -/
def execWtrExpiry (s : State) : Out :=
  .next (match s.ux.dpll.wtr with
    | (k, _) :: rest => (s.modUx (fun u => { u with dpll := { u.dpll with wtr := rest, wtrDone := u.dpll.wtrDone ++ [k] } })).wtrSwitch
    | [] => s)

/-- REF_MODE_WRITE (R71, R8): AUTO, FORCED or FREE; code 3 is reserved and refused. Outside AUTO no wait-to-restore runs. -/
def execRefModeWrite (mode : Fin 4) (s : State) : Out :=
  if mode.val = 3 then .next (s.logOpen .ux 0x45 1 0)
  else
    let s := s.put .ux Reg.UX_REF_CTRL_MODE mode
    let s := if mode.val = 0 then s else s.wtrClear
    .next s.refResolve

/-- ROOT_START (R78, R49): the root steps TB0 to HXT 0, or refuses a later step. -/
def execRootStart (s : State) : Out :=
  .next (if s.tier != 2 then s else if s.tbState .ux 0 = 0 then s.rootStep 0 false else s.tbStepRefused .ux 0)

/-- START_WAIT_EXPIRY (R78): the earliest of three happenings steps TB0; a wait that ends after the step asks for nothing (log 11). -/
def execStartWaitExpiry (s : State) : Out :=
  .next (if s.tier == 2 && s.tbState .ux 0 == 0 then s.rootStep 0 false else s)

/-- TOD_WRITE (R66): the written second names the next edge; a write in the last 10 ms names the edge after it by the value plus 1. -/
def execTodWrite (n : Fin 4) (sec : Word) (lateForEdge : Bool) (s : State) : Out :=
  let v := if lateForEdge then (sec.toNat + 1) % 2 ^ 64 else sec.toNat
  let s := s.setReg .ux (Reg.UX_REF_IN_TOD_SEC n).off sec
  .next (s.modUx (fun u => { u with todNext := tput 0 u.todNext n (v + 1), todSkip := tput 0 u.todSkip n (if lateForEdge then 1 else 0) }))

/-- A 1PPS edge of a known second is compared with TB0 (R79, R81): DLY is the path's delay, by which the edge comes late. -/
def State.ppsCompare (s : State) (n : Nat) : State :=
  let c := (s.reg .ux (Reg.UX_REF_IN_TOD_SEC n).off).toNat * hxtSec
  let dly := s.getI .ux (Reg.UX_REF_IN_CFG_DLY n)
  let s := s.rootFollow n (psOf (hxtDiff (s.tbSample .ux 0) (c % hxtMod)) - dly)
  if s.get .ux Reg.UX_REF_STAT_SEL = n then s.refTraceAt (some (c % hxtMod)) else s.refTrace

/-- PPS_EDGE (R64, R66): the edge takes the written second and sets TOD_VALID; later edges count on. Below the root a REF input serves capture only. -/
def execPpsEdge (n : Fin 4) (s : State) : Out :=
  if s.tier != 2 || s.get .ux (Reg.UX_REF_IN_CFG_TYPE n) != 0 || !s.bit .ux (Reg.UX_REF_IN_CFG_EN n) then .next s
  else
    let v := tget 0 s.ux.todNext n
    let skip := tget 0 s.ux.todSkip n
    if v != 0 && skip == 0 then
      let s := (s.setReg .ux (Reg.UX_REF_IN_TOD_SEC n).off (BitVec.ofNat 64 (v - 1))).put .ux (Reg.UX_REF_IN_STAT_TOD_VALID n) 1
      .next ((s.modUx (fun u => { u with todNext := tput 0 u.todNext n 0 })).ppsCompare n)
    else
      let s := s.modUx (fun u => { u with todSkip := tput 0 u.todSkip n 0 })
      .next (if s.bit .ux (Reg.UX_REF_IN_STAT_TOD_VALID n) && v == 0 then
        (s.put .ux (Reg.UX_REF_IN_TOD_SEC n) (s.get .ux (Reg.UX_REF_IN_TOD_SEC n) + 1)).ppsCompare n else s)

/-! ### The time ports (R65, R68 to R70) -/

/-- A time port's clock. -/
def State.ptpClock (s : State) (port : Nat) : PtpClock := tget PtpClock.zero s.ux.ptp port

/-- A time port's clock replaced. -/
def State.setPtp (s : State) (port : Nat) (c : PtpClock) : State := s.modUx (fun u => { u with ptp := tput PtpClock.zero u.ptp port c })

/-- What a time port sends. -/
def State.tpMsgSend (s : State) (m : TpMsg) : State := s.modUx (fun u => { u with tpSent := u.tpSent ++ [m] })

/-- The numbers that the dataset comparison of IEEE 1588-2019 orders masters by, the lower the better (R68, log 98). -/
def ptpRank (d : PtpData) : List Nat :=
  [d.priority1.toNat, d.clsClock.toNat, d.accuracy.toNat, d.variance.toNat, d.priority2.toNat, d.identity.toNat, d.steps.toNat]

/-- A dataset is better than another. -/
def ptpBetter (a b : PtpData) : Bool := decide (ptpRank a < ptpRank b)

/-- ESMC with QL-DNU, so that no loop forms through the port (R70): SSM code 15 (log 98). -/
def State.sendDnu (s : State) (port : Nat) : State := s.tpMsgSend (.esmc port 15)

/-- The quality level of a port is judged (R65): a level worse than QL_MIN loses its candidate. -/
def State.qlCheck (s : State) (port : Nat) : State := if s.qlBad port then s.candLost (4 + port) 2 else s

/-- A Sync whose origin is known: its Delay_Req leaves, and its departure T3 is stamped (R68). -/
def State.ptpRequest (s : State) (port : Nat) (seq t2 t1 : Nat) : State :=
  let c := s.ptpClock port
  let q := (c.reqSeq + 1) % 2 ^ 16
  let t3 := s.tbRaw .ux 0 (s.frcSample .ux) 0
  (s.setPtp port { c with sync := some (seq, t2, some t1), req := some (q, t3), reqSeq := q }).tpMsgSend (.delayReq port q t3)

/-- The end-to-end exchange is complete (R68): mean path delay and offset from master, in ps, the asymmetry of the path taken off; they show in ns, cut to their fields (log 93), and the root follows the offset of the selected candidate (R79). -/
def State.ptpMeasure (s : State) (port t1 t2 t3 t4 : Nat) : State :=
  let down := hxtDiff t2 t1
  let up := hxtDiff t4 t3
  let mean := roundEven ((down + up) * 1000) (2 * 4294967296)
  let ofs := roundEven ((down - up) * 1000) (2 * 4294967296) - s.getI .ux (Reg.UX_TP_CFG_ASYM port)
  ((s.putI .ux (Reg.UX_TP_STAT_OFS_MASTER port) (roundEven ofs 1000)).putI .ux (Reg.UX_TP_STAT_MEAN_PATH port) (roundEven mean 1000)).rootFollow (4 + port) ofs

/-- The body of a PTP message that reaches the clock of its port (R68): a master's Announce is compared with the best one known, Sync, Follow_Up and Delay_Resp of that master run the end-to-end exchange. -/
def State.ptpTake (s : State) (port : Nat) (sender : Word) (b : PtpBody) : State :=
  let c := s.ptpClock port
  let mine := match c.master with
    | some d => d.identity == sender
    | none => false
  match b with
  | .announce d =>
    let take := match c.master with
      | some e => e.identity == d.identity || ptpBetter d e
      | none => true
    if take then ((s.setPtp port { c with master := some d }).put .ux (Reg.UX_TP_STAT_TRACEABLE port) (if d.traceable then 1 else 0)).refTrace else s
  | .sync seq origin =>
    if !mine then s
    else
      let t2 := s.tbRaw .ux 0 (s.frcSample .ux) 0
      match origin with
      | some t1 => s.ptpRequest port seq.toNat t2 t1
      | none => s.setPtp port { c with sync := some (seq.toNat, t2, none) }
  | .followUp seq t1 =>
    match c.sync with
    | some (n, t2, none) => if mine && n == seq.toNat then s.ptpRequest port n t2 t1 else s
    | _ => s
  | .delayResp seq t4 =>
    match c.sync, c.req with
    | some (_, t2, some t1), some (q, t3) =>
      if mine && q == seq.toNat then (s.setPtp port { c with req := none }).ptpMeasure port t1 t2 t3 t4 else s
    | _, _ => s
  | .esmc _ | .unsupported => s

/-- PTP_MESSAGE (R65, R68 to R70): a message of the port's domain and transport reaches its clock while PTP_EN = 1; ESMC gives the quality level while SYNCE_EN = 1, and is answered with QL-DNU; a message that needs an unsupported function is discarded and counted. The port is a client at the root only (R64). -/
def execPtpMessage (port : Fin 2) (m : PtpMsg) (s : State) : Out :=
  if s.tier != 2 || !s.bit .ux (Reg.UX_TP_CFG_PORT_EN port) then .next s
  else
    let s := s.put .ux (Reg.UX_TP_STAT_LINK_UP port) 1
    match m.body with
    | .unsupported => .next (s.modUx (fun u => { u with ptpDiscards := u.ptpDiscards + 1 }))
    | .esmc ql =>
      .next (if s.bit .ux (Reg.UX_TP_CFG_SYNCE_EN port) then
        ((s.put .ux (Reg.UX_TP_STAT_QL_RX port) ql.toNat).sendDnu port).qlCheck port else s)
    | b =>
      .next (if s.bit .ux (Reg.UX_TP_CFG_PTP_EN port) && m.domain.toNat == s.get .ux (Reg.UX_TP_CFG_DOMAIN port)
          && m.transport.toNat == s.get .ux (Reg.UX_TP_CFG_TRANSPORT port)
        then s.ptpTake port m.sender b else s)

/-! ### The exchange of marks (R82 to R86, R118) -/

/-- The two numbers of R83 in ps, rounded to the nearest: delay and offset. -/
def exchange (t1 t2 t3 t4 : Nat) (asymPs : Int) : Int × Int :=
  let down := hxtDiff t2 t1
  let up := hxtDiff t4 t3
  (roundEven ((down + up) * 1000) (2 * 4294967296), roundEven ((down - up) * 1000 - asymPs * 4294967296) (2 * 4294967296))

/-- The offset of R83 in FRAC units. -/
def offsetFrac (t1 t2 t3 t4 : Nat) (asymPs : Int) : Int :=
  roundEven ((hxtDiff t2 t1 - hxtDiff t4 t3) * 1000 - asymPs * 4294967296) 2000

/-- The RATE a servo sets (R46, R50): the part that follows the source's frequency, which may be any rate, and the part that corrects phase, which keeps within SLEW_LIMIT; their sum keeps within R46. The servo's law is not given: both parts are free (log 2). The first is kept. -/
def State.servoRate (s : State) (p : Part) (n : Nat) : State :=
  let a := s.draw
  let b := a.2.draw
  let f := ((a.1.toNat % 112589990685 : Nat) : Int) - rateMax
  let lim := s.slewLimit p
  let ph := ((b.1.toNat % (2 * lim.toNat + 1) : Nat) : Int) - lim
  (b.2.mod p (fun c => { c with tbFreq := tput 0 c.tbFreq n f })).tbSetRate p n (clampI (-rateMax) rateMax (f + ph))

/-- The servo of a time base takes a phase error (R53): LOCKED leaves for SLEWING beyond 750 ps, HOLDOVER returns to SLEWING, and RATE moves. After a loss of REFCLK it stays in HOLDOVER (R402). -/
def State.servo (s : State) (p : Part) (n : Nat) (pe : Int) : State :=
  let st := s.tbState p n
  if p == .el && s.el.refclkLost then s
  else
    let s := s.putI p (Reg.TB_STAT_PHASE_ERR n) pe
    let s := s.servoRate p n
    if st = 2 && 750 < pe.natAbs then s.tbSetState p n 3
    else if st = 4 then s.tbSetState p n 3
    else s

/-- One matched exchange counts towards calibration (R85): after 4,096 of them CAL_DONE is set and 0x1040 logged. Afterwards a filtered delay more than 100 ps from the calibrated one restarts it with DRIFT and 0x1041 (R86). The filter is not given: its output is a free value (log 2). -/
def State.calStep (s : State) (p : Part) (x : Nat) : State :=
  let blk := laneBlk p x
  let d := s.draw
  let f : Nat := d.1.toNat % 2 ^ 32
  let s := d.2
  if s.bit p (Reg.LANE_TCAL_CAL_DONE blk) then
    let diff : Int := (f : Int) - ((s.lane p x).calPs : Int)
    let s := s.put p (Reg.LANE_DELAY_D_PS blk) f
    if 100 < diff.natAbs then
      ((s.put p (Reg.LANE_TCAL_DRIFT blk) 1).logI p (if p == .el then 0x02 else 0x45) 0x1041 x diff).recal p x
    else s
  else
    let m := (s.lane p x).matched + 1
    let s := s.modLane p x (fun l => { l with matched := m })
    if m < 4096 then s
    else
      let s := s.modLane p x (fun l => { l with calPs := f })
      let s := (s.put p (Reg.LANE_TCAL_CAL_DONE blk) 1).put p (Reg.LANE_DELAY_D_PS blk) f
      let s := match p with
        | .el => s.put .el (if x = 0 then Reg.TIME_STAT_CAL_A else Reg.TIME_STAT_CAL_B) 1
        | .ux => s
      (s.log p (if p == .el then 0x02 else 0x45) 0x1040 x f).laneActivate p x

/-- A time base takes its step (R51) from a matched message: its value moves by the offset, so that the next offset is 0. -/
def State.childStep (s : State) (p : Part) (n : Nat) (m : TimeMsg) (th : Int) : State :=
  let v := ((s.tbRaw p n (s.frcNow p) 0 : Int) - th) % (hxtMod : Int)
  let s := s.tbStep p n v.toNat
  if n = 0 then s.put p Reg.TIME_STAT_EPOCH_TAI (if m.epochTai then 1 else 0) else s

/-- UX_XPLANE_DIFF takes B - A, and a root logs 0x1042 at each crossing of TOL (R91). -/
def State.crossPlane (s : State) (th : Int) : State :=
  let d := if s.bit .ux Reg.UX_IDENT_ROLE_PLANE then th else -th
  let tol := ((hxtNs (s.get .ux Reg.UX_XPLANE_CTRL_TOL) : Nat) : Int)
  let old := s.getI .ux Reg.UX_XPLANE_DIFF_DIFF
  let was := s.reg .ux Reg.UX_XPLANE_DIFF_DIFF.off != 0x8000000000000000 && decide (tol < (old.natAbs : Int))
  let s := s.putI .ux Reg.UX_XPLANE_DIFF_DIFF d
  if s.tier == 2 && was != decide (tol < (d.natAbs : Int)) then s.logI .ux 0x45 0x1042 0 d else s

/-- What a Uhloux learns from the ROOT byte of a time message (R67, R82, R92): traceability and the root's DPLL state from its uplink; a root whose twin selects UPB invalidates its own UPB with 0x1038. -/
def State.rootByte (s : State) (x : Nat) (m : TimeMsg) : State :=
  if s.tier == 2 && x == 152 then
    let s := s.modUx (fun u => { u with rootUpbSel := m.upbSel, dpll := { u.dpll with upTrace := m.traceable } })
    if m.upbSel && s.candValid 7 then (s.log .ux 0x45 0x1038 7 0).candLost 7 3 else s.refTrace
  else if x == 128 || x == 129 then
    let s := if s.laneCand x = some (s.get .ux Reg.UX_REF_STAT_SEL) then
        s.modUx (fun u => { u with rootUpbSel := m.upbSel, dpll := { u.dpll with upTrace := m.traceable, upState := m.dpll.toNat } }) else s
    s.refTrace
  else s

/-- The effect of a matched exchange on the time base that follows the lane, given whether the link was calibrated before this message. -/
def State.follow (s : State) (p : Part) (x : Nat) (cal : Bool) (m : TimeMsg) (t3 : Nat) : State :=
  let asym := m.asym.toInt
  match p with
  | .el =>
    match s.laneTb x with
    | none => s
    | some n =>
      let t2 := s.tbRaw .el n (s.frcSample .el) 0
      let e := exchange m.t1 t2 t3 m.t4 asym
      let th := offsetFrac m.t1 t2 t3 m.t4 asym
      if s.tbState .el n = 0 then (if cal then s.childStep .el n m th else s)
      else
        let s := if n = 0 then s.put .el Reg.TIME_STAT_EPOCH_TAI (if m.epochTai then 1 else 0) else s
        let s := if n = 0 && s.el.switchOwed then
            (s.modEl (fun l => { l with switchOwed := false })).logI .el 0x02 0x1005 0 th else s
        s.servo .el n e.2
  | .ux =>
    let t2 := s.tbRaw .ux 0 (s.frcSample .ux) 0
    let e := exchange m.t1 t2 t3 m.t4 asym
    let th := offsetFrac m.t1 t2 t3 m.t4 asym
    let s := if 152 ≤ x && cal && s.tbState .ux 0 != 0 then s.crossPlane th else s
    if s.dpllState != 0 && s.laneCand x == some (s.get .ux Reg.UX_REF_STAT_SEL) then
      if s.tier == 2 then
        (s.rootFollow 7 e.2).refTraceAt (some (((t2 : Int) - th) % (hxtMod : Int)).toNat)
      else if s.tbState .ux 0 = 0 then (if cal then s.childStep .ux 0 m th else s)
      else (s.put .ux Reg.TIME_STAT_EPOCH_TAI (if m.epochTai then 1 else 0)).servo .ux 0 e.2
    else s

/-- The arrival of the partner's mark is stamped with TB0 for the next echo (R82, R83). -/
def State.markStamp (s : State) (p : Part) (x : Nat) (seq : BitVec 16) : State :=
  let t4 := s.tbSample p 0
  s.modLane p x (fun l => { l with lastUp := seq, lastT4 := t4 })

/-- TIME_MESSAGE (R51, R53, R83 to R87, R91, R92): a child stamps T2 and, when the message echoes a mark it sent, forms delay and offset: calibration counts, the time base steps once or its servo takes the offset. Between twins and partners each end is both (log 8). -/
def execTimeMessage (p : Part) (lane : Fin 160) (m : TimeMsg) (s : State) : Out :=
  if s.laneTimes p lane && !(s.laneParent p lane && lane.val < 128) then
    let s := match p with
      | .el => s
      | .ux => (if 144 ≤ lane.val then s.markStamp .ux lane m.seq else s).rootByte lane m
    let l := s.lane p lane
    let t3 := tget 0 l.t3 m.echoSeq.toNat
    if t3 = 0 then .next s
    else
      let cal := s.bit p (Reg.LANE_TCAL_CAL_DONE (laneBlk p lane))
      let s := s.modLane p lane (fun l => { l with t3 := tput 0 l.t3 m.echoSeq.toNat 0 })
      .next ((s.calStep p lane).follow p lane cal m (t3 - 1))
  else .next s

/-- UPWARD_MARK (R83, R85, R86, R118, R121): a parent stamps T4 with its TB0 for the next echo, takes the child's filtered delay, and shares its CAL_DONE; a calibration the parent restarted counts 4,096 of the child's marks first. -/
def execUpwardMark (p : Part) (lane : Fin 160) (seq : BitVec 16) (dPs : BitVec 32) (s : State) : Out :=
  if s.laneTimes p lane && s.laneParent p lane && lane.val < 128 then
    let blk := laneBlk p lane
    let s := (s.markStamp p lane seq).modLane p lane (fun l => { l with recalLeft := l.recalLeft - 1 })
    if dPs = 0 then .next (s.calClear p lane)
    else if (s.lane p lane).recalLeft != 0 then .next s
    else
      let s := s.put p (Reg.LANE_DELAY_D_PS blk) dPs.toNat
      if s.bit p (Reg.LANE_TCAL_CAL_DONE blk) then .next s
      else .next (((s.put p (Reg.LANE_TCAL_CAL_DONE blk) 1).log p 0x45 0x1040 lane dPs.toNat).laneActivate p lane)
  else .next s

/-- The time message an end sends with a mark (R82); T1 is stamped as its frame departs (R118). ASYM counts at the parent only (R94). -/
def State.timeMsg (s : State) (x : Nat) (seq : BitVec 16) : TimeMsg :=
  let l := s.lane .ux x
  let root := s.tier == 2
  let a := s.getI .ux (Reg.LANE_TCAL_A_INT (laneBlk .ux x)) + (if s.bit .ux (Reg.LANE_TCAL_PARENT (laneBlk .ux x)) then s.getI .ux (Reg.LANE_TCAL_ASYM (laneBlk .ux x)) else 0)
  { t1 := s.tbSample .ux 0, t4 := l.lastT4, seq := seq, echoSeq := l.lastUp, asym := BitVec.ofInt 16 a,
    upbSel := if root then s.dpllState != 0 && s.get .ux Reg.UX_REF_STAT_SEL == 7 else s.ux.rootUpbSel,
    epochTai := s.bit .ux Reg.TIME_STAT_EPOCH_TAI,
    traceable := if root then s.bit .ux Reg.UX_REF_STAT_TRACEABLE else s.ux.dpll.upTrace,
    dpll := BitVec.ofNat 2 (if root then s.dpllState else s.ux.dpll.upState),
    depth := BitVec.ofNat 8 (2 - s.tier) }

/-- The boundary of 256 ACLK ticks whose mark an end has to send (R118). -/
def State.markBoundary (s : State) (p : Part) : Nat := s.tick p / 256 + 1

/-- A mark is due on a lane: its boundary has come and no mark of it has left (R118). -/
def State.markDue (s : State) (p : Part) (x : Nat) : Bool := s.laneTimes p x && decide ((s.lane p x).markSlot < s.markBoundary p)

/-- MARK_SEND (R118, R120): once at each boundary of 256 ACLK ticks an end sends a mark; a parent's carries the time message, a child's its number and delay. Between twins and partners both send the time message (log 8). Its departure is stamped when its frame leaves. Without VC0 credit the mark is skipped, counted and logged as 0x2009. -/
def execMarkSend (p : Part) (lane : Fin 160) (s : State) : Out :=
  if s.markDue p lane then
    let b := s.markBoundary p
    let s := s.modLane p lane (fun l => { l with markSlot := b })
    if s.credit p lane 0 = 0 then
      .next ((s.count p (Reg.LANE_ERR_MARK_SKIP (laneBlk p lane)) 1).log p (unitLane p lane) 0x2009 lane 0)
    else
      let seq := (s.lane p lane).markSeq + 1
      let s := s.modLane p lane (fun l => { l with markSeq := seq })
      .next (s.send p lane (if p == .ux && (s.laneParent p lane || 144 ≤ lane.val) then .timeMark (s.timeMsg lane seq)
        else .upMark seq (BitVec.ofNat 32 (s.get p (Reg.LANE_DELAY_D_PS (laneBlk p lane))))))
  else .next s

/-- TCAL_RECAL (R86): calibration of the lane restarts. -/
def execTcalRecal (p : Part) (lane : Fin 160) (s : State) : Out :=
  .next (if laneHere p lane && s.laneUsed p lane then s.recal p lane else s)

end Sys2Proof.Machine
end

