-- ==== Sys2Proof/Machine/Sec.lean ====
section
/-! DEFINITION. The rows of the SEC unit: attestation, provisioning lock, debug, key revocation and firmware images (R439, R451 to R459). -/

namespace Sys2Proof.Machine

/-! ### The attestation report (R454) -/

/-- The number of a part in the constants of Config. -/
def partNo : Part → Nat
  | .el => 0
  | .ux => 1

/-- The rows of a part's register map. -/
def allRows : Part → List RegRow
  | .el => (List.range 14).flatMap (fun b => elBlock (0x1000 * b))
  | .ux => (List.range 14).flatMap (fun b => uxBlock (0x1000 * b)) ++ uxBlock 0x40000

/-- The offsets of the registers that hold an ST field, in ascending order. -/
def stOffsets (p : Part) : List Nat :=
  let rs := (allRows p).filter (fun r => r.fields.any (fun f => f.acc == .st))
  (rs.flatMap (fun r => (List.range r.count).map (fun i => r.base + r.stride * i))).mergeSort

/-- The committed value of an ST register: its ST fields, 0 elsewhere (log 52). -/
def State.committed (s : State) (p : Part) (off : Nat) : Word := stMerge p off 0 (s.reg p off)

/-- CONFIG_HASH (R454): SHA-384 over the committed value of every ST register the instance has, 8 bytes each. -/
def State.configHash (s : State) (p : Part) : List Byte :=
  sha384 (((stOffsets p).filter (fun o => s.regHere p o)).flatMap (fun o => leBytes 8 (s.committed p o).toNat))

/-- The hash of the loaded image, or zero bytes. -/
def State.imageHash (s : State) (p : Part) : List Byte :=
  if s.loaded p then (List.range 6).flatMap (fun i => leBytes 8 (s.reg p (Reg.SEQ_IMGHASH_HASH i).off).toNat) else List.replicate 48 0

/-- The PDI of a part in its report (R126). -/
def State.partPdi (s : State) : Part → Nat
  | .el => s.myPdi
  | .ux => s.chipSubj.pdi.toNat

/-- Bytes 0x00 to 0xC7 of the report, for a nonce. -/
def State.reportBody (s : State) (p : Part) (nonce : List Byte) : List Byte :=
  ([0x48, 0x58, 0x41, 0x31] : List Byte) ++ leBytes 1 (partNo p)
    ++ leBytes 1 (s.get p Reg.SEC_STAT_LOCKED + 2 * s.get p Reg.SEC_STAT_DBG_OPEN + 4 * s.get p Reg.SEC_CTRL_TEST_PERMIT)
    ++ leBytes 2 1 ++ leBytes 4 (s.partPdi p) ++ leBytes 4 (match p with | .el => s.get .el Reg.SEED_RKCHK_CHK | .ux => 0)
    ++ leBytes 8 (s.tbNow p 0 / hxtSec) ++ (nonce ++ List.replicate 32 0).take 32 ++ s.imageHash p
    ++ (match p with | .el => List.replicate 48 0 | .ux => (s.ux.base.fwHash ++ List.replicate 48 0).take 48) ++ s.configHash p

/-- A signed report (R454), and the state that has drawn the free value of the signature. -/
def State.report (s : State) (p : Part) (nonce : List Byte) : List Byte × State :=
  let body := s.reportBody p nonce
  let sig := leBytes 96 (Config.signature s.draws (BitVec.ofNat 384 (beNat (sha384 body)))).toNat
  (body ++ sig, { s with draws := s.draws + 1 })

/-- ATT_GO (R453, R454): the nonce of the window is taken; without the PUF's key the attestation is refused, and no report appears. -/
def execAttGo (p : Part) (s : State) : Out :=
  .next (if s.bit p Reg.SEC_STAT_PUF_OK then s.mod p (fun b => { b with attPend := some (mread b.secBytes 0xC900 32) }) else s)

/-- ATT_DONE (R454): the report stands in its window, and ATT_DONE is set. -/
def execAttDone (p : Part) (s : State) : Out :=
  .next (match (s.base p).attPend with
    | some n =>
      let r := s.report p n
      (r.2.mod p (fun b => { b with attPend := none, secBytes := mwrite b.secBytes 0xCA00 r.1 })).put p Reg.SEC_CTRL_ATT_DONE 1
    | none => s)

/-! ### Attestation over the links (R455) -/

/-- An attestation report goes out in fragments (R440). -/
def State.sendReport (s : State) (p : Part) (lane status : Nat) (bs : List Byte) : State :=
  (fragments bs.length).foldl (fun t f => t.send p lane (.attestRsp status f.1 ((bs.drop f.1).take f.2.1) f.2.2)) s

/-- ATTEST_REQ (R453, R455): a report over the nonce is returned, or REFUSED without the PUF's key. -/
def execAttestReq (p : Part) (lane : Fin 160) (nonce : List Byte) (s : State) : Out :=
  .next (if s.bit p Reg.SEC_STAT_PUF_OK then
      let r := s.report p nonce
      r.2.sendReport p lane stOk r.1
    else s.sendReport p lane stRefused [])

/-- SHA-384 of a public key appears in the allow table (R455, R472). -/
def State.allowed (s : State) (pub : List Byte) : Bool :=
  let h := sha384 pub
  let base := s.get .ux Reg.UX_SEC_ALLOW_BASE * 2 ^ 16
  (List.range (s.get .ux Reg.UX_SEC_ALLOW_COUNT)).any (fun i => mread s.ux.base.mem (base + 48 * i) 48 == h)

/-- A report is accepted: its signature verifies, its nonce is the one sent, and its key is allowed (R455). -/
def State.reportOk (s : State) (lane : Nat) (report pub : List Byte) : Bool :=
  let n := tget [] s.ux.nonces lane
  report.length == 296 && !n.isEmpty && (report.drop 0x18).take 32 == n && s.allowed pub
    && ecdsaVerify pub (sha384 (report.take 0xC8)) (report.drop 0xC8)

/-- ATTEST_RSP (R326, R455): the child of an accepted report has attested, and a die's next heartbeat makes it STANDBY; a failed attestation logs 0x9021 with the subject's PDI. -/
def execAttestRsp (lane : Fin 160) (report pubKey : List Byte) (s : State) : Out :=
  let x := lane.val
  .next (if 128 ≤ x then s
    else if s.reportOk x report pubKey then
      let s := s.modUx (fun u => { u with nonces := tput [] u.nonces x [] })
      s.modUx (fun u => { u with attested := if u.attested.contains x then u.attested else u.attested ++ [x] })
    else s.log .ux 0x47 0x9021 x (s.childSubj x).pdi.toNat)

/-- ATTEST_RETRY (R455): a lane whose attestation is still open is asked again. -/
def execAttestRetry (lane : Fin 160) (s : State) : Out :=
  .next (if lane.val < 128 && s.laneState .ux lane == 4 && !(tget [] s.ux.nonces lane).isEmpty then s.attestAsk lane else s)

/-! ### Provisioning, keys and debug (R451, R452, R459) -/

/-- The provisioning lock is set in fuses; no test data register stays selected (R516). -/
def State.provLock (s : State) (p : Part) : State := ((s.put p Reg.SEC_CTRL_PROV_LOCK 1).put p Reg.SEC_STAT_LOCKED 1).tdrGate

/-- PROV_LOCK (R452). -/
def execProvLock (p : Part) (s : State) : Out := .next (s.provLock p)

/-- Slots of a mask are revoked for good; slots 0 to 4 show in REVOKED. -/
def State.keyRevoke (s : State) (p : Part) (mask : Nat) : State :=
  let s := s.setBits p Reg.SEC_KUSE_REVOKE mask
  s.put p Reg.SEC_STAT_REVOKED (s.get p Reg.SEC_KUSE_REVOKE % 32)

/-- KEY_REVOKE (R451, R471). -/
def execKeyRevoke (p : Part) (mask : Byte) (s : State) : Out := .next (s.keyRevoke p mask.toNat)

/-- The debug challenge of a part, 32 bytes. -/
def dbgChallenge (p : Part) : List Byte := leBytes 32 (Config.debugChallenge (partNo p)).toNat

/-- A response to the debug challenge verifies under an unrevoked DEBUG slot (R451, R459). -/
def State.dbgOk (s : State) (p : Part) (sig : List Byte) : Bool :=
  let h := sha384 (dbgChallenge p ++ leBytes 4 (s.partPdi p))
  (List.range 8).any (fun k => !s.keyRevoked p k && s.keyUse p k 2 && ecdsaVerify (s.keyPub p k) h sig)

/-- DBG_UNLOCK with a response: debug opens with 0x9022 where it verifies. -/
def State.dbgUnlock (s : State) (p : Part) (sig : List Byte) : State :=
  if s.dbgOk p sig then (s.put p Reg.SEC_STAT_DBG_OPEN 1).log p (unitSec p) 0x9022 0 0 else s

/-- DBG_UNLOCK (R459). -/
def execDbgUnlock (p : Part) (sig : List Byte) (s : State) : Out := .next (s.dbgUnlock p sig)

/-- FW_IMAGE (R439, R451): a verified image waits for the next warm reset; else 0x9060, and it is discarded. -/
def execFwImage (image : List Byte) (keyId : Word) (sig : List Byte) (s : State) : Out :=
  .next (if s.sigOk .ux 1 keyId (sha384 image) sig then s.modUx (fun u => { u with fwNext := some (sha384 image) })
    else s.log .ux 0x47 0x9060 0 0)

end Sys2Proof.Machine
end

