-- ==== Sys2Proof/Machine/Access.lean ====
section
/-! DEFINITION. What the windows read (R441, R442, R473 to R476, R478, R484 to R489): registers computed when read, the shadow window, the counter file, the watch table, the byte windows, and the windows of BAR0 above the registers. -/

namespace Sys2Proof.Machine

/-! ### Values computed when read -/

/-- A word with a field replaced. -/
def Fld.fill (f : Fld) (w : Word) (v : Nat) : Word := fset w f.hi f.lo v

/-- EL_IDENT_PARAM0 and PARAM1 of an instance (R482). -/
def param0 (l : Licence) : Word :=
  BitVec.ofNat 64 (l.watches * 2 ^ 48 + l.streams * 2 ^ 40 + l.cntPerCore * 2 ^ 32 + l.engPerCore * 2 ^ 28 + l.talLanes * 2 ^ 24
    + l.spmMib * 2 ^ 19 + l.tbCount * 2 ^ 16 + l.cores)

/-- EL_IDENT_PARAM1 (R482). -/
def param1 (l : Licence) : Word := BitVec.ofNat 64 (l.dmaCh * 2 ^ 8 + l.planes)

/-- A register of TB2 (R47): its state, first lock and phase error are TB0's, STEP_REFUSED and SLEW_CLAMP its own, OFS is TB0's less the run epoch, ANCHOR and RATE are TB0's. -/
def State.tb2Live (s : State) (off : Nat) : Option Word :=
  let ofs := hxtSub (s.tbOfs .el 0) (hxtOf (s.reg .el Reg.TB2_EPOCH_SEC_SEC.off) (s.reg .el Reg.TB2_EPOCH_NSF_NS.off))
  match off with
  | 0x1208 => some (fset (fset (s.reg .el 0x1108) 5 5 (s.get .el (Reg.TB_STAT_STEP_REFUSED 2))) 3 3 (s.get .el (Reg.TB_STAT_SLEW_CLAMP 2)))
  | 0x1210 => some (hxtSecW ofs)
  | 0x1218 => some (hxtNsfW ofs)
  | 0x1220 => some (s.reg .el 0x1120)
  | 0x1228 => some (s.reg .el 0x1128)
  | 0x1230 => some (s.reg .el 0x1130)
  | _ => none

/-- A time base or capture register of both parts that is computed when read (R63). -/
def State.timeLive (s : State) (p : Part) (off : Nat) : Option Word :=
  if off = Reg.FRC_LO_FRC_LO.off then some (BitVec.ofNat 64 (s.frcSample p))
  else if 0x1100 ≤ off && off < 0x1300 && off % 0x80 = 0x48 then
    let n := (off - 0x1100) / 0x80
    some (if s.tbHas p n then hxtSecW (s.tbSample p n) else 0)
  else if 0x1500 ≤ off && off < 0x1580 then
    let c := (off - 0x1500) / 0x20
    let fifo := (tget Cap.zero (s.base p).caps c).fifo
    match off % 0x20 with
    | 0x8 => some (fset (fset (s.reg p off) 4 0 fifo.length) 9 9 (match fifo with | (_, true) :: _ => 1 | _ => 0))
    | 0x10 => some (match fifo with | (t, _) :: _ => hxtSecW t | [] => 0)
    | 0x18 => some (match fifo with | (t, _) :: _ => hxtNsfW t | [] => 0)
    | _ => none
  else none

/-- EL_SEQ_QLEVEL (R167). -/
def State.qlevel (s : State) : Word :=
  BitVec.ofNat 64 (s.queueUsed .barrier * 2 ^ 40 + s.queueUsed .ledger * 2 ^ 30 + s.queueUsed .chk * 2 ^ 20 + s.queueUsed .red * 2 ^ 10 + s.queueUsed .move)

/-- An Elesh register computed when read; none where the stored word is the register. -/
def State.elLive (s : State) (off : Nat) : Option Word :=
  match s.timeLive .el off with
  | some w => some w
  | none =>
    if 0x1200 ≤ off && off < 0x1280 then s.tb2Live off
    else match off with
    | 0x0 => some (fset (s.reg .el 0) 31 16 s.el.lic.rev.toNat)
    | 0x8 => some (param0 s.el.lic)
    | 0x10 => some (param1 s.el.lic)
    | 0x1020 => some (match s.planeDiff with | some d => BitVec.ofInt 64 d | none => 0x8000000000000000)
    | 0x2050 => some s.qlevel
    | 0x4030 => some (let i := s.get .el Reg.SYNC_PEEK_IDX_INDEX
                      if s.cntHas (i / 64) (i % 64) then BitVec.ofNat 64 (s.cntView i) else 0)
    | 0x5000 => some (fset (s.reg .el off) 15 12 s.el.lic.talLanes)
    | 0x9020 => some (s.dumpAt .el (s.get .el (dumpIdx .el)))
    | 0xA018 => some (fset (s.reg .el off) 7 6 (s.el.lic.regions - 1))
    | 0xB008 => some (s.manStat .el)
    | _ => none

/-- The vault's number for the die that UX_VWIN_SEL names (R488, R489). -/
def State.vwinDie (s : State) : Nat := s.get .ux Reg.UX_VWIN_SEL_LANE + 128 * s.get .ux Reg.UX_VWIN_SEL_SRC

/-- A VSEAL is being applied (R369). -/
def State.applying (s : State) : Bool :=
  s.ux.base.qops.any (fun o => o.started && (match o.kind with | .vseal _ => true | _ => false))

/-- The age of a downlink's last heartbeat in µs, 0xFFFF where there was none (R369). -/
def State.hbAgeUs (s : State) (x : Nat) : Nat :=
  let j := s.childSubj x
  if (s.obsOf j).heard then min 65535 (s.hbAge j / 1000) else 65535

/-- A Uhloux register computed when read; none where the stored word is the register. Below the root the launch and the seal registers read their reset values (R243, R325). -/
def State.uxLive (s : State) (off : Nat) : Option Word :=
  match s.timeLive .ux off with
  | some w => some w
  | none =>
    if 0x40000 ≤ off && off < 0x4A000 && off % 0x100 = 0x38 then
      some (fset (s.reg .ux off) 55 40 (s.hbAgeUs ((off - 0x40000) / 0x100)))
    else match off with
    | 0x2050 => some (BitVec.ofNat 64 (s.queueUsed .ledg * 2 ^ 20 + s.queueUsed .vault * 2 ^ 10 + s.queueUsed .tree))
    | 0x28 => some (fset (s.reg .ux off) 16 16 (if (s.vault s.vwinDie).hasSealed then 1 else 0))
    | 0x3008 => some (fset (s.reg .ux off) 63 48 s.wtrLeft)
    | 0x4010 | 0x4018 => if s.tier = 2 then none else some 0
    | 0x6040 | 0x6048 | 0x6050 | 0x6058 => if s.tier = 2 then none else some (uxResetWord off)
    | 0x7010 => some (fset (s.reg .ux off) 6 6 (if s.authority then 1 else 0))
    | 0x7048 => some (fset (s.reg .ux off) 0 0 (if s.applying then 1 else 0))
    | 0x9020 => some (s.dumpAt .ux (s.get .ux (dumpIdx .ux)))
    | 0xB008 => some (s.manStat .ux)
    | 0xB030 => some (BitVec.ofNat 64 s.ux.base.staged.length)
    | _ => none

/-! ### The register window -/

/-- The byte windows of the SEC block (R471): key slots, IDPUB, nonce, report, challenge and response. -/
def secWindow (off : Nat) : Option Acc :=
  if 0xC400 ≤ off && off < 0xC800 && (off - 0xC400) % 0x80 < 96 then some .rwl
  else if 0xC800 ≤ off && off < 0xC860 then some .ro
  else if 0xC900 ≤ off && off < 0xC920 then some .rw
  else if 0xCA00 ≤ off && off < 0xCB28 then some .ro
  else if 0xCC00 ≤ off && off < 0xCC20 then some .ro
  else if 0xCC20 ≤ off && off < 0xCC80 then some .wo
  else none

/-- The word a byte window shows (R6, R471): byte 8i in bits [7:0]. -/
def State.secRead (s : State) (p : Part) (off : Nat) : Word :=
  let word := fun (bs : List Byte) (i : Nat) => BitVec.ofNat 64 (leNat ((bs.drop i).take 8))
  match secWindow off with
  | none | some .wo => 0
  | some _ =>
    if 0xC800 ≤ off && off < 0xC860 then word (leBytes 96 (Config.identityKey (partNo p)).toNat) (off - 0xC800)
    else if 0xCC00 ≤ off then word (dbgChallenge p) (off - 0xCC00)
    else word (mread (s.base p).secBytes off 8) 0

/-- Bits of a word in fields of a type. -/
def accMask (r : RegRow) (a : Acc) : Nat :=
  r.fields.foldl (fun m f => if f.acc = a then m ||| ((2 ^ (f.hi + 1 - f.lo) - 1) <<< f.lo) else m) 0

/-- What a register reads (R7, R9, R4): reserved bits, WO fields and registers of an absent resource read 0. -/
def State.regPlain (s : State) (p : Part) (off : Nat) : Word :=
  if !s.regHere p off then 0
  else match regRow p off with
    | none => s.secRead p off
    | some r =>
      let w := ((match p with | .el => s.elLive off | .ux => s.uxLive off).getD (s.reg p off)).toNat
      let all := r.fields.foldl (fun m f => if f.acc = .wo then m else m ||| ((2 ^ (f.hi + 1 - f.lo) - 1) <<< f.lo)) 0
      BitVec.ofNat 64 (Nat.land w all)

/-- The shadow window (R442): the staged value of an ST register, any other as it reads. -/
def State.shadow (s : State) (p : Part) (off : Nat) : Word :=
  if s.isSt p off then stMerge p off (s.regPlain p off) (s.staged p off) else s.regPlain p off

/-- A counter of the loaded image's pairs. -/
def State.paired (s : State) (i : Nat) : Bool :=
  (s.seq .el).pairs.any (fun r => cntKey r.core r.prod == i || cntKey r.core r.cons == i)

/-- The counter file (R242). -/
def State.cntEntry (s : State) (i : Nat) : Word :=
  if s.cntHas (i / 64) (i % 64) then
    BitVec.ofNat 64 (s.cntAbs i % 2 ^ 40 + (if tget false s.el.satBits i then 2 ^ 40 else 0) + (if s.paired i then 2 ^ 41 else 0))
  else 0

/-- A tree counter entry (R243, R485). -/
def State.tcEntry (s : State) (i : Nat) : Word :=
  BitVec.ofNat 64 (tget 0 s.ux.tc i % 2 ^ 40 + (if tget false s.ux.tcSat i then 2 ^ 40 else 0))

/-- Half `h` of a watch entry (R242). -/
def State.watchEntry (s : State) (i h : Nat) : Word :=
  if s.el.lic.watches ≤ i then 0
  else
    let w := s.watchAt i
    if h = 1 then BitVec.ofNat 64 (w.pre % 4 * 2 ^ 24 + w.tmo % 2 ^ 24)
    else BitVec.ofNat 64 ((if w.armed then 2 ^ 62 else 0) + (if w.owner then 2 ^ 61 else 0) + (if w.eq then 2 ^ 60 else 0)
      + w.eng % 8 * 2 ^ 57 + w.core % 256 * 2 ^ 49 + w.k % 64 * 2 ^ 43 + w.target % 2 ^ 40)

/-! ### The windows of BAR0 above the registers (R484 to R488) -/

/-- A word of tree program memory (R485, R475): 32 bytes a bundle; 0 while EMPTY, all ones while LOADING. -/
def State.treeWord (s : State) (o : Nat) : Word :=
  if s.seqState .ux = 1 then allOnes else if s.seqState .ux = 0 then 0 else s.progWord .ux o

/-- The HBM address behind an offset of the general window (R486). -/
def State.hwinAddr (s : State) (o : Nat) : Nat := s.get .ux Reg.UX_HWIN_BASE * 2 ^ 24 + o

/-- A range of HBM holds an address. -/
def inRange (base len a : Nat) : Bool := base ≤ a && a < base + len

/-- The HBM in service. -/
def State.hbmTop (s : State) : Nat := Config.hbmInService (BitVec.ofNat 8 (s.get .ux Reg.UX_IDENT_HBM_STACKS))

/-- A word of the general window (R486): the ledger index reads 0. -/
def State.hwinWord (s : State) (o : Nat) : Word :=
  let a := s.hwinAddr o
  if inRange s.metaBase (2 ^ 29) a then 0 else BitVec.ofNat 64 (leNat (s.hbm a 8))

/-- The length of the OCS table (R460): 256 switch entries and 65,536 path sets. -/
def ocsBytes : Nat := 256 * 32 + 65536 * 64

/-- A range of HBM that the general window protects from writes (R486): ledger pages, ledger metadata, vault, spare table, OCS table. -/
def State.hbmProtected (s : State) (a : Nat) : Bool :=
  inRange (s.get .ux Reg.UX_LEDG_CFG_BASE * 2 ^ 30) (s.get .ux Reg.UX_LEDG_CFG_GIB * 2 ^ 30) a || inRange s.metaBase (2 ^ 30) a
    || inRange (s.get .ux Reg.UX_VAULT_CFG_BASE * 2 ^ 30) (2 ^ 38) a
    || inRange (s.get .ux Reg.UX_HC_SPTAB_BASE * 4096) (8 * s.get .ux Reg.UX_HC_SPTAB_COUNT) a
    || inRange (s.get .ux Reg.UX_OCS_CFG_BASE * 4096) ocsBytes a

/-- A word of the ledger index window (R487). -/
def State.lidxWord (s : State) (o : Nat) : Word :=
  BitVec.ofNat 64 (leNat (s.hbm (s.indexAddr (s.get .ux Reg.UX_LIDX_SEL_SLICE * 2 ^ 20) + o) 8))

/-- A byte of a sealed generation: the last write that covers it, 0 where none does. -/
def VGen.byte (v : VGen) (a : Nat) : Byte :=
  v.sealedGen.foldl (fun b w => if !w.bcv && w.ofs ≤ a && a < w.ofs + w.data.length then w.data.getD (a - w.ofs) 0 else b) 0

/-- A word of the vault window (R488): 0 where the die has no sealed generation or the slice lies beyond its capacity. -/
def State.vwinWord (s : State) (o : Nat) : Word :=
  let v := s.vault s.vwinDie
  let a := s.get .ux Reg.UX_VWIN_SEL_SLICE * 2 ^ 24 + o
  let cap := if s.bit .ux Reg.UX_HC_PEER_WAYS3 then 2 ^ 29 else 2 ^ 30
  if !v.hasSealed || cap ≤ a then 0 else BitVec.ofNat 64 (leNat ((List.range 8).map (fun i => v.byte (a + i))))

/-- What a read without a side effect shows at an 8-byte offset of a part's windows. -/
def State.winRead (s : State) (p : Part) (off : Nat) : Word :=
  if off < 0x10000 then s.regPlain p off
  else if off < 0x20000 then s.shadow p (off - 0x10000)
  else match p with
    | .el =>
      if off < 0x40000 then s.cntEntry ((off - 0x20000) / 8)
      else if off < 0x50000 then s.watchEntry ((off - 0x40000) / 16) (off / 8 % 2)
      else 0
    | .ux =>
      if off < 0x20800 then s.tcEntry ((off - 0x20000) / 8)
      else if 0x40000 ≤ off && off < 0x4A000 then s.regPlain .ux off
      else if 0x100000 ≤ off && off < 0x200000 then s.dumpAt .ux ((off - 0x100000) / 8)
      else if 0x200000 ≤ off && off < 0x400000 then s.treeWord (off - 0x200000)
      else if 0x1000000 ≤ off && off < 0x2000000 then s.hwinWord (off - 0x1000000)
      else if 0x2000000 ≤ off && off < 0x3000000 then s.lidxWord (off - 0x2000000)
      else if 0x3000000 ≤ off && off < 0x4000000 then s.vwinWord (off - 0x3000000)
      else 0

/-- The access error of a read of a BAR0 window (R475, R483, R485, R486, R488): 5 PROG_BUSY, 3 RANGE, 7 BUSY, 0 none. -/
def State.winCause (s : State) (p : Part) (off : Nat) : Nat :=
  match p with
  | .el => 0
  | .ux =>
    if 0x200000 ≤ off && off < 0x400000 && s.seqState .ux = 1 then 5
    else if 0x1000000 ≤ off && off < 0x2000000 && decide (s.hbmTop ≤ s.hwinAddr (off - 0x1000000)) then 3
    else if 0x3000000 ≤ off && off < 0x4000000 && s.applying then 7 else 0

/-! ### Reads with their side effects (R441, R478) -/

/-- A read at an 8-byte offset: FRC_LO, READ_SEC, NSF of a capture input and DUMP_DATA have their side effect; the counts of the FEC decoder, which no command brings, are free values (log 2). -/
def State.sideRead (s : State) (p : Part) (off : Nat) : Word × State :=
  if off = 0x1010 then s.frcRead p
  else if 0x1100 ≤ off && off < 0x1300 && off % 0x80 = 0x48 then s.tbReadSec p ((off - 0x1100) / 0x80)
  else if 0x1500 ≤ off && off < 0x1580 && off % 0x20 = 0x18 then s.capPop p ((off - 0x1500) / 0x20)
  else if off = 0x9020 then s.dumpRead p
  else
    let o := match p with | .el => (if 0x3100 ≤ off && off < 0x3200 then off % 0x80 else 0) | .ux => (if 0x40000 ≤ off && off < 0x4A000 then off % 0x100 else 0)
    if o = 0x28 && s.regHere p off then s.draw
    else if o = 0x20 && s.regHere p off then
      let d := s.draw
      (fset (s.winRead p off) 31 16 d.1.toNat, d.2)
    else (s.winRead p off, s)

/-- A read of the window: 8 bytes, or a half; a read of the high half has no side effect (R478). -/
def State.regRead (s : State) (p : Part) (off : Nat) (size : AccSize) : Word × State :=
  let o8 := off - off % 8
  let r := if off % 8 = 0 then s.sideRead p o8 else (s.winRead p o8, s)
  (accHalf size off r.1, r.2)

end Sys2Proof.Machine
end

