-- ==== Sys2Proof/Machine/Test.lean ====
section
/-! DEFINITION. Self-test and calibration, test unlock, and the degraded operation of Uhloux (R152, R153, R463 to R469, R528). -/

namespace Sys2Proof.Machine

/-! ### Self-test and calibration (R463, R464) -/

/-- An action code is one of the table's (R463). -/
def actionKnown (a : Nat) : Bool := decide (1 ≤ a) && decide (a ≤ 4)

/-- An action exists on a part: the march on Elesh, HBM training on Uhloux. -/
def actionHere (p : Part) (a : Nat) : Bool := match p with | .el => a != 4 | .ux => a != 2

/-- The set bits of a byte. -/
def bitsSet (m : Nat) : Nat := (List.range 8).countP (fun i => bitOf m i)

/-- The duration of an action in ns. -/
def State.actionNs (s : State) (a mask : Nat) : Nat :=
  if a = 1 then 50000 * bitsSet mask else if a = 2 then 250000 * s.el.lic.spmMib else if a = 3 then 200000 else 2000000 * bitsSet mask

/-- The march runs only while the sequencer is EMPTY or READY. -/
def State.actionFree (s : State) (a : Nat) : Bool := a != 2 || s.seqState .el == 0 || s.seqState .el == 2

/-- A request is submitted (R463, R464): a reserved action is handled under R8; a second request, an action the part lacks, or a forced march while RUNNING is refused. -/
def State.selftestGo (s : State) (p : Part) (action mask : Nat) (force : Bool) : State :=
  let st := s.get p Reg.TEST_STSTAT_STATE
  if !actionKnown action then s.logOpen p (unitTest p) 0xA Reg.TEST_STREQ_ACTION.off
  else if st = 1 || st = 2 || !actionHere p action || (force && !s.actionFree action) then s.put p Reg.TEST_STSTAT_STATUS stRefused
  else ((s.put p Reg.TEST_STSTAT_STATE 1).put p Reg.TEST_STSTAT_STATUS stOk).mod p (fun b => { b with selftest := { action := action, mask := mask, force := force, logged := false } })

/-- SELFTEST_GO (R463): the fields of the write stand in TEST_STREQ. -/
def execSelftestGo (p : Part) (action mask : Byte) (force : Bool) (s : State) : Out :=
  let s := if actionKnown action.toNat then s.put p Reg.TEST_STREQ_ACTION action.toNat else s
  let s := (s.put p Reg.TEST_STREQ_MASK mask.toNat).put p Reg.TEST_STREQ_FORCE (if force then 1 else 0)
  .next (s.selftestGo p action.toNat mask.toNat force)

/-- An action fits: the open window covers its units and is long enough (R152); on Uhloux also between tree programs (R153, R421). -/
def State.actionFits (s : State) (p : Part) (a mask : Nat) : Bool :=
  let st := s.seqState p
  (match s.windowOpen p with
    | some w =>
      let covers := (List.range 8).all (fun i => !bitOf (actionUnits p a mask) i || bitOf w.mask i)
      covers && (match w.until? with
        | some t => s.tbNow p 0 + hxtNs (s.actionNs a mask) ≤ t
        | none => true)
    | none => false) || (p == .ux && st != 3 && st != 4)

/-- SELFTEST_START (R464): a queued request starts in a fitting window, or with FORCE at the next bundle boundary. -/
def execSelftestStart (p : Part) (s : State) : Out :=
  let q := (s.base p).selftest
  .next (if s.get p Reg.TEST_STSTAT_STATE = 1 && s.actionFree q.action && (q.force || s.actionFits p q.action q.mask) then s.put p Reg.TEST_STSTAT_STATE 2 else s)

/-- SELFTEST_DEFER (R464): no fitting window within 1 s. -/
def execSelftestDefer (p : Part) (s : State) : Out :=
  let q := (s.base p).selftest
  .next (if s.get p Reg.TEST_STSTAT_STATE = 1 && !q.force then
      ((s.put p Reg.TEST_STSTAT_STATE 3).put p Reg.TEST_STSTAT_STATUS stDeferred).log p (unitTest p) 0x9030 q.action q.action
    else s)

/-- What an action leaves (R463): the march SPM cleared; HBM training that passed, the stacks of MASK in service. -/
def State.actionLeaves (s : State) (a mask result : Nat) : State :=
  if a = 2 then s.modEl (fun e => { e with spm := [], spmBad := [] })
  else if a = 4 && result == 0 then s.setBits .ux Reg.UX_IDENT_HBM_STACKS mask
  else s

/-- SELFTEST_DONE (R153, R464): 0x9031 with the result; a step start that waited for the action begins. -/
def execSelftestDone (p : Part) (result : Byte) (s : State) : Out :=
  let q := (s.base p).selftest
  .next (if s.get p Reg.TEST_STSTAT_STATE = 2 then
      let s := (s.put p Reg.TEST_STSTAT_STATE 3).put p Reg.TEST_STSTAT_STATUS stOk
      let s := (s.actionLeaves q.action q.mask result.toNat).log p (unitTest p) 0x9031 q.action result.toNat
      if p == .el && s.seqState .el == 2 && !(s.seq .el).heldStarts.isEmpty then s.heldRelease else s
    else s)

/-- TEST_UNLOCK is written (R465): it can be set only while TEST_PERMIT = 1. -/
def State.testUnlock (s : State) (p : Part) (v : Bool) : State :=
  if v && !s.bit p Reg.SEC_CTRL_TEST_PERMIT then s.log p (unitTest p) 0xA001 Reg.TEST_CTRL_TEST_UNLOCK.off Reg.TEST_CTRL_TEST_UNLOCK.off
  else s.put p Reg.TEST_CTRL_TEST_UNLOCK (if v then 1 else 0)

/-- TEST_UNLOCK (R465). -/
def execTestUnlock (p : Part) (v : Bool) (s : State) : Out := .next (s.testUnlock p v)

/-! ### The junction (R528) -/

/-- THERM_WARN (R438, R528): rising through 100 °C; PLDM shows the sensor's last report. -/
def execThermWarn (tj : BitVec 16) (sensor : Fin 16) (s : State) : Out :=
  let s := s.modUx (fun u => { u with junction := tput 0 u.junction sensor tj.toNat })
  .next (if s.ux.warnCap || tj.toNat < 1000 then s
    else ((s.modUx (fun u => { u with warnCap := true })).replaceSet 5).log .ux 0x4D 0x8040 sensor tj.toNat)

/-- THERM_CLEAR (R528): falling through 95 °C ends the warning's actions; the THERMAL cause stays until it is written 1. -/
def execThermClear (sensor : Fin 16) (s : State) : Out := .next (s.modUx (fun u => { u with warnCap := false, junction := terase u.junction sensor }))

/-- The reset of a trip: all that a warm reset resets, and the TIME domain with the references and the DPLL; every lane is down and stays so. -/
def State.tripReset (s : State) : State :=
  let s := s.warmReset
  let z := Uhloux.zero
  let s := s.modUx (fun u => { u with
    base := { u.base with regs := u.base.regs.filter (fun x => !(x.1 / 0x1000 == 3)) }
    dpll := z.dpll, todNext := [], todSkip := [], lanesHeld := true, tripped := true })
  ((List.range 23).map (fun i => i + 1)).foldl (fun t d => t.setDstate .ux d 3) s

/-- THERMTRIP (R528): rising through 115 °C; THERMTRIP_N stays low until PORN. -/
def execThermtrip (tj : BitVec 16) (sensor : Fin 16) (s : State) : Out :=
  let s := s.modUx (fun u => { u with junction := tput 0 u.junction sensor tj.toNat })
  .next (if s.ux.tripped || tj.toNat < 1150 then s else (s.log .ux 0x4D 0x8041 sensor tj.toNat).tripReset)

/-! ### Degraded operation (R468, R469) -/

/-- The generations a lost stack held are lost (R433, R468): which dies they are of no rule gives, so each is free (log 50). -/
def State.stackGenerations (s : State) : State :=
  let n := s.draws
  let s := s.modUx (fun u => { u with vaults := u.vaults.map (fun v => (v.1, if (Config.freeWord (n + v.1)).toNat % 2 = 1 then { VGen.zero with seen := true, isOpen := v.2.isOpen, qid := v.2.qid } else v.2)) })
  ({ s with draws := n + 256 } : State).unmirrored

/-- HBM_STACK_FAIL (R468): its domain goes OFF, GIB falls by 12 and CAP_DIES by 16, cause HBM_STACK. -/
def execHbmStackFail (stack : Fin 8) (s : State) : Out :=
  let d := 3 + stack.val
  .next (if s.ux.stacksLost.contains d then s
    else
      let s := (s.modUx (fun u => { u with stacksLost := u.stacksLost ++ [d] })).setDstate .ux d 0
      let s := s.put .ux Reg.UX_IDENT_HBM_STACKS (bitSet (s.get .ux Reg.UX_IDENT_HBM_STACKS) stack.val false)
      let s := (s.put .ux Reg.UX_LEDG_CFG_GIB (s.get .ux Reg.UX_LEDG_CFG_GIB - 12)).retWrite
      let s := s.put .ux Reg.UX_VAULT_STAT_CAP_DIES (s.get .ux Reg.UX_VAULT_STAT_CAP_DIES - 16)
      s.stackGenerations.replaceSet 0)

/-- QUADRANT_FAIL (R468): the lanes of a quadrant fail, 40 each, with a cause no rule names (log 10); cause QUADRANT. -/
def execQuadrantFail (q : Fin 4) (s : State) : Out :=
  let s := ((List.range 40).map (fun i => 40 * q.val + i)).foldl (fun (t : State) x => if t.laneUp .ux x then t.laneFailOpen .ux x else t) s
  .next (s.replaceSet 1)

/-- Bits of UX_REPLACE.CAUSE are cleared; those whose condition persists are set again (R469). -/
def State.replaceClear (s : State) (mask persist : Nat) : State :=
  let s := s.put .ux Reg.UX_REPLACE_CAUSE (Nat.land (s.get .ux Reg.UX_REPLACE_CAUSE) (63 - mask % 64))
  (List.range 6).foldl (fun t k => if bitOf mask k && bitOf persist k then t.replaceSet k else t) s

/-- REPLACE_CLEAR (R469). Bits that were not set stay clear. -/
def execReplaceClear (mask persist : BitVec 6) (s : State) : Out :=
  .next (s.replaceClear (Nat.land mask.toNat (s.get .ux Reg.UX_REPLACE_CAUSE)) persist.toNat)

end Sys2Proof.Machine
end

