-- ==== Sys2Proof/Machine/RegOps.lean ====
section
/-! DEFINITION. What a write of a register does (R8, R9, R40, R59, R385, R465, R474, R478): its fields by their access types, then the action it names. -/

namespace Sys2Proof.Machine

/-- The state an outcome leaves. -/
def State.after (s : State) (o : Out) : State :=
  match o with
  | .next t => t
  | _ => s

/-! ### Fields -/

/-- The unit and the event area that own a register (R8, R14, R473, R484). -/
def regOwner (p : Part) (off : Nat) : Nat × Nat :=
  if p == .ux && 0x40000 ≤ off then (unitLane .ux ((off - 0x40000) / 0x100), 2)
  else match p, off / 0x1000 with
    | _, 1 => (unitTime p, 1)
    | _, 2 => (unitSeq p, 8)
    | .el, 3 => (0x09, 2)
    | .ux, 3 => (0x45, 1)
    | .el, 4 => (0x03, 3)
    | .ux, 4 => (0x4C, 3)
    | .el, 5 => (0x04, 4)
    | .ux, 5 => (0x48, 4)
    | .el, 6 => (0x05, 5)
    | .ux, 6 => (0x43, 5)
    | .el, 7 => (0x06, 4)
    | .ux, 7 => (0x42, 6)
    | _, 8 => (0x07, 7)
    | _, 9 => (unitGuard p, 8)
    | _, 10 => (unitClk p, 8)
    | _, 12 => (unitSec p, 9)
    | _, 13 => (unitTest p, 0xA)
    | _, _ => (unitMan p, 9)

/-- A word whose bits of a mask come from a written one. -/
def maskMerge (old w : Word) (mask : Nat) : Word := (old &&& ~~~(BitVec.ofNat 64 mask)) ||| (w &&& BitVec.ofNat 64 mask)

/-- The bits a write of this size covers at its offset (R478), and the written value in its place. -/
def writeMask (size : AccSize) (off : Nat) : Nat := match size with | .four => (if off % 8 = 0 then 2 ^ 32 - 1 else (2 ^ 32 - 1) * 2 ^ 32) | _ => 2 ^ 64 - 1

/-- The written value in its place. -/
def writeWord (size : AccSize) (off : Nat) (v : Word) : Word :=
  match size with
  | .four => BitVec.ofNat 64 (if off % 8 = 0 then v.toNat % 2 ^ 32 else v.toNat % 2 ^ 32 * 2 ^ 32)
  | _ => v

/-- A field takes a value, unless it is reserved (R8): then it keeps its own, and the owner logs. -/
def State.fieldTake (s : State) (p : Part) (off : Nat) (f : FieldRow) (v : Nat) : State :=
  if f.okLo ≤ v && v ≤ f.okHi then s.setReg p off (fset (s.reg p off) f.hi f.lo v)
  else let o := regOwner p off; s.logOpen p o.1 o.2 off

/-- A write reaches one field by its access type (R9), where it covers a bit of it. RO ignores it; WO, W1S and ST fields act elsewhere. After provisioning lock an RWL field keeps its value, and the write is logged. -/
def State.fieldWrite (s : State) (p : Part) (off mask : Nat) (w : Word) (f : FieldRow) : State :=
  let old := fget (s.reg p off) f.hi f.lo
  let want := fget (maskMerge (s.reg p off) w mask) f.hi f.lo
  if fget (BitVec.ofNat 64 mask) f.hi f.lo = 0 then s else
  match f.acc with
  | .ro | .wo | .w1s | .st => s
  | .w1c => s.setReg p off (fset (s.reg p off) f.hi f.lo (Nat.land old (fget (~~~w) f.hi f.lo)))
  | .rw => s.fieldTake p off f want
  | .rwl =>
    if s.bit p Reg.SEC_CTRL_PROV_LOCK then s.logOpen p (regOwner p off).1 9 off
    else s.fieldTake p off f want

/-! ### Writes that a register refuses -/

/-- The pulse output whose register lies at an offset. -/
def pulseAt (p : Part) (off : Nat) : Option Nat :=
  if 0x1400 ≤ off && off < 0x1500 then some ((off - 0x1400) / 0x40)
  else if p == .ux && 0x1600 ≤ off && off < 0x1700 then some (4 + (off - 0x1600) / 0x40) else none

/-- A write would change a RW field of the register. -/
def State.wouldChange (s : State) (p : Part) (off mask : Nat) (w : Word) : Bool :=
  match regRow p off with
  | some r => r.fields.any (fun f => f.acc == .rw && fget (maskMerge (s.reg p off) w mask) f.hi f.lo != fget (s.reg p off) f.hi f.lo)
  | none => false

/-- The registers that hold NS and FRAC of an HXT value and are not staged (R40). -/
def hxtNsf (p : Part) (off : Nat) : Bool :=
  off == 0x12C0 || off == 0xB018 || (p == .ux && off == 0xB048)
    || (match pulseAt p off with | some _ => off % 0x40 == 0x18 || off % 0x40 == 0x28 | none => false)

/-- OBJECT of 0x1008: the time base or pulse output, else the register (R62). -/
def hxtObj (p : Part) (off : Nat) : Nat := match pulseAt p off with | some i => pulseObj i | none => if off = 0x12C0 then 3 else off

/-- The perturbation registers (R465, R471, R472). -/
def perturb (p : Part) (off : Nat) : Bool :=
  off == 0xD018 || off == 0xD020 || (p == .el && off == 0xD028) || (p == .ux && off == 0xD030)

/-- A ring register of a channel that is not IDLE (R385). -/
def State.ringBusy (s : State) (p : Part) (off : Nat) : Bool :=
  p == .el && 0x8000 ≤ off && off < 0x9000 && (off % 0x100 == 0x18 || off % 0x100 == 0x20) && s.get .el (Reg.DMA_STAT_STATE ((off - 0x8000) / 0x100)) != 0

/-- The fields of a register take a write, in the order of its table, unless a rule refuses the register's: an NS above 999,999,999 (R40), an armed pulse output (R59, where a write of its CTRL that changes no field is taken as one of ARM or DISARM alone, log 95), a perturbation without TEST_UNLOCK (R465), a ring in use (R385). TB3's RATE, TEST_UNLOCK and UX_REPLACE.CAUSE are written by their actions. -/
def State.fieldsWrite (s : State) (p : Part) (off mask : Nat) (w : Word) (r : RegRow) : State :=
  let all := fun (t : State) (fs : List FieldRow) => fs.foldl (fun t f => t.fieldWrite p off mask w f) t
  let armed := match pulseAt p off with
    | some i => s.bit p (Reg.PULSE_STAT_ARMED i)
    | none => false
  if hxtNsf p off && !nsOk (maskMerge (s.reg p off) w mask) then s.log p (unitTime p) 0x1008 (hxtObj p off) off
  else if armed && (0x10 ≤ off % 0x40 || s.wouldChange p off mask w) then
    all (s.log p (unitTime p) 0x1011 (pulseObj ((pulseAt p off).getD 0)) off) (r.fields.filter (fun f => f.acc != .rw))
  else if perturb p off && !s.bit p Reg.TEST_CTRL_TEST_UNLOCK then s.log p (unitTest p) 0xA001 off off
  else if s.ringBusy p off then s
  else if off = 0x12B0 || off = 0xD000 then s
  else all s (if p == .ux && off == 0x7090 then r.fields.filter (fun f => f.acc == .rw) else r.fields)

/-! ### Actions -/

/-- A lane number as a command names it. -/
def laneFin (x : Nat) : Fin 160 := Fin.ofNat 160 x

/-- Actions of the TIME block: SLEW_LIMIT (R50), TB3 STEP then LOCK_DECL (R51), TB3's RATE (R52), DISARM then ARM of a pulse output (R63). -/
def State.actTime (s : State) (p : Part) (off mask : Nat) (w : Word) : State :=
  if off = 0x1000 then s.slewHold p
  else if off = 0x1280 then
    let s := if bitOf w.toNat 0 then s.after (execTb3Step p s) else s
    if bitOf w.toNat 1 then s.after (execTb3LockDecl p s) else s
  else if off = 0x12B0 then s.after (execTb3RateWrite p (maskMerge (s.reg p off) w mask) s)
  else match pulseAt p off with
    | some i =>
      if off % 0x40 = 0 then
        let j : Fin 8 := Fin.ofNat 8 i
        let s := if bitOf w.toNat 6 then s.after (execPulseDisarm p j s) else s
        if bitOf w.toNat 7 then s.after (execPulseArm p j s) else s
      else s
    | none => s

/-- Actions of a sequencer's block: UNLOAD, LOAD, START in that order; a cleared FLAG clears the count of QSTAT (R167). -/
def State.actSeq (s : State) (p : Part) (off : Nat) (w : Word) : State :=
  if off = 0x2000 then
    let s := if bitOf w.toNat 1 then s.after (execSeqUnload p s) else s
    let s := if bitOf w.toNat 0 then s.after (match p with | .el => execSeqLoad s | .ux => execTseqLoad s) else s
    if bitOf w.toNat 2 then s.after (match p with | .el => execSeqStart s | .ux => execTseqStart s) else s
  else if off = 0x2058 && bitOf w.toNat 63 then s.put p Reg.SEQ_QSTAT_COUNT 0
  else s

/-- Actions of a lane's block: CNT_CLR, LEAVE, JOIN (R131), RECAL (R86). -/
def State.actLane (s : State) (p : Part) (x o : Nat) (w : Word) : State :=
  let l := laneFin x
  if o = 0 then
    let s := if bitOf w.toNat 3 then s.after (execLaneCntClr p l s) else s
    let s := if bitOf w.toNat 1 then s.after (execLaneLeaveCmd p l s) else s
    if bitOf w.toNat 0 then s.after (execLaneJoinCmd p l s) else s
  else if o = 0x18 && bitOf w.toNat 2 then s.after (execTcalRecal p l s)
  else s

/-- Actions of a DMA channel: CLR_HALT, ABORT (R383, R395), GO (R384). -/
def State.actDma (s : State) (off : Nat) (w : Word) : State :=
  let c : Fin 16 := Fin.ofNat 16 ((off - 0x8000) / 0x100)
  if off % 0x100 = 0 then
    let s := if bitOf w.toNat 1 then s.after (execDmaClrHalt c s) else s
    if bitOf w.toNat 0 then s.after (execDmaHostAbort c s) else s
  else if off % 0x100 = 8 then s.after (execDmaHostGo c (BitVec.ofNat 16 w.toNat) s)
  else s

/-- Actions of the manifest block: DISCARD, DISARM, ARM, NOW (R443, R446), and GO of a hall-wide commit (R448). -/
def State.actMan (s : State) (p : Part) (off : Nat) (w : Word) : State :=
  if off = 0xB000 then
    let s := if bitOf w.toNat 0 then s.manDiscard p else s
    let s := if bitOf w.toNat 2 then s.manDisarmHall p else s
    let s := if bitOf w.toNat 1 then s.after (execManArm p s) else s
    if bitOf w.toNat 3 then s.manNow p else s
  else if p == .ux && off == 0xB050 && bitOf w.toNat 0 then s.after (execHallGo s)
  else s

/-- Actions of the SEC block: PROV_LOCK, DBG_UNLOCK with the response in its window, ATT_GO, REVOKE, a word of the pending hall key (R451 to R459). -/
def State.actSec (s : State) (p : Part) (off : Nat) (w : Word) : State :=
  if off = 0xC000 then
    let s := if bitOf w.toNat 0 then s.provLock p else s
    let s := if bitOf w.toNat 1 then s.dbgUnlock p (mread (s.base p).secBytes 0xCC20 96) else s
    if bitOf w.toNat 4 then s.after (execAttGo p s) else s
  else if off = 0xC010 then s.keyRevoke p (fget w 31 24)
  else if 0xC020 ≤ off && off < 0xC040 then s.mod p (fun b => { b with lkeyNew := tput 0 b.lkeyNew ((off - 0xC020) / 8) w })
  else s

/-- Actions of the TEST block: TEST_UNLOCK (R465), GO of a self-test request (R463). A write that names a reserved ACTION submits nothing. -/
def State.actTest (s : State) (p : Part) (off mask : Nat) (w : Word) : State :=
  if off = 0xD000 then (if bitOf mask 0 then s.testUnlock p (bitOf w.toNat 0) else s)
  else if off = 0xD008 && bitOf w.toNat 0 && actionKnown (fget w 31 24) then
    s.selftestGo p (s.get p Reg.TEST_STREQ_ACTION) (s.get p Reg.TEST_STREQ_MASK) (s.bit p Reg.TEST_STREQ_FORCE)
  else s

/-- A candidate that its own register disables is lost: PTP_EN = 0 is the monitor of its row of R65 (log 97); of a REF input no row names it, and the monitor reported is a free value (log 2). -/
def State.candOff (s : State) (k : Nat) : State :=
  let d := s.draw
  if !s.candValid k then s else if 4 ≤ k then s.candLost k 2 else d.2.candLost k (d.1.toNat % 256)

/-- A DCO register reads its value sign-extended (R94). -/
def State.dcoExtend (s : State) (off : Nat) : State := s.setReg .ux off (BitVec.ofInt 64 (signed 40 (fget (s.reg .ux off) 39 0)))

/-- Actions of the reference block (R66, R71, R75, R78): MODE and START, CAND, the DCO in FREE, the enables of the inputs, the second of a 1PPS input. Whether the write lies in the last 10 ms before the edge is a free value here (log 2). -/
def State.actRef (s : State) (off mask : Nat) (w : Word) : State :=
  if off = 0x3000 then
    let s := if bitOf mask 0 then s.after (execRefModeWrite (Fin.ofNat 4 (s.get .ux Reg.UX_REF_CTRL_MODE)) s) else s
    let s := ((if s.bit .ux Reg.UX_REF_CTRL_REVERTIVE then s else s.wtrClear).qlCheck 0).qlCheck 1
    if bitOf w.toNat 1 then s.after (execRootStart s) else s
  else if off = 0x3018 then s.refResolve
  else if off = 0x3030 || off = 0x3038 then
    let s := s.dcoExtend off
    if s.dpllState = 0 then s.dcoApply else s
  else if 0x3100 ≤ off && off < 0x3180 then
    let n := (off - 0x3100) / 0x20
    if off % 0x20 = 0 then (if s.bit .ux (Reg.UX_REF_IN_CFG_EN n) then s else s.candOff n)
    else if off % 0x20 = 0x10 then
      let d := s.draw
      s.after (execTodWrite (Fin.ofNat 4 n) (s.reg .ux off) (bitOf d.1.toNat 0) d.2)
    else s
  else if off = 0x3180 || off = 0x3190 then
    let n := (off - 0x3180) / 0x10
    let s := if s.bit .ux (Reg.UX_TP_CFG_PORT_EN n) && s.bit .ux (Reg.UX_TP_CFG_SYNCE_EN n) then s.sendDnu n else s
    if s.bit .ux (Reg.UX_TP_CFG_PORT_EN n) && s.bit .ux (Reg.UX_TP_CFG_PTP_EN n) then s.qlCheck n else s.candOff (4 + n)
  else s

/-- The causes of UX_REPLACE whose condition persists (R468, R469); whether a failed quadrant's supply is still bad is a free value (log 2). -/
def State.replacePersist (s : State) : Nat :=
  let b := fun (c : Bool) (k : Nat) => if c then 2 ^ k else 0
  b (!s.ux.stacksLost.isEmpty) 0 + b (bitOf (Config.freeWord s.draws).toNat 0) 1
    + b (s.bit .ux Reg.UX_REF_STAT_DCO_LIMIT || s.bit .ux Reg.UX_REF_STAT_ACQ_TIMEOUT || s.bit .ux Reg.UX_REF_STAT_TDC_FAIL) 2
    + b (s.ux.corePllLost && !(s.base .ux).pll.standbyLocked) 3 + b (s.ux.lanesHeld && !s.ux.tripped) 4 + b s.ux.warnCap 5

/-- Actions of the ledger and continuity blocks of a Uhloux chip: VERIFY, CHAIN_RESET (R304), a cleared divergence (R325), UX_HC_CMD (R369), UX_REPLACE (R469). A command register with several bits set is judged once. -/
def State.actUx (s : State) (off : Nat) (w : Word) : State :=
  if off = 0x6008 then
    let s := if bitOf w.toNat 0 then s.after (execLedgChainReset s) else s
    if bitOf w.toNat 1 then s.after (execLedgVerify s) else s
  else if off = 0x6090 && bitOf w.toNat 0 then s.after (execLockRearm s)
  else if off = 0x7018 then
    (if bitOf w.toNat 22 then s.after (execHcReadmit w s)
     else if bitOf w.toNat 21 then s.after (execHcAdviseFailed w s)
     else if bitOf w.toNat 20 then s.after (execHcFence w s) else s)
  else if off = 0x7090 then ({ s with draws := s.draws + 1 } : State).replaceClear (fget w 5 0) s.replacePersist
  else s

/-- The action a register write names, after its fields. -/
def State.regAct (s : State) (p : Part) (off mask : Nat) (w : Word) : State :=
  if p == .ux && 0x40000 ≤ off then s.actLane .ux ((off - 0x40000) / 0x100) (off % 0x100) w
  else match p, off / 0x1000 with
    | _, 1 => s.actTime p off mask w
    | _, 2 => s.actSeq p off w
    | .el, 3 =>
      if 0x3100 ≤ off then s.actLane .el ((off - 0x3100) / 0x80) (off % 0x80) w
      else if off = 0x3048 && bitOf w.toNat 0 then s.after (execRestoredWrite s) else s
    | .ux, 3 => s.actRef off mask w
    | .el, 4 => if off = 0x4020 then s.after (execHincWrite w s) else s
    | .ux, 4 => if off == 0x4008 && s.tier == 2 then s.guardAdd else s
    | .el, 8 => s.actDma off w
    | _, 9 =>
      if off = 0x9000 then
        let s := if bitOf w.toNat 0 then s.fatalClr p else s
        if s.bit p Reg.GUARD_CTRL_FAULT_HOLD then s else s.faultHoldOff p
      else s
    | .el, 10 => if off = 0xA010 then s.fmulFollow else s
    | _, 11 => s.actMan p off w
    | _, 12 => s.actSec p off w
    | _, 13 => s.actTest p off mask w
    | .ux, 6 => s.actUx off w
    | .ux, 7 => s.actUx off w
    | _, _ => s

/-! ### Writes -/

/-- The staged or plain write of one register at its 8-byte offset (R442, R478): an ST register is staged whole, the other fields take their write, and the action follows. -/
def State.regPut (s : State) (p : Part) (off mask : Nat) (w : Word) (r : RegRow) : State :=
  let s := if s.isSt p off then (s.stage p off (maskMerge (s.staged p off) w mask)).1 else s
  (s.fieldsWrite p off mask w r).regAct p off mask w

/-- A write into a byte window of the SEC block (R452, R471). -/
def State.secWrite (s : State) (p : Part) (off : Nat) (n : Nat) (v : Word) : State :=
  let bs := leBytes n v.toNat
  match secWindow off with
  | some .rw | some .wo => s.mod p (fun b => { b with secBytes := mwrite b.secBytes off bs })
  | some .rwl =>
    if s.bit p Reg.SEC_CTRL_PROV_LOCK then s.logOpen p (unitSec p) 9 off
    else s.mod p (fun b => { b with secBytes := mwrite b.secBytes off bs })
  | _ => s

/-- A write of the counter file (R474): only SAT, under W1C. -/
def State.cntWrite (s : State) (p : Part) (i : Nat) (w : Word) : State :=
  if !bitOf w.toNat 40 then s
  else match p with
    | .el => if s.cntHas (i / 64) (i % 64) then s.modEl (fun e => { e with satBits := tput false e.satBits i false }) else s
    | .ux => s.modUx (fun u => { u with tcSat := tput false u.tcSat i false })

/-- A write of the watch table (R214, R474): only TMO and PRE; TMO = 0 is reserved. -/
def State.watchWrite (s : State) (i h mask : Nat) (w : Word) : State :=
  if h != 1 || s.el.lic.watches ≤ i then s
  else
    let x := s.watchAt i
    let m := maskMerge (s.watchEntry i 1) w mask
    let s := s.setWatch i { x with pre := fget m 25 24 }
    let t := fget m 23 0
    if t = x.tmo then s
    else if t = 0 then s.logOpen .el 0x03 3 (0x40000 + 16 * i)
    else s.setWatch i { s.watchAt i with tmo := t }

/-- The bytes of an access (R477). -/
def sizeBytes : AccSize → Option Nat
  | .one => some 1
  | .two => some 2
  | .four => some 4
  | .eight => some 8
  | .long d => if decide (1 ≤ d.length) && decide (d.length ≤ 4096) then some d.length else none
  | .other => none

/-- The bytes a write brings, where they are enabled. -/
def writeBytes (size : AccSize) (v : Word) : List (Option Byte) :=
  match size with
  | .long d => d
  | _ => (leBytes ((sizeBytes size).getD 0) v.toNat).map some

/-- The first offset of BAR0 that takes accesses of any size (R477). -/
def wideFrom : Nat := 0x100000

/-- The access error of a host access to a register window or BAR0 by size and address (R477): from 0x10_0000 of BAR0 on, an access must lie within one 4 KiB page (log 119). -/
def winSizeCause (p : Part) (off : Nat) (size : AccSize) : Nat :=
  if p == .ux && wideFrom ≤ off then
    match sizeBytes size with
    | none => 1
    | some n => if off % 4096 + n ≤ 4096 then 0 else 1
  else accCause size off

/-- A write into the HBM general window (R477, R483, R486): of the bytes enabled. -/
def State.hwinWrite (s : State) (off : Nat) (bs : List (Option Byte)) : State :=
  let a := s.hwinAddr (off - 0x1000000)
  let n := bs.length
  if s.hbmTop < a + n then s.accessErr .ux 3 0 off true
  else if (List.range n).any (fun i => (bs.getD i none).isSome && s.hbmProtected (a + i)) then s.accessErr .ux 9 0 off true
  else ((List.range n).foldl (fun t i => match bs.getD i none with
    | some b => t.hbmPut (a + i) [b]
    | none => t) s).answer .ux 0 false

/-- A write at or above 0x1_0000 of a window: the shadow window ignores it (R442), the counter file and watch table take what R474 lets them, dump RAM and tree program memory refuse it with PROG_WRITE (R475, R485), the ledger and vault windows are read-only (R487, R488). -/
def State.highWrite (s : State) (p : Part) (off : Nat) (size : AccSize) (v : Word) : State :=
  let off8 := off - off % 8
  let w := writeWord size off v
  let mask := writeMask size off
  match p with
  | .el =>
    if 0x20000 ≤ off && off < 0x40000 then (s.cntWrite .el ((off8 - 0x20000) / 8) w).answer .el 0 false
    else if 0x40000 ≤ off && off < 0x50000 then (s.watchWrite ((off8 - 0x40000) / 16) (off8 / 8 % 2) mask w).answer .el 0 false
    else s.answer .el 0 false
  | .ux =>
    if 0x20000 ≤ off && off < 0x20800 then (s.cntWrite .ux ((off8 - 0x20000) / 8) w).answer .ux 0 false
    else if 0x40000 ≤ off && off < 0x4A000 then
      match regRow .ux off8 with
      | some r => (s.regPut .ux off8 mask w r).answer .ux 0 false
      | none => s.answer .ux 0 false
    else if wideFrom ≤ off && off < 0x400000 then s.accessErr .ux 4 0 off true
    else if 0x1000000 ≤ off && off < 0x2000000 then s.hwinWrite off (writeBytes size v)
    else s.answer .ux 0 false

/-- A host write (R8, R9, R477, R478): of the right size and alignment it reaches its register; a reserved offset ignores it. An Elesh takes HR_SPACE in bits [25:24] of the offset, and space 3 fails with RANGE (R497, log 120). -/
def State.regWrite (s : State) (p : Part) (off : Nat) (size : AccSize) (v : Word) : State :=
  let c := winSizeCause p off size
  if c ≠ 0 then s.accessErr p c 0 off true
  else if p == .el && 0x3000000 ≤ off then s.accessErr .el 3 3 (off - 0x3000000) true
  else if 0x10000 ≤ off then s.highWrite p off size v
  else
    let off8 := off - off % 8
    let w := writeWord size off v
    (match regRow p off8 with
      | some r => if s.regHere p off8 then s.regPut p off8 (writeMask size off) w r else s
      | none => s.secWrite p off ((accBytes size).getD 0) v).answer p 0 false

end Sys2Proof.Machine
end

