-- ==== Sys2Proof/Machine/Reg.lean ====
section
/-! DEFINITION. The commands of the register windows and of the block's ports that have no unit of their own (R8, R9, R440 to R442, R479, R480, R496, R507). -/

namespace Sys2Proof.Machine

/-! ### Host writes -/

/-- REGISTER_WRITE (R8, R9, R478). -/
def execRegisterWrite (p : Part) (off : BitVec 26) (size : AccSize) (v : Word) (s : State) : Out :=
  .next (s.regWrite p off.toNat size v)

/-- STAGE_WRITE (R442, R444, R478): a write to a register with an ST field. A register without one is staged by none. -/
def execStageWrite (p : Part) (off : BitVec 26) (v : Word) (size : AccSize) (s : State) : Out :=
  .next (if s.isSt p (off.toNat - off.toNat % 8) then s.regWrite p off.toNat size v else s)

/-! ### Remote accesses (R440, R441, R480) -/

/-- The first offset past what VC5 reaches (R480). -/
def vc5Top : Part → Nat
  | .el => 0x50000
  | .ux => 0x4A000

/-- A VC5 request is one of R480: aligned, a multiple of 8 bytes up to 208, within the windows VC5 reaches. -/
def vc5Ok (p : Part) (addr len : Nat) : Bool := addr % 8 == 0 && len % 8 == 0 && decide (len ≤ 208) && decide (addr + len ≤ vc5Top p)

/-- Registers are read in ascending order, and their bytes gathered. -/
def State.vc5Read (s : State) (p : Part) (addr : Nat) : Nat → List Byte × State
  | 0 => ([], s)
  | n + 1 =>
    let r := s.vc5Read p addr n
    let x := r.2.regRead p (addr + 8 * n) .eight
    (r.1 ++ leBytes 8 x.1.toNat, x.2)

/-- Registers are written in ascending order. -/
def State.vc5Write (s : State) (p : Part) (addr : Nat) (data : List Byte) : Nat → State
  | 0 => s
  | n + 1 => (s.vc5Write p addr data n).regWrite p (addr + 8 * n) .eight (BitVec.ofNat 64 (leNat ((data.drop (8 * n)).take 8)))

/-- VC5_RD_REQ (R441, R480): the read is made and RD_RSP goes up with its data; any other request is answered REFUSED and makes no access. -/
def execVc5RdReq (p : Part) (addr : Word) (len : BitVec 16) (seq : BitVec 16) (s : State) : Out :=
  .next (if vc5Ok p addr.toNat len.toNat then
      let r := s.vc5Read p addr.toNat (len.toNat / 8)
      r.2.sendUp p (.rdRsp seq addr.toNat stOk r.1)
    else s.sendUp p (.rdRsp seq addr.toNat stRefused []))

/-- VC5_WR_REQ (R441, R480). The answers of local accesses stay as they are. -/
def execVc5WrReq (p : Part) (addr : Word) (data : List Byte) (seq : BitVec 16) (s : State) : Out :=
  .next (if vc5Ok p addr.toNat data.length then
      let t := s.vc5Write p addr.toNat data (data.length / 8)
      (t.answer p (s.base p).rdata (s.base p).rerr).sendUp p (.wrRsp seq addr.toNat stOk)
    else s.sendUp p (.wrRsp seq addr.toNat stRefused))

/-! ### Accesses to a domain that is not ON (R473, R479) -/

/-- The power domain an access to an offset waits for (R473, R479), with the suspect entries in AON (R324); on Uhloux that of the unit the offset's region belongs to (R420, R484). 0 is AON. -/
def accDomain (p : Part) (off : Nat) : Nat :=
  match p with
  | .el =>
    if 0x6080 ≤ off && off < 0x6100 then 0
    else if 0x20000 ≤ off && off < 0x50000 then 2
    else if 0x10000 ≤ off && off < 0x20000 then 1
    else match off / 0x1000 with
      | 2 => 1 | 11 => 1 | 12 => 1 | 13 => 1 | 3 => 6 | 4 => 2 | 5 => 3 | 6 => 4 | 7 => 4 | 8 => 5 | _ => 0
  | .ux =>
    if 0x6000 ≤ off && off < 0x6040 then 19
    else if 0x7040 ≤ off && off < 0x7080 then 20
    else if 0x40000 ≤ off && off < 0x4A000 then 11 + (off - 0x40000) / 0x100 / 40
    else if 0x2000000 ≤ off && off < 0x3000000 then 19
    else if 0x3000000 ≤ off && off < 0x4000000 then 20
    else 0

/-- ACCESS_DOMAIN_TIMEOUT (R479): an access that has waited 100 µs for a domain that is not ON fails with cause DOMAIN. -/
def execAccessDomainTimeout (p : Part) (write : Bool) (off : BitVec 26) (s : State) : Out :=
  let d := accDomain p off.toNat
  .next (if d != 0 && s.dstate p d != 2 then s.accessErr p 8 0 off.toNat write else s)

/-! ### The event port (R507) -/

/-- EVT_TRANSFER (R507): the oldest record presented is taken. -/
def execEvtTransfer (s : State) : Out := .next (s.modEl (fun e => { e with ports := { e.ports with evtQ := e.ports.evtQ.drop 1 } }))

/-! ### Power-up (R43, R452, R453, R496) -/

/-- What the SEC unit of a part keeps in fuses across a power-up (R451, R452): the lock, TEST_PERMIT, the key slots and their revocation. -/
def State.provisioned (s : State) (p : Part) (t : State) : State :=
  let t := t.put p Reg.SEC_CTRL_PROV_LOCK (s.get p Reg.SEC_CTRL_PROV_LOCK)
  let t := t.put p Reg.SEC_CTRL_TEST_PERMIT (s.get p Reg.SEC_CTRL_TEST_PERMIT)
  let t := t.put p Reg.SEC_STAT_LOCKED (s.get p Reg.SEC_STAT_LOCKED)
  let t := t.put p Reg.SEC_STAT_REVOKED (s.get p Reg.SEC_STAT_REVOKED)
  let t := t.setReg p Reg.SEC_KUSE_USE.off (s.reg p Reg.SEC_KUSE_USE.off)
  let t := (List.range 8).foldl (fun t k => t.setReg p (Reg.SEC_KSLOT_ID_KEY_ID k).off (s.reg p (Reg.SEC_KSLOT_ID_KEY_ID k).off)) t
  t.mod p (fun b => { b with secBytes := (s.base p).secBytes.filter (fun e => e.1 < 0xC800) })

/-- Whether the PUF reproduces its key at this power-up (R453) is a free value (log 2). -/
def State.pufTry (s : State) (p : Part) : State :=
  let d := s.draw
  d.2.put p Reg.SEC_STAT_PUF_OK (if bitOf d.1.toNat 0 then 1 else 0)

/-- An Elesh at cold power-up, its fords aligned (R410): every field at its reset value, but for the instance, the levels its surroundings drive, and the memory of the die, which is theirs. Domains whose supply is not good are OFF. -/
def State.elPowerOn (s : State) (filt slew : Nat) : State :=
  let e := s.el
  let z := Elesh.zero
  let t : State := { s with el := { z with
    base := { z.base with mem := e.base.mem, cfgFilt := filt, cfgSlew := slew }
    lic := e.lic, supplyCore := e.supplyCore, supplyRet := e.supplyRet, supplyPhy := e.supplyPhy
    ports := { z.ports with throttle := e.ports.throttle } } }
  let t := s.provisioned .el t
  let t := if e.supplyCore then t else ([1, 2, 3, 4, 5] : List Nat).foldl (fun t d => t.setDstate .el d 0) t
  let t := if e.supplyPhy then t else t.setDstate .el 6 0
  (t.pufTry .el).fmulFollow

/-- A Uhloux chip at cold power-up (R71, R410, R437, R439, R455): every field at its reset value; the TDC self-test may fail, which is a free value (log 2). -/
def State.uxPowerOn (s : State) (filt slew : Nat) : State :=
  let u := s.ux
  let z := Uhloux.zero
  let fw := match u.fwNext with
    | some h => h
    | none => u.base.fwHash
  let t : State := { s with ux := { z with base := { z.base with cfgFilt := filt, cfgSlew := slew, fwHash := fw } } }
  let t := ((s.provisioned .ux t).pufTry .ux).pcieTrain
  let d := t.draw
  if bitOf d.1.toNat 0 then d.2.dpllAlarm Reg.UX_REF_STAT_TDC_FAIL else d.2

/-- POWER_ON (R43, R496): the rise of AON_PORN, or of a Uhloux chip's PORN; the straps are sampled. -/
def execPowerOn (p : Part) (cfgFilt cfgSlew : Fin 4) (s : State) : Out :=
  .next (match p with
    | .el => s.elPowerOn cfgFilt.val cfgSlew.val
    | .ux => s.uxPowerOn cfgFilt.val cfgSlew.val)

end Sys2Proof.Machine
end

