-- ==== Sys2Proof/Machine/SeedIsa.lean ====
section
/-! DEFINITION. The SEED slot (R191, R192, R272 to R278). -/

namespace Sys2Proof.Machine

/-- A position in bits [23:0] of a register (R191). -/
def State.gpos (s : State) (a : Nat) : Nat := (s.greg .el a).toNat % 2 ^ 24

/-- Both words of a draw into a register pair (R274). -/
def quadActs (d : Nat) (q : Quad) : List Act := [.g d q.wordA, .g (d + 1) q.wordB]

/-- A stream the instance has (R169). -/
def streamOk (l : Licence) (n : Fin 64) : Bool := n.val < l.streams

/-- RNG (R191). -/
def execRng (e : Env) (d a b : Fin 64) (purpose : BitVec 16) (s : State) : Out :=
  s.issue .el e 5 (pairOk .el d && purposeOk purpose) (quadActs d (s.drawQuad purpose.toNat (s.greg .el a).toNat (s.gpos b)))

/-- RNGX (R191): four draws at the positions p to p + 3, position bits [1:0] ignored. -/
def execRngx (e : Env) (d a b : Fin 64) (purpose : BitVec 16) (s : State) : Out :=
  let p := s.gpos b - s.gpos b % 4
  s.issue .el e 5 (d.val % 8 == 0 && purposeOk purpose)
    (([0, 1, 2, 3] : List Nat).flatMap (fun i => quadActs (d + 2 * i) (s.drawQuad purpose.toNat (s.greg .el a).toNat (p + i))))

/-- What SRNG does (R192, R278): without a current sample it writes 0 and logs 0x4021; at the last position it writes 0 and logs 0x4020; else it draws and advances POS. -/
def State.srngActs (s : State) (d n purpose : Nat) : List Act :=
  match s.curSample n with
  | none => [.g d 0, .g (d + 1) 0, .seedLog n 0x4021]
  | some l =>
    let p := s.streamPos n
    if p = 2 ^ 24 - 1 then [.g d 0, .g (d + 1) 0, .seedLog n 0x4020]
    else quadActs d (s.drawQuad purpose l p) ++ [.streamPos n (p + 1)]

/-- SRNG (R278). -/
def execSrng (e : Env) (d n : Fin 64) (purpose : BitVec 16) (s : State) : Out :=
  s.issue .el e 5 (pairOk .el d && streamOk s.el.lic n && purposeOk purpose) (s.srngActs d n purpose.toNat)

/-- SNEXT (R277): the cursor advances and G[d] takes the logical sample index, or all-ones. -/
def execSnext (e : Env) (d n : Fin 64) (s : State) : Out :=
  let c := s.cursor n + 1
  s.issue .el e 5 (streamOk s.el.lic n)
    [.stream n c 0, .g d (match s.streamIndex n c.toNat with | some l => BitVec.ofNat 64 l | none => 0xFFFFFFFFFFFFFFFF)]

/-- SSET (R278). -/
def execSset (e : Env) (n a b : Fin 64) (s : State) : Out :=
  s.issue .el e 5 (streamOk s.el.lic n) [.stream n (s.greg .el a) (s.gpos b)]

/-- SRD (R191, R278). -/
def execSrd (e : Env) (d n : Fin 64) (s : State) : Out :=
  s.issue .el e 5 (pairOk .el d && streamOk s.el.lic n) [.g d (s.cursor n), .g (d + 1) (BitVec.ofNat 64 (s.streamPos n))]

/-- RSTO (R191, R192, R274): 16 bytes of SPM, or fault 0x8088. -/
def execRsto (e : Env) (a b c : Fin 64) (purpose : BitVec 16) (s : State) : Out :=
  let x := (s.greg .el a).toNat
  let q := s.drawQuad purpose.toNat (s.greg .el b).toNat (s.gpos c)
  s.issue .el e 5 (purposeOk purpose) (if s.spmOk x 16 then [.spm 5 x [q.wordA, q.wordB]] else [.fault 0x8088 (rangeDetail 5 x)])

end Sys2Proof.Machine
end

