-- ==== Sys2Proof/Machine/SeqIsa.lean ====
section
/-! DEFINITION. The SEQ slot (R174 to R178, R197): control flow, the two waits, HALT and QUIET, with the ends of what they hold or open (R147, R150, R177). -/

namespace Sys2Proof.Machine

/-- NOP (R133). -/
def execNop (p : Part) (e : Env) (s : State) : Out := s.issue p e 0 true []

/-- BR (R174). -/
def execBr (p : Part) (e : Env) (tgt : BitVec 16) (s : State) : Out :=
  s.issue p e 0 (decide (tgt.toNat < (s.seq p).bundles)) [.branch tgt.toNat]

/-- BRR (R174): a target at or beyond BUNDLES is fault 0x8086. -/
def execBrr (p : Part) (e : Env) (a : Fin 64) (s : State) : Out :=
  let t := (s.greg p a).toNat
  s.issue p e 0 (regOk p a) (if (s.seq p).bundles ≤ t then [.fault 0x8086 t] else [.branch t])

/-- LOOP (R174): G[d] is decremented unless 0, and the branch is taken while it is not 0. -/
def execLoop (p : Part) (e : Env) (d : Fin 64) (tgt : BitVec 16) (s : State) : Out :=
  let v := s.greg p d
  s.issue p e 0 (regOk p d && decide (tgt.toNat < (s.seq p).bundles))
    (if v = 0 then [] else if v = 1 then [.g d 0] else [.g d (v - 1), .branch tgt.toNat])

/-- The bundle of a wait is held: nothing of it issues (R174). -/
def State.waitHold (s : State) (p : Part) (e : Env) (h : Hold) : State :=
  let s := s.modSeq p (fun q => { q with hold := h, skip := true })
  if e.last then s.bundleEnd p else s

/-- A wait that executes now: its envelope runs in a bundle not yet held, on a sequencer that issues. -/
def State.waits (s : State) (p : Part) (e : Env) : Bool := s.issuing p && s.runs p e && !(s.seq p).skip

/-- An anchor is passed, and its bundle may issue (R147). -/
def State.anchorPass (s : State) (p : Part) (t a : Nat) : State :=
  ((s.anchorIssue p t a).put p Reg.SEQ_STAT_TIMED_WAIT 0).modSeq p (fun q => { q with hold := .none, anchorOk := true })

/-- An anchor need not be waited for (R147, R532): TB0 has reached its time, or is UNSET. -/
def State.anchorFree (s : State) (p : Part) (t : Nat) : Bool := s.tbState p 0 == 0 || s.tbReached p 0 t

/-- WAITT (R147, R175, R532): the bundle issues at once where TB0 has reached the anchor's time or is UNSET; else it is held until ANCHOR_RELEASE. -/
def execWaitt (p : Part) (e : Env) (tb : Fin 4) (rel : Bool) (r : Fin 64) (ns : BitVec 32) (s : State) : Out :=
  if !(envOk e && waittOk s.el.lic p tb rel r) then .refused .reservedEncoding
  else if s.waits p e && !(s.seq p).anchorOk then
    let t := s.anchorTime p tb rel r ns.toNat
    let a := match (s.seq p).hold with
      | .anchor t' a' => if t' = t then a' else s.tbNow p 0
      | _ => s.tbNow p 0
    .next (if s.anchorFree p t then (s.anchorPass p t a).slotOp p e 0 [] else (s.put p Reg.SEQ_STAT_TIMED_WAIT 1).waitHold p e (.anchor t a))
  else .next (s.slotOp p e 0 [])

/-- ANCHOR_RELEASE (R147, R532): TB0 has reached or passed the anchor's time, or is UNSET, and the anchor issues. -/
def execAnchorRelease (p : Part) (s : State) : Out :=
  match (s.seq p).hold with
  | .anchor t a =>
    .next (if s.issuing p && s.anchorFree p t then s.anchorPass p t a else s)
  | _ => .next s

/-- WAITC (R171, R176): the bundle issues once the counter has reached G[a], writing the flag when EQ = 1; until then it is held. TMO = 0 is reserved. -/
def execWaitc (p : Part) (e : Env) (core : BitVec 8) (k : BitVec 6) (a : Fin 64) (eq : Bool) (pre : Fin 4) (tmo : BitVec 24) (cf : Fin 8) (s : State) : Out :=
  let v := s.cntRead p core.toNat k.toNat
  let t := (s.greg p a).toNat
  if !(envOk e && cntOk s.el.lic p core k && regOk p a && tmo != 0) then .refused .reservedEncoding
  else if s.waits p e && decide (v < t) then
    let h := match (s.seq p).hold with
      | .waitc c' k' t' q' f' l' n' =>
        if c' = core.toNat ∧ k' = k.toNat ∧ t' = t then .waitc c' k' t' q' f' l' n'
        else .waitc core.toNat k.toNat t eq cf (s.tmoTicks p tmo.toNat pre) (s.tick p)
      | _ => .waitc core.toNat k.toNat t eq cf (s.tmoTicks p tmo.toNat pre) (s.tick p)
    .next (s.waitHold p e h)
  else .next (s.slotOp p e 0 (if eq then [.flag cf (v == t)] else []))

/-- The unit that reports the end of a counter wait. -/
def unitSync : Part → Nat | .el => 0x03 | .ux => 0x41

/-- WAITC_TIMEOUT (R177): the held bundle does not issue, 0x3010 names the counter and the sequencer, and the sequencer enters FAULT. -/
def execWaitcTimeout (p : Part) (s : State) : Out :=
  match (s.seq p).hold with
  | .waitc core k t _ _ _ _ =>
    if s.issuing p then .next ((s.logW p (unitSync p) 0x3010 (cntObj (cntKey core k)) (2 ^ 20) t).programFault p) else .next s
  | _ => .next s

/-- HALT (R174, R160). -/
def execHalt (p : Part) (e : Env) (s : State) : Out := s.issue p e 0 true [.halt]

/-- QUIET (R150, R178). -/
def execQuiet (p : Part) (e : Env) (mask : BitVec 7) (n : BitVec 24) (s : State) : Out :=
  s.issue p e 0 (quietOk mask n) [.window mask.toNat n.toNat]

/-- WINDOW_CLOSE (R150): the open window has reached its end. A READY window without an accepted step-start launch stays open. -/
def execWindowClose (p : Part) (s : State) : Out := .next (if (s.windowOpen p).isNone then s.closeWindow p else s)

end Sys2Proof.Machine
end

