-- ==== Sys2Proof/Machine/SyncIsa.lean ====
section
/-! DEFINITION. The SYNC slot (R181 to R183). -/

namespace Sys2Proof.Machine

/-- CINC (R181); AMT = 0 is reserved. -/
def execCinc (e : Env) (core : BitVec 8) (k : BitVec 6) (amt : BitVec 16) (s : State) : Out :=
  s.issue .el e 2 (cntOk s.el.lic .el core k && amt != 0) [.inc core.toNat k.toNat amt.toNat]

/-- CINCR (R181): G[a] capped to 40 bits; 0 has no effect. -/
def execCincr (e : Env) (core : BitVec 8) (k : BitVec 6) (a : Fin 64) (s : State) : Out :=
  let n := min (s.greg .el a).toNat cntTop
  s.issue .el e 2 (cntOk s.el.lic .el core k) (if n = 0 then [] else [.inc core.toNat k.toNat n])

/-- CRD (R171, R181): the step view. -/
def execCrd (e : Env) (d : Fin 64) (core : BitVec 8) (k : BitVec 6) (s : State) : Out :=
  s.issue .el e 2 (cntOk s.el.lic .el core k) [.g d (BitVec.ofNat 64 (s.cntRead .el core.toNat k.toNat))]

/-- WREG (R181, R210). -/
def execWreg (e : Env) (core : BitVec 8) (k : BitVec 6) (a : Fin 64) (eq : Bool) (eng : Fin 8) (widx : BitVec 12) (s : State) : Out :=
  s.issue .el e 2 (cntOk s.el.lic .el core k && decide (eng.val < s.el.lic.engPerCore) && decide (widx.toNat < s.el.lic.watches))
    [.wreg core.toNat k.toNat (s.greg .el a).toNat eq eng widx.toNat]

/-- WCLR (R181, R215). -/
def execWclr (e : Env) (widx : BitVec 12) (s : State) : Out := s.issue .el e 2 (decide (widx.toNat < s.el.lic.watches)) [.wclr widx.toNat]

/-- ARRIVE (R181). -/
def execArrive (e : Env) (q : QDest) (bid : BitVec 8) (scope : Fin 4) (s : State) : Out :=
  s.issue .el e 2 (destOk s.el.lic .el q) [qAct .barrier (.arrive bid scope) q 1]

/-- BAR (R181). -/
def execBar (e : Env) (q : QDest) (bid : BitVec 8) (scope : Fin 4) (s : State) : Out :=
  s.issue .el e 2 (destOk s.el.lic .el q) [qAct .barrier (.bar bid scope) q 1]

/-- The announcement an ANN sends: this die's LSI and STEP_CUR, and the byte count of G[b][47:0] (R181, R219). -/
def State.annMsg (s : State) (b : Nat) (rcore : BitVec 8) (rk : BitVec 6) (ramt : BitVec 4) : AnnMsg where
  src := BitVec.ofNat 20 s.lsi
  step := BitVec.ofNat 64 s.stepCur
  bytes := (s.greg .el b).setWidth 48
  rcore := rcore
  rk := rk
  ramt := ramt
  ident := 0

/-- ANN (R181, R219). -/
def execAnn (e : Env) (q : QDest) (a b : Fin 64) (rcore : BitVec 8) (rk : BitVec 6) (ramt : BitVec 4) (s : State) : Out :=
  s.issue .el e 2 (destOk s.el.lic .el q) [qAct .barrier (.ann ((s.greg .el a).setWidth 20) (s.annMsg b rcore rk ramt)) q 1]

end Sys2Proof.Machine
end

