-- ==== Sys2Proof/Machine/TreeIsa.lean ====
section
/-! DEFINITION. The TREE, VAULT and LEDG slots of the tree program (R198, R199). -/

namespace Sys2Proof.Machine

/-- A queued operation of a tree-program slot, with its completion counter and registers judged (R169, R170). -/
def State.treeOp (s : State) (e : Env) (slot : Nat) (q : QDest) (regs : List (Fin 64)) (ok : Bool) (queue : QueueId) (kind : QKind) : Out :=
  s.issue .ux e slot (destOk s.el.lic .ux q && regs.all (regOk .ux) && ok) [qAct queue kind q 1]

/-- TSLOT (R198); OPK 6 and 7 are reserved. -/
def execTslot (e : Env) (q : QDest) (rid : BitVec 12) (opk : Fin 8) (a b : Fin 64) (s : State) : Out :=
  s.treeOp e 1 q [a, b] (decide (opk.val < 6)) .tree (.tslot rid.toNat opk (s.greg .ux a).toNat (s.greg .ux b).toNat)

/-- TBAR (R198). -/
def execTbar (e : Env) (q : QDest) (bid : BitVec 8) (a : Fin 64) (s : State) : Out :=
  s.treeOp e 1 q [a] true .tree (.tbar bid (s.greg .ux a).toNat)

/-- TLREQ (R198): as LREQ, at the root; REL = 1 counts from the chip's TB0 at issue (log 26). -/
def execTlreq (e : Env) (q : QDest) (a : Fin 64) (rel start : Bool) (lid : BitVec 8) (gmask : BitVec 16) (s : State) : Out :=
  let t := if rel then hxtAdd (s.tbNow .ux 0) (hxtNs (s.greg .ux a).toNat) else s.gpair .ux a
  s.treeOp e 1 q [a] (lreqOk .ux a rel start gmask) .tree (.tlreq { lid := lid, t := t, gmask := gmask, start := start, lsi := 0, ident := 0 })

/-- TCMPG (R198). -/
def execTcmpg (e : Env) (q : QDest) (rid : BitVec 12) (a n : Fin 64) (s : State) : Out :=
  s.treeOp e 1 q [a, n] true .tree (.tcmpg rid.toNat (s.greg .ux a).toNat (s.greg .ux n).toNat)

/-- TLOCK (R198). -/
def execTlock (e : Env) (q : QDest) (a b c : Fin 64) (s : State) : Out :=
  s.treeOp e 1 q [a, b, c] true .tree (.tlock (s.greg .ux a).toNat (s.greg .ux b).toNat (s.greg .ux c))

/-- TREL (R198). -/
def execTrel (e : Env) (q : QDest) (rid : BitVec 12) (s : State) : Out := s.treeOp e 1 q [] true .tree (.trel rid.toNat)

/-- VGEN (R199). -/
def execVgen (e : Env) (q : QDest) (a b : Fin 64) (s : State) : Out :=
  s.treeOp e 2 q [a, b] true .vault (.vgen (s.greg .ux a).toNat (s.greg .ux b))

/-- VSEAL (R199). -/
def execVseal (e : Env) (q : QDest) (a : Fin 64) (s : State) : Out := s.treeOp e 2 q [a] true .vault (.vseal (s.greg .ux a))

/-- VCMP (R199). -/
def execVcmp (e : Env) (q : QDest) (a b : Fin 64) (s : State) : Out :=
  s.treeOp e 2 q [a, b] true .vault (.vcmp (s.greg .ux a).toNat (s.greg .ux b))

/-- VREST (R199). -/
def execVrest (e : Env) (q : QDest) (a b : Fin 64) (s : State) : Out :=
  s.treeOp e 2 q [a, b] true .vault (.vrest (s.greg .ux a).toNat (s.greg .ux b).toNat)

/-- VDROP (R199). -/
def execVdrop (e : Env) (q : QDest) (a : Fin 64) (s : State) : Out := s.treeOp e 2 q [a] true .vault (.vdrop (s.greg .ux a).toNat)

/-- LSEAL (R199). -/
def execLseal (e : Env) (q : QDest) (a : Fin 64) (s : State) : Out := s.treeOp e 3 q [a] true .ledg (.lseal (s.greg .ux a))

/-- LFLUSH (R199). -/
def execLflush (e : Env) (q : QDest) (s : State) : Out := s.treeOp e 3 q [] true .ledg .lflush

/-- LARCH (R199, R304). -/
def execLarch (e : Env) (q : QDest) (a b : Fin 64) (s : State) : Out :=
  s.treeOp e 3 q [a, b] true .ledg (.larch (s.greg .ux a) (s.greg .ux b))

/-- LTRIM (R199). -/
def execLtrim (e : Env) (q : QDest) (a : Fin 64) (s : State) : Out := s.treeOp e 3 q [a] true .ledg (.ltrim (s.greg .ux a))

end Sys2Proof.Machine
end

