-- ==== Sys2Proof/Machine/Dispatch.lean ====
section
/-! DEFINITION. One arm per command: the meaning each row of spec/opcode_table.json has. -/

namespace Sys2Proof.Machine

def exec (i : Instr) (s : State) : Host.Outcome State Fault Refusal :=
  match i with
  | .powerOn p cfgFilt cfgSlew => Sys2Proof.Machine.execPowerOn p cfgFilt cfgSlew s
  | .tb3Step p => Sys2Proof.Machine.execTb3Step p s
  | .tb3LockDecl p => Sys2Proof.Machine.execTb3LockDecl p s
  | .tb3RateWrite p v => Sys2Proof.Machine.execTb3RateWrite p v s
  | .tbLockDwell p n => Sys2Proof.Machine.execTbLockDwell p n s
  | .tbSourceTimeout p n => Sys2Proof.Machine.execTbSourceTimeout p n s
  | .refclkLoss => Sys2Proof.Machine.execRefclkLoss s
  | .pulseArm p j => Sys2Proof.Machine.execPulseArm p j s
  | .pulseDisarm p j => Sys2Proof.Machine.execPulseDisarm p j s
  | .pulseEdge p j => Sys2Proof.Machine.execPulseEdge p j s
  | .capEdge p c rising sub => Sys2Proof.Machine.execCapEdge p c rising sub s
  | .capPop p c => Sys2Proof.Machine.execCapPop p c s
  | .frcRead p => Sys2Proof.Machine.execFrcRead p s
  | .tbRead p n => Sys2Proof.Machine.execTbRead p n s
  | .dumpDataRead p => Sys2Proof.Machine.execDumpDataRead p s
  | .manifestCommit p => Sys2Proof.Machine.execManifestCommit p s
  | .refValid k => Sys2Proof.Machine.execRefValid k s
  | .refQualified k => Sys2Proof.Machine.execRefQualified k s
  | .refLost k monitor => Sys2Proof.Machine.execRefLost k monitor s
  | .dpllLocked freqOfs candTime => Sys2Proof.Machine.execDpllLocked freqOfs candTime s
  | .acqTimeout => Sys2Proof.Machine.execAcqTimeout s
  | .wtrExpiry => Sys2Proof.Machine.execWtrExpiry s
  | .refModeWrite mode => Sys2Proof.Machine.execRefModeWrite mode s
  | .rootStart => Sys2Proof.Machine.execRootStart s
  | .startWaitExpiry => Sys2Proof.Machine.execStartWaitExpiry s
  | .todWrite n sec lateForEdge => Sys2Proof.Machine.execTodWrite n sec lateForEdge s
  | .ppsEdge n => Sys2Proof.Machine.execPpsEdge n s
  | .ptpMessage port m => Sys2Proof.Machine.execPtpMessage port m s
  | .timeMessage p lane m => Sys2Proof.Machine.execTimeMessage p lane m s
  | .upwardMark p lane seq dPs => Sys2Proof.Machine.execUpwardMark p lane seq dPs s
  | .markSend p lane => Sys2Proof.Machine.execMarkSend p lane s
  | .tcalRecal p lane => Sys2Proof.Machine.execTcalRecal p lane s
  | .frameSlot p lane => Sys2Proof.Machine.execFrameSlot p lane s
  | .frameReceive p lane f => Sys2Proof.Machine.execFrameReceive p lane f s
  | .replayTimeout p lane => Sys2Proof.Machine.execReplayTimeout p lane s
  | .losPersist p lane cdr => Sys2Proof.Machine.execLosPersist p lane cdr s
  | .fecAlignLoss p lane => Sys2Proof.Machine.execFecAlignLoss p lane s
  | .awayFrame p lane set => Sys2Proof.Machine.execAwayFrame p lane set s
  | .signalDetect p lane => Sys2Proof.Machine.execSignalDetect p lane s
  | .laneJoinCmd p lane => Sys2Proof.Machine.execLaneJoinCmd p lane s
  | .trainDone p lane aInt => Sys2Proof.Machine.execTrainDone p lane aInt s
  | .trainTimeout p lane => Sys2Proof.Machine.execTrainTimeout p lane s
  | .joinFrame p lane j authOk => Sys2Proof.Machine.execJoinFrame p lane j authOk s
  | .laneLeaveCmd p lane => Sys2Proof.Machine.execLaneLeaveCmd p lane s
  | .leaveFrame p lane => Sys2Proof.Machine.execLeaveFrame p lane s
  | .drainEmpty p lane => Sys2Proof.Machine.execDrainEmpty p lane s
  | .laneDrainTimeout p lane => Sys2Proof.Machine.execLaneDrainTimeout p lane s
  | .laneCntClr p lane => Sys2Proof.Machine.execLaneCntClr p lane s
  | .moduleInterrupt m lane flag fatal => Sys2Proof.Machine.execModuleInterrupt m lane flag fatal s
  | .modulePoll => Sys2Proof.Machine.execModulePoll s
  | .nop p e => Sys2Proof.Machine.execNop p e s
  | .br p e tgt => Sys2Proof.Machine.execBr p e tgt s
  | .brr p e a => Sys2Proof.Machine.execBrr p e a s
  | .loop p e d tgt => Sys2Proof.Machine.execLoop p e d tgt s
  | .waitt p e tb rel a ns => Sys2Proof.Machine.execWaitt p e tb rel a ns s
  | .anchorRelease p => Sys2Proof.Machine.execAnchorRelease p s
  | .waitc p e core k a eq pre tmo cf => Sys2Proof.Machine.execWaitc p e core k a eq pre tmo cf s
  | .waitcTimeout p => Sys2Proof.Machine.execWaitcTimeout p s
  | .halt p e => Sys2Proof.Machine.execHalt p e s
  | .quiet p e mask n => Sys2Proof.Machine.execQuiet p e mask n s
  | .windowClose p => Sys2Proof.Machine.execWindowClose p s
  | .trd e d tb nsf => Sys2Proof.Machine.execTrd e d tb nsf s
  | .frcrd e d => Sys2Proof.Machine.execFrcrd e d s
  | .parm e j tb rel a cf ns => Sys2Proof.Machine.execParm e j tb rel a cf ns s
  | .lreq e q a rel start lid gmask => Sys2Proof.Machine.execLreq e q a rel start lid gmask s
  | .larm e lid gmask => Sys2Proof.Machine.execLarm e lid gmask s
  | .cinc e core k amt => Sys2Proof.Machine.execCinc e core k amt s
  | .cincr e core k a => Sys2Proof.Machine.execCincr e core k a s
  | .crd e d core k => Sys2Proof.Machine.execCrd e d core k s
  | .wreg e core k a eq eng widx => Sys2Proof.Machine.execWreg e core k a eq eng widx s
  | .wclr e widx => Sys2Proof.Machine.execWclr e widx s
  | .arrive e q bid scope => Sys2Proof.Machine.execArrive e q bid scope s
  | .bar e q bid scope => Sys2Proof.Machine.execBar e q bid scope s
  | .ann e q a b rcore rk ramt => Sys2Proof.Machine.execAnn e q a b rcore rk ramt s
  | .scale e q t => Sys2Proof.Machine.execScale e q t s
  | .tconv e q t => Sys2Proof.Machine.execTconv e q t s
  | .tadd e q t => Sys2Proof.Machine.execTadd e q t s
  | .tfin e q t => Sys2Proof.Machine.execTfin e q t s
  | .psum e q t => Sys2Proof.Machine.execPsum e q t s
  | .spass e q rid gn ge min => Sys2Proof.Machine.execSpass e q rid gn ge min s
  | .ssum e q rid gn ge => Sys2Proof.Machine.execSsum e q rid gn ge s
  | .bcvg e q k => Sys2Proof.Machine.execBcvg e q k s
  | .bcvv e q k => Sys2Proof.Machine.execBcvv e q k s
  | .fpa e q k => Sys2Proof.Machine.execFpa e q k s
  | .fpcmp e q fa fb => Sys2Proof.Machine.execFpcmp e q fa fb s
  | .xchk e q rid fa => Sys2Proof.Machine.execXchk e q rid fa s
  | .lemit e q gt fa kind => Sys2Proof.Machine.execLemit e q gt fa kind s
  | .sealv e q a => Sys2Proof.Machine.execSealv e q a s
  | .sealq e q a => Sys2Proof.Machine.execSealq e q a s
  | .lstag e q fa => Sys2Proof.Machine.execLstag e q fa s
  | .fclr e fa => Sys2Proof.Machine.execFclr e fa s
  | .frd e d fa sel => Sys2Proof.Machine.execFrd e d fa sel s
  | .fsto e fa a ofs => Sys2Proof.Machine.execFsto e fa a ofs s
  | .rng e d a b purpose => Sys2Proof.Machine.execRng e d a b purpose s
  | .rngx e d a b purpose => Sys2Proof.Machine.execRngx e d a b purpose s
  | .srng e d n purpose => Sys2Proof.Machine.execSrng e d n purpose s
  | .snext e d n => Sys2Proof.Machine.execSnext e d n s
  | .sset e n a b => Sys2Proof.Machine.execSset e n a b s
  | .srd e d n => Sys2Proof.Machine.execSrd e d n s
  | .rsto e a b c purpose => Sys2Proof.Machine.execRsto e a b c purpose s
  | .ld e d a ofs replays => Sys2Proof.Machine.execLd e d a ofs replays s
  | .st e a b ofs => Sys2Proof.Machine.execSt e a b ofs s
  | .dmago e q ch a => Sys2Proof.Machine.execDmago e q ch a s
  | .dmaab e ch => Sys2Proof.Machine.execDmaab e ch s
  | .rdstep e d => Sys2Proof.Machine.execRdstep e d s
  | .rdid e d sel => Sys2Proof.Machine.execRdid e d sel s
  | .rdcnt e d src => Sys2Proof.Machine.execRdcnt e d src s
  | .mstg e cf a b => Sys2Proof.Machine.execMstg e cf a b s
  | .mchk e cf => Sys2Proof.Machine.execMchk e cf s
  | .mcommit e cf rel a ns => Sys2Proof.Machine.execMcommit e cf rel a ns s
  | .evt e a tag => Sys2Proof.Machine.execEvt e a tag s
  | .gkick e mask => Sys2Proof.Machine.execGkick e mask s
  | .gtrap e a => Sys2Proof.Machine.execGtrap e a s
  | .mov p e d o => Sys2Proof.Machine.execMov p e d o s
  | .add p e d a o => Sys2Proof.Machine.execAdd p e d a o s
  | .sub p e d a o => Sys2Proof.Machine.execSub p e d a o s
  | .and p e d a o => Sys2Proof.Machine.execAnd p e d a o s
  | .or p e d a o => Sys2Proof.Machine.execOr p e d a o s
  | .xor p e d a o => Sys2Proof.Machine.execXor p e d a o s
  | .shl p e d a o => Sys2Proof.Machine.execShl p e d a o s
  | .shr p e d a o => Sys2Proof.Machine.execShr p e d a o s
  | .sar p e d a o => Sys2Proof.Machine.execSar p e d a o s
  | .mul p e d a o => Sys2Proof.Machine.execMul p e d a o s
  | .movh p e d v => Sys2Proof.Machine.execMovh p e d v s
  | .cmp p e cd cond a o => Sys2Proof.Machine.execCmp p e cd cond a o s
  | .fop p e cd ca cb fn => Sys2Proof.Machine.execFop p e cd ca cb fn s
  | .treeTrd e d tb nsf => Sys2Proof.Machine.execTreeTrd e d tb nsf s
  | .tslot e q rid opk a b => Sys2Proof.Machine.execTslot e q rid opk a b s
  | .tbar e q bid a => Sys2Proof.Machine.execTbar e q bid a s
  | .tlreq e q a rel start lid gmask => Sys2Proof.Machine.execTlreq e q a rel start lid gmask s
  | .tcmpg e q rid a n => Sys2Proof.Machine.execTcmpg e q rid a n s
  | .tlock e q a b c => Sys2Proof.Machine.execTlock e q a b c s
  | .trel e q rid => Sys2Proof.Machine.execTrel e q rid s
  | .vgen e q a b => Sys2Proof.Machine.execVgen e q a b s
  | .vseal e q a => Sys2Proof.Machine.execVseal e q a s
  | .vcmp e q a b => Sys2Proof.Machine.execVcmp e q a b s
  | .vrest e q a b => Sys2Proof.Machine.execVrest e q a b s
  | .vdrop e q a => Sys2Proof.Machine.execVdrop e q a s
  | .lseal e q a => Sys2Proof.Machine.execLseal e q a s
  | .lflush e q => Sys2Proof.Machine.execLflush e q s
  | .larch e q a b => Sys2Proof.Machine.execLarch e q a b s
  | .ltrim e q a => Sys2Proof.Machine.execLtrim e q a s
  | .queuedOpStart p q replay => Sys2Proof.Machine.execQueuedOpStart p q replay s
  | .queuedOpCompletion p qid ans => Sys2Proof.Machine.execQueuedOpCompletion p qid ans s
  | .progRefetch p slot ok => Sys2Proof.Machine.execProgRefetch p slot ok s
  | .seqLoad => Sys2Proof.Machine.execSeqLoad s
  | .imageLoadEnd p readOk => Sys2Proof.Machine.execImageLoadEnd p readOk s
  | .seqUnload p => Sys2Proof.Machine.execSeqUnload p s
  | .seqStart => Sys2Proof.Machine.execSeqStart s
  | .tseqLoad => Sys2Proof.Machine.execTseqLoad s
  | .tseqStart => Sys2Proof.Machine.execTseqStart s
  | .csInc c eng core k amt => Sys2Proof.Machine.execCsInc c eng core k amt s
  | .csWreg c eng core k target eq widx => Sys2Proof.Machine.execCsWreg c eng core k target eq widx s
  | .csWrel c eng widx => Sys2Proof.Machine.execCsWrel c eng widx s
  | .csArrive c eng core k bid => Sys2Proof.Machine.execCsArrive c eng core k bid s
  | .wakeSend core => Sys2Proof.Machine.execWakeSend core s
  | .watchTimeout w => Sys2Proof.Machine.execWatchTimeout w s
  | .hincWrite v => Sys2Proof.Machine.execHincWrite v s
  | .deadlock => Sys2Proof.Machine.execDeadlock s
  | .engRst c e => Sys2Proof.Machine.execEngRst c e s
  | .gateAck c e level => Sys2Proof.Machine.execGateAck c e level s
  | .annMessage m => Sys2Proof.Machine.execAnnMessage m s
  | .annResend qid => Sys2Proof.Machine.execAnnResend qid s
  | .annTimeout qid => Sys2Proof.Machine.execAnnTimeout qid s
  | .landTimeout tag => Sys2Proof.Machine.execLandTimeout tag s
  | .idcChangeNotice src => Sys2Proof.Machine.execIdcChangeNotice src s
  | .idcAnswer tag grant => Sys2Proof.Machine.execIdcAnswer tag grant s
  | .idcClearAck => Sys2Proof.Machine.execIdcClearAck s
  | .barLocalComplete bid => Sys2Proof.Machine.execBarLocalComplete bid s
  | .barNodeArrival lane pos m => Sys2Proof.Machine.execBarNodeArrival lane pos m s
  | .barRelease p bid m => Sys2Proof.Machine.execBarRelease p bid m s
  | .barRefusal p bid m => Sys2Proof.Machine.execBarRefusal p bid m s
  | .barTimeout bid => Sys2Proof.Machine.execBarTimeout bid s
  | .barNodeTimeout bid => Sys2Proof.Machine.execBarNodeTimeout bid s
  | .launchRequest m lane => Sys2Proof.Machine.execLaunchRequest m lane s
  | .dlaunchRecompute reports => Sys2Proof.Machine.execDlaunchRecompute reports s
  | .launchMessage m => Sys2Proof.Machine.execLaunchMessage m s
  | .launchFire lid => Sys2Proof.Machine.execLaunchFire lid s
  | .reductionContribution m lane => Sys2Proof.Machine.execReductionContribution m lane s
  | .slotHeldExpiry cluster idx => Sys2Proof.Machine.execSlotHeldExpiry cluster idx s
  | .slotTimeout p key => Sys2Proof.Machine.execSlotTimeout p key s
  | .xchkContribution rid lane m => Sys2Proof.Machine.execXchkContribution rid lane m s
  | .xchkBroadcast rid m => Sys2Proof.Machine.execXchkBroadcast rid m s
  | .chkerrReport tag mover => Sys2Proof.Machine.execChkerrReport tag mover s
  | .ledgerRecords lane ord recs => Sys2Proof.Machine.execLedgerRecords lane ord recs s
  | .lockRearm => Sys2Proof.Machine.execLockRearm s
  | .passVote lane v => Sys2Proof.Machine.execPassVote lane v s
  | .failMessage lane v => Sys2Proof.Machine.execFailMessage lane v s
  | .sealMessage p step => Sys2Proof.Machine.execSealMessage p step s
  | .ledgVerify => Sys2Proof.Machine.execLedgVerify s
  | .ledgChainReset => Sys2Proof.Machine.execLedgChainReset s
  | .hbSend p => Sys2Proof.Machine.execHbSend p s
  | .hbMessage lane m => Sys2Proof.Machine.execHbMessage lane m s
  | .hbMiss subj nth ageNs => Sys2Proof.Machine.execHbMiss subj nth ageNs s
  | .hearReq subj lane => Sys2Proof.Machine.execHearReq subj lane s
  | .hearAns subj ageNs => Sys2Proof.Machine.execHearAns subj ageNs s
  | .hearTimeout subj => Sys2Proof.Machine.execHearTimeout subj s
  | .propose m => Sys2Proof.Machine.execPropose m s
  | .vote m => Sys2Proof.Machine.execVote m s
  | .proposeResend subj => Sys2Proof.Machine.execProposeResend subj s
  | .authoritySelfVote subj => Sys2Proof.Machine.execAuthoritySelfVote subj s
  | .decision p m => Sys2Proof.Machine.execDecision p m s
  | .rollback p step => Sys2Proof.Machine.execRollback p step s
  | .rbReady pdi next => Sys2Proof.Machine.execRbReady pdi next s
  | .rbCommit p tc => Sys2Proof.Machine.execRbCommit p tc s
  | .fenceMessage p subj => Sys2Proof.Machine.execFenceMessage p subj s
  | .probation action k => Sys2Proof.Machine.execProbation action k s
  | .healthDecay => Sys2Proof.Machine.execHealthDecay s
  | .restoredWrite => Sys2Proof.Machine.execRestoredWrite s
  | .hcReadmit w => Sys2Proof.Machine.execHcReadmit w s
  | .hcAdviseFailed w => Sys2Proof.Machine.execHcAdviseFailed w s
  | .hcFence w => Sys2Proof.Machine.execHcFence w s
  | .vaultMessage lane m => Sys2Proof.Machine.execVaultMessage lane m s
  | .pathReply seq status => Sys2Proof.Machine.execPathReply seq status s
  | .pathResend seq => Sys2Proof.Machine.execPathResend seq s
  | .dmaHostGo ch count => Sys2Proof.Machine.execDmaHostGo ch count s
  | .dmaHostAbort ch => Sys2Proof.Machine.execDmaHostAbort ch s
  | .dmaClrHalt ch => Sys2Proof.Machine.execDmaClrHalt ch s
  | .dmaDescriptorFetch ch => Sys2Proof.Machine.execDmaDescriptorFetch ch s
  | .dmaRequestDone ch r => Sys2Proof.Machine.execDmaRequestDone ch r s
  | .dmaBusError ch => Sys2Proof.Machine.execDmaBusError ch s
  | .vaultRestoreMessage m => Sys2Proof.Machine.execVaultRestoreMessage m s
  | .spmHostAccess write addr size data replay => Sys2Proof.Machine.execSpmHostAccess write addr size data replay s
  | .spmHostTimeout write addr => Sys2Proof.Machine.execSpmHostTimeout write addr s
  | .progApertureRead write addr size parity => Sys2Proof.Machine.execProgApertureRead write addr size parity s
  | .spmClearDone cycles => Sys2Proof.Machine.execSpmClearDone cycles s
  | .fclkSwitch p => Sys2Proof.Machine.execFclkSwitch p s
  | .pllFail p => Sys2Proof.Machine.execPllFail p s
  | .droopStretch p region => Sys2Proof.Machine.execDroopStretch p region s
  | .throttleChange level => Sys2Proof.Machine.execThrottleChange level s
  | .sleepEntry => Sys2Proof.Machine.execSleepEntry s
  | .wakeTrigger => Sys2Proof.Machine.execWakeTrigger s
  | .wakeEnd durNs => Sys2Proof.Machine.execWakeEnd durNs s
  | .uxDomainIdle d => Sys2Proof.Machine.execUxDomainIdle d s
  | .watchdog p unit => Sys2Proof.Machine.execWatchdog p unit s
  | .hang p cause => Sys2Proof.Machine.execHang p cause s
  | .dumpReadTimeout p unit word => Sys2Proof.Machine.execDumpReadTimeout p unit word s
  | .dumpComplete p => Sys2Proof.Machine.execDumpComplete p s
  | .resetDoneReport p d => Sys2Proof.Machine.execResetDoneReport p d s
  | .stageTimeout p => Sys2Proof.Machine.execStageTimeout p s
  | .fatalClr p => Sys2Proof.Machine.execFatalClr p s
  | .faultHoldRelease p => Sys2Proof.Machine.execFaultHoldRelease p s
  | .stageWrite p off v size => Sys2Proof.Machine.execStageWrite p off v size s
  | .manArm p => Sys2Proof.Machine.execManArm p s
  | .manNow p => Sys2Proof.Machine.execManNow p s
  | .manDisarm p => Sys2Proof.Machine.execManDisarm p s
  | .manDiscard p => Sys2Proof.Machine.execManDiscard p s
  | .hallGo => Sys2Proof.Machine.execHallGo s
  | .manPrep p => Sys2Proof.Machine.execManPrep p s
  | .manVote lane passes fails firstFail => Sys2Proof.Machine.execManVote lane passes fails firstFail s
  | .hallTimeout => Sys2Proof.Machine.execHallTimeout s
  | .manCommitMessage p t => Sys2Proof.Machine.execManCommitMessage p t s
  | .unitDrainTimeout unit => Sys2Proof.Machine.execUnitDrainTimeout unit s
  | .vc5RdReq p addr len seq => Sys2Proof.Machine.execVc5RdReq p addr len seq s
  | .vc5WrReq p addr data seq => Sys2Proof.Machine.execVc5WrReq p addr data seq s
  | .attGo p => Sys2Proof.Machine.execAttGo p s
  | .attestReq p lane nonce => Sys2Proof.Machine.execAttestReq p lane nonce s
  | .attestRsp lane report pubKey => Sys2Proof.Machine.execAttestRsp lane report pubKey s
  | .attestRetry lane => Sys2Proof.Machine.execAttestRetry lane s
  | .provLock p => Sys2Proof.Machine.execProvLock p s
  | .dbgUnlock p sig => Sys2Proof.Machine.execDbgUnlock p sig s
  | .keyRevoke p mask => Sys2Proof.Machine.execKeyRevoke p mask s
  | .fwImage image keyId sig => Sys2Proof.Machine.execFwImage image keyId sig s
  | .selftestGo p action mask force => Sys2Proof.Machine.execSelftestGo p action mask force s
  | .selftestStart p => Sys2Proof.Machine.execSelftestStart p s
  | .selftestDefer p => Sys2Proof.Machine.execSelftestDefer p s
  | .selftestDone p result => Sys2Proof.Machine.execSelftestDone p result s
  | .testUnlock p v => Sys2Proof.Machine.execTestUnlock p v s
  | .thermWarn tj sensor => Sys2Proof.Machine.execThermWarn tj sensor s
  | .thermClear sensor => Sys2Proof.Machine.execThermClear sensor s
  | .thermtrip tj sensor => Sys2Proof.Machine.execThermtrip tj sensor s
  | .hbmStackFail stack => Sys2Proof.Machine.execHbmStackFail stack s
  | .replaceClear mask persist => Sys2Proof.Machine.execReplaceClear mask persist s
  | .registerWrite p off size v => Sys2Proof.Machine.execRegisterWrite p off size v s
  | .accessDomainTimeout p write off => Sys2Proof.Machine.execAccessDomainTimeout p write off s
  | .supplyChange supply good => Sys2Proof.Machine.execSupplyChange supply good s
  | .engRstLow c e => Sys2Proof.Machine.execEngRstLow c e s
  | .evtTransfer => Sys2Proof.Machine.execEvtTransfer s
  | .uxDomainOn d => Sys2Proof.Machine.execUxDomainOn d s
  | .quadrantFail q => Sys2Proof.Machine.execQuadrantFail q s
  | .corePllTimeout => Sys2Proof.Machine.execCorePllTimeout s
  | .attDone p => Sys2Proof.Machine.execAttDone p s

end Sys2Proof.Machine
end

