-- ==== Sys2Proof/Machine/Tick.lean ====
section
/-! DEFINITION. One ACLK tick (R42), which is what a step does when no command waits (log 53): both free-running counters advance, the pulses of the last tick end, and the commands that have come due by the clock, with the next bundle of a running sequencer, are queued. -/

namespace Sys2Proof.Machine

/-- The FRC of both parts one whole tick further (R42). -/
def State.frcTick (s : State) : State :=
  (s.mod .el (fun b => { b with frc := b.frc + 65536 })).mod .ux (fun b => { b with frc := b.frc + 65536 })

/-- What the watchdogs of a part have counted with this tick (R424): one that is not enabled stands at 0, the others count while the sequencer is RUNNING and their unit is outside the open window. -/
def State.wdNext (s : State) (p : Part) : Tbl Nat :=
  (List.range 7).foldl (fun t i =>
    if !bitOf (s.get p Reg.GUARD_WD_EN) i then terase t i
    else if s.seqState p == 3 && !bitOf (s.windowMask p) i then tput 0 t i (tget 0 t i + 1) else t) (s.base p).wdCount

/-- Every watchdog of a part counts the tick. -/
def State.wdTick (s : State) (p : Part) : State := s.mod p (fun b => { b with wdCount := s.wdNext p })

/-- The LAUNCH outputs are high for one tick (R509). -/
def State.launchFall (s : State) : State := s.modEl (fun e => { e with ports := { e.ports with launch := 0 } })

/-- How many edges of a pulse output have come (R56): at PERIOD 6.4 ns and a positive RATE a tick may hold two. -/
def State.edgesDue (s : State) (p : Part) (i : Nat) : Nat :=
  if pulseHas p i && s.bit p (Reg.PULSE_STAT_ARMED i) && s.pulseDue p i then
    if s.get p (Reg.PULSE_CTRL_MODE i) = 0 then 1
    else hxtSub (s.tbNow p (s.get p (Reg.PULSE_CTRL_TB i))) (s.pulse p i).nextEdge / s.pulsePeriod p i + 1
  else 0

/-- The edges of armed pulse outputs that have come (R56). -/
def State.duePulses (s : State) (p : Part) : List Instr :=
  (List.range 8).flatMap (fun i => List.replicate (s.edgesDue p i) (.pulseEdge p (Fin.ofNat 8 i)))

/-- The anchor that is reached (R147). -/
def State.dueAnchor (s : State) (p : Part) : List Instr :=
  match (s.seq p).hold with
  | .anchor t _ => if s.issuing p && (s.tbState p 0 == 0 || s.tbReached p 0 t) then [.anchorRelease p] else []
  | _ => []

/-- The counter wait whose limit has passed (R176, R177). -/
def State.dueWaitc (s : State) (p : Part) : List Instr :=
  match (s.seq p).hold with
  | .waitc core k t _ _ limit since => if s.issuing p && limit ≤ s.tick p - since && decide (s.cntRead p core k < t) then [.waitcTimeout p] else []
  | _ => []

/-- The window that has ended (R150). -/
def State.dueWindow (s : State) (p : Part) : List Instr :=
  match (s.seq p).window with
  | some w => match w.until? with
    | some t => if s.tbReached p 0 t then [.windowClose p] else []
    | none => []
  | none => []

/-- The launches whose instant has come (R236). -/
def State.dueLaunches (s : State) : List Instr :=
  (s.el.launches.filter (fun m => s.tbReached .el 0 m.t)).map (fun m => .launchFire m.lid)

/-- The commit whose instant has come (R446, R347). -/
def State.dueCommit (s : State) (p : Part) : List Instr :=
  match (s.base p).rbAt, (s.base p).manAt with
  | some t, _ => if s.instantCome p t then [.manifestCommit p] else []
  | none, some t => if s.manState p = 2 && s.instantCome p t then [.manifestCommit p] else []
  | none, none => []

/-- The words of a bundle in program memory. -/
def State.bundleWords (s : State) (p : Part) (b : Nat) : List Nat :=
  (List.range (slotCount p)).map (fun k => (tget (0 : Word) (s.seq p).prog (slotCount p * b + k)).toNat)

/-- The slot operations of the bundle at PC of a sequencer that issues and waits for no anchor (R134, R138). -/
def State.dueBundle (s : State) (p : Part) : List Instr :=
  let q := s.seq p
  let free := match q.hold with | .anchor _ _ => q.anchorOk | _ => true
  if s.issuing p && free && q.acts.isEmpty && !q.skip then
    (decodeBundle s.el.lic q.bundles p (s.bundleWords p (s.pc p))).getD []
  else []

/-- The marks and the replays that the lanes of a part have due (R103, R118). -/
def State.dueLanes (s : State) (p : Part) : List Instr :=
  (s.base p).lanes.flatMap (fun e =>
    (if s.markDue p e.1 then [.markSend p (Fin.ofNat 160 e.1)] else []) ++ (if s.replayDue p e.1 then [.replayTimeout p (Fin.ofNat 160 e.1)] else []))

/-- The periods of the fast clock a part has counted at a tick: FMUL / 25 or CMUL of them each tick (R403, R412). -/
def State.periodsAt (s : State) (p : Part) (t : Nat) : Nat :=
  match p with
  | .el => t * s.get .el Reg.CLK_STAT_FMUL_CUR / 25
  | .ux => t * s.get .ux Reg.UX_CLK_CTRL_CMUL

/-- The stretches that the perturbation of R466 has due: one in every PERIOD periods of each region of REGIONS, counted from FRC 0 (log 118). -/
def State.dueStretches (s : State) (p : Part) : List Instr :=
  let per := s.get p Reg.TEST_CLK_PERIOD
  let n := s.periodsAt p (s.tick p) / per - s.periodsAt p (s.tick p - 1) / per
  if s.bit p Reg.TEST_CLK_EN && per != 0 && !(p == .el && s.fclkStopped) then
    ((List.range 4).filter (fun r => bitOf (s.get p Reg.TEST_CLK_REGIONS) r)).flatMap (fun r => List.replicate n (.droopStretch p (Fin.ofNat 64 r)))
  else []

/-- What one part has due, after its commit. -/
def State.duePart (s : State) (p : Part) : List Instr :=
  s.dueStretches p ++ s.duePulses p ++ s.dueLanes p ++ s.dueWindow p ++ s.dueAnchor p ++ s.dueWaitc p ++ s.dueBundle p

/-- Everything due: the commits come before a step start of the same tick (R447), the Elesh before the Uhloux. -/
def State.due (s : State) : List Instr := s.dueCommit .el ++ s.dueCommit .ux ++ s.dueLaunches ++ s.duePart .el ++ s.duePart .ux

/-- The clock part of a tick: the counters and the watchdogs of both parts, and the fall of the launch outputs. -/
def State.clockTick (s : State) : State := ((s.frcTick.wdTick .el).wdTick .ux).launchFall

/-- A step with no command waiting: one ACLK tick. -/
def State.idleTick (s : State) : State :=
  let t := s.clockTick
  { t with pending := t.pending ++ t.due }

end Sys2Proof.Machine
end

