-- ==== Sys2Proof/Safety.lean ====
section
/-! DEFINITION. What a safe run is: a step answers a next state, every memory keeps its canonical form, and what no command but power-on may change stays. -/

namespace Sys2Proof.Machine

/-- Every memory of the block holds its canonical form: SPM, the die's memory, HBM, and the byte windows of both SEC units. -/
def State.memOk (s : State) : Prop :=
  Memory.wf s.el.spm = true ∧ Memory.wf s.el.base.mem = true ∧ Memory.wf s.ux.base.mem = true ∧
    Memory.wf s.el.base.secBytes = true ∧ Memory.wf s.ux.base.secBytes = true

/-- What a change of one part keeps: the free-running counter (R43), the sampled straps, every event logged so far in its order (R12), and the form of its two memories. -/
structure BaseKeeps (b c : Base) : Prop where
  frc    : c.frc = b.frc
  straps : c.cfgFilt = b.cfgFilt ∧ c.cfgSlew = b.cfgSlew
  events : b.events <+: c.events
  mem    : Memory.wf b.mem = true → Memory.wf c.mem = true
  sec    : Memory.wf b.secBytes = true → Memory.wf c.secBytes = true

/-- What every effect of a command but POWER_ON keeps: what `BaseKeeps` says of both parts, the form of SPM, the licensed instance (R2), the commands that wait, and the count of free values, which only grows. -/
structure Keeps (s t : State) : Prop where
  el      : BaseKeeps s.el.base t.el.base
  ux      : BaseKeeps s.ux.base t.ux.base
  spm     : Memory.wf s.el.spm = true → Memory.wf t.el.spm = true
  lic     : t.el.lic = s.el.lic
  pending : t.pending = s.pending
  draws   : s.draws ≤ t.draws

/-- A meaning ends in a next state that keeps what `Keeps` says, or refuses a reserved encoding; it never faults. -/
def Tame (s : State) (o : Out) : Prop :=
  (∃ t, o = .next t ∧ Keeps s t) ∨ o = .refused .reservedEncoding

/-! ### The terms statements are made of -/

/-- A part without what only records or waits to be sent: its events and its lanes' queues. -/
def Base.core (b : Base) : Base := { b with events := [], lanes := [] }

/-- The state without its logs: the events of both parts, the event port and the count of events since step start, what lanes hold, and the count of free values.
Two states with one `core` agree in every register, memory, counter, queue and engine. -/
def State.core (s : State) : State :=
  { s with
    el := { s.el with base := s.el.base.core, stepEvents := 0, ports := { s.el.ports with evtQ := [] } }
    ux := { s.ux with base := s.ux.base.core }
    draws := 0 }

/-- An event as a statement names it: unit, code, OBJECT, DETAIL (R13). -/
abbrev Entry := Nat × Nat × Nat × Nat

/-- What a record shows of an entry of a part. -/
def Entry.shows (p : Part) (e : Entry) (r : EvtRec) : Prop :=
  r.source = BitVec.ofNat 16 ((match p with | .el => 0 | .ux => 0x100) + e.1) ∧ r.code = BitVec.ofNat 16 e.2.1
    ∧ r.object = BitVec.ofNat 32 e.2.2.1 ∧ r.detail = BitVec.ofNat 64 e.2.2.2

/-- The part has logged exactly these events between two states, in this order. -/
def Logged (p : Part) (s t : State) (es : List Entry) : Prop :=
  ∃ rs, (t.base p).events = (s.base p).events ++ rs ∧ List.Forall₂ (Entry.shows p) es rs

/-- The command answers a next state which is `t` but for its logs and lanes, and the part logs exactly `es`. -/
def Goes (c : Instr) (s t : State) (p : Part) (es : List Entry) : Prop :=
  ∃ u, exec c s = .next u ∧ u.core = t.core ∧ Logged p s u es

/-- The command answers a next state with this property. -/
def Ends (c : Instr) (s : State) (P : State → Prop) : Prop := ∃ u, exec c s = .next u ∧ P u

/-- Of all registers of both parts only those listed may differ. -/
def RegsBut (ex : List (Part × Nat)) (s t : State) : Prop := ∀ p off, (p, off) ∉ ex → t.reg p off = s.reg p off

/-- All memories and counters of both parts are the same. -/
def SameStore (s t : State) : Prop :=
  t.el.spm = s.el.spm ∧ (∀ p, (t.base p).mem = (s.base p).mem) ∧ (∀ p, (t.base p).secBytes = (s.base p).secBytes)
    ∧ t.el.counters = s.el.counters ∧ t.ux.tc = s.ux.tc

/-- An operation alone in its bundle on a sequencer that issues: its envelope is legal, executes and closes the bundle; nothing else has gathered; no hold of R139 applies to what the operation does; and PC lies in the program. -/
structure Alone (s : State) (p : Part) (e : Env) (slot : Nat) (acts : List Act) : Prop where
  issues : s.issuing p = true
  env    : envOk e = true
  runs   : s.runs p e = true
  last   : e.last = true
  empty  : (s.seq p).acts = []
  whole  : (s.seq p).skip = false
  test   : s.testHeld p = false
  action : s.actionHeld p (.unit slot :: acts) = false
  window : s.windowHeld p (.unit slot :: acts) = none
  queue  : s.queueLack p (.unit slot :: acts) = none
  inside : s.pc p < (s.seq p).bundles
  size   : (s.seq p).bundles ≤ 4096

/-- Such an operation in a bundle that is not the last of its program. -/
def Within (s : State) (p : Part) (e : Env) (slot : Nat) (acts : List Act) : Prop := Alone s p e slot acts ∧ s.pc p + 1 < (s.seq p).bundles

/-- The part whose program a slot operation belongs to. -/
def slotPart : Instr → Part
  | .nop p _ | .br p _ _ | .brr p _ _ | .loop p _ _ _ | .waitt p _ _ _ _ _ | .waitc p _ _ _ _ _ _ _ _ | .halt p _ | .quiet p _ _ _
  | .mov p _ _ _ | .add p _ _ _ _ | .sub p _ _ _ _ | .and p _ _ _ _ | .or p _ _ _ _ | .xor p _ _ _ _ | .shl p _ _ _ _ | .shr p _ _ _ _
  | .sar p _ _ _ _ | .mul p _ _ _ _ | .movh p _ _ _ | .cmp p _ _ _ _ _ | .fop p _ _ _ _ _ => p
  | .treeTrd _ _ _ _ | .tslot _ _ _ _ _ _ | .tbar _ _ _ _ | .tlreq _ _ _ _ _ _ _ | .tcmpg _ _ _ _ _ | .tlock _ _ _ _ _ | .trel _ _ _
  | .vgen _ _ _ _ | .vseal _ _ _ | .vcmp _ _ _ _ | .vrest _ _ _ _ | .vdrop _ _ _ | .lseal _ _ _ | .lflush _ _ | .larch _ _ _ _ | .ltrim _ _ _ => .ux
  | _ => .el

/-- The number of bundles a branch of this command is judged by (R135): those of its own program. -/
def State.bundlesOf (s : State) : Instr → Nat
  | .br p _ _ | .loop p _ _ _ => (s.seq p).bundles
  | _ => 0

/-- The state without what the issue of any bundle writes: the part's registers, its general registers and flags, and the marks of the bundle in issue. -/
def State.still (s : State) (p : Part) : State :=
  s.core.mod p (fun b => { b with regs := [], seq := { b.seq with g := [], c := 0, acts := [], hold := .none, skip := false, anchorOk := false, segNew := false } })

/-- A bundle with these effects has issued (R136, R138): the state is `t`, what the operation's own effect on all but G and C makes, with PC at bundle `next`, G reading `g`, C reading `c`, and no bundle in issue or held. The bundle of an anchor begins the count of its segment's slips (R147). -/
structure Issued (t u : State) (p : Part) (next : Nat) (g : Nat → Word) (c : Nat → Bool) : Prop where
  rest   : u.still p = t.still p
  regs   : RegsBut ((p, Reg.SEQ_PC_PC.off) :: if (t.seq p).segNew then [(p, Reg.SEQ_SLIPS_SEGMENT.off)] else []) t u
  pc     : u.pc p = next
  gregs  : ∀ a, u.greg p a = g a
  flags  : ∀ i < 8, u.flag p i = c i
  events : ∀ q, (u.base q).events = (t.base q).events
  done   : (u.seq p).acts = [] ∧ (u.seq p).hold = .none ∧ (u.seq p).skip = false ∧ (u.seq p).anchorOk = false ∧ (u.seq p).segNew = false
  slips  : (t.seq p).segNew = true → u.get p Reg.SEQ_SLIPS_SEGMENT = 0

/-- What the bundle of an anchor issues from (R147): the count of the segment's slips begins at 0. Any other bundle issues from the state itself. -/
def State.segStart (s : State) (p : Part) : State :=
  if (s.seq p).segNew then (s.put p Reg.SEQ_SLIPS_SEGMENT 0).modSeq p (fun q => { q with segNew := false }) else s

/-- A slot operation answers such a state, with PC one bundle further. -/
def Issues (i : Instr) (s t : State) (p : Part) (g : Nat → Word) (c : Nat → Bool) : Prop := Ends i s (fun u => Issued t u p (s.pc p + 1) g c)

/-- The guard of a part would act on a trigger at once with a new crash dump (R426, R431): no action is in progress, and no dump that DUMP_OVERWRITE keeps stands. -/
def State.guardFree (s : State) (p : Part) : Prop :=
  s.guardActive p = false ∧ (s.bit p Reg.GUARD_STAT_DUMP_VALID = false ∨ s.bit p Reg.GUARD_CTRL_DUMP_OVERWRITE = true)

/-- A guard has taken a trigger (R422, R426, R430): it is ACTIVE with the trigger's code and unit, issue is stopped, and a crash dump is being taken; the ladder will begin at stage `first`. -/
def State.triggered (s : State) (p : Part) (code unit first : Nat) : Prop :=
  s.bit p Reg.GUARD_STAT_ACTIVE = true ∧ s.get p Reg.GUARD_STAT_TRIGGER = code ∧ s.get p Reg.GUARD_STAT_UNIT = unit % 256 ∧ s.get p Reg.GUARD_STAT_STAGE = 0
    ∧ s.bit p Reg.GUARD_STAT_DUMP_BUSY = true ∧ (s.guard p).phase = .dumping ∧ (s.guard p).culprit = unit ∧ (s.guard p).firstStage = first
    ∧ (s.guard p).dump.any (fun d => decide (d.trigger = code ∧ d.unit = unit ∧ d.bad = [] ∧ d.done = false)) = true ∧ (s.seq p).stopIssue = true

end Sys2Proof.Machine
end

