-- ==== Sys2Proof/Certificates/Slice0/Obligations.lean ====
section
/-! DEFINITION. The statements for the provers, from the numbered rules of spec/. -/

open Sys2Proof Sys2Proof.Machine

/-! ### The block as a whole -/

/-- A step takes the command at the front of the queue and runs it with the rest of the queue. -/
def Obligations.StepTakesFront : Prop :=
  ∀ (c : Instr) (cs : List Instr) (s : State), step { s with pending := c :: cs } = exec c { s with pending := cs }

/-- On an empty queue an ACLK tick passes (R42; the model's choice, log 53): both free-running counters count 65,536 units of 6.4 ns / 65,536, the enabled watchdogs of a RUNNING part count it (R424), the LAUNCH ports fall (R509), what has come due is queued, and nothing else changes. -/
def Obligations.EmptyQueueTicks : Prop :=
  ∀ s : State, s.pending = [] → ∃ t, step s = .next t ∧ (∀ p, (t.base p).frc = (s.base p).frc + 65536) ∧ t.el.ports.launch = 0
    ∧ (∀ p, t.base p = { s.base p with frc := (t.base p).frc, wdCount := (t.base p).wdCount })
    ∧ (∀ p i, i < 7 → tget 0 (t.base p).wdCount i = if bitOf (s.get p Reg.GUARD_WD_EN) i then tget 0 (s.base p).wdCount i + (if s.seqState p = 3 ∧ bitOf (s.windowMask p) i = false then 1 else 0) else 0)
    ∧ t.el = { s.el with base := t.el.base, ports := { s.el.ports with launch := 0 } } ∧ t.ux = { s.ux with base := t.ux.base }
    ∧ t.draws = s.draws ∧ t.pending = State.due { t with pending := [] }

/-- After reset the registers read the reset words of R490 and R491, the free-running counters are 0 (R43), every SC and TC counter, general register and flag is 0, no event is logged, both sequencers are EMPTY with nothing queued, no command waits, and every memory is in its canonical form. Where no rule speaks it follows the readings of the model in logs 3, 4 and 54. -/
def Obligations.ResetState : Prop :=
  (∀ p off, State.reset.reg p off = resetWord p off) ∧ (∀ p, State.reset.frcNow p = 0) ∧ (∀ p core k, State.reset.cntRead p core k = 0)
    ∧ (∀ p a, State.reset.greg p a = 0) ∧ (∀ p c, State.reset.flag p c = false) ∧ (∀ p, (State.reset.base p).events = [])
    ∧ (∀ p, State.reset.seqState p = 0 ∧ (State.reset.base p).qops = []) ∧ State.reset.pending = [] ∧ State.reset.memOk

/-- No command but POWER_ON touches what R43 and the log keep: from every state it answers a next state, or refuses a reserved encoding; the FRC of both parts counts on, events only append, memories keep their form, the licence and the queue stay. -/
def Obligations.EffectsKeep : Prop :=
  ∀ (c : Instr) (s : State), (∀ p f w, c ≠ .powerOn p f w) → Tame s (exec c s)

/-- Every step keeps the canonical form of every memory, POWER_ON and the idle tick included. -/
def Obligations.StepKeepsForm : Prop :=
  ∀ s t : State, s.memOk → step s = .next t → t.memOk

/-- A slot operation is refused exactly where one of its encodings is reserved (R135, R169); no other command ever is. Every command COMPLETES wherever that is not so: on each state, whatever it holds, the command answers a next state. This names every form at once. Where no rule speaks it follows the readings of the model in log 90. -/
def Obligations.RefusedIffReserved : Prop :=
  ∀ (c : Instr) (s : State), (exec c s = .refused .reservedEncoding ↔ ∃ e, c.env = some e ∧ c.wf s.el.lic (s.bundlesOf c) = false)
    ∧ ((∀ e, c.env = some e → c.wf s.el.lic (s.bundlesOf c) = true) → ∃ t, exec c s = .next t)

/-- A field of a register reads what was written to it, within its width; every other field of both parts reads as before (R5). -/
def Obligations.FieldWrites : Prop :=
  ∀ (s : State) (p q : Part) (f g : Fld) (v : Nat), f.lo ≤ f.hi → f.hi < 64 → g.hi < 64 →
    (s.put p f v).get p f = v % 2 ^ (f.hi + 1 - f.lo)
    ∧ (q ≠ p ∨ g.off ≠ f.off ∨ g.hi < f.lo ∨ f.hi < g.lo → (s.put p f v).get q g = s.get q g)

/-- POWER_ON of an Elesh (R43, R496): the FRC starts at 0, the straps are sampled, every counter, memory word of SPM, queue and event is gone, and of all registers only those of SEC provisioning (R452), the PUF result (R453), the state of a domain without its supply (R496) and the core PLL's factor may differ from their reset words; the licence, the memory of the die and the Uhloux chip are left alone. POWER_ON of a Uhloux chip (R43, R71): its FRC starts at 0 and everything it held is gone but its provisioning; a firmware image staged for it becomes the one it runs (R455); the DPLL is in FREE_RUN; the Elesh block is left alone. Where no rule speaks it follows the readings of the model in logs 77 and 78. -/
def Obligations.PowerOn : Prop :=
  (∀ (s : State) (filt slew : Fin 4), Ends (.powerOn .el filt slew) s (fun t =>
    t.frcNow .el = 0 ∧ t.el.base.cfgFilt = filt.val ∧ t.el.base.cfgSlew = slew.val ∧ t.el.counters = [] ∧ t.el.spm = [] ∧ t.el.base.qops = []
    ∧ t.el.base.events = [] ∧ t.el.base.seq = Seq.zero ∧ t.el.lic = s.el.lic ∧ t.el.base.mem = s.el.base.mem ∧ t.ux = s.ux ∧ t.pending = s.pending
    ∧ (∀ off, off ∉ [Reg.SEC_CTRL_PROV_LOCK.off, Reg.SEC_STAT_PUF_OK.off, Reg.SEC_KUSE_USE.off, Reg.PWR_STAT_DSTATE.off, Reg.CLK_STAT_THROTTLE.off] →
        (∀ k < 8, off ≠ (Reg.SEC_KSLOT_ID_KEY_ID k).off) → t.reg .el off = resetWord .el off)
    ∧ (∀ k < 8, t.reg .el (Reg.SEC_KSLOT_ID_KEY_ID k).off = s.reg .el (Reg.SEC_KSLOT_ID_KEY_ID k).off)))
  ∧ (∀ (s : State) (filt slew : Fin 4), Ends (.powerOn .ux filt slew) s (fun t =>
    t.frcNow .ux = 0 ∧ t.ux.base.cfgFilt = filt.val ∧ t.ux.base.cfgSlew = slew.val ∧ t.ux.tc = [] ∧ t.ux.base.mem = [] ∧ t.ux.base.qops = []
    ∧ t.ux.base.seq = Seq.zero ∧ t.ux.members = [] ∧ t.ux.base.fwHash = (s.ux.fwNext.getD s.ux.base.fwHash) ∧ t.el = s.el ∧ t.pending = s.pending
    ∧ (∀ k < 8, t.reg .ux (Reg.SEC_KSLOT_ID_KEY_ID k).off = s.reg .ux (Reg.SEC_KSLOT_ID_KEY_ID k).off)))

/-! ### Time (chapter 2) -/

/-- TB3's step (R49, R51): while TB3 is UNSET and has not been locked, TB3_STEP sets it to STEP_SEC and STEP_NSF, enters ACQUIRE and logs 0x1001 with the signed change; captures of the same tick on TB3 are compared with the new value (R54). Otherwise the request is refused, STEP_REFUSED is set and 0x1002 is logged. Without a TB3 nothing happens. The states of R53: LOCK_DECL locks an acquiring TB3 and sets FIRST_LOCK; a servoed time base with its phase error within 500 ps for the dwell becomes LOCKED, with 0x1003, and a lane that waits for it may become ACTIVE (R125); neither happens in the tick of the step (R54). The root's TB0 is judged by what its slew has left, and settles at RATE 0 (R79, R80). 100 µs without a time message put a servoed time base in HOLDOVER, with 0x1004 and RATE as DETAIL, but never the root's TB0 (R79). In any other state the three change nothing. -/
def Obligations.TimeBaseStates : Prop :=
  (∀ (p : Part) (s : State),
    let v := hxtOf (s.reg p (Reg.TB_STEP_SEC_SEC 3).off) (s.reg p (Reg.TB_STEP_NSF_NS 3).off)
    (s.tbHas p 3 = true → s.tbState p 3 = 0 → s.bit p (Reg.TB_STAT_FIRST_LOCK 3) = false →
      Ends (.tb3Step p) s (fun u => u.tbNow p 3 = v ∧ u.tbState p 3 = 1 ∧ u.steppedNow p 3 = true)
      ∧ Goes (.tb3Step p) s ((((s.tbAnchorAt p 3 v).put p (Reg.TB_STAT_STATE 3) 1).mod p (fun b => { b with stepTick := tput 0 b.stepTick 3 (s.tick p + 1) })).restamp p 3) p
          [(unitTime p, 0x1001, 3, v % 2 ^ 64)])
    ∧ (s.tbHas p 3 = true → (s.tbState p 3 ≠ 0 ∨ s.bit p (Reg.TB_STAT_FIRST_LOCK 3) = true) →
      Goes (.tb3Step p) s (s.put p (Reg.TB_STAT_STEP_REFUSED 3) 1) p [(unitTime p, 0x1002, 3, 0)])
    ∧ (s.tbHas p 3 = false → exec (.tb3Step p) s = .next s))
  ∧ (∀ (p : Part) (n : Fin 4) (s : State),
    (s.tbHas p 3 = true → s.tbState p 3 = 1 → s.steppedNow p 3 = false →
      Goes (.tb3LockDecl p) s ((s.put p (Reg.TB_STAT_STATE 3) 2).put p (Reg.TB_STAT_FIRST_LOCK 3) 1) p
        [(unitTime p, 0x1003, 3, unsigned 64 (s.getI p (Reg.TB_STAT_PHASE_ERR 3)))])
    ∧ (s.tbHas p 3 = false ∨ s.tbState p 3 ≠ 1 ∨ s.steppedNow p 3 = true → exec (.tb3LockDecl p) s = .next s)
    ∧ (s.tbHas p n = true → n.val < 2 → s.tbState p n = 1 ∨ s.tbState p n = 3 → s.steppedNow p n = false → ¬(p = .ux ∧ s.tier = 2) →
      (s.phaseAbs p n ≤ 500 → exec (.tbLockDwell p n) s = .next ((s.tbLock p n).lanesWait p n)
        ∧ (s.tbLock p n).core = ((s.put p (Reg.TB_STAT_STATE n) 2).put p (Reg.TB_STAT_FIRST_LOCK n) 1).core
        ∧ Logged p s (s.tbLock p n) [(unitTime p, 0x1003, n, unsigned 64 (s.getI p (Reg.TB_STAT_PHASE_ERR n)))])
      ∧ (500 < s.phaseAbs p n → exec (.tbLockDwell p n) s = .next s))
    ∧ (s.tier = 2 → s.tbState .ux 0 = 1 ∨ s.tbState .ux 0 = 3 → s.steppedNow .ux 0 = false →
      (s.rootLeft.natAbs ≤ 500 → Ends (.tbLockDwell .ux 0) s (fun u => u.tbState .ux 0 = 2 ∧ u.getI .ux (Reg.TB_STAT_PHASE_ERR 0) = s.rootLeft ∧ u.tbRate .ux 0 = 0
          ∧ u.tbNow .ux 0 = s.tbNow .ux 0 ∧ Logged .ux s u [(0x45, 0x1003, 0, unsigned 64 s.rootLeft)] ∧ u.el = s.el))
      ∧ (500 < s.rootLeft.natAbs → exec (.tbLockDwell .ux 0) s = .next s))
    ∧ (s.tbHas p n = false ∨ 2 ≤ n.val ∨ (s.tbState p n ≠ 1 ∧ s.tbState p n ≠ 3) ∨ s.steppedNow p n = true → exec (.tbLockDwell p n) s = .next s)
    ∧ (s.tbHas p n = true → n.val < 2 → s.tbState p n = 1 ∨ s.tbState p n = 2 ∨ s.tbState p n = 3 → ¬(p = .ux ∧ s.tier = 2) →
      Goes (.tbSourceTimeout p n) s (s.put p (Reg.TB_STAT_STATE n) 4) p [(unitTime p, 0x1004, n, unsigned 64 (s.tbRate p n))])
    ∧ (s.tbHas p n = false ∨ 2 ≤ n.val ∨ (s.tbState p n ≠ 1 ∧ s.tbState p n ≠ 2 ∧ s.tbState p n ≠ 3) ∨ (p = .ux ∧ s.tier = 2) →
      exec (.tbSourceTimeout p n) s = .next s))

/-- TB3's rate (R45, R46, R52): an out-of-range rate is refused with 0x1007 and changes nothing; one further than SLEW_LIMIT is clamped with SLEW_CLAMP and 0x1006; the time base is re-anchored before the new rate and reads the same at that instant. Where no rule speaks it follows the readings of the model in log 6. -/
def Obligations.TimeBaseRate : Prop :=
  ∀ (p : Part) (v : Word) (s : State), s.tbHas p 3 = true →
    let want := signed 40 v.toNat
    let near := max (s.tbRate p 3 - s.slewLimit p) (min (s.tbRate p 3 + s.slewLimit p) want)
    let t := (s.tbAnchorAt p 3 (s.tbNow p 3)).setReg p (Reg.TB_RATE_RATE 3).off (BitVec.ofInt 64 near)
    ((rateMax < want ∨ want < -rateMax) → Goes (.tb3RateWrite p v) s s p [(unitTime p, 0x1007, 3, unsigned 64 want)])
    ∧ (-rateMax ≤ want ∧ want ≤ rateMax → near = want → Goes (.tb3RateWrite p v) s t p [])
    ∧ (-rateMax ≤ want ∧ want ≤ rateMax → near ≠ want →
        Goes (.tb3RateWrite p v) s (t.put p (Reg.TB_STAT_SLEW_CLAMP 3) 1) p [(unitTime p, 0x1006, 3, unsigned 64 want)])
    ∧ Ends (.tb3RateWrite p v) s (fun u => u.tbNow p 3 = s.tbNow p 3)

/-- The loss of REFCLK (R402): AON runs on the ring oscillator, every lane that was up is FAILED, every set time base is in HOLDOVER, 0x8004 is the last event, and the Uhloux chip is left alone. -/
def Obligations.ReferenceClockLoss : Prop :=
  ∀ s : State, Ends .refclkLoss s (fun u => u.el.refclkLost = true ∧ u.get .el Reg.CLK_STAT_RO = 1
    ∧ (∀ x < 2, s.laneUp .el x = true → u.laneState .el x = 6) ∧ (∀ n, n = 0 ∨ n = 1 ∨ n = 3 → s.tbHas .el n = true → s.tbState .el n ≠ 0 → u.tbState .el n = 4)
    ∧ (∃ es, Logged .el s u (es ++ [(0x0E, 0x8004, 0, 0)])) ∧ u.ux = s.ux)

/-- Pulse outputs (R56 to R59, R63): arming is refused with 0x1011 for what R57 names and turned away with LATE and 0x1010 when START lies before the time base plus 64 ns; else the output is ARMED with its first edge at START and, when it counts, COUNT edges left. DISARM clears ARMED. An edge is due when the time base reaches it: the output is asserted for WIDTH from the edge, the next edge is PERIOD later, and a single or counted output disarms after its last. -/
def Obligations.PulseOutputs : Prop :=
  ∀ (p : Part) (i : Fin 8) (s : State), pulseHas p i = true →
    let old := s.pulse p i
    let keep := fun (t : State) (v : Pulse) => t.mod p (fun b => { b with pulses := tput Pulse.zero b.pulses i v })
    let now := s.tbNow p (s.get p (Reg.PULSE_CTRL_TB i))
    let n := if s.get p (Reg.PULSE_CTRL_MODE i) = 2 then s.get p (Reg.PULSE_COUNT_COUNT i) else 0
    let period := s.get p (Reg.PULSE_PER_SEC_SEC i) * hxtSec + s.get p (Reg.PULSE_PER_NSF_NS i) * 2 ^ 32 + s.get p (Reg.PULSE_PER_NSF_FRAC i)
    let width := (s.get p (Reg.PULSE_WIDTH_NS i) * 2 ^ 16 + s.get p (Reg.PULSE_WIDTH_FRAC16 i)) * 2 ^ 16
    let mode := s.get p (Reg.PULSE_CTRL_MODE i)
    let left := s.get p (Reg.PULSE_STAT_EDGES_LEFT i)
    (s.pulseRefused p i = true → Goes (.pulseArm p i) s s p [(unitTime p, 0x1011, 0x100 + i.val, (Reg.PULSE_CTRL_ARM i).off)])
    ∧ (s.pulseRefused p i = false → s.pulseStart p i < (now + 64 * 2 ^ 32) % hxtMod →
        Goes (.pulseArm p i) s (s.put p (Reg.PULSE_STAT_LATE i) 1) p [(unitTime p, 0x1010, 0x100 + i.val, s.get p (Reg.PULSE_START_NSF_NS i))])
    ∧ (s.pulseRefused p i = false → (now + 64 * 2 ^ 32) % hxtMod ≤ s.pulseStart p i →
        exec (.pulseArm p i) s = .next (keep ((s.put p (Reg.PULSE_STAT_ARMED i) 1).put p (Reg.PULSE_STAT_EDGES_LEFT i) n) { old with nextEdge := s.pulseStart p i, from' := now, fired := 0 }))
    ∧ exec (.pulseDisarm p i) s = .next (s.put p (Reg.PULSE_STAT_ARMED i) 0)
    ∧ (s.bit p (Reg.PULSE_STAT_ARMED i) = true → s.pulseDue p i = true →
        let t := keep s { nextEdge := hxtAdd old.nextEdge period, from' := old.nextEdge, fired := old.fired + 1, on := some (old.nextEdge, hxtAdd old.nextEdge width) }
        exec (.pulseEdge p i) s = .next (
          if mode = 0 then t.put p (Reg.PULSE_STAT_ARMED i) 0
          else if mode = 2 then
            if left ≤ 1 then (t.put p (Reg.PULSE_STAT_EDGES_LEFT i) (left - 1)).put p (Reg.PULSE_STAT_ARMED i) 0 else t.put p (Reg.PULSE_STAT_EDGES_LEFT i) (left - 1)
          else t))
    ∧ (s.bit p (Reg.PULSE_STAT_ARMED i) = false ∨ s.pulseDue p i = false → exec (.pulseEdge p i) s = .next s)

/-- Capture inputs (R60, R61): on an enabled input a selected edge that is the first of its tick and finds room is stamped with the input's time base, less DLY modulo 2^64 s, behind the stamps held; an UNSET time base reads 0 (R47); a second edge in one tick sets MISS with 0x1021, one on a full FIFO of 16 sets OVF with 0x1020; an edge not selected does nothing. Where no rule speaks it follows the readings of the model in logs 7 and 58. -/
def Obligations.CaptureInputs : Prop :=
  ∀ (p : Part) (c : Fin 4) (rising : Bool) (sub : BitVec 16) (s : State),
    let k := tget Cap.zero (s.base p).caps c
    let tb := s.get p (Reg.CAP_CTRL_TB c)
    let on := s.bit p (Reg.CAP_CTRL_EN c) = true ∧ capSelects (s.get p (Reg.CAP_CTRL_EDGE c)) rising = true
    let seen := fun (l : List (Nat × Bool)) (f : Option Nat) => s.mod p (fun b => { b with caps := tput Cap.zero b.caps c { fifo := l, lastTick := some (s.tick p), lastFrc := f } })
    let frc := s.tick p * 2 ^ 16 + sub.toNat
    let dly := s.getI p (Reg.CAP_CTRL_DLY c) * 2 ^ 77
    let stamp := if s.tbHas p tb = false ∨ s.tbState p tb = 0 then (roundEven (-dly) (125 * 2 ^ 48) % (hxtMod : Int)).toNat
      else if tb = 2 then hxtSub (s.tbRaw p 0 frc dly) (hxtOf (s.reg p Reg.TB2_EPOCH_SEC_SEC.off) (s.reg p Reg.TB2_EPOCH_NSF_NS.off))
      else s.tbRaw p tb frc dly
    (on → k.lastTick ≠ some (s.tick p) → k.fifo.length < 16 →
        Ends (.capEdge p c rising sub) s (fun u => u = seen (k.fifo ++ [(stamp, rising)]) (some frc)))
    ∧ (on → k.lastTick = some (s.tick p) →
        Goes (.capEdge p c rising sub) s ((seen k.fifo k.lastFrc).put p (Reg.CAP_STAT_MISS c) 1) p [(unitTime p, 0x1021, 0x200 + c.val, 0)])
    ∧ (on → k.lastTick ≠ some (s.tick p) → 16 ≤ k.fifo.length →
        Goes (.capEdge p c rising sub) s ((seen k.fifo none).put p (Reg.CAP_STAT_OVF c) 1) p [(unitTime p, 0x1020, 0x200 + c.val, 0)])
    ∧ (¬on → exec (.capEdge p c rising sub) s = .next s)

/-- Reads with a side effect (R63, R435): a capture read answers the oldest stamp's NS and FRAC and pops it, 0 on an empty FIFO; a read of FRC_LO answers FRC[63:0] and latches FRC[79:64], the tick count with a free fraction of the tick (R42, log 91); a read of a time base's seconds latches its NS and FRAC of the same instant; a read of the dump answers the word at IDX and advances IDX. Nothing else changes. -/
def Obligations.SideEffectReads : Prop :=
  ∀ (p : Part) (n : Fin 4) (s : State),
    let k := tget Cap.zero (s.base p).caps n
    (k.fifo = [] → exec (.capPop p n) s = .next (s.answer p 0 false))
    ∧ (∀ t r rest, k.fifo = (t, r) :: rest → exec (.capPop p n) s =
        .next ((s.mod p (fun b => { b with caps := tput Cap.zero b.caps n { k with fifo := rest, lastFrc := if rest.isEmpty then none else k.lastFrc } })).answer p (hxtNsfW t) false))
    ∧ s.frcSample p / 2 ^ 16 = s.tick p
    ∧ exec (.frcRead p) s = .next ((s.put p Reg.FRC_HI_FRC_HI (s.frcSample p / 2 ^ 64)).answer p (BitVec.ofNat 64 (s.frcSample p)) false)
    ∧ (s.tbHas p n = true → exec (.tbRead p n) s = .next ((s.setReg p (Reg.TB_READ_NSF_NS n).off (hxtNsfW (s.tbAt p n (s.frcSample p)))).answer p (hxtSecW (s.tbAt p n (s.frcSample p))) false))
    ∧ (s.tbHas p n = false → exec (.tbRead p n) s = .next (s.answer p 0 false))
    ∧ exec (.dumpDataRead p) s = .next ((s.put p (dumpIdx p) (s.get p (dumpIdx p) + 1)).answer p (s.dumpAt p (s.get p (dumpIdx p))) false)

/-! ### References and distribution (chapter 3) -/

/-- Candidates (R64, R65, R66, R73): a candidate of the chip's tier that is enabled and whose monitors report no fault (a quality level worse than QL_MIN, an uplink that is not up, a twin that selects UPB) becomes VALID with 0x1030, one valid for QUAL_TIME becomes QUAL with 0x1031, and a lost one loses both bits with 0x1032 and the monitor as DETAIL; an input's TOD_VALID falls with it. What is neither valid nor here is left alone. Where no rule speaks it follows the readings of the model in log 57. -/
def Obligations.ReferenceCandidates : Prop :=
  ∀ (k : Fin 8) (monitor : BitVec 8) (s : State),
    let enabled := if k.val < 4 then s.bit .ux (Reg.UX_REF_IN_CFG_EN k)
      else if k.val < 6 then s.bit .ux (Reg.UX_TP_CFG_PORT_EN (k - 4)) && s.bit .ux (Reg.UX_TP_CFG_PTP_EN (k - 4)) && !s.qlBad (k - 4)
      else s.laneTimes .ux (s.candLane k) && !(k.val == 7 && s.tier == 2 && s.ux.rootUpbSel)
    (s.candHere k = true → enabled = true → s.candValid k = false →
      Ends (.refValid k) s (fun u => u.candValid k = true ∧ u.candQual k = false ∧ u.el = s.el ∧ Logged .ux s u [(0x45, 0x1030, k, 0)]))
    ∧ (s.candHere k = false ∨ enabled = false ∨ s.candValid k = true → exec (.refValid k) s = .next s)
    ∧ (s.candValid k = true → s.candQual k = false →
      Ends (.refQualified k) s (fun u => u.candQual k = true ∧ u.el = s.el ∧ ∃ es, Logged .ux s u ((0x45, 0x1031, k.val, 0) :: es)))
    ∧ (s.candValid k = false ∨ s.candQual k = true → exec (.refQualified k) s = .next s)
    ∧ (s.candValid k = true → Ends (.refLost k monitor) s (fun u => u.candValid k = false ∧ u.candQual k = false ∧ u.el = s.el
        ∧ (k.val < 4 → u.bit .ux (Reg.UX_REF_IN_STAT_TOD_VALID k) = false) ∧ ∃ es, Logged .ux s u ((0x45, 0x1032, k.val, monitor.toNat) :: es)))
    ∧ (s.candValid k = false → exec (.refLost k monitor) s = .next s)

/-- Which candidate the DPLL follows (R71 to R73): in AUTO it leaves FREE_RUN for the highest-priority qualified candidate, stays with a selected candidate that is qualified, and falls to FREE_RUN when none is; in FREE it stands in FREE_RUN. Outside AUTO no wait-to-restore runs (R76). MODE 3 is reserved: the write is refused with an event of area 1 whose code no rule gives (R8, log 5). Where no rule speaks it follows the readings of the model in log 59. -/
def Obligations.ReferenceSelection : Prop :=
  ∀ (mode : Fin 4) (s : State),
    (mode.val = 3 → Ends (.refModeWrite mode) s (fun u => u.core = s.core ∧ ∃ d, Logged .ux s u [(0x45, 0x1000 + d, 0, 0)] ∧ d < 0x1000))
    ∧ (mode.val = 2 → Ends (.refModeWrite mode) s (fun u => u.get .ux Reg.UX_REF_CTRL_MODE = 2 ∧ u.dpllState = 0 ∧ u.el = s.el))
    ∧ (mode.val = 1 ∨ mode.val = 2 → Ends (.refModeWrite mode) s (fun u => u.ux.dpll.wtr = [] ∧ u.ux.dpll.wtrDone = []))
    ∧ (mode.val = 0 → Ends (.refModeWrite mode) s (fun u => u.get .ux Reg.UX_REF_CTRL_MODE = 0 ∧ u.el = s.el
        ∧ (∀ k < 8, s.dpllState = 0 → s.bestCand = some k → u.dpllState = 1 ∧ u.get .ux Reg.UX_REF_STAT_SEL = k)
        ∧ (s.dpllState ≠ 0 → s.candQual (s.get .ux Reg.UX_REF_STAT_SEL) = true → u.dpllState = s.dpllState ∧ u.get .ux Reg.UX_REF_STAT_SEL = s.get .ux Reg.UX_REF_STAT_SEL)
        ∧ (s.bestCand = none → s.candQual (s.get .ux Reg.UX_REF_STAT_SEL) = false → u.dpllState = 0)))
    ∧ (mode.val = 1 → Ends (.refModeWrite mode) s (fun u => u.get .ux Reg.UX_REF_CTRL_MODE = 1 ∧ u.el = s.el
        ∧ (s.candQual (s.get .ux Reg.UX_REF_FORCE_CAND) = false → u.dpllState = 0)))

/-- The DPLL (R71, R72, R76, R78): lock in ACQUIRE or SWITCHING enters LOCKED with 0x1034, and a root's first lock on a traceable candidate steps TB0 to its time and locks it; an acquisition that takes too long raises ACQ_TIMEOUT with 0x1036 once; the wait to restore that expires first is done with, and a LOCKED DPLL switches at once to the highest-priority candidate that has waited, is still qualified and ranks above the selected one, while REVERTIVE and AUTO hold; in any other state it waits for LOCKED. -/
def Obligations.ReferenceLock : Prop :=
  ∀ (freqOfs : BitVec 40) (candTime : Nat) (s : State),
    let sel := s.get .ux Reg.UX_REF_STAT_SEL
    (s.dpllState = 1 ∨ s.dpllState = 3 → Ends (.dpllLocked freqOfs candTime) s (fun u => u.el = s.el
        ∧ (∃ es, Logged .ux s u ((0x45, 0x1034, sel, unsigned 64 freqOfs.toInt) :: es))
        ∧ (s.get .ux Reg.UX_REF_CTRL_MODE = 0 → s.candQual sel = true → s.wtrDue = none → u.dpllState = 2
          ∧ (s.tier = 2 → s.tbState .ux 0 = 0 → s.candTraceable sel = true → u.tbState .ux 0 = 2 ∧ u.tbNow .ux 0 = candTime % hxtMod))))
    ∧ (s.dpllState ≠ 1 → s.dpllState ≠ 3 → exec (.dpllLocked freqOfs candTime) s = .next s ∧ exec .acqTimeout s = .next s)
    ∧ (s.dpllState = 1 ∨ s.dpllState = 3 → s.ux.dpll.alarmAcq = false → Ends .acqTimeout s (fun u => u.bit .ux Reg.UX_REF_STAT_ACQ_TIMEOUT = true
        ∧ u.ux.dpll.alarmAcq = true ∧ u.dpllState = s.dpllState ∧ u.el = s.el ∧ ∃ d es, Logged .ux s u ((0x45, 0x1036, 0, d) :: es)))
    ∧ (s.ux.dpll.alarmAcq = true → exec .acqTimeout s = .next s)
    ∧ (s.ux.dpll.wtr = [] → exec .wtrExpiry s = .next s)
    ∧ (∀ k since rest, s.ux.dpll.wtr = (k, since) :: rest →
        let t := s.modUx (fun u => { u with dpll := { u.dpll with wtr := rest, wtrDone := u.dpll.wtrDone ++ [k] } })
        (∀ j, s.dpllState = 2 → t.wtrDue = some j → Ends .wtrExpiry s (fun u => u.dpllState = 3 ∧ u.get .ux Reg.UX_REF_STAT_SEL = j ∧ j ∉ u.ux.dpll.wtrDone ∧ u.el = s.el))
        ∧ (s.dpllState ≠ 2 ∨ t.wtrDue = none → exec .wtrExpiry s = .next t)
        ∧ (s.bit .ux Reg.UX_REF_CTRL_REVERTIVE = false ∨ s.get .ux Reg.UX_REF_CTRL_MODE ≠ 0 → t.wtrDue = none))

/-- The root's start and the time of day (R49, R66, R78, R79): a root with TB0 UNSET steps it to 0, LOCKED and not traceable; a later start is refused with 0x1002; a chip of another tier ignores both. A written second of a 1PPS input of the root names the next edge of an input that carries time of day, or, written too late, the edge after it one higher; that edge takes it and sets TOD_VALID, and every later one counts on; besides it, only what the comparison of the edge with TB0 writes may change (R79, R81). Below the root, and on an input that is off or carries no 1PPS, an edge does nothing. -/
def Obligations.RootTime : Prop :=
  ∀ (n : Fin 4) (sec : Word) (late : Bool) (s : State),
    (∀ c, c = .rootStart ∨ c = .startWaitExpiry →
      (s.tier = 2 → s.tbState .ux 0 = 0 → Ends c s (fun u => u.tbNow .ux 0 = 0 ∧ u.tbState .ux 0 = 2 ∧ u.bit .ux Reg.TIME_STAT_EPOCH_TAI = false ∧ u.el = s.el))
      ∧ (s.tier ≠ 2 → exec c s = .next s))
    ∧ (s.tier = 2 → s.tbState .ux 0 ≠ 0 → Goes .rootStart s (s.put .ux (Reg.TB_STAT_STEP_REFUSED 0) 1) .ux [(0x45, 0x1002, 0, 0)] ∧ exec .startWaitExpiry s = .next s)
    ∧ exec (.todWrite n sec late) s = .next ((s.setReg .ux (Reg.UX_REF_IN_TOD_SEC n).off sec).modUx (fun u => { u with
        todNext := tput 0 u.todNext n ((if late then (sec.toNat + 1) % 2 ^ 64 else sec.toNat) + 1), todSkip := tput 0 u.todSkip n (if late then 1 else 0) }))
    ∧ (s.tier ≠ 2 ∨ s.get .ux (Reg.UX_REF_IN_CFG_TYPE n) ≠ 0 ∨ s.bit .ux (Reg.UX_REF_IN_CFG_EN n) = false → exec (.ppsEdge n) s = .next s)
    ∧ (s.tier = 2 → s.get .ux (Reg.UX_REF_IN_CFG_TYPE n) = 0 → s.bit .ux (Reg.UX_REF_IN_CFG_EN n) = true →
        (∀ v, tget 0 s.ux.todNext n = v + 1 → tget 0 s.ux.todSkip n = 0 → Ends (.ppsEdge n) s (fun u =>
          u.reg .ux (Reg.UX_REF_IN_TOD_SEC n).off = BitVec.ofNat 64 v ∧ u.bit .ux (Reg.UX_REF_IN_STAT_TOD_VALID n) = true ∧ tget 0 u.ux.todNext n = 0 ∧ u.el = s.el))
        ∧ (tget 0 s.ux.todNext n ≠ 0 → tget 0 s.ux.todSkip n ≠ 0 →
          exec (.ppsEdge n) s = .next (s.modUx (fun u => { u with todSkip := tput 0 u.todSkip n 0 })))
        ∧ (tget 0 s.ux.todNext n = 0 → s.bit .ux (Reg.UX_REF_IN_STAT_TOD_VALID n) = true → Ends (.ppsEdge n) s (fun u =>
          u.reg .ux (Reg.UX_REF_IN_TOD_SEC n).off = s.reg .ux (Reg.UX_REF_IN_TOD_SEC n).off + 1 ∧ u.el = s.el
            ∧ RegsBut ((Reg.UX_REF_IN_TOD_SEC n).off :: [Reg.UX_REF_STAT_SEL, Reg.UX_REF_TAIOFS_SEC_SEC, Reg.UX_REF_TAIOFS_NSF_NS, Reg.TIME_STAT_EPOCH_TAI, Reg.TB_STAT_STATE 0,
                Reg.TB_OFS_SEC_SEC 0, Reg.TB_OFS_NSF_NS 0, Reg.TB_ANCHOR_LO_ANCHOR_LO 0, Reg.TB_ANCHOR_HI_ANCHOR_HI 0, Reg.TB_RATE_RATE 0].map (·.off) |>.map (fun o => (Part.ux, o))) s u))
        ∧ (tget 0 s.ux.todNext n = 0 → s.bit .ux (Reg.UX_REF_IN_STAT_TOD_VALID n) = false →
          exec (.ppsEdge n) s = .next (s.modUx (fun u => { u with todSkip := tput 0 u.todSkip n 0 }))))

/-- A PTP port of the root (R64, R65, R68 to R70): any message shows the link up. An Announce of the port's domain and transport that is better than the best one known, or comes from the same master, is taken with its traceability; a Sync of that master with its origin time is answered by a Delay_Req, and the Delay_Resp to it gives offset and mean path by the end-to-end exchange. ESMC gives the received quality level, is answered with QL-DNU, and loses a candidate below QL_MIN when QL is used; a message of an unsupported function is only counted. A chip that is no root, or a port that is off, discards all. Where no rule speaks it follows the readings of the model in logs 13 and 98. -/
def Obligations.PtpPort : Prop :=
  ∀ (port : Fin 2) (m : PtpMsg) (s : State),
    let up := s.put .ux (Reg.UX_TP_STAT_LINK_UP port) 1
    let c := s.ptpClock port
    let mine := ∃ d, c.master = some d ∧ d.identity = m.sender
    let heard := s.bit .ux (Reg.UX_TP_CFG_PTP_EN port) = true ∧ m.domain.toNat = s.get .ux (Reg.UX_TP_CFG_DOMAIN port) ∧ m.transport.toNat = s.get .ux (Reg.UX_TP_CFG_TRANSPORT port)
    (s.tier ≠ 2 ∨ s.bit .ux (Reg.UX_TP_CFG_PORT_EN port) = false → exec (.ptpMessage port m) s = .next s)
    ∧ (s.tier = 2 → s.bit .ux (Reg.UX_TP_CFG_PORT_EN port) = true →
      (m.body = .unsupported → exec (.ptpMessage port m) s = .next (up.modUx (fun u => { u with ptpDiscards := u.ptpDiscards + 1 })))
      ∧ (∀ ql, m.body = .esmc ql →
        (s.bit .ux (Reg.UX_TP_CFG_SYNCE_EN port) = true → Ends (.ptpMessage port m) s (fun u => u.get .ux (Reg.UX_TP_STAT_QL_RX port) = ql.toNat ∧ u.el = s.el
            ∧ u.ux.tpSent = s.ux.tpSent ++ [.esmc port 15]
            ∧ (s.bit .ux Reg.UX_REF_CTRL_QL_EN = true → s.get .ux (Reg.UX_TP_CFG_QL_MIN port) < ql.toNat → u.candValid (4 + port.val) = false)))
        ∧ (s.bit .ux (Reg.UX_TP_CFG_SYNCE_EN port) = false → exec (.ptpMessage port m) s = .next up))
      ∧ (m.body ≠ .unsupported → (∀ ql, m.body ≠ .esmc ql) → ¬heard → exec (.ptpMessage port m) s = .next up)
      ∧ (∀ d, m.body = .announce d → heard →
        ((∀ e, c.master = some e → e.identity = d.identity ∨ ptpBetter d e = true) → Ends (.ptpMessage port m) s (fun u =>
          u.ptpClock port = { c with master := some d } ∧ u.bit .ux (Reg.UX_TP_STAT_TRACEABLE port) = d.traceable ∧ u.el = s.el))
        ∧ (∀ e, c.master = some e → e.identity ≠ d.identity → ptpBetter d e = false → exec (.ptpMessage port m) s = .next up))
      ∧ (∀ seq origin, m.body = .sync seq origin → heard →
        (¬mine → exec (.ptpMessage port m) s = .next up)
        ∧ (mine → origin = none → Ends (.ptpMessage port m) s (fun u => u.ptpClock port = { c with sync := some (seq.toNat, s.tbRaw .ux 0 (s.frcSample .ux) 0, none) } ∧ u.ux.tpSent = s.ux.tpSent))
        ∧ (∀ t1, mine → origin = some t1 → Ends (.ptpMessage port m) s (fun u =>
            u.ptpClock port = { c with sync := some (seq.toNat, s.tbRaw .ux 0 (s.frcSample .ux) 0, some t1), req := some ((c.reqSeq + 1) % 2 ^ 16, s.tbRaw .ux 0 (s.frcSample .ux) 0), reqSeq := (c.reqSeq + 1) % 2 ^ 16 }
            ∧ u.ux.tpSent = s.ux.tpSent ++ [.delayReq port ((c.reqSeq + 1) % 2 ^ 16) (s.tbRaw .ux 0 (s.frcSample .ux) 0)])))
      ∧ (∀ seq t1 t2 t3 t4 n, m.body = .delayResp seq t4 → heard → mine → c.sync = some (n, t2, some t1) → c.req = some (seq.toNat, t3) →
        let mean := roundEven ((hxtDiff t2 t1 + hxtDiff t4 t3) * 1000) (2 * 4294967296)
        let ofs := roundEven ((hxtDiff t2 t1 - hxtDiff t4 t3) * 1000) (2 * 4294967296) - s.getI .ux (Reg.UX_TP_CFG_ASYM port)
        Ends (.ptpMessage port m) s (fun u => u.get .ux (Reg.UX_TP_STAT_OFS_MASTER port) = unsigned 32 (roundEven ofs 1000)
          ∧ u.get .ux (Reg.UX_TP_STAT_MEAN_PATH port) = unsigned 16 (roundEven mean 1000) ∧ (u.ptpClock port).req = none ∧ u.el = s.el)))

/-- The exchange of marks (R83 to R86, R118, R121): a parent stamps T4 and keeps the child's number for its echo; a delay of 0 clears its CAL_DONE, and any other sets it, with 0x1040, once a calibration the parent restarted has counted its marks; a lane that takes no part in the exchange ignores every message of it. Restarting calibration clears CAL_DONE, the delay and the count of matched exchanges. A mark is sent once at each boundary of 256 ACLK ticks (R118, R120): a parent's carries the time message of R82, a child's its number and delay; without VC0 credit it is skipped, counted and logged as 0x2009. Where no rule speaks it follows the readings of the model in logs 7, 8 and 89. -/
def Obligations.Marks : Prop :=
  (∀ (p : Part) (lane : Fin 160) (seq : BitVec 16) (dPs : BitVec 32) (m : TimeMsg) (s : State),
    let blk := laneBlk p lane
    let left := (s.lane p lane).recalLeft - 1
    let stamped := (s.modLane p lane (fun l => { l with lastUp := seq, lastT4 := s.tbSample p 0 })).modLane p lane (fun l => { l with recalLeft := l.recalLeft - 1 })
    let delayed := stamped.put p (Reg.LANE_DELAY_D_PS blk) dPs.toNat
    let parent := s.laneParent p lane = true ∧ lane.val < 128
    (s.laneTimes p lane = false → exec (.timeMessage p lane m) s = .next s ∧ exec (.upwardMark p lane seq dPs) s = .next s ∧ exec (.markSend p lane) s = .next s)
    ∧ (s.laneTimes p lane = true → parent →
      (dPs = 0 → Ends (.upwardMark p lane seq dPs) s (fun u => u.bit p (Reg.LANE_TCAL_CAL_DONE blk) = false ∧ u.get p (Reg.LANE_DELAY_D_PS blk) = 0 ∧ (u.lane p lane).lastUp = seq
          ∧ (u.lane p lane).lastT4 = s.tbSample p 0))
      ∧ (dPs ≠ 0 → left ≠ 0 → exec (.upwardMark p lane seq dPs) s = .next stamped)
      ∧ (dPs ≠ 0 → left = 0 → s.bit p (Reg.LANE_TCAL_CAL_DONE blk) = true → exec (.upwardMark p lane seq dPs) s = .next delayed)
      ∧ (dPs ≠ 0 → left = 0 → s.bit p (Reg.LANE_TCAL_CAL_DONE blk) = false → Ends (.upwardMark p lane seq dPs) s (fun u =>
          u.bit p (Reg.LANE_TCAL_CAL_DONE blk) = true ∧ ∃ es, Logged p s u ((0x45, 0x1040, lane.val, dPs.toNat) :: es)))
      ∧ exec (.timeMessage p lane m) s = .next s)
    ∧ (¬parent → exec (.upwardMark p lane seq dPs) s = .next s)
    ∧ (s.laneTimes p lane = true → tget 0 (s.lane p lane).t3 m.echoSeq.toNat = 0 → p = .el → exec (.timeMessage p lane m) s = .next s)
    ∧ (laneHere p lane = true → s.laneUsed p lane = true → Ends (.tcalRecal p lane) s (fun u => u.bit p (Reg.LANE_TCAL_CAL_DONE blk) = false ∧ u.get p (Reg.LANE_DELAY_D_PS blk) = 0
        ∧ (u.lane p lane).matched = 0 ∧ (u.lane p lane).recalLeft = 4096
        ∧ RegsBut [(p, (Reg.LANE_TCAL_CAL_DONE blk).off), (p, (Reg.LANE_DELAY_D_PS blk).off), (.el, Reg.TIME_STAT_CAL_A.off), (.ux, Reg.UX_XPLANE_DIFF_DIFF.off)] s u
        ∧ (u.base p).events = (s.base p).events))
    ∧ (laneHere p lane = false ∨ s.laneUsed p lane = false → exec (.tcalRecal p lane) s = .next s))
  ∧ (∀ (p : Part) (lane : Fin 160) (s : State), s.laneTimes p lane = true →
    let seq := (s.lane p lane).markSeq + 1
    let at' := s.modLane p lane (fun l => { l with markSlot := s.tick p / 256 + 1 })
    let next := at'.modLane p lane (fun l => { l with markSeq := seq })
    (s.tick p / 256 < (s.lane p lane).markSlot → exec (.markSend p lane) s = .next s)
    ∧ ((s.lane p lane).markSlot ≤ s.tick p / 256 →
      (s.credit p lane 0 = 0 → exec (.markSend p lane) s = .next ((at'.count p (Reg.LANE_ERR_MARK_SKIP (laneBlk p lane)) 1).log p (unitLane p lane) 0x2009 lane 0))
      ∧ (s.credit p lane 0 ≠ 0 → p = .ux → s.laneParent p lane = true ∨ 144 ≤ lane.val → exec (.markSend p lane) s = .next (next.send p lane (.timeMark (next.timeMsg lane seq))))
      ∧ (s.credit p lane 0 ≠ 0 → p = .el ∨ (s.laneParent p lane = false ∧ lane.val < 144) → exec (.markSend p lane) s = .next (next.send p lane
          (.upMark seq (BitVec.ofNat 32 (s.get p (Reg.LANE_DELAY_D_PS (laneBlk p lane)))))))))

/-- A matched exchange at a die (R51, R53, R83, R85): with the mark it echoes known, the first 4,095 exchanges of a lane only count; a time base that is set takes the offset as phase error and goes from HOLDOVER, or from LOCKED beyond 750 ps, to SLEWING; an UNSET one on a calibrated lane takes its one step and enters ACQUIRE, or SLEWING in the tick of a plane switch (R54, R55). Where no rule speaks it follows the readings of the model in logs 7 and 89. -/
def Obligations.MatchedExchange : Prop :=
  ∀ (x : Fin 160) (m : TimeMsg) (n t3 : Nat) (s : State), s.laneTimes .el x = true → s.laneTb x = some n → tget 0 (s.lane .el x).t3 m.echoSeq.toNat = t3 + 1 →
    s.el.refclkLost = false → s.el.switchOwed = false →
    let cal := s.bit .el (Reg.LANE_TCAL_CAL_DONE (laneBlk .el x))
    let pe := (exchange m.t1 (s.tbRaw .el n (s.frcSample .el) 0) t3 m.t4 m.asym.toInt).2
    (cal = false → (s.lane .el x).matched + 1 < 4096 → s.tbState .el n = 0 →
      Ends (.timeMessage .el x m) s (fun u => (u.lane .el x).matched = (s.lane .el x).matched + 1 ∧ RegsBut [] s u ∧ u.ux = s.ux))
    ∧ (cal = false → (s.lane .el x).matched + 1 < 4096 → s.tbState .el n ≠ 0 → -2 ^ 31 ≤ pe → pe < 2 ^ 31 →
      Ends (.timeMessage .el x m) s (fun u => u.getI .el (Reg.TB_STAT_PHASE_ERR n) = pe
        ∧ u.tbState .el n = (if s.tbState .el n = 4 ∨ (s.tbState .el n = 2 ∧ 750 < pe.natAbs) then 3 else s.tbState .el n)
        ∧ u.tbNow .el n = s.tbNow .el n ∧ u.ux = s.ux))
    ∧ (cal = true → s.tbState .el n = 0 → Ends (.timeMessage .el x m) s (fun u => u.tbState .el n = (if n = 0 ∧ s.el.switchTick = some (s.tick .el) then 3 else 1)
        ∧ (∃ es v, Logged .el s u (es ++ [(0x02, 0x1001, n, v)])) ∧ u.ux = s.ux))

/-! ### Ferry links (chapter 4) -/

/-- What fails a lane, and with which cause (R97, R103 to R105, R124, R125, R128): a lane that fails is FAILED with its cause in FAIL_CAUSE, has lost its calibration, and logs 0x2003 with the cause; a leave in progress ends with status RETRY_EXHAUSTED; a lane that carries nothing is left alone. -/
def Obligations.LaneFailures : Prop :=
  ∀ (p : Part) (lane : Fin 160) (s : State),
    let fails := fun (c : Instr) (cause : Nat) => Ends c s (fun u => u.laneState p lane = 6 ∧ u.get p (Reg.LANE_STAT_FAIL_CAUSE (laneBlk p lane)) = cause
      ∧ u.bit p (Reg.LANE_TCAL_CAL_DONE (laneBlk p lane)) = false ∧ (s.laneState p lane = 5 → (u.lane p lane).leaveSt = some 3)
      ∧ ∃ es, Logged p s u ((unitLane p lane, 0x2003, lane.val, cause) :: es))
    (laneHere p lane = true → s.laneLinked p lane = true →
      fails (.losPersist p lane false) 2 ∧ fails (.losPersist p lane true) 3 ∧ fails (.fecAlignLoss p lane) 4
      ∧ (∀ f fs, (s.lane p lane).replay = f :: fs → 8 ≤ f.sends → s.replayDue p lane = true → fails (.replayTimeout p lane) 1)
      ∧ (s.laneState p lane = 5 → fails (.laneDrainTimeout p lane) 9))
    ∧ (laneHere p lane = true → s.laneState p lane = 1 → fails (.trainTimeout p lane) 6)
    ∧ (laneHere p lane = false ∨ s.laneLinked p lane = false → ∀ c, c = .losPersist p lane false ∨ c = .losPersist p lane true ∨ c = .fecAlignLoss p lane
        ∨ c = .replayTimeout p lane ∨ c = .frameSlot p lane ∨ (∃ f, c = .frameReceive p lane f) → exec c s = .next s)
    ∧ (laneHere p lane = false ∨ s.laneState p lane ≠ 5 → exec (.laneDrainTimeout p lane) s = .next s)
    ∧ (laneHere p lane = false ∨ s.laneState p lane ≠ 1 → exec (.trainTimeout p lane) s = .next s)

/-- Failover (R55, R107, R108): when the selected lane of a two-plane die fails and the other lane is ACTIVE and not AWAY, the other lane is selected, TB0 takes its plane as source and is SLEWING, and its value does not change. -/
def Obligations.Failover : Prop :=
  ∀ (x : Fin 2) (cdr : Bool) (s : State), s.laneLinked .el x = true → s.el.lic.planes = 2 → s.bit .el (Reg.LANE_STAT_SELECTED (laneBlk .el x)) = true →
    s.laneState .el (1 - x.val) = 4 → s.bit .el (Reg.LANE_STAT_AWAY (laneBlk .el (1 - x.val))) = false → s.tbState .el 0 ≠ 0 → s.el.refclkLost = false →
    Ends (.losPersist .el ⟨x.val, by omega⟩ cdr) s (fun u => u.bit .el (Reg.LANE_STAT_SELECTED (laneBlk .el x)) = false
      ∧ u.bit .el (Reg.LANE_STAT_SELECTED (laneBlk .el (1 - x.val))) = true ∧ u.el.followLane = 1 - x.val ∧ u.get .el Reg.TIME_STAT_PLANE = 1 - x.val
      ∧ u.tbState .el 0 = 3 ∧ u.tbNow .el 0 = s.tbNow .el 0 ∧ u.ux = s.ux)

/-- Joining (R84, R113, R125 to R127): a DOWN lane with AUTO_JOIN that sees a signal, or a DOWN or FAILED one told to JOIN, trains with calibration begun afresh; an attempt on a lane unused for its tier is refused as JOIN_ROLE; a trained lane enters JOIN with its A_INT, the credits of R113, fresh numbers and its join record waiting; a partner's record that fits is kept, and the lane enters CAL with 0x2001 once its own is acknowledged too; a refused record fails the lane with its cause and 0x2005. Leaving (R125, R128, R131): LEAVE drains an ACTIVE lane, and is refused with status REFUSED while the lane carries the selected traffic of a member; a drained lane sends LEAVE; the partner's LEAVE drains this end, and the lane is DOWN with 0x2007 and status OK once both were exchanged and its own is acknowledged. CNT_CLR clears the error and FEC counts. A lane that its part has not is left alone. Where no rule speaks it follows the readings of the model in logs 16 and 18. -/
def Obligations.LaneMembership : Prop :=
  (∀ (p : Part) (lane : Fin 160) (aInt : BitVec 16) (j : JoinRec) (authOk : Bool) (s : State), laneHere p lane = true →
    let blk := laneBlk p lane
    let st := s.laneState p lane
    let train := if s.lanesHeld p then s else ((s.recal p lane).put p (Reg.LANE_STAT_STATE blk) 1).moduleUp p lane
    let refused := fun (c : Instr) => Ends c s (fun u => u.laneState p lane = 6 ∧ u.get p (Reg.LANE_STAT_FAIL_CAUSE blk) = 7
      ∧ ∃ es, Logged p s u (es ++ [(unitLane p lane, 0x2005, lane.val, 7)]))
    let kept := s.modLane p lane (fun l => { l with joinRcvd := some j, partnerKind := j.kind.toNat, partnerPort := j.port.toNat, joinPdi := BitVec.ofNat 20 j.pdi.toNat })
    let sent := !(s.lane p lane).txq.any (fun e => e.2.isJoin) && !(s.lane p lane).replay.any (fun f => f.msg.isJoin)
    (st = 0 → s.laneUsed p lane = true → s.bit p (Reg.LANE_CTRL_AUTO_JOIN blk) = true → exec (.signalDetect p lane) s = .next train)
    ∧ (st = 0 ∨ st = 6 → s.laneUsed p lane = false → refused (.signalDetect p lane) ∧ refused (.laneJoinCmd p lane))
    ∧ ((st ≠ 0 ∧ st ≠ 6) ∨ (s.laneUsed p lane = true ∧ (st = 6 ∨ s.bit p (Reg.LANE_CTRL_AUTO_JOIN blk) = false)) → exec (.signalDetect p lane) s = .next s)
    ∧ (st = 0 ∨ st = 6 → s.laneUsed p lane = true → exec (.laneJoinCmd p lane) s = .next train)
    ∧ (st ≠ 0 → st ≠ 6 → exec (.laneJoinCmd p lane) s = .next s)
    ∧ (st = 1 → Ends (.trainDone p lane aInt) s (fun u => u.laneState p lane = 2 ∧ u.get p (Reg.LANE_TCAL_A_INT blk) = aInt.toNat
        ∧ (∀ vc < 8, u.credit p lane vc = joinCredits vc) ∧ u.lane p lane = { Lane.zero with txq := [(5, .join (s.joinRec p lane))] }
        ∧ RegsBut [(p, (Reg.LANE_STAT_STATE blk).off), (p, (Reg.LANE_TCAL_A_INT blk).off), (p, (Reg.LANE_CRED_CREDITS blk).off)] s u))
    ∧ (st ≠ 1 → exec (.trainDone p lane aInt) s = .next s)
    ∧ (st = 2 → s.joinCause p lane j authOk = none →
        (sent = false → exec (.joinFrame p lane j authOk) s = .next kept)
        ∧ (sent = true → Ends (.joinFrame p lane j authOk) s (fun u => u.laneState p lane = 3 ∧ (u.lane p lane).partnerPort = j.port.toNat ∧ (u.lane p lane).joinRcvd = some j
          ∧ ∃ es, Logged p s u ((unitLane p lane, 0x2001, lane.val, j.kind.toNat * 256 + j.port.toNat) :: es))))
    ∧ (∀ c, st = 2 → s.joinCause p lane j authOk = some c → Ends (.joinFrame p lane j authOk) s (fun u => u.laneState p lane = 6
        ∧ u.get p (Reg.LANE_STAT_FAIL_CAUSE blk) = c ∧ ∃ es, Logged p s u (es ++ [(unitLane p lane, 0x2005, lane.val, c)])))
    ∧ (st ≠ 2 → exec (.joinFrame p lane j authOk) s = .next s))
  ∧ (∀ (p : Part) (lane : Fin 160) (s : State), laneHere p lane = true →
    let blk := laneBlk p lane
    let l := s.lane p lane
    let carries := s.bit p (Reg.LANE_STAT_SELECTED blk) && s.carriesMember p lane
    let ended := l.leaveSent && l.replay.isEmpty && !l.txq.any (fun e => e.2 == .leave)
    (s.laneState p lane = 4 → carries = false → exec (.laneLeaveCmd p lane) s = .next ((s.put p (Reg.LANE_STAT_STATE blk) 5).modLane p lane (fun l => { l with leaveSt := none })))
    ∧ (s.laneState p lane = 4 → carries = true → exec (.laneLeaveCmd p lane) s = .next (s.modLane p lane (fun l => { l with leaveSt := some 0xA })))
    ∧ (s.laneState p lane ≠ 4 → exec (.laneLeaveCmd p lane) s = .next s)
    ∧ (s.laneState p lane = 5 → l.replay = [] → l.leaveSent = false →
        exec (.drainEmpty p lane) s = .next (s.modLane p lane (fun l => { l with leaveSent := true, txq := [(5, .leave)] })))
    ∧ (s.laneState p lane ≠ 5 ∨ l.replay ≠ [] ∨ l.leaveSent = true → exec (.drainEmpty p lane) s = .next s)
    ∧ (s.laneState p lane = 4 ∨ s.laneState p lane = 5 →
        (ended = false → exec (.leaveFrame p lane) s = .next ((s.put p (Reg.LANE_STAT_STATE blk) 5).modLane p lane (fun l => { l with leaveRcvd := true })))
        ∧ (ended = true → Ends (.leaveFrame p lane) s (fun u => u.laneState p lane = 0 ∧ u.bit p (Reg.LANE_STAT_SELECTED blk) = false
            ∧ (u.lane p lane).leaveSent = false ∧ (u.lane p lane).leaveRcvd = false ∧ (u.lane p lane).leaveSt = some 0
            ∧ ∃ es, Logged p s u ((unitLane p lane, 0x2007, lane.val, 0) :: es))))
    ∧ (s.laneState p lane ≠ 4 → s.laneState p lane ≠ 5 → exec (.leaveFrame p lane) s = .next s)
    ∧ exec (.laneCntClr p lane) s = .next ((s.setReg p (blk + 0x20) 0).setReg p (blk + 0x28) 0))
  ∧ (∀ (p : Part) (lane : Fin 160) (aInt : BitVec 16) (j : JoinRec) (authOk : Bool) (s : State), laneHere p lane = false →
    ∀ c, c = .signalDetect p lane ∨ c = .laneJoinCmd p lane ∨ c = .trainDone p lane aInt ∨ c = .joinFrame p lane j authOk ∨ c = .laneLeaveCmd p lane ∨ c = .drainEmpty p lane
      ∨ c = .leaveFrame p lane ∨ c = .laneCntClr p lane → exec c s = .next s)

/-- A frame slot (R98, R99, R101, R103, R114, R116, R118, R234): a frame to be resent goes first, under its own number and with its own bytes; else, while fewer than 64 frames are unacknowledged, the oldest waiting message of the VC whose turn it is goes with the next number, a mark stamped as it leaves, takes a credit unless its launch has consumed one, and waits in the replay buffer; else IDLE goes. Where no rule speaks it follows the readings of the model in logs 12, 18 and 92. -/
def Obligations.FrameSlots : Prop :=
  ∀ (p : Part) (lane : Fin 160) (s : State), laneHere p lane = true → s.laneLinked p lane = true →
    let l := s.lane p lane
    let waits := l.txq.any (fun e => (e.1 == 3 || e.1 == 4 || e.1 == 7) && s.mayGo p lane e)
    (∀ f fs, l.resend = f :: fs → Ends (.frameSlot p lane) s (fun u => RegsBut [] s u ∧ (u.base p).events = (s.base p).events
        ∧ (u.lane p lane).wire = l.wire ++ [s.wireFrame p lane (some f.vc) f.seq (some f.msg) f.body] ∧ (u.lane p lane).resend = fs
        ∧ (u.lane p lane).replay = l.replay.map (fun g => if g.seq = f.seq then { g with sentAt := s.tick p } else g)
        ∧ (u.lane p lane).txq = l.txq ∧ (u.lane p lane).nextSeq = l.nextSeq ∧ (u.lane p lane).lowWait = (if waits then l.lowWait + 1 else 0)))
    ∧ (∀ vc e, l.resend = [] → l.replay.length < 64 → s.pickVc p lane = some vc → l.txq.find? (fun e => e.1 == vc && s.mayGo p lane e) = some e → vc < 8 →
        l.authCtr + 1 ≠ 2 ^ 32 →
        let low := if waits && !(vc == 3 || vc == 4 || vc == 7) then l.lowWait + 1 else 0
        let k := ((s.modLane p lane (fun l => { l with lowWait := low })).modLane p lane (fun l => { l with txq := dropFirst (fun x => x == (vc, e.2)) l.txq })).markLeaves p lane e.2
        let b := (k.2.frameBody p lane vc k.1).1
        Ends (.frameSlot p lane) s (fun u => (u.lane p lane).wire = l.wire ++ [s.wireFrame p lane (some vc) l.nextSeq (some k.1) b]
          ∧ (u.lane p lane).nextSeq = l.nextSeq + 1 ∧ (u.lane p lane).lowWait = low
          ∧ (u.lane p lane).replay = l.replay ++ [{ seq := l.nextSeq, vc := vc, msg := k.1, body := b, sends := 1, sentAt := s.tick p }]
          ∧ (e.2.isLaunch = true → 0 < l.paid → (u.lane p lane).paid = l.paid - 1 ∧ u.credit p lane vc = s.credit p lane vc)
          ∧ (e.2.isLaunch = false ∨ l.paid = 0 → u.credit p lane vc = s.credit p lane vc - 1) ∧ u.laneState p lane = s.laneState p lane))
    ∧ (l.resend = [] → 64 ≤ l.replay.length ∨ s.pickVc p lane = none → Ends (.frameSlot p lane) s (fun u => RegsBut [] s u ∧ (u.base p).events = (s.base p).events
        ∧ (u.lane p lane).wire = l.wire ++ [s.wireFrame p lane none 0 none idleBody] ∧ (u.lane p lane).replay = l.replay ∧ (u.lane p lane).txq = l.txq))

/-- A received frame (R99 to R102, R115): one whose CRC, type or length is bad is counted and, unless IDLE, answered with a NAK; a good sequenced frame of a VC that carries no tag is accepted when it is the next expected, which frees its buffer, only acknowledged when it was accepted before, and answered with one NAK after a gap; the acknowledgement it carries empties the replay buffer up to that number, and the credit it carries is added. Nothing is logged but 0x200A when the corrected symbols are many (R130). Where no rule speaks it follows the readings of the model in logs 12, 18, 101 and 102. -/
def Obligations.FrameReception : Prop :=
  ∀ (p : Part) (lane : Fin 160) (f : RxFrame) (s : State), laneHere p lane = true → s.laneLinked p lane = true →
    let l := s.lane p lane
    let vc := f.vcf.toNat % 8
    let cvc := f.credit.toNat / 2 ^ 13
    let gain := (f.credit.toNat % 256 + 256 - tget 0 l.creditSeen cvc) % 256
    let err := Reg.LANE_ERR_CRC_FAIL (laneBlk p lane)
    let quiet := fun (u : State) => ∃ es, Logged p s u es ∧ ∀ e ∈ es, e.2.1 = 0x200A
    (frameGood f = false → Ends (.frameReceive p lane f) s (fun u => u.get p err = (s.count p err 1).get p err ∧ quiet u
        ∧ RegsBut [(p, err.off), (p, (Reg.LANE_FEC_CORR_SYM (laneBlk p lane)).off)] s u
        ∧ (u.lane p lane).nakOwed = (f.type != 0 || l.nakOwed) ∧ (u.lane p lane).expSeq = l.expSeq ∧ (u.lane p lane).replay = l.replay ∧ (u.lane p lane).txq = l.txq))
    ∧ (frameGood f = true → f.type ≠ 0 → f.type = 2 ∨ (vc ≠ 5 ∧ vc ≠ 6) → s.forcedNak p lane f = false → s.laneState p lane ≠ 2 → s.laneState p lane ≠ 5 → f.ackf.toNat / 2 % 2 = 0 →
        Ends (.frameReceive p lane f) s (fun u =>
          (u.lane p lane).expSeq = (if f.seq = l.expSeq then l.expSeq + 1 else l.expSeq)
          ∧ (f.seq = l.expSeq → tget 0 (u.lane p lane).freed vc = tget 0 l.freed vc + 1 ∧ (u.lane p lane).nakSent = false)
          ∧ (f.seq ≠ l.expSeq → 64 < (l.expSeq - f.seq).toNat → l.nakSent = false → (u.lane p lane).nakOwed = true)
          ∧ (f.seq ≠ l.expSeq → (l.expSeq - f.seq).toNat ≤ 64 → (u.lane p lane).nakOwed = l.nakOwed)
          ∧ (u.lane p lane).replay = (if f.ackf.toNat % 2 = 1 then ackReplay f.ackSeq l.replay else l.replay)
          ∧ u.credit p lane cvc = (s.credit p lane cvc + gain) % 256 ∧ u.laneState p lane = s.laneState p lane ∧ quiet u))

/-- Replays, AWAY and modules (R103 to R105, R111, R112, R124): once the oldest frame has waited REPLAY_TO since its last transmission, a replay resends every unacknowledged frame, counts in REPLAYS and counts one more sending of the oldest; AWAY shows on an ACTIVE lane with 0x2008; a module's flags are kept and logged with 0x2010, and fail its lane with cause MODULE when fatal; a poll moves every module on, from powering up to READY and from powering down to low power. Where no rule speaks it follows the readings of the model in logs 57 and 100. -/
def Obligations.ReplayAwayModule : Prop :=
  ∀ (p : Part) (lane : Fin 160) (set : Bool) (m : Fin 20) (k : Fin 8) (flag : Byte) (s : State),
    let l := s.lane p lane
    let x := 8 * m.val + k.val
    let reps := Reg.LANE_ERR_REPLAYS (laneBlk p lane)
    let flagged := s.modMod x (fun m => { m with flags := tput 0 m.flags k (Nat.lor (tget 0 m.flags k) flag.toNat) })
    (∀ f fs, s.replayDue p lane = true → l.replay = f :: fs → f.sends < 8 → Ends (.replayTimeout p lane) s (fun u =>
        (u.lane p lane).replay = { f with sends := f.sends + 1, sentAt := s.tick p } :: fs ∧ (u.lane p lane).resend = { f with sends := f.sends + 1, sentAt := s.tick p } :: fs
        ∧ u.get p reps = (s.count p reps 1).get p reps ∧ u.laneState p lane = s.laneState p lane
        ∧ (p = .el ∨ 128 ≤ lane.val → (u.lane p lane).txq = l.txq ∧ (u.base p).events = (s.base p).events)))
    ∧ (s.replayDue p lane = false → exec (.replayTimeout p lane) s = .next s)
    ∧ (laneHere p lane = true → s.laneState p lane = 4 → Ends (.awayFrame p lane set) s (fun u => u.bit p (Reg.LANE_STAT_AWAY (laneBlk p lane)) = set ∧ u.laneState p lane = 4
        ∧ ∃ es, Logged p s u ((unitLane p lane, 0x2008, lane.val, if set then 1 else 0) :: es)))
    ∧ (laneHere p lane = false ∨ s.laneState p lane ≠ 4 → exec (.awayFrame p lane set) s = .next s)
    ∧ Goes (.moduleInterrupt m k flag false) s flagged .ux [(0x58 + x / 40, 0x2010, x, flag.toNat)]
    ∧ (s.laneLinked .ux x = false → Goes (.moduleInterrupt m k flag true) s flagged .ux [(0x58 + x / 40, 0x2010, x, flag.toNat)])
    ∧ (s.laneLinked .ux x = true → Ends (.moduleInterrupt m k flag true) s (fun u => u.laneState .ux x = 6 ∧ u.get .ux (Reg.LANE_STAT_FAIL_CAUSE (laneBlk .ux x)) = 5
        ∧ ∃ es, Logged .ux s u ((0x58 + x / 40, 0x2010, x, flag.toNat) :: (0x58 + x / 40, 0x2003, x, 5) :: es)))
    ∧ Ends .modulePoll s (fun u => u.el = s.el ∧ RegsBut [] s u ∧ (u.ux.base.events = s.ux.base.events)
        ∧ (tget Module.zero u.ux.modules m).flags = (tget Module.zero s.ux.modules m).flags
        ∧ (tget Module.zero u.ux.modules m).state = (match (tget Module.zero s.ux.modules m).state with | .pwrUp => .ready | .pwrDn => .lowPwr | st => st))

/-! ### Slot operations (chapters 5 and 6) -/

/-- Predication (R134): a predicated operation executes when C[PFLAG] XOR PNEG = 1; one that does not execute does what a NOP of the same envelope does, whatever it is; and a sequencer that does not issue (R138) takes none. -/
def Obligations.Predication : Prop :=
  ∀ (c : Instr) (e : Env) (s : State), c.env = some e → c.wf s.el.lic (s.bundlesOf c) = true →
    (e.pen = true → (s.runs (slotPart c) e = true ↔ (s.flag (slotPart c) e.pflag ^^ e.pneg) = true))
    ∧ (s.runs (slotPart c) e = false → exec c s = exec (.nop (slotPart c) e) s)
    ∧ (s.issuing (slotPart c) = false → exec c s = .next s)

/-- Control flow (R136, R138, R174): NOP does nothing but let PC pass on; running past the last bundle is fault 0x8086; BR and BRR redirect, BRR beyond BUNDLES is fault 0x8086 with the target; LOOP counts G[d] down and branches while it is not 0; HALT starts the drain, which ends in READY at once with nothing queued and no start held. Where no rule speaks it follows the readings of the model in log 66. -/
def Obligations.ControlFlow : Prop :=
  ∀ (p : Part) (e : Env) (d : Fin 64) (tgt : BitVec 16) (s : State),
    let n := (s.seq p).bundles
    let g := s.greg p
    let v := g d
    let faults := fun (c : Instr) (detail : Nat) => Ends c s (fun u => u.seqState p = 5 ∧ (∀ a, u.greg p a = g a)
      ∧ ∃ es, Logged p s u ((unitSeq p, 0x8086, s.pc p, detail) :: es))
    (Within s p e 0 [] → Issues (.nop p e) s s p g (s.flag p))
    ∧ (Alone s p e 0 [] → s.pc p + 1 = n → faults (.nop p e) n)
    ∧ (tgt.toNat < n → Alone s p e 0 [.branch tgt.toNat] → Ends (.br p e tgt) s (fun u => Issued s u p tgt.toNat g (s.flag p)))
    ∧ (regOk p d = true → v.toNat < n → Alone s p e 0 [.branch v.toNat] → Ends (.brr p e d) s (fun u => Issued s u p v.toNat g (s.flag p)))
    ∧ (regOk p d = true → n ≤ v.toNat → Alone s p e 0 [.fault 0x8086 v.toNat] → faults (.brr p e d) v.toNat)
    ∧ (regOk p d = true → tgt.toNat < n →
        (v = 0 → Within s p e 0 [] → Issues (.loop p e d tgt) s s p g (s.flag p))
        ∧ (v = 1 → Within s p e 0 [.g d 0] → Issues (.loop p e d tgt) s s p (Function.update g d 0) (s.flag p))
        ∧ (v ≠ 0 → v ≠ 1 → Alone s p e 0 [.g d (v - 1), .branch tgt.toNat] →
            Ends (.loop p e d tgt) s (fun u => Issued s u p tgt.toNat (Function.update g d (v - 1)) (s.flag p))))
    ∧ (Alone s p e 0 [.halt] → (s.base p).qops ≠ [] → Ends (.halt p e) s (fun u => u.seqState p = 4 ∧ u.pc p = s.pc p + 1 ∧ (u.base p).qops = (s.base p).qops))
    ∧ (Alone s p e 0 [.halt] → (s.base p).qops = [] → (s.seq .el).heldStarts = [] → Ends (.halt p e) s (fun u => u.seqState p = 2
        ∧ (p = .el → (u.seq .el).window = some { mask := 0x7F, until? := s.nextStart, ready := true, logged := false })))

/-- The two waits (R147, R175 to R177, R532): WAITT holds its bundle as an anchor until TB0 has reached its time, and then issues as a NOP; where TB0 has reached it already, or is UNSET, it issues at once. An anchor that passes is kept in ANCHOR, takes its lateness, with 0x8080, or its slack, and its bundle begins a new segment. WAITC holds its bundle while the counter is below G[a], and then issues, its flag telling equality when EQ is set. Nothing of a held bundle issues. The release of an anchor whose time has come lets it issue; the time limit of a counter wait logs 0x3010 and ends in FAULT. -/
def Obligations.Waits : Prop :=
  ∀ (p : Part) (e : Env) (tb : Fin 4) (rel : Bool) (a : Fin 64) (ns : BitVec 32) (core : BitVec 8) (k : BitVec 6) (eq : Bool) (pre : Fin 4) (tmo : BitVec 24) (cf : Fin 8) (s : State),
    let t := s.anchorTime p tb rel a ns.toNat
    let v := s.cntRead p core.toNat k.toNat
    let x := (s.greg p a).toNat
    let held := fun (u : State) => u.still p = s.still p ∧ (∀ b, u.greg p b = s.greg p b) ∧ (∀ i < 8, u.flag p i = s.flag p i) ∧ u.pc p = s.pc p ∧ (u.base p).events = (s.base p).events
    (envOk e = true → waittOk s.el.lic p tb rel a = true →
      (s.waits p e = true → (s.seq p).anchorOk = false → s.tbState p 0 ≠ 0 → s.tbReached p 0 t = false → Ends (.waitt p e tb rel a ns) s (fun u => held u ∧ u.bit p Reg.SEQ_STAT_TIMED_WAIT = true
          ∧ RegsBut [(p, Reg.SEQ_STAT_TIMED_WAIT.off)] s u ∧ ∃ since, (u.seq p).hold = .anchor t since))
      ∧ (s.waits p e = true → (s.seq p).anchorOk = false → s.tbState p 0 = 0 ∨ s.tbReached p 0 t = true → ∃ b, exec (.waitt p e tb rel a ns) s = exec (.nop p e) (s.anchorPass p t b)
          ∧ (∀ c, (s.seq p).hold = .anchor t c → b = c) ∧ ((∀ c, (s.seq p).hold ≠ .anchor t c) → b = s.tbNow p 0))
      ∧ (s.waits p e = false ∨ (s.seq p).anchorOk = true → exec (.waitt p e tb rel a ns) s = exec (.nop p e) s))
    ∧ (∀ t since, (s.seq p).hold = .anchor t since → s.issuing p = true → s.tbState p 0 = 0 ∨ s.tbReached p 0 t = true →
        exec (.anchorRelease p) s = .next (s.anchorPass p t since)
        ∧ Ends (.anchorRelease p) s (fun u => (u.seq p).anchorOk = true ∧ (u.seq p).hold = .none ∧ (u.seq p).segNew = true ∧ u.bit p Reg.SEQ_STAT_TIMED_WAIT = false
          ∧ u.get p Reg.SEQ_PC_ANCHOR = s.pc p
          ∧ (s.tbState p 0 = 0 ∨ since ≤ t → (u.base p).events = (s.base p).events)
          ∧ (s.tbState p 0 ≠ 0 → since ≤ t → u.get p Reg.SEQ_LATE_SLACK_MIN = min (s.get p Reg.SEQ_LATE_SLACK_MIN) ((t - since) / 2 ^ 32))
          ∧ (s.tbState p 0 ≠ 0 → t < since → u.get p Reg.SEQ_LATE_LATE = min (2 ^ 32 - 1) (psOf ((since - t : Nat) : Int)).toNat
            ∧ Logged p s u [(unitSeq p, 0x8080, s.pc p, (psOf ((since - t : Nat) : Int)).toNat)])))
    ∧ ((∀ t since, (s.seq p).hold ≠ .anchor t since) ∨ s.issuing p = false → exec (.anchorRelease p) s = .next s)
    ∧ (∀ t since, (s.seq p).hold = .anchor t since → s.tbState p 0 ≠ 0 → s.tbReached p 0 t = false → exec (.anchorRelease p) s = .next s)
    ∧ (envOk e = true → cntOk s.el.lic p core k = true → regOk p a = true → tmo ≠ 0 →
      (s.waits p e = true → v < x → Ends (.waitc p e core k a eq pre tmo cf) s (fun u => held u ∧ RegsBut [] s u
          ∧ ∃ eq' cf' lim since, (u.seq p).hold = .waitc core.toNat k.toNat x eq' cf' lim since))
      ∧ (x ≤ v → eq = false → Within s p e 0 [] → Issues (.waitc p e core k a eq pre tmo cf) s s p (s.greg p) (s.flag p))
      ∧ (x ≤ v → eq = true → Within s p e 0 [.flag cf (v == x)] → Issues (.waitc p e core k a eq pre tmo cf) s s p (s.greg p) (Function.update (s.flag p) cf (v == x))))
    ∧ (∀ c' k' t' q' f' l' n', (s.seq p).hold = .waitc c' k' t' q' f' l' n' → s.issuing p = true → Ends (.waitcTimeout p) s (fun u => u.seqState p = 5
        ∧ ∃ es, Logged p s u ((unitSync p, 0x3010, cntObj (cntKey c' k'), t') :: es)))
    ∧ (s.issuing p = false ∨ (∀ c' k' t' q' f' l' n', (s.seq p).hold ≠ .waitc c' k' t' q' f' l' n') → exec (.waitcTimeout p) s = .next s)

/-- Slack-water windows (R150, R178): QUIET with N above 0 opens a window over its mask until TB0 at issue plus N nominal periods, replacing one that is open; with N = 0 it closes the open window. A window with an end closes once TB0 has reached it and not before; one without an end stays. Where no rule speaks it follows the readings of the model in log 109. -/
def Obligations.SlackWindows : Prop :=
  ∀ (p : Part) (e : Env) (mask : BitVec 7) (n : BitVec 24) (s : State),
    let q := s.seq p
    let opened := (s.modSeq p (fun q => { q with window := some { mask := mask.toNat, until? := some (hxtAdd (s.tbNow p 0) (nomPeriods n.toNat q.fclkNom)), ready := false, logged := false } })).put p
      Reg.SEQ_STAT_QUIET 1
    let closed := (s.modSeq p (fun q => { q with window := none })).put p Reg.SEQ_STAT_QUIET 0
    (quietOk mask n = true → Within s p e 0 [.window mask.toNat n.toNat] →
      Issues (.quiet p e mask n) s (if n = 0 then closed else opened) p (s.greg p) (s.flag p))
    ∧ (∀ w t, q.window = some w → w.until? = some t →
        (s.tbReached p 0 t = true → exec (.windowClose p) s = .next closed) ∧ (s.tbReached p 0 t = false → exec (.windowClose p) s = .next s))
    ∧ (∀ w, q.window = some w → w.until? = none → exec (.windowClose p) s = .next s)
    ∧ (q.window = none → exec (.windowClose p) s = .next closed)

/-- Integer operations (R196), modulo 2^64, shifts by the low six bits of B: each writes G[d], or its flag, and nothing else. -/
def Obligations.IntegerOperations : Prop :=
  ∀ (p : Part) (e : Env) (d a : Fin 64) (o : Opnd) (v : BitVec 32) (cd ca cb : Fin 8) (cond : Fin 8) (fn : Fin 4) (s : State),
    let A := s.greg p a
    let B := s.opnd p o
    let writes := fun (c : Instr) (w : Word) => Within s p e (intSlot p) [.g d w] → Issues c s s p (Function.update (s.greg p) d w) (s.flag p)
    let flags := fun (c : Instr) (b : Bool) => Within s p e (intSlot p) [.flag cd b] → Issues c s s p (s.greg p) (Function.update (s.flag p) cd b)
    (regOk p d = true → opndOk p o = true → writes (.mov p e d o) B)
    ∧ (regOk p d = true → writes (.movh p e d v) (v ++ (s.greg p d).setWidth 32))
    ∧ (regOk p d = true → regOk p a = true → opndOk p o = true →
        writes (.add p e d a o) (A + B) ∧ writes (.sub p e d a o) (A - B) ∧ writes (.and p e d a o) (A &&& B) ∧ writes (.or p e d a o) (A ||| B)
        ∧ writes (.xor p e d a o) (A ^^^ B) ∧ writes (.shl p e d a o) (A <<< (B.toNat % 64)) ∧ writes (.shr p e d a o) (A >>> (B.toNat % 64))
        ∧ writes (.sar p e d a o) (A.sshiftRight (B.toNat % 64)) ∧ writes (.mul p e d a o) (A * B))
    ∧ (regOk p a = true → opndOk p o = true → cond.val < 6 → flags (.cmp p e cd cond a o)
        (match cond.val with | 0 => A == B | 1 => A != B | 2 => A.ult B | 3 => !A.ult B | 4 => A.slt B | _ => !A.slt B))
    ∧ flags (.fop p e cd ca cb fn) (match fn.val with
        | 0 => s.flag p ca && s.flag p cb | 1 => s.flag p ca || s.flag p cb | 2 => s.flag p ca != s.flag p cb | _ => s.flag p ca && !s.flag p cb)

/-- Reads into G and C (R171, R179, R181, R190, R191, R194, R197): time bases, the FRC, a counter as its step view, an accumulator, a draw, a stream, the step, identities and counts: each writes the registers it names and nothing else. -/
def Obligations.RegisterReads : Prop :=
  ∀ (e : Env) (d a b n : Fin 64) (tb : Fin 4) (core : BitVec 8) (k : BitVec 6) (fa : Fin 16) (sel : Fin 4) (id : Fin 8) (src : Fin 16) (purpose : BitVec 16) (cf : Fin 8) (s : State),
    let g := s.greg .el
    let l := s.el.lic
    let one := fun (c : Instr) (slot : Nat) (w : Word) => Within s .el e slot [.g d w] → Issues c s s .el (Function.update g d w) (s.flag .el)
    let two := fun (c : Instr) (p : Part) (slot : Nat) (w x : Word) => Within s p e slot [.g d w, .g (d + 1) x] →
      Issues c s s p (Function.update (Function.update (s.greg p) d w) (d + 1) x) (s.flag p)
    let t := s.tbSample .el tb
    let tx := s.tbSample .ux tb
    let quad := s.drawQuad purpose.toNat (g a).toNat (s.gpos b)
    (trdOk l .el d tb true = true → one (.trd e d tb true) 1 (BitVec.ofNat 64 (t / 2 ^ 32)))
    ∧ (trdOk l .el d tb false = true → two (.trd e d tb false) .el 1 (hxtSecW t) (hxtNsfW t))
    ∧ (trdOk l .ux d tb true = true → Within s .ux e 0 [.g d (BitVec.ofNat 64 (tx / 2 ^ 32))] →
        Issues (.treeTrd e d tb true) s s .ux (Function.update (s.greg .ux) d (BitVec.ofNat 64 (tx / 2 ^ 32))) (s.flag .ux))
    ∧ (trdOk l .ux d tb false = true → two (.treeTrd e d tb false) .ux 0 (hxtSecW tx) (hxtNsfW tx))
    ∧ (pairOk .el d = true → two (.frcrd e d) .el 1 (BitVec.ofNat 64 (s.frcSample .el)) (BitVec.ofNat 64 (s.frcSample .el / 2 ^ 64)))
    ∧ (cntOk l .el core k = true → one (.crd e d core k) 2 (BitVec.ofNat 64 (s.cntRead .el core.toNat k.toNat)))
    ∧ (sel.val ≠ 3 → one (.frd e d fa sel) 4 (match sel.val with
        | 0 => (s.fa fa).fp | 1 => BitVec.ofNat 64 (s.fa fa).blocks | _ => BitVec.ofNat 64 (s.fa fa).mism))
    ∧ (pairOk .el d = true → purposeOk purpose = true → two (.rng e d a b purpose) .el 5 quad.wordA quad.wordB)
    ∧ (pairOk .el d = true → n.val < l.streams → two (.srd e d n) .el 5 (s.cursor n) (BitVec.ofNat 64 (s.streamPos n)))
    ∧ one (.rdstep e d) 7 (BitVec.ofNat 64 s.stepCur)
    ∧ (id.val < 6 → one (.rdid e d id) 7 (BitVec.ofNat 64 (s.identSel id)))
    ∧ (src.val < 6 → one (.rdcnt e d src) 7 (BitVec.ofNat 64 (s.cntSel src)))
    ∧ (Within s .el e 7 [.flag cf (s.manCheck .el).isNone] → Issues (.mchk e cf) s s .el g (Function.update (s.flag .el) cf (s.manCheck .el).isNone))

/-- Draws and streams (R191, R192, R274, R277, R278): RNGX writes the eight words of four draws at positions 4k to 4k + 3; SRNG draws at the stream's position and moves it on, but writes 0 and logs where the stream has no sample or stands at its last position; SNEXT moves the cursor on and writes the new sample's index, all-ones without one; SSET sets cursor and position. -/
def Obligations.SeedStreams : Prop :=
  ∀ (e : Env) (d a b n : Fin 64) (purpose : BitVec 16) (s : State),
    let g := s.greg .el
    let pos := s.gpos b - s.gpos b % 4
    let quad := fun i => s.drawQuad purpose.toNat (g a).toNat (pos + i)
    let here := n.val < s.el.lic.streams
    let c := s.cursor n + 1
    let idx : Word := match s.streamIndex n c.toNat with | some l => BitVec.ofNat 64 l | none => 0xFFFFFFFFFFFFFFFF
    (d.val % 8 = 0 → purposeOk purpose = true → Within s .el e 5 (([0, 1, 2, 3] : List Nat).flatMap (fun i => quadActs (d + 2 * i) (quad i))) →
      Issues (.rngx e d a b purpose) s s .el (fun r => if d.val ≤ r ∧ r < d.val + 8 then (if (r - d.val) % 2 = 0 then (quad ((r - d.val) / 2)).wordA else (quad ((r - d.val) / 2)).wordB) else g r) (s.flag .el))
    ∧ (pairOk .el d = true → here → purposeOk purpose = true →
        (s.curSample n = none → Within s .el e 5 [.g d 0, .g (d + 1) 0, .seedLog n 0x4021] →
          Issues (.srng e d n purpose) s (s.seedLog n 0x4021) .el (Function.update (Function.update g d 0) (d + 1) 0) (s.flag .el))
        ∧ (∀ l, s.curSample n = some l → s.streamPos n = 2 ^ 24 - 1 → Within s .el e 5 [.g d 0, .g (d + 1) 0, .seedLog n 0x4020] →
          Issues (.srng e d n purpose) s (s.seedLog n 0x4020) .el (Function.update (Function.update g d 0) (d + 1) 0) (s.flag .el))
        ∧ (∀ l, s.curSample n = some l → s.streamPos n ≠ 2 ^ 24 - 1 →
          let q := s.drawQuad purpose.toNat l (s.streamPos n)
          Within s .el e 5 (quadActs d q ++ [.streamPos n (s.streamPos n + 1)]) →
          Issues (.srng e d n purpose) s (s.put .el (Reg.SEED_S_CUR_POS n) (s.streamPos n + 1)) .el (Function.update (Function.update g d q.wordA) (d + 1) q.wordB) (s.flag .el)))
    ∧ (here → Within s .el e 5 [.stream n c 0, .g d idx] → Issues (.snext e d n) s (((s.segStart .el).permStretch n c.toNat).setStream n c 0) .el (Function.update g d idx) (s.flag .el))
    ∧ (here → Within s .el e 5 [.stream n (g a) (s.gpos b)] → Issues (.sset e n a b) s (((s.segStart .el).permStretch n (g a).toNat).setStream n (g a) (s.gpos b)) .el g (s.flag .el))

/-- Accesses of the program to SPM (R172, R190 to R193, R379, R380): an aligned access within SPM reads or writes its word, or two for RSTO; one outside is fault 0x8088 with the slot and the address, and writes nothing; a load that a replay heals counts the replay and 2 slips each and logs 0x7001; a word that stays bad reads 0 and logs 0x7002. A stored word reads back (R6, R371, R377): SPM then holds its bytes, least significant first, and every byte outside it is as before. Where no rule speaks it follows the readings of the model in log 67. -/
def Obligations.ProgramMemory : Prop :=
  (∀ (e : Env) (d a b c : Fin 64) (ofs : BitVec 24) (fa : Fin 16) (purpose : BitVec 16) (n : Fin 3) (s : State),
    let g := s.greg .el
    let x := s.spmAddr a ofs
    let y := (g a).toNat
    let q := s.drawQuad purpose.toNat (g b).toNat (s.gpos c)
    let bad := s.el.spmBad.contains (x / 8)
    let w := if bad then 0 else s.spmRaw x
    let faults := fun (i : Instr) (slot at' : Nat) => Alone s .el e slot [.fault 0x8088 (rangeDetail slot at')] →
      Ends i s (fun u => u.seqState .el = 5 ∧ u.el.spm = s.el.spm ∧ (∀ r, u.greg .el r = g r) ∧ ∃ es, Logged .el s u ((0x01, 0x8088, s.pc .el, slot * 2 ^ 60 + at' % 2 ^ 60) :: es))
    (s.spmOk x 8 = true →
      (Within s .el e 4 [.spm 4 x [(s.fa fa).fp]] → Issues (.fsto e fa a ofs) s (s.spmPut x (s.fa fa).fp) .el g (s.flag .el))
      ∧ (Within s .el e 6 [.spm 6 x [g b]] → Issues (.st e a b ofs) s (s.spmPut x (g b)) .el g (s.flag .el))
      ∧ (bad = false → n = 0 → Within s .el e 6 [.load x, .replay x n, .g d w] → Issues (.ld e d a ofs n) s s .el (Function.update g d w) (s.flag .el))
      ∧ (bad = false → n ≠ 0 → Within s .el e 6 [.load x, .replay x n, .g d w] → Issues (.ld e d a ofs n) s (((s.segStart .el).slip .el (2 * n)).spmReplay 6 x (s.pc .el)) .el (Function.update g d w) (s.flag .el))
      ∧ (bad = true → Within s .el e 6 [.load x, .replay x n, .g d w] → Ends (.ld e d a ofs n) s (fun u => u.greg .el d = 0
          ∧ ∃ es, Logged .el s u ((0x07, 0x7002, s.pc .el, 6 * 2 ^ 60 + x) :: es))))
    ∧ (s.spmOk y 16 = true → purposeOk purpose = true → Within s .el e 5 [.spm 5 y [q.wordA, q.wordB]] → Issues (.rsto e a b c purpose) s ((s.spmPut y q.wordA).spmPut (y + 8) q.wordB) .el g (s.flag .el))
    ∧ (s.spmOk x 8 = false → faults (.fsto e fa a ofs) 4 x ∧ faults (.st e a b ofs) 6 x ∧ faults (.ld e d a ofs n) 6 x)
    ∧ (s.spmOk y 16 = false → purposeOk purpose = true → faults (.rsto e a b c purpose) 5 y))
  ∧ (∀ (s : State) (x : Nat) (w : Word), s.flips x = false → s.memOk →
    (s.spmPut x w).spmRaw x = w ∧ (s.spmPut x w).memOk ∧ (∀ c, c < x - x % 8 ∨ x - x % 8 + 8 ≤ c → mget (s.spmPut x w).el.spm c = mget s.el.spm c)
    ∧ (s.spmPut x w).el.base = s.el.base ∧ (s.spmPut x w).ux = s.ux ∧ x / 8 ∉ (s.spmPut x w).el.spmBad)


/-- Operations with one effect outside G and C (R179, R181, R190, R193 to R195, R200): arming a pulse, refused with 0x1008 for NS above 999,999,999 (R40), or a launch identity, increments and watches, clearing an accumulator, an abort, staging and committing a manifest, an event, a kick; and the trap, fault 0x8087 with G[a]. -/
def Obligations.UnitOperations : Prop :=
  ∀ (e : Env) (i tb : Fin 4) (rel eq : Bool) (a b : Fin 64) (cf eng : Fin 8) (ns : BitVec 32) (lid core : BitVec 8) (k : BitVec 6) (gmask amt tag : BitVec 16) (widx : BitVec 12) (fa ch : Fin 16)
      (mask : BitVec 7) (s : State),
    let g := s.greg .el
    let l := s.el.lic
    let t := if rel then hxtAdd (s.seq .el).tStep (hxtNs ns.toNat) else s.gpair .el a
    let does := fun (c : Instr) (slot : Nat) (acts : List Act) (u : State) => Within s .el e slot acts → Issues c s u .el g (s.flag .el)
    let tells := fun (c : Instr) (slot : Nat) (acts : List Act) (u : State) (f : Bool) => Within s .el e slot acts → Issues c s u .el g (Function.update (s.flag .el) cf f)
    let n := min (g a).toNat cntTop
    let adds := fun (c : Instr) (m : Nat) => (s.incRaw [(cntKey core.toNat k.toNat, m)]).2 = false → does c 2 [.inc core.toNat k.toNat m] (s.incRaw [(cntKey core.toNat k.toNat, m)]).1
    (tb.val < l.tbCount → (if rel then tb = 0 else a.val % 2 = 0) →
      (rel = true ∨ nsOk (g (a + 1)) = true → tells (.parm e i tb rel a cf ns) 1 [.pulse i tb t, .flag cf (s.parm i tb t).2] (s.parm i tb t).1 (s.parm i tb t).2)
      ∧ (rel = false → nsOk (g (a + 1)) = false → tells (.parm e i tb rel a cf ns) 1 [.log 0x02 0x1008 (0x100 + i.val) (Reg.PULSE_START_NSF_NS i).off, .flag cf false]
          (s.log .el 0x02 0x1008 (0x100 + i.val) (Reg.PULSE_START_NSF_NS i).off) false))
    ∧ does (.larm e lid gmask) 1 [.larm lid.toNat gmask.toNat] (s.larm lid.toNat gmask.toNat)
    ∧ (cntOk l .el core k = true →
        (amt ≠ 0 → adds (.cinc e core k amt) amt.toNat)
        ∧ (n ≠ 0 → adds (.cincr e core k a) n)
        ∧ (n = 0 → does (.cincr e core k a) 2 [] s)
        ∧ (eng.val < l.engPerCore → widx.toNat < l.watches → does (.wreg e core k a eq eng widx) 2 [.wreg core.toNat k.toNat (g a).toNat eq eng widx.toNat]
            (s.watchReg false core.toNat k.toNat (g a).toNat eq eng widx.toNat).1))
    ∧ (widx.toNat < l.watches → does (.wclr e widx) 2 [.wclr widx.toNat] (s.watchClear widx.toNat))
    ∧ does (.fclr e fa) 4 [.fclr fa] (s.modEl (fun x => { x with fas := tput ⟨0, 0, 0⟩ x.fas fa ⟨0, 0, 0⟩ }))
    ∧ (ch.val < l.dmaCh → does (.dmaab e ch) 6 [.abort ch] (s.dmaAbort ch stAborted))
    ∧ (s.isSt .el (g a).toNat = true → tells (.mstg e cf a b) 7 [.stage (g a).toNat (g b), .flag cf (s.stage .el (g a).toNat (g b)).2] (s.stage .el (g a).toNat (g b)).1 (s.stage .el (g a).toNat (g b)).2)
    ∧ (s.isSt .el (g a).toNat = false → tells (.mstg e cf a b) 7 [.flag cf false] s false)
    ∧ (rel = true ∨ a.val % 2 = 0 → tells (.mcommit e cf rel a ns) 7 [.commit t, .flag cf (s.manArm .el t).2] (s.manArm .el t).1 (s.manArm .el t).2)
    ∧ does (.evt e a tag) 7 [.log 0x08 0x9088 tag.toNat (g a).toNat] (s.log .el 0x08 0x9088 tag.toNat (g a).toNat)
    ∧ does (.gkick e mask) 7 [.kick mask.toNat] (s.wdRestart .el mask.toNat)
    ∧ (Alone s .el e 7 [.fault 0x8087 (g a).toNat] → Ends (.gtrap e a) s (fun u => u.seqState .el = 5 ∧ (∀ r, u.greg .el r = g r)
        ∧ ∃ es, Logged .el s u ((0x01, 0x8087, s.pc .el, (g a).toNat) :: es)))

/-- Queued operations (R142, R144, R170): each enters its queue with the operands it captured, its completion counter and the entries it takes, when the queue has them; a RED operation whose count is out of range is refused at issue and takes none (R141). Queued operations of a tree program (R198, R199): each enters its queue with the operands it captured. -/
def Obligations.QueuedIssue : Prop :=
  (∀ (e : Env) (q : QDest) (a b : Fin 64) (rel start : Bool) (lid bid rcore : BitVec 8) (gmask : BitVec 16) (scope : Fin 4) (rk : BitVec 6) (ramt kind : BitVec 4) (rid : BitVec 12)
      (t : TArgs) (m : KArgs) (fa fb ch : Fin 16) (min : Bool) (s : State), destOk s.el.lic .el q = true →
    let g := fun r => (s.greg .el r).toNat
    let takes := fun (c : Instr) (slot : Nat) (queue : QueueId) (k : QKind) (n : Nat) => Within s .el e slot [.queue queue k q.core.toNat q.k.toNat (q.amt.toNat + 1) n] →
      Issues c s (s.enqueue .el queue k q.core.toNat q.k.toNat (q.amt.toNat + 1) n) .el (s.greg .el) (s.flag .el)
    let red := fun (c : Instr) (op : Nat) =>
      (1 ≤ g t.gn → g t.gn ≤ 256 → takes c 3 .red (.tal op (g t.ga) (g t.gb) (g t.gn) (g t.ge) t.fmt.toNat t.cls t.mx) (g t.gn))
      ∧ (g t.gn = 0 ∨ 256 < g t.gn → Within s .el e 3 [.refuse .red op] → Issues c s (s.refuse .el .red op) .el (s.greg .el) (s.flag .el))
    let scalar := fun (c : Instr) (op : Nat) (k : QKind) =>
      (1 ≤ g a → g a ≤ 16384 → takes c 3 .red k ((g a + 63) / 64))
      ∧ (g a = 0 ∨ 16384 < g a → Within s .el e 3 [.refuse .red op] → Issues c s (s.refuse .el .red op) .el (s.greg .el) (s.flag .el))
    (lreqOk .el a rel start gmask = true → takes (.lreq e q a rel start lid gmask) 1 .barrier
        (.lreq { lid := lid, t := (if rel then hxtAdd (s.seq .el).tStep (hxtNs (g a)) else s.gpair .el a), gmask := gmask, start := start, lsi := BitVec.ofNat 20 s.lsi, ident := 0 }) 1)
    ∧ takes (.arrive e q bid scope) 2 .barrier (.arrive bid scope) 1 ∧ takes (.bar e q bid scope) 2 .barrier (.bar bid scope) 1
    ∧ takes (.ann e q a b rcore rk ramt) 2 .barrier (.ann (BitVec.ofNat 20 (g a))
        { src := BitVec.ofNat 20 s.lsi, step := BitVec.ofNat 64 s.stepCur, bytes := BitVec.ofNat 48 (g b), rcore := rcore, rk := rk, ramt := ramt, ident := 0 }) 1
    ∧ (scaleOk t = true → red (.scale e q t) 1) ∧ (tconvOk t = true → red (.tconv e q t) 2) ∧ (taddOk t = true → red (.tadd e q t) 3)
    ∧ (tfinOk t = true → red (.tfin e q t) 4) ∧ (psumOk t = true → red (.psum e q t) 5)
    ∧ scalar (.spass e q rid a b min) 6 (.spass rid.toNat (g a) (g b) min) ∧ scalar (.ssum e q rid a b) 7 (.ssum rid.toNat (g a) (g b))
    ∧ (m.fa = 0 → m.kind = 0 → takes (.bcvg e q m) 4 .chk (.bcvg (g m.ga) (g m.gb) (g m.gn) (g m.gt % 2 ^ 32)) 1 ∧ takes (.bcvv e q m) 4 .chk (.bcvv (g m.ga) (g m.gb) (g m.gn) (g m.gt % 2 ^ 32)) 1)
    ∧ (m.ga = 0 → m.kind = 0 → takes (.fpa e q m) 4 .chk (.fpa (g m.gb) (g m.gn) (g m.gt % 2 ^ 32) m.fa) 1)
    ∧ takes (.fpcmp e q fa fb) 4 .chk (.fpcmp fa fb) 1 ∧ takes (.xchk e q rid fa) 4 .chk (.xchk rid.toNat fa none) 1
    ∧ (kind.toNat ≤ 4 → takes (.lemit e q a fa kind) 4 .ledger (.lemit (g a % 2 ^ 32 / 2 ^ 20) fa kind.toNat) 1)
    ∧ takes (.sealv e q a) 4 .ledger (.sealv (s.greg .el a)) 1 ∧ takes (.sealq e q a) 4 .ledger (.sealq (s.greg .el a)) 1 ∧ takes (.lstag e q fa) 4 .ledger (.lstag fa) 1
    ∧ (ch.val < s.el.lic.dmaCh → takes (.dmago e q ch a) 6 .move (.dmago ch (g a)) 1))
  ∧ (∀ (e : Env) (q : QDest) (a b c : Fin 64) (rel start : Bool) (lid bid : BitVec 8) (gmask : BitVec 16) (rid : BitVec 12) (opk : Fin 8) (s : State),
    destOk s.el.lic .ux q = true → regOk .ux a = true → regOk .ux b = true → regOk .ux c = true →
    let g := fun r => (s.greg .ux r).toNat
    let takes := fun (i : Instr) (slot : Nat) (queue : QueueId) (k : QKind) => Within s .ux e slot [.queue queue k q.core.toNat q.k.toNat (q.amt.toNat + 1) 1] →
      Issues i s (s.enqueue .ux queue k q.core.toNat q.k.toNat (q.amt.toNat + 1) 1) .ux (s.greg .ux) (s.flag .ux)
    (opk.val < 6 → takes (.tslot e q rid opk a b) 1 .tree (.tslot rid.toNat opk (g a) (g b))) ∧ takes (.tbar e q bid a) 1 .tree (.tbar bid (g a))
    ∧ (lreqOk .ux a rel start gmask = true → takes (.tlreq e q a rel start lid gmask) 1 .tree
        (.tlreq { lid := lid, t := (if rel then hxtAdd (s.tbNow .ux 0) (hxtNs (g a)) else s.gpair .ux a), gmask := gmask, start := start, lsi := 0, ident := 0 }))
    ∧ takes (.tcmpg e q rid a b) 1 .tree (.tcmpg rid.toNat (g a) (g b)) ∧ takes (.tlock e q a b c) 1 .tree (.tlock (g a) (g b) (s.greg .ux c)) ∧ takes (.trel e q rid) 1 .tree (.trel rid.toNat)
    ∧ takes (.vgen e q a b) 2 .vault (.vgen (g a) (s.greg .ux b)) ∧ takes (.vseal e q a) 2 .vault (.vseal (s.greg .ux a)) ∧ takes (.vcmp e q a b) 2 .vault (.vcmp (g a) (s.greg .ux b))
    ∧ takes (.vrest e q a b) 2 .vault (.vrest (g a) (g b)) ∧ takes (.vdrop e q a) 2 .vault (.vdrop (g a))
    ∧ takes (.lseal e q a) 3 .ledg (.lseal (s.greg .ux a)) ∧ takes (.lflush e q) 3 .ledg .lflush ∧ takes (.larch e q a b) 3 .ledg (.larch (s.greg .ux a) (s.greg .ux b))
    ∧ takes (.ltrim e q a) 3 .ledg (.ltrim (s.greg .ux a)))

/-! ### Queues, images and starts (chapter 5) -/

/-- Queued operations start and end (R142, R143, R188): the oldest one that has not started starts when its unit is free; a format T operation shows TAL_STAT.BUSY, launch requests, announcements and seals go up, DMAGO starts an idle channel. A started one ends with the status its answer brings: OK and MISMATCH add its amount to its counter once, any other status is recorded in QSTAT with 0x8083 and adds nothing; either way it leaves its queue. TLOCK ends MISMATCH where the first divergence of the pair it names lies at or before the step (R198, R315). Where no rule speaks it follows the readings of the model in logs 68 and 112. -/
def Obligations.QueuedOperations : Prop :=
  ∀ (p : Part) (q : QueueId) (r : Option (BitVec 24)) (o : QOp) (id : Nat) (s : State),
    let m := match queuePort q, r with
      | some port, some a => if s.el.spmBad.contains (a.toNat / 8) then s.markStarted p o.id else (s.markStarted p o.id).spmReplay port a.toNat o.pc
      | _, _ => s.markStarted p o.id
    let starts := fun t => exec (.queuedOpStart p q r) s = .next t
    let ends := fun a t => exec (.queuedOpCompletion p id a) s = .next t
    (queuePart q ≠ p ∨ s.queueFree q = false ∨ s.headOp q = none → starts s)
    ∧ (queuePart q = p → s.queueFree q = true → s.headOp q = some o →
        (∀ op a b n e f c x, o.kind = .tal op a b n e f c x → starts (m.put .el Reg.TAL_STAT_BUSY 1))
        ∧ (∀ a b n t, o.kind = .bcvg a b n t ∨ o.kind = .bcvv a b n t → starts m)
        ∧ (∀ x, o.kind = .lreq x → starts (m.sendUp .el (.launchReq { x with ident := o.id })))
        ∧ (∀ d x, o.kind = .ann d x → starts (m.sendUp .el (.ann d x)))
        ∧ (∀ step, o.kind = .sealv step → m.stepCur ≥ step.toNat → isSealedBy (m.reg .el Reg.CHK_SEAL_LAST.off) step = false →
          starts (m.sendUp .el (.sealMsg (if m.bit .el Reg.CHK_STAT_FAILED then 0x31 else 0x30) (BitVec.ofNat 20 m.lsi) step)))
        ∧ (∀ ch n, o.kind = .dmago ch n → 1 ≤ n → n ≤ 65535 → m.get .el (Reg.DMA_STAT_STATE ch) = 0 → Ends (.queuedOpStart p q r) s (fun u =>
          u.get .el (Reg.DMA_STAT_STATE ch) = 1 ∧ u.get .el (Reg.DMA_STAT_LEFT ch) = n ∧ (u.dma ch).left = n ∧ (u.dma ch).qid = some o.id)))
    ∧ (s.findOp p id = none → ∀ a, ends a s)
    ∧ (s.findOp p id = some o →
        (o.started = false → ∀ a, ends a s)
        ∧ (o.started = true →
          (∀ x, o.kind = .lreq x → ends .accepted (s.endOp o stOk) ∧ ends .late (s.endOp o stLate) ∧ ends .refused (s.endOp o stRefused))
          ∧ (∀ d x, o.kind = .ann d x → ends .accepted (s.endOp o stOk) ∧ ends .refused (s.endOp o stRefused))
          ∧ (∀ a n d x, o.kind = .spass a n d x ∨ o.kind = .ssum a n d → ends .timeout (s.endOp o stTimeout))
          ∧ (∀ t f k, o.kind = .lemit t f k ∨ o.kind = .lstag f ∨ o.kind = .lflush → ends .own (s.endOp o stOk))
          ∧ (∀ a b step, o.kind = .tlock a b step →
            (s.lockPaired a b = true → ends .own (s.endOp o (if s.bit .ux Reg.UX_LOCK_DIV1_VALID = true ∧ (s.reg .ux Reg.UX_LOCK_DIV0_STEP.off).toNat ≤ step.toNat then stMismatch else stOk)))
            ∧ (s.lockPaired a b = false → ∃ st, (st = stOk ∨ st = stMismatch) ∧ ends .own (s.draw.2.endOp o st)))))
    ∧ (queuePart o.queue = p → s.seqState p ≠ 4 →
        (∀ st < 16, stAdds st = false → (s.endOp o st).findOp p o.id = none ∧ (s.endOp o st).bit p Reg.SEQ_QSTAT_FLAG = true
          ∧ (s.endOp o st).get p Reg.SEQ_QSTAT_STATUS = st ∧ (s.endOp o st).el.counters = s.el.counters ∧ (s.endOp o st).ux.tc = s.ux.tc
          ∧ Logged p s (s.endOp o st) [(unitSeq p, 0x8083, o.pc, st)])
        ∧ (∀ st, stAdds st = true → p = .el → (s.seq .el).pairs = [] → s.cntAbs o.key ≤ cntTop →
          (s.endOp o st).findOp p o.id = none ∧ (s.endOp o st).cntAbs o.key = min (s.cntAbs o.key + o.amt) cntTop ∧ ∀ k, k ≠ o.key → (s.endOp o st).cntAbs k = s.cntAbs k)
        ∧ (∀ st, stAdds st = true → p = .ux → tget 0 s.ux.tc o.core ≤ cntTop →
          (s.endOp o st).findOp p o.id = none ∧ tget 0 (s.endOp o st).ux.tc o.core = min (tget 0 s.ux.tc o.core + o.amt) cntTop))

/-- Loads (R154 to R159, R167, R384, R444): from EMPTY or READY a load starts, on channel 0 of an Elesh, and clears program memory; otherwise it is refused with cause 13. It ends in READY with the image's bundles, entry and hash and 0x9080, or in EMPTY with the first failing check as cause and 0x9081. UNLOAD empties a READY or FAULT sequencer. A word refetched well holds the bundle and, on a die, counts as a replayed parity error; one that stays bad is 0x8082 and FAULT. Starts (R161, R162, R165, R202, R348, R429): a READY die in MODE STARTUP or TEST starts its step: STEP_CUR takes STEP.NEXT, which advances, the entry bundle is next, and registers, flags and step views read 0; a RUNNING, DRAINING or testing one holds the start; in another mode or state, and where a guard action or a rollback is open, no LSI is assigned or the die is EXPELLED, it is refused with 0x8085. A READY tree program starts so at its entry, else 0x8089. Where no rule speaks it follows the readings of the model in logs 27, 31, 65, 107 and 108. -/
def Obligations.ImagesAndStarts : Prop :=
  (∀ (p : Part) (slot : Fin 8) (ok : Bool) (s : State),
    let load : Instr := match p with | .el => .seqLoad | .ux => .tseqLoad
    let img := s.loadImage p
    let cause := if ok then s.imgCause img p else 14
    let free := p = .ux ∨ s.get .el (Reg.DMA_STAT_STATE 0) = 0
    (s.manState p ≠ 2 → s.seqState p = 0 ∨ s.seqState p = 2 → free → Ends load s (fun u => u.seqState p = 1 ∧ (u.seq p).prog = [] ∧ (u.seq p).bundles = 0
        ∧ (p = .el → u.get .el (Reg.DMA_STAT_STATE 0) = 4) ∧ (u.base p).events = (s.base p).events))
    ∧ (s.manState p ≠ 2 → (s.seqState p ≠ 0 ∧ s.seqState p ≠ 2) ∨ ¬ free → Goes load s (s.put p Reg.SEQ_STAT_REFUSE_CAUSE 13) p [(unitSeq p, 0x9081, 0, 13)])
    ∧ (s.manState p = 2 → Goes load s (s.put p Reg.SEQ_STAT_REFUSE_CAUSE 13) p [(unitMan p, 0x9003, 0x2000, 0x2000), (unitSeq p, 0x9081, 0, 13)])
    ∧ (s.seqState p ≠ 1 → exec (.imageLoadEnd p ok) s = .next s)
    ∧ (s.seqState p = 1 → cause = 0 → Ends (.imageLoadEnd p ok) s (fun u => u.seqState p = 2 ∧ (u.seq p).bundles = imgField img 0x10 4 ∧ (u.seq p).entry = imgField img 0x14 4
        ∧ (∀ i < 6, u.reg p (Reg.SEQ_IMGHASH_HASH i).off = BitVec.ofNat 64 (leNat ((((img.drop 0x40).take 48).drop (8 * i)).take 8)))
        ∧ (p = .el → u.get .el (Reg.DMA_STAT_STATE 0) = 0) ∧ Logged p s u [(unitSeq p, 0x9080, 0, leNat (((img.drop 0x40).take 48).take 8))]))
    ∧ (s.seqState p = 1 → cause ≠ 0 → Ends (.imageLoadEnd p ok) s (fun u => u.seqState p = 0 ∧ (u.seq p).prog = [] ∧ (u.seq p).bundles = 0
        ∧ u.get p Reg.SEQ_STAT_REFUSE_CAUSE = cause ∧ (∀ i < 6, u.reg p (Reg.SEQ_IMGHASH_HASH i).off = 0) ∧ Logged p s u [(unitSeq p, 0x9081, 0, cause)]))
    ∧ (s.manState p = 2 → Goes (.seqUnload p) s s p [(unitMan p, 0x9003, 0x2000, 0x2000)])
    ∧ (s.manState p ≠ 2 → s.seqState p = 2 ∨ s.seqState p = 5 → Ends (.seqUnload p) s (fun u => u.seqState p = 0 ∧ (u.seq p).prog = [] ∧ (u.seq p).bundles = 0 ∧ (u.base p).events = (s.base p).events))
    ∧ (s.manState p ≠ 2 → s.seqState p ≠ 2 → s.seqState p ≠ 5 → exec (.seqUnload p) s = .next s)
    ∧ (s.seqState p ≠ 3 → exec (.progRefetch p slot ok) s = .next s)
    ∧ (s.seqState p = 3 → p = .ux → exec (.progRefetch p slot true) s = .next (s.draw.2.slip p s.draw.1.toNat))
    ∧ (s.seqState p = 3 → p = .el → exec (.progRefetch p slot true) s =
        .next ((s.draw.2.slip p s.draw.1.toNat).modEl (fun e => { e with hbCounts := { e.hbCounts with parity := e.hbCounts.parity + 1 } })))
    ∧ (s.seqState p = 3 → Ends (.progRefetch p slot false) s (fun u => (∃ es, Logged p s u ((unitSeq p, 0x8082, s.pc p, s.pc p * bundleBytes p + 8 * slot) :: es))
        ∧ (s.guardActive p = false → s.bit p Reg.GUARD_STAT_DUMP_VALID = false → u.seqState p = 5 ∧ u.get p Reg.GUARD_STAT_TRIGGER = 4 ∧ u.bit p Reg.GUARD_STAT_DUMP_BUSY = true))))
  ∧ (∀ (s : State),
    let st := s.seqState .el
    let missed := [((0x01, 0x8085, s.pc .el, st) : Entry)]
    (s.runMode ≠ 1 → s.runMode ≠ 2 → Goes .seqStart s s .el missed)
    ∧ (s.runMode = 1 ∨ s.runMode = 2 →
      (s.guardActive .el = false → s.bit .el Reg.HC_STAT_ROLLBACK = false → s.bit .el Reg.SEQ_RUNCFG_LSI_VALID = true → s.get .el Reg.HC_STAT_STATE ≠ 6 →
        (st = 2 → s.testRunning .el = false → Ends .seqStart s (fun u => u.seqState .el = 3 ∧ u.pc .el = (s.seq .el).entry % 65536
          ∧ u.reg .el Reg.SEQ_STEP_CUR_CUR.off = s.reg .el Reg.SEQ_STEP_NEXT.off ∧ u.reg .el Reg.SEQ_STEP_NEXT.off = s.reg .el Reg.SEQ_STEP_NEXT.off + 1
          ∧ (∀ r, u.greg .el r = 0) ∧ (∀ c < 8, u.flag .el c = false) ∧ (∀ k, u.cntView k = 0 ∧ u.cntAbs k = s.cntAbs k) ∧ (u.seq .el).tStep = s.tbNow .el 0))
        ∧ ((st = 2 ∧ s.testRunning .el = true) ∨ st = 3 ∨ st = 4 →
          exec .seqStart s = .next (s.modSeq .el (fun q => { q with heldStarts := q.heldStarts ++ [s.tbNow .el 0] })))
        ∧ (st = 0 ∨ st = 1 ∨ st = 5 → Ends .seqStart s (fun u => u.seqState .el = st ∧ Logged .el s u missed)))
      ∧ (s.guardActive .el = true ∨ s.bit .el Reg.HC_STAT_ROLLBACK = true ∨ s.bit .el Reg.SEQ_RUNCFG_LSI_VALID = false ∨ s.get .el Reg.HC_STAT_STATE = 6 →
        Ends .seqStart s (fun u => u.seqState .el = st ∧ Logged .el s u missed)))
    ∧ (s.seqState .ux = 2 → Ends .tseqStart s (fun u => u.seqState .ux = 3 ∧ u.pc .ux = (s.seq .ux).entry % 65536 ∧ (∀ r, u.greg .ux r = 0) ∧ (∀ c < 8, u.flag .ux c = false)
        ∧ u.get .ux Reg.SEQ_SLIPS_STEP = 0 ∧ u.get .ux Reg.SEQ_LATE_SLACK_MIN = 0xFFFFFFFF ∧ u.el = s.el ∧ u.ux.tc = s.ux.tc ∧ u.ux.base.events = s.ux.base.events))
    ∧ (s.seqState .ux ≠ 2 → Goes .tseqStart s s .ux [(0x41, 0x8089, s.pc .ux, s.seqState .ux)]))

/-! ### Counters, watches, landing queue (chapter 7) -/

/-- Increments (R171, R203, R204, R209, R217, R499): one adds to its counter and no other, saturates at 2^40 - 1 with SAT and 0x3001, and checks the pairs of its counter: a consumer ahead is 0x3002, a producer beyond its capacity 0x3003. An engine may add 1 to 65,535 to a counter of its own core; any other request answers an error, with 0x3004 where it names another core. The deadlock detector reports once until a counter changes, and in RUN not at all. Where no rule speaks it follows the readings of the model in log 17. -/
def Obligations.Increments : Prop :=
  ∀ (c core : BitVec 8) (eng : Fin 8) (k : BitVec 6) (amt : BitVec 40) (i n : Nat) (pr : Pair) (s : State),
    let here := s.csHere c.toNat eng
    let key := cntKey core.toNat k.toNat
    let x := s.cntAbs i
    let u := (s.incRaw [(i, n)]).1
    let after := fun j => if j = i then min (x + n) cntTop else s.cntAbs j
    let a := after (cntKey pr.core pr.prod)
    let b := after (cntKey pr.core pr.cons)
    (x ≤ cntTop → (∀ j, u.cntAbs j = after j) ∧ (cntTop < x + n → n ≠ 0 → u.bit .el Reg.SYNC_STAT_SAT = true ∧ ∃ es, Logged .el s u ((0x03, 0x3001, cntObj i, x + n - cntTop) :: es))
      ∧ (x + n ≤ cntTop → (s.seq .el).pairs = [] → Logged .el s u [] ∧ RegsBut [] s u))
    ∧ (x + n ≤ cntTop → n ≠ 0 → (s.seq .el).pairs = [pr] → i = cntKey pr.core pr.prod ∨ i = cntKey pr.core pr.cons →
        ((s.incRaw [(i, n)]).2 = true ↔ a < b ∨ pr.cap < a - b)
        ∧ (a < b → u.bit .el Reg.SYNC_STAT_PAIR_UNDER = true ∧ Logged .el s u [(0x03, 0x3002, cntObj (cntKey pr.core pr.prod), unsigned 64 ((a : Int) - b))])
        ∧ (b ≤ a → pr.cap < a - b → u.bit .el Reg.SYNC_STAT_PAIR_OVER = true ∧ Logged .el s u [(0x03, 0x3003, cntObj (cntKey pr.core pr.prod), a - b)]))
    ∧ (here = false → exec (.csInc c eng core k amt) s = .next (s.csAnswer false))
    ∧ (here = true → core ≠ c → Ends (.csInc c eng core k amt) s (fun t => t.el.ports.csOk = false ∧ t.el.counters = s.el.counters ∧ t.bit .el Reg.SYNC_STAT_CROSS_CORE = true
        ∧ Logged .el s t [(0x03, 0x3004, cntObj key, c.toNat)]))
    ∧ (here = true → core = c → s.cntHas core.toNat k.toNat = true → 1 ≤ amt.toNat → amt.toNat ≤ 65535 → exec (.csInc c eng core k amt) s = .next ((s.csAnswer true).incAll [(key, amt.toNat)]))
    ∧ (here = true → core = c → s.cntHas core.toNat k.toNat = false ∨ amt = 0 ∨ 65535 < amt.toNat → exec (.csInc c eng core k amt) s = .next (s.csAnswer false))
    ∧ (s.waiters = 0 ∨ s.el.dldLogged = true → exec .deadlock s = .next s)
    ∧ (s.runMode = 0 → s.waiters ≠ 0 → s.el.dldLogged = false → exec .deadlock s = .next (s.modEl (fun e => { e with dldLogged := true })))
    ∧ (x ≤ cntTop → n ≠ 0 → u.el.dldLogged = false)
    ∧ (s.runMode ≠ 0 → s.waiters ≠ 0 → s.el.dldLogged = false → Ends .deadlock s (fun t => t.bit .el Reg.SYNC_STAT_DEADLOCK = true ∧ t.el.dldLogged = true
        ∧ t.get .el Reg.SYNC_DLDSNAP_WAITERS = s.waiters % 8192 ∧ Logged .el s t [(0x03, 0x3020, 0, s.waiters)]))

/-- A write of EL_SYNC_HINC (R206): in MODE STARTUP or TEST it adds AMT to the named counter and to no other; in another mode, or where it names a reserved counter, it is ignored and logged as 0x3005. -/
def Obligations.HostIncrements : Prop :=
  ∀ (v : Word) (s : State),
    let core := fget v 63 56
    let k := fget v 55 50
    let amt := fget v 39 0
    let key := cntKey core k
    let open' := s.runMode = 1 ∨ s.runMode = 2
    (open' → s.cntHas core k = true → exec (.hincWrite v) s = .next (s.incAll [(key, amt)]))
    ∧ (open' → s.cntHas core k = true → s.cntAbs key + amt ≤ cntTop → (s.seq .el).pairs = [] →
        Ends (.hincWrite v) s (fun u => ∀ j, u.cntAbs j = if j = key then s.cntAbs j + amt else s.cntAbs j))
    ∧ (¬ open' ∨ s.cntHas core k = false → Goes (.hincWrite v) s s .el [(0x03, 0x3005, cntObj key, amt)])

/-- Watches and clock gates (R210 to R215, R218, R500, R501): registering on an IDLE entry arms it and asks for the engine's clock gate; a target already reached fires at once, with EQUAL where it is met exactly; on an ARMED entry only 0x3011 happens. Releasing an ARMED one sends a CANCEL wake, a timeout a TIMEOUT wake with 0x3010. WAKE_SEND presents the next wake of a core and drops GATE_REQ. A reset of an engine returns its entries to IDLE without a wake. -/
def Obligations.Watches : Prop :=
  ∀ (c core : BitVec 8) (eng : Fin 8) (k : BitVec 6) (target : BitVec 40) (eq level : Bool) (w : BitVec 12) (s : State),
    let here := s.csHere c.toNat eng
    let key := cntKey core.toNat k.toNat
    let x := s.watchAt w.toNat
    let g := s.gate c.toNat eng
    let reg := Instr.csWreg c eng core k target eq w
    let wake := fun (kind : Nat) (e : Bool) => ({ core := x.core, eng := x.eng, kind := kind, equal := e, widx := w.toNat } : Wake)
    (here = false ∨ (core = c ∧ (s.cntHas core.toNat k.toNat = false ∨ s.el.lic.watches ≤ w.toNat)) → exec reg s = .next (s.csAnswer false))
    ∧ (here = true → core ≠ c → Ends reg s (fun u => u.el.ports.csOk = false ∧ u.el.watches = s.el.watches ∧ u.bit .el Reg.SYNC_STAT_CROSS_CORE = true
        ∧ Logged .el s u [(0x03, 0x3004, cntObj key, c.toNat)]))
    ∧ (here = true → core = c → s.cntHas core.toNat k.toNat = true → w.toNat < s.el.lic.watches →
        (x.armed = true → Ends reg s (fun u => u.el.ports.csOk = false ∧ u.el.watches = s.el.watches ∧ u.el.wakeQ = s.el.wakeQ ∧ Logged .el s u [(0x03, 0x3011, cntObj key, w.toNat)]))
        ∧ (x.armed = false → s.cntView key < target.toNat → Ends reg s (fun u => u.el.ports.csOk = true ∧ u.el.wakeQ = s.el.wakeQ ∧ (g.ack = false → (u.gate c.toNat eng).req = true)
            ∧ u.watchAt w.toNat = { x with armed := true, owner := true, eq := eq, eng := eng, core := core.toNat, k := k.toNat, target := target.toNat }))
        ∧ (x.armed = false → target.toNat ≤ s.cntView key → Ends reg s (fun u => u.el.ports.csOk = true ∧ (u.watchAt w.toNat).armed = false ∧ (g.ack = false → (u.gate c.toNat eng).req = true)
            ∧ u.el.wakeQ = s.el.wakeQ ++ [{ core := core.toNat, eng := eng, kind := 0, equal := eq && s.cntView key == target.toNat, widx := w.toNat }])))
    ∧ (here = false ∨ s.el.lic.watches ≤ w.toNat → exec (.csWrel c eng w) s = .next (s.csAnswer false))
    ∧ (here = true → w.toNat < s.el.lic.watches →
        (x.armed = false → exec (.csWrel c eng w) s = .next (s.csAnswer true))
        ∧ (x.armed = true → Ends (.csWrel c eng w) s (fun u => u.el.ports.csOk = true ∧ (u.watchAt w.toNat).armed = false ∧ u.el.wakeQ = s.el.wakeQ ++ [wake 2 false] ∧ RegsBut [] s u)))
    ∧ (x.armed = false → exec (.watchTimeout w) s = .next s)
    ∧ (x.armed = true → Ends (.watchTimeout w) s (fun u => (u.watchAt w.toNat).armed = false ∧ u.el.wakeQ = s.el.wakeQ ++ [wake 1 false] ∧ u.bit .el Reg.SYNC_STAT_WATCH_TMO = true
        ∧ u.el.counters = s.el.counters ∧ Logged .el s u [(0x03, 0x3010, cntObj (cntKey x.core x.k), x.target)]))
    ∧ (s.el.wakeQ.find? (fun y => y.core == core.toNat) = none → exec (.wakeSend core) s = .next s)
    ∧ (∀ y, s.el.wakeQ.find? (fun y => y.core == core.toNat) = some y → Ends (.wakeSend core) s (fun u =>
        u.el.wakeQ = s.el.wakeQ.erase y ∧ u.el.ports.wakes.find? (fun z => z.core == core.toNat) = some y ∧ (u.gate core.toNat y.eng).req = false ∧ RegsBut [] s u))
    ∧ Ends (.engRst c eng) s (fun u => (u.gate c.toNat eng).rst = true ∧ (u.gate c.toNat eng).req = false ∧ u.el.wakeQ = s.el.wakeQ ∧ u.el.counters = s.el.counters
        ∧ (x.armed = true → x.core = c.toNat → x.eng = eng → (u.watchAt w.toNat).armed = false))
    ∧ Ends (.gateAck c eng level) s (fun u => (u.gate c.toNat eng).ack = level ∧ RegsBut [] s u ∧ u.el.watches = s.el.watches
        ∧ (level = true → (u.gate c.toNat eng).req = g.req)
        ∧ (level = false → g.rst = false → x.armed = true → x.core = c.toNat → x.eng = eng → (u.gate c.toNat eng).req = true))
    ∧ exec (.engRstLow c eng) s = .next (s.setGate c.toNat eng { g with rst := false })

/-- The landing queue (R219 to R224, R503 to R505): an announcement for a missing counter is refused with 0x3033, a second copy is accepted once, a full queue is busy with 0x3030 the first time, and any other takes an entry. The sender repeats a busy one, and times out. An entry that waits too long is logged once. A change notice claims the oldest entry of its source; a grant releases its entry and adds its amount; a refusal keeps it. -/
def Obligations.LandingQueue : Prop :=
  ∀ (m : AnnMsg) (id : Nat) (tag : Fin 512) (src : BitVec 20) (grant : Bool) (o : QOp) (l : LandEntry) (s : State),
    let has := s.cntHas m.rcore.toNat m.rk.toNat
    let seen := s.el.landSeen.contains (m.src, m.ident)
    let claimed := s.el.ports.claims.any (fun c => c.2.2 == tag.val)
    let left := s.el.ports.claims.filter (fun c => c.2.2 != tag.val)
    (has = false → Goes (.annMessage m) s s .el [(0x03, 0x3033, cntObj (cntKey m.rcore.toNat m.rk.toNat), m.src.toNat)])
    ∧ (has = true → seen = true → exec (.annMessage m) s = .next (s.annAnswer m 0))
    ∧ (has = true → seen = false → s.el.land.length < 512 → s.queueOn .barrier = true → ∀ t, s.landTag = some t → Ends (.annMessage m) s (fun u =>
        u.el.land = s.el.land ++ [{ tag := t, src := m.src, step := m.step, bytes := m.bytes.toNat, rcore := m.rcore.toNat, rk := m.rk.toNat, ramt := m.ramt.toNat, tmoLogged := false }]
        ∧ u.get .el Reg.SYNC_LANDQ_LEVEL = s.el.land.length + 1 ∧ u.el.counters = s.el.counters ∧ Logged .el s u []))
    ∧ (has = true → seen = false → s.el.land.length < 512 → s.queueOn .barrier = false ∨ s.landTag = none → exec (.annMessage m) s = .next (s.annAnswer m 2))
    ∧ (has = true → seen = false → 512 ≤ s.el.land.length →
        (s.el.landFull = true → exec (.annMessage m) s = .next (s.annAnswer m 2))
        ∧ (s.el.landFull = false → Ends (.annMessage m) s (fun u => u.el.landFull = true ∧ u.el.land = s.el.land ∧ Logged .el s u [(0x03, 0x3030, m.src.toNat, m.src.toNat)])))
    ∧ (s.findOp .el id = none → exec (.annResend id) s = .next s ∧ exec (.annTimeout id) s = .next s)
    ∧ (s.findOp .el id = some o →
        (o.started = false ∨ (∀ d x, o.kind ≠ .ann d x) → exec (.annResend id) s = .next s ∧ exec (.annTimeout id) s = .next s)
        ∧ (∀ d x, o.started = true → o.kind = .ann d x → exec (.annResend id) s = .next (s.sendUp .el (.ann d x)) ∧ exec (.annTimeout id) s = .next (s.endFail .el o stTimeout)))
    ∧ (s.el.land.find? (fun x => x.tag == tag.val) = none → exec (.landTimeout tag) s = .next s)
    ∧ (s.el.land.find? (fun x => x.tag == tag.val) = some l →
        (l.tmoLogged = true → exec (.landTimeout tag) s = .next s)
        ∧ (l.tmoLogged = false → Ends (.landTimeout tag) s (fun u => u.el.land.length = s.el.land.length ∧ (∀ y ∈ u.el.land, y.tag = tag.val → y.tmoLogged = true)
          ∧ RegsBut [] s u ∧ Logged .el s u [(0x03, 0x3031, l.src.toNat, l.src.toNat % 2 ^ 16 * 2 ^ 48 + l.bytes % 2 ^ 48)])))
    ∧ (s.landOldest src = none → exec (.idcChangeNotice src) s = .next s)
    ∧ (s.landOldest src = some l → s.el.ports.reclaim = [] →
        (s.el.ports.idcClear = false → s.el.ports.claims.length < 16 → s.el.ports.claims.any (fun c => c.1 == src) = false → l.step.toNat ≤ s.stepCur →
          Ends (.idcChangeNotice src) s (fun u => u.el.ports.claims = s.el.ports.claims ++ [(src, l.bytes, l.tag)] ∧ u.el.ports.reclaim = [] ∧ u.el.land = s.el.land ∧ RegsBut [] s u))
        ∧ (s.el.ports.idcClear = true ∨ 16 ≤ s.el.ports.claims.length ∨ s.el.ports.claims.any (fun c => c.1 == src) = true ∨ s.stepCur < l.step.toNat →
          Ends (.idcChangeNotice src) s (fun u => u.el.ports.claims = s.el.ports.claims ∧ u.el.ports.reclaim = [src] ∧ u.el.land = s.el.land ∧ RegsBut [] s u)))
    ∧ (claimed = false → exec (.idcAnswer tag grant) s = .next s)
    ∧ (claimed = true → s.el.ports.reclaim = [] → grant = false ∨ s.el.land.find? (fun x => x.tag == tag.val) = none →
        exec (.idcAnswer tag grant) s = .next (s.modEl (fun e => { e with ports := { e.ports with claims := left } })))
    ∧ (claimed = true → s.el.land.find? (fun x => x.tag == tag.val) = some l → (s.seq .el).pairs = [] → s.cntAbs (cntKey l.rcore l.rk) ≤ cntTop →
        Ends (.idcAnswer tag true) s (fun u => u.el.land = s.el.land.filter (fun y => y.tag != l.tag)
          ∧ ∀ j, u.cntAbs j = if j = cntKey l.rcore l.rk then min (s.cntAbs j + (l.ramt + 1)) cntTop else s.cntAbs j))
    ∧ (s.el.ports.idcClear = false → exec .idcClearAck s = .next s)
    ∧ (s.el.ports.idcClear = true → Ends .idcClearAck s (fun u => u.el.ports.idcClear = false ∧ u.el.land = s.el.land ∧ u.el.counters = s.el.counters ∧ RegsBut [] s u))
/-! ### Barriers and launches (chapter 7) -/

/-- Barriers at a die (R204, R226, R227, R231, R499, R534, R535): a core arrives once a generation, and only where its group does, else 0x3043; a complete level releases itself at scope 0 and else sends one arrival up. A release closes the generation: GEN advances and the counter of each arrived core and of the BAR advances. A refusal closes it with 0x3043 and without release; a timeout ends the BAR with 0x3040 and keeps the arrival; a release whose generation is not the one that awaits it is 0x3044, and a refusal of such a one closes nothing (R535). Where no rule speaks it follows the readings of the model in log 69. -/
def Obligations.DieBarriers : Prop :=
  ∀ (c core bid : BitVec 8) (eng : Fin 8) (k : BitVec 6) (gen : BitVec 16) (pos : Option (Fin 128)) (o : QOp) (s : State),
    let b := bid.toNat
    let x := s.bar b
    let here := s.csHere c.toNat eng
    let arrive := Instr.csArrive c eng core k bid
    let shown := s.get .el (Reg.BAR_GEN b)
    let awaited := x.sentUp = true ∧ shown % 65536 = gen.toNat
    let closed := fun (u : State) => u.get .el (Reg.BAR_GEN b) = (shown + 1) % 65536 ∧ u.bit .el (Reg.BAR_SEQ_ARR b) = false ∧ u.get .el (Reg.BAR_SCOPE b) = 0 ∧ u.bar b = Bar.zero
    let released := fun (u : State) => closed u ∧ (∀ j, u.cntAbs j = min (s.cntAbs j + (x.cores.countP (fun e => cntKey e.1 e.2 == j) + (match s.barOp b with | some q => if q.key = j then q.amt else 0 | none => 0))) cntTop)
      ∧ (∀ q, s.barOp b = some q → u.findOp .el q.id = none)
    (here = false ∨ (core = c ∧ s.cntHas core.toNat k.toNat = false) → exec arrive s = .next (s.csAnswer false))
    ∧ (here = true → core ≠ c → Ends arrive s (fun u => u.el.ports.csOk = false ∧ u.el.bars = s.el.bars ∧ Logged .el s u [(0x03, 0x3004, cntObj (cntKey core.toNat k.toNat), c.toNat)]))
    ∧ (here = true → core = c → s.cntHas core.toNat k.toNat = true →
        (x.cores.any (fun e => e.1 == c.toNat) = true ∨ s.barCore b c.toNat = false → Goes arrive s (s.csAnswer false) .el [(0x03, 0x3043, b, shown)])
        ∧ (x.cores.any (fun e => e.1 == c.toNat) = false → s.barCore b c.toNat = true → exec arrive s = .next ((s.setBar b { x with cores := x.cores ++ [(c.toNat, k.toNat)] }).csAnswer true)))
    ∧ (s.barComplete b = false ∨ x.sentUp = true → exec (.barLocalComplete bid) s = .next s)
    ∧ (s.barComplete b = true → x.sentUp = false →
        (s.get .el (Reg.BAR_SCOPE b) ≠ 0 → exec (.barLocalComplete bid) s = .next ((s.setBar b { x with sentUp := true }).sendUp .el (.barArrival bid (BitVec.ofNat 16 shown) (s.get .el (Reg.BAR_SCOPE b)) none)))
        ∧ (s.get .el (Reg.BAR_SCOPE b) = 0 → (s.seq .el).pairs = [] → s.seqState .el ≠ 4 → (∀ j, s.cntAbs j ≤ cntTop) → Ends (.barLocalComplete bid) s released))
    ∧ (awaited → (s.seq .el).pairs = [] → s.seqState .el ≠ 4 → (∀ j, s.cntAbs j ≤ cntTop) → Ends (.barRelease .el bid ⟨gen, pos⟩) s released)
    ∧ (¬ awaited → Goes (.barRelease .el bid ⟨gen, pos⟩) s s .el [(0x03, 0x3044, b, gen.toNat)] ∧ exec (.barRefusal .el bid ⟨gen, pos⟩) s = .next s)
    ∧ (awaited → s.seqState .el ≠ 4 → Ends (.barRefusal .el bid ⟨gen, pos⟩) s (fun u => closed u ∧ u.el.counters = s.el.counters ∧ ∃ es, Logged .el s u ((0x03, 0x3043, b, shown) :: es)))
    ∧ (s.barOp b = none → exec (.barTimeout bid) s = .next s)
    ∧ (s.barOp b = some o → s.seqState .el ≠ 4 → Ends (.barTimeout bid) s (fun u => u.bar b = { x with qid := none, timedOut := true } ∧ u.findOp .el o.id = none
        ∧ u.reg .el (Reg.BAR_GEN b).off = s.reg .el (Reg.BAR_GEN b).off ∧ u.el.counters = s.el.counters ∧ Logged .el s u [(0x03, 0x3040, b, shown), (0x01, 0x8083, o.pc, 6)]))

/-- Barriers at a node (R110, R228 to R232, R314, R534, R535): the first arrival of a generation fixes its scope and the downlinks it expects, another scope is refused back by its path, an arrival that comes again takes effect once, and one of a die admitted meanwhile, or after the node's own arrival went up, is counted in the next generation. A complete generation is released down at a node its scope reaches, else one arrival goes up. A release and a refusal of the generation that awaits them close it and GEN advances; another release is 0x3044; a timeout is 0x3042 with the arrivals missing. A leaf of the other plane relays arrivals with the die's position and passes releases and refusals back to it, and a leaf absorbs the arrivals of a lock-step shadow. Where no rule speaks it follows the readings of the model in logs 34, 37 and 69. -/
def Obligations.NodeBarriers : Prop :=
  ∀ (lane : Fin 160) (pos : Fin 128) (bid : BitVec 8) (scope : Fin 4) (gen : BitVec 16) (s : State),
    let b := bid.toNat
    let n := s.node b
    let a : BarArr := { pos := if lane.val < 128 then lane.val else pos.val, gen := gen, scope := scope, relayed := decide (128 ≤ lane.val) }
    let arrive := Instr.barNodeArrival lane pos ⟨bid, gen, scope⟩
    let t := if 128 ≤ lane.val then s.relayNote a.pos else s
    let n' : BarNode := { n with last := tput 0 n.last a.pos (gen.toNat + 1) }
    let counted := fun (t : State) (m : BarNode) => m.sentUp = false →
      (m.full = false → exec arrive s = .next (t.setNode b m))
      ∧ (m.full = true → s.tier + 1 < scope → exec arrive s = .next ((t.setNode b { m with sentUp := true }).sendUp .ux (.barArrival bid (BitVec.ofNat 16 m.gen) scope none)))
      ∧ (m.full = true → scope ≤ s.tier + 1 → m.next = [] → Ends arrive s (fun u => u.node b = { BarNode.zero with gen := m.gen + 1, last := m.last } ∧ (m.qid = none → u.el = s.el)))
    (s.absorbed lane = true → exec arrive s = .next s)
    ∧ (s.absorbed lane = false → s.relays = true → exec arrive s = .next ((s.relayNote a.pos).toTwin (.barArrival bid gen scope (some a.pos))))
    ∧ (s.absorbed lane = false → s.relays = false →
        (tget 0 n.last a.pos = gen.toNat + 1 → exec arrive s = .next s)
        ∧ (tget 0 n.last a.pos ≠ gen.toNat + 1 →
          (n.isOpen = false → counted t.draw.2 { n' with isOpen := true, scope := scope, expect := t.expectPorts, arrived := [a] })
          ∧ (n.isOpen = true → n.scope ≠ scope → exec arrive s = .next ((t.setNode b n').barBack a (.barRefusal bid)))
          ∧ (n.isOpen = true → n.scope = scope →
            (n.arrived.any (fun x => x.pos == a.pos) = true → exec arrive s = .next (t.setNode b n'))
            ∧ (n.arrived.any (fun x => x.pos == a.pos) = false →
              (n.sentUp = true ∨ (n.expect.contains a.pos = false ∧ s.memberPorts.contains a.pos = true) → exec arrive s = .next (t.setNode b { n' with next := n.next ++ [a] }))
              ∧ (n.sentUp = false → n.expect.contains a.pos = true ∨ s.memberPorts.contains a.pos = false → counted t { n' with arrived := n.arrived ++ [a] })))))
    ∧ (∀ x, s.relays = true → exec (.barRelease .ux bid ⟨gen, some x⟩) s = .next (s.send .ux x (.barRelease bid gen none))
        ∧ exec (.barRefusal .ux bid ⟨gen, some x⟩) s = .next (s.send .ux x (.barRefusal bid gen none)))
    ∧ (∀ y, s.relays = false ∨ y = none →
        (n.isOpen = true → n.sentUp = true → n.gen % 65536 = gen.toNat → n.next = [] →
          Ends (.barRelease .ux bid ⟨gen, y⟩) s (fun u => u.node b = { BarNode.zero with gen := n.gen + 1, last := n.last } ∧ (n.qid = none → u.el = s.el))
          ∧ Ends (.barRefusal .ux bid ⟨gen, y⟩) s (fun u => u.node b = { BarNode.zero with gen := n.gen + 1, armed := n.armed, qid := n.qid, last := n.last } ∧ u.el = s.el ∧ RegsBut [] s u ∧ u.ux.tc = s.ux.tc))
        ∧ (n.isOpen = false ∨ n.sentUp = false ∨ n.gen % 65536 ≠ gen.toNat →
          Goes (.barRelease .ux bid ⟨gen, y⟩) s s .ux [(0x4C, 0x3044, b, gen.toNat)] ∧ exec (.barRefusal .ux bid ⟨gen, y⟩) s = .next s))
    ∧ (n.isOpen = true → n.sentUp = false → Ends (.barNodeTimeout bid) s (fun u => u.node b = { n with qid := none } ∧ (n.qid = none → u.el = s.el) ∧ ∃ es, Logged .ux s u ((0x4C, 0x3042, b, n.missing) :: es)))
    ∧ (n.isOpen = false ∨ n.sentUp = true → exec (.barNodeTimeout bid) s = .next s)

/-- Launch requests (R230, R234 to R236, R314, R318, R344): below the root a request goes up, from a leaf of the other plane over its twin. The root accepts one whose T lies D_launch ahead, whose identity waits for no launch and, for a step start, within LAG of the last seal: it waits, and a step start advances SEAL_NEXT. An accepted launch consumes a VC1 credit of each downlink it goes to. It refuses with 0x6007 while the gate is closed, 0x5021 beyond LAG, 0x3051 for an identity in use, and answers LATE with 0x3051 for a T too near; a request that arrives again while its launch is held has no further effect (R110). D_launch is the largest delay below plus the hops and the guard. Launches at a die (R150, R237, R238, R329): one whose T lies ahead is held, in place of an earlier one of its identity; one whose T has passed fires at once with 0x3050. a launch message that arrives again has no effect (R110). Firing asserts the armed groups, and a step start starts the step of a READY die. An EXPELLED die takes and fires none; a node passes a launch down to its members, and over the twin to the dies it relays for (R230). Where no rule speaks it follows the readings of the model in logs 69 and 105. -/
def Obligations.Launches : Prop :=
  (∀ (m : LaunchMsg) (lane : Fin 160) (reports : List (Fin 160 × BitVec 32)) (s : State),
    let request := Instr.launchRequest m lane
    let next := s.reg .ux Reg.UX_SEAL_NEXT_NEXT.off
    let now := s.tbNow .ux 0
    let closed := s.bit .ux Reg.UX_HC_STAT_GATE_CLOSED
    let ahead := decide (s.get .ux Reg.UX_SEAL_CTRL_LAG < (next - s.reg .ux Reg.UX_SEAL_STAT_LAST.off).toNat)
    let used := s.pendingLaunches.any (fun l => l.lid == m.lid)
    let late := s.tbState .ux 0 = 0 ∨ m.t < now + psHxt s.dLaunch
    let diff := unsigned 64 (psOf ((m.t : Int) - (now : Int)))
    let asked := s.learnPort lane m.lsi.toNat
    let refused := fun (e : Entry) => Ends request s (fun u => u.ux.pending = s.ux.pending ∧ RegsBut [(.ux, Reg.UX_LAUNCH_CNT_REFUSED.off)] s u ∧ u.el = s.el
      ∧ u.get .ux Reg.UX_LAUNCH_CNT_REFUSED = min (s.get .ux Reg.UX_LAUNCH_CNT_REFUSED + 1) (2 ^ 32 - 1) ∧ Logged .ux s u [e])
    let rep := (reports.map (fun r => (r.1.val, r.2.toNat))).foldl (fun t r => tput 0 t r.1 r.2) s.ux.downRep
    let most := (s.memberPorts.map (fun x => s.get .ux (Reg.LANE_DELAY_D_PS (laneBlk .ux x)) + (if s.tier = 0 then 0 else tget 0 rep x))).foldl max 0
    (s.absorbed lane = true → exec request s = .next s)
    ∧ (s.absorbed lane = false → s.tier ≠ 2 → exec request s = .next (if s.relays then (asked.relayNote lane).toTwin (.launchReq m) else asked.sendUp .ux (.launchReq m)))
    ∧ (s.absorbed lane = false → s.tier = 2 → s.ux.pending.contains m = true → Ends request s (fun u => u.ux.pending = s.ux.pending ∧ RegsBut [] s u ∧ u.el = s.el ∧ Logged .ux s u []))
    ∧ (s.absorbed lane = false → s.tier = 2 → s.ux.pending.contains m = false →
        (closed = true → refused (0x42, 0x6007, m.lid.toNat, m.lsi.toNat))
        ∧ (closed = false → m.start = true → ahead = true → refused (0x4C, 0x5021, lane.val, next.toNat))
        ∧ (closed = false → m.start = false ∨ ahead = false → used = true ∨ late → refused (0x4C, 0x3051, m.lid.toNat, diff))
        ∧ (closed = false → m.start = false ∨ ahead = false → used = false → ¬ late → Ends request s (fun u =>
            u.ux.pending = s.pendingLaunches ++ [m] ∧ u.reg .ux Reg.UX_SEAL_NEXT_NEXT.off = (if m.start then next + 1 else next) ∧ u.ux.launched = true ∧ u.el = s.el
            ∧ (∀ x ∈ s.memberPorts, s.laneState .ux x = 4 → u.credit .ux x 1 = s.credit .ux x 1 - 1)
            ∧ RegsBut ([(.ux, Reg.UX_SEAL_NEXT_NEXT.off), (.ux, Reg.UX_LAUNCH_CNT_ACCEPTED.off)] ++ s.memberPorts.map (fun x => (Part.ux, (Reg.LANE_CRED_CREDITS (laneBlk .ux x)).off))) s u
            ∧ Logged .ux s u [])))
    ∧ Ends (.dlaunchRecompute reports) s (fun u => u.ux.downRep = rep ∧ u.el = s.el ∧ RegsBut [(.ux, Reg.UX_LAUNCH_DL_D_LAUNCH.off)] s u ∧ Logged .ux s u []
        ∧ (s.tier = 2 → u.get .ux Reg.UX_LAUNCH_DL_DOWN_MAX = (most + 330000) % 2 ^ 32
          ∧ u.dLaunch = (most + 330000 + 1000 * s.get .ux Reg.UX_LAUNCH_CTRL_GUARD) % 2 ^ 32)))
  ∧ (∀ (lid : BitVec 8) (m : LaunchMsg) (s : State),
    let past := s.tbState .el 0 ≠ 0 ∧ m.t < s.tbNow .el 0
    let rest := s.el.launches.filter (fun l => l.lid != m.lid)
    let out := s.el.ports.launch ||| BitVec.ofNat 16 (m.gmask.toNat &&& s.launchArm m.lid.toNat)
    let ready := s.guardActive .el = false ∧ s.bit .el Reg.HC_STAT_ROLLBACK = false ∧ s.bit .el Reg.SEQ_RUNCFG_LSI_VALID = true ∧ s.seqState .el = 2 ∧ s.testRunning .el = false
    let fired := fun (c : Instr) => Ends c s (fun u => u.el.ports.launch = out ∧ u.el.launches = rest
      ∧ (m.start = false → RegsBut [] s u) ∧ (m.start = true → ready → u.seqState .el = 3 ∧ u.reg .el Reg.SEQ_STEP_CUR_CUR.off = s.reg .el Reg.SEQ_STEP_NEXT.off ∧ (u.seq .el).tStep = m.t))
    let seen := tget 0 s.el.launchSeen m.lid.toNat = m.t + 1
    let below := s.sendDown s.memberPorts (.launch m)
    exec (.launchMessage ⟨.ux, m⟩) s = .next (if s.ux.relayFrom.isEmpty then below else below.toTwin (.launch m))
    ∧ (s.expelled = true ∨ seen → exec (.launchMessage ⟨.el, m⟩) s = .next s)
    ∧ (s.expelled = true → exec (.launchFire lid) s = .next s)
    ∧ (s.expelled = false → ¬ seen → ¬ past → Ends (.launchMessage ⟨.el, m⟩) s (fun u => u.el.launches = rest ++ [m] ∧ u.el.ports = s.el.ports ∧ RegsBut [] s u ∧ Logged .el s u []))
    ∧ (s.expelled = false → ¬ seen → past → fired (.launchMessage ⟨.el, m⟩)
        ∧ Ends (.launchMessage ⟨.el, m⟩) s (fun u => ∃ es, Logged .el s u ((0x03, 0x3050, m.lid.toNat, (psOf ((s.tbNow .el 0 : Int) - (m.t : Int))).toNat) :: es)))
    ∧ (s.el.launches.find? (fun l => l.lid == lid) = none → exec (.launchFire lid) s = .next s)
    ∧ (s.el.launches.find? (fun l => l.lid == lid) = some m →
        (s.tbReached .el 0 m.t = false → exec (.launchFire lid) s = .next s)
        ∧ (s.tbReached .el 0 m.t = true → s.expelled = false → fired (.launchFire lid))))

/-! ### Reductions and cross-checks (chapters 8 and 10) -/

/-- Scalar reductions at a node (R198, R239, R261 to R265, R314): a contribution to an open slot joins its values once, each index combined once for each contributor and up to the count the slot expects; a complete slot sends its result up, or at the root down and closes. One of another kind is 0x4010, of another step 0x4011, and both are discarded, as a repeat is. Without a slot it is held, 256 to a cluster, else 0x4013. A result of its step passes down a slot that was sent up, once, and closes it once all of it has passed. A held message expires with 0x4013, a slot or group with 0x3060; at a die the waiting operation ends TIMEOUT. Where no rule speaks it follows the readings of the model in logs 36 and 70. -/
def Obligations.Reductions : Prop :=
  ∀ (m : RedMsg) (lane : Fin 160) (t : Slot) (g : XGroup) (cl : Fin 4) (i key : Nat) (o : QOp) (s : State),
    let c := Instr.reductionContribution m lane
    let rid := m.rid.toNat
    let at' := slotAt s.ux.slots rid
    let fresh : Slot := { t with step := some m.step, seen := t.seen ++ [(m.src, m.first)], ports := if t.ports.contains lane.val then t.ports else t.ports ++ [lane.val] }
    let joined := ((List.range m.vals.length).map (fun j => (m.first.toNat + j, m.vals.getD j 0))).foldl (fun a v => slotValue m.src a v.1 v.2) fresh
    let held := s.ux.held.countP (fun h => laneCluster h.2 == laneCluster lane)
    let mine := (s.ux.held.filter (fun h => laneCluster h.2 == cl.val))[i]?
    (s.absorbed lane = true → exec c s = .next s)
    ∧ (s.absorbed lane = false → 2 < m.kind.toNat → exec c s = .next s.redDiscard)
    ∧ (s.absorbed lane = false → m.kind.toNat ≤ 2 → m.down = false → at' = some t →
        (redMatch t.opk m = false → Goes c s s.redDiscard .ux [(0x4C, 0x4010, rid, m.src.toNat)])
        ∧ (redMatch t.opk m = true → t.step.isSome = true → t.step ≠ some m.step → Goes c s s.redDiscard .ux [(0x4C, 0x4011, rid, m.step.toNat)])
        ∧ (redMatch t.opk m = true → t.step = none ∨ t.step = some m.step →
          (t.sent = true ∨ t.seen.contains (m.src, m.first) = true → exec c s = .next s.redDiscard)
          ∧ (t.sent = false → t.seen.contains (m.src, m.first) = false →
            (joined.full = false → Ends c s (fun u => slotAt u.ux.slots rid = some joined ∧ u.el = s.el ∧ Logged .ux s u []))
            ∧ (joined.full = true → s.tier ≠ 2 → Ends c s (fun u => slotAt u.ux.slots rid = some { joined with sent := true }))
            ∧ (joined.full = true → s.tier = 2 → Ends c s (fun u => slotAt u.ux.slots rid = none)))))
    ∧ (∀ j, j < t.n → m.first.toNat ≤ j → j < m.first.toNat + m.vals.length →
        let v := m.vals.getD (j - m.first.toNat) 0
        let g := tget [] t.given j
        (g.length < t.expect → m.src ∉ g → tget [] joined.given j = g ++ [m.src] ∧ tget 0 joined.vals j = if g = [] then v else redCombine t.opk (tget 0 t.vals j) v)
        ∧ (t.expect ≤ g.length ∨ m.src ∈ g → tget [] joined.given j = g ∧ tget 0 joined.vals j = tget 0 t.vals j))
    ∧ (∀ j, j < m.first.toNat ∨ m.first.toNat + m.vals.length ≤ j → tget [] joined.given j = tget [] t.given j ∧ tget 0 joined.vals j = tget 0 t.vals j)
    ∧ (s.absorbed lane = false → m.kind.toNat ≤ 2 → m.down = false → at' = none →
        (held < 256 → exec c s = .next (s.modUx (fun u => { u with held := u.held ++ [(m, lane.val)] })))
        ∧ (256 ≤ held → Goes c s s.redDiscard .ux [(0x4C, 0x4013, rid, m.src.toNat)]))
    ∧ (s.absorbed lane = false → m.kind.toNat ≤ 2 → m.down = true →
        (at' = none → exec c s = .next s.redDiscard)
        ∧ (at' = some t → t.sent = false ∨ t.step ≠ some m.step ∨ t.downs.contains (m.src, m.first) = true → exec c s = .next s.redDiscard)
        ∧ (at' = some t → t.sent = true → t.step = some m.step → t.downs.contains (m.src, m.first) = false → Ends c s (fun u =>
          slotAt u.ux.slots rid = (if t.n ≤ t.down + m.vals.length then none else some { t with down := t.down + m.vals.length, downs := t.downs ++ [(m.src, m.first)] })
          ∧ u.el = s.el ∧ Logged .ux s u [])))
    ∧ (mine = none → exec (.slotHeldExpiry cl i) s = .next s)
    ∧ (∀ h, mine = some h → Goes (.slotHeldExpiry cl i) s (s.modUx (fun u => { u with held := u.held.erase h })).redDiscard .ux [(0x4C, 0x4013, h.1.rid.toNat, h.1.src.toNat)])
    ∧ (s.findOp .el key = none → exec (.slotTimeout .el key) s = .next s)
    ∧ (s.findOp .el key = some o →
        (o.started = true → (∃ r n a x, o.kind = .spass r n a x) ∨ (∃ r n a, o.kind = .ssum r n a) ∨ (∃ r f e, o.kind = .xchk r f e) → exec (.slotTimeout .el key) s = .next (s.endOp o stTimeout))
        ∧ (o.started = false → exec (.slotTimeout .el key) s = .next s))
    ∧ (slotAt s.ux.slots key = some t →
        (t.sent = true ∨ t.seen = [] → exec (.slotTimeout .ux key) s = .next s)
        ∧ (t.sent = false → t.seen ≠ [] → Ends (.slotTimeout .ux key) s (fun u => slotAt u.ux.slots key = none ∧ ∃ es, Logged .ux s u ((0x4C, 0x3060, key, t.expect - t.heard) :: es))))
    ∧ (slotAt s.ux.slots key = none → groupAt s.ux.groups key = some g →
        (g.sent = true ∨ g.got = [] → exec (.slotTimeout .ux key) s = .next s)
        ∧ (g.sent = false → g.got ≠ [] → Ends (.slotTimeout .ux key) s (fun u => groupAt u.ux.groups key = none
          ∧ ∃ es, Logged .ux s u ((0x4C, 0x3060, key, g.expect.countP (fun x => !g.got.any (fun c => c.1 == x))) :: es))))
    ∧ (slotAt s.ux.slots key = none → groupAt s.ux.groups key = none → exec (.slotTimeout .ux key) s = .next s)

/-- Cross-checks (R198, R305, R307, R308, R312, R314): a node takes one contribution from each downlink and sends its histogram up once those it expects are in, or at the root closes with the verdict; others are discarded. The broadcast closes a group that was sent up. At a die an XCHK compares the contribution it sent: one that agrees with the majority ends OK; one in the minority is 0x5004, one without a majority 0x5005, and both are check failures. Where no rule speaks it follows the readings of the model in log 34. -/
def Obligations.CrossChecks : Prop :=
  ∀ (rid : BitVec 12) (lane : Fin 160) (src total : BitVec 32) (step : Word) (m : XchkMsg) (maj : Option HistEntry) (g : XGroup) (o : QOp) (own : HistEntry) (s : State),
    let c := Instr.xchkContribution rid lane ⟨src, step, m⟩
    let r := rid.toNat
    let g' : XGroup := { g with step := some (g.step.getD step), expect := if g.expect.contains lane.val then g.expect else g.expect ++ [lane.val], got := g.got ++ [(lane.val, m)] }
    let b := Instr.xchkBroadcast rid ⟨src, step, maj, total⟩
    (s.absorbed lane = true → exec c s = .next s)
    ∧ (s.absorbed lane = false →
        (groupAt s.ux.groups r = none → exec c s = .next s.redDiscard)
        ∧ (groupAt s.ux.groups r = some g →
          (g.sent = true ∨ 128 ≤ lane.val ∨ g.got.any (fun e => e.1 == lane.val) = true → exec c s = .next s.redDiscard)
          ∧ (g.sent = false → lane.val < 128 → g.got.any (fun e => e.1 == lane.val) = false →
            (s.groupFull g' = false → exec c s = .next (s.setGroups (tins (terase s.ux.groups r) r g')))
            ∧ (s.groupFull g' = true → s.tier ≠ 2 → Ends c s (fun u => groupAt u.ux.groups r = some { g' with sent := true } ∧ u.el = s.el ∧ Logged .ux s u []))
            ∧ (s.groupFull g' = true → s.tier = 2 → Ends c s (fun u => groupAt u.ux.groups r = none)))))
    ∧ (groupAt s.ux.groups r = some g → g.sent = true → Ends b s (fun u => groupAt u.ux.groups r = none))
    ∧ (groupAt s.ux.groups r = none ∨ (groupAt s.ux.groups r = some g ∧ g.sent = false) →
        (s.xchkOp r = none → exec b s = .next s)
        ∧ (s.xchkOp r = some (o, own) →
          (∀ e, maj = some e → e.fp = own.fp → e.blocks = own.blocks → exec b s = .next ((s.suspOk o.pc 3).endOp o stOk))
          ∧ ((∀ e, maj = some e → ¬ (e.fp = own.fp ∧ e.blocks = own.blocks)) → (s.seq .el).pairs = [] → Ends b s (fun u =>
              u.bit .el Reg.CHK_STAT_XCHK = true ∧ u.bit .el Reg.CHK_STAT_FAILED = true ∧ u.get .el Reg.CHK_CNT_XCHK_FAIL = min (s.get .el Reg.CHK_CNT_XCHK_FAIL + 1) 65535
              ∧ ∃ es, Logged .el s u ((0x05, if maj.isSome then 0x5004 else 0x5005, o.pc, own.fp.toNat) :: es)))))

/-! ### Checks, ledger and seal (chapter 10) -/

/-- The ledger and the seal (R292, R296, R299 to R303, R305, R316 to R318, R325, R344): a mover's error counts, is 0x5002 and a check failure, which marks its step once with 0x5010. A leaf takes a record once, into the page of its step, lane and tensor group, and acknowledges it. The root counts each vote once, publishes the step after the last sealed one when every member has voted, with 0x5020, and holds no vote after a FAIL or in a rollback; the first FAIL is recorded. A leaf sends on no vote or FAIL of a lock-step shadow. A SEAL raises LAST at a die and passes down a leaf or spine, once. Where no rule speaks it follows the readings of the model in logs 33, 34, 108 and 110. -/
def Obligations.LedgerAndSeal : Prop :=
  ∀ (tag : BitVec 32) (mover : BitVec 4) (lane : Fin 128) (x : Fin 160) (ord : BitVec 32) (r : LedgerRec) (lsi : BitVec 20) (step prev : Word) (p : List Byte) (l : Nat) (q : Nat) (s : State),
    let failed := s.bit .el Reg.CHK_STAT_FAILED
    let acked := fun (t : State) => t.send .ux lane (.ledgerAck ord.toNat)
    let group := r.tensor.toNat / 128 % 32
    let pos := s.ledgPos r.step.toNat lane group
    let i := s.ledgIndex pos
    let last := s.reg .ux Reg.UX_SEAL_STAT_LAST.off
    let vote := Instr.passVote x ⟨lsi, step⟩
    let fail := Instr.failMessage x ⟨lsi, step⟩
    let known := s.learnPort x lsi.toNat
    let open' := s.bit .ux Reg.UX_SEAL_FAIL_PENDING = false ∧ s.bit .ux Reg.UX_HC_STAT_ROLLBACK = false
    let held := (List.range 32).any (fun g => let i := s.ledgIndex (s.ledgPos prev.toNat l g); i.valid && i.step == prev.toNat)
    let bad := held && s.chainDigests prev.toNat l p != (List.range 4).map (fun j => s.hbm (s.digestAddr prev.toNat l j) 48)
    Ends (.chkerrReport tag mover) s (fun u => u.bit .el Reg.CHK_STAT_EXT = true ∧ u.get .el Reg.CHK_CNT_EXT_FAIL = min (s.get .el Reg.CHK_CNT_EXT_FAIL + 1) 65535
        ∧ u.bit .el Reg.CHK_STAT_FAILED = true ∧ u.reg .el Reg.CHK_FAILSTEP_STEP.off = (if failed then s.reg .el Reg.CHK_FAILSTEP_STEP.off else BitVec.ofNat 64 s.stepCur)
        ∧ Logged .el s u ([(0x05, 0x5002, 0, tag.toNat)] ++ if failed then [] else [(0x05, 0x5010, 0, s.stepCur)]))
    ∧ (s.tier ≠ 0 → exec (.ledgerRecords lane ord [r]) s = .next s)
    ∧ (s.tier = 0 → exec (.ledgerRecords lane ord []) s = .next (acked s))
    ∧ (s.tier = 0 → s.ux.accepted.contains (lane.val, r.step, ord.toNat) = true → exec (.ledgerRecords lane ord [r]) s = .next (acked s))
    ∧ (s.tier = 0 → s.ux.accepted.contains (lane.val, r.step, ord.toNat) = false → s.bit .ux Reg.UX_LOCK_CTRL_EN = false → r.kind.toNat ≤ 5 → s.memOk →
        (i.valid = true → i.step = r.step.toNat → i.count < 128 → Ends (.ledgerRecords lane ord [r]) s (fun u => u.ledgIndex pos = { i with count := i.count + 1 } ∧ Logged .ux s u []
          ∧ (s.pageAddr pos + 4096 ≤ s.indexAddr pos ∨ s.indexAddr pos + 16 ≤ s.pageAddr pos → u.hbm (s.pageAddr pos + 32 * i.count) 32 = recBytes r)))
        ∧ (i.valid = false → Ends (.ledgerRecords lane ord [r]) s (fun u => Logged .ux s u []
          ∧ u.ledgIndex pos = { step := r.step.toNat, count := 1, lane := lane, group := group, isSealed := false, ovf := false, valid := true })))
    ∧ exec .lockRearm s = .next ((s.put .ux Reg.UX_LOCK_DIV1_VALID 0).modUx (fun u => { u with lockPri := [], lockShd := [], lockBlock := none, lockSync := false }))
    ∧ (s.absorbed x = true → exec vote s = .next known ∧ exec fail s = .next s)
    ∧ (s.absorbed x = false → s.tier ≠ 2 → exec vote s = .next (known.sendUp .ux (.sealMsg 0x30 lsi step)) ∧ exec fail s = .next (s.sendUp .ux (.sealMsg 0x31 lsi step)))
    ∧ (s.absorbed x = false → s.tier = 2 → ¬ open' → exec vote s = .next known)
    ∧ (s.absorbed x = false → s.tier = 2 → open' →
        (s.ux.lseals = [] → Ends vote s (fun u => u.ux.passVotes.contains (lsi.toNat, step) = true ∧ u.ux.hallLsis.contains lsi.toNat = true ∧ RegsBut [] s u ∧ u.el = s.el ∧ Logged .ux s u []))
        ∧ (s.ux.lseals = [(step, q)] → step = last + 1 → s.ux.hallLsis.all (fun x => x == lsi.toNat || s.ux.passVotes.contains (x, step)) = true → (∀ e ∈ Config.hallMembers s.draws, e.2 = lsi.toNat ∨ s.ux.passVotes.contains (e.2, step) = true) →
          Ends vote s (fun u => u.reg .ux Reg.UX_SEAL_STAT_LAST.off = step ∧ u.ux.lseals = [] ∧ ∃ es, Logged .ux s u ((0x4C, 0x5020, 0, step.toNat) :: es))))
    ∧ (s.absorbed x = false → s.tier = 2 → Ends fail s (fun u => u.bit .ux Reg.UX_SEAL_FAIL_PENDING = true
        ∧ u.get .ux Reg.UX_SEAL_FAIL_LSI = (if s.bit .ux Reg.UX_SEAL_FAIL_PENDING then s.get .ux Reg.UX_SEAL_FAIL_LSI else lsi.toNat)
        ∧ (s.authority = true → u.ux.rollback.isSome = true ∧ (s.ux.rollback = none → u.bit .ux Reg.UX_HC_STAT_ROLLBACK = true ∧ u.bit .ux Reg.UX_HC_STAT_GATE_CLOSED = true))))
    ∧ (isSealedBy (s.reg .el Reg.CHK_SEAL_LAST.off) step = true → exec (.sealMessage .el step) s = .next s)
    ∧ (isSealedBy (s.reg .el Reg.CHK_SEAL_LAST.off) step = false → (s.seq .el).pairs = [] → Ends (.sealMessage .el step) s (fun u => u.reg .el Reg.CHK_SEAL_LAST.off = step
        ∧ ∀ o ∈ s.el.base.qops, ∀ x, o.kind = .sealq x → o.queue = .ledger → o.started = true → x.toNat ≤ step.toNat → u.findOp .el o.id = none))
    ∧ (s.tier = 2 ∨ s.sealTaken step = true → exec (.sealMessage .ux step) s = .next s)
    ∧ (s.tier ≠ 2 → s.sealTaken step = false → Ends (.sealMessage .ux step) s (fun u => u.ux.lastSeal = step))
    ∧ (s.ux.chainLog = [(l, prev.toNat, p)] → (bad = true → Goes .ledgVerify s (s.put .ux Reg.UX_LEDG_STAT_CHAIN_BAD 1) .ux [(0x43, 0x5032, l, prev.toNat)]) ∧ (bad = false → exec .ledgVerify s = .next s))
    ∧ Ends .ledgChainReset s (fun u => ∀ l, u.chainPrev l = List.replicate 48 0)
/-! ### Headcount and vault (chapter 11) -/

/-- Heartbeats and suspicion (R326, R330 to R335, R343, R363, R367, R428): heartbeats leave on the lanes of their tier, a die's with its counts, which begin again. A heard subject's age is 0 and a SUSPECT one is a member again, a JOINING die that has attested is STANDBY at its leaf, and a child chip heard for the first time is a member; a FENCED one's is ignored; a member die's counts add 32 points a transient, 1 a parity correction, 4 a slip and so on. The third miss makes a member SUSPECT with 0x6001; a leaf then asks its twin, whose answer below 30 µs is 0x6002 and else, like none, a proposal with 0x6003. STEP_MISSED of a die opens a rollback at the authority. Where no rule speaks it follows the readings of the model in log 39. -/
def Obligations.Heartbeats : Prop :=
  ∀ (lane : Fin 160) (m : Hb) (x : Subj) (nth : Fin 4) (age : BitVec 32) (s : State),
    let hb := Msg.hb s.uxHb
    let st := s.codeOf m.subj
    let quiet := m.parity = 0 ∧ m.slipOver = 0 ∧ m.transient = 0 ∧ m.permanent = 0 ∧ m.stepMissed = false ∧ m.dieFatal = false
    let pts := 32 * m.transient.toNat + (m.parity.toNat + 4 * m.slipOver.toNat)
    let h := fun (u : State) => u.get .ux (Reg.UX_LANE_HC_HEALTH lane)
    let proposes := fun (u : State) => (∃ q, u.openProposal x = some q ∧ q.yes = [s.chipSubj] ∧ (q.msg.map (fun y => y.hard)) = some true) ∧ (u.obsOf x).asked = false ∧ Logged .ux s u [(0x42, 0x6003, subjObj x, 256)]
    let asked := (s.obsOf x).asked = true ∧ s.codeOf x = 4
    ((s.guard .el).hbStopped = true → exec (.hbSend .el) s = .next s)
    ∧ ((s.guard .el).hbStopped = false → exec (.hbSend .el) s = .next
        ((((s.hbNew .el).modEl (fun e => { e with hbCounts := { parity := 0, slipOver := 0, transient := 0, permanent := 0, stepMissed := false } })).sendActive .el 0 (.hb s.elHb)).sendActive .el 1 (.hb s.elHb)))
    ∧ (s.tier = 0 → exec (.hbSend .ux) s = .next (((((s.hbNew .ux).sendActive .ux 128 hb).sendActive .ux 129 hb).toPartners hb).toTwin hb))
    ∧ (s.tier = 1 → exec (.hbSend .ux) s = .next ((s.hbNew .ux).sendActive .ux 128 hb)) ∧ (2 ≤ s.tier → exec (.hbSend .ux) s = .next ((s.hbNew .ux).sendActive .ux 152 hb))
    ∧ (st = 5 → exec (.hbMessage lane m) s = .next s)
    ∧ (st ≠ 5 → quiet → Ends (.hbMessage lane m) s (fun u => u.obsOf m.subj = { heard := true, at' := s.tick .ux, age := 0, misses := 0, asked := false }
        ∧ (st = 4 → u.codeOf m.subj = 3) ∧ (st = 3 → u.codeOf m.subj = 3) ∧ (m.subj.tier ≠ 0 → st = 0 → (s.childLane m.subj).isSome = true → u.codeOf m.subj = 3)
        ∧ (st = 1 → s.tier = 0 → lane.val < 128 → s.ux.attested.contains lane.val = true → m.subj = dieSubj (s.pdiOf lane) → u.codeOf m.subj = 2)
        ∧ (st = 1 → s.tier ≠ 0 ∨ s.ux.attested.contains lane.val = false → u.codeOf m.subj = 1) ∧ Logged .ux s u []))
    ∧ (s.tier = 0 → lane.val < 128 → m.subj = dieSubj (s.pdiOf lane) → s.member (s.pdiOf lane) = 3 → st = 3 → m.permanent = 0 → m.stepMissed = false → m.dieFatal = false →
        h s + pts < 256 → h s + pts < s.get .ux Reg.UX_HC_CTRL_WATCH → h s + pts < s.get .ux Reg.UX_HC_CTRL_PROB → h s + pts < s.get .ux Reg.UX_HC_CTRL_EXPEL →
        Ends (.hbMessage lane m) s (fun u => h u = h s + pts ∧ Logged .ux s u []))
    ∧ (s.authority = true → s.ux.rollback = none → m.subj.tier = 0 → st ≠ 5 → m.stepMissed = true ∨ m.dieFatal = true → Ends (.hbMessage lane m) s (fun u =>
        u.ux.rollback.isSome = true ∧ ∃ es, Logged .ux s u ((0x42, 0x6004, subjObj m.subj, (s.get .ux Reg.UX_HC_STAT_EPOCH + 1) % 2 ^ 32 * 2 ^ 32 + 4 * 2 ^ 24) :: es)))
    ∧ (nth ≠ 3 ∨ s.codeOf x ≠ 3 → Ends (.hbMiss x nth age) s (fun u => (u.obsOf x).misses = nth ∧ (u.obsOf x).age = age.toNat ∧ u.codeOf x = s.codeOf x ∧ Logged .ux s u []))
    ∧ (s.codeOf x = 3 → x.tier = 0 → Ends (.hbMiss x 3 age) s (fun u => u.codeOf x = 4 ∧ (u.obsOf x).asked = true ∧ Logged .ux s u [(0x42, 0x6001, subjObj x, age.toNat)]))
    ∧ (s.codeOf x = 3 → x.tier ≠ 0 → Ends (.hbMiss x 3 age) s (fun u => u.codeOf x = 4 ∧ Logged .ux s u [(0x42, 0x6001, subjObj x, age.toNat), (0x42, 0x6003, subjObj x, 256)]))
    ∧ exec (.hearReq x lane) s = .next (s.send .ux lane (.hearAns x (BitVec.ofNat 32
        (if (match s.childLane x with | some l => s.laneState .ux l == 4 | none => false) then s.hbAge x else 0xFFFFFFFF))))
    ∧ (¬ asked → exec (.hearAns x age) s = .next s ∧ exec (.hearTimeout x) s = .next s)
    ∧ (asked → (age.toNat < 30000 → Ends (.hearAns x age) s (fun u => u.codeOf x = 3 ∧ (u.obsOf x).asked = false ∧ Logged .ux s u [(0x42, 0x6002, subjObj x, age.toNat)]))
        ∧ (30000 ≤ age.toNat → Ends (.hearAns x age) s proposes) ∧ Ends (.hearTimeout x) s proposes)

/-- Proposals, votes and decisions (R328, R329, R332, R335 to R337, R346, R361 to R366, R369, R370): a proposal is 0x6003, and a voter's answer is sent again with it until the subject is settled; where votes are counted its proposer's yes is the first, each voter counts once, and the second yes, or the authority's own, decides it: the epoch advances and 0x6004 goes out with its kind. A reserved kind is discarded and counted. A decision reaches a chip and a die: an expelled die is EXPELLED with the step kill, unless FENCED; a spare learns its assignment. Commands readmit (a die and its leaf's table), advise and fence; a refused one is 0x6032. PROBATION takes its step, and scores decay by 1. Where no rule speaks it follows the readings of the model in logs 35, 73 and 113. -/
def Obligations.Decisions : Prop :=
  ∀ (m : ProposeMsg) (v : VoteMsg) (d : DecisionMsg) (x : Subj) (p : Proposal) (w : Word) (action : BitVec 32) (kk : BitVec 16) (s : State),
    let e := (s.get .ux Reg.UX_HC_STAT_EPOCH + 1) % 2 ^ 32
    let decides := fun (y : Subj) (u : State) => ∃ k a pre post, Logged .ux s u (pre ++ (0x42, 0x6004, subjObj y, e * 2 ^ 32 + k * 2 ^ 24 + a) :: post) ∧ a < 2 ^ 20
      ∧ (y.tier = 0 → k = 1 ∨ k = 2 ∨ k = 3 ∨ k = 7) ∧ (y.tier = 1 ∨ y.tier = 2 → k = 5) ∧ (y.tier = 3 → k = 6)
    let ballot : VoteMsg := { subj := m.subj, kind := m.kind, yes := s.votesYes m, epoch := s.epoch, origin := s.chipSubj }
    let voted := if s.isVoter m then s.modUx (fun u => { u with votesOut := u.votesOut.filter (fun w => w.subj != m.subj) ++ [ballot] }) else s
    let again := (s.ux.votesOut.filter (fun v => v.subj == x)).foldl (fun t v => t.toAuthority (.vote v)) s
    let mine := s.myPdi = fget w 19 0 ∧ (s.get .el Reg.HC_STAT_STATE = 5 ∨ s.get .el Reg.HC_STAT_STATE = 6)
    let said := [((0x42, 0x6003, subjObj m.subj, (if m.hard then 256 else 0) + m.kind.toNat) : Entry)]
    let takesYes := fun (y voter : Subj) (u : State) => ∃ q, u.openProposal y = some q ∧ q.yes.contains voter = true
    let expels := d.kind = 1 ∨ d.kind = 2 ∨ d.kind = 3 ∨ d.kind = 7
    let own := d.subj = dieSubj s.myPdi
    let st := s.get .el Reg.HC_STAT_STATE
    let y := dieSubj (fget w 19 0)
    let c := s.codeOf y
    let cmds := [Instr.hcReadmit w, Instr.hcAdviseFailed w, Instr.hcFence w]
    let member := fun (t : State) (l : Nat) => t.tier == 0 && inMembers (t.member (t.pdiOf l))
    (7 < m.kind.toNat → exec (.propose m) s = .next (s.count .ux Reg.UX_HC_STAT_DISCARDS 1))
    ∧ (m.kind.toNat ≤ 7 → s.counts m.subj = false → Goes (.propose m) s voted .ux said)
    ∧ (m.kind.toNat ≤ 7 → s.counts m.subj = true → s.codeOf m.subj = 5 ∨ s.decided m.subj m.epoch = true → Goes (.propose m) s s .ux said)
    ∧ (m.kind.toNat ≤ 7 → s.counts m.subj = true → s.codeOf m.subj ≠ 5 → s.decided m.subj m.epoch = false → m.hard = true →
        (s.openProposal m.subj = none → Ends (.propose m) s (fun u => takesYes m.subj m.origin u ∧ Logged .ux s u said))
        ∧ (s.openProposal m.subj = some p → p.yes ≠ [] → p.yes.contains m.origin = false → Ends (.propose m) s (decides m.subj)))
    ∧ (s.counts v.subj = false → exec (.vote v) s = .next (s.toAuthority (.vote v)))
    ∧ (s.counts v.subj = true → v.yes = false ∨ s.codeOf v.subj = 5 ∨ s.decided v.subj v.epoch = true → exec (.vote v) s = .next s)
    ∧ (s.counts v.subj = true → v.yes = true → s.codeOf v.subj ≠ 5 → s.decided v.subj v.epoch = false →
        (s.openProposal v.subj = none → Ends (.vote v) s (fun u => takesYes v.subj v.origin u ∧ Logged .ux s u []))
        ∧ (s.openProposal v.subj = some p → p.msg.isSome = true → p.yes ≠ [] → p.yes.contains v.origin = false → Ends (.vote v) s (decides v.subj)))
    ∧ (s.openProposal x = none → exec (.proposeResend x) s = .next again ∧ exec (.authoritySelfVote x) s = .next s)
    ∧ (s.openProposal x = some p → p.msg = some m →
        exec (.proposeResend x) s = .next (if m.origin = s.chipSubj then again.toAuthority (.propose m) else again)
        ∧ (s.counts x = false ∨ (m.hard = false ∧ (m.ageP.toNat < 30000 ∨ m.ageT.toNat < 30000)) → exec (.authoritySelfVote x) s = .next s)
        ∧ (s.counts x = true → m.hard = true ∨ (30000 ≤ m.ageP.toNat ∧ 30000 ≤ m.ageT.toNat) → Ends (.authoritySelfVote x) s (decides x)))
    ∧ (own → expels → Ends (.decision .el d) s (fun u => u.get .el Reg.HC_STAT_EPOCH = d.epoch.toNat ∧ u.get .el Reg.HC_STAT_STATE = (if st = 5 then 5 else 6)
        ∧ u.el.base.qops = [] ∧ (s.seqState .el = 3 ∨ s.seqState .el = 4 → u.seqState .el = 5)))
    ∧ (¬ own → d.kind = 1 → d.arg0.toNat = s.myPdi → exec (.decision .el d) s = .next ((s.put .el Reg.HC_STAT_EPOCH d.epoch.toNat).modEl (fun e => { e with spareNamed := true })))
    ∧ (¬ own → d.kind ≠ 2 → d.kind ≠ 1 ∨ d.arg0.toNat ≠ s.myPdi → exec (.decision .el d) s = .next (s.put .el Reg.HC_STAT_EPOCH d.epoch.toNat))
    ∧ (d.kind = 0 ∨ 7 < d.kind.toNat → exec (.decision .ux d) s = .next (s.count .ux Reg.UX_HC_STAT_DISCARDS 1))
    ∧ (d.kind = 4 → exec (.decision .ux d) s = .next (((s.put .ux Reg.UX_HC_STAT_EPOCH d.epoch.toNat).sendDown downLanes (.decision d)).dropProposals d.subj))
    ∧ (d.subj.tier = 0 → d.kind = 1 ∨ d.kind = 3 ∨ d.kind = 7 → Ends (.decision .ux d) s (fun u => u.codeOf d.subj = if s.codeOf d.subj = 5 then 5 else 6))
    ∧ (s.authority = false → ∀ i ∈ cmds, exec i s = .next s)
    ∧ (s.authority = true → hcRefused w = true → ∀ i ∈ cmds, Goes i s s .ux [(0x42, 0x6032, fget w 19 0, w.toNat)])
    ∧ (s.authority = true → hcRefused w = false →
        (c = 5 ∨ c = 6 → s.ux.rollback = none → Ends (.hcReadmit w) s (fun u => u.codeOf y = 2 ∧ (mine → u.get .el Reg.HC_STAT_STATE = 2)))
        ∧ (mine → s.ux.rollback = none → Ends (.hcReadmit w) s (fun u => u.get .el Reg.HC_STAT_STATE = 2 ∧ u.get .el Reg.HC_STAT_VSTEPS = 0 ∧ u.get .el Reg.HC_STAT_FSTEPS = 0))
        ∧ (c ≠ 5 → c ≠ 6 → ¬ mine → exec (.hcReadmit w) s = .next s)
        ∧ (c = 0 ∨ inMembers c = true → Ends (.hcAdviseFailed w) s (fun u => u.ux.members = s.ux.members ∧ (s.myPdi = fget w 19 0 → u.bit .el Reg.HC_STAT_VIEW_CONFLICT = true)
            ∧ Logged .ux s u [(0x42, 0x6030, subjObj y, 0)]))
        ∧ (c ≠ 0 → inMembers c = false → exec (.hcAdviseFailed w) s = .next s)
        ∧ Ends (.hcFence w) s (fun u => decides y u ∧ ∃ pre post, Logged .ux s u (pre ++ (0x42, 0x6031, subjObj y, 0) :: post)))
    ∧ (x = dieSubj s.myPdi → Ends (.fenceMessage .el x) s (fun u => u.get .el Reg.HC_STAT_STATE = 5 ∧ u.get .el Reg.HC_STAT_VSTEPS = 0 ∧ u.get .el Reg.HC_STAT_FSTEPS = 0 ∧ u.ux = s.ux))
    ∧ (x ≠ dieSubj s.myPdi → exec (.fenceMessage .el x) s = .next s)
    ∧ Ends (.fenceMessage .ux x) s (fun u => u.codeOf x = 5)
    ∧ Ends (.probation action kk) s (fun u => u.bit .el Reg.HC_STAT_PROBATION = true ∧ u.el.probK = some kk.toNat ∧ u.ux = s.ux
        ∧ u.get .el Reg.HC_STAT_VSTEPS = (if action = 1 then min 2 (s.get .el Reg.HC_STAT_VSTEPS + 1) else s.get .el Reg.HC_STAT_VSTEPS)
        ∧ u.get .el Reg.HC_STAT_FSTEPS = (if action = 2 then min 2 (s.get .el Reg.HC_STAT_FSTEPS + 1) else s.get .el Reg.HC_STAT_FSTEPS))
    ∧ Ends .healthDecay s (fun u => u.el = s.el ∧ (∀ l < 128, u.get .ux (Reg.UX_LANE_HC_HEALTH l) = if member s l then s.get .ux (Reg.UX_LANE_HC_HEALTH l) - 1 else s.get .ux (Reg.UX_LANE_HC_HEALTH l)))

/-- Rollback, its commit, path commands and the vault (R341, R345 to R347, R351 to R353, R428, R429, R449, R461, R462): ROLLBACK stops a die's step and asks its surroundings for the step, and empties a chip's generations, slots, groups and votes. RB_READY counts a die at the authority; RB_COMMIT sets T_c. RESTORED is ignored until FATAL_CLR. A path command ends with its first status other than OK, or when all its paths are OK, and is sent again 3 times. Mirror messages go to the partner and are logged once there; restore messages go on to their die. Where no rule speaks it follows the readings of the model in logs 38 and 72. -/
def Obligations.RollbackAndVault : Prop :=
  ∀ (step next : Word) (pdi : BitVec 20) (tc : Nat) (seq : BitVec 32) (status : Byte) (cmd : PathCmd) (lane : Fin 160) (m : VaultMsg) (s : State),
    let last := s.reg .el Reg.CHK_SEAL_LAST.off
    let k := m.kind.toNat
    let shadow := s.lockLane Reg.UX_LOCK_CTRL_SHD lane
    let die := s.vaultDie lane m.lane.toNat
    let v := s.vault die
    let same := v.log.any (fun x => x.step == m.step.toNat && x.ofs == m.ofs.toNat && x.bcv == (m.kind == 2))
    let reply := Instr.pathReply seq status
    let found := s.ux.paths.find? (fun c => c.seq == seq.toNat && c.status.isNone)
    let up := s.tpUp
    Ends (.rollback .el step) s (fun u => u.bit .el Reg.HC_STAT_ROLLBACK = true ∧ u.el.restored = false ∧ u.el.ports.rbStep = step ∧ u.el.base.qops = []
        ∧ (step = noStep ∨ isSealedBy last step = true → u.ux = s.ux ∧ (s.guardActive .el = true → (u.guard .el).rbHeld = true) ∧ (s.guardActive .el = false → u.el.ports.rollbackReq = true)
          ∧ (s.seqState .el = 3 ∨ s.seqState .el = 4 → u.seqState .el = 5)))
    ∧ Ends (.rollback .ux step) s (fun u => u.ux.slots = [] ∧ u.ux.groups = [] ∧ u.ux.held = [] ∧ u.ux.passVotes = [] ∧ u.manState .ux ≠ 2 ∧ ∀ b, (u.node b).isOpen = false)
    ∧ (s.authority = false → exec (.rbReady pdi next) s = .next (s.toAuthority (.rbReady pdi next)))
    ∧ (s.authority = true → s.member pdi.toNat = 5 ∨ s.member pdi.toNat = 6 → exec (.rbReady pdi next) s = .next s)
    ∧ (s.authority = true → s.member pdi.toNat ≠ 5 → s.member pdi.toNat ≠ 6 → Ends (.rbReady pdi next) s (fun u =>
        (∀ r, s.ux.rollback = some r → ∃ r', u.ux.rollback = some r' ∧ r'.ready.contains pdi.toNat = true ∧ r'.target = r.target) ∧ RegsBut [] s u ∧ Logged .ux s u []))
    ∧ exec (.rbCommit .el tc) s = .next (s.mod .el (fun b => { b with rbAt := some tc }))
    ∧ exec (.rbCommit .ux tc) s = .next ((s.sendDown downLanes (.rbCommit tc)).mod .ux (fun b => { b with rbAt := some tc }))
    ∧ (s.bit .el Reg.GUARD_STAT_DIE_FATAL = true → exec .restoredWrite s = .next s)
    ∧ (s.bit .el Reg.GUARD_STAT_DIE_FATAL = false → Ends .restoredWrite s (fun u => u.el.restored = true ∧ u.ux = s.ux ∧ RegsBut [] s u ∧ Logged .el s u []))
    ∧ (status = 1 → exec reply s = .next (s.modUx (fun u => { u with paths := u.paths.map (fun c => if c.seq == seq.toNat then { c with busy := true } else c) })))
    ∧ (status ≠ 1 → found = none → exec reply s = .next s)
    ∧ (found = none → exec (.pathResend seq) s = .next s)
    ∧ (found = some cmd →
        let marked := s.ux.paths.map (fun y => if y.seq == seq.toNat then { y with status := some 0 } else y)
        let rest := fun (l : List PathCmd) => l.filter (fun c => c.pathset != cmd.pathset)
        let code := if status.toNat ≤ 4 then status.toNat else 4
        (status = 0 → marked.any (fun y => y.pathset == cmd.pathset && y.status.isNone) = true → exec reply s = .next (s.modUx (fun u => { u with paths := marked })))
        ∧ (status = 0 → marked.any (fun y => y.pathset == cmd.pathset && y.status.isNone) = false → Ends reply s (fun u => u.ux.paths = rest marked
            ∧ u.get .ux Reg.UX_OCS_STAT_STATUS = 0 ∧ u.get .ux Reg.UX_OCS_STAT_PATHSET = cmd.pathset % 65536))
        ∧ (status ≠ 0 → status ≠ 1 → s.ux.rollback = none → Ends reply s (fun u => u.ux.paths = rest s.ux.paths ∧ u.get .ux Reg.UX_OCS_STAT_STATUS = code
            ∧ u.get .ux Reg.UX_OCS_STAT_PATHSET = cmd.pathset % 65536))
        ∧ (∀ r dead spare z, status ≠ 0 → status ≠ 1 → s.ux.rollback = some r → r.assigned.find? (fun a => a.2.2 == cmd.pathset) = some (dead, spare, z) →
            Ends reply s (fun u => ∃ es, Logged .ux s u ((0x42, 0x6011, subjObj (dieSubj spare), code) :: es)))
        ∧ (up = true → cmd.resends < 3 → Ends (.pathResend seq) s (fun u => u.ux.tpOut = s.ux.tpOut ++ [cmd.bytes] ∧ u.el = s.el ∧ RegsBut [] s u
            ∧ u.ux.paths = s.ux.paths.map (fun y => if y.seq == cmd.seq then { y with resends := y.resends + 1, busy := false } else y)))
        ∧ (up = false → exec (.pathResend seq) s = .next (s.pathFinal cmd.seq 0xF1))
        ∧ (up = true → 3 ≤ cmd.resends → exec (.pathResend seq) s = .next (s.pathFinal cmd.seq (if cmd.busy then 1 else 0xF0))))
    ∧ (k = 0 ∨ 6 < k → exec (.vaultMessage lane m) s = .next (s.modLane .ux lane (fun l => { l with discards := l.discards + 1 })))
    ∧ (1 ≤ k → k ≤ 6 → shadow = true → exec (.vaultMessage lane m) s = .next s)
    ∧ (4 ≤ k → k ≤ 6 → shadow = false → exec (.vaultMessage lane m) s = .next (s.restoreRoute m))
    ∧ (1 ≤ k → k ≤ 3 → shadow = false →
        (s.tier ≠ 0 → exec (.vaultMessage lane m) s = .next (if s.tier = 2 then s.toTwin (.vault m) else s.sendUp .ux (.vault m)))
        ∧ (s.tier = 0 → lane.val < 144 ∨ 152 ≤ lane.val → exec (.vaultMessage lane m) s = .next (s.mirrorForward m))
        ∧ (s.tier = 0 → 144 ≤ lane.val → lane.val < 152 →
          (k = 3 → Ends (.vaultMessage lane m) s (fun u => (u.vault die).ended.contains m.step.toNat = true ∧ (u.vault die).log = v.log))
          ∧ (k ≠ 3 → Ends (.vaultMessage lane m) s (fun u => (u.vault die).log =
            (if same then v.log else v.log ++ [{ step := m.step.toNat, ofs := m.ofs.toNat, data := m.data, bcv := m.kind == 2 }]) ∧ (u.vault die).seen = true))))
/-! ### DMA and host accesses (chapters 12 and 17) -/

/-- DMA channels (R379, R383 to R398, R450, R453): a host start runs an idle channel, else 0x7013 with 0xFF. A descriptor without OWN ends the start with 0x7013, one that fails a check is written back REFUSED with its cause, and any other runs. A request that is done moves its bytes, and the last one ends the descriptor OK. An abort lets a running descriptor finish its request, or ends at once with 0x7012. A bus error is retried with 0x7010, then HALTED with 0x7011, which CLR_HALT leaves; a word of the DMA buffer that stays bad is 0x7002 and halts a running channel at once. Held restore messages are taken while a channel restores; one outside its range is discarded with 0x7014. Where no rule speaks it follows the readings of the model in logs 33, 45 and 117. -/
def Obligations.DmaChannels : Prop :=
  ∀ (ch : Fin 16) (count : BitVec 16) (rep : BitVec 24) (bw : BitVec 15) (m : VaultMsg) (e : List Byte) (s : State),
    let st := s.get .el (Reg.DMA_STAT_STATE ch)
    let c := s.dma ch
    let d := descOf (mread s.el.base.mem (s.dmaAddr ch) 64)
    let r := s.dmaDesc ch
    let n := r.chunk c.written
    let bs := (s.descBytes r c.written (c.written + n)).1
    let state := fun (u : State) => u.get .el (Reg.DMA_STAT_STATE ch)
    let ends := fun (i : Instr) (code detail : Nat) (P : State → Prop) => Ends i s (fun u => state u = 0 ∧ P u ∧ ∃ es, Logged .el s u ((0x07, code, ch.val, detail) :: es))
    let runs := st = 1 ∧ c.fetched = true
    let clean := s.el.spmBad = [] ∧ s.bit .el Reg.TEST_PFLIP_EN = false
    let strange := m.kind.toNat < 4 ∨ 6 < m.kind.toNat
    let ofs := if m.kind = 5 then m.ofs.toNat * 4096 else m.ofs.toNat
    let got := m.data.take (r.src + c.total - ofs)
    (s.el.lic.dmaCh ≤ ch.val → exec (.dmaHostGo ch count) s = .next s)
    ∧ (ch.val < s.el.lic.dmaCh → st ≠ 0 ∨ count = 0 ∨ s.queueOn .move = false → Goes (.dmaHostGo ch count) s (s.put .el (Reg.DMA_STAT_REFUSED ch) 1) .el [(0x07, 0x7013, ch, 0xFF)])
    ∧ (ch.val < s.el.lic.dmaCh → st = 0 → count ≠ 0 → s.queueOn .move = true → Ends (.dmaHostGo ch count) s (fun u => state u = 1 ∧ u.get .el (Reg.DMA_STAT_LEFT ch) = count.toNat
        ∧ u.dma ch = { Dma.zero with left := count.toNat } ∧ RegsBut [(.el, (Reg.DMA_STAT_STATE ch).off)] s u ∧ Logged .el s u []))
    ∧ (st ≠ 1 → exec (.dmaHostAbort ch) s = .next s)
    ∧ (runs → Ends (.dmaHostAbort ch) s (fun u => state u = 2 ∧ u.dma ch = { c with endSt := stAborted } ∧ Logged .el s u []))
    ∧ (st = 1 → c.fetched = false → ends (.dmaHostAbort ch) 0x7012 0 (fun u => u.bit .el (Reg.DMA_STAT_ABORT ch) = true))
    ∧ (exec (.dmaClrHalt ch) s = .next (if st = 3 then s.put .el (Reg.DMA_STAT_STATE ch) 0 else s))
    ∧ (st ≠ 1 ∨ c.fetched = true ∨ c.left = 0 → exec (.dmaDescriptorFetch ch) s = .next s)
    ∧ (st = 1 → c.fetched = false → c.left ≠ 0 →
        (bitOf d.ctl 31 = false → ends (.dmaDescriptorFetch ch) 0x7013 3 (fun _ => True))
        ∧ (bitOf d.ctl 31 = true → s.descCause d ≠ 0 → ends (.dmaDescriptorFetch ch) 0x7013 (s.descCause d) (fun u =>
          u.get .el (Reg.DMA_STAT_LAST_STATUS ch) = 10 ∧ u.get .el (Reg.DMA_STAT_LAST_CAUSE ch) = s.descCause d
          ∧ (s.memOk → leNat (mread u.el.base.mem (s.dmaAddr ch) 4) = d.ctl % 2 ^ 31)))
        ∧ (bitOf d.ctl 31 = true → s.descCause d = 0 → s.el.restoreBuf = [] → Ends (.dmaDescriptorFetch ch) s (fun u => state u = 1 ∧ (u.dma ch).fetched = true ∧ (u.dma ch).total = d.dstBytes
          ∧ (u.dma ch).written = 0 ∧ (u.dma ch).left = c.left ∧ Logged .el s u [])))
    ∧ (c.fetched = false → (∀ b, exec (.dmaRequestDone ch ⟨some rep, b⟩) s = .next s ∧ exec (.dmaRequestDone ch ⟨none, b⟩) s = .next s) ∧ exec (.dmaBusError ch) s = .next s)
    ∧ (c.fetched = true → s.el.spmBad.contains (rep.toNat / 8) = false → Ends (.dmaRequestDone ch ⟨some rep, .good⟩) s (fun u => ∃ es, Logged .el s u ((0x07, 0x7001, 0, 8 * 2 ^ 60 + rep.toNat) :: es)))
    ∧ (c.fetched = true → Ends (.dmaRequestDone ch ⟨none, .healed bw⟩) s (fun u => ∃ es, Logged .el s u ((0x07, 0x7001, 0, 11 * 2 ^ 60 + bw.toNat) :: es)))
    ∧ (runs → Ends (.dmaRequestDone ch ⟨none, .bad bw⟩) s (fun u => state u = 3 ∧ u.bit .el Reg.SPM_STAT_PERSIST = true ∧ u.bit .el (Reg.DMA_STAT_HALT ch) = true
        ∧ ∃ pre post, Logged .el s u ((0x07, 0x7002, 0, 11 * 2 ^ 60 + bw.toNat) :: pre ++ (0x07, 0x7011, ch.val, c.total - c.written) :: post)))
    ∧ (runs → nbits c.ctl.toNat 17 16 ≠ 2 → clean →
        (c.written + n < c.total → Ends (.dmaRequestDone ch ⟨none, .good⟩) s (fun u => state u = 1 ∧ (u.dma ch).written = c.written + n ∧ (u.dma ch).retries = 0
          ∧ (r.dstSpace = 1 → s.memOk → mread u.el.base.mem (r.dstAddr c.written) bs.length = bs)))
        ∧ (c.total ≤ c.written + n → c.left = 1 → c.qid = none → Ends (.dmaRequestDone ch ⟨none, .good⟩) s (fun u => state u = 0 ∧ u.get .el (Reg.DMA_STAT_LAST_STATUS ch) = 0 ∧ u.dma ch = Dma.zero)))
    ∧ (r.swap = 0 → r.srcW = r.dstW → e.length = r.srcW → r.elem e = e)
    ∧ (c.fetched = true → st = 2 → ends (.dmaBusError ch) 0x7012 (c.total - c.written) (fun u => u.bit .el (Reg.DMA_STAT_ABORT ch) = true))
    ∧ (runs → c.retries < s.get .el (Reg.DMA_CTRL_RETRY_MAX ch) → Ends (.dmaBusError ch) s (fun u => state u = 1 ∧ u.dma ch = { c with retries := c.retries + 1, busError := true }
        ∧ Logged .el s u [(0x07, 0x7010, ch, c.retries + 1)]))
    ∧ (runs → s.get .el (Reg.DMA_CTRL_RETRY_MAX ch) ≤ c.retries → Ends (.dmaBusError ch) s (fun u => state u = 3 ∧ u.bit .el (Reg.DMA_STAT_HALT ch) = true
        ∧ ∃ es, Logged .el s u ((0x07, 0x7011, ch.val, c.total - c.written) :: es)))
    ∧ (strange → ∀ x, s.selLane = some x → exec (.vaultRestoreMessage m) s = .next (s.modLane .el x (fun l => { l with discards := l.discards + 1 })))
    ∧ (¬ strange → m.target.toNat ≠ s.myPdi → exec (.vaultRestoreMessage m) s = .next s)
    ∧ (¬ strange → m.target.toNat = s.myPdi → s.restoreCh = none → exec (.vaultRestoreMessage m) s = .next (s.modEl (fun x => { x with restoreBuf := x.restoreBuf ++ [m] })))
    ∧ (¬ strange → m.target.toNat = s.myPdi → s.restoreCh = some ch.val → s.el.restoreBuf = [] → m.kind ≠ 6 →
        (ofs < r.src ∨ r.src + c.total ≤ ofs → Ends (.vaultRestoreMessage m) s (fun u => u.bit .el (Reg.DMA_STAT_VAULT_DISC ch) = true ∧ (u.dma ch).written = c.written
          ∧ Logged .el s u [(0x07, 0x7014, ch, m.ofs.toNat)]))
        ∧ (r.src ≤ ofs → ofs < r.src + c.total → m.kind = 4 → clean → c.got.any (fun g => g.1 == ofs) = false →
          Ends (.vaultRestoreMessage m) s (fun u => (u.dma ch).written = c.written + got.length ∧ (u.dma ch).got = c.got ++ [(ofs, got.length)] ∧ u.el.restoreBuf = [])))

/-- Host accesses (R376, R379, R380, R382, R440 to R442, R475 to R480, R483, R497, R507): an access of a wrong size, alignment, range or domain answers an error, a read all ones, with 0x9070 and its cause. SPM answers its word or takes one; a word that stays bad is 0x7002, one that a replay healed 0x7001, and a time-out 0x7004. The program aperture reads 0 while EMPTY, is busy while LOADING and is not written. A register takes a write field by field; the shadow window and reserved offsets ignore one, and HR_SPACE 3 of an Elesh fails with RANGE. Remote requests are served or REFUSED, and answered. The event port gives its oldest record. Where no rule speaks it follows the readings of the model in logs 43, 44, 75 and 120. -/
def Obligations.HostAccesses : Prop :=
  ∀ (p : Part) (off : BitVec 26) (a : BitVec 24) (size : AccSize) (v addr : Word) (len seq : BitVec 16) (data : List Byte) (cycles : Nat) (row : RegRow) (s : State),
    let fails := fun (q : Part) (i : Instr) (cause space o : Nat) (write : Bool) => Ends i s (fun u => (u.base q).rerr = true ∧ (u.base q).rdata = (if write then 0 else allOnes) ∧ u.el.spm = s.el.spm
      ∧ RegsBut [(q, errOff q)] s u ∧ Logged q s u [(unitMan q, 0x9070, 0, errWord cause space o write)])
    let x := a.toNat
    let o := off.toNat
    let bad := s.el.spmBad.contains (x / 8)
    let fits := accCause size x = 0
    let host := fun (write replay : Bool) => Instr.spmHostAccess write a size v replay
    (∀ w rp, ¬ fits → fails .el (host w rp) (accCause size x) 2 x w)
    ∧ (∀ w rp, fits → s.spmBytes ≤ x → fails .el (host w rp) 3 2 x w)
    ∧ (fits → x < s.spmBytes →
        (bad = false → exec (host false false) s = .next (s.answer .el (accHalf size x (s.spmRaw x)) false))
        ∧ (bad = false → Ends (host false true) s (fun u => u.el.base.rdata = accHalf size x (s.spmRaw x) ∧ u.el.base.rerr = false ∧ u.bit .el Reg.SPM_STAT_REPLAY = true
          ∧ Logged .el s u [(0x07, 0x7001, 0, 10 * 2 ^ 60 + (x - x % 8))]))
        ∧ (bad = true → Ends (host false false) s (fun u => u.el.base.rdata = allOnes ∧ u.el.base.rerr = true ∧ ∃ es, Logged .el s u ((0x07, 0x7002, 0, 10 * 2 ^ 60 + (x - x % 8)) :: es)))
        ∧ (size = .eight → exec (host true false) s = .next ((s.spmPut x v).answer .el 0 false))
        ∧ (size = .four → exec (host true false) s = .next ((s.spmPutBytes 10 x (leBytes 4 (v.toNat % 2 ^ 32)) 0).answer .el 0 false)))
    ∧ (∀ w, Ends (.spmHostTimeout w a) s (fun u => u.bit .el Reg.SPM_STAT_HOST_TMO = true ∧ u.el.base.rerr = true ∧ u.el.base.rdata = (if w then 0 else allOnes) ∧ u.el.spm = s.el.spm
        ∧ Logged .el s u [(0x07, 0x7004, 0, x)]))
    ∧ (∀ py, fails .el (.progApertureRead true a size py) 4 1 x true)
    ∧ (∀ py, ¬ fits → fails .el (.progApertureRead false a size py) (accCause size x) 1 x false)
    ∧ (∀ py, fits →
        (s.seqState .el = 0 → exec (.progApertureRead false a size py) s = .next (s.answer .el 0 false))
        ∧ (s.seqState .el = 1 → fails .el (.progApertureRead false a size py) 5 1 x false)
        ∧ (1 < s.seqState .el → py = true → fails .el (.progApertureRead false a size py) 6 1 x false)
        ∧ (1 < s.seqState .el → py = false → exec (.progApertureRead false a size py) s = .next (s.answer .el (accHalf size x (s.progWord .el (x % 2 ^ 22))) false)))
    ∧ (s.bit .el Reg.SPM_STAT_CLEARING = true → Goes (.spmClearDone cycles) s (s.put .el Reg.SPM_STAT_CLEARING 0) .el [(0x07, 0x7005, 0, cycles)])
    ∧ (s.bit .el Reg.SPM_STAT_CLEARING = false → exec (.spmClearDone cycles) s = .next s)
    ∧ (∀ w, accDomain p o = 0 ∨ s.dstate p (accDomain p o) = 2 → exec (.accessDomainTimeout p w off) s = .next s)
    ∧ (∀ w, accDomain p o ≠ 0 → s.dstate p (accDomain p o) ≠ 2 → fails p (.accessDomainTimeout p w off) 8 0 o w)
    ∧ (winSizeCause p o size ≠ 0 → fails p (.registerWrite p off size v) (winSizeCause p o size) 0 o true)
    ∧ (winSizeCause .el o size = 0 → 0x3000000 ≤ o → fails .el (.registerWrite .el off size v) 3 3 (o - 0x3000000) true)
    ∧ (winSizeCause p o size = 0 →
        (0x10000 ≤ o → o < 0x20000 → exec (.registerWrite p off size v) s = .next (s.answer p 0 false))
        ∧ (o < 0x10000 → regRow p (o - o % 8) = some row → s.regHere p (o - o % 8) = true →
          exec (.registerWrite p off size v) s = .next ((s.regPut p (o - o % 8) (writeMask size o) (writeWord size o v) row).answer p 0 false))
        ∧ (o < 0x10000 → regRow p (o - o % 8) = none → secWindow o = none ∨ secWindow o = some .ro → exec (.registerWrite p off size v) s = .next (s.answer p 0 false)))
    ∧ (vc5Ok p addr.toNat len.toNat = false → exec (.vc5RdReq p addr len seq) s = .next (s.sendUp p (.rdRsp seq addr.toNat 10 [])))
    ∧ (vc5Ok p addr.toNat len.toNat = true → exec (.vc5RdReq p addr len seq) s = .next
        ((s.vc5Read p addr.toNat (len.toNat / 8)).2.sendUp p (.rdRsp seq addr.toNat 0 (s.vc5Read p addr.toNat (len.toNat / 8)).1)))
    ∧ (vc5Ok p addr.toNat data.length = false → exec (.vc5WrReq p addr data seq) s = .next (s.sendUp p (.wrRsp seq addr.toNat 10)))
    ∧ (vc5Ok p addr.toNat data.length = true → data.length = 8 → Ends (.vc5WrReq p addr data seq) s (fun u => (u.base p).rdata = (s.base p).rdata ∧ (u.base p).rerr = (s.base p).rerr
        ∧ ∀ q z, u.reg q z = (s.regWrite p addr.toNat .eight (BitVec.ofNat 64 (leNat data))).reg q z))
    ∧ exec .evtTransfer s = .next (s.modEl (fun x => { x with ports := { x.ports with evtQ := x.ports.evtQ.drop 1 } }))

/-! ### The manifest (chapter 15) -/

/-- Staging (R40, R442, R444, R477, R478): a write to a register with an ST field is staged under the mask of its size, and the register keeps its committed value; a register with none, or of a resource the instance lacks, stages nothing. While a commit is armed, or with the store full, 0x9003 names the register; a staged TB2 epoch with NS above 999,999,999 is 0x1008. An access of a wrong size or alignment is 0x9070. Where no rule speaks it follows the readings of the model in logs 43 and 63. -/
def Obligations.ManifestStaging : Prop :=
  ∀ (p : Part) (off : BitVec 26) (size : AccSize) (v : Word) (s : State),
    let o := off.toNat
    let r := o - o % 8
    let plain := match p with
      | .el => [0x1028, 0x1030, 0x2010, 0x2018, 0x3000, 0x6000, 0x6020, 0x6028, 0x6030, 0x7000, 0x7008, 0x7018, 0xB020, 0xC040]
      | .ux => [8, 0x3010, 0x6040, 0x6048, 0x6080, 0x7000, 0x7008, 0x7020, 0x7028, 0x7040, 0x7080, 0xC040]
    let w := maskMerge (s.staged p r) (writeWord size o v) (writeMask size o)
    let nsBad := p = .el ∧ r = 0x1030 ∧ nsOk w = false
    let full := stagedAt (s.base p).staged r = none ∧ stageCap p ≤ (s.base p).staged.length
    let done := s.answer p 0 false
    (s.isSt p r = false → exec (.stageWrite p off v size) s = .next s)
    ∧ (s.isSt p r = true → winSizeCause p o size ≠ 0 → Ends (.stageWrite p off v size) s (fun u => (u.base p).rerr = true ∧ (u.base p).rdata = 0 ∧ (u.base p).staged = (s.base p).staged
        ∧ RegsBut [(p, errOff p)] s u ∧ Logged p s u [(unitMan p, 0x9070, 0, errWord (winSizeCause p o size) 0 o true)]))
    ∧ (r ∈ plain → s.regHere p r = true → winSizeCause p o size = 0 →
        (s.manState p = 2 → Goes (.stageWrite p off v size) s done p [(unitMan p, 0x9003, r, r)])
        ∧ (s.manState p ≠ 2 → nsBad → Goes (.stageWrite p off v size) s done p [(0x02, 0x1008, 2, 0x1030)])
        ∧ (s.manState p ≠ 2 → ¬ nsBad → full → Goes (.stageWrite p off v size) s done p [(unitMan p, 0x9003, r, r)])
        ∧ (s.manState p ≠ 2 → ¬ nsBad → ¬ full → Ends (.stageWrite p off v size) s (fun u => u.staged p r = stMerge p r (s.staged p r) (s.absentBits p r w) ∧ (∀ q ≠ r, u.staged p q = s.staged p q ∨ q = 0xB008)
            ∧ u.manState p = 1 ∧ RegsBut [(p, 0xB008)] s u ∧ Logged p s u [])))

/-- The manifest unit (R40, R201, R305, R318, R347, R443 to R450): a commit is armed for an instant 64 ns ahead on a set TB0 with a passing check, else LATE; EMPTY does nothing and ARMED refuses with 0x9003. DISARM keeps what is staged, DISCARD clears it. At the instant every staged field takes its value with 0x9001, or none does with 0x9004; of the commits of the run epoch in one run only the first takes effect. At T_c a die also clears its counters and FAILED, and the authority goes on after the target, or after a halt with the value staged. A hall-wide commit gathers a vote from each lane; the root commits it, or ends it with 0x9005. A commit message in time sets the instant; a late one fails a die's step and is 0x9006 of a chip. Work of a disabled unit ends with 0x9007. Where no rule speaks it follows the readings of the model in logs 22, 29, 51, 76 and 106. -/
def Obligations.ManifestUnit : Prop :=
  ∀ (p : Part) (lane : Fin 160) (passes fails t c o : Nat) (first : Option Subj) (unit : Fin 5) (ch : Nat) (h : HallVote) (b : Rollback) (s : State),
    let st := s.manState p
    let sts := (s.base p).staged
    let armed := fun (q : Nat) => (s.put p Reg.MAN_STAT_STATE 2).mod p (fun x => { x with manAt := some q, hallArm := false })
    let said := fun (q : Nat) => [((unitMan p, 0x9003, q, q) : Entry)]
    let disarmed := fun (z : State) => if z.manState p = 2 then (z.put p Reg.MAN_STAT_STATE (if sts = [] then 0 else 1)).mod p (fun x => { x with manAt := none, hallArm := false }) else z
    let down := s.ux.base.hallArm = true ∨ s.ux.hall.isSome = true
    let ready := s.tbState p 0 ≠ 0 ∧ s.manCheck p = none ∧ hxtAdd (s.tbNow p 0) (hxtNs 64) ≤ s.manInstant p
    let come := fun (q : Nat) => q = 0 ∨ s.tbState p 0 ≠ 0 ∧ q ≤ s.tbNow p 0
    let due := (s.base p).rbAt = none ∧ (s.base p).manAt = some t ∧ st = 2 ∧ come t
    let kept := match p with
      | .el => [0x2010, 0x2018, 0x6020, 0x6028, 0x6030, 0x7000, 0x7008, 0x7018, 0xB020]
      | .ux => [0x6040, 0x7028]
    let cleared := fun (u : State) => u.el.counters = [] ∧ u.el.land = [] ∧ u.bit .el Reg.CHK_STAT_FAILED = false ∧ u.el.ports.idcClear = true
    let waits := fun (u : State) => u.ux.hall.any (fun v => decide (v.waiting = s.hallLanes ∧ v.passes + v.fails = 1)) = true ∧ (s.ux.base.staged ≠ [] → u.manState .ux = 2 ∧ u.ux.base.hallArm = true) ∧ Logged .ux s u []
    let prepped := if s.el.base.staged = [] then s.mod .el (fun x => { x with hallSeen := none })
      else (s.put .el Reg.MAN_STAT_STATE 2).mod .el (fun x => { x with manAt := none, hallArm := true, hallSeen := none })
    let rest := h.waiting.filter (fun x => x != lane.val)
    let owes := s.ux.hall = some h ∧ h.waiting.contains lane.val = true
    let hv := Instr.manVote lane passes fails first
    let soon := s.tbState .ux 0 = 0 ∨ s.hallAt < s.tbNow .ux 0 + psHxt s.dLaunch + hxtNs (s.get .ux Reg.UX_MAN_HALL_CTRL_COMMIT_GUARD)
    let ended := fun (code : Nat) (u : State) => u.ux.hall = none ∧ u.bit .ux Reg.UX_MAN_HALL_CTRL_BUSY = false ∧ u.get .ux Reg.UX_MAN_HALL_CTRL_HALL_STAT = code ∧ Logged .ux s u [(0x47, 0x9005, 0, code)]
    let go := s.authority = true ∧ s.bit .ux Reg.UX_MAN_HALL_CTRL_BUSY = false
    let fresh := (s.base p).hallSeen ≠ some t
    let late := s.tbNow p 0 - t
    let ops := s.el.base.qops.filter (fun x => queueUnit x.queue == some unit.val)
    let off := bitOf (s.get .el Reg.MAN_UNITEN_EN) unit = false
    let offs := sts.map Prod.fst
    let halted := s.bit .ux Reg.UX_HC_STAT_UNRECOVERABLE = true ∧ (s.ux.base.staged.map Prod.fst).contains 0x6048 = true
    let host := (List.range s.el.lic.dmaCh).countP (fun x => s.get .el (Reg.DMA_STAT_STATE x) == 1 && (s.dma x).qid.isNone)
    let onCh := fun (x : QOp) => (List.range s.el.lic.dmaCh).any (fun y => (s.dma y).qid == some x.id)
    (st = 0 → exec (.manArm p) s = .next s ∧ exec (.manNow p) s = .next s)
    ∧ (st = 2 → Goes (.manArm p) s s p (said 0xB000) ∧ Goes (.manNow p) s s p (said 0xB000) ∧ Goes (.manDiscard p) s s p (said 0xB000))
    ∧ (st ≠ 0 → st ≠ 2 →
        (¬ ready → exec (.manArm p) s = .next (s.put p Reg.MAN_STAT_LATE 1)) ∧ (ready → exec (.manArm p) s = .next (armed (s.manInstant p)))
        ∧ (s.manCheck p ≠ none → exec (.manNow p) s = .next (s.put p Reg.MAN_STAT_LATE 1)) ∧ (s.manCheck p = none → exec (.manNow p) s = .next (armed 0)))
    ∧ (st ≠ 2 → exec (.manDiscard p) s = .next ((s.mod p (fun x => { x with staged := [] })).put p Reg.MAN_STAT_STATE 0))
    ∧ (p = .el ∨ ¬ down → exec (.manDisarm p) s = .next (disarmed s))
    ∧ (p = .ux → down → exec (.manDisarm p) s = .next (disarmed ((s.sendDown downLanes .manDisarm).modUx (fun u => { u with hall := none }))))
    ∧ ((s.base p).rbAt = none → (s.base p).manAt = none ∨ st ≠ 2 → exec (.manifestCommit p) s = .next s)
    ∧ ((s.base p).rbAt = some t ∨ (s.base p).rbAt = none ∧ (s.base p).manAt = some t → ¬ come t → exec (.manifestCommit p) s = .next s)
    ∧ (due → s.manCheck p = none → Ends (.manifestCommit p) s (fun u => (u.base p).staged = [] ∧ (u.base p).manAt = none ∧ u.manState p = 0
        ∧ (∃ pre post, Logged p s u (pre ++ (unitMan p, 0x9001, 0, sts.length) :: post))
        ∧ (o ∈ kept → u.reg p o = (sts.filter (fun e => e.1 == o)).foldl (fun a e => stMerge p o a e.2) (s.reg p o))
        ∧ (p = .el → offs.contains 0x1028 = true ∨ offs.contains 0x1030 = true → s.el.epochTaken = true → offs.contains 0x2018 = false → ∀ q ∈ [0x1028, 0x1030], u.reg .el q = s.reg .el q)
        ∧ (p = .el → offs.contains 0x1028 = true → s.el.epochTaken = false → u.el.epochTaken = true ∧ u.reg .el 0x1028 = (sts.filter (fun e => e.1 == 0x1028)).foldl (fun a e => stMerge .el 0x1028 a e.2) (s.reg .el 0x1028))
        ∧ (p = .el → offs.contains 0x2018 = true → cleared u ∧ u.reg .el Reg.CHK_SEAL_LAST.off = u.reg .el Reg.SEQ_STEP_NEXT.off - 1)))
    ∧ (due → s.manCheck p = some (c, o) → Ends (.manifestCommit p) s (fun u => (u.base p).staged = sts ∧ (u.base p).manAt = none ∧ u.manState p = 1
        ∧ (p = .el → s.el.base.hallArm = true → u.bit .el Reg.CHK_STAT_FAILED = true) ∧ ∃ es, Logged p s u ((unitMan p, 0x9004, 0, c) :: es)))
    ∧ (p = .el → s.el.base.rbAt = some t → come t →
        (s.manCheck .el = none → Ends (.manifestCommit .el) s (fun u => cleared u ∧ u.el.base.staged = [] ∧ u.el.base.rbAt = none ∧ u.bit .el Reg.HC_STAT_ROLLBACK = false
          ∧ u.el.ports.rollbackReq = false ∧ (u.guard .el).rbHeld = false))
        ∧ (s.manCheck .el ≠ none → Ends (.manifestCommit .el) s (fun u => u.el.base.staged = s.el.base.staged ∧ u.el.base.rbAt = none ∧ u.bit .el Reg.CHK_STAT_FAILED = true)))
    ∧ (p = .ux → s.ux.base.rbAt = some t → come t → s.ux.rollback = some b → Ends (.manifestCommit .ux) s (fun u => u.ux.rollback = none ∧ u.ux.base.rbAt = none ∧ u.ux.assigned = []
        ∧ (¬ halted → u.reg .ux Reg.UX_SEAL_NEXT_NEXT.off = b.target + 1)
        ∧ (¬ halted → s.tier = 2 → (s.ux.base.staged.map Prod.fst).contains 8 = false → u.reg .ux Reg.UX_SEAL_STAT_LAST.off = b.target ∧ u.bit .ux Reg.UX_SEAL_FAIL_PENDING = false ∧ u.ux.launched = false)
        ∧ u.bit .ux Reg.UX_HC_STAT_UNRECOVERABLE = false ∧ u.bit .ux Reg.UX_HC_STAT_ROLLBACK = false ∧ u.bit .ux Reg.UX_HC_STAT_GATE_CLOSED = false ∧ ∃ es, Logged .ux s u (es ++ [(0x42, 0x6006, 0, t % hxtSec / 2 ^ 32)])))
    ∧ (¬ go → exec .hallGo s = .next s)
    ∧ (go → s.hallLanes ≠ [] → Ends .hallGo s (fun u => u.bit .ux Reg.UX_MAN_HALL_CTRL_BUSY = true ∧ waits u))
    ∧ (s.hallLanes ≠ [] → Ends (.manPrep .ux) s waits) ∧ (s.hallLanes = [] → s.tier ≠ 2 → Ends (.manPrep .ux) s (fun u => u.ux.hall = none ∧ Logged .ux s u []))
    ∧ exec (.manPrep .el) s = .next (prepped.sendUp .el (if prepped.manCheck .el = none then .manVote 1 0 none else .manVote 0 1 (some (dieSubj s.myPdi))))
    ∧ (s.ux.hall = none ∨ (s.ux.hall = some h ∧ h.waiting.contains lane.val = false) → exec hv s = .next s)
    ∧ (owes → rest ≠ [] → exec hv s = .next (s.modUx (fun u => { u with hall := some (({ h with waiting := rest } : HallVote).join passes fails first) })))
    ∧ (owes → rest = [] →
        (s.tier ≠ 2 → Ends hv s (fun u => u.ux.hall = none ∧ Logged .ux s u []))
        ∧ (s.tier = 2 → h.fails + fails ≠ 0 → Ends hv s (ended 10)) ∧ (s.tier = 2 → h.fails + fails = 0 → soon → Ends hv s (ended 1))
        ∧ (s.tier = 2 → h.fails + fails = 0 → ¬ soon → Ends hv s (fun u => u.ux.hall = none ∧ u.bit .ux Reg.UX_MAN_HALL_CTRL_BUSY = false ∧ u.get .ux Reg.UX_MAN_HALL_CTRL_HALL_STAT = 0
            ∧ (s.ux.base.hallArm = true → u.ux.base.manAt = some s.hallAt) ∧ Logged .ux s u [])))
    ∧ (s.bit .ux Reg.UX_MAN_HALL_CTRL_BUSY = false → exec .hallTimeout s = .next s) ∧ (s.bit .ux Reg.UX_MAN_HALL_CTRL_BUSY = true → Ends .hallTimeout s (ended 6))
    ∧ (¬ fresh → exec (.manCommitMessage p t) s = .next s)
    ∧ (fresh → s.tbNow p 0 ≤ t → Ends (.manCommitMessage p t) s (fun u => (u.base p).manAt = (if (s.base p).hallArm then some t else (s.base p).manAt) ∧ (u.base p).hallSeen = some t ∧ RegsBut [] s u ∧ Logged p s u []))
    ∧ (fresh → t < s.tbNow p 0 → p = .el → Ends (.manCommitMessage p t) s (fun u => u.bit .el Reg.CHK_STAT_FAILED = true ∧ u.el.base.staged = s.el.base.staged ∧ u.manState .el ≠ 2))
    ∧ (fresh → t < s.tbNow p 0 → p = .ux → Ends (.manCommitMessage p t) s (fun u => (∃ es, Logged .ux s u (es ++ [(0x47, 0x9006, 0, (psOf (late : Int)).toNat)]))
        ∧ (s.ux.base.hallArm = true → s.manCheck .ux = none → u.ux.base.staged = [])))
    ∧ (¬ off → exec (.unitDrainTimeout unit) s = .next s)
    ∧ (off → Ends (.unitDrainTimeout unit) s (fun u => (∃ es, Logged .el s u (es ++ [(0x0B, 0x9007, 3 + unit.val, ops.length + (if unit.val = 4 then host else 0))]))
        ∧ (∀ x ∈ u.el.base.qops, queueUnit x.queue = some unit.val → onCh x = true)
        ∧ (unit.val = 4 → ch < s.el.lic.dmaCh → s.get .el (Reg.DMA_STAT_STATE ch) = 1 → (s.dma ch).fetched = true → u.get .el (Reg.DMA_STAT_STATE ch) = 2 ∧ (u.dma ch).endSt = 4)))

/-! ### Clocks and power (chapter 13, R468) -/

/-- Clocks and power (R403 to R421, R468, R495, R496): the standby PLL that has locked takes over with 0x8001 in a tick with FRC[21:16] = 0; a lost active PLL does so with 0x8002, and without a standby one is FCLK_LOSS. A stretch counts, takes one entry from each ford its region produces into and leaves one more, up to 8, in each it consumes from, and slips a program of the region's sequencer; a Uhloux region that stretched within 32 core-clock periods does not again. The throttle input limits FMUL_EFF, and the standby PLL relocks to it. A die that may sleep puts the domains of SLEEP_MASK in RET or OFF, SPM keeping its retained groups, and wakes with 0x8010. A supply turns its domains OFF, or ON. A Uhloux domain sleeps unless forced ON; a failed quadrant takes its lanes and asks for replacement. Where no rule speaks it follows the readings of the model in logs 10, 42, 46, 49, 81, 114 and 118. -/
def Obligations.ClocksAndPower : Prop :=
  ∀ (p : Part) (region : Fin 64) (level : Bool) (durNs : BitVec 32) (d : Fin 24) (e : Nat) (q : Fin 4) (x v : Nat) (s : State),
    let sel := match p with | .el => Reg.CLK_STAT_PLL_SEL | .ux => Reg.UX_CLK_STAT_PLL_SEL
    let fail := match p with | .el => Reg.CLK_STAT_PLL_FAIL | .ux => Reg.UX_CLK_STAT_PLL_FAIL
    let pll := fun (u : State) => (u.base p).pll
    let mul := fun (u : State) => match p with | .el => u.get .el Reg.CLK_STAT_FMUL_CUR | .ux => u.get .ux Reg.UX_CLK_CTRL_CMUL
    let stopped := p = .el ∧ s.fclkStopped = true
    let switched := fun (u : State) => u.get p sel = 1 - s.get p sel ∧ (pll u).activeLocked = true ∧ RegsBut [(p, 0xA018), (p, Reg.SEQ_SLIPS_STEP.off)] s u
    let took := fun (u : State) => switched u ∧ u.bit p fail = true ∧ (pll u).standbyLocked = false ∧ Logged p s u [(unitClk p, 0x8002, s.get p sel, s.get p sel)]
    let lost := fun (u : State) => u.triggered p 6 0 3 ∧ (pll u).activeLocked = false
    let r := if region.val < s.el.lic.regions then region.val else 0
    let mid := e ∈ [1, 2, 3, 4, 5]
    let ds := s.dstate .el e
    let asleep := s.bit .el Reg.PWR_STAT_ASLEEP
    let waking := s.bit .el Reg.PWR_STAT_WAKING
    let sleeps := bitOf (s.get .el Reg.PWR_SLEEP_MASK) (e - 1) = true ∧ ds = 2
    let dux := s.dstate .ux d
    let forced := bitOf (s.get .ux Reg.UX_PWR_CTRL_FORCE_ON) d = true ∧ ¬ (s.ux.warnCap = true ∧ 16 ≤ d.val ∧ d.val ≤ 18)
    let str := Instr.droopStretch
    let now := s.tick .ux
    let rx := region.val
    let marked := (s.count .ux Reg.UX_CLK_STAT_STRETCH 1).mod .ux (fun b => { b with stretchAt := tput 0 b.stretchAt rx (now + 1) })
    let fords := fun (q : Part) (z : Nat) (u : State) => s.regionCount q ≤ 64 → ∀ y < s.regionCount q, fordPair q z y = true →
      (u.ford q z y).entries.length = (s.ford q z y).entries.length - 1 ∧ (u.ford q y z).entries.length = min 8 ((s.ford q y z).entries.length + 1)
    (stopped ∨ (pll s).relocking = false ∨ s.tick p % 64 ≠ 0 → exec (.fclkSwitch p) s = .next s)
    ∧ (¬ stopped → (pll s).relocking = true → s.tick p % 64 = 0 → Ends (.fclkSwitch p) s (fun u => switched u ∧ (pll u).standbyLocked = true ∧ (pll u).relocking = false
        ∧ (p = .el → mul u = (pll s).standbyMul % 512) ∧ Logged p s u [(unitClk p, 0x8001, u.get p sel, mul u)]))
    ∧ (stopped → exec (.pllFail p) s = .next s)
    ∧ (¬ stopped → (pll s).standbyLocked = true → Ends (.pllFail p) s took)
    ∧ (p = .ux → (pll s).standbyLocked = false → s.ux.corePllLost = true → s.guardFree p → Ends (.pllFail p) s lost)
    ∧ (¬ stopped → (pll s).standbyLocked = false → p = .el ∨ s.ux.corePllLost = false → s.guardFree p → Ends (.pllFail p) s (fun u => took u ∨ lost u))
    ∧ (s.ux.base.pll.standbyLocked = true → exec .corePllTimeout s = .next s)
    ∧ (s.ux.base.pll.standbyLocked = false → Ends .corePllTimeout s (fun u => u.ux.corePllLost = true ∧ bitOf (u.get .ux Reg.UX_REPLACE_CAUSE) 3 = true
        ∧ RegsBut [(.ux, 0x7090)] s u ∧ Logged .ux s u (if bitOf (s.get .ux Reg.UX_REPLACE_CAUSE) 3 then [] else [(0x47, 0x9050, 0, 3)])))
    ∧ (s.mayStretch rx = false → exec (str .ux region) s = .next s)
    ∧ (s.mayStretch rx = true → Ends (str .ux region) s (fords .ux rx)
        ∧ exec (str .ux region) s = .next (if rx = Config.treeRegion % 64 ∧ s.seqState .ux = 3 then (marked.fordsStretch .ux rx).slip .ux 1 else marked.fordsStretch .ux rx))
    ∧ (Ends (str .el region) s (fords .el r)
        ∧ (r ≠ 0 ∨ s.seqState .el ≠ 3 → exec (str .el region) s = .next ((s.count .el (strFld r) 1).fordsStretch .el r))
        ∧ (r = 0 → s.seqState .el = 3 → exec (str .el region) s = .next (((s.count .el Reg.CLK_STRETCH_STR0 1).fordsStretch .el 0).slip .el 1)))
    ∧ Ends (.throttleChange level) s (fun u => let f := max 25 (s.get .el Reg.CLK_CTRL_FMUL_RUN - s.get .el Reg.CLK_CTRL_FSTEP * s.get .el Reg.HC_STAT_FSTEPS)
        let on := level = true ∧ s.bit .el Reg.CLK_CTRL_THR_EN = true
        u.el.ports.throttle = level ∧ (u.bit .el Reg.CLK_STAT_THROTTLE = true ↔ on) ∧ (on → u.fmulEff = min f (s.get .el Reg.CLK_CTRL_FMUL_THR)) ∧ (¬ on → u.fmulEff = f)
        ∧ (u.fmulEff ≠ s.get .el Reg.CLK_STAT_FMUL_CUR → u.el.base.pll.relocking = true ∧ u.el.base.pll.standbyMul = u.fmulEff)
        ∧ (u.fmulEff = s.get .el Reg.CLK_STAT_FMUL_CUR → u.el.base.pll.relocking = false) ∧ RegsBut [(.el, 0xA018)] s u ∧ Logged .el s u [])
    ∧ (s.canSleep = false → exec .sleepEntry s = .next s)
    ∧ (s.canSleep = true → Ends .sleepEntry s (fun u => u.bit .el Reg.PWR_STAT_ASLEEP = true ∧ (mid → sleeps → u.dstate .el e = (if e = 3 ∨ e = 5 then 0 else 1)) ∧ (mid → ¬ sleeps → u.dstate .el e = ds)
        ∧ (e = 5 → sleeps → mget u.el.spm x = if bitOf (s.get .el Reg.PWR_GROUP_RET) (s.spmGroup x) then mget s.el.spm x else 0) ∧ u.el.base.staged = s.el.base.staged ∧ Logged .el s u []))
    ∧ (asleep = false → exec .wakeTrigger s = .next s)
    ∧ (asleep = true → Ends .wakeTrigger s (fun u => u.bit .el Reg.PWR_STAT_ASLEEP = false ∧ u.bit .el Reg.PWR_STAT_WAKING = true ∧ (s.dstate .el 5 = 0 → u.bit .el Reg.SPM_STAT_CLEARING = true)
        ∧ RegsBut [(.el, 0xA008), (.el, 0x80D0)] s u ∧ Logged .el s u []))
    ∧ (waking = false → exec (.wakeEnd durNs) s = .next s)
    ∧ (waking = true → s.seqState .el ≠ 3 → Ends (.wakeEnd durNs) s (fun u => u.bit .el Reg.PWR_STAT_WAKING = false ∧ u.get .el Reg.PWR_STAT_LAST_WAKE = durNs.toNat
        ∧ (mid → u.dstate .el e = (if ds ≤ 1 ∧ s.el.supplyCore = true then 2 else ds)) ∧ u.get .el Reg.CLK_STAT_FMUL_CUR = s.fmulEff % 512
        ∧ u.el.base.pll = { activeLocked := true, standbyLocked := true, standbyMul := s.fmulEff, relocking := false } ∧ u.el.base.fords = [] ∧ Logged .el s u [(0x0E, 0x8010, 0, durNs.toNat)]))
    ∧ (waking = true → s.seqState .el = 3 → Ends (.wakeEnd durNs) s (fun u => u.bit .el Reg.PWR_STAT_WAKING = false ∧ ∃ es, Logged .el s u ((0x0E, 0x8010, 0, durNs.toNat) :: es)))
    ∧ Ends (.supplyChange 0 true) s (fun u => u.el.supplyCore = true ∧ (mid → u.dstate .el e = (if ds = 0 ∧ s.fclkStopped = false then 2 else ds)) ∧ RegsBut [(.el, 0xA008)] s u ∧ Logged .el s u [])
    ∧ Ends (.supplyChange 0 false) s (fun u => u.el.supplyCore = false ∧ (mid → u.dstate .el e = (if ds = 2 then 0 else ds)) ∧ (u.dstate .el 1 = 0 → u.el.base.qops = []) ∧ Logged .el s u [])
    ∧ exec (.supplyChange 1 true) s = .next (s.modEl (fun z => { z with supplyRet := true }))
    ∧ Ends (.supplyChange 1 false) s (fun u => u.el.supplyRet = false ∧ (e = 1 ∨ e = 2 ∨ e = 4 → u.dstate .el e = (if ds = 1 then 0 else ds)) ∧ (s.dstate .el 5 = 0 → u.el.spm = []) ∧ Logged .el s u [])
    ∧ exec (.supplyChange 2 true) s = .next ((s.modEl (fun z => { z with supplyPhy := true })).setDstate .el 6 2)
    ∧ Ends (.supplyChange 2 false) s (fun u => u.el.supplyPhy = false ∧ u.dstate .el 6 = 0 ∧ u.laneUp .el 0 = false ∧ u.laneUp .el 1 = false)
    ∧ (uxLow d = none ∨ dux ≠ 2 ∨ forced → exec (.uxDomainIdle d) s = .next s)
    ∧ (uxLow d = some v → dux = 2 → ¬ forced → exec (.uxDomainIdle d) s = .next (s.setDstate .ux d v) ∧ (s.setDstate .ux d v).dstate .ux d = v)
    ∧ (2 ≤ dux ∨ s.ux.stacksLost.contains d.val = true → exec (.uxDomainOn d) s = .next s)
    ∧ (dux ≤ 1 → s.ux.stacksLost.contains d.val = false → Ends (.uxDomainOn d) s (fun u => u.dstate .ux d = 2
        ∧ (3 ≤ d.val → d.val ≤ 10 → bitOf (u.get .ux Reg.UX_IDENT_HBM_STACKS) (d - 3) = true) ∧ RegsBut [(.ux, 0xA008), (.ux, 0x10)] s u ∧ Logged .ux s u []))
    ∧ Ends (.quadrantFail q) s (fun u => bitOf (u.get .ux Reg.UX_REPLACE_CAUSE) 1 = true ∧ (40 * q.val ≤ x → x < 40 * q.val + 40 → u.laneUp .ux x = false))

/-! ### The guard (chapter 14) -/

/-- The guard (R422 to R433, R439): a watchdog that has run its time outside a window logs 0x8020, a hang 0x8021 with its culprit; a free guard takes the trigger, a busy one counts it in LATER. A word that cannot be read ends its section of the dump. A complete dump is 0x8025; then the step kill and the first stage, or FAULT_HOLD in MODE TEST holds the action until it is written 0. A stage succeeds by the report of its domain, stage 3 by all, and a domain's release sends an alignment pulse to its fords; a time-out is 0x8027 and starts the next stage: a domain reset, a die's stage 3 with DIE_FATAL, a warm reset of a chip. FATAL_CLR lets a held rollback request go. Where no rule speaks it follows the readings of the model in logs 20, 60, 61, 114 and 115. -/
def Obligations.GuardActions : Prop :=
  ∀ (p : Part) (unit : Byte) (cause : Fin 10) (u i : Nat) (word : BitVec 32) (d : Fin 24) (dump : Dump) (s : State),
    let g := s.guard p
    let stat := (p, Reg.GUARD_STAT_ACTIVE.off)
    let later := fun (v : State) => v.get p Reg.GUARD_STAT_LATER = min 65535 (s.get p Reg.GUARD_STAT_LATER + 1) ∧ RegsBut [stat] s v
    let trips := fun (c : Instr) (code who : Nat) (e : Entry) =>
      (s.guardFree p → Ends c s (fun v => v.triggered p code who 1 ∧ ∃ es, Logged p s v (e :: es)))
      ∧ (s.guardActive p = true → Ends c s (fun v => later v ∧ v.guard p = g ∧ Logged p s v [e]))
    let expired := bitOf (s.get p Reg.GUARD_WD_EN) i = true ∧ s.seqState p = 3 ∧ bitOf (s.windowMask p) i = false ∧ s.wdLimit p ≤ tget 0 (s.base p).wdCount i
    let busy := s.bit p Reg.GUARD_STAT_DUMP_BUSY
    let idle := fun (v : State) => (v.guard p).phase = .idle ∧ v.bit p Reg.GUARD_STAT_ACTIVE = false ∧ (v.seq p).stopIssue = false
    let entry := fun (n : Nat) => if n = 1 then ((unitGuard p, 0x8022, g.culprit, g.trigger) : Entry) else if n = 2 then (unitGuard p, 0x8023, g.culprit, unitDomain p g.culprit)
      else match p with | .el => (0x0A, 0x8024, 0, g.trigger) | .ux => (0x46, 0x8030, g.culprit, g.trigger)
    let starts := fun (n : Nat) (v : State) => (v.guard p).phase = .stage n ∧ v.get p Reg.GUARD_STAT_STAGE = n ∧ (∃ pre post, Logged p s v (pre ++ entry n :: post))
      ∧ (n = 2 → unitDomain p g.culprit ≠ 0 → v.dstate p (unitDomain p g.culprit) = 3)
      ∧ (n = 3 → (∀ x ∈ stage3Domains p, v.dstate p x = 3) ∧ (p = .el → v.bit .el Reg.GUARD_STAT_DIE_FATAL = true ∧ v.bit .el Reg.GUARD_STAT_MEM_RETAIN = true ∧ v.el.counters = [] ∧ v.el.spm = [] ∧ v.seqState .el = 0)
        ∧ (p = .ux → v.ux.base.qops = [] ∧ v.ux.base.mem = [] ∧ v.seqState .ux = 0))
    let first := if g.fclkLoss = true then 3 else g.firstStage
    let proceeds := fun (v : State) => (first = 0 → idle v) ∧ (1 ≤ first → first ≤ 3 → starts first v) ∧ (p = .el → v.el.base.qops = [])
    let held := p = .el ∧ s.runMode = 2 ∧ s.bit .el Reg.GUARD_CTRL_FAULT_HOLD = true
    let last := (stage3Domains p).all (fun x => g.done.contains x || x == d.val)
    let asks := fun (v : State) => p = .el → g.rbHeld = true → v.bit .el Reg.GUARD_STAT_DIE_FATAL = false → v.el.ports.rollbackReq = true
    let fatal := s.bit p Reg.GUARD_STAT_DIE_FATAL = true ∧ g.phase ≠ .stage 3
    (wdBit p unit.toNat = none ∨ (wdBit p unit.toNat = some i ∧ ¬ expired) → exec (.watchdog p unit) s = .next s)
    ∧ (wdBit p unit.toNat = some i → expired → trips (.watchdog p unit) 1 unit.toNat (unitGuard p, 0x8020, unit.toNat, s.get p Reg.GUARD_WD_TMO))
    ∧ (s.hangCulprit p cause = none ∨ (s.seqState p ≠ 3 ∧ s.seqState p ≠ 4) → exec (.hang p cause) s = .next s)
    ∧ (s.hangCulprit p cause = some u → trips (.hang p cause) 2 u (unitGuard p, 0x8021, u, cause.val))
    ∧ (busy = false ∨ s.dumpWordIn p unit.toNat word.toNat = false → exec (.dumpReadTimeout p unit word) s = .next s)
    ∧ (busy = true → s.dumpWordIn p unit.toNat word.toNat = true → g.dump = some dump → exec (.dumpReadTimeout p unit word) s = .next (s.modGuard p (fun x => { x with dump := some (if dump.firstBad unit.toNat = none then { dump with bad := dump.bad ++ [(unit.toNat, word.toNat)] } else dump) })))
    ∧ (busy = false ∨ g.dump = none → exec (.dumpComplete p) s = .next s)
    ∧ (busy = true → g.dump = some dump → Ends (.dumpComplete p) s (fun v => v.bit p Reg.GUARD_STAT_DUMP_BUSY = false ∧ v.bit p Reg.GUARD_STAT_DUMP_VALID = true
        ∧ (v.guard p).dump = some { dump with done := true } ∧ (held → (v.guard p).phase = .heldFault) ∧ (¬ held → proceeds v) ∧ ∃ es, Logged p s v ((unitGuard p, 0x8025, dump.unit, dump.mask p) :: es)))
    ∧ ((p = .ux ∧ s.ux.tripped = true) ∨ g.phase = .idle ∨ g.phase = .dumping ∨ g.phase = .heldFault → exec (.resetDoneReport p d) s = .next s)
    ∧ (p = .el ∨ s.ux.tripped = false →
        (∀ n, n ≠ 3 → g.phase = .stage n → d.val ≠ unitDomain p g.culprit → exec (.resetDoneReport p d) s = .next s)
        ∧ (∀ n, n ≠ 3 → g.phase = .stage n → d.val = unitDomain p g.culprit → Ends (.resetDoneReport p d) s (fun v => idle v ∧ asks v ∧ (n = 2 → v.dstate p d = 2 ∧ (p = .ux → v.ux.base.fords = [])) ∧ Logged p s v []))
        ∧ (g.phase = .stage 3 → (stage3Domains p).contains d.val = false ∨ g.done.contains d.val = true → exec (.resetDoneReport p d) s = .next s)
        ∧ (g.phase = .stage 3 → (stage3Domains p).contains d.val = true → g.done.contains d.val = false → Ends (.resetDoneReport p d) s (fun v => v.dstate p d = 2 ∧ (p = .ux → v.ux.base.fords = []) ∧ (p = .ux → d.val = 1 → v.ux.pcie.isSome = true) ∧ Logged p s v []
          ∧ (last = false → (v.guard p).phase = .stage 3 ∧ (v.guard p).done = g.done ++ [d.val])
          ∧ (last = true → idle v ∧ asks v ∧ (p = .ux → ∀ h, s.ux.fwNext = some h → v.ux.base.fwHash = h)))))
    ∧ (g.phase = .idle ∨ g.phase = .dumping ∨ g.phase = .heldFault → exec (.stageTimeout p) s = .next s)
    ∧ (∀ n, 1 ≤ n → n ≤ 3 → g.phase = .stage n → Ends (.stageTimeout p) s (fun v => (∃ es, Logged p s v ((unitGuard p, 0x8027, g.culprit, n) :: es))
        ∧ (n = 1 → starts (if p = .ux ∧ unitDomain .ux g.culprit = 15 then 3 else 2) v) ∧ (n = 2 → starts 3 v)
        ∧ (n = 3 → idle v ∧ (p = .el → (v.guard .el).hbStopped = true) ∧ (p = .ux → v.ux.lanesHeld = true ∧ bitOf (v.get .ux Reg.UX_REPLACE_CAUSE) 4 = true))))
    ∧ (¬ fatal → exec (.fatalClr p) s = .next s)
    ∧ (fatal → Ends (.fatalClr p) s (fun v => v.bit p Reg.GUARD_STAT_DIE_FATAL = false ∧ v.bit p Reg.GUARD_STAT_MEM_RETAIN = false ∧ asks v ∧ RegsBut [stat] s v ∧ Logged p s v []))
    ∧ (g.phase ≠ .heldFault → exec (.faultHoldRelease p) s = .next (s.put p Reg.GUARD_CTRL_FAULT_HOLD 0))
    ∧ (g.phase = .heldFault → Ends (.faultHoldRelease p) s (fun v => v.bit p Reg.GUARD_CTRL_FAULT_HOLD = false ∧ proceeds v))

/-! ### Security (chapter 16) -/

/-- Security (R439, R451 to R455, R459, R471): ATT_GO takes the nonce, and the report appears with ATT_DONE, its nonce at 0x18 and its signature after the body; without the PUF's key ATT_GO does nothing and a request is REFUSED. A report of several fragments goes out in order. A report is accepted with the nonce asked for, an allowed key and a good signature: its child has attested, so that a JOINING die's next heartbeat makes it STANDBY; else 0x9021. An open attestation is asked again with a fresh nonce. PROV_LOCK sets LOCKED and deselects the test data registers; debug opens with 0x9022 only for a good response. A revoked key verifies nothing; an image that does not verify is 0x9060. Where no rule speaks it follows the readings of the model in logs 14 and 83. -/
def Obligations.Security : Prop :=
  ∀ (p : Part) (lane : Fin 160) (nonce report pub image sig : List Byte) (mask : Byte) (keyId : Word) (s : State),
    let puf := s.bit p Reg.SEC_STAT_PUF_OK
    let r := (s.report p nonce).1
    let x := lane.val
    let taken := s.modUx (fun u => { u with nonces := tput [] u.nonces x [], attested := if u.attested.contains x then u.attested else u.attested ++ [x] })
    let asked := tget [] s.ux.nonces x
    let opened := x < 128 ∧ s.laneState .ux x = 4 ∧ asked ≠ []
    let noKey := fun (q : Part) => ∀ k < 8, s.keyRevoked q k = true
    let revoke := s.get p Reg.SEC_KUSE_REVOKE ||| mask.toNat
    (puf = true → exec (.attGo p) s = .next (s.mod p (fun b => { b with attPend := some (mread b.secBytes 0xC900 32) })))
    ∧ (puf = false → exec (.attGo p) s = .next s)
    ∧ ((s.base p).attPend = none → exec (.attDone p) s = .next s)
    ∧ ((s.base p).attPend = some nonce → Ends (.attDone p) s (fun u => u.bit p Reg.SEC_CTRL_ATT_DONE = true ∧ (u.base p).attPend = none ∧ (s.memOk → mread (u.base p).secBytes 0xCA00 r.length = r)
        ∧ RegsBut [(p, 0xC000)] s u ∧ Logged p s u []))
    ∧ (∃ e, r = s.reportBody p nonce ++ e ∧ e.length = 96) ∧ (nonce.length = 32 → (r.drop 0x18).take 32 = nonce ∧ r.take 4 = [0x48, 0x58, 0x41, 0x31])
    ∧ exec (.attestReq p lane nonce) s = .next (if puf then State.sendReport { s with draws := s.draws + 1 } p lane 0 r else s.sendReport p lane 10 [])
    ∧ (s.reportOk x report pub = true ↔ report.length = 296 ∧ asked ≠ [] ∧ (report.drop 0x18).take 32 = asked ∧ s.allowed pub = true ∧ ecdsaVerify pub (sha384 (report.take 0xC8)) (report.drop 0xC8) = true)
    ∧ (128 ≤ x → exec (.attestRsp lane report pub) s = .next s)
    ∧ (x < 128 → s.reportOk x report pub = false → Goes (.attestRsp lane report pub) s s .ux [(0x47, 0x9021, x, (s.childSubj x).pdi.toNat)])
    ∧ (x < 128 → s.reportOk x report pub = true → exec (.attestRsp lane report pub) s = .next taken)
    ∧ (¬ opened → exec (.attestRetry lane) s = .next s) ∧ (opened → Ends (.attestRetry lane) s (fun u => (tget [] u.ux.nonces x).length = 32 ∧ u.draws = s.draws + 4 ∧ RegsBut [] s u ∧ Logged .ux s u []))
    ∧ exec (.provLock p) s = .next ((s.put p Reg.SEC_CTRL_PROV_LOCK 1).put p Reg.SEC_STAT_LOCKED 1).tdrGate ∧ RegsBut [] (s.put p Reg.SEC_CTRL_PROV_LOCK 1) (s.put p Reg.SEC_CTRL_PROV_LOCK 1).tdrGate
    ∧ Goes (.dbgUnlock p sig) s (if s.dbgOk p sig = true then s.put p Reg.SEC_STAT_DBG_OPEN 1 else s) p (if s.dbgOk p sig = true then [(unitSec p, 0x9022, 0, 0)] else []) ∧ (s.dbgOk p sig = false → exec (.dbgUnlock p sig) s = .next s)
    ∧ (noKey p → s.dbgOk p sig = false)
    ∧ Ends (.keyRevoke p mask) s (fun u => u.get p Reg.SEC_KUSE_REVOKE = revoke ∧ u.get p Reg.SEC_STAT_REVOKED = revoke % 32 ∧ (∀ k < 8, u.keyRevoked p k = (s.keyRevoked p k || bitOf mask.toNat k))
        ∧ RegsBut [(p, 0xC010), (p, 0xC008)] s u ∧ Logged p s u [])
    ∧ (s.sigOk .ux 1 keyId (sha384 image) sig = true → exec (.fwImage image keyId sig) s = .next (s.modUx (fun u => { u with fwNext := some (sha384 image) })))
    ∧ (s.sigOk .ux 1 keyId (sha384 image) sig = false → Goes (.fwImage image keyId sig) s s .ux [(0x47, 0x9060, 0, 0)]) ∧ (noKey .ux → s.sigOk .ux 1 keyId (sha384 image) sig = false)

/-! ### Test, heat and degraded operation (chapters 16 and 18) -/

/-- Self-test, test unlock, heat and degraded operation (R152, R153, R463 to R465, R468, R469, R528): TEST_UNLOCK is set only with TEST_PERMIT, else 0xA001. A request is queued, or REFUSED; it starts in a window that fits or with FORCE, is deferred with 0x9030, and ends with 0x9031; a march leaves SPM cleared. PLDM shows the last report of each sensor. The junction's warning is 0x8040 and asks for replacement; its trip is 0x8041 and resets every domain for good. A failed HBM stack goes OFF and takes its capacity. A cleared cause that persists is set again with 0x9050. Where no rule speaks it follows the readings of the model in logs 81, 82 and 85. -/
def Obligations.TestAndThermal : Prop :=
  ∀ (p : Part) (v force : Bool) (action mask result : Byte) (tj : BitVec 16) (sensor : Fin 16) (stack : Fin 8) (m w : BitVec 6) (k x : Nat) (s : State),
    let a := action.toNat
    let go := Instr.selftestGo p action mask force
    let asks := fun (t : State) => (t.put p Reg.TEST_STREQ_MASK mask.toNat).put p Reg.TEST_STREQ_FORCE (if force then 1 else 0)
    let asked := asks (s.put p Reg.TEST_STREQ_ACTION a)
    let st := s.get p Reg.TEST_STSTAT_STATE
    let quiet := s.seqState .el = 0 ∨ s.seqState .el = 2
    let refused := st = 1 ∨ st = 2 ∨ (p = .el ∧ a = 4) ∨ (p = .ux ∧ a = 2) ∨ (force = true ∧ a = 2 ∧ ¬ quiet)
    let q := (s.base p).selftest
    let starts := st = 1 ∧ (q.action = 2 → quiet) ∧ (q.force = true ∨ s.actionFits p q.action q.mask = true)
    let held := p = .el ∧ s.seqState .el = 2 ∧ (s.seq .el).heldStarts ≠ []
    let cause := s.get .ux Reg.UX_REPLACE_CAUSE
    let d := 3 + stack.val
    let seen := s.modUx (fun u => { u with junction := tput 0 u.junction sensor tj.toNat })
    let gib := s.get .ux Reg.UX_LEDG_CFG_GIB - 12
    (v = true → s.bit p Reg.SEC_CTRL_TEST_PERMIT = false → Goes (.testUnlock p v) s s p [(unitTest p, 0xA001, 0xD000, 0xD000)])
    ∧ (v = false ∨ s.bit p Reg.SEC_CTRL_TEST_PERMIT = true → exec (.testUnlock p v) s = .next (s.put p Reg.TEST_CTRL_TEST_UNLOCK (if v then 1 else 0)))
    ∧ (a = 0 ∨ 4 < a → Ends go s (fun u => (∃ c < 0x1000, Logged p s u [(unitTest p, 0xA000 + c, 0xD008, 0)]) ∧ u.get p Reg.TEST_STREQ_ACTION = s.get p Reg.TEST_STREQ_ACTION ∧ RegsBut [(p, 0xD008)] s u))
    ∧ (1 ≤ a → a ≤ 4 → refused → exec go s = .next (asked.put p Reg.TEST_STSTAT_STATUS 10))
    ∧ (1 ≤ a → a ≤ 4 → ¬ refused → exec go s = .next (((asked.put p Reg.TEST_STSTAT_STATE 1).put p Reg.TEST_STSTAT_STATUS 0).mod p (fun b => { b with selftest := { action := a, mask := mask.toNat, force := force, logged := false } })))
    ∧ (starts → exec (.selftestStart p) s = .next (s.put p Reg.TEST_STSTAT_STATE 2)) ∧ (¬ starts → exec (.selftestStart p) s = .next s)
    ∧ (s.windowOpen p = none → p = .el ∨ s.seqState .ux = 3 ∨ s.seqState .ux = 4 → s.actionFits p q.action q.mask = false)
    ∧ (s.seqState .ux ≠ 3 → s.seqState .ux ≠ 4 → s.actionFits .ux q.action q.mask = true)
    ∧ (st = 1 → q.force = false → Goes (.selftestDefer p) s ((s.put p Reg.TEST_STSTAT_STATE 3).put p Reg.TEST_STSTAT_STATUS 11) p [(unitTest p, 0x9030, q.action, q.action)])
    ∧ (st ≠ 1 ∨ q.force = true → exec (.selftestDefer p) s = .next s)
    ∧ (st ≠ 2 → exec (.selftestDone p result) s = .next s)
    ∧ (st = 2 → Ends (.selftestDone p result) s (fun u => ∃ es, Logged p s u ((unitTest p, 0x9031, q.action, result.toNat) :: es)))
    ∧ (st = 2 → ¬ held → Ends (.selftestDone p result) s (fun u => u.get p Reg.TEST_STSTAT_STATE = 3 ∧ u.get p Reg.TEST_STSTAT_STATUS = 0 ∧ (q.action = 2 → u.el.spm = [] ∧ u.el.spmBad = [])
        ∧ (q.action = 4 → result = 0 → u.get .ux Reg.UX_IDENT_HBM_STACKS = (s.get .ux Reg.UX_IDENT_HBM_STACKS ||| q.mask) % 256) ∧ RegsBut [(p, 0xD010), (.ux, 0x10)] s u
        ∧ Logged p s u [(unitTest p, 0x9031, q.action, result.toNat)]))
    ∧ (s.ux.warnCap = true ∨ tj.toNat < 1000 → exec (.thermWarn tj sensor) s = .next seen)
    ∧ (s.ux.warnCap = false → 1000 ≤ tj.toNat → Ends (.thermWarn tj sensor) s (fun u => u.ux.warnCap = true ∧ u.ux.junction = seen.ux.junction ∧ bitOf (u.get .ux Reg.UX_REPLACE_CAUSE) 5 = true ∧ RegsBut [(.ux, 0x7090)] s u
        ∧ Logged .ux s u ((if bitOf cause 5 then [] else [(0x47, 0x9050, 0, 5)]) ++ [(0x4D, 0x8040, sensor.val, tj.toNat)])))
    ∧ exec (.thermClear sensor) s = .next (s.modUx (fun u => { u with warnCap := false, junction := terase u.junction sensor }))
    ∧ (s.ux.tripped = true ∨ tj.toNat < 1150 → exec (.thermtrip tj sensor) s = .next seen)
    ∧ (s.ux.tripped = false → 1150 ≤ tj.toNat → Ends (.thermtrip tj sensor) s (fun u => u.ux.tripped = true ∧ u.ux.lanesHeld = true ∧ (1 ≤ k → k ≤ 23 → u.dstate .ux k = 3) ∧ (x < 160 → u.laneState .ux x = 0)
        ∧ u.seqState .ux = 0 ∧ u.ux.base.qops = [] ∧ u.ux.base.mem = [] ∧ (x / 0x1000 = 3 → u.reg .ux x = resetWord .ux x) ∧ ∃ es, Logged .ux s u ((0x4D, 0x8041, sensor.val, tj.toNat) :: es)))
    ∧ (s.ux.stacksLost.contains d = true → exec (.hbmStackFail stack) s = .next s)
    ∧ (s.ux.stacksLost.contains d = false → Ends (.hbmStackFail stack) s (fun u => u.ux.stacksLost = s.ux.stacksLost ++ [d] ∧ u.dstate .ux d = 0 ∧ bitOf (u.get .ux Reg.UX_IDENT_HBM_STACKS) stack = false
        ∧ u.get .ux Reg.UX_LEDG_CFG_GIB = gib ∧ u.get .ux Reg.UX_LEDG_CFG_RET = min (64 * gib) 8192 ∧ u.get .ux Reg.UX_VAULT_STAT_CAP_DIES = s.get .ux Reg.UX_VAULT_STAT_CAP_DIES - 16
        ∧ bitOf (u.get .ux Reg.UX_REPLACE_CAUSE) 0 = true))
    ∧ Ends (.replaceClear m w) s (fun u => (k < 6 → bitOf (u.get .ux Reg.UX_REPLACE_CAUSE) k = (bitOf cause k && (!bitOf m.toNat k || bitOf w.toNat k))) ∧ RegsBut [(.ux, 0x7090)] s u
        ∧ Logged .ux s u (((List.range 6).filter (fun i => bitOf cause i && bitOf m.toNat i && bitOf w.toNat i)).map (fun i => (0x47, 0x9050, 0, i))))
end

