-- ==== Sys2Proof/Laws/Bits.lean ====
section
/-! SUPPORT. Laws of bit fields: a field reads what was set, the other fields stay. -/

namespace Sys2Proof.Machine

/-- Bit `i` of a word with a field set. -/
theorem fset_testBit (w : Word) (hi lo v i : Nat) (hlo : lo ≤ hi + 1) (hi63 : i < 64) :
    (fset w hi lo v).toNat.testBit i = if lo ≤ i ∧ i ≤ hi then v.testBit (i - lo) else w.toNat.testBit i := by
  unfold fset
  rw [BitVec.toNat_ofNat, Nat.testBit_mod_two_pow]
  simp only [hi63, decide_true, Bool.true_and, Nat.testBit_or, Nat.testBit_mod_two_pow, Nat.testBit_shiftLeft, Nat.testBit_shiftRight]
  by_cases h1 : i < lo
  · have : ¬ (lo ≤ i ∧ i ≤ hi) := by omega
    simp [this, h1, show ¬ (lo ≤ i) by omega, show ¬ (hi + 1 ≤ i) by omega]
  · by_cases h2 : i ≤ hi
    · have h3 : lo ≤ i ∧ i ≤ hi := by omega
      simp [h1, h3, show i - lo < hi + 1 - lo by omega, show ¬ (hi + 1 ≤ i) by omega]
    · have h3 : ¬ (lo ≤ i ∧ i ≤ hi) := by omega
      simp [h1, h3, show ¬ (i - lo < hi + 1 - lo) by omega, show hi + 1 ≤ i by omega, show hi + 1 + (i - (hi + 1)) = i by omega]

/-- A field reads what it was set to. -/
theorem fget_fset_same (w : Word) (hi lo v : Nat) (h : hi < 64) (hlo : lo ≤ hi) : fget (fset w hi lo v) hi lo = v % 2 ^ (hi + 1 - lo) := by
  apply Nat.eq_of_testBit_eq
  intro i
  simp only [fget, Nat.testBit_mod_two_pow, Nat.testBit_shiftRight]
  by_cases hi' : i < hi + 1 - lo
  · rw [fset_testBit w hi lo v (lo + i) (by omega) (by omega)]
    simp [hi', show lo + i ≤ hi by omega]
  · simp [hi']

/-- Setting a field leaves every field beside it. -/
theorem fget_fset_other (w : Word) (hi lo v a b : Nat) (h : hi < 64) (hlo : lo ≤ hi) (ha : a < 64) (hd : a < lo ∨ hi < b) :
    fget (fset w hi lo v) a b = fget w a b := by
  apply Nat.eq_of_testBit_eq
  intro i
  simp only [fget, Nat.testBit_mod_two_pow, Nat.testBit_shiftRight]
  by_cases hi' : i < a + 1 - b
  · rw [fset_testBit w hi lo v (b + i) (by omega) (by omega)]
    have : ¬ (lo ≤ b + i ∧ b + i ≤ hi) := by omega
    simp [hi', this]
  · simp [hi']

/-- A field fits its width. -/
theorem fget_lt (w : Word) (hi lo : Nat) : fget w hi lo < 2 ^ (hi + 1 - lo) := Nat.mod_lt _ (Nat.two_pow_pos _)

/-- Setting a field to what it holds changes nothing. -/
theorem fset_fget (w : Word) (hi lo : Nat) (hlo : lo ≤ hi) : fset w hi lo (fget w hi lo) = w := by
  apply BitVec.eq_of_toNat_eq
  apply Nat.eq_of_testBit_eq
  intro i
  by_cases hi' : i < 64
  · rw [fset_testBit w hi lo _ i (by omega) hi']
    split
    · next h => simp only [fget, Nat.testBit_mod_two_pow, Nat.testBit_shiftRight]; simp [show i - lo < hi + 1 - lo by omega, show lo + (i - lo) = i by omega]
    · rfl
  · have h1 := Nat.testBit_lt_two_pow (Nat.lt_of_lt_of_le (fset w hi lo (fget w hi lo)).isLt (Nat.pow_le_pow_right (by decide) (Nat.le_of_not_lt hi')))
    have h2 := Nat.testBit_lt_two_pow (Nat.lt_of_lt_of_le w.isLt (Nat.pow_le_pow_right (by decide) (Nat.le_of_not_lt hi')))
    rw [h1, h2]

end Sys2Proof.Machine
end

