-- ==== Sys2Proof/Laws/Memory.lean ====
section
/-! SUPPORT. Laws of sparse tables and memories: a read after a write, the other keys of a write, and that every operation keeps the canonical form. -/

namespace Sys2Proof.Machine

/-! ### Tables -/

theorem tget_tins_same {α : Type} (d : α) (t : Tbl α) (k : Nat) (v : α) (h : ∀ e ∈ t, e.1 ≠ k) : tget d (tins t k v) k = v := by
  induction t with
  | nil => simp [tins, tget]
  | cons e t ih =>
    obtain ⟨k', w⟩ := e
    have hk : k' ≠ k := h (k', w) (by simp)
    have ht : ∀ e ∈ t, e.1 ≠ k := fun e he => h e (by simp [he])
    by_cases hlt : k < k'
    · simp [tins, hlt, tget]
    · simp [tins, hlt, tget, hk, ih ht]

theorem tget_tins_other {α : Type} (d : α) (t : Tbl α) (k j : Nat) (v : α) (h : j ≠ k) : tget d (tins t k v) j = tget d t j := by
  induction t with
  | nil => simp [tins, tget, Ne.symm h]
  | cons e t ih =>
    obtain ⟨k', w⟩ := e
    by_cases hlt : k < k'
    · simp [tins, hlt, tget, Ne.symm h]
    · simp only [tins, hlt, if_false, tget, ih]

theorem tget_terase_same {α : Type} (d : α) (t : Tbl α) (k : Nat) : tget d (terase t k) k = d := by
  induction t with
  | nil => simp [terase, tget]
  | cons e t ih =>
    obtain ⟨k', w⟩ := e
    by_cases hk : k' = k
    · simpa [terase, hk] using ih
    · simpa [terase, hk, tget] using ih

theorem tget_terase_other {α : Type} (d : α) (t : Tbl α) (k j : Nat) (h : j ≠ k) : tget d (terase t k) j = tget d t j := by
  induction t with
  | nil => simp [terase, tget]
  | cons e t ih =>
    obtain ⟨k', w⟩ := e
    by_cases hk : k' = k
    · subst hk; simpa [terase, tget, Ne.symm h] using ih
    · have : terase ((k', w) :: t) k = (k', w) :: terase t k := by simp [terase, hk]
      rw [this]; simp only [tget, ih]

theorem not_mem_terase {α : Type} (t : Tbl α) (k : Nat) : ∀ e ∈ terase t k, e.1 ≠ k := by
  intro e he
  simpa using (List.mem_filter.mp he).2

/-- A read after a write to the same key gives the value written. -/
@[simp] theorem tget_tput_same {α : Type} [DecidableEq α] (d : α) (t : Tbl α) (k : Nat) (v : α) : tget d (tput d t k v) k = v := by
  unfold tput
  split
  · next h => rw [h]; exact tget_terase_same d t k
  · exact tget_tins_same d _ k v (not_mem_terase t k)

/-- A write leaves every other key as it was. -/
theorem tget_tput_other {α : Type} [DecidableEq α] (d c : α) (t : Tbl α) (k j : Nat) (v : α) (h : j ≠ k) :
    tget c (tput d t k v) j = tget c t j := by
  unfold tput
  split
  · exact tget_terase_other c t k j h
  · rw [tget_tins_other c _ k j v h]; exact tget_terase_other c t k j h

/-- A read of a key after a write. -/
theorem tget_tput {α : Type} [DecidableEq α] (d : α) (t : Tbl α) (k j : Nat) (v : α) :
    tget d (tput d t k v) j = if j = k then v else tget d t j := by
  split
  · next h => rw [h, tget_tput_same]
  · next h => exact tget_tput_other d d t k j v h

/-! ### The canonical form -/

theorem terase_tins {α : Type} (t : Tbl α) (k : Nat) (v : α) : terase (tins t k v) k = terase t k := by
  induction t with
  | nil => simp [tins, terase]
  | cons e t ih =>
    obtain ⟨k', v'⟩ := e
    unfold tins
    split
    · simp [terase]
    · simp only [terase, List.filter_cons] at ih ⊢
      rw [ih]

/-- Of two writes to one key the later one stands. -/
theorem tput_tput {α : Type} [DecidableEq α] (d : α) (t : Tbl α) (k : Nat) (v w : α) : tput d (tput d t k v) k w = tput d t k w := by
  have h : terase (tput d t k v) k = terase t k := by
    unfold tput
    split
    · simp [terase]
    · rw [terase_tins]
      simp [terase]
  unfold tput at *
  rw [h]

theorem twf_iff {α : Type} [DecidableEq α] (d : Nat → α) (t : Tbl α) :
    twf d t = true ↔ t.Pairwise (fun a b => a.1 < b.1) ∧ ∀ e ∈ t, e.2 ≠ d e.1 := by
  simp [twf]

theorem mem_tins {α : Type} (t : Tbl α) (k : Nat) (v : α) (e : Nat × α) : e ∈ tins t k v → e = (k, v) ∨ e ∈ t := by
  induction t with
  | nil => simp [tins]
  | cons x t ih =>
    obtain ⟨k', w⟩ := x
    by_cases hlt : k < k'
    · simp [tins, hlt]
    · intro h
      simp only [tins, hlt, if_false, List.mem_cons] at h ⊢
      rcases h with h | h
      · exact .inr (.inl h)
      · rcases ih h with h | h
        · exact .inl h
        · exact .inr (.inr h)

theorem pairwise_tins {α : Type} (t : Tbl α) (k : Nat) (v : α) (hk : ∀ e ∈ t, e.1 ≠ k) (h : t.Pairwise (fun a b => a.1 < b.1)) :
    (tins t k v).Pairwise (fun a b => a.1 < b.1) := by
  induction t with
  | nil => simp [tins]
  | cons x t ih =>
    obtain ⟨k', w⟩ := x
    have hne : k' ≠ k := hk (k', w) (by simp)
    have h1 := List.pairwise_cons.mp h
    by_cases hlt : k < k'
    · simp only [tins, hlt, if_true]
      refine List.pairwise_cons.mpr ⟨?_, h⟩
      intro e he
      rcases List.mem_cons.mp he with rfl | he
      · exact hlt
      · exact Nat.lt_trans hlt (h1.1 e he)
    · simp only [tins, hlt, if_false]
      refine List.pairwise_cons.mpr ⟨?_, ih (fun e he => hk e (by simp [he])) h1.2⟩
      intro e he
      rcases mem_tins t k v e he with rfl | he
      · show k' < k
        omega
      · exact h1.1 e he

/-- A write keeps the canonical form. -/
theorem twf_tput {α : Type} [DecidableEq α] (d : α) (t : Tbl α) (k : Nat) (v : α) (h : twf (fun _ => d) t = true) :
    twf (fun _ => d) (tput d t k v) = true := by
  rw [twf_iff] at h ⊢
  have he : (terase t k).Pairwise (fun a b => a.1 < b.1) := h.1.filter _
  have hm : ∀ e ∈ terase t k, e.2 ≠ d := fun e hm => h.2 e (List.mem_filter.mp hm).1
  unfold tput
  split
  · exact ⟨he, hm⟩
  · next hv =>
    refine ⟨pairwise_tins _ k v (not_mem_terase t k) he, ?_⟩
    intro e hm'
    rcases mem_tins _ k v e hm' with rfl | hm'
    · exact hv
    · exact hm e hm'

/-- Dropping entries keeps the canonical form. -/
theorem twf_filter {α : Type} [DecidableEq α] (d : Nat → α) (t : Tbl α) (f : Nat × α → Bool) (h : twf d t = true) :
    twf d (t.filter f) = true := by
  rw [twf_iff] at h ⊢
  exact ⟨h.1.filter _, fun e he => h.2 e (List.mem_filter.mp he).1⟩

/-! ### Memories -/

theorem memory_wf_nil : Memory.wf [] = true := rfl

/-- Writing a byte keeps a memory's form. -/
theorem memory_wf_mput (m : Mem) (a : Nat) (b : Byte) (h : Memory.wf m = true) : Memory.wf (mput m a b) = true := twf_tput 0 m a b h

/-- Writing bytes keeps a memory's form. -/
theorem memory_wf_mwrite (bs : List Byte) (m : Mem) (a : Nat) (h : Memory.wf m = true) : Memory.wf (mwrite m a bs) = true := by
  induction bs generalizing m a with
  | nil => exact h
  | cons b bs ih => exact ih _ _ (memory_wf_mput m a b h)

/-- Dropping bytes keeps a memory's form. -/
theorem memory_wf_filter (m : Mem) (f : Nat × BitVec 8 → Bool) (h : Memory.wf m = true) : Memory.wf (m.filter f) = true := twf_filter _ m f h

/-- Clearing a range keeps a memory's form. -/
theorem memory_wf_mclear (m : Mem) (lo hi : Nat) (h : Memory.wf m = true) : Memory.wf (mclear m lo hi) = true := memory_wf_filter m _ h

/-- A byte read after it was written. -/
@[simp] theorem mget_mput_same (m : Mem) (a : Nat) (b : Byte) : mget (mput m a b) a = b := tget_tput_same 0 m a b

/-- The other bytes of a write. -/
theorem mget_mput_other (m : Mem) (a c : Nat) (b : Byte) (h : c ≠ a) : mget (mput m a b) c = mget m c := tget_tput_other 0 0 m a c b h

/-- A write of bytes leaves every byte outside them as it was. -/
theorem mget_mwrite_other (bs : List Byte) (m : Mem) (a c : Nat) (h : c < a ∨ a + bs.length ≤ c) : mget (mwrite m a bs) c = mget m c := by
  induction bs generalizing m a with
  | nil => rfl
  | cons b bs ih =>
    have h1 : c < a + 1 ∨ a + 1 + bs.length ≤ c := by simp only [List.length_cons] at h; omega
    have h2 : c ≠ a := by simp only [List.length_cons] at h; omega
    rw [show mwrite m a (b :: bs) = mwrite (mput m a b) (a + 1) bs from rfl, ih _ _ h1, mget_mput_other m a c b h2]

/-- Bytes read after they were written. -/
theorem mread_mwrite (bs : List Byte) (m : Mem) (a : Nat) : mread (mwrite m a bs) a bs.length = bs := by
  induction bs generalizing m a with
  | nil => rfl
  | cons b bs ih =>
    show mget (mwrite (mput m a b) (a + 1) bs) a :: mread (mwrite (mput m a b) (a + 1) bs) (a + 1) bs.length = b :: bs
    rw [mget_mwrite_other bs _ (a + 1) a (.inl (Nat.lt_succ_self a)), mget_mput_same, ih]

end Sys2Proof.Machine
end

