-- ==== Sys2Proof/Laws/State.lean ====
section
/-! SUPPORT. What the updates of State leave: one lemma for each update and field, true by `rfl`, so that no proof unfolds a record update; and how a register reads after a write. -/

namespace Sys2Proof.Machine

/-! ### The shared half of a part -/

@[simp] theorem base_el (s : State) : s.base .el = s.el.base := rfl
@[simp] theorem base_ux (s : State) : s.base .ux = s.ux.base := rfl

@[simp] theorem base_mod (s : State) (p : Part) (f : Base → Base) : (s.mod p f).base p = f (s.base p) := by cases p <;> rfl
@[simp] theorem elBase_mod (s : State) (f : Base → Base) : (s.mod .el f).el.base = f s.el.base := rfl
@[simp] theorem uxBase_mod (s : State) (f : Base → Base) : (s.mod .ux f).ux.base = f s.ux.base := rfl
@[simp] theorem elBase_mod_ux (s : State) (f : Base → Base) : (s.mod .ux f).el.base = s.el.base := rfl
@[simp] theorem uxBase_mod_el (s : State) (f : Base → Base) : (s.mod .el f).ux.base = s.ux.base := rfl

/-- A change of one part's half leaves the other's. -/
theorem base_mod_ne (s : State) {p q : Part} (f : Base → Base) (h : q ≠ p) : (s.mod p f).base q = s.base q := by
  cases p <;> cases q <;> first | rfl | exact absurd rfl h

@[simp] theorem mod_pending (s : State) (p : Part) (f : Base → Base) : (s.mod p f).pending = s.pending := by cases p <;> rfl
@[simp] theorem mod_draws (s : State) (p : Part) (f : Base → Base) : (s.mod p f).draws = s.draws := by cases p <;> rfl

/-! ### One part replaced -/

@[simp] theorem modEl_el (s : State) (f : Elesh → Elesh) : (s.modEl f).el = f s.el := rfl
@[simp] theorem modEl_ux (s : State) (f : Elesh → Elesh) : (s.modEl f).ux = s.ux := rfl
@[simp] theorem modEl_pending (s : State) (f : Elesh → Elesh) : (s.modEl f).pending = s.pending := rfl
@[simp] theorem modEl_draws (s : State) (f : Elesh → Elesh) : (s.modEl f).draws = s.draws := rfl
@[simp] theorem modUx_ux (s : State) (f : Uhloux → Uhloux) : (s.modUx f).ux = f s.ux := rfl
@[simp] theorem modUx_el (s : State) (f : Uhloux → Uhloux) : (s.modUx f).el = s.el := rfl
@[simp] theorem modUx_pending (s : State) (f : Uhloux → Uhloux) : (s.modUx f).pending = s.pending := rfl
@[simp] theorem modUx_draws (s : State) (f : Uhloux → Uhloux) : (s.modUx f).draws = s.draws := rfl
@[simp] theorem draw_el (s : State) : s.draw.2.el = s.el := rfl
@[simp] theorem draw_ux (s : State) : s.draw.2.ux = s.ux := rfl
@[simp] theorem draw_pending (s : State) : s.draw.2.pending = s.pending := rfl
@[simp] theorem draw_draws (s : State) : s.draw.2.draws = s.draws + 1 := rfl

/-! ### The fields of the Elesh block under a change of a shared half -/

@[simp] theorem mod_lic (s : State) (p : Part) (f : Base → Base) : (s.mod p f).el.lic = s.el.lic := by cases p <;> rfl
@[simp] theorem mod_spm (s : State) (p : Part) (f : Base → Base) : (s.mod p f).el.spm = s.el.spm := by cases p <;> rfl
@[simp] theorem mod_spmBad (s : State) (p : Part) (f : Base → Base) : (s.mod p f).el.spmBad = s.el.spmBad := by cases p <;> rfl
@[simp] theorem mod_counters (s : State) (p : Part) (f : Base → Base) : (s.mod p f).el.counters = s.el.counters := by cases p <;> rfl
@[simp] theorem mod_satBits (s : State) (p : Part) (f : Base → Base) : (s.mod p f).el.satBits = s.el.satBits := by cases p <;> rfl
@[simp] theorem mod_stepBase (s : State) (p : Part) (f : Base → Base) : (s.mod p f).el.stepBase = s.el.stepBase := by cases p <;> rfl
@[simp] theorem mod_watches (s : State) (p : Part) (f : Base → Base) : (s.mod p f).el.watches = s.el.watches := by cases p <;> rfl
@[simp] theorem mod_wakeQ (s : State) (p : Part) (f : Base → Base) : (s.mod p f).el.wakeQ = s.el.wakeQ := by cases p <;> rfl
@[simp] theorem mod_gates (s : State) (p : Part) (f : Base → Base) : (s.mod p f).el.gates = s.el.gates := by cases p <;> rfl
@[simp] theorem mod_land (s : State) (p : Part) (f : Base → Base) : (s.mod p f).el.land = s.el.land := by cases p <;> rfl
@[simp] theorem mod_landSeen (s : State) (p : Part) (f : Base → Base) : (s.mod p f).el.landSeen = s.el.landSeen := by cases p <;> rfl
@[simp] theorem mod_landFull (s : State) (p : Part) (f : Base → Base) : (s.mod p f).el.landFull = s.el.landFull := by cases p <;> rfl
@[simp] theorem mod_bars (s : State) (p : Part) (f : Base → Base) : (s.mod p f).el.bars = s.el.bars := by cases p <;> rfl
@[simp] theorem mod_launches (s : State) (p : Part) (f : Base → Base) : (s.mod p f).el.launches = s.el.launches := by cases p <;> rfl
@[simp] theorem mod_launchSeen (s : State) (p : Part) (f : Base → Base) : (s.mod p f).el.launchSeen = s.el.launchSeen := by cases p <;> rfl
@[simp] theorem mod_fas (s : State) (p : Part) (f : Base → Base) : (s.mod p f).el.fas = s.el.fas := by cases p <;> rfl
@[simp] theorem mod_cur (s : State) (p : Part) (f : Base → Base) : (s.mod p f).el.cur = s.el.cur := by cases p <;> rfl
@[simp] theorem mod_posLogged (s : State) (p : Part) (f : Base → Base) : (s.mod p f).el.posLogged = s.el.posLogged := by cases p <;> rfl
@[simp] theorem mod_emptyLogged (s : State) (p : Part) (f : Base → Base) : (s.mod p f).el.emptyLogged = s.el.emptyLogged := by cases p <;> rfl
@[simp] theorem mod_wlostLogged (s : State) (p : Part) (f : Base → Base) : (s.mod p f).el.wlostLogged = s.el.wlostLogged := by cases p <;> rfl
@[simp] theorem mod_ledgOrd (s : State) (p : Part) (f : Base → Base) : (s.mod p f).el.ledgOrd = s.el.ledgOrd := by cases p <;> rfl
@[simp] theorem mod_suspHash (s : State) (p : Part) (f : Base → Base) : (s.mod p f).el.suspHash = s.el.suspHash := by cases p <;> rfl
@[simp] theorem mod_dma (s : State) (p : Part) (f : Base → Base) : (s.mod p f).el.dma = s.el.dma := by cases p <;> rfl
@[simp] theorem mod_hbCounts (s : State) (p : Part) (f : Base → Base) : (s.mod p f).el.hbCounts = s.el.hbCounts := by cases p <;> rfl
@[simp] theorem mod_restored (s : State) (p : Part) (f : Base → Base) : (s.mod p f).el.restored = s.el.restored := by cases p <;> rfl
@[simp] theorem mod_readySent (s : State) (p : Part) (f : Base → Base) : (s.mod p f).el.readySent = s.el.readySent := by cases p <;> rfl
@[simp] theorem mod_spareNamed (s : State) (p : Part) (f : Base → Base) : (s.mod p f).el.spareNamed = s.el.spareNamed := by cases p <;> rfl
@[simp] theorem mod_probK (s : State) (p : Part) (f : Base → Base) : (s.mod p f).el.probK = s.el.probK := by cases p <;> rfl
@[simp] theorem mod_stepEvents (s : State) (p : Part) (f : Base → Base) : (s.mod p f).el.stepEvents = s.el.stepEvents := by cases p <;> rfl
@[simp] theorem mod_dldLogged (s : State) (p : Part) (f : Base → Base) : (s.mod p f).el.dldLogged = s.el.dldLogged := by cases p <;> rfl
@[simp] theorem mod_followLane (s : State) (p : Part) (f : Base → Base) : (s.mod p f).el.followLane = s.el.followLane := by cases p <;> rfl
@[simp] theorem mod_laneChosen (s : State) (p : Part) (f : Base → Base) : (s.mod p f).el.laneChosen = s.el.laneChosen := by cases p <;> rfl
@[simp] theorem mod_switchOwed (s : State) (p : Part) (f : Base → Base) : (s.mod p f).el.switchOwed = s.el.switchOwed := by cases p <;> rfl
@[simp] theorem mod_chosenAt (s : State) (p : Part) (f : Base → Base) : (s.mod p f).el.chosenAt = s.el.chosenAt := by cases p <;> rfl
@[simp] theorem mod_switchTick (s : State) (p : Part) (f : Base → Base) : (s.mod p f).el.switchTick = s.el.switchTick := by cases p <;> rfl
@[simp] theorem mod_epochTaken (s : State) (p : Part) (f : Base → Base) : (s.mod p f).el.epochTaken = s.el.epochTaken := by cases p <;> rfl
@[simp] theorem mod_refclkLost (s : State) (p : Part) (f : Base → Base) : (s.mod p f).el.refclkLost = s.el.refclkLost := by cases p <;> rfl
@[simp] theorem mod_supplyCore (s : State) (p : Part) (f : Base → Base) : (s.mod p f).el.supplyCore = s.el.supplyCore := by cases p <;> rfl
@[simp] theorem mod_supplyRet (s : State) (p : Part) (f : Base → Base) : (s.mod p f).el.supplyRet = s.el.supplyRet := by cases p <;> rfl
@[simp] theorem mod_supplyPhy (s : State) (p : Part) (f : Base → Base) : (s.mod p f).el.supplyPhy = s.el.supplyPhy := by cases p <;> rfl
@[simp] theorem mod_restoreBuf (s : State) (p : Part) (f : Base → Base) : (s.mod p f).el.restoreBuf = s.el.restoreBuf := by cases p <;> rfl
@[simp] theorem mod_ports (s : State) (p : Part) (f : Base → Base) : (s.mod p f).el.ports = s.el.ports := by cases p <;> rfl

/-! ### The fields of the Uhloux chip under a change of a shared half -/

@[simp] theorem mod_ux_tc (s : State) (p : Part) (f : Base → Base) : (s.mod p f).ux.tc = s.ux.tc := by cases p <;> rfl
@[simp] theorem mod_ux_tcSat (s : State) (p : Part) (f : Base → Base) : (s.mod p f).ux.tcSat = s.ux.tcSat := by cases p <;> rfl
@[simp] theorem mod_ux_dpll (s : State) (p : Part) (f : Base → Base) : (s.mod p f).ux.dpll = s.ux.dpll := by cases p <;> rfl
@[simp] theorem mod_ux_todNext (s : State) (p : Part) (f : Base → Base) : (s.mod p f).ux.todNext = s.ux.todNext := by cases p <;> rfl
@[simp] theorem mod_ux_todSkip (s : State) (p : Part) (f : Base → Base) : (s.mod p f).ux.todSkip = s.ux.todSkip := by cases p <;> rfl
@[simp] theorem mod_ux_ptpDiscards (s : State) (p : Part) (f : Base → Base) : (s.mod p f).ux.ptpDiscards = s.ux.ptpDiscards := by cases p <;> rfl
@[simp] theorem mod_ux_rootUpbSel (s : State) (p : Part) (f : Base → Base) : (s.mod p f).ux.rootUpbSel = s.ux.rootUpbSel := by cases p <;> rfl
@[simp] theorem mod_ux_bars (s : State) (p : Part) (f : Base → Base) : (s.mod p f).ux.bars = s.ux.bars := by cases p <;> rfl
@[simp] theorem mod_ux_pending (s : State) (p : Part) (f : Base → Base) : (s.mod p f).ux.pending = s.ux.pending := by cases p <;> rfl
@[simp] theorem mod_ux_downRep (s : State) (p : Part) (f : Base → Base) : (s.mod p f).ux.downRep = s.ux.downRep := by cases p <;> rfl
@[simp] theorem mod_ux_slots (s : State) (p : Part) (f : Base → Base) : (s.mod p f).ux.slots = s.ux.slots := by cases p <;> rfl
@[simp] theorem mod_ux_held (s : State) (p : Part) (f : Base → Base) : (s.mod p f).ux.held = s.ux.held := by cases p <;> rfl
@[simp] theorem mod_ux_groups (s : State) (p : Part) (f : Base → Base) : (s.mod p f).ux.groups = s.ux.groups := by cases p <;> rfl
@[simp] theorem mod_ux_chainD3 (s : State) (p : Part) (f : Base → Base) : (s.mod p f).ux.chainD3 = s.ux.chainD3 := by cases p <;> rfl
@[simp] theorem mod_ux_chainLog (s : State) (p : Part) (f : Base → Base) : (s.mod p f).ux.chainLog = s.ux.chainLog := by cases p <;> rfl
@[simp] theorem mod_ux_lastSeal (s : State) (p : Part) (f : Base → Base) : (s.mod p f).ux.lastSeal = s.ux.lastSeal := by cases p <;> rfl
@[simp] theorem mod_ux_archived (s : State) (p : Part) (f : Base → Base) : (s.mod p f).ux.archived = s.ux.archived := by cases p <;> rfl
@[simp] theorem mod_ux_hallLsis (s : State) (p : Part) (f : Base → Base) : (s.mod p f).ux.hallLsis = s.ux.hallLsis := by cases p <;> rfl
@[simp] theorem mod_ux_accepted (s : State) (p : Part) (f : Base → Base) : (s.mod p f).ux.accepted = s.ux.accepted := by cases p <;> rfl
@[simp] theorem mod_ux_lockPri (s : State) (p : Part) (f : Base → Base) : (s.mod p f).ux.lockPri = s.ux.lockPri := by cases p <;> rfl
@[simp] theorem mod_ux_lockShd (s : State) (p : Part) (f : Base → Base) : (s.mod p f).ux.lockShd = s.ux.lockShd := by cases p <;> rfl
@[simp] theorem mod_ux_lockBlock (s : State) (p : Part) (f : Base → Base) : (s.mod p f).ux.lockBlock = s.ux.lockBlock := by cases p <;> rfl
@[simp] theorem mod_ux_lockSync (s : State) (p : Part) (f : Base → Base) : (s.mod p f).ux.lockSync = s.ux.lockSync := by cases p <;> rfl
@[simp] theorem mod_ux_passVotes (s : State) (p : Part) (f : Base → Base) : (s.mod p f).ux.passVotes = s.ux.passVotes := by cases p <;> rfl
@[simp] theorem mod_ux_lseals (s : State) (p : Part) (f : Base → Base) : (s.mod p f).ux.lseals = s.ux.lseals := by cases p <;> rfl
@[simp] theorem mod_ux_members (s : State) (p : Part) (f : Base → Base) : (s.mod p f).ux.members = s.ux.members := by cases p <;> rfl
@[simp] theorem mod_ux_lsiOf (s : State) (p : Part) (f : Base → Base) : (s.mod p f).ux.lsiOf = s.ux.lsiOf := by cases p <;> rfl
@[simp] theorem mod_ux_lsiPort (s : State) (p : Part) (f : Base → Base) : (s.mod p f).ux.lsiPort = s.ux.lsiPort := by cases p <;> rfl
@[simp] theorem mod_ux_relayFrom (s : State) (p : Part) (f : Base → Base) : (s.mod p f).ux.relayFrom = s.ux.relayFrom := by cases p <;> rfl
@[simp] theorem mod_ux_obs (s : State) (p : Part) (f : Base → Base) : (s.mod p f).ux.obs = s.ux.obs := by cases p <;> rfl
@[simp] theorem mod_ux_proposals (s : State) (p : Part) (f : Base → Base) : (s.mod p f).ux.proposals = s.ux.proposals := by cases p <;> rfl
@[simp] theorem mod_ux_rollback (s : State) (p : Part) (f : Base → Base) : (s.mod p f).ux.rollback = s.ux.rollback := by cases p <;> rfl
@[simp] theorem mod_ux_expulsions (s : State) (p : Part) (f : Base → Base) : (s.mod p f).ux.expulsions = s.ux.expulsions := by cases p <;> rfl
@[simp] theorem mod_ux_healthKind (s : State) (p : Part) (f : Base → Base) : (s.mod p f).ux.healthKind = s.ux.healthKind := by cases p <;> rfl
@[simp] theorem mod_ux_vaults (s : State) (p : Part) (f : Base → Base) : (s.mod p f).ux.vaults = s.ux.vaults := by cases p <;> rfl
@[simp] theorem mod_ux_peTurn (s : State) (p : Part) (f : Base → Base) : (s.mod p f).ux.peTurn = s.ux.peTurn := by cases p <;> rfl
@[simp] theorem mod_ux_privLost (s : State) (p : Part) (f : Base → Base) : (s.mod p f).ux.privLost = s.ux.privLost := by cases p <;> rfl
@[simp] theorem mod_ux_attested (s : State) (p : Part) (f : Base → Base) : (s.mod p f).ux.attested = s.ux.attested := by cases p <;> rfl
@[simp] theorem mod_ux_votesOut (s : State) (p : Part) (f : Base → Base) : (s.mod p f).ux.votesOut = s.ux.votesOut := by cases p <;> rfl
@[simp] theorem mod_ux_deadOf (s : State) (p : Part) (f : Base → Base) : (s.mod p f).ux.deadOf = s.ux.deadOf := by cases p <;> rfl
@[simp] theorem mod_ux_assigned (s : State) (p : Part) (f : Base → Base) : (s.mod p f).ux.assigned = s.ux.assigned := by cases p <;> rfl
@[simp] theorem mod_ux_paths (s : State) (p : Part) (f : Base → Base) : (s.mod p f).ux.paths = s.ux.paths := by cases p <;> rfl
@[simp] theorem mod_ux_tpOut (s : State) (p : Part) (f : Base → Base) : (s.mod p f).ux.tpOut = s.ux.tpOut := by cases p <;> rfl
@[simp] theorem mod_ux_pathSeq (s : State) (p : Part) (f : Base → Base) : (s.mod p f).ux.pathSeq = s.ux.pathSeq := by cases p <;> rfl
@[simp] theorem mod_ux_hall (s : State) (p : Part) (f : Base → Base) : (s.mod p f).ux.hall = s.ux.hall := by cases p <;> rfl
@[simp] theorem mod_ux_nonces (s : State) (p : Part) (f : Base → Base) : (s.mod p f).ux.nonces = s.ux.nonces := by cases p <;> rfl
@[simp] theorem mod_ux_fwNext (s : State) (p : Part) (f : Base → Base) : (s.mod p f).ux.fwNext = s.ux.fwNext := by cases p <;> rfl
@[simp] theorem mod_ux_modules (s : State) (p : Part) (f : Base → Base) : (s.mod p f).ux.modules = s.ux.modules := by cases p <;> rfl
@[simp] theorem mod_ux_ptp (s : State) (p : Part) (f : Base → Base) : (s.mod p f).ux.ptp = s.ux.ptp := by cases p <;> rfl
@[simp] theorem mod_ux_tpSent (s : State) (p : Part) (f : Base → Base) : (s.mod p f).ux.tpSent = s.ux.tpSent := by cases p <;> rfl
@[simp] theorem mod_ux_slewFrom (s : State) (p : Part) (f : Base → Base) : (s.mod p f).ux.slewFrom = s.ux.slewFrom := by cases p <;> rfl
@[simp] theorem mod_ux_warnCap (s : State) (p : Part) (f : Base → Base) : (s.mod p f).ux.warnCap = s.ux.warnCap := by cases p <;> rfl
@[simp] theorem mod_ux_lanesHeld (s : State) (p : Part) (f : Base → Base) : (s.mod p f).ux.lanesHeld = s.ux.lanesHeld := by cases p <;> rfl
@[simp] theorem mod_ux_tripped (s : State) (p : Part) (f : Base → Base) : (s.mod p f).ux.tripped = s.ux.tripped := by cases p <;> rfl
@[simp] theorem mod_ux_stacksLost (s : State) (p : Part) (f : Base → Base) : (s.mod p f).ux.stacksLost = s.ux.stacksLost := by cases p <;> rfl
@[simp] theorem mod_ux_corePllLost (s : State) (p : Part) (f : Base → Base) : (s.mod p f).ux.corePllLost = s.ux.corePllLost := by cases p <;> rfl
@[simp] theorem mod_ux_awaySent (s : State) (p : Part) (f : Base → Base) : (s.mod p f).ux.awaySent = s.ux.awaySent := by cases p <;> rfl
@[simp] theorem mod_ux_launched (s : State) (p : Part) (f : Base → Base) : (s.mod p f).ux.launched = s.ux.launched := by cases p <;> rfl
@[simp] theorem mod_ux_pcie (s : State) (p : Part) (f : Base → Base) : (s.mod p f).ux.pcie = s.ux.pcie := by cases p <;> rfl
@[simp] theorem mod_ux_junction (s : State) (p : Part) (f : Base → Base) : (s.mod p f).ux.junction = s.ux.junction := by cases p <;> rfl

/-! ### Registers -/

/-- A register reads what was written to it. -/
@[simp] theorem reg_setReg_same (s : State) (p : Part) (off : Nat) (w : Word) : (s.setReg p off w).reg p off = w := by
  cases p <;> exact tget_tput_same _ _ _ _

/-- A write leaves every other register of the part. -/
theorem reg_setReg_other (s : State) (p : Part) (off o : Nat) (w : Word) (h : o ≠ off) : (s.setReg p off w).reg p o = s.reg p o := by
  cases p <;> exact tget_tput_other _ _ _ _ _ _ h

/-- A register of a part after a write to one of its registers. -/
@[simp] theorem reg_setReg (s : State) (p : Part) (off o : Nat) (w : Word) : (s.setReg p off w).reg p o = if o = off then w else s.reg p o := by
  split
  · next h => rw [h, reg_setReg_same]
  · next h => exact reg_setReg_other s p off o w h

/-- A write to one part leaves the registers of the other. -/
theorem reg_setReg_part (s : State) {p q : Part} (off o : Nat) (w : Word) (h : q ≠ p) : (s.setReg p off w).reg q o = s.reg q o := by
  unfold State.reg State.setReg
  rw [base_mod_ne _ _ h]

@[simp] theorem reg_setReg_ux (s : State) (off o : Nat) (w : Word) : (s.setReg .el off w).reg .ux o = s.reg .ux o := reg_setReg_part s off o w (by decide)
@[simp] theorem reg_setReg_el (s : State) (off o : Nat) (w : Word) : (s.setReg .ux off w).reg .el o = s.reg .el o := reg_setReg_part s off o w (by decide)

/-- A change of a part that leaves its register file leaves its registers. -/
@[simp] theorem reg_mod (s : State) (p q : Part) (f : Base → Base) (o : Nat) (h : (f (s.base p)).regs = (s.base p).regs) : (s.mod p f).reg q o = s.reg q o := by
  unfold State.reg
  by_cases hq : q = p
  · subst hq; rw [base_mod, h]
  · rw [base_mod_ne _ _ hq]

@[simp] theorem reg_modEl (s : State) (f : Elesh → Elesh) (q : Part) (o : Nat) (h : (f s.el).base.regs = s.el.base.regs) : (s.modEl f).reg q o = s.reg q o := by
  cases q
  · show tget _ (f s.el).base.regs o = _
    rw [h]; rfl
  · rfl

@[simp] theorem reg_modUx (s : State) (f : Uhloux → Uhloux) (q : Part) (o : Nat) (h : (f s.ux).base.regs = s.ux.base.regs) : (s.modUx f).reg q o = s.reg q o := by
  cases q
  · rfl
  · show tget _ (f s.ux).base.regs o = _
    rw [h]; rfl

@[simp] theorem reg_draw (s : State) (q : Part) (o : Nat) : s.draw.2.reg q o = s.reg q o := by cases q <;> rfl

end Sys2Proof.Machine
end

