-- ==== Sys2Proof/Laws/Core.lean ====
section
/-! SUPPORT. `State.core`: what logging, sending and drawing leave, and how updates pass through it; fields of registers after a write; what an operation logs. -/

namespace Sys2Proof.Machine

/-! ### What `core` keeps -/

@[simp] theorem core_core (s : State) : s.core.core = s.core := rfl

@[simp] theorem reg_core (s : State) (p : Part) (o : Nat) : s.core.reg p o = s.reg p o := by cases p <;> rfl

/-- States with one `core` agree in every register. -/
theorem reg_of_core {s t : State} (h : s.core = t.core) (p : Part) (o : Nat) : s.reg p o = t.reg p o := by
  rw [← reg_core s, ← reg_core t, h]

theorem core_mod_of (s : State) (p : Part) (f : Base → Base) (h : (f (s.base p)).core = (s.base p).core) : (s.mod p f).core = s.core := by
  cases p
  · show State.core { s with el := { s.el with base := f s.el.base } } = _
    have h' : (f s.el.base).core = s.el.base.core := h
    simp only [State.core, h']
  · show State.core { s with ux := { s.ux with base := f s.ux.base } } = _
    have h' : (f s.ux.base).core = s.ux.base.core := h
    simp only [State.core, h']

@[simp] theorem core_draw (s : State) : s.draw.2.core = s.core := rfl

@[simp] theorem core_modLane (s : State) (p : Part) (x : Nat) (f : Lane → Lane) : (s.modLane p x f).core = s.core := core_mod_of s p _ rfl

@[simp] theorem core_sendOne (s : State) (p : Part) (x : Nat) (m : Msg) : (s.sendOne p x m).core = s.core := by
  unfold State.sendOne
  simp only
  split
  · exact core_modLane s p x _
  · rfl

@[simp] theorem core_send (s : State) (p : Part) (x : Nat) (m : Msg) : (s.send p x m).core = s.core := by
  unfold State.send
  simp only
  split <;> simp

@[simp] theorem core_sendUp (s : State) (p : Part) (m : Msg) : (s.sendUp p m).core = s.core := by
  unfold State.sendUp
  split <;> simp

@[simp] theorem core_sendDown (s : State) (xs : List Nat) (m : Msg) : (s.sendDown xs m).core = s.core := by
  unfold State.sendDown
  induction xs generalizing s with
  | nil => rfl
  | cons x xs ih =>
    rw [List.foldl_cons, ih]
    split <;> simp

@[simp] theorem core_logRec (s : State) (p : Part) (r : EvtRec) : (s.logRec p r).core = s.core := by
  unfold State.logRec
  cases p
  · simp only [core_sendUp]
    show State.core (State.modEl _ _) = _
    simp only [State.modEl]
    split <;> rfl
  · exact core_mod_of s .ux _ rfl

@[simp] theorem core_logW (s : State) (p : Part) (u c o w d : Nat) : (s.logW p u c o w d).core = s.core := core_logRec s p _
@[simp] theorem core_log (s : State) (p : Part) (u c o d : Nat) : (s.log p u c o d).core = s.core := core_logRec s p _
@[simp] theorem core_logI (s : State) (p : Part) (u c o : Nat) (d : Int) : (s.logI p u c o d).core = s.core := core_logRec s p _
@[simp] theorem core_logOpen (s : State) (p : Part) (u a o : Nat) : (s.logOpen p u a o).core = s.core := by
  unfold State.logOpen
  simp

/-! ### Updates pass through `core` -/

theorem core_mod (s : State) (p : Part) (f : Base → Base) (h : ∀ b, (f b).core = (f b.core).core) : (s.mod p f).core = (s.core.mod p f).core := by
  cases p
  · show State.core { s with el := { s.el with base := f s.el.base } } = State.core { s.core with el := { s.core.el with base := f s.el.base.core } }
    simp only [State.core, h s.el.base]
    rfl
  · show State.core { s with ux := { s.ux with base := f s.ux.base } } = State.core { s.core with ux := { s.core.ux with base := f s.ux.base.core } }
    simp only [State.core, h s.ux.base]
    rfl

/-- A change of one part's half gives one `core` from states with one `core`. -/
theorem core_mod_congr {s t : State} (h : s.core = t.core) (p : Part) (f : Base → Base) (hf : ∀ b, (f b).core = (f b.core).core) : (s.mod p f).core = (t.mod p f).core := by
  rw [core_mod s p f hf, core_mod t p f hf, h]

theorem core_setReg_congr {s t : State} (h : s.core = t.core) (p : Part) (o : Nat) (w : Word) : (s.setReg p o w).core = (t.setReg p o w).core :=
  core_mod_congr h p _ (fun _ => rfl)

theorem core_put_congr {s t : State} (h : s.core = t.core) (p : Part) (f : Fld) (v : Nat) : (s.put p f v).core = (t.put p f v).core := by
  unfold State.put
  rw [reg_of_core h]
  exact core_setReg_congr h p _ _

/-! ### Registers and fields -/

section
variable (s : State) (q : Part) (o : Nat)

@[simp] theorem reg_modLane (p : Part) (x : Nat) (f : Lane → Lane) : (s.modLane p x f).reg q o = s.reg q o := reg_of_core (core_modLane s p x f) q o
@[simp] theorem reg_sendOne (p : Part) (x : Nat) (m : Msg) : (s.sendOne p x m).reg q o = s.reg q o := reg_of_core (core_sendOne s p x m) q o
@[simp] theorem reg_send (p : Part) (x : Nat) (m : Msg) : (s.send p x m).reg q o = s.reg q o := reg_of_core (core_send s p x m) q o
@[simp] theorem reg_sendUp (p : Part) (m : Msg) : (s.sendUp p m).reg q o = s.reg q o := reg_of_core (core_sendUp s p m) q o
@[simp] theorem reg_sendDown (xs : List Nat) (m : Msg) : (s.sendDown xs m).reg q o = s.reg q o := reg_of_core (core_sendDown s xs m) q o
@[simp] theorem reg_logRec (p : Part) (r : EvtRec) : (s.logRec p r).reg q o = s.reg q o := reg_of_core (core_logRec s p r) q o
@[simp] theorem reg_logW (p : Part) (u c b w d : Nat) : (s.logW p u c b w d).reg q o = s.reg q o := reg_of_core (core_logW s p u c b w d) q o
@[simp] theorem reg_log (p : Part) (u c b d : Nat) : (s.log p u c b d).reg q o = s.reg q o := reg_of_core (core_log s p u c b d) q o
@[simp] theorem reg_logI (p : Part) (u c b : Nat) (d : Int) : (s.logI p u c b d).reg q o = s.reg q o := reg_of_core (core_logI s p u c b d) q o
@[simp] theorem reg_logOpen (p : Part) (u a b : Nat) : (s.logOpen p u a b).reg q o = s.reg q o := reg_of_core (core_logOpen s p u a b) q o
@[simp] theorem reg_answer (p : Part) (d : Word) (e : Bool) : (s.answer p d e).reg q o = s.reg q o := reg_mod s p q _ o rfl
@[simp] theorem reg_modSeq (p : Part) (f : Seq → Seq) : (s.modSeq p f).reg q o = s.reg q o := reg_mod s p q _ o rfl
@[simp] theorem reg_setGreg (p : Part) (a : Nat) (v : Word) : (s.setGreg p a v).reg q o = s.reg q o := reg_modSeq s q o p _
@[simp] theorem reg_setFlag (p : Part) (c : Nat) (b : Bool) : (s.setFlag p c b).reg q o = s.reg q o := reg_modSeq s q o p _
end

/-- A register after a field of a register of its part is set. -/
@[simp] theorem reg_put (s : State) (p : Part) (f : Fld) (v o : Nat) : (s.put p f v).reg p o = if o = f.off then fset (s.reg p f.off) f.hi f.lo v else s.reg p o :=
  reg_setReg s p f.off o _

@[simp] theorem reg_put_ux (s : State) (f : Fld) (v o : Nat) : (s.put .el f v).reg .ux o = s.reg .ux o := reg_setReg_ux s _ _ _
@[simp] theorem reg_put_el (s : State) (f : Fld) (v o : Nat) : (s.put .ux f v).reg .el o = s.reg .el o := reg_setReg_el s _ _ _

/-- A field reads what it was set to. -/
theorem get_put_same (s : State) (p : Part) (f : Fld) (v : Nat) (h : f.hi < 64) (hl : f.lo ≤ f.hi) : (s.put p f v).get p f = v % 2 ^ (f.hi + 1 - f.lo) := by
  unfold State.get
  rw [reg_put, if_pos rfl, fget_fset_same _ _ _ _ h hl]

/-- A field beside the one set, or of another register, reads as before. -/
theorem get_put_other (s : State) (p : Part) (f g : Fld) (v : Nat) (h : f.hi < 64) (hl : f.lo ≤ f.hi) (hg : g.hi < 64)
    (hd : g.off ≠ f.off ∨ g.hi < f.lo ∨ f.hi < g.lo) : (s.put p f v).get p g = s.get p g := by
  unfold State.get
  rw [reg_put]
  split
  · next he =>
    rw [fget_fset_other _ _ _ _ _ _ h hl hg (by omega), he]
  · rfl

/-! ### What is logged -/

theorem events_modLane (s : State) (p q : Part) (x : Nat) (f : Lane → Lane) : ((s.modLane p x f).base q).events = (s.base q).events := by
  cases p <;> cases q <;> rfl

theorem events_sendOne (s : State) (p q : Part) (x : Nat) (m : Msg) : ((s.sendOne p x m).base q).events = (s.base q).events := by
  unfold State.sendOne
  simp only
  split
  · exact events_modLane s p q x _
  · rfl

theorem events_send (s : State) (p q : Part) (x : Nat) (m : Msg) : ((s.send p x m).base q).events = (s.base q).events := by
  unfold State.send
  simp only
  split <;> simp only [events_sendOne]

theorem events_sendUp (s : State) (p q : Part) (m : Msg) : ((s.sendUp p m).base q).events = (s.base q).events := by
  unfold State.sendUp
  split
  · exact events_send s p q _ m
  · rfl

theorem events_sendDown (s : State) (q : Part) (xs : List Nat) (m : Msg) : ((s.sendDown xs m).base q).events = (s.base q).events := by
  unfold State.sendDown
  induction xs generalizing s with
  | nil => rfl
  | cons x xs ih =>
    rw [List.foldl_cons, ih]
    split
    · exact events_send s .ux q x m
    · rfl

theorem events_logRec (s : State) (p : Part) (r : EvtRec) : ((s.logRec p r).base p).events = (s.base p).events ++ [r] := by
  cases p
  · unfold State.logRec
    simp only [events_sendUp]
    show (State.modEl _ _).el.base.events = _
    simp only [modEl_el]
    split <;> rfl
  · rfl

theorem events_mod (s : State) (p q : Part) (f : Base → Base) (h : ∀ b, (f b).events = b.events) : ((s.mod p f).base q).events = (s.base q).events := by
  cases p <;> cases q <;> first | exact h _ | rfl

theorem events_setReg (s : State) (p q : Part) (o : Nat) (w : Word) : ((s.setReg p o w).base q).events = (s.base q).events :=
  events_mod s p q _ (fun _ => rfl)

theorem events_put (s : State) (p q : Part) (f : Fld) (v : Nat) : ((s.put p f v).base q).events = (s.base q).events := events_setReg s p q _ _

/-- A command that logs nothing. -/
theorem logged_nil {p : Part} {s t : State} (h : (t.base p).events = (s.base p).events) : Logged p s t [] :=
  ⟨[], by simpa using h, .nil⟩

/-- One more event at the end of what was logged. -/
theorem Logged.log {p : Part} {s t : State} {es : List Entry} (h : Logged p s t es) (u c o w d : Nat) : Logged p s (t.logW p u c o w d) (es ++ [(u, c, o, d)]) := by
  obtain ⟨rs, hr, hf⟩ := h
  refine ⟨rs ++ [t.record p u c o w d], ?_, List.rel_append hf (.cons ?_ .nil)⟩
  · show ((t.logRec p _).base p).events = _
    rw [events_logRec, hr, List.append_assoc]
  · exact ⟨rfl, rfl, rfl, rfl⟩

theorem logged_logW {s t : State} {p : Part} (u c o w d : Nat) (h : (t.base p).events = (s.base p).events) : Logged p s (t.logW p u c o w d) [(u, c, o, d)] :=
  (logged_nil h).log u c o w d

theorem logged_log {s t : State} {p : Part} (u c o d : Nat) (h : (t.base p).events = (s.base p).events) : Logged p s (t.log p u c o d) [(u, c, o, d)] :=
  logged_logW u c o 0 d h

/-- What is logged does not depend on later changes that log nothing. -/
theorem Logged.congr {p : Part} {s t u : State} {es : List Entry} (h : Logged p s t es) (he : (u.base p).events = (t.base p).events) : Logged p s u es := by
  obtain ⟨rs, hr, hf⟩ := h
  exact ⟨rs, by rw [he, hr], hf⟩

/-- What is logged between two states and then between the second and a third is logged between the first and the third. -/
theorem Logged.trans {p : Part} {s t u : State} {es fs : List Entry} (h : Logged p s t es) (k : Logged p t u fs) : Logged p s u (es ++ fs) := by
  obtain ⟨rs, hr, hf⟩ := h
  obtain ⟨qs, hq, hg⟩ := k
  exact ⟨rs ++ qs, by rw [hq, hr, List.append_assoc], List.rel_append hf hg⟩

/-- Every record shows some entry. -/
theorem exists_entry (p : Part) (r : EvtRec) : ∃ e, Entry.shows p e r := by
  refine ⟨((r.source.toNat + (2 ^ 16 - (match p with | .el => 0 | .ux => 0x100))), r.code.toNat, r.object.toNat, r.detail.toNat), ?_, ?_, ?_, ?_⟩
  · cases p <;> (apply BitVec.eq_of_toNat_eq; simp; omega)
  all_goals simp

/-- Whatever was logged is logged as some list of entries. -/
theorem exists_logged {p : Part} {s t : State} (h : (s.base p).events <+: (t.base p).events) : ∃ es, Logged p s t es := by
  obtain ⟨rs, hr⟩ := h
  suffices hs : ∃ es, List.Forall₂ (Entry.shows p) es rs by
    obtain ⟨es, he⟩ := hs
    exact ⟨es, rs, hr.symm, he⟩
  clear hr
  induction rs with
  | nil => exact ⟨[], .nil⟩
  | cons r rs ih =>
    obtain ⟨es, he⟩ := ih
    obtain ⟨e, hs⟩ := exists_entry p r
    exact ⟨e :: es, .cons hs he⟩

/-- A command that answers `u` goes to every state with the core of `u`. -/
theorem goes_of {c : Instr} {s t : State} {p : Part} {es : List Entry} (u : State) (he : exec c s = .next u) (hc : u.core = t.core) (hl : Logged p s u es) : Goes c s t p es :=
  ⟨u, he, hc, hl⟩

section
variable (s : State) (p q : Part)

theorem frcNow_mod (f : Base → Base) (h : (f (s.base p)).frc = (s.base p).frc) : (s.mod p f).frcNow q = s.frcNow q := by
  unfold State.frcNow
  cases p <;> cases q <;> first | rfl | rw [base_mod, h]

@[simp] theorem frcNow_setReg (o : Nat) (w : Word) : (s.setReg p o w).frcNow q = s.frcNow q := frcNow_mod s p q _ rfl
@[simp] theorem frcNow_put (f : Fld) (v : Nat) : (s.put p f v).frcNow q = s.frcNow q := frcNow_setReg s p q _ _
end

end Sys2Proof.Machine
end

