-- ==== Sys2Proof/Laws/Issue.lean ====
section
/-! SUPPORT. What one slot operation alone in its bundle does: the whole of `slotOp` said once, and the bundle's effect where it touches registers and flags only. -/

namespace Sys2Proof.Machine

/-! ### The marks of a bundle in issue do not decide a hold -/

section
variable (s : State) (p : Part) (f : Seq → Seq)

@[simp] theorem seq_modSeq : (s.modSeq p f).seq p = f (s.seq p) := by cases p <;> rfl
@[simp] theorem get_modSeq (q : Part) (g : Fld) : (s.modSeq p f).get q g = s.get q g := by simp [State.get]
@[simp] theorem bit_modSeq (q : Part) (g : Fld) : (s.modSeq p f).bit q g = s.bit q g := by simp [State.bit]
@[simp] theorem frcNow_modSeq (q : Part) : (s.modSeq p f).frcNow q = s.frcNow q := frcNow_mod s p q _ rfl

theorem events_modSeq (q : Part) : ((s.modSeq p f).base q).events = (s.base q).events := by cases p <;> cases q <;> rfl

theorem modSeq_modSeq (g : Seq → Seq) : (s.modSeq p f).modSeq p g = s.modSeq p (fun q => g (f q)) := by
  cases p <;> rfl

@[simp] theorem tbState_modSeq (q : Part) (n : Nat) : (s.modSeq p f).tbState q n = s.tbState q n := by simp [State.tbState]

@[simp] theorem tbRaw_modSeq (q : Part) (n frc : Nat) (less : Int) : (s.modSeq p f).tbRaw q n frc less = s.tbRaw q n frc less := by
  simp [State.tbRaw, State.tbAnchor, State.tbOfs, State.tbRate, State.getI]

@[simp] theorem tbNow_modSeq (q : Part) (n : Nat) : (s.modSeq p f).tbNow q n = s.tbNow q n := by
  simp [State.tbNow, State.tbAt]

@[simp] theorem tbReached_modSeq (q : Part) (n t : Nat) : (s.modSeq p f).tbReached q n t = s.tbReached q n t := by
  simp [State.tbReached]

theorem testHeld_modSeq : (s.modSeq p f).testHeld p = s.testHeld p := by
  unfold State.testHeld State.testRunning
  cases p <;> simp <;> rfl

theorem actionHeld_modSeq (acts : List Act) : (s.modSeq p f).actionHeld p acts = s.actionHeld p acts := by
  unfold State.actionHeld State.testRunning
  cases p <;> simp <;> rfl

theorem windowHeld_modSeq (acts : List Act) (h : (f (s.seq p)).window = (s.seq p).window) : (s.modSeq p f).windowHeld p acts = s.windowHeld p acts := by
  have hw : (s.modSeq p f).windowOpen p = s.windowOpen p := by
    unfold State.windowOpen
    simp [h]
  unfold State.windowHeld
  rw [hw]

theorem queueLack_modSeq (acts : List Act) : (s.modSeq p f).queueLack p acts = s.queueLack p acts := by
  have hu : ∀ q, (s.modSeq p f).queueUsed q = s.queueUsed q := by
    intro q
    unfold State.queueUsed
    cases p <;> cases q <;> rfl
  have ho : ∀ q, (s.modSeq p f).queueOn q = s.queueOn q := by
    intro q
    unfold State.queueOn
    simp
  unfold State.queueLack State.queueNeed
  simp only [hu, ho]

theorem put_modSeq (g : Fld) (v : Nat) : (s.modSeq p f).put p g v = (s.put p g v).modSeq p f := by
  unfold State.put State.setReg
  rw [reg_modSeq]
  cases p <;> rfl

theorem slip_modSeq (n : Nat) : (s.modSeq p f).slip p n = (s.slip p n).modSeq p f := by
  unfold State.slip State.count
  simp only [get_modSeq, put_modSeq]
end

@[simp] theorem seq_mod_regs (s : State) (p q : Part) (o : Nat) (w : Word) : (s.setReg p o w).seq q = s.seq q := by cases p <;> cases q <;> rfl
@[simp] theorem seq_put (s : State) (p q : Part) (f : Fld) (v : Nat) : (s.put p f v).seq q = s.seq q := seq_mod_regs s p q _ _
@[simp] theorem seq_count (s : State) (p q : Part) (f : Fld) (n : Nat) : (s.count p f n).seq q = s.seq q := seq_put s p q _ _
@[simp] theorem seq_slip (s : State) (p q : Part) (n : Nat) : (s.slip p n).seq q = s.seq q := by
  unfold State.slip
  rw [seq_count, seq_count]

/-- The gathering of a bundle leaves no mark on its issue. -/
theorem bundleIssue_gathered (s : State) (p : Part) (as acts : List Act) :
    (s.modSeq p (fun q => { q with acts := as })).bundleIssue p acts = s.bundleIssue p acts := by
  unfold State.bundleIssue
  simp only [slip_modSeq, seq_modSeq, put_modSeq]
  split <;> rw [modSeq_modSeq]

/-- An operation alone in its bundle: nothing holds it, and the bundle takes effect. -/
theorem slotOp_alone {s : State} {p : Part} {e : Env} {slot : Nat} {acts : List Act} (h : Alone s p e slot acts) :
    s.slotOp p e slot acts = s.bundleIssue p (.unit slot :: acts) := by
  unfold State.slotOp
  rw [if_pos h.issues, if_pos h.last]
  have hr : (s.runs p e && !(s.seq p).skip) = true := by simp [h.runs, h.whole]
  simp only [hr, if_true]
  unfold State.bundleEnd State.addActs
  simp only [seq_modSeq, h.empty, h.whole, List.nil_append]
  rw [testHeld_modSeq, h.test, actionHeld_modSeq, h.action, windowHeld_modSeq _ _ _ _ rfl, h.window, queueLack_modSeq, h.queue]
  simp only [Bool.false_eq_true, if_false]
  exact bundleIssue_gathered s p _ _

/-- What an operation alone in its bundle answers. -/
theorem issue_alone {s : State} {p : Part} {e : Env} {slot : Nat} {acts : List Act} (h : Alone s p e slot acts) :
    s.issue p e slot true acts = .next (s.bundleIssue p (.unit slot :: acts)) := by
  unfold State.issue
  rw [h.env, Bool.and_self, if_pos rfl, slotOp_alone h]

/-! ### Bundles that touch registers and flags only -/

/-- An act that writes a general register or a flag, or names its unit. -/
def Act.inner : Act → Bool
  | .g _ _ | .flag _ _ | .unit _ => true
  | _ => false

/-- The general registers after such acts. -/
def Act.gs (g : Nat → Word) : List Act → Nat → Word
  | [] => g
  | .g d v :: as => Act.gs (Function.update g d v) as
  | _ :: as => Act.gs g as

/-- The flags after such acts. -/
def Act.cs (c : Nat → Bool) : List Act → Nat → Bool
  | [] => c
  | .flag d b :: as => Act.cs (Function.update c d b) as
  | _ :: as => Act.cs c as

theorem inner_words {acts : List Act} (h : ∀ a ∈ acts, a.inner = true) : acts.flatMap Act.words = [] := by
  rw [List.flatMap_eq_nil_iff]
  intro a ha
  have := h a ha
  cases a <;> first | rfl | simp [Act.inner] at this

theorem inner_accesses {acts : List Act} (h : ∀ a ∈ acts, a.inner = true) : bundleAccesses acts = [] := by
  unfold bundleAccesses
  rw [inner_words h]
  simp only [List.filter_nil, List.map_nil, List.nil_append, List.filterMap_eq_nil_iff]
  intro a ha
  have := h a ha
  cases a <;> first | rfl | simp [Act.inner] at this

theorem foldl_id {α : Type} {f : State → α → State} (l : List α) (s : State) (h : ∀ a ∈ l, ∀ t, f t a = t) : l.foldl f s = s := by
  induction l with
  | nil => rfl
  | cons a l ih => rw [List.foldl_cons, h a (by simp) s, ih (fun b hb => h b (by simp [hb]))]

theorem inner_incs {acts : List Act} (h : ∀ a ∈ acts, a.inner = true) : bundleIncs acts = [] := by
  unfold bundleIncs
  rw [List.filterMap_eq_nil_iff]
  intro a ha
  have := h a ha
  cases a <;> first | rfl | simp [Act.inner] at this

theorem incRaw_nil (s : State) : s.incRaw [] = (s, false) := by
  have hp : ∀ t : State, t.pairCheck [] = (t, false) := by
    intro t
    unfold State.pairCheck
    have : (t.seq .el).pairs.filter (fun pr => ([] : List Nat).contains (cntKey pr.core pr.prod) || ([] : List Nat).contains (cntKey pr.core pr.cons)) = [] := by
      rw [List.filter_eq_nil_iff]; simp
    rw [this]
    rfl
  have hw : ∀ t : State, t.watchScan [] = t := by
    intro t
    unfold State.watchScan
    exact foldl_id _ t (by simp)
  unfold State.incRaw
  simp only [sumIncs, List.filter_nil, List.map_nil, List.foldl_nil, hp, hw]

theorem inner_branch {acts : List Act} (h : ∀ a ∈ acts, a.inner = true) : bundleBranch acts = none ∧ bundleFaults acts = false ∧ bundleHalts acts = false := by
  refine ⟨?_, ?_, ?_⟩
  · unfold bundleBranch
    rw [List.findSome?_eq_none_iff]
    intro a ha
    have := h a ha
    cases a <;> first | rfl | simp [Act.inner] at this
  · unfold bundleFaults
    rw [List.any_eq_false]
    intro a ha
    have := h a ha
    cases a <;> first | (simp; done) | simp [Act.inner] at this
  · unfold bundleHalts
    rw [Bool.eq_false_iff]
    intro hc
    have := h _ (List.contains_iff_mem.mp hc)
    simp [Act.inner] at this

/-- A count of 0 changes no reading. -/
theorem reg_count_zero (s : State) (p q : Part) (f : Fld) (o : Nat) (hl : f.lo ≤ f.hi) : (s.count p f 0).reg q o = s.reg q o := by
  have hv : satAdd (f.hi + 1 - f.lo) (s.get p f) 0 = s.get p f := by
    have : s.get p f < 2 ^ (f.hi + 1 - f.lo) := fget_lt _ _ _
    unfold satAdd
    omega
  unfold State.count State.put
  rw [hv]
  cases p <;> cases q
  · rw [reg_setReg]
    split
    · next h => subst h; exact fset_fget _ _ _ hl
    · rfl
  · exact reg_setReg_ux s _ _ _
  · exact reg_setReg_el s _ _ _
  · rw [reg_setReg]
    split
    · next h => subst h; exact fset_fget _ _ _ hl
    · rfl

theorem bitOf_eq (v k : Nat) : bitOf v k = v.testBit k := by
  unfold bitOf
  rw [Nat.testBit_eq_decide_div_mod_eq]
  by_cases h : v / 2 ^ k % 2 = 1 <;> simp [h]

theorem testBit_sub_two_pow (v k i : Nat) (h : v.testBit k = true) : (v - 2 ^ k).testBit i = (if i = k then false else v.testBit i) := by
  have hk : v / 2 ^ k % 2 = 1 := by
    rw [Nat.testBit_eq_decide_div_mod_eq] at h
    simpa using h
  have hr : v % 2 ^ k < 2 ^ k := Nat.mod_lt _ (Nat.two_pow_pos k)
  have hq : v = 2 ^ k * (2 * (v / 2 ^ k / 2) + 1) + v % 2 ^ k := by
    have h1 := Nat.div_add_mod v (2 ^ k)
    have h2 : 2 * (v / 2 ^ k / 2) + 1 = v / 2 ^ k := by omega
    rw [h2]; exact h1.symm
  have hs : v - 2 ^ k = 2 ^ k * (2 * (v / 2 ^ k / 2)) + v % 2 ^ k := by
    rw [Nat.mul_add, Nat.mul_one] at hq
    omega
  rw [hs, Nat.testBit_two_pow_mul_add _ hr]
  conv_rhs => rw [hq, Nat.testBit_two_pow_mul_add _ hr]
  by_cases hi : i < k
  · have : i ≠ k := by omega
    simp [hi, this]
  · simp only [hi, if_false]
    by_cases he : i = k
    · subst he
      simp [Nat.testBit_zero]
    · have : i - k = (i - k - 1) + 1 := by omega
      rw [this, Nat.testBit_succ, Nat.testBit_succ, if_neg he]
      congr 1
      omega

theorem bitSet_testBit (v k i : Nat) (b : Bool) : (bitSet v k b).testBit i = if i = k then b else v.testBit i := by
  unfold bitSet
  cases b
  · simp only [Bool.false_eq_true, if_false, bitOf_eq]
    by_cases hk : v.testBit k = true
    · rw [if_pos hk]
      exact testBit_sub_two_pow v k i hk
    · rw [if_neg hk, Nat.sub_zero]
      by_cases hi : i = k
      · subst hi
        simpa using hk
      · simp [hi]
  · simp only [if_true, Nat.testBit_or, Nat.testBit_two_pow]
    by_cases hi : i = k
    · subst hi
      simp
    · have : ¬ k = i := fun h => hi h.symm
      simp [hi, this]

@[simp] theorem greg_setGreg (s : State) (p : Part) (a r : Nat) (v : Word) : (s.setGreg p a v).greg p r = Function.update (s.greg p) a v r := by
  unfold State.setGreg State.greg
  rw [seq_modSeq, Function.update_apply]
  simp only [tget_tput]

@[simp] theorem flag_setGreg (s : State) (p : Part) (a : Nat) (v : Word) : (s.setGreg p a v).flag p = s.flag p := by
  funext i
  unfold State.setGreg State.flag
  rw [seq_modSeq]

@[simp] theorem greg_setFlag (s : State) (p : Part) (c : Nat) (b : Bool) : (s.setFlag p c b).greg p = s.greg p := by
  funext i
  unfold State.setFlag State.greg
  rw [seq_modSeq]

theorem flag_setFlag (s : State) (p : Part) (c i : Nat) (b : Bool) (hi : i < 8) : (s.setFlag p c b).flag p i = Function.update (s.flag p) c b i := by
  unfold State.setFlag State.flag
  rw [seq_modSeq, Function.update_apply]
  simp only [bitOf_eq, BitVec.toNat_ofNat, Nat.testBit_mod_two_pow, hi, decide_true, Bool.true_and, bitSet_testBit]

theorem gs_congr (acts : List Act) {g g' : Nat → Word} (h : ∀ r, g r = g' r) : Act.gs g acts = Act.gs g' acts := by
  rw [show g = g' from funext h]

theorem cs_congr (acts : List Act) {c c' : Nat → Bool} (h : ∀ i < 8, c i = c' i) : ∀ i < 8, Act.cs c acts i = Act.cs c' acts i := by
  induction acts generalizing c c' with
  | nil => exact h
  | cons a as ih =>
    cases a
    case flag d b => exact ih (fun i hi => by simp only [Function.update_apply]; split <;> simp [h i hi])
    all_goals exact ih h

/-- What registers and flags hold after the acts of a bundle that touches nothing else. -/
theorem inner_fold (acts : List Act) (h : ∀ a ∈ acts, a.inner = true) (s : State) (p : Part) :
    (∀ r, (acts.foldl (fun t a => t.applyAct p a) s).greg p r = Act.gs (s.greg p) acts r)
    ∧ (∀ i < 8, (acts.foldl (fun t a => t.applyAct p a) s).flag p i = Act.cs (s.flag p) acts i) := by
  induction acts generalizing s with
  | nil => exact ⟨fun _ => rfl, fun _ _ => rfl⟩
  | cons a as ih =>
    have := h a (by simp)
    obtain ⟨hg, hc⟩ := ih (fun b hb => h b (by simp [hb])) (s.applyAct p a)
    cases a <;> simp only [Act.inner, Bool.false_eq_true] at this
    case g d v =>
      refine ⟨fun r => ?_, fun i hi => ?_⟩
      · rw [List.foldl_cons, hg]
        exact congrFun (gs_congr as (greg_setGreg s p d · v)) r
      · rw [List.foldl_cons, hc i hi]
        exact cs_congr as (fun j _ => congrFun (flag_setGreg s p d v) j) i hi
    case flag c b =>
      refine ⟨fun r => ?_, fun i hi => ?_⟩
      · rw [List.foldl_cons, hg]
        exact congrFun (gs_congr as (fun j => congrFun (greg_setFlag s p c b) j)) r
      · rw [List.foldl_cons, hc i hi]
        exact cs_congr as (fun j hj => flag_setFlag s p c j b hj) i hi
    case unit => exact ⟨hg, hc⟩

/-- What is left of a state without what an issued bundle writes is left alone by a change of registers or of those marks. -/
theorem still_setReg (s : State) (p : Part) (o : Nat) (w : Word) : (s.setReg p o w).still p = s.still p := by cases p <;> rfl
theorem still_put (s : State) (p : Part) (f : Fld) (v : Nat) : (s.put p f v).still p = s.still p := still_setReg s p _ _
theorem still_slip (s : State) (p : Part) (n : Nat) : (s.slip p n).still p = s.still p := by
  unfold State.slip State.count
  rw [still_put, still_put]
theorem still_setGreg (s : State) (p : Part) (a : Nat) (v : Word) : (s.setGreg p a v).still p = s.still p := by cases p <;> rfl
theorem still_setFlag (s : State) (p : Part) (c : Nat) (b : Bool) : (s.setFlag p c b).still p = s.still p := by cases p <;> rfl
theorem still_clear (s : State) (p : Part) : (s.modSeq p (fun q => { q with acts := [], hold := .none, anchorOk := false, segNew := false })).still p = s.still p := by
  cases p <;> rfl

/-- What a bundle that touches registers and flags only leaves, before control flow. -/
theorem inner_rest (acts : List Act) (h : ∀ a ∈ acts, a.inner = true) (s : State) (p : Part) :
    let u := acts.foldl (fun t a => t.applyAct p a) s
    u.still p = s.still p ∧ (∀ q o, u.reg q o = s.reg q o) ∧ (∀ q, (u.base q).events = (s.base q).events)
      ∧ (u.seq p).acts = (s.seq p).acts ∧ (u.seq p).hold = (s.seq p).hold ∧ (u.seq p).skip = (s.seq p).skip ∧ (u.seq p).anchorOk = (s.seq p).anchorOk
      ∧ (u.seq p).segNew = (s.seq p).segNew ∧ (u.seq p).bundles = (s.seq p).bundles := by
  induction acts generalizing s with
  | nil => exact ⟨rfl, fun _ _ => rfl, fun _ => rfl, rfl, rfl, rfl, rfl, rfl, rfl⟩
  | cons a as ih =>
    have := h a (by simp)
    obtain ⟨a1, a2, a3, a4, a5, a6, a7, a8, a9⟩ := ih (fun b hb => h b (by simp [hb])) (s.applyAct p a)
    cases a <;> simp only [Act.inner, Bool.false_eq_true] at this
    case g d v =>
      refine ⟨a1.trans (still_setGreg s p d v), fun q o => (a2 q o).trans (reg_setGreg s q o p d v), fun q => (a3 q).trans ?_, ?_⟩
      · cases p <;> cases q <;> rfl
      · cases p <;> exact ⟨a4, a5, a6, a7, a8, a9⟩
    case flag c b =>
      refine ⟨a1.trans (still_setFlag s p c b), fun q o => (a2 q o).trans (reg_setFlag s q o p c b), fun q => (a3 q).trans ?_, ?_⟩
      · cases p <;> cases q <;> rfl
      · cases p <;> exact ⟨a4, a5, a6, a7, a8, a9⟩
    case unit => exact ⟨a1, a2, a3, a4, a5, a6, a7, a8, a9⟩

theorem inner_loads {acts : List Act} (h : ∀ a ∈ acts, a.inner = true) (s : State) : acts.foldl (fun u a => u.applyLoad a) s = s := by
  apply foldl_id
  intro a ha t
  have := h a ha
  cases a <;> first | rfl | simp [Act.inner] at this

theorem inner_watches {acts : List Act} (h : ∀ a ∈ acts, a.inner = true) (s : State) : acts.foldl (fun u a => u.applyWatch a) s = s := by
  apply foldl_id
  intro a ha t
  have := h a ha
  cases a <;> first | rfl | simp [Act.inner] at this

theorem inner_logs {acts : List Act} (h : ∀ a ∈ acts, a.inner = true) (s : State) (p : Part) : acts.foldl (fun u a => u.logFault p a) s = s := by
  apply foldl_id
  intro a ha t
  have := h a ha
  cases a <;> first | rfl | simp [Act.inner] at this

theorem inner_spm {acts : List Act} (h : ∀ a ∈ acts, a.inner = true) (s : State) : s.spmWrites acts = s := by
  unfold State.spmWrites
  simp only [inner_words h, List.filter_nil, List.foldl_nil]
  apply foldl_id
  intro a ha t
  have := h a ha
  cases a <;> first | rfl | simp [Act.inner] at this

/-- A bundle that touches registers and flags only. -/
theorem applyBundle_inner {acts : List Act} (h : ∀ a ∈ acts, a.inner = true) (s : State) (p : Part) :
    s.applyBundle p acts = (acts.foldl (fun t a => t.applyAct p a) s).bundleFlow p acts false := by
  unfold State.applyBundle
  simp only [inner_loads h, inner_spm h, inner_incs h, incRaw_nil]
  cases p <;> simp only [inner_watches h]

/-- Its control flow: PC passes on to the next bundle. -/
theorem bundleFlow_inner {acts : List Act} (h : ∀ a ∈ acts, a.inner = true) (s : State) (p : Part) (hr : s.seqState p = 3) (hm : s.pc p + 1 ≠ (s.seq p).bundles) :
    s.bundleFlow p acts false = s.put p Reg.SEQ_PC_PC (s.pc p + 1) := by
  obtain ⟨hb, hf, hh⟩ := inner_branch h
  unfold State.bundleFlow
  simp only [hb, hf, hh, inner_logs h, Option.getD_none, Bool.not_false, Bool.true_and, beq_eq_false_iff_ne.mpr hm, Bool.false_eq_true, if_false, hr, if_true, Bool.or_self, Bool.false_and]

theorem reg_slip_zero (s : State) (p q : Part) (o : Nat) : (s.slip p 0).reg q o = s.reg q o := by
  unfold State.slip
  rw [reg_count_zero _ _ _ _ _ (by decide), reg_count_zero _ _ _ _ _ (by decide)]

theorem events_slip (s : State) (p q : Part) (n : Nat) : ((s.slip p n).base q).events = (s.base q).events := by
  unfold State.slip State.count
  rw [events_put, events_put]

/-- What the issue of a bundle without memory accesses does before its effects: an anchor's bundle clears the segment's count, and the marks of the bundle in issue fall. -/
theorem issue_marks (s : State) (p : Part) : let w := s.slip p 0
    let u := (if (w.seq p).segNew then w.put p Reg.SEQ_SLIPS_SEGMENT 0 else w).modSeq p (fun q => { q with acts := [], hold := .none, anchorOk := false, segNew := false })
    u.still p = s.still p ∧ (∀ q o, ((q, o) = (p, Reg.SEQ_SLIPS_SEGMENT.off) → (s.seq p).segNew = false) → u.reg q o = s.reg q o)
      ∧ (∀ q, (u.base q).events = (s.base q).events) ∧ u.seq p = { s.seq p with acts := [], hold := .none, anchorOk := false, segNew := false }
      ∧ ((s.seq p).segNew = true → u.get p Reg.SEQ_SLIPS_SEGMENT = 0) := by
  intro w u
  have hw : w.seq p = s.seq p := seq_slip s p p 0
  have hr : ∀ q o, w.reg q o = s.reg q o := fun q o => reg_slip_zero s p q o
  by_cases hs : (s.seq p).segNew = true
  · have hu : u = (w.put p Reg.SEQ_SLIPS_SEGMENT 0).modSeq p (fun q => { q with acts := [], hold := .none, anchorOk := false, segNew := false }) := by
      show (if (w.seq p).segNew then _ else _ : State).modSeq p _ = _
      rw [hw, if_pos hs]
    rw [hu]
    refine ⟨?_, ?_, ?_, ?_, ?_⟩
    · rw [still_clear, still_put, still_slip]
    · intro q o hx
      rw [reg_modSeq]
      have hne : ¬ (q = p ∧ o = Reg.SEQ_SLIPS_SEGMENT.off) := by
        rintro ⟨rfl, rfl⟩
        simp [hs] at hx
      rw [← hr q o]
      cases p <;> cases q
      · rw [reg_put, if_neg (fun hh => hne ⟨rfl, hh⟩)]
      · exact reg_put_ux w _ _ _
      · exact reg_put_el w _ _ _
      · rw [reg_put, if_neg (fun hh => hne ⟨rfl, hh⟩)]
    · intro q
      rw [events_modSeq, events_put, events_slip]
    · rw [seq_modSeq, seq_put, hw]
    · intro _
      rw [get_modSeq, get_put_same w p Reg.SEQ_SLIPS_SEGMENT 0 (by decide) (by decide)]
      simp
  · have hu : u = w.modSeq p (fun q => { q with acts := [], hold := .none, anchorOk := false, segNew := false }) := by
      show (if (w.seq p).segNew then _ else _ : State).modSeq p _ = _
      rw [hw, if_neg hs]
    rw [hu]
    refine ⟨?_, ?_, ?_, ?_, fun h => absurd h hs⟩
    · rw [still_clear, still_slip]
    · intro q o _
      rw [reg_modSeq, hr]
    · intro q
      rw [events_modSeq, events_slip]
    · rw [seq_modSeq, hw]

/-- An operation alone in a bundle that is not the last one, touching registers and flags only: everything it does. -/
theorem issue_inner {s : State} {p : Part} {e : Env} {slot : Nat} {acts : List Act} (h : Within s p e slot acts) (ha : ∀ a ∈ acts, a.inner = true) :
    ∃ u, s.issue p e slot true acts = .next u ∧ Issued s u p (s.pc p + 1) (Act.gs (s.greg p) acts) (Act.cs (s.flag p) acts) := by
  obtain ⟨ho, hm⟩ := h
  have hi : ∀ a ∈ Act.unit slot :: acts, a.inner = true := by
    intro a hx
    rcases List.mem_cons.mp hx with rfl | hx
    · rfl
    · exact ha a hx
  refine ⟨_, issue_alone ho, ?_⟩
  unfold State.bundleIssue
  rw [applyBundle_inner hi, inner_accesses hi]
  obtain ⟨m1, m2, m3, m4, m5⟩ := issue_marks s p
  change Issued s (State.bundleFlow (List.foldl _ (State.modSeq (if ((s.slip p 0).seq p).segNew then (s.slip p 0).put p Reg.SEQ_SLIPS_SEGMENT 0 else s.slip p 0) p _) _) p _ false) p _ _ _
  generalize (if ((s.slip p 0).seq p).segNew then (s.slip p 0).put p Reg.SEQ_SLIPS_SEGMENT 0 else s.slip p 0).modSeq p (fun q => { q with acts := [], hold := .none, anchorOk := false, segNew := false }) = s0 at *
  obtain ⟨b1, b2, b3, b4, b5, b6, b7, b9, b8⟩ := inner_rest (.unit slot :: acts) hi s0 p
  obtain ⟨hg, hc⟩ := inner_fold (.unit slot :: acts) hi s0 p
  generalize (Act.unit slot :: acts).foldl (fun t a => t.applyAct p a) s0 = v at *
  have gv : ∀ f : Fld, f.off ≠ Reg.SEQ_SLIPS_SEGMENT.off → v.get p f = s.get p f := fun f hf => by
    unfold State.get
    rw [b2, m2 _ _ (fun hh => absurd (Prod.mk.inj hh).2 hf)]
  have hpc : v.pc p = s.pc p := gv _ (by decide)
  have hst : v.seqState p = 3 := by
    have := ho.issues
    unfold State.issuing at this
    simp only [Bool.and_eq_true, beq_iff_eq] at this
    rw [show v.seqState p = s.seqState p from gv _ (by decide)]
    exact this.1.1
  have hbu : (v.seq p).bundles = (s.seq p).bundles := by rw [b8, m4]
  rw [bundleFlow_inner hi v p hst (by rw [hpc, hbu]; omega), hpc]
  have hsz := ho.size
  refine ⟨?_, ?_, ?_, ?_, ?_, ?_, ?_, ?_⟩
  · rw [still_put, b1, m1]
  · intro q o hx
    have hne : ¬ (q = p ∧ o = Reg.SEQ_PC_PC.off) := by
      rintro ⟨rfl, rfl⟩
      exact hx (by simp)
    have hsg : (q, o) = (p, Reg.SEQ_SLIPS_SEGMENT.off) → (s.seq p).segNew = false := by
      intro hh
      rw [hh] at hx
      cases hn : (s.seq p).segNew
      · rfl
      · rw [hn] at hx
        simp at hx
    rw [← m2 q o hsg, ← b2]
    cases p <;> cases q
    · rw [reg_put, if_neg (fun hh => hne ⟨rfl, hh⟩)]
    · exact reg_put_ux v _ _ _
    · exact reg_put_el v _ _ _
    · rw [reg_put, if_neg (fun hh => hne ⟨rfl, hh⟩)]
  · unfold State.pc
    rw [get_put_same v p Reg.SEQ_PC_PC _ (by decide) (by decide)]
    apply Nat.mod_eq_of_lt
    have : s.get p Reg.SEQ_PC_PC = s.pc p := rfl
    show s.get p Reg.SEQ_PC_PC + 1 < 2 ^ 16
    omega
  · intro a
    show (v.put p Reg.SEQ_PC_PC _).greg p a = _
    unfold State.greg
    rw [seq_put]
    refine (hg a).trans ?_
    refine congrFun (gs_congr acts (fun r => ?_)) a
    unfold State.greg
    rw [m4]
  · intro i hi8
    unfold State.flag
    rw [seq_put]
    refine (hc i hi8).trans ?_
    refine cs_congr acts (fun j _ => ?_) i hi8
    unfold State.flag
    rw [m4]
  · intro q
    rw [events_put, b3, m3]
  · rw [seq_put, b4, b5, b6, b7, b9, m4]
    exact ⟨rfl, rfl, ho.whole, rfl, rfl⟩
  · intro hn
    rw [← m5 hn]
    unfold State.get
    rw [show (v.put p Reg.SEQ_PC_PC (s.pc p + 1)).reg p Reg.SEQ_SLIPS_SEGMENT.off = v.reg p Reg.SEQ_SLIPS_SEGMENT.off by
      rw [reg_put, if_neg]
      decide]
    rw [b2]

/-- Operations of a predicated-off or a stopped sequencer. -/
theorem slotOp_off {s : State} {p : Part} {e : Env} (slot k : Nat) (acts bs : List Act) (h : s.runs p e = false) : s.slotOp p e slot acts = s.slotOp p e k bs := by
  unfold State.slotOp
  simp [h]

theorem slotOp_stopped {s : State} {p : Part} {e : Env} (slot : Nat) (acts : List Act) (h : s.issuing p = false) : s.slotOp p e slot acts = s := by
  unfold State.slotOp
  simp [h]

end Sys2Proof.Machine
end

