-- ==== Sys2Proof/Laws/Keep.lean ====
section
/-! SUPPORT. `Keeps` as a preorder, and the updates it is closed under. -/

namespace Sys2Proof.Machine

@[simp] theorem baseKeeps_refl (b : Base) : BaseKeeps b b := ⟨rfl, ⟨rfl, rfl⟩, List.prefix_refl _, id, id⟩

theorem BaseKeeps.trans {a b c : Base} (h : BaseKeeps a b) (k : BaseKeeps b c) : BaseKeeps a c :=
  ⟨k.frc.trans h.frc, ⟨k.straps.1.trans h.straps.1, k.straps.2.trans h.straps.2⟩, h.events.trans k.events, k.mem ∘ h.mem, k.sec ∘ h.sec⟩

/-- A change of fields that `BaseKeeps` does not name. -/
theorem BaseKeeps.of_same {b c : Base} (h1 : c.frc = b.frc) (h2 : c.cfgFilt = b.cfgFilt) (h3 : c.cfgSlew = b.cfgSlew)
    (h4 : c.events = b.events) (h5 : c.mem = b.mem) (h6 : c.secBytes = b.secBytes) : BaseKeeps b c :=
  ⟨h1, ⟨h2, h3⟩, h4 ▸ List.prefix_refl _, fun h => h5 ▸ h, fun h => h6 ▸ h⟩

@[simp] theorem keeps_refl (s : State) : Keeps s s := ⟨baseKeeps_refl _, baseKeeps_refl _, id, rfl, rfl, Nat.le_refl _⟩

theorem Keeps.trans {s t u : State} (h : Keeps s t) (k : Keeps t u) : Keeps s u :=
  ⟨h.el.trans k.el, h.ux.trans k.ux, k.spm ∘ h.spm, k.lic.trans h.lic, k.pending.trans h.pending, Nat.le_trans h.draws k.draws⟩

/-- What `Keeps` gives for the memories' form. -/
theorem Keeps.memOk {s t : State} (h : Keeps s t) (k : s.memOk) : t.memOk :=
  ⟨h.spm k.1, h.el.mem k.2.1, h.ux.mem k.2.2.1, h.el.sec k.2.2.2.1, h.ux.sec k.2.2.2.2⟩

@[simp] theorem keeps_setBase {r s : State} {p : Part} {b : Base} (h : Keeps r s) (k : BaseKeeps (s.base p) b) : Keeps r (s.setBase p b) := by
  refine h.trans ?_
  cases p
  · exact ⟨k, baseKeeps_refl _, id, rfl, rfl, Nat.le_refl _⟩
  · exact ⟨baseKeeps_refl _, k, id, rfl, rfl, Nat.le_refl _⟩

theorem keeps_mod {r s : State} {p : Part} {f : Base → Base} (h : Keeps r s) (k : BaseKeeps (s.base p) (f (s.base p))) : Keeps r (s.mod p f) :=
  keeps_setBase h k

theorem keeps_modEl {r s : State} {f : Elesh → Elesh} (h : Keeps r s) (k : BaseKeeps s.el.base (f s.el).base)
    (hl : (f s.el).lic = s.el.lic) (hm : Memory.wf s.el.spm = true → Memory.wf (f s.el).spm = true) : Keeps r (s.modEl f) :=
  h.trans ⟨k, baseKeeps_refl _, hm, hl, rfl, Nat.le_refl _⟩

theorem keeps_modUx {r s : State} {f : Uhloux → Uhloux} (h : Keeps r s) (k : BaseKeeps s.ux.base (f s.ux).base) : Keeps r (s.modUx f) :=
  h.trans ⟨baseKeeps_refl _, k, id, rfl, rfl, Nat.le_refl _⟩

theorem keeps_ite {r s t : State} {c : Prop} [Decidable c] (h : Keeps r s) (k : Keeps r t) : Keeps r (if c then s else t) := by
  split <;> assumption

theorem keeps_foldl {α : Type} {r s : State} {f : State → α → State} {l : List α} (h : Keeps r s) (k : ∀ t a, Keeps t (f t a)) : Keeps r (l.foldl f s) := by
  induction l generalizing s with
  | nil => exact h
  | cons a l ih => exact ih (h.trans (k s a))

/-- A fold, when each of its steps keeps what it is given. -/
theorem keeps_foldl2 {α : Type} {r s : State} {f : State → α → State} {l : List α} (h : Keeps r s) (k : ∀ t a, Keeps r t → Keeps r (f t a)) : Keeps r (l.foldl f s) := by
  induction l generalizing s with
  | nil => exact h
  | cons a l ih => exact ih (k s a h)

/-- A fold that carries something beside the state. -/
theorem keeps_foldl_fst {α β : Type} {r : State} {f : State × β → α → State × β} {l : List α} {x : State × β} (h : Keeps r x.1)
    (k : ∀ x a, Keeps x.1 (f x a).1) : Keeps r (l.foldl f x).1 := by
  induction l generalizing x with
  | nil => exact h
  | cons a l ih => exact ih (h.trans (k x a))

/-- A fold that carries something before the state. -/
theorem keeps_foldl_snd {α β : Type} {r : State} {f : β × State → α → β × State} {l : List α} {x : β × State} (h : Keeps r x.2)
    (k : ∀ x a, Keeps x.2 (f x a).2) : Keeps r (l.foldl f x).2 := by
  induction l generalizing x with
  | nil => exact h
  | cons a l ih => exact ih (h.trans (k x a))

theorem keeps_draws {r s : State} {n : Nat} (h : Keeps r s) : Keeps r { s with draws := s.draws + n } :=
  h.trans ⟨baseKeeps_refl _, baseKeeps_refl _, id, rfl, rfl, Nat.le_add_right _ _⟩

theorem keeps_draw {r s : State} (h : Keeps r s) : Keeps r s.draw.2 :=
  h.trans ⟨baseKeeps_refl _, baseKeeps_refl _, id, rfl, rfl, Nat.le_succ _⟩

theorem tame_next {s t : State} (h : Keeps s t) : Tame s (.next t) := .inl ⟨t, rfl, h⟩

theorem keeps_after {r s : State} {o : Out} (h : Keeps r s) (k : Tame r o) : Keeps r (s.after o) := by
  rcases k with ⟨t, rfl, k⟩ | rfl
  · exact k
  · exact h

theorem tame_refused (s : State) : Tame s (.refused .reservedEncoding) := .inr rfl

theorem tame_ite {s : State} {o o' : Out} {c : Prop} [Decidable c] (h : Tame s o) (k : Tame s o') : Tame s (if c then o else o') := by
  split <;> assumption

end Sys2Proof.Machine
end

