-- ==== Sys2Proof/Laws/KeepBase.lean ====
section
/-! SUPPORT. What each operation keeps (`Keeps`, `Tame`): registers, events, time bases, references, lanes, counters and the sequencer. One lemma for each operation; `assumption` ends every chain at the state it began with. -/

namespace Sys2Proof.Machine

theorem keeps_setReg {p : Part} {off : ℕ} {w : Word} {prior s : State} (hk : Keeps prior s) : Keeps prior (State.setReg s p off w) := by
  unfold State.setReg
  repeat' first
    | with_reducible assumption
    | (with_reducible refine keeps_mod ?_ ?_; rotate_left; exact BaseKeeps.of_same rfl rfl rfl rfl rfl rfl)

theorem keeps_put {p : Part} {f : Fld} {v : ℕ} {prior s : State} (hk : Keeps prior s) : Keeps prior (State.put s p f v) := by
  unfold State.put
  with_reducible repeat' first | assumption | apply keeps_setReg

theorem keeps_putI {p : Part} {f : Fld} {v : ℤ} {prior s : State} (hk : Keeps prior s) : Keeps prior (State.putI s p f v) := by
  unfold State.putI
  with_reducible repeat' first | assumption | apply keeps_put

theorem keeps_count {p : Part} {f : Fld} {n : ℕ} {prior s : State} (hk : Keeps prior s) : Keeps prior (State.count s p f n) := by
  unfold State.count
  with_reducible repeat' first | assumption | apply keeps_put

theorem keeps_setBits {p : Part} {f : Fld} {v : ℕ} {prior s : State} (hk : Keeps prior s) : Keeps prior (State.setBits s p f v) := by
  unfold State.setBits
  with_reducible repeat' first | assumption | apply keeps_put

theorem keeps_answer {p : Part} {d : Word} {err : Bool} {prior s : State} (hk : Keeps prior s) : Keeps prior (State.answer s p d err) := by
  unfold State.answer
  repeat' first
    | with_reducible assumption
    | (with_reducible refine keeps_mod ?_ ?_; rotate_left; exact BaseKeeps.of_same rfl rfl rfl rfl rfl rfl)

theorem keeps_modLane {p : Part} {x : ℕ} {f : Lane → Lane} {prior s : State} (hk : Keeps prior s) : Keeps prior (State.modLane s p x f) := by
  unfold State.modLane
  repeat' first
    | with_reducible assumption
    | (with_reducible refine keeps_mod ?_ ?_; rotate_left; exact BaseKeeps.of_same rfl rfl rfl rfl rfl rfl)

theorem keeps_lockClear  {prior s : State} (hk : Keeps prior s) : Keeps prior (State.lockClear s) := by
  unfold State.lockClear
  repeat' first
    | with_reducible assumption
    | (with_reducible refine keeps_modUx ?_ ?_; rotate_left; (first | exact baseKeeps_refl _ | exact BaseKeeps.of_same rfl rfl rfl rfl rfl rfl))

theorem keeps_sendOne {p : Part} {x : ℕ} {m : Msg} {prior s : State} (hk : Keeps prior s) : Keeps prior (State.sendOne s p x m) := by
  unfold State.sendOne
  with_reducible repeat' first | assumption | apply keeps_modLane | apply keeps_ite

theorem keeps_send {p : Part} {x : ℕ} {m : Msg} {prior s : State} (hk : Keeps prior s) : Keeps prior (State.send s p x m) := by
  unfold State.send
  with_reducible repeat' first | assumption | apply keeps_sendOne | apply keeps_ite

theorem keeps_sendUp {p : Part} {m : Msg} {prior s : State} (hk : Keeps prior s) : Keeps prior (State.sendUp s p m) := by
  unfold State.sendUp
  repeat' first
    | with_reducible assumption
    | with_reducible apply keeps_send
    | split

theorem keeps_sendDown {xs : List ℕ} {m : Msg} {prior s : State} (hk : Keeps prior s) : Keeps prior (State.sendDown s xs m) := by
  unfold State.sendDown
  repeat' first
    | with_reducible assumption
    | with_reducible exact keeps_refl _
    | with_reducible apply keeps_send
    | (refine keeps_foldl ?_ (fun t a => ?_))
    | with_reducible apply keeps_ite

theorem keeps_logRec {p : Part} {r : EvtRec} {prior s : State} (hk : Keeps prior s) : Keeps prior (State.logRec s p r) := by
  unfold State.logRec
  extract_lets t
  have ht : Keeps prior t := keeps_mod hk ⟨rfl, ⟨rfl, rfl⟩, List.prefix_append _ _, id, id⟩
  clear_value t
  split
  · exact ht
  · refine keeps_sendUp (keeps_modEl ht ?_ ?_ ?_) <;> dsimp only <;> split <;> first | exact baseKeeps_refl _ | rfl | exact id

theorem keeps_logW {p : Part} {unit : ℕ} {code : ℕ} {object : ℕ} {waiter : ℕ} {detail : ℕ} {prior s : State} (hk : Keeps prior s) : Keeps prior (State.logW s p unit code object waiter detail) := by
  unfold State.logW
  with_reducible repeat' first | assumption | apply keeps_logRec

theorem keeps_log {p : Part} {unit : ℕ} {code : ℕ} {object : ℕ} {detail : ℕ} {prior s : State} (hk : Keeps prior s) : Keeps prior (State.log s p unit code object detail) := by
  unfold State.log
  with_reducible repeat' first | assumption | apply keeps_logW

theorem keeps_logI {p : Part} {unit : ℕ} {code : ℕ} {object : ℕ} {detail : ℤ} {prior s : State} (hk : Keeps prior s) : Keeps prior (State.logI s p unit code object detail) := by
  unfold State.logI
  with_reducible repeat' first | assumption | apply keeps_log

theorem keeps_logOpen {p : Part} {unit : ℕ} {area : ℕ} {object : ℕ} {prior s : State} (hk : Keeps prior s) : Keeps prior (State.logOpen s p unit area object) := by
  unfold State.logOpen
  with_reducible repeat' first | assumption | apply keeps_draw | apply keeps_log

theorem keeps_tbAnchorAt {p : Part} {n : ℕ} {v : ℕ} {prior s : State} (hk : Keeps prior s) : Keeps prior (State.tbAnchorAt s p n v) := by
  unfold State.tbAnchorAt
  with_reducible repeat' first | assumption | apply keeps_setReg | apply keeps_put

theorem keeps_tbSetRate {p : Part} {n : ℕ} {r : ℤ} {prior s : State} (hk : Keeps prior s) : Keeps prior (State.tbSetRate s p n r) := by
  unfold State.tbSetRate
  with_reducible repeat' first | assumption | apply keeps_tbAnchorAt | apply keeps_setReg

theorem keeps_tbSetState {p : Part} {n : ℕ} {code : ℕ} {prior s : State} (hk : Keeps prior s) : Keeps prior (State.tbSetState s p n code) := by
  unfold State.tbSetState
  with_reducible repeat' first | assumption | apply keeps_put

theorem keeps_restamp {p : Part} {n : ℕ} {prior s : State} (hk : Keeps prior s) : Keeps prior (State.restamp s p n) := by
  unfold State.restamp
  repeat' first
    | with_reducible assumption
    | with_reducible exact keeps_refl _
    | (with_reducible refine keeps_mod ?_ ?_; rotate_left; exact BaseKeeps.of_same rfl rfl rfl rfl rfl rfl)
    | (refine keeps_foldl ?_ (fun t a => ?_))
    | with_reducible apply keeps_ite
    | (extract_lets +onlyGivenNames x; clear_value x)
    | split

theorem keeps_tbStep {p : Part} {n : ℕ} {v : ℕ} {prior s : State} (hk : Keeps prior s) : Keeps prior (State.tbStep s p n v) := by
  unfold State.tbStep
  repeat' first
    | with_reducible assumption
    | with_reducible apply keeps_tbAnchorAt
    | with_reducible apply keeps_tbSetState
    | (with_reducible refine keeps_mod ?_ ?_; rotate_left; exact BaseKeeps.of_same rfl rfl rfl rfl rfl rfl)
    | with_reducible apply keeps_restamp
    | with_reducible apply keeps_logI

theorem keeps_tbStepRefused {p : Part} {n : ℕ} {prior s : State} (hk : Keeps prior s) : Keeps prior (State.tbStepRefused s p n) := by
  unfold State.tbStepRefused
  with_reducible repeat' first | assumption | apply keeps_put | apply keeps_log

theorem keeps_tbHoldover {p : Part} {n : ℕ} {prior s : State} (hk : Keeps prior s) : Keeps prior (State.tbHoldover s p n) := by
  unfold State.tbHoldover
  with_reducible repeat' first | assumption | apply keeps_tbSetState | apply keeps_logI

theorem keeps_tbLock {p : Part} {n : ℕ} {prior s : State} (hk : Keeps prior s) : Keeps prior (State.tbLock s p n) := by
  unfold State.tbLock
  with_reducible repeat' first | assumption | apply keeps_tbSetState | apply keeps_put | apply keeps_logI

theorem keeps_slewHold {p : Part} {prior s : State} (hk : Keeps prior s) : Keeps prior (State.slewHold s p) := by
  unfold State.slewHold
  repeat' first
    | with_reducible assumption
    | with_reducible exact keeps_refl _
    | with_reducible apply keeps_tbSetRate
    | (refine keeps_foldl ?_ (fun t a => ?_))
    | with_reducible apply keeps_ite

theorem keeps_planeSwitch {x : ℕ} {prior s : State} (hk : Keeps prior s) : Keeps prior (State.planeSwitch s x) := by
  unfold State.planeSwitch
  repeat' first
    | with_reducible assumption
    | (with_reducible refine keeps_modEl ?_ ?_ ?_ ?_; rotate_left; (first | exact baseKeeps_refl _ | exact BaseKeeps.of_same rfl rfl rfl rfl rfl rfl); rfl; exact id)
    | with_reducible apply keeps_put
    | with_reducible apply keeps_tbSetState
    | with_reducible apply keeps_putI
    | with_reducible apply keeps_logI
    | with_reducible apply keeps_log
    | with_reducible apply keeps_tbHoldover
    | with_reducible apply keeps_ite
    | split

theorem keeps_replaceSet {k : ℕ} {prior s : State} (hk : Keeps prior s) : Keeps prior (State.replaceSet s k) := by
  unfold State.replaceSet
  with_reducible repeat' first | assumption | apply keeps_setBits | apply keeps_log | apply keeps_ite

theorem keeps_dpllAlarm {f : Fld} {prior s : State} (hk : Keeps prior s) : Keeps prior (State.dpllAlarm s f) := by
  unfold State.dpllAlarm
  with_reducible repeat' first | assumption | apply keeps_put | apply keeps_log | apply keeps_replaceSet

theorem keeps_dcoSet {v : ℤ} {prior s : State} (hk : Keeps prior s) : Keeps prior (State.dcoSet s v) := by
  unfold State.dcoSet
  with_reducible repeat' first | assumption | apply keeps_setReg | apply keeps_dpllAlarm | apply keeps_ite

theorem keeps_dcoApply  {prior s : State} (hk : Keeps prior s) : Keeps prior (State.dcoApply s) := by
  unfold State.dcoApply
  with_reducible repeat' first | assumption | apply keeps_dcoSet

theorem keeps_dcoLoop  {prior s : State} (hk : Keeps prior s) : Keeps prior (State.dcoLoop s) := by
  unfold State.dcoLoop
  with_reducible repeat' first | assumption | apply keeps_draw | apply keeps_dcoSet

theorem keeps_rootStep {v : ℕ} {tai : Bool} {prior s : State} (hk : Keeps prior s) : Keeps prior (State.rootStep s v tai) := by
  unfold State.rootStep
  with_reducible repeat' first | assumption | apply keeps_tbStep | apply keeps_put | apply keeps_tbLock

theorem keeps_rootSlew {pe : ℤ} {prior s : State} (hk : Keeps prior s) : Keeps prior (State.rootSlew s pe) := by
  unfold State.rootSlew
  repeat' first
    | with_reducible assumption
    | with_reducible apply keeps_putI
    | (with_reducible refine keeps_modUx ?_ ?_; rotate_left; (first | exact baseKeeps_refl _ | exact BaseKeeps.of_same rfl rfl rfl rfl rfl rfl))
    | with_reducible apply keeps_tbSetRate
    | with_reducible apply keeps_tbSetState
    | with_reducible apply keeps_ite

theorem keeps_rootSettle  {prior s : State} (hk : Keeps prior s) : Keeps prior (State.rootSettle s) := by
  unfold State.rootSettle
  with_reducible repeat' first | assumption | apply keeps_putI | apply keeps_tbSetRate | apply keeps_tbLock

theorem keeps_rootIdle  {prior s : State} (hk : Keeps prior s) : Keeps prior (State.rootIdle s) := by
  unfold State.rootIdle
  with_reducible repeat' first | assumption | apply keeps_rootSettle | apply keeps_ite

theorem keeps_rootFollow {k : ℕ} {pe : ℤ} {prior s : State} (hk : Keeps prior s) : Keeps prior (State.rootFollow s k pe) := by
  unfold State.rootFollow
  with_reducible repeat' first | assumption | apply keeps_rootSlew | apply keeps_ite

theorem keeps_freeHxt  {prior s : State} (hk : Keeps prior s) : Keeps prior (State.freeHxt s).2 := by
  unfold State.freeHxt
  with_reducible repeat' first | assumption | apply keeps_draw

theorem keeps_taiWrite {cand : ℕ} {prior s : State} (hk : Keeps prior s) : Keeps prior (State.taiWrite s cand) := by
  unfold State.taiWrite
  repeat' first
    | with_reducible assumption
    | with_reducible apply keeps_setReg
    | (with_reducible refine keeps_modUx ?_ ?_; rotate_left; (first | exact baseKeeps_refl _ | exact BaseKeeps.of_same rfl rfl rfl rfl rfl rfl))

theorem keeps_taiMeasure {cand : Option ℕ} {prior s : State} (hk : Keeps prior s) : Keeps prior (State.taiMeasure s cand) := by
  unfold State.taiMeasure
  repeat' first
    | with_reducible assumption
    | with_reducible apply keeps_taiWrite
    | with_reducible apply keeps_freeHxt
    | with_reducible apply keeps_ite
    | (extract_lets +onlyGivenNames x; refine (fun (hx : Keeps prior x.2) => ?_) ?_; clear_value x; rotate_left; subst x)
    | split

theorem keeps_refTraceAt {cand : Option ℕ} {prior s : State} (hk : Keeps prior s) : Keeps prior (State.refTraceAt s cand) := by
  unfold State.refTraceAt
  repeat' first
    | with_reducible assumption
    | with_reducible apply keeps_put
    | with_reducible apply keeps_rootStep
    | with_reducible apply keeps_freeHxt
    | with_reducible apply keeps_taiMeasure
    | (with_reducible refine keeps_modUx ?_ ?_; rotate_left; (first | exact baseKeeps_refl _ | exact BaseKeeps.of_same rfl rfl rfl rfl rfl rfl))
    | with_reducible apply keeps_log
    | with_reducible apply keeps_ite
    | (extract_lets +onlyGivenNames x; refine (fun (hx : Keeps prior x.2) => ?_) ?_; clear_value x; rotate_left; subst x)
    | split

theorem keeps_refTrace  {prior s : State} (hk : Keeps prior s) : Keeps prior (State.refTrace s) := by
  unfold State.refTrace
  with_reducible repeat' first | assumption | apply keeps_refTraceAt

theorem keeps_refSelect {k : ℕ} {prior s : State} (hk : Keeps prior s) : Keeps prior (State.refSelect s k) := by
  unfold State.refSelect
  with_reducible repeat' first | assumption | apply keeps_put | apply keeps_log | apply keeps_draw | apply keeps_rootSlew | apply keeps_rootIdle | apply keeps_ite

theorem keeps_uxAclk  {prior s : State} (hk : Keeps prior s) : Keeps prior (State.uxAclk s) := by
  unfold State.uxAclk
  with_reducible repeat' first | assumption | apply keeps_put | apply keeps_logI | apply keeps_ite

theorem keeps_dpllFree  {prior s : State} (hk : Keeps prior s) : Keeps prior (State.dpllFree s) := by
  unfold State.dpllFree
  repeat' first
    | with_reducible assumption
    | with_reducible apply keeps_put
    | with_reducible apply keeps_logI
    | (with_reducible refine keeps_modUx ?_ ?_; rotate_left; (first | exact baseKeeps_refl _ | exact BaseKeeps.of_same rfl rfl rfl rfl rfl rfl))
    | with_reducible apply keeps_dcoApply
    | with_reducible apply keeps_rootIdle
    | with_reducible apply keeps_refTrace
    | with_reducible apply keeps_uxAclk

theorem keeps_dpllSeek {code : ℕ} {k : ℕ} {prior s : State} (hk : Keeps prior s) : Keeps prior (State.dpllSeek s code k) := by
  unfold State.dpllSeek
  repeat' first
    | with_reducible assumption
    | with_reducible apply keeps_put
    | with_reducible apply keeps_refSelect
    | (with_reducible refine keeps_modUx ?_ ?_; rotate_left; (first | exact baseKeeps_refl _ | exact BaseKeeps.of_same rfl rfl rfl rfl rfl rfl))
    | with_reducible apply keeps_refTrace
    | with_reducible apply keeps_uxAclk

theorem keeps_wtrStop {k : ℕ} {prior s : State} (hk : Keeps prior s) : Keeps prior (State.wtrStop s k) := by
  unfold State.wtrStop
  repeat' first
    | with_reducible assumption
    | (with_reducible refine keeps_modUx ?_ ?_; rotate_left; (first | exact baseKeeps_refl _ | exact BaseKeeps.of_same rfl rfl rfl rfl rfl rfl))
    | split

theorem keeps_wtrStart {k : ℕ} {prior s : State} (hk : Keeps prior s) : Keeps prior (State.wtrStart s k) := by
  unfold State.wtrStart
  repeat' first
    | with_reducible assumption
    | with_reducible apply keeps_log
    | (with_reducible refine keeps_modUx ?_ ?_; rotate_left; (first | exact baseKeeps_refl _ | exact BaseKeeps.of_same rfl rfl rfl rfl rfl rfl))
    | with_reducible apply keeps_ite

theorem keeps_wtrClear  {prior s : State} (hk : Keeps prior s) : Keeps prior (State.wtrClear s) := by
  unfold State.wtrClear
  repeat' first
    | with_reducible assumption
    | (with_reducible refine keeps_modUx ?_ ?_; rotate_left; (first | exact baseKeeps_refl _ | exact BaseKeeps.of_same rfl rfl rfl rfl rfl rfl))

theorem keeps_refResolve  {prior s : State} (hk : Keeps prior s) : Keeps prior (State.refResolve s) := by
  unfold State.refResolve
  repeat' first
    | with_reducible assumption
    | with_reducible apply keeps_dpllSeek
    | with_reducible apply keeps_dpllFree
    | with_reducible apply keeps_ite
    | (extract_lets +onlyGivenNames x; clear_value x)
    | split

theorem keeps_candPut {k : ℕ} {valid : Bool} {qual : Bool} {prior s : State} (hk : Keeps prior s) : Keeps prior (State.candPut s k valid qual) := by
  unfold State.candPut
  with_reducible repeat' first | assumption | apply keeps_put | apply keeps_ite

theorem keeps_candLost {k : ℕ} {monitor : ℕ} {prior s : State} (hk : Keeps prior s) : Keeps prior (State.candLost s k monitor) := by
  unfold State.candLost
  repeat' first
    | with_reducible assumption
    | with_reducible apply keeps_candPut
    | with_reducible apply keeps_put
    | (with_reducible refine keeps_modUx ?_ ?_; rotate_left; (first | exact baseKeeps_refl _ | exact BaseKeeps.of_same rfl rfl rfl rfl rfl rfl))
    | with_reducible apply keeps_log
    | with_reducible apply keeps_wtrStop
    | with_reducible apply keeps_refResolve
    | with_reducible apply keeps_refTrace
    | with_reducible apply keeps_ite

theorem keeps_setMember {pdi : ℕ} {code : ℕ} {prior s : State} (hk : Keeps prior s) : Keeps prior (State.setMember s pdi code) := by
  unfold State.setMember
  repeat' first
    | with_reducible assumption
    | (with_reducible refine keeps_modUx ?_ ?_; rotate_left; (first | exact baseKeeps_refl _ | exact BaseKeeps.of_same rfl rfl rfl rfl rfl rfl))
    | with_reducible apply keeps_put
    | with_reducible apply keeps_ite

theorem keeps_modMod {x : ℕ} {f : Module → Module} {prior s : State} (hk : Keeps prior s) : Keeps prior (State.modMod s x f) := by
  unfold State.modMod
  repeat' first
    | with_reducible assumption
    | (with_reducible refine keeps_modUx ?_ ?_; rotate_left; (first | exact baseKeeps_refl _ | exact BaseKeeps.of_same rfl rfl rfl rfl rfl rfl))

theorem keeps_moduleUp {p : Part} {x : ℕ} {prior s : State} (hk : Keeps prior s) : Keeps prior (State.moduleUp s p x) := by
  unfold State.moduleUp
  repeat' first
    | with_reducible assumption
    | with_reducible apply keeps_modMod
    | split

theorem keeps_moduleDown {p : Part} {x : ℕ} {prior s : State} (hk : Keeps prior s) : Keeps prior (State.moduleDown s p x) := by
  unfold State.moduleDown
  repeat' first
    | with_reducible assumption
    | with_reducible apply keeps_modMod
    | split

theorem keeps_setCredit {p : Part} {x : ℕ} {vc : ℕ} {n : ℕ} {prior s : State} (hk : Keeps prior s) : Keeps prior (State.setCredit s p x vc n) := by
  unfold State.setCredit
  with_reducible repeat' first | assumption | apply keeps_setReg

theorem keeps_aclkSource  {prior s : State} (hk : Keeps prior s) : Keeps prior (State.aclkSource s) := by
  unfold State.aclkSource
  with_reducible repeat' first | assumption | apply keeps_put | apply keeps_draw | apply keeps_log | apply keeps_ite

theorem keeps_laneShow {p : Part} {x : ℕ} {prior s : State} (hk : Keeps prior s) : Keeps prior (State.laneShow s p x) := by
  unfold State.laneShow
  with_reducible repeat' first | assumption | apply keeps_put

theorem keeps_laneSet {p : Part} {x : ℕ} {code : ℕ} {prior s : State} (hk : Keeps prior s) : Keeps prior (State.laneSet s p x code) := by
  unfold State.laneSet
  with_reducible repeat' first | assumption | apply keeps_put

theorem keeps_attestAsk {x : ℕ} {prior s : State} (hk : Keeps prior s) : Keeps prior (State.attestAsk s x) := by
  unfold State.attestAsk
  repeat' first
    | with_reducible assumption
    | with_reducible apply keeps_draw
    | (with_reducible refine keeps_modUx ?_ ?_; rotate_left; (first | exact baseKeeps_refl _ | exact BaseKeeps.of_same rfl rfl rfl rfl rfl rfl))
    | with_reducible apply keeps_send

theorem keeps_laneActivate {p : Part} {x : ℕ} {prior s : State} (hk : Keeps prior s) : Keeps prior (State.laneActivate s p x) := by
  unfold State.laneActivate
  repeat' first
    | with_reducible assumption
    | with_reducible apply keeps_laneSet
    | with_reducible apply keeps_log
    | with_reducible apply keeps_put
    | with_reducible apply keeps_aclkSource
    | with_reducible apply keeps_setMember
    | with_reducible apply keeps_attestAsk
    | with_reducible apply keeps_sendDown
    | (with_reducible refine keeps_modUx ?_ ?_; rotate_left; (first | exact baseKeeps_refl _ | exact BaseKeeps.of_same rfl rfl rfl rfl rfl rfl))
    | with_reducible apply keeps_ite
    | (extract_lets +onlyGivenNames x; refine (fun (hx : Keeps prior x) => ?_) ?_; clear_value x; rotate_left; subst x)
    | (extract_lets +onlyGivenNames x; clear_value x)
    | split

theorem keeps_lanesWait {p : Part} {n : ℕ} {prior s : State} (hk : Keeps prior s) : Keeps prior (State.lanesWait s p n) := by
  unfold State.lanesWait
  repeat' first
    | with_reducible assumption
    | with_reducible apply keeps_laneActivate
    | with_reducible apply keeps_ite
    | split

theorem keeps_tbEnterLocked {p : Part} {n : ℕ} {prior s : State} (hk : Keeps prior s) : Keeps prior (State.tbEnterLocked s p n) := by
  unfold State.tbEnterLocked
  with_reducible repeat' first | assumption | apply keeps_tbLock | apply keeps_lanesWait

theorem keeps_laneMove {p : Part} {x : ℕ} {y : ℕ} {prior s : State} (hk : Keeps prior s) : Keeps prior (State.laneMove s p x y) := by
  unfold State.laneMove
  with_reducible repeat' first | assumption | apply keeps_modLane | apply keeps_laneShow

theorem keeps_laneSpread {x : ℕ} {ys : List ℕ} {prior s : State} (hk : Keeps prior s) : Keeps prior (State.laneSpread s x ys) := by
  unfold State.laneSpread
  repeat' first
    | with_reducible assumption
    | with_reducible exact keeps_refl _
    | with_reducible apply keeps_modLane
    | with_reducible apply keeps_laneShow
    | (refine keeps_foldl ?_ (fun t a => ?_))

theorem keeps_laneDrop {p : Part} {x : ℕ} {prior s : State} (hk : Keeps prior s) : Keeps prior (State.laneDrop s p x) := by
  unfold State.laneDrop
  with_reducible repeat' first | assumption | apply keeps_modLane | apply keeps_laneShow

theorem keeps_failover {x : ℕ} {prior s : State} (hk : Keeps prior s) : Keeps prior (State.failover s x) := by
  unfold State.failover
  with_reducible repeat' first | assumption | apply keeps_put | apply keeps_planeSwitch | apply keeps_laneMove | apply keeps_log | apply keeps_aclkSource

theorem keeps_elLaneLoss {x : ℕ} {prior s : State} (hk : Keeps prior s) : Keeps prior (State.elLaneLoss s x) := by
  unfold State.elLaneLoss
  with_reducible repeat' first | assumption | apply keeps_failover | apply keeps_put | apply keeps_laneDrop | apply keeps_log | apply keeps_aclkSource | apply keeps_planeSwitch | apply keeps_ite

theorem keeps_mirrorFull  {prior s : State} (hk : Keeps prior s) : Keeps prior (State.mirrorFull s) := by
  unfold State.mirrorFull
  with_reducible repeat' first | assumption | apply keeps_put | apply keeps_ite

theorem keeps_unmirrored  {prior s : State} (hk : Keeps prior s) : Keeps prior (State.unmirrored s) := by
  unfold State.unmirrored
  with_reducible repeat' first | assumption | apply keeps_put | apply keeps_mirrorFull | apply keeps_log | apply keeps_ite

theorem keeps_vaultLost  {prior s : State} (hk : Keeps prior s) : Keeps prior (State.vaultLost s) := by
  unfold State.vaultLost
  repeat' first
    | with_reducible assumption
    | with_reducible apply keeps_put
    | (with_reducible refine keeps_modUx ?_ ?_; rotate_left; (first | exact baseKeeps_refl _ | exact BaseKeeps.of_same rfl rfl rfl rfl rfl rfl))
    | with_reducible apply keeps_unmirrored
    | with_reducible apply keeps_ite

theorem keeps_otherPlaneUp {pdi : ℕ} {prior s : State} (hk : Keeps prior s) : Keeps prior (State.otherPlaneUp s pdi).2 := by
  unfold State.otherPlaneUp
  repeat' first
    | with_reducible assumption
    | with_reducible apply keeps_draw
    | (extract_lets +onlyGivenNames x; refine (fun (hx : Keeps prior x.2) => ?_) ?_; clear_value x; rotate_left; subst x)
    | (extract_lets +onlyGivenNames x; clear_value x)
    | split

theorem keeps_childAbsent {x : ℕ} {prior s : State} (hk : Keeps prior s) : Keeps prior (State.childAbsent s x) := by
  unfold State.childAbsent
  with_reducible repeat' first | assumption | apply keeps_otherPlaneUp | apply keeps_setMember | apply keeps_ite

theorem keeps_uxLaneLoss {x : ℕ} {prior s : State} (hk : Keeps prior s) : Keeps prior (State.uxLaneLoss s x) := by
  unfold State.uxLaneLoss
  repeat' first
    | with_reducible assumption
    | with_reducible apply keeps_candLost
    | with_reducible apply keeps_put
    | with_reducible apply keeps_laneDrop
    | with_reducible apply keeps_childAbsent
    | with_reducible apply keeps_laneMove
    | with_reducible apply keeps_log
    | with_reducible apply keeps_sendDown
    | (with_reducible refine keeps_modUx ?_ ?_; rotate_left; (first | exact baseKeeps_refl _ | exact BaseKeeps.of_same rfl rfl rfl rfl rfl rfl))
    | with_reducible apply keeps_vaultLost
    | with_reducible apply keeps_laneSpread
    | with_reducible apply keeps_ite
    | split

theorem keeps_laneLoss {p : Part} {x : ℕ} {prior s : State} (hk : Keeps prior s) : Keeps prior (State.laneLoss s p x) := by
  unfold State.laneLoss
  repeat' first
    | with_reducible assumption
    | with_reducible apply keeps_elLaneLoss
    | with_reducible apply keeps_uxLaneLoss
    | split

theorem keeps_absentCheck {p : Part} {prior s : State} (hk : Keeps prior s) : Keeps prior (State.absentCheck s p) := by
  unfold State.absentCheck
  repeat' first
    | with_reducible assumption
    | with_reducible apply keeps_put
    | with_reducible apply keeps_setMember
    | with_reducible apply keeps_ite
    | (extract_lets +onlyGivenNames x; refine (fun (hx : Keeps prior x) => ?_) ?_; clear_value x; rotate_left; subst x)
    | (extract_lets +onlyGivenNames x; clear_value x)
    | split

theorem keeps_calClear {p : Part} {x : ℕ} {prior s : State} (hk : Keeps prior s) : Keeps prior (State.calClear s p x) := by
  unfold State.calClear
  repeat' first
    | with_reducible assumption
    | with_reducible apply keeps_put
    | with_reducible apply keeps_setReg
    | with_reducible apply keeps_ite
    | (extract_lets +onlyGivenNames x; refine (fun (hx : Keeps prior x) => ?_) ?_; clear_value x; rotate_left; subst x)
    | (extract_lets +onlyGivenNames x; clear_value x)
    | split

theorem keeps_leaveFail {p : Part} {x : ℕ} {prior s : State} (hk : Keeps prior s) : Keeps prior (State.leaveFail s p x) := by
  unfold State.leaveFail
  with_reducible repeat' first | assumption | apply keeps_modLane | apply keeps_ite

theorem keeps_laneFail {p : Part} {x : ℕ} {cause : ℕ} {prior s : State} (hk : Keeps prior s) : Keeps prior (State.laneFail s p x cause) := by
  unfold State.laneFail
  with_reducible repeat' first | assumption | apply keeps_leaveFail | apply keeps_laneSet | apply keeps_put | apply keeps_log | apply keeps_calClear | apply keeps_laneLoss | apply keeps_absentCheck

theorem keeps_laneFailOpen {p : Part} {x : ℕ} {prior s : State} (hk : Keeps prior s) : Keeps prior (State.laneFailOpen s p x) := by
  unfold State.laneFailOpen
  with_reducible repeat' first | assumption | apply keeps_draw | apply keeps_laneFail

theorem keeps_bothFail  {prior s : State} (hk : Keeps prior s) : Keeps prior (State.bothFail s) := by
  unfold State.bothFail
  with_reducible repeat' first | assumption | apply keeps_leaveFail | apply keeps_laneSet | apply keeps_laneFailOpen | apply keeps_ite

theorem keeps_recal {p : Part} {x : ℕ} {prior s : State} (hk : Keeps prior s) : Keeps prior (State.recal s p x) := by
  unfold State.recal
  with_reducible repeat' first | assumption | apply keeps_calClear | apply keeps_modLane

theorem keeps_laneTrain {p : Part} {x : ℕ} {prior s : State} (hk : Keeps prior s) : Keeps prior (State.laneTrain s p x) := by
  unfold State.laneTrain
  with_reducible repeat' first | assumption | apply keeps_recal | apply keeps_laneSet | apply keeps_moduleUp | apply keeps_ite

theorem keeps_cntAdd {i : ℕ} {n : ℕ} {prior s : State} (hk : Keeps prior s) : Keeps prior (State.cntAdd s i n) := by
  unfold State.cntAdd
  repeat' first
    | with_reducible assumption
    | (with_reducible refine keeps_modEl ?_ ?_ ?_ ?_; rotate_left; (first | exact baseKeeps_refl _ | exact BaseKeeps.of_same rfl rfl rfl rfl rfl rfl); rfl; exact id)
    | with_reducible apply keeps_put
    | with_reducible apply keeps_log
    | with_reducible apply keeps_ite

theorem keeps_tcAdd {i : ℕ} {n : ℕ} {prior s : State} (hk : Keeps prior s) : Keeps prior (State.tcAdd s i n) := by
  unfold State.tcAdd
  repeat' first
    | with_reducible assumption
    | (with_reducible refine keeps_modUx ?_ ?_; rotate_left; (first | exact baseKeeps_refl _ | exact BaseKeeps.of_same rfl rfl rfl rfl rfl rfl))
    | with_reducible apply keeps_log
    | with_reducible apply keeps_ite

theorem keeps_setWatch {w : ℕ} {x : Watch} {prior s : State} (hk : Keeps prior s) : Keeps prior (State.setWatch s w x) := by
  unfold State.setWatch
  repeat' first
    | with_reducible assumption
    | (with_reducible refine keeps_modEl ?_ ?_ ?_ ?_; rotate_left; (first | exact baseKeeps_refl _ | exact BaseKeeps.of_same rfl rfl rfl rfl rfl rfl); rfl; exact id)

theorem keeps_disarm {w : ℕ} {prior s : State} (hk : Keeps prior s) : Keeps prior (State.disarm s w) := by
  unfold State.disarm
  with_reducible repeat' first | assumption | apply keeps_setWatch

theorem keeps_wakeWatch {w : ℕ} {kind : ℕ} {equal : Bool} {prior s : State} (hk : Keeps prior s) : Keeps prior (State.wakeWatch s w kind equal) := by
  unfold State.wakeWatch
  repeat' first
    | with_reducible assumption
    | with_reducible apply keeps_disarm
    | (with_reducible refine keeps_modEl ?_ ?_ ?_ ?_; rotate_left; (first | exact baseKeeps_refl _ | exact BaseKeeps.of_same rfl rfl rfl rfl rfl rfl); rfl; exact id)

theorem keeps_watchTry {w : ℕ} {prior s : State} (hk : Keeps prior s) : Keeps prior (State.watchTry s w) := by
  unfold State.watchTry
  with_reducible repeat' first | assumption | apply keeps_wakeWatch | apply keeps_ite

theorem keeps_watchScan {keys : List ℕ} {prior s : State} (hk : Keeps prior s) : Keeps prior (State.watchScan s keys) := by
  unfold State.watchScan
  repeat' first
    | with_reducible assumption
    | with_reducible exact keeps_refl _
    | with_reducible apply keeps_watchTry
    | (refine keeps_foldl ?_ (fun t a => ?_))
    | with_reducible apply keeps_ite

theorem keeps_setGate {c : ℕ} {e : ℕ} {g : Gate} {prior s : State} (hk : Keeps prior s) : Keeps prior (State.setGate s c e g) := by
  unfold State.setGate
  repeat' first
    | with_reducible assumption
    | (with_reducible refine keeps_modEl ?_ ?_ ?_ ?_; rotate_left; (first | exact baseKeeps_refl _ | exact BaseKeeps.of_same rfl rfl rfl rfl rfl rfl); rfl; exact id)

theorem keeps_gateAsk {c : ℕ} {e : ℕ} {prior s : State} (hk : Keeps prior s) : Keeps prior (State.gateAsk s c e) := by
  unfold State.gateAsk
  with_reducible repeat' first | assumption | apply keeps_setGate | apply keeps_ite

theorem keeps_watchReg {owner : Bool} {core : ℕ} {k : ℕ} {target : ℕ} {eq : Bool} {eng : ℕ} {w : ℕ} {prior s : State} (hk : Keeps prior s) : Keeps prior (State.watchReg s owner core k target eq eng w).1 := by
  unfold State.watchReg
  repeat' first
    | with_reducible assumption
    | with_reducible apply keeps_logW
    | with_reducible apply keeps_setWatch
    | with_reducible apply keeps_gateAsk
    | with_reducible apply keeps_watchTry
    | (extract_lets +onlyGivenNames x; refine (fun (hx : Keeps prior x) => ?_) ?_; clear_value x; rotate_left; subst x)
    | (extract_lets +onlyGivenNames x; clear_value x)
    | split

theorem keeps_watchClear {w : ℕ} {prior s : State} (hk : Keeps prior s) : Keeps prior (State.watchClear s w) := by
  unfold State.watchClear
  with_reducible repeat' first | assumption | apply keeps_wakeWatch | apply keeps_ite

theorem keeps_watchKill  {prior s : State} (hk : Keeps prior s) : Keeps prior (State.watchKill s) := by
  unfold State.watchKill
  repeat' first
    | with_reducible assumption
    | with_reducible exact keeps_refl _
    | with_reducible apply keeps_wakeWatch
    | (refine keeps_foldl ?_ (fun t a => ?_))
    | with_reducible apply keeps_ite

theorem keeps_cntClear  {prior s : State} (hk : Keeps prior s) : Keeps prior (State.cntClear s) := by
  unfold State.cntClear
  repeat' first
    | with_reducible assumption
    | (with_reducible refine keeps_modEl ?_ ?_ ?_ ?_; rotate_left; (first | exact baseKeeps_refl _ | exact BaseKeeps.of_same rfl rfl rfl rfl rfl rfl); rfl; exact id)

theorem keeps_setSeqState {p : Part} {c : ℕ} {prior s : State} (hk : Keeps prior s) : Keeps prior (State.setSeqState s p c) := by
  unfold State.setSeqState
  with_reducible repeat' first | assumption | apply keeps_put

theorem keeps_modSeq {p : Part} {f : Seq → Seq} {prior s : State} (hk : Keeps prior s) : Keeps prior (State.modSeq s p f) := by
  unfold State.modSeq
  repeat' first
    | with_reducible assumption
    | (with_reducible refine keeps_mod ?_ ?_; rotate_left; exact BaseKeeps.of_same rfl rfl rfl rfl rfl rfl)

theorem keeps_setGreg {p : Part} {a : ℕ} {v : Word} {prior s : State} (hk : Keeps prior s) : Keeps prior (State.setGreg s p a v) := by
  unfold State.setGreg
  with_reducible repeat' first | assumption | apply keeps_modSeq

theorem keeps_setFlag {p : Part} {c : ℕ} {b : Bool} {prior s : State} (hk : Keeps prior s) : Keeps prior (State.setFlag s p c b) := by
  unfold State.setFlag
  with_reducible repeat' first | assumption | apply keeps_modSeq

theorem keeps_slip {p : Part} {n : ℕ} {prior s : State} (hk : Keeps prior s) : Keeps prior (State.slip s p n) := by
  unfold State.slip
  with_reducible repeat' first | assumption | apply keeps_count

theorem keeps_qfail {p : Part} {q : QueueId} {pc : ℕ} {st : ℕ} {prior s : State} (hk : Keeps prior s) : Keeps prior (State.qfail s p q pc st) := by
  unfold State.qfail
  with_reducible repeat' first | assumption | apply keeps_put | apply keeps_logW

theorem keeps_talLast {op : ℕ} {pc : ℕ} {st : ℕ} {block : ℕ} {prior s : State} (hk : Keeps prior s) : Keeps prior (State.talLast s op pc st block) := by
  unfold State.talLast
  with_reducible repeat' first | assumption | apply keeps_setReg | apply keeps_ite

theorem keeps_talReport {op : ℕ} {pc : ℕ} {st : ℕ} {first : ℕ} {n : ℕ} {prior s : State} (hk : Keeps prior s) : Keeps prior (State.talReport s op pc st first n) := by
  unfold State.talReport
  with_reducible repeat' first | assumption | apply keeps_talLast | apply keeps_put | apply keeps_count | apply keeps_log | apply keeps_ite

theorem keeps_dropOp {p : Part} {id : ℕ} {prior s : State} (hk : Keeps prior s) : Keeps prior (State.dropOp s p id) := by
  unfold State.dropOp
  repeat' first
    | with_reducible assumption
    | (with_reducible refine keeps_mod ?_ ?_; rotate_left; exact BaseKeeps.of_same rfl rfl rfl rfl rfl rfl)

theorem keeps_openWindow {p : Part} {w : Window} {prior s : State} (hk : Keeps prior s) : Keeps prior (State.openWindow s p w) := by
  unfold State.openWindow
  with_reducible repeat' first | assumption | apply keeps_modSeq | apply keeps_put

theorem keeps_closeWindow {p : Part} {prior s : State} (hk : Keeps prior s) : Keeps prior (State.closeWindow s p) := by
  unfold State.closeWindow
  with_reducible repeat' first | assumption | apply keeps_modSeq | apply keeps_put

end Sys2Proof.Machine
end

