-- ==== Sys2Proof/Laws/KeepStep.lean ====
section
/-! SUPPORT. What each operation keeps (`Keeps`, `Tame`): steps, the guard, seeds, clocks, queues and manifests. One lemma for each operation; `assumption` ends every chain at the state it began with. -/

namespace Sys2Proof.Machine

theorem keeps_spmPut {a : ℕ} {w : Word} {prior s : State} (hk : Keeps prior s) : Keeps prior (State.spmPut s a w) := by
  unfold State.spmPut
  repeat' first
    | with_reducible assumption
    | (with_reducible refine keeps_modEl ?_ ?_ ?_ ?_; rotate_left; exact baseKeeps_refl _; rfl; first | exact fun _ => memory_wf_nil | exact memory_wf_filter _ _ | exact memory_wf_mwrite _ _ _)
    | with_reducible apply keeps_put
    | with_reducible apply keeps_log
    | with_reducible apply keeps_ite

theorem keeps_spmPutWords {ws : List Word} {a : Nat} {prior s : State} (hk : Keeps prior s) : Keeps prior (State.spmPutWords s a ws) := by
  induction ws generalizing s a with
  | nil => exact hk
  | cons w ws ih => exact ih (keeps_spmPut hk)

theorem keeps_emit {r : LedgerRec} {prior s : State} (hk : Keeps prior s) : Keeps prior (State.emit s r) := by
  unfold State.emit
  repeat' first
    | with_reducible assumption
    | (with_reducible refine keeps_modEl ?_ ?_ ?_ ?_; rotate_left; (first | exact baseKeeps_refl _ | exact BaseKeeps.of_same rfl rfl rfl rfl rfl rfl); rfl; exact id)
    | with_reducible apply keeps_sendUp

theorem keeps_anchorIssue {p : Part} {t : ℕ} {a : ℕ} {prior s : State} (hk : Keeps prior s) : Keeps prior (State.anchorIssue s p t a) := by
  unfold State.anchorIssue
  repeat' first
    | with_reducible assumption
    | with_reducible apply keeps_put
    | with_reducible apply keeps_modSeq
    | with_reducible apply keeps_log
    | (with_reducible refine keeps_modEl ?_ ?_ ?_ ?_; rotate_left; (first | exact baseKeeps_refl _ | exact BaseKeeps.of_same rfl rfl rfl rfl rfl rfl); rfl; exact id)
    | with_reducible apply keeps_ite
    | (extract_lets +onlyGivenNames x; refine (fun (hx : Keeps prior x) => ?_) ?_; clear_value x; rotate_left; subst x)
    | (extract_lets +onlyGivenNames x; clear_value x)
    | split

theorem keeps_claimTry {src : BitVec 20} {prior s : State} (hk : Keeps prior s) : Keeps prior (State.claimTry s src) := by
  unfold State.claimTry
  repeat' first
    | with_reducible assumption
    | (with_reducible apply hf)
    | (with_reducible refine keeps_modEl ?_ ?_ ?_ ?_; rotate_left; (first | exact baseKeeps_refl _ | exact BaseKeeps.of_same rfl rfl rfl rfl rfl rfl); rfl; exact id)
    | with_reducible apply keeps_ite
    | (extract_lets +onlyGivenNames f; refine (fun (hf : ∀ t, Keeps prior t → Keeps prior (f t)) => ?_) ?_; clear_value f; rotate_left; subst f; intro t ht)
    | (extract_lets +onlyGivenNames x; clear_value x)
    | split

theorem keeps_claimPump  {prior s : State} (hk : Keeps prior s) : Keeps prior (State.claimPump s) := by
  unfold State.claimPump
  repeat' first
    | with_reducible assumption
    | with_reducible exact keeps_refl _
    | with_reducible apply keeps_claimTry
    | (refine keeps_foldl ?_ (fun t a => ?_))

theorem keeps_claimWant {src : BitVec 20} {prior s : State} (hk : Keeps prior s) : Keeps prior (State.claimWant s src) := by
  unfold State.claimWant
  repeat' first
    | with_reducible assumption
    | (with_reducible refine keeps_modEl ?_ ?_ ?_ ?_; rotate_left; (first | exact baseKeeps_refl _ | exact BaseKeeps.of_same rfl rfl rfl rfl rfl rfl); rfl; exact id)
    | with_reducible apply keeps_claimPump
    | with_reducible apply keeps_ite

theorem keeps_landShow  {prior s : State} (hk : Keeps prior s) : Keeps prior (State.landShow s) := by
  unfold State.landShow
  with_reducible repeat' first | assumption | apply keeps_put

theorem keeps_landStale  {prior s : State} (hk : Keeps prior s) : Keeps prior (State.landStale s) := by
  unfold State.landStale
  repeat' first
    | with_reducible assumption
    | with_reducible exact keeps_refl _
    | with_reducible apply keeps_claimPump
    | (with_reducible refine keeps_modEl ?_ ?_ ?_ ?_; rotate_left; (first | exact baseKeeps_refl _ | exact BaseKeeps.of_same rfl rfl rfl rfl rfl rfl); rfl; exact id)
    | with_reducible apply keeps_claimWant
    | with_reducible apply keeps_landShow
    | with_reducible apply keeps_log
    | with_reducible apply keeps_put
    | (refine keeps_foldl ?_ (fun t a => ?_))
    | with_reducible apply keeps_ite

theorem keeps_streamsReset  {prior s : State} (hk : Keeps prior s) : Keeps prior (State.streamsReset s) := by
  unfold State.streamsReset
  repeat' first
    | with_reducible assumption
    | with_reducible exact keeps_refl _
    | with_reducible apply keeps_setReg
    | with_reducible apply keeps_put
    | (with_reducible refine keeps_modEl ?_ ?_ ?_ ?_; rotate_left; (first | exact baseKeeps_refl _ | exact BaseKeeps.of_same rfl rfl rfl rfl rfl rfl); rfl; exact id)
    | (refine keeps_foldl ?_ (fun t a => ?_))

theorem keeps_repeatWrite  {prior s : State} (hk : Keeps prior s) : Keeps prior (State.repeatWrite s) := by
  unfold State.repeatWrite
  with_reducible repeat' first | assumption | apply keeps_spmPut

theorem keeps_wdRestart {p : Part} {mask : ℕ} {prior s : State} (hk : Keeps prior s) : Keeps prior (State.wdRestart s p mask) := by
  unfold State.wdRestart
  repeat' first
    | with_reducible assumption
    | (with_reducible refine keeps_mod ?_ ?_; rotate_left; exact BaseKeeps.of_same rfl rfl rfl rfl rfl rfl)

theorem keeps_stepStart {t : ℕ} {a : ℕ} {prior s : State} (hk : Keeps prior s) : Keeps prior (State.stepStart s t a) := by
  unfold State.stepStart
  repeat' first
    | with_reducible assumption
    | with_reducible apply keeps_put
    | (with_reducible refine keeps_modEl ?_ ?_ ?_ ?_; rotate_left; (first | exact baseKeeps_refl _ | exact BaseKeeps.of_same rfl rfl rfl rfl rfl rfl); rfl; exact id)
    | with_reducible apply keeps_log
    | with_reducible apply keeps_setReg
    | with_reducible apply keeps_modSeq
    | with_reducible apply keeps_landStale
    | with_reducible apply keeps_streamsReset
    | with_reducible apply keeps_wdRestart
    | with_reducible apply keeps_emit
    | with_reducible apply keeps_repeatWrite
    | with_reducible apply keeps_slip
    | with_reducible apply keeps_closeWindow
    | with_reducible apply keeps_setSeqState
    | with_reducible apply keeps_anchorIssue
    | with_reducible apply keeps_ite
    | split

theorem keeps_stepMissed  {prior s : State} (hk : Keeps prior s) : Keeps prior (State.stepMissed s) := by
  unfold State.stepMissed
  repeat' first
    | with_reducible assumption
    | with_reducible apply keeps_log
    | (with_reducible refine keeps_modEl ?_ ?_ ?_ ?_; rotate_left; (first | exact baseKeeps_refl _ | exact BaseKeeps.of_same rfl rfl rfl rfl rfl rfl); rfl; exact id)
    | with_reducible apply keeps_ite

theorem keeps_heldRelease  {prior s : State} (hk : Keeps prior s) : Keeps prior (State.heldRelease s) := by
  unfold State.heldRelease
  repeat' first
    | with_reducible assumption
    | with_reducible exact keeps_refl _
    | with_reducible apply keeps_stepMissed
    | with_reducible apply keeps_modSeq
    | with_reducible apply keeps_log
    | with_reducible apply keeps_stepStart
    | (refine keeps_foldl ?_ (fun t a => ?_))
    | with_reducible apply keeps_ite
    | (extract_lets +onlyGivenNames x; clear_value x)
    | split

theorem keeps_stepLaunch {t : ℕ} {a : ℕ} {prior s : State} (hk : Keeps prior s) : Keeps prior (State.stepLaunch s t a) := by
  unfold State.stepLaunch
  with_reducible repeat' first | assumption | apply keeps_stepMissed | apply keeps_modSeq | apply keeps_stepStart | apply keeps_ite

theorem keeps_readyTry  {prior s : State} (hk : Keeps prior s) : Keeps prior (State.readyTry s) := by
  unfold State.readyTry
  repeat' first
    | with_reducible assumption
    | (with_reducible refine keeps_modEl ?_ ?_ ?_ ?_; rotate_left; (first | exact baseKeeps_refl _ | exact BaseKeeps.of_same rfl rfl rfl rfl rfl rfl); rfl; exact id)
    | with_reducible apply keeps_sendUp
    | with_reducible apply keeps_ite

theorem keeps_enterReady {p : Part} {prior s : State} (hk : Keeps prior s) : Keeps prior (State.enterReady s p) := by
  unfold State.enterReady
  repeat' first
    | with_reducible assumption
    | with_reducible apply keeps_setSeqState
    | with_reducible apply keeps_heldRelease
    | with_reducible apply keeps_openWindow
    | with_reducible apply keeps_readyTry
    | with_reducible apply keeps_ite
    | (extract_lets +onlyGivenNames x; refine (fun (hx : Keeps prior x) => ?_) ?_; clear_value x; rotate_left; subst x)
    | split

theorem keeps_treeStart  {prior s : State} (hk : Keeps prior s) : Keeps prior (State.treeStart s) := by
  unfold State.treeStart
  with_reducible repeat' first | assumption | apply keeps_modSeq | apply keeps_setReg | apply keeps_put | apply keeps_setSeqState | apply keeps_log | apply keeps_ite

theorem keeps_drainCheck {p : Part} {prior s : State} (hk : Keeps prior s) : Keeps prior (State.drainCheck s p) := by
  unfold State.drainCheck
  with_reducible repeat' first | assumption | apply keeps_enterReady | apply keeps_ite

theorem keeps_endFail {p : Part} {o : QOp} {st : ℕ} {prior s : State} (hk : Keeps prior s) : Keeps prior (State.endFail s p o st) := by
  unfold State.endFail
  with_reducible repeat' first | assumption | apply keeps_dropOp | apply keeps_talLast | apply keeps_qfail | apply keeps_drainCheck

theorem keeps_modDma {ch : ℕ} {f : Dma → Dma} {prior s : State} (hk : Keeps prior s) : Keeps prior (State.modDma s ch f) := by
  unfold State.modDma
  repeat' first
    | with_reducible assumption
    | (with_reducible refine keeps_modEl ?_ ?_ ?_ ?_; rotate_left; (first | exact baseKeeps_refl _ | exact BaseKeeps.of_same rfl rfl rfl rfl rfl rfl); rfl; exact id)

theorem keeps_memWrite {p : Part} {a : ℕ} {bs : List Byte} {prior s : State} (hk : Keeps prior s) : Keeps prior (State.memWrite s p a bs) := by
  unfold State.memWrite
  repeat' first
    | with_reducible assumption
    | (with_reducible refine keeps_mod ?_ ?_; rotate_left; exact ⟨rfl, ⟨rfl, rfl⟩, List.prefix_refl _, memory_wf_mwrite _ _ _, id⟩)

theorem keeps_dmaWriteBack {ch : ℕ} {st : ℕ} {cause : ℕ} {prior s : State} (hk : Keeps prior s) : Keeps prior (State.dmaWriteBack s ch st cause) := by
  unfold State.dmaWriteBack
  with_reducible repeat' first | assumption | apply keeps_memWrite | apply keeps_put | apply keeps_count | apply keeps_modDma

theorem keeps_dmaEndFail {ch : ℕ} {st : ℕ} {prior s : State} (hk : Keeps prior s) : Keeps prior (State.dmaEndFail s ch st) := by
  unfold State.dmaEndFail
  repeat' first
    | with_reducible assumption
    | with_reducible apply keeps_put
    | with_reducible apply keeps_modDma
    | with_reducible apply keeps_endFail
    | (extract_lets +onlyGivenNames x; refine (fun (hx : Keeps prior x) => ?_) ?_; clear_value x; rotate_left; subst x)
    | (extract_lets +onlyGivenNames x; clear_value x)
    | split

theorem keeps_dmaAborted {ch : ℕ} {prior s : State} (hk : Keeps prior s) : Keeps prior (State.dmaAborted s ch) := by
  unfold State.dmaAborted
  with_reducible repeat' first | assumption | apply keeps_dmaWriteBack | apply keeps_put | apply keeps_logW | apply keeps_dmaEndFail | apply keeps_ite

theorem keeps_dmaAbort {ch : ℕ} {st : ℕ} {prior s : State} (hk : Keeps prior s) : Keeps prior (State.dmaAbort s ch st) := by
  unfold State.dmaAbort
  with_reducible repeat' first | assumption | apply keeps_modDma | apply keeps_put | apply keeps_dmaAborted | apply keeps_ite

theorem keeps_toFault {p : Part} {prior s : State} (hk : Keeps prior s) : Keeps prior (State.toFault s p) := by
  unfold State.toFault
  with_reducible repeat' first | assumption | apply keeps_setSeqState | apply keeps_modSeq

theorem keeps_cancelHeld  {prior s : State} (hk : Keeps prior s) : Keeps prior (State.cancelHeld s) := by
  unfold State.cancelHeld
  repeat' first
    | with_reducible assumption
    | with_reducible exact keeps_refl _
    | with_reducible apply keeps_stepMissed
    | with_reducible apply keeps_modSeq
    | (refine keeps_foldl ?_ (fun t a => ?_))

theorem keeps_stepKill  {prior s : State} (hk : Keeps prior s) : Keeps prior (State.stepKill s) := by
  unfold State.stepKill
  repeat' first
    | with_reducible assumption
    | with_reducible exact keeps_refl _
    | with_reducible apply keeps_toFault
    | with_reducible apply keeps_modDma
    | with_reducible apply keeps_dmaAbort
    | (with_reducible refine keeps_modEl ?_ ?_ ?_ ?_; rotate_left; (first | exact baseKeeps_refl _ | exact BaseKeeps.of_same rfl rfl rfl rfl rfl rfl); rfl; exact id)
    | with_reducible apply keeps_talLast
    | with_reducible apply keeps_qfail
    | with_reducible apply keeps_put
    | with_reducible apply keeps_watchKill
    | with_reducible apply keeps_cancelHeld
    | (refine keeps_foldl ?_ (fun t a => ?_))
    | with_reducible apply keeps_ite

theorem keeps_elDomainReset {d : ℕ} {prior s : State} (hk : Keeps prior s) : Keeps prior (State.elDomainReset s d) := by
  unfold State.elDomainReset
  repeat' first
    | with_reducible assumption
    | (with_reducible refine keeps_modEl ?_ ?_ ?_ ?_; rotate_left; (first | exact baseKeeps_refl _ | exact BaseKeeps.of_same rfl rfl rfl rfl rfl rfl); rfl; exact id)
    | (with_reducible refine keeps_modEl ?_ ?_ ?_ ?_; rotate_left; exact baseKeeps_refl _; rfl; first | exact fun _ => memory_wf_nil | exact memory_wf_filter _ _ | exact memory_wf_mwrite _ _ _)
    | with_reducible apply keeps_modSeq
    | with_reducible apply keeps_cntClear
    | (extract_lets +onlyGivenNames x; refine (fun (hx : Keeps prior x) => ?_) ?_; clear_value x; rotate_left; subst x)
    | (extract_lets +onlyGivenNames x; clear_value x)
    | split

theorem keeps_pcieTrain  {prior s : State} (hk : Keeps prior s) : Keeps prior (State.pcieTrain s) := by
  unfold State.pcieTrain
  repeat' first
    | with_reducible assumption
    | with_reducible apply keeps_draw
    | (with_reducible refine keeps_modUx ?_ ?_; rotate_left; (first | exact baseKeeps_refl _ | exact BaseKeeps.of_same rfl rfl rfl rfl rfl rfl))

theorem keeps_warmReset  {prior s : State} (hk : Keeps prior s) : Keeps prior (State.warmReset s) := by
  unfold State.warmReset
  extract_lets t u
  have ht : Keeps prior t := by
    refine keeps_foldl hk (fun x a => ?_)
    exact keeps_ite (keeps_uxLaneLoss (keeps_refl _)) (keeps_refl _)
  clear_value t
  exact ht.trans ⟨baseKeeps_refl _, ⟨rfl, ⟨rfl, rfl⟩, List.prefix_refl _, fun _ => memory_wf_nil, id⟩, id, rfl, rfl, Nat.le_refl _⟩

theorem keeps_setDstate {p : Part} {d : ℕ} {v : ℕ} {prior s : State} (hk : Keeps prior s) : Keeps prior (State.setDstate s p d v) := by
  unfold State.setDstate
  with_reducible repeat' first | assumption | apply keeps_put

theorem keeps_modGuard {p : Part} {f : Guard → Guard} {prior s : State} (hk : Keeps prior s) : Keeps prior (State.modGuard s p f) := by
  unfold State.modGuard
  repeat' first
    | with_reducible assumption
    | (with_reducible refine keeps_mod ?_ ?_; rotate_left; exact BaseKeeps.of_same rfl rfl rfl rfl rfl rfl)

theorem keeps_rbRequest {p : Part} {prior s : State} (hk : Keeps prior s) : Keeps prior (State.rbRequest s p) := by
  unfold State.rbRequest
  repeat' first
    | with_reducible assumption
    | with_reducible apply keeps_modGuard
    | (with_reducible refine keeps_modEl ?_ ?_ ?_ ?_; rotate_left; (first | exact baseKeeps_refl _ | exact BaseKeeps.of_same rfl rfl rfl rfl rfl rfl); rfl; exact id)
    | with_reducible apply keeps_ite

theorem keeps_guardEnd {p : Part} {prior s : State} (hk : Keeps prior s) : Keeps prior (State.guardEnd s p) := by
  unfold State.guardEnd
  with_reducible repeat' first | assumption | apply keeps_put | apply keeps_modGuard | apply keeps_modSeq | apply keeps_rbRequest

theorem keeps_guardFail  {prior s : State} (hk : Keeps prior s) : Keeps prior (State.guardFail s) := by
  unfold State.guardFail
  with_reducible repeat' first | assumption | apply keeps_sendUp | apply keeps_log

theorem keeps_stageStart {p : Part} {n : ℕ} {prior s : State} (hk : Keeps prior s) : Keeps prior (State.stageStart s p n) := by
  unfold State.stageStart
  repeat' first
    | with_reducible assumption
    | with_reducible exact keeps_refl _
    | with_reducible apply keeps_put
    | with_reducible apply keeps_modGuard
    | with_reducible apply keeps_log
    | with_reducible apply keeps_watchKill
    | with_reducible apply keeps_elDomainReset
    | with_reducible apply keeps_setDstate
    | (with_reducible refine keeps_mod ?_ ?_; rotate_left; exact BaseKeeps.of_same rfl rfl rfl rfl rfl rfl)
    | (with_reducible refine keeps_modUx ?_ ?_; rotate_left; (first | exact baseKeeps_refl _ | exact BaseKeeps.of_same rfl rfl rfl rfl rfl rfl))
    | with_reducible apply keeps_warmReset
    | (refine keeps_foldl ?_ (fun t a => ?_))
    | with_reducible apply keeps_ite
    | (extract_lets +onlyGivenNames x; refine (fun (hx : Keeps prior x) => ?_) ?_; clear_value x; rotate_left; subst x)
    | (extract_lets +onlyGivenNames x; clear_value x)
    | split

theorem keeps_guardProceed {p : Part} {prior s : State} (hk : Keeps prior s) : Keeps prior (State.guardProceed s p) := by
  unfold State.guardProceed
  repeat' first
    | with_reducible assumption
    | with_reducible apply keeps_modGuard
    | with_reducible apply keeps_stepKill
    | with_reducible apply keeps_guardEnd
    | with_reducible apply keeps_stageStart
    | with_reducible apply keeps_ite
    | split

theorem keeps_guardTrigger {p : Part} {code : ℕ} {unit : ℕ} {first : ℕ} {ran : Bool} {prior s : State} (hk : Keeps prior s) : Keeps prior (State.guardTrigger s p code unit first ran) := by
  unfold State.guardTrigger
  repeat' first
    | with_reducible assumption
    | with_reducible apply keeps_count
    | with_reducible apply keeps_modGuard
    | with_reducible apply keeps_stageStart
    | with_reducible apply keeps_put
    | with_reducible apply keeps_modSeq
    | with_reducible apply keeps_guardFail
    | with_reducible apply keeps_log
    | with_reducible apply keeps_guardProceed
    | with_reducible apply keeps_draws
    | with_reducible apply keeps_ite
    | (extract_lets +onlyGivenNames x; refine (fun (hx : Keeps prior x) => ?_) ?_; clear_value x; rotate_left; subst x)
    | split

theorem keeps_programFault {p : Part} {prior s : State} (hk : Keeps prior s) : Keeps prior (State.programFault s p) := by
  unfold State.programFault
  with_reducible repeat' first | assumption | apply keeps_toFault | apply keeps_guardTrigger | apply keeps_ite

theorem keeps_spmPersist {port : ℕ} {a : ℕ} {obj : ℕ} {prior s : State} (hk : Keeps prior s) : Keeps prior (State.spmPersist s port a obj) := by
  unfold State.spmPersist
  with_reducible repeat' first | assumption | apply keeps_put | apply keeps_log | apply keeps_guardTrigger

theorem keeps_spmRead {port : ℕ} {a : ℕ} {obj : ℕ} {prior s : State} (hk : Keeps prior s) : Keeps prior (State.spmRead s port a obj).2 := by
  unfold State.spmRead
  repeat' first
    | with_reducible assumption
    | with_reducible apply keeps_spmPersist
    | split

theorem keeps_spmReplay {port : ℕ} {a : ℕ} {obj : ℕ} {prior s : State} (hk : Keeps prior s) : Keeps prior (State.spmReplay s port a obj) := by
  unfold State.spmReplay
  repeat' first
    | with_reducible assumption
    | with_reducible apply keeps_count
    | with_reducible apply keeps_put
    | with_reducible apply keeps_log
    | (with_reducible refine keeps_modEl ?_ ?_ ?_ ?_; rotate_left; (first | exact baseKeeps_refl _ | exact BaseKeeps.of_same rfl rfl rfl rfl rfl rfl); rfl; exact id)

theorem keeps_spmReadBytes {port : ℕ} {a : ℕ} {n : ℕ} {obj : ℕ} {prior s : State} (hk : Keeps prior s) : Keeps prior (State.spmReadBytes s port a n obj).2 := by
  unfold State.spmReadBytes
  repeat' first
    | with_reducible assumption
    | with_reducible exact keeps_refl _
    | with_reducible apply keeps_spmPersist
    | (refine keeps_foldl ?_ (fun t a => ?_))

theorem keeps_spmPutBytes {port : ℕ} {a : ℕ} {bs : List Byte} {obj : ℕ} {prior s : State} (hk : Keeps prior s) : Keeps prior (State.spmPutBytes s port a bs obj) := by
  unfold State.spmPutBytes
  repeat' first
    | with_reducible assumption
    | with_reducible exact keeps_refl _
    | with_reducible apply keeps_spmPersist
    | with_reducible apply keeps_spmPut
    | (refine keeps_foldl ?_ (fun t a => ?_))
    | with_reducible apply keeps_ite

theorem keeps_runKeyCommit {changed : Bool} {prior s : State} (hk : Keeps prior s) : Keeps prior (State.runKeyCommit s changed) := by
  unfold State.runKeyCommit
  with_reducible repeat' first | assumption | apply keeps_put | apply keeps_log | apply keeps_ite

theorem keeps_permStretch {n : ℕ} {k : ℕ} {prior s : State} (hk : Keeps prior s) : Keeps prior (State.permStretch s n k) := by
  unfold State.permStretch
  with_reducible repeat' first | assumption | apply keeps_draw | apply keeps_slip | apply keeps_count

theorem keeps_setStream {n : ℕ} {cursor : Word} {pos : ℕ} {prior s : State} (hk : Keeps prior s) : Keeps prior (State.setStream s n cursor pos) := by
  unfold State.setStream
  repeat' first
    | with_reducible assumption
    | with_reducible apply keeps_setReg
    | with_reducible apply keeps_put
    | (with_reducible refine keeps_modEl ?_ ?_ ?_ ?_; rotate_left; (first | exact baseKeeps_refl _ | exact BaseKeeps.of_same rfl rfl rfl rfl rfl rfl); rfl; exact id)

theorem keeps_modPll {p : Part} {f : Pll → Pll} {prior s : State} (hk : Keeps prior s) : Keeps prior (State.modPll s p f) := by
  unfold State.modPll
  repeat' first
    | with_reducible assumption
    | (with_reducible refine keeps_mod ?_ ?_; rotate_left; exact BaseKeeps.of_same rfl rfl rfl rfl rfl rfl)

theorem keeps_fmulFollow  {prior s : State} (hk : Keeps prior s) : Keeps prior (State.fmulFollow s) := by
  unfold State.fmulFollow
  with_reducible repeat' first | assumption | apply keeps_put | apply keeps_modPll | apply keeps_ite

theorem keeps_probAct {action : ℕ} {prior s : State} (hk : Keeps prior s) : Keeps prior (State.probAct s action) := by
  unfold State.probAct
  with_reducible repeat' first | assumption | apply keeps_put | apply keeps_fmulFollow | apply keeps_ite

theorem keeps_probEnd  {prior s : State} (hk : Keeps prior s) : Keeps prior (State.probEnd s) := by
  unfold State.probEnd
  with_reducible repeat' first | assumption | apply keeps_put | apply keeps_fmulFollow

theorem keeps_probPermanent  {prior s : State} (hk : Keeps prior s) : Keeps prior (State.probPermanent s) := by
  unfold State.probPermanent
  with_reducible repeat' first | assumption | apply keeps_draw | apply keeps_probAct

theorem keeps_fordSet {p : Part} {a : ℕ} {b : ℕ} {n : ℕ} {prior s : State} (hk : Keeps prior s) : Keeps prior (State.fordSet s p a b n) := by
  unfold State.fordSet
  repeat' first
    | with_reducible assumption
    | with_reducible apply keeps_draw
    | (with_reducible refine keeps_mod ?_ ?_; rotate_left; exact BaseKeeps.of_same rfl rfl rfl rfl rfl rfl)

theorem keeps_fordsStretch {p : Part} {r : ℕ} {prior s : State} (hk : Keeps prior s) : Keeps prior (State.fordsStretch s p r) := by
  unfold State.fordsStretch
  repeat' first
    | with_reducible assumption
    | with_reducible exact keeps_refl _
    | with_reducible apply keeps_fordSet
    | (refine keeps_foldl ?_ (fun t a => ?_))

theorem keeps_align {p : Part} {rs : ℕ → Bool} {prior s : State} (hk : Keeps prior s) : Keeps prior (State.align s p rs) := by
  unfold State.align
  repeat' first
    | with_reducible assumption
    | (with_reducible refine keeps_mod ?_ ?_; rotate_left; exact BaseKeeps.of_same rfl rfl rfl rfl rfl rfl)

theorem keeps_alignDomain {p : Part} {d : ℕ} {prior s : State} (hk : Keeps prior s) : Keeps prior (State.alignDomain s p d) := by
  unfold State.alignDomain
  repeat' first
    | with_reducible assumption
    | with_reducible apply keeps_align
    | split

theorem keeps_pairTry {pr : Pair} {prior s : State} (hk : Keeps prior s) : Keeps prior (State.pairTry s pr).1 := by
  unfold State.pairTry
  repeat' first
    | with_reducible assumption
    | with_reducible apply keeps_put
    | with_reducible apply keeps_logI
    | with_reducible apply keeps_log
    | (extract_lets +onlyGivenNames x; clear_value x)
    | split

theorem keeps_pairCheck {keys : List ℕ} {prior s : State} (hk : Keeps prior s) : Keeps prior (State.pairCheck s keys).1 := by
  unfold State.pairCheck
  refine keeps_foldl_fst hk (fun x a => ?_)
  exact keeps_pairTry (keeps_refl _)

theorem keeps_incRaw {incs : List (ℕ × ℕ)} {prior s : State} (hk : Keeps prior s) : Keeps prior (State.incRaw s incs).1 := by
  unfold State.incRaw
  repeat' first
    | with_reducible assumption
    | with_reducible exact keeps_refl _
    | with_reducible apply keeps_cntAdd
    | with_reducible apply keeps_pairCheck
    | with_reducible apply keeps_watchScan
    | (refine keeps_foldl ?_ (fun t a => ?_))

theorem keeps_incAll {incs : List (ℕ × ℕ)} {prior s : State} (hk : Keeps prior s) : Keeps prior (State.incAll s incs) := by
  unfold State.incAll
  with_reducible repeat' first | assumption | apply keeps_incRaw | apply keeps_programFault | apply keeps_ite

theorem keeps_incPart {p : Part} {incs : List (ℕ × ℕ)} {prior s : State} (hk : Keeps prior s) : Keeps prior (State.incPart s p incs) := by
  unfold State.incPart
  repeat' first
    | with_reducible assumption
    | with_reducible exact keeps_refl _
    | with_reducible apply keeps_incAll
    | with_reducible apply keeps_tcAdd
    | (refine keeps_foldl ?_ (fun t a => ?_))
    | split

theorem keeps_endOp {o : QOp} {st : ℕ} {prior s : State} (hk : Keeps prior s) : Keeps prior (State.endOp s o st) := by
  unfold State.endOp
  with_reducible repeat' first | assumption | apply keeps_dropOp | apply keeps_incPart | apply keeps_drainCheck | apply keeps_endFail | apply keeps_ite

theorem keeps_endAll {p : Part} {os : List QOp} {prior s : State} (hk : Keeps prior s) : Keeps prior (State.endAll s p os) := by
  unfold State.endAll
  repeat' first
    | with_reducible assumption
    | with_reducible exact keeps_refl _
    | with_reducible apply keeps_dropOp
    | with_reducible apply keeps_incPart
    | with_reducible apply keeps_drainCheck
    | (refine keeps_foldl ?_ (fun t a => ?_))

theorem keeps_checkFail {pc : ℕ} {prior s : State} (hk : Keeps prior s) : Keeps prior (State.checkFail s pc) := by
  unfold State.checkFail
  with_reducible repeat' first | assumption | apply keeps_put | apply keeps_setReg | apply keeps_sendUp | apply keeps_log | apply keeps_ite

theorem keeps_suspOpen {pc : ℕ} {op : ℕ} {va : Word} {vb : Word} {prior s : State} (hk : Keeps prior s) : Keeps prior (State.suspOpen s pc op va vb) := by
  unfold State.suspOpen
  repeat' first
    | with_reducible assumption
    | with_reducible apply keeps_put
    | with_reducible apply keeps_setReg
    | split

theorem keeps_suspTransient {i : ℕ} {pc : ℕ} {prior s : State} (hk : Keeps prior s) : Keeps prior (State.suspTransient s i pc) := by
  unfold State.suspTransient
  repeat' first
    | with_reducible assumption
    | with_reducible apply keeps_put
    | with_reducible apply keeps_log
    | (with_reducible refine keeps_modEl ?_ ?_ ?_ ?_; rotate_left; (first | exact baseKeeps_refl _ | exact BaseKeeps.of_same rfl rfl rfl rfl rfl rfl); rfl; exact id)

theorem keeps_suspPermanent {i : ℕ} {pc : ℕ} {prior s : State} (hk : Keeps prior s) : Keeps prior (State.suspPermanent s i pc) := by
  unfold State.suspPermanent
  repeat' first
    | with_reducible assumption
    | with_reducible apply keeps_put
    | with_reducible apply keeps_log
    | (with_reducible refine keeps_modEl ?_ ?_ ?_ ?_; rotate_left; (first | exact baseKeeps_refl _ | exact BaseKeeps.of_same rfl rfl rfl rfl rfl rfl); rfl; exact id)
    | with_reducible apply keeps_probPermanent

theorem keeps_suspOk {pc : ℕ} {op : ℕ} {prior s : State} (hk : Keeps prior s) : Keeps prior (State.suspOk s pc op) := by
  unfold State.suspOk
  repeat' first
    | with_reducible assumption
    | with_reducible apply keeps_suspTransient
    | split

theorem keeps_suspMismatch {pc : ℕ} {op : ℕ} {va : Word} {vb : Word} {prior s : State} (hk : Keeps prior s) : Keeps prior (State.suspMismatch s pc op va vb) := by
  unfold State.suspMismatch
  repeat' first
    | with_reducible assumption
    | with_reducible apply keeps_suspPermanent
    | with_reducible apply keeps_suspTransient
    | with_reducible apply keeps_suspOpen
    | with_reducible apply keeps_ite
    | split

theorem keeps_suspCloseAll  {prior s : State} (hk : Keeps prior s) : Keeps prior (State.suspCloseAll s) := by
  unfold State.suspCloseAll
  repeat' first
    | with_reducible assumption
    | with_reducible exact keeps_refl _
    | with_reducible apply keeps_put
    | (refine keeps_foldl ?_ (fun t a => ?_))

theorem keeps_bcvFails {pc : ℕ} {fails : List (ℕ × ℕ)} {prior s : State} (hk : Keeps prior s) : Keeps prior (State.bcvFails s pc fails) := by
  unfold State.bcvFails
  repeat' first
    | with_reducible assumption
    | with_reducible apply keeps_count
    | with_reducible apply keeps_put
    | with_reducible apply keeps_log
    | with_reducible apply keeps_checkFail
    | split

theorem keeps_stageRefuse {p : Part} {off : ℕ} {prior s : State} (hk : Keeps prior s) : Keeps prior (State.stageRefuse s p off) := by
  unfold State.stageRefuse
  with_reducible repeat' first | assumption | apply keeps_log

theorem keeps_stage {p : Part} {off : ℕ} {v : Word} {prior s : State} (hk : Keeps prior s) : Keeps prior (State.stage s p off v).1 := by
  unfold State.stage
  repeat' first
    | with_reducible assumption
    | with_reducible apply keeps_stageRefuse
    | with_reducible apply keeps_log
    | (with_reducible refine keeps_mod ?_ ?_; rotate_left; exact BaseKeeps.of_same rfl rfl rfl rfl rfl rfl)
    | with_reducible apply keeps_put
    | (extract_lets +onlyGivenNames x; clear_value x)
    | split

theorem keeps_manArm {p : Part} {t : ℕ} {prior s : State} (hk : Keeps prior s) : Keeps prior (State.manArm s p t).1 := by
  unfold State.manArm
  repeat' first
    | with_reducible assumption
    | with_reducible apply keeps_stageRefuse
    | with_reducible apply keeps_put
    | (with_reducible refine keeps_mod ?_ ?_; rotate_left; exact BaseKeeps.of_same rfl rfl rfl rfl rfl rfl)
    | split

theorem keeps_manNow {p : Part} {prior s : State} (hk : Keeps prior s) : Keeps prior (State.manNow s p) := by
  unfold State.manNow
  repeat' first
    | with_reducible assumption
    | with_reducible apply keeps_stageRefuse
    | with_reducible apply keeps_put
    | (with_reducible refine keeps_mod ?_ ?_; rotate_left; exact BaseKeeps.of_same rfl rfl rfl rfl rfl rfl)
    | with_reducible apply keeps_ite

theorem keeps_manDisarm {p : Part} {prior s : State} (hk : Keeps prior s) : Keeps prior (State.manDisarm s p) := by
  unfold State.manDisarm
  repeat' first
    | with_reducible assumption
    | with_reducible apply keeps_put
    | (with_reducible refine keeps_mod ?_ ?_; rotate_left; exact BaseKeeps.of_same rfl rfl rfl rfl rfl rfl)
    | with_reducible apply keeps_ite

theorem keeps_manDiscard {p : Part} {prior s : State} (hk : Keeps prior s) : Keeps prior (State.manDiscard s p) := by
  unfold State.manDiscard
  repeat' first
    | with_reducible assumption
    | with_reducible apply keeps_stageRefuse
    | (with_reducible refine keeps_mod ?_ ?_; rotate_left; exact BaseKeeps.of_same rfl rfl rfl rfl rfl rfl)
    | with_reducible apply keeps_put
    | with_reducible apply keeps_ite

theorem keeps_clearPoint  {prior s : State} (hk : Keeps prior s) : Keeps prior (State.clearPoint s) := by
  unfold State.clearPoint
  repeat' first
    | with_reducible assumption
    | with_reducible apply keeps_cntClear
    | (with_reducible refine keeps_modEl ?_ ?_ ?_ ?_; rotate_left; (first | exact baseKeeps_refl _ | exact BaseKeeps.of_same rfl rfl rfl rfl rfl rfl); rfl; exact id)
    | with_reducible apply keeps_setReg

theorem keeps_nextCommit  {prior s : State} (hk : Keeps prior s) : Keeps prior (State.nextCommit s) := by
  unfold State.nextCommit
  with_reducible repeat' first | assumption | apply keeps_clearPoint | apply keeps_put | apply keeps_setReg

theorem keeps_epochCommit {was : State} {prior s : State} (hk : Keeps prior s) : Keeps prior (State.epochCommit s was) := by
  unfold State.epochCommit
  repeat' first
    | with_reducible assumption
    | with_reducible apply keeps_setReg
    | with_reducible apply keeps_tbStepRefused
    | (with_reducible refine keeps_modEl ?_ ?_ ?_ ?_; rotate_left; (first | exact baseKeeps_refl _ | exact BaseKeeps.of_same rfl rfl rfl rfl rfl rfl); rfl; exact id)
    | with_reducible apply keeps_logI
    | with_reducible apply keeps_ite

theorem keeps_keyCommit {p : Part} {old : ℕ} {prior s : State} (hk : Keeps prior s) : Keeps prior (State.keyCommit s p old) := by
  unfold State.keyCommit
  repeat' first
    | with_reducible assumption
    | (with_reducible refine keeps_mod ?_ ?_; rotate_left; exact BaseKeeps.of_same rfl rfl rfl rfl rfl rfl)

theorem keeps_planePlan  {prior s : State} (hk : Keeps prior s) : Keeps prior (State.planePlan s) := by
  unfold State.planePlan
  repeat' first
    | with_reducible assumption
    | with_reducible apply keeps_failover
    | with_reducible apply keeps_ite
    | (extract_lets +onlyGivenNames x; clear_value x)
    | split

theorem keeps_retWrite  {prior s : State} (hk : Keeps prior s) : Keeps prior (State.retWrite s) := by
  unfold State.retWrite
  with_reducible repeat' first | assumption | apply keeps_put

theorem keeps_sealNextCommit  {prior s : State} (hk : Keeps prior s) : Keeps prior (State.sealNextCommit s) := by
  unfold State.sealNextCommit
  repeat' first
    | with_reducible assumption
    | with_reducible apply keeps_setReg
    | (with_reducible refine keeps_modUx ?_ ?_; rotate_left; (first | exact baseKeeps_refl _ | exact BaseKeeps.of_same rfl rfl rfl rfl rfl rfl))
    | with_reducible apply keeps_ite

theorem keeps_commitEffects {p : Part} {offs : List ℕ} {was : State} {prior s : State} (hk : Keeps prior s) : Keeps prior (State.commitEffects s p offs was) := by
  unfold State.commitEffects
  repeat' first
    | with_reducible assumption
    | (with_reducible refine keeps_modEl ?_ ?_ ?_ ?_; rotate_left; (first | exact baseKeeps_refl _ | exact BaseKeeps.of_same rfl rfl rfl rfl rfl rfl); rfl; exact id)
    | with_reducible apply keeps_epochCommit
    | with_reducible apply keeps_nextCommit
    | with_reducible apply keeps_runKeyCommit
    | with_reducible apply keeps_suspCloseAll
    | with_reducible apply keeps_keyCommit
    | with_reducible apply keeps_planePlan
    | with_reducible apply keeps_sealNextCommit
    | with_reducible apply keeps_retWrite
    | with_reducible apply keeps_lockClear
    | with_reducible apply keeps_log
    | with_reducible apply keeps_refResolve
    | with_reducible apply keeps_treeStart
    | with_reducible apply keeps_ite
    | (extract_lets +onlyGivenNames x; refine (fun (hx : Keeps prior x) => ?_) ?_; clear_value x; rotate_left; subst x)
    | (extract_lets +onlyGivenNames x; clear_value x)
    | split

theorem keeps_commitAll {p : Part} {prior s : State} (hk : Keeps prior s) : Keeps prior (State.commitAll s p) := by
  unfold State.commitAll
  repeat' first
    | with_reducible assumption
    | with_reducible exact keeps_refl _
    | with_reducible apply keeps_setReg
    | (with_reducible refine keeps_mod ?_ ?_; rotate_left; exact BaseKeeps.of_same rfl rfl rfl rfl rfl rfl)
    | with_reducible apply keeps_put
    | with_reducible apply keeps_commitEffects
    | with_reducible apply keeps_log
    | (refine keeps_foldl ?_ (fun t a => ?_))

theorem keeps_commitFail {p : Part} {code : ℕ} {prior s : State} (hk : Keeps prior s) : Keeps prior (State.commitFail s p code) := by
  unfold State.commitFail
  with_reducible repeat' first | assumption | apply keeps_manDisarm | apply keeps_log

theorem keeps_commitNow {p : Part} {prior s : State} (hk : Keeps prior s) : Keeps prior (State.commitNow s p) := by
  unfold State.commitNow
  repeat' first
    | with_reducible assumption
    | with_reducible apply keeps_commitAll
    | with_reducible apply keeps_commitFail
    | split

end Sys2Proof.Machine
end

