-- ==== Sys2Proof/Laws/KeepIssue.lean ====
section
/-! SUPPORT. What each operation keeps (`Keeps`, `Tame`): the commands of the time bases, the issue of a bundle, clocks and the reduction unit. One lemma for each operation; `assumption` ends every chain at the state it began with. -/

namespace Sys2Proof.Machine

theorem tame_tb3Step {p : Part} {prior s : State} (hk : Keeps prior s) : Tame prior (execTb3Step p s) := by
  unfold execTb3Step
  with_reducible repeat' first | assumption | apply tame_next | apply keeps_tbStep | apply keeps_tbStepRefused | apply tame_ite

theorem tame_tb3LockDecl {p : Part} {prior s : State} (hk : Keeps prior s) : Tame prior (execTb3LockDecl p s) := by
  unfold execTb3LockDecl
  with_reducible repeat' first | assumption | apply tame_next | apply keeps_tbLock | apply keeps_ite

theorem tame_tb3RateWrite {p : Part} {v : Word} {prior s : State} (hk : Keeps prior s) : Tame prior (execTb3RateWrite p v s) := by
  unfold execTb3RateWrite
  with_reducible repeat' first | assumption | apply tame_next | apply keeps_logI | apply keeps_tbSetRate | apply keeps_put | apply keeps_ite | apply tame_ite

theorem tame_tbLockDwell {p : Part} {n : Fin 4} {prior s : State} (hk : Keeps prior s) : Tame prior (execTbLockDwell p n s) := by
  unfold execTbLockDwell
  with_reducible repeat' first | assumption | apply tame_next | apply keeps_rootSettle | apply keeps_tbEnterLocked | apply keeps_ite | apply tame_ite

theorem tame_tbSourceTimeout {p : Part} {n : Fin 4} {prior s : State} (hk : Keeps prior s) : Tame prior (execTbSourceTimeout p n s) := by
  unfold execTbSourceTimeout
  with_reducible repeat' first | assumption | apply tame_next | apply keeps_tbHoldover | apply keeps_ite

theorem tame_refclkLoss  {prior s : State} (hk : Keeps prior s) : Tame prior (execRefclkLoss s) := by
  unfold execRefclkLoss
  repeat' first
    | with_reducible assumption
    | with_reducible exact keeps_refl _
    | with_reducible apply tame_next
    | (with_reducible refine keeps_modEl ?_ ?_ ?_ ?_; rotate_left; (first | exact baseKeeps_refl _ | exact BaseKeeps.of_same rfl rfl rfl rfl rfl rfl); rfl; exact id)
    | with_reducible apply keeps_put
    | with_reducible apply keeps_bothFail
    | with_reducible apply keeps_tbHoldover
    | with_reducible apply keeps_log
    | (refine keeps_foldl ?_ (fun t a => ?_))
    | with_reducible apply keeps_ite

theorem keeps_pulseArm {p : Part} {i : ℕ} {prior s : State} (hk : Keeps prior s) : Keeps prior (State.pulseArm s p i).1 := by
  unfold State.pulseArm
  repeat' first
    | with_reducible assumption
    | with_reducible apply keeps_log
    | with_reducible apply keeps_put
    | (with_reducible refine keeps_mod ?_ ?_; rotate_left; exact BaseKeeps.of_same rfl rfl rfl rfl rfl rfl)
    | (extract_lets +onlyGivenNames x; refine (fun (hx : Keeps prior x) => ?_) ?_; clear_value x; rotate_left; subst x)
    | (extract_lets +onlyGivenNames x; clear_value x)
    | split

theorem tame_pulseArm {p : Part} {i : Fin 8} {prior s : State} (hk : Keeps prior s) : Tame prior (execPulseArm p i s) := by
  unfold execPulseArm
  with_reducible repeat' first | assumption | apply tame_next | apply keeps_pulseArm | apply keeps_ite

theorem tame_pulseDisarm {p : Part} {i : Fin 8} {prior s : State} (hk : Keeps prior s) : Tame prior (execPulseDisarm p i s) := by
  unfold execPulseDisarm
  with_reducible repeat' first | assumption | apply tame_next | apply keeps_put | apply keeps_ite

theorem tame_pulseEdge {p : Part} {i : Fin 8} {prior s : State} (hk : Keeps prior s) : Tame prior (execPulseEdge p i s) := by
  unfold execPulseEdge
  repeat' first
    | with_reducible assumption
    | with_reducible apply tame_next
    | (with_reducible refine keeps_mod ?_ ?_; rotate_left; exact BaseKeeps.of_same rfl rfl rfl rfl rfl rfl)
    | with_reducible apply keeps_put
    | with_reducible apply keeps_ite
    | with_reducible apply tame_ite

theorem tame_capEdge {p : Part} {c : Fin 4} {rising : Bool} {sub : BitVec 16} {prior s : State} (hk : Keeps prior s) : Tame prior (execCapEdge p c rising sub s) := by
  unfold execCapEdge
  repeat' first
    | with_reducible assumption
    | with_reducible apply tame_next
    | (with_reducible refine keeps_mod ?_ ?_; rotate_left; exact BaseKeeps.of_same rfl rfl rfl rfl rfl rfl)
    | with_reducible apply keeps_put
    | with_reducible apply keeps_log
    | with_reducible apply tame_ite

theorem keeps_capPop {p : Part} {c : ℕ} {prior s : State} (hk : Keeps prior s) : Keeps prior (State.capPop s p c).2 := by
  unfold State.capPop
  repeat' first
    | with_reducible assumption
    | (with_reducible refine keeps_mod ?_ ?_; rotate_left; exact BaseKeeps.of_same rfl rfl rfl rfl rfl rfl)
    | (extract_lets +onlyGivenNames x; clear_value x)
    | split

theorem tame_capPop {p : Part} {c : Fin 4} {prior s : State} (hk : Keeps prior s) : Tame prior (execCapPop p c s) := by
  unfold execCapPop
  with_reducible repeat' first | assumption | apply tame_next | apply keeps_capPop | apply keeps_answer

theorem keeps_frcRead {p : Part} {prior s : State} (hk : Keeps prior s) : Keeps prior (State.frcRead s p).2 := by
  unfold State.frcRead
  with_reducible repeat' first | assumption | apply keeps_put

theorem tame_frcRead {p : Part} {prior s : State} (hk : Keeps prior s) : Tame prior (execFrcRead p s) := by
  unfold execFrcRead
  with_reducible repeat' first | assumption | apply tame_next | apply keeps_frcRead | apply keeps_answer

theorem keeps_tbReadSec {p : Part} {n : ℕ} {prior s : State} (hk : Keeps prior s) : Keeps prior (State.tbReadSec s p n).2 := by
  unfold State.tbReadSec
  repeat' first
    | with_reducible assumption
    | with_reducible apply keeps_setReg
    | (extract_lets +onlyGivenNames x; clear_value x)
    | split

theorem tame_tbRead {p : Part} {n : Fin 4} {prior s : State} (hk : Keeps prior s) : Tame prior (execTbRead p n s) := by
  unfold execTbRead
  with_reducible repeat' first | assumption | apply tame_next | apply keeps_tbReadSec | apply keeps_answer

theorem keeps_dumpRead {p : Part} {prior s : State} (hk : Keeps prior s) : Keeps prior (State.dumpRead s p).2 := by
  unfold State.dumpRead
  with_reducible repeat' first | assumption | apply keeps_put

theorem tame_dumpDataRead {p : Part} {prior s : State} (hk : Keeps prior s) : Tame prior (execDumpDataRead p s) := by
  unfold execDumpDataRead
  with_reducible repeat' first | assumption | apply tame_next | apply keeps_dumpRead | apply keeps_answer

theorem keeps_wlost {addr : ℕ} {prior s : State} (hk : Keeps prior s) : Keeps prior (State.wlost s addr) := by
  unfold State.wlost
  repeat' first
    | with_reducible assumption
    | with_reducible apply keeps_count
    | with_reducible apply keeps_put
    | with_reducible apply keeps_log
    | (with_reducible refine keeps_modEl ?_ ?_ ?_ ?_; rotate_left; (first | exact baseKeeps_refl _ | exact BaseKeeps.of_same rfl rfl rfl rfl rfl rfl); rfl; exact id)
    | with_reducible apply keeps_ite

theorem keeps_spmWrites {acts : List Act} {prior s : State} (hk : Keeps prior s) : Keeps prior (State.spmWrites s acts) := by
  unfold State.spmWrites
  repeat' first
    | with_reducible assumption
    | with_reducible exact keeps_refl _
    | with_reducible apply keeps_spmPut
    | with_reducible apply keeps_wlost
    | (refine keeps_foldl ?_ (fun t a => ?_))
    | split

theorem keeps_larm {lid : ℕ} {gmask : ℕ} {prior s : State} (hk : Keeps prior s) : Keeps prior (State.larm s lid gmask) := by
  unfold State.larm
  with_reducible repeat' first | assumption | apply keeps_setReg

theorem keeps_parm {i : ℕ} {tb : ℕ} {t : ℕ} {prior s : State} (hk : Keeps prior s) : Keeps prior (State.parm s i tb t).1 := by
  unfold State.parm
  repeat' first
    | with_reducible assumption
    | with_reducible apply keeps_log
    | with_reducible apply keeps_setReg
    | with_reducible apply keeps_put
    | with_reducible apply keeps_pulseArm
    | split

theorem keeps_quiet {p : Part} {mask : ℕ} {n : ℕ} {prior s : State} (hk : Keeps prior s) : Keeps prior (State.quiet s p mask n) := by
  unfold State.quiet
  with_reducible repeat' first | assumption | apply keeps_closeWindow | apply keeps_openWindow | apply keeps_ite

theorem keeps_enqueue {p : Part} {q : QueueId} {kind : QKind} {core : ℕ} {k : ℕ} {amt : ℕ} {entries : ℕ} {prior s : State} (hk : Keeps prior s) : Keeps prior (State.enqueue s p q kind core k amt entries) := by
  unfold State.enqueue
  repeat' first
    | with_reducible assumption
    | (with_reducible refine keeps_mod ?_ ?_; rotate_left; exact BaseKeeps.of_same rfl rfl rfl rfl rfl rfl)
    | with_reducible apply keeps_talLast
    | with_reducible apply keeps_qfail
    | with_reducible apply keeps_ite

theorem keeps_refuse {p : Part} {q : QueueId} {op : ℕ} {prior s : State} (hk : Keeps prior s) : Keeps prior (State.refuse s p q op) := by
  unfold State.refuse
  with_reducible repeat' first | assumption | apply keeps_talReport | apply keeps_qfail | apply keeps_talLast | apply keeps_ite

theorem keeps_seedLog {n : ℕ} {code : ℕ} {prior s : State} (hk : Keeps prior s) : Keeps prior (State.seedLog s n code) := by
  unfold State.seedLog
  repeat' first
    | with_reducible assumption
    | with_reducible apply keeps_put
    | with_reducible apply keeps_log
    | (with_reducible refine keeps_modEl ?_ ?_ ?_ ?_; rotate_left; (first | exact baseKeeps_refl _ | exact BaseKeeps.of_same rfl rfl rfl rfl rfl rfl); rfl; exact id)
    | with_reducible apply keeps_ite

theorem keeps_applyAct {p : Part} {a : Act} {prior s : State} (hk : Keeps prior s) : Keeps prior (State.applyAct s p a) := by
  unfold State.applyAct
  repeat' first
    | with_reducible assumption
    | with_reducible apply keeps_setGreg
    | with_reducible apply keeps_setFlag
    | with_reducible apply keeps_quiet
    | with_reducible apply keeps_parm
    | with_reducible apply keeps_larm
    | with_reducible apply keeps_enqueue
    | with_reducible apply keeps_refuse
    | (with_reducible refine keeps_modEl ?_ ?_ ?_ ?_; rotate_left; (first | exact baseKeeps_refl _ | exact BaseKeeps.of_same rfl rfl rfl rfl rfl rfl); rfl; exact id)
    | with_reducible apply keeps_permStretch
    | with_reducible apply keeps_setStream
    | with_reducible apply keeps_put
    | with_reducible apply keeps_seedLog
    | with_reducible apply keeps_log
    | with_reducible apply keeps_stage
    | with_reducible apply keeps_manArm
    | with_reducible apply keeps_wdRestart
    | with_reducible apply keeps_dmaAbort
    | split

theorem keeps_applyWatch {a : Act} {prior s : State} (hk : Keeps prior s) : Keeps prior (State.applyWatch s a) := by
  unfold State.applyWatch
  repeat' first
    | with_reducible assumption
    | with_reducible apply keeps_watchReg
    | with_reducible apply keeps_watchClear
    | split

theorem keeps_applyLoad {a : Act} {prior s : State} (hk : Keeps prior s) : Keeps prior (State.applyLoad s a) := by
  unfold State.applyLoad
  repeat' first
    | with_reducible assumption
    | with_reducible apply keeps_slip
    | with_reducible apply keeps_spmPersist
    | with_reducible apply keeps_spmReplay
    | with_reducible apply keeps_ite
    | split

theorem keeps_logFault {p : Part} {a : Act} {prior s : State} (hk : Keeps prior s) : Keeps prior (State.logFault s p a) := by
  unfold State.logFault
  repeat' first
    | with_reducible assumption
    | with_reducible apply keeps_log
    | split

theorem keeps_bundleFlow {p : Part} {acts : List Act} {pairFault : Bool} {prior s : State} (hk : Keeps prior s) : Keeps prior (State.bundleFlow s p acts pairFault) := by
  unfold State.bundleFlow
  repeat' first
    | with_reducible assumption
    | with_reducible exact keeps_refl _
    | with_reducible apply keeps_logFault
    | with_reducible apply keeps_log
    | with_reducible apply keeps_put
    | with_reducible apply keeps_programFault
    | with_reducible apply keeps_setSeqState
    | with_reducible apply keeps_drainCheck
    | (refine keeps_foldl ?_ (fun t a => ?_))
    | with_reducible apply keeps_ite

theorem keeps_applyBundle {p : Part} {acts : List Act} {prior s : State} (hk : Keeps prior s) : Keeps prior (State.applyBundle s p acts) := by
  unfold State.applyBundle
  repeat' first
    | with_reducible assumption
    | with_reducible exact keeps_refl _
    | with_reducible apply keeps_applyLoad
    | with_reducible apply keeps_spmWrites
    | with_reducible apply keeps_applyAct
    | with_reducible apply keeps_incRaw
    | with_reducible apply keeps_applyWatch
    | with_reducible apply keeps_bundleFlow
    | (refine keeps_foldl ?_ (fun t a => ?_))
    | split

theorem keeps_holdBundle {p : Part} {row : ℕ} {unit : ℕ} {prior s : State} (hk : Keeps prior s) : Keeps prior (State.holdBundle s p row unit) := by
  unfold State.holdBundle
  with_reducible repeat' first | assumption | apply keeps_slip | apply keeps_modSeq

theorem keeps_unitsHold {p : Part} {logged : Bool} {mask : ℕ} {prior s : State} (hk : Keeps prior s) : Keeps prior (State.unitsHold s p logged mask) := by
  unfold State.unitsHold
  with_reducible repeat' first | assumption | apply keeps_log | apply keeps_holdBundle | apply keeps_ite

theorem keeps_bundleIssue {p : Part} {acts : List Act} {prior s : State} (hk : Keeps prior s) : Keeps prior (State.bundleIssue s p acts) := by
  unfold State.bundleIssue
  with_reducible repeat' first | assumption | apply keeps_slip | apply keeps_put | apply keeps_modSeq | apply keeps_applyBundle | apply keeps_ite

theorem keeps_bundleEnd {p : Part} {prior s : State} (hk : Keeps prior s) : Keeps prior (State.bundleEnd s p) := by
  unfold State.bundleEnd
  repeat' first
    | with_reducible assumption
    | with_reducible apply keeps_modSeq
    | with_reducible apply keeps_holdBundle
    | with_reducible apply keeps_unitsHold
    | (with_reducible refine keeps_mod ?_ ?_; rotate_left; exact BaseKeeps.of_same rfl rfl rfl rfl rfl rfl)
    | with_reducible apply keeps_bundleIssue
    | with_reducible apply keeps_ite
    | split

theorem keeps_addActs {p : Part} {slot : ℕ} {acts : List Act} {prior s : State} (hk : Keeps prior s) : Keeps prior (State.addActs s p slot acts) := by
  unfold State.addActs
  with_reducible repeat' first | assumption | apply keeps_modSeq

theorem keeps_slotOp {p : Part} {e : Env} {slot : ℕ} {acts : List Act} {prior s : State} (hk : Keeps prior s) : Keeps prior (State.slotOp s p e slot acts) := by
  unfold State.slotOp
  with_reducible repeat' first | assumption | apply keeps_addActs | apply keeps_bundleEnd | apply keeps_ite

theorem tame_issue {p : Part} {e : Env} {slot : ℕ} {ok : Bool} {acts : List Act} {prior s : State} (hk : Keeps prior s) : Tame prior (State.issue s p e slot ok acts) := by
  unfold State.issue
  with_reducible repeat' first | assumption | apply tame_next | exact tame_refused _ | apply keeps_slotOp | apply tame_ite

theorem tame_trd {e : Env} {d : Fin 64} {tb : Fin 4} {nsf : Bool} {prior s : State} (hk : Keeps prior s) : Tame prior (execTrd e d tb nsf s) := by
  unfold execTrd
  with_reducible repeat' first | assumption | apply tame_issue

theorem tame_treeTrd {e : Env} {d : Fin 64} {tb : Fin 4} {nsf : Bool} {prior s : State} (hk : Keeps prior s) : Tame prior (execTreeTrd e d tb nsf s) := by
  unfold execTreeTrd
  with_reducible repeat' first | assumption | apply tame_issue

theorem tame_frcrd {e : Env} {d : Fin 64} {prior s : State} (hk : Keeps prior s) : Tame prior (execFrcrd e d s) := by
  unfold execFrcrd
  with_reducible repeat' first | assumption | apply tame_issue

theorem tame_parm {e : Env} {i : Fin 4} {tb : Fin 4} {rel : Bool} {a : Fin 64} {cf : Fin 8} {ns : BitVec 32} {prior s : State} (hk : Keeps prior s) : Tame prior (execParm e i tb rel a cf ns s) := by
  unfold execParm
  with_reducible repeat' first | assumption | apply tame_issue

theorem tame_lreq {e : Env} {q : QDest} {a : Fin 64} {rel : Bool} {start : Bool} {lid : BitVec 8} {gmask : BitVec 16} {prior s : State} (hk : Keeps prior s) : Tame prior (execLreq e q a rel start lid gmask s) := by
  unfold execLreq
  with_reducible repeat' first | assumption | apply tame_issue

theorem tame_larm {e : Env} {lid : BitVec 8} {gmask : BitVec 16} {prior s : State} (hk : Keeps prior s) : Tame prior (execLarm e lid gmask s) := by
  unfold execLarm
  with_reducible repeat' first | assumption | apply tame_issue

theorem tame_bcvg {e : Env} {q : QDest} {k : KArgs} {prior s : State} (hk : Keeps prior s) : Tame prior (execBcvg e q k s) := by
  unfold execBcvg
  with_reducible repeat' first | assumption | apply tame_issue

theorem tame_bcvv {e : Env} {q : QDest} {k : KArgs} {prior s : State} (hk : Keeps prior s) : Tame prior (execBcvv e q k s) := by
  unfold execBcvv
  with_reducible repeat' first | assumption | apply tame_issue

theorem tame_fpa {e : Env} {q : QDest} {k : KArgs} {prior s : State} (hk : Keeps prior s) : Tame prior (execFpa e q k s) := by
  unfold execFpa
  with_reducible repeat' first | assumption | apply tame_issue

theorem tame_fpcmp {e : Env} {q : QDest} {fa : Fin 16} {fb : Fin 16} {prior s : State} (hk : Keeps prior s) : Tame prior (execFpcmp e q fa fb s) := by
  unfold execFpcmp
  with_reducible repeat' first | assumption | apply tame_issue

theorem tame_xchk {e : Env} {q : QDest} {rid : BitVec 12} {fa : Fin 16} {prior s : State} (hk : Keeps prior s) : Tame prior (execXchk e q rid fa s) := by
  unfold execXchk
  with_reducible repeat' first | assumption | apply tame_issue

theorem tame_lemit {e : Env} {q : QDest} {gt : Fin 64} {fa : Fin 16} {kind : BitVec 4} {prior s : State} (hk : Keeps prior s) : Tame prior (execLemit e q gt fa kind s) := by
  unfold execLemit
  with_reducible repeat' first | assumption | apply tame_issue

theorem tame_sealv {e : Env} {q : QDest} {a : Fin 64} {prior s : State} (hk : Keeps prior s) : Tame prior (execSealv e q a s) := by
  unfold execSealv
  with_reducible repeat' first | assumption | apply tame_issue

theorem tame_sealq {e : Env} {q : QDest} {a : Fin 64} {prior s : State} (hk : Keeps prior s) : Tame prior (execSealq e q a s) := by
  unfold execSealq
  with_reducible repeat' first | assumption | apply tame_issue

theorem tame_lstag {e : Env} {q : QDest} {fa : Fin 16} {prior s : State} (hk : Keeps prior s) : Tame prior (execLstag e q fa s) := by
  unfold execLstag
  with_reducible repeat' first | assumption | apply tame_issue

theorem tame_fclr {e : Env} {fa : Fin 16} {prior s : State} (hk : Keeps prior s) : Tame prior (execFclr e fa s) := by
  unfold execFclr
  with_reducible repeat' first | assumption | apply tame_issue

theorem tame_frd {e : Env} {d : Fin 64} {fa : Fin 16} {sel : Fin 4} {prior s : State} (hk : Keeps prior s) : Tame prior (execFrd e d fa sel s) := by
  unfold execFrd
  with_reducible repeat' first | assumption | apply tame_issue

theorem tame_fsto {e : Env} {fa : Fin 16} {a : Fin 64} {ofs : BitVec 24} {prior s : State} (hk : Keeps prior s) : Tame prior (execFsto e fa a ofs s) := by
  unfold execFsto
  with_reducible repeat' first | assumption | apply tame_issue

theorem keeps_pllSwitch {p : Part} {ok : Bool} {prior s : State} (hk : Keeps prior s) : Keeps prior (State.pllSwitch s p ok) := by
  unfold State.pllSwitch
  repeat' first
    | with_reducible assumption
    | with_reducible apply keeps_put
    | with_reducible apply keeps_modPll
    | with_reducible apply keeps_draw
    | with_reducible apply keeps_slip
    | with_reducible apply keeps_ite
    | split

theorem tame_fclkSwitch {p : Part} {prior s : State} (hk : Keeps prior s) : Tame prior (execFclkSwitch p s) := by
  unfold execFclkSwitch
  with_reducible repeat' first | assumption | apply tame_next | apply keeps_pllSwitch | apply keeps_log | apply keeps_ite

theorem keeps_pllFailover {p : Part} {prior s : State} (hk : Keeps prior s) : Keeps prior (State.pllFailover s p) := by
  unfold State.pllFailover
  repeat' first
    | with_reducible assumption
    | with_reducible apply keeps_put
    | with_reducible apply keeps_log
    | with_reducible apply keeps_pllSwitch
    | with_reducible apply keeps_fmulFollow
    | (extract_lets +onlyGivenNames x; refine (fun (hx : Keeps prior x) => ?_) ?_; clear_value x; rotate_left; subst x)
    | (extract_lets +onlyGivenNames x; clear_value x)
    | split

theorem keeps_fclkLost {p : Part} {prior s : State} (hk : Keeps prior s) : Keeps prior (State.fclkLost s p) := by
  unfold State.fclkLost
  with_reducible repeat' first | assumption | apply keeps_modPll | apply keeps_guardTrigger

theorem tame_pllFail {p : Part} {prior s : State} (hk : Keeps prior s) : Tame prior (execPllFail p s) := by
  unfold execPllFail
  with_reducible repeat' first | assumption | apply tame_next | apply keeps_pllFailover | apply keeps_fclkLost | apply keeps_draw | apply keeps_ite

theorem tame_corePllTimeout  {prior s : State} (hk : Keeps prior s) : Tame prior (execCorePllTimeout s) := by
  unfold execCorePllTimeout
  repeat' first
    | with_reducible assumption
    | with_reducible apply tame_next
    | (with_reducible refine keeps_modUx ?_ ?_; rotate_left; (first | exact baseKeeps_refl _ | exact BaseKeeps.of_same rfl rfl rfl rfl rfl rfl))
    | with_reducible apply keeps_replaceSet
    | with_reducible apply keeps_ite

theorem tame_droopStretch {p : Part} {region : Fin 64} {prior s : State} (hk : Keeps prior s) : Tame prior (execDroopStretch p region s) := by
  unfold execDroopStretch
  repeat' first
    | with_reducible assumption
    | with_reducible apply tame_next
    | with_reducible apply keeps_count
    | (with_reducible refine keeps_mod ?_ ?_; rotate_left; exact BaseKeeps.of_same rfl rfl rfl rfl rfl rfl)
    | with_reducible apply keeps_fordsStretch
    | with_reducible apply keeps_slip
    | with_reducible apply keeps_ite
    | (extract_lets +onlyGivenNames x; refine (fun (hx : Keeps prior x) => ?_) ?_; clear_value x; rotate_left; subst x)
    | (extract_lets +onlyGivenNames x; clear_value x)
    | split

theorem tame_throttleChange {level : Bool} {prior s : State} (hk : Keeps prior s) : Tame prior (execThrottleChange level s) := by
  unfold execThrottleChange
  repeat' first
    | with_reducible assumption
    | with_reducible apply tame_next
    | (with_reducible refine keeps_modEl ?_ ?_ ?_ ?_; rotate_left; (first | exact baseKeeps_refl _ | exact BaseKeeps.of_same rfl rfl rfl rfl rfl rfl); rfl; exact id)
    | with_reducible apply keeps_fmulFollow

theorem keeps_spmOff  {prior s : State} (hk : Keeps prior s) : Keeps prior (State.spmOff s) := by
  unfold State.spmOff
  repeat' first
    | with_reducible assumption
    | (with_reducible refine keeps_modEl ?_ ?_ ?_ ?_; rotate_left; exact baseKeeps_refl _; rfl; first | exact fun _ => memory_wf_nil | exact memory_wf_filter _ _ | exact memory_wf_mwrite _ _ _)

theorem keeps_domainLow {d : ℕ} {prior s : State} (hk : Keeps prior s) : Keeps prior (State.domainLow s d) := by
  unfold State.domainLow
  extract_lets m
  have hm : Keeps prior m := keeps_spmOff hk
  clear_value m
  refine keeps_ite (keeps_setDstate (keeps_elDomainReset hk)) (keeps_ite (keeps_setDstate ?_) (keeps_setDstate hk))
  have hr : Keeps prior (s.elDomainReset 5) := keeps_elDomainReset hk
  generalize s.elDomainReset 5 = t at hr
  exact ⟨hr.el, hr.ux, hm.spm, hr.lic, hr.pending, hr.draws⟩

theorem tame_sleepEntry  {prior s : State} (hk : Keeps prior s) : Tame prior (execSleepEntry s) := by
  unfold execSleepEntry
  repeat' first
    | with_reducible assumption
    | with_reducible exact keeps_refl _
    | with_reducible apply tame_next
    | with_reducible apply keeps_domainLow
    | (with_reducible refine keeps_mod ?_ ?_; rotate_left; exact BaseKeeps.of_same rfl rfl rfl rfl rfl rfl)
    | with_reducible apply keeps_put
    | (refine keeps_foldl ?_ (fun t a => ?_))
    | with_reducible apply keeps_ite

theorem tame_wakeTrigger  {prior s : State} (hk : Keeps prior s) : Tame prior (execWakeTrigger s) := by
  unfold execWakeTrigger
  with_reducible repeat' first | assumption | apply tame_next | apply keeps_put | apply keeps_ite

theorem tame_wakeEnd {durNs : BitVec 32} {prior s : State} (hk : Keeps prior s) : Tame prior (execWakeEnd durNs s) := by
  unfold execWakeEnd
  repeat' first
    | with_reducible assumption
    | with_reducible exact keeps_refl _
    | with_reducible apply tame_next
    | with_reducible apply keeps_setDstate
    | with_reducible apply keeps_put
    | with_reducible apply keeps_modPll
    | with_reducible apply keeps_align
    | with_reducible apply keeps_log
    | with_reducible apply keeps_anchorIssue
    | (refine keeps_foldl ?_ (fun t a => ?_))
    | with_reducible apply keeps_ite

theorem keeps_coreFalls  {prior s : State} (hk : Keeps prior s) : Keeps prior (State.coreFalls s) := by
  unfold State.coreFalls
  repeat' first
    | with_reducible assumption
    | with_reducible exact keeps_refl _
    | with_reducible apply keeps_domainLow
    | with_reducible apply keeps_elDomainReset
    | (with_reducible refine keeps_modEl ?_ ?_ ?_ ?_; rotate_left; (first | exact baseKeeps_refl _ | exact BaseKeeps.of_same rfl rfl rfl rfl rfl rfl); rfl; exact id)
    | with_reducible apply keeps_setDstate
    | (with_reducible refine keeps_mod ?_ ?_; rotate_left; exact BaseKeeps.of_same rfl rfl rfl rfl rfl rfl)
    | (refine keeps_foldl ?_ (fun t a => ?_))
    | with_reducible apply keeps_ite

theorem keeps_retFalls  {prior s : State} (hk : Keeps prior s) : Keeps prior (State.retFalls s) := by
  unfold State.retFalls
  repeat' first
    | with_reducible assumption
    | with_reducible exact keeps_refl _
    | with_reducible apply keeps_elDomainReset
    | (with_reducible refine keeps_modEl ?_ ?_ ?_ ?_; rotate_left; (first | exact baseKeeps_refl _ | exact BaseKeeps.of_same rfl rfl rfl rfl rfl rfl); rfl; exact id)
    | (with_reducible refine keeps_modEl ?_ ?_ ?_ ?_; rotate_left; exact baseKeeps_refl _; rfl; first | exact fun _ => memory_wf_nil | exact memory_wf_filter _ _ | exact memory_wf_mwrite _ _ _)
    | with_reducible apply keeps_setDstate
    | (refine keeps_foldl ?_ (fun t a => ?_))
    | with_reducible apply keeps_ite
    | split

theorem tame_supplyChange {supply : Fin 3} {good : Bool} {prior s : State} (hk : Keeps prior s) : Tame prior (execSupplyChange supply good s) := by
  unfold execSupplyChange
  repeat' first
    | with_reducible assumption
    | with_reducible exact keeps_refl _
    | with_reducible apply tame_next
    | (with_reducible refine keeps_modEl ?_ ?_ ?_ ?_; rotate_left; (first | exact baseKeeps_refl _ | exact BaseKeeps.of_same rfl rfl rfl rfl rfl rfl); rfl; exact id)
    | with_reducible apply keeps_setDstate
    | with_reducible apply keeps_coreFalls
    | with_reducible apply keeps_retFalls
    | with_reducible apply keeps_laneFailOpen
    | (refine keeps_foldl ?_ (fun t a => ?_))
    | with_reducible apply keeps_ite
    | (extract_lets +onlyGivenNames x; refine (fun (hx : Keeps prior x) => ?_) ?_; clear_value x; rotate_left; subst x)
    | split

theorem tame_uxDomainIdle {d : Fin 24} {prior s : State} (hk : Keeps prior s) : Tame prior (execUxDomainIdle d s) := by
  unfold execUxDomainIdle
  repeat' first
    | with_reducible assumption
    | with_reducible apply tame_next
    | with_reducible apply keeps_setDstate
    | with_reducible apply keeps_ite
    | (extract_lets +onlyGivenNames x; clear_value x)
    | split

theorem tame_uxDomainOn {d : Fin 24} {prior s : State} (hk : Keeps prior s) : Tame prior (execUxDomainOn d s) := by
  unfold execUxDomainOn
  with_reducible repeat' first | assumption | apply tame_next | apply keeps_setBits | apply keeps_setDstate | apply keeps_ite

theorem tame_rdstep {e : Env} {d : Fin 64} {prior s : State} (hk : Keeps prior s) : Tame prior (execRdstep e d s) := by
  unfold execRdstep
  with_reducible repeat' first | assumption | apply tame_issue

theorem tame_rdid {e : Env} {d : Fin 64} {sel : Fin 8} {prior s : State} (hk : Keeps prior s) : Tame prior (execRdid e d sel s) := by
  unfold execRdid
  with_reducible repeat' first | assumption | apply tame_issue

theorem tame_rdcnt {e : Env} {d : Fin 64} {src : Fin 16} {prior s : State} (hk : Keeps prior s) : Tame prior (execRdcnt e d src s) := by
  unfold execRdcnt
  with_reducible repeat' first | assumption | apply tame_issue

theorem tame_mstg {e : Env} {cf : Fin 8} {a : Fin 64} {b : Fin 64} {prior s : State} (hk : Keeps prior s) : Tame prior (execMstg e cf a b s) := by
  unfold execMstg
  with_reducible repeat' first | assumption | apply tame_issue

theorem tame_mchk {e : Env} {cf : Fin 8} {prior s : State} (hk : Keeps prior s) : Tame prior (execMchk e cf s) := by
  unfold execMchk
  with_reducible repeat' first | assumption | apply tame_issue

theorem tame_mcommit {e : Env} {cf : Fin 8} {rel : Bool} {a : Fin 64} {ns : BitVec 32} {prior s : State} (hk : Keeps prior s) : Tame prior (execMcommit e cf rel a ns s) := by
  unfold execMcommit
  with_reducible repeat' first | assumption | apply tame_issue

theorem tame_evt {e : Env} {a : Fin 64} {tag : BitVec 16} {prior s : State} (hk : Keeps prior s) : Tame prior (execEvt e a tag s) := by
  unfold execEvt
  with_reducible repeat' first | assumption | apply tame_issue

theorem tame_gkick {e : Env} {mask : BitVec 7} {prior s : State} (hk : Keeps prior s) : Tame prior (execGkick e mask s) := by
  unfold execGkick
  with_reducible repeat' first | assumption | apply tame_issue

theorem tame_gtrap {e : Env} {a : Fin 64} {prior s : State} (hk : Keeps prior s) : Tame prior (execGtrap e a s) := by
  unfold execGtrap
  with_reducible repeat' first | assumption | apply tame_issue

theorem keeps_talVerify {pc : ℕ} {j : ℕ} {prior s : State} (hk : Keeps prior s) : Keeps prior (State.talVerify s pc j).2 := by
  unfold State.talVerify
  with_reducible repeat' first | assumption | apply keeps_spmReadBytes

theorem keeps_talVerifyAll {pc : ℕ} {js : List ℕ} {prior s : State} (hk : Keeps prior s) : Keeps prior (State.talVerifyAll s pc js).2 := by
  unfold State.talVerifyAll
  refine keeps_foldl_snd hk (fun x a => ?_)
  exact keeps_talVerify (keeps_refl _)

theorem keeps_talExp {a : TalArgs} {pc : ℕ} {i : ℕ} {prior s : State} (hk : Keeps prior s) : Keeps prior (State.talExp s a pc i).2 := by
  unfold State.talExp
  repeat' first
    | with_reducible assumption
    | with_reducible apply keeps_spmReadBytes
    | (extract_lets +onlyGivenNames x; refine (fun (hx : Keeps prior x.2) => ?_) ?_; clear_value x; rotate_left; subst x)
    | split

theorem keeps_talStep {a : TalArgs} {pc : ℕ} {acc : TalAcc} {i : ℕ} {prior s : State} (hk : Keeps prior s) : Keeps prior (State.talStep s a pc acc i).2 := by
  unfold State.talStep
  repeat' first
    | with_reducible assumption
    | with_reducible apply keeps_spmReadBytes
    | with_reducible apply keeps_talExp
    | with_reducible apply keeps_spmPutBytes
    | (extract_lets +onlyGivenNames x; refine (fun (hx : Keeps prior x.2) => ?_) ?_; clear_value x; rotate_left; subst x)
    | (extract_lets +onlyGivenNames x; clear_value x)
    | split

theorem keeps_talBlocks {a : TalArgs} {pc : ℕ} {prior s : State} (hk : Keeps prior s) : Keeps prior (State.talBlocks s a pc).2 := by
  unfold State.talBlocks
  refine keeps_foldl_snd hk (fun x a => ?_)
  exact keeps_talStep (keeps_refl _)

theorem keeps_talRun {o : QOp} {a : TalArgs} {prior s : State} (hk : Keeps prior s) : Keeps prior (State.talRun s o a) := by
  unfold State.talRun
  with_reducible repeat' first | assumption | apply keeps_put | apply keeps_talReport | apply keeps_endOp | apply keeps_talVerifyAll | apply keeps_talBlocks | apply keeps_bcvFails | apply keeps_count | apply keeps_log | apply keeps_ite

end Sys2Proof.Machine
end

