-- ==== Sys2Proof/Laws/KeepHall.lean ====
section
/-! SUPPORT. What each operation keeps (`Keeps`, `Tame`): barriers, launches, members, tree nodes and the ledger. One lemma for each operation; `assumption` ends every chain at the state it began with. -/

namespace Sys2Proof.Machine

theorem keeps_setBar {b : ℕ} {x : Bar} {prior s : State} (hk : Keeps prior s) : Keeps prior (State.setBar s b x) := by
  unfold State.setBar
  repeat' first
    | with_reducible assumption
    | (with_reducible refine keeps_modEl ?_ ?_ ?_ ?_; rotate_left; (first | exact baseKeeps_refl _ | exact BaseKeeps.of_same rfl rfl rfl rfl rfl rfl); rfl; exact id)

theorem keeps_barNext {b : ℕ} {prior s : State} (hk : Keeps prior s) : Keeps prior (State.barNext s b) := by
  unfold State.barNext
  with_reducible repeat' first | assumption | apply keeps_put | apply keeps_setBar

theorem keeps_endWith {o : Option QOp} {incs : List (ℕ × ℕ)} {prior s : State} (hk : Keeps prior s) : Keeps prior (State.endWith s o incs) := by
  unfold State.endWith
  repeat' first
    | with_reducible assumption
    | with_reducible apply keeps_incAll
    | with_reducible apply keeps_dropOp
    | with_reducible apply keeps_drainCheck
    | split

theorem keeps_barRelease {b : ℕ} {prior s : State} (hk : Keeps prior s) : Keeps prior (State.barRelease s b) := by
  unfold State.barRelease
  with_reducible repeat' first | assumption | apply keeps_log | apply keeps_barNext | apply keeps_endWith | apply keeps_ite

theorem keeps_barRefuse {b : ℕ} {prior s : State} (hk : Keeps prior s) : Keeps prior (State.barRefuse s b) := by
  unfold State.barRefuse
  repeat' first
    | with_reducible assumption
    | with_reducible apply keeps_log
    | with_reducible apply keeps_barNext
    | with_reducible apply keeps_endFail
    | (extract_lets +onlyGivenNames x; refine (fun (hx : Keeps prior x) => ?_) ?_; clear_value x; rotate_left; subst x)
    | (extract_lets +onlyGivenNames x; clear_value x)
    | split

theorem keeps_barArrive {o : QOp} {b : ℕ} {scope : ℕ} {waits : Bool} {prior s : State} (hk : Keeps prior s) : Keeps prior (State.barArrive s o b scope waits) := by
  unfold State.barArrive
  with_reducible repeat' first | assumption | apply keeps_endFail | apply keeps_put | apply keeps_setBar | apply keeps_ite

theorem keeps_annAnswer {m : AnnMsg} {code : ℕ} {prior s : State} (hk : Keeps prior s) : Keeps prior (State.annAnswer s m code) := by
  unfold State.annAnswer
  with_reducible repeat' first | assumption | apply keeps_sendUp

theorem keeps_annTake {m : AnnMsg} {prior s : State} (hk : Keeps prior s) : Keeps prior (State.annTake s m) := by
  unfold State.annTake
  repeat' first
    | with_reducible assumption
    | with_reducible apply keeps_log
    | with_reducible apply keeps_annAnswer
    | (with_reducible refine keeps_modEl ?_ ?_ ?_ ?_; rotate_left; (first | exact baseKeeps_refl _ | exact BaseKeeps.of_same rfl rfl rfl rfl rfl rfl); rfl; exact id)
    | with_reducible apply keeps_landShow
    | with_reducible apply keeps_claimWant
    | with_reducible apply keeps_ite
    | (extract_lets +onlyGivenNames x; refine (fun (hx : Keeps prior x) => ?_) ?_; clear_value x; rotate_left; subst x)
    | (extract_lets +onlyGivenNames x; clear_value x)
    | split

theorem keeps_landRelease {l : LandEntry} {prior s : State} (hk : Keeps prior s) : Keeps prior (State.landRelease s l) := by
  unfold State.landRelease
  repeat' first
    | with_reducible assumption
    | (with_reducible refine keeps_modEl ?_ ?_ ?_ ?_; rotate_left; (first | exact baseKeeps_refl _ | exact BaseKeeps.of_same rfl rfl rfl rfl rfl rfl); rfl; exact id)
    | with_reducible apply keeps_landShow
    | with_reducible apply keeps_incAll
    | with_reducible apply keeps_claimWant
    | with_reducible apply keeps_claimPump
    | with_reducible apply keeps_ite

theorem keeps_launchNow {m : LaunchMsg} {a : ℕ} {prior s : State} (hk : Keeps prior s) : Keeps prior (State.launchNow s m a) := by
  unfold State.launchNow
  repeat' first
    | with_reducible assumption
    | (with_reducible refine keeps_modEl ?_ ?_ ?_ ?_; rotate_left; (first | exact baseKeeps_refl _ | exact BaseKeeps.of_same rfl rfl rfl rfl rfl rfl); rfl; exact id)
    | with_reducible apply keeps_stepLaunch
    | with_reducible apply keeps_ite

theorem keeps_windowBound  {prior s : State} (hk : Keeps prior s) : Keeps prior (State.windowBound s) := by
  unfold State.windowBound
  repeat' first
    | with_reducible assumption
    | with_reducible apply keeps_modSeq
    | with_reducible apply keeps_ite
    | split

theorem keeps_launchTake {m : LaunchMsg} {prior s : State} (hk : Keeps prior s) : Keeps prior (State.launchTake s m) := by
  unfold State.launchTake
  repeat' first
    | with_reducible assumption
    | (with_reducible refine keeps_modEl ?_ ?_ ?_ ?_; rotate_left; (first | exact baseKeeps_refl _ | exact BaseKeeps.of_same rfl rfl rfl rfl rfl rfl); rfl; exact id)
    | with_reducible apply keeps_log
    | with_reducible apply keeps_launchNow
    | with_reducible apply keeps_windowBound
    | with_reducible apply keeps_ite

theorem keeps_setSubj {x : Subj} {code : ℕ} {prior s : State} (hk : Keeps prior s) : Keeps prior (State.setSubj s x code) := by
  unfold State.setSubj
  repeat' first
    | with_reducible assumption
    | with_reducible apply keeps_setMember
    | (with_reducible refine keeps_modUx ?_ ?_; rotate_left; (first | exact baseKeeps_refl _ | exact BaseKeeps.of_same rfl rfl rfl rfl rfl rfl))
    | with_reducible apply keeps_ite

theorem keeps_toPartner {m : Msg} {prior s : State} (hk : Keeps prior s) : Keeps prior (State.toPartner s m) := by
  unfold State.toPartner
  repeat' first
    | with_reducible assumption
    | with_reducible apply keeps_send
    | split

theorem keeps_toPartners {m : Msg} {prior s : State} (hk : Keeps prior s) : Keeps prior (State.toPartners s m) := by
  unfold State.toPartners
  repeat' first
    | with_reducible assumption
    | with_reducible exact keeps_refl _
    | with_reducible apply keeps_send
    | with_reducible apply keeps_toPartner
    | (refine keeps_foldl ?_ (fun t a => ?_))
    | with_reducible apply keeps_ite
    | split

theorem keeps_toTwin {m : Msg} {prior s : State} (hk : Keeps prior s) : Keeps prior (State.toTwin s m) := by
  unfold State.toTwin
  repeat' first
    | with_reducible assumption
    | with_reducible apply keeps_send
    | split

theorem keeps_toAuthority {m : Msg} {prior s : State} (hk : Keeps prior s) : Keeps prior (State.toAuthority s m) := by
  unfold State.toAuthority
  with_reducible repeat' first | assumption | apply keeps_toTwin | apply keeps_sendUp | apply keeps_ite

theorem keeps_proposeOwn {x : Subj} {hard : Bool} {ageP : ℕ} {ageT : ℕ} {prior s : State} (hk : Keeps prior s) : Keeps prior (State.proposeOwn s x hard ageP ageT) := by
  unfold State.proposeOwn
  repeat' first
    | with_reducible assumption
    | with_reducible apply keeps_log
    | (with_reducible refine keeps_modUx ?_ ?_; rotate_left; (first | exact baseKeeps_refl _ | exact BaseKeeps.of_same rfl rfl rfl rfl rfl rfl))
    | with_reducible apply keeps_toAuthority
    | with_reducible apply keeps_sendUp
    | with_reducible apply keeps_toPartner
    | with_reducible apply keeps_sendDown
    | with_reducible apply keeps_ite
    | (extract_lets +onlyGivenNames x; clear_value x)
    | split

theorem keeps_probationK {pdi : ℕ} {prior s : State} (hk : Keeps prior s) : Keeps prior (State.probationK s pdi).2 := by
  unfold State.probationK
  repeat' first
    | with_reducible assumption
    | with_reducible apply keeps_draw
    | (extract_lets +onlyGivenNames x; refine (fun (hx : Keeps prior x.2) => ?_) ?_; clear_value x; rotate_left; subst x)
    | (extract_lets +onlyGivenNames x; clear_value x)
    | split

theorem keeps_probation {x : ℕ} {pdi : ℕ} {prior s : State} (hk : Keeps prior s) : Keeps prior (State.probation s x pdi) := by
  unfold State.probation
  with_reducible repeat' first | assumption | apply keeps_probationK | apply keeps_send | apply keeps_log | apply keeps_put

theorem keeps_healthAdd {x : ℕ} {pts : ℕ} {soft : Bool} {prior s : State} (hk : Keeps prior s) : Keeps prior (State.healthAdd s x pts soft) := by
  unfold State.healthAdd
  repeat' first
    | with_reducible assumption
    | with_reducible apply keeps_put
    | (with_reducible refine keeps_modUx ?_ ?_; rotate_left; (first | exact baseKeeps_refl _ | exact BaseKeeps.of_same rfl rfl rfl rfl rfl rfl))
    | with_reducible apply keeps_log
    | with_reducible apply keeps_probation
    | with_reducible apply keeps_proposeOwn
    | with_reducible apply keeps_ite

theorem keeps_csAnswer {ok : Bool} {prior s : State} (hk : Keeps prior s) : Keeps prior (State.csAnswer s ok) := by
  unfold State.csAnswer
  repeat' first
    | with_reducible assumption
    | (with_reducible refine keeps_modEl ?_ ?_ ?_ ?_; rotate_left; (first | exact baseKeeps_refl _ | exact BaseKeeps.of_same rfl rfl rfl rfl rfl rfl); rfl; exact id)

theorem keeps_crossCore {c : ℕ} {core : ℕ} {k : ℕ} {prior s : State} (hk : Keeps prior s) : Keeps prior (State.crossCore s c core k) := by
  unfold State.crossCore
  with_reducible repeat' first | assumption | apply keeps_put | apply keeps_log | apply keeps_csAnswer

theorem tame_csInc {c : BitVec 8} {eng : Fin 8} {core : BitVec 8} {k : BitVec 6} {amt : BitVec 40} {prior s : State} (hk : Keeps prior s) : Tame prior (execCsInc c eng core k amt s) := by
  unfold execCsInc
  with_reducible repeat' first | assumption | apply tame_next | apply keeps_csAnswer | apply keeps_crossCore | apply keeps_incAll | apply keeps_ite

theorem tame_csWreg {c : BitVec 8} {eng : Fin 8} {core : BitVec 8} {k : BitVec 6} {target : BitVec 40} {eq : Bool} {widx : BitVec 12} {prior s : State} (hk : Keeps prior s) : Tame prior (execCsWreg c eng core k target eq widx s) := by
  unfold execCsWreg
  with_reducible repeat' first | assumption | apply tame_next | apply keeps_csAnswer | apply keeps_crossCore | apply keeps_watchReg | apply keeps_ite

theorem tame_csWrel {c : BitVec 8} {eng : Fin 8} {widx : BitVec 12} {prior s : State} (hk : Keeps prior s) : Tame prior (execCsWrel c eng widx s) := by
  unfold execCsWrel
  with_reducible repeat' first | assumption | apply tame_next | apply keeps_watchClear | apply keeps_csAnswer | apply keeps_ite

theorem tame_csArrive {c : BitVec 8} {eng : Fin 8} {core : BitVec 8} {k : BitVec 6} {bid : BitVec 8} {prior s : State} (hk : Keeps prior s) : Tame prior (execCsArrive c eng core k bid s) := by
  unfold execCsArrive
  with_reducible repeat' first | assumption | apply tame_next | apply keeps_csAnswer | apply keeps_crossCore | apply keeps_log | apply keeps_setBar | apply keeps_ite

theorem tame_wakeSend {core : BitVec 8} {prior s : State} (hk : Keeps prior s) : Tame prior (execWakeSend core s) := by
  unfold execWakeSend
  repeat' first
    | with_reducible assumption
    | with_reducible apply tame_next
    | (with_reducible refine keeps_modEl ?_ ?_ ?_ ?_; rotate_left; (first | exact baseKeeps_refl _ | exact BaseKeeps.of_same rfl rfl rfl rfl rfl rfl); rfl; exact id)
    | with_reducible apply keeps_setGate
    | split

theorem tame_gateAck {c : BitVec 8} {e : Fin 8} {level : Bool} {prior s : State} (hk : Keeps prior s) : Tame prior (execGateAck c e level s) := by
  unfold execGateAck
  with_reducible repeat' first | assumption | apply tame_next | apply keeps_setGate | apply keeps_gateAsk | apply keeps_ite

theorem tame_engRst {c : BitVec 8} {e : Fin 8} {prior s : State} (hk : Keeps prior s) : Tame prior (execEngRst c e s) := by
  unfold execEngRst
  repeat' first
    | with_reducible assumption
    | with_reducible exact keeps_refl _
    | with_reducible apply tame_next
    | with_reducible apply keeps_setGate
    | with_reducible apply keeps_disarm
    | with_reducible apply keeps_logW
    | (refine keeps_foldl ?_ (fun t a => ?_))
    | with_reducible apply keeps_ite

theorem tame_engRstLow {c : BitVec 8} {e : Fin 8} {prior s : State} (hk : Keeps prior s) : Tame prior (execEngRstLow c e s) := by
  unfold execEngRstLow
  with_reducible repeat' first | assumption | apply tame_next | apply keeps_setGate

theorem tame_watchTimeout {w : BitVec 12} {prior s : State} (hk : Keeps prior s) : Tame prior (execWatchTimeout w s) := by
  unfold execWatchTimeout
  with_reducible repeat' first | assumption | apply tame_next | apply keeps_put | apply keeps_logW | apply keeps_wakeWatch | apply keeps_ite

theorem tame_hincWrite {v : Word} {prior s : State} (hk : Keeps prior s) : Tame prior (execHincWrite v s) := by
  unfold execHincWrite
  with_reducible repeat' first | assumption | apply tame_next | apply keeps_incAll | apply keeps_log | apply keeps_ite

theorem tame_deadlock  {prior s : State} (hk : Keeps prior s) : Tame prior (execDeadlock s) := by
  unfold execDeadlock
  repeat' first
    | with_reducible assumption
    | with_reducible apply tame_next
    | with_reducible apply keeps_put
    | with_reducible apply keeps_log
    | (with_reducible refine keeps_modEl ?_ ?_ ?_ ?_; rotate_left; (first | exact baseKeeps_refl _ | exact BaseKeeps.of_same rfl rfl rfl rfl rfl rfl); rfl; exact id)
    | with_reducible apply keeps_ite

theorem tame_annMessage {m : AnnMsg} {prior s : State} (hk : Keeps prior s) : Tame prior (execAnnMessage m s) := by
  unfold execAnnMessage
  with_reducible repeat' first | assumption | apply tame_next | apply keeps_annTake

theorem tame_annResend {qid : ℕ} {prior s : State} (hk : Keeps prior s) : Tame prior (execAnnResend qid s) := by
  unfold execAnnResend
  repeat' first
    | with_reducible assumption
    | with_reducible apply tame_next
    | with_reducible apply keeps_sendUp
    | with_reducible apply keeps_ite
    | split

theorem tame_annTimeout {qid : ℕ} {prior s : State} (hk : Keeps prior s) : Tame prior (execAnnTimeout qid s) := by
  unfold execAnnTimeout
  repeat' first
    | with_reducible assumption
    | with_reducible apply tame_next
    | with_reducible apply keeps_endFail
    | with_reducible apply keeps_ite
    | split

theorem tame_landTimeout {tag : Fin 512} {prior s : State} (hk : Keeps prior s) : Tame prior (execLandTimeout tag s) := by
  unfold execLandTimeout
  repeat' first
    | with_reducible assumption
    | with_reducible apply tame_next
    | with_reducible apply keeps_log
    | (with_reducible refine keeps_modEl ?_ ?_ ?_ ?_; rotate_left; (first | exact baseKeeps_refl _ | exact BaseKeeps.of_same rfl rfl rfl rfl rfl rfl); rfl; exact id)
    | with_reducible apply keeps_ite
    | split

theorem tame_idcChangeNotice {src : BitVec 20} {prior s : State} (hk : Keeps prior s) : Tame prior (execIdcChangeNotice src s) := by
  unfold execIdcChangeNotice
  with_reducible repeat' first | assumption | apply tame_next | apply keeps_claimWant | apply keeps_ite

theorem tame_idcAnswer {tag : Fin 512} {grant : Bool} {prior s : State} (hk : Keeps prior s) : Tame prior (execIdcAnswer tag grant s) := by
  unfold execIdcAnswer
  repeat' first
    | with_reducible assumption
    | with_reducible apply tame_next
    | (with_reducible refine keeps_modEl ?_ ?_ ?_ ?_; rotate_left; (first | exact baseKeeps_refl _ | exact BaseKeeps.of_same rfl rfl rfl rfl rfl rfl); rfl; exact id)
    | with_reducible apply keeps_landRelease
    | with_reducible apply keeps_claimPump
    | with_reducible apply keeps_ite
    | (extract_lets +onlyGivenNames x; refine (fun (hx : Keeps prior x) => ?_) ?_; clear_value x; rotate_left; subst x)
    | split

theorem tame_idcClearAck  {prior s : State} (hk : Keeps prior s) : Tame prior (execIdcClearAck s) := by
  unfold execIdcClearAck
  repeat' first
    | with_reducible assumption
    | with_reducible exact keeps_refl _
    | with_reducible apply tame_next
    | (with_reducible refine keeps_modEl ?_ ?_ ?_ ?_; rotate_left; (first | exact baseKeeps_refl _ | exact BaseKeeps.of_same rfl rfl rfl rfl rfl rfl); rfl; exact id)
    | with_reducible apply keeps_claimWant
    | (refine keeps_foldl ?_ (fun t a => ?_))
    | with_reducible apply tame_ite

theorem tame_barLocalComplete {bid : BitVec 8} {prior s : State} (hk : Keeps prior s) : Tame prior (execBarLocalComplete bid s) := by
  unfold execBarLocalComplete
  with_reducible repeat' first | assumption | apply tame_next | apply keeps_barRelease | apply keeps_setBar | apply keeps_sendUp | apply keeps_ite

theorem tame_barTimeout {bid : BitVec 8} {prior s : State} (hk : Keeps prior s) : Tame prior (execBarTimeout bid s) := by
  unfold execBarTimeout
  repeat' first
    | with_reducible assumption
    | with_reducible apply tame_next
    | with_reducible apply keeps_log
    | with_reducible apply keeps_setBar
    | with_reducible apply keeps_endFail
    | (extract_lets +onlyGivenNames x; clear_value x)
    | split

theorem tame_launchMessage {m : LaunchDown} {prior s : State} (hk : Keeps prior s) : Tame prior (execLaunchMessage m s) := by
  unfold execLaunchMessage
  repeat' first
    | with_reducible assumption
    | with_reducible apply tame_next
    | with_reducible apply keeps_launchTake
    | with_reducible apply keeps_sendDown
    | with_reducible apply keeps_toTwin
    | with_reducible apply keeps_ite
    | (extract_lets +onlyGivenNames x; refine (fun (hx : Keeps prior x) => ?_) ?_; clear_value x; rotate_left; subst x)
    | split

theorem tame_launchFire {lid : BitVec 8} {prior s : State} (hk : Keeps prior s) : Tame prior (execLaunchFire lid s) := by
  unfold execLaunchFire
  repeat' first
    | with_reducible assumption
    | with_reducible apply tame_next
    | with_reducible apply keeps_launchNow
    | with_reducible apply keeps_ite
    | split

theorem keeps_endQid {qid : ℕ} {st : ℕ} {prior s : State} (hk : Keeps prior s) : Keeps prior (State.endQid s qid st) := by
  unfold State.endQid
  repeat' first
    | with_reducible assumption
    | with_reducible apply keeps_endOp
    | split

theorem keeps_setNode {b : ℕ} {n : BarNode} {prior s : State} (hk : Keeps prior s) : Keeps prior (State.setNode s b n) := by
  unfold State.setNode
  repeat' first
    | with_reducible assumption
    | (with_reducible refine keeps_modUx ?_ ?_; rotate_left; (first | exact baseKeeps_refl _ | exact BaseKeeps.of_same rfl rfl rfl rfl rfl rfl))

theorem keeps_barBack {a : BarArr} {mk : BitVec 16 → Option ℕ → Msg} {prior s : State} (hk : Keeps prior s) : Keeps prior (State.barBack s a mk) := by
  unfold State.barBack
  with_reducible repeat' first | assumption | apply keeps_toTwin | apply keeps_send | apply keeps_ite

theorem keeps_nodeOpen {b : ℕ} {n : BarNode} {arrived : List BarArr} {prior s : State} (hk : Keeps prior s) : Keeps prior (State.nodeOpen s b n arrived) := by
  unfold State.nodeOpen
  repeat' first
    | with_reducible assumption
    | with_reducible apply keeps_setNode
    | with_reducible apply keeps_draw
    | split

theorem keeps_nodeNext {b : ℕ} {n : BarNode} {z : BarNode} {prior s : State} (hk : Keeps prior s) : Keeps prior (State.nodeNext s b n z) := by
  unfold State.nodeNext
  with_reducible repeat' first | assumption | apply keeps_nodeOpen

theorem keeps_nodeRelease {b : ℕ} {prior s : State} (hk : Keeps prior s) : Keeps prior (State.nodeRelease s b) := by
  unfold State.nodeRelease
  repeat' first
    | with_reducible assumption
    | with_reducible exact keeps_refl _
    | with_reducible apply keeps_nodeNext
    | with_reducible apply keeps_barBack
    | with_reducible apply keeps_endQid
    | (refine keeps_foldl ?_ (fun t a => ?_))
    | (extract_lets +onlyGivenNames x; refine (fun (hx : Keeps prior x) => ?_) ?_; clear_value x; rotate_left; subst x)
    | (extract_lets +onlyGivenNames x; clear_value x)
    | split

theorem keeps_nodeStep {b : ℕ} {prior s : State} (hk : Keeps prior s) : Keeps prior (State.nodeStep s b) := by
  unfold State.nodeStep
  with_reducible repeat' first | assumption | apply keeps_nodeRelease | apply keeps_setNode | apply keeps_sendUp | apply keeps_ite

theorem keeps_nodeCheck {b : ℕ} {prior s : State} (hk : Keeps prior s) : Keeps prior (State.nodeCheck s b) := by
  unfold State.nodeCheck
  with_reducible repeat' first | assumption | apply keeps_nodeStep

theorem keeps_nodeCount {b : ℕ} {a : BarArr} {prior s : State} (hk : Keeps prior s) : Keeps prior (State.nodeCount s b a) := by
  unfold State.nodeCount
  with_reducible repeat' first | assumption | apply keeps_nodeOpen | apply keeps_nodeCheck | apply keeps_setNode | apply keeps_barBack | apply keeps_ite

theorem keeps_relayNote {x : ℕ} {prior s : State} (hk : Keeps prior s) : Keeps prior (State.relayNote s x) := by
  unfold State.relayNote
  repeat' first
    | with_reducible assumption
    | (with_reducible refine keeps_modUx ?_ ?_; rotate_left; (first | exact baseKeeps_refl _ | exact BaseKeeps.of_same rfl rfl rfl rfl rfl rfl))

theorem keeps_nodeArrive {b : ℕ} {a : BarArr} {prior s : State} (hk : Keeps prior s) : Keeps prior (State.nodeArrive s b a) := by
  unfold State.nodeArrive
  with_reducible repeat' first | assumption | apply keeps_relayNote | apply keeps_toTwin | apply keeps_nodeCount | apply keeps_ite

theorem keeps_nodeRefuse {b : ℕ} {prior s : State} (hk : Keeps prior s) : Keeps prior (State.nodeRefuse s b) := by
  unfold State.nodeRefuse
  repeat' first
    | with_reducible assumption
    | with_reducible exact keeps_refl _
    | with_reducible apply keeps_nodeNext
    | with_reducible apply keeps_barBack
    | with_reducible apply keeps_nodeCheck
    | (refine keeps_foldl ?_ (fun t a => ?_))

theorem keeps_nodeArm {o : QOp} {b : ℕ} {count : ℕ} {prior s : State} (hk : Keeps prior s) : Keeps prior (State.nodeArm s o b count) := by
  unfold State.nodeArm
  with_reducible repeat' first | assumption | apply keeps_setNode | apply keeps_nodeCheck

theorem keeps_setSlots {t : Tbl Slot} {prior s : State} (hk : Keeps prior s) : Keeps prior (State.setSlots s t) := by
  unfold State.setSlots
  repeat' first
    | with_reducible assumption
    | (with_reducible refine keeps_modUx ?_ ?_; rotate_left; (first | exact baseKeeps_refl _ | exact BaseKeeps.of_same rfl rfl rfl rfl rfl rfl))
    | with_reducible apply keeps_put

theorem keeps_redDiscard  {prior s : State} (hk : Keeps prior s) : Keeps prior (State.redDiscard s) := by
  unfold State.redDiscard
  with_reducible repeat' first | assumption | apply keeps_count

theorem keeps_slotSend {rid : ℕ} {t : Slot} {prior s : State} (hk : Keeps prior s) : Keeps prior (State.slotSend s rid t) := by
  unfold State.slotSend
  repeat' first
    | with_reducible assumption
    | with_reducible exact keeps_refl _
    | with_reducible apply keeps_send
    | with_reducible apply keeps_sendUp
    | with_reducible apply keeps_count
    | with_reducible apply keeps_log
    | with_reducible apply keeps_setSlots
    | with_reducible apply keeps_endQid
    | (refine keeps_foldl ?_ (fun t a => ?_))
    | with_reducible apply keeps_ite

theorem keeps_slotTake {rid : ℕ} {t : Slot} {m : RedMsg} {lane : ℕ} {prior s : State} (hk : Keeps prior s) : Keeps prior (State.slotTake s rid t m lane) := by
  unfold State.slotTake
  with_reducible repeat' first | assumption | apply keeps_log | apply keeps_redDiscard | apply keeps_slotSend | apply keeps_setSlots | apply keeps_ite

theorem keeps_slotHold {m : RedMsg} {lane : ℕ} {prior s : State} (hk : Keeps prior s) : Keeps prior (State.slotHold s m lane) := by
  unfold State.slotHold
  repeat' first
    | with_reducible assumption
    | with_reducible apply keeps_log
    | with_reducible apply keeps_redDiscard
    | (with_reducible refine keeps_modUx ?_ ?_; rotate_left; (first | exact baseKeeps_refl _ | exact BaseKeeps.of_same rfl rfl rfl rfl rfl rfl))
    | with_reducible apply keeps_ite

theorem keeps_slotDown {rid : ℕ} {t : Slot} {m : RedMsg} {prior s : State} (hk : Keeps prior s) : Keeps prior (State.slotDown s rid t m) := by
  unfold State.slotDown
  repeat' first
    | with_reducible assumption
    | with_reducible exact keeps_refl _
    | with_reducible apply keeps_redDiscard
    | with_reducible apply keeps_send
    | with_reducible apply keeps_setSlots
    | (refine keeps_foldl ?_ (fun t a => ?_))
    | with_reducible apply keeps_ite

theorem keeps_slotOpen {o : QOp} {rid : ℕ} {opk : ℕ} {contributors : ℕ} {n : ℕ} {prior s : State} (hk : Keeps prior s) : Keeps prior (State.slotOpen s o rid opk contributors n) := by
  unfold State.slotOpen
  repeat' first
    | with_reducible assumption
    | with_reducible exact keeps_refl _
    | with_reducible apply keeps_endOp
    | with_reducible apply keeps_setSlots
    | (with_reducible refine keeps_modUx ?_ ?_; rotate_left; (first | exact baseKeeps_refl _ | exact BaseKeeps.of_same rfl rfl rfl rfl rfl rfl))
    | with_reducible apply keeps_slotTake
    | with_reducible apply keeps_slotHold
    | (refine keeps_foldl ?_ (fun t a => ?_))
    | with_reducible apply keeps_ite
    | split

theorem keeps_learnPort {lane : ℕ} {lsi : ℕ} {prior s : State} (hk : Keeps prior s) : Keeps prior (State.learnPort s lane lsi) := by
  unfold State.learnPort
  repeat' first
    | with_reducible assumption
    | (with_reducible refine keeps_modUx ?_ ?_; rotate_left; (first | exact baseKeeps_refl _ | exact BaseKeeps.of_same rfl rfl rfl rfl rfl rfl))
    | with_reducible apply keeps_ite

theorem keeps_setGroups {t : Tbl XGroup} {prior s : State} (hk : Keeps prior s) : Keeps prior (State.setGroups s t) := by
  unfold State.setGroups
  repeat' first
    | with_reducible assumption
    | (with_reducible refine keeps_modUx ?_ ?_; rotate_left; (first | exact baseKeeps_refl _ | exact BaseKeeps.of_same rfl rfl rfl rfl rfl rfl))

theorem keeps_groupPoints {g : XGroup} {maj : Option HistEntry} {prior s : State} (hk : Keeps prior s) : Keeps prior (State.groupPoints s g maj) := by
  unfold State.groupPoints
  repeat' first
    | with_reducible assumption
    | with_reducible exact keeps_refl _
    | with_reducible apply keeps_healthAdd
    | (refine keeps_foldl ?_ (fun t a => ?_))
    | with_reducible apply keeps_ite
    | split

theorem keeps_groupVerdict {rid : ℕ} {g : XGroup} {src : BitVec 32} {maj : Option HistEntry} {total : ℕ} {prior s : State} (hk : Keeps prior s) : Keeps prior (State.groupVerdict s rid g src maj total) := by
  unfold State.groupVerdict
  repeat' first
    | with_reducible assumption
    | with_reducible exact keeps_refl _
    | with_reducible apply keeps_send
    | with_reducible apply keeps_setGroups
    | with_reducible apply keeps_groupPoints
    | with_reducible apply keeps_endQid
    | (refine keeps_foldl ?_ (fun t a => ?_))

theorem keeps_groupCheck {rid : ℕ} {g : XGroup} {prior s : State} (hk : Keeps prior s) : Keeps prior (State.groupCheck s rid g) := by
  unfold State.groupCheck
  with_reducible repeat' first | assumption | apply keeps_setGroups | apply keeps_groupVerdict | apply keeps_sendUp | apply keeps_ite

theorem keeps_groupTake {rid : ℕ} {g : XGroup} {lane : ℕ} {step : Word} {m : XchkMsg} {prior s : State} (hk : Keeps prior s) : Keeps prior (State.groupTake s rid g lane step m) := by
  unfold State.groupTake
  with_reducible repeat' first | assumption | apply keeps_redDiscard | apply keeps_groupCheck | apply keeps_ite

theorem keeps_groupOpen {o : QOp} {rid : ℕ} {a : ℕ} {n : ℕ} {prior s : State} (hk : Keeps prior s) : Keeps prior (State.groupOpen s o rid a n) := by
  unfold State.groupOpen
  with_reducible repeat' first | assumption | apply keeps_endOp | apply keeps_groupCheck | apply keeps_ite

theorem keeps_membersChanged  {prior s : State} (hk : Keeps prior s) : Keeps prior (State.membersChanged s) := by
  unfold State.membersChanged
  repeat' first
    | with_reducible assumption
    | with_reducible exact keeps_refl _
    | with_reducible apply keeps_setNode
    | with_reducible apply keeps_nodeCheck
    | with_reducible apply keeps_groupCheck
    | (refine keeps_foldl ?_ (fun t a => ?_))
    | with_reducible apply keeps_ite

theorem keeps_setMembership {x : Subj} {code : ℕ} {prior s : State} (hk : Keeps prior s) : Keeps prior (State.setMembership s x code) := by
  unfold State.setMembership
  with_reducible repeat' first | assumption | apply keeps_setSubj | apply keeps_membersChanged | apply keeps_ite

theorem keeps_launchPay {x : ℕ} {prior s : State} (hk : Keeps prior s) : Keeps prior (State.launchPay s x) := by
  unfold State.launchPay
  with_reducible repeat' first | assumption | apply keeps_setCredit | apply keeps_modLane | apply keeps_ite

theorem keeps_launchJudge {m : LaunchMsg} {lane : ℕ} {prior s : State} (hk : Keeps prior s) : Keeps prior (State.launchJudge s m lane).1 := by
  unfold State.launchJudge
  extract_lets now lid no next diff t u
  have hno : ∀ t st, Keeps prior t → Keeps prior (no t st).1 := fun t st ht =>
    (keeps_count ht : Keeps prior (t.count .ux Reg.UX_LAUNCH_CNT_REFUSED 1))
  have ht : Keeps prior t := keeps_modUx (keeps_count hk) (baseKeeps_refl _)
  have hu : Keeps prior u := keeps_ite (keeps_setReg ht) ht
  clear_value u t no
  split
  · exact hk
  split
  · exact hk
  split
  · exact hno _ _ (keeps_log hk)
  split
  · exact hno _ _ (keeps_log hk)
  split
  · exact hno _ _ (keeps_logI hk)
  split
  · exact hno _ _ (keeps_logI hk)
  exact keeps_sendDown (keeps_foldl hu (fun x a => keeps_launchPay (keeps_refl _)))

theorem keeps_guardAdd  {prior s : State} (hk : Keeps prior s) : Keeps prior (State.guardAdd s) := by
  unfold State.guardAdd
  with_reducible repeat' first | assumption | apply keeps_put

theorem keeps_dlaunch {reports : List (ℕ × ℕ)} {prior s : State} (hk : Keeps prior s) : Keeps prior (State.dlaunch s reports) := by
  unfold State.dlaunch
  repeat' first
    | with_reducible assumption
    | (with_reducible refine keeps_modUx ?_ ?_; rotate_left; (first | exact baseKeeps_refl _ | exact BaseKeeps.of_same rfl rfl rfl rfl rfl rfl))
    | with_reducible apply keeps_put
    | with_reducible apply keeps_guardAdd
    | with_reducible apply keeps_toTwin
    | with_reducible apply keeps_sendUp
    | with_reducible apply keeps_ite

theorem keeps_hbmPut {a : ℕ} {bs : List Byte} {prior s : State} (hk : Keeps prior s) : Keeps prior (State.hbmPut s a bs) := by
  unfold State.hbmPut
  with_reducible repeat' first | assumption | apply keeps_memWrite

theorem keeps_setIndex {pos : ℕ} {i : LedgIndex} {prior s : State} (hk : Keeps prior s) : Keeps prior (State.setIndex s pos i) := by
  unfold State.setIndex
  with_reducible repeat' first | assumption | apply keeps_hbmPut

theorem keeps_ledgStore {lane : ℕ} {r : LedgerRec} {prior s : State} (hk : Keeps prior s) : Keeps prior (State.ledgStore s lane r) := by
  unfold State.ledgStore
  repeat' first
    | with_reducible assumption
    | with_reducible apply keeps_count
    | with_reducible apply keeps_hbmPut
    | with_reducible apply keeps_setIndex
    | with_reducible apply keeps_put
    | with_reducible apply keeps_log
    | (with_reducible refine keeps_modUx ?_ ?_; rotate_left; (first | exact baseKeeps_refl _ | exact BaseKeeps.of_same rfl rfl rfl rfl rfl rfl))
    | with_reducible apply keeps_ite

theorem keeps_ledgRollback {target : Word} {prior s : State} (hk : Keeps prior s) : Keeps prior (State.ledgRollback s target) := by
  unfold State.ledgRollback
  refine keeps_foldl hk (fun x a => ?_)
  extract_lets i
  exact keeps_ite (keeps_setIndex (keeps_refl _)) (keeps_refl _)

theorem keeps_chainLane {step : ℕ} {lane : ℕ} {prior s : State} (hk : Keeps prior s) : Keeps prior (State.chainLane s step lane) := by
  unfold State.chainLane
  extract_lets groups prev ds t u v
  clear_value groups prev ds
  split
  · exact hk
  have ht : Keeps prior t := keeps_foldl hk (fun x g => keeps_hbmPut (keeps_refl _))
  have hu : Keeps prior u.1 := keeps_foldl_fst ht (fun x d => keeps_hbmPut (keeps_refl _))
  have hv : Keeps prior v := keeps_foldl hu (fun x g => keeps_setIndex (keeps_refl _))
  clear_value v
  exact keeps_modUx hv (baseKeeps_refl _)

theorem keeps_chainStep {step : ℕ} {prior s : State} (hk : Keeps prior s) : Keeps prior (State.chainStep s step) := by
  unfold State.chainStep
  repeat' first
    | with_reducible assumption
    | with_reducible exact keeps_refl _
    | with_reducible apply keeps_chainLane
    | (refine keeps_foldl ?_ (fun t a => ?_))

theorem keeps_chainCheck {lane : ℕ} {step : ℕ} {prev : List Byte} {prior s : State} (hk : Keeps prior s) : Keeps prior (State.chainCheck s lane step prev) := by
  unfold State.chainCheck
  with_reducible repeat' first | assumption | apply keeps_put | apply keeps_log | apply keeps_ite

theorem keeps_chainVerify {lo : ℕ} {hi : ℕ} {prior s : State} (hk : Keeps prior s) : Keeps prior (State.chainVerify s lo hi) := by
  unfold State.chainVerify
  repeat' first
    | with_reducible assumption
    | with_reducible exact keeps_refl _
    | with_reducible apply keeps_chainCheck
    | (refine keeps_foldl ?_ (fun t a => ?_))
    | with_reducible apply keeps_ite

theorem keeps_ledgArchive {lo : Word} {hi : Word} {prior s : State} (hk : Keeps prior s) : Keeps prior (State.ledgArchive s lo hi) := by
  unfold State.ledgArchive
  repeat' first
    | with_reducible assumption
    | with_reducible apply keeps_chainVerify
    | (with_reducible refine keeps_modUx ?_ ?_; rotate_left; (first | exact baseKeeps_refl _ | exact BaseKeeps.of_same rfl rfl rfl rfl rfl rfl))
    | with_reducible apply keeps_setReg

theorem keeps_ledgTrim {step : Word} {prior s : State} (hk : Keeps prior s) : Keeps prior (State.ledgTrim s step) := by
  unfold State.ledgTrim
  refine keeps_modUx (keeps_foldl hk (fun x a => ?_)) (baseKeeps_refl _)
  extract_lets i
  exact keeps_ite (keeps_setIndex (keeps_refl _)) (keeps_refl _)

theorem keeps_lockDiverge {r : LedgerRec} {prior s : State} (hk : Keeps prior s) : Keeps prior (State.lockDiverge s r) := by
  unfold State.lockDiverge
  repeat' first
    | with_reducible assumption
    | with_reducible apply keeps_setReg
    | with_reducible apply keeps_put
    | with_reducible apply keeps_draw
    | with_reducible apply keeps_log
    | (extract_lets +onlyGivenNames x; refine (fun (hx : Keeps prior x.2) => ?_) ?_; clear_value x; rotate_left; subst x)
    | (extract_lets +onlyGivenNames x; clear_value x)
    | split

theorem keeps_lockCompare {n : Nat} {prior s : State} (hk : Keeps prior s) : Keeps prior (State.lockCompare n s) := by
  induction n generalizing s with
  | zero => exact hk
  | succ n ih =>
    unfold State.lockCompare
    split
    · refine keeps_ite (ih (keeps_modUx hk (baseKeeps_refl _))) (keeps_ite (ih (keeps_modUx hk (baseKeeps_refl _))) ?_)
      extract_lets t
      have ht : Keeps prior t := keeps_modUx hk (baseKeeps_refl _)
      clear_value t
      exact keeps_ite (ih (keeps_ite (keeps_modUx ht (baseKeeps_refl _)) ht)) (keeps_lockDiverge ht)
    · exact hk

theorem keeps_lockTake {lane : ℕ} {ord : ℕ} {r : LedgerRec} {prior s : State} (hk : Keeps prior s) : Keeps prior (State.lockTake s lane ord r) := by
  unfold State.lockTake
  repeat' first
    | with_reducible assumption
    | (with_reducible refine keeps_modUx ?_ ?_; rotate_left; (first | exact baseKeeps_refl _ | exact BaseKeeps.of_same rfl rfl rfl rfl rfl rfl))
    | with_reducible apply keeps_lockCompare
    | with_reducible apply keeps_ite

theorem keeps_learnLsi {lane : ℕ} {lsi : ℕ} {prior s : State} (hk : Keeps prior s) : Keeps prior (State.learnLsi s lane lsi) := by
  unfold State.learnLsi
  repeat' first
    | with_reducible assumption
    | (with_reducible refine keeps_modUx ?_ ?_; rotate_left; (first | exact baseKeeps_refl _ | exact BaseKeeps.of_same rfl rfl rfl rfl rfl rfl))
    | with_reducible apply keeps_setMember
    | with_reducible apply keeps_ite

theorem keeps_ledgTake {lane : ℕ} {ord : ℕ} {r : LedgerRec} {prior s : State} (hk : Keeps prior s) : Keeps prior (State.ledgTake s lane ord r) := by
  unfold State.ledgTake
  repeat' first
    | with_reducible assumption
    | (with_reducible refine keeps_modUx ?_ ?_; rotate_left; (first | exact baseKeeps_refl _ | exact BaseKeeps.of_same rfl rfl rfl rfl rfl rfl))
    | with_reducible apply keeps_learnLsi
    | with_reducible apply keeps_lockTake
    | with_reducible apply keeps_ledgStore
    | with_reducible apply keeps_ite

theorem keeps_lsealDone {step : Word} {prior s : State} (hk : Keeps prior s) : Keeps prior (State.lsealDone s step) := by
  unfold State.lsealDone
  repeat' first
    | with_reducible assumption
    | (with_reducible refine keeps_modUx ?_ ?_; rotate_left; (first | exact baseKeeps_refl _ | exact BaseKeeps.of_same rfl rfl rfl rfl rfl rfl))
    | with_reducible apply keeps_endAll

theorem keeps_sealPublish {step : Word} {prior s : State} (hk : Keeps prior s) : Keeps prior (State.sealPublish s step) := by
  unfold State.sealPublish
  repeat' first
    | with_reducible assumption
    | with_reducible apply keeps_setReg
    | (with_reducible refine keeps_modUx ?_ ?_; rotate_left; (first | exact baseKeeps_refl _ | exact BaseKeeps.of_same rfl rfl rfl rfl rfl rfl))
    | with_reducible apply keeps_sendDown
    | with_reducible apply keeps_log
    | with_reducible apply keeps_lsealDone

theorem keeps_sealTry {n : Nat} {prior s : State} (hk : Keeps prior s) : Keeps prior (State.sealTry n s) := by
  induction n generalizing s with
  | zero => exact hk
  | succ n ih => exact keeps_ite (ih (keeps_sealPublish (keeps_draw hk))) (keeps_draw hk)

theorem keeps_elSeal {step : Word} {prior s : State} (hk : Keeps prior s) : Keeps prior (State.elSeal s step) := by
  unfold State.elSeal
  with_reducible repeat' first | assumption | apply keeps_setReg | apply keeps_endAll | apply keeps_ite

theorem keeps_uxSeal {step : Word} {prior s : State} (hk : Keeps prior s) : Keeps prior (State.uxSeal s step) := by
  unfold State.uxSeal
  repeat' first
    | with_reducible assumption
    | (with_reducible refine keeps_modUx ?_ ?_; rotate_left; (first | exact baseKeeps_refl _ | exact BaseKeeps.of_same rfl rfl rfl rfl rfl rfl))
    | with_reducible apply keeps_sendDown
    | with_reducible apply keeps_chainStep
    | with_reducible apply keeps_lsealDone
    | with_reducible apply keeps_ite

theorem keeps_lsealOpen {o : QOp} {step : Word} {prior s : State} (hk : Keeps prior s) : Keeps prior (State.lsealOpen s o step) := by
  unfold State.lsealOpen
  repeat' first
    | with_reducible assumption
    | with_reducible apply keeps_endOp
    | (with_reducible refine keeps_modUx ?_ ?_; rotate_left; (first | exact baseKeeps_refl _ | exact BaseKeeps.of_same rfl rfl rfl rfl rfl rfl))
    | with_reducible apply keeps_sealTry
    | with_reducible apply keeps_ite

end Sys2Proof.Machine
end

