-- ==== Sys2Proof/Laws/KeepHead.lean ====
section
/-! SUPPORT. What each operation keeps (`Keeps`, `Tame`): the headcount, tree slots, vaults and the ends of queued operations. One lemma for each operation; `assumption` ends every chain at the state it began with. -/

namespace Sys2Proof.Machine

theorem keeps_setObs {x : Subj} {o : Obs} {prior s : State} (hk : Keeps prior s) : Keeps prior (State.setObs s x o) := by
  unfold State.setObs
  repeat' first
    | with_reducible assumption
    | (with_reducible refine keeps_modUx ?_ ?_; rotate_left; (first | exact baseKeeps_refl _ | exact BaseKeeps.of_same rfl rfl rfl rfl rfl rfl))

theorem keeps_hbHeard {x : Subj} {prior s : State} (hk : Keeps prior s) : Keeps prior (State.hbHeard s x) := by
  unfold State.hbHeard
  repeat' first
    | with_reducible assumption
    | with_reducible apply keeps_setObs
    | with_reducible apply keeps_put
    | (extract_lets +onlyGivenNames x; refine (fun (hx : Keeps prior x) => ?_) ?_; clear_value x; rotate_left; subst x)
    | split

theorem keeps_dropProposals {x : Subj} {prior s : State} (hk : Keeps prior s) : Keeps prior (State.dropProposals s x) := by
  unfold State.dropProposals
  repeat' first
    | with_reducible assumption
    | (with_reducible refine keeps_modUx ?_ ?_; rotate_left; (first | exact baseKeeps_refl _ | exact BaseKeeps.of_same rfl rfl rfl rfl rfl rfl))

theorem keeps_laneProbEnd {x : Subj} {prior s : State} (hk : Keeps prior s) : Keeps prior (State.laneProbEnd s x) := by
  unfold State.laneProbEnd
  repeat' first
    | with_reducible assumption
    | with_reducible apply keeps_put
    | split

theorem keeps_leaves {x : Subj} {code : ℕ} {prior s : State} (hk : Keeps prior s) : Keeps prior (State.leaves s x code) := by
  unfold State.leaves
  with_reducible repeat' first | assumption | apply keeps_setMembership | apply keeps_laneProbEnd

theorem keeps_suspect {x : Subj} {age : ℕ} {prior s : State} (hk : Keeps prior s) : Keeps prior (State.suspect s x age) := by
  unfold State.suspect
  with_reducible repeat' first | assumption | apply keeps_setMembership | apply keeps_log | apply keeps_setObs | apply keeps_toTwin | apply keeps_ite

theorem keeps_suspectLane {x : ℕ} {prior s : State} (hk : Keeps prior s) : Keeps prior (State.suspectLane s x) := by
  unfold State.suspectLane
  with_reducible repeat' first | assumption | apply keeps_suspect | apply keeps_ite

theorem keeps_nodesDiscard  {prior s : State} (hk : Keeps prior s) : Keeps prior (State.nodesDiscard s) := by
  unfold State.nodesDiscard
  repeat' first
    | with_reducible assumption
    | with_reducible exact keeps_refl _
    | with_reducible apply keeps_setNode
    | (refine keeps_foldl ?_ (fun t a => ?_))

theorem keeps_slotsDiscard  {prior s : State} (hk : Keeps prior s) : Keeps prior (State.slotsDiscard s) := by
  unfold State.slotsDiscard
  repeat' first
    | with_reducible assumption
    | with_reducible exact keeps_refl _
    | with_reducible apply keeps_setSlots
    | with_reducible apply keeps_setGroups
    | (with_reducible refine keeps_modUx ?_ ?_; rotate_left; (first | exact baseKeeps_refl _ | exact BaseKeeps.of_same rfl rfl rfl rfl rfl rfl))
    | with_reducible apply keeps_endQid
    | (refine keeps_foldl ?_ (fun t a => ?_))

theorem keeps_uxRollback {target : Word} {prior s : State} (hk : Keeps prior s) : Keeps prior (State.uxRollback s target) := by
  unfold State.uxRollback
  repeat' first
    | with_reducible assumption
    | with_reducible apply keeps_nodesDiscard
    | with_reducible apply keeps_slotsDiscard
    | with_reducible apply keeps_manDisarm
    | with_reducible apply keeps_ledgRollback
    | with_reducible apply keeps_lockClear
    | (with_reducible refine keeps_modUx ?_ ?_; rotate_left; (first | exact baseKeeps_refl _ | exact BaseKeeps.of_same rfl rfl rfl rfl rfl rfl))
    | with_reducible apply keeps_ite

theorem keeps_spareMark {i : ℕ} {st : ℕ} {prior s : State} (hk : Keeps prior s) : Keeps prior (State.spareMark s i st) := by
  unfold State.spareMark
  with_reducible repeat' first | assumption | apply keeps_hbmPut

theorem keeps_sparesShow  {prior s : State} (hk : Keeps prior s) : Keeps prior (State.sparesShow s) := by
  unfold State.sparesShow
  with_reducible repeat' first | assumption | apply keeps_put | apply keeps_log | apply keeps_ite

theorem keeps_hallStandby {pdi : ℕ} {prior s : State} (hk : Keeps prior s) : Keeps prior (State.hallStandby s pdi).2 := by
  unfold State.hallStandby
  repeat' first
    | with_reducible assumption
    | with_reducible apply keeps_draw
    | (extract_lets +onlyGivenNames x; refine (fun (hx : Keeps prior x.2) => ?_) ?_; clear_value x; rotate_left; subst x)
    | split

theorem keeps_spareScan {ok : Nat → Bool} {is : List Nat} {prior s : State} (hk : Keeps prior s) : Keeps prior (State.spareScan ok is s).2 := by
  induction is generalizing s with
  | nil => exact hk
  | cons i is ih =>
    unfold State.spareScan
    extract_lets v r
    have hr : Keeps prior r.2 := keeps_hallStandby hk
    clear_value r
    split
    · exact ih hk
    · split
      · exact keeps_spareMark hr
      · exact ih (keeps_spareMark hr)

theorem keeps_sparePick {dom : ℕ} {priv : Bool} {prior s : State} (hk : Keeps prior s) : Keeps prior (State.sparePick s dom priv).2 := by
  unfold State.sparePick
  repeat' first
    | with_reducible assumption
    | with_reducible apply keeps_draw
    | with_reducible apply keeps_spareScan
    | with_reducible apply keeps_sparesShow
    | split

theorem keeps_spareAppend {pdi : ℕ} {prior s : State} (hk : Keeps prior s) : Keeps prior (State.spareAppend s pdi) := by
  unfold State.spareAppend
  with_reducible repeat' first | assumption | apply keeps_log | apply keeps_hbmPut | apply keeps_put | apply keeps_ite

theorem keeps_tpSend {bs : List Byte} {prior s : State} (hk : Keeps prior s) : Keeps prior (State.tpSend s bs) := by
  unfold State.tpSend
  repeat' first
    | with_reducible assumption
    | (with_reducible refine keeps_modUx ?_ ?_; rotate_left; (first | exact baseKeeps_refl _ | exact BaseKeeps.of_same rfl rfl rfl rfl rfl rfl))

theorem keeps_pathSend1 {pathset : ℕ} {i : ℕ} {prior s : State} (hk : Keeps prior s) : Keeps prior (State.pathSend1 s pathset i) := by
  unfold State.pathSend1
  repeat' first
    | with_reducible assumption
    | with_reducible apply keeps_draw
    | with_reducible apply keeps_tpSend
    | (with_reducible refine keeps_modUx ?_ ?_; rotate_left; (first | exact baseKeeps_refl _ | exact BaseKeeps.of_same rfl rfl rfl rfl rfl rfl))

theorem keeps_pathShow {pathset : ℕ} {status : ℕ} {prior s : State} (hk : Keeps prior s) : Keeps prior (State.pathShow s pathset status) := by
  unfold State.pathShow
  with_reducible repeat' first | assumption | apply keeps_put

theorem keeps_modRb {f : Rollback → Rollback} {prior s : State} (hk : Keeps prior s) : Keeps prior (State.modRb s f) := by
  unfold State.modRb
  repeat' first
    | with_reducible assumption
    | (with_reducible refine keeps_modUx ?_ ?_; rotate_left; (first | exact baseKeeps_refl _ | exact BaseKeeps.of_same rfl rfl rfl rfl rfl rfl))

theorem keeps_rbOpen {obj : ℕ} {prior s : State} (hk : Keeps prior s) : Keeps prior (State.rbOpen s obj) := by
  unfold State.rbOpen
  repeat' first
    | with_reducible assumption
    | (with_reducible refine keeps_modUx ?_ ?_; rotate_left; (first | exact baseKeeps_refl _ | exact BaseKeeps.of_same rfl rfl rfl rfl rfl rfl))
    | with_reducible apply keeps_put
    | with_reducible apply keeps_log
    | with_reducible apply keeps_uxRollback
    | with_reducible apply keeps_ite

theorem keeps_rbSend  {prior s : State} (hk : Keeps prior s) : Keeps prior (State.rbSend s) := by
  unfold State.rbSend
  repeat' first
    | with_reducible assumption
    | with_reducible apply keeps_sendDown
    | with_reducible apply keeps_toTwin
    | split

theorem keeps_rbFail  {prior s : State} (hk : Keeps prior s) : Keeps prior (State.rbFail s) := by
  unfold State.rbFail
  with_reducible repeat' first | assumption | apply keeps_rbOpen | apply keeps_rbSend | apply keeps_ite

theorem keeps_rbTry  {prior s : State} (hk : Keeps prior s) : Keeps prior (State.rbTry s) := by
  unfold State.rbTry
  repeat' first
    | with_reducible assumption
    | with_reducible apply keeps_draw
    | with_reducible apply keeps_modRb
    | (with_reducible refine keeps_mod ?_ ?_; rotate_left; exact BaseKeeps.of_same rfl rfl rfl rfl rfl rfl)
    | with_reducible apply keeps_sendDown
    | with_reducible apply keeps_toTwin
    | with_reducible apply keeps_ite
    | (extract_lets +onlyGivenNames x; refine (fun (hx : Keeps prior x) => ?_) ?_; clear_value x; rotate_left; subst x)
    | (extract_lets +onlyGivenNames x; clear_value x)
    | split

theorem keeps_rbReadyTake {pdi : ℕ} {prior s : State} (hk : Keeps prior s) : Keeps prior (State.rbReadyTake s pdi) := by
  unfold State.rbReadyTake
  with_reducible repeat' first | assumption | apply keeps_modRb | apply keeps_rbTry | apply keeps_ite

theorem keeps_lsiOfDie {pdi : ℕ} {prior s : State} (hk : Keeps prior s) : Keeps prior (State.lsiOfDie s pdi).2 := by
  unfold State.lsiOfDie
  repeat' first
    | with_reducible assumption
    | with_reducible apply keeps_draw
    | (extract_lets +onlyGivenNames x; refine (fun (hx : Keeps prior x.2) => ?_) ?_; clear_value x; rotate_left; subst x)
    | split

theorem keeps_dieOfLsi {lsi : ℕ} {prior s : State} (hk : Keeps prior s) : Keeps prior (State.dieOfLsi s lsi).2 := by
  unfold State.dieOfLsi
  repeat' first
    | with_reducible assumption
    | with_reducible apply keeps_draw
    | (extract_lets +onlyGivenNames x; refine (fun (hx : Keeps prior x.2) => ?_) ?_; clear_value x; rotate_left; subst x)
    | split

theorem keeps_shrink {pdi : ℕ} {prior s : State} (hk : Keeps prior s) : Keeps prior (State.shrink s pdi) := by
  unfold State.shrink
  repeat' first
    | with_reducible assumption
    | with_reducible exact keeps_refl _
    | with_reducible apply keeps_lsiOfDie
    | with_reducible apply keeps_draw
    | with_reducible apply keeps_dieOfLsi
    | with_reducible apply keeps_leaves
    | with_reducible apply keeps_modRb
    | with_reducible apply keeps_spareAppend
    | (with_reducible refine keeps_modUx ?_ ?_; rotate_left; (first | exact baseKeeps_refl _ | exact BaseKeeps.of_same rfl rfl rfl rfl rfl rfl))
    | with_reducible apply keeps_sparesShow
    | (refine keeps_foldl ?_ (fun t a => ?_))
    | with_reducible apply keeps_ite

theorem keeps_chipLost {x : Subj} {prior s : State} (hk : Keeps prior s) : Keeps prior (State.chipLost s x) := by
  unfold State.chipLost
  with_reducible repeat' first | assumption | apply keeps_leaves | apply keeps_vaultLost | apply keeps_ite

theorem keeps_decisionApply {x : Subj} {kind : ℕ} {arg0 : ℕ} {prior s : State} (hk : Keeps prior s) : Keeps prior (State.decisionApply s x kind arg0) := by
  unfold State.decisionApply
  repeat' first
    | with_reducible assumption
    | with_reducible apply keeps_dropProposals
    | with_reducible apply keeps_leaves
    | with_reducible apply keeps_modRb
    | with_reducible apply keeps_chipLost
    | (with_reducible refine keeps_modUx ?_ ?_; rotate_left; (first | exact baseKeeps_refl _ | exact BaseKeeps.of_same rfl rfl rfl rfl rfl rfl))
    | with_reducible apply keeps_shrink
    | with_reducible apply keeps_stage
    | with_reducible apply keeps_ite

theorem keeps_publish {x : Subj} {kind : ℕ} {arg0 : ℕ} {rolls : Bool} {prior s : State} (hk : Keeps prior s) : Keeps prior (State.publish s x kind arg0 rolls) := by
  unfold State.publish
  with_reducible repeat' first | assumption | apply keeps_put | apply keeps_log | apply keeps_rbOpen | apply keeps_sendDown | apply keeps_toTwin | apply keeps_rbSend | apply keeps_decisionApply | apply keeps_ite

theorem keeps_budgetAdd {dom : ℕ} {prior s : State} (hk : Keeps prior s) : Keeps prior (State.budgetAdd s dom) := by
  unfold State.budgetAdd
  repeat' first
    | with_reducible assumption
    | (with_reducible refine keeps_modUx ?_ ?_; rotate_left; (first | exact baseKeeps_refl _ | exact BaseKeeps.of_same rfl rfl rfl rfl rfl rfl))

theorem keeps_rbNeed {pdi : ℕ} {kind : ℕ} {f : Fld} {prior s : State} (hk : Keeps prior s) : Keeps prior (State.rbNeed s pdi kind f) := by
  unfold State.rbNeed
  with_reducible repeat' first | assumption | apply keeps_modRb | apply keeps_put

theorem keeps_assign {x : Subj} {v : ℕ} {prior s : State} (hk : Keeps prior s) : Keeps prior (State.assign s x v) := by
  unfold State.assign
  repeat' first
    | with_reducible assumption
    | with_reducible exact keeps_refl _
    | with_reducible apply keeps_publish
    | with_reducible apply keeps_modRb
    | with_reducible apply keeps_pathSend1
    | (refine keeps_foldl ?_ (fun t a => ?_))
    | with_reducible apply keeps_ite

theorem keeps_deadInfo {pdi : ℕ} {prior s : State} (hk : Keeps prior s) : Keeps prior (State.deadInfo s pdi).2 := by
  unfold State.deadInfo
  repeat' first
    | with_reducible assumption
    | with_reducible apply keeps_draw
    | (extract_lets +onlyGivenNames x; refine (fun (hx : Keeps prior x.2) => ?_) ?_; clear_value x; rotate_left; subst x)
    | split

theorem keeps_vaultsLost  {prior s : State} (hk : Keeps prior s) : Keeps prior (State.vaultsLost s) := by
  unfold State.vaultsLost
  repeat' first
    | with_reducible assumption
    | with_reducible exact keeps_refl _
    | with_reducible apply keeps_deadInfo
    | with_reducible apply keeps_draw
    | with_reducible apply keeps_modRb
    | with_reducible apply keeps_publish
    | with_reducible apply keeps_rbNeed
    | with_reducible apply keeps_log
    | (refine keeps_foldl ?_ (fun t a => ?_))
    | with_reducible apply keeps_ite
    | split

theorem keeps_decideOn {x : Subj} {dom : ℕ} {prior s : State} (hk : Keeps prior s) : Keeps prior (State.decideOn s x dom) := by
  unfold State.decideOn
  repeat' first
    | with_reducible assumption
    | with_reducible apply keeps_draw
    | with_reducible apply keeps_budgetAdd
    | (with_reducible refine keeps_modUx ?_ ?_; rotate_left; (first | exact baseKeeps_refl _ | exact BaseKeeps.of_same rfl rfl rfl rfl rfl rfl))
    | with_reducible apply keeps_publish
    | with_reducible apply keeps_rbNeed
    | with_reducible apply keeps_log
    | with_reducible apply keeps_sparePick
    | with_reducible apply keeps_assign
    | with_reducible apply keeps_rbTry
    | with_reducible apply keeps_put
    | with_reducible apply keeps_vaultsLost
    | with_reducible apply keeps_ite
    | (extract_lets +onlyGivenNames x; refine (fun (hx : Keeps prior x) => ?_) ?_; clear_value x; rotate_left; subst x)
    | (extract_lets +onlyGivenNames x; refine (fun (hx : Keeps prior x.2) => ?_) ?_; clear_value x; rotate_left; subst x)
    | (extract_lets +onlyGivenNames x; clear_value x)
    | split

theorem keeps_serveWait {n : Nat} {prior s : State} (hk : Keeps prior s) : Keeps prior (State.serveWait n s) := by
  induction n generalizing s with
  | zero => exact hk
  | succ n ih =>
    unfold State.serveWait
    split
    · split
      · exact hk
      · extract_lets i q
        have hi : Keeps prior i.2 := keeps_deadInfo hk
        have hq : Keeps prior q.2 := keeps_sparePick hi
        clear_value q i
        split
        · exact hq
        · extract_lets t
          have ht : Keeps prior t := keeps_assign (keeps_modRb hq)
          clear_value t
          exact ih (keeps_ite ht (keeps_put ht))
    · exact hk

theorem keeps_spareEvent  {prior s : State} (hk : Keeps prior s) : Keeps prior (State.spareEvent s) := by
  unfold State.spareEvent
  with_reducible repeat' first | assumption | apply keeps_sparesShow | apply keeps_serveWait | apply keeps_ite

theorem keeps_putProposal {q : Proposal} {prior s : State} (hk : Keeps prior s) : Keeps prior (State.putProposal s q) := by
  unfold State.putProposal
  repeat' first
    | with_reducible assumption
    | with_reducible apply keeps_dropProposals
    | (with_reducible refine keeps_modUx ?_ ?_; rotate_left; (first | exact baseKeeps_refl _ | exact BaseKeeps.of_same rfl rfl rfl rfl rfl rfl))

theorem keeps_settle {x : Subj} {dom : ℕ} {prior s : State} (hk : Keeps prior s) : Keeps prior (State.settle s x dom) := by
  unfold State.settle
  repeat' first
    | with_reducible assumption
    | with_reducible apply keeps_dropProposals
    | (with_reducible refine keeps_modUx ?_ ?_; rotate_left; (first | exact baseKeeps_refl _ | exact BaseKeeps.of_same rfl rfl rfl rfl rfl rfl))
    | with_reducible apply keeps_decideOn

theorem keeps_quorum {x : Subj} {prior s : State} (hk : Keeps prior s) : Keeps prior (State.quorum s x) := by
  unfold State.quorum
  repeat' first
    | with_reducible assumption
    | with_reducible apply keeps_settle
    | with_reducible apply keeps_ite
    | split

theorem keeps_addYes {x : Subj} {voter : Subj} {m : Option ProposeMsg} {prior s : State} (hk : Keeps prior s) : Keeps prior (State.addYes s x voter m) := by
  unfold State.addYes
  with_reducible repeat' first | assumption | apply keeps_putProposal | apply keeps_quorum

theorem keeps_proposalTake {m : ProposeMsg} {prior s : State} (hk : Keeps prior s) : Keeps prior (State.proposalTake s m) := by
  unfold State.proposalTake
  with_reducible repeat' first | assumption | apply keeps_addYes | apply keeps_log | apply keeps_settle | apply keeps_ite

theorem keeps_propose {x : Subj} {hard : Bool} {ageP : ℕ} {ageT : ℕ} {prior s : State} (hk : Keeps prior s) : Keeps prior (State.propose s x hard ageP ageT) := by
  unfold State.propose
  with_reducible repeat' first | assumption | apply keeps_proposeOwn | apply keeps_quorum

theorem keeps_dieMember {code : ℕ} {prior s : State} (hk : Keeps prior s) : Keeps prior (State.dieMember s code) := by
  unfold State.dieMember
  with_reducible repeat' first | assumption | apply keeps_setMember | apply keeps_put | apply keeps_ite

theorem keeps_standbyJoin  {prior s : State} (hk : Keeps prior s) : Keeps prior (State.standbyJoin s) := by
  unfold State.standbyJoin
  with_reducible repeat' first | assumption | apply keeps_dieMember | apply keeps_ite

theorem keeps_elRbCommit  {prior s : State} (hk : Keeps prior s) : Keeps prior (State.elRbCommit s) := by
  unfold State.elRbCommit
  repeat' first
    | with_reducible assumption
    | (with_reducible refine keeps_mod ?_ ?_; rotate_left; exact BaseKeeps.of_same rfl rfl rfl rfl rfl rfl)
    | with_reducible apply keeps_commitFail
    | with_reducible apply keeps_checkFail
    | with_reducible apply keeps_commitAll
    | with_reducible apply keeps_clearPoint
    | with_reducible apply keeps_put
    | (with_reducible refine keeps_modEl ?_ ?_ ?_ ?_; rotate_left; (first | exact baseKeeps_refl _ | exact BaseKeeps.of_same rfl rfl rfl rfl rfl rfl); rfl; exact id)
    | with_reducible apply keeps_modGuard
    | with_reducible apply keeps_standbyJoin
    | with_reducible apply keeps_ite
    | (extract_lets +onlyGivenNames x; refine (fun (hx : Keeps prior x) => ?_) ?_; clear_value x; rotate_left; subst x)
    | split

theorem keeps_uxRbCommit {tc : ℕ} {prior s : State} (hk : Keeps prior s) : Keeps prior (State.uxRbCommit s tc) := by
  unfold State.uxRbCommit
  repeat' first
    | with_reducible assumption
    | with_reducible exact keeps_refl _
    | (with_reducible refine keeps_mod ?_ ?_; rotate_left; exact BaseKeeps.of_same rfl rfl rfl rfl rfl rfl)
    | with_reducible apply keeps_commitNow
    | with_reducible apply keeps_setMember
    | (with_reducible refine keeps_modUx ?_ ?_; rotate_left; (first | exact baseKeeps_refl _ | exact BaseKeeps.of_same rfl rfl rfl rfl rfl rfl))
    | with_reducible apply keeps_setReg
    | with_reducible apply keeps_sealNextCommit
    | with_reducible apply keeps_put
    | with_reducible apply keeps_log
    | (refine keeps_foldl ?_ (fun t a => ?_))
    | with_reducible apply keeps_ite
    | (extract_lets +onlyGivenNames x; refine (fun (hx : Keeps prior x) => ?_) ?_; clear_value x; rotate_left; subst x)
    | (extract_lets +onlyGivenNames x; clear_value x)
    | split

theorem tame_barNodeArrival {lane : Fin 160} {pos : Fin 128} {m : BarArrive} {prior s : State} (hk : Keeps prior s) : Tame prior (execBarNodeArrival lane pos m s) := by
  unfold execBarNodeArrival
  with_reducible repeat' first | assumption | apply tame_next | apply keeps_nodeArrive | apply keeps_ite

theorem tame_barRelease {p : Part} {bid : BitVec 8} {m : BarClose} {prior s : State} (hk : Keeps prior s) : Tame prior (execBarRelease p bid m s) := by
  unfold execBarRelease
  repeat' first
    | with_reducible assumption
    | with_reducible apply tame_next
    | with_reducible apply keeps_barRelease
    | with_reducible apply keeps_log
    | with_reducible apply keeps_send
    | with_reducible apply keeps_nodeRelease
    | with_reducible apply keeps_nodeCheck
    | with_reducible apply keeps_ite
    | (extract_lets +onlyGivenNames x; clear_value x)
    | split

theorem tame_barRefusal {p : Part} {bid : BitVec 8} {m : BarClose} {prior s : State} (hk : Keeps prior s) : Tame prior (execBarRefusal p bid m s) := by
  unfold execBarRefusal
  repeat' first
    | with_reducible assumption
    | with_reducible apply tame_next
    | with_reducible apply keeps_barRefuse
    | with_reducible apply keeps_send
    | with_reducible apply keeps_nodeRefuse
    | with_reducible apply keeps_ite
    | (extract_lets +onlyGivenNames x; clear_value x)
    | split

theorem tame_barNodeTimeout {bid : BitVec 8} {prior s : State} (hk : Keeps prior s) : Tame prior (execBarNodeTimeout bid s) := by
  unfold execBarNodeTimeout
  repeat' first
    | with_reducible assumption
    | with_reducible exact keeps_refl _
    | with_reducible apply tame_next
    | with_reducible apply keeps_suspectLane
    | with_reducible apply keeps_log
    | with_reducible apply keeps_setNode
    | with_reducible apply keeps_endQid
    | (refine keeps_foldl ?_ (fun t a => ?_))
    | with_reducible apply tame_ite
    | split

theorem tame_launchRequest {m : LaunchMsg} {lane : Fin 160} {prior s : State} (hk : Keeps prior s) : Tame prior (execLaunchRequest m lane s) := by
  unfold execLaunchRequest
  with_reducible repeat' first | assumption | apply tame_next | apply keeps_learnPort | apply keeps_launchJudge | apply keeps_send | apply keeps_relayNote | apply keeps_toTwin | apply keeps_sendUp | apply tame_ite

theorem tame_dlaunchRecompute {reports : List (Fin 160 × BitVec 32)} {prior s : State} (hk : Keeps prior s) : Tame prior (execDlaunchRecompute reports s) := by
  unfold execDlaunchRecompute
  with_reducible repeat' first | assumption | apply tame_next | apply keeps_dlaunch

theorem tame_reductionContribution {m : RedMsg} {lane : Fin 160} {prior s : State} (hk : Keeps prior s) : Tame prior (execReductionContribution m lane s) := by
  unfold execReductionContribution
  repeat' first
    | with_reducible assumption
    | with_reducible apply tame_next
    | with_reducible apply keeps_redDiscard
    | with_reducible apply keeps_slotDown
    | with_reducible apply keeps_slotTake
    | with_reducible apply keeps_slotHold
    | with_reducible apply keeps_ite
    | split

theorem tame_slotHeldExpiry {cluster : Fin 4} {idx : ℕ} {prior s : State} (hk : Keeps prior s) : Tame prior (execSlotHeldExpiry cluster idx s) := by
  unfold execSlotHeldExpiry
  repeat' first
    | with_reducible assumption
    | with_reducible apply tame_next
    | (with_reducible refine keeps_modUx ?_ ?_; rotate_left; (first | exact baseKeeps_refl _ | exact BaseKeeps.of_same rfl rfl rfl rfl rfl rfl))
    | with_reducible apply keeps_log
    | with_reducible apply keeps_redDiscard
    | split

theorem tame_slotTimeout {p : Part} {key : ℕ} {prior s : State} (hk : Keeps prior s) : Tame prior (execSlotTimeout p key s) := by
  unfold execSlotTimeout
  repeat' first
    | with_reducible assumption
    | with_reducible apply tame_next
    | with_reducible apply keeps_endOp
    | with_reducible apply keeps_log
    | with_reducible apply keeps_setSlots
    | with_reducible apply keeps_endQid
    | with_reducible apply keeps_setGroups
    | with_reducible apply keeps_ite
    | split

theorem tame_xchkContribution {rid : BitVec 12} {lane : Fin 160} {m : XchkUp} {prior s : State} (hk : Keeps prior s) : Tame prior (execXchkContribution rid lane m s) := by
  unfold execXchkContribution
  repeat' first
    | with_reducible assumption
    | with_reducible apply tame_next
    | with_reducible apply keeps_groupTake
    | with_reducible apply keeps_redDiscard
    | with_reducible apply keeps_ite
    | split

theorem keeps_xchkVerdict {o : QOp} {own : HistEntry} {maj : Option HistEntry} {prior s : State} (hk : Keeps prior s) : Keeps prior (State.xchkVerdict s o own maj) := by
  unfold State.xchkVerdict
  extract_lets bad
  have hb : ∀ code vb, Keeps prior (bad code vb) := fun code vb =>
    keeps_endOp (keeps_checkFail (keeps_suspMismatch (keeps_log (keeps_count (keeps_put hk)))))
  clear_value bad
  split
  · exact hb _ _
  · exact keeps_ite (keeps_endOp (keeps_suspOk hk)) (hb _ _)

theorem tame_xchkBroadcast {rid : BitVec 12} {m : XchkDown} {prior s : State} (hk : Keeps prior s) : Tame prior (execXchkBroadcast rid m s) := by
  unfold execXchkBroadcast
  repeat' first
    | with_reducible assumption
    | with_reducible apply tame_next
    | with_reducible apply keeps_groupVerdict
    | with_reducible apply keeps_xchkVerdict
    | with_reducible apply keeps_ite
    | split

theorem tame_chkerrReport {tag : BitVec 32} {_mover : BitVec 4} {prior s : State} (hk : Keeps prior s) : Tame prior (execChkerrReport tag _mover s) := by
  unfold execChkerrReport
  with_reducible repeat' first | assumption | apply tame_next | apply keeps_put | apply keeps_count | apply keeps_log | apply keeps_checkFail

theorem tame_ledgerRecords {lane : Fin 128} {ord : BitVec 32} {recs : List LedgerRec} {prior s : State} (hk : Keeps prior s) : Tame prior (execLedgerRecords lane ord recs s) := by
  unfold execLedgerRecords
  refine tame_ite (tame_next hk) (tame_next (keeps_send (keeps_foldl_fst hk (fun x a => ?_))))
  exact keeps_ledgTake (keeps_refl _)

theorem tame_lockRearm  {prior s : State} (hk : Keeps prior s) : Tame prior (execLockRearm s) := by
  unfold execLockRearm
  with_reducible repeat' first | assumption | apply tame_next | apply keeps_put | apply keeps_lockClear

theorem tame_passVote {lane : Fin 160} {v : SealVote} {prior s : State} (hk : Keeps prior s) : Tame prior (execPassVote lane v s) := by
  unfold execPassVote
  repeat' first
    | with_reducible assumption
    | with_reducible apply tame_next
    | with_reducible apply keeps_learnPort
    | with_reducible apply keeps_sendUp
    | (with_reducible refine keeps_modUx ?_ ?_; rotate_left; (first | exact baseKeeps_refl _ | exact BaseKeeps.of_same rfl rfl rfl rfl rfl rfl))
    | with_reducible apply keeps_sealTry
    | with_reducible apply tame_ite

theorem tame_failMessage {lane : Fin 160} {v : SealVote} {prior s : State} (hk : Keeps prior s) : Tame prior (execFailMessage lane v s) := by
  unfold execFailMessage
  with_reducible repeat' first | assumption | apply tame_next | apply keeps_sendUp | apply keeps_put | apply keeps_rbFail | apply keeps_ite | apply tame_ite

theorem tame_sealMessage {p : Part} {step : Word} {prior s : State} (hk : Keeps prior s) : Tame prior (execSealMessage p step s) := by
  unfold execSealMessage
  repeat' first
    | with_reducible assumption
    | with_reducible apply tame_next
    | with_reducible apply keeps_elSeal
    | with_reducible apply keeps_uxSeal
    | split

theorem tame_ledgVerify  {prior s : State} (hk : Keeps prior s) : Tame prior (execLedgVerify s) := by
  unfold execLedgVerify
  with_reducible repeat' first | assumption | apply tame_next | apply keeps_chainVerify

theorem tame_ledgChainReset  {prior s : State} (hk : Keeps prior s) : Tame prior (execLedgChainReset s) := by
  unfold execLedgChainReset
  repeat' first
    | with_reducible assumption
    | with_reducible apply tame_next
    | (with_reducible refine keeps_modUx ?_ ?_; rotate_left; (first | exact baseKeeps_refl _ | exact BaseKeeps.of_same rfl rfl rfl rfl rfl rfl))

theorem keeps_setVault {die : ℕ} {v : VGen} {prior s : State} (hk : Keeps prior s) : Keeps prior (State.setVault s die v) := by
  unfold State.setVault
  repeat' first
    | with_reducible assumption
    | (with_reducible refine keeps_modUx ?_ ?_; rotate_left; (first | exact baseKeeps_refl _ | exact BaseKeeps.of_same rfl rfl rfl rfl rfl rfl))

theorem keeps_vaultFail {die : ℕ} {step : Word} {prior s : State} (hk : Keeps prior s) : Keeps prior (State.vaultFail s die step) := by
  unfold State.vaultFail
  with_reducible repeat' first | assumption | apply keeps_lsiOfDie | apply keeps_sendUp

theorem keeps_vaultEnd {die : ℕ} {prior s : State} (hk : Keeps prior s) : Keeps prior (State.vaultEnd s die) := by
  unfold State.vaultEnd
  repeat' first
    | with_reducible assumption
    | with_reducible apply keeps_setVault
    | with_reducible apply keeps_put
    | with_reducible apply keeps_log
    | with_reducible apply keeps_vaultFail
    | with_reducible apply keeps_endQid
    | with_reducible apply keeps_ite
    | (extract_lets +onlyGivenNames x; refine (fun (hx : Keeps prior x) => ?_) ?_; clear_value x; rotate_left; subst x)
    | (extract_lets +onlyGivenNames x; clear_value x)
    | split

theorem keeps_vgen {o : QOp} {die : ℕ} {step : Word} {prior s : State} (hk : Keeps prior s) : Keeps prior (State.vgen s o die step) := by
  unfold State.vgen
  with_reducible repeat' first | assumption | apply keeps_setVault | apply keeps_unmirrored | apply keeps_vaultEnd

theorem keeps_vseal {o : QOp} {step : Word} {prior s : State} (hk : Keeps prior s) : Keeps prior (State.vseal s o step) := by
  unfold State.vseal
  repeat' first
    | with_reducible assumption
    | (with_reducible refine keeps_modUx ?_ ?_; rotate_left; (first | exact baseKeeps_refl _ | exact BaseKeeps.of_same rfl rfl rfl rfl rfl rfl))
    | with_reducible apply keeps_unmirrored
    | with_reducible apply keeps_endOp
    | with_reducible apply keeps_ite

theorem keeps_vcmp {o : QOp} {die : ℕ} {step : Word} {prior s : State} (hk : Keeps prior s) : Keeps prior (State.vcmp s o die step) := by
  unfold State.vcmp
  with_reducible repeat' first | assumption | apply keeps_draw | apply keeps_endOp | apply keeps_put | apply keeps_log | apply keeps_vaultFail | apply keeps_ite

theorem keeps_restoreRoute {m : VaultMsg} {prior s : State} (hk : Keeps prior s) : Keeps prior (State.restoreRoute s m) := by
  unfold State.restoreRoute
  repeat' first
    | with_reducible assumption
    | with_reducible apply keeps_send
    | with_reducible apply keeps_sendUp
    | split

theorem keeps_vrest {die : ℕ} {lane : ℕ} {prior s : State} (hk : Keeps prior s) : Keeps prior (State.vrest s die lane) := by
  unfold State.vrest
  repeat' first
    | with_reducible assumption
    | with_reducible exact keeps_refl _
    | with_reducible apply keeps_restoreRoute
    | (refine keeps_foldl ?_ (fun t a => ?_))

theorem keeps_vdrop {o : QOp} {die : ℕ} {prior s : State} (hk : Keeps prior s) : Keeps prior (State.vdrop s o die) := by
  unfold State.vdrop
  with_reducible repeat' first | assumption | apply keeps_setVault | apply keeps_unmirrored | apply keeps_endOp

theorem keeps_mirrorForward {m : VaultMsg} {prior s : State} (hk : Keeps prior s) : Keeps prior (State.mirrorForward s m) := by
  unfold State.mirrorForward
  repeat' first
    | with_reducible assumption
    | with_reducible exact keeps_refl _
    | with_reducible apply keeps_toTwin
    | with_reducible apply keeps_send
    | (with_reducible refine keeps_modUx ?_ ?_; rotate_left; (first | exact baseKeeps_refl _ | exact BaseKeeps.of_same rfl rfl rfl rfl rfl rfl))
    | (refine keeps_foldl ?_ (fun t a => ?_))
    | with_reducible apply keeps_ite

theorem keeps_mirrorTake {x : ℕ} {m : VaultMsg} {prior s : State} (hk : Keeps prior s) : Keeps prior (State.mirrorTake s x m) := by
  unfold State.mirrorTake
  with_reducible repeat' first | assumption | apply keeps_setVault | apply keeps_unmirrored | apply keeps_vaultEnd | apply keeps_ite

theorem tame_vaultMessage {lane : Fin 160} {m : VaultMsg} {prior s : State} (hk : Keeps prior s) : Tame prior (execVaultMessage lane m s) := by
  unfold execVaultMessage
  with_reducible repeat' first | assumption | apply tame_next | apply keeps_modLane | apply keeps_restoreRoute | apply keeps_toTwin | apply keeps_sendUp | apply keeps_mirrorTake | apply keeps_mirrorForward | apply keeps_ite

theorem keeps_markStarted {p : Part} {id : ℕ} {prior s : State} (hk : Keeps prior s) : Keeps prior (State.markStarted s p id) := by
  unfold State.markStarted
  repeat' first
    | with_reducible assumption
    | (with_reducible refine keeps_mod ?_ ?_; rotate_left; exact BaseKeeps.of_same rfl rfl rfl rfl rfl rfl)

theorem keeps_scalarSend {o : QOp} {rid : ℕ} {addr : ℕ} {n : ℕ} {width : ℕ} {min : Bool} {prior s : State} (hk : Keeps prior s) : Keeps prior (State.scalarSend s o rid addr n width min) := by
  unfold State.scalarSend
  repeat' first
    | with_reducible assumption
    | with_reducible exact keeps_refl _
    | with_reducible apply keeps_talReport
    | with_reducible apply keeps_endOp
    | with_reducible apply keeps_spmReadBytes
    | with_reducible apply keeps_sendUp
    | (refine keeps_foldl ?_ (fun t a => ?_))
    | with_reducible apply keeps_ite

theorem keeps_scalarDone {o : QOp} {addr : ℕ} {n : ℕ} {width : ℕ} {vs : List ℤ} {sat : Bool} {prior s : State} (hk : Keeps prior s) : Keeps prior (State.scalarDone s o addr n width vs sat) := by
  unfold State.scalarDone
  with_reducible repeat' first | assumption | apply keeps_spmPutBytes | apply keeps_draw | apply keeps_talReport | apply keeps_endOp | apply keeps_ite

theorem keeps_bcvgRun {pc : ℕ} {data : ℕ} {bcv : ℕ} {n : ℕ} {tag : ℕ} {prior s : State} (hk : Keeps prior s) : Keeps prior (State.bcvgRun s pc data bcv n tag) := by
  unfold State.bcvgRun
  repeat' first
    | with_reducible assumption
    | with_reducible exact keeps_refl _
    | with_reducible apply keeps_spmReadBytes
    | with_reducible apply keeps_spmPutBytes
    | (refine keeps_foldl ?_ (fun t a => ?_))

theorem keeps_bcvvRun {pc : ℕ} {data : ℕ} {bcv : ℕ} {n : ℕ} {tag : ℕ} {prior s : State} (hk : Keeps prior s) : Keeps prior (State.bcvvRun s pc data bcv n tag).2 := by
  unfold State.bcvvRun
  refine keeps_foldl_snd hk (fun x a => ?_)
  exact keeps_spmReadBytes (keeps_spmReadBytes (keeps_refl _))

theorem keeps_bcvvEnd {o : QOp} {fails : List (ℕ × ℕ)} {prior s : State} (hk : Keeps prior s) : Keeps prior (State.bcvvEnd s o fails) := by
  unfold State.bcvvEnd
  repeat' first
    | with_reducible assumption
    | with_reducible apply keeps_suspOk
    | with_reducible apply keeps_endOp
    | with_reducible apply keeps_bcvFails
    | with_reducible apply keeps_suspMismatch
    | split

theorem keeps_fpaBcvs {pc : ℕ} {bcv : ℕ} {n : ℕ} {prior s : State} (hk : Keeps prior s) : Keeps prior (State.fpaBcvs s pc bcv n).2 := by
  unfold State.fpaBcvs
  with_reducible repeat' first | assumption | apply keeps_spmReadBytes

theorem keeps_fpaDetail {pc : ℕ} {bcv : ℕ} {n : ℕ} {tag : ℕ} {prior s : State} (hk : Keeps prior s) : Keeps prior (State.fpaDetail s pc bcv n tag) := by
  unfold State.fpaDetail
  repeat' first
    | with_reducible assumption
    | with_reducible exact keeps_refl _
    | with_reducible apply keeps_fpaBcvs
    | with_reducible apply keeps_emit
    | (refine keeps_foldl ?_ (fun t a => ?_))
    | with_reducible apply keeps_ite

theorem keeps_setFa {i : ℕ} {f : Fa} {prior s : State} (hk : Keeps prior s) : Keeps prior (State.setFa s i f) := by
  unfold State.setFa
  repeat' first
    | with_reducible assumption
    | (with_reducible refine keeps_modEl ?_ ?_ ?_ ?_; rotate_left; (first | exact baseKeeps_refl _ | exact BaseKeeps.of_same rfl rfl rfl rfl rfl rfl); rfl; exact id)

theorem keeps_fpaRun {pc : ℕ} {bcv : ℕ} {n : ℕ} {tag : ℕ} {i : ℕ} {prior s : State} (hk : Keeps prior s) : Keeps prior (State.fpaRun s pc bcv n tag i) := by
  unfold State.fpaRun
  with_reducible repeat' first | assumption | apply keeps_fpaBcvs | apply keeps_setFa

theorem keeps_fpcmpRun {o : QOp} {i : ℕ} {j : ℕ} {prior s : State} (hk : Keeps prior s) : Keeps prior (State.fpcmpRun s o i j) := by
  unfold State.fpcmpRun
  with_reducible repeat' first | assumption | apply keeps_suspOk | apply keeps_endOp | apply keeps_setFa | apply keeps_put | apply keeps_count | apply keeps_log | apply keeps_suspMismatch | apply keeps_checkFail | apply keeps_ite

theorem keeps_lemitStart {o : QOp} {tensor : ℕ} {i : ℕ} {kind : ℕ} {prior s : State} (hk : Keeps prior s) : Keeps prior (State.lemitStart s o tensor i kind) := by
  unfold State.lemitStart
  with_reducible repeat' first | assumption | apply keeps_endOp | apply keeps_emit | apply keeps_ite

theorem keeps_sealvStart {o : QOp} {step : Word} {prior s : State} (hk : Keeps prior s) : Keeps prior (State.sealvStart s o step) := by
  unfold State.sealvStart
  with_reducible repeat' first | assumption | apply keeps_endOp | apply keeps_sendUp | apply keeps_ite

theorem keeps_sealqStart {o : QOp} {step : Word} {prior s : State} (hk : Keeps prior s) : Keeps prior (State.sealqStart s o step) := by
  unfold State.sealqStart
  with_reducible repeat' first | assumption | apply keeps_endOp | apply keeps_ite

theorem keeps_dmaStart {ch : ℕ} {count : ℕ} {qid : Option ℕ} {prior s : State} (hk : Keeps prior s) : Keeps prior (State.dmaStart s ch count qid) := by
  unfold State.dmaStart
  with_reducible repeat' first | assumption | apply keeps_put | apply keeps_modDma

theorem keeps_dmagoStart {o : QOp} {ch : ℕ} {count : ℕ} {prior s : State} (hk : Keeps prior s) : Keeps prior (State.dmagoStart s o ch count) := by
  unfold State.dmagoStart
  with_reducible repeat' first | assumption | apply keeps_endOp | apply keeps_dmaStart | apply keeps_ite

theorem keeps_xchkStart {o : QOp} {rid : ℕ} {i : ℕ} {prior s : State} (hk : Keeps prior s) : Keeps prior (State.xchkStart s o rid i) := by
  unfold State.xchkStart
  repeat' first
    | with_reducible assumption
    | (with_reducible refine keeps_mod ?_ ?_; rotate_left; exact BaseKeeps.of_same rfl rfl rfl rfl rfl rfl)
    | with_reducible apply keeps_sendUp

theorem keeps_opStart {o : QOp} {prior s : State} (hk : Keeps prior s) : Keeps prior (State.opStart s o) := by
  unfold State.opStart
  repeat' first
    | with_reducible assumption
    | with_reducible apply keeps_sendUp
    | with_reducible apply keeps_barArrive
    | with_reducible apply keeps_put
    | with_reducible apply keeps_scalarSend
    | with_reducible apply keeps_fpaDetail
    | with_reducible apply keeps_xchkStart
    | with_reducible apply keeps_lemitStart
    | with_reducible apply keeps_sealvStart
    | with_reducible apply keeps_sealqStart
    | with_reducible apply keeps_emit
    | with_reducible apply keeps_dmagoStart
    | with_reducible apply keeps_slotOpen
    | with_reducible apply keeps_nodeArm
    | with_reducible apply keeps_groupOpen
    | with_reducible apply keeps_vgen
    | with_reducible apply keeps_vrest
    | with_reducible apply keeps_lsealOpen
    | split

theorem tame_queuedOpStart {p : Part} {q : QueueId} {replay : Option (BitVec 24)} {prior s : State} (hk : Keeps prior s) : Tame prior (execQueuedOpStart p q replay s) := by
  unfold execQueuedOpStart
  repeat' first
    | with_reducible assumption
    | with_reducible apply tame_next
    | with_reducible apply keeps_markStarted
    | with_reducible apply keeps_spmReplay
    | with_reducible apply keeps_opStart
    | with_reducible apply keeps_ite
    | split

theorem keeps_chkRun {o : QOp} {data : Option Nat} {bcv n tag : Nat} {f : State → State} {prior s : State} (hf : ∀ t, Keeps prior t → Keeps prior (f t))
    (hk : Keeps prior s) : Keeps prior (s.chkRun o data bcv n tag f) :=
  keeps_ite (hf s hk) (keeps_endOp hk)

theorem keeps_slotRelease {rid : ℕ} {prior s : State} (hk : Keeps prior s) : Keeps prior (State.slotRelease s rid) := by
  unfold State.slotRelease
  repeat' first
    | with_reducible assumption
    | with_reducible apply keeps_setSlots
    | with_reducible apply keeps_endQid
    | with_reducible apply keeps_setGroups
    | split

theorem keeps_lockEnd {o : QOp} {a : ℕ} {b : ℕ} {step : Word} {prior s : State} (hk : Keeps prior s) : Keeps prior (State.lockEnd s o a b step) := by
  unfold State.lockEnd
  with_reducible repeat' first | assumption | apply keeps_endOp | apply keeps_draw | apply keeps_ite

theorem keeps_vgenTimeout {o : QOp} {die : ℕ} {prior s : State} (hk : Keeps prior s) : Keeps prior (State.vgenTimeout s o die) := by
  unfold State.vgenTimeout
  with_reducible repeat' first | assumption | apply keeps_setVault | apply keeps_endOp

theorem keeps_opEnd {o : QOp} {ans : Answer} {prior s : State} (hk : Keeps prior s) : Keeps prior (State.opEnd s o ans) := by
  have he : ∀ st, Keeps prior (s.endOp o st) := fun st => keeps_endOp hk
  unfold State.opEnd
  generalize hx : o.kind = kind
  clear hx
  cases kind <;> cases ans <;> dsimp only <;> with_reducible first
    | exact he _
    | exact hk
    | exact keeps_talRun hk
    | exact keeps_scalarDone hk
    | exact keeps_chkRun (fun t ht => keeps_endOp (keeps_bcvgRun ht)) hk
    | exact keeps_chkRun (fun t ht => keeps_bcvvEnd (keeps_bcvvRun ht)) hk
    | exact keeps_chkRun (fun t ht => keeps_endOp (keeps_fpaRun ht)) hk
    | exact keeps_fpcmpRun hk
    | exact keeps_endOp (keeps_launchJudge hk)
    | exact keeps_endOp (keeps_slotRelease hk)
    | exact keeps_lockEnd hk
    | exact keeps_vgenTimeout hk
    | exact keeps_vseal hk
    | exact keeps_vcmp hk
    | exact keeps_vdrop hk
    | exact keeps_endOp (keeps_ledgArchive hk)
    | exact keeps_ite (keeps_endOp (keeps_ledgTrim hk)) (he _)

theorem tame_queuedOpCompletion {p : Part} {qid : ℕ} {ans : Answer} {prior s : State} (hk : Keeps prior s) : Tame prior (execQueuedOpCompletion p qid ans s) := by
  unfold execQueuedOpCompletion
  repeat' first
    | with_reducible assumption
    | with_reducible apply tame_next
    | with_reducible apply keeps_opEnd
    | with_reducible apply keeps_ite
    | split

end Sys2Proof.Machine
end

