-- ==== Sys2Proof/Laws/KeepDma.lean ====
section
/-! SUPPORT. What each operation keeps (`Keeps`, `Tame`): DMA, frames, guard and headcount commands, images and integer operations. One lemma for each operation; `assumption` ends every chain at the state it began with. -/

namespace Sys2Proof.Machine

theorem keeps_accessErr {p : Part} {cause : ℕ} {space : ℕ} {off : ℕ} {write : Bool} {prior s : State} (hk : Keeps prior s) : Keeps prior (State.accessErr s p cause space off write) := by
  unfold State.accessErr
  with_reducible repeat' first | assumption | apply keeps_log | apply keeps_setReg | apply keeps_answer | apply keeps_ite

theorem keeps_spaceRead {space : ℕ} {addrs : List ℕ} {prior s : State} (hk : Keeps prior s) : Keeps prior (State.spaceRead s space addrs).2 := by
  unfold State.spaceRead
  repeat' first
    | with_reducible assumption
    | with_reducible exact keeps_refl _
    | with_reducible apply keeps_spmPersist
    | (refine keeps_foldl ?_ (fun t a => ?_))
    | (extract_lets +onlyGivenNames x; clear_value x)
    | split

theorem keeps_spaceWrite {space : ℕ} {a : ℕ} {bs : List Byte} {prior s : State} (hk : Keeps prior s) : Keeps prior (State.spaceWrite s space a bs) := by
  unfold State.spaceWrite
  with_reducible repeat' first | assumption | apply keeps_spmPutBytes | apply keeps_memWrite | apply keeps_ite

theorem keeps_descBcv {d : Desc} {j : ℕ} {prior s : State} (hk : Keeps prior s) : Keeps prior (State.descBcv s d j).2 := by
  unfold State.descBcv
  with_reducible repeat' first | assumption | apply keeps_spaceRead

theorem keeps_dmaFails {ch : ℕ} {fails : List (ℕ × ℕ)} {prior s : State} (hk : Keeps prior s) : Keeps prior (State.dmaFails s ch fails) := by
  unfold State.dmaFails
  with_reducible repeat' first | assumption | apply keeps_count | apply keeps_bcvFails | apply keeps_modDma | apply keeps_ite

theorem keeps_dmaVerify {ch : ℕ} {d : Desc} {space : ℕ} {addr : ℕ → ℕ} {js : List ℕ} {prior s : State} (hk : Keeps prior s) : Keeps prior (State.dmaVerify s ch d space addr js) := by
  unfold State.dmaVerify
  refine keeps_dmaFails (keeps_foldl_snd hk (fun x a => ?_))
  exact keeps_descBcv (keeps_spaceRead (keeps_refl _))

theorem keeps_descBytes {d : Desc} {lo : ℕ} {hi : ℕ} {prior s : State} (hk : Keeps prior s) : Keeps prior (State.descBytes s d lo hi).2 := by
  unfold State.descBytes
  with_reducible repeat' first | assumption | apply keeps_spaceRead

theorem keeps_dmaStartOk {ch : ℕ} {prior s : State} (hk : Keeps prior s) : Keeps prior (State.dmaStartOk s ch) := by
  unfold State.dmaStartOk
  repeat' first
    | with_reducible assumption
    | with_reducible apply keeps_put
    | with_reducible apply keeps_modDma
    | with_reducible apply keeps_endOp
    | (extract_lets +onlyGivenNames x; refine (fun (hx : Keeps prior x) => ?_) ?_; clear_value x; rotate_left; subst x)
    | (extract_lets +onlyGivenNames x; clear_value x)
    | split

theorem keeps_dmaDescOk {ch : ℕ} {prior s : State} (hk : Keeps prior s) : Keeps prior (State.dmaDescOk s ch) := by
  unfold State.dmaDescOk
  with_reducible repeat' first | assumption | apply keeps_dmaWriteBack | apply keeps_put | apply keeps_dmaStartOk | apply keeps_ite

theorem keeps_dmaDescFail {ch : ℕ} {st : ℕ} {cause : ℕ} {prior s : State} (hk : Keeps prior s) : Keeps prior (State.dmaDescFail s ch st cause) := by
  unfold State.dmaDescFail
  with_reducible repeat' first | assumption | apply keeps_dmaWriteBack | apply keeps_dmaEndFail

theorem keeps_dmaRefused {ch : ℕ} {detail : ℕ} {prior s : State} (hk : Keeps prior s) : Keeps prior (State.dmaRefused s ch detail) := by
  unfold State.dmaRefused
  with_reducible repeat' first | assumption | apply keeps_logW

theorem keeps_dmaHalf {ch : ℕ} {total : ℕ} {w0 : ℕ} {w1 : ℕ} {prior s : State} (hk : Keeps prior s) : Keeps prior (State.dmaHalf s ch total w0 w1) := by
  unfold State.dmaHalf
  with_reducible repeat' first | assumption | apply keeps_put | apply keeps_ite

theorem keeps_restoreEnd {ch : ℕ} {prior s : State} (hk : Keeps prior s) : Keeps prior (State.restoreEnd s ch) := by
  unfold State.restoreEnd
  with_reducible repeat' first | assumption | apply keeps_dmaVerify | apply keeps_dmaDescOk | apply keeps_dmaDescFail | apply keeps_ite

theorem keeps_restoreTake {ch : ℕ} {m : VaultMsg} {prior s : State} (hk : Keeps prior s) : Keeps prior (State.restoreTake s ch m) := by
  unfold State.restoreTake
  extract_lets d t ofs stray bs k u new
  have hs : Keeps prior stray := keeps_logW (keeps_put hk)
  have hu : Keeps prior u := keeps_foldl hk (fun x i => keeps_spaceWrite (keeps_refl _))
  clear_value stray u new
  refine keeps_ite (keeps_restoreEnd hk) (keeps_ite hs (keeps_ite (keeps_spaceWrite hk) ?_))
  exact keeps_dmaHalf (keeps_put (keeps_modDma hu))

theorem keeps_restoreDrain {n : Nat} {prior s : State} (hk : Keeps prior s) : Keeps prior (State.restoreDrain n s) := by
  induction n generalizing s with
  | zero => exact hk
  | succ n ih =>
    unfold State.restoreDrain
    split
    · exact ih (keeps_restoreTake (keeps_modEl hk (baseKeeps_refl _) rfl id))
    · exact hk

theorem keeps_dmaFetch {ch : ℕ} {prior s : State} (hk : Keeps prior s) : Keeps prior (State.dmaFetch s ch) := by
  unfold State.dmaFetch
  with_reducible repeat' first | assumption | apply keeps_dmaRefused | apply keeps_dmaEndFail | apply keeps_modDma | apply keeps_put | apply keeps_dmaDescFail | apply keeps_restoreDrain | apply keeps_ite

theorem keeps_mirrorSend {d : Desc} {lo : ℕ} {bs : List Byte} {prior s : State} (hk : Keeps prior s) : Keeps prior (State.mirrorSend s d lo bs) := by
  unfold State.mirrorSend
  repeat' first
    | with_reducible assumption
    | with_reducible exact keeps_refl _
    | with_reducible apply keeps_sendUp
    | (refine keeps_foldl ?_ (fun t a => ?_))

theorem keeps_mirrorBcvs {d : Desc} {j0 : ℕ} {j1 : ℕ} {last : Bool} {prior s : State} (hk : Keeps prior s) : Keeps prior (State.mirrorBcvs s d j0 j1 last) := by
  unfold State.mirrorBcvs
  repeat' first
    | with_reducible assumption
    | with_reducible exact keeps_refl _
    | with_reducible apply keeps_spaceRead
    | with_reducible apply keeps_sendUp
    | (refine keeps_foldl ?_ (fun t a => ?_))
    | with_reducible apply keeps_ite

theorem keeps_dmaChunk {ch : ℕ} {prior s : State} (hk : Keeps prior s) : Keeps prior (State.dmaChunk s ch) := by
  unfold State.dmaChunk
  with_reducible repeat' first | assumption | apply keeps_descBytes | apply keeps_dmaVerify | apply keeps_mirrorSend | apply keeps_mirrorBcvs | apply keeps_spaceWrite | apply keeps_dmaHalf | apply keeps_modDma | apply keeps_put | apply keeps_ite

theorem keeps_dmaRequest {ch : ℕ} {prior s : State} (hk : Keeps prior s) : Keeps prior (State.dmaRequest s ch) := by
  unfold State.dmaRequest
  with_reducible repeat' first | assumption | apply keeps_dmaChunk | apply keeps_dmaAborted | apply keeps_dmaDescOk | apply keeps_ite

theorem keeps_dmaHalt {ch : ℕ} {cause : ℕ} {prior s : State} (hk : Keeps prior s) : Keeps prior (State.dmaHalt s ch cause) := by
  unfold State.dmaHalt
  with_reducible repeat' first | assumption | apply keeps_dmaWriteBack | apply keeps_put | apply keeps_logW | apply keeps_dmaEndFail

theorem keeps_dmaBufBad {ch : ℕ} {w : ℕ} {prior s : State} (hk : Keeps prior s) : Keeps prior (State.dmaBufBad s ch w) := by
  unfold State.dmaBufBad
  with_reducible repeat' first | assumption | apply keeps_put | apply keeps_log | apply keeps_dmaAborted | apply keeps_dmaHalt | apply keeps_ite

theorem keeps_dmaError {ch : ℕ} {prior s : State} (hk : Keeps prior s) : Keeps prior (State.dmaError s ch) := by
  unfold State.dmaError
  with_reducible repeat' first | assumption | apply keeps_modDma | apply keeps_dmaAborted | apply keeps_count | apply keeps_logW | apply keeps_dmaHalt | apply keeps_ite

theorem tame_dmaHostGo {ch : Fin 16} {count : BitVec 16} {prior s : State} (hk : Keeps prior s) : Tame prior (execDmaHostGo ch count s) := by
  unfold execDmaHostGo
  with_reducible repeat' first | assumption | apply tame_next | apply keeps_put | apply keeps_dmaRefused | apply keeps_dmaStart | apply keeps_ite

theorem tame_dmaHostAbort {ch : Fin 16} {prior s : State} (hk : Keeps prior s) : Tame prior (execDmaHostAbort ch s) := by
  unfold execDmaHostAbort
  with_reducible repeat' first | assumption | apply tame_next | apply keeps_dmaAbort

theorem tame_dmaClrHalt {ch : Fin 16} {prior s : State} (hk : Keeps prior s) : Tame prior (execDmaClrHalt ch s) := by
  unfold execDmaClrHalt
  with_reducible repeat' first | assumption | apply tame_next | apply keeps_put | apply keeps_ite

theorem tame_dmaDescriptorFetch {ch : Fin 16} {prior s : State} (hk : Keeps prior s) : Tame prior (execDmaDescriptorFetch ch s) := by
  unfold execDmaDescriptorFetch
  with_reducible repeat' first | assumption | apply tame_next | apply keeps_dmaFetch | apply keeps_ite

theorem tame_dmaRequestDone {ch : Fin 16} {r : DmaReads} {prior s : State} (hk : Keeps prior s) : Tame prior (execDmaRequestDone ch r s) := by
  unfold execDmaRequestDone
  repeat' first
    | with_reducible assumption
    | with_reducible apply tame_next
    | with_reducible apply keeps_spmReplay
    | with_reducible apply keeps_dmaRequest
    | with_reducible apply keeps_dmaBufBad
    | with_reducible apply keeps_ite
    | split

theorem tame_dmaBusError {ch : Fin 16} {prior s : State} (hk : Keeps prior s) : Tame prior (execDmaBusError ch s) := by
  unfold execDmaBusError
  with_reducible repeat' first | assumption | apply tame_next | apply keeps_dmaError

theorem tame_vaultRestoreMessage {m : VaultMsg} {prior s : State} (hk : Keeps prior s) : Tame prior (execVaultRestoreMessage m s) := by
  unfold execVaultRestoreMessage
  repeat' first
    | with_reducible assumption
    | with_reducible apply tame_next
    | with_reducible apply keeps_modLane
    | (with_reducible refine keeps_modEl ?_ ?_ ?_ ?_; rotate_left; (first | exact baseKeeps_refl _ | exact BaseKeeps.of_same rfl rfl rfl rfl rfl rfl); rfl; exact id)
    | with_reducible apply keeps_restoreDrain
    | with_reducible apply keeps_ite
    | split

theorem keeps_spmHostRead {addr : ℕ} {size : AccSize} {prior s : State} (hk : Keeps prior s) : Keeps prior (State.spmHostRead s addr size) := by
  unfold State.spmHostRead
  with_reducible repeat' first | assumption | apply keeps_spmPersist | apply keeps_accessErr | apply keeps_answer | apply keeps_ite

theorem keeps_spmHostWrite {addr : ℕ} {size : AccSize} {data : Word} {prior s : State} (hk : Keeps prior s) : Keeps prior (State.spmHostWrite s addr size data) := by
  unfold State.spmHostWrite
  repeat' first
    | with_reducible assumption
    | with_reducible apply keeps_spmPutBytes
    | with_reducible apply keeps_answer
    | with_reducible apply keeps_spmPut
    | split

theorem tame_spmHostAccess {write : Bool} {addr : BitVec 24} {size : AccSize} {data : Word} {replay : Bool} {prior s : State} (hk : Keeps prior s) : Tame prior (execSpmHostAccess write addr size data replay s) := by
  unfold execSpmHostAccess
  with_reducible repeat' first | assumption | apply tame_next | apply keeps_accessErr | apply keeps_spmReplay | apply keeps_spmHostWrite | apply keeps_spmHostRead | apply keeps_ite

theorem tame_spmHostTimeout {write : Bool} {addr : BitVec 24} {prior s : State} (hk : Keeps prior s) : Tame prior (execSpmHostTimeout write addr s) := by
  unfold execSpmHostTimeout
  with_reducible repeat' first | assumption | apply tame_next | apply keeps_put | apply keeps_count | apply keeps_log | apply keeps_answer

theorem tame_progApertureRead {write : Bool} {addr : BitVec 24} {size : AccSize} {parity : Bool} {prior s : State} (hk : Keeps prior s) : Tame prior (execProgApertureRead write addr size parity s) := by
  unfold execProgApertureRead
  with_reducible repeat' first | assumption | apply tame_next | apply keeps_accessErr | apply keeps_answer | apply keeps_ite

theorem tame_spmClearDone {cycles : ℕ} {prior s : State} (hk : Keeps prior s) : Tame prior (execSpmClearDone cycles s) := by
  unfold execSpmClearDone
  with_reducible repeat' first | assumption | apply tame_next | apply keeps_put | apply keeps_log | apply keeps_ite

theorem keeps_hcNumber {p : Part} {m : Msg} {prior s : State} (hk : Keeps prior s) : Keeps prior (State.hcNumber s p m).2 := by
  unfold State.hcNumber
  repeat' first
    | with_reducible assumption
    | (with_reducible refine keeps_mod ?_ ?_; rotate_left; exact BaseKeeps.of_same rfl rfl rfl rfl rfl rfl)
    | (extract_lets +onlyGivenNames x; clear_value x)
    | split

theorem keeps_frameBody {p : Part} {x : ℕ} {vc : ℕ} {m : Msg} {prior s : State} (hk : Keeps prior s) : Keeps prior (State.frameBody s p x vc m).2 := by
  unfold State.frameBody
  repeat' first
    | with_reducible assumption
    | with_reducible apply keeps_hcNumber
    | with_reducible apply keeps_draws
    | (extract_lets +onlyGivenNames x; refine (fun (hx : Keeps prior x) => ?_) ?_; clear_value x; rotate_left; subst x)
    | (extract_lets +onlyGivenNames x; refine (fun (hx : Keeps prior x.2) => ?_) ?_; clear_value x; rotate_left; subst x)
    | (extract_lets +onlyGivenNames x; clear_value x)
    | split

theorem tame_watchdog {p : Part} {unit : Byte} {prior s : State} (hk : Keeps prior s) : Tame prior (execWatchdog p unit s) := by
  unfold execWatchdog
  repeat' first
    | with_reducible assumption
    | with_reducible apply tame_next
    | with_reducible apply keeps_log
    | with_reducible apply keeps_guardTrigger
    | with_reducible apply keeps_ite
    | split

theorem tame_hang {p : Part} {cause : Fin 10} {prior s : State} (hk : Keeps prior s) : Tame prior (execHang p cause s) := by
  unfold execHang
  repeat' first
    | with_reducible assumption
    | with_reducible apply tame_next
    | with_reducible apply keeps_log
    | with_reducible apply keeps_guardTrigger
    | split

theorem tame_dumpReadTimeout {p : Part} {unit : Byte} {word : BitVec 32} {prior s : State} (hk : Keeps prior s) : Tame prior (execDumpReadTimeout p unit word s) := by
  unfold execDumpReadTimeout
  with_reducible repeat' first | assumption | apply tame_next | apply keeps_modGuard | apply keeps_ite

theorem tame_dumpComplete {p : Part} {prior s : State} (hk : Keeps prior s) : Tame prior (execDumpComplete p s) := by
  unfold execDumpComplete
  repeat' first
    | with_reducible assumption
    | with_reducible exact keeps_refl _
    | with_reducible apply tame_next
    | with_reducible apply keeps_put
    | with_reducible apply keeps_modGuard
    | with_reducible apply keeps_log
    | with_reducible apply keeps_sendUp
    | with_reducible apply keeps_guardProceed
    | (refine keeps_foldl ?_ (fun t a => ?_))
    | with_reducible apply keeps_ite
    | (extract_lets +onlyGivenNames x; refine (fun (hx : Keeps prior x) => ?_) ?_; clear_value x; rotate_left; subst x)
    | split

theorem keeps_fwActivate  {prior s : State} (hk : Keeps prior s) : Keeps prior (State.fwActivate s) := by
  unfold State.fwActivate
  repeat' first
    | with_reducible assumption
    | (with_reducible refine keeps_mod ?_ ?_; rotate_left; exact BaseKeeps.of_same rfl rfl rfl rfl rfl rfl)
    | (with_reducible refine keeps_modUx ?_ ?_; rotate_left; (first | exact baseKeeps_refl _ | exact BaseKeeps.of_same rfl rfl rfl rfl rfl rfl))
    | split

theorem tame_resetDoneReport {p : Part} {d : Fin 24} {prior s : State} (hk : Keeps prior s) : Tame prior (execResetDoneReport p d s) := by
  unfold execResetDoneReport
  repeat' first
    | with_reducible assumption
    | with_reducible apply tame_next
    | with_reducible apply keeps_setDstate
    | with_reducible apply keeps_alignDomain
    | with_reducible apply keeps_modGuard
    | with_reducible apply keeps_pcieTrain
    | with_reducible apply keeps_guardEnd
    | with_reducible apply keeps_fwActivate
    | with_reducible apply keeps_ite
    | (extract_lets +onlyGivenNames x; refine (fun (hx : Keeps prior x) => ?_) ?_; clear_value x; rotate_left; subst x)
    | split

theorem tame_stageTimeout {p : Part} {prior s : State} (hk : Keeps prior s) : Tame prior (execStageTimeout p s) := by
  unfold execStageTimeout
  repeat' first
    | with_reducible assumption
    | with_reducible apply tame_next
    | with_reducible apply keeps_log
    | with_reducible apply keeps_stageStart
    | with_reducible apply keeps_modGuard
    | with_reducible apply keeps_guardEnd
    | (with_reducible refine keeps_modUx ?_ ?_; rotate_left; (first | exact baseKeeps_refl _ | exact BaseKeeps.of_same rfl rfl rfl rfl rfl rfl))
    | with_reducible apply keeps_replaceSet
    | with_reducible apply keeps_ite
    | split

theorem keeps_fatalClr {p : Part} {prior s : State} (hk : Keeps prior s) : Keeps prior (State.fatalClr s p) := by
  unfold State.fatalClr
  with_reducible repeat' first | assumption | apply keeps_put | apply keeps_rbRequest | apply keeps_ite

theorem tame_fatalClr {p : Part} {prior s : State} (hk : Keeps prior s) : Tame prior (execFatalClr p s) := by
  unfold execFatalClr
  with_reducible repeat' first | assumption | apply tame_next | apply keeps_fatalClr

theorem keeps_faultHoldOff {p : Part} {prior s : State} (hk : Keeps prior s) : Keeps prior (State.faultHoldOff s p) := by
  unfold State.faultHoldOff
  with_reducible repeat' first | assumption | apply keeps_put | apply keeps_guardProceed | apply keeps_ite

theorem tame_faultHoldRelease {p : Part} {prior s : State} (hk : Keeps prior s) : Tame prior (execFaultHoldRelease p s) := by
  unfold execFaultHoldRelease
  with_reducible repeat' first | assumption | apply tame_next | apply keeps_faultHoldOff

theorem keeps_sendActive {p : Part} {x : ℕ} {m : Msg} {prior s : State} (hk : Keeps prior s) : Keeps prior (State.sendActive s p x m) := by
  unfold State.sendActive
  with_reducible repeat' first | assumption | apply keeps_send | apply keeps_ite

theorem keeps_hbNew {p : Part} {prior s : State} (hk : Keeps prior s) : Keeps prior (State.hbNew s p) := by
  unfold State.hbNew
  repeat' first
    | with_reducible assumption
    | (with_reducible refine keeps_mod ?_ ?_; rotate_left; exact BaseKeeps.of_same rfl rfl rfl rfl rfl rfl)

theorem tame_hbSend {p : Part} {prior s : State} (hk : Keeps prior s) : Tame prior (execHbSend p s) := by
  unfold execHbSend
  repeat' first
    | with_reducible assumption
    | with_reducible apply tame_next
    | with_reducible apply keeps_hbNew
    | (with_reducible refine keeps_modEl ?_ ?_ ?_ ?_; rotate_left; (first | exact baseKeeps_refl _ | exact BaseKeeps.of_same rfl rfl rfl rfl rfl rfl); rfl; exact id)
    | with_reducible apply keeps_sendActive
    | with_reducible apply keeps_toPartners
    | with_reducible apply keeps_toTwin
    | with_reducible apply tame_ite
    | (extract_lets +onlyGivenNames x; refine (fun (hx : Keeps prior x) => ?_) ?_; clear_value x; rotate_left; subst x)
    | (extract_lets +onlyGivenNames x; clear_value x)
    | split

theorem keeps_hbHealth {x : ℕ} {m : Hb} {prior s : State} (hk : Keeps prior s) : Keeps prior (State.hbHealth s x m) := by
  unfold State.hbHealth
  with_reducible repeat' first | assumption | apply keeps_healthAdd | apply keeps_put | apply keeps_propose | apply keeps_ite

theorem tame_hbMessage {lane : Fin 160} {m : Hb} {prior s : State} (hk : Keeps prior s) : Tame prior (execHbMessage lane m s) := by
  unfold execHbMessage
  with_reducible repeat' first | assumption | apply tame_next | apply keeps_hbHeard | apply keeps_setMembership | apply keeps_dropProposals | apply keeps_setMember | apply keeps_spareEvent | apply keeps_hbHealth | apply keeps_publish | apply keeps_toAuthority | apply keeps_ite | apply tame_ite

theorem keeps_silent {x : Subj} {ageT : ℕ} {prior s : State} (hk : Keeps prior s) : Keeps prior (State.silent s x ageT) := by
  unfold State.silent
  with_reducible repeat' first | assumption | apply keeps_propose

theorem tame_hbMiss {subj : Subj} {nth : Fin 4} {ageNs : BitVec 32} {prior s : State} (hk : Keeps prior s) : Tame prior (execHbMiss subj nth ageNs s) := by
  unfold execHbMiss
  repeat' first
    | with_reducible assumption
    | with_reducible apply tame_next
    | with_reducible apply keeps_setObs
    | with_reducible apply keeps_put
    | with_reducible apply keeps_suspect
    | with_reducible apply keeps_silent
    | with_reducible apply keeps_ite
    | split

theorem tame_hearReq {subj : Subj} {lane : Fin 160} {prior s : State} (hk : Keeps prior s) : Tame prior (execHearReq subj lane s) := by
  unfold execHearReq
  with_reducible repeat' first | assumption | apply tame_next | apply keeps_send

theorem keeps_hearTake {x : Subj} {age : ℕ} {prior s : State} (hk : Keeps prior s) : Keeps prior (State.hearTake s x age) := by
  unfold State.hearTake
  with_reducible repeat' first | assumption | apply keeps_setObs | apply keeps_log | apply keeps_setMembership | apply keeps_silent | apply keeps_ite

theorem tame_hearAns {subj : Subj} {ageNs : BitVec 32} {prior s : State} (hk : Keeps prior s) : Tame prior (execHearAns subj ageNs s) := by
  unfold execHearAns
  with_reducible repeat' first | assumption | apply tame_next | apply keeps_hearTake

theorem tame_hearTimeout {subj : Subj} {prior s : State} (hk : Keeps prior s) : Tame prior (execHearTimeout subj s) := by
  unfold execHearTimeout
  with_reducible repeat' first | assumption | apply tame_next | apply keeps_hearTake

theorem tame_propose {m : ProposeMsg} {prior s : State} (hk : Keeps prior s) : Tame prior (execPropose m s) := by
  unfold execPropose
  repeat' first
    | with_reducible assumption
    | with_reducible apply tame_next
    | with_reducible apply keeps_count
    | with_reducible apply keeps_log
    | with_reducible apply keeps_proposalTake
    | (with_reducible refine keeps_modUx ?_ ?_; rotate_left; (first | exact baseKeeps_refl _ | exact BaseKeeps.of_same rfl rfl rfl rfl rfl rfl))
    | with_reducible apply keeps_toAuthority
    | with_reducible apply keeps_ite
    | with_reducible apply tame_ite

theorem tame_vote {m : VoteMsg} {prior s : State} (hk : Keeps prior s) : Tame prior (execVote m s) := by
  unfold execVote
  with_reducible repeat' first | assumption | apply tame_next | apply keeps_addYes | apply keeps_toAuthority | apply keeps_ite

theorem tame_proposeResend {subj : Subj} {prior s : State} (hk : Keeps prior s) : Tame prior (execProposeResend subj s) := by
  unfold execProposeResend
  repeat' first
    | with_reducible assumption
    | with_reducible exact keeps_refl _
    | with_reducible apply tame_next
    | with_reducible apply keeps_toAuthority
    | (refine keeps_foldl ?_ (fun t a => ?_))
    | with_reducible apply keeps_ite
    | split

theorem tame_authoritySelfVote {subj : Subj} {prior s : State} (hk : Keeps prior s) : Tame prior (execAuthoritySelfVote subj s) := by
  unfold execAuthoritySelfVote
  repeat' first
    | with_reducible assumption
    | with_reducible apply tame_next
    | with_reducible apply keeps_settle
    | with_reducible apply keeps_ite
    | split

theorem keeps_elDecision {m : DecisionMsg} {prior s : State} (hk : Keeps prior s) : Keeps prior (State.elDecision s m) := by
  unfold State.elDecision
  repeat' first
    | with_reducible assumption
    | with_reducible apply keeps_put
    | with_reducible apply keeps_probEnd
    | with_reducible apply keeps_stepKill
    | (with_reducible refine keeps_modEl ?_ ?_ ?_ ?_; rotate_left; (first | exact baseKeeps_refl _ | exact BaseKeeps.of_same rfl rfl rfl rfl rfl rfl); rfl; exact id)
    | with_reducible apply keeps_draw
    | with_reducible apply keeps_ite

theorem tame_decision {p : Part} {m : DecisionMsg} {prior s : State} (hk : Keeps prior s) : Tame prior (execDecision p m s) := by
  unfold execDecision
  repeat' first
    | with_reducible assumption
    | with_reducible apply tame_next
    | with_reducible apply keeps_elDecision
    | with_reducible apply keeps_count
    | with_reducible apply keeps_put
    | with_reducible apply keeps_sendDown
    | with_reducible apply keeps_decisionApply
    | with_reducible apply tame_ite
    | (extract_lets +onlyGivenNames x; clear_value x)
    | split

theorem keeps_elRollback {step : Word} {prior s : State} (hk : Keeps prior s) : Keeps prior (State.elRollback s step) := by
  unfold State.elRollback
  repeat' first
    | with_reducible assumption
    | with_reducible apply keeps_elSeal
    | with_reducible apply keeps_stepKill
    | with_reducible apply keeps_manDisarm
    | with_reducible apply keeps_put
    | (with_reducible refine keeps_modEl ?_ ?_ ?_ ?_; rotate_left; (first | exact baseKeeps_refl _ | exact BaseKeeps.of_same rfl rfl rfl rfl rfl rfl); rfl; exact id)
    | with_reducible apply keeps_modGuard
    | with_reducible apply keeps_ite

theorem tame_rollback {p : Part} {step : Word} {prior s : State} (hk : Keeps prior s) : Tame prior (execRollback p step s) := by
  unfold execRollback
  repeat' first
    | with_reducible assumption
    | with_reducible apply tame_next
    | with_reducible apply keeps_elRollback
    | with_reducible apply keeps_sendDown
    | with_reducible apply keeps_uxRollback
    | split

theorem tame_rbReady {pdi : BitVec 20} {next : Word} {prior s : State} (hk : Keeps prior s) : Tame prior (execRbReady pdi next s) := by
  unfold execRbReady
  with_reducible repeat' first | assumption | apply tame_next | apply keeps_rbReadyTake | apply keeps_toAuthority | apply keeps_ite

theorem tame_rbCommit {p : Part} {tc : ℕ} {prior s : State} (hk : Keeps prior s) : Tame prior (execRbCommit p tc s) := by
  unfold execRbCommit
  repeat' first
    | with_reducible assumption
    | with_reducible apply tame_next
    | with_reducible apply keeps_sendDown
    | (with_reducible refine keeps_mod ?_ ?_; rotate_left; exact BaseKeeps.of_same rfl rfl rfl rfl rfl rfl)
    | split

theorem tame_restoredWrite  {prior s : State} (hk : Keeps prior s) : Tame prior (execRestoredWrite s) := by
  unfold execRestoredWrite
  repeat' first
    | with_reducible assumption
    | with_reducible apply tame_next
    | (with_reducible refine keeps_modEl ?_ ?_ ?_ ?_; rotate_left; (first | exact baseKeeps_refl _ | exact BaseKeeps.of_same rfl rfl rfl rfl rfl rfl); rfl; exact id)
    | with_reducible apply keeps_readyTry
    | with_reducible apply keeps_ite

theorem tame_fenceMessage {p : Part} {subj : Subj} {prior s : State} (hk : Keeps prior s) : Tame prior (execFenceMessage p subj s) := by
  unfold execFenceMessage
  repeat' first
    | with_reducible assumption
    | with_reducible apply tame_next
    | with_reducible apply keeps_put
    | with_reducible apply keeps_probEnd
    | with_reducible apply keeps_sendActive
    | with_reducible apply keeps_leaves
    | with_reducible apply keeps_dropProposals
    | with_reducible apply keeps_ite
    | (extract_lets +onlyGivenNames x; refine (fun (hx : Keeps prior x) => ?_) ?_; clear_value x; rotate_left; subst x)
    | split

theorem tame_probation {action : BitVec 32} {k : BitVec 16} {prior s : State} (hk : Keeps prior s) : Tame prior (execProbation action k s) := by
  unfold execProbation
  repeat' first
    | with_reducible assumption
    | with_reducible apply tame_next
    | with_reducible apply keeps_put
    | (with_reducible refine keeps_modEl ?_ ?_ ?_ ?_; rotate_left; (first | exact baseKeeps_refl _ | exact BaseKeeps.of_same rfl rfl rfl rfl rfl rfl); rfl; exact id)
    | with_reducible apply keeps_probAct

theorem tame_healthDecay  {prior s : State} (hk : Keeps prior s) : Tame prior (execHealthDecay s) := by
  unfold execHealthDecay
  repeat' first
    | with_reducible assumption
    | with_reducible exact keeps_refl _
    | with_reducible apply tame_next
    | with_reducible apply keeps_put
    | (refine keeps_foldl ?_ (fun t a => ?_))
    | with_reducible apply keeps_ite

theorem keeps_hcCmd {w : Word} {act : Subj → State} {prior s : State} (ha : ∀ x, Keeps prior (act x)) (hk : Keeps prior s) : Keeps prior (s.hcCmd w act) :=
  keeps_ite hk (keeps_ite (keeps_log hk) (ha _))

theorem tame_hcReadmit {w : Word} {prior s : State} (hk : Keeps prior s) : Tame prior (execHcReadmit w s) := by
  unfold execHcReadmit
  repeat' first
    | with_reducible assumption
    | with_reducible apply tame_next
    | with_reducible apply keeps_hcCmd
    | with_reducible apply keeps_put
    | with_reducible apply keeps_probEnd
    | with_reducible apply keeps_leaves
    | (with_reducible refine keeps_modUx ?_ ?_; rotate_left; (first | exact baseKeeps_refl _ | exact BaseKeeps.of_same rfl rfl rfl rfl rfl rfl))
    | with_reducible apply keeps_spareEvent
    | with_reducible apply keeps_ite
    | (intro t)

theorem tame_hcAdviseFailed {w : Word} {prior s : State} (hk : Keeps prior s) : Tame prior (execHcAdviseFailed w s) := by
  unfold execHcAdviseFailed
  repeat' first
    | with_reducible assumption
    | with_reducible apply tame_next
    | with_reducible apply keeps_hcCmd
    | with_reducible apply keeps_put
    | with_reducible apply keeps_log
    | with_reducible apply keeps_ite
    | split
    | (intro t)

theorem tame_hcFence {w : Word} {prior s : State} (hk : Keeps prior s) : Tame prior (execHcFence w s) := by
  unfold execHcFence
  repeat' first
    | with_reducible assumption
    | with_reducible apply tame_next
    | with_reducible apply keeps_hcCmd
    | with_reducible apply keeps_sendActive
    | with_reducible apply keeps_toTwin
    | with_reducible apply keeps_leaves
    | with_reducible apply keeps_log
    | with_reducible apply keeps_deadInfo
    | with_reducible apply keeps_settle
    | split
    | (intro t)

theorem keeps_pathFailed {pathset : ℕ} {status : ℕ} {prior s : State} (hk : Keeps prior s) : Keeps prior (State.pathFailed s pathset status) := by
  unfold State.pathFailed
  extract_lets t
  have ht : Keeps prior t := keeps_modUx (keeps_pathShow hk) (baseKeeps_refl _)
  clear_value t
  split
  · exact ht
  split
  · exact ht
  extract_lets u v w i
  have hu : Keeps prior u := keeps_foldl ht (fun x i => keeps_ite (keeps_spareMark (keeps_refl _)) (keeps_refl _))
  have hv : Keeps prior v := keeps_log hu
  have hw : Keeps prior w := keeps_modRb hv
  exact keeps_decideOn (keeps_deadInfo hw)

theorem keeps_pathFinal {seq : ℕ} {status : ℕ} {prior s : State} (hk : Keeps prior s) : Keeps prior (State.pathFinal s seq status) := by
  unfold State.pathFinal
  repeat' first
    | with_reducible assumption
    | with_reducible apply keeps_pathFailed
    | (with_reducible refine keeps_modUx ?_ ?_; rotate_left; (first | exact baseKeeps_refl _ | exact BaseKeeps.of_same rfl rfl rfl rfl rfl rfl))
    | with_reducible apply keeps_pathShow
    | with_reducible apply keeps_rbTry
    | with_reducible apply keeps_ite
    | (extract_lets +onlyGivenNames x; refine (fun (hx : Keeps prior x) => ?_) ?_; clear_value x; rotate_left; subst x)
    | split

theorem tame_pathReply {seq : BitVec 32} {status : Byte} {prior s : State} (hk : Keeps prior s) : Tame prior (execPathReply seq status s) := by
  unfold execPathReply
  repeat' first
    | with_reducible assumption
    | with_reducible apply tame_next
    | (with_reducible refine keeps_modUx ?_ ?_; rotate_left; (first | exact baseKeeps_refl _ | exact BaseKeeps.of_same rfl rfl rfl rfl rfl rfl))
    | with_reducible apply keeps_pathFinal
    | with_reducible apply keeps_ite

theorem tame_pathResend {seq : BitVec 32} {prior s : State} (hk : Keeps prior s) : Tame prior (execPathResend seq s) := by
  unfold execPathResend
  repeat' first
    | with_reducible assumption
    | with_reducible apply tame_next
    | with_reducible apply keeps_pathFinal
    | with_reducible apply keeps_tpSend
    | (with_reducible refine keeps_modUx ?_ ?_; rotate_left; (first | exact baseKeeps_refl _ | exact BaseKeeps.of_same rfl rfl rfl rfl rfl rfl))
    | with_reducible apply keeps_ite
    | split

theorem keeps_tdrGate  {prior s : State} (hk : Keeps prior s) : Keeps prior (State.tdrGate s) := by
  unfold State.tdrGate
  repeat' first
    | with_reducible assumption
    | (with_reducible refine keeps_modEl ?_ ?_ ?_ ?_; rotate_left; (first | exact baseKeeps_refl _ | exact BaseKeeps.of_same rfl rfl rfl rfl rfl rfl); rfl; exact id)
    | with_reducible apply keeps_ite

theorem keeps_loadRefuse {p : Part} {cause : ℕ} {prior s : State} (hk : Keeps prior s) : Keeps prior (State.loadRefuse s p cause) := by
  unfold State.loadRefuse
  with_reducible repeat' first | assumption | apply keeps_put | apply keeps_log

theorem keeps_progClear {p : Part} {prior s : State} (hk : Keeps prior s) : Keeps prior (State.progClear s p) := by
  unfold State.progClear
  with_reducible repeat' first | assumption | apply keeps_modSeq

theorem keeps_setImgHash {p : Part} {h : List Byte} {prior s : State} (hk : Keeps prior s) : Keeps prior (State.setImgHash s p h) := by
  unfold State.setImgHash
  repeat' first
    | with_reducible assumption
    | with_reducible exact keeps_refl _
    | with_reducible apply keeps_setReg
    | (refine keeps_foldl ?_ (fun t a => ?_))

theorem keeps_loadStart {p : Part} {prior s : State} (hk : Keeps prior s) : Keeps prior (State.loadStart s p) := by
  unfold State.loadStart
  repeat' first
    | with_reducible assumption
    | with_reducible apply keeps_stageRefuse
    | with_reducible apply keeps_loadRefuse
    | with_reducible apply keeps_progClear
    | with_reducible apply keeps_setSeqState
    | with_reducible apply keeps_put
    | with_reducible apply keeps_ite
    | (extract_lets +onlyGivenNames x; refine (fun (hx : Keeps prior x) => ?_) ?_; clear_value x; rotate_left; subst x)
    | split

theorem tame_seqLoad  {prior s : State} (hk : Keeps prior s) : Tame prior (execSeqLoad s) := by
  unfold execSeqLoad
  with_reducible repeat' first | assumption | apply tame_next | apply keeps_loadStart

theorem tame_tseqLoad  {prior s : State} (hk : Keeps prior s) : Tame prior (execTseqLoad s) := by
  unfold execTseqLoad
  with_reducible repeat' first | assumption | apply tame_next | apply keeps_loadStart

theorem keeps_loadFail {p : Part} {cause : ℕ} {prior s : State} (hk : Keeps prior s) : Keeps prior (State.loadFail s p cause) := by
  unfold State.loadFail
  with_reducible repeat' first | assumption | apply keeps_progClear | apply keeps_setImgHash | apply keeps_setSeqState | apply keeps_loadRefuse

theorem keeps_loadDone {p : Part} {img : List Byte} {prior s : State} (hk : Keeps prior s) : Keeps prior (State.loadDone s p img) := by
  unfold State.loadDone
  repeat' first
    | with_reducible assumption
    | with_reducible apply keeps_modSeq
    | with_reducible apply keeps_suspCloseAll
    | (with_reducible refine keeps_modEl ?_ ?_ ?_ ?_; rotate_left; (first | exact baseKeeps_refl _ | exact BaseKeeps.of_same rfl rfl rfl rfl rfl rfl); rfl; exact id)
    | with_reducible apply keeps_setImgHash
    | with_reducible apply keeps_setSeqState
    | with_reducible apply keeps_log
    | with_reducible apply keeps_readyTry
    | with_reducible apply keeps_ite
    | (extract_lets +onlyGivenNames x; refine (fun (hx : Keeps prior x) => ?_) ?_; clear_value x; rotate_left; subst x)
    | (extract_lets +onlyGivenNames x; clear_value x)
    | split

theorem tame_imageLoadEnd {p : Part} {readOk : Bool} {prior s : State} (hk : Keeps prior s) : Tame prior (execImageLoadEnd p readOk s) := by
  unfold execImageLoadEnd
  repeat' first
    | with_reducible assumption
    | with_reducible apply tame_next
    | with_reducible apply keeps_put
    | with_reducible apply keeps_loadDone
    | with_reducible apply keeps_loadFail
    | with_reducible apply keeps_ite
    | with_reducible apply tame_ite
    | split

theorem tame_seqUnload {p : Part} {prior s : State} (hk : Keeps prior s) : Tame prior (execSeqUnload p s) := by
  unfold execSeqUnload
  with_reducible repeat' first | assumption | apply tame_next | apply keeps_stageRefuse | apply keeps_progClear | apply keeps_setSeqState | apply keeps_ite | apply tame_ite

theorem tame_seqStart  {prior s : State} (hk : Keeps prior s) : Tame prior (execSeqStart s) := by
  unfold execSeqStart
  with_reducible repeat' first | assumption | apply tame_next | apply keeps_stepLaunch | apply keeps_log | apply tame_ite

theorem tame_tseqStart  {prior s : State} (hk : Keeps prior s) : Tame prior (execTseqStart s) := by
  unfold execTseqStart
  with_reducible repeat' first | assumption | apply tame_next | apply keeps_treeStart

theorem tame_progRefetch {p : Part} {slot : Fin 8} {ok : Bool} {prior s : State} (hk : Keeps prior s) : Tame prior (execProgRefetch p slot ok s) := by
  unfold execProgRefetch
  repeat' first
    | with_reducible assumption
    | with_reducible apply tame_next
    | with_reducible apply keeps_draw
    | with_reducible apply keeps_slip
    | (with_reducible refine keeps_modEl ?_ ?_ ?_ ?_; rotate_left; (first | exact baseKeeps_refl _ | exact BaseKeeps.of_same rfl rfl rfl rfl rfl rfl); rfl; exact id)
    | with_reducible apply keeps_log
    | with_reducible apply keeps_toFault
    | with_reducible apply keeps_guardTrigger
    | with_reducible apply tame_ite
    | split

theorem tame_intOp {p : Part} {e : Env} {d : Fin 64} {a : Fin 64} {o : Opnd} {f : Word → Word → Word} {prior s : State} (hk : Keeps prior s) : Tame prior (State.intOp s p e d a o f) := by
  unfold State.intOp
  with_reducible repeat' first | assumption | apply tame_issue

theorem tame_mov {p : Part} {e : Env} {d : Fin 64} {o : Opnd} {prior s : State} (hk : Keeps prior s) : Tame prior (execMov p e d o s) := by
  unfold execMov
  with_reducible repeat' first | assumption | apply tame_issue

theorem tame_add {p : Part} {e : Env} {d : Fin 64} {a : Fin 64} {o : Opnd} {prior s : State} (hk : Keeps prior s) : Tame prior (execAdd p e d a o s) := by
  unfold execAdd
  with_reducible repeat' first | assumption | apply tame_intOp

theorem tame_sub {p : Part} {e : Env} {d : Fin 64} {a : Fin 64} {o : Opnd} {prior s : State} (hk : Keeps prior s) : Tame prior (execSub p e d a o s) := by
  unfold execSub
  with_reducible repeat' first | assumption | apply tame_intOp

theorem tame_and {p : Part} {e : Env} {d : Fin 64} {a : Fin 64} {o : Opnd} {prior s : State} (hk : Keeps prior s) : Tame prior (execAnd p e d a o s) := by
  unfold execAnd
  with_reducible repeat' first | assumption | apply tame_intOp

theorem tame_or {p : Part} {e : Env} {d : Fin 64} {a : Fin 64} {o : Opnd} {prior s : State} (hk : Keeps prior s) : Tame prior (execOr p e d a o s) := by
  unfold execOr
  with_reducible repeat' first | assumption | apply tame_intOp

theorem tame_xor {p : Part} {e : Env} {d : Fin 64} {a : Fin 64} {o : Opnd} {prior s : State} (hk : Keeps prior s) : Tame prior (execXor p e d a o s) := by
  unfold execXor
  with_reducible repeat' first | assumption | apply tame_intOp

theorem tame_shl {p : Part} {e : Env} {d : Fin 64} {a : Fin 64} {o : Opnd} {prior s : State} (hk : Keeps prior s) : Tame prior (execShl p e d a o s) := by
  unfold execShl
  with_reducible repeat' first | assumption | apply tame_intOp

theorem tame_shr {p : Part} {e : Env} {d : Fin 64} {a : Fin 64} {o : Opnd} {prior s : State} (hk : Keeps prior s) : Tame prior (execShr p e d a o s) := by
  unfold execShr
  with_reducible repeat' first | assumption | apply tame_intOp

theorem tame_sar {p : Part} {e : Env} {d : Fin 64} {a : Fin 64} {o : Opnd} {prior s : State} (hk : Keeps prior s) : Tame prior (execSar p e d a o s) := by
  unfold execSar
  with_reducible repeat' first | assumption | apply tame_intOp

theorem tame_mul {p : Part} {e : Env} {d : Fin 64} {a : Fin 64} {o : Opnd} {prior s : State} (hk : Keeps prior s) : Tame prior (execMul p e d a o s) := by
  unfold execMul
  with_reducible repeat' first | assumption | apply tame_intOp

theorem tame_movh {p : Part} {e : Env} {d : Fin 64} {v : BitVec 32} {prior s : State} (hk : Keeps prior s) : Tame prior (execMovh p e d v s) := by
  unfold execMovh
  with_reducible repeat' first | assumption | apply tame_issue

theorem tame_cmp {p : Part} {e : Env} {cd : Fin 8} {cond : Fin 8} {a : Fin 64} {o : Opnd} {prior s : State} (hk : Keeps prior s) : Tame prior (execCmp p e cd cond a o s) := by
  unfold execCmp
  with_reducible repeat' first | assumption | apply tame_issue

theorem tame_fop {p : Part} {e : Env} {cd : Fin 8} {ca : Fin 8} {cb : Fin 8} {fn : Fin 4} {prior s : State} (hk : Keeps prior s) : Tame prior (execFop p e cd ca cb fn s) := by
  unfold execFop
  with_reducible repeat' first | assumption | apply tame_issue

end Sys2Proof.Machine
end

