-- ==== Sys2Proof/Laws/KeepLink.lean ====
section
/-! SUPPORT. What each operation keeps (`Keeps`, `Tame`): links, manifests, references, security and tests. One lemma for each operation; `assumption` ends every chain at the state it began with. -/

namespace Sys2Proof.Machine

theorem keeps_authFail {p : Part} {x : ℕ} {vc : ℕ} {prior s : State} (hk : Keeps prior s) : Keeps prior (State.authFail s p x vc) := by
  unfold State.authFail
  with_reducible repeat' first | assumption | apply keeps_count | apply keeps_log

theorem keeps_laneDown {p : Part} {x : ℕ} {prior s : State} (hk : Keeps prior s) : Keeps prior (State.laneDown s p x) := by
  unfold State.laneDown
  repeat' first
    | with_reducible assumption
    | with_reducible apply keeps_laneSet
    | with_reducible apply keeps_put
    | with_reducible apply keeps_calClear
    | with_reducible apply keeps_log
    | with_reducible apply keeps_modLane
    | with_reducible apply keeps_laneDrop
    | with_reducible apply keeps_moduleDown
    | with_reducible apply keeps_absentCheck
    | with_reducible apply keeps_aclkSource
    | with_reducible apply keeps_candLost
    | with_reducible apply keeps_childAbsent
    | (extract_lets +onlyGivenNames x; refine (fun (hx : Keeps prior x) => ?_) ?_; clear_value x; rotate_left; subst x)
    | (extract_lets +onlyGivenNames x; clear_value x)
    | split

theorem keeps_laneCal {p : Part} {x : ℕ} {j : JoinRec} {prior s : State} (hk : Keeps prior s) : Keeps prior (State.laneCal s p x j) := by
  unfold State.laneCal
  repeat' first
    | with_reducible assumption
    | with_reducible apply keeps_laneSet
    | with_reducible apply keeps_modLane
    | with_reducible apply keeps_log
    | (with_reducible refine keeps_modEl ?_ ?_ ?_ ?_; rotate_left; (first | exact baseKeeps_refl _ | exact BaseKeeps.of_same rfl rfl rfl rfl rfl rfl); rfl; exact id)
    | with_reducible apply keeps_aclkSource
    | with_reducible apply keeps_put
    | with_reducible apply keeps_ite
    | (extract_lets +onlyGivenNames x; refine (fun (hx : Keeps prior x) => ?_) ?_; clear_value x; rotate_left; subst x)
    | (extract_lets +onlyGivenNames x; clear_value x)
    | split

theorem keeps_joinCheck {p : Part} {x : ℕ} {prior s : State} (hk : Keeps prior s) : Keeps prior (State.joinCheck s p x) := by
  unfold State.joinCheck
  repeat' first
    | with_reducible assumption
    | with_reducible apply keeps_laneCal
    | with_reducible apply keeps_ite
    | (extract_lets +onlyGivenNames x; clear_value x)
    | split

theorem keeps_leaveCheck {p : Part} {x : ℕ} {prior s : State} (hk : Keeps prior s) : Keeps prior (State.leaveCheck s p x) := by
  unfold State.leaveCheck
  with_reducible repeat' first | assumption | apply keeps_laneDown | apply keeps_ite

theorem keeps_laneFault {p : Part} {x : ℕ} {cause : ℕ} {prior s : State} (hk : Keeps prior s) : Keeps prior (State.laneFault s p x cause) := by
  unfold State.laneFault
  with_reducible repeat' first | assumption | apply keeps_laneFail | apply keeps_ite

theorem keeps_onWire {p : Part} {x : ℕ} {w : WireFrame} {prior s : State} (hk : Keeps prior s) : Keeps prior (State.onWire s p x w) := by
  unfold State.onWire
  with_reducible repeat' first | assumption | apply keeps_modLane

theorem keeps_markLeaves {p : Part} {x : ℕ} {m : Msg} {prior s : State} (hk : Keeps prior s) : Keeps prior (State.markLeaves s p x m).2 := by
  unfold State.markLeaves
  extract_lets n t3 keep
  have hkeep : ∀ q, Keeps prior (keep q) := fun q => keeps_modLane hk
  clear_value keep
  split
  · exact keeps_ite (hkeep _) hk
  · exact hkeep _
  · exact hk

theorem keeps_firstSend {p : Part} {x : ℕ} {vc : ℕ} {m : Msg} {prior s : State} (hk : Keeps prior s) : Keeps prior (State.firstSend s p x vc m) := by
  unfold State.firstSend
  with_reducible repeat' first | assumption | apply keeps_modLane | apply keeps_markLeaves | apply keeps_frameBody | apply keeps_onWire | apply keeps_setCredit | apply keeps_laneShow | apply keeps_put | apply keeps_log | apply keeps_laneFault | apply keeps_ite

theorem tame_frameSlot {p : Part} {lane : Fin 160} {prior s : State} (hk : Keeps prior s) : Tame prior (execFrameSlot p lane s) := by
  unfold execFrameSlot
  repeat' first
    | with_reducible assumption
    | with_reducible apply tame_next
    | with_reducible apply keeps_onWire
    | with_reducible apply keeps_modLane
    | with_reducible apply keeps_firstSend
    | with_reducible apply tame_ite
    | (extract_lets +onlyGivenNames x; refine (fun (hx : Keeps prior x) => ?_) ?_; clear_value x; rotate_left; subst x)
    | (extract_lets +onlyGivenNames x; clear_value x)
    | split

theorem keeps_replayCount {p : Part} {x : ℕ} {prior s : State} (hk : Keeps prior s) : Keeps prior (State.replayCount s p x) := by
  unfold State.replayCount
  with_reducible repeat' first | assumption | apply keeps_count | apply keeps_healthAdd | apply keeps_ite

theorem keeps_startReplay {p : Part} {x : ℕ} {prior s : State} (hk : Keeps prior s) : Keeps prior (State.startReplay s p x) := by
  unfold State.startReplay
  repeat' first
    | with_reducible assumption
    | with_reducible apply keeps_laneFault
    | with_reducible apply keeps_modLane
    | with_reducible apply keeps_replayCount
    | with_reducible apply keeps_laneShow
    | with_reducible apply keeps_ite
    | split

theorem tame_replayTimeout {p : Part} {lane : Fin 160} {prior s : State} (hk : Keeps prior s) : Tame prior (execReplayTimeout p lane s) := by
  unfold execReplayTimeout
  with_reducible repeat' first | assumption | apply tame_next | apply keeps_startReplay | apply keeps_ite

theorem keeps_oweNak {p : Part} {x : ℕ} {prior s : State} (hk : Keeps prior s) : Keeps prior (State.oweNak s p x) := by
  unfold State.oweNak
  with_reducible repeat' first | assumption | apply keeps_modLane

theorem keeps_crcFail {p : Part} {x : ℕ} {idle : Bool} {prior s : State} (hk : Keeps prior s) : Keeps prior (State.crcFail s p x idle) := by
  unfold State.crcFail
  with_reducible repeat' first | assumption | apply keeps_count | apply keeps_modLane | apply keeps_ite

theorem keeps_applyHead {p : Part} {x : ℕ} {f : RxFrame} {prior s : State} (hk : Keeps prior s) : Keeps prior (State.applyHead s p x f) := by
  unfold State.applyHead
  with_reducible repeat' first | assumption | apply keeps_modLane | apply keeps_laneShow | apply keeps_setCredit | apply keeps_startReplay | apply keeps_joinCheck | apply keeps_leaveCheck | apply keeps_ite

theorem keeps_freeBuffer {p : Part} {x : ℕ} {vc : ℕ} {prior s : State} (hk : Keeps prior s) : Keeps prior (State.freeBuffer s p x vc) := by
  unfold State.freeBuffer
  with_reducible repeat' first | assumption | apply keeps_modLane

theorem keeps_acceptSeq {p : Part} {x : ℕ} {f : RxFrame} {prior s : State} (hk : Keeps prior s) : Keeps prior (State.acceptSeq s p x f) := by
  unfold State.acceptSeq
  with_reducible repeat' first | assumption | apply keeps_modLane | apply keeps_freeBuffer | apply keeps_oweNak | apply keeps_ite

theorem keeps_firstSeen {p : Part} {x : ℕ} {f : RxFrame} {prior s : State} (hk : Keeps prior s) : Keeps prior (State.firstSeen s p x f) := by
  unfold State.firstSeen
  with_reducible repeat' first | assumption | apply keeps_modLane

theorem keeps_takeFrame {p : Part} {x : ℕ} {f : RxFrame} {prior s : State} (hk : Keeps prior s) : Keeps prior (State.takeFrame s p x f) := by
  unfold State.takeFrame
  repeat' first
    | with_reducible assumption
    | with_reducible apply keeps_applyHead
    | with_reducible apply keeps_acceptSeq
    | with_reducible apply keeps_count
    | with_reducible apply keeps_authFail
    | with_reducible apply keeps_crcFail
    | with_reducible apply keeps_modLane
    | with_reducible apply keeps_ite
    | split

theorem keeps_fecCount {p : Part} {x : ℕ} {prior s : State} (hk : Keeps prior s) : Keeps prior (State.fecCount s p x) := by
  unfold State.fecCount
  with_reducible repeat' first | assumption | apply keeps_draw | apply keeps_count | apply keeps_modLane | apply keeps_log | apply keeps_ite

theorem tame_frameReceive {p : Part} {lane : Fin 160} {f : RxFrame} {prior s : State} (hk : Keeps prior s) : Tame prior (execFrameReceive p lane f s) := by
  unfold execFrameReceive
  with_reducible repeat' first | assumption | apply tame_next | apply keeps_fecCount | apply keeps_crcFail | apply keeps_applyHead | apply keeps_firstSeen | apply keeps_oweNak | apply keeps_takeFrame | apply tame_ite

theorem tame_losPersist {p : Part} {lane : Fin 160} {cdr : Bool} {prior s : State} (hk : Keeps prior s) : Tame prior (execLosPersist p lane cdr s) := by
  unfold execLosPersist
  with_reducible repeat' first | assumption | apply tame_next | apply keeps_laneFault

theorem tame_fecAlignLoss {p : Part} {lane : Fin 160} {prior s : State} (hk : Keeps prior s) : Tame prior (execFecAlignLoss p lane s) := by
  unfold execFecAlignLoss
  with_reducible repeat' first | assumption | apply tame_next | apply keeps_laneFault

theorem tame_awayFrame {p : Part} {lane : Fin 160} {set : Bool} {prior s : State} (hk : Keeps prior s) : Tame prior (execAwayFrame p lane set s) := by
  unfold execAwayFrame
  repeat' first
    | with_reducible assumption
    | with_reducible apply tame_next
    | with_reducible apply keeps_put
    | with_reducible apply keeps_log
    | with_reducible apply keeps_elLaneLoss
    | with_reducible apply keeps_sendDown
    | with_reducible apply keeps_ite
    | with_reducible apply tame_ite
    | (extract_lets +onlyGivenNames x; refine (fun (hx : Keeps prior x) => ?_) ?_; clear_value x; rotate_left; subst x)
    | (extract_lets +onlyGivenNames x; clear_value x)
    | split

theorem tame_moduleInterrupt {m : Fin 20} {lane : Fin 8} {flag : Byte} {fatal : Bool} {prior s : State} (hk : Keeps prior s) : Tame prior (execModuleInterrupt m lane flag fatal s) := by
  unfold execModuleInterrupt
  with_reducible repeat' first | assumption | apply tame_next | apply keeps_modMod | apply keeps_log | apply keeps_laneFault | apply keeps_ite

theorem keeps_modulePoll {m : ℕ} {prior s : State} (hk : Keeps prior s) : Keeps prior (State.modulePoll s m) := by
  unfold State.modulePoll
  with_reducible repeat' first | assumption | apply keeps_draw | apply keeps_modMod

theorem tame_modulePoll  {prior s : State} (hk : Keeps prior s) : Tame prior (execModulePoll s) := by
  unfold execModulePoll
  repeat' first
    | with_reducible assumption
    | with_reducible exact keeps_refl _
    | with_reducible apply tame_next
    | with_reducible apply keeps_modulePoll
    | (refine keeps_foldl ?_ (fun t a => ?_))

theorem keeps_joinRefuse {p : Part} {x : ℕ} {cause : ℕ} {prior s : State} (hk : Keeps prior s) : Keeps prior (State.joinRefuse s p x cause) := by
  unfold State.joinRefuse
  with_reducible repeat' first | assumption | apply keeps_put | apply keeps_laneFail | apply keeps_log | apply keeps_ite

theorem tame_signalDetect {p : Part} {lane : Fin 160} {prior s : State} (hk : Keeps prior s) : Tame prior (execSignalDetect p lane s) := by
  unfold execSignalDetect
  with_reducible repeat' first | assumption | apply tame_next | apply keeps_joinRefuse | apply keeps_laneTrain | apply keeps_ite

theorem tame_laneJoinCmd {p : Part} {lane : Fin 160} {prior s : State} (hk : Keeps prior s) : Tame prior (execLaneJoinCmd p lane s) := by
  unfold execLaneJoinCmd
  with_reducible repeat' first | assumption | apply tame_next | apply keeps_laneTrain | apply keeps_joinRefuse | apply keeps_ite

theorem tame_trainDone {p : Part} {lane : Fin 160} {aInt : BitVec 16} {prior s : State} (hk : Keeps prior s) : Tame prior (execTrainDone p lane aInt s) := by
  unfold execTrainDone
  with_reducible repeat' first | assumption | apply tame_next | apply keeps_laneSet | apply keeps_put | apply keeps_setReg | apply keeps_modLane | apply keeps_laneShow | apply keeps_send | apply tame_ite

theorem tame_trainTimeout {p : Part} {lane : Fin 160} {prior s : State} (hk : Keeps prior s) : Tame prior (execTrainTimeout p lane s) := by
  unfold execTrainTimeout
  with_reducible repeat' first | assumption | apply tame_next | apply keeps_laneFail | apply keeps_ite

theorem tame_joinFrame {p : Part} {lane : Fin 160} {j : JoinRec} {authOk : Bool} {prior s : State} (hk : Keeps prior s) : Tame prior (execJoinFrame p lane j authOk s) := by
  unfold execJoinFrame
  repeat' first
    | with_reducible assumption
    | with_reducible apply tame_next
    | with_reducible apply keeps_joinRefuse
    | with_reducible apply keeps_modLane
    | with_reducible apply keeps_joinCheck
    | with_reducible apply keeps_ite
    | split

theorem tame_laneLeaveCmd {p : Part} {lane : Fin 160} {prior s : State} (hk : Keeps prior s) : Tame prior (execLaneLeaveCmd p lane s) := by
  unfold execLaneLeaveCmd
  with_reducible repeat' first | assumption | apply tame_next | apply keeps_modLane | apply keeps_laneSet | apply keeps_ite

theorem tame_leaveFrame {p : Part} {lane : Fin 160} {prior s : State} (hk : Keeps prior s) : Tame prior (execLeaveFrame p lane s) := by
  unfold execLeaveFrame
  with_reducible repeat' first | assumption | apply tame_next | apply keeps_laneSet | apply keeps_modLane | apply keeps_leaveCheck | apply tame_ite

theorem tame_drainEmpty {p : Part} {lane : Fin 160} {prior s : State} (hk : Keeps prior s) : Tame prior (execDrainEmpty p lane s) := by
  unfold execDrainEmpty
  with_reducible repeat' first | assumption | apply tame_next | apply keeps_modLane | apply keeps_ite

theorem tame_laneDrainTimeout {p : Part} {lane : Fin 160} {prior s : State} (hk : Keeps prior s) : Tame prior (execLaneDrainTimeout p lane s) := by
  unfold execLaneDrainTimeout
  with_reducible repeat' first | assumption | apply tame_next | apply keeps_laneFail | apply keeps_ite

theorem tame_laneCntClr {p : Part} {lane : Fin 160} {prior s : State} (hk : Keeps prior s) : Tame prior (execLaneCntClr p lane s) := by
  unfold execLaneCntClr
  with_reducible repeat' first | assumption | apply tame_next | apply keeps_setReg | apply keeps_ite

theorem tame_manArm {p : Part} {prior s : State} (hk : Keeps prior s) : Tame prior (execManArm p s) := by
  unfold execManArm
  with_reducible repeat' first | assumption | apply tame_next | apply keeps_manArm

theorem tame_manNow {p : Part} {prior s : State} (hk : Keeps prior s) : Tame prior (execManNow p s) := by
  unfold execManNow
  with_reducible repeat' first | assumption | apply tame_next | apply keeps_manNow

theorem keeps_manDisarmHall {p : Part} {prior s : State} (hk : Keeps prior s) : Keeps prior (State.manDisarmHall s p) := by
  unfold State.manDisarmHall
  repeat' first
    | with_reducible assumption
    | with_reducible apply keeps_sendDown
    | with_reducible apply keeps_manDisarm
    | (with_reducible refine keeps_modUx ?_ ?_; rotate_left; (first | exact baseKeeps_refl _ | exact BaseKeeps.of_same rfl rfl rfl rfl rfl rfl))
    | with_reducible apply keeps_ite
    | split

theorem tame_manDisarm {p : Part} {prior s : State} (hk : Keeps prior s) : Tame prior (execManDisarm p s) := by
  unfold execManDisarm
  with_reducible repeat' first | assumption | apply tame_next | apply keeps_manDisarmHall

theorem tame_manDiscard {p : Part} {prior s : State} (hk : Keeps prior s) : Tame prior (execManDiscard p s) := by
  unfold execManDiscard
  with_reducible repeat' first | assumption | apply tame_next | apply keeps_manDiscard

theorem keeps_manFire {p : Part} {prior s : State} (hk : Keeps prior s) : Keeps prior (State.manFire s p) := by
  unfold State.manFire
  repeat' first
    | with_reducible assumption
    | with_reducible apply keeps_commitAll
    | with_reducible apply keeps_standbyJoin
    | with_reducible apply keeps_commitFail
    | with_reducible apply keeps_checkFail
    | with_reducible apply keeps_commitNow
    | with_reducible apply keeps_spareEvent
    | with_reducible apply keeps_ite
    | (extract_lets +onlyGivenNames x; clear_value x)
    | split

theorem tame_manifestCommit {p : Part} {prior s : State} (hk : Keeps prior s) : Tame prior (execManifestCommit p s) := by
  unfold execManifestCommit
  repeat' first
    | with_reducible assumption
    | with_reducible apply tame_next
    | with_reducible apply keeps_elRbCommit
    | with_reducible apply keeps_uxRbCommit
    | with_reducible apply keeps_manFire
    | with_reducible apply keeps_ite
    | split

theorem keeps_hallPrep {p : Part} {prior s : State} (hk : Keeps prior s) : Keeps prior (State.hallPrep s p) := by
  unfold State.hallPrep
  repeat' first
    | with_reducible assumption
    | (with_reducible refine keeps_mod ?_ ?_; rotate_left; exact BaseKeeps.of_same rfl rfl rfl rfl rfl rfl)
    | with_reducible apply keeps_put
    | with_reducible apply keeps_ite

theorem keeps_hallRefuse {st : ℕ} {prior s : State} (hk : Keeps prior s) : Keeps prior (State.hallRefuse s st) := by
  unfold State.hallRefuse
  repeat' first
    | with_reducible assumption
    | with_reducible apply keeps_sendDown
    | with_reducible apply keeps_manDisarm
    | (with_reducible refine keeps_modUx ?_ ?_; rotate_left; (first | exact baseKeeps_refl _ | exact BaseKeeps.of_same rfl rfl rfl rfl rfl rfl))
    | with_reducible apply keeps_put
    | with_reducible apply keeps_log

theorem keeps_hallVerdict {v : HallVote} {prior s : State} (hk : Keeps prior s) : Keeps prior (State.hallVerdict s v) := by
  unfold State.hallVerdict
  repeat' first
    | with_reducible assumption
    | with_reducible apply keeps_hallRefuse
    | with_reducible apply keeps_sendDown
    | (with_reducible refine keeps_modUx ?_ ?_; rotate_left; (first | exact baseKeeps_refl _ | exact BaseKeeps.of_same rfl rfl rfl rfl rfl rfl))
    | with_reducible apply keeps_put
    | (with_reducible refine keeps_mod ?_ ?_; rotate_left; exact BaseKeeps.of_same rfl rfl rfl rfl rfl rfl)
    | with_reducible apply keeps_ite

theorem keeps_hallCheck  {prior s : State} (hk : Keeps prior s) : Keeps prior (State.hallCheck s) := by
  unfold State.hallCheck
  repeat' first
    | with_reducible assumption
    | with_reducible apply keeps_hallVerdict
    | with_reducible apply keeps_sendUp
    | (with_reducible refine keeps_modUx ?_ ?_; rotate_left; (first | exact baseKeeps_refl _ | exact BaseKeeps.of_same rfl rfl rfl rfl rfl rfl))
    | with_reducible apply keeps_ite
    | split

theorem keeps_hallStart  {prior s : State} (hk : Keeps prior s) : Keeps prior (State.hallStart s) := by
  unfold State.hallStart
  repeat' first
    | with_reducible assumption
    | with_reducible apply keeps_sendDown
    | with_reducible apply keeps_hallPrep
    | (with_reducible refine keeps_modUx ?_ ?_; rotate_left; (first | exact baseKeeps_refl _ | exact BaseKeeps.of_same rfl rfl rfl rfl rfl rfl))
    | with_reducible apply keeps_hallCheck

theorem tame_hallGo  {prior s : State} (hk : Keeps prior s) : Tame prior (execHallGo s) := by
  unfold execHallGo
  with_reducible repeat' first | assumption | apply tame_next | apply keeps_put | apply keeps_hallStart | apply keeps_ite

theorem tame_manPrep {p : Part} {prior s : State} (hk : Keeps prior s) : Tame prior (execManPrep p s) := by
  unfold execManPrep
  repeat' first
    | with_reducible assumption
    | with_reducible apply tame_next
    | with_reducible apply keeps_hallPrep
    | with_reducible apply keeps_sendUp
    | with_reducible apply keeps_hallStart
    | (extract_lets +onlyGivenNames x; refine (fun (hx : Keeps prior x) => ?_) ?_; clear_value x; rotate_left; subst x)
    | (extract_lets +onlyGivenNames x; clear_value x)
    | split

theorem tame_manVote {lane : Fin 160} {passes : ℕ} {fails : ℕ} {firstFail : Option Subj} {prior s : State} (hk : Keeps prior s) : Tame prior (execManVote lane passes fails firstFail s) := by
  unfold execManVote
  repeat' first
    | with_reducible assumption
    | with_reducible apply tame_next
    | (with_reducible refine keeps_modUx ?_ ?_; rotate_left; (first | exact baseKeeps_refl _ | exact BaseKeeps.of_same rfl rfl rfl rfl rfl rfl))
    | with_reducible apply keeps_hallCheck
    | with_reducible apply keeps_ite
    | split

theorem tame_hallTimeout  {prior s : State} (hk : Keeps prior s) : Tame prior (execHallTimeout s) := by
  unfold execHallTimeout
  with_reducible repeat' first | assumption | apply tame_next | apply keeps_hallRefuse | apply keeps_ite

theorem tame_manCommitMessage {p : Part} {t : ℕ} {prior s : State} (hk : Keeps prior s) : Tame prior (execManCommitMessage p t s) := by
  unfold execManCommitMessage
  repeat' first
    | with_reducible assumption
    | with_reducible apply tame_next
    | (with_reducible refine keeps_mod ?_ ?_; rotate_left; exact BaseKeeps.of_same rfl rfl rfl rfl rfl rfl)
    | with_reducible apply keeps_sendDown
    | with_reducible apply keeps_manDisarm
    | with_reducible apply keeps_checkFail
    | with_reducible apply keeps_commitNow
    | with_reducible apply keeps_spareEvent
    | with_reducible apply keeps_log
    | with_reducible apply keeps_ite
    | with_reducible apply tame_ite
    | split

theorem tame_unitDrainTimeout {unit : Fin 5} {prior s : State} (hk : Keeps prior s) : Tame prior (execUnitDrainTimeout unit s) := by
  unfold execUnitDrainTimeout
  repeat' first
    | with_reducible assumption
    | with_reducible exact keeps_refl _
    | with_reducible apply tame_next
    | with_reducible apply keeps_endFail
    | with_reducible apply keeps_dmaAbort
    | with_reducible apply keeps_put
    | with_reducible apply keeps_log
    | (refine keeps_foldl ?_ (fun t a => ?_))
    | with_reducible apply keeps_ite

theorem tame_ld {e : Env} {d : Fin 64} {a : Fin 64} {ofs : BitVec 24} {replays : Fin 3} {prior s : State} (hk : Keeps prior s) : Tame prior (execLd e d a ofs replays s) := by
  unfold execLd
  with_reducible repeat' first | assumption | apply tame_issue

theorem tame_st {e : Env} {a : Fin 64} {b : Fin 64} {ofs : BitVec 24} {prior s : State} (hk : Keeps prior s) : Tame prior (execSt e a b ofs s) := by
  unfold execSt
  with_reducible repeat' first | assumption | apply tame_issue

theorem tame_dmago {e : Env} {q : QDest} {ch : Fin 16} {a : Fin 64} {prior s : State} (hk : Keeps prior s) : Tame prior (execDmago e q ch a s) := by
  unfold execDmago
  with_reducible repeat' first | assumption | apply tame_issue

theorem tame_dmaab {e : Env} {ch : Fin 16} {prior s : State} (hk : Keeps prior s) : Tame prior (execDmaab e ch s) := by
  unfold execDmaab
  with_reducible repeat' first | assumption | apply tame_issue

theorem tame_scale {e : Env} {q : QDest} {t : TArgs} {prior s : State} (hk : Keeps prior s) : Tame prior (execScale e q t s) := by
  unfold execScale
  with_reducible repeat' first | assumption | apply tame_issue

theorem tame_tconv {e : Env} {q : QDest} {t : TArgs} {prior s : State} (hk : Keeps prior s) : Tame prior (execTconv e q t s) := by
  unfold execTconv
  with_reducible repeat' first | assumption | apply tame_issue

theorem tame_tadd {e : Env} {q : QDest} {t : TArgs} {prior s : State} (hk : Keeps prior s) : Tame prior (execTadd e q t s) := by
  unfold execTadd
  with_reducible repeat' first | assumption | apply tame_issue

theorem tame_tfin {e : Env} {q : QDest} {t : TArgs} {prior s : State} (hk : Keeps prior s) : Tame prior (execTfin e q t s) := by
  unfold execTfin
  with_reducible repeat' first | assumption | apply tame_issue

theorem tame_psum {e : Env} {q : QDest} {t : TArgs} {prior s : State} (hk : Keeps prior s) : Tame prior (execPsum e q t s) := by
  unfold execPsum
  with_reducible repeat' first | assumption | apply tame_issue

theorem tame_spass {e : Env} {q : QDest} {rid : BitVec 12} {gn : Fin 64} {ge : Fin 64} {min : Bool} {prior s : State} (hk : Keeps prior s) : Tame prior (execSpass e q rid gn ge min s) := by
  unfold execSpass
  with_reducible repeat' first | assumption | apply tame_issue

theorem tame_ssum {e : Env} {q : QDest} {rid : BitVec 12} {gn : Fin 64} {ge : Fin 64} {prior s : State} (hk : Keeps prior s) : Tame prior (execSsum e q rid gn ge s) := by
  unfold execSsum
  with_reducible repeat' first | assumption | apply tame_issue

theorem tame_refValid {k : Fin 8} {prior s : State} (hk : Keeps prior s) : Tame prior (execRefValid k s) := by
  unfold execRefValid
  with_reducible repeat' first | assumption | apply tame_next | apply keeps_candPut | apply keeps_log | apply keeps_draw | apply keeps_put | apply tame_ite

theorem tame_refQualified {k : Fin 8} {prior s : State} (hk : Keeps prior s) : Tame prior (execRefQualified k s) := by
  unfold execRefQualified
  with_reducible repeat' first | assumption | apply tame_next | apply keeps_candPut | apply keeps_log | apply keeps_wtrStart | apply keeps_refResolve | apply keeps_ite | apply tame_ite

theorem tame_refLost {k : Fin 8} {monitor : BitVec 8} {prior s : State} (hk : Keeps prior s) : Tame prior (execRefLost k monitor s) := by
  unfold execRefLost
  with_reducible repeat' first | assumption | apply tame_next | apply keeps_candLost

theorem keeps_wtrSwitch  {prior s : State} (hk : Keeps prior s) : Keeps prior (State.wtrSwitch s) := by
  unfold State.wtrSwitch
  repeat' first
    | with_reducible assumption
    | with_reducible apply keeps_dpllSeek
    | with_reducible apply keeps_ite
    | split

theorem tame_dpllLocked {freqOfs : BitVec 40} {candTime : ℕ} {prior s : State} (hk : Keeps prior s) : Tame prior (execDpllLocked freqOfs candTime s) := by
  unfold execDpllLocked
  refine tame_ite ?_ (tame_next hk)
  extract_lets k s1 s2 b s3 c s4 s5
  have h2 : Keeps prior s2 := keeps_dcoLoop (keeps_logI (keeps_put hk))
  have h4 : Keeps prior s4 := keeps_rootFollow (keeps_setReg (keeps_draw h2))
  have h5 : Keeps prior s5 := keeps_refTraceAt h4
  clear_value s5
  refine tame_next ?_
  split
  · exact keeps_wtrSwitch h5
  · exact keeps_refResolve h5

theorem tame_acqTimeout  {prior s : State} (hk : Keeps prior s) : Tame prior (execAcqTimeout s) := by
  unfold execAcqTimeout
  repeat' first
    | with_reducible assumption
    | with_reducible apply tame_next
    | (with_reducible refine keeps_modUx ?_ ?_; rotate_left; (first | exact baseKeeps_refl _ | exact BaseKeeps.of_same rfl rfl rfl rfl rfl rfl))
    | with_reducible apply keeps_dpllAlarm
    | with_reducible apply keeps_dcoLoop
    | with_reducible apply keeps_ite

theorem tame_wtrExpiry  {prior s : State} (hk : Keeps prior s) : Tame prior (execWtrExpiry s) := by
  unfold execWtrExpiry
  repeat' first
    | with_reducible assumption
    | with_reducible apply tame_next
    | (with_reducible refine keeps_modUx ?_ ?_; rotate_left; (first | exact baseKeeps_refl _ | exact BaseKeeps.of_same rfl rfl rfl rfl rfl rfl))
    | with_reducible apply keeps_wtrSwitch
    | split

theorem tame_refModeWrite {mode : Fin 4} {prior s : State} (hk : Keeps prior s) : Tame prior (execRefModeWrite mode s) := by
  unfold execRefModeWrite
  with_reducible repeat' first | assumption | apply tame_next | apply keeps_logOpen | apply keeps_put | apply keeps_wtrClear | apply keeps_refResolve | apply keeps_ite | apply tame_ite

theorem tame_rootStart  {prior s : State} (hk : Keeps prior s) : Tame prior (execRootStart s) := by
  unfold execRootStart
  with_reducible repeat' first | assumption | apply tame_next | apply keeps_rootStep | apply keeps_tbStepRefused | apply keeps_ite

theorem tame_startWaitExpiry  {prior s : State} (hk : Keeps prior s) : Tame prior (execStartWaitExpiry s) := by
  unfold execStartWaitExpiry
  with_reducible repeat' first | assumption | apply tame_next | apply keeps_rootStep | apply keeps_ite

theorem tame_todWrite {n : Fin 4} {sec : Word} {lateForEdge : Bool} {prior s : State} (hk : Keeps prior s) : Tame prior (execTodWrite n sec lateForEdge s) := by
  unfold execTodWrite
  repeat' first
    | with_reducible assumption
    | with_reducible apply tame_next
    | with_reducible apply keeps_setReg
    | (with_reducible refine keeps_modUx ?_ ?_; rotate_left; (first | exact baseKeeps_refl _ | exact BaseKeeps.of_same rfl rfl rfl rfl rfl rfl))

theorem keeps_ppsCompare {n : ℕ} {prior s : State} (hk : Keeps prior s) : Keeps prior (State.ppsCompare s n) := by
  unfold State.ppsCompare
  with_reducible repeat' first | assumption | apply keeps_rootFollow | apply keeps_refTraceAt | apply keeps_refTrace | apply keeps_ite

theorem tame_ppsEdge {n : Fin 4} {prior s : State} (hk : Keeps prior s) : Tame prior (execPpsEdge n s) := by
  unfold execPpsEdge
  repeat' first
    | with_reducible assumption
    | with_reducible apply tame_next
    | with_reducible apply keeps_setReg
    | with_reducible apply keeps_put
    | (with_reducible refine keeps_modUx ?_ ?_; rotate_left; (first | exact baseKeeps_refl _ | exact BaseKeeps.of_same rfl rfl rfl rfl rfl rfl))
    | with_reducible apply keeps_ppsCompare
    | with_reducible apply keeps_ite
    | with_reducible apply tame_ite

theorem keeps_setPtp {port : ℕ} {c : PtpClock} {prior s : State} (hk : Keeps prior s) : Keeps prior (State.setPtp s port c) := by
  unfold State.setPtp
  repeat' first
    | with_reducible assumption
    | (with_reducible refine keeps_modUx ?_ ?_; rotate_left; (first | exact baseKeeps_refl _ | exact BaseKeeps.of_same rfl rfl rfl rfl rfl rfl))

theorem keeps_tpMsgSend {m : TpMsg} {prior s : State} (hk : Keeps prior s) : Keeps prior (State.tpMsgSend s m) := by
  unfold State.tpMsgSend
  repeat' first
    | with_reducible assumption
    | (with_reducible refine keeps_modUx ?_ ?_; rotate_left; (first | exact baseKeeps_refl _ | exact BaseKeeps.of_same rfl rfl rfl rfl rfl rfl))

theorem keeps_sendDnu {port : ℕ} {prior s : State} (hk : Keeps prior s) : Keeps prior (State.sendDnu s port) := by
  unfold State.sendDnu
  with_reducible repeat' first | assumption | apply keeps_tpMsgSend

theorem keeps_qlCheck {port : ℕ} {prior s : State} (hk : Keeps prior s) : Keeps prior (State.qlCheck s port) := by
  unfold State.qlCheck
  with_reducible repeat' first | assumption | apply keeps_candLost | apply keeps_ite

theorem keeps_ptpRequest {port : ℕ} {seq : ℕ} {t2 : ℕ} {t1 : ℕ} {prior s : State} (hk : Keeps prior s) : Keeps prior (State.ptpRequest s port seq t2 t1) := by
  unfold State.ptpRequest
  with_reducible repeat' first | assumption | apply keeps_setPtp | apply keeps_tpMsgSend

theorem keeps_ptpMeasure {port : ℕ} {t1 : ℕ} {t2 : ℕ} {t3 : ℕ} {t4 : ℕ} {prior s : State} (hk : Keeps prior s) : Keeps prior (State.ptpMeasure s port t1 t2 t3 t4) := by
  unfold State.ptpMeasure
  with_reducible repeat' first | assumption | apply keeps_putI | apply keeps_rootFollow

theorem keeps_ptpTake {port : ℕ} {sender : Word} {b : PtpBody} {prior s : State} (hk : Keeps prior s) : Keeps prior (State.ptpTake s port sender b) := by
  unfold State.ptpTake
  repeat' first
    | with_reducible assumption
    | with_reducible apply keeps_setPtp
    | with_reducible apply keeps_put
    | with_reducible apply keeps_refTrace
    | with_reducible apply keeps_ptpRequest
    | with_reducible apply keeps_ptpMeasure
    | with_reducible apply keeps_ite
    | (extract_lets +onlyGivenNames x; clear_value x)
    | split

theorem tame_ptpMessage {port : Fin 2} {m : PtpMsg} {prior s : State} (hk : Keeps prior s) : Tame prior (execPtpMessage port m s) := by
  unfold execPtpMessage
  repeat' first
    | with_reducible assumption
    | with_reducible apply tame_next
    | with_reducible apply keeps_put
    | (with_reducible refine keeps_modUx ?_ ?_; rotate_left; (first | exact baseKeeps_refl _ | exact BaseKeeps.of_same rfl rfl rfl rfl rfl rfl))
    | with_reducible apply keeps_sendDnu
    | with_reducible apply keeps_qlCheck
    | with_reducible apply keeps_ptpTake
    | with_reducible apply keeps_ite
    | with_reducible apply tame_ite
    | (extract_lets +onlyGivenNames x; refine (fun (hx : Keeps prior x) => ?_) ?_; clear_value x; rotate_left; subst x)
    | split

theorem keeps_servoRate {p : Part} {n : ℕ} {prior s : State} (hk : Keeps prior s) : Keeps prior (State.servoRate s p n) := by
  unfold State.servoRate
  repeat' first
    | with_reducible assumption
    | with_reducible apply keeps_draw
    | (with_reducible refine keeps_mod ?_ ?_; rotate_left; exact BaseKeeps.of_same rfl rfl rfl rfl rfl rfl)
    | with_reducible apply keeps_tbSetRate

theorem keeps_servo {p : Part} {n : ℕ} {pe : ℤ} {prior s : State} (hk : Keeps prior s) : Keeps prior (State.servo s p n pe) := by
  unfold State.servo
  with_reducible repeat' first | assumption | apply keeps_putI | apply keeps_servoRate | apply keeps_tbSetState | apply keeps_ite

theorem keeps_calStep {p : Part} {x : ℕ} {prior s : State} (hk : Keeps prior s) : Keeps prior (State.calStep s p x) := by
  unfold State.calStep
  repeat' first
    | with_reducible assumption
    | with_reducible apply keeps_draw
    | with_reducible apply keeps_put
    | with_reducible apply keeps_logI
    | with_reducible apply keeps_recal
    | with_reducible apply keeps_modLane
    | with_reducible apply keeps_log
    | with_reducible apply keeps_laneActivate
    | with_reducible apply keeps_ite
    | split

theorem keeps_childStep {p : Part} {n : ℕ} {m : TimeMsg} {th : ℤ} {prior s : State} (hk : Keeps prior s) : Keeps prior (State.childStep s p n m th) := by
  unfold State.childStep
  with_reducible repeat' first | assumption | apply keeps_tbStep | apply keeps_put | apply keeps_ite

theorem keeps_crossPlane {th : ℤ} {prior s : State} (hk : Keeps prior s) : Keeps prior (State.crossPlane s th) := by
  unfold State.crossPlane
  with_reducible repeat' first | assumption | apply keeps_putI | apply keeps_logI | apply keeps_ite

theorem keeps_rootByte {x : ℕ} {m : TimeMsg} {prior s : State} (hk : Keeps prior s) : Keeps prior (State.rootByte s x m) := by
  unfold State.rootByte
  repeat' first
    | with_reducible assumption
    | (with_reducible refine keeps_modUx ?_ ?_; rotate_left; (first | exact baseKeeps_refl _ | exact BaseKeeps.of_same rfl rfl rfl rfl rfl rfl))
    | with_reducible apply keeps_log
    | with_reducible apply keeps_candLost
    | with_reducible apply keeps_refTrace
    | with_reducible apply keeps_ite

theorem keeps_follow {p : Part} {x : ℕ} {cal : Bool} {m : TimeMsg} {t3 : ℕ} {prior s : State} (hk : Keeps prior s) : Keeps prior (State.follow s p x cal m t3) := by
  unfold State.follow
  repeat' first
    | with_reducible assumption
    | with_reducible apply keeps_childStep
    | with_reducible apply keeps_put
    | (with_reducible refine keeps_modEl ?_ ?_ ?_ ?_; rotate_left; (first | exact baseKeeps_refl _ | exact BaseKeeps.of_same rfl rfl rfl rfl rfl rfl); rfl; exact id)
    | with_reducible apply keeps_logI
    | with_reducible apply keeps_servo
    | with_reducible apply keeps_crossPlane
    | with_reducible apply keeps_rootFollow
    | with_reducible apply keeps_refTraceAt
    | with_reducible apply keeps_ite
    | (extract_lets +onlyGivenNames x; refine (fun (hx : Keeps prior x) => ?_) ?_; clear_value x; rotate_left; subst x)
    | (extract_lets +onlyGivenNames x; clear_value x)
    | split

theorem keeps_markStamp {p : Part} {x : ℕ} {seq : BitVec 16} {prior s : State} (hk : Keeps prior s) : Keeps prior (State.markStamp s p x seq) := by
  unfold State.markStamp
  with_reducible repeat' first | assumption | apply keeps_modLane

theorem tame_timeMessage {p : Part} {lane : Fin 160} {m : TimeMsg} {prior s : State} (hk : Keeps prior s) : Tame prior (execTimeMessage p lane m s) := by
  unfold execTimeMessage
  repeat' first
    | with_reducible assumption
    | with_reducible apply tame_next
    | with_reducible apply keeps_markStamp
    | with_reducible apply keeps_rootByte
    | with_reducible apply keeps_modLane
    | with_reducible apply keeps_calStep
    | with_reducible apply keeps_follow
    | with_reducible apply keeps_ite
    | with_reducible apply tame_ite
    | split

theorem tame_upwardMark {p : Part} {lane : Fin 160} {seq : BitVec 16} {dPs : BitVec 32} {prior s : State} (hk : Keeps prior s) : Tame prior (execUpwardMark p lane seq dPs s) := by
  unfold execUpwardMark
  with_reducible repeat' first | assumption | apply tame_next | apply keeps_markStamp | apply keeps_modLane | apply keeps_calClear | apply keeps_put | apply keeps_log | apply keeps_laneActivate | apply tame_ite

theorem tame_markSend {p : Part} {lane : Fin 160} {prior s : State} (hk : Keeps prior s) : Tame prior (execMarkSend p lane s) := by
  unfold execMarkSend
  with_reducible repeat' first | assumption | apply tame_next | apply keeps_modLane | apply keeps_count | apply keeps_log | apply keeps_send | apply tame_ite

theorem tame_tcalRecal {p : Part} {lane : Fin 160} {prior s : State} (hk : Keeps prior s) : Tame prior (execTcalRecal p lane s) := by
  unfold execTcalRecal
  with_reducible repeat' first | assumption | apply tame_next | apply keeps_recal | apply keeps_ite

theorem keeps_report {p : Part} {nonce : List Byte} {prior s : State} (hk : Keeps prior s) : Keeps prior (State.report s p nonce).2 := by
  unfold State.report
  with_reducible repeat' first | assumption | apply keeps_draws

theorem tame_attGo {p : Part} {prior s : State} (hk : Keeps prior s) : Tame prior (execAttGo p s) := by
  unfold execAttGo
  repeat' first
    | with_reducible assumption
    | with_reducible apply tame_next
    | (with_reducible refine keeps_mod ?_ ?_; rotate_left; exact BaseKeeps.of_same rfl rfl rfl rfl rfl rfl)
    | with_reducible apply keeps_ite

theorem tame_attDone {p : Part} {prior s : State} (hk : Keeps prior s) : Tame prior (execAttDone p s) := by
  unfold execAttDone
  repeat' first
    | with_reducible assumption
    | with_reducible apply tame_next
    | with_reducible apply keeps_report
    | (with_reducible refine keeps_mod ?_ ?_; rotate_left; exact ⟨rfl, ⟨rfl, rfl⟩, List.prefix_refl _, id, memory_wf_mwrite _ _ _⟩)
    | with_reducible apply keeps_put
    | split

theorem keeps_sendReport {p : Part} {lane : ℕ} {status : ℕ} {bs : List Byte} {prior s : State} (hk : Keeps prior s) : Keeps prior (State.sendReport s p lane status bs) := by
  unfold State.sendReport
  repeat' first
    | with_reducible assumption
    | with_reducible exact keeps_refl _
    | with_reducible apply keeps_send
    | (refine keeps_foldl ?_ (fun t a => ?_))

theorem tame_attestReq {p : Part} {lane : Fin 160} {nonce : List Byte} {prior s : State} (hk : Keeps prior s) : Tame prior (execAttestReq p lane nonce s) := by
  unfold execAttestReq
  with_reducible repeat' first | assumption | apply tame_next | apply keeps_report | apply keeps_sendReport | apply keeps_ite

theorem tame_attestRsp {lane : Fin 160} {report : List Byte} {pubKey : List Byte} {prior s : State} (hk : Keeps prior s) : Tame prior (execAttestRsp lane report pubKey s) := by
  unfold execAttestRsp
  repeat' first
    | with_reducible assumption
    | with_reducible apply tame_next
    | (with_reducible refine keeps_modUx ?_ ?_; rotate_left; (first | exact baseKeeps_refl _ | exact BaseKeeps.of_same rfl rfl rfl rfl rfl rfl))
    | with_reducible apply keeps_log
    | with_reducible apply keeps_ite

theorem tame_attestRetry {lane : Fin 160} {prior s : State} (hk : Keeps prior s) : Tame prior (execAttestRetry lane s) := by
  unfold execAttestRetry
  with_reducible repeat' first | assumption | apply tame_next | apply keeps_attestAsk | apply keeps_ite

theorem keeps_provLock {p : Part} {prior s : State} (hk : Keeps prior s) : Keeps prior (State.provLock s p) := by
  unfold State.provLock
  with_reducible repeat' first | assumption | apply keeps_put | apply keeps_tdrGate

theorem tame_provLock {p : Part} {prior s : State} (hk : Keeps prior s) : Tame prior (execProvLock p s) := by
  unfold execProvLock
  with_reducible repeat' first | assumption | apply tame_next | apply keeps_provLock

theorem keeps_keyRevoke {p : Part} {mask : ℕ} {prior s : State} (hk : Keeps prior s) : Keeps prior (State.keyRevoke s p mask) := by
  unfold State.keyRevoke
  with_reducible repeat' first | assumption | apply keeps_setBits | apply keeps_put

theorem tame_keyRevoke {p : Part} {mask : Byte} {prior s : State} (hk : Keeps prior s) : Tame prior (execKeyRevoke p mask s) := by
  unfold execKeyRevoke
  with_reducible repeat' first | assumption | apply tame_next | apply keeps_keyRevoke

theorem keeps_dbgUnlock {p : Part} {sig : List Byte} {prior s : State} (hk : Keeps prior s) : Keeps prior (State.dbgUnlock s p sig) := by
  unfold State.dbgUnlock
  with_reducible repeat' first | assumption | apply keeps_put | apply keeps_log | apply keeps_ite

theorem tame_dbgUnlock {p : Part} {sig : List Byte} {prior s : State} (hk : Keeps prior s) : Tame prior (execDbgUnlock p sig s) := by
  unfold execDbgUnlock
  with_reducible repeat' first | assumption | apply tame_next | apply keeps_dbgUnlock

theorem tame_fwImage {image : List Byte} {keyId : Word} {sig : List Byte} {prior s : State} (hk : Keeps prior s) : Tame prior (execFwImage image keyId sig s) := by
  unfold execFwImage
  repeat' first
    | with_reducible assumption
    | with_reducible apply tame_next
    | (with_reducible refine keeps_modUx ?_ ?_; rotate_left; (first | exact baseKeeps_refl _ | exact BaseKeeps.of_same rfl rfl rfl rfl rfl rfl))
    | with_reducible apply keeps_log
    | with_reducible apply keeps_ite

theorem keeps_sideRead {p : Part} {off : ℕ} {prior s : State} (hk : Keeps prior s) : Keeps prior (State.sideRead s p off).2 := by
  unfold State.sideRead
  repeat' first
    | with_reducible assumption
    | with_reducible apply keeps_frcRead
    | with_reducible apply keeps_tbReadSec
    | with_reducible apply keeps_capPop
    | with_reducible apply keeps_dumpRead
    | with_reducible apply keeps_draw
    | (extract_lets +onlyGivenNames x; refine (fun (hx : Keeps prior x.2) => ?_) ?_; clear_value x; rotate_left; subst x)
    | (extract_lets +onlyGivenNames x; clear_value x)
    | split

theorem keeps_regRead {p : Part} {off : ℕ} {size : AccSize} {prior s : State} (hk : Keeps prior s) : Keeps prior (State.regRead s p off size).2 := by
  unfold State.regRead
  repeat' first
    | with_reducible assumption
    | with_reducible apply keeps_sideRead
    | (extract_lets +onlyGivenNames x; refine (fun (hx : Keeps prior x.2) => ?_) ?_; clear_value x; rotate_left; subst x)
    | (extract_lets +onlyGivenNames x; clear_value x)
    | split

theorem keeps_selftestGo {p : Part} {action : ℕ} {mask : ℕ} {force : Bool} {prior s : State} (hk : Keeps prior s) : Keeps prior (State.selftestGo s p action mask force) := by
  unfold State.selftestGo
  repeat' first
    | with_reducible assumption
    | with_reducible apply keeps_logOpen
    | with_reducible apply keeps_put
    | (with_reducible refine keeps_mod ?_ ?_; rotate_left; exact BaseKeeps.of_same rfl rfl rfl rfl rfl rfl)
    | with_reducible apply keeps_ite

theorem tame_selftestGo {p : Part} {action : Byte} {mask : Byte} {force : Bool} {prior s : State} (hk : Keeps prior s) : Tame prior (execSelftestGo p action mask force s) := by
  unfold execSelftestGo
  with_reducible repeat' first | assumption | apply tame_next | apply keeps_put | apply keeps_selftestGo | apply keeps_ite

theorem tame_selftestStart {p : Part} {prior s : State} (hk : Keeps prior s) : Tame prior (execSelftestStart p s) := by
  unfold execSelftestStart
  with_reducible repeat' first | assumption | apply tame_next | apply keeps_put | apply keeps_ite

theorem tame_selftestDefer {p : Part} {prior s : State} (hk : Keeps prior s) : Tame prior (execSelftestDefer p s) := by
  unfold execSelftestDefer
  with_reducible repeat' first | assumption | apply tame_next | apply keeps_put | apply keeps_log | apply keeps_ite

theorem keeps_actionLeaves {a : ℕ} {mask : ℕ} {result : ℕ} {prior s : State} (hk : Keeps prior s) : Keeps prior (State.actionLeaves s a mask result) := by
  unfold State.actionLeaves
  repeat' first
    | with_reducible assumption
    | (with_reducible refine keeps_modEl ?_ ?_ ?_ ?_; rotate_left; exact baseKeeps_refl _; rfl; first | exact fun _ => memory_wf_nil | exact memory_wf_filter _ _ | exact memory_wf_mwrite _ _ _)
    | with_reducible apply keeps_setBits
    | with_reducible apply keeps_ite

theorem tame_selftestDone {p : Part} {result : Byte} {prior s : State} (hk : Keeps prior s) : Tame prior (execSelftestDone p result s) := by
  unfold execSelftestDone
  with_reducible repeat' first | assumption | apply tame_next | apply keeps_put | apply keeps_actionLeaves | apply keeps_log | apply keeps_heldRelease | apply keeps_ite

theorem keeps_testUnlock {p : Part} {v : Bool} {prior s : State} (hk : Keeps prior s) : Keeps prior (State.testUnlock s p v) := by
  unfold State.testUnlock
  with_reducible repeat' first | assumption | apply keeps_log | apply keeps_put | apply keeps_ite

theorem tame_testUnlock {p : Part} {v : Bool} {prior s : State} (hk : Keeps prior s) : Tame prior (execTestUnlock p v s) := by
  unfold execTestUnlock
  with_reducible repeat' first | assumption | apply tame_next | apply keeps_testUnlock

theorem tame_thermWarn {tj : BitVec 16} {sensor : Fin 16} {prior s : State} (hk : Keeps prior s) : Tame prior (execThermWarn tj sensor s) := by
  unfold execThermWarn
  repeat' first
    | with_reducible assumption
    | with_reducible apply tame_next
    | (with_reducible refine keeps_modUx ?_ ?_; rotate_left; (first | exact baseKeeps_refl _ | exact BaseKeeps.of_same rfl rfl rfl rfl rfl rfl))
    | with_reducible apply keeps_replaceSet
    | with_reducible apply keeps_log
    | with_reducible apply keeps_ite

theorem tame_thermClear {sensor : Fin 16} {prior s : State} (hk : Keeps prior s) : Tame prior (execThermClear sensor s) := by
  unfold execThermClear
  repeat' first
    | with_reducible assumption
    | with_reducible apply tame_next
    | (with_reducible refine keeps_modUx ?_ ?_; rotate_left; (first | exact baseKeeps_refl _ | exact BaseKeeps.of_same rfl rfl rfl rfl rfl rfl))

theorem keeps_tripReset  {prior s : State} (hk : Keeps prior s) : Keeps prior (State.tripReset s) := by
  unfold State.tripReset
  repeat' first
    | with_reducible assumption
    | with_reducible exact keeps_refl _
    | with_reducible apply keeps_warmReset
    | (with_reducible refine keeps_modUx ?_ ?_; rotate_left; (first | exact baseKeeps_refl _ | exact BaseKeeps.of_same rfl rfl rfl rfl rfl rfl))
    | with_reducible apply keeps_setDstate
    | (refine keeps_foldl ?_ (fun t a => ?_))

theorem tame_thermtrip {tj : BitVec 16} {sensor : Fin 16} {prior s : State} (hk : Keeps prior s) : Tame prior (execThermtrip tj sensor s) := by
  unfold execThermtrip
  repeat' first
    | with_reducible assumption
    | with_reducible apply tame_next
    | (with_reducible refine keeps_modUx ?_ ?_; rotate_left; (first | exact baseKeeps_refl _ | exact BaseKeeps.of_same rfl rfl rfl rfl rfl rfl))
    | with_reducible apply keeps_log
    | with_reducible apply keeps_tripReset
    | with_reducible apply keeps_ite

theorem keeps_stackGenerations  {prior s : State} (hk : Keeps prior s) : Keeps prior (State.stackGenerations s) := by
  unfold State.stackGenerations
  exact keeps_unmirrored (keeps_draws (keeps_modUx hk (baseKeeps_refl _)))

theorem tame_hbmStackFail {stack : Fin 8} {prior s : State} (hk : Keeps prior s) : Tame prior (execHbmStackFail stack s) := by
  unfold execHbmStackFail
  repeat' first
    | with_reducible assumption
    | with_reducible apply tame_next
    | (with_reducible refine keeps_modUx ?_ ?_; rotate_left; (first | exact baseKeeps_refl _ | exact BaseKeeps.of_same rfl rfl rfl rfl rfl rfl))
    | with_reducible apply keeps_setDstate
    | with_reducible apply keeps_put
    | with_reducible apply keeps_retWrite
    | with_reducible apply keeps_stackGenerations
    | with_reducible apply keeps_replaceSet
    | with_reducible apply keeps_ite

theorem tame_quadrantFail {q : Fin 4} {prior s : State} (hk : Keeps prior s) : Tame prior (execQuadrantFail q s) := by
  unfold execQuadrantFail
  repeat' first
    | with_reducible assumption
    | with_reducible exact keeps_refl _
    | with_reducible apply tame_next
    | with_reducible apply keeps_laneFailOpen
    | with_reducible apply keeps_replaceSet
    | (refine keeps_foldl ?_ (fun t a => ?_))
    | with_reducible apply keeps_ite

theorem keeps_replaceClear {mask : ℕ} {persist : ℕ} {prior s : State} (hk : Keeps prior s) : Keeps prior (State.replaceClear s mask persist) := by
  unfold State.replaceClear
  repeat' first
    | with_reducible assumption
    | with_reducible exact keeps_refl _
    | with_reducible apply keeps_put
    | with_reducible apply keeps_replaceSet
    | (refine keeps_foldl ?_ (fun t a => ?_))
    | with_reducible apply keeps_ite

theorem tame_replaceClear {mask : BitVec 6} {persist : BitVec 6} {prior s : State} (hk : Keeps prior s) : Tame prior (execReplaceClear mask persist s) := by
  unfold execReplaceClear
  with_reducible repeat' first | assumption | apply tame_next | apply keeps_replaceClear

end Sys2Proof.Machine
end

