-- ==== Sys2Proof/Laws/KeepReg.lean ====
section
/-! SUPPORT. What each operation keeps (`Keeps`, `Tame`): register accesses, the remaining slots and the clock tick. One lemma for each operation; `assumption` ends every chain at the state it began with. -/

namespace Sys2Proof.Machine

theorem keeps_fieldTake {p : Part} {off : ℕ} {f : FieldRow} {v : ℕ} {prior s : State} (hk : Keeps prior s) : Keeps prior (State.fieldTake s p off f v) := by
  unfold State.fieldTake
  with_reducible repeat' first | assumption | apply keeps_setReg | apply keeps_logOpen | apply keeps_ite

theorem keeps_fieldWrite {p : Part} {off : ℕ} {mask : ℕ} {w : Word} {f : FieldRow} {prior s : State} (hk : Keeps prior s) : Keeps prior (State.fieldWrite s p off mask w f) := by
  unfold State.fieldWrite
  repeat' first
    | with_reducible assumption
    | with_reducible apply keeps_setReg
    | with_reducible apply keeps_fieldTake
    | with_reducible apply keeps_logOpen
    | with_reducible apply keeps_ite
    | split

theorem keeps_fieldsWrite {p : Part} {off : ℕ} {mask : ℕ} {w : Word} {r : RegRow} {prior s : State} (hk : Keeps prior s) : Keeps prior (State.fieldsWrite s p off mask w r) := by
  unfold State.fieldsWrite
  repeat' first
    | with_reducible assumption
    | with_reducible exact keeps_refl _
    | with_reducible apply keeps_fieldWrite
    | with_reducible apply keeps_log
    | (refine keeps_foldl ?_ (fun t a => ?_))
    | with_reducible apply keeps_ite

theorem keeps_actTime {p : Part} {off : ℕ} {mask : ℕ} {w : Word} {prior s : State} (hk : Keeps prior s) : Keeps prior (State.actTime s p off mask w) := by
  unfold State.actTime
  repeat' first
    | with_reducible assumption
    | with_reducible apply keeps_slewHold
    | with_reducible apply tame_tb3Step
    | with_reducible apply tame_tb3LockDecl
    | with_reducible apply tame_tb3RateWrite
    | with_reducible apply tame_pulseDisarm
    | with_reducible apply tame_pulseArm
    | with_reducible apply keeps_ite
    | with_reducible apply keeps_after
    | split

theorem keeps_actSeq {p : Part} {off : ℕ} {w : Word} {prior s : State} (hk : Keeps prior s) : Keeps prior (State.actSeq s p off w) := by
  unfold State.actSeq
  repeat' first
    | with_reducible assumption
    | with_reducible apply tame_seqUnload
    | with_reducible apply tame_seqLoad
    | with_reducible apply tame_tseqLoad
    | with_reducible apply tame_seqStart
    | with_reducible apply tame_tseqStart
    | with_reducible apply keeps_put
    | with_reducible apply keeps_ite
    | with_reducible apply keeps_after
    | split

theorem keeps_actLane {p : Part} {x : ℕ} {o : ℕ} {w : Word} {prior s : State} (hk : Keeps prior s) : Keeps prior (State.actLane s p x o w) := by
  unfold State.actLane
  with_reducible repeat' first | assumption | apply tame_laneCntClr | apply tame_laneLeaveCmd | apply tame_laneJoinCmd | apply tame_tcalRecal | apply keeps_ite | apply keeps_after

theorem keeps_actDma {off : ℕ} {w : Word} {prior s : State} (hk : Keeps prior s) : Keeps prior (State.actDma s off w) := by
  unfold State.actDma
  with_reducible repeat' first | assumption | apply tame_dmaClrHalt | apply tame_dmaHostAbort | apply tame_dmaHostGo | apply keeps_ite | apply keeps_after

theorem keeps_actMan {p : Part} {off : ℕ} {w : Word} {prior s : State} (hk : Keeps prior s) : Keeps prior (State.actMan s p off w) := by
  unfold State.actMan
  with_reducible repeat' first | assumption | apply keeps_manDiscard | apply keeps_manDisarmHall | apply tame_manArm | apply keeps_manNow | apply tame_hallGo | apply keeps_ite | apply keeps_after

theorem keeps_actSec {p : Part} {off : ℕ} {w : Word} {prior s : State} (hk : Keeps prior s) : Keeps prior (State.actSec s p off w) := by
  unfold State.actSec
  repeat' first
    | with_reducible assumption
    | with_reducible apply keeps_provLock
    | with_reducible apply keeps_dbgUnlock
    | with_reducible apply tame_attGo
    | with_reducible apply keeps_keyRevoke
    | (with_reducible refine keeps_mod ?_ ?_; rotate_left; exact BaseKeeps.of_same rfl rfl rfl rfl rfl rfl)
    | with_reducible apply keeps_ite
    | with_reducible apply keeps_after

theorem keeps_actTest {p : Part} {off : ℕ} {mask : ℕ} {w : Word} {prior s : State} (hk : Keeps prior s) : Keeps prior (State.actTest s p off mask w) := by
  unfold State.actTest
  with_reducible repeat' first | assumption | apply keeps_testUnlock | apply keeps_selftestGo | apply keeps_ite

theorem keeps_candOff {k : ℕ} {prior s : State} (hk : Keeps prior s) : Keeps prior (State.candOff s k) := by
  unfold State.candOff
  with_reducible repeat' first | assumption | apply keeps_draw | apply keeps_candLost | apply keeps_ite

theorem keeps_dcoExtend {off : ℕ} {prior s : State} (hk : Keeps prior s) : Keeps prior (State.dcoExtend s off) := by
  unfold State.dcoExtend
  with_reducible repeat' first | assumption | apply keeps_setReg

theorem keeps_actRef {off : ℕ} {mask : ℕ} {w : Word} {prior s : State} (hk : Keeps prior s) : Keeps prior (State.actRef s off mask w) := by
  unfold State.actRef
  repeat' first
    | with_reducible assumption
    | with_reducible apply tame_refModeWrite
    | with_reducible apply keeps_wtrClear
    | with_reducible apply keeps_qlCheck
    | with_reducible apply tame_rootStart
    | with_reducible apply keeps_refResolve
    | with_reducible apply keeps_dcoExtend
    | with_reducible apply keeps_dcoApply
    | with_reducible apply keeps_candOff
    | with_reducible apply keeps_draw
    | with_reducible apply tame_todWrite
    | with_reducible apply keeps_sendDnu
    | with_reducible apply keeps_ite
    | (extract_lets +onlyGivenNames x; refine (fun (hx : Keeps prior x.2) => ?_) ?_; clear_value x; rotate_left; subst x)
    | with_reducible apply keeps_after

theorem keeps_actUx {off : ℕ} {w : Word} {prior s : State} (hk : Keeps prior s) : Keeps prior (State.actUx s off w) := by
  unfold State.actUx
  with_reducible repeat' first | assumption | apply tame_ledgChainReset | apply tame_ledgVerify | apply tame_lockRearm | apply tame_hcReadmit | apply tame_hcAdviseFailed | apply tame_hcFence | apply keeps_replaceClear | apply keeps_draws | apply keeps_ite | apply keeps_after

theorem keeps_regAct {p : Part} {off : ℕ} {mask : ℕ} {w : Word} {prior s : State} (hk : Keeps prior s) : Keeps prior (State.regAct s p off mask w) := by
  unfold State.regAct
  repeat' first
    | with_reducible assumption
    | with_reducible apply keeps_actLane
    | with_reducible apply keeps_actTime
    | with_reducible apply keeps_actSeq
    | with_reducible apply tame_restoredWrite
    | with_reducible apply keeps_actRef
    | with_reducible apply tame_hincWrite
    | with_reducible apply keeps_guardAdd
    | with_reducible apply keeps_actDma
    | with_reducible apply keeps_fatalClr
    | with_reducible apply keeps_faultHoldOff
    | with_reducible apply keeps_fmulFollow
    | with_reducible apply keeps_actMan
    | with_reducible apply keeps_actSec
    | with_reducible apply keeps_actTest
    | with_reducible apply keeps_actUx
    | with_reducible apply keeps_ite
    | (extract_lets +onlyGivenNames x; refine (fun (hx : Keeps prior x) => ?_) ?_; clear_value x; rotate_left; subst x)
    | with_reducible apply keeps_after
    | split

theorem keeps_regPut {p : Part} {off : ℕ} {mask : ℕ} {w : Word} {r : RegRow} {prior s : State} (hk : Keeps prior s) : Keeps prior (State.regPut s p off mask w r) := by
  unfold State.regPut
  with_reducible repeat' first | assumption | apply keeps_stage | apply keeps_fieldsWrite | apply keeps_regAct | apply keeps_ite

theorem keeps_secWrite {p : Part} {off : ℕ} {n : ℕ} {v : Word} {prior s : State} (hk : Keeps prior s) : Keeps prior (State.secWrite s p off n v) := by
  unfold State.secWrite
  repeat' first
    | with_reducible assumption
    | (with_reducible refine keeps_mod ?_ ?_; rotate_left; exact ⟨rfl, ⟨rfl, rfl⟩, List.prefix_refl _, id, memory_wf_mwrite _ _ _⟩)
    | with_reducible apply keeps_logOpen
    | with_reducible apply keeps_ite
    | (extract_lets +onlyGivenNames x; clear_value x)
    | split

theorem keeps_cntWrite {p : Part} {i : ℕ} {w : Word} {prior s : State} (hk : Keeps prior s) : Keeps prior (State.cntWrite s p i w) := by
  unfold State.cntWrite
  repeat' first
    | with_reducible assumption
    | (with_reducible refine keeps_modEl ?_ ?_ ?_ ?_; rotate_left; (first | exact baseKeeps_refl _ | exact BaseKeeps.of_same rfl rfl rfl rfl rfl rfl); rfl; exact id)
    | (with_reducible refine keeps_modUx ?_ ?_; rotate_left; (first | exact baseKeeps_refl _ | exact BaseKeeps.of_same rfl rfl rfl rfl rfl rfl))
    | with_reducible apply keeps_ite
    | split

theorem keeps_watchWrite {i : ℕ} {h : ℕ} {mask : ℕ} {w : Word} {prior s : State} (hk : Keeps prior s) : Keeps prior (State.watchWrite s i h mask w) := by
  unfold State.watchWrite
  with_reducible repeat' first | assumption | apply keeps_setWatch | apply keeps_logOpen | apply keeps_ite

theorem keeps_hwinWrite {off : ℕ} {bs : List (Option Byte)} {prior s : State} (hk : Keeps prior s) : Keeps prior (State.hwinWrite s off bs) := by
  unfold State.hwinWrite
  repeat' first
    | with_reducible assumption
    | with_reducible exact keeps_refl _
    | with_reducible apply keeps_accessErr
    | with_reducible apply keeps_hbmPut
    | with_reducible apply keeps_answer
    | (refine keeps_foldl ?_ (fun t a => ?_))
    | with_reducible apply keeps_ite
    | split

theorem keeps_highWrite {p : Part} {off : ℕ} {size : AccSize} {v : Word} {prior s : State} (hk : Keeps prior s) : Keeps prior (State.highWrite s p off size v) := by
  unfold State.highWrite
  repeat' first
    | with_reducible assumption
    | with_reducible apply keeps_cntWrite
    | with_reducible apply keeps_answer
    | with_reducible apply keeps_watchWrite
    | with_reducible apply keeps_regPut
    | with_reducible apply keeps_accessErr
    | with_reducible apply keeps_hwinWrite
    | with_reducible apply keeps_ite
    | (extract_lets +onlyGivenNames x; clear_value x)
    | split

theorem keeps_regWrite {p : Part} {off : ℕ} {size : AccSize} {v : Word} {prior s : State} (hk : Keeps prior s) : Keeps prior (State.regWrite s p off size v) := by
  unfold State.regWrite
  repeat' first
    | with_reducible assumption
    | with_reducible apply keeps_accessErr
    | with_reducible apply keeps_highWrite
    | with_reducible apply keeps_regPut
    | with_reducible apply keeps_secWrite
    | with_reducible apply keeps_answer
    | with_reducible apply keeps_ite
    | split

theorem tame_registerWrite {p : Part} {off : BitVec 26} {size : AccSize} {v : Word} {prior s : State} (hk : Keeps prior s) : Tame prior (execRegisterWrite p off size v s) := by
  unfold execRegisterWrite
  with_reducible repeat' first | assumption | apply tame_next | apply keeps_regWrite

theorem tame_stageWrite {p : Part} {off : BitVec 26} {v : Word} {size : AccSize} {prior s : State} (hk : Keeps prior s) : Tame prior (execStageWrite p off v size s) := by
  unfold execStageWrite
  with_reducible repeat' first | assumption | apply tame_next | apply keeps_regWrite | apply keeps_ite

theorem keeps_vc5Read {p : Part} {addr n : Nat} {prior s : State} (hk : Keeps prior s) : Keeps prior (s.vc5Read p addr n).2 := by
  induction n generalizing s with
  | zero => exact hk
  | succ n ih => exact keeps_regRead (size := .eight) (ih hk)

theorem keeps_vc5Write {p : Part} {addr n : Nat} {data : List Byte} {prior s : State} (hk : Keeps prior s) : Keeps prior (s.vc5Write p addr data n) := by
  induction n generalizing s with
  | zero => exact hk
  | succ n ih => exact keeps_regWrite (ih hk)

theorem tame_vc5RdReq {p : Part} {addr : Word} {len : BitVec 16} {seq : BitVec 16} {prior s : State} (hk : Keeps prior s) : Tame prior (execVc5RdReq p addr len seq s) := by
  unfold execVc5RdReq
  with_reducible repeat' first | assumption | apply tame_next | apply keeps_vc5Read | apply keeps_sendUp | apply keeps_ite

theorem tame_vc5WrReq {p : Part} {addr : Word} {data : List Byte} {seq : BitVec 16} {prior s : State} (hk : Keeps prior s) : Tame prior (execVc5WrReq p addr data seq s) := by
  unfold execVc5WrReq
  with_reducible repeat' first | assumption | apply tame_next | apply keeps_vc5Write | apply keeps_answer | apply keeps_sendUp | apply keeps_ite

theorem tame_accessDomainTimeout {p : Part} {write : Bool} {off : BitVec 26} {prior s : State} (hk : Keeps prior s) : Tame prior (execAccessDomainTimeout p write off s) := by
  unfold execAccessDomainTimeout
  with_reducible repeat' first | assumption | apply tame_next | apply keeps_accessErr | apply keeps_ite

theorem tame_evtTransfer  {prior s : State} (hk : Keeps prior s) : Tame prior (execEvtTransfer s) := by
  unfold execEvtTransfer
  repeat' first
    | with_reducible assumption
    | with_reducible apply tame_next
    | (with_reducible refine keeps_modEl ?_ ?_ ?_ ?_; rotate_left; (first | exact baseKeeps_refl _ | exact BaseKeeps.of_same rfl rfl rfl rfl rfl rfl); rfl; exact id)

theorem tame_rng {e : Env} {d : Fin 64} {a : Fin 64} {b : Fin 64} {purpose : BitVec 16} {prior s : State} (hk : Keeps prior s) : Tame prior (execRng e d a b purpose s) := by
  unfold execRng
  with_reducible repeat' first | assumption | apply tame_issue

theorem tame_rngx {e : Env} {d : Fin 64} {a : Fin 64} {b : Fin 64} {purpose : BitVec 16} {prior s : State} (hk : Keeps prior s) : Tame prior (execRngx e d a b purpose s) := by
  unfold execRngx
  with_reducible repeat' first | assumption | apply tame_issue

theorem tame_srng {e : Env} {d : Fin 64} {n : Fin 64} {purpose : BitVec 16} {prior s : State} (hk : Keeps prior s) : Tame prior (execSrng e d n purpose s) := by
  unfold execSrng
  with_reducible repeat' first | assumption | apply tame_issue

theorem tame_snext {e : Env} {d : Fin 64} {n : Fin 64} {prior s : State} (hk : Keeps prior s) : Tame prior (execSnext e d n s) := by
  unfold execSnext
  with_reducible repeat' first | assumption | apply tame_issue

theorem tame_sset {e : Env} {n : Fin 64} {a : Fin 64} {b : Fin 64} {prior s : State} (hk : Keeps prior s) : Tame prior (execSset e n a b s) := by
  unfold execSset
  with_reducible repeat' first | assumption | apply tame_issue

theorem tame_srd {e : Env} {d : Fin 64} {n : Fin 64} {prior s : State} (hk : Keeps prior s) : Tame prior (execSrd e d n s) := by
  unfold execSrd
  with_reducible repeat' first | assumption | apply tame_issue

theorem tame_rsto {e : Env} {a : Fin 64} {b : Fin 64} {c : Fin 64} {purpose : BitVec 16} {prior s : State} (hk : Keeps prior s) : Tame prior (execRsto e a b c purpose s) := by
  unfold execRsto
  with_reducible repeat' first | assumption | apply tame_issue

theorem tame_nop {p : Part} {e : Env} {prior s : State} (hk : Keeps prior s) : Tame prior (execNop p e s) := by
  unfold execNop
  with_reducible repeat' first | assumption | apply tame_issue

theorem tame_br {p : Part} {e : Env} {tgt : BitVec 16} {prior s : State} (hk : Keeps prior s) : Tame prior (execBr p e tgt s) := by
  unfold execBr
  with_reducible repeat' first | assumption | apply tame_issue

theorem tame_brr {p : Part} {e : Env} {a : Fin 64} {prior s : State} (hk : Keeps prior s) : Tame prior (execBrr p e a s) := by
  unfold execBrr
  with_reducible repeat' first | assumption | apply tame_issue

theorem tame_loop {p : Part} {e : Env} {d : Fin 64} {tgt : BitVec 16} {prior s : State} (hk : Keeps prior s) : Tame prior (execLoop p e d tgt s) := by
  unfold execLoop
  with_reducible repeat' first | assumption | apply tame_issue

theorem keeps_waitHold {p : Part} {e : Env} {h : Hold} {prior s : State} (hk : Keeps prior s) : Keeps prior (State.waitHold s p e h) := by
  unfold State.waitHold
  with_reducible repeat' first | assumption | apply keeps_modSeq | apply keeps_bundleEnd | apply keeps_ite

theorem keeps_anchorPass {p : Part} {t : ℕ} {a : ℕ} {prior s : State} (hk : Keeps prior s) : Keeps prior (State.anchorPass s p t a) := by
  unfold State.anchorPass
  with_reducible repeat' first | assumption | apply keeps_anchorIssue | apply keeps_put | apply keeps_modSeq

theorem tame_waitt {p : Part} {e : Env} {tb : Fin 4} {rel : Bool} {r : Fin 64} {ns : BitVec 32} {prior s : State} (hk : Keeps prior s) : Tame prior (execWaitt p e tb rel r ns s) := by
  unfold execWaitt
  with_reducible repeat' first | assumption | apply tame_next | exact tame_refused _ | apply keeps_anchorPass | apply keeps_slotOp | apply keeps_put | apply keeps_waitHold | apply keeps_ite | apply tame_ite

theorem tame_anchorRelease {p : Part} {prior s : State} (hk : Keeps prior s) : Tame prior (execAnchorRelease p s) := by
  unfold execAnchorRelease
  repeat' first
    | with_reducible assumption
    | with_reducible apply tame_next
    | with_reducible apply keeps_anchorPass
    | with_reducible apply keeps_ite
    | split

theorem tame_waitc {p : Part} {e : Env} {core : BitVec 8} {k : BitVec 6} {a : Fin 64} {eq : Bool} {pre : Fin 4} {tmo : BitVec 24} {cf : Fin 8} {prior s : State} (hk : Keeps prior s) : Tame prior (execWaitc p e core k a eq pre tmo cf s) := by
  unfold execWaitc
  with_reducible repeat' first | assumption | apply tame_next | exact tame_refused _ | apply keeps_waitHold | apply keeps_slotOp | apply tame_ite

theorem tame_waitcTimeout {p : Part} {prior s : State} (hk : Keeps prior s) : Tame prior (execWaitcTimeout p s) := by
  unfold execWaitcTimeout
  repeat' first
    | with_reducible assumption
    | with_reducible apply tame_next
    | with_reducible apply keeps_logW
    | with_reducible apply keeps_programFault
    | with_reducible apply tame_ite
    | split

theorem tame_halt {p : Part} {e : Env} {prior s : State} (hk : Keeps prior s) : Tame prior (execHalt p e s) := by
  unfold execHalt
  with_reducible repeat' first | assumption | apply tame_issue

theorem tame_quiet {p : Part} {e : Env} {mask : BitVec 7} {n : BitVec 24} {prior s : State} (hk : Keeps prior s) : Tame prior (execQuiet p e mask n s) := by
  unfold execQuiet
  with_reducible repeat' first | assumption | apply tame_issue

theorem tame_windowClose {p : Part} {prior s : State} (hk : Keeps prior s) : Tame prior (execWindowClose p s) := by
  unfold execWindowClose
  with_reducible repeat' first | assumption | apply tame_next | apply keeps_closeWindow | apply keeps_ite

theorem tame_cinc {e : Env} {core : BitVec 8} {k : BitVec 6} {amt : BitVec 16} {prior s : State} (hk : Keeps prior s) : Tame prior (execCinc e core k amt s) := by
  unfold execCinc
  with_reducible repeat' first | assumption | apply tame_issue

theorem tame_cincr {e : Env} {core : BitVec 8} {k : BitVec 6} {a : Fin 64} {prior s : State} (hk : Keeps prior s) : Tame prior (execCincr e core k a s) := by
  unfold execCincr
  with_reducible repeat' first | assumption | apply tame_issue

theorem tame_crd {e : Env} {d : Fin 64} {core : BitVec 8} {k : BitVec 6} {prior s : State} (hk : Keeps prior s) : Tame prior (execCrd e d core k s) := by
  unfold execCrd
  with_reducible repeat' first | assumption | apply tame_issue

theorem tame_wreg {e : Env} {core : BitVec 8} {k : BitVec 6} {a : Fin 64} {eq : Bool} {eng : Fin 8} {widx : BitVec 12} {prior s : State} (hk : Keeps prior s) : Tame prior (execWreg e core k a eq eng widx s) := by
  unfold execWreg
  with_reducible repeat' first | assumption | apply tame_issue

theorem tame_wclr {e : Env} {widx : BitVec 12} {prior s : State} (hk : Keeps prior s) : Tame prior (execWclr e widx s) := by
  unfold execWclr
  with_reducible repeat' first | assumption | apply tame_issue

theorem tame_arrive {e : Env} {q : QDest} {bid : BitVec 8} {scope : Fin 4} {prior s : State} (hk : Keeps prior s) : Tame prior (execArrive e q bid scope s) := by
  unfold execArrive
  with_reducible repeat' first | assumption | apply tame_issue

theorem tame_bar {e : Env} {q : QDest} {bid : BitVec 8} {scope : Fin 4} {prior s : State} (hk : Keeps prior s) : Tame prior (execBar e q bid scope s) := by
  unfold execBar
  with_reducible repeat' first | assumption | apply tame_issue

theorem tame_ann {e : Env} {q : QDest} {a : Fin 64} {b : Fin 64} {rcore : BitVec 8} {rk : BitVec 6} {ramt : BitVec 4} {prior s : State} (hk : Keeps prior s) : Tame prior (execAnn e q a b rcore rk ramt s) := by
  unfold execAnn
  with_reducible repeat' first | assumption | apply tame_issue

theorem tame_treeOp {e : Env} {slot : ℕ} {q : QDest} {regs : List (Fin 64)} {ok : Bool} {queue : QueueId} {kind : QKind} {prior s : State} (hk : Keeps prior s) : Tame prior (State.treeOp s e slot q regs ok queue kind) := by
  unfold State.treeOp
  with_reducible repeat' first | assumption | apply tame_issue

theorem tame_tslot {e : Env} {q : QDest} {rid : BitVec 12} {opk : Fin 8} {a : Fin 64} {b : Fin 64} {prior s : State} (hk : Keeps prior s) : Tame prior (execTslot e q rid opk a b s) := by
  unfold execTslot
  with_reducible repeat' first | assumption | apply tame_treeOp

theorem tame_tbar {e : Env} {q : QDest} {bid : BitVec 8} {a : Fin 64} {prior s : State} (hk : Keeps prior s) : Tame prior (execTbar e q bid a s) := by
  unfold execTbar
  with_reducible repeat' first | assumption | apply tame_treeOp

theorem tame_tlreq {e : Env} {q : QDest} {a : Fin 64} {rel : Bool} {start : Bool} {lid : BitVec 8} {gmask : BitVec 16} {prior s : State} (hk : Keeps prior s) : Tame prior (execTlreq e q a rel start lid gmask s) := by
  unfold execTlreq
  with_reducible repeat' first | assumption | apply tame_treeOp

theorem tame_tcmpg {e : Env} {q : QDest} {rid : BitVec 12} {a : Fin 64} {n : Fin 64} {prior s : State} (hk : Keeps prior s) : Tame prior (execTcmpg e q rid a n s) := by
  unfold execTcmpg
  with_reducible repeat' first | assumption | apply tame_treeOp

theorem tame_tlock {e : Env} {q : QDest} {a : Fin 64} {b : Fin 64} {c : Fin 64} {prior s : State} (hk : Keeps prior s) : Tame prior (execTlock e q a b c s) := by
  unfold execTlock
  with_reducible repeat' first | assumption | apply tame_treeOp

theorem tame_trel {e : Env} {q : QDest} {rid : BitVec 12} {prior s : State} (hk : Keeps prior s) : Tame prior (execTrel e q rid s) := by
  unfold execTrel
  with_reducible repeat' first | assumption | apply tame_treeOp

theorem tame_vgen {e : Env} {q : QDest} {a : Fin 64} {b : Fin 64} {prior s : State} (hk : Keeps prior s) : Tame prior (execVgen e q a b s) := by
  unfold execVgen
  with_reducible repeat' first | assumption | apply tame_treeOp

theorem tame_vseal {e : Env} {q : QDest} {a : Fin 64} {prior s : State} (hk : Keeps prior s) : Tame prior (execVseal e q a s) := by
  unfold execVseal
  with_reducible repeat' first | assumption | apply tame_treeOp

theorem tame_vcmp {e : Env} {q : QDest} {a : Fin 64} {b : Fin 64} {prior s : State} (hk : Keeps prior s) : Tame prior (execVcmp e q a b s) := by
  unfold execVcmp
  with_reducible repeat' first | assumption | apply tame_treeOp

theorem tame_vrest {e : Env} {q : QDest} {a : Fin 64} {b : Fin 64} {prior s : State} (hk : Keeps prior s) : Tame prior (execVrest e q a b s) := by
  unfold execVrest
  with_reducible repeat' first | assumption | apply tame_treeOp

theorem tame_vdrop {e : Env} {q : QDest} {a : Fin 64} {prior s : State} (hk : Keeps prior s) : Tame prior (execVdrop e q a s) := by
  unfold execVdrop
  with_reducible repeat' first | assumption | apply tame_treeOp

theorem tame_lseal {e : Env} {q : QDest} {a : Fin 64} {prior s : State} (hk : Keeps prior s) : Tame prior (execLseal e q a s) := by
  unfold execLseal
  with_reducible repeat' first | assumption | apply tame_treeOp

theorem tame_lflush {e : Env} {q : QDest} {prior s : State} (hk : Keeps prior s) : Tame prior (execLflush e q s) := by
  unfold execLflush
  with_reducible repeat' first | assumption | apply tame_treeOp

theorem tame_larch {e : Env} {q : QDest} {a : Fin 64} {b : Fin 64} {prior s : State} (hk : Keeps prior s) : Tame prior (execLarch e q a b s) := by
  unfold execLarch
  with_reducible repeat' first | assumption | apply tame_treeOp

theorem tame_ltrim {e : Env} {q : QDest} {a : Fin 64} {prior s : State} (hk : Keeps prior s) : Tame prior (execLtrim e q a s) := by
  unfold execLtrim
  with_reducible repeat' first | assumption | apply tame_treeOp

theorem keeps_wdTick {p : Part} {prior s : State} (hk : Keeps prior s) : Keeps prior (State.wdTick s p) := by
  unfold State.wdTick
  repeat' first
    | with_reducible assumption
    | (with_reducible refine keeps_mod ?_ ?_; rotate_left; exact BaseKeeps.of_same rfl rfl rfl rfl rfl rfl)


end Sys2Proof.Machine
end

