-- ==== Sys2Proof/Laws/Step.lean ====
section
/-! SUPPORT. A step on an empty queue and on one that is not, and what an idle tick leaves. -/

namespace Sys2Proof.Machine

theorem step_nil {s : State} (h : s.pending = []) : step s = .next s.idleTick := by
  obtain ⟨el, ux, pe, d⟩ := s
  change pe = [] at h
  subst h
  exact @rfl _ (Host.Outcome.next (State.idleTick ⟨el, ux, [], d⟩))

theorem step_cons {s : State} {c : Instr} {cs : List Instr} (h : s.pending = c :: cs) : step s = exec c { s with pending := cs } := by
  obtain ⟨el, ux, pe, d⟩ := s
  change pe = c :: cs at h
  subst h
  rfl

theorem frcTick_el (s : State) : s.frcTick.el = { s.el with base := { s.el.base with frc := s.el.base.frc + 65536 } } := by
  unfold State.frcTick
  rw [State.mod, State.setBase]
  rfl

theorem frcTick_ux (s : State) : s.frcTick.ux = { s.ux with base := { s.ux.base with frc := s.ux.base.frc + 65536 } } := by
  unfold State.frcTick
  rw [State.mod, State.setBase]
  rfl

theorem frcTick_draws (s : State) : s.frcTick.draws = s.draws := by
  unfold State.frcTick
  rw [mod_draws, mod_draws]

theorem frcTick_pending (s : State) : s.frcTick.pending = s.pending := by
  unfold State.frcTick
  rw [mod_pending, mod_pending]

/-- The watchdogs count by registers and the sequencer alone. -/
theorem wdNext_of {s t : State} {p : Part} (hr : ∀ o, t.reg p o = s.reg p o) (hq : t.seq p = s.seq p) (hw : (t.base p).wdCount = (s.base p).wdCount) :
    t.wdNext p = s.wdNext p := by
  have hg : ∀ f, t.get p f = s.get p f := fun f => by unfold State.get; rw [hr]
  have hs : t.seqState p = s.seqState p := hg _
  have hm : t.windowMask p = s.windowMask p := by unfold State.windowMask; rw [hq]
  unfold State.wdNext
  simp only [hg, hs, hm, hw]

theorem wdNext_frcTick (s : State) (p : Part) : s.frcTick.wdNext p = s.wdNext p := by
  have hr : ∀ o, s.frcTick.reg p o = s.reg p o := fun o => by
    unfold State.frcTick
    rw [reg_mod _ _ _ _ _ rfl, reg_mod _ _ _ _ _ rfl]
  refine wdNext_of hr ?_ ?_ <;> cases p <;> simp only [State.seq, State.frcTick, base_el, base_ux, elBase_mod, uxBase_mod, elBase_mod_ux, uxBase_mod_el]

theorem wdNext_wdTick_el (s : State) : (s.wdTick .el).wdNext .ux = s.wdNext .ux := by
  unfold State.wdTick
  generalize s.wdNext .el = w
  apply wdNext_of <;> intros <;> rfl

theorem clockTick_el (s : State) : s.clockTick.el =
    { s.el with base := { s.el.base with frc := s.el.base.frc + 65536, wdCount := s.wdNext .el }, ports := { s.el.ports with launch := 0 } } := by
  unfold State.clockTick State.launchFall State.wdTick
  simp only [modEl_el, State.mod, State.setBase, base_el, frcTick_el, wdNext_frcTick]

theorem clockTick_ux (s : State) : s.clockTick.ux = { s.ux with base := { s.ux.base with frc := s.ux.base.frc + 65536, wdCount := s.wdNext .ux } } := by
  unfold State.clockTick State.launchFall
  rw [modEl_ux]
  rw [State.wdTick, wdNext_wdTick_el, wdNext_frcTick]
  simp only [State.wdTick, State.mod, State.setBase, base_ux, frcTick_ux]

theorem clockTick_draws (s : State) : s.clockTick.draws = s.draws := by
  unfold State.clockTick State.launchFall State.wdTick
  rw [modEl_draws, mod_draws, mod_draws, frcTick_draws]

theorem clockTick_pending (s : State) : s.clockTick.pending = s.pending := by
  unfold State.clockTick State.launchFall State.wdTick
  rw [modEl_pending, mod_pending, mod_pending, frcTick_pending]

theorem idleTick_eq (s : State) : s.idleTick = { s.clockTick with pending := s.clockTick.pending ++ s.clockTick.due } := by
  unfold State.idleTick
  with_reducible rfl

theorem idleTick_el (s : State) : s.idleTick.el =
    { s.el with base := { s.el.base with frc := s.el.base.frc + 65536, wdCount := s.wdNext .el }, ports := { s.el.ports with launch := 0 } } := by
  rw [idleTick_eq]
  exact clockTick_el s

theorem idleTick_ux (s : State) : s.idleTick.ux = { s.ux with base := { s.ux.base with frc := s.ux.base.frc + 65536, wdCount := s.wdNext .ux } } := by
  rw [idleTick_eq]
  exact clockTick_ux s

theorem idleTick_draws (s : State) : s.idleTick.draws = s.draws := by
  have h := clockTick_draws s
  rw [idleTick_eq]
  generalize s.clockTick = t at h ⊢
  exact h

theorem idleTick_pending (s : State) : s.idleTick.pending = s.pending ++ s.clockTick.due := by
  rw [idleTick_eq]
  exact congrArg (· ++ s.clockTick.due) (clockTick_pending s)

/-- An idle tick keeps the form of every memory. -/
theorem idleTick_memOk {s : State} (h : s.memOk) : s.idleTick.memOk := by
  obtain ⟨a, b, c, d, e⟩ := h
  refine ⟨?_, ?_, ?_, ?_, ?_⟩
  · rw [idleTick_el]; exact a
  · rw [idleTick_el]; exact b
  · rw [idleTick_ux]; exact c
  · rw [idleTick_el]; exact d
  · rw [idleTick_ux]; exact e

end Sys2Proof.Machine
end

