-- ==== Sys2Proof/Machine/Pins.lean ====
section
/-! DEFINITION. What the outputs of both parts show, read from the state: the ports of an Elesh and the pins of HXU-128 (R493 to R518), and what the management endpoint of Uhloux offers (R437, R438). -/

namespace Sys2Proof.Machine

/-! ### Elesh ports (R499 to R516) -/

/-- DMA_IRQ of a channel (R397, R508): held 0 for a channel the instance lacks. -/
def State.portDmaIrq (s : State) (ch : Nat) : Bool := decide (ch < s.el.lic.dmaCh) && s.dmaIrq ch

/-- EVT_VALID with EVT_DATA (R13, R507): the oldest record presented, byte offset 0 in bits [7:0]. -/
def State.portEvt (s : State) : Option (BitVec 256) := s.el.ports.evtQ.head?.map (fun e => BitVec.ofNat 256 (leNat (recordBytes e)))

/-- GATE_REQ of an engine (R500, R517). -/
def State.portGateReq (s : State) (c e : Nat) : Bool := (s.gate c e).req

/-- DIE_FATAL and MEM_RETAIN_REQ (R511). -/
def State.portDieFatal (s : State) : Bool := s.bit .el Reg.GUARD_STAT_DIE_FATAL

/-- MEM_RETAIN_REQ (R511). -/
def State.portMemRetain (s : State) : Bool := s.bit .el Reg.GUARD_STAT_MEM_RETAIN

/-- ROLLBACK_REQ with RB_STEP (R512). -/
def State.portRollback (s : State) : Option Word := if s.el.ports.rollbackReq then some s.el.ports.rbStep else none

/-- SEAL_VALID with SEAL_STEP (R513): LAST, unless it holds none. -/
def State.portSeal (s : State) : Option Word :=
  let w := s.reg .el Reg.CHK_SEAL_LAST.off
  if w = 0xFFFFFFFFFFFFFFFF then none else some w

/-- SHADOW (R514). -/
def State.portShadow (s : State) : Bool := s.bit .el Reg.CHK_CTRL_SHADOW

/-- VSTEP[1:0] (R515). -/
def State.portVstep (s : State) : BitVec 2 := BitVec.ofNat 2 (s.get .el Reg.HC_STAT_VSTEPS)

/-- LAUNCH of a core group (R237, R509). -/
def State.portLaunch (s : State) (g : Nat) : Bool := bitOf s.el.ports.launch.toNat g

/-- SCAN_OUT (R516): 0 outside test. -/
def State.portScanOut (s : State) : BitVec 32 := if s.el.ports.scanEn then s.el.ports.scanOut else 0

/-- A test data register is presented to the TAP (R516). -/
def State.portTdr (s : State) : Bool := s.el.ports.tdrSel && s.jtagOpen .el

/-! ### Uhloux pins (R71, R469, R518, R528) -/

/-- ALARM: any ALARM cause is set (R72, R77, R468). -/
def State.pinAlarm (s : State) : Bool :=
  s.bit .ux Reg.UX_REF_STAT_DCO_LIMIT || s.bit .ux Reg.UX_REF_STAT_ACQ_TIMEOUT || s.bit .ux Reg.UX_REF_STAT_TDC_FAIL

/-- REPLACE_REQ: CAUSE AND EN is not zero (R469). -/
def State.pinReplaceReq (s : State) : Bool := Nat.land (s.get .ux Reg.UX_REPLACE_CAUSE) (s.get .ux Reg.UX_REPLACE_EN) != 0

/-- THERMTRIP_N: driven low from the trip until PORN (R528). -/
def State.pinThermtripN (s : State) : Bool := !s.ux.tripped

/-- PULSE of either part (R56, R518). -/
def State.pinPulse (s : State) (p : Part) (i : Nat) : Bool := pulseHas p i && s.pulseLevel p i

/-! ### The management endpoint (R437, R438) -/

/-- The physical functions of the PCIe endpoint; SR-IOV is not supported (R437). -/
def pcieFunctions : Nat := 1

/-- Its MSI-X vectors (R437). No rule says what raises one. -/
def msixVectors : Nat := 32

/-- The PLDM types the endpoint supports (R438): 0 control, 2 platform monitoring, 5 firmware update. -/
def pldmTypes : List Nat := [0, 2, 5]

/-- What PLDM Type 2 reads (R438, R528): the last report of a junction sensor, where there was one, and REPLACE_REQ. -/
inductive PldmSensor where
  | temperature (k : Fin 16)
  | replaceReq
  deriving DecidableEq, Repr

/-- The reading of a sensor; none where nothing has been reported. -/
def State.pldmRead (s : State) : PldmSensor → Option Nat
  | .temperature k => if s.ux.junction.any (fun e => e.1 == k.val) then some (tget 0 s.ux.junction k) else none
  | .replaceReq => some (if s.pinReplaceReq then 1 else 0)

end Sys2Proof.Machine
end

