-- ==== Sys2Proof/Tests/Slice0.lean ====
section
/-! SUPPORT. Tests: ill-formed commands that WellFormed refuses, small facts of the spec on one step, and for every statement with hypotheses a witness that meets them.
Expected values come from the rule or the worked example a test names. -/

namespace Sys2Proof.Tests

open Sys2Proof.Machine

set_option linter.unusedVariables false
set_option linter.unusedSimpArgs false
set_option linter.unnecessarySeqFocus false
set_option Elab.async false

/-- Unpredicated, closing its bundle. -/
def eLast : Env := { pen := false, pneg := false, pflag := 0, last := true }

/-- A part from reset with its sequencer RUNNING at bundle 0 of a program of 8 bundles. -/
def running (p : Part) : State := (State.reset.put p Reg.SEQ_STAT_STATE 3).modSeq p (fun q => { q with bundles := 8 })

/-- The command answers a next state of this property. -/
def sees (c : Instr) (s : State) (f : State → Bool) : Bool := match exec c s with | .next t => f t | _ => false

/-- WellFormed on the full configuration and a program of 8 bundles. -/
def ok (i : Instr) : Bool := i.wf State.reset.el.lic 8

/-- A completion counter the full configuration has, and one Uhloux reserves. -/
def qd (k : BitVec 6) : QDest := { core := 3, k := k, amt := 0 }

/-- Tails of formats T and K with everything 0, but a format of 4 (FP16) or as given. -/
def ta (fmt : BitVec 4) (cls : Fin 4) (mx : Bool) (gb ge : Fin 64) : TArgs := { ga := 0, gb := gb, gn := 0, ge := ge, fmt := fmt, cls := cls, mx := mx }

def ka (ga : Fin 64) (fa : Fin 16) (kind : BitVec 4) : KArgs := { ga := ga, gb := 0, gn := 0, gt := 0, fa := fa, kind := kind }

/-! ### WellFormed refuses -/

/-- Each of these holds an encoding R135, R147, R169, R175, R178 or R180 reserves. -/
theorem test_wf_refuses_seq_time :
    [Instr.nop .el { pen := false, pneg := true, pflag := 0, last := true }, .nop .el { pen := false, pneg := false, pflag := 3, last := true },
     .br .el eLast 8, .brr .ux eLast 32, .loop .ux eLast 32 0, .loop .el eLast 0 8,
     .waitt .el eLast 1 false 0 0, .waitt .el eLast 0 false 1 0, .waitt .el eLast 2 true 0 0, .waitt .ux eLast 0 true 0 0,
     .waitc .el eLast 0 0 0 false 0 0 0, .waitc .ux eLast 0 1 0 false 0 1 0, .waitc .ux eLast 0 0 32 false 0 1 0,
     .quiet .el eLast 0 1, .quiet .el eLast 1 0,
     .trd eLast 1 0 false, .frcrd eLast 1, .parm eLast 0 1 true 0 0 0, .parm eLast 0 0 false 1 0 0,
     .lreq eLast (qd 0) 1 false true 0 1, .lreq eLast (qd 0) 0 true false 0 0].all (fun i => !ok i) = true := by decide +kernel

/-- Counters and amounts (R169, R180), and the tails of RED, CHK and SEED operations (R186, R190 to R192, R297). -/
theorem test_wf_refuses_units :
    [Instr.cinc eLast 0 0 0,
     .scale eLast (qd 0) (ta 0xF 0 false 0 0), .scale eLast (qd 0) (ta 4 0 true 0 0), .scale eLast (qd 0) (ta 4 0 false 1 0), .scale eLast (qd 0) (ta 4 1 false 0 0),
     .tconv eLast (qd 0) (ta 4 3 false 0 0), .tconv eLast (qd 0) (ta 0xD 2 false 0 1), .tconv eLast (qd 0) (ta 0xD 1 false 0 0), .tconv eLast (qd 0) (ta 1 0 false 0 0),
     .tadd eLast (qd 0) (ta 0 3 false 0 0), .tadd eLast (qd 0) (ta 4 0 false 0 0), .tfin eLast (qd 0) (ta 0xD 0 false 0 0), .tfin eLast (qd 0) (ta 4 0 false 0 1),
     .psum eLast (qd 0) (ta 0xB 0 false 0 0), .psum eLast (qd 0) (ta 4 1 false 0 0),
     .bcvg eLast (qd 0) (ka 0 1 0), .bcvv eLast (qd 0) (ka 0 0 1), .fpa eLast (qd 0) (ka 1 0 0), .lemit eLast (qd 0) 0 0 5, .frd eLast 0 0 3,
     .rng eLast 1 0 0 0, .rngx eLast 4 0 0 0, .srng eLast 1 0 0, .srd eLast 1 0, .rdid eLast 0 6, .rdcnt eLast 0 6, .mcommit eLast 0 false 1 0].all
      (fun i => !ok i) = true := by decide +kernel

/-- Integer operations and the tree program name registers below G32 and one completion counter (R169, R197, R198). -/
theorem test_wf_refuses_integer_tree :
    [Instr.mov .ux eLast 32 (.imm 0), .mov .ux eLast 0 (.reg 32), .add .ux eLast 0 32 (.imm 0), .sub .ux eLast 32 0 (.imm 0), .movh .ux eLast 32 0,
     .cmp .el eLast 0 6 0 (.imm 0), .cmp .ux eLast 0 0 32 (.imm 0),
     .treeTrd eLast 0 1 true, .treeTrd eLast 1 0 false, .tslot eLast (qd 0) 0 6 0 0, .tslot eLast (qd 1) 0 0 0 0, .tbar eLast (qd 0) 0 32, .tlreq eLast (qd 0) 0 true false 0 0,
     .tcmpg eLast (qd 0) 0 32 0, .tlock eLast (qd 0) 0 0 32, .vgen eLast (qd 0) 32 0, .vseal eLast (qd 0) 32, .trel eLast (qd 1) 0, .lflush eLast (qd 1)].all
      (fun i => !ok i) = true := by decide +kernel

/-- The smallest licence of R2. -/
def small : Licence := { State.reset.el.lic with cores := 1, cntPerCore := 16, engPerCore := 1, tbCount := 1, streams := 8, dmaCh := 4, watches := 1024 }

/-- What an instance of the smallest licence lacks is reserved (R2, R169), and a part has its own pulses and lanes. -/
theorem test_wf_refuses_absent :
    [Instr.pulseArm .el 4, .pulseDisarm .el 4, .pulseEdge .el 4, .markSend .el 2, .laneJoinCmd .el 9].all (fun i => !ok i)
      && [Instr.cinc eLast 1 0 1, .cincr eLast 0 16 0, .crd eLast 0 1 0, .wreg eLast 0 0 0 false 1 0, .wreg eLast 0 0 0 false 0 1024, .wclr eLast 1024,
        .waitt .el eLast 2 false 0 0, .trd eLast 0 1 true, .parm eLast 0 1 false 0 0 0, .srng eLast 0 8 0, .snext eLast 0 8, .sset eLast 8 0 0, .srd eLast 0 8,
        .dmago eLast { core := 0, k := 0, amt := 0 } 4 0, .dmago eLast (qd 0) 0 0, .dmaab eLast 4, .dmaHostGo 4 0, .dmaBusError 4, .watchTimeout 1024,
        .gateAck 1 0 true, .engRst 0 1, .engRstLow 1 0, .arrive eLast (qd 0) 0 0, .sealq eLast { core := 0, k := 16, amt := 0 } 0].all (fun i => !i.wf small 8) = true := by
  decide +kernel

/-- And well-formed commands of several families pass. -/
theorem test_wf_accepts :
    [Instr.br .el eLast 7, .quiet .ux eLast 8 1, .waitt .el eLast 2 false 2 0, .waitc .el eLast 255 63 0 false 0 1 0, .tconv eLast (qd 0) (ta 4 0 false 0 3),
     .scale eLast (qd 0) (ta 5 0 true 0 0), .lemit eLast (qd 0) 0 0 4, .rngx eLast 8 0 0 0, .tslot eLast (qd 0) 0 5 31 31, .pulseArm .ux 7, .markSend .ux 159].all ok = true := by decide +kernel

/-- A slot operation with a reserved encoding is refused by name (R135). -/
theorem test_reserved_refused : (match exec (.cinc eLast 0 0 0) (running .el) with | .refused .reservedEncoding => true | _ => false) = true := by decide +kernel

/-! ### One step -/

/-- ADD is modulo 2^64 and leaves PC at the next bundle (R136, R196). -/
theorem test_add_wraps : sees (.add .el eLast 5 4 (.imm 2)) ((running .el).setGreg .el 4 0xFFFFFFFFFFFFFFFF) (fun t => t.greg .el 5 == 1 && t.pc .el == 1) = true := by decide +kernel

/-- An immediate is sign-extended; the destination may be the source (R196). -/
theorem test_sub_sign_extends : sees (.sub .el eLast 4 4 (.imm 0xFFFFFFFF)) ((running .el).setGreg .el 4 7) (fun t => t.greg .el 4 == 8) = true := by decide +kernel

/-- SAR copies the sign and takes the low six bits of B (R196). -/
theorem test_sar_sign : sees (.sar .ux eLast 1 2 (.imm 65)) ((running .ux).setGreg .ux 2 0x8000000000000000) (fun t => t.greg .ux 1 == 0xC000000000000000) = true := by decide +kernel

/-- MOVH writes the high half and keeps the low half (R196). -/
theorem test_movh_keeps_low : sees (.movh .el eLast 9 0x12345678) ((running .el).setGreg .el 9 0xAAAAAAAABBBBBBBB) (fun t => t.greg .el 9 == 0x12345678BBBBBBBB) = true := by decide +kernel

/-- A predicated operation whose flag is 0 has no effect (R134). -/
theorem test_predicate_false : sees (.mov .el { pen := true, pneg := false, pflag := 2, last := true } 3 (.imm 1)) (running .el) (fun t => t.greg .el 3 == 0 && t.pc .el == 1) = true := by decide +kernel

/-- Two operations of one bundle read the state before it: MOV G1, then a second slot that counts G1 (R136). -/
theorem test_bundle_reads_before : sees (.cincr eLast 0 0 1) { running .el with
    el := { (running .el).el with base := { (running .el).el.base with seq := { (running .el).el.base.seq with acts := [.g 1 9] } } } }
    (fun t => t.cntAbs 0 == 0 && t.greg .el 1 == 9) = true := by decide +kernel

/-- BR leaves PC at its target (R174). -/
theorem test_br_target : sees (.br .el eLast 6) (running .el) (fun t => t.pc .el == 6) = true := by decide +kernel

/-- CINC adds to its counter (R181). -/
theorem test_cinc_adds : sees (.cinc eLast 2 5 7) (running .el) (fun t => t.cntAbs (2 * 64 + 5) == 7 && t.cntAbs 5 == 0) = true := by decide +kernel

/-- A host increment in MODE STARTUP (1) adds its amount to SC[3].7, and in MODE RUN is ignored (R206). -/
theorem test_hinc_modes : (sees (.hincWrite 0x031C000000000009) (State.reset.put .el Reg.SEQ_RUNCFG_MODE 1) (fun t => t.cntAbs (3 * 64 + 7) == 9)
    && sees (.hincWrite 0x031C000000000009) (State.reset.put .el Reg.SEQ_RUNCFG_MODE 0) (fun t => t.cntAbs (3 * 64 + 7) == 0)) = true := by decide +kernel

/-! ### Worked examples of the spec -/

/-- TMO = 1,000,000 with PRE = 1 is 16,000,000 ACLK ticks (the example at R176). -/
theorem test_prescale_example : State.reset.tmoTicks .el 1000000 1 = 16000000 := by decide +kernel

/-- Purpose 0x0007 at step 2 for L = 9 and p = 3 (the example at R273). -/
theorem test_counter_example : drawCounter 9 3 2 = { c0 := 0x09000003, c1 := 0, c2 := 2, c3 := 0 } := by decide +kernel

/-- In FP8 E4M3, 464 rounds to 448 and does not saturate; in FP16, 65,520 saturates to 65,504 (R245). -/
theorem test_tie_examples : fmtEncode 5 false 464 0 = (0x7E, false) ∧ fmtEncode 4 false 65520 0 = (0x7BFF, true) := by decide +kernel

/-- A negative value that rounds to zero is negative zero in a floating-point destination (R245). -/
theorem test_negative_zero : (fmtEncode 5 true 1 (-40)).1 = 0x80 := by decide +kernel

/-- The check value of CRC-32C, the 32-bit word of the digits 1 to 9 (the polynomial's published check value; log 14). -/
theorem test_crc32c_check : crc32c [0x31, 0x32, 0x33, 0x34, 0x35, 0x36, 0x37, 0x38, 0x39] = 0xE3069283 := by decide +kernel

/-- SHA-384 of the three bytes a, b, c (FIPS 180-4's example; log 14): its first eight bytes. -/
theorem test_sha384_abc : (sha384 [0x61, 0x62, 0x63]).take 8 = [0xCB, 0x00, 0x75, 0x3F, 0x45, 0xA3, 0x5E, 0x8B] := by decide +kernel

/-! ### Steps -/

/-- A step takes the first command of the queue and leaves the rest. -/
theorem test_step_front : (match step { running .el with pending := [.br .el eLast 6, .nop .el eLast] } with | .next t => t.pc .el == 6 && t.pending == [.nop .el eLast] | _ => false) = true := by decide +kernel

/-- R56: an edge of an armed one-shot output of 10 ns at HXT 0 raises the pin; THERMTRIP_N is high while nothing has tripped (R528). -/
theorem test_pulse_rises : sees (.pulseEdge .el 0) ((((State.reset.put .el (Reg.TB_STAT_STATE 0) 2).put .el (Reg.PULSE_WIDTH_NS 0) 10).put .el (Reg.PULSE_STAT_ARMED 0) 1))
    (fun t => t.pinPulse .el 0 && t.pinThermtripN) = true := by decide +kernel

/-- The table gives no bits: no word spells a command. -/
theorem test_no_words : decodeTableWord 32 0 = none ∧ State.reset.withFetchWord 32 0 = State.reset := by decide +kernel

/-- `n` bytes of a number, the first the most significant. -/
def bb (n v : Nat) : List Byte := (leBytes n v).reverse
/-- A P-384 public key, x before y, whose private key signed the data below outside the model. -/
def wKey : List Byte := bb 96 0x7ae9e1db1160794c70c1ef071be5191f6c66240f4608fbe8a44ecd36c3ed5db97500f2e4d84e3fb45850fd6f4303302bd8ac21444cd80d241538d8034b399a0dee3636eb5cb00b9499d061a571db0f14bb47ed79453948ed63f3a6ccbbf6e74f
/-- Its signature of a firmware image. -/
def wFwSig : List Byte := bb 96 0x8568a35a879b0d506132993c6d911d3136a731409ab8c5d26fd7a01e81425281453a6c6adf4cd2f38c77a5042815ea48a8d91ea271f6eea611f08d18536faed7932ab8e0b26f530f492ab6ff1f9f6a4b382ed9323be6c26a900e275248508a5b
/-- An attestation report it signed (R454). -/
def wReport : List Byte := List.replicate 0x18 0 ++ List.replicate 32 5 ++ List.replicate 0x90 0 ++ bb 96 0x8568a35a879b0d506132993c6d911d3136a731409ab8c5d26fd7a01e81425281453a6c6adf4cd2f38c77a5042815ea4897a0601a9ad53a68baf5a69ec35930b2f8e83c72b6cb86e7df01b90a9cd5c80f1aceb01a76f41ef345fe9650167a43b0
/-- A program image it signed (R155). -/
def wImage : List Byte := bb 16 0x485853310100010001000000e8030000 ++ [1] ++ List.replicate 47 0 ++ bb 48 0x404faef0893d12c87526e21dc114a2c5a8c2241de20a4405eef6d70adafc5c5506cc7d45988e85de9b1fd1d9c925172d ++ List.replicate 184 0 ++ bb 96 0x8568a35a879b0d506132993c6d911d3136a731409ab8c5d26fd7a01e81425281453a6c6adf4cd2f38c77a5042815ea4813100a6e4e7d9dccb434816eeec1431db71001c6dfff388572caea7d49cdff0aac00137fb85182716f01cb0401072083

/-- Bytes in a memory from an address on, in canonical form. -/
def memOf (a : Nat) (bs : List Byte) : Mem := bs.zipIdx.filterMap (fun x => if x.1 = 0 then none else some (a + x.2, x.1))

/-! ### Witnesses: states and operands that meet a statement's hypotheses -/

/-- `Alone` as a conjunction of facts of the state, each of which can be decided. -/
theorem alone_iff (s : State) (p : Part) (e : Env) (slot : Nat) (acts : List Act) : Alone s p e slot acts ↔
    s.issuing p = true ∧ envOk e = true ∧ s.runs p e = true ∧ e.last = true ∧ (s.seq p).acts = [] ∧ (s.seq p).skip = false
      ∧ s.testHeld p = false ∧ s.actionHeld p (.unit slot :: acts) = false ∧ s.windowHeld p (.unit slot :: acts) = none
      ∧ s.queueLack p (.unit slot :: acts) = none ∧ s.pc p < (s.seq p).bundles ∧ (s.seq p).bundles ≤ 4096 :=
  ⟨fun ⟨a, b, c, d, f, g, h, i, j, k, l, m⟩ => ⟨a, b, c, d, f, g, h, i, j, k, l, m⟩, fun ⟨a, b, c, d, f, g, h, i, j, k, l, m⟩ => ⟨a, b, c, d, f, g, h, i, j, k, l, m⟩⟩

theorem test_hyps_EmptyQueueTicks : State.reset.pending = [] := rfl

theorem test_hyps_EffectsKeep : ∃ c : Instr, ∀ p f w, c ≠ .powerOn p f w := ⟨.refclkLoss, fun _ _ _ h => nomatch h⟩

theorem test_hyps_StepKeepsForm : ∃ s t : State, s.memOk ∧ step s = .next t :=
  ⟨State.reset, State.reset.idleTick, by simp only [State.memOk]; decide +kernel, rfl⟩

/-- The reserved side of RefusedIffReserved, with a counter the licence lacks, and the other side. -/
theorem test_hyps_RefusedIffReserved : (∃ c e, Instr.env c = some e ∧ c.wf State.reset.el.lic (State.reset.bundlesOf c) = false)
    ∧ ∃ c e, Instr.env c = some e ∧ c.wf State.reset.el.lic (State.reset.bundlesOf c) = true :=
  ⟨⟨.cinc eLast 0 0 0, eLast, rfl, by decide +kernel⟩, ⟨.cinc eLast 0 0 1, eLast, rfl, by decide +kernel⟩⟩

theorem test_hyps_Predication : ∃ (c : Instr) (e : Env) (s : State), c.env = some e ∧ c.wf s.el.lic (s.bundlesOf c) = true
    ∧ e.pen = true ∧ s.runs (slotPart c) e = false :=
  ⟨.mov .el { pen := true, pneg := false, pflag := 2, last := true } 3 (.imm 1), _, running .el, rfl, by decide +kernel, rfl, by decide +kernel⟩

theorem test_hyps_Predication_stopped : ∃ (c : Instr) (e : Env) (s : State), c.env = some e ∧ c.wf s.el.lic (s.bundlesOf c) = true
    ∧ s.issuing (slotPart c) = false :=
  ⟨.nop .ux eLast, eLast, State.reset, rfl, by decide +kernel, by decide +kernel⟩


/-- Rounding keeps a quotient between two bounds. -/
theorem roundEven_between (a : Int) (d : Nat) (lo hi : Int) (hd : 0 < d) (h1 : lo * d ≤ a) (h2 : a < hi * d) : lo ≤ roundEven a d ∧ roundEven a d ≤ hi := by
  have hd' : (0 : Int) < (d : Int) := by exact_mod_cast hd
  have q1 : lo ≤ a / (d : Int) := (Int.le_ediv_iff_mul_le hd').2 h1
  have q2 : a / (d : Int) < hi := (Int.ediv_lt_iff_lt_mul hd').2 h2
  unfold roundEven
  dsimp only
  split
  · omega
  · split
    · omega
    · split <;> omega

/-- A time base that starts at 0 reads less than 2^40 FRAC units within the first tick, whatever the converter's fraction. -/
theorem tbRaw_first (s : State) (f : Nat) (hf : f < 65536) (ha : s.tbAnchor .el 0 = 0) (ho : s.tbOfs .el 0 = 0) (hr : s.tbRate .el 0 = 0) :
    s.tbRaw .el 0 f 0 ≤ 2 ^ 40 := by
  unfold State.tbRaw
  rw [ha, ho, hr]
  have e : (f + 2 ^ 80 - 0) % 2 ^ 80 = f := by omega
  simp only [e, frcSpan]
  obtain ⟨h1, h2⟩ := roundEven_between ((0 : Nat) * (125 * 2 ^ 48) + (f : Int) * 2097152 * (281474976710656 + 0) * 25 - 0) (125 * 2 ^ 48) 0 (2 ^ 40) (by decide) (by omega) (by omega)
  have hm : (2 : Int) ^ 40 < (hxtMod : Int) := by decide
  rw [Int.emod_eq_of_lt h1 (by omega)]
  omega

/-- The phase error of an exchange whose marks all read 0 but the second, which reads less than 2^40 FRAC units. -/
theorem exchange_first (t : Nat) (h : t ≤ 2 ^ 40) : -2 ^ 31 ≤ (exchange 0 t 0 0 0).2 ∧ (exchange 0 t 0 0 0).2 < 2 ^ 31 := by
  have e : hxtDiff t 0 = (t : Int) := by
    have e2 : hxtSub t 0 = t := by simp only [hxtSub, hxtMod, hxtSec]; omega
    simp only [hxtDiff, e2, hxtMod, hxtSec]; omega
  have z : hxtDiff 0 0 = 0 := by decide
  unfold exchange
  simp only [e, z]
  obtain ⟨h1, h2⟩ := roundEven_between (((t : Int) - 0) * 1000 - 0 * 4294967296) (2 * 4294967296) 0 128001 (by decide) (by omega) (by omega)
  omega

/-- The witness below: a lane in CAL whose TB0 is set, from which a mark was sent at HXT 0. -/
abbrev marked : State :=
  State.put (State.modLane (State.put State.reset .el (Reg.LANE_STAT_STATE (laneBlk .el 0)) 4) .el 0 (fun l => { l with t3 := [(0, 1)] })) .el (Reg.TB_STAT_STATE 0) 1

theorem test_hyps_MatchedExchange_corrects : ∃ (x : Fin 160) (m : TimeMsg) (n t3 : Nat) (s : State), s.laneTimes .el x = true ∧ s.laneTb x = some n
    ∧ tget 0 (s.lane .el x).t3 m.echoSeq.toNat = t3 + 1 ∧ s.el.refclkLost = false ∧ s.el.switchOwed = false
    ∧ s.bit .el (Reg.LANE_TCAL_CAL_DONE (laneBlk .el x)) = false ∧ (s.lane .el x).matched + 1 < 4096 ∧ s.tbState .el n ≠ 0
    ∧ -2 ^ 31 ≤ (exchange m.t1 (s.tbRaw .el n (s.frcSample .el) 0) t3 m.t4 m.asym.toInt).2
    ∧ (exchange m.t1 (s.tbRaw .el n (s.frcSample .el) 0) t3 m.t4 m.asym.toInt).2 < 2 ^ 31 := by
  refine ⟨0, { t1 := 0, t4 := 0, seq := 0, echoSeq := 0, asym := 0, upbSel := false, epochTai := false, traceable := false, dpll := 0, depth := 0 },
    0, 0, marked, by decide +kernel, by decide +kernel, by decide +kernel, by decide +kernel, by decide +kernel, by decide +kernel, by decide +kernel, by decide +kernel, ?_⟩
  have hk : marked.tick .el = 0 := by decide +kernel
  have hf : marked.frcSample .el < 65536 := by
    unfold State.frcSample; rw [hk]; have := (Config.frcFraction 0 0).isLt; omega
  exact exchange_first _ (tbRaw_first marked _ hf (by decide +kernel) (by decide +kernel) (by decide +kernel))
/-- The chain digests of a lane are a function of its records alone. -/
theorem chain_digests_of_records (s t : State) (step lane : Nat) (prev : List Byte) (h : ∀ g < 32, s.pageRecs step lane g = t.pageRecs step lane g) :
    s.chainDigests step lane prev = t.chainDigests step lane prev := by
  have hj : ∀ j < 4, (List.range 8).flatMap (fun k => s.pageSorted step lane (8 * j + k)) = (List.range 8).flatMap (fun k => t.pageSorted step lane (8 * j + k)) := by
    intro j hj
    refine List.flatMap_congr (fun k hk => ?_)
    have hk := List.mem_range.1 hk
    simp only [State.pageSorted, h (8 * j + k) (by omega)]
  simp only [State.chainDigests, hj 0 (by omega), hj 1 (by omega), hj 2 (by omega), hj 3 (by omega)]

/-- A leaf that has chained lane 1 at step 5, with empty pages and one byte at the first stored digest. -/
def chained (b : Byte) : State :=
  (State.setIndex State.reset (State.ledgPos State.reset 5 1 0) { step := 5, count := 0, lane := 0, group := 0, isSealed := false, ovf := false, valid := true }).modUx
    (fun u => { u with chainLog := [(1, 5, List.replicate 48 0)], base := { u.base with mem := mput u.base.mem (State.reset.digestAddr 5 1 0) b } })

/-- Of two leaves that differ in a stored digest one at least finds its chain broken; the digests themselves need not be computed. -/
theorem chained_breaks : (chained 0).chainDigests 5 1 (List.replicate 48 0) ≠ (List.range 4).map (fun j => (chained 0).hbm ((chained 0).digestAddr 5 1 j) 48)
    ∨ (chained 1).chainDigests 5 1 (List.replicate 48 0) ≠ (List.range 4).map (fun j => (chained 1).hbm ((chained 1).digestAddr 5 1 j) 48) := by
  by_cases h : (chained 0).chainDigests 5 1 (List.replicate 48 0) = (List.range 4).map (fun j => (chained 0).hbm ((chained 0).digestAddr 5 1 j) 48)
  · right
    rw [chain_digests_of_records (chained 1) (chained 0) 5 1 _ (by decide +kernel), h]
    decide +kernel
  · exact .inl h

/-- LedgerAndSeal, the broken chain. -/
theorem test_hyps_LedgerAndSeal_chain : ∃ (prev : Word) (p : List Byte) (l : Nat) (s : State),
    let held := (List.range 32).any (fun g => let i := s.ledgIndex (s.ledgPos prev.toNat l g); i.valid && i.step == prev.toNat)
    let bad := held && s.chainDigests prev.toNat l p != (List.range 4).map (fun j => s.hbm (s.digestAddr prev.toNat l j) 48)
    s.ux.chainLog = [(l, prev.toNat, p)] ∧ bad = true := by
  rcases chained_breaks with h | h
  · exact ⟨5, List.replicate 48 0, 1, chained 0, rfl, Bool.and_eq_true_iff.2 ⟨by decide +kernel, bne_iff_ne.2 h⟩⟩
  · exact ⟨5, List.replicate 48 0, 1, chained 1, rfl, Bool.and_eq_true_iff.2 ⟨by decide +kernel, bne_iff_ne.2 h⟩⟩

theorem test_hyps_FieldWrites : ∃ (p : Part) (q : Part) (f : Fld) (g : Fld), f.lo ≤ f.hi ∧ f.hi < 64 ∧ g.hi < 64 ∧ (q ≠ p ∨ g.off ≠ f.off ∨ g.hi < f.lo ∨ f.hi < g.lo) :=
  ⟨Part.ux, Part.el, { off := 0, hi := 51, lo := 50 }, { off := 0, hi := 63, lo := 0 }, by decide +kernel⟩

theorem test_hyps_TimeBaseStates :
    (∃ (p : Part) (s : State), s.tbHas p 3 = true ∧ s.tbState p 3 = 0 ∧ s.bit p (Reg.TB_STAT_FIRST_LOCK 3) = false)
    ∧ (∃ (p : Part) (s : State), s.tbHas p 3 = true ∧ (s.tbState p 3 ≠ 0 ∨ s.bit p (Reg.TB_STAT_FIRST_LOCK 3) = true))
    ∧ (∃ (p : Part) (s : State), s.tbHas p 3 = false) :=
  ⟨⟨Part.el, State.reset, by decide +kernel⟩,
   ⟨Part.ux, (State.put State.reset .ux (Reg.TB_STAT_STATE 3) 1), by decide +kernel⟩,
   ⟨Part.el, (State.modEl State.reset (fun e => { e with lic := { e.lic with tbCount := 0 } })), by decide +kernel⟩⟩

theorem test_hyps_TimeBaseStates_b :
    (∃ (p : Part) (n : Fin 4) (s : State), (s.tbHas p 3 = false ∨ s.tbState p 3 ≠ 1 ∨ s.steppedNow p 3 = true) ∧ (s.tbHas p n = false ∨ 2 ≤ n.val ∨ (s.tbState p n ≠ 1 ∧ s.tbState p n ≠ 3) ∨ s.steppedNow p n = true))
    ∧ (∃ (p : Part) (n : Fin 4) (s : State), (s.tbHas p n = false ∨ 2 ≤ n.val ∨ (s.tbState p n ≠ 1 ∧ s.tbState p n ≠ 2 ∧ s.tbState p n ≠ 3) ∨ (p = .ux ∧ s.tier = 2)))
    ∧ (∃ (p : Part) (n : Fin 4) (s : State), s.tbHas p n = true ∧ n.val < 2 ∧ (s.tbState p n = 1 ∨ s.tbState p n = 3) ∧ s.steppedNow p n = false ∧ (¬(p = .ux ∧ s.tier = 2)) ∧ s.phaseAbs p n ≤ 500 ∧ (s.tbState p n = 1 ∨ s.tbState p n = 2 ∨ s.tbState p n = 3))
    ∧ (∃ (p : Part) (s : State), s.tbHas p 3 = true ∧ s.tbState p 3 = 1 ∧ s.steppedNow p 3 = false)
    ∧ (∃ (s : State), s.tier = 2 ∧ (s.tbState .ux 0 = 1 ∨ s.tbState .ux 0 = 3) ∧ s.steppedNow .ux 0 = false ∧ s.rootLeft.natAbs ≤ 500)
    ∧ (∃ (s : State), s.tier = 2 ∧ (s.tbState .ux 0 = 1 ∨ s.tbState .ux 0 = 3) ∧ s.steppedNow .ux 0 = false ∧ 500 < s.rootLeft.natAbs)
    ∧ (∃ (p : Part) (n : Fin 4) (s : State), s.tbHas p n = true ∧ n.val < 2 ∧ (s.tbState p n = 1 ∨ s.tbState p n = 3) ∧ s.steppedNow p n = false ∧ (¬(p = .ux ∧ s.tier = 2)) ∧ 500 < s.phaseAbs p n) :=
  ⟨⟨Part.el, 0, State.reset, by decide +kernel⟩,
   ⟨Part.el, 0, State.reset, by decide +kernel⟩,
   ⟨Part.ux, 0, (State.put (State.put State.reset .ux (Reg.TB_STAT_STATE 0) 1) .ux (Reg.TB_STAT_PHASE_ERR 0) 1), by decide +kernel⟩,
   ⟨Part.el, (State.put State.reset .el (Reg.TB_STAT_STATE 3) 1), by decide +kernel⟩,
   ⟨(State.put (State.put (State.put (State.put (State.put State.reset .ux (Reg.TB_STAT_PHASE_ERR 0) 3) .ux Reg.TB2_EPOCH_NSF_NS 1) .el (Reg.LANE_TCAL_CAL_DONE (laneBlk .el 0)) 0) .ux (Reg.TB_STAT_STATE 0) 1) .ux Reg.UX_IDENT_ROLE_TIER 2), by decide +kernel⟩,
   ⟨(State.put (State.put (State.put (State.modEl (State.put (State.put (State.modEl (State.mod (State.modEl (State.put (State.mod (State.put (State.mod State.reset .ux (fun b => { b with frc := 0x2000000000000000#80 })) .ux (Reg.TB_STAT_PHASE_ERR 0) 1) .el (fun b => { b with stepTick := [] })) .ux (Reg.TB_RATE_RATE 0) 1) (fun e => { e with followLane := 3 })) .el (fun b => { b with frc := 0xffffffffffffffffffff#80 })) (fun e => { e with followLane := 5476 })) .el (Reg.TB_RATE_RATE 0) 0) .ux (Reg.TB_ANCHOR_HI_ANCHOR_HI 0) 0) (fun e => { e with followLane := 282 })) .ux (Reg.TB_STAT_PHASE_ERR 3) 161) .ux (Reg.TB_STAT_STATE 0) 1) .ux Reg.UX_IDENT_ROLE_TIER 2), by decide +kernel⟩,
   ⟨Part.el, 0, (State.put (State.put (State.put (State.put (State.modEl (State.put (State.put (State.mod (State.put (State.put (State.mod (State.mod (State.mod (State.mod (State.put (State.mod (State.put (State.put (State.put (State.modEl (State.put State.reset .el (Reg.TB_STAT_STATE 0) 1) (fun e => { e with lic := { e.lic with tbCount := 5 } })) .ux Reg.UX_IDENT_ROLE_TIER 0) .ux (Reg.TB_STAT_STATE 3) 0) .ux Reg.UX_IDENT_ROLE_TIER 3) .ux (fun b => { b with stepTick := [] })) .el (Reg.TB_ANCHOR_HI_ANCHOR_HI 3) 2) .el (fun b => { b with frc := 5#80 })) .ux (fun b => { b with staged := [(0, 0xffffffffffffffff#64), (116, 0xffffffffffffffff#64)] })) .el (fun b => { b with stepTick := [] })) .ux (fun b => { b with staged := [] })) .ux Reg.HC_STAT_STATE 1) .el Reg.TIME_STAT_PLANE 0) .ux (fun b => { b with staged := [] })) .ux (Reg.TB_STAT_FIRST_LOCK 0) 1) .ux (Reg.TB_STAT_PHASE_ERR 0) 7) (fun e => { e with lic := { e.lic with tbCount := 2 } })) .ux (Reg.TB_OFS_SEC_SEC 0) 18446744073709551615) .el (Reg.TB_STAT_FIRST_LOCK 1) 1) .ux Reg.UX_IDENT_ROLE_TIER 3) .el (Reg.TB_STAT_PHASE_ERR 0) 5665), by decide +kernel⟩⟩

theorem test_hyps_TimeBaseRate :
    (∃ (p : Part) (v : Word) (s : State), let want := signed 40 v.toNat; s.tbHas p 3 = true ∧ (rateMax < want ∨ want < -rateMax))
    ∧ (∃ (p : Part) (v : Word) (s : State), let want := signed 40 v.toNat; let near := max (s.tbRate p 3 - s.slewLimit p) (min (s.tbRate p 3 + s.slewLimit p) want); s.tbHas p 3 = true ∧ (-rateMax ≤ want ∧ want ≤ rateMax) ∧ near = want)
    ∧ (∃ (p : Part) (v : Word) (s : State), let want := signed 40 v.toNat; let near := max (s.tbRate p 3 - s.slewLimit p) (min (s.tbRate p 3 + s.slewLimit p) want); s.tbHas p 3 = true ∧ (-rateMax ≤ want ∧ want ≤ rateMax) ∧ near ≠ want) :=
  ⟨⟨Part.ux, 0x4300000000#64, State.reset, by dsimp only; decide +kernel⟩,
   ⟨Part.el, 0#64, State.reset, by dsimp only; decide +kernel⟩,
   ⟨Part.el, 1#64, (State.put State.reset .el Reg.TIME_CTRL_SLEW_LIMIT 0), by dsimp only; decide +kernel⟩⟩

theorem test_hyps_PulseOutputs :
    (∃ (p : Part) (i : Fin 8) (s : State), pulseHas p i = true ∧ s.pulseRefused p i = true ∧ (s.bit p (Reg.PULSE_STAT_ARMED i) = false ∨ s.pulseDue p i = false))
    ∧ (∃ (p : Part) (i : Fin 8) (s : State), pulseHas p i = true ∧ s.bit p (Reg.PULSE_STAT_ARMED i) = true ∧ s.pulseDue p i = true)
    ∧ (∃ (p : Part) (i : Fin 8) (s : State), let now := s.tbNow p (s.get p (Reg.PULSE_CTRL_TB i)); pulseHas p i = true ∧ s.pulseRefused p i = false ∧ (now + 64 * 2 ^ 32) % hxtMod ≤ s.pulseStart p i)
    ∧ (∃ (p : Part) (i : Fin 8) (s : State), let now := s.tbNow p (s.get p (Reg.PULSE_CTRL_TB i)); pulseHas p i = true ∧ s.pulseRefused p i = false ∧ s.pulseStart p i < (now + 64 * 2 ^ 32) % hxtMod) :=
  ⟨⟨Part.ux, 0, State.reset, by decide +kernel⟩,
   ⟨Part.el, 0, (State.put (State.put State.reset .el (Reg.TB_STAT_STATE 0) 1) .el (Reg.PULSE_STAT_ARMED 0) 1), by decide +kernel⟩,
   ⟨Part.el, 0, (State.put (State.put (State.put (State.put State.reset .el (Reg.TB_STAT_STATE 0) 1) .el (Reg.PULSE_PER_NSF_NS 0) 1000) .el (Reg.PULSE_WIDTH_NS 0) 100) .el (Reg.PULSE_START_SEC_SEC 0) 1), by dsimp only; decide +kernel⟩,
   ⟨Part.el, 3, (State.put (State.put (State.put (State.put (State.put State.reset .el (Reg.PULSE_WIDTH_NS 3) 1442721595) .el (Reg.PULSE_PER_NSF_NS 3) 3044358659) .ux (Reg.PULSE_PER_NSF_NS 0) 0) .el (Reg.PULSE_COUNT_COUNT 0) 6) .el (Reg.TB_STAT_STATE 0) 1), by dsimp only; decide +kernel⟩⟩

theorem test_hyps_CaptureInputs :
    (∃ (p : Part) (c : Fin 4) (rising : Bool) (s : State), let k := tget Cap.zero (s.base p).caps c; let on := s.bit p (Reg.CAP_CTRL_EN c) = true ∧ capSelects (s.get p (Reg.CAP_CTRL_EDGE c)) rising = true; on ∧ k.lastTick = some (s.tick p))
    ∧ (∃ (p : Part) (c : Fin 4) (rising : Bool) (s : State), let k := tget Cap.zero (s.base p).caps c; let on := s.bit p (Reg.CAP_CTRL_EN c) = true ∧ capSelects (s.get p (Reg.CAP_CTRL_EDGE c)) rising = true; on ∧ k.lastTick ≠ some (s.tick p) ∧ 16 ≤ k.fifo.length)
    ∧ (∃ (p : Part) (c : Fin 4) (rising : Bool) (s : State), let k := tget Cap.zero (s.base p).caps c; let on := s.bit p (Reg.CAP_CTRL_EN c) = true ∧ capSelects (s.get p (Reg.CAP_CTRL_EDGE c)) rising = true; on ∧ k.lastTick ≠ some (s.tick p) ∧ k.fifo.length < 16) :=
  ⟨⟨Part.el, 0, true, (State.mod (State.put State.reset .el (Reg.CAP_CTRL_EN 0) 1) .el (fun b => { b with caps := [(0, { fifo := [], lastTick := some 0, lastFrc := none })] })), by dsimp only; decide +kernel⟩,
   ⟨Part.el, 0, true, (State.mod (State.put State.reset .el (Reg.CAP_CTRL_EN 0) 1) .el (fun b => { b with caps := [(0, { fifo := List.replicate 16 (0, false), lastTick := none, lastFrc := none })] })), by dsimp only; decide +kernel⟩,
   ⟨Part.el, 1, true, (State.put (State.modEl (State.modEl (State.modGuard (State.put State.reset .el (Reg.CAP_CTRL_EN 1) 1) .el (fun b => { b with hbStopped := true })) (fun e => { e with supplyRet := false })) (fun e => { e with posLogged := [1] })) .ux (Reg.CAP_CTRL_EN 3) 0), by dsimp only; decide +kernel⟩⟩

theorem test_hyps_SideEffectReads :
    (∃ (p : Part) (n : Fin 4) (s : State), let k := tget Cap.zero (s.base p).caps n; k.fifo = [] ∧ s.tbHas p n = true)
    ∧ (∃ (p : Part) (n : Fin 4) (s : State), s.tbHas p n = false)
    ∧ (∃ (p : Part) (n : Fin 4) (s : State), let k := tget Cap.zero (s.base p).caps n; ((match k.fifo with | (t, r) :: rest => true | _ => false) = true)) :=
  ⟨⟨Part.ux, 0, State.reset, by dsimp only; decide +kernel⟩,
   ⟨Part.ux, 1, State.reset, by decide +kernel⟩,
   ⟨Part.el, 0, (State.modUx (State.modLane (State.mod (State.mod State.reset .el (fun b => { b with caps := [(0, { fifo := [(0, true)], lastTick := none, lastFrc := some 7 })] })) .ux (fun b => { b with frc := 0x1217#80 })) .el 0 (fun b => { b with shown := [(0, 0)] })) (fun u => { u with nonces := [(0, [])] })), by dsimp only; decide +kernel⟩⟩

theorem test_hyps_ReferenceCandidates :
    (∃ (k : Fin 8) (s : State), let enabled := if k.val < 4 then s.bit .ux (Reg.UX_REF_IN_CFG_EN k) else if k.val < 6 then s.bit .ux (Reg.UX_TP_CFG_PORT_EN (k - 4)) && s.bit .ux (Reg.UX_TP_CFG_PTP_EN (k - 4)) && !s.qlBad (k - 4) else s.laneTimes .ux (s.candLane k) && !(k.val == 7 && s.tier == 2 && s.ux.rootUpbSel); (s.candHere k = false ∨ enabled = false ∨ s.candValid k = true) ∧ (s.candValid k = false ∨ s.candQual k = true) ∧ s.candValid k = false)
    ∧ (∃ (k : Fin 8) (s : State), s.candValid k = true ∧ s.candQual k = false)
    ∧ (∃ (k : Fin 8) (s : State), let enabled := if k.val < 4 then s.bit .ux (Reg.UX_REF_IN_CFG_EN k) else if k.val < 6 then s.bit .ux (Reg.UX_TP_CFG_PORT_EN (k - 4)) && s.bit .ux (Reg.UX_TP_CFG_PTP_EN (k - 4)) && !s.qlBad (k - 4) else s.laneTimes .ux (s.candLane k) && !(k.val == 7 && s.tier == 2 && s.ux.rootUpbSel); s.candHere k = true ∧ enabled = true ∧ s.candValid k = false) :=
  ⟨⟨0, State.reset, by dsimp only; decide +kernel⟩,
   ⟨0, (State.put State.reset .ux Reg.UX_REF_STAT_VALID 1), by decide +kernel⟩,
   ⟨4, (State.put (State.put (State.put State.reset .ux (Reg.UX_TP_CFG_PTP_EN 0) 1) .ux Reg.UX_IDENT_ROLE_TIER 2) .ux (Reg.UX_TP_CFG_PORT_EN 0) 1), by dsimp only; decide +kernel⟩⟩

theorem test_hyps_ReferenceSelection :
    (∃ (mode : Fin 4), mode.val = 2 ∧ (mode.val = 1 ∨ mode.val = 2))
    ∧ (∃ (mode : Fin 4), mode.val = 3)
    ∧ (∃ (mode : Fin 4), mode.val = 1)
    ∧ (∃ (mode : Fin 4), mode.val = 0) :=
  ⟨⟨2, by decide +kernel⟩,
   ⟨3, by decide +kernel⟩,
   ⟨1, by decide +kernel⟩,
   ⟨0, by decide +kernel⟩⟩

theorem test_hyps_ReferenceLock :
    (∃ (s : State), s.dpllState ≠ 1 ∧ s.dpllState ≠ 3 ∧ s.ux.dpll.wtr = [])
    ∧ (∃ (s : State), (s.dpllState = 1 ∨ s.dpllState = 3) ∧ s.ux.dpll.alarmAcq = false)
    ∧ (∃ (s : State), ((match s.ux.dpll.wtr with | (k, since) :: rest => let t := s.modUx (fun u => { u with dpll := { u.dpll with wtr := rest, wtrDone := u.dpll.wtrDone ++ [k] } }); decide ((s.dpllState ≠ 2 ∨ t.wtrDue = none)) | _ => false) = true) ∧ ((match s.ux.dpll.wtr with | (k, since) :: rest => decide ((s.bit .ux Reg.UX_REF_CTRL_REVERTIVE = false ∨ s.get .ux Reg.UX_REF_CTRL_MODE ≠ 0)) | _ => false) = true))
    ∧ (∃ (s : State), s.ux.dpll.alarmAcq = true)
    ∧ (∃ (s : State), ((match s.ux.dpll.wtr with | (k, since) :: rest => let t := s.modUx (fun u => { u with dpll := { u.dpll with wtr := rest, wtrDone := u.dpll.wtrDone ++ [k] } }); (decide (s.dpllState = 2)) && ((match t.wtrDue with | some j => true | _ => false)) | _ => false) = true)) :=
  ⟨⟨State.reset, by decide +kernel⟩,
   ⟨(State.put State.reset .ux Reg.UX_REF_STAT_STATE 1), by decide +kernel⟩,
   ⟨(State.modUx (State.put State.reset .ux Reg.UX_REF_CTRL_MODE 1) (fun u => { u with dpll := { u.dpll with wtr := [(0, 0)] } })), by dsimp only; decide +kernel⟩,
   ⟨(State.modUx State.reset (fun u => { u with dpll := { u.dpll with alarmAcq := true } })), by decide +kernel⟩,
   ⟨(State.put (State.put (State.put (State.put (State.put (State.modUx (State.modUx (State.modUx State.reset (fun u => { u with dpll := { u.dpll with wtr := [(4, 0)] } })) (fun u => { u with dpll := { u.dpll with wtrDone := [] } })) (fun u => { u with dpll := { u.dpll with wtrDone := [] } })) .ux Reg.UX_REF_PRIO_ENTRIES 10168552956038) .ux Reg.UX_REF_STAT_SEL 1) .ux Reg.UX_REF_CTRL_MODE 0) .ux Reg.UX_REF_STAT_QUAL 255) .ux Reg.UX_REF_STAT_STATE 2), by dsimp only; decide +kernel⟩⟩

theorem test_hyps_RootTime :
    (∃ (n : Fin 4) (c : Bool) (s : State), (c = true ∨ c = false) ∧ s.tier ≠ 2 ∧ (s.tier ≠ 2 ∨ s.get .ux (Reg.UX_REF_IN_CFG_TYPE n) ≠ 0 ∨ s.bit .ux (Reg.UX_REF_IN_CFG_EN n) = false))
    ∧ (∃ (s : State), s.tier = 2 ∧ s.tbState .ux 0 ≠ 0)
    ∧ (∃ (n : Fin 4) (c : Bool) (s : State), (c = true ∨ c = false) ∧ s.tier = 2 ∧ s.tbState .ux 0 = 0 ∧ s.get .ux (Reg.UX_REF_IN_CFG_TYPE n) = 0 ∧ s.bit .ux (Reg.UX_REF_IN_CFG_EN n) = true ∧ tget 0 s.ux.todNext n = 0 ∧ s.bit .ux (Reg.UX_REF_IN_STAT_TOD_VALID n) = false)
    ∧ (∃ (n : Fin 4) (s : State), s.tier = 2 ∧ s.get .ux (Reg.UX_REF_IN_CFG_TYPE n) = 0 ∧ s.bit .ux (Reg.UX_REF_IN_CFG_EN n) = true ∧ tget 0 s.ux.todNext n = 0 ∧ s.bit .ux (Reg.UX_REF_IN_STAT_TOD_VALID n) = true)
    ∧ (∃ (n : Fin 4) (s : State), s.tier = 2 ∧ s.get .ux (Reg.UX_REF_IN_CFG_TYPE n) = 0 ∧ s.bit .ux (Reg.UX_REF_IN_CFG_EN n) = true ∧ ((match tget 0 s.ux.todNext n with | v + 1 => decide (tget 0 s.ux.todSkip n = 0) | _ => false) = true))
    ∧ (∃ (n : Fin 4) (s : State), s.tier = 2 ∧ s.get .ux (Reg.UX_REF_IN_CFG_TYPE n) = 0 ∧ s.bit .ux (Reg.UX_REF_IN_CFG_EN n) = true ∧ tget 0 s.ux.todNext n ≠ 0 ∧ tget 0 s.ux.todSkip n ≠ 0) :=
  ⟨⟨0, false, State.reset, by decide +kernel⟩,
   ⟨(State.put (State.put State.reset .ux Reg.UX_IDENT_ROLE_TIER 2) .ux (Reg.TB_STAT_STATE 0) 1), by decide +kernel⟩,
   ⟨1, false, (State.put (State.put State.reset .ux Reg.UX_IDENT_ROLE_TIER 2) .ux (Reg.UX_REF_IN_CFG_EN 1) 1), by decide +kernel⟩,
   ⟨1, (State.put (State.put (State.put State.reset .ux Reg.UX_IDENT_ROLE_TIER 2) .ux (Reg.UX_REF_IN_CFG_EN 1) 1) .ux (Reg.UX_REF_IN_STAT_TOD_VALID 1) 1), by decide +kernel⟩,
   ⟨2, (State.put (State.put (State.modUx State.reset (fun u => { u with todNext := [(2, 1)] })) .ux (Reg.UX_REF_IN_CFG_EN 2) 1) .ux Reg.UX_IDENT_ROLE_TIER 2), by decide +kernel⟩,
   ⟨0, (State.modUx (State.modUx (State.put (State.modUx (State.put State.reset .ux Reg.UX_IDENT_ROLE_TIER 2) (fun u => { u with todSkip := [] })) .ux (Reg.UX_REF_IN_CFG_EN 0) 1) (fun u => { u with todSkip := [(0, 1)] })) (fun u => { u with todNext := [(0, 1)] })), by decide +kernel⟩⟩

theorem test_hyps_PtpPort_part1 :
    (∃ (port : Fin 2) (s : State), (s.tier ≠ 2 ∨ s.bit .ux (Reg.UX_TP_CFG_PORT_EN port) = false))
    ∧ (∃ (port : Fin 2) (m : PtpMsg) (s : State), let c := s.ptpClock port; let heard := s.bit .ux (Reg.UX_TP_CFG_PTP_EN port) = true ∧ m.domain.toNat = s.get .ux (Reg.UX_TP_CFG_DOMAIN port) ∧ m.transport.toNat = s.get .ux (Reg.UX_TP_CFG_TRANSPORT port); s.tier = 2 ∧ s.bit .ux (Reg.UX_TP_CFG_PORT_EN port) = true ∧ m.body ≠ .unsupported ∧ (∀ ql, m.body ≠ .esmc ql) ∧ ((match m.body with | .announce d => decide (heard ∧ (∀ e, c.master = some e → e.identity = d.identity ∨ ptpBetter d e = true)) | _ => false) = true))
    ∧ (∃ (port : Fin 2) (m : PtpMsg) (s : State), s.tier = 2 ∧ s.bit .ux (Reg.UX_TP_CFG_PORT_EN port) = true ∧ m.body = .unsupported)
    ∧ (∃ (port : Fin 2) (m : PtpMsg) (s : State), s.tier = 2 ∧ s.bit .ux (Reg.UX_TP_CFG_PORT_EN port) = true ∧ ((match m.body with | .esmc ql => decide (s.bit .ux (Reg.UX_TP_CFG_SYNCE_EN port) = false) | _ => false) = true))
    ∧ (∃ (port : Fin 2) (m : PtpMsg) (s : State), s.tier = 2 ∧ s.bit .ux (Reg.UX_TP_CFG_PORT_EN port) = true ∧ ((match m.body with | .esmc ql => decide (s.bit .ux (Reg.UX_TP_CFG_SYNCE_EN port) = true) | _ => false) = true))
    ∧ (∃ (port : Fin 2) (m : PtpMsg) (s : State), let c := s.ptpClock port; let mine := ∃ d, c.master = some d ∧ d.identity = m.sender; let heard := s.bit .ux (Reg.UX_TP_CFG_PTP_EN port) = true ∧ m.domain.toNat = s.get .ux (Reg.UX_TP_CFG_DOMAIN port) ∧ m.transport.toNat = s.get .ux (Reg.UX_TP_CFG_TRANSPORT port); s.tier = 2 ∧ s.bit .ux (Reg.UX_TP_CFG_PORT_EN port) = true ∧ ((match m.body with | .sync seq origin => decide (heard) | _ => false) = true) ∧ ((match m.body with | .sync seq origin => decide (heard ∧ mine ∧ origin = none) | _ => false) = true))
    ∧ (∃ (port : Fin 2) (m : PtpMsg) (s : State), let c := s.ptpClock port; let heard := s.bit .ux (Reg.UX_TP_CFG_PTP_EN port) = true ∧ m.domain.toNat = s.get .ux (Reg.UX_TP_CFG_DOMAIN port) ∧ m.transport.toNat = s.get .ux (Reg.UX_TP_CFG_TRANSPORT port); s.tier = 2 ∧ s.bit .ux (Reg.UX_TP_CFG_PORT_EN port) = true ∧ ((match m.body with | .announce d => (decide (heard)) && ((match c.master with | some e => decide (e.identity ≠ d.identity ∧ ptpBetter d e = false) | _ => false)) | _ => false) = true))
    ∧ (∃ (port : Fin 2) (m : PtpMsg) (s : State), let c := s.ptpClock port; let mine := ∃ d, c.master = some d ∧ d.identity = m.sender; let heard := s.bit .ux (Reg.UX_TP_CFG_PTP_EN port) = true ∧ m.domain.toNat = s.get .ux (Reg.UX_TP_CFG_DOMAIN port) ∧ m.transport.toNat = s.get .ux (Reg.UX_TP_CFG_TRANSPORT port); s.tier = 2 ∧ s.bit .ux (Reg.UX_TP_CFG_PORT_EN port) = true ∧ ((match m.body with | .sync seq origin => (decide (heard ∧ mine)) && ((match origin with | some t1 => true | _ => false)) | _ => false) = true)) :=
  ⟨⟨0, State.reset, by decide +kernel⟩,
   ⟨0, { domain := 0#8, transport := 0#2, sender := 0#64, body := PtpBody.announce { priority1 := 0#8, clsClock := 0#8, accuracy := 0#8, variance := 0#16, priority2 := 0#8, identity := 0#64, steps := 0#16, traceable := false } }, (State.put (State.put (State.put (State.put State.reset .ux Reg.UX_IDENT_ROLE_TIER 2) .ux (Reg.UX_TP_CFG_PORT_EN 0) 1) .ux (Reg.UX_TP_CFG_PTP_EN 0) 1) .ux (Reg.UX_TP_CFG_DOMAIN 0) 0), by dsimp only; decide +kernel⟩,
   ⟨0, { domain := 0#8, transport := 0#2, sender := 0#64, body := PtpBody.unsupported }, (State.put (State.put State.reset .ux (Reg.UX_TP_CFG_PORT_EN 0) 1) .ux Reg.UX_IDENT_ROLE_TIER 2), by decide +kernel⟩,
   ⟨0, { domain := 0#8, transport := 0#2, sender := 0#64, body := PtpBody.esmc 0#4 }, (State.put (State.put State.reset .ux (Reg.UX_TP_CFG_PORT_EN 0) 1) .ux Reg.UX_IDENT_ROLE_TIER 2), by decide +kernel⟩,
   ⟨0, { domain := 0#8, transport := 0#2, sender := 0#64, body := PtpBody.esmc 0#4 }, (State.put (State.put (State.put State.reset .ux Reg.UX_IDENT_ROLE_TIER 2) .ux (Reg.UX_TP_CFG_PORT_EN 0) 1) .ux (Reg.UX_TP_CFG_SYNCE_EN 0) 1), by decide +kernel⟩,
   ⟨0, { domain := 0#8, transport := 0#2, sender := 7#64, body := PtpBody.sync 0#16 none }, (State.modUx (State.put (State.put (State.put (State.put State.reset .ux Reg.UX_IDENT_ROLE_TIER 2) .ux (Reg.UX_TP_CFG_PORT_EN 0) 1) .ux (Reg.UX_TP_CFG_PTP_EN 0) 1) .ux (Reg.UX_TP_CFG_DOMAIN 0) 0) (fun u => { u with ptp := [(0, { master := some { priority1 := 0, clsClock := 0, accuracy := 0, variance := 0, priority2 := 0, identity := 7, steps := 0, traceable := false }, sync := none, req := none, reqSeq := 0 })] })), by dsimp only; decide +kernel⟩,
   ⟨0, { domain := 0#8, transport := 0#2, sender := 0#64, body := PtpBody.announce { priority1 := 1#8, clsClock := 0#8, accuracy := 0#8, variance := 0#16, priority2 := 0#8, identity := 0#64, steps := 0#16, traceable := false } }, (State.modUx (State.put (State.put (State.put (State.put State.reset .ux Reg.UX_IDENT_ROLE_TIER 2) .ux (Reg.UX_TP_CFG_PORT_EN 0) 1) .ux (Reg.UX_TP_CFG_PTP_EN 0) 1) .ux (Reg.UX_TP_CFG_DOMAIN 0) 0) (fun u => { u with ptp := [(0, { master := some { priority1 := 0, clsClock := 0, accuracy := 0, variance := 0, priority2 := 0, identity := 1, steps := 0, traceable := false }, sync := none, req := none, reqSeq := 0 })] })), by dsimp only; decide +kernel⟩,
   ⟨0, { domain := 0#8, transport := 0#2, sender := 7#64, body := PtpBody.sync 0#16 (some 0) }, (State.modUx (State.put (State.put (State.put (State.put State.reset .ux Reg.UX_IDENT_ROLE_TIER 2) .ux (Reg.UX_TP_CFG_PORT_EN 0) 1) .ux (Reg.UX_TP_CFG_PTP_EN 0) 1) .ux (Reg.UX_TP_CFG_DOMAIN 0) 0) (fun u => { u with ptp := [(0, { master := some { priority1 := 0, clsClock := 0, accuracy := 0, variance := 0, priority2 := 0, identity := 7, steps := 0, traceable := false }, sync := none, req := none, reqSeq := 0 })] })), by dsimp only; decide +kernel⟩⟩

theorem test_hyps_PtpPort_part2 : ∃ (port : Fin 2) (m : PtpMsg) (s : State), let c := s.ptpClock port; let mine := ∃ d, c.master = some d ∧ d.identity = m.sender; let heard := s.bit .ux (Reg.UX_TP_CFG_PTP_EN port) = true ∧ m.domain.toNat = s.get .ux (Reg.UX_TP_CFG_DOMAIN port) ∧ m.transport.toNat = s.get .ux (Reg.UX_TP_CFG_TRANSPORT port); s.tier = 2 ∧ s.bit .ux (Reg.UX_TP_CFG_PORT_EN port) = true ∧ ((match m.body with | .delayResp seq t4 => (decide (heard ∧ mine)) && ((match c.sync with | some (n, t2, some t1) => (match c.req with | some (rq, t3) => decide (rq = seq.toNat) | _ => false) | _ => false)) | _ => false) = true) :=
  ⟨0, { domain := 0#8, transport := 0#2, sender := 7#64, body := PtpBody.delayResp 3#16 0 }, (State.modUx (State.put (State.put (State.put (State.put State.reset .ux Reg.UX_IDENT_ROLE_TIER 2) .ux (Reg.UX_TP_CFG_PORT_EN 0) 1) .ux (Reg.UX_TP_CFG_PTP_EN 0) 1) .ux (Reg.UX_TP_CFG_DOMAIN 0) 0) (fun u => { u with ptp := [(0, { master := some { priority1 := 0, clsClock := 0, accuracy := 0, variance := 0, priority2 := 0, identity := 7, steps := 0, traceable := false }, sync := some (0, 0 * 0 ^ 0, some (0 ^ 0)), req := some (3, 0 * 0 ^ 0), reqSeq := 0 })] })), by dsimp only; decide +kernel⟩

theorem test_hyps_Marks :
    (∃ (p : Part) (lane : Fin 160) (s : State), s.laneTimes p lane = false ∧ laneHere p lane = true ∧ s.laneUsed p lane = true)
    ∧ (∃ (p : Part) (lane : Fin 160) (s : State), (laneHere p lane = false ∨ s.laneUsed p lane = false))
    ∧ (∃ (p : Part) (lane : Fin 160) (dPs : BitVec 32) (s : State), let parent := s.laneParent p lane = true ∧ lane.val < 128; s.laneTimes p lane = true ∧ parent ∧ dPs = 0)
    ∧ (∃ (p : Part) (lane : Fin 160) (dPs : BitVec 32) (s : State), let blk := laneBlk p lane; let left := (s.lane p lane).recalLeft - 1; let parent := s.laneParent p lane = true ∧ lane.val < 128; s.laneTimes p lane = true ∧ parent ∧ dPs ≠ 0 ∧ left = 0 ∧ s.bit p (Reg.LANE_TCAL_CAL_DONE blk) = false)
    ∧ (∃ (p : Part) (lane : Fin 160) (m : TimeMsg) (s : State), s.laneTimes p lane = true ∧ tget 0 (s.lane p lane).t3 m.echoSeq.toNat = 0 ∧ p = .el)
    ∧ (∃ (p : Part) (lane : Fin 160) (dPs : BitVec 32) (s : State), let left := (s.lane p lane).recalLeft - 1; let parent := s.laneParent p lane = true ∧ lane.val < 128; s.laneTimes p lane = true ∧ parent ∧ dPs ≠ 0 ∧ left ≠ 0)
    ∧ (∃ (p : Part) (lane : Fin 160) (dPs : BitVec 32) (s : State), let blk := laneBlk p lane; let left := (s.lane p lane).recalLeft - 1; let parent := s.laneParent p lane = true ∧ lane.val < 128; s.laneTimes p lane = true ∧ parent ∧ dPs ≠ 0 ∧ left = 0 ∧ s.bit p (Reg.LANE_TCAL_CAL_DONE blk) = true) :=
  ⟨⟨Part.el, 0, State.reset, by decide +kernel⟩,
   ⟨Part.el, 3, State.reset, by decide +kernel⟩,
   ⟨Part.ux, 0, 0#32, (State.put State.reset .ux (Reg.LANE_STAT_STATE (laneBlk .ux 0)) 4), by dsimp only; decide +kernel⟩,
   ⟨Part.ux, 0, 1#32, (State.put State.reset .ux (Reg.LANE_STAT_STATE (laneBlk .ux 0)) 4), by dsimp only; decide +kernel⟩,
   ⟨Part.el, 0, { t1 := 0, t4 := 0, seq := 0#16, echoSeq := 0#16, asym := 0#16, upbSel := false, epochTai := false, traceable := false, dpll := 0#2, depth := 0#8 }, (State.put State.reset .el (Reg.LANE_STAT_STATE (laneBlk .el 0)) 4), by decide +kernel⟩,
   ⟨Part.ux, 0, 1#32, (State.modLane (State.put State.reset .ux (Reg.LANE_STAT_STATE (laneBlk .ux 0)) 4) .ux 0 (fun b => { b with recalLeft := 6 })), by dsimp only; decide +kernel⟩,
   ⟨Part.ux, 0, 1#32, (State.put (State.put (State.modLane (State.mod (State.mod (State.put State.reset .ux (Reg.LANE_STAT_STATE (laneBlk .ux 0)) 4) .ux (fun b => { b with hallArm := false })) .el (fun b => { b with secBytes := [(0, 0#8), (4095, 255#8), (0, 64#8)] })) .el 1 (fun b => { b with starveTo := [(0, 110)] })) .ux Reg.UX_IDENT_ROLE_PLANE 0) .ux (Reg.LANE_TCAL_CAL_DONE (laneBlk .ux 0)) 1), by dsimp only; decide +kernel⟩⟩

theorem test_hyps_Marks_b :
    (∃ (p : Part) (lane : Fin 160) (s : State), s.laneTimes p lane = true ∧ (s.lane p lane).markSlot ≤ s.tick p / 256 ∧ s.credit p lane 0 = 0)
    ∧ (∃ (p : Part) (lane : Fin 160) (s : State), s.laneTimes p lane = true ∧ (s.lane p lane).markSlot ≤ s.tick p / 256 ∧ s.credit p lane 0 ≠ 0 ∧ p = .ux ∧ (s.laneParent p lane = true ∨ 144 ≤ lane.val))
    ∧ (∃ (p : Part) (lane : Fin 160) (s : State), s.laneTimes p lane = true ∧ (s.lane p lane).markSlot ≤ s.tick p / 256 ∧ s.credit p lane 0 ≠ 0 ∧ (p = .el ∨ (s.laneParent p lane = false ∧ lane.val < 144)))
    ∧ (∃ (p : Part) (lane : Fin 160) (s : State), s.laneTimes p lane = true ∧ s.tick p / 256 < (s.lane p lane).markSlot) :=
  ⟨⟨Part.ux, 0, (State.put State.reset .ux (Reg.LANE_STAT_STATE (laneBlk .ux 0)) 4), by decide +kernel⟩,
   ⟨Part.ux, 0, (State.setCredit (State.put State.reset .ux (Reg.LANE_STAT_STATE (laneBlk .ux 0)) 4) .ux 0 0 1), by decide +kernel⟩,
   ⟨Part.el, 0, (State.setCredit (State.put State.reset .el (Reg.LANE_STAT_STATE (laneBlk .el 0)) 4) .el 0 0 1), by decide +kernel⟩,
   ⟨Part.el, 0, (State.modLane (State.put State.reset .el (Reg.LANE_STAT_STATE (laneBlk .el 0)) 4) .el 0 (fun l => { l with markSlot := 1 })), by decide +kernel⟩⟩

theorem test_hyps_MatchedExchange :
    (∃ (x : Fin 160) (m : TimeMsg) (s : State), let cal := s.bit .el (Reg.LANE_TCAL_CAL_DONE (laneBlk .el x)); s.laneTimes .el x = true ∧ ((match s.laneTb x with | some n => (match tget 0 (s.lane .el x).t3 m.echoSeq.toNat with | t3 + 1 => decide (s.el.refclkLost = false ∧ s.el.switchOwed = false ∧ cal = true ∧ s.tbState .el n = 0) | _ => false) | _ => false) = true))
    ∧ (∃ (x : Fin 160) (m : TimeMsg) (s : State), let cal := s.bit .el (Reg.LANE_TCAL_CAL_DONE (laneBlk .el x)); s.laneTimes .el x = true ∧ ((match s.laneTb x with | some n => (match tget 0 (s.lane .el x).t3 m.echoSeq.toNat with | t3 + 1 => decide (s.el.refclkLost = false ∧ s.el.switchOwed = false ∧ cal = false ∧ (s.lane .el x).matched + 1 < 4096 ∧ s.tbState .el n = 0) | _ => false) | _ => false) = true)) :=
  ⟨⟨0, { t1 := 0, t4 := 0, seq := 0#16, echoSeq := 0#16, asym := 0#16, upbSel := false, epochTai := false, traceable := false, dpll := 0#2, depth := 0#8 }, (State.put (State.modLane (State.put State.reset .el (Reg.LANE_STAT_STATE (laneBlk .el 0)) 4) .el 0 (fun l => { l with t3 := [(0, 1)] })) .el (Reg.LANE_TCAL_CAL_DONE (laneBlk .el 0)) 1), by dsimp only; decide +kernel⟩,
   ⟨0, { t1 := 0, t4 := 0, seq := 0#16, echoSeq := 0#16, asym := 0#16, upbSel := false, epochTai := false, traceable := false, dpll := 0#2, depth := 0#8 }, (State.modLane (State.modLane (State.put State.reset .el (Reg.LANE_STAT_STATE (laneBlk .el 0)) 4) .el 0 (fun l => { l with t3 := [(0, 1)] })) .el 0 (fun b => { b with matched := 7 })), by dsimp only; decide +kernel⟩⟩

theorem test_hyps_LaneFailures :
    (∃ (p : Part) (lane : Fin 160) (s : State), (laneHere p lane = false ∨ s.laneLinked p lane = false) ∧ (laneHere p lane = false ∨ s.laneState p lane ≠ 5) ∧ (laneHere p lane = false ∨ s.laneState p lane ≠ 1))
    ∧ (∃ (p : Part) (lane : Fin 160) (s : State), laneHere p lane = true ∧ s.laneLinked p lane = true ∧ s.laneState p lane = 5)
    ∧ (∃ (p : Part) (lane : Fin 160) (s : State), laneHere p lane = true ∧ s.laneLinked p lane = true ∧ ((match (s.lane p lane).replay with | f :: fs => decide (8 ≤ f.sends ∧ s.replayDue p lane = true) | _ => false) = true))
    ∧ (∃ (p : Part) (lane : Fin 160) (s : State), laneHere p lane = true ∧ s.laneState p lane = 1) :=
  ⟨⟨Part.el, 0, State.reset, by decide +kernel⟩,
   ⟨Part.el, 0, (State.put State.reset .el (Reg.LANE_STAT_STATE (laneBlk .el 0)) 5), by decide +kernel⟩,
   ⟨Part.el, 0, (State.modLane (State.mod (State.put State.reset .el (Reg.LANE_STAT_STATE (laneBlk .el 0)) 4) .el (fun b => { b with frc := 2 ^ 50 })) .el 0 (fun l => { l with replay := [{ seq := 0, vc := 0, msg := .leave, body := { type := 0, vcf := 0, len := 0, payload := [] }, sends := 8, sentAt := 0 }] })), by decide +kernel⟩,
   ⟨Part.el, 1, (State.modUx (State.modUx (State.modEl (State.put State.reset .el (Reg.LANE_STAT_STATE (laneBlk .el 1)) 1) (fun e => { e with dma := [(2, { left := 4096, qid := some 8, fetched := true, ctl := 0xffffffff#32, total := 0, written := 1, retries := 4096, busError := true, endSt := 32, failed := false, got := [] })] })) (fun u => { u with tripped := true })) (fun u => { u with attested := [230] })), by decide +kernel⟩⟩

theorem test_hyps_Failover : ∃ (x : Fin 2) (s : State), s.laneLinked .el x = true ∧ s.el.lic.planes = 2 ∧ s.bit .el (Reg.LANE_STAT_SELECTED (laneBlk .el x)) = true ∧ s.laneState .el (1 - x.val) = 4 ∧ s.bit .el (Reg.LANE_STAT_AWAY (laneBlk .el (1 - x.val))) = false ∧ s.tbState .el 0 ≠ 0 ∧ s.el.refclkLost = false :=
  ⟨1, (State.put (State.put (State.put (State.put State.reset .el (Reg.LANE_STAT_STATE (laneBlk .el 0)) 4) .el (Reg.TB_STAT_STATE 0) 1) .el (Reg.LANE_STAT_SELECTED (laneBlk .el 1)) 1) .el (Reg.LANE_STAT_STATE (laneBlk .el 1)) 5), by decide +kernel⟩

theorem test_hyps_LaneMembership :
    (∃ (p : Part) (lane : Fin 160) (s : State), let blk := laneBlk p lane; let st := s.laneState p lane; laneHere p lane = true ∧ st = 0 ∧ s.laneUsed p lane = true ∧ s.bit p (Reg.LANE_CTRL_AUTO_JOIN blk) = true ∧ (st = 0 ∨ st = 6) ∧ st ≠ 1 ∧ st ≠ 2)
    ∧ (∃ (p : Part) (lane : Fin 160) (s : State), let st := s.laneState p lane; laneHere p lane = true ∧ (st = 0 ∨ st = 6) ∧ s.laneUsed p lane = false)
    ∧ (∃ (p : Part) (lane : Fin 160) (j : JoinRec) (authOk : Bool) (s : State), let blk := laneBlk p lane; let st := s.laneState p lane; let sent := !(s.lane p lane).txq.any (fun e => e.2.isJoin) && !(s.lane p lane).replay.any (fun f => f.msg.isJoin); laneHere p lane = true ∧ ((st ≠ 0 ∧ st ≠ 6) ∨ (s.laneUsed p lane = true ∧ (st = 6 ∨ s.bit p (Reg.LANE_CTRL_AUTO_JOIN blk) = false))) ∧ st ≠ 0 ∧ st ≠ 6 ∧ st = 2 ∧ s.joinCause p lane j authOk = none ∧ sent = true)
    ∧ (∃ (p : Part) (lane : Fin 160) (j : JoinRec) (authOk : Bool) (s : State), let st := s.laneState p lane; laneHere p lane = true ∧ st = 2 ∧ ((match s.joinCause p lane j authOk with | some c => true | _ => false) = true))
    ∧ (∃ (p : Part) (lane : Fin 160) (j : JoinRec) (authOk : Bool) (s : State), let st := s.laneState p lane; let sent := !(s.lane p lane).txq.any (fun e => e.2.isJoin) && !(s.lane p lane).replay.any (fun f => f.msg.isJoin); laneHere p lane = true ∧ st = 2 ∧ s.joinCause p lane j authOk = none ∧ sent = false)
    ∧ (∃ (p : Part) (lane : Fin 160) (s : State), let st := s.laneState p lane; laneHere p lane = true ∧ st = 1) :=
  ⟨⟨Part.ux, 0, State.reset, by dsimp only; decide +kernel⟩,
   ⟨Part.ux, 139, State.reset, by dsimp only; decide +kernel⟩,
   ⟨Part.el, 0, { kind := 1#8, plane := 0#8, port := 0#8, depth := 0#8, pdi := 0#32, version := 1#16 }, true, (State.put State.reset .el (Reg.LANE_STAT_STATE (laneBlk .el 0)) 2), by dsimp only; decide +kernel⟩,
   ⟨Part.ux, 0, { kind := 0#8, plane := 0#8, port := 0#8, depth := 0#8, pdi := 0#32, version := 0#16 }, false, (State.put State.reset .ux (Reg.LANE_STAT_STATE (laneBlk .ux 0)) 2), by dsimp only; decide +kernel⟩,
   ⟨Part.el, 0, { kind := 1#8, plane := 0#8, port := 0#8, depth := 0#8, pdi := 0#32, version := 1#16 }, true, (State.modLane (State.put State.reset .el (Reg.LANE_STAT_STATE (laneBlk .el 0)) 2) .el 0 (fun l => { l with txq := [(0, .join { kind := 0, plane := 0, port := 0, depth := 0, pdi := 0, version := 0 })] })), by dsimp only; decide +kernel⟩,
   ⟨Part.el, 1, (State.put State.reset .el (Reg.LANE_STAT_STATE (laneBlk .el 1)) 1), by dsimp only; decide +kernel⟩⟩

theorem test_hyps_LaneMembership_b :
    (∃ (p : Part) (lane : Fin 160) (s : State), let l := s.lane p lane; laneHere p lane = true ∧ s.laneState p lane ≠ 4 ∧ (s.laneState p lane ≠ 5 ∨ l.replay ≠ [] ∨ l.leaveSent = true) ∧ s.laneState p lane ≠ 5)
    ∧ (∃ (p : Part) (lane : Fin 160) (s : State), let blk := laneBlk p lane; let l := s.lane p lane; let carries := s.bit p (Reg.LANE_STAT_SELECTED blk) && s.carriesMember p lane; let ended := l.leaveSent && l.replay.isEmpty && !l.txq.any (fun e => e.2 == .leave); laneHere p lane = true ∧ s.laneState p lane = 4 ∧ carries = false ∧ (s.laneState p lane = 4 ∨ s.laneState p lane = 5) ∧ ended = false)
    ∧ (∃ (p : Part) (lane : Fin 160) (s : State), let l := s.lane p lane; laneHere p lane = true ∧ s.laneState p lane = 5 ∧ l.replay = [] ∧ l.leaveSent = false)
    ∧ (∃ (p : Part) (lane : Fin 160) (s : State), let l := s.lane p lane; let ended := l.leaveSent && l.replay.isEmpty && !l.txq.any (fun e => e.2 == .leave); laneHere p lane = true ∧ (s.laneState p lane = 4 ∨ s.laneState p lane = 5) ∧ ended = true)
    ∧ (∃ (p : Part) (lane : Fin 160) (s : State), let blk := laneBlk p lane; let carries := s.bit p (Reg.LANE_STAT_SELECTED blk) && s.carriesMember p lane; laneHere p lane = true ∧ s.laneState p lane = 4 ∧ carries = true) :=
  ⟨⟨Part.ux, 0, State.reset, by dsimp only; decide +kernel⟩,
   ⟨Part.el, 0, (State.put State.reset .el (Reg.LANE_STAT_STATE (laneBlk .el 0)) 4), by dsimp only; decide +kernel⟩,
   ⟨Part.el, 0, (State.put State.reset .el (Reg.LANE_STAT_STATE (laneBlk .el 0)) 5), by dsimp only; decide +kernel⟩,
   ⟨Part.el, 0, (State.modLane (State.put State.reset .el (Reg.LANE_STAT_STATE (laneBlk .el 0)) 5) .el 0 (fun l => { l with leaveSent := true })), by dsimp only; decide +kernel⟩,
   ⟨Part.el, 0, (State.put (State.put (State.put State.reset .el (Reg.LANE_STAT_STATE (laneBlk .el 0)) 4) .el (Reg.LANE_STAT_SELECTED (laneBlk .el 0)) 1) .el Reg.HC_STAT_STATE 3), by dsimp only; decide +kernel⟩⟩

theorem test_hyps_LaneMembership_c : ∃ (p : Part) (lane : Fin 160), laneHere p lane = false :=
  ⟨Part.el, 3, by decide +kernel⟩

theorem test_hyps_FrameSlots :
    (∃ (p : Part) (lane : Fin 160) (s : State), let l := s.lane p lane; laneHere p lane = true ∧ s.laneLinked p lane = true ∧ l.resend = [] ∧ (64 ≤ l.replay.length ∨ s.pickVc p lane = none))
    ∧ (∃ (p : Part) (lane : Fin 160) (s : State), let l := s.lane p lane; laneHere p lane = true ∧ s.laneLinked p lane = true ∧ l.resend = [] ∧ l.replay.length < 64 ∧ ((match s.pickVc p lane with | some vc => (match l.txq.find? (fun e => e.1 == vc && s.mayGo p lane e) with | some e => decide (vc < 8 ∧ l.authCtr + 1 ≠ 2 ^ 32) | _ => false) | _ => false) = true))
    ∧ (∃ (p : Part) (lane : Fin 160) (s : State), let l := s.lane p lane; laneHere p lane = true ∧ s.laneLinked p lane = true ∧ ((match l.resend with | f :: fs => true | _ => false) = true)) :=
  ⟨⟨Part.el, 1, (State.put State.reset .el (Reg.LANE_STAT_STATE (laneBlk .el 1)) 2), by dsimp only; decide +kernel⟩,
   ⟨Part.el, 0, (State.modLane (State.setCredit (State.put State.reset .el (Reg.LANE_STAT_STATE (laneBlk .el 0)) 4) .el 0 1 1) .el 0 (fun l => { l with txq := [(1, .sealMsg 0 0 0)] })), by dsimp only; decide +kernel⟩,
   ⟨Part.el, 0, (State.modLane (State.put State.reset .el (Reg.LANE_STAT_STATE (laneBlk .el 0)) 4) .el 0 (fun l => { l with replay := [], resend := [{ seq := 0, vc := 0, msg := .leave, body := { type := 0, vcf := 0, len := 0, payload := [] }, sends := 0, sentAt := 0 }] })), by dsimp only; decide +kernel⟩⟩

theorem test_hyps_FrameReception :
    (∃ (p : Part) (lane : Fin 160) (f : RxFrame) (s : State), let vc := f.vcf.toNat % 8; laneHere p lane = true ∧ s.laneLinked p lane = true ∧ frameGood f = true ∧ f.type ≠ 0 ∧ (f.type = 2 ∨ (vc ≠ 5 ∧ vc ≠ 6)) ∧ s.forcedNak p lane f = false ∧ s.laneState p lane ≠ 2 ∧ s.laneState p lane ≠ 5 ∧ f.ackf.toNat / 2 % 2 = 0)
    ∧ (∃ (p : Part) (lane : Fin 160) (f : RxFrame) (s : State), laneHere p lane = true ∧ s.laneLinked p lane = true ∧ frameGood f = false) :=
  ⟨⟨Part.el, 0, { type := 1#8, vcf := 0#8, seq := 0#8, ackSeq := 0#8, ackf := 0#8, len := 0#8, credit := 0#16, payload := [0#8, 0#8, 0#8, 0#8, 0#8, 0#8, 0#8, 0#8, 0#8, 0#8, 0#8, 0#8, 0#8, 0#8, 0#8, 0#8, 0#8, 0#8, 0#8, 0#8, 0#8, 0#8, 0#8, 0#8, 0#8, 0#8, 0#8, 0#8, 0#8, 0#8, 0#8, 0#8, 0#8, 0#8, 0#8, 0#8, 0#8, 0#8, 0#8, 0#8, 0#8, 0#8, 0#8, 0#8, 0#8, 0#8, 0#8, 0#8, 0#8, 0#8, 0#8, 0#8, 0#8, 0#8, 0#8, 0#8, 0#8, 0#8, 0#8, 0#8, 0#8, 0#8, 0#8, 0#8, 0#8, 0#8, 0#8, 0#8, 0#8, 0#8, 0#8, 0#8, 0#8, 0#8, 0#8, 0#8, 0#8, 0#8, 0#8, 0#8, 0#8, 0#8, 0#8, 0#8, 0#8, 0#8, 0#8, 0#8, 0#8, 0#8, 0#8, 0#8, 0#8, 0#8, 0#8, 0#8, 0#8, 0#8, 0#8, 0#8, 0#8, 0#8, 0#8, 0#8, 0#8, 0#8, 0#8, 0#8, 0#8, 0#8, 0#8, 0#8, 0#8, 0#8, 0#8, 0#8, 0#8, 0#8, 0#8, 0#8, 0#8, 0#8, 0#8, 0#8, 0#8, 0#8, 0#8, 0#8, 0#8, 0#8, 0#8, 0#8, 0#8, 0#8, 0#8, 0#8, 0#8, 0#8, 0#8, 0#8, 0#8, 0#8, 0#8, 0#8, 0#8, 0#8, 0#8, 0#8, 0#8, 0#8, 0#8, 0#8, 0#8, 0#8, 0#8, 0#8, 0#8, 0#8, 0#8, 0#8, 0#8, 0#8, 0#8, 0#8, 0#8, 0#8, 0#8, 0#8, 0#8, 0#8, 0#8, 0#8, 0#8, 0#8, 0#8, 0#8, 0#8, 0#8, 0#8, 0#8, 0#8, 0#8, 0#8, 0#8, 0#8, 0#8, 0#8, 0#8, 0#8, 0#8, 0#8, 0#8, 0#8, 0#8, 0#8, 0#8, 0#8, 0#8, 0#8, 0#8, 0#8, 0#8, 0#8, 0#8, 0#8, 0#8, 0#8, 0#8, 0#8, 0#8, 0#8, 0#8, 0#8, 0#8, 0#8, 0#8, 0#8, 0#8, 0#8, 0#8, 0#8, 0#8, 0#8, 0#8, 0#8, 0#8, 0#8, 0#8, 0#8, 0#8, 0#8, 0#8, 0#8, 0#8, 0#8, 0#8, 0#8, 0#8, 0#8, 0#8, 0#8, 0#8, 0#8, 0#8], crc := 0xa59aa192#32 }, (State.put State.reset .el (Reg.LANE_STAT_STATE (laneBlk .el 0)) 4), by dsimp only; decide +kernel⟩,
   ⟨Part.ux, 1, { type := 0#8, vcf := 0#8, seq := 0#8, ackSeq := 0#8, ackf := 0#8, len := 0#8, credit := 0#16, payload := [], crc := 0#32 }, (State.put State.reset .ux (Reg.LANE_STAT_STATE (laneBlk .ux 1)) 5), by decide +kernel⟩⟩

theorem test_hyps_ReplayAwayModule :
    (∃ (p : Part) (lane : Fin 160) (m : Fin 20) (k : Fin 8) (s : State), let x := 8 * m.val + k.val; s.replayDue p lane = false ∧ (laneHere p lane = false ∨ s.laneState p lane ≠ 4) ∧ s.laneLinked .ux x = false)
    ∧ (∃ (m : Fin 20) (k : Fin 8) (s : State), let x := 8 * m.val + k.val; s.laneLinked .ux x = true)
    ∧ (∃ (p : Part) (lane : Fin 160) (s : State), let l := s.lane p lane; s.replayDue p lane = true ∧ laneHere p lane = true ∧ s.laneState p lane = 4 ∧ ((match l.replay with | f :: fs => decide (f.sends < 8) | _ => false) = true)) :=
  ⟨⟨Part.el, 0, 0, 0, State.reset, by dsimp only; decide +kernel⟩,
   ⟨0, 2, (State.put State.reset .ux (Reg.LANE_STAT_STATE (laneBlk .ux 2)) 3), by dsimp only; decide +kernel⟩,
   ⟨Part.el, 0, (State.modLane (State.mod (State.put State.reset .el (Reg.LANE_STAT_STATE (laneBlk .el 0)) 4) .el (fun b => { b with frc := 2 ^ 50 })) .el 0 (fun l => { l with replay := [{ seq := 0, vc := 0, msg := .leave, body := { type := 0, vcf := 0, len := 0, payload := [] }, sends := 7, sentAt := 0 }] })), by dsimp only; decide +kernel⟩⟩

theorem test_hyps_ControlFlow :
    (∃ (p : Part) (e : Env) (d : Fin 64) (tgt : BitVec 16) (s : State), let n := (s.seq p).bundles; let g := s.greg p; let v := g d; Within s p e 0 [] ∧ tgt.toNat < n ∧ Alone s p e 0 [.branch tgt.toNat] ∧ regOk p d = true ∧ v.toNat < n ∧ Alone s p e 0 [.branch v.toNat] ∧ Alone s p e 0 [.halt] ∧ (s.base p).qops = [] ∧ (s.seq .el).heldStarts = [])
    ∧ (∃ (p : Part) (e : Env) (d : Fin 64) (tgt : BitVec 16) (s : State), let n := (s.seq p).bundles; let g := s.greg p; let v := g d; regOk p d = true ∧ tgt.toNat < n ∧ v = 0 ∧ Within s p e 0 [])
    ∧ (∃ (p : Part) (e : Env) (d : Fin 64) (s : State), let n := (s.seq p).bundles; let g := s.greg p; let v := g d; Alone s p e 0 [] ∧ s.pc p + 1 = n ∧ regOk p d = true ∧ n ≤ v.toNat ∧ Alone s p e 0 [.fault 0x8086 v.toNat])
    ∧ (∃ (p : Part) (e : Env) (d : Fin 64) (tgt : BitVec 16) (s : State), let n := (s.seq p).bundles; let g := s.greg p; let v := g d; regOk p d = true ∧ tgt.toNat < n ∧ v ≠ 0 ∧ v ≠ 1 ∧ Alone s p e 0 [.g d (v - 1), .branch tgt.toNat])
    ∧ (∃ (p : Part) (e : Env) (s : State), Alone s p e 0 [.halt] ∧ (s.base p).qops ≠ [])
    ∧ (∃ (p : Part) (e : Env) (d : Fin 64) (tgt : BitVec 16) (s : State), let n := (s.seq p).bundles; let g := s.greg p; let v := g d; regOk p d = true ∧ tgt.toNat < n ∧ v = 1 ∧ Within s p e 0 [.g d 0]) :=
  ⟨⟨Part.ux, { pen := true, pneg := true, pflag := 0, last := true }, 0, 5#16, (running .ux), by simp only [alone_iff, Within, State.memOk, State.guardFree]; and_intros <;> decide +kernel⟩,
   ⟨Part.ux, { pen := true, pneg := true, pflag := 0, last := true }, 0, 6#16, (running .ux), by simp only [alone_iff, Within, State.memOk, State.guardFree]; and_intros <;> decide +kernel⟩,
   ⟨Part.ux, { pen := true, pneg := true, pflag := 0, last := true }, 0, (State.modSeq (State.modSeq (State.put State.reset .ux Reg.SEQ_STAT_STATE 3) .ux (fun b => { b with bundles := 1 })) .ux (fun q => { q with g := (List.range 1).map (fun i => (i, 1#64)) })), by simp only [alone_iff, Within, State.memOk, State.guardFree]; and_intros <;> decide +kernel⟩,
   ⟨Part.el, eLast, 2, 7#16, (State.setGreg (running .el) .el 2 5), by simp only [alone_iff, Within, State.memOk, State.guardFree]; and_intros <;> decide +kernel⟩,
   ⟨Part.el, { pen := true, pneg := true, pflag := 0, last := true }, (State.mod (State.modSeq (State.put State.reset .el Reg.SEQ_STAT_STATE 3) .el (fun q => { q with bundles := 1 })) .el (fun b => { b with qops := [{ id := 0, queue := QueueId.move, kind := QKind.ssum 0 0 0, pc := 0, core := 0, k := 0, amt := 0, entries := 0, started := false }] })), by simp only [alone_iff, Within, State.memOk, State.guardFree]; and_intros <;> decide +kernel⟩,
   ⟨Part.ux, { pen := true, pneg := true, pflag := 0, last := true }, 0, 4#16, (State.setGreg (State.mod (State.modSeq (running .ux) .el (fun b => { b with stopIssue := true })) .ux (fun b => { b with selftest := { action := 9, mask := 0, force := true, logged := true } })) .ux 0 1#64), by simp only [alone_iff, Within, State.memOk, State.guardFree]; and_intros <;> decide +kernel⟩⟩

theorem test_hyps_Waits :
    (∃ (p : Part) (e : Env) (tb : Fin 4) (rel : Bool) (a : Fin 64) (ns : BitVec 32) (s : State), let t := s.anchorTime p tb rel a ns.toNat; envOk e = true ∧ waittOk s.el.lic p tb rel a = true ∧ (s.waits p e = false ∨ (s.seq p).anchorOk = true) ∧ (((match (s.seq p).hold with | .anchor t since => false | _ => true) = true) ∨ s.issuing p = false) ∧ (s.issuing p = false ∨ ((match (s.seq p).hold with | .waitc c' k' t' q' f' l' n' => false | _ => true) = true)))
    ∧ (∃ (p : Part) (e : Env) (tb : Fin 4) (rel : Bool) (a : Fin 64) (ns : BitVec 32) (core : BitVec 8) (k : BitVec 6) (eq : Bool) (tmo : BitVec 24) (s : State), let t := s.anchorTime p tb rel a ns.toNat; let v := s.cntRead p core.toNat k.toNat; let x := (s.greg p a).toNat; envOk e = true ∧ waittOk s.el.lic p tb rel a = true ∧ s.waits p e = true ∧ (s.seq p).anchorOk = false ∧ (s.tbState p 0 = 0 ∨ s.tbReached p 0 t = true) ∧ cntOk s.el.lic p core k = true ∧ regOk p a = true ∧ tmo ≠ 0 ∧ x ≤ v ∧ eq = false ∧ Within s p e 0 [])
    ∧ (∃ (p : Part) (e : Env) (a : Fin 64) (core : BitVec 8) (k : BitVec 6) (eq : Bool) (tmo : BitVec 24) (cf : Fin 8) (s : State), let v := s.cntRead p core.toNat k.toNat; let x := (s.greg p a).toNat; envOk e = true ∧ cntOk s.el.lic p core k = true ∧ regOk p a = true ∧ tmo ≠ 0 ∧ x ≤ v ∧ eq = true ∧ Within s p e 0 [.flag cf (v == x)])
    ∧ (∃ (p : Part) (tb : Fin 4) (rel : Bool) (a : Fin 64) (ns : BitVec 32) (s : State), let t := s.anchorTime p tb rel a ns.toNat; ((match (s.seq p).hold with | .anchor t since => decide (s.issuing p = true ∧ (s.tbState p 0 = 0 ∨ s.tbReached p 0 t = true)) | _ => false) = true))
    ∧ (∃ (p : Part) (tb : Fin 4) (rel : Bool) (a : Fin 64) (ns : BitVec 32) (s : State), let t := s.anchorTime p tb rel a ns.toNat; ((match (s.seq p).hold with | .anchor t since => decide (s.tbState p 0 ≠ 0 ∧ s.tbReached p 0 t = false) | _ => false) = true))
    ∧ (∃ (p : Part) (e : Env) (a : Fin 64) (core : BitVec 8) (k : BitVec 6) (tmo : BitVec 24) (s : State), let v := s.cntRead p core.toNat k.toNat; let x := (s.greg p a).toNat; envOk e = true ∧ cntOk s.el.lic p core k = true ∧ regOk p a = true ∧ tmo ≠ 0 ∧ s.waits p e = true ∧ v < x)
    ∧ (∃ (p : Part) (e : Env) (tb : Fin 4) (rel : Bool) (a : Fin 64) (ns : BitVec 32) (s : State), let t := s.anchorTime p tb rel a ns.toNat; envOk e = true ∧ waittOk s.el.lic p tb rel a = true ∧ s.waits p e = true ∧ (s.seq p).anchorOk = false ∧ s.tbState p 0 ≠ 0 ∧ s.tbReached p 0 t = false)
    ∧ (∃ (p : Part) (s : State), ((match (s.seq p).hold with | .waitc c' k' t' q' f' l' n' => decide (s.issuing p = true) | _ => false) = true)) :=
  ⟨⟨Part.el, { pen := false, pneg := false, pflag := 0, last := false }, 0, false, 0, 0#32, State.reset, by dsimp only; decide +kernel⟩,
   ⟨Part.el, { pen := true, pneg := true, pflag := 0, last := true }, 0, false, 0, 0#32, 0#8, 0#6, false, 1#24, (running .el), by simp only [alone_iff, Within, State.memOk, State.guardFree]; and_intros <;> decide +kernel⟩,
   ⟨Part.el, { pen := true, pneg := true, pflag := 0, last := true }, 0, 0#8, 0#6, true, 1#24, 0, (running .el), by simp only [alone_iff, Within, State.memOk, State.guardFree]; and_intros <;> decide +kernel⟩,
   ⟨Part.el, 0, false, 0, 0#32, (State.modSeq (State.put State.reset .el Reg.SEQ_STAT_STATE 3) .el (fun b => { b with hold := Hold.anchor 0 0 })), by dsimp only; decide +kernel⟩,
   ⟨Part.ux, 0, false, 0, 0#32, (State.put (State.modSeq State.reset .ux (fun b => { b with hold := Hold.anchor 1 0 })) .ux (Reg.TB_STAT_STATE 0) 1), by dsimp only; decide +kernel⟩,
   ⟨Part.el, { pen := true, pneg := true, pflag := 0, last := false }, 0, 0#8, 0#6, 1#24, (State.modSeq (State.put State.reset .el Reg.SEQ_STAT_STATE 3) .el (fun q => { q with g := (List.range 1).map (fun i => (i, 1#64)) })), by dsimp only; decide +kernel⟩,
   ⟨Part.el, { pen := true, pneg := true, pflag := 0, last := false }, 0, true, 0, 1#32, (State.put (State.put State.reset .el Reg.SEQ_STAT_STATE 3) .el (Reg.TB_STAT_STATE 0) 1), by dsimp only; decide +kernel⟩,
   ⟨Part.el, (State.put (State.modSeq (State.modEl (State.modSeq (State.modUx (State.modSeq State.reset .el (fun b => { b with hold := Hold.waitc 0 7 8 true 1 6 0 })) (fun u => { u with tc := [] })) .el (fun b => { b with acts := [] })) (fun e => { e with stepEvents := 4 })) .ux (fun b => { b with stopIssue := true })) .el Reg.SEQ_STAT_STATE 3), by decide +kernel⟩⟩

theorem test_hyps_SlackWindows :
    (∃ (p : Part) (s : State), let q := s.seq p; q.window = none)
    ∧ (∃ (p : Part) (s : State), let q := s.seq p; ((match q.window with | some w => decide (w.until? = none) | _ => false) = true))
    ∧ (∃ (p : Part) (s : State), let q := s.seq p; ((match q.window with | some w => (match w.until? with | some t => decide (s.tbReached p 0 t = false) | _ => false) | _ => false) = true))
    ∧ (∃ (p : Part) (e : Env) (mask : BitVec 7) (n : BitVec 24) (s : State), quietOk mask n = true ∧ Within s p e 0 [.window mask.toNat n.toNat])
    ∧ (∃ (p : Part) (s : State), let q := s.seq p; ((match q.window with | some w => (match w.until? with | some t => decide (s.tbReached p 0 t = true) | _ => false) | _ => false) = true)) :=
  ⟨⟨Part.ux, State.reset, by dsimp only; decide +kernel⟩,
   ⟨Part.ux, (State.modSeq State.reset .ux (fun b => { b with window := some { mask := 0, until? := none, ready := false, logged := false } })), by dsimp only; decide +kernel⟩,
   ⟨Part.el, (State.modSeq State.reset .el (fun b => { b with window := some { mask := 0, until? := some 0, ready := false, logged := false } })), by dsimp only; decide +kernel⟩,
   ⟨Part.ux, { pen := true, pneg := true, pflag := 0, last := true }, 1#7, 1#24, (running .ux), by simp only [alone_iff, Within, State.memOk, State.guardFree]; and_intros <;> decide +kernel⟩,
   ⟨Part.el, (State.modSeq (State.put State.reset .el (Reg.TB_STAT_STATE 0) 1) .el (fun b => { b with window := some { mask := 0, until? := some 0, ready := false, logged := false } })), by dsimp only; decide +kernel⟩⟩

theorem test_hyps_IntegerOperations :
    (∃ (p : Part) (e : Env) (d : Fin 64) (a : Fin 64) (o : Opnd) (v : BitVec 32) (cd : Fin 8) (cond : Fin 8) (s : State), let A := s.greg p a; let B := s.opnd p o; regOk p d = true ∧ opndOk p o = true ∧ Within s p e (intSlot p) [.g d B] ∧ Within s p e (intSlot p) [.g d (v ++ (s.greg p d).setWidth 32)] ∧ regOk p a = true ∧ Within s p e (intSlot p) [.g d (A + B)] ∧ Within s p e (intSlot p) [.g d (A - B)] ∧ Within s p e (intSlot p) [.g d (A &&& B)] ∧ Within s p e (intSlot p) [.g d (A ||| B)] ∧ Within s p e (intSlot p) [.g d (A ^^^ B)] ∧ Within s p e (intSlot p) [.g d (A <<< (B.toNat % 64))] ∧ Within s p e (intSlot p) [.g d (A >>> (B.toNat % 64))] ∧ Within s p e (intSlot p) [.g d (A.sshiftRight (B.toNat % 64))] ∧ Within s p e (intSlot p) [.g d (A * B)] ∧ cond.val < 6 ∧ (Within s p e (intSlot p) [.flag cd (match cond.val with | 0 => A == B | 1 => A != B | 2 => A.ult B | 3 => !A.ult B | 4 => A.slt B | _ => !A.slt B)]))
    ∧ (∃ (p : Part) (e : Env) (cd : Fin 8) (ca : Fin 8) (cb : Fin 8) (fn : Fin 4) (s : State), (Within s p e (intSlot p) [.flag cd (match fn.val with | 0 => s.flag p ca && s.flag p cb | 1 => s.flag p ca || s.flag p cb | 2 => s.flag p ca != s.flag p cb | _ => s.flag p ca && !s.flag p cb)])) :=
  ⟨⟨Part.ux, { pen := true, pneg := true, pflag := 0, last := true }, 0, 0, Opnd.reg 0, 0#32, 0, 5, (running .ux), by simp only [alone_iff, Within, State.memOk, State.guardFree]; and_intros <;> decide +kernel⟩,
   ⟨Part.ux, { pen := true, pneg := true, pflag := 0, last := true }, 0, 0, 0, 0, (running .ux), by simp only [alone_iff, Within, State.memOk, State.guardFree]; and_intros <;> decide +kernel⟩⟩

theorem test_hyps_RegisterReads :
    (∃ (e : Env) (d : Fin 64) (a : Fin 64) (b : Fin 64) (n : Fin 64) (tb : Fin 4) (core : BitVec 8) (k : BitVec 6) (fa : Fin 16) (sel : Fin 4) (id : Fin 8) (src : Fin 16) (purpose : BitVec 16) (cf : Fin 8) (s : State), let g := s.greg .el; let l := s.el.lic; let t := s.tbSample .el tb; let quad := s.drawQuad purpose.toNat (g a).toNat (s.gpos b); trdOk l .el d tb true = true ∧ Within s .el e 1 [.g d (BitVec.ofNat 64 (t / 2 ^ 32))] ∧ trdOk l .el d tb false = true ∧ Within s .el e 1 [.g d (hxtSecW t), .g (d + 1) (hxtNsfW t)] ∧ pairOk .el d = true ∧ Within s .el e 1 [.g d (BitVec.ofNat 64 (s.frcSample .el)), .g (d + 1) (BitVec.ofNat 64 (s.frcSample .el / 2 ^ 64))] ∧ cntOk l .el core k = true ∧ Within s .el e 2 [.g d (BitVec.ofNat 64 (s.cntRead .el core.toNat k.toNat))] ∧ sel.val ≠ 3 ∧ (Within s .el e 4 [.g d (match sel.val with | 0 => (s.fa fa).fp | 1 => BitVec.ofNat 64 (s.fa fa).blocks | _ => BitVec.ofNat 64 (s.fa fa).mism)]) ∧ purposeOk purpose = true ∧ Within s .el e 5 [.g d quad.wordA, .g (d + 1) quad.wordB] ∧ n.val < l.streams ∧ Within s .el e 5 [.g d (s.cursor n), .g (d + 1) (BitVec.ofNat 64 (s.streamPos n))] ∧ Within s .el e 7 [.g d (BitVec.ofNat 64 s.stepCur)] ∧ id.val < 6 ∧ Within s .el e 7 [.g d (BitVec.ofNat 64 (s.identSel id))] ∧ src.val < 6 ∧ Within s .el e 7 [.g d (BitVec.ofNat 64 (s.cntSel src))] ∧ Within s .el e 7 [.flag cf (s.manCheck .el).isNone])
    ∧ (∃ (e : Env) (d : Fin 64) (tb : Fin 4) (s : State), let l := s.el.lic; let tx := s.tbSample .ux tb; trdOk l .ux d tb true = true ∧ Within s .ux e 0 [.g d (BitVec.ofNat 64 (tx / 2 ^ 32))] ∧ trdOk l .ux d tb false = true ∧ Within s .ux e 0 [.g d (hxtSecW tx), .g (d + 1) (hxtNsfW tx)]) :=
  ⟨⟨{ pen := true, pneg := true, pflag := 0, last := true }, 0, 0, 0, 63, 0, 0#8, 0#6, 0, 0, 5, 3, 0#16, 0, (running .el), by simp only [alone_iff, Within, State.memOk, State.guardFree]; and_intros <;> decide +kernel⟩,
   ⟨{ pen := true, pneg := true, pflag := 0, last := true }, 0, 0, (running .ux), by simp only [alone_iff, Within, State.memOk, State.guardFree]; and_intros <;> decide +kernel⟩⟩

theorem test_hyps_SeedStreams :
    (∃ (e : Env) (d : Fin 64) (a : Fin 64) (b : Fin 64) (n : Fin 64) (purpose : BitVec 16) (s : State), let g := s.greg .el; let pos := s.gpos b - s.gpos b % 4; let quad := fun i => s.drawQuad purpose.toNat (g a).toNat (pos + i); let here := n.val < s.el.lic.streams; d.val % 8 = 0 ∧ purposeOk purpose = true ∧ Within s .el e 5 (([0, 1, 2, 3] : List Nat).flatMap (fun i => quadActs (d + 2 * i) (quad i))) ∧ here ∧ Within s .el e 5 [.stream n (g a) (s.gpos b)])
    ∧ (∃ (e : Env) (d : Fin 64) (n : Fin 64) (purpose : BitVec 16) (s : State), let here := n.val < s.el.lic.streams; pairOk .el d = true ∧ here ∧ purposeOk purpose = true ∧ s.curSample n = none ∧ Within s .el e 5 [.g d 0, .g (d + 1) 0, .seedLog n 0x4021])
    ∧ (∃ (e : Env) (d : Fin 64) (n : Fin 64) (s : State), let here := n.val < s.el.lic.streams; let c := s.cursor n + 1; let idx : Word := match s.streamIndex n c.toNat with | some l => BitVec.ofNat 64 l | none => 0xFFFFFFFFFFFFFFFF; here ∧ Within s .el e 5 [.stream n c 0, .g d idx])
    ∧ (∃ (e : Env) (d : Fin 64) (n : Fin 64) (purpose : BitVec 16) (s : State), let here := n.val < s.el.lic.streams; pairOk .el d = true ∧ here ∧ purposeOk purpose = true ∧ (∃ l, s.curSample n = some l ∧ (let q := s.drawQuad purpose.toNat l (s.streamPos n); s.streamPos n ≠ 2 ^ 24 - 1 ∧ Within s .el e 5 (quadActs d q ++ [.streamPos n (s.streamPos n + 1)]))))
    ∧ (∃ (e : Env) (d : Fin 64) (n : Fin 64) (purpose : BitVec 16) (s : State), let here := n.val < s.el.lic.streams; pairOk .el d = true ∧ here ∧ purposeOk purpose = true ∧ (∃ l, s.curSample n = some l ∧ (s.streamPos n = 2 ^ 24 - 1 ∧ Within s .el e 5 [.g d 0, .g (d + 1) 0, .seedLog n 0x4020]))) :=
  ⟨⟨{ pen := true, pneg := true, pflag := 0, last := true }, 0, 0, 0, 0, 0#16, (running .el), by simp only [alone_iff, Within, State.memOk, State.guardFree]; and_intros <;> decide +kernel⟩,
   ⟨{ pen := true, pneg := true, pflag := 0, last := true }, 0, 0, 0#16, (running .el), by simp only [alone_iff, Within, State.memOk, State.guardFree]; and_intros <;> decide +kernel⟩,
   ⟨{ pen := true, pneg := true, pflag := 0, last := true }, 0, 0, (running .el), by simp only [alone_iff, Within, State.memOk, State.guardFree]; and_intros <;> decide +kernel⟩,
   ⟨eLast, 0, 0, 0#16, (State.modEl (running .el) (fun e => { e with cur := [(0, 1)] })), by
    dsimp only; refine ⟨by decide +kernel, by decide +kernel, by decide +kernel, 0, by decide +kernel, ?_⟩
    simp only [alone_iff, Within]; and_intros <;> decide +kernel⟩,
   ⟨eLast, 0, 0, 0#16, (State.put (State.modEl (running .el) (fun e => { e with cur := [(0, 1)] })) .el (Reg.SEED_S_CUR_POS 0) (2 ^ 24 - 1)), by
    dsimp only; refine ⟨by decide +kernel, by decide +kernel, by decide +kernel, 0, by decide +kernel, ?_⟩
    simp only [alone_iff, Within]; and_intros <;> decide +kernel⟩⟩

theorem test_hyps_ProgramMemory :
    (∃ (e : Env) (d : Fin 64) (a : Fin 64) (b : Fin 64) (c : Fin 64) (ofs : BitVec 24) (fa : Fin 16) (purpose : BitVec 16) (n : Fin 3) (s : State), let g := s.greg .el; let x := s.spmAddr a ofs; let y := (g a).toNat; let q := s.drawQuad purpose.toNat (g b).toNat (s.gpos c); let bad := s.el.spmBad.contains (x / 8); let w := if bad then 0 else s.spmRaw x; s.spmOk x 8 = true ∧ Within s .el e 4 [.spm 4 x [(s.fa fa).fp]] ∧ Within s .el e 6 [.spm 6 x [g b]] ∧ bad = false ∧ n = 0 ∧ Within s .el e 6 [.load x, .replay x n, .g d w] ∧ s.spmOk y 16 = true ∧ purposeOk purpose = true ∧ Within s .el e 5 [.spm 5 y [q.wordA, q.wordB]])
    ∧ (∃ (e : Env) (d : Fin 64) (a : Fin 64) (ofs : BitVec 24) (n : Fin 3) (s : State), let x := s.spmAddr a ofs; let bad := s.el.spmBad.contains (x / 8); let w := if bad then 0 else s.spmRaw x; s.spmOk x 8 = true ∧ bad = false ∧ n ≠ 0 ∧ Within s .el e 6 [.load x, .replay x n, .g d w])
    ∧ (∃ (e : Env) (a : Fin 64) (ofs : BitVec 24) (s : State), let x := s.spmAddr a ofs; s.spmOk x 8 = false ∧ Alone s .el e 4 [.fault 0x8088 (rangeDetail 4 x)] ∧ Alone s .el e 6 [.fault 0x8088 (rangeDetail 6 x)])
    ∧ (∃ (e : Env) (d : Fin 64) (a : Fin 64) (ofs : BitVec 24) (n : Fin 3) (s : State), let x := s.spmAddr a ofs; let bad := s.el.spmBad.contains (x / 8); let w := if bad then 0 else s.spmRaw x; s.spmOk x 8 = true ∧ bad = true ∧ Within s .el e 6 [.load x, .replay x n, .g d w])
    ∧ (∃ (e : Env) (a : Fin 64) (purpose : BitVec 16) (s : State), let g := s.greg .el; let y := (g a).toNat; s.spmOk y 16 = false ∧ purposeOk purpose = true ∧ Alone s .el e 5 [.fault 0x8088 (rangeDetail 5 y)]) :=
  ⟨⟨eLast, 0, 0, 0, 0, 0#24, 0, 0#16, 0, (running .el), by simp only [alone_iff, Within, State.memOk, State.guardFree]; and_intros <;> decide +kernel⟩,
   ⟨eLast, 0, 0, 0#24, 1, (running .el), by simp only [alone_iff, Within, State.memOk, State.guardFree]; and_intros <;> decide +kernel⟩,
   ⟨{ pen := true, pneg := true, pflag := 0, last := true }, 0, 1#24, (State.modSeq (State.put State.reset .el Reg.SEQ_STAT_STATE 3) .el (fun q => { q with bundles := 1 })), by simp only [alone_iff, Within, State.memOk, State.guardFree]; and_intros <;> decide +kernel⟩,
   ⟨eLast, 0, 0, 8#24, 0, (State.modEl (running .el) (fun e => { e with spmBad := [ 1] })), by simp only [alone_iff, Within, State.memOk, State.guardFree]; and_intros <;> decide +kernel⟩,
   ⟨{ pen := true, pneg := true, pflag := 0, last := true }, 0, 0#16, (State.modSeq (State.modSeq (State.put State.reset .el Reg.SEQ_STAT_STATE 3) .el (fun q => { q with bundles := 1 })) .el (fun q => { q with g := (List.range 1).map (fun i => (i, 1#64)) })), by simp only [alone_iff, Within, State.memOk, State.guardFree]; and_intros <;> decide +kernel⟩⟩

theorem test_hyps_ProgramMemory_b : ∃ (x : Nat) (c : Nat) (s : State), s.flips x = false ∧ s.memOk ∧ (c < x - x % 8 ∨ x - x % 8 + 8 ≤ c) :=
  ⟨0, 8, State.reset, by simp only [alone_iff, Within, State.memOk, State.guardFree]; and_intros <;> decide +kernel⟩

theorem test_hyps_UnitOperations :
    (∃ (e : Env) (i : Fin 4) (tb : Fin 4) (rel : Bool) (a : Fin 64) (cf : Fin 8) (ns : BitVec 32) (lid : BitVec 8) (core : BitVec 8) (k : BitVec 6) (gmask : BitVec 16) (amt : BitVec 16) (tag : BitVec 16) (widx : BitVec 12) (fa : Fin 16) (ch : Fin 16) (mask : BitVec 7) (s : State), let g := s.greg .el; let l := s.el.lic; let t := if rel then hxtAdd (s.seq .el).tStep (hxtNs ns.toNat) else s.gpair .el a; tb.val < l.tbCount ∧ (if rel then tb = 0 else a.val % 2 = 0) ∧ (rel = true ∨ nsOk (g (a + 1)) = true) ∧ Within s .el e 1 [.pulse i tb t, .flag cf (s.parm i tb t).2] ∧ Within s .el e 1 [.larm lid.toNat gmask.toNat] ∧ cntOk l .el core k = true ∧ amt ≠ 0 ∧ (s.incRaw [(cntKey core.toNat k.toNat, amt.toNat)]).2 = false ∧ Within s .el e 2 [.inc core.toNat k.toNat amt.toNat] ∧ widx.toNat < l.watches ∧ Within s .el e 2 [.wclr widx.toNat] ∧ Within s .el e 4 [.fclr fa] ∧ ch.val < l.dmaCh ∧ Within s .el e 6 [.abort ch] ∧ s.isSt .el (g a).toNat = false ∧ Within s .el e 7 [.flag cf false] ∧ (rel = true ∨ a.val % 2 = 0) ∧ Within s .el e 7 [.commit t, .flag cf (s.manArm .el t).2] ∧ Within s .el e 7 [.log 0x08 0x9088 tag.toNat (g a).toNat] ∧ Within s .el e 7 [.kick mask.toNat] ∧ Alone s .el e 7 [.fault 0x8087 (g a).toNat])
    ∧ (∃ (e : Env) (a : Fin 64) (core : BitVec 8) (k : BitVec 6) (s : State), let g := s.greg .el; let l := s.el.lic; let n := min (g a).toNat cntTop; cntOk l .el core k = true ∧ n = 0 ∧ Within s .el e 2 [])
    ∧ (∃ (e : Env) (eq : Bool) (a : Fin 64) (eng : Fin 8) (core : BitVec 8) (k : BitVec 6) (widx : BitVec 12) (s : State), let g := s.greg .el; let l := s.el.lic; cntOk l .el core k = true ∧ eng.val < l.engPerCore ∧ widx.toNat < l.watches ∧ Within s .el e 2 [.wreg core.toNat k.toNat (g a).toNat eq eng widx.toNat])
    ∧ (∃ (e : Env) (a : Fin 64) (b : Fin 64) (cf : Fin 8) (core : BitVec 8) (k : BitVec 6) (s : State), let g := s.greg .el; let l := s.el.lic; let n := min (g a).toNat cntTop; cntOk l .el core k = true ∧ n ≠ 0 ∧ (s.incRaw [(cntKey core.toNat k.toNat, n)]).2 = false ∧ Within s .el e 2 [.inc core.toNat k.toNat n] ∧ s.isSt .el (g a).toNat = true ∧ Within s .el e 7 [.stage (g a).toNat (g b), .flag cf (s.stage .el (g a).toNat (g b)).2])
    ∧ (∃ (e : Env) (i : Fin 4) (tb : Fin 4) (rel : Bool) (a : Fin 64) (cf : Fin 8) (s : State), let g := s.greg .el; let l := s.el.lic; tb.val < l.tbCount ∧ (if rel then tb = 0 else a.val % 2 = 0) ∧ rel = false ∧ nsOk (g (a + 1)) = false ∧ Within s .el e 1 [.log 0x02 0x1008 (0x100 + i.val) (Reg.PULSE_START_NSF_NS i).off, .flag cf false]) :=
  ⟨⟨{ pen := true, pneg := true, pflag := 0, last := true }, 0, 3, false, 0, 0, 0#32, 0#8, 0#8, 0#6, 0#16, 1#16, 0#16, 0xfff#12, 0, 12, 0#7, (running .el), by simp only [alone_iff, Within, State.memOk, State.guardFree]; and_intros <;> decide +kernel⟩,
   ⟨{ pen := true, pneg := true, pflag := 0, last := true }, 0, 0#8, 0#6, (running .el), by simp only [alone_iff, Within, State.memOk, State.guardFree]; and_intros <;> decide +kernel⟩,
   ⟨{ pen := true, pneg := true, pflag := 0, last := true }, false, 0, 3, 0#8, 0#6, 0xfff#12, (running .el), by simp only [alone_iff, Within, State.memOk, State.guardFree]; and_intros <;> decide +kernel⟩,
   ⟨eLast, 1, 0, 0, 0#8, 0#6, (State.setGreg (running .el) .el 1 0x2010), by simp only [alone_iff, Within, State.memOk, State.guardFree]; and_intros <;> decide +kernel⟩,
   ⟨eLast, 0, 3, false, 2, 0, (State.setGreg (running .el) .el 3 0xFFFFFFFFFFFF0000), by simp only [alone_iff, Within, State.memOk, State.guardFree]; and_intros <;> decide +kernel⟩⟩

theorem test_hyps_QueuedIssue_part1 :
    (∃ (e : Env) (q : QDest) (a : Fin 64) (rel : Bool) (start : Bool) (lid : BitVec 8) (bid : BitVec 8) (gmask : BitVec 16) (scope : Fin 4) (t : TArgs) (m : KArgs) (fa : Fin 16) (fb : Fin 16) (s : State), let g := fun r => (s.greg .el r).toNat; destOk s.el.lic .el q = true ∧ lreqOk .el a rel start gmask = true ∧ (Within s .el e 1 [.queue .barrier (.lreq { lid := lid, t := (if rel then hxtAdd (s.seq .el).tStep (hxtNs (g a)) else s.gpair .el a), gmask := gmask, start := start, lsi := BitVec.ofNat 20 s.lsi, ident := 0 }) q.core.toNat q.k.toNat (q.amt.toNat + 1) 1]) ∧ Within s .el e 2 [.queue .barrier (.arrive bid scope) q.core.toNat q.k.toNat (q.amt.toNat + 1) 1] ∧ Within s .el e 2 [.queue .barrier (.bar bid scope) q.core.toNat q.k.toNat (q.amt.toNat + 1) 1] ∧ (g a = 0 ∨ 16384 < g a) ∧ Within s .el e 3 [.refuse .red 6] ∧ m.fa = 0 ∧ m.kind = 0 ∧ Within s .el e 4 [.queue .chk (.bcvg (g m.ga) (g m.gb) (g m.gn) (g m.gt % 2 ^ 32)) q.core.toNat q.k.toNat (q.amt.toNat + 1) 1] ∧ Within s .el e 4 [.queue .chk (.fpcmp fa fb) q.core.toNat q.k.toNat (q.amt.toNat + 1) 1])
    ∧ (∃ (e : Env) (q : QDest) (a : Fin 64) (b : Fin 64) (rcore : BitVec 8) (rk : BitVec 6) (ramt : BitVec 4) (rid : BitVec 12) (t : TArgs) (m : KArgs) (fa : Fin 16) (s : State), let g := fun r => (s.greg .el r).toNat; destOk s.el.lic .el q = true ∧ Within s .el e 2 [.queue .barrier (.ann (BitVec.ofNat 20 (g a)) { src := BitVec.ofNat 20 s.lsi, step := BitVec.ofNat 64 s.stepCur, bytes := BitVec.ofNat 48 (g b), rcore := rcore, rk := rk, ramt := ramt, ident := 0 }) q.core.toNat q.k.toNat (q.amt.toNat + 1) 1] ∧ scaleOk t = true ∧ (g t.gn = 0 ∨ 256 < g t.gn) ∧ Within s .el e 3 [.refuse .red 1] ∧ m.fa = 0 ∧ m.kind = 0 ∧ Within s .el e 4 [.queue .chk (.bcvv (g m.ga) (g m.gb) (g m.gn) (g m.gt % 2 ^ 32)) q.core.toNat q.k.toNat (q.amt.toNat + 1) 1] ∧ Within s .el e 4 [.queue .chk (.xchk rid.toNat fa none) q.core.toNat q.k.toNat (q.amt.toNat + 1) 1])
    ∧ (∃ (e : Env) (q : QDest) (a : Fin 64) (t : TArgs) (m : KArgs) (fa : Fin 16) (s : State), let g := fun r => (s.greg .el r).toNat; destOk s.el.lic .el q = true ∧ tconvOk t = true ∧ (g t.gn = 0 ∨ 256 < g t.gn) ∧ Within s .el e 3 [.refuse .red 2] ∧ (g a = 0 ∨ 16384 < g a) ∧ Within s .el e 3 [.refuse .red 7] ∧ m.ga = 0 ∧ m.kind = 0 ∧ Within s .el e 4 [.queue .chk (.fpa (g m.gb) (g m.gn) (g m.gt % 2 ^ 32) m.fa) q.core.toNat q.k.toNat (q.amt.toNat + 1) 1] ∧ Within s .el e 4 [.queue .ledger (.sealq (s.greg .el a)) q.core.toNat q.k.toNat (q.amt.toNat + 1) 1] ∧ Within s .el e 4 [.queue .ledger (.lstag fa) q.core.toNat q.k.toNat (q.amt.toNat + 1) 1])
    ∧ (∃ (e : Env) (q : QDest) (a : Fin 64) (kind : BitVec 4) (t : TArgs) (fa : Fin 16) (ch : Fin 16) (s : State), let g := fun r => (s.greg .el r).toNat; destOk s.el.lic .el q = true ∧ taddOk t = true ∧ (g t.gn = 0 ∨ 256 < g t.gn) ∧ Within s .el e 3 [.refuse .red 3] ∧ kind.toNat ≤ 4 ∧ Within s .el e 4 [.queue .ledger (.lemit (g a % 2 ^ 32 / 2 ^ 20) fa kind.toNat) q.core.toNat q.k.toNat (q.amt.toNat + 1) 1] ∧ ch.val < s.el.lic.dmaCh ∧ Within s .el e 6 [.queue .move (.dmago ch (g a)) q.core.toNat q.k.toNat (q.amt.toNat + 1) 1])
    ∧ (∃ (e : Env) (q : QDest) (a : Fin 64) (t : TArgs) (s : State), let g := fun r => (s.greg .el r).toNat; destOk s.el.lic .el q = true ∧ tfinOk t = true ∧ (g t.gn = 0 ∨ 256 < g t.gn) ∧ Within s .el e 3 [.refuse .red 4] ∧ Within s .el e 4 [.queue .ledger (.sealv (s.greg .el a)) q.core.toNat q.k.toNat (q.amt.toNat + 1) 1])
    ∧ (∃ (e : Env) (q : QDest) (t : TArgs) (s : State), let g := fun r => (s.greg .el r).toNat; destOk s.el.lic .el q = true ∧ psumOk t = true ∧ (g t.gn = 0 ∨ 256 < g t.gn) ∧ Within s .el e 3 [.refuse .red 5])
    ∧ (∃ (e : Env) (q : QDest) (a : Fin 64) (b : Fin 64) (rid : BitVec 12) (t : TArgs) (min : Bool) (s : State), let g := fun r => (s.greg .el r).toNat; destOk s.el.lic .el q = true ∧ tconvOk t = true ∧ 1 ≤ g t.gn ∧ g t.gn ≤ 256 ∧ Within s .el e 3 [.queue .red (.tal 2 (g t.ga) (g t.gb) (g t.gn) (g t.ge) t.fmt.toNat t.cls t.mx) q.core.toNat q.k.toNat (q.amt.toNat + 1) (g t.gn)] ∧ taddOk t = true ∧ Within s .el e 3 [.queue .red (.tal 3 (g t.ga) (g t.gb) (g t.gn) (g t.ge) t.fmt.toNat t.cls t.mx) q.core.toNat q.k.toNat (q.amt.toNat + 1) (g t.gn)] ∧ tfinOk t = true ∧ Within s .el e 3 [.queue .red (.tal 4 (g t.ga) (g t.gb) (g t.gn) (g t.ge) t.fmt.toNat t.cls t.mx) q.core.toNat q.k.toNat (q.amt.toNat + 1) (g t.gn)] ∧ 1 ≤ g a ∧ g a ≤ 16384 ∧ Within s .el e 3 [.queue .red (.spass rid.toNat (g a) (g b) min) q.core.toNat q.k.toNat (q.amt.toNat + 1) ((g a + 63) / 64)])
    ∧ (∃ (e : Env) (q : QDest) (a : Fin 64) (b : Fin 64) (rid : BitVec 12) (s : State), let g := fun r => (s.greg .el r).toNat; destOk s.el.lic .el q = true ∧ 1 ≤ g a ∧ g a ≤ 16384 ∧ Within s .el e 3 [.queue .red (.ssum rid.toNat (g a) (g b)) q.core.toNat q.k.toNat (q.amt.toNat + 1) ((g a + 63) / 64)]) :=
  ⟨⟨{ pen := true, pneg := true, pflag := 0, last := true }, { core := 0#8, k := 0#6, amt := 0#4 }, 0, false, false, 0#8, 0#8, 1#16, 0, { ga := 0, gb := 0, gn := 0, ge := 0, fmt := 0#4, cls := 0, mx := false }, { ga := 0, gb := 0, gn := 0, gt := 0, fa := 0, kind := 0#4 }, 0, 0, (running .el), by simp only [alone_iff, Within, State.memOk, State.guardFree]; and_intros <;> decide +kernel⟩,
   ⟨{ pen := true, pneg := true, pflag := 0, last := true }, { core := 0#8, k := 0#6, amt := 0#4 }, 0, 0, 0#8, 0#6, 0#4, 0#12, { ga := 0, gb := 0, gn := 0, ge := 0, fmt := 0#4, cls := 0, mx := false }, { ga := 0, gb := 0, gn := 0, gt := 0, fa := 0, kind := 0#4 }, 0, (running .el), by simp only [alone_iff, Within, State.memOk, State.guardFree]; and_intros <;> decide +kernel⟩,
   ⟨{ pen := true, pneg := true, pflag := 0, last := true }, { core := 0#8, k := 0#6, amt := 0#4 }, 0, { ga := 0, gb := 0, gn := 0, ge := 0, fmt := 5#4, cls := 0, mx := false }, { ga := 0, gb := 0, gn := 0, gt := 0, fa := 0, kind := 0#4 }, 0, (running .el), by simp only [alone_iff, Within, State.memOk, State.guardFree]; and_intros <;> decide +kernel⟩,
   ⟨{ pen := true, pneg := true, pflag := 0, last := true }, { core := 0#8, k := 0#6, amt := 0#4 }, 0, 1#4, { ga := 0, gb := 0, gn := 0, ge := 0, fmt := 0#4, cls := 0, mx := false }, 0, 15, (running .el), by simp only [alone_iff, Within, State.memOk, State.guardFree]; and_intros <;> decide +kernel⟩,
   ⟨{ pen := true, pneg := true, pflag := 0, last := true }, { core := 0#8, k := 0#6, amt := 0#4 }, 0, { ga := 0, gb := 0, gn := 0, ge := 0, fmt := 0#4, cls := 0, mx := false }, (running .el), by simp only [alone_iff, Within, State.memOk, State.guardFree]; and_intros <;> decide +kernel⟩,
   ⟨{ pen := true, pneg := true, pflag := 0, last := true }, { core := 0#8, k := 0#6, amt := 0#4 }, { ga := 0, gb := 0, gn := 0, ge := 0, fmt := 0#4, cls := 0, mx := false }, (running .el), by simp only [alone_iff, Within, State.memOk, State.guardFree]; and_intros <;> decide +kernel⟩,
   ⟨eLast, { core := 0#8, k := 0#6, amt := 0#4 }, 0, 0, 0#12, { ga := 0, gb := 0, gn := 0, ge := 0, fmt := 0#4, cls := 1, mx := false }, false, (State.modSeq (running .el) .el (fun q => { q with g := (List.range 1).map (fun i => (i, 1#64)) })), by simp only [alone_iff, Within, State.memOk, State.guardFree]; and_intros <;> decide +kernel⟩,
   ⟨eLast, { core := 0#8, k := 0#6, amt := 0#4 }, 0, 0, 0#12, (State.modSeq (running .el) .el (fun q => { q with g := (List.range 1).map (fun i => (i, 1#64)) })), by simp only [alone_iff, Within, State.memOk, State.guardFree]; and_intros <;> decide +kernel⟩⟩

theorem test_hyps_QueuedIssue_part2 :
    (∃ (e : Env) (q : QDest) (t : TArgs) (s : State), let g := fun r => (s.greg .el r).toNat; destOk s.el.lic .el q = true ∧ scaleOk t = true ∧ 1 ≤ g t.gn ∧ g t.gn ≤ 256 ∧ Within s .el e 3 [.queue .red (.tal 1 (g t.ga) (g t.gb) (g t.gn) (g t.ge) t.fmt.toNat t.cls t.mx) q.core.toNat q.k.toNat (q.amt.toNat + 1) (g t.gn)])
    ∧ (∃ (e : Env) (q : QDest) (t : TArgs) (s : State), let g := fun r => (s.greg .el r).toNat; destOk s.el.lic .el q = true ∧ psumOk t = true ∧ 1 ≤ g t.gn ∧ g t.gn ≤ 256 ∧ Within s .el e 3 [.queue .red (.tal 5 (g t.ga) (g t.gb) (g t.gn) (g t.ge) t.fmt.toNat t.cls t.mx) q.core.toNat q.k.toNat (q.amt.toNat + 1) (g t.gn)]) :=
  ⟨⟨{ pen := true, pneg := true, pflag := 0, last := true }, { core := 0#8, k := 0#6, amt := 0#4 }, { ga := 0, gb := 0, gn := 0, ge := 0, fmt := 0#4, cls := 0, mx := false }, (State.modSeq (running .el) .el (fun q => { q with g := (List.range 1).map (fun i => (i, 1#64)) })), by simp only [alone_iff, Within, State.memOk, State.guardFree]; and_intros <;> decide +kernel⟩,
   ⟨{ pen := true, pneg := true, pflag := 0, last := true }, { core := 0#8, k := 0#6, amt := 0#4 }, { ga := 0, gb := 0, gn := 0, ge := 0, fmt := 0#4, cls := 0, mx := false }, (State.modSeq (State.modSeq (State.modSeq (State.modEl (State.put State.reset .el Reg.SEQ_STAT_STATE 3) (fun e => { e with ports := { e.ports with evtQ := [] } })) .el (fun b => { b with bundles := 5 })) .ux (fun b => { b with bundles := 0 })) .el (fun q => { q with g := (List.range 1).map (fun i => (i, 1#64)) })), by simp only [alone_iff, Within, State.memOk, State.guardFree]; and_intros <;> decide +kernel⟩⟩

theorem test_hyps_QueuedIssue_b : ∃ (e : Env) (q : QDest) (a : Fin 64) (b : Fin 64) (c : Fin 64) (rel : Bool) (start : Bool) (lid : BitVec 8) (bid : BitVec 8) (gmask : BitVec 16) (rid : BitVec 12) (opk : Fin 8) (s : State), let g := fun r => (s.greg .ux r).toNat; destOk s.el.lic .ux q = true ∧ regOk .ux a = true ∧ regOk .ux b = true ∧ regOk .ux c = true ∧ opk.val < 6 ∧ Within s .ux e 1 [.queue .tree (.tslot rid.toNat opk (g a) (g b)) q.core.toNat q.k.toNat (q.amt.toNat + 1) 1] ∧ Within s .ux e 1 [.queue .tree (.tbar bid (g a)) q.core.toNat q.k.toNat (q.amt.toNat + 1) 1] ∧ lreqOk .ux a rel start gmask = true ∧ (Within s .ux e 1 [.queue .tree (.tlreq { lid := lid, t := (if rel then hxtAdd (s.tbNow .ux 0) (hxtNs (g a)) else s.gpair .ux a), gmask := gmask, start := start, lsi := 0, ident := 0 }) q.core.toNat q.k.toNat (q.amt.toNat + 1) 1]) ∧ Within s .ux e 1 [.queue .tree (.tcmpg rid.toNat (g a) (g b)) q.core.toNat q.k.toNat (q.amt.toNat + 1) 1] ∧ Within s .ux e 1 [.queue .tree (.tlock (g a) (g b) (s.greg .ux c)) q.core.toNat q.k.toNat (q.amt.toNat + 1) 1] ∧ Within s .ux e 1 [.queue .tree (.trel rid.toNat) q.core.toNat q.k.toNat (q.amt.toNat + 1) 1] ∧ Within s .ux e 2 [.queue .vault (.vgen (g a) (s.greg .ux b)) q.core.toNat q.k.toNat (q.amt.toNat + 1) 1] ∧ Within s .ux e 2 [.queue .vault (.vseal (s.greg .ux a)) q.core.toNat q.k.toNat (q.amt.toNat + 1) 1] ∧ Within s .ux e 2 [.queue .vault (.vcmp (g a) (s.greg .ux b)) q.core.toNat q.k.toNat (q.amt.toNat + 1) 1] ∧ Within s .ux e 2 [.queue .vault (.vrest (g a) (g b)) q.core.toNat q.k.toNat (q.amt.toNat + 1) 1] ∧ Within s .ux e 2 [.queue .vault (.vdrop (g a)) q.core.toNat q.k.toNat (q.amt.toNat + 1) 1] ∧ Within s .ux e 3 [.queue .ledg (.lseal (s.greg .ux a)) q.core.toNat q.k.toNat (q.amt.toNat + 1) 1] ∧ Within s .ux e 3 [.queue .ledg .lflush q.core.toNat q.k.toNat (q.amt.toNat + 1) 1] ∧ Within s .ux e 3 [.queue .ledg (.larch (s.greg .ux a) (s.greg .ux b)) q.core.toNat q.k.toNat (q.amt.toNat + 1) 1] ∧ Within s .ux e 3 [.queue .ledg (.ltrim (s.greg .ux a)) q.core.toNat q.k.toNat (q.amt.toNat + 1) 1] :=
  ⟨eLast, { core := 0#8, k := 0#6, amt := 0#4 }, 0, 0, 0, false, true, 0#8, 0#8, 0#16, 0#12, 1, (running .ux), by simp only [alone_iff, Within, State.memOk, State.guardFree]; and_intros <;> decide +kernel⟩

theorem test_hyps_QueuedOperations_part1 :
    (∃ (p : Part) (q : QueueId) (o : QOp) (id : Nat) (st : Nat) (s : State), (queuePart q ≠ p ∨ s.queueFree q = false ∨ s.headOp q = none) ∧ s.findOp p id = none ∧ queuePart o.queue = p ∧ s.seqState p ≠ 4 ∧ st < 16 ∧ stAdds st = false)
    ∧ (∃ (p : Part) (o : QOp) (st : Nat) (k : Nat) (s : State), queuePart o.queue = p ∧ s.seqState p ≠ 4 ∧ stAdds st = true ∧ p = .el ∧ (s.seq .el).pairs = [] ∧ s.cntAbs o.key ≤ cntTop ∧ k ≠ o.key)
    ∧ (∃ (p : Part) (o : QOp) (st : Nat) (s : State), queuePart o.queue = p ∧ s.seqState p ≠ 4 ∧ stAdds st = true ∧ p = .el ∧ (s.seq .el).pairs = [] ∧ s.cntAbs o.key ≤ cntTop)
    ∧ (∃ (p : Part) (o : QOp) (st : Nat) (s : State), queuePart o.queue = p ∧ s.seqState p ≠ 4 ∧ stAdds st = true ∧ p = .ux ∧ tget 0 s.ux.tc o.core ≤ cntTop)
    ∧ (∃ (p : Part) (id : Nat) (s : State), ((match s.findOp p id with | some o => (decide (o.started = true)) && ((match o.kind with | .lreq x => true | _ => false)) | _ => false) = true))
    ∧ (∃ (p : Part) (q : QueueId) (r : Option (BitVec 24)) (s : State), queuePart q = p ∧ s.queueFree q = true ∧ ((match s.headOp q with | some o => let m := match queuePort q, r with | some port, some a => if s.el.spmBad.contains (a.toNat / 8) then s.markStarted p o.id else (s.markStarted p o.id).spmReplay port a.toNat o.pc | _, _ => s.markStarted p o.id; (match o.kind with | .sealv step => decide (m.stepCur ≥ step.toNat ∧ isSealedBy (m.reg .el Reg.CHK_SEAL_LAST.off) step = false) | _ => false) | _ => false) = true))
    ∧ (∃ (p : Part) (id : Nat) (s : State), ((match s.findOp p id with | some o => (decide (o.started = true)) && ((match o.kind with | .ann d x => true | _ => false)) | _ => false) = true))
    ∧ (∃ (p : Part) (q : QueueId) (s : State), queuePart q = p ∧ s.queueFree q = true ∧ ((match s.headOp q with | some o => (match o.kind with | .ann d x => true | _ => false) | _ => false) = true)) :=
  ⟨⟨Part.el, QueueId.chk, { id := 0, queue := QueueId.move, kind := QKind.lstag 0, pc := 0, core := 0, k := 0, amt := 0, entries := 0, started := false }, 0, 15, State.reset, by decide +kernel⟩,
   ⟨Part.el, { id := 0, queue := QueueId.move, kind := QKind.lstag 0, pc := 0, core := 0, k := 0, amt := 0, entries := 0, started := false }, 0, 1, State.reset, by decide +kernel⟩,
   ⟨Part.el, { id := 0, queue := QueueId.move, kind := QKind.lstag 0, pc := 0, core := 0, k := 0, amt := 0, entries := 0, started := false }, 0, State.reset, by decide +kernel⟩,
   ⟨Part.ux, { id := 0, queue := QueueId.ledg, kind := QKind.lstag 0, pc := 0, core := 0, k := 0, amt := 0, entries := 0, started := false }, 0, State.reset, by decide +kernel⟩,
   ⟨Part.el, 4, (State.mod State.reset .el (fun b => { b with qops := [({ id := 4, queue := .ledger, kind := .lreq { lid := 0, t := 0, gmask := 0, start := false, lsi := 0, ident := 0 }, pc := 0, core := 0, k := 0, amt := 0, entries := 0, started := true } : QOp)] })), by decide +kernel⟩,
   ⟨Part.el, QueueId.ledger, none, (State.mod State.reset .el (fun b => { b with qops := [({ id := 0, queue := .ledger, kind := .sealv 0, pc := 0, core := 0, k := 0, amt := 0, entries := 0, started := false } : QOp)] })), by dsimp only; decide +kernel⟩,
   ⟨Part.el, 5, (State.mod State.reset .el (fun b => { b with qops := [{ id := 5, queue := QueueId.move, kind := QKind.ann 0#20 { src := 0#20, step := 0#64, bytes := 0#48, rcore := 0#8, rk := 0#6, ramt := 0#4, ident := 0 }, pc := 0, core := 0, k := 0, amt := 0, entries := 0, started := true }] })), by decide +kernel⟩,
   ⟨Part.el, QueueId.ledger, (State.mod State.reset .el (fun b => { b with qops := [({ id := 0, queue := .ledger, kind := .ann 0 { src := 0, step := 0, bytes := 0, rcore := 0, rk := 0, ramt := 0, ident := 0 }, pc := 0, core := 0, k := 0, amt := 0, entries := 0, started := false } : QOp)] })), by decide +kernel⟩⟩

theorem test_hyps_QueuedOperations_part2 :
    (∃ (p : Part) (id : Nat) (s : State), ((match s.findOp p id with | some o => (decide (o.started = true)) && ((match o.kind with | .tlock a b step => decide (s.lockPaired a b = true) | _ => false)) | _ => false) = true))
    ∧ (∃ (p : Part) (id : Nat) (s : State), ((match s.findOp p id with | some o => (decide (o.started = true)) && ((match o.kind with | .lemit t f k => true | _ => false)) | _ => false) = true))
    ∧ (∃ (p : Part) (q : QueueId) (id : Nat) (s : State), queuePart q = p ∧ s.queueFree q = true ∧ ((match s.headOp q with | some o => (match o.kind with | .lreq x => true | _ => false) | _ => false) = true) ∧ ((match s.findOp p id with | some o => decide (o.started = false) | _ => false) = true))
    ∧ (∃ (p : Part) (id : Nat) (s : State), ((match s.findOp p id with | some o => (decide (o.started = true)) && ((match o.kind with | .lstag f => true | _ => false)) | _ => false) = true))
    ∧ (∃ (p : Part) (id : Nat) (s : State), ((match s.findOp p id with | some o => (decide (o.started = true)) && ((match o.kind with | .spass a n d x => true | _ => false)) | _ => false) = true))
    ∧ (∃ (p : Part) (id : Nat) (s : State), ((match s.findOp p id with | some o => (decide (o.started = true)) && ((match o.kind with | .tlock a b step => decide (s.lockPaired a b = false) | _ => false)) | _ => false) = true))
    ∧ (∃ (p : Part) (q : QueueId) (s : State), queuePart q = p ∧ s.queueFree q = true ∧ ((match s.headOp q with | some o => (match o.kind with | .tal op a b n e f c x => true | _ => false) | _ => false) = true))
    ∧ (∃ (p : Part) (id : Nat) (s : State), ((match s.findOp p id with | some o => (decide (o.started = true)) && ((match o.kind with | .ssum a n d => true | _ => false)) | _ => false) = true)) :=
  ⟨⟨Part.ux, 4, (State.put (State.put (State.mod State.reset .ux (fun b => { b with qops := [({ id := 4, queue := .tree, kind := .tlock 0 1 0, pc := 0, core := 0, k := 0, amt := 0, entries := 0, started := true } : QOp)] })) .ux Reg.UX_LOCK_CTRL_EN 1) .ux Reg.UX_LOCK_CTRL_SHD 1), by decide +kernel⟩,
   ⟨Part.ux, 0, (State.mod State.reset .ux (fun b => { b with qops := [{ id := 0, queue := QueueId.ledg, kind := QKind.lemit 0 0 0, pc := 0, core := 0, k := 0, amt := 0, entries := 0, started := true }] })), by decide +kernel⟩,
   ⟨Part.ux, QueueId.vault, 0, (State.mod State.reset .ux (fun b => { b with qops := [{ id := 0, queue := QueueId.vault, kind := QKind.lreq { lid := 1#8, t := 4294967296000000010, gmask := 0#16, start := true, lsi := 0#20, ident := 0 }, pc := 3, core := 0, k := 4493, amt := 6, entries := 100, started := false }, { id := 0, queue := QueueId.ledger, kind := QKind.lflush, pc := 32, core := 4096, k := 188, amt := 131072, entries := 1, started := false }] })), by decide +kernel⟩,
   ⟨Part.el, 0, (State.mod State.reset .el (fun b => { b with qops := [ { id := 0, queue := QueueId.tree, kind := QKind.lstag 0, pc := 0, core := 0, k := 0, amt := 0, entries := 0, started := true }] })), by decide +kernel⟩,
   ⟨Part.ux, 0, (State.mod State.reset .ux (fun b => { b with qops := [{ id := 0, queue := QueueId.chk, kind := QKind.spass 0 0 0 false, pc := 0, core := 0, k := 0, amt := 0, entries := 0, started := true }] })), by decide +kernel⟩,
   ⟨Part.el, 1, (State.mod State.reset .el (fun b => { b with qops := [{ id := 1, queue := QueueId.chk, kind := QKind.tlock 0 0 0#64, pc := 0, core := 0, k := 0, amt := 0, entries := 0, started := true }] })), by decide +kernel⟩,
   ⟨Part.ux, QueueId.ledg, (State.mod State.reset .ux (fun b => { b with qops := [{ id := 0, queue := QueueId.ledg, kind := QKind.tal 0 0 0 0 0 0 0 false, pc := 0, core := 0, k := 0, amt := 0, entries := 0, started := false }] })), by decide +kernel⟩,
   ⟨Part.el, 3, (State.mod State.reset .el (fun b => { b with qops := [ { id := 3, queue := QueueId.chk, kind := QKind.ssum 0 0 0, pc := 0, core := 0, k := 0, amt := 0, entries := 0, started := true }] })), by decide +kernel⟩⟩

theorem test_hyps_QueuedOperations_part3 :
    (∃ (p : Part) (q : QueueId) (s : State), queuePart q = p ∧ s.queueFree q = true ∧ ((match s.headOp q with | some o => (match o.kind with | .bcvg a b n t => true | _ => false) | _ => false) = true))
    ∧ (∃ (p : Part) (q : QueueId) (s : State), queuePart q = p ∧ s.queueFree q = true ∧ ((match s.headOp q with | some o => (match o.kind with | .bcvv a b n t => true | _ => false) | _ => false) = true))
    ∧ (∃ (p : Part) (q : QueueId) (r : Option (BitVec 24)) (s : State), queuePart q = p ∧ s.queueFree q = true ∧ ((match s.headOp q with | some o => let m := match queuePort q, r with | some port, some a => if s.el.spmBad.contains (a.toNat / 8) then s.markStarted p o.id else (s.markStarted p o.id).spmReplay port a.toNat o.pc | _, _ => s.markStarted p o.id; (match o.kind with | .dmago ch n => decide (1 ≤ n ∧ n ≤ 65535 ∧ m.get .el (Reg.DMA_STAT_STATE ch) = 0) | _ => false) | _ => false) = true))
    ∧ (∃ (p : Part) (id : Nat) (s : State), ((match s.findOp p id with | some o => decide (o.started = true ∧ o.kind = .lflush) | _ => false) = true)) :=
  ⟨⟨Part.el, QueueId.chk, (State.mod State.reset .el (fun b => { b with qops := [{ id := 0, queue := QueueId.chk, kind := QKind.bcvg 0 0 0 0, pc := 0, core := 0, k := 0, amt := 0, entries := 0, started := false }] })), by decide +kernel⟩,
   ⟨Part.el, QueueId.red, (State.mod State.reset .el (fun b => { b with qops := [ { id := 0, queue := QueueId.red, kind := QKind.bcvv 0 0 0 0, pc := 0, core := 0, k := 0, amt := 0, entries := 0, started := false }] })), by decide +kernel⟩,
   ⟨Part.ux, QueueId.tree, none, (State.mod State.reset .ux (fun b => { b with qops := [{ id := 0, queue := QueueId.red, kind := QKind.fpcmp 6 53, pc := 1000, core := 31, k := 7, amt := 131072, entries := 16, started := false }, { id := 0, queue := QueueId.tree, kind := QKind.dmago 4781 1, pc := 1, core := 0, k := 150, amt := 131072, entries := 0, started := false }, { id := 1, queue := QueueId.red, kind := QKind.lstag 16, pc := 1, core := 109, k := 1, amt := 131072, entries := 2, started := false }] })), by dsimp only; decide +kernel⟩,
   ⟨Part.ux, 0, (State.mod State.reset .ux (fun b => { b with qops := [{ id := 131072, queue := QueueId.move, kind := QKind.lreq { lid := 0#8, t := 274877906944, gmask := 1#16, start := true, lsi := 7#20, ident := 0 }, pc := 140, core := 4325, k := 2973, amt := 0, entries := 65536, started := true }, { id := 0, queue := QueueId.chk, kind := QKind.lflush, pc := 5, core := 1150, k := 264, amt := 37, entries := 79, started := true }] })), by decide +kernel⟩⟩

theorem test_hyps_ImagesAndStarts :
    (∃ (p : Part) (s : State), let free := p = .ux ∨ s.get .el (Reg.DMA_STAT_STATE 0) = 0; s.manState p ≠ 2 ∧ (s.seqState p = 0 ∨ s.seqState p = 2) ∧ free ∧ s.seqState p ≠ 1 ∧ s.seqState p ≠ 2 ∧ s.seqState p ≠ 5 ∧ s.seqState p ≠ 3)
    ∧ (∃ (p : Part) (s : State), let free := p = .ux ∨ s.get .el (Reg.DMA_STAT_STATE 0) = 0; s.manState p ≠ 2 ∧ ((s.seqState p ≠ 0 ∧ s.seqState p ≠ 2) ∨ ¬ free) ∧ s.seqState p = 3 ∧ p = .ux)
    ∧ (∃ (p : Part) (s : State), s.manState p = 2)
    ∧ (∃ (p : Part) (s : State), s.manState p ≠ 2 ∧ (s.seqState p = 2 ∨ s.seqState p = 5))
    ∧ (∃ (p : Part) (ok : Bool) (s : State), let img := s.loadImage p; let cause := if ok then s.imgCause img p else 14; s.seqState p = 1 ∧ cause ≠ 0)
    ∧ (∃ (p : Part) (s : State), s.seqState p = 3 ∧ p = .el)
    ∧ (∃ (p : Part) (ok : Bool) (s : State), let img := s.loadImage p; let cause := if ok then s.imgCause img p else 14; s.seqState p = 1 ∧ cause = 0) :=
  ⟨⟨Part.ux, State.reset, by dsimp only; decide +kernel⟩,
   ⟨Part.ux, (State.put State.reset .ux Reg.SEQ_STAT_STATE 3), by dsimp only; decide +kernel⟩,
   ⟨Part.el, (State.put State.reset .el Reg.MAN_STAT_STATE 2), by decide +kernel⟩,
   ⟨Part.ux, (State.put State.reset .ux Reg.SEQ_STAT_STATE 5), by decide +kernel⟩,
   ⟨Part.el, false, (State.put State.reset .el Reg.SEQ_STAT_STATE 1), by dsimp only; decide +kernel⟩,
   ⟨Part.el, (State.put State.reset .el Reg.SEQ_STAT_STATE 3), by decide +kernel⟩,
   ⟨Part.ux, true, (State.mod (State.put (State.put (State.put State.reset .ux Reg.SEQ_STAT_STATE 1) .ux Reg.SEC_KUSE_USE 1) .ux Reg.SEQ_LOAD_LEN_LEN 392) .ux (fun b => { b with secBytes := memOf 0xC400 wKey, mem := memOf 0 wImage })), by dsimp only; decide +kernel⟩⟩

theorem test_hyps_ImagesAndStarts_b :
    (∃ (s : State), s.runMode ≠ 1 ∧ s.runMode ≠ 2 ∧ s.seqState .ux ≠ 2)
    ∧ (∃ (s : State), s.seqState .ux = 2)
    ∧ (∃ (s : State), (s.runMode = 1 ∨ s.runMode = 2) ∧ (s.guardActive .el = true ∨ s.bit .el Reg.HC_STAT_ROLLBACK = true ∨ s.bit .el Reg.SEQ_RUNCFG_LSI_VALID = false ∨ s.get .el Reg.HC_STAT_STATE = 6))
    ∧ (∃ (s : State), let st := s.seqState .el; (s.runMode = 1 ∨ s.runMode = 2) ∧ s.guardActive .el = false ∧ s.bit .el Reg.HC_STAT_ROLLBACK = false ∧ s.bit .el Reg.SEQ_RUNCFG_LSI_VALID = true ∧ s.get .el Reg.HC_STAT_STATE ≠ 6 ∧ (st = 0 ∨ st = 1 ∨ st = 5))
    ∧ (∃ (s : State), let st := s.seqState .el; (s.runMode = 1 ∨ s.runMode = 2) ∧ s.guardActive .el = false ∧ s.bit .el Reg.HC_STAT_ROLLBACK = false ∧ s.bit .el Reg.SEQ_RUNCFG_LSI_VALID = true ∧ s.get .el Reg.HC_STAT_STATE ≠ 6 ∧ ((st = 2 ∧ s.testRunning .el = true) ∨ st = 3 ∨ st = 4))
    ∧ (∃ (s : State), let st := s.seqState .el; (s.runMode = 1 ∨ s.runMode = 2) ∧ s.guardActive .el = false ∧ s.bit .el Reg.HC_STAT_ROLLBACK = false ∧ s.bit .el Reg.SEQ_RUNCFG_LSI_VALID = true ∧ s.get .el Reg.HC_STAT_STATE ≠ 6 ∧ st = 2 ∧ s.testRunning .el = false) :=
  ⟨⟨State.reset, by decide +kernel⟩,
   ⟨(State.put State.reset .ux Reg.SEQ_STAT_STATE 2), by decide +kernel⟩,
   ⟨(State.put State.reset .el Reg.SEQ_RUNCFG_MODE 1), by decide +kernel⟩,
   ⟨(State.put (State.put State.reset .el Reg.SEQ_RUNCFG_LSI_VALID 1) .el Reg.SEQ_RUNCFG_MODE 1), by dsimp only; decide +kernel⟩,
   ⟨(State.put (State.put (State.put (State.put (State.put (State.modEl (State.setGreg (State.put State.reset .el Reg.SEQ_STAT_STATE 3) .ux 3 1#64) (fun e => { e with spm := [] })) .ux Reg.SEQ_RUNCFG_LSI_VALID 1) .el Reg.HC_STAT_STATE 1) .el Reg.SEQ_RUNCFG_MODE 0) .el Reg.SEQ_RUNCFG_MODE 1) .el Reg.SEQ_RUNCFG_LSI_VALID 1), by dsimp only; decide +kernel⟩,
   ⟨(State.modSeq (State.put (State.put (State.put (State.put (State.put (State.put (State.modEl (State.put State.reset .el Reg.SEQ_STAT_STATE 2) (fun e => { e with spm := [] })) .el Reg.HC_STAT_STATE 4) .el Reg.SEQ_RUNCFG_LSI_VALID 1) .ux Reg.GUARD_STAT_ACTIVE 1) .ux Reg.GUARD_STAT_ACTIVE 0) .el Reg.TEST_STSTAT_STATE 1) .el Reg.SEQ_RUNCFG_MODE 1) .el (fun q => { q with g := (List.range 64).map (fun i => (i, 1#64)) })), by dsimp only; decide +kernel⟩⟩

theorem test_hyps_Increments_part1 :
    (∃ (c : BitVec 8) (core : BitVec 8) (eng : Fin 8) (i : Nat) (n : Nat) (s : State), let here := s.csHere c.toNat eng; let x := s.cntAbs i; x ≤ cntTop ∧ x + n ≤ cntTop ∧ (s.seq .el).pairs = [] ∧ here = true ∧ core ≠ c ∧ (s.waiters = 0 ∨ s.el.dldLogged = true) ∧ n ≠ 0)
    ∧ (∃ (c : BitVec 8) (core : BitVec 8) (eng : Fin 8) (k : BitVec 6) (amt : BitVec 40) (s : State), let here := s.csHere c.toNat eng; here = true ∧ core = c ∧ s.cntHas core.toNat k.toNat = true ∧ 1 ≤ amt.toNat ∧ amt.toNat ≤ 65535)
    ∧ (∃ (c : BitVec 8) (core : BitVec 8) (eng : Fin 8) (k : BitVec 6) (amt : BitVec 40) (s : State), let here := s.csHere c.toNat eng; here = true ∧ core = c ∧ (s.cntHas core.toNat k.toNat = false ∨ amt = 0 ∨ 65535 < amt.toNat))
    ∧ (∃ (i : Nat) (n : Nat) (pr : Pair) (s : State), let x := s.cntAbs i; let a := (if (cntKey pr.core pr.prod) = i then min (x + n) cntTop else s.cntAbs (cntKey pr.core pr.prod)); let b := (if (cntKey pr.core pr.cons) = i then min (x + n) cntTop else s.cntAbs (cntKey pr.core pr.cons)); x + n ≤ cntTop ∧ n ≠ 0 ∧ (s.seq .el).pairs = [pr] ∧ (i = cntKey pr.core pr.prod ∨ i = cntKey pr.core pr.cons) ∧ a < b)
    ∧ (∃ (i : Nat) (n : Nat) (s : State), let x := s.cntAbs i; x ≤ cntTop ∧ cntTop < x + n ∧ n ≠ 0)
    ∧ (∃ (i : Nat) (n : Nat) (pr : Pair) (s : State), let x := s.cntAbs i; let a := (if (cntKey pr.core pr.prod) = i then min (x + n) cntTop else s.cntAbs (cntKey pr.core pr.prod)); let b := (if (cntKey pr.core pr.cons) = i then min (x + n) cntTop else s.cntAbs (cntKey pr.core pr.cons)); x + n ≤ cntTop ∧ n ≠ 0 ∧ (s.seq .el).pairs = [pr] ∧ (i = cntKey pr.core pr.prod ∨ i = cntKey pr.core pr.cons) ∧ b ≤ a ∧ pr.cap < a - b)
    ∧ (∃ (c : BitVec 8) (eng : Fin 8) (s : State), let here := s.csHere c.toNat eng; here = false)
    ∧ (∃ (s : State), s.runMode = 0 ∧ s.waiters ≠ 0 ∧ s.el.dldLogged = false) :=
  ⟨⟨1#8, 0#8, 0, 0, 131072, State.reset, by dsimp only; decide +kernel⟩,
   ⟨1#8, 1#8, 0, 0#6, 1#40, State.reset, by dsimp only; decide +kernel⟩,
   ⟨1#8, 1#8, 0, 0#6, 0#40, State.reset, by dsimp only; decide +kernel⟩,
   ⟨2, 2, { core := 0, prod := 1, cons := 2, cap := 3 }, (State.modSeq State.reset .el (fun q => { q with pairs := [{ core := 0, prod := 1, cons := 2, cap := 3 }] })), by dsimp only; decide +kernel⟩,
   ⟨0, 1, (State.modEl State.reset (fun e => { e with counters := [(0, 2 ^ 40 - 1)] })), by dsimp only; decide +kernel⟩,
   ⟨1, 9, { core := 0, prod := 1, cons := 2, cap := 3 }, (State.modSeq State.reset .el (fun q => { q with pairs := [{ core := 0, prod := 1, cons := 2, cap := 3 }] })), by dsimp only; decide +kernel⟩,
   ⟨0#8, 0, (State.modEl State.reset (fun e => { e with lic := { e.lic with cores := 0 } })), by dsimp only; decide +kernel⟩,
   ⟨(State.modEl State.reset (fun e => { e with watches := [(0, { pre := 0, tmo := 0, armed := true, owner := false, eq := false, eng := 0, core := 0, k := 0, target := 0 })] })), by decide +kernel⟩⟩

theorem test_hyps_Increments_part2 : ∃ (s : State), s.runMode ≠ 0 ∧ s.waiters ≠ 0 ∧ s.el.dldLogged = false :=
  ⟨(State.modSeq (State.put State.reset .el Reg.SEQ_RUNCFG_MODE 1) .el (fun b => { b with hold := Hold.waitc 0 0 0 false 0 0 0 })), by decide +kernel⟩

theorem test_hyps_HostIncrements :
    (∃ (v : Word) (s : State), let core := fget v 63 56; let k := fget v 55 50; let amt := fget v 39 0; let key := cntKey core k; let open' := s.runMode = 1 ∨ s.runMode = 2; open' ∧ s.cntHas core k = true ∧ s.cntAbs key + amt ≤ cntTop ∧ (s.seq .el).pairs = [])
    ∧ (∃ (v : Word) (s : State), let core := fget v 63 56; let k := fget v 55 50; let open' := s.runMode = 1 ∨ s.runMode = 2; (¬ open' ∨ s.cntHas core k = false)) :=
  ⟨⟨0#64, (State.put State.reset .el Reg.SEQ_RUNCFG_MODE 1), by dsimp only; decide +kernel⟩,
   ⟨0#64, State.reset, by dsimp only; decide +kernel⟩⟩

theorem test_hyps_Watches :
    (∃ (c : BitVec 8) (core : BitVec 8) (eng : Fin 8) (w : BitVec 12) (s : State), let here := s.csHere c.toNat eng; let x := s.watchAt w.toNat; here = true ∧ core ≠ c ∧ w.toNat < s.el.lic.watches ∧ x.armed = false ∧ s.el.wakeQ.find? (fun y => y.core == core.toNat) = none)
    ∧ (∃ (c : BitVec 8) (core : BitVec 8) (eng : Fin 8) (k : BitVec 6) (target : BitVec 40) (w : BitVec 12) (s : State), let here := s.csHere c.toNat eng; let key := cntKey core.toNat k.toNat; let x := s.watchAt w.toNat; here = true ∧ core = c ∧ s.cntHas core.toNat k.toNat = true ∧ w.toNat < s.el.lic.watches ∧ x.armed = false ∧ s.cntView key < target.toNat)
    ∧ (∃ (c : BitVec 8) (core : BitVec 8) (eng : Fin 8) (k : BitVec 6) (target : BitVec 40) (w : BitVec 12) (s : State), let here := s.csHere c.toNat eng; let key := cntKey core.toNat k.toNat; let x := s.watchAt w.toNat; here = true ∧ core = c ∧ s.cntHas core.toNat k.toNat = true ∧ w.toNat < s.el.lic.watches ∧ x.armed = false ∧ target.toNat ≤ s.cntView key)
    ∧ (∃ (c : BitVec 8) (core : BitVec 8) (eng : Fin 8) (k : BitVec 6) (w : BitVec 12) (s : State), let here := s.csHere c.toNat eng; (here = false ∨ (core = c ∧ (s.cntHas core.toNat k.toNat = false ∨ s.el.lic.watches ≤ w.toNat))) ∧ (here = false ∨ s.el.lic.watches ≤ w.toNat))
    ∧ (∃ (c : BitVec 8) (core : BitVec 8) (eng : Fin 8) (k : BitVec 6) (w : BitVec 12) (s : State), let here := s.csHere c.toNat eng; let x := s.watchAt w.toNat; here = true ∧ core = c ∧ s.cntHas core.toNat k.toNat = true ∧ w.toNat < s.el.lic.watches ∧ x.armed = true)
    ∧ (∃ (core : BitVec 8) (s : State), ((match s.el.wakeQ.find? (fun y => y.core == core.toNat) with | some y => true | _ => false) = true)) :=
  ⟨⟨0#8, 1#8, 0, 1#12, State.reset, by dsimp only; decide +kernel⟩,
   ⟨0#8, 0#8, 0, 0#6, 1#40, 0xfff#12, State.reset, by dsimp only; decide +kernel⟩,
   ⟨255#8, 255#8, 0, 0#6, 0#40, 0xfff#12, State.reset, by dsimp only; decide +kernel⟩,
   ⟨0#8, 0#8, 0, 0#6, 0#12, (State.modEl State.reset (fun e => { e with lic := { e.lic with cores := 0 } })), by dsimp only; decide +kernel⟩,
   ⟨1#8, 1#8, 0, 0#6, 0#12, (State.modEl State.reset (fun e => { e with watches := [(0, { pre := 0, tmo := 0, armed := true, owner := false, eq := false, eng := 0, core := 0, k := 0, target := 0 })] })), by dsimp only; decide +kernel⟩,
   ⟨1#8, (State.modEl State.reset (fun e => { e with wakeQ := [{ core := 1, eng := 0, kind := 0, equal := false, widx := 0 }] })), by decide +kernel⟩⟩

theorem test_hyps_LandingQueue_part1 :
    (∃ (m : AnnMsg) (id : Nat) (tag : Fin 512) (s : State), let has := s.cntHas m.rcore.toNat m.rk.toNat; let seen := s.el.landSeen.contains (m.src, m.ident); let claimed := s.el.ports.claims.any (fun c => c.2.2 == tag.val); has = true ∧ seen = false ∧ s.el.land.length < 512 ∧ s.queueOn .barrier = true ∧ s.findOp .el id = none ∧ s.el.land.find? (fun x => x.tag == tag.val) = none ∧ claimed = false ∧ s.el.ports.idcClear = false ∧ ((match s.landTag with | some t => true | _ => false) = true))
    ∧ (∃ (src : BitVec 20) (s : State), s.landOldest src = none)
    ∧ (∃ (m : AnnMsg) (tag : Fin 512) (s : State), let has := s.cntHas m.rcore.toNat m.rk.toNat; let seen := s.el.landSeen.contains (m.src, m.ident); has = true ∧ seen = false ∧ 512 ≤ s.el.land.length ∧ s.el.landFull = false ∧ ((match s.el.land.find? (fun x => x.tag == tag.val) with | some l => decide (l.tmoLogged = false) | _ => false) = true))
    ∧ (∃ (m : AnnMsg) (s : State), let has := s.cntHas m.rcore.toNat m.rk.toNat; has = false)
    ∧ (∃ (s : State), s.el.ports.idcClear = true)
    ∧ (∃ (m : AnnMsg) (s : State), let has := s.cntHas m.rcore.toNat m.rk.toNat; let seen := s.el.landSeen.contains (m.src, m.ident); has = true ∧ seen = true)
    ∧ (∃ (id : Nat) (s : State), ((match s.findOp .el id with | some o => decide ((o.started = false ∨ ((match o.kind with | .ann d x => false | _ => true) = true))) | _ => false) = true))
    ∧ (∃ (tag : Fin 512) (grant : Bool) (s : State), let claimed := s.el.ports.claims.any (fun c => c.2.2 == tag.val); claimed = true ∧ s.el.ports.reclaim = [] ∧ (grant = false ∨ s.el.land.find? (fun x => x.tag == tag.val) = none)) :=
  ⟨⟨{ src := 0#20, step := 0#64, bytes := 0#48, rcore := 0#8, rk := 0#6, ramt := 0#4, ident := 0 }, 0, 0, State.reset, by dsimp only; decide +kernel⟩,
   ⟨0#20, State.reset, by decide +kernel⟩,
   ⟨{ src := 0#20, step := 0#64, bytes := 0#48, rcore := 0#8, rk := 0#6, ramt := 0#4, ident := 0 }, 0, (State.modEl State.reset (fun e => { e with land := (List.range 512).map (fun i => { tag := i, src := 0, step := 0, bytes := 0, rcore := 0, rk := 0, ramt := 0, tmoLogged := false }) })), by dsimp only; decide +kernel⟩,
   ⟨{ src := 0#20, step := 0#64, bytes := 0#48, rcore := 0#8, rk := 0#6, ramt := 0#4, ident := 0 }, (State.modEl State.reset (fun e => { e with lic := { e.lic with cores := 0 } })), by dsimp only; decide +kernel⟩,
   ⟨(State.modEl State.reset (fun e => { e with ports := { e.ports with idcClear := true } })), by decide +kernel⟩,
   ⟨{ src := 0#20, step := 0#64, bytes := 0#48, rcore := 0#8, rk := 0#6, ramt := 0#4, ident := 0 }, (State.modEl State.reset (fun e => { e with landSeen := [(0#20, 0)] })), by dsimp only; decide +kernel⟩,
   ⟨0, (State.mod State.reset .el (fun b => { b with qops := [{ id := 0, queue := QueueId.chk, kind := QKind.vseal 0#64, pc := 0, core := 0, k := 0, amt := 0, entries := 0, started := false }] })), by decide +kernel⟩,
   ⟨1, false, (State.modEl State.reset (fun e => { e with ports := { e.ports with claims := [(0#20, 0, 1)] } })), by dsimp only; decide +kernel⟩⟩

theorem test_hyps_LandingQueue_part2 :
    (∃ (id : Nat) (s : State), ((match s.findOp .el id with | some o => (decide (o.started = true)) && ((match o.kind with | .ann d x => true | _ => false)) | _ => false) = true))
    ∧ (∃ (src : BitVec 20) (s : State), ((match s.landOldest src with | some l => decide (s.el.ports.reclaim = [] ∧ (s.el.ports.idcClear = true ∨ 16 ≤ s.el.ports.claims.length ∨ s.el.ports.claims.any (fun c => c.1 == src) = true ∨ s.stepCur < l.step.toNat)) | _ => false) = true))
    ∧ (∃ (m : AnnMsg) (s : State), let has := s.cntHas m.rcore.toNat m.rk.toNat; let seen := s.el.landSeen.contains (m.src, m.ident); has = true ∧ seen = false ∧ 512 ≤ s.el.land.length ∧ s.el.landFull = true)
    ∧ (∃ (tag : Fin 512) (s : State), let claimed := s.el.ports.claims.any (fun c => c.2.2 == tag.val); claimed = true ∧ ((match s.el.land.find? (fun x => x.tag == tag.val) with | some l => decide ((s.seq .el).pairs = [] ∧ s.cntAbs (cntKey l.rcore l.rk) ≤ cntTop) | _ => false) = true))
    ∧ (∃ (tag : Fin 512) (s : State), ((match s.el.land.find? (fun x => x.tag == tag.val) with | some l => decide (l.tmoLogged = true) | _ => false) = true))
    ∧ (∃ (src : BitVec 20) (s : State), ((match s.landOldest src with | some l => decide (s.el.ports.reclaim = [] ∧ s.el.ports.idcClear = false ∧ s.el.ports.claims.length < 16 ∧ s.el.ports.claims.any (fun c => c.1 == src) = false ∧ l.step.toNat ≤ s.stepCur) | _ => false) = true))
    ∧ (∃ (m : AnnMsg) (s : State), let has := s.cntHas m.rcore.toNat m.rk.toNat; let seen := s.el.landSeen.contains (m.src, m.ident); has = true ∧ seen = false ∧ s.el.land.length < 512 ∧ (s.queueOn .barrier = false ∨ s.landTag = none)) :=
  ⟨⟨4, (State.mod State.reset .el (fun b => { b with qops := [({ id := 4, queue := .ledger, kind := .ann 0 { src := 0, step := 0, bytes := 0, rcore := 0, rk := 0, ramt := 0, ident := 0 }, pc := 0, core := 0, k := 0, amt := 0, entries := 0, started := true } : QOp)] })), by decide +kernel⟩,
   ⟨0xfffff#20, (State.modEl State.reset (fun e => { e with land := [{ tag := 0, src := 0xfffff#20, step := 1#64, bytes := 0, rcore := 0, rk := 0, ramt := 0, tmoLogged := false }] })), by decide +kernel⟩,
   ⟨{ src := 0#20, step := 0#64, bytes := 0#48, rcore := 0#8, rk := 0#6, ramt := 0#4, ident := 0 }, (State.modEl (State.modEl State.reset (fun e => { e with land := (List.range 512).map (fun i => { tag := i, src := 0, step := 0, bytes := 0, rcore := 0, rk := 0, ramt := 0, tmoLogged := false }) })) (fun e => { e with landFull := true })), by dsimp only; decide +kernel⟩,
   ⟨0, (State.modEl (State.modEl State.reset (fun e => { e with ports := { e.ports with claims := [(0#20, 0, 0)] } })) (fun e => { e with land := [{ tag := 0, src := 0#20, step := 0#64, bytes := 0, rcore := 0, rk := 0, ramt := 0, tmoLogged := false }] })), by dsimp only; decide +kernel⟩,
   ⟨0, (State.modEl State.reset (fun e => { e with land := [{ tag := 0, src := 0#20, step := 0#64, bytes := 0, rcore := 0, rk := 0, ramt := 0, tmoLogged := true }] })), by decide +kernel⟩,
   ⟨0#20, (State.modEl (State.modEl State.reset (fun e => { e with ports := { e.ports with claims := [(1#20, 0, 0), (1#20, 0, 0), (1#20, 0, 0)] } })) (fun e => { e with land := [{ tag := 0, src := 0#20, step := 0#64, bytes := 0, rcore := 0, rk := 0, ramt := 0, tmoLogged := false }] })), by decide +kernel⟩,
   ⟨{ src := 0#20, step := 0#64, bytes := 0#48, rcore := 0#8, rk := 0#6, ramt := 0#4, ident := 0 }, (State.modEl (State.put State.reset .el Reg.MAN_UNITEN_EN 0) (fun e => { e with land := [{ tag := 0, src := 0#20, step := 0#64, bytes := 0, rcore := 0, rk := 0, ramt := 0, tmoLogged := false }, { tag := 0, src := 0#20, step := 0#64, bytes := 0, rcore := 0, rk := 0, ramt := 0, tmoLogged := false }, { tag := 0, src := 0#20, step := 0#64, bytes := 0, rcore := 0, rk := 0, ramt := 0, tmoLogged := false }] })), by dsimp only; decide +kernel⟩⟩

theorem test_hyps_DieBarriers :
    (∃ (c : BitVec 8) (core : BitVec 8) (bid : BitVec 8) (eng : Fin 8) (gen : BitVec 16) (s : State), let b := bid.toNat; let x := s.bar b; let here := s.csHere c.toNat eng; let shown := s.get .el (Reg.BAR_GEN b); let awaited := x.sentUp = true ∧ shown % 65536 = gen.toNat; here = true ∧ core ≠ c ∧ (s.barComplete b = false ∨ x.sentUp = true) ∧ (¬ awaited) ∧ s.barOp b = none)
    ∧ (∃ (c : BitVec 8) (core : BitVec 8) (bid : BitVec 8) (eng : Fin 8) (k : BitVec 6) (gen : BitVec 16) (s : State), let b := bid.toNat; let x := s.bar b; let here := s.csHere c.toNat eng; let shown := s.get .el (Reg.BAR_GEN b); let awaited := x.sentUp = true ∧ shown % 65536 = gen.toNat; here = true ∧ core = c ∧ s.cntHas core.toNat k.toNat = true ∧ x.cores.any (fun e => e.1 == c.toNat) = false ∧ s.barCore b c.toNat = true ∧ awaited ∧ (s.seq .el).pairs = [] ∧ s.seqState .el ≠ 4 ∧ (∀ j, s.cntAbs j ≤ cntTop))
    ∧ (∃ (c : BitVec 8) (core : BitVec 8) (eng : Fin 8) (k : BitVec 6) (s : State), let here := s.csHere c.toNat eng; (here = false ∨ (core = c ∧ s.cntHas core.toNat k.toNat = false)))
    ∧ (∃ (bid : BitVec 8) (s : State), let b := bid.toNat; let x := s.bar b; s.barComplete b = true ∧ x.sentUp = false ∧ s.get .el (Reg.BAR_SCOPE b) = 0 ∧ (s.seq .el).pairs = [] ∧ s.seqState .el ≠ 4 ∧ (∀ j, s.cntAbs j ≤ cntTop))
    ∧ (∃ (bid : BitVec 8) (s : State), let b := bid.toNat; let x := s.bar b; s.barComplete b = true ∧ x.sentUp = false ∧ s.get .el (Reg.BAR_SCOPE b) ≠ 0)
    ∧ (∃ (c : BitVec 8) (core : BitVec 8) (bid : BitVec 8) (eng : Fin 8) (k : BitVec 6) (s : State), let b := bid.toNat; let x := s.bar b; let here := s.csHere c.toNat eng; here = true ∧ core = c ∧ s.cntHas core.toNat k.toNat = true ∧ (x.cores.any (fun e => e.1 == c.toNat) = true ∨ s.barCore b c.toNat = false))
    ∧ (∃ (bid : BitVec 8) (s : State), let b := bid.toNat; ((match s.barOp b with | some o => decide (s.seqState .el ≠ 4) | _ => false) = true)) :=
  ⟨⟨0#8, 1#8, 0#8, 0, 0#16, State.reset, by dsimp only; decide +kernel⟩,
   ⟨5#8, 5#8, 0#8, 0, 0#6, 0#16, (State.setBar State.reset 0 { cores := [], sentUp := true, qid := none, timedOut := false }), by dsimp only; and_intros <;> first | exact fun _ => Nat.zero_le _ | decide +kernel⟩,
   ⟨0#8, 0#8, 0, 0#6, (State.modEl State.reset (fun e => { e with lic := { e.lic with cores := 0 } })), by dsimp only; decide +kernel⟩,
   ⟨0#8, (State.setBar (State.modEl (State.put State.reset .el (Reg.BAR_SEQ_ARR 0) 1) (fun e => { e with lic := { e.lic with cores := 1 } })) 0 { cores := [(0, 0)], sentUp := false, qid := none, timedOut := false }), by dsimp only; and_intros <;> first | exact fun _ => Nat.zero_le _ | decide +kernel⟩,
   ⟨0#8, (State.setBar (State.modEl (State.put (State.put State.reset .el (Reg.BAR_SCOPE 0) 1) .el (Reg.BAR_SEQ_ARR 0) 1) (fun e => { e with lic := { e.lic with cores := 1 } })) 0 { cores := [(0, 0)], sentUp := false, qid := none, timedOut := false }), by dsimp only; decide +kernel⟩,
   ⟨0#8, 0#8, 0#8, 0, 0#6, (State.mod (State.modEl (State.put State.reset .el (Reg.BAR_GROUPS 0) 4) (fun e => { e with ports := { e.ports with csOk := true } })) .ux (fun b => { b with cfgSlew := 0 })), by dsimp only; decide +kernel⟩,
   ⟨0#8, (State.modEl (State.put (State.mod State.reset .el (fun b => { b with qops := [{ id := 1, queue := QueueId.move, kind := QKind.ltrim 226#64, pc := 0, core := 2454, k := 1, amt := 2, entries := 1650, started := true }, { id := 32, queue := QueueId.red, kind := QKind.bcvv 0 5091 1 1591, pc := 262, core := 2, k := 167, amt := 65535, entries := 198, started := false }, { id := 6, queue := QueueId.tree, kind := QKind.lemit 1 1 0, pc := 63, core := 1, k := 0, amt := 4095, entries := 65536, started := false }] })) .ux Reg.SEQ_STAT_STATE 15) (fun e => { e with bars := [(0, { cores := [], sentUp := false, qid := some 1, timedOut := false })] })), by dsimp only; decide +kernel⟩⟩

theorem test_hyps_NodeBarriers_part1 :
    (∃ (lane : Fin 160) (pos : Fin 128) (bid : BitVec 8) (scope : Fin 4) (gen : BitVec 16) (y : (Option (Fin 128))) (s : State), let b := bid.toNat; let n := s.node b; let a : BarArr := { pos := if lane.val < 128 then lane.val else pos.val, gen := gen, scope := scope, relayed := decide (128 ≤ lane.val) }; let t := if 128 ≤ lane.val then s.relayNote a.pos else s; let n' : BarNode := { n with last := tput 0 n.last a.pos (gen.toNat + 1) }; s.absorbed lane = false ∧ s.relays = false ∧ tget 0 n.last a.pos ≠ gen.toNat + 1 ∧ n.isOpen = false ∧ ({ n' with isOpen := true, scope := scope, expect := t.expectPorts, arrived := [a] }).sentUp = false ∧ ({ n' with isOpen := true, scope := scope, expect := t.expectPorts, arrived := [a] }).full = true ∧ s.tier + 1 < scope ∧ (s.relays = false ∨ y = none) ∧ (n.isOpen = false ∨ n.sentUp = false ∨ n.gen % 65536 ≠ gen.toNat) ∧ (n.isOpen = false ∨ n.sentUp = true))
    ∧ (∃ (lane : Fin 160) (s : State), s.absorbed lane = false ∧ s.relays = true)
    ∧ (∃ (lane : Fin 160) (pos : Fin 128) (bid : BitVec 8) (scope : Fin 4) (gen : BitVec 16) (s : State), let b := bid.toNat; let n := s.node b; let a : BarArr := { pos := if lane.val < 128 then lane.val else pos.val, gen := gen, scope := scope, relayed := decide (128 ≤ lane.val) }; let t := if 128 ≤ lane.val then s.relayNote a.pos else s; let n' : BarNode := { n with last := tput 0 n.last a.pos (gen.toNat + 1) }; s.absorbed lane = false ∧ s.relays = false ∧ tget 0 n.last a.pos ≠ gen.toNat + 1 ∧ n.isOpen = false ∧ ({ n' with isOpen := true, scope := scope, expect := t.expectPorts, arrived := [a] }).sentUp = false ∧ ({ n' with isOpen := true, scope := scope, expect := t.expectPorts, arrived := [a] }).full = true ∧ scope ≤ s.tier + 1 ∧ ({ n' with isOpen := true, scope := scope, expect := t.expectPorts, arrived := [a] }).next = [])
    ∧ (∃ (lane : Fin 160) (pos : Fin 128) (bid : BitVec 8) (scope : Fin 4) (gen : BitVec 16) (y : (Option (Fin 128))) (s : State), let b := bid.toNat; let n := s.node b; let a : BarArr := { pos := if lane.val < 128 then lane.val else pos.val, gen := gen, scope := scope, relayed := decide (128 ≤ lane.val) }; s.absorbed lane = false ∧ s.relays = false ∧ tget 0 n.last a.pos ≠ gen.toNat + 1 ∧ n.isOpen = true ∧ n.scope ≠ scope ∧ (s.relays = false ∨ y = none) ∧ n.sentUp = true ∧ n.gen % 65536 = gen.toNat ∧ n.next = [])
    ∧ (∃ (lane : Fin 160) (pos : Fin 128) (bid : BitVec 8) (scope : Fin 4) (gen : BitVec 16) (s : State), let b := bid.toNat; let n := s.node b; let a : BarArr := { pos := if lane.val < 128 then lane.val else pos.val, gen := gen, scope := scope, relayed := decide (128 ≤ lane.val) }; let n' : BarNode := { n with last := tput 0 n.last a.pos (gen.toNat + 1) }; s.absorbed lane = false ∧ s.relays = false ∧ tget 0 n.last a.pos ≠ gen.toNat + 1 ∧ n.isOpen = true ∧ n.scope = scope ∧ n.arrived.any (fun x => x.pos == a.pos) = false ∧ n.sentUp = false ∧ (n.expect.contains a.pos = true ∨ s.memberPorts.contains a.pos = false) ∧ ({ n' with arrived := n.arrived ++ [a] }).sentUp = false ∧ ({ n' with arrived := n.arrived ++ [a] }).full = true ∧ s.tier + 1 < scope)
    ∧ (∃ (lane : Fin 160) (pos : Fin 128) (bid : BitVec 8) (scope : Fin 4) (gen : BitVec 16) (s : State), let b := bid.toNat; let n := s.node b; let a : BarArr := { pos := if lane.val < 128 then lane.val else pos.val, gen := gen, scope := scope, relayed := decide (128 ≤ lane.val) }; let t := if 128 ≤ lane.val then s.relayNote a.pos else s; let n' : BarNode := { n with last := tput 0 n.last a.pos (gen.toNat + 1) }; s.absorbed lane = false ∧ s.relays = false ∧ tget 0 n.last a.pos ≠ gen.toNat + 1 ∧ n.isOpen = false ∧ ({ n' with isOpen := true, scope := scope, expect := t.expectPorts, arrived := [a] }).sentUp = false ∧ ({ n' with isOpen := true, scope := scope, expect := t.expectPorts, arrived := [a] }).full = false)
    ∧ (∃ (lane : Fin 160) (s : State), s.absorbed lane = true)
    ∧ (∃ (lane : Fin 160) (pos : Fin 128) (bid : BitVec 8) (scope : Fin 4) (gen : BitVec 16) (s : State), let b := bid.toNat; let n := s.node b; let a : BarArr := { pos := if lane.val < 128 then lane.val else pos.val, gen := gen, scope := scope, relayed := decide (128 ≤ lane.val) }; let n' : BarNode := { n with last := tput 0 n.last a.pos (gen.toNat + 1) }; s.absorbed lane = false ∧ s.relays = false ∧ tget 0 n.last a.pos ≠ gen.toNat + 1 ∧ n.isOpen = true ∧ n.scope = scope ∧ n.arrived.any (fun x => x.pos == a.pos) = false ∧ n.sentUp = false ∧ (n.expect.contains a.pos = true ∨ s.memberPorts.contains a.pos = false) ∧ ({ n' with arrived := n.arrived ++ [a] }).sentUp = false ∧ ({ n' with arrived := n.arrived ++ [a] }).full = true ∧ scope ≤ s.tier + 1 ∧ ({ n' with arrived := n.arrived ++ [a] }).next = []) :=
  ⟨⟨0, 0, 0#8, 2, 0#16, none, State.reset, by dsimp only; decide +kernel⟩,
   ⟨0, (State.put State.reset .ux Reg.UX_IDENT_ROLE_PLANE 1), by decide +kernel⟩,
   ⟨0, 0, 0#8, 1, 0#16, State.reset, by dsimp only; decide +kernel⟩,
   ⟨0, 0, 0#8, 0, 2#16, none, (State.setNode State.reset 0 { gen := 2, isOpen := true, scope := 1, expect := [], arrived := [], next := [], armed := none, sentUp := true, qid := none, last := [] }), by dsimp only; decide +kernel⟩,
   ⟨0, 0, 0#8, 3, 0#16, (State.setNode State.reset 0 { gen := 0, isOpen := true, scope := 3, expect := [], arrived := [], next := [], armed := none, sentUp := false, qid := none, last := [] }), by dsimp only; decide +kernel⟩,
   ⟨0, 0, 0#8, 0, 0#16, (State.modUx State.reset (fun u => { u with members := [ (1, 3)] })), by dsimp only; decide +kernel⟩,
   ⟨0, (State.put State.reset .ux Reg.UX_LOCK_CTRL_EN 1), by decide +kernel⟩,
   ⟨0, 0, 0#8, 1, 0#16, (State.setNode State.reset 0 { gen := 0, isOpen := true, scope := 1, expect := [], arrived := [], next := [], armed := none, sentUp := false, qid := none, last := [] }), by dsimp only; decide +kernel⟩⟩

theorem test_hyps_NodeBarriers_part2 :
    (∃ (lane : Fin 160) (pos : Fin 128) (bid : BitVec 8) (scope : Fin 4) (gen : BitVec 16) (s : State), let b := bid.toNat; let n := s.node b; let a : BarArr := { pos := if lane.val < 128 then lane.val else pos.val, gen := gen, scope := scope, relayed := decide (128 ≤ lane.val) }; s.absorbed lane = false ∧ s.relays = false ∧ tget 0 n.last a.pos ≠ gen.toNat + 1 ∧ n.isOpen = true ∧ n.scope = scope ∧ n.arrived.any (fun x => x.pos == a.pos) = false ∧ (n.sentUp = true ∨ (n.expect.contains a.pos = false ∧ s.memberPorts.contains a.pos = true)))
    ∧ (∃ (lane : Fin 160) (pos : Fin 128) (bid : BitVec 8) (scope : Fin 4) (gen : BitVec 16) (s : State), let b := bid.toNat; let n := s.node b; let a : BarArr := { pos := if lane.val < 128 then lane.val else pos.val, gen := gen, scope := scope, relayed := decide (128 ≤ lane.val) }; let n' : BarNode := { n with last := tput 0 n.last a.pos (gen.toNat + 1) }; s.absorbed lane = false ∧ s.relays = false ∧ tget 0 n.last a.pos ≠ gen.toNat + 1 ∧ n.isOpen = true ∧ n.scope = scope ∧ n.arrived.any (fun x => x.pos == a.pos) = false ∧ n.sentUp = false ∧ (n.expect.contains a.pos = true ∨ s.memberPorts.contains a.pos = false) ∧ ({ n' with arrived := n.arrived ++ [a] }).sentUp = false ∧ ({ n' with arrived := n.arrived ++ [a] }).full = false)
    ∧ (∃ (lane : Fin 160) (pos : Fin 128) (bid : BitVec 8) (scope : Fin 4) (gen : BitVec 16) (s : State), let b := bid.toNat; let n := s.node b; let a : BarArr := { pos := if lane.val < 128 then lane.val else pos.val, gen := gen, scope := scope, relayed := decide (128 ≤ lane.val) }; s.absorbed lane = false ∧ s.relays = false ∧ tget 0 n.last a.pos ≠ gen.toNat + 1 ∧ n.isOpen = true ∧ n.scope = scope ∧ n.arrived.any (fun x => x.pos == a.pos) = true)
    ∧ (∃ (lane : Fin 160) (pos : Fin 128) (bid : BitVec 8) (scope : Fin 4) (gen : BitVec 16) (s : State), let b := bid.toNat; let n := s.node b; let a : BarArr := { pos := if lane.val < 128 then lane.val else pos.val, gen := gen, scope := scope, relayed := decide (128 ≤ lane.val) }; s.absorbed lane = false ∧ s.relays = false ∧ tget 0 n.last a.pos = gen.toNat + 1) :=
  ⟨⟨0, 0, 0#8, 1, 0#16, (State.setNode State.reset 0 { gen := 0, isOpen := true, scope := 1, expect := [], arrived := [], next := [], armed := none, sentUp := true, qid := none, last := [] }), by dsimp only; decide +kernel⟩,
   ⟨0, 0, 0#8, 1, 0#16, (State.setNode State.reset 0 { gen := 0, isOpen := true, scope := 1, expect := [ 1], arrived := [], next := [], armed := none, sentUp := false, qid := none, last := [] }), by dsimp only; decide +kernel⟩,
   ⟨0, 0, 0#8, 0, 0#16, (State.modUx State.reset (fun u => { u with bars := [(0, { gen := 0, isOpen := true, scope := 0, expect := [], arrived := [{ pos := 0, gen := 0#16, scope := 0, relayed := false }], next := [], armed := none, sentUp := false, qid := none, last := [] })] })), by dsimp only; decide +kernel⟩,
   ⟨3, 0, 0#8, 0, 0#16, (State.put (State.modUx (State.modGuard (State.put (State.modUx (State.modEl (State.modUx (State.modEl (State.modUx (State.modPll (State.modUx State.reset (fun u => { u with bars := [(0, { gen := 93, isOpen := false, scope := 0, expect := [], arrived := [{ pos := 0, gen := 5#16, scope := 0, relayed := false }, { pos := 1, gen := 0#16, scope := 252, relayed := true }], next := [], armed := none, sentUp := true, qid := some 1, last := [(0, 0), (3, 1)] }), (129, { gen := 6, isOpen := true, scope := 3, expect := [0, 65536], arrived := [{ pos := 0, gen := 100#16, scope := 4771, relayed := false }, { pos := 5566, gen := 0#16, scope := 65535, relayed := false }], next := [{ pos := 4096, gen := 0xffff#16, scope := 4208, relayed := false }, { pos := 2490, gen := 1#16, scope := 0, relayed := false }], armed := none, sentUp := true, qid := some 2, last := [(0, 4)] })] })) .ux (fun b => { b with relocking := false })) (fun u => { u with lockShd := [{ ord := 4, record := { step := 0#64, fp := 0#64, blocks := 294#32, mism := 0x10000#32, tensor := 1#16, kind := 16#8, flags := 255#8, lsi := 0#32 } }] })) (fun e => { e with ledgOrd := 5497 })) (fun u => { u with pending := [] })) (fun e => { e with refclkLost := false })) (fun u => { u with junction := [] })) .ux Reg.UX_LOCK_CTRL_SHD 6) .ux (fun b => { b with done := [0] })) (fun u => { u with relayFrom := [] })) .ux Reg.UX_IDENT_ROLE_TIER 1), by dsimp only; decide +kernel⟩⟩

theorem test_hyps_Launches :
    (∃ (lane : Fin 160) (s : State), s.absorbed lane = false ∧ s.tier ≠ 2)
    ∧ (∃ (m : LaunchMsg) (lane : Fin 160) (s : State), let next := s.reg .ux Reg.UX_SEAL_NEXT_NEXT.off; let now := s.tbNow .ux 0; let closed := s.bit .ux Reg.UX_HC_STAT_GATE_CLOSED; let ahead := decide (s.get .ux Reg.UX_SEAL_CTRL_LAG < (next - s.reg .ux Reg.UX_SEAL_STAT_LAST.off).toNat); let used := s.pendingLaunches.any (fun l => l.lid == m.lid); let late := s.tbState .ux 0 = 0 ∨ m.t < now + psHxt s.dLaunch; s.absorbed lane = false ∧ s.tier = 2 ∧ s.ux.pending.contains m = false ∧ closed = false ∧ (m.start = false ∨ ahead = false) ∧ (used = true ∨ late))
    ∧ (∃ (lane : Fin 160) (s : State), s.absorbed lane = true)
    ∧ (∃ (m : LaunchMsg) (lane : Fin 160) (s : State), let next := s.reg .ux Reg.UX_SEAL_NEXT_NEXT.off; let now := s.tbNow .ux 0; let closed := s.bit .ux Reg.UX_HC_STAT_GATE_CLOSED; let ahead := decide (s.get .ux Reg.UX_SEAL_CTRL_LAG < (next - s.reg .ux Reg.UX_SEAL_STAT_LAST.off).toNat); let used := s.pendingLaunches.any (fun l => l.lid == m.lid); let late := s.tbState .ux 0 = 0 ∨ m.t < now + psHxt s.dLaunch; s.absorbed lane = false ∧ s.tier = 2 ∧ s.ux.pending.contains m = false ∧ closed = false ∧ (m.start = false ∨ ahead = false) ∧ used = false ∧ (¬ late))
    ∧ (∃ (m : LaunchMsg) (lane : Fin 160) (s : State), let next := s.reg .ux Reg.UX_SEAL_NEXT_NEXT.off; let closed := s.bit .ux Reg.UX_HC_STAT_GATE_CLOSED; let ahead := decide (s.get .ux Reg.UX_SEAL_CTRL_LAG < (next - s.reg .ux Reg.UX_SEAL_STAT_LAST.off).toNat); s.absorbed lane = false ∧ s.tier = 2 ∧ s.ux.pending.contains m = false ∧ closed = false ∧ m.start = true ∧ ahead = true)
    ∧ (∃ (m : LaunchMsg) (lane : Fin 160) (s : State), s.absorbed lane = false ∧ s.tier = 2 ∧ s.ux.pending.contains m = true)
    ∧ (∃ (m : LaunchMsg) (lane : Fin 160) (s : State), let closed := s.bit .ux Reg.UX_HC_STAT_GATE_CLOSED; s.absorbed lane = false ∧ s.tier = 2 ∧ s.ux.pending.contains m = false ∧ closed = true) :=
  ⟨⟨0, State.reset, by decide +kernel⟩,
   ⟨{ lid := 0#8, t := 0, gmask := 0#16, start := false, lsi := 0#20, ident := 0 }, 0, (State.put State.reset .ux Reg.UX_IDENT_ROLE_TIER 2), by dsimp only; decide +kernel⟩,
   ⟨3, (State.put (State.put State.reset .ux Reg.UX_LOCK_CTRL_EN 1) .ux Reg.UX_LOCK_CTRL_SHD 3), by decide +kernel⟩,
   ⟨{ lid := 0#8, t := 0, gmask := 0#16, start := false, lsi := 0#20, ident := 0 }, 0, (State.put (State.put State.reset .ux Reg.UX_IDENT_ROLE_TIER 2) .ux (Reg.TB_STAT_STATE 0) 1), by dsimp only; decide +kernel⟩,
   ⟨{ lid := 0#8, t := 0, gmask := 0#16, start := true, lsi := 0#20, ident := 0 }, 0, (State.put (State.put State.reset .ux Reg.UX_SEAL_NEXT_NEXT 80) .ux Reg.UX_IDENT_ROLE_TIER 2), by dsimp only; decide +kernel⟩,
   ⟨{ lid := 1#8, t := 1125899906842624, gmask := 1#16, start := false, lsi := 0#20, ident := 3 }, 0, (State.modUx (State.put State.reset .ux Reg.UX_IDENT_ROLE_TIER 2) (fun u => { u with pending := [({ lid := 1, t := 2 ^ 50, gmask := 1, start := false, lsi := 0, ident := 3 } : LaunchMsg)] })), by decide +kernel⟩,
   ⟨{ lid := 0#8, t := 0, gmask := 0#16, start := false, lsi := 0#20, ident := 0 }, 0, (State.modUx (State.modEl (State.modEl (State.modUx (State.modLane (State.modEl (State.mod (State.modLane (State.modLane (State.modEl (State.mod (State.put (State.modPll (State.modUx (State.modLane (State.mod (State.modPll (State.put State.reset .ux Reg.UX_IDENT_ROLE_TIER 2) .el (fun b => { b with activeLocked := true })) .el (fun b => { b with rbAt := none })) .el 1 (fun b => { b with leaveSt := none })) (fun u => { u with lockShd := [{ ord := 0, record := { step := 6#64, fp := 1#64, blocks := 0#32, mism := 0#32, tensor := 256#16, kind := 0#8, flags := 5#8, lsi := 64#32 } }, { ord := 3, record := { step := 0#64, fp := 218#64, blocks := 0xffffffff#32, mism := 1#32, tensor := 1#16, kind := 3#8, flags := 255#8, lsi := 0#32 } }] })) .ux (fun b => { b with relocking := false })) .ux Reg.UX_HC_STAT_GATE_CLOSED 1) .ux (fun b => { b with prevUntil := 0 })) (fun e => { e with ports := { e.ports with csOk := true } })) .ux 0 (fun b => { b with markSlot := 0 })) .ux 4 (fun b => { b with paid := 5 })) .el (fun b => { b with prevUntil := 1 })) (fun e => { e with landFull := true })) .ux 1 (fun b => { b with authRx := 2 })) (fun u => { u with pcie := none })) (fun e => { e with stepBase := [(0, 1000)] })) (fun e => { e with spm := [] })) (fun u => { u with fwNext := none })), by dsimp only; decide +kernel⟩⟩

theorem test_hyps_Launches_b :
    (∃ (lid : BitVec 8) (m : LaunchMsg) (s : State), let past := s.tbState .el 0 ≠ 0 ∧ m.t < s.tbNow .el 0; let seen := tget 0 s.el.launchSeen m.lid.toNat = m.t + 1; s.expelled = false ∧ (¬ seen) ∧ (¬ past) ∧ s.el.launches.find? (fun l => l.lid == lid) = none)
    ∧ (∃ (m : LaunchMsg) (s : State), let seen := tget 0 s.el.launchSeen m.lid.toNat = m.t + 1; (s.expelled = true ∨ seen) ∧ s.expelled = true)
    ∧ (∃ (m : LaunchMsg) (s : State), let past := s.tbState .el 0 ≠ 0 ∧ m.t < s.tbNow .el 0; let seen := tget 0 s.el.launchSeen m.lid.toNat = m.t + 1; s.expelled = false ∧ (¬ seen) ∧ past)
    ∧ (∃ (lid : BitVec 8) (s : State), ((match s.el.launches.find? (fun l => l.lid == lid) with | some m => decide (s.tbReached .el 0 m.t = false) | _ => false) = true))
    ∧ (∃ (lid : BitVec 8) (s : State), ((match s.el.launches.find? (fun l => l.lid == lid) with | some m => decide (s.tbReached .el 0 m.t = true ∧ s.expelled = false) | _ => false) = true)) :=
  ⟨⟨0#8, { lid := 0#8, t := 0, gmask := 0#16, start := false, lsi := 0#20, ident := 0 }, State.reset, by dsimp only; decide +kernel⟩,
   ⟨{ lid := 0#8, t := 0, gmask := 0#16, start := false, lsi := 0#20, ident := 0 }, (State.put State.reset .el Reg.HC_STAT_STATE 6), by dsimp only; decide +kernel⟩,
   ⟨{ lid := 0#8, t := 0, gmask := 0#16, start := false, lsi := 0#20, ident := 0 }, (State.put (State.put State.reset .el (Reg.TB_ANCHOR_HI_ANCHOR_HI 0) 1) .el (Reg.TB_STAT_STATE 0) 1), by dsimp only; decide +kernel⟩,
   ⟨0#8, (State.modEl State.reset (fun e => { e with launches := [{ lid := 0#8, t := 0, gmask := 0#16, start := false, lsi := 0#20, ident := 0 }] })), by decide +kernel⟩,
   ⟨0#8, (State.put (State.modEl State.reset (fun e => { e with launches := [{ lid := 0#8, t := 0, gmask := 0#16, start := false, lsi := 0#20, ident := 0 }] })) .el (Reg.TB_STAT_STATE 0) 1), by decide +kernel⟩⟩

theorem test_hyps_Reductions_part1 :
    (∃ (m : RedMsg) (lane : Fin 160) (t : Slot) (g : XGroup) (cl : Fin 4) (i : Nat) (key : Nat) (j : Nat) (s : State), let mine := (s.ux.held.filter (fun h => laneCluster h.2 == cl.val))[i]?; let g := tget [] t.given j; s.absorbed lane = false ∧ 2 < m.kind.toNat ∧ j < t.n ∧ m.first.toNat ≤ j ∧ j < m.first.toNat + m.vals.length ∧ g.length < t.expect ∧ m.src ∉ g ∧ mine = none ∧ s.findOp .el key = none)
    ∧ (∃ (m : RedMsg) (key : Nat) (j : Nat) (s : State), (j < m.first.toNat ∨ m.first.toNat + m.vals.length ≤ j) ∧ slotAt s.ux.slots key = none ∧ groupAt s.ux.groups key = none)
    ∧ (∃ (m : RedMsg) (lane : Fin 160) (t : Slot) (g : XGroup) (j : Nat) (s : State), let rid := m.rid.toNat; let at' := slotAt s.ux.slots rid; let held := s.ux.held.countP (fun h => laneCluster h.2 == laneCluster lane); let g := tget [] t.given j; j < t.n ∧ m.first.toNat ≤ j ∧ j < m.first.toNat + m.vals.length ∧ (t.expect ≤ g.length ∨ m.src ∈ g) ∧ s.absorbed lane = false ∧ m.kind.toNat ≤ 2 ∧ m.down = false ∧ at' = none ∧ held < 256)
    ∧ (∃ (m : RedMsg) (lane : Fin 160) (t : Slot) (g : XGroup) (j : Nat) (s : State), let rid := m.rid.toNat; let at' := slotAt s.ux.slots rid; let g := tget [] t.given j; j < t.n ∧ m.first.toNat ≤ j ∧ j < m.first.toNat + m.vals.length ∧ g.length < t.expect ∧ m.src ∉ g ∧ s.absorbed lane = false ∧ m.kind.toNat ≤ 2 ∧ m.down = true ∧ at' = none)
    ∧ (∃ (m : RedMsg) (j : Nat), (j < m.first.toNat ∨ m.first.toNat + m.vals.length ≤ j))
    ∧ (∃ (m : RedMsg) (lane : Fin 160) (key : Nat) (s : State), let rid := m.rid.toNat; let at' := slotAt s.ux.slots rid; s.absorbed lane = false ∧ m.kind.toNat ≤ 2 ∧ m.down = false ∧ ((match at' with | some t => let fresh : Slot := { t with step := some m.step, seen := t.seen ++ [(m.src, m.first)], ports := if t.ports.contains lane.val then t.ports else t.ports ++ [lane.val] }; let joined := ((List.range m.vals.length).map (fun j => (m.first.toNat + j, m.vals.getD j 0))).foldl (fun a v => slotValue m.src a v.1 v.2) fresh; decide (redMatch t.opk m = true ∧ (t.step = none ∨ t.step = some m.step) ∧ t.sent = false ∧ t.seen.contains (m.src, m.first) = false ∧ joined.full = true ∧ s.tier ≠ 2) | _ => false) = true) ∧ ((match slotAt s.ux.slots key with | some t => decide ((t.sent = true ∨ t.seen = [])) | _ => false) = true))
    ∧ (∃ (m : RedMsg) (lane : Fin 160) (s : State), let rid := m.rid.toNat; let at' := slotAt s.ux.slots rid; let held := s.ux.held.countP (fun h => laneCluster h.2 == laneCluster lane); s.absorbed lane = false ∧ m.kind.toNat ≤ 2 ∧ m.down = false ∧ at' = none ∧ 256 ≤ held)
    ∧ (∃ (m : RedMsg) (lane : Fin 160) (s : State), let rid := m.rid.toNat; let at' := slotAt s.ux.slots rid; s.absorbed lane = false ∧ m.kind.toNat ≤ 2 ∧ m.down = true ∧ ((match at' with | some t => decide (t.sent = true ∧ t.step = some m.step ∧ t.downs.contains (m.src, m.first) = false) | _ => false) = true)) :=
  ⟨⟨{ rid := 0#12, kind := 3#8, min := false, sat := false, down := false, first := 0#32, src := 0#32, step := 0#64, vals := [-0] }, 0, { opk := 0, expect := 1, n := 1, step := none, seen := [], ports := [], given := [], vals := [], mismatch := false, sent := false, downs := [], down := 0, qid := 0 }, { members := [], expect := [], step := none, got := [], sent := false, qid := 0 }, 0, 0, 0, 0, State.reset, by dsimp only; decide +kernel⟩,
   ⟨{ rid := 0#12, kind := 0#8, min := false, sat := false, down := false, first := 0#32, src := 0#32, step := 0#64, vals := [] }, 0, 0, State.reset, by decide +kernel⟩,
   ⟨{ rid := 0#12, kind := 0#8, min := false, sat := false, down := false, first := 0#32, src := 0#32, step := 0#64, vals := [ 0] }, 0, { opk := 0, expect := 0, n := 1, step := none, seen := [], ports := [], given := [], vals := [], mismatch := false, sent := false, downs := [], down := 0, qid := 0 }, { members := [], expect := [], step := none, got := [], sent := false, qid := 0 }, 0, State.reset, by dsimp only; decide +kernel⟩,
   ⟨{ rid := 0#12, kind := 0#8, min := false, sat := false, down := true, first := 1#32, src := 0#32, step := 0#64, vals := [0] }, 0, { opk := 0, expect := 1, n := 6, step := none, seen := [], ports := [], given := [], vals := [], mismatch := false, sent := false, downs := [], down := 0, qid := 0 }, { members := [], expect := [], step := none, got := [], sent := false, qid := 0 }, 1, State.reset, by dsimp only; decide +kernel⟩,
   ⟨{ rid := 0#12, kind := 0#8, min := false, sat := false, down := false, first := 0#32, src := 0#32, step := 0#64, vals := [] }, 0, by decide +kernel⟩,
   ⟨{ rid := 0#12, kind := 1#8, min := false, sat := false, down := false, first := 0#32, src := 0#32, step := 0#64, vals := [] }, 0, 0, (State.modUx State.reset (fun u => { u with slots := [(0, { opk := 3, expect := 0, n := 0, step := none, seen := [], ports := [], given := [], vals := [], mismatch := false, sent := false, downs := [], down := 0, qid := 0 })] })), by dsimp only; decide +kernel⟩,
   ⟨{ rid := 0#12, kind := 1#8, min := false, sat := false, down := false, first := 0#32, src := 0#32, step := 0#64, vals := [] }, 0, (State.modUx State.reset (fun u => { u with held := List.replicate 256 (({ rid := 0, kind := 0, min := false, sat := false, down := false, first := 0, src := 0, step := 0, vals := [] } : RedMsg), 0) })), by dsimp only; decide +kernel⟩,
   ⟨{ rid := 0#12, kind := 1#8, min := false, sat := false, down := true, first := 0#32, src := 0#32, step := 0#64, vals := [] }, 0, (State.modUx State.reset (fun u => { u with slots := [(0, { opk := 0, expect := 0, n := 0, step := some 0, seen := [], ports := [], given := [], vals := [], mismatch := false, sent := true, downs := [], down := 0, qid := 0 })] })), by dsimp only; decide +kernel⟩⟩

theorem test_hyps_Reductions_part2 :
    (∃ (m : RedMsg) (lane : Fin 160) (s : State), let rid := m.rid.toNat; let at' := slotAt s.ux.slots rid; s.absorbed lane = false ∧ m.kind.toNat ≤ 2 ∧ m.down = false ∧ ((match at' with | some t => let fresh : Slot := { t with step := some m.step, seen := t.seen ++ [(m.src, m.first)], ports := if t.ports.contains lane.val then t.ports else t.ports ++ [lane.val] }; let joined := ((List.range m.vals.length).map (fun j => (m.first.toNat + j, m.vals.getD j 0))).foldl (fun a v => slotValue m.src a v.1 v.2) fresh; decide (redMatch t.opk m = true ∧ (t.step = none ∨ t.step = some m.step) ∧ t.sent = false ∧ t.seen.contains (m.src, m.first) = false ∧ joined.full = true ∧ s.tier = 2) | _ => false) = true))
    ∧ (∃ (key : Nat) (s : State), slotAt s.ux.slots key = none ∧ ((match groupAt s.ux.groups key with | some g => decide ((g.sent = true ∨ g.got = [])) | _ => false) = true))
    ∧ (∃ (m : RedMsg) (lane : Fin 160) (key : Nat) (s : State), let rid := m.rid.toNat; let at' := slotAt s.ux.slots rid; s.absorbed lane = false ∧ m.kind.toNat ≤ 2 ∧ m.down = false ∧ ((match at' with | some t => decide (redMatch t.opk m = false) | _ => false) = true) ∧ ((match slotAt s.ux.slots key with | some t => decide (t.sent = false ∧ t.seen ≠ []) | _ => false) = true))
    ∧ (∃ (cl : Fin 4) (i : Nat) (s : State), let mine := (s.ux.held.filter (fun h => laneCluster h.2 == cl.val))[i]?; ((match mine with | some h => true | _ => false) = true))
    ∧ (∃ (key : Nat) (s : State), ((match s.findOp .el key with | some o => decide (o.started = false) | _ => false) = true))
    ∧ (∃ (key : Nat) (s : State), ((match s.findOp .el key with | some o => decide (o.started = true ∧ (((match o.kind with | .spass r n a x => true | _ => false) = true) ∨ ((match o.kind with | .ssum r n a => true | _ => false) = true) ∨ ((match o.kind with | .xchk r f e => true | _ => false) = true))) | _ => false) = true))
    ∧ (∃ (m : RedMsg) (lane : Fin 160) (s : State), let rid := m.rid.toNat; let at' := slotAt s.ux.slots rid; s.absorbed lane = false ∧ m.kind.toNat ≤ 2 ∧ m.down = true ∧ ((match at' with | some t => decide ((t.sent = false ∨ t.step ≠ some m.step ∨ t.downs.contains (m.src, m.first) = true)) | _ => false) = true))
    ∧ (∃ (key : Nat) (s : State), slotAt s.ux.slots key = none ∧ ((match groupAt s.ux.groups key with | some g => decide (g.sent = false ∧ g.got ≠ []) | _ => false) = true)) :=
  ⟨⟨{ rid := 0#12, kind := 1#8, min := false, sat := false, down := false, first := 0#32, src := 0#32, step := 0#64, vals := [] }, 0, (State.modUx (State.put State.reset .ux Reg.UX_IDENT_ROLE_TIER 2) (fun u => { u with slots := [(0, { opk := 3, expect := 0, n := 0, step := none, seen := [], ports := [], given := [], vals := [], mismatch := false, sent := false, downs := [], down := 0, qid := 0 })] })), by dsimp only; decide +kernel⟩,
   ⟨0, (State.modUx State.reset (fun u => { u with groups := [(0, { members := [], expect := [], step := none, got := [], sent := false, qid := 0 })] })), by decide +kernel⟩,
   ⟨{ rid := 0#12, kind := 1#8, min := false, sat := false, down := false, first := 0#32, src := 0#32, step := 0#64, vals := [] }, 0, 0, (State.modUx State.reset (fun u => { u with slots := [(0, { opk := 0, expect := 0, n := 0, step := none, seen := [(0#32, 0#32)], ports := [], given := [], vals := [], mismatch := false, sent := false, downs := [], down := 0, qid := 0 })] })), by dsimp only; decide +kernel⟩,
   ⟨0, 0, (State.modUx State.reset (fun u => { u with held := [({ rid := 0#12, kind := 0#8, min := false, sat := false, down := false, first := 0#32, src := 0#32, step := 0#64, vals := [] }, 0)] })), by dsimp only; decide +kernel⟩,
   ⟨5, (State.mod State.reset .el (fun b => { b with qops := [{ id := 5, queue := QueueId.ledger, kind := QKind.dmago 0 0, pc := 0, core := 0, k := 0, amt := 0, entries := 0, started := false }] })), by decide +kernel⟩,
   ⟨0, (State.mod State.reset .el (fun b => { b with qops := [{ id := 0, queue := QueueId.ledg, kind := QKind.spass 0 0 0 false, pc := 0, core := 0, k := 0, amt := 0, entries := 0, started := true }] })), by decide +kernel⟩,
   ⟨{ rid := 0#12, kind := 2#8, min := false, sat := false, down := true, first := 0#32, src := 0#32, step := 0#64, vals := [] }, 0, (State.modUx State.reset (fun u => { u with slots := [(0, { opk := 0, expect := 0, n := 0, step := none, seen := [], ports := [], given := [], vals := [], mismatch := false, sent := false, downs := [], down := 0, qid := 0 })] })), by dsimp only; decide +kernel⟩,
   ⟨0, (State.modUx State.reset (fun u => { u with groups := [(0, { members := [], expect := [], step := none, got := [(0, XchkMsg.overflow)], sent := false, qid := 0 })] })), by decide +kernel⟩⟩

theorem test_hyps_Reductions_part3 :
    (∃ (m : RedMsg) (lane : Fin 160) (s : State), let rid := m.rid.toNat; let at' := slotAt s.ux.slots rid; s.absorbed lane = false ∧ m.kind.toNat ≤ 2 ∧ m.down = false ∧ ((match at' with | some t => let fresh : Slot := { t with step := some m.step, seen := t.seen ++ [(m.src, m.first)], ports := if t.ports.contains lane.val then t.ports else t.ports ++ [lane.val] }; let joined := ((List.range m.vals.length).map (fun j => (m.first.toNat + j, m.vals.getD j 0))).foldl (fun a v => slotValue m.src a v.1 v.2) fresh; decide (redMatch t.opk m = true ∧ (t.step = none ∨ t.step = some m.step) ∧ t.sent = false ∧ t.seen.contains (m.src, m.first) = false ∧ joined.full = false) | _ => false) = true))
    ∧ (∃ (m : RedMsg) (lane : Fin 160) (s : State), let rid := m.rid.toNat; let at' := slotAt s.ux.slots rid; s.absorbed lane = false ∧ m.kind.toNat ≤ 2 ∧ m.down = false ∧ ((match at' with | some t => decide (redMatch t.opk m = true ∧ t.step.isSome = true ∧ t.step ≠ some m.step) | _ => false) = true))
    ∧ (∃ (lane : Fin 160) (s : State), s.absorbed lane = true)
    ∧ (∃ (m : RedMsg) (lane : Fin 160) (s : State), let rid := m.rid.toNat; let at' := slotAt s.ux.slots rid; s.absorbed lane = false ∧ m.kind.toNat ≤ 2 ∧ m.down = false ∧ ((match at' with | some t => decide (redMatch t.opk m = true ∧ (t.step = none ∨ t.step = some m.step) ∧ (t.sent = true ∨ t.seen.contains (m.src, m.first) = true)) | _ => false) = true)) :=
  ⟨⟨{ rid := 0#12, kind := 0#8, min := false, sat := false, down := false, first := 0#32, src := 0#32, step := 0#64, vals := [] }, 0, (State.modUx (State.modUx State.reset (fun u => { u with slots := [(0, { opk := 1, expect := 0, n := 124, step := none, seen := [(0xffffffff#32, 0xffffffff#32), (0#32, 6#32)], ports := [], given := [(0, [0x174c#32]), (4096, [])], vals := [(1, 0), (97, 0), (141, 0)], mismatch := false, sent := false, downs := [(0#32, 0#32), (0#32, 0#32), (0#32, 1#32)], down := 0, qid := 193 }), (1, { opk := 1278, expect := 0, n := 0, step := none, seen := [], ports := [], given := [(2, [87#32])], vals := [(1, 7)], mismatch := true, sent := true, downs := [(1#32, 0xffff#32), (7#32, 214#32)], down := 10, qid := 1570 }), (8, { opk := 1, expect := 1781, n := 0, step := none, seen := [(0#32, 0x10000#32), (0#32, 0#32)], ports := [], given := [(65, [0#32, 0xffffffff#32])], vals := [(0, -9), (3, -31), (7, 218)], mismatch := true, sent := false, downs := [(2#32, 187#32), (76#32, 210#32)], down := 65536, qid := 3 })] })) (fun u => { u with relayFrom := [] })), by dsimp only; decide +kernel⟩,
   ⟨{ rid := 5#12, kind := 0#8, min := false, sat := false, down := false, first := 0#32, src := 0#32, step := 0#64, vals := [] }, 0, (State.modLane (State.mod (State.mod (State.modUx State.reset (fun u => { u with slots := [(5, { opk := 1, expect := 4623, n := 1, step := some 3#64, seen := [(0#32, 0xed5#32)], ports := [1], given := [(0, [0x20000#32])], vals := [], mismatch := false, sent := false, downs := [(1#32, 0#32), (0x1403#32, 0#32)], down := 65536, qid := 1 }), (105, { opk := 0, expect := 3, n := 91, step := none, seen := [(0#32, 0xffffffff#32), (0#32, 0xffffffff#32), (0#32, 0xffffffff#32)], ports := [0], given := [(0, [0#32, 0#32, 0xef6#32])], vals := [(0, 0), (14, -133)], mismatch := true, sent := false, downs := [], down := 58, qid := 6 }), (144, { opk := 0, expect := 2947, n := 1, step := none, seen := [], ports := [], given := [(17, [2#32, 255#32]), (97, [])], vals := [], mismatch := true, sent := true, downs := [(0#32, 0#32)], down := 131072, qid := 4412 })] })) .el (fun b => { b with secBytes := [(65535, 0#8)] })) .ux (fun b => { b with secBytes := [(131072, 255#8), (1, 7#8)] })) .el 0 (fun b => { b with shown := [] })), by dsimp only; decide +kernel⟩,
   ⟨0, (State.modUx (State.modUx (State.mod (State.modLane (State.modUx (State.put State.reset .ux Reg.UX_LOCK_CTRL_EN 1) (fun u => { u with todNext := [(0, 0)] })) .ux 0 (fun b => { b with shown := [(0, 0), (0, 0)] })) .ux (fun b => { b with selftest := { action := 0, mask := 0, force := true, logged := false } })) (fun u => { u with tripped := true })) (fun u => { u with bars := [(0, { gen := 0, isOpen := false, scope := 0, expect := [0, 0, 0], arrived := [{ pos := 0, gen := 0#16, scope := 0, relayed := false }, { pos := 0, gen := 0#16, scope := 0, relayed := true }], next := [{ pos := 0, gen := 0#16, scope := 0, relayed := false }, { pos := 0, gen := 0#16, scope := 0, relayed := false }, { pos := 0, gen := 0#16, scope := 0, relayed := false }], armed := some 0, sentUp := false, qid := some 0, last := [(0, 0), (0, 0)] }), (0, { gen := 0, isOpen := true, scope := 0, expect := [0, 0, 0], arrived := [{ pos := 0, gen := 0#16, scope := 0, relayed := true }, { pos := 0, gen := 0#16, scope := 0, relayed := true }], next := [{ pos := 0, gen := 0#16, scope := 0, relayed := true }], armed := none, sentUp := true, qid := none, last := [(0, 0), (129, 5)] }), (128, { gen := 1375, isOpen := true, scope := 65535, expect := [7, 0, 0], arrived := [], next := [{ pos := 6, gen := 0#16, scope := 9, relayed := false }], armed := some 65535, sentUp := true, qid := none, last := [(45, 0), (66, 6), (144, 4388)] })] })), by decide +kernel⟩,
   ⟨{ rid := 0#12, kind := 0#8, min := false, sat := false, down := false, first := 0#32, src := 0#32, step := 0#64, vals := [] }, 0, (State.modSeq (State.mod (State.mod (State.modUx (State.modUx (State.modUx State.reset (fun u => { u with slots := [(0, { opk := 1, expect := 1400, n := 5, step := none, seen := [(7#32, 0#32), (7#32, 1#32), (0xb5b#32, 0#32)], ports := [3, 1], given := [(0, []), (129, [0#32, 67#32, 0#32])], vals := [(3, 5), (4096, 0)], mismatch := true, sent := true, downs := [(1#32, 0x1000#32)], down := 0, qid := 0 }), (1, { opk := 0, expect := 2, n := 1, step := none, seen := [], ports := [0], given := [], vals := [(1, 2)], mismatch := true, sent := false, downs := [(0xffffffff#32, 66#32)], down := 0, qid := 4 }), (43, { opk := 3954, expect := 134, n := 258, step := some 2#64, seen := [(3#32, 0#32), (1#32, 256#32)], ports := [0, 4096], given := [(0, [0#32]), (2, [5#32, 1#32, 0xcd5#32]), (3, [71#32, 0xffffffff#32, 7#32])], vals := [(0, -1)], mismatch := true, sent := true, downs := [(2#32, 0x20000#32), (5#32, 0#32), (48#32, 124#32)], down := 0, qid := 5 })] })) (fun u => { u with hallLsis := [0] })) (fun u => { u with dpll := { u.dpll with upState := 2 } })) .ux (fun b => { b with hallKey := [185#8, 246#8] })) .el (fun b => { b with attPend := none })) .el (fun b => { b with pairs := [{ core := 0, prod := 4096, cons := 1, cap := 1 }, { core := 0, prod := 0, cons := 0, cap := 3962 }] })), by dsimp only; decide +kernel⟩⟩

theorem test_hyps_CrossChecks :
    (∃ (rid : BitVec 12) (lane : Fin 160) (g : XGroup) (s : State), let r := rid.toNat; s.absorbed lane = false ∧ groupAt s.ux.groups r = none ∧ (groupAt s.ux.groups r = none ∨ (groupAt s.ux.groups r = some g ∧ g.sent = false)) ∧ s.xchkOp r = none)
    ∧ (∃ (rid : BitVec 12) (lane : Fin 160) (s : State), let r := rid.toNat; s.absorbed lane = false ∧ ((match groupAt s.ux.groups r with | some g => decide ((g.sent = true ∨ 128 ≤ lane.val ∨ g.got.any (fun e => e.1 == lane.val) = true)) | _ => false) = true) ∧ ((match groupAt s.ux.groups r with | some g => decide (g.sent = true) | _ => false) = true))
    ∧ (∃ (lane : Fin 160) (s : State), s.absorbed lane = true)
    ∧ (∃ (rid : BitVec 12) (lane : Fin 160) (step : Word) (m : XchkMsg) (s : State), let r := rid.toNat; s.absorbed lane = false ∧ ((match groupAt s.ux.groups r with | some g => let g' : XGroup := { g with step := some (g.step.getD step), expect := if g.expect.contains lane.val then g.expect else g.expect ++ [lane.val], got := g.got ++ [(lane.val, m)] }; decide (g.sent = false ∧ lane.val < 128 ∧ g.got.any (fun e => e.1 == lane.val) = false ∧ s.groupFull g' = true ∧ s.tier = 2) | _ => false) = true))
    ∧ (∃ (rid : BitVec 12) (maj : Option HistEntry) (g : XGroup) (o : QOp) (own : HistEntry) (s : State), let r := rid.toNat; (groupAt s.ux.groups r = none ∨ (groupAt s.ux.groups r = some g ∧ g.sent = false)) ∧ s.xchkOp r = some (o, own) ∧ ((match maj with | some e => decide (e.fp = own.fp ∧ e.blocks = own.blocks) | _ => false) = true))
    ∧ (∃ (rid : BitVec 12) (maj : Option HistEntry) (g : XGroup) (o : QOp) (own : HistEntry) (s : State), let r := rid.toNat; (groupAt s.ux.groups r = none ∨ (groupAt s.ux.groups r = some g ∧ g.sent = false)) ∧ s.xchkOp r = some (o, own) ∧ (∀ e, maj = some e → ¬ (e.fp = own.fp ∧ e.blocks = own.blocks)) ∧ (s.seq .el).pairs = [])
    ∧ (∃ (rid : BitVec 12) (lane : Fin 160) (step : Word) (m : XchkMsg) (s : State), let r := rid.toNat; s.absorbed lane = false ∧ ((match groupAt s.ux.groups r with | some g => let g' : XGroup := { g with step := some (g.step.getD step), expect := if g.expect.contains lane.val then g.expect else g.expect ++ [lane.val], got := g.got ++ [(lane.val, m)] }; decide (g.sent = false ∧ lane.val < 128 ∧ g.got.any (fun e => e.1 == lane.val) = false ∧ s.groupFull g' = false) | _ => false) = true))
    ∧ (∃ (rid : BitVec 12) (lane : Fin 160) (step : Word) (m : XchkMsg) (s : State), let r := rid.toNat; s.absorbed lane = false ∧ ((match groupAt s.ux.groups r with | some g => let g' : XGroup := { g with step := some (g.step.getD step), expect := if g.expect.contains lane.val then g.expect else g.expect ++ [lane.val], got := g.got ++ [(lane.val, m)] }; decide (g.sent = false ∧ lane.val < 128 ∧ g.got.any (fun e => e.1 == lane.val) = false ∧ s.groupFull g' = true ∧ s.tier ≠ 2) | _ => false) = true)) :=
  ⟨⟨0#12, 0, { members := [], expect := [], step := none, got := [], sent := false, qid := 0 }, State.reset, by dsimp only; decide +kernel⟩,
   ⟨0#12, 0, (State.modUx State.reset (fun u => { u with groups := [(0, { members := [], expect := [], step := none, got := [], sent := true, qid := 0 })] })), by dsimp only; decide +kernel⟩,
   ⟨0, (State.put State.reset .ux Reg.UX_LOCK_CTRL_EN 1), by decide +kernel⟩,
   ⟨0#12, 0, 0#64, XchkMsg.hist [], (State.modUx (State.put State.reset .ux Reg.UX_IDENT_ROLE_TIER 2) (fun u => { u with groups := [(0, { members := [], expect := [], step := none, got := [], sent := false, qid := 0 })], lsiPort := [] })), by dsimp only; decide +kernel⟩,
   ⟨0#12, some { fp := 4#64, blocks := 2#32, count := 0 }, { members := [], expect := [], step := none, got := [], sent := false, qid := 0 }, { id := 4, queue := QueueId.chk, kind := QKind.xchk 0 1 (some { fp := 4#64, blocks := 2#32, count := 1 }), pc := 2, core := 0, k := 1, amt := 1, entries := 1, started := true }, { fp := 4#64, blocks := 2#32, count := 1 }, (State.mod State.reset .el (fun b => { b with qops := [({ id := 4, queue := .chk, kind := .xchk 0 1 (some { fp := 4, blocks := 2, count := 1 }), pc := 2, core := 0, k := 1, amt := 1, entries := 1, started := true } : QOp)] })), by dsimp only; decide +kernel⟩,
   ⟨0#12, none, { members := [], expect := [], step := none, got := [], sent := false, qid := 0 }, { id := 4, queue := QueueId.chk, kind := QKind.xchk 0 1 (some { fp := 4#64, blocks := 2#32, count := 1 }), pc := 2, core := 0, k := 1, amt := 1, entries := 1, started := true }, { fp := 4#64, blocks := 2#32, count := 1 }, (State.mod State.reset .el (fun b => { b with qops := [({ id := 4, queue := .chk, kind := .xchk 0 1 (some { fp := 4, blocks := 2, count := 1 }), pc := 2, core := 0, k := 1, amt := 1, entries := 1, started := true } : QOp)] })), by dsimp only; decide +kernel⟩,
   ⟨3#12, 127, 0#64, XchkMsg.hist [], (State.mod (State.modUx State.reset (fun u => { u with groups := [(3, { members := [0, 1094, 0], expect := [2], step := none, got := [], sent := false, qid := 7 })] })) .el (fun b => { b with hallArm := true })), by dsimp only; decide +kernel⟩,
   ⟨0#12, 127, 0#64, XchkMsg.hist [], (State.modUx State.reset (fun u => { u with groups := [(0, { members := [], expect := [], step := none, got := [], sent := false, qid := 0 })] })), by dsimp only; decide +kernel⟩⟩

theorem test_hyps_LedgerAndSeal_part1 :
    (∃ (lane : Fin 128) (x : Fin 160) (ord : BitVec 32) (r : LedgerRec) (step : Word) (s : State), let group := r.tensor.toNat / 128 % 32; let pos := s.ledgPos r.step.toNat lane group; let i := s.ledgIndex pos; s.tier = 0 ∧ s.ux.accepted.contains (lane.val, r.step, ord.toNat) = false ∧ s.bit .ux Reg.UX_LOCK_CTRL_EN = false ∧ r.kind.toNat ≤ 5 ∧ s.memOk ∧ i.valid = false ∧ s.absorbed x = false ∧ s.tier ≠ 2 ∧ isSealedBy (s.reg .el Reg.CHK_SEAL_LAST.off) step = false ∧ (s.seq .el).pairs = [] ∧ (s.tier = 2 ∨ s.sealTaken step = true))
    ∧ (∃ (x : Fin 160) (s : State), let open' := s.bit .ux Reg.UX_SEAL_FAIL_PENDING = false ∧ s.bit .ux Reg.UX_HC_STAT_ROLLBACK = false; s.tier ≠ 0 ∧ s.absorbed x = false ∧ s.tier = 2 ∧ open' ∧ s.ux.lseals = [])
    ∧ (∃ (x : Fin 160) (step : Word) (s : State), s.absorbed x = true ∧ s.tier ≠ 2 ∧ s.sealTaken step = false)
    ∧ (∃ (step : Word) (s : State), isSealedBy (s.reg .el Reg.CHK_SEAL_LAST.off) step = true)
    ∧ (∃ (lane : Fin 128) (ord : BitVec 32) (r : LedgerRec) (s : State), s.tier = 0 ∧ s.ux.accepted.contains (lane.val, r.step, ord.toNat) = true)
    ∧ (∃ (lane : Fin 128) (r : LedgerRec) (prev : Word) (p : List Byte) (l : Nat) (s : State), (let group := r.tensor.toNat / 128 % 32; let pos := s.ledgPos r.step.toNat lane group; let i := s.ledgIndex pos; let held := (List.range 32).any (fun g => let i := s.ledgIndex (s.ledgPos prev.toNat l g); i.valid && i.step == prev.toNat); let bad := held && s.chainDigests prev.toNat l p != (List.range 4).map (fun j => s.hbm (s.digestAddr prev.toNat l j) 48); decide (s.ux.chainLog = [(l, prev.toNat, p)] ∧ bad = false)) = true)
    ∧ (∃ (x : Fin 160) (lsi : BitVec 20) (step : Word) (q : Nat) (s : State), let last := s.reg .ux Reg.UX_SEAL_STAT_LAST.off; let open' := s.bit .ux Reg.UX_SEAL_FAIL_PENDING = false ∧ s.bit .ux Reg.UX_HC_STAT_ROLLBACK = false; s.absorbed x = false ∧ s.tier = 2 ∧ open' ∧ s.ux.lseals = [(step, q)] ∧ step = last + 1 ∧ s.ux.hallLsis.all (fun x => x == lsi.toNat || s.ux.passVotes.contains (x, step)) = true ∧ (∀ e ∈ Config.hallMembers s.draws, e.2 = lsi.toNat ∨ s.ux.passVotes.contains (e.2, step) = true))
    ∧ (∃ (lane : Fin 128) (ord : BitVec 32) (r : LedgerRec) (s : State), let group := r.tensor.toNat / 128 % 32; let pos := s.ledgPos r.step.toNat lane group; let i := s.ledgIndex pos; s.tier = 0 ∧ s.ux.accepted.contains (lane.val, r.step, ord.toNat) = false ∧ s.bit .ux Reg.UX_LOCK_CTRL_EN = false ∧ r.kind.toNat ≤ 5 ∧ s.memOk ∧ i.valid = true ∧ i.step = r.step.toNat ∧ i.count < 128) :=
  ⟨⟨0, 0, 0#32, { step := 0#64, fp := 0#64, blocks := 0#32, mism := 0#32, tensor := 0#16, kind := 0#8, flags := 0#8, lsi := 0#32 }, 0xffffffffffffffff#64, State.reset, by simp only [alone_iff, Within, State.memOk, State.guardFree]; and_intros <;> decide +kernel⟩,
   ⟨0, (State.put State.reset .ux Reg.UX_IDENT_ROLE_TIER 2), by dsimp only; decide +kernel⟩,
   ⟨1, 0#64, (State.put (State.put State.reset .ux Reg.UX_LOCK_CTRL_EN 1) .ux Reg.UX_LOCK_CTRL_SHD 1), by decide +kernel⟩,
   ⟨0#64, (State.put State.reset .el Reg.CHK_SEAL_LAST 0), by decide +kernel⟩,
   ⟨1, 0#32, { step := 5#64, fp := 0#64, blocks := 0#32, mism := 0#32, tensor := 0#16, kind := 0#8, flags := 0#8, lsi := 0#32 }, (State.modUx State.reset (fun u => { u with accepted := [(1, 5, 0)] })), by decide +kernel⟩,
   ⟨0, { step := 0#64, fp := 0#64, blocks := 0#32, mism := 0#32, tensor := 0#16, kind := 0#8, flags := 0#8, lsi := 0#32 }, 5#64, (List.replicate 48 0), 1, (State.modUx State.reset (fun u => { u with chainLog := [(1, 5, List.replicate 48 0)] })), by decide +kernel⟩,
   ⟨2, 0, 0, 2, ((State.reset.put .ux Reg.UX_IDENT_ROLE_TIER 2).modUx (fun u => { u with lseals := [(0, 2)], passVotes := (Config.hallMembers 0).map (fun e => (e.2, 0)) })), by
    dsimp only; refine ⟨by decide +kernel, by decide +kernel, by decide +kernel, by decide +kernel, by decide +kernel, by decide +kernel, fun e he => .inr ?_⟩
    exact List.contains_iff_mem.2 (List.mem_map.2 ⟨e, he, rfl⟩)⟩,
   ⟨1, 0#32, { step := 5#64, fp := 0#64, blocks := 0#32, mism := 0#32, tensor := 0#16, kind := 1#8, flags := 0#8, lsi := 0#32 }, (State.setIndex State.reset (State.ledgPos State.reset 5 1 0) (({ step := 5, count := 3, lane := 0, group := 0, isSealed := false, ovf := false, valid := true } : LedgIndex))), by simp only [alone_iff, Within, State.memOk, State.guardFree]; and_intros <;> decide +kernel⟩⟩

theorem test_hyps_LedgerAndSeal_part2 : ∃ (x : Fin 160) (s : State), let open' := s.bit .ux Reg.UX_SEAL_FAIL_PENDING = false ∧ s.bit .ux Reg.UX_HC_STAT_ROLLBACK = false; s.absorbed x = false ∧ s.tier = 2 ∧ (¬ open') :=
  ⟨0, (State.put (State.put State.reset .ux Reg.UX_HC_STAT_ROLLBACK 1) .ux Reg.UX_IDENT_ROLE_TIER 2), by dsimp only; decide +kernel⟩

theorem test_hyps_Heartbeats_part1 :
    (∃ (m : Hb) (x : Subj) (nth : Fin 4) (s : State), let st := s.codeOf m.subj; let quiet := m.parity = 0 ∧ m.slipOver = 0 ∧ m.transient = 0 ∧ m.permanent = 0 ∧ m.stepMissed = false ∧ m.dieFatal = false; let asked := (s.obsOf x).asked = true ∧ s.codeOf x = 4; (s.guard .el).hbStopped = false ∧ s.tier = 0 ∧ st ≠ 5 ∧ quiet ∧ (nth ≠ 3 ∨ s.codeOf x ≠ 3) ∧ (¬ asked))
    ∧ (∃ (x : Subj) (age : BitVec 32) (s : State), let asked := (s.obsOf x).asked = true ∧ s.codeOf x = 4; asked ∧ age.toNat < 30000)
    ∧ (∃ (x : Subj) (age : BitVec 32) (s : State), let asked := (s.obsOf x).asked = true ∧ s.codeOf x = 4; asked ∧ 30000 ≤ age.toNat)
    ∧ (∃ (lane : Fin 160) (m : Hb) (x : Subj) (s : State), let st := s.codeOf m.subj; let pts := 32 * m.transient.toNat + (m.parity.toNat + 4 * m.slipOver.toNat); let h := fun (u : State) => u.get .ux (Reg.UX_LANE_HC_HEALTH lane); s.tier = 0 ∧ lane.val < 128 ∧ m.subj = dieSubj (s.pdiOf lane) ∧ s.member (s.pdiOf lane) = 3 ∧ st = 3 ∧ m.permanent = 0 ∧ m.stepMissed = false ∧ m.dieFatal = false ∧ h s + pts < 256 ∧ h s + pts < s.get .ux Reg.UX_HC_CTRL_WATCH ∧ h s + pts < s.get .ux Reg.UX_HC_CTRL_PROB ∧ h s + pts < s.get .ux Reg.UX_HC_CTRL_EXPEL ∧ s.codeOf x = 3 ∧ x.tier = 0)
    ∧ (∃ (s : State), s.tier = 1)
    ∧ (∃ (s : State), 2 ≤ s.tier)
    ∧ (∃ (x : Subj) (s : State), s.codeOf x = 3 ∧ x.tier ≠ 0)
    ∧ (∃ (s : State), (s.guard .el).hbStopped = true) :=
  ⟨⟨{ subj := { tier := 0, pdi := 0#20 }, step := 0#32, epoch := 0#32, parity := 0#16, slipOver := 0#8, transient := 0#8, permanent := 0#8, stepMissed := false, dieFatal := false }, { tier := 0, pdi := 0#20 }, 0, State.reset, by dsimp only; decide +kernel⟩,
   ⟨{ tier := 0, pdi := 0#20 }, 0x752f#32, (State.setObs (State.modUx State.reset (fun u => { u with members := [(0, 4)] })) (dieSubj 0) { heard := false, at' := 0, age := 0, misses := 0, asked := true }), by dsimp only; decide +kernel⟩,
   ⟨{ tier := 0, pdi := 0#20 }, 0x7530#32, (State.setObs (State.modUx State.reset (fun u => { u with members := [(0, 4)] })) (dieSubj 0) { heard := false, at' := 0, age := 0, misses := 0, asked := true }), by dsimp only; decide +kernel⟩,
   ⟨0, { subj := { tier := 0, pdi := 0#20 }, step := 0#32, epoch := 0#32, parity := 0#16, slipOver := 0#8, transient := 1#8, permanent := 0#8, stepMissed := false, dieFatal := false }, { tier := 0, pdi := 0#20 }, (State.modUx State.reset (fun u => { u with members := [(0, 3)] })), by dsimp only; decide +kernel⟩,
   ⟨(State.put State.reset .ux Reg.UX_IDENT_ROLE_TIER 1), by decide +kernel⟩,
   ⟨(State.put State.reset .ux Reg.UX_IDENT_ROLE_TIER 2), by decide +kernel⟩,
   ⟨{ tier := 1, pdi := 0#20 }, (State.modUx State.reset (fun u => { u with members := [(subjKey { tier := 1, pdi := 0 }, 3)] })), by decide +kernel⟩,
   ⟨(State.modGuard State.reset .el (fun b => { b with hbStopped := true })), by decide +kernel⟩⟩

theorem test_hyps_Heartbeats_part2 :
    (∃ (m : Hb) (s : State), let st := s.codeOf m.subj; st = 5)
    ∧ (∃ (m : Hb) (s : State), let st := s.codeOf m.subj; s.authority = true ∧ s.ux.rollback = none ∧ m.subj.tier = 0 ∧ st ≠ 5 ∧ (m.stepMissed = true ∨ m.dieFatal = true)) :=
  ⟨⟨{ subj := { tier := 0, pdi := 0#20 }, step := 0#32, epoch := 0#32, parity := 0#16, slipOver := 0#8, transient := 0#8, permanent := 0#8, stepMissed := false, dieFatal := false }, (State.modUx State.reset (fun u => { u with members := [(0, 5)] })), by dsimp only; decide +kernel⟩,
   ⟨{ subj := { tier := 0, pdi := 0#20 }, step := 0#32, epoch := 0#32, parity := 0#16, slipOver := 0#8, transient := 0#8, permanent := 0#8, stepMissed := false, dieFatal := true }, (State.put State.reset .ux Reg.UX_IDENT_ROLE_TIER 2), by dsimp only; decide +kernel⟩⟩

theorem test_hyps_Decisions_part1 :
    (∃ (m : ProposeMsg) (v : VoteMsg) (d : DecisionMsg) (x : Subj) (s : State), let own := d.subj = dieSubj s.myPdi; m.kind.toNat ≤ 7 ∧ s.counts m.subj = false ∧ s.counts v.subj = false ∧ s.openProposal x = none ∧ (¬ own) ∧ d.kind ≠ 2 ∧ (d.kind ≠ 1 ∨ d.arg0.toNat ≠ s.myPdi) ∧ (d.kind = 0 ∨ 7 < d.kind.toNat) ∧ s.authority = false ∧ x ≠ dieSubj s.myPdi)
    ∧ (∃ (m : ProposeMsg) (v : VoteMsg) (w : Word) (s : State), let mine := s.myPdi = fget w 19 0 ∧ (s.get .el Reg.HC_STAT_STATE = 5 ∨ s.get .el Reg.HC_STAT_STATE = 6); let y := dieSubj (fget w 19 0); let c := s.codeOf y; 7 < m.kind.toNat ∧ s.counts v.subj = true ∧ (v.yes = false ∨ s.codeOf v.subj = 5 ∨ s.decided v.subj v.epoch = true) ∧ s.authority = true ∧ hcRefused w = false ∧ c ≠ 5 ∧ c ≠ 6 ∧ (¬ mine) ∧ (c = 0 ∨ inMembers c = true))
    ∧ (∃ (d : DecisionMsg) (s : State), let expels := d.kind = 1 ∨ d.kind = 2 ∨ d.kind = 3 ∨ d.kind = 7; let own := d.subj = dieSubj s.myPdi; own ∧ expels ∧ d.subj.tier = 0 ∧ (d.kind = 1 ∨ d.kind = 3 ∨ d.kind = 7))
    ∧ (∃ (m : ProposeMsg) (v : VoteMsg) (w : Word) (s : State), let y := dieSubj (fget w 19 0); let c := s.codeOf y; m.kind.toNat ≤ 7 ∧ s.counts m.subj = true ∧ s.codeOf m.subj ≠ 5 ∧ s.decided m.subj m.epoch = false ∧ m.hard = true ∧ s.openProposal m.subj = none ∧ s.counts v.subj = true ∧ v.yes = true ∧ s.codeOf v.subj ≠ 5 ∧ s.decided v.subj v.epoch = false ∧ s.openProposal v.subj = none ∧ s.authority = true ∧ hcRefused w = false ∧ (c = 5 ∨ c = 6) ∧ s.ux.rollback = none ∧ c ≠ 0 ∧ inMembers c = false)
    ∧ (∃ (x : Subj) (s : State), x = dieSubj s.myPdi)
    ∧ (∃ (d : DecisionMsg) (s : State), let own := d.subj = dieSubj s.myPdi; (¬ own) ∧ d.kind = 1 ∧ d.arg0.toNat = s.myPdi)
    ∧ (∃ (d : DecisionMsg), d.kind = 4)
    ∧ (∃ (w : Word) (s : State), s.authority = true ∧ hcRefused w = true) :=
  ⟨⟨{ subj := { tier := 0, pdi := 0#20 }, kind := 7#8, hard := false, domain := 0#8, ageP := 0#32, ageT := 0#32, epoch := 0#32, origin := { tier := 0, pdi := 0#20 } }, { subj := { tier := 0, pdi := 0#20 }, kind := 0#8, yes := false, epoch := 0#32, origin := { tier := 0, pdi := 0#20 } }, { subj := { tier := 0, pdi := 1#20 }, kind := 0#8, arg0 := 0#32, target := 0#64, epoch := 0#32 }, { tier := 0, pdi := 4#20 }, State.reset, by dsimp only; decide +kernel⟩,
   ⟨{ subj := { tier := 0, pdi := 0#20 }, kind := 255#8, hard := false, domain := 0#8, ageP := 0#32, ageT := 0#32, epoch := 0#32, origin := { tier := 0, pdi := 0#20 } }, { subj := { tier := 0, pdi := 0#20 }, kind := 0#8, yes := false, epoch := 0#32, origin := { tier := 0, pdi := 0#20 } }, 0#64, (State.put State.reset .ux Reg.UX_IDENT_ROLE_TIER 2), by dsimp only; decide +kernel⟩,
   ⟨{ subj := { tier := 0, pdi := 0#20 }, kind := 1#8, arg0 := 0#32, target := 0#64, epoch := 0#32 }, State.reset, by dsimp only; decide +kernel⟩,
   ⟨{ subj := { tier := 0, pdi := 0#20 }, kind := 7#8, hard := true, domain := 0#8, ageP := 0#32, ageT := 0#32, epoch := 0#32, origin := { tier := 0, pdi := 0#20 } }, { subj := { tier := 0, pdi := 0#20 }, kind := 0#8, yes := true, epoch := 0#32, origin := { tier := 0, pdi := 0#20 } }, 0x100005#64, (State.modUx (State.put State.reset .ux Reg.UX_IDENT_ROLE_TIER 2) (fun u => { u with members := [(5, 5)] })), by dsimp only; decide +kernel⟩,
   ⟨{ tier := 0, pdi := 0#20 }, State.reset, by decide +kernel⟩,
   ⟨{ subj := { tier := 0, pdi := 5#20 }, kind := 1#8, arg0 := 0#32, target := 2#64, epoch := 0#32 }, State.reset, by dsimp only; decide +kernel⟩,
   ⟨{ subj := { tier := 0, pdi := 0#20 }, kind := 4#8, arg0 := 0#32, target := 0#64, epoch := 0#32 }, by decide +kernel⟩,
   ⟨0xffffffffffffffff#64, (State.put State.reset .ux Reg.UX_IDENT_ROLE_TIER 2), by decide +kernel⟩⟩

theorem test_hyps_Decisions_part2 :
    (∃ (x : Subj) (s : State), ((match s.openProposal x with | some p => (match p.msg with | some m => true | _ => false) | _ => false) = true) ∧ ((match s.openProposal x with | some p => (match p.msg with | some m => decide (s.counts x = true ∧ (m.hard = true ∨ (30000 ≤ m.ageP.toNat ∧ 30000 ≤ m.ageT.toNat))) | _ => false) | _ => false) = true))
    ∧ (∃ (w : Word) (s : State), let mine := s.myPdi = fget w 19 0 ∧ (s.get .el Reg.HC_STAT_STATE = 5 ∨ s.get .el Reg.HC_STAT_STATE = 6); s.authority = true ∧ hcRefused w = false ∧ mine ∧ s.ux.rollback = none)
    ∧ (∃ (x : Subj) (s : State), ((match s.openProposal x with | some p => (match p.msg with | some m => decide ((s.counts x = false ∨ (m.hard = false ∧ (m.ageP.toNat < 30000 ∨ m.ageT.toNat < 30000)))) | _ => false) | _ => false) = true))
    ∧ (∃ (m : ProposeMsg) (s : State), m.kind.toNat ≤ 7 ∧ s.counts m.subj = true ∧ s.codeOf m.subj ≠ 5 ∧ s.decided m.subj m.epoch = false ∧ m.hard = true ∧ ((match s.openProposal m.subj with | some p => decide (p.yes ≠ [] ∧ p.yes.contains m.origin = false) | _ => false) = true))
    ∧ (∃ (m : ProposeMsg) (s : State), m.kind.toNat ≤ 7 ∧ s.counts m.subj = true ∧ (s.codeOf m.subj = 5 ∨ s.decided m.subj m.epoch = true))
    ∧ (∃ (v : VoteMsg) (s : State), s.counts v.subj = true ∧ v.yes = true ∧ s.codeOf v.subj ≠ 5 ∧ s.decided v.subj v.epoch = false ∧ ((match s.openProposal v.subj with | some p => decide (p.msg.isSome = true ∧ p.yes ≠ [] ∧ p.yes.contains v.origin = false) | _ => false) = true)) :=
  ⟨⟨{ tier := 0, pdi := 1#20 }, (State.modUx (State.put State.reset .ux Reg.UX_IDENT_ROLE_TIER 2) (fun u => { u with proposals := [{ subj := { tier := 0, pdi := 1 }, msg := some { subj := { tier := 0, pdi := 0 }, kind := 0, hard := true, domain := 0, ageP := 0, ageT := 0, epoch := 0, origin := { tier := 0, pdi := 0 } }, yes := [], settled := none }] })), by decide +kernel⟩,
   ⟨0#64, (State.put (State.put (State.modUx (State.modEl (State.put (State.mod (State.mod (State.put State.reset .el Reg.HC_STAT_STATE 5) .el (fun b => { b with staged := [(139, 296#64)] })) .el (fun b => { b with staged := [] })) .ux Reg.HC_STAT_STATE 7) (fun e => { e with followLane := 0 })) (fun u => { u with rollback := none })) .ux Reg.UX_HC_STAT_AUTHORITY 1) .ux Reg.UX_IDENT_ROLE_TIER 2), by dsimp only; decide +kernel⟩,
   ⟨{ tier := 1, pdi := 0#20 }, (State.modUx State.reset (fun u => { u with proposals := [ { subj := { tier := 1, pdi := 0#20 }, msg := some { subj := { tier := 0, pdi := 0#20 }, kind := 0#8, hard := false, domain := 0#8, ageP := 0#32, ageT := 0#32, epoch := 0#32, origin := { tier := 0, pdi := 0#20 } }, yes := [], settled := none }] })), by decide +kernel⟩,
   ⟨{ subj := { tier := 0, pdi := 1#20 }, kind := 1#8, hard := true, domain := 0#8, ageP := 0#32, ageT := 0#32, epoch := 0#32, origin := { tier := 0, pdi := 0#20 } }, (State.put (State.modUx (State.put (State.put (State.modUx State.reset (fun u => { u with proposals := [{ subj := { tier := 2, pdi := 523#20 }, msg := none, yes := [{ tier := 3, pdi := 0#20 }, { tier := 0, pdi := 0#20 }, { tier := 2, pdi := 0x20000#20 }], settled := none }, { subj := { tier := 0, pdi := 1#20 }, msg := some { subj := { tier := 2, pdi := 0#20 }, kind := 0#8, hard := true, domain := 255#8, ageP := 0xf6b#32, ageT := 0xffffffff#32, epoch := 0#32, origin := { tier := 0, pdi := 6#20 } }, yes := [{ tier := 2, pdi := 4#20 }, { tier := 1, pdi := 1#20 }, { tier := 3, pdi := 2#20 }], settled := none }] })) .ux Reg.UX_IDENT_ROLE_PLANE 1) .ux Reg.UX_IDENT_ROLE_TIER 2) (fun u => { u with members := [] })) .ux Reg.UX_LAUNCH_CTRL_BAR_PLANE 1), by decide +kernel⟩,
   ⟨{ subj := { tier := 1, pdi := 0#20 }, kind := 7#8, hard := false, domain := 0#8, ageP := 0#32, ageT := 0#32, epoch := 0#32, origin := { tier := 0, pdi := 0#20 } }, (State.put (State.put (State.modSeq (State.put (State.modUx (State.put (State.modUx State.reset (fun u => { u with proposals := [{ subj := { tier := 2, pdi := 74#20 }, msg := none, yes := [{ tier := 1, pdi := 0xfffff#20 }], settled := none }, { subj := { tier := 1, pdi := 0#20 }, msg := some { subj := { tier := 0, pdi := 6#20 }, kind := 0#8, hard := true, domain := 2#8, ageP := 8#32, ageT := 0#32, epoch := 0x1000#32, origin := { tier := 0, pdi := 37#20 } }, yes := [{ tier := 3, pdi := 0xf90#20 }, { tier := 0, pdi := 7#20 }, { tier := 2, pdi := 0x3e8#20 }], settled := some 0xffffffff#32 }] })) .ux Reg.UX_HC_STAT_EPOCH 0) (fun u => { u with slewFrom := 0 })) .ux Reg.UX_IDENT_ROLE_TIER 0) .el (fun b => { b with entry := 267 })) .ux Reg.UX_LAUNCH_CTRL_BAR_PLANE 0) .ux Reg.UX_IDENT_ROLE_TIER 2), by decide +kernel⟩,
   ⟨{ subj := { tier := 3, pdi := 0#20 }, kind := 0#8, yes := true, epoch := 0#32, origin := { tier := 1, pdi := 0#20 } }, (State.put (State.modUx State.reset (fun u => { u with proposals := [ { subj := { tier := 3, pdi := 0#20 }, msg := some { subj := { tier := 0, pdi := 0#20 }, kind := 0#8, hard := false, domain := 0#8, ageP := 0#32, ageT := 0#32, epoch := 0#32, origin := { tier := 0, pdi := 0#20 } }, yes := [{ tier := 0, pdi := 0#20 }], settled := none }] })) .ux Reg.UX_IDENT_ROLE_TIER 2), by decide +kernel⟩⟩

theorem test_hyps_RollbackAndVault_part1 :
    (∃ (seq : BitVec 32) (status : Byte) (m : VaultMsg) (s : State), let k := m.kind.toNat; let found := s.ux.paths.find? (fun c => c.seq == seq.toNat && c.status.isNone); s.authority = false ∧ s.bit .el Reg.GUARD_STAT_DIE_FATAL = false ∧ status ≠ 1 ∧ found = none ∧ (k = 0 ∨ 6 < k))
    ∧ (∃ (status : Byte) (lane : Fin 160) (m : VaultMsg) (s : State), let k := m.kind.toNat; let shadow := s.lockLane Reg.UX_LOCK_CTRL_SHD lane; status = 1 ∧ 1 ≤ k ∧ k ≤ 3 ∧ shadow = false ∧ s.tier = 0 ∧ (lane.val < 144 ∨ 152 ≤ lane.val))
    ∧ (∃ (lane : Fin 160) (m : VaultMsg) (s : State), let k := m.kind.toNat; let shadow := s.lockLane Reg.UX_LOCK_CTRL_SHD lane; 4 ≤ k ∧ k ≤ 6 ∧ shadow = false)
    ∧ (∃ (lane : Fin 160) (m : VaultMsg) (s : State), let k := m.kind.toNat; let shadow := s.lockLane Reg.UX_LOCK_CTRL_SHD lane; 1 ≤ k ∧ k ≤ 3 ∧ shadow = false ∧ s.tier = 0 ∧ 144 ≤ lane.val ∧ lane.val < 152 ∧ k = 3)
    ∧ (∃ (lane : Fin 160) (m : VaultMsg) (s : State), let k := m.kind.toNat; let shadow := s.lockLane Reg.UX_LOCK_CTRL_SHD lane; 1 ≤ k ∧ k ≤ 3 ∧ shadow = false ∧ s.tier = 0 ∧ 144 ≤ lane.val ∧ lane.val < 152 ∧ k ≠ 3)
    ∧ (∃ (lane : Fin 160) (m : VaultMsg) (s : State), let k := m.kind.toNat; let shadow := s.lockLane Reg.UX_LOCK_CTRL_SHD lane; 1 ≤ k ∧ k ≤ 3 ∧ shadow = false ∧ s.tier ≠ 0)
    ∧ (∃ (s : State), s.bit .el Reg.GUARD_STAT_DIE_FATAL = true)
    ∧ (∃ (lane : Fin 160) (m : VaultMsg) (s : State), let k := m.kind.toNat; let shadow := s.lockLane Reg.UX_LOCK_CTRL_SHD lane; 1 ≤ k ∧ k ≤ 6 ∧ shadow = true) :=
  ⟨⟨0#32, 0#8, { kind := 0#8, lane := 0#7, step := 0#32, ofs := 0#32, target := 0#20, data := [] }, State.reset, by dsimp only; decide +kernel⟩,
   ⟨1#8, 0, { kind := 1#8, lane := 0#7, step := 0#32, ofs := 0#32, target := 0#20, data := [] }, State.reset, by dsimp only; decide +kernel⟩,
   ⟨0, { kind := 5#8, lane := 0#7, step := 0#32, ofs := 0#32, target := 0#20, data := [] }, State.reset, by dsimp only; decide +kernel⟩,
   ⟨145, { kind := 3#8, lane := 0#7, step := 0#32, ofs := 0#32, target := 0#20, data := [] }, State.reset, by dsimp only; decide +kernel⟩,
   ⟨151, { kind := 1#8, lane := 0#7, step := 0#32, ofs := 0#32, target := 0#20, data := [] }, State.reset, by dsimp only; decide +kernel⟩,
   ⟨0, { kind := 1#8, lane := 0#7, step := 0#32, ofs := 0#32, target := 0#20, data := [] }, (State.put State.reset .ux Reg.UX_IDENT_ROLE_TIER 1), by dsimp only; decide +kernel⟩,
   ⟨(State.put State.reset .el Reg.GUARD_STAT_DIE_FATAL 1), by decide +kernel⟩,
   ⟨4, { kind := 1#8, lane := 0#7, step := 0#32, ofs := 0#32, target := 0#20, data := [] }, (State.put (State.put State.reset .ux Reg.UX_LOCK_CTRL_EN 1) .ux Reg.UX_LOCK_CTRL_SHD 4), by dsimp only; decide +kernel⟩⟩

theorem test_hyps_RollbackAndVault_part2 :
    (∃ (seq : BitVec 32) (status : Byte) (s : State), let found := s.ux.paths.find? (fun c => c.seq == seq.toNat && c.status.isNone); let up := s.tpUp; ((match found with | some cmd => let marked := s.ux.paths.map (fun y => if y.seq == seq.toNat then { y with status := some 0 } else y); decide (status = 0 ∧ marked.any (fun y => y.pathset == cmd.pathset && y.status.isNone) = false) | _ => false) = true) ∧ ((match found with | some cmd => decide (up = false) | _ => false) = true))
    ∧ (∃ (pdi : BitVec 20) (s : State), s.authority = true ∧ s.member pdi.toNat ≠ 5 ∧ s.member pdi.toNat ≠ 6)
    ∧ (∃ (pdi : BitVec 20) (s : State), s.authority = true ∧ (s.member pdi.toNat = 5 ∨ s.member pdi.toNat = 6))
    ∧ (∃ (seq : BitVec 32) (status : Byte) (s : State), let found := s.ux.paths.find? (fun c => c.seq == seq.toNat && c.status.isNone); ((match found with | some cmd => decide (status ≠ 0 ∧ status ≠ 1 ∧ s.ux.rollback = none) | _ => false) = true))
    ∧ (∃ (seq : BitVec 32) (status : Byte) (s : State), let found := s.ux.paths.find? (fun c => c.seq == seq.toNat && c.status.isNone); ((match found with | some cmd => let marked := s.ux.paths.map (fun y => if y.seq == seq.toNat then { y with status := some 0 } else y); decide (status = 0 ∧ marked.any (fun y => y.pathset == cmd.pathset && y.status.isNone) = true) | _ => false) = true))
    ∧ (∃ (seq : BitVec 32) (s : State), let found := s.ux.paths.find? (fun c => c.seq == seq.toNat && c.status.isNone); let up := s.tpUp; ((match found with | some cmd => decide (up = true ∧ 3 ≤ cmd.resends) | _ => false) = true))
    ∧ (∃ (seq : BitVec 32) (s : State), let found := s.ux.paths.find? (fun c => c.seq == seq.toNat && c.status.isNone); let up := s.tpUp; ((match found with | some cmd => decide (up = true ∧ cmd.resends < 3) | _ => false) = true))
    ∧ (∃ (seq : BitVec 32) (status : Byte) (s : State), let found := s.ux.paths.find? (fun c => c.seq == seq.toNat && c.status.isNone); ((match found with | some cmd => (decide (status ≠ 0 ∧ status ≠ 1)) && ((match s.ux.rollback with | some r => (match r.assigned.find? (fun a => a.2.2 == cmd.pathset) with | some (dead, spare, z) => true | _ => false) | _ => false)) | _ => false) = true)) :=
  ⟨⟨0#32, 0#8, (State.modUx State.reset (fun u => { u with paths := [{ seq := 0, pathset := 0, path := 0, bytes := [], resends := 0, busy := false, status := none }] })), by dsimp only; decide +kernel⟩,
   ⟨0#20, (State.put State.reset .ux Reg.UX_IDENT_ROLE_TIER 2), by decide +kernel⟩,
   ⟨0#20, (State.modUx (State.put State.reset .ux Reg.UX_IDENT_ROLE_TIER 2) (fun u => { u with members := [(0, 5)] })), by decide +kernel⟩,
   ⟨0#32, 68#8, (State.modUx State.reset (fun u => { u with paths := [{ seq := 0, pathset := 0, path := 0, bytes := [], resends := 0, busy := false, status := none }] })), by dsimp only; decide +kernel⟩,
   ⟨0#32, 0#8, (State.modUx State.reset (fun u => { u with paths := [{ seq := 0, pathset := 0, path := 0, bytes := [], resends := 0, busy := false, status := none }, { seq := 1, pathset := 0, path := 0, bytes := [], resends := 0, busy := false, status := none }] })), by dsimp only; decide +kernel⟩,
   ⟨0#32, (State.modUx (State.put State.reset .ux (Reg.UX_TP_STAT_LINK_UP 0) 1) (fun u => { u with paths := [{ seq := 0, pathset := 0, path := 0, bytes := [], resends := 3, busy := false, status := none }] })), by dsimp only; decide +kernel⟩,
   ⟨0#32, (State.put (State.put (State.put (State.put (State.put (State.modUx State.reset (fun u => { u with paths := [{ seq := 0, pathset := 0, path := 0, bytes := [6#8, 255#8, 1#8], resends := 2, busy := true, status := none }, { seq := 131072, pathset := 298, path := 8, bytes := [5#8, 3#8], resends := 1, busy := true, status := some 138 }] })) .ux (Reg.UX_TP_STAT_LINK_UP 3) 0) .ux (Reg.UX_TP_STAT_LINK_UP 0) 1) .ux (Reg.UX_TP_STAT_LINK_UP 1) 1) .ux (Reg.UX_TP_STAT_LINK_UP 2) 0) .el Reg.TEST_LINK_VCMASK 5), by dsimp only; decide +kernel⟩,
   ⟨7#32, 255#8, (State.modUx (State.modUx (State.modUx (State.modUx (State.modUx (State.modEl (State.put (State.modUx State.reset (fun u => { u with paths := [{ seq := 118, pathset := 2, path := 0, bytes := [70#8, 9#8], resends := 0, busy := true, status := none }, { seq := 0, pathset := 0, path := 1, bytes := [0#8], resends := 7, busy := true, status := some 6 }, { seq := 7, pathset := 1, path := 32, bytes := [0#8], resends := 4096, busy := true, status := none }] })) .ux Reg.HC_STAT_ROLLBACK 0) (fun e => { e with counters := [(0, 2642)] })) (fun u => { u with rollback := none })) (fun u => { u with assigned := [] })) (fun u => { u with held := [({ rid := 0#12, kind := 218#8, min := false, sat := false, down := false, first := 3#32, src := 0#32, step := 0xffffffffffffffff#64, vals := [] }, 6), ({ rid := 7#12, kind := 0#8, min := false, sat := true, down := true, first := 0#32, src := 254#32, step := 3#64, vals := [244, 1] }, 1), ({ rid := 0xfff#12, kind := 2#8, min := false, sat := false, down := false, first := 0x10000#32, src := 1#32, step := 0#64, vals := [] }, 31)] })) (fun u => { u with passVotes := [] })) (fun u => { u with rollback := some { target := 0#64, waitFor := [], ready := [], need := [], assigned := [(0, 0, 1)], leaving := 0, tc := none } })), by dsimp only; decide +kernel⟩⟩

theorem test_hyps_DmaChannels_part1 :
    (∃ (ch : Fin 16) (count : BitVec 16) (m : VaultMsg) (e : List Byte) (s : State), let st := s.get .el (Reg.DMA_STAT_STATE ch); let c := s.dma ch; let r := s.dmaDesc ch; let strange := m.kind.toNat < 4 ∨ 6 < m.kind.toNat; ch.val < s.el.lic.dmaCh ∧ st = 0 ∧ count ≠ 0 ∧ s.queueOn .move = true ∧ st ≠ 1 ∧ (st ≠ 1 ∨ c.fetched = true ∨ c.left = 0) ∧ c.fetched = false ∧ r.swap = 0 ∧ r.srcW = r.dstW ∧ e.length = r.srcW ∧ (¬ strange) ∧ m.target.toNat = s.myPdi ∧ s.restoreCh = none)
    ∧ (∃ (ch : Fin 16) (count : BitVec 16) (rep : BitVec 24) (s : State), let st := s.get .el (Reg.DMA_STAT_STATE ch); let c := s.dma ch; let r := s.dmaDesc ch; let n := r.chunk c.written; let runs := st = 1 ∧ c.fetched = true; let clean := s.el.spmBad = [] ∧ s.bit .el Reg.TEST_PFLIP_EN = false; ch.val < s.el.lic.dmaCh ∧ (st ≠ 0 ∨ count = 0 ∨ s.queueOn .move = false) ∧ runs ∧ c.fetched = true ∧ s.el.spmBad.contains (rep.toNat / 8) = false ∧ nbits c.ctl.toNat 17 16 ≠ 2 ∧ clean ∧ c.total ≤ c.written + n ∧ c.left = 1 ∧ c.qid = none ∧ c.retries < s.get .el (Reg.DMA_CTRL_RETRY_MAX ch))
    ∧ (∃ (ch : Fin 16) (s : State), let st := s.get .el (Reg.DMA_STAT_STATE ch); let c := s.dma ch; let d := descOf (mread s.el.base.mem (s.dmaAddr ch) 64); st = 1 ∧ c.fetched = false ∧ c.left ≠ 0 ∧ bitOf d.ctl 31 = false)
    ∧ (∃ (m : VaultMsg) (s : State), let strange := m.kind.toNat < 4 ∨ 6 < m.kind.toNat; strange ∧ ((match s.selLane with | some x => true | _ => false) = true))
    ∧ (∃ (m : VaultMsg) (s : State), let strange := m.kind.toNat < 4 ∨ 6 < m.kind.toNat; (¬ strange) ∧ m.target.toNat ≠ s.myPdi)
    ∧ (∃ (ch : Fin 16) (s : State), s.el.lic.dmaCh ≤ ch.val)
    ∧ (∃ (ch : Fin 16) (s : State), let st := s.get .el (Reg.DMA_STAT_STATE ch); let c := s.dma ch; let r := s.dmaDesc ch; let n := r.chunk c.written; let runs := st = 1 ∧ c.fetched = true; let clean := s.el.spmBad = [] ∧ s.bit .el Reg.TEST_PFLIP_EN = false; runs ∧ nbits c.ctl.toNat 17 16 ≠ 2 ∧ clean ∧ c.written + n < c.total ∧ s.get .el (Reg.DMA_CTRL_RETRY_MAX ch) ≤ c.retries)
    ∧ (∃ (ch : Fin 16) (s : State), let st := s.get .el (Reg.DMA_STAT_STATE ch); let c := s.dma ch; c.fetched = true ∧ st = 2) :=
  ⟨⟨15, 1#16, { kind := 6#8, lane := 0#7, step := 0#32, ofs := 0#32, target := 0#20, data := [] }, [0#8], State.reset, by dsimp only; decide +kernel⟩,
   ⟨0, 0#16, 0#24, (State.modEl (State.put State.reset .el (Reg.DMA_STAT_STATE 0) 1) (fun e => { e with dma := [(0, { Dma.zero with left := 1, fetched := true, total := 1 })] })), by dsimp only; decide +kernel⟩,
   ⟨0, (State.modEl (State.put State.reset .el (Reg.DMA_STAT_STATE 0) 1) (fun e => { e with dma := [(0, { Dma.zero with left := 1 })] })), by dsimp only; decide +kernel⟩,
   ⟨{ kind := 0#8, lane := 0#7, step := 0#32, ofs := 0#32, target := 0#20, data := [] }, (State.put State.reset .el (Reg.LANE_STAT_SELECTED (laneBlk .el 0)) 1), by dsimp only; decide +kernel⟩,
   ⟨{ kind := 4#8, lane := 0#7, step := 0#32, ofs := 0#32, target := 0#20, data := [] }, (State.modLane State.reset .el 0 (fun b => { b with joinPdi := 1#20 })), by dsimp only; decide +kernel⟩,
   ⟨0, (State.modEl State.reset (fun e => { e with lic := { e.lic with dmaCh := 0 } })), by decide +kernel⟩,
   ⟨0, (State.put (State.modEl (State.put State.reset .el (Reg.DMA_STAT_STATE 0) 1) (fun e => { e with dma := [(0, { Dma.zero with left := 0, fetched := true, total := 64 })] })) .el (Reg.DMA_CTRL_RETRY_MAX 0) 0), by dsimp only; decide +kernel⟩,
   ⟨0, (State.modEl (State.put State.reset .el (Reg.DMA_STAT_STATE 0) 2) (fun e => { e with dma := [(0, { Dma.zero with left := 0, fetched := true, total := 0 })] })), by dsimp only; decide +kernel⟩⟩

theorem test_hyps_DmaChannels_part2 :
    (∃ (ch : Fin 16) (m : VaultMsg) (s : State), let c := s.dma ch; let r := s.dmaDesc ch; let strange := m.kind.toNat < 4 ∨ 6 < m.kind.toNat; let ofs := if m.kind = 5 then m.ofs.toNat * 4096 else m.ofs.toNat; (¬ strange) ∧ m.target.toNat = s.myPdi ∧ s.restoreCh = some ch.val ∧ s.el.restoreBuf = [] ∧ m.kind ≠ 6 ∧ (ofs < r.src ∨ r.src + c.total ≤ ofs))
    ∧ (∃ (ch : Fin 16) (m : VaultMsg) (s : State), let c := s.dma ch; let r := s.dmaDesc ch; let clean := s.el.spmBad = [] ∧ s.bit .el Reg.TEST_PFLIP_EN = false; let strange := m.kind.toNat < 4 ∨ 6 < m.kind.toNat; let ofs := if m.kind = 5 then m.ofs.toNat * 4096 else m.ofs.toNat; (¬ strange) ∧ m.target.toNat = s.myPdi ∧ s.restoreCh = some ch.val ∧ s.el.restoreBuf = [] ∧ m.kind ≠ 6 ∧ r.src ≤ ofs ∧ ofs < r.src + c.total ∧ m.kind = 4 ∧ clean ∧ c.got.any (fun g => g.1 == ofs) = false)
    ∧ (∃ (ch : Fin 16) (s : State), let st := s.get .el (Reg.DMA_STAT_STATE ch); let c := s.dma ch; let d := descOf (mread s.el.base.mem (s.dmaAddr ch) 64); st = 1 ∧ c.fetched = false ∧ c.left ≠ 0 ∧ bitOf d.ctl 31 = true ∧ s.descCause d = 0 ∧ s.el.restoreBuf = [])
    ∧ (∃ (ch : Fin 16) (s : State), let st := s.get .el (Reg.DMA_STAT_STATE ch); let c := s.dma ch; let d := descOf (mread s.el.base.mem (s.dmaAddr ch) 64); st = 1 ∧ c.fetched = false ∧ c.left ≠ 0 ∧ bitOf d.ctl 31 = true ∧ s.descCause d ≠ 0) :=
  ⟨⟨0, { kind := 4#8, lane := 0#7, step := 0#32, ofs := 0#32, target := 0#20, data := [] }, (State.modEl (State.put State.reset .el (Reg.DMA_STAT_STATE 0) 1) (fun e => { e with dma := [(0, { Dma.zero with left := 0, fetched := true, ctl := 0x20000, total := 0 })] })), by dsimp only; decide +kernel⟩,
   ⟨0, { kind := 4#8, lane := 0#7, step := 0#32, ofs := 0#32, target := 0#20, data := [] }, (State.modEl (State.put State.reset .el (Reg.DMA_STAT_STATE 0) 1) (fun e => { e with dma := [(0, { Dma.zero with left := 0, fetched := true, ctl := 0x20000, total := 1 })] })), by dsimp only; decide +kernel⟩,
   ⟨0, (State.mod (State.modEl (State.put State.reset .el (Reg.DMA_STAT_STATE 0) 1) (fun e => { e with dma := [(0, { Dma.zero with left := 1 })] })) .el (fun b => { b with mem := mwrite b.mem 0 (leBytes 4 (2 ^ 31) ++ leBytes 0 0 ++ leBytes 0 0 ++ leBytes 0 0 ++ leBytes 0 0 ++ leBytes 0 0 ++ leBytes 0 0 ++ leBytes 0 0 ++ leBytes 0 0 ++ leBytes 0 0 ++ leBytes 0 0) })), by dsimp only; decide +kernel⟩,
   ⟨0, (State.mod (State.modEl (State.put State.reset .el (Reg.DMA_STAT_STATE 0) 1) (fun e => { e with dma := [(0, { Dma.zero with left := 1 })] })) .el (fun b => { b with mem := mwrite b.mem 0 (leBytes 4 (2 ^ 31 + 1) ++ leBytes 0 0 ++ leBytes 0 0 ++ leBytes 0 0 ++ leBytes 0 0 ++ leBytes 0 0 ++ leBytes 0 0 ++ leBytes 0 0 ++ leBytes 0 0 ++ leBytes 0 0 ++ leBytes 0 0) })), by dsimp only; decide +kernel⟩⟩

theorem test_hyps_HostAccesses_part1 :
    (∃ (p : Part) (off : BitVec 26) (a : BitVec 24) (size : AccSize) (addr : Word) (len : BitVec 16) (s : State), let x := a.toNat; let o := off.toNat; let bad := s.el.spmBad.contains (x / 8); let fits := accCause size x = 0; fits ∧ x < s.spmBytes ∧ bad = false ∧ size = .four ∧ s.seqState .el = 0 ∧ s.bit .el Reg.SPM_STAT_CLEARING = false ∧ (accDomain p o = 0 ∨ s.dstate p (accDomain p o) = 2) ∧ vc5Ok p addr.toNat len.toNat = false)
    ∧ (∃ (p : Part) (off : BitVec 26) (size : AccSize) (addr : Word) (len : BitVec 16), let o := off.toNat; winSizeCause p o size = 0 ∧ o < 0x10000 ∧ regRow p (o - o % 8) = none ∧ (secWindow o = none ∨ secWindow o = some .ro) ∧ vc5Ok p addr.toNat len.toNat = true)
    ∧ (∃ (p : Part) (addr : Word) (data : List Byte), vc5Ok p addr.toNat data.length = false)
    ∧ (∃ (p : Part) (addr : Word) (data : List Byte), vc5Ok p addr.toNat data.length = true ∧ data.length = 8)
    ∧ (∃ (p : Part) (off : BitVec 26) (a : BitVec 24) (size : AccSize), let x := a.toNat; let o := off.toNat; let fits := accCause size x = 0; (¬ fits) ∧ winSizeCause p o size ≠ 0)
    ∧ (∃ (p : Part) (off : BitVec 26) (a : BitVec 24) (size : AccSize) (s : State), let x := a.toNat; let o := off.toNat; let fits := accCause size x = 0; fits ∧ s.seqState .el = 1 ∧ winSizeCause p o size = 0 ∧ o < 0x10000 ∧ ((match regRow p (o - o % 8) with | some row => decide (s.regHere p (o - o % 8) = true) | _ => false) = true))
    ∧ (∃ (off : BitVec 26) (size : AccSize), let o := off.toNat; winSizeCause .el o size = 0 ∧ 0x3000000 ≤ o)
    ∧ (∃ (p : Part) (off : BitVec 26) (size : AccSize), let o := off.toNat; winSizeCause p o size = 0 ∧ 0x10000 ≤ o ∧ o < 0x20000) :=
  ⟨⟨Part.ux, 0#26, 32#24, AccSize.four, 0#64, 1#16, State.reset, by dsimp only; decide +kernel⟩,
   ⟨Part.el, 36#26, AccSize.four, 0#64, 0#16, by dsimp only; decide +kernel⟩,
   ⟨Part.el, 1#64, [], by decide +kernel⟩,
   ⟨Part.ux, 0#64, [0#8, 0#8, 0#8, 0#8, 0#8, 0#8, 0#8, 0#8], by decide +kernel⟩,
   ⟨Part.el, 0#26, 0#24, AccSize.two, by dsimp only; decide +kernel⟩,
   ⟨Part.el, 0x150c#26, 0#24, AccSize.four, (State.put State.reset .el Reg.SEQ_STAT_STATE 1), by dsimp only; decide +kernel⟩,
   ⟨0x3000008#26, AccSize.eight, by dsimp only; decide +kernel⟩,
   ⟨Part.el, 0x10000#26, AccSize.four, by dsimp only; decide +kernel⟩⟩

theorem test_hyps_HostAccesses_part2 :
    (∃ (a : BitVec 24) (size : AccSize) (py : Bool) (s : State), let x := a.toNat; let fits := accCause size x = 0; fits ∧ 1 < s.seqState .el ∧ py = true)
    ∧ (∃ (s : State), s.bit .el Reg.SPM_STAT_CLEARING = true)
    ∧ (∃ (p : Part) (off : BitVec 26) (s : State), let o := off.toNat; accDomain p o ≠ 0 ∧ s.dstate p (accDomain p o) ≠ 2)
    ∧ (∃ (a : BitVec 24) (size : AccSize) (s : State), let x := a.toNat; let fits := accCause size x = 0; fits ∧ s.spmBytes ≤ x)
    ∧ (∃ (a : BitVec 24) (size : AccSize) (s : State), let x := a.toNat; let fits := accCause size x = 0; fits ∧ x < s.spmBytes ∧ size = .eight)
    ∧ (∃ (a : BitVec 24) (size : AccSize) (py : Bool) (s : State), let x := a.toNat; let fits := accCause size x = 0; fits ∧ 1 < s.seqState .el ∧ py = false)
    ∧ (∃ (a : BitVec 24) (size : AccSize) (s : State), let x := a.toNat; let bad := s.el.spmBad.contains (x / 8); let fits := accCause size x = 0; fits ∧ x < s.spmBytes ∧ bad = true) :=
  ⟨⟨0#24, AccSize.four, true, (State.put State.reset .el Reg.SEQ_STAT_STATE 2), by dsimp only; decide +kernel⟩,
   ⟨(State.put State.reset .el Reg.SPM_STAT_CLEARING 1), by decide +kernel⟩,
   ⟨Part.ux, 0x4003c#26, (State.put State.reset .ux Reg.UX_PWR_STAT_DSTATE 0), by dsimp only; decide +kernel⟩,
   ⟨0#24, AccSize.four, (State.modEl State.reset (fun e => { e with lic := { e.lic with spmMib := 0 } })), by dsimp only; decide +kernel⟩,
   ⟨0#24, AccSize.eight, (State.modEl State.reset (fun e => { e with lic := { e.lic with spmMib := 1 } })), by dsimp only; decide +kernel⟩,
   ⟨0#24, AccSize.four, false, (State.put State.reset .el Reg.SEQ_STAT_STATE 3), by dsimp only; decide +kernel⟩,
   ⟨8#24, AccSize.four, (State.modEl (State.modEl State.reset (fun e => { e with spmBad := [1] })) (fun e => { e with lic := { e.lic with spmMib := 1 } })), by dsimp only; decide +kernel⟩⟩

theorem test_hyps_ManifestStaging :
    (∃ (p : Part) (off : BitVec 26) (s : State), let o := off.toNat; let r := o - o % 8; s.isSt p r = false)
    ∧ (∃ (p : Part) (off : BitVec 26) (size : AccSize) (s : State), let o := off.toNat; let r := o - o % 8; s.isSt p r = true ∧ winSizeCause p o size ≠ 0)
    ∧ (∃ (p : Part) (off : BitVec 26) (size : AccSize) (v : Word) (s : State), let o := off.toNat; let r := o - o % 8; let plain := match p with | .el => [0x1028, 0x1030, 0x2010, 0x2018, 0x3000, 0x6000, 0x6020, 0x6028, 0x6030, 0x7000, 0x7008, 0x7018, 0xB020, 0xC040] | .ux => [8, 0x3010, 0x6040, 0x6048, 0x6080, 0x7000, 0x7008, 0x7020, 0x7028, 0x7040, 0x7080, 0xC040]; let w := maskMerge (s.staged p r) (writeWord size o v) (writeMask size o); let nsBad := p = .el ∧ r = 0x1030 ∧ nsOk w = false; r ∈ plain ∧ s.regHere p r = true ∧ winSizeCause p o size = 0 ∧ s.manState p ≠ 2 ∧ nsBad)
    ∧ (∃ (p : Part) (off : BitVec 26) (size : AccSize) (v : Word) (s : State), let o := off.toNat; let r := o - o % 8; let plain := match p with | .el => [0x1028, 0x1030, 0x2010, 0x2018, 0x3000, 0x6000, 0x6020, 0x6028, 0x6030, 0x7000, 0x7008, 0x7018, 0xB020, 0xC040] | .ux => [8, 0x3010, 0x6040, 0x6048, 0x6080, 0x7000, 0x7008, 0x7020, 0x7028, 0x7040, 0x7080, 0xC040]; let w := maskMerge (s.staged p r) (writeWord size o v) (writeMask size o); let nsBad := p = .el ∧ r = 0x1030 ∧ nsOk w = false; let full := stagedAt (s.base p).staged r = none ∧ stageCap p ≤ (s.base p).staged.length; r ∈ plain ∧ s.regHere p r = true ∧ winSizeCause p o size = 0 ∧ s.manState p ≠ 2 ∧ (¬ nsBad) ∧ (¬ full))
    ∧ (∃ (p : Part) (off : BitVec 26) (size : AccSize) (v : Word) (s : State), let o := off.toNat; let r := o - o % 8; let plain := match p with | .el => [0x1028, 0x1030, 0x2010, 0x2018, 0x3000, 0x6000, 0x6020, 0x6028, 0x6030, 0x7000, 0x7008, 0x7018, 0xB020, 0xC040] | .ux => [8, 0x3010, 0x6040, 0x6048, 0x6080, 0x7000, 0x7008, 0x7020, 0x7028, 0x7040, 0x7080, 0xC040]; let w := maskMerge (s.staged p r) (writeWord size o v) (writeMask size o); let nsBad := p = .el ∧ r = 0x1030 ∧ nsOk w = false; let full := stagedAt (s.base p).staged r = none ∧ stageCap p ≤ (s.base p).staged.length; r ∈ plain ∧ s.regHere p r = true ∧ winSizeCause p o size = 0 ∧ s.manState p ≠ 2 ∧ (¬ nsBad) ∧ full)
    ∧ (∃ (p : Part) (off : BitVec 26) (size : AccSize) (s : State), let o := off.toNat; let r := o - o % 8; let plain := match p with | .el => [0x1028, 0x1030, 0x2010, 0x2018, 0x3000, 0x6000, 0x6020, 0x6028, 0x6030, 0x7000, 0x7008, 0x7018, 0xB020, 0xC040] | .ux => [8, 0x3010, 0x6040, 0x6048, 0x6080, 0x7000, 0x7008, 0x7020, 0x7028, 0x7040, 0x7080, 0xC040]; r ∈ plain ∧ s.regHere p r = true ∧ winSizeCause p o size = 0 ∧ s.manState p = 2) :=
  ⟨⟨Part.el, 0#26, State.reset, by dsimp only; decide +kernel⟩,
   ⟨Part.ux, 8#26, AccSize.two, State.reset, by dsimp only; decide +kernel⟩,
   ⟨Part.el, 0x1030#26, AccSize.eight, 0xffffffffffff0000#64, State.reset, by dsimp only; decide +kernel⟩,
   ⟨Part.ux, 0x7000#26, AccSize.four, 0#64, State.reset, by dsimp only; decide +kernel⟩,
   ⟨Part.el, 0x2010#26, AccSize.eight, 0#64, (State.mod State.reset .el (fun b => { b with staged := (List.range 512).map (fun i => (0 + 0 * i, 0)) })), by dsimp only; decide +kernel⟩,
   ⟨Part.ux, 0x7040#26, AccSize.four, (State.put State.reset .ux Reg.MAN_STAT_STATE 2), by dsimp only; decide +kernel⟩⟩

theorem test_hyps_ManifestUnit_part1 :
    (∃ (p : Part) (lane : Fin 160) (t : Nat) (unit : Fin 5) (h : HallVote) (s : State), let st := s.manState p; let down := s.ux.base.hallArm = true ∨ s.ux.hall.isSome = true; let go := s.authority = true ∧ s.bit .ux Reg.UX_MAN_HALL_CTRL_BUSY = false; let fresh := (s.base p).hallSeen ≠ some t; let off := bitOf (s.get .el Reg.MAN_UNITEN_EN) unit = false; st = 0 ∧ st ≠ 2 ∧ (p = .el ∨ ¬ down) ∧ (s.base p).rbAt = none ∧ ((s.base p).manAt = none ∨ st ≠ 2) ∧ (¬ go) ∧ s.hallLanes = [] ∧ s.tier ≠ 2 ∧ (s.ux.hall = none ∨ (s.ux.hall = some h ∧ h.waiting.contains lane.val = false)) ∧ s.bit .ux Reg.UX_MAN_HALL_CTRL_BUSY = false ∧ fresh ∧ s.tbNow p 0 ≤ t ∧ (¬ off))
    ∧ (∃ (p : Part) (s : State), let st := s.manState p; st = 2)
    ∧ (∃ (p : Part) (s : State), let st := s.manState p; let ready := s.tbState p 0 ≠ 0 ∧ s.manCheck p = none ∧ hxtAdd (s.tbNow p 0) (hxtNs 64) ≤ s.manInstant p; st ≠ 0 ∧ st ≠ 2 ∧ (¬ ready) ∧ s.manCheck p = none)
    ∧ (∃ (s : State), let go := s.authority = true ∧ s.bit .ux Reg.UX_MAN_HALL_CTRL_BUSY = false; go ∧ s.hallLanes ≠ [])
    ∧ (∃ (p : Part) (lane : Fin 160) (h : HallVote) (s : State), let down := s.ux.base.hallArm = true ∨ s.ux.hall.isSome = true; let rest := h.waiting.filter (fun x => x != lane.val); let owes := s.ux.hall = some h ∧ h.waiting.contains lane.val = true; p = .ux ∧ down ∧ owes ∧ rest = [] ∧ s.tier ≠ 2)
    ∧ (∃ (s : State), s.bit .ux Reg.UX_MAN_HALL_CTRL_BUSY = true)
    ∧ (∃ (p : Part) (s : State), p = .el ∧ ((match s.el.base.rbAt with | some t => decide ((t = 0 ∨ s.tbState p 0 ≠ 0 ∧ t ≤ s.tbNow p 0) ∧ s.manCheck .el = none) | _ => false) = true))
    ∧ (∃ (p : Part) (t : Nat) (s : State), let fresh := (s.base p).hallSeen ≠ some t; (¬ fresh)) :=
  ⟨⟨Part.el, 0, 0, 0, { passes := 0, fails := 0, firstFail := none, waiting := [] }, State.reset, by dsimp only; decide +kernel⟩,
   ⟨Part.ux, (State.put State.reset .ux Reg.MAN_STAT_STATE 2), by dsimp only; decide +kernel⟩,
   ⟨Part.el, (State.put State.reset .el Reg.MAN_STAT_STATE 1), by dsimp only; decide +kernel⟩,
   ⟨(State.put (State.put State.reset .ux Reg.UX_IDENT_ROLE_TIER 2) .ux (Reg.LANE_STAT_STATE (laneBlk .ux 0)) 4), by dsimp only; decide +kernel⟩,
   ⟨Part.ux, 0, { passes := 1, fails := 0, firstFail := none, waiting := [0] }, (State.modUx State.reset (fun u => { u with hall := some ({ passes := 1, fails := 0, firstFail := none, waiting := [0] } : HallVote) })), by dsimp only; decide +kernel⟩,
   ⟨(State.put State.reset .ux Reg.UX_MAN_HALL_CTRL_BUSY 1), by decide +kernel⟩,
   ⟨Part.el, (State.mod State.reset .el (fun b => { b with rbAt := some 0 })), by decide +kernel⟩,
   ⟨Part.ux, 0, (State.mod State.reset .ux (fun b => { b with hallSeen := some 0 })), by dsimp only; decide +kernel⟩⟩

theorem test_hyps_ManifestUnit_part2 :
    (∃ (p : Part) (t : Nat) (s : State), ((s.base p).rbAt = some t ∨ (s.base p).rbAt = none ∧ (s.base p).manAt = some t) ∧ (¬ (t = 0 ∨ s.tbState p 0 ≠ 0 ∧ t ≤ s.tbNow p 0)))
    ∧ (∃ (unit : Fin 5) (s : State), let off := bitOf (s.get .el Reg.MAN_UNITEN_EN) unit = false; off)
    ∧ (∃ (p : Part) (t : Nat) (s : State), let st := s.manState p; let due := (s.base p).rbAt = none ∧ (s.base p).manAt = some t ∧ st = 2 ∧ (t = 0 ∨ s.tbState p 0 ≠ 0 ∧ t ≤ s.tbNow p 0); due ∧ s.manCheck p = none)
    ∧ (∃ (p : Part) (s : State), let st := s.manState p; st ≠ 0 ∧ st ≠ 2 ∧ s.manCheck p ≠ none)
    ∧ (∃ (p : Part) (s : State), p = .el ∧ ((match s.el.base.rbAt with | some t => decide ((t = 0 ∨ s.tbState p 0 ≠ 0 ∧ t ≤ s.tbNow p 0) ∧ s.manCheck .el ≠ none) | _ => false) = true))
    ∧ (∃ (lane : Fin 160) (h : HallVote) (s : State), let rest := h.waiting.filter (fun x => x != lane.val); let owes := s.ux.hall = some h ∧ h.waiting.contains lane.val = true; owes ∧ rest ≠ [])
    ∧ (∃ (p : Part) (t : Nat) (s : State), let fresh := (s.base p).hallSeen ≠ some t; fresh ∧ t < s.tbNow p 0 ∧ p = .ux)
    ∧ (∃ (p : Part) (t : Nat) (c : Nat) (o : Nat) (s : State), let st := s.manState p; let due := (s.base p).rbAt = none ∧ (s.base p).manAt = some t ∧ st = 2 ∧ (t = 0 ∨ s.tbState p 0 ≠ 0 ∧ t ≤ s.tbNow p 0); due ∧ s.manCheck p = some (c, o)) :=
  ⟨⟨Part.el, 274877906944, (State.mod State.reset .el (fun b => { b with manAt := some 274877906944 })), by decide +kernel⟩,
   ⟨0, (State.put State.reset .el Reg.MAN_UNITEN_EN 0), by dsimp only; decide +kernel⟩,
   ⟨Part.el, 0, (State.mod (State.put State.reset .el Reg.MAN_STAT_STATE 2) .el (fun b => { b with manAt := some 0 })), by dsimp only; decide +kernel⟩,
   ⟨Part.el, (State.put (State.mod State.reset .el (fun b => { b with staged := [(0x6028, 1)] })) .el Reg.MAN_STAT_STATE 1), by dsimp only; decide +kernel⟩,
   ⟨Part.el, (State.mod (State.mod State.reset .el (fun b => { b with staged := [(0x6028, 1)] })) .el (fun b => { b with rbAt := some 0 })), by decide +kernel⟩,
   ⟨0, { passes := 1, fails := 0, firstFail := none, waiting := [0, 1] }, (State.modUx State.reset (fun u => { u with hall := some ({ passes := 1, fails := 0, firstFail := none, waiting := [0, 1] } : HallVote) })), by dsimp only; decide +kernel⟩,
   ⟨Part.ux, 2, (State.mod (State.put State.reset .ux (Reg.TB_STAT_STATE 0) 1) .ux (fun b => { b with frc := 1#80 })), by dsimp only; decide +kernel⟩,
   ⟨Part.el, 0, 1, 24616, (State.mod (State.put (State.mod State.reset .el (fun b => { b with staged := [(0x6028, 1)] })) .el Reg.MAN_STAT_STATE 2) .el (fun b => { b with manAt := some 0 })), by dsimp only; decide +kernel⟩⟩

theorem test_hyps_ManifestUnit_part3 :
    (∃ (lane : Fin 160) (fails : Nat) (h : HallVote) (s : State), let rest := h.waiting.filter (fun x => x != lane.val); let owes := s.ux.hall = some h ∧ h.waiting.contains lane.val = true; owes ∧ rest = [] ∧ s.tier = 2 ∧ h.fails + fails ≠ 0)
    ∧ (∃ (lane : Fin 160) (fails : Nat) (h : HallVote) (s : State), let rest := h.waiting.filter (fun x => x != lane.val); let owes := s.ux.hall = some h ∧ h.waiting.contains lane.val = true; let soon := s.tbState .ux 0 = 0 ∨ s.hallAt < s.tbNow .ux 0 + psHxt s.dLaunch + hxtNs (s.get .ux Reg.UX_MAN_HALL_CTRL_COMMIT_GUARD); owes ∧ rest = [] ∧ s.tier = 2 ∧ h.fails + fails = 0 ∧ soon)
    ∧ (∃ (p : Part) (s : State), let st := s.manState p; let ready := s.tbState p 0 ≠ 0 ∧ s.manCheck p = none ∧ hxtAdd (s.tbNow p 0) (hxtNs 64) ≤ s.manInstant p; st ≠ 0 ∧ st ≠ 2 ∧ ready)
    ∧ (∃ (lane : Fin 160) (fails : Nat) (h : HallVote) (s : State), let rest := h.waiting.filter (fun x => x != lane.val); let owes := s.ux.hall = some h ∧ h.waiting.contains lane.val = true; let soon := s.tbState .ux 0 = 0 ∨ s.hallAt < s.tbNow .ux 0 + psHxt s.dLaunch + hxtNs (s.get .ux Reg.UX_MAN_HALL_CTRL_COMMIT_GUARD); owes ∧ rest = [] ∧ s.tier = 2 ∧ h.fails + fails = 0 ∧ (¬ soon))
    ∧ (∃ (p : Part) (s : State), p = .ux ∧ ((match s.ux.base.rbAt with | some t => (decide ((t = 0 ∨ s.tbState p 0 ≠ 0 ∧ t ≤ s.tbNow p 0))) && ((match s.ux.rollback with | some b => true | _ => false)) | _ => false) = true))
    ∧ (∃ (p : Part) (t : Nat) (s : State), let fresh := (s.base p).hallSeen ≠ some t; fresh ∧ t < s.tbNow p 0 ∧ p = .el) :=
  ⟨⟨0, 0, { passes := 1, fails := 1, firstFail := none, waiting := [0] }, (State.modUx (State.put State.reset .ux Reg.UX_IDENT_ROLE_TIER 2) (fun u => { u with hall := some ({ passes := 1, fails := 1, firstFail := none, waiting := [0] } : HallVote) })), by dsimp only; decide +kernel⟩,
   ⟨0, 0, { passes := 1, fails := 0, firstFail := none, waiting := [0] }, (State.modUx (State.put State.reset .ux Reg.UX_IDENT_ROLE_TIER 2) (fun u => { u with hall := some ({ passes := 1, fails := 0, firstFail := none, waiting := [0] } : HallVote) })), by dsimp only; decide +kernel⟩,
   ⟨Part.ux, (State.put (State.put (State.put State.reset .ux (Reg.TB_STAT_STATE 0) 1) .ux Reg.MAN_STAT_STATE 1) .ux Reg.MAN_AT_NSF_NS 4294967295), by dsimp only; decide +kernel⟩,
   ⟨0, 0, { passes := 1, fails := 0, firstFail := none, waiting := [0] }, (State.put (State.put (State.modUx (State.put State.reset .ux Reg.UX_IDENT_ROLE_TIER 2) (fun u => { u with hall := some ({ passes := 1, fails := 0, firstFail := none, waiting := [0] } : HallVote) })) .ux (Reg.TB_STAT_STATE 0) 1) .ux Reg.UX_MAN_HALL_AT_SEC_SEC 1), by dsimp only; decide +kernel⟩,
   ⟨Part.ux, (State.modUx (State.mod State.reset .ux (fun b => { b with rbAt := some 0 })) (fun u => { u with rollback := some { target := 0#64, waitFor := [], ready := [], need := [], assigned := [], leaving := 0, tc := none } })), by decide +kernel⟩,
   ⟨Part.el, 183, (State.put (State.put (State.put (State.mod (State.put (State.mod (State.put (State.put (State.put (State.put (State.mod (State.mod (State.put (State.mod (State.mod State.reset .el (fun b => { b with frc := 2#80 })) .ux (fun b => { b with frc := 7#80 })) .el Reg.TB2_EPOCH_SEC_SEC 3) .ux (fun b => { b with hallSeen := none })) .ux (fun b => { b with hallSeen := none })) .el Reg.TB2_EPOCH_NSF_NS 1) .ux Reg.TB2_EPOCH_NSF_NS 1) .el Reg.TB2_EPOCH_SEC_SEC 1) .el Reg.TB2_EPOCH_NSF_NS 1) .ux (fun b => { b with frc := 0xe19#80 })) .ux Reg.TB2_EPOCH_NSF_NS 4294967295) .el (fun b => { b with hallSeen := none })) .el Reg.TB2_EPOCH_SEC_SEC 332) .ux Reg.TB2_EPOCH_NSF_NS 93) .el (Reg.TB_STAT_STATE 0) 1), by dsimp only; decide +kernel⟩⟩

theorem test_hyps_ClocksAndPower_part1 :
    (∃ (p : Part) (region : Fin 64) (d : Fin 24) (s : State), let pll := fun (u : State) => (u.base p).pll; let stopped := p = .el ∧ s.fclkStopped = true; let r := if region.val < s.el.lic.regions then region.val else 0; let asleep := s.bit .el Reg.PWR_STAT_ASLEEP; let waking := s.bit .el Reg.PWR_STAT_WAKING; let dux := s.dstate .ux d; let forced := bitOf (s.get .ux Reg.UX_PWR_CTRL_FORCE_ON) d = true ∧ ¬ (s.ux.warnCap = true ∧ 16 ≤ d.val ∧ d.val ≤ 18); let rx := region.val; (stopped ∨ (pll s).relocking = false ∨ s.tick p % 64 ≠ 0) ∧ (¬ stopped) ∧ (pll s).standbyLocked = true ∧ s.ux.base.pll.standbyLocked = true ∧ s.mayStretch rx = true ∧ (r ≠ 0 ∨ s.seqState .el ≠ 3) ∧ s.canSleep = false ∧ asleep = false ∧ waking = false ∧ (2 ≤ dux ∨ s.ux.stacksLost.contains d.val = true) ∧ ((match uxLow d with | some v => decide (dux = 2 ∧ (¬ forced)) | _ => false) = true))
    ∧ (∃ (d : Fin 24) (s : State), let dux := s.dstate .ux d; let forced := bitOf (s.get .ux Reg.UX_PWR_CTRL_FORCE_ON) d = true ∧ ¬ (s.ux.warnCap = true ∧ 16 ≤ d.val ∧ d.val ≤ 18); ((match uxLow d with | some v => decide (dux = 2 ∧ (¬ forced)) | _ => false) = true))
    ∧ (∃ (p : Part) (s : State), let stopped := p = .el ∧ s.fclkStopped = true; let asleep := s.bit .el Reg.PWR_STAT_ASLEEP; stopped ∧ asleep = true)
    ∧ (∃ (d : Fin 24) (s : State), let dux := s.dstate .ux d; let forced := bitOf (s.get .ux Reg.UX_PWR_CTRL_FORCE_ON) d = true ∧ ¬ (s.ux.warnCap = true ∧ 16 ≤ d.val ∧ d.val ≤ 18); (uxLow d = none ∨ dux ≠ 2 ∨ forced))
    ∧ (∃ (p : Part) (s : State), let pll := fun (u : State) => (u.base p).pll; let stopped := p = .el ∧ s.fclkStopped = true; (¬ stopped) ∧ (pll s).standbyLocked = false ∧ (p = .el ∨ s.ux.corePllLost = false) ∧ s.guardFree p ∧ s.ux.base.pll.standbyLocked = false)
    ∧ (∃ (p : Part) (s : State), let pll := fun (u : State) => (u.base p).pll; let stopped := p = .el ∧ s.fclkStopped = true; (¬ stopped) ∧ (pll s).relocking = true ∧ s.tick p % 64 = 0)
    ∧ (∃ (s : State), s.canSleep = true)
    ∧ (∃ (s : State), let waking := s.bit .el Reg.PWR_STAT_WAKING; waking = true ∧ s.seqState .el = 3) :=
  ⟨⟨Part.ux, 0, 9, State.reset, by dsimp only; decide +kernel⟩,
   ⟨9, State.reset, by dsimp only; decide +kernel⟩,
   ⟨Part.el, (State.put State.reset .el Reg.PWR_STAT_ASLEEP 1), by dsimp only; decide +kernel⟩,
   ⟨0, State.reset, by dsimp only; decide +kernel⟩,
   ⟨Part.ux, (State.modPll State.reset .ux (fun b => { b with standbyLocked := false })), by simp only [alone_iff, Within, State.memOk, State.guardFree]; and_intros <;> decide +kernel⟩,
   ⟨Part.el, (State.modPll State.reset .el (fun b => { b with relocking := true })), by dsimp only; decide +kernel⟩,
   ⟨(State.put State.reset .el Reg.PWR_AUTO_SLEEP 1), by decide +kernel⟩,
   ⟨(State.put (State.put State.reset .el Reg.SEQ_STAT_STATE 3) .el Reg.PWR_STAT_WAKING 1), by dsimp only; decide +kernel⟩⟩

theorem test_hyps_ClocksAndPower_part2 :
    (∃ (region : Fin 64) (s : State), let r := if region.val < s.el.lic.regions then region.val else 0; r = 0 ∧ s.seqState .el = 3)
    ∧ (∃ (s : State), let waking := s.bit .el Reg.PWR_STAT_WAKING; waking = true ∧ s.seqState .el ≠ 3)
    ∧ (∃ (region : Fin 64) (s : State), let rx := region.val; s.mayStretch rx = false)
    ∧ (∃ (d : Fin 24) (s : State), let dux := s.dstate .ux d; dux ≤ 1 ∧ s.ux.stacksLost.contains d.val = false)
    ∧ (∃ (p : Part) (s : State), let pll := fun (u : State) => (u.base p).pll; p = .ux ∧ (pll s).standbyLocked = false ∧ s.ux.corePllLost = true ∧ s.guardFree p) :=
  ⟨⟨0, (State.put State.reset .el Reg.SEQ_STAT_STATE 3), by dsimp only; decide +kernel⟩,
   ⟨(State.put State.reset .el Reg.PWR_STAT_WAKING 1), by dsimp only; decide +kernel⟩,
   ⟨0, (State.mod State.reset .ux (fun b => { b with stretchAt := [(0, 1)] })), by dsimp only; decide +kernel⟩,
   ⟨0, (State.put State.reset .ux Reg.UX_PWR_STAT_DSTATE 1), by dsimp only; decide +kernel⟩,
   ⟨Part.ux, (State.modUx (State.modPll State.reset .ux (fun b => { b with standbyLocked := false })) (fun u => { u with corePllLost := true })), by simp only [alone_iff, Within, State.memOk, State.guardFree]; and_intros <;> decide +kernel⟩⟩

theorem test_hyps_GuardActions_part1 :
    (∃ (p : Part) (unit : Byte) (cause : Fin 10) (i : Nat) (word : BitVec 32) (s : State), let g := s.guard p; let expired := bitOf (s.get p Reg.GUARD_WD_EN) i = true ∧ s.seqState p = 3 ∧ bitOf (s.windowMask p) i = false ∧ s.wdLimit p ≤ tget 0 (s.base p).wdCount i; let busy := s.bit p Reg.GUARD_STAT_DUMP_BUSY; let fatal := s.bit p Reg.GUARD_STAT_DIE_FATAL = true ∧ g.phase ≠ .stage 3; (wdBit p unit.toNat = none ∨ (wdBit p unit.toNat = some i ∧ ¬ expired)) ∧ (s.hangCulprit p cause = none ∨ (s.seqState p ≠ 3 ∧ s.seqState p ≠ 4)) ∧ (busy = false ∨ s.dumpWordIn p unit.toNat word.toNat = false) ∧ (busy = false ∨ g.dump = none) ∧ ((p = .ux ∧ s.ux.tripped = true) ∨ g.phase = .idle ∨ g.phase = .dumping ∨ g.phase = .heldFault) ∧ (g.phase = .idle ∨ g.phase = .dumping ∨ g.phase = .heldFault) ∧ (¬ fatal) ∧ g.phase ≠ .heldFault)
    ∧ (∃ (p : Part) (d : Fin 24) (n : Nat) (s : State), let g := s.guard p; (p = .el ∨ s.ux.tripped = false) ∧ n ≠ 3 ∧ g.phase = .stage n ∧ d.val ≠ unitDomain p g.culprit ∧ 1 ≤ n ∧ n ≤ 3)
    ∧ (∃ (p : Part) (cause : Fin 10) (s : State), (∃ u, s.hangCulprit p cause = some u ∧ (s.guardFree p)))
    ∧ (∃ (p : Part) (s : State), let g := s.guard p; let fatal := s.bit p Reg.GUARD_STAT_DIE_FATAL = true ∧ g.phase ≠ .stage 3; fatal)
    ∧ (∃ (p : Part) (unit : Byte) (cause : Fin 10) (i : Nat) (s : State), let expired := bitOf (s.get p Reg.GUARD_WD_EN) i = true ∧ s.seqState p = 3 ∧ bitOf (s.windowMask p) i = false ∧ s.wdLimit p ≤ tget 0 (s.base p).wdCount i; ((match wdBit p unit.toNat with | some i => let expired := bitOf (s.get p Reg.GUARD_WD_EN) i = true ∧ s.seqState p = 3 ∧ bitOf (s.windowMask p) i = false ∧ s.wdLimit p ≤ tget 0 (s.base p).wdCount i; decide (expired ∧ s.guardActive p = true) | _ => false) = true) ∧ ((match s.hangCulprit p cause with | some u => decide (s.guardActive p = true) | _ => false) = true))
    ∧ (∃ (p : Part) (d : Fin 24) (s : State), let g := s.guard p; (p = .el ∨ s.ux.tripped = false) ∧ g.phase = .stage 3 ∧ ((stage3Domains p).contains d.val = false ∨ g.done.contains d.val = true))
    ∧ (∃ (p : Part) (d : Fin 24) (s : State), let g := s.guard p; (p = .el ∨ s.ux.tripped = false) ∧ g.phase = .stage 3 ∧ (stage3Domains p).contains d.val = true ∧ g.done.contains d.val = false)
    ∧ (∃ (p : Part) (unit : Byte) (word : BitVec 32) (s : State), let g := s.guard p; let busy := s.bit p Reg.GUARD_STAT_DUMP_BUSY; busy = true ∧ s.dumpWordIn p unit.toNat word.toNat = true ∧ ((match g.dump with | some dump => true | _ => false) = true)) :=
  ⟨⟨Part.ux, 0#8, 0, 0, 0#32, State.reset, by dsimp only; decide +kernel⟩,
   ⟨Part.ux, 0, 1, (State.modGuard State.reset .ux (fun b => { b with phase := GPhase.stage 1 })), by dsimp only; decide +kernel⟩,
   ⟨Part.el, 7, (State.put State.reset .el Reg.SEQ_STAT_STATE 3), by simp only [alone_iff, Within, State.memOk, State.guardFree]; and_intros <;> decide +kernel⟩,
   ⟨Part.el, (State.put State.reset .el Reg.GUARD_STAT_DIE_FATAL 1), by dsimp only; decide +kernel⟩,
   ⟨Part.el, 2#8, 2, 0, (State.put (State.mod (State.put (State.put State.reset .el Reg.SEQ_STAT_STATE 3) .el Reg.GUARD_WD_EN 1) .el (fun b => { b with wdCount := [(0, 2 ^ 60)] })) .el Reg.GUARD_STAT_ACTIVE 1), by dsimp only; decide +kernel⟩,
   ⟨Part.el, 0, (State.modGuard State.reset .el (fun b => { b with phase := GPhase.stage 3 })), by dsimp only; decide +kernel⟩,
   ⟨Part.ux, 1, (State.modGuard State.reset .ux (fun b => { b with phase := GPhase.stage 3 })), by dsimp only; decide +kernel⟩,
   ⟨Part.el, 1#8, 0#32, (State.modGuard (State.put State.reset .el Reg.GUARD_STAT_DUMP_BUSY 1) .el (fun b => { b with dump := some { trigger := 0, unit := 0, hxt := 0, step := 0#64, pc := 0, bad := [], id := 0, done := false } })), by dsimp only; decide +kernel⟩⟩

theorem test_hyps_GuardActions_part2 :
    (∃ (p : Part) (unit : Byte) (s : State), (∃ i, wdBit p unit.toNat = some i ∧ (let expired := bitOf (s.get p Reg.GUARD_WD_EN) i = true ∧ s.seqState p = 3 ∧ bitOf (s.windowMask p) i = false ∧ s.wdLimit p ≤ tget 0 (s.base p).wdCount i; expired ∧ s.guardFree p)))
    ∧ (∃ (p : Part) (s : State), let g := s.guard p; g.phase = .heldFault)
    ∧ (∃ (p : Part) (d : Fin 24) (n : Nat) (s : State), let g := s.guard p; (p = .el ∨ s.ux.tripped = false) ∧ n ≠ 3 ∧ g.phase = .stage n ∧ d.val = unitDomain p g.culprit) :=
  ⟨⟨Part.el, 2#8, (State.mod (State.put (State.put State.reset .el Reg.SEQ_STAT_STATE 3) .el Reg.GUARD_WD_EN 1) .el (fun b => { b with wdCount := [(0, 2 ^ 60)] })), by simp only [alone_iff, Within, State.memOk, State.guardFree]; and_intros <;> decide +kernel⟩,
   ⟨Part.el, (State.modGuard State.reset .el (fun b => { b with phase := GPhase.heldFault })), by dsimp only; decide +kernel⟩,
   ⟨Part.el, 0, 1, (State.modGuard State.reset .el (fun b => { b with phase := GPhase.stage 1 })), by dsimp only; decide +kernel⟩⟩

theorem test_hyps_Security_part1 :
    (∃ (p : Part) (lane : Fin 160) (nonce : List Byte) (report : List Byte) (pub : List Byte) (sig : List Byte) (s : State), let puf := s.bit p Reg.SEC_STAT_PUF_OK; let x := lane.val; let asked := tget [] s.ux.nonces x; let opened := x < 128 ∧ s.laneState .ux x = 4 ∧ asked ≠ []; puf = false ∧ (s.base p).attPend = none ∧ nonce.length = 32 ∧ x < 128 ∧ s.reportOk x report pub = false ∧ (¬ opened) ∧ s.dbgOk p sig = false)
    ∧ (∃ (image : List Byte) (sig : List Byte) (keyId : Word) (s : State), s.sigOk .ux 1 keyId (sha384 image) sig = false)
    ∧ (∃ (p : Part) (s : State), (∀ k < 8, s.keyRevoked p k = true) ∧ (∀ k < 8, s.keyRevoked .ux k = true))
    ∧ (∃ (lane : Fin 160), let x := lane.val; 128 ≤ x)
    ∧ (∃ (p : Part) (s : State), let puf := s.bit p Reg.SEC_STAT_PUF_OK; puf = true)
    ∧ (∃ (p : Part) (s : State), ((match (s.base p).attPend with | some nonce => true | _ => false) = true))
    ∧ (∃ (lane : Fin 160) (s : State), let x := lane.val; let asked := tget [] s.ux.nonces x; let opened := x < 128 ∧ s.laneState .ux x = 4 ∧ asked ≠ []; opened)
    ∧ (∃ (image : List Byte) (sig : List Byte) (keyId : Word) (s : State), s.sigOk .ux 1 keyId (sha384 image) sig = true) :=
  ⟨⟨Part.el, 2, [5#8, 5#8, 5#8, 5#8, 5#8, 5#8, 5#8, 5#8, 5#8, 5#8, 5#8, 5#8, 5#8, 5#8, 5#8, 5#8, 5#8, 5#8, 5#8, 5#8, 5#8, 5#8, 5#8, 5#8, 5#8, 5#8, 5#8, 5#8, 5#8, 5#8, 5#8, 5#8], [], [], [], State.reset, by dsimp only; decide +kernel⟩,
   ⟨[1#8], [133#8, 104#8, 163#8, 90#8, 135#8, 155#8, 13#8, 80#8, 97#8, 50#8, 153#8, 60#8, 109#8, 145#8, 29#8, 49#8, 54#8, 167#8, 49#8, 64#8, 154#8, 184#8, 197#8, 210#8, 111#8, 215#8, 160#8, 30#8, 129#8, 66#8, 82#8, 129#8, 69#8, 58#8, 108#8, 106#8, 223#8, 76#8, 210#8, 243#8, 140#8, 119#8, 165#8, 4#8, 40#8, 21#8, 234#8, 72#8, 168#8, 217#8, 30#8, 162#8, 113#8, 246#8, 238#8, 166#8, 17#8, 240#8, 141#8, 24#8, 83#8, 111#8, 174#8, 215#8, 147#8, 42#8, 184#8, 224#8, 178#8, 111#8, 83#8, 15#8, 73#8, 42#8, 182#8, 255#8, 31#8, 159#8, 106#8, 75#8, 56#8, 46#8, 217#8, 50#8, 59#8, 230#8, 194#8, 106#8, 144#8, 14#8, 39#8, 82#8, 72#8, 80#8, 138#8, 91#8], 0#64, State.reset, by decide +kernel⟩,
   ⟨Part.ux, (State.put State.reset .ux Reg.SEC_KUSE_REVOKE 255), by decide +kernel⟩,
   ⟨128, by dsimp only; decide +kernel⟩,
   ⟨Part.ux, (State.put State.reset .ux Reg.SEC_STAT_PUF_OK 1), by dsimp only; decide +kernel⟩,
   ⟨Part.ux, (State.mod State.reset .ux (fun b => { b with attPend := some [] })), by decide +kernel⟩,
   ⟨0, (State.modUx (State.put State.reset .ux (Reg.LANE_STAT_STATE (laneBlk .ux 0)) 4) (fun u => { u with nonces := [(0, [1])] })), by dsimp only; decide +kernel⟩,
   ⟨[1#8], [133#8, 104#8, 163#8, 90#8, 135#8, 155#8, 13#8, 80#8, 97#8, 50#8, 153#8, 60#8, 109#8, 145#8, 29#8, 49#8, 54#8, 167#8, 49#8, 64#8, 154#8, 184#8, 197#8, 210#8, 111#8, 215#8, 160#8, 30#8, 129#8, 66#8, 82#8, 129#8, 69#8, 58#8, 108#8, 106#8, 223#8, 76#8, 210#8, 243#8, 140#8, 119#8, 165#8, 4#8, 40#8, 21#8, 234#8, 72#8, 168#8, 217#8, 30#8, 162#8, 113#8, 246#8, 238#8, 166#8, 17#8, 240#8, 141#8, 24#8, 83#8, 111#8, 174#8, 215#8, 147#8, 42#8, 184#8, 224#8, 178#8, 111#8, 83#8, 15#8, 73#8, 42#8, 182#8, 255#8, 31#8, 159#8, 106#8, 75#8, 56#8, 46#8, 217#8, 50#8, 59#8, 230#8, 194#8, 106#8, 144#8, 14#8, 39#8, 82#8, 72#8, 80#8, 138#8, 91#8], 0#64, (State.mod (State.put State.reset .ux Reg.SEC_KUSE_USE 2) .ux (fun b => { b with secBytes := memOf 0xC400 wKey })), by decide +kernel⟩⟩

theorem test_hyps_Security_part2 : ∃ (lane : Fin 160) (report : List Byte) (pub : List Byte) (s : State), let x := lane.val; x < 128 ∧ s.reportOk x report pub = true :=
  ⟨0, [0#8, 0#8, 0#8, 0#8, 0#8, 0#8, 0#8, 0#8, 0#8, 0#8, 0#8, 0#8, 0#8, 0#8, 0#8, 0#8, 0#8, 0#8, 0#8, 0#8, 0#8, 0#8, 0#8, 0#8, 5#8, 5#8, 5#8, 5#8, 5#8, 5#8, 5#8, 5#8, 5#8, 5#8, 5#8, 5#8, 5#8, 5#8, 5#8, 5#8, 5#8, 5#8, 5#8, 5#8, 5#8, 5#8, 5#8, 5#8, 5#8, 5#8, 5#8, 5#8, 5#8, 5#8, 5#8, 5#8, 0#8, 0#8, 0#8, 0#8, 0#8, 0#8, 0#8, 0#8, 0#8, 0#8, 0#8, 0#8, 0#8, 0#8, 0#8, 0#8, 0#8, 0#8, 0#8, 0#8, 0#8, 0#8, 0#8, 0#8, 0#8, 0#8, 0#8, 0#8, 0#8, 0#8, 0#8, 0#8, 0#8, 0#8, 0#8, 0#8, 0#8, 0#8, 0#8, 0#8, 0#8, 0#8, 0#8, 0#8, 0#8, 0#8, 0#8, 0#8, 0#8, 0#8, 0#8, 0#8, 0#8, 0#8, 0#8, 0#8, 0#8, 0#8, 0#8, 0#8, 0#8, 0#8, 0#8, 0#8, 0#8, 0#8, 0#8, 0#8, 0#8, 0#8, 0#8, 0#8, 0#8, 0#8, 0#8, 0#8, 0#8, 0#8, 0#8, 0#8, 0#8, 0#8, 0#8, 0#8, 0#8, 0#8, 0#8, 0#8, 0#8, 0#8, 0#8, 0#8, 0#8, 0#8, 0#8, 0#8, 0#8, 0#8, 0#8, 0#8, 0#8, 0#8, 0#8, 0#8, 0#8, 0#8, 0#8, 0#8, 0#8, 0#8, 0#8, 0#8, 0#8, 0#8, 0#8, 0#8, 0#8, 0#8, 0#8, 0#8, 0#8, 0#8, 0#8, 0#8, 0#8, 0#8, 0#8, 0#8, 0#8, 0#8, 0#8, 0#8, 0#8, 0#8, 0#8, 0#8, 0#8, 0#8, 0#8, 0#8, 0#8, 0#8, 0#8, 0#8, 133#8, 104#8, 163#8, 90#8, 135#8, 155#8, 13#8, 80#8, 97#8, 50#8, 153#8, 60#8, 109#8, 145#8, 29#8, 49#8, 54#8, 167#8, 49#8, 64#8, 154#8, 184#8, 197#8, 210#8, 111#8, 215#8, 160#8, 30#8, 129#8, 66#8, 82#8, 129#8, 69#8, 58#8, 108#8, 106#8, 223#8, 76#8, 210#8, 243#8, 140#8, 119#8, 165#8, 4#8, 40#8, 21#8, 234#8, 72#8, 151#8, 160#8, 96#8, 26#8, 154#8, 213#8, 58#8, 104#8, 186#8, 245#8, 166#8, 158#8, 195#8, 89#8, 48#8, 178#8, 248#8, 232#8, 60#8, 114#8, 182#8, 203#8, 134#8, 231#8, 223#8, 1#8, 185#8, 10#8, 156#8, 213#8, 200#8, 15#8, 26#8, 206#8, 176#8, 26#8, 118#8, 244#8, 30#8, 243#8, 69#8, 254#8, 150#8, 80#8, 22#8, 122#8, 67#8, 176#8], [122#8, 233#8, 225#8, 219#8, 17#8, 96#8, 121#8, 76#8, 112#8, 193#8, 239#8, 7#8, 27#8, 229#8, 25#8, 31#8, 108#8, 102#8, 36#8, 15#8, 70#8, 8#8, 251#8, 232#8, 164#8, 78#8, 205#8, 54#8, 195#8, 237#8, 93#8, 185#8, 117#8, 0#8, 242#8, 228#8, 216#8, 78#8, 63#8, 180#8, 88#8, 80#8, 253#8, 111#8, 67#8, 3#8, 48#8, 43#8, 216#8, 172#8, 33#8, 68#8, 76#8, 216#8, 13#8, 36#8, 21#8, 56#8, 216#8, 3#8, 75#8, 57#8, 154#8, 13#8, 238#8, 54#8, 54#8, 235#8, 92#8, 176#8, 11#8, 148#8, 153#8, 208#8, 97#8, 165#8, 113#8, 219#8, 15#8, 20#8, 187#8, 71#8, 237#8, 121#8, 69#8, 57#8, 72#8, 237#8, 99#8, 243#8, 166#8, 204#8, 187#8, 246#8, 231#8, 79#8], (State.modUx (State.mod (State.put State.reset .ux Reg.UX_SEC_ALLOW_COUNT 1) .ux (fun b => { b with mem := mwrite b.mem 0 (sha384 wKey) })) (fun u => { u with nonces := [(0, List.replicate 32 5)] })), by dsimp only; decide +kernel⟩

theorem test_hyps_TestAndThermal :
    (∃ (p : Part) (v : Bool) (action : Byte) (tj : BitVec 16) (stack : Fin 8) (s : State), let a := action.toNat; let st := s.get p Reg.TEST_STSTAT_STATE; let quiet := s.seqState .el = 0 ∨ s.seqState .el = 2; let q := (s.base p).selftest; let starts := st = 1 ∧ (q.action = 2 → quiet) ∧ (q.force = true ∨ s.actionFits p q.action q.mask = true); let d := 3 + stack.val; v = true ∧ s.bit p Reg.SEC_CTRL_TEST_PERMIT = false ∧ (a = 0 ∨ 4 < a) ∧ (¬ starts) ∧ s.windowOpen p = none ∧ (p = .el ∨ s.seqState .ux = 3 ∨ s.seqState .ux = 4) ∧ s.seqState .ux ≠ 3 ∧ s.seqState .ux ≠ 4 ∧ (st ≠ 1 ∨ q.force = true) ∧ st ≠ 2 ∧ (s.ux.warnCap = true ∨ tj.toNat < 1000) ∧ (s.ux.tripped = true ∨ tj.toNat < 1150) ∧ s.ux.stacksLost.contains d = false)
    ∧ (∃ (p : Part) (v : Bool) (s : State), (v = false ∨ s.bit p Reg.SEC_CTRL_TEST_PERMIT = true))
    ∧ (∃ (tj : BitVec 16) (s : State), s.ux.warnCap = false ∧ 1000 ≤ tj.toNat ∧ s.ux.tripped = false ∧ 1150 ≤ tj.toNat)
    ∧ (∃ (p : Part) (force : Bool) (action : Byte) (s : State), let a := action.toNat; let st := s.get p Reg.TEST_STSTAT_STATE; let quiet := s.seqState .el = 0 ∨ s.seqState .el = 2; let refused := st = 1 ∨ st = 2 ∨ (p = .el ∧ a = 4) ∨ (p = .ux ∧ a = 2) ∨ (force = true ∧ a = 2 ∧ ¬ quiet); let q := (s.base p).selftest; 1 ≤ a ∧ a ≤ 4 ∧ refused ∧ st = 1 ∧ q.force = false)
    ∧ (∃ (p : Part) (s : State), let st := s.get p Reg.TEST_STSTAT_STATE; let held := p = .el ∧ s.seqState .el = 2 ∧ (s.seq .el).heldStarts ≠ []; st = 2 ∧ (¬ held))
    ∧ (∃ (p : Part) (force : Bool) (action : Byte) (s : State), let a := action.toNat; let st := s.get p Reg.TEST_STSTAT_STATE; let quiet := s.seqState .el = 0 ∨ s.seqState .el = 2; let refused := st = 1 ∨ st = 2 ∨ (p = .el ∧ a = 4) ∨ (p = .ux ∧ a = 2) ∨ (force = true ∧ a = 2 ∧ ¬ quiet); 1 ≤ a ∧ a ≤ 4 ∧ (¬ refused))
    ∧ (∃ (p : Part) (s : State), let st := s.get p Reg.TEST_STSTAT_STATE; let quiet := s.seqState .el = 0 ∨ s.seqState .el = 2; let q := (s.base p).selftest; let starts := st = 1 ∧ (q.action = 2 → quiet) ∧ (q.force = true ∨ s.actionFits p q.action q.mask = true); starts)
    ∧ (∃ (stack : Fin 8) (s : State), let d := 3 + stack.val; s.ux.stacksLost.contains d = true) :=
  ⟨⟨Part.el, true, 0#8, 0#16, 0, State.reset, by dsimp only; decide +kernel⟩,
   ⟨Part.el, false, State.reset, by decide +kernel⟩,
   ⟨0xf77f#16, State.reset, by decide +kernel⟩,
   ⟨Part.el, false, 1#8, (State.put State.reset .el Reg.TEST_STSTAT_STATE 1), by dsimp only; decide +kernel⟩,
   ⟨Part.ux, (State.put State.reset .ux Reg.TEST_STSTAT_STATE 2), by dsimp only; decide +kernel⟩,
   ⟨Part.ux, false, 1#8, State.reset, by dsimp only; decide +kernel⟩,
   ⟨Part.ux, (State.put State.reset .ux Reg.TEST_STSTAT_STATE 1), by dsimp only; decide +kernel⟩,
   ⟨2, (State.modUx State.reset (fun u => { u with stacksLost := [5] })), by dsimp only; decide +kernel⟩⟩

end Sys2Proof.Tests
end

/-! SUPPORT. The pulse outputs (R56 to R59, R63): what arming answers in each of its three cases, disarming, and a due edge. -/

namespace Sys2Proof.Machine

/-- The state with a pulse output's own data replaced. -/
def State.setPulse (s : State) (p : Part) (i : Nat) (v : Pulse) : State :=
  s.mod p (fun b => { b with pulses := tput Pulse.zero b.pulses i v })

/-! ### What the registers of the pulse outputs leave -/

/-- PULSE0 is the first of the pulse register blocks. -/
theorem le_pulseBase (i : Nat) : 0x1400 ≤ pulseBase i := by
  unfold pulseBase
  split <;> omega

/-- The time bases lie below the pulse outputs (R63): a field from PULSE0 on does not enter R44's read formula. -/
theorem tbNow_put_of_le (s : State) (p : Part) (f : Fld) (v : Nat) {n : Nat} (hn : n < 4) (hf : 0x1400 ≤ f.off) :
    (s.put p f v).tbNow p n = s.tbNow p n := by
  have hreg : ∀ o, o < 0x1400 → (s.put p f v).reg p o = s.reg p o := fun o ho => by
    rw [reg_put, if_neg (by omega)]
  have hstate : (s.put p f v).tbState p n = s.tbState p n := by
    unfold State.tbState State.get
    rw [hreg _ (by simp only [Reg.TB_STAT_STATE]; split <;> omega)]
  have hraw : ∀ m, m < 4 → ∀ frc less, (s.put p f v).tbRaw p m frc less = s.tbRaw p m frc less := fun m hm frc less => by
    simp (disch := omega) only [State.tbRaw, State.tbAnchor, State.tbOfs, State.tbRate, State.getI, State.get, Reg.TB_ANCHOR_LO_ANCHOR_LO,
      Reg.TB_ANCHOR_HI_ANCHOR_HI, Reg.TB_OFS_SEC_SEC, Reg.TB_OFS_NSF_NS, Reg.TB_RATE_RATE, hreg]
  unfold State.tbNow State.tbAt
  rw [frcNow_put, hstate, hraw n hn, hraw 0 (by decide), hreg _ (by decide), hreg _ (by decide)]

/-- PULSE_STAT holds no selection of a time base. -/
theorem get_pulseCtrlTb_put_pulseStat (s : State) (p : Part) (i : Nat) (f : Fld) (v : Nat) (hf : f.off = pulseBase i + 0x8) :
    (s.put p f v).get p (Reg.PULSE_CTRL_TB i) = s.get p (Reg.PULSE_CTRL_TB i) := by
  unfold State.get
  rw [reg_put, if_neg (by rw [hf]; simp [Reg.PULSE_CTRL_TB])]

/-- A write to PULSE_STAT leaves the time base its output selects. -/
theorem tbNow_selected_put_pulseStat (s : State) (p : Part) (i : Nat) (f : Fld) (v : Nat) (hf : f.off = pulseBase i + 0x8) :
    (s.put p f v).tbNow p ((s.put p f v).get p (Reg.PULSE_CTRL_TB i)) = s.tbNow p (s.get p (Reg.PULSE_CTRL_TB i)) := by
  rw [get_pulseCtrlTb_put_pulseStat s p i f v hf]
  have hbase := le_pulseBase i
  exact tbNow_put_of_le s p f v (fget_lt _ _ _) (by omega)

/-- A field of a register is no part of a pulse output's own data. -/
theorem pulse_put (s : State) (p : Part) (f : Fld) (v i : Nat) : (s.put p f v).pulse p i = s.pulse p i := by
  unfold State.pulse State.put State.setReg
  rw [base_mod]

/-- A change of a pulse output's own data that depends on what it held. -/
theorem mod_pulses_eq_setPulse (s : State) (p : Part) (i : Nat) (g : Pulse → Pulse) :
    s.mod p (fun b => { b with pulses := tput Pulse.zero b.pulses i (g (tget Pulse.zero b.pulses i)) }) = s.setPulse p i (g (s.pulse p i)) := rfl

/-! ### Arming -/

/-- START is late exactly when it lies before the time base plus 64 ns (R58). -/
theorem pulseLate_iff (s : State) (p : Part) (i : Nat) :
    s.pulseLate p i = true ↔ s.pulseStart p i < (s.tbNow p (s.get p (Reg.PULSE_CTRL_TB i)) + 64 * 2 ^ 32) % hxtMod := by
  unfold State.pulseLate hxtAdd hxtNs
  exact decide_eq_true_iff

theorem pulseArm_of_refused {s : State} {p : Part} {i : Nat} (hr : s.pulseRefused p i = true) :
    (s.pulseArm p i).1 = s.log p (unitTime p) 0x1011 (0x100 + i) (Reg.PULSE_CTRL_ARM i).off := by
  unfold State.pulseArm pulseObj
  rw [if_pos hr]

theorem pulseArm_of_late {s : State} {p : Part} {i : Nat} (hr : s.pulseRefused p i = false) (hl : s.pulseLate p i = true) :
    (s.pulseArm p i).1 =
      (s.put p (Reg.PULSE_STAT_LATE i) 1).log p (unitTime p) 0x1010 (0x100 + i) (s.get p (Reg.PULSE_START_NSF_NS i)) := by
  unfold State.pulseArm pulseObj
  rw [if_neg (by simp [hr]), if_pos hl]

/-- An output armed in time waits for START from the instant of arming, with COUNT edges left when it counts; the two writes to
PULSE_STAT move neither its time base nor its own data. -/
theorem pulseArm_of_inTime {s : State} {p : Part} {i : Nat} (hr : s.pulseRefused p i = false) (hl : s.pulseLate p i = false) :
    (s.pulseArm p i).1 =
      ((s.put p (Reg.PULSE_STAT_ARMED i) 1).put p (Reg.PULSE_STAT_EDGES_LEFT i)
        (if s.get p (Reg.PULSE_CTRL_MODE i) = 2 then s.get p (Reg.PULSE_COUNT_COUNT i) else 0)).setPulse p i
        { s.pulse p i with nextEdge := s.pulseStart p i, from' := s.tbNow p (s.get p (Reg.PULSE_CTRL_TB i)), fired := 0 } := by
  unfold State.pulseArm
  rw [if_neg (by simp [hr]), if_neg (by simp [hl])]
  simp only
  rw [mod_pulses_eq_setPulse _ p i (fun u => { u with nextEdge := _, from' := _, fired := 0 }), pulse_put, pulse_put,
    tbNow_selected_put_pulseStat _ p i _ _ rfl, tbNow_selected_put_pulseStat s p i _ _ rfl]

/-! ### The commands on an output the part has -/

section
variable {p : Part} {i : Fin 8} (s : State) (hp : pulseHas p i = true)
include hp

theorem exec_pulseArm : exec (.pulseArm p i) s = .next (s.pulseArm p i).1 := by
  show execPulseArm p i s = _
  rw [execPulseArm, if_pos hp]

theorem exec_pulseDisarm : exec (.pulseDisarm p i) s = .next (s.put p (Reg.PULSE_STAT_ARMED i) 0) := by
  show execPulseDisarm p i s = _
  rw [execPulseDisarm, if_pos hp]

/-- Arming an output with one of the faults of R57 only logs 0x1011. -/
theorem goes_pulseArm_refused (hr : s.pulseRefused p i = true) :
    Goes (.pulseArm p i) s s p [(unitTime p, 0x1011, 0x100 + i.val, (Reg.PULSE_CTRL_ARM i).off)] :=
  goes_of _ ((exec_pulseArm s hp).trans (by rw [pulseArm_of_refused hr])) (core_log s p _ _ _ _) (logged_log _ _ _ _ rfl)

/-- Arming an output too late sets LATE and logs 0x1010 (R58). -/
theorem goes_pulseArm_late (hr : s.pulseRefused p i = false) (hl : s.pulseLate p i = true) :
    Goes (.pulseArm p i) s (s.put p (Reg.PULSE_STAT_LATE i) 1) p
      [(unitTime p, 0x1010, 0x100 + i.val, s.get p (Reg.PULSE_START_NSF_NS i))] :=
  goes_of _ ((exec_pulseArm s hp).trans (by rw [pulseArm_of_late hr hl])) (core_log _ p _ _ _ _)
    (logged_log _ _ _ _ (events_put s p p _ _))

/-- A due edge (R56, R59): EDGES_LEFT falls in MODE 2 only, and ARMED with a single edge or the last counted one. -/
theorem exec_pulseEdge_due (ha : s.bit p (Reg.PULSE_STAT_ARMED i) = true) (hd : s.pulseDue p i = true) :
    let u := s.pulse p i
    let left := s.get p (Reg.PULSE_STAT_EDGES_LEFT i)
    let t := s.setPulse p i { nextEdge := hxtAdd u.nextEdge (s.pulsePeriod p i), from' := u.nextEdge, fired := u.fired + 1,
                              on := some (u.nextEdge, hxtAdd u.nextEdge (s.pulseWidth p i)) }
    exec (.pulseEdge p i) s = .next (
      if s.get p (Reg.PULSE_CTRL_MODE i) = 0 then t.put p (Reg.PULSE_STAT_ARMED i) 0
      else if s.get p (Reg.PULSE_CTRL_MODE i) = 2 then
        if left ≤ 1 then (t.put p (Reg.PULSE_STAT_EDGES_LEFT i) (left - 1)).put p (Reg.PULSE_STAT_ARMED i) 0
        else t.put p (Reg.PULSE_STAT_EDGES_LEFT i) (left - 1)
      else t) := by
  intro u left t
  show execPulseEdge p i s = _
  rw [execPulseEdge, if_pos (by simp [hp, ha, hd])]
  by_cases hsingle : s.get p (Reg.PULSE_CTRL_MODE i) = 0
  · simp [hsingle, t, u, State.setPulse]
  · by_cases hcounted : s.get p (Reg.PULSE_CTRL_MODE i) = 2
    · by_cases hlast : left ≤ 1 <;> simp [hcounted, hlast, left, t, u, State.setPulse]
    · simp [hsingle, hcounted, t, u, State.setPulse]
end

/-- Without ARMED or before its edge an output does nothing. -/
theorem exec_pulseEdge_idle (p : Part) (i : Fin 8) (s : State) (h : s.bit p (Reg.PULSE_STAT_ARMED i) = false ∨ s.pulseDue p i = false) :
    exec (.pulseEdge p i) s = .next s := by
  show execPulseEdge p i s = _
  rw [execPulseEdge, if_neg]
  rcases h with h | h <;> simp [h]

/-- Settles O12, by the three answers of arming (refused, late, in time), the disarm, and the edge that is due or not. -/
theorem pulseOutputs : Obligations.PulseOutputs := by
  intro p i s hp
  refine ⟨goes_pulseArm_refused s hp, fun hr hl => goes_pulseArm_late s hp hr ((pulseLate_iff s p i).mpr hl), fun hr hl => ?_,
    exec_pulseDisarm s hp, exec_pulseEdge_due s hp, exec_pulseEdge_idle p i s⟩
  have hInTime : s.pulseLate p i = false := by
    rw [← Bool.not_eq_true, pulseLate_iff]
    exact Nat.not_lt.mpr hl
  rw [exec_pulseArm s hp, pulseArm_of_inTime hr hInTime]
  rfl

end Sys2Proof.Machine

/-! SUPPORT. Predication (R134, R138): a slot operation that is no executing wait only joins its bundle, and neither one that does not execute nor one of a sequencer that does not issue waits. -/

namespace Sys2Proof.Machine

/-- An answer that only lets a slot operation join its bundle. -/
def Joins (s : State) (p : Part) (e : Env) (o : Out) : Prop := ∃ slot acts, o = .next (s.slotOp p e slot acts)

section
variable {s : State} {p : Part} {e : Env}

/-! ### The waits, where they do not execute -/

theorem waits_of_not_runs (h : s.runs p e = false) : s.waits p e = false := by
  simp [State.waits, h]

theorem waits_of_not_issuing (h : s.issuing p = false) : s.waits p e = false := by
  simp [State.waits, h]

theorem joins_waitt {tb : Fin 4} {rel : Bool} {r : Fin 64} {ns : BitVec 32} (he : envOk e = true) (hok : waittOk s.el.lic p tb rel r = true)
    (hw : s.waits p e = false) : Joins s p e (execWaitt p e tb rel r ns s) :=
  ⟨0, [], by simp [execWaitt, he, hok, hw]⟩

theorem joins_waitc {core : BitVec 8} {k : BitVec 6} {a : Fin 64} {eq : Bool} {pre : Fin 4} {tmo : BitVec 24} {cf : Fin 8} (he : envOk e = true)
    (hok : (cntOk s.el.lic p core k && regOk p a && tmo != 0) = true) (hw : s.waits p e = false) :
    Joins s p e (execWaitc p e core k a eq pre tmo cf s) := by
  refine ⟨0, if eq then [.flag cf (s.cntRead p core.toNat k.toNat == (s.greg p a).toNat)] else [], ?_⟩
  simp only [Bool.and_eq_true] at hok
  obtain ⟨⟨hcnt, hreg⟩, htmo⟩ := hok
  simpa [execWaitc, he, hcnt, hreg, hw] using htmo

/-! ### Every other slot operation -/

theorem joins_issue {slot : Nat} {ok : Bool} {acts : List Act} (he : envOk e = true) (hok : ok = true) : Joins s p e (s.issue p e slot ok acts) :=
  ⟨slot, acts, by simp [State.issue, he, hok]⟩

theorem joins_treeOp {slot : Nat} {q : QDest} {regs : List (Fin 64)} {ok : Bool} {queue : QueueId} {kind : QKind} (he : envOk e = true)
    (hok : (destOk s.el.lic .ux q && regs.all (regOk .ux) && ok) = true) : Joins s .ux e (s.treeOp e slot q regs ok queue kind) :=
  joins_issue he hok

end

/-- A slot operation is well formed when its envelope and its operands hold no reserved encoding (R135, R169). -/
theorem wf_iff_of_env {c : Instr} {e : Env} {l : Licence} {n : Nat} (henv : c.env = some e) :
    c.wf l n = true ↔ envOk e = true ∧ c.operandsOk l n = true := by
  simp [Instr.wf, henv]

/-- The operands of a launch request name a register of the part (R169). -/
theorem regOk_of_lreqOk {p : Part} {a : Fin 64} {rel start : Bool} {gmask : BitVec 16} (h : lreqOk p a rel start gmask = true) : regOk p a = true := by
  simp only [lreqOk, Bool.and_eq_true] at h
  obtain ⟨⟨hreg, -⟩, -⟩ := h
  exact hreg

/-- A well-formed slot operation that is no executing wait joins its bundle. -/
theorem joins_exec {c : Instr} {e : Env} {s : State} (henv : c.env = some e) (hwf : c.wf s.el.lic (s.bundlesOf c) = true)
    (hw : s.waits (slotPart c) e = false) : Joins s (slotPart c) e (exec c s) := by
  obtain ⟨he, hok⟩ := (wf_iff_of_env henv).mp hwf
  clear hwf
  cases c <;> cases henv
  case waitt.refl => exact joins_waitt he hok hw
  case waitc.refl => exact joins_waitc he hok hw
  case tslot.refl | tbar.refl | tcmpg.refl | tlock.refl | trel.refl | vgen.refl | vseal.refl | vcmp.refl | vrest.refl | vdrop.refl
      | lseal.refl | lflush.refl | larch.refl | ltrim.refl =>
    exact joins_treeOp he (by simpa [Instr.operandsOk, Bool.and_assoc] using hok)
  case tlreq.refl =>
    obtain ⟨hdest, hlreq⟩ : destOk _ _ _ = true ∧ lreqOk _ _ _ _ _ = true := by simpa [Instr.operandsOk] using hok
    exact joins_treeOp he (by simp [hdest, hlreq, regOk_of_lreqOk hlreq])
  -- every other operation is an issue judged by the very operands `wf` judges
  all_goals exact joins_issue he hok

/-- An operation that does not execute does what a NOP of its envelope does (R134). -/
theorem exec_of_not_runs {c : Instr} {e : Env} {s : State} (henv : c.env = some e) (hwf : c.wf s.el.lic (s.bundlesOf c) = true)
    (hr : s.runs (slotPart c) e = false) : exec c s = exec (.nop (slotPart c) e) s := by
  have he : envOk e = true := ((wf_iff_of_env henv).mp hwf).1
  obtain ⟨slot, acts, hc⟩ := joins_exec henv hwf (waits_of_not_runs hr)
  obtain ⟨k, bs, hnop⟩ : Joins s (slotPart c) e (exec (.nop (slotPart c) e) s) := joins_issue he rfl
  rw [hc, hnop, slotOp_off slot k acts bs hr]

/-- A sequencer that does not issue takes no operation (R138). -/
theorem exec_of_not_issuing {c : Instr} {e : Env} {s : State} (henv : c.env = some e) (hwf : c.wf s.el.lic (s.bundlesOf c) = true)
    (hi : s.issuing (slotPart c) = false) : exec c s = .next s := by
  obtain ⟨slot, acts, hc⟩ := joins_exec henv hwf (waits_of_not_issuing hi)
  rw [hc, slotOp_stopped slot acts hi]

/-- A predicated operation executes when its flag, negated by PNEG, is set (R134). -/
theorem runs_of_predicated {e : Env} (s : State) (p : Part) (h : e.pen = true) : s.runs p e = (s.flag p e.pflag ^^ e.pneg) := by
  simp [State.runs, h]

/-- Settles O28: whatever the operation, one that is no executing wait only joins its bundle, which changes nothing beside a NOP when it does not run and
nothing at all when the sequencer does not issue. -/
theorem predication : Obligations.Predication := by
  intro c e s henv hwf
  exact ⟨fun hpen => by rw [runs_of_predicated s _ hpen], exec_of_not_runs henv hwf, exec_of_not_issuing henv hwf⟩

end Sys2Proof.Machine

/-! SUPPORT. The increments of one cycle (R171, R203, R209, R211): what the scan of the watches leaves, and one increment within the top. -/

namespace Sys2Proof.Machine

/-! ### Watches and wakes leave the counters (R211, R215) -/

@[simp] theorem counters_wakeWatch (s : State) (w kind : Nat) (eq : Bool) : (s.wakeWatch w kind eq).el.counters = s.el.counters := rfl

@[simp] theorem counters_watchTry (s : State) (w : Nat) : (s.watchTry w).el.counters = s.el.counters := by
  simp only [State.watchTry]
  split
  · exact counters_wakeWatch s w 0 _
  · rfl

/-- The scan of the watches queues wakes and moves no counter. -/
@[simp] theorem counters_watchScan (s : State) (keys : List Nat) : (s.watchScan keys).el.counters = s.el.counters := by
  unfold State.watchScan
  refine List.foldlRecOn (motive := fun t : State => t.el.counters = s.el.counters) s.el.watches _ rfl fun t ht e _ => ?_
  split
  · rw [counters_watchTry, ht]
  · exact ht

theorem cntAbs_watchScan (s : State) (keys : List Nat) (j : Nat) : (s.watchScan keys).cntAbs j = s.cntAbs j := by
  simp [State.cntAbs]

/-! ### One increment within the top -/

/-- With no pair loaded no pair is checked, and none faults (R209). -/
theorem pairCheck_of_no_pairs {s : State} (hp : (s.seq .el).pairs = []) (keys : List Nat) : s.pairCheck keys = (s, false) := by
  simp [State.pairCheck, hp]

/-- An increment other than 0 that stays within the top writes its counter's new value and re-arms the deadlock detector (R203, R217). -/
theorem cntAdd_of_le {s : State} {i n : Nat} (hn : n ≠ 0) (h : s.cntAbs i + n ≤ cntTop) :
    s.cntAdd i n = s.modEl (fun e => { e with counters := tput 0 e.counters i (s.cntAbs i + n), dldLogged := false }) := by
  rw [State.cntAdd, if_neg hn, if_pos h]

/-- Within the top the addition is exact, and it moves no other counter. -/
theorem cntAbs_cntAdd_of_le {s : State} {i n : Nat} (hn : n ≠ 0) (h : s.cntAbs i + n ≤ cntTop) (j : Nat) :
    (s.cntAdd i n).cntAbs j = if j = i then s.cntAbs j + n else s.cntAbs j := by
  rw [cntAdd_of_le hn h]
  refine (tget_tput 0 s.el.counters i j _).trans ?_
  by_cases hj : j = i
  · simp [hj]
  · simp [hj, State.cntAbs]

theorem seq_cntAdd_of_le {s : State} {i n : Nat} (hn : n ≠ 0) (h : s.cntAbs i + n ≤ cntTop) (p : Part) : (s.cntAdd i n).seq p = s.seq p := by
  rw [cntAdd_of_le hn h]
  cases p <;> rfl

/-- An increment of 0 is none. -/
theorem incAll_zero (s : State) (i : Nat) : s.incAll [(i, 0)] = s := by
  have hraw : s.incRaw [(i, 0)] = s.incRaw [] := by simp [State.incRaw, sumIncs, tget]
  rw [State.incAll, hraw, incRaw_nil]
  rfl

/-- One increment within the top, with no pair to fault: the addition, and then the scan of its counter's watches. -/
theorem incAll_single_of_le {s : State} {i n : Nat} (hn : n ≠ 0) (h : s.cntAbs i + n ≤ cntTop) (hp : (s.seq .el).pairs = []) :
    s.incAll [(i, n)] = (s.cntAdd i n).watchScan [i] := by
  have hpairs : ((s.cntAdd i n).seq .el).pairs = [] := by rw [seq_cntAdd_of_le hn h, hp]
  have hraw : s.incRaw [(i, n)] = ((s.cntAdd i n).watchScan [i], false) := by
    simp [State.incRaw, sumIncs, tget, hn, pairCheck_of_no_pairs hpairs]
  rw [State.incAll, hraw]
  rfl

/-- What the counters hold after one increment within the top with no pair loaded: its own counter the sum, every other what it held. -/
theorem cntAbs_incAll_single {s : State} {i n : Nat} (h : s.cntAbs i + n ≤ cntTop) (hp : (s.seq .el).pairs = []) (j : Nat) :
    (s.incAll [(i, n)]).cntAbs j = if j = i then s.cntAbs j + n else s.cntAbs j := by
  by_cases hn : n = 0
  · subst hn
    rw [incAll_zero, Nat.add_zero, ite_self]
  · rw [incAll_single_of_le hn h hp, cntAbs_watchScan, cntAbs_cntAdd_of_le hn h]

/-! ### The write of EL_SYNC_HINC (R206) -/

/-- In STARTUP or TEST a write that names a counter of the instance is one increment of it by AMT. -/
theorem exec_hincWrite_open {v : Word} {s : State} (hm : s.runMode = 1 ∨ s.runMode = 2) (hc : s.cntHas (fget v 63 56) (fget v 55 50) = true) :
    exec (.hincWrite v) s = .next (s.incAll [(cntKey (fget v 63 56) (fget v 55 50), fget v 39 0)]) := by
  show execHincWrite v s = _
  rw [execHincWrite, if_pos (by simp [hm, hc])]

/-- In any other mode, or naming a reserved counter, the write only logs 0x3005 with AMT. -/
theorem exec_hincWrite_refused {v : Word} {s : State} (h : ¬ (s.runMode = 1 ∨ s.runMode = 2) ∨ s.cntHas (fget v 63 56) (fget v 55 50) = false) :
    exec (.hincWrite v) s = .next (s.log .el 0x03 0x3005 (cntObj (cntKey (fget v 63 56) (fget v 55 50))) (fget v 39 0)) := by
  have hguard : ¬ ((s.runMode == 1 || s.runMode == 2) && s.cntHas (fget v 63 56) (fget v 55 50)) = true := by
    rcases h with hm | hc
    · simp [hm]
    · simp [hc]
  show execHincWrite v s = _
  rw [execHincWrite, if_neg hguard]

/-- Settles O41: an accepted write is one increment, which moves its counter alone; a refused one is its event. -/
theorem hostIncrements : Obligations.HostIncrements := by
  intro v s
  refine ⟨exec_hincWrite_open, fun hm hc hle hp => ?_, fun h => ?_⟩
  · exact ⟨_, exec_hincWrite_open hm hc, cntAbs_incAll_single hle hp⟩
  · exact goes_of _ (exec_hincWrite_refused h) (core_log s .el _ _ _ _) (logged_log _ _ _ _ rfl)

end Sys2Proof.Machine

/-! SUPPORT. Every command at once: what all but POWER_ON keep, the form of the memories over a step, and where a command is refused; and fields of registers. -/

namespace Sys2Proof.Machine

/-! ### POWER_ON and the form of the memories -/

/-- What survives power-down keeps the form of the memories: the provisioned bytes of SEC are a selection of those held. -/
theorem keeps_provisioned {s t : State} {p : Part} (hsec : Memory.wf (s.base p).secBytes = true) : Keeps t (s.provisioned p t) := by
  unfold State.provisioned
  exact keeps_mod (keeps_foldl (keeps_setReg (keeps_put (keeps_put (keeps_put (keeps_put (keeps_refl t)))))) (fun u k => keeps_setReg (keeps_refl u)))
    ⟨rfl, ⟨rfl, rfl⟩, List.prefix_refl _, id, fun _ => memory_wf_filter _ _ hsec⟩

theorem keeps_pufTry {r s : State} {p : Part} (h : Keeps r s) : Keeps r (s.pufTry p) := keeps_put (keeps_draw h)

/-- POWER_ON of an Elesh starts from empty memories and the memory of its die. -/
theorem memOk_elPowerOn {s : State} (filt slew : Nat) (h : s.memOk) : (s.elPowerOn filt slew).memOk := by
  obtain ⟨-, hmem, huxMem, hsec, huxSec⟩ := h
  have hprov : ∀ t : State, Keeps t (s.provisioned .el t) := fun t => keeps_provisioned hsec
  have hdown : ∀ (t : State) (d : Nat), Keeps t (t.setDstate .el d 0) := fun t d => keeps_setDstate (keeps_refl t)
  have hcore : ∀ t : State, Keeps t (if s.el.supplyCore then s.provisioned .el t else ([1, 2, 3, 4, 5] : List Nat).foldl (fun t d => t.setDstate .el d 0) (s.provisioned .el t)) :=
    fun t => keeps_ite (hprov t) (keeps_foldl (hprov t) hdown)
  unfold State.elPowerOn
  refine Keeps.memOk (keeps_fmulFollow (keeps_pufTry (keeps_ite (hcore _) ((hcore _).trans (hdown _ 6))))) ?_
  exact ⟨memory_wf_nil, hmem, huxMem, memory_wf_nil, huxSec⟩

/-- POWER_ON of a Uhloux chip starts from empty memories. -/
theorem memOk_uxPowerOn {s : State} (filt slew : Nat) (h : s.memOk) : (s.uxPowerOn filt slew).memOk := by
  obtain ⟨hspm, hmem, -, hsec, huxSec⟩ := h
  have htrain : ∀ t : State, Keeps t ((s.provisioned .ux t).pufTry .ux).pcieTrain.draw.2 := fun t =>
    keeps_draw (keeps_pcieTrain (keeps_pufTry (keeps_provisioned huxSec)))
  unfold State.uxPowerOn
  refine Keeps.memOk (keeps_ite (keeps_dpllAlarm (htrain _)) (htrain _)) ?_
  exact ⟨hspm, hmem, memory_wf_nil, hsec, memory_wf_nil⟩

theorem memOk_of_tame {s t : State} {o : Out} (h : Tame s o) (ho : o = .next t) (hs : s.memOk) : t.memOk := by
  subst ho
  obtain ⟨u, hu, hk⟩ | hr := h
  · cases hu
    exact hk.memOk hs
  · cases hr

/-! ### Every command but POWER_ON (R43) -/

/-- What each meaning keeps is said by its own lemma; here they are brought together. -/
theorem tame_exec (c : Instr) (s : State) (h : ∀ p f w, c ≠ .powerOn p f w) : Tame s (exec c s) := by
  have hk : Keeps s s := keeps_refl s
  cases c with
  | powerOn p f w => exact absurd rfl (h p f w)
  | tb3Step => exact tame_tb3Step hk
  | tb3LockDecl => exact tame_tb3LockDecl hk
  | tb3RateWrite => exact tame_tb3RateWrite hk
  | tbLockDwell => exact tame_tbLockDwell hk
  | tbSourceTimeout => exact tame_tbSourceTimeout hk
  | refclkLoss => exact tame_refclkLoss hk
  | pulseArm => exact tame_pulseArm hk
  | pulseDisarm => exact tame_pulseDisarm hk
  | pulseEdge => exact tame_pulseEdge hk
  | capEdge => exact tame_capEdge hk
  | capPop => exact tame_capPop hk
  | frcRead => exact tame_frcRead hk
  | tbRead => exact tame_tbRead hk
  | dumpDataRead => exact tame_dumpDataRead hk
  | manifestCommit => exact tame_manifestCommit hk
  | refValid => exact tame_refValid hk
  | refQualified => exact tame_refQualified hk
  | refLost => exact tame_refLost hk
  | dpllLocked => exact tame_dpllLocked hk
  | acqTimeout => exact tame_acqTimeout hk
  | wtrExpiry => exact tame_wtrExpiry hk
  | refModeWrite => exact tame_refModeWrite hk
  | rootStart => exact tame_rootStart hk
  | startWaitExpiry => exact tame_startWaitExpiry hk
  | todWrite => exact tame_todWrite hk
  | ppsEdge => exact tame_ppsEdge hk
  | ptpMessage => exact tame_ptpMessage hk
  | timeMessage => exact tame_timeMessage hk
  | upwardMark => exact tame_upwardMark hk
  | markSend => exact tame_markSend hk
  | tcalRecal => exact tame_tcalRecal hk
  | frameSlot => exact tame_frameSlot hk
  | frameReceive => exact tame_frameReceive hk
  | replayTimeout => exact tame_replayTimeout hk
  | losPersist => exact tame_losPersist hk
  | fecAlignLoss => exact tame_fecAlignLoss hk
  | awayFrame => exact tame_awayFrame hk
  | signalDetect => exact tame_signalDetect hk
  | laneJoinCmd => exact tame_laneJoinCmd hk
  | trainDone => exact tame_trainDone hk
  | trainTimeout => exact tame_trainTimeout hk
  | joinFrame => exact tame_joinFrame hk
  | laneLeaveCmd => exact tame_laneLeaveCmd hk
  | leaveFrame => exact tame_leaveFrame hk
  | drainEmpty => exact tame_drainEmpty hk
  | laneDrainTimeout => exact tame_laneDrainTimeout hk
  | laneCntClr => exact tame_laneCntClr hk
  | moduleInterrupt => exact tame_moduleInterrupt hk
  | modulePoll => exact tame_modulePoll hk
  | nop => exact tame_nop hk
  | br => exact tame_br hk
  | brr => exact tame_brr hk
  | loop => exact tame_loop hk
  | waitt => exact tame_waitt hk
  | anchorRelease => exact tame_anchorRelease hk
  | waitc => exact tame_waitc hk
  | waitcTimeout => exact tame_waitcTimeout hk
  | halt => exact tame_halt hk
  | quiet => exact tame_quiet hk
  | windowClose => exact tame_windowClose hk
  | trd => exact tame_trd hk
  | frcrd => exact tame_frcrd hk
  | parm => exact tame_parm hk
  | lreq => exact tame_lreq hk
  | larm => exact tame_larm hk
  | cinc => exact tame_cinc hk
  | cincr => exact tame_cincr hk
  | crd => exact tame_crd hk
  | wreg => exact tame_wreg hk
  | wclr => exact tame_wclr hk
  | arrive => exact tame_arrive hk
  | bar => exact tame_bar hk
  | ann => exact tame_ann hk
  | scale => exact tame_scale hk
  | tconv => exact tame_tconv hk
  | tadd => exact tame_tadd hk
  | tfin => exact tame_tfin hk
  | psum => exact tame_psum hk
  | spass => exact tame_spass hk
  | ssum => exact tame_ssum hk
  | bcvg => exact tame_bcvg hk
  | bcvv => exact tame_bcvv hk
  | fpa => exact tame_fpa hk
  | fpcmp => exact tame_fpcmp hk
  | xchk => exact tame_xchk hk
  | lemit => exact tame_lemit hk
  | sealv => exact tame_sealv hk
  | sealq => exact tame_sealq hk
  | lstag => exact tame_lstag hk
  | fclr => exact tame_fclr hk
  | frd => exact tame_frd hk
  | fsto => exact tame_fsto hk
  | rng => exact tame_rng hk
  | rngx => exact tame_rngx hk
  | srng => exact tame_srng hk
  | snext => exact tame_snext hk
  | sset => exact tame_sset hk
  | srd => exact tame_srd hk
  | rsto => exact tame_rsto hk
  | ld => exact tame_ld hk
  | st => exact tame_st hk
  | dmago => exact tame_dmago hk
  | dmaab => exact tame_dmaab hk
  | rdstep => exact tame_rdstep hk
  | rdid => exact tame_rdid hk
  | rdcnt => exact tame_rdcnt hk
  | mstg => exact tame_mstg hk
  | mchk => exact tame_mchk hk
  | mcommit => exact tame_mcommit hk
  | evt => exact tame_evt hk
  | gkick => exact tame_gkick hk
  | gtrap => exact tame_gtrap hk
  | mov => exact tame_mov hk
  | add => exact tame_add hk
  | sub => exact tame_sub hk
  | and => exact tame_and hk
  | or => exact tame_or hk
  | xor => exact tame_xor hk
  | shl => exact tame_shl hk
  | shr => exact tame_shr hk
  | sar => exact tame_sar hk
  | mul => exact tame_mul hk
  | movh => exact tame_movh hk
  | cmp => exact tame_cmp hk
  | fop => exact tame_fop hk
  | treeTrd => exact tame_treeTrd hk
  | tslot => exact tame_tslot hk
  | tbar => exact tame_tbar hk
  | tlreq => exact tame_tlreq hk
  | tcmpg => exact tame_tcmpg hk
  | tlock => exact tame_tlock hk
  | trel => exact tame_trel hk
  | vgen => exact tame_vgen hk
  | vseal => exact tame_vseal hk
  | vcmp => exact tame_vcmp hk
  | vrest => exact tame_vrest hk
  | vdrop => exact tame_vdrop hk
  | lseal => exact tame_lseal hk
  | lflush => exact tame_lflush hk
  | larch => exact tame_larch hk
  | ltrim => exact tame_ltrim hk
  | queuedOpStart => exact tame_queuedOpStart hk
  | queuedOpCompletion => exact tame_queuedOpCompletion hk
  | progRefetch => exact tame_progRefetch hk
  | seqLoad => exact tame_seqLoad hk
  | imageLoadEnd => exact tame_imageLoadEnd hk
  | seqUnload => exact tame_seqUnload hk
  | seqStart => exact tame_seqStart hk
  | tseqLoad => exact tame_tseqLoad hk
  | tseqStart => exact tame_tseqStart hk
  | csInc => exact tame_csInc hk
  | csWreg => exact tame_csWreg hk
  | csWrel => exact tame_csWrel hk
  | csArrive => exact tame_csArrive hk
  | wakeSend => exact tame_wakeSend hk
  | watchTimeout => exact tame_watchTimeout hk
  | hincWrite => exact tame_hincWrite hk
  | deadlock => exact tame_deadlock hk
  | engRst => exact tame_engRst hk
  | gateAck => exact tame_gateAck hk
  | annMessage => exact tame_annMessage hk
  | annResend => exact tame_annResend hk
  | annTimeout => exact tame_annTimeout hk
  | landTimeout => exact tame_landTimeout hk
  | idcChangeNotice => exact tame_idcChangeNotice hk
  | idcAnswer => exact tame_idcAnswer hk
  | idcClearAck => exact tame_idcClearAck hk
  | barLocalComplete => exact tame_barLocalComplete hk
  | barNodeArrival => exact tame_barNodeArrival hk
  | barRelease => exact tame_barRelease hk
  | barRefusal => exact tame_barRefusal hk
  | barTimeout => exact tame_barTimeout hk
  | barNodeTimeout => exact tame_barNodeTimeout hk
  | launchRequest => exact tame_launchRequest hk
  | dlaunchRecompute => exact tame_dlaunchRecompute hk
  | launchMessage => exact tame_launchMessage hk
  | launchFire => exact tame_launchFire hk
  | reductionContribution => exact tame_reductionContribution hk
  | slotHeldExpiry => exact tame_slotHeldExpiry hk
  | slotTimeout => exact tame_slotTimeout hk
  | xchkContribution => exact tame_xchkContribution hk
  | xchkBroadcast => exact tame_xchkBroadcast hk
  | chkerrReport => exact tame_chkerrReport (_mover := 0) hk
  | ledgerRecords => exact tame_ledgerRecords hk
  | lockRearm => exact tame_lockRearm hk
  | passVote => exact tame_passVote hk
  | failMessage => exact tame_failMessage hk
  | sealMessage => exact tame_sealMessage hk
  | ledgVerify => exact tame_ledgVerify hk
  | ledgChainReset => exact tame_ledgChainReset hk
  | hbSend => exact tame_hbSend hk
  | hbMessage => exact tame_hbMessage hk
  | hbMiss => exact tame_hbMiss hk
  | hearReq => exact tame_hearReq hk
  | hearAns => exact tame_hearAns hk
  | hearTimeout => exact tame_hearTimeout hk
  | propose => exact tame_propose hk
  | vote => exact tame_vote hk
  | proposeResend => exact tame_proposeResend hk
  | authoritySelfVote => exact tame_authoritySelfVote hk
  | decision => exact tame_decision hk
  | rollback => exact tame_rollback hk
  | rbReady => exact tame_rbReady hk
  | rbCommit => exact tame_rbCommit hk
  | fenceMessage => exact tame_fenceMessage hk
  | probation => exact tame_probation hk
  | healthDecay => exact tame_healthDecay hk
  | restoredWrite => exact tame_restoredWrite hk
  | hcReadmit => exact tame_hcReadmit hk
  | hcAdviseFailed => exact tame_hcAdviseFailed hk
  | hcFence => exact tame_hcFence hk
  | vaultMessage => exact tame_vaultMessage hk
  | pathReply => exact tame_pathReply hk
  | pathResend => exact tame_pathResend hk
  | dmaHostGo => exact tame_dmaHostGo hk
  | dmaHostAbort => exact tame_dmaHostAbort hk
  | dmaClrHalt => exact tame_dmaClrHalt hk
  | dmaDescriptorFetch => exact tame_dmaDescriptorFetch hk
  | dmaRequestDone => exact tame_dmaRequestDone hk
  | dmaBusError => exact tame_dmaBusError hk
  | vaultRestoreMessage => exact tame_vaultRestoreMessage hk
  | spmHostAccess => exact tame_spmHostAccess hk
  | spmHostTimeout => exact tame_spmHostTimeout hk
  | progApertureRead => exact tame_progApertureRead hk
  | spmClearDone => exact tame_spmClearDone hk
  | fclkSwitch => exact tame_fclkSwitch hk
  | pllFail => exact tame_pllFail hk
  | droopStretch => exact tame_droopStretch hk
  | throttleChange => exact tame_throttleChange hk
  | sleepEntry => exact tame_sleepEntry hk
  | wakeTrigger => exact tame_wakeTrigger hk
  | wakeEnd => exact tame_wakeEnd hk
  | uxDomainIdle => exact tame_uxDomainIdle hk
  | watchdog => exact tame_watchdog hk
  | hang => exact tame_hang hk
  | dumpReadTimeout => exact tame_dumpReadTimeout hk
  | dumpComplete => exact tame_dumpComplete hk
  | resetDoneReport => exact tame_resetDoneReport hk
  | stageTimeout => exact tame_stageTimeout hk
  | fatalClr => exact tame_fatalClr hk
  | faultHoldRelease => exact tame_faultHoldRelease hk
  | stageWrite => exact tame_stageWrite hk
  | manArm => exact tame_manArm hk
  | manNow => exact tame_manNow hk
  | manDisarm => exact tame_manDisarm hk
  | manDiscard => exact tame_manDiscard hk
  | hallGo => exact tame_hallGo hk
  | manPrep => exact tame_manPrep hk
  | manVote => exact tame_manVote hk
  | hallTimeout => exact tame_hallTimeout hk
  | manCommitMessage => exact tame_manCommitMessage hk
  | unitDrainTimeout => exact tame_unitDrainTimeout hk
  | vc5RdReq => exact tame_vc5RdReq hk
  | vc5WrReq => exact tame_vc5WrReq hk
  | attGo => exact tame_attGo hk
  | attestReq => exact tame_attestReq hk
  | attestRsp => exact tame_attestRsp hk
  | attestRetry => exact tame_attestRetry hk
  | provLock => exact tame_provLock hk
  | dbgUnlock => exact tame_dbgUnlock hk
  | keyRevoke => exact tame_keyRevoke hk
  | fwImage => exact tame_fwImage hk
  | selftestGo => exact tame_selftestGo hk
  | selftestStart => exact tame_selftestStart hk
  | selftestDefer => exact tame_selftestDefer hk
  | selftestDone => exact tame_selftestDone hk
  | testUnlock => exact tame_testUnlock hk
  | thermWarn => exact tame_thermWarn hk
  | thermClear => exact tame_thermClear hk
  | thermtrip => exact tame_thermtrip hk
  | hbmStackFail => exact tame_hbmStackFail hk
  | replaceClear => exact tame_replaceClear hk
  | registerWrite => exact tame_registerWrite hk
  | accessDomainTimeout => exact tame_accessDomainTimeout hk
  | supplyChange => exact tame_supplyChange hk
  | engRstLow => exact tame_engRstLow hk
  | evtTransfer => exact tame_evtTransfer hk
  | uxDomainOn => exact tame_uxDomainOn hk
  | quadrantFail => exact tame_quadrantFail hk
  | corePllTimeout => exact tame_corePllTimeout hk
  | attDone => exact tame_attDone hk
/-- Settles O4, by the lemma of each command's meaning. -/
theorem effectsKeep : Obligations.EffectsKeep := tame_exec

/-- Every command keeps the form of every memory, POWER_ON included. -/
theorem memOk_of_exec {c : Instr} {s t : State} (h : exec c s = .next t) (hs : s.memOk) : t.memOk := by
  by_cases hp : ∃ p f w, c = .powerOn p f w
  · obtain ⟨p, f, w, rfl⟩ := hp
    cases h
    cases p
    · exact memOk_elPowerOn _ _ hs
    · exact memOk_uxPowerOn _ _ hs
  · exact memOk_of_tame (tame_exec c s (fun p f w hc => hp ⟨p, f, w, hc⟩)) h hs

/-- Settles O5: an idle tick, POWER_ON and every other command keep the form. -/
theorem stepKeepsForm : Obligations.StepKeepsForm := by
  intro s t hs hstep
  cases hp : s.pending with
  | nil =>
    rw [step_nil hp] at hstep
    cases hstep
    exact idleTick_memOk hs
  | cons c cs =>
    rw [step_cons hp] at hstep
    exact memOk_of_exec hstep hs

/-! ### Where a command is refused (R135, R169) -/

/-- An answer decided by a judgement of encodings: refused where it fails, a next state where it holds. -/
structure Judged (ok : Bool) (o : Out) : Prop where
  refuses   : ok = false → o = .refused .reservedEncoding
  completes : ok = true → ∃ t, o = .next t

theorem Judged.congr {ok ok' : Bool} {o : Out} (h : Judged ok o) (he : ok' = ok) : Judged ok' o := he ▸ h

theorem judged_ite {ok : Bool} {t : State} : Judged ok (if ok then .next t else .refused .reservedEncoding) :=
  ⟨fun h => by simp [h], fun h => ⟨t, by simp [h]⟩⟩

theorem judged_issue (s : State) (p : Part) (e : Env) (slot : Nat) (ok : Bool) (acts : List Act) : Judged (envOk e && ok) (s.issue p e slot ok acts) :=
  judged_ite

theorem judged_waitt (p : Part) (e : Env) (tb : Fin 4) (rel : Bool) (r : Fin 64) (ns : BitVec 32) (s : State) :
    Judged (envOk e && waittOk s.el.lic p tb rel r) (execWaitt p e tb rel r ns s) := by
  unfold execWaitt
  refine ⟨fun h => if_pos (by rw [h]; rfl), fun h => ?_⟩
  rw [if_neg (by rw [h]; decide)]
  split <;> exact ⟨_, rfl⟩

theorem judged_waitc (p : Part) (e : Env) (core : BitVec 8) (k : BitVec 6) (a : Fin 64) (eq : Bool) (pre : Fin 4) (tmo : BitVec 24) (cf : Fin 8) (s : State) :
    Judged (envOk e && cntOk s.el.lic p core k && regOk p a && tmo != 0) (execWaitc p e core k a eq pre tmo cf s) := by
  unfold execWaitc
  refine ⟨fun h => if_pos (by rw [h]; rfl), fun h => ?_⟩
  rw [if_neg (by rw [h]; decide)]
  split <;> exact ⟨_, rfl⟩

/-- Every slot operation is judged by its envelope and its operands. -/
theorem judged_exec {c : Instr} {e : Env} (s : State) (henv : c.env = some e) : Judged (c.wf s.el.lic (s.bundlesOf c)) (exec c s) := by
  have hwf : c.wf s.el.lic (s.bundlesOf c) = (envOk e && c.operandsOk s.el.lic (s.bundlesOf c)) := by rw [Instr.wf, henv]
  rw [hwf]
  clear hwf
  cases c <;> cases henv
  case waitt.refl => exact judged_waitt _ _ _ _ _ _ s
  case waitc.refl => exact (judged_waitc _ _ _ _ _ _ _ _ _ s).congr (by simp [Instr.operandsOk, Bool.and_assoc])
  case tslot.refl | tbar.refl | tcmpg.refl | tlock.refl | trel.refl | vgen.refl | vseal.refl | vcmp.refl | vrest.refl | vdrop.refl
      | lseal.refl | lflush.refl | larch.refl | ltrim.refl =>
    exact (judged_issue s .ux _ _ _ _).congr (by simp [Instr.operandsOk, Bool.and_assoc])
  case tlreq.refl q a rel start lid gmask =>
    refine (judged_issue s .ux _ _ _ _).congr ?_
    have himp := @regOk_of_lreqOk .ux a rel start gmask
    cases hl : lreqOk .ux a rel start gmask <;> simp [Instr.operandsOk, hl, himp]
  -- every other operation is an issue judged by the very operands `wf` judges
  all_goals exact judged_issue s _ _ _ _ _

/-- Both branches of a choice complete. -/
theorem completes_ite {o o' : Out} {c : Prop} [Decidable c] (h : ∃ t, o = .next t) (k : ∃ t, o' = .next t) : ∃ t, (if c then o else o') = .next t := by
  split <;> assumption

/-- A command that is no slot operation completes on every state: the branches of its meaning all answer a next state. -/
theorem exec_completes_of_no_env {c : Instr} (s : State) (henv : c.env = none) : ∃ t, exec c s = .next t := by
  cases c <;> cases henv
  case tb3Step.refl | tb3RateWrite.refl | tbLockDwell.refl | pulseEdge.refl | capEdge.refl | refValid.refl | refQualified.refl | dpllLocked.refl
      | refModeWrite.refl | ppsEdge.refl | ptpMessage.refl | timeMessage.refl | upwardMark.refl | markSend.refl | frameSlot.refl | frameReceive.refl
      | awayFrame.refl | trainDone.refl | leaveFrame.refl | anchorRelease.refl | waitcTimeout.refl | progRefetch.refl | imageLoadEnd.refl
      | seqUnload.refl | seqStart.refl | wakeSend.refl | idcClearAck.refl | barRelease.refl | barRefusal.refl | barNodeTimeout.refl
      | launchRequest.refl | launchMessage.refl | slotTimeout.refl | ledgerRecords.refl | passVote.refl | failMessage.refl | sealMessage.refl
      | hbSend.refl | hbMessage.refl | propose.refl | decision.refl | rollback.refl | fenceMessage.refl | pathResend.refl | manCommitMessage.refl =>
    dsimp only [exec]
    delta execTb3Step execTb3RateWrite execTbLockDwell execPulseEdge execCapEdge execRefValid execRefQualified execDpllLocked execRefModeWrite
      execPpsEdge execPtpMessage execTimeMessage execUpwardMark execMarkSend execFrameSlot execFrameReceive execAwayFrame execTrainDone execLeaveFrame
      execAnchorRelease execWaitcTimeout execProgRefetch execImageLoadEnd execSeqUnload execSeqStart execWakeSend execIdcClearAck execBarRelease
      execBarRefusal execBarNodeTimeout execLaunchRequest execLaunchMessage execSlotTimeout execLedgerRecords execPassVote execFailMessage
      execSealMessage execHbSend execHbMessage execPropose execDecision execRollback execFenceMessage execPathResend execManCommitMessage
    with_reducible repeat' first | exact ⟨_, rfl⟩ | apply completes_ite | split | dsimp only
  all_goals exact ⟨_, rfl⟩

/-- Settles O6: a slot operation is judged by its encodings, every other command completes. -/
theorem refusedIffReserved : Obligations.RefusedIffReserved := by
  intro c s
  cases henv : c.env with
  | none =>
    obtain ⟨t, ht⟩ := exec_completes_of_no_env s henv
    exact ⟨by simp [ht], fun _ => ⟨t, ht⟩⟩
  | some e =>
    obtain ⟨hrefuse, hcomplete⟩ := judged_exec s henv
    cases hwf : c.wf s.el.lic (s.bundlesOf c) with
    | false => simp [hrefuse hwf]
    | true =>
      obtain ⟨t, ht⟩ := hcomplete hwf
      exact ⟨by simp [ht], fun _ => ⟨t, ht⟩⟩

/-! ### Fields of registers (R5) -/

/-- A register field of one part does not enter a field of the other part. -/
theorem get_put_part (s : State) {p q : Part} (f g : Fld) (v : Nat) (h : q ≠ p) : (s.put p f v).get q g = s.get q g := by
  unfold State.get State.put
  rw [reg_setReg_part _ _ _ _ h]

/-- Settles O7, by the read after the write and the two frames: the other part, and the other bits and registers of the part. -/
theorem fieldWrites : Obligations.FieldWrites := by
  intro s p q f g v hle hf hg
  refine ⟨get_put_same s p f v hf hle, fun hother => ?_⟩
  by_cases hq : q = p
  · subst hq
    exact get_put_other s q f g v hf hle hg (hother.resolve_left (fun h => h rfl))
  · exact get_put_part s f g v hq

end Sys2Proof.Machine

/-! SUPPORT. Slot operations that only write general registers and flags: the integer operations (R196) and the reads into G and C. -/

namespace Sys2Proof.Machine

/-- An operation alone in its bundle that writes registers and flags only has issued with exactly those writes. -/
theorem issues_inner {i : Instr} {s : State} {p : Part} {e : Env} {slot : Nat} {ok : Bool} {acts : List Act} (hexec : exec i s = s.issue p e slot ok acts)
    (hok : ok = true) (hin : ∀ a ∈ acts, a.inner = true) (h : Within s p e slot acts) : Issues i s s p (Act.gs (s.greg p) acts) (Act.cs (s.flag p) acts) := by
  obtain ⟨u, hu, hi⟩ := issue_inner h hin
  exact ⟨u, by rw [hexec, hok, hu], hi⟩

section
variable {i : Instr} {s : State} {p : Part} {e : Env} {slot : Nat} {ok : Bool}

/-- One general register is written. -/
theorem issues_greg {d : Nat} {v : Word} (hexec : exec i s = s.issue p e slot ok [.g d v]) (hok : ok = true) (h : Within s p e slot [.g d v]) :
    Issues i s s p (Function.update (s.greg p) d v) (s.flag p) :=
  issues_inner hexec hok (by simp [Act.inner]) h

/-- A pair of general registers is written. -/
theorem issues_gregPair {d d' : Nat} {v w : Word} (hexec : exec i s = s.issue p e slot ok [.g d v, .g d' w]) (hok : ok = true)
    (h : Within s p e slot [.g d v, .g d' w]) : Issues i s s p (Function.update (Function.update (s.greg p) d v) d' w) (s.flag p) :=
  issues_inner hexec hok (by simp [Act.inner]) h

/-- One flag is written. -/
theorem issues_flag {c : Nat} {b : Bool} (hexec : exec i s = s.issue p e slot ok [.flag c b]) (hok : ok = true) (h : Within s p e slot [.flag c b]) :
    Issues i s s p (s.greg p) (Function.update (s.flag p) c b) :=
  issues_inner hexec hok (by simp [Act.inner]) h
end

/-- Settles O32: the three forms of integer operations, each with one write. -/
theorem integerOperations : Obligations.IntegerOperations := by
  intro p e d a o v cd ca cb cond fn s A B writes flags
  have hop : ∀ (c : Instr) (f : Word → Word → Word), exec c s = s.intOp p e d a o f → regOk p d = true → regOk p a = true → opndOk p o = true →
      writes c (f A B) := fun c f hc hd ha ho hw => issues_greg hc (by simp [hd, ha, ho]) hw
  refine ⟨fun hd ho hw => issues_greg rfl (by simp [hd, ho]) hw, fun hd hw => issues_greg rfl hd hw, fun hd ha ho => ?_,
    fun ha ho hc hw => ?_, fun hw => ?_⟩
  · exact ⟨hop _ (· + ·) rfl hd ha ho, hop _ (· - ·) rfl hd ha ho, hop _ (· &&& ·) rfl hd ha ho, hop _ (· ||| ·) rfl hd ha ho, hop _ (· ^^^ ·) rfl hd ha ho,
      hop _ (fun x y => x <<< (y.toNat % 64)) rfl hd ha ho, hop _ (fun x y => x >>> (y.toNat % 64)) rfl hd ha ho,
      hop _ (fun x y => x.sshiftRight (y.toNat % 64)) rfl hd ha ho, hop _ (· * ·) rfl hd ha ho⟩
  · exact issues_flag rfl (by simp only [ha, ho, hc, decide_true, Bool.and_self]) hw
  · exact issues_flag rfl rfl hw

/-- Settles O33: each read writes one register, a pair, or its flag. -/
theorem registerReads : Obligations.RegisterReads := by
  intro e d a b n tb core k fa sel id src purpose cf s g l one two t tx quad
  refine ⟨fun hok hw => issues_greg rfl hok hw, fun hok hw => issues_gregPair rfl hok hw, fun hok hw => issues_greg rfl hok hw,
    fun hok hw => issues_gregPair rfl hok hw, fun hok hw => issues_gregPair rfl hok hw, fun hok hw => issues_greg rfl hok hw, fun hsel hw => ?_,
    fun hd hp hw => issues_gregPair rfl (by simp [hd, hp]) hw, fun hd hn hw => issues_gregPair rfl (by simp [hd, streamOk]; exact hn) hw, fun hw => issues_greg rfl rfl hw,
    fun hok hw => issues_greg rfl (by simp [hok]) hw, fun hok hw => issues_greg rfl (by simp [hok]) hw, fun hw => issues_flag rfl rfl hw⟩
  exact issues_greg rfl (by simpa [Fin.ext_iff] using hsel) hw

end Sys2Proof.Machine

/-! SUPPORT. The bookkeeping of a bundle in issue (R138, R147) is nobody's operand: what an operation does beside general registers and flags is the same on
the state that carries it and on the state without it. -/

namespace Sys2Proof.Machine

/-! ### The relation -/

/-- A sequencer with the registers, the flags and the issue marks of another. -/
def Seq.marked (q m : Seq) : Seq := { q with g := m.g, c := m.c, acts := m.acts, skip := m.skip, hold := m.hold, anchorOk := m.anchorOk, segNew := m.segNew }

/-- The state without a part's register file and sequencer. -/
def State.blank (s : State) (p : Part) : State := s.mod p (fun b => { b with regs := [], seq := Seq.zero })

/-- The register of the slips, which the bundle of an anchor clears (R147). -/
abbrev slipsOff : Nat := Reg.SEQ_SLIPS_SEGMENT.off

/-- `t` is `s` with the general registers, flags and marks of `m` in its sequencer; with `fresh` the count of the segment's slips has begun at 0. -/
structure Alike (m : Seq) (fresh : Bool) (p : Part) (s t : State) : Prop where
  rest  : t.blank p = s.blank p
  seq   : t.seq p = (s.seq p).marked m
  regs  : ∀ q o, (q, o) ≠ (p, slipsOff) → t.reg q o = s.reg q o
  slips : if fresh then t.get p Reg.SEQ_SLIPS_SEGMENT = 0 else t.reg p slipsOff = s.reg p slipsOff

section
variable {m : Seq} {fresh : Bool} {p : Part} {s t : State} (h : Alike m fresh p s t)
include h

/-! ### What alike states answer -/

theorem Alike.reg {q : Part} {o : Nat} (ho : o ≠ slipsOff) : t.reg q o = s.reg q o := h.regs q o (by simp [ho])

theorem Alike.get {q : Part} {f : Fld} (ho : f.off ≠ slipsOff) : t.get q f = s.get q f := by
  unfold State.get
  rw [h.reg ho]

theorem Alike.bit {q : Part} {f : Fld} (ho : f.off ≠ slipsOff) : t.bit q f = s.bit q f := by
  unfold State.bit
  rw [h.get ho]

theorem Alike.getI {q : Part} {f : Fld} (ho : f.off ≠ slipsOff) : t.getI q f = s.getI q f := by
  unfold State.getI
  rw [h.get ho]

/-- A reading of a part that looks at neither its register file nor its sequencer. -/
theorem Alike.base {α : Type} (f : Base → α) (hf : ∀ b, f { b with regs := [], seq := Seq.zero } = f b) (q : Part) : f (t.base q) = f (s.base q) := by
  have hq := congrArg (fun u => f (u.base q)) h.rest
  cases p <;> cases q
  · exact (hf _).symm.trans (hq.trans (hf _))
  · exact hq
  · exact hq
  · exact (hf _).symm.trans (hq.trans (hf _))

/-- A reading of the Elesh block beside its shared half. -/
theorem Alike.el {α : Type} (f : Elesh → α) (hf : ∀ e b, f { e with base := b } = f e) : f t.el = f s.el := by
  have hq := congrArg (fun u => f u.el) h.rest
  cases p
  · exact (hf _ _).symm.trans (hq.trans (hf _ _))
  · exact hq

theorem Alike.draws : t.draws = s.draws := by
  have hq := congrArg State.draws h.rest
  cases p <;> exact hq

theorem Alike.frcNow (q : Part) : t.frcNow q = s.frcNow q := congrArg BitVec.toNat (h.base Base.frc (fun _ => rfl) q)

theorem Alike.lane (q : Part) (x : Nat) : t.lane q x = s.lane q x := congrArg (fun l => tget Lane.zero l x) (h.base Base.lanes (fun _ => rfl) q)

theorem Alike.events (q : Part) : (t.base q).events = (s.base q).events := h.base Base.events (fun _ => rfl) q

/-- The time bases stand below the sequencer's registers, and no offset of theirs is that of the slips. -/
theorem Alike.tbNow (q : Part) (n : Nat) : t.tbNow q n = s.tbNow q n := by
  have hstate : t.tbState q n = s.tbState q n := by
    unfold State.tbState
    exact h.get (by simp only [Reg.TB_STAT_STATE, slipsOff, Reg.SEQ_SLIPS_SEGMENT]; omega)
  have hraw : ∀ n frc less, t.tbRaw q n frc less = s.tbRaw q n frc less := fun n frc less => by
    unfold State.tbRaw State.tbAnchor State.tbOfs State.tbRate
    rw [h.reg (by simp only [Reg.TB_ANCHOR_LO_ANCHOR_LO, slipsOff, Reg.SEQ_SLIPS_SEGMENT]; omega), h.get (by simp only [Reg.TB_ANCHOR_HI_ANCHOR_HI, slipsOff, Reg.SEQ_SLIPS_SEGMENT]; omega),
      h.reg (by simp only [Reg.TB_OFS_SEC_SEC, slipsOff, Reg.SEQ_SLIPS_SEGMENT]; omega), h.reg (by simp only [Reg.TB_OFS_NSF_NS, slipsOff, Reg.SEQ_SLIPS_SEGMENT]; omega),
      h.getI (by simp only [Reg.TB_RATE_RATE, slipsOff, Reg.SEQ_SLIPS_SEGMENT]; omega)]
  unfold State.tbNow State.tbAt
  rw [hstate, h.frcNow, hraw, hraw, h.reg (by decide), h.reg (by decide)]

/-! ### Updates that keep states alike -/

theorem Alike.mod (q : Part) (f : Base → Base) (hf : ∀ b r c, f { b with regs := r, seq := c } = { f b with regs := r, seq := c }) : Alike m fresh p (s.mod q f) (t.mod q f) := by
  have hregs : ∀ b, (f b).regs = b.regs := fun b => by
    have hb := congrArg Base.regs (hf b b.regs b.seq)
    exact hb
  have hseq : ∀ b, (f b).seq = b.seq := fun b => by
    have hb := congrArg Base.seq (hf b b.regs b.seq)
    exact hb
  have hblank : ∀ u : State, (u.mod q f).blank p = (u.blank p).mod q f := fun u => by
    cases p <;> cases q
    · exact congrArg (fun b => ({ u with el := { u.el with base := b } } : State)) (hf u.el.base [] Seq.zero).symm
    · rfl
    · rfl
    · exact congrArg (fun b => ({ u with ux := { u.ux with base := b } } : State)) (hf u.ux.base [] Seq.zero).symm
  have hreg : ∀ (u : State) r o, (u.mod q f).reg r o = u.reg r o := fun u r o => reg_mod u q r f o (hregs _)
  have hsq : ∀ u : State, (u.mod q f).seq p = u.seq p := fun u => by
    unfold State.seq
    by_cases hp : p = q
    · subst hp
      rw [base_mod, hseq]
    · rw [base_mod_ne _ _ hp]
  refine ⟨by rw [hblank, hblank, h.rest], by rw [hsq, hsq, h.seq], fun r o hr => by rw [hreg, hreg, h.regs r o hr], ?_⟩
  have hk := h.slips
  simp only [State.get, hreg] at hk ⊢
  exact hk

theorem Alike.modEl (f : Elesh → Elesh) (hf : ∀ e b, f { e with base := b } = { f e with base := b }) : Alike m fresh p (s.modEl f) (t.modEl f) := by
  have hbase : ∀ e, (f e).base = e.base := fun e => by
    have hb := congrArg Elesh.base (hf e e.base)
    exact hb
  have hblank : ∀ u : State, (u.modEl f).blank p = (u.blank p).modEl f := fun u => by
    cases p
    · show ({ u with el := { f u.el with base := { (f u.el).base with regs := [], seq := Seq.zero } } } : State) = _
      rw [hbase]
      exact congrArg (fun e => ({ u with el := e } : State)) (hf u.el { u.el.base with regs := [], seq := Seq.zero }).symm
    · rfl
  have hb : ∀ (u : State) q, (u.modEl f).base q = u.base q := fun u q => by
    cases q
    · exact hbase _
    · rfl
  have hreg : ∀ (u : State) r o, (u.modEl f).reg r o = u.reg r o := fun u r o => by unfold State.reg; rw [hb]
  have hsq : ∀ u : State, (u.modEl f).seq p = u.seq p := fun u => by unfold State.seq; rw [hb]
  refine ⟨by rw [hblank, hblank, h.rest], by rw [hsq, hsq, h.seq], fun r o hr => by rw [hreg, hreg, h.regs r o hr], ?_⟩
  have hk := h.slips
  simp only [State.get, hreg] at hk ⊢
  exact hk

theorem Alike.draw : Alike m fresh p s.draw.2 t.draw.2 := by
  have hd := h.draws
  have hblank : ∀ u : State, u.draw.2.blank p = (u.blank p).draw.2 := fun u => by cases p <;> rfl
  have hsq : ∀ u : State, u.draw.2.seq p = u.seq p := fun u => by cases p <;> rfl
  refine ⟨by rw [hblank, hblank, h.rest], by rw [hsq, hsq, h.seq], fun r o hr => by rw [reg_draw, reg_draw, h.regs r o hr], ?_⟩
  have hk := h.slips
  simp only [State.get, reg_draw] at hk ⊢
  exact hk

theorem Alike.modUx (f : Uhloux → Uhloux) (hf : ∀ u b, f { u with base := b } = { f u with base := b }) : Alike m fresh p (s.modUx f) (t.modUx f) := by
  have hbase : ∀ u, (f u).base = u.base := fun u => by
    have hb := congrArg Uhloux.base (hf u u.base)
    exact hb
  have hblank : ∀ u : State, (u.modUx f).blank p = (u.blank p).modUx f := fun u => by
    cases p
    · rfl
    · show ({ u with ux := { f u.ux with base := { (f u.ux).base with regs := [], seq := Seq.zero } } } : State) = _
      rw [hbase]
      exact congrArg (fun x => ({ u with ux := x } : State)) (hf u.ux { u.ux.base with regs := [], seq := Seq.zero }).symm
  have hb : ∀ (u : State) q, (u.modUx f).base q = u.base q := fun u q => by
    cases q
    · rfl
    · exact hbase _
  have hreg : ∀ (u : State) r o, (u.modUx f).reg r o = u.reg r o := fun u r o => by unfold State.reg; rw [hb]
  have hsq : ∀ u : State, (u.modUx f).seq p = u.seq p := fun u => by unfold State.seq; rw [hb]
  refine ⟨by rw [hblank, hblank, h.rest], by rw [hsq, hsq, h.seq], fun r o hr => by rw [hreg, hreg, h.regs r o hr], ?_⟩
  have hk := h.slips
  simp only [State.get, hreg] at hk ⊢
  exact hk

/-- A write to a register, other than the slips where their count is fresh. -/
theorem Alike.setReg (q : Part) (o : Nat) (w : Word) (ho : fresh = false ∨ o ≠ slipsOff) : Alike m fresh p (s.setReg q o w) (t.setReg q o w) := by
  have hreg : ∀ (u : State) r i, (u.setReg q o w).reg r i = if r = q ∧ i = o then w else u.reg r i := fun u r i => by
    by_cases hr : r = q
    · subst hr
      simp
    · simp [hr, reg_setReg_part u o i w hr]
  have hblank : ∀ u : State, (u.setReg q o w).blank p = if q = p then u.blank p else (u.blank p).setReg q o w := fun u => by
    cases p <;> cases q <;> rfl
  refine ⟨?_, by rw [seq_mod_regs, seq_mod_regs, h.seq], fun r i hi => by rw [hreg, hreg, h.regs r i hi], ?_⟩
  · rw [hblank, hblank, h.rest]
  · have hk := h.slips
    rcases ho with rfl | ho
    · simp only [Bool.false_eq_true, if_false, hreg] at hk ⊢
      rw [hk]
    · have hne : ¬ (p = q ∧ slipsOff = o) := fun hc => ho hc.2.symm
      simp only [State.get, hreg, if_neg hne] at hk ⊢
      exact hk

/-- A field is written, other than one of the slips. -/
theorem Alike.put (q : Part) (f : Fld) (v : Nat) (ho : f.off ≠ slipsOff) : Alike m fresh p (s.put q f v) (t.put q f v) := by
  unfold State.put
  rw [h.reg ho]
  exact h.setReg q _ _ (.inr ho)

theorem Alike.putI (q : Part) (f : Fld) (v : Int) (ho : f.off ≠ slipsOff) : Alike m fresh p (s.putI q f v) (t.putI q f v) := h.put q f _ ho

theorem Alike.count (q : Part) (f : Fld) (n : Nat) (ho : f.off ≠ slipsOff) : Alike m fresh p (s.count q f n) (t.count q f n) := by
  unfold State.count
  rw [h.get ho]
  exact h.put q f _ ho

/-- A change of a sequencer that leaves the marks to themselves. -/
theorem Alike.modSeq (q : Part) (f : Seq → Seq) (hf : ∀ c m, f (Seq.marked c m) = (f c).marked m) : Alike m fresh p (s.modSeq q f) (t.modSeq q f) := by
  have hblank : ∀ u : State, (u.modSeq q f).blank p = if q = p then u.blank p else (u.blank p).modSeq q f := fun u => by
    cases p <;> cases q <;> rfl
  have hsq : ∀ u : State, (u.modSeq q f).seq p = if q = p then f (u.seq p) else u.seq p := fun u => by
    cases p <;> cases q <;> rfl
  refine ⟨by rw [hblank, hblank, h.rest], ?_, fun r o hr => by rw [reg_modSeq, reg_modSeq, h.regs r o hr], ?_⟩
  · rw [hsq, hsq, h.seq]
    split
    · exact hf _ _
    · rfl
  · have hk := h.slips
    simp only [get_modSeq, reg_modSeq] at hk ⊢
    exact hk

/-! ### Messages and events -/

theorem Alike.modLane (q : Part) (x : Nat) (f : Lane → Lane) : Alike m fresh p (s.modLane q x f) (t.modLane q x f) := h.mod q _ (fun _ _ _ => rfl)

theorem Alike.sendOne (q : Part) (x : Nat) (msg : Msg) : Alike m fresh p (s.sendOne q x msg) (t.sendOne q x msg) := by
  have hstate : t.laneState q x = s.laneState q x := h.get (by
    cases q <;> simp only [Reg.LANE_STAT_STATE, laneBlk, slipsOff, Reg.SEQ_SLIPS_SEGMENT] <;> omega)
  have haway : t.bit q (Reg.LANE_STAT_AWAY (laneBlk q x)) = s.bit q (Reg.LANE_STAT_AWAY (laneBlk q x)) := h.bit (by
    cases q <;> simp only [Reg.LANE_STAT_AWAY, laneBlk, slipsOff, Reg.SEQ_SLIPS_SEGMENT] <;> omega)
  unfold State.sendOne
  simp only [hstate, haway]
  split
  · exact h.modLane q x _
  · exact h

theorem Alike.send (q : Part) (x : Nat) (msg : Msg) : Alike m fresh p (s.send q x msg) (t.send q x msg) := by
  have hlock : t.lockLane Reg.UX_LOCK_CTRL_PRI x = s.lockLane Reg.UX_LOCK_CTRL_PRI x := by
    unfold State.lockLane
    rw [h.bit (by decide), h.get (by decide), h.get (by decide)]
  unfold State.send
  simp only [hlock, h.get (q := .ux) (f := Reg.UX_LOCK_CTRL_SHD) (by decide)]
  split
  · exact (h.sendOne q x msg).sendOne .ux _ msg
  · exact h.sendOne q x msg

theorem Alike.sendUp (q : Part) (msg : Msg) : Alike m fresh p (s.sendUp q msg) (t.sendUp q msg) := by
  have hsel : t.selLane = s.selLane := by
    unfold State.selLane
    rw [h.bit (by decide), h.bit (by decide)]
  have hup : t.upLane = s.upLane := by
    unfold State.upLane
    rw [h.bit (by decide), h.bit (by decide)]
  unfold State.sendUp
  rw [hsel, hup]
  split
  · exact h.send q _ msg
  · exact h

theorem Alike.logRec (q : Part) (r : EvtRec) : Alike m fresh p (s.logRec q r) (t.logRec q r) := by
  have hev := h.mod q (fun b => { b with events := b.events ++ [r] }) (fun _ _ _ => rfl)
  unfold State.logRec
  cases q
  · refine (hev.modEl _ fun e b => ?_).sendUp .el _
    split <;> rfl
  · exact hev

theorem Alike.logW (q : Part) (u c o w d : Nat) : Alike m fresh p (s.logW q u c o w d) (t.logW q u c o w d) := by
  have hrec : t.record q u c o w d = s.record q u c o w d := by
    unfold State.record
    rw [h.tbNow]
  unfold State.logW
  rw [hrec]
  exact h.logRec q _

theorem Alike.log (q : Part) (u c o d : Nat) : Alike m fresh p (s.log q u c o d) (t.log q u c o d) := h.logW q u c o 0 d

theorem Alike.logI (q : Part) (u c o : Nat) (d : Int) : Alike m fresh p (s.logI q u c o d) (t.logI q u c o d) := h.log q u c o _
end

/-! ### The bundle in issue -/

/-- The marks of a bundle that takes effect. -/
def Seq.issued (q : Seq) : Seq := { q with acts := [], hold := .none, anchorOk := false, segNew := false }

/-- What a bundle without memory accesses takes effect from. -/
def State.issuedFrom (s : State) (p : Part) : State :=
  let w := s.slip p 0
  (if (w.seq p).segNew then w.put p Reg.SEQ_SLIPS_SEGMENT 0 else w).modSeq p Seq.issued

/-- A register of either part after a field of a register is set. -/
theorem reg_put_any (s : State) (p q : Part) (f : Fld) (v o : Nat) :
    (s.put p f v).reg q o = if q = p ∧ o = f.off then fset (s.reg p f.off) f.hi f.lo v else s.reg q o := by
  by_cases hq : q = p
  · subst hq
    simp
  · simp only [hq, false_and, if_false]
    exact reg_setReg_part s _ o _ hq

theorem blank_put (s : State) (p : Part) (f : Fld) (v : Nat) : (s.put p f v).blank p = s.blank p := by cases p <;> rfl

theorem blank_modSeq (s : State) (p : Part) (f : Seq → Seq) : (s.modSeq p f).blank p = s.blank p := by cases p <;> rfl

theorem blank_slip (s : State) (p : Part) (n : Nat) : (s.slip p n).blank p = s.blank p := by
  unfold State.slip State.count
  rw [blank_put, blank_put]

/-- Its state is the state before, but for the marks and the slips of an anchor's new segment. -/
theorem alike_issuedFrom (s : State) (p : Part) : Alike (s.seq p).issued (s.seq p).segNew p s (s.issuedFrom p) := by
  obtain ⟨-, hregs, -, hseq, hslips⟩ := issue_marks s p
  have hrest : (s.issuedFrom p).blank p = s.blank p := by
    unfold State.issuedFrom
    simp only [seq_slip, blank_modSeq]
    split
    · rw [blank_put, blank_slip]
    · rw [blank_slip]
  refine ⟨hrest, hseq, fun q o ho => hregs q o (fun hc => absurd hc ho), ?_⟩
  split
  · next hn => exact hslips hn
  · next hn => exact hregs p slipsOff (fun _ => by simpa using hn)

/-- With the segment started beforehand nothing differs but the marks. -/
theorem alike_issuedFrom_segStart (s : State) (p : Part) : Alike (s.seq p).issued false p (s.segStart p) (s.issuedFrom p) := by
  have hw : ∀ q o, (s.slip p 0).reg q o = s.reg q o := fun q o => reg_slip_zero s p q o
  unfold State.issuedFrom State.segStart
  simp only [seq_slip]
  by_cases hn : (s.seq p).segNew = true
  · simp only [hn, if_true]
    refine ⟨?_, ?_, fun q o _ => ?_, ?_⟩
    · simp only [blank_modSeq, blank_put, blank_slip]
    · simp only [seq_modSeq, seq_put, seq_slip]
      rfl
    · rw [reg_modSeq, reg_modSeq, reg_put_any, reg_put_any, hw, hw]
    · show State.reg _ p slipsOff = _
      rw [reg_modSeq, reg_modSeq, reg_put_any, reg_put_any, hw]
  · simp only [hn]
    refine ⟨?_, ?_, fun q o _ => ?_, ?_⟩
    · simp only [Bool.false_eq_true, if_false, blank_modSeq, blank_slip]
    · simp only [Bool.false_eq_true, if_false, seq_modSeq, seq_slip]
      rfl
    · simp only [Bool.false_eq_true, if_false, reg_modSeq, hw]
    · simp only [Bool.false_eq_true, if_false, reg_modSeq, hw]

/-- An act with no access to SPM. -/
def Act.offMemory : Act → Bool
  | .load _ | .spm _ _ _ | .replay _ _ => false
  | _ => true

/-- An act with no access to SPM, no increment and no watch. -/
def Act.alone : Act → Bool
  | .load _ | .spm _ _ _ | .replay _ _ | .inc _ _ _ | .wreg _ _ _ _ _ _ | .wclr _ => false
  | _ => true

/-- An act with no access to SPM, no increment, no watch and no effect on the control flow. -/
def Act.plain : Act → Bool
  | .inc _ _ _ | .branch _ | .fault _ _ | .halt | .wreg _ _ _ _ _ _ | .wclr _ | .load _ | .spm _ _ _ | .replay _ _ => false
  | _ => true

/-- An act with no effect on the control flow. -/
def Act.flowless : Act → Bool
  | .branch _ | .fault _ _ | .halt => false
  | _ => true

theorem Act.flowless_of_plain {a : Act} (h : a.plain = true) : a.flowless = true := by
  cases a <;> first | rfl | cases h

theorem Act.alone_of_plain {a : Act} (h : a.plain = true) : a.alone = true := by
  cases a <;> first | rfl | cases h

theorem Act.offMemory_of_alone {a : Act} (h : a.alone = true) : a.offMemory = true := by
  cases a <;> first | rfl | cases h

section
variable {acts : List Act} (h : ∀ a ∈ acts, a.offMemory = true)
include h

theorem offMemory_words : acts.flatMap Act.words = [] := by
  rw [List.flatMap_eq_nil_iff]
  intro a ha
  have hp := h a ha
  cases a <;> first | rfl | cases hp

theorem offMemory_accesses : bundleAccesses acts = [] := by
  unfold bundleAccesses
  rw [offMemory_words h]
  simp only [List.filter_nil, List.map_nil, List.nil_append, List.filterMap_eq_nil_iff]
  intro a ha
  have hp := h a ha
  cases a <;> first | rfl | cases hp

theorem offMemory_spm (s : State) : s.spmWrites acts = s := by
  unfold State.spmWrites
  simp only [offMemory_words h, List.filter_nil, List.foldl_nil]
  apply foldl_id
  intro a ha t
  have hp := h a ha
  cases a <;> first | rfl | cases hp

theorem offMemory_loads (s : State) : acts.foldl (fun u a => u.applyLoad a) s = s := by
  apply foldl_id
  intro a ha t
  have hp := h a ha
  cases a <;> first | rfl | cases hp

/-- A bundle that does not access SPM does its acts one after the other, then the increments, then the watches; control flow follows. -/
theorem bundleIssue_offMemory (s : State) (p : Part) :
    s.bundleIssue p acts =
      let v := acts.foldl (fun t a => t.applyAct p a) (s.issuedFrom p)
      let r := match p with | .el => v.incRaw (bundleIncs acts) | .ux => (v, false)
      (acts.foldl (fun t a => t.applyWatch a) r.1).bundleFlow p acts r.2 := by
  unfold State.bundleIssue
  rw [offMemory_accesses h]
  show (s.issuedFrom p).applyBundle p acts = _
  unfold State.applyBundle
  cases p <;> simp only [offMemory_loads h, offMemory_spm h]
end

section
variable {acts : List Act} (h : ∀ a ∈ acts, a.alone = true)
include h

theorem alone_watches (s : State) : acts.foldl (fun u a => u.applyWatch a) s = s := by
  apply foldl_id
  intro a ha t
  have hp := h a ha
  cases a <;> first | rfl | cases hp

theorem alone_incs : bundleIncs acts = [] := by
  unfold bundleIncs
  rw [List.filterMap_eq_nil_iff]
  intro a ha
  have hp := h a ha
  cases a <;> first | rfl | cases hp

/-- A bundle that changes no counter and no watch either: control flow follows its acts. -/
theorem bundleIssue_alone (s : State) (p : Part) : s.bundleIssue p acts = (acts.foldl (fun t a => t.applyAct p a) (s.issuedFrom p)).bundleFlow p acts false := by
  rw [bundleIssue_offMemory (fun a ha => Act.offMemory_of_alone (h a ha))]
  simp only [alone_incs h, incRaw_nil]
  cases p <;> simp only [alone_watches h]
end

section
variable {acts : List Act} (h : ∀ a ∈ acts, a.flowless = true)
include h

theorem flowless_logs (s : State) (p : Part) : acts.foldl (fun u a => u.logFault p a) s = s := by
  apply foldl_id
  intro a ha t
  have hp := h a ha
  cases a <;> first | rfl | cases hp

theorem flowless_flow : bundleBranch acts = none ∧ bundleFaults acts = false ∧ bundleHalts acts = false := by
  refine ⟨?_, ?_, ?_⟩
  · unfold bundleBranch
    rw [List.findSome?_eq_none_iff]
    intro a ha
    have hp := h a ha
    cases a <;> first | rfl | cases hp
  · unfold bundleFaults
    rw [List.any_eq_false]
    intro a ha
    have hp := h a ha
    cases a <;> first | exact Bool.false_ne_true | cases hp
  · unfold bundleHalts
    rw [Bool.eq_false_iff]
    intro hc
    have hp := h _ (List.contains_iff_mem.mp hc)
    cases hp

/-- PC passes on from a bundle that leaves the sequencer RUNNING. -/
theorem bundleFlow_flowless (s : State) (p : Part) (hr : s.seqState p = 3) (hm : s.pc p + 1 ≠ (s.seq p).bundles) :
    s.bundleFlow p acts false = s.put p Reg.SEQ_PC_PC (s.pc p + 1) := by
  obtain ⟨hb, hf, hh⟩ := flowless_flow h
  unfold State.bundleFlow
  simp only [hb, hf, hh, flowless_logs h, Option.getD_none, Bool.not_false, Bool.true_and, beq_eq_false_iff_ne.mpr hm, Bool.false_eq_true, if_false, hr, if_true,
    Bool.or_self, Bool.false_and]
end

/-- A bundle of plain acts does them one after the other, and control flow follows. -/
theorem bundleIssue_plain {acts : List Act} (h : ∀ a ∈ acts, a.plain = true) (s : State) (p : Part) :
    s.bundleIssue p acts = (acts.foldl (fun t a => t.applyAct p a) (s.issuedFrom p)).bundleFlow p acts false :=
  bundleIssue_alone (fun a ha => Act.alone_of_plain (h a ha)) s p

/-- A sequencer without what the issue of any bundle writes. -/
def Seq.stilled (q : Seq) : Seq := { q with g := [], c := 0, acts := [], hold := .none, skip := false, anchorOk := false, segNew := false }

theorem still_eq_blank (s : State) (p : Part) : s.still p = (s.blank p).core.mod p (fun b => { b with seq := (s.seq p).stilled }) := by cases p <;> rfl

/-- What alike states are when PC has moved on: the bundle has issued. -/
theorem Alike.issued {m : Seq} {fresh : Bool} {p : Part} {t v : State} (h : Alike m fresh p t v) (hfresh : (t.seq p).segNew = fresh)
    (hm : m.issued = m) (hskip : m.skip = false) {n : Nat} (hn : n < 2 ^ 16) :
    Issued t (v.put p Reg.SEQ_PC_PC n) p n (tget 0 m.g) (fun i => bitOf m.c.toNat i) := by
  have hoff : ∀ q o, ((q, o) ≠ (p, slipsOff) ∨ fresh = false) → v.reg q o = t.reg q o := fun q o ho => by
    by_cases hs : (q, o) = (p, slipsOff)
    · obtain ⟨rfl, rfl⟩ := Prod.mk.inj hs
      have hk := h.slips
      rw [ho.resolve_left (fun hc => hc rfl)] at hk
      exact hk
    · exact h.regs q o hs
  refine ⟨?_, ?_, ?_, ?_, ?_, ?_, ?_, ?_⟩
  · rw [still_put, still_eq_blank, still_eq_blank, h.rest, h.seq]
    rfl
  · intro q o hx
    rw [hfresh] at hx
    rw [reg_put_any, if_neg, hoff q o]
    · cases fresh
      · exact .inr rfl
      · exact .inl (by simpa using (not_or.mp (fun hc => hx (List.mem_cons.mpr (hc.imp_right List.mem_singleton.mpr)))).2)
    · rintro ⟨rfl, rfl⟩
      exact hx (by simp)
  · unfold State.pc
    rw [get_put_same v p Reg.SEQ_PC_PC _ (by decide) (by decide)]
    exact Nat.mod_eq_of_lt hn
  · intro a
    unfold State.greg
    rw [seq_put, h.seq]
    rfl
  · intro i _
    unfold State.flag
    rw [seq_put, h.seq]
    rfl
  · intro q
    rw [events_put, h.events]
  · have hacts := congrArg Seq.acts hm
    have hhold := congrArg Seq.hold hm
    have hanchor := congrArg Seq.anchorOk hm
    have hseg := congrArg Seq.segNew hm
    rw [seq_put, h.seq]
    exact ⟨hacts.symm, hhold.symm, hskip, hanchor.symm, hseg.symm⟩
  · intro hn
    have hk := h.slips
    rw [← hfresh, hn, if_pos rfl] at hk
    rw [← hk]
    exact get_put_other v p _ _ _ (by decide) (by decide) (by decide) (.inl (by decide))

/-! ### Writes of registers and flags around one other effect -/

/-- What an act writes of a sequencer's registers and flags. -/
def Seq.act (m : Seq) : Act → Seq
  | .g d v => { m with g := tput 0 m.g d v }
  | .flag c b => { m with c := BitVec.ofNat 8 (bitSet m.c.toNat c b) }
  | _ => m

theorem Alike.inner {m : Seq} {fresh : Bool} {p : Part} {s t : State} (h : Alike m fresh p s t) {a : Act} (ha : a.inner = true) :
    Alike (m.act a) fresh p s (t.applyAct p a) := by
  obtain ⟨hrest, hseq, hregs, hslips⟩ := h
  cases a <;> cases ha
  case g.refl d v =>
    refine ⟨(blank_modSeq t p _).trans hrest, ?_, fun q o ho => (reg_setGreg t q o p d v).trans (hregs q o ho), ?_⟩
    · show (t.setGreg p d v).seq p = _
      rw [State.setGreg, seq_modSeq, hseq]
      rfl
    · simp only [State.applyAct, State.get, reg_setGreg] at hslips ⊢
      exact hslips
  case flag.refl c b =>
    refine ⟨(blank_modSeq t p _).trans hrest, ?_, fun q o ho => (reg_setFlag t q o p c b).trans (hregs q o ho), ?_⟩
    · show (t.setFlag p c b).seq p = _
      rw [State.setFlag, seq_modSeq, hseq]
      rfl
    · simp only [State.applyAct, State.get, reg_setFlag] at hslips ⊢
      exact hslips
  case unit.refl => exact ⟨hrest, hseq, hregs, hslips⟩

theorem Alike.inners {p : Part} {s : State} {fresh : Bool} (acts : List Act) (ha : ∀ a ∈ acts, a.inner = true) {m : Seq} {t : State} (h : Alike m fresh p s t) :
    Alike (acts.foldl Seq.act m) fresh p s (acts.foldl (fun u a => u.applyAct p a) t) := by
  induction acts generalizing m t with
  | nil => exact h
  | cons a as ih => exact ih (fun b hb => ha b (by simp [hb])) (h.inner (ha a (by simp)))

/-- The acts of registers and flags leave the marks. -/
theorem act_marks (acts : List Act) (m : Seq) : let n := acts.foldl Seq.act m
    n.acts = m.acts ∧ n.hold = m.hold ∧ n.skip = m.skip ∧ n.anchorOk = m.anchorOk ∧ n.segNew = m.segNew := by
  induction acts generalizing m with
  | nil => exact ⟨rfl, rfl, rfl, rfl, rfl⟩
  | cons a as ih =>
    obtain ⟨h1, h2, h3, h4, h5⟩ := ih (m.act a)
    have hm : (m.act a).acts = m.acts ∧ (m.act a).hold = m.hold ∧ (m.act a).skip = m.skip ∧ (m.act a).anchorOk = m.anchorOk ∧ (m.act a).segNew = m.segNew := by
      cases a <;> exact ⟨rfl, rfl, rfl, rfl, rfl⟩
    obtain ⟨k1, k2, k3, k4, k5⟩ := hm
    exact ⟨h1.trans k1, h2.trans k2, h3.trans k3, h4.trans k4, h5.trans k5⟩

theorem act_gregs (acts : List Act) (m : Seq) : tget 0 (acts.foldl Seq.act m).g = Act.gs (tget 0 m.g) acts := by
  induction acts generalizing m with
  | nil => rfl
  | cons a as ih =>
    rw [List.foldl_cons, ih]
    cases a <;> try rfl
    case g d v =>
      show Act.gs (tget 0 (tput 0 m.g d v)) as = Act.gs (Function.update (tget 0 m.g) d v) as
      congr 1
      funext r
      rw [tget_tput, Function.update_apply]

theorem act_flags (acts : List Act) (m : Seq) : ∀ i < 8, bitOf (acts.foldl Seq.act m).c.toNat i = Act.cs (fun i => bitOf m.c.toNat i) acts i := by
  induction acts generalizing m with
  | nil => exact fun _ _ => rfl
  | cons a as ih =>
    intro i hi
    rw [List.foldl_cons, ih _ i hi]
    cases a <;> try rfl
    case flag c b =>
      refine cs_congr as (fun j hj => ?_) i hi
      have hset := flag_setFlag (State.reset.modSeq .el (fun _ => m)) .el c j b hj
      exact hset

/-- A bundle whose acts leave a state alike, and that passes on, has issued. -/
theorem issues_of_flow {i : Instr} {s t v : State} {p : Part} {acts : List Act} {m : Seq} {fresh : Bool} (hexec : exec i s = .next (v.bundleFlow p acts false))
    (hflow : ∀ a ∈ acts, a.flowless = true) (hv : Alike m fresh p t v) (hm : m.issued = m) (hskip : m.skip = false) (hstate : t.seqState p = 3) (hpc : t.pc p = s.pc p)
    (hfresh : (t.seq p).segNew = fresh) (hmore : s.pc p + 1 < (t.seq p).bundles) (hsize : (t.seq p).bundles ≤ 4096) :
    Issues i s t p (tget 0 m.g) (fun i => bitOf m.c.toNat i) := by
  refine ⟨_, hexec, ?_⟩
  have hvpc : v.pc p = s.pc p := (hv.get (by decide)).trans hpc
  have hvb : (v.seq p).bundles = (t.seq p).bundles := by
    rw [hv.seq]
    rfl
  rw [bundleFlow_flowless hflow v p ((hv.get (by decide)).trans hstate) (by rw [hvpc, hvb]; omega), hvpc]
  exact hv.issued hfresh hm hskip (by omega)

/-- The marks after acts on registers and flags are those of an issued bundle. -/
theorem issued_act (pre : List Act) (q : Seq) : (pre.foldl Seq.act q.issued).issued = pre.foldl Seq.act q.issued := by
  obtain ⟨macts, mhold, -, manchor, mseg⟩ := act_marks pre q.issued
  generalize pre.foldl Seq.act q.issued = m at macts mhold manchor mseg
  obtain ⟨⟩ := m
  simp only [Seq.issued] at macts mhold manchor mseg ⊢
  rw [macts, mhold, manchor, mseg]

/-- What issues with these registers and flags issues with equal ones. -/
theorem Issues.of_eq {i : Instr} {s t : State} {p : Part} {g g' : Nat → Word} {c c' : Nat → Bool} (h : Issues i s t p g c) (hg : g = g') (hc : ∀ i < 8, c i = c' i) :
    Issues i s t p g' c' := by
  obtain ⟨u, hx, k1, k2, k3, k4, k5, k6, k7, k8⟩ := h
  exact ⟨u, hx, k1, k2, k3, fun r => (k4 r).trans (congrFun hg r), fun j hj => (k5 j hj).trans (hc j hj), k6, k7, k8⟩

/-- An operation alone in its bundle that writes registers and flags around one effect: the bundle issues into what the effect makes of the state before it,
or of that state with the segment started. -/
theorem issues_around {i : Instr} {s b t : State} {p : Part} {e : Env} {slot : Nat} {ok fresh : Bool} {pre post : List Act} {a : Act}
    (hexec : exec i s = s.issue p e slot ok (pre ++ a :: post)) (hok : ok = true) (h : Within s p e slot (pre ++ a :: post))
    (hpre : ∀ x ∈ pre, x.inner = true) (hpost : ∀ x ∈ post, x.inner = true) (ha : a.plain = true)
    (hb : Alike (s.seq p).issued fresh p b (s.issuedFrom p))
    (heffect : ∀ m v, Alike m fresh p b v → Alike m fresh p t (v.applyAct p a))
    (hstate : t.seqState p = s.seqState p) (hpc : t.pc p = s.pc p) (hbundles : (t.seq p).bundles = (s.seq p).bundles) (hfresh : (t.seq p).segNew = fresh) :
    Issues i s t p (Act.gs (s.greg p) (pre ++ post)) (Act.cs (s.flag p) (pre ++ post)) := by
  obtain ⟨hal, hmore⟩ := h
  have hplain : ∀ x ∈ Act.unit slot :: (pre ++ a :: post), x.plain = true := by
    have hin : ∀ x : Act, x.inner = true → x.plain = true := fun x hx => by cases x <;> first | rfl | cases hx
    simp only [List.mem_cons, List.mem_append]
    rintro x (rfl | hx | rfl | hx)
    · rfl
    · exact hin x (hpre x hx)
    · exact ha
    · exact hin x (hpost x hx)
  have hv : Alike ((pre ++ post).foldl Seq.act (s.seq p).issued) fresh p t ((Act.unit slot :: (pre ++ a :: post)).foldl (fun u x => u.applyAct p x) (s.issuedFrom p)) := by
    rw [List.foldl_cons, List.foldl_append, List.foldl_append, List.foldl_cons]
    exact Alike.inners post hpost (heffect _ _ (Alike.inners pre hpre (hb.inner (a := .unit slot) rfl)))
  have hrun : t.seqState p = 3 := by
    have hi := hal.issues
    unfold State.issuing at hi
    simp only [Bool.and_eq_true, beq_iff_eq] at hi
    exact hstate.trans hi.1.1
  have hsize := hal.size
  exact (issues_of_flow (by rw [hexec, hok, issue_alone hal, bundleIssue_plain hplain]) (fun x hx => Act.flowless_of_plain (hplain x hx)) hv (issued_act _ _)
    ((act_marks (pre ++ post) (s.seq p).issued).2.2.1.trans hal.whole) hrun hpc hfresh (by omega) (by omega)).of_eq (act_gregs _ _) (act_flags _ _)

end Sys2Proof.Machine

/-! SUPPORT. Slot operations with one effect outside the registers and flags: windows (R150, R178), streams (R191, R277, R278) and the entry of queued operations (R142, R170). -/

namespace Sys2Proof.Machine

/-! ### Slack-water windows -/

section
variable {m : Seq} {fresh : Bool} {p : Part} {s t : State} (h : Alike m fresh p s t)
include h

theorem Alike.closeWindow : Alike m fresh p (s.closeWindow p) (t.closeWindow p) :=
  (h.modSeq p _ (fun _ _ => rfl)).put p _ _ (by decide)

theorem Alike.openWindow (w : Window) : Alike m fresh p (s.openWindow p w) (t.openWindow p w) :=
  (h.modSeq p _ (fun _ _ => rfl)).put p _ _ (by decide)

theorem Alike.quiet (mask n : Nat) : Alike m fresh p (s.quiet p mask n) (t.quiet p mask n) := by
  have hnom : (t.seq p).fclkNom = (s.seq p).fclkNom := by
    rw [h.seq]
    rfl
  unfold State.quiet
  rw [h.tbNow, hnom]
  split
  · exact h.closeWindow
  · exact h.openWindow _
end

/-- What QUIET leaves of the sequencer. -/
theorem quiet_keeps (s : State) (p : Part) (mask n : Nat) : (s.quiet p mask n).seqState p = s.seqState p ∧ (s.quiet p mask n).pc p = s.pc p
    ∧ ((s.quiet p mask n).seq p).bundles = (s.seq p).bundles ∧ ((s.quiet p mask n).seq p).segNew = (s.seq p).segNew := by
  unfold State.quiet State.closeWindow State.openWindow State.seqState State.pc
  split <;> simp [get_put_other, Reg.SEQ_STAT_QUIET, Reg.SEQ_STAT_STATE, Reg.SEQ_PC_PC]

theorem windowClose_of_closed {s : State} {p : Part} (h : s.windowOpen p = none) : exec (.windowClose p) s = .next (s.closeWindow p) := by
  show execWindowClose p s = _
  rw [execWindowClose, h]
  rfl

theorem windowClose_of_open {s : State} {p : Part} {w : Window} (h : s.windowOpen p = some w) : exec (.windowClose p) s = .next s := by
  show execWindowClose p s = _
  rw [execWindowClose, h]
  rfl

/-- Settles O31: QUIET issues with its window opened or closed, and a window closes when its end has come. -/
theorem slackWindows : Obligations.SlackWindows := by
  intro p e mask n s q opened closed
  refine ⟨fun hok hw => ?_, fun w t hq ht => ⟨fun hr => windowClose_of_closed ?_, fun hr => windowClose_of_open (w := w) ?_⟩,
    fun w hq ht => windowClose_of_open (w := w) ?_, fun hq => windowClose_of_closed ?_⟩
  · have hquiet : (if n = 0 then closed else opened) = s.quiet p mask.toNat n.toNat := by
      by_cases hn : n = 0
      · subst hn
        rfl
      · have hne : n.toNat ≠ 0 := fun hc => hn (BitVec.eq_of_toNat_eq hc)
        rw [if_neg hn, State.quiet, if_neg hne]
        rfl
    rw [hquiet]
    obtain ⟨k1, k2, k3, k4⟩ := quiet_keeps s p mask.toNat n.toNat
    exact issues_around (pre := []) (post := []) rfl hok hw (by simp) (by simp) rfl (alike_issuedFrom s p) (fun m v hv => hv.quiet _ _) k1 k2 k3 k4
  · simp [State.windowOpen, show (s.seq p).window = some w from hq, ht, hr]
  · simp [State.windowOpen, show (s.seq p).window = some w from hq, ht, hr]
  · simp [State.windowOpen, show (s.seq p).window = some w from hq, ht]
  · simp [State.windowOpen, show (s.seq p).window = none from hq]

/-! ### Streams -/

section
variable {m : Seq} {fresh : Bool} {p : Part} {s t : State} (h : Alike m fresh p s t)
include h

theorem Alike.slip (hfresh : fresh = false) (q : Part) (n : Nat) : Alike m fresh p (s.slip q n) (t.slip q n) := by
  subst hfresh
  have hreg : ∀ {u v : State}, Alike m false p u v → ∀ f k, Alike m false p (u.count q f k) (v.count q f k) := fun {u v} hu f k => by
    have hall : v.reg q f.off = u.reg q f.off := by
      by_cases ho : (q, f.off) = (p, slipsOff)
      · obtain ⟨hq, hoff⟩ := Prod.mk.inj ho
        rw [hq, hoff]
        exact hu.slips
      · exact hu.regs q _ ho
    unfold State.count State.put State.get
    rw [hall]
    exact hu.setReg q _ _ (.inl rfl)
  exact hreg (hreg h _ n) _ n

theorem Alike.seedLog (n code : Nat) : Alike m fresh p (s.seedLog n code) (t.seedLog n code) := by
  have hcur : t.curSample n = s.curSample n := h.el (fun e => match tget 0 e.cur n with | 0 => none | l + 1 => some l) (fun _ _ => rfl)
  have hpos : t.el.posLogged = s.el.posLogged := h.el Elesh.posLogged (fun _ _ => rfl)
  have hempty : t.el.emptyLogged = s.el.emptyLogged := h.el Elesh.emptyLogged (fun _ _ => rfl)
  have hcursor : t.cursor n = s.cursor n := h.reg (by simp only [Reg.SEED_S_CURSOR_CURSOR, slipsOff, Reg.SEQ_SLIPS_SEGMENT]; omega)
  unfold State.seedLog
  rw [hcur, hpos, hempty, hcursor]
  split
  · split
    · exact h
    · exact ((h.put .el _ _ (by decide)).log .el _ _ _ _).modEl _ (fun _ _ => rfl)
  · split
    · exact h
    · exact ((h.put .el _ _ (by decide)).log .el _ _ _ _).modEl _ (fun _ _ => rfl)

/-- The stream registers stand above the sequencer's. -/
theorem Alike.getStream {f : Fld} (hf : 0x7000 ≤ f.off) : t.get .el f = s.get .el f :=
  h.get (by simp only [slipsOff, Reg.SEQ_SLIPS_SEGMENT]; omega)

theorem Alike.streamUnit (n k : Nat) : t.streamUnit n k = s.streamUnit n k := by
  have hassign : t.bit .el (Reg.SEED_S_CFG1_ASSIGN n) = s.bit .el (Reg.SEED_S_CFG1_ASSIGN n) :=
    h.bit (by simp only [Reg.SEED_S_CFG1_ASSIGN, slipsOff, Reg.SEQ_SLIPS_SEGMENT]; omega)
  unfold State.streamUnit
  rw [h.getStream (f := Reg.SEED_S_CFG0_B n) (by simp [Reg.SEED_S_CFG0_B]; omega), hassign, h.get (q := .el) (f := Reg.SEED_DP_RANK) (by decide),
    h.get (q := .el) (f := Reg.SEQ_RUNCFG_W) (by decide)]

theorem Alike.runKeyDerive (purpose : Nat) : t.derive purpose = s.derive purpose := by
  unfold State.derive State.runKey
  rw [h.reg (by decide), h.reg (by decide)]

theorem Alike.stepCur : t.stepCur = s.stepCur := congrArg BitVec.toNat (h.reg (by decide))

theorem Alike.streamIndex (n k : Nat) : t.streamIndex n k = s.streamIndex n k := by
  unfold State.streamIndex
  rw [h.streamUnit, h.runKeyDerive, h.stepCur, h.getStream (by simp [Reg.SEED_S_CFG0_N]; omega), h.getStream (by simp [Reg.SEED_S_CFG0_B]; omega),
    h.getStream (by simp [Reg.SEED_S_CFG1_U]; omega), h.getStream (by simp [Reg.SEED_S_CFG1_SEED]; omega)]

theorem Alike.streamEvals (n k : Nat) : t.streamEvals n k = s.streamEvals n k := by
  unfold State.streamEvals
  rw [h.streamUnit, h.runKeyDerive, h.stepCur, h.getStream (by simp [Reg.SEED_S_CFG0_N]; omega), h.getStream (by simp [Reg.SEED_S_CFG0_B]; omega),
    h.getStream (by simp [Reg.SEED_S_CFG1_U]; omega), h.getStream (by simp [Reg.SEED_S_CFG1_SEED]; omega)]

theorem Alike.permStretch (hfresh : fresh = false) (n k : Nat) : Alike m fresh p (s.permStretch n k) (t.permStretch n k) := by
  unfold State.permStretch
  have hword : t.draw.1 = s.draw.1 := congrArg Config.freeWord h.draws
  simp only [h.streamEvals, hword]
  exact (h.draw.slip hfresh .el _).count .el Reg.SEED_STAT_PERM_SLIPS _ (by decide)

theorem Alike.setStream (n : Nat) (cursor : Word) (pos : Nat) : Alike m fresh p (s.setStream n cursor pos) (t.setStream n cursor pos) := by
  unfold State.setStream
  rw [h.streamIndex]
  have hoff : ∀ o, 0x7000 ≤ o → o ≠ slipsOff := fun o ho => by simp only [slipsOff, Reg.SEQ_SLIPS_SEGMENT]; omega
  exact (((h.setReg .el _ _ (.inr (hoff _ (by simp only [Reg.SEED_S_CURSOR_CURSOR]; omega)))).put .el _ _ (hoff _ (by simp only [Reg.SEED_S_CUR_L]; omega))).put .el _ _
    (hoff _ (by simp only [Reg.SEED_S_CUR_POS]; omega))).modEl _ (fun _ _ => rfl)

end

/-! ### What an effect leaves of the sequencer -/

/-- The sequencer of a part goes on as it was: its state, PC, program and segment. -/
structure GoesOn (p : Part) (s t : State) : Prop where
  state   : t.seqState p = s.seqState p
  pc      : t.pc p = s.pc p
  bundles : (t.seq p).bundles = (s.seq p).bundles
  segNew  : (t.seq p).segNew = (s.seq p).segNew

theorem GoesOn.trans {p : Part} {s t u : State} (h : GoesOn p s t) (k : GoesOn p t u) : GoesOn p s u :=
  ⟨k.state.trans h.state, k.pc.trans h.pc, k.bundles.trans h.bundles, k.segNew.trans h.segNew⟩

/-- An update that leaves the sequencer and the two registers. -/
theorem goesOn_of {p : Part} {s t : State} (hr : ∀ o, o = 0x2008 ∨ o = 0x2038 → t.reg p o = s.reg p o) (hq : t.seq p = s.seq p) : GoesOn p s t :=
  ⟨by unfold State.seqState State.get; rw [hr Reg.SEQ_STAT_STATE.off (.inl rfl)], by unfold State.pc State.get; rw [hr Reg.SEQ_PC_PC.off (.inr rfl)], by rw [hq], by rw [hq]⟩

theorem goesOn_setReg (s : State) (p q : Part) {o : Nat} (w : Word) (ho : o ≠ 0x2008 ∧ o ≠ 0x2038) : GoesOn p s (s.setReg q o w) := by
  refine goesOn_of (fun i hi => ?_) (seq_mod_regs s q p o w)
  by_cases hq : p = q
  · subst hq
    exact reg_setReg_other s p o i w (by omega)
  · exact reg_setReg_part s o i w hq

theorem goesOn_put (s : State) (p q : Part) {f : Fld} (v : Nat) (ho : f.off ≠ 0x2008 ∧ f.off ≠ 0x2038) : GoesOn p s (s.put q f v) := goesOn_setReg s p q _ ho

theorem goesOn_of_core {p : Part} {s t : State} (h : t.core = s.core) : GoesOn p s t := by
  have hq : t.seq p = s.seq p := by
    have hs : ∀ u : State, u.core.seq p = u.seq p := fun u => by cases p <;> rfl
    rw [← hs, h, hs]
  exact goesOn_of (fun o _ => reg_of_core h p o) hq

theorem goesOn_log (s : State) (p q : Part) (u c o d : Nat) : GoesOn p s (s.log q u c o d) := goesOn_of_core (core_log s q u c o d)

theorem goesOn_logW (s : State) (p q : Part) (u c o w d : Nat) : GoesOn p s (s.logW q u c o w d) := goesOn_of_core (core_logW s q u c o w d)

theorem goesOn_modEl (s : State) (p : Part) (f : Elesh → Elesh) (hf : (f s.el).base = s.el.base) : GoesOn p s (s.modEl f) := by
  refine goesOn_of (fun o _ => reg_modEl s f p o (congrArg Base.regs hf)) ?_
  cases p
  · exact congrArg Base.seq hf
  · rfl

theorem goesOn_seedLog (s : State) (p : Part) (n code : Nat) : GoesOn p s (s.seedLog n code) := by
  unfold State.seedLog
  split <;> split
  · exact goesOn_of_core rfl
  · exact ((goesOn_put s p .el _ (by decide)).trans (goesOn_log _ p .el _ _ _ _)).trans (goesOn_modEl _ p _ rfl)
  · exact goesOn_of_core rfl
  · exact ((goesOn_put s p .el _ (by decide)).trans (goesOn_log _ p .el _ _ _ _)).trans (goesOn_modEl _ p _ rfl)

theorem goesOn_slip (s : State) (p q : Part) (n : Nat) : GoesOn p s (s.slip q n) := (goesOn_put s p q _ (by decide)).trans (goesOn_put _ p q _ (by decide))

theorem goesOn_permStretch (s : State) (p : Part) (n k : Nat) : GoesOn p s (s.permStretch n k) :=
  ((goesOn_of_core (core_draw s)).trans (goesOn_slip _ p .el _)).trans (goesOn_put _ p .el _ (by decide))

theorem goesOn_setStream (s : State) (p : Part) (n : Nat) (cursor : Word) (pos : Nat) : GoesOn p s (s.setStream n cursor pos) := by
  unfold State.setStream
  exact (((goesOn_setReg s p .el _ (by simp only [Reg.SEED_S_CURSOR_CURSOR]; omega)).trans (goesOn_put _ p .el _ (by simp only [Reg.SEED_S_CUR_L]; omega))).trans
    (goesOn_put _ p .el _ (by simp only [Reg.SEED_S_CUR_POS]; omega))).trans (goesOn_modEl _ p _ rfl)

/-- The segment's start leaves the sequencer's state, PC and program. -/
theorem segStart_keeps (s : State) (p : Part) : (s.segStart p).seqState p = s.seqState p ∧ (s.segStart p).pc p = s.pc p
    ∧ ((s.segStart p).seq p).bundles = (s.seq p).bundles ∧ ((s.segStart p).seq p).segNew = false := by
  unfold State.segStart
  split
  · obtain ⟨k1, k2, -, -⟩ := goesOn_put s p p (f := Reg.SEQ_SLIPS_SEGMENT) 0 (by decide)
    refine ⟨(get_modSeq _ p _ p _).trans k1, (get_modSeq _ p _ p _).trans k2, ?_, ?_⟩
    · rw [seq_modSeq, seq_put]
    · rw [seq_modSeq, seq_put]
  · next hn => exact ⟨rfl, rfl, rfl, by simpa using hn⟩

/-! ### The operations -/

section
variable {i : Instr} {s t : State} {p : Part} {e : Env} {slot : Nat} {ok : Bool} {pre post : List Act} {a : Act}

/-- An effect that does not look at the slips, around which registers and flags are written. -/
theorem issues_effect (hexec : exec i s = s.issue p e slot ok (pre ++ a :: post)) (hok : ok = true) (h : Within s p e slot (pre ++ a :: post))
    (hpre : ∀ x ∈ pre, x.inner = true) (hpost : ∀ x ∈ post, x.inner = true) (ha : a.plain = true)
    (heffect : ∀ m fresh v, Alike m fresh p s v → Alike m fresh p t (v.applyAct p a)) (hgo : GoesOn p s t) :
    Issues i s t p (Act.gs (s.greg p) (pre ++ post)) (Act.cs (s.flag p) (pre ++ post)) :=
  issues_around hexec hok h hpre hpost ha (alike_issuedFrom s p) (fun m v => heffect m _ v) hgo.state hgo.pc hgo.bundles hgo.segNew

/-- An effect that may count slips: it acts on the state with the segment started. -/
theorem issues_slipping (hexec : exec i s = s.issue p e slot ok (pre ++ a :: post)) (hok : ok = true) (h : Within s p e slot (pre ++ a :: post))
    (hpre : ∀ x ∈ pre, x.inner = true) (hpost : ∀ x ∈ post, x.inner = true) (ha : a.plain = true)
    (heffect : ∀ m v, Alike m false p (s.segStart p) v → Alike m false p t (v.applyAct p a)) (hgo : GoesOn p (s.segStart p) t) :
    Issues i s t p (Act.gs (s.greg p) (pre ++ post)) (Act.cs (s.flag p) (pre ++ post)) := by
  obtain ⟨k1, k2, k3, k4⟩ := segStart_keeps s p
  exact issues_around hexec hok h hpre hpost ha (alike_issuedFrom_segStart s p) heffect (hgo.state.trans k1) (hgo.pc.trans k2) (hgo.bundles.trans k3) (hgo.segNew.trans k4)
end

end Sys2Proof.Machine

/-! SUPPORT. Draws and streams (R191, R277, R278). -/

namespace Sys2Proof.Machine

/-- The eight words of RNGX (R191), by register. -/
theorem gs_quads (g : Nat → Word) (d : Nat) (quad : Nat → Quad) :
    Act.gs g (([0, 1, 2, 3] : List Nat).flatMap (fun i => quadActs (d + 2 * i) (quad i))) =
      fun r => if d ≤ r ∧ r < d + 8 then (if (r - d) % 2 = 0 then (quad ((r - d) / 2)).wordA else (quad ((r - d) / 2)).wordB) else g r := by
  funext r
  simp only [List.flatMap_cons, List.flatMap_nil, quadActs, List.cons_append, List.nil_append, Act.gs, Function.update_apply]
  by_cases hr : d ≤ r ∧ r < d + 8
  · obtain ⟨k, rfl, hk⟩ : ∃ k, r = d + k ∧ k < 8 := ⟨r - d, by omega, by omega⟩
    interval_cases k <;> simp [add_assoc]
  · rw [if_neg hr]
    have hne : ∀ k < 8, r ≠ d + k := fun k hk hc => hr (by omega)
    simp only [add_assoc, hne 1 (by decide), if_false, show r ≠ d + 2 * 0 from hne 0 (by decide), show ∀ i, i < 4 → r ≠ d + 2 * i from fun i hi => hne _ (by omega),
      show ∀ i, i < 4 → r ≠ d + (2 * i + 1) from fun i hi => hne _ (by omega), Nat.reduceLT]

theorem srngActs_of_none {s : State} {d n purpose : Nat} (h : s.curSample n = none) : s.srngActs d n purpose = [.g d 0, .g (d + 1) 0, .seedLog n 0x4021] := by
  unfold State.srngActs
  rw [h]

theorem srngActs_of_last {s : State} {d n purpose l : Nat} (h : s.curSample n = some l) (hp : s.streamPos n = 2 ^ 24 - 1) :
    s.srngActs d n purpose = [.g d 0, .g (d + 1) 0, .seedLog n 0x4020] := by
  unfold State.srngActs
  rw [h, hp]
  rfl

theorem srngActs_of_next {s : State} {d n purpose l : Nat} (h : s.curSample n = some l) (hp : s.streamPos n ≠ 2 ^ 24 - 1) :
    s.srngActs d n purpose = quadActs d (s.drawQuad purpose l (s.streamPos n)) ++ [.streamPos n (s.streamPos n + 1)] := by
  unfold State.srngActs
  simp only [h, if_neg hp]

theorem exec_srng {e : Env} {d n : Fin 64} {purpose : BitVec 16} {s : State} {acts : List Act} (h : s.srngActs d n purpose.toNat = acts) :
    exec (.srng e d n purpose) s = s.issue .el e 5 (pairOk .el d && streamOk s.el.lic n && purposeOk purpose) acts := by
  rw [← h]
  rfl

/-- The stream moves on as the act says, on the state with the segment started. -/
theorem alike_stream {m : Seq} {s v : State} (h : Alike m false .el s v) (n : Nat) (cursor : Word) (pos : Nat) :
    Alike m false .el ((s.permStretch n cursor.toNat).setStream n cursor pos) (v.applyAct .el (.stream n cursor pos)) :=
  (h.permStretch rfl n cursor.toNat).setStream n cursor pos

theorem goesOn_stream (s : State) (p : Part) (n : Nat) (cursor : Word) (pos : Nat) : GoesOn p s ((s.permStretch n cursor.toNat).setStream n cursor pos) :=
  (goesOn_permStretch s p n _).trans (goesOn_setStream _ p n _ _)

/-- Settles O34: each operation is its acts around one effect, and what SRNG does is judged by the sample and the position. -/
theorem seedStreams : Obligations.SeedStreams := by
  intro e d a b n purpose s g pos quad here c idx
  refine ⟨fun hd hp hw => ?_, fun hd hn hp => ⟨fun hc hw => ?_, fun l hc hl hw => ?_, fun l hc hl hw => ?_⟩, fun hn hw => ?_, fun hn hw => ?_⟩
  · have hin : ∀ x ∈ ([0, 1, 2, 3] : List Nat).flatMap (fun i => quadActs (d + 2 * i) (quad i)), x.inner = true := by
      simp [quadActs, Act.inner]
    have hi := issues_inner (i := .rngx e d a b purpose) rfl (by simp [hd, hp]) hin hw
    rw [gs_quads] at hi
    exact hi
  · exact issues_effect (pre := [.g d 0, .g (d + 1) 0]) (post := []) (exec_srng (srngActs_of_none hc)) (by simp [hd, hp, streamOk, show n.val < s.el.lic.streams from hn]) hw
      (by simp [Act.inner]) (by simp) rfl (fun m fresh v hv => hv.seedLog _ _) (goesOn_seedLog _ _ _ _)
  · exact issues_effect (pre := [.g d 0, .g (d + 1) 0]) (post := []) (exec_srng (srngActs_of_last hc hl)) (by simp [hd, hp, streamOk, show n.val < s.el.lic.streams from hn]) hw
      (by simp [Act.inner]) (by simp) rfl (fun m fresh v hv => hv.seedLog _ _) (goesOn_seedLog _ _ _ _)
  · have hoff : ∀ o, o < 0x7000 → (Reg.SEED_S_CUR_POS n).off ≠ o := fun o ho => by simp only [Reg.SEED_S_CUR_POS]; omega
    exact issues_effect (pre := quadActs d _) (post := []) (exec_srng (srngActs_of_next hc hl)) (by simp [hd, hp, streamOk, show n.val < s.el.lic.streams from hn]) hw
      (by simp [quadActs, Act.inner]) (by simp) rfl (fun m fresh v hv => hv.put .el (Reg.SEED_S_CUR_POS n) _ (hoff _ (by decide))) (goesOn_put s .el .el _ ⟨hoff _ (by decide), hoff _ (by decide)⟩)
  · exact issues_slipping (pre := []) (post := [.g d idx]) rfl (by simp [streamOk, show n.val < s.el.lic.streams from hn]) hw (by simp) (by simp [Act.inner]) rfl
      (fun m v hv => alike_stream hv _ _ _) (goesOn_stream _ _ _ _ _)
  · exact issues_slipping (pre := []) (post := []) rfl (by simp [streamOk, show n.val < s.el.lic.streams from hn]) hw (by simp) (by simp) rfl
      (fun m v hv => alike_stream hv _ _ _) (goesOn_stream _ _ _ _ _)

end Sys2Proof.Machine

/-! SUPPORT. Queued operations enter their queue, or are refused at issue (R141, R142, R170). -/

namespace Sys2Proof.Machine

section
variable {m : Seq} {fresh : Bool} {p : Part} {s t : State} (h : Alike m fresh p s t)
include h

theorem Alike.pc (q : Part) : t.pc q = s.pc q := h.get (by decide)

theorem Alike.queueOn (q : QueueId) : t.queueOn q = s.queueOn q := by
  unfold State.queueOn
  rw [h.get (by decide)]

theorem Alike.talLast (op pc st block : Nat) : Alike m fresh p (s.talLast op pc st block) (t.talLast op pc st block) := by
  unfold State.talLast
  split
  · exact h
  · exact h.setReg .el _ _ (.inr (by decide))

theorem Alike.talReport (op pc st first n : Nat) : Alike m fresh p (s.talReport op pc st first n) (t.talReport op pc st first n) := by
  have hl := h.talLast op pc st first
  unfold State.talReport
  split
  · exact ((hl.put .el Reg.TAL_STAT_REFUSED _ (by decide)).count .el Reg.TAL_CNT_REFUSED_OPS _ (by decide)).log .el _ _ _ _
  split
  · exact hl.put .el Reg.TAL_STAT_MISMATCH _ (by decide)
  split
  · exact (hl.put .el Reg.TAL_STAT_NAN _ (by decide)).log .el _ _ _ _
  split
  · exact (hl.put .el Reg.TAL_STAT_SAT _ (by decide)).log .el _ _ _ _
  · exact hl

theorem Alike.qfail (q : Part) (queue : QueueId) (pc st : Nat) : Alike m fresh p (s.qfail q queue pc st) (t.qfail q queue pc st) := by
  unfold State.qfail
  rw [h.bit (f := Reg.SEQ_QSTAT_FLAG) (by decide), h.get (f := Reg.SEQ_QSTAT_COUNT) (by decide)]
  exact (((((h.put q Reg.SEQ_QSTAT_FLAG _ (by decide)).put q Reg.SEQ_QSTAT_STATUS _ (by decide)).put q Reg.SEQ_QSTAT_QUEUE _ (by decide)).put q Reg.SEQ_QSTAT_COUNT _ (by decide)).put q
    Reg.SEQ_QSTAT_PC _ (by decide)).logW q _ _ _ _ _

theorem Alike.enqueue (q : Part) (queue : QueueId) (kind : QKind) (core k amt entries : Nat) :
    Alike m fresh p (s.enqueue q queue kind core k amt entries) (t.enqueue q queue kind core k amt entries) := by
  unfold State.enqueue
  rw [h.queueOn, h.pc]
  split
  · exact h.mod q _ (fun _ _ _ => rfl)
  · exact (h.talLast _ _ _ _).qfail q _ _ _

theorem Alike.refuse (q : Part) (queue : QueueId) (op : Nat) : Alike m fresh p (s.refuse q queue op) (t.refuse q queue op) := by
  unfold State.refuse
  rw [h.queueOn, h.pc]
  split
  · exact (h.talReport _ _ _ _ _).qfail q _ _ _
  · exact (h.talLast _ _ _ _).qfail q _ _ _
end

theorem goesOn_mod (s : State) (p q : Part) (f : Base → Base) (hr : ∀ b, (f b).regs = b.regs) (hq : ∀ b, (f b).seq = b.seq) : GoesOn p s (s.mod q f) := by
  refine goesOn_of (fun o _ => reg_mod s q p f o (hr _)) ?_
  unfold State.seq
  by_cases hp : p = q
  · subst hp
    rw [base_mod, hq]
  · rw [base_mod_ne _ _ hp]

theorem goesOn_talLast (s : State) (p : Part) (op pc st block : Nat) : GoesOn p s (s.talLast op pc st block) := by
  unfold State.talLast
  split
  · exact goesOn_of_core rfl
  · exact goesOn_setReg s p .el _ (by decide)

theorem goesOn_talReport (s : State) (p : Part) (op pc st first n : Nat) : GoesOn p s (s.talReport op pc st first n) := by
  have hl := goesOn_talLast s p op pc st first
  unfold State.talReport
  split
  · exact ((hl.trans (goesOn_put _ p .el _ (by decide))).trans (goesOn_put _ p .el _ (by decide))).trans (goesOn_log _ p .el _ _ _ _)
  split
  · exact hl.trans (goesOn_put _ p .el _ (by decide))
  split
  · exact (hl.trans (goesOn_put _ p .el _ (by decide))).trans (goesOn_log _ p .el _ _ _ _)
  split
  · exact (hl.trans (goesOn_put _ p .el _ (by decide))).trans (goesOn_log _ p .el _ _ _ _)
  · exact hl

theorem goesOn_qfail (s : State) (p q : Part) (queue : QueueId) (pc st : Nat) : GoesOn p s (s.qfail q queue pc st) := by
  unfold State.qfail
  exact (((((goesOn_put _ p q _ (by decide)).trans (goesOn_put _ p q _ (by decide))).trans (goesOn_put _ p q _ (by decide))).trans (goesOn_put _ p q _ (by decide))).trans
    (goesOn_put _ p q _ (by decide))).trans (goesOn_logW _ p q _ _ _ _ _)

theorem goesOn_enqueue (s : State) (p q : Part) (queue : QueueId) (kind : QKind) (core k amt entries : Nat) : GoesOn p s (s.enqueue q queue kind core k amt entries) := by
  unfold State.enqueue
  split
  · exact goesOn_mod s p q _ (fun _ => rfl) (fun _ => rfl)
  · exact (goesOn_talLast s p _ _ _ _).trans (goesOn_qfail _ p q _ _ _)

theorem goesOn_refuse (s : State) (p q : Part) (queue : QueueId) (op : Nat) : GoesOn p s (s.refuse q queue op) := by
  unfold State.refuse
  split
  · exact (goesOn_talReport s p _ _ _ _ _).trans (goesOn_qfail _ p q _ _ _)
  · exact (goesOn_talLast s p _ _ _ _).trans (goesOn_qfail _ p q _ _ _)

section
variable {i : Instr} {s : State} {p : Part} {e : Env} {slot : Nat} {ok : Bool} {queue : QueueId}

/-- A queued operation whose one act is its entry. -/
theorem issues_enqueue {kind : QKind} {core k amt entries : Nat} (hexec : exec i s = s.issue p e slot ok [.queue queue kind core k amt entries]) (hok : ok = true)
    (h : Within s p e slot [.queue queue kind core k amt entries]) : Issues i s (s.enqueue p queue kind core k amt entries) p (s.greg p) (s.flag p) :=
  issues_effect (pre := []) (post := []) hexec hok h (by simp) (by simp) rfl (fun _ _ _ hv => hv.enqueue p _ _ _ _ _ _) (goesOn_enqueue s p p _ _ _ _ _ _)

/-- A RED operation whose one act is its refusal. -/
theorem issues_refuse {op : Nat} (hexec : exec i s = s.issue p e slot ok [.refuse queue op]) (hok : ok = true)
    (h : Within s p e slot [.refuse queue op]) : Issues i s (s.refuse p queue op) p (s.greg p) (s.flag p) :=
  issues_effect (pre := []) (post := []) hexec hok h (by simp) (by simp) rfl (fun _ _ _ hv => hv.refuse p _ _) (goesOn_refuse s p p _ _)
end

theorem talActs_of_within {s : State} {op : Nat} {q : QDest} {t : TArgs} (h : 1 ≤ (s.greg .el t.gn).toNat) (h' : (s.greg .el t.gn).toNat ≤ 256) :
    s.talActs op q t = [qAct .red (.tal op (s.greg .el t.ga).toNat (s.greg .el t.gb).toNat (s.greg .el t.gn).toNat (s.greg .el t.ge).toNat t.fmt.toNat t.cls t.mx) q (s.greg .el t.gn).toNat] := by
  unfold State.talActs
  exact if_neg (by omega)

theorem talActs_of_outside {s : State} {op : Nat} {q : QDest} {t : TArgs} (h : (s.greg .el t.gn).toNat = 0 ∨ 256 < (s.greg .el t.gn).toNat) :
    s.talActs op q t = [.refuse .red op] := by
  unfold State.talActs
  exact if_pos h

theorem scalarEntries_of_within {n : Nat} (h : 1 ≤ n) (h' : n ≤ 16384) : scalarEntries n = some ((n + 63) / 64) := by
  unfold scalarEntries
  rw [if_neg (by omega)]
  rfl

theorem scalarEntries_of_outside {n : Nat} (h : n = 0 ∨ 16384 < n) : scalarEntries n = none := if_pos h

/-- A format T operation: it enters the RED queue, or is refused for its count (R141). -/
theorem issues_tal {i : Instr} {s : State} {e : Env} {ok : Bool} {op : Nat} {q : QDest} {t : TArgs} (hexec : exec i s = s.issue .el e 3 ok (s.talActs op q t)) (hok : ok = true) :
    let g := fun r => (s.greg .el r).toNat
    let kind := QKind.tal op (g t.ga) (g t.gb) (g t.gn) (g t.ge) t.fmt.toNat t.cls t.mx
    (1 ≤ g t.gn → g t.gn ≤ 256 → Within s .el e 3 [.queue .red kind q.core.toNat q.k.toNat (q.amt.toNat + 1) (g t.gn)] →
        Issues i s (s.enqueue .el .red kind q.core.toNat q.k.toNat (q.amt.toNat + 1) (g t.gn)) .el (s.greg .el) (s.flag .el))
      ∧ (g t.gn = 0 ∨ 256 < g t.gn → Within s .el e 3 [.refuse .red op] → Issues i s (s.refuse .el .red op) .el (s.greg .el) (s.flag .el)) :=
  ⟨fun h1 h2 hw => issues_enqueue (by rw [hexec, talActs_of_within h1 h2]; rfl) hok hw, fun h1 hw => issues_refuse (by rw [hexec, talActs_of_outside h1]) hok hw⟩

/-- A format S operation. -/
theorem issues_scalar {i : Instr} {s : State} {e : Env} {ok : Bool} {op n : Nat} {kind : QKind} {q : QDest}
    (hexec : exec i s = s.issue .el e 3 ok (match scalarEntries n with | none => [.refuse .red op] | some k => [qAct .red kind q k])) (hok : ok = true) :
    (1 ≤ n → n ≤ 16384 → Within s .el e 3 [.queue .red kind q.core.toNat q.k.toNat (q.amt.toNat + 1) ((n + 63) / 64)] →
        Issues i s (s.enqueue .el .red kind q.core.toNat q.k.toNat (q.amt.toNat + 1) ((n + 63) / 64)) .el (s.greg .el) (s.flag .el))
      ∧ (n = 0 ∨ 16384 < n → Within s .el e 3 [.refuse .red op] → Issues i s (s.refuse .el .red op) .el (s.greg .el) (s.flag .el)) :=
  ⟨fun h1 h2 hw => issues_enqueue (by rw [hexec, scalarEntries_of_within h1 h2]; rfl) hok hw, fun h1 hw => issues_refuse (by rw [hexec, scalarEntries_of_outside h1]) hok hw⟩

/-- A tree operation. -/
theorem issues_tree {i : Instr} {s : State} {e : Env} {slot : Nat} {q : QDest} {regs : List (Fin 64)} {ok : Bool} {queue : QueueId} {kind : QKind}
    (hexec : exec i s = s.treeOp e slot q regs ok queue kind) (hq : destOk s.el.lic .ux q = true) (hr : regs.all (regOk .ux) = true) (hok : ok = true)
    (h : Within s .ux e slot [.queue queue kind q.core.toNat q.k.toNat (q.amt.toNat + 1) 1]) :
    Issues i s (s.enqueue .ux queue kind q.core.toNat q.k.toNat (q.amt.toNat + 1) 1) .ux (s.greg .ux) (s.flag .ux) :=
  issues_enqueue (hexec.trans rfl) (by simp [hq, hr, hok]) h

/-- Settles O37: every queued operation's one act is its entry, or its refusal. -/
theorem queuedIssue : Obligations.QueuedIssue := by
  refine ⟨?_, ?_⟩
  · intro e q a b rel start lid bid rcore gmask scope rk ramt kind rid t m fa fb ch min s hq g takes red scalar
    refine ⟨fun h hw => issues_enqueue rfl (by simp [hq, h]) hw, issues_enqueue rfl hq, issues_enqueue rfl hq, issues_enqueue ?_ hq, fun h => issues_tal rfl (by simp [hq, h]),
      fun h => issues_tal rfl (by simp [hq, h]), fun h => issues_tal rfl (by simp [hq, h]), fun h => issues_tal rfl (by simp [hq, h]), fun h => issues_tal rfl (by simp [hq, h]),
      issues_scalar rfl hq, issues_scalar rfl hq, fun h1 h2 => ⟨issues_enqueue rfl (by simp [hq, h1, h2]), issues_enqueue rfl (by simp [hq, h1, h2])⟩,
      fun h1 h2 => issues_enqueue rfl (by simp [hq, h1, h2]), issues_enqueue rfl hq, issues_enqueue rfl hq, fun h => issues_enqueue rfl (by simp [hq, h]), issues_enqueue rfl hq,
      issues_enqueue rfl hq, issues_enqueue rfl hq, fun h => issues_enqueue rfl (by simp [hq, h])⟩
    show execAnn e q a b rcore rk ramt s = _
    unfold execAnn State.annMsg
    rw [← BitVec.ofNat_toNat, ← BitVec.ofNat_toNat]
    rfl
  · intro e q a b c rel start lid bid gmask rid opk s hq ha hb hc g takes
    refine ⟨fun h => issues_tree rfl hq (by simp [ha, hb]) (by simp [h]), issues_tree rfl hq (by simp [ha]) rfl, fun h => issues_tree rfl hq (by simp [ha]) h,
      issues_tree rfl hq (by simp [ha, hb]) rfl, issues_tree rfl hq (by simp [ha, hb, hc]) rfl, issues_tree rfl hq rfl rfl, issues_tree rfl hq (by simp [ha, hb]) rfl,
      issues_tree rfl hq (by simp [ha]) rfl, issues_tree rfl hq (by simp [ha, hb]) rfl, issues_tree rfl hq (by simp [ha, hb]) rfl, issues_tree rfl hq (by simp [ha]) rfl,
      issues_tree rfl hq (by simp [ha]) rfl, issues_tree rfl hq rfl rfl, issues_tree rfl hq (by simp [ha, hb]) rfl, issues_tree rfl hq (by simp [ha]) rfl⟩

end Sys2Proof.Machine

/-! SUPPORT. A bundle that faults ends its program in FAULT with its registers as they were (R172, R426); the control flow of the other bundles (R138, R160, R174). -/

namespace Sys2Proof.Machine

/-! ### What the way to FAULT leaves alone -/

/-- The sequencer's state, its general registers and SPM stay. -/
structure Stays (p : Part) (s t : State) : Prop where
  state : t.seqState p = s.seqState p
  gregs : (t.seq p).g = (s.seq p).g
  spm   : t.el.spm = s.el.spm

theorem stays_refl (p : Part) (s : State) : Stays p s s := ⟨rfl, rfl, rfl⟩

theorem Stays.trans {p : Part} {s t u : State} (h : Stays p s t) (k : Stays p t u) : Stays p s u :=
  ⟨k.state.trans h.state, k.gregs.trans h.gregs, k.spm.trans h.spm⟩

theorem Stays.greg {p : Part} {s t : State} (h : Stays p s t) (a : Nat) : t.greg p a = s.greg p a := by
  unfold State.greg
  rw [h.gregs]

theorem stays_of_core {p : Part} {s t : State} (h : t.core = s.core) : Stays p s t := by
  have hstate := (goesOn_of_core (p := p) h).state
  have hg : ∀ u : State, u.core.seq p = u.seq p := fun u => by cases p <;> rfl
  exact ⟨hstate, by rw [← hg, h, hg], congrArg (fun u => u.el.spm) h⟩


section
variable {p : Part} {s t : State} (h : Stays p s t)
include h

theorem Stays.core {u : State} (hc : u.core = t.core) : Stays p s u := h.trans (stays_of_core hc)

theorem Stays.setReg (q : Part) {o : Nat} (w : Word) (ho : o ≠ 0x2008) : Stays p s (t.setReg q o w) := by
  refine h.trans ⟨?_, by rw [seq_mod_regs], by cases q <;> rfl⟩
  unfold State.seqState State.get
  have hne : Reg.SEQ_STAT_STATE.off ≠ o := fun hc => ho hc.symm
  by_cases hq : p = q
  · subst hq
    rw [reg_setReg_other t p o _ w hne]
  · rw [reg_setReg_part t o _ w hq]

theorem Stays.put (q : Part) {f : Fld} (v : Nat) (ho : f.off ≠ 0x2008) : Stays p s (t.put q f v) := h.setReg q _ ho

theorem Stays.count (q : Part) {f : Fld} (n : Nat) (ho : f.off ≠ 0x2008) : Stays p s (t.count q f n) := h.put q _ ho

theorem Stays.mod (q : Part) (f : Base → Base) (hr : ∀ b, (f b).regs = b.regs := by intro; rfl)
    (hg : ∀ b, (f b).seq.g = b.seq.g := by intro; rfl) : Stays p s (t.mod q f) := by
  refine h.trans ⟨?_, ?_, by cases q <;> rfl⟩
  · unfold State.seqState State.get
    rw [reg_mod t q p f _ (hr _)]
  · unfold State.seq
    by_cases hp : p = q
    · subst hp
      rw [base_mod, hg]
    · rw [base_mod_ne _ _ hp]

theorem Stays.modSeq (q : Part) (f : Seq → Seq) (hg : ∀ c, (f c).g = c.g := by intro; rfl) : Stays p s (t.modSeq q f) :=
  h.mod q _ (fun _ => rfl) (fun b => hg b.seq)

theorem Stays.modGuard (q : Part) (f : Guard → Guard) : Stays p s (t.modGuard q f) := h.mod q _

theorem Stays.modEl (f : Elesh → Elesh) (hb : ∀ e, (f e).base.regs = e.base.regs := by intro; rfl)
    (hg : ∀ e, (f e).base.seq.g = e.base.seq.g := by intro; rfl) (hs : ∀ e, (f e).spm = e.spm := by intro; rfl) :
    Stays p s (t.modEl f) := by
  refine h.trans ⟨?_, ?_, hs _⟩
  · unfold State.seqState State.get
    rw [reg_modEl t f p _ (hb _)]
  · cases p
    · exact hg _
    · rfl

theorem Stays.modDma (ch : Nat) (f : Dma → Dma) : Stays p s (t.modDma ch f) := h.modEl _

theorem Stays.ite {u : State} {c : Prop} [Decidable c] (k : Stays p s u) : Stays p s (if c then t else u) := by
  split
  · exact h
  · exact k

theorem Stays.foldl {α : Type} (l : List α) (f : State → α → State) (hf : ∀ u x, Stays p s u → Stays p s (f u x)) : Stays p s (l.foldl f t) := by
  induction l generalizing t with
  | nil => exact h
  | cons x xs ih => exact ih (hf t x h)

theorem Stays.talLast (op pc st block : Nat) : Stays p s (t.talLast op pc st block) := by
  unfold State.talLast
  exact h.ite (h.setReg .el _ (by decide))

theorem Stays.log (q : Part) (u c o d : Nat) : Stays p s (t.log q u c o d) := h.core (core_log ..)

theorem Stays.logW (q : Part) (u c o w d : Nat) : Stays p s (t.logW q u c o w d) := h.core (core_logW ..)

theorem Stays.qfail (q : Part) (queue : QueueId) (pc st : Nat) : Stays p s (t.qfail q queue pc st) := by
  unfold State.qfail
  exact (((((h.put q _ (by decide)).put q _ (by decide)).put q _ (by decide)).put q _ (by decide)).put q _ (by decide)).logW q _ _ _ _ _

theorem Stays.wakeWatch (w kind : Nat) (equal : Bool) : Stays p s (t.wakeWatch w kind equal) := by
  unfold State.wakeWatch State.disarm State.setWatch
  dsimp only
  exact Stays.modEl (Stays.modEl h _) _

theorem Stays.watchKill : Stays p s t.watchKill := h.foldl _ _ (fun _ _ hu => (hu.wakeWatch _ _ _).ite hu)

theorem Stays.stepMissed : Stays p s t.stepMissed := by
  have hl := h.log .el 0x01 0x8085 (t.pc .el) (t.seqState .el)
  unfold State.stepMissed
  exact Stays.ite hl (Stays.modEl hl _)

theorem Stays.cancelHeld : Stays p s t.cancelHeld := by
  unfold State.cancelHeld
  dsimp only
  exact Stays.foldl (h.modSeq .el _) _ _ (fun _ _ hu => hu.stepMissed)

theorem Stays.rbRequest (q : Part) : Stays p s (t.rbRequest q) := by
  unfold State.rbRequest
  split
  · exact Stays.modEl (h.modGuard .el _) _
  · exact h

theorem Stays.guardEnd (q : Part) : Stays p s (t.guardEnd q) := by
  unfold State.guardEnd
  exact Stays.rbRequest (Stays.modSeq ((h.put q (f := Reg.GUARD_STAT_ACTIVE) _ (by decide)).modGuard q _) q _) q

/-- The registers of the DMA channels stand above the sequencer's. -/
theorem Stays.putDma {f : Fld} (v : Nat) (ho : 0x8000 ≤ f.off) : Stays p s (t.put .el f v) := h.put .el v (by omega)

theorem Stays.dmaWriteBack (ch st cause : Nat) : Stays p s (t.dmaWriteBack ch st cause) := by
  have hput : ∀ {u : State} (f : Fld) v, Stays p s u → 0x8000 ≤ f.off → Stays p s (u.put .el f v) := fun f v hu ho => hu.putDma v ho
  have hmem : ∀ {u : State} a bs, Stays p s u → Stays p s (u.memWrite .el a bs) := fun a bs hu => hu.mod .el _
  unfold State.dmaWriteBack State.count
  dsimp only
  apply Stays.modDma
  apply hput
  · apply hput
    · apply hput
      · apply hput
        · apply hput
          · apply hput
            · exact hmem _ _ (hmem _ _ h)
            · simp only [Reg.DMA_STAT_POS]; omega
          · simp only [Reg.DMA_STAT_LAST_STATUS]; omega
        · simp only [Reg.DMA_STAT_LAST_CAUSE]; omega
      · simp only [Reg.DMA_RESIDUE_RESIDUE]; omega
    · simp only [Reg.DMA_CNT_DESC_DONE]; omega
  · simp only [Reg.DMA_STAT_LEFT]; omega
end

/-- A drain is not checked but in DRAINING. -/
theorem drainCheck_of_ne {s : State} {p : Part} (h : s.seqState p ≠ 4) : s.drainCheck p = s := by
  unfold State.drainCheck
  rw [if_neg]
  simp [h]

theorem stays_endFail {s : State} (p q : Part) (o : QOp) (st : Nat) (h : s.seqState q ≠ 4) : Stays p s (s.endFail q o st) := by
  have hk : ∀ r, Stays r s (((s.dropOp q o.id).talLast (if st = stRefused then 0 else o.kind.redOp) o.pc st 0).qfail q o.queue o.pc st) := fun r =>
    (((stays_refl r s).mod q _).talLast _ _ _ _).qfail q _ _ _
  unfold State.endFail
  rw [drainCheck_of_ne (by rw [(hk q).state]; exact h)]
  exact hk p

theorem stays_dmaEndFail {s : State} (p : Part) (ch st : Nat) (h : s.seqState .el ≠ 4) : Stays p s (s.dmaEndFail ch st) := by
  have hk : ∀ r, Stays r s (((s.put .el (Reg.DMA_STAT_STATE ch) 0).put .el (Reg.DMA_STAT_LEFT ch) 0).modDma ch (fun _ => Dma.zero)) := fun r =>
    (((stays_refl r s).putDma _ (by simp only [Reg.DMA_STAT_STATE]; omega)).putDma _ (by simp only [Reg.DMA_STAT_LEFT]; omega)).modDma _ _
  unfold State.dmaEndFail
  dsimp only
  split
  · split
    · exact (hk p).trans (stays_endFail p .el _ st (by rw [(hk .el).state]; exact h))
    · exact hk p
  · exact hk p

theorem stays_dmaAborted {s : State} (p : Part) (ch : Nat) (h : s.seqState .el ≠ 4) : Stays p s (s.dmaAborted ch) := by
  have hk : ∀ r residue, Stays r s (((if (s.dma ch).fetched then s.dmaWriteBack ch (s.dma ch).endSt (if (s.dma ch).busError then 1 else 0) else s).put .el (Reg.DMA_STAT_ABORT ch) 1).logW
      .el 0x07 0x7012 ch (s.get .el (Reg.DMA_STAT_POS ch)) residue) := fun r residue =>
    ((((stays_refl r s).dmaWriteBack _ _ _).ite (stays_refl r s)).putDma _ (by simp only [Reg.DMA_STAT_ABORT]; omega)).logW .el _ _ _ _ _
  unfold State.dmaAborted
  dsimp only
  exact (hk p _).trans (stays_dmaEndFail p ch _ (by rw [(hk .el _).state]; exact h))

theorem stays_dmaAbort {s : State} (p : Part) (ch st : Nat) (h : s.seqState .el ≠ 4) : Stays p s (s.dmaAbort ch st) := by
  have hm : ∀ r f, Stays r s (s.modDma ch f) := fun r f => (stays_refl r s).modDma ch f
  unfold State.dmaAbort
  dsimp only
  refine Stays.ite (Stays.ite ?_ ?_) ((hm p _).ite (stays_refl p s))
  · exact (hm p _).putDma _ (by simp only [Reg.DMA_STAT_STATE]; omega)
  · exact (hm p _).trans (stays_dmaAborted p ch (by rw [(hm .el _).state]; exact h))

/-- From FAULT the step kill has only the queues, the channels and the watches to end. -/
theorem stays_stepKill {s : State} (p : Part) (h : s.seqState .el = 5) : Stays p s s.stepKill := by
  have hdma : ∀ (l : List Nat) (t : State), t.seqState .el = 5 → ∀ r, Stays r t (l.foldl (fun t c => (t.modDma c (fun d => { d with qid := none })).dmaAbort c stAborted) t) := by
    intro l
    induction l with
    | nil => exact fun t _ r => stays_refl r t
    | cons c cs ih =>
      intro t ht r
      have hs : ∀ r, Stays r t ((t.modDma c (fun d => { d with qid := none })).dmaAbort c stAborted) := fun r => by
        have hm : ∀ r, Stays r t (t.modDma c (fun d => { d with qid := none })) := fun r => (stays_refl r t).modDma c _
        exact (hm r).trans (stays_dmaAbort r c _ (by rw [(hm .el).state, ht]; decide))
      exact (hs r).trans (ih _ (by rw [(hs .el).state, ht]) r)
  unfold State.stepKill
  simp only [h, Nat.reduceEqDiff, decide_false, Bool.or_self, Bool.false_eq_true, if_false]
  exact (((((hdma _ s h p).modEl _).foldl _ _ (fun _ _ hu => (hu.talLast _ _ _ _).qfail .el _ _ _)).put .el _ (by decide)).watchKill).cancelHeld

theorem guard_modGuard (s : State) (p : Part) (f : Guard → Guard) : (s.modGuard p f).guard p = f (s.guard p) := by
  unfold State.modGuard State.guard
  rw [base_mod]

/-- A trigger with no stage to come ends with the step kill. -/
theorem stays_guardProceed {s : State} (p : Part) (hs : p = .el → s.seqState .el = 5) (hf : (s.guard p).firstStage = 0) (hc : (s.guard p).fclkLoss = false) :
    Stays p s (s.guardProceed p) := by
  unfold State.guardProceed
  simp only [hf, hc, Bool.false_eq_true, if_false, if_true]
  refine ((stays_refl p s).modGuard p _).ite ?_
  cases p
  · exact (stays_stepKill .el (hs rfl)).guardEnd .el
  · exact (stays_refl .ux s).guardEnd .ux


/-! ### A program's fault -/

theorem guard_put (s : State) (p q : Part) (f : Fld) (v : Nat) : (s.put p f v).guard q = s.guard q := by cases p <;> cases q <;> rfl

theorem guard_modSeq (s : State) (p q : Part) (f : Seq → Seq) : (s.modSeq p f).guard q = s.guard q := by cases p <;> cases q <;> rfl

theorem guard_of_core {s t : State} (h : t.core = s.core) (p : Part) : t.guard p = s.guard p := by
  have hg : ∀ u : State, u.core.guard p = u.guard p := fun u => by cases p <;> rfl
  rw [← hg, h, hg]

theorem core_guardFail (s : State) : s.guardFail.core = s.core := by
  unfold State.guardFail
  rw [core_log, core_sendUp]

/-- A trigger that a free guard takes, before the crash dump (R422, R426). -/
def State.guardTaken (s : State) (p : Part) (code unit first : Nat) : State :=
  ((((((s.put p Reg.GUARD_STAT_ACTIVE 1).put p Reg.GUARD_STAT_TRIGGER code).put p Reg.GUARD_STAT_UNIT unit).put p Reg.GUARD_STAT_STAGE 0).modGuard p
    (fun g => { g with trigger := code, culprit := unit, firstStage := first, fclkLoss := code == 6, phase := .dumping }))).modSeq p (fun q => { q with stopIssue := true })

/-- The crash dump begins, or is lost where an earlier one is kept (R430, R431). -/
def State.guardDump (s : State) (p : Part) (code unit : Nat) : State :=
  if s.bit p Reg.GUARD_STAT_DUMP_VALID && !s.bit p Reg.GUARD_CTRL_DUMP_OVERWRITE then
    ((s.count p Reg.GUARD_STAT_DUMP_LOST 1).log p (unitGuard p) 0x8026 unit code).guardProceed p
  else
    let d : Dump :=
      { trigger := code, unit := unit, hxt := s.tbNow p 0, step := (if p == .el then BitVec.ofNat 64 s.stepCur else 0),
        pc := (s.reg p Reg.SEQ_PC_PC.off).toNat % 2 ^ 32, bad := [], id := s.draws, done := false }
    (({ s with draws := s.draws + 1 } : State).put p Reg.GUARD_STAT_DUMP_BUSY 1).modGuard p (fun g => { g with dump := some d })

theorem guardTrigger_of_free {s : State} {p : Part} (code unit first : Nat) (ran : Bool) (h : s.guardActive p = false) :
    s.guardTrigger p code unit first ran =
      let t := s.guardTaken p code unit first
      (if p == .el && (ran || t.seqState p == 3 || t.seqState p == 4) then t.guardFail else t).guardDump p code unit := by
  unfold State.guardTrigger
  rw [if_neg (by simp [h])]
  rfl

theorem guardTrigger_of_active {s : State} {p : Part} {code : Nat} (unit first : Nat) (ran : Bool) (h : s.guardActive p = true) (hc : code ≠ 6) :
    s.guardTrigger p code unit first ran = s.count p Reg.GUARD_STAT_LATER 1 := by
  unfold State.guardTrigger
  rw [if_pos h]
  exact if_neg hc

theorem guard_guardTaken (s : State) (p : Part) (code unit first : Nat) :
    (s.guardTaken p code unit first).guard p = { s.guard p with trigger := code, culprit := unit, firstStage := first, fclkLoss := code == 6, phase := .dumping } := by
  unfold State.guardTaken
  rw [guard_modSeq, guard_modGuard, guard_put, guard_put, guard_put, guard_put]

theorem stays_guardTaken (s : State) (p : Part) (code unit first : Nat) : Stays p s (s.guardTaken p code unit first) := by
  unfold State.guardTaken
  refine Stays.modSeq (Stays.modGuard ?_ p _) p _
  exact ((((stays_refl p s).put p _ (by decide)).put p _ (by decide)).put p _ (by decide)).put p _ (by decide)

/-- A dump that begins, or is lost with no stage to come, leaves a sequencer in FAULT there. -/
theorem stays_guardDump {s : State} {p : Part} (code unit : Nat) (hs : p = .el → s.seqState .el = 5) (hf : (s.guard p).firstStage = 0) (hc : (s.guard p).fclkLoss = false) :
    Stays p s (s.guardDump p code unit) := by
  have h := stays_refl p s
  unfold State.guardDump
  split
  · have hw := (h.count p (f := Reg.GUARD_STAT_DUMP_LOST) 1 (by decide)).log p (unitGuard p) 0x8026 unit code
    have hg : ((s.count p Reg.GUARD_STAT_DUMP_LOST 1).log p (unitGuard p) 0x8026 unit code).guard p = s.guard p := by
      rw [guard_of_core (core_log ..), State.count, guard_put]
    refine hw.trans (stays_guardProceed p (fun hp => ?_) (by rw [hg, hf]) (by rw [hg, hc]))
    subst hp
    rw [hw.state]
    exact hs rfl
  · have hd : Stays p s ({ s with draws := s.draws + 1 } : State) := h.core rfl
    exact (hd.put p _ (by decide)).modGuard p _

/-- A trigger whose ladder has no stage leaves a sequencer in FAULT there. -/
theorem stays_guardTrigger {s : State} {p : Part} {code unit : Nat} {ran : Bool} (hs : p = .el → s.seqState .el = 5) (hcode : code ≠ 6) :
    Stays p s (s.guardTrigger p code unit 0 ran) := by
  cases ha : s.guardActive p with
  | true =>
    rw [guardTrigger_of_active unit 0 ran ha hcode]
    exact (stays_refl p s).count p _ (by decide)
  | false =>
    rw [guardTrigger_of_free code unit 0 ran ha]
    have ht := stays_guardTaken s p code unit 0
    have hg := guard_guardTaken s p code unit 0
    generalize s.guardTaken p code unit 0 = t at ht hg
    dsimp only
    generalize hb : (p == .el && (ran || t.seqState p == 3 || t.seqState p == 4)) = b
    have hcore : (if b = true then t.guardFail else t).core = t.core := by
      cases b
      · rfl
      · exact core_guardFail t
    generalize (if b = true then t.guardFail else t) = v at hcore
    have hv := ht.core hcore
    have hvg := (guard_of_core hcore p).trans hg
    refine hv.trans (stays_guardDump code unit (fun hp => ?_) (by rw [hvg]) (by rw [hvg]; simpa using hcode))
    subst hp
    rw [hv.state]
    exact hs rfl

/-- A sequencer in FAULT after a program's fault, with the registers it had. -/
theorem programFault_ends {s : State} {p : Part} (h : s.seqState p = 3) : (s.programFault p).seqState p = 5 ∧ (∀ a, (s.programFault p).greg p a = s.greg p a)
    ∧ (s.programFault p).el.spm = s.el.spm := by
  have hfault : (s.toFault p).seqState p = 5 ∧ (s.toFault p).seq p = { s.seq p with acts := [], skip := false, hold := .none, anchorOk := false } ∧ (s.toFault p).el.spm = s.el.spm := by
    unfold State.toFault State.setSeqState
    refine ⟨?_, ?_, by cases p <;> rfl⟩
    · unfold State.seqState
      rw [get_modSeq, get_put_same _ _ _ _ (by decide) (by decide)]
      rfl
    · rw [seq_modSeq, seq_put]
  obtain ⟨hst, hseq, hspm⟩ := hfault
  have hu : Stays p (s.toFault p) (s.programFault p) := by
    unfold State.programFault
    rw [if_pos h]
    exact stays_guardTrigger (fun hp => hp ▸ hst) (by decide)
  refine ⟨hu.state.trans hst, fun a => (hu.greg a).trans ?_, hu.spm.trans hspm⟩
  unfold State.greg
  rw [hseq]

/-- What is kept logs only more. -/
theorem exists_logged_of_keeps {s t : State} (p : Part) (h : Keeps s t) : ∃ es, Logged p s t es := by
  cases p
  · exact exists_logged h.el.events
  · exact exists_logged h.ux.events

end Sys2Proof.Machine

/-! SUPPORT. The ends of a bundle: a fault, a branch, HALT, and running past the last bundle (R138, R160, R172, R174). -/

namespace Sys2Proof.Machine

/-- The sequencer that issues is RUNNING. -/
theorem seqState_of_issuing {s : State} {p : Part} (h : s.issuing p = true) : s.seqState p = 3 := by
  unfold State.issuing at h
  simp only [Bool.and_eq_true, beq_iff_eq] at h
  exact h.1.1

/-- A program fault after an event: FAULT, the registers and SPM as they were, and the event first among those logged. -/
theorem programFault_logged {s v w : State} {p : Part} {code obj d : Nat} {fresh : Bool} {m : Seq} (hv : Alike m fresh p s v) (hg : m.g = (s.seq p).g)
    (hrun : s.seqState p = 3) (hw : Stays p (v.log p (unitSeq p) code obj d) w) (hevents : (w.base p).events = ((v.log p (unitSeq p) code obj d).base p).events) :
    (w.programFault p).seqState p = 5 ∧ (w.programFault p).el.spm = s.el.spm ∧ (∀ r, (w.programFault p).greg p r = s.greg p r)
      ∧ ∃ es, Logged p s (w.programFault p) ((unitSeq p, code, obj, d) :: es) := by
  have hvw : Stays p v w := ((stays_refl p v).log p _ _ _ _).trans hw
  obtain ⟨hst, hgr, hspm⟩ := programFault_ends (s := w) (p := p) (by rw [hvw.state]; exact (hv.get (f := Reg.SEQ_STAT_STATE) (by decide)).trans hrun)
  have hlog : Logged p s w [(unitSeq p, code, obj, d)] := (logged_log _ _ _ _ (hv.events p)).congr hevents
  obtain ⟨es, hes⟩ := exists_logged_of_keeps p (keeps_programFault (p := p) (keeps_refl w))
  refine ⟨hst, ?_, fun r => ?_, es, hlog.trans hes⟩
  · rw [hspm, hvw.spm]
    exact hv.el Elesh.spm (fun _ _ => rfl)
  · rw [hgr, hvw.greg]
    unfold State.greg
    rw [hv.seq]
    show tget 0 m.g r = _
    rw [hg]

/-- PC takes the next bundle while the sequencer runs. -/
theorem stays_nextPc (s : State) (p : Part) (n : Nat) : Stays p s (if s.seqState p = 3 then s.put p Reg.SEQ_PC_PC n else s) :=
  ((stays_refl p s).put p _ (by decide)).ite (stays_refl p s)

theorem events_nextPc (s : State) (p q : Part) (n : Nat) : ((if s.seqState p = 3 then s.put p Reg.SEQ_PC_PC n else s).base q).events = (s.base q).events := by
  split
  · exact events_put ..
  · rfl

/-- An operation that is a fault (R172). -/
theorem ends_fault {i : Instr} {s : State} {p : Part} {e : Env} {slot code d : Nat} {ok : Bool} (hexec : exec i s = s.issue p e slot ok [.fault code d]) (hok : ok = true)
    (h : Alone s p e slot [.fault code d]) :
    Ends i s (fun u => u.seqState p = 5 ∧ u.el.spm = s.el.spm ∧ (∀ r, u.greg p r = s.greg p r) ∧ ∃ es, Logged p s u ((unitSeq p, code, s.pc p, d) :: es)) := by
  have hb : s.bundleIssue p [.unit slot, .fault code d] = (s.issuedFrom p).bundleFlow p [.unit slot, .fault code d] false := bundleIssue_alone (by simp [Act.alone]) s p
  refine ⟨_, by rw [hexec, hok, issue_alone h, hb], ?_⟩
  have hv := alike_issuedFrom s p
  generalize s.issuedFrom p = v at hv
  have hpc : v.pc p = s.pc p := hv.pc p
  rw [← hpc]
  exact programFault_logged hv rfl (seqState_of_issuing h.issues) (stays_nextPc _ p _) (events_nextPc _ p p _)

/-- Running past the last bundle (R138). -/
theorem ends_past {i : Instr} {s : State} {p : Part} {e : Env} {slot : Nat} (hexec : exec i s = s.issue p e slot true [])
    (h : Alone s p e slot []) (hlast : s.pc p + 1 = (s.seq p).bundles) :
    Ends i s (fun u => u.seqState p = 5 ∧ u.el.spm = s.el.spm ∧ (∀ r, u.greg p r = s.greg p r) ∧ ∃ es, Logged p s u ((unitSeq p, 0x8086, s.pc p, (s.seq p).bundles) :: es)) := by
  have hb : s.bundleIssue p [.unit slot] = (s.issuedFrom p).bundleFlow p [.unit slot] false := bundleIssue_alone (by simp [Act.alone]) s p
  refine ⟨_, by rw [hexec, issue_alone h, hb], ?_⟩
  have hv := alike_issuedFrom s p
  generalize s.issuedFrom p = v at hv
  have hpc : v.pc p = s.pc p := hv.pc p
  have hn : (v.seq p).bundles = (s.seq p).bundles := by
    rw [hv.seq]
    rfl
  have hflow : v.bundleFlow p [.unit slot] false = (let w := v.log p (unitSeq p) 0x8086 (v.pc p) (v.seq p).bundles
      (if w.seqState p = 3 then w.put p Reg.SEQ_PC_PC (v.pc p + 1) else w).programFault p) := by
    have hpast : (v.pc p + 1 == (v.seq p).bundles) = true := by rw [hpc, hn, hlast]; simp
    unfold State.bundleFlow
    simp [bundleBranch, bundleFaults, bundleHalts, State.logFault, hpast]
  rw [hflow, ← hpc, ← hn]
  exact programFault_logged hv rfl (seqState_of_issuing h.issues) (stays_nextPc _ p _) (events_nextPc _ p p _)

/-- The control flow of a bundle whose last act follows plain ones is that act's. -/
theorem flow_append {acts : List Act} (h : ∀ a ∈ acts, a.flowless = true) (b : List Act) :
    bundleBranch (acts ++ b) = bundleBranch b ∧ bundleFaults (acts ++ b) = bundleFaults b ∧ bundleHalts (acts ++ b) = bundleHalts b
      ∧ ∀ (u : State) p, (acts ++ b).foldl (fun t a => t.logFault p a) u = b.foldl (fun t a => t.logFault p a) u := by
  obtain ⟨hb, hf, hh⟩ := flowless_flow h
  refine ⟨?_, ?_, ?_, fun u p => ?_⟩
  · unfold bundleBranch at hb ⊢
    rw [List.findSome?_append, hb, Option.none_or]
  · unfold bundleFaults at hf ⊢
    rw [List.any_append, hf, Bool.false_or]
  · unfold bundleHalts at hh ⊢
    rw [List.contains_append, hh, Bool.false_or]
  · rw [List.foldl_append, flowless_logs h]

theorem plain_of_inner {slot : Nat} {pre : List Act} (h : ∀ x ∈ pre, x.inner = true) : ∀ x ∈ Act.unit slot :: pre, x.plain = true := by
  simp only [List.mem_cons]
  rintro x (rfl | hx)
  · rfl
  · have hi := h x hx
    cases x <;> first | rfl | cases hi

/-- A bundle that branches, after writes of registers (R174). -/
theorem ends_branch {i : Instr} {s : State} {p : Part} {e : Env} {slot t : Nat} {ok : Bool} {pre : List Act} (hexec : exec i s = s.issue p e slot ok (pre ++ [.branch t])) (hok : ok = true)
    (h : Alone s p e slot (pre ++ [.branch t])) (hpre : ∀ x ∈ pre, x.inner = true) (ht : t < (s.seq p).bundles) :
    Ends i s (fun u => Issued s u p t (Act.gs (s.greg p) pre) (Act.cs (s.flag p) pre)) := by
  have hplain := plain_of_inner (slot := slot) hpre
  have halone : ∀ x ∈ (Act.unit slot :: pre) ++ [Act.branch t], x.alone = true := by
    simp only [List.mem_append, List.mem_singleton]
    rintro x (hx | rfl)
    · exact Act.alone_of_plain (hplain x hx)
    · rfl
  refine ⟨_, by rw [hexec, hok, issue_alone h, ← List.cons_append, bundleIssue_alone halone], ?_⟩
  have hv : Alike (pre.foldl Seq.act (s.seq p).issued) (s.seq p).segNew p s (((Act.unit slot :: pre) ++ [Act.branch t]).foldl (fun (u : State) x => u.applyAct p x) (s.issuedFrom p)) := by
    rw [List.foldl_append, List.foldl_cons]
    exact Alike.inners pre hpre ((alike_issuedFrom s p).inner (a := .unit slot) rfl)
  generalize ((Act.unit slot :: pre) ++ [Act.branch t]).foldl (fun (u : State) x => u.applyAct p x) (s.issuedFrom p) = v at hv
  have hrun : v.seqState p = 3 := (hv.get (by decide)).trans (seqState_of_issuing h.issues)
  have hn : (v.seq p).bundles = (s.seq p).bundles := by
    rw [hv.seq]
    rfl
  have hflow : v.bundleFlow p ((Act.unit slot :: pre) ++ [.branch t]) false = v.put p Reg.SEQ_PC_PC t := by
    obtain ⟨hb, hf, hh, hl⟩ := flow_append (fun x hx => Act.flowless_of_plain (hplain x hx)) [.branch t]
    have hne : (t == (s.seq p).bundles) = false := by simp; omega
    have hb' : bundleBranch ((Act.unit slot :: pre) ++ [.branch t]) = some t := hb
    have hf' : bundleFaults ((Act.unit slot :: pre) ++ [.branch t]) = false := hf
    have hh' : bundleHalts ((Act.unit slot :: pre) ++ [.branch t]) = false := hh
    have hl' : ((Act.unit slot :: pre) ++ [Act.branch t]).foldl (fun (t : State) a => t.logFault p a) v = v := hl v p
    unfold State.bundleFlow
    simp only [hb', hf', hh', hl', hn, Option.getD_some, hne, hrun, Bool.not_false, Bool.and_self, Bool.and_false, Bool.false_eq_true, if_false, if_true, Bool.or_self, Bool.false_and]
  rw [hflow]
  have hsize := h.size
  have mskip := (act_marks pre (s.seq p).issued).2.2.1
  obtain ⟨k1, k2, k3, k4, k5, k6, k7, k8⟩ := hv.issued rfl (issued_act _ _) (mskip.trans h.whole) (n := t) (by omega)
  exact ⟨k1, k2, k3, fun r => (k4 r).trans (congrFun (act_gregs _ _) r), fun j hj => (k5 j hj).trans (act_flags _ _ j hj), k6, k7, k8⟩

/-! ### HALT -/

/-- HALT starts the drain (R160). -/
theorem bundleIssue_halt {s : State} {p : Part} {e : Env} (h : Alone s p e 0 [.halt]) :
    ∃ v, Alike (s.seq p).issued (s.seq p).segNew p s v ∧ exec (.halt p e) s = .next (((v.put p Reg.SEQ_PC_PC (s.pc p + 1)).setSeqState p 4).drainCheck p) := by
  have hv := alike_issuedFrom s p
  refine ⟨_, hv, ?_⟩
  have hexec : exec (.halt p e) s = s.issue p e 0 true [.halt] := rfl
  rw [hexec, issue_alone h, bundleIssue_alone (by simp [Act.alone])]
  show (.next ((s.issuedFrom p).bundleFlow p [.unit 0, .halt] false) : Out) = _
  have hpc := hv.pc p
  generalize s.issuedFrom p = v at hv hpc
  have hrun : v.seqState p = 3 := (hv.get (by decide)).trans (seqState_of_issuing h.issues)
  have hrun' : (v.put p Reg.SEQ_PC_PC (s.pc p + 1)).seqState p = 3 := ((stays_refl p v).put p _ (by decide)).state.trans hrun
  unfold State.bundleFlow
  simp [bundleBranch, bundleFaults, bundleHalts, State.logFault, hrun, hpc, hrun']

/-- HALT with operations queued: DRAINING. -/
theorem halt_drains {s : State} {p : Part} {e : Env} (h : Alone s p e 0 [.halt]) (hq : (s.base p).qops ≠ []) :
    Ends (.halt p e) s (fun u => u.seqState p = 4 ∧ u.pc p = s.pc p + 1 ∧ (u.base p).qops = (s.base p).qops) := by
  obtain ⟨v, hv, hx⟩ := bundleIssue_halt h
  have hqv : (((v.put p Reg.SEQ_PC_PC (s.pc p + 1)).setSeqState p 4).base p).qops = (s.base p).qops := by
    rw [← hv.base Base.qops (fun _ => rfl) p]
    cases p <;> rfl
  have hd : ((v.put p Reg.SEQ_PC_PC (s.pc p + 1)).setSeqState p 4).drainCheck p = (v.put p Reg.SEQ_PC_PC (s.pc p + 1)).setSeqState p 4 := by
    unfold State.drainCheck
    rw [hqv]
    simp [hq]
  have hsize := h.size
  have hin := h.inside
  refine ⟨_, by rw [hx, hd], ?_, ?_, hqv⟩
  · exact (get_put_same _ _ _ _ (by decide) (by decide)).trans rfl
  · refine (get_put_other _ _ _ _ _ (by decide) (by decide) (by decide) (.inl (by decide))).trans ?_
    rw [get_put_same _ _ _ _ (by decide) (by decide)]
    exact Nat.mod_eq_of_lt (by simp only [Reg.SEQ_PC_PC]; omega)

/-- The entry to READY with no start held (R150, R160, R162). -/
theorem enterReady_ends {s : State} {p : Part} (hh : (s.seq .el).heldStarts = []) :
    (s.enterReady p).seqState p = 2 ∧ (p = .el → ((s.enterReady p).seq .el).window = some { mask := 0x7F, until? := s.nextStart, ready := true, logged := false }) := by
  have hset : ∀ p, (s.setSeqState p 2).seqState p = 2 := fun p => (get_put_same _ _ _ _ (by decide) (by decide)).trans rfl
  cases p
  case ux => exact ⟨hset .ux, fun hp => by cases hp⟩
  case el =>
    have hrel : (s.setSeqState .el 2).heldRelease.seqState .el = 2 ∧ (s.setSeqState .el 2).heldRelease.nextStart = s.nextStart := by
      have hheld : ((s.setSeqState .el 2).seq .el).heldStarts = [] := by
        rw [State.setSeqState, seq_put, hh]
      unfold State.heldRelease
      rw [hheld]
      split
      · refine ⟨?_, rfl⟩
        rw [List.foldl_nil]
        exact (get_modSeq _ .el _ .el _).trans (hset .el)
      · exact ⟨hset .el, rfl⟩
    obtain ⟨hst, hnext⟩ := hrel
    unfold State.enterReady
    dsimp only
    rw [if_pos hst, hnext]
    generalize (s.setSeqState .el 2).heldRelease = v at hst
    have hopen : (v.openWindow .el { mask := 0x7F, until? := s.nextStart, ready := true, logged := false }).seqState .el = 2
        ∧ ((v.openWindow .el { mask := 0x7F, until? := s.nextStart, ready := true, logged := false }).seq .el).window = some { mask := 0x7F, until? := s.nextStart, ready := true, logged := false } := by
      unfold State.openWindow
      refine ⟨(get_put_other _ _ _ _ _ (by decide) (by decide) (by decide) (.inr (by decide))).trans ((get_modSeq _ .el _ .el _).trans hst), ?_⟩
      rw [seq_put, seq_modSeq]
    have hready : ∀ u : State, u.readyTry.seqState .el = u.seqState .el ∧ u.readyTry.seq .el = u.seq .el := fun u => by
      have hcases : u.readyTry = u ∨ ∃ m, u.readyTry = (u.modEl (fun e => { e with readySent := true })).sendUp .el m := by
        unfold State.readyTry
        dsimp only
        split
        · exact .inr ⟨_, rfl⟩
        · exact .inl rfl
      obtain hr | ⟨m, hr⟩ := hcases
      · rw [hr]
        exact ⟨rfl, rfl⟩
      · rw [hr]
        have hc := core_sendUp (u.modEl (fun e => { e with readySent := true })) .el m
        exact ⟨(stays_of_core (p := .el) hc).state, congrArg (fun w => w.seq .el) hc⟩
    rw [(hready _).1, (hready _).2]
    exact ⟨hopen.1, fun _ => hopen.2⟩

/-- HALT with nothing queued and no start held: READY at once. -/
theorem halt_ready {s : State} {p : Part} {e : Env} (h : Alone s p e 0 [.halt]) (hq : (s.base p).qops = []) (hh : (s.seq .el).heldStarts = []) :
    Ends (.halt p e) s (fun u => u.seqState p = 2 ∧ (p = .el → (u.seq .el).window = some { mask := 0x7F, until? := s.nextStart, ready := true, logged := false })) := by
  obtain ⟨v, hv, hx⟩ := bundleIssue_halt h
  have hd : ((v.put p Reg.SEQ_PC_PC (s.pc p + 1)).setSeqState p 4).drainCheck p = ((v.put p Reg.SEQ_PC_PC (s.pc p + 1)).setSeqState p 4).enterReady p := by
    have hqv : (((v.put p Reg.SEQ_PC_PC (s.pc p + 1)).setSeqState p 4).base p).qops = [] := by
      rw [← hq, ← hv.base Base.qops (fun _ => rfl) p]
      cases p <;> rfl
    have hst : ((v.put p Reg.SEQ_PC_PC (s.pc p + 1)).setSeqState p 4).seqState p = 4 := (get_put_same _ _ _ _ (by decide) (by decide)).trans rfl
    unfold State.drainCheck
    rw [hqv, hst]
    rfl
  have hheld : (((v.put p Reg.SEQ_PC_PC (s.pc p + 1)).setSeqState p 4).seq .el).heldStarts = [] := by
    rw [State.setSeqState, seq_put, seq_put, ← hh]
    cases p
    · rw [hv.seq]
      rfl
    · exact congrArg (fun u => u.el.base.seq.heldStarts) hv.rest
  have hnext : ((v.put p Reg.SEQ_PC_PC (s.pc p + 1)).setSeqState p 4).nextStart = s.nextStart := by
    have hl : v.nextStart = s.nextStart := by
      unfold State.nextStart
      rw [hv.el Elesh.launches (fun _ _ => rfl)]
    rw [← hl]
    cases p <;> rfl
  obtain ⟨k1, k2⟩ := enterReady_ends (p := p) hheld
  rw [hnext] at k2
  exact ⟨_, by rw [hx, hd], k1, k2⟩

/-- Settles O29: the operations of control flow, by the ends of their bundle. -/
theorem controlFlow : Obligations.ControlFlow := by
  intro p e d tgt s n g v faults
  have hdrop : ∀ {i : Instr} {code detail : Nat}, Ends i s (fun u => u.seqState p = 5 ∧ u.el.spm = s.el.spm ∧ (∀ r, u.greg p r = s.greg p r)
      ∧ ∃ es, Logged p s u ((unitSeq p, code, s.pc p, detail) :: es)) →
      Ends i s (fun u => u.seqState p = 5 ∧ (∀ a, u.greg p a = g a) ∧ ∃ es, Logged p s u ((unitSeq p, code, s.pc p, detail) :: es)) := by
    rintro i code detail ⟨u, hx, h5, -, hg, hl⟩
    exact ⟨u, hx, h5, hg, hl⟩
  refine ⟨fun hw => issues_inner rfl rfl (by simp) hw, fun h hl => hdrop (ends_past rfl h hl), fun ht h => ends_branch (pre := []) rfl (by simpa using ht) h (by simp) ht,
    fun hr ht h => ?_, fun hr ht h => ?_, fun hr ht => ⟨fun hv hw => ?_, fun hv hw => ?_, fun h0 h1 h => ?_⟩, halt_drains, halt_ready⟩
  · have hx : exec (.brr p e d) s = s.issue p e 0 (regOk p d) [.branch v.toNat] := by
      show s.issue p e 0 (regOk p d) (if n ≤ v.toNat then [.fault 0x8086 v.toNat] else [.branch v.toNat]) = _
      rw [if_neg (Nat.not_le.mpr ht)]
    exact ends_branch (pre := []) hx hr h (by simp) ht
  · have hx : exec (.brr p e d) s = s.issue p e 0 (regOk p d) [.fault 0x8086 v.toNat] := by
      show s.issue p e 0 (regOk p d) (if n ≤ v.toNat then [.fault 0x8086 v.toNat] else [.branch v.toNat]) = _
      rw [if_pos ht]
    exact hdrop (ends_fault hx hr h)
  all_goals have hx : exec (.loop p e d tgt) s = s.issue p e 0 (regOk p d && decide (tgt.toNat < n)) (if v = 0 then [] else if v = 1 then [.g d 0] else [.g d (v - 1), .branch tgt.toNat]) := rfl
  · rw [if_pos hv] at hx
    exact issues_inner hx (by simp [hr, ht]) (by simp) hw
  · rw [if_neg (by rw [hv]; decide), if_pos hv] at hx
    exact issues_inner hx (by simp [hr, ht]) (by simp [Act.inner]) hw
  · rw [if_neg h0, if_neg h1] at hx
    exact ends_branch (pre := [.g d (v - 1)]) hx (by simp [hr, ht]) h (by simp [Act.inner]) ht

end Sys2Proof.Machine

/-! SUPPORT. Accesses of a program to SPM (R190 to R193, R371, R379, R380). -/

namespace Sys2Proof.Machine

/-! ### The store -/

theorem Alike.flips {m : Seq} {fresh : Bool} {p : Part} {s t : State} (h : Alike m fresh p s t) (x : Nat) : t.flips x = s.flips x := by
  unfold State.flips
  rw [h.bit (f := Reg.TEST_PFLIP_EN) (by decide), h.get (f := Reg.TEST_PFLIP_ADDR) (by decide)]

theorem Alike.spmPut {m : Seq} {fresh : Bool} {p : Part} {s t : State} (h : Alike m fresh p s t) (x : Nat) (w : Word) : Alike m fresh p (s.spmPut x w) (t.spmPut x w) := by
  have hmode : t.bit .el Reg.TEST_PFLIP_MODE = s.bit .el Reg.TEST_PFLIP_MODE := h.bit (by decide)
  have hbad : t.el.spmBad = s.el.spmBad := h.el Elesh.spmBad (fun _ _ => rfl)
  unfold State.spmPut
  rw [h.flips, hmode, hbad]
  dsimp only
  have hm := h.modEl (fun e => { e with
    spm := mwrite e.spm (x - x % 8) (leBytes 8 (if s.flips x = true then w ^^^ 1 else w).toNat)
    spmBad := if (s.flips x && !s.bit .el Reg.TEST_PFLIP_MODE) = true then (s.el.spmBad.filter (fun y => y != x / 8)) ++ [x / 8] else s.el.spmBad.filter (fun y => y != x / 8) }) (fun _ _ => rfl)
  split
  · next hf =>
    rw [if_pos hf] at hm
    rw [hm.get (f := Reg.TEST_PFLIP_ADDR) (by decide)]
    exact (hm.put .el Reg.TEST_PFLIP_EN 0 (by decide)).log .el _ _ _ _
  · next hf =>
    rw [if_neg hf] at hm
    exact hm

theorem goesOn_spmPut (s : State) (p : Part) (x : Nat) (w : Word) : GoesOn p s (s.spmPut x w) := by
  unfold State.spmPut
  dsimp only
  split
  · exact ((goesOn_modEl s p _ rfl).trans (goesOn_put _ p .el _ (by decide))).trans (goesOn_log _ p .el _ _ _ _)
  · exact goesOn_modEl s p _ rfl

/-- Of a store without a parity flip: the word's bytes, and the word is good. -/
theorem spmPut_of_noflip {s : State} {x : Nat} (h : s.flips x = false) (w : Word) :
    s.spmPut x w = s.modEl (fun e => { e with spm := mwrite e.spm (x - x % 8) (leBytes 8 w.toNat), spmBad := s.el.spmBad.filter (fun y => y != x / 8) }) := by
  unfold State.spmPut
  simp only [h, Bool.false_and, Bool.false_eq_true, if_false]

/-! ### A bundle with one access -/

/-- The words of two consecutive addresses lie in two banks. -/
theorem bankSlips_pair (y : Nat) : bankSlips [y / 8, (y + 8) / 8] = 0 := by
  have hne : ((y + 8) / 8 % 32 == y / 8 % 32) = false := by
    rw [beq_eq_false_iff_ne]
    omega
  unfold bankSlips
  rw [List.map_cons, List.map_cons, List.map_nil, List.eraseDups_cons, List.filter_cons, hne]
  simp [List.eraseDups_cons]

theorem bankSlips_single (y : Nat) : bankSlips [y] = 0 := by simp [bankSlips, List.eraseDups_cons]

/-- The store of one word is its bundle's one access. -/
theorem accesses_single (slot x : Nat) (w : Word) : bankSlips (bundleAccesses [.unit slot, .spm slot x [w]]) = 0
    ∧ ∀ s : State, s.spmWrites [.unit slot, .spm slot x [w]] = s.spmPut x w := by
  have hwords : ([Act.unit slot, .spm slot x [w]]).flatMap Act.words = [(slot, x, w)] := by simp [Act.words]
  refine ⟨?_, fun s => ?_⟩
  · unfold bundleAccesses
    simp [hwords, wordLost, bankSlips_single]
  · unfold State.spmWrites
    simp [hwords, wordLost, Act.words]

/-- The store of two words is its bundle's two accesses, in two banks. -/
theorem accesses_pair (slot x : Nat) (w w' : Word) : bankSlips (bundleAccesses [.unit slot, .spm slot x [w, w']]) = 0
    ∧ ∀ s : State, s.spmWrites [.unit slot, .spm slot x [w, w']] = (s.spmPut x w).spmPut (x + 8) w' := by
  have hwords : ([Act.unit slot, .spm slot x [w, w']]).flatMap Act.words = [(slot, x, w), (slot, x + 8, w')] := by simp [Act.words, List.range_succ]
  refine ⟨?_, fun s => ?_⟩
  · unfold bundleAccesses
    have hb := bankSlips_pair x
    simp [hwords, wordLost] at hb ⊢
    exact hb
  · unfold State.spmWrites
    simp [hwords, wordLost, Act.words, List.range_succ]

/-- A load is its bundle's one access, and writes nothing. -/
theorem accesses_load (slot x n d : Nat) (w : Word) : bankSlips (bundleAccesses [.unit slot, .load x, .replay x n, .g d w]) = 0
    ∧ ∀ s : State, s.spmWrites [.unit slot, .load x, .replay x n, .g d w] = s := by
  refine ⟨?_, fun s => ?_⟩
  · unfold bundleAccesses
    simp [Act.words, bankSlips_single]
  · unfold State.spmWrites
    simp [Act.words]

/-- A bundle of the Elesh whose accesses fall on different banks, and that changes no counter and no watch. -/
theorem bundleIssue_el {acts : List Act} (hb : bankSlips (bundleAccesses acts) = 0) (hi : bundleIncs acts = []) (hw : ∀ s : State, acts.foldl (fun u a => u.applyWatch a) s = s) (s : State) :
    s.bundleIssue .el acts = (acts.foldl (fun t a => t.applyAct .el a) ((acts.foldl (fun t a => t.applyLoad a) (s.issuedFrom .el)).spmWrites acts)).bundleFlow .el acts false := by
  unfold State.bundleIssue
  rw [hb]
  show (s.issuedFrom .el).applyBundle .el acts = _
  unfold State.applyBundle
  simp only [hi, incRaw_nil, hw]

/-- A store of an Elesh program. -/
theorem issues_store {i : Instr} {s t : State} {e : Env} {slot x : Nat} {ws : List Word} {ok : Bool} (hexec : exec i s = s.issue .el e slot ok [.spm slot x ws]) (hok : ok = true)
    (h : Within s .el e slot [.spm slot x ws]) (hb : bankSlips (bundleAccesses [.unit slot, .spm slot x ws]) = 0)
    (ht : ∀ m fresh v, Alike m fresh .el s v → Alike m fresh .el t (v.spmWrites [.unit slot, .spm slot x ws])) (hgo : GoesOn .el s t) :
    Issues i s t .el (s.greg .el) (s.flag .el) := by
  obtain ⟨hal, hmore⟩ := h
  have hx : exec i s = .next (((s.issuedFrom .el).spmWrites [.unit slot, .spm slot x ws]).bundleFlow .el [.unit slot, .spm slot x ws] false) := by
    rw [hexec, hok, issue_alone hal, bundleIssue_el hb rfl (fun _ => rfl)]
    rfl
  have hsize := hal.size
  exact issues_of_flow (m := (s.seq .el).issued) hx (by simp [Act.flowless]) (ht _ _ _ (alike_issuedFrom s .el)) (issued_act [] (s.seq .el)) hal.whole (hgo.state.trans (seqState_of_issuing hal.issues)) hgo.pc hgo.segNew
    (by rw [hgo.bundles]; exact hmore) (by rw [hgo.bundles]; exact hsize)

/-! ### Loads -/

theorem Alike.spmReplay {m : Seq} {fresh : Bool} {p : Part} {s t : State} (h : Alike m fresh p s t) (port x obj : Nat) : Alike m fresh p (s.spmReplay port x obj) (t.spmReplay port x obj) := by
  unfold State.spmReplay
  exact (((h.count .el Reg.SPM_CNT_REPLAYS _ (by decide)).put .el Reg.SPM_STAT_REPLAY _ (by decide)).log .el _ _ _ _).modEl _ (fun _ _ => rfl)

theorem goesOn_spmReplay (s : State) (p : Part) (port x obj : Nat) : GoesOn p s (s.spmReplay port x obj) := by
  unfold State.spmReplay
  exact (((goesOn_put s p .el _ (by decide)).trans (goesOn_put _ p .el _ (by decide))).trans (goesOn_log _ p .el _ _ _ _)).trans (goesOn_modEl _ p _ rfl)

/-- What a bundle with one load does before control flow. -/
theorem bundleIssue_load (s : State) (x n d : Nat) (w : Word) : s.bundleIssue .el [.unit 6, .load x, .replay x n, .g d w] =
    ((((s.issuedFrom .el).applyLoad (.load x)).applyLoad (.replay x n)).setGreg .el d w).bundleFlow .el [.unit 6, .load x, .replay x n, .g d w] false := by
  obtain ⟨hb, hs⟩ := accesses_load 6 x n d w
  rw [bundleIssue_el hb rfl (fun _ => rfl), hs]
  rfl

theorem applyLoad_good {s : State} {x : Nat} (h : s.el.spmBad.contains (x / 8) = false) : s.applyLoad (.load x) = s := by
  simp only [State.applyLoad, h, Bool.false_eq_true, if_false]

theorem applyReplay_none {s : State} {x n : Nat} (h : n = 0 ∨ s.el.spmBad.contains (x / 8) = true) : s.applyLoad (.replay x n) = s := by
  unfold State.applyLoad
  dsimp only
  rw [if_pos]
  rcases h with h | h
  · simp [h]
  · rw [h, Bool.or_true]

theorem applyReplay_some {s : State} {x n : Nat} (hn : n ≠ 0) (h : s.el.spmBad.contains (x / 8) = false) :
    s.applyLoad (.replay x n) = (s.slip .el (2 * n)).spmReplay 6 x (s.pc .el) := by
  simp only [State.applyLoad, h, hn, decide_false, Bool.or_self, Bool.false_eq_true, if_false]

/-- A load of an Elesh program whose word is good, or heals. -/
theorem issues_load {i : Instr} {s b t : State} {e : Env} {x n d : Nat} {w : Word} {ok fresh : Bool} (hexec : exec i s = s.issue .el e 6 ok [.load x, .replay x n, .g d w]) (hok : ok = true)
    (h : Within s .el e 6 [.load x, .replay x n, .g d w]) (hb : Alike (s.seq .el).issued fresh .el b (s.issuedFrom .el))
    (ht : ∀ m v, Alike m fresh .el b v → Alike m fresh .el t ((v.applyLoad (.load x)).applyLoad (.replay x n)))
    (hstate : t.seqState .el = s.seqState .el) (hpc : t.pc .el = s.pc .el) (hbundles : (t.seq .el).bundles = (s.seq .el).bundles) (hfresh : (t.seq .el).segNew = fresh) :
    Issues i s t .el (Function.update (s.greg .el) d w) (s.flag .el) := by
  obtain ⟨hal, hmore⟩ := h
  have hsize := hal.size
  have hv := (ht _ _ hb).inner (a := .g d w) rfl
  exact (issues_of_flow (by rw [hexec, hok, issue_alone hal, bundleIssue_load]; rfl) (by simp [Act.flowless]) hv (issued_act [.g d w] _) hal.whole
    (hstate.trans (seqState_of_issuing hal.issues)) hpc hfresh (by omega) (by omega)).of_eq (act_gregs [.g d w] _) (fun _ _ => rfl)

theorem greg_bundleFlow (v : State) (p : Part) {acts : List Act} (h : ∀ a ∈ acts, a.flowless = true) (r : Nat) : (v.bundleFlow p acts false).greg p r = v.greg p r := by
  obtain ⟨hb, hf, hh⟩ := flowless_flow h
  have hfault : ∀ w : State, (w.programFault p).greg p r = w.greg p r := fun w => by
    by_cases hw : w.seqState p = 3
    · exact (programFault_ends hw).2.1 r
    · unfold State.programFault
      rw [if_neg hw]
  unfold State.bundleFlow
  simp only [hf, hh, flowless_logs h, Bool.false_or, Bool.false_and, Bool.false_eq_true, if_false]
  split
  · rw [hfault, (stays_nextPc _ p _).greg, ((stays_refl p v).log p _ _ _ _).greg]
  · rw [(stays_nextPc _ p _).greg]

/-- A load of a word that stays bad (R380): it reads 0, and 0x7002 is the first event. -/
theorem ends_bad_load {i : Instr} {s : State} {e : Env} {x n d : Nat} {ok : Bool} (hexec : exec i s = s.issue .el e 6 ok [.load x, .replay x n, .g d 0]) (hok : ok = true)
    (hbad : s.el.spmBad.contains (x / 8) = true) (h : Alone s .el e 6 [.load x, .replay x n, .g d 0]) :
    Ends i s (fun u => u.greg .el d = 0 ∧ ∃ es, Logged .el s u ((0x07, 0x7002, s.pc .el, 6 * 2 ^ 60 + x) :: es)) := by
  refine ⟨_, by rw [hexec, hok, issue_alone h, bundleIssue_load], ?_⟩
  have hv := alike_issuedFrom s .el
  generalize s.issuedFrom .el = v at hv
  have hbad' : v.el.spmBad.contains (x / 8) = true := by
    rw [hv.el Elesh.spmBad (fun _ _ => rfl)]
    exact hbad
  have hpersist : ∃ w : State, (w.base .el).events = (s.base .el).events ∧ v.applyLoad (.load x) = (w.log .el 0x07 0x7002 (s.pc .el) (6 * 2 ^ 60 + x)).guardTrigger .el 5 7 2 false := by
    refine ⟨(((v.slip .el 4).put .el Reg.SPM_STAT_PERSIST 1).put .el Reg.SPM_PERR_PORT 6).put .el Reg.SPM_PERR_ADDR x, ?_, ?_⟩
    · simp only [events_put, State.slip, State.count]
      exact hv.events .el
    · rw [← hv.pc .el]
      simp only [State.applyLoad, hbad', if_true]
      rfl
  obtain ⟨w, hw, hl⟩ := hpersist
  rw [hl]
  have hlog : Logged .el s (w.log .el 0x07 0x7002 (s.pc .el) (6 * 2 ^ 60 + x)) [(0x07, 0x7002, s.pc .el, 6 * 2 ^ 60 + x)] := logged_log _ _ _ _ hw
  refine ⟨?_, ?_⟩
  · rw [greg_bundleFlow _ _ (by simp [Act.flowless]), greg_setGreg]
    exact if_pos rfl
  · have hk := keeps_bundleFlow (acts := [.unit 6, .load x, .replay x n, .g d 0]) (p := .el) (pairFault := false)
      (keeps_setGreg (p := .el) (a := d) (v := 0) (keeps_applyLoad (a := .replay x n) (keeps_guardTrigger (p := .el) (code := 5) (unit := 7) (first := 2) (ran := false)
        (keeps_refl (w.log .el 0x07 0x7002 (s.pc .el) (6 * 2 ^ 60 + x))))))
    obtain ⟨es, hes⟩ := exists_logged (p := .el) hk.el.events
    exact ⟨es, hlog.trans hes⟩

/-! ### The memory -/

theorem leNat_leBytes (n v : Nat) : leNat (leBytes n v) = v % 256 ^ n := by
  induction n generalizing v with
  | zero => simp [leBytes, leNat, Nat.mod_one]
  | succ n ih =>
    rw [leBytes, leNat, ih, pow_succ', Nat.mod_mul]
    simp

theorem length_leBytes (n v : Nat) : (leBytes n v).length = n := by
  induction n generalizing v with
  | zero => rfl
  | succ n ih => rw [leBytes, List.length_cons, ih]

/-- A stored word reads back. -/
theorem spmRaw_spmPut {s : State} {x : Nat} (w : Word) (h : s.flips x = false) : (s.spmPut x w).spmRaw x = w := by
  have hread := mread_mwrite (leBytes 8 w.toNat) s.el.spm (x - x % 8)
  rw [length_leBytes] at hread
  rw [spmPut_of_noflip h]
  show BitVec.ofNat 64 (leNat (mread (mwrite s.el.spm (x - x % 8) (leBytes 8 w.toNat)) (x - x % 8) 8)) = w
  rw [hread, leNat_leBytes]
  apply BitVec.eq_of_toNat_eq
  rw [BitVec.toNat_ofNat]
  omega

/-- What a store leaves of the state. -/
theorem spmPut_leaves (s : State) (x : Nat) (w : Word) (hf : s.flips x = false) (hm : s.memOk) :
    (s.spmPut x w).spmRaw x = w ∧ (s.spmPut x w).memOk ∧ (∀ c, c < x - x % 8 ∨ x - x % 8 + 8 ≤ c → mget (s.spmPut x w).el.spm c = mget s.el.spm c)
      ∧ (s.spmPut x w).el.base = s.el.base ∧ (s.spmPut x w).ux = s.ux ∧ x / 8 ∉ (s.spmPut x w).el.spmBad := by
  refine ⟨spmRaw_spmPut w hf, ?_⟩
  rw [spmPut_of_noflip hf]
  obtain ⟨h1, h2, h3, h4, h5⟩ := hm
  refine ⟨⟨memory_wf_mwrite _ _ _ h1, h2, h3, h4, h5⟩, fun c hc => mget_mwrite_other _ _ _ _ (by rw [length_leBytes]; exact hc), rfl, rfl, ?_⟩
  show x / 8 ∉ s.el.spmBad.filter (fun y => y != x / 8)
  simp [List.mem_filter]

/-- Settles O35: accesses are judged by their address, their word and its replays. -/
theorem programMemory : Obligations.ProgramMemory := by
  refine ⟨?_, spmPut_leaves⟩
  intro e d a b c ofs fa purpose n s g x y q bad w faults
  have hexecFault : ∀ {i : Instr} {slot at' : Nat} {ok : Bool}, exec i s = s.issue .el e slot ok [.fault 0x8088 (rangeDetail slot at')] → ok = true → faults i slot at' := by
    intro i slot at' ok hx hok hal
    exact ends_fault hx hok hal
  have hfsto : exec (.fsto e fa a ofs) s = s.issue .el e 4 true (if s.spmOk x 8 then [.spm 4 x [(s.fa fa).fp]] else [.fault 0x8088 (rangeDetail 4 x)]) := rfl
  have hst : exec (.st e a b ofs) s = s.issue .el e 6 true (if s.spmOk x 8 then [.spm 6 x [g b]] else [.fault 0x8088 (rangeDetail 6 x)]) := rfl
  have hld : exec (.ld e d a ofs n) s = s.issue .el e 6 true (if s.spmOk x 8 then [.load x, .replay x n, .g d w] else [.fault 0x8088 (rangeDetail 6 x)]) := rfl
  have hrsto : exec (.rsto e a b c purpose) s = s.issue .el e 5 (purposeOk purpose) (if s.spmOk y 16 then [.spm 5 y [q.wordA, q.wordB]] else [.fault 0x8088 (rangeDetail 5 y)]) := rfl
  refine ⟨fun hx => ?_, fun hy hp hw => ?_, fun hx => ?_, fun hy hp => ?_⟩
  · rw [if_pos hx] at hfsto hst hld
    refine ⟨fun hw => ?_, fun hw => ?_, fun hbad hn hw => ?_, fun hbad hn hw => ?_, fun hbad hw => ?_⟩
    · obtain ⟨hb, hs⟩ := accesses_single 4 x (s.fa fa).fp
      exact issues_store hfsto rfl hw hb (fun m fresh v hv => by rw [hs]; exact hv.spmPut _ _) (goesOn_spmPut s .el _ _)
    · obtain ⟨hb, hs⟩ := accesses_single 6 x (g b)
      exact issues_store hst rfl hw hb (fun m fresh v hv => by rw [hs]; exact hv.spmPut _ _) (goesOn_spmPut s .el _ _)
    · refine issues_load hld rfl hw (alike_issuedFrom s .el) (fun m v hv => ?_) rfl rfl rfl rfl
      have hv' : v.el.spmBad.contains (x / 8) = false := by
        rw [hv.el Elesh.spmBad (fun _ _ => rfl)]
        exact hbad
      rw [applyLoad_good hv', applyReplay_none (.inl (by rw [hn]; rfl))]
      exact hv
    · obtain ⟨k1, k2, k3, k4⟩ := segStart_keeps s .el
      have hgo := (goesOn_slip (s.segStart .el) .el .el (2 * n)).trans (goesOn_spmReplay _ .el 6 x (s.pc .el))
      refine issues_load hld rfl hw (alike_issuedFrom_segStart s .el) (fun m v hv => ?_) (hgo.state.trans k1) (hgo.pc.trans k2) (hgo.bundles.trans k3) (hgo.segNew.trans k4)
      have hseg : (s.segStart .el).el.spmBad = s.el.spmBad := by
        unfold State.segStart
        split <;> rfl
      have hv' : v.el.spmBad.contains (x / 8) = false := by
        rw [hv.el Elesh.spmBad (fun _ _ => rfl), hseg]
        exact hbad
      rw [applyLoad_good hv', applyReplay_some (by simpa using hn) hv', hv.pc .el, k2]
      exact (hv.slip rfl .el _).spmReplay _ _ _
    · have hw0 : w = 0 := if_pos hbad
      rw [hw0] at hld hw
      exact ends_bad_load hld rfl hbad hw.1
  · rw [if_pos hy] at hrsto
    obtain ⟨hb, hs⟩ := accesses_pair 5 y q.wordA q.wordB
    exact issues_store hrsto hp hw hb (fun m fresh v hv => by rw [hs]; exact (hv.spmPut _ _).spmPut _ _) ((goesOn_spmPut s .el _ _).trans (goesOn_spmPut _ .el _ _))
  · rw [if_neg (by simp [hx])] at hfsto hst hld
    exact ⟨hexecFault hfsto rfl, hexecFault hst rfl, hexecFault hld rfl⟩
  · rw [if_neg (by simp [hy])] at hrsto
    exact hexecFault hrsto hp

end Sys2Proof.Machine

/-! SUPPORT. Slot operations with one effect on a unit: pulses, launch identities, counters and watches, accumulators, channels, manifests (R179, R181, R190, R193 to R195). -/

namespace Sys2Proof.Machine

/-- The register of the slips holds nothing a manifest stages. -/
theorem stFields_slips : stFields .el slipsOff = [] := by decide

/-- The registers of the pulse outputs 0 to 3 stand below the sequencer's. -/
theorem pulseBase_lt {i : Nat} (h : i < 4) : pulseBase i < 0x1500 := by
  unfold pulseBase
  rw [if_pos h]
  omega

/-! ### The sequencer a unit sees -/

section
variable {m : Seq} {fresh : Bool} {p : Part} {s t : State} (h : Alike m fresh p s t)
include h

/-- A reading of a sequencer that does not look at its marks. -/
theorem Alike.ofSeq {α : Type} (f : Seq → α) (hf : ∀ c m, f (Seq.marked c m) = f c) (q : Part) : f (t.seq q) = f (s.seq q) := by
  by_cases hq : q = p
  · subst hq
    rw [h.seq, hf]
  · have hr := congrArg (fun u => u.base q) h.rest
    cases p <;> cases q
    · exact absurd rfl hq
    · exact congrArg (fun b => f b.seq) hr
    · exact congrArg (fun b => f b.seq) hr
    · exact absurd rfl hq

/-! ### Pulses -/

theorem Alike.getAt (q : Part) (f : Fld) (ho : f.off ≠ slipsOff) : t.get q f = s.get q f := h.get ho

theorem Alike.pulseArm {i : Nat} (hi : i < 4) : Alike m fresh p (s.pulseArm .el i).1 (t.pulseArm .el i).1 ∧ (t.pulseArm .el i).2 = (s.pulseArm .el i).2 := by
  have hoff : ∀ k, k < 0x80 → pulseBase i + k ≠ slipsOff := fun k hk => by
    have hb := pulseBase_lt hi
    simp only [slipsOff, Reg.SEQ_SLIPS_SEGMENT]
    omega
  have htb : t.get .el (Reg.PULSE_CTRL_TB i) = s.get .el (Reg.PULSE_CTRL_TB i) := h.get (hoff _ (by decide))
  have hmode : t.get .el (Reg.PULSE_CTRL_MODE i) = s.get .el (Reg.PULSE_CTRL_MODE i) := h.get (hoff _ (by decide))
  have hcount : t.get .el (Reg.PULSE_COUNT_COUNT i) = s.get .el (Reg.PULSE_COUNT_COUNT i) := h.get (hoff _ (by decide))
  have hns : t.get .el (Reg.PULSE_START_NSF_NS i) = s.get .el (Reg.PULSE_START_NSF_NS i) := h.get (hoff _ (by decide))
  have hstate : ∀ n, t.tbState .el n = s.tbState .el n := fun n => by
    unfold State.tbState
    exact h.get (by simp only [Reg.TB_STAT_STATE, slipsOff, Reg.SEQ_SLIPS_SEGMENT]; omega)
  have hhas : ∀ n, t.tbHas .el n = s.tbHas .el n := fun n => h.el (fun e => decide (n < e.lic.tbCount)) (fun _ _ => rfl)
  have hper : t.pulsePeriod .el i = s.pulsePeriod .el i := by
    unfold State.pulsePeriod
    rw [h.getAt .el (Reg.PULSE_PER_SEC_SEC i) (hoff _ (by decide)), h.getAt .el (Reg.PULSE_PER_NSF_NS i) (hoff _ (by decide)), h.getAt .el (Reg.PULSE_PER_NSF_FRAC i) (hoff _ (by decide))]
  have hwid : t.pulseWidth .el i = s.pulseWidth .el i := by
    unfold State.pulseWidth
    rw [h.getAt .el (Reg.PULSE_WIDTH_NS i) (hoff _ (by decide)), h.getAt .el (Reg.PULSE_WIDTH_FRAC16 i) (hoff _ (by decide))]
  have hstart : t.pulseStart .el i = s.pulseStart .el i := by
    unfold State.pulseStart
    rw [h.reg (o := (Reg.PULSE_START_SEC_SEC i).off) (hoff _ (by decide)), h.reg (o := (Reg.PULSE_START_NSF_NS i).off) (hoff _ (by decide))]
  have hrefused : t.pulseRefused .el i = s.pulseRefused .el i := by
    unfold State.pulseRefused
    simp only [hper, hwid, htb, hhas, hstate, hmode, hcount]
  have hlate : t.pulseLate .el i = s.pulseLate .el i := by
    unfold State.pulseLate
    rw [hstart, htb, h.tbNow]
  unfold State.pulseArm
  rw [hrefused, hlate, hmode, hcount, hstart, hns]
  split
  · exact ⟨h.log .el _ _ _ _, rfl⟩
  split
  · exact ⟨(h.put .el (Reg.PULSE_STAT_LATE i) 1 (hoff _ (by decide))).log .el _ _ _ _, rfl⟩
  · have hp := (h.put .el (Reg.PULSE_STAT_ARMED i) 1 (hoff _ (by decide))).put .el (Reg.PULSE_STAT_EDGES_LEFT i) (if s.get .el (Reg.PULSE_CTRL_MODE i) = 2 then s.get .el (Reg.PULSE_COUNT_COUNT i) else 0) (hoff _ (by decide))
    refine ⟨?_, rfl⟩
    dsimp only
    rw [hp.getAt .el (Reg.PULSE_CTRL_TB i) (hoff _ (by decide)), hp.tbNow]
    exact hp.mod .el _ (fun _ _ _ => rfl)

theorem Alike.parm {i : Nat} (hi : i < 4) (tb x : Nat) : Alike m fresh p (s.parm i tb x).1 (t.parm i tb x).1 := by
  have hoff : ∀ k, k < 0x80 → pulseBase i + k ≠ slipsOff := fun k hk => by
    have hb := pulseBase_lt hi
    simp only [slipsOff, Reg.SEQ_SLIPS_SEGMENT]
    omega
  unfold State.parm
  rw [h.bit (q := .el) (f := Reg.PULSE_STAT_ARMED i) (hoff _ (by decide))]
  split
  · exact h.log .el _ _ _ _
  · exact ((((h.setReg .el _ _ (.inr (hoff _ (by decide)))).setReg .el _ _ (.inr (hoff _ (by decide)))).put .el (Reg.PULSE_CTRL_TB i) tb (hoff _ (by decide))).pulseArm hi).1

theorem Alike.larm (lid gmask : Nat) : Alike m fresh p (s.larm lid gmask) (t.larm lid gmask) := by
  have hoff : (Reg.LARM_MASK0 (lid / 4)).off ≠ slipsOff := by simp only [Reg.LARM_MASK0, slipsOff, Reg.SEQ_SLIPS_SEGMENT]; omega
  unfold State.larm
  dsimp only
  rw [h.reg hoff]
  exact h.setReg .el _ _ (.inr hoff)

/-! ### Counters and watches -/

theorem Alike.watchAt (w : Nat) : t.watchAt w = s.watchAt w := h.el (fun e => tget Watch.zero e.watches w) (fun _ _ => rfl)

theorem Alike.setWatch (w : Nat) (x : Watch) : Alike m fresh p (s.setWatch w x) (t.setWatch w x) := h.modEl _ (fun _ _ => rfl)

theorem Alike.wakeWatch (w kind : Nat) (equal : Bool) : Alike m fresh p (s.wakeWatch w kind equal) (t.wakeWatch w kind equal) := by
  unfold State.wakeWatch State.disarm
  rw [h.watchAt]
  exact (h.setWatch w _).modEl _ (fun _ _ => rfl)

theorem Alike.cntAbs (i : Nat) : t.cntAbs i = s.cntAbs i := h.el (fun e => tget 0 e.counters i) (fun _ _ => rfl)

theorem Alike.cntView (i : Nat) : t.cntView i = s.cntView i := h.el (fun e => tget 0 e.counters i - tget 0 e.stepBase i) (fun _ _ => rfl)

theorem Alike.watchTry (w : Nat) : Alike m fresh p (s.watchTry w) (t.watchTry w) := by
  unfold State.watchTry
  simp only [h.watchAt, h.cntView]
  split
  · exact h.wakeWatch _ _ _
  · exact h

theorem Alike.watchClear (w : Nat) : Alike m fresh p (s.watchClear w) (t.watchClear w) := by
  unfold State.watchClear
  rw [h.watchAt]
  split
  · exact h.wakeWatch _ _ _
  · exact h

theorem Alike.gateAsk (c e : Nat) : Alike m fresh p (s.gateAsk c e) (t.gateAsk c e) := by
  have hgate : t.gate c e = s.gate c e := h.el (fun x => tget Gate.zero x.gates (gateKey c e)) (fun _ _ => rfl)
  unfold State.gateAsk
  rw [hgate, h.el Elesh.watches (fun _ _ => rfl)]
  dsimp only
  split
  · exact h.modEl _ (fun _ _ => rfl)
  · exact h

theorem Alike.watchReg (owner : Bool) (core k target : Nat) (eq : Bool) (eng w : Nat) :
    Alike m fresh p (s.watchReg owner core k target eq eng w).1 (t.watchReg owner core k target eq eng w).1 := by
  unfold State.watchReg
  rw [h.watchAt]
  dsimp only
  split
  · exact h.logW .el _ _ _ _ _
  · exact ((h.setWatch w _).gateAsk core eng).watchTry w

theorem Alike.cntAdd (i n : Nat) : Alike m fresh p (s.cntAdd i n) (t.cntAdd i n) := by
  unfold State.cntAdd
  rw [h.cntAbs]
  dsimp only
  split
  · exact h
  split
  · exact h.modEl _ (fun _ _ => rfl)
  · exact ((h.modEl _ (fun _ _ => rfl)).put .el Reg.SYNC_STAT_SAT 1 (by decide)).log .el _ _ _ _

theorem Alike.pairTry (pr : Pair) : Alike m fresh p (s.pairTry pr).1 (t.pairTry pr).1 ∧ (t.pairTry pr).2 = (s.pairTry pr).2 := by
  unfold State.pairTry
  simp only [h.cntAbs]
  split
  · exact ⟨(h.put .el Reg.SYNC_STAT_PAIR_UNDER 1 (by decide)).logI .el _ _ _ _, rfl⟩
  split
  · exact ⟨(h.put .el Reg.SYNC_STAT_PAIR_OVER 1 (by decide)).log .el _ _ _ _, rfl⟩
  · exact ⟨h, rfl⟩
end

theorem Alike.pairChecks {m : Seq} {fresh : Bool} {p : Part} (prs : List Pair) {a b : State × Bool} (h : Alike m fresh p a.1 b.1) (hf : b.2 = a.2) :
    let c := fun (a : State × Bool) (pr : Pair) => ((a.1.pairTry pr).1, a.2 || (a.1.pairTry pr).2)
    Alike m fresh p (prs.foldl c a).1 (prs.foldl c b).1 ∧ (prs.foldl c b).2 = (prs.foldl c a).2 := by
  induction prs generalizing a b with
  | nil => exact ⟨h, hf⟩
  | cons pr prs ih =>
    obtain ⟨h1, h2⟩ := h.pairTry pr
    exact ih h1 (by simp only [hf, h2])

theorem Alike.foldl {α : Type} {m : Seq} {fresh : Bool} {p : Part} (l : List α) (f : State → α → State) (hf : ∀ s t x, Alike m fresh p s t → Alike m fresh p (f s x) (f t x))
    {s t : State} (h : Alike m fresh p s t) : Alike m fresh p (l.foldl f s) (l.foldl f t) := by
  induction l generalizing s t with
  | nil => exact h
  | cons x xs ih => exact ih (hf s t x h)

section
variable {m : Seq} {fresh : Bool} {p : Part} {s t : State} (h : Alike m fresh p s t)
include h

theorem Alike.pairCheck (keys : List Nat) : Alike m fresh p (s.pairCheck keys).1 (t.pairCheck keys).1 ∧ (t.pairCheck keys).2 = (s.pairCheck keys).2 := by
  unfold State.pairCheck
  rw [h.ofSeq Seq.pairs (fun _ _ => rfl) .el]
  exact Alike.pairChecks _ h rfl

theorem Alike.watchScan (keys : List Nat) : Alike m fresh p (s.watchScan keys) (t.watchScan keys) := by
  unfold State.watchScan
  rw [h.el Elesh.watches (fun _ _ => rfl)]
  refine Alike.foldl _ _ (fun u v x hu => ?_) h
  split
  · exact hu.watchTry _
  · exact hu

theorem Alike.incRaw (incs : List (Nat × Nat)) : Alike m fresh p (s.incRaw incs).1 (t.incRaw incs).1 ∧ (t.incRaw incs).2 = (s.incRaw incs).2 := by
  unfold State.incRaw
  have hadd := Alike.foldl ((sumIncs incs).filter (fun e => e.2 != 0)) (fun u e => u.cntAdd e.1 e.2) (fun u v e hu => hu.cntAdd e.1 e.2) h
  obtain ⟨h1, h2⟩ := hadd.pairCheck (((sumIncs incs).filter (fun e => e.2 != 0)).map Prod.fst)
  exact ⟨h1.watchScan _, h2⟩

/-! ### DMA channels -/

theorem Alike.getDma {f : Fld} (ho : 0x8000 ≤ f.off) : t.get .el f = s.get .el f := h.get (by simp only [slipsOff, Reg.SEQ_SLIPS_SEGMENT]; omega)

theorem Alike.putDma {f : Fld} (v : Nat) (ho : 0x8000 ≤ f.off) : Alike m fresh p (s.put .el f v) (t.put .el f v) :=
  h.put .el f v (by simp only [slipsOff, Reg.SEQ_SLIPS_SEGMENT]; omega)

theorem Alike.modDma (ch : Nat) (f : Dma → Dma) : Alike m fresh p (s.modDma ch f) (t.modDma ch f) := h.modEl _ (fun _ _ => rfl)

theorem Alike.dma (ch : Nat) : t.dma ch = s.dma ch := h.el (fun e => tget Dma.zero e.dma ch) (fun _ _ => rfl)

theorem Alike.findOp (q : Part) (id : Nat) : t.findOp q id = s.findOp q id := by
  unfold State.findOp
  rw [h.base Base.qops (fun _ => rfl)]

theorem Alike.endFail (q : Part) (o : QOp) (st : Nat) (hd : s.seqState q ≠ 4) : Alike m fresh p (s.endFail q o st) (t.endFail q o st) := by
  have hk := (((h.mod q (fun b => { b with qops := b.qops.filter (fun x => x.id != o.id) }) (fun _ _ _ => rfl)).talLast (if st = stRefused then 0 else o.kind.redOp) o.pc st 0).qfail q o.queue o.pc st)
  have hs : Stays q s (((s.dropOp q o.id).talLast (if st = stRefused then 0 else o.kind.redOp) o.pc st 0).qfail q o.queue o.pc st) :=
    (((stays_refl q s).mod q _).talLast _ _ _ _).qfail q _ _ _
  have ht : Stays q t (((t.dropOp q o.id).talLast (if st = stRefused then 0 else o.kind.redOp) o.pc st 0).qfail q o.queue o.pc st) :=
    (((stays_refl q t).mod q _).talLast _ _ _ _).qfail q _ _ _
  unfold State.endFail
  rw [drainCheck_of_ne (by rw [hs.state]; exact hd), drainCheck_of_ne (by rw [ht.state, State.seqState, h.get (f := Reg.SEQ_STAT_STATE) (by decide)]; exact hd)]
  exact hk

/-- Every register of a DMA channel. -/
theorem Alike.dmaWriteBack (ch st cause : Nat) : Alike m fresh p (s.dmaWriteBack ch st cause) (t.dmaWriteBack ch st cause) := by
  have haddr : t.dmaAddr ch = s.dmaAddr ch := by
    unfold State.dmaAddr
    rw [h.getDma (f := Reg.DMA_RING_BASE_BASE ch) (by simp only [Reg.DMA_RING_BASE_BASE]; omega), h.getDma (f := Reg.DMA_STAT_POS ch) (by simp only [Reg.DMA_STAT_POS]; omega)]
  have hmem : ∀ {u v : State} a bs, Alike m fresh p u v → Alike m fresh p (u.memWrite .el a bs) (v.memWrite .el a bs) := fun a bs hu => hu.mod .el _ (fun _ _ _ => rfl)
  have hput : ∀ {u v : State} (f : Fld) x, Alike m fresh p u v → 0x8000 ≤ f.off → Alike m fresh p (u.put .el f x) (v.put .el f x) := fun f x hu ho => hu.putDma x ho
  unfold State.dmaWriteBack State.count
  rw [haddr, h.dma]
  dsimp only
  have h2 := hmem (s.dmaAddr ch) (leBytes 4 ((s.dma ch).ctl.toNat % 2 ^ 31)) (hmem (s.dmaAddr ch + 0x38) (leBytes 8 (st * 2 ^ 60 + cause * 2 ^ 56 + ((s.dma ch).total - (s.dma ch).written) % 2 ^ 41)) h)
  rw [h2.getDma (f := Reg.DMA_RING_SIZE_SIZE ch) (by simp only [Reg.DMA_RING_SIZE_SIZE]; omega), h2.getDma (f := Reg.DMA_STAT_POS ch) (by simp only [Reg.DMA_STAT_POS]; omega)]
  have h6 := fun pos => hput (Reg.DMA_RESIDUE_RESIDUE ch) ((s.dma ch).total - (s.dma ch).written)
    (hput (Reg.DMA_STAT_LAST_CAUSE ch) cause (hput (Reg.DMA_STAT_LAST_STATUS ch) st (hput (Reg.DMA_STAT_POS ch) pos h2 (by simp only [Reg.DMA_STAT_POS]; omega))
      (by simp only [Reg.DMA_STAT_LAST_STATUS]; omega)) (by simp only [Reg.DMA_STAT_LAST_CAUSE]; omega)) (by simp only [Reg.DMA_RESIDUE_RESIDUE]; omega)
  rw [(h6 _).getDma (f := Reg.DMA_CNT_DESC_DONE ch) (by simp only [Reg.DMA_CNT_DESC_DONE]; omega)]
  exact Alike.modDma (hput _ _ (hput _ _ (h6 _) (by simp only [Reg.DMA_CNT_DESC_DONE]; omega)) (by simp only [Reg.DMA_STAT_LEFT]; omega)) ch _

theorem Alike.dmaEndFail (ch st : Nat) (hd : s.seqState .el ≠ 4) : Alike m fresh p (s.dmaEndFail ch st) (t.dmaEndFail ch st) := by
  have hk := ((h.putDma (f := Reg.DMA_STAT_STATE ch) 0 (by simp only [Reg.DMA_STAT_STATE]; omega)).putDma (f := Reg.DMA_STAT_LEFT ch) 0 (by simp only [Reg.DMA_STAT_LEFT]; omega)).modDma ch (fun _ => Dma.zero)
  have hs : Stays .el s (((s.put .el (Reg.DMA_STAT_STATE ch) 0).put .el (Reg.DMA_STAT_LEFT ch) 0).modDma ch (fun _ => Dma.zero)) :=
    (((stays_refl .el s).putDma _ (by simp only [Reg.DMA_STAT_STATE]; omega)).putDma _ (by simp only [Reg.DMA_STAT_LEFT]; omega)).modDma _ _
  unfold State.dmaEndFail
  rw [h.dma]
  dsimp only
  split
  · rw [hk.findOp]
    split
    · exact hk.endFail .el _ st (by rw [hs.state]; exact hd)
    · exact hk
  · exact hk

theorem Alike.dmaAborted (ch : Nat) (hd : s.seqState .el ≠ 4) : Alike m fresh p (s.dmaAborted ch) (t.dmaAborted ch) := by
  have hb : Alike m fresh p (if (s.dma ch).fetched then s.dmaWriteBack ch (s.dma ch).endSt (if (s.dma ch).busError then 1 else 0) else s)
      (if (s.dma ch).fetched then t.dmaWriteBack ch (s.dma ch).endSt (if (s.dma ch).busError then 1 else 0) else t) := by
    split
    · exact h.dmaWriteBack _ _ _
    · exact h
  unfold State.dmaAborted
  rw [h.dma, h.getDma (f := Reg.DMA_STAT_POS ch) (by simp only [Reg.DMA_STAT_POS]; omega)]
  dsimp only
  refine Alike.dmaEndFail ((hb.putDma (f := Reg.DMA_STAT_ABORT ch) 1 (by simp only [Reg.DMA_STAT_ABORT]; omega)).logW .el 0x07 0x7012 ch _ _) ch _ ?_
  have hs : Stays .el s ((if (s.dma ch).fetched then s.dmaWriteBack ch (s.dma ch).endSt (if (s.dma ch).busError then 1 else 0) else s).put .el (Reg.DMA_STAT_ABORT ch) 1) :=
    (((stays_refl .el s).dmaWriteBack _ _ _).ite (stays_refl .el s)).putDma _ (by simp only [Reg.DMA_STAT_ABORT]; omega)
  rw [(hs.logW .el _ _ _ _ _).state]
  exact hd

theorem Alike.dmaAbort (ch st : Nat) (hd : s.seqState .el ≠ 4) : Alike m fresh p (s.dmaAbort ch st) (t.dmaAbort ch st) := by
  unfold State.dmaAbort
  rw [h.getDma (f := Reg.DMA_STAT_STATE ch) (by simp only [Reg.DMA_STAT_STATE]; omega)]
  have hm := h.modDma ch (fun d => { d with endSt := st })
  have hs : Stays .el s (s.modDma ch (fun d => { d with endSt := st })) := (stays_refl .el s).modDma ch _
  dsimp only
  rw [hm.dma]
  split
  · split
    · exact hm.putDma (f := Reg.DMA_STAT_STATE ch) 2 (by simp only [Reg.DMA_STAT_STATE]; omega)
    · exact hm.dmaAborted ch (by rw [hs.state]; exact hd)
  split
  · exact hm
  · exact h


/-! ### Manifests -/

theorem Alike.staged (q : Part) {o : Nat} (ho : o ≠ slipsOff) : t.staged q o = s.staged q o := by
  unfold State.staged
  rw [h.base Base.staged (fun _ => rfl), h.reg ho]

theorem Alike.next (q : Part) {f : Fld} (ho : f.off ≠ slipsOff) : t.next q f = s.next q f := by
  unfold State.next
  rw [h.staged q ho]

theorem Alike.stageRefuse (q : Part) (o : Nat) : Alike m fresh p (s.stageRefuse q o) (t.stageRefuse q o) := h.log q _ _ _ _

theorem Alike.manState (q : Part) : t.manState q = s.manState q := h.get (by decide)

theorem Alike.stage {o : Nat} (ho : o ≠ slipsOff) (v : Word) : Alike m fresh p (s.stage .el o v).1 (t.stage .el o v).1 := by
  unfold State.stage
  rw [h.manState, h.staged .el ho, h.base Base.staged (fun _ => rfl), show t.absentBits .el o v = s.absentBits .el o v from by unfold State.absentBits; rw [h.el Elesh.lic (fun _ _ => rfl)]]
  dsimp only
  split
  · exact h.stageRefuse .el o
  split
  · exact h.log .el _ _ _ _
  split
  · exact h.stageRefuse .el o
  · exact (h.mod .el _ (fun _ _ _ => rfl)).put .el Reg.MAN_STAT_STATE 1 (by decide)

theorem Alike.stLegal (o : Nat) : t.stLegal .el o = s.stLegal .el o := by
  unfold State.stLegal
  by_cases ho : o = slipsOff
  · subst ho
    simp only [stFields_slips, List.all_nil]
  · rw [h.staged .el ho]

theorem Alike.rankBad : t.rankBad = s.rankBad := by
  unfold State.rankBad
  rw [h.next .el (f := Reg.SEQ_RUNCFG_W) (by decide), h.next .el (f := Reg.SEED_DP_RANK) (by decide)]

theorem Alike.checkEl (o : Nat) : t.checkEl o = s.checkEl o := by
  have hloaded : t.loaded .el = s.loaded .el := h.ofSeq (fun q => q.bundles != 0) (fun _ _ => rfl) .el
  have hspm : ∀ a n, t.spmIn a n = s.spmIn a n := fun a n => h.el (fun e => decide (a + n ≤ e.lic.spmMib * 2 ^ 20)) (fun _ _ => rfl)
  have hsplit : (t.seq .el).lsiSplit = (s.seq .el).lsiSplit := h.ofSeq Seq.lsiSplit (fun _ _ => rfl) .el
  have hunits : (t.seq .el).units = (s.seq .el).units := h.ofSeq Seq.units (fun _ _ => rfl) .el
  have hstate : t.seqState .el = s.seqState .el := h.get (by decide)
  have hstaged : ∀ o, (o < 0x2000 ∨ 0x7000 ≤ o) → t.staged .el o = s.staged .el o := fun o ho => h.staged .el (by simp only [slipsOff, Reg.SEQ_SLIPS_SEGMENT]; omega)
  have hreg : ∀ o, (o < 0x2000 ∨ 0x7000 ≤ o) → t.reg .el o = s.reg .el o := fun o ho => h.reg (by simp only [slipsOff, Reg.SEQ_SLIPS_SEGMENT]; omega)
  have hnext : ∀ f : Fld, f.off ≠ slipsOff → t.next .el f = s.next .el f := fun f ho => h.next .el ho
  have hstream : ∀ n, t.next .el (Reg.SEED_S_CFG0_N n) = s.next .el (Reg.SEED_S_CFG0_N n) ∧ t.next .el (Reg.SEED_S_CFG0_B n) = s.next .el (Reg.SEED_S_CFG0_B n)
      ∧ t.next .el (Reg.SEED_S_CFG1_U n) = s.next .el (Reg.SEED_S_CFG1_U n) := fun n =>
    ⟨hnext _ (by simp only [Reg.SEED_S_CFG0_N, slipsOff, Reg.SEQ_SLIPS_SEGMENT]; omega), hnext _ (by simp only [Reg.SEED_S_CFG0_B, slipsOff, Reg.SEQ_SLIPS_SEGMENT]; omega),
      hnext _ (by simp only [Reg.SEED_S_CFG1_U, slipsOff, Reg.SEQ_SLIPS_SEGMENT]; omega)⟩
  unfold State.checkEl
  simp only [h.stLegal, hloaded, hspm, hsplit, hunits, hstate, h.tbNow, h.rankBad, (hstream _).1, (hstream _).2.1, (hstream _).2.2, hstaged 0x1028 (by omega), hstaged 0x1030 (by omega),
    hreg 0x1028 (by omega), hreg 0x1030 (by omega), h.bit (q := .el) (f := Reg.SEC_STAT_DBG_OPEN) (by decide), hnext Reg.SEQ_RUNCFG_W (by decide), hnext Reg.SEQ_RUNCFG_LSI_VALID (by decide),
    hnext Reg.SEQ_RUNCFG_MODE (by decide), hnext Reg.CHK_REPEAT_ADDR (by decide), hnext Reg.CHK_TALWIN0_BASE (by decide), hnext Reg.CHK_TALWIN0_LEN (by decide),
    hnext Reg.CHK_TALWIN1_BCV_ADDR (by decide), hnext Reg.MAN_UNITEN_EN (by decide)]
  by_cases ho : 0x7000 ≤ o
  · simp only [hstaged o (.inr ho), hreg o (.inr ho)]
  · have hne : (decide (o = 0x7000) || decide (o = 0x7008)) = false := by
      simp only [Bool.or_eq_false_iff, decide_eq_false_iff_not]
      omega
    simp only [hne, Bool.false_eq_true, if_false]

theorem Alike.manCheck : t.manCheck .el = s.manCheck .el := by
  have hreg : t.checkReg .el = s.checkReg .el := funext h.checkEl
  unfold State.manCheck
  rw [hreg, h.base Base.staged (fun _ => rfl)]

theorem Alike.manArm (x : Nat) : Alike m fresh p (s.manArm .el x).1 (t.manArm .el x).1 := by
  unfold State.manArm
  rw [h.manState, h.manCheck, h.tbNow, show t.tbState .el 0 = s.tbState .el 0 from h.get (by decide)]
  split
  · exact h
  split
  · exact h.stageRefuse .el _
  split
  · exact h.put .el Reg.MAN_STAT_LATE 1 (by decide)
  · dsimp only
    refine Alike.mod ?_ .el _ (fun _ _ _ => rfl)
    exact h.put .el Reg.MAN_STAT_STATE 2 (by decide)

theorem Alike.wdRestart (mask : Nat) : Alike m fresh p (s.wdRestart .el mask) (t.wdRestart .el mask) := by
  unfold State.wdRestart
  exact h.mod .el _ (fun _ _ _ => rfl)
end


/-! ### The sequencer goes on -/

section
variable {p : Part} {s t : State} (h : GoesOn p s t)
include h

theorem GoesOn.put (q : Part) {f : Fld} (v : Nat) (ho : f.off ≠ 0x2008 ∧ f.off ≠ 0x2038) : GoesOn p s (t.put q f v) := h.trans (goesOn_put t p q v ho)

theorem GoesOn.setReg (q : Part) {o : Nat} (w : Word) (ho : o ≠ 0x2008 ∧ o ≠ 0x2038) : GoesOn p s (t.setReg q o w) := h.trans (goesOn_setReg t p q w ho)

theorem GoesOn.log (q : Part) (u c o d : Nat) : GoesOn p s (t.log q u c o d) := h.trans (goesOn_log t p q u c o d)

theorem GoesOn.logW (q : Part) (u c o w d : Nat) : GoesOn p s (t.logW q u c o w d) := h.trans (goesOn_logW t p q u c o w d)

theorem GoesOn.mod (q : Part) (f : Base → Base) (hr : ∀ b, (f b).regs = b.regs := by intro; rfl) (hq : ∀ b, (f b).seq = b.seq := by intro; rfl) : GoesOn p s (t.mod q f) :=
  h.trans (goesOn_mod t p q f hr hq)

theorem GoesOn.modEl (f : Elesh → Elesh) (hb : ∀ e, (f e).base = e.base := by intro; rfl) : GoesOn p s (t.modEl f) := h.trans (goesOn_modEl t p f (hb _))

theorem GoesOn.ite {u : State} {c : Prop} [Decidable c] (k : GoesOn p s u) : GoesOn p s (if c then t else u) := by
  split
  · exact h
  · exact k

theorem GoesOn.foldl {α : Type} (l : List α) (f : State → α → State) (hf : ∀ u x, GoesOn p s u → GoesOn p s (f u x)) : GoesOn p s (l.foldl f t) := by
  induction l generalizing t with
  | nil => exact h
  | cons x xs ih => exact ih (hf t x h)

theorem GoesOn.putDma {f : Fld} (v : Nat) (ho : 0x8000 ≤ f.off) : GoesOn p s (t.put .el f v) := h.put .el v (by omega)

theorem GoesOn.modDma (ch : Nat) (f : Dma → Dma) : GoesOn p s (t.modDma ch f) := h.modEl _

theorem GoesOn.dmaWriteBack (ch st cause : Nat) : GoesOn p s (t.dmaWriteBack ch st cause) := by
  have hput : ∀ {u : State} (f : Fld) v, GoesOn p s u → 0x8000 ≤ f.off → GoesOn p s (u.put .el f v) := fun f v hu ho => hu.putDma v ho
  have hmem : ∀ {u : State} a bs, GoesOn p s u → GoesOn p s (u.memWrite .el a bs) := fun a bs hu => hu.mod .el _
  unfold State.dmaWriteBack State.count
  dsimp only
  apply GoesOn.modDma
  apply hput
  · apply hput
    · apply hput
      · apply hput
        · apply hput
          · apply hput
            · exact hmem _ _ (hmem _ _ h)
            · simp only [Reg.DMA_STAT_POS]; omega
          · simp only [Reg.DMA_STAT_LAST_STATUS]; omega
        · simp only [Reg.DMA_STAT_LAST_CAUSE]; omega
      · simp only [Reg.DMA_RESIDUE_RESIDUE]; omega
    · simp only [Reg.DMA_CNT_DESC_DONE]; omega
  · simp only [Reg.DMA_STAT_LEFT]; omega

theorem GoesOn.wakeWatch (w kind : Nat) (equal : Bool) : GoesOn p s (t.wakeWatch w kind equal) := by
  unfold State.wakeWatch State.disarm State.setWatch
  dsimp only
  exact GoesOn.modEl (h.modEl _) _

theorem GoesOn.watchTry (w : Nat) : GoesOn p s (t.watchTry w) := by
  unfold State.watchTry
  exact (h.wakeWatch _ _ _).ite h

theorem GoesOn.watchReg (owner : Bool) (core k target : Nat) (eq : Bool) (eng w : Nat) : GoesOn p s (t.watchReg owner core k target eq eng w).1 := by
  unfold State.watchReg
  dsimp only
  split
  · exact h.logW .el _ _ _ _ _
  · refine GoesOn.watchTry ?_ w
    unfold State.gateAsk
    dsimp only
    unfold State.setWatch State.setGate
    exact GoesOn.ite (GoesOn.modEl (h.modEl _) _) (h.modEl _)

theorem GoesOn.cntAdd (i n : Nat) : GoesOn p s (t.cntAdd i n) := by
  unfold State.cntAdd
  dsimp only
  split
  · exact h
  split
  · exact h.modEl _
  · exact ((h.modEl _).put .el _ (by decide)).log .el _ _ _ _

end

theorem goesOn_pairChecks {p : Part} {s : State} (prs : List Pair) {a : State × Bool} (ha : GoesOn p s a.1) :
    GoesOn p s (prs.foldl (fun (a : State × Bool) pr => let r := a.1.pairTry pr; (r.1, a.2 || r.2)) a).1 := by
  induction prs generalizing a with
  | nil => exact ha
  | cons pr prs ih =>
    refine ih ?_
    dsimp only
    unfold State.pairTry
    dsimp only
    split
    · exact (ha.put .el _ (by decide)).log .el _ _ _ _
    split
    · exact (ha.put .el _ (by decide)).log .el _ _ _ _
    · exact ha

section
variable {p : Part} {s t : State} (h : GoesOn p s t)
include h

theorem GoesOn.incRaw (incs : List (Nat × Nat)) : GoesOn p s (t.incRaw incs).1 := by
  unfold State.incRaw State.watchScan State.pairCheck
  dsimp only
  refine GoesOn.foldl (goesOn_pairChecks _ ?_) _ _ (fun u x hu => (hu.watchTry _).ite hu)
  exact GoesOn.foldl h _ _ (fun u x hu => hu.cntAdd _ _)

theorem GoesOn.pulseArm {i : Nat} (hi : i < 4) : GoesOn p s (t.pulseArm .el i).1 := by
  have hb := pulseBase_lt hi
  have hput : ∀ {u : State} (f : Fld) (v : Nat), GoesOn p s u → f.off < pulseBase i + 0x80 → GoesOn p s (u.put .el f v) := fun f v hu hf => hu.put .el v (by omega)
  unfold State.pulseArm
  dsimp only
  split
  · exact h.log .el _ _ _ _
  split
  · exact (hput (Reg.PULSE_STAT_LATE i) 1 h (Nat.add_lt_add_left (by decide) _)).log .el _ _ _ _
  · dsimp only
    refine GoesOn.mod ?_ .el _
    exact hput (Reg.PULSE_STAT_EDGES_LEFT i) _ (hput (Reg.PULSE_STAT_ARMED i) 1 h (Nat.add_lt_add_left (by decide) _)) (Nat.add_lt_add_left (by decide) _)

theorem GoesOn.parm {i : Nat} (hi : i < 4) (tb x : Nat) : GoesOn p s (t.parm i tb x).1 := by
  have hb := pulseBase_lt hi
  have hset : ∀ {u : State} (o : Nat) (w : Word), GoesOn p s u → o < pulseBase i + 0x80 → GoesOn p s (u.setReg .el o w) := fun o w hu hf => hu.setReg .el w (by omega)
  unfold State.parm
  split
  · exact h.log .el _ _ _ _
  · refine GoesOn.pulseArm ?_ hi
    refine hset (Reg.PULSE_CTRL_TB i).off _ (hset (Reg.PULSE_START_NSF_NS i).off _ (hset (Reg.PULSE_START_SEC_SEC i).off _ h ?_) ?_) ?_ <;> exact Nat.add_lt_add_left (by decide) _

theorem GoesOn.stage (o : Nat) (v : Word) : GoesOn p s (t.stage .el o v).1 := by
  unfold State.stage
  dsimp only
  split
  · exact h.log .el _ _ _ _
  split
  · exact h.log .el _ _ _ _
  split
  · exact h.log .el _ _ _ _
  · exact GoesOn.put (h.mod .el _) .el _ (by decide)

theorem GoesOn.manArm (x : Nat) : GoesOn p s (t.manArm .el x).1 := by
  unfold State.manArm
  split
  · exact h
  split
  · exact h.log .el _ _ _ _
  split
  · exact h.put .el _ (by decide)
  · dsimp only
    refine GoesOn.mod ?_ .el _
    exact h.put .el (f := Reg.MAN_STAT_STATE) _ (by decide)
end

theorem goesOn_refl (p : Part) (s : State) : GoesOn p s s := ⟨rfl, rfl, rfl, rfl⟩

theorem goesOn_endFail {s : State} (p q : Part) (o : QOp) (st : Nat) (h : s.seqState q ≠ 4) : GoesOn p s (s.endFail q o st) := by
  have hs : Stays q s (((s.dropOp q o.id).talLast (if st = stRefused then 0 else o.kind.redOp) o.pc st 0).qfail q o.queue o.pc st) :=
    (((stays_refl q s).mod q _).talLast _ _ _ _).qfail q _ _ _
  unfold State.endFail
  rw [drainCheck_of_ne (by rw [hs.state]; exact h)]
  exact (((goesOn_refl p s).mod q _).trans (goesOn_talLast _ p _ _ _ _)).trans (goesOn_qfail _ p q _ _ _)

theorem goesOn_dmaEndFail {s : State} (p : Part) (ch st : Nat) (h : s.seqState .el ≠ 4) : GoesOn p s (s.dmaEndFail ch st) := by
  have hk : ∀ r, GoesOn r s (((s.put .el (Reg.DMA_STAT_STATE ch) 0).put .el (Reg.DMA_STAT_LEFT ch) 0).modDma ch (fun _ => Dma.zero)) := fun r =>
    (((goesOn_refl r s).putDma _ (by simp only [Reg.DMA_STAT_STATE]; omega)).putDma _ (by simp only [Reg.DMA_STAT_LEFT]; omega)).modDma _ _
  unfold State.dmaEndFail
  dsimp only
  split
  · split
    · exact (hk p).trans (goesOn_endFail p .el _ st (by rw [(hk .el).state]; exact h))
    · exact hk p
  · exact hk p

theorem goesOn_dmaAborted {s : State} (p : Part) (ch : Nat) (h : s.seqState .el ≠ 4) : GoesOn p s (s.dmaAborted ch) := by
  have hk : ∀ r residue, GoesOn r s (((if (s.dma ch).fetched then s.dmaWriteBack ch (s.dma ch).endSt (if (s.dma ch).busError then 1 else 0) else s).put .el (Reg.DMA_STAT_ABORT ch) 1).logW
      .el 0x07 0x7012 ch (s.get .el (Reg.DMA_STAT_POS ch)) residue) := fun r residue =>
    ((((goesOn_refl r s).dmaWriteBack _ _ _).ite (goesOn_refl r s)).putDma _ (by simp only [Reg.DMA_STAT_ABORT]; omega)).logW .el _ _ _ _ _
  unfold State.dmaAborted
  dsimp only
  exact (hk p _).trans (goesOn_dmaEndFail p ch _ (by rw [(hk .el _).state]; exact h))

theorem goesOn_dmaAbort {s : State} (p : Part) (ch st : Nat) (h : s.seqState .el ≠ 4) : GoesOn p s (s.dmaAbort ch st) := by
  have hm : ∀ r f, GoesOn r s (s.modDma ch f) := fun r f => (goesOn_refl r s).modDma ch f
  unfold State.dmaAbort
  dsimp only
  refine GoesOn.ite (GoesOn.ite ?_ ?_) ((hm p _).ite (goesOn_refl p s))
  · exact (hm p _).putDma _ (by simp only [Reg.DMA_STAT_STATE]; omega)
  · exact (hm p _).trans (goesOn_dmaAborted p ch (by rw [(hm .el _).state]; exact h))


/-! ### Counters and watches of a bundle -/

/-- A bundle of one increment. -/
theorem issues_inc {i : Instr} {s : State} {e : Env} {core k n : Nat} {ok : Bool} (hexec : exec i s = s.issue .el e 2 ok [.inc core k n]) (hok : ok = true)
    (hf : (s.incRaw [(cntKey core k, n)]).2 = false) (h : Within s .el e 2 [.inc core k n]) :
    Issues i s (s.incRaw [(cntKey core k, n)]).1 .el (s.greg .el) (s.flag .el) := by
  obtain ⟨hal, hmore⟩ := h
  have hsize := hal.size
  obtain ⟨hv, hvf⟩ := (alike_issuedFrom s .el).incRaw [(cntKey core k, n)]
  rw [hf] at hvf
  have hb : s.bundleIssue .el [.unit 2, .inc core k n] = ((s.issuedFrom .el).incRaw [(cntKey core k, n)]).1.bundleFlow .el [.unit 2, .inc core k n] false := by
    rw [bundleIssue_offMemory (by simp [Act.offMemory]), ← hvf]
    rfl
  have hgo := (goesOn_refl .el s).incRaw [(cntKey core k, n)]
  exact issues_of_flow (m := (s.seq .el).issued) (by rw [hexec, hok, issue_alone hal, hb]) (by simp [Act.flowless]) hv (issued_act [] _) hal.whole
    (hgo.state.trans (seqState_of_issuing hal.issues)) hgo.pc hgo.segNew (by rw [hgo.bundles]; exact hmore) (by rw [hgo.bundles]; exact hsize)

/-- A bundle of one registration or release of a watch. -/
theorem issues_watch {i : Instr} {s t : State} {e : Env} {a : Act} {ok : Bool} (hexec : exec i s = s.issue .el e 2 ok [a]) (hok : ok = true) (ha : a.offMemory = true ∧ a.flowless = true)
    (hact : ∀ u : State, u.applyAct .el a = u) (hinc : bundleIncs [.unit 2, a] = [])
    (ht : ∀ m fresh v, Alike m fresh .el s v → Alike m fresh .el t (v.applyWatch a)) (hgo : GoesOn .el s t) (h : Within s .el e 2 [a]) :
    Issues i s t .el (s.greg .el) (s.flag .el) := by
  obtain ⟨hal, hmore⟩ := h
  have hsize := hal.size
  have hb : s.bundleIssue .el [.unit 2, a] = ((s.issuedFrom .el).applyWatch a).bundleFlow .el [.unit 2, a] false := by
    rw [bundleIssue_offMemory (List.forall_mem_cons.mpr ⟨rfl, List.forall_mem_singleton.mpr ha.1⟩)]
    simp only [List.foldl_cons, List.foldl_nil, hact, hinc, incRaw_nil]
    rfl
  exact issues_of_flow (m := (s.seq .el).issued) (by rw [hexec, hok, issue_alone hal, hb]) (List.forall_mem_cons.mpr ⟨rfl, List.forall_mem_singleton.mpr ha.2⟩) (ht _ _ _ (alike_issuedFrom s .el)) (issued_act [] _) hal.whole
    (hgo.state.trans (seqState_of_issuing hal.issues)) hgo.pc hgo.segNew (by rw [hgo.bundles]; exact hmore) (by rw [hgo.bundles]; exact hsize)

theorem goesOn_watchClear (s : State) (p : Part) (w : Nat) : GoesOn p s (s.watchClear w) := by
  unfold State.watchClear
  exact ((goesOn_refl p s).wakeWatch _ _ _).ite (goesOn_refl p s)

theorem goesOn_larm (s : State) (p : Part) (lid gmask : Nat) : GoesOn p s (s.larm lid gmask) := by
  unfold State.larm
  exact goesOn_setReg s p .el _ (by simp only [Reg.LARM_MASK0]; omega)

theorem not_isSt_slips (s : State) : s.isSt .el slipsOff = false := by
  unfold State.isSt
  rw [stFields_slips]
  exact Bool.and_false _

/-- The encoding of PARM is legal. -/
theorem parm_ok {s : State} {tb : Fin 4} {rel : Bool} {a : Fin 64} (htb : tb.val < s.el.lic.tbCount) (hr : if rel then tb = 0 else a.val % 2 = 0) :
    (decide (tb.val < s.el.lic.tbCount) && (if rel then tb == 0 else a.val % 2 == 0)) = true := by
  rw [decide_eq_true htb, Bool.true_and]
  cases rel
  · exact beq_iff_eq.mpr hr
  · exact beq_iff_eq.mpr hr

/-- Settles O36: every operation is one act beside its flag. -/
theorem unitOperations : Obligations.UnitOperations := by
  intro e i tb rel eq a b cf eng ns lid core k gmask amt tag widx fa ch mask s g l t does tells n adds
  have hparm : exec (.parm e i tb rel a cf ns) s = s.issue .el e 1 (decide (tb.val < s.el.lic.tbCount) && (if rel then tb == 0 else a.val % 2 == 0))
    (if rel || nsOk (g (a + 1)) then [.pulse i tb t, .flag cf (s.parm i tb t).2] else [.log 0x02 0x1008 (pulseObj i) (Reg.PULSE_START_NSF_NS i).off, .flag cf false]) := rfl
  refine ⟨fun htb hr => ⟨fun hns hw => ?_, fun hr' hns hw => ?_⟩, fun hw => ?_, fun hc => ⟨fun ha hf hw => ?_, fun hn hf hw => ?_, fun hn hw => ?_, fun he hx hw => ?_⟩, fun hx hw => ?_, fun hw => ?_,
    fun hc hw => ?_, fun hst hw => ?_, fun hst hw => ?_, fun hr hw => ?_, fun hw => ?_, fun hw => ?_, fun h => ?_⟩
  · have hok : (rel || nsOk (g (a + 1))) = true := by
      obtain h | h := hns
      · rw [h, Bool.true_or]
      · rw [h, Bool.or_true]
    rw [if_pos hok] at hparm
    exact issues_effect (pre := []) (post := [.flag cf (s.parm i tb t).2]) hparm (parm_ok htb hr) hw (by simp) (by simp [Act.inner]) rfl (fun m fresh v hv => hv.parm i.isLt _ _) ((goesOn_refl .el s).parm i.isLt _ _)
  · have hok : (rel || nsOk (g (a + 1))) = false := by rw [hr', hns]; rfl
    rw [if_neg (c := (rel || nsOk (g (a + 1))) = true) (by rw [hok]; decide)] at hparm
    exact issues_effect (pre := []) (post := [.flag cf false]) hparm (parm_ok htb hr) hw (by simp) (by simp [Act.inner]) rfl (fun m fresh v hv => hv.log .el _ _ _ _) (goesOn_log s .el .el _ _ _ _)
  · exact issues_effect (pre := []) (post := []) rfl rfl hw (by simp) (by simp) rfl (fun m fresh v hv => hv.larm _ _) (goesOn_larm s .el _ _)
  · exact issues_inc rfl (by rw [show cntOk s.el.lic .el core k = true from hc, Bool.true_and]; exact bne_iff_ne.mpr ha) hf hw
  · have hx : exec (.cincr e core k a) s = s.issue .el e 2 (cntOk s.el.lic .el core k) (if n = 0 then [] else [.inc core.toNat k.toNat n]) := rfl
    rw [if_neg hn] at hx
    exact issues_inc hx hc hf hw
  · have hx : exec (.cincr e core k a) s = s.issue .el e 2 (cntOk s.el.lic .el core k) (if n = 0 then [] else [.inc core.toNat k.toNat n]) := rfl
    rw [if_pos hn] at hx
    exact issues_inner hx hc (by simp) hw
  · exact issues_watch rfl (by simp [show cntOk s.el.lic .el core k = true from hc, show eng.val < s.el.lic.engPerCore from he, show widx.toNat < s.el.lic.watches from hx]) ⟨rfl, rfl⟩ (fun _ => rfl) rfl
      (fun m fresh v hv => hv.watchReg _ _ _ _ _ _ _) ((goesOn_refl .el s).watchReg _ _ _ _ _ _ _) hw
  · exact issues_watch rfl (by simp [show widx.toNat < s.el.lic.watches from hx]) ⟨rfl, rfl⟩ (fun _ => rfl) rfl (fun m fresh v hv => hv.watchClear _) (goesOn_watchClear s .el _) hw
  · exact issues_effect (pre := []) (post := []) rfl rfl hw (by simp) (by simp) rfl (fun m fresh v hv => hv.modEl _ (fun _ _ => rfl)) ((goesOn_refl .el s).modEl _)
  · have hne : s.seqState .el ≠ 4 := by
      rw [seqState_of_issuing hw.1.issues]
      decide
    exact issues_effect (pre := []) (post := []) rfl (by simp [show ch.val < s.el.lic.dmaCh from hc]) hw (by simp) (by simp) rfl (fun m fresh v hv => hv.dmaAbort _ _ hne) (goesOn_dmaAbort .el _ _ hne)
  · have hx : exec (.mstg e cf a b) s = s.issue .el e 7 true (if s.isSt .el (g a).toNat then [.stage (g a).toNat (g b), .flag cf (s.stage .el (g a).toNat (g b)).2] else [.flag cf false]) := rfl
    rw [if_pos hst] at hx
    have hoff : (g a).toNat ≠ slipsOff := fun hc => by
      rw [hc, not_isSt_slips] at hst
      cases hst
    exact issues_effect (pre := []) (post := [.flag cf (s.stage .el (g a).toNat (g b)).2]) hx rfl hw (by simp) (by simp [Act.inner]) rfl (fun m fresh v hv => hv.stage hoff _) ((goesOn_refl .el s).stage _ _)
  · have hx : exec (.mstg e cf a b) s = s.issue .el e 7 true (if s.isSt .el (g a).toNat then [.stage (g a).toNat (g b), .flag cf (s.stage .el (g a).toNat (g b)).2] else [.flag cf false]) := rfl
    rw [if_neg (by rw [hst]; decide)] at hx
    exact issues_inner hx rfl (by simp [Act.inner]) hw
  · exact issues_effect (pre := []) (post := [.flag cf (s.manArm .el t).2]) rfl (by rcases hr with h | h <;> simp [h]) hw (by simp) (by simp [Act.inner]) rfl (fun m fresh v hv => hv.manArm _) ((goesOn_refl .el s).manArm _)
  · exact issues_effect (pre := []) (post := []) rfl rfl hw (by simp) (by simp) rfl (fun m fresh v hv => hv.log .el _ _ _ _) (goesOn_log s .el .el _ _ _ _)
  · exact issues_effect (pre := []) (post := []) rfl rfl hw (by simp) (by simp) rfl (fun m fresh v hv => hv.wdRestart _) ((goesOn_refl .el s).mod .el _)
  · obtain ⟨u, k1, k2, -, k4, k5⟩ := ends_fault (i := .gtrap e a) rfl rfl h
    exact ⟨u, k1, k2, k4, k5⟩

end Sys2Proof.Machine

/-! SUPPORT. The two waits (R147, R175 to R177, R532). -/

namespace Sys2Proof.Machine

/-! ### A held bundle -/

/-- A held bundle changes the marks of its sequencer and nothing else. -/
theorem waitHold_leaves (s : State) (p : Part) (e : Env) (h : Hold) : (s.waitHold p e h).still p = s.still p ∧ (∀ q o, (s.waitHold p e h).reg q o = s.reg q o)
    ∧ ((s.waitHold p e h).seq p).g = (s.seq p).g ∧ ((s.waitHold p e h).seq p).c = (s.seq p).c ∧ ((s.waitHold p e h).base p).events = (s.base p).events
    ∧ ((s.waitHold p e h).seq p).hold = h := by
  have hw : s.waitHold p e h = s.modSeq p (fun q => { q with hold := h, skip := true }) ∨ s.waitHold p e h = s.modSeq p (fun q => { q with hold := h, skip := false, acts := [] }) := by
    unfold State.waitHold
    dsimp only
    split
    · right
      unfold State.bundleEnd
      simp only [seq_modSeq, if_true]
      exact modSeq_modSeq ..
    · exact .inl rfl
  obtain hw | hw := hw
  · rw [hw]
    refine ⟨by cases p <;> rfl, fun q o => reg_modSeq .., ?_, ?_, by cases p <;> rfl, ?_⟩ <;> rw [seq_modSeq]
  · rw [hw]
    refine ⟨by cases p <;> rfl, fun q o => reg_modSeq .., ?_, ?_, by cases p <;> rfl, ?_⟩ <;> rw [seq_modSeq]

/-- What a wait that holds its bundle leaves: registers, flags, PC and events (R174). -/
def State.heldAs (s u : State) (p : Part) : Prop :=
  u.still p = s.still p ∧ (∀ b, u.greg p b = s.greg p b) ∧ (∀ i < 8, u.flag p i = s.flag p i) ∧ u.pc p = s.pc p ∧ (u.base p).events = (s.base p).events

theorem heldAs_waitHold (s : State) (p : Part) (e : Env) (h : Hold) : s.heldAs (s.waitHold p e h) p := by
  obtain ⟨k1, k2, k3, k4, k5, -⟩ := waitHold_leaves s p e h
  refine ⟨k1, fun b => ?_, fun i _ => ?_, ?_, k5⟩
  · unfold State.greg
    rw [k3]
  · unfold State.flag
    rw [k4]
  · unfold State.pc State.get
    rw [k2]

theorem heldAs_put (s : State) (p : Part) (f : Fld) (v : Nat) (ho : f.off ≠ 0x2038) : s.heldAs (s.put p f v) p := by
  refine ⟨still_put .., fun b => ?_, fun i _ => ?_, ?_, events_put ..⟩
  · unfold State.greg
    rw [seq_put]
  · unfold State.flag
    rw [seq_put]
  · unfold State.pc State.get
    have hne : Reg.SEQ_PC_PC.off ≠ f.off := fun hc => ho hc.symm
    rw [reg_put, if_neg hne]

theorem State.heldAs.trans {s t u : State} {p : Part} (h : s.heldAs t p) (k : t.heldAs u p) : s.heldAs u p := by
  obtain ⟨h1, h2, h3, h4, h5⟩ := h
  obtain ⟨k1, k2, k3, k4, k5⟩ := k
  exact ⟨k1.trans h1, fun b => (k2 b).trans (h2 b), fun i hi => (k3 i hi).trans (h3 i hi), k4.trans h4, k5.trans h5⟩

/-! ### Anchors -/

theorem anchorFree_iff (s : State) (p : Part) (t : Nat) : s.anchorFree p t = true ↔ s.tbState p 0 = 0 ∨ s.tbReached p 0 t = true := by
  unfold State.anchorFree
  simp

/-- The state after an anchor's PC is kept, before its lateness is judged. -/
def State.anchored (s : State) (p : Part) : State := (s.put p Reg.SEQ_PC_ANCHOR (s.pc p)).modSeq p (fun q => { q with segNew := true })

theorem tbState_anchored (s : State) (p : Part) : (s.anchored p).tbState p 0 = s.tbState p 0 := by
  unfold State.anchored
  rw [tbState_modSeq]
  exact get_put_other _ _ _ _ _ (by decide) (by decide) (by decide) (.inl (by decide))

theorem anchorIssue_unset {s : State} {p : Part} (t a : Nat) (h : s.tbState p 0 = 0) : s.anchorIssue p t a = s.anchored p := by
  have hst := tbState_anchored s p
  unfold State.anchored at hst
  unfold State.anchorIssue
  rw [if_pos (by rw [hst, h])]
  rfl

theorem anchorIssue_early {s : State} {p : Part} {t a : Nat} (h : s.tbState p 0 ≠ 0) (ha : a ≤ t) :
    s.anchorIssue p t a = (s.anchored p).put p Reg.SEQ_LATE_SLACK_MIN (min ((s.anchored p).get p Reg.SEQ_LATE_SLACK_MIN) ((t - a) / 2 ^ 32)) := by
  have hst := tbState_anchored s p
  unfold State.anchored at hst
  unfold State.anchorIssue
  rw [if_neg (by rw [hst]; exact h), if_pos ha]
  rfl

/-- The state with an anchor's lateness. -/
def State.anchorLate (s : State) (p : Part) (ps : Nat) : State :=
  let u := ((s.anchored p).put p Reg.SEQ_LATE_LATE (min (2 ^ 32 - 1) ps)).log p (unitSeq p) 0x8080 (s.pc p) ps
  match p with
  | .el => u.modEl (fun e => { e with hbCounts := { e.hbCounts with slipOver := e.hbCounts.slipOver + 1 } })
  | .ux => u

theorem anchorIssue_late {s : State} {p : Part} {t a : Nat} (h : s.tbState p 0 ≠ 0) (ha : t < a) :
    s.anchorIssue p t a = s.anchorLate p (psOf ((a - t : Nat) : Int)).toNat := by
  have hst := tbState_anchored s p
  unfold State.anchored at hst
  unfold State.anchorIssue
  rw [if_neg (by rw [hst]; exact h), if_neg (by omega)]
  cases p <;> rfl

theorem seq_of_core {s t : State} (h : t.core = s.core) (p : Part) : t.seq p = s.seq p := by
  have hs : ∀ u : State, u.core.seq p = u.seq p := fun u => by cases p <;> rfl
  rw [← hs, h, hs]

/-- A late anchor's registers, sequencer and event. -/
theorem anchorLate_leaves (s : State) (p : Part) (ps : Nat) :
    (s.anchorLate p ps).seq p = (s.anchored p).seq p ∧ (∀ o, (s.anchorLate p ps).reg p o = ((s.anchored p).put p Reg.SEQ_LATE_LATE (min (2 ^ 32 - 1) ps)).reg p o)
      ∧ Logged p s (s.anchorLate p ps) [(unitSeq p, 0x8080, s.pc p, ps)] := by
  have hev : (((s.anchored p).put p Reg.SEQ_LATE_LATE (min (2 ^ 32 - 1) ps)).base p).events = (s.base p).events := by
    rw [events_put]
    cases p <;> rfl
  have hcore := core_log ((s.anchored p).put p Reg.SEQ_LATE_LATE (min (2 ^ 32 - 1) ps)) p (unitSeq p) 0x8080 (s.pc p) ps
  have hlog := logged_log (unitSeq p) 0x8080 (s.pc p) ps hev
  have hseq := seq_of_core hcore p
  rw [seq_put] at hseq
  cases p
  · exact ⟨hseq, fun o => reg_of_core hcore .el o, hlog⟩
  · exact ⟨hseq, fun o => reg_of_core hcore .ux o, hlog⟩

/-- An anchor's PC, and the new segment, stand whatever was judged. -/
theorem anchorIssue_leaves (s : State) (p : Part) (t a : Nat) (hpc : s.pc p < 2 ^ 16) : ((s.anchorIssue p t a).seq p).segNew = true ∧ (s.anchorIssue p t a).get p Reg.SEQ_PC_ANCHOR = s.pc p := by
  have hanch : ((s.anchored p).seq p).segNew = true ∧ (s.anchored p).get p Reg.SEQ_PC_ANCHOR = s.pc p := by
    unfold State.anchored
    refine ⟨by rw [seq_modSeq], ?_⟩
    rw [get_modSeq, get_put_same _ _ _ _ (by decide) (by decide)]
    exact Nat.mod_eq_of_lt hpc
  have hput : ∀ f : Fld, ∀ v, f.off = 0x2048 → f.hi < 64 → f.lo ≤ f.hi → ((s.anchored p).put p f v).get p Reg.SEQ_PC_ANCHOR = s.pc p := fun f v ho hh hl =>
    (get_put_other _ _ _ _ _ hh hl (by decide) (.inl (by rw [ho]; decide))).trans hanch.2
  by_cases h0 : s.tbState p 0 = 0
  · rw [anchorIssue_unset t a h0]
    exact hanch
  by_cases ha : a ≤ t
  · rw [anchorIssue_early h0 ha]
    exact ⟨by rw [seq_put]; exact hanch.1, hput _ _ rfl (by decide) (by decide)⟩
  · rw [anchorIssue_late h0 (by omega)]
    obtain ⟨k1, k2, -⟩ := anchorLate_leaves s p (psOf ((a - t : Nat) : Int)).toNat
    refine ⟨by rw [k1]; exact hanch.1, ?_⟩
    unfold State.get
    rw [k2]
    exact hput Reg.SEQ_LATE_LATE _ rfl (by decide) (by decide)

theorem pc_lt (s : State) (p : Part) : s.pc p < 2 ^ 16 := fget_lt _ _ _

/-- What the passing of an anchor leaves (R147, R149, R532). -/
theorem anchorPass_leaves (s : State) (p : Part) (t a : Nat) :
    let u := s.anchorPass p t a
    (u.seq p).anchorOk = true ∧ (u.seq p).hold = .none ∧ (u.seq p).segNew = true ∧ u.bit p Reg.SEQ_STAT_TIMED_WAIT = false ∧ u.get p Reg.SEQ_PC_ANCHOR = s.pc p
      ∧ (s.tbState p 0 = 0 ∨ a ≤ t → (u.base p).events = (s.base p).events)
      ∧ (s.tbState p 0 ≠ 0 → a ≤ t → u.get p Reg.SEQ_LATE_SLACK_MIN = min (s.get p Reg.SEQ_LATE_SLACK_MIN) ((t - a) / 2 ^ 32))
      ∧ (s.tbState p 0 ≠ 0 → t < a → u.get p Reg.SEQ_LATE_LATE = min (2 ^ 32 - 1) (psOf ((a - t : Nat) : Int)).toNat
        ∧ Logged p s u [(unitSeq p, 0x8080, s.pc p, (psOf ((a - t : Nat) : Int)).toNat)]) := by
  obtain ⟨hseg, hanch⟩ := anchorIssue_leaves s p t a (pc_lt s p)
  have hget : ∀ f : Fld, f.off ≠ 0x2008 → f.hi < 64 → (s.anchorPass p t a).get p f = (s.anchorIssue p t a).get p f := fun f ho hh => by
    unfold State.anchorPass
    rw [get_modSeq]
    exact get_put_other _ _ _ _ _ (by decide) (by decide) hh (.inl ho)
  have hev : ((s.anchorPass p t a).base p).events = ((s.anchorIssue p t a).base p).events := by
    unfold State.anchorPass
    have hm : ∀ (w : State) f, ((w.modSeq p f).base p).events = (w.base p).events := fun w f => by cases p <;> rfl
    rw [hm, events_put]
  have hevA : ((s.anchored p).base p).events = (s.base p).events := by cases p <;> rfl
  have hgetA : ∀ f : Fld, f.off ≠ 0x2038 → f.hi < 64 → (s.anchored p).get p f = s.get p f := fun f ho hh => by
    unfold State.anchored
    rw [get_modSeq]
    exact get_put_other _ _ _ _ _ (by decide) (by decide) hh (.inl ho)
  refine ⟨?_, ?_, ?_, ?_, (hget _ (by decide) (by decide)).trans hanch, fun h => hev.trans ?_, fun h0 ha => (hget _ (by decide) (by decide)).trans ?_, fun h0 ha => ⟨(hget _ (by decide) (by decide)).trans ?_, ?_⟩⟩
  · unfold State.anchorPass
    rw [seq_modSeq]
  · unfold State.anchorPass
    rw [seq_modSeq]
  · unfold State.anchorPass
    rw [seq_modSeq, seq_put]
    exact hseg
  · unfold State.anchorPass State.bit
    rw [get_modSeq, get_put_same _ _ _ _ (by decide) (by decide)]
    rfl
  · by_cases h0 : s.tbState p 0 = 0
    · rw [anchorIssue_unset t a h0, hevA]
    · rw [anchorIssue_early h0 (h.resolve_left h0), events_put, hevA]
  · rw [anchorIssue_early h0 ha, get_put_same _ _ _ _ (by decide) (by decide), hgetA _ (by decide) (by decide)]
    have hlt : s.get p Reg.SEQ_LATE_SLACK_MIN < 2 ^ 32 := fget_lt _ _ _
    exact Nat.mod_eq_of_lt (lt_of_le_of_lt (min_le_left _ _) hlt)
  · obtain ⟨-, k2, -⟩ := anchorLate_leaves s p (psOf ((a - t : Nat) : Int)).toNat
    rw [anchorIssue_late h0 ha]
    refine (congrArg (fun w => fget w Reg.SEQ_LATE_LATE.hi Reg.SEQ_LATE_LATE.lo) (k2 _)).trans ?_
    refine (get_put_same _ p Reg.SEQ_LATE_LATE _ (by decide) (by decide)).trans (Nat.mod_eq_of_lt ?_)
    exact lt_of_le_of_lt (min_le_left _ _) (by decide)
  · obtain ⟨-, -, k3⟩ := anchorLate_leaves s p (psOf ((a - t : Nat) : Int)).toNat
    rw [← anchorIssue_late h0 ha] at k3
    exact k3.congr hev

/-! ### The commands -/

/-- When the anchor's bundle became the next to issue: TB0's time now, or the time it is held since (R147). -/
def State.anchorSince (s : State) (p : Part) (t : Nat) : Nat :=
  match (s.seq p).hold with
  | .anchor t' a' => if t' = t then a' else s.tbNow p 0
  | _ => s.tbNow p 0

theorem anchorSince_of_held {s : State} {p : Part} {t c : Nat} (h : (s.seq p).hold = .anchor t c) : s.anchorSince p t = c := by
  unfold State.anchorSince
  rw [h]
  exact if_pos rfl

theorem anchorSince_of_free {s : State} {p : Part} {t : Nat} (h : ∀ c, (s.seq p).hold ≠ .anchor t c) : s.anchorSince p t = s.tbNow p 0 := by
  unfold State.anchorSince
  split
  · next t' a' hh =>
    rw [if_neg]
    rintro rfl
    exact h a' hh
  · rfl

theorem exec_waitt_hold {p : Part} {e : Env} {tb : Fin 4} {rel : Bool} {a : Fin 64} {ns : BitVec 32} {s : State} (he : envOk e = true) (hok : waittOk s.el.lic p tb rel a = true)
    (hw : s.waits p e = true) (hn : (s.seq p).anchorOk = false) :
    let t := s.anchorTime p tb rel a ns.toNat
    exec (.waitt p e tb rel a ns) s = .next (if s.anchorFree p t then (s.anchorPass p t (s.anchorSince p t)).slotOp p e 0 []
      else (s.put p Reg.SEQ_STAT_TIMED_WAIT 1).waitHold p e (.anchor t (s.anchorSince p t))) := by
  show execWaitt p e tb rel a ns s = _
  unfold execWaitt
  rw [if_neg (by simp [he, hok]), if_pos (by simp [hw, hn])]
  rfl

theorem nop_of_env {p : Part} {e : Env} (s : State) (h : envOk e = true) : exec (.nop p e) s = .next (s.slotOp p e 0 []) := by
  show s.issue p e 0 true [] = _
  unfold State.issue
  rw [h]
  rfl

/-- The hold of a counter wait: one begun for the same counter and target goes on (R176). -/
def State.waitcHold (s : State) (p : Part) (core : BitVec 8) (k : BitVec 6) (t : Nat) (eq : Bool) (cf : Fin 8) (lim : Nat) : Hold :=
  match (s.seq p).hold with
  | .waitc c' k' t' q' f' l' n' => if c' = core.toNat ∧ k' = k.toNat ∧ t' = t then .waitc c' k' t' q' f' l' n' else .waitc core.toNat k.toNat t eq cf lim (s.tick p)
  | _ => .waitc core.toNat k.toNat t eq cf lim (s.tick p)

theorem waitcHold_names (s : State) (p : Part) (core : BitVec 8) (k : BitVec 6) (t : Nat) (eq : Bool) (cf : Fin 8) (lim : Nat) :
    ∃ eq' cf' lim' since, s.waitcHold p core k t eq cf lim = .waitc core.toNat k.toNat t eq' cf' lim' since := by
  unfold State.waitcHold
  split
  · next c' k' t' q' f' l' n' _ =>
    split
    · next h =>
      obtain ⟨rfl, rfl, rfl⟩ := h
      exact ⟨q', f', l', n', rfl⟩
    · exact ⟨eq, cf, lim, _, rfl⟩
  · exact ⟨eq, cf, lim, _, rfl⟩

theorem exec_waitc {p : Part} {e : Env} {core : BitVec 8} {k : BitVec 6} {a : Fin 64} {eq : Bool} {pre : Fin 4} {tmo : BitVec 24} {cf : Fin 8} {s : State}
    (he : envOk e = true) (hc : cntOk s.el.lic p core k = true) (hr : regOk p a = true) (ht : tmo ≠ 0) :
    exec (.waitc p e core k a eq pre tmo cf) s = if (s.waits p e && decide (s.cntRead p core.toNat k.toNat < (s.greg p a).toNat)) = true
      then .next (s.waitHold p e (s.waitcHold p core k (s.greg p a).toNat eq cf (s.tmoTicks p tmo.toNat pre)))
      else .next (s.slotOp p e 0 (if eq then [.flag cf (s.cntRead p core.toNat k.toNat == (s.greg p a).toNat)] else [])) := by
  show execWaitc p e core k a eq pre tmo cf s = _
  unfold execWaitc
  have hok : (!(envOk e && cntOk s.el.lic p core k && regOk p a && tmo != 0)) = false := by
    rw [he, hc, hr, bne_iff_ne.mpr ht]
    rfl
  dsimp only
  rw [hok]
  rfl

theorem regsBut_put (s : State) (p : Part) (f : Fld) (v : Nat) : RegsBut [(p, f.off)] s (s.put p f v) := fun q o ho => by
  rw [reg_put_any, if_neg]
  rintro ⟨rfl, rfl⟩
  exact ho (List.mem_singleton.mpr rfl)

/-- Settles O30: the waits hold their bundle, or let it issue. -/
theorem waits : Obligations.Waits := by
  intro p e tb rel a ns core k eq pre tmo cf s t v x held
  refine ⟨fun he hok => ⟨fun hw hn h0 hr => ?_, fun hw hn hfree => ?_, fun hw => ?_⟩, fun t since hh hi hfree => ?_, fun hc => ?_, fun t since hh h0 hr => ?_,
    fun he hc hr ht => ⟨fun hw hlt => ?_, fun hle hq hw => ?_, fun hle hq hw => ?_⟩, fun c' k' t' q' f' l' n' hh hi => ?_, fun hc => ?_⟩
  · have hx : exec (.waitt p e tb rel a ns) s = .next (if s.anchorFree p t then (s.anchorPass p t (s.anchorSince p t)).slotOp p e 0 []
        else (s.put p Reg.SEQ_STAT_TIMED_WAIT 1).waitHold p e (.anchor t (s.anchorSince p t))) := exec_waitt_hold he hok hw hn
    have hnot : s.anchorFree p t = false := by
      unfold State.anchorFree
      rw [show s.tbReached p 0 t = false from hr]
      simpa using h0
    rw [hnot] at hx
    refine ⟨_, hx, ?_⟩
    simp only [Bool.false_eq_true, if_false]
    obtain ⟨-, hreg, -, -, -, hhold⟩ := waitHold_leaves (s.put p Reg.SEQ_STAT_TIMED_WAIT 1) p e (.anchor t (s.anchorSince p t))
    refine ⟨(heldAs_put s p Reg.SEQ_STAT_TIMED_WAIT 1 (by decide)).trans (heldAs_waitHold _ p e _), ?_, fun q o ho => (hreg q o).trans (regsBut_put s p Reg.SEQ_STAT_TIMED_WAIT 1 q o ho), _, hhold⟩
    unfold State.bit State.get
    rw [hreg]
    exact bne_iff_ne.mpr (by rw [← State.get, get_put_same _ _ _ _ (by decide) (by decide)]; decide)
  · have hx : exec (.waitt p e tb rel a ns) s = .next (if s.anchorFree p t then (s.anchorPass p t (s.anchorSince p t)).slotOp p e 0 []
        else (s.put p Reg.SEQ_STAT_TIMED_WAIT 1).waitHold p e (.anchor t (s.anchorSince p t))) := exec_waitt_hold he hok hw hn
    rw [if_pos ((anchorFree_iff s p t).mpr hfree)] at hx
    exact ⟨s.anchorSince p t, by rw [hx, nop_of_env _ he], fun c hc => anchorSince_of_held hc, anchorSince_of_free⟩
  · rw [nop_of_env _ he]
    show execWaitt p e tb rel a ns s = _
    unfold execWaitt
    rw [if_neg (by simp [he, hok]), if_neg]
    rcases hw with hw | hw <;> simp [hw]
  · have hx : exec (.anchorRelease p) s = .next (s.anchorPass p t since) := by
      show execAnchorRelease p s = _
      unfold execAnchorRelease
      rw [hh]
      dsimp only
      rw [hi, (anchorFree_iff s p t).mpr hfree]
      rfl
    exact ⟨hx, _, hx, anchorPass_leaves s p t since⟩
  · show execAnchorRelease p s = _
    unfold execAnchorRelease
    split
    · next t a hh =>
      obtain hc | hc := hc
      · exact absurd hh (hc t a)
      · rw [hc]
        rfl
    · rfl
  · show execAnchorRelease p s = _
    unfold execAnchorRelease
    rw [hh]
    dsimp only
    have hnot : s.anchorFree p t = false := by
      unfold State.anchorFree
      rw [hr]
      simpa using h0
    rw [hnot, Bool.and_false]
    rfl
  · have hx : exec (.waitc p e core k a eq pre tmo cf) s = .next (s.waitHold p e (s.waitcHold p core k x eq cf (s.tmoTicks p tmo.toNat pre))) := by
      rw [exec_waitc he hc hr ht, if_pos (by rw [hw, decide_eq_true hlt]; rfl)]
    obtain ⟨-, hreg, -, -, -, hhold⟩ := waitHold_leaves s p e (s.waitcHold p core k x eq cf (s.tmoTicks p tmo.toNat pre))
    obtain ⟨eq', cf', lim, since, hh⟩ := waitcHold_names s p core k x eq cf (s.tmoTicks p tmo.toNat pre)
    exact ⟨_, hx, heldAs_waitHold s p e _, fun q o _ => hreg q o, eq', cf', lim, since, hhold.trans hh⟩
  · have hx : exec (.waitc p e core k a eq pre tmo cf) s = s.issue p e 0 true [] := by
      rw [exec_waitc he hc hr ht, if_neg (by rw [decide_eq_false (Nat.not_lt.mpr hle), Bool.and_false]; decide), hq, State.issue, he]
      rfl
    exact issues_inner hx rfl (by simp) hw
  · have hx : exec (.waitc p e core k a eq pre tmo cf) s = s.issue p e 0 true [.flag cf (v == x)] := by
      rw [exec_waitc he hc hr ht, if_neg (by rw [decide_eq_false (Nat.not_lt.mpr hle), Bool.and_false]; decide), hq, State.issue, he]
      rfl
    exact issues_inner hx rfl (by simp [Act.inner]) hw
  · have hx : exec (.waitcTimeout p) s = .next ((s.logW p (unitSync p) 0x3010 (cntObj (cntKey c' k')) (2 ^ 20) t').programFault p) := by
      show execWaitcTimeout p s = _
      unfold execWaitcTimeout
      rw [hh]
      dsimp only
      rw [if_pos hi]
    refine ⟨_, hx, ?_, ?_⟩
    · exact (programFault_ends (((stays_refl p s).logW p _ _ _ _ _).state.trans (seqState_of_issuing hi))).1
    · obtain ⟨es, hes⟩ := exists_logged_of_keeps p (keeps_programFault (p := p) (keeps_refl (s.logW p (unitSync p) 0x3010 (cntObj (cntKey c' k')) (2 ^ 20) t')))
      exact ⟨es, (logged_logW _ _ _ _ _ rfl).trans hes⟩
  · show execWaitcTimeout p s = _
    unfold execWaitcTimeout
    split
    · next c' k' t' q' f' l' n' hh =>
      obtain hc | hc := hc
      · rw [hc]
        rfl
      · exact absurd hh (hc c' k' t' q' f' l' n')
    · rfl

end Sys2Proof.Machine

/-! SUPPORT. One step, and the state at reset. -/

namespace Sys2Proof.Machine

/-- Settles O1: a step on a queue with a command at its front. -/
theorem stepTakesFront : Obligations.StepTakesFront := fun _ _ _ => step_cons rfl

/-- What one watchdog has counted after a fold over distinct ones (R424). -/
theorem tget_wdFold (en run : Nat → Bool) (l : List Nat) (hl : l.Nodup) (t : Tbl Nat) (i : Nat) :
    tget 0 (l.foldl (fun t i => if !en i then terase t i else if run i then tput 0 t i (tget 0 t i + 1) else t) t) i =
      if i ∈ l then (if en i then tget 0 t i + (if run i then 1 else 0) else 0) else tget 0 t i := by
  induction l generalizing t with
  | nil => rfl
  | cons j l ih =>
    obtain ⟨hj, hl⟩ := List.nodup_cons.mp hl
    rw [List.foldl_cons, ih hl]
    by_cases hi : i = j
    · subst hi
      rw [if_neg hj, if_pos (List.mem_cons_self ..)]
      cases en i
      · exact tget_terase_same 0 t i
      cases run i
      · rfl
      · exact tget_tput_same 0 t i (tget 0 t i + 1)
    · have hstep : tget 0 (if !en j then terase t j else if run j then tput 0 t j (tget 0 t j + 1) else t) i = tget 0 t i := by
        cases en j
        · exact tget_terase_other 0 t j i hi
        cases run j
        · rfl
        · exact tget_tput_other 0 0 t j i (tget 0 t j + 1) hi
      rw [hstep]
      simp only [List.mem_cons, hi, false_or]

theorem tget_wdNext (s : State) (p : Part) {i : Nat} (hi : i < 7) : tget 0 (s.wdNext p) i =
    if bitOf (s.get p Reg.GUARD_WD_EN) i then tget 0 (s.base p).wdCount i + (if s.seqState p = 3 ∧ bitOf (s.windowMask p) i = false then 1 else 0) else 0 := by
  have h := tget_wdFold (fun i => bitOf (s.get p Reg.GUARD_WD_EN) i) (fun i => s.seqState p == 3 && !bitOf (s.windowMask p) i) (List.range 7) List.nodup_range (s.base p).wdCount i
  rw [if_pos (List.mem_range.mpr hi)] at h
  refine h.trans ?_
  simp only [Bool.and_eq_true, beq_iff_eq, Bool.not_eq_true']

theorem idleTick_base (s : State) (p : Part) : s.idleTick.base p = { s.base p with frc := (s.base p).frc + 65536, wdCount := s.wdNext p } := by
  cases p
  · rw [base_el, idleTick_el, base_el]
  · rw [base_ux, idleTick_ux, base_ux]

theorem pending_cleared {t u : State} {cs : List Instr} (h : t.pending = []) (hu : u = { t with pending := cs }) : ({ u with pending := [] } : State) = t := by
  subst hu
  obtain ⟨el, ux, pending, draws⟩ := t
  subst h
  rfl

theorem idleTick_cleared {s : State} (h : s.pending = []) : ({ s.idleTick with pending := [] } : State) = s.clockTick :=
  pending_cleared ((clockTick_pending s).trans h) (idleTick_eq s)

/-- Settles O2: an idle tick counts both clocks and the watchdogs, ends the LAUNCH pulses and queues what is due. -/
theorem emptyQueueTicks : Obligations.EmptyQueueTicks := by
  intro s hs
  have hbase := idleTick_base s
  refine ⟨_, step_nil hs, fun p => ?_, ?_, fun p => ?_, fun p i hi => ?_, ?_, ?_, idleTick_draws s, ?_⟩
  · rw [hbase]
  · rw [idleTick_el]
  · rw [hbase]
  · rw [hbase]
    exact tget_wdNext s p hi
  · rw [idleTick_el]
  · rw [idleTick_ux]
  · rw [idleTick_cleared hs, idleTick_pending, hs, List.nil_append]

/-- Settles O3: the registers read their reset words, everything else is empty. -/
theorem resetState : Obligations.ResetState := by
  refine ⟨fun p off => ?_, fun p => ?_, fun p core k => ?_, fun p a => ?_, fun p c => ?_, fun p => ?_, fun p => ?_, rfl, ?_⟩
  · cases p <;> rfl
  · cases p <;> rfl
  · cases p <;> rfl
  · cases p <;> rfl
  · have hz : (State.reset.seq p).c = 0 := by cases p <;> rfl
    unfold State.flag bitOf
    rw [hz]
    simp
  · cases p <;> rfl
  · cases p <;> exact ⟨rfl, rfl⟩
  · exact ⟨rfl, rfl, rfl, rfl, rfl⟩

end Sys2Proof.Machine

/-! SUPPORT. Time bases: the read formula at an anchor (R44, R45, R49), and what a time base depends on. -/

namespace Sys2Proof.Machine

/-! ### What a time base is read from -/

section
variable {s t : State} {p : Part}

/-- A time base is read from its part's registers and FRC alone. -/
theorem tbNow_congr (hr : ∀ o, t.reg p o = s.reg p o) (hf : t.frcNow p = s.frcNow p) (n : Nat) : t.tbNow p n = s.tbNow p n := by
  have hg : ∀ f, t.get p f = s.get p f := fun f => by
    unfold State.get
    rw [hr]
  have hraw : ∀ m frc less, t.tbRaw p m frc less = s.tbRaw p m frc less := fun m frc less => by
    unfold State.tbRaw State.tbAnchor State.tbOfs State.tbRate State.getI
    rw [hr, hr, hr, hg, hg]
  unfold State.tbNow State.tbAt State.tbState
  rw [hf, hg, hraw, hraw, hr, hr]

theorem frcNow_of_core (h : t.core = s.core) : t.frcNow p = s.frcNow p := by
  have hf : ∀ u : State, u.core.frcNow p = u.frcNow p := fun u => by cases p <;> rfl
  rw [← hf, h, hf]

theorem tbNow_of_core (h : t.core = s.core) (n : Nat) : t.tbNow p n = s.tbNow p n := tbNow_congr (fun o => reg_of_core h p o) (frcNow_of_core h) n
end

/-! ### The read formula at its anchor -/

theorem roundEven_exact (v : Int) {d : Nat} (hd : 0 < d) : roundEven (v * d) d = v := by
  have hd' : ((d : Nat) : Int) ≠ 0 := by omega
  unfold roundEven
  rw [Int.mul_ediv_cancel v hd', Int.mul_emod_left]
  simp only [mul_zero]
  exact if_pos (by omega)

/-- An HXT value is spelled by its SEC and its NS and FRAC. -/
theorem hxtOf_hxtW {v : Nat} (h : v < hxtMod) : hxtOf (hxtSecW v) (hxtNsfW v) = v := by
  unfold hxtMod hxtSec at h
  have hsec : (hxtSecW v).toNat = v / hxtSec := by
    unfold hxtSecW hxtMod hxtSec
    rw [BitVec.toNat_ofNat, Nat.mod_eq_of_lt h]
    exact Nat.mod_eq_of_lt (by omega)
  have hnsf : (hxtNsfW v).toNat = (v % hxtSec / 2 ^ 32) * 2 ^ 32 + v % 2 ^ 32 := by
    unfold hxtNsfW hxtSec
    rw [BitVec.toNat_ofNat]
    exact Nat.mod_eq_of_lt (by omega)
  unfold hxtOf
  rw [hsec, hnsf, Nat.shiftRight_eq_div_pow]
  unfold hxtSec hxtMod hxtSec
  omega

theorem frcNow_lt (s : State) (p : Part) : s.frcNow p < 2 ^ 80 := (s.base p).frc.isLt

/-- At its anchor a time base reads its offset. -/
theorem tbRaw_at_anchor {s : State} {p : Part} {n f : Nat} (ha : s.tbAnchor p n = f) (_ : f < 2 ^ 80) (ho : s.tbOfs p n < hxtMod) : s.tbRaw p n f 0 = s.tbOfs p n := by
  have hd : (f + 2 ^ 80 - s.tbAnchor p n) % 2 ^ 80 = 0 := by
    rw [ha]
    omega
  have hround : roundEven ((s.tbOfs p n : Int) * (125 * 2 ^ 48) + frcSpan 0 (s.tbRate p n) * 25 - 0) (125 * 2 ^ 48) = (s.tbOfs p n : Int) := by
    rw [frcSpan]
    simp only [Nat.cast_zero, zero_mul, add_zero, sub_zero]
    exact roundEven_exact (s.tbOfs p n : Int) (d := 125 * 2 ^ 48) (by decide)
  unfold State.tbRaw
  dsimp only
  rw [hd, hround]
  have h : (s.tbOfs p n : Int) % (hxtMod : Int) = s.tbOfs p n := Int.emod_eq_of_lt (by omega) (by omega)
  rw [h, Int.toNat_natCast]

theorem tbRaw_lt (s : State) (p : Part) (n f : Nat) (less : Int) : s.tbRaw p n f less < hxtMod := by
  unfold State.tbRaw
  dsimp only
  have h : (0 : Int) < (hxtMod : Int) := by decide
  have hlt := Int.emod_lt_of_pos (roundEven ((s.tbOfs p n : Int) * (125 * 2 ^ 48) + frcSpan ((f + 2 ^ 80 - s.tbAnchor p n) % 2 ^ 80) (s.tbRate p n) * 25 - less) (125 * 2 ^ 48)) h
  have hge := Int.emod_nonneg (roundEven ((s.tbOfs p n : Int) * (125 * 2 ^ 48) + frcSpan ((f + 2 ^ 80 - s.tbAnchor p n) % 2 ^ 80) (s.tbRate p n) * 25 - less) (125 * 2 ^ 48)) (ne_of_gt h)
  omega

theorem tbNow_lt (s : State) (p : Part) {n : Nat} (hn : n ≠ 2) : s.tbNow p n < hxtMod := by
  unfold State.tbNow State.tbAt
  by_cases h0 : s.tbState p n = 0
  · rw [if_pos h0]
    decide
  · rw [if_neg h0, if_neg hn]
    exact tbRaw_lt ..

/-! ### A time base anchored afresh (R45) -/

/-- The four registers of an anchored time base, and the others. -/
theorem reg_tbAnchorAt_other (s : State) (p q : Part) (n v o : Nat) (ho : q = p → o < 0x1110 + 0x80 * n ∨ 0x1130 + 0x80 * n ≤ o) : (s.tbAnchorAt p n v).reg q o = s.reg q o := by
  unfold State.tbAnchorAt
  by_cases hq : q = p
  · subst hq
    have hr := ho rfl
    rw [reg_put, if_neg (by simp only [Reg.TB_ANCHOR_HI_ANCHOR_HI]; omega), reg_setReg_other _ _ _ _ _ (by simp only [Reg.TB_ANCHOR_LO_ANCHOR_LO]; omega),
      reg_setReg_other _ _ _ _ _ (by simp only [Reg.TB_OFS_NSF_NS]; omega), reg_setReg_other _ _ _ _ _ (by simp only [Reg.TB_OFS_SEC_SEC]; omega)]
  · rw [State.put, reg_setReg_part _ _ _ _ hq, reg_setReg_part _ _ _ _ hq, reg_setReg_part _ _ _ _ hq, reg_setReg_part _ _ _ _ hq]

theorem frcNow_tbAnchorAt (s : State) (p q : Part) (n v : Nat) : (s.tbAnchorAt p n v).frcNow q = s.frcNow q := by
  unfold State.tbAnchorAt
  rw [frcNow_put, frcNow_setReg, frcNow_setReg, frcNow_setReg]

theorem tbOfs_tbAnchorAt (s : State) (p : Part) (n : Nat) {v : Nat} (hv : v < hxtMod) : (s.tbAnchorAt p n v).tbOfs p n = v := by
  unfold State.tbOfs State.tbAnchorAt
  rw [reg_put, if_neg (by simp only [Reg.TB_OFS_SEC_SEC, Reg.TB_ANCHOR_HI_ANCHOR_HI]; omega), reg_setReg_other _ _ _ _ _ (by simp only [Reg.TB_OFS_SEC_SEC, Reg.TB_ANCHOR_LO_ANCHOR_LO]; omega),
    reg_setReg_other _ _ _ _ _ (by simp only [Reg.TB_OFS_SEC_SEC, Reg.TB_OFS_NSF_NS]; omega), reg_setReg_same,
    reg_put, if_neg (by simp only [Reg.TB_OFS_NSF_NS, Reg.TB_ANCHOR_HI_ANCHOR_HI]; omega), reg_setReg_other _ _ _ _ _ (by simp only [Reg.TB_OFS_NSF_NS, Reg.TB_ANCHOR_LO_ANCHOR_LO]; omega), reg_setReg_same]
  exact hxtOf_hxtW hv

theorem tbAnchor_tbAnchorAt (s : State) (p : Part) (n v : Nat) : (s.tbAnchorAt p n v).tbAnchor p n = s.frcNow p := by
  have hf := frcNow_lt s p
  unfold State.tbAnchor State.tbAnchorAt
  rw [get_put_same _ _ _ _ (by simp [Reg.TB_ANCHOR_HI_ANCHOR_HI]) (by simp [Reg.TB_ANCHOR_HI_ANCHOR_HI]), reg_put, if_neg (by simp only [Reg.TB_ANCHOR_LO_ANCHOR_LO, Reg.TB_ANCHOR_HI_ANCHOR_HI]; omega), reg_setReg_same,
    BitVec.toNat_ofNat]
  simp only [Reg.TB_ANCHOR_HI_ANCHOR_HI]
  omega

/-- A state that reads its anchor and offset as a fresh anchor left them reads the anchored value now. -/
theorem tbNow_of_anchored {s t : State} {p : Part} {n v : Nat} (hn : n ≠ 2) (hv : v < hxtMod) (hf : t.frcNow p = s.frcNow p)
    (hr : ∀ o, 0x1110 + 0x80 * n ≤ o → o < 0x1130 + 0x80 * n → t.reg p o = (s.tbAnchorAt p n v).reg p o) (hs : t.tbState p n ≠ 0) : t.tbNow p n = v := by
  have ho : t.tbOfs p n = v := by
    rw [← tbOfs_tbAnchorAt s p n hv]
    unfold State.tbOfs
    rw [hr _ (by simp only [Reg.TB_OFS_SEC_SEC]; omega) (by simp only [Reg.TB_OFS_SEC_SEC]; omega), hr _ (by simp only [Reg.TB_OFS_NSF_NS]; omega) (by simp only [Reg.TB_OFS_NSF_NS]; omega)]
  have ha : t.tbAnchor p n = t.frcNow p := by
    rw [hf, ← tbAnchor_tbAnchorAt s p n v]
    unfold State.tbAnchor State.get
    rw [hr _ (by simp only [Reg.TB_ANCHOR_LO_ANCHOR_LO]; omega) (by simp only [Reg.TB_ANCHOR_LO_ANCHOR_LO]; omega), hr _ (by simp only [Reg.TB_ANCHOR_HI_ANCHOR_HI]; omega) (by simp only [Reg.TB_ANCHOR_HI_ANCHOR_HI]; omega)]
  unfold State.tbNow State.tbAt
  rw [if_neg hs, if_neg hn, tbRaw_at_anchor ha (frcNow_lt t p) (by rw [ho]; exact hv), ho]

/-- A new RATE leaves the time base's value (R45). -/
theorem tbNow_tbSetRate (s : State) (p : Part) {n : Nat} (hn : n ≠ 2) (r : Int) : (s.tbSetRate p n r).tbNow p n = s.tbNow p n := by
  have hreg : ∀ o, o ≠ 0x1130 + 0x80 * n → (s.tbSetRate p n r).reg p o = (s.tbAnchorAt p n (s.tbNow p n)).reg p o := fun o ho => reg_setReg_other _ p _ o _ ho
  have hf : (s.tbSetRate p n r).frcNow p = s.frcNow p := by
    unfold State.tbSetRate
    rw [frcNow_setReg, frcNow_tbAnchorAt]
  have hstate : (s.tbSetRate p n r).tbState p n = s.tbState p n := by
    unfold State.tbState State.get
    rw [if_neg hn, hreg _ (by simp only [Reg.TB_STAT_STATE]; omega), reg_tbAnchorAt_other s p p n _ _ (fun _ => .inl (by simp only [Reg.TB_STAT_STATE]; omega))]
  by_cases h0 : s.tbState p n = 0
  · unfold State.tbNow State.tbAt
    rw [hstate, if_pos h0, if_pos h0]
  · exact tbNow_of_anchored hn (tbNow_lt s p hn) hf (fun o h1 h2 => hreg o (by omega)) (by rw [hstate]; exact h0)

/-- A flag of TB_STAT beside STATE leaves the time base's value. -/
theorem tbNow_putStat (s : State) (p : Part) {n : Nat} (hn : n ≠ 2) (f : Fld) (v : Nat) (hf : f.off = 0x1108 + 0x80 * n) (hlo : 2 < f.lo) (hhi : f.lo ≤ f.hi ∧ f.hi < 64) :
    (s.put p f v).tbNow p n = s.tbNow p n := by
  have hreg : ∀ o, o ≠ 0x1108 + 0x80 * n → (s.put p f v).reg p o = s.reg p o := fun o ho => by rw [reg_put, if_neg (by rw [hf]; exact ho)]
  have hstate : (s.put p f v).tbState p n = s.tbState p n := by
    unfold State.tbState
    rw [if_neg hn]
    exact get_put_other s p f (Reg.TB_STAT_STATE n) v (by omega) hhi.1 (show 2 < 64 by decide) (.inr (.inl hlo))
  have hraw : ∀ frc, (s.put p f v).tbRaw p n frc 0 = s.tbRaw p n frc 0 := fun frc => by
    unfold State.tbRaw State.tbAnchor State.tbOfs State.tbRate State.getI State.get
    simp only [Reg.TB_ANCHOR_LO_ANCHOR_LO, Reg.TB_ANCHOR_HI_ANCHOR_HI, Reg.TB_OFS_SEC_SEC, Reg.TB_OFS_NSF_NS, Reg.TB_RATE_RATE]
    rw [hreg _ (by omega), hreg _ (by omega), hreg _ (by omega), hreg _ (by omega), hreg _ (by omega)]
  unfold State.tbNow State.tbAt
  rw [hstate, frcNow_put, hraw, if_neg hn, if_neg hn]

theorem events_tbSetRate (s : State) (p q : Part) (n : Nat) (r : Int) : ((s.tbSetRate p n r).base q).events = (s.base q).events := by
  unfold State.tbSetRate State.tbAnchorAt
  rw [events_setReg, events_put, events_setReg, events_setReg, events_setReg]

/-! ### RATE of TB3 -/

section
variable (p : Part) (v : Word) (s : State)

/-- The RATE nearest to the one asked for within SLEW_LIMIT (R46). -/
def State.rateNear (s : State) (p : Part) (v : Word) : Int := max (s.tbRate p 3 - s.slewLimit p) (min (s.tbRate p 3 + s.slewLimit p) (signed 40 v.toNat))

/-- What a write of TB3's RATE leaves, case by case (R46, R52). -/
def State.rateWritten (s : State) (p : Part) (v : Word) : State :=
  if rateMax < signed 40 v.toNat ∨ signed 40 v.toNat < -rateMax then s.logI p (unitTime p) 0x1007 3 (signed 40 v.toNat)
  else if s.rateNear p v = signed 40 v.toNat then s.tbSetRate p 3 (s.rateNear p v)
  else ((s.tbSetRate p 3 (s.rateNear p v)).put p (Reg.TB_STAT_SLEW_CLAMP 3) 1).logI p (unitTime p) 0x1006 3 (signed 40 v.toNat)

theorem exec_tb3RateWrite (h : s.tbHas p 3 = true) : exec (.tb3RateWrite p v) s = .next (s.rateWritten p v) := by
  show execTb3RateWrite p v s = _
  unfold execTb3RateWrite State.rateWritten State.rateNear
  rw [if_neg (by simp [h])]
  dsimp only
  by_cases hw : rateMax < signed 40 v.toNat ∨ signed 40 v.toNat < -rateMax
  · rw [if_pos hw, if_pos (by simpa using hw)]
  · rw [if_neg hw, if_neg (by simpa using hw)]

/-- A written RATE never moves TB3's value at that instant. -/
theorem tbNow_rateWritten : (s.rateWritten p v).tbNow p 3 = s.tbNow p 3 := by
  unfold State.rateWritten
  split
  · exact tbNow_of_core (core_logI ..) 3
  split
  · exact tbNow_tbSetRate s p (by decide) _
  · rw [tbNow_of_core (core_logI ..) 3, tbNow_putStat _ _ (by decide) _ _ rfl (by decide) (by decide), tbNow_tbSetRate s p (by decide)]
end

/-- Settles O10: out of range, within the limit, or clamped; the value now is the same in each case. -/
theorem timeBaseRate : Obligations.TimeBaseRate := by
  intro p v s h want near t
  have hx := exec_tb3RateWrite p v s h
  have hnow := tbNow_rateWritten p v s
  unfold State.rateWritten at hx
  refine ⟨fun hw => ?_, fun ⟨hlo, hhi⟩ hn => ?_, fun ⟨hlo, hhi⟩ hn => ?_, _, exec_tb3RateWrite p v s h, hnow⟩
  · rw [if_pos hw] at hx
    exact ⟨_, hx, core_logI .., logged_log _ _ _ _ rfl⟩
  · rw [if_neg (by omega), if_pos (show s.rateNear p v = signed 40 v.toNat from hn)] at hx
    exact ⟨_, hx, rfl, logged_nil (events_tbSetRate ..)⟩
  · rw [if_neg (by omega), if_neg (show ¬ s.rateNear p v = signed 40 v.toNat from hn)] at hx
    refine ⟨_, hx, core_logI .., logged_log _ _ _ _ ?_⟩
    rw [events_put, events_tbSetRate]

end Sys2Proof.Machine

/-! SUPPORT. The loss of REFCLK (R402): it takes a joining die's last lane, and the leaf then holds the die as ABSENT (R326). -/

namespace Sys2Proof.Machine

set_option Elab.async false

/-- A JOINING die with one lane up, at a leaf that holds it as JOINING. -/
def joiningDie : State :=
  ((State.reset.put .el (Reg.LANE_STAT_STATE (laneBlk .el 0)) 4).put .el Reg.HC_STAT_STATE 1).modUx (fun u => { u with members := [(0, 1)] })

/-- The joining die on its ring oscillator, before its lane fails. -/
def joiningDieOnRing : State := (joiningDie.modEl (fun e => { e with refclkLost := true })).put .el Reg.CLK_STAT_RO 1

/-- The time bases of an Elesh enter HOLDOVER and the loss is logged (R402). -/
def State.refclkLossEnd (s : State) : State :=
  (([0, 1, 3] : List Nat).foldl (fun t n => if t.tbHas .el n && t.tbState .el n != 0 && t.tbState .el n != 4 then t.tbHoldover .el n else t) s).log .el 0x0E 0x8004 0 0

theorem bothFail_joiningDieOnRing : joiningDieOnRing.bothFail = joiningDieOnRing.laneFailOpen .el 0 := by
  have h0 : joiningDieOnRing.laneUp .el 0 = true := by decide +kernel
  have h1 : joiningDieOnRing.laneUp .el 1 = false := by decide +kernel
  unfold State.bothFail
  simp only [h0, h1, if_true, if_false, Bool.false_eq_true]

/-- Whichever cause is reported (log 10), the leaf forgets the die. -/
theorem laneFail_joiningDie : ∀ k < 9, (joiningDieOnRing.draw.2.laneFail .el 0 (1 + k)).refclkLossEnd.ux.members = [] := by
  decide +kernel

/-- The loss of REFCLK makes the leaf forget the joining die. -/
theorem refclkLoss_joiningDie : ∃ t, exec .refclkLoss joiningDie = .next t ∧ t.ux.members = [] := by
  refine ⟨joiningDieOnRing.bothFail.refclkLossEnd, rfl, ?_⟩
  rw [bothFail_joiningDieOnRing, State.laneFailOpen]
  exact laneFail_joiningDie _ (Nat.mod_lt _ (by decide))

/-- Refutes O11: both lanes of a JOINING die fail with REFCLK, so the die is ABSENT here and at its leaf (R326): the Uhloux chip's member state changes. -/
theorem not_referenceClockLoss : ¬ Obligations.ReferenceClockLoss := by
  unfold Obligations.ReferenceClockLoss
  intro h
  obtain ⟨u, hu, -, -, -, -, -, hux⟩ := h joiningDie
  obtain ⟨t, ht, hm⟩ := refclkLoss_joiningDie
  have hut : u = t := by rw [hu] at ht; exact Host.Outcome.next.inj ht
  rw [← hut, hux] at hm
  exact absurd hm (by decide)

end Sys2Proof.Machine

/-! SUPPORT. Capture inputs (R60, R61) and the reads with a side effect (R63, R435). -/

namespace Sys2Proof.Machine

/-- Two changes of one part are one. -/
theorem mod_after_mod (s : State) (p : Part) (f g : Base → Base) : (s.mod p f).mod p g = s.mod p (fun b => g (f b)) := by
  cases p <;> rfl

/-! ### Capture inputs -/

section
variable (p : Part) (c : Fin 4) (rising : Bool) (sub : BitVec 16) (s : State)

/-- A capture input with another record of what it holds. -/
def State.withCap (s : State) (p : Part) (c : Nat) (k : Cap) : State := s.mod p (fun b => { b with caps := tput Cap.zero b.caps c k })

/-- What an enabled input does with a selected edge (R60, R61). -/
def State.edgeSeen (s : State) (p : Part) (c : Nat) (rising : Bool) (frc : Nat) : State :=
  let k := tget Cap.zero (s.base p).caps c
  if k.lastTick = some (s.tick p) then ((s.withCap p c { k with lastTick := some (s.tick p) }).put p (Reg.CAP_STAT_MISS c) 1).log p (unitTime p) 0x1021 (capObj c) 0
  else if 16 ≤ k.fifo.length then ((s.withCap p c { k with lastTick := some (s.tick p), lastFrc := none }).put p (Reg.CAP_STAT_OVF c) 1).log p (unitTime p) 0x1020 (capObj c) 0
  else s.withCap p c { lastTick := some (s.tick p), lastFrc := some frc, fifo := k.fifo ++ [(s.capStamp p c frc, rising)] }

theorem withCap_withCap (d : Nat) (k l : Cap) : (s.withCap p d k).withCap p d l = s.withCap p d l := by
  have h : ∀ b : Base, tput Cap.zero (tput Cap.zero b.caps d k) d l = tput Cap.zero b.caps d l := fun b => tput_tput ..
  unfold State.withCap
  rw [mod_after_mod]
  simp only [h]

theorem capStamp_withCap (d : Nat) (k : Cap) (f : Nat) : (s.withCap p d k).capStamp p c f = s.capStamp p c f := by
  cases p <;> rfl

theorem events_withCap (q : Part) (d : Nat) (k : Cap) : ((s.withCap p d k).base q).events = (s.base q).events := by
  cases p <;> cases q <;> rfl

theorem exec_capEdge (h : s.bit p (Reg.CAP_CTRL_EN c) = true ∧ capSelects (s.get p (Reg.CAP_CTRL_EDGE c)) rising = true) :
    exec (.capEdge p c rising sub) s = .next (s.edgeSeen p c rising (s.tick p * 2 ^ 16 + sub.toNat)) := by
  show execCapEdge p c rising sub s = _
  unfold execCapEdge State.edgeSeen
  rw [if_neg (by simp [h.1, h.2])]
  dsimp only
  by_cases ht : (tget Cap.zero (s.base p).caps c).lastTick = some (s.tick p)
  · rw [if_pos ht, if_pos ht, if_pos ht]
    rfl
  rw [if_neg ht, if_neg ht, if_neg ht]
  by_cases hf : 16 ≤ (tget Cap.zero (s.base p).caps c).fifo.length
  · rw [if_pos hf, if_pos hf]
    rfl
  rw [if_neg hf, if_neg hf]
  exact congrArg Host.Outcome.next ((withCap_withCap p s c _ _).trans (by rw [← capStamp_withCap p c s c]; rfl))

theorem capStamp_eq (f : Nat) : s.capStamp p c f =
    (let tb := s.get p (Reg.CAP_CTRL_TB c)
    let dly := s.getI p (Reg.CAP_CTRL_DLY c) * 2 ^ 77
    if s.tbHas p tb = false ∨ s.tbState p tb = 0 then (roundEven (-dly) (125 * 2 ^ 48) % (hxtMod : Int)).toNat
      else if tb = 2 then hxtSub (s.tbRaw p 0 f dly) (hxtOf (s.reg p Reg.TB2_EPOCH_SEC_SEC.off) (s.reg p Reg.TB2_EPOCH_NSF_NS.off))
      else s.tbRaw p tb f dly) := by
  unfold State.capStamp
  simp only [Bool.or_eq_true, Bool.not_eq_true', beq_iff_eq]
end

/-- Settles O13: a stamp, a MISS, an OVF or nothing, by the two questions of R60 and R61. -/
theorem captureInputs : Obligations.CaptureInputs := by
  intro p c rising sub s k tb on seen frc dly stamp
  have hx := exec_capEdge p c rising sub s
  unfold State.edgeSeen at hx
  refine ⟨fun h ht hf => ⟨_, hx h, ?_⟩, fun h ht => ⟨_, hx h, ?_⟩, fun h ht hf => ⟨_, hx h, ?_⟩, fun h => ?_⟩
  · dsimp only
    rw [if_neg ht, if_neg (show ¬ 16 ≤ (tget Cap.zero (s.base p).caps c).fifo.length from not_le.mpr hf), capStamp_eq]
    rfl
  · dsimp only
    rw [if_pos ht]
    exact ⟨core_log .., logged_log _ _ _ _ (by rw [events_put, events_withCap])⟩
  · dsimp only
    rw [if_neg ht, if_pos hf]
    exact ⟨core_log .., logged_log _ _ _ _ (by rw [events_put, events_withCap])⟩
  · show execCapEdge p c rising sub s = _
    unfold execCapEdge
    rw [if_pos (by simpa [on, imp_iff_not_or] using h)]

/-! ### Reads with a side effect -/

theorem frcSample_tick (s : State) (p : Part) : s.frcSample p / 2 ^ 16 = s.tick p := by
  have h := (Config.frcFraction (match p with | .el => 0 | .ux => 1) (s.tick p)).isLt
  unfold State.frcSample
  omega

/-- Settles O14: each read by its definition. -/
theorem sideEffectReads : Obligations.SideEffectReads := by
  intro p n s k
  refine ⟨fun h => ?_, fun t r rest h => ?_, frcSample_tick s p, rfl, fun h => ?_, fun h => ?_, rfl⟩
  · show execCapPop p n s = _
    unfold execCapPop State.capPop
    dsimp only
    rw [show (tget Cap.zero (s.base p).caps n).fifo = [] from h]
  · show execCapPop p n s = _
    unfold execCapPop State.capPop
    dsimp only
    rw [show (tget Cap.zero (s.base p).caps n).fifo = (t, r) :: rest from h]
  · show execTbRead p n s = _
    unfold execTbRead State.tbReadSec
    rw [if_pos h]
    rfl
  · show execTbRead p n s = _
    unfold execTbRead State.tbReadSec
    rw [if_neg (by simp [h])]

end Sys2Proof.Machine

/-! SUPPORT. Footprints: the fields a chain of operations on one part may write, and what it therefore leaves. -/

namespace Sys2Proof.Machine

set_option Elab.async false

/-- Two fields share no bit. -/
def Fld.apart (f g : Fld) : Bool := f.off != g.off || decide (f.hi < g.lo) || decide (g.hi < f.lo)

/-- A field that shares no bit with any of a list. -/
def Fld.clear (W : List Fld) (g : Fld) : Bool := W.all (fun f => f.apart g)

/-- A whole register. -/
def wholeReg (o : Nat) : Fld := ⟨o, 63, 0⟩

/-- A footprint: of part `p` only fields that meet `W` may read otherwise, its FRC, its lanes and its guard stand, and the other part is left alone. -/
structure Writes (p : Part) (W : List Fld) (s t : State) : Prop where
  el  : p = .ux → t.el = s.el
  ux  : p = .el → t.ux = s.ux
  get : ∀ g : Fld, g.lo ≤ g.hi ∧ g.hi < 64 → Fld.clear W g = true → t.get p g = s.get p g
  frc : t.frcNow p = s.frcNow p
  lanes : (t.base p).lanes = (s.base p).lanes
  held : (t.base p).guard = (s.base p).guard

theorem Fld.apart_iff (f g : Fld) : f.apart g = true ↔ g.off ≠ f.off ∨ g.hi < f.lo ∨ f.hi < g.lo := by
  unfold Fld.apart
  simp only [Bool.or_eq_true, bne_iff_ne, decide_eq_true_eq, ne_eq]
  constructor <;> intro h <;> omega

theorem Fld.apart_of_clear {W : List Fld} {f g : Fld} (h : Fld.clear W g = true) (hf : f ∈ W) : g.off ≠ f.off ∨ g.hi < f.lo ∨ f.hi < g.lo :=
  (Fld.apart_iff f g).mp (List.all_eq_true.mp h f hf)

namespace Writes

variable {p : Part} {W : List Fld} {s t u : State}

theorem refl (p : Part) (W : List Fld) (s : State) : Writes p W s s := ⟨fun _ => rfl, fun _ => rfl, fun _ _ _ => rfl, rfl, rfl, rfl⟩

theorem trans (h : Writes p W s t) (k : Writes p W t u) : Writes p W s u :=
  ⟨fun e => (k.el e).trans (h.el e), fun e => (k.ux e).trans (h.ux e), fun g h1 h2 => (k.get g h1 h2).trans (h.get g h1 h2), k.frc.trans h.frc, k.lanes.trans h.lanes, k.held.trans h.held⟩

theorem mono {V : List Fld} (h : Writes p V s t) (hV : V ⊆ W) : Writes p W s t :=
  ⟨h.el, h.ux, fun g h1 h2 => h.get g h1 (List.all_eq_true.mpr fun f hf => List.all_eq_true.mp h2 f (hV hf)), h.frc, h.lanes, h.held⟩

theorem bit (h : Writes p W s t) (g : Fld) (hg : g.lo ≤ g.hi ∧ g.hi < 64 := by decide) (hc : Fld.clear W g = true := by decide) : t.bit p g = s.bit p g := by
  unfold State.bit
  rw [h.get g hg hc]

theorem getI (h : Writes p W s t) (g : Fld) (hg : g.lo ≤ g.hi ∧ g.hi < 64 := by decide) (hc : Fld.clear W g = true := by decide) : t.getI p g = s.getI p g := by
  unfold State.getI
  rw [h.get g hg hc]

/-- A register none of whose bits was written. -/
theorem reg (h : Writes p W s t) (o : Nat) (hc : Fld.clear W (wholeReg o) = true := by decide) : t.reg p o = s.reg p o := by
  have hf := h.get (wholeReg o) ⟨Nat.zero_le _, show 63 < 64 by decide⟩ hc
  simp only [State.get, wholeReg, fget] at hf
  have h1 := (t.reg p o).isLt
  have h2 := (s.reg p o).isLt
  apply BitVec.eq_of_toNat_eq
  simpa [Nat.mod_eq_of_lt h1, Nat.mod_eq_of_lt h2] using hf

/-- A change that only replaces what is neither a register nor the FRC. -/
theorem mod (h : Writes p W s t) (f : Base → Base) (hr : (f (t.base p)).regs = (t.base p).regs := by rfl) (hf : (f (t.base p)).frc = (t.base p).frc := by rfl)
    (hl : (f (t.base p)).lanes = (t.base p).lanes := by rfl) (hg : (f (t.base p)).guard = (t.base p).guard := by rfl) :
    Writes p W s (t.mod p f) := by
  refine h.trans ⟨fun e => ?_, fun e => ?_, fun g _ _ => ?_, frcNow_mod t p p f hf, by cases p <;> exact hl, by cases p <;> exact hg⟩
  · subst e; rfl
  · subst e; rfl
  · unfold State.get
    rw [reg_mod t p p f g.off hr]

theorem modUx {s t : State} (h : Writes .ux W s t) (f : Uhloux → Uhloux) (hb : (f t.ux).base = t.ux.base := by rfl) : Writes .ux W s (t.modUx f) := by
  refine h.trans ⟨fun _ => rfl, fun e => absurd e (by decide), fun g _ _ => ?_, ?_, congrArg Base.lanes hb, congrArg Base.guard hb⟩
  · unfold State.get
    rw [reg_modUx t f .ux g.off (by rw [hb])]
  · show (f t.ux).base.frc.toNat = t.ux.base.frc.toNat
    rw [hb]

theorem setReg (h : Writes p W s t) (o : Nat) (w : Word) (hW : wholeReg o ∈ W := by decide) : Writes p W s (t.setReg p o w) := by
  refine h.trans ⟨fun e => ?_, fun e => ?_, fun g hg hc => ?_, frcNow_setReg t p p o w, by cases p <;> rfl, by cases p <;> rfl⟩
  · subst e; rfl
  · subst e; rfl
  · have ho : g.off ≠ o := by
      have := Fld.apart_of_clear hc hW
      simp only [wholeReg] at this
      omega
    unfold State.get
    rw [reg_setReg_other t p o g.off w ho]

theorem put (h : Writes p W s t) (f : Fld) (v : Nat) (hW : f ∈ W := by decide) (hh : f.lo ≤ f.hi ∧ f.hi < 64 := by decide) : Writes p W s (t.put p f v) := by
  refine h.trans ⟨fun e => ?_, fun e => ?_, fun g hg hc => get_put_other t p f g v hh.2 hh.1 hg.2 (Fld.apart_of_clear hc hW), frcNow_put t p p f v, by cases p <;> rfl, by cases p <;> rfl⟩
  · subst e; rfl
  · subst e; rfl

theorem draw (h : Writes p W s t) : Writes p W s t.draw.2 := by
  refine h.trans ⟨fun _ => rfl, fun _ => rfl, fun g _ _ => ?_, ?_, by cases p <;> rfl, by cases p <;> rfl⟩
  · unfold State.get
    rw [reg_draw]
  · cases p <;> rfl

theorem logW {s t : State} (h : Writes .ux W s t) (a b c d e : Nat) : Writes .ux W s (t.logW .ux a b c d e) :=
  h.mod (fun x => { x with events := x.events ++ [t.record .ux a b c d e] })

theorem log {s t : State} (h : Writes .ux W s t) (a b c d : Nat) : Writes .ux W s (t.log .ux a b c d) := h.logW ..

theorem logI {s t : State} (h : Writes .ux W s t) (a b c : Nat) (d : Int) : Writes .ux W s (t.logI .ux a b c d) := h.logW ..

theorem ite {a b : State} {c : Prop} [Decidable c] (ha : Writes p W s a) (hb : Writes p W s b) : Writes p W s (if c then a else b) := by
  split
  · exact ha
  · exact hb

end Writes

/-! ### The fields of a time base -/

/-- Taking the stamps of this tick again changes the captures and nothing else (R54). -/
theorem restamp_caps (s : State) (p : Part) (n : Nat) : ∃ caps, s.restamp p n = s.mod p (fun b => { b with caps := caps }) := by
  unfold State.restamp
  refine List.foldlRecOn (motive := fun u => ∃ caps, u = s.mod p (fun b => { b with caps := caps })) _ _ ⟨(s.base p).caps, by cases p <;> rfl⟩ ?_
  rintro u ⟨caps, rfl⟩ c -
  dsimp only
  split
  · split
    · exact ⟨_, mod_after_mod ..⟩
    · exact ⟨caps, rfl⟩
  · exact ⟨caps, rfl⟩

/-- What an anchor afresh writes. -/
def anchorFlds (n : Nat) : List Fld := [wholeReg (Reg.TB_OFS_SEC_SEC n).off, wholeReg (Reg.TB_OFS_NSF_NS n).off, wholeReg (Reg.TB_ANCHOR_LO_ANCHOR_LO n).off, Reg.TB_ANCHOR_HI_ANCHOR_HI n]

/-- What a new RATE writes. -/
def rateFlds (n : Nat) : List Fld := wholeReg (Reg.TB_RATE_RATE n).off :: anchorFlds n

/-- What a lock writes. -/
def lockFlds (n : Nat) : List Fld := [Reg.TB_STAT_STATE n, Reg.TB_STAT_FIRST_LOCK n]

namespace Writes

variable {W : List Fld} {s t : State}

theorem tbAnchorAt {p : Part} (h : Writes p W s t) (n v : Nat) (hW : anchorFlds n ⊆ W := by decide) : Writes p W s (t.tbAnchorAt p n v) := by
  unfold State.tbAnchorAt
  simp only [anchorFlds, List.cons_subset] at hW
  obtain ⟨h1, h2, h3, h4, -⟩ := hW
  exact (((h.setReg _ _ h1).setReg _ _ h2).setReg _ _ h3).put _ _ h4 (by simp [Reg.TB_ANCHOR_HI_ANCHOR_HI])

theorem tbSetRate {p : Part} (h : Writes p W s t) (n : Nat) (r : Int) (hW : rateFlds n ⊆ W := by decide) : Writes p W s (t.tbSetRate p n r) := by
  simp only [rateFlds, List.cons_subset] at hW
  exact (h.tbAnchorAt n _ hW.2).setReg _ _ hW.1

theorem tbLock (h : Writes .ux W s t) (n : Nat) (hW : lockFlds n ⊆ W := by decide) : Writes .ux W s (t.tbLock .ux n) := by
  simp only [lockFlds, List.cons_subset] at hW
  exact ((h.put _ _ hW.1 (by simp [Reg.TB_STAT_STATE])).put _ _ hW.2.1 (by simp [Reg.TB_STAT_FIRST_LOCK])).logI ..

theorem restamp {p : Part} (h : Writes p W s t) (n : Nat) : Writes p W s (t.restamp p n) := by
  obtain ⟨caps, hc⟩ := restamp_caps t p n
  rw [hc]
  exact h.mod _

theorem logOpen (h : Writes .ux W s t) (a b c : Nat) : Writes .ux W s (t.logOpen .ux a b c) := h.draw.log ..

theorem putI {p : Part} (h : Writes p W s t) (f : Fld) (v : Int) (hW : f ∈ W := by decide) (hh : f.lo ≤ f.hi ∧ f.hi < 64 := by decide) : Writes p W s (t.putI p f v) := h.put f _ hW hh

theorem tbStep (h : Writes .ux W s t) (n v : Nat) (hW : Reg.TB_STAT_STATE n :: anchorFlds n ⊆ W := by decide) : Writes .ux W s (t.tbStep .ux n v) := by
  simp only [List.cons_subset] at hW
  exact ((((h.tbAnchorAt n v hW.2).put _ _ hW.1 (by simp [Reg.TB_STAT_STATE])).mod _).restamp n).logI ..

end Writes

/-! ### The root's time plane and the DPLL -/

/-- What the root's TB0 may have written by a step, a slew or a lock. -/
def rootFlds : List Fld := [Reg.TIME_STAT_EPOCH_TAI, Reg.TB_STAT_STATE 0, Reg.TB_STAT_FIRST_LOCK 0, Reg.TB_STAT_PHASE_ERR 0] ++ rateFlds 0

/-- What TRACEABLE and TAI_VALID bring with them. -/
def traceFlds : List Fld := rootFlds ++ [wholeReg Reg.UX_REF_TAIOFS_SEC_SEC.off, wholeReg Reg.UX_REF_TAIOFS_NSF_NS.off, Reg.UX_REF_STAT_TRACEABLE, Reg.UX_REF_STAT_TAI_VALID]

/-- What an ALARM of the DCO's limit writes. -/
def dcoFlds : List Fld := [wholeReg Reg.UX_DCO_STAT_VALUE.off, Reg.UX_REF_STAT_DCO_LIMIT, Reg.UX_REPLACE_CAUSE]

/-- What a change of the DPLL's state or selection may write. -/
def seekFlds : List Fld := traceFlds ++ dcoFlds ++ [Reg.UX_REF_STAT_SEL, Reg.UX_REF_STAT_STATE, Reg.UX_CLK_STAT_ACLK_SRC]

namespace Writes

variable {W : List Fld} {s t : State}

theorem replaceSet (h : Writes .ux W s t) (k : Nat) (hW : Reg.UX_REPLACE_CAUSE ∈ W := by decide) : Writes .ux W s (t.replaceSet k) := by
  unfold State.replaceSet
  exact .ite h ((h.put _ _ hW).log ..)

theorem dpllAlarm (h : Writes .ux W s t) (f : Fld) (hf : f ∈ W ∧ Reg.UX_REPLACE_CAUSE ∈ W := by decide) (hh : f.lo ≤ f.hi ∧ f.hi < 64 := by decide) : Writes .ux W s (t.dpllAlarm f) :=
  ((h.put f 1 hf.1 hh).log ..).replaceSet _ hf.2

theorem dcoSet (h : Writes .ux W s t) (v : Int) (hW : dcoFlds ⊆ W := by decide) : Writes .ux W s (t.dcoSet v) := by
  simp only [dcoFlds, List.cons_subset] at hW
  unfold State.dcoSet
  have h1 := h.setReg Reg.UX_DCO_STAT_VALUE.off (BitVec.ofInt 64 (clampI (-dcoLimit) dcoLimit v)) hW.1
  exact .ite h1 (h1.dpllAlarm _ ⟨hW.2.1, hW.2.2.1⟩)

theorem dcoLoop (h : Writes .ux W s t) (hW : dcoFlds ⊆ W := by decide) : Writes .ux W s t.dcoLoop := h.draw.dcoSet _ hW

theorem rootSlew (h : Writes .ux W s t) (pe : Int) (hW : rootFlds ⊆ W := by decide) : Writes .ux W s (t.rootSlew pe) := by
  have hm : ∀ f ∈ rootFlds, f ∈ W := fun f hf => hW hf
  have hr : rateFlds 0 ⊆ W := fun f hf => hW (List.mem_append_right _ hf)
  have h1 := (h.putI (Reg.TB_STAT_PHASE_ERR 0) pe (hm _ (by decide))).modUx (fun u => { u with slewFrom := (t.putI .ux (Reg.TB_STAT_PHASE_ERR 0) pe).tick .ux })
  unfold State.rootSlew
  exact .ite h1 ((h1.tbSetRate 0 _ hr).put _ _ (hm _ (by decide)))

theorem rootSettle (h : Writes .ux W s t) (hW : rootFlds ⊆ W := by decide) : Writes .ux W s t.rootSettle := by
  have hm : ∀ f ∈ rootFlds, f ∈ W := fun f hf => hW hf
  have hr : rateFlds 0 ⊆ W := fun f hf => hW (List.mem_append_right _ hf)
  exact ((h.putI _ _ (hm _ (by decide))).tbSetRate 0 0 hr).tbLock 0 (fun f hf => hW (by revert f; decide))

theorem rootStep (h : Writes .ux W s t) (v : Nat) (b : Bool) (hW : rootFlds ⊆ W := by decide) : Writes .ux W s (t.rootStep v b) := by
  have hm : ∀ f ∈ rootFlds, f ∈ W := fun f hf => hW hf
  exact ((h.tbStep 0 v (fun f hf => hW (by revert f; decide))).put _ _ (hm _ (by decide))).tbLock 0 (fun f hf => hW (by revert f; decide))

theorem rootIdle (h : Writes .ux W s t) (hW : rootFlds ⊆ W := by decide) : Writes .ux W s t.rootIdle := by
  unfold State.rootIdle
  exact .ite (h.rootSettle hW) h

theorem rootFollow (h : Writes .ux W s t) (k : Nat) (pe : Int) (hW : rootFlds ⊆ W := by decide) : Writes .ux W s (t.rootFollow k pe) := by
  unfold State.rootFollow
  exact .ite (h.rootSlew pe hW) h

theorem taiWrite (h : Writes .ux W s t) (c : Nat) (hW : wholeReg Reg.UX_REF_TAIOFS_SEC_SEC.off ∈ W ∧ wholeReg Reg.UX_REF_TAIOFS_NSF_NS.off ∈ W := by decide) : Writes .ux W s (t.taiWrite c) :=
  ((h.setReg _ _ hW.1).setReg _ _ hW.2).modUx (fun u => { u with dpll := { u.dpll with measured := _ } })

theorem taiMeasure (h : Writes .ux W s t) (c : Option Nat) (hW : wholeReg Reg.UX_REF_TAIOFS_SEC_SEC.off ∈ W ∧ wholeReg Reg.UX_REF_TAIOFS_NSF_NS.off ∈ W := by decide) : Writes .ux W s (t.taiMeasure c) := by
  unfold State.taiMeasure
  split
  · exact h.taiWrite _ hW
  · exact .ite h (h.draw.draw.taiWrite _ hW)

end Writes

/-! ### TRACEABLE and TAI_VALID in stages (R41, R78, R81) -/

/-- The selected candidate is followed and traceable. -/
def State.selTrace (s : State) : Bool := s.dpllState != 0 && s.candTraceable (s.get .ux Reg.UX_REF_STAT_SEL)

/-- A root that is LOCKED on a traceable candidate before its TB0 was ever set steps to its time. -/
def State.firstStep (s : State) (tr : Bool) (cand : Option Nat) : State :=
  if s.tier == 2 && s.dpllState == 2 && tr && s.tbState .ux 0 == 0 then
    (match cand with
      | some c => s.rootStep c true
      | none => s.freeHxt.2.rootStep s.freeHxt.1 true)
  else s

/-- TAIOFS is measured while TAI_VALID holds, and forgotten else. -/
def State.taiTake (s : State) (tv : Bool) (cand : Option Nat) : State :=
  if tv then s.taiMeasure cand else s.modUx (fun u => { u with dpll := { u.dpll with measured := none } })

/-- TAI_VALID shows, with 0x1039 when it changes. -/
def State.taiShow (s : State) (tv : Bool) : State :=
  if tv = s.bit .ux Reg.UX_REF_STAT_TAI_VALID then s
  else (s.put .ux Reg.UX_REF_STAT_TAI_VALID (if tv then 1 else 0)).log .ux 0x45 0x1039 0 (if tv then 1 else 0)

/-- TRACEABLE shows, and the root's first step follows. -/
def State.traceShown (s : State) (cand : Option Nat) : State := (s.put .ux Reg.UX_REF_STAT_TRACEABLE (if s.selTrace then 1 else 0)).firstStep s.selTrace cand

theorem refTraceAt_eq (s : State) (cand : Option Nat) : s.refTraceAt cand =
    ((s.traceShown cand).taiTake (s.selTrace && (s.traceShown cand).bit .ux Reg.TIME_STAT_EPOCH_TAI) cand).taiShow
      (s.selTrace && (s.traceShown cand).bit .ux Reg.TIME_STAT_EPOCH_TAI) := by
  cases cand <;> rfl

namespace Writes

variable {W : List Fld} {s t : State}

theorem firstStep (h : Writes .ux W s t) (b : Bool) (c : Option Nat) (hW : rootFlds ⊆ W := by decide) : Writes .ux W s (t.firstStep b c) := by
  unfold State.firstStep
  split
  · split
    · exact h.rootStep _ _ hW
    · exact h.draw.draw.rootStep _ _ hW
  · exact h

theorem traceShown (h : Writes .ux W s t) (c : Option Nat) (hW : Reg.UX_REF_STAT_TRACEABLE :: rootFlds ⊆ W := by decide) : Writes .ux W s (t.traceShown c) := by
  simp only [List.cons_subset] at hW
  exact (h.put Reg.UX_REF_STAT_TRACEABLE _ hW.1).firstStep _ c hW.2

theorem taiTake (h : Writes .ux W s t) (b : Bool) (c : Option Nat) (hW : wholeReg Reg.UX_REF_TAIOFS_SEC_SEC.off ∈ W ∧ wholeReg Reg.UX_REF_TAIOFS_NSF_NS.off ∈ W := by decide) :
    Writes .ux W s (t.taiTake b c) := by
  unfold State.taiTake
  exact .ite (h.taiMeasure c hW) (h.modUx _)

theorem taiShow (h : Writes .ux W s t) (b : Bool) (hW : Reg.UX_REF_STAT_TAI_VALID ∈ W := by decide) : Writes .ux W s (t.taiShow b) := by
  unfold State.taiShow
  exact .ite h ((h.put _ _ hW).log ..)

theorem refTraceAt (h : Writes .ux W s t) (c : Option Nat) (hW : traceFlds ⊆ W := by decide) : Writes .ux W s (t.refTraceAt c) := by
  have hm : ∀ f ∈ traceFlds, f ∈ W := fun f hf => hW hf
  rw [refTraceAt_eq]
  exact ((h.traceShown c (fun f hf => hm f (by revert f; decide))).taiTake _ c ⟨hm _ (by decide), hm _ (by decide)⟩).taiShow _ (hm _ (by decide))

theorem refTrace (h : Writes .ux W s t) (hW : traceFlds ⊆ W := by decide) : Writes .ux W s t.refTrace := h.refTraceAt none hW

theorem refSelect (h : Writes .ux W s t) (k : Nat) (hW : Reg.UX_REF_STAT_SEL :: rootFlds ⊆ W := by decide) : Writes .ux W s (t.refSelect k) := by
  simp only [List.cons_subset] at hW
  have h1 := (h.put Reg.UX_REF_STAT_SEL k hW.1).log 0x45 0x1033 k (t.get .ux Reg.UX_REF_STAT_SEL * 256 + k)
  unfold State.refSelect
  exact .ite h (.ite (h1.draw.rootSlew _ hW.2) (h1.rootIdle hW.2))

theorem uxAclk (h : Writes .ux W s t) (hW : Reg.UX_CLK_STAT_ACLK_SRC ∈ W := by decide) : Writes .ux W s t.uxAclk := by
  unfold State.uxAclk
  exact .ite h (.ite ((h.put _ _ hW).logI ..) (h.put _ _ hW))

theorem dpllFree (h : Writes .ux W s t) (hW : seekFlds ⊆ W := by decide) : Writes .ux W s t.dpllFree := by
  have hm : ∀ f ∈ seekFlds, f ∈ W := fun f hf => hW hf
  have hd : dcoFlds ⊆ W := fun f hf => hm f (by revert f; decide)
  have hr : rootFlds ⊆ W := fun f hf => hm f (by revert f; decide)
  have ht : traceFlds ⊆ W := fun f hf => hm f (by revert f; decide)
  have h1 := (h.put Reg.UX_REF_STAT_STATE 0 (hm _ (by decide))).logI 0x45 0x1035 0 t.dcoFree
  unfold State.dpllFree State.dcoApply
  exact ((((h1.modUx (fun u => { u with dpll := { u.dpll with wtr := [], wtrDone := [], alarmAcq := false } })).dcoSet _ hd).rootIdle hr).refTrace ht).uxAclk (hm _ (by decide))

theorem dpllSeek (h : Writes .ux W s t) (code k : Nat) (hW : seekFlds ⊆ W := by decide) : Writes .ux W s (t.dpllSeek code k) := by
  have hm : ∀ f ∈ seekFlds, f ∈ W := fun f hf => hW hf
  have ht : traceFlds ⊆ W := fun f hf => hm f (by revert f; decide)
  unfold State.dpllSeek
  exact ((((h.put Reg.UX_REF_STAT_STATE code (hm _ (by decide))).refSelect k (fun f hf => hm f (by revert f; decide))).modUx _).refTrace ht).uxAclk (hm _ (by decide))

theorem wtrStop (h : Writes .ux W s t) (k : Nat) : Writes .ux W s (t.wtrStop k) := by
  unfold State.wtrStop
  split
  · exact h.modUx _
  · exact h.modUx _

theorem wtrStart (h : Writes .ux W s t) (k : Nat) : Writes .ux W s (t.wtrStart k) := by
  unfold State.wtrStart
  exact (Writes.ite h (h.log ..)).modUx _

theorem refResolve (h : Writes .ux W s t) (hW : seekFlds ⊆ W := by decide) : Writes .ux W s t.refResolve := by
  have hs := fun code k => h.dpllSeek code k hW
  have hf := h.dpllFree hW
  unfold State.refResolve
  dsimp only
  split
  · split
    · split
      · exact hs ..
      · exact h
    · exact .ite h (by split; exacts [hs .., hf])
  · exact .ite (.ite (hs ..) (.ite h (.ite (hs ..) (.ite h (hs ..))))) (.ite h hf)
  · exact .ite h hf

theorem wtrSwitch (h : Writes .ux W s t) (hW : seekFlds ⊆ W := by decide) : Writes .ux W s t.wtrSwitch := by
  unfold State.wtrSwitch
  split
  · exact .ite (h.dpllSeek _ _ hW) h
  · exact h

end Writes

end Sys2Proof.Machine

/-! SUPPORT. Reference candidates (R64 to R66, R73): their bits, and how they become valid, qualified and lost. -/

namespace Sys2Proof.Machine

set_option Elab.async false

/-! ### The bits of a candidate -/

theorem bitOf_bitSet (v k : Nat) (b : Bool) (n : Nat) (h : k < n) : bitOf (bitSet v k b % 2 ^ n) k = b := by
  rw [bitOf_eq, Nat.testBit_mod_two_pow, bitSet_testBit, if_pos rfl]
  simp [h]

/-- What a candidate's bits beside UX_REF_STAT are. -/
def candSideFlds (k : Nat) : List Fld :=
  if k < 4 then [Reg.UX_REF_IN_STAT_VALID k, Reg.UX_REF_IN_STAT_QUAL k]
  else if k < 6 then [Reg.UX_TP_STAT_VALID (k - 4), Reg.UX_TP_STAT_QUAL (k - 4)] else []

/-- What a change of a candidate's bits writes. -/
def candFlds (k : Nat) : List Fld := Reg.UX_REF_STAT_VALID :: Reg.UX_REF_STAT_QUAL :: candSideFlds k

/-- What the loss of a candidate writes beside its bits and what the DPLL's answer writes. -/
def lostFlds (k : Nat) : List Fld :=
  if k < 4 then [Reg.UX_REF_IN_STAT_LOST k, Reg.UX_REF_IN_STAT_TOD_VALID k] else if k < 6 then [Reg.UX_TP_STAT_LOST (k - 4)] else []

section
variable {W : List Fld} {s t : State}

theorem Writes.candSide (h : Writes .ux W s t) (k : Nat) (valid qual : Bool) (hW : candSideFlds k ⊆ W) :
    let b2n := fun b : Bool => if b then 1 else 0
    Writes .ux W s (if k < 4 then (t.put .ux (Reg.UX_REF_IN_STAT_VALID k) (b2n valid)).put .ux (Reg.UX_REF_IN_STAT_QUAL k) (b2n qual)
      else if k < 6 then (t.put .ux (Reg.UX_TP_STAT_VALID (k - 4)) (b2n valid)).put .ux (Reg.UX_TP_STAT_QUAL (k - 4)) (b2n qual) else t) := by
  intro b2n
  unfold candSideFlds at hW
  split
  · next hk =>
    rw [if_pos hk, List.cons_subset, List.cons_subset] at hW
    exact (h.put _ _ hW.1 ⟨le_refl _, show 0 < 64 by decide⟩).put _ _ hW.2.1 ⟨le_refl _, show 1 < 64 by decide⟩
  split
  · next hk hk' =>
    rw [if_neg hk, if_pos hk', List.cons_subset, List.cons_subset] at hW
    exact (h.put _ _ hW.1 ⟨le_refl _, show 0 < 64 by decide⟩).put _ _ hW.2.1 ⟨le_refl _, show 1 < 64 by decide⟩
  · exact h

theorem Writes.candPut (h : Writes .ux W s t) (k : Nat) (valid qual : Bool) (hW : candFlds k ⊆ W) : Writes .ux W s (t.candPut k valid qual) := by
  simp only [candFlds, List.cons_subset] at hW
  exact ((h.put _ _ hW.1).put _ _ hW.2.1).candSide k valid qual hW.2.2

/-- A candidate shows through two fields. -/
theorem Writes.candValid (h : Writes .ux W s t) (k : Nat) (hc : Fld.clear W Reg.UX_REF_STAT_VALID = true := by decide) : t.candValid k = s.candValid k := by
  unfold State.candValid
  rw [h.get _ (by decide) hc]

theorem Writes.candQual (h : Writes .ux W s t) (k : Nat) (hc : Fld.clear W Reg.UX_REF_STAT_QUAL = true := by decide) : t.candQual k = s.candQual k := by
  unfold State.candQual
  rw [h.get _ (by decide) hc]
end

theorem candSideFlds_clear : ∀ k : Fin 8, Fld.clear (candSideFlds k) Reg.UX_REF_STAT_VALID = true ∧ Fld.clear (candSideFlds k) Reg.UX_REF_STAT_QUAL = true := by decide

theorem candValid_candPut (s : State) (k : Fin 8) (valid qual : Bool) : (s.candPut k valid qual).candValid k = valid := by
  have h1 : ((s.put .ux Reg.UX_REF_STAT_VALID (bitSet (s.get .ux Reg.UX_REF_STAT_VALID) k valid)).candValid k) = valid := by
    unfold State.candValid
    rw [get_put_same _ _ _ _ (by decide) (by decide)]
    exact bitOf_bitSet _ _ _ 8 k.isLt
  have h2 := (Writes.refl .ux [Reg.UX_REF_STAT_QUAL] (s.put .ux Reg.UX_REF_STAT_VALID (bitSet (s.get .ux Reg.UX_REF_STAT_VALID) k valid))).put Reg.UX_REF_STAT_QUAL
    (bitSet ((s.put .ux Reg.UX_REF_STAT_VALID (bitSet (s.get .ux Reg.UX_REF_STAT_VALID) k valid)).get .ux Reg.UX_REF_STAT_QUAL) k qual)
  exact (((Writes.refl .ux (candSideFlds k) _).candSide k valid qual (List.Subset.refl _)).candValid k (candSideFlds_clear k).1).trans ((h2.candValid k).trans h1)

theorem candQual_candPut (s : State) (k : Fin 8) (valid qual : Bool) : (s.candPut k valid qual).candQual k = qual := by
  refine (((Writes.refl .ux (candSideFlds k) _).candSide k valid qual (List.Subset.refl _)).candQual k (candSideFlds_clear k).2).trans ?_
  unfold State.candQual
  rw [get_put_same _ _ _ _ (by decide) (by decide)]
  exact bitOf_bitSet _ _ _ 8 k.isLt

/-! ### Valid, qualified, lost -/

/-- A monitor of the candidate that the state holds reports no fault (R65). -/
def State.candEnabled (s : State) (k : Nat) : Bool :=
  if k < 4 then s.bit .ux (Reg.UX_REF_IN_CFG_EN k)
  else if k < 6 then s.bit .ux (Reg.UX_TP_CFG_PORT_EN (k - 4)) && s.bit .ux (Reg.UX_TP_CFG_PTP_EN (k - 4)) && !s.qlBad (k - 4)
  else s.laneTimes .ux (s.candLane k) && !(k == 7 && s.tier == 2 && s.ux.rootUpbSel)

section
variable (s : State) (k : Fin 8)

theorem events_candPut (valid qual : Bool) (q : Part) : ((s.candPut k valid qual).base q).events = (s.base q).events := by
  unfold State.candPut
  dsimp only
  split
  · rw [events_put, events_put, events_put, events_put]
  split
  · rw [events_put, events_put, events_put, events_put]
  · rw [events_put, events_put]

/-- A candidate that has become VALID. -/
def State.candShown (s : State) (k : Nat) : State := (s.candPut k true false).log .ux 0x45 0x1030 k 0

/-- A candidate that has become QUAL. -/
def State.candRipe (s : State) (k : Nat) : State := (s.candPut k true true).log .ux 0x45 0x1031 k 0

/-- What a lost candidate shows beside its bits (R65, R66). -/
def State.lostShown (s : State) (k : Nat) : State :=
  if k < 4 then (s.put .ux (Reg.UX_REF_IN_STAT_LOST k) 1).put .ux (Reg.UX_REF_IN_STAT_TOD_VALID k) 0
  else if k < 6 then (s.put .ux (Reg.UX_TP_STAT_LOST (k - 4)) 1).modUx (fun u => { u with ptp := tput PtpClock.zero u.ptp (k - 4) PtpClock.zero }) else s

/-- A candidate whose loss is logged. -/
def State.candGone (s : State) (k monitor : Nat) : State := ((s.candPut k false false).lostShown k).log .ux 0x45 0x1032 k monitor

theorem candLost_of_valid (k monitor : Nat) (h : s.candValid k = true) : s.candLost k monitor = ((s.candGone k monitor).wtrStop k).refResolve.refTrace := by
  unfold State.candLost
  rw [if_neg (by simp [h])]
  rfl

theorem candLost_of_not (k monitor : Nat) (h : s.candValid k = false) : s.candLost k monitor = s := by
  unfold State.candLost
  rw [if_pos (by simp [h])]

theorem exec_refValid (h : s.candHere k = true) (he : s.candEnabled k = true) (hv : s.candValid k = false) :
    exec (.refValid k) s = .next (if k.val < 4 then (s.candShown k).draw.2.put .ux (Reg.UX_REF_IN_STAT_FREQ_OFS k) (s.candShown k).draw.1.toNat else s.candShown k) := by
  have hc : (s.candHere k && s.candEnabled k && !s.candValid k) = true := by simp [h, he, hv]
  refine (if_pos hc).trans ?_
  by_cases hk : k.val < 4
  · exact (if_pos hk).trans (by rw [if_pos hk]; rfl)
  · exact (if_neg hk).trans (by rw [if_neg hk]; rfl)

theorem refValid_leaves : let u := if k.val < 4 then (s.candShown k).draw.2.put .ux (Reg.UX_REF_IN_STAT_FREQ_OFS k) (s.candShown k).draw.1.toNat else s.candShown k
    Writes .ux [Reg.UX_REF_IN_STAT_FREQ_OFS k] (s.candPut k true false) u ∧ Logged .ux s u [(0x45, 0x1030, k, 0)] := by
  intro u
  have hw : Writes .ux [Reg.UX_REF_IN_STAT_FREQ_OFS k] (s.candPut k true false) (s.candShown k) := (Writes.refl ..).log ..
  have hl : Logged .ux s (s.candShown k) [(0x45, 0x1030, k, 0)] := logged_log _ _ _ _ (events_candPut ..)
  exact ⟨.ite (hw.draw.put _ _ (List.mem_singleton_self _) ⟨show 32 ≤ 63 by decide, show 63 < 64 by decide⟩) hw, by
    show Logged .ux s (if _ then _ else _) _
    split
    · exact hl.congr (events_put ..)
    · exact hl⟩

/-- What a candidate that qualifies brings: a timer, or the DPLL's answer (R73, R76). -/
theorem exec_refQualified (h : s.candValid k = true) (hq : s.candQual k = false) :
    ∃ u, exec (.refQualified k) s = .next u ∧ Writes .ux seekFlds (s.candRipe k) u ∧ Keeps (s.candRipe k) u := by
  have hc : (s.candValid k && !s.candQual k) = true := by simp [h, hq]
  have hr := Writes.refl .ux seekFlds (s.candRipe k)
  refine ⟨_, if_pos hc, ?_⟩
  split
  · exact ⟨hr.wtrStart k, keeps_wtrStart (keeps_refl _)⟩
  · exact ⟨hr.refResolve, keeps_refResolve (keeps_refl _)⟩

theorem tod_clear : ∀ k : Fin 8, Fld.clear seekFlds (Reg.UX_REF_IN_STAT_TOD_VALID k) = true := by decide

theorem candGone_writes (monitor : Nat) : Writes .ux (lostFlds k) (s.candPut k false false) (s.candGone k monitor) := by
  have h := Writes.refl .ux (lostFlds k) (s.candPut k false false)
  refine Writes.log ?_ ..
  unfold State.lostShown
  by_cases h4 : k.val < 4
  · rw [if_pos h4]
    exact (h.put (Reg.UX_REF_IN_STAT_LOST k) _ (by simp [lostFlds, h4]) ⟨le_refl _, show 2 < 64 by decide⟩).put (Reg.UX_REF_IN_STAT_TOD_VALID k) _ (by simp [lostFlds, h4])
      ⟨le_refl _, show 3 < 64 by decide⟩
  rw [if_neg h4]
  by_cases h6 : k.val < 6
  · rw [if_pos h6]
    exact (h.put (Reg.UX_TP_STAT_LOST (k - 4)) _ (by simp [lostFlds, h4, h6]) ⟨le_refl _, show 2 < 64 by decide⟩).modUx _
  · rw [if_neg h6]
    exact h

theorem candLost_leaves (monitor : Nat) : Writes .ux seekFlds (s.candGone k monitor) ((s.candGone k monitor).wtrStop k).refResolve.refTrace :=
  (((Writes.refl ..).wtrStop k).refResolve).refTrace

theorem events_candGone (monitor : Nat) : Logged .ux s (s.candGone k monitor) [(0x45, 0x1032, k, monitor)] := by
  refine logged_log _ _ _ _ ?_
  unfold State.lostShown
  split
  · rw [events_put, events_put, events_candPut]
  split
  · exact (events_put (s.candPut k false false) .ux .ux _ _).trans (events_candPut ..)
  · rw [events_candPut]

theorem tod_candGone (monitor : Nat) (hk : k.val < 4) : (s.candGone k monitor).bit .ux (Reg.UX_REF_IN_STAT_TOD_VALID k) = false := by
  have hw : Writes .ux [] ((s.candPut k false false).lostShown k) (s.candGone k monitor) := (Writes.refl ..).log ..
  rw [hw.bit _ ⟨le_refl _, show 3 < 64 by decide⟩ rfl, State.lostShown, if_pos hk, State.bit, get_put_same _ _ _ _ (show 3 < 64 by decide) (le_refl _)]
  simp
end

/-- Settles O15: each command changes the candidate's bits, and what the DPLL answers leaves them. -/
theorem referenceCandidates : Obligations.ReferenceCandidates := by
  intro k monitor s enabled
  refine ⟨fun h he hv => ⟨_, exec_refValid s k h he hv, ?_⟩, fun h => if_neg ?_, fun hv hq => ?_, fun h => if_neg ?_, fun hv => ⟨_, rfl, ?_⟩, fun hv => ?_⟩
  · obtain ⟨hw, hl⟩ := refValid_leaves s k
    have hc : ∀ k : Fin 8, Fld.clear [Reg.UX_REF_IN_STAT_FREQ_OFS k] Reg.UX_REF_STAT_VALID = true ∧ Fld.clear [Reg.UX_REF_IN_STAT_FREQ_OFS k] Reg.UX_REF_STAT_QUAL = true := by decide
    exact ⟨(hw.candValid k (hc k).1).trans (candValid_candPut ..), (hw.candQual k (hc k).2).trans (candQual_candPut ..),
      (hw.el rfl).trans (((Writes.refl .ux (candFlds k) s).candPut k true false (List.Subset.refl _)).el rfl), hl⟩
  · show ¬ (s.candHere k && enabled && !s.candValid k) = true
    simp only [Bool.and_eq_true, Bool.not_eq_true']
    rintro ⟨⟨h1, h2⟩, h3⟩
    simp_all
  · obtain ⟨u, hu, hw, hk⟩ := exec_refQualified s k hv hq
    obtain ⟨es, he⟩ := exists_logged_of_keeps .ux hk
    exact ⟨u, hu, (hw.candQual k).trans (candQual_candPut ..), (hw.el rfl).trans (((Writes.refl .ux (candFlds k) s).candPut k true true (List.Subset.refl _)).el rfl), es,
      (logged_log _ _ _ _ (events_candPut ..)).trans he⟩
  · simp only [Bool.and_eq_true, Bool.not_eq_true']
    rintro ⟨h1, h2⟩
    simp_all
  · rw [candLost_of_valid s k _ hv]
    have hw := candLost_leaves s k monitor.toNat
    have hg := candGone_writes s k monitor.toNat
    obtain ⟨es, he⟩ := exists_logged_of_keeps .ux (keeps_refTrace (keeps_refResolve (keeps_wtrStop (k := k) (keeps_refl (s.candGone k monitor.toNat)))))
    have hl : ∀ k : Fin 8, Fld.clear (lostFlds k) Reg.UX_REF_STAT_VALID = true ∧ Fld.clear (lostFlds k) Reg.UX_REF_STAT_QUAL = true := by decide
    have hel : (s.candPut k false false).el = s.el := ((Writes.refl .ux (candFlds k) s).candPut k false false (List.Subset.refl _)).el rfl
    exact ⟨(hw.candValid k).trans ((hg.candValid k (hl k).1).trans (candValid_candPut ..)), (hw.candQual k).trans ((hg.candQual k (hl k).2).trans (candQual_candPut ..)),
      (hw.el rfl).trans ((hg.el rfl).trans hel), fun hk => (hw.bit _ ⟨le_refl _, show 3 < 64 by decide⟩ (tod_clear k)).trans (tod_candGone s k _ hk), es,
      (events_candGone s k monitor.toNat).trans he⟩
  · show Host.Outcome.next (s.candLost k monitor.toNat) = _
    rw [candLost_of_not s k _ hv]

end Sys2Proof.Machine

/-! SUPPORT. The states of a time base (R49, R53, R54): steps, locks, the dwell and holdover. -/

namespace Sys2Proof.Machine

set_option Elab.async false

theorem unsigned_ofNat (v : Nat) : unsigned 64 (v : Int) = v % 2 ^ 64 := by
  unfold unsigned
  omega

theorem hxtOf_lt (a b : Word) : hxtOf a b < hxtMod := Nat.mod_lt _ (by decide)

/-- A signed number that fits a field reads back from it. -/
theorem signed_unsigned (n : Nat) (i : Int) (h : -(2 ^ n : Nat) ≤ i ∧ i < (2 ^ n : Nat)) : signed (n + 1) (unsigned (n + 1) i % 2 ^ (n + 1)) = i := by
  unfold signed unsigned
  have h2 : (2 ^ (n + 1) : Nat) = 2 * 2 ^ n := by ring
  rw [h2, Nat.add_sub_cancel]
  generalize (2 ^ n : Nat) = m at *
  rcases lt_or_ge i 0 with hi | hi
  · have he : i % ((2 * m : Nat) : Int) = i + (2 * m : Nat) := by
      rw [← Int.add_emod_right, Int.emod_eq_of_lt (by omega) (by omega)]
    rw [he]
    have ht : ((i + (2 * m : Nat)).toNat % (2 * m)) % (2 * m) = (i + (2 * m : Nat)).toNat := by
      rw [Nat.mod_mod, Nat.mod_eq_of_lt (by omega)]
    rw [ht, if_neg (by omega)]
    omega
  · have he : i % ((2 * m : Nat) : Int) = i := Int.emod_eq_of_lt (by omega) (by omega)
    rw [he]
    have ht : (i.toNat % (2 * m)) % (2 * m) = i.toNat := by
      rw [Nat.mod_mod, Nat.mod_eq_of_lt (by omega)]
    rw [ht, if_pos (by omega)]
    omega

/-! ### Captures taken again -/

section
variable (s : State) (p : Part) (n : Nat)

theorem events_restamp (q : Part) : ((s.restamp p n).base q).events = (s.base q).events := by
  obtain ⟨caps, hc⟩ := restamp_caps s p n
  rw [hc]
  exact events_mod s p q _ (fun _ => rfl)

theorem stepTick_restamp : ((s.restamp p n).base p).stepTick = (s.base p).stepTick := by
  obtain ⟨caps, hc⟩ := restamp_caps s p n
  rw [hc, base_mod]
end

/-! ### The step -/

section
variable (s : State) (p : Part)

/-- TB3 anchored at a value, in ACQUIRE, marked as stepped in this tick. -/
def State.tb3Stepped (s : State) (p : Part) (v : Nat) : State :=
  ((s.tbAnchorAt p 3 v).put p (Reg.TB_STAT_STATE 3) 1).mod p (fun b => { b with stepTick := tput 0 b.stepTick 3 (s.tick p + 1) })

theorem tbStep_tb3 (v : Nat) : s.tbStep p 3 v = ((s.tb3Stepped p v).restamp p 3).logI p (unitTime p) 0x1001 3 ((v : Int) - (s.tbNow p 3 : Int)) := by
  unfold State.tbStep
  rw [if_neg (by simp)]
  rfl

theorem tbNow_unset {n : Nat} (h : s.tbState p n = 0) : s.tbNow p n = 0 := if_pos h

theorem tbState_tb3Stepped (v : Nat) : (s.tb3Stepped p v).tbState p 3 = 1 := by
  unfold State.tb3Stepped State.tbState State.get
  rw [reg_mod _ _ _ _ _ rfl]
  exact get_put_same _ _ _ _ (by decide) (by decide)

theorem tbNow_tb3Stepped {v : Nat} (hv : v < hxtMod) : (s.tb3Stepped p v).tbNow p 3 = v := by
  refine tbNow_of_anchored (s := s) (by decide) hv ?_ (fun o h1 h2 => ?_) (by rw [tbState_tb3Stepped]; decide)
  · exact (frcNow_mod _ p p _ rfl).trans ((frcNow_put ..).trans (frcNow_tbAnchorAt ..))
  · unfold State.tb3Stepped
    rw [reg_mod _ _ _ _ _ rfl, reg_put, if_neg (by simp only [Reg.TB_STAT_STATE]; omega)]
/-- What TB3_STEP leaves when it is taken (R49). -/
theorem exec_tb3Step (h : s.tbHas p 3 = true) (h0 : s.tbState p 3 = 0) (hf : s.bit p (Reg.TB_STAT_FIRST_LOCK 3) = false) :
    let v := hxtOf (s.reg p (Reg.TB_STEP_SEC_SEC 3).off) (s.reg p (Reg.TB_STEP_NSF_NS 3).off)
    exec (.tb3Step p) s = .next (((s.tb3Stepped p v).restamp p 3).log p (unitTime p) 0x1001 3 (v % 2 ^ 64)) := by
  intro v
  show execTb3Step p s = _
  unfold execTb3Step
  rw [if_neg (by simp [h]), if_pos (by simp [h0, hf]), tbStep_tb3, tbNow_unset s p h0]
  unfold State.logI
  rw [Nat.cast_zero, sub_zero, unsigned_ofNat]

theorem exec_tb3Step_refused (h : s.tbHas p 3 = true) (hr : s.tbState p 3 ≠ 0 ∨ s.bit p (Reg.TB_STAT_FIRST_LOCK 3) = true) :
    exec (.tb3Step p) s = .next (s.tbStepRefused p 3) := by
  show execTb3Step p s = _
  unfold execTb3Step
  rw [if_neg (by simp [h]), if_neg (by simpa [imp_iff_not_or] using hr)]

theorem steppedNow_tb3Stepped (v : Nat) : (((s.tb3Stepped p v).restamp p 3)).steppedNow p 3 = true := by
  have ht : ((s.tb3Stepped p v).restamp p 3).tick p = s.tick p := by
    have hf : ((s.tb3Stepped p v).restamp p 3).frcNow p = s.frcNow p :=
      ((Writes.refl p [] (s.tb3Stepped p v)).restamp 3).frc.trans ((frcNow_mod _ p p _ rfl).trans ((frcNow_put ..).trans (frcNow_tbAnchorAt ..)))
    unfold State.tick
    rw [hf]
  unfold State.steppedNow
  rw [stepTick_restamp, ht, State.tb3Stepped, base_mod]
  simp only [tget_tput_same, beq_self_eq_true]
end

/-! ### Locks -/

section
variable {s t : State} {p : Part} {W : List Fld} {n : Nat}

/-- The read formula of a time base none of whose anchor, offset or rate was written (R44). -/
theorem Writes.tbRaw (h : Writes p W s t) (hc : ∀ g ∈ rateFlds n, Fld.clear W g = true) (f : Nat) : t.tbRaw p n f 0 = s.tbRaw p n f 0 := by
  have hr : ∀ o, wholeReg o ∈ rateFlds n → t.reg p o = s.reg p o := fun o ho => h.reg o (hc _ ho)
  have hg : t.get p (Reg.TB_ANCHOR_HI_ANCHOR_HI n) = s.get p (Reg.TB_ANCHOR_HI_ANCHOR_HI n) :=
    h.get _ ⟨show 0 ≤ 15 by decide, show 15 < 64 by decide⟩ (hc _ (by simp [rateFlds, anchorFlds]))
  unfold State.tbRaw State.tbAnchor State.tbOfs State.tbRate State.getI State.get
  rw [hr _ (by simp [rateFlds, anchorFlds]), hr (Reg.TB_OFS_SEC_SEC n).off (by simp [rateFlds, anchorFlds]), hr (Reg.TB_OFS_NSF_NS n).off (by simp [rateFlds, anchorFlds]),
    hr (Reg.TB_RATE_RATE n).off (by simp [rateFlds, anchorFlds])]
  unfold State.get at hg
  rw [hg]

/-- Such a time base, which was and is set, reads on. -/
theorem Writes.tbNow (h : Writes p W s t) (hn : n ≠ 2) (hc : ∀ g ∈ rateFlds n, Fld.clear W g = true) (hs : t.tbState p n = 0 ↔ s.tbState p n = 0) : t.tbNow p n = s.tbNow p n := by
  unfold State.tbNow State.tbAt
  rw [h.frc, if_neg hn, if_neg hn, h.tbRaw hc]
  by_cases h0 : s.tbState p n = 0
  · rw [if_pos h0, if_pos (hs.mpr h0)]
  · rw [if_neg h0, if_neg (fun e => h0 (hs.mp e))]

theorem Writes.frcSample (h : Writes p W s t) : t.frcSample p = s.frcSample p := by
  unfold State.frcSample State.tick
  rw [h.frc]

theorem tbState_eq (s : State) (p : Part) (hn : n ≠ 2) : s.tbState p n = s.get p (Reg.TB_STAT_STATE n) := by
  unfold State.tbState
  rw [if_neg hn]

theorem tbState_putState (s : State) (p : Part) (hn : n ≠ 2) (v : Nat) : (s.put p (Reg.TB_STAT_STATE n) v).tbState p n = v % 8 := by
  rw [tbState_eq _ _ hn]
  exact get_put_same _ _ _ _ (show 2 < 64 by decide) (show 0 ≤ 2 by decide)

theorem get_tbLock_stat (s : State) (p : Part) (hn : n ≠ 2) : (s.tbLock p n).tbState p n = 2 := by
  have hreg : ∀ o, (s.tbLock p n).reg p o = ((s.put p (Reg.TB_STAT_STATE n) 2).put p (Reg.TB_STAT_FIRST_LOCK n) 1).reg p o := fun o => reg_logI ..
  rw [tbState_eq _ _ hn]
  unfold State.get
  rw [hreg]
  refine (get_put_other _ p (Reg.TB_STAT_FIRST_LOCK n) (Reg.TB_STAT_STATE n) 1 (show 4 < 64 by decide) (le_refl _) (show 2 < 64 by decide) (.inr (.inl (show 2 < 4 by decide)))).trans ?_
  exact get_put_same _ _ _ _ (show 2 < 64 by decide) (show 0 ≤ 2 by decide)

theorem logged_tbLock (s : State) (p : Part) (n : Nat) : Logged p s (s.tbLock p n) [(unitTime p, 0x1003, n, unsigned 64 (s.getI p (Reg.TB_STAT_PHASE_ERR n)))] :=
  logged_log _ _ _ _ (by unfold State.tbSetState; rw [events_put, events_put])

theorem core_tbLock (s : State) (p : Part) (n : Nat) : (s.tbLock p n).core = ((s.put p (Reg.TB_STAT_STATE n) 2).put p (Reg.TB_STAT_FIRST_LOCK n) 1).core := core_logI ..
end

/-! ### The root settles (R79, R80) -/

section
variable (s : State)

theorem phaseErr_rootSettle (h : s.rootLeft.natAbs ≤ 500) : (s.rootSettle).getI .ux (Reg.TB_STAT_PHASE_ERR 0) = s.rootLeft := by
  have hw : Writes .ux (rateFlds 0 ++ lockFlds 0) (s.putI .ux (Reg.TB_STAT_PHASE_ERR 0) s.rootLeft) s.rootSettle := ((Writes.refl ..).tbSetRate 0 0).tbLock 0
  rw [hw.getI (Reg.TB_STAT_PHASE_ERR 0)]
  unfold State.getI State.putI
  rw [get_put_same _ _ _ _ (by decide) (by decide)]
  exact signed_unsigned 31 _ (by omega)

theorem tbRate_rootSettle : (s.rootSettle).tbRate .ux 0 = 0 := by
  have hw : Writes .ux (lockFlds 0) ((s.putI .ux (Reg.TB_STAT_PHASE_ERR 0) s.rootLeft).tbSetRate .ux 0 0) s.rootSettle := (Writes.refl ..).tbLock 0
  unfold State.tbRate
  rw [hw.getI (Reg.TB_RATE_RATE 0)]
  unfold State.getI State.get State.tbSetRate
  rw [reg_setReg_same]
  decide

theorem tbNow_rootSettle (h : s.tbState .ux 0 ≠ 0) : (s.rootSettle).tbNow .ux 0 = s.tbNow .ux 0 := by
  have hp : Writes .ux [Reg.TB_STAT_PHASE_ERR 0] s (s.putI .ux (Reg.TB_STAT_PHASE_ERR 0) s.rootLeft) := (Writes.refl ..).putI _ _
  have hr : Writes .ux (rateFlds 0) (s.putI .ux (Reg.TB_STAT_PHASE_ERR 0) s.rootLeft) ((s.putI .ux (Reg.TB_STAT_PHASE_ERR 0) s.rootLeft).tbSetRate .ux 0 0) := (Writes.refl ..).tbSetRate 0 0
  have hl : Writes .ux (lockFlds 0) ((s.putI .ux (Reg.TB_STAT_PHASE_ERR 0) s.rootLeft).tbSetRate .ux 0 0) s.rootSettle := (Writes.refl ..).tbLock 0
  have hs1 : (s.putI .ux (Reg.TB_STAT_PHASE_ERR 0) s.rootLeft).tbState .ux 0 = s.tbState .ux 0 := hp.get _ (by decide) (by decide)
  have hs2 : ((s.putI .ux (Reg.TB_STAT_PHASE_ERR 0) s.rootLeft).tbSetRate .ux 0 0).tbState .ux 0 = s.tbState .ux 0 := (hr.get _ (by decide) (by decide)).trans hs1
  rw [hl.tbNow (by decide) (by decide) ?_, tbNow_tbSetRate _ _ (by decide), hp.tbNow (by decide) (by decide) (by rw [hs1])]
  have h2 : s.rootSettle.tbState .ux 0 = 2 := get_tbLock_stat _ _ (by decide)
  rw [h2, hs2]
  simp [h]

theorem logged_rootSettle (h : s.rootLeft.natAbs ≤ 500) : Logged .ux s s.rootSettle [(0x45, 0x1003, 0, unsigned 64 s.rootLeft)] := by
  have hl := logged_tbLock ((s.putI .ux (Reg.TB_STAT_PHASE_ERR 0) s.rootLeft).tbSetRate .ux 0 0) .ux 0
  have hw : Writes .ux (rateFlds 0) (s.putI .ux (Reg.TB_STAT_PHASE_ERR 0) s.rootLeft) ((s.putI .ux (Reg.TB_STAT_PHASE_ERR 0) s.rootLeft).tbSetRate .ux 0 0) := (Writes.refl ..).tbSetRate 0 0
  have hp : (s.putI .ux (Reg.TB_STAT_PHASE_ERR 0) s.rootLeft).getI .ux (Reg.TB_STAT_PHASE_ERR 0) = s.rootLeft := by
    unfold State.getI State.putI
    rw [get_put_same _ _ _ _ (by decide) (by decide)]
    exact signed_unsigned 31 _ (by omega)
  rw [hw.getI (Reg.TB_STAT_PHASE_ERR 0), hp] at hl
  exact (logged_nil ((events_tbSetRate ..).trans (events_put ..))).trans hl

theorem el_rootSettle : (s.rootSettle).el = s.el := ((Writes.refl .ux rootFlds s).rootSettle).el rfl
end

/-! ### The obligation -/

section
variable (p : Part) (n : Fin 4) (s : State)

theorem exec_tb3LockDecl (h : s.tbHas p 3 = true) (h1 : s.tbState p 3 = 1) (hn : s.steppedNow p 3 = false) : exec (.tb3LockDecl p) s = .next (s.tbLock p 3) :=
  congrArg Host.Outcome.next (if_pos (by simp [h, h1, hn]))

theorem exec_tb3LockDecl_not (h : s.tbHas p 3 = false ∨ s.tbState p 3 ≠ 1 ∨ s.steppedNow p 3 = true) : exec (.tb3LockDecl p) s = .next s :=
  congrArg Host.Outcome.next (if_neg (by simpa [imp_iff_not_or, or_assoc] using h))

theorem exec_tbLockDwell_not (h : s.tbHas p n = false ∨ 2 ≤ n.val ∨ (s.tbState p n ≠ 1 ∧ s.tbState p n ≠ 3) ∨ s.steppedNow p n = true) : exec (.tbLockDwell p n) s = .next s := by
  refine if_neg ?_
  simp only [Bool.and_eq_true, Bool.or_eq_true, beq_iff_eq, Bool.not_eq_true']
  rintro ⟨⟨⟨h1, h2⟩, h3⟩, h4⟩
  rcases h with h | h | h | h
  · simp [h] at h1
  · omega
  · omega
  · simp [h] at h4

theorem exec_tbLockDwell (h : s.tbHas p n = true) (hn : n.val < 2) (hs : s.tbState p n = 1 ∨ s.tbState p n = 3) (hst : s.steppedNow p n = false) :
    exec (.tbLockDwell p n) s = .next (if p = .ux ∧ s.tier = 2 then (if s.rootLeft.natAbs ≤ 500 then s.rootSettle else s) else if s.phaseAbs p n ≤ 500 then s.tbEnterLocked p n else s) := by
  have hc : (s.tbHas p n && (n.val == 0 || n.val == 1) && (s.tbState p n == 1 || s.tbState p n == 3) && !s.steppedNow p n) = true := by
    simp only [h, hst, Bool.and_eq_true, Bool.or_eq_true, beq_iff_eq, Bool.not_false, and_true, true_and]
    exact ⟨by omega, hs⟩
  refine (if_pos hc).trans ?_
  by_cases hr : p = .ux ∧ s.tier = 2
  · rw [if_pos hr]
    exact if_pos (by simp [hr])
  · rw [if_neg hr]
    exact if_neg (by simpa using hr)

theorem exec_tbSourceTimeout (h : s.tbHas p n = true) (hn : n.val < 2) (hs : s.tbState p n = 1 ∨ s.tbState p n = 2 ∨ s.tbState p n = 3) (hr : ¬(p = .ux ∧ s.tier = 2)) :
    exec (.tbSourceTimeout p n) s = .next (s.tbHoldover p n) := by
  refine congrArg Host.Outcome.next (if_pos ?_)
  simp only [h, Bool.and_eq_true, Bool.or_eq_true, beq_iff_eq, true_and, Bool.not_eq_true', Bool.and_eq_false_iff, beq_eq_false_iff_ne]
  exact ⟨⟨by omega, by omega⟩, not_and_or.mp hr⟩

theorem exec_tbSourceTimeout_not (h : s.tbHas p n = false ∨ 2 ≤ n.val ∨ (s.tbState p n ≠ 1 ∧ s.tbState p n ≠ 2 ∧ s.tbState p n ≠ 3) ∨ (p = .ux ∧ s.tier = 2)) :
    exec (.tbSourceTimeout p n) s = .next s := by
  refine congrArg Host.Outcome.next (if_neg ?_)
  simp only [Bool.and_eq_true, Bool.or_eq_true, beq_iff_eq, Bool.not_eq_true']
  rintro ⟨⟨⟨h1, h2⟩, h3⟩, h4⟩
  rcases h with h | h | h | h
  · simp [h] at h1
  · omega
  · omega
  · simp [h] at h4
end

theorem events_tb3Stepped (s : State) (p : Part) (v : Nat) : ((s.tb3Stepped p v).base p).events = (s.base p).events := by
  unfold State.tb3Stepped State.tbAnchorAt
  rw [base_mod]
  exact (events_put ..).trans ((events_put ..).trans ((events_setReg ..).trans ((events_setReg ..).trans (events_setReg ..))))

/-- TB3's step reads the value it was set to, in ACQUIRE (R49, R54). -/
theorem tb3Stepped_reads (s : State) (p : Part) {v : Nat} (hv : v < hxtMod) (d : Nat) :
    let u := ((s.tb3Stepped p v).restamp p 3).log p (unitTime p) 0x1001 3 d
    u.tbNow p 3 = v ∧ u.tbState p 3 = 1 ∧ u.steppedNow p 3 = true := by
  intro u
  have hw := (Writes.refl p [] (s.tb3Stepped p v)).restamp 3
  have hcore : u.core = ((s.tb3Stepped p v).restamp p 3).core := core_log ..
  have hstate : ((s.tb3Stepped p v).restamp p 3).tbState p 3 = 1 := (hw.get _ (by decide) (by decide)).trans (tbState_tb3Stepped s p v)
  have hstep : (u.base p).stepTick = (((s.tb3Stepped p v).restamp p 3).base p).stepTick := by
    have hc : ∀ t : State, (t.core.base p).stepTick = (t.base p).stepTick := fun t => by cases p <;> rfl
    rw [← hc, hcore, hc]
  refine ⟨?_, ?_, ?_⟩
  · rw [tbNow_of_core hcore, hw.tbNow (by decide) (by decide) (by rw [hstate, tbState_tb3Stepped]), tbNow_tb3Stepped s p hv]
  · refine Eq.trans ?_ hstate
    unfold State.tbState State.get
    rw [reg_of_core hcore]
  · rw [← steppedNow_tb3Stepped s p v]
    unfold State.steppedNow State.tick
    rw [hstep, frcNow_of_core hcore]

/-- Settles O9: TB3's step and lock, the dwell of a servoed time base and of the root, and holdover. -/
theorem timeBaseStates : Obligations.TimeBaseStates := by
  refine ⟨fun p s => ⟨fun h h0 hf => ?_, fun h hr => ?_, fun h => if_pos (by simp [h])⟩, fun p n s => ⟨fun h h1 hn => ?_, exec_tb3LockDecl_not p s, fun h hn hs hst hr => ?_, fun ht hs hst => ?_,
    exec_tbLockDwell_not p n s, fun h hn hs hr => ?_, exec_tbSourceTimeout_not p n s⟩⟩
  · have hx := exec_tb3Step s p h h0 hf
    exact ⟨⟨_, hx, tb3Stepped_reads s p (hxtOf_lt ..) _⟩, _, hx, core_log .., logged_log _ _ _ _ ((events_restamp ..).trans (events_tb3Stepped ..))⟩
  · exact ⟨_, exec_tb3Step_refused s p h hr, core_log .., logged_log _ _ _ _ (events_put ..)⟩
  · exact ⟨_, exec_tb3LockDecl p s h h1 hn, core_tbLock .., logged_tbLock ..⟩
  · have hx := exec_tbLockDwell p n s h hn hs hst
    rw [if_neg hr] at hx
    refine ⟨fun hp => ⟨?_, core_tbLock .., logged_tbLock ..⟩, fun hp => ?_⟩
    · rw [hx, if_pos hp]
      rfl
    · rw [hx, if_neg (by omega)]
  · have hx := exec_tbLockDwell .ux 0 s rfl (by decide) hs hst
    rw [if_pos ⟨rfl, ht⟩] at hx
    refine ⟨fun hp => ⟨s.rootSettle, by rw [hx, if_pos hp], get_tbLock_stat _ _ (by decide), phaseErr_rootSettle s hp, tbRate_rootSettle s, tbNow_rootSettle s ?_, logged_rootSettle s hp, el_rootSettle s⟩, fun hp => ?_⟩
    · change s.tbState .ux 0 = 1 ∨ s.tbState .ux 0 = 3 at hs
      omega
    · rw [hx, if_neg (by omega)]
  · exact ⟨_, exec_tbSourceTimeout p n s h hn hs hr, core_logI .., logged_log _ _ _ _ (events_put ..)⟩

end Sys2Proof.Machine

/-! SUPPORT. The DPLL (R71, R72, R76, R78): what a lock, a timeout and an expired timer leave. -/

namespace Sys2Proof.Machine

set_option Elab.async false

/-! ### What leaves the DPLL's own data -/

section
variable (s : State)

/-- The chip's data beside its registers, events and lanes, without what reference operations keep of a measurement. -/
def State.chipData (s : State) : Uhloux := { s.ux with base := Uhloux.zero.base, dpll := { s.ux.dpll with measured := none }, slewFrom := 0 }

@[simp] theorem chipData_mod (p : Part) (f : Base → Base) : (s.mod p f).chipData = s.chipData := by cases p <;> rfl
@[simp] theorem chipData_setReg (p : Part) (o : Nat) (w : Word) : (s.setReg p o w).chipData = s.chipData := chipData_mod ..
@[simp] theorem chipData_put (p : Part) (f : Fld) (v : Nat) : (s.put p f v).chipData = s.chipData := chipData_mod ..
@[simp] theorem chipData_putI (p : Part) (f : Fld) (v : Int) : (s.putI p f v).chipData = s.chipData := chipData_mod ..
@[simp] theorem chipData_draw : s.draw.2.chipData = s.chipData := rfl
@[simp] theorem chipData_log (a b c d : Nat) : (s.log .ux a b c d).chipData = s.chipData := rfl
@[simp] theorem chipData_logI (a b c : Nat) (d : Int) : (s.logI .ux a b c d).chipData = s.chipData := rfl

@[simp] theorem chipData_restamp (p : Part) (n : Nat) : (s.restamp p n).chipData = s.chipData := by
  obtain ⟨caps, hc⟩ := restamp_caps s p n
  rw [hc, chipData_mod]

@[simp] theorem chipData_tbSetRate (p : Part) (n : Nat) (r : Int) : (s.tbSetRate p n r).chipData = s.chipData := by simp [State.tbSetRate, State.tbAnchorAt]
@[simp] theorem chipData_tbLock (n : Nat) : (s.tbLock .ux n).chipData = s.chipData := by simp [State.tbLock, State.tbSetState]
@[simp] theorem chipData_rootSettle : s.rootSettle.chipData = s.chipData := by simp [State.rootSettle]
@[simp] theorem chipData_rootStep (v : Nat) (b : Bool) : (s.rootStep v b).chipData = s.chipData := by simp [State.rootStep, State.tbStep, State.tbAnchorAt, State.tbSetState]

@[simp] theorem chipData_rootSlew (pe : Int) : (s.rootSlew pe).chipData = s.chipData := by
  have h : ((s.putI .ux (Reg.TB_STAT_PHASE_ERR 0) pe).modUx (fun u => { u with slewFrom := (s.putI .ux (Reg.TB_STAT_PHASE_ERR 0) pe).tick .ux })).chipData = s.chipData := chipData_putI ..
  unfold State.rootSlew
  split
  · exact h
  · simp only [State.tbSetState, chipData_put, chipData_tbSetRate]
    exact h

@[simp] theorem chipData_rootIdle : s.rootIdle.chipData = s.chipData := by
  unfold State.rootIdle
  split
  · exact chipData_rootSettle s
  · rfl

@[simp] theorem chipData_rootFollow (k : Nat) (pe : Int) : (s.rootFollow k pe).chipData = s.chipData := by
  unfold State.rootFollow
  split
  · exact chipData_rootSlew s pe
  · rfl

@[simp] theorem chipData_firstStep (b : Bool) (c : Option Nat) : (s.firstStep b c).chipData = s.chipData := by
  unfold State.firstStep
  split
  · split
    · exact chipData_rootStep ..
    · exact chipData_rootStep ..
  · rfl

theorem chipData_measured (m : Option Nat) : (s.modUx (fun u => { u with dpll := { u.dpll with measured := m } })).chipData = s.chipData := rfl

@[simp] theorem chipData_taiWrite (c : Nat) : (s.taiWrite c).chipData = s.chipData := by
  unfold State.taiWrite
  exact (chipData_measured ..).trans ((chipData_setReg ..).trans (chipData_setReg ..))

@[simp] theorem chipData_taiTake (b : Bool) (c : Option Nat) : (s.taiTake b c).chipData = s.chipData := by
  unfold State.taiTake State.taiMeasure
  split
  · split
    · exact chipData_taiWrite ..
    split
    · rfl
    · exact chipData_taiWrite ..
  · rfl

theorem chipData_ite {c : Prop} [Decidable c] {a b : State} {d : Uhloux} (ha : a.chipData = d) (hb : b.chipData = d) : (if c then a else b).chipData = d := by
  split
  · exact ha
  · exact hb

@[simp] theorem chipData_taiShow (b : Bool) : (s.taiShow b).chipData = s.chipData := by
  unfold State.taiShow
  exact chipData_ite rfl ((chipData_log ..).trans (chipData_put ..))

@[simp] theorem chipData_refTraceAt (c : Option Nat) : (s.refTraceAt c).chipData = s.chipData := by
  rw [refTraceAt_eq]
  simp [State.traceShown]

@[simp] theorem chipData_refTrace : s.refTrace.chipData = s.chipData := chipData_refTraceAt s none

@[simp] theorem chipData_replaceSet (k : Nat) : (s.replaceSet k).chipData = s.chipData := by
  unfold State.replaceSet
  split
  · rfl
  · simp [State.setBits]

@[simp] theorem chipData_dpllAlarm (f : Fld) : (s.dpllAlarm f).chipData = s.chipData := by simp [State.dpllAlarm]

@[simp] theorem chipData_dcoSet (v : Int) : (s.dcoSet v).chipData = s.chipData := by
  unfold State.dcoSet
  dsimp only
  split <;> simp

@[simp] theorem chipData_dcoLoop : s.dcoLoop.chipData = s.chipData := by simp [State.dcoLoop]

@[simp] theorem chipData_refSelect (k : Nat) : (s.refSelect k).chipData = s.chipData := by
  unfold State.refSelect
  dsimp only
  split
  · rfl
  split <;> simp

@[simp] theorem chipData_uxAclk : s.uxAclk.chipData = s.chipData := by
  unfold State.uxAclk
  exact chipData_ite rfl (chipData_ite ((chipData_logI ..).trans (chipData_put ..)) (chipData_put ..))
end


/-! ### Which candidate is due (R76) -/

section
variable {s t : State} {W : List Fld}

/-- The candidate that is due depends on the reference registers and the expired timers alone. -/
theorem wtrDue_congr (hg : ∀ f ∈ [Reg.UX_REF_STAT_SEL, Reg.UX_REF_CTRL_REVERTIVE, Reg.UX_REF_CTRL_MODE, Reg.UX_REF_PRIO_ENTRIES, Reg.UX_REF_STAT_QUAL], t.get .ux f = s.get .ux f)
    (hd : t.chipData = s.chipData) : t.wtrDue = s.wtrDue := by
  simp only [List.forall_mem_cons, List.not_mem_nil, false_implies, implies_true, and_true] at hg
  obtain ⟨h1, h2, h3, h4, h5⟩ := hg
  have hw : t.ux.dpll.wtrDone = s.ux.dpll.wtrDone := show t.chipData.dpll.wtrDone = s.chipData.dpll.wtrDone by rw [hd]
  unfold State.wtrDue State.prioOf State.prioList State.candQual State.bit
  rw [h1, h2, h3, h4, h5, hw]

theorem wtrDue_of_writes (h : Writes .ux W s t) (hd : t.chipData = s.chipData)
    (hc : ∀ f ∈ [Reg.UX_REF_STAT_SEL, Reg.UX_REF_CTRL_REVERTIVE, Reg.UX_REF_CTRL_MODE, Reg.UX_REF_PRIO_ENTRIES, Reg.UX_REF_STAT_QUAL], Fld.clear W f = true := by decide) : t.wtrDue = s.wtrDue :=
  wtrDue_congr (fun f hf => h.get f (by revert f; decide) (hc f hf)) hd

theorem candTraceable_of_writes (h : Writes .ux W s t) (hd : t.chipData = s.chipData) {k : Nat}
    (hc : ∀ f ∈ [Reg.UX_REF_IN_CFG_TYPE k, Reg.UX_REF_IN_STAT_TOD_VALID k, Reg.UX_REF_IN_CFG_TRACE k, Reg.UX_TP_STAT_TRACEABLE (k - 4)], Fld.clear W f = true) :
    t.candTraceable k = s.candTraceable k := by
  simp only [List.forall_mem_cons, List.not_mem_nil, false_implies, implies_true, and_true] at hc
  obtain ⟨h1, h2, h3, h4⟩ := hc
  have hu : t.ux.dpll.upTrace = s.ux.dpll.upTrace := show t.chipData.dpll.upTrace = s.chipData.dpll.upTrace by rw [hd]
  unfold State.candTraceable State.timeCapable
  rw [h.get _ ⟨Nat.zero_le _, show 2 < 64 by decide⟩ h1, h.bit _ ⟨le_refl _, show 3 < 64 by decide⟩ h2, h.bit _ ⟨le_refl _, show 7 < 64 by decide⟩ h3,
    h.bit _ ⟨le_refl _, show 7 < 64 by decide⟩ h4, hu]

theorem wtrDue_off (h : s.bit .ux Reg.UX_REF_CTRL_REVERTIVE = false ∨ s.get .ux Reg.UX_REF_CTRL_MODE ≠ 0) : s.wtrDue = none := by
  unfold State.wtrDue
  rcases h with h | h
  · simp [h]
  · simp [h]
end

/-! ### Lock -/

section
variable (s : State)

/-- The DPLL LOCKED on its candidate, its DCO where its loop puts it, and that loop's mean kept (R71, R77). -/
def State.loopLocked (s : State) (k : Nat) (f : Int) : State :=
  let s := ((s.put .ux Reg.UX_REF_STAT_STATE 2).logI .ux 0x45 0x1034 k f).dcoLoop
  s.draw.2.setReg .ux Reg.UX_DCO_HIST_VALUE.off (BitVec.ofInt 64 (((s.draw.1.toNat % 28147497671 : Nat) : Int) - dcoLimit))

/-- A lock with what follows of the candidate's time. -/
def State.timeLocked (s : State) (k : Nat) (f : Int) (c : Nat) : State :=
  ((s.loopLocked k f).rootFollow k (psOf (hxtDiff ((s.loopLocked k f).tbNow .ux 0) c))).refTraceAt (some c)

theorem exec_dpllLocked (f : BitVec 40) (c : Nat) (h : s.dpllState = 1 ∨ s.dpllState = 3) :
    let u := s.timeLocked (s.get .ux Reg.UX_REF_STAT_SEL) f.toInt (c % hxtMod)
    exec (.dpllLocked f c) s = .next (if u.wtrDue.isSome then u.wtrSwitch else u.refResolve) := by
  intro u
  refine (if_pos (by simpa using h)).trans (congrArg Host.Outcome.next ?_)
  show (match u.wtrDue with | some _ => u.wtrSwitch | none => u.refResolve) = _
  split
  · next hd => rw [hd]; rfl
  · next hd => rw [hd]; rfl

def lockedFlds : List Fld := Reg.UX_REF_STAT_STATE :: wholeReg Reg.UX_DCO_HIST_VALUE.off :: (dcoFlds ++ traceFlds)

theorem loopLocked_writes (k : Nat) (f : Int) : Writes .ux (Reg.UX_REF_STAT_STATE :: wholeReg Reg.UX_DCO_HIST_VALUE.off :: dcoFlds) s (s.loopLocked k f) :=
  ((((Writes.refl ..).put _ _).logI ..).dcoLoop.draw).setReg _ _

theorem loopLocked_after (k : Nat) (f : Int) : Writes .ux (wholeReg Reg.UX_DCO_HIST_VALUE.off :: dcoFlds) ((s.put .ux Reg.UX_REF_STAT_STATE 2).logI .ux 0x45 0x1034 k f) (s.loopLocked k f) :=
  ((Writes.refl ..).dcoLoop.draw).setReg _ _

theorem chipData_loopLocked (k : Nat) (f : Int) : (s.loopLocked k f).chipData = s.chipData := by simp [State.loopLocked]

theorem dpllState_loopLocked (k : Nat) (f : Int) : (s.loopLocked k f).dpllState = 2 := by
  refine ((loopLocked_after s k f).get Reg.UX_REF_STAT_STATE (by decide) (by decide)).trans ?_
  unfold State.get
  rw [reg_logI]
  exact get_put_same _ _ _ _ (by decide) (by decide)

theorem timeLocked_writes (k : Nat) (f : Int) (c : Nat) : Writes .ux traceFlds (s.loopLocked k f) (s.timeLocked k f c) :=
  ((Writes.refl ..).rootFollow ..).refTraceAt _

theorem chipData_timeLocked (k : Nat) (f : Int) (c : Nat) : (s.timeLocked k f c).chipData = s.chipData := by
  unfold State.timeLocked
  rw [chipData_refTraceAt, chipData_rootFollow, chipData_loopLocked]

theorem timeLocked_all (k : Nat) (f : Int) (c : Nat) : Writes .ux lockedFlds s (s.timeLocked k f c) :=
  ((loopLocked_writes s k f).mono (by decide)).trans ((timeLocked_writes s k f c).mono (by decide))

/-- A lock in AUTO on a qualified candidate, with no switch due, stays. -/
theorem refResolve_of_locked (h : s.dpllState = 2) (hm : s.get .ux Reg.UX_REF_CTRL_MODE = 0) (hq : s.candQual (s.get .ux Reg.UX_REF_STAT_SEL) = true) : s.refResolve = s := by
  unfold State.refResolve
  rw [hm, h]
  simp [hq]

/-! ### The root's first step (R78) -/

/-- The root's TB0 anchored at a value, in ACQUIRE, marked as stepped in this tick. -/
def State.tb0Stepped (s : State) (v : Nat) : State :=
  ((s.tbAnchorAt .ux 0 v).put .ux (Reg.TB_STAT_STATE 0) 1).mod .ux (fun b => { b with stepTick := tput 0 b.stepTick 0 (s.tick .ux + 1) })

theorem tbStep_tb0 (v : Nat) : s.tbStep .ux 0 v = ((s.tb0Stepped v).restamp .ux 0).logI .ux 0x45 0x1001 0 ((v : Int) - (s.tbNow .ux 0 : Int)) := rfl

theorem tbState_tb0Stepped (v : Nat) : (s.tb0Stepped v).tbState .ux 0 = 1 := by
  have hw : Writes .ux [] ((s.tbAnchorAt .ux 0 v).put .ux (Reg.TB_STAT_STATE 0) 1) (s.tb0Stepped v) := (Writes.refl ..).mod _
  exact (hw.get _ (by decide) (by decide)).trans (get_put_same _ _ _ _ (by decide) (by decide))

theorem tbNow_tb0Stepped {v : Nat} (hv : v < hxtMod) : (s.tb0Stepped v).tbNow .ux 0 = v := by
  refine tbNow_of_anchored (s := s) (by decide) hv ?_ (fun o h1 h2 => ?_) (by rw [tbState_tb0Stepped]; decide)
  · exact (frcNow_mod _ .ux .ux _ rfl).trans ((frcNow_put ..).trans (frcNow_tbAnchorAt ..))
  · unfold State.tb0Stepped
    rw [reg_mod _ _ _ _ _ rfl, reg_put, if_neg (by simp only [Reg.TB_STAT_STATE]; omega)]

theorem tbNow_rootStep {v : Nat} (hv : v < hxtMod) (b : Bool) : (s.rootStep v b).tbNow .ux 0 = v := by
  have h1 : Writes .ux [] (s.tb0Stepped v) (s.tbStep .ux 0 v) := ((Writes.refl ..).restamp 0).logI ..
  have h2 : Writes .ux (Reg.TIME_STAT_EPOCH_TAI :: lockFlds 0) (s.tbStep .ux 0 v) (s.rootStep v b) := ((Writes.refl ..).put _ _).tbLock 0
  have hs : (s.tbStep .ux 0 v).tbState .ux 0 = 1 := (h1.get _ (by decide) (by decide)).trans (tbState_tb0Stepped s v)
  have hl : (s.rootStep v b).tbState .ux 0 = 2 := get_tbLock_stat _ _ (by decide)
  rw [h2.tbNow (by decide) (by decide) (by rw [hs, hl]; decide), h1.tbNow (by decide) (by decide) (by rw [hs, tbState_tb0Stepped]), tbNow_tb0Stepped s hv]

/-- A root whose TB0 was never set, locked on a traceable candidate, takes its time. -/
theorem timeLocked_first (k : Nat) (f : Int) {c : Nat} (hc : c < hxtMod) (ht : s.tier = 2) (h0 : s.tbState .ux 0 = 0) (hk : k = s.get .ux Reg.UX_REF_STAT_SEL) (htr : s.candTraceable k = true) :
    (s.timeLocked k f c).tbState .ux 0 = 2 ∧ (s.timeLocked k f c).tbNow .ux 0 = c := by
  have hw := loopLocked_writes s k f
  have hk8 : k < 8 := by rw [hk]; exact fget_lt ..
  have htr' : (s.loopLocked k f).candTraceable k = true := by
    have hcl : ∀ k : Fin 8, ∀ g ∈ [Reg.UX_REF_IN_CFG_TYPE k, Reg.UX_REF_IN_STAT_TOD_VALID k, Reg.UX_REF_IN_CFG_TRACE k, Reg.UX_TP_STAT_TRACEABLE (k - 4)],
        Fld.clear (Reg.UX_REF_STAT_STATE :: wholeReg Reg.UX_DCO_HIST_VALUE.off :: dcoFlds) g = true := by decide
    rw [candTraceable_of_writes hw (chipData_loopLocked s k f) (hcl ⟨k, hk8⟩), htr]
  have h0' : (s.loopLocked k f).tbState .ux 0 = 0 := (hw.get _ (by decide) (by decide)).trans h0
  have ht' : (s.loopLocked k f).tier = 2 := (hw.get _ (by decide) (by decide)).trans ht
  have hsel : (s.loopLocked k f).get .ux Reg.UX_REF_STAT_SEL = k := (hw.get _ (by decide) (by decide)).trans hk.symm
  have hst : (s.loopLocked k f).selTrace = true := by
    unfold State.selTrace
    rw [dpllState_loopLocked, hsel, htr']
    rfl
  have hfollow : ∀ pe, (s.loopLocked k f).rootFollow k pe = s.loopLocked k f := fun pe => by
    unfold State.rootFollow
    rw [if_neg (by simp [h0'])]
  have hp : Writes .ux [Reg.UX_REF_STAT_TRACEABLE] (s.loopLocked k f) ((s.loopLocked k f).put .ux Reg.UX_REF_STAT_TRACEABLE 1) := (Writes.refl ..).put _ _
  have hshown : (s.loopLocked k f).traceShown (some c) = ((s.loopLocked k f).put .ux Reg.UX_REF_STAT_TRACEABLE 1).rootStep c true := by
    have ha : ((s.loopLocked k f).put .ux Reg.UX_REF_STAT_TRACEABLE 1).tier = 2 := (hp.get _ (by decide) (by decide)).trans ht'
    have hb : ((s.loopLocked k f).put .ux Reg.UX_REF_STAT_TRACEABLE 1).dpllState = 2 := (hp.get Reg.UX_REF_STAT_STATE (by decide) (by decide)).trans (dpllState_loopLocked s k f)
    have hd : ((s.loopLocked k f).put .ux Reg.UX_REF_STAT_TRACEABLE 1).tbState .ux 0 = 0 := (hp.get _ (by decide) (by decide)).trans h0'
    unfold State.traceShown
    rw [hst, if_pos rfl, State.firstStep, ha, hb, hd]
    rfl
  have htail : Writes .ux [wholeReg Reg.UX_REF_TAIOFS_SEC_SEC.off, wholeReg Reg.UX_REF_TAIOFS_NSF_NS.off, Reg.UX_REF_STAT_TAI_VALID] ((s.loopLocked k f).traceShown (some c)) (s.timeLocked k f c) := by
    unfold State.timeLocked
    rw [hfollow, refTraceAt_eq]
    exact ((Writes.refl ..).taiTake _ _).taiShow _
  have hlock : ((s.loopLocked k f).traceShown (some c)).tbState .ux 0 = 2 := by
    rw [hshown]
    exact get_tbLock_stat _ _ (by decide)
  have hend : (s.timeLocked k f c).tbState .ux 0 = 2 := (htail.get _ (by decide) (by decide)).trans hlock
  refine ⟨hend, ?_⟩
  rw [htail.tbNow (by decide) (by decide) (by rw [hend, hlock]), hshown, tbNow_rootStep _ hc]

/-! ### Events and the other part -/

theorem logged_timeLocked (k : Nat) (f : Int) (c : Nat) : ∃ es, Logged .ux s (s.timeLocked k f c) ((0x45, 0x1034, k, unsigned 64 f) :: es) := by
  have h1 : Logged .ux s ((s.put .ux Reg.UX_REF_STAT_STATE 2).logI .ux 0x45 0x1034 k f) [(0x45, 0x1034, k, unsigned 64 f)] := logged_log _ _ _ _ (events_put ..)
  obtain ⟨es, he⟩ := exists_logged_of_keeps .ux (keeps_refTraceAt (cand := some c) (keeps_rootFollow (k := k) (pe := psOf (hxtDiff ((s.loopLocked k f).tbNow .ux 0) c))
    (keeps_setReg (p := .ux) (off := Reg.UX_DCO_HIST_VALUE.off) (w := BitVec.ofInt 64 (((((s.put .ux Reg.UX_REF_STAT_STATE 2).logI .ux 0x45 0x1034 k f).dcoLoop.draw.1.toNat % 28147497671 : Nat) : Int) - dcoLimit))
      (keeps_draw (keeps_dcoLoop (keeps_refl ((s.put .ux Reg.UX_REF_STAT_STATE 2).logI .ux 0x45 0x1034 k f)))))))
  exact ⟨es, h1.trans he⟩
end

/-! ### Seeking (R71, R73, R74) -/

section
variable (s : State) (j : Nat)

/-- The timers that still have something to restore once `j` is sought (R76). -/
def State.wtrAbove (s : State) (was : State) (j : Nat) : State :=
  let above := fun c => decide (was.prioOf c < was.prioOf j)
  s.modUx (fun u => { u with dpll := { u.dpll with wtr := u.dpll.wtr.filter (fun e => above e.1), wtrDone := u.dpll.wtrDone.filter above, alarmAcq := false } })

theorem dpllSeek_eq (code : Nat) : s.dpllSeek code j = ((((s.put .ux Reg.UX_REF_STAT_STATE code).refSelect j).wtrAbove s j).refTrace).uxAclk := rfl

theorem wtrDone_dpllSeek (code : Nat) : j ∉ (s.dpllSeek code j).ux.dpll.wtrDone := by
  have hd : (s.dpllSeek code j).chipData.dpll.wtrDone = (((s.put .ux Reg.UX_REF_STAT_STATE code).refSelect j).wtrAbove s j).chipData.dpll.wtrDone := by
    rw [dpllSeek_eq, chipData_uxAclk, chipData_refTrace]
  intro hj
  change j ∈ (s.dpllSeek code j).chipData.dpll.wtrDone at hj
  rw [hd] at hj
  have hm : j ∈ ((s.put .ux Reg.UX_REF_STAT_STATE code).refSelect j).ux.dpll.wtrDone.filter (fun c => decide (s.prioOf c < s.prioOf j)) := hj
  simpa using (List.mem_filter.mp hm).2

/-- What follows the selection of a candidate leaves STATE and SEL. -/
theorem dpllSeek_tail (code : Nat) : Writes .ux (traceFlds ++ [Reg.UX_CLK_STAT_ACLK_SRC]) ((s.put .ux Reg.UX_REF_STAT_STATE code).refSelect j) (s.dpllSeek code j) := by
  rw [dpllSeek_eq]
  exact (((Writes.refl ..).modUx _).refTrace).uxAclk

theorem dpllState_dpllSeek (code : Nat) : (s.dpllSeek code j).dpllState = code % 4 := by
  have h1 : Writes .ux (Reg.UX_REF_STAT_SEL :: rootFlds) (s.put .ux Reg.UX_REF_STAT_STATE code) ((s.put .ux Reg.UX_REF_STAT_STATE code).refSelect j) := (Writes.refl ..).refSelect j
  exact ((dpllSeek_tail s j code).get _ (by decide) (by decide)).trans ((h1.get _ (by decide) (by decide)).trans (get_put_same _ _ _ _ (by decide) (by decide)))

/-- The root's time after another candidate is selected. -/
def State.selTaken (s : State) (j : Nat) : State :=
  let t := (s.put .ux Reg.UX_REF_STAT_SEL j).log .ux 0x45 0x1033 j (s.get .ux Reg.UX_REF_STAT_SEL * 256 + j)
  if t.tier == 2 && t.tbState .ux 0 != 0 && t.bit .ux Reg.TIME_STAT_EPOCH_TAI && t.timeCapable j then t.draw.2.rootSlew (signed 32 t.draw.1.toNat) else t.rootIdle

theorem sel_refSelect (hj : j < 8) : (s.refSelect j).get .ux Reg.UX_REF_STAT_SEL = j := by
  unfold State.refSelect
  by_cases hs : s.get .ux Reg.UX_REF_STAT_SEL = j
  · rw [if_pos hs, hs]
  · rw [if_neg hs]
    have h0 : Writes .ux rootFlds (s.put .ux Reg.UX_REF_STAT_SEL j) (s.selTaken j) := by
      unfold State.selTaken
      exact .ite (((Writes.refl ..).log ..).draw.rootSlew _) (((Writes.refl ..).log ..).rootIdle)
    refine (h0.get _ (by decide) (by decide)).trans ((get_put_same _ _ _ _ (by decide) (by decide)).trans ?_)
    exact Nat.mod_eq_of_lt hj

theorem sel_dpllSeek (code : Nat) (hj : j < 8) : (s.dpllSeek code j).get .ux Reg.UX_REF_STAT_SEL = j :=
  ((dpllSeek_tail s j code).get _ (by decide) (by decide)).trans (sel_refSelect _ j hj)

/-- A candidate of the priority table is one of eight. -/
theorem wtrDue_lt (h : s.wtrDue = some j) : j < 8 := by
  unfold State.wtrDue at h
  split at h
  · have hm := List.mem_of_find?_eq_some h
    simp only [State.prioList, List.mem_filterMap, Option.ite_none_right_eq_some, Option.some.injEq] at hm
    obtain ⟨e, -, -, rfl⟩ := hm
    exact Nat.mod_lt _ (by decide)
  · cases h
end

/-! ### The acquisition timeout -/

/-- An acquisition that took too long is flagged once (R72). -/
def State.acqLate (s : State) : State := s.modUx (fun u => { u with dpll := { u.dpll with alarmAcq := true } })

theorem exec_acqTimeout (s : State) (h : s.dpllState = 1 ∨ s.dpllState = 3) (ha : s.ux.dpll.alarmAcq = false) : exec .acqTimeout s = .next ((s.acqLate.dpllAlarm Reg.UX_REF_STAT_ACQ_TIMEOUT).dcoLoop) :=
  congrArg Host.Outcome.next (if_pos (by simp [h, ha]))

theorem acqTimeout_leaves (s : State) : let u := (s.acqLate.dpllAlarm Reg.UX_REF_STAT_ACQ_TIMEOUT).dcoLoop
    u.bit .ux Reg.UX_REF_STAT_ACQ_TIMEOUT = true ∧ u.ux.dpll.alarmAcq = true ∧ u.dpllState = s.dpllState ∧ u.el = s.el ∧ ∃ d es, Logged .ux s u ((0x45, 0x1036, 0, d) :: es) := by
  intro u
  have hall : Writes .ux (Reg.UX_REF_STAT_ACQ_TIMEOUT :: dcoFlds) s u := (((Writes.refl ..).modUx _).dpllAlarm _).dcoLoop
  have hput : Writes .ux dcoFlds (s.acqLate.put .ux Reg.UX_REF_STAT_ACQ_TIMEOUT 1) u := (((Writes.refl ..).log ..).replaceSet _).dcoLoop
  have hd : u.chipData.dpll.alarmAcq = true := by
    rw [chipData_dcoLoop, chipData_dpllAlarm]
    rfl
  refine ⟨?_, hd, hall.get _ (by decide) (by decide), hall.el rfl, ?_⟩
  · rw [hput.bit _, State.bit, get_put_same _ _ _ _ (by decide) (by decide)]
    rfl
  · obtain ⟨es, he⟩ := exists_logged_of_keeps .ux (keeps_dcoLoop (keeps_replaceSet (k := 2) (keeps_refl ((s.acqLate.put .ux Reg.UX_REF_STAT_ACQ_TIMEOUT 1).log .ux 0x45 0x1036 0
      ((s.acqLate.put .ux Reg.UX_REF_STAT_ACQ_TIMEOUT 1).get .ux Reg.UX_REF_STAT_DCO_LIMIT * 4 + (s.acqLate.put .ux Reg.UX_REF_STAT_ACQ_TIMEOUT 1).get .ux Reg.UX_REF_STAT_ACQ_TIMEOUT * 2
        + (s.acqLate.put .ux Reg.UX_REF_STAT_ACQ_TIMEOUT 1).get .ux Reg.UX_REF_STAT_TDC_FAIL)))))
    exact ⟨_, es, (logged_log (s := s) _ _ _ _ (events_put s.acqLate .ux .ux _ _)).trans he⟩

theorem exec_wtrExpiry (s : State) {k since : Nat} {rest : List (Nat × Nat)} (h : s.ux.dpll.wtr = (k, since) :: rest) :
    exec .wtrExpiry s = .next ((s.modUx (fun u => { u with dpll := { u.dpll with wtr := rest, wtrDone := u.dpll.wtrDone ++ [k] } })).wtrSwitch) := by
  show Host.Outcome.next (match s.ux.dpll.wtr with | (k, _) :: rest => _ | [] => s) = _
  rw [h]

/-- Settles O17: lock, timeout and expiry, by what each leaves of the DPLL's registers and data. -/
theorem referenceLock : Obligations.ReferenceLock := by
  intro f c s sel
  refine ⟨fun h => ?_, fun h1 h3 => ⟨if_neg (by simp [h1, h3]), congrArg Host.Outcome.next (if_neg (by simp [h1, h3]))⟩, fun h ha => ⟨_, exec_acqTimeout s h ha, acqTimeout_leaves s⟩,
    fun ha => congrArg Host.Outcome.next (if_neg (by simp [ha])), fun hw => ?_, fun k since rest hw => ⟨fun j hl hd => ?_, fun h => ?_, fun h => ?_⟩⟩
  · have hx := exec_dpllLocked s f c h
    have hall := timeLocked_all s sel f.toInt (c % hxtMod)
    obtain ⟨es, he⟩ := logged_timeLocked s sel f.toInt (c % hxtMod)
    have hr : Writes .ux seekFlds (s.timeLocked sel f.toInt (c % hxtMod))
        (if (s.timeLocked sel f.toInt (c % hxtMod)).wtrDue.isSome then (s.timeLocked sel f.toInt (c % hxtMod)).wtrSwitch else (s.timeLocked sel f.toInt (c % hxtMod)).refResolve) :=
      .ite (Writes.refl ..).wtrSwitch (Writes.refl ..).refResolve
    have hk : Keeps (s.timeLocked sel f.toInt (c % hxtMod))
        (if (s.timeLocked sel f.toInt (c % hxtMod)).wtrDue.isSome then (s.timeLocked sel f.toInt (c % hxtMod)).wtrSwitch else (s.timeLocked sel f.toInt (c % hxtMod)).refResolve) := by
      split
      · exact keeps_wtrSwitch (keeps_refl _)
      · exact keeps_refResolve (keeps_refl _)
    obtain ⟨fs, hf⟩ := exists_logged_of_keeps .ux hk
    refine ⟨_, hx, (hr.el rfl).trans (hall.el rfl), ⟨es ++ fs, he.trans hf⟩, fun hm hq hd => ?_⟩
    have hsel := hall.get Reg.UX_REF_STAT_SEL (by decide) (by decide)
    have hnone : (s.timeLocked sel f.toInt (c % hxtMod)).wtrDue = none := by
      rw [wtrDue_of_writes hall (chipData_timeLocked ..), hd]
    have h2 : (s.timeLocked sel f.toInt (c % hxtMod)).dpllState = 2 :=
      ((timeLocked_writes s sel f.toInt (c % hxtMod)).get _ (by decide) (by decide)).trans (dpllState_loopLocked s sel f.toInt)
    have hq' : (s.timeLocked sel f.toInt (c % hxtMod)).candQual ((s.timeLocked sel f.toInt (c % hxtMod)).get .ux Reg.UX_REF_STAT_SEL) = true := by
      rw [hsel, hall.candQual]
      exact hq
    rw [hnone, Option.isSome_none, if_neg (by decide), refResolve_of_locked _ h2 ((hall.get _ (by decide) (by decide)).trans hm) hq']
    exact ⟨h2, fun ht h0 htr => timeLocked_first s sel f.toInt (Nat.mod_lt _ (by decide)) ht h0 rfl htr⟩
  · show Host.Outcome.next (match s.ux.dpll.wtr with | (k, _) :: rest => _ | [] => s) = _
    rw [hw]
  · have hx := exec_wtrExpiry s hw
    rw [State.wtrSwitch, hd] at hx
    exact ⟨_, hx.trans (congrArg Host.Outcome.next (if_pos hl)), dpllState_dpllSeek _ j 3, sel_dpllSeek _ j 3 (wtrDue_lt _ j hd), wtrDone_dpllSeek _ j 3, ((Writes.refl .ux seekFlds _).dpllSeek 3 j).el rfl⟩
  · have hx := exec_wtrExpiry s hw
    rw [hx, State.wtrSwitch]
    split
    · next k' hd =>
      refine congrArg Host.Outcome.next (if_neg ?_)
      rcases h with h | h
      · exact h
      · rw [hd] at h
        cases h
    · rfl
  · apply wtrDue_off
    exact h

end Sys2Proof.Machine

/-! SUPPORT. The root's start and its time of day (R49, R66, R78, R79). -/

namespace Sys2Proof.Machine

set_option Elab.async false

/-! ### What a comparison of an edge with TB0 writes (R79, R81) -/

section
variable {W : List Fld} {s t : State}

theorem Writes.ppsCompare (h : Writes .ux W s t) (n : Nat) (hW : traceFlds ⊆ W := by decide) : Writes .ux W s (t.ppsCompare n) := by
  have hr : rootFlds ⊆ W := fun f hf => hW (List.mem_append_left _ hf)
  unfold State.ppsCompare
  exact .ite ((h.rootFollow n _ hr).refTraceAt _ hW) ((h.rootFollow n _ hr).refTrace hW)

@[simp] theorem chipData_ppsCompare (s : State) (n : Nat) : (s.ppsCompare n).chipData = s.chipData := by
  unfold State.ppsCompare
  exact chipData_ite ((chipData_refTraceAt ..).trans (chipData_rootFollow ..)) ((chipData_refTrace ..).trans (chipData_rootFollow ..))

/-- Registers outside a list that covers the footprint. -/
theorem Writes.regsBut {ex : List (Part × Nat)} (h : Writes .ux W s t) (hW : ∀ f ∈ W, (Part.ux, f.off) ∈ ex) : RegsBut ex s t := by
  intro p off ho
  cases p
  · unfold State.reg State.base
    rw [h.el rfl]
  · refine h.reg off (List.all_eq_true.mpr fun f hf => ?_)
    have hne : f.off ≠ off := fun e => ho (e ▸ hW f hf)
    simp [Fld.apart, wholeReg, hne]

theorem RegsBut.trans {ex : List (Part × Nat)} {u : State} (h : RegsBut ex s t) (k : RegsBut ex t u) : RegsBut ex s u := fun p o ho => (k p o ho).trans (h p o ho)
end

/-- A whole register counted one further. -/
theorem fset_whole_succ (w : Word) : fset w 63 0 (fget w 63 0 + 1) = w + 1 := by
  have hz : w.toNat >>> (63 + 1) = 0 := by
    rw [Nat.shiftRight_eq_div_pow]
    exact Nat.div_eq_of_lt w.isLt
  have hw := w.isLt
  have h1 : (1 : Word).toNat = 1 := rfl
  unfold fset fget
  rw [hz]
  apply BitVec.eq_of_toNat_eq
  simp only [BitVec.toNat_ofNat, BitVec.toNat_add, Nat.shiftRight_zero, Nat.pow_zero, Nat.mod_one, Nat.zero_or, Nat.shiftLeft_zero, Nat.zero_shiftLeft, Nat.or_zero, h1, Nat.sub_zero]
  omega

/-! ### The root's start (R78) -/

section
variable (s : State)

theorem rootStep_leaves : let u := s.rootStep 0 false
    u.tbNow .ux 0 = 0 ∧ u.tbState .ux 0 = 2 ∧ u.bit .ux Reg.TIME_STAT_EPOCH_TAI = false ∧ u.el = s.el := by
  intro u
  have hl : Writes .ux (lockFlds 0) ((s.tbStep .ux 0 0).put .ux Reg.TIME_STAT_EPOCH_TAI 0) u := (Writes.refl ..).tbLock 0
  refine ⟨tbNow_rootStep s (by decide) false, get_tbLock_stat _ _ (by decide), ?_, ((Writes.refl .ux rootFlds s).rootStep 0 false).el rfl⟩
  rw [hl.bit _, State.bit, get_put_same _ _ _ _ (by decide) (by decide)]
  rfl

/-! ### Edges (R66) -/

/-- The second an edge takes from what was written. -/
def State.todTaken (s : State) (n v : Nat) : State :=
  ((s.setReg .ux (Reg.UX_REF_IN_TOD_SEC n).off (BitVec.ofNat 64 v)).put .ux (Reg.UX_REF_IN_STAT_TOD_VALID n) 1).modUx (fun u => { u with todNext := tput 0 u.todNext n 0 })

/-- A late write's skip is used up. -/
def State.todSkipped (s : State) (n : Nat) : State := s.modUx (fun u => { u with todSkip := tput 0 u.todSkip n 0 })

/-- The second counts on. -/
def State.todCounted (s : State) (n : Nat) : State :=
  (s.todSkipped n).put .ux (Reg.UX_REF_IN_TOD_SEC n) ((s.todSkipped n).get .ux (Reg.UX_REF_IN_TOD_SEC n) + 1)

variable (n : Fin 4)

theorem exec_ppsEdge (ht : s.tier = 2) (hty : s.get .ux (Reg.UX_REF_IN_CFG_TYPE n) = 0) (hen : s.bit .ux (Reg.UX_REF_IN_CFG_EN n) = true) :
    exec (.ppsEdge n) s = .next (if tget 0 s.ux.todNext n ≠ 0 ∧ tget 0 s.ux.todSkip n = 0 then (s.todTaken n (tget 0 s.ux.todNext n - 1)).ppsCompare n
      else if s.bit .ux (Reg.UX_REF_IN_STAT_TOD_VALID n) = true ∧ tget 0 s.ux.todNext n = 0 then (s.todCounted n).ppsCompare n else s.todSkipped n) := by
  refine (if_neg (by simp [ht, hty, hen])).trans ?_
  by_cases h1 : tget 0 s.ux.todNext n ≠ 0 ∧ tget 0 s.ux.todSkip n = 0
  · rw [if_pos h1]
    exact if_pos (by simpa using h1)
  · rw [if_neg h1]
    refine (if_neg (by simpa using h1)).trans (congrArg Host.Outcome.next ?_)
    by_cases h2 : s.bit .ux (Reg.UX_REF_IN_STAT_TOD_VALID n) = true ∧ tget 0 s.ux.todNext n = 0
    · rw [if_pos h2]
      exact if_pos (show (s.bit .ux (Reg.UX_REF_IN_STAT_TOD_VALID n) && tget 0 s.ux.todNext n == 0) = true by simpa using h2)
    · rw [if_neg h2]
      exact if_neg (show ¬ (s.bit .ux (Reg.UX_REF_IN_STAT_TOD_VALID n) && tget 0 s.ux.todNext n == 0) = true by simpa using h2)

theorem tod_flds_clear : ∀ n : Fin 4, Fld.clear traceFlds (wholeReg (Reg.UX_REF_IN_TOD_SEC n).off) = true ∧ Fld.clear traceFlds (Reg.UX_REF_IN_STAT_TOD_VALID n) = true := by decide

theorem todTaken_leaves (v : Nat) : let u := (s.todTaken n v).ppsCompare n
    u.reg .ux (Reg.UX_REF_IN_TOD_SEC n).off = BitVec.ofNat 64 v ∧ u.bit .ux (Reg.UX_REF_IN_STAT_TOD_VALID n) = true ∧ tget 0 u.ux.todNext n = 0 ∧ u.el = s.el := by
  intro u
  have hw : Writes .ux traceFlds (s.todTaken n v) u := (Writes.refl ..).ppsCompare n
  have hd : u.chipData = (s.todTaken n v).chipData := chipData_ppsCompare ..
  have hnext : u.ux.todNext = (s.todTaken n v).ux.todNext := show u.chipData.todNext = (s.todTaken n v).chipData.todNext by rw [hd]
  refine ⟨?_, ?_, ?_, hw.el rfl⟩
  · rw [hw.reg _ (tod_flds_clear n).1, State.todTaken, reg_modUx _ _ _ _ rfl, reg_put, if_neg (by simp only [Reg.UX_REF_IN_TOD_SEC, Reg.UX_REF_IN_STAT_TOD_VALID]; omega), reg_setReg_same]
  · rw [hw.bit _ ⟨le_refl _, show 3 < 64 by decide⟩ (tod_flds_clear n).2]
    have hm : Writes .ux [] ((s.setReg .ux (Reg.UX_REF_IN_TOD_SEC n).off (BitVec.ofNat 64 v)).put .ux (Reg.UX_REF_IN_STAT_TOD_VALID n) 1) (s.todTaken n v) := (Writes.refl ..).modUx _
    rw [hm.bit _ ⟨le_refl _, show 3 < 64 by decide⟩ rfl, State.bit, get_put_same _ _ _ _ (show 3 < 64 by decide) (le_refl _)]
    rfl
  · rw [hnext]
    exact tget_tput_same 0 _ n.val 0

theorem todCounted_leaves : let u := (s.todCounted n).ppsCompare n
    u.reg .ux (Reg.UX_REF_IN_TOD_SEC n).off = s.reg .ux (Reg.UX_REF_IN_TOD_SEC n).off + 1 ∧ u.el = s.el
      ∧ RegsBut ((Part.ux, (Reg.UX_REF_IN_TOD_SEC n).off) :: traceFlds.map (fun f => (Part.ux, f.off))) s u := by
  intro u
  have hw : Writes .ux traceFlds (s.todCounted n) u := (Writes.refl ..).ppsCompare n
  have hc : Writes .ux [Reg.UX_REF_IN_TOD_SEC n] s (s.todCounted n) := ((Writes.refl ..).modUx _).put _ _ (List.mem_singleton_self _) ⟨Nat.zero_le _, show 63 < 64 by decide⟩
  refine ⟨?_, (hw.el rfl).trans (hc.el rfl), (hc.regsBut ?_).trans (hw.regsBut ?_)⟩
  · rw [hw.reg _ (tod_flds_clear n).1, State.todCounted, reg_put, if_pos rfl]
    exact fset_whole_succ _
  · simp
  · intro f hf
    exact List.mem_cons_of_mem _ (List.mem_map_of_mem hf)
end

/-- Settles O18: the root's start, the written second, and an edge by what it finds written. -/
theorem rootTime : Obligations.RootTime := by
  intro n sec late s
  refine ⟨fun c hc => ⟨fun ht h0 => ?_, fun ht => ?_⟩, fun ht h0 => ⟨⟨s.tbStepRefused .ux 0, ?_, core_log .., logged_log _ _ _ _ (events_put ..)⟩, ?_⟩, rfl, fun h => ?_, fun ht hty hen => ?_⟩
  · refine ⟨s.rootStep 0 false, ?_, rootStep_leaves s⟩
    rcases hc with rfl | rfl
    · exact congrArg Host.Outcome.next ((if_neg (by simp [ht])).trans (if_pos h0))
    · exact congrArg Host.Outcome.next (if_pos (by simp [ht, h0]))
  · rcases hc with rfl | rfl
    · exact congrArg Host.Outcome.next (if_pos (by simp [ht]))
    · exact congrArg Host.Outcome.next (if_neg (by simp [ht]))
  · exact congrArg Host.Outcome.next ((if_neg (by simp [ht])).trans (if_neg h0))
  · exact congrArg Host.Outcome.next (if_neg (by simp [h0]))
  · exact if_pos (by simpa [or_assoc] using h)
  · have hx := exec_ppsEdge s n ht hty hen
    refine ⟨fun v hv hk => ⟨_, hx, ?_⟩, fun hv hk => ?_, fun hv hb => ⟨_, hx, ?_⟩, fun hv hb => ?_⟩
    · rw [if_pos ⟨by omega, hk⟩, hv]
      exact todTaken_leaves s n v
    · rw [hx, if_neg (fun h => hk h.2), if_neg (fun h => hv h.2)]
      rfl
    · rw [if_neg (fun h => h.1 hv), if_pos ⟨hb, hv⟩]
      obtain ⟨h1, h2, h3⟩ := todCounted_leaves s n
      refine ⟨h1, h2, fun p o ho => h3 p o (fun hm => ho ?_)⟩
      have hsub : ∀ f ∈ traceFlds, (Part.ux, f.off) ∈ ([Reg.UX_REF_STAT_SEL, Reg.UX_REF_TAIOFS_SEC_SEC, Reg.UX_REF_TAIOFS_NSF_NS, Reg.TIME_STAT_EPOCH_TAI, Reg.TB_STAT_STATE 0,
        Reg.TB_OFS_SEC_SEC 0, Reg.TB_OFS_NSF_NS 0, Reg.TB_ANCHOR_LO_ANCHOR_LO 0, Reg.TB_ANCHOR_HI_ANCHOR_HI 0, Reg.TB_RATE_RATE 0].map (·.off)).map (fun o => (Part.ux, o)) := by decide
      rcases List.mem_cons.mp hm with hm | hm
      · exact List.mem_cons.mpr (.inl hm)
      · obtain ⟨f, hf, he⟩ := List.mem_map.mp hm
        rw [← he]
        exact List.mem_cons_of_mem _ (hsub f hf)
    · rw [hx, if_neg (fun h => h.1 hv), if_neg (fun h => by simp [hb] at h)]
      rfl

end Sys2Proof.Machine

/-! SUPPORT. The PTP ports of the root (R64, R65, R68 to R70). -/

namespace Sys2Proof.Machine

set_option Elab.async false

/-! ### What leaves the ports' own data -/

section
variable (s : State) (j : Nat)

theorem tpSent_of_chipData {s t : State} (h : t.chipData = s.chipData) : t.ux.tpSent = s.ux.tpSent := show t.chipData.tpSent = s.chipData.tpSent by rw [h]

theorem ptp_of_chipData {s t : State} (h : t.chipData = s.chipData) : t.ux.ptp = s.ux.ptp := show t.chipData.ptp = s.chipData.ptp by rw [h]

theorem tpSent_dpllSeek (code : Nat) : (s.dpllSeek code j).ux.tpSent = s.ux.tpSent := by
  have h1 := tpSent_of_chipData (chipData_refSelect (s.put .ux Reg.UX_REF_STAT_STATE code) j)
  rw [dpllSeek_eq, tpSent_of_chipData (chipData_uxAclk _), tpSent_of_chipData (chipData_refTrace _)]
  exact h1

/-- The timers of a DPLL that runs free (R75). -/
def State.freeTimers (s : State) : State :=
  ((s.put .ux Reg.UX_REF_STAT_STATE 0).logI .ux 0x45 0x1035 0 s.dcoFree).modUx (fun u => { u with dpll := { u.dpll with wtr := [], wtrDone := [], alarmAcq := false } })

theorem tpSent_dpllFree : s.dpllFree.ux.tpSent = s.ux.tpSent := by
  have h : s.dpllFree.chipData = s.freeTimers.chipData := by
    unfold State.dpllFree State.dcoApply
    exact (chipData_uxAclk _).trans ((chipData_refTrace _).trans ((chipData_rootIdle _).trans (chipData_dcoSet ..)))
  rw [tpSent_of_chipData h]
  rfl

theorem tpSent_refResolve : s.refResolve.ux.tpSent = s.ux.tpSent := by
  have hs := fun code k => tpSent_dpllSeek s k code
  have hf := tpSent_dpllFree s
  have ite : ∀ (c : Prop) [Decidable c] (a b : State), a.ux.tpSent = s.ux.tpSent → b.ux.tpSent = s.ux.tpSent → (if c then a else b).ux.tpSent = s.ux.tpSent := by
    intro c _ a b ha hb
    split
    · exact ha
    · exact hb
  unfold State.refResolve
  dsimp only
  split
  · split
    · split
      · exact hs ..
      · rfl
    · refine ite _ _ _ rfl ?_
      split
      · exact hs ..
      · exact hf
  · exact ite _ _ _ (ite _ _ _ (hs ..) (ite _ _ _ rfl (ite _ _ _ (hs ..) (ite _ _ _ rfl (hs ..))))) (ite _ _ _ rfl hf)
  · exact ite _ _ _ rfl hf

theorem tpSent_candGone (monitor : Nat) : (s.candGone j monitor).ux.tpSent = s.ux.tpSent := by
  have hput : (s.candPut j false false).ux.tpSent = s.ux.tpSent := by
    refine tpSent_of_chipData ?_
    unfold State.candPut
    exact chipData_ite (by simp) (chipData_ite (by simp) (by simp))
  show ((s.candPut j false false).lostShown j).ux.tpSent = _
  rw [← hput]
  unfold State.lostShown
  split
  · exact tpSent_of_chipData (by simp)
  split
  · show ((s.candPut j false false).put .ux (Reg.UX_TP_STAT_LOST (j - 4)) 1).ux.tpSent = _
    exact tpSent_of_chipData (chipData_put ..)
  · rfl

theorem tpSent_candLost (monitor : Nat) : (s.candLost j monitor).ux.tpSent = s.ux.tpSent := by
  by_cases hv : s.candValid j = true
  · rw [candLost_of_valid s j monitor hv]
    have hw : ((s.candGone j monitor).wtrStop j).ux.tpSent = (s.candGone j monitor).ux.tpSent := by
      unfold State.wtrStop
      split <;> rfl
    rw [tpSent_of_chipData (chipData_refTrace _), tpSent_refResolve, hw, tpSent_candGone]
  · rw [candLost_of_not s j monitor (by simpa using hv)]
end


/-! ### A message of a port that is on (R68) -/

section
variable (s : State) (port : Fin 2) (m : PtpMsg)

/-- The port shows its link up. -/
def State.portUp (s : State) (port : Nat) : State := s.put .ux (Reg.UX_TP_STAT_LINK_UP port) 1

/-- The message is of the port's domain and transport, and PTP is enabled. -/
def State.ptpHeard (s : State) (port : Nat) (m : PtpMsg) : Prop :=
  s.bit .ux (Reg.UX_TP_CFG_PTP_EN port) = true ∧ m.domain.toNat = s.get .ux (Reg.UX_TP_CFG_DOMAIN port) ∧ m.transport.toNat = s.get .ux (Reg.UX_TP_CFG_TRANSPORT port)

theorem portUp_writes : Writes .ux [Reg.UX_TP_STAT_LINK_UP port] s (s.portUp port) := (Writes.refl ..).put _ _ (List.mem_singleton_self _) ⟨le_refl _, show 6 < 64 by decide⟩

/-- The fields of a port's configuration. -/
theorem tpCfg_clear : ∀ port : Fin 2, ∀ f ∈ [Reg.UX_TP_CFG_PTP_EN port, Reg.UX_TP_CFG_DOMAIN port, Reg.UX_TP_CFG_TRANSPORT port, Reg.UX_TP_CFG_SYNCE_EN port, Reg.UX_TP_CFG_QL_MIN port, Reg.UX_TP_CFG_ASYM port,
    Reg.UX_REF_CTRL_QL_EN], (f.lo ≤ f.hi ∧ f.hi < 64) ∧ Fld.clear [Reg.UX_TP_STAT_LINK_UP port] f = true := by decide

variable {s port m}

theorem get_portUp {f : Fld} (hf : f ∈ [Reg.UX_TP_CFG_PTP_EN port, Reg.UX_TP_CFG_DOMAIN port, Reg.UX_TP_CFG_TRANSPORT port, Reg.UX_TP_CFG_SYNCE_EN port, Reg.UX_TP_CFG_QL_MIN port, Reg.UX_TP_CFG_ASYM port,
    Reg.UX_REF_CTRL_QL_EN]) : (s.portUp port).get .ux f = s.get .ux f := (portUp_writes s port).get f (tpCfg_clear port f hf).1 (tpCfg_clear port f hf).2

theorem exec_ptpMessage (ht : s.tier = 2) (hp : s.bit .ux (Reg.UX_TP_CFG_PORT_EN port) = true) (hu : m.body ≠ .unsupported) (he : ∀ ql, m.body ≠ .esmc ql) :
    (s.ptpHeard port m → exec (.ptpMessage port m) s = .next ((s.portUp port).ptpTake port m.sender m.body))
    ∧ (¬ s.ptpHeard port m → exec (.ptpMessage port m) s = .next (s.portUp port)) := by
  have h1 : (s.portUp port).bit .ux (Reg.UX_TP_CFG_PTP_EN port) = s.bit .ux (Reg.UX_TP_CFG_PTP_EN port) := by
    unfold State.bit
    rw [get_portUp (by simp)]
  have h2 := get_portUp (s := s) (port := port) (f := Reg.UX_TP_CFG_DOMAIN port) (by simp)
  have h3 := get_portUp (s := s) (port := port) (f := Reg.UX_TP_CFG_TRANSPORT port) (by simp)
  have hx : exec (.ptpMessage port m) s = .next (if (s.portUp port).bit .ux (Reg.UX_TP_CFG_PTP_EN port) && m.domain.toNat == (s.portUp port).get .ux (Reg.UX_TP_CFG_DOMAIN port)
      && m.transport.toNat == (s.portUp port).get .ux (Reg.UX_TP_CFG_TRANSPORT port) then (s.portUp port).ptpTake port m.sender m.body else s.portUp port) := by
    refine (if_neg (by simp [ht, hp])).trans ?_
    show (match m.body with | .unsupported => _ | .esmc ql => _ | b => _) = _
    split
    · next hb => exact absurd hb hu
    · next ql hb => exact absurd hb (he ql)
    · rfl
  rw [h1, h2, h3] at hx
  unfold State.ptpHeard
  refine ⟨fun ⟨a, b, c⟩ => hx.trans (congrArg Host.Outcome.next (if_pos (by simp [a, b, c]))), fun h => hx.trans (congrArg Host.Outcome.next (if_neg ?_))⟩
  simp only [Bool.and_eq_true, beq_iff_eq, and_assoc]
  exact h

theorem exec_esmc (ht : s.tier = 2) (hp : s.bit .ux (Reg.UX_TP_CFG_PORT_EN port) = true) {ql : BitVec 4} (hb : m.body = .esmc ql) :
    exec (.ptpMessage port m) s = .next (if s.bit .ux (Reg.UX_TP_CFG_SYNCE_EN port) then (((s.portUp port).put .ux (Reg.UX_TP_STAT_QL_RX port) ql.toNat).sendDnu port).qlCheck port else s.portUp port) := by
  have h1 : (s.portUp port).bit .ux (Reg.UX_TP_CFG_SYNCE_EN port) = s.bit .ux (Reg.UX_TP_CFG_SYNCE_EN port) := by
    unfold State.bit
    rw [get_portUp (by simp)]
  rw [← h1]
  refine (if_neg (by simp [ht, hp])).trans ?_
  show (match m.body with | .unsupported => _ | .esmc ql => _ | b => _) = _
  rw [hb]
  rfl

/-- What an ESMC message leaves (R65, R70). -/
def State.esmcTaken (s : State) (port : Nat) (ql : BitVec 4) : State := ((s.portUp port).put .ux (Reg.UX_TP_STAT_QL_RX port) ql.toNat).sendDnu port

theorem Writes.candLost {W : List Fld} {s t : State} (h : Writes .ux W s t) (k : Fin 8) (monitor : Nat) (hW : candFlds k ++ lostFlds k ++ seekFlds ⊆ W) : Writes .ux W s (t.candLost k monitor) := by
  by_cases hv : t.candValid k = true
  · rw [candLost_of_valid t k monitor hv]
    have h1 := h.candPut k false false (fun f hf => hW (List.mem_append_left _ (List.mem_append_left _ hf)))
    have h2 := h1.trans ((candGone_writes t k monitor).mono (fun f hf => hW (List.mem_append_left _ (List.mem_append_right _ hf))))
    exact h2.trans ((candLost_leaves t k monitor).mono (fun f hf => hW (List.mem_append_right _ hf)))
  · rw [candLost_of_not t k monitor (by simpa using hv)]
    exact h

theorem candValid_candLost (s : State) (k : Fin 8) (monitor : Nat) : (s.candLost k monitor).candValid k = false := by
  by_cases hv : s.candValid k = true
  · have hl : ∀ k : Fin 8, Fld.clear (lostFlds k) Reg.UX_REF_STAT_VALID = true := by decide
    rw [candLost_of_valid s k monitor hv, (candLost_leaves s k monitor).candValid k, (candGone_writes s k monitor).candValid k (hl k), candValid_candPut]
  · rw [candLost_of_not s k monitor (by simpa using hv)]
    simpa using hv

theorem esmc_leaves (s : State) (port : Fin 2) (ql : BitVec 4) : let u := (s.esmcTaken port ql).qlCheck port
    u.get .ux (Reg.UX_TP_STAT_QL_RX port) = ql.toNat ∧ u.el = s.el ∧ u.ux.tpSent = s.ux.tpSent ++ [.esmc port 15]
      ∧ (s.bit .ux Reg.UX_REF_CTRL_QL_EN = true → s.get .ux (Reg.UX_TP_CFG_QL_MIN port) < ql.toNat → u.candValid (4 + port.val) = false) := by
  intro u
  have hport : 4 + port.val < 8 := by omega
  have hall : Writes .ux [Reg.UX_TP_STAT_LINK_UP port, Reg.UX_TP_STAT_QL_RX port] s (s.esmcTaken port ql) :=
    (((portUp_writes s port).mono (List.cons_subset_cons _ (List.nil_subset _))).put (Reg.UX_TP_STAT_QL_RX port) _ (List.mem_cons_of_mem _ (List.mem_singleton_self _))
      ⟨show 12 ≤ 15 by decide, show 15 < 64 by decide⟩).modUx (fun u => { u with tpSent := u.tpSent ++ [.esmc port 15] })
  have hql : (s.esmcTaken port ql).get .ux (Reg.UX_TP_STAT_QL_RX port) = ql.toNat := by
    have hm : Writes .ux [] ((s.portUp port).put .ux (Reg.UX_TP_STAT_QL_RX port) ql.toNat) (s.esmcTaken port ql) :=
      (Writes.refl ..).modUx (fun u => { u with tpSent := u.tpSent ++ [.esmc port 15] })
    rw [hm.get _ ⟨show 12 ≤ 15 by decide, show 15 < 64 by decide⟩ rfl, get_put_same _ _ _ _ (show 15 < 64 by decide) (show 12 ≤ 15 by decide)]
    exact Nat.mod_eq_of_lt ql.isLt
  have hw : Writes .ux (candFlds (⟨4 + port, hport⟩ : Fin 8) ++ lostFlds (⟨4 + port, hport⟩ : Fin 8) ++ seekFlds) (s.esmcTaken port ql) u := by
    show Writes _ _ _ (State.qlCheck _ _)
    unfold State.qlCheck
    exact .ite ((Writes.refl ..).candLost ⟨4 + port, hport⟩ 2 (List.Subset.refl _)) (Writes.refl ..)
  have hclear : ∀ (port : Fin 2) (k : Fin 8), k.val = 4 + port.val → Fld.clear (candFlds k ++ lostFlds k ++ seekFlds) (Reg.UX_TP_STAT_QL_RX port) = true := by decide
  refine ⟨(hw.get _ ⟨show 12 ≤ 15 by decide, show 15 < 64 by decide⟩ (hclear port _ rfl)).trans hql, (hw.el rfl).trans (hall.el rfl), ?_, fun hen hmin => ?_⟩
  · have hs : (s.esmcTaken port ql).ux.tpSent = s.ux.tpSent ++ [.esmc port 15] := by
      show ((s.portUp port).put .ux (Reg.UX_TP_STAT_QL_RX port) ql.toNat).ux.tpSent ++ _ = _
      have h : ((s.portUp port).put .ux (Reg.UX_TP_STAT_QL_RX port) ql.toNat).ux.tpSent = s.ux.tpSent := tpSent_of_chipData ((chipData_put ..).trans (chipData_put ..))
      rw [h]
    rw [← hs]
    show (State.qlCheck _ _).ux.tpSent = _
    unfold State.qlCheck
    split
    · exact tpSent_candLost ..
    · rfl
  · have hbad : (s.esmcTaken port ql).qlBad port = true := by
      have hc : ∀ port : Fin 2, Fld.clear [Reg.UX_TP_STAT_LINK_UP port, Reg.UX_TP_STAT_QL_RX port] Reg.UX_REF_CTRL_QL_EN = true
          ∧ Fld.clear [Reg.UX_TP_STAT_LINK_UP port, Reg.UX_TP_STAT_QL_RX port] (Reg.UX_TP_CFG_QL_MIN port) = true ∧ (Reg.UX_TP_CFG_QL_MIN port).lo ≤ (Reg.UX_TP_CFG_QL_MIN port).hi ∧ (Reg.UX_TP_CFG_QL_MIN port).hi < 64 := by decide
      unfold State.qlBad
      rw [hall.bit _ (by decide) (hc port).1, hall.get _ (hc port).2.2 (hc port).2.1, hql, hen]
      simpa using hmin
    show (State.qlCheck _ _).candValid _ = _
    unfold State.qlCheck
    rw [if_pos hbad]
    exact candValid_candLost _ ⟨4 + port, hport⟩ 2
end

/-! ### Announce, Sync and Delay_Resp (R68) -/

section
variable (s : State) (port : Fin 2) (sender : Word)

theorem ptpClock_congr {s t : State} (h : t.ux.ptp = s.ux.ptp) (port : Nat) : t.ptpClock port = s.ptpClock port := by
  unfold State.ptpClock
  rw [h]

theorem ptpClock_portUp : (s.portUp port).ptpClock port = s.ptpClock port := rfl

/-- The message comes from the best master known. -/
def State.ptpMine (s : State) (port : Nat) (sender : Word) : Bool :=
  match (s.ptpClock port).master with
  | some d => d.identity == sender
  | none => false

theorem ptpMine_iff : s.ptpMine port sender = true ↔ ∃ d, (s.ptpClock port).master = some d ∧ d.identity = sender := by
  unfold State.ptpMine
  cases (s.ptpClock port).master <;> simp

/-- A better master's dataset taken. -/
def State.masterTaken (s : State) (port : Nat) (d : PtpData) : State :=
  (s.setPtp port { s.ptpClock port with master := some d }).put .ux (Reg.UX_TP_STAT_TRACEABLE port) (if d.traceable then 1 else 0)

theorem ptpTake_announce (d : PtpData) : s.ptpTake port sender (.announce d) =
    if (match (s.ptpClock port).master with | some e => e.identity == d.identity || ptpBetter d e | none => true) then (s.masterTaken port d).refTrace else s := rfl

theorem masterTaken_leaves (d : PtpData) : let u := (s.masterTaken port d).refTrace
    u.ptpClock port = { s.ptpClock port with master := some d } ∧ u.bit .ux (Reg.UX_TP_STAT_TRACEABLE port) = d.traceable ∧ u.el = s.el := by
  intro u
  have hw : Writes .ux traceFlds (s.masterTaken port d) u := (Writes.refl ..).refTrace
  have hc : ∀ port : Fin 2, Fld.clear traceFlds (Reg.UX_TP_STAT_TRACEABLE port) = true := by decide
  have hp : u.ux.ptp = (s.masterTaken port d).ux.ptp := ptp_of_chipData (chipData_refTrace _)
  have hset : (s.masterTaken port d).ux.ptp = tput PtpClock.zero s.ux.ptp port { s.ptpClock port with master := some d } :=
    ptp_of_chipData (chipData_put (s.setPtp port { s.ptpClock port with master := some d }) ..)
  refine ⟨?_, ?_, hw.el rfl⟩
  · rw [ptpClock_congr hp, State.ptpClock, hset]
    exact tget_tput_same ..
  · rw [hw.bit _ ⟨le_refl _, show 7 < 64 by decide⟩ (hc port), State.bit, State.masterTaken, get_put_same _ _ _ _ (show 7 < 64 by decide) (le_refl _)]
    cases d.traceable <;> rfl

theorem ptpTake_sync (seq : BitVec 16) (origin : Option Nat) (h : s.ptpMine port sender = true) : s.ptpTake port sender (.sync seq origin) =
    match origin with
    | some t1 => s.ptpRequest port seq.toNat (s.tbRaw .ux 0 (s.frcSample .ux) 0) t1
    | none => s.setPtp port { s.ptpClock port with sync := some (seq.toNat, s.tbRaw .ux 0 (s.frcSample .ux) 0, none) } := by
  refine (if_neg (show ¬ (!s.ptpMine port sender) = true by simp [h])).trans ?_
  cases origin <;> rfl

theorem ptpTake_sync_not (seq : BitVec 16) (origin : Option Nat) (h : s.ptpMine port sender = false) : s.ptpTake port sender (.sync seq origin) = s :=
  if_pos (show (!s.ptpMine port sender) = true by simp [h])

theorem ptpTake_delayResp {seq : BitVec 16} {n t1 t2 t3 : Nat} (t4 : Nat) (h : s.ptpMine port sender = true) (hs : (s.ptpClock port).sync = some (n, t2, some t1))
    (hr : (s.ptpClock port).req = some (seq.toNat, t3)) : s.ptpTake port sender (.delayResp seq t4) = (s.setPtp port { s.ptpClock port with req := none }).ptpMeasure port t1 t2 t3 t4 := by
  show (match (s.ptpClock port).sync, (s.ptpClock port).req with
    | some (_, t2, some t1), some (q, t3) => if s.ptpMine port sender && q == seq.toNat then (s.setPtp port { s.ptpClock port with req := none }).ptpMeasure port t1 t2 t3 t4 else s
    | _, _ => s) = _
  rw [hs, hr]
  exact if_pos (by simp [h])

/-- What a Sync or a Follow_Up leaves of the clock. -/
def PtpClock.asked (c : PtpClock) (seq t2 t1 t3 : Nat) : PtpClock :=
  { c with sync := some (seq, t2, some t1), req := some ((c.reqSeq + 1) % 2 ^ 16, t3), reqSeq := (c.reqSeq + 1) % 2 ^ 16 }

theorem ptpRequest_leaves (seq t2 t1 : Nat) : let u := s.ptpRequest port seq t2 t1
    u.ptpClock port = (s.ptpClock port).asked seq t2 t1 (s.tbRaw .ux 0 (s.frcSample .ux) 0)
      ∧ u.ux.tpSent = s.ux.tpSent ++ [.delayReq port (((s.ptpClock port).reqSeq + 1) % 2 ^ 16) (s.tbRaw .ux 0 (s.frcSample .ux) 0)] :=
  ⟨tget_tput_same PtpClock.zero s.ux.ptp port _, rfl⟩

theorem now_portUp : (s.portUp port).tbRaw .ux 0 ((s.portUp port).frcSample .ux) 0 = s.tbRaw .ux 0 (s.frcSample .ux) 0 := by
  have hc : ∀ port : Fin 2, ∀ g ∈ rateFlds 0, Fld.clear [Reg.UX_TP_STAT_LINK_UP port] g = true := by decide
  rw [(portUp_writes s port).tbRaw (hc port), (portUp_writes s port).frcSample]

theorem unsigned_lt (n : Nat) (i : Int) : unsigned n i < 2 ^ n := by
  unfold unsigned
  have h1 := Int.emod_lt_of_pos i (by positivity : (0 : Int) < ((2 ^ n : Nat) : Int))
  have h2 := Int.emod_nonneg i (by positivity : ((2 ^ n : Nat) : Int) ≠ 0)
  omega

/-- Offset and mean path show, and what the root follows of them leaves them. -/
theorem ptpMeasure_leaves (t1 t2 t3 t4 : Nat) :
    let mean := roundEven ((hxtDiff t2 t1 + hxtDiff t4 t3) * 1000) (2 * 4294967296)
    let ofs := roundEven ((hxtDiff t2 t1 - hxtDiff t4 t3) * 1000) (2 * 4294967296) - s.getI .ux (Reg.UX_TP_CFG_ASYM port)
    let u := s.ptpMeasure port t1 t2 t3 t4
    u.get .ux (Reg.UX_TP_STAT_OFS_MASTER port) = unsigned 32 (roundEven ofs 1000) ∧ u.get .ux (Reg.UX_TP_STAT_MEAN_PATH port) = unsigned 16 (roundEven mean 1000)
      ∧ u.ux.ptp = s.ux.ptp ∧ u.el = s.el := by
  intro mean ofs u
  let a := s.putI .ux (Reg.UX_TP_STAT_OFS_MASTER port) (roundEven ofs 1000)
  let b := a.putI .ux (Reg.UX_TP_STAT_MEAN_PATH port) (roundEven mean 1000)
  have hw : Writes .ux rootFlds b u := (Writes.refl ..).rootFollow _ _
  have hb : Writes .ux [Reg.UX_TP_STAT_MEAN_PATH port] a b := (Writes.refl ..).putI _ _ (List.mem_singleton_self _) ⟨show 16 ≤ 31 by decide, show 31 < 64 by decide⟩
  have hc : ∀ port : Fin 2, Fld.clear rootFlds (Reg.UX_TP_STAT_OFS_MASTER port) = true ∧ Fld.clear rootFlds (Reg.UX_TP_STAT_MEAN_PATH port) = true
      ∧ Fld.clear [Reg.UX_TP_STAT_MEAN_PATH port] (Reg.UX_TP_STAT_OFS_MASTER port) = true := by decide
  refine ⟨?_, ?_, ptp_of_chipData ((chipData_rootFollow ..).trans ((chipData_putI ..).trans (chipData_putI ..))), hw.el rfl⟩
  · rw [hw.get _ ⟨show 32 ≤ 63 by decide, show 63 < 64 by decide⟩ (hc port).1, hb.get _ ⟨show 32 ≤ 63 by decide, show 63 < 64 by decide⟩ (hc port).2.2]
    refine (get_put_same _ _ _ _ (show 63 < 64 by decide) (show 32 ≤ 63 by decide)).trans ?_
    exact Nat.mod_eq_of_lt (unsigned_lt 32 _)
  · rw [hw.get _ ⟨show 16 ≤ 31 by decide, show 31 < 64 by decide⟩ (hc port).2.1]
    refine (get_put_same _ _ _ _ (show 31 < 64 by decide) (show 16 ≤ 31 by decide)).trans ?_
    exact Nat.mod_eq_of_lt (unsigned_lt 16 _)
end

/-- Settles O19: a message by its body, once the port is on and hears it. -/
theorem ptpPort : Obligations.PtpPort := by
  intro port m s up c mine heard
  refine ⟨fun h => if_pos (by simpa using h), fun ht hp => ⟨fun hb => ?_, fun ql hb => ⟨fun hs => ?_, fun hs => ?_⟩, fun hu he hn => (exec_ptpMessage ht hp hu he).2 hn,
    fun d hb hh => ?_, fun seq origin hb hh => ?_, fun seq t1 t2 t3 t4 n hb hh hm hs hr => ?_⟩⟩
  · refine (if_neg (by simp [ht, hp])).trans ?_
    show (match m.body with | .unsupported => _ | .esmc ql => _ | b => _) = _
    rw [hb]
  · have hx := exec_esmc ht hp hb
    rw [if_pos hs] at hx
    exact ⟨_, hx, esmc_leaves s port ql⟩
  · have hx := exec_esmc ht hp hb
    rwa [if_neg (by simp [hs])] at hx
  · have hx := (exec_ptpMessage ht hp (by simp [hb]) (by simp [hb])).1 hh
    rw [hb, ptpTake_announce] at hx
    refine ⟨fun hbest => ⟨_, hx, ?_⟩, fun e he hne hnot => ?_⟩
    · rw [if_pos ?_]
      · exact masterTaken_leaves _ port d
      · rw [ptpClock_portUp]
        change ∀ e, (s.ptpClock port).master = some e → _ at hbest
        cases hc : (s.ptpClock port).master with
        | none => rfl
        | some e => simpa using hbest e hc
    · rw [hx, if_neg ?_]
      · rfl
      · rw [ptpClock_portUp, show (s.ptpClock port).master = some e from he]
        simp [hne, hnot]
  · have hx := (exec_ptpMessage ht hp (by simp [hb]) (by simp [hb])).1 hh
    rw [hb] at hx
    have hmine : mine ↔ (s.portUp port).ptpMine port m.sender = true := (ptpMine_iff (s.portUp port) port m.sender).symm
    refine ⟨fun hm => ?_, fun hm ho => ⟨_, hx, ?_⟩, fun t1 hm ho => ⟨_, hx, ?_⟩⟩
    · rw [hx, ptpTake_sync_not _ _ _ _ _ (by simpa using fun h => hm (hmine.mpr h))]
      rfl
    · rw [ho, ptpTake_sync _ _ _ _ _ (hmine.mp hm), now_portUp]
      have h : (s.portUp port).ux.tpSent = s.ux.tpSent := tpSent_of_chipData (chipData_put ..)
      exact ⟨tget_tput_same PtpClock.zero (s.portUp port).ux.ptp port _, h⟩
    · rw [ho, ptpTake_sync _ _ _ _ _ (hmine.mp hm), now_portUp]
      have h := ptpRequest_leaves (s.portUp port) port seq.toNat (s.tbRaw .ux 0 (s.frcSample .ux) 0) t1
      rw [now_portUp] at h
      exact h
  · have hx := (exec_ptpMessage ht hp (by simp [hb]) (by simp [hb])).1 hh
    rw [hb, ptpTake_delayResp (s.portUp port) port m.sender t4 ((ptpMine_iff (s.portUp port) port m.sender).mpr hm) hs hr] at hx
    obtain ⟨h1, h2, h3, h4⟩ := ptpMeasure_leaves ((s.portUp port).setPtp port { (s.portUp port).ptpClock port with req := none }) port t1 t2 t3 t4
    have hset : Writes .ux [] (s.portUp port) ((s.portUp port).setPtp port { (s.portUp port).ptpClock port with req := none }) :=
      (Writes.refl ..).modUx (fun u => { u with ptp := tput PtpClock.zero u.ptp port { (s.portUp port).ptpClock port with req := none } })
    have hasym : ((s.portUp port).setPtp port { (s.portUp port).ptpClock port with req := none }).getI .ux (Reg.UX_TP_CFG_ASYM port) = s.getI .ux (Reg.UX_TP_CFG_ASYM port) := by
      rw [hset.getI _ (tpCfg_clear port _ (by simp)).1 rfl]
      unfold State.getI
      rw [get_portUp (by simp)]
    rw [hasym] at h1
    refine ⟨_, hx, h1, h2, ?_, h4⟩
    exact congrArg PtpClock.req ((ptpClock_congr h3 port).trans (tget_tput_same PtpClock.zero (s.portUp port).ux.ptp port _))

end Sys2Proof.Machine

/-! SUPPORT. Footprints over both parts: the fields a chain of lane operations may write, and what it therefore leaves. -/

namespace Sys2Proof.Machine

set_option Elab.async false

/-- A field of a part that shares no bit with any of a list. -/
def Fld.free (W : List (Part × Fld)) (q : Part) (g : Fld) : Prop := ∀ f ∈ W, f.1 = q → f.2.apart g = true

/-- Only the listed fields may read otherwise, and both FRCs stand. -/
structure Touch (W : List (Part × Fld)) (s t : State) : Prop where
  get : ∀ q (g : Fld), g.lo ≤ g.hi ∧ g.hi < 64 → Fld.free W q g → t.get q g = s.get q g
  frc : ∀ q, t.frcNow q = s.frcNow q

theorem Writes.touch {p : Part} {W : List Fld} {s t : State} (h : Writes p W s t) : Touch (W.map (fun f => (p, f))) s t := by
  have hother : ∀ q, q ≠ p → t.base q = s.base q := fun q hq => by
    cases p <;> cases q
    · exact absurd rfl hq
    · exact congrArg Uhloux.base (h.ux rfl)
    · exact congrArg Elesh.base (h.el rfl)
    · exact absurd rfl hq
  refine ⟨fun q g hg hf => ?_, fun q => ?_⟩
  · by_cases hq : q = p
    · subst hq
      exact h.get g hg (List.all_eq_true.mpr fun f hm => hf (q, f) (List.mem_map_of_mem hm) rfl)
    · unfold State.get State.reg
      rw [hother q hq]
  · by_cases hq : q = p
    · rw [hq]; exact h.frc
    · unfold State.frcNow
      rw [hother q hq]

namespace Touch

variable {W : List (Part × Fld)} {s t u : State}

theorem refl (W : List (Part × Fld)) (s : State) : Touch W s s := ⟨fun _ _ _ _ => rfl, fun _ => rfl⟩

theorem trans (h : Touch W s t) (k : Touch W t u) : Touch W s u := ⟨fun q g h1 h2 => (k.get q g h1 h2).trans (h.get q g h1 h2), fun q => (k.frc q).trans (h.frc q)⟩

theorem mono {V : List (Part × Fld)} (h : Touch V s t) (hV : V ⊆ W) : Touch W s t := ⟨fun q g h1 h2 => h.get q g h1 fun f hf => h2 f (hV hf), h.frc⟩

theorem bit (h : Touch W s t) (q : Part) (g : Fld) (hg : g.lo ≤ g.hi ∧ g.hi < 64) (hf : Fld.free W q g) : t.bit q g = s.bit q g := by
  unfold State.bit
  rw [h.get q g hg hf]

/-- States with one core touch nothing. -/
theorem of_core (h : t.core = s.core) : Touch W s t :=
  ⟨fun q g _ _ => by unfold State.get; rw [reg_of_core h], fun _ => frcNow_of_core h⟩

theorem core (h : Touch W s t) (hc : u.core = t.core) : Touch W s u := h.trans (.of_core hc)

theorem put (h : Touch W s t) (p : Part) (f : Fld) (v : Nat) (hW : (p, f) ∈ W) (hh : f.lo ≤ f.hi ∧ f.hi < 64) : Touch W s (t.put p f v) := by
  refine h.trans ⟨fun q g hg hf => ?_, fun q => frcNow_put t p q f v⟩
  by_cases hq : q = p
  · subst hq
    exact get_put_other t q f g v hh.2 hh.1 hg.2 ((Fld.apart_iff f g).mp (hf (q, f) hW rfl))
  · unfold State.get State.put
    rw [reg_setReg_part t _ _ _ hq]

theorem setReg (h : Touch W s t) (p : Part) (o : Nat) (w : Word) (hW : (p, wholeReg o) ∈ W) : Touch W s (t.setReg p o w) := by
  refine h.trans ⟨fun q g hg hf => ?_, fun q => frcNow_setReg t p q o w⟩
  by_cases hq : q = p
  · subst hq
    have ho : g.off ≠ o := by
      have := (Fld.apart_iff _ g).mp (hf (q, wholeReg o) hW rfl)
      simp only [wholeReg] at this
      omega
    unfold State.get
    rw [reg_setReg_other t q o g.off w ho]
  · unfold State.get
    rw [reg_setReg_part t _ _ _ hq]

theorem ite {a b : State} {c : Prop} [Decidable c] (ha : Touch W s a) (hb : Touch W s b) : Touch W s (if c then a else b) := by
  split
  · exact ha
  · exact hb

theorem modLane (h : Touch W s t) (p : Part) (x : Nat) (f : Lane → Lane) : Touch W s (t.modLane p x f) := h.core (core_modLane ..)
theorem send (h : Touch W s t) (p : Part) (x : Nat) (m : Msg) : Touch W s (t.send p x m) := h.core (core_send ..)
theorem sendUp (h : Touch W s t) (p : Part) (m : Msg) : Touch W s (t.sendUp p m) := h.core (core_sendUp ..)
theorem sendDown (h : Touch W s t) (xs : List Nat) (m : Msg) : Touch W s (t.sendDown xs m) := h.core (core_sendDown ..)
theorem log (h : Touch W s t) (p : Part) (a b c d : Nat) : Touch W s (t.log p a b c d) := h.core (core_log ..)
theorem logI (h : Touch W s t) (p : Part) (a b c : Nat) (d : Int) : Touch W s (t.logI p a b c d) := h.core (core_logI ..)
theorem draw (h : Touch W s t) : Touch W s t.draw.2 := h.core (core_draw ..)

theorem modUx (h : Touch W s t) (f : Uhloux → Uhloux) (hb : ∀ u, (f u).base = u.base := by intro; rfl) : Touch W s (t.modUx f) := by
  refine h.trans ⟨fun q g _ _ => ?_, fun q => ?_⟩
  · unfold State.get
    rw [reg_modUx t f q g.off (by rw [hb])]
  · cases q
    · rfl
    · show (f t.ux).base.frc.toNat = t.ux.base.frc.toNat
      rw [hb]

theorem modEl (h : Touch W s t) (f : Elesh → Elesh) (hb : ∀ u, (f u).base = u.base := by intro; rfl) : Touch W s (t.modEl f) := by
  refine h.trans ⟨fun q g _ _ => ?_, fun q => ?_⟩
  · unfold State.get
    rw [reg_modEl t f q g.off (by rw [hb])]
  · cases q
    · show (f t.el).base.frc.toNat = t.el.base.frc.toNat
      rw [hb]
    · rfl

/-- A change of a part's half that leaves registers and FRC. -/
theorem mod (h : Touch W s t) (p : Part) (f : Base → Base) (hr : ∀ b, (f b).regs = b.regs := by intro; rfl) (hf : ∀ b, (f b).frc = b.frc := by intro; rfl) : Touch W s (t.mod p f) := by
  refine h.trans ⟨fun q g _ _ => ?_, fun q => frcNow_mod t p q f (hf _)⟩
  unfold State.get
  rw [reg_mod t p q f g.off (hr _)]

end Touch

/-! ### Becoming ACTIVE (R125) -/

/-- What a change of a member's state writes (R326). -/
def memberFlds (pdi : Nat) : List (Part × Fld) := [(.ux, Reg.UX_LANE_HC_STATE (pdi % 128)), (.el, Reg.HC_STAT_STATE)]

/-- What a lane that becomes ACTIVE writes. -/
def activeFlds (p : Part) (x : Nat) : List (Part × Fld) :=
  match p with
  | .el => [(.el, Reg.LANE_STAT_STATE (laneBlk .el x)), (.el, Reg.LANE_STAT_SELECTED (laneBlk .el x)), (.el, Reg.TIME_STAT_PLANE), (.el, Reg.HC_STAT_STATE), (.el, Reg.CLK_STAT_ACLK_SRC)]
  | .ux => [(.ux, Reg.LANE_STAT_STATE (laneBlk .ux x)), (.ux, Reg.LANE_STAT_SELECTED (laneBlk .ux x))] ++ memberFlds x

/-- A die's PDI ends in its downlink. -/
theorem memberFlds_pdiOf (s : State) (x : Nat) : memberFlds (s.pdiOf x) = memberFlds x := by
  unfold memberFlds State.pdiOf
  rw [Nat.add_comm, Nat.add_mul_mod_self_right]

namespace Touch

variable {W : List (Part × Fld)} {s t : State}

theorem setMember (h : Touch W s t) (pdi code : Nat) (hW : memberFlds pdi ⊆ W) : Touch W s (t.setMember pdi code) := by
  simp only [memberFlds, List.cons_subset] at hW
  obtain ⟨h1, h2, -⟩ := hW
  have hm := h.modUx (fun u => { u with members := tput 0 u.members pdi code })
  have hs := hm.put .ux (Reg.UX_LANE_HC_STATE (pdi % 128)) code h1 ⟨show 32 ≤ 34 by decide, show 34 < 64 by decide⟩
  unfold State.setMember
  exact .ite (.ite (hs.put .el Reg.HC_STAT_STATE code h2 (by decide)) hs) hm

theorem aclkSource (h : Touch W s t) (hW : (Part.el, Reg.CLK_STAT_ACLK_SRC) ∈ W) : Touch W s t.aclkSource := by
  unfold State.aclkSource
  dsimp only
  have h1 := fun n => h.put .el Reg.CLK_STAT_ACLK_SRC n hW (by decide)
  exact .ite h (.ite ((h1 _).draw.log ..) (h1 _))

theorem attestAsk (h : Touch W s t) (x : Nat) : Touch W s (t.attestAsk x) := by
  unfold State.attestAsk
  exact ((h.draw.draw.draw.draw).modUx _).send ..

theorem laneSet (h : Touch W s t) (p : Part) (x code : Nat) (hW : (p, Reg.LANE_STAT_STATE (laneBlk p x)) ∈ W) : Touch W s (t.laneSet p x code) :=
  h.put p _ code hW ⟨show 0 ≤ 2 by decide, show 2 < 64 by decide⟩

theorem laneSelect (h : Touch W s t) (p : Part) (x v : Nat) (hW : (p, Reg.LANE_STAT_SELECTED (laneBlk p x)) ∈ W) : Touch W s (t.put p (Reg.LANE_STAT_SELECTED (laneBlk p x)) v) :=
  h.put p _ v hW ⟨le_refl _, show 3 < 64 by decide⟩

theorem elActivate (h : Touch W s t) (x : Nat) (hW : activeFlds .el x ⊆ W) : Touch W s (t.laneActivate .el x) := by
  simp only [activeFlds, List.cons_subset] at hW
  obtain ⟨h1, h2, h3, h4, h5, -⟩ := hW
  have hs := (h.laneSet .el x 4 h1).log .el 0x09 0x2002 x (t.get .el (Reg.LANE_DELAY_D_PS (laneBlk .el x)))
  have hsel := (hs.laneSelect .el x 1 h2).put .el Reg.TIME_STAT_PLANE x h3 (by decide)
  refine .ite ?_ h
  refine .ite ?_ h
  refine Touch.aclkSource ?_ h5
  exact .ite (Touch.put (.ite hsel hs) .el Reg.HC_STAT_STATE 1 h4 (by decide)) (.ite hsel hs)

theorem uxActivate (h : Touch W s t) (x : Nat) (hW : activeFlds .ux x ⊆ W) : Touch W s (t.laneActivate .ux x) := by
  have hm := memberFlds_pdiOf
  simp only [activeFlds, List.cons_append, List.nil_append, List.cons_subset] at hW
  obtain ⟨h1, h2, h3⟩ := hW
  have hs := (h.laneSet .ux x 4 h1).log .ux (unitLane .ux x) 0x2002 x (t.get .ux (Reg.LANE_DELAY_D_PS (laneBlk .ux x)))
  have hsel := hs.laneSelect .ux x 1 h2
  refine .ite ?_ h
  refine .ite (Touch.attestAsk (.ite (hsel.setMember _ 1 ?_) hsel) x) (.ite (.ite ((hsel.sendDown ..).modUx (fun u => { u with awaySent := false })) hsel) hs)
  rw [memberFlds_pdiOf]
  exact h3

theorem laneActivate (h : Touch W s t) (p : Part) (x : Nat) (hW : activeFlds p x ⊆ W) : Touch W s (t.laneActivate p x) := by
  cases p
  · exact h.elActivate x hW
  · exact h.uxActivate x hW

end Touch

end Sys2Proof.Machine

/-! SUPPORT. The exchange of marks on a lane (R83 to R86, R118, R121). -/

namespace Sys2Proof.Machine

set_option Elab.async false

/-! ### A lane's own data -/

section
variable (s : State) (p : Part) (x : Nat)

@[simp] theorem lane_modLane_same (f : Lane → Lane) : (s.modLane p x f).lane p x = f (s.lane p x) := by
  unfold State.lane State.modLane
  rw [base_mod, tget_tput_same]

@[simp] theorem lane_put (q : Part) (f : Fld) (v : Nat) : (s.put q f v).lane p x = s.lane p x := by
  cases p <;> cases q <;> rfl

@[simp] theorem lane_setReg (q : Part) (o : Nat) (w : Word) : (s.setReg q o w).lane p x = s.lane p x := by
  cases p <;> cases q <;> rfl
end

/-! ### Calibration void (R86) -/

section
variable (s : State) (p : Part) (x : Nat)

/-- The field beside a lane's own registers that shows its calibration. -/
def calShowFld (p : Part) (x : Nat) : Fld :=
  match p with
  | .el => if x = 0 then Reg.TIME_STAT_CAL_A else Reg.TIME_STAT_CAL_B
  | .ux => wholeReg Reg.UX_XPLANE_DIFF_DIFF.off

/-- What a void calibration writes. -/
def calFlds (p : Part) (x : Nat) : List (Part × Fld) :=
  [(p, Reg.LANE_TCAL_CAL_DONE (laneBlk p x)), (p, Reg.LANE_DELAY_D_PS (laneBlk p x)), (p, calShowFld p x)]

/-- What a void calibration shows beside the lane's own registers. -/
def State.calShown (s : State) (p : Part) (x : Nat) : State :=
  match p with
  | .el => s.put .el (if x = 0 then Reg.TIME_STAT_CAL_A else Reg.TIME_STAT_CAL_B) 0
  | .ux =>
    if 152 ≤ x && !(List.range 8).any (fun i => s.bit .ux (Reg.LANE_TCAL_CAL_DONE (laneBlk .ux (152 + i)))) then
      s.setReg .ux Reg.UX_XPLANE_DIFF_DIFF.off (resetWord .ux Reg.UX_XPLANE_DIFF_DIFF.off)
    else s

theorem calClear_eq : s.calClear p x = ((s.put p (Reg.LANE_TCAL_CAL_DONE (laneBlk p x)) 0).put p (Reg.LANE_DELAY_D_PS (laneBlk p x)) 0).calShown p x := by
  cases p <;> rfl

theorem Touch.calShown {W : List (Part × Fld)} {s t : State} (h : Touch W s t) (hW : (p, calShowFld p x) ∈ W) : Touch W s (t.calShown p x) := by
  cases p
  · refine h.put .el _ 0 hW ?_
    split <;> decide
  · exact .ite (h.setReg .ux _ _ hW) h

theorem calShowFld_lo (p : Part) (x : Nat) : (calShowFld p x).off < 0x3100 := by
  unfold calShowFld
  cases p
  · dsimp only
    split <;> decide
  · show 0x3050 < 0x3100
    decide

theorem laneBlk_ge (p : Part) (x : Nat) : 0x3100 ≤ laneBlk p x := by
  cases p <;> unfold laneBlk <;> dsimp only <;> omega

/-- A register of a lane's block is not the one beside it. -/
theorem calShow_free {g : Fld} (hg : laneBlk p x ≤ g.off) : Fld.free [(p, calShowFld p x)] p g := by
  intro f hf _
  rw [List.mem_singleton] at hf
  subst hf
  have h1 := calShowFld_lo p x
  have h2 := laneBlk_ge p x
  exact (Fld.apart_iff _ _).mpr (.inl (by dsimp only; omega))

theorem Touch.calClear {W : List (Part × Fld)} {s t : State} (h : Touch W s t) (hW : calFlds p x ⊆ W) : Touch W s (t.calClear p x) := by
  simp only [calFlds, List.cons_subset] at hW
  obtain ⟨h1, h2, h3, -⟩ := hW
  rw [calClear_eq]
  exact ((h.put p _ 0 h1 ⟨le_refl _, show 0 < 64 by decide⟩).put p _ 0 h2 ⟨Nat.zero_le _, show 31 < 64 by decide⟩).calShown p x h3

theorem lane_calClear (q : Part) (y : Nat) : (s.calClear p x).lane q y = s.lane q y := by
  rw [calClear_eq]
  unfold State.calShown
  cases p
  · simp
  · dsimp only
    split <;> simp

theorem events_calClear (q : Part) : ((s.calClear p x).base q).events = (s.base q).events := by
  rw [calClear_eq]
  unfold State.calShown
  cases p
  · dsimp only
    rw [events_put, events_put, events_put]
  · dsimp only
    split
    · rw [events_setReg, events_put, events_put]
    · rw [events_put, events_put]

/-- A void calibration reads so (R131). -/
theorem calClear_reads : (s.calClear p x).bit p (Reg.LANE_TCAL_CAL_DONE (laneBlk p x)) = false ∧ (s.calClear p x).get p (Reg.LANE_DELAY_D_PS (laneBlk p x)) = 0 := by
  have ht := (Touch.refl _ ((s.put p (Reg.LANE_TCAL_CAL_DONE (laneBlk p x)) 0).put p (Reg.LANE_DELAY_D_PS (laneBlk p x)) 0)).calShown p x (List.mem_singleton_self _)
  rw [calClear_eq]
  constructor
  · rw [ht.bit p (Reg.LANE_TCAL_CAL_DONE (laneBlk p x)) ⟨le_refl _, show 0 < 64 by decide⟩ (calShow_free p x (Nat.le_add_right _ _)), State.bit,
      get_put_other _ _ _ _ _ (show 31 < 64 by decide) (Nat.zero_le _) (show 0 < 64 by decide) (.inl (by simp only [Reg.LANE_TCAL_CAL_DONE, Reg.LANE_DELAY_D_PS]; omega)),
      get_put_same _ _ _ _ (show 0 < 64 by decide) (le_refl _)]
    rfl
  · rw [ht.get p (Reg.LANE_DELAY_D_PS (laneBlk p x)) ⟨Nat.zero_le _, show 31 < 64 by decide⟩ (calShow_free p x (Nat.le_add_right _ _)), get_put_same _ _ _ _ (show 31 < 64 by decide) (Nat.zero_le _)]
    rfl

/-- Registers outside a list that covers a footprint of whole registers. -/
theorem Touch.regsBut {W : List (Part × Fld)} {s t : State} {ex : List (Part × Nat)} (h : Touch W s t) (hW : ∀ f ∈ W, (f.1, f.2.off) ∈ ex) : RegsBut ex s t := by
  intro q o ho
  have hf := h.get q (wholeReg o) ⟨Nat.zero_le _, show 63 < 64 by decide⟩ (fun f hm hq => (Fld.apart_iff _ _).mpr (.inl (fun e => ho (by
    have := hW f hm
    rwa [hq, ← e] at this))))
  simp only [State.get, wholeReg, fget] at hf
  have h1 := (t.reg q o).isLt
  have h2 := (s.reg q o).isLt
  apply BitVec.eq_of_toNat_eq
  simpa [Nat.mod_eq_of_lt h1, Nat.mod_eq_of_lt h2] using hf

/-- Calibration begun afresh (R86). -/
theorem recal_leaves : let u := s.recal p x
    u.bit p (Reg.LANE_TCAL_CAL_DONE (laneBlk p x)) = false ∧ u.get p (Reg.LANE_DELAY_D_PS (laneBlk p x)) = 0 ∧ (u.lane p x).matched = 0 ∧ (u.lane p x).recalLeft = 4096
      ∧ RegsBut [(p, (Reg.LANE_TCAL_CAL_DONE (laneBlk p x)).off), (p, (Reg.LANE_DELAY_D_PS (laneBlk p x)).off), (.el, Reg.TIME_STAT_CAL_A.off), (.ux, Reg.UX_XPLANE_DIFF_DIFF.off)] s u
      ∧ (u.base p).events = (s.base p).events := by
  intro u
  obtain ⟨h1, h2⟩ := calClear_reads s p x
  have hm : Touch [] (s.calClear p x) u := (Touch.refl ..).modLane ..
  have hall : Touch (calFlds p x) s u := ((Touch.refl ..).calClear p x (List.Subset.refl _)).modLane ..
  refine ⟨(hm.bit p _ ⟨le_refl _, show 0 < 64 by decide⟩ (fun f hf => by cases hf)).trans h1, (hm.get p _ ⟨Nat.zero_le _, show 31 < 64 by decide⟩ (fun f hf => by cases hf)).trans h2, ?_, ?_,
    hall.regsBut ?_, (events_modLane ..).trans (events_calClear ..)⟩
  · exact congrArg Lane.matched (lane_modLane_same ..)
  · exact congrArg Lane.recalLeft (lane_modLane_same ..)
  · intro f hf
    simp only [calFlds, List.mem_cons, List.not_mem_nil, or_false] at hf
    rcases hf with rfl | rfl | rfl
    · simp
    · simp
    · cases p
      · unfold calShowFld
        dsimp only
        split <;> simp [Reg.TIME_STAT_CAL_A, Reg.TIME_STAT_CAL_B]
      · simp [calShowFld, wholeReg]
end

/-! ### Marks from below (R83, R85, R121) -/

section
variable (s : State) (x : Fin 160) (seq : BitVec 16) (dPs : BitVec 32)

/-- A parent's stamp of a child's mark, counted towards a calibration that was restarted. -/
def State.markTaken (s : State) (p : Part) (x : Nat) (seq : BitVec 16) : State :=
  (s.modLane p x (fun l => { l with lastUp := seq, lastT4 := s.tbSample p 0 })).modLane p x (fun l => { l with recalLeft := l.recalLeft - 1 })

/-- The delay a child sends. -/
def State.markDelay (s : State) (p : Part) (x : Nat) (seq : BitVec 16) (dPs : BitVec 32) : State :=
  (s.markTaken p x seq).put p (Reg.LANE_DELAY_D_PS (laneBlk p x)) dPs.toNat

theorem lane_markTaken (p : Part) : (s.markTaken p x seq).lane p x = { s.lane p x with lastUp := seq, lastT4 := s.tbSample p 0, recalLeft := (s.lane p x).recalLeft - 1 } := by
  unfold State.markTaken
  rw [lane_modLane_same, lane_modLane_same]

theorem exec_upwardMark (p : Part) (ht : s.laneTimes p x = true) (hp : s.laneParent p x = true ∧ x.val < 128) :
    exec (.upwardMark p x seq dPs) s = .next (if dPs = 0 then (s.markTaken p x seq).calClear p x
      else if (s.lane p x).recalLeft - 1 ≠ 0 then s.markTaken p x seq
      else if s.bit p (Reg.LANE_TCAL_CAL_DONE (laneBlk p x)) = true then s.markDelay p x seq dPs
      else (((s.markDelay p x seq dPs).put p (Reg.LANE_TCAL_CAL_DONE (laneBlk p x)) 1).log p 0x45 0x1040 x dPs.toNat).laneActivate p x) := by
  have hleft : ((s.markTaken p x seq).lane p x).recalLeft = (s.lane p x).recalLeft - 1 := by rw [lane_markTaken]
  have hbit : (s.markDelay p x seq dPs).bit p (Reg.LANE_TCAL_CAL_DONE (laneBlk p x)) = s.bit p (Reg.LANE_TCAL_CAL_DONE (laneBlk p x)) := by
    have hm : Touch [(p, Reg.LANE_DELAY_D_PS (laneBlk p x))] s (s.markDelay p x seq dPs) :=
      (((Touch.refl ..).modLane ..).modLane ..).put p _ _ (List.mem_singleton_self _) ⟨Nat.zero_le _, show 31 < 64 by decide⟩
    refine hm.bit p _ ⟨le_refl _, show 0 < 64 by decide⟩ (fun f hf _ => ?_)
    rw [List.mem_singleton] at hf
    subst hf
    exact (Fld.apart_iff _ _).mpr (.inl (by simp only [Reg.LANE_TCAL_CAL_DONE, Reg.LANE_DELAY_D_PS]; omega))
  refine (if_pos (by simp [ht, hp.1, hp.2])).trans ?_
  by_cases h0 : dPs = 0
  · exact (if_pos h0).trans (congrArg Host.Outcome.next (if_pos h0).symm)
  refine (if_neg h0).trans (Eq.trans ?_ (congrArg Host.Outcome.next (if_neg h0).symm))
  by_cases h1 : (s.lane p x).recalLeft - 1 ≠ 0
  · exact (if_pos (show (((s.markTaken p x seq).lane p x).recalLeft != 0) = true by rw [hleft]; simpa using h1)).trans (congrArg Host.Outcome.next (if_pos h1).symm)
  refine (if_neg (show ¬ (((s.markTaken p x seq).lane p x).recalLeft != 0) = true by rw [hleft]; simpa using h1)).trans (Eq.trans ?_ (congrArg Host.Outcome.next (if_neg h1).symm))
  by_cases h2 : s.bit p (Reg.LANE_TCAL_CAL_DONE (laneBlk p x)) = true
  · exact (if_pos (hbit.trans h2)).trans (congrArg Host.Outcome.next (if_pos h2).symm)
  · exact (if_neg (fun h => h2 (hbit.symm.trans h))).trans (congrArg Host.Outcome.next (if_neg h2).symm)

/-- A child's delay of 0 (R86, R121). -/
theorem markVoid_leaves (p : Part) : let u := (s.markTaken p x seq).calClear p x
    u.bit p (Reg.LANE_TCAL_CAL_DONE (laneBlk p x)) = false ∧ u.get p (Reg.LANE_DELAY_D_PS (laneBlk p x)) = 0 ∧ (u.lane p x).lastUp = seq ∧ (u.lane p x).lastT4 = s.tbSample p 0 := by
  intro u
  obtain ⟨h1, h2⟩ := calClear_reads (s.markTaken p x seq) p x
  have hl : u.lane p x = { s.lane p x with lastUp := seq, lastT4 := s.tbSample p 0, recalLeft := (s.lane p x).recalLeft - 1 } := (lane_calClear ..).trans (lane_markTaken ..)
  exact ⟨h1, h2, by rw [hl], by rw [hl]⟩

/-- A lane that becomes ACTIVE keeps its CAL_DONE. -/
theorem active_free (p : Part) (y : Nat) (hy : y < 160) : Fld.free (activeFlds p y) p (Reg.LANE_TCAL_CAL_DONE (laneBlk p y)) := by
  intro f hf hp
  have hb := laneBlk_ge p y
  refine (Fld.apart_iff _ _).mpr (.inl ?_)
  cases p
  · simp only [activeFlds, List.mem_cons, List.not_mem_nil, or_false] at hf
    rcases hf with rfl | rfl | rfl | rfl | rfl <;> simp only [Reg.LANE_TCAL_CAL_DONE, Reg.LANE_STAT_STATE, Reg.LANE_STAT_SELECTED, Reg.TIME_STAT_PLANE, Reg.HC_STAT_STATE, Reg.CLK_STAT_ACLK_SRC, laneBlk] <;> omega
  · simp only [activeFlds, memberFlds, List.cons_append, List.nil_append, List.mem_cons, List.not_mem_nil, or_false] at hf
    rcases hf with rfl | rfl | rfl | rfl
    · simp only [Reg.LANE_TCAL_CAL_DONE, Reg.LANE_STAT_STATE]; omega
    · simp only [Reg.LANE_TCAL_CAL_DONE, Reg.LANE_STAT_SELECTED]; omega
    · simp only [Reg.LANE_TCAL_CAL_DONE, Reg.UX_LANE_HC_STATE, laneBlk]; omega
    · cases hp

/-- A calibration shared by the child (R85). -/
theorem markShared_leaves (p : Part) : let u := (((s.markDelay p x seq dPs).put p (Reg.LANE_TCAL_CAL_DONE (laneBlk p x)) 1).log p 0x45 0x1040 x dPs.toNat).laneActivate p x
    u.bit p (Reg.LANE_TCAL_CAL_DONE (laneBlk p x)) = true ∧ ∃ es, Logged p s u ((0x45, 0x1040, x.val, dPs.toNat) :: es) := by
  intro u
  have ht : Touch (activeFlds p x) ((s.markDelay p x seq dPs).put p (Reg.LANE_TCAL_CAL_DONE (laneBlk p x)) 1) u := ((Touch.refl ..).log ..).laneActivate p x (List.Subset.refl _)
  have hev : ((((s.markDelay p x seq dPs).put p (Reg.LANE_TCAL_CAL_DONE (laneBlk p x)) 1)).base p).events = (s.base p).events :=
    (events_put ..).trans ((events_put ..).trans ((events_modLane ..).trans (events_modLane ..)))
  obtain ⟨es, he⟩ := exists_logged_of_keeps p (keeps_laneActivate (p := p) (x := x) (keeps_refl (((s.markDelay p x seq dPs).put p (Reg.LANE_TCAL_CAL_DONE (laneBlk p x)) 1).log p 0x45 0x1040 x dPs.toNat)))
  refine ⟨?_, es, (logged_log _ _ _ _ hev).trans he⟩
  rw [ht.bit p _ ⟨le_refl _, show 0 < 64 by decide⟩ (active_free p x x.isLt), State.bit, get_put_same _ _ _ _ (show 0 < 64 by decide) (le_refl _)]
  rfl
end

/-! ### Marks sent (R118, R120) -/

section
variable (s : State) (p : Part) (x : Fin 160)

/-- The boundary's mark is taken in hand. -/
def State.markAt (s : State) (p : Part) (x : Nat) : State := s.modLane p x (fun l => { l with markSlot := s.tick p / 256 + 1 })

/-- The next mark's number. -/
def State.markNext (s : State) (p : Part) (x : Nat) : State := (s.markAt p x).modLane p x (fun l => { l with markSeq := (s.lane p x).markSeq + 1 })

/-- The mark of an end, with its number (R118). -/
def State.sendMark (s : State) (p : Part) (x : Nat) (seq : BitVec 16) : State :=
  s.send p x (if p == .ux && (s.laneParent p x || 144 ≤ x) then .timeMark (s.timeMsg x seq) else .upMark seq (BitVec.ofNat 32 (s.get p (Reg.LANE_DELAY_D_PS (laneBlk p x)))))

theorem exec_markSend_not (h : s.laneTimes p x = false ∨ s.tick p / 256 < (s.lane p x).markSlot) : exec (.markSend p x) s = .next s := by
  refine if_neg ?_
  unfold State.markDue State.markBoundary
  rcases h with h | h
  · simp [h]
  · simp [h]

theorem get_modLane (q : Part) (y : Nat) (f : Lane → Lane) (g : Fld) : (s.modLane p y f).get q g = s.get q g := by
  unfold State.get
  rw [reg_modLane]

theorem exec_markSend (ht : s.laneTimes p x = true) (h : (s.lane p x).markSlot ≤ s.tick p / 256) : exec (.markSend p x) s = .next (
    if s.credit p x 0 = 0 then ((s.markAt p x).count p (Reg.LANE_ERR_MARK_SKIP (laneBlk p x)) 1).log p (unitLane p x) 0x2009 x 0
    else (s.markNext p x).send p x (if p = .ux ∧ (s.laneParent p x = true ∨ 144 ≤ x.val) then .timeMark ((s.markNext p x).timeMsg x ((s.lane p x).markSeq + 1))
      else .upMark ((s.lane p x).markSeq + 1) (BitVec.ofNat 32 (s.get p (Reg.LANE_DELAY_D_PS (laneBlk p x)))))) := by
  have hcredit : (s.markAt p x).credit p x 0 = s.credit p x 0 := by
    unfold State.credit State.markAt
    rw [reg_modLane]
  have hseq : ((s.markAt p x).lane p x).markSeq = (s.lane p x).markSeq := by
    unfold State.markAt
    rw [lane_modLane_same]
  have hdelay : (s.markNext p x).get p (Reg.LANE_DELAY_D_PS (laneBlk p x)) = s.get p (Reg.LANE_DELAY_D_PS (laneBlk p x)) := by
    unfold State.markNext State.markAt
    rw [get_modLane, get_modLane]
  have hparent : (s.markNext p x).laneParent p x = s.laneParent p x := by
    unfold State.laneParent State.partnerPos State.bit State.markNext State.markAt
    simp only [get_modLane]
  have hdue : s.markDue p x = true := by
    unfold State.markDue State.markBoundary
    simp [ht, Nat.lt_succ_of_le h]
  refine (if_pos hdue).trans ?_
  by_cases h0 : s.credit p x 0 = 0
  · exact (if_pos (hcredit.trans h0)).trans (congrArg Host.Outcome.next (if_pos h0).symm)
  · refine (if_neg (fun e => h0 (hcredit.symm.trans e))).trans (Eq.trans ?_ (congrArg Host.Outcome.next (if_neg h0).symm))
    show Host.Outcome.next (((s.markAt p x).modLane p x (fun l => { l with markSeq := ((s.markAt p x).lane p x).markSeq + 1 })).sendMark p x (((s.markAt p x).lane p x).markSeq + 1)) = _
    rw [hseq]
    show Host.Outcome.next ((s.markNext p x).sendMark p x ((s.lane p x).markSeq + 1)) = _
    unfold State.sendMark
    rw [hdelay, hparent]
    simp only [Bool.and_eq_true, beq_iff_eq, Bool.or_eq_true, decide_eq_true_eq]

theorem exec_timeMessage_not (m : TimeMsg) (h : s.laneTimes p x = false ∨ (s.laneParent p x = true ∧ x.val < 128)) : exec (.timeMessage p x m) s = .next s := by
  refine if_neg ?_
  rcases h with h | ⟨h, hx⟩
  · simp [h]
  · simp [h, hx]
end

/-- Settles O20: a mark from below by its delay, calibration begun afresh, and the mark of a boundary. -/
theorem marks : Obligations.Marks := by
  refine ⟨fun p x seq dPs m s => ⟨fun h => ⟨exec_timeMessage_not s p x m (.inl h), if_neg (by simp [h]), exec_markSend_not s p x (.inl h)⟩, fun ht hp => ?_, fun hp => ?_, fun ht h0 hel => ?_,
    fun hh hu => ?_, fun h => ?_⟩, fun p x s ht => ⟨fun h => exec_markSend_not s p x (.inr h), fun h => ?_⟩⟩
  · have hx := exec_upwardMark s x seq dPs p ht hp
    refine ⟨fun h0 => ⟨_, hx, ?_⟩, fun h0 hl => ?_, fun h0 hl hb => ?_, fun h0 hl hb => ⟨_, hx, ?_⟩, exec_timeMessage_not s p x m (.inr hp)⟩
    · rw [if_pos h0]
      exact markVoid_leaves s x seq p
    · rw [hx, if_neg h0, if_pos hl]
      rfl
    · rw [hx, if_neg h0, if_neg (not_not.mpr hl), if_pos hb]
      rfl
    · rw [if_neg h0, if_neg (not_not.mpr hl), if_neg (by simp [hb])]
      exact markShared_leaves s x seq dPs p
  · refine if_neg ?_
    simp only [Bool.and_eq_true, decide_eq_true_eq]
    exact fun h => hp ⟨h.1.2, h.2⟩
  · subst hel
    refine (if_pos (by simp [ht, State.laneParent])).trans ?_
    exact if_pos h0
  · exact ⟨_, congrArg Host.Outcome.next (if_pos (by simp [hh, hu])), recal_leaves s p x⟩
  · refine congrArg Host.Outcome.next (if_neg ?_)
    rcases h with h | h
    · simp [h]
    · simp [h]
  · have hx := exec_markSend s p x ht h
    refine ⟨fun h0 => ?_, fun h0 hp hq => ?_, fun h0 hq => ?_⟩
    · rw [hx, if_pos h0]
      rfl
    · rw [hx, if_neg h0, if_pos ⟨hp, hq⟩]
      rfl
    · rw [hx, if_neg h0, if_neg ?_]
      · rfl
      · rintro ⟨rfl, h1⟩
        rcases hq with hq | ⟨h2, h3⟩
        · cases hq
        · rcases h1 with h1 | h1
          · rw [h2] at h1; cases h1
          · omega

end Sys2Proof.Machine

/-! SUPPORT. What the loss of a lane leaves of every lane: state, cause, calibration, and all its own data but the messages it holds (R104 to R112). -/

namespace Sys2Proof.Machine

set_option Elab.async false

/-- A lane's own data without the messages it holds. -/
def Lane.rest (l : Lane) : Lane := { l with txq := [], replay := [], resend := [], discards := 0 }

/-- The fields that say what a lane is, whatever it carries. -/
def laneOwn (q : Part) (y : Nat) : List Fld :=
  [Reg.LANE_STAT_STATE (laneBlk q y), Reg.LANE_STAT_FAIL_CAUSE (laneBlk q y), Reg.LANE_STAT_AWAY (laneBlk q y), Reg.LANE_TCAL_CAL_DONE (laneBlk q y)]

/-- Every lane is what it was; what it carries, and all beside the lanes, may have changed. -/
structure LaneKept (s t : State) : Prop where
  get  : ∀ q y, laneHere q y = true → ∀ g ∈ laneOwn q y, t.get q g = s.get q g
  rest : ∀ q y, (t.lane q y).rest = (s.lane q y).rest

/-- A field that is none of those of any lane. -/
def Fld.beside (q : Part) (f : Fld) : Prop := ∀ y, laneHere q y = true → ∀ g ∈ laneOwn q y, g.off ≠ f.off ∨ g.hi < f.lo ∨ f.hi < g.lo

theorem laneOwn_bounds {q : Part} {y : Nat} {g : Fld} (hg : g ∈ laneOwn q y) : g.lo ≤ g.hi ∧ g.hi < 64 ∧ laneBlk q y ≤ g.off := by
  simp only [laneOwn, List.mem_cons, List.not_mem_nil, or_false] at hg
  rcases hg with rfl | rfl | rfl | rfl
  · exact ⟨show 0 ≤ 2 by decide, show 2 < 64 by decide, Nat.le_add_right ..⟩
  · exact ⟨show 8 ≤ 11 by decide, show 11 < 64 by decide, Nat.le_add_right ..⟩
  · exact ⟨le_refl _, show 4 < 64 by decide, Nat.le_add_right ..⟩
  · exact ⟨le_refl _, show 0 < 64 by decide, Nat.le_add_right ..⟩

/-- A field ahead of the lanes' registers. -/
theorem Fld.beside_of_lt {q : Part} {f : Fld} (h : f.off < laneBlk q 0) : f.beside q := by
  intro y hy g hg
  have := (laneOwn_bounds hg).2.2
  have : laneBlk q 0 ≤ laneBlk q y := by cases q <;> simp only [laneBlk] <;> omega
  left
  omega

/-- A field of a lane's status register that shares no bit with its state, cause and AWAY. -/
theorem Fld.beside_of_stat {q : Part} {x : Nat} {f : Fld} (ho : f.off = laneBlk q x + 8) (hb : f.hi < 8 ∧ 4 < f.lo ∨ f.hi = 3 ∧ f.lo = 3 ∨ 11 < f.lo) : f.beside q := by
  intro y hy g hg
  simp only [laneOwn, List.mem_cons, List.not_mem_nil, or_false] at hg
  rcases hg with rfl | rfl | rfl | rfl
  · simp only [Reg.LANE_STAT_STATE]; omega
  · simp only [Reg.LANE_STAT_FAIL_CAUSE]; omega
  · simp only [Reg.LANE_STAT_AWAY]; omega
  · left
    simp only [Reg.LANE_TCAL_CAL_DONE, ho]
    cases q <;> simp only [laneBlk] <;> omega

theorem selected_beside (q : Part) (x : Nat) : (Reg.LANE_STAT_SELECTED (laneBlk q x)).beside q := Fld.beside_of_stat rfl (.inr (.inl ⟨rfl, rfl⟩))
theorem unacked_beside (q : Part) (x : Nat) : (Reg.LANE_STAT_UNACKED (laneBlk q x)).beside q := Fld.beside_of_stat rfl (.inr (.inr (show 11 < 40 by decide)))
theorem retry_beside (q : Part) (x : Nat) : (Reg.LANE_STAT_RETRY (laneBlk q x)).beside q := Fld.beside_of_stat rfl (.inr (.inr (show 11 < 32 by decide)))

theorem memberState_beside (x : Nat) : (Reg.UX_LANE_HC_STATE x).beside .ux := by
  intro y hy g hg
  left
  simp only [laneOwn, List.mem_cons, List.not_mem_nil, or_false] at hg
  rcases hg with rfl | rfl | rfl | rfl <;>
    simp only [Reg.LANE_STAT_STATE, Reg.LANE_STAT_FAIL_CAUSE, Reg.LANE_STAT_AWAY, Reg.LANE_TCAL_CAL_DONE, Reg.UX_LANE_HC_STATE, laneBlk] <;> omega

theorem aclkSrc_beside : Reg.CLK_STAT_ACLK_SRC.beside .el := by
  intro y hy g hg
  left
  simp only [laneOwn, List.mem_cons, List.not_mem_nil, or_false] at hg
  rcases hg with rfl | rfl | rfl | rfl <;>
    simp only [Reg.LANE_STAT_STATE, Reg.LANE_STAT_FAIL_CAUSE, Reg.LANE_STAT_AWAY, Reg.LANE_TCAL_CAL_DONE, Reg.CLK_STAT_ACLK_SRC, laneBlk]
  all_goals
    have : y < 2 := of_decide_eq_true hy
    omega

/-! ### What lanes hold, step by step -/

section
variable (s : State) (q : Part) (y : Nat)

theorem lane_mod (p : Part) (f : Base → Base) (h : (f (s.base p)).lanes = (s.base p).lanes) : (s.mod p f).lane q y = s.lane q y := by
  unfold State.lane
  by_cases hq : q = p
  · rw [hq, base_mod, h]
  · rw [base_mod_ne s f hq]

theorem rest_modLane (p : Part) (x : Nat) (f : Lane → Lane) (h : ∀ l, (f l).rest = l.rest) : ((s.modLane p x f).lane q y).rest = (s.lane q y).rest := by
  by_cases hq : q = p
  · subst hq
    by_cases hy : y = x
    · rw [hy, lane_modLane_same, h]
    · unfold State.lane State.modLane
      rw [base_mod, tget_tput_other _ _ _ _ _ _ hy]
  · unfold State.lane State.modLane
    rw [base_mod_ne s _ hq]

theorem rest_sendOne (p : Part) (x : Nat) (m : Msg) : ((s.sendOne p x m).lane q y).rest = (s.lane q y).rest := by
  unfold State.sendOne
  dsimp only
  split
  · exact rest_modLane _ _ _ _ _ _ (fun _ => rfl)
  · rfl

theorem rest_send (p : Part) (x : Nat) (m : Msg) : ((s.send p x m).lane q y).rest = (s.lane q y).rest := by
  unfold State.send
  dsimp only
  split
  · rw [rest_sendOne, rest_sendOne]
  · rw [rest_sendOne]

theorem rest_log (p : Part) (a b c d : Nat) : ((s.log p a b c d).lane q y).rest = (s.lane q y).rest := by
  unfold State.log State.logW State.logRec
  cases p
  · unfold State.sendUp
    dsimp only
    split
    · rw [rest_send]
      cases q
      · show (tget _ (State.el (State.modEl _ _)).base.lanes y).rest = _
        simp only [modEl_el]
        split <;> rfl
      · rfl
    · cases q
      · show (tget _ (State.el (State.modEl _ _)).base.lanes y).rest = _
        simp only [modEl_el]
        split <;> rfl
      · rfl
  · exact congrArg Lane.rest (lane_mod _ _ _ _ _ rfl)
end

namespace LaneKept

variable {s t u : State}

theorem refl (s : State) : LaneKept s s := ⟨fun _ _ _ _ _ => rfl, fun _ _ => rfl⟩

theorem trans (h : LaneKept s t) (k : LaneKept t u) : LaneKept s u := ⟨fun q y hy g hg => (k.get q y hy g hg).trans (h.get q y hy g hg), fun q y => (k.rest q y).trans (h.rest q y)⟩

theorem ite {a b : State} {c : Prop} [Decidable c] (ha : LaneKept s a) (hb : LaneKept s b) : LaneKept s (if c then a else b) := by
  split
  · exact ha
  · exact hb

theorem setReg (h : LaneKept s t) (p : Part) (o : Nat) (w : Word) (ho : o < laneBlk p 0) : LaneKept s (t.setReg p o w) := by
  refine h.trans ⟨fun q y hy g hg => ?_, fun q y => by rw [lane_setReg]⟩
  unfold State.get
  by_cases hq : q = p
  · subst hq
    have := Fld.beside_of_lt (f := wholeReg o) ho y hy g hg
    have hb := laneOwn_bounds hg
    rw [reg_setReg_other t q o g.off w (by simp only [wholeReg] at this; omega)]
  · rw [reg_setReg_part t _ _ _ hq]

theorem put (h : LaneKept s t) (p : Part) (f : Fld) (v : Nat) (hf : f.beside p) (hh : f.lo ≤ f.hi ∧ f.hi < 64) : LaneKept s (t.put p f v) := by
  refine h.trans ⟨fun q y hy g hg => ?_, fun q y => by rw [lane_put]⟩
  by_cases hq : q = p
  · subst hq
    exact get_put_other t q f g v hh.2 hh.1 (laneOwn_bounds hg).2.1 (hf y hy g hg)
  · unfold State.get State.put
    rw [reg_setReg_part t _ _ _ hq]

/-- A field of a constant offset ahead of the lanes. -/
theorem putLow (h : LaneKept s t) (p : Part) (f : Fld) (v : Nat) (hh : f.off < 0x3100 ∧ f.lo ≤ f.hi ∧ f.hi < 64) : LaneKept s (t.put p f v) :=
  h.put p f v (Fld.beside_of_lt (by have := laneBlk_ge p 0; omega)) hh.2

theorem modLane (h : LaneKept s t) (p : Part) (x : Nat) (f : Lane → Lane) (hf : ∀ l, (f l).rest = l.rest := by intro; rfl) : LaneKept s (t.modLane p x f) := by
  refine h.trans ⟨fun q y _ g _ => get_modLane .., fun q y => rest_modLane t q y p x f hf⟩

theorem of_core (hc : t.core = s.core) (hr : ∀ q y, (t.lane q y).rest = (s.lane q y).rest) : LaneKept s t :=
  ⟨fun q y _ g _ => by unfold State.get; rw [reg_of_core hc], hr⟩

theorem send (h : LaneKept s t) (p : Part) (x : Nat) (m : Msg) : LaneKept s (t.send p x m) := h.trans (.of_core (core_send ..) (fun q y => rest_send t q y p x m))

theorem log (h : LaneKept s t) (p : Part) (a b c d : Nat) : LaneKept s (t.log p a b c d) := h.trans (.of_core (core_log ..) (fun q y => rest_log t q y p a b c d))

theorem logI (h : LaneKept s t) (p : Part) (a b c : Nat) (d : Int) : LaneKept s (t.logI p a b c d) := h.log ..

theorem draw (h : LaneKept s t) : LaneKept s t.draw.2 := h.trans (.of_core (core_draw ..) (fun q _ => by cases q <;> rfl))

theorem modUx (h : LaneKept s t) (f : Uhloux → Uhloux) (hb : ∀ u, (f u).base = u.base := by intro; rfl) : LaneKept s (t.modUx f) := by
  refine h.trans ⟨fun q y _ g _ => ?_, fun q y => ?_⟩
  · unfold State.get
    rw [reg_modUx t f q g.off (by rw [hb])]
  · cases q
    · rfl
    · show (tget Lane.zero (f t.ux).base.lanes y).rest = _
      rw [hb]
      rfl

theorem modEl (h : LaneKept s t) (f : Elesh → Elesh) (hb : ∀ u, (f u).base = u.base := by intro; rfl) : LaneKept s (t.modEl f) := by
  refine h.trans ⟨fun q y _ g _ => ?_, fun q y => ?_⟩
  · unfold State.get
    rw [reg_modEl t f q g.off (by rw [hb])]
  · cases q
    · show (tget Lane.zero (f t.el).base.lanes y).rest = _
      rw [hb]
      rfl
    · rfl

theorem sendDown (h : LaneKept s t) (xs : List Nat) (m : Msg) : LaneKept s (t.sendDown xs m) := by
  unfold State.sendDown
  exact List.foldlRecOn (motive := LaneKept s) _ _ h (fun u hu x _ => .ite (hu.send ..) hu)

/-- A footprint of a Uhloux chip ahead of its lanes. -/
theorem writes {W : List Fld} (h : LaneKept s t) (hw : Writes .ux W t u) (hW : ∀ f ∈ W, f.off < 0x40000) : LaneKept s u := by
  refine h.trans ⟨fun q y hy g hg => ?_, fun q y => ?_⟩
  · cases q
    · unfold State.get State.reg State.base
      rw [hw.el rfl]
    · refine hw.get g ⟨(laneOwn_bounds hg).1, (laneOwn_bounds hg).2.1⟩ (List.all_eq_true.mpr fun f hf => (Fld.apart_iff f g).mpr (.inl ?_))
      have h1 := hW f hf
      have h2 := (laneOwn_bounds hg).2.2
      simp only [laneBlk] at h2
      omega
  · cases q
    · unfold State.lane State.base
      rw [hw.el rfl]
    · unfold State.lane
      rw [hw.lanes]

/-! ### The loss of a lane (R104 to R112) -/

theorem aclkSource (h : LaneKept s t) : LaneKept s t.aclkSource := by
  unfold State.aclkSource
  have h1 := fun n => h.put .el Reg.CLK_STAT_ACLK_SRC n aclkSrc_beside (by decide)
  exact .ite h (.ite ((h1 _).draw.log ..) (h1 _))

theorem select (h : LaneKept s t) (p : Part) (x v : Nat) : LaneKept s (t.put p (Reg.LANE_STAT_SELECTED (laneBlk p x)) v) :=
  h.put p _ v (selected_beside p x) ⟨le_refl _, show 3 < 64 by decide⟩

theorem setMember (h : LaneKept s t) (pdi code : Nat) : LaneKept s (t.setMember pdi code) := by
  have hm := h.modUx (fun u => { u with members := tput 0 u.members pdi code })
  have hs := hm.put .ux (Reg.UX_LANE_HC_STATE (pdi % 128)) code (memberState_beside _) ⟨show 32 ≤ 34 by decide, show 34 < 64 by decide⟩
  unfold State.setMember
  exact .ite (.ite (hs.putLow .el Reg.HC_STAT_STATE code (by decide)) hs) hm

theorem laneShow (h : LaneKept s t) (p : Part) (x : Nat) : LaneKept s (t.laneShow p x) :=
  (h.put p _ _ (unacked_beside p x) ⟨show 40 ≤ 47 by decide, show 47 < 64 by decide⟩).put p _ _ (retry_beside p x) ⟨show 32 ≤ 34 by decide, show 34 < 64 by decide⟩

theorem laneDrop (h : LaneKept s t) (p : Part) (x : Nat) : LaneKept s (t.laneDrop p x) := (h.modLane p x _).laneShow p x

theorem laneMove (h : LaneKept s t) (p : Part) (x y : Nat) : LaneKept s (t.laneMove p x y) := ((h.modLane p x _).modLane p y _).laneShow p x

theorem laneSpread (h : LaneKept s t) (x : Nat) (ys : List Nat) : LaneKept s (t.laneSpread x ys) := by
  refine LaneKept.laneShow ?_ .ux x
  exact List.foldlRecOn (motive := LaneKept s) _ _ (h.modLane .ux x _) (fun u hu e _ => hu.modLane .ux e.1 _)

theorem planeSwitch (h : LaneKept s t) (x : Nat) : LaneKept s (t.planeSwitch x) := by
  have h1 := (h.modEl (fun e => { e with followLane := x, laneChosen := true })).putLow .el Reg.TIME_STAT_PLANE x (by decide)
  have h2 := h1.modEl (fun e => { e with switchTick := some ((((t.modEl (fun e => { e with followLane := x, laneChosen := true })).put .el Reg.TIME_STAT_PLANE x)).tick .el) })
  have h3 := LaneKept.ite (c := ((((t.modEl (fun e => { e with followLane := x, laneChosen := true })).put .el Reg.TIME_STAT_PLANE x).modEl
    (fun e => { e with switchTick := some ((((t.modEl (fun e => { e with followLane := x, laneChosen := true })).put .el Reg.TIME_STAT_PLANE x)).tick .el) })).tbState .el 0 = 0 || t.el.refclkLost) = true) h2 (h2.putLow .el (Reg.TB_STAT_STATE 0) 3 (by decide))
  refine .ite ?_ ?_
  · refine LaneKept.logI (LaneKept.putLow ?_ .el (Reg.TB_STAT_STATE 1) 4 (by decide)) ..
    split
    · exact (h3.putLow .el (Reg.TB_STAT_PHASE_ERR 0) _ (by decide)).logI ..
    · exact .ite (h3.modEl (fun e => { e with switchOwed := true })) (h3.log ..)
  · split
    · exact (h3.putLow .el (Reg.TB_STAT_PHASE_ERR 0) _ (by decide)).logI ..
    · exact .ite (h3.modEl (fun e => { e with switchOwed := true })) (h3.log ..)

theorem failover (h : LaneKept s t) (x : Nat) : LaneKept s (t.failover x) :=
  ((((((h.select .el x 0).select .el (1 - x) 1).planeSwitch (1 - x)).laneMove .el x (1 - x)).log ..)).aclkSource

theorem elLaneLoss (h : LaneKept s t) (x : Nat) : LaneKept s (t.elLaneLoss x) := by
  have hd := (h.planeSwitch (1 - x)).laneDrop .el x
  unfold State.elLaneLoss
  exact .ite (.ite (h.failover x) (((h.select .el x 0).laneDrop .el x).log ..).aclkSource) (.ite (LaneKept.aclkSource (.ite (hd.select .el (1 - x) 1) hd)) (h.laneDrop .el x))

theorem mirrorFull (h : LaneKept s t) : LaneKept s t.mirrorFull := by
  unfold State.mirrorFull
  exact .ite (h.putLow .el Reg.HC_STAT_MIRROR_FULL _ (by decide)) h

theorem unmirrored (h : LaneKept s t) : LaneKept s t.unmirrored := by
  have h1 := fun n => LaneKept.mirrorFull (h.put .ux Reg.UX_VAULT_STAT_UNMIRRORED n (Fld.beside_of_lt (by decide)) (by decide))
  unfold State.unmirrored
  exact .ite ((h1 _).log ..) (h1 _)

theorem vaultLost (h : LaneKept s t) : LaneKept s t.vaultLost := by
  unfold State.vaultLost
  refine LaneKept.unmirrored (LaneKept.modUx (.ite (h.putLow .el Reg.HC_STAT_MIRROR_FULL _ (by decide)) h) (fun u => { u with privLost := _ }))

theorem otherPlaneUp (h : LaneKept s t) (pdi : Nat) : LaneKept s (t.otherPlaneUp pdi).2 := by
  unfold State.otherPlaneUp
  split
  · exact h
  · exact h.draw

theorem childAbsent (h : LaneKept s t) (x : Nat) : LaneKept s (t.childAbsent x) := by
  unfold State.childAbsent
  exact .ite (.ite (h.otherPlaneUp _) ((h.otherPlaneUp _).setMember ..)) h

theorem candLost (h : LaneKept s t) (k : Fin 8) (monitor : Nat) : LaneKept s (t.candLost k monitor) := by
  have hlow : ∀ k : Fin 8, ∀ f ∈ candFlds k ++ lostFlds k ++ seekFlds, f.off < 0x40000 := by decide
  exact h.writes ((Writes.refl .ux _ t).candLost k monitor (List.Subset.refl _)) (hlow k)

/-- What a lane delivers is one of the uplinks' candidates. -/
theorem laneCand_lt (s : State) (x k : Nat) (h : s.laneCand x = some k) : k < 8 := by
  unfold State.laneCand at h
  split at h
  · cases h; decide
  split at h
  · cases h; decide
  split at h
  · cases h; decide
  · cases h

theorem candOfLane (h : LaneKept s t) (x : Nat) (monitor : Nat → Nat) : LaneKept s (match t.laneCand x with | some k => t.candLost k (monitor k) | none => t) := by
  split
  · next k hk => exact h.candLost ⟨k, laneCand_lt t x k hk⟩ (monitor k)
  · exact h

theorem uxLaneLoss (h : LaneKept s t) (x : Nat) : LaneKept s (t.uxLaneLoss x) := by
  have h1 := h.candOfLane x (fun k => if k = 6 || k = 7 then 3 else 0)
  unfold State.uxLaneLoss
  refine .ite (((h1.select .ux x 0).laneDrop .ux x).childAbsent x) (.ite ?_ (.ite ?_ (h1.laneDrop .ux x)))
  · exact .ite (.ite ((((h1.select .ux x 0).select .ux _ 1).laneMove .ux x _).log ..) (((((h1.select .ux x 0).laneDrop .ux x)).sendDown ..).modUx (fun u => { u with awaySent := true }))) (h1.laneDrop .ux x)
  · exact .ite (.ite (h1.laneDrop .ux x).vaultLost (h1.laneDrop .ux x)) ((h1.laneSpread x _).log ..)

theorem laneLoss (h : LaneKept s t) (p : Part) (x : Nat) : LaneKept s (t.laneLoss p x) := by
  cases p
  · exact h.elLaneLoss x
  · exact h.uxLaneLoss x

theorem absentCheck (h : LaneKept s t) (p : Part) : LaneKept s (t.absentCheck p) := by
  cases p
  · have h1 := h.putLow .el Reg.HC_STAT_STATE 0 (by decide)
    exact .ite (.ite (h1.setMember _ 0) h1) h
  · exact h

end LaneKept

/-! ### Failure (R104, R125, R130) -/

section
variable (s : State) (p : Part) (x : Nat)

/-- What a void calibration writes is none of a lane's state, cause and AWAY. -/
theorem calFlds_free {g : Fld} (ho : g.off = laneBlk p x + 8) : Fld.free (calFlds p x) p g := by
  intro f hf _
  refine (Fld.apart_iff _ _).mpr (.inl ?_)
  simp only [calFlds, List.mem_cons, List.not_mem_nil, or_false] at hf
  rcases hf with rfl | rfl | rfl
  · simp only [Reg.LANE_TCAL_CAL_DONE]; omega
  · simp only [Reg.LANE_DELAY_D_PS]; omega
  · have h1 := calShowFld_lo p x
    have h2 := laneBlk_ge p x
    dsimp only
    omega

/-- A lane marked FAILED with its cause, before what it carried is moved or lost. -/
def State.failMarked (s : State) (p : Part) (x cause : Nat) : State := ((s.leaveFail p x).laneSet p x 6).put p (Reg.LANE_STAT_FAIL_CAUSE (laneBlk p x)) cause

theorem events_failMarked (cause : Nat) (q : Part) : ((s.failMarked p x cause).base q).events = (s.base q).events := by
  unfold State.failMarked State.laneSet State.leaveFail
  rw [events_put, events_put]
  split
  · exact events_modLane ..
  · rfl

theorem failMarked_reads (cause : Nat) (hc : cause < 16) : (s.failMarked p x cause).laneState p x = 6 ∧ (s.failMarked p x cause).get p (Reg.LANE_STAT_FAIL_CAUSE (laneBlk p x)) = cause
    ∧ (s.laneState p x = 5 → ((s.failMarked p x cause).lane p x).leaveSt = some 3) := by
  refine ⟨?_, ?_, fun h => ?_⟩
  · unfold State.failMarked State.laneState State.laneSet
    rw [get_put_other _ _ _ _ _ (show 11 < 64 by decide) (show 8 ≤ 11 by decide) (show 2 < 64 by decide) (.inr (.inl (show 2 < 8 by decide))), get_put_same _ _ _ _ (show 2 < 64 by decide) (show 0 ≤ 2 by decide)]
    rfl
  · unfold State.failMarked
    rw [get_put_same _ _ _ _ (show 11 < 64 by decide) (show 8 ≤ 11 by decide)]
    exact Nat.mod_eq_of_lt hc
  · unfold State.failMarked State.laneSet State.leaveFail
    rw [lane_put, lane_put, if_pos (by simpa using h), lane_modLane_same]

/-- What a failing lane has done before its traffic is looked at. -/
def State.failShown (s : State) (p : Part) (x cause : Nat) : State := ((s.failMarked p x cause).log p (unitLane p x) 0x2003 x cause).calClear p x

theorem laneFail_eq (cause : Nat) : s.laneFail p x cause = ((s.failShown p x cause).laneLoss p x).absentCheck p := rfl

theorem failShown_reads (cause : Nat) (hc : cause < 16) : (s.failShown p x cause).laneState p x = 6 ∧ (s.failShown p x cause).get p (Reg.LANE_STAT_FAIL_CAUSE (laneBlk p x)) = cause
    ∧ (s.failShown p x cause).bit p (Reg.LANE_TCAL_CAL_DONE (laneBlk p x)) = false ∧ (s.laneState p x = 5 → ((s.failShown p x cause).lane p x).leaveSt = some 3) := by
  obtain ⟨h1, h2, h3⟩ := failMarked_reads s p x cause hc
  have ht : Touch (calFlds p x) (s.failMarked p x cause) (s.failShown p x cause) := ((Touch.refl ..).log ..).calClear p x (List.Subset.refl _)
  refine ⟨(ht.get p _ ⟨show 0 ≤ 2 by decide, show 2 < 64 by decide⟩ (calFlds_free p x rfl)).trans h1, (ht.get p _ ⟨show 8 ≤ 11 by decide, show 11 < 64 by decide⟩ (calFlds_free p x rfl)).trans h2,
    (calClear_reads _ p x).1, fun h => ?_⟩
  have hr := rest_log (s.failMarked p x cause) p x p (unitLane p x) 0x2003 x cause
  unfold State.failShown
  rw [lane_calClear]
  exact (congrArg Lane.leaveSt hr).trans (h3 h)

/-- A lane that fails (R104, R125, R128, R130). -/
theorem laneFail_leaves (cause : Nat) (hh : laneHere p x = true) (hc : cause < 16) : let u := s.laneFail p x cause
    u.laneState p x = 6 ∧ u.get p (Reg.LANE_STAT_FAIL_CAUSE (laneBlk p x)) = cause ∧ u.bit p (Reg.LANE_TCAL_CAL_DONE (laneBlk p x)) = false
      ∧ (s.laneState p x = 5 → (u.lane p x).leaveSt = some 3) ∧ ∃ es, Logged p s u ((unitLane p x, 0x2003, x, cause) :: es) := by
  intro u
  obtain ⟨h1, h2, h3, h4⟩ := failShown_reads s p x cause hc
  have hk : LaneKept (s.failShown p x cause) u := ((LaneKept.refl _).laneLoss p x).absentCheck p
  have hkeep : Keeps ((s.failMarked p x cause).log p (unitLane p x) 0x2003 x cause) u :=
    keeps_absentCheck (keeps_laneLoss (keeps_calClear (keeps_refl _)))
  obtain ⟨es, he⟩ := exists_logged_of_keeps p hkeep
  refine ⟨(hk.get p x hh _ (by simp [laneOwn])).trans h1, (hk.get p x hh _ (by simp [laneOwn])).trans h2, ?_, fun h => (congrArg Lane.leaveSt (hk.rest p x)).trans (h4 h),
    es, (logged_log _ _ _ _ (events_failMarked s p x cause p)).trans he⟩
  unfold State.bit
  rw [hk.get p x hh _ (by simp [laneOwn])]
  exact h3

theorem laneFault_of_up (cause : Nat) (hh : laneHere p x = true) (hl : s.laneLinked p x = true) : s.laneFault p x cause = s.laneFail p x cause := if_pos (by simp [hh, hl])

theorem laneFault_of_not (cause : Nat) (h : laneHere p x = false ∨ s.laneLinked p x = false) : s.laneFault p x cause = s := by
  refine if_neg ?_
  rcases h with h | h <;> simp [h]
end

/-- Settles O22: whatever fails a lane marks it, voids its calibration and logs; what follows for its traffic leaves that. -/
theorem laneFailures : Obligations.LaneFailures := by
  intro p lane s fails
  have hfail : ∀ (c : Instr) (cause : Nat), laneHere p lane = true → cause < 16 → exec c s = .next (s.laneFail p lane cause) → fails c cause :=
    fun c cause hh hc hx => ⟨_, hx, laneFail_leaves s p lane cause hh hc⟩
  refine ⟨fun hh hl => ?_, fun hh h1 => hfail _ 6 hh (by decide) (congrArg Host.Outcome.next (if_pos (by simp [hh, h1]))), fun h c hc => ?_, fun h => congrArg Host.Outcome.next (if_neg ?_),
    fun h => congrArg Host.Outcome.next (if_neg ?_)⟩
  · have hf := fun cause => laneFault_of_up s p lane cause hh hl
    refine ⟨hfail _ 2 hh (by decide) (congrArg Host.Outcome.next (hf 2)), hfail _ 3 hh (by decide) (congrArg Host.Outcome.next (hf 3)), hfail _ 4 hh (by decide) (congrArg Host.Outcome.next (hf 4)),
      fun f fs hr h8 hd => hfail _ 1 hh (by decide) (congrArg Host.Outcome.next ((if_pos hd).trans ?_)), fun h5 => hfail _ 9 hh (by decide) (congrArg Host.Outcome.next (if_pos (by simp [hh, h5])))⟩
    unfold State.startReplay
    rw [hr]
    exact (if_pos h8).trans (hf 1)
  · have hf := fun cause => laneFault_of_not s p lane cause h
    have hoff : (laneHere p lane && s.laneLinked p lane) = false := by rcases h with h | h <;> simp [h]
    rcases hc with rfl | rfl | rfl | rfl | rfl | ⟨f, rfl⟩
    · exact congrArg Host.Outcome.next (hf 2)
    · exact congrArg Host.Outcome.next (hf 3)
    · exact congrArg Host.Outcome.next (hf 4)
    · refine congrArg Host.Outcome.next (if_neg ?_)
      unfold State.replayDue
      simp [hoff]
    · exact if_neg (by simp [hoff])
    · exact if_pos (by simp [hoff])
  · rcases h with h | h <;> simp [h]
  · rcases h with h | h <;> simp [h]

end Sys2Proof.Machine

/-! SUPPORT. Failover of a two-plane die (R55, R107, R108). -/

namespace Sys2Proof.Machine

set_option Elab.async false

/-- A step of the die alone, which leaves the Uhloux chip, the followed lane and the licence. -/
structure DieSide (s t : State) : Prop where
  ux     : t.ux = s.ux
  follow : t.el.followLane = s.el.followLane
  lost   : t.el.refclkLost = s.el.refclkLost
  lic    : t.el.lic = s.el.lic

theorem ux_send_el (s : State) (x : Nat) (m : Msg) : (s.send .el x m).ux = s.ux := by
  have hone : (s.sendOne .el x m).ux = s.ux := by
    unfold State.sendOne
    dsimp only
    split <;> rfl
  unfold State.send
  rw [if_neg (by simp)]
  exact hone

theorem ux_sendUp_el (s : State) (m : Msg) : (s.sendUp .el m).ux = s.ux := by
  unfold State.sendUp
  split
  · exact ux_send_el ..
  · rfl

namespace DieSide

variable {s t u : State}

theorem refl (s : State) : DieSide s s := ⟨rfl, rfl, rfl, rfl⟩

theorem trans (h : DieSide s t) (k : DieSide t u) : DieSide s u := ⟨k.ux.trans h.ux, k.follow.trans h.follow, k.lost.trans h.lost, k.lic.trans h.lic⟩

theorem put (h : DieSide s t) (f : Fld) (v : Nat) : DieSide s (t.put .el f v) := h.trans ⟨rfl, rfl, rfl, rfl⟩

theorem modLane (h : DieSide s t) (x : Nat) (f : Lane → Lane) : DieSide s (t.modLane .el x f) := h.trans ⟨rfl, rfl, rfl, rfl⟩

theorem draw (h : DieSide s t) : DieSide s t.draw.2 := h.trans ⟨rfl, rfl, rfl, rfl⟩

theorem log (h : DieSide s t) (a b c d : Nat) : DieSide s (t.log .el a b c d) := by
  have hux : (t.log .el a b c d).ux = t.ux := (ux_sendUp_el _ _).trans rfl
  have he := congrArg State.el (core_log t .el a b c d)
  exact h.trans ⟨hux, (congrArg Elesh.followLane he :), (congrArg Elesh.refclkLost he :), (congrArg Elesh.lic he :)⟩

theorem ite {a b : State} {c : Prop} [Decidable c] (ha : DieSide s a) (hb : DieSide s b) : DieSide s (if c then a else b) := by
  split
  · exact ha
  · exact hb

theorem aclkSource (h : DieSide s t) : DieSide s t.aclkSource := by
  unfold State.aclkSource
  exact .ite h (.ite ((h.put ..).draw.log ..) (h.put ..))

theorem laneMove (h : DieSide s t) (x y : Nat) : DieSide s (t.laneMove .el x y) := (((h.modLane ..).modLane ..).put ..).put ..

theorem calClear (h : DieSide s t) (x : Nat) : DieSide s (t.calClear .el x) := ((h.put ..).put ..).put ..

end DieSide

/-! ### The plane switch (R55) -/

/-- TB0 follows the other lane, and slews (R55). -/
def State.switched (s : State) (y : Nat) : State :=
  let t := (s.modEl (fun e => { e with followLane := y, laneChosen := true })).put .el Reg.TIME_STAT_PLANE y
  (t.modEl (fun e => { e with switchTick := some (t.tick .el) })).tbSetState .el 0 3

/-- The jump between the planes is reported, or owed. -/
def State.jumpTold (s : State) (d : Option Int) : State :=
  match d with
  | some v => (s.putI .el (Reg.TB_STAT_PHASE_ERR 0) (psOf (-v))).logI .el (unitTime .el) 0x1005 0 v
  | none => if s.el.lic.tbCount < 2 then s.modEl (fun e => { e with switchOwed := true }) else s.log .el (unitTime .el) 0x1005 0 0x8000000000000000

/-- TB1 is in HOLDOVER when the lane it takes is down (R55). -/
def State.tb1Down (s : State) (former : Nat) : State :=
  if 2 ≤ s.el.lic.tbCount && (s.tbState .el 1 == 1 || s.tbState .el 1 == 2 || s.tbState .el 1 == 3) && !(s.laneState .el former == 3 || s.laneState .el former == 4)
  then s.tbHoldover .el 1 else s

/-- What a plane switch writes once TB0 slews. -/
def jumpFlds : List (Part × Fld) := [(.el, Reg.TB_STAT_PHASE_ERR 0), (.el, Reg.TB_STAT_STATE 1)]

section
variable (s : State) (x y : Nat)

theorem planeSwitch_eq (h0 : s.tbState .el 0 ≠ 0) (hl : s.el.refclkLost = false) :
    s.planeSwitch y = ((s.switched y).jumpTold s.planeDiff).tb1Down s.el.followLane := by
  have hst : ∀ t : State, ((s.modEl (fun e => { e with followLane := y, laneChosen := true })).put .el Reg.TIME_STAT_PLANE y).reg .el (Reg.TB_STAT_STATE 0).off = s.reg .el (Reg.TB_STAT_STATE 0).off := fun _ => by
    rw [reg_put, if_neg (by decide), reg_modEl _ _ _ _ rfl]
  have hc : ¬ ((((s.modEl (fun e => { e with followLane := y, laneChosen := true })).put .el Reg.TIME_STAT_PLANE y).tbState .el 0 = 0 || s.el.refclkLost) = true) := by
    rw [hl]
    simp only [State.tbState, State.get, Bool.or_false, decide_eq_true_eq, show ¬ (0 = 2) by decide, if_false, hst s]
    exact h0
  have hif : ∀ (a b : State), (if (((s.modEl (fun e => { e with followLane := y, laneChosen := true })).put .el Reg.TIME_STAT_PLANE y).tbState .el 0 = 0 || s.el.refclkLost) = true then a else b) = b :=
    fun a b => if_neg hc
  exact congrArg (fun t : State => (t.jumpTold s.planeDiff).tb1Down s.el.followLane) (hif _ _)

theorem jumpTold_side (d : Option Int) : DieSide s (s.jumpTold d) := by
  unfold State.jumpTold
  split
  · exact ((DieSide.refl s).put _ _).log ..
  · exact .ite ⟨rfl, rfl, rfl, rfl⟩ ((DieSide.refl s).log ..)

theorem jumpTold_touch (d : Option Int) : Touch jumpFlds s (s.jumpTold d) := by
  unfold State.jumpTold
  split
  · exact ((Touch.refl _ s).put .el _ _ (by decide) (by decide)).logI ..
  · exact .ite ((Touch.refl _ s).modEl (fun e => { e with switchOwed := true })) ((Touch.refl _ s).log ..)

theorem tb1Down_side : DieSide s (s.tb1Down x) := .ite (((DieSide.refl s).put _ _).log ..) (.refl s)

theorem tb1Down_touch : Touch jumpFlds s (s.tb1Down x) := .ite (((Touch.refl _ s).put .el _ _ (by decide) (by decide)).logI ..) (.refl _ s)

/-! ### Failover (R108) -/

/-- The other lane is selected. -/
def State.otherSelected (s : State) (x y : Nat) : State :=
  (s.put .el (Reg.LANE_STAT_SELECTED (laneBlk .el x)) 0).put .el (Reg.LANE_STAT_SELECTED (laneBlk .el y)) 1

/-- What a failover writes once TB0 slews. -/
def movedFlds (x : Nat) : List (Part × Fld) :=
  [(.el, Reg.LANE_STAT_UNACKED (laneBlk .el x)), (.el, Reg.LANE_STAT_RETRY (laneBlk .el x)), (.el, Reg.CLK_STAT_ACLK_SRC)] ++ jumpFlds

theorem failover_leaves (h0 : s.tbState .el 0 ≠ 0) (hl : s.el.refclkLost = false) :
    DieSide ((s.otherSelected x (1 - x)).switched (1 - x)) (s.failover x) ∧ Touch (movedFlds x) ((s.otherSelected x (1 - x)).switched (1 - x)) (s.failover x) := by
  have hst : (s.otherSelected x (1 - x)).tbState .el 0 = s.tbState .el 0 := by
    unfold State.otherSelected State.tbState State.get
    have ho : ∀ z : Nat, (Reg.TB_STAT_STATE 0).off ≠ (Reg.LANE_STAT_SELECTED (laneBlk .el z)).off := fun z => by
      show 0x1108 ≠ 0x3100 + 0x80 * z + 8
      omega
    rw [if_neg (show ¬ (0 = 2) by decide), reg_put, if_neg (ho _), reg_put, if_neg (ho _)]
  have he : s.failover x = (((((s.otherSelected x (1 - x)).planeSwitch (1 - x)).laneMove .el x (1 - x)).log .el 0x09 0x2004 x (s.lane .el x).unackedTraffic)).aclkSource := rfl
  rw [he, planeSwitch_eq _ _ (show (s.otherSelected x (1 - x)).tbState .el 0 ≠ 0 from hst ▸ h0) hl]
  refine ⟨((((jumpTold_side _ _).trans (tb1Down_side _ _)).laneMove _ _).log ..).aclkSource, ?_⟩
  have h1 := ((jumpTold_touch ((s.otherSelected x (1 - x)).switched (1 - x)) (s.otherSelected x (1 - x)).planeDiff).trans (tb1Down_touch _ (s.otherSelected x (1 - x)).el.followLane)).mono
    (W := movedFlds x) (List.subset_append_right _ _)
  refine ((Touch.put (Touch.put ((h1.modLane ..).modLane ..) .el _ _ ?_ ?_) .el _ _ ?_ ?_).log ..).aclkSource ?_
  · simp [movedFlds]
  · exact ⟨show 40 ≤ 47 by decide, show 47 < 64 by decide⟩
  · simp [movedFlds]
  · exact ⟨show 32 ≤ 34 by decide, show 34 < 64 by decide⟩
  · simp [movedFlds]
end

/-- A time base of which a walk wrote neither anchor nor offset nor rate, and which was and is set, reads on. -/
theorem Touch.tbNow {W : List (Part × Fld)} {s t : State} {p : Part} {n : Nat} (h : Touch W s t) (hn : n ≠ 2) (hc : ∀ g ∈ rateFlds n, g.lo ≤ g.hi ∧ g.hi < 64 ∧ Fld.free W p g)
    (hs : t.tbState p n = 0 ↔ s.tbState p n = 0) : t.tbNow p n = s.tbNow p n := by
  have hg : ∀ g ∈ rateFlds n, t.get p g = s.get p g := fun g hm => h.get p g ⟨(hc g hm).1, (hc g hm).2.1⟩ (hc g hm).2.2
  have hr : ∀ o, wholeReg o ∈ rateFlds n → t.reg p o = s.reg p o := fun o ho => by
    have hf := hg _ ho
    simp only [State.get, wholeReg, fget] at hf
    have h1 := (t.reg p o).isLt
    have h2 := (s.reg p o).isLt
    apply BitVec.eq_of_toNat_eq
    simpa [Nat.mod_eq_of_lt h1, Nat.mod_eq_of_lt h2] using hf
  have hraw : ∀ f, t.tbRaw p n f 0 = s.tbRaw p n f 0 := fun f => by
    unfold State.tbRaw State.tbAnchor State.tbOfs State.tbRate State.getI
    have h1 := hg (Reg.TB_ANCHOR_HI_ANCHOR_HI n) (by simp [rateFlds, anchorFlds])
    have h2 : t.get p (Reg.TB_RATE_RATE n) = s.get p (Reg.TB_RATE_RATE n) := by
      unfold State.get
      rw [hr (Reg.TB_RATE_RATE n).off (by simp [rateFlds, anchorFlds])]
    rw [h1, h2, hr _ (by simp [rateFlds, anchorFlds]), hr (Reg.TB_OFS_SEC_SEC n).off (by simp [rateFlds, anchorFlds]), hr (Reg.TB_OFS_NSF_NS n).off (by simp [rateFlds, anchorFlds])]
  unfold State.tbNow State.tbAt
  rw [h.frc, if_neg hn, if_neg hn, hraw]
  by_cases h0 : s.tbState p n = 0
  · rw [if_pos h0, if_pos (hs.mpr h0)]
  · rw [if_neg h0, if_neg (fun e => h0 (hs.mp e))]

/-! ### The failure of a selected lane (R108) -/

section
variable (s : State) (x : Nat)

/-- What a lane marked FAILED has written. -/
def shownFlds (x : Nat) : List (Part × Fld) :=
  [(.el, Reg.LANE_STAT_STATE (laneBlk .el x)), (.el, Reg.LANE_STAT_FAIL_CAUSE (laneBlk .el x))] ++ calFlds .el x

/-- What the choice of the other lane and the switch of planes write. -/
def switchFlds (x : Nat) : List (Part × Fld) :=
  [(.el, Reg.LANE_STAT_SELECTED (laneBlk .el x)), (.el, Reg.LANE_STAT_SELECTED (laneBlk .el (1 - x))), (.el, Reg.TIME_STAT_PLANE), (.el, Reg.TB_STAT_STATE 0)]

theorem failShown_side (cause : Nat) : DieSide s (s.failShown .el x cause) := by
  have h1 : DieSide s (s.leaveFail .el x) := .ite ((DieSide.refl s).modLane ..) (.refl s)
  exact (((h1.put ..).put ..).log ..).calClear x

theorem failShown_touch (cause : Nat) : Touch (shownFlds x) s (s.failShown .el x cause) := by
  have h1 : Touch (shownFlds x) s (s.leaveFail .el x) := .ite ((Touch.refl _ s).modLane ..) (.refl _ s)
  exact (((h1.laneSet .el x 6 (by simp [shownFlds])).put .el _ cause (by simp [shownFlds]) ⟨show 8 ≤ 11 by decide, show 11 < 64 by decide⟩).log ..).calClear .el x (List.subset_append_right _ _)

theorem switched_side (y : Nat) : ((s.switched y).ux = s.ux) ∧ (s.switched y).el.followLane = y := ⟨rfl, rfl⟩

theorem switched_touch : Touch (switchFlds x) s ((s.otherSelected x (1 - x)).switched (1 - x)) := by
  have h1 := ((Touch.refl _ s).laneSelect .el x 0 (show _ ∈ switchFlds x by simp [switchFlds])).laneSelect .el (1 - x) 1 (show _ ∈ switchFlds x by simp [switchFlds])
  have h2 := (h1.modEl (fun e => { e with followLane := 1 - x, laneChosen := true })).put .el Reg.TIME_STAT_PLANE (1 - x) (by simp [switchFlds]) (by decide)
  exact (h2.modEl _).put .el (Reg.TB_STAT_STATE 0) 3 (by simp [switchFlds]) (by decide)

/-- The fields the switch sets, as they read (R55, R107). -/
theorem switched_reads (x : Fin 2) : let u := (s.otherSelected x (1 - x.val)).switched (1 - x.val)
    u.bit .el (Reg.LANE_STAT_SELECTED (laneBlk .el x)) = false ∧ u.bit .el (Reg.LANE_STAT_SELECTED (laneBlk .el (1 - x.val))) = true ∧ u.get .el Reg.TIME_STAT_PLANE = 1 - x.val
      ∧ u.tbState .el 0 = 3 := by
  intro u
  have hy : 1 - x.val < 2 := by omega
  let t := s.otherSelected x (1 - x.val)
  let v := (t.modEl (fun e => { e with followLane := 1 - x.val, laneChosen := true })).put .el Reg.TIME_STAT_PLANE (1 - x.val)
  have hv : Touch [(.el, Reg.TB_STAT_STATE 0)] v u := ((Touch.refl _ v).modEl _).put .el (Reg.TB_STAT_STATE 0) 3 (by simp) (by decide)
  have ht : Touch [(.el, Reg.TIME_STAT_PLANE), (.el, Reg.TB_STAT_STATE 0)] t u :=
    (((Touch.refl _ t).modEl (fun e => { e with followLane := 1 - x.val, laneChosen := true })).put .el Reg.TIME_STAT_PLANE (1 - x.val) (by simp) (by decide)).trans (hv.mono (by simp))
  have hsel : ∀ z < 2, Fld.free [(.el, Reg.TIME_STAT_PLANE), (.el, Reg.TB_STAT_STATE 0)] .el (Reg.LANE_STAT_SELECTED (laneBlk .el z)) := by
    unfold Fld.free
    decide
  refine ⟨?_, ?_, ?_, ?_⟩
  · rw [ht.bit .el _ ⟨le_refl _, show 3 < 64 by decide⟩ (hsel x x.isLt), State.bit]
    show ((((s.put .el _ 0).put .el _ 1).get .el _) != 0) = false
    rw [get_put_other _ _ _ _ _ (show 3 < 64 by decide) (le_refl _) (show 3 < 64 by decide) (.inl (by simp only [Reg.LANE_STAT_SELECTED, laneBlk]; omega)),
      get_put_same _ _ _ _ (show 3 < 64 by decide) (le_refl _)]
    rfl
  · rw [ht.bit .el _ ⟨le_refl _, show 3 < 64 by decide⟩ (hsel _ hy), State.bit]
    show ((((s.put .el _ 0).put .el _ 1).get .el _) != 0) = true
    rw [get_put_same _ _ _ _ (show 3 < 64 by decide) (le_refl _)]
    rfl
  · rw [hv.get .el _ (by decide) (by unfold Fld.free; decide), get_put_same _ _ _ _ (by decide) (by decide)]
    exact Nat.mod_eq_of_lt hy
  · exact (get_put_same _ _ _ _ (show 2 < 64 by decide) (show 0 ≤ 2 by decide)).trans (by rfl)
end

/-- What a failover leaves to read of the switch that precedes it. -/
theorem moved_free : ∀ x : Fin 2, ∀ g ∈ [Reg.LANE_STAT_SELECTED (laneBlk .el x), Reg.LANE_STAT_SELECTED (laneBlk .el (1 - x.val)), Reg.TIME_STAT_PLANE, Reg.TB_STAT_STATE 0,
    Reg.LANE_STAT_STATE (laneBlk .el (1 - x.val))], Fld.free (movedFlds x) .el g := by
  unfold Fld.free
  decide

theorem shown_free : ∀ x : Fin 2, ∀ g ∈ [Reg.LANE_STAT_SELECTED (laneBlk .el x), Reg.LANE_STAT_AWAY (laneBlk .el (1 - x.val)), Reg.LANE_STAT_STATE (laneBlk .el (1 - x.val)), Reg.TB_STAT_STATE 0],
    Fld.free (shownFlds x) .el g := by
  unfold Fld.free
  decide

theorem switch_free : ∀ x : Fin 2, Fld.free (switchFlds x) .el (Reg.LANE_STAT_STATE (laneBlk .el (1 - x.val))) := by
  unfold Fld.free
  decide

/-- Nothing on the way writes the anchor, the offset or the rate of TB0. -/
theorem rate_free : ∀ x : Fin 2, ∀ g ∈ rateFlds 0, g.lo ≤ g.hi ∧ g.hi < 64 ∧ Fld.free (shownFlds x ++ switchFlds x ++ movedFlds x) .el g := by
  unfold Fld.free
  decide

/-- Settles O23: the failed lane's selection moves to the other lane, TB0 slews to its plane, and nothing it reads from changes. -/
theorem failover : Obligations.Failover := by
  intro x cdr s hl hp hsel hst haway h0 hlost
  let c := if cdr then 3 else 2
  let a := s.failShown .el x c
  let b := (a.otherSelected x (1 - x.val)).switched (1 - x.val)
  have hsa := failShown_side s x c
  have hta := failShown_touch s x c
  have hab : Touch (switchFlds x) a b := switched_touch a x
  have hsel' : a.bit .el (Reg.LANE_STAT_SELECTED (laneBlk .el x)) = true := (hta.bit .el _ ⟨le_refl _, show 3 < 64 by decide⟩ (shown_free x _ (by simp))).trans hsel
  have haway' : a.bit .el (Reg.LANE_STAT_AWAY (laneBlk .el (1 - x.val))) = false := (hta.bit .el _ ⟨le_refl _, show 4 < 64 by decide⟩ (shown_free x _ (by simp))).trans haway
  have hst' : a.laneState .el (1 - x.val) = 4 := (hta.get .el _ ⟨show 0 ≤ 2 by decide, show 2 < 64 by decide⟩ (shown_free x _ (by simp))).trans hst
  have h0' : a.tbState .el 0 = s.tbState .el 0 := hta.get .el (Reg.TB_STAT_STATE 0) (by decide) (shown_free x _ (by simp))
  have hp' : a.el.lic.planes = 2 := by
    rw [show a.el.lic = s.el.lic from hsa.lic]
    exact hp
  obtain ⟨hside, htouch⟩ := failover_leaves a x (h0' ▸ h0) (hsa.lost.trans hlost)
  have hloss : a.laneLoss .el x = a.failover x := (if_pos hsel').trans (if_pos (by simp [State.failoverTarget, hp', hst', haway']))
  have hkept : (a.failover x).laneState .el (1 - x.val) = 4 :=
    (htouch.get .el _ ⟨show 0 ≤ 2 by decide, show 2 < 64 by decide⟩ (moved_free x _ (by simp))).trans ((hab.get .el _ ⟨show 0 ≤ 2 by decide, show 2 < 64 by decide⟩ (switch_free x)).trans hst')
  have hend : (a.failover x).absentCheck .el = a.failover x := by
    refine if_neg ?_
    have hx : x.val = 0 ∨ x.val = 1 := by omega
    rcases hx with hx | hx
    · simp only [hx] at hkept
      simp [hx, hkept]
    · simp only [hx] at hkept
      simp [hx, hkept]
  have hexec : exec (.losPersist .el ⟨x.val, by omega⟩ cdr) s = .next (a.failover x) := by
    refine congrArg Host.Outcome.next ((laneFault_of_up s .el x c (decide_eq_true x.isLt) hl).trans ?_)
    rw [laneFail_eq, hloss, hend]
  obtain ⟨r1, r2, r3, r4⟩ := switched_reads a x
  have hall : Touch (shownFlds x ++ switchFlds x ++ movedFlds x) s (a.failover x) :=
    ((hta.mono (by intro f hf; simp [hf])).trans (hab.mono (by intro f hf; simp [hf]))).trans (htouch.mono (by intro f hf; simp [hf]))
  have h3 : (a.failover x).tbState .el 0 = 3 := (htouch.get .el (Reg.TB_STAT_STATE 0) (by decide) (moved_free x _ (by simp))).trans r4
  refine ⟨_, hexec, (htouch.bit .el _ ⟨le_refl _, show 3 < 64 by decide⟩ (moved_free x _ (by simp))).trans r1, (htouch.bit .el _ ⟨le_refl _, show 3 < 64 by decide⟩ (moved_free x _ (by simp))).trans r2,
    hside.follow, (htouch.get .el _ (by decide) (moved_free x _ (by simp))).trans r3, h3, hall.tbNow (by decide) (rate_free x) ?_, hside.ux.trans ?_⟩
  · rw [h3]
    exact ⟨fun h => absurd h (by decide), fun h => absurd h h0⟩
  · exact hsa.ux

end Sys2Proof.Machine

/-! SUPPORT. Joining and leaving a lane (R113, R125 to R131). -/

namespace Sys2Proof.Machine

set_option Elab.async false

/-! ### Training (R84, R113, R125) -/

section
variable (s : State) (p : Part) (x : Nat)

/-- A trained lane in JOIN, before it sends its join record. -/
def State.trained (s : State) (p : Part) (x : Nat) (aInt : BitVec 16) : State :=
  let t := (s.laneSet p x 2).put p (Reg.LANE_TCAL_A_INT (laneBlk p x)) aInt.toNat
  ((t.setReg p (Reg.LANE_CRED_CREDITS (laneBlk p x)).off joinCredWord).modLane p x (fun _ => Lane.zero)).laneShow p x

/-- What a lane that enters JOIN writes. -/
def trainedFlds (p : Part) (x : Nat) : List (Part × Fld) :=
  [(p, Reg.LANE_STAT_STATE (laneBlk p x)), (p, Reg.LANE_TCAL_A_INT (laneBlk p x)), (p, wholeReg (Reg.LANE_CRED_CREDITS (laneBlk p x)).off),
   (p, Reg.LANE_STAT_UNACKED (laneBlk p x)), (p, Reg.LANE_STAT_RETRY (laneBlk p x))]

theorem Touch.laneShow {W : List (Part × Fld)} {s t : State} (h : Touch W s t) (hW : (p, Reg.LANE_STAT_UNACKED (laneBlk p x)) ∈ W ∧ (p, Reg.LANE_STAT_RETRY (laneBlk p x)) ∈ W) :
    Touch W s (t.laneShow p x) :=
  (h.put p _ _ hW.1 ⟨show 40 ≤ 47 by decide, show 47 < 64 by decide⟩).put p _ _ hW.2 ⟨show 32 ≤ 34 by decide, show 34 < 64 by decide⟩

theorem trained_touch (aInt : BitVec 16) : Touch (trainedFlds p x) s (s.trained p x aInt) := by
  have h1 := (Touch.refl (trainedFlds p x) s).laneSet p x 2 (by simp [trainedFlds])
  have h2 := h1.put p (Reg.LANE_TCAL_A_INT (laneBlk p x)) aInt.toNat (by simp [trainedFlds]) ⟨show 16 ≤ 31 by decide, show 31 < 64 by decide⟩
  exact ((h2.setReg p _ joinCredWord (by simp [trainedFlds])).modLane p x (fun _ => Lane.zero)).laneShow p x (by simp [trainedFlds])

/-- A field of no register of a lane's block. -/
theorem trained_free {q : Part} {g : Fld} (h : q ≠ p ∨ g.off < laneBlk p x) : Fld.free (trainedFlds p x) q g := by
  intro f hf hq
  refine (Fld.apart_iff _ _).mpr (.inl ?_)
  simp only [trainedFlds, List.mem_cons, List.not_mem_nil, or_false] at hf
  rcases hf with rfl | rfl | rfl | rfl | rfl <;> rcases h with h | h <;> first | exact absurd hq.symm h | (simp only [Reg.LANE_STAT_STATE, Reg.LANE_TCAL_A_INT, Reg.LANE_CRED_CREDITS, Reg.LANE_STAT_UNACKED, Reg.LANE_STAT_RETRY, wholeReg]; omega)

/-- The record a trained lane sends is that of the untrained one. -/
theorem joinRec_trained (aInt : BitVec 16) : (s.trained p x aInt).joinRec p x = s.joinRec p x := by
  have hux : ∀ g : Fld, g.lo ≤ g.hi ∧ g.hi < 64 → g.off < 0x3100 → (s.trained p x aInt).get .ux g = s.get .ux g := fun g hg ho => by
    refine (trained_touch s p x aInt).get .ux g hg (trained_free p x ?_)
    have := laneBlk_ge p x
    exact .inr (by omega)
  have h1 := hux Reg.UX_IDENT_ROLE_TIER (by decide) (by decide)
  have h2 := hux Reg.UX_IDENT_ROLE_PLANE (by decide) (by decide)
  have h3 := hux Reg.UX_IDENT_ROLE_POS (by decide) (by decide)
  unfold State.joinRec State.joinKind State.planeOf State.pdiOf State.tier
  rw [h1, h2, h3]

theorem lane_trained (aInt : BitVec 16) : (s.trained p x aInt).lane p x = Lane.zero := by
  unfold State.trained State.laneShow
  rw [lane_put, lane_put, lane_modLane_same]

theorem trained_state (aInt : BitVec 16) : (s.trained p x aInt).laneState p x = 2 := by
  let a := s.laneSet p x 2
  have h : Touch [(p, Reg.LANE_TCAL_A_INT (laneBlk p x)), (p, wholeReg (Reg.LANE_CRED_CREDITS (laneBlk p x)).off), (p, Reg.LANE_STAT_UNACKED (laneBlk p x)), (p, Reg.LANE_STAT_RETRY (laneBlk p x))]
      a (s.trained p x aInt) := by
    have h2 := (Touch.refl [(p, Reg.LANE_TCAL_A_INT (laneBlk p x)), (p, wholeReg (Reg.LANE_CRED_CREDITS (laneBlk p x)).off), (p, Reg.LANE_STAT_UNACKED (laneBlk p x)), (p, Reg.LANE_STAT_RETRY (laneBlk p x))] a).put
      p (Reg.LANE_TCAL_A_INT (laneBlk p x)) aInt.toNat (by simp) ⟨show 16 ≤ 31 by decide, show 31 < 64 by decide⟩
    exact ((h2.setReg p _ joinCredWord (by simp)).modLane p x (fun _ => Lane.zero)).laneShow p x (by simp)
  refine (h.get p _ ⟨show 0 ≤ 2 by decide, show 2 < 64 by decide⟩ ?_).trans (get_put_same _ _ _ _ (show 2 < 64 by decide) (show 0 ≤ 2 by decide))
  intro f hf _
  simp only [List.mem_cons, List.not_mem_nil, or_false] at hf
  rcases hf with rfl | rfl | rfl | rfl
  · exact (Fld.apart_iff _ _).mpr (.inl (by simp only [Reg.LANE_STAT_STATE, Reg.LANE_TCAL_A_INT]; omega))
  · exact (Fld.apart_iff _ _).mpr (.inl (by simp only [Reg.LANE_STAT_STATE, Reg.LANE_CRED_CREDITS, wholeReg]; omega))
  · exact (Fld.apart_iff _ _).mpr (.inr (.inl (show 2 < 40 by decide)))
  · exact (Fld.apart_iff _ _).mpr (.inr (.inl (show 2 < 32 by decide)))

theorem reg_laneShow_other (q : Part) (o : Nat) (h : o ≠ laneBlk p x + 8) : (s.laneShow p x).reg q o = s.reg q o := by
  unfold State.laneShow
  by_cases hq : q = p
  · subst hq
    rw [reg_put, if_neg (by simpa [Reg.LANE_STAT_RETRY] using h), reg_put, if_neg (by simpa [Reg.LANE_STAT_UNACKED] using h)]
  · unfold State.put
    rw [reg_setReg_part _ _ _ _ hq, reg_setReg_part _ _ _ _ hq]

theorem trained_credits (aInt : BitVec 16) : (s.trained p x aInt).reg p (Reg.LANE_CRED_CREDITS (laneBlk p x)).off = joinCredWord := by
  unfold State.trained
  rw [reg_laneShow_other _ _ _ _ _ (by simp only [Reg.LANE_CRED_CREDITS]; omega), reg_modLane, reg_setReg_same]

theorem trained_aInt (aInt : BitVec 16) : (s.trained p x aInt).get p (Reg.LANE_TCAL_A_INT (laneBlk p x)) = aInt.toNat := by
  unfold State.trained State.get
  rw [reg_laneShow_other _ _ _ _ _ (by simp only [Reg.LANE_TCAL_A_INT]; omega), reg_modLane, reg_setReg_other _ _ _ _ _ (by simp only [Reg.LANE_TCAL_A_INT, Reg.LANE_CRED_CREDITS]; omega)]
  exact (get_put_same _ _ _ _ (show 31 < 64 by decide) (show 16 ≤ 31 by decide)).trans (Nat.mod_eq_of_lt aInt.isLt)

/-- A lane in JOIN sends its join record (R125). -/
theorem send_join (h : s.laneState p x = 2) (j : JoinRec) : s.send p x (.join j) = s.modLane p x (fun l => { l with txq := l.txq ++ [(5, .join j)] }) := by
  unfold State.send State.sendOne
  simp [h, Msg.vc]

theorem joinCredWord_credit : ∀ vc < 8, fget joinCredWord (8 * vc + 7) (8 * vc) = joinCredits vc := by decide

theorem trainDone_leaves (aInt : BitVec 16) : let u := (s.trained p x aInt).send p x (.join (s.joinRec p x))
    u.laneState p x = 2 ∧ u.get p (Reg.LANE_TCAL_A_INT (laneBlk p x)) = aInt.toNat
      ∧ (∀ vc < 8, u.credit p x vc = joinCredits vc) ∧ u.lane p x = { Lane.zero with txq := [(5, .join (s.joinRec p x))] }
      ∧ RegsBut [(p, (Reg.LANE_STAT_STATE (laneBlk p x)).off), (p, (Reg.LANE_TCAL_A_INT (laneBlk p x)).off), (p, (Reg.LANE_CRED_CREDITS (laneBlk p x)).off)] s u := by
  intro u
  have hu : Touch [] (s.trained p x aInt) u := (Touch.refl ..).send ..
  have hreg : ∀ o, u.reg p o = (s.trained p x aInt).reg p o := fun o => reg_of_core (core_send ..) p o
  refine ⟨(hu.get p _ ⟨show 0 ≤ 2 by decide, show 2 < 64 by decide⟩ (fun f hf => by cases hf)).trans (trained_state s p x aInt),
    (hu.get p _ ⟨show 16 ≤ 31 by decide, show 31 < 64 by decide⟩ (fun f hf => by cases hf)).trans (trained_aInt s p x aInt), fun vc hv => ?_, ?_, ?_⟩
  · unfold State.credit
    rw [hreg, trained_credits]
    exact joinCredWord_credit vc hv
  · show (State.send _ p x _).lane p x = _
    rw [send_join _ _ _ (trained_state s p x aInt), lane_modLane_same, lane_trained]
    rfl
  · refine ((trained_touch s p x aInt).trans (hu.mono (List.nil_subset _))).regsBut ?_
    intro f hf
    simp only [trainedFlds, List.mem_cons, List.not_mem_nil, or_false] at hf
    rcases hf with rfl | rfl | rfl | rfl | rfl <;> simp [wholeReg, Reg.LANE_STAT_STATE, Reg.LANE_STAT_UNACKED, Reg.LANE_STAT_RETRY]

theorem exec_trainDone (lane : Fin 160) (aInt : BitVec 16) (hh : laneHere p lane = true) (h1 : s.laneState p lane = 1) :
    exec (.trainDone p lane aInt) s = .next ((s.trained p lane aInt).send p lane (.join (s.joinRec p lane))) := by
  refine (if_pos (by simp [hh, h1])).trans ?_
  rw [← joinRec_trained s p lane aInt]
  refine congrArg Host.Outcome.next (congrArg (fun j => (s.trained p lane aInt).send p lane (.join j)) ?_)
  unfold State.trained
  dsimp only
  unfold State.joinRec State.joinKind State.planeOf State.pdiOf State.tier State.get
  rw [reg_laneShow_other _ _ _ _ _ (by have := laneBlk_ge p lane; simp only [Reg.UX_IDENT_ROLE_TIER]; omega), reg_laneShow_other _ _ _ _ _ (by have := laneBlk_ge p lane; simp only [Reg.UX_IDENT_ROLE_PLANE]; omega),
    reg_laneShow_other _ _ _ _ _ (by have := laneBlk_ge p lane; simp only [Reg.UX_IDENT_ROLE_POS]; omega)]

/-! ### Refusal of a join (R127) -/

theorem joinRefuse_leaves (cause : Nat) (hh : laneHere p x = true) (hc : cause < 16) : let u := s.joinRefuse p x cause
    u.laneState p x = 6 ∧ u.get p (Reg.LANE_STAT_FAIL_CAUSE (laneBlk p x)) = cause ∧ ∃ es, Logged p s u (es ++ [(unitLane p x, 0x2005, x, cause)]) := by
  intro u
  have hlog : ∀ t : State, t.laneState p x = 6 → t.get p (Reg.LANE_STAT_FAIL_CAUSE (laneBlk p x)) = cause → (∃ es, Logged p s t es) →
      let v := t.log p (unitLane p x) 0x2005 x cause
      v.laneState p x = 6 ∧ v.get p (Reg.LANE_STAT_FAIL_CAUSE (laneBlk p x)) = cause ∧ ∃ es, Logged p s v (es ++ [(unitLane p x, 0x2005, x, cause)]) := by
    rintro t h1 h2 ⟨es, he⟩ v
    have hv : LaneKept t v := (LaneKept.refl t).log ..
    exact ⟨(hv.get p x hh _ (by simp [laneOwn])).trans h1, (hv.get p x hh _ (by simp [laneOwn])).trans h2, es, he.log ..⟩
  by_cases h6 : s.laneState p x = 6
  · have hu : u = (s.put p (Reg.LANE_STAT_FAIL_CAUSE (laneBlk p x)) cause).log p (unitLane p x) 0x2005 x cause :=
      congrArg (fun t : State => t.log p (unitLane p x) 0x2005 x cause) (if_pos (by simpa using h6))
    rw [hu]
    refine hlog _ ?_ ?_ ⟨[], logged_nil (events_put ..)⟩
    · exact (get_put_other _ _ _ _ _ (show 11 < 64 by decide) (show 8 ≤ 11 by decide) (show 2 < 64 by decide) (.inr (.inl (show 2 < 8 by decide)))).trans h6
    · exact (get_put_same _ _ _ _ (show 11 < 64 by decide) (show 8 ≤ 11 by decide)).trans (Nat.mod_eq_of_lt hc)
  · have hu : u = (s.laneFail p x cause).log p (unitLane p x) 0x2005 x cause :=
      congrArg (fun t : State => t.log p (unitLane p x) 0x2005 x cause) (if_neg (by simpa using h6))
    obtain ⟨h1, h2, -, -, es, he⟩ := laneFail_leaves s p x cause hh hc
    rw [hu]
    exact hlog _ h1 h2 ⟨_, he⟩

theorem joinCause_lt (j : JoinRec) (authOk : Bool) (c : Nat) (h : s.joinCause p x j authOk = some c) : c < 16 := by
  unfold State.joinCause at h
  split at h
  · cases h; decide
  split at h
  · cases h; decide
  · cases h

/-! ### CAL is entered (R107, R125, R127) -/

theorem parent_beside (x : Nat) : (Reg.LANE_TCAL_PARENT (laneBlk p x)).beside p := by
  intro y _ g hg
  simp only [laneOwn, List.mem_cons, List.not_mem_nil, or_false] at hg
  have hb : laneBlk p y + 8 ≠ laneBlk p x + 0x18 := by cases p <;> simp only [laneBlk] <;> omega
  rcases hg with rfl | rfl | rfl | rfl
  · exact .inl hb
  · exact .inl hb
  · exact .inl hb
  · exact .inr (.inl (show 0 < 1 by decide))

theorem laneCal_leaves (hh : laneHere p x = true) (j : JoinRec) : let u := s.laneCal p x j
    u.laneState p x = 3 ∧ (u.lane p x).rest = { (s.lane p x).rest with markSlot := s.tick p / 256 + 1 } ∧ ∃ es, Logged p s u ((unitLane p x, 0x2001, x, j.kind.toNat * 256 + j.port.toNat) :: es) := by
  intro u
  let a := (s.laneSet p x 3).modLane p x (fun l => { l with markSlot := s.tick p / 256 + 1 })
  let b := a.log p (unitLane p x) 0x2001 x (j.kind.toNat * 256 + j.port.toNat)
  have ha : a.laneState p x = 3 := (get_modLane ..).trans (get_put_same _ _ _ _ (show 2 < 64 by decide) (show 0 ≤ 2 by decide))
  have hl : a.lane p x = { s.lane p x with markSlot := s.tick p / 256 + 1 } := (lane_modLane_same ..).trans (by rw [State.laneSet, lane_put])
  have hbu : LaneKept b u := by
    cases p
    · exact LaneKept.aclkSource (.ite ((LaneKept.refl b).modEl (fun e => { e with laneChosen := true, followLane := x, chosenAt := b.tick .el })) (.refl b))
    · exact (LaneKept.refl b).put .ux _ _ (parent_beside .ux x) ⟨le_refl _, show 1 < 64 by decide⟩
  have hau : LaneKept a u := ((LaneKept.refl a).log ..).trans hbu
  have hlog : Logged p s b [(unitLane p x, 0x2001, x, j.kind.toNat * 256 + j.port.toNat)] := logged_log _ _ _ _ ((events_modLane ..).trans (events_put ..))
  have hkeep : ∃ es, Logged p b u es := by
    refine exists_logged_of_keeps p ?_
    cases p
    · exact keeps_aclkSource (keeps_ite (keeps_modEl (keeps_refl b) (BaseKeeps.of_same rfl rfl rfl rfl rfl rfl) rfl id) (keeps_refl b))
    · exact keeps_put (keeps_refl b)
  obtain ⟨es, he⟩ := hkeep
  refine ⟨(hau.get p x hh _ (by simp [laneOwn])).trans ha, (hau.rest p x).trans ?_, es, hlog.trans he⟩
  rw [hl]
  rfl
end

/-! ### DOWN is entered (R128) -/

section
variable (s : State) (p : Part) (x : Nat)

/-- A lane off after its LEAVEs, before what it carried is dropped. -/
def State.downShown (s : State) (p : Part) (x : Nat) : State :=
  (((s.laneSet p x 0).put p (Reg.LANE_STAT_SELECTED (laneBlk p x)) 0).calClear p x).log p (unitLane p x) 0x2007 x 0

/-- What a lane that is off takes with it. -/
def State.downDropped (s : State) (p : Part) (x : Nat) : State :=
  ((s.modLane p x (fun l => { l with leaveSent := false, leaveRcvd := false, leaveSt := some 0 })).laneDrop p x).moduleDown p x

/-- What follows for the die or the chip when a lane is off. -/
def State.downEnd (s : State) (p : Part) (x : Nat) : State :=
  match p with
  | .el => (s.absentCheck .el).aclkSource
  | .ux => (match s.laneCand x with | some k => s.candLost k 3 | none => s).childAbsent x

theorem laneDown_eq : s.laneDown p x = ((s.downShown p x).downDropped p x).downEnd p x := by
  cases p <;> rfl

/-- A lane's SELECTED is none of what a change of a member's state writes. -/
theorem memberFlds_free (pdi y : Nat) : Fld.free (memberFlds pdi) p (Reg.LANE_STAT_SELECTED (laneBlk p y)) := by
  intro f hf hq
  refine (Fld.apart_iff _ _).mpr (.inl ?_)
  simp only [memberFlds, List.mem_cons, List.not_mem_nil, or_false] at hf
  rcases hf with rfl | rfl
  · cases hq
    simp only [Reg.LANE_STAT_SELECTED, Reg.UX_LANE_HC_STATE, laneBlk]
    omega
  · cases hq
    simp only [Reg.LANE_STAT_SELECTED, Reg.HC_STAT_STATE, laneBlk]
    omega

theorem absentCheck_touch : Touch (memberFlds s.myPdi) s (s.absentCheck .el) := by
  have h1 := (Touch.refl (memberFlds s.myPdi) s).put .el Reg.HC_STAT_STATE 0 (by simp [memberFlds]) (by decide)
  exact .ite (.ite (h1.setMember s.myPdi 0 (List.Subset.refl _)) h1) (.refl _ s)

theorem childAbsent_touch : Touch (memberFlds (s.pdiOf x)) s (s.childAbsent x) := by
  have h1 : Touch (memberFlds (s.pdiOf x)) s (s.otherPlaneUp (s.pdiOf x)).2 := by
    unfold State.otherPlaneUp
    split
    · exact .refl _ s
    · exact (Touch.refl _ s).draw
  exact .ite (.ite h1 (h1.setMember _ 0 (List.Subset.refl _))) (.refl _ s)

/-- A lane's SELECTED through the loss of what it delivered. -/
theorem selected_candLost (k : Fin 8) (monitor : Nat) (y : Nat) : (s.candLost k monitor).bit .ux (Reg.LANE_STAT_SELECTED (laneBlk .ux y)) = s.bit .ux (Reg.LANE_STAT_SELECTED (laneBlk .ux y)) := by
  have hlow : ∀ k : Fin 8, ∀ f ∈ candFlds k ++ lostFlds k ++ seekFlds, f.off < 0x40000 := by decide
  refine ((Writes.refl .ux _ s).candLost k monitor (List.Subset.refl _)).bit _ ⟨le_refl _, show 3 < 64 by decide⟩ (List.all_eq_true.mpr fun f hf => (Fld.apart_iff _ _).mpr (.inl ?_))
  have := hlow k f hf
  simp only [Reg.LANE_STAT_SELECTED, laneBlk]
  omega

theorem selected_downEnd (hx : laneHere p x = true) : (s.downEnd p x).bit p (Reg.LANE_STAT_SELECTED (laneBlk p x)) = s.bit p (Reg.LANE_STAT_SELECTED (laneBlk p x)) := by
  have hv : (Reg.LANE_STAT_SELECTED (laneBlk p x)).lo ≤ (Reg.LANE_STAT_SELECTED (laneBlk p x)).hi ∧ (Reg.LANE_STAT_SELECTED (laneBlk p x)).hi < 64 := ⟨le_refl _, show 3 < 64 by decide⟩
  cases p
  · have h2 : Touch [(.el, Reg.CLK_STAT_ACLK_SRC)] (s.absentCheck .el) (s.downEnd .el x) := (Touch.refl ..).aclkSource (List.mem_singleton_self _)
    refine (h2.bit .el _ hv ?_).trans ((absentCheck_touch s).bit .el _ hv (memberFlds_free .el _ x))
    intro f hf _
    rw [List.mem_singleton] at hf
    subst hf
    have : x < 2 := of_decide_eq_true hx
    exact (Fld.apart_iff _ _).mpr (.inl (by simp only [Reg.LANE_STAT_SELECTED, Reg.CLK_STAT_ACLK_SRC, laneBlk]; omega))
  · refine ((childAbsent_touch _ x).bit .ux _ hv (memberFlds_free .ux _ x)).trans ?_
    split
    · next k hk => exact selected_candLost s ⟨k, LaneKept.laneCand_lt s x k hk⟩ 3 x
    · rfl

theorem LaneKept.moduleDown {s t : State} (h : LaneKept s t) : LaneKept s (t.moduleDown p x) := by
  cases p
  · exact h
  · exact h.modUx (fun u => { u with modules := _ })

theorem downEnd_kept : LaneKept s (s.downEnd p x) := by
  cases p
  · exact ((LaneKept.refl s).absentCheck .el).aclkSource
  · exact ((LaneKept.refl s).candOfLane x (fun _ => 3)).childAbsent x

theorem keeps_downEnd {t : State} (h : Keeps s t) : Keeps s (t.downEnd p x) := by
  cases p
  · exact keeps_aclkSource (keeps_absentCheck h)
  · refine keeps_childAbsent ?_
    split
    · exact keeps_candLost h
    · exact h

/-- A lane that goes DOWN after an exchange of LEAVE (R128). -/
theorem laneDown_leaves (hh : laneHere p x = true) : let u := s.laneDown p x
    u.laneState p x = 0 ∧ u.bit p (Reg.LANE_STAT_SELECTED (laneBlk p x)) = false ∧ (u.lane p x).leaveSent = false ∧ (u.lane p x).leaveRcvd = false ∧ (u.lane p x).leaveSt = some 0
      ∧ ∃ es, Logged p s u ((unitLane p x, 0x2007, x, 0) :: es) := by
  intro u
  let a := (s.laneSet p x 0).put p (Reg.LANE_STAT_SELECTED (laneBlk p x)) 0
  let b := s.downShown p x
  let c := b.modLane p x (fun l => { l with leaveSent := false, leaveRcvd := false, leaveSt := some 0 })
  let d := b.downDropped p x
  have hu : u = d.downEnd p x := laneDown_eq s p x
  have hab : Touch (calFlds p x) a b := ((Touch.refl ..).calClear p x (List.Subset.refl _)).log ..
  have hcd : LaneKept c d := ((LaneKept.refl c).laneDrop p x).moduleDown p x
  have hcu : LaneKept c u := hu ▸ hcd.trans (downEnd_kept d p x)
  have hlane : (u.lane p x).rest = (c.lane p x).rest := hcu.rest p x
  have hc : c.lane p x = { b.lane p x with leaveSent := false, leaveRcvd := false, leaveSt := some 0 } := lane_modLane_same ..
  have hstate : b.laneState p x = 0 := (hab.get p _ ⟨show 0 ≤ 2 by decide, show 2 < 64 by decide⟩ (calFlds_free p x rfl)).trans
    ((get_put_other _ _ _ _ _ (show 3 < 64 by decide) (le_refl _) (show 2 < 64 by decide) (.inr (.inl (show 2 < 3 by decide)))).trans (get_put_same _ _ _ _ (show 2 < 64 by decide) (show 0 ≤ 2 by decide)))
  have hsel : b.bit p (Reg.LANE_STAT_SELECTED (laneBlk p x)) = false := by
    rw [hab.bit p _ ⟨le_refl _, show 3 < 64 by decide⟩ (calFlds_free p x rfl), State.bit, get_put_same _ _ _ _ (show 3 < 64 by decide) (le_refl _)]
    rfl
  have hbd : Touch [(p, Reg.LANE_STAT_UNACKED (laneBlk p x)), (p, Reg.LANE_STAT_RETRY (laneBlk p x))] b d := by
    have h1 := (((Touch.refl [(p, Reg.LANE_STAT_UNACKED (laneBlk p x)), (p, Reg.LANE_STAT_RETRY (laneBlk p x))] b).modLane p x (fun l => { l with leaveSent := false, leaveRcvd := false, leaveSt := some 0 })).modLane p x
      (fun l => { l with txq := l.txq.filter (fun e => c.laneKeeps p x e.1), replay := [], resend := [], discards := l.discards + l.replay.length })).laneShow p x (by simp)
    cases p
    · exact h1
    · exact h1.modUx (fun u => { u with modules := _ })
  have hseld : d.bit p (Reg.LANE_STAT_SELECTED (laneBlk p x)) = false := by
    refine (hbd.bit p _ ⟨le_refl _, show 3 < 64 by decide⟩ ?_).trans hsel
    intro f hf _
    simp only [List.mem_cons, List.not_mem_nil, or_false] at hf
    rcases hf with rfl | rfl
    · exact (Fld.apart_iff _ _).mpr (.inr (.inl (show 3 < 40 by decide)))
    · exact (Fld.apart_iff _ _).mpr (.inr (.inl (show 3 < 32 by decide)))
  have hlog : Logged p s b [(unitLane p x, 0x2007, x, 0)] := logged_log _ _ _ _ ((events_calClear ..).trans ((events_put ..).trans (events_put ..)))
  obtain ⟨es, he⟩ := exists_logged_of_keeps p (show Keeps b u from hu ▸ keeps_downEnd b p x (keeps_moduleDown (keeps_laneDrop (keeps_modLane (keeps_refl b)))))
  have hcs : c.laneState p x = 0 := (get_modLane ..).trans hstate
  refine ⟨(hcu.get p x hh _ (by simp [laneOwn])).trans hcs, ?_, (congrArg Lane.leaveSent hlane).trans (congrArg Lane.leaveSent hc), (congrArg Lane.leaveRcvd hlane).trans (congrArg Lane.leaveRcvd hc),
    (congrArg Lane.leaveSt hlane).trans (congrArg Lane.leaveSt hc), es, hlog.trans he⟩
  rw [hu, selected_downEnd d p x hh]
  exact hseld
end

/-! ### Join records and LEAVEs (R125 to R128) -/

section
variable (s : State) (p : Part) (x : Nat)

/-- A partner's record that fits, as the lane keeps it. -/
def State.joinKept (s : State) (p : Part) (x : Nat) (j : JoinRec) : State :=
  s.modLane p x (fun l => { l with joinRcvd := some j, partnerKind := j.kind.toNat, partnerPort := j.port.toNat, joinPdi := BitVec.ofNat 20 j.pdi.toNat })

/-- The lane's own record is acknowledged. -/
def Lane.joinSent (l : Lane) : Bool := !l.txq.any (fun e => e.2.isJoin) && !l.replay.any (fun f => f.msg.isJoin)

theorem joinCheck_joinKept (j : JoinRec) (h2 : s.laneState p x = 2) :
    (s.joinKept p x j).joinCheck p x = if (s.lane p x).joinSent = true then (s.joinKept p x j).laneCal p x j else s.joinKept p x j := by
  have hl : (s.joinKept p x j).lane p x = { s.lane p x with joinRcvd := some j, partnerKind := j.kind.toNat, partnerPort := j.port.toNat, joinPdi := BitVec.ofNat 20 j.pdi.toNat } := lane_modLane_same ..
  have hst : (s.joinKept p x j).laneState p x = 2 := (get_modLane ..).trans h2
  unfold State.joinCheck
  simp only [hl, hst, Lane.joinSent, beq_self_eq_true, Bool.true_and]
  rfl

/-- The partner's LEAVE is taken. -/
def State.leaveTaken (s : State) (p : Part) (x : Nat) : State := (s.laneSet p x 5).modLane p x (fun l => { l with leaveRcvd := true })

/-- The lane's own LEAVE was sent and is acknowledged. -/
def Lane.leaveDone (l : Lane) : Bool := l.leaveSent && l.replay.isEmpty && !l.txq.any (fun e => e.2 == .leave)

theorem leaveCheck_leaveTaken : (s.leaveTaken p x).leaveCheck p x = if (s.lane p x).leaveDone = true then (s.leaveTaken p x).laneDown p x else s.leaveTaken p x := by
  have hl : (s.leaveTaken p x).lane p x = { s.lane p x with leaveRcvd := true } := (lane_modLane_same ..).trans (by rw [State.laneSet, lane_put])
  have hst : (s.leaveTaken p x).laneState p x = 5 := (get_modLane ..).trans (get_put_same _ _ _ _ (show 2 < 64 by decide) (show 0 ≤ 2 by decide))
  unfold State.leaveCheck
  simp only [hl, hst, Lane.leaveDone, beq_self_eq_true, Bool.true_and, Bool.and_true]
  rfl

theorem events_leaveTaken (q : Part) : ((s.leaveTaken p x).base q).events = (s.base q).events := (events_modLane ..).trans (events_put ..)
end

/-- What a lane told to join, or trained, does (R19, R84, R113, R125 to R127). -/
theorem laneJoins (p : Part) (lane : Fin 160) (s : State) (hh : laneHere p lane = true) :
    (s.laneState p lane = 0 → s.laneUsed p lane = true → s.bit p (Reg.LANE_CTRL_AUTO_JOIN (laneBlk p lane)) = true → exec (.signalDetect p lane) s = .next (s.laneTrain p lane))
    ∧ (s.laneState p lane = 0 ∨ s.laneState p lane = 6 → s.laneUsed p lane = false →
        exec (.signalDetect p lane) s = .next (s.joinRefuse p lane 7) ∧ exec (.laneJoinCmd p lane) s = .next (s.joinRefuse p lane 7))
    ∧ ((s.laneState p lane ≠ 0 ∧ s.laneState p lane ≠ 6) ∨ (s.laneUsed p lane = true ∧ (s.laneState p lane = 6 ∨ s.bit p (Reg.LANE_CTRL_AUTO_JOIN (laneBlk p lane)) = false)) → exec (.signalDetect p lane) s = .next s)
    ∧ (s.laneState p lane = 0 ∨ s.laneState p lane = 6 → s.laneUsed p lane = true → exec (.laneJoinCmd p lane) s = .next (s.laneTrain p lane))
    ∧ (s.laneState p lane ≠ 0 → s.laneState p lane ≠ 6 → exec (.laneJoinCmd p lane) s = .next s) := by
  have hin : s.laneState p lane = 0 ∨ s.laneState p lane = 6 → (s.laneState p lane == 0 || s.laneState p lane == 6) = true := fun h => by rcases h with h | h <;> simp [h]
  refine ⟨fun h0 hu ha => ?_, fun h hu => ⟨?_, ?_⟩, fun h => ?_, fun h hu => ?_, fun h0 h6 => ?_⟩
  · exact congrArg Host.Outcome.next ((if_neg (by simp [hh, h0])).trans ((if_neg (by simp [hu])).trans (if_pos (by simp [h0, ha]))))
  · exact congrArg Host.Outcome.next ((if_neg (by simp [hh, hin h])).trans (if_pos (by simp [hu])))
  · exact congrArg Host.Outcome.next ((if_pos (by simp [hh, hin h])).trans (if_neg (by simp [hu])))
  · rcases h with ⟨h0, h6⟩ | ⟨hu, h⟩
    · exact congrArg Host.Outcome.next (if_pos (by simp [h0, h6]))
    · refine congrArg Host.Outcome.next ?_
      by_cases hs : s.laneState p lane = 0 ∨ s.laneState p lane = 6
      · refine (if_neg (by simp [hh, hin hs])).trans ((if_neg (by simp [hu])).trans (if_neg ?_))
        rcases h with h | h
        · simp [h]
        · simp [h]
      · exact if_pos (by simpa [hh] using hs)
  · exact congrArg Host.Outcome.next ((if_pos (by simp [hh, hin h])).trans (if_pos hu))
  · exact congrArg Host.Outcome.next (if_neg (by simp [h0, h6]))

/-- Settles O24: training, the join records and CAL, and the exchange of LEAVE that ends in DOWN. -/
theorem laneMembership : Obligations.LaneMembership := by
  refine ⟨fun p lane aInt j authOk s hh => ?_, fun p lane s hh => ?_, fun p lane aInt j authOk s hh c hc => ?_⟩
  · obtain ⟨c1, c2, c3, c4, c5⟩ := laneJoins p lane s hh
    intro blk st train refused kept sent
    refine ⟨c1, fun h hu => ⟨⟨_, (c2 h hu).1, joinRefuse_leaves s p lane 7 hh (by decide)⟩, ⟨_, (c2 h hu).2, joinRefuse_leaves s p lane 7 hh (by decide)⟩⟩, c3, c4, c5,
      fun h => ⟨_, exec_trainDone s p lane aInt hh h, trainDone_leaves s p lane aInt⟩, fun h => if_neg ?_, fun h2 hj => ?_, fun c h2 hj => ?_, fun h => congrArg Host.Outcome.next (if_neg ?_)⟩
    · simpa [hh] using h
    · have hx : exec (.joinFrame p lane j authOk) s = .next ((s.joinKept p lane j).joinCheck p lane) := by
        refine congrArg Host.Outcome.next ((if_pos ?_).trans ?_)
        · have h2' : s.laneState p lane = 2 := h2
          simp [hh, h2']
        · rw [hj]
          rfl
      rw [joinCheck_joinKept s p lane j h2] at hx
      refine ⟨fun hs => hx.trans (congrArg Host.Outcome.next (if_neg (by rw [show (s.lane p lane).joinSent = false from hs]; decide))), fun hs => ?_⟩
      rw [if_pos (show (s.lane p lane).joinSent = true from hs)] at hx
      obtain ⟨r1, r2, es, r3⟩ := laneCal_leaves (s.joinKept p lane j) p lane hh j
      have hl : (s.joinKept p lane j).lane p lane = { s.lane p lane with joinRcvd := some j, partnerKind := j.kind.toNat, partnerPort := j.port.toNat, joinPdi := BitVec.ofNat 20 j.pdi.toNat } := lane_modLane_same ..
      rw [hl] at r2
      have hlog : Logged p s (s.joinKept p lane j) [] := logged_nil (events_modLane ..)
      exact ⟨_, hx, r1, congrArg Lane.partnerPort r2, congrArg Lane.joinRcvd r2, es, hlog.trans r3⟩
    · refine ⟨_, congrArg Host.Outcome.next ((if_pos ?_).trans ?_), joinRefuse_leaves s p lane c hh (joinCause_lt s p lane j authOk c hj)⟩
      · have h2' : s.laneState p lane = 2 := h2
        simp [hh, h2']
      · rw [hj]
    · have h' : s.laneState p lane ≠ 2 := h
      simp [h']
  · intro blk l carries ended
    have hx : s.laneState p lane = 4 ∨ s.laneState p lane = 5 → exec (.leaveFrame p lane) s = .next ((s.leaveTaken p lane).leaveCheck p lane) := fun h =>
      if_pos (by rcases h with h | h <;> simp [hh, h])
    rw [leaveCheck_leaveTaken] at hx
    refine ⟨fun h4 hc => ?_, fun h4 hc => ?_, fun h4 => ?_, fun h5 hr hl => ?_, fun h => ?_, fun h => ⟨fun he => ?_, fun he => ?_⟩, fun h4 h5 => ?_, congrArg Host.Outcome.next (if_pos hh)⟩
    · exact congrArg Host.Outcome.next ((if_pos (by simp [hh, h4])).trans (if_neg (ne_true_of_eq_false hc)))
    · exact congrArg Host.Outcome.next ((if_pos (by simp [hh, h4])).trans (if_pos hc))
    · exact congrArg Host.Outcome.next (if_neg (by simp [h4]))
    · have hr' : (s.lane p lane).replay = [] := hr
      have hl' : (s.lane p lane).leaveSent = false := hl
      exact congrArg Host.Outcome.next (if_pos (by simp [hh, h5, hr', hl']))
    · refine congrArg Host.Outcome.next (if_neg ?_)
      rcases h with h | h | h
      · simp [h]
      · have h' : (s.lane p lane).replay ≠ [] := h
        simp [h']
      · have h' : (s.lane p lane).leaveSent = true := h
        simp [h']
    · rw [hx h, if_neg (by rw [show (s.lane p lane).leaveDone = false from he]; decide)]
      rfl
    · rw [if_pos (show (s.lane p lane).leaveDone = true from he)] at hx
      obtain ⟨r1, r2, r3, r4, r5, es, r6⟩ := laneDown_leaves (s.leaveTaken p lane) p lane hh
      exact ⟨_, hx h, r1, r2, r3, r4, r5, es, (logged_nil (events_leaveTaken ..)).trans r6⟩
    · exact if_neg (by simp [h4, h5])
  · rcases hc with rfl | rfl | rfl | rfl | rfl | rfl | rfl | rfl
    · exact congrArg Host.Outcome.next (if_pos (by simp [hh]))
    · exact congrArg Host.Outcome.next (if_neg (by simp [hh]))
    · exact if_neg (by simp [hh])
    · exact congrArg Host.Outcome.next (if_neg (by simp [hh]))
    · exact congrArg Host.Outcome.next (if_neg (by simp [hh]))
    · exact congrArg Host.Outcome.next (if_neg (by simp [hh]))
    · exact if_neg (by simp [hh])
    · exact congrArg Host.Outcome.next (if_neg (by simp [hh]))

end Sys2Proof.Machine

/-! SUPPORT. The FEC's event on a die's selected lane goes up on that lane (R13, R130). -/

namespace Sys2Proof.Machine

set_option Elab.async false

/-- A die whose selected lane has corrected 10^6 symbols in its current second. -/
def busyFecDie : State :=
  ((State.reset.put .el (Reg.LANE_STAT_STATE (laneBlk .el 0)) 4).put .el (Reg.LANE_STAT_SELECTED (laneBlk .el 0)) 1).modLane .el 0 (fun l => { l with fecCount := 1000001 })

/-- A frame of no bytes. -/
def emptyFrame : RxFrame := { type := 0, vcf := 0, seq := 0, len := 0, payload := [], ackf := 0, ackSeq := 0, credit := 0, crc := 0 }

/-- What the FEC's count writes, for the symbols it corrected and whether a codeword was beyond correction. -/
def State.fecCounted (s : State) (p : Part) (x n : Nat) (bad : Bool) : State :=
  let s := s.count p (Reg.LANE_FEC_CORR_SYM (laneBlk p x)) n
  let s := if bad then s.count p (Reg.LANE_ERR_FEC_UNCORR (laneBlk p x)) 1 else s
  let now := s.tick p
  let l := s.lane p x
  let fresh := decide (156250000 ≤ now - l.fecFrom)
  let c := (if fresh then 0 else l.fecCount) + n
  let hit := decide (1000000 < c) && (fresh || !l.fecLogged)
  let s := s.modLane p x (fun l => { l with fecFrom := if fresh then now else l.fecFrom, fecCount := c, fecLogged := hit || (!fresh && l.fecLogged) })
  if hit then s.log p (unitLane p x) 0x200A x c else s

theorem fecCount_eq (s : State) (p : Part) (x : Nat) : s.fecCount p x = s.draw.2.fecCounted p x (s.draw.1.toNat % 16) (bitOf s.draw.1.toNat 4) := rfl

/-- Whatever the FEC corrected, its event waits on the lane itself. -/
theorem fecCounted_busyFecDie : ∀ n < 16, ∀ bad : Bool, (((busyFecDie.draw.2.fecCounted .el 0 n bad).crcFail .el 0 true).lane .el 0).txq ≠ [] := by
  decide +kernel

/-- A bad frame is counted, and a NAK is owed for any but IDLE (R102). -/
theorem exec_frameReceive_bad (s : State) (p : Part) (lane : Fin 160) (f : RxFrame) (hh : laneHere p lane = true) (hl : s.laneLinked p lane = true) (hg : frameGood f = false) :
    exec (.frameReceive p lane f) s = .next ((s.fecCount p lane).crcFail p lane (f.type == 0)) := by
  refine (if_neg (by simp [hh, hl])).trans ?_
  exact if_pos (by simp [hg])

/-- Refutes O26: a bad frame on the selected lane of a die whose corrected symbols pass 10^6 logs 0x200A, and the event waits on that lane to go up, so what the lane has to send is not what it was. -/
theorem not_frameReception : ¬ Obligations.FrameReception := by
  unfold Obligations.FrameReception
  intro h
  obtain ⟨u, hu, -, -, -, -, -, -, htx⟩ := (h .el 0 emptyFrame busyFecDie (by decide) (by decide +kernel)).1 (by decide +kernel)
  have hx := exec_frameReceive_bad busyFecDie .el 0 emptyFrame (by decide) (by decide +kernel) (by decide +kernel)
  have hl : (busyFecDie.lane .el (0 : Fin 160)).txq = [] := by decide +kernel
  rw [hu] at hx
  rw [Host.Outcome.next.inj hx, fecCount_eq, hl] at htx
  exact fecCounted_busyFecDie _ (Nat.mod_lt _ (by decide)) _ htx

end Sys2Proof.Machine

/-! SUPPORT. What a frame slot of a lane sends (R98 to R103, R114 to R118, R234). -/

namespace Sys2Proof.Machine

set_option Elab.async false

/-! ### What a lane holds beside its waiting messages -/

section
variable {α : Type} (φ : Lane → α) (s : State) (q : Part) (y : Nat)

/-- A part of a lane's data that a change leaves. -/
theorem lane_proj_modLane (p : Part) (x : Nat) (f : Lane → Lane) (h : ∀ l, φ (f l) = φ l) : φ ((s.modLane p x f).lane q y) = φ (s.lane q y) := by
  by_cases hq : q = p
  · subst hq
    by_cases hy : y = x
    · rw [hy, lane_modLane_same, h]
    · unfold State.lane State.modLane
      rw [base_mod, tget_tput_other _ _ _ _ _ _ hy]
  · unfold State.lane State.modLane
    rw [base_mod_ne s _ hq]

variable (hφ : ∀ l tx, φ { l with txq := tx } = φ l)
include hφ

theorem lane_proj_sendOne (p : Part) (x : Nat) (m : Msg) : φ ((s.sendOne p x m).lane q y) = φ (s.lane q y) := by
  unfold State.sendOne
  dsimp only
  split
  · exact lane_proj_modLane φ _ _ _ _ _ _ (fun l => hφ l _)
  · rfl

theorem lane_proj_send (p : Part) (x : Nat) (m : Msg) : φ ((s.send p x m).lane q y) = φ (s.lane q y) := by
  unfold State.send
  dsimp only
  split
  · rw [lane_proj_sendOne φ _ _ _ hφ, lane_proj_sendOne φ _ _ _ hφ]
  · rw [lane_proj_sendOne φ _ _ _ hφ]

/-- A log only adds to the messages that wait. -/
theorem lane_proj_log (p : Part) (a b c d : Nat) : φ ((s.log p a b c d).lane q y) = φ (s.lane q y) := by
  have hrec : ∀ r : EvtRec, ((s.mod .el (fun b => { b with events := b.events ++ [r] })).modEl
      (fun e => if e.ports.evtQ.length < 64 then { e with stepEvents := e.stepEvents + 1, ports := { e.ports with evtQ := e.ports.evtQ ++ [r] } } else { e with stepEvents := e.stepEvents + 1 })).lane q y = s.lane q y := fun r => by
    cases q
    · show tget _ (State.el (State.modEl _ _)).base.lanes y = _
      simp only [modEl_el]
      split <;> rfl
    · rfl
  cases p
  · have hup : ∀ (t : State) (m : Msg), φ ((t.sendUp .el m).lane q y) = φ (t.lane q y) := fun t m => by
      unfold State.sendUp
      split
      · exact lane_proj_send φ _ _ _ hφ ..
      · rfl
    exact (hup _ _).trans (congrArg φ (hrec _))
  · exact congrArg φ (lane_mod _ _ _ _ _ rfl)
end

/-! ### What a frame reports does not depend on what waits (R102, R115, R116) -/

section
variable {s t : State} {p : Part} {x : Nat}

/-- The part of a lane that a frame reports from (R102, R115). -/
def Lane.reports (l : Lane) : Lane := { Lane.zero with expSeq := l.expSeq, freed := l.freed, nakOwed := l.nakOwed, unreported := l.unreported, turn := l.turn, shown := l.shown, starveTo := l.starveTo }

theorem Touch.reg_eq {s t : State} (h : Touch [] s t) (q : Part) (o : Nat) : t.reg q o = s.reg q o :=
  h.regsBut (ex := []) (fun f hf => by cases hf) q o (by simp)

theorem Touch.get_eq {s t : State} (h : Touch [] s t) (q : Part) (g : Fld) : t.get q g = s.get q g := by
  unfold State.get
  rw [h.reg_eq]

theorem wireFrame_congr (h : Touch [] s t) (hl : (t.lane p x).reports = (s.lane p x).reports) (vc : Option Nat) (seq : Byte) (m : Option Msg) (b : FrameBody) :
    t.wireFrame p x vc seq m b = s.wireFrame p x vc seq m b := by
  have h1 : (t.lane p x).expSeq = (s.lane p x).expSeq := (congrArg Lane.expSeq hl :)
  have h2 : (t.lane p x).freed = (s.lane p x).freed := (congrArg Lane.freed hl :)
  have h3 : (t.lane p x).nakOwed = (s.lane p x).nakOwed := (congrArg Lane.nakOwed hl :)
  have h4 : (t.lane p x).unreported = (s.lane p x).unreported := (congrArg Lane.unreported hl :)
  have h5 : (t.lane p x).turn = (s.lane p x).turn := (congrArg Lane.turn hl :)
  have h6 : (t.lane p x).shown = (s.lane p x).shown := (congrArg Lane.shown hl :)
  have h7 : (t.lane p x).starveTo = (s.lane p x).starveTo := (congrArg Lane.starveTo hl :)
  have hst : ∀ v, t.starved p x v = s.starved p x v := fun v => by
    unfold State.starved State.tick State.bit
    rw [h.get_eq, h.get_eq, h.frc, h7]
  have hcv : t.creditVc p x = s.creditVc p x := by
    unfold State.creditVc
    simp only [hst, h4, h5]
  have hpl : t.planeOf p x = s.planeOf p x := by
    cases p
    · rfl
    · exact h.get_eq .ux _
  have hhold : t.egressHold p x vc = s.egressHold p x vc := by
    unfold State.egressHold State.bit
    rw [hpl, h.get_eq, h.get_eq, h.get_eq]
  unfold State.wireFrame
  simp only [hcv, hst, hhold, h1, h2, h3, h6]

theorem credit_congr (h : Touch [] s t) (vc : Nat) : t.credit p x vc = s.credit p x vc := by
  unfold State.credit
  rw [h.reg_eq]

theorem mayGo_congr (h : Touch [] s t) (hl : (t.lane p x).paid = (s.lane p x).paid) (e : Nat × Msg) : t.mayGo p x e = s.mayGo p x e := by
  unfold State.mayGo State.laneState State.bit
  rw [credit_congr h, h.get_eq, h.get_eq, hl]
end

/-! ### A frame goes on the wire -/

section
variable (s : State) (p : Part) (x : Nat)

/-- What the departure of a frame changes in its lane. -/
def Lane.departed (l : Lane) (w : WireFrame) (held : Bool) : Lane :=
  { l with wire := l.wire ++ [w], nakOwed := false, turn := (w.creditVc + 1) % 8, shown := tput 0 l.shown w.creditVc w.credit,
           unreported := if held then l.unreported else l.unreported.filter (fun v => v != w.creditVc) }

theorem lane_onWire (w : WireFrame) : (s.onWire p x w).lane p x = (s.lane p x).departed w (s.starved p x w.creditVc) := lane_modLane_same ..

theorem onWire_touch (w : WireFrame) : Touch [] s (s.onWire p x w) := (Touch.refl _ s).modLane p x (fun l => l.departed w (s.starved p x w.creditVc))

theorem events_onWire (w : WireFrame) (q : Part) : ((s.onWire p x w).base q).events = (s.base q).events := events_modLane ..

/-- A waiting message of VC3, VC4 or VC7 may go. -/
def State.lowWaits (s : State) (p : Part) (x : Nat) : Bool := (s.lane p x).txq.any (fun e => (e.1 == 3 || e.1 == 4 || e.1 == 7) && s.mayGo p x e)

/-- A frame resent goes out under its own number, and its wait starts anew (R103). -/
def State.resent (s : State) (p : Part) (x : Nat) (f : TxFrame) (fs : List TxFrame) : State :=
  let t := s.onWire p x (s.wireFrame p x (some f.vc) f.seq (some f.msg) f.body)
  t.modLane p x (fun l => { l with resend := fs, lowWait := if s.lowWaits p x then (s.lane p x).lowWait + 1 else 0,
                                   replay := l.replay.map (fun g => if g.seq == f.seq then { g with sentAt := t.tick p } else g) })

theorem lane_resent (f : TxFrame) (fs : List TxFrame) : (s.resent p x f fs).lane p x =
    { (s.lane p x).departed (s.wireFrame p x (some f.vc) f.seq (some f.msg) f.body) (s.starved p x (s.wireFrame p x (some f.vc) f.seq (some f.msg) f.body).creditVc) with
      resend := fs, lowWait := if s.lowWaits p x then (s.lane p x).lowWait + 1 else 0,
      replay := (s.lane p x).replay.map (fun g => if g.seq == f.seq then { g with sentAt := s.tick p } else g) } := by
  have ht : (s.onWire p x (s.wireFrame p x (some f.vc) f.seq (some f.msg) f.body)).tick p = s.tick p := by
    unfold State.tick
    rw [(onWire_touch ..).frc]
  unfold State.resent
  rw [lane_modLane_same, lane_onWire, ht]
  rfl

theorem resent_touch (f : TxFrame) (fs : List TxFrame) : Touch [] s (s.resent p x f fs) := by
  unfold State.resent
  exact (onWire_touch s p x _).modLane ..

/-- An IDLE slot. -/
def State.idled (s : State) (p : Part) (x : Nat) : State :=
  let t := s.modLane p x (fun l => { l with lowWait := if s.lowWaits p x then (s.lane p x).lowWait + 1 else 0 })
  t.onWire p x (t.wireFrame p x none 0 none idleBody)

/-- A lane's message in hand for a first transmission. -/
def State.inHand (s : State) (p : Part) (x vc low : Nat) (m : Msg) : State :=
  (s.modLane p x (fun l => { l with lowWait := low })).modLane p x (fun l => { l with txq := dropFirst (fun e => e == (vc, m)) l.txq })

theorem lane_inHand (vc low : Nat) (m : Msg) : (s.inHand p x vc low m).lane p x = { s.lane p x with lowWait := low, txq := dropFirst (fun e => e == (vc, m)) (s.lane p x).txq } := by
  unfold State.inHand
  rw [lane_modLane_same, lane_modLane_same]

theorem inHand_touch (vc low : Nat) (m : Msg) : Touch [] s (s.inHand p x vc low m) := ((Touch.refl ..).modLane ..).modLane ..

/-- All that the departure of a mark keeps is its stamp. -/
theorem markLeaves_keeps (m : Msg) : (s.markLeaves p x m).2 = s ∨ ∃ seq v, (s.markLeaves p x m).2 = s.modLane p x (fun l => { l with t3 := tput 0 l.t3 seq v }) := by
  cases m with
  | timeMark t =>
    by_cases hx : 144 ≤ x
    · exact .inr ⟨_, _, if_pos hx⟩
    · exact .inl (if_neg hx)
  | upMark seq d => exact .inr ⟨_, _, rfl⟩
  | _ => exact .inl rfl

theorem markLeaves_touch (m : Msg) : Touch [] s (s.markLeaves p x m).2 := by
  rcases markLeaves_keeps s p x m with h | ⟨seq, v, h⟩
  · rw [h]
    exact .refl ..
  · rw [h]
    exact (Touch.refl _ s).modLane ..

theorem lane_proj_markLeaves {α : Type} (φ : Lane → α) (hφ : ∀ l t3, φ { l with t3 := t3 } = φ l) (m : Msg) : φ ((s.markLeaves p x m).2.lane p x) = φ (s.lane p x) := by
  rcases markLeaves_keeps s p x m with h | ⟨seq, v, h⟩
  · rw [h]
  · rw [h]
    exact lane_proj_modLane φ _ _ _ _ _ _ (fun l => hφ l _)

theorem frameBody_state (vc : Nat) (m : Msg) : Touch [] s (s.frameBody p x vc m).2 ∧ (s.frameBody p x vc m).2.lane p x = s.lane p x := by
  let d : State := { s with draws := s.draws + 1 }
  have hd : Touch [] s d := (Touch.refl ..).draw
  have hdl : d.lane p x = s.lane p x := by cases p <;> rfl
  have hn : Touch [] s (d.hcNumber p m).2 ∧ (d.hcNumber p m).2.lane p x = s.lane p x := by
    unfold State.hcNumber
    dsimp only
    split
    · exact ⟨hd, hdl⟩
    · exact ⟨hd.mod p (fun b => { b with hcNums := ((m, b.hcNext) :: b.hcNums).take 64, hcNext := (b.hcNext + 1) % 2 ^ 16 }), (lane_mod _ _ _ _ _ rfl).trans hdl⟩
  by_cases h6 : vc = 6
  · have he : (s.frameBody p x vc m).2 = (d.hcNumber p m).2 := congrArg Prod.snd (if_pos h6 : (if vc = 6 then d.hcNumber p m else (0, d)) = d.hcNumber p m)
    rw [he]
    exact hn
  · have he : (s.frameBody p x vc m).2 = d := congrArg Prod.snd (if_neg h6 : (if vc = 6 then d.hcNumber p m else (0, d)) = (0, d))
    rw [he]
    exact ⟨hd, hdl⟩
end

/-! ### A first transmission (R99, R101, R114, R458) -/

section
variable (s : State) (p : Part) (x : Nat) (vc : Nat) (m : Msg)

/-- The frame of a message in hand. -/
def State.handFrame (s : State) (p : Part) (x vc : Nat) (m : Msg) : WireFrame :=
  let k := s.markLeaves p x m
  let b := k.2.frameBody p x vc k.1
  b.2.wireFrame p x (some vc) (b.2.lane p x).nextSeq (some k.1) b.1

/-- The same frame as the replay buffer holds it. -/
def State.handTx (s : State) (p : Part) (x vc : Nat) (m : Msg) : TxFrame :=
  let k := s.markLeaves p x m
  { seq := (s.lane p x).nextSeq, vc := vc, msg := k.1, body := (k.2.frameBody p x vc k.1).1, sends := 1, sentAt := s.tick p }

/-- A message in hand goes on the wire, and waits in the replay buffer. -/
def State.departs (s : State) (p : Part) (x vc : Nat) (m : Msg) : State :=
  let k := s.markLeaves p x m
  let b := k.2.frameBody p x vc k.1
  let u := b.2.onWire p x (s.handFrame p x vc m)
  u.modLane p x (fun l => { l with nextSeq := l.nextSeq + 1, replay := l.replay ++ [{ seq := l.nextSeq, vc := vc, msg := k.1, body := b.1, sends := 1, sentAt := u.tick p }] })

/-- It takes a credit, or one its launch has consumed already (R234). -/
def State.paysFor (s : State) (p : Part) (x vc : Nat) (m : Msg) : State :=
  (if m.isLaunch && 0 < (s.lane p x).paid then s.modLane p x (fun l => { l with paid := l.paid - 1 }) else s.setCredit p x vc (s.credit p x vc - 1)).laneShow p x

/-- An authenticated frame counts (R458). -/
def State.authCounts (s : State) (p : Part) (x vc : Nat) (m : Msg) : State :=
  if (vc = 5 || vc = 6) && m.frameType != 2 then
    let n := (s.lane p x).authCtr + 1
    let s := s.modLane p x (fun l => { l with authCtr := n })
    if n = 2 ^ 31 then (s.put p Reg.SEC_STAT_KEY_AGE 1).log p (unitSec p) 0x9011 x n
    else if n = 2 ^ 32 then s.laneFault p x 8
    else s
  else s

theorem firstSend_eq (low : Nat) : (s.modLane p x (fun l => { l with lowWait := low })).firstSend p x vc m = (((s.inHand p x vc low m).departs p x vc m).paysFor p x vc m).authCounts p x vc m := rfl

theorem departs_touch : Touch [] s (s.departs p x vc m) := by
  have h := (markLeaves_touch s p x m).trans (frameBody_state (s.markLeaves p x m).2 p x vc (s.markLeaves p x m).1).1
  unfold State.departs
  exact (h.trans (onWire_touch _ p x (s.handFrame p x vc m))).modLane ..

/-- The lane of a departed frame. -/
theorem lane_departs : (s.departs p x vc m).lane p x =
    { ((s.markLeaves p x m).2.lane p x).departed (s.handFrame p x vc m) (((s.markLeaves p x m).2.frameBody p x vc (s.markLeaves p x m).1).2.starved p x (s.handFrame p x vc m).creditVc) with
      nextSeq := ((s.markLeaves p x m).2.lane p x).nextSeq + 1, replay := ((s.markLeaves p x m).2.lane p x).replay ++ [s.handTx p x vc m] } := by
  have hn := lane_proj_markLeaves s p x Lane.nextSeq (fun _ _ => rfl) m
  have hb := frameBody_state (s.markLeaves p x m).2 p x vc (s.markLeaves p x m).1
  have ht : (((s.markLeaves p x m).2.frameBody p x vc (s.markLeaves p x m).1).2.onWire p x (s.handFrame p x vc m)).tick p = s.tick p := by
    unfold State.tick
    rw [(((markLeaves_touch s p x m).trans hb.1).trans (onWire_touch ..)).frc]
  unfold State.departs
  dsimp only
  rw [lane_modLane_same, lane_onWire, hb.2, ht, State.handTx, ← hn]
  rfl

theorem handFrame_eq : s.handFrame p x vc m =
    s.wireFrame p x (some vc) (s.lane p x).nextSeq (some (s.markLeaves p x m).1) ((s.markLeaves p x m).2.frameBody p x vc (s.markLeaves p x m).1).1 := by
  have hb := frameBody_state (s.markLeaves p x m).2 p x vc (s.markLeaves p x m).1
  unfold State.handFrame
  dsimp only
  rw [hb.2, lane_proj_markLeaves s p x Lane.nextSeq (fun _ _ => rfl)]
  refine wireFrame_congr ((markLeaves_touch s p x m).trans hb.1) ?_ ..
  rw [hb.2]
  exact lane_proj_markLeaves s p x Lane.reports (fun _ _ => rfl) m

/-- What a departed frame's lane shows, whatever it pays with. -/
structure Departed (s u : State) (p : Part) (x vc : Nat) (m : Msg) : Prop where
  wire  : (u.lane p x).wire = (s.lane p x).wire ++ [s.handFrame p x vc m]
  next  : (u.lane p x).nextSeq = (s.lane p x).nextSeq + 1
  low   : (u.lane p x).lowWait = (s.lane p x).lowWait
  replay : (u.lane p x).replay = (s.lane p x).replay ++ [s.handTx p x vc m]

theorem departs_departed : Departed s (s.departs p x vc m) p x vc m := by
  have hw := lane_proj_markLeaves s p x Lane.wire (fun _ _ => rfl) m
  have hn := lane_proj_markLeaves s p x Lane.nextSeq (fun _ _ => rfl) m
  have hl := lane_proj_markLeaves s p x Lane.lowWait (fun _ _ => rfl) m
  have hr := lane_proj_markLeaves s p x Lane.replay (fun _ _ => rfl) m
  refine ⟨?_, ?_, ?_, ?_⟩ <;> rw [lane_departs]
  · exact congrArg (· ++ _) hw
  · exact congrArg (· + 1) hn
  · exact hl
  · exact congrArg (· ++ _) hr

/-- What is written elsewhere keeps what the departure shows. -/
theorem Departed.kept {s t u : State} {p : Part} {x vc : Nat} {m : Msg} (h : Departed s t p x vc m) (hw : (u.lane p x).wire = (t.lane p x).wire) (hn : (u.lane p x).nextSeq = (t.lane p x).nextSeq)
    (hl : (u.lane p x).lowWait = (t.lane p x).lowWait) (hr : (u.lane p x).replay = (t.lane p x).replay) : Departed s u p x vc m :=
  ⟨hw.trans h.wire, hn.trans h.next, hl.trans h.low, hr.trans h.replay⟩

theorem lane_laneShow (q : Part) (y : Nat) : (s.laneShow p x).lane q y = s.lane q y := by
  unfold State.laneShow
  rw [lane_put, lane_put]

theorem departed_paysFor {s t : State} (h : Departed s t p x vc m) : Departed s (t.paysFor p x vc m) p x vc m := by
  unfold State.paysFor
  split
  · refine h.kept ?_ ?_ ?_ ?_ <;> rw [lane_laneShow, lane_modLane_same]
  · refine h.kept ?_ ?_ ?_ ?_ <;> rw [lane_laneShow, State.setCredit, lane_setReg]

theorem departed_authCounts {s t : State} (h : Departed s t p x vc m) (hc : (t.lane p x).authCtr + 1 ≠ 2 ^ 32) : Departed s (t.authCounts p x vc m) p x vc m := by
  have h1 : Departed s (t.modLane p x (fun l => { l with authCtr := (t.lane p x).authCtr + 1 })) p x vc m := by
    refine h.kept ?_ ?_ ?_ ?_ <;> rw [lane_modLane_same]
  unfold State.authCounts
  dsimp only
  split
  · split
    · refine h1.kept ?_ ?_ ?_ ?_
      · rw [lane_proj_log Lane.wire _ _ _ (fun _ _ => rfl), lane_put]
      · rw [lane_proj_log Lane.nextSeq _ _ _ (fun _ _ => rfl), lane_put]
      · rw [lane_proj_log Lane.lowWait _ _ _ (fun _ _ => rfl), lane_put]
      · rw [lane_proj_log Lane.replay _ _ _ (fun _ _ => rfl), lane_put]
    · exact h1
  · exact h
end

/-! ### Credits (R113, R114, R234) -/

section
variable (s : State) (p : Part) (x vc : Nat) (m : Msg)

/-- The field of a lane's credits of one VC. -/
def creditFld (p : Part) (x vc : Nat) : Fld := ⟨(Reg.LANE_CRED_CREDITS (laneBlk p x)).off, 8 * vc + 7, 8 * vc⟩

theorem credit_eq_get : s.credit p x vc = s.get p (creditFld p x vc) := rfl

theorem setCredit_eq_put (n : Nat) : s.setCredit p x vc n = s.put p (creditFld p x vc) n := rfl

theorem credit_lt : s.credit p x vc < 256 := by
  have h := fget_lt (s.reg p (Reg.LANE_CRED_CREDITS (laneBlk p x)).off) (8 * vc + 7) (8 * vc)
  rwa [show 8 * vc + 7 + 1 - 8 * vc = 8 by omega] at h

theorem credit_setCredit (hv : vc < 8) (n : Nat) (hn : n < 256) : (s.setCredit p x vc n).credit p x vc = n := by
  rw [setCredit_eq_put, credit_eq_get, get_put_same _ _ _ _ (show 8 * vc + 7 < 64 by omega) (show 8 * vc ≤ 8 * vc + 7 by omega), creditFld, show 8 * vc + 7 + 1 - 8 * vc = 8 by omega]
  exact Nat.mod_eq_of_lt hn

theorem credit_laneShow (y : Nat) (hy : laneBlk p y + 0x30 ≠ laneBlk p x + 8) : (s.laneShow p x).credit p y vc = s.credit p y vc := by
  unfold State.credit
  rw [reg_laneShow_other s p x p (Reg.LANE_CRED_CREDITS (laneBlk p y)).off hy]

theorem credit_paysFor (hv : vc < 8) : (m.isLaunch = true → 0 < (s.lane p x).paid → ((s.paysFor p x vc m).lane p x).paid = (s.lane p x).paid - 1 ∧ (s.paysFor p x vc m).credit p x vc = s.credit p x vc)
    ∧ (m.isLaunch = false ∨ (s.lane p x).paid = 0 → (s.paysFor p x vc m).credit p x vc = s.credit p x vc - 1) := by
  unfold State.paysFor
  refine ⟨fun hm hp => ?_, fun h => ?_⟩
  · rw [if_pos (by simp [hm, hp])]
    refine ⟨?_, ?_⟩
    · rw [lane_laneShow, lane_modLane_same]
    · rw [credit_laneShow _ _ _ _ _ (by omega), State.credit, reg_modLane]
      rfl
  · rw [if_neg (by rcases h with h | h <;> simp [h]), credit_laneShow _ _ _ _ _ (by omega)]
    have := credit_lt s p x vc
    exact credit_setCredit s p x vc hv _ (by omega)

theorem laneState_paysFor : (s.paysFor p x vc m).laneState p x = s.laneState p x := by
  unfold State.paysFor
  have hshow : ∀ t : State, (t.laneShow p x).laneState p x = t.laneState p x := fun t => by
    unfold State.laneShow State.laneState
    rw [get_put_other _ _ _ _ _ (show 34 < 64 by decide) (show 32 ≤ 34 by decide) (show 2 < 64 by decide) (.inr (.inl (show 2 < 32 by decide))),
      get_put_other _ _ _ _ _ (show 47 < 64 by decide) (show 40 ≤ 47 by decide) (show 2 < 64 by decide) (.inr (.inl (show 2 < 40 by decide)))]
  rw [hshow]
  split
  · exact get_modLane ..
  · unfold State.setCredit State.laneState State.get
    rw [reg_setReg_other _ _ _ _ _ (by simp only [Reg.LANE_STAT_STATE, Reg.LANE_CRED_CREDITS]; omega)]

theorem authCounts_touch (hc : (s.lane p x).authCtr + 1 ≠ 2 ^ 32) : Touch [(p, Reg.SEC_STAT_KEY_AGE)] s (s.authCounts p x vc m) := by
  have h1 : Touch [(p, Reg.SEC_STAT_KEY_AGE)] s (s.modLane p x (fun l => { l with authCtr := (s.lane p x).authCtr + 1 })) := (Touch.refl ..).modLane ..
  unfold State.authCounts
  dsimp only
  split
  · split
    · exact (h1.put p _ 1 (List.mem_singleton_self _) (by decide)).log ..
    · exact h1
  · exact .refl ..

theorem paid_authCounts (hc : (s.lane p x).authCtr + 1 ≠ 2 ^ 32) : ((s.authCounts p x vc m).lane p x).paid = (s.lane p x).paid := by
  unfold State.authCounts
  dsimp only
  split
  · split
    · rw [lane_proj_log Lane.paid _ _ _ (fun _ _ => rfl), lane_put, lane_modLane_same]
    · rw [lane_modLane_same]
  · rfl

/-- The age of the key shows beside every lane a part has. -/
theorem keyAge_free (hh : laneHere p x = true) {g : Fld} (hg : laneBlk p x ≤ g.off ∧ g.off ≤ laneBlk p x + 0x30) : Fld.free [(p, Reg.SEC_STAT_KEY_AGE)] p g := by
  intro f hf _
  rw [List.mem_singleton] at hf
  subst hf
  refine (Fld.apart_iff _ _).mpr (.inl ?_)
  simp only [Reg.SEC_STAT_KEY_AGE]
  cases p
  · have : x < 2 := of_decide_eq_true hh
    simp only [laneBlk] at hg
    omega
  · simp only [laneBlk] at hg
    omega
end

/-! ### The three kinds of slot -/

section
variable (s : State) (p : Part) (x : Fin 160)

theorem exec_frameSlot_resend (hh : laneHere p x = true) (hl : s.laneLinked p x = true) (f : TxFrame) (fs : List TxFrame) (hr : (s.lane p x).resend = f :: fs) :
    exec (.frameSlot p x) s = .next (s.resent p x f fs) := by
  refine (if_pos (by simp [hh, hl])).trans ?_
  rw [hr]
  rfl

theorem exec_frameSlot_idle (hh : laneHere p x = true) (hl : s.laneLinked p x = true) (hr : (s.lane p x).resend = []) (h : 64 ≤ (s.lane p x).replay.length ∨ s.pickVc p x = none) :
    exec (.frameSlot p x) s = .next (s.idled p x) := by
  have hn : (if (s.lane p x).replay.length < 64 then s.pickVc p x else none) = none := by
    rcases h with h | h
    · exact if_neg (by omega)
    · rw [h]
      split <;> rfl
  refine (if_pos (by simp [hh, hl])).trans ?_
  rw [hr]
  dsimp only
  rw [hn]
  rfl

/-- How long VC3, VC4 and VC7 have waited after a slot that went to a VC (R116). -/
def State.lowAfter (s : State) (p : Part) (x vc : Nat) : Nat := if s.lowWaits p x && !(vc == 3 || vc == 4 || vc == 7) then (s.lane p x).lowWait + 1 else 0

theorem exec_frameSlot_new (hh : laneHere p x = true) (hl : s.laneLinked p x = true) (hr : (s.lane p x).resend = []) (h64 : (s.lane p x).replay.length < 64) (vc : Nat) (hp : s.pickVc p x = some vc)
    (e : Nat × Msg) (he : (s.lane p x).txq.find? (fun e => e.1 == vc && s.mayGo p x e) = some e) :
    exec (.frameSlot p x) s = .next ((s.modLane p x (fun l => { l with lowWait := s.lowAfter p x vc })).firstSend p x vc e.2) := by
  have hm : ∀ e, (s.modLane p x (fun l => { l with lowWait := s.lowAfter p x vc })).mayGo p x e = s.mayGo p x e := fun e =>
    mayGo_congr ((Touch.refl ..).modLane ..) (by rw [lane_modLane_same]) e
  have hn : (if (s.lane p x).replay.length < 64 then s.pickVc p x else none) = some vc := (if_pos h64).trans hp
  have hf : (s.lane p x).txq.find? (fun e => e.1 == vc && (s.modLane p x (fun l => { l with lowWait := s.lowAfter p x vc })).mayGo p x e) = some e := by
    simp only [hm]
    exact he
  refine (if_pos (by simp [hh, hl])).trans ?_
  rw [hr]
  have hcount : s.modLane p x (fun l => { l with lowWait := if s.lowWaits p x && !(vc == 3 || vc == 4 || vc == 7) then l.lowWait + 1 else 0 }) =
      s.modLane p x (fun l => { l with lowWait := s.lowAfter p x vc }) := by
    cases p <;> rfl
  dsimp only
  rw [hn]
  show (match (s.lane p x).txq.find? (fun e => e.1 == vc && (s.modLane p x (fun l => { l with lowWait := if s.lowWaits p x && !(vc == 3 || vc == 4 || vc == 7) then l.lowWait + 1 else 0 })).mayGo p x e) with
    | some e => Host.Outcome.next ((s.modLane p x (fun l => { l with lowWait := if s.lowWaits p x && !(vc == 3 || vc == 4 || vc == 7) then l.lowWait + 1 else 0 })).firstSend p x vc e.2)
    | none => Host.Outcome.next _) = _
  rw [hcount, hf]
end

/-- Settles O25: a frame to be resent, a new frame, or IDLE; each is one departure of the lane. -/
theorem frameSlots : Obligations.FrameSlots := by
  intro p lane s hh hl l waits
  refine ⟨fun f fs hr => ⟨_, exec_frameSlot_resend s p lane hh hl f fs hr, ?_⟩, fun vc e hr h64 hp he hv hc => ?_,
    fun hr h => ⟨_, exec_frameSlot_idle s p lane hh hl hr h, ?_⟩⟩
  · have ht : Touch [] s (s.resent p lane f fs) := resent_touch ..
    refine ⟨ht.regsBut (fun g hg => by cases hg), (events_modLane ..).trans (events_onWire ..), ?_⟩
    rw [lane_resent]
    refine ⟨rfl, rfl, ?_, rfl, rfl, rfl⟩
    simp only [beq_iff_eq]
    rfl
  · intro low k b
    refine ⟨_, exec_frameSlot_new s p lane hh hl hr h64 vc hp e he, ?_⟩
    let a := s.inHand p lane vc low e.2
    let d := a.departs p lane vc e.2
    let q := d.paysFor p lane vc e.2
    have hu : (s.modLane p lane (fun l => { l with lowWait := s.lowAfter p lane vc })).firstSend p lane vc e.2 = q.authCounts p lane vc e.2 := firstSend_eq s p lane vc e.2 _
    have ha := lane_inHand s p lane vc low e.2
    have hta : Touch [] s a := inHand_touch s p lane vc low e.2
    have htd : Touch [] s d := hta.trans (departs_touch a p lane vc e.2)
    have hpaid : (d.lane p lane).paid = l.paid := by
      show ((a.departs p lane vc e.2).lane p lane).paid = _
      rw [lane_departs]
      exact (lane_proj_markLeaves a p lane Lane.paid (fun _ _ => rfl) e.2).trans (congrArg Lane.paid ha :)
    have hctr : (q.lane p lane).authCtr + 1 ≠ 2 ^ 32 := by
      have h1 : (d.lane p lane).authCtr = l.authCtr := by
        show ((a.departs p lane vc e.2).lane p lane).authCtr = _
        rw [lane_departs]
        exact (lane_proj_markLeaves a p lane Lane.authCtr (fun _ _ => rfl) e.2).trans (congrArg Lane.authCtr ha :)
      have h2 : (q.lane p lane).authCtr = (d.lane p lane).authCtr := by
        show ((d.paysFor p lane vc e.2).lane p lane).authCtr = _
        unfold State.paysFor
        split
        · rw [lane_laneShow, lane_modLane_same]
        · rw [lane_laneShow, State.setCredit, lane_setReg]
      rw [h2, h1]
      exact hc
    obtain ⟨g1, g2, g3, g4⟩ := departed_authCounts p lane vc e.2 (departed_paysFor p lane vc e.2 (departs_departed a p lane vc e.2)) hctr
    have hq := authCounts_touch q p lane vc e.2 hctr
    have hcred : (q.authCounts p lane vc e.2).credit p lane vc = q.credit p lane vc :=
      hq.get p (creditFld p lane vc) ⟨show 8 * vc ≤ 8 * vc + 7 by omega, show 8 * vc + 7 < 64 by omega⟩ (keyAge_free p lane hh ⟨Nat.le_add_right .., le_refl _⟩)
    have hstate : (q.authCounts p lane vc e.2).laneState p lane = s.laneState p lane :=
      (hq.get p _ ⟨show 0 ≤ 2 by decide, show 2 < 64 by decide⟩ (keyAge_free p lane hh ⟨Nat.le_add_right .., show laneBlk p lane + 8 ≤ laneBlk p lane + 0x30 by omega⟩)).trans
        ((laneState_paysFor d p lane vc e.2).trans (htd.get_eq p _))
    obtain ⟨p1, p2⟩ := credit_paysFor d p lane vc e.2 hv
    rw [credit_congr htd, hpaid] at p1 p2
    rw [hu]
    refine ⟨?_, ?_, ?_, ?_, fun hm hp => ?_, fun h => ?_, hstate⟩
    · rw [g1, handFrame_eq, wireFrame_congr hta (by rw [ha]; rfl), ha]
      rfl
    · rw [g2, ha]
    · rw [g3, ha]
    · rw [g4, State.handTx, ha, show a.tick p = s.tick p by unfold State.tick; rw [hta.frc]]
      rfl
    · obtain ⟨h1, h2⟩ := p1 hm hp
      exact ⟨(paid_authCounts q p lane vc e.2 hctr).trans h1, hcred.trans h2⟩
    · exact hcred.trans (p2 h)
  · let t := s.modLane p lane (fun l => { l with lowWait := if s.lowWaits p lane then (s.lane p lane).lowWait + 1 else 0 })
    have ht : Touch [] s t := (Touch.refl ..).modLane ..
    have hl : t.lane p lane = { s.lane p lane with lowWait := if s.lowWaits p lane then (s.lane p lane).lowWait + 1 else 0 } := lane_modLane_same ..
    have hu : Touch [] s (s.idled p lane) := ht.trans (onWire_touch ..)
    refine ⟨hu.regsBut (fun g hg => by cases hg), (events_onWire ..).trans (events_modLane ..), ?_⟩
    have hw : t.wireFrame p lane none 0 none idleBody = s.wireFrame p lane none 0 none idleBody := wireFrame_congr ht (by rw [hl]; rfl) ..
    have hlane : (s.idled p lane).lane p lane = (t.lane p lane).departed (t.wireFrame p lane none 0 none idleBody) (t.starved p lane (t.wireFrame p lane none 0 none idleBody).creditVc) := lane_onWire t p lane _
    rw [hlane, hl, hw]
    exact ⟨rfl, rfl, rfl⟩

end Sys2Proof.Machine

/-! SUPPORT. Walks that write registers and send messages; replays, AWAY and modules (R103 to R112, R124, R363). -/

namespace Sys2Proof.Machine

set_option Elab.async false

/-- A lane without the messages that wait in it. -/
def Lane.sansTx (l : Lane) : Lane := { l with txq := [] }

/-- A walk that writes at most the listed fields, and touches lanes only by what waits in them. -/
structure Sends (W : List (Part × Fld)) (s t : State) : Prop where
  touch : Touch W s t
  lanes : ∀ q y, (t.lane q y).sansTx = (s.lane q y).sansTx

namespace Sends

variable {W : List (Part × Fld)} {s t u : State}

theorem refl (W : List (Part × Fld)) (s : State) : Sends W s s := ⟨.refl W s, fun _ _ => rfl⟩

theorem trans (h : Sends W s t) (k : Sends W t u) : Sends W s u := ⟨h.touch.trans k.touch, fun q y => (k.lanes q y).trans (h.lanes q y)⟩

theorem ite {a b : State} {c : Prop} [Decidable c] (ha : Sends W s a) (hb : Sends W s b) : Sends W s (if c then a else b) := by
  split
  · exact ha
  · exact hb

theorem put (h : Sends W s t) (p : Part) (f : Fld) (v : Nat) (hW : (p, f) ∈ W) (hh : f.lo ≤ f.hi ∧ f.hi < 64) : Sends W s (t.put p f v) :=
  ⟨h.touch.put p f v hW hh, fun q y => by rw [lane_put]; exact h.lanes q y⟩

theorem log (h : Sends W s t) (p : Part) (a b c d : Nat) : Sends W s (t.log p a b c d) :=
  ⟨h.touch.log .., fun q y => (lane_proj_log Lane.sansTx t q y (fun _ _ => rfl) p a b c d).trans (h.lanes q y)⟩

theorem send (h : Sends W s t) (p : Part) (x : Nat) (m : Msg) : Sends W s (t.send p x m) :=
  ⟨h.touch.send .., fun q y => (lane_proj_send Lane.sansTx t q y (fun _ _ => rfl) p x m).trans (h.lanes q y)⟩

theorem sendUp (h : Sends W s t) (p : Part) (m : Msg) : Sends W s (t.sendUp p m) := by
  unfold State.sendUp
  split
  · exact h.send ..
  · exact h

theorem sendDown (h : Sends W s t) (xs : List Nat) (m : Msg) : Sends W s (t.sendDown xs m) := by
  unfold State.sendDown
  exact List.foldlRecOn (motive := Sends W s) _ _ h (fun u hu x _ => .ite (hu.send ..) hu)

theorem draw (h : Sends W s t) : Sends W s t.draw.2 := ⟨h.touch.draw, fun q y => (show (t.draw.2.lane q y).sansTx = (t.lane q y).sansTx by cases q <;> rfl).trans (h.lanes q y)⟩

theorem modUx (h : Sends W s t) (f : Uhloux → Uhloux) (hb : ∀ u, (f u).base = u.base := by intro; rfl) : Sends W s (t.modUx f) := by
  refine ⟨h.touch.modUx f hb, fun q y => Eq.trans ?_ (h.lanes q y)⟩
  cases q
  · rfl
  · show (tget Lane.zero (f t.ux).base.lanes y).sansTx = _
    rw [hb]
    rfl

theorem toTwin (h : Sends W s t) (m : Msg) : Sends W s (t.toTwin m) := by
  unfold State.toTwin
  split
  · exact h.send ..
  · exact h

theorem toPartner (h : Sends W s t) (m : Msg) : Sends W s (t.toPartner m) := by
  unfold State.toPartner
  split
  · exact h.send ..
  · exact h

theorem toAuthority (h : Sends W s t) (m : Msg) : Sends W s (t.toAuthority m) := by
  unfold State.toAuthority
  exact .ite (h.toTwin m) (h.sendUp .ux m)

theorem proposeOwn (h : Sends W s t) (x : Subj) (hard : Bool) (a b : Nat) : Sends W s (t.proposeOwn x hard a b) := by
  have h1 := fun (ps : Uhloux → List Proposal) m => ((h.log .ux 0x42 0x6003 (subjObj x) (if hard then 256 else 0)).modUx (fun u => { u with proposals := ps u })).toAuthority m
  unfold State.proposeOwn
  refine .ite ?_ (h1 _ _)
  dsimp only
  split
  · exact (Sends.ite ((h1 _ _).sendUp ..) (h1 _ _)).toPartner _
  · exact (h1 _ _).sendDown ..
  · exact (h1 _ _).sendDown ..

end Sends

/-! ### The health score of a die (R363, R364) -/

/-- What points for a die write at its leaf. -/
def healthFlds (x : Nat) : List (Part × Fld) :=
  [(.ux, Reg.UX_LANE_HC_HEALTH x), (.ux, Reg.UX_LANE_HC_PROBATION x), (.ux, Reg.UX_LANE_HC_SUSPECT_ACT x), (.ux, Reg.UX_LANE_HC_VSTEPS x), (.ux, Reg.UX_LANE_HC_FSTEPS x)]

theorem Sends.probation {W : List (Part × Fld)} {s t : State} (h : Sends W s t) (x pdi : Nat) (hW : healthFlds x ⊆ W) : Sends W s (t.probation x pdi) := by
  simp only [healthFlds, List.cons_subset] at hW
  obtain ⟨-, h2, h3, h4, h5, -⟩ := hW
  have hk : Sends W s (t.probationK pdi).2 := by
    unfold State.probationK
    split
    · exact h
    · exact h.draw
  unfold State.probation
  dsimp only
  have h6 := fun (m : Msg) a b c d => ((((hk.send .ux x m).log .ux a b c d).put .ux (Reg.UX_LANE_HC_PROBATION x) 1 h2 ⟨le_refl _, show 27 < 64 by decide⟩).put .ux (Reg.UX_LANE_HC_SUSPECT_ACT x) 1 h3 ⟨le_refl _, show 24 < 64 by decide⟩)
  refine (h6 _ _ _ _ _).put .ux _ _ ?_ ?_
  · split
    · exact h4
    · exact h5
  · split
    · exact ⟨show 30 ≤ 31 by decide, show 31 < 64 by decide⟩
    · exact ⟨show 28 ≤ 29 by decide, show 29 < 64 by decide⟩

theorem Sends.healthAdd {W : List (Part × Fld)} {s t : State} (h : Sends W s t) (x pts : Nat) (soft : Bool) (hW : healthFlds x ⊆ W) : Sends W s (t.healthAdd x pts soft) := by
  have h1 : (Part.ux, Reg.UX_LANE_HC_HEALTH x) ∈ W := hW (by simp [healthFlds])
  have ha := fun n => (h.put .ux (Reg.UX_LANE_HC_HEALTH x) n h1 ⟨show 56 ≤ 63 by decide, show 63 < 64 by decide⟩).modUx
    (fun u => { u with healthKind := tput 0 u.healthKind (if soft then 2 * x else 2 * x + 1) (tget 0 u.healthKind (if soft then 2 * x else 2 * x + 1) + pts) })
  have hb := fun n (c : Bool) => Sends.ite (c := c = true) ((ha n).log .ux 0x42 0x6020 (subjObj (dieSubj (t.pdiOf x))) n) (ha n)
  have hc := fun n (c d : Bool) => Sends.ite (c := d = true) ((hb n c).probation x (t.pdiOf x) hW) (hb n c)
  have hd := fun n (c d e : Bool) => Sends.ite (c := e = true) ((hc n c d).proposeOwn (dieSubj (t.pdiOf x)) false 0 0) (hc n c d)
  unfold State.healthAdd
  refine .ite h (.ite ((hd _ _ _ _).modUx (fun u => { u with healthKind := _ })) (hd _ _ _ _))

/-! ### Replays (R103, R104) -/

section
variable (s : State) (p : Part) (x : Nat)

/-- The unacknowledged frames of a lane after one more sending of the oldest. -/
def State.replayed (s : State) (p : Part) (f : TxFrame) (fs : List TxFrame) : List TxFrame := { f with sends := f.sends + 1, sentAt := s.tick p } :: fs

/-- A replay in hand. -/
def State.replaying (s : State) (p : Part) (x : Nat) (f : TxFrame) (fs : List TxFrame) : State :=
  s.modLane p x (fun l => { l with replay := s.replayed p f fs, resend := s.replayed p f fs })

theorem startReplay_eq (f : TxFrame) (fs : List TxFrame) (hr : (s.lane p x).replay = f :: fs) (h8 : f.sends < 8) :
    s.startReplay p x = ((s.replaying p x f fs).replayCount p x).laneShow p x := by
  unfold State.startReplay
  rw [hr]
  exact if_neg (by omega)

/-- What the replays of a lane write. -/
def replayFlds (p : Part) (x : Nat) : List (Part × Fld) := [(p, Reg.LANE_STAT_UNACKED (laneBlk p x)), (p, Reg.LANE_STAT_RETRY (laneBlk p x))] ++ healthFlds x

/-- A replay counted and shown leaves the lane's queues, and beside the count of replays only what points for a die write. -/
theorem replay_sends (f : TxFrame) (fs : List TxFrame) :
    Sends (replayFlds p x) ((s.replaying p x f fs).count p (Reg.LANE_ERR_REPLAYS (laneBlk p x)) 1) (((s.replaying p x f fs).replayCount p x).laneShow p x) := by
  have h1 : Sends (replayFlds p x) ((s.replaying p x f fs).count p (Reg.LANE_ERR_REPLAYS (laneBlk p x)) 1) ((s.replaying p x f fs).replayCount p x) :=
    .ite ((Sends.refl _ _).healthAdd x 1 false (List.subset_append_right _ _)) (.refl _ _)
  exact (h1.put p _ _ (by simp [replayFlds]) ⟨show 40 ≤ 47 by decide, show 47 < 64 by decide⟩).put p _ _ (by simp [replayFlds]) ⟨show 32 ≤ 34 by decide, show 34 < 64 by decide⟩

/-- None of it is a lane's state or its count of replays. -/
theorem replay_free {g : Fld} (hg : g = Reg.LANE_STAT_STATE (laneBlk p x) ∨ g = Reg.LANE_ERR_REPLAYS (laneBlk p x)) : Fld.free (replayFlds p x) p g := by
  intro f hf hq
  simp only [replayFlds, healthFlds, List.cons_append, List.nil_append, List.mem_cons, List.not_mem_nil, or_false] at hf
  rcases hf with rfl | rfl | rfl | rfl | rfl | rfl | rfl <;> rcases hg with rfl | rfl
  · exact (Fld.apart_iff _ _).mpr (.inr (.inl (show 2 < 40 by decide)))
  · exact (Fld.apart_iff _ _).mpr (.inl (by simp only [Reg.LANE_ERR_REPLAYS, Reg.LANE_STAT_UNACKED]; omega))
  · exact (Fld.apart_iff _ _).mpr (.inr (.inl (show 2 < 32 by decide)))
  · exact (Fld.apart_iff _ _).mpr (.inl (by simp only [Reg.LANE_ERR_REPLAYS, Reg.LANE_STAT_RETRY]; omega))
  all_goals
    cases hq
    refine (Fld.apart_iff _ _).mpr (.inl ?_)
    simp only [Reg.LANE_STAT_STATE, Reg.LANE_ERR_REPLAYS, Reg.UX_LANE_HC_HEALTH, Reg.UX_LANE_HC_PROBATION, Reg.UX_LANE_HC_SUSPECT_ACT, Reg.UX_LANE_HC_VSTEPS, Reg.UX_LANE_HC_FSTEPS, laneBlk]
    omega

theorem replay_leaves (f : TxFrame) (fs : List TxFrame) : let u := ((s.replaying p x f fs).replayCount p x).laneShow p x
    (u.lane p x).replay = s.replayed p f fs ∧ (u.lane p x).resend = s.replayed p f fs
      ∧ u.get p (Reg.LANE_ERR_REPLAYS (laneBlk p x)) = (s.count p (Reg.LANE_ERR_REPLAYS (laneBlk p x)) 1).get p (Reg.LANE_ERR_REPLAYS (laneBlk p x)) ∧ u.laneState p x = s.laneState p x
      ∧ (p = .el ∨ 128 ≤ x → (u.lane p x).txq = (s.lane p x).txq ∧ (u.base p).events = (s.base p).events) := by
  intro u
  let a := s.replaying p x f fs
  let b := a.count p (Reg.LANE_ERR_REPLAYS (laneBlk p x)) 1
  obtain ⟨ht, hl⟩ := replay_sends s p x f fs
  have hb : b.lane p x = { s.lane p x with replay := s.replayed p f fs, resend := s.replayed p f fs } := by
    show (State.put _ _ _ _).lane p x = _
    rw [lane_put]
    exact lane_modLane_same ..
  have hu := hl p x
  have hget : ∀ g, a.get p g = s.get p g := fun g => get_modLane ..
  refine ⟨(congrArg Lane.replay hu).trans (congrArg Lane.replay hb), (congrArg Lane.resend hu).trans (congrArg Lane.resend hb), ?_, ?_, fun h => ?_⟩
  · rw [ht.get p _ ⟨show 32 ≤ 47 by decide, show 47 < 64 by decide⟩ (replay_free p x (.inr rfl)), State.count, State.count, get_put_same _ _ _ _ (show 47 < 64 by decide) (show 32 ≤ 47 by decide),
      get_put_same _ _ _ _ (show 47 < 64 by decide) (show 32 ≤ 47 by decide)]
    exact congrArg (fun n => satAdd _ n 1 % _) (hget _)
  · refine (ht.get p _ ⟨show 0 ≤ 2 by decide, show 2 < 64 by decide⟩ (replay_free p x (.inl rfl))).trans ?_
    exact (get_put_other _ _ _ _ _ (show 47 < 64 by decide) (show 32 ≤ 47 by decide) (show 2 < 64 by decide) (.inl (by simp only [Reg.LANE_STAT_STATE, Reg.LANE_ERR_REPLAYS]; omega))).trans (hget _)
  · have hc : a.replayCount p x = b := if_neg (by rcases h with h | h <;> simp [h])
    have hu' : u = b.laneShow p x := congrArg (fun t : State => t.laneShow p x) hc
    rw [hu']
    refine ⟨?_, ?_⟩
    · rw [lane_laneShow, hb]
    · exact (events_put ..).trans ((events_put ..).trans ((events_put ..).trans (events_modLane ..)))
end

/-! ### AWAY (R111, R112) -/

theorem away_leaves (s : State) (p : Part) (lane : Fin 160) (set : Bool) (hh : laneHere p lane = true) (h4 : s.laneState p lane = 4) :
    Ends (.awayFrame p lane set) s (fun u => u.bit p (Reg.LANE_STAT_AWAY (laneBlk p lane)) = set ∧ u.laneState p lane = 4
      ∧ ∃ es, Logged p s u ((unitLane p lane, 0x2008, lane.val, if set then 1 else 0) :: es)) := by
  let b := (s.put p (Reg.LANE_STAT_AWAY (laneBlk p lane)) (if set then 1 else 0)).log p (unitLane p lane) 0x2008 lane (if set then 1 else 0)
  have hx : ∃ u, exec (.awayFrame p lane set) s = .next u ∧ LaneKept b u ∧ Keeps b u := by
    cases p
    · refine ⟨if set then b.elLaneLoss lane else b, if_pos (by simp [hh, h4]), .ite ((LaneKept.refl b).elLaneLoss _) (.refl b), keeps_ite (keeps_elLaneLoss (keeps_refl b)) (keeps_refl b)⟩
    · refine ⟨if b.upLane == some lane.val then b.sendDown downLanes (.away set) else b, if_pos (by simp [hh, h4]), .ite ((LaneKept.refl b).sendDown ..) (.refl b),
        keeps_ite (keeps_sendDown (keeps_refl b)) (keeps_refl b)⟩
  obtain ⟨u, hu, hk, hkeep⟩ := hx
  obtain ⟨es, he⟩ := exists_logged_of_keeps p hkeep
  have hb : LaneKept (s.put p (Reg.LANE_STAT_AWAY (laneBlk p lane)) (if set then 1 else 0)) u := ((LaneKept.refl _).log ..).trans hk
  refine ⟨u, hu, ?_, ?_, es, (logged_log _ _ _ _ (events_put ..)).trans he⟩
  · rw [State.bit, hb.get p lane hh _ (by simp [laneOwn]), get_put_same _ _ _ _ (show 4 < 64 by decide) (le_refl _)]
    cases set <;> rfl
  · exact (hb.get p lane hh _ (by simp [laneOwn])).trans ((get_put_other _ _ _ _ _ (show 4 < 64 by decide) (le_refl _) (show 2 < 64 by decide) (.inr (.inl (show 2 < 4 by decide)))).trans h4)

/-! ### Modules (R124) -/

section
variable (s : State)

/-- A module's state after a poll. -/
def ModState.polled : ModState → ModState
  | .pwrUp => .ready
  | .pwrDn => .lowPwr
  | st => st

/-- What a poll of the first modules leaves: the die and the registers and events of the chip, and each module's flags. -/
structure Polled (s u : State) (n : Nat) : Prop where
  el     : u.el = s.el
  base   : u.ux.base = s.ux.base
  flags  : ∀ m, (tget Module.zero u.ux.modules m).flags = (tget Module.zero s.ux.modules m).flags
  state  : ∀ m, (tget Module.zero u.ux.modules m).state = if m < n then (tget Module.zero s.ux.modules m).state.polled else (tget Module.zero s.ux.modules m).state

theorem modules_modulePoll (m j : Nat) : tget Module.zero (s.modulePoll m).ux.modules j =
    if j = m then { tget Module.zero s.ux.modules m with monitors := s.draw.1, state := (tget Module.zero s.ux.modules m).state.polled } else tget Module.zero s.ux.modules j := by
  have hm : 8 * m / 8 = m := Nat.mul_div_cancel_left m (by decide)
  have he : (s.modulePoll m).ux.modules = tput Module.zero s.ux.modules (8 * m / 8)
      { tget Module.zero s.ux.modules (8 * m / 8) with monitors := s.draw.1, state := (tget Module.zero s.ux.modules (8 * m / 8)).state.polled } := rfl
  rw [he, hm, tget_tput]

theorem polled_range (n : Nat) : Polled s ((List.range n).foldl State.modulePoll s) n := by
  induction n with
  | zero => exact ⟨rfl, rfl, fun _ => rfl, fun _ => rfl⟩
  | succ n ih =>
    rw [List.range_succ, List.foldl_append]
    refine ⟨ih.el, ih.base, fun m => ?_, fun m => ?_⟩
    · show (tget Module.zero (State.modulePoll _ n).ux.modules m).flags = _
      rw [modules_modulePoll, ← ih.flags m]
      split
      · next h => rw [h]
      · rfl
    · show (tget Module.zero (State.modulePoll _ n).ux.modules m).state = _
      rw [modules_modulePoll]
      by_cases hm : m = n
      · subst hm
        rw [if_pos rfl, if_pos (Nat.lt_succ_self m)]
        exact congrArg ModState.polled ((ih.state m).trans (if_neg (Nat.lt_irrefl m)))
      · rw [if_neg hm, ih.state m]
        by_cases h : m < n
        · rw [if_pos h, if_pos (Nat.lt_succ_of_lt h)]
        · rw [if_neg h, if_neg (by omega)]

end

/-- Settles O27: the replay of a lane, AWAY, and the interrupts and polls of modules. -/
theorem replayAwayModule : Obligations.ReplayAwayModule := by
  intro p lane set m k flag s l x reps flagged
  have hx : x < 160 := by
    show 8 * m.val + k.val < 160
    omega
  have hexec : ∀ fatal, exec (.moduleInterrupt m k flag fatal) s = .next (if fatal then (flagged.log .ux (unitLane .ux x) 0x2010 x flag.toNat).laneFault .ux x 5 else flagged.log .ux (unitLane .ux x) 0x2010 x flag.toNat) := fun _ => rfl
  have hlog : Logged .ux s (flagged.log .ux (unitLane .ux x) 0x2010 x flag.toNat) [(0x58 + x / 40, 0x2010, x, flag.toNat)] := logged_log _ _ _ _ rfl
  have hlinked : (flagged.log .ux (unitLane .ux x) 0x2010 x flag.toNat).laneLinked .ux x = s.laneLinked .ux x := rfl
  refine ⟨fun f fs hd hr h8 => ⟨_, congrArg Host.Outcome.next ((if_pos hd).trans (startReplay_eq s p lane f fs hr h8)), replay_leaves s p lane f fs⟩,
    fun hd => congrArg Host.Outcome.next (if_neg (by rw [hd]; decide)), away_leaves s p lane set, fun h => if_neg ?_, ⟨_, hexec false, core_log .., hlog⟩, fun hl => ⟨_, hexec true, ?_⟩, fun hl => ⟨_, hexec true, ?_⟩,
    ⟨_, rfl, ?_⟩⟩
  · rcases h with h | h <;> simp [h]
  · rw [if_pos rfl, laneFault_of_not _ _ _ _ (.inr (hlinked.trans hl))]
    exact ⟨core_log .., hlog⟩
  · have hh : laneHere .ux x = true := decide_eq_true hx
    rw [if_pos rfl, laneFault_of_up _ _ _ _ hh (hlinked.trans hl)]
    obtain ⟨h1, h2, -, -, es, h5⟩ := laneFail_leaves (flagged.log .ux (unitLane .ux x) 0x2010 x flag.toNat) .ux x 5 hh (by decide)
    exact ⟨h1, h2, es, hlog.trans h5⟩
  · obtain ⟨h1, h2, h3, h4⟩ := polled_range s 20
    refine ⟨h1, fun q o _ => ?_, congrArg Base.events h2, h3 m, (h4 m).trans ((if_pos m.isLt).trans ?_)⟩
    · unfold State.reg State.base
      cases q
      · rw [h1]
      · rw [h2]
    · cases (tget Module.zero s.ux.modules m).state <;> rfl

end Sys2Proof.Machine

/-! SUPPORT. The increments of one cycle with no pair loaded (R171, R203): each counter takes its sum and saturates; and what increments leave. -/

namespace Sys2Proof.Machine

set_option Elab.async false

/-! ### Sums -/

/-- What a list of increments adds to one counter. -/
def incSum : List (Nat × Nat) → Nat → Nat
  | [], _ => 0
  | e :: r, j => (if e.1 = j then e.2 else 0) + incSum r j

theorem tget_sumIncs (incs : List (Nat × Nat)) (j : Nat) : tget 0 (sumIncs incs) j = incSum incs j := by
  induction incs generalizing j with
  | nil => rfl
  | cons e r ih =>
    obtain ⟨i, n⟩ := e
    show (if i = j then n + tget 0 (sumIncs r) i else tget 0 (terase (sumIncs r) i) j) = (if i = j then n else 0) + incSum r j
    by_cases h : i = j
    · rw [if_pos h, if_pos h, h, ih]
    · rw [if_neg h, if_neg h, tget_terase_other 0 _ _ _ (fun e => h e.symm), ih, Nat.zero_add]

theorem tget_of_not_mem (l : List (Nat × Nat)) (j : Nat) (h : j ∉ l.map Prod.fst) : tget 0 l j = 0 := by
  induction l with
  | nil => rfl
  | cons e r ih =>
    rw [List.map_cons, List.mem_cons, not_or] at h
    exact (if_neg (fun e => h.1 e.symm)).trans (ih h.2)

theorem nodup_sumIncs (incs : List (Nat × Nat)) : ((sumIncs incs).map Prod.fst).Nodup := by
  induction incs with
  | nil => exact List.nodup_nil
  | cons e r ih =>
    obtain ⟨i, n⟩ := e
    refine List.nodup_cons.mpr ⟨?_, ih.sublist (List.filter_sublist.map _)⟩
    simp

/-! ### One addition -/

section
variable (s : State) (i n : Nat)

theorem cntAdd_zero : s.cntAdd i 0 = s := by
  unfold State.cntAdd
  exact if_pos rfl

/-- An addition beyond the top saturates (R203). -/
theorem cntAdd_of_gt {s : State} {i n : Nat} (hn : n ≠ 0) (h : ¬ s.cntAbs i + n ≤ cntTop) :
    s.cntAdd i n = ((s.modEl (fun e => { e with counters := tput 0 e.counters i cntTop, satBits := tput false e.satBits i true, dldLogged := false })).put .el Reg.SYNC_STAT_SAT 1).log .el 0x03 0x3001 (cntObj i)
      (s.cntAbs i + n - cntTop) := (if_neg hn).trans (if_neg h)

theorem counters_log (p : Part) (a b c d : Nat) : (s.log p a b c d).el.counters = s.el.counters :=
  (congrArg (fun t : State => t.el.counters) (core_log s p a b c d) :)

theorem cntAbs_cntAdd (h : s.cntAbs i ≤ cntTop) (j : Nat) : (s.cntAdd i n).cntAbs j = if j = i then min (s.cntAbs i + n) cntTop else s.cntAbs j := by
  by_cases hn : n = 0
  · subst hn
    rw [cntAdd_zero, Nat.add_zero, Nat.min_eq_left h]
    split
    · next hj => rw [hj]
    · rfl
  by_cases hle : s.cntAbs i + n ≤ cntTop
  · rw [cntAbs_cntAdd_of_le hn hle, Nat.min_eq_left hle]
    split
    · next hj => rw [hj]
    · rfl
  · rw [cntAdd_of_gt hn hle, Nat.min_eq_right (by omega)]
    unfold State.cntAbs
    rw [counters_log]
    exact tget_tput 0 s.el.counters i j cntTop

/-- Additions to counters all different. -/
theorem cntAbs_foldl_cntAdd (l : List (Nat × Nat)) (hl : (l.map Prod.fst).Nodup) (s : State) (hs : ∀ j, s.cntAbs j ≤ cntTop) (j : Nat) :
    (l.foldl (fun t e => t.cntAdd e.1 e.2) s).cntAbs j = min (s.cntAbs j + tget 0 l j) cntTop := by
  induction l generalizing s with
  | nil => exact (Nat.min_eq_left (hs j)).symm
  | cons e r ih =>
    obtain ⟨i, n⟩ := e
    rw [List.map_cons, List.nodup_cons] at hl
    have hstep := cntAbs_cntAdd s i n (hs i)
    have hle : ∀ k, (s.cntAdd i n).cntAbs k ≤ cntTop := fun k => by
      rw [hstep]
      split
      · exact Nat.min_le_right ..
      · exact hs k
    rw [List.foldl_cons, ih hl.2 _ hle, hstep]
    show _ = min (s.cntAbs j + if i = j then n else tget 0 r j) cntTop
    by_cases hj : j = i
    · subst hj
      have h0 : tget 0 r j = 0 := tget_of_not_mem r j hl.1
      rw [if_pos rfl, if_pos rfl, h0, Nat.add_zero, Nat.min_assoc, Nat.min_self]
    · rw [if_neg hj, if_neg (fun h => hj h.symm)]

/-- Increments of 0 add nothing. -/
theorem foldl_cntAdd_filter (l : List (Nat × Nat)) (s : State) : (l.filter (fun e => e.2 != 0)).foldl (fun t e => t.cntAdd e.1 e.2) s = l.foldl (fun t e => t.cntAdd e.1 e.2) s := by
  induction l generalizing s with
  | nil => rfl
  | cons e r ih =>
    by_cases h : e.2 = 0
    · rw [List.filter_cons_of_neg (by simp [h]), ih, List.foldl_cons, h, cntAdd_zero]
    · rw [List.filter_cons_of_pos (by simpa using h), List.foldl_cons, List.foldl_cons, ih]
end

/-! ### What increments leave -/

/-- A change of counters, watches and wakes, with the SAT bit and events it may bring: every other register, the queues, the sequencers, and the landing and barrier state stand. -/
structure CountKept (s t : State) : Prop where
  regs : RegsBut [(.el, Reg.SYNC_STAT_SAT.off)] s t
  qops : ∀ p, (t.base p).qops = (s.base p).qops
  seq  : ∀ p, t.seq p = s.seq p
  land : t.el.land = s.el.land
  bars : t.el.bars = s.el.bars

namespace CountKept

variable {s t u : State}

theorem refl (s : State) : CountKept s s := ⟨fun _ _ _ => rfl, fun _ => rfl, fun _ => rfl, rfl, rfl⟩

theorem trans (h : CountKept s t) (k : CountKept t u) : CountKept s u :=
  ⟨h.regs.trans k.regs, fun p => (k.qops p).trans (h.qops p), fun p => (k.seq p).trans (h.seq p), k.land.trans h.land, k.bars.trans h.bars⟩

theorem of_core (h : t.core = s.core) : CountKept s t := by
  have hb : ∀ p, (t.base p).core = (s.base p).core := fun p => by
    cases p
    · exact (congrArg (fun u : State => u.el.base) h :)
    · exact (congrArg (fun u : State => u.ux.base) h :)
  exact ⟨fun p o _ => reg_of_core h p o, fun p => (congrArg Base.qops (hb p) :), fun p => (congrArg Base.seq (hb p) :), (congrArg (fun u : State => u.el.land) h :), (congrArg (fun u : State => u.el.bars) h :)⟩

theorem modEl (h : CountKept s t) (f : Elesh → Elesh) (hb : (f t.el).base = t.el.base) (hl : (f t.el).land = t.el.land) (hr : (f t.el).bars = t.el.bars) : CountKept s (t.modEl f) := by
  refine h.trans ⟨fun p o _ => reg_modEl t f p o (by rw [hb]), fun p => ?_, fun p => ?_, hl, hr⟩
  · cases p
    · exact congrArg Base.qops hb
    · rfl
  · cases p
    · exact congrArg Base.seq hb
    · rfl

theorem log (h : CountKept s t) (a b c d : Nat) : CountKept s (t.log .el a b c d) := h.trans (.of_core (core_log ..))

theorem satShown (h : CountKept s t) : CountKept s (t.put .el Reg.SYNC_STAT_SAT 1) := by
  refine h.trans ⟨fun p o ho => ?_, fun p => by cases p <;> rfl, fun p => by cases p <;> rfl, rfl, rfl⟩
  by_cases hp : p = .el
  · subst hp
    rw [reg_put, if_neg (fun e => ho (by simp [e]))]
  · exact reg_setReg_part t _ _ _ hp

theorem ite {a b : State} {c : Prop} [Decidable c] (ha : CountKept s a) (hb : CountKept s b) : CountKept s (if c then a else b) := by
  split
  · exact ha
  · exact hb

theorem cntAdd (h : CountKept s t) (i n : Nat) : CountKept s (t.cntAdd i n) := by
  unfold State.cntAdd
  refine .ite h (.ite (h.modEl _ rfl rfl rfl) ?_)
  exact ((h.modEl (fun e => { e with counters := tput 0 e.counters i cntTop, satBits := tput false e.satBits i true, dldLogged := false }) rfl rfl rfl).satShown).log ..

theorem wakeWatch (h : CountKept s t) (w kind : Nat) (eq : Bool) : CountKept s (t.wakeWatch w kind eq) := by
  have hd := h.modEl (fun e => { e with watches := tput Watch.zero e.watches w { t.watchAt w with armed := false } }) rfl rfl rfl
  exact hd.modEl (fun e => { e with wakeQ := e.wakeQ ++ [{ core := (t.watchAt w).core, eng := (t.watchAt w).eng, kind := kind, equal := eq, widx := w }] }) rfl rfl rfl

theorem watchScan (h : CountKept s t) (keys : List Nat) : CountKept s (t.watchScan keys) := by
  unfold State.watchScan
  refine List.foldlRecOn (motive := CountKept s) _ _ h (fun u hu e _ => .ite ?_ hu)
  unfold State.watchTry
  exact .ite (hu.wakeWatch ..) hu

end CountKept

/-- Increments with no pair to check: the additions, then the scan of the watches. -/
theorem incAll_of_no_pairs {s : State} (hp : (s.seq .el).pairs = []) (incs : List (Nat × Nat)) :
    s.incAll incs = ((sumIncs incs).foldl (fun t e => t.cntAdd e.1 e.2) s).watchScan (((sumIncs incs).filter (fun e => e.2 != 0)).map Prod.fst) := by
  have hk : CountKept s ((sumIncs incs).foldl (fun t e => t.cntAdd e.1 e.2) s) := List.foldlRecOn (motive := CountKept s) _ _ (.refl s) (fun u hu e _ => hu.cntAdd e.1 e.2)
  have hraw : s.incRaw incs = (((sumIncs incs).foldl (fun t e => t.cntAdd e.1 e.2) s).watchScan (((sumIncs incs).filter (fun e => e.2 != 0)).map Prod.fst), false) := by
    unfold State.incRaw
    dsimp only
    rw [foldl_cntAdd_filter, pairCheck_of_no_pairs (by rw [hk.seq .el]; exact hp)]
  unfold State.incAll
  rw [hraw]
  rfl

theorem incAll_kept {s : State} (hp : (s.seq .el).pairs = []) (incs : List (Nat × Nat)) : CountKept s (s.incAll incs) := by
  rw [incAll_of_no_pairs hp]
  exact (List.foldlRecOn (motive := CountKept s) _ _ (.refl s) (fun u hu e _ => hu.cntAdd e.1 e.2)).watchScan _

/-- With no pair loaded each counter takes the sum of a cycle's increments, and saturates (R171, R203). -/
theorem cntAbs_incAll {s : State} (hp : (s.seq .el).pairs = []) (hs : ∀ j, s.cntAbs j ≤ cntTop) (incs : List (Nat × Nat)) (j : Nat) :
    (s.incAll incs).cntAbs j = min (s.cntAbs j + incSum incs j) cntTop := by
  rw [incAll_of_no_pairs hp, cntAbs_watchScan, cntAbs_foldl_cntAdd _ (nodup_sumIncs incs) s hs, tget_sumIncs]

/-- One increment (R171, R203), of a counter within the top. -/
theorem cntAbs_incAll_one {s : State} (hp : (s.seq .el).pairs = []) (i n : Nat) (hs : s.cntAbs i ≤ cntTop) (j : Nat) :
    (s.incAll [(i, n)]).cntAbs j = if j = i then min (s.cntAbs i + n) cntTop else s.cntAbs j := by
  rw [incAll_of_no_pairs hp, cntAbs_watchScan]
  show ((s.cntAdd i (n + 0))).cntAbs j = _
  exact cntAbs_cntAdd s i n hs j

end Sys2Proof.Machine

/-! SUPPORT. Queued operations start and end (R142, R143, R188, R198, R315). -/

namespace Sys2Proof.Machine

set_option Elab.async false

/-! ### The end of an operation (R143) -/

section
variable (s : State) (p : Part) (o : QOp)

theorem findOp_dropOp (id : Nat) : (s.dropOp p id).findOp p id = none := by
  unfold State.findOp State.dropOp
  rw [base_mod, List.find?_eq_none]
  intro q hq
  have := List.of_mem_filter hq
  simpa using this

theorem findOp_congr {s t : State} {p : Part} (h : (t.base p).qops = (s.base p).qops) (id : Nat) : t.findOp p id = s.findOp p id := by
  unfold State.findOp
  rw [h]

/-- What one operation's failure records (R143). -/
def State.failed (s : State) (p : Part) (o : QOp) (st : Nat) : State := ((s.dropOp p o.id).talLast (if st = stRefused then 0 else o.kind.redOp) o.pc st 0).qfail p o.queue o.pc st

theorem endFail_of_ne (st : Nat) (h : s.seqState p ≠ 4) : s.endFail p o st = s.failed p o st := by
  have hk : Stays p s (s.failed p o st) := (((stays_refl p s).mod p _).talLast _ _ _ _).qfail p _ _ _
  exact drainCheck_of_ne (fun e => h (hk.state.symm.trans e))

theorem qops_setReg (q : Part) (off : Nat) (w : Word) : ((s.setReg q off w).base p).qops = (s.base p).qops := by
  cases p <;> cases q <;> rfl

theorem qops_of_core {s t : State} (h : t.core = s.core) : (t.base p).qops = (s.base p).qops := (CountKept.of_core h).qops p

/-- The state before the record of a failure. -/
def State.failing (s : State) (p : Part) (o : QOp) (st : Nat) : State := (s.dropOp p o.id).talLast (if st = stRefused then 0 else o.kind.redOp) o.pc st 0

/-- Its registers, before the event. -/
def State.failNoted (s : State) (p : Part) (q : QueueId) (pc st n : Nat) : State :=
  ((((s.put p Reg.SEQ_QSTAT_FLAG 1).put p Reg.SEQ_QSTAT_STATUS st).put p Reg.SEQ_QSTAT_QUEUE (queueCode q)).put p Reg.SEQ_QSTAT_COUNT n).put p Reg.SEQ_QSTAT_PC pc

/-- How many failures QSTAT then counts. -/
def State.failCount (s : State) (p : Part) : Nat := if s.bit p Reg.SEQ_QSTAT_FLAG then satAdd 16 (s.get p Reg.SEQ_QSTAT_COUNT) 1 else 1

theorem qfail_eq (q : QueueId) (pc st : Nat) : s.qfail p q pc st = (s.failNoted p q pc st (s.failCount p)).logW p (unitSeq p) 0x8083 pc (queueCode q) st := rfl

theorem counters_setReg (q : Part) (off : Nat) (w : Word) : (s.setReg q off w).el.counters = s.el.counters := by
  cases q <;> rfl

theorem tc_setReg (q : Part) (off : Nat) (w : Word) : (s.setReg q off w).ux.tc = s.ux.tc := by
  cases q <;> rfl

/-- What a step of registers alone keeps beside them. -/
theorem talLast_keeps (op pc st block : Nat) : let t := s.talLast op pc st block
    (∀ q, (t.base q).qops = (s.base q).qops) ∧ (∀ q, (t.base q).events = (s.base q).events) ∧ t.el.counters = s.el.counters ∧ t.ux.tc = s.ux.tc := by
  unfold State.talLast
  dsimp only
  by_cases h : op = 0 ∨ st = 0
  · rw [if_pos h]
    exact ⟨fun _ => rfl, fun _ => rfl, rfl, rfl⟩
  · rw [if_neg h]
    exact ⟨fun q => qops_setReg .., fun q => events_setReg .., counters_setReg .., tc_setReg ..⟩

theorem counters_put (q : Part) (f : Fld) (v : Nat) : (s.put q f v).el.counters = s.el.counters := counters_setReg ..

theorem tc_put (q : Part) (f : Fld) (v : Nat) : (s.put q f v).ux.tc = s.ux.tc := tc_setReg ..

theorem failNoted_keeps (q : QueueId) (pc st n : Nat) : let t := s.failNoted p q pc st n
    (t.base p).qops = (s.base p).qops ∧ (t.base p).events = (s.base p).events ∧ t.el.counters = s.el.counters ∧ t.ux.tc = s.ux.tc := by
  refine ⟨?_, ?_, ?_, ?_⟩
  · unfold State.failNoted State.put
    simp only [qops_setReg]
  · unfold State.failNoted
    simp only [events_put]
  · unfold State.failNoted
    simp only [counters_put]
  · unfold State.failNoted
    simp only [tc_put]

theorem failNoted_reads (q : QueueId) (pc st n : Nat) (hst : st < 16) : (s.failNoted p q pc st n).bit p Reg.SEQ_QSTAT_FLAG = true ∧ (s.failNoted p q pc st n).get p Reg.SEQ_QSTAT_STATUS = st := by
  have hq : Writes p [Reg.SEQ_QSTAT_QUEUE, Reg.SEQ_QSTAT_COUNT, Reg.SEQ_QSTAT_PC] ((s.put p Reg.SEQ_QSTAT_FLAG 1).put p Reg.SEQ_QSTAT_STATUS st) (s.failNoted p q pc st n) :=
    (((Writes.refl p [Reg.SEQ_QSTAT_QUEUE, Reg.SEQ_QSTAT_COUNT, Reg.SEQ_QSTAT_PC] ((s.put p Reg.SEQ_QSTAT_FLAG 1).put p Reg.SEQ_QSTAT_STATUS st)).put Reg.SEQ_QSTAT_QUEUE (queueCode q)).put Reg.SEQ_QSTAT_COUNT n).put Reg.SEQ_QSTAT_PC pc
  constructor
  · rw [hq.bit Reg.SEQ_QSTAT_FLAG, State.bit, get_put_other _ _ _ _ _ (by decide) (by decide) (by decide) (by decide), get_put_same _ _ _ _ (by decide) (by decide)]
    rfl
  · rw [hq.get Reg.SEQ_QSTAT_STATUS (by decide) (by decide), get_put_same _ _ _ _ (by decide) (by decide)]
    exact Nat.mod_eq_of_lt hst

/-- An operation that fails is recorded, leaves its queue, and adds nothing (R143). -/
theorem failed_leaves (st : Nat) (hst : st < 16) : (s.failed p o st).findOp p o.id = none ∧ (s.failed p o st).bit p Reg.SEQ_QSTAT_FLAG = true
    ∧ (s.failed p o st).get p Reg.SEQ_QSTAT_STATUS = st ∧ (s.failed p o st).el.counters = s.el.counters ∧ (s.failed p o st).ux.tc = s.ux.tc
    ∧ Logged p s (s.failed p o st) [(unitSeq p, 0x8083, o.pc, st)] := by
  obtain ⟨a1, a2, a3, a4⟩ := talLast_keeps (s.dropOp p o.id) (if st = stRefused then 0 else o.kind.redOp) o.pc st 0
  let b := s.failing p o st
  let n := b.failCount p
  let c := b.failNoted p o.queue o.pc st n
  have hu : s.failed p o st = c.logW p (unitSeq p) 0x8083 o.pc (queueCode o.queue) st := qfail_eq b p o.queue o.pc st
  obtain ⟨b1, b2, b3, b4⟩ := failNoted_keeps b p o.queue o.pc st n
  obtain ⟨c1, c2⟩ := failNoted_reads b p o.queue o.pc st n hst
  have hcore : (s.failed p o st).core = c.core := hu ▸ core_logW ..
  have hT : Touch [] c (s.failed p o st) := .of_core hcore
  refine ⟨?_, (hT.bit p _ (by decide) (fun f hf => by cases hf)).trans c1, (hT.get p _ (by decide) (fun f hf => by cases hf)).trans c2, ?_, ?_, ?_⟩
  · rw [findOp_congr ((qops_of_core p hcore).trans (b1.trans (a1 p)))]
    exact findOp_dropOp ..
  · refine (congrArg (fun t : State => t.el.counters) hcore :).trans (b3.trans (a3.trans ?_))
    cases p <;> rfl
  · refine (congrArg (fun t : State => t.ux.tc) hcore :).trans (b4.trans (a4.trans ?_))
    cases p <;> rfl
  · rw [hu]
    refine logged_logW _ _ _ _ _ (b2.trans ((a2 p).trans ?_))
    unfold State.dropOp
    rw [base_mod]

/-- An operation that ends with a status that adds nothing. -/
theorem endOp_of_not_adds (st : Nat) (h : stAdds st = false) : s.endOp o st = s.endFail (queuePart o.queue) o st := if_neg (by rw [h]; decide)

theorem endOp_of_adds (st : Nat) (h : stAdds st = true) : s.endOp o st = ((s.dropOp (queuePart o.queue) o.id).incPart (queuePart o.queue) [(o.key, o.amt)]).drainCheck (queuePart o.queue) := if_pos h

theorem seqState_congr {s t : State} {p : Part} (h : t.reg p Reg.SEQ_STAT_STATE.off = s.reg p Reg.SEQ_STAT_STATE.off) : t.seqState p = s.seqState p := by
  unfold State.seqState State.get
  rw [h]

/-- On a die an operation that adds leaves its queue, and adds to its counter alone (R143, R171). -/
theorem endOp_adds_el (st : Nat) (h : stAdds st = true) (hq : queuePart o.queue = .el) (h4 : s.seqState .el ≠ 4) (hp : (s.seq .el).pairs = []) (hc : s.cntAbs o.key ≤ cntTop) :
    (s.endOp o st).findOp .el o.id = none ∧ ∀ k, (s.endOp o st).cntAbs k = if k = o.key then min (s.cntAbs o.key + o.amt) cntTop else s.cntAbs k := by
  have hk := incAll_kept (s := s.dropOp .el o.id) hp [(o.key, o.amt)]
  have hu : s.endOp o st = (s.dropOp .el o.id).incAll [(o.key, o.amt)] := by
    rw [endOp_of_adds s o st h, hq]
    exact drainCheck_of_ne (fun e => h4 ((seqState_congr (s := s) (hk.regs .el _ (by decide))).symm.trans e))
  rw [hu]
  exact ⟨(findOp_congr (hk.qops .el) _).trans (findOp_dropOp ..), cntAbs_incAll_one (s := s.dropOp .el o.id) hp o.key o.amt hc⟩

theorem tcAdd_keeps (i n : Nat) (h : tget 0 s.ux.tc i ≤ cntTop) : let t := s.tcAdd i n
    tget 0 t.ux.tc i = min (tget 0 s.ux.tc i + n) cntTop ∧ (t.ux.base).qops = s.ux.base.qops ∧ ∀ f, t.reg .ux f = s.reg .ux f := by
  intro t
  by_cases hn : n = 0
  · have ht : t = s := by
      subst hn
      show s.tcAdd i 0 = s
      unfold State.tcAdd
      exact if_pos rfl
    rw [ht, hn, Nat.add_zero]
    exact ⟨(Nat.min_eq_left h).symm, rfl, fun _ => rfl⟩
  by_cases hle : tget 0 s.ux.tc i + n ≤ cntTop
  · have ht : t = s.modUx (fun u => { u with tc := tput 0 u.tc i (tget 0 s.ux.tc i + n) }) := (if_neg hn).trans (if_pos hle)
    rw [ht, Nat.min_eq_left hle]
    exact ⟨tget_tput_same _ _ _ _, rfl, fun _ => rfl⟩
  · have ht : t = (s.modUx (fun u => { u with tc := tput 0 u.tc i cntTop, tcSat := tput false u.tcSat i true })).log .ux 0x41 0x3001 (i * 256) (tget 0 s.ux.tc i + n - cntTop) := (if_neg hn).trans (if_neg hle)
    rw [ht, Nat.min_eq_right (by omega)]
    exact ⟨tget_tput_same 0 s.ux.tc i cntTop, rfl, fun _ => rfl⟩

/-- On a chip it adds to its tree counter. -/
theorem endOp_adds_ux (st : Nat) (h : stAdds st = true) (hq : queuePart o.queue = .ux) (h4 : s.seqState .ux ≠ 4) (hc : tget 0 s.ux.tc o.core ≤ cntTop) :
    (s.endOp o st).findOp .ux o.id = none ∧ tget 0 (s.endOp o st).ux.tc o.core = min (tget 0 s.ux.tc o.core + o.amt) cntTop := by
  have hkey : o.key = o.core := by
    unfold QOp.key
    rw [hq]
  obtain ⟨h1, h2, h3⟩ := tcAdd_keeps (s.dropOp .ux o.id) o.core o.amt hc
  have hu : s.endOp o st = (s.dropOp .ux o.id).tcAdd o.core o.amt := by
    rw [endOp_of_adds s o st h, hq, hkey]
    exact drainCheck_of_ne (fun e => h4 ((seqState_congr (s := s) (h3 _)).symm.trans e))
  rw [hu]
  exact ⟨(findOp_congr (p := .ux) h2 _).trans (findOp_dropOp ..), h1⟩
end

/-! ### Starts (R142, R188) -/

section
variable (s : State) (p : Part) (q : QueueId) (r : Option (BitVec 24)) (o : QOp)

/-- An operation marked as started, with the replay of a word it reads. -/
def State.startMarked (s : State) (p : Part) (q : QueueId) (r : Option (BitVec 24)) (o : QOp) : State :=
  match queuePort q, r with
  | some port, some a => if s.el.spmBad.contains (a.toNat / 8) then s.markStarted p o.id else (s.markStarted p o.id).spmReplay port a.toNat o.pc
  | _, _ => s.markStarted p o.id

theorem exec_queuedOpStart (hq : queuePart q = p) (hf : s.queueFree q = true) (ho : s.headOp q = some o) :
    exec (.queuedOpStart p q r) s = .next ((s.startMarked p q r o).opStart { o with started := true }) := by
  refine congrArg Host.Outcome.next ((if_pos (by simp [hq, hf])).trans ?_)
  rw [ho]
  have hbad : (s.markStarted p o.id).el.spmBad = s.el.spmBad := by cases p <;> rfl
  dsimp only
  rw [hbad]
  rfl

theorem exec_queuedOpStart_not (h : queuePart q ≠ p ∨ s.queueFree q = false ∨ s.headOp q = none) : exec (.queuedOpStart p q r) s = .next s := by
  refine congrArg Host.Outcome.next ?_
  by_cases hc : (queuePart q = p && s.queueFree q) = true
  · refine (if_pos hc).trans ?_
    simp only [Bool.and_eq_true, decide_eq_true_eq] at hc
    rcases h with h | h | h
    · exact absurd hc.1 h
    · rw [h] at hc
      exact absurd hc.2 (by decide)
    · rw [h]
  · exact if_neg hc

/-- A channel that starts (R384). -/
theorem dmaStart_leaves (ch n : Nat) (qid : Option Nat) (hn : n ≤ 65535) : let u := s.dmaStart ch n qid
    u.get .el (Reg.DMA_STAT_STATE ch) = 1 ∧ u.get .el (Reg.DMA_STAT_LEFT ch) = n ∧ (u.dma ch).left = n ∧ (u.dma ch).qid = qid := by
  intro u
  have hd : u.dma ch = { Dma.zero with left := n, qid := qid } := tget_tput_same Dma.zero _ ch _
  refine ⟨?_, ?_, by rw [hd], by rw [hd]⟩
  · show ((s.put .el (Reg.DMA_STAT_STATE ch) 1).put .el (Reg.DMA_STAT_LEFT ch) n).get .el (Reg.DMA_STAT_STATE ch) = 1
    rw [get_put_other _ _ _ _ _ (show 47 < 64 by decide) (show 32 ≤ 47 by decide) (show 2 < 64 by decide) (.inr (.inl (show 2 < 32 by decide))), get_put_same _ _ _ _ (show 2 < 64 by decide) (show 0 ≤ 2 by decide)]
    rfl
  · show ((s.put .el (Reg.DMA_STAT_STATE ch) 1).put .el (Reg.DMA_STAT_LEFT ch) n).get .el (Reg.DMA_STAT_LEFT ch) = n
    rw [get_put_same _ _ _ _ (show 47 < 64 by decide) (show 32 ≤ 47 by decide)]
    exact Nat.mod_eq_of_lt (by show n < 2 ^ 16; omega)

theorem dmagoStart_of_idle (ch n : Nat) (h1 : 1 ≤ n) (hn : n ≤ 65535) (h0 : s.get .el (Reg.DMA_STAT_STATE ch) = 0) : s.dmagoStart o ch n = s.dmaStart ch n (some o.id) := by
  refine if_neg ?_
  rintro (h | h | h)
  · omega
  · omega
  · exact h h0

theorem sealvStart_open (step : Word) (hc : s.stepCur ≥ step.toNat) (hs : isSealedBy (s.reg .el Reg.CHK_SEAL_LAST.off) step = false) :
    s.sealvStart o step = s.sendUp .el (.sealMsg (if s.bit .el Reg.CHK_STAT_FAILED then 0x31 else 0x30) (BitVec.ofNat 20 s.lsi) step) := by
  refine if_neg ?_
  rintro (h | h)
  · omega
  · rw [hs] at h
    exact absurd h (by decide)
end

/-! ### Ends (R143, R198, R315) -/

section
variable (s : State) (p : Part) (o : QOp) (id : Nat)

theorem exec_queuedOpCompletion (hf : s.findOp p id = some o) (hs : o.started = true) (a : Answer) : exec (.queuedOpCompletion p id a) s = .next (s.opEnd o a) := by
  refine congrArg Host.Outcome.next ?_
  rw [hf]
  exact if_pos hs

theorem exec_queuedOpCompletion_unstarted (hf : s.findOp p id = some o) (hs : o.started = false) (a : Answer) : exec (.queuedOpCompletion p id a) s = .next s := by
  refine congrArg Host.Outcome.next ?_
  rw [hf]
  exact if_neg (by rw [hs]; decide)

theorem exec_queuedOpCompletion_none (hf : s.findOp p id = none) (a : Answer) : exec (.queuedOpCompletion p id a) s = .next s := by
  refine congrArg Host.Outcome.next ?_
  rw [hf]

/-- An operation's end is told by its kind. -/
theorem opEnd_by_kind {o : QOp} {k : QKind} (hk : o.kind = k) (a : Answer) (f : QOp → State) (h : s.opEnd { o with kind := k } a = f { o with kind := k }) : s.opEnd o a = f o := by
  rwa [show { o with kind := k } = o by rw [← hk]] at h

theorem lockEnd_paired (a b : Nat) (step : Word) (h : s.lockPaired a b = true) :
    s.lockEnd o a b step = s.endOp o (if s.bit .ux Reg.UX_LOCK_DIV1_VALID = true ∧ (s.reg .ux Reg.UX_LOCK_DIV0_STEP.off).toNat ≤ step.toNat then stMismatch else stOk) := by
  refine (if_pos h).trans ?_
  simp only [Bool.and_eq_true, decide_eq_true_eq]

theorem lockEnd_unpaired (a b : Nat) (step : Word) (h : s.lockPaired a b = false) : ∃ st, (st = stOk ∨ st = stMismatch) ∧ s.lockEnd o a b step = s.draw.2.endOp o st := by
  refine ⟨if s.draw.1.toNat % 2 = 0 then stOk else stMismatch, ?_, if_neg (by rw [h]; decide)⟩
  split
  · exact .inl rfl
  · exact .inr rfl
end

/-- Settles O38: the start of the oldest operation by its kind, the end by its kind and answer, and what an end leaves. -/
theorem queuedOperations : Obligations.QueuedOperations := by
  intro p q r o id s m starts ends
  refine ⟨exec_queuedOpStart_not s p q r, fun hq hf ho => ?_, exec_queuedOpCompletion_none s p id, fun hf => ⟨exec_queuedOpCompletion_unstarted s p o id hf, fun hs => ?_⟩, fun hq h4 => ⟨fun st hst ha => ?_, fun st ha hp hpairs hc => ?_,
    fun st ha hp hc => ?_⟩⟩
  · have hx : starts (m.opStart { o with started := true }) := exec_queuedOpStart s p q r o hq hf ho
    have hkind : ∀ k, o.kind = k → starts (m.opStart { o with started := true, kind := k }) := fun k hk => by
      rw [← hk]
      exact hx
    refine ⟨fun op a b n e f c x hk => hkind _ hk, fun a b n t hk => ?_, fun x hk => hkind _ hk, fun d x hk => hkind _ hk, fun step hk hc hsl => ?_, fun ch n hk h1 hn h0 => ?_⟩
    · rcases hk with hk | hk
      · exact hkind _ hk
      · exact hkind _ hk
    · have h := hkind _ hk
      rw [show m.opStart { o with started := true, kind := .sealv step } = _ from sealvStart_open m { o with started := true, kind := .sealv step } step hc hsl] at h
      exact h
    · have h := hkind _ hk
      rw [show m.opStart { o with started := true, kind := .dmago ch n } = _ from dmagoStart_of_idle m { o with started := true, kind := .dmago ch n } ch n h1 hn h0] at h
      exact ⟨_, h, dmaStart_leaves m ch n _ hn⟩
  · have hx := exec_queuedOpCompletion s p o id hf hs
    refine ⟨fun x hk => ⟨?_, ?_, ?_⟩, fun d x hk => ⟨?_, ?_⟩, fun a n d x hk => ?_, fun t f k hk => ?_, fun a b step hk => ⟨fun hl => ?_, fun hl => ?_⟩⟩
    · exact (hx _).trans (congrArg Host.Outcome.next (opEnd_by_kind s hk _ (fun o => s.endOp o stOk) rfl))
    · exact (hx _).trans (congrArg Host.Outcome.next (opEnd_by_kind s hk _ (fun o => s.endOp o stLate) rfl))
    · exact (hx _).trans (congrArg Host.Outcome.next (opEnd_by_kind s hk _ (fun o => s.endOp o stRefused) rfl))
    · exact (hx _).trans (congrArg Host.Outcome.next (opEnd_by_kind s hk _ (fun o => s.endOp o stOk) rfl))
    · exact (hx _).trans (congrArg Host.Outcome.next (opEnd_by_kind s hk _ (fun o => s.endOp o stRefused) rfl))
    · rcases hk with hk | hk
      · exact (hx _).trans (congrArg Host.Outcome.next (opEnd_by_kind s hk _ (fun o => s.endOp o stTimeout) rfl))
      · exact (hx _).trans (congrArg Host.Outcome.next (opEnd_by_kind s hk _ (fun o => s.endOp o stTimeout) rfl))
    · rcases hk with hk | hk | hk
      · exact (hx _).trans (congrArg Host.Outcome.next (opEnd_by_kind s hk _ (fun o => s.endOp o stOk) rfl))
      · exact (hx _).trans (congrArg Host.Outcome.next (opEnd_by_kind s hk _ (fun o => s.endOp o stOk) rfl))
      · exact (hx _).trans (congrArg Host.Outcome.next (opEnd_by_kind s hk _ (fun o => s.endOp o stOk) rfl))
    · refine (hx _).trans (congrArg Host.Outcome.next ?_)
      exact (opEnd_by_kind s hk _ (fun o => s.lockEnd o a b step) rfl).trans (lockEnd_paired s o a b step hl)
    · obtain ⟨st, h1, h2⟩ := lockEnd_unpaired s o a b step hl
      exact ⟨st, h1, (hx _).trans (congrArg Host.Outcome.next ((opEnd_by_kind s hk _ (fun o => s.lockEnd o a b step) rfl).trans h2))⟩
  · subst hq
    rw [endOp_of_not_adds s o st ha, endFail_of_ne s _ o st h4]
    exact failed_leaves s _ o st hst
  · subst hp
    obtain ⟨h1, h2⟩ := endOp_adds_el s o st ha hq h4 hpairs hc
    exact ⟨h1, (h2 o.key).trans (if_pos rfl), fun k hk => (h2 k).trans (if_neg hk)⟩
  · subst hp
    exact endOp_adds_ux s o st ha hq h4 hc

end Sys2Proof.Machine

/-! SUPPORT. Watches, wakes and clock gates (R204, R210 to R218, R499 to R501). -/

namespace Sys2Proof.Machine

set_option Elab.async false

/-! ### Entries of a table -/

theorem mem_of_tget_ne {α : Type} {d : α} {t : Tbl α} {k : Nat} (h : tget d t k ≠ d) : (k, tget d t k) ∈ t := by
  induction t with
  | nil => exact absurd rfl h
  | cons e r ih =>
    obtain ⟨i, v⟩ := e
    by_cases hi : i = k
    · subst hi
      rw [show tget d ((i, v) :: r) i = v from if_pos rfl]
      exact List.mem_cons_self
    · rw [show tget d ((i, v) :: r) k = tget d r k from if_neg hi] at h ⊢
      exact List.mem_cons_of_mem _ (ih h)

section
variable (s : State) (w : Nat)

theorem mem_of_armed (h : (s.watchAt w).armed = true) : (w, s.watchAt w) ∈ s.el.watches := by
  refine mem_of_tget_ne (fun e => ?_)
  have : (s.watchAt w).armed = false := (congrArg Watch.armed e).trans rfl
  rw [this] at h
  exact absurd h (by decide)

theorem watchAt_setWatch (x : Watch) : (s.setWatch w x).watchAt w = x := tget_tput_same Watch.zero s.el.watches w x

theorem watchAt_setWatch_other (x : Watch) {v : Nat} (h : v ≠ w) : (s.setWatch w x).watchAt v = s.watchAt v := tget_tput_other Watch.zero Watch.zero s.el.watches w v x h

theorem gate_setGate (c e : Nat) (g : Gate) : (s.setGate c e g).gate c e = g := tget_tput_same Gate.zero s.el.gates (gateKey c e) g

/-- A wake that leaves, as its entry names it (R213, R215). -/
def Watch.wake (x : Watch) (w kind : Nat) (equal : Bool) : Wake := { core := x.core, eng := x.eng, kind := kind, equal := equal, widx := w }

/-- What a wake does: its entry is IDLE, the wake waits, and nothing else of the die's sync state, and no register, changes. -/
theorem wakeWatch_leaves (kind : Nat) (equal : Bool) : let u := s.wakeWatch w kind equal
    (u.watchAt w).armed = false ∧ u.el.wakeQ = s.el.wakeQ ++ [(s.watchAt w).wake w kind equal] ∧ u.el.gates = s.el.gates ∧ u.el.counters = s.el.counters ∧ u.el.ports = s.el.ports ∧ RegsBut [] s u
      ∧ (u.el.base.events = s.el.base.events) := by
  refine ⟨?_, rfl, rfl, rfl, rfl, fun q o _ => by cases q <;> rfl, rfl⟩
  exact congrArg Watch.armed (tget_tput_same Watch.zero s.el.watches w _)
end

/-! ### The core sync port (R204, R499) -/

section
variable (c core : BitVec 8) (eng : Fin 8) (k : BitVec 6) (target : BitVec 40) (eq : Bool) (w : BitVec 12) (s : State)

theorem crossCore_leaves : let u := s.crossCore c.toNat core.toNat k.toNat
    u.el.ports.csOk = false ∧ u.el.watches = s.el.watches ∧ u.bit .el Reg.SYNC_STAT_CROSS_CORE = true ∧ u.el.bars = s.el.bars
      ∧ Logged .el s u [(0x03, 0x3004, cntObj (cntKey core.toNat k.toNat), c.toNat)] := by
  intro u
  let a := s.put .el Reg.SYNC_STAT_CROSS_CORE 1
  have hc := core_log a .el 0x03 0x3004 (cntObj (cntKey core.toNat k.toNat)) c.toNat
  refine ⟨rfl, (congrArg (fun t : State => t.el.watches) hc :), ?_, (congrArg (fun t : State => t.el.bars) hc :), (logged_log _ _ _ _ (events_put ..)).congr rfl⟩
  have hr : u.reg .el Reg.SYNC_STAT_CROSS_CORE.off = a.reg .el Reg.SYNC_STAT_CROSS_CORE.off := reg_of_core hc .el _
  unfold State.bit State.get
  rw [hr]
  exact congrArg (fun n => n != 0) ((get_put_same s .el Reg.SYNC_STAT_CROSS_CORE 1 (by decide) (by decide)).trans rfl)

/-- A registration of an entry that is ARMED (R210). -/
theorem watchReg_armed (owner : Bool) (core k target : Nat) (eq : Bool) (eng w : Nat) (h : (s.watchAt w).armed = true) :
    s.watchReg owner core k target eq eng w = (s.logW .el 0x03 0x3011 (cntObj (cntKey core k)) (core * 2 ^ 24 + eng * 2 ^ 21 + w) w, false) := if_pos h

/-- The entry as it is registered. -/
def Watch.registered (x : Watch) (owner : Bool) (core k target : Nat) (eq : Bool) (eng : Nat) : Watch :=
  { x with armed := true, owner := owner, eq := eq, eng := eng, core := core, k := k, target := target }

theorem watchReg_idle (owner : Bool) (core k target : Nat) (eq : Bool) (eng w : Nat) (h : (s.watchAt w).armed = false) :
    s.watchReg owner core k target eq eng w = (((s.setWatch w ((s.watchAt w).registered owner core k target eq eng)).gateAsk core eng).watchTry w, true) := if_neg (by rw [h]; decide)

/-- An engine with an ARMED watch asks for its clock (R500). -/
theorem gateAsk_asks {s : State} {c e w : Nat} (hx : (s.watchAt w).armed = true) (hc : (s.watchAt w).core = c) (he : (s.watchAt w).eng = e) (ha : (s.gate c e).ack = false) (hr : (s.gate c e).rst = false) :
    ((s.gateAsk c e).gate c e).req = true := by
  have howed : s.el.watches.any (fun x => x.2.armed && x.2.core == c && x.2.eng == e) = true :=
    List.any_eq_true.mpr ⟨_, mem_of_armed s w hx, by simp [hx, hc, he]⟩
  have h : s.gateAsk c e = s.setGate c e { s.gate c e with req := true } := if_pos (by simp [howed, ha, hr])
  rw [h, gate_setGate]

/-- Asking changes nothing but the gate. -/
theorem gateAsk_keeps (s : State) (c e : Nat) : (s.gateAsk c e).el.watches = s.el.watches ∧ (s.gateAsk c e).el.wakeQ = s.el.wakeQ ∧ (s.gateAsk c e).el.counters = s.el.counters
    ∧ (s.gateAsk c e).el.stepBase = s.el.stepBase ∧ RegsBut [] s (s.gateAsk c e) := by
  unfold State.gateAsk
  dsimp only
  split
  · exact ⟨rfl, rfl, rfl, rfl, fun q o _ => by cases q <;> rfl⟩
  · exact ⟨rfl, rfl, rfl, rfl, fun _ _ _ => rfl⟩
end

theorem gateAsk_events (s : State) (c e : Nat) : (s.gateAsk c e).el.base = s.el.base := by
  unfold State.gateAsk
  dsimp only
  split <;> rfl

/-- A watch is compared (R211): it fires where the view has reached its target, and else nothing changes. -/
theorem watchTry_fires {s : State} {w : Nat} (ha : (s.watchAt w).armed = true) (h : (s.watchAt w).target ≤ s.cntView (cntKey (s.watchAt w).core (s.watchAt w).k)) :
    s.watchTry w = s.wakeWatch w 0 ((s.watchAt w).eq && s.cntView (cntKey (s.watchAt w).core (s.watchAt w).k) == (s.watchAt w).target) := if_pos (by simp [ha, h])

theorem watchTry_waits {s : State} {w : Nat} (h : s.cntView (cntKey (s.watchAt w).core (s.watchAt w).k) < (s.watchAt w).target) : s.watchTry w = s := if_neg (by simp [Nat.not_le.mpr h])

theorem cntView_congr {s t : State} (hc : t.el.counters = s.el.counters) (hb : t.el.stepBase = s.el.stepBase) (i : Nat) : t.cntView i = s.cntView i := by
  unfold State.cntView State.cntAbs
  rw [hc, hb]

section
variable (c core : BitVec 8) (eng : Fin 8) (k : BitVec 6) (target : BitVec 40) (eq level : Bool) (w : BitVec 12) (s : State)

/-- The entry is set and its gate asked for (R210), before the target is compared. -/
def State.watchSet (s : State) (owner : Bool) (core k target : Nat) (eq : Bool) (eng w : Nat) : State :=
  (s.setWatch w ((s.watchAt w).registered owner core k target eq eng)).gateAsk core eng

theorem watchSet_leaves {s : State} (owner : Bool) (core k target : Nat) (eq : Bool) (eng w : Nat) (hr : (s.gate core eng).rst = false) :
    let u := s.watchSet owner core k target eq eng w
    u.watchAt w = (s.watchAt w).registered owner core k target eq eng ∧ u.el.wakeQ = s.el.wakeQ ∧ (∀ i, u.cntView i = s.cntView i) ∧ ((s.gate core eng).ack = false → (u.gate core eng).req = true) := by
  let a := s.setWatch w ((s.watchAt w).registered owner core k target eq eng)
  have hset : a.watchAt w = (s.watchAt w).registered owner core k target eq eng := watchAt_setWatch s w _
  obtain ⟨hw, hq, hc, hb, _⟩ := gateAsk_keeps a core eng
  refine ⟨?_, hq, fun i => cntView_congr hc hb i, fun ha => ?_⟩
  · exact (congrArg (fun l => tget Watch.zero l w) hw).trans hset
  · exact gateAsk_asks (congrArg Watch.armed hset) (congrArg Watch.core hset) (congrArg Watch.eng hset) ha hr

/-- A registration the SYNC unit answers at once: none is made (R499). -/
theorem csWreg_refused (h : s.csHere c.toNat eng = false ∨ (core = c ∧ (s.cntHas core.toNat k.toNat = false ∨ s.el.lic.watches ≤ w.toNat))) :
    exec (.csWreg c eng core k target eq w) s = .next (s.csAnswer false) := by
  refine congrArg Host.Outcome.next ?_
  rcases h with h | ⟨rfl, h⟩
  · exact if_pos (by rw [h]; rfl)
  · refine (ite_congr rfl (fun _ => rfl) (fun _ => (if_neg (by simp)).trans (if_neg ?_))).trans (ite_self _)
    rcases h with h | h
    · simp [h]
    · simp [Nat.not_lt.mpr h]

theorem csWreg_crossCore (hh : s.csHere c.toNat eng = true) (hc : core ≠ c) : exec (.csWreg c eng core k target eq w) s = .next (s.crossCore c.toNat core.toNat k.toNat) :=
  congrArg Host.Outcome.next ((if_neg (by rw [hh]; decide)).trans (if_pos (by simpa using hc)))

/-- A registration on the requesting core's counter (R210). -/
theorem csWreg_registers (hh : s.csHere c.toNat eng = true) (hc : core = c) (hk : s.cntHas core.toNat k.toNat = true) (hw : w.toNat < s.el.lic.watches) :
    exec (.csWreg c eng core k target eq w) s
      = .next ((s.watchReg true core.toNat k.toNat target.toNat eq eng w.toNat).1.csAnswer (s.watchReg true core.toNat k.toNat target.toNat eq eng w.toNat).2) :=
  congrArg Host.Outcome.next ((if_neg (by rw [hh]; decide)).trans ((if_neg (by simp [hc])).trans (if_pos (by simp [hk, hw]))))

theorem csWreg_of_armed (hh : s.csHere c.toNat eng = true) (hc : core = c) (hk : s.cntHas core.toNat k.toNat = true) (hw : w.toNat < s.el.lic.watches) (ha : (s.watchAt w.toNat).armed = true) :
    Ends (.csWreg c eng core k target eq w) s (fun u => u.el.ports.csOk = false ∧ u.el.watches = s.el.watches ∧ u.el.wakeQ = s.el.wakeQ
      ∧ Logged .el s u [(0x03, 0x3011, cntObj (cntKey core.toNat k.toNat), w.toNat)]) := by
  refine ⟨_, csWreg_registers c core eng k target eq w s hh hc hk hw, ?_⟩
  rw [watchReg_armed _ _ _ _ _ _ _ _ ha]
  have hcore := core_logW s .el 0x03 0x3011 (cntObj (cntKey core.toNat k.toNat)) (core.toNat * 2 ^ 24 + eng.val * 2 ^ 21 + w.toNat) w.toNat
  exact ⟨rfl, (congrArg (fun t : State => t.el.watches) hcore :), (congrArg (fun t : State => t.el.wakeQ) hcore :), (logged_logW _ _ _ _ _ rfl).congr rfl⟩

theorem rst_of_csHere {s : State} {c e : Nat} (h : s.csHere c e = true) : (s.gate c e).rst = false := by
  unfold State.csHere at h
  simp only [Bool.and_eq_true, Bool.not_eq_true'] at h
  exact h.2

theorem csWreg_of_idle (hh : s.csHere c.toNat eng = true) (hc : core = c) (hk : s.cntHas core.toNat k.toNat = true) (hw : w.toNat < s.el.lic.watches) (ha : (s.watchAt w.toNat).armed = false) :
    exec (.csWreg c eng core k target eq w) s = .next (((s.watchSet true core.toNat k.toNat target.toNat eq eng w.toNat).watchTry w.toNat).csAnswer true) := by
  rw [csWreg_registers c core eng k target eq w s hh hc hk hw, watchReg_idle _ _ _ _ _ _ _ _ ha]
  rfl

theorem csWreg_below (hh : s.csHere c.toNat eng = true) (hc : core = c) (hk : s.cntHas core.toNat k.toNat = true) (hw : w.toNat < s.el.lic.watches) (ha : (s.watchAt w.toNat).armed = false)
    (hv : s.cntView (cntKey core.toNat k.toNat) < target.toNat) :
    Ends (.csWreg c eng core k target eq w) s (fun u => u.el.ports.csOk = true ∧ u.el.wakeQ = s.el.wakeQ ∧ ((s.gate c.toNat eng).ack = false → (u.gate c.toNat eng).req = true)
      ∧ u.watchAt w.toNat = { s.watchAt w.toNat with armed := true, owner := true, eq := eq, eng := eng, core := core.toNat, k := k.toNat, target := target.toNat }) := by
  refine ⟨_, csWreg_of_idle c core eng k target eq w s hh hc hk hw ha, ?_⟩
  subst hc
  obtain ⟨hx, hq, hview, hreq⟩ := watchSet_leaves (s := s) true core.toNat k.toNat target.toNat eq eng w.toNat (rst_of_csHere hh)
  rw [watchTry_waits (by rw [hx, hview]; exact hv)]
  exact ⟨rfl, hq, hreq, hx⟩

theorem csWreg_reached (hh : s.csHere c.toNat eng = true) (hc : core = c) (hk : s.cntHas core.toNat k.toNat = true) (hw : w.toNat < s.el.lic.watches) (ha : (s.watchAt w.toNat).armed = false)
    (hv : target.toNat ≤ s.cntView (cntKey core.toNat k.toNat)) :
    Ends (.csWreg c eng core k target eq w) s (fun u => u.el.ports.csOk = true ∧ (u.watchAt w.toNat).armed = false ∧ ((s.gate c.toNat eng).ack = false → (u.gate c.toNat eng).req = true)
      ∧ u.el.wakeQ = s.el.wakeQ ++ [{ core := core.toNat, eng := eng, kind := 0, equal := eq && s.cntView (cntKey core.toNat k.toNat) == target.toNat, widx := w.toNat }]) := by
  refine ⟨_, csWreg_of_idle c core eng k target eq w s hh hc hk hw ha, ?_⟩
  subst hc
  obtain ⟨hx, hq, hview, hreq⟩ := watchSet_leaves (s := s) true core.toNat k.toNat target.toNat eq eng w.toNat (rst_of_csHere hh)
  rw [watchTry_fires (by rw [hx]; rfl) (by rw [hx, hview]; exact hv)]
  obtain ⟨harm, hwq, hg, _⟩ := wakeWatch_leaves (s.watchSet true core.toNat k.toNat target.toNat eq eng w.toNat) w.toNat 0
    ((s.watchSet true core.toNat k.toNat target.toNat eq eng w.toNat |>.watchAt w.toNat).eq && (s.watchSet true core.toNat k.toNat target.toNat eq eng w.toNat).cntView
      (cntKey (s.watchSet true core.toNat k.toNat target.toNat eq eng w.toNat |>.watchAt w.toNat).core (s.watchSet true core.toNat k.toNat target.toNat eq eng w.toNat |>.watchAt w.toNat).k)
        == (s.watchSet true core.toNat k.toNat target.toNat eq eng w.toNat |>.watchAt w.toNat).target)
  refine ⟨rfl, harm, fun h => ?_, ?_⟩
  · exact (congrArg (fun l => (tget Gate.zero l (gateKey core.toNat eng)).req) hg).trans (hreq h)
  · rw [hx, hview] at hwq ⊢
    exact hwq.trans (congrArg (· ++ _) hq)

/-! ### Releases, timeouts and wakes (R214, R215, R213) -/

theorem csWrel_refused (h : s.csHere c.toNat eng = false ∨ s.el.lic.watches ≤ w.toNat) : exec (.csWrel c eng w) s = .next (s.csAnswer false) := by
  refine congrArg Host.Outcome.next (if_neg ?_)
  rcases h with h | h
  · simp [h]
  · simp [Nat.not_lt.mpr h]

theorem csWrel_releases (hh : s.csHere c.toNat eng = true) (hw : w.toNat < s.el.lic.watches) : exec (.csWrel c eng w) s = .next ((s.watchClear w.toNat).csAnswer true) :=
  congrArg Host.Outcome.next (if_pos (by simp [hh, hw]))

theorem csWrel_armed (hh : s.csHere c.toNat eng = true) (hw : w.toNat < s.el.lic.watches) (ha : (s.watchAt w.toNat).armed = true) :
    Ends (.csWrel c eng w) s (fun u => u.el.ports.csOk = true ∧ (u.watchAt w.toNat).armed = false ∧ u.el.wakeQ = s.el.wakeQ ++ [(s.watchAt w.toNat).wake w.toNat 2 false] ∧ RegsBut [] s u) := by
  refine ⟨_, (csWrel_releases c eng w s hh hw).trans (congrArg (fun t => Host.Outcome.next (State.csAnswer t true)) (if_pos ha)), ?_⟩
  obtain ⟨harm, hq, _, _, _, hr, _⟩ := wakeWatch_leaves s w.toNat 2 false
  exact ⟨rfl, harm, hq, fun q o h => (by cases q <;> rfl : _ = (s.wakeWatch w.toNat 2 false).reg q o).trans (hr q o h)⟩

theorem watchTimeout_armed (ha : (s.watchAt w.toNat).armed = true) :
    Ends (.watchTimeout w) s (fun u => (u.watchAt w.toNat).armed = false ∧ u.el.wakeQ = s.el.wakeQ ++ [(s.watchAt w.toNat).wake w.toNat 1 false] ∧ u.bit .el Reg.SYNC_STAT_WATCH_TMO = true
      ∧ u.el.counters = s.el.counters ∧ Logged .el s u [(0x03, 0x3010, cntObj (cntKey (s.watchAt w.toNat).core (s.watchAt w.toNat).k), (s.watchAt w.toNat).target)]) := by
  let x := s.watchAt w.toNat
  let a := s.put .el Reg.SYNC_STAT_WATCH_TMO 1
  let b := a.logW .el 0x03 0x3010 (cntObj (cntKey x.core x.k)) (x.core * 2 ^ 24 + x.eng * 2 ^ 21 + w.toNat) x.target
  have hcore : b.core = a.core := core_logW ..
  have hx : b.watchAt w.toNat = x := (congrArg (fun t : State => tget Watch.zero t.el.watches w.toNat) hcore :)
  refine ⟨b.wakeWatch w.toNat 1 false, congrArg Host.Outcome.next (if_pos ha), ?_⟩
  obtain ⟨harm, hq, _, hcnt, _, hr, hev⟩ := wakeWatch_leaves b w.toNat 1 false
  refine ⟨harm, ?_, ?_, hcnt.trans (congrArg (fun t : State => t.el.counters) hcore :), ?_⟩
  · rw [hq, hx]
    exact congrArg (· ++ _) (congrArg (fun t : State => t.el.wakeQ) hcore :)
  · unfold State.bit State.get
    rw [hr .el _ (by simp), reg_of_core hcore]
    exact congrArg (fun n => n != 0) ((get_put_same s .el Reg.SYNC_STAT_WATCH_TMO 1 (by decide) (by decide)).trans rfl)
  · exact (logged_logW _ _ _ _ _ (events_put ..)).congr hev

theorem wakeSend_presents {y : Wake} (h : s.el.wakeQ.find? (fun y => y.core == core.toNat) = some y) :
    Ends (.wakeSend core) s (fun u => u.el.wakeQ = s.el.wakeQ.erase y ∧ u.el.ports.wakes.find? (fun z => z.core == core.toNat) = some y ∧ (u.gate core.toNat y.eng).req = false ∧ RegsBut [] s u) := by
  have hcore : y.core = core.toNat := by simpa using List.find?_some h
  have hexec : exec (.wakeSend core) s = .next (((s.modEl (fun e => { e with wakeQ := e.wakeQ.erase y, ports := { e.ports with wakes := e.ports.wakes.filter (fun x => x.core != y.core) ++ [y] } })).setGate
      y.core y.eng { s.gate y.core y.eng with req := false })) := by
    change execWakeSend core s = _
    unfold execWakeSend
    rw [h]
  refine ⟨_, hexec, rfl, ?_, ?_, fun q o _ => by cases q <;> rfl⟩
  · have hnone : (s.el.ports.wakes.filter (fun x => x.core != y.core)).find? (fun z => z.core == core.toNat) = none := by
      refine List.find?_eq_none.mpr (fun z hz => ?_)
      have hne := (List.mem_filter.mp hz).2
      simpa [hcore] using hne
    change (s.el.ports.wakes.filter (fun x => x.core != y.core) ++ [y]).find? (fun z => z.core == core.toNat) = some y
    rw [List.find?_append, hnone, Option.none_or]
    exact List.find?_cons_of_pos (by simp [hcore])
  · rw [← hcore, gate_setGate]

theorem wakeSend_none (h : s.el.wakeQ.find? (fun y => y.core == core.toNat) = none) : exec (.wakeSend core) s = .next s := by
  change execWakeSend core s = _
  unfold execWakeSend
  rw [h]

/-! ### Engine resets and clock gates (R500, R501) -/

/-- Whether an entry belongs to an engine that is reset, and waits. -/
def Watch.armedOf (x : Watch) (c e : Nat) : Bool := x.armed && x.core == c && x.eng == e

/-- One entry at the reset of its engine (R218). -/
def State.engDrop (s : State) (c e : Nat) (w : Nat × Watch) : State :=
  if w.2.armedOf c e then (s.disarm w.1).logW .el 0x03 0x3012 (cntObj (cntKey w.2.core w.2.k)) (w.2.core * 2 ^ 24 + w.2.eng * 2 ^ 21 + w.1) w.1 else s

/-- What the reset of an engine keeps: gates, wakes and counters; and no entry is armed by it. -/
structure EngineKept (s t : State) : Prop where
  gates : t.el.gates = s.el.gates
  wakeQ : t.el.wakeQ = s.el.wakeQ
  counters : t.el.counters = s.el.counters
  idle : ∀ v, (s.watchAt v).armed = false → (t.watchAt v).armed = false

theorem EngineKept.refl (s : State) : EngineKept s s := ⟨rfl, rfl, rfl, fun _ h => h⟩

theorem EngineKept.trans {s t u : State} (h : EngineKept s t) (h' : EngineKept t u) : EngineKept s u :=
  ⟨h'.gates.trans h.gates, h'.wakeQ.trans h.wakeQ, h'.counters.trans h.counters, fun v hv => h'.idle v (h.idle v hv)⟩

theorem engDrop_of_armed (s : State) (c e : Nat) (i : Nat × Watch) (h : i.2.armedOf c e = true) : EngineKept s (s.engDrop c e i) ∧ ((s.engDrop c e i).watchAt i.1).armed = false := by
  have hs : s.engDrop c e i = (s.disarm i.1).logW .el 0x03 0x3012 (cntObj (cntKey i.2.core i.2.k)) (i.2.core * 2 ^ 24 + i.2.eng * 2 ^ 21 + i.1) i.1 := if_pos h
  have hcore := core_logW (s.disarm i.1) .el 0x03 0x3012 (cntObj (cntKey i.2.core i.2.k)) (i.2.core * 2 ^ 24 + i.2.eng * 2 ^ 21 + i.1) i.1
  rw [← hs] at hcore
  have hat : ∀ v, (s.engDrop c e i).watchAt v = (s.disarm i.1).watchAt v := fun v => (congrArg (fun t : State => tget Watch.zero t.el.watches v) hcore :)
  have hsame : ((s.disarm i.1).watchAt i.1).armed = false := congrArg Watch.armed (watchAt_setWatch s i.1 _)
  refine ⟨⟨(congrArg (fun t : State => t.el.gates) hcore :), (congrArg (fun t : State => t.el.wakeQ) hcore :), (congrArg (fun t : State => t.el.counters) hcore :), fun v hv => ?_⟩, ?_⟩
  · rw [hat v]
    by_cases hvi : v = i.1
    · rw [hvi, hsame]
    · rw [show (s.disarm i.1).watchAt v = s.watchAt v from watchAt_setWatch_other s i.1 _ hvi, hv]
  · rw [hat, hsame]

theorem engDrop_kept (s : State) (c e : Nat) (i : Nat × Watch) : EngineKept s (s.engDrop c e i) := by
  by_cases h : i.2.armedOf c e = true
  · exact (engDrop_of_armed s c e i h).1
  · rw [show s.engDrop c e i = s from if_neg h]
    exact .refl s

theorem engDrops_kept (c e : Nat) (l : List (Nat × Watch)) (s : State) : EngineKept s (l.foldl (fun t i => t.engDrop c e i) s) := by
  induction l generalizing s with
  | nil => exact .refl s
  | cons i r ih => exact (engDrop_kept s c e i).trans (ih _)

theorem engDrops_idle (c e : Nat) {l : List (Nat × Watch)} {i : Nat × Watch} (hi : i ∈ l) (ha : i.2.armedOf c e = true) (s : State) :
    ((l.foldl (fun t i => t.engDrop c e i) s).watchAt i.1).armed = false := by
  induction l generalizing s with
  | nil => exact absurd hi (List.not_mem_nil)
  | cons j r ih =>
    rcases List.mem_cons.mp hi with rfl | hr
    · exact (engDrops_kept c e r _).idle _ (engDrop_of_armed s c e i ha).2
    · exact ih hr _

theorem engRst_resets (x : Watch) (hx : s.watchAt w.toNat = x) :
    Ends (.engRst c eng) s (fun u => (u.gate c.toNat eng).rst = true ∧ (u.gate c.toNat eng).req = false ∧ u.el.wakeQ = s.el.wakeQ ∧ u.el.counters = s.el.counters
      ∧ (x.armed = true → x.core = c.toNat → x.eng = eng → (u.watchAt w.toNat).armed = false)) := by
  subst hx
  let g : Gate := { s.gate c.toNat eng with rst := true, req := false }
  let a := s.setGate c.toNat eng g
  have hk := engDrops_kept c.toNat eng s.el.watches a
  have hg : ((s.el.watches.foldl (fun t i => t.engDrop c.toNat eng i) a).gate c.toNat eng) = g :=
    (congrArg (fun l => tget Gate.zero l (gateKey c.toNat eng)) hk.gates).trans (gate_setGate s c.toNat eng g)
  refine ⟨_, rfl, congrArg Gate.rst hg, congrArg Gate.req hg, hk.wakeQ, hk.counters, fun ha hc he => ?_⟩
  exact engDrops_idle c.toNat eng (mem_of_armed s w.toNat ha) (by simp [Watch.armedOf, ha, hc, he]) a

theorem gateAck_sets (x : Watch) (hx : s.watchAt w.toNat = x) :
    Ends (.gateAck c eng level) s (fun u => (u.gate c.toNat eng).ack = level ∧ RegsBut [] s u ∧ u.el.watches = s.el.watches ∧ (level = true → (u.gate c.toNat eng).req = (s.gate c.toNat eng).req)
      ∧ (level = false → (s.gate c.toNat eng).rst = false → x.armed = true → x.core = c.toNat → x.eng = eng → (u.gate c.toNat eng).req = true)) := by
  subst hx
  let g : Gate := { s.gate c.toNat eng with ack := level }
  let a := s.setGate c.toNat eng g
  have hg : a.gate c.toNat eng = g := gate_setGate s c.toNat eng g
  have hra : RegsBut [] s a := fun q o _ => by cases q <;> rfl
  cases level with
  | true => exact ⟨a, rfl, congrArg Gate.ack hg, hra, rfl, fun _ => (congrArg Gate.req hg :), fun h => absurd h (by decide)⟩
  | false =>
    obtain ⟨hw, _, _, _, hr⟩ := gateAsk_keeps a c.toNat eng
    refine ⟨a.gateAsk c.toNat eng, rfl, ?_, fun q o h => (hr q o h).trans (hra q o h), hw, fun h => absurd h (by decide), fun _ hrst ha hc he => ?_⟩
    · unfold State.gateAsk
      dsimp only
      split
      · rw [gate_setGate]
        exact congrArg Gate.ack hg
      · exact congrArg Gate.ack hg
    · exact gateAsk_asks (s := a) ha hc he (congrArg Gate.ack hg) ((congrArg Gate.rst hg).trans hrst)

end

/-- Settles O42: each request of the sync port by its answer, each change of an entry by what it leaves. -/
theorem watches : Obligations.Watches := by
  unfold Obligations.Watches
  intro c core eng k target eq level w s
  refine ⟨csWreg_refused c core eng k target eq w s, fun hh hc => ?_, fun hh hc hk hw => ⟨csWreg_of_armed c core eng k target eq w s hh hc hk hw, csWreg_below c core eng k target eq w s hh hc hk hw,
    csWreg_reached c core eng k target eq w s hh hc hk hw⟩, csWrel_refused c eng w s, fun hh hw => ⟨fun ha => ?_, csWrel_armed c eng w s hh hw⟩, fun ha => ?_, watchTimeout_armed w s,
    wakeSend_none core s, fun y => wakeSend_presents core s, engRst_resets c eng w s _ rfl, gateAck_sets c eng level w s _ rfl, rfl⟩
  · obtain ⟨hok, hw, hb, _, hl⟩ := crossCore_leaves c core k s
    exact ⟨_, csWreg_crossCore c core eng k target eq w s hh hc, hok, hw, hb, hl⟩
  · exact (csWrel_releases c eng w s hh hw).trans (congrArg (fun t => Host.Outcome.next (State.csAnswer t true)) (if_neg (by rw [ha]; decide)))
  · exact congrArg Host.Outcome.next (if_neg (by rw [ha]; decide))

end Sys2Proof.Machine

/-! SUPPORT. Announcements and the landing queue with its claims (R219 to R224, R503 to R505). -/

namespace Sys2Proof.Machine

set_option Elab.async false

/-! ### Claims (R503 to R505) -/

/-- The state with other claims and other sources that wait for one. -/
def State.withClaims (s : State) (c : List (BitVec 20 × Nat × Nat)) (r : List (BitVec 20)) : State :=
  s.modEl (fun e => { e with ports := { e.ports with claims := c, reclaim := r } })

/-- `t` differs from `s` at most in its claims. -/
def ClaimsOnly (s t : State) : Prop := ∃ c r, t = s.withClaims c r

namespace ClaimsOnly

variable {s t u : State}

theorem refl (s : State) : ClaimsOnly s s := ⟨s.el.ports.claims, s.el.ports.reclaim, rfl⟩

theorem trans (h : ClaimsOnly s t) (k : ClaimsOnly t u) : ClaimsOnly s u := by
  obtain ⟨c, r, rfl⟩ := h
  obtain ⟨c', r', rfl⟩ := k
  exact ⟨c', r', rfl⟩

theorem ite {a b : State} {c : Prop} [Decidable c] (ha : ClaimsOnly s a) (hb : ClaimsOnly s b) : ClaimsOnly s (if c then a else b) := by
  split
  · exact ha
  · exact hb

theorem claimTry (s : State) (src : BitVec 20) : ClaimsOnly s (s.claimTry src) := by
  unfold State.claimTry
  dsimp only
  split
  · exact ⟨_, _, rfl⟩
  · exact .ite (.refl s) ⟨_, _, rfl⟩

theorem claimPump (s : State) : ClaimsOnly s s.claimPump :=
  List.foldlRecOn (motive := ClaimsOnly s) _ _ (.refl s) (fun u hu src _ => hu.trans (.claimTry u src))

theorem claimWant (s : State) (src : BitVec 20) : ClaimsOnly s (s.claimWant src) :=
  (ClaimsOnly.ite (.refl s) ⟨_, _, rfl⟩).trans (.claimPump _)

theorem claimWants (s : State) (srcs : List (BitVec 20)) : ClaimsOnly s (srcs.foldl (fun t x => t.claimWant x) s) :=
  List.foldlRecOn (motive := ClaimsOnly s) _ _ (.refl s) (fun u hu src _ => hu.trans (.claimWant u src))

theorem land (h : ClaimsOnly s t) : t.el.land = s.el.land := by
  obtain ⟨c, r, rfl⟩ := h
  rfl

theorem counters (h : ClaimsOnly s t) : t.el.counters = s.el.counters := by
  obtain ⟨c, r, rfl⟩ := h
  rfl

theorem idcClear (h : ClaimsOnly s t) : t.el.ports.idcClear = s.el.ports.idcClear := by
  obtain ⟨c, r, rfl⟩ := h
  rfl

theorem regs (h : ClaimsOnly s t) : RegsBut [] s t := by
  obtain ⟨c, r, rfl⟩ := h
  exact fun q o _ => by cases q <;> rfl

theorem get (h : ClaimsOnly s t) (p : Part) (f : Fld) : t.get p f = s.get p f := by
  unfold State.get
  rw [h.regs p f.off (List.not_mem_nil)]

theorem events (h : ClaimsOnly s t) : t.el.base.events = s.el.base.events := by
  obtain ⟨c, r, rfl⟩ := h
  rfl

end ClaimsOnly

section
variable {s : State} {src : BitVec 20} {l : LandEntry}

/-- Nothing holds back the claim of this source's oldest entry (R223, R503 to R505). -/
def State.mayClaim (s : State) (src : BitVec 20) (l : LandEntry) : Bool :=
  !(s.el.ports.idcClear || decide (16 ≤ s.el.ports.claims.length) || s.el.ports.claims.any (fun c => c.1 == src) || decide (s.stepCur < l.step.toNat))

theorem mayClaim_iff : s.mayClaim src l = true ↔
    s.el.ports.idcClear = false ∧ s.el.ports.claims.length < 16 ∧ s.el.ports.claims.any (fun c => c.1 == src) = false ∧ l.step.toNat ≤ s.stepCur := by
  unfold State.mayClaim
  rw [Bool.not_eq_true']
  simp only [Bool.or_eq_false_iff, decide_eq_false_iff_not, Nat.not_le, Nat.not_lt, and_assoc]

/-- The one source that waits, tried. -/
theorem claimWant_of_idle (hl : s.landOldest src = some l) (hr : s.el.ports.reclaim = []) :
    s.claimWant src = if s.mayClaim src l then s.withClaims (s.el.ports.claims ++ [(src, l.bytes, l.tag)]) [] else s.withClaims s.el.ports.claims [src] := by
  have hwant : (if s.el.ports.reclaim.contains src then s else s.modEl (fun e => { e with ports := { e.ports with reclaim := e.ports.reclaim ++ [src] } })) = s.withClaims s.el.ports.claims [src] := by
    rw [hr]
    refine (if_neg (by simp)).trans ?_
    unfold State.withClaims State.modEl
    dsimp only
    rw [hr]
    rfl
  unfold State.claimWant
  rw [hwant]
  show (s.withClaims s.el.ports.claims [src]).claimTry src = _
  have hold : (s.withClaims s.el.ports.claims [src]).landOldest src = some l := hl
  unfold State.claimTry
  rw [hold]
  by_cases hm : s.mayClaim src l = true
  · rw [if_pos hm]
    refine (if_neg ?_).trans ?_
    · unfold State.mayClaim at hm
      rw [Bool.not_eq_true'] at hm
      exact ne_true_of_eq_false hm
    · exact congrArg (s.withClaims (s.el.ports.claims ++ [(src, l.bytes, l.tag)])) (by simp : [src].filter (fun x => x != src) = [])
  · rw [if_neg hm]
    refine if_pos ?_
    unfold State.mayClaim at hm
    rw [Bool.not_eq_true, Bool.not_eq_false'] at hm
    exact hm

theorem claimPump_of_idle (hr : s.el.ports.reclaim = []) : s.claimPump = s := by
  unfold State.claimPump
  rw [hr]
  rfl
end

/-! ### Announcements (R219, R222) -/

section
variable (m : AnnMsg) (s : State)

theorem core_annAnswer (code : Nat) : (s.annAnswer m code).core = s.core := core_sendUp ..

theorem events_annAnswer (code : Nat) (q : Part) : ((s.annAnswer m code).base q).events = (s.base q).events := events_sendUp ..

theorem annTake_refused (h : s.cntHas m.rcore.toNat m.rk.toNat = false) : s.annTake m = (s.log .el 0x03 0x3033 (cntObj (cntKey m.rcore.toNat m.rk.toNat)) m.src.toNat).annAnswer m 1 :=
  if_pos (by rw [h]; rfl)

theorem annTake_again (h : s.cntHas m.rcore.toNat m.rk.toNat = true) (hs : s.el.landSeen.contains (m.src, m.ident) = true) : s.annTake m = s.annAnswer m 0 :=
  (if_neg (by rw [h]; decide)).trans (if_pos hs)

/-- The tag a new entry takes, if it may be taken. -/
def State.landPlace (s : State) : Option Nat := if s.el.land.length < 512 && s.queueOn .barrier then s.landTag else none

/-- The entry of an announcement. -/
def landEntryOf (m : AnnMsg) (t : Nat) : LandEntry :=
  { tag := t, src := m.src, step := m.step, bytes := m.bytes.toNat, rcore := m.rcore.toNat, rk := m.rk.toNat, ramt := m.ramt.toNat, tmoLogged := false }

/-- An announcement that takes an entry, before any claim. -/
def State.annHeld (s : State) (m : AnnMsg) (t : Nat) : State :=
  (s.modEl (fun e => { e with landSeen := e.landSeen ++ [(m.src, m.ident)], land := e.land ++ [landEntryOf m t] })).landShow.annAnswer m 0

theorem annTake_new {t : Nat} (h : s.cntHas m.rcore.toNat m.rk.toNat = true) (hs : s.el.landSeen.contains (m.src, m.ident) = false) (hp : s.landPlace = some t) :
    s.annTake m = if (s.landOldest m.src).isNone then (s.annHeld m t).claimWant m.src else s.annHeld m t := by
  refine (if_neg (by rw [h]; decide)).trans ((if_neg (by rw [hs]; decide)).trans ?_)
  unfold State.landPlace at hp
  rw [hp]
  rfl

theorem annTake_busy (h : s.cntHas m.rcore.toNat m.rk.toNat = true) (hs : s.el.landSeen.contains (m.src, m.ident) = false) (hp : s.landPlace = none) :
    s.annTake m = (if s.el.landFull || decide (s.el.land.length < 512) then s else (s.log .el 0x03 0x3030 m.src.toNat m.src.toNat).modEl (fun e => { e with landFull := true })).annAnswer m 2 := by
  refine (if_neg (by rw [h]; decide)).trans ((if_neg (by rw [hs]; decide)).trans ?_)
  unfold State.landPlace at hp
  rw [hp]

theorem landShow_leaves : s.landShow.el.land = s.el.land ∧ s.landShow.el.counters = s.el.counters ∧ s.landShow.el.base.events = s.el.base.events
    ∧ s.landShow.get .el Reg.SYNC_LANDQ_LEVEL = s.el.land.length % 2 ^ 10 := by
  refine ⟨rfl, rfl, rfl, ?_⟩
  exact (get_put_other _ .el _ _ _ (by decide) (by decide) (by decide) (by decide)).trans (get_put_same s .el Reg.SYNC_LANDQ_LEVEL _ (by decide) (by decide))

theorem annHeld_leaves (t : Nat) (hn : s.el.land.length < 512) : let u := s.annHeld m t
    u.el.land = s.el.land ++ [landEntryOf m t] ∧ u.get .el Reg.SYNC_LANDQ_LEVEL = s.el.land.length + 1 ∧ u.el.counters = s.el.counters ∧ Logged .el s u [] := by
  let a := s.modEl (fun e => { e with landSeen := e.landSeen ++ [(m.src, m.ident)], land := e.land ++ [landEntryOf m t] })
  obtain ⟨hl, hc, he, hg⟩ := landShow_leaves a
  have hcore : (s.annHeld m t).core = a.landShow.core := core_annAnswer m _ 0
  refine ⟨(congrArg (fun u : State => u.el.land) hcore :).trans hl, ?_, (congrArg (fun u : State => u.el.counters) hcore :).trans hc, logged_nil ((events_annAnswer m _ 0 .el).trans he)⟩
  have hr := reg_of_core hcore .el Reg.SYNC_LANDQ_LEVEL.off
  have hlen : a.el.land.length = s.el.land.length + 1 := List.length_append
  unfold State.get at hg ⊢
  rw [hr, hg, hlen]
  exact Nat.mod_eq_of_lt (by omega)

theorem annMessage_new {t : Nat} (h : s.cntHas m.rcore.toNat m.rk.toNat = true) (hs : s.el.landSeen.contains (m.src, m.ident) = false) (hn : s.el.land.length < 512)
    (hq : s.queueOn .barrier = true) (ht : s.landTag = some t) : Ends (.annMessage m) s (fun u => u.el.land = s.el.land ++ [landEntryOf m t]
      ∧ u.get .el Reg.SYNC_LANDQ_LEVEL = s.el.land.length + 1 ∧ u.el.counters = s.el.counters ∧ Logged .el s u []) := by
  refine ⟨_, congrArg Host.Outcome.next (annTake_new m s h hs ((if_pos (by simp [hn, hq])).trans ht)), ?_⟩
  obtain ⟨hl, hg, hc, he⟩ := annHeld_leaves m s t hn
  have hk : ClaimsOnly (s.annHeld m t) (if (s.landOldest m.src).isNone then (s.annHeld m t).claimWant m.src else s.annHeld m t) := .ite (.claimWant ..) (.refl _)
  exact ⟨hk.land.trans hl, (hk.get ..).trans hg, hk.counters.trans hc, he.congr hk.events⟩

theorem annMessage_full (h : s.cntHas m.rcore.toNat m.rk.toNat = true) (hs : s.el.landSeen.contains (m.src, m.ident) = false) (hn : 512 ≤ s.el.land.length) :
    (s.el.landFull = true → exec (.annMessage m) s = .next (s.annAnswer m 2))
      ∧ (s.el.landFull = false → Ends (.annMessage m) s (fun u => u.el.landFull = true ∧ u.el.land = s.el.land ∧ Logged .el s u [(0x03, 0x3030, m.src.toNat, m.src.toNat)])) := by
  have hb := annTake_busy m s h hs (if_neg (by simp [Nat.not_lt.mpr hn]))
  refine ⟨fun hf => congrArg Host.Outcome.next (hb.trans (congrArg (fun t => State.annAnswer t m 2) (if_pos (by rw [hf]; rfl)))), fun hf => ?_⟩
  refine ⟨_, congrArg Host.Outcome.next (hb.trans (congrArg (fun t => State.annAnswer t m 2) (if_neg (by simp [hf, Nat.not_lt.mpr hn])))), ?_⟩
  let a := s.log .el 0x03 0x3030 m.src.toNat m.src.toNat
  have hcore := core_annAnswer m (a.modEl (fun e => { e with landFull := true })) 2
  have ha : a.core = s.core := core_log ..
  refine ⟨(congrArg (fun u : State => u.el.landFull) hcore :), (congrArg (fun u : State => u.el.land) hcore :).trans (congrArg (fun u : State => u.el.land) ha :), ?_⟩
  exact (logged_log 0x03 0x3030 m.src.toNat m.src.toNat rfl).congr (events_annAnswer m _ 2 .el)

theorem annMessage_off (h : s.cntHas m.rcore.toNat m.rk.toNat = true) (hs : s.el.landSeen.contains (m.src, m.ident) = false) (hn : s.el.land.length < 512)
    (ho : s.queueOn .barrier = false ∨ s.landTag = none) : exec (.annMessage m) s = .next (s.annAnswer m 2) := by
  have hp : s.landPlace = none := by
    unfold State.landPlace
    rcases ho with ho | ho
    · exact if_neg (by simp [ho])
    · rw [ho]
      exact ite_self _
  exact congrArg Host.Outcome.next ((annTake_busy m s h hs hp).trans (congrArg (fun t => State.annAnswer t m 2) (if_pos (by simp [hn]))))

theorem goes_annMessage_refused (h : s.cntHas m.rcore.toNat m.rk.toNat = false) :
    Goes (.annMessage m) s s .el [(0x03, 0x3033, cntObj (cntKey m.rcore.toNat m.rk.toNat), m.src.toNat)] :=
  goes_of _ (congrArg Host.Outcome.next (annTake_refused m s h)) ((core_annAnswer m _ 1).trans (core_log ..)) ((logged_log _ _ _ _ rfl).congr (events_annAnswer m _ 1 .el))
end

/-! ### The sender, timeouts and answers -/

section
variable (s : State) (tag : Fin 512) (l : LandEntry)

/-- The sender's announcement, once more. -/
def State.annAgain (s : State) (o : QOp) : State :=
  match o.kind with
  | .ann d m => if o.started then s.sendUp .el (.ann d m) else s
  | _ => s

/-- The sender gives its announcement up. -/
def State.annGivenUp (s : State) (o : QOp) : State :=
  match o.kind with
  | .ann _ _ => if o.started then s.endFail .el o stTimeout else s
  | _ => s

theorem annResend_at {id : Nat} {o : QOp} (h : s.findOp .el id = some o) : exec (.annResend id) s = .next (s.annAgain o) := by
  change execAnnResend id s = _
  unfold execAnnResend
  rw [h]
  rfl

theorem annTimeout_at {id : Nat} {o : QOp} (h : s.findOp .el id = some o) : exec (.annTimeout id) s = .next (s.annGivenUp o) := by
  change execAnnTimeout id s = _
  unfold execAnnTimeout
  rw [h]
  rfl

theorem ann_idle {id : Nat} {o : QOp} (h : s.findOp .el id = some o) (hi : o.started = false ∨ (∀ d x, o.kind ≠ .ann d x)) :
    exec (.annResend id) s = .next s ∧ exec (.annTimeout id) s = .next s := by
  rw [annResend_at s h, annTimeout_at s h]
  unfold State.annAgain State.annGivenUp
  constructor
  all_goals
    refine congrArg Host.Outcome.next ?_
    split
    · next d x hk =>
      rcases hi with hi | hi
      · exact if_neg (by rw [hi]; decide)
      · exact absurd hk (hi d x)
    · rfl

theorem ann_sent {id : Nat} {o : QOp} (h : s.findOp .el id = some o) (d : BitVec 20) (x : AnnMsg) (hs : o.started = true) (hk : o.kind = .ann d x) :
    exec (.annResend id) s = .next (s.sendUp .el (.ann d x)) ∧ exec (.annTimeout id) s = .next (s.endFail .el o stTimeout) := by
  rw [annResend_at s h, annTimeout_at s h]
  unfold State.annAgain State.annGivenUp
  rw [hk, hs]
  exact ⟨rfl, rfl⟩

/-- The entries of a tag, each marked as logged (R224). -/
def LandEntry.noted (t : Nat) (x : LandEntry) : LandEntry := if x.tag == t then { x with tmoLogged := true } else x

theorem landTimeout_of {l : LandEntry} (h : s.el.land.find? (fun x => x.tag == tag.val) = some l) :
    exec (.landTimeout tag) s = .next (if l.tmoLogged then s else (s.log .el 0x03 0x3031 l.src.toNat (l.src.toNat % 2 ^ 16 * 2 ^ 48 + l.bytes % 2 ^ 48)).modEl (fun e => { e with land := e.land.map (LandEntry.noted tag.val) })) := by
  change execLandTimeout tag s = _
  unfold execLandTimeout
  rw [h]
  rfl

theorem landTimeout_first (h : s.el.land.find? (fun x => x.tag == tag.val) = some l) (hl : l.tmoLogged = false) : Ends (.landTimeout tag) s (fun u => u.el.land.length = s.el.land.length
    ∧ (∀ y ∈ u.el.land, y.tag = tag.val → y.tmoLogged = true) ∧ RegsBut [] s u ∧ Logged .el s u [(0x03, 0x3031, l.src.toNat, l.src.toNat % 2 ^ 16 * 2 ^ 48 + l.bytes % 2 ^ 48)]) := by
  refine ⟨_, (landTimeout_of s tag h).trans (congrArg Host.Outcome.next (if_neg (by rw [hl]; decide))), ?_⟩
  let a := s.log .el 0x03 0x3031 l.src.toNat (l.src.toNat % 2 ^ 16 * 2 ^ 48 + l.bytes % 2 ^ 48)
  have ha : a.core = s.core := core_log ..
  have hland : a.el.land = s.el.land := (congrArg (fun u : State => u.el.land) ha :)
  refine ⟨?_, fun y hy ht => ?_, fun q o _ => (by cases q <;> rfl : _ = a.reg q o).trans (reg_of_core ha q o), (logged_log 0x03 0x3031 _ _ rfl).congr rfl⟩
  · show (a.el.land.map (LandEntry.noted tag.val)).length = _
    rw [List.length_map, hland]
  · obtain ⟨z, _, rfl⟩ := List.mem_map.mp (show y ∈ a.el.land.map (LandEntry.noted tag.val) from hy)
    unfold LandEntry.noted at ht ⊢
    split
    · rfl
    · next hz =>
      rw [if_neg hz] at ht
      exact absurd (by simpa using ht) hz

theorem idcAnswer_unclaimed {grant : Bool} (h : s.el.ports.claims.any (fun c => c.2.2 == tag.val) = false) : exec (.idcAnswer tag grant) s = .next s :=
  congrArg Host.Outcome.next (if_neg (by rw [h]; decide))

/-- The claim of a tag is over. -/
def State.claimOver (s : State) (tag : Nat) : State := s.modEl (fun e => { e with ports := { e.ports with claims := e.ports.claims.filter (fun c => c.2.2 != tag) } })

theorem idcAnswer_claimed {grant : Bool} (h : s.el.ports.claims.any (fun c => c.2.2 == tag.val) = true) :
    exec (.idcAnswer tag grant) s = .next (match (if grant then s.el.land.find? (fun l => l.tag == tag.val) else none) with | some l => (s.claimOver tag.val).landRelease l | none => (s.claimOver tag.val).claimPump) :=
  congrArg Host.Outcome.next (if_pos h)

theorem idcAnswer_kept {grant : Bool} (h : s.el.ports.claims.any (fun c => c.2.2 == tag.val) = true) (hr : s.el.ports.reclaim = []) (hg : grant = false ∨ s.el.land.find? (fun x => x.tag == tag.val) = none) :
    exec (.idcAnswer tag grant) s = .next (s.claimOver tag.val) := by
  have hnone : (if grant then s.el.land.find? (fun l => l.tag == tag.val) else none) = none := by
    rcases hg with hg | hg
    · rw [hg]
      rfl
    · rw [hg]
      exact ite_self _
  rw [idcAnswer_claimed s tag h, hnone]
  exact congrArg Host.Outcome.next (claimPump_of_idle hr)

/-- A grant (R220): the entry goes, and its counter takes the amount. -/
theorem landRelease_leaves (hp : (s.seq .el).pairs = []) (hc : s.cntAbs (cntKey l.rcore l.rk) ≤ cntTop) : (s.landRelease l).el.land = s.el.land.filter (fun y => y.tag != l.tag)
    ∧ ∀ j, (s.landRelease l).cntAbs j = if j = cntKey l.rcore l.rk then min (s.cntAbs j + (l.ramt + 1)) cntTop else s.cntAbs j := by
  let a := (s.modEl (fun e => { e with land := e.land.filter (fun x => x.tag != l.tag), landFull := false })).landShow
  let b := a.incAll [(cntKey l.rcore l.rk, l.ramt + 1)]
  have hpa : (a.seq .el).pairs = [] := hp
  have hk : CountKept a b := incAll_kept hpa _
  have hcl : ClaimsOnly b (s.landRelease l) := .ite (.claimWant ..) (.claimPump _)
  refine ⟨hcl.land.trans hk.land, fun j => ?_⟩
  have hj : (s.landRelease l).cntAbs j = b.cntAbs j := congrArg (fun x => tget 0 x j) hcl.counters
  rw [hj, cntAbs_incAll_one hpa _ _ hc j]
  change (if j = _ then min (s.cntAbs _ + _) cntTop else s.cntAbs j) = _
  split
  · next h => rw [h]
  · rfl

theorem idcAnswer_grants (h : s.el.ports.claims.any (fun c => c.2.2 == tag.val) = true) (hl : s.el.land.find? (fun x => x.tag == tag.val) = some l) (hp : (s.seq .el).pairs = [])
    (hc : s.cntAbs (cntKey l.rcore l.rk) ≤ cntTop) : Ends (.idcAnswer tag true) s (fun u => u.el.land = s.el.land.filter (fun y => y.tag != l.tag)
      ∧ ∀ j, u.cntAbs j = if j = cntKey l.rcore l.rk then min (s.cntAbs j + (l.ramt + 1)) cntTop else s.cntAbs j) := by
  refine ⟨(s.claimOver tag.val).landRelease l, ?_, landRelease_leaves (s.claimOver tag.val) l hp hc⟩
  rw [idcAnswer_claimed s tag h, if_pos rfl, hl]

theorem idcClearAck_of_set (h : s.el.ports.idcClear = true) : Ends .idcClearAck s (fun u => u.el.ports.idcClear = false ∧ u.el.land = s.el.land ∧ u.el.counters = s.el.counters ∧ RegsBut [] s u) := by
  let a := s.modEl (fun e => { e with ports := { e.ports with idcClear := false } })
  have hk := ClaimsOnly.claimWants a (s.el.land.map LandEntry.src).eraseDups
  refine ⟨_, if_pos h, hk.idcClear, hk.land, hk.counters, fun q o ho => (hk.regs q o ho).trans ?_⟩
  cases q <;> rfl

theorem idcChangeNotice_of {src : BitVec 20} {l : LandEntry} (hl : s.landOldest src = some l) : exec (.idcChangeNotice src) s = .next (s.claimWant src) :=
  congrArg Host.Outcome.next (if_pos (by rw [hl]; rfl))

theorem idcChangeNotice_claims {src : BitVec 20} (hl : s.landOldest src = some l) (hr : s.el.ports.reclaim = []) :
    (s.el.ports.idcClear = false → s.el.ports.claims.length < 16 → s.el.ports.claims.any (fun c => c.1 == src) = false → l.step.toNat ≤ s.stepCur →
        Ends (.idcChangeNotice src) s (fun u => u.el.ports.claims = s.el.ports.claims ++ [(src, l.bytes, l.tag)] ∧ u.el.ports.reclaim = [] ∧ u.el.land = s.el.land ∧ RegsBut [] s u))
      ∧ (s.el.ports.idcClear = true ∨ 16 ≤ s.el.ports.claims.length ∨ s.el.ports.claims.any (fun c => c.1 == src) = true ∨ s.stepCur < l.step.toNat →
        Ends (.idcChangeNotice src) s (fun u => u.el.ports.claims = s.el.ports.claims ∧ u.el.ports.reclaim = [src] ∧ u.el.land = s.el.land ∧ RegsBut [] s u)) := by
  have hw := claimWant_of_idle hl hr
  have hregs : ∀ c r, RegsBut [] s (s.withClaims c r) := fun c r q o _ => by cases q <;> rfl
  refine ⟨fun h1 h2 h3 h4 => ?_, fun h => ?_⟩
  · refine ⟨_, (idcChangeNotice_of s hl).trans (congrArg Host.Outcome.next (hw.trans (if_pos (mayClaim_iff.mpr ⟨h1, h2, h3, h4⟩)))), rfl, rfl, rfl, hregs _ _⟩
  · have hno : ¬ s.mayClaim src l = true := by
      rw [mayClaim_iff]
      rintro ⟨h1, h2, h3, h4⟩
      rcases h with h | h | h | h
      · rw [h1] at h
        exact absurd h (by decide)
      · omega
      · rw [h3] at h
        exact absurd h (by decide)
      · omega
    exact ⟨_, (idcChangeNotice_of s hl).trans (congrArg Host.Outcome.next (hw.trans (if_neg hno))), rfl, rfl, rfl, hregs _ _⟩
end

/-- Settles O43: each message of the landing queue by the branch it takes, claims apart from the rest. -/
theorem landingQueue : Obligations.LandingQueue := by
  unfold Obligations.LandingQueue
  intro m id tag src grant o l s
  refine ⟨goes_annMessage_refused m s, fun h hs => congrArg Host.Outcome.next (annTake_again m s h hs), fun h hs hn hq t ht => annMessage_new m s h hs hn hq ht, annMessage_off m s, annMessage_full m s,
    fun h => ⟨?_, ?_⟩, fun h => ⟨ann_idle s h, ann_sent s h⟩, fun h => ?_, fun h => ⟨fun hl => ?_, landTimeout_first s tag l h⟩, fun h => ?_, idcChangeNotice_claims s l,
    idcAnswer_unclaimed s tag, idcAnswer_kept s tag, idcAnswer_grants s tag l, fun h => ?_, idcClearAck_of_set s⟩
  · change execAnnResend id s = _
    unfold execAnnResend
    rw [h]
  · change execAnnTimeout id s = _
    unfold execAnnTimeout
    rw [h]
  · change execLandTimeout tag s = _
    unfold execLandTimeout
    rw [h]
  · exact (landTimeout_of s tag h).trans (congrArg Host.Outcome.next (if_pos hl))
  · exact congrArg Host.Outcome.next (if_neg (by rw [h]; decide))
  · exact if_neg (by rw [h]; decide)

end Sys2Proof.Machine

/-! SUPPORT. Barriers at a die (R225 to R231, R499, R534, R535). -/

namespace Sys2Proof.Machine

set_option Elab.async false

/-! ### Registers a chain of writes leaves alone -/

theorem RegsBut.put {ex : List (Part × Nat)} {s t : State} (h : RegsBut ex s t) (p : Part) (f : Fld) (v : Nat) (hm : (p, f.off) ∈ ex) : RegsBut ex s (t.put p f v) :=
  fun q o ho => (regsBut_put t p f v q o (fun e => ho (List.mem_singleton.mp e ▸ hm))).trans (h q o ho)

theorem RegsBut.setReg {ex : List (Part × Nat)} {s t : State} (h : RegsBut ex s t) (p : Part) (o : Nat) (w : Word) (hm : (p, o) ∈ ex) : RegsBut ex s (t.setReg p o w) := fun q i hi => by
  by_cases hq : q = p
  · subst hq
    exact (reg_setReg_other t q o i w (fun e => hi (e ▸ hm))).trans (h q i hi)
  · exact (reg_setReg_part t _ _ _ hq).trans (h q i hi)

theorem RegsBut.core {ex : List (Part × Nat)} {s t u : State} (h : RegsBut ex s t) (hc : u.core = t.core) : RegsBut ex s u := fun q o ho => (reg_of_core hc q o).trans (h q o ho)

theorem RegsBut.get_eq {ex : List (Part × Nat)} {s t : State} (h : RegsBut ex s t) (p : Part) (f : Fld) (hf : (p, f.off) ∉ ex) : t.get p f = s.get p f := by
  unfold State.get
  rw [h p f.off hf]

theorem RegsBut.bit_eq {ex : List (Part × Nat)} {s t : State} (h : RegsBut ex s t) (p : Part) (f : Fld) (hf : (p, f.off) ∉ ex) : t.bit p f = s.bit p f := congrArg (fun n => n != 0) (h.get_eq p f hf)

/-- The registers in which a failed operation of a die is recorded (R143, R268). -/
def failRegs : List (Part × Nat) := [(.el, Reg.SEQ_QSTAT_FLAG.off), (.el, Reg.TAL_LAST_STATUS.off)]

section
variable (s : State)

theorem bars_setReg (p : Part) (off : Nat) (w : Word) : (s.setReg p off w).el.bars = s.el.bars := by
  cases p <;> rfl

theorem talLast_frame (op pc st block : Nat) : RegsBut failRegs s (s.talLast op pc st block) ∧ (s.talLast op pc st block).el.bars = s.el.bars := by
  unfold State.talLast
  by_cases h : op = 0 ∨ st = 0
  · rw [if_pos h]
    exact ⟨fun _ _ _ => rfl, rfl⟩
  · rw [if_neg h]
    exact ⟨RegsBut.setReg (fun _ _ _ => rfl) _ _ _ (by decide), bars_setReg ..⟩

/-- A failure is recorded in those registers and changes no barrier. -/
theorem failed_frame (o : QOp) (st : Nat) : RegsBut failRegs s (s.failed .el o st) ∧ (s.failed .el o st).el.bars = s.el.bars := by
  let b := s.failing .el o st
  have hb : RegsBut failRegs s b ∧ b.el.bars = s.el.bars := by
    have hd : RegsBut failRegs s (s.dropOp .el o.id) := fun q i _ => by cases q <;> rfl
    obtain ⟨hr, hbars⟩ := talLast_frame (s.dropOp .el o.id) (if st = stRefused then 0 else o.kind.redOp) o.pc st 0
    exact ⟨hd.trans hr, hbars⟩
  have hcore : (s.failed .el o st).core = (b.failNoted .el o.queue o.pc st (b.failCount .el)).core := core_logW ..
  refine ⟨?_, (congrArg (fun t : State => t.el.bars) hcore :).trans hb.2⟩
  have h1 := (hb.1.put .el Reg.SEQ_QSTAT_FLAG 1 (by decide)).put .el Reg.SEQ_QSTAT_STATUS st (by decide)
  have h2 := (h1.put .el Reg.SEQ_QSTAT_QUEUE (queueCode o.queue) (by decide)).put .el Reg.SEQ_QSTAT_COUNT (b.failCount .el) (by decide)
  exact (h2.put .el Reg.SEQ_QSTAT_PC o.pc (by decide)).core hcore

/-- At which register a failed operation leaves a die's barrier register alone. -/
theorem bar_not_failReg {b : Nat} (hb : b < 256) : (Part.el, (Reg.BAR_GEN b).off) ∉ failRegs := by
  simp only [failRegs, Reg.BAR_GEN, Reg.SEQ_QSTAT_FLAG, Reg.TAL_LAST_STATUS, List.mem_cons, Prod.mk.injEq, true_and, List.not_mem_nil, or_false, not_or]
  omega

/-! ### The state of a barrier -/

theorem bar_setBar (b : Nat) (x : Bar) : (s.setBar b x).bar b = x := tget_tput_same Bar.zero s.el.bars b x

/-- A generation of a die's barrier that has closed (R227): GEN has advanced, and nothing of it is left. -/
structure BarClosed (s u : State) (b : Nat) : Prop where
  gen   : u.get .el (Reg.BAR_GEN b) = (s.get .el (Reg.BAR_GEN b) + 1) % 65536
  arr   : u.bit .el (Reg.BAR_SEQ_ARR b) = false
  scope : u.get .el (Reg.BAR_SCOPE b) = 0
  empty : u.bar b = Bar.zero

/-- What a barrier register's close keeps beside it. -/
theorem barNext_keeps (b : Nat) : (∀ p, ((s.barNext b).base p).qops = (s.base p).qops) ∧ (∀ p, ((s.barNext b).base p).events = (s.base p).events) ∧ (∀ p, (s.barNext b).seq p = s.seq p)
    ∧ (s.barNext b).el.counters = s.el.counters ∧ RegsBut [(.el, (Reg.BAR_GEN b).off)] s (s.barNext b) := by
  refine ⟨fun p => by cases p <;> rfl, fun p => by cases p <;> rfl, fun p => by cases p <;> rfl, rfl, ?_⟩
  have h0 : RegsBut [(.el, (Reg.BAR_GEN b).off)] s s := fun _ _ _ => rfl
  have hm : (Part.el, (Reg.BAR_GEN b).off) ∈ [(Part.el, (Reg.BAR_GEN b).off)] := List.mem_singleton.mpr rfl
  have h3 := ((h0.put .el (Reg.BAR_GEN b) (s.get .el (Reg.BAR_GEN b) + 1) hm).put .el (Reg.BAR_SEQ_ARR b) 0 hm).put .el (Reg.BAR_SCOPE b) 0 hm
  exact fun q o ho => (by cases q <;> rfl : _ = _).trans (h3 q o ho)

theorem barNext_closed (b : Nat) : BarClosed s (s.barNext b) b := by
  let a := s.put .el (Reg.BAR_GEN b) (s.get .el (Reg.BAR_GEN b) + 1)
  let c := a.put .el (Reg.BAR_SEQ_ARR b) 0
  have hd : ∀ f g : Fld, f.lo ≤ f.hi ∧ f.hi < 64 → g.lo ≤ g.hi ∧ g.hi < 64 → g.off ≠ f.off ∨ g.hi < f.lo ∨ f.hi < g.lo → ∀ (t : State) (v : Nat), (t.put .el f v).get .el g = t.get .el g :=
    fun f g hf hg h t v => get_put_other t .el f g v hf.2 hf.1 hg.2 h
  have hscope : ∀ g : Fld, (s.barNext b).get .el g = (c.put .el (Reg.BAR_SCOPE b) 0).get .el g := fun g => rfl
  refine ⟨?_, ?_, ?_, bar_setBar _ b Bar.zero⟩
  · rw [hscope, hd _ (Reg.BAR_GEN b) ⟨of_decide_eq_true rfl, of_decide_eq_true rfl⟩ ⟨of_decide_eq_true rfl, of_decide_eq_true rfl⟩ (.inr (.inr (of_decide_eq_true rfl))), hd _ (Reg.BAR_GEN b) ⟨of_decide_eq_true rfl, of_decide_eq_true rfl⟩ ⟨of_decide_eq_true rfl, of_decide_eq_true rfl⟩ (.inr (.inr (of_decide_eq_true rfl)))]
    exact get_put_same s .el (Reg.BAR_GEN b) _ (of_decide_eq_true rfl) (of_decide_eq_true rfl)
  · unfold State.bit
    rw [hscope, hd _ (Reg.BAR_SEQ_ARR b) ⟨of_decide_eq_true rfl, of_decide_eq_true rfl⟩ ⟨of_decide_eq_true rfl, of_decide_eq_true rfl⟩ (.inr (.inl (of_decide_eq_true rfl)))]
    exact congrArg (fun n => n != 0) ((get_put_same a .el (Reg.BAR_SEQ_ARR b) 0 (of_decide_eq_true rfl) (of_decide_eq_true rfl)).trans rfl)
  · rw [hscope]
    exact (get_put_same c .el (Reg.BAR_SCOPE b) 0 (of_decide_eq_true rfl) (of_decide_eq_true rfl)).trans rfl

theorem BarClosed.kept {s t u : State} {b : Nat} {ex : List (Part × Nat)} (h : BarClosed s t b) (hr : RegsBut ex t u) (hx : (Part.el, (Reg.BAR_GEN b).off) ∉ ex) (hb : u.el.bars = t.el.bars) : BarClosed s u b :=
  ⟨(hr.get_eq .el (Reg.BAR_GEN b) hx).trans h.gen, (hr.bit_eq .el (Reg.BAR_SEQ_ARR b) hx).trans h.arr, (hr.get_eq .el (Reg.BAR_SCOPE b) hx).trans h.scope,
    (congrArg (fun l => tget Bar.zero l b) hb).trans h.empty⟩

theorem BarClosed.from {s s' t : State} {b : Nat} (h : BarClosed s' t b) (hr : s'.get .el (Reg.BAR_GEN b) = s.get .el (Reg.BAR_GEN b)) : BarClosed s t b :=
  ⟨hr ▸ h.gen, h.arr, h.scope, h.empty⟩

/-! ### Releases and refusals (R227, R231, R534) -/

/-- What the BAR that waits adds to a counter as it completes. -/
def opAmount (o : Option QOp) (j : Nat) : Nat :=
  match o with
  | some q => if q.key = j then q.amt else 0
  | none => 0

theorem incSum_ones (l : List (Nat × Nat)) (j : Nat) : incSum (l.map (fun e => (cntKey e.1 e.2, 1))) j = l.countP (fun e => cntKey e.1 e.2 == j) := by
  induction l with
  | nil => rfl
  | cons e r ih =>
    rw [List.map_cons, incSum, ih, List.countP_cons, Nat.add_comm]
    simp only [beq_iff_eq]

/-- A completion in the cycle of other increments, while no drain waits for it. -/
theorem endWith_leaves (o : Option QOp) (incs : List (Nat × Nat)) (hp : (s.seq .el).pairs = []) (h4 : s.seqState .el ≠ 4) (hs : ∀ j, s.cntAbs j ≤ cntTop) : let u := s.endWith o incs
    RegsBut [(.el, Reg.SYNC_STAT_SAT.off)] s u ∧ u.el.bars = s.el.bars ∧ (∀ j, u.cntAbs j = min (s.cntAbs j + (incSum incs j + opAmount o j)) cntTop) ∧ (∀ q, o = some q → u.findOp .el q.id = none) := by
  cases o with
  | none =>
    have hk := incAll_kept hp incs
    exact ⟨hk.regs, hk.bars, fun j => cntAbs_incAll hp hs incs j, fun q h => by cases h⟩
  | some o =>
    have hpd : ((s.dropOp .el o.id).seq .el).pairs = [] := hp
    have hk := incAll_kept hpd ((o.key, o.amt) :: incs)
    have hd : RegsBut [(.el, Reg.SYNC_STAT_SAT.off)] s ((s.dropOp .el o.id).incAll ((o.key, o.amt) :: incs)) := fun q i hi => (hk.regs q i hi).trans (by cases q <;> rfl)
    have hu : s.endWith (some o) incs = (s.dropOp .el o.id).incAll ((o.key, o.amt) :: incs) :=
      drainCheck_of_ne (fun e => h4 ((seqState_congr (s := s) (hd .el _ (by decide))).symm.trans e))
    rw [hu]
    refine ⟨hd, hk.bars, fun j => ?_, fun q h => ?_⟩
    · rw [cntAbs_incAll hpd hs]
      show min (s.cntAbs j + ((if o.key = j then o.amt else 0) + incSum incs j)) cntTop = _
      rw [Nat.add_comm (if o.key = j then o.amt else 0)]
      rfl
    · cases h
      exact (findOp_congr (hk.qops .el) _).trans (findOp_dropOp ..)

/-- A release: the generation closes, and all its counters advance in one cycle (R227). -/
theorem barRelease_leaves (b : Nat) (hb : b < 256) (hp : (s.seq .el).pairs = []) (h4 : s.seqState .el ≠ 4) (hs : ∀ j, s.cntAbs j ≤ cntTop) : let u := s.barRelease b
    BarClosed s u b ∧ (∀ j, u.cntAbs j = min (s.cntAbs j + ((s.bar b).cores.countP (fun e => cntKey e.1 e.2 == j) + opAmount (s.barOp b) j)) cntTop) ∧ (∀ q, s.barOp b = some q → u.findOp .el q.id = none) := by
  let a := if (s.bar b).timedOut then s.log .el 0x03 0x3041 b (s.get .el (Reg.BAR_GEN b)) else s
  have hcore : a.core = s.core := by
    by_cases h : (s.bar b).timedOut = true
    · rw [show a = s.log .el 0x03 0x3041 b (s.get .el (Reg.BAR_GEN b)) from if_pos h, core_log]
    · rw [show a = s from if_neg h]
  have hk : CountKept s a := .of_core hcore
  have hcnt : (a.barNext b).el.counters = s.el.counters := (congrArg (fun t : State => t.el.counters) hcore :)
  obtain ⟨_, _, hseq, _, hregs⟩ := barNext_keeps a b
  have habs : ∀ j, (a.barNext b).cntAbs j = s.cntAbs j := fun j => congrArg (fun t => tget 0 t j) hcnt
  have hst : (a.barNext b).seqState .el = s.seqState .el := by
    refine (seqState_congr (hregs .el _ ?_)).trans (seqState_congr (reg_of_core hcore .el _))
    simp only [Reg.SEQ_STAT_STATE, Reg.BAR_GEN, List.mem_singleton, Prod.mk.injEq, true_and]
    omega
  obtain ⟨hr, hbars, hadd, hgone⟩ := endWith_leaves (a.barNext b) (s.barOp b) ((s.bar b).cores.map (fun e => (cntKey e.1 e.2, 1))) (by rw [hseq, hk.seq]; exact hp) (by rw [hst]; exact h4)
    (fun j => by rw [habs]; exact hs j)
  have hclosed : BarClosed s (a.barNext b) b := (barNext_closed a b).from (congrArg (fun w => fget w _ _) (reg_of_core hcore .el _))
  refine ⟨hclosed.kept hr ?_ hbars, fun j => ?_, hgone⟩
  · simp only [Reg.SYNC_STAT_SAT, Reg.BAR_GEN, List.mem_singleton, Prod.mk.injEq, true_and]
    omega
  · exact (hadd j).trans (by rw [habs, incSum_ones])

/-- A refusal: the generation closes, and no counter advances (R534). -/
theorem barRefuse_leaves (b : Nat) (hb : b < 256) (h4 : s.seqState .el ≠ 4) : let u := s.barRefuse b
    BarClosed s u b ∧ u.el.counters = s.el.counters ∧ ∃ es, Logged .el s u ((0x03, 0x3043, b, s.get .el (Reg.BAR_GEN b)) :: es) := by
  let a := s.log .el 0x03 0x3043 b (s.get .el (Reg.BAR_GEN b))
  have hcore : a.core = s.core := core_log ..
  obtain ⟨_, hev, _, hc, hregs⟩ := barNext_keeps a b
  have hcnt : (a.barNext b).el.counters = s.el.counters := hc.trans (congrArg (fun t : State => t.el.counters) hcore :)
  have hclosed : BarClosed s (a.barNext b) b := (barNext_closed a b).from (congrArg (fun w => fget w _ _) (reg_of_core hcore .el _))
  have hlog : Logged .el s (a.barNext b) [(0x03, 0x3043, b, s.get .el (Reg.BAR_GEN b))] := (logged_log 0x03 0x3043 b _ rfl).congr (hev .el)
  have hst : (a.barNext b).seqState .el = s.seqState .el := by
    refine (seqState_congr (hregs .el _ ?_)).trans (seqState_congr (reg_of_core hcore .el _))
    simp only [Reg.SEQ_STAT_STATE, Reg.BAR_GEN, List.mem_singleton, Prod.mk.injEq, true_and]
    omega
  cases ho : s.barOp b with
  | none =>
    have hu : s.barRefuse b = a.barNext b := by
      unfold State.barRefuse
      rw [ho]
    rw [hu]
    exact ⟨hclosed, hcnt, [], hlog⟩
  | some o =>
    have hu : s.barRefuse b = (a.barNext b).failed .el o stRefused := by
      unfold State.barRefuse
      rw [ho]
      exact endFail_of_ne .el o (s := a.barNext b) stRefused (by rw [hst]; exact h4)
    rw [hu]
    obtain ⟨hr, hbars⟩ := failed_frame (a.barNext b) o stRefused
    obtain ⟨_, _, _, hcf, _, hlf⟩ := failed_leaves .el (s := a.barNext b) o stRefused (by decide)
    exact ⟨hclosed.kept hr (bar_not_failReg hb) hbars, hcf.trans hcnt, _, hlog.trans hlf⟩
end

/-! ### The obligation -/

section
variable (c core bid : BitVec 8) (eng : Fin 8) (k : BitVec 6) (gen : BitVec 16) (pos : Option (Fin 128)) (o : QOp) (s : State)

theorem awaits_el_iff : s.awaits .el bid.toNat gen = true ↔ (s.bar bid.toNat).sentUp = true ∧ s.get .el (Reg.BAR_GEN bid.toNat) % 65536 = gen.toNat := by
  show ((s.bar bid.toNat).sentUp && s.get .el (Reg.BAR_GEN bid.toNat) % 2 ^ 16 == gen.toNat) = true ↔ _
  rw [Bool.and_eq_true, beq_iff_eq]
  exact Iff.rfl

theorem csArrive_refused (h : s.csHere c.toNat eng = false ∨ (core = c ∧ s.cntHas core.toNat k.toNat = false)) : exec (.csArrive c eng core k bid) s = .next (s.csAnswer false) := by
  refine congrArg Host.Outcome.next ?_
  rcases h with h | ⟨rfl, h⟩
  · exact if_pos (by rw [h]; rfl)
  · exact (ite_congr rfl (fun _ => rfl) (fun _ => (if_neg (by simp)).trans (if_pos (by rw [h]; rfl)))).trans (ite_self _)

theorem csArrive_crossCore (hh : s.csHere c.toNat eng = true) (hc : core ≠ c) : exec (.csArrive c eng core k bid) s = .next (s.crossCore c.toNat core.toNat k.toNat) :=
  congrArg Host.Outcome.next ((if_neg (by rw [hh]; decide)).trans (if_pos (by simpa using hc)))

/-- An arrival of the requesting core on one of its counters. -/
theorem csArrive_arrives (hh : s.csHere c.toNat eng = true) (hc : core = c) (hk : s.cntHas core.toNat k.toNat = true) :
    exec (.csArrive c eng core k bid) s = .next (if (s.bar bid.toNat).cores.any (fun x => x.1 == c.toNat) || !s.barCore bid.toNat c.toNat
      then (s.log .el 0x03 0x3043 bid.toNat (s.get .el (Reg.BAR_GEN bid.toNat))).csAnswer false
      else (s.setBar bid.toNat { s.bar bid.toNat with cores := (s.bar bid.toNat).cores ++ [(c.toNat, k.toNat)] }).csAnswer true) :=
  congrArg Host.Outcome.next ((if_neg (by rw [hh]; decide)).trans ((if_neg (by simp [hc])).trans (if_neg (by rw [hk]; decide))))

theorem core_csAnswer_congr {s t : State} (h : s.core = t.core) (ok : Bool) : (s.csAnswer ok).core = (t.csAnswer ok).core := by
  show (s.core.csAnswer ok) = (t.core.csAnswer ok)
  rw [h]

theorem barTimeout_some (ho : s.barOp bid.toNat = some o) (h4 : s.seqState .el ≠ 4) : Ends (.barTimeout bid) s (fun u => u.bar bid.toNat = { s.bar bid.toNat with qid := none, timedOut := true } ∧ u.findOp .el o.id = none
    ∧ u.reg .el (Reg.BAR_GEN bid.toNat).off = s.reg .el (Reg.BAR_GEN bid.toNat).off ∧ u.el.counters = s.el.counters
    ∧ Logged .el s u [(0x03, 0x3040, bid.toNat, s.get .el (Reg.BAR_GEN bid.toNat)), (0x01, 0x8083, o.pc, 6)]) := by
  let l := s.log .el 0x03 0x3040 bid.toNat (s.get .el (Reg.BAR_GEN bid.toNat))
  let a := l.setBar bid.toNat { s.bar bid.toNat with qid := none, timedOut := true }
  have hcore : l.core = s.core := core_log ..
  have hregs : ∀ p off, a.reg p off = s.reg p off := fun p off => (by cases p <;> rfl : a.reg p off = l.reg p off).trans (reg_of_core hcore p off)
  have hexec : exec (.barTimeout bid) s = .next (a.failed .el o stTimeout) := by
    change execBarTimeout bid s = _
    unfold execBarTimeout
    dsimp only
    rw [ho]
    refine congrArg Host.Outcome.next (Eq.trans ?_ (endFail_of_ne .el o (s := a) stTimeout (fun e => h4 ((seqState_congr (hregs .el _)).symm.trans e))))
    rfl
  obtain ⟨hr, hbars⟩ := failed_frame a o stTimeout
  obtain ⟨hfind, _, _, hc, _, hl⟩ := failed_leaves .el (s := a) o stTimeout (by decide)
  refine ⟨_, hexec, ?_, hfind, (hr .el _ (bar_not_failReg bid.isLt)).trans (hregs .el _), hc.trans (congrArg (fun t : State => t.el.counters) hcore :), ?_⟩
  · exact (congrArg (fun x => tget Bar.zero x bid.toNat) hbars).trans (bar_setBar l bid.toNat _)
  · exact ((logged_log 0x03 0x3040 bid.toNat _ rfl).congr (u := a) rfl).trans hl
end

/-- Settles O44: arrivals by their answers, a release and a refusal by what closing a generation leaves. -/
theorem dieBarriers : Obligations.DieBarriers := by
  unfold Obligations.DieBarriers
  intro c core bid eng k gen pos o s
  refine ⟨csArrive_refused c core bid eng k s, fun hh hc => ?_, fun hh hc hk => ⟨fun h => ?_, fun ha hg => ?_⟩, fun h => ?_, fun hb hs => ⟨fun h0 => ?_, fun h0 hp h4 hc => ?_⟩, fun ha hp h4 hc => ?_,
    fun ha => ⟨?_, ?_⟩, fun ha h4 => ?_, fun ho => ?_, barTimeout_some bid o s⟩
  · obtain ⟨hok, _, _, hbars, hl⟩ := crossCore_leaves c core k s
    exact ⟨_, csArrive_crossCore c core bid eng k s hh hc, hok, hbars, hl⟩
  · refine goes_of _ ((csArrive_arrives c core bid eng k s hh hc hk).trans (congrArg Host.Outcome.next (if_pos ?_))) (core_csAnswer_congr (core_log ..) false) ((logged_log 0x03 0x3043 bid.toNat _ rfl).congr rfl)
    rcases h with h | h <;> simp [h]
  · exact (csArrive_arrives c core bid eng k s hh hc hk).trans (congrArg Host.Outcome.next (if_neg (by simp [ha, hg])))
  · refine congrArg Host.Outcome.next (if_neg ?_)
    rcases h with h | h <;> simp [h]
  · exact congrArg Host.Outcome.next ((if_pos (by simp [hb, hs])).trans (if_neg h0))
  · obtain ⟨h1, h2, h3⟩ := barRelease_leaves s bid.toNat bid.isLt hp h4 hc
    exact ⟨_, congrArg Host.Outcome.next ((if_pos (by simp [hb, hs])).trans (if_pos h0)), ⟨h1.gen, h1.arr, h1.scope, h1.empty⟩, h2, h3⟩
  · obtain ⟨h1, h2, h3⟩ := barRelease_leaves s bid.toNat bid.isLt hp h4 hc
    exact ⟨_, congrArg Host.Outcome.next (if_pos ((awaits_el_iff bid gen s).mpr ha)), ⟨h1.gen, h1.arr, h1.scope, h1.empty⟩, h2, h3⟩
  · exact goes_of _ (congrArg Host.Outcome.next (if_neg (mt (awaits_el_iff bid gen s).mp ha))) (core_log ..) (logged_log _ _ _ _ rfl)
  · exact congrArg Host.Outcome.next (if_neg (mt (awaits_el_iff bid gen s).mp ha))
  · obtain ⟨h1, h2, h3⟩ := barRefuse_leaves s bid.toNat bid.isLt h4
    exact ⟨_, congrArg Host.Outcome.next (if_pos ((awaits_el_iff bid gen s).mpr ha)), ⟨h1.gen, h1.arr, h1.scope, h1.empty⟩, h2, h3⟩
  · change execBarTimeout bid s = _
    unfold execBarTimeout
    dsimp only
    rw [ho]

end Sys2Proof.Machine

/-! SUPPORT. Starts of step and tree programs (R161, R162, R165, R202, R276, R348, R429). -/

namespace Sys2Proof.Machine

set_option Elab.async false

/-! ### What the rest of a step start leaves alone -/

/-- What a program keeps of its sequencer while a window closes or a segment begins. -/
def Seq.started (q : Seq) : Seq := { q with window := none, segNew := false }

/-- What a die keeps beside its sequencer while a step starts: counters with their bases, launches held and the LAUNCH port. -/
def Elesh.startSide (e : Elesh) : Tbl Nat × Tbl Nat × List LaunchMsg × BitVec 16 := (e.counters, e.stepBase, e.launches, e.ports.launch)

/-- The die's step, program counter and state, its program, and what stands beside its sequencer. -/
structure StartKept (s t : State) : Prop where
  cur      : t.reg .el Reg.SEQ_STEP_CUR_CUR.off = s.reg .el Reg.SEQ_STEP_CUR_CUR.off
  next     : t.reg .el Reg.SEQ_STEP_NEXT.off = s.reg .el Reg.SEQ_STEP_NEXT.off
  pc       : t.get .el Reg.SEQ_PC_PC = s.get .el Reg.SEQ_PC_PC
  state    : t.get .el Reg.SEQ_STAT_STATE = s.get .el Reg.SEQ_STAT_STATE
  side     : t.el.startSide = s.el.startSide
  seq      : (t.seq .el).started = (s.seq .el).started

namespace StartKept

variable {s t u : State}

theorem refl (s : State) : StartKept s s := ⟨rfl, rfl, rfl, rfl, rfl, rfl⟩

theorem trans (h : StartKept s t) (k : StartKept t u) : StartKept s u :=
  ⟨k.cur.trans h.cur, k.next.trans h.next, k.pc.trans h.pc, k.state.trans h.state, k.side.trans h.side, k.seq.trans h.seq⟩

theorem counters (h : StartKept s t) : t.el.counters = s.el.counters := congrArg Prod.fst h.side

theorem bases (h : StartKept s t) : t.el.stepBase = s.el.stepBase := congrArg (fun x => x.2.1) h.side

theorem launches (h : StartKept s t) : t.el.launches = s.el.launches := congrArg (fun x => x.2.2.1) h.side

theorem port (h : StartKept s t) : t.el.ports.launch = s.el.ports.launch := congrArg (fun x => x.2.2.2) h.side

/-- Registers away from the program's. -/
theorem of_far (hr : ∀ o, o < 0x2040 → u.reg .el o = t.reg .el o) (hc : u.el.startSide = t.el.startSide) (hq : (u.seq .el).started = (t.seq .el).started) : StartKept t u :=
  ⟨hr _ (by decide), hr _ (by decide), congrArg (fun w => fget w _ _) (hr _ (by decide)), congrArg (fun w => fget w _ _) (hr _ (by decide)), hc, hq⟩

theorem core (h : StartKept s t) (hc : u.core = t.core) : StartKept s u :=
  h.trans (of_far (fun o _ => reg_of_core hc .el o) (congrArg (fun v : State => v.el.startSide) hc :) (congrArg Seq.started (seq_of_core hc .el)))

theorem log (h : StartKept s t) (p : Part) (a b c d : Nat) : StartKept s (t.log p a b c d) := h.core (core_log ..)

theorem setReg (h : StartKept s t) (o : Nat) (w : Word) (ho : 0x2040 ≤ o) : StartKept s (t.setReg .el o w) :=
  h.trans (of_far (fun i hi => reg_setReg_other t .el o i w (by omega)) rfl rfl)

theorem put (h : StartKept s t) (f : Fld) (v : Nat) (ho : 0x2040 ≤ f.off) : StartKept s (t.put .el f v) := h.setReg _ _ ho

theorem count (h : StartKept s t) (f : Fld) (n : Nat) (ho : 0x2040 ≤ f.off) : StartKept s (t.count .el f n) := h.put _ _ ho

/-- A field beside PC or STATE in their registers. -/
theorem putBeside (h : StartKept s t) (f : Fld) (v : Nat) (ho : f.off = 0x2038 ∨ f.off = 0x2008) (hlo : 16 ≤ f.lo ∨ f.off = 0x2008 ∧ 4 ≤ f.lo) (hf : f.lo ≤ f.hi ∧ f.hi < 64) : StartKept s (t.put .el f v) := by
  have hr : ∀ o, o ≠ 0x2038 → o ≠ 0x2008 → (t.put .el f v).reg .el o = t.reg .el o := fun o h1 h2 => reg_setReg_other t .el f.off o _ (by omega)
  refine h.trans ⟨hr _ (by decide) (by decide), hr _ (by decide) (by decide), ?_, ?_, rfl, rfl⟩
  · refine get_put_other t .el f Reg.SEQ_PC_PC v hf.2 hf.1 (by decide) ?_
    show 0x2038 ≠ f.off ∨ 15 < f.lo ∨ f.hi < 0
    omega
  · refine get_put_other t .el f Reg.SEQ_STAT_STATE v hf.2 hf.1 (by decide) ?_
    show 0x2008 ≠ f.off ∨ 3 < f.lo ∨ f.hi < 0
    omega

theorem modEl (h : StartKept s t) (f : Elesh → Elesh) (hb : (f t.el).base = t.el.base) (hc : (f t.el).startSide = t.el.startSide) : StartKept s (t.modEl f) :=
  h.trans (of_far (fun o _ => reg_modEl t f .el o (by rw [hb])) hc (congrArg (fun b : Base => b.seq.started) hb))

theorem mod (h : StartKept s t) (f : Base → Base) (hr : (f t.el.base).regs = t.el.base.regs) (hq : (f t.el.base).seq.started = t.el.base.seq.started) : StartKept s (t.mod .el f) :=
  h.trans (of_far (fun o _ => reg_mod t .el .el f o hr) rfl hq)

theorem modSeq (h : StartKept s t) (f : Seq → Seq) (hq : ∀ q, (f q).started = q.started) : StartKept s (t.modSeq .el f) := h.mod _ rfl (hq _)

theorem ite {a b : State} {c : Prop} [Decidable c] (ha : StartKept s a) (hb : StartKept s b) : StartKept s (if c then a else b) := by
  split
  · exact ha
  · exact hb

theorem foldl {α : Type} (h : StartKept s t) (l : List α) (f : State → α → State) (hf : ∀ u x, StartKept s u → StartKept s (f u x)) : StartKept s (l.foldl f t) :=
  List.foldlRecOn (motive := StartKept s) _ _ h (fun u hu x _ => hf u x hu)

theorem claims (h : StartKept s t) (k : ClaimsOnly t u) : StartKept s u := by
  obtain ⟨c, r, rfl⟩ := k
  exact h.modEl (fun e => { e with ports := { e.ports with claims := c, reclaim := r } }) rfl rfl

theorem landShow (h : StartKept s t) : StartKept s t.landShow := (h.put Reg.SYNC_LANDQ_LEVEL _ (by decide)).put Reg.SYNC_LANDQ_HWM _ (by decide)

theorem landStale (h : StartKept s t) : StartKept s t.landStale := by
  unfold State.landStale
  dsimp only
  refine .ite (h.claims (.claimPump _)) ?_
  have hl := (h.modEl (fun e => { e with land := e.land.filter (fun l => !(decide (l.step.toNat < t.stepCur))), landFull := false }) rfl rfl).landShow
  exact ((hl.claims (.claimWants ..)).put Reg.SYNC_STAT_LAND_STALE 1 (by decide)).foldl _ _ (fun u l hu => hu.log ..)

theorem streamsReset (h : StartKept s t) : StartKept s t.streamsReset := by
  have hs := h.foldl (List.range t.el.lic.streams) (fun t n => (t.setReg .el (Reg.SEED_S_CURSOR_CURSOR n).off 0xFFFFFFFFFFFFFFFF).setReg .el (Reg.SEED_S_CUR_L n).off 0)
    (fun u n hu => (hu.setReg _ _ (by simp only [Reg.SEED_S_CURSOR_CURSOR]; omega)).setReg _ _ (by simp only [Reg.SEED_S_CUR_L]; omega))
  exact (hs.put Reg.SEED_STAT_PERM_SLIPS 0 (by decide)).modEl (fun e => { e with cur := [], posLogged := [], emptyLogged := [] }) rfl rfl

theorem spmPut (h : StartKept s t) (a : Nat) (w : Word) : StartKept s (t.spmPut a w) := by
  let f : Elesh → Elesh := fun e => { e with
    spm := mwrite e.spm (a - a % 8) (leBytes 8 (if t.flips a then w ^^^ 1 else w).toNat)
    spmBad := if t.flips a && !t.bit .el Reg.TEST_PFLIP_MODE then t.el.spmBad.filter (fun x => x != a / 8) ++ [a / 8] else t.el.spmBad.filter (fun x => x != a / 8) }
  have hm : StartKept s (t.modEl f) := h.modEl f rfl rfl
  exact .ite ((hm.put Reg.TEST_PFLIP_EN 0 (by decide)).log ..) hm

theorem emit (h : StartKept s t) (r : LedgerRec) : StartKept s (t.emit r) := (h.modEl (fun e => { e with ledgOrd := t.el.ledgOrd + 1 }) rfl rfl).core (core_sendUp ..)

theorem wdRestart (h : StartKept s t) (mask : Nat) : StartKept s (t.wdRestart .el mask) := h.mod _ rfl rfl

theorem slip (h : StartKept s t) (n : Nat) : StartKept s (t.slip .el n) := (h.count Reg.SEQ_SLIPS_STEP n (by decide)).count Reg.SEQ_SLIPS_SEGMENT n (by decide)

theorem closeWindow (h : StartKept s t) : StartKept s (t.closeWindow .el) :=
  (h.modSeq (fun q => { q with window := none }) (fun _ => rfl)).putBeside Reg.SEQ_STAT_QUIET 0 (.inr rfl) (.inr ⟨rfl, by decide⟩) (by decide)

theorem anchorIssue (h : StartKept s t) (a b : Nat) : StartKept s (t.anchorIssue .el a b) := by
  have hp := (h.putBeside Reg.SEQ_PC_ANCHOR (t.pc .el) (.inl rfl) (.inl (by decide)) (by decide)).modSeq (fun q => { q with segNew := true }) (fun _ => rfl)
  unfold State.anchorIssue
  dsimp only
  refine .ite hp (.ite (hp.put Reg.SEQ_LATE_SLACK_MIN _ (by decide)) ?_)
  exact ((hp.put Reg.SEQ_LATE_LATE _ (by decide)).log ..).modEl _ rfl rfl

end StartKept

/-! ### A step start (R161) -/

section
variable (s : State) (t a : Nat)

/-- A K that PROBATION brought is committed (R365). -/
def State.probTaken (s : State) : State :=
  match s.el.probK with
  | some k => ((s.put .el Reg.CHK_REPEAT_K k).modEl (fun e => { e with probK := none })).log .el 0x0B 0x9001 0 1
  | none => s

/-- STEP_CUR takes STEP.NEXT, which advances. -/
def State.stepNumbered (s : State) : State :=
  let n := s.reg .el Reg.SEQ_STEP_NEXT.off
  (s.setReg .el Reg.SEQ_STEP_CUR_CUR.off n).setReg .el Reg.SEQ_STEP_NEXT.off (n + 1)

/-- The program's registers, flags and step views begin at 0. -/
def State.stepCleared (s : State) (t : Nat) : State :=
  (s.modSeq .el (fun q => { q with g := [], c := 0, acts := [], skip := false, hold := .none, anchorOk := false, tStep := t })).modEl (fun e => { e with
    stepBase := e.counters, fas := [], ledgOrd := 0, stepEvents := 0, wlostLogged := false })

/-- What else begins with a step: landing queue, streams, watchdogs, ledger and counts. -/
def State.stepPrepared (s : State) : State :=
  let s := ((s.landStale.streamsReset.wdRestart .el 0x7F).emit s.stepRecord).repeatWrite
  let s := (s.setReg .el 0xA020 0).setReg .el Reg.TAL_CNT_SAT_BLOCKS.off 0
  (((s.put .el Reg.SPM_CNT_WLOST 0).put .el Reg.SEQ_SLIPS_STEP 0).slip .el 1).put .el Reg.SEQ_LATE_SLACK_MIN 0xFFFFFFFF

/-- A window that READY had opened closes. -/
def State.readyClosed (s : State) : State :=
  match (s.seq .el).window with
  | some w => if w.ready then s.closeWindow .el else s
  | none => s

/-- The entry bundle is next to issue, and the program runs. -/
def State.stepRunning (s : State) : State := ((s.put .el Reg.SEQ_PC_PC (s.seq .el).entry).readyClosed).setSeqState .el 3

theorem stepStart_eq : s.stepStart t a = (let u := ((s.probTaken.stepNumbered).stepCleared t).stepPrepared.stepRunning; if u.fclkStopped then u else u.anchorIssue .el t a) := rfl

theorem probTaken_kept : StartKept s s.probTaken := by
  unfold State.probTaken
  split
  · exact (((StartKept.refl s).put Reg.CHK_REPEAT_K _ (by decide)).modEl (fun e => { e with probK := none }) rfl rfl).log ..
  · exact .refl s

theorem stepPrepared_kept : StartKept s s.stepPrepared := by
  have h1 := ((((StartKept.refl s).landStale.streamsReset.wdRestart 0x7F).emit s.stepRecord).spmPut (((s.landStale.streamsReset.wdRestart .el 0x7F).emit s.stepRecord).get .el Reg.CHK_REPEAT_ADDR)
    (BitVec.ofNat 64 ((if ((s.landStale.streamsReset.wdRestart .el 0x7F).emit s.stepRecord).get .el Reg.CHK_REPEAT_K = 0 then 0
      else ((s.landStale.streamsReset.wdRestart .el 0x7F).emit s.stepRecord).stepCur % ((s.landStale.streamsReset.wdRestart .el 0x7F).emit s.stepRecord).get .el Reg.CHK_REPEAT_K) * 2 ^ 32
        + ((s.landStale.streamsReset.wdRestart .el 0x7F).emit s.stepRecord).get .el Reg.CHK_REPEAT_K)))
  have h2 := (h1.setReg 0xA020 0 (by decide)).setReg Reg.TAL_CNT_SAT_BLOCKS.off 0 (by decide)
  exact (((h2.put Reg.SPM_CNT_WLOST 0 (by decide)).put Reg.SEQ_SLIPS_STEP 0 (by decide)).slip 1).put Reg.SEQ_LATE_SLACK_MIN 0xFFFFFFFF (by decide)

theorem readyClosed_kept : StartKept s s.readyClosed := by
  unfold State.readyClosed
  split
  · exact .ite (StartKept.refl s).closeWindow (.refl s)
  · exact .refl s

/-- A program that has started (R161, R202). -/
structure Started (s u : State) (t : Nat) : Prop where
  state : u.seqState .el = 3
  pc    : u.pc .el = (s.seq .el).entry % 65536
  cur   : u.reg .el Reg.SEQ_STEP_CUR_CUR.off = s.reg .el Reg.SEQ_STEP_NEXT.off
  next  : u.reg .el Reg.SEQ_STEP_NEXT.off = s.reg .el Reg.SEQ_STEP_NEXT.off + 1
  gregs : ∀ r, u.greg .el r = 0
  flags : ∀ c, u.flag .el c = false
  views : ∀ k, u.cntView k = 0 ∧ u.cntAbs k = s.cntAbs k
  tStep : (u.seq .el).tStep = t

theorem stepStart_started : Started s (s.stepStart t a) t := by
  let b := (s.probTaken.stepNumbered).stepCleared t
  let c := b.stepPrepared
  let d := c.put .el Reg.SEQ_PC_PC (c.seq .el).entry
  let e := d.readyClosed
  let u := e.setSeqState .el 3
  have hp := probTaken_kept s
  have hc : StartKept b c := stepPrepared_kept b
  have he : StartKept d e := readyClosed_kept d
  have hu : StartKept u (s.stepStart t a) := .ite (.refl u) ((StartKept.refl u).anchorIssue t a)
  have hseq : ((s.stepStart t a).seq .el).started = (b.seq .el).started :=
    hu.seq.trans ((congrArg Seq.started (seq_put e ..)).trans (he.seq.trans ((congrArg Seq.started (seq_put c ..)).trans hc.seq)))
  have hentry : (c.seq .el).entry = (s.seq .el).entry := (congrArg Seq.entry hc.seq :).trans ((congrArg Seq.entry hp.seq :))
  have hcnt : (s.stepStart t a).el.counters = s.el.counters := hu.counters.trans (he.counters.trans (hc.counters.trans hp.counters))
  have hbase : (s.stepStart t a).el.stepBase = s.el.counters := hu.bases.trans (he.bases.trans (hc.bases.trans hp.counters))
  have hdreg : ∀ o, o ≠ 0x2038 → d.reg .el o = c.reg .el o := fun o ho => reg_setReg_other c .el _ o _ ho
  have hureg : ∀ o, o ≠ 0x2008 → u.reg .el o = e.reg .el o := fun o ho => reg_setReg_other e .el _ o _ ho
  have hnum : b.reg .el Reg.SEQ_STEP_CUR_CUR.off = s.reg .el Reg.SEQ_STEP_NEXT.off ∧ b.reg .el Reg.SEQ_STEP_NEXT.off = s.reg .el Reg.SEQ_STEP_NEXT.off + 1 := by
    rw [← hp.next]
    refine ⟨?_, reg_setReg_same ..⟩
    exact (reg_setReg_other _ .el Reg.SEQ_STEP_NEXT.off Reg.SEQ_STEP_CUR_CUR.off _ (by decide)).trans (reg_setReg_same ..)
  refine ⟨hu.state.trans ?_, hu.pc.trans ?_, hu.cur.trans ((hureg _ (by decide)).trans (he.cur.trans ((hdreg _ (by decide)).trans (hc.cur.trans hnum.1)))),
    hu.next.trans ((hureg _ (by decide)).trans (he.next.trans ((hdreg _ (by decide)).trans (hc.next.trans hnum.2)))), fun r => ?_, fun k => ?_, fun k => ⟨?_, ?_⟩, ?_⟩
  · exact (get_put_same e .el Reg.SEQ_STAT_STATE 3 (by decide) (by decide)).trans rfl
  · refine (congrArg (fun w => fget w _ _) (hureg _ (by decide))).trans (he.pc.trans ?_)
    rw [← hentry]
    exact get_put_same c .el Reg.SEQ_PC_PC _ (by decide) (by decide)
  · exact (congrArg (fun q : Seq => tget 0 q.g r) hseq :)
  · refine (congrArg (fun q : Seq => bitOf q.c.toNat k) hseq :).trans ?_
    show bitOf 0 k = false
    unfold bitOf
    simp
  · show tget 0 _ k - tget 0 _ k = 0
    rw [hcnt, hbase, Nat.sub_self]
  · unfold State.cntAbs
    rw [hcnt]
  · exact (congrArg Seq.tStep hseq :)

/-! ### Starts that start nothing (R162, R348) -/

theorem stepMissed_leaves : s.stepMissed.seqState .el = s.seqState .el ∧ Logged .el s s.stepMissed [(0x01, 0x8085, s.pc .el, s.seqState .el)] := by
  let l := s.log .el 0x01 0x8085 (s.pc .el) (s.seqState .el)
  have hl : Logged .el s l [(0x01, 0x8085, s.pc .el, s.seqState .el)] := logged_log _ _ _ _ rfl
  have hst : l.seqState .el = s.seqState .el := seqState_congr (reg_of_core (core_log ..) .el _)
  have hs : s.stepMissed = if l.bit .el Reg.HC_STAT_ROLLBACK then l else l.modEl (fun e => { e with hbCounts := { e.hbCounts with stepMissed := true } }) := rfl
  rw [hs]
  split
  · exact ⟨hst, hl⟩
  · exact ⟨(seqState_congr rfl).trans hst, hl.congr rfl⟩

theorem stepLaunch_barred (h : s.startBarred = true) : s.stepLaunch t a = s.stepMissed := if_pos h

theorem stepLaunch_free (h : s.startBarred = false) : s.stepLaunch t a = (if s.seqState .el = 2 then (if s.testRunning .el then s.modSeq .el (fun q => { q with heldStarts := q.heldStarts ++ [t] }) else s.stepStart t a)
    else if s.seqState .el = 3 || s.seqState .el = 4 then s.modSeq .el (fun q => { q with heldStarts := q.heldStarts ++ [t] }) else s.stepMissed) := if_neg (by rw [h]; decide)

theorem startBarred_false (h1 : s.guardActive .el = false) (h2 : s.bit .el Reg.HC_STAT_ROLLBACK = false) (h3 : s.bit .el Reg.SEQ_RUNCFG_LSI_VALID = true) (h4 : s.get .el Reg.HC_STAT_STATE ≠ 6) :
    s.startBarred = false := by
  unfold State.startBarred State.expelled
  simp [h1, h2, h3, h4]

theorem startBarred_true (h : s.guardActive .el = true ∨ s.bit .el Reg.HC_STAT_ROLLBACK = true ∨ s.bit .el Reg.SEQ_RUNCFG_LSI_VALID = false ∨ s.get .el Reg.HC_STAT_STATE = 6) : s.startBarred = true := by
  unfold State.startBarred State.expelled
  rcases h with h | h | h | h <;> simp [h]
end

/-! ### The tree program (R165) -/

theorem treeStart_starts (s : State) (h : s.seqState .ux = 2) : let u := s.treeStart
    u.seqState .ux = 3 ∧ u.pc .ux = (s.seq .ux).entry % 65536 ∧ (∀ r, u.greg .ux r = 0) ∧ (∀ c < 8, u.flag .ux c = false)
      ∧ u.get .ux Reg.SEQ_SLIPS_STEP = 0 ∧ u.get .ux Reg.SEQ_LATE_SLACK_MIN = 0xFFFFFFFF ∧ u.el = s.el ∧ u.ux.tc = s.ux.tc ∧ u.ux.base.events = s.ux.base.events := by
  let a := s.modSeq .ux (fun q => { q with g := [], c := 0, acts := [], skip := false, hold := .none, anchorOk := false, segNew := false, tStep := s.tbNow .ux 0 })
  let b := a.setReg .ux Reg.SEQ_SLIPS_STEP.off 0
  let c := b.put .ux Reg.SEQ_LATE_SLACK_MIN 0xFFFFFFFF
  let d := c.put .ux Reg.SEQ_PC_PC (c.seq .ux).entry
  have hu : s.treeStart = d.setSeqState .ux 3 := if_pos h
  have hreg : ∀ (t : State) (f : Fld) (v : Nat) (g : Fld), g.off ≠ f.off → (t.put .ux f v).get .ux g = t.get .ux g := fun t f v g hne => congrArg (fun w => fget w _ _) (reg_setReg_other t .ux f.off g.off _ hne)
  rw [hu]
  refine ⟨(get_put_same d .ux Reg.SEQ_STAT_STATE 3 (by decide) (by decide)).trans rfl, ?_, fun r => rfl, fun k _ => ?_, ?_, ?_, rfl, rfl, rfl⟩
  · refine (hreg d _ _ Reg.SEQ_PC_PC (by decide)).trans ((get_put_same c .ux Reg.SEQ_PC_PC _ (by decide) (by decide)).trans ?_)
    rfl
  · show bitOf 0 k = false
    unfold bitOf
    simp
  · refine (hreg d _ _ Reg.SEQ_SLIPS_STEP (by decide)).trans ((hreg c _ _ Reg.SEQ_SLIPS_STEP (by decide)).trans ((hreg b _ _ Reg.SEQ_SLIPS_STEP (by decide)).trans ?_))
    exact (congrArg (fun w => fget w _ _) (reg_setReg_same a .ux Reg.SEQ_SLIPS_STEP.off 0)).trans rfl
  · refine (hreg d _ _ Reg.SEQ_LATE_SLACK_MIN (by decide)).trans ((hreg c _ _ Reg.SEQ_LATE_SLACK_MIN (by decide)).trans ?_)
    exact (get_put_same b .ux Reg.SEQ_LATE_SLACK_MIN _ (by decide) (by decide)).trans rfl

end Sys2Proof.Machine

/-! SUPPORT. Loads, unloads and refetches of programs (R154 to R159, R167, R384, R444). -/

namespace Sys2Proof.Machine

set_option Elab.async false

/-! ### IMGHASH -/

/-- Registers written one for each index of a list. -/
theorem reg_setRegs (p : Part) (o : Nat → Nat) (v : Nat → Word) (ho : ∀ i j, o i = o j → i = j) (l : List Nat) (s : State) (q : Part) (off : Nat) :
    (l.foldl (fun t i => t.setReg p (o i) (v i)) s).reg q off = if q = p then (match l.find? (fun i => o i == off) with | some i => v i | none => s.reg q off) else s.reg q off := by
  induction l generalizing s with
  | nil => exact (ite_self _).symm
  | cons i r ih =>
    rw [List.foldl_cons, ih]
    by_cases hq : q = p
    · subst hq
      rw [if_pos rfl, if_pos rfl, List.find?_cons]
      by_cases hi : o i = off
      · subst hi
        rw [show (o i == o i) = true from beq_self_eq_true _]
        cases hf : r.find? (fun j => o j == o i) with
        | none => exact reg_setReg_same ..
        | some j =>
          have hj : o j = o i := by simpa using List.find?_some hf
          rw [ho j i hj]
      · rw [show (o i == off) = false from beq_eq_false_iff_ne.mpr hi]
        cases r.find? (fun j => o j == off) with
        | none => exact reg_setReg_other s q _ _ _ (fun e => hi e.symm)
        | some j => rfl
    · rw [if_neg hq, if_neg hq]
      exact reg_setReg_part s _ _ _ hq

section
variable (s : State) (p : Part) (h : List Byte)

/-- The words of a hash. -/
def hashWord (h : List Byte) (i : Nat) : Word := BitVec.ofNat 64 (leNat ((h.drop (8 * i)).take 8))

theorem setImgHash_eq : s.setImgHash p h = (List.range 6).foldl (fun t i => t.setReg p (Reg.SEQ_IMGHASH_HASH i).off (hashWord h i)) s := rfl

theorem imgHash_off_inj (i j : Nat) (h : (Reg.SEQ_IMGHASH_HASH i).off = (Reg.SEQ_IMGHASH_HASH j).off) : i = j := by
  simp only [Reg.SEQ_IMGHASH_HASH] at h
  omega

theorem reg_setImgHash_word (i : Nat) (hi : i < 6) : (s.setImgHash p h).reg p (Reg.SEQ_IMGHASH_HASH i).off = hashWord h i := by
  rw [setImgHash_eq, reg_setRegs p (fun i => (Reg.SEQ_IMGHASH_HASH i).off) _ imgHash_off_inj, if_pos rfl]
  cases hf : (List.range 6).find? (fun j => (Reg.SEQ_IMGHASH_HASH j).off == (Reg.SEQ_IMGHASH_HASH i).off) with
  | none => exact absurd (List.find?_eq_none.mp hf i (List.mem_range.mpr hi)) (by simp)
  | some j =>
    have hj := imgHash_off_inj j i (by simpa using List.find?_some hf)
    rw [hj]

theorem reg_setImgHash_other (q : Part) (off : Nat) (ho : off < 0x2060 ∨ 0x2090 ≤ off) : (s.setImgHash p h).reg q off = s.reg q off := by
  rw [setImgHash_eq, reg_setRegs p (fun i => (Reg.SEQ_IMGHASH_HASH i).off) _ imgHash_off_inj]
  have hf : (List.range 6).find? (fun j => (Reg.SEQ_IMGHASH_HASH j).off == off) = none := by
    refine List.find?_eq_none.mpr (fun j hj => ?_)
    have := List.mem_range.mp hj
    simp only [Reg.SEQ_IMGHASH_HASH, beq_iff_eq]
    omega
  rw [hf]
  exact ite_self _

theorem setImgHash_beside (q : Part) : (s.setImgHash p h).seq q = s.seq q ∧ ((s.setImgHash p h).base q).events = (s.base q).events := by
  rw [setImgHash_eq]
  refine List.foldlRecOn (motive := fun t : State => t.seq q = s.seq q ∧ (t.base q).events = (s.base q).events) _ _ ⟨rfl, rfl⟩ (fun t ht i _ => ⟨(seq_mod_regs ..).trans ht.1, (events_setReg ..).trans ht.2⟩)
end

/-! ### Fields beside others in their registers -/

theorem get_put_offs (s : State) (p q : Part) (f g : Fld) (v : Nat) (h : g.off ≠ f.off) : (s.put p f v).get q g = s.get q g := by
  unfold State.get
  by_cases hq : q = p
  · subst hq
    exact congrArg (fun w => fget w _ _) (reg_setReg_other s q f.off g.off _ h)
  · exact congrArg (fun w => fget w _ _) (reg_setReg_part s _ _ _ hq)

section
variable (s : State) (p : Part)

theorem seqState_setSeqState (c : Nat) (hc : c < 16) : (s.setSeqState p c).seqState p = c :=
  (get_put_same s p Reg.SEQ_STAT_STATE c (by decide) (by decide)).trans (Nat.mod_eq_of_lt hc)

theorem progClear_leaves : ((s.progClear p).seq p).prog = [] ∧ ((s.progClear p).seq p).bundles = 0 ∧ (∀ q, ((s.progClear p).base q).events = (s.base q).events) ∧ (∀ q o, (s.progClear p).reg q o = s.reg q o) := by
  refine ⟨?_, ?_, fun q => ?_, fun q o => ?_⟩
  · exact congrArg Seq.prog (seq_modSeq ..)
  · exact congrArg Seq.bundles (seq_modSeq ..)
  · exact events_modSeq ..
  · cases p <;> cases q <;> rfl

/-! ### The start of a load (R156, R384, R444) -/

theorem loadStart_armed (h : s.manState p = 2) : s.loadStart p = (s.stageRefuse p Reg.SEQ_CTRL_LOAD.off).loadRefuse p 13 := if_pos h

/-- A load that starts. -/
def State.loading (s : State) (p : Part) : State :=
  let s := (s.progClear p).setSeqState p 1
  match p with
  | .el => s.put .el (Reg.DMA_STAT_STATE 0) 4
  | .ux => s

theorem loadStart_starts (hm : s.manState p ≠ 2) (hs : s.seqState p = 0 ∨ s.seqState p = 2) (hf : p = .ux ∨ s.get .el (Reg.DMA_STAT_STATE 0) = 0) : s.loadStart p = s.loading p :=
  (if_neg hm).trans (if_pos ⟨hs, hf⟩)

theorem loadStart_refuses (hm : s.manState p ≠ 2) (h : (s.seqState p ≠ 0 ∧ s.seqState p ≠ 2) ∨ ¬ (p = .ux ∨ s.get .el (Reg.DMA_STAT_STATE 0) = 0)) : s.loadStart p = s.loadRefuse p 13 := by
  refine (if_neg hm).trans (if_neg ?_)
  rintro ⟨hs, hf⟩
  rcases h with ⟨h0, h2⟩ | h
  · exact hs.elim h0 h2
  · exact h hf

theorem loading_leaves : let u := s.loading p
    u.seqState p = 1 ∧ (u.seq p).prog = [] ∧ (u.seq p).bundles = 0 ∧ (p = .el → u.get .el (Reg.DMA_STAT_STATE 0) = 4) ∧ (u.base p).events = (s.base p).events := by
  obtain ⟨hprog, hbun, hev, _⟩ := progClear_leaves s p
  let a := (s.progClear p).setSeqState p 1
  have hq : a.seq p = (s.progClear p).seq p := seq_put ..
  have h1 : a.seqState p = 1 := seqState_setSeqState _ p 1 (by decide)
  have hae : (a.base p).events = (s.base p).events := (events_put ..).trans (hev p)
  cases p with
  | ux => exact ⟨h1, (congrArg Seq.prog hq).trans hprog, (congrArg Seq.bundles hq).trans hbun, fun h => Part.noConfusion h, hae⟩
  | el =>
    refine ⟨(get_put_offs a .el .el (Reg.DMA_STAT_STATE 0) Reg.SEQ_STAT_STATE 4 (by decide)).trans h1, ?_, ?_, fun _ => ?_, (events_put ..).trans hae⟩
    · exact (congrArg Seq.prog ((seq_put a .el .el _ _).trans hq)).trans hprog
    · exact (congrArg Seq.bundles ((seq_put a .el .el _ _).trans hq)).trans hbun
    · exact (get_put_same a .el (Reg.DMA_STAT_STATE 0) 4 (by decide) (by decide)).trans rfl

theorem exec_load : exec (match p with | .el => .seqLoad | .ux => .tseqLoad) s = .next (s.loadStart p) := by
  cases p <;> rfl

theorem goes_loadRefuse {c : Instr} {cause : Nat} (t : State) (es : List Entry) (ht : t.core = s.core) (hl : Logged p s t es) (he : exec c s = .next (t.loadRefuse p cause)) :
    Goes c s (s.put p Reg.SEQ_STAT_REFUSE_CAUSE cause) p (es ++ [(unitSeq p, 0x9081, 0, cause)]) := by
  refine goes_of _ he ((core_log ..).trans (core_put_congr ht ..)) ?_
  exact (hl.congr (events_put ..)).log (unitSeq p) 0x9081 0 0 cause

/-! ### The end of a load (R156, R157) -/

/-- Channel 0 is free again. -/
def State.channelFreed (s : State) (p : Part) : State :=
  match p with
  | .el => s.put .el (Reg.DMA_STAT_STATE 0) 0
  | .ux => s

theorem channelFreed_leaves : (p = .el → (s.channelFreed p).get .el (Reg.DMA_STAT_STATE 0) = 0) ∧ (∀ q, ((s.channelFreed p).base q).events = (s.base q).events) := by
  cases p with
  | el => exact ⟨fun _ => (get_put_same s .el (Reg.DMA_STAT_STATE 0) 0 (by decide) (by decide)).trans rfl, fun q => events_put ..⟩
  | ux => exact ⟨fun h => Part.noConfusion h, fun _ => rfl⟩

/-- The cause of a load's failure, 0 where it succeeds. -/
def State.loadCause (s : State) (p : Part) (ok : Bool) : Nat := if ok then s.imgCause (s.loadImage p) p else 14

theorem exec_imageLoadEnd (ok : Bool) (h : s.seqState p = 1) :
    exec (.imageLoadEnd p ok) s = .next (if s.loadCause p ok = 0 then (s.channelFreed p).loadDone p (s.loadImage p) else (s.channelFreed p).loadFail p (s.loadCause p ok)) :=
  (if_neg (not_not_intro h)).trans (by cases p <;> rfl)

theorem exec_imageLoadEnd_not (ok : Bool) (h : s.seqState p ≠ 1) : exec (.imageLoadEnd p ok) s = .next s := if_pos h

theorem bundleCause_le (l : Licence) (n : Nat) (ws : List Nat) : bundleCause l n p ws ≤ 9 := by
  unfold bundleCause
  split
  · decide
  · split <;> decide

theorem imgBundles_le (l : Licence) (img : List Byte) : imgBundles l img p ≤ 9 := by
  unfold imgBundles
  dsimp only
  cases hf : (List.range (imgField img 0x10 4)).findSome? (fun b => match bundleCause l (imgField img 0x10 4) p (imgBundle img p b) with | 0 => none | c => some c) with
  | none => exact Nat.zero_le _
  | some c =>
    obtain ⟨b, _, hb⟩ := List.exists_of_findSome?_eq_some hf
    have hle := bundleCause_le p l (imgField img 0x10 4) (imgBundle img p b)
    split at hb
    · cases hb
    · cases hb
      exact hle

theorem imgHead_le (img : List Byte) : imgHead img p ≤ 3 := by
  unfold imgHead
  split
  · decide
  · split
    · decide
    · cases p <;> dsimp only <;> split <;> decide

theorem imgCause_le (img : List Byte) : s.imgCause img p ≤ 14 := by
  have hh := imgHead_le p img
  have hb := imgBundles_le p s.el.lic img
  unfold State.imgCause
  dsimp only
  repeat' split
  all_goals omega

theorem loadCause_le (ok : Bool) : s.loadCause p ok ≤ 14 := by
  unfold State.loadCause
  split
  · exact imgCause_le ..
  · exact Nat.le_refl _

/-- A load that fails leaves an EMPTY sequencer, with the cause (R157). -/
theorem loadFail_leaves (cause : Nat) (hc : cause < 256) : let u := s.loadFail p cause
    u.seqState p = 0 ∧ (u.seq p).prog = [] ∧ (u.seq p).bundles = 0 ∧ u.get p Reg.SEQ_STAT_REFUSE_CAUSE = cause ∧ (∀ i < 6, u.reg p (Reg.SEQ_IMGHASH_HASH i).off = 0)
      ∧ Logged p s u [(unitSeq p, 0x9081, 0, cause)] := by
  let a := s.progClear p
  let b := a.setImgHash p []
  let c := b.setSeqState p 0
  let d := c.put p Reg.SEQ_STAT_REFUSE_CAUSE cause
  have hcore : (s.loadFail p cause).core = d.core := core_log ..
  obtain ⟨hprog, hbun, hev, _⟩ := progClear_leaves s p
  obtain ⟨hbseq, hbev⟩ := setImgHash_beside a p [] p
  have hseq : d.seq p = a.seq p := (seq_put ..).trans ((seq_put ..).trans hbseq)
  have hd : ∀ o, o ≠ 0x2008 → d.reg p o = b.reg p o := fun o ho => (reg_setReg_other c p _ o _ ho).trans (reg_setReg_other b p _ o _ ho)
  refine ⟨?_, ?_, ?_, ?_, fun i hi => ?_, ?_⟩
  · refine (seqState_congr (reg_of_core hcore p _)).trans ?_
    exact (get_put_other c p Reg.SEQ_STAT_REFUSE_CAUSE Reg.SEQ_STAT_STATE cause (by decide) (by decide) (by decide) (by decide)).trans (seqState_setSeqState b p 0 (by decide))
  · exact (congrArg Seq.prog ((seq_of_core hcore p).trans hseq)).trans hprog
  · exact (congrArg Seq.bundles ((seq_of_core hcore p).trans hseq)).trans hbun
  · refine (congrArg (fun w => fget w _ _) (reg_of_core hcore p _)).trans ?_
    exact (get_put_same c p Reg.SEQ_STAT_REFUSE_CAUSE cause (by decide) (by decide)).trans (Nat.mod_eq_of_lt hc)
  · refine (reg_of_core hcore p _).trans ((hd _ (by simp only [Reg.SEQ_IMGHASH_HASH]; omega)).trans ((reg_setImgHash_word a p [] i hi).trans ?_))
    unfold hashWord
    rw [List.drop_nil]
    rfl
  · exact logged_log _ _ _ _ ((events_put ..).trans ((events_put ..).trans (hbev.trans (hev p))))

/-- Program memory, header and pairs, as a load leaves them. -/
def State.programLoaded (s : State) (p : Part) (img : List Byte) : State :=
  s.modSeq p (fun q => { q with
    prog := (List.range (imgField img 0x10 4)).flatMap (fun b => (List.range (slotCount p)).filterMap (fun k =>
      match BitVec.ofNat 64 ((imgBundle img p b).getD k 0) with
      | 0 => none
      | w => some (b * slotCount p + k, w)))
    bundles := imgField img 0x10 4, entry := imgField img 0x14 4, fclkNom := imgField img 0x0C 4, mShards := imgField img 8 4, lsiSplit := imgField img 7 1,
    units := imgField img 0x2C 4, pairs := if p = .el then (imgPairs img p).map Prod.fst else [] })

/-- Suspects of another image close (R313). -/
def State.suspectsOf (s : State) (p : Part) (h : List Byte) : State := if p = .el ∧ s.el.suspHash ≠ h then s.suspCloseAll.modEl (fun e => { e with suspHash := h }) else s

/-- A RB_READY that is due leaves. -/
def State.readyTold (s : State) (p : Part) : State :=
  match p with
  | .el => s.readyTry
  | .ux => s

theorem loadDone_eq (img : List Byte) : s.loadDone p img =
    (((((s.programLoaded p img).suspectsOf p ((img.drop 0x40).take 48)).setImgHash p ((img.drop 0x40).take 48)).setSeqState p 2).log p (unitSeq p) 0x9080 0 (leNat (((img.drop 0x40).take 48).take 8))).readyTold p := by
  cases p <;> rfl

theorem suspCloseAll_beside : (∀ o, o < 0x6088 ∨ 0x60F0 ≤ o → ∀ q, s.suspCloseAll.reg q o = s.reg q o) ∧ (∀ q, s.suspCloseAll.seq q = s.seq q) ∧ (∀ q, (s.suspCloseAll.base q).events = (s.base q).events) := by
  unfold State.suspCloseAll
  refine List.foldlRecOn (motive := fun t : State => (∀ o, o < 0x6088 ∨ 0x60F0 ≤ o → ∀ q, t.reg q o = s.reg q o) ∧ (∀ q, t.seq q = s.seq q) ∧ (∀ q, (t.base q).events = (s.base q).events)) _ _
    ⟨fun _ _ _ => rfl, fun _ => rfl, fun _ => rfl⟩ (fun t ht i hi => ?_)
  have h4 : i < 4 := by
    simp only [List.mem_cons, List.not_mem_nil, or_false] at hi
    omega
  refine ⟨fun o ho q => ?_, fun q => (seq_put ..).trans (ht.2.1 q), fun q => (events_put ..).trans (ht.2.2 q)⟩
  refine (regsBut_put t .el (Reg.CHK_SUSP_INFO_OPEN i) 0 q o (fun e => ?_)).trans (ht.1 o ho q)
  simp only [Reg.CHK_SUSP_INFO_OPEN, List.mem_singleton, Prod.mk.injEq] at e
  omega

theorem suspectsOf_beside (h : List Byte) : (∀ o, o < 0x6088 ∨ 0x60F0 ≤ o → ∀ q, (s.suspectsOf p h).reg q o = s.reg q o) ∧ (∀ q, (s.suspectsOf p h).seq q = s.seq q)
    ∧ (∀ q, ((s.suspectsOf p h).base q).events = (s.base q).events) := by
  obtain ⟨h1, h2, h3⟩ := suspCloseAll_beside s
  unfold State.suspectsOf
  split
  · exact ⟨fun o ho q => (by cases q <;> rfl : _ = s.suspCloseAll.reg q o).trans (h1 o ho q), fun q => (by cases q <;> rfl : _ = s.suspCloseAll.seq q).trans (h2 q),
      fun q => (by cases q <;> rfl : _ = (s.suspCloseAll.base q).events).trans (h3 q)⟩
  · exact ⟨fun _ _ _ => rfl, fun _ => rfl, fun _ => rfl⟩

theorem readyTold_beside : (∀ q o, (s.readyTold p).reg q o = s.reg q o) ∧ (∀ q, (s.readyTold p).seq q = s.seq q) ∧ (∀ q, ((s.readyTold p).base q).events = (s.base q).events) := by
  cases p with
  | ux => exact ⟨fun _ _ => rfl, fun _ => rfl, fun _ => rfl⟩
  | el =>
    show (∀ q o, s.readyTry.reg q o = s.reg q o) ∧ (∀ q, s.readyTry.seq q = s.seq q) ∧ (∀ q, (s.readyTry.base q).events = (s.base q).events)
    unfold State.readyTry
    dsimp only
    split
    · let a := s.modEl (fun e => { e with readySent := true })
      have hu : ∀ m, (a.sendUp .el m).core = a.core := fun m => core_sendUp ..
      exact ⟨fun q o => (reg_of_core (hu _) q o).trans (by cases q <;> rfl), fun q => (seq_of_core (hu _) q).trans (by cases q <;> rfl), fun q => (events_sendUp ..).trans (by cases q <;> rfl)⟩
    · exact ⟨fun _ _ => rfl, fun _ => rfl, fun _ => rfl⟩

/-- A load that succeeds leaves a READY sequencer with the image's program (R157). -/
theorem loadDone_leaves (img : List Byte) : let u := s.loadDone p img
    u.seqState p = 2 ∧ (u.seq p).bundles = imgField img 0x10 4 ∧ (u.seq p).entry = imgField img 0x14 4 ∧ (∀ i < 6, u.reg p (Reg.SEQ_IMGHASH_HASH i).off = hashWord ((img.drop 0x40).take 48) i)
      ∧ (∀ o, 0x8000 ≤ o → u.reg .el o = s.reg .el o) ∧ Logged p s u [(unitSeq p, 0x9080, 0, leNat (((img.drop 0x40).take 48).take 8))] := by
  let h := (img.drop 0x40).take 48
  let a := s.programLoaded p img
  let b := a.suspectsOf p h
  let c := b.setImgHash p h
  let d := c.setSeqState p 2
  let e := d.log p (unitSeq p) 0x9080 0 (leNat (h.take 8))
  have he : e.core = d.core := core_log ..
  obtain ⟨hbr, hbs, hbe⟩ := suspectsOf_beside a p h
  obtain ⟨hcs, hce⟩ := setImgHash_beside b p h p
  obtain ⟨hur, hus, hue⟩ := readyTold_beside e p
  rw [loadDone_eq]
  have hseq : (e.readyTold p).seq p = a.seq p := (hus p).trans ((seq_of_core he p).trans ((seq_put ..).trans (hcs.trans (hbs p))))
  have haseq : a.seq p = _ := seq_modSeq ..
  refine ⟨?_, ?_, ?_, fun i hi => ?_, fun o ho => ?_, ?_⟩
  · exact (seqState_congr (hur p _)).trans ((seqState_congr (reg_of_core he p _)).trans (seqState_setSeqState c p 2 (by decide)))
  · exact congrArg Seq.bundles (hseq.trans haseq)
  · exact congrArg Seq.entry (hseq.trans haseq)
  · refine (hur p _).trans ((reg_of_core he p _).trans ((reg_setReg_other c p _ _ _ ?_).trans (reg_setImgHash_word b p h i hi)))
    simp only [Reg.SEQ_IMGHASH_HASH, Reg.SEQ_STAT_STATE]
    omega
  · refine (hur .el _).trans ((reg_of_core he .el _).trans ((regsBut_put c p Reg.SEQ_STAT_STATE 2 .el o ?_).trans ((reg_setImgHash_other b p h .el o (by omega)).trans ((hbr o (by omega) .el).trans ?_))))
    · simp only [Reg.SEQ_STAT_STATE, List.mem_singleton, Prod.mk.injEq]
      omega
    · cases p <;> rfl
  · have hd : (d.base p).events = (s.base p).events := (events_put ..).trans (hce.trans ((hbe p).trans (events_modSeq ..)))
    exact (logged_log _ _ _ _ hd).congr (hue p)

/-! ### Unloads and refetches (R159, R167) -/

theorem seqUnload_empties (hm : s.manState p ≠ 2) (hs : s.seqState p = 2 ∨ s.seqState p = 5) :
    Ends (.seqUnload p) s (fun u => u.seqState p = 0 ∧ (u.seq p).prog = [] ∧ (u.seq p).bundles = 0 ∧ (u.base p).events = (s.base p).events) := by
  refine ⟨(s.progClear p).setSeqState p 0, (if_neg hm).trans (congrArg Host.Outcome.next (if_pos hs)), seqState_setSeqState _ p 0 (by decide), ?_, ?_, ?_⟩
  · exact (congrArg Seq.prog (seq_put ..)).trans (progClear_leaves s p).1
  · exact (congrArg Seq.bundles (seq_put ..)).trans (progClear_leaves s p).2.1
  · exact (events_put ..).trans ((progClear_leaves s p).2.2.1 p)

/-- What the guard shows of a trigger it takes. -/
theorem guardTaken_reads (code unit first : Nat) (hc : code < 16) : (s.guardTaken p code unit first).get p Reg.GUARD_STAT_TRIGGER = code
    ∧ (s.guardTaken p code unit first).bit p Reg.GUARD_STAT_DUMP_VALID = s.bit p Reg.GUARD_STAT_DUMP_VALID := by
  let a := s.put p Reg.GUARD_STAT_ACTIVE 1
  let b := a.put p Reg.GUARD_STAT_TRIGGER code
  let c := (b.put p Reg.GUARD_STAT_UNIT unit).put p Reg.GUARD_STAT_STAGE 0
  have hfld : ∀ g : Fld, (s.guardTaken p code unit first).get p g = c.get p g := fun g => (by cases p <;> rfl)
  have hrest : Writes p [Reg.GUARD_STAT_UNIT, Reg.GUARD_STAT_STAGE] b c :=
    ((Writes.refl p [Reg.GUARD_STAT_UNIT, Reg.GUARD_STAT_STAGE] b).put Reg.GUARD_STAT_UNIT unit).put Reg.GUARD_STAT_STAGE 0
  have hall : Writes p [Reg.GUARD_STAT_ACTIVE, Reg.GUARD_STAT_TRIGGER, Reg.GUARD_STAT_UNIT, Reg.GUARD_STAT_STAGE] s c :=
    ((((Writes.refl p [Reg.GUARD_STAT_ACTIVE, Reg.GUARD_STAT_TRIGGER, Reg.GUARD_STAT_UNIT, Reg.GUARD_STAT_STAGE] s).put Reg.GUARD_STAT_ACTIVE 1).put Reg.GUARD_STAT_TRIGGER code).put
      Reg.GUARD_STAT_UNIT unit).put Reg.GUARD_STAT_STAGE 0
  refine ⟨?_, ?_⟩
  · rw [hfld, hrest.get Reg.GUARD_STAT_TRIGGER (by decide) (by decide), get_put_same a p Reg.GUARD_STAT_TRIGGER code (by decide) (by decide)]
    exact Nat.mod_eq_of_lt hc
  · unfold State.bit
    rw [hfld, hall.get Reg.GUARD_STAT_DUMP_VALID (by decide) (by decide)]

/-- A dump that begins shows as busy. -/
theorem guardDump_begins {v : State} (code unit : Nat) (hd : v.bit p Reg.GUARD_STAT_DUMP_VALID = false) :
    (v.guardDump p code unit).get p Reg.GUARD_STAT_TRIGGER = v.get p Reg.GUARD_STAT_TRIGGER ∧ (v.guardDump p code unit).bit p Reg.GUARD_STAT_DUMP_BUSY = true
      ∧ (v.guardDump p code unit).seqState p = v.seqState p := by
  let w : State := { v with draws := v.draws + 1 }
  have hu : ∃ f, v.guardDump p code unit = (w.put p Reg.GUARD_STAT_DUMP_BUSY 1).modGuard p f := ⟨_, if_neg (by simp [hd])⟩
  obtain ⟨f, hu⟩ := hu
  have hfld : ∀ g : Fld, (v.guardDump p code unit).get p g = (w.put p Reg.GUARD_STAT_DUMP_BUSY 1).get p g := fun g => by
    rw [hu]
    cases p <;> rfl
  refine ⟨?_, ?_, ?_⟩
  · rw [hfld]
    exact (get_put_other w p Reg.GUARD_STAT_DUMP_BUSY Reg.GUARD_STAT_TRIGGER 1 (by decide) (by decide) (by decide) (by decide)).trans (by cases p <;> rfl)
  · unfold State.bit
    rw [hfld]
    exact congrArg (fun n => n != 0) ((get_put_same w p Reg.GUARD_STAT_DUMP_BUSY 1 (by decide) (by decide)).trans rfl)
  · unfold State.seqState
    rw [hfld]
    exact (get_put_offs w p p Reg.GUARD_STAT_DUMP_BUSY Reg.SEQ_STAT_STATE 1 (by decide)).trans (by cases p <;> rfl)

/-- A guard that is free takes a trigger and begins its dump (R422, R426). -/
theorem guardTrigger_dumps (code unit first : Nat) (ran : Bool) (hg : s.guardActive p = false) (hd : s.bit p Reg.GUARD_STAT_DUMP_VALID = false) (hc : code < 16) : let u := s.guardTrigger p code unit first ran
    u.seqState p = s.seqState p ∧ u.get p Reg.GUARD_STAT_TRIGGER = code ∧ u.bit p Reg.GUARD_STAT_DUMP_BUSY = true := by
  let t := s.guardTaken p code unit first
  let v := if p == .el && (ran || t.seqState p == 3 || t.seqState p == 4) then t.guardFail else t
  have hcore : v.core = t.core := by
    show (if _ then t.guardFail else t).core = _
    split
    · exact core_guardFail t
    · rfl
  have hget : ∀ g : Fld, v.get p g = t.get p g := fun g => congrArg (fun w => fget w g.hi g.lo) (reg_of_core hcore p g.off)
  obtain ⟨htrig, hvalid⟩ := guardTaken_reads s p code unit first hc
  have hv : v.bit p Reg.GUARD_STAT_DUMP_VALID = false := (congrArg (fun n => n != 0) (hget _)).trans (hvalid.trans hd)
  obtain ⟨h1, h2, h3⟩ := guardDump_begins p code unit hv
  have hu : s.guardTrigger p code unit first ran = v.guardDump p code unit := guardTrigger_of_free code unit first ran hg
  rw [hu]
  exact ⟨h3.trans ((hget _).trans (stays_guardTaken s p code unit first).state), h1.trans ((hget _).trans htrig), h2⟩

/-- A word that stays bad ends the program in FAULT and is the guard's trigger PROG_PARITY (R159). -/
def State.parityFault (s : State) (p : Part) (slot : Nat) : State :=
  ((s.log p (unitSeq p) 0x8082 (s.pc p) (s.pc p * bundleBytes p + 8 * slot)).toFault p).guardTrigger p 4 (unitSeq p) 2 true

theorem exec_progRefetch_bad (slot : Fin 8) (h : s.seqState p = 3) : exec (.progRefetch p slot false) s = .next ((s.draw.2.slip p s.draw.1.toNat).parityFault p slot) :=
  (if_neg (not_not_intro h)).trans ((if_neg (by decide)).trans (by unfold State.parityFault; rfl))

theorem exec_progRefetch_good (slot : Fin 8) (h : s.seqState p = 3) : exec (.progRefetch p slot true) s = .next (match p with
    | .el => (s.draw.2.slip p s.draw.1.toNat).modEl (fun e => { e with hbCounts := { e.hbCounts with parity := e.hbCounts.parity + 1 } })
    | .ux => s.draw.2.slip p s.draw.1.toNat) := by
  cases p <;> exact (if_neg (not_not_intro h)).trans (if_pos rfl)

theorem slip_reads (n : Nat) : (s.slip p n).pc p = s.pc p ∧ (s.slip p n).guardActive p = s.guardActive p ∧ (s.slip p n).bit p Reg.GUARD_STAT_DUMP_VALID = s.bit p Reg.GUARD_STAT_DUMP_VALID := by
  have h : ∀ g : Fld, g.off ≠ 0x2040 → (s.slip p n).get p g = s.get p g := fun g hg => (get_put_offs _ p p Reg.SEQ_SLIPS_SEGMENT g _ hg).trans (get_put_offs s p p Reg.SEQ_SLIPS_STEP g _ hg)
  exact ⟨h _ (by decide), congrArg (fun n => n != 0) (h Reg.GUARD_STAT_ACTIVE (by decide)), congrArg (fun n => n != 0) (h Reg.GUARD_STAT_DUMP_VALID (by decide))⟩

theorem toFault_reads : (s.toFault p).seqState p = 5 ∧ (∀ g : Fld, g.off ≠ 0x2008 → (s.toFault p).get p g = s.get p g) ∧ ((s.toFault p).base p).events = (s.base p).events := by
  refine ⟨?_, fun g hg => ?_, (events_modSeq ..).trans (events_put ..)⟩
  · exact (show (s.toFault p).seqState p = (s.setSeqState p 5).seqState p by cases p <;> rfl).trans (seqState_setSeqState s p 5 (by decide))
  · exact (show (s.toFault p).get p g = (s.setSeqState p 5).get p g by cases p <;> rfl).trans (get_put_offs s p p Reg.SEQ_STAT_STATE g 5 hg)

theorem parityFault_leaves (slot : Nat) : (∃ es, Logged p s (s.parityFault p slot) ((unitSeq p, 0x8082, s.pc p, s.pc p * bundleBytes p + 8 * slot) :: es))
    ∧ (s.guardActive p = false → s.bit p Reg.GUARD_STAT_DUMP_VALID = false →
      (s.parityFault p slot).seqState p = 5 ∧ (s.parityFault p slot).get p Reg.GUARD_STAT_TRIGGER = 4 ∧ (s.parityFault p slot).bit p Reg.GUARD_STAT_DUMP_BUSY = true) := by
  let a := s.log p (unitSeq p) 0x8082 (s.pc p) (s.pc p * bundleBytes p + 8 * slot)
  obtain ⟨hst, hget, hev⟩ := toFault_reads a p
  have ha : ∀ g : Fld, a.get p g = s.get p g := fun g => congrArg (fun w => fget w g.hi g.lo) (reg_of_core (core_log ..) p g.off)
  refine ⟨?_, fun hg hd => ?_⟩
  · obtain ⟨es, he⟩ := exists_logged_of_keeps p (keeps_guardTrigger (p := p) (code := 4) (unit := unitSeq p) (first := 2) (ran := true) (keeps_refl (a.toFault p)))
    exact ⟨es, ((logged_log (unitSeq p) 0x8082 (s.pc p) (s.pc p * bundleBytes p + 8 * slot) rfl).congr hev).trans he⟩
  · obtain ⟨h1, h2, h3⟩ := guardTrigger_dumps (a.toFault p) p 4 (unitSeq p) 2 true (((congrArg (fun n => n != 0) ((hget Reg.GUARD_STAT_ACTIVE (by decide)).trans (ha _))) :).trans hg)
      (((congrArg (fun n => n != 0) ((hget Reg.GUARD_STAT_DUMP_VALID (by decide)).trans (ha _))) :).trans hd) (by decide)
    exact ⟨h1.trans hst, h2, h3⟩

/-- A refetch that stays bad (R159): the slip of its hold, then the fault. -/
theorem progRefetch_bad (slot : Fin 8) (h : s.seqState p = 3) : Ends (.progRefetch p slot false) s (fun u => (∃ es, Logged p s u ((unitSeq p, 0x8082, s.pc p, s.pc p * bundleBytes p + 8 * slot) :: es))
    ∧ (s.guardActive p = false → s.bit p Reg.GUARD_STAT_DUMP_VALID = false → u.seqState p = 5 ∧ u.get p Reg.GUARD_STAT_TRIGGER = 4 ∧ u.bit p Reg.GUARD_STAT_DUMP_BUSY = true)) := by
  let d := s.draw.2
  let v := d.slip p s.draw.1.toNat
  refine ⟨_, exec_progRefetch_bad s p slot h, ?_⟩
  obtain ⟨hpc, hga, hdv⟩ := slip_reads d p s.draw.1.toNat
  obtain ⟨⟨es, he⟩, hf⟩ := parityFault_leaves v p slot
  have hev : Logged p s v [] := logged_nil ((events_slip ..).trans (by cases p <;> rfl))
  have hdr : ∀ g : Fld, d.get p g = s.get p g := fun g => by cases p <;> rfl
  refine ⟨⟨es, ?_⟩, fun hg hd => hf (hga.trans ((congrArg (fun n => n != 0) (hdr Reg.GUARD_STAT_ACTIVE) :).trans hg)) (hdv.trans ((congrArg (fun n => n != 0) (hdr Reg.GUARD_STAT_DUMP_VALID) :).trans hd))⟩
  have hpcs : v.pc p = s.pc p := hpc.trans (hdr _)
  rw [hpcs] at he
  exact hev.trans he

end

/-! ### The obligation -/

/-- Settles O39: loads, unloads, refetches and starts, each by the branch it takes. -/
theorem imagesAndStarts : Obligations.ImagesAndStarts := by
  unfold Obligations.ImagesAndStarts
  refine ⟨fun p slot ok s => ?_, fun s => ?_⟩
  · refine ⟨fun hm hs hf => ⟨_, (exec_load s p).trans (congrArg Host.Outcome.next (loadStart_starts s p hm hs hf)), loading_leaves s p⟩, fun hm h => ?_, fun hm => ?_, exec_imageLoadEnd_not s p ok, fun h hc => ?_, fun h hc => ?_,
      fun hm => ?_, seqUnload_empties s p, fun hm h2 h5 => ?_, fun h => ?_, fun h hp => ?_, fun h hp => ?_, progRefetch_bad s p slot⟩
    · exact goes_loadRefuse s p s [] rfl (logged_nil rfl) ((exec_load s p).trans (congrArg Host.Outcome.next (loadStart_refuses s p hm h)))
    · exact goes_loadRefuse s p _ [(unitMan p, 0x9003, 0x2000, 0x2000)] (core_log ..) (logged_log _ _ _ _ rfl) ((exec_load s p).trans (congrArg Host.Outcome.next (loadStart_armed s p hm)))
    · obtain ⟨h1, h2, h3, h4, h5, h6⟩ := loadDone_leaves (s.channelFreed p) p (s.loadImage p)
      obtain ⟨hfree, hev⟩ := channelFreed_leaves s p
      refine ⟨_, (exec_imageLoadEnd s p ok h).trans (congrArg Host.Outcome.next (if_pos hc)), h1, h2, h3, h4, fun hp => ?_, ?_⟩
      · exact (congrArg (fun w => fget w _ _) (h5 _ (by decide))).trans (hfree hp)
      · exact (logged_nil (hev p)).trans h6
    · obtain ⟨h1, h2, h3, h4, h5, h6⟩ := loadFail_leaves (s.channelFreed p) p (s.loadCause p ok) (Nat.lt_of_le_of_lt (loadCause_le s p ok) (by decide))
      obtain ⟨_, hev⟩ := channelFreed_leaves s p
      exact ⟨_, (exec_imageLoadEnd s p ok h).trans (congrArg Host.Outcome.next (if_neg hc)), h1, h2, h3, h4, h5, (logged_nil (hev p)).trans h6⟩
    · exact goes_of _ (if_pos hm) (core_log ..) (logged_log _ _ _ _ rfl)
    · exact (if_neg hm).trans (congrArg Host.Outcome.next (if_neg (fun h => h.elim h2 h5)))
    · exact if_pos h
    · subst hp
      exact exec_progRefetch_good s .ux slot h
    · subst hp
      exact exec_progRefetch_good s .el slot h
  · refine ⟨fun h1 h2 => ?_, fun hm => ⟨fun hg hr hl he => ⟨fun h2 ht => ?_, fun h => ?_, fun h => ?_⟩, fun h => ?_⟩, fun h => ⟨_, rfl, treeStart_starts s h⟩, fun h => ?_⟩
    · exact goes_of _ (if_neg (fun h => h.elim h1 h2)) (core_log ..) (logged_log _ _ _ _ rfl)
    · have hfree := stepLaunch_free s (s.tbNow .el 0) (s.tbNow .el 0) (startBarred_false s hg hr hl he)
      have hst := stepStart_started s (s.tbNow .el 0) (s.tbNow .el 0)
      refine ⟨_, (if_pos hm).trans (congrArg Host.Outcome.next (hfree.trans ((if_pos h2).trans (if_neg (by rw [ht]; decide))))), hst.state, hst.pc, hst.cur, hst.next, hst.gregs, fun c _ => hst.flags c, hst.views, hst.tStep⟩
    · have hfree := stepLaunch_free s (s.tbNow .el 0) (s.tbNow .el 0) (startBarred_false s hg hr hl he)
      refine (if_pos hm).trans (congrArg Host.Outcome.next (hfree.trans ?_))
      rcases h with ⟨h, ht⟩ | h | h
      · exact (if_pos h).trans (if_pos ht)
      · exact (if_neg (by omega)).trans (if_pos (by simp [h]))
      · exact (if_neg (by omega)).trans (if_pos (by simp [h]))
    · have hfree := stepLaunch_free s (s.tbNow .el 0) (s.tbNow .el 0) (startBarred_false s hg hr hl he)
      refine ⟨_, (if_pos hm).trans (congrArg Host.Outcome.next (hfree.trans ((if_neg (by omega)).trans (if_neg ?_)))), stepMissed_leaves s⟩
      rcases h with h | h | h <;> simp [h]
    · exact ⟨_, (if_pos hm).trans (congrArg Host.Outcome.next (stepLaunch_barred s _ _ (startBarred_true s h))), stepMissed_leaves s⟩
    · exact goes_of _ (congrArg Host.Outcome.next (if_neg h)) (core_log ..) (logged_log _ _ _ _ rfl)

end Sys2Proof.Machine

/-! SUPPORT. A barrier timeout at a leaf reports its missing die as a suspect, which shows in the die's own register (R232, R326). -/

namespace Sys2Proof.Machine

set_option Elab.async false

/-- A leaf whose node 0 waits for the one member die, and that die, ACTIVE on its first lane. -/
def awaitedDie : State :=
  ((State.reset.put .el (Reg.LANE_STAT_STATE (laneBlk .el 0)) 4).modUx (fun u => { u with members := [(0, 3)] })).setNode 0 { BarNode.zero with isOpen := true, expect := [0] }

/-- The membership code the die shows after an outcome. -/
def shownCode (o : Out) : Nat :=
  match o with
  | .next u => u.get .el Reg.HC_STAT_STATE
  | _ => 0

/-- Refutes O45: no TBAR waits at the node, yet the timeout changes the die: its leaf makes it SUSPECT, and EL_HC_STAT.STATE follows, 0 before and 4 after. -/
theorem not_nodeBarriers : ¬ Obligations.NodeBarriers := by
  unfold Obligations.NodeBarriers
  intro h
  obtain ⟨-, -, -, -, -, htimeout, -⟩ := h 0 0 0 0 0 awaitedDie
  obtain ⟨u, hu, -, hel, -⟩ := htimeout (by decide +kernel) (by decide +kernel)
  have hafter : shownCode (exec (.barNodeTimeout 0) awaitedDie) = 4 := by decide +kernel
  have hbefore : awaitedDie.get .el Reg.HC_STAT_STATE = 0 := by decide +kernel
  rw [hu] at hafter
  have hsame : u.get .el Reg.HC_STAT_STATE = awaitedDie.get .el Reg.HC_STAT_STATE := by
    unfold State.get State.reg State.base
    rw [hel (by decide +kernel)]
  rw [hbefore] at hsame
  exact absurd (hsame.symm.trans hafter) (by decide)

end Sys2Proof.Machine

/-! SUPPORT. Messages of a Uhloux chip: what telling its neighbours leaves alone, and what its place in the tree depends on. -/

namespace Sys2Proof.Machine

set_option Elab.async false

/-! ### Messages that leave a chip -/

/-- Messages of the chip have joined its lanes, and nothing else has changed. -/
structure Told (s t : State) : Prop where
  el     : t.el = s.el
  core   : t.core = s.core
  events : ∀ q, (t.base q).events = (s.base q).events

theorem el_modLane_ux (s : State) (x : Nat) (f : Lane → Lane) : (s.modLane .ux x f).el = s.el := rfl

theorem el_sendOne_ux (s : State) (x : Nat) (m : Msg) : (s.sendOne .ux x m).el = s.el := by
  unfold State.sendOne
  dsimp only
  split <;> rfl

theorem el_send_ux (s : State) (x : Nat) (m : Msg) : (s.send .ux x m).el = s.el := by
  unfold State.send
  dsimp only
  split
  · rw [el_sendOne_ux, el_sendOne_ux]
  · exact el_sendOne_ux ..

namespace Told

variable {s t u : State}

theorem refl (s : State) : Told s s := ⟨rfl, rfl, fun _ => rfl⟩

theorem trans (h : Told s t) (k : Told t u) : Told s u := ⟨k.el.trans h.el, k.core.trans h.core, fun q => (k.events q).trans (h.events q)⟩

theorem ite {a b : State} {c : Prop} [Decidable c] (ha : Told s a) (hb : Told s b) : Told s (if c then a else b) := by
  split
  · exact ha
  · exact hb

theorem send (h : Told s t) (x : Nat) (m : Msg) : Told s (t.send .ux x m) := h.trans ⟨el_send_ux .., core_send .., fun _ => events_send ..⟩

theorem sendUp (h : Told s t) (m : Msg) : Told s (t.sendUp .ux m) := by
  unfold State.sendUp
  split
  · exact h.send ..
  · exact h

theorem foldl {α : Type} (h : Told s t) (l : List α) (f : State → α → State) (hf : ∀ u x, Told s u → Told s (f u x)) : Told s (l.foldl f t) :=
  List.foldlRecOn (motive := Told s) _ _ h (fun u hu x _ => hf u x hu)

theorem sendDown (h : Told s t) (xs : List Nat) (m : Msg) : Told s (t.sendDown xs m) := h.foldl _ _ (fun _ _ hu => .ite (hu.send ..) hu)

theorem toTwin (h : Told s t) (m : Msg) : Told s (t.toTwin m) := by
  unfold State.toTwin
  split
  · exact h.send ..
  · exact h

theorem toPartner (h : Told s t) (m : Msg) : Told s (t.toPartner m) := by
  unfold State.toPartner
  split
  · exact h.send ..
  · exact h

theorem toAuthority (h : Told s t) (m : Msg) : Told s (t.toAuthority m) := .ite (h.toTwin m) (h.sendUp m)

theorem reg (h : Told s t) (q : Part) (o : Nat) : t.reg q o = s.reg q o := reg_of_core h.core q o

theorem get (h : Told s t) (q : Part) (f : Fld) : t.get q f = s.get q f := congrArg (fun w => fget w _ _) (h.reg q f.off)

theorem regs (h : Told s t) : RegsBut [] s t := fun q o _ => h.reg q o

theorem logged (h : Told s t) (p : Part) : Logged p s t [] := logged_nil (h.events p)

theorem regsBut {ex : List (Part × Nat)} (h : RegsBut ex s t) (k : Told t u) : RegsBut ex s u := h.core k.core

end Told

/-! ### A chip's place in the tree -/

/-- What the place of a chip and its members rest on. -/
structure SameChip (s t : State) : Prop where
  members : t.ux.members = s.ux.members
  role    : t.reg .ux 0x8 = s.reg .ux 0x8
  launch  : t.reg .ux 0x4008 = s.reg .ux 0x4008
  lock    : t.reg .ux 0x6080 = s.reg .ux 0x6080

theorem Told.sameChip {s t : State} (h : Told s t) : SameChip s t := ⟨(congrArg (fun u : State => u.ux.members) h.core :), h.reg .ux _, h.reg .ux _, h.reg .ux _⟩

namespace SameChip

variable {s t u : State}

theorem refl (s : State) : SameChip s s := ⟨rfl, rfl, rfl, rfl⟩

theorem trans (h : SameChip s t) (k : SameChip t u) : SameChip s u := ⟨k.members.trans h.members, k.role.trans h.role, k.launch.trans h.launch, k.lock.trans h.lock⟩

theorem setReg (h : SameChip s t) (o : Nat) (w : Word) (ho : o ≠ 0x8 ∧ o ≠ 0x4008 ∧ o ≠ 0x6080) : SameChip s (t.setReg .ux o w) :=
  h.trans ⟨rfl, reg_setReg_other t .ux o _ w (Ne.symm ho.1), reg_setReg_other t .ux o _ w (Ne.symm ho.2.1), reg_setReg_other t .ux o _ w (Ne.symm ho.2.2)⟩

theorem put (h : SameChip s t) (f : Fld) (v : Nat) (ho : f.off ≠ 0x8 ∧ f.off ≠ 0x4008 ∧ f.off ≠ 0x6080) : SameChip s (t.put .ux f v) := h.setReg _ _ ho

theorem modUx (h : SameChip s t) (f : Uhloux → Uhloux) (hb : (f t.ux).base = t.ux.base) (hm : (f t.ux).members = t.ux.members) : SameChip s (t.modUx f) := by
  have hr : ∀ o, (t.modUx f).reg .ux o = t.reg .ux o := fun o => reg_modUx t f .ux o (by rw [hb])
  exact h.trans ⟨hm, hr _, hr _, hr _⟩

theorem core (h : SameChip s t) (hc : u.core = t.core) : SameChip s u :=
  h.trans ⟨(congrArg (fun u : State => u.ux.members) hc :), reg_of_core hc .ux _, reg_of_core hc .ux _, reg_of_core hc .ux _⟩

theorem tier (h : SameChip s t) : t.tier = s.tier := by
  unfold State.tier State.get
  rw [show t.reg .ux Reg.UX_IDENT_ROLE_TIER.off = s.reg .ux Reg.UX_IDENT_ROLE_TIER.off from h.role]

theorem pos (h : SameChip s t) : t.get .ux Reg.UX_IDENT_ROLE_POS = s.get .ux Reg.UX_IDENT_ROLE_POS := congrArg (fun w => fget w _ _) h.role

theorem relays (h : SameChip s t) : t.relays = s.relays := by
  unfold State.relays State.get
  rw [h.tier, show t.reg .ux Reg.UX_IDENT_ROLE_PLANE.off = s.reg .ux Reg.UX_IDENT_ROLE_PLANE.off from h.role,
    show t.reg .ux Reg.UX_LAUNCH_CTRL_BAR_PLANE.off = s.reg .ux Reg.UX_LAUNCH_CTRL_BAR_PLANE.off from h.launch]

theorem childSubj (h : SameChip s t) (x : Nat) : t.childSubj x = s.childSubj x := by
  unfold State.childSubj State.pdiOf
  rw [h.tier, h.pos]

theorem lockLane (h : SameChip s t) (f : Fld) (hf : f.off = 0x6080) (x : Nat) : t.lockLane f x = s.lockLane f x := by
  unfold State.lockLane State.bit State.get
  rw [hf, show t.reg .ux Reg.UX_LOCK_CTRL_EN.off = s.reg .ux Reg.UX_LOCK_CTRL_EN.off from h.lock, show t.reg .ux Reg.UX_IDENT_ROLE_TIER.off = s.reg .ux Reg.UX_IDENT_ROLE_TIER.off from h.role, h.lock]

theorem memberPorts (h : SameChip s t) : t.memberPorts = s.memberPorts := by
  unfold State.memberPorts
  refine List.filter_congr (fun x _ => ?_)
  rw [h.members, h.childSubj, h.lockLane _ rfl]

end SameChip

theorem memberPorts_nodup (s : State) : s.memberPorts.Nodup := List.nodup_range.sublist List.filter_sublist

theorem memberPorts_lt {s : State} {x : Nat} (h : x ∈ s.memberPorts) : x < 128 := List.mem_range.mp (List.mem_filter.mp h).1

/-- A downlink learned, or a relayed one noted, changes nothing the chip shows. -/
theorem learnPort_leaves (s : State) (lane lsi : Nat) : ∃ l, s.learnPort lane lsi = s.modUx (fun u => { u with lsiPort := l }) := by
  unfold State.learnPort
  split
  · exact ⟨s.ux.lsiPort, rfl⟩
  · exact ⟨_, rfl⟩

end Sys2Proof.Machine

/-! SUPPORT. Launch requests at the root (R230, R234 to R236, R318, R344) and launches at a die (R150, R237, R238). -/

namespace Sys2Proof.Machine

set_option Elab.async false

/-! ### Credits an accepted launch consumes (R234) -/

/-- The register of a downlink's credits. -/
def credOff (x : Nat) : Nat := (Reg.LANE_CRED_CREDITS (laneBlk .ux x)).off

/-- A launch that pays for its downlinks: only their credits change. -/
structure Paid (l : List Nat) (s t : State) : Prop where
  regs    : ∀ o, (∀ x ∈ l, o ≠ credOff x) → t.reg .ux o = s.reg .ux o
  el      : t.el = s.el
  events  : (t.ux.base).events = s.ux.base.events
  held    : t.ux.pending = s.ux.pending ∧ t.ux.launched = s.ux.launched ∧ t.ux.members = s.ux.members

theorem credOff_inj {x y : Nat} (h : credOff x = credOff y) : x = y := by
  simp only [credOff, Reg.LANE_CRED_CREDITS, laneBlk] at h
  omega

theorem credOff_ge (x : Nat) : 0x40030 ≤ credOff x := by
  simp only [credOff, Reg.LANE_CRED_CREDITS, laneBlk]
  omega

theorem laneState_off_ne (x y : Nat) : (Reg.LANE_STAT_STATE (laneBlk .ux y)).off ≠ credOff x := by
  simp only [credOff, Reg.LANE_CRED_CREDITS, Reg.LANE_STAT_STATE, laneBlk]
  omega

section
variable (s : State) (x : Nat)

theorem launchPay_paid : Paid [x] s (s.launchPay x) := by
  unfold State.launchPay
  dsimp only
  split
  · exact ⟨fun _ _ => rfl, rfl, rfl, rfl, rfl, rfl⟩
  · refine ⟨fun o ho => ?_, rfl, rfl, rfl, rfl, rfl⟩
    exact (reg_of_core (core_modLane ..) .ux o).trans (reg_setReg_other s .ux (credOff x) o _ (ho x (List.mem_singleton.mpr rfl)))

theorem credit_launchPay (h : s.laneState .ux x = 4) : (s.launchPay x).credit .ux x 1 = s.credit .ux x 1 - 1 := by
  unfold State.launchPay
  dsimp only
  by_cases h0 : s.credit .ux x 1 = 0
  · rw [if_pos (by simp [h0]), h0]
  · rw [if_neg (by simp [h0, h])]
    have hlt := credit_lt s .ux x 1
    refine Eq.trans ?_ (credit_setCredit s .ux x 1 (by decide) (s.credit .ux x 1 - 1) (by omega))
    unfold State.credit
    rw [reg_of_core (core_modLane ..)]

theorem laneState_launchPay (y : Nat) : (s.launchPay x).laneState .ux y = s.laneState .ux y := by
  have h := (launchPay_paid s x).regs (Reg.LANE_STAT_STATE (laneBlk .ux y)).off (fun z hz => by
    rw [List.mem_singleton.mp hz]
    exact laneState_off_ne x y)
  unfold State.laneState State.get
  rw [h]

theorem credit_launchPay_other {y : Nat} (h : y ≠ x) : (s.launchPay x).credit .ux y 1 = s.credit .ux y 1 := by
  have h := (launchPay_paid s x).regs (credOff y) (fun z hz => by
    rw [List.mem_singleton.mp hz]
    exact fun e => h (credOff_inj e))
  exact congrArg (fun w => fget w _ _) h

theorem launchPays (l : List Nat) (hl : l.Nodup) (s : State) : Paid l s (l.foldl State.launchPay s)
    ∧ (∀ x ∈ l, s.laneState .ux x = 4 → (l.foldl State.launchPay s).credit .ux x 1 = s.credit .ux x 1 - 1) ∧ (∀ x, x ∉ l → (l.foldl State.launchPay s).credit .ux x 1 = s.credit .ux x 1) := by
  induction l generalizing s with
  | nil => exact ⟨⟨fun _ _ => rfl, rfl, rfl, rfl, rfl, rfl⟩, fun x hx => absurd hx (List.not_mem_nil), fun _ _ => rfl⟩
  | cons y r ih =>
    obtain ⟨hy, hr⟩ := List.nodup_cons.mp hl
    obtain ⟨hp, hin, hout⟩ := ih hr (s.launchPay y)
    have h1 := launchPay_paid s y
    refine ⟨⟨fun o ho => ?_, hp.el.trans h1.el, hp.events.trans h1.events, hp.held.1.trans h1.held.1, hp.held.2.1.trans h1.held.2.1, hp.held.2.2.trans h1.held.2.2⟩, fun x hx h4 => ?_, fun x hx => ?_⟩
    · exact (hp.regs o (fun x hx => ho x (List.mem_cons_of_mem _ hx))).trans (h1.regs o (fun x hx => ho x (List.mem_singleton.mp hx ▸ List.mem_cons_self)))
    · rcases List.mem_cons.mp hx with rfl | hx
      · exact (hout x hy).trans (credit_launchPay s x h4)
      · have hne : x ≠ y := fun e => hy (e ▸ hx)
        exact (hin x hx ((laneState_launchPay s y x).trans h4)).trans (congrArg (· - 1) (credit_launchPay_other s y hne))
    · rw [List.mem_cons, not_or] at hx
      exact (hout x hx.2).trans (credit_launchPay_other s y hx.1)
end

/-! ### The root's judgement (R236, R318, R344) -/

section
variable (s : State) (m : LaunchMsg) (lane : Nat)

/-- A step start too far ahead of the last seal (R318). -/
def State.launchAhead (s : State) : Bool := decide (s.get .ux Reg.UX_SEAL_CTRL_LAG < (s.reg .ux Reg.UX_SEAL_NEXT_NEXT.off - s.reg .ux Reg.UX_SEAL_STAT_LAST.off).toNat)

/-- A launch whose time cannot be met (R236). -/
def State.launchLate (s : State) (m : LaunchMsg) : Prop := s.tbState .ux 0 = 0 ∨ m.t < s.tbNow .ux 0 + psHxt s.dLaunch

/-- The identity waits for another launch (R236). -/
def State.launchUsed (s : State) (m : LaunchMsg) : Bool := s.pendingLaunches.any (fun l => l.lid == m.lid)

/-- How far a launch lies from now, as DETAIL shows it. -/
def State.launchDiff (s : State) (m : LaunchMsg) : Nat := unsigned 64 (psOf ((m.t : Int) - (s.tbNow .ux 0 : Int)))

/-- A refused request: its event, and the count. -/
def State.launchRefused (s : State) (unit code object detail : Nat) : State := (s.log .ux unit code object detail).count .ux Reg.UX_LAUNCH_CNT_REFUSED 1

/-- An accepted request, before the launch goes down. -/
def State.launchKept (s : State) (m : LaunchMsg) : State :=
  let t := (s.count .ux Reg.UX_LAUNCH_CNT_ACCEPTED 1).modUx (fun u => { u with pending := s.pendingLaunches ++ [m], launched := true })
  if m.start then t.setReg .ux Reg.UX_SEAL_NEXT_NEXT.off (s.reg .ux Reg.UX_SEAL_NEXT_NEXT.off + 1) else t

/-- An accepted request. -/
def State.launchAccepted (s : State) (m : LaunchMsg) : State :=
  ((s.launchKept m).memberPorts.foldl State.launchPay (s.launchKept m)).sendDown (s.launchKept m).memberPorts (.launch m)

theorem launchJudge_again (ht : s.tier = 2) (hp : s.ux.pending.contains m = true) : s.launchJudge m lane = (s, stOk) :=
  (if_neg (not_not_intro ht)).trans (if_pos hp)

theorem launchJudge_closed (ht : s.tier = 2) (hp : s.ux.pending.contains m = false) (hc : s.bit .ux Reg.UX_HC_STAT_GATE_CLOSED = true) :
    s.launchJudge m lane = (s.launchRefused 0x42 0x6007 m.lid.toNat m.lsi.toNat, stRefused) :=
  (if_neg (not_not_intro ht)).trans ((if_neg (by rw [hp]; decide)).trans (if_pos hc))

theorem launchJudge_ahead (ht : s.tier = 2) (hp : s.ux.pending.contains m = false) (hc : s.bit .ux Reg.UX_HC_STAT_GATE_CLOSED = false) (hs : m.start = true) (ha : s.launchAhead = true) :
    s.launchJudge m lane = (s.launchRefused 0x4C 0x5021 lane (s.reg .ux Reg.UX_SEAL_NEXT_NEXT.off).toNat, stRefused) :=
  (if_neg (not_not_intro ht)).trans ((if_neg (by rw [hp]; decide)).trans ((if_neg (by rw [hc]; decide)).trans (if_pos ⟨hs, of_decide_eq_true ha⟩)))

/-- The request neither finds the gate closed nor lies beyond LAG. -/
theorem launchJudge_within (ht : s.tier = 2) (hp : s.ux.pending.contains m = false) (hc : s.bit .ux Reg.UX_HC_STAT_GATE_CLOSED = false) (hs : m.start = false ∨ s.launchAhead = false) :
    s.launchJudge m lane = (if s.launchUsed m then (s.launchRefused 0x4C 0x3051 m.lid.toNat (s.launchDiff m), stRefused)
      else if s.tbState .ux 0 = 0 ∨ m.t < s.tbNow .ux 0 + psHxt s.dLaunch then (s.launchRefused 0x4C 0x3051 m.lid.toNat (s.launchDiff m), stLate) else (s.launchAccepted m, stOk)) := by
  refine (if_neg (not_not_intro ht)).trans ((if_neg (by rw [hp]; decide)).trans ((if_neg (by rw [hc]; decide)).trans ((if_neg ?_).trans rfl)))
  rintro ⟨h1, h2⟩
  rcases hs with h | h
  · rw [h] at h1
    exact absurd h1 (by decide)
  · exact of_decide_eq_false h h2

theorem launchJudge_unfit (ht : s.tier = 2) (hp : s.ux.pending.contains m = false) (hc : s.bit .ux Reg.UX_HC_STAT_GATE_CLOSED = false) (hs : m.start = false ∨ s.launchAhead = false)
    (h : s.launchUsed m = true ∨ s.launchLate m) : ∃ st, s.launchJudge m lane = (s.launchRefused 0x4C 0x3051 m.lid.toNat (s.launchDiff m), st) := by
  rw [launchJudge_within s m lane ht hp hc hs]
  by_cases hu : s.launchUsed m = true
  · exact ⟨_, if_pos hu⟩
  · exact ⟨_, (if_neg hu).trans (if_pos (h.resolve_left hu))⟩

theorem launchJudge_fit (ht : s.tier = 2) (hp : s.ux.pending.contains m = false) (hc : s.bit .ux Reg.UX_HC_STAT_GATE_CLOSED = false) (hs : m.start = false ∨ s.launchAhead = false)
    (hu : s.launchUsed m = false) (hl : ¬ s.launchLate m) : s.launchJudge m lane = (s.launchAccepted m, stOk) := by
  rw [launchJudge_within s m lane ht hp hc hs]
  exact (if_neg (by rw [hu]; decide)).trans (if_neg hl)

/-- What a refused request leaves, its answer sent. -/
theorem launchRefused_leaves (unit code object detail : Nat) (x : Nat) (a : Msg) : let u := (s.launchRefused unit code object detail).send .ux x a
    u.ux.pending = s.ux.pending ∧ RegsBut [(.ux, Reg.UX_LAUNCH_CNT_REFUSED.off)] s u ∧ u.el = s.el
      ∧ u.get .ux Reg.UX_LAUNCH_CNT_REFUSED = min (s.get .ux Reg.UX_LAUNCH_CNT_REFUSED + 1) (2 ^ 32 - 1) ∧ Logged .ux s u [(unit, code, object, detail)] := by
  let l := s.log .ux unit code object detail
  let v := s.launchRefused unit code object detail
  have hl : l.core = s.core := core_log ..
  have ht : Told v (v.send .ux x a) := (Told.refl v).send x a
  have hreg : RegsBut [(.ux, Reg.UX_LAUNCH_CNT_REFUSED.off)] s v := RegsBut.put (fun q o _ => reg_of_core hl q o) .ux Reg.UX_LAUNCH_CNT_REFUSED _ (List.mem_singleton.mpr rfl)
  have hg : l.get .ux Reg.UX_LAUNCH_CNT_REFUSED = s.get .ux Reg.UX_LAUNCH_CNT_REFUSED := congrArg (fun w => fget w _ _) (reg_of_core hl .ux _)
  refine ⟨(congrArg (fun u : State => u.ux.pending) ht.core :).trans (congrArg (fun u : State => u.ux.pending) hl :), ht.regsBut hreg, ht.el.trans rfl, (ht.get ..).trans ?_, ?_⟩
  · refine (get_put_same l .ux Reg.UX_LAUNCH_CNT_REFUSED _ (by decide) (by decide)).trans ?_
    rw [hg]
    show min (2 ^ 32 - 1) (s.get .ux Reg.UX_LAUNCH_CNT_REFUSED + 1) % 2 ^ 32 = _
    rw [Nat.min_comm]
    exact Nat.mod_eq_of_lt (Nat.lt_of_le_of_lt (Nat.min_le_right ..) (by decide))
  · exact ((logged_log unit code object detail rfl).congr (events_put ..)).congr (ht.events .ux)

/-- The registers an accepted request may change. -/
def launchRegs (ports : List Nat) : List (Part × Nat) :=
  [(.ux, Reg.UX_SEAL_NEXT_NEXT.off), (.ux, Reg.UX_LAUNCH_CNT_ACCEPTED.off)] ++ ports.map (fun x => (Part.ux, (Reg.LANE_CRED_CREDITS (laneBlk .ux x)).off))

theorem launchKept_leaves : let k := s.launchKept m
    k.ux.pending = s.pendingLaunches ++ [m] ∧ k.ux.launched = true ∧ k.el = s.el ∧ k.ux.base.events = s.ux.base.events ∧ SameChip s k
      ∧ k.reg .ux Reg.UX_SEAL_NEXT_NEXT.off = (if m.start then s.reg .ux Reg.UX_SEAL_NEXT_NEXT.off + 1 else s.reg .ux Reg.UX_SEAL_NEXT_NEXT.off)
      ∧ (∀ o, o ≠ Reg.UX_SEAL_NEXT_NEXT.off → o ≠ Reg.UX_LAUNCH_CNT_ACCEPTED.off → k.reg .ux o = s.reg .ux o) := by
  let c := s.count .ux Reg.UX_LAUNCH_CNT_ACCEPTED 1
  let f : Uhloux → Uhloux := fun u => { u with pending := s.pendingLaunches ++ [m], launched := true }
  let t := c.modUx f
  have hc : SameChip s c := (SameChip.refl s).put Reg.UX_LAUNCH_CNT_ACCEPTED _ ⟨by decide, by decide, by decide⟩
  have ht : SameChip s t := hc.modUx f rfl rfl
  have hreg : ∀ o, o ≠ Reg.UX_LAUNCH_CNT_ACCEPTED.off → t.reg .ux o = s.reg .ux o := fun o ho => (reg_modUx c f .ux o rfl).trans (reg_setReg_other s .ux _ o _ ho)
  have hk : s.launchKept m = if m.start then t.setReg .ux Reg.UX_SEAL_NEXT_NEXT.off (s.reg .ux Reg.UX_SEAL_NEXT_NEXT.off + 1) else t := rfl
  rw [hk]
  cases m.start with
  | false => exact ⟨rfl, rfl, rfl, rfl, ht, hreg _ (by decide), fun o _ h2 => hreg o h2⟩
  | true =>
    refine ⟨rfl, rfl, rfl, rfl, ht.setReg _ _ ⟨by decide, by decide, by decide⟩, reg_setReg_same .., fun o h1 h2 => ?_⟩
    exact (reg_setReg_other t .ux _ o _ h1).trans (hreg o h2)

/-- What an accepted request leaves, its answer sent. -/
theorem launchAccepted_leaves (x : Nat) (a : Msg) : let u := (s.launchAccepted m).send .ux x a
    u.ux.pending = s.pendingLaunches ++ [m] ∧ u.reg .ux Reg.UX_SEAL_NEXT_NEXT.off = (if m.start then s.reg .ux Reg.UX_SEAL_NEXT_NEXT.off + 1 else s.reg .ux Reg.UX_SEAL_NEXT_NEXT.off)
      ∧ u.ux.launched = true ∧ u.el = s.el ∧ (∀ x ∈ s.memberPorts, s.laneState .ux x = 4 → u.credit .ux x 1 = s.credit .ux x 1 - 1)
      ∧ RegsBut (launchRegs s.memberPorts) s u ∧ Logged .ux s u [] := by
  let k := s.launchKept m
  let d := k.memberPorts.foldl State.launchPay k
  obtain ⟨hpend, hlaun, hel, hev, hchip, hnext, hreg⟩ := launchKept_leaves s m
  have hports : k.memberPorts = s.memberPorts := hchip.memberPorts
  obtain ⟨hpaid, hin, _⟩ := launchPays k.memberPorts (memberPorts_nodup k) k
  have ht : Told d ((s.launchAccepted m).send .ux x a) := ((Told.refl d).sendDown k.memberPorts (.launch m)).send x a
  have hlow : ∀ o, o < 0x40030 → d.reg .ux o = k.reg .ux o := fun o ho => hpaid.regs o (fun y _ => by have := credOff_ge y; omega)
  refine ⟨(congrArg (fun u : State => u.ux.pending) ht.core :).trans (hpaid.held.1.trans hpend), (ht.reg ..).trans ((hlow _ (by decide)).trans hnext),
    (congrArg (fun u : State => u.ux.launched) ht.core :).trans (hpaid.held.2.1.trans hlaun), ht.el.trans (hpaid.el.trans hel), fun y hy h4 => ?_, fun q o ho => ?_, ?_⟩
  · have hne : ∀ f : Fld, 0x40000 ≤ f.off → k.reg .ux f.off = s.reg .ux f.off := fun f hf => hreg f.off (by simp only [Reg.UX_SEAL_NEXT_NEXT]; omega) (by simp only [Reg.UX_LAUNCH_CNT_ACCEPTED]; omega)
    have hst : k.laneState .ux y = 4 := (congrArg (fun w => fget w _ _) (hne (Reg.LANE_STAT_STATE (laneBlk .ux y)) (by simp only [Reg.LANE_STAT_STATE, laneBlk]; omega))).trans h4
    have hcr : k.credit .ux y 1 = s.credit .ux y 1 := congrArg (fun w => fget w _ _) (hne (Reg.LANE_CRED_CREDITS (laneBlk .ux y)) (by simp only [Reg.LANE_CRED_CREDITS, laneBlk]; omega))
    have hd := hin y (hports ▸ hy) hst
    rw [hcr] at hd
    exact (congrArg (fun w => fget w _ _) (ht.reg ..)).trans hd
  · refine (ht.reg q o).trans ?_
    cases q with
    | el => exact congrArg (fun e : Elesh => tget (resetWord .el o) e.base.regs o) (hpaid.el.trans hel)
    | ux =>
      rw [launchRegs, List.mem_append, not_or] at ho
      obtain ⟨h1, h2⟩ := ho
      refine (hpaid.regs o (fun y hy e => h2 (List.mem_map.mpr ⟨y, hports ▸ hy, by rw [e]; rfl⟩))).trans (hreg o (fun e => h1 ?_) (fun e => h1 ?_))
      · rw [e]
        exact List.mem_cons_self
      · rw [e]
        exact List.mem_cons_of_mem _ List.mem_cons_self
  · exact logged_nil ((ht.events .ux).trans (hpaid.events.trans hev))
end

/-! ### Launch requests -/

section
variable (m : LaunchMsg) (lane : Fin 160) (s : State)

theorem launchRequest_absorbed (h : s.absorbed lane = true) : exec (.launchRequest m lane) s = .next s := if_pos h

theorem launchRequest_below (ha : s.absorbed lane = false) (ht : s.tier ≠ 2) :
    exec (.launchRequest m lane) s = .next (if s.relays then ((s.learnPort lane m.lsi.toNat).relayNote lane).toTwin (.launchReq m) else (s.learnPort lane m.lsi.toNat).sendUp .ux (.launchReq m)) := by
  obtain ⟨l, hl⟩ := learnPort_leaves s lane m.lsi.toNat
  have hchip : SameChip s (s.learnPort lane m.lsi.toNat) := by
    rw [hl]
    exact (SameChip.refl s).modUx _ rfl rfl
  refine (if_neg (by rw [ha]; decide)).trans ((if_neg (fun h => ht (hchip.tier.symm.trans h))).trans ?_)
  rw [hchip.relays]
  split <;> rfl

theorem launchRequest_root (ha : s.absorbed lane = false) (ht : s.tier = 2) : exec (.launchRequest m lane) s =
    .next (((s.learnPort lane m.lsi.toNat).launchJudge m lane).1.send .ux lane (.launchAnswer m.lid ((s.learnPort lane m.lsi.toNat).launchJudge m lane).2)) := by
  obtain ⟨l, hl⟩ := learnPort_leaves s lane m.lsi.toNat
  have hchip : SameChip s (s.learnPort lane m.lsi.toNat) := by
    rw [hl]
    exact (SameChip.refl s).modUx _ rfl rfl
  exact (if_neg (by rw [ha]; decide)).trans (if_pos (hchip.tier.trans ht))

/-- A request refused at the root, whatever its status. -/
theorem launchRequest_refused (ha : s.absorbed lane = false) (ht : s.tier = 2) (unit code object detail : Nat)
    (hj : ∃ st, (s.learnPort lane m.lsi.toNat).launchJudge m lane = ((s.learnPort lane m.lsi.toNat).launchRefused unit code object detail, st)) :
    Ends (.launchRequest m lane) s (fun u => u.ux.pending = s.ux.pending ∧ RegsBut [(.ux, Reg.UX_LAUNCH_CNT_REFUSED.off)] s u ∧ u.el = s.el
      ∧ u.get .ux Reg.UX_LAUNCH_CNT_REFUSED = min (s.get .ux Reg.UX_LAUNCH_CNT_REFUSED + 1) (2 ^ 32 - 1) ∧ Logged .ux s u [(unit, code, object, detail)]) := by
  obtain ⟨st, hj⟩ := hj
  obtain ⟨l, hl⟩ := learnPort_leaves s lane m.lsi.toNat
  have he := launchRequest_root m lane s ha ht
  rw [hj] at he
  refine ⟨_, he, ?_⟩
  obtain ⟨h1, h2, h3, h4, h5⟩ := launchRefused_leaves (s.learnPort lane m.lsi.toNat) unit code object detail lane (.launchAnswer m.lid st)
  have hreg : ∀ q o, (s.learnPort lane m.lsi.toNat).reg q o = s.reg q o := fun q o => by
    rw [hl]
    cases q <;> rfl
  have hg : (s.learnPort lane m.lsi.toNat).get .ux Reg.UX_LAUNCH_CNT_REFUSED = s.get .ux Reg.UX_LAUNCH_CNT_REFUSED := congrArg (fun w => fget w _ _) (hreg .ux _)
  have hlog : Logged .ux s (s.learnPort lane m.lsi.toNat) [] := by
    rw [hl]
    exact logged_nil rfl
  refine ⟨h1.trans (by rw [hl]; rfl), fun q o ho => (h2 q o ho).trans (hreg q o), h3.trans (by rw [hl]; rfl), h4.trans (by rw [hg]), hlog.trans h5⟩

theorem launchRequest_accepted (ha : s.absorbed lane = false) (ht : s.tier = 2) (hj : (s.learnPort lane m.lsi.toNat).launchJudge m lane = ((s.learnPort lane m.lsi.toNat).launchAccepted m, stOk)) :
    Ends (.launchRequest m lane) s (fun u => u.ux.pending = s.pendingLaunches ++ [m]
      ∧ u.reg .ux Reg.UX_SEAL_NEXT_NEXT.off = (if m.start then s.reg .ux Reg.UX_SEAL_NEXT_NEXT.off + 1 else s.reg .ux Reg.UX_SEAL_NEXT_NEXT.off) ∧ u.ux.launched = true ∧ u.el = s.el
      ∧ (∀ x ∈ s.memberPorts, s.laneState .ux x = 4 → u.credit .ux x 1 = s.credit .ux x 1 - 1) ∧ RegsBut (launchRegs s.memberPorts) s u ∧ Logged .ux s u []) := by
  obtain ⟨l, hl⟩ := learnPort_leaves s lane m.lsi.toNat
  have he := launchRequest_root m lane s ha ht
  rw [hj] at he
  refine ⟨_, he, ?_⟩
  have h := launchAccepted_leaves (s.learnPort lane m.lsi.toNat) m lane (.launchAnswer m.lid stOk)
  have hreg : ∀ q o, (s.learnPort lane m.lsi.toNat).reg q o = s.reg q o := fun q o => by
    rw [hl]
    cases q <;> rfl
  have hports : (s.learnPort lane m.lsi.toNat).memberPorts = s.memberPorts := by
    rw [hl]
    exact ((SameChip.refl s).modUx _ rfl rfl).memberPorts
  have hpend : (s.learnPort lane m.lsi.toNat).pendingLaunches = s.pendingLaunches := by
    rw [hl]
    rfl
  have hlog : Logged .ux s (s.learnPort lane m.lsi.toNat) [] := by
    rw [hl]
    exact logged_nil rfl
  have hst : ∀ x, (s.learnPort lane m.lsi.toNat).laneState .ux x = s.laneState .ux x := fun x => congrArg (fun w => fget w _ _) (hreg .ux _)
  have hcr : ∀ x, (s.learnPort lane m.lsi.toNat).credit .ux x 1 = s.credit .ux x 1 := fun x => congrArg (fun w => fget w _ _) (hreg .ux _)
  obtain ⟨h1, h2, h3, h4, h5, h6, h7⟩ := h
  rw [hreg] at h2
  rw [hpend] at h1
  rw [hports] at h5 h6
  refine ⟨h1, h2, h3, h4.trans (by rw [hl]; rfl), fun x hx hx4 => ?_, fun q o ho => (h6 q o ho).trans (hreg q o), hlog.trans h7⟩
  exact (h5 x hx ((hst x).trans hx4)).trans (by rw [hcr])

/-- What the root's judgement reads is the same once the downlink of an LSI has been learned. -/
theorem learnPort_judged : let t := s.learnPort lane m.lsi.toNat
    t.tier = s.tier ∧ t.ux.pending = s.ux.pending ∧ t.bit .ux Reg.UX_HC_STAT_GATE_CLOSED = s.bit .ux Reg.UX_HC_STAT_GATE_CLOSED ∧ t.launchAhead = s.launchAhead ∧ t.launchUsed m = s.launchUsed m
      ∧ (t.launchLate m ↔ s.launchLate m) ∧ t.launchDiff m = s.launchDiff m ∧ t.reg .ux Reg.UX_SEAL_NEXT_NEXT.off = s.reg .ux Reg.UX_SEAL_NEXT_NEXT.off := by
  obtain ⟨l, hl⟩ := learnPort_leaves s lane m.lsi.toNat
  rw [hl]
  exact ⟨rfl, rfl, rfl, rfl, rfl, Iff.rfl, rfl, rfl⟩
end

/-! ### D_launch (R235) -/

section
variable (s : State) (reports : List (Nat × Nat))

/-- The reports of the nodes below, each the latest of its downlink. -/
def State.withReports (s : State) (reports : List (Nat × Nat)) : State := s.modUx (fun u => { u with downRep := reports.foldl (fun t r => tput 0 t r.1 r.2) u.downRep })

/-- The largest delay to a member below. -/
def State.mostDelay (s : State) : Nat := (s.memberPorts.map (fun x => s.get .ux (Reg.LANE_DELAY_D_PS (laneBlk .ux x)) + (if s.tier = 0 then 0 else tget 0 s.ux.downRep x))).foldl max 0

theorem dlaunch_root (h : s.tier = 2) : s.dlaunch reports = ((s.withReports reports).put .ux Reg.UX_LAUNCH_DL_DOWN_MAX ((s.withReports reports).mostDelay + 330000)).guardAdd := if_pos h

/-- Below the root the chip only reports. -/
theorem dlaunch_below (h : s.tier ≠ 2) : Told (s.withReports reports) (s.dlaunch reports) := by
  refine (show s.dlaunch reports = _ from if_neg h) ▸ ?_
  exact .ite ((Told.refl _).toTwin _) ((Told.refl _).sendUp _)

theorem dlaunch_leaves : (s.dlaunch reports).ux.downRep = (s.withReports reports).ux.downRep ∧ (s.dlaunch reports).el = s.el ∧ RegsBut [(.ux, Reg.UX_LAUNCH_DL_D_LAUNCH.off)] s (s.dlaunch reports) ∧ Logged .ux s (s.dlaunch reports) []
    ∧ (s.tier = 2 → (s.dlaunch reports).get .ux Reg.UX_LAUNCH_DL_DOWN_MAX = ((s.withReports reports).mostDelay + 330000) % 2 ^ 32
      ∧ (s.dlaunch reports).dLaunch = ((s.withReports reports).mostDelay + 330000 + 1000 * s.get .ux Reg.UX_LAUNCH_CTRL_GUARD) % 2 ^ 32) := by
  let w := s.withReports reports
  have hw : RegsBut [(.ux, Reg.UX_LAUNCH_DL_D_LAUNCH.off)] s w := fun q o _ => by cases q <;> rfl
  by_cases h : s.tier = 2
  · let d := w.put .ux Reg.UX_LAUNCH_DL_DOWN_MAX (w.mostDelay + 330000)
    have hmax : d.get .ux Reg.UX_LAUNCH_DL_DOWN_MAX = (w.mostDelay + 330000) % 2 ^ 32 := get_put_same w .ux Reg.UX_LAUNCH_DL_DOWN_MAX _ (by decide) (by decide)
    have hguard : d.get .ux Reg.UX_LAUNCH_CTRL_GUARD = s.get .ux Reg.UX_LAUNCH_CTRL_GUARD := (get_put_offs w .ux .ux Reg.UX_LAUNCH_DL_DOWN_MAX Reg.UX_LAUNCH_CTRL_GUARD _ (by decide)).trans rfl
    rw [dlaunch_root s reports h]
    refine ⟨rfl, rfl, (hw.put .ux Reg.UX_LAUNCH_DL_DOWN_MAX _ (List.mem_singleton.mpr rfl)).put .ux Reg.UX_LAUNCH_DL_D_LAUNCH _ (List.mem_singleton.mpr rfl), logged_nil rfl, fun _ => ⟨?_, ?_⟩⟩
    · exact (get_put_other d .ux Reg.UX_LAUNCH_DL_D_LAUNCH Reg.UX_LAUNCH_DL_DOWN_MAX _ (by decide) (by decide) (by decide) (by decide)).trans hmax
    · refine (get_put_same d .ux Reg.UX_LAUNCH_DL_D_LAUNCH _ (by decide) (by decide)).trans ?_
      rw [hmax, hguard]
      exact Nat.mod_add_mod ..
  · have ht := dlaunch_below s reports h
    exact ⟨(congrArg (fun u : State => u.ux.downRep) ht.core :), ht.el, ht.regsBut hw, (logged_nil rfl : Logged .ux s w []).trans (ht.logged .ux), fun h2 => absurd h2 h⟩
end

/-! ### Launches at a die (R237, R238) -/

section
variable (s : State) (m : LaunchMsg) (t a : Nat)

theorem startSide_stepMissed : s.stepMissed.el.startSide = s.el.startSide := by
  let l := s.log .el 0x01 0x8085 (s.pc .el) (s.seqState .el)
  have hl : l.el.startSide = s.el.startSide := (congrArg (fun v : State => v.el.startSide) (core_log s .el 0x01 0x8085 (s.pc .el) (s.seqState .el)) :)
  have hs : s.stepMissed = if l.bit .el Reg.HC_STAT_ROLLBACK then l else l.modEl (fun e => { e with hbCounts := { e.hbCounts with stepMissed := true } }) := rfl
  rw [hs]
  split
  · exact hl
  · exact hl

/-- A step start changes no launch that is held, and not the LAUNCH port. -/
theorem stepStart_launches : (s.stepStart t a).el.launches = s.el.launches ∧ (s.stepStart t a).el.ports.launch = s.el.ports.launch := by
  let b := (s.probTaken.stepNumbered).stepCleared t
  let c := b.stepPrepared
  let d := c.put .el Reg.SEQ_PC_PC (c.seq .el).entry
  let e := d.readyClosed
  let u := e.setSeqState .el 3
  have hp := probTaken_kept s
  have hc : StartKept b c := stepPrepared_kept b
  have he : StartKept d e := readyClosed_kept d
  have hu : StartKept u (s.stepStart t a) := .ite (.refl u) ((StartKept.refl u).anchorIssue t a)
  exact ⟨hu.launches.trans (he.launches.trans (hc.launches.trans hp.launches)), hu.port.trans (he.port.trans (hc.port.trans hp.port))⟩

theorem stepLaunch_launches : (s.stepLaunch t a).el.launches = s.el.launches ∧ (s.stepLaunch t a).el.ports.launch = s.el.ports.launch := by
  have hm := startSide_stepMissed s
  have hmissed : s.stepMissed.el.launches = s.el.launches ∧ s.stepMissed.el.ports.launch = s.el.ports.launch := ⟨congrArg (fun x => x.2.2.1) hm, congrArg (fun x => x.2.2.2) hm⟩
  unfold State.stepLaunch
  dsimp only
  split
  · exact hmissed
  · split
    · split
      · exact ⟨rfl, rfl⟩
      · exact stepStart_launches s t a
    · split
      · exact ⟨rfl, rfl⟩
      · exact hmissed

/-- A launch that fires: its groups are asserted, and it is no longer held. -/
def State.launchOut (s : State) (m : LaunchMsg) : State :=
  s.modEl (fun e => { e with ports := { e.ports with launch := e.ports.launch ||| BitVec.ofNat 16 (m.gmask.toNat &&& s.launchArm m.lid.toNat) }, launches := e.launches.filter (fun l => l.lid != m.lid) })

theorem launchNow_eq : s.launchNow m a = if m.start then (s.launchOut m).stepLaunch m.t a else s.launchOut m := rfl

theorem startBarred_congr {s t : State} (h : ∀ o, t.reg .el o = s.reg .el o) : t.startBarred = s.startBarred := by
  unfold State.startBarred State.guardActive State.expelled State.bit State.get
  rw [h, h, h, h]

/-- What a launch leaves as it fires. -/
theorem launchNow_leaves : let u := s.launchNow m a
    u.el.ports.launch = s.el.ports.launch ||| BitVec.ofNat 16 (m.gmask.toNat &&& s.launchArm m.lid.toNat) ∧ u.el.launches = s.el.launches.filter (fun l => l.lid != m.lid)
      ∧ (m.start = false → RegsBut [] s u)
      ∧ (m.start = true → s.startBarred = false → s.seqState .el = 2 → s.testRunning .el = false →
        u.seqState .el = 3 ∧ u.reg .el Reg.SEQ_STEP_CUR_CUR.off = s.reg .el Reg.SEQ_STEP_NEXT.off ∧ (u.seq .el).tStep = m.t) := by
  let o := s.launchOut m
  have ho : ∀ q off, o.reg q off = s.reg q off := fun q off => by cases q <;> rfl
  rw [launchNow_eq]
  cases hs : m.start with
  | false => exact ⟨rfl, rfl, fun _ q off _ => ho q off, fun h => absurd h (by decide)⟩
  | true =>
    obtain ⟨h1, h2⟩ := stepLaunch_launches o m.t a
    refine ⟨h2, h1, fun h => absurd h (by decide), fun _ hb h2 ht => ?_⟩
    have hfree := stepLaunch_free o m.t a ((startBarred_congr (ho .el)).trans hb)
    have hst : o.seqState .el = 2 := (seqState_congr (ho .el _)).trans h2
    have htest : o.testRunning .el = false := ht
    have hu : o.stepLaunch m.t a = o.stepStart m.t a := hfree.trans ((if_pos hst).trans (if_neg (by rw [htest]; decide)))
    have hstart := stepStart_started o m.t a
    rw [if_pos rfl, hu]
    exact ⟨hstart.state, hstart.cur.trans (ho .el _), hstart.tStep⟩

/-- A launch message is known. -/
def State.launchMet (s : State) (m : LaunchMsg) : State := s.modEl (fun e => { e with launchSeen := tput 0 e.launchSeen m.lid.toNat (m.t + 1) })

theorem launchTake_idle (h : s.expelled = true ∨ tget 0 s.el.launchSeen m.lid.toNat = m.t + 1) : s.launchTake m = s := by
  refine if_pos ?_
  rcases h with h | h
  · simp [h]
  · simp [h]

theorem launchTake_new (he : s.expelled = false) (hs : ¬ tget 0 s.el.launchSeen m.lid.toNat = m.t + 1) : s.launchTake m =
    if s.tbState .el 0 != 0 && decide (m.t < s.tbNow .el 0) then
      ((s.launchMet m).log .el 0x03 0x3050 m.lid.toNat (psOf ((s.tbNow .el 0 : Int) - (m.t : Int))).toNat).launchNow m (s.tbNow .el 0)
    else ((s.launchMet m).modEl (fun e => { e with launches := e.launches.filter (fun l => l.lid != m.lid) ++ [m] })).windowBound :=
  (if_neg (by simp [he, hs])).trans rfl

theorem windowBound_leaves : s.windowBound.el.launches = s.el.launches ∧ s.windowBound.el.ports = s.el.ports ∧ RegsBut [] s s.windowBound ∧ s.windowBound.el.base.events = s.el.base.events := by
  unfold State.windowBound
  split
  · split
    · exact ⟨rfl, rfl, fun q o _ => by cases q <;> rfl, rfl⟩
    · exact ⟨rfl, rfl, fun _ _ _ => rfl, rfl⟩
  · exact ⟨rfl, rfl, fun _ _ _ => rfl, rfl⟩

theorem launchTake_held (he : s.expelled = false) (hs : ¬ tget 0 s.el.launchSeen m.lid.toNat = m.t + 1) (hp : ¬ (s.tbState .el 0 ≠ 0 ∧ m.t < s.tbNow .el 0)) :
    (s.launchTake m).el.launches = s.el.launches.filter (fun l => l.lid != m.lid) ++ [m] ∧ (s.launchTake m).el.ports = s.el.ports ∧ RegsBut [] s (s.launchTake m) ∧ Logged .el s (s.launchTake m) [] := by
  let h := (s.launchMet m).modEl (fun e => { e with launches := e.launches.filter (fun l => l.lid != m.lid) ++ [m] })
  rw [launchTake_new s m he hs, if_neg (by simpa using hp)]
  obtain ⟨h1, h2, h3, h4⟩ := windowBound_leaves h
  exact ⟨h1, h2, fun q o ho => (h3 q o ho).trans (by cases q <;> rfl), logged_nil h4⟩

/-- A launch that comes too late fires at once (R238). -/
theorem launchTake_late (he : s.expelled = false) (hs : ¬ tget 0 s.el.launchSeen m.lid.toNat = m.t + 1) (hp : s.tbState .el 0 ≠ 0 ∧ m.t < s.tbNow .el 0) :
    ∃ l : State, (∀ q o, l.reg q o = s.reg q o) ∧ l.el.launches = s.el.launches ∧ l.el.ports.launch = s.el.ports.launch
      ∧ Logged .el s l [(0x03, 0x3050, m.lid.toNat, (psOf ((s.tbNow .el 0 : Int) - (m.t : Int))).toNat)] ∧ s.launchTake m = l.launchNow m (s.tbNow .el 0) := by
  refine ⟨(s.launchMet m).log .el 0x03 0x3050 m.lid.toNat (psOf ((s.tbNow .el 0 : Int) - (m.t : Int))).toNat, fun q o => ?_, ?_, ?_, logged_log _ _ _ _ rfl, (launchTake_new s m he hs).trans (if_pos (by simpa using hp))⟩
  · exact (reg_of_core (core_log ..) q o).trans (by cases q <;> rfl)
  · exact (congrArg (fun v : State => v.el.launches) (core_log (s.launchMet m) .el 0x03 0x3050 m.lid.toNat (psOf ((s.tbNow .el 0 : Int) - (m.t : Int))).toNat) :)
  · exact (congrArg (fun v : State => v.el.ports.launch) (core_log (s.launchMet m) .el 0x03 0x3050 m.lid.toNat (psOf ((s.tbNow .el 0 : Int) - (m.t : Int))).toNat) :)

theorem launchFire_at {lid : BitVec 8} {m : LaunchMsg} (h : s.el.launches.find? (fun l => l.lid == lid) = some m) :
    exec (.launchFire lid) s = .next (if s.tbReached .el 0 m.t && !s.expelled then s.launchNow m m.t else s) := by
  change execLaunchFire lid s = _
  unfold execLaunchFire
  rw [h]

theorem launchFire_none {lid : BitVec 8} (h : s.el.launches.find? (fun l => l.lid == lid) = none) : exec (.launchFire lid) s = .next s := by
  change execLaunchFire lid s = _
  unfold execLaunchFire
  rw [h]

theorem launchFire_expelled {lid : BitVec 8} (h : s.expelled = true) : exec (.launchFire lid) s = .next s := by
  cases hf : s.el.launches.find? (fun l => l.lid == lid) with
  | none => exact launchFire_none s hf
  | some m => exact (launchFire_at s hf).trans (congrArg Host.Outcome.next (if_neg (by simp [h])))

theorem launchMessage_ux : exec (.launchMessage ⟨.ux, m⟩) s = .next (if s.ux.relayFrom.isEmpty then s.sendDown s.memberPorts (.launch m) else (s.sendDown s.memberPorts (.launch m)).toTwin (.launch m)) := by
  have h : (s.sendDown s.memberPorts (.launch m)).ux.relayFrom = s.ux.relayFrom := (congrArg (fun u : State => u.ux.relayFrom) (core_sendDown s s.memberPorts (.launch m)) :)
  show Host.Outcome.next (if (s.sendDown s.memberPorts (.launch m)).ux.relayFrom.isEmpty then _ else _) = _
  rw [h]

/-- The condition under which a step start begins at once. -/
theorem startBarred_of_ready (he : s.expelled = false) (h : s.guardActive .el = false ∧ s.bit .el Reg.HC_STAT_ROLLBACK = false ∧ s.bit .el Reg.SEQ_RUNCFG_LSI_VALID = true ∧ s.seqState .el = 2 ∧ s.testRunning .el = false) :
    s.startBarred = false := by
  obtain ⟨hg, hr, hl, _⟩ := h
  unfold State.startBarred
  simp [hg, hr, hl, he]
end

/-! ### The obligation -/

/-- Settles O46: requests by the root's judgement, D_launch by its sum, a launch at a die by whether its time has passed. -/
theorem launches : Obligations.Launches := by
  unfold Obligations.Launches
  refine ⟨fun m lane reports s => ?_, fun lid m s => ?_⟩
  · obtain ⟨jt, jp, jc, ja, ju, jl, jd, jn⟩ := learnPort_judged m lane s
    refine ⟨launchRequest_absorbed m lane s, launchRequest_below m lane s, fun ha ht hp => ?_, fun ha ht hp => ⟨fun hc => ?_, fun hc hs hah => ?_, fun hc hs hul => ?_, fun hc hs hu hl => ?_⟩, ?_⟩
    · have hj := launchJudge_again (s.learnPort lane m.lsi.toNat) m lane (jt.trans ht) (jp ▸ hp)
      have he := launchRequest_root m lane s ha ht
      rw [hj] at he
      have htold := (Told.refl (s.learnPort lane m.lsi.toNat)).send lane (.launchAnswer m.lid stOk)
      obtain ⟨l, hl⟩ := learnPort_leaves s lane m.lsi.toNat
      refine ⟨_, he, (congrArg (fun u : State => u.ux.pending) htold.core :).trans jp, fun q o _ => (htold.reg q o).trans ?_, htold.el.trans ?_, (logged_nil ?_ : Logged .ux s (s.learnPort lane m.lsi.toNat) []).trans (htold.logged .ux)⟩
      all_goals rw [hl]
      · cases q <;> rfl
      · rfl
      · rfl
    · exact launchRequest_refused m lane s ha ht _ _ _ _ ⟨_, launchJudge_closed _ m lane (jt.trans ht) (jp ▸ hp) (jc.trans hc)⟩
    · have hj := launchJudge_ahead _ m lane (jt.trans ht) (jp ▸ hp) (jc.trans hc) hs (ja.trans hah)
      rw [jn] at hj
      exact launchRequest_refused m lane s ha ht _ _ _ _ ⟨_, hj⟩
    · obtain ⟨st, hj⟩ := launchJudge_unfit _ m lane (jt.trans ht) (jp ▸ hp) (jc.trans hc) (hs.imp_right ja.trans) (hul.imp ju.trans jl.mpr)
      rw [jd] at hj
      exact launchRequest_refused m lane s ha ht _ _ _ _ ⟨st, hj⟩
    · exact launchRequest_accepted m lane s ha ht (launchJudge_fit _ m lane (jt.trans ht) (jp ▸ hp) (jc.trans hc) (hs.imp_right ja.trans) (ju.trans hu) (fun h => hl (jl.mp h)))
    · have hd := dlaunch_leaves s (reports.map (fun r => (r.1.val, r.2.toNat)))
      exact ⟨_, rfl, hd⟩
  · refine ⟨launchMessage_ux s m, fun h => congrArg Host.Outcome.next (launchTake_idle s m h), launchFire_expelled s, fun he hs hp => ⟨_, rfl, launchTake_held s m he hs hp⟩, fun he hs hp => ?_, launchFire_none s, fun hf => ⟨fun hr => ?_, fun hr he => ?_⟩⟩
    · obtain ⟨l, hreg, hla, hpo, hlog, hu⟩ := launchTake_late s m he hs hp
      obtain ⟨h1, h2, h3, h4⟩ := launchNow_leaves l m (s.tbNow .el 0)
      have harm : l.launchArm m.lid.toNat = s.launchArm m.lid.toNat := congrArg (fun w => fget w _ _) (hreg .el _)
      refine ⟨⟨_, congrArg Host.Outcome.next hu, ?_, h2.trans (by rw [hla]), fun h q o ho => (h3 h q o ho).trans (hreg q o), fun h hr => ?_⟩, _, congrArg Host.Outcome.next hu, ?_⟩
      · rw [h1, hpo, harm]
      · have hb := (startBarred_congr (hreg .el)).trans (startBarred_of_ready s he hr)
        obtain ⟨k1, k2, k3⟩ := h4 h hb ((seqState_congr (hreg .el _)).trans hr.2.2.2.1) ((congrArg (fun w => fget w _ _ == 2) (hreg .el _)).trans hr.2.2.2.2)
        exact ⟨k1, k2.trans (hreg .el _), k3⟩
      · obtain ⟨es, hes⟩ := exists_logged_of_keeps .el (keeps_launchNow (m := m) (a := s.tbNow .el 0) (keeps_refl l))
        exact ⟨es, hlog.trans hes⟩
    · exact (launchFire_at s hf).trans (congrArg Host.Outcome.next (if_neg (by simp [hr])))
    · obtain ⟨h1, h2, h3, h4⟩ := launchNow_leaves s m m.t
      exact ⟨_, (launchFire_at s hf).trans (congrArg Host.Outcome.next (if_pos (by simp [hr, he]))), h1, h2, h3, fun h hr => h4 h (startBarred_of_ready s he hr) hr.2.2.2.1 hr.2.2.2.2⟩

end Sys2Proof.Machine

/-! SUPPORT. What an Elesh does by itself leaves the Uhloux chip as it is. -/

namespace Sys2Proof.Machine

set_option Elab.async false

/-- The Uhloux chip is the same. -/
structure OnDie (s t : State) : Prop where
  ux : t.ux = s.ux

namespace OnDie

variable {s t u : State}

theorem refl (s : State) : OnDie s s := ⟨rfl⟩

theorem trans (h : OnDie s t) (k : OnDie t u) : OnDie s u := ⟨k.ux.trans h.ux⟩

theorem ite {a b : State} {c : Prop} [Decidable c] (ha : OnDie s a) (hb : OnDie s b) : OnDie s (if c then a else b) := by
  split
  · exact ha
  · exact hb

theorem mod (h : OnDie s t) (f : Base → Base) : OnDie s (t.mod .el f) := ⟨h.ux⟩

theorem modEl (h : OnDie s t) (f : Elesh → Elesh) : OnDie s (t.modEl f) := ⟨h.ux⟩

theorem setReg (h : OnDie s t) (o : Nat) (w : Word) : OnDie s (t.setReg .el o w) := h.mod _

theorem put (h : OnDie s t) (f : Fld) (v : Nat) : OnDie s (t.put .el f v) := h.setReg _ _

theorem count (h : OnDie s t) (f : Fld) (n : Nat) : OnDie s (t.count .el f n) := h.put _ _

theorem modSeq (h : OnDie s t) (f : Seq → Seq) : OnDie s (t.modSeq .el f) := h.mod _

theorem modDma (h : OnDie s t) (ch : Nat) (f : Dma → Dma) : OnDie s (t.modDma ch f) := h.modEl _

theorem modGuard (h : OnDie s t) (f : Guard → Guard) : OnDie s (t.modGuard .el f) := h.mod _

theorem draw (h : OnDie s t) : OnDie s t.draw.2 := ⟨h.ux⟩

theorem send (h : OnDie s t) (x : Nat) (m : Msg) : OnDie s (t.send .el x m) := ⟨(ux_send_el t x m).trans h.ux⟩

theorem sendUp (h : OnDie s t) (m : Msg) : OnDie s (t.sendUp .el m) := ⟨(ux_sendUp_el t m).trans h.ux⟩

theorem logW (h : OnDie s t) (a b c d e : Nat) : OnDie s (t.logW .el a b c d e) := ⟨(ux_sendUp_el _ _).trans h.ux⟩

theorem log (h : OnDie s t) (a b c d : Nat) : OnDie s (t.log .el a b c d) := h.logW ..

theorem logI (h : OnDie s t) (a b c : Nat) (d : Int) : OnDie s (t.logI .el a b c d) := h.logW ..

theorem foldl {α : Type} (h : OnDie s t) (l : List α) (f : State → α → State) (hf : ∀ u x, OnDie u (f u x)) : OnDie s (l.foldl f t) :=
  List.foldlRecOn (motive := OnDie s) _ _ h (fun u hu x _ => hu.trans (hf u x))

/-! ### Failed operations and channels -/

theorem talLast (h : OnDie s t) (op pc st block : Nat) : OnDie s (t.talLast op pc st block) := .ite h (h.setReg ..)

theorem qfail (h : OnDie s t) (q : QueueId) (pc st : Nat) : OnDie s (t.qfail .el q pc st) :=
  ((((((h.put _ _).put _ _).put _ _).put _ _).put _ _).logW .. : OnDie s ((t.failNoted .el q pc st (t.failCount .el)).logW ..))

theorem wakeWatch (h : OnDie s t) (w kind : Nat) (eq : Bool) : OnDie s (t.wakeWatch w kind eq) := ⟨h.ux⟩

theorem watchKill (h : OnDie s t) : OnDie s t.watchKill := h.foldl _ _ (fun u _ => .ite ((refl u).wakeWatch ..) (refl u))

theorem watchTry (h : OnDie s t) (w : Nat) : OnDie s (t.watchTry w) := .ite (h.wakeWatch ..) h

theorem watchScan (h : OnDie s t) (keys : List Nat) : OnDie s (t.watchScan keys) := h.foldl _ _ (fun u _ => .ite ((refl u).watchTry _) (refl u))

theorem stepMissed (h : OnDie s t) : OnDie s t.stepMissed := by
  have hl : OnDie s (t.log .el 0x01 0x8085 (t.pc .el) (t.seqState .el)) := h.log ..
  exact .ite hl (hl.modEl _)

theorem cancelHeld (h : OnDie s t) : OnDie s t.cancelHeld := (h.modSeq (fun q => { q with heldStarts := [] })).foldl _ _ (fun u _ => (refl u).stepMissed)

/-! ### Step starts and READY -/

theorem probTaken (h : OnDie s t) : OnDie s t.probTaken := by
  unfold State.probTaken
  split
  · exact ((h.put Reg.CHK_REPEAT_K _).modEl (fun e => { e with probK := none })).log ..
  · exact h

theorem claims (h : OnDie s t) (k : ClaimsOnly t u) : OnDie s u := by
  obtain ⟨c, r, rfl⟩ := k
  exact h.modEl _

theorem landStale (h : OnDie s t) : OnDie s t.landStale := by
  unfold State.landStale
  dsimp only
  refine .ite (h.claims (.claimPump _)) ?_
  have hl : OnDie s (t.modEl (fun e => { e with land := e.land.filter (fun l => !(decide (l.step.toNat < t.stepCur))), landFull := false })).landShow := ((h.modEl _).put _ _).put _ _
  exact ((hl.claims (.claimWants ..)).put Reg.SYNC_STAT_LAND_STALE 1).foldl _ _ (fun u _ => (refl u).log ..)

theorem streamsReset (h : OnDie s t) : OnDie s t.streamsReset := by
  unfold State.streamsReset
  dsimp only
  exact ((h.foldl _ _ (fun u _ => ((refl u).setReg _ _).setReg _ _)).put _ _).modEl _

theorem spmPut (h : OnDie s t) (a : Nat) (w : Word) : OnDie s (t.spmPut a w) := by
  unfold State.spmPut
  dsimp only
  exact .ite (((h.modEl _).put _ _).log ..) (h.modEl _)

theorem emit (h : OnDie s t) (r : LedgerRec) : OnDie s (t.emit r) := (h.modEl _).sendUp _

theorem stepPrepared (h : OnDie s t) : OnDie s t.stepPrepared := by
  have h1 : OnDie s ((t.landStale.streamsReset.wdRestart .el 0x7F).emit t.stepRecord) := OnDie.emit (h.landStale.streamsReset.mod _) _
  have h2 : OnDie s ((t.landStale.streamsReset.wdRestart .el 0x7F).emit t.stepRecord).repeatWrite := h1.spmPut _ _
  exact ((((((h2.setReg _ _).setReg _ _).put _ _).put _ _).count _ _).count _ _).put _ _

theorem closeWindow (h : OnDie s t) : OnDie s (t.closeWindow .el) := (h.modSeq _).put _ _

theorem readyClosed (h : OnDie s t) : OnDie s t.readyClosed := by
  unfold State.readyClosed
  split
  · exact .ite h.closeWindow h
  · exact h

theorem anchorIssue (h : OnDie s t) (a b : Nat) : OnDie s (t.anchorIssue .el a b) := by
  unfold State.anchorIssue
  dsimp only
  have hp : OnDie s ((t.put .el Reg.SEQ_PC_ANCHOR (t.pc .el)).modSeq .el (fun q => { q with segNew := true })) := (h.put _ _).modSeq _
  exact .ite hp (.ite (hp.put _ _) (((hp.put _ _).log ..).modEl _))

theorem stepStart (h : OnDie s t) (a b : Nat) : OnDie s (t.stepStart a b) := by
  rw [stepStart_eq]
  have h0 : OnDie s ((t.probTaken.stepNumbered).stepCleared a) := (((h.probTaken.setReg _ _).setReg _ _).modSeq _).modEl _
  have h2 : OnDie s (((t.probTaken.stepNumbered).stepCleared a).stepPrepared.stepRunning) := ((h0.stepPrepared.put _ _).readyClosed).put _ _
  exact .ite h2 (h2.anchorIssue ..)

theorem heldRelease (h : OnDie s t) : OnDie s t.heldRelease := by
  unfold State.heldRelease
  split
  · exact (h.modSeq _).foldl _ _ (fun u _ => (refl u).stepMissed)
  · split
    · exact h
    · exact ((h.modSeq _).log ..).stepStart ..

theorem readyTry (h : OnDie s t) : OnDie s t.readyTry := by
  unfold State.readyTry
  dsimp only
  exact .ite ((h.modEl _).sendUp _) h

theorem enterReady (h : OnDie s t) : OnDie s (t.enterReady .el) := by
  have hr : OnDie s (t.setSeqState .el 2).heldRelease := (h.put _ _).heldRelease
  exact .ite (((hr.modSeq _).put _ _).readyTry) hr

theorem drainCheck (h : OnDie s t) : OnDie s (t.drainCheck .el) := .ite h.enterReady h

theorem endFail (h : OnDie s t) (o : QOp) (st : Nat) : OnDie s (t.endFail .el o st) :=
  ((((h.mod _ : OnDie s (t.dropOp .el o.id)).talLast _ _ _ _).qfail _ _ _).drainCheck)

/-! ### The step kill -/

theorem dmaEndFail (h : OnDie s t) (ch st : Nat) : OnDie s (t.dmaEndFail ch st) := by
  have hm : OnDie s (((t.put .el (Reg.DMA_STAT_STATE ch) 0).put .el (Reg.DMA_STAT_LEFT ch) 0).modDma ch (fun _ => Dma.zero)) := ((h.put _ _).put _ _).modDma _ _
  unfold State.dmaEndFail
  dsimp only
  split
  · split
    · exact hm.endFail _ _
    · exact hm
  · exact hm

theorem dmaWriteBack (h : OnDie s t) (ch st cause : Nat) : OnDie s (t.dmaWriteBack ch st cause) := by
  unfold State.dmaWriteBack
  dsimp only
  exact (((((((((h.mod _).mod _).put _ _).put _ _).put _ _).put _ _).count _ _).put _ _).modDma ch _)

theorem dmaAborted (h : OnDie s t) (ch : Nat) : OnDie s (t.dmaAborted ch) := by
  have h1 : OnDie s (if (t.dma ch).fetched then t.dmaWriteBack ch (t.dma ch).endSt (if (t.dma ch).busError then 1 else 0) else t) := .ite (h.dmaWriteBack ..) h
  exact ((h1.put (Reg.DMA_STAT_ABORT ch) 1).logW ..).dmaEndFail ..

theorem dmaAbort (h : OnDie s t) (ch st : Nat) : OnDie s (t.dmaAbort ch st) := by
  unfold State.dmaAbort
  dsimp only
  exact .ite (.ite ((h.modDma ch _).put _ _) ((h.modDma ch _).dmaAborted ch)) (.ite (h.modDma ch _) h)

theorem toFault (h : OnDie s t) : OnDie s (t.toFault .el) := (h.put _ _).modSeq _

theorem stepKill (h : OnDie s t) : OnDie s t.stepKill := by
  unfold State.stepKill
  dsimp only
  have h1 : OnDie s (if (t.seqState .el = 3 || t.seqState .el = 4) = true then t.toFault .el else t) := .ite h.toFault h
  have h2 := h1.foldl (List.range (if (t.seqState .el = 3 || t.seqState .el = 4) = true then t.toFault .el else t).el.lic.dmaCh) (fun t c => (t.modDma c (fun d => { d with qid := none })).dmaAbort c stAborted)
    (fun u c => ((refl u).modDma c _).dmaAbort c _)
  exact (((((h2.modEl _).foldl _ _ (fun u o => ((refl u).talLast ..).qfail ..)).put Reg.TAL_STAT_BUSY 0).watchKill).cancelHeld)

/-! ### The guard -/

theorem rbRequest (h : OnDie s t) (p : Part) : OnDie s (t.rbRequest p) := .ite ((h.modGuard _).modEl _) h

theorem guardEnd (h : OnDie s t) : OnDie s (t.guardEnd .el) := (((h.put _ _).modGuard _).modSeq _).rbRequest .el

theorem guardFail (h : OnDie s t) : OnDie s t.guardFail := (h.sendUp _).log ..

theorem elDomainReset (h : OnDie s t) (d : Nat) : OnDie s (t.elDomainReset d) := by
  unfold State.elDomainReset
  dsimp only
  split
  · exact ((h.modEl _).modSeq _).modEl _
  · exact ((h.modEl _).modEl _).modEl _
  · exact (h.modEl _).modEl _
  · exact (h.modEl _).modEl _
  · exact h.modEl _

theorem setDstate (h : OnDie s t) (d v : Nat) : OnDie s (t.setDstate .el d v) := h.put _ _

theorem stageStart (h : OnDie s t) (n : Nat) : OnDie s (t.stageStart .el n) := by
  have h0 : OnDie s ((t.put .el Reg.GUARD_STAT_STAGE n).modGuard .el (fun g => { g with phase := .stage n, done := [] })) := (h.put _ _).modGuard _
  unfold State.stageStart
  dsimp only
  refine .ite (h0.log ..) (.ite ?_ ?_)
  · exact .ite (h0.log ..) (OnDie.setDstate (OnDie.elDomainReset (.ite (h0.log ..).watchKill (h0.log ..)) _) _ _)
  · exact (((h0.log ..).put _ _).put _ _).watchKill.foldl _ _ (fun u d => ((refl u).elDomainReset d).setDstate _ _)

theorem guardProceed (h : OnDie s t) : OnDie s (t.guardProceed .el) := by
  unfold State.guardProceed
  dsimp only
  exact .ite (h.modGuard _) (.ite h.stepKill.guardEnd (h.stepKill.stageStart _))

theorem guardDump (h : OnDie s t) (code unit : Nat) : OnDie s (t.guardDump .el code unit) := by
  unfold State.guardDump
  exact .ite (((h.count _ _).log ..).guardProceed) (((⟨h.ux⟩ : OnDie s { t with draws := t.draws + 1 }).put _ _).modGuard _)

theorem guardTrigger (h : OnDie s t) (code unit first : Nat) (ran : Bool) : OnDie s (t.guardTrigger .el code unit first ran) := by
  by_cases hg : t.guardActive .el = true
  · have hc : OnDie s (t.count .el Reg.GUARD_STAT_LATER 1) := h.count _ _
    unfold State.guardTrigger
    rw [if_pos hg]
    dsimp only
    refine .ite ?_ hc
    have hm : OnDie s ((t.count .el Reg.GUARD_STAT_LATER 1).modGuard .el (fun g => { g with fclkLoss := true })) := hc.modGuard _
    split
    · exact .ite (hm.stageStart _) hm
    · exact hm
  · rw [guardTrigger_of_free code unit first ran (by simpa using hg)]
    have ht : OnDie s (t.guardTaken .el code unit first) :=
      (((((h.put _ _).put _ _).put _ _).put _ _).modGuard _).modSeq _
    exact (OnDie.ite ht.guardFail ht).guardDump _ _

theorem programFault (h : OnDie s t) : OnDie s (t.programFault .el) := .ite (h.toFault.guardTrigger ..) h

/-! ### Increments and the ends of operations -/

theorem cntAdd (h : OnDie s t) (i n : Nat) : OnDie s (t.cntAdd i n) := by
  unfold State.cntAdd
  exact .ite h (.ite (h.modEl _) (((h.modEl _).put _ _).log ..))

theorem pairTry (h : OnDie s t) (pr : Pair) : OnDie s (t.pairTry pr).1 := by
  unfold State.pairTry
  dsimp only
  split
  · exact (h.put _ _).logI ..
  · split
    · exact (h.put _ _).log ..
    · exact h

theorem pairCheck (h : OnDie s t) (keys : List Nat) : OnDie s (t.pairCheck keys).1 := by
  unfold State.pairCheck
  exact List.foldlRecOn (motive := fun a : State × Bool => OnDie s a.1) _ _ h (fun a ha pr _ => ha.pairTry pr)

theorem incAll (h : OnDie s t) (incs : List (Nat × Nat)) : OnDie s (t.incAll incs) := by
  have hr : OnDie s (t.incRaw incs).1 := by
    unfold State.incRaw
    dsimp only
    exact ((h.foldl _ _ (fun u _ => (refl u).cntAdd _ _)).pairCheck _).watchScan _
  exact .ite hr.programFault hr

theorem endOp_el (h : OnDie s t) (o : QOp) (st : Nat) (hq : queuePart o.queue = .el) : OnDie s (t.endOp o st) := by
  unfold State.endOp
  rw [hq]
  exact .ite (((h.mod _ : OnDie s (t.dropOp .el o.id)).incAll _).drainCheck) (h.endFail o st)

end OnDie

end Sys2Proof.Machine

/-! SUPPORT. Scalar reductions at a node (R239, R261 to R265), and what the end of an operation leaves of its slots and groups. -/

namespace Sys2Proof.Machine

set_option Elab.async false

/-! ### Open slots and groups -/

/-- An entry of a table by its key. -/
def entryAt {α : Type} (t : Tbl α) (k : Nat) : Option α := (t.find? (fun e => e.1 == k)).map Prod.snd

theorem slotAt_eq (t : Tbl Slot) (k : Nat) : slotAt t k = entryAt t k := by
  induction t with
  | nil => rfl
  | cons e r ih =>
    obtain ⟨i, v⟩ := e
    by_cases h : i = k
    · simp [slotAt, entryAt, h]
    · simpa [slotAt, entryAt, h] using ih

theorem groupAt_eq (t : Tbl XGroup) (k : Nat) : groupAt t k = entryAt t k := by
  induction t with
  | nil => rfl
  | cons e r ih =>
    obtain ⟨i, v⟩ := e
    by_cases h : i = k
    · simp [groupAt, entryAt, h]
    · simpa [groupAt, entryAt, h] using ih

theorem entryAt_terase {α : Type} (t : Tbl α) (k : Nat) : entryAt (terase t k) k = none := by
  have h : (terase t k).find? (fun e => e.1 == k) = none := List.find?_eq_none.mpr (fun e he => by
    have := (List.mem_filter.mp he).2
    simpa using this)
  unfold entryAt
  rw [h]
  rfl

theorem entryAt_tins {α : Type} (t : Tbl α) (k : Nat) (v : α) (h : entryAt t k = none) : entryAt (tins t k v) k = some v := by
  induction t with
  | nil => simp [entryAt, tins]
  | cons e r ih =>
    obtain ⟨i, w⟩ := e
    have hi : i ≠ k := fun hi => by simp [entryAt, hi] at h
    have hr : entryAt r k = none := by simpa [entryAt, hi] using h
    show entryAt (if k < i then (k, v) :: (i, w) :: r else (i, w) :: tins r k v) k = some v
    split
    · simp [entryAt]
    · simpa [entryAt, hi] using ih hr

theorem slotAt_terase (t : Tbl Slot) (k : Nat) : slotAt (terase t k) k = none := (slotAt_eq ..).trans (entryAt_terase ..)

theorem slotAt_replaced (t : Tbl Slot) (k : Nat) (v : Slot) : slotAt (tins (terase t k) k v) k = some v := (slotAt_eq ..).trans (entryAt_tins _ _ _ (entryAt_terase ..))

theorem groupAt_terase (t : Tbl XGroup) (k : Nat) : groupAt (terase t k) k = none := (groupAt_eq ..).trans (entryAt_terase ..)

theorem groupAt_replaced (t : Tbl XGroup) (k : Nat) (v : XGroup) : groupAt (tins (terase t k) k v) k = some v := (groupAt_eq ..).trans (entryAt_tins _ _ _ (entryAt_terase ..))

/-! ### What the end of an operation leaves -/

/-- Slots, groups and barrier nodes stand. -/
structure TreeKept (s t : State) : Prop where
  slots  : t.ux.slots = s.ux.slots
  groups : t.ux.groups = s.ux.groups
  bars   : t.ux.bars = s.ux.bars

namespace TreeKept

variable {s t u : State}

theorem refl (s : State) : TreeKept s s := ⟨rfl, rfl, rfl⟩

theorem trans (h : TreeKept s t) (k : TreeKept t u) : TreeKept s u := ⟨k.slots.trans h.slots, k.groups.trans h.groups, k.bars.trans h.bars⟩

theorem core (h : TreeKept s t) (hc : u.core = t.core) : TreeKept s u :=
  h.trans ⟨(congrArg (fun v : State => v.ux.slots) hc :), (congrArg (fun v : State => v.ux.groups) hc :), (congrArg (fun v : State => v.ux.bars) hc :)⟩

theorem told (h : TreeKept s t) (k : Told t u) : TreeKept s u := h.core k.core

theorem onDie (h : TreeKept s t) (k : OnDie t u) : TreeKept s u := h.trans ⟨congrArg Uhloux.slots k.ux, congrArg Uhloux.groups k.ux, congrArg Uhloux.bars k.ux⟩

theorem mod (h : TreeKept s t) (p : Part) (f : Base → Base) : TreeKept s (t.mod p f) := h.trans (by cases p <;> exact ⟨rfl, rfl, rfl⟩)

theorem setReg (h : TreeKept s t) (p : Part) (o : Nat) (w : Word) : TreeKept s (t.setReg p o w) := h.mod p _

theorem put (h : TreeKept s t) (p : Part) (f : Fld) (v : Nat) : TreeKept s (t.put p f v) := h.setReg p _ _

theorem count (h : TreeKept s t) (p : Part) (f : Fld) (n : Nat) : TreeKept s (t.count p f n) := h.put p _ _

theorem log (h : TreeKept s t) (p : Part) (a b c d : Nat) : TreeKept s (t.log p a b c d) := h.core (core_log ..)

theorem logW (h : TreeKept s t) (p : Part) (a b c d e : Nat) : TreeKept s (t.logW p a b c d e) := h.core (core_logW ..)

theorem ite {a b : State} {c : Prop} [Decidable c] (ha : TreeKept s a) (hb : TreeKept s b) : TreeKept s (if c then a else b) := by
  split
  · exact ha
  · exact hb

theorem tcAdd (h : TreeKept s t) (i n : Nat) : TreeKept s (t.tcAdd i n) := by
  unfold State.tcAdd
  refine .ite h (.ite (h.trans ⟨rfl, rfl, rfl⟩) ?_)
  exact TreeKept.log (h.trans ⟨rfl, rfl, rfl⟩ : TreeKept s (t.modUx (fun u => { u with tc := tput 0 u.tc i cntTop, tcSat := tput false u.tcSat i true }))) ..

theorem talLast (h : TreeKept s t) (op pc st block : Nat) : TreeKept s (t.talLast op pc st block) := .ite h (h.setReg ..)

theorem qfail (h : TreeKept s t) (p : Part) (q : QueueId) (pc st : Nat) : TreeKept s (t.qfail p q pc st) :=
  ((((((h.put p _ _).put p _ _).put p _ _).put p _ _).put p _ _).logW .. : TreeKept s ((t.failNoted p q pc st (t.failCount p)).logW ..))

theorem drainCheck (h : TreeKept s t) (p : Part) : TreeKept s (t.drainCheck p) := by
  cases p with
  | el => exact h.onDie (OnDie.refl t).drainCheck
  | ux => exact .ite (h.put .ux _ _) h

theorem endFail (h : TreeKept s t) (p : Part) (o : QOp) (st : Nat) : TreeKept s (t.endFail p o st) :=
  ((((h.mod p _ : TreeKept s (t.dropOp p o.id)).talLast _ _ _ _).qfail p _ _ _).drainCheck p)

theorem incPart (h : TreeKept s t) (p : Part) (incs : List (Nat × Nat)) : TreeKept s (t.incPart p incs) := by
  cases p with
  | el => exact h.onDie ((OnDie.refl t).incAll incs)
  | ux => exact List.foldlRecOn (motive := TreeKept s) (sumIncs incs) (fun t e => t.tcAdd e.1 e.2) h (fun u hu e _ => hu.tcAdd e.1 e.2)

theorem endOp (h : TreeKept s t) (o : QOp) (st : Nat) : TreeKept s (t.endOp o st) :=
  .ite (((h.mod _ _ : TreeKept s (t.dropOp _ o.id)).incPart _ _).drainCheck _) (h.endFail _ o st)

theorem endQid (h : TreeKept s t) (qid st : Nat) : TreeKept s (t.endQid qid st) := by
  unfold State.endQid
  split
  · exact h.endOp ..
  · exact h

end TreeKept

theorem logged_endQid (s : State) (qid st : Nat) : ∃ es, Logged .ux s (s.endQid qid st) es :=
  exists_logged_of_keeps .ux (keeps_endQid (qid := qid) (st := st) (keeps_refl s))

/-! ### The values of a slot (R264) -/

/-- What a slot holds for one index: who has given, and the value. -/
def Slot.at (t : Slot) (j : Nat) : List (BitVec 32) × Int := (tget [] t.given j, tget 0 t.vals j)

/-- What a contribution makes of it. -/
def Slot.joinedAt (t : Slot) (src : BitVec 32) (j : Nat) (v : Int) : List (BitVec 32) × Int :=
  if j < t.n ∧ (t.at j).1.length < t.expect ∧ src ∉ (t.at j).1 then ((t.at j).1 ++ [src], if (t.at j).1 = [] then v else redCombine t.opk (t.at j).2 v) else t.at j

section
variable (src : BitVec 32) (t : Slot) (j i : Nat) (v : Int)

theorem slotValue_fixed : (slotValue src t i v).n = t.n ∧ (slotValue src t i v).expect = t.expect ∧ (slotValue src t i v).opk = t.opk := by
  unfold slotValue
  dsimp only
  split <;> exact ⟨rfl, rfl, rfl⟩

/-- The index still takes a contribution of this source. -/
def Slot.takes (t : Slot) (src : BitVec 32) (i : Nat) : Prop := i < t.n ∧ (t.at i).1.length < t.expect ∧ src ∉ (t.at i).1

theorem slotValue_blocked (h : ¬ t.takes src i) : slotValue src t i v = t := by
  refine if_pos ?_
  unfold Slot.takes Slot.at at h
  simp only [not_and_or, Nat.not_lt, not_not] at h
  rcases h with h | h | h
  · exact .inl h
  · exact .inr (.inl h)
  · exact .inr (.inr (by simpa using h))

theorem slotValue_taken (h : t.takes src i) : ((slotValue src t i v).given = tput [] t.given i ((t.at i).1 ++ [src]))
    ∧ ((slotValue src t i v).vals = tput 0 t.vals i (if (t.at i).1 = [] then v else redCombine t.opk (t.at i).2 v)) := by
  obtain ⟨h1, h2, h3⟩ := h
  have hs : slotValue src t i v = _ := if_neg (by
    rintro (h | h | h)
    · omega
    · exact absurd h2 (Nat.not_lt.mpr h)
    · exact h3 (by simpa [Slot.at] using h))
  rw [hs]
  refine ⟨rfl, congrArg (tput 0 t.vals i) ?_⟩
  exact ite_congr (propext List.isEmpty_iff) (fun _ => rfl) (fun _ => rfl)

theorem joinedAt_taken (h : t.takes src i) : t.joinedAt src i v = ((t.at i).1 ++ [src], if (t.at i).1 = [] then v else redCombine t.opk (t.at i).2 v) := if_pos h

theorem joinedAt_blocked (h : ¬ t.takes src i) : t.joinedAt src i v = t.at i := if_neg h

theorem slotValue_at : (slotValue src t i v).at j = if j = i then t.joinedAt src j v else t.at j := by
  by_cases ht : t.takes src i
  · obtain ⟨hg, hv⟩ := slotValue_taken src t i v ht
    by_cases hj : j = i
    · subst hj
      rw [if_pos rfl, joinedAt_taken src t j v ht, Slot.at, hg, hv, tget_tput_same, tget_tput_same]
    · rw [if_neg hj, Slot.at, hg, hv, tget_tput_other _ _ _ _ _ _ hj, tget_tput_other _ _ _ _ _ _ hj]
      rfl
  · rw [slotValue_blocked src t i v ht]
    by_cases hj : j = i
    · subst hj
      rw [if_pos rfl, joinedAt_blocked src t j v ht]
    · rw [if_neg hj]
end

/-- The values of a message join a slot, one for each index from its first on. -/
def Slot.joins (t : Slot) (src : BitVec 32) (first : Nat) (vals : List Int) (k : Nat) : Slot :=
  ((List.range k).map (fun j => (first + j, vals.getD j 0))).foldl (fun a v => slotValue src a v.1 v.2) t

theorem joins_succ (t : Slot) (src : BitVec 32) (first : Nat) (vals : List Int) (k : Nat) :
    t.joins src first vals (k + 1) = slotValue src (t.joins src first vals k) (first + k) (vals.getD k 0) := by
  unfold Slot.joins
  rw [List.range_succ, List.map_append, List.foldl_append]
  rfl

theorem joins_fixed (t : Slot) (src : BitVec 32) (first : Nat) (vals : List Int) (k : Nat) :
    (t.joins src first vals k).n = t.n ∧ (t.joins src first vals k).expect = t.expect ∧ (t.joins src first vals k).opk = t.opk := by
  induction k with
  | zero => exact ⟨rfl, rfl, rfl⟩
  | succ k ih =>
    rw [joins_succ]
    obtain ⟨h1, h2, h3⟩ := slotValue_fixed src (t.joins src first vals k) (first + k) (vals.getD k 0)
    exact ⟨h1.trans ih.1, h2.trans ih.2.1, h3.trans ih.2.2⟩

theorem joins_at (t : Slot) (src : BitVec 32) (first : Nat) (vals : List Int) (k j : Nat) :
    (t.joins src first vals k).at j = if first ≤ j ∧ j < first + k then t.joinedAt src j (vals.getD (j - first) 0) else t.at j := by
  induction k with
  | zero => rw [if_neg (by omega)]; rfl
  | succ k ih =>
    obtain ⟨h1, h2, h3⟩ := joins_fixed t src first vals k
    rw [joins_succ, slotValue_at]
    by_cases hj : j = first + k
    · subst hj
      rw [if_pos rfl, if_pos (by omega), Nat.add_sub_cancel_left]
      have hat : (t.joins src first vals k).at (first + k) = t.at (first + k) := ih.trans (if_neg (by omega))
      unfold Slot.joinedAt
      rw [hat, h1, h2, h3]
    · rw [if_neg hj, ih]
      by_cases hin : first ≤ j ∧ j < first + k
      · rw [if_pos hin, if_pos (by omega)]
      · rw [if_neg hin, if_neg (by omega)]

/-! ### Contributions and results (R261, R263 to R265) -/

theorem core_count_congr {s t : State} (h : s.core = t.core) (p : Part) (f : Fld) (n : Nat) : (s.count p f n).core = (t.count p f n).core := by
  unfold State.count State.get
  rw [reg_of_core h p f.off]
  exact core_put_congr h ..

section
variable (s : State) (m : RedMsg) (lane : Fin 160) (t : Slot)

/-- The slot with a contribution noted, its values still to come. -/
def Slot.noted (t : Slot) (m : RedMsg) (lane : Nat) : Slot :=
  { t with step := some m.step, seen := t.seen ++ [(m.src, m.first)], ports := if t.ports.contains lane then t.ports else t.ports ++ [lane] }

/-- The slot once a contribution has joined it. -/
def Slot.joined (t : Slot) (m : RedMsg) (lane : Nat) : Slot := (t.noted m lane).joins m.src m.first.toNat m.vals m.vals.length

theorem joined_in (n j : Nat) (h1 : m.first.toNat ≤ j) (h2 : j < m.first.toNat + m.vals.length) : (t.joined m n).at j = t.joinedAt m.src j (m.vals.getD (j - m.first.toNat) 0) :=
  (joins_at (t.noted m n) m.src m.first.toNat m.vals m.vals.length j).trans (if_pos ⟨h1, h2⟩)

theorem joined_out (n j : Nat) (h : j < m.first.toNat ∨ m.first.toNat + m.vals.length ≤ j) : (t.joined m n).at j = t.at j :=
  (joins_at (t.noted m n) m.src m.first.toNat m.vals m.vals.length j).trans (if_neg (fun ⟨h1, h2⟩ => by omega))

theorem logged_redDiscard : Logged .ux s s.redDiscard [] := logged_nil (events_put s .ux .ux _ _)

theorem contribution_of (ha : s.absorbed lane = false) (hk : m.kind.toNat ≤ 2) : exec (.reductionContribution m lane) s = .next (match slotAt s.ux.slots m.rid.toNat with
    | some t => if m.down then s.slotDown m.rid.toNat t m else s.slotTake m.rid.toNat t m lane
    | none => if m.down then s.redDiscard else s.slotHold m lane) :=
  congrArg Host.Outcome.next ((if_neg (by rw [ha]; decide)).trans (if_neg (Nat.not_lt.mpr hk)))

theorem contribution_slot (ha : s.absorbed lane = false) (hk : m.kind.toNat ≤ 2) (hd : m.down = false) (hs : slotAt s.ux.slots m.rid.toNat = some t) :
    exec (.reductionContribution m lane) s = .next (s.slotTake m.rid.toNat t m lane) := by
  rw [contribution_of s m lane ha hk, hs, hd]
  rfl

theorem contribution_held (ha : s.absorbed lane = false) (hk : m.kind.toNat ≤ 2) (hd : m.down = false) (hs : slotAt s.ux.slots m.rid.toNat = none) :
    exec (.reductionContribution m lane) s = .next (s.slotHold m lane) := by
  rw [contribution_of s m lane ha hk, hs, hd]
  rfl

theorem result_slot (ha : s.absorbed lane = false) (hk : m.kind.toNat ≤ 2) (hd : m.down = true) (hs : slotAt s.ux.slots m.rid.toNat = some t) :
    exec (.reductionContribution m lane) s = .next (s.slotDown m.rid.toNat t m) := by
  rw [contribution_of s m lane ha hk, hs, hd]
  rfl

theorem result_none (ha : s.absorbed lane = false) (hk : m.kind.toNat ≤ 2) (hd : m.down = true) (hs : slotAt s.ux.slots m.rid.toNat = none) :
    exec (.reductionContribution m lane) s = .next s.redDiscard := by
  rw [contribution_of s m lane ha hk, hs, hd]
  rfl

/-- A message discarded with an event. -/
theorem goes_discard {c : Instr} (a : State) (code object detail : Nat) (ha : (a.ux.base).events = s.ux.base.events) (he : exec c s = .next ((a.log .ux 0x4C code object detail).redDiscard)) :
    Goes c s a.redDiscard .ux [(0x4C, code, object, detail)] :=
  goes_of _ he (core_count_congr (core_log ..) ..) ((logged_log _ _ _ _ (p := .ux) ha).trans (logged_redDiscard _))

theorem slotTake_foreign (rid n : Nat) (h : redMatch t.opk m = false) : s.slotTake rid t m n = (s.log .ux 0x4C 0x4010 rid m.src.toNat).redDiscard := if_pos (by rw [h]; rfl)

theorem slotTake_otherStep (rid n : Nat) (h : redMatch t.opk m = true) (h1 : t.step.isSome = true) (h2 : t.step ≠ some m.step) :
    s.slotTake rid t m n = (s.log .ux 0x4C 0x4011 rid m.step.toNat).redDiscard :=
  (if_neg (by rw [h]; decide)).trans (if_pos (by simp [h1, h2]))

/-- A contribution of the slot's kind and step. -/
theorem slotTake_own (rid n : Nat) (h : redMatch t.opk m = true) (hs : t.step = none ∨ t.step = some m.step) : s.slotTake rid t m n =
    if t.sent || t.seen.contains (m.src, m.first) then s.redDiscard
    else if (t.joined m n).full then s.slotSend rid (t.joined m n) else s.setSlots (tins (terase s.ux.slots rid) rid (t.joined m n)) := by
  refine (if_neg (by rw [h]; decide)).trans ((if_neg ?_).trans rfl)
  rcases hs with hs | hs <;> simp [hs]

theorem setSlots_leaves (l : Tbl Slot) : (s.setSlots l).ux.slots = l ∧ (s.setSlots l).el = s.el ∧ Logged .ux s (s.setSlots l) [] := ⟨rfl, rfl, logged_nil (events_put ..)⟩

/-- A complete slot: below the root it has been sent, at the root it closes (R198, R261). -/
theorem slotSend_slots (rid : Nat) : slotAt (s.slotSend rid t).ux.slots rid = if s.tier = 2 then none else some { t with sent := true } := by
  unfold State.slotSend
  dsimp only
  by_cases h2 : s.tier = 2
  · simp only [show (s.tier == 2) = true from by rw [h2]; rfl, if_true, if_pos h2]
    rw [((TreeKept.refl _).endQid _ _).slots]
    exact slotAt_terase ..
  · simp only [show (s.tier == 2) = false from by simpa using h2, Bool.false_eq_true, if_false, if_neg h2]
    rw [((TreeKept.refl _).endQid _ _).slots]
    exact slotAt_replaced ..

/-- A result the slot passes down. -/
theorem slotDown_passes (rid : Nat) (h1 : t.sent = true) (h2 : t.step = some m.step) (h3 : t.downs.contains (m.src, m.first) = false) : let u := s.slotDown rid t m
    slotAt u.ux.slots rid = (if t.n ≤ t.down + m.vals.length then none else some { t with down := t.down + m.vals.length, downs := t.downs ++ [(m.src, m.first)] }) ∧ u.el = s.el ∧ Logged .ux s u [] := by
  let v := t.ports.foldl (fun a x => a.send .ux x (.red m)) s
  have hv : Told s v := (Told.refl s).foldl _ _ (fun u x hu => hu.send x _)
  have hu : s.slotDown rid t m = if t.n ≤ t.down + m.vals.length then v.setSlots (terase v.ux.slots rid)
      else v.setSlots (tins (terase v.ux.slots rid) rid { t with down := t.down + m.vals.length, downs := t.downs ++ [(m.src, m.first)] }) := if_neg (by
    rw [h1, h2, h3]
    simp)
  intro u
  have hslots : ∀ l, (v.setSlots l).el = s.el ∧ Logged .ux s (v.setSlots l) [] := fun l => by
    obtain ⟨_, he, hl⟩ := setSlots_leaves v l
    exact ⟨he.trans hv.el, (hv.logged .ux).trans hl⟩
  show slotAt (s.slotDown rid t m).ux.slots rid = _ ∧ (s.slotDown rid t m).el = s.el ∧ Logged .ux s (s.slotDown rid t m) []
  rw [hu]
  split
  · exact ⟨slotAt_terase .., hslots _⟩
  · exact ⟨slotAt_replaced .., hslots _⟩

theorem slotDown_discards (rid : Nat) (h : t.sent = false ∨ t.step ≠ some m.step ∨ t.downs.contains (m.src, m.first) = true) : s.slotDown rid t m = s.redDiscard := by
  refine if_pos ?_
  rcases h with h | h | h
  · simp [h]
  · simp [h]
  · rw [h]; simp
end

/-! ### Expiries and timeouts (R239, R265) -/

section
variable (s : State) (key : Nat)

theorem slotHeldExpiry_none (cl : Fin 4) (i : Nat) (h : (s.ux.held.filter (fun h => laneCluster h.2 == cl.val))[i]? = none) : exec (.slotHeldExpiry cl i) s = .next s := by
  change execSlotHeldExpiry cl i s = _
  unfold execSlotHeldExpiry
  rw [h]

theorem slotHeldExpiry_some (cl : Fin 4) (i : Nat) (x : RedMsg × Nat) (h : (s.ux.held.filter (fun h => laneCluster h.2 == cl.val))[i]? = some x) :
    exec (.slotHeldExpiry cl i) s = .next (((s.modUx (fun u => { u with held := u.held.erase x })).log .ux 0x4C 0x4013 x.1.rid.toNat x.1.src.toNat).redDiscard) := by
  change execSlotHeldExpiry cl i s = _
  unfold execSlotHeldExpiry
  rw [h]

theorem slotTimeout_el_none (h : s.findOp .el key = none) : exec (.slotTimeout .el key) s = .next s := by
  change execSlotTimeout .el key s = _
  unfold execSlotTimeout
  dsimp only
  rw [h]

/-- What the timeout of a slot, pass or check does to the operation of a die that waits. -/
def State.passTimeout (s : State) (o : QOp) : State :=
  match o.kind with
  | .spass _ _ _ _ | .ssum _ _ _ | .xchk _ _ _ => if o.started then s.endOp o stTimeout else s
  | _ => s

theorem slotTimeout_el_some {o : QOp} (h : s.findOp .el key = some o) : exec (.slotTimeout .el key) s = .next (s.passTimeout o) := by
  change execSlotTimeout .el key s = _
  unfold execSlotTimeout
  dsimp only
  rw [h]
  rfl

theorem passTimeout_waits {o : QOp} (h : o.started = false) : s.passTimeout o = s := by
  unfold State.passTimeout
  rw [h]
  split <;> rfl

theorem passTimeout_ends {o : QOp} (h : o.started = true) (hk : (∃ r n a x, o.kind = .spass r n a x) ∨ (∃ r n a, o.kind = .ssum r n a) ∨ (∃ r f e, o.kind = .xchk r f e)) :
    s.passTimeout o = s.endOp o stTimeout := by
  unfold State.passTimeout
  rcases hk with ⟨r, n, a, x, hk⟩ | ⟨r, n, a, hk⟩ | ⟨r, f, e, hk⟩ <;> rw [hk] <;> exact if_pos h

/-- A slot whose time is over (R239). -/
def State.slotExpired (s : State) (key : Nat) (t : Slot) : State :=
  if t.sent || t.seen.isEmpty then s else ((s.log .ux 0x4C 0x3060 key (t.expect - t.heard)).setSlots (terase s.ux.slots key)).endQid t.qid stTimeout

/-- A group whose time is over (R239). -/
def State.groupExpired (s : State) (key : Nat) (g : XGroup) : State :=
  if g.sent || g.got.isEmpty then s
  else ((s.log .ux 0x4C 0x3060 key (g.expect.countP (fun x => !g.got.any (fun c => c.1 == x)))).setGroups (terase s.ux.groups key)).endQid g.qid stTimeout

theorem slotTimeout_slot {t : Slot} (h : slotAt s.ux.slots key = some t) : exec (.slotTimeout .ux key) s = .next (s.slotExpired key t) := by
  change execSlotTimeout .ux key s = _
  unfold execSlotTimeout
  dsimp only
  rw [h]
  rfl

theorem slotTimeout_group {g : XGroup} (h : slotAt s.ux.slots key = none) (hg : groupAt s.ux.groups key = some g) : exec (.slotTimeout .ux key) s = .next (s.groupExpired key g) := by
  change execSlotTimeout .ux key s = _
  unfold execSlotTimeout
  dsimp only
  rw [h]
  dsimp only
  rw [hg]
  rfl

theorem slotTimeout_nothing (h : slotAt s.ux.slots key = none) (hg : groupAt s.ux.groups key = none) : exec (.slotTimeout .ux key) s = .next s := by
  change execSlotTimeout .ux key s = _
  unfold execSlotTimeout
  dsimp only
  rw [h]
  dsimp only
  rw [hg]

theorem slotExpired_closes {t : Slot} (h1 : t.sent = false) (h2 : t.seen ≠ []) : slotAt (s.slotExpired key t).ux.slots key = none
    ∧ ∃ es, Logged .ux s (s.slotExpired key t) ((0x4C, 0x3060, key, t.expect - t.heard) :: es) := by
  let l := s.log .ux 0x4C 0x3060 key (t.expect - t.heard)
  have hu : s.slotExpired key t = (l.setSlots (terase s.ux.slots key)).endQid t.qid stTimeout := if_neg (by simp [h1, h2])
  rw [hu]
  obtain ⟨es, he⟩ := logged_endQid (l.setSlots (terase s.ux.slots key)) t.qid stTimeout
  refine ⟨?_, es, ((logged_log 0x4C 0x3060 key (t.expect - t.heard) rfl : Logged .ux s l _).trans (setSlots_leaves l _).2.2).trans he⟩
  rw [((TreeKept.refl _).endQid _ _).slots]
  exact slotAt_terase ..

theorem groupExpired_closes {g : XGroup} (h1 : g.sent = false) (h2 : g.got ≠ []) : groupAt (s.groupExpired key g).ux.groups key = none
    ∧ ∃ es, Logged .ux s (s.groupExpired key g) ((0x4C, 0x3060, key, g.expect.countP (fun x => !g.got.any (fun c => c.1 == x))) :: es) := by
  let n := g.expect.countP (fun x => !g.got.any (fun c => c.1 == x))
  let l := s.log .ux 0x4C 0x3060 key n
  have hu : s.groupExpired key g = (l.setGroups (terase s.ux.groups key)).endQid g.qid stTimeout := if_neg (by simp [h1, h2])
  rw [hu]
  obtain ⟨es, he⟩ := logged_endQid (l.setGroups (terase s.ux.groups key)) g.qid stTimeout
  refine ⟨?_, es, ((logged_log 0x4C 0x3060 key n rfl).congr rfl).trans he⟩
  rw [((TreeKept.refl _).endQid _ _).groups]
  exact groupAt_terase ..
end

/-! ### The obligation -/

/-- Settles O47: contributions, results, expiries and timeouts by what they find open, the values by induction on the indices of a message. -/
theorem reductions : Obligations.Reductions := by
  unfold Obligations.Reductions
  intro m lane t g cl i key o s
  refine ⟨fun h => congrArg Host.Outcome.next (if_pos h), fun ha hk => congrArg Host.Outcome.next ((if_neg (by rw [ha]; decide)).trans (if_pos hk)), fun ha hk hd hs => ?_, fun j hn h1 h2 => ?_, fun j h => ?_,
    fun ha hk hd hs => ?_, fun ha hk hd => ⟨result_none s m lane ha hk hd, fun hs h => ?_, fun hs h1 h2 h3 => ⟨_, result_slot s m lane t ha hk hd hs, slotDown_passes s m t _ h1 h2 h3⟩⟩, slotHeldExpiry_none s cl i, fun x hx => ?_, slotTimeout_el_none s key, fun h => ⟨fun h1 h2 => ?_, fun h1 => ?_⟩, fun h => ⟨fun hi => ?_, fun h1 h2 => ?_⟩,
    fun h hg => ⟨fun hi => ?_, fun h1 h2 => ?_⟩, slotTimeout_nothing s key⟩
  · have he := contribution_slot s m lane t ha hk hd hs
    refine ⟨fun h => ?_, fun h h1 h2 => ?_, fun h h1 => ?_⟩
    · exact goes_discard s s _ _ _ rfl (he.trans (congrArg Host.Outcome.next (slotTake_foreign s m t _ _ h)))
    · exact goes_discard s s _ _ _ rfl (he.trans (congrArg Host.Outcome.next (slotTake_otherStep s m t _ _ h h1 h2)))
    · rw [slotTake_own s m t _ _ h h1] at he
      refine ⟨fun h2 => he.trans (congrArg Host.Outcome.next (if_pos (by simpa using h2))), fun h2 h3 => ?_⟩
      rw [if_neg (by rw [h2, h3]; decide)] at he
      refine ⟨fun hf => ⟨_, he.trans (congrArg Host.Outcome.next (if_neg (by rw [show (t.joined m lane).full = false from hf]; decide))), slotAt_replaced .., rfl, logged_nil (events_put ..)⟩, fun hf ht => ?_, fun hf ht => ?_⟩
      · exact ⟨_, he.trans (congrArg Host.Outcome.next (if_pos hf)), (slotSend_slots s _ _).trans (if_neg ht)⟩
      · exact ⟨_, he.trans (congrArg Host.Outcome.next (if_pos hf)), (slotSend_slots s _ _).trans (if_pos ht)⟩
  · have hat := joined_in m t lane.val j h1 h2
    refine ⟨fun hl hm => ?_, fun hb => ?_⟩
    · have h := hat.trans (joinedAt_taken m.src t j _ ⟨hn, hl, hm⟩)
      exact ⟨congrArg Prod.fst h, congrArg Prod.snd h⟩
    · have h := hat.trans (joinedAt_blocked m.src t j _ (fun ⟨_, hl, hm⟩ => hb.elim (fun h => absurd hl (Nat.not_lt.mpr h)) (fun h => hm h)))
      exact ⟨congrArg Prod.fst h, congrArg Prod.snd h⟩
  · have hat := joined_out m t lane.val j h
    exact ⟨congrArg Prod.fst hat, congrArg Prod.snd hat⟩
  · have he := contribution_held s m lane ha hk hd hs
    refine ⟨fun h => he.trans (congrArg Host.Outcome.next (if_neg (Nat.not_le.mpr h))), fun h => ?_⟩
    exact goes_discard s s _ _ _ rfl (he.trans (congrArg Host.Outcome.next (if_pos h)))
  · exact (result_slot s m lane t ha hk hd hs).trans (congrArg Host.Outcome.next (slotDown_discards s m t _ h))
  · exact goes_discard s (s.modUx (fun u => { u with held := u.held.erase x })) _ _ _ rfl (slotHeldExpiry_some s cl i x hx)
  · exact (slotTimeout_el_some s key h).trans (congrArg Host.Outcome.next (passTimeout_ends s h1 h2))
  · exact (slotTimeout_el_some s key h).trans (congrArg Host.Outcome.next (passTimeout_waits s h1))
  · refine (slotTimeout_slot s key h).trans (congrArg Host.Outcome.next (if_pos ?_))
    rcases hi with hi | hi <;> simp [hi]
  · exact ⟨_, slotTimeout_slot s key h, slotExpired_closes s key h1 h2⟩
  · refine (slotTimeout_group s key h hg).trans (congrArg Host.Outcome.next (if_pos ?_))
    rcases hi with hi | hi <;> simp [hi]
  · exact ⟨_, slotTimeout_group s key h hg, groupExpired_closes s key h1 h2⟩

end Sys2Proof.Machine

/-! SUPPORT. What a program that ends, and the next step it may begin, leave of the registers of the checks, and of what is queued. -/

namespace Sys2Proof.Machine

set_option Elab.async false

/-- CHK_STAT, CHK_SEAL, CHK_FAILSTEP and CHK_CNT of an Elesh. -/
def checkOff (o : Nat) : Bool := o == 0x6008 || o == 0x6010 || o == 0x6018 || o == 0x6038

theorem checkOff_iff (o : Nat) : checkOff o = true ↔ o = 0x6008 ∨ o = 0x6010 ∨ o = 0x6018 ∨ o = 0x6038 := by
  unfold checkOff
  simp [or_assoc]

/-- These registers, the queued operations and the loaded pairs stand. -/
structure Quiet (s t : State) : Prop where
  regs  : ∀ o, checkOff o = true → t.reg .el o = s.reg .el o
  qops  : t.el.base.qops = s.el.base.qops
  pairs : (t.seq .el).pairs = (s.seq .el).pairs

namespace Quiet

variable {s t u : State}

theorem refl (s : State) : Quiet s s := ⟨fun _ _ => rfl, rfl, rfl⟩

theorem trans (h : Quiet s t) (k : Quiet t u) : Quiet s u := ⟨fun o ho => (k.regs o ho).trans (h.regs o ho), k.qops.trans h.qops, k.pairs.trans h.pairs⟩

theorem core (h : Quiet s t) (hc : u.core = t.core) : Quiet s u :=
  h.trans ⟨fun o _ => reg_of_core hc .el o, qops_of_core .el hc, congrArg Seq.pairs (seq_of_core hc .el)⟩

theorem log (h : Quiet s t) (p : Part) (a b c d : Nat) : Quiet s (t.log p a b c d) := h.core (core_log ..)

theorem setReg (h : Quiet s t) (o : Nat) (w : Word) (ho : checkOff o = false := by decide) : Quiet s (t.setReg .el o w) :=
  h.trans ⟨fun i hi => reg_setReg_other t .el o i w (fun e => by rw [e, ho] at hi; exact absurd hi (by decide)), rfl, rfl⟩

theorem put (h : Quiet s t) (f : Fld) (v : Nat) (ho : checkOff f.off = false := by decide) : Quiet s (t.put .el f v) := h.setReg _ _ ho

theorem count (h : Quiet s t) (f : Fld) (n : Nat) (ho : checkOff f.off = false := by decide) : Quiet s (t.count .el f n) := h.put _ _ ho

theorem putUx (h : Quiet s t) (f : Fld) (v : Nat) : Quiet s (t.put .ux f v) := h.trans ⟨fun _ _ => rfl, rfl, rfl⟩

theorem modEl (h : Quiet s t) (f : Elesh → Elesh) (hb : (f t.el).base = t.el.base := by rfl) : Quiet s (t.modEl f) :=
  h.trans ⟨fun o _ => reg_modEl t f .el o (by rw [hb]), congrArg Base.qops hb, congrArg (fun b : Base => b.seq.pairs) hb⟩

theorem mod (h : Quiet s t) (f : Base → Base) (hr : (f t.el.base).regs = t.el.base.regs := by rfl) (hq : (f t.el.base).qops = t.el.base.qops := by rfl)
    (hp : (f t.el.base).seq.pairs = t.el.base.seq.pairs := by rfl) : Quiet s (t.mod .el f) := h.trans ⟨fun o _ => reg_mod t .el .el f o hr, hq, hp⟩

theorem modSeq (h : Quiet s t) (f : Seq → Seq) (hq : ∀ q, (f q).pairs = q.pairs := by intro; rfl) : Quiet s (t.modSeq .el f) := h.mod _ rfl rfl (hq _)

theorem ite {a b : State} {c : Prop} [Decidable c] (ha : Quiet s a) (hb : Quiet s b) : Quiet s (if c then a else b) := by
  split
  · exact ha
  · exact hb

theorem foldl {α : Type} (h : Quiet s t) (l : List α) (f : State → α → State) (hf : ∀ u x, Quiet s u → Quiet s (f u x)) : Quiet s (l.foldl f t) :=
  List.foldlRecOn (motive := Quiet s) _ _ h (fun u hu x _ => hf u x hu)

/-! ### A step start -/

theorem claims (h : Quiet s t) (k : ClaimsOnly t u) : Quiet s u := by
  obtain ⟨c, r, rfl⟩ := k
  exact h.modEl (fun e => { e with ports := { e.ports with claims := c, reclaim := r } })

theorem landStale (h : Quiet s t) : Quiet s t.landStale := by
  unfold State.landStale
  dsimp only
  refine .ite (h.claims (.claimPump _)) ?_
  have hl : Quiet s (t.modEl (fun e => { e with land := e.land.filter (fun l => !(decide (l.step.toNat < t.stepCur))), landFull := false })).landShow := ((h.modEl _).put Reg.SYNC_LANDQ_LEVEL _).put Reg.SYNC_LANDQ_HWM _
  exact ((hl.claims (.claimWants ..)).put Reg.SYNC_STAT_LAND_STALE 1).foldl _ _ (fun u l hu => hu.log ..)

/-- A stream's registers lie above those of the checks. -/
theorem checkOff_of_gt {o : Nat} (h : 0x6038 < o) : checkOff o = false := by
  cases hc : checkOff o with
  | false => rfl
  | true =>
    rw [checkOff_iff] at hc
    omega

theorem streamsReset (h : Quiet s t) : Quiet s t.streamsReset := by
  have hs := h.foldl (List.range t.el.lic.streams) (fun t n => (t.setReg .el (Reg.SEED_S_CURSOR_CURSOR n).off 0xFFFFFFFFFFFFFFFF).setReg .el (Reg.SEED_S_CUR_L n).off 0)
    (fun u n hu => (hu.setReg _ _ (checkOff_of_gt (by simp only [Reg.SEED_S_CURSOR_CURSOR]; omega))).setReg _ _ (checkOff_of_gt (by simp only [Reg.SEED_S_CUR_L]; omega)))
  exact (hs.put Reg.SEED_STAT_PERM_SLIPS 0).modEl (fun e => { e with cur := [], posLogged := [], emptyLogged := [] })

theorem spmPut (h : Quiet s t) (a : Nat) (w : Word) : Quiet s (t.spmPut a w) := by
  unfold State.spmPut
  dsimp only
  exact .ite (((h.modEl _).put Reg.TEST_PFLIP_EN 0).log ..) (h.modEl _)

theorem emit (h : Quiet s t) (r : LedgerRec) : Quiet s (t.emit r) := (h.modEl (fun e => { e with ledgOrd := t.el.ledgOrd + 1 })).core (core_sendUp ..)

theorem stepPrepared (h : Quiet s t) : Quiet s t.stepPrepared := by
  have h1 : Quiet s ((t.landStale.streamsReset.wdRestart .el 0x7F).emit t.stepRecord) := Quiet.emit (h.landStale.streamsReset.mod _) _
  have h2 : Quiet s ((t.landStale.streamsReset.wdRestart .el 0x7F).emit t.stepRecord).repeatWrite := h1.spmPut _ _
  exact ((((((h2.setReg 0xA020 0).setReg Reg.TAL_CNT_SAT_BLOCKS.off 0).put Reg.SPM_CNT_WLOST 0).put Reg.SEQ_SLIPS_STEP 0).count Reg.SEQ_SLIPS_STEP 1).count Reg.SEQ_SLIPS_SEGMENT 1).put Reg.SEQ_LATE_SLACK_MIN 0xFFFFFFFF

theorem probTaken (h : Quiet s t) : Quiet s t.probTaken := by
  unfold State.probTaken
  split
  · exact ((h.put Reg.CHK_REPEAT_K _).modEl (fun e => { e with probK := none })).log ..
  · exact h

theorem closeWindow (h : Quiet s t) : Quiet s (t.closeWindow .el) := (h.modSeq (fun q => { q with window := none })).put Reg.SEQ_STAT_QUIET 0

theorem readyClosed (h : Quiet s t) : Quiet s t.readyClosed := by
  unfold State.readyClosed
  split
  · exact .ite h.closeWindow h
  · exact h

theorem anchorIssue (h : Quiet s t) (a b : Nat) : Quiet s (t.anchorIssue .el a b) := by
  unfold State.anchorIssue
  dsimp only
  have hp : Quiet s ((t.put .el Reg.SEQ_PC_ANCHOR (t.pc .el)).modSeq .el (fun q => { q with segNew := true })) := (h.put Reg.SEQ_PC_ANCHOR _).modSeq _
  exact .ite hp (.ite (hp.put Reg.SEQ_LATE_SLACK_MIN _) (((hp.put Reg.SEQ_LATE_LATE _).log ..).modEl _))

theorem stepStart (h : Quiet s t) (a b : Nat) : Quiet s (t.stepStart a b) := by
  rw [stepStart_eq]
  have h0 : Quiet s ((t.probTaken.stepNumbered).stepCleared a) := (((h.probTaken.setReg Reg.SEQ_STEP_CUR_CUR.off _).setReg Reg.SEQ_STEP_NEXT.off _).modSeq _).modEl _
  have h2 : Quiet s (((t.probTaken.stepNumbered).stepCleared a).stepPrepared.stepRunning) := ((h0.stepPrepared.put Reg.SEQ_PC_PC _).readyClosed).put Reg.SEQ_STAT_STATE _
  exact .ite h2 (h2.anchorIssue ..)

theorem stepMissed (h : Quiet s t) : Quiet s t.stepMissed := by
  have hl : Quiet s (t.log .el 0x01 0x8085 (t.pc .el) (t.seqState .el)) := h.log ..
  exact .ite hl (hl.modEl _)

theorem heldRelease (h : Quiet s t) : Quiet s t.heldRelease := by
  unfold State.heldRelease
  split
  · exact (h.modSeq _).foldl _ _ (fun u _ hu => hu.stepMissed)
  · split
    · exact h
    · exact ((h.modSeq _).log ..).stepStart ..

theorem readyTry (h : Quiet s t) : Quiet s t.readyTry := by
  unfold State.readyTry
  dsimp only
  exact .ite ((h.modEl (fun e => { e with readySent := true })).core (core_sendUp ..)) h

theorem drainCheck (h : Quiet s t) (p : Part) : Quiet s (t.drainCheck p) := by
  cases p with
  | ux => exact .ite (h.putUx _ _) h
  | el =>
    have hr : Quiet s (t.setSeqState .el 2).heldRelease := (h.put Reg.SEQ_STAT_STATE 2).heldRelease
    exact .ite (Quiet.ite ((hr.modSeq (fun q => { q with window := some { mask := 0x7F, until? := (t.setSeqState .el 2).heldRelease.nextStart, ready := true, logged := false } })).put Reg.SEQ_STAT_QUIET 1).readyTry hr) h

/-! ### The end of an operation -/

theorem counted (h : Quiet s t) (k : CountKept t u) : Quiet s u :=
  h.trans ⟨fun o ho => k.regs .el o (by
    rw [checkOff_iff] at ho
    rcases ho with rfl | rfl | rfl | rfl <;> decide), k.qops .el, congrArg Seq.pairs (k.seq .el)⟩

theorem tcAdd (h : Quiet s t) (i n : Nat) : Quiet s (t.tcAdd i n) := by
  unfold State.tcAdd
  refine .ite h (.ite (h.trans ⟨fun _ _ => rfl, rfl, rfl⟩) ?_)
  exact Quiet.log (h.trans ⟨fun _ _ => rfl, rfl, rfl⟩ : Quiet s (t.modUx (fun u => { u with tc := tput 0 u.tc i cntTop, tcSat := tput false u.tcSat i true }))) ..

theorem incPart (h : Quiet s t) (p : Part) (incs : List (Nat × Nat)) (hp : (s.seq .el).pairs = []) : Quiet s (t.incPart p incs) := by
  cases p with
  | el => exact h.counted (incAll_kept (h.pairs.trans hp) incs)
  | ux => exact h.foldl (sumIncs incs) (fun t e => t.tcAdd e.1 e.2) (fun u e hu => hu.tcAdd e.1 e.2)

end Quiet

/-- Operations that end OK, or with MISMATCH, with no pair loaded (R143, R171): what they leave beside the operations they drop. -/
theorem quiet_endAll (s : State) (p : Part) (os : List QOp) (hp : (s.seq .el).pairs = []) : Quiet (os.foldl (fun t o => t.dropOp p o.id) s) (s.endAll p os) := by
  refine Quiet.drainCheck (Quiet.incPart (.refl _) p _ ?_) p
  have hk : ((os.foldl (fun t o => t.dropOp p o.id) s).seq .el).pairs = (s.seq .el).pairs :=
    List.foldlRecOn (motive := fun t : State => (t.seq .el).pairs = (s.seq .el).pairs) _ _ rfl (fun t ht o _ => (show ((t.dropOp p o.id).seq .el).pairs = (t.seq .el).pairs by cases p <;> rfl).trans ht)
  exact hk.trans hp

theorem endOp_adds_eq (s : State) (o : QOp) (st : Nat) (h : stAdds st = true) : s.endOp o st = s.endAll (queuePart o.queue) [o] := if_pos h

theorem reg_dropOps (s : State) (p q : Part) (os : List QOp) (i : Nat) : (os.foldl (fun t o => t.dropOp p o.id) s).reg q i = s.reg q i :=
  List.foldlRecOn (motive := fun t : State => t.reg q i = s.reg q i) _ _ rfl (fun t ht _ _ => (reg_mod t p q _ i rfl).trans ht)

/-- A register of the checks at the end of an operation. -/
theorem checkReg_endAll (s : State) (p : Part) (os : List QOp) (hp : (s.seq .el).pairs = []) {i : Nat} (hi : checkOff i = true) : (s.endAll p os).reg .el i = s.reg .el i :=
  ((quiet_endAll s p os hp).regs i hi).trans (reg_dropOps ..)

end Sys2Proof.Machine

/-! SUPPORT. Cross-checks at a node and at a die (R307, R308, R312). -/

namespace Sys2Proof.Machine

set_option Elab.async false

/-! ### Points for a die leave slots, groups and barriers -/

namespace TreeKept

variable {s t : State}

theorem draw (h : TreeKept s t) : TreeKept s t.draw.2 := h.trans ⟨rfl, rfl, rfl⟩

theorem modUx (h : TreeKept s t) (f : Uhloux → Uhloux) (hs : (f t.ux).slots = t.ux.slots := by rfl) (hg : (f t.ux).groups = t.ux.groups := by rfl) (hb : (f t.ux).bars = t.ux.bars := by rfl) :
    TreeKept s (t.modUx f) := h.trans ⟨hs, hg, hb⟩

theorem probation (h : TreeKept s t) (x pdi : Nat) : TreeKept s (t.probation x pdi) := by
  have hk : TreeKept s (t.probationK pdi).2 := by
    unfold State.probationK
    split
    · exact h
    · exact h.draw
  unfold State.probation
  dsimp only
  exact ((((hk.core (core_send ..)).log ..).put ..).put ..).put ..

theorem proposeOwn (h : TreeKept s t) (x : Subj) (hard : Bool) (a b : Nat) : TreeKept s (t.proposeOwn x hard a b) := by
  have h1 := fun (ps : Uhloux → List Proposal) m => ((h.log .ux 0x42 0x6003 (subjObj x) (if hard then 256 else 0)).modUx (fun u => { u with proposals := ps u })).told ((Told.refl _).toAuthority m)
  unfold State.proposeOwn
  refine .ite ?_ (h1 _ _)
  dsimp only
  split
  · exact ((h1 _ _).told (.ite ((Told.refl _).sendUp _) (.refl _))).told ((Told.refl _).toPartner _)
  · exact (h1 _ _).told ((Told.refl _).sendDown ..)
  · exact (h1 _ _).told ((Told.refl _).sendDown ..)

theorem healthAdd (h : TreeKept s t) (x pts : Nat) (soft : Bool) : TreeKept s (t.healthAdd x pts soft) := by
  have ha := fun n => (h.put .ux (Reg.UX_LANE_HC_HEALTH x) n).modUx
    (fun u => { u with healthKind := tput 0 u.healthKind (if soft then 2 * x else 2 * x + 1) (tget 0 u.healthKind (if soft then 2 * x else 2 * x + 1) + pts) })
  have hb := fun n (c : Bool) => TreeKept.ite (c := c = true) ((ha n).log .ux 0x42 0x6020 (subjObj (dieSubj (t.pdiOf x))) n) (ha n)
  have hc := fun n (c d : Bool) => TreeKept.ite (c := d = true) ((hb n c).probation x (t.pdiOf x)) (hb n c)
  have hd := fun n (c d e : Bool) => TreeKept.ite (c := e = true) ((hc n c d).proposeOwn (dieSubj (t.pdiOf x)) false 0 0) (hc n c d)
  unfold State.healthAdd
  exact .ite h (.ite ((hd _ _ _ _).modUx (fun u => { u with healthKind := _ })) (hd _ _ _ _))

theorem foldl {α : Type} (h : TreeKept s t) (l : List α) (f : State → α → State) (hf : ∀ u x, TreeKept s u → TreeKept s (f u x)) : TreeKept s (l.foldl f t) :=
  List.foldlRecOn (motive := TreeKept s) _ _ h (fun u hu x _ => hf u x hu)

theorem groupPoints (h : TreeKept s t) (g : XGroup) (maj : Option HistEntry) : TreeKept s (t.groupPoints g maj) := by
  unfold State.groupPoints
  split
  · exact h
  · refine h.foldl _ _ (fun u c hu => ?_)
    split
    · exact .ite hu (hu.healthAdd ..)
    · exact hu

theorem suspOk (h : TreeKept s t) (pc op : Nat) : TreeKept s (t.suspOk pc op) := by
  unfold State.suspOk State.suspTransient
  split
  · exact ((h.put .el _ _).log ..).trans ⟨rfl, rfl, rfl⟩
  · exact h

theorem onLane (h : TreeKept s t) (m : Msg) : TreeKept s (t.sendUp .el m) := h.onDie ((OnDie.refl t).sendUp m)

theorem checkFail (h : TreeKept s t) (pc : Nat) : TreeKept s (t.checkFail pc) := by
  unfold State.checkFail
  exact .ite h (TreeKept.log (((h.put .el Reg.CHK_STAT_FAILED 1).setReg .el Reg.CHK_FAILSTEP_STEP.off _).onLane _) ..)

theorem suspOpen (h : TreeKept s t) (pc op : Nat) (va vb : Word) : TreeKept s (t.suspOpen pc op va vb) := by
  unfold State.suspOpen
  split
  · exact h.put ..
  · exact (((((h.setReg ..).put ..).put ..).put ..).setReg ..).setReg ..

theorem probPermanent (h : TreeKept s t) : TreeKept s t.probPermanent := by
  unfold State.probPermanent State.probAct
  refine .ite (h.draw.put ..) (.ite ?_ h.draw)
  unfold State.fmulFollow
  have hp := fun v => (h.draw.put .el Reg.HC_STAT_FSTEPS (min 2 (t.draw.2.get .el Reg.HC_STAT_FSTEPS + 1))).put .el Reg.CLK_STAT_THROTTLE v
  exact .ite (.ite ((hp _).mod ..) (hp _)) (.ite (hp _) ((hp _).mod ..))

theorem suspMismatch (h : TreeKept s t) (pc op : Nat) (va vb : Word) : TreeKept s (t.suspMismatch pc op va vb) := by
  unfold State.suspMismatch State.suspPermanent State.suspTransient
  split
  · refine .ite (TreeKept.probPermanent ?_) (TreeKept.suspOpen ?_ ..)
    · exact ((h.put .el _ _).log ..).trans ⟨rfl, rfl, rfl⟩
    · exact ((h.put .el _ _).log ..).trans ⟨rfl, rfl, rfl⟩
  · exact h.suspOpen ..

theorem xchkVerdict (h : TreeKept s t) (o : QOp) (own : HistEntry) (maj : Option HistEntry) : TreeKept s (t.xchkVerdict o own maj) := by
  have hbad := fun (code : Nat) (vb : Word) => ((((h.put .el Reg.CHK_STAT_XCHK 1).count .el Reg.CHK_CNT_XCHK_FAIL 1).log .el 0x05 code o.pc own.fp.toNat).suspMismatch o.pc 3 own.fp vb |>.checkFail o.pc).endOp o stMismatch
  unfold State.xchkVerdict
  dsimp only
  split
  · exact hbad ..
  · exact .ite ((h.suspOk ..).endOp ..) (hbad ..)

end TreeKept

/-! ### Contributions and the broadcast (R307, R308) -/

section
variable (s : State) (rid : Nat) (g : XGroup)

/-- A group whose verdict passes down has closed. -/
theorem groupVerdict_closes (src : BitVec 32) (maj : Option HistEntry) (total : Nat) : groupAt (s.groupVerdict rid g src maj total).ux.groups rid = none := by
  unfold State.groupVerdict
  dsimp only
  rw [(((TreeKept.refl _).groupPoints g maj).endQid _ _).groups]
  exact groupAt_terase ..

theorem groupCheck_waits (h : s.groupFull g = false) : s.groupCheck rid g = s.setGroups (tins (terase s.ux.groups rid) rid g) := if_pos (by rw [h]; simp)

theorem groupCheck_root (hs : g.sent = false) (h : s.groupFull g = true) (ht : s.tier = 2) : groupAt (s.groupCheck rid g).ux.groups rid = none := by
  have he : s.groupCheck rid g = s.groupVerdict rid g s.redSrc ((g.hist).bind (fun h => histMajority h g.total)) g.total :=
    (if_neg (by rw [hs, h]; decide)).trans (if_pos (by rw [ht]; rfl))
  rw [he]
  exact groupVerdict_closes ..

theorem groupCheck_below (hs : g.sent = false) (h : s.groupFull g = true) (ht : s.tier ≠ 2) : let u := s.groupCheck rid g
    groupAt u.ux.groups rid = some { g with sent := true } ∧ u.el = s.el ∧ Logged .ux s u [] := by
  let t := s.setGroups (tins (terase s.ux.groups rid) rid { g with sent := true })
  have he : s.groupCheck rid g = t.sendUp .ux (.xchkUp (BitVec.ofNat 12 rid) s.redSrc (g.step.getD 0) (match g.hist with | some h => .hist h | none => .overflow)) :=
    (if_neg (by rw [hs, h]; decide)).trans (if_neg (by simpa using ht))
  have hk := (Told.refl t).sendUp (.xchkUp (BitVec.ofNat 12 rid) s.redSrc (g.step.getD 0) (match g.hist with | some h => .hist h | none => .overflow))
  rw [he]
  exact ⟨(congrArg (fun l => groupAt l rid) ((TreeKept.refl t).told hk).groups).trans (groupAt_replaced ..), hk.el, hk.logged .ux⟩

variable (lane : Fin 160) (m : XchkUp) (r : BitVec 12)

theorem xchkContribution_none (ha : s.absorbed lane = false) (h : groupAt s.ux.groups r.toNat = none) : exec (.xchkContribution r lane m) s = .next s.redDiscard := by
  change execXchkContribution r lane m s = _
  unfold execXchkContribution
  rw [if_neg (by rw [ha]; decide), h]

theorem xchkContribution_some (ha : s.absorbed lane = false) (h : groupAt s.ux.groups r.toNat = some g) : exec (.xchkContribution r lane m) s = .next (s.groupTake r.toNat g lane m.step m.body) := by
  change execXchkContribution r lane m s = _
  unfold execXchkContribution
  rw [if_neg (by rw [ha]; decide), h]

/-- The XCHK of a die takes its verdict. -/
def State.xchkEnd (s : State) (r : Nat) (maj : Option HistEntry) : State :=
  match s.xchkOp r with
  | some (o, e) => s.xchkVerdict o e maj
  | none => s

variable (b : XchkDown)

theorem broadcast_sent (h : groupAt s.ux.groups r.toNat = some g) (hs : g.sent = true) :
    exec (.xchkBroadcast r b) s = .next ((s.groupVerdict r.toNat g b.src b.majority b.total.toNat).xchkEnd r.toNat b.majority) := by
  change execXchkBroadcast r b s = _
  unfold execXchkBroadcast
  dsimp only
  rw [h]
  dsimp only
  rw [if_pos hs]
  rfl

theorem broadcast_other (h : groupAt s.ux.groups r.toNat = none ∨ (groupAt s.ux.groups r.toNat = some g ∧ g.sent = false)) : exec (.xchkBroadcast r b) s = .next (s.xchkEnd r.toNat b.majority) := by
  change execXchkBroadcast r b s = _
  unfold execXchkBroadcast
  dsimp only
  rcases h with h | ⟨h, hs⟩
  · rw [h]
    rfl
  · rw [h]
    dsimp only
    rw [if_neg (by rw [hs]; decide)]
    rfl

theorem xchkEnd_tree (maj : Option HistEntry) (n : Nat) : TreeKept s (s.xchkEnd n maj) := by
  unfold State.xchkEnd
  split
  · exact (TreeKept.refl s).xchkVerdict ..
  · exact .refl s
end

/-! ### A mismatch at a die (R308, R312) -/

/-- The XCHK bit, the counts of failed checks and the loaded pairs stand. -/
structure XchkNoted (s t : State) : Prop where
  xchk  : t.get .el Reg.CHK_STAT_XCHK = s.get .el Reg.CHK_STAT_XCHK
  cnt   : t.reg .el Reg.CHK_CNT_XCHK_FAIL.off = s.reg .el Reg.CHK_CNT_XCHK_FAIL.off
  pairs : (t.seq .el).pairs = (s.seq .el).pairs

namespace XchkNoted

variable {s t u : State}

theorem refl (s : State) : XchkNoted s s := ⟨rfl, rfl, rfl⟩

theorem trans (h : XchkNoted s t) (k : XchkNoted t u) : XchkNoted s u := ⟨k.xchk.trans h.xchk, k.cnt.trans h.cnt, k.pairs.trans h.pairs⟩

theorem quiet (h : XchkNoted s t) (k : Quiet t u) : XchkNoted s u := h.trans ⟨congrArg (fun w => fget w _ _) (k.regs _ (by decide)), k.regs _ (by decide), k.pairs⟩

/-- Another bit of CHK_STAT. -/
theorem stat (h : XchkNoted s t) (f : Fld) (v : Nat) (hf : f.off = 0x6008) (hlo : f.lo ≤ f.hi ∧ f.hi < 64) (hd : 4 < f.lo ∨ f.hi < 4) : XchkNoted s (t.put .el f v) :=
  h.trans ⟨get_put_other t .el f Reg.CHK_STAT_XCHK v hlo.2 hlo.1 (by decide) (.inr hd), reg_setReg_other t .el f.off _ _ (by rw [hf]; decide), congrArg Seq.pairs (seq_put ..)⟩

theorem ite {a b : State} {c : Prop} [Decidable c] (ha : XchkNoted s a) (hb : XchkNoted s b) : XchkNoted s (if c then a else b) := by
  split
  · exact ha
  · exact hb

theorem suspOpen (h : XchkNoted s t) (pc op : Nat) (va vb : Word) : XchkNoted s (t.suspOpen pc op va vb) := by
  unfold State.suspOpen
  split
  · exact h.stat Reg.CHK_STAT_SUSP_OVF 1 rfl (by decide) (.inl (by decide))
  · next i _ =>
    have hfar : ∀ a : Nat, 0x6080 ≤ a → checkOff (a + 0x20 * i) = false := fun a ha => Quiet.checkOff_of_gt (by omega)
    exact h.quiet (((((((Quiet.refl t).setReg _ _ (hfar _ (by decide))).put (Reg.CHK_SUSP_INFO_PC i) _ (hfar _ (by decide))).put (Reg.CHK_SUSP_INFO_OP i) _ (hfar _ (by decide))).put (Reg.CHK_SUSP_INFO_OPEN i) _ (hfar _ (by decide))).setReg _ _
      (hfar _ (by decide))).setReg _ _ (hfar _ (by decide)))

/-- The entry of a suspect closes. -/
theorem suspClosed (i pc code : Nat) (f : Elesh → Elesh) (hf : (f ((t.put .el (Reg.CHK_SUSP_INFO_OPEN i) 0).log .el 0x05 code pc i).el).base = ((t.put .el (Reg.CHK_SUSP_INFO_OPEN i) 0).log .el 0x05 code pc i).el.base := by rfl) :
    Quiet t (((t.put .el (Reg.CHK_SUSP_INFO_OPEN i) 0).log .el 0x05 code pc i).modEl f) :=
  (((Quiet.refl t).put (Reg.CHK_SUSP_INFO_OPEN i) 0 (Quiet.checkOff_of_gt (by simp only [Reg.CHK_SUSP_INFO_OPEN]; omega))).log ..).modEl f hf

theorem probPermanent (t : State) : Quiet t t.probPermanent := by
  have hd : Quiet t t.draw.2 := (Quiet.refl t).core (core_draw ..)
  unfold State.probPermanent State.probAct
  refine .ite (hd.put Reg.HC_STAT_VSTEPS _) (.ite ?_ hd)
  unfold State.fmulFollow
  have hp := fun v => (hd.put Reg.HC_STAT_FSTEPS (min 2 (t.draw.2.get .el Reg.HC_STAT_FSTEPS + 1))).put Reg.CLK_STAT_THROTTLE v
  exact .ite (.ite ((hp _).mod _) (hp _)) (.ite (hp _) ((hp _).mod _))

theorem suspMismatch (h : XchkNoted s t) (pc op : Nat) (va vb : Word) : XchkNoted s (t.suspMismatch pc op va vb) := by
  unfold State.suspMismatch
  split
  · exact .ite (h.quiet ((suspClosed ..).trans (probPermanent _))) ((h.quiet (suspClosed ..)).suspOpen ..)
  · exact h.suspOpen ..

end XchkNoted

/-! ### A check failure is marked (R305) -/

theorem bit_of_get {s : State} {p : Part} {f : Fld} (h : s.get p f = 1) : s.bit p f = true := by
  unfold State.bit
  rw [h]
  rfl

theorem get_of_reg {s t : State} {p : Part} {f : Fld} (h : t.reg p f.off = s.reg p f.off) : t.get p f = s.get p f := congrArg (fun w => fget w f.hi f.lo) h

theorem bit_of_reg {s t : State} {p : Part} {f : Fld} (h : t.reg p f.off = s.reg p f.off) : t.bit p f = s.bit p f := congrArg (· != 0) (get_of_reg h)

/-- A count saturates at the top of its field. -/
theorem get_count (s : State) (p : Part) (f : Fld) (n : Nat) (hhi : f.hi < 64) (hlo : f.lo ≤ f.hi) : (s.count p f n).get p f = min (2 ^ (f.hi + 1 - f.lo) - 1) (s.get p f + n) := by
  have h2 : 0 < 2 ^ (f.hi + 1 - f.lo) := Nat.two_pow_pos _
  refine (get_put_same s p f _ hhi hlo).trans (Nat.mod_eq_of_lt ?_)
  have := Nat.min_le_left (2 ^ (f.hi + 1 - f.lo) - 1) (s.get p f + n)
  unfold satAdd
  omega

section
variable (s : State) (pc : Nat)

/-- The first check failure of a step. -/
def State.checkMarked (s : State) : State := (s.put .el Reg.CHK_STAT_FAILED 1).setReg .el Reg.CHK_FAILSTEP_STEP.off (BitVec.ofNat 64 s.stepCur)

theorem stepCur_checkMarked : s.checkMarked.stepCur = s.stepCur :=
  congrArg BitVec.toNat ((reg_setReg_other _ .el Reg.CHK_FAILSTEP_STEP.off _ _ (by decide)).trans (reg_setReg_other s .el Reg.CHK_STAT_FAILED.off _ _ (by decide)))

theorem checkFail_again (h : s.bit .el Reg.CHK_STAT_FAILED = true) : s.checkFail pc = s := if_pos h

theorem checkFail_first (h : s.bit .el Reg.CHK_STAT_FAILED = false) :
    s.checkFail pc = (s.checkMarked.sendUp .el (.sealMsg 0x31 (BitVec.ofNat 20 s.checkMarked.lsi) (BitVec.ofNat 64 s.checkMarked.stepCur))).log .el 0x05 0x5010 pc s.checkMarked.stepCur := if_neg (by rw [h]; decide)

theorem core_checkFail_first (h : s.bit .el Reg.CHK_STAT_FAILED = false) : (s.checkFail pc).core = s.checkMarked.core := by
  rw [checkFail_first s pc h]
  exact (core_log ..).trans (core_sendUp ..)

theorem checkMarked_reads : s.checkMarked.get .el Reg.CHK_STAT_FAILED = 1 ∧ s.checkMarked.reg .el Reg.CHK_FAILSTEP_STEP.off = BitVec.ofNat 64 s.stepCur :=
  ⟨(get_of_reg (reg_setReg_other _ .el _ _ _ (by decide))).trans (get_put_same s .el Reg.CHK_STAT_FAILED 1 (by decide) (by decide)), reg_setReg_same ..⟩

theorem checkFail_failed : (s.checkFail pc).bit .el Reg.CHK_STAT_FAILED = true := by
  cases h : s.bit .el Reg.CHK_STAT_FAILED with
  | true => rwa [checkFail_again s pc h]
  | false => exact bit_of_get ((get_of_reg (reg_of_core (core_checkFail_first s pc h) .el _)).trans (checkMarked_reads s).1)
end

theorem XchkNoted.checkFail {s t : State} (h : XchkNoted s t) (pc : Nat) : XchkNoted s (t.checkFail pc) := by
  cases hf : t.bit .el Reg.CHK_STAT_FAILED with
  | true => rwa [checkFail_again t pc hf]
  | false =>
    have hs := h.stat Reg.CHK_STAT_FAILED 1 rfl (by decide) (.inr (by decide))
    have hr : XchkNoted s t.checkMarked := hs.trans ⟨get_of_reg (reg_setReg_other _ .el _ _ _ (by decide)), reg_setReg_other _ .el _ Reg.CHK_CNT_XCHK_FAIL.off _ (by decide), rfl⟩
    exact hr.quiet ((Quiet.refl _).core (core_checkFail_first t pc hf))

section
variable (s : State) (o : QOp) (own : HistEntry)

/-- A contribution in the minority, or without a majority. -/
def State.xchkBad (s : State) (o : QOp) (own : HistEntry) (code : Nat) (vb : Word) : State :=
  (((((s.put .el Reg.CHK_STAT_XCHK 1).count .el Reg.CHK_CNT_XCHK_FAIL 1).log .el 0x05 code o.pc own.fp.toNat).suspMismatch o.pc 3 own.fp vb).checkFail o.pc).endOp o stMismatch

theorem xchkVerdict_bad (maj : Option HistEntry) (h : ∀ e, maj = some e → ¬ (e.fp = own.fp ∧ e.blocks = own.blocks)) :
    ∃ vb, s.xchkVerdict o own maj = s.xchkBad o own (if maj.isSome then 0x5004 else 0x5005) vb := by
  cases maj with
  | none => exact ⟨0, rfl⟩
  | some e => exact ⟨e.fp, if_neg (h e rfl)⟩

theorem xchkBad_leaves (code : Nat) (vb : Word) (hp : (s.seq .el).pairs = []) : let u := s.xchkBad o own code vb
    u.bit .el Reg.CHK_STAT_XCHK = true ∧ u.bit .el Reg.CHK_STAT_FAILED = true ∧ u.get .el Reg.CHK_CNT_XCHK_FAIL = min (s.get .el Reg.CHK_CNT_XCHK_FAIL + 1) 65535
      ∧ ∃ es, Logged .el s u ((0x05, code, o.pc, own.fp.toNat) :: es) := by
  let a := s.put .el Reg.CHK_STAT_XCHK 1
  let b := a.count .el Reg.CHK_CNT_XCHK_FAIL 1
  let c := b.log .el 0x05 code o.pc own.fp.toNat
  let d := (c.suspMismatch o.pc 3 own.fp vb).checkFail o.pc
  let u := d.endOp o stMismatch
  have hd : XchkNoted c d := ((XchkNoted.refl c).suspMismatch ..).checkFail _
  have hdp : (d.seq .el).pairs = [] := hd.pairs.trans ((congrArg Seq.pairs (seq_of_core (core_log b ..) .el)).trans ((congrArg Seq.pairs (seq_put a ..)).trans ((congrArg Seq.pairs (seq_put s ..)).trans hp)))
  have hu : u = d.endAll (queuePart o.queue) [o] := endOp_adds_eq d o stMismatch rfl
  have hreg : ∀ {i}, checkOff i = true → u.reg .el i = d.reg .el i := fun hi => hu ▸ checkReg_endAll d _ _ hdp hi
  have hbr : ∀ i, i ≠ Reg.CHK_CNT_XCHK_FAIL.off → c.reg .el i = a.reg .el i := fun i hi => (reg_of_core (core_log b ..) .el i).trans (reg_setReg_other a .el _ i _ hi)
  have ha : a.get .el Reg.CHK_STAT_XCHK = 1 := get_put_same s .el Reg.CHK_STAT_XCHK 1 (by decide) (by decide)
  refine ⟨?_, ?_, ?_, ?_⟩
  · exact bit_of_get ((get_of_reg (hreg (by decide))).trans (hd.xchk.trans ((get_of_reg (hbr _ (by decide))).trans ha)))
  · exact (bit_of_reg (hreg (by decide))).trans (checkFail_failed ..)
  · have hc : c.get .el Reg.CHK_CNT_XCHK_FAIL = b.get .el Reg.CHK_CNT_XCHK_FAIL := get_of_reg (reg_of_core (core_log b ..) .el _)
    have ha0 : a.get .el Reg.CHK_CNT_XCHK_FAIL = s.get .el Reg.CHK_CNT_XCHK_FAIL := get_of_reg (reg_setReg_other s .el _ _ _ (by decide))
    rw [Nat.min_comm, ← ha0]
    exact (get_of_reg ((hreg (by decide)).trans hd.cnt)).trans (hc.trans (get_count a .el Reg.CHK_CNT_XCHK_FAIL 1 (by decide) (by decide)))
  · have hl : Logged .el s c [(0x05, code, o.pc, own.fp.toNat)] := logged_log 0x05 code o.pc own.fp.toNat ((events_put a ..).trans (events_put s ..))
    obtain ⟨es, he⟩ := exists_logged_of_keeps .el (keeps_endOp (o := o) (st := stMismatch) (keeps_checkFail (pc := o.pc) (keeps_suspMismatch (pc := o.pc) (op := 3) (va := own.fp) (vb := vb) (keeps_refl c))))
    exact ⟨es, hl.trans he⟩
end

/-! ### The obligation -/

/-- Settles O48: contributions and the broadcast by the group they find, and the verdict of a die by what it leaves of the check registers. -/
theorem crossChecks : Obligations.CrossChecks := by
  unfold Obligations.CrossChecks
  intro rid lane src total step m maj g o own s
  refine ⟨fun h => congrArg Host.Outcome.next (if_pos h), fun ha => ⟨fun h => xchkContribution_none s lane _ rid ha h, fun h => ?_⟩, fun h hs => ?_, fun h => ?_⟩
  · have he := xchkContribution_some s g lane ⟨src, step, m⟩ rid ha h
    refine ⟨fun hd => he.trans (congrArg Host.Outcome.next (if_pos ?_)), fun h1 h2 h3 => ?_⟩
    · rcases hd with hd | hd | hd <;> simp [hd]
    · have ht : s.groupTake rid.toNat g lane step m = s.groupCheck rid.toNat _ := if_neg (by rw [h1, h3]; simpa using h2)
      rw [ht] at he
      exact ⟨fun hf => he.trans (congrArg Host.Outcome.next (groupCheck_waits s _ _ hf)), fun hf h4 => ⟨_, he, groupCheck_below s _ _ h1 hf h4⟩, fun hf h4 => ⟨_, he, groupCheck_root s _ _ h1 hf h4⟩⟩
  · exact ⟨_, broadcast_sent s g rid _ h hs, (congrArg (fun l => groupAt l rid.toNat) (xchkEnd_tree _ maj rid.toNat).groups).trans (groupVerdict_closes ..)⟩
  · have he := broadcast_other s g rid ⟨src, step, maj, total⟩ h
    refine ⟨fun hn => ?_, fun ho => ?_⟩
    · rw [he]
      unfold State.xchkEnd
      rw [hn]
    · have hx : s.xchkEnd rid.toNat maj = s.xchkVerdict o own maj := by
        unfold State.xchkEnd
        rw [ho]
      replace he := he.trans (congrArg Host.Outcome.next hx)
      refine ⟨fun e hm h1 h2 => ?_, fun hm hp => ?_⟩
      · subst hm
        exact he.trans (congrArg Host.Outcome.next (if_pos ⟨h1, h2⟩))
      · obtain ⟨vb, hv⟩ := xchkVerdict_bad s o own maj hm
        exact ⟨_, he.trans (congrArg Host.Outcome.next hv), xchkBad_leaves s o own _ vb hp⟩

end Sys2Proof.Machine

/-! SUPPORT. What the end of an operation of a Uhloux chip leaves of the chip (R143). -/

namespace Sys2Proof.Machine

set_option Elab.async false

/-- SEQ_STAT, SEQ_QSTAT, MAN_STAT and UX_RED_STAT. -/
def endOffs : List Nat := [0x2008, 0x2058, 0xB008, Reg.UX_RED_STAT_OPEN.off]

/-- Beside its base and its counters the chip is the same, and of its base all registers but those, the tick and the memory. -/
structure Ended (s t : State) : Prop where
  chip : ∃ b c d, t.ux = { s.ux with base := b, tc := c, tcSat := d }
  regs : ∀ o, o ∉ endOffs → t.reg .ux o = s.reg .ux o
  frc  : t.ux.base.frc = s.ux.base.frc
  mem  : t.ux.base.mem = s.ux.base.mem

namespace Ended

variable {s t u : State}

theorem refl (s : State) : Ended s s := ⟨⟨_, _, _, rfl⟩, fun _ _ => rfl, rfl, rfl⟩

theorem trans (h : Ended s t) (k : Ended t u) : Ended s u := by
  obtain ⟨b, c, d, hc⟩ := h.chip
  obtain ⟨b', c', d', hk⟩ := k.chip
  exact ⟨⟨b', c', d', by rw [hk, hc]⟩, fun o ho => (k.regs o ho).trans (h.regs o ho), k.frc.trans h.frc, k.mem.trans h.mem⟩

theorem core (h : Ended s t) (hc : u.core = t.core) : Ended s u := by
  refine h.trans ⟨⟨u.ux.base, u.ux.tc, u.ux.tcSat, ?_⟩, fun o _ => reg_of_core hc .ux o, (congrArg (fun v : State => v.ux.base.frc) hc :), (congrArg (fun v : State => v.ux.base.mem) hc :)⟩
  have hx : { u.ux with base := u.ux.base.core } = { t.ux with base := t.ux.base.core } := (congrArg State.ux hc :)
  exact (congrArg (fun v : Uhloux => { v with base := u.ux.base, tc := u.ux.tc, tcSat := u.ux.tcSat }) hx :)

theorem told (h : Ended s t) (k : Told t u) : Ended s u := h.core k.core

theorem onDie (h : Ended s t) (k : OnDie t u) : Ended s u := by
  refine h.trans ⟨⟨t.ux.base, t.ux.tc, t.ux.tcSat, k.ux⟩, fun o _ => ?_, congrArg (fun v : Uhloux => v.base.frc) k.ux, congrArg (fun v : Uhloux => v.base.mem) k.ux⟩
  exact congrArg (fun v : Uhloux => tget (resetWord .ux o) v.base.regs o) k.ux

theorem ite {a b : State} {c : Prop} [Decidable c] (ha : Ended s a) (hb : Ended s b) : Ended s (if c then a else b) := by
  split
  · exact ha
  · exact hb

theorem foldl {α : Type} (h : Ended s t) (l : List α) (f : State → α → State) (hf : ∀ u x, Ended s u → Ended s (f u x)) : Ended s (l.foldl f t) :=
  List.foldlRecOn (motive := Ended s) _ _ h (fun u hu x _ => hf u x hu)

theorem el (h : Ended s t) (f : Elesh → Elesh) : Ended s (t.modEl f) := h.onDie ((OnDie.refl t).modEl f)

theorem mod (h : Ended s t) (f : Base → Base) (hr : (f t.ux.base).regs = t.ux.base.regs := by rfl) (hf : (f t.ux.base).frc = t.ux.base.frc := by rfl) (hm : (f t.ux.base).mem = t.ux.base.mem := by rfl) :
    Ended s (t.mod .ux f) := h.trans ⟨⟨_, _, _, rfl⟩, fun o _ => reg_mod t .ux .ux f o hr, hf, hm⟩

theorem put (h : Ended s t) (f : Fld) (v : Nat) (ho : f.off ∈ endOffs := by decide) : Ended s (t.put .ux f v) :=
  h.trans ⟨⟨_, _, _, rfl⟩, fun o h => reg_setReg_other t .ux f.off o _ (fun e => h (e ▸ ho)), rfl, rfl⟩

theorem log (h : Ended s t) (p : Part) (a b c d : Nat) : Ended s (t.log p a b c d) := h.core (core_log ..)

theorem tcAdd (h : Ended s t) (i n : Nat) : Ended s (t.tcAdd i n) := by
  unfold State.tcAdd
  refine .ite h (.ite (h.trans ⟨⟨_, _, _, rfl⟩, fun _ _ => rfl, rfl, rfl⟩) ?_)
  exact Ended.log (h.trans ⟨⟨_, _, _, rfl⟩, fun _ _ => rfl, rfl, rfl⟩ : Ended s (t.modUx (fun u => { u with tc := tput 0 u.tc i cntTop, tcSat := tput false u.tcSat i true }))) ..

theorem talLast (h : Ended s t) (op pc st block : Nat) : Ended s (t.talLast op pc st block) := .ite h (h.onDie ((OnDie.refl t).setReg ..))

theorem qfail (h : Ended s t) (p : Part) (q : QueueId) (pc st : Nat) : Ended s (t.qfail p q pc st) := by
  cases p with
  | el => exact h.onDie ((OnDie.refl t).qfail ..)
  | ux =>
    exact (((((h.put Reg.SEQ_QSTAT_FLAG _).put Reg.SEQ_QSTAT_STATUS _).put Reg.SEQ_QSTAT_QUEUE _).put Reg.SEQ_QSTAT_COUNT _).put Reg.SEQ_QSTAT_PC _).core
      (core_logW (t.failNoted .ux q pc st (t.failCount .ux)) ..)

theorem drainCheck (h : Ended s t) (p : Part) : Ended s (t.drainCheck p) := by
  cases p with
  | el => exact h.onDie (OnDie.refl t).drainCheck
  | ux => exact .ite (h.put Reg.SEQ_STAT_STATE _) h

theorem dropOp (h : Ended s t) (p : Part) (id : Nat) : Ended s (t.dropOp p id) := by
  cases p with
  | el => exact h.onDie ((OnDie.refl t).mod _)
  | ux => exact h.mod _

theorem endFail (h : Ended s t) (p : Part) (o : QOp) (st : Nat) : Ended s (t.endFail p o st) := (((h.dropOp p o.id).talLast _ _ _ _).qfail p _ _ _).drainCheck p

theorem incPart (h : Ended s t) (p : Part) (incs : List (Nat × Nat)) : Ended s (t.incPart p incs) := by
  cases p with
  | el => exact h.onDie ((OnDie.refl t).incAll incs)
  | ux => exact h.foldl (sumIncs incs) (fun t e => t.tcAdd e.1 e.2) (fun u e hu => hu.tcAdd e.1 e.2)

theorem endAll (h : Ended s t) (p : Part) (os : List QOp) : Ended s (t.endAll p os) := ((h.foldl os (fun t o => t.dropOp p o.id) (fun _ o hu => hu.dropOp p o.id)).incPart p _).drainCheck p

theorem endOp (h : Ended s t) (o : QOp) (st : Nat) : Ended s (t.endOp o st) := .ite (h.endAll (queuePart o.queue) [o]) (h.endFail _ o st)

theorem endQid (h : Ended s t) (qid st : Nat) : Ended s (t.endQid qid st) := by
  unfold State.endQid
  split
  · exact h.endOp ..
  · exact h

theorem manDisarm (h : Ended s t) : Ended s (t.manDisarm .ux) := .ite ((h.put Reg.MAN_STAT_STATE _).mod _) h

/-- A field of the chip beside its base and its counters. -/
theorem proj {α : Type} (h : Ended s t) (f : Uhloux → α) (hf : ∀ u b c d, f { u with base := b, tc := c, tcSat := d } = f u := by intros; rfl) : f t.ux = f s.ux := by
  obtain ⟨b, c, d, he⟩ := h.chip
  rw [he, hf]

theorem get (h : Ended s t) (f : Fld) (ho : f.off ∉ endOffs := by decide) : t.get .ux f = s.get .ux f := get_of_reg (h.regs _ ho)

end Ended

/-! ### A rollback at a chip (R345) -/

/-- What headcount holds of a chip stands: its rollback, members, proposals and observations, and its registers but those an end of an operation writes. -/
structure ChipKept (s t : State) : Prop where
  rollback  : t.ux.rollback = s.ux.rollback
  members   : t.ux.members = s.ux.members
  proposals : t.ux.proposals = s.ux.proposals
  obs       : t.ux.obs = s.ux.obs
  regs      : ∀ o, o ∉ endOffs → t.reg .ux o = s.reg .ux o

namespace ChipKept

variable {s t u : State}

theorem refl (s : State) : ChipKept s s := ⟨rfl, rfl, rfl, rfl, fun _ _ => rfl⟩

theorem trans (h : ChipKept s t) (k : ChipKept t u) : ChipKept s u :=
  ⟨k.rollback.trans h.rollback, k.members.trans h.members, k.proposals.trans h.proposals, k.obs.trans h.obs, fun o ho => (k.regs o ho).trans (h.regs o ho)⟩

theorem ended (h : ChipKept s t) (k : Ended t u) : ChipKept s u := h.trans ⟨k.proj (·.rollback), k.proj (·.members), k.proj (·.proposals), k.proj (·.obs), k.regs⟩

theorem modUx (h : ChipKept s t) (f : Uhloux → Uhloux) (hb : (f t.ux).base = t.ux.base := by rfl) (h1 : (f t.ux).rollback = t.ux.rollback := by rfl) (h2 : (f t.ux).members = t.ux.members := by rfl)
    (h3 : (f t.ux).proposals = t.ux.proposals := by rfl) (h4 : (f t.ux).obs = t.ux.obs := by rfl) : ChipKept s (t.modUx f) :=
  h.trans ⟨h1, h2, h3, h4, fun o _ => reg_modUx t f .ux o (by rw [hb])⟩

theorem put (h : ChipKept s t) (f : Fld) (v : Nat) (ho : f.off ∈ endOffs := by decide) : ChipKept s (t.put .ux f v) :=
  h.trans ⟨rfl, rfl, rfl, rfl, fun o h => reg_setReg_other t .ux f.off o _ (fun e => h (e ▸ ho))⟩

theorem memWrite (h : ChipKept s t) (a : Nat) (bs : List Byte) : ChipKept s (t.memWrite .ux a bs) := h.trans ⟨rfl, rfl, rfl, rfl, fun o _ => reg_mod t .ux .ux _ o rfl⟩

theorem ite {a b : State} {c : Prop} [Decidable c] (ha : ChipKept s a) (hb : ChipKept s b) : ChipKept s (if c then a else b) := by
  split
  · exact ha
  · exact hb

theorem foldl {α : Type} (h : ChipKept s t) (l : List α) (f : State → α → State) (hf : ∀ u x, ChipKept s u → ChipKept s (f u x)) : ChipKept s (l.foldl f t) :=
  List.foldlRecOn (motive := ChipKept s) _ _ h (fun u hu x _ => hf u x hu)

theorem nodesDiscard (h : ChipKept s t) : ChipKept s t.nodesDiscard := h.foldl _ _ (fun _ _ hu => hu.modUx _)

theorem slotsDiscard (h : ChipKept s t) : ChipKept s t.slotsDiscard := by
  have h0 : ChipKept s (t.setSlots []) := (h.modUx (fun u => { u with slots := [] })).put Reg.UX_RED_STAT_OPEN 0
  have h1 : ChipKept s ((t.setSlots []).setGroups []) := h0.modUx _
  have h2 : ChipKept s (((t.setSlots []).setGroups []).modUx (fun u => { u with held := [] })) := h1.modUx _
  exact h2.foldl (t.ux.slots.map (fun e => e.2.qid) ++ t.ux.groups.map (fun e => e.2.qid)) (fun t q => t.endQid q stAborted) (fun _ _ hu => hu.ended ((Ended.refl _).endQid ..))

theorem ledgRollback (h : ChipKept s t) (target : Word) : ChipKept s (t.ledgRollback target) := h.foldl _ _ (fun _ _ hu => .ite (hu.memWrite ..) hu)

theorem uxRollback (h : ChipKept s t) (target : Word) : ChipKept s (t.uxRollback target) := by
  have hd := h.nodesDiscard.slotsDiscard.ended (Ended.refl _).manDisarm
  unfold State.uxRollback
  dsimp only
  exact ChipKept.modUx (.ite ((hd.ledgRollback target).modUx (fun u => { u with lockPri := [], lockShd := [], lockBlock := none, lockSync := false })) hd) _

theorem get (h : ChipKept s t) (f : Fld) (ho : f.off ∉ endOffs := by decide) : t.get .ux f = s.get .ux f := get_of_reg (h.regs _ ho)

end ChipKept

/-! ### A rollback opens (R343, R344) -/

section
variable (s : State)

theorem rbSend_told : Told s s.rbSend := by
  unfold State.rbSend
  split
  · exact ((Told.refl s).sendDown ..).toTwin _
  · exact .refl s

theorem rbOpen_joins (obj : Nat) (h : s.ux.rollback.isSome = true) : s.rbOpen obj = s := if_pos h

/-- The rollback is open and the gate closed. -/
def State.rbOpened (s : State) (obj : Nat) : State :=
  let t := s.reg .ux Reg.UX_SEAL_STAT_LAST.off
  (((s.modUx (fun u => { u with rollback := some { target := t, waitFor := s.knownMembers, ready := [], need := [], assigned := [], leaving := 0, tc := none } })).put .ux Reg.UX_HC_STAT_ROLLBACK 1).put .ux
    Reg.UX_HC_STAT_GATE_CLOSED 1).log .ux 0x42 0x6005 obj t.toNat

theorem rbOpen_opens (obj : Nat) (h : s.ux.rollback = none) : s.rbOpen obj = (s.rbOpened obj).uxRollback (s.reg .ux Reg.UX_SEAL_STAT_LAST.off) := if_neg (by rw [h]; decide)

theorem rbOpened_reads (obj : Nat) : let u := s.rbOpened obj
    u.ux.rollback.isSome = true ∧ u.get .ux Reg.UX_HC_STAT_ROLLBACK = 1 ∧ u.get .ux Reg.UX_HC_STAT_GATE_CLOSED = 1 ∧ u.ux.members = s.ux.members ∧ u.ux.proposals = s.ux.proposals ∧ u.ux.obs = s.ux.obs
      ∧ ∀ o, o ≠ 0x7010 → u.reg .ux o = s.reg .ux o := by
  let t := s.reg .ux Reg.UX_SEAL_STAT_LAST.off
  let a := s.modUx (fun u => { u with rollback := some { target := t, waitFor := s.knownMembers, ready := [], need := [], assigned := [], leaving := 0, tc := none } })
  let b := a.put .ux Reg.UX_HC_STAT_ROLLBACK 1
  let c := b.put .ux Reg.UX_HC_STAT_GATE_CLOSED 1
  have hc : (s.rbOpened obj).core = c.core := core_log c ..
  refine ⟨(congrArg (fun v : State => v.ux.rollback.isSome) hc :), ?_, ?_, (congrArg (fun v : State => v.ux.members) hc :), (congrArg (fun v : State => v.ux.proposals) hc :), (congrArg (fun v : State => v.ux.obs) hc :), fun o ho => ?_⟩
  · refine (get_of_reg (reg_of_core hc .ux _)).trans ((get_put_other b .ux _ _ 1 (by decide) (by decide) (by decide) (by decide)).trans ?_)
    exact get_put_same a .ux Reg.UX_HC_STAT_ROLLBACK 1 (by decide) (by decide)
  · exact (get_of_reg (reg_of_core hc .ux _)).trans (get_put_same b .ux Reg.UX_HC_STAT_GATE_CLOSED 1 (by decide) (by decide))
  · refine (reg_of_core hc .ux o).trans ((reg_setReg_other b .ux _ o _ ho).trans ((reg_setReg_other a .ux _ o _ ho).trans rfl))

/-- A rollback opens, or is joined: what it leaves beside the gate. -/
theorem rbOpen_leaves (obj : Nat) : let u := s.rbOpen obj
    u.ux.rollback.isSome = true ∧ (s.ux.rollback = none → u.get .ux Reg.UX_HC_STAT_ROLLBACK = 1 ∧ u.get .ux Reg.UX_HC_STAT_GATE_CLOSED = 1) ∧ u.ux.members = s.ux.members ∧ u.ux.proposals = s.ux.proposals ∧ u.ux.obs = s.ux.obs
      ∧ ∀ o, o ≠ 0x7010 → o ∉ endOffs → u.reg .ux o = s.reg .ux o := by
  intro u
  by_cases h : s.ux.rollback = none
  · obtain ⟨h1, h2, h3, h4, h5, h6, h7⟩ := rbOpened_reads s obj
    have hk := (ChipKept.refl (s.rbOpened obj)).uxRollback (s.reg .ux Reg.UX_SEAL_STAT_LAST.off)
    have hu : u = (s.rbOpened obj).uxRollback (s.reg .ux Reg.UX_SEAL_STAT_LAST.off) := rbOpen_opens s obj h
    rw [hu]
    exact ⟨(congrArg Option.isSome hk.rollback).trans h1, fun _ => ⟨(hk.get Reg.UX_HC_STAT_ROLLBACK).trans h2, (hk.get Reg.UX_HC_STAT_GATE_CLOSED).trans h3⟩, hk.members.trans h4, hk.proposals.trans h5, hk.obs.trans h6,
      fun o h1 h2 => (hk.regs o h2).trans (h7 o h1)⟩
  · have hs : s.ux.rollback.isSome = true := Option.isSome_iff_ne_none.mpr h
    have hu : u = s := rbOpen_joins s obj hs
    rw [hu]
    exact ⟨hs, fun hn => absurd hn h, rfl, rfl, rfl, fun _ _ _ => rfl⟩
end

end Sys2Proof.Machine

/-! SUPPORT. Ledger records, votes and the seal (R292, R299 to R303, R305, R316 to R318, R325, R344). -/

namespace Sys2Proof.Machine

set_option Elab.async false

/-! ### Index entries (R300) -/

/-- The fields of an index entry lie within their widths. -/
structure LedgIndex.Fits (i : LedgIndex) : Prop where
  step  : i.step < 2 ^ 64
  count : i.count < 256
  lane  : i.lane < 128
  group : i.group < 32

theorem ledgIndexOf_fits (v : Nat) (h : v < 2 ^ 128) : (ledgIndexOf v).Fits := by
  refine ⟨?_, Nat.mod_lt _ (by decide), Nat.mod_lt _ (by decide), Nat.mod_lt _ (by decide)⟩
  show v / 2 ^ 64 < 2 ^ 64
  omega

/-- The three flags of an entry as a number. -/
def LedgIndex.flags (i : LedgIndex) : Nat := (if i.isSealed then 4 else 0) + (if i.ovf then 2 else 0) + (if i.valid then 1 else 0)

theorem LedgIndex.flags_lt (i : LedgIndex) : i.flags < 8 ∧ (i.flags / 4 % 2 == 1) = i.isSealed ∧ (i.flags / 2 % 2 == 1) = i.ovf ∧ (i.flags % 2 == 1) = i.valid := by
  unfold LedgIndex.flags
  cases i.isSealed <;> cases i.ovf <;> cases i.valid <;> decide

theorem LedgIndex.word_eq (i : LedgIndex) : i.word = i.step * 2 ^ 64 + i.count * 2 ^ 16 + i.lane * 2 ^ 9 + i.group * 2 ^ 4 + i.flags := by
  unfold LedgIndex.word LedgIndex.flags
  omega

theorem ledgIndexOf_word (i : LedgIndex) (h : i.Fits) : i.word < 2 ^ 128 ∧ ledgIndexOf i.word = i := by
  obtain ⟨h1, h2, h3, h4⟩ := h
  obtain ⟨h5, h6, h7, h8⟩ := i.flags_lt
  rw [i.word_eq]
  generalize hn : i.step * 2 ^ 64 + i.count * 2 ^ 16 + i.lane * 2 ^ 9 + i.group * 2 ^ 4 + i.flags = n
  have ef : n % 8 = i.flags := by omega
  refine ⟨by omega, ?_⟩
  unfold ledgIndexOf
  rw [show n / 4 % 2 = i.flags / 4 % 2 by omega, show n / 2 % 2 = i.flags / 2 % 2 by omega, show n % 2 = i.flags % 2 by omega, h6, h7, h8, show n / 2 ^ 64 = i.step by omega,
    show n / 2 ^ 16 % 256 = i.count by omega, show n / 2 ^ 9 % 128 = i.lane by omega, show n / 2 ^ 4 % 32 = i.group by omega]

theorem leNat_lt (bs : List Byte) : leNat bs < 256 ^ bs.length := by
  induction bs with
  | nil => decide
  | cons b bs ih =>
    have hb := b.isLt
    rw [leNat, List.length_cons, pow_succ]
    omega

theorem length_mread (m : Mem) (a n : Nat) : (mread m a n).length = n := by
  induction n generalizing a with
  | zero => rfl
  | succ n ih => rw [mread, List.length_cons, ih]

theorem mread_mwrite_apart (m : Mem) (a n c : Nat) (bs : List Byte) (h : a + n ≤ c ∨ c + bs.length ≤ a) : mread (mwrite m c bs) a n = mread m a n := by
  induction n generalizing a with
  | zero => rfl
  | succ n ih => rw [mread, mread, ih (a + 1) (by omega), mget_mwrite_other bs m c a (by omega)]

theorem length_recBytes (r : LedgerRec) : (recBytes r).length = 32 := by
  unfold recBytes
  simp only [List.length_append, length_leBytes]
  rfl

/-! ### The ledger as a reader sees it -/

/-- The registers of the ledger and the memory stand. -/
structure SameLedger (s t : State) : Prop where
  cfg : t.reg .ux 0x6000 = s.reg .ux 0x6000
  mem : t.ux.base.mem = s.ux.base.mem

namespace SameLedger

variable {s t u : State}

theorem trans (h : SameLedger s t) (k : SameLedger t u) : SameLedger s u := ⟨k.cfg.trans h.cfg, k.mem.trans h.mem⟩

theorem core (hc : t.core = s.core) : SameLedger s t := ⟨reg_of_core hc .ux _, (congrArg (fun v : State => v.ux.base.mem) hc :)⟩

theorem ite {a b : State} {c : Prop} [Decidable c] (ha : SameLedger s a) (hb : SameLedger s b) : SameLedger s (if c then a else b) := by
  split
  · exact ha
  · exact hb

theorem indexAddr (h : SameLedger s t) (pos : Nat) : t.indexAddr pos = s.indexAddr pos := congrArg (fun w => fget w 29 14 * 2 ^ 30 + 16 * pos) h.cfg

theorem pageAddr (h : SameLedger s t) (pos : Nat) : t.pageAddr pos = s.pageAddr pos := congrArg (fun w => fget w 47 30 * 2 ^ 30 + 4096 * pos) h.cfg

theorem ledgPos (h : SameLedger s t) (step lane group : Nat) : t.ledgPos step lane group = s.ledgPos step lane group :=
  congrArg (fun w => ((if fget w 13 0 = 0 then 0 else step % fget w 13 0) * 128 + lane) * 32 + group) h.cfg

theorem hbm (h : SameLedger s t) (a n : Nat) : t.hbm a n = s.hbm a n := congrArg (fun m => mread m a n) h.mem

theorem ledgIndex (h : SameLedger s t) (pos : Nat) : t.ledgIndex pos = s.ledgIndex pos := by
  unfold State.ledgIndex
  rw [h.indexAddr, h.hbm]

end SameLedger

section
variable (s : State) (pos : Nat)

theorem ledgIndex_fits : (s.ledgIndex pos).Fits := ledgIndexOf_fits _ (by
  have h := leNat_lt (s.hbm (s.indexAddr pos) 16)
  unfold State.hbm at h
  rw [length_mread] at h
  exact h)

/-- A write to HBM leaves the registers. -/
theorem cfg_hbmPut (a : Nat) (bs : List Byte) : (s.hbmPut a bs).reg .ux 0x6000 = s.reg .ux 0x6000 := reg_mod s .ux .ux _ _ rfl

theorem indexAddr_hbmPut (a : Nat) (bs : List Byte) : (s.hbmPut a bs).indexAddr pos = s.indexAddr pos := congrArg (fun w => fget w 29 14 * 2 ^ 30 + 16 * pos) (cfg_hbmPut s a bs)

theorem ledgIndex_setIndex (i : LedgIndex) (hi : i.Fits) : (s.setIndex pos i).ledgIndex pos = i := by
  have hr : (s.setIndex pos i).hbm (s.indexAddr pos) 16 = leBytes 16 i.word := by
    have h := mread_mwrite (leBytes 16 i.word) s.ux.base.mem (s.indexAddr pos)
    rw [length_leBytes] at h
    exact h
  obtain ⟨h1, h2⟩ := ledgIndexOf_word i hi
  have ha : (s.setIndex pos i).indexAddr pos = s.indexAddr pos := indexAddr_hbmPut ..
  unfold State.ledgIndex
  rw [ha, hr, leNat_leBytes, Nat.mod_eq_of_lt (lt_of_lt_of_eq h1 (by norm_num)), h2]
end

/-! ### A record is taken (R299) -/

section
variable (s : State) (lane : Fin 128) (ord : Nat) (r : LedgerRec)

theorem events_setMember (pdi code : Nat) (p : Part) : ((s.setMember pdi code).base p).events = (s.base p).events := by
  unfold State.setMember
  dsimp only
  split
  · split
    · exact (events_put ..).trans ((events_put ..).trans (by cases p <;> rfl))
    · exact (events_put ..).trans (by cases p <;> rfl)
  · cases p <;> rfl

/-- A register of the chip below those of its lanes. -/
theorem reg_setMember_below (pdi code o : Nat) (ho : o < 0x40000) : (s.setMember pdi code).reg .ux o = s.reg .ux o := by
  let a := s.modUx (fun u => { u with members := tput 0 u.members pdi code })
  let b := a.put .ux (Reg.UX_LANE_HC_STATE (pdi % 128)) code
  have ha : a.reg .ux o = s.reg .ux o := reg_modUx s _ .ux _ rfl
  have hb : b.reg .ux o = s.reg .ux o := (reg_setReg_other a .ux _ _ _ (by simp only [Reg.UX_LANE_HC_STATE]; omega)).trans ha
  have hc : (b.put .el Reg.HC_STAT_STATE code).reg .ux o = s.reg .ux o := (reg_setReg_part _ _ _ _ (by decide)).trans hb
  unfold State.setMember
  dsimp only
  split
  · split
    · exact hc
    · exact hb
  · exact ha

theorem mem_setMember (pdi code : Nat) : (s.setMember pdi code).ux.base.mem = s.ux.base.mem := by
  unfold State.setMember
  dsimp only
  split
  · split <;> rfl
  · rfl

/-- A record that is new at this leaf, accepted. -/
def State.recKnown (s : State) (lane ord : Nat) (r : LedgerRec) : State :=
  (s.modUx (fun u => { u with accepted := u.accepted ++ [(lane, r.step, ord)] })).learnLsi lane (r.lsi.toNat % 2 ^ 20)

theorem recKnown_leaves (n : Nat) : SameLedger s (s.recKnown n ord r) ∧ Logged .ux s (s.recKnown n ord r) [] ∧ (s.recKnown n ord r).bit .ux Reg.UX_LOCK_CTRL_EN = s.bit .ux Reg.UX_LOCK_CTRL_EN := by
  let a := s.modUx (fun u => { u with accepted := u.accepted ++ [(n, r.step, ord)] })
  let b := a.modUx (fun u => { u with lsiOf := tput 0 u.lsiOf (r.lsi.toNat % 2 ^ 20) (a.pdiOf n + 1), hallLsis := if u.hallLsis.contains (r.lsi.toNat % 2 ^ 20) then u.hallLsis else u.hallLsis ++ [r.lsi.toNat % 2 ^ 20] })
  have ha : ∀ o, a.reg .ux o = s.reg .ux o := fun o => reg_modUx s _ .ux o rfl
  have hb : ∀ o, b.reg .ux o = s.reg .ux o := fun o => (reg_modUx a _ .ux o rfl).trans (ha o)
  have hc : ∀ o, o < 0x40000 → (b.setMember (a.pdiOf n) 3).reg .ux o = s.reg .ux o := fun o ho => (reg_setMember_below b _ _ o ho).trans (hb o)
  show SameLedger s (a.learnLsi n _) ∧ Logged .ux s (a.learnLsi n _) [] ∧ (a.learnLsi n _).bit .ux Reg.UX_LOCK_CTRL_EN = _
  unfold State.learnLsi
  dsimp only
  split
  · exact ⟨⟨ha _, rfl⟩, logged_nil rfl, bit_of_reg (ha _)⟩
  · split
    · exact ⟨⟨hc _ (by decide), mem_setMember ..⟩, logged_nil (events_setMember b _ _ .ux), bit_of_reg (hc _ (by decide))⟩
    · exact ⟨⟨hb _, rfl⟩, logged_nil rfl, bit_of_reg (hb _)⟩

theorem ledgTake_again (h : s.ux.accepted.contains (lane.val, r.step, ord) = true) : s.ledgTake lane ord r = s := if_pos h

theorem ledgTake_new (h : s.ux.accepted.contains (lane.val, r.step, ord) = false) (he : s.bit .ux Reg.UX_LOCK_CTRL_EN = false) (hk : r.kind.toNat ≤ 5) :
    s.ledgTake lane ord r = (s.recKnown lane ord r).ledgStore lane r := by
  have hl : (s.recKnown lane ord r).lockTake lane ord r = s.recKnown lane ord r := if_pos (by rw [(recKnown_leaves s ord r lane).2.2, he]; rfl)
  refine (if_neg (by rw [h]; decide)).trans ?_
  show (if r.kind.toNat ≤ 5 then ((s.recKnown lane ord r).lockTake lane ord r).ledgStore lane r else _) = _
  rw [if_pos hk, hl]

theorem ledgerRecords_leaf (ord : BitVec 32) (h : s.tier = 0) : exec (.ledgerRecords lane ord [r]) s = .next ((s.ledgTake lane ord.toNat r).send .ux lane (.ledgerAck ord.toNat)) := if_neg (by rw [h]; decide)

/-- A leaf has taken a record new to it: what was stored is stored in the state that knows the record, and the acknowledgement changes nothing of it. -/
theorem ledgerRecords_stores (ord : BitVec 32) (h : s.tier = 0) (hn : s.ux.accepted.contains (lane.val, r.step, ord.toNat) = false) (he : s.bit .ux Reg.UX_LOCK_CTRL_EN = false) (hk : r.kind.toNat ≤ 5) :
    ∃ t u, SameLedger s t ∧ Logged .ux s t [] ∧ Told (t.ledgStore lane r) u ∧ exec (.ledgerRecords lane ord [r]) s = .next u := by
  obtain ⟨h1, h2, -⟩ := recKnown_leaves s ord.toNat r lane
  refine ⟨s.recKnown lane ord.toNat r, _, h1, h2, (Told.refl _).send lane (.ledgerAck ord.toNat), ?_⟩
  rw [ledgerRecords_leaf s lane r ord h, ledgTake_new s lane ord.toNat r hn he hk]
end

/-! ### A record is stored (R300, R301) -/

section
variable (s : State) (lane : Nat) (r : LedgerRec)

/-- The position of a record's page. -/
def State.recPos (s : State) (lane : Nat) (r : LedgerRec) : Nat := s.ledgPos r.step.toNat lane (r.tensor.toNat / 128 % 32)

theorem ledgStore_adds (hv : (s.ledgIndex (s.recPos lane r)).valid = true) (hs : (s.ledgIndex (s.recPos lane r)).step = r.step.toNat) (hc : (s.ledgIndex (s.recPos lane r)).count < 128) :
    s.ledgStore lane r = (s.hbmPut (s.pageAddr (s.recPos lane r) + 32 * (s.ledgIndex (s.recPos lane r)).count) (recBytes r)).setIndex (s.recPos lane r)
      { s.ledgIndex (s.recPos lane r) with count := (s.ledgIndex (s.recPos lane r)).count + 1 } := by
  unfold State.recPos at *
  unfold State.ledgStore
  dsimp only
  rw [if_pos (by rw [hv, hs]; simp), if_pos hc]

theorem ledgStore_begins (hv : (s.ledgIndex (s.recPos lane r)).valid = false) :
    s.ledgStore lane r = (s.hbmPut (s.pageAddr (s.recPos lane r)) (recBytes r ++ List.replicate 4064 0)).setIndex (s.recPos lane r)
      { step := r.step.toNat, count := 1, lane := lane, group := r.tensor.toNat / 128 % 32, isSealed := false, ovf := false, valid := true } := by
  unfold State.recPos at *
  unfold State.ledgStore
  dsimp only
  rw [hv, Bool.false_and, Bool.false_and, Bool.false_and, Bool.false_and, if_neg Bool.false_ne_true, if_neg Bool.false_ne_true, if_neg Bool.false_ne_true]

theorem events_hbmPut (a : Nat) (bs : List Byte) : ((s.hbmPut a bs).base .ux).events = (s.base .ux).events := rfl

/-- A record beside an index entry is read back. -/
theorem hbm_setIndex (pos : Nat) (i : LedgIndex) (a : Nat) (bs : List Byte) (h : a + bs.length ≤ s.indexAddr pos ∨ s.indexAddr pos + 16 ≤ a) : ((s.hbmPut a bs).setIndex pos i).hbm a bs.length = bs := by
  have hl : (leBytes 16 i.word).length = 16 := length_leBytes ..
  have hm := mread_mwrite_apart (mwrite s.ux.base.mem a bs) a bs.length ((s.hbmPut a bs).indexAddr pos) (leBytes 16 i.word) (by rw [indexAddr_hbmPut, hl]; exact h)
  exact hm.trans (mread_mwrite ..)

/-- A record joins its page. -/
theorem ledgStore_joined (hv : (s.ledgIndex (s.recPos lane r)).valid = true) (hs : (s.ledgIndex (s.recPos lane r)).step = r.step.toNat) (hc : (s.ledgIndex (s.recPos lane r)).count < 128) :
    let pos := s.recPos lane r
    let i := s.ledgIndex pos
    let u := s.ledgStore lane r
    u.ledgIndex pos = { i with count := i.count + 1 } ∧ Logged .ux s u []
      ∧ (s.pageAddr pos + 4096 ≤ s.indexAddr pos ∨ s.indexAddr pos + 16 ≤ s.pageAddr pos → u.hbm (s.pageAddr pos + 32 * i.count) 32 = recBytes r) := by
  intro pos i u
  have hu : u = (s.hbmPut (s.pageAddr pos + 32 * i.count) (recBytes r)).setIndex pos { i with count := i.count + 1 } := ledgStore_adds s lane r hv hs hc
  have hf := ledgIndex_fits s pos
  have hc : i.count < 128 := hc
  rw [hu]
  refine ⟨ledgIndex_setIndex _ pos _ ⟨hf.step, show i.count + 1 < 256 by omega, hf.lane, hf.group⟩, logged_nil ((events_hbmPut ..).trans (events_hbmPut ..)), fun hd => ?_⟩
  have hl := length_recBytes r
  have hb := hbm_setIndex s pos { i with count := i.count + 1 } (s.pageAddr pos + 32 * i.count) (recBytes r) (by omega)
  rwa [hl] at hb

/-- A record begins its page. -/
theorem ledgStore_first (hl : lane < 128) (hv : (s.ledgIndex (s.recPos lane r)).valid = false) :
    let u := s.ledgStore lane r
    u.ledgIndex (s.recPos lane r) = { step := r.step.toNat, count := 1, lane := lane, group := r.tensor.toNat / 128 % 32, isSealed := false, ovf := false, valid := true } ∧ Logged .ux s u [] := by
  intro u
  have hu := ledgStore_begins s lane r hv
  show (s.ledgStore lane r).ledgIndex _ = _ ∧ Logged .ux s (s.ledgStore lane r) []
  rw [hu]
  exact ⟨ledgIndex_setIndex _ _ _ ⟨r.step.isLt, show 1 < 256 by decide, hl, Nat.mod_lt _ (by decide)⟩, logged_nil ((events_hbmPut ..).trans (events_hbmPut ..))⟩
end

/-! ### Votes and failures at the root (R316, R317, R343, R344) -/

section
variable (s : State) (x : Fin 160) (v : SealVote)

theorem absorbed_learnPort (y : Fin 160) (n m : Nat) : (s.learnPort n m).absorbed y = s.absorbed y := by
  obtain ⟨l, hl⟩ := learnPort_leaves s n m
  rw [hl]
  exact SameChip.lockLane ((SameChip.refl s).modUx _ rfl rfl) Reg.UX_LOCK_CTRL_SHD rfl y

theorem reg_learnPort (n m : Nat) (p : Part) (o : Nat) : (s.learnPort n m).reg p o = s.reg p o := by
  obtain ⟨l, hl⟩ := learnPort_leaves s n m
  rw [hl]
  exact reg_modUx s _ p o rfl

theorem tier_learnPort (n m : Nat) : (s.learnPort n m).tier = s.tier := get_of_reg (reg_learnPort ..)

theorem passVote_absorbed (h : s.absorbed x = true) : exec (.passVote x v) s = .next (s.learnPort x v.lsi.toNat) := if_pos (by rw [absorbed_learnPort]; exact h)

theorem passVote_below (h : s.absorbed x = false) (ht : s.tier ≠ 2) : exec (.passVote x v) s = .next ((s.learnPort x v.lsi.toNat).sendUp .ux (.sealMsg 0x30 v.lsi v.step)) :=
  (if_neg (by rw [absorbed_learnPort, h]; decide)).trans (if_pos (by rw [tier_learnPort]; exact ht))

/-- The root holds no vote while a FAIL is pending or a rollback is open. -/
theorem sealBarred_learnPort : ((s.learnPort x v.lsi.toNat).bit .ux Reg.UX_SEAL_FAIL_PENDING || (s.learnPort x v.lsi.toNat).bit .ux Reg.UX_HC_STAT_ROLLBACK) = (s.bit .ux Reg.UX_SEAL_FAIL_PENDING || s.bit .ux Reg.UX_HC_STAT_ROLLBACK) := by
  rw [bit_of_reg (reg_learnPort s x v.lsi.toNat .ux _), bit_of_reg (reg_learnPort s x v.lsi.toNat .ux _)]

theorem passVote_barred (h : s.absorbed x = false) (ht : s.tier = 2) (hb : ¬ (s.bit .ux Reg.UX_SEAL_FAIL_PENDING = false ∧ s.bit .ux Reg.UX_HC_STAT_ROLLBACK = false)) :
    exec (.passVote x v) s = .next (s.learnPort x v.lsi.toNat) := by
  refine (if_neg (by rw [absorbed_learnPort, h]; decide)).trans ((if_neg (by rw [tier_learnPort, ht]; decide)).trans (if_pos ?_))
  rw [sealBarred_learnPort]
  simpa [not_and_or, Classical.or_iff_not_imp_left] using hb

/-- A vote is held. -/
def State.voted (s : State) (x : Fin 160) (v : SealVote) : State :=
  (s.learnPort x v.lsi.toNat).modUx (fun u => { u with
    passVotes := if u.passVotes.contains (v.lsi.toNat, v.step) then u.passVotes else u.passVotes ++ [(v.lsi.toNat, v.step)]
    hallLsis := if u.hallLsis.contains v.lsi.toNat then u.hallLsis else u.hallLsis ++ [v.lsi.toNat] })

theorem passVote_held (h : s.absorbed x = false) (ht : s.tier = 2) (hb : s.bit .ux Reg.UX_SEAL_FAIL_PENDING = false ∧ s.bit .ux Reg.UX_HC_STAT_ROLLBACK = false) :
    exec (.passVote x v) s = .next (State.sealTry (s.voted x v).ux.lseals.length (s.voted x v)) := by
  refine (if_neg (by rw [absorbed_learnPort, h]; decide)).trans ((if_neg (by rw [tier_learnPort, ht]; decide)).trans (if_neg ?_))
  rw [sealBarred_learnPort, hb.1, hb.2]
  decide

theorem contains_added {α : Type} [BEq α] [LawfulBEq α] (l : List α) (a b : α) : (if l.contains a then l else l ++ [a]).contains b = (b == a || l.contains b) := by
  split
  · next h =>
    by_cases hb : b = a
    · rw [hb, h]
      simp
    · simp [hb]
  · rw [List.contains_append, Bool.or_comm]
    simp

theorem voted_leaves : let u := s.voted x v
    (∀ l, u.ux.hallLsis.contains l = (l == v.lsi.toNat || s.ux.hallLsis.contains l)) ∧ (∀ e, u.ux.passVotes.contains e = (e == (v.lsi.toNat, v.step) || s.ux.passVotes.contains e))
      ∧ u.ux.lseals = s.ux.lseals ∧ u.draws = s.draws ∧ u.el = s.el ∧ RegsBut [] s u ∧ Logged .ux s u [] := by
  obtain ⟨l, hl⟩ := learnPort_leaves s x v.lsi.toNat
  unfold State.voted
  rw [hl]
  exact ⟨fun l => contains_added .., fun e => contains_added .., rfl, rfl, rfl, fun p o _ => (reg_modUx _ _ p o rfl).trans (reg_modUx s _ p o rfl), logged_nil rfl⟩

variable (step : Word)

theorem lsealDone_ended : Ended (s.modUx (fun u => { u with lseals := u.lseals.filter (fun l => !decide (l.1.toNat ≤ step.toNat)) })) (s.lsealDone step) := by
  unfold State.lsealDone
  exact (Ended.refl _).endAll .ux _

/-- A root with a vote held, as it reads its last seal. -/
theorem voted_lastSealed (ht : s.tier = 2) : (s.voted x v).lastSealed = s.reg .ux Reg.UX_SEAL_STAT_LAST.off := by
  obtain ⟨-, -, -, -, -, h6, -⟩ := voted_leaves s x v
  have htier : (s.voted x v).tier = 2 := (get_of_reg (h6 .ux _ (by simp))).trans ht
  exact (if_pos htier).trans (h6 .ux _ (by simp))

/-- The last vote that was missing makes the step ready (R316). -/
theorem voted_ready (ht : s.tier = 2) (hb : s.bit .ux Reg.UX_SEAL_FAIL_PENDING = false ∧ s.bit .ux Reg.UX_HC_STAT_ROLLBACK = false) (hl : s.ux.lseals.any (fun l => l.1 == v.step) = true)
    (hall : s.ux.hallLsis.all (fun y => y == v.lsi.toNat || s.ux.passVotes.contains (y, v.step)) = true)
    (hmem : ∀ e ∈ Config.hallMembers s.draws, e.2 = v.lsi.toNat ∨ s.ux.passVotes.contains (e.2, v.step) = true) : (s.voted x v).sealReady v.step = true := by
  obtain ⟨h1, h2, h3, h4, -, h6, -⟩ := voted_leaves s x v
  have hvote : ∀ l, l = v.lsi.toNat ∨ s.ux.passVotes.contains (l, v.step) = true → (s.voted x v).ux.passVotes.contains (l, v.step) = true := fun l h => (h2 _).trans (by
    rcases h with h | h
    · rw [h]; simp
    · rw [h]; simp)
  have hne : (s.voted x v).ux.hallLsis.isEmpty = false := by
    have hc := (h1 v.lsi.toNat).trans (by simp : _ = true)
    cases hl : (s.voted x v).ux.hallLsis with
    | nil => rw [hl] at hc; exact absurd hc (by simp)
    | cons => rfl
  unfold State.sealReady
  rw [show (s.voted x v).tier = 2 from (get_of_reg (h6 .ux _ (by simp))).trans ht, bit_of_reg (f := Reg.UX_SEAL_FAIL_PENDING) (h6 .ux _ (by simp)), bit_of_reg (f := Reg.UX_HC_STAT_ROLLBACK) (h6 .ux _ (by simp)), hb.1, hb.2, h3, hl, hne, h4]
  simp only [beq_self_eq_true, Bool.not_false, Bool.and_self, Bool.true_and, Bool.and_eq_true, List.all_eq_true]
  refine ⟨fun l hm => hvote l ?_, fun e he => hvote _ (hmem e he)⟩
  have hc := (h1 l).symm.trans (List.contains_iff_mem.mpr hm)
  rw [Bool.or_eq_true] at hc
  rcases hc with hc | hc
  · exact .inl (by simpa using hc)
  · have := List.all_eq_true.mp hall l (List.contains_iff_mem.mp hc)
    simpa using this

/-- The seal of a step is published at the root (R316). -/
theorem sealPublish_leaves (hl : ∀ e ∈ s.ux.lseals, e.1 = step) : let u := s.sealPublish step
    u.reg .ux Reg.UX_SEAL_STAT_LAST.off = step ∧ u.ux.lseals = [] ∧ ∃ es, Logged .ux s u ((0x4C, 0x5020, 0, step.toNat) :: es) := by
  let a := (s.setReg .ux Reg.UX_SEAL_STAT_LAST.off step).modUx (fun u => { u with passVotes := u.passVotes.filter (fun v => v.2 != step) })
  let b := a.sendDown a.memberPorts (.sealMsg 0x32 0 step)
  let c := b.log .ux 0x4C 0x5020 0 step.toNat
  let d := c.modUx (fun u => { u with lseals := u.lseals.filter (fun l => !decide (l.1.toNat ≤ step.toNat)) })
  have hb : Told a b := (Told.refl a).sendDown ..
  have hc : c.core = a.core := (core_log b ..).trans hb.core
  have he : Ended d (s.sealPublish step) := lsealDone_ended c step
  have hseals : c.ux.lseals = s.ux.lseals := (congrArg (fun v : State => v.ux.lseals) hc :)
  refine ⟨?_, ?_, ?_⟩
  · refine (he.regs _ (by decide)).trans ((reg_modUx c _ .ux _ rfl).trans ((reg_of_core hc .ux _).trans ((reg_modUx _ _ .ux _ rfl).trans ?_)))
    exact reg_setReg_same ..
  · refine (he.proj (·.lseals)).trans (List.filter_eq_nil_iff.mpr (fun e hm => ?_))
    rw [hseals] at hm
    simp [hl e hm]
  · have hlog : Logged .ux s c [(0x4C, 0x5020, 0, step.toNat)] := logged_log 0x4C 0x5020 0 step.toNat (hb.events .ux)
    obtain ⟨es, hk⟩ := exists_logged_of_keeps .ux (keeps_lsealDone (step := step) (keeps_refl c))
    exact ⟨es, hlog.trans hk⟩

theorem failMessage_below (h : s.absorbed x = false) (ht : s.tier ≠ 2) : exec (.failMessage x v) s = .next (s.sendUp .ux (.sealMsg 0x31 v.lsi v.step)) :=
  (if_neg (by rw [h]; decide)).trans (if_pos ht)

/-- The first FAIL is recorded. -/
def State.failHeld (s : State) (v : SealVote) : State :=
  if s.bit .ux Reg.UX_SEAL_FAIL_PENDING then s else (s.put .ux Reg.UX_SEAL_FAIL_LSI v.lsi.toNat).put .ux Reg.UX_SEAL_FAIL_PENDING 1

theorem failMessage_root (h : s.absorbed x = false) (ht : s.tier = 2) : exec (.failMessage x v) s = .next (if (s.failHeld v).authority then (s.failHeld v).rbFail else s.failHeld v) :=
  (if_neg (by rw [h]; decide)).trans (if_neg (by rw [ht]; decide))

theorem failHeld_reads : let u := s.failHeld v
    u.bit .ux Reg.UX_SEAL_FAIL_PENDING = true ∧ u.get .ux Reg.UX_SEAL_FAIL_LSI = (if s.bit .ux Reg.UX_SEAL_FAIL_PENDING then s.get .ux Reg.UX_SEAL_FAIL_LSI else v.lsi.toNat)
      ∧ u.authority = s.authority ∧ u.ux.rollback = s.ux.rollback := by
  unfold State.failHeld
  split
  · next h => exact ⟨h, rfl, rfl, rfl⟩
  · let a := s.put .ux Reg.UX_SEAL_FAIL_LSI v.lsi.toNat
    have hr : ∀ o, o ≠ 0x6058 → (a.put .ux Reg.UX_SEAL_FAIL_PENDING 1).reg .ux o = s.reg .ux o := fun o ho => (reg_setReg_other a .ux _ o _ ho).trans (reg_setReg_other s .ux _ o _ ho)
    refine ⟨bit_of_get (get_put_same a .ux Reg.UX_SEAL_FAIL_PENDING 1 (by decide) (by decide)), ?_, ?_, rfl⟩
    · refine (get_put_other a .ux Reg.UX_SEAL_FAIL_PENDING Reg.UX_SEAL_FAIL_LSI 1 (by decide) (by decide) (by decide) (by decide)).trans ((get_put_same s .ux Reg.UX_SEAL_FAIL_LSI _ (by decide) (by decide)).trans ?_)
      exact Nat.mod_eq_of_lt v.lsi.isLt
    · unfold State.authority State.tier State.bit
      rw [get_of_reg (hr Reg.UX_IDENT_ROLE_TIER.off (by decide)), get_of_reg (f := Reg.UX_IDENT_ROLE_PLANE) (hr _ (by decide)), get_of_reg (f := Reg.UX_LAUNCH_CTRL_BAR_PLANE) (hr _ (by decide)),
        get_of_reg (f := Reg.UX_HC_STAT_AUTHORITY) (hr _ (by decide))]

/-- A FAIL opens a rollback, or finds one open. -/
theorem rbFail_leaves : let u := s.rbFail
    u.ux.rollback.isSome = true ∧ (s.ux.rollback = none → u.bit .ux Reg.UX_HC_STAT_ROLLBACK = true ∧ u.bit .ux Reg.UX_HC_STAT_GATE_CLOSED = true) ∧ u.reg .ux 0x6058 = s.reg .ux 0x6058 := by
  by_cases h : s.ux.rollback = none
  · have hu : s.rbFail = (s.rbOpen 0).rbSend := if_neg (by rw [h]; decide)
    obtain ⟨h1, h2, -, -, -, h3⟩ := rbOpen_leaves s 0
    have ht := rbSend_told (s.rbOpen 0)
    rw [hu]
    exact ⟨(congrArg (fun v : State => v.ux.rollback.isSome) ht.core :).trans h1, fun _ => ⟨bit_of_get ((ht.get ..).trans (h2 h).1), bit_of_get ((ht.get ..).trans (h2 h).2)⟩, (ht.reg ..).trans (h3 _ (by decide) (by decide))⟩
  · have hs : s.ux.rollback.isSome = true := Option.isSome_iff_ne_none.mpr h
    have hu : s.rbFail = s := if_pos hs
    rw [hu]
    exact ⟨hs, fun hn => absurd hn h, rfl⟩
end

/-! ### The seal at a die and at a leaf or spine (R317, R306) -/

section
variable (s : State) (step : Word)

theorem qops_dropOps (os : List QOp) : (os.foldl (fun t o => t.dropOp .el o.id) s).el.base.qops = s.el.base.qops.filter (fun q => !os.any (fun o => o.id == q.id)) := by
  induction os generalizing s with
  | nil => simp
  | cons o os ih =>
    rw [List.foldl_cons, ih]
    show (s.el.base.qops.filter (fun q => q.id != o.id)).filter _ = _
    rw [List.filter_filter]
    refine List.filter_congr (fun q _ => ?_)
    rw [List.any_cons, Bool.not_or, Bool.and_comm, bne, Bool.beq_comm]

theorem elSeal_takes (h : isSealedBy (s.reg .el Reg.CHK_SEAL_LAST.off) step = false) (hp : (s.seq .el).pairs = []) : let u := s.elSeal step
    u.reg .el Reg.CHK_SEAL_LAST.off = step ∧ ∀ o ∈ s.el.base.qops, ∀ x, o.kind = .sealq x → o.started = true → x.toNat ≤ step.toNat → u.findOp .el o.id = none := by
  let a := s.setReg .el Reg.CHK_SEAL_LAST.off step
  let hit := s.el.base.qops.filter (fun o => o.started && (match o.kind with | .sealq x => decide (x.toNat ≤ step.toNat) | _ => false))
  have hu : s.elSeal step = a.endAll .el hit := if_neg (by rw [h]; decide)
  rw [hu]
  refine ⟨(checkReg_endAll a .el hit hp (by decide)).trans (reg_setReg_same ..), fun o ho x hk hs hx => ?_⟩
  have hmem : o ∈ hit := List.mem_filter.mpr ⟨ho, by rw [hs, hk]; simpa using hx⟩
  refine List.find?_eq_none.mpr (fun q hq => ?_)
  have hq' : q ∈ (hit.foldl (fun t o => t.dropOp .el o.id) a).el.base.qops := (quiet_endAll a .el hit hp).qops ▸ hq
  rw [qops_dropOps] at hq'
  have hne := (List.mem_filter.mp hq').2
  intro he
  have hany : hit.any (fun o => o.id == q.id) = true := List.any_eq_true.mpr ⟨o, hmem, by rw [Bool.beq_comm]; exact he⟩
  rw [hany] at hne
  exact absurd hne (by decide)

/-- The last SEAL taken stands. -/
structure SealKept (s t : State) : Prop where
  last : t.ux.lastSeal = s.ux.lastSeal

namespace SealKept

variable {s t : State}

theorem refl (s : State) : SealKept s s := ⟨rfl⟩

theorem hbmPut (h : SealKept s t) (a : Nat) (bs : List Byte) : SealKept s (t.hbmPut a bs) := ⟨h.last⟩

theorem setIndex (h : SealKept s t) (pos : Nat) (i : LedgIndex) : SealKept s (t.setIndex pos i) := h.hbmPut _ _

theorem modUx (h : SealKept s t) (f : Uhloux → Uhloux) (hf : ∀ u, (f u).lastSeal = u.lastSeal) : SealKept s (t.modUx f) := ⟨(hf t.ux).trans h.last⟩

theorem foldl {α : Type} (h : SealKept s t) (l : List α) (f : State → α → State) (hf : ∀ u x, SealKept s u → SealKept s (f u x)) : SealKept s (l.foldl f t) :=
  List.foldlRecOn (motive := SealKept s) l f h (fun u hu x _ => hf u x hu)

theorem digests (h : SealKept s t) (ds : List (List Byte)) (n lane : Nat) : SealKept s (ds.foldl (fun (a : State × Nat) d => (a.1.hbmPut (a.1.digestAddr n lane a.2) d, a.2 + 1)) (t, 0)).1 :=
  List.foldlRecOn (motive := fun a : State × Nat => SealKept s a.1) ds _ h (fun a ha d _ => ha.hbmPut (a.1.digestAddr n lane a.2) d)

/-- Chaining writes memory and the chain. -/
theorem chainLane (h : SealKept s t) (n lane : Nat) : SealKept s (t.chainLane n lane) := by
  unfold State.chainLane
  extract_lets groups prev ds s1 s2 s3
  have h1 : SealKept s s1 := h.foldl groups _ (fun u _ hu => hu.hbmPut ..)
  have h2 : SealKept s s2.1 := h1.digests ds n lane
  have h3 : SealKept s s3 := h2.foldl (List.range 32) _ (fun u _ hu => hu.setIndex ..)
  split
  · exact h
  · exact h3.modUx _ (fun _ => rfl)

theorem chainStep (h : SealKept s t) (n : Nat) : SealKept s (t.chainStep n) := h.foldl _ _ (fun _ _ hu => hu.chainLane ..)

end SealKept

theorem uxSeal_takes (ht : s.tier ≠ 2) (h : s.sealTaken step = false) : (s.uxSeal step).ux.lastSeal = step := by
  let a := s.modUx (fun u => { u with lastSeal := step })
  let b := a.sendDown a.memberPorts (.sealMsg 0x32 0 step)
  have hu : s.uxSeal step = (if b.tier = 0 then b.chainStep step.toNat else b).lsealDone step := if_neg (by rw [h]; simpa using ht)
  have hb : b.ux.lastSeal = step := (congrArg (fun v : State => v.ux.lastSeal) ((Told.refl a).sendDown ..).core :)
  have hc : (if b.tier = 0 then b.chainStep step.toNat else b).ux.lastSeal = step := by
    split
    · exact ((SealKept.refl b).chainStep _).last.trans hb
    · exact hb
  rw [hu]
  exact ((lsealDone_ended _ step).proj (·.lastSeal)).trans hc
end

/-! ### A mover's error (R292) -/

/-- A mover's error counts, is 0x5002 and a check failure. -/
theorem chkerr_leaves (s : State) (tag : Nat) : let u := (((s.put .el Reg.CHK_STAT_EXT 1).count .el Reg.CHK_CNT_EXT_FAIL 1).log .el 0x05 0x5002 0 tag).checkFail 0
    u.bit .el Reg.CHK_STAT_EXT = true ∧ u.get .el Reg.CHK_CNT_EXT_FAIL = min (s.get .el Reg.CHK_CNT_EXT_FAIL + 1) 65535
      ∧ u.bit .el Reg.CHK_STAT_FAILED = true ∧ u.reg .el Reg.CHK_FAILSTEP_STEP.off = (if s.bit .el Reg.CHK_STAT_FAILED then s.reg .el Reg.CHK_FAILSTEP_STEP.off else BitVec.ofNat 64 s.stepCur)
      ∧ Logged .el s u ([(0x05, 0x5002, 0, tag)] ++ if s.bit .el Reg.CHK_STAT_FAILED then [] else [(0x05, 0x5010, 0, s.stepCur)]) := by
  let a := s.put .el Reg.CHK_STAT_EXT 1
  let b := a.count .el Reg.CHK_CNT_EXT_FAIL 1
  let c := b.log .el 0x05 0x5002 0 tag
  have hc : ∀ o, c.reg .el o = b.reg .el o := fun o => reg_of_core (core_log b ..) .el o
  have hb : ∀ o, o ≠ 0x6038 → c.reg .el o = a.reg .el o := fun o ho => (hc o).trans (reg_setReg_other a .el _ o _ ho)
  have ha : ∀ o, o ≠ 0x6008 → o ≠ 0x6038 → c.reg .el o = s.reg .el o := fun o h1 h2 => (hb o h2).trans (reg_setReg_other s .el _ o _ h1)
  have hext : c.get .el Reg.CHK_STAT_EXT = 1 := (get_of_reg (hb _ (by decide))).trans (get_put_same s .el Reg.CHK_STAT_EXT 1 (by decide) (by decide))
  have hfailed : c.bit .el Reg.CHK_STAT_FAILED = s.bit .el Reg.CHK_STAT_FAILED :=
    (bit_of_reg (hb _ (by decide))).trans (congrArg (· != 0) (get_put_other s .el Reg.CHK_STAT_EXT Reg.CHK_STAT_FAILED 1 (by decide) (by decide) (by decide) (by decide)))
  have hcnt : c.get .el Reg.CHK_CNT_EXT_FAIL = min (s.get .el Reg.CHK_CNT_EXT_FAIL + 1) 65535 := by
    have hs : a.get .el Reg.CHK_CNT_EXT_FAIL = s.get .el Reg.CHK_CNT_EXT_FAIL := get_of_reg (reg_setReg_other s .el _ _ _ (by decide))
    rw [Nat.min_comm, ← hs]
    exact (get_of_reg (hc _)).trans (get_count a .el Reg.CHK_CNT_EXT_FAIL 1 (by decide) (by decide))
  have hstep : c.stepCur = s.stepCur := congrArg BitVec.toNat (ha _ (by decide) (by decide))
  have hlog : Logged .el s c [(0x05, 0x5002, 0, tag)] := logged_log 0x05 0x5002 0 tag ((events_put a ..).trans (events_put s ..))
  show (c.checkFail 0).bit .el Reg.CHK_STAT_EXT = true ∧ (c.checkFail 0).get .el Reg.CHK_CNT_EXT_FAIL = _ ∧ (c.checkFail 0).bit .el Reg.CHK_STAT_FAILED = true ∧ (c.checkFail 0).reg .el Reg.CHK_FAILSTEP_STEP.off = _
    ∧ Logged .el s (c.checkFail 0) _
  cases hf : s.bit .el Reg.CHK_STAT_FAILED with
  | true =>
    rw [checkFail_again c 0 (hfailed.trans hf)]
    exact ⟨bit_of_get hext, hcnt, hfailed.trans hf, ha _ (by decide) (by decide), hlog⟩
  | false =>
    have hcore := core_checkFail_first c 0 (hfailed.trans hf)
    have hm : ∀ o, o ≠ 0x6018 → o ≠ 0x6008 → (c.checkFail 0).reg .el o = c.reg .el o := fun o h1 h2 => (reg_of_core hcore .el o).trans ((reg_setReg_other _ .el _ o _ h1).trans (reg_setReg_other c .el _ o _ h2))
    refine ⟨bit_of_get ?_, (get_of_reg (hm _ (by decide) (by decide))).trans hcnt, checkFail_failed c 0, ?_, hlog.trans ?_⟩
    · refine (get_of_reg ((reg_of_core hcore .el _).trans (reg_setReg_other _ .el Reg.CHK_FAILSTEP_STEP.off _ _ (by decide)))).trans ((get_put_other c .el Reg.CHK_STAT_FAILED Reg.CHK_STAT_EXT 1 (by decide) (by decide) (by decide) (by decide)).trans hext)
    · exact (reg_of_core hcore .el _).trans ((checkMarked_reads c).2.trans (congrArg (BitVec.ofNat 64) hstep))
    · rw [checkFail_first c 0 (hfailed.trans hf), stepCur_checkMarked, hstep]
      exact logged_log 0x05 0x5010 0 s.stepCur (events_sendUp c.checkMarked ..)

/-- Where a record goes, as two states with one ledger see it. -/
theorem recPlace_congr {s t : State} (h : SameLedger s t) (lane : Nat) (r : LedgerRec) : t.recPos lane r = s.recPos lane r ∧ t.ledgIndex (t.recPos lane r) = s.ledgIndex (s.recPos lane r) ∧ t.pageAddr (t.recPos lane r) = s.pageAddr (s.recPos lane r) := by
  have hp : t.recPos lane r = s.recPos lane r := h.ledgPos ..
  rw [hp]
  exact ⟨rfl, h.ledgIndex _, h.pageAddr _⟩

/-! ### The obligation -/

/-- Settles O49: a record by what its index entry says, a vote by the state of the root, a seal by what the end of operations leaves. -/
theorem ledgerAndSeal : Obligations.LedgerAndSeal := by
  unfold Obligations.LedgerAndSeal
  intro tag mover lane x ord r lsi step prev p l q s
  refine ⟨?_, fun h => if_pos h, fun h => if_neg (by rw [h]; decide), fun h ha => ?_, fun h ha he hk _ => ⟨fun hv hs hc => ?_, fun hv => ?_⟩, rfl, fun h => ⟨passVote_absorbed s x _ h, if_pos h⟩,
    fun h ht => ⟨passVote_below s x _ h ht, failMessage_below s x _ h ht⟩, fun h ht hb => passVote_barred s x _ h ht hb, fun h ht hb => ⟨fun hl => ?_, fun hl hstep hall hmem => ?_⟩, fun h ht => ?_,
    fun h => congrArg Host.Outcome.next (if_pos h), fun h hp => ?_, fun h => congrArg Host.Outcome.next (if_pos h), fun ht h => ⟨_, rfl, uxSeal_takes s step ht h⟩, fun hl => ?_, ⟨_, rfl, fun l => rfl⟩⟩
  · exact ⟨_, rfl, chkerr_leaves s tag.toNat⟩
  · exact (ledgerRecords_leaf s lane r ord h).trans (congrArg (fun t => Host.Outcome.next (State.send t .ux lane (.ledgerAck ord.toNat))) (ledgTake_again s lane ord.toNat r ha))
  · obtain ⟨t, u, ht, htl, hu, hex⟩ := ledgerRecords_stores s lane r ord h ha he hk
    obtain ⟨hpos, hix, hpage⟩ := recPlace_congr ht lane.val r
    obtain ⟨h1, h2, h3⟩ := ledgStore_joined t lane r (by rw [hix]; exact hv) (by rw [hix]; exact hs) (by rw [hix]; exact hc)
    rw [hix, hpage] at h3
    rw [hix, hpos] at h1
    rw [hpos, ht.indexAddr] at h3
    have hk := SameLedger.core hu.core
    exact ⟨u, hex, (hk.ledgIndex _).trans h1, (htl.trans h2).trans (hu.logged .ux), fun hd => (hk.hbm ..).trans (h3 hd)⟩
  · obtain ⟨t, u, ht, htl, hu, hex⟩ := ledgerRecords_stores s lane r ord h ha he hk
    obtain ⟨hpos, hix, -⟩ := recPlace_congr ht lane.val r
    obtain ⟨h1, h2⟩ := ledgStore_first t lane r lane.isLt (by rw [hix]; exact hv)
    rw [hpos] at h1
    exact ⟨u, hex, (htl.trans h2).trans (hu.logged .ux), ((SameLedger.core hu.core).ledgIndex _).trans h1⟩
  · obtain ⟨h1, h2, h3, h4, h5, h6, h7⟩ := voted_leaves s x ⟨lsi, step⟩
    refine ⟨_, passVote_held s x ⟨lsi, step⟩ h ht hb, ?_⟩
    rw [h3, hl]
    exact ⟨(h2 _).trans (by simp), (h1 _).trans (by simp), h6, h5, h7⟩
  · obtain ⟨h1, h2, h3, h4, h5, h6, h7⟩ := voted_leaves s x ⟨lsi, step⟩
    refine ⟨_, passVote_held s x ⟨lsi, step⟩ h ht hb, ?_⟩
    rw [h3, hl]
    have hready := voted_ready s x ⟨lsi, step⟩ ht hb (by rw [hl]; simp) hall hmem
    have htry : State.sealTry 1 (s.voted x ⟨lsi, step⟩) = (s.voted x ⟨lsi, step⟩).draw.2.sealPublish step := by
      have hlast : (s.voted x ⟨lsi, step⟩).lastSealed + 1 = step :=
        (congrArg (· + 1) (voted_lastSealed s x ⟨lsi, step⟩ ht)).trans hstep.symm
      refine (if_pos ?_).trans ?_
      · rw [hlast]
        exact hready
      · rw [hlast]
        rfl
    obtain ⟨k1, k2, es, k3⟩ := sealPublish_leaves (s.voted x ⟨lsi, step⟩).draw.2 step (fun e he => by
      have hm : e ∈ s.ux.lseals := h3 ▸ he
      rw [hl] at hm
      rw [List.mem_singleton.mp hm])
    show (State.sealTry 1 _).reg .ux _ = _ ∧ (State.sealTry 1 _).ux.lseals = _ ∧ ∃ es, Logged .ux s (State.sealTry 1 _) _
    rw [htry]
    exact ⟨k1, k2, es, (h7.trans (logged_nil rfl)).trans k3⟩
  · obtain ⟨h1, h2, h3, h4⟩ := failHeld_reads s ⟨lsi, step⟩
    refine ⟨_, failMessage_root s x ⟨lsi, step⟩ h ht, ?_⟩
    by_cases hau : s.authority = true
    · obtain ⟨k1, k2, k3⟩ := rbFail_leaves (s.failHeld ⟨lsi, step⟩)
      rw [if_pos (h3.trans hau)]
      exact ⟨(bit_of_reg k3).trans h1, (get_of_reg k3).trans h2, fun _ => ⟨k1, fun hn => k2 (h4.trans hn)⟩⟩
    · have hno : ¬ (s.failHeld ⟨lsi, step⟩).authority = true := by rwa [h3]
      rw [if_neg hno]
      exact ⟨h1, h2, fun h => absurd h hau⟩
  · obtain ⟨h1, h2⟩ := elSeal_takes s step h hp
    exact ⟨_, rfl, h1, fun o ho x hk _ hs hx => h2 o ho x hk hs hx⟩
  · have hlt : prev.toNat ≤ 2 ^ 64 - 1 := Nat.le_sub_one_of_lt prev.isLt
    have he : exec .ledgVerify s = .next (s.chainCheck l prev.toNat p) := by
      refine congrArg Host.Outcome.next ?_
      unfold State.chainVerify
      rw [hl, List.foldl_cons, List.foldl_nil]
      exact if_pos (by simpa using hlt)
    refine ⟨fun hbad => ?_, fun hbad => ?_⟩
    · have hc : s.chainCheck l prev.toNat p = (s.put .ux Reg.UX_LEDG_STAT_CHAIN_BAD 1).log .ux 0x43 0x5032 l prev.toNat := by
        unfold State.chainCheck
        exact if_pos hbad
      rw [hc] at he
      exact goes_of _ he (core_log ..) (logged_log 0x43 0x5032 l prev.toNat (events_put s ..))
    · have hc : s.chainCheck l prev.toNat p = s := by
        unfold State.chainCheck
        exact if_neg (fun h => Bool.false_ne_true (hbad.symm.trans h))
      rw [he, hc]

end Sys2Proof.Machine

/-! SUPPORT. Heartbeats, misses and suspicion (R326, R330 to R335, R343, R363, R367, R428). -/

namespace Sys2Proof.Machine

set_option Elab.async false

/-! ### What headcount reads of a chip -/

/-- The registers of a chip below those of its lanes, its observations, its attested dies, its rollback and its events stand. -/
structure HcSame (s t : State) : Prop where
  regs     : ∀ o, o < 0x40000 → t.reg .ux o = s.reg .ux o
  obs      : t.ux.obs = s.ux.obs
  attested : t.ux.attested = s.ux.attested
  rollback : t.ux.rollback = s.ux.rollback
  events   : (t.base .ux).events = (s.base .ux).events

namespace HcSame

variable {s t u : State}

theorem refl (s : State) : HcSame s s := ⟨fun _ _ => rfl, rfl, rfl, rfl, rfl⟩

theorem trans (h : HcSame s t) (k : HcSame t u) : HcSame s u :=
  ⟨fun o ho => (k.regs o ho).trans (h.regs o ho), k.obs.trans h.obs, k.attested.trans h.attested, k.rollback.trans h.rollback, k.events.trans h.events⟩

theorem ite {a b : State} {c : Prop} [Decidable c] (ha : HcSame s a) (hb : HcSame s b) : HcSame s (if c then a else b) := by
  split
  · exact ha
  · exact hb

theorem modUx (h : HcSame s t) (f : Uhloux → Uhloux) (hb : (f t.ux).base = t.ux.base := by rfl) (h1 : (f t.ux).obs = t.ux.obs := by rfl) (h2 : (f t.ux).attested = t.ux.attested := by rfl)
    (h3 : (f t.ux).rollback = t.ux.rollback := by rfl) : HcSame s (t.modUx f) := h.trans ⟨fun o _ => reg_modUx t f .ux o (by rw [hb]), h1, h2, h3, congrArg Base.events hb⟩

/-- A field of a lane's registers. -/
theorem put (h : HcSame s t) (f : Fld) (v : Nat) (ho : 0x40000 ≤ f.off) : HcSame s (t.put .ux f v) := h.trans ⟨fun o h => reg_setReg_other t .ux f.off o _ (by omega), rfl, rfl, rfl, rfl⟩

theorem setMember (h : HcSame s t) (pdi code : Nat) : HcSame s (t.setMember pdi code) := by
  refine h.trans ⟨fun o ho => reg_setMember_below t pdi code o ho, ?_, ?_, ?_, events_setMember ..⟩
  all_goals
    unfold State.setMember
    dsimp only
    split
    · split <;> rfl
    · rfl

theorem setSubj (h : HcSame s t) (x : Subj) (code : Nat) : HcSame s (t.setSubj x code) := .ite (h.setMember ..) (h.modUx _)

theorem dropProposals (h : HcSame s t) (x : Subj) : HcSame s (t.dropProposals x) := h.modUx _

theorem tier (h : HcSame s t) : t.tier = s.tier := get_of_reg (h.regs _ (by decide))

theorem authority (h : HcSame s t) : t.authority = s.authority := by
  unfold State.authority State.bit
  rw [h.tier, get_of_reg (f := Reg.UX_IDENT_ROLE_PLANE) (h.regs _ (by decide)), get_of_reg (f := Reg.UX_LAUNCH_CTRL_BAR_PLANE) (h.regs _ (by decide)), get_of_reg (f := Reg.UX_HC_STAT_AUTHORITY) (h.regs _ (by decide))]

theorem pos (h : HcSame s t) : t.get .ux Reg.UX_IDENT_ROLE_POS = s.get .ux Reg.UX_IDENT_ROLE_POS := get_of_reg (h.regs _ (by decide))

theorem pdiOf (h : HcSame s t) (x : Nat) : t.pdiOf x = s.pdiOf x := congrArg (fun n => n * 128 + x) h.pos

theorem childSubj (h : HcSame s t) (x : Nat) : t.childSubj x = s.childSubj x := by
  unfold State.childSubj State.pdiOf
  rw [h.tier, h.pos]

theorem childLane (h : HcSame s t) (x : Subj) : t.childLane x = s.childLane x := by
  unfold State.childLane State.portOf
  rw [h.tier, h.pos]
  simp only [h.childSubj]

theorem chipSubj (h : HcSame s t) : t.chipSubj = s.chipSubj := by
  unfold State.chipSubj
  rw [h.tier, h.pos]

theorem obsOf (h : HcSame s t) (x : Subj) : t.obsOf x = s.obsOf x := congrArg (fun l => tget Obs.zero l (subjKey x)) h.obs

theorem logged (h : HcSame s t) : Logged .ux s t [] := logged_nil h.events

end HcSame

/-- A field of the chip beside its base, in two states that agree but for logs and lanes. -/
theorem ux_of_core {α : Type} {s t : State} (h : t.core = s.core) (f : Uhloux → α) (hf : ∀ u : Uhloux, f { u with base := u.base.core } = f u := by intro; rfl) : f t.ux = f s.ux :=
  (hf t.ux).symm.trans ((congrArg (fun v : State => f v.ux) h :).trans (hf s.ux))

theorem obsOf_of_core {s t : State} (h : t.core = s.core) (x : Subj) : t.obsOf x = s.obsOf x := congrArg (fun l => tget Obs.zero l (subjKey x)) (ux_of_core h Uhloux.obs)

/-! ### Membership (R326) -/

section
variable (s : State) (x : Subj) (code : Nat)

theorem members_setMember (pdi : Nat) : (s.setMember pdi code).ux.members = tput 0 s.ux.members pdi code := by
  unfold State.setMember
  dsimp only
  split
  · split <;> rfl
  · rfl

theorem subjKey_die (h : x.tier = 0) : subjKey x = x.pdi.toNat := by
  unfold subjKey
  rw [h]
  exact Nat.zero_add _

theorem members_setSubj : (s.setSubj x code).ux.members = tput 0 s.ux.members (subjKey x) code := by
  unfold State.setSubj
  split
  · next h => rw [members_setMember, subjKey_die x h]
  · rfl

theorem codeOf_setSubj : (s.setSubj x code).codeOf x = code := by
  unfold State.codeOf
  rw [members_setSubj, tget_tput_same]

theorem codeOf_of_members {s t : State} (h : t.ux.members = s.ux.members) (x : Subj) : t.codeOf x = s.codeOf x := congrArg (fun l => tget 0 l (subjKey x)) h

/-- A change that lets no member go. -/
theorem setMembership_stays (h : inMembers code = true ∨ inMembers (s.codeOf x) = false) : s.setMembership x code = s.setSubj x code := by
  refine if_neg (fun hc => ?_)
  rw [Bool.and_eq_true, Bool.not_eq_true'] at hc
  rcases h with h | h
  · rw [h] at hc
    exact absurd hc.2 (by decide)
  · exact absurd (h.symm.trans hc.1) (by decide)

theorem obsOf_setObs (o : Obs) : (s.setObs x o).obsOf x = o := tget_tput_same Obs.zero s.ux.obs (subjKey x) o
end

/-! ### A heartbeat is heard (R330) -/

/-- What hearing changes for headcount is its observation. -/
structure Heard (s t : State) (x : Subj) : Prop where
  obs      : t.obsOf x = { heard := true, at' := s.tick .ux, age := 0, misses := 0, asked := false }
  members  : t.ux.members = s.ux.members
  attested : t.ux.attested = s.ux.attested
  rollback : t.ux.rollback = s.ux.rollback
  regs     : ∀ o, o < 0x40000 → t.reg .ux o = s.reg .ux o
  events   : (t.base .ux).events = (s.base .ux).events
  health   : ∀ l, t.get .ux (Reg.UX_LANE_HC_HEALTH l) = s.get .ux (Reg.UX_LANE_HC_HEALTH l)

theorem heard_hbHeard (s : State) (x : Subj) : Heard s (s.hbHeard x) x := by
  let a := s.setObs x { heard := true, at' := s.tick .ux, age := 0, misses := 0, asked := false }
  have ha : a.obsOf x = { heard := true, at' := s.tick .ux, age := 0, misses := 0, asked := false } := obsOf_setObs ..
  have hr : ∀ o, a.reg .ux o = s.reg .ux o := fun o => reg_modUx s _ .ux o rfl
  unfold State.hbHeard
  dsimp only
  split
  · next l _ =>
    refine ⟨ha, rfl, rfl, rfl, fun o ho => (reg_setReg_other a .ux _ o _ (by simp only [Reg.UX_LANE_HC_AGE]; omega)).trans (hr o), rfl, fun y => ?_⟩
    exact (get_put_other a .ux (Reg.UX_LANE_HC_AGE l) (Reg.UX_LANE_HC_HEALTH y) 0 (show 55 < 64 by decide) (show 40 ≤ 55 by decide) (show 63 < 64 by decide) (.inr (.inr (show 55 < 56 by decide)))).trans (get_of_reg (hr _))
  · exact ⟨ha, rfl, rfl, rfl, fun o _ => hr o, rfl, fun _ => get_of_reg (hr _)⟩

/-- But for its observations the chip is the same for headcount. -/
theorem Heard.same {s t : State} {x : Subj} (h : Heard s t x) : HcSame (s.modUx (fun u => { u with obs := t.ux.obs })) t :=
  ⟨fun o ho => (h.regs o ho).trans (reg_modUx s _ .ux o rfl).symm, rfl, h.attested, h.rollback, h.events⟩

theorem same_obs (s : State) (o : Tbl Obs) : (s.modUx (fun u => { u with obs := o })).tier = s.tier ∧ (s.modUx (fun u => { u with obs := o })).authority = s.authority ∧ (∀ x, (s.modUx (fun u => { u with obs := o })).pdiOf x = s.pdiOf x)
    ∧ (∀ x, (s.modUx (fun u => { u with obs := o })).childLane x = s.childLane x) := ⟨rfl, rfl, fun _ => rfl, fun _ => rfl⟩

/-! ### What a heartbeat makes of its subject (R326) -/

/-- The membership of a heartbeat's subject: SUSPECT is a member again, a JOINING die that has attested is STANDBY, a child chip heard for the first time is a member. -/
def State.hbMember (s : State) (lane : Fin 160) (x : Subj) (st : Nat) : State :=
  let s := if st = 4 then (s.setMembership x 3).dropProposals x else s
  let s := if st = 1 ∧ s.tier = 0 ∧ lane.val < 128 ∧ s.ux.attested.contains lane.val ∧ x = dieSubj (s.pdiOf lane) then (s.setMember x.pdi.toNat 2).spareEvent else s
  if x.tier ≠ 0 ∧ st = 0 ∧ (s.childLane x).isSome then s.setMembership x 3 else s

section
variable (s : State) (lane : Fin 160) (x : Subj)

theorem spareEvent_leaf (h : s.tier = 0) : s.spareEvent = s := if_neg (by unfold State.authority; rw [h]; simp)

theorem hbMember_suspect : s.hbMember lane x 4 = (s.setSubj x 3).dropProposals x := by
  refine (if_neg (fun h => absurd h.2.1 (by decide))).trans ((if_neg (fun h => absurd h.1 (by decide))).trans ((if_pos rfl).trans ?_))
  rw [setMembership_stays s x 3 (.inl rfl)]

theorem hbMember_other {st : Nat} (h0 : st ≠ 0) (h1 : st ≠ 1) (h4 : st ≠ 4) : s.hbMember lane x st = s :=
  (if_neg (fun h => h0 h.2.1)).trans ((if_neg (fun h => h1 h.1)).trans (if_neg h4))

/-- A die that joins. -/
def State.dieReady (s : State) (lane : Fin 160) (x : Subj) : Bool := s.tier == 0 && decide (lane.val < 128) && s.ux.attested.contains lane.val && x == dieSubj (s.pdiOf lane)

theorem dieReady_iff : s.dieReady lane x = true ↔ s.tier = 0 ∧ lane.val < 128 ∧ s.ux.attested.contains lane.val ∧ x = dieSubj (s.pdiOf lane) := by
  unfold State.dieReady
  simp [and_assoc]

theorem hbMember_joining : s.hbMember lane x 1 = if s.dieReady lane x then s.setMember x.pdi.toNat 2 else s := by
  refine (if_neg (fun h => absurd h.2.1 (by decide))).trans ?_
  by_cases h : s.dieReady lane x = true
  · have hr := (dieReady_iff s lane x).mp h
    rw [if_pos h]
    refine (if_pos ⟨rfl, hr⟩).trans ?_
    exact spareEvent_leaf _ (((HcSame.refl s).setMember _ _).tier.trans hr.1)
  · rw [if_neg h]
    exact if_neg (fun hc => h ((dieReady_iff s lane x).mpr hc.2))

theorem hbMember_unknown : s.hbMember lane x 0 = if x.tier ≠ 0 ∧ (s.childLane x).isSome then s.setSubj x 3 else s := by
  have hs : s.setMembership x 3 = s.setSubj x 3 := setMembership_stays s x 3 (.inl rfl)
  by_cases h : x.tier ≠ 0 ∧ (s.childLane x).isSome
  · rw [if_pos h, ← hs]
    exact if_pos ⟨h.1, rfl, h.2⟩
  · rw [if_neg h]
    exact if_neg (fun hc => h ⟨hc.1, hc.2.2⟩)

theorem hbMember_same (st : Nat) : HcSame s (s.hbMember lane x st) := by
  by_cases h4 : st = 4
  · rw [h4, hbMember_suspect]
    exact ((HcSame.refl s).setSubj x 3).dropProposals x
  · by_cases h1 : st = 1
    · rw [h1, hbMember_joining]
      exact .ite ((HcSame.refl s).setMember ..) (.refl s)
    · by_cases h0 : st = 0
      · rw [h0, hbMember_unknown s lane x]
        exact .ite ((HcSame.refl s).setSubj x 3) (.refl s)
      · rw [hbMember_other s lane x h0 h1 h4]
        exact .refl s

/-- The heartbeat of a subject that is not FENCED. -/
def State.hbKnown (s : State) (lane : Fin 160) (m : Hb) : State := (s.hbHeard m.subj).hbMember lane m.subj (s.codeOf m.subj)

/-- What its counts and marks make of it. -/
def State.hbCounted (s : State) (lane : Fin 160) (m : Hb) : State := if s.tier = 0 ∧ lane.val < 128 ∧ m.subj = dieSubj (s.pdiOf lane) then s.hbHealth lane m else s

theorem hbMessage_eq (m : Hb) (h : s.codeOf m.subj ≠ 5) : exec (.hbMessage lane m) s = .next (
    let t := (s.hbKnown lane m).hbCounted lane m
    if (m.stepMissed || m.dieFatal) && (inMembers (s.codeOf m.subj) || decide (t.tier ≠ 0 ∧ m.subj.tier = 0)) then
      (if t.authority then (if t.ux.rollback.isSome then t else t.publish m.subj 4 0 true) else t.toAuthority (.hb m)) else t) :=
  if_neg h

theorem codeOf_hbHeard (y : Subj) : (s.hbHeard x).codeOf y = s.codeOf y := codeOf_of_members (heard_hbHeard s x).members y

/-- What a subject is after its heartbeat. -/
theorem codeOf_hbKnown (m : Hb) : let st := s.codeOf m.subj
    let u := s.hbKnown lane m
    (st = 4 → u.codeOf m.subj = 3) ∧ (st = 3 → u.codeOf m.subj = 3) ∧ (m.subj.tier ≠ 0 → st = 0 → (s.childLane m.subj).isSome = true → u.codeOf m.subj = 3)
      ∧ (st = 1 → s.tier = 0 → lane.val < 128 → s.ux.attested.contains lane.val = true → m.subj = dieSubj (s.pdiOf lane) → u.codeOf m.subj = 2)
      ∧ (st = 1 → s.tier ≠ 0 ∨ s.ux.attested.contains lane.val = false → u.codeOf m.subj = 1) := by
  have hh := heard_hbHeard s m.subj
  obtain ⟨e1, -, e3, e4⟩ := same_obs s (s.hbHeard m.subj).ux.obs
  have htier : (s.hbHeard m.subj).tier = s.tier := hh.same.tier.trans e1
  intro st u
  have hu : u = (s.hbHeard m.subj).hbMember lane m.subj st := rfl
  have hready : (s.hbHeard m.subj).dieReady lane m.subj = s.dieReady lane m.subj := by
    unfold State.dieReady
    rw [htier, hh.attested, (hh.same.pdiOf lane).trans (e3 _)]
  refine ⟨fun h => ?_, fun h => ?_, fun h1 h h2 => ?_, fun h h1 h2 h3 h4 => ?_, fun h h1 => ?_⟩
  · rw [hu, h, hbMember_suspect]
    exact codeOf_setSubj ..
  · rw [hu, hbMember_other _ _ _ (by omega) (by omega) (by omega)]
    exact (codeOf_hbHeard ..).trans h
  · rw [hu, h, hbMember_unknown, if_pos ⟨h1, (congrArg Option.isSome ((hh.same.childLane m.subj).trans (e4 _))).trans h2⟩]
    exact codeOf_setSubj ..
  · have hr := (dieReady_iff s lane m.subj).mpr ⟨h1, h2, h3, h4⟩
    rw [hu, h, hbMember_joining, hready, if_pos hr]
    have htier0 : m.subj.tier = 0 := by rw [h4]; rfl
    unfold State.codeOf
    rw [members_setMember, subjKey_die m.subj htier0, tget_tput_same]
  · have hr : s.dieReady lane m.subj = false := by
      rw [Bool.eq_false_iff]
      intro hc
      obtain ⟨k1, -, k3, -⟩ := (dieReady_iff s lane m.subj).mp hc
      rcases h1 with h1 | h1
      · exact h1 k1
      · rw [h1] at k3
        exact absurd k3 (by decide)
    rw [hu, h, hbMember_joining, hready, hr]
    exact (codeOf_hbHeard ..).trans h

/-- The chip after a heartbeat, for headcount. -/
theorem hbKnown_same (m : Hb) : HcSame (s.hbHeard m.subj) (s.hbKnown lane m) := hbMember_same ..

theorem hbKnown_leaves (m : Hb) : let u := s.hbKnown lane m
    u.obsOf m.subj = { heard := true, at' := s.tick .ux, age := 0, misses := 0, asked := false } ∧ u.tier = s.tier ∧ u.authority = s.authority ∧ u.pdiOf lane = s.pdiOf lane ∧ u.ux.rollback = s.ux.rollback
      ∧ (∀ o, o < 0x40000 → u.reg .ux o = s.reg .ux o) ∧ Logged .ux s u [] := by
  have hk := hbKnown_same s lane m
  have hh := heard_hbHeard s m.subj
  obtain ⟨e1, e2, e3, -⟩ := same_obs s (s.hbHeard m.subj).ux.obs
  exact ⟨(hk.obsOf _).trans hh.obs, hk.tier.trans (hh.same.tier.trans e1), hk.authority.trans (hh.same.authority.trans e2), (hk.pdiOf _).trans ((hh.same.pdiOf _).trans (e3 _)), hk.rollback.trans hh.rollback,
    fun o ho => (hk.regs o ho).trans (hh.regs o ho), (logged_nil hh.events).trans hk.logged⟩

/-! ### Counts and the health score (R363) -/

theorem healthAdd_zero (n : Nat) (soft : Bool) : s.healthAdd n 0 soft = s := if_pos (.inr (.inr rfl))

theorem hbCounted_quiet (m : Hb) (hq : m.parity = 0 ∧ m.slipOver = 0 ∧ m.transient = 0 ∧ m.permanent = 0 ∧ m.stepMissed = false ∧ m.dieFatal = false) : s.hbCounted lane m = s := by
  obtain ⟨h1, h2, h3, h4, h5, h6⟩ := hq
  have hh : s.hbHealth lane m = s := by
    unfold State.hbHealth
    rw [h1, h2, h3, h4, h5, h6]
    dsimp only
    rw [if_pos rfl]
    exact (congrArg (fun t : State => t.healthAdd lane 0 false) (healthAdd_zero s lane true)).trans (healthAdd_zero s lane false)
  unfold State.hbCounted
  rw [hh]
  exact ite_self _

/-- Points below every threshold. -/
theorem healthAdd_below (n pts : Nat) (soft : Bool) (ht : s.tier = 0) (hm : s.member (s.pdiOf n) = 3) (h0 : pts ≠ 0) (h1 : s.get .ux (Reg.UX_LANE_HC_HEALTH n) + pts < 256)
    (h2 : s.get .ux (Reg.UX_LANE_HC_HEALTH n) + pts < s.get .ux Reg.UX_HC_CTRL_WATCH) (h3 : s.get .ux (Reg.UX_LANE_HC_HEALTH n) + pts < s.get .ux Reg.UX_HC_CTRL_PROB)
    (h4 : s.get .ux (Reg.UX_LANE_HC_HEALTH n) + pts < s.get .ux Reg.UX_HC_CTRL_EXPEL) : ∃ k, s.healthAdd n pts soft =
      (s.put .ux (Reg.UX_LANE_HC_HEALTH n) (s.get .ux (Reg.UX_LANE_HC_HEALTH n) + pts)).modUx (fun u => { u with healthKind := k }) := by
  have hnew : min 255 (s.get .ux (Reg.UX_LANE_HC_HEALTH n) + pts) = s.get .ux (Reg.UX_LANE_HC_HEALTH n) + pts := Nat.min_eq_right (by omega)
  unfold State.healthAdd
  dsimp only
  have hin : ¬ (s.tier ≠ 0 ∨ (!inMembers (s.member (s.pdiOf n))) = true ∨ pts = 0) := by
    rw [ht, hm]
    rintro (h | h | h)
    · exact h rfl
    · exact absurd h (by decide)
    · exact h0 h
  rw [if_neg hin]
  simp only [hnew, decide_eq_false (Nat.not_le.mpr h2), decide_eq_false (Nat.not_le.mpr h3), decide_eq_false (Nat.not_le.mpr h4), Bool.and_false, Bool.or_false, Bool.false_eq_true, if_false]
  exact ⟨_, rfl⟩
end

/-- A die's score with points added, and nothing else headcount reads. -/
structure Scored (s t : State) (n pts : Nat) : Prop where
  health  : t.get .ux (Reg.UX_LANE_HC_HEALTH n) = s.get .ux (Reg.UX_LANE_HC_HEALTH n) + pts
  members : t.ux.members = s.ux.members
  same    : HcSame s t

theorem healthAdd_scores (s : State) (n pts : Nat) (soft : Bool) (ht : s.tier = 0) (hm : s.member (s.pdiOf n) = 3) (h1 : s.get .ux (Reg.UX_LANE_HC_HEALTH n) + pts < 256)
    (h2 : s.get .ux (Reg.UX_LANE_HC_HEALTH n) + pts < s.get .ux Reg.UX_HC_CTRL_WATCH) (h3 : s.get .ux (Reg.UX_LANE_HC_HEALTH n) + pts < s.get .ux Reg.UX_HC_CTRL_PROB)
    (h4 : s.get .ux (Reg.UX_LANE_HC_HEALTH n) + pts < s.get .ux Reg.UX_HC_CTRL_EXPEL) : Scored s (s.healthAdd n pts soft) n pts := by
  by_cases h0 : pts = 0
  · rw [h0, healthAdd_zero]
    exact ⟨rfl, rfl, .refl s⟩
  · obtain ⟨k, hk⟩ := healthAdd_below s n pts soft ht hm h0 h1 h2 h3 h4
    rw [hk]
    refine ⟨(get_of_reg (reg_modUx _ _ .ux _ rfl)).trans ((get_put_same s .ux (Reg.UX_LANE_HC_HEALTH n) _ (show 63 < 64 by decide) (show 56 ≤ 63 by decide)).trans ?_), rfl, ((HcSame.refl s).put (Reg.UX_LANE_HC_HEALTH n) _ (show 0x40000 ≤ 0x40038 + 0x100 * n by omega)).modUx _⟩
    have hw : 2 ^ ((Reg.UX_LANE_HC_HEALTH n).hi + 1 - (Reg.UX_LANE_HC_HEALTH n).lo) = 256 := by
      simp only [Reg.UX_LANE_HC_HEALTH]
      norm_num
    rw [hw, Nat.mod_eq_of_lt h1]

/-- A member die's heartbeat below every threshold adds its points. -/
theorem hbCounted_scores (s : State) (lane : Fin 160) (m : Hb) (ht : s.tier = 0) (hl : lane.val < 128) (hx : m.subj = dieSubj (s.pdiOf lane)) (hm : s.member (s.pdiOf lane) = 3) (h0 : m.permanent = 0 ∧ m.stepMissed = false ∧ m.dieFatal = false)
    (h1 : s.get .ux (Reg.UX_LANE_HC_HEALTH lane) + (32 * m.transient.toNat + (m.parity.toNat + 4 * m.slipOver.toNat)) < 256)
    (h2 : s.get .ux (Reg.UX_LANE_HC_HEALTH lane) + (32 * m.transient.toNat + (m.parity.toNat + 4 * m.slipOver.toNat)) < s.get .ux Reg.UX_HC_CTRL_WATCH)
    (h3 : s.get .ux (Reg.UX_LANE_HC_HEALTH lane) + (32 * m.transient.toNat + (m.parity.toNat + 4 * m.slipOver.toNat)) < s.get .ux Reg.UX_HC_CTRL_PROB)
    (h4 : s.get .ux (Reg.UX_LANE_HC_HEALTH lane) + (32 * m.transient.toNat + (m.parity.toNat + 4 * m.slipOver.toNat)) < s.get .ux Reg.UX_HC_CTRL_EXPEL) :
    Scored s (s.hbCounted lane m) lane (32 * m.transient.toNat + (m.parity.toNat + 4 * m.slipOver.toNat)) := by
  obtain ⟨hp, hsm, hdf⟩ := h0
  have ha := healthAdd_scores s lane (32 * m.transient.toNat) true ht hm (by omega) (by omega) (by omega) (by omega)
  let a := s.healthAdd lane (32 * m.transient.toNat) true
  have hc : ∀ f : Fld, f.off = 0x7000 → a.get .ux f = s.get .ux f := fun f hf => get_of_reg (ha.same.regs _ (by rw [hf]; decide))
  have hma : a.member (a.pdiOf lane) = 3 := by
    unfold State.member
    rw [ha.members, ha.same.pdiOf]
    exact hm
  have hb := healthAdd_scores a lane (m.parity.toNat + 4 * m.slipOver.toNat) false (ha.same.tier.trans ht) hma (by rw [ha.health]; omega) (by rw [ha.health, hc _ rfl]; omega) (by rw [ha.health, hc _ rfl]; omega) (by rw [ha.health, hc _ rfl]; omega)
  have he : s.hbCounted lane m = a.healthAdd lane (m.parity.toNat + 4 * m.slipOver.toNat) false := by
    refine (if_pos ⟨ht, hl, hx⟩).trans ?_
    unfold State.hbHealth
    dsimp only
    rw [if_pos hp, hp, hsm, hdf]
    rfl
  rw [he]
  refine ⟨hb.health.trans ?_, hb.members.trans ha.members, ha.same.trans hb.same⟩
  rw [ha.health, Nat.add_assoc]

theorem authority_tier (s : State) (h : s.authority = true) : s.tier = 2 := by
  unfold State.authority at h
  rw [Bool.and_eq_true] at h
  simpa using h.1

/-! ### A decision is published (R328, R336) -/

section
variable (s : State) (x : Subj) (kind arg0 : Nat) (rolls : Bool)

/-- The epoch advances, and the decision is logged. -/
def State.published (s : State) (x : Subj) (kind arg0 : Nat) : State :=
  let e := (s.get .ux Reg.UX_HC_STAT_EPOCH + 1) % 2 ^ 32
  (s.put .ux Reg.UX_HC_STAT_EPOCH e).log .ux 0x42 0x6004 (subjObj x) (e * 2 ^ 32 + kind * 2 ^ 24 + arg0 % 2 ^ 20)

/-- The decision goes to every chip and die, ROLLBACK with it where it opens one. -/
def State.announced (s : State) (fresh : Bool) (m : DecisionMsg) : State :=
  let s := (s.sendDown downLanes (.decision m)).toTwin (.decision m)
  if fresh then s.rbSend else s

theorem announced_told (fresh : Bool) (m : DecisionMsg) : Told s (s.announced fresh m) := by
  have h : Told s ((s.sendDown downLanes (.decision m)).toTwin (.decision m)) := ((Told.refl s).sendDown ..).toTwin _
  unfold State.announced
  dsimp only
  split
  · exact ⟨(rbSend_told _).el.trans h.el, (rbSend_told _).core.trans h.core, fun q => ((rbSend_told _).events q).trans (h.events q)⟩
  · exact h

/-- A published decision: the epoch and the event, the rollback it opens, its messages, and what it does here. -/
theorem publish_eq : ∃ fresh m, s.publish x kind arg0 rolls = ((if rolls then (s.published x kind arg0).rbOpen (subjObj x) else s.published x kind arg0).announced fresh m).decisionApply x kind arg0 := ⟨_, _, rfl⟩

theorem publish_logs : ∃ es, Logged .ux s (s.publish x kind arg0 rolls)
    ((0x42, 0x6004, subjObj x, (s.get .ux Reg.UX_HC_STAT_EPOCH + 1) % 2 ^ 32 * 2 ^ 32 + kind * 2 ^ 24 + arg0 % 2 ^ 20) :: es) := by
  obtain ⟨fresh, m, he⟩ := publish_eq s x kind arg0 rolls
  have hl : Logged .ux s (s.published x kind arg0) [_] := logged_log 0x42 0x6004 (subjObj x) _ (events_put s .ux .ux _ _)
  have hk := fun a (h : Keeps (s.published x kind arg0) a) => keeps_decisionApply (x := x) (kind := kind) (arg0 := arg0) (keeps_ite (c := fresh = true) (keeps_rbSend (keeps_toTwin (m := .decision m) (keeps_sendDown (xs := downLanes) (m := .decision m) h)))
    (keeps_toTwin (m := .decision m) (keeps_sendDown (xs := downLanes) (m := .decision m) h)))
  obtain ⟨es, hs⟩ := exists_logged_of_keeps .ux (hk _ (keeps_ite (c := rolls = true) (keeps_rbOpen (obj := subjObj x) (keeps_refl _)) (keeps_refl _)))
  rw [he]
  exact ⟨es, hl.trans hs⟩

/-- A decision to roll back opens a rollback, or joins the open one. -/
theorem publish_rolls : (s.publish x 4 0 true).ux.rollback.isSome = true := by
  obtain ⟨fresh, m, he⟩ := publish_eq s x 4 0 true
  obtain ⟨h, -⟩ := rbOpen_leaves (s.published x 4 0) (subjObj x)
  have ht := announced_told ((s.published x 4 0).rbOpen (subjObj x)) fresh m
  have hd : ∀ t : State, (t.decisionApply x 4 0).ux.rollback = t.ux.rollback := fun t => by
    unfold State.decisionApply
    simp
    rfl
  rw [he, hd]
  exact (congrArg (fun v : State => v.ux.rollback.isSome) ht.core :).trans h
end

/-! ### Misses and suspicion (R333, R334) -/

section
variable (s : State) (x : Subj)

/-- A miss is counted, and AGE follows. -/
def State.missed (s : State) (x : Subj) (nth : Fin 4) (age : BitVec 32) : State :=
  let s := s.setObs x { s.obsOf x with at' := s.tick .ux, age := age.toNat, misses := nth }
  match s.childLane x with
  | some l => s.put .ux (Reg.UX_LANE_HC_AGE l) (min 65535 (age.toNat / 1000))
  | none => s

theorem missed_leaves (nth : Fin 4) (age : BitVec 32) : let u := s.missed x nth age
    (u.obsOf x).misses = nth ∧ (u.obsOf x).age = age.toNat ∧ u.ux.members = s.ux.members ∧ Logged .ux s u [] := by
  have ho := obsOf_setObs s x { s.obsOf x with at' := s.tick .ux, age := age.toNat, misses := nth }
  intro u
  show ((s.missed x nth age).obsOf x).misses = _ ∧ ((s.missed x nth age).obsOf x).age = _ ∧ (s.missed x nth age).ux.members = _ ∧ Logged .ux s (s.missed x nth age) []
  unfold State.missed
  dsimp only
  split <;> exact ⟨congrArg Obs.misses ho, congrArg Obs.age ho, rfl, logged_nil rfl⟩

theorem hbMiss_eq (nth : Fin 4) (age : BitVec 32) : exec (.hbMiss x nth age) s = .next (let t := s.missed x nth age
    if nth = 3 ∧ t.codeOf x = 3 then (if x.tier = 0 then t.suspect x age.toNat else (t.suspect x age.toNat).silent x 0xFFFFFFFF) else t) := rfl

/-- A suspect (R333): its code, the question to the twin, and the event. -/
theorem suspect_leaves (age : Nat) : let u := s.suspect x age
    u.codeOf x = 4 ∧ (x.tier = 0 → (u.obsOf x).asked = true) ∧ Logged .ux s u [(0x42, 0x6001, subjObj x, age)] := by
  let a := (s.setMembership x 4).log .ux 0x42 0x6001 (subjObj x) age
  have hs : s.setMembership x 4 = s.setSubj x 4 := setMembership_stays s x 4 (.inl rfl)
  have ha : a.codeOf x = 4 := by
    refine (codeOf_of_members (ux_of_core (core_log (s.setMembership x 4) ..) Uhloux.members) x).trans ?_
    rw [hs]
    exact codeOf_setSubj ..
  have hl : Logged .ux s a [(0x42, 0x6001, subjObj x, age)] := logged_log 0x42 0x6001 (subjObj x) age (by rw [hs]; exact ((HcSame.refl s).setSubj x 4).events)
  show (s.suspect x age).codeOf x = 4 ∧ (x.tier = 0 → ((s.suspect x age).obsOf x).asked = true) ∧ Logged .ux s (s.suspect x age) _
  by_cases h0 : x.tier = 0
  · let b := a.setObs x { a.obsOf x with asked := true }
    have hu : s.suspect x age = b.toTwin (.hearReq x) := if_pos h0
    have ht : Told b (b.toTwin (.hearReq x)) := (Told.refl b).toTwin _
    rw [hu]
    refine ⟨(codeOf_of_members (ux_of_core ht.core Uhloux.members) x).trans ha, fun _ => ?_, hl.trans ((logged_nil rfl : Logged .ux a b []).trans (ht.logged .ux))⟩
    exact congrArg Obs.asked ((obsOf_of_core ht.core x).trans (obsOf_setObs a x _))
  · have hu : s.suspect x age = a := if_neg h0
    rw [hu]
    exact ⟨ha, fun h => absurd h h0, hl⟩

/-- A hard proposal of this chip. -/
def State.ownProposal (s : State) (x : Subj) (ageP ageT : Nat) : ProposeMsg :=
  { subj := x, kind := 0, hard := true, domain := BitVec.ofNat 8 (s.get .ux Reg.UX_HC_PEER_DOMAIN), ageP := BitVec.ofNat 32 ageP, ageT := BitVec.ofNat 32 ageT, epoch := s.epoch, origin := s.chipSubj }

/-- The proposal is held, and logged. -/
def State.proposed (s : State) (x : Subj) (ageP ageT : Nat) : State :=
  (s.log .ux 0x42 0x6003 (subjObj x) 256).modUx (fun u => { u with proposals := u.proposals.filter (fun q => q.subj != x || q.settled.isSome) ++ [{ subj := x, msg := some (s.ownProposal x ageP ageT), yes := [s.chipSubj], settled := none }] })

/-- An own proposal is held and sent. -/
theorem proposeOwn_told (ageP ageT : Nat) : Told (s.proposed x ageP ageT) (s.proposeOwn x true ageP ageT) := by
  have h1 : Told (s.proposed x ageP ageT) ((s.proposed x ageP ageT).toAuthority (.propose (s.ownProposal x ageP ageT))) := (Told.refl _).toAuthority _
  unfold State.proposeOwn
  dsimp only
  rw [if_pos rfl]
  split
  · exact (Told.ite (h1.sendUp _) h1).toPartner _
  · exact h1.sendDown ..
  · exact h1.sendDown ..

theorem openProposal_fresh (l : List Proposal) (q : Proposal) (hq : q.subj = x ∧ q.settled = none) :
    (l.filter (fun q => q.subj != x || q.settled.isSome) ++ [q]).find? (fun q => q.subj == x && q.settled.isNone) = some q := by
  have hn : (l.filter (fun q => q.subj != x || q.settled.isSome)).find? (fun q => q.subj == x && q.settled.isNone) = none := List.find?_eq_none.mpr (fun e he => by
    have h := (List.mem_filter.mp he).2
    cases hs : e.settled <;> simp_all)
  rw [List.find?_append, hn, Option.none_or, List.find?_cons_of_pos (by rw [hq.1, hq.2]; simp)]

/-- A silent subject is proposed (R334, R335): one yes, its observer's. -/
theorem silent_leaves (ageT : Nat) : let u := s.silent x ageT
    (∃ q, u.openProposal x = some q ∧ q.yes = [s.chipSubj] ∧ (q.msg.map (fun y => y.hard)) = some true) ∧ u.obsOf x = s.obsOf x ∧ u.codeOf x = s.codeOf x ∧ Logged .ux s u [(0x42, 0x6003, subjObj x, 256)] := by
  let a := s.proposed x (s.hbAge x) ageT
  let b := s.proposeOwn x true (s.hbAge x) ageT
  let q : Proposal := { subj := x, msg := some (s.ownProposal x (s.hbAge x) ageT), yes := [s.chipSubj], settled := none }
  have hb : Told a b := proposeOwn_told s x (s.hbAge x) ageT
  have hlog := core_log s .ux 0x42 0x6003 (subjObj x) 256
  have hopen : b.openProposal x = some q := by
    have hp : b.ux.proposals = _ := ux_of_core hb.core Uhloux.proposals
    unfold State.openProposal
    rw [hp]
    exact openProposal_fresh x _ q ⟨rfl, rfl⟩
  have hq : s.silent x ageT = b := by
    show b.quorum x = b
    unfold State.quorum
    rw [hopen]
    rfl
  show (∃ q, (s.silent x ageT).openProposal x = some q ∧ _ ∧ _) ∧ (s.silent x ageT).obsOf x = _ ∧ (s.silent x ageT).codeOf x = _ ∧ Logged .ux s (s.silent x ageT) _
  rw [hq]
  refine ⟨⟨q, hopen, rfl, rfl⟩, (obsOf_of_core hb.core x).trans (obsOf_of_core hlog x), codeOf_of_members ((ux_of_core hb.core Uhloux.members).trans (ux_of_core hlog Uhloux.members)) x, ?_⟩
  exact (logged_log 0x42 0x6003 (subjObj x) 256 rfl : Logged .ux s (s.log .ux 0x42 0x6003 (subjObj x) 256) _).trans ((logged_nil rfl : Logged .ux _ a []).trans (hb.logged .ux))

/-- The twin's answer (R334). -/
theorem hearTake_idle (age : Nat) (h : ¬ ((s.obsOf x).asked = true ∧ s.codeOf x = 4)) : s.hearTake x age = s := if_neg (by simpa using h)

theorem hearTake_alive (age : Nat) (h : (s.obsOf x).asked = true ∧ s.codeOf x = 4) (ha : age < 30000) : let u := s.hearTake x age
    u.codeOf x = 3 ∧ (u.obsOf x).asked = false ∧ Logged .ux s u [(0x42, 0x6002, subjObj x, age)] := by
  let a := s.setObs x { s.obsOf x with asked := false }
  let b := a.log .ux 0x42 0x6002 (subjObj x) age
  have hs : b.setMembership x 3 = b.setSubj x 3 := setMembership_stays b x 3 (.inl rfl)
  have hu : s.hearTake x age = b.setSubj x 3 := (if_pos (by rw [h.1, h.2]; rfl)).trans ((if_pos ha).trans hs)
  have hk : HcSame b (b.setSubj x 3) := (HcSame.refl b).setSubj x 3
  show (s.hearTake x age).codeOf x = 3 ∧ ((s.hearTake x age).obsOf x).asked = false ∧ Logged .ux s (s.hearTake x age) _
  rw [hu]
  refine ⟨codeOf_setSubj .., ?_, (logged_log 0x42 0x6002 (subjObj x) age (s := s) rfl : Logged .ux s b _).trans hk.logged⟩
  exact congrArg Obs.asked ((hk.obsOf x).trans ((obsOf_of_core (core_log a ..) x).trans (obsOf_setObs s x _)))

theorem hearTake_silent (age : Nat) (h : (s.obsOf x).asked = true ∧ s.codeOf x = 4) (ha : 30000 ≤ age) : let u := s.hearTake x age
    (∃ q, u.openProposal x = some q ∧ q.yes = [s.chipSubj] ∧ (q.msg.map (fun y => y.hard)) = some true) ∧ (u.obsOf x).asked = false ∧ Logged .ux s u [(0x42, 0x6003, subjObj x, 256)] := by
  let a := s.setObs x { s.obsOf x with asked := false }
  have hu : s.hearTake x age = a.silent x age := (if_pos (by rw [h.1, h.2]; rfl)).trans (if_neg (Nat.not_lt.mpr ha))
  obtain ⟨hq, ho, -, hl⟩ := silent_leaves a x age
  show (∃ q, (s.hearTake x age).openProposal x = some q ∧ _ ∧ _) ∧ ((s.hearTake x age).obsOf x).asked = false ∧ Logged .ux s (s.hearTake x age) _
  rw [hu]
  exact ⟨hq, (congrArg Obs.asked ho).trans (congrArg Obs.asked (obsOf_setObs s x _)), (logged_nil rfl : Logged .ux s a []).trans hl⟩
end

/-! ### The obligation -/

/-- Settles O50: a heartbeat by what it makes of its subject, its counts and its marks; a miss and the twin's answer by what they leave of the subject. -/
theorem heartbeats : Obligations.Heartbeats := by
  unfold Obligations.Heartbeats
  intro lane m x nth age s
  refine ⟨fun h => if_pos h, fun h => if_neg (by rw [h]; decide), fun h => ?_, fun h => ?_, fun h => ?_, fun h => if_pos h, fun h hq => ?_, fun ht hl hx hm hst h0 h1 h2 hb1 hb2 hb3 hb4 => ?_, fun ha hr ht hst hm => ?_,
    fun h => ?_, fun h ht => ?_, fun h ht => ?_, rfl, fun h => ⟨congrArg Host.Outcome.next (hearTake_idle s x _ h), congrArg Host.Outcome.next (hearTake_idle s x _ h)⟩,
    fun h => ⟨fun ha => ⟨_, rfl, hearTake_alive s x _ h ha⟩, fun ha => ⟨_, rfl, hearTake_silent s x _ h ha⟩, ⟨_, rfl, hearTake_silent s x _ h (by decide)⟩⟩⟩
  · have htier : (s.hbNew .ux).tier = 0 := (get_of_reg (reg_mod s .ux .ux _ _ rfl)).trans h
    refine congrArg Host.Outcome.next ?_
    rw [htier]
    rfl
  · have htier : (s.hbNew .ux).tier = 1 := (get_of_reg (reg_mod s .ux .ux _ _ rfl)).trans h
    refine congrArg Host.Outcome.next ?_
    rw [htier]
    rfl
  · have htier : (s.hbNew .ux).tier = s.tier := get_of_reg (reg_mod s .ux .ux _ _ rfl)
    obtain ⟨n, hn⟩ := Nat.exists_eq_add_of_le' h
    refine congrArg Host.Outcome.next ?_
    rw [htier, hn]
    rfl
  · obtain ⟨k1, -, -, -, -, -, k7⟩ := hbKnown_leaves s lane m
    obtain ⟨c1, c2, c3, c4, c5⟩ := codeOf_hbKnown s lane m
    have hu : exec (.hbMessage lane m) s = .next (s.hbKnown lane m) := by
      rw [hbMessage_eq s lane m h, hbCounted_quiet _ lane m hq]
      obtain ⟨-, -, -, -, h5, h6⟩ := hq
      rw [h5, h6]
      rfl
    exact ⟨_, hu, k1, c1, c2, c3, c4, c5, k7⟩
  · obtain ⟨-, k2, -, k4, -, k6, k7⟩ := hbKnown_leaves s lane m
    have hk : s.hbKnown lane m = s.hbHeard m.subj := hbMember_other _ lane m.subj (by omega) (by omega) (by omega)
    have hh := heard_hbHeard s m.subj
    have hc : ∀ f : Fld, f.off = 0x7000 → (s.hbKnown lane m).get .ux f = s.get .ux f := fun f hf => get_of_reg (k6 _ (by rw [hf]; decide))
    have hhealth : (s.hbKnown lane m).get .ux (Reg.UX_LANE_HC_HEALTH lane) = s.get .ux (Reg.UX_LANE_HC_HEALTH lane) := by
      rw [hk]
      exact hh.health lane
    have hmem : (s.hbKnown lane m).member ((s.hbKnown lane m).pdiOf lane) = 3 := by
      rw [k4, hk]
      unfold State.member
      rw [hh.members]
      exact hm
    have hs := hbCounted_scores (s.hbKnown lane m) lane m (k2.trans ht) hl (by rw [k4]; exact hx) hmem ⟨h0, h1, h2⟩ (by rw [hhealth]; exact hb1) (by rw [hhealth, hc _ rfl]; exact hb2) (by rw [hhealth, hc _ rfl]; exact hb3) (by rw [hhealth, hc _ rfl]; exact hb4)
    refine ⟨(s.hbKnown lane m).hbCounted lane m, ?_, hs.health.trans (congrArg (· + _) hhealth), k7.trans hs.same.logged⟩
    rw [hbMessage_eq s lane m (by omega), h1, h2]
    rfl
  · obtain ⟨-, k2, k3, -, k5, k6, k7⟩ := hbKnown_leaves s lane m
    have ht2 : s.tier = 2 := authority_tier s ha
    have hc : (s.hbKnown lane m).hbCounted lane m = s.hbKnown lane m := if_neg (fun h => absurd (k2.symm.trans h.1) (by rw [ht2]; decide))
    have hu : exec (.hbMessage lane m) s = .next ((s.hbKnown lane m).publish m.subj 4 0 true) := by
      rw [hbMessage_eq s lane m hst, hc]
      dsimp only
      have hmark : ((m.stepMissed || m.dieFatal) && (inMembers (s.codeOf m.subj) || decide ((s.hbKnown lane m).tier ≠ 0 ∧ m.subj.tier = 0))) = true := by
        rw [decide_eq_true ⟨by rw [k2, ht2]; decide, ht⟩, Bool.or_true, Bool.and_true, Bool.or_eq_true]
        exact hm
      rw [if_pos hmark, if_pos (k3.trans ha), k5, hr]
      rfl
    obtain ⟨es, hl⟩ := publish_logs (s.hbKnown lane m) m.subj 4 0 true
    rw [get_of_reg (f := Reg.UX_HC_STAT_EPOCH) (k6 _ (by decide)), Nat.zero_mod, Nat.add_zero] at hl
    exact ⟨_, hu, publish_rolls .., es, k7.trans hl⟩
  · obtain ⟨k1, k2, k3, k4⟩ := missed_leaves s x nth age
    have hcode : (s.missed x nth age).codeOf x = s.codeOf x := codeOf_of_members k3 x
    refine ⟨_, hbMiss_eq s x nth age, ?_⟩
    dsimp only
    rw [if_neg (fun hc => h.elim (fun h => h hc.1) (fun h => h (hcode.symm.trans hc.2)))]
    exact ⟨k1, k2, hcode, k4⟩
  · obtain ⟨-, -, k3, k4⟩ := missed_leaves s x 3 age
    obtain ⟨c1, c2, c3⟩ := suspect_leaves (s.missed x 3 age) x age.toNat
    refine ⟨_, hbMiss_eq s x 3 age, ?_⟩
    dsimp only
    rw [if_pos ⟨rfl, (codeOf_of_members k3 x).trans h⟩, if_pos ht]
    exact ⟨c1, c2 ht, k4.trans c3⟩
  · obtain ⟨-, -, k3, k4⟩ := missed_leaves s x 3 age
    obtain ⟨c1, -, c3⟩ := suspect_leaves (s.missed x 3 age) x age.toNat
    obtain ⟨-, -, d3, d4⟩ := silent_leaves ((s.missed x 3 age).suspect x age.toNat) x 0xFFFFFFFF
    refine ⟨_, hbMiss_eq s x 3 age, ?_⟩
    dsimp only
    rw [if_pos ⟨rfl, (codeOf_of_members k3 x).trans h⟩, if_neg ht]
    exact ⟨d3.trans c1, (k4.trans c3).trans d4⟩

end Sys2Proof.Machine

/-! SUPPORT. What a change of membership leaves of a chip (R229, R307, R326). -/

namespace Sys2Proof.Machine

set_option Elab.async false

/-- Members, rollback and registers stand, but for the registers of lanes and those an end of an operation writes. -/
structure Standing (s t : State) : Prop where
  members  : t.ux.members = s.ux.members
  rollback : t.ux.rollback = s.ux.rollback
  regs     : ∀ o, o < 0x40000 → o ∉ endOffs → t.reg .ux o = s.reg .ux o

namespace Standing

variable {s t u : State}

theorem refl (s : State) : Standing s s := ⟨rfl, rfl, fun _ _ _ => rfl⟩

theorem trans (h : Standing s t) (k : Standing t u) : Standing s u := ⟨k.members.trans h.members, k.rollback.trans h.rollback, fun o h1 h2 => (k.regs o h1 h2).trans (h.regs o h1 h2)⟩

theorem ended (h : Standing s t) (k : Ended t u) : Standing s u := h.trans ⟨k.proj (·.members), k.proj (·.rollback), fun o _ h2 => k.regs o h2⟩

theorem core (h : Standing s t) (hc : u.core = t.core) : Standing s u := h.ended ((Ended.refl t).core hc)

theorem told (h : Standing s t) (k : Told t u) : Standing s u := h.core k.core

theorem log (h : Standing s t) (p : Part) (a b c d : Nat) : Standing s (t.log p a b c d) := h.core (core_log ..)

theorem draw (h : Standing s t) : Standing s t.draw.2 := h.trans ⟨rfl, rfl, fun _ _ _ => rfl⟩

theorem modUx (h : Standing s t) (f : Uhloux → Uhloux) (hb : (f t.ux).base = t.ux.base := by rfl) (h1 : (f t.ux).members = t.ux.members := by rfl) (h2 : (f t.ux).rollback = t.ux.rollback := by rfl) : Standing s (t.modUx f) :=
  h.trans ⟨h1, h2, fun o _ _ => reg_modUx t f .ux o (by rw [hb])⟩

/-- A field of a lane's registers. -/
theorem put (h : Standing s t) (f : Fld) (v : Nat) (ho : 0x40000 ≤ f.off) : Standing s (t.put .ux f v) := h.trans ⟨rfl, rfl, fun o h _ => reg_setReg_other t .ux f.off o _ (by omega)⟩

theorem ite {a b : State} {c : Prop} [Decidable c] (ha : Standing s a) (hb : Standing s b) : Standing s (if c then a else b) := by
  split
  · exact ha
  · exact hb

theorem foldl {α : Type} (h : Standing s t) (l : List α) (f : State → α → State) (hf : ∀ u x, Standing s u → Standing s (f u x)) : Standing s (l.foldl f t) :=
  List.foldlRecOn (motive := Standing s) _ _ h (fun u hu x _ => hf u x hu)

theorem get (h : Standing s t) (f : Fld) (h1 : f.off < 0x40000 := by decide) (h2 : f.off ∉ endOffs := by decide) : t.get .ux f = s.get .ux f := get_of_reg (h.regs _ h1 h2)

theorem tier (h : Standing s t) : t.tier = s.tier := h.get Reg.UX_IDENT_ROLE_TIER

theorem codeOf (h : Standing s t) (x : Subj) : t.codeOf x = s.codeOf x := codeOf_of_members h.members x

/-! ### Barrier nodes -/

theorem setNode (h : Standing s t) (b : Nat) (n : BarNode) : Standing s (t.setNode b n) := h.modUx _

theorem nodeOpen (h : Standing s t) (b : Nat) (n : BarNode) (arrived : List BarArr) : Standing s (t.nodeOpen b n arrived) := by
  unfold State.nodeOpen
  split
  · exact h.setNode ..
  · exact h.draw.setNode ..

theorem nodeRelease (h : Standing s t) (b : Nat) : Standing s (t.nodeRelease b) := by
  have hb : Standing s ((t.node b).arrived.foldl (fun t a => t.barBack a (.barRelease (BitVec.ofNat 8 b))) (t.nodeNext b (t.node b) BarNode.zero)) :=
    Standing.foldl (h.nodeOpen b _ _) _ _ (fun u _ hu => .ite (hu.told ((Told.refl u).toTwin _)) (hu.told ((Told.refl u).send ..)))
  unfold State.nodeRelease
  dsimp only
  split
  · exact hb.ended ((Ended.refl _).endQid ..)
  · exact hb

theorem nodeStep (h : Standing s t) (b : Nat) : Standing s (t.nodeStep b) :=
  .ite (.ite (h.nodeRelease b) ((h.setNode b { t.node b with sentUp := true }).told ((Told.refl _).sendUp _))) h

theorem nodeCheck (h : Standing s t) (b : Nat) : Standing s (t.nodeCheck b) := (h.nodeStep b).nodeStep b

/-! ### Cross-check groups -/

theorem proposeOwn (h : Standing s t) (x : Subj) (hard : Bool) (a b : Nat) : Standing s (t.proposeOwn x hard a b) := by
  have h1 := fun (ps : Uhloux → List Proposal) m => ((h.log .ux 0x42 0x6003 (subjObj x) (if hard then 256 else 0)).modUx (fun u => { u with proposals := ps u })).told ((Told.refl _).toAuthority m)
  unfold State.proposeOwn
  refine .ite ?_ (h1 _ _)
  dsimp only
  split
  · exact (Standing.ite ((h1 _ _).told ((Told.refl _).sendUp ..)) (h1 _ _)).told ((Told.refl _).toPartner _)
  · exact (h1 _ _).told ((Told.refl _).sendDown ..)
  · exact (h1 _ _).told ((Told.refl _).sendDown ..)

theorem probation (h : Standing s t) (x pdi : Nat) : Standing s (t.probation x pdi) := by
  have hk : Standing s (t.probationK pdi).2 := by
    unfold State.probationK
    split
    · exact h
    · exact h.draw
  have hl : ∀ n : Nat, 0x40000 ≤ 0x40038 + 0x100 * n := fun n => by omega
  have h6 := fun (m : Msg) a b c d => (((hk.told ((Told.refl _).send x m)).log .ux a b c d).put (Reg.UX_LANE_HC_PROBATION x) 1 (hl x)).put (Reg.UX_LANE_HC_SUSPECT_ACT x) 1 (hl x)
  unfold State.probation
  dsimp only
  refine (h6 _ _ _ _ _).put _ _ ?_
  split <;> exact hl x

theorem healthAdd (h : Standing s t) (x pts : Nat) (soft : Bool) : Standing s (t.healthAdd x pts soft) := by
  have ha := fun n => (h.put (Reg.UX_LANE_HC_HEALTH x) n (show 0x40000 ≤ 0x40038 + 0x100 * x by omega)).modUx
    (fun u => { u with healthKind := tput 0 u.healthKind (if soft then 2 * x else 2 * x + 1) (tget 0 u.healthKind (if soft then 2 * x else 2 * x + 1) + pts) })
  have hb := fun n (c : Bool) => Standing.ite (c := c = true) ((ha n).log .ux 0x42 0x6020 (subjObj (dieSubj (t.pdiOf x))) n) (ha n)
  have hc := fun n (c d : Bool) => Standing.ite (c := d = true) ((hb n c).probation x (t.pdiOf x)) (hb n c)
  have hd := fun n (c d e : Bool) => Standing.ite (c := e = true) ((hc n c d).proposeOwn (dieSubj (t.pdiOf x)) false 0 0) (hc n c d)
  unfold State.healthAdd
  exact .ite h (.ite ((hd _ _ _ _).modUx (fun u => { u with healthKind := _ })) (hd _ _ _ _))

theorem groupPoints (h : Standing s t) (g : XGroup) (maj : Option HistEntry) : Standing s (t.groupPoints g maj) := by
  unfold State.groupPoints
  split
  · exact h
  · refine h.foldl _ _ (fun u c hu => ?_)
    split
    · exact .ite hu (hu.healthAdd ..)
    · exact hu

theorem groupVerdict (h : Standing s t) (rid : Nat) (g : XGroup) (src : BitVec 32) (maj : Option HistEntry) (total : Nat) : Standing s (t.groupVerdict rid g src maj total) := by
  have h1 := h.foldl g.got (fun t c => t.send .ux c.1 (.xchkDown (BitVec.ofNat 12 rid) src (g.step.getD 0) maj total)) (fun u _ hu => hu.told ((Told.refl u).send ..))
  exact ((h1.modUx (fun u => { u with groups := terase _ rid }) : Standing s (State.setGroups _ _)).groupPoints g maj).ended ((Ended.refl _).endQid ..)

theorem groupCheck (h : Standing s t) (rid : Nat) (g : XGroup) : Standing s (t.groupCheck rid g) :=
  .ite (h.modUx _) (.ite (h.groupVerdict ..) ((h.modUx (fun u => { u with groups := _ }) : Standing s (t.setGroups _)).told ((Told.refl _).sendUp _)))

theorem membersChanged (h : Standing s t) : Standing s t.membersChanged := by
  have hn := h.foldl t.ux.bars (fun v e => if e.2.isOpen then (v.setNode e.1 (e.2.lower t.memberPorts)).nodeCheck e.1 else v) (fun _ _ hu => .ite ((hu.setNode ..).nodeCheck _) hu)
  exact hn.foldl _ _ (fun _ _ hu => .ite hu (hu.groupCheck ..))

theorem laneProbEnd (h : Standing s t) (x : Subj) : Standing s (t.laneProbEnd x) := by
  have hl : ∀ n : Nat, 0x40000 ≤ 0x40038 + 0x100 * n := fun n => by omega
  unfold State.laneProbEnd
  split
  · exact (((h.put _ _ (hl _)).put _ _ (hl _)).put _ _ (hl _)).put _ _ (hl _)
  · exact h

end Standing

/-! ### A subject leaves membership (R229, R326) -/

section
variable (s : State) (x : Subj) (code : Nat)

theorem leaves_standing : Standing (s.setSubj x code) (s.leaves x code) := Standing.laneProbEnd (.ite (Standing.refl _).membersChanged (.refl _)) x

theorem codeOf_leaves : (s.leaves x code).codeOf x = code := ((leaves_standing s x code).codeOf x).trans (codeOf_setSubj s x code)

theorem reg_leaves (o : Nat) (h1 : o < 0x40000) (h2 : o ∉ endOffs) : (s.leaves x code).reg .ux o = s.reg .ux o := ((leaves_standing s x code).regs o h1 h2).trans (((HcSame.refl s).setSubj x code).regs o h1)

theorem get_leaves (f : Fld) (h1 : f.off < 0x40000 := by decide) (h2 : f.off ∉ endOffs := by decide) : (s.leaves x code).get .ux f = s.get .ux f := get_of_reg (reg_leaves s x code _ h1 h2)

theorem rollback_leaves : (s.leaves x code).ux.rollback = s.ux.rollback := (leaves_standing s x code).rollback.trans ((HcSame.refl s).setSubj x code).rollback

/-- Above the leaves a die that is no member has no lane here. -/
theorem leaves_above (ht : s.tier ≠ 0) (hx : x.tier = 0) (hm : inMembers (s.codeOf x) = false) : s.leaves x code = s.modUx (fun u => { u with members := tput 0 u.members x.pdi.toNat code }) := by
  have hs : s.setMembership x code = s.modUx (fun u => { u with members := tput 0 u.members x.pdi.toNat code }) := by
    rw [setMembership_stays s x code (.inr hm)]
    refine (if_pos hx).trans ?_
    unfold State.setMember
    dsimp only
    refine if_neg ?_
    have : (s.modUx (fun u => { u with members := tput 0 u.members x.pdi.toNat code })).tier = s.tier := rfl
    rw [this]
    simp [ht]
  unfold State.leaves
  rw [hs]
  have hd : (s.modUx (fun u => { u with members := tput 0 u.members x.pdi.toNat code })).dieLane x.pdi.toNat = none := if_neg ht
  unfold State.laneProbEnd
  rw [hd, ite_self]
end

end Sys2Proof.Machine

/-! SUPPORT. The step kill and the end of probation at a die (R345, R365). -/

namespace Sys2Proof.Machine

set_option Elab.async false

/-! ### What the step kill leaves alone -/

/-- SEQ_STAT, HC_STAT and the guard of the die stand. -/
structure DieKept (s t : State) : Prop where
  seq   : t.reg .el 0x2008 = s.reg .el 0x2008
  hc    : t.reg .el 0x3040 = s.reg .el 0x3040
  guard : t.reg .el 0x9008 = s.reg .el 0x9008
  ctrl  : t.reg .el 0x9000 = s.reg .el 0x9000
  held  : t.guard .el = s.guard .el

namespace DieKept

variable {s t u : State}

theorem refl (s : State) : DieKept s s := ⟨rfl, rfl, rfl, rfl, rfl⟩

theorem trans (h : DieKept s t) (k : DieKept t u) : DieKept s u := ⟨k.seq.trans h.seq, k.hc.trans h.hc, k.guard.trans h.guard, k.ctrl.trans h.ctrl, k.held.trans h.held⟩

theorem core (h : DieKept s t) (hc : u.core = t.core) : DieKept s u := h.trans ⟨reg_of_core hc .el _, reg_of_core hc .el _, reg_of_core hc .el _, reg_of_core hc .el _, guard_of_core hc .el⟩

theorem ite {a b : State} {c : Prop} [Decidable c] (ha : DieKept s a) (hb : DieKept s b) : DieKept s (if c then a else b) := by
  split
  · exact ha
  · exact hb

theorem foldl {α : Type} (h : DieKept s t) (l : List α) (f : State → α → State) (hf : ∀ u x, DieKept s u → DieKept s (f u x)) : DieKept s (l.foldl f t) :=
  List.foldlRecOn (motive := DieKept s) _ _ h (fun u hu x _ => hf u x hu)

theorem setReg (h : DieKept s t) (o : Nat) (w : Word) (ho : o ≠ 0x2008 ∧ o ≠ 0x3040 ∧ o ≠ 0x9008 ∧ o ≠ 0x9000 := by decide) : DieKept s (t.setReg .el o w) :=
  h.trans ⟨reg_setReg_other t .el o _ w (Ne.symm ho.1), reg_setReg_other t .el o _ w (Ne.symm ho.2.1), reg_setReg_other t .el o _ w (Ne.symm ho.2.2.1), reg_setReg_other t .el o _ w (Ne.symm ho.2.2.2), rfl⟩

theorem put (h : DieKept s t) (f : Fld) (v : Nat) (ho : f.off ≠ 0x2008 ∧ f.off ≠ 0x3040 ∧ f.off ≠ 0x9008 ∧ f.off ≠ 0x9000 := by decide) : DieKept s (t.put .el f v) := h.setReg _ _ ho

theorem modEl (h : DieKept s t) (f : Elesh → Elesh) (hb : (f t.el).base.regs = t.el.base.regs := by rfl) (hg : (f t.el).base.guard = t.el.base.guard := by rfl) :
    DieKept s (t.modEl f) :=
  h.trans ⟨reg_modEl t f .el _ hb, reg_modEl t f .el _ hb, reg_modEl t f .el _ hb, reg_modEl t f .el _ hb, hg⟩

theorem mod (h : DieKept s t) (f : Base → Base) (hr : (f t.el.base).regs = t.el.base.regs := by rfl) (hg : (f t.el.base).guard = t.el.base.guard := by rfl) :
    DieKept s (t.mod .el f) :=
  h.trans ⟨reg_mod t .el .el f _ hr, reg_mod t .el .el f _ hr, reg_mod t .el .el f _ hr, reg_mod t .el .el f _ hr, hg⟩

theorem talLast (h : DieKept s t) (op pc st block : Nat) : DieKept s (t.talLast op pc st block) := .ite h (h.setReg ..)

theorem qfail (h : DieKept s t) (q : QueueId) (pc st : Nat) : DieKept s (t.qfail .el q pc st) :=
  (((((h.put Reg.SEQ_QSTAT_FLAG _).put Reg.SEQ_QSTAT_STATUS _).put Reg.SEQ_QSTAT_QUEUE _).put Reg.SEQ_QSTAT_COUNT _).put Reg.SEQ_QSTAT_PC _).core (core_logW (t.failNoted .el q pc st (t.failCount .el)) ..)

theorem seqState (h : DieKept s t) : t.seqState .el = s.seqState .el := get_of_reg (f := Reg.SEQ_STAT_STATE) h.seq

theorem get (h : DieKept s t) (f : Fld) (ho : f.off = 0x3040 := by rfl) : t.get .el f = s.get .el f := get_of_reg (by rw [ho]; exact h.hc)

theorem guardActive (h : DieKept s t) : t.guardActive .el = s.guardActive .el := bit_of_reg h.guard

theorem endFail (h : DieKept s t) (o : QOp) (st : Nat) (hs : s.seqState .el ≠ 4) : DieKept s (t.endFail .el o st) := by
  have hk : DieKept s (((t.dropOp .el o.id).talLast (if st = stRefused then 0 else o.kind.redOp) o.pc st 0).qfail .el o.queue o.pc st) := ((h.mod _).talLast _ _ _ _).qfail _ _ _
  unfold State.endFail
  rw [drainCheck_of_ne (by rw [hk.seqState]; exact hs)]
  exact hk

/-- A register of a DMA channel. -/
theorem putDma (h : DieKept s t) (f : Fld) (v : Nat) (ho : f.off % 0x100 ≠ 0x08 ∧ f.off % 0x100 ≠ 0x40 ∧ f.off % 0x100 ≠ 0) : DieKept s (t.put .el f v) := h.put f v (by omega)

theorem dmaEndFail (h : DieKept s t) (ch st : Nat) (hs : s.seqState .el ≠ 4) : DieKept s (t.dmaEndFail ch st) := by
  have hk : DieKept s (((t.put .el (Reg.DMA_STAT_STATE ch) 0).put .el (Reg.DMA_STAT_LEFT ch) 0).modDma ch (fun _ => Dma.zero)) :=
    ((h.putDma (Reg.DMA_STAT_STATE ch) 0 (by simp only [Reg.DMA_STAT_STATE]; omega)).putDma (Reg.DMA_STAT_LEFT ch) 0 (by simp only [Reg.DMA_STAT_LEFT]; omega)).modEl _
  unfold State.dmaEndFail
  dsimp only
  split
  · split
    · exact hk.endFail _ st hs
    · exact hk
  · exact hk

theorem dmaWriteBack (h : DieKept s t) (ch st cause : Nat) : DieKept s (t.dmaWriteBack ch st cause) := by
  unfold State.dmaWriteBack State.count
  dsimp only
  refine DieKept.modEl (DieKept.putDma (DieKept.putDma (DieKept.putDma (DieKept.putDma (DieKept.putDma (DieKept.putDma ((h.mod _).mod _) _ _ ?_) _ _ ?_) _ _ ?_) _ _ ?_) _ _ ?_) _ _ ?_) _
  · simp only [Reg.DMA_STAT_POS]; omega
  · simp only [Reg.DMA_STAT_LAST_STATUS]; omega
  · simp only [Reg.DMA_STAT_LAST_CAUSE]; omega
  · simp only [Reg.DMA_RESIDUE_RESIDUE]; omega
  · simp only [Reg.DMA_CNT_DESC_DONE]; omega
  · simp only [Reg.DMA_STAT_LEFT]; omega

theorem dmaAbort (h : DieKept s t) (ch st : Nat) (hs : s.seqState .el ≠ 4) : DieKept s (t.dmaAbort ch st) := by
  have hm : ∀ f, DieKept s (t.modDma ch f) := fun f => h.modEl _
  have ha : ∀ v, DieKept s v → DieKept s (v.dmaAborted ch) := fun v hv => by
    have h1 : DieKept s (if (v.dma ch).fetched then v.dmaWriteBack ch (v.dma ch).endSt (if (v.dma ch).busError then 1 else 0) else v) := .ite (hv.dmaWriteBack ..) hv
    exact ((h1.putDma (Reg.DMA_STAT_ABORT ch) 1 (by simp only [Reg.DMA_STAT_ABORT]; omega)).core (core_logW ..)).dmaEndFail ch _ hs
  unfold State.dmaAbort
  dsimp only
  exact .ite (.ite ((hm _).putDma _ _ (by simp only [Reg.DMA_STAT_STATE]; omega)) (ha _ (hm _))) (.ite (hm _) h)

theorem wakeWatch (h : DieKept s t) (w kind : Nat) (eq : Bool) : DieKept s (t.wakeWatch w kind eq) := h.trans ⟨rfl, rfl, rfl, rfl, rfl⟩

theorem watchKill (h : DieKept s t) : DieKept s t.watchKill := h.foldl _ _ (fun _ _ hu => .ite (hu.wakeWatch ..) hu)

theorem stepMissed (h : DieKept s t) : DieKept s t.stepMissed := by
  have hl : DieKept s (t.log .el 0x01 0x8085 (t.pc .el) (t.seqState .el)) := h.core (core_log ..)
  exact .ite hl (hl.modEl _)

theorem cancelHeld (h : DieKept s t) : DieKept s t.cancelHeld := (h.mod _ : DieKept s (t.modSeq .el (fun q => { q with heldStarts := [] }))).foldl _ _ (fun _ _ hu => hu.stepMissed)

end DieKept

namespace Quiet

variable {s t : State}

theorem talLast (h : Quiet s t) (op pc st block : Nat) : Quiet s (t.talLast op pc st block) := .ite h (h.setReg ..)

theorem qfail (h : Quiet s t) (q : QueueId) (pc st : Nat) : Quiet s (t.qfail .el q pc st) :=
  (((((h.put Reg.SEQ_QSTAT_FLAG _).put Reg.SEQ_QSTAT_STATUS _).put Reg.SEQ_QSTAT_QUEUE _).put Reg.SEQ_QSTAT_COUNT _).put Reg.SEQ_QSTAT_PC _).core (core_logW (t.failNoted .el q pc st (t.failCount .el)) ..)

theorem watchKill (h : Quiet s t) : Quiet s t.watchKill := h.foldl _ _ (fun _ _ hu => .ite (hu.trans ⟨fun _ _ => rfl, rfl, rfl⟩) hu)

theorem cancelHeld (h : Quiet s t) : Quiet s t.cancelHeld := (h.modSeq (fun q => { q with heldStarts := [] })).foldl _ _ (fun _ _ hu => hu.stepMissed)

end Quiet

/-! ### The step kill (R345) -/

section
variable (s : State)

/-- A RUNNING or DRAINING sequencer stops. -/
def State.killStopped (s : State) : State := if s.seqState .el = 3 || s.seqState .el = 4 then s.toFault .el else s

/-- The channels abort. -/
def State.killChannels (s : State) : State := (List.range s.el.lic.dmaCh).foldl (fun t c => (t.modDma c (fun d => { d with qid := none })).dmaAbort c stAborted) s

/-- The queues empty. -/
def State.killQueues (s : State) : State :=
  (s.el.base.qops.foldl (fun t o => (t.talLast o.kind.redOp o.pc stAborted 0).qfail .el o.queue o.pc stAborted) (s.modEl (fun e => { e with base := { e.base with qops := [] } }))).put .el Reg.TAL_STAT_BUSY 0

theorem stepKill_eq : s.stepKill = s.killStopped.killChannels.killQueues.watchKill.cancelHeld := rfl

theorem seqState_killStopped : s.killStopped.seqState .el = if s.seqState .el = 3 ∨ s.seqState .el = 4 then 5 else s.seqState .el := by
  unfold State.killStopped
  by_cases h : s.seqState .el = 3 ∨ s.seqState .el = 4
  · rw [if_pos (by simpa using h), if_pos h]
    exact (seqState_congr (reg_mod _ .el .el _ _ rfl)).trans (seqState_setSeqState s .el 5 (by decide))
  · rw [if_neg (by simpa using h), if_neg h]

theorem reg_killStopped (o : Nat) (h : o ≠ 0x2008) : s.killStopped.reg .el o = s.reg .el o := by
  unfold State.killStopped
  split
  · exact (reg_mod _ .el .el _ _ rfl).trans (reg_setReg_other s .el _ o _ h)
  · rfl

theorem killStopped_kept : DieKept s.killStopped s.stepKill := by
  have hs : s.killStopped.seqState .el ≠ 4 := by
    rw [seqState_killStopped]
    split <;> omega
  have hc : DieKept s.killStopped s.killStopped.killChannels := (DieKept.refl _).foldl (List.range s.killStopped.el.lic.dmaCh) (fun t c => (t.modDma c (fun d => { d with qid := none })).dmaAbort c stAborted)
    (fun u c hu => DieKept.dmaAbort (hu.modEl _) c stAborted hs)
  have hq : DieKept s.killStopped s.killStopped.killChannels.killQueues :=
    ((hc.modEl (fun e => { e with base := { e.base with qops := [] } })).foldl s.killStopped.killChannels.el.base.qops _ (fun _ o hu => (hu.talLast ..).qfail o.queue o.pc stAborted)).put Reg.TAL_STAT_BUSY 0
  rw [stepKill_eq]
  exact hq.watchKill.cancelHeld

theorem killQueues_quiet : Quiet (s.modEl (fun e => { e with base := { e.base with qops := [] } })) s.killQueues :=
  ((Quiet.refl _).foldl s.el.base.qops (fun t o => (t.talLast o.kind.redOp o.pc stAborted 0).qfail .el o.queue o.pc stAborted) (fun _ o hu => (hu.talLast ..).qfail o.queue o.pc stAborted)).put Reg.TAL_STAT_BUSY 0

theorem qops_killed : s.killQueues.watchKill.cancelHeld.el.base.qops = [] := (killQueues_quiet s).watchKill.cancelHeld.qops

theorem qops_stepKill : s.stepKill.el.base.qops = [] := (congrArg (fun t : State => t.el.base.qops) (stepKill_eq s)).trans (qops_killed _)

theorem hc_stepKill : s.stepKill.reg .el 0x3040 = s.reg .el 0x3040 := (killStopped_kept s).hc.trans (reg_killStopped s _ (by decide))

theorem guardActive_stepKill : s.stepKill.guardActive .el = s.guardActive .el := bit_of_reg ((killStopped_kept s).guard.trans (reg_killStopped s _ (by decide)))

theorem seqState_stepKill (h : s.seqState .el = 3 ∨ s.seqState .el = 4) : s.stepKill.seqState .el = 5 := (killStopped_kept s).seqState.trans ((seqState_killStopped s).trans (if_pos h))
end

/-! ### The end of probation (R365) -/

section
variable (s : State)

/-- CLK_STAT and the PLLs may have changed. -/
structure MulFollowed (s t : State) : Prop where
  regs  : ∀ o, o ≠ Reg.CLK_STAT_THROTTLE.off → t.reg .el o = s.reg .el o
  probK : t.el.probK = s.el.probK
  ux    : t.ux = s.ux

theorem MulFollowed.ite {s a b : State} {c : Prop} [Decidable c] (ha : MulFollowed s a) (hb : MulFollowed s b) : MulFollowed s (if c then a else b) := by
  split
  · exact ha
  · exact hb

theorem mulFollowed_fmulFollow : MulFollowed s s.fmulFollow := by
  have hp : ∀ v, MulFollowed s (s.put .el Reg.CLK_STAT_THROTTLE v) := fun v => ⟨fun o ho => reg_setReg_other s .el _ o _ ho, rfl, rfl⟩
  have hm : ∀ v (f : Pll → Pll), MulFollowed s ((s.put .el Reg.CLK_STAT_THROTTLE v).modPll .el f) := fun v f => ⟨fun o ho => (reg_mod _ .el .el _ _ rfl).trans ((hp v).regs o ho), rfl, rfl⟩
  exact .ite (.ite (hm ..) (hp _)) (.ite (hp _) (hm ..))

/-- The steps end; of HC_STAT nothing else changes. -/
theorem probEnd_leaves : let u := s.probEnd
    u.get .el Reg.HC_STAT_VSTEPS = 0 ∧ u.get .el Reg.HC_STAT_FSTEPS = 0 ∧ u.get .el Reg.HC_STAT_STATE = s.get .el Reg.HC_STAT_STATE ∧ u.get .el Reg.HC_STAT_EPOCH = s.get .el Reg.HC_STAT_EPOCH
      ∧ u.seqState .el = s.seqState .el ∧ u.ux = s.ux := by
  let a := s.put .el Reg.HC_STAT_VSTEPS 0
  let b := a.put .el Reg.HC_STAT_FSTEPS 0
  let c := b.put .el Reg.HC_STAT_PROBATION 0
  obtain ⟨hr, -, hu⟩ := mulFollowed_fmulFollow c
  have hc : ∀ f : Fld, f.off = 0x3040 → s.probEnd.get .el f = c.get .el f := fun f hf => get_of_reg (hr _ (by rw [hf]; decide))
  have h1 : ∀ f : Fld, f.hi < 64 → f.lo ≤ f.hi → (f.off ≠ Reg.HC_STAT_PROBATION.off ∨ f.hi < Reg.HC_STAT_PROBATION.lo ∨ Reg.HC_STAT_PROBATION.hi < f.lo) → c.get .el f = b.get .el f := fun f h1 h2 h => get_put_other b .el _ f 0 (by decide) (by decide) h1 h
  have h2 : ∀ f : Fld, f.hi < 64 → f.lo ≤ f.hi → (f.off ≠ Reg.HC_STAT_FSTEPS.off ∨ f.hi < Reg.HC_STAT_FSTEPS.lo ∨ Reg.HC_STAT_FSTEPS.hi < f.lo) → b.get .el f = a.get .el f := fun f h1 h2 h => get_put_other a .el _ f 0 (by decide) (by decide) h1 h
  have h3 : ∀ f : Fld, f.hi < 64 → f.lo ≤ f.hi → (f.off ≠ Reg.HC_STAT_VSTEPS.off ∨ f.hi < Reg.HC_STAT_VSTEPS.lo ∨ Reg.HC_STAT_VSTEPS.hi < f.lo) → a.get .el f = s.get .el f := fun f h1 h2 h => get_put_other s .el _ f 0 (by decide) (by decide) h1 h
  refine ⟨?_, ?_, ?_, ?_, ?_, hu⟩
  · exact (hc _ rfl).trans ((h1 _ (by decide) (by decide) (by decide)).trans ((h2 _ (by decide) (by decide) (by decide)).trans (get_put_same s .el Reg.HC_STAT_VSTEPS 0 (by decide) (by decide))))
  · exact (hc _ rfl).trans ((h1 _ (by decide) (by decide) (by decide)).trans (get_put_same a .el Reg.HC_STAT_FSTEPS 0 (by decide) (by decide)))
  · exact (hc _ rfl).trans ((h1 _ (by decide) (by decide) (by decide)).trans ((h2 _ (by decide) (by decide) (by decide)).trans (h3 _ (by decide) (by decide) (by decide))))
  · exact (hc _ rfl).trans ((h1 _ (by decide) (by decide) (by decide)).trans ((h2 _ (by decide) (by decide) (by decide)).trans (h3 _ (by decide) (by decide) (by decide))))
  · exact seqState_congr ((hr _ (by decide)).trans ((reg_setReg_other b .el _ _ _ (by decide)).trans ((reg_setReg_other a .el _ _ _ (by decide)).trans (reg_setReg_other s .el _ _ _ (by decide)))))
end

end Sys2Proof.Machine

/-! SUPPORT. The authority's decisions (R328, R336 to R342, R349, R350, R357 to R359). -/

namespace Sys2Proof.Machine

set_option Elab.async false

/-! ### What a decision shows -/

/-- The epoch a decision would carry (R328). -/
def State.nextEpoch (s : State) : Nat := (s.get .ux Reg.UX_HC_STAT_EPOCH + 1) % 2 ^ 32

/-- The kinds of a decision on a die, a leaf or spine, and a root (R337, R340, R349, R357 to R359). -/
structure KindFits (x : Subj) (k : Nat) : Prop where
  die  : x.tier = 0 → k = 1 ∨ k = 2 ∨ k = 3 ∨ k = 7
  chip : x.tier = 1 ∨ x.tier = 2 → k = 5
  root : x.tier = 3 → k = 6

/-- Among the events of the chip is a decision on a subject in an epoch. -/
def Decides (e : Nat) (x : Subj) (s u : State) : Prop :=
  ∃ k a pre post, Logged .ux s u (pre ++ (0x42, 0x6004, subjObj x, e * 2 ^ 32 + k * 2 ^ 24 + a) :: post) ∧ a < 2 ^ 20 ∧ KindFits x k

/-- Events append and the epoch stands: no decision yet. -/
structure Undecided (s t : State) : Prop where
  keeps : Keeps s t
  epoch : t.nextEpoch = s.nextEpoch

namespace Decides

variable {e : Nat} {x : Subj} {s t u : State} {es : List Entry}

theorem after (h : Logged .ux s t es) (k : Decides e x t u) : Decides e x s u := by
  obtain ⟨kind, a, pre, post, hl, ha, hk⟩ := k
  exact ⟨kind, a, es ++ pre, post, by rw [List.append_assoc]; exact h.trans hl, ha, hk⟩

theorem before (h : Decides e x s t) (k : Keeps t u) : Decides e x s u := by
  obtain ⟨kind, a, pre, post, hl, ha, hk⟩ := h
  obtain ⟨es, he⟩ := exists_logged_of_keeps .ux k
  refine ⟨kind, a, pre, post ++ es, ?_, ha, hk⟩
  have := hl.trans he
  rwa [List.append_assoc, List.cons_append] at this

theorem kept (h : Keeps s t) (k : Decides e x t u) : Decides e x s u := by
  obtain ⟨es, he⟩ := exists_logged_of_keeps .ux h
  exact k.after he

theorem publish (h : Undecided s t) (kind arg0 : Nat) (rolls : Bool) (hk : KindFits x kind) : Decides s.nextEpoch x s (t.publish x kind arg0 rolls) := by
  obtain ⟨es, hl⟩ := publish_logs t x kind arg0 rolls
  have hd : Decides t.nextEpoch x t (t.publish x kind arg0 rolls) := ⟨kind, arg0 % 2 ^ 20, [], es, hl, Nat.mod_lt _ (by decide), hk⟩
  exact h.epoch ▸ hd.kept h.keeps

/-- What the obligation says of a decision. -/
theorem spelled (h : Decides e x s u) : ∃ k a pre post, Logged .ux s u (pre ++ (0x42, 0x6004, subjObj x, e * 2 ^ 32 + k * 2 ^ 24 + a) :: post) ∧ a < 2 ^ 20
    ∧ (x.tier = 0 → k = 1 ∨ k = 2 ∨ k = 3 ∨ k = 7) ∧ (x.tier = 1 ∨ x.tier = 2 → k = 5) ∧ (x.tier = 3 → k = 6) := by
  obtain ⟨kind, a, pre, post, hl, ha, hk⟩ := h
  exact ⟨kind, a, pre, post, hl, ha, hk.die, hk.chip, hk.root⟩

end Decides

theorem kindFits_die {x : Subj} {k : Nat} (h : x.tier = 0) (hk : k = 1 ∨ k = 2 ∨ k = 3 ∨ k = 7) : KindFits x k :=
  ⟨fun _ => hk, fun hc => absurd h (by rcases hc with hc | hc <;> rw [hc] <;> decide), fun hc => absurd h (by rw [hc]; decide)⟩

namespace Undecided

variable {s t u : State}

theorem refl (s : State) : Undecided s s := ⟨keeps_refl s, rfl⟩

theorem nextEpoch_of_reg (h : t.reg .ux 0x7010 = s.reg .ux 0x7010) : t.nextEpoch = s.nextEpoch := congrArg (fun w => (fget w 63 32 + 1) % 2 ^ 32) h

theorem regs (h : Undecided s t) (hk : Keeps s u) (hr : u.reg .ux 0x7010 = t.reg .ux 0x7010) : Undecided s u := ⟨hk, (nextEpoch_of_reg hr).trans h.epoch⟩

theorem draw (h : Undecided s t) : Undecided s t.draw.2 := h.regs (keeps_draw h.keeps) rfl

theorem hbmPut (h : Undecided s t) (a : Nat) (bs : List Byte) : Undecided s (t.hbmPut a bs) := h.regs (keeps_hbmPut h.keeps) (reg_mod t .ux .ux _ _ rfl)

/-- Another field of UX_HC_STAT. -/
theorem put (h : Undecided s t) (f : Fld) (v : Nat) (hh : f.lo ≤ f.hi ∧ f.hi < 32 := by decide) : Undecided s (t.put .ux f v) := by
  refine ⟨keeps_put h.keeps, Eq.trans ?_ h.epoch⟩
  have he : (t.put .ux f v).get .ux Reg.UX_HC_STAT_EPOCH = t.get .ux Reg.UX_HC_STAT_EPOCH := get_put_other t .ux f Reg.UX_HC_STAT_EPOCH v (Nat.lt_trans hh.2 (by decide)) hh.1 (by decide) (.inr (.inr hh.2))
  exact congrArg (fun n => (n + 1) % 2 ^ 32) he

theorem log (h : Undecided s t) (a b c d : Nat) : Undecided s (t.log .ux a b c d) := h.regs (keeps_log h.keeps) (reg_of_core (core_log ..) .ux _)

theorem ite {a b : State} {c : Prop} [Decidable c] (ha : Undecided s a) (hb : Undecided s b) : Undecided s (if c then a else b) := by
  split
  · exact ha
  · exact hb

theorem hallStandby (h : Undecided s t) (pdi : Nat) : Undecided s (t.hallStandby pdi).2 := by
  unfold State.hallStandby
  split
  · exact h.draw
  · exact h

theorem spareScan (ok : Nat → Bool) (is : List Nat) (h : Undecided s t) : Undecided s (State.spareScan ok is t).2 := by
  induction is generalizing t with
  | nil => exact h
  | cons i is ih =>
    have hs := h.hallStandby (sparePdi (t.spareEntry i))
    unfold State.spareScan
    dsimp only
    split
    · exact ih h
    · split
      · exact hs.hbmPut ..
      · exact ih (hs.hbmPut ..)

theorem sparesShow (h : Undecided s t) : Undecided s t.sparesShow := .ite ((h.put Reg.UX_HC_STAT_SPARES_FREE _).log ..) (h.put Reg.UX_HC_STAT_SPARES_FREE _)

theorem sparePick (h : Undecided s t) (dom : Nat) (priv : Bool) : Undecided s (t.sparePick dom priv).2 := by
  have h1 := fun ok => h.draw.spareScan ok t.spareList
  unfold State.sparePick
  refine sparesShow ?_
  dsimp only
  split
  · exact h1 _
  · exact (h1 _).spareScan _ _

theorem deadInfo (h : Undecided s t) (pdi : Nat) : Undecided s (t.deadInfo pdi).2 := by
  unfold State.deadInfo
  split
  · exact h.draw
  · exact h

end Undecided

/-! ### A decision on a subject -/

section
variable (s : State) (x : Subj) (dom : Nat)

/-- What the authority notes of a die it decides on. -/
def State.deadNoted (s : State) (x : Subj) (dom : Nat) : State :=
  (s.draw.2.budgetAdd dom).modUx (fun u => { u with deadOf := tput 0 u.deadOf x.pdi.toNat (dom % 256 + (if s.draw.1.toNat % 2 == 1 then 256 else 0) + 1) })

/-- The decision on a die (R340, R349, R350, R357): no spare for lost data, else a spare, else a shrink, else a wait. -/
def State.dieDecided (s : State) (x : Subj) (dom v : Nat) : State :=
  let priv := v % 2 == 1
  let w := s.get .ux Reg.UX_HC_RUN_W
  if (priv && v / 2 % 2 == 1) || (!priv && decide (w ≤ 1)) then
    let holder := if priv then v / 4 % 2 ^ 32 else 0
    ((s.publish x 7 holder true).rbNeed x.pdi.toNat 7 Reg.UX_HC_STAT_UNRECOVERABLE).log .ux 0x42 0x6042 (subjObj x) holder
  else
    let r := s.sparePick dom priv
    match r.1 with
    | some e => r.2.assign x e
    | none =>
      if !priv && s.bit .ux Reg.UX_HC_CTRL_AUTO_SHRINK && decide (max 1 (s.get .ux Reg.UX_HC_RUN_W_MIN) ≤ w - 1) then (r.2.publish x 2 (w - 1) true).rbTry
      else (r.2.publish x 3 0 true).rbNeed x.pdi.toNat 3 Reg.UX_HC_STAT_WAIT

theorem decideOn_die (h : x.tier.val = 0) : s.decideOn x dom = (s.deadNoted x dom).dieDecided x dom s.draw.1.toNat := by
  unfold State.decideOn
  dsimp only
  rw [h]
  rfl

theorem decideOn_root (h : x.tier.val = 3) : s.decideOn x dom =
    let t := s.draw.2.put .ux Reg.UX_HC_STAT_AUTHORITY 1
    t.publish x 6 (t.get .ux Reg.UX_IDENT_ROLE_PLANE) true := by
  unfold State.decideOn
  dsimp only
  rw [h]
  rfl

theorem decideOn_chip (h0 : x.tier.val ≠ 0) (h3 : x.tier.val ≠ 3) : s.decideOn x dom =
    let t := s.draw.2.publish x 5 0 ((s.draw.2.childLane x).isSome || s.draw.1.toNat % 2 == 1)
    if x.tier.val = 1 then t.vaultsLost else t := by
  unfold State.decideOn
  dsimp only
  split
  · next h => exact absurd h h0
  · next h => exact absurd h h3
  · rfl

theorem undecided_deadNoted : Undecided s (s.deadNoted x dom) :=
  (Undecided.refl s).regs (keeps_modUx (keeps_budgetAdd (keeps_draw (keeps_refl s))) (baseKeeps_refl _)) ((reg_modUx _ _ .ux _ rfl).trans (reg_modUx _ _ .ux _ rfl))

theorem decides_assign {s t : State} (h : Undecided s t) (hk : KindFits x 1) (v : Nat) : Decides s.nextEpoch x s (t.assign x v) := by
  let a := (t.publish x 1 (sparePdi v) true).modRb (fun r => { r with
    assigned := r.assigned ++ [(x.pdi.toNat, sparePdi v, sparePathset v)], waitFor := r.waitFor.filter (fun d => d != sparePdi v) ++ [sparePdi v] })
  have ha : Decides s.nextEpoch x s a := (Decides.publish h 1 (sparePdi v) true hk).before (keeps_modRb (keeps_refl _))
  exact ha.before (keeps_ite (keeps_refl a) (keeps_foldl (keeps_refl a) (fun _ _ => keeps_pathSend1 (keeps_refl _))))

theorem decides_dieDecided {s t : State} (h : Undecided s t) (hx : x.tier = 0) (v : Nat) : Decides s.nextEpoch x s (t.dieDecided x dom v) := by
  have hk := fun k => kindFits_die (k := k) hx
  have hp := h.sparePick dom (v % 2 == 1)
  unfold State.dieDecided
  dsimp only
  split
  · exact (Decides.publish h 7 _ true (hk 7 (by decide))).before (keeps_log (keeps_rbNeed (keeps_refl _)))
  · split
    · next e _ => exact decides_assign x hp (hk 1 (by decide)) e
    · split
      · exact (Decides.publish hp 2 _ true (hk 2 (by decide))).before (keeps_rbTry (keeps_refl _))
      · exact (Decides.publish hp 3 0 true (hk 3 (by decide))).before (keeps_rbNeed (keeps_refl _))

theorem decideOn_decides {s t : State} (h : Undecided s t) : Decides s.nextEpoch x s (t.decideOn x dom) := by
  by_cases h0 : x.tier.val = 0
  · rw [decideOn_die t x dom h0]
    exact decides_dieDecided x dom ⟨h.keeps.trans (undecided_deadNoted t x dom).keeps, (undecided_deadNoted t x dom).epoch.trans h.epoch⟩ (Fin.ext h0) _
  · by_cases h3 : x.tier.val = 3
    · rw [decideOn_root t x dom h3]
      exact Decides.publish (h.draw.put Reg.UX_HC_STAT_AUTHORITY 1) 6 _ true
        ⟨fun hc => absurd (congrArg Fin.val hc) h0, fun hc => absurd h3 (by rcases hc with hc | hc <;> rw [hc] <;> decide), fun _ => rfl⟩
    · rw [decideOn_chip t x dom h0 h3]
      have hp := fun r => Decides.publish h.draw 5 0 r (x := x) ⟨fun hc => absurd (congrArg Fin.val hc) h0, fun _ => rfl, fun hc => absurd (congrArg Fin.val hc) h3⟩
      dsimp only
      split
      · exact (hp _).before (keeps_vaultsLost (keeps_refl _))
      · exact hp _

theorem settle_decides {s t : State} (h : Undecided s t) : Decides s.nextEpoch x s (t.settle x dom) :=
  decideOn_decides x dom (h.regs (keeps_modUx (keeps_dropProposals h.keeps) (baseKeeps_refl _)) ((reg_modUx _ _ .ux _ rfl).trans (reg_modUx _ _ .ux _ rfl)))
end

end Sys2Proof.Machine

/-! SUPPORT. Proposals, votes, decisions and headcount commands (R328, R329, R332, R335 to R337, R346, R361 to R366, R369, R370). -/

namespace Sys2Proof.Machine

set_option Elab.async false

/-! ### Votes (R336) -/

section
variable (s : State) (x voter : Subj)

theorem openProposal_subj {p : Proposal} (h : s.openProposal x = some p) : p.subj = x ∧ p.settled = none := by
  have := List.find?_some h
  rw [Bool.and_eq_true, beq_iff_eq, Option.isNone_iff_eq_none] at this
  exact this

theorem openProposal_put (q : Proposal) (h : q.subj = x ∧ q.settled = none) : (s.putProposal q).openProposal x = some q := by
  obtain ⟨rfl, hs⟩ := h
  exact openProposal_fresh q.subj s.ux.proposals q ⟨rfl, hs⟩

theorem quorum_short {q : Proposal} (h : s.openProposal x = some q) (hl : q.yes.length < 2) : s.quorum x = s := by
  unfold State.quorum
  rw [h]
  dsimp only
  split
  · exact if_neg (by omega)
  · rfl

theorem quorum_full {q : Proposal} {m : ProposeMsg} (h : s.openProposal x = some q) (hm : q.msg = some m) (hl : 2 ≤ q.yes.length) : s.quorum x = s.settle x m.domain.toNat := by
  unfold State.quorum
  rw [h]
  dsimp only
  rw [hm]
  exact if_pos hl

/-- The first yes on a subject, its proposer's. -/
theorem addYes_first (m : Option ProposeMsg) (h : s.openProposal x = none) :
    (s.addYes x voter m).openProposal x = some { subj := x, msg := m, yes := [voter], settled := none } ∧ Logged .ux s (s.addYes x voter m) [] := by
  let q : Proposal := { subj := x, msg := m, yes := [voter], settled := none }
  have hq : (s.putProposal q).openProposal x = some q := openProposal_put s x q ⟨rfl, rfl⟩
  have he : s.addYes x voter m = s.putProposal q := by
    unfold State.addYes
    rw [h]
    exact quorum_short (s.putProposal q) x hq (show 1 < 2 by decide)
  rw [he]
  exact ⟨hq, logged_nil rfl⟩

/-- The second yes decides. -/
theorem addYes_second (m : Option ProposeMsg) {p : Proposal} (h : s.openProposal x = some p) (hm : (p.msg.or m).isSome = true) (hy : p.yes ≠ []) (hc : p.yes.contains voter = false) {r : State} (hr : Undecided r s) :
    Decides r.nextEpoch x r (s.addYes x voter m) := by
  obtain ⟨hs, hn⟩ := openProposal_subj s x h
  obtain ⟨w, hw⟩ := Option.isSome_iff_exists.mp hm
  let q : Proposal := { p with msg := p.msg.or m, yes := p.yes ++ [voter] }
  have hq : (s.putProposal q).openProposal x = some q := openProposal_put s x q ⟨hs, hn⟩
  have hl : 2 ≤ q.yes.length := by
    have := List.length_pos_iff.mpr hy
    show 2 ≤ (p.yes ++ [voter]).length
    rw [List.length_append]
    exact Nat.succ_le_succ this
  have he : s.addYes x voter m = (s.putProposal q).settle x w.domain.toNat := by
    unfold State.addYes
    rw [h]
    dsimp only [Option.getD_some]
    rw [hc]
    exact quorum_full (s.putProposal q) x hq hw hl
  rw [he]
  exact settle_decides x _ (hr.regs (keeps_modUx (keeps_dropProposals hr.keeps) (baseKeeps_refl _)) ((reg_modUx _ _ .ux _ rfl).trans (reg_modUx _ _ .ux _ rfl)))
end

/-! ### Proposals (R335, R336) -/

section
variable (s : State) (m : ProposeMsg)

/-- A proposal is logged. -/
def State.proposeLogged (s : State) (m : ProposeMsg) : State := s.log .ux 0x42 0x6003 (subjObj m.subj) ((if m.hard then 256 else 0) + m.kind.toNat)

theorem core_proposeLogged : (s.proposeLogged m).core = s.core := core_log ..

theorem logged_proposeLogged : Logged .ux s (s.proposeLogged m) [(0x42, 0x6003, subjObj m.subj, (if m.hard then 256 else 0) + m.kind.toNat)] := logged_log 0x42 0x6003 _ _ rfl

theorem undecided_proposeLogged : Undecided s (s.proposeLogged m) := (Undecided.refl s).log ..

/-- What the chip holds of a subject stands. -/
structure SameVotes (s t : State) : Prop where
  counts : ∀ x, t.counts x = s.counts x
  code   : ∀ x, t.codeOf x = s.codeOf x
  held   : ∀ x e, t.decided x e = s.decided x e
  opens  : ∀ x, t.openProposal x = s.openProposal x

theorem sameVotes_of_core {s t : State} (h : t.core = s.core) : SameVotes s t :=
  ⟨fun x => (congrArg (fun v : State => v.counts x) h :), fun x => (congrArg (fun v : State => v.codeOf x) h :), fun x e => (congrArg (fun v : State => v.decided x e) h :), fun x => (congrArg (fun v : State => v.openProposal x) h :)⟩

/-- This chip's vote on a proposal. -/
def State.ballot (s : State) (m : ProposeMsg) : VoteMsg := { subj := m.subj, kind := m.kind, yes := s.votesYes m, epoch := s.epoch, origin := s.chipSubj }

/-- A voter keeps its vote. -/
def State.balloted (s : State) (m : ProposeMsg) (v : VoteMsg) : State :=
  if s.isVoter m then s.modUx (fun u => { u with votesOut := u.votesOut.filter (fun w => w.subj != m.subj) ++ [v] }) else s

/-- A vote and a proposal on their way. -/
def State.passedOn (s : State) (m : ProposeMsg) : State :=
  let v := s.ballot m
  let t := if s.isVoter m then (s.modUx (fun u => { u with votesOut := u.votesOut.filter (fun w => w.subj != v.subj) ++ [v] })).toAuthority (.vote v) else s
  if t.forwards m then t.toAuthority (.propose m) else t

theorem propose_eq (h : m.kind.toNat ≤ 7) : exec (.propose m) s = .next (let t := s.proposeLogged m; if t.counts m.subj then t.proposalTake m else t.passedOn m) := by
  exact if_neg (Nat.not_lt.mpr h)

theorem passedOn_told : Told (s.balloted m (s.ballot m)) (s.passedOn m) := by
  have h1 : Told (s.balloted m (s.ballot m)) (if s.isVoter m then
      (s.modUx (fun u => { u with votesOut := u.votesOut.filter (fun w => w.subj != m.subj) ++ [s.ballot m] })).toAuthority (.vote (s.ballot m)) else s) := by
    unfold State.balloted
    split
    · exact (Told.refl _).toAuthority _
    · exact .refl s
  exact .ite (h1.toAuthority _) h1

theorem core_balloted {s t : State} (h : t.core = s.core) (m : ProposeMsg) : (t.balloted m (t.ballot m)).core = (s.balloted m (s.ballot m)).core := by
  have hi : t.isVoter m = s.isVoter m := (congrArg (fun v : State => v.isVoter m) h :)
  have hb : t.ballot m = s.ballot m := (congrArg (fun v : State => v.ballot m) h :)
  unfold State.balloted
  rw [hi, hb]
  split
  · exact (congrArg (fun v : State => v.modUx (fun u => { u with votesOut := u.votesOut.filter (fun w => w.subj != m.subj) ++ [s.ballot m] })) h :)
  · exact h

theorem events_balloted (v : VoteMsg) : ((s.balloted m v).base .ux).events = (s.base .ux).events := by
  unfold State.balloted
  split <;> rfl
end

/-! ### Decisions at a chip (R326, R337, R362) -/

section
variable (s : State) (x : Subj) (arg0 : Nat)

/-- An expelled die leaves membership, unless it is FENCED, and the rollback no longer waits for it. -/
def State.expels (s : State) (x : Subj) : State :=
  (if s.codeOf x = 5 then s else s.leaves x 6).modRb (fun r => { r with
    waitFor := r.waitFor.filter (fun d => d != x.pdi.toNat), ready := r.ready.filter (fun d => d != x.pdi.toNat)
    assigned := r.assigned.filter (fun a => a.2.1 != x.pdi.toNat), need := r.need.filter (fun d => d.1 != x.pdi.toNat) })

theorem codeOf_expels : (s.expels x).codeOf x = if s.codeOf x = 5 then 5 else 6 := by
  have hm : (s.expels x).codeOf x = (if s.codeOf x = 5 then s else s.leaves x 6).codeOf x := rfl
  rw [hm]
  split
  · assumption
  · exact codeOf_leaves s x 6

theorem codeOf_decisionApply {k : Nat} (hx : x.tier = 0) (hk : k = 1 ∨ k = 3 ∨ k = 7) : (s.decisionApply x k arg0).codeOf x = if s.codeOf x = 5 then 5 else 6 := by
  have he := codeOf_expels (s.dropProposals x) x
  have hd : (s.dropProposals x).codeOf x = s.codeOf x := rfl
  rw [hd] at he
  rw [← he]
  unfold State.decisionApply
  dsimp only
  rw [if_pos (c := x.tier = 0 ∧ (k = 1 ∨ k = 2 ∨ k = 3 ∨ k = 7)) ⟨hx, by omega⟩]
  rcases hk with rfl | rfl | rfl <;> rfl

/-- A decision reaches a chip, which passes it down. -/
def State.decisionPassed (s : State) (d : DecisionMsg) : State := (s.put .ux Reg.UX_HC_STAT_EPOCH d.epoch.toNat).sendDown downLanes (.decision d)

theorem decision_ux_eq (d : DecisionMsg) (h : d.kind.toNat ≠ 0 ∧ d.kind.toNat ≤ 7) : exec (.decision .ux d) s = .next ((s.decisionPassed d).decisionApply d.subj d.kind.toNat d.arg0.toNat) :=
  if_neg (by omega)

theorem codeOf_decisionPassed (d : DecisionMsg) : (s.decisionPassed d).codeOf x = s.codeOf x :=
  codeOf_of_members (ux_of_core ((Told.refl (s.put .ux Reg.UX_HC_STAT_EPOCH d.epoch.toNat)).sendDown downLanes (.decision d)).core Uhloux.members) x
end

/-! ### Headcount commands (R361, R362, R369, R370) -/

section
variable (s : State) (w : Word) (act : Subj → State)

theorem hcCmd_idle (h : s.authority = false) : s.hcCmd w act = s := if_pos (by rw [h]; rfl)

theorem hcCmd_refused (h : s.authority = true) (hr : hcRefused w = true) : s.hcCmd w act = s.log .ux 0x42 0x6032 (fget w 19 0) w.toNat := (if_neg (by rw [h]; decide)).trans (if_pos hr)

theorem hcCmd_acts (h : s.authority = true) (hr : hcRefused w = false) : s.hcCmd w act = act (dieSubj (fget w 19 0)) :=
  (if_neg (by rw [h]; decide)).trans (if_neg (by rw [hr]; decide))

theorem pdi_command : (dieSubj (fget w 19 0)).pdi.toNat = fget w 19 0 := (BitVec.toNat_ofNat ..).trans (Nat.mod_eq_of_lt (fget_lt w 19 0))
end

section
variable (s : State) (x : Subj)

/-- The spare table as SPARES_FREE shows it: members, rollback and the die stand. -/
structure SparesOnly (s t : State) : Prop where
  members  : t.ux.members = s.ux.members
  rollback : t.ux.rollback = s.ux.rollback
  el       : ∀ o, t.reg .el o = s.reg .el o

theorem sparesShow_only : SparesOnly s s.sparesShow := by
  let a := s.put .ux Reg.UX_HC_STAT_SPARES_FREE (min 4095 (s.spareList.countP (fun i => spareState (s.spareEntry i) == 0)))
  have ha : SparesOnly s a := ⟨rfl, rfl, fun _ => rfl⟩
  have hl : ∀ b c d e, SparesOnly s (a.log .ux b c d e) := fun b c d e =>
    ⟨ux_of_core (core_log a .ux b c d e) Uhloux.members, ux_of_core (core_log a .ux b c d e) Uhloux.rollback, fun o => reg_of_core (core_log a .ux b c d e) .el o⟩
  show SparesOnly s (if _ then a.log .ux 0x42 0x6010 0 _ else a)
  split
  · exact hl ..
  · exact ha

/-- With no rollback open nothing waits for a spare. -/
theorem spareEvent_free (h : s.ux.rollback = none) : SparesOnly s s.spareEvent := by
  have hs := sparesShow_only s
  unfold State.spareEvent
  dsimp only
  split
  · rw [hs.rollback, h]
    exact hs
  · exact ⟨rfl, rfl, fun _ => rfl⟩

/-- The die readmitted (R365, R369): its own state. -/
def State.readmitDie (s : State) (x : Subj) : State :=
  if s.myPdi = x.pdi.toNat ∧ (s.get .el Reg.HC_STAT_STATE = 5 ∨ s.get .el Reg.HC_STAT_STATE = 6) then (s.put .el Reg.HC_STAT_STATE 2).probEnd else s

/-- A FENCED or EXPELLED die is STANDBY, and may serve a wait. -/
def State.readmit (s : State) (x : Subj) : State :=
  let c := s.codeOf x
  let s := s.readmitDie x
  if c = 5 ∨ c = 6 then ((s.leaves x 2).modUx (fun u => { u with proposals := u.proposals.filter (fun q => q.subj != x) })).spareEvent else s

theorem hcReadmit_eq (w : Word) : exec (.hcReadmit w) s = .next (s.hcCmd w s.readmit) := rfl

theorem ux_readmitDie : (s.readmitDie x).ux = s.ux := by
  unfold State.readmitDie
  split
  · exact (probEnd_leaves _).2.2.2.2.2
  · rfl

/-- The die named by the command is STANDBY without steps. -/
theorem readmitDie_named (h : s.myPdi = x.pdi.toNat ∧ (s.get .el Reg.HC_STAT_STATE = 5 ∨ s.get .el Reg.HC_STAT_STATE = 6)) :
    (s.readmitDie x).get .el Reg.HC_STAT_STATE = 2 ∧ (s.readmitDie x).get .el Reg.HC_STAT_VSTEPS = 0 ∧ (s.readmitDie x).get .el Reg.HC_STAT_FSTEPS = 0 := by
  obtain ⟨h1, h2, h3, -⟩ := probEnd_leaves (s.put .el Reg.HC_STAT_STATE 2)
  have he : s.readmitDie x = (s.put .el Reg.HC_STAT_STATE 2).probEnd := if_pos h
  rw [he]
  exact ⟨h3.trans (get_put_same s .el Reg.HC_STAT_STATE 2 (by decide) (by decide)), h1, h2⟩

/-- What a readmission leaves: the subject's code, and the die's own registers. -/
theorem readmit_leaves (ht : s.tier = 2) (hx : x.tier = 0) (hr : s.ux.rollback = none) :
    (s.codeOf x = 5 ∨ s.codeOf x = 6 → (s.readmit x).codeOf x = 2) ∧ ∀ o, (s.readmit x).reg .el o = (s.readmitDie x).reg .el o := by
  have hu := ux_readmitDie s x
  let a := s.readmitDie x
  have hcode : a.codeOf x = s.codeOf x := codeOf_of_members (congrArg Uhloux.members hu) x
  have htier : a.tier = 2 := (congrArg (fun v : Uhloux => fget (tget (resetWord .ux 8) v.base.regs 8) Reg.UX_IDENT_ROLE_TIER.hi Reg.UX_IDENT_ROLE_TIER.lo) hu).trans ht
  by_cases hc : s.codeOf x = 5 ∨ s.codeOf x = 6
  · let b := (a.leaves x 2).modUx (fun u => { u with proposals := u.proposals.filter (fun q => q.subj != x) })
    have hb : SparesOnly b b.spareEvent := spareEvent_free b ((rollback_leaves a x 2).trans ((congrArg Uhloux.rollback hu).trans hr))
    have hs : s.readmit x = b.spareEvent := if_pos hc
    have hin : inMembers (a.codeOf x) = false := by
      rw [hcode]
      rcases hc with h | h <;> rw [h] <;> rfl
    have hl := leaves_above a x 2 (by rw [htier]; decide) hx hin
    rw [hs]
    refine ⟨fun _ => (codeOf_of_members hb.members x).trans (codeOf_leaves a x 2), fun o => (hb.el o).trans ?_⟩
    show (a.leaves x 2).reg .el o = a.reg .el o
    rw [hl]
    rfl
  · have hs : s.readmit x = a := if_neg hc
    rw [hs]
    exact ⟨fun h => absurd h hc, fun _ => rfl⟩

/-- VIEW_CONFLICT shows at the die and its leaf, and the command is logged (R361). -/
def State.adviseFailed (s : State) (x : Subj) : State :=
  let c := s.codeOf x
  if c = 0 ∨ inMembers c then
    let s := if s.myPdi = x.pdi.toNat then s.put .el Reg.HC_STAT_VIEW_CONFLICT 1 else s
    let s := match s.dieLane x.pdi.toNat with
      | some l => s.put .ux (Reg.UX_LANE_HC_VIEW_CONFLICT l) 1
      | none => s
    s.log .ux 0x42 0x6030 (subjObj x) 0
  else s

theorem hcAdviseFailed_eq (w : Word) : exec (.hcAdviseFailed w) s = .next (s.hcCmd w s.adviseFailed) := rfl

/-- The chip that advises, above the leaves. -/
theorem adviseFailed_eq (ht : s.tier = 2) (h : s.codeOf x = 0 ∨ inMembers (s.codeOf x) = true) :
    s.adviseFailed x = (if s.myPdi = x.pdi.toNat then s.put .el Reg.HC_STAT_VIEW_CONFLICT 1 else s).log .ux 0x42 0x6030 (subjObj x) 0 := by
  have hd : (if s.myPdi = x.pdi.toNat then s.put .el Reg.HC_STAT_VIEW_CONFLICT 1 else s).dieLane x.pdi.toNat = none := by
    have htier : (if s.myPdi = x.pdi.toNat then s.put .el Reg.HC_STAT_VIEW_CONFLICT 1 else s).tier = s.tier := by split <;> rfl
    exact if_neg (by rw [htier, ht]; decide)
  unfold State.adviseFailed
  dsimp only
  rw [if_pos h, hd]

theorem adviseFailed_leaves (ht : s.tier = 2) (h : s.codeOf x = 0 ∨ inMembers (s.codeOf x) = true) : let u := s.adviseFailed x
    u.ux.members = s.ux.members ∧ (s.myPdi = x.pdi.toNat → u.bit .el Reg.HC_STAT_VIEW_CONFLICT = true) ∧ Logged .ux s u [(0x42, 0x6030, subjObj x, 0)] := by
  rw [adviseFailed_eq s x ht h]
  dsimp only
  split
  · let a := s.put .el Reg.HC_STAT_VIEW_CONFLICT 1
    have hl := core_log a .ux 0x42 0x6030 (subjObj x) 0
    exact ⟨ux_of_core hl Uhloux.members, fun _ => bit_of_get ((get_of_reg (reg_of_core hl .el _)).trans (get_put_same s .el Reg.HC_STAT_VIEW_CONFLICT 1 (by decide) (by decide))), logged_log 0x42 0x6030 _ 0 rfl⟩
  · next hm => exact ⟨ux_of_core (core_log s ..) Uhloux.members, fun hc => absurd hc hm, logged_log 0x42 0x6030 _ 0 rfl⟩

/-- FENCE goes in-band towards the die. -/
def State.fenceSent (s : State) (x : Subj) : State :=
  (match s.portOf x.pdi.toNat with
    | some l => s.sendActive .ux l (.fence x)
    | none => s).toTwin (.fence x)

/-- The die is FENCED, and logged so. -/
def State.fenced (s : State) (x : Subj) : State := ((s.fenceSent x).leaves x 5).log .ux 0x42 0x6031 (subjObj x) 0

/-- A decision follows the fencing. -/
def State.fenceDecided (s : State) (x : Subj) : State :=
  let i := (s.fenced x).deadInfo x.pdi.toNat
  i.2.settle x i.1.1

theorem hcFence_eq (w : Word) : exec (.hcFence w) s = .next (s.hcCmd w s.fenceDecided) := rfl

theorem fencePort_told : Told s (match s.portOf x.pdi.toNat with | some l => s.sendActive .ux l (.fence x) | none => s) := by
  split
  · exact .ite ((Told.refl s).send ..) (.refl s)
  · exact .refl s

theorem keeps_fenceSent : Keeps s (s.fenceSent x) := by
  unfold State.fenceSent
  refine keeps_toTwin ?_
  split
  · exact keeps_sendActive (keeps_refl s)
  · exact keeps_refl s

theorem fenced_undecided : Undecided s (s.fenced x) :=
  (Undecided.refl s).regs (keeps_log (keeps_leaves (keeps_fenceSent s x))) ((reg_of_core (core_log ..) .ux _).trans ((reg_leaves _ x 5 _ (by decide) (by decide)).trans (((fencePort_told s x).toTwin _).reg .ux _)))

theorem fenced_logs : ∃ pre, Logged .ux s (s.fenced x) (pre ++ [(0x42, 0x6031, subjObj x, 0)]) := by
  obtain ⟨pre, hp⟩ := exists_logged_of_keeps .ux (keeps_leaves (x := x) (code := 5) (keeps_fenceSent s x))
  exact ⟨pre, hp.trans (logged_log 0x42 0x6031 _ 0 rfl)⟩

theorem fenceDecided_leaves : Decides s.nextEpoch x s (s.fenceDecided x) ∧ ∃ pre post, Logged .ux s (s.fenceDecided x) (pre ++ (0x42, 0x6031, subjObj x, 0) :: post) := by
  obtain ⟨pre, hp⟩ := fenced_logs s x
  obtain ⟨post, hq⟩ := exists_logged_of_keeps .ux (keeps_settle (x := x) (dom := ((s.fenced x).deadInfo x.pdi.toNat).1.1) (keeps_deadInfo (pdi := x.pdi.toNat) (keeps_refl (s.fenced x))))
  refine ⟨settle_decides x _ ((fenced_undecided s x).deadInfo _), pre, post, ?_⟩
  have := hp.trans hq
  rwa [List.append_assoc, List.singleton_append] at this
end

/-! ### Fencing, probation and the decay of scores (R362 to R365) -/

section
variable (s : State)

/-- The steps of probation. -/
theorem probAct_leaves (n : Nat) : (s.probAct n).ux = s.ux ∧ (s.probAct n).el.probK = s.el.probK ∧ (s.probAct n).get .el Reg.HC_STAT_PROBATION = s.get .el Reg.HC_STAT_PROBATION
    ∧ (s.probAct n).get .el Reg.HC_STAT_VSTEPS = (if n = 1 then min 2 (s.get .el Reg.HC_STAT_VSTEPS + 1) else s.get .el Reg.HC_STAT_VSTEPS)
    ∧ (s.probAct n).get .el Reg.HC_STAT_FSTEPS = (if n = 2 then min 2 (s.get .el Reg.HC_STAT_FSTEPS + 1) else s.get .el Reg.HC_STAT_FSTEPS) := by
  have hmin : ∀ k, min 2 (k + 1) % 2 ^ (1 + 1 - 0) = min 2 (k + 1) := fun k => Nat.mod_eq_of_lt (Nat.lt_of_le_of_lt (Nat.min_le_left ..) (by decide))
  unfold State.probAct
  split
  · next h =>
    subst h
    exact ⟨rfl, rfl, get_put_other s .el _ _ _ (by decide) (by decide) (by decide) (by decide), (get_put_same s .el Reg.HC_STAT_VSTEPS _ (by decide) (by decide)).trans (hmin _),
      get_put_other s .el _ _ _ (by decide) (by decide) (by decide) (by decide)⟩
  · split
    · next h1 h2 =>
      subst h2
      let a := s.put .el Reg.HC_STAT_FSTEPS (min 2 (s.get .el Reg.HC_STAT_FSTEPS + 1))
      obtain ⟨hr, hk, hu⟩ := mulFollowed_fmulFollow a
      have hg : ∀ f : Fld, f.off = 0x3040 → a.fmulFollow.get .el f = a.get .el f := fun f hf => get_of_reg (hr _ (by rw [hf]; decide))
      exact ⟨hu, hk, (hg _ rfl).trans (get_put_other s .el _ _ _ (by decide) (by decide) (by decide) (by decide)), (hg _ rfl).trans (get_put_other s .el _ _ _ (by decide) (by decide) (by decide) (by decide)),
        (hg _ rfl).trans ((get_put_same s .el Reg.HC_STAT_FSTEPS _ (by decide) (by decide)).trans (hmin _))⟩
    · next h1 h2 => exact ⟨rfl, rfl, rfl, rfl, rfl⟩

/-- The score of a member die on a lane falls. -/
def State.decayed (t : State) (x : Nat) : State :=
  if t.tier == 0 && inMembers (t.member (t.pdiOf x)) then t.put .ux (Reg.UX_LANE_HC_HEALTH x) (t.get .ux (Reg.UX_LANE_HC_HEALTH x) - 1) else t

/-- A lane's die is a member here. -/
def State.laneMember (t : State) (x : Nat) : Bool := t.tier == 0 && inMembers (t.member (t.pdiOf x))

theorem laneMember_congr {s t : State} (h : HcSame s t) (hm : t.ux.members = s.ux.members) (x : Nat) : t.laneMember x = s.laneMember x := by
  unfold State.laneMember State.member
  rw [h.tier, hm, h.pdiOf]

/-- Scores of the lanes in `l` have fallen. -/
structure Decayed (l : List Nat) (s t : State) : Prop where
  same    : HcSame s t
  members : t.ux.members = s.ux.members
  el      : t.el = s.el
  health  : ∀ y, t.get .ux (Reg.UX_LANE_HC_HEALTH y) = if y ∈ l ∧ s.laneMember y = true then s.get .ux (Reg.UX_LANE_HC_HEALTH y) - 1 else s.get .ux (Reg.UX_LANE_HC_HEALTH y)

theorem decayed_one (x : Nat) : Decayed [x] s (s.decayed x) := by
  by_cases hm : s.laneMember x = true
  · have he : s.decayed x = s.put .ux (Reg.UX_LANE_HC_HEALTH x) (s.get .ux (Reg.UX_LANE_HC_HEALTH x) - 1) := if_pos hm
    rw [he]
    refine ⟨(HcSame.refl s).put _ _ (by simp only [Reg.UX_LANE_HC_HEALTH]; omega), rfl, rfl, fun y => ?_⟩
    by_cases hy : y = x
    · subst hy
      rw [if_pos ⟨List.mem_singleton_self y, hm⟩]
      refine (get_put_same s .ux (Reg.UX_LANE_HC_HEALTH y) _ (show 63 < 64 by decide) (show 56 ≤ 63 by decide)).trans (Nat.mod_eq_of_lt ?_)
      exact Nat.lt_of_le_of_lt (Nat.sub_le ..) (fget_lt _ 63 56)
    · rw [if_neg (fun h => hy (List.mem_singleton.mp h.1))]
      exact get_put_other s .ux (Reg.UX_LANE_HC_HEALTH x) (Reg.UX_LANE_HC_HEALTH y) _ (show 63 < 64 by decide) (show 56 ≤ 63 by decide) (show 63 < 64 by decide) (.inl (by simp only [Reg.UX_LANE_HC_HEALTH]; omega))
  · have he : s.decayed x = s := if_neg hm
    rw [he]
    refine ⟨.refl s, rfl, rfl, fun y => (if_neg ?_).symm⟩
    rintro ⟨hy, h⟩
    exact hm (List.mem_singleton.mp hy ▸ h)

theorem decayed_all (l : List Nat) (hn : l.Nodup) (s : State) : Decayed l s (l.foldl State.decayed s) := by
  induction l generalizing s with
  | nil => exact ⟨.refl s, rfl, rfl, fun y => (if_neg (fun h => absurd h.1 List.not_mem_nil)).symm⟩
  | cons x l ih =>
    obtain ⟨hx, hl⟩ := List.nodup_cons.mp hn
    have h1 := decayed_one s x
    have h2 := ih hl (s.decayed x)
    refine ⟨h1.same.trans h2.same, h2.members.trans h1.members, h2.el.trans h1.el, fun y => (h2.health y).trans ?_⟩
    rw [laneMember_congr h1.same h1.members, h1.health]
    by_cases hy : y = x
    · subst hy
      rw [if_neg (fun h => hx h.1)]
      simp
    · simp [hy]
end

/-! ### A decision at a die (R329, R346) -/

section
variable (s : State) (d : DecisionMsg)

/-- The die takes the decision that expels it. -/
def State.ownExpelled (s : State) (d : DecisionMsg) : State :=
  let s := s.put .el Reg.HC_STAT_EPOCH d.epoch.toNat
  (if s.get .el Reg.HC_STAT_STATE = 5 then s else s.put .el Reg.HC_STAT_STATE 6).probEnd.stepKill

theorem elDecision_expels (h : d.subj = dieSubj s.myPdi) (hk : d.kind = 1 ∨ d.kind = 2 ∨ d.kind = 3 ∨ d.kind = 7) : s.elDecision d = s.ownExpelled d :=
  if_pos ⟨h, by rcases hk with h | h | h | h <;> rw [h] <;> decide⟩

theorem ownExpelled_leaves : (s.ownExpelled d).get .el Reg.HC_STAT_EPOCH = d.epoch.toNat ∧ (s.ownExpelled d).get .el Reg.HC_STAT_STATE = (if s.get .el Reg.HC_STAT_STATE = 5 then 5 else 6)
    ∧ (s.ownExpelled d).el.base.qops = [] ∧ (s.seqState .el = 3 ∨ s.seqState .el = 4 → (s.ownExpelled d).seqState .el = 5) := by
  let a := s.put .el Reg.HC_STAT_EPOCH d.epoch.toNat
  let b := if a.get .el Reg.HC_STAT_STATE = 5 then a else a.put .el Reg.HC_STAT_STATE 6
  have hst : a.get .el Reg.HC_STAT_STATE = s.get .el Reg.HC_STAT_STATE := get_put_other s .el Reg.HC_STAT_EPOCH Reg.HC_STAT_STATE _ (by decide) (by decide) (by decide) (by decide)
  have hep : a.get .el Reg.HC_STAT_EPOCH = d.epoch.toNat := (get_put_same s .el Reg.HC_STAT_EPOCH _ (by decide) (by decide)).trans (Nat.mod_eq_of_lt d.epoch.isLt)
  have hb : b.get .el Reg.HC_STAT_EPOCH = d.epoch.toNat ∧ b.get .el Reg.HC_STAT_STATE = (if s.get .el Reg.HC_STAT_STATE = 5 then 5 else 6) ∧ b.seqState .el = s.seqState .el := by
    have ha : a.seqState .el = s.seqState .el := seqState_congr (reg_setReg_other s .el _ _ _ (by decide))
    by_cases h5 : s.get .el Reg.HC_STAT_STATE = 5
    · have he : b = a := if_pos (hst.trans h5)
      rw [he, if_pos h5]
      exact ⟨hep, hst.trans h5, ha⟩
    · have he : b = a.put .el Reg.HC_STAT_STATE 6 := if_neg (by rw [hst]; exact h5)
      rw [he, if_neg h5]
      exact ⟨(get_put_other a .el Reg.HC_STAT_STATE Reg.HC_STAT_EPOCH 6 (by decide) (by decide) (by decide) (by decide)).trans hep, get_put_same a .el Reg.HC_STAT_STATE 6 (by decide) (by decide),
        (seqState_congr (reg_setReg_other a .el _ _ _ (by decide))).trans ha⟩
  obtain ⟨-, -, h3, h4, h5, -⟩ := probEnd_leaves b
  have hu : s.ownExpelled d = b.probEnd.stepKill := rfl
  have hc : ∀ f : Fld, f.off = 0x3040 → b.probEnd.stepKill.get .el f = b.probEnd.get .el f := fun f hf => get_of_reg (by rw [hf]; exact hc_stepKill b.probEnd)
  rw [hu]
  exact ⟨(hc _ rfl).trans (h4.trans hb.1), (hc _ rfl).trans (h3.trans hb.2.1), qops_stepKill b.probEnd, fun h => seqState_stepKill b.probEnd (by rw [h5, hb.2.2]; exact h)⟩

theorem kind_toNat {k : Byte} {n : Nat} (hn : n < 256) : k.toNat = n ↔ k = BitVec.ofNat 8 n :=
  ⟨fun h => BitVec.eq_of_toNat_eq (by rw [h, BitVec.toNat_ofNat, Nat.mod_eq_of_lt hn]), fun h => by rw [h, BitVec.toNat_ofNat, Nat.mod_eq_of_lt hn]⟩

theorem elDecision_spare (h : d.subj ≠ dieSubj s.myPdi) (hk : d.kind = 1) (ha : d.arg0.toNat = s.myPdi) :
    s.elDecision d = (s.put .el Reg.HC_STAT_EPOCH d.epoch.toNat).modEl (fun e => { e with spareNamed := true }) :=
  (if_neg (fun hc => h hc.1)).trans (if_pos ⟨(kind_toNat (by decide)).mpr hk, ha⟩)

theorem elDecision_other (h : d.subj ≠ dieSubj s.myPdi) (h2 : d.kind ≠ 2) (h1 : d.kind ≠ 1 ∨ d.arg0.toNat ≠ s.myPdi) : s.elDecision d = s.put .el Reg.HC_STAT_EPOCH d.epoch.toNat := by
  refine (if_neg (fun hc => h hc.1)).trans ((if_neg (fun hc => ?_)).trans (if_neg (fun hc => h2 ((kind_toNat (by decide)).mp hc.1))))
  exact h1.elim (fun h => h ((kind_toNat (by decide)).mp hc.1)) (fun h => h hc.2)

theorem decision_ux_discarded (h : d.kind = 0 ∨ 7 < d.kind.toNat) : exec (.decision .ux d) s = .next (s.count .ux Reg.UX_HC_STAT_DISCARDS 1) :=
  if_pos (h.imp (fun h => (kind_toNat (by decide)).mpr h) id)

theorem decision_ux_rolls (h : d.kind = 4) : exec (.decision .ux d) s = .next ((s.decisionPassed d).dropProposals d.subj) := by
  have hk : d.kind.toNat = 4 := (kind_toNat (by decide)).mpr h
  rw [decision_ux_eq s d (by omega), hk]
  refine congrArg Host.Outcome.next ?_
  unfold State.decisionApply
  simp

theorem decision_ux_expels (hx : d.subj.tier = 0) (hk : d.kind = 1 ∨ d.kind = 3 ∨ d.kind = 7) : Ends (.decision .ux d) s (fun u => u.codeOf d.subj = if s.codeOf d.subj = 5 then 5 else 6) := by
  have hn : d.kind.toNat = 1 ∨ d.kind.toNat = 3 ∨ d.kind.toNat = 7 := hk.imp (kind_toNat (by decide)).mpr (Or.imp (kind_toNat (by decide)).mpr (kind_toNat (by decide)).mpr)
  have h := codeOf_decisionApply (s.decisionPassed d) d.subj d.arg0.toNat hx hn
  rw [codeOf_decisionPassed] at h
  exact ⟨_, decision_ux_eq s d (by omega), h⟩
end

/-! ### The obligation -/

section
variable (s : State) (m : ProposeMsg) (v : VoteMsg) (x : Subj)

/-- What a proposal says in the log. -/
def proposalSaid (m : ProposeMsg) : List Entry := [(0x42, 0x6003, subjObj m.subj, (if m.hard then 256 else 0) + m.kind.toNat)]

theorem propose_uncounted (h : m.kind.toNat ≤ 7) (hc : s.counts m.subj = false) : Goes (.propose m) s (s.balloted m (s.ballot m)) .ux (proposalSaid m) := by
  let t := s.proposeLogged m
  have ht : t.counts m.subj = false := ((sameVotes_of_core (core_proposeLogged s m)).counts _).trans hc
  have hp := passedOn_told t m
  refine ⟨t.passedOn m, (propose_eq s m h).trans (congrArg Host.Outcome.next (if_neg (by rw [ht]; decide))), hp.core.trans (core_balloted (core_proposeLogged s m) m), ?_⟩
  exact (logged_proposeLogged s m).trans ((logged_nil (events_balloted t m _)).trans (hp.logged .ux))

theorem propose_settled (h : m.kind.toNat ≤ 7) (hc : s.counts m.subj = true) (hd : s.codeOf m.subj = 5 ∨ s.decided m.subj m.epoch = true) : Goes (.propose m) s s .ux (proposalSaid m) := by
  have hk := sameVotes_of_core (core_proposeLogged s m)
  refine ⟨s.proposeLogged m, (propose_eq s m h).trans (congrArg Host.Outcome.next ?_), core_proposeLogged s m, logged_proposeLogged s m⟩
  exact (if_pos ((hk.counts _).trans hc)).trans (if_pos (by rw [hk.code, hk.held]; exact hd))

theorem propose_hard (h : m.kind.toNat ≤ 7) (hc : s.counts m.subj = true) (h5 : s.codeOf m.subj ≠ 5) (hd : s.decided m.subj m.epoch = false) (hh : m.hard = true) :
    exec (.propose m) s = .next ((s.proposeLogged m).addYes m.subj m.origin (some m)) := by
  have hk := sameVotes_of_core (core_proposeLogged s m)
  refine (propose_eq s m h).trans (congrArg Host.Outcome.next ((if_pos ((hk.counts _).trans hc)).trans ((if_neg ?_).trans (if_pos hh))))
  rw [hk.code, hk.held, hd]
  exact not_or.mpr ⟨h5, by decide⟩

theorem vote_counted (hc : s.counts v.subj = true) (hy : v.yes = true) (h5 : s.codeOf v.subj ≠ 5) (hd : s.decided v.subj v.epoch = false) : exec (.vote v) s = .next (s.addYes v.subj v.origin none) := by
  refine congrArg Host.Outcome.next ((if_pos hc).trans (if_pos ?_))
  rw [hy, hd]
  simpa using h5

theorem vote_void (hc : s.counts v.subj = true) (h : v.yes = false ∨ s.codeOf v.subj = 5 ∨ s.decided v.subj v.epoch = true) : exec (.vote v) s = .next s := by
  refine congrArg Host.Outcome.next ((if_pos hc).trans (if_neg ?_))
  rcases h with h | h | h <;> rw [h] <;> simp

/-- This chip's votes on a subject are sent again. -/
def State.votedAgain (s : State) (x : Subj) : State := (s.ux.votesOut.filter (fun v => v.subj == x)).foldl (fun t v => t.toAuthority (.vote v)) s

theorem votedAgain_told : Told s (s.votedAgain x) := (Told.refl s).foldl _ _ (fun _ _ hu => hu.toAuthority _)

theorem openProposal_votedAgain : (s.votedAgain x).openProposal x = s.openProposal x := (sameVotes_of_core (votedAgain_told s x).core).opens x

theorem proposeResend_none (h : s.openProposal x = none) : exec (.proposeResend x) s = .next (s.votedAgain x) := by
  refine congrArg Host.Outcome.next ?_
  have ho := (openProposal_votedAgain s x).trans h
  unfold State.votedAgain at ho
  rw [ho]
  rfl

theorem proposeResend_some {p : Proposal} (h : s.openProposal x = some p) (hm : p.msg = some m) :
    exec (.proposeResend x) s = .next (if m.origin = s.chipSubj then (s.votedAgain x).toAuthority (.propose m) else s.votedAgain x) := by
  have hc : (s.votedAgain x).chipSubj = s.chipSubj := (congrArg (fun v : State => v.chipSubj) (votedAgain_told s x).core :)
  have ho := (openProposal_votedAgain s x).trans h
  rw [← hc]
  refine congrArg Host.Outcome.next ?_
  unfold State.votedAgain at ho ⊢
  rw [ho]
  dsimp only
  rw [hm]

theorem selfVote_none (h : s.openProposal x = none) : exec (.authoritySelfVote x) s = .next s := by
  refine congrArg Host.Outcome.next ?_
  rw [h, ite_self]

theorem selfVote_some {p : Proposal} (h : s.openProposal x = some p) (hm : p.msg = some m) : exec (.authoritySelfVote x) s =
    .next (if s.counts x = true ∧ (m.hard = true ∨ (30000 ≤ m.ageP.toNat ∧ 30000 ≤ m.ageT.toNat)) then s.settle x m.domain.toNat else s) := by
  refine congrArg Host.Outcome.next ?_
  rw [h]
  by_cases hc : s.counts x = true
  · rw [if_pos hc]
    dsimp only
    rw [hm]
    exact ite_congr (by simp [hc]) (fun _ => rfl) (fun _ => rfl)
  · rw [if_neg hc, if_neg (fun h => hc h.1)]
end

/-- Settles O51: proposals and votes by what the chip that counts holds of them; a decision by its event among the log; the commands at the authority. -/
theorem decisions : Obligations.Decisions := by
  unfold Obligations.Decisions
  intro m v d x p w action kk s e decides ballot voted again mine said takesYes expels own st y c cmds member
  have hy : y.pdi.toNat = fget w 19 0 := pdi_command w
  refine ⟨fun h => if_pos h, fun h hc => propose_uncounted s m h hc, fun h hc hd => propose_settled s m h hc hd, fun h hc h5 hd hh => ⟨fun ho => ?_, fun ho hy hn => ?_⟩, fun h => congrArg Host.Outcome.next (if_neg (by rw [h]; decide)),
    fun hc h => vote_void s v hc h, fun hc hy h5 hd => ⟨fun ho => ?_, fun ho hm hn hv => ?_⟩, fun h => ⟨proposeResend_none s x h, selfVote_none s x h⟩, fun h hm => ⟨proposeResend_some s m x h hm, fun hn => ?_, fun hc hv => ?_⟩,
    fun h hk => ⟨_, congrArg Host.Outcome.next (elDecision_expels s d h hk), ownExpelled_leaves s d⟩, fun h hk ha => congrArg Host.Outcome.next (elDecision_spare s d h hk ha), fun h h2 h1 => congrArg Host.Outcome.next (elDecision_other s d h h2 h1),
    decision_ux_discarded s d, decision_ux_rolls s d, decision_ux_expels s d, fun h i hi => ?_, fun h hr i hi => ?_, fun h hr => ⟨fun hc hn => ?_, fun hm hn => ?_, fun h5 h6 hm => ?_, fun hc => ?_, fun h0 hc => ?_, ?_⟩, fun h => ?_,
    fun h => congrArg Host.Outcome.next (if_neg h), ?_, ?_, ?_⟩
  · obtain ⟨h1, h2⟩ := addYes_first (s.proposeLogged m) m.subj m.origin (some m) (((sameVotes_of_core (core_proposeLogged s m)).opens _).trans ho)
    exact ⟨_, propose_hard s m h hc h5 hd hh, ⟨_, h1, by simp⟩, (logged_proposeLogged s m).trans h2⟩
  · exact ⟨_, propose_hard s m h hc h5 hd hh,
      (addYes_second (s.proposeLogged m) m.subj m.origin (some m) (((sameVotes_of_core (core_proposeLogged s m)).opens _).trans ho) (by cases p.msg <;> rfl) hy hn (undecided_proposeLogged s m)).spelled⟩
  · obtain ⟨h1, h2⟩ := addYes_first s v.subj v.origin none ho
    exact ⟨_, vote_counted s v hc hy h5 hd, ⟨_, h1, by simp⟩, h2⟩
  · exact ⟨_, vote_counted s v hc hy h5 hd, (addYes_second s v.subj v.origin none ho (by rw [Option.or_none]; exact hm) hn hv (.refl s)).spelled⟩
  · refine (selfVote_some s m x h hm).trans (congrArg Host.Outcome.next (if_neg ?_))
    rintro ⟨h1, h2⟩
    rcases hn with hn | ⟨hn, hn'⟩
    · exact absurd (hn.symm.trans h1) (by decide)
    · rcases h2 with h2 | h2
      · exact absurd (hn.symm.trans h2) (by decide)
      · omega
  · exact ⟨_, (selfVote_some s m x h hm).trans (congrArg Host.Outcome.next (if_pos ⟨hc, hv⟩)), (settle_decides x _ (.refl s)).spelled⟩
  · simp only [cmds, List.mem_cons, List.not_mem_nil, or_false] at hi
    rcases hi with rfl | rfl | rfl
    · exact congrArg Host.Outcome.next (hcCmd_idle s w _ h)
    · exact congrArg Host.Outcome.next (hcCmd_idle s w _ h)
    · exact congrArg Host.Outcome.next (hcCmd_idle s w _ h)
  · have hg : ∀ act, (s.hcCmd w act).core = s.core ∧ Logged .ux s (s.hcCmd w act) [(0x42, 0x6032, fget w 19 0, w.toNat)] := fun act => by
      rw [hcCmd_refused s w act h hr]
      exact ⟨core_log .., logged_log 0x42 0x6032 _ _ rfl⟩
    simp only [cmds, List.mem_cons, List.not_mem_nil, or_false] at hi
    rcases hi with rfl | rfl | rfl
    · exact ⟨_, hcReadmit_eq s w, hg _⟩
    · exact ⟨_, hcAdviseFailed_eq s w, hg _⟩
    · exact ⟨_, hcFence_eq s w, hg _⟩
  · obtain ⟨h1, h2⟩ := readmit_leaves s y (authority_tier s h) rfl hn
    exact ⟨_, (hcReadmit_eq s w).trans (congrArg Host.Outcome.next (hcCmd_acts s w _ h hr)), h1 hc, fun hm => (get_of_reg (h2 _)).trans (readmitDie_named s y (by rw [hy]; exact hm)).1⟩
  · obtain ⟨-, h2⟩ := readmit_leaves s y (authority_tier s h) rfl hn
    obtain ⟨k1, k2, k3⟩ := readmitDie_named s y (by rw [hy]; exact hm)
    exact ⟨_, (hcReadmit_eq s w).trans (congrArg Host.Outcome.next (hcCmd_acts s w _ h hr)), (get_of_reg (h2 _)).trans k1, (get_of_reg (h2 _)).trans k2, (get_of_reg (h2 _)).trans k3⟩
  · refine (hcReadmit_eq s w).trans (congrArg Host.Outcome.next ((hcCmd_acts s w _ h hr).trans ((if_neg (not_or.mpr ⟨h5, h6⟩)).trans (if_neg ?_))))
    rw [hy]
    exact hm
  · obtain ⟨k1, k2, k3⟩ := adviseFailed_leaves s y (authority_tier s h) hc
    exact ⟨_, (hcAdviseFailed_eq s w).trans (congrArg Host.Outcome.next (hcCmd_acts s w _ h hr)), k1, fun hm => k2 (by rw [hy]; exact hm), k3⟩
  · refine (hcAdviseFailed_eq s w).trans (congrArg Host.Outcome.next ((hcCmd_acts s w _ h hr).trans (if_neg (not_or.mpr ⟨h0, ?_⟩))))
    rw [hc]
    decide
  · obtain ⟨k1, k2⟩ := fenceDecided_leaves s y
    exact ⟨_, (hcFence_eq s w).trans (congrArg Host.Outcome.next (hcCmd_acts s w _ h hr)), k1.spelled, k2⟩
  · obtain ⟨h1, h2, h3, -, -, h6⟩ := probEnd_leaves (s.put .el Reg.HC_STAT_STATE 5)
    exact ⟨_, congrArg Host.Outcome.next (if_pos h), h3.trans (get_put_same s .el Reg.HC_STAT_STATE 5 (by decide) (by decide)), h1, h2, h6⟩
  · exact ⟨_, rfl, codeOf_leaves _ x 5⟩
  · let a := (s.put .el Reg.HC_STAT_PROBATION 1).modEl (fun e => { e with probK := some kk.toNat })
    obtain ⟨h1, h2, h3, h4, h5⟩ := probAct_leaves a action.toNat
    have hg : ∀ f : Fld, a.get .el f = (s.put .el Reg.HC_STAT_PROBATION 1).get .el f := fun f => get_of_reg (reg_modEl _ _ .el _ rfl)
    have hv : a.get .el Reg.HC_STAT_VSTEPS = s.get .el Reg.HC_STAT_VSTEPS := (hg _).trans (get_put_other s .el _ _ _ (by decide) (by decide) (by decide) (by decide))
    have hf : a.get .el Reg.HC_STAT_FSTEPS = s.get .el Reg.HC_STAT_FSTEPS := (hg _).trans (get_put_other s .el _ _ _ (by decide) (by decide) (by decide) (by decide))
    have ha : ∀ n, n < 2 ^ 32 → (action.toNat = n ↔ action = BitVec.ofNat 32 n) := fun n hn =>
      ⟨fun h => BitVec.eq_of_toNat_eq (by rw [h, BitVec.toNat_ofNat, Nat.mod_eq_of_lt hn]), fun h => by rw [h, BitVec.toNat_ofNat, Nat.mod_eq_of_lt hn]⟩
    rw [hv] at h4
    rw [hf] at h5
    refine ⟨_, rfl, bit_of_get (h3.trans ((hg _).trans (get_put_same s .el Reg.HC_STAT_PROBATION 1 (by decide) (by decide)))), h2, h1, h4.trans ?_, h5.trans ?_⟩
    · exact ite_congr (propext (ha 1 (by decide))) (fun _ => rfl) (fun _ => rfl)
    · exact ite_congr (propext (ha 2 (by decide))) (fun _ => rfl) (fun _ => rfl)
  · have hd := decayed_all downLanes List.nodup_range s
    refine ⟨_, rfl, hd.el, fun l hl => (hd.health l).trans ?_⟩
    exact ite_congr (by simp [show l ∈ downLanes from List.mem_range.mpr hl, member, State.laneMember]) (fun _ => rfl) (fun _ => rfl)

end Sys2Proof.Machine

/-! SUPPORT. Rollback, its commit, path commands and the vault (R341, R345 to R347, R351 to R353, R428, R429, R449, R461, R462). -/

namespace Sys2Proof.Machine

set_option Elab.async false

/-! ### ROLLBACK at a die (R345) -/

section
variable (s : State) (step : Word)

/-- The seal that a rollback brings. -/
def State.rollbackSealed (s : State) (step : Word) : State :=
  let last := s.reg .el Reg.CHK_SEAL_LAST.off
  if step ≠ noStep ∧ (last = noStep ∨ last.toNat < step.toNat) then s.elSeal step else s

/-- The step is killed, the manifest disarmed, and the rollback shows. -/
def State.rollbackKilled (s : State) : State := (s.stepKill.manDisarm .el).put .el Reg.HC_STAT_ROLLBACK 1

/-- The request to the surroundings is prepared. -/
def State.rollbackNamed (s : State) (step : Word) : State := s.modEl (fun e => { e with restored := false, readySent := false, ports := { e.ports with rbStep := step } })

/-- The request goes out, unless a guard action holds it back. -/
def State.rollbackAsked (s : State) : State :=
  if s.guardActive .el then s.modGuard .el (fun g => { g with rbHeld := true }) else s.modEl (fun e => { e with ports := { e.ports with rollbackReq := true } })

theorem elRollback_eq : s.elRollback step = ((s.rollbackSealed step).rollbackKilled.rollbackNamed step).rollbackAsked := rfl

theorem rollbackSealed_idle (h : step = noStep ∨ isSealedBy (s.reg .el Reg.CHK_SEAL_LAST.off) step = true) : s.rollbackSealed step = s := by
  refine if_neg ?_
  rintro ⟨h1, h2⟩
  rcases h with h | h
  · exact h1 h
  · unfold isSealedBy at h
    rw [Bool.and_eq_true, bne_iff_ne, decide_eq_true_eq] at h
    rcases h2 with h2 | h2
    · exact h.1 h2
    · omega

/-- The rollback shows, and beside MAN_STAT and HC_STAT nothing has changed. -/
structure RbShown (s t : State) : Prop where
  shown : t.bit .el Reg.HC_STAT_ROLLBACK = true
  qops  : t.el.base.qops = s.el.base.qops
  ux    : t.ux = s.ux
  guard : t.guardActive .el = s.guardActive .el
  seq   : t.seqState .el = s.seqState .el

/-- Of the die at most MAN_STAT and the instant of a commit have changed. -/
structure Disarmed (s t : State) : Prop where
  qops : t.el.base.qops = s.el.base.qops
  ux   : t.ux = s.ux
  regs : ∀ o, o ≠ Reg.MAN_STAT_STATE.off → t.reg .el o = s.reg .el o

theorem disarmed_manDisarm : Disarmed s (s.manDisarm .el) := by
  unfold State.manDisarm
  split
  · exact ⟨rfl, rfl, fun o ho => (reg_mod _ .el .el _ _ rfl).trans (reg_setReg_other s .el _ o _ ho)⟩
  · exact ⟨rfl, rfl, fun _ _ => rfl⟩

theorem Disarmed.shows {s t : State} (h : Disarmed s t) : RbShown s (t.put .el Reg.HC_STAT_ROLLBACK 1) :=
  ⟨bit_of_get (get_put_same t .el Reg.HC_STAT_ROLLBACK 1 (by decide) (by decide)), h.qops, h.ux, bit_of_reg ((reg_setReg_other t .el _ _ _ (by decide)).trans (h.regs _ (by decide))),
    seqState_congr ((reg_setReg_other t .el _ _ _ (by decide)).trans (h.regs _ (by decide)))⟩

theorem rbShown_rollbackKilled : RbShown s.stepKill s.rollbackKilled := (disarmed_manDisarm s.stepKill).shows

theorem rollbackAsked_leaves : let u := s.rollbackAsked
    u.el.restored = s.el.restored ∧ u.el.ports.rbStep = s.el.ports.rbStep ∧ u.el.base.qops = s.el.base.qops ∧ u.ux = s.ux ∧ (∀ o, u.reg .el o = s.reg .el o)
      ∧ (s.guardActive .el = true → (u.guard .el).rbHeld = true) ∧ (s.guardActive .el = false → u.el.ports.rollbackReq = true) := by
  show s.rollbackAsked.el.restored = _ ∧ s.rollbackAsked.el.ports.rbStep = _ ∧ s.rollbackAsked.el.base.qops = _ ∧ s.rollbackAsked.ux = _ ∧ (∀ o, s.rollbackAsked.reg .el o = _) ∧ (_ → (s.rollbackAsked.guard .el).rbHeld = true) ∧ (_ → s.rollbackAsked.el.ports.rollbackReq = true)
  unfold State.rollbackAsked
  split
  · next h => exact ⟨rfl, rfl, rfl, rfl, fun _ => rfl, fun _ => rfl, fun hc => absurd (hc.symm.trans h) (by decide)⟩
  · next h => exact ⟨rfl, rfl, rfl, rfl, fun _ => rfl, fun hc => absurd hc h, fun _ => rfl⟩

theorem elRollback_leaves (u : State) (hu : s.elRollback step = u) : u.bit .el Reg.HC_STAT_ROLLBACK = true ∧ u.el.restored = false ∧ u.el.ports.rbStep = step ∧ u.el.base.qops = []
    ∧ (step = noStep ∨ isSealedBy (s.reg .el Reg.CHK_SEAL_LAST.off) step = true → u.ux = s.ux ∧ (s.guardActive .el = true → (u.guard .el).rbHeld = true)
      ∧ (s.guardActive .el = false → u.el.ports.rollbackReq = true) ∧ (s.seqState .el = 3 ∨ s.seqState .el = 4 → u.seqState .el = 5)) := by
  obtain ⟨a, ha⟩ : ∃ a, s.rollbackSealed step = a := ⟨_, rfl⟩
  obtain ⟨b, hb⟩ : ∃ b, a.rollbackKilled = b := ⟨_, rfl⟩
  have hk : RbShown a.stepKill b := hb ▸ rbShown_rollbackKilled a
  obtain ⟨k1, k2, k3, k4, k5, k6, k7⟩ := rollbackAsked_leaves (b.rollbackNamed step)
  rw [elRollback_eq, ha, hb] at hu
  rw [hu] at k1 k2 k3 k4 k5 k6 k7
  have hg : (b.rollbackNamed step).guardActive .el = a.guardActive .el := hk.guard.trans (guardActive_stepKill a)
  refine ⟨(bit_of_reg (k5 _)).trans hk.shown, k1, k2, k3.trans (hk.qops.trans (qops_stepKill a)), fun h => ?_⟩
  have hs : a = s := ha.symm.trans (rollbackSealed_idle s step h)
  subst hs
  exact ⟨k4.trans (hk.ux.trans (OnDie.refl _).stepKill.ux), fun h => k6 (hg.trans h), fun h => k7 (hg.trans h), fun h => (seqState_congr (k5 _)).trans (hk.seq.trans (seqState_stepKill _ h))⟩
end

/-! ### ROLLBACK at a chip (R345) -/

/-- What a rollback empties of a chip. -/
structure Emptied (u : State) : Prop where
  slots  : u.ux.slots = []
  groups : u.ux.groups = []
  held   : u.ux.held = []
  nodes  : ∀ b, (u.node b).isOpen = false

section
variable (s : State)

theorem nodes_discarded (l : Tbl BarNode) (s : State) (b : Nat) (h : b ∈ l.map Prod.fst ∨ (s.node b).isOpen = false) :
    ((l.foldl (fun t e => t.setNode e.1 { BarNode.zero with gen := if e.2.isOpen then e.2.gen + 1 else e.2.gen, armed := e.2.armed, qid := e.2.qid }) s).node b).isOpen = false := by
  induction l generalizing s with
  | nil => exact h.resolve_left List.not_mem_nil
  | cons e l ih =>
    refine ih _ ?_
    let n : BarNode := { BarNode.zero with gen := if e.2.isOpen then e.2.gen + 1 else e.2.gen, armed := e.2.armed, qid := e.2.qid }
    have hn : (s.setNode e.1 n).node b = if b = e.1 then n else s.node b := tget_tput BarNode.zero s.ux.bars e.1 b n
    rcases h with h | h
    · rcases List.mem_cons.mp h with h | h
      · exact .inr (by rw [hn, if_pos h]; rfl)
      · exact .inl h
    · refine .inr ?_
      rw [hn]
      split
      · rfl
      · exact h

theorem tget_absent {α : Type} (d : α) (l : Tbl α) (k : Nat) (h : k ∉ l.map Prod.fst) : tget d l k = d := by
  induction l with
  | nil => rfl
  | cons e l ih =>
    obtain ⟨i, v⟩ := e
    have hi : i ≠ k := fun hc => h (by simp [hc])
    have := ih (fun hc => h (by simp [hc]))
    simpa [tget, hi] using this

theorem isOpen_nodesDiscard (b : Nat) : (s.nodesDiscard.node b).isOpen = false := by
  refine nodes_discarded s.ux.bars s b ?_
  by_cases h : b ∈ s.ux.bars.map Prod.fst
  · exact .inl h
  · refine .inr ?_
    unfold State.node
    rw [tget_absent _ _ _ h]
    rfl

theorem Emptied.ended {s t : State} (h : Emptied s) (k : Ended s t) : Emptied t :=
  ⟨(k.proj (·.slots)).trans h.slots, (k.proj (·.groups)).trans h.groups, (k.proj (·.held)).trans h.held, fun b => (congrArg BarNode.isOpen (k.proj (fun u => tget BarNode.zero u.bars b))).trans (h.nodes b)⟩

theorem Emptied.foldl {α : Type} {s : State} (h : Emptied s) (l : List α) (f : State → α → State) (hf : ∀ u x, Emptied u → Emptied (f u x)) : Emptied (l.foldl f s) :=
  List.foldlRecOn (motive := Emptied) _ _ h (fun u hu x _ => hf u x hu)

/-- The slots, groups and held messages of a chip go. -/
def State.slotsCleared (s : State) : State := ((s.setSlots []).setGroups []).modUx (fun u => { u with held := [] })

theorem emptied_slotsCleared (h : ∀ b, (s.node b).isOpen = false) : Emptied s.slotsCleared := ⟨rfl, rfl, rfl, h⟩

theorem slotsDiscard_eq : s.slotsDiscard = (s.ux.slots.map (fun e => e.2.qid) ++ s.ux.groups.map (fun e => e.2.qid)).foldl (fun t q => t.endQid q stAborted) s.slotsCleared := rfl

theorem emptied_slotsDiscard (h : ∀ b, (s.node b).isOpen = false) : Emptied s.slotsDiscard := by
  rw [slotsDiscard_eq]
  exact (emptied_slotsCleared s h).foldl _ _ (fun _ _ hu => hu.ended ((Ended.refl _).endQid ..))

theorem Emptied.memWrite {t : State} (h : Emptied t) (a : Nat) (bs : List Byte) : Emptied (t.memWrite .ux a bs) := ⟨h.slots, h.groups, h.held, h.nodes⟩

theorem emptied_ledgRollback {t : State} (h : Emptied t) (target : Word) : Emptied (t.ledgRollback target) := by
  refine h.foldl _ _ (fun u x hu => ?_)
  dsimp only
  split
  · exact hu.memWrite ..
  · exact hu

theorem manState_manDisarm : (s.manDisarm .ux).manState .ux ≠ 2 := by
  unfold State.manDisarm
  split
  · have hg : ∀ v f, (((s.put .ux Reg.MAN_STAT_STATE v).mod .ux f).manState .ux = v % 2 ^ (Reg.MAN_STAT_STATE.hi + 1 - Reg.MAN_STAT_STATE.lo)) ∨ (f (s.put .ux Reg.MAN_STAT_STATE v).ux.base).regs ≠ (s.put .ux Reg.MAN_STAT_STATE v).ux.base.regs := fun v f => by
      by_cases hr : (f (s.put .ux Reg.MAN_STAT_STATE v).ux.base).regs = (s.put .ux Reg.MAN_STAT_STATE v).ux.base.regs
      · exact .inl ((get_of_reg (reg_mod _ .ux .ux f _ hr)).trans (get_put_same s .ux Reg.MAN_STAT_STATE v (by decide) (by decide)))
      · exact .inr hr
    rw [(hg _ _).resolve_right (fun h => h rfl)]
    split <;> decide
  · assumption

theorem reg_ledgRollback (target : Word) (o : Nat) : (s.ledgRollback target).reg .ux o = s.reg .ux o := by
  refine List.foldlRecOn (motive := fun t : State => t.reg .ux o = s.reg .ux o) _ _ rfl (fun u hu x _ => ?_)
  dsimp only
  split
  · exact (reg_mod u .ux .ux _ _ rfl).trans hu
  · exact hu

/-- The chip after a rollback, but for its votes and vault. -/
structure RolledBack (u : State) : Prop where
  emptied : Emptied u
  man     : u.manState .ux ≠ 2

theorem RolledBack.ledger {s : State} (h : RolledBack s) (target : Word) : RolledBack (s.ledgRollback target).lockClear := by
  have he := emptied_ledgRollback h.emptied target
  have hm : (s.ledgRollback target).lockClear.manState .ux = s.manState .ux := get_of_reg ((reg_modUx _ _ .ux _ rfl).trans (reg_ledgRollback ..))
  exact ⟨⟨he.slots, he.groups, he.held, he.nodes⟩, by rw [hm]; exact h.man⟩

theorem rolledBack_manDisarm (h : Emptied s) : RolledBack (s.manDisarm .ux) := ⟨h.ended (Ended.refl _).manDisarm, manState_manDisarm s⟩

/-- The votes go, and the vault's current generations. -/
def State.votesEmptied (s : State) (target : Word) : State :=
  s.modUx (fun u => { u with
    accepted := u.accepted.filter (fun a => !aboveTarget target a.2.1)
    passVotes := []
    vaults := u.vaults.map (fun v => (v.1, { v.2 with log := [], ended := [] })) })

theorem RolledBack.votes {s : State} (h : RolledBack s) (target : Word) : RolledBack (s.votesEmptied target) :=
  ⟨⟨h.emptied.slots, h.emptied.groups, h.emptied.held, h.emptied.nodes⟩, by rw [show (s.votesEmptied target).manState .ux = s.manState .ux from get_of_reg (reg_modUx _ _ .ux _ rfl)]; exact h.man⟩

theorem RolledBack.ite {a b : State} {c : Prop} [Decidable c] (ha : RolledBack a) (hb : RolledBack b) : RolledBack (if c then a else b) := by
  split
  · exact ha
  · exact hb

theorem rolledBack_uxRollback (target : Word) : RolledBack (s.uxRollback target) := by
  have ha := rolledBack_manDisarm _ (emptied_slotsDiscard _ (isOpen_nodesDiscard s))
  exact RolledBack.votes (.ite (ha.ledger target) ha) target

theorem passVotes_votesEmptied (target : Word) : (s.votesEmptied target).ux.passVotes = [] := rfl

theorem passVotes_uxRollback (target : Word) : (s.uxRollback target).ux.passVotes = [] := passVotes_votesEmptied _ target
end

/-! ### The commit of a rollback (R347, R428) -/

section
variable (s : State)

/-- Registers, events and path commands stand, and of the rollback what is ready and the target. -/
structure Tried (s t : State) : Prop where
  regs     : ∀ q o, t.reg q o = s.reg q o
  events   : ∀ q, (t.base q).events = (s.base q).events
  paths    : t.ux.paths = s.ux.paths
  rollback : ∀ r, s.ux.rollback = some r → ∃ r', t.ux.rollback = some r' ∧ r'.ready = r.ready ∧ r'.target = r.target

theorem Tried.told {s t u : State} (h : Tried s t) (k : Told t u) : Tried s u :=
  ⟨fun q o => (k.reg q o).trans (h.regs q o), fun q => (k.events q).trans (h.events q), (ux_of_core k.core Uhloux.paths).trans h.paths, fun r hr => by rw [ux_of_core k.core Uhloux.rollback]; exact h.rollback r hr⟩

/-- The instant of the commit is set. -/
def State.rbTimed (s : State) (t : Nat) : State := (s.modRb (fun r => { r with tc := some t })).mod .ux (fun b => { b with rbAt := some t })

theorem tried_rbTimed (t : Nat) : Tried s (s.rbTimed t) := by
  refine ⟨fun q o => by cases q <;> rfl, fun q => by cases q <;> rfl, rfl, fun r hr => ?_⟩
  have he : (s.rbTimed t).ux.rollback = s.ux.rollback.map (fun r => { r with tc := some t }) := rfl
  exact ⟨{ r with tc := some t }, by rw [he, hr]; rfl, rfl, rfl⟩

theorem tried_draw {s t : State} (h : Tried s.draw.2 t) : Tried s t := ⟨fun q o => (h.regs q o).trans (by cases q <;> rfl), fun q => (h.events q).trans (by cases q <;> rfl), h.paths, h.rollback⟩

theorem Tried.refl (s : State) : Tried s s := ⟨fun _ _ => rfl, fun _ => rfl, rfl, fun r hr => ⟨r, hr, rfl, rfl⟩⟩

theorem tried_rbTry : Tried s s.rbTry := by
  unfold State.rbTry
  split
  · exact .refl s
  · refine tried_draw ?_
    dsimp only
    split
    · exact ((tried_rbTimed s.draw.2 _).told ((Told.refl _).sendDown downLanes _)).told ((Told.refl _).toTwin _)
    · exact .refl _

/-- A die that is ready is counted. -/
def State.readyCounted (s : State) (pdi : Nat) : State := s.modRb (fun r => { r with ready := if r.ready.contains pdi then r.ready else r.ready ++ [pdi] })

theorem rbReadyTake_counts (pdi : Nat) (h5 : s.member pdi ≠ 5) (h6 : s.member pdi ≠ 6) : s.rbReadyTake pdi = (s.readyCounted pdi).rbTry := if_neg (not_or.mpr ⟨h5, h6⟩)

theorem readyCounted_leaves (pdi : Nat) {r : Rollback} (hr : s.ux.rollback = some r) : ∃ r', (s.readyCounted pdi).ux.rollback = some r' ∧ r'.ready.contains pdi = true ∧ r'.target = r.target := by
  have he : (s.readyCounted pdi).ux.rollback = s.ux.rollback.map (fun r => { r with ready := if r.ready.contains pdi then r.ready else r.ready ++ [pdi] }) := rfl
  refine ⟨{ r with ready := if r.ready.contains pdi then r.ready else r.ready ++ [pdi] }, by rw [he, hr]; rfl, ?_, rfl⟩
  dsimp only
  split
  · assumption
  · simp

theorem rbReadyTake_leaves (pdi : Nat) (h5 : s.member pdi ≠ 5) (h6 : s.member pdi ≠ 6) (u : State) (hu : s.rbReadyTake pdi = u) :
    (∀ r, s.ux.rollback = some r → ∃ r', u.ux.rollback = some r' ∧ r'.ready.contains pdi = true ∧ r'.target = r.target) ∧ RegsBut [] s u ∧ Logged .ux s u [] := by
  rw [rbReadyTake_counts s pdi h5 h6] at hu
  have ht := hu ▸ tried_rbTry (s.readyCounted pdi)
  refine ⟨fun r hr => ?_, fun q o _ => (ht.regs q o).trans (by cases q <;> rfl), logged_nil (ht.events .ux)⟩
  obtain ⟨r', h1, h2, h3⟩ := readyCounted_leaves s pdi hr
  obtain ⟨r2, k1, k2, k3⟩ := ht.rollback r' h1
  exact ⟨r2, k1, by rw [k2]; exact h2, k3.trans h3⟩

/-- RB_READY of a die, when it is due, changes nothing it shows. -/
theorem readyTry_leaves : s.readyTry.el.restored = s.el.restored ∧ s.readyTry.ux = s.ux ∧ RegsBut [] s s.readyTry ∧ Logged .el s s.readyTry [] := by
  have hd := (OnDie.refl s).readyTry.ux
  refine ⟨?_, hd, ?_⟩
  · unfold State.readyTry
    dsimp only
    split
    · exact (congrArg (fun v : State => v.el.restored) (core_sendUp _ .el _) :)
    · rfl
  · unfold State.readyTry
    dsimp only
    split
    · let a := s.modEl (fun e => { e with readySent := true })
      have hr : ∀ q o, a.reg q o = s.reg q o := fun q o => reg_modEl s _ q o rfl
      exact ⟨fun q o _ => (reg_of_core (core_sendUp a .el _) q o).trans (hr q o), logged_nil (events_sendUp a .el .el _)⟩
    · exact ⟨fun _ _ _ => rfl, logged_nil rfl⟩
end

/-! ### Path commands (R341, R461, R462) -/

section
variable (s : State) (seq : Nat) (cmd : PathCmd)

/-- The command a reply answers. -/
def State.pathFound (s : State) (seq : Nat) : Option PathCmd := s.ux.paths.find? (fun c => c.seq == seq && c.status.isNone)

/-- The commands after an OK. -/
def State.pathMarked (s : State) (seq : Nat) : List PathCmd := s.ux.paths.map (fun y => if y.seq == seq then { y with status := some 0 } else y)

/-- The status of a set shows, and the set is gone. -/
def State.pathEnded (s : State) (pathset status : Nat) : State := (s.pathShow pathset status).modUx (fun u => { u with paths := u.paths.filter (fun c => c.pathset != pathset) })

theorem pathEnded_leaves (pathset status : Nat) (h : status < 256) : (s.pathEnded pathset status).ux.paths = s.ux.paths.filter (fun c => c.pathset != pathset)
    ∧ (s.pathEnded pathset status).get .ux Reg.UX_OCS_STAT_STATUS = status ∧ (s.pathEnded pathset status).get .ux Reg.UX_OCS_STAT_PATHSET = pathset % 65536
    ∧ (s.pathEnded pathset status).ux.rollback = s.ux.rollback ∧ ((s.pathEnded pathset status).base .ux).events = (s.base .ux).events := by
  let a := s.put .ux Reg.UX_OCS_STAT_STATUS status
  have hg : ∀ f, (s.pathEnded pathset status).get .ux f = (a.put .ux Reg.UX_OCS_STAT_PATHSET pathset).get .ux f := fun f => get_of_reg (reg_modUx _ _ .ux _ rfl)
  refine ⟨rfl, ?_, ?_, rfl, rfl⟩
  · refine (hg _).trans ((get_put_other a .ux _ _ pathset (by decide) (by decide) (by decide) (by decide)).trans ?_)
    exact (get_put_same s .ux Reg.UX_OCS_STAT_STATUS status (by decide) (by decide)).trans (Nat.mod_eq_of_lt h)
  · exact (hg _).trans (get_put_same a .ux Reg.UX_OCS_STAT_PATHSET pathset (by decide) (by decide))

theorem pathFinal_none (status : Nat) (h : s.pathFound seq = none) : s.pathFinal seq status = s := by
  unfold State.pathFinal
  rw [show s.ux.paths.find? (fun c => c.seq == seq && c.status.isNone) = none from h]

theorem pathFinal_some (status : Nat) (h : s.pathFound seq = some cmd) : s.pathFinal seq status =
    if status ≠ 0 then s.pathFailed cmd.pathset status
    else
      let t := s.modUx (fun u => { u with paths := u.paths.map (fun y => if y.seq == seq then { y with status := some 0 } else y) })
      if t.ux.paths.all (fun y => y.pathset != cmd.pathset || y.status.isSome) then (t.pathEnded cmd.pathset 0).rbTry else t := by
  unfold State.pathFinal
  rw [show s.ux.paths.find? (fun c => c.seq == seq && c.status.isNone) = some cmd from h]
  rfl

theorem all_closed (l : List PathCmd) (n : Nat) : l.all (fun y => y.pathset != n || y.status.isSome) = !l.any (fun y => y.pathset == n && y.status.isNone) := by
  rw [List.not_any_eq_all_not]
  refine congrArg l.all (funext fun y => ?_)
  cases y.status <;> simp [bne]

theorem events_spareMark (i st : Nat) : ((s.spareMark i st).base .ux).events = (s.base .ux).events := events_hbmPut ..

/-- A path set that failed (R341): the spare it was for is UNAVAILABLE. -/
theorem pathFailed_free (pathset status : Nat) (h : s.ux.rollback = none) : s.pathFailed pathset status = s.pathEnded pathset status := by
  have he : (s.pathEnded pathset status).ux.rollback = none := h
  unfold State.pathFailed
  unfold State.pathEnded at he ⊢
  dsimp only
  rw [he]

theorem pathFailed_spare (pathset status : Nat) {r : Rollback} {dead spare z : Nat} (h : s.ux.rollback = some r) (hf : r.assigned.find? (fun a => a.2.2 == pathset) = some (dead, spare, z)) :
    ∃ es, Logged .ux s (s.pathFailed pathset status) ((0x42, 0x6011, subjObj (dieSubj spare), status) :: es) := by
  let a := s.pathEnded pathset status
  have ha : a.ux.rollback = some r := h
  let b := a.spareList.foldl (fun t i => if sparePdi (t.spareEntry i) = spare ∧ spareState (t.spareEntry i) = 1 then t.spareMark i 2 else t) a
  have hb : (b.base .ux).events = (s.base .ux).events :=
    List.foldlRecOn (motive := fun t : State => (t.base .ux).events = (s.base .ux).events) _ _ rfl (fun u hu i _ => by
      split
      · exact (events_spareMark ..).trans hu
      · exact hu)
  let c := b.log .ux 0x42 0x6011 (subjObj (dieSubj spare)) status
  let d := c.modRb (fun r => { r with assigned := r.assigned.filter (fun a => a.2.2 != pathset), waitFor := r.waitFor.filter (fun d => d != spare), ready := r.ready.filter (fun d => d != spare) })
  have he : s.pathFailed pathset status = (d.deadInfo dead).2.decideOn (dieSubj dead) (d.deadInfo dead).1.1 := by
    unfold State.pathFailed
    dsimp only
    rw [show ((s.pathShow pathset status).modUx (fun u => { u with paths := u.paths.filter (fun c => c.pathset != pathset) })).ux.rollback = some r from h]
    dsimp only
    rw [hf]
    rfl
  have hc : Logged .ux s c [(0x42, 0x6011, subjObj (dieSubj spare), status)] := logged_log 0x42 0x6011 _ _ hb
  obtain ⟨es, hs⟩ := exists_logged_of_keeps .ux (keeps_decideOn (x := dieSubj dead) (dom := (d.deadInfo dead).1.1) (keeps_deadInfo (pdi := dead) (keeps_modRb (keeps_refl c))))
  rw [he]
  exact ⟨es, hc.trans hs⟩

theorem pathReply_eq (sq : BitVec 32) (status : Byte) (h : status ≠ 1) : exec (.pathReply sq status) s = .next (s.pathFinal sq.toNat (if status.toNat ≤ 4 then status.toNat else 4)) :=
  congrArg Host.Outcome.next (if_neg (fun hc => h (BitVec.eq_of_toNat_eq hc)))

/-- The command is sent again. -/
def State.pathAgain (s : State) (c : PathCmd) : State :=
  (s.tpSend c.bytes).modUx (fun u => { u with paths := u.paths.map (fun y => if y.seq == c.seq then { y with resends := y.resends + 1, busy := false } else y) })

theorem pathResend_none (sq : BitVec 32) (h : s.pathFound sq.toNat = none) : exec (.pathResend sq) s = .next s := by
  change execPathResend sq s = _
  unfold execPathResend
  rw [show s.ux.paths.find? (fun c => c.seq == sq.toNat && c.status.isNone) = none from h]

theorem pathResend_some (sq : BitVec 32) (h : s.pathFound sq.toNat = some cmd) : exec (.pathResend sq) s = .next (if !s.tpUp then s.pathFinal cmd.seq 0xF1
    else if 3 ≤ cmd.resends then s.pathFinal cmd.seq (if cmd.busy then 1 else 0xF0) else s.pathAgain cmd) := by
  change execPathResend sq s = _
  unfold execPathResend
  rw [show s.ux.paths.find? (fun c => c.seq == sq.toNat && c.status.isNone) = some cmd from h]
  rfl
end

/-! ### The vault (R351 to R353) -/

section
variable (s : State)

theorem vaults_unmirrored : s.unmirrored.ux.vaults = s.ux.vaults := by
  unfold State.unmirrored State.mirrorFull
  dsimp only
  split
  · refine (ux_of_core (core_log _ ..) Uhloux.vaults).trans ?_
    split <;> rfl
  · split <;> rfl

theorem vaults_setVault (die : Nat) (v : VGen) : (s.setVault die v).vault die = v := tget_tput_same VGen.zero s.ux.vaults die v

theorem vault_congr {s t : State} (h : t.ux.vaults = s.ux.vaults) (die : Nat) : t.vault die = s.vault die := congrArg (fun l => tget VGen.zero l die) h

theorem vaults_vaultFail (die : Nat) (step : Word) : (s.vaultFail die step).ux.vaults = s.ux.vaults := by
  unfold State.vaultFail
  dsimp only
  refine (ux_of_core (core_sendUp ..) Uhloux.vaults).trans ?_
  unfold State.lsiOfDie
  split <;> rfl

theorem vaults_endQid (q st : Nat) : (s.endQid q st).ux.vaults = s.ux.vaults := ((Ended.refl s).endQid q st).proj (·.vaults)

/-- The end of a stream leaves what the vault holds of the die. -/
theorem vaultEnd_leaves (die : Nat) : ((s.vaultEnd die).vault die).ended = (s.vault die).ended ∧ ((s.vaultEnd die).vault die).log = (s.vault die).log := by
  unfold State.vaultEnd
  dsimp only
  split
  · next step q _ _ =>
    split
    · let a := s.setVault die { s.vault die with isOpen := none, qid := none }
      have ha : a.vault die = { s.vault die with isOpen := none, qid := none } := vaults_setVault ..
      split
      · let b := (a.put .ux Reg.UX_VAULT_STAT_OVER 1).log .ux 0x44 0x6040 die ((s.vault die).written (step % 2 ^ 32))
        have hb : b.ux.vaults = a.ux.vaults := ux_of_core (core_log _ ..) Uhloux.vaults
        have hv : (((b.vaultFail die (BitVec.ofNat 64 step)).endQid q stSat)).vault die = a.vault die := vault_congr ((vaults_endQid ..).trans ((vaults_vaultFail ..).trans hb)) die
        rw [hv, ha]
        exact ⟨rfl, rfl⟩
      · have hv : (a.endQid q stOk).vault die = a.vault die := vault_congr (vaults_endQid ..) die
        rw [hv, ha]
        exact ⟨rfl, rfl⟩
    · exact ⟨rfl, rfl⟩
  · exact ⟨rfl, rfl⟩

/-- A stream ends (R352). -/
theorem mirrorTake_end (x : Nat) (m : VaultMsg) (h : m.kind = 3) : let die := s.vaultDie x m.lane.toNat
    ((s.mirrorTake x m).vault die).ended.contains m.step.toNat = true ∧ ((s.mirrorTake x m).vault die).log = (s.vault die).log := by
  intro die
  let v : VGen := { s.vault die with seen := true }
  let a := (s.setVault die { v with ended := if v.ended.contains m.step.toNat then v.ended else v.ended ++ [m.step.toNat] }).unmirrored
  have he : s.mirrorTake x m = a.vaultEnd die := if_pos h
  have ha : a.vault die = { v with ended := if v.ended.contains m.step.toNat then v.ended else v.ended ++ [m.step.toNat] } := (vault_congr (vaults_unmirrored _) die).trans (vaults_setVault ..)
  obtain ⟨h1, h2⟩ := vaultEnd_leaves a die
  rw [he, h1, h2, ha]
  refine ⟨?_, rfl⟩
  dsimp only
  split
  · assumption
  · simp

/-- A write is logged once for its (KIND, LANE, STEP, OFS) (R352). -/
theorem mirrorTake_write (x : Nat) (m : VaultMsg) (h : m.kind ≠ 3) : let die := s.vaultDie x m.lane.toNat
    ((s.mirrorTake x m).vault die).log = (if (s.vault die).log.any (fun x => x.step == m.step.toNat && x.ofs == m.ofs.toNat && x.bcv == (m.kind == 2)) then (s.vault die).log
      else (s.vault die).log ++ [{ step := m.step.toNat, ofs := m.ofs.toNat, data := m.data, bcv := m.kind == 2 }]) ∧ ((s.mirrorTake x m).vault die).seen = true := by
  intro die
  let v : VGen := { s.vault die with seen := true }
  let w : VWrite := { step := m.step.toNat, ofs := m.ofs.toNat, data := m.data, bcv := m.kind == 2 }
  let n : VGen := if v.log.any (fun x => x.step == m.step.toNat && x.ofs == w.ofs && x.bcv == w.bcv) then v else { v with log := v.log ++ [w] }
  have he : s.mirrorTake x m = (s.setVault die n).unmirrored := if_neg h
  have ha : (s.setVault die n).unmirrored.vault die = n := (vault_congr (vaults_unmirrored _) die).trans (vaults_setVault ..)
  rw [he, ha]
  show (if v.log.any _ then v else { v with log := v.log ++ [w] }).log = _ ∧ (if v.log.any _ then v else { v with log := v.log ++ [w] }).seen = true
  split
  · exact ⟨rfl, rfl⟩
  · exact ⟨rfl, rfl⟩
end

/-! ### The obligation -/

/-- Settles O52: a rollback by what it empties, the path commands by the set they end, mirror messages by the vault's log. -/
theorem rollbackAndVault : Obligations.RollbackAndVault := by
  unfold Obligations.RollbackAndVault
  intro step next pdi tc seq status cmd lane m s last k shadow die v same reply found up
  have hshd : shadow = false → s.lockLane Reg.UX_LOCK_CTRL_SHD lane.val = false := id
  have hk3 : m.kind = 3 ↔ k = 3 := (kind_toNat (n := 3) (by decide)).symm
  refine ⟨⟨_, rfl, elRollback_leaves s step _ rfl⟩, ?_, fun h => congrArg Host.Outcome.next (if_neg (by rw [h]; decide)), fun h hm => congrArg Host.Outcome.next ((if_pos h).trans (if_pos hm)),
    fun h h5 h6 => ⟨_, congrArg Host.Outcome.next (if_pos h), rbReadyTake_leaves s _ h5 h6 _ rfl⟩, rfl, rfl, fun h => congrArg Host.Outcome.next (if_pos h), fun h => ?_, fun h => congrArg Host.Outcome.next (if_pos (by rw [h]; rfl)),
    fun h hf => (pathReply_eq s seq status h).trans (congrArg Host.Outcome.next (pathFinal_none s _ _ hf)), pathResend_none s seq, fun hf => ?_, fun h => congrArg Host.Outcome.next (if_pos h), fun h1 h6 hs => ?_, fun h4 h6 hs => ?_,
    fun h1 h3 hs => ⟨fun ht => ?_, fun ht hl => ?_, fun ht hl hl2 => ?_⟩⟩
  · obtain ⟨a, ha⟩ : ∃ a, s.sendDown downLanes (.rollback step) = a := ⟨_, rfl⟩
    have h := rolledBack_uxRollback a step
    have hx : exec (.rollback .ux step) s = .next (a.uxRollback step) := by
      rw [← ha]
      rfl
    exact ⟨a.uxRollback step, hx, h.emptied.slots, h.emptied.groups, h.emptied.held, passVotes_uxRollback a step, h.man, h.emptied.nodes⟩
  · obtain ⟨h1, h2, h3, h4⟩ := readyTry_leaves (s.modEl (fun e => { e with restored := true }))
    exact ⟨_, congrArg Host.Outcome.next (if_neg (by rw [h]; decide)), h1, h2, fun q o ho => (h3 q o ho).trans (reg_modEl s _ q o rfl), h4⟩
  · have hcode : (if status.toNat ≤ 4 then status.toNat else 4) < 256 := by split <;> omega
    have hne : status ≠ 0 → (if status.toNat ≤ 4 then status.toNat else 4) ≠ 0 := fun h0 hc => by
      refine h0 (BitVec.eq_of_toNat_eq ?_)
      split at hc
      · exact hc
      · exact absurd hc (by decide)
    have hok : status = 0 → exec reply s = .next (s.pathFinal seq.toNat 0) := fun h0 => (pathReply_eq s seq status (by rw [h0]; decide)).trans (by rw [h0]; rfl)
    have hno : status ≠ 0 → status ≠ 1 → exec reply s = .next (s.pathFailed cmd.pathset (if status.toNat ≤ 4 then status.toNat else 4)) := fun h0 h1 =>
      (pathReply_eq s seq status h1).trans (congrArg Host.Outcome.next ((pathFinal_some s _ cmd _ hf).trans (if_pos (hne h0))))
    refine ⟨fun h0 ho => ?_, fun h0 ho => ?_, fun h0 h1 hr => ?_, fun r dead spare z h0 h1 hr hs => ⟨_, hno h0 h1, pathFailed_spare s _ _ hr hs⟩, fun hu hn => ?_, fun hu => ?_, fun hu hn => ?_⟩
    · refine (hok h0).trans (congrArg Host.Outcome.next ((pathFinal_some s _ cmd _ hf).trans ((if_neg (by decide)).trans (if_neg ?_))))
      rw [all_closed]
      exact fun hc => absurd ho (by simpa using hc)
    · let t := s.modUx (fun u => { u with paths := s.pathMarked seq.toNat })
      have ht := tried_rbTry (t.pathEnded cmd.pathset 0)
      obtain ⟨e1, e2, e3, -, -⟩ := pathEnded_leaves t cmd.pathset 0 (by decide)
      refine ⟨(t.pathEnded cmd.pathset 0).rbTry, (hok h0).trans (congrArg Host.Outcome.next ((pathFinal_some s _ cmd _ hf).trans ((if_neg (by decide)).trans (if_pos ?_)))), ht.paths.trans e1, (get_of_reg (ht.regs _ _)).trans e2, (get_of_reg (ht.regs _ _)).trans e3⟩
      rw [all_closed]
      exact (congrArg not ho).trans rfl
    · obtain ⟨e1, e2, e3, -, -⟩ := pathEnded_leaves s cmd.pathset _ hcode
      exact ⟨_, (hno h0 h1).trans (congrArg Host.Outcome.next (pathFailed_free s _ _ hr)), e1, e2, e3⟩
    · refine ⟨s.pathAgain cmd, (pathResend_some s cmd seq hf).trans (congrArg Host.Outcome.next ((if_neg ?_).trans (if_neg (by omega)))), rfl, rfl, fun q o _ => ?_, rfl⟩
      · rw [show s.tpUp = true from hu]
        decide
      · exact (reg_modUx _ _ q o rfl).trans (reg_modUx s _ q o rfl)
    · exact (pathResend_some s cmd seq hf).trans (congrArg Host.Outcome.next (if_pos (by rw [show s.tpUp = false from hu]; rfl)))
    · refine (pathResend_some s cmd seq hf).trans (congrArg Host.Outcome.next ((if_neg ?_).trans (if_pos hn)))
      rw [show s.tpUp = true from hu]
      decide
  · exact congrArg Host.Outcome.next ((if_neg (by omega)).trans (if_pos hs))
  · exact congrArg Host.Outcome.next ((if_neg (by omega)).trans ((if_neg (by rw [hshd hs]; decide)).trans (if_pos h4)))
  · exact congrArg Host.Outcome.next ((if_neg (by omega)).trans ((if_neg (by rw [hshd hs]; decide)).trans ((if_neg (by omega)).trans (if_pos ht))))
  · exact congrArg Host.Outcome.next ((if_neg (by omega)).trans ((if_neg (by rw [hshd hs]; decide)).trans ((if_neg (by omega)).trans ((if_neg (by rw [ht]; decide)).trans (if_neg (by omega))))))
  · have hx : exec (.vaultMessage lane m) s = .next (s.mirrorTake lane.val m) :=
      congrArg Host.Outcome.next ((if_neg (by omega)).trans ((if_neg (by rw [hshd hs]; decide)).trans ((if_neg (by omega)).trans ((if_neg (by rw [ht]; decide)).trans (if_pos ⟨hl, hl2⟩)))))
    exact ⟨fun h => ⟨_, hx, mirrorTake_end s lane.val m (hk3.mpr h)⟩, fun h => ⟨_, hx, mirrorTake_write s lane.val m (fun hc => h (hk3.mp hc))⟩⟩

end Sys2Proof.Machine

/-! REFUTATION. DMA channels (R383 to R398): the end of a start may let a held step start begin, which a licence without bounds turns on the channel's own registers. -/

namespace Sys2Proof.Machine

set_option Elab.async false

/-- A DRAINING die whose last queued operation is the DMAGO of channel 0, RUNNING between two descriptors; a step start is held. Its licence has 121 streams, where R2 ends at 64: the registers of stream 120 (R276) lie at DMA_STAT of channel 0. -/
def dmaCrowded : State :=
  let s := (((State.reset.put .el Reg.SEQ_STAT_STATE 4).put .el (Reg.DMA_STAT_STATE 0) 1).put .el Reg.SEQ_RUNCFG_LSI_VALID 1).modSeq .el (fun q => { q with heldStarts := [0] })
  s.modEl (fun e => { e with
    lic := { e.lic with streams := 121 }
    dma := [(0, { Dma.zero with qid := some 4 })]
    base := { e.base with qops := [{ id := 4, queue := .move, kind := .dmago 0 1, pc := 0, core := 0, k := 0, amt := 0, entries := 0, started := true }] } })

/-- The abort ends the operation, the drain and with it the wait of the held start, which sets every stream afresh. -/
theorem dmaCrowded_aborted : (dmaCrowded.dmaAbort 0 stAborted).get .el (Reg.DMA_STAT_STATE 0) = 7 := by decide +kernel

/-- Refutes O53: an abort between two descriptors need not leave the channel IDLE. The DMAGO it ends may be the last operation of a drain, and the held step start that begins then writes the registers of every stream of the licence. -/
theorem not_dmaChannels : ¬ Obligations.DmaChannels := by
  unfold Obligations.DmaChannels
  intro h
  obtain ⟨-, -, -, -, -, hends, -⟩ := h 0 0 0 0 { kind := 0, lane := 0, step := 0, ofs := 0, target := 0, data := [] } [] dmaCrowded
  obtain ⟨u, hu, hidle, -⟩ := hends (by decide +kernel) (by decide +kernel)
  have hx : exec (.dmaHostAbort 0) dmaCrowded = .next (dmaCrowded.dmaAbort 0 stAborted) := rfl
  obtain rfl : dmaCrowded.dmaAbort 0 stAborted = u := Host.Outcome.next.inj (hx.symm.trans hu)
  exact absurd (hidle.symm.trans dmaCrowded_aborted) (by decide)

end Sys2Proof.Machine

/-! SUPPORT. Host and remote accesses (chapters 12 and 15): how a failed access ends, and the accesses of SPM, of the program aperture, of the register windows and over VC5. -/

namespace Sys2Proof.Machine

set_option Elab.async false

/-! ### A failed access (R477, R483) -/

theorem accessErr_answers (s : State) (q : Part) (cause space o : Nat) (write : Bool) :
    ((s.accessErr q cause space o write).base q).rdata = (if write then 0 else allOnes) ∧ ((s.accessErr q cause space o write).base q).rerr = true := by
  cases q <;> exact ⟨rfl, rfl⟩

/-- A failed access is logged, and ERR records it unless an earlier one stands (R482, R483). -/
def State.errNoted (s : State) (q : Part) (e : Nat) : State :=
  if bitOf ((s.log q (unitMan q) 0x9070 0 e).reg q (errOff q)).toNat 48 then s.log q (unitMan q) 0x9070 0 e
  else (s.log q (unitMan q) 0x9070 0 e).setReg q (errOff q) (BitVec.ofNat 64 e)

theorem el_spm_setReg (s : State) (q : Part) (o : Nat) (w : Word) : (s.setReg q o w).el.spm = s.el.spm := by cases q <;> rfl

theorem errNoted_leaves (s : State) (q : Part) (e : Nat) :
    (s.errNoted q e).el.spm = s.el.spm ∧ RegsBut [(q, errOff q)] s (s.errNoted q e) ∧ Logged q s (s.errNoted q e) [(unitMan q, 0x9070, 0, e)] := by
  have hc : (s.log q (unitMan q) 0x9070 0 e).core = s.core := core_log ..
  have hlog : Logged q s (s.log q (unitMan q) 0x9070 0 e) [(unitMan q, 0x9070, 0, e)] := logged_log (unitMan q) 0x9070 0 e rfl
  have hspm : (s.log q (unitMan q) 0x9070 0 e).el.spm = s.el.spm := congrArg (fun t => t.el.spm) hc
  have hregs : RegsBut [(q, errOff q)] s (s.log q (unitMan q) 0x9070 0 e) := fun p i _ => reg_of_core hc p i
  unfold State.errNoted
  generalize s.log q (unitMan q) 0x9070 0 e = t at *
  split
  · exact ⟨hspm, hregs, hlog⟩
  · exact ⟨(el_spm_setReg ..).trans hspm, hregs.setReg q (errOff q) _ (List.mem_singleton_self _), hlog.congr (events_setReg ..)⟩

theorem el_spm_answer (s : State) (q : Part) (d : Word) (e : Bool) : (s.answer q d e).el.spm = s.el.spm := by cases q <;> rfl

theorem events_answer (s : State) (q r : Part) (d : Word) (e : Bool) : ((s.answer q d e).base r).events = (s.base r).events :=
  events_mod s q r _ (fun _ => rfl)

/-- A command that ends in a failed access answers its error, records it in ERR and logs 0x9070. -/
theorem ends_accessErr {s : State} {q : Part} {i : Instr} {cause space o : Nat} {write : Bool} (h : exec i s = .next (s.accessErr q cause space o write)) :
    Ends i s (fun u => (u.base q).rerr = true ∧ (u.base q).rdata = (if write then 0 else allOnes) ∧ u.el.spm = s.el.spm
      ∧ RegsBut [(q, errOff q)] s u ∧ Logged q s u [(unitMan q, 0x9070, 0, errWord cause space o write)]) := by
  obtain ⟨hspm, hregs, hlog⟩ := errNoted_leaves s q (errWord cause space o write)
  obtain ⟨hdata, herr⟩ := accessErr_answers s q cause space o write
  exact ⟨_, h, herr, hdata, (el_spm_answer ..).trans hspm, fun p z hz => (reg_answer ..).trans (hregs p z hz), hlog.congr (events_answer ..)⟩

/-! ### The SPM aperture (R376, R379, R380, R476) -/

/-- A read that a replay healed answers the word, and shows and logs the replay. -/
theorem spmReplayed_answers (s : State) (x : Nat) (d : Word) :
    (((s.spmReplay 10 (x - x % 8) 0).answer .el d false).bit .el Reg.SPM_STAT_REPLAY = true)
      ∧ Logged .el s ((s.spmReplay 10 (x - x % 8) 0).answer .el d false) [(0x07, 0x7001, 0, 10 * 2 ^ 60 + (x - x % 8))] := by
  obtain ⟨t, ht⟩ : ∃ t, (s.count .el Reg.SPM_CNT_REPLAYS 1).put .el Reg.SPM_STAT_REPLAY 1 = t := ⟨_, rfl⟩
  have hev : (t.base .el).events = (s.base .el).events := by
    rw [← ht]
    exact (events_put ..).trans (events_put ..)
  have hget : t.get .el Reg.SPM_STAT_REPLAY = 1 := by
    rw [← ht]
    exact get_put_same _ _ _ _ (by decide) (by decide)
  have hs : s.spmReplay 10 (x - x % 8) 0 = (t.log .el 0x07 0x7001 0 (10 * 2 ^ 60 + (x - x % 8))).modEl (fun e => { e with hbCounts := { e.hbCounts with parity := e.hbCounts.parity + 1 } }) := by
    rw [← ht]
    rfl
  rw [hs]
  refine ⟨bit_of_get (Eq.trans ?_ hget), (logged_log 0x07 0x7001 0 _ hev).congr rfl⟩
  exact get_of_reg (reg_of_core (core_log t .el 0x07 0x7001 0 _) .el _)

/-- A word that stays bad logs 0x7002 before all that its trigger of the guard does. -/
theorem spmPersist_logs (s : State) (x : Nat) : ∃ es, Logged .el s (s.spmPersist 10 x 0) ((0x07, 0x7002, 0, 10 * 2 ^ 60 + x) :: es) := by
  obtain ⟨t, ht⟩ : ∃ t, (((s.put .el Reg.SPM_STAT_PERSIST 1).put .el Reg.SPM_PERR_PORT 10).put .el Reg.SPM_PERR_ADDR x) = t := ⟨_, rfl⟩
  have hev : (t.base .el).events = (s.base .el).events := by
    rw [← ht]
    exact (events_put ..).trans ((events_put ..).trans (events_put ..))
  have hs : s.spmPersist 10 x 0 = (t.log .el 0x07 0x7002 0 (10 * 2 ^ 60 + x)).guardTrigger .el 5 7 2 false := by
    rw [← ht]
    rfl
  rw [hs]
  obtain ⟨es, hes⟩ := exists_logged_of_keeps .el (keeps_guardTrigger (keeps_refl (t.log .el 0x07 0x7002 0 (10 * 2 ^ 60 + x))) : Keeps _ ((t.log .el 0x07 0x7002 0 (10 * 2 ^ 60 + x)).guardTrigger .el 5 7 2 false))
  exact ⟨es, (logged_log 0x07 0x7002 0 _ hev).trans hes⟩

theorem exec_spmHostAccess {s : State} {a : BitVec 24} {size : AccSize} (write replay : Bool) (v : Word) (hf : accCause size a.toNat = 0) (hx : a.toNat < s.spmBytes) :
    exec (.spmHostAccess write a size v replay) s = .next
      (let t := if replay && !s.el.spmBad.contains (a.toNat / 8) then s.spmReplay 10 (a.toNat - a.toNat % 8) 0 else s
      if write then t.spmHostWrite a.toNat size v else t.spmHostRead a.toNat size) := by
  refine congrArg Host.Outcome.next ?_
  exact (if_neg (not_not.mpr hf)).trans (if_neg (Nat.not_le.mpr hx))

/-- A host access that fits and lies in SPM. -/
theorem spmHostAccess_takes (a : BitVec 24) (size : AccSize) (v : Word) (s : State) (hf : accCause size a.toNat = 0) (hx : a.toNat < s.spmBytes) :
    (s.el.spmBad.contains (a.toNat / 8) = false → exec (.spmHostAccess false a size v false) s = .next (s.answer .el (accHalf size a.toNat (s.spmRaw a.toNat)) false))
    ∧ (s.el.spmBad.contains (a.toNat / 8) = false → Ends (.spmHostAccess false a size v true) s (fun u => u.el.base.rdata = accHalf size a.toNat (s.spmRaw a.toNat) ∧ u.el.base.rerr = false ∧ u.bit .el Reg.SPM_STAT_REPLAY = true
      ∧ Logged .el s u [(0x07, 0x7001, 0, 10 * 2 ^ 60 + (a.toNat - a.toNat % 8))]))
    ∧ (s.el.spmBad.contains (a.toNat / 8) = true → Ends (.spmHostAccess false a size v false) s (fun u => u.el.base.rdata = allOnes ∧ u.el.base.rerr = true ∧ ∃ es, Logged .el s u ((0x07, 0x7002, 0, 10 * 2 ^ 60 + (a.toNat - a.toNat % 8)) :: es)))
    ∧ (size = .eight → exec (.spmHostAccess true a size v false) s = .next ((s.spmPut a.toNat v).answer .el 0 false))
    ∧ (size = .four → exec (.spmHostAccess true a size v false) s = .next ((s.spmPutBytes 10 a.toNat (leBytes 4 (v.toNat % 2 ^ 32)) 0).answer .el 0 false)) := by
  refine ⟨fun hb => ?_, fun hb => ?_, fun hb => ?_, fun h8 => ?_, fun h4 => ?_⟩
  · rw [exec_spmHostAccess false false v hf hx]
    exact congrArg Host.Outcome.next (if_neg (Bool.eq_false_iff.mp hb))
  · obtain ⟨hshow, hlog⟩ := spmReplayed_answers s a.toNat (accHalf size a.toNat (s.spmRaw a.toNat))
    refine ⟨_, ?_, rfl, rfl, hshow, hlog⟩
    rw [exec_spmHostAccess false true v hf hx]
    have hbad : (s.spmReplay 10 (a.toNat - a.toNat % 8) 0).el.spmBad = s.el.spmBad := congrArg (fun t => t.el.spmBad) (core_log ((s.count .el Reg.SPM_CNT_REPLAYS 1).put .el Reg.SPM_STAT_REPLAY 1) .el 0x07 0x7001 0 (10 * 2 ^ 60 + (a.toNat - a.toNat % 8)))
    have hspm : (s.spmReplay 10 (a.toNat - a.toNat % 8) 0).el.spm = s.el.spm := congrArg (fun t => t.el.spm) (core_log ((s.count .el Reg.SPM_CNT_REPLAYS 1).put .el Reg.SPM_STAT_REPLAY 1) .el 0x07 0x7001 0 (10 * 2 ^ 60 + (a.toNat - a.toNat % 8)))
    have hraw : (s.spmReplay 10 (a.toNat - a.toNat % 8) 0).spmRaw a.toNat = s.spmRaw a.toNat := by
      unfold State.spmRaw
      rw [hspm]
    refine congrArg Host.Outcome.next ?_
    dsimp only
    rw [hb, ← hraw]
    change (s.spmReplay 10 (a.toNat - a.toNat % 8) 0).spmHostRead a.toNat size = _
    exact if_neg (by rw [hbad, hb]; decide)
  · obtain ⟨es, hes⟩ := spmPersist_logs s (a.toNat - a.toNat % 8)
    obtain ⟨-, -, hlog⟩ := errNoted_leaves (s.spmPersist 10 (a.toNat - a.toNat % 8) 0) .el (errWord 6 2 a.toNat false)
    obtain ⟨hdata, herr⟩ := accessErr_answers (s.spmPersist 10 (a.toNat - a.toNat % 8) 0) .el 6 2 a.toNat false
    refine ⟨_, ?_, hdata, herr, _, (hes.trans hlog).congr (events_answer ..)⟩
    rw [exec_spmHostAccess false false v hf hx]
    exact congrArg Host.Outcome.next (if_pos hb)
  · subst h8
    exact exec_spmHostAccess true false v hf hx
  · subst h4
    exact exec_spmHostAccess true false v hf hx

/-- A time-out of the aperture shows HOST_TMO, answers an error and logs 0x7004. -/
theorem spmHostTimeout_ends (a : BitVec 24) (s : State) (w : Bool) :
    Ends (.spmHostTimeout w a) s (fun u => u.bit .el Reg.SPM_STAT_HOST_TMO = true ∧ u.el.base.rerr = true ∧ u.el.base.rdata = (if w then 0 else allOnes) ∧ u.el.spm = s.el.spm
      ∧ Logged .el s u [(0x07, 0x7004, 0, a.toNat)]) := by
  obtain ⟨t, ht⟩ : ∃ t, (s.put .el Reg.SPM_STAT_HOST_TMO 1).count .el Reg.SPM_CNT_HOST_TMO 1 = t := ⟨_, rfl⟩
  have hev : (t.base .el).events = (s.base .el).events := by
    rw [← ht]
    exact (events_put ..).trans (events_put ..)
  have hget : t.get .el Reg.SPM_STAT_HOST_TMO = 1 := by
    rw [← ht]
    exact (get_put_other _ _ Reg.SPM_CNT_HOST_TMO Reg.SPM_STAT_HOST_TMO _ (by decide) (by decide) (by decide) (by decide)).trans (get_put_same _ _ _ _ (by decide) (by decide))
  have hspm : t.el.spm = s.el.spm := by
    rw [← ht]
    rfl
  have hc := core_log t .el 0x07 0x7004 0 a.toNat
  have hx : exec (.spmHostTimeout w a) s = .next ((t.log .el 0x07 0x7004 0 a.toNat).answer .el (if w then 0 else allOnes) true) := by
    rw [← ht]
    rfl
  refine ⟨_, hx, bit_of_get (Eq.trans ?_ hget), rfl, rfl, ?_, (logged_log 0x07 0x7004 0 a.toNat hev).congr (events_answer ..)⟩
  · exact get_of_reg ((reg_answer ..).trans (reg_of_core hc .el _))
  · exact (congrArg (fun t => t.el.spm) hc : (t.log .el 0x07 0x7004 0 a.toNat).el.spm = t.el.spm).trans hspm

/-! ### The program aperture (R475) -/

theorem progApertureRead_written (a : BitVec 24) (size : AccSize) (py : Bool) (s : State) :
    exec (.progApertureRead true a size py) s = .next (s.accessErr .el 4 1 a.toNat true) := rfl

theorem progApertureRead_misfit (a : BitVec 24) (size : AccSize) (py : Bool) (s : State) (h : ¬ accCause size a.toNat = 0) :
    exec (.progApertureRead false a size py) s = .next (s.accessErr .el (accCause size a.toNat) 1 a.toNat false) :=
  congrArg Host.Outcome.next (if_pos h)

/-- A read that fits, by the state of the sequencer. -/
theorem progApertureRead_fits (a : BitVec 24) (size : AccSize) (py : Bool) (s : State) (h : accCause size a.toNat = 0) :
    exec (.progApertureRead false a size py) s = .next
      (if s.seqState .el = 0 then s.answer .el 0 false
      else if s.seqState .el = 1 then s.accessErr .el 5 1 a.toNat false
      else if py then s.accessErr .el 6 1 a.toNat false
      else s.answer .el (accHalf size a.toNat (s.progWord .el (a.toNat % 2 ^ 22))) false) :=
  congrArg Host.Outcome.next (if_neg (not_not.mpr h))

/-! ### The register windows (R8, R477, R478) -/

theorem regWrite_fits {p : Part} {o : Nat} {size : AccSize} (v : Word) (s : State) (hw : winSizeCause p o size = 0) (ho : o < 0x3000000 ∨ p = .ux) :
    s.regWrite p o size v = if 0x10000 ≤ o then s.highWrite p o size v else
      (match regRow p (o - o % 8) with
        | some r => if s.regHere p (o - o % 8) then s.regPut p (o - o % 8) (writeMask size o) (writeWord size o v) r else s
        | none => s.secWrite p o ((accBytes size).getD 0) v).answer p 0 false := by
  refine (if_neg (not_not.mpr hw)).trans (if_neg ?_)
  rcases ho with ho | rfl
  · rw [Bool.and_eq_true, decide_eq_true_eq]
    omega
  · simp

/-- The shadow window ignores a write (R442). -/
theorem highWrite_shadow (p : Part) {o : Nat} (size : AccSize) (v : Word) (s : State) (ho : o < 0x20000) : s.highWrite p o size v = s.answer p 0 false := by
  have hne (n m : Nat) (hn : 0x20000 ≤ n) : ¬ (decide (n ≤ o) && decide (o < m)) = true := by
    rw [Bool.and_eq_true, decide_eq_true_eq]
    omega
  cases p
  · exact (if_neg (hne _ _ (by decide))).trans (if_neg (hne _ _ (by decide)))
  · exact (if_neg (hne _ _ (by decide))).trans ((if_neg (hne _ _ (by decide))).trans ((if_neg (hne _ _ (by decide))).trans (if_neg (hne _ _ (by decide)))))

/-- A byte window that is read-only, or none, takes no write. -/
theorem secWrite_ignored {o : Nat} (p : Part) (n : Nat) (v : Word) (s : State) (h : secWindow o = none ∨ secWindow o = some .ro) : s.secWrite p o n v = s := by
  unfold State.secWrite
  rcases h with h | h <;> rw [h]

/-! ### Remote accesses (R441, R480) -/

theorem vc5Write_word (s : State) (p : Part) (addr : Nat) (data : List Byte) (h : data.length = 8) :
    s.vc5Write p addr data (data.length / 8) = s.regWrite p addr .eight (BitVec.ofNat 64 (leNat data)) := by
  rw [h]
  change s.regWrite p addr .eight (BitVec.ofNat 64 (leNat (data.take 8))) = _
  rw [List.take_of_length_le h.le]

/-- A remote write of one register leaves the answers of local accesses as they were. -/
theorem vc5WrReq_ends (p : Part) (addr : Word) (seq : BitVec 16) (data : List Byte) (s : State) (hok : vc5Ok p addr.toNat data.length = true) (h8 : data.length = 8) :
    Ends (.vc5WrReq p addr data seq) s (fun u => (u.base p).rdata = (s.base p).rdata ∧ (u.base p).rerr = (s.base p).rerr
      ∧ ∀ q z, u.reg q z = (s.regWrite p addr.toNat .eight (BitVec.ofNat 64 (leNat data))).reg q z) := by
  obtain ⟨t, ht⟩ : ∃ t, s.regWrite p addr.toNat .eight (BitVec.ofNat 64 (leNat data)) = t := ⟨_, rfl⟩
  have hx : exec (.vc5WrReq p addr data seq) s = .next ((t.answer p (s.base p).rdata (s.base p).rerr).sendUp p (.wrRsp seq addr.toNat stOk)) := by
    rw [← ht, ← vc5Write_word s p addr.toNat data h8]
    exact congrArg Host.Outcome.next (if_pos hok)
  have hc := core_sendUp (t.answer p (s.base p).rdata (s.base p).rerr) p (.wrRsp seq addr.toNat stOk)
  refine ⟨_, hx, ?_, ?_, fun q z => ?_⟩
  · cases p
    · exact congrArg (fun t => t.el.base.rdata) hc
    · exact congrArg (fun t => t.ux.base.rdata) hc
  · cases p
    · exact congrArg (fun t => t.el.base.rerr) hc
    · exact congrArg (fun t => t.ux.base.rerr) hc
  · rw [ht]
    exact (reg_of_core hc q z).trans (reg_answer ..)

/-! ### O54 -/

/-- Settles O54, clause by clause from the rules above; every failed access ends as `ends_accessErr` says. -/
theorem hostAccesses : Obligations.HostAccesses := by
  unfold Obligations.HostAccesses
  intro p off a size v addr len seq data cycles row s
  refine ⟨fun w rp hf => ?_, fun w rp hf hx => ?_, fun hf hx => spmHostAccess_takes a size v s hf hx, spmHostTimeout_ends a s, fun py => ends_accessErr (progApertureRead_written a size py s),
    fun py hf => ends_accessErr (progApertureRead_misfit a size py s hf), fun py hf => ⟨fun h0 => ?_, fun h1 => ?_, fun h1 hp => ?_, fun h1 hp => ?_⟩,
    fun hc => ?_, fun hc => ?_, fun w hd => ?_, fun w h0 h2 => ?_, fun hw => ?_, fun hw ho => ?_, fun hw => ⟨fun h1 h2 => ?_, fun ho hr hh => ?_, fun ho hr hs => ?_⟩,
    fun hv => ?_, fun hv => ?_, fun hv => ?_, fun hv h8 => vc5WrReq_ends p addr seq data s hv h8, rfl⟩
  · exact ends_accessErr (congrArg Host.Outcome.next (if_pos hf))
  · exact ends_accessErr (congrArg Host.Outcome.next ((if_neg (not_not.mpr hf)).trans (if_pos hx)))
  · rw [progApertureRead_fits a size py s hf, if_pos h0]
  · refine ends_accessErr ?_
    rw [progApertureRead_fits a size py s hf, if_neg (by omega), if_pos h1]
  · refine ends_accessErr ?_
    rw [progApertureRead_fits a size py s hf, if_neg (by omega), if_neg (by omega), if_pos hp]
  · rw [progApertureRead_fits a size py s hf, if_neg (by omega), if_neg (by omega), if_neg (by simp [hp])]
  · refine goes_of _ (congrArg Host.Outcome.next (if_pos hc)) (core_log ..) (logged_log 0x07 0x7005 0 cycles (events_put ..))
  · exact congrArg Host.Outcome.next (if_neg (by simp [hc]))
  · refine congrArg Host.Outcome.next (if_neg ?_)
    simp only [Bool.and_eq_true, bne_iff_ne, not_and_or, not_not]
    exact hd
  · refine ends_accessErr (congrArg Host.Outcome.next (if_pos ?_))
    simp only [Bool.and_eq_true, bne_iff_ne]
    exact ⟨h0, h2⟩
  · exact ends_accessErr (congrArg Host.Outcome.next (if_pos hw))
  · refine ends_accessErr (congrArg Host.Outcome.next ((if_neg (not_not.mpr hw)).trans (if_pos ?_)))
    simpa using ho
  · refine congrArg Host.Outcome.next ?_
    rw [regWrite_fits v s hw (.inl (by omega)), if_pos h1, highWrite_shadow p size v s h2]
  · refine congrArg Host.Outcome.next ?_
    rw [regWrite_fits v s hw (.inl (by omega)), if_neg (by omega), hr]
    exact congrArg (fun t => State.answer t p 0 false) (if_pos hh)
  · refine congrArg Host.Outcome.next ?_
    rw [regWrite_fits v s hw (.inl (by omega)), if_neg (by omega), hr]
    exact congrArg (fun t => State.answer t p 0 false) (secWrite_ignored p _ v s hs)
  · exact congrArg Host.Outcome.next (if_neg (by simp [hv]))
  · exact congrArg Host.Outcome.next (if_pos hv)
  · exact congrArg Host.Outcome.next (if_neg (by simp [hv]))

end Sys2Proof.Machine

/-! SUPPORT. The staging store (R442 to R444): what a staged entry changes in the store, the registers that hold ST fields alone, and what staging one of them does. -/

namespace Sys2Proof.Machine

set_option Elab.async false

/-! ### The store as a table -/

theorem stagedAt_eq (t : Tbl Word) (k : Nat) : stagedAt t k = entryAt t k := by
  induction t with
  | nil => rfl
  | cons e r ih =>
    obtain ⟨i, v⟩ := e
    by_cases h : i = k
    · simp [stagedAt, entryAt, h]
    · simpa [stagedAt, entryAt, h] using ih

theorem stagedAt_replaced (t : Tbl Word) (k : Nat) (v : Word) : stagedAt (tins (terase t k) k v) k = some v :=
  (stagedAt_eq ..).trans (entryAt_tins _ _ _ (entryAt_terase ..))

theorem stagedAt_tins_other (t : Tbl Word) {k j : Nat} (v : Word) (h : j ≠ k) : stagedAt (tins t k v) j = stagedAt t j := by
  induction t with
  | nil => exact if_neg (Ne.symm h)
  | cons e r ih =>
    obtain ⟨i, w⟩ := e
    show stagedAt (if k < i then (k, v) :: (i, w) :: r else (i, w) :: tins r k v) j = _
    split
    · exact if_neg (Ne.symm h)
    · simp only [stagedAt, ih]

theorem stagedAt_terase_other (t : Tbl Word) {k j : Nat} (h : j ≠ k) : stagedAt (terase t k) j = stagedAt t j := by
  induction t with
  | nil => rfl
  | cons e r ih =>
    obtain ⟨i, w⟩ := e
    by_cases hi : i = k
    · have hd : terase ((i, w) :: r) k = terase r k := List.filter_cons_of_neg (by simp [hi])
      rw [hd, ih]
      exact (if_neg (hi ▸ Ne.symm h)).symm
    · have hd : terase ((i, w) :: r) k = (i, w) :: terase r k := List.filter_cons_of_pos (by simpa using hi)
      rw [hd]
      simp only [stagedAt, ih]

/-! ### Registers that hold ST fields alone -/

/-- Registers all of whose fields are staged, and whose write names no action. -/
def plainSt : Part → List Nat
  | .el => [0x1028, 0x1030, 0x2010, 0x2018, 0x3000, 0x6000, 0x6020, 0x6028, 0x6030, 0x7000, 0x7008, 0x7018, 0xB020, 0xC040]
  | .ux => [8, 0x3010, 0x6040, 0x6048, 0x6080, 0x7000, 0x7008, 0x7020, 0x7028, 0x7040, 0x7080, 0xC040]

/-- A register of the map that has fields, all of them staged. -/
def allSt (p : Part) (r : Nat) : Bool := (regRow p r).any (fun row => !row.fields.isEmpty && row.fields.all (fun f => f.acc == .st))

/-- No rule of `fieldsWrite` names the register. -/
def freeWrite (p : Part) (r : Nat) : Bool :=
  !hxtNsf p r && (pulseAt p r).isNone && !perturb p r && !(p == .el && decide (0x8000 ≤ r) && decide (r < 0x9000)) && r != 0x12B0 && r != 0xD000 && !(p == .ux && r == 0x7090)

theorem plainSt_rows (p : Part) : ∀ r ∈ plainSt p, allSt p r = true ∧ freeWrite p r = true ∧ r < 0x10000 := by
  cases p <;> decide +kernel

/-- The write of a plain register names no action. -/
theorem regAct_plain (s : State) (p : Part) (mask : Nat) (w : Word) : ∀ r ∈ plainSt p, s.regAct p r mask w = s := by
  intro r hr
  cases p
  all_goals
    simp only [plainSt, List.mem_cons, List.not_mem_nil, or_false] at hr
  · rcases hr with rfl | rfl | rfl | rfl | rfl | rfl | rfl | rfl | rfl | rfl | rfl | rfl | rfl | rfl <;> rfl
  · rcases hr with rfl | rfl | rfl | rfl | rfl | rfl | rfl | rfl | rfl | rfl | rfl | rfl <;> rfl

theorem fieldWrite_st (s : State) (p : Part) (r mask : Nat) (w : Word) {f : FieldRow} (h : f.acc = .st) : s.fieldWrite p r mask w f = s := by
  unfold State.fieldWrite
  rw [h]
  exact ite_self s

theorem foldl_fieldWrite_st (s : State) (p : Part) (r mask : Nat) (w : Word) (fs : List FieldRow) (h : fs.all (fun f => f.acc == .st) = true) :
    fs.foldl (fun t f => t.fieldWrite p r mask w f) s = s := by
  induction fs with
  | nil => rfl
  | cons f fs ih =>
    rw [List.all_cons, Bool.and_eq_true] at h
    rw [List.foldl_cons, fieldWrite_st s p r mask w (by simpa using h.1)]
    exact ih h.2

/-- Staged fields take no write in place (R442). -/
theorem fieldsWrite_allSt (s : State) {p : Part} {r : Nat} (mask : Nat) (w : Word) (row : RegRow) (hfree : freeWrite p r = true) (h : row.fields.all (fun f => f.acc == .st) = true) :
    s.fieldsWrite p r mask w row = s := by
  simp only [freeWrite, Bool.and_eq_true, Bool.not_eq_true', bne_iff_ne, Option.isNone_iff_eq_none] at hfree
  obtain ⟨⟨⟨⟨⟨⟨hns, hpulse⟩, hpert⟩, hring⟩, h1⟩, h2⟩, h3⟩ := hfree
  have hbusy : s.ringBusy p r = false := by
    unfold State.ringBusy
    rw [hring]
    rfl
  unfold State.fieldsWrite
  rw [hns, hpulse, hpert, hbusy, h3]
  simp only [Bool.false_and, Bool.false_eq_true, if_false, h1, h2]
  exact foldl_fieldWrite_st s p r mask w row.fields h

theorem isSt_plain {s : State} {p : Part} {r : Nat} {row : RegRow} (hrow : regRow p r = some row) (hne : row.fields.isEmpty = false) (hall : row.fields.all (fun f => f.acc == .st) = true)
    (hh : s.regHere p r = true) : s.isSt p r = true := by
  have hst : stFields p r = row.fields := by
    unfold stFields
    rw [hrow]
    exact List.filter_eq_self.mpr (List.all_eq_true.mp hall)
  unfold State.isSt
  rw [hh, hst, hne]
  rfl

/-- A write that fits a plain register stages its word, and nothing else. -/
theorem stageWrite_plain {p : Part} {off : BitVec 26} {size : AccSize} (v : Word) (s : State) (hr : off.toNat - off.toNat % 8 ∈ plainSt p)
    (hh : s.regHere p (off.toNat - off.toNat % 8) = true) (hw : winSizeCause p off.toNat size = 0) :
    exec (.stageWrite p off v size) s = .next ((s.stage p (off.toNat - off.toNat % 8) (maskMerge (s.staged p (off.toNat - off.toNat % 8)) (writeWord size off.toNat v) (writeMask size off.toNat))).1.answer p 0 false) := by
  obtain ⟨hall, hfree, hlt⟩ := plainSt_rows p _ hr
  obtain ⟨row, hrow, hst⟩ := (by simpa [allSt, Option.any_eq_true] using hall : ∃ row, regRow p (off.toNat - off.toNat % 8) = some row ∧ (!row.fields.isEmpty && row.fields.all (fun f => f.acc == .st)) = true)
  rw [Bool.and_eq_true, Bool.not_eq_true'] at hst
  obtain ⟨hne, hst⟩ := hst
  have his : s.isSt p (off.toNat - off.toNat % 8) = true := isSt_plain hrow hne hst hh
  refine congrArg Host.Outcome.next ((if_pos his).trans ?_)
  rw [regWrite_fits v s hw (.inl (by omega)), if_neg (by omega), hrow]
  refine congrArg (fun t => State.answer t p 0 false) ((if_pos hh).trans ?_)
  unfold State.regPut
  rw [if_pos his]
  dsimp only
  rw [fieldsWrite_allSt _ _ _ row hfree hst, regAct_plain _ p _ _ _ hr]

/-! ### What staging does (R40, R442, R444) -/

section
variable (s : State) (p : Part) (r : Nat) (w : Word)

theorem stage_armed (h : s.manState p = 2) : (s.stage p r w).1 = s.stageRefuse p r := by
  unfold State.stage
  rw [if_pos h]

theorem stage_nsBad (h : s.manState .el ≠ 2) (hw : nsOk w = false) : (s.stage .el 0x1030 w).1 = s.log .el 0x02 0x1008 2 0x1030 := by
  unfold State.stage
  rw [if_neg h, hw]
  rfl

theorem stage_full (h : s.manState p ≠ 2) (hw : ¬ (p = .el ∧ r = 0x1030 ∧ nsOk w = false)) (hn : stagedAt (s.base p).staged r = none) (hc : stageCap p ≤ (s.base p).staged.length) :
    (s.stage p r w).1 = s.stageRefuse p r := by
  unfold State.stage
  rw [if_neg h, if_neg (by simpa [and_assoc] using hw)]
  dsimp only
  rw [if_pos (by simp [hn, hc])]

/-- The store with the merged word of a register. -/
def State.stagedInto (s : State) (p : Part) (r : Nat) (w : Word) : State :=
  (s.mod p (fun b => { b with staged := tins (terase b.staged r) r w })).put p Reg.MAN_STAT_STATE 1

theorem stage_taken (h : s.manState p ≠ 2) (hw : ¬ (p = .el ∧ r = 0x1030 ∧ nsOk w = false)) (hn : ¬ (stagedAt (s.base p).staged r = none ∧ stageCap p ≤ (s.base p).staged.length)) :
    (s.stage p r w).1 = s.stagedInto p r (stMerge p r (s.staged p r) (s.absentBits p r w)) := by
  unfold State.stage
  rw [if_neg h, if_neg (by simpa [and_assoc] using hw)]
  dsimp only
  rw [if_neg (by simpa using hn)]
  rfl

theorem goes_stageRefuse {i : Instr} (h : exec i s = .next ((s.stageRefuse p r).answer p 0 false)) : Goes i s (s.answer p 0 false) p [(unitMan p, 0x9003, r, r)] :=
  goes_of _ h (core_mod_congr (core_log ..) p _ (fun _ => rfl)) ((logged_log (unitMan p) 0x9003 r r rfl).congr (events_answer ..))

/-- The store of a part once a word is staged, and its answer given. -/
theorem table_stagedInto (d : Word) (e : Bool) : (((s.stagedInto p r w).answer p d e).base p).staged = tins (terase (s.base p).staged r) r w := by
  cases p <;> rfl

theorem reg_stagedInto (d : Word) (e : Bool) : RegsBut [(p, 0xB008)] s ((s.stagedInto p r w).answer p d e) := fun q o ho =>
  ((reg_answer ..).trans (regsBut_put _ p Reg.MAN_STAT_STATE 1 q o ho)).trans (reg_mod s p q _ o (by cases p <;> rfl))

theorem staged_stagedInto_same (d : Word) (e : Bool) : ((s.stagedInto p r w).answer p d e).staged p r = w := by
  unfold State.staged
  rw [table_stagedInto, stagedAt_replaced]

theorem staged_stagedInto_other (d : Word) (e : Bool) {q : Nat} (h : q ≠ r) :
    ((s.stagedInto p r w).answer p d e).staged p q = s.staged p q ∨ q = 0xB008 := by
  by_cases hq : q = 0xB008
  · exact .inr hq
  · unfold State.staged
    rw [table_stagedInto, stagedAt_tins_other _ _ h, stagedAt_terase_other _ h]
    rw [reg_stagedInto s p r w d e p q (by simpa using hq)]
    exact .inl rfl

theorem manState_stagedInto (d : Word) (e : Bool) : ((s.stagedInto p r w).answer p d e).manState p = 1 :=
  (get_of_reg (reg_answer ..)).trans (get_put_same _ _ _ _ (by decide) (by decide))

theorem events_stagedInto (d : Word) (e : Bool) : (((s.stagedInto p r w).answer p d e).base p).events = (s.base p).events :=
  ((events_answer ..).trans (events_put ..)).trans (events_mod s p p _ (fun _ => rfl))

end

/-- A failed access stages nothing. -/
theorem table_accessErr (s : State) (p : Part) (cause space o : Nat) (write : Bool) : ((s.accessErr p cause space o write).base p).staged = (s.base p).staged := by
  have hans (t : State) (d : Word) (e : Bool) : ((t.answer p d e).base p).staged = (t.base p).staged := by cases p <;> rfl
  have hset (t : State) (i : Nat) (w : Word) : ((t.setReg p i w).base p).staged = (t.base p).staged := by cases p <;> rfl
  have hlog (e : Nat) : ((s.log p (unitMan p) 0x9070 0 e).base p).staged = (s.base p).staged := by
    have hc : (s.log p (unitMan p) 0x9070 0 e).core = s.core := core_log ..
    cases p
    · exact congrArg (fun t => t.el.base.staged) hc
    · exact congrArg (fun t => t.ux.base.staged) hc
  refine (hans (s.errNoted p (errWord cause space o write)) _ true).trans ?_
  unfold State.errNoted
  split
  · exact hlog _
  · exact (hset ..).trans (hlog _)

/-! ### O55 -/

/-- Settles O55: a plain register's write is the staging of one word, which `stage` refuses or puts into the store. -/
theorem manifestStaging : Obligations.ManifestStaging := by
  unfold Obligations.ManifestStaging
  intro p off size v s
  refine ⟨fun hst => congrArg Host.Outcome.next (if_neg (by simp [hst])), fun hst hw => ?_, fun hplain hh hw => ?_⟩
  · have hx : exec (.stageWrite p off v size) s = .next (s.accessErr p (winSizeCause p off.toNat size) 0 off.toNat true) :=
      congrArg Host.Outcome.next ((if_pos hst).trans (if_pos hw))
    obtain ⟨u, hu, herr, hdata, -, hregs, hlog⟩ := ends_accessErr hx
    obtain rfl : s.accessErr p (winSizeCause p off.toNat size) 0 off.toNat true = u := Host.Outcome.next.inj (hx.symm.trans hu)
    exact ⟨_, hu, herr, hdata, table_accessErr .., hregs, hlog⟩
  · have hr : off.toNat - off.toNat % 8 ∈ plainSt p := by cases p <;> exact hplain
    have hx := stageWrite_plain v s hr hh hw
    generalize maskMerge (s.staged p (off.toNat - off.toNat % 8)) (writeWord size off.toNat v) (writeMask size off.toNat) = w at hx ⊢
    refine ⟨fun h2 => ?_, fun h2 hns => ?_, fun h2 hns hf => ?_, fun h2 hns hf => ?_⟩
    · rw [stage_armed s p _ _ h2] at hx
      exact goes_stageRefuse s p _ hx
    · obtain ⟨rfl, h1030, hok⟩ := hns
      rw [h1030] at hx
      rw [stage_nsBad s w h2 hok] at hx
      exact goes_of _ hx (core_mod_congr (core_log ..) .el _ (fun _ => rfl)) ((logged_log 0x02 0x1008 2 0x1030 rfl).congr (events_answer ..))
    · rw [stage_full s p _ _ h2 hns hf.1 hf.2] at hx
      exact goes_stageRefuse s p _ hx
    · rw [stage_taken s p _ _ h2 hns hf] at hx
      exact ⟨_, hx, staged_stagedInto_same .., fun q hq => staged_stagedInto_other s p _ _ 0 false hq, manState_stagedInto .., reg_stagedInto s p _ _ 0 false, logged_nil (events_stagedInto ..)⟩

end Sys2Proof.Machine

/-! REFUTATION. The manifest unit (R450): the end of a disabled unit's work may let a held step start begin, which a licence without bounds turns on a channel's own registers. -/

namespace Sys2Proof.Machine

set_option Elab.async false

/-- A DRAINING die with MOVE disabled: channel 0 runs a descriptor of a host start, the last queued operation is a DMAGO no channel runs, and a step start is held. Its licence has 121 streams, where R2 ends at 64: the registers of stream 120 (R276) lie at DMA_STAT of channel 0. -/
def moveDisabled : State :=
  let s := ((((State.reset.put .el Reg.SEQ_STAT_STATE 4).put .el (Reg.DMA_STAT_STATE 0) 1).put .el Reg.SEQ_RUNCFG_LSI_VALID 1).put .el Reg.MAN_UNITEN_EN 0).modSeq .el (fun q => { q with heldStarts := [0] })
  s.modEl (fun e => { e with
    lic := { e.lic with streams := 121 }
    dma := [(0, { Dma.zero with fetched := true })]
    base := { e.base with qops := [{ id := 4, queue := .move, kind := .dmago 0 1, pc := 0, core := 0, k := 0, amt := 0, entries := 0, started := false }] } })

/-- The time-out ends the operation, the drain and with it the wait of the held start, which sets every stream afresh before the channels are reached. -/
theorem moveDisabled_drained : (moveDisabled.after (exec (.unitDrainTimeout 4) moveDisabled)).get .el (Reg.DMA_STAT_STATE 0) ≠ 2 := by decide +kernel

/-- Refutes O56: a RUNNING channel of a disabled MOVE unit need not go on to its last request. The operation that ends beside it may be the last of a drain, and the held step start that begins then writes the registers of every stream of the licence. -/
theorem not_manifestUnit : ¬ Obligations.ManifestUnit := by
  unfold Obligations.ManifestUnit
  intro h
  obtain ⟨-, -, -, -, -, -, -, -, -, -, -, -, -, -, -, -, -, -, -, -, -, -, -, -, -, -, -, hends⟩ := h .el 0 0 0 0 0 0 none 4 0 { passes := 0, fails := 0, firstFail := none, waiting := [] } { target := 0, waitFor := [], ready := [], need := [], assigned := [], leaving := 0, tc := none } moveDisabled
  obtain ⟨u, hu, -, -, hchannel⟩ := hends (by decide +kernel)
  have hlast := (hchannel rfl (by decide +kernel) (by decide +kernel) (by decide +kernel)).1
  have hdrained := moveDisabled_drained
  rw [hu] at hdrained
  exact hdrained hlast

end Sys2Proof.Machine

/-! SUPPORT. A free guard takes a trigger (R422, R426, R430). -/

namespace Sys2Proof.Machine

set_option Elab.async false

theorem reg_guardSeq (t : State) (p q : Part) (f : Guard → Guard) (g : Seq → Seq) (o : Nat) : ((t.modGuard p f).modSeq p g).reg q o = t.reg q o := by cases p <;> cases q <;> rfl

theorem stopIssue_guardSeq (t : State) (p : Part) (f : Guard → Guard) : (((t.modGuard p f).modSeq p (fun q => { q with stopIssue := true })).seq p).stopIssue = true := by cases p <;> rfl

section
variable (s : State) (p : Part) (code unit first : Nat)

/-- The fields of GUARD_STAT a trigger writes before its dump begins. -/
theorem guardTaken_stat (hc : code < 16) : (s.guardTaken p code unit first).get p Reg.GUARD_STAT_ACTIVE = 1 ∧ (s.guardTaken p code unit first).get p Reg.GUARD_STAT_TRIGGER = code
    ∧ (s.guardTaken p code unit first).get p Reg.GUARD_STAT_UNIT = unit % 256 ∧ (s.guardTaken p code unit first).get p Reg.GUARD_STAT_STAGE = 0
    ∧ RegsBut [(p, Reg.GUARD_STAT_ACTIVE.off)] s (s.guardTaken p code unit first) ∧ ((s.guardTaken p code unit first).seq p).stopIssue = true := by
  obtain ⟨a, ha⟩ : ∃ a, s.put p Reg.GUARD_STAT_ACTIVE 1 = a := ⟨_, rfl⟩
  obtain ⟨b, hb⟩ : ∃ b, a.put p Reg.GUARD_STAT_TRIGGER code = b := ⟨_, rfl⟩
  obtain ⟨c, hc'⟩ : ∃ c, b.put p Reg.GUARD_STAT_UNIT unit = c := ⟨_, rfl⟩
  have hget (f : Fld) : (s.guardTaken p code unit first).get p f = (c.put p Reg.GUARD_STAT_STAGE 0).get p f := by
    subst hc' hb ha
    unfold State.guardTaken
    exact get_of_reg (reg_guardSeq ..)
  have ha1 : a.get p Reg.GUARD_STAT_ACTIVE = 1 := by
    rw [← ha]
    exact get_put_same s p _ 1 (by decide) (by decide)
  have hb1 : b.get p Reg.GUARD_STAT_TRIGGER = code := by
    rw [← hb]
    exact (get_put_same a p _ code (by decide) (by decide)).trans (Nat.mod_eq_of_lt hc)
  have hc1 : c.get p Reg.GUARD_STAT_UNIT = unit % 256 := by
    rw [← hc']
    exact get_put_same b p _ unit (by decide) (by decide)
  have hbo : b.get p Reg.GUARD_STAT_ACTIVE = 1 := by
    rw [← hb]
    exact (get_put_other a p Reg.GUARD_STAT_TRIGGER _ code (by decide) (by decide) (by decide) (by decide)).trans ha1
  have hco (f : Fld) (hf : f.hi < 64) (hd : f.hi < 24 ∨ 31 < f.lo) : c.get p f = b.get p f := by
    rw [← hc']
    exact get_put_other b p Reg.GUARD_STAT_UNIT f unit (by decide) (by decide) hf (.inr hd)
  have hdo (f : Fld) (hf : f.hi < 64) (hd : f.hi < 18 ∨ 19 < f.lo) : (c.put p Reg.GUARD_STAT_STAGE 0).get p f = c.get p f :=
    get_put_other c p Reg.GUARD_STAT_STAGE f 0 (by decide) (by decide) hf (.inr hd)
  refine ⟨?_, ?_, ?_, ?_, fun q o ho => ?_, ?_⟩
  · rw [hget, hdo _ (by decide) (by decide), hco _ (by decide) (by decide), hbo]
  · rw [hget, hdo _ (by decide) (by decide), hco _ (by decide) (by decide), hb1]
  · rw [hget, hdo _ (by decide) (by decide), hc1]
  · rw [hget, get_put_same c p _ 0 (by decide) (by decide)]
    rfl
  · have hall : RegsBut [(p, Reg.GUARD_STAT_ACTIVE.off)] s (c.put p Reg.GUARD_STAT_STAGE 0) := by
      rw [← hc', ← hb, ← ha]
      exact (((regsBut_put s p Reg.GUARD_STAT_ACTIVE 1).put p Reg.GUARD_STAT_TRIGGER code (List.mem_singleton_self _)).put p Reg.GUARD_STAT_UNIT unit (List.mem_singleton_self _)).put p Reg.GUARD_STAT_STAGE 0 (List.mem_singleton_self _)
    refine Eq.trans ?_ (hall q o ho)
    subst hc' hb ha
    unfold State.guardTaken
    exact reg_guardSeq ..
  · unfold State.guardTaken
    exact stopIssue_guardSeq ..

/-- What a trigger a free guard takes leaves besides its own: the PLLs, and all registers but GUARD_STAT. -/
structure Trips (s : State) (p : Part) (code unit first : Nat) (u : State) : Prop where
  triggered : u.triggered p code unit first
  regs      : RegsBut [(p, Reg.GUARD_STAT_ACTIVE.off)] s u
  pll       : (u.base p).pll = (s.base p).pll

theorem pll_of_core {s t : State} (h : t.core = s.core) (p : Part) : (t.base p).pll = (s.base p).pll := by
  have hs : ∀ u : State, (u.core.base p).pll = (u.base p).pll := fun u => by cases p <;> rfl
  rw [← hs, h, hs]

theorem pll_guardTaken : ((s.guardTaken p code unit first).base p).pll = (s.base p).pll := by cases p <;> rfl

/-- A dump that begins changes GUARD_STAT and the guard's dump. -/
theorem guardDump_starts (v : State) (hd : v.bit p Reg.GUARD_STAT_DUMP_VALID = false ∨ v.bit p Reg.GUARD_CTRL_DUMP_OVERWRITE = true) : ∃ dump : Dump,
    v.guardDump p code unit = (({ v with draws := v.draws + 1 } : State).put p Reg.GUARD_STAT_DUMP_BUSY 1).modGuard p (fun g => { g with dump := some dump })
      ∧ dump.trigger = code ∧ dump.unit = unit ∧ dump.bad = [] ∧ dump.done = false :=
  ⟨_, if_neg (by rcases hd with hd | hd <;> simp [hd]), rfl, rfl, rfl, rfl⟩

theorem guardTrigger_trips (ran : Bool) (hf : s.guardFree p) (hc : code < 16) : Trips s p code unit first (s.guardTrigger p code unit first ran) := by
  obtain ⟨hg, hd⟩ := hf
  obtain ⟨t, ht⟩ : ∃ t, s.guardTaken p code unit first = t := ⟨_, rfl⟩
  obtain ⟨hact, htrig, hunit, hstage, hregs, hstop⟩ := guardTaken_stat s p code unit first hc
  have hvalid := (guardTaken_reads s p code unit first hc).2
  have hguard := guard_guardTaken s p code unit first
  have hpll := pll_guardTaken s p code unit first
  rw [ht] at hact htrig hunit hstage hregs hstop hvalid hguard hpll
  obtain ⟨v, hv⟩ : ∃ v, (if p == .el && (ran || t.seqState p == 3 || t.seqState p == 4) then t.guardFail else t) = v := ⟨_, rfl⟩
  have hcore : v.core = t.core := by
    rw [← hv]
    split
    · exact core_guardFail t
    · rfl
  have hget : ∀ f, v.get p f = t.get p f := fun f => get_of_reg (reg_of_core hcore p f.off)
  have hover : v.bit p Reg.GUARD_CTRL_DUMP_OVERWRITE = s.bit p Reg.GUARD_CTRL_DUMP_OVERWRITE :=
    (congrArg (· != 0) (hget _)).trans (hregs.bit_eq p _ (by simp [Reg.GUARD_CTRL_DUMP_OVERWRITE, Reg.GUARD_STAT_ACTIVE]))
  have hval : v.bit p Reg.GUARD_STAT_DUMP_VALID = s.bit p Reg.GUARD_STAT_DUMP_VALID := (congrArg (· != 0) (hget _)).trans hvalid
  obtain ⟨dump, hdump, h1, h2, h3, h4⟩ := guardDump_starts p code unit v (by rw [hval, hover]; exact hd)
  have hu : s.guardTrigger p code unit first ran = v.guardDump p code unit := by
    rw [guardTrigger_of_free code unit first ran hg, ht, ← hv]
  obtain ⟨w, hw⟩ : ∃ w : State, { v with draws := v.draws + 1 } = w := ⟨_, rfl⟩
  have hwreg : ∀ q o, w.reg q o = v.reg q o := fun q o => by
    rw [← hw]
    cases q <;> rfl
  have hwget : ∀ f, w.get p f = t.get p f := fun f => (get_of_reg (hwreg ..)).trans (hget f)
  have hreg : ∀ q o, (s.guardTrigger p code unit first ran).reg q o = (w.put p Reg.GUARD_STAT_DUMP_BUSY 1).reg q o := fun q o => by
    rw [hu, hdump, hw]
    cases p <;> cases q <;> rfl
  have hother (f : Fld) (hf : f.hi < 64) (hd : f.hi < 4 ∨ 4 < f.lo) : (s.guardTrigger p code unit first ran).get p f = t.get p f :=
    ((get_of_reg (hreg ..)).trans (get_put_other w p Reg.GUARD_STAT_DUMP_BUSY f 1 (by decide) (by decide) hf (.inr hd))).trans (hwget f)
  have hguards : (s.guardTrigger p code unit first ran).guard p = { t.guard p with dump := some dump } := by
    rw [hu, hdump, hw, guard_modGuard, guard_put, ← guard_of_core hcore p, ← hw]
    cases p <;> rfl
  have hseq : ((s.guardTrigger p code unit first ran).seq p) = t.seq p := by
    rw [hu, hdump, ← seq_of_core hcore p]
    cases p <;> rfl
  refine ⟨⟨bit_of_get ((hother _ (by decide) (by decide)).trans hact), (hother _ (by decide) (by decide)).trans htrig, (hother _ (by decide) (by decide)).trans hunit,
    (hother _ (by decide) (by decide)).trans hstage, bit_of_get ((get_of_reg (hreg ..)).trans (get_put_same w p _ 1 (by decide) (by decide))), ?_, ?_, ?_, ?_, ?_⟩, fun q o ho => ?_, ?_⟩
  · rw [hguards, hguard]
  · rw [hguards, hguard]
  · rw [hguards, hguard]
  · rw [hguards]
    exact decide_eq_true ⟨h1, h2, h3, h4⟩
  · rw [hseq, hstop]
  · rw [hreg]
    exact (((regsBut_put w p Reg.GUARD_STAT_DUMP_BUSY 1) q o ho).trans ((hwreg q o).trans (reg_of_core hcore q o))).trans (hregs q o ho)
  · rw [hu, hdump, ← hpll, ← pll_of_core hcore p]
    cases p <;> rfl

end

end Sys2Proof.Machine

/-! SUPPORT. Clocks (R403 to R412): the switch of the PLL pair, its loss, a stretch with its fords, and the throttle input. -/

namespace Sys2Proof.Machine

set_option Elab.async false

/-! ### The switch to the standby PLL (R404) -/

/-- PLL_SEL lies in the same field of either part's CLK_STAT, and so does PLL_FAIL (R435, R436). -/
def selFld : Fld := Reg.CLK_STAT_PLL_SEL

theorem ux_selFld : Reg.UX_CLK_STAT_PLL_SEL = selFld := rfl

/-- A sequencer's region may slip by one period: only the slips may have changed. -/
structure Slipped (p : Part) (s t : State) : Prop where
  regs   : RegsBut [(p, Reg.SEQ_SLIPS_STEP.off)] s t
  pll    : (t.base p).pll = (s.base p).pll
  events : (t.base p).events = (s.base p).events

section
variable (s : State) (p : Part)

theorem slipped_slip (n : Nat) : Slipped p s (s.slip p n) where
  regs := ((regsBut_put s p Reg.SEQ_SLIPS_STEP _).put p Reg.SEQ_SLIPS_SEGMENT _ (List.mem_singleton_self _))
  pll := by cases p <;> rfl
  events := (events_put ..).trans (events_put ..)

theorem slipped_draw : Slipped p s s.draw.2 where
  regs := fun q o _ => reg_draw s q o
  pll := by cases p <;> rfl
  events := by cases p <;> rfl

theorem Slipped.trans {s t u : State} {p : Part} (h : Slipped p s t) (k : Slipped p t u) : Slipped p s u :=
  ⟨h.regs.trans k.regs, k.pll.trans h.pll, k.events.trans h.events⟩

/-- Whether the region of a RUNNING sequencer slips is free (R139). -/
def State.slipFree : State :=
  if s.seqState p == 3 then (if s.draw.1.toNat % 2 = 1 then s.draw.2.slip p 1 else s.draw.2) else s

theorem slipped_slipFree : Slipped p s (s.slipFree p) := by
  unfold State.slipFree
  split
  · split
    · exact (slipped_draw s p).trans (slipped_slip s.draw.2 p 1)
    · exact slipped_draw s p
  · exact ⟨fun _ _ _ => rfl, rfl, rfl⟩

/-- CLK_STAT and the pair after a switch, before any slip. -/
def State.pllSwapped (ok : Bool) : State :=
  (match p with
    | .el => (s.put .el selFld (1 - s.get .el selFld)).put .el Reg.CLK_STAT_FMUL_CUR s.el.base.pll.standbyMul
    | .ux => s.put .ux selFld (1 - s.get .ux selFld)).modPll p (fun q => { q with activeLocked := true, standbyLocked := ok, relocking := false })

theorem pllSwitch_eq (ok : Bool) : s.pllSwitch p ok = (s.pllSwapped p ok).slipFree p := by cases p <;> rfl

theorem pllSwapped_reads (ok : Bool) : RegsBut [(p, 0xA018)] s (s.pllSwapped p ok) ∧ (s.pllSwapped p ok).get p selFld = 1 - s.get p selFld
    ∧ (p = .el → (s.pllSwapped p ok).get .el Reg.CLK_STAT_FMUL_CUR = s.el.base.pll.standbyMul % 512) ∧ (s.pllSwapped p ok).get p Reg.CLK_STAT_PLL_FAIL = s.get p Reg.CLK_STAT_PLL_FAIL
    ∧ ((s.pllSwapped p ok).base p).pll = { (s.base p).pll with activeLocked := true, standbyLocked := ok, relocking := false }
    ∧ ((s.pllSwapped p ok).base p).events = (s.base p).events := by
  have hsel : (s.put p selFld (1 - s.get p selFld)).get p selFld = 1 - s.get p selFld :=
    (get_put_same s p selFld _ (by decide) (by decide)).trans (Nat.mod_eq_of_lt (lt_of_le_of_lt (Nat.sub_le ..) (by decide)))
  have hfail : (s.put p selFld (1 - s.get p selFld)).get p Reg.CLK_STAT_PLL_FAIL = s.get p Reg.CLK_STAT_PLL_FAIL := get_put_other _ _ _ _ _ (by decide) (by decide) (by decide) (by decide)
  cases p
  · obtain ⟨t, ht⟩ : ∃ t, s.put .el selFld (1 - s.get .el selFld) = t := ⟨_, rfl⟩
    have hmod (f : Fld) : (s.pllSwapped .el ok).get .el f = (t.put .el Reg.CLK_STAT_FMUL_CUR s.el.base.pll.standbyMul).get .el f := by
      rw [← ht]
      rfl
    rw [ht] at hsel hfail
    refine ⟨fun q o ho => (reg_mod _ .el q _ o rfl).trans (((regsBut_put s .el selFld _).put .el Reg.CLK_STAT_FMUL_CUR _ (List.mem_singleton_self _)) q o ho), ?_, fun _ => ?_, ?_, rfl, rfl⟩
    · exact (hmod _).trans ((get_put_other t .el Reg.CLK_STAT_FMUL_CUR selFld _ (by decide) (by decide) (by decide) (by decide)).trans hsel)
    · exact (hmod _).trans (get_put_same t .el Reg.CLK_STAT_FMUL_CUR _ (by decide) (by decide))
    · exact (hmod _).trans ((get_put_other t .el Reg.CLK_STAT_FMUL_CUR Reg.CLK_STAT_PLL_FAIL _ (by decide) (by decide) (by decide) (by decide)).trans hfail)
  · exact ⟨fun q o ho => (reg_mod _ .ux q _ o rfl).trans (regsBut_put s .ux selFld _ q o ho), hsel, fun h => absurd h (by decide), hfail, rfl, rfl⟩

/-- What a switch of the PLL pair shows (R404). -/
structure Switched (p : Part) (s t : State) (ok : Bool) : Prop where
  regs   : RegsBut [(p, 0xA018), (p, Reg.SEQ_SLIPS_STEP.off)] s t
  sel    : t.get p selFld = 1 - s.get p selFld
  mul    : p = .el → t.get .el Reg.CLK_STAT_FMUL_CUR = s.el.base.pll.standbyMul % 512
  fail   : t.get p Reg.CLK_STAT_PLL_FAIL = s.get p Reg.CLK_STAT_PLL_FAIL
  pll    : (t.base p).pll = { (s.base p).pll with activeLocked := true, standbyLocked := ok, relocking := false }
  events : (t.base p).events = (s.base p).events

theorem switched_pllSwitch (ok : Bool) : Switched p s (s.pllSwitch p ok) ok := by
  obtain ⟨hregs, hsel, hmul, hfail, hpll, hev⟩ := pllSwapped_reads s p ok
  have hslip := slipped_slipFree (s.pllSwapped p ok) p
  have hstat : ∀ q f, f.off = 0xA018 → ((s.pllSwapped p ok).slipFree p).get q f = (s.pllSwapped p ok).get q f := fun q f hf =>
    hslip.regs.get_eq q f (by rw [hf]; simp [Reg.SEQ_SLIPS_STEP])
  rw [pllSwitch_eq]
  refine ⟨fun q o ho => ?_, (hstat _ _ rfl).trans hsel, fun h => (hstat _ _ rfl).trans (hmul h), (hstat _ _ rfl).trans hfail, hslip.pll.trans hpll, hslip.events.trans hev⟩
  simp only [List.mem_cons, List.not_mem_nil, or_false, not_or] at ho
  exact (hslip.regs q o (by simpa using ho.2)).trans (hregs q o (by simpa using ho.1))

end

/-- A switch waits for a relocked standby PLL and a tick with FRC[21:16] = 0; with the PLLs stopped nothing switches (R404). -/
theorem fclkSwitch_idle {s : State} {p : Part} (h : (p = .el ∧ s.fclkStopped = true) ∨ (s.base p).pll.relocking = false ∨ s.tick p % 64 ≠ 0) : exec (.fclkSwitch p) s = .next s := by
  refine congrArg Host.Outcome.next (if_neg ?_)
  rcases h with ⟨rfl, h⟩ | h | h <;> simp [h]

theorem notStopped_eq {s : State} {p : Part} (h : ¬ (p = .el ∧ s.fclkStopped = true)) : (p == .el && s.fclkStopped) = false := by
  cases p
  · simpa using h
  · rfl

/-- FCLK_SWITCH logs the PLL in use and the multiplier (R404). -/
theorem fclkSwitch_switches {s : State} {p : Part} (h : ¬ (p = .el ∧ s.fclkStopped = true)) (hr : (s.base p).pll.relocking = true) (ht : s.tick p % 64 = 0) :
    exec (.fclkSwitch p) s = .next ((s.pllSwitch p true).log p (unitClk p) 0x8001 ((s.pllSwitch p true).get p selFld)
      (match p with | .el => (s.pllSwitch p true).get .el Reg.CLK_STAT_FMUL_CUR | .ux => (s.pllSwitch p true).get .ux Reg.UX_CLK_CTRL_CMUL)) := by
  have hc : ((s.base p).pll.relocking && s.tick p % 64 == 0 && !(p == .el && s.fclkStopped)) = true := by rw [hr, ht, notStopped_eq h]; rfl
  refine congrArg Host.Outcome.next ((if_pos hc).trans ?_)
  cases p <;> rfl

/-! ### FMUL_EFF and the throttle input (R403, R404) -/

/-- What FMUL_EFF `f` makes of a pair whose active PLL runs at `cur`. -/
def Pll.aim (q : Pll) (f cur : Nat) : Pll :=
  if f = cur then (if q.relocking then { q with relocking := false, standbyMul := f, standbyLocked := true } else q)
  else if q.relocking && q.standbyMul == f then q
  else { q with relocking := true, standbyMul := f, standbyLocked := false }

theorem aim_reads (q : Pll) (f cur : Nat) : (q.aim f cur).activeLocked = q.activeLocked ∧ (f ≠ cur → (q.aim f cur).relocking = true ∧ (q.aim f cur).standbyMul = f)
    ∧ (f = cur → (q.aim f cur).relocking = false) ∧ (q.standbyLocked = false → q.relocking = false → (q.aim f cur).standbyLocked = false) := by
  unfold Pll.aim
  by_cases h : f = cur
  · simp only [h, if_true]
    cases hr : q.relocking <;> simp [hr]
  · simp only [if_neg h]
    by_cases hr : (q.relocking && q.standbyMul == f) = true
    · rw [if_pos hr]
      rw [Bool.and_eq_true, beq_iff_eq] at hr
      exact ⟨rfl, fun _ => hr, fun e => absurd e h, fun hs _ => hs⟩
    · rw [if_neg hr]
      exact ⟨rfl, fun _ => ⟨rfl, rfl⟩, fun e => absurd e h, fun _ _ => rfl⟩

section
variable (s : State)

/-- CLK_STAT shows whether the part is throttled. -/
def State.throttleShown : State := s.put .el Reg.CLK_STAT_THROTTLE (if s.throttled then 1 else 0)

theorem throttleShown_cur : s.throttleShown.get .el Reg.CLK_STAT_FMUL_CUR = s.get .el Reg.CLK_STAT_FMUL_CUR := get_put_other _ _ _ _ _ (by decide) (by decide) (by decide) (by decide)

theorem fmulFollow_eq : s.fmulFollow = s.throttleShown.modPll .el (fun q => q.aim s.fmulEff (s.get .el Reg.CLK_STAT_FMUL_CUR)) := by
  have haim : ∀ q, s.el.base.pll.aim s.fmulEff (s.get .el Reg.CLK_STAT_FMUL_CUR) = q →
      s.throttleShown.modPll .el (fun q => q.aim s.fmulEff (s.get .el Reg.CLK_STAT_FMUL_CUR)) = s.throttleShown.modPll .el (fun _ => q) := by
    rintro q rfl
    rfl
  change (if s.fmulEff = s.throttleShown.get .el Reg.CLK_STAT_FMUL_CUR then
      (if s.el.base.pll.relocking then s.throttleShown.modPll .el (fun q => { q with relocking := false, standbyMul := s.fmulEff, standbyLocked := true }) else s.throttleShown)
    else if s.el.base.pll.relocking && s.el.base.pll.standbyMul == s.fmulEff then s.throttleShown
    else s.throttleShown.modPll .el (fun q => { q with relocking := true, standbyMul := s.fmulEff, standbyLocked := false })) = _
  rw [throttleShown_cur]
  unfold Pll.aim at haim
  split
  · next h =>
    split
    · next hr => exact (haim _ (by rw [if_pos h, if_pos hr]; rfl)).symm
    · next hr => exact (haim _ (by rw [if_pos h, if_neg hr]; rfl)).symm
  · next h =>
    split
    · next hr => exact (haim _ (by rw [if_neg h, if_pos hr]; rfl)).symm
    · next hr => exact (haim _ (by rw [if_neg h, if_neg hr]; rfl)).symm

theorem fmulFollow_regs : RegsBut [(.el, 0xA018)] s s.fmulFollow := fun q o ho => by
  rw [fmulFollow_eq]
  exact (reg_mod _ .el q _ o rfl).trans (regsBut_put s .el Reg.CLK_STAT_THROTTLE _ q o ho)

theorem fmulFollow_get (f : Fld) (hf : f.hi < 64) (hd : f.off ≠ 0xA018 ∨ f.hi < 4 ∨ 4 < f.lo) : s.fmulFollow.get .el f = s.get .el f := by
  rw [fmulFollow_eq]
  exact get_put_other s .el Reg.CLK_STAT_THROTTLE f _ (by decide) (by decide) hf hd

theorem fmulFollow_throttle : s.fmulFollow.get .el Reg.CLK_STAT_THROTTLE = if s.throttled then 1 else 0 := by
  rw [fmulFollow_eq]
  refine (get_put_same s .el Reg.CLK_STAT_THROTTLE _ (by decide) (by decide)).trans ?_
  split <;> rfl

theorem fmulFollow_pll : s.fmulFollow.el.base.pll = s.el.base.pll.aim s.fmulEff (s.get .el Reg.CLK_STAT_FMUL_CUR) := by
  rw [fmulFollow_eq]
  rfl

theorem fmulFollow_events : s.fmulFollow.el.base.events = s.el.base.events := by
  rw [fmulFollow_eq]
  rfl

theorem fmulFollow_ports : s.fmulFollow.el.ports = s.el.ports := by
  rw [fmulFollow_eq]
  rfl

theorem fmulEff_congr {s t : State} (hp : t.el.ports = s.el.ports) (hc : t.reg .el 0xA010 = s.reg .el 0xA010) (hh : t.reg .el 0x3040 = s.reg .el 0x3040) : t.fmulEff = s.fmulEff ∧ t.throttled = s.throttled := by
  have h1 (f : Fld) (hf : f.off = 0xA010) : t.get .el f = s.get .el f := get_of_reg (by rw [hf]; exact hc)
  have hthr : t.throttled = s.throttled := by
    unfold State.throttled State.bit
    rw [hp, h1 Reg.CLK_CTRL_THR_EN rfl]
  have hsteps : t.get .el Reg.HC_STAT_FSTEPS = s.get .el Reg.HC_STAT_FSTEPS := get_of_reg hh
  refine ⟨?_, hthr⟩
  unfold State.fmulEff
  rw [hthr, h1 Reg.CLK_CTRL_FMUL_RUN rfl, h1 Reg.CLK_CTRL_FSTEP rfl, h1 Reg.CLK_CTRL_FMUL_THR rfl, hsteps]

/-- The throttle input limits FMUL_EFF where it is enabled, and the standby PLL follows it (R403, R404). -/
theorem throttleChange_ends (level : Bool) : Ends (.throttleChange level) s (fun u =>
    u.el.ports.throttle = level ∧ (u.bit .el Reg.CLK_STAT_THROTTLE = true ↔ level = true ∧ s.bit .el Reg.CLK_CTRL_THR_EN = true)
      ∧ (level = true ∧ s.bit .el Reg.CLK_CTRL_THR_EN = true → u.fmulEff = min (max 25 (s.get .el Reg.CLK_CTRL_FMUL_RUN - s.get .el Reg.CLK_CTRL_FSTEP * s.get .el Reg.HC_STAT_FSTEPS)) (s.get .el Reg.CLK_CTRL_FMUL_THR))
      ∧ (¬ (level = true ∧ s.bit .el Reg.CLK_CTRL_THR_EN = true) → u.fmulEff = max 25 (s.get .el Reg.CLK_CTRL_FMUL_RUN - s.get .el Reg.CLK_CTRL_FSTEP * s.get .el Reg.HC_STAT_FSTEPS))
      ∧ (u.fmulEff ≠ s.get .el Reg.CLK_STAT_FMUL_CUR → u.el.base.pll.relocking = true ∧ u.el.base.pll.standbyMul = u.fmulEff)
      ∧ (u.fmulEff = s.get .el Reg.CLK_STAT_FMUL_CUR → u.el.base.pll.relocking = false) ∧ RegsBut [(.el, 0xA018)] s u ∧ Logged .el s u []) := by
  obtain ⟨t, ht⟩ : ∃ t, s.modEl (fun e => { e with ports := { e.ports with throttle := level } }) = t := ⟨_, rfl⟩
  have hx : exec (.throttleChange level) s = .next t.fmulFollow := by
    rw [← ht]
    rfl
  have hreg : ∀ q o, t.reg q o = s.reg q o := fun q o => by
    rw [← ht]
    cases q <;> rfl
  have hget : ∀ f, t.get .el f = s.get .el f := fun f => get_of_reg (hreg ..)
  have hlevel : t.el.ports.throttle = level := by
    rw [← ht]
    rfl
  have hev : t.el.base.events = s.el.base.events := by
    rw [← ht]
    rfl
  obtain ⟨heff, -⟩ := fmulEff_congr (fmulFollow_ports t) (fmulFollow_regs t .el 0xA010 (by decide)) (fmulFollow_regs t .el 0x3040 (by decide))
  obtain ⟨-, hfar, hnear, -⟩ := aim_reads t.el.base.pll t.fmulEff (t.get .el Reg.CLK_STAT_FMUL_CUR)
  have hon : t.throttled = true ↔ level = true ∧ s.bit .el Reg.CLK_CTRL_THR_EN = true := by
    unfold State.throttled State.bit
    rw [hlevel, hget, Bool.and_eq_true]
  have hval : t.fmulEff = if t.throttled then min (max 25 (s.get .el Reg.CLK_CTRL_FMUL_RUN - s.get .el Reg.CLK_CTRL_FSTEP * s.get .el Reg.HC_STAT_FSTEPS)) (s.get .el Reg.CLK_CTRL_FMUL_THR)
      else max 25 (s.get .el Reg.CLK_CTRL_FMUL_RUN - s.get .el Reg.CLK_CTRL_FSTEP * s.get .el Reg.HC_STAT_FSTEPS) := by
    unfold State.fmulEff
    rw [hget, hget, hget, hget]
  rw [hget] at hfar hnear
  refine ⟨_, hx, (congrArg Ports.throttle (fmulFollow_ports t)).trans hlevel, ?_, fun h => ?_, fun h => ?_, fun h => ?_, fun h => ?_, fun q o ho => (fmulFollow_regs t q o ho).trans (hreg q o),
    logged_nil ((fmulFollow_events t).trans hev)⟩
  · rw [← hon]
    unfold State.bit
    rw [fmulFollow_throttle]
    cases t.throttled <;> decide
  · rw [heff, hval, if_pos (hon.mpr h)]
  · rw [heff, hval, if_neg (fun e => h (hon.mp e))]
  · rw [heff] at h ⊢
    rw [fmulFollow_pll, hget]
    exact hfar h
  · rw [heff] at h
    rw [fmulFollow_pll, hget]
    exact hnear h

end

/-! ### The loss of the active PLL (R405, R468) -/

/-- A lost active PLL shows PLL_FAIL and 0x8002, and the standby PLL takes over (R405). -/
structure TookOver (p : Part) (s u : State) : Prop where
  sel    : u.get p selFld = 1 - s.get p selFld
  active : (u.base p).pll.activeLocked = true
  regs   : RegsBut [(p, 0xA018), (p, Reg.SEQ_SLIPS_STEP.off)] s u
  fail   : u.bit p Reg.CLK_STAT_PLL_FAIL = true
  alone  : (u.base p).pll.standbyLocked = false
  logged : Logged p s u [(unitClk p, 0x8002, s.get p selFld, s.get p selFld)]

section
variable (s : State) (p : Part)

/-- A failover before FMUL_EFF is followed. -/
def State.failSwitched : State := ((s.put p Reg.CLK_STAT_PLL_FAIL 1).log p (unitClk p) 0x8002 (s.get p selFld) (s.get p selFld)).pllSwitch p false

theorem pllFailover_eq : s.pllFailover p = match p with | .el => (s.failSwitched .el).fmulFollow | .ux => s.failSwitched .ux := by cases p <;> rfl

theorem failSwitched_takes : TookOver p s (s.failSwitched p) ∧ ((s.failSwitched p).base p).pll.relocking = false := by
  obtain ⟨a, ha⟩ : ∃ a, s.put p Reg.CLK_STAT_PLL_FAIL 1 = a := ⟨_, rfl⟩
  obtain ⟨b, hb⟩ : ∃ b, a.log p (unitClk p) 0x8002 (s.get p selFld) (s.get p selFld) = b := ⟨_, rfl⟩
  have hcore : b.core = a.core := by
    rw [← hb]
    exact core_log ..
  have hreg : ∀ q o, b.reg q o = a.reg q o := reg_of_core hcore
  have hlog : Logged p s b [(unitClk p, 0x8002, s.get p selFld, s.get p selFld)] := by
    rw [← hb]
    refine logged_log _ _ _ _ ?_
    rw [← ha]
    exact events_put ..
  have hfail : b.get p Reg.CLK_STAT_PLL_FAIL = 1 := by
    refine (get_of_reg (hreg ..)).trans ?_
    rw [← ha]
    exact get_put_same s p _ 1 (by decide) (by decide)
  have hsel : b.get p selFld = s.get p selFld := by
    refine (get_of_reg (hreg ..)).trans ?_
    rw [← ha]
    exact get_put_other s p Reg.CLK_STAT_PLL_FAIL selFld 1 (by decide) (by decide) (by decide) (by decide)
  have hsw := switched_pllSwitch b p false
  have hu : s.failSwitched p = b.pllSwitch p false := by rw [← hb, ← ha]; rfl
  rw [hu]
  refine ⟨⟨by rw [hsw.sel, hsel], by rw [hsw.pll], fun q o ho => (hsw.regs q o ho).trans ((hreg q o).trans ?_), bit_of_get (hsw.fail.trans hfail), by rw [hsw.pll], hlog.congr hsw.events⟩, by rw [hsw.pll]⟩
  rw [← ha]
  exact regsBut_put s p Reg.CLK_STAT_PLL_FAIL 1 q o (fun h => ho (List.mem_cons.mpr (.inl (List.mem_singleton.mp h))))

theorem pllFailover_takes : TookOver p s (s.pllFailover p) := by
  obtain ⟨hk, hr⟩ := failSwitched_takes s p
  rw [pllFailover_eq]
  cases p
  · generalize s.failSwitched .el = t at hk hr
    obtain ⟨hact, -, -, halone⟩ := aim_reads t.el.base.pll t.fmulEff (t.get .el Reg.CLK_STAT_FMUL_CUR)
    refine ⟨(fmulFollow_get t _ (by decide) (by decide)).trans hk.sel, ?_, fun q o ho => (fmulFollow_regs t q o ?_).trans (hk.regs q o ho), ?_, ?_, hk.logged.congr (fmulFollow_events t)⟩
    · exact ((congrArg Pll.activeLocked (fmulFollow_pll t)).trans hact).trans hk.active
    · simp only [List.mem_cons, List.not_mem_nil, or_false, not_or] at ho ⊢
      exact ho.1
    · unfold State.bit
      rw [fmulFollow_get t _ (by decide) (by decide)]
      exact hk.fail
    · exact (congrArg Pll.standbyLocked (fmulFollow_pll t)).trans (halone hk.alone hr)
  · exact hk

/-- Without a standby PLL the guard takes FCLK_LOSS (R405, R412). -/
theorem fclkLost_trips (hf : s.guardFree p) : (s.fclkLost p).triggered p 6 0 3 ∧ ((s.fclkLost p).base p).pll.activeLocked = false := by
  obtain ⟨t, ht⟩ : ∃ t, s.modPll p (fun q => { q with activeLocked := false }) = t := ⟨_, rfl⟩
  have hreg (f : Fld) : t.get p f = s.get p f := by
    rw [← ht]
    exact get_of_reg (reg_mod s p p _ f.off (by cases p <;> rfl))
  have hfree : t.guardFree p := by
    obtain ⟨hg, hd⟩ := hf
    refine ⟨(congrArg (· != 0) (hreg Reg.GUARD_STAT_ACTIVE) :).trans hg, ?_⟩
    unfold State.bit
    rw [hreg, hreg]
    exact hd
  have htr := guardTrigger_trips t p 6 0 3 false hfree (by decide)
  have hu : s.fclkLost p = t.guardTrigger p 6 0 3 false := by rw [← ht]; rfl
  rw [hu]
  refine ⟨htr.triggered, ?_⟩
  rw [htr.pll, ← ht]
  cases p <;> rfl

end

theorem TookOver.of_draw {s u : State} {p : Part} (h : TookOver p s.draw.2 u) : TookOver p s u := by
  have hget (f : Fld) : s.draw.2.get p f = s.get p f := get_of_reg (reg_draw s p f.off)
  obtain ⟨hs, ha, hr, hf, hal, hl⟩ := h
  rw [hget] at hs hl
  exact ⟨hs, ha, fun q o ho => (hr q o ho).trans (reg_draw s q o), hf, hal, (logged_nil (slipped_draw s p).events).trans hl⟩

/-- Whether a standby PLL that had not locked has locked by then is free (R405). -/
theorem pllFail_free {s : State} {p : Part} (hs : ¬ (p = .el ∧ s.fclkStopped = true)) (hl : (s.base p).pll.standbyLocked = false) (hc : p = .el ∨ s.ux.corePllLost = false) (hf : s.guardFree p) :
    Ends (.pllFail p) s (fun u => TookOver p s u ∨ (u.triggered p 6 0 3 ∧ (u.base p).pll.activeLocked = false)) := by
  have hx : exec (.pllFail p) s = .next (if s.draw.1.toNat % 2 = 1 then s.draw.2.pllFailover p else s.draw.2.fclkLost p) := by
    refine congrArg Host.Outcome.next ((if_neg (by rw [notStopped_eq hs]; decide)).trans ((if_neg (by rw [hl]; decide)).trans (if_neg ?_)))
    rcases hc with rfl | hc
    · simp
    · simp [hc]
  refine ⟨_, hx, ?_⟩
  split
  · exact .inl (pllFailover_takes s.draw.2 p).of_draw
  · refine .inr (fclkLost_trips s.draw.2 p ?_)
    have hget (f : Fld) : s.draw.2.get p f = s.get p f := get_of_reg (reg_draw s p f.off)
    obtain ⟨hg, hd⟩ := hf
    refine ⟨(congrArg (· != 0) (hget Reg.GUARD_STAT_ACTIVE) :).trans hg, ?_⟩
    unfold State.bit
    rw [hget, hget]
    exact hd

theorem pllFail_stopped {s : State} {p : Part} (h : p = .el ∧ s.fclkStopped = true) : exec (.pllFail p) s = .next s := by
  obtain ⟨rfl, h⟩ := h
  exact congrArg Host.Outcome.next (if_pos (by rw [h]; rfl))

theorem pllFail_standby {s : State} {p : Part} (hs : ¬ (p = .el ∧ s.fclkStopped = true)) (hl : (s.base p).pll.standbyLocked = true) : exec (.pllFail p) s = .next (s.pllFailover p) :=
  congrArg Host.Outcome.next ((if_neg (by rw [notStopped_eq hs]; decide)).trans (if_pos hl))

theorem pllFail_lost {s : State} (hl : s.ux.base.pll.standbyLocked = false) (hc : s.ux.corePllLost = true) : exec (.pllFail .ux) s = .next (s.fclkLost .ux) :=
  congrArg Host.Outcome.next ((if_neg (by simp)).trans ((if_neg (by change ¬ s.ux.base.pll.standbyLocked = true; rw [hl]; decide)).trans (if_pos (by rw [hc]; rfl))))

/-! ### Replacement (R468) -/

/-- A cause of UX_REPLACE is set, with 0x9050 where it was not. -/
theorem replaceSet_leaves (s : State) (k : Nat) (hk : k < 6) : bitOf ((s.replaceSet k).get .ux Reg.UX_REPLACE_CAUSE) k = true ∧ RegsBut [(.ux, 0x7090)] s (s.replaceSet k)
    ∧ Logged .ux s (s.replaceSet k) (if bitOf (s.get .ux Reg.UX_REPLACE_CAUSE) k then [] else [(0x47, 0x9050, 0, k)]) := by
  by_cases h : bitOf (s.get .ux Reg.UX_REPLACE_CAUSE) k = true
  · have hs : s.replaceSet k = s := if_pos h
    rw [hs, if_pos h]
    exact ⟨h, fun _ _ _ => rfl, logged_nil rfl⟩
  · have hs : s.replaceSet k = (s.setBits .ux Reg.UX_REPLACE_CAUSE (2 ^ k)).log .ux 0x47 0x9050 0 k := if_neg h
    rw [hs, if_neg h]
    obtain ⟨t, ht⟩ : ∃ t, s.setBits .ux Reg.UX_REPLACE_CAUSE (2 ^ k) = t := ⟨_, rfl⟩
    have hev : ((t.base .ux).events) = (s.base .ux).events := by
      rw [← ht]
      exact events_put ..
    have hregs : RegsBut [(.ux, 0x7090)] s t := by
      rw [← ht]
      exact regsBut_put s .ux Reg.UX_REPLACE_CAUSE _
    have hbit : bitOf (t.get .ux Reg.UX_REPLACE_CAUSE) k = true := by
      rw [← ht]
      unfold State.setBits
      rw [get_put_same s .ux Reg.UX_REPLACE_CAUSE _ (by decide) (by decide), bitOf_eq, Nat.testBit_mod_two_pow, Nat.testBit_or, Nat.testBit_two_pow_self, Bool.or_true, Bool.and_true]
      exact decide_eq_true hk
    rw [ht]
    have hcore := core_log t .ux 0x47 0x9050 0 k
    refine ⟨(congrArg (fun n => bitOf n k) (get_of_reg (reg_of_core hcore ..))).trans hbit, hregs.core hcore, logged_log 0x47 0x9050 0 k hev⟩

theorem replaceSet_lost (s : State) (k : Nat) : (s.replaceSet k).ux.corePllLost = s.ux.corePllLost := by
  unfold State.replaceSet
  split
  · rfl
  · exact congrArg (fun t => t.ux.corePllLost) (core_log (s.setBits .ux Reg.UX_REPLACE_CAUSE (2 ^ k)) .ux 0x47 0x9050 0 k)

/-- A failed core PLL that has not relocked is lost for good (R468). -/
theorem corePllTimeout_ends {s : State} (h : s.ux.base.pll.standbyLocked = false) : Ends .corePllTimeout s (fun u => u.ux.corePllLost = true ∧ bitOf (u.get .ux Reg.UX_REPLACE_CAUSE) 3 = true
    ∧ RegsBut [(.ux, 0x7090)] s u ∧ Logged .ux s u (if bitOf (s.get .ux Reg.UX_REPLACE_CAUSE) 3 then [] else [(0x47, 0x9050, 0, 3)])) := by
  obtain ⟨t, ht⟩ : ∃ t, s.modUx (fun u => { u with corePllLost := true }) = t := ⟨_, rfl⟩
  have hx : exec .corePllTimeout s = .next (t.replaceSet 3) := by
    rw [← ht]
    exact congrArg Host.Outcome.next (if_neg (by simp [h]))
  have hreg : ∀ q o, t.reg q o = s.reg q o := fun q o => by
    rw [← ht]
    cases q <;> rfl
  have hlost : t.ux.corePllLost = true := by
    rw [← ht]
    rfl
  have hev : (t.base .ux).events = (s.base .ux).events := by
    rw [← ht]
    rfl
  have hget : t.get .ux Reg.UX_REPLACE_CAUSE = s.get .ux Reg.UX_REPLACE_CAUSE := get_of_reg (hreg ..)
  obtain ⟨hset, hregs, hlog⟩ := replaceSet_leaves t 3 (by decide)
  rw [hget] at hlog
  exact ⟨_, hx, (replaceSet_lost t 3).trans hlost, hset, fun q o ho => (hregs q o ho).trans (hreg q o), (logged_nil hev).trans hlog⟩

/-! ### Fords (R411, R412) -/

/-- The entries a ford holds. -/
def State.fordLen (s : State) (p : Part) (a b : Nat) : Nat := (s.ford p a b).entries.length

theorem fordLen_fordSet (s : State) (p : Part) {a b c d : Nat} (n : Nat) (hb : b < 64) (hd : d < 64) :
    (s.fordSet p a b n).fordLen p c d = if c = a ∧ d = b then n else s.fordLen p c d := by
  have hf : (s.fordSet p a b n).ford p c d = tget Ford.aligned (tput Ford.aligned (s.base p).fords (64 * a + b) { entries := (List.range n).map (fun i => bitOf s.draw.1.toNat i) }) (64 * c + d) := by
    cases p <;> rfl
  unfold State.fordLen
  rw [hf, tget_tput]
  by_cases h : c = a ∧ d = b
  · rw [if_pos h, if_pos (by omega)]
    simp
  · rw [if_neg h, if_neg (by omega)]
    rfl

/-- A stretch at the two fords between regions `r` and `x`. -/
def State.pairStretch (s : State) (p : Part) (r x : Nat) : State :=
  let t := s.fordSet p r x ((s.ford p r x).entries.length - 1)
  t.fordSet p x r (min 8 ((t.ford p x r).entries.length + 1))

theorem fordsStretch_eq (s : State) (p : Part) (r : Nat) :
    s.fordsStretch p r = ((List.range (s.regionCount p)).filter (fordPair p r)).foldl (fun t x => t.pairStretch p r x) s := rfl

theorem fordLen_pairStretch (s : State) (p : Part) {r x c d : Nat} (hr : r < 64) (hx : x < 64) (hd : d < 64) (hne : x ≠ r) :
    (s.pairStretch p r x).fordLen p c d = if c = x ∧ d = r then min 8 (s.fordLen p x r + 1) else if c = r ∧ d = x then s.fordLen p r x - 1 else s.fordLen p c d := by
  have hback : (s.fordSet p r x ((s.ford p r x).entries.length - 1)).fordLen p x r = s.fordLen p x r :=
    (fordLen_fordSet s p _ hx hr).trans (if_neg (fun h => hne h.1))
  have h2 := fordLen_fordSet (s.fordSet p r x (s.fordLen p r x - 1)) p (a := x) (b := r) (c := c) (d := d) (min 8 ((s.fordSet p r x (s.fordLen p r x - 1)).fordLen p x r + 1)) hr hd
  refine h2.trans ?_
  rw [fordLen_fordSet s p (a := r) (b := x) (c := c) (d := d) _ hx hd]
  split
  · exact congrArg (fun n => min 8 (n + 1)) hback
  · rfl

/-- The fords of region `r` after the stretches at a list of its neighbours. -/
theorem fordLen_stretches (p : Part) {r y : Nat} (hr : r < 64) (hy : y < 64) (hyr : y ≠ r) (l : List Nat) (hl : l.Nodup) (hlt : ∀ x ∈ l, x < 64 ∧ x ≠ r) (s : State) :
    (l.foldl (fun t x => t.pairStretch p r x) s).fordLen p r y = (if y ∈ l then s.fordLen p r y - 1 else s.fordLen p r y)
      ∧ (l.foldl (fun t x => t.pairStretch p r x) s).fordLen p y r = (if y ∈ l then min 8 (s.fordLen p y r + 1) else s.fordLen p y r) := by
  induction l generalizing s with
  | nil => exact ⟨rfl, rfl⟩
  | cons x l ih =>
    obtain ⟨hx, hxr⟩ := hlt x List.mem_cons_self
    obtain ⟨hnot, hnd⟩ := List.nodup_cons.mp hl
    obtain ⟨h1, h2⟩ := ih hnd (fun z hz => hlt z (List.mem_cons_of_mem x hz)) (s.pairStretch p r x)
    rw [List.foldl_cons, h1, h2, fordLen_pairStretch s p hr hx hy hxr, fordLen_pairStretch s p hr hx hr hxr]
    by_cases hyx : y = x
    · subst hyx
      simp [hnot, hyr, Ne.symm hyr]
    · simp [hyx, hyr]

theorem fordPair_ne {p : Part} {a b : Nat} (h : fordPair p a b = true) : b ≠ a := by
  rintro rfl
  cases p <;> simp [fordPair] at h

/-- A stretch of a region takes one entry from each ford it produces into, and leaves one more in each it consumes from (R411). -/
theorem fordsStretch_fords (s : State) (p : Part) {r : Nat} (hr : r < 64) (hn : s.regionCount p ≤ 64) (y : Nat) (hy : y < s.regionCount p) (hp : fordPair p r y = true) :
    ((s.fordsStretch p r).ford p r y).entries.length = (s.ford p r y).entries.length - 1
      ∧ ((s.fordsStretch p r).ford p y r).entries.length = min 8 ((s.ford p y r).entries.length + 1) := by
  have hmem : y ∈ (List.range (s.regionCount p)).filter (fordPair p r) := List.mem_filter.mpr ⟨List.mem_range.mpr hy, hp⟩
  obtain ⟨h1, h2⟩ := fordLen_stretches p hr (by omega) (fordPair_ne hp) ((List.range (s.regionCount p)).filter (fordPair p r)) (List.nodup_range.filter _)
    (fun x hx => ⟨by have := List.mem_range.mp (List.mem_filter.mp hx).1; omega, fordPair_ne (List.mem_filter.mp hx).2⟩) s
  rw [if_pos hmem] at h1 h2
  rw [fordsStretch_eq]
  exact ⟨h1, h2⟩

theorem reg_fordSet (s : State) (p : Part) (a b n : Nat) (q : Part) (o : Nat) : (s.fordSet p a b n).reg q o = s.reg q o :=
  (reg_mod s.draw.2 p q _ o (by cases p <;> rfl)).trans (reg_draw s q o)

theorem reg_pairStretch (s : State) (p : Part) (r x : Nat) (q : Part) (o : Nat) : (s.pairStretch p r x).reg q o = s.reg q o := (reg_fordSet ..).trans (reg_fordSet ..)

theorem reg_fordsStretch (s : State) (p : Part) (r : Nat) (q : Part) (o : Nat) : (s.fordsStretch p r).reg q o = s.reg q o := by
  rw [fordsStretch_eq]
  exact List.foldlRecOn (motive := fun t => t.reg q o = s.reg q o) _ _ rfl (fun t ht x _ => (reg_pairStretch t p r x q o).trans ht)

/-- The entries of the fords of a region after a stretch, whatever else changed on the way (R411). -/
theorem fords_of_same {s t u : State} {p : Part} {r : Nat} (hr : r < 64) (h : ∀ a b, t.ford p a b = s.ford p a b) (hn : t.regionCount p = s.regionCount p)
    (hu : ∀ a b, u.ford p a b = (t.fordsStretch p r).ford p a b) : s.regionCount p ≤ 64 → ∀ y < s.regionCount p, fordPair p r y = true →
      (u.ford p r y).entries.length = (s.ford p r y).entries.length - 1 ∧ (u.ford p y r).entries.length = min 8 ((s.ford p y r).entries.length + 1) := fun hle y hy hp => by
  have hf := fordsStretch_fords t p hr (hn ▸ hle) y (hn ▸ hy) hp
  rw [h, h] at hf
  rw [hu, hu]
  exact hf

theorem ford_count (s : State) (p q : Part) (f : Fld) (n a b : Nat) : (s.count p f n).ford q a b = s.ford q a b := by cases p <;> cases q <;> rfl

theorem ford_slip (s : State) (p : Part) (n a b : Nat) : (s.slip p n).ford p a b = s.ford p a b := by cases p <;> rfl

theorem ford_ite (s : State) (p : Part) (c : Prop) [Decidable c] (n a b : Nat) : (if c then s.slip p n else s).ford p a b = s.ford p a b := by
  split
  · exact ford_slip s p n a b
  · rfl

/-- The count and the time of a stretch of a Uhloux region (R408). -/
def State.stretchMarked (s : State) (x : Nat) : State :=
  (s.count .ux Reg.UX_CLK_STAT_STRETCH 1).mod .ux (fun b => { b with stretchAt := tput 0 b.stretchAt x (s.tick .ux + 1) })

theorem get_stretchMarked (s : State) (x : Nat) : (s.stretchMarked x).seqState .ux = s.seqState .ux :=
  get_put_offs s .ux .ux Reg.UX_CLK_STAT_STRETCH Reg.SEQ_STAT_STATE _ (by decide)

/-- A stretch of a Uhloux region (R406 to R408, R411). -/
theorem droopStretch_ux {s : State} (region : Fin 64) (h : s.mayStretch region.val = true) : exec (.droopStretch .ux region) s = .next
    (if region.val = Config.treeRegion % 64 ∧ s.seqState .ux = 3 then ((s.stretchMarked region.val).fordsStretch .ux region.val).slip .ux 1 else (s.stretchMarked region.val).fordsStretch .ux region.val) := by
  have hst : ((s.stretchMarked region.val).fordsStretch .ux region.val).seqState .ux = s.seqState .ux := (get_of_reg (reg_fordsStretch ..)).trans (get_stretchMarked s region.val)
  have hx : exec (.droopStretch .ux region) s = .next (if region.val = Config.treeRegion % 64 && ((s.stretchMarked region.val).fordsStretch .ux region.val).seqState .ux == 3 then
      ((s.stretchMarked region.val).fordsStretch .ux region.val).slip .ux 1 else (s.stretchMarked region.val).fordsStretch .ux region.val) :=
    congrArg Host.Outcome.next (if_neg (by rw [h]; decide))
  rw [hx, hst]
  simp only [Bool.and_eq_true, decide_eq_true_eq, beq_iff_eq]

theorem droopStretch_ux_fords {s : State} (region : Fin 64) (h : s.mayStretch region.val = true) : Ends (.droopStretch .ux region) s (fun u => s.regionCount .ux ≤ 64 → ∀ y < s.regionCount .ux, fordPair .ux region.val y = true →
    (u.ford .ux region.val y).entries.length = (s.ford .ux region.val y).entries.length - 1 ∧ (u.ford .ux y region.val).entries.length = min 8 ((s.ford .ux y region.val).entries.length + 1)) :=
  ⟨_, droopStretch_ux region h, fords_of_same (t := s.stretchMarked region.val) region.isLt (fun _ _ => rfl) rfl (fun _ _ => ford_ite ..)⟩

/-- A region an Elesh lacks is merged into region 0 (R406). -/
def State.regionOf (s : State) (region : Fin 64) : Nat := if region.val < s.el.lic.regions then region.val else 0

theorem strFld_off (r : Nat) : (strFld r).off = 0xA020 := by
  unfold strFld
  split <;> rfl

/-- A stretch of an Elesh region (R406, R407, R411). -/
theorem droopStretch_el (s : State) (region : Fin 64) : exec (.droopStretch .el region) s = .next
    (if s.regionOf region = 0 ∧ s.seqState .el = 3 then ((s.count .el (strFld (s.regionOf region)) 1).fordsStretch .el (s.regionOf region)).slip .el 1
      else (s.count .el (strFld (s.regionOf region)) 1).fordsStretch .el (s.regionOf region)) := by
  have hst : ((s.count .el (strFld (s.regionOf region)) 1).fordsStretch .el (s.regionOf region)).seqState .el = s.seqState .el :=
    (get_of_reg (reg_fordsStretch ..)).trans (get_put_offs s .el .el (strFld (s.regionOf region)) Reg.SEQ_STAT_STATE _ (by rw [strFld_off]; decide))
  have hx : exec (.droopStretch .el region) s = .next (if s.regionOf region = 0 && ((s.count .el (strFld (s.regionOf region)) 1).fordsStretch .el (s.regionOf region)).seqState .el == 3 then
      ((s.count .el (strFld (s.regionOf region)) 1).fordsStretch .el (s.regionOf region)).slip .el 1 else (s.count .el (strFld (s.regionOf region)) 1).fordsStretch .el (s.regionOf region)) := rfl
  rw [hx, hst]
  simp only [Bool.and_eq_true, decide_eq_true_eq, beq_iff_eq]

theorem regionOf_lt (s : State) (region : Fin 64) : s.regionOf region < 64 := by
  unfold State.regionOf
  have := region.isLt
  split <;> omega

theorem droopStretch_el_fords (s : State) (region : Fin 64) : Ends (.droopStretch .el region) s (fun u => s.regionCount .el ≤ 64 → ∀ y < s.regionCount .el, fordPair .el (s.regionOf region) y = true →
    (u.ford .el (s.regionOf region) y).entries.length = (s.ford .el (s.regionOf region) y).entries.length - 1 ∧ (u.ford .el y (s.regionOf region)).entries.length = min 8 ((s.ford .el y (s.regionOf region)).entries.length + 1)) :=
  ⟨_, droopStretch_el s region, fords_of_same (t := s.count .el (strFld (s.regionOf region)) 1) (regionOf_lt s region) (fun _ _ => ford_count ..) rfl (fun _ _ => ford_ite ..)⟩

end Sys2Proof.Machine

/-! SUPPORT. Power domains (R414 to R421, R495, R496): the state of a domain after a change, sleep and wake, supplies, and the domains of Uhloux. -/

namespace Sys2Proof.Machine

set_option Elab.async false

/-! ### DSTATE: two bits a domain (R435, R436) -/

/-- The two bits of a domain in a word of DSTATE. -/
def dsDigit (w d : Nat) : Nat := w / 4 ^ d % 4

/-- The word with the bits of a domain replaced. -/
def dsPut (w d v : Nat) : Nat := w / 4 ^ (d + 1) * 4 ^ (d + 1) + v % 4 * 4 ^ d + w % 4 ^ d

theorem dsPut_low (w d v : Nat) : dsPut w d v % 4 ^ d = w % 4 ^ d := by
  have h : dsPut w d v = w % 4 ^ d + (4 * (w / 4 ^ (d + 1)) + v % 4) * 4 ^ d := by
    unfold dsPut
    rw [pow_succ]
    ring
  rw [h, Nat.add_mul_mod_self_right, Nat.mod_mod]

theorem dsPut_shift (w d v : Nat) : dsPut w d v / 4 ^ d = 4 * (w / 4 ^ (d + 1)) + v % 4 := by
  have h : dsPut w d v = w % 4 ^ d + (4 * (w / 4 ^ (d + 1)) + v % 4) * 4 ^ d := by
    unfold dsPut
    rw [pow_succ]
    ring
  rw [h, Nat.add_mul_div_right _ _ (by positivity), Nat.div_eq_of_lt (Nat.mod_lt _ (by positivity)), Nat.zero_add]

theorem dsDigit_dsPut_same (w d v : Nat) : dsDigit (dsPut w d v) d = v % 4 := by
  unfold dsDigit
  rw [dsPut_shift]
  omega

theorem dsDigit_dsPut_other (w v : Nat) {d e : Nat} (h : e ≠ d) : dsDigit (dsPut w d v) e = dsDigit w e := by
  unfold dsDigit
  rcases Nat.lt_or_gt_of_ne h with hlt | hgt
  · have hlow (x : Nat) : x / 4 ^ e % 4 = x % 4 ^ d / 4 ^ e % 4 := by
      obtain ⟨k, rfl⟩ : ∃ k, d = e + 1 + k := ⟨d - e - 1, by omega⟩
      rw [← Nat.mod_mul_right_div_self, ← Nat.mod_mul_right_div_self (x % 4 ^ (e + 1 + k)), ← pow_succ, Nat.mod_mod_of_dvd x (Nat.pow_dvd_pow 4 (by omega))]
    rw [hlow, hlow w, dsPut_low]
  · obtain ⟨k, rfl⟩ : ∃ k, e = d + 1 + k := ⟨e - d - 1, by omega⟩
    have hhigh (x : Nat) : x / 4 ^ (d + 1 + k) = x / 4 ^ d / 4 / 4 ^ k := by rw [pow_add, pow_succ, ← Nat.div_div_eq_div_mul, ← Nat.div_div_eq_div_mul]
    have hw : w / 4 ^ (d + 1) = w / 4 ^ d / 4 := by rw [Nat.div_div_eq_div_mul, ← pow_succ]
    rw [hhigh, hhigh w, dsPut_shift, hw]
    congr 2
    omega

theorem dsPut_lt {w d v n : Nat} (hw : w < 4 ^ n) (hd : d < n) : dsPut w d v < 4 ^ n := by
  obtain ⟨k, rfl⟩ : ∃ k, n = d + 1 + k := ⟨n - d - 1, by omega⟩
  have hq : w / 4 ^ (d + 1) < 4 ^ k := Nat.div_lt_of_lt_mul (by rw [← pow_add]; exact hw)
  have hm : w % 4 ^ d < 4 ^ d := Nat.mod_lt _ (by positivity)
  have hv : v % 4 * 4 ^ d + 4 ^ d ≤ 4 ^ (d + 1) := by
    have h3 : v % 4 + 1 ≤ 4 := by omega
    calc v % 4 * 4 ^ d + 4 ^ d = (v % 4 + 1) * 4 ^ d := by ring
      _ ≤ 4 * 4 ^ d := Nat.mul_le_mul_right _ h3
      _ = 4 ^ (d + 1) := by ring
  calc dsPut w d v < w / 4 ^ (d + 1) * 4 ^ (d + 1) + 4 ^ (d + 1) := by unfold dsPut; omega
    _ = (w / 4 ^ (d + 1) + 1) * 4 ^ (d + 1) := by ring
    _ ≤ 4 ^ k * 4 ^ (d + 1) := Nat.mul_le_mul_right _ hq
    _ = 4 ^ (d + 1 + k) := by rw [← pow_add, Nat.add_comm]

/-- The domains a part has. -/
def domainCount : Part → Nat
  | .el => 7
  | .ux => 24

section
variable (s : State) (p : Part)

theorem setDstate_eq (d v : Nat) : s.setDstate p d v = s.put p (dstateFld p) (dsPut (s.get p (dstateFld p)) d v) := rfl

theorem dstate_eq (d : Nat) : s.dstate p d = dsDigit (s.get p (dstateFld p)) d := rfl

theorem get_setDstate {d : Nat} (v : Nat) (hd : d < domainCount p) : (s.setDstate p d v).get p (dstateFld p) = dsPut (s.get p (dstateFld p)) d v := by
  have hlt : s.get p (dstateFld p) < 4 ^ domainCount p := by
    have h := fget_lt (s.reg p (dstateFld p).off) (dstateFld p).hi (dstateFld p).lo
    cases p <;> exact h
  rw [setDstate_eq, get_put_same s p _ _ (by cases p <;> decide) (by cases p <;> decide)]
  refine Nat.mod_eq_of_lt ?_
  have h := dsPut_lt (v := v) hlt hd
  cases p <;> exact h

theorem dstate_setDstate_same {d : Nat} (v : Nat) (hd : d < domainCount p) : (s.setDstate p d v).dstate p d = v % 4 := by
  rw [dstate_eq, get_setDstate s p v hd, dsDigit_dsPut_same]

theorem dstate_setDstate_other {d e : Nat} (v : Nat) (hd : d < domainCount p) (h : e ≠ d) : (s.setDstate p d v).dstate p e = s.dstate p e := by
  rw [dstate_eq, get_setDstate s p v hd, dsDigit_dsPut_other _ v h]
  rfl

theorem dstate_setDstate {d : Nat} (e v : Nat) (hd : d < domainCount p) : (s.setDstate p d v).dstate p e = if e = d then v % 4 else s.dstate p e := by
  split
  · next h => rw [h, dstate_setDstate_same s p v hd]
  · next h => exact dstate_setDstate_other s p v hd h

theorem regs_setDstate (d v : Nat) : RegsBut [(p, 0xA008)] s (s.setDstate p d v) := by
  have h := regsBut_put s p (dstateFld p) (dsPut (s.get p (dstateFld p)) d v)
  cases p <;> exact h

theorem events_setDstate (d v : Nat) (q : Part) : ((s.setDstate p d v).base q).events = (s.base q).events := events_put ..

end

/-! ### What a domain reset leaves (R415, R427) -/

/-- An entry of the register file after the reset of a domain. -/
def domainEntry (d : Nat) (x : Nat × Word) : Option (Nat × Word) :=
  if elDomain x.1 = d then (if domainWord x.1 x.2 = elResetWord x.1 then none else some (x.1, domainWord x.1 x.2)) else some x

theorem tget_domainEntry_other {d o : Nat} (h : elDomain o ≠ d) (z : Word) (t : Tbl Word) : tget z (t.filterMap (domainEntry d)) o = tget z t o := by
  induction t with
  | nil => rfl
  | cons x r ih =>
    obtain ⟨k, w⟩ := x
    by_cases hk : k = o
    · have hx : domainEntry d (k, w) = some (k, w) := if_neg (hk ▸ h)
      rw [List.filterMap_cons_some hx]
      exact (if_pos hk).trans (if_pos hk).symm
    · rw [show tget z ((k, w) :: r) o = tget z r o from if_neg hk, ← ih]
      unfold domainEntry
      rw [List.filterMap_cons]
      split
      · rfl
      · next y hy =>
        refine if_neg ?_
        have hy1 : y.1 = k := by
          dsimp only at hy
          split at hy
          · split at hy
            · exact absurd hy (by simp)
            · exact (congrArg Prod.fst (Option.some.inj hy)).symm
          · exact (congrArg Prod.fst (Option.some.inj hy)).symm
        rw [hy1]
        exact hk

/-- A register none of whose values outlives the reset. -/
theorem tget_domainEntry_reset {d o : Nat} (hd : elDomain o = d) (hw : ∀ w, domainWord o w = elResetWord o) (z : Word) (t : Tbl Word) : tget z (t.filterMap (domainEntry d)) o = z := by
  induction t with
  | nil => rfl
  | cons x r ih =>
    obtain ⟨k, w⟩ := x
    by_cases hk : k = o
    · have hx : domainEntry d (k, w) = none := (if_pos (hk ▸ hd)).trans (if_pos (hk ▸ hw w))
      rw [List.filterMap_cons_none hx, ih]
    · unfold domainEntry
      rw [List.filterMap_cons]
      split
      · exact ih
      · next y hy =>
        have hy1 : y.1 = k := by
          dsimp only at hy
          split at hy
          · split at hy
            · exact absurd hy (by simp)
            · exact (congrArg Prod.fst (Option.some.inj hy)).symm
          · exact (congrArg Prod.fst (Option.some.inj hy)).symm
        exact (if_neg (by rw [hy1]; exact hk)).trans ih

section
variable (s : State) (d : Nat)

/-- The register file of a domain after its reset, before what the domain holds beside it goes. -/
def State.domainRegs : State := s.modEl (fun e => { e with base := { e.base with
  regs := e.base.regs.filterMap (domainEntry d), staged := if d = 1 then [] else e.base.staged.filter (fun x => elDomain x.1 != d) } })

/-- What a domain holds beside its registers is gone. -/
def State.domainDrop (s : State) (d : Nat) : State :=
  match d with
  | 1 => (s.modSeq .el (fun q => { Seq.zero with tStep := q.tStep })).modEl (fun e => { e with base := { e.base with manAt := none, hallArm := false } })
  | 2 => s.cntClear.modEl (fun e => { e with watches := [], wakeQ := e.wakeQ.filter (fun w => w.kind == 3), bars := [], land := [], landSeen := [], landFull := false, dldLogged := false, ports := { e.ports with idcClear := true, reclaim := [] } })
  | 4 => s.modEl (fun e => { e with fas := [], cur := [], posLogged := [], emptyLogged := [] })
  | 5 => s.modEl (fun e => { e with dma := [], spm := [], spmBad := [] })
  | _ => s

theorem elDomainReset_eq : s.elDomainReset d = (s.domainRegs d).domainDrop d := rfl

theorem regs_elDomainReset : (s.elDomainReset d).el.base.regs = s.el.base.regs.filterMap (domainEntry d) := by
  rw [elDomainReset_eq]
  unfold State.domainDrop
  split <;> rfl

theorem reg_elDomainReset_other {o : Nat} (h : elDomain o ≠ d) : (s.elDomainReset d).reg .el o = s.reg .el o := by
  unfold State.reg State.base
  rw [regs_elDomainReset]
  exact tget_domainEntry_other h _ _

theorem reg_elDomainReset_plain {o : Nat} (hd : elDomain o = d) (hw : ∀ w, domainWord o w = elResetWord o) : (s.elDomainReset d).reg .el o = elResetWord o := by
  unfold State.reg State.base
  rw [regs_elDomainReset]
  exact tget_domainEntry_reset hd hw _ _

/-- What no domain reset touches. -/
structure ResetKept (s t : State) : Prop where
  events : t.el.base.events = s.el.base.events
  lic    : t.el.lic = s.el.lic
  supply : t.el.supplyCore = s.el.supplyCore
  ret    : t.el.supplyRet = s.el.supplyRet
  guard  : t.guard .el = s.guard .el
  pll    : t.el.base.pll = s.el.base.pll
  qops   : t.el.base.qops = s.el.base.qops
  ux     : t.ux = s.ux

theorem resetKept_elDomainReset : ResetKept s (s.elDomainReset d) := by
  rw [elDomainReset_eq]
  unfold State.domainDrop
  split <;> exact ⟨rfl, rfl, rfl, rfl, rfl, rfl, rfl, rfl⟩

theorem spm_elDomainReset (h : d ≠ 5) : (s.elDomainReset d).el.spm = s.el.spm ∧ (s.elDomainReset d).el.spmBad = s.el.spmBad := by
  rw [elDomainReset_eq]
  unfold State.domainDrop
  split
  · exact ⟨rfl, rfl⟩
  · exact ⟨rfl, rfl⟩
  · exact ⟨rfl, rfl⟩
  · exact absurd rfl h
  · exact ⟨rfl, rfl⟩

end

namespace ResetKept

theorem refl (s : State) : ResetKept s s := ⟨rfl, rfl, rfl, rfl, rfl, rfl, rfl, rfl⟩

theorem trans {s t u : State} (h : ResetKept s t) (k : ResetKept t u) : ResetKept s u :=
  ⟨k.events.trans h.events, k.lic.trans h.lic, k.supply.trans h.supply, k.ret.trans h.ret, k.guard.trans h.guard, k.pll.trans h.pll, k.qops.trans h.qops, k.ux.trans h.ux⟩

theorem put (s : State) (f : Fld) (v : Nat) : ResetKept s (s.put .el f v) := ⟨rfl, rfl, rfl, rfl, rfl, rfl, rfl, rfl⟩

theorem setDstate (s : State) (d v : Nat) : ResetKept s (s.setDstate .el d v) := put s _ _

end ResetKept

/-! ### A domain goes low (R381, R415, R416) -/

/-- The state a domain sleeps in: RED and MOVE+SPM OFF, the others RET. -/
def lowState (d : Nat) : Nat := if d = 3 ∨ d = 5 then 0 else 1

/-- The SPM cells whose bank group is retained. -/
def keepsCell (s : State) (a : Nat) : Bool := bitOf (s.get .el Reg.PWR_GROUP_RET) (s.spmGroup a)

/-- Domains of an Elesh have changed in registers of their own, in DSTATE and in SPM. -/
structure DomainsMoved (s t : State) : Prop where
  kept : ResetKept s t
  aon  : ∀ o, elDomain o = 0 → o ≠ 0xA008 → t.reg .el o = s.reg .el o
  stat : ∀ f : Fld, f.off = 0xA008 → f.hi < 64 → 13 < f.lo → t.get .el f = s.get .el f

namespace DomainsMoved

theorem refl (s : State) : DomainsMoved s s := ⟨.refl s, fun _ _ _ => rfl, fun _ _ _ _ => rfl⟩

theorem trans {s t u : State} (h : DomainsMoved s t) (k : DomainsMoved t u) : DomainsMoved s u :=
  ⟨h.kept.trans k.kept, fun o h0 h1 => (k.aon o h0 h1).trans (h.aon o h0 h1), fun f h0 h1 h2 => (k.stat f h0 h1 h2).trans (h.stat f h0 h1 h2)⟩

theorem reset (s : State) {d : Nat} (hd : d ≠ 0) : DomainsMoved s (s.elDomainReset d) :=
  ⟨resetKept_elDomainReset s d, fun o h0 _ => reg_elDomainReset_other s d (by rw [h0]; exact hd.symm), fun f hf _ _ => get_of_reg (reg_elDomainReset_other s d (by rw [hf]; exact hd.symm))⟩

theorem setDstate (s : State) (d v : Nat) : DomainsMoved s (s.setDstate .el d v) :=
  ⟨.setDstate s d v, fun o _ h1 => regs_setDstate s .el d v .el o (by simpa using h1), fun f hf h1 h2 => get_put_other s .el Reg.PWR_STAT_DSTATE f _ (by decide) (by decide) h1 (.inr (.inr h2))⟩

theorem spm (s : State) (m b) : DomainsMoved s (s.modEl (fun e => { e with spm := m, spmBad := b })) :=
  ⟨⟨rfl, rfl, rfl, rfl, rfl, rfl, rfl, rfl⟩, fun _ _ _ => rfl, fun _ _ _ _ => rfl⟩

end DomainsMoved

theorem dstate_of_reg {s t : State} {p : Part} (h : t.reg p 0xA008 = s.reg p 0xA008) (e : Nat) : t.dstate p e = s.dstate p e := by
  unfold State.dstate
  rw [get_of_reg (f := dstateFld p) (by cases p <;> exact h)]

theorem dstate_elDomainReset (s : State) {d : Nat} (hd : d ≠ 0) (e : Nat) : (s.elDomainReset d).dstate .el e = s.dstate .el e :=
  dstate_of_reg (reg_elDomainReset_other s d hd.symm) e

/-- A domain of an Elesh goes low; of SPM the retained groups stay. -/
theorem domainLow_leaves (s : State) {d : Nat} (h0 : d ≠ 0) (h5 : d ≤ 5) : DomainsMoved s (s.domainLow d) ∧ (∀ e, (s.domainLow d).dstate .el e = if e = d then lowState d else s.dstate .el e)
    ∧ (s.domainLow d).el.spm = (if d = 5 then s.el.spm.filter (fun c => keepsCell s c.1) else s.el.spm) := by
  have hlt : d < domainCount .el := Nat.lt_of_le_of_lt h5 (by decide)
  unfold State.domainLow lowState
  by_cases h : d = 3
  · subst h
    refine ⟨(DomainsMoved.reset s h0).trans (.setDstate ..), fun e => ?_, (spm_elDomainReset s 3 (by decide)).1⟩
    refine (dstate_setDstate (s.elDomainReset 3) .el e 0 hlt).trans ?_
    rw [dstate_elDomainReset s h0]
    rfl
  · by_cases h' : d = 5
    · subst h'
      refine ⟨((DomainsMoved.reset s h0).trans (.spm ..)).trans (.setDstate ..), fun e => ?_, rfl⟩
      refine (dstate_setDstate ((s.elDomainReset 5).modEl (fun e => { e with spm := s.spmOff.el.spm, spmBad := s.spmOff.el.spmBad })) .el e 0 hlt).trans ?_
      rw [dstate_of_reg (t := (s.elDomainReset 5).modEl (fun e => { e with spm := s.spmOff.el.spm, spmBad := s.spmOff.el.spmBad })) (s := s.elDomainReset 5) rfl, dstate_elDomainReset s h0]
      rfl
    · rw [if_neg h, if_neg h', if_neg h', if_neg (by omega)]
      exact ⟨.setDstate .., fun e => dstate_setDstate s .el e 1 hlt, rfl⟩

theorem keepsCell_moved {s t : State} (h : DomainsMoved s t) (a : Nat) : keepsCell t a = keepsCell s a := by
  unfold keepsCell State.spmGroup
  rw [h.kept.lic, get_of_reg (s := s) (t := t) (f := Reg.PWR_GROUP_RET) (h.aon 0xA000 rfl (by decide))]

/-- Steps that each move one domain of a list, by its old state. -/
theorem domainFold (f : State → Nat → State) (g : Nat → Nat → Nat) (s : State) (l : List Nat) (hl : l.Nodup)
    (hf : ∀ t, DomainsMoved s t → ∀ d ∈ l, DomainsMoved t (f t d) ∧ ∀ e, (f t d).dstate .el e = if e = d then g d (t.dstate .el d) else t.dstate .el e) :
    ∀ t, DomainsMoved s t → DomainsMoved s (l.foldl f t) ∧ ∀ e, (l.foldl f t).dstate .el e = if e ∈ l then g e (t.dstate .el e) else t.dstate .el e := by
  induction l with
  | nil => exact fun t ht => ⟨ht, fun _ => rfl⟩
  | cons d l ih =>
    intro t ht
    obtain ⟨hnot, hnd⟩ := List.nodup_cons.mp hl
    obtain ⟨hm, hd⟩ := hf t ht d List.mem_cons_self
    obtain ⟨jm, jd⟩ := ih hnd (fun u hu x hx => hf u hu x (List.mem_cons_of_mem d hx)) (f t d) (ht.trans hm)
    refine ⟨jm, fun e => ?_⟩
    rw [List.foldl_cons, jd, hd]
    by_cases he : e = d
    · subst he
      simp [hnot]
    · simp [he]

/-- SPM after domains went low in turn. -/
theorem lowFold_spm (l : List Nat) (hl : l.Nodup) (h : ∀ d ∈ l, d ≠ 0 ∧ d ≤ 5) (s : State) :
    (l.foldl (fun t d => t.domainLow d) s).el.spm = (if 5 ∈ l then s.el.spm.filter (fun c => keepsCell s c.1) else s.el.spm) := by
  induction l generalizing s with
  | nil => rfl
  | cons d l ih =>
    obtain ⟨h0, h5⟩ := h d List.mem_cons_self
    obtain ⟨hnot, hnd⟩ := List.nodup_cons.mp hl
    obtain ⟨hm, -, hs⟩ := domainLow_leaves s h0 h5
    rw [List.foldl_cons, ih hnd (fun x hx => h x (List.mem_cons_of_mem d hx)), hs]
    simp only [keepsCell_moved hm]
    by_cases h5' : d = 5
    · subst h5'
      simp [hnot]
    · simp [h5', Ne.symm h5']

theorem mget_filter (m : Mem) (keep : Nat → Bool) (x : Nat) : mget (m.filter (fun c => keep c.1)) x = if keep x then mget m x else 0 := by
  induction m with
  | nil => exact (ite_self _).symm
  | cons c m ih =>
    obtain ⟨k, v⟩ := c
    show tget 0 (((k, v) :: m).filter (fun c => keep c.1)) x = if keep x then (if k = x then v else tget 0 m x) else 0
    change tget 0 (m.filter (fun c => keep c.1)) x = if keep x then tget 0 m x else 0 at ih
    by_cases hk : k = x
    · subst hk
      cases hb : keep k
      · rw [List.filter_cons_of_neg (by simp [hb]), ih, hb]
        rfl
      · rw [List.filter_cons_of_pos (by simp [hb]), if_pos rfl]
        exact (if_pos rfl).trans (if_pos rfl).symm
    · have hrest : tget 0 (((k, v) :: m).filter (fun c => keep c.1)) x = tget 0 (m.filter (fun c => keep c.1)) x := by
        rw [List.filter_cons]
        split
        · exact if_neg hk
        · rfl
      rw [hrest, ih, if_neg hk]

/-! ### Sleep (R416) -/

section
variable (s : State)

/-- The domains a sleep takes (R416). -/
def State.sleepers (s : State) : List Nat := ([1, 2, 3, 4, 5] : List Nat).filter (fun d => bitOf (s.get .el Reg.PWR_SLEEP_MASK) (d - 1) && s.dstate .el d == 2)

theorem mem_sleepers {e : Nat} (he : e ∈ [1, 2, 3, 4, 5]) : e ∈ s.sleepers ↔ bitOf (s.get .el Reg.PWR_SLEEP_MASK) (e - 1) = true ∧ s.dstate .el e = 2 := by
  unfold State.sleepers
  rw [List.mem_filter, Bool.and_eq_true, beq_iff_eq]
  exact and_iff_right he

theorem sleepers_mid : ∀ d ∈ s.sleepers, d ≠ 0 ∧ d ≤ 5 := fun d hd => by
  have h : d ∈ [1, 2, 3, 4, 5] := (List.mem_filter.mp hd).1
  simp only [List.mem_cons, List.not_mem_nil, or_false] at h
  omega

theorem sleepers_nodup : s.sleepers.Nodup := List.Nodup.filter _ (by decide)

/-- A die that may sleep takes its sleepers low (R381, R416). -/
theorem sleepEntry_ends (h : s.canSleep = true) (e x : Nat) : Ends .sleepEntry s (fun u => u.bit .el Reg.PWR_STAT_ASLEEP = true
    ∧ (e ∈ [1, 2, 3, 4, 5] → bitOf (s.get .el Reg.PWR_SLEEP_MASK) (e - 1) = true ∧ s.dstate .el e = 2 → u.dstate .el e = (if e = 3 ∨ e = 5 then 0 else 1))
    ∧ (e ∈ [1, 2, 3, 4, 5] → ¬ (bitOf (s.get .el Reg.PWR_SLEEP_MASK) (e - 1) = true ∧ s.dstate .el e = 2) → u.dstate .el e = s.dstate .el e)
    ∧ (e = 5 → bitOf (s.get .el Reg.PWR_SLEEP_MASK) (e - 1) = true ∧ s.dstate .el e = 2 → mget u.el.spm x = if bitOf (s.get .el Reg.PWR_GROUP_RET) (s.spmGroup x) then mget s.el.spm x else 0)
    ∧ u.el.base.staged = s.el.base.staged ∧ Logged .el s u []) := by
  obtain ⟨hm, hd⟩ := domainFold (fun t d => t.domainLow d) (fun d _ => lowState d) s s.sleepers (sleepers_nodup s)
    (fun t _ d hd => ⟨(domainLow_leaves t (sleepers_mid s d hd).1 (sleepers_mid s d hd).2).1, (domainLow_leaves t (sleepers_mid s d hd).1 (sleepers_mid s d hd).2).2.1⟩) s (.refl s)
  have hs := lowFold_spm s.sleepers (sleepers_nodup s) (sleepers_mid s) s
  obtain ⟨t, ht⟩ : ∃ t, s.sleepers.foldl (fun t d => t.domainLow d) s = t := ⟨_, rfl⟩
  have hx : exec .sleepEntry s = .next ((t.mod .el (fun b => { b with staged := s.el.base.staged })).put .el Reg.PWR_STAT_ASLEEP 1) := by
    rw [← ht]
    exact congrArg Host.Outcome.next (if_pos h)
  rw [ht] at hm hd hs
  have hds : ((t.mod .el (fun b => { b with staged := s.el.base.staged })).put .el Reg.PWR_STAT_ASLEEP 1).dstate .el e = t.dstate .el e := by
    refine congrArg (fun w => dsDigit w e) ?_
    exact get_put_other (t.mod .el (fun b => { b with staged := s.el.base.staged })) .el Reg.PWR_STAT_ASLEEP Reg.PWR_STAT_DSTATE 1 (by decide) (by decide) (by decide) (by decide)
  refine ⟨_, hx, bit_of_get (get_put_same _ _ _ _ (by decide) (by decide)), fun he hsl => ?_, fun he hsl => ?_, fun he hsl => ?_, rfl, logged_nil ?_⟩
  · rw [hds, hd, if_pos ((mem_sleepers s he).mpr hsl)]
    rfl
  · rw [hds, hd, if_neg (fun hin => hsl ((mem_sleepers s he).mp hin))]
  · subst he
    rw [if_pos ((mem_sleepers s (by decide)).mpr hsl)] at hs
    have hspm : ((t.mod .el (fun b => { b with staged := s.el.base.staged })).put .el Reg.PWR_STAT_ASLEEP 1).el.spm = t.el.spm := rfl
    rw [hspm, hs, mget_filter]
    rfl
  · exact (events_put ..).trans hm.kept.events

/-- A sleeping die begins its wake (R417, R418). -/
theorem wakeTrigger_ends (h : s.bit .el Reg.PWR_STAT_ASLEEP = true) : Ends .wakeTrigger s (fun u => u.bit .el Reg.PWR_STAT_ASLEEP = false ∧ u.bit .el Reg.PWR_STAT_WAKING = true
    ∧ (s.dstate .el 5 = 0 → u.bit .el Reg.SPM_STAT_CLEARING = true) ∧ RegsBut [(.el, 0xA008), (.el, 0x80D0)] s u ∧ Logged .el s u []) := by
  obtain ⟨a, ha⟩ : ∃ a, s.put .el Reg.PWR_STAT_ASLEEP 0 = a := ⟨_, rfl⟩
  obtain ⟨t, ht⟩ : ∃ t, a.put .el Reg.PWR_STAT_WAKING 1 = t := ⟨_, rfl⟩
  have hasleep : t.get .el Reg.PWR_STAT_ASLEEP = 0 := by
    rw [← ht, get_put_other a .el Reg.PWR_STAT_WAKING Reg.PWR_STAT_ASLEEP 1 (by decide) (by decide) (by decide) (by decide), ← ha]
    exact get_put_same s .el Reg.PWR_STAT_ASLEEP 0 (by decide) (by decide)
  have hwaking : t.get .el Reg.PWR_STAT_WAKING = 1 := by
    rw [← ht]
    exact get_put_same a .el Reg.PWR_STAT_WAKING 1 (by decide) (by decide)
  have hds : t.get .el Reg.PWR_STAT_DSTATE = s.get .el Reg.PWR_STAT_DSTATE := by
    rw [← ht, get_put_other a .el Reg.PWR_STAT_WAKING Reg.PWR_STAT_DSTATE 1 (by decide) (by decide) (by decide) (by decide), ← ha]
    exact get_put_other s .el Reg.PWR_STAT_ASLEEP Reg.PWR_STAT_DSTATE 0 (by decide) (by decide) (by decide) (by decide)
  have hregs : RegsBut [(.el, 0xA008), (.el, 0x80D0)] s t := by
    have h1 : RegsBut [(.el, 0xA008), (.el, 0x80D0)] s s := fun _ _ _ => rfl
    rw [← ht, ← ha]
    exact (h1.put .el Reg.PWR_STAT_ASLEEP 0 (by decide)).put .el Reg.PWR_STAT_WAKING 1 (by decide)
  have hev : t.el.base.events = s.el.base.events := by
    rw [← ht, ← ha]
    rfl
  have hx : exec .wakeTrigger s = .next (if t.dstate .el 5 = 0 then t.put .el Reg.SPM_STAT_CLEARING 1 else t) := by
    rw [← ht, ← ha]
    exact congrArg Host.Outcome.next (if_pos h)
  have hd5 : t.dstate .el 5 = s.dstate .el 5 := congrArg (fun w => dsDigit w 5) hds
  rw [hd5] at hx
  by_cases h5 : s.dstate .el 5 = 0
  · rw [if_pos h5] at hx
    have hkeep (f : Fld) (hf : f.off ≠ 0x80D0) : (t.put .el Reg.SPM_STAT_CLEARING 1).get .el f = t.get .el f := get_put_offs t .el .el Reg.SPM_STAT_CLEARING f 1 hf
    refine ⟨_, hx, ?_, bit_of_get ((hkeep _ (by decide)).trans hwaking), fun _ => bit_of_get (get_put_same t .el Reg.SPM_STAT_CLEARING 1 (by decide) (by decide)), hregs.put .el Reg.SPM_STAT_CLEARING 1 (by decide), logged_nil ((events_put ..).trans hev)⟩
    unfold State.bit
    rw [hkeep _ (by decide), hasleep]
    rfl
  · rw [if_neg h5] at hx
    refine ⟨_, hx, ?_, bit_of_get hwaking, fun h0 => absurd h0 h5, hregs, logged_nil hev⟩
    unfold State.bit
    rw [hasleep]
    rfl

end

/-! ### The end of a wake (R418, R419) -/

/-- Only DSTATE of an Elesh has changed. -/
structure DstateOnly (s t : State) : Prop where
  moved : DomainsMoved s t
  regs  : RegsBut [(.el, 0xA008)] s t
  rest  : t = s.modEl (fun e => { e with base := { e.base with regs := t.el.base.regs } })

theorem DstateOnly.refl (s : State) : DstateOnly s s := ⟨.refl s, fun _ _ _ => rfl, rfl⟩

theorem DstateOnly.setDstate {s t : State} (h : DstateOnly s t) (d v : Nat) : DstateOnly s (t.setDstate .el d v) := by
  refine ⟨h.moved.trans (.setDstate ..), h.regs.trans (regs_setDstate t .el d v), ?_⟩
  have hr := h.rest
  generalize hregs : t.el.base.regs = r at hr
  rw [hr]
  rfl

/-- Domains that meet a condition are ON. -/
theorem raiseFold (c : State → Nat → Bool) (s : State) (l : List Nat) : ∀ t, DstateOnly s t → DstateOnly s (l.foldl (fun t d => if c t d then t.setDstate .el d 2 else t) t) := by
  induction l with
  | nil => exact fun t ht => ht
  | cons d l ih =>
    intro t ht
    refine ih _ ?_
    dsimp only
    split
    · exact ht.setDstate d 2
    · exact ht

/-- The domains that are ON after a raise, where the condition looks at the domain and at the supply alone. -/
theorem raised (c : State → Nat → Bool) (k : Nat → Bool) (s : State) (hc : ∀ t, DomainsMoved s t → ∀ d, c t d = k (t.dstate .el d)) :
    ∀ e, (([1, 2, 3, 4, 5] : List Nat).foldl (fun t d => if c t d then t.setDstate .el d 2 else t) s).dstate .el e = if e ∈ [1, 2, 3, 4, 5] then (if k (s.dstate .el e) then 2 else s.dstate .el e) else s.dstate .el e := by
  refine (domainFold (fun t d => if c t d then t.setDstate .el d 2 else t) (fun _ o => if k o then 2 else o) s [1, 2, 3, 4, 5] (by decide) (fun t ht d hd => ?_) s (.refl s)).2
  have hlt : d < domainCount .el := by
    simp only [List.mem_cons, List.not_mem_nil, or_false] at hd
    exact Nat.lt_of_le_of_lt (show d ≤ 5 by omega) (by decide)
  rw [hc t ht]
  split
  · next hk => exact ⟨.setDstate .., fun e => dstate_setDstate t .el e 2 hlt⟩
  · next hk => exact ⟨.refl t, fun e => by split <;> simp_all⟩

section
variable (s : State)

/-- The low domains are ON where their supply is good. -/
def State.domainsUp : State := ([1, 2, 3, 4, 5] : List Nat).foldl (fun t d => if t.dstate .el d ≤ 1 && t.el.supplyCore then t.setDstate .el d 2 else t) s

theorem domainsUp_only : DstateOnly s s.domainsUp := raiseFold (fun t d => t.dstate .el d ≤ 1 && t.el.supplyCore) s [1, 2, 3, 4, 5] s (.refl s)

theorem dstate_domainsUp {e : Nat} (he : e ∈ [1, 2, 3, 4, 5]) : s.domainsUp.dstate .el e = if s.dstate .el e ≤ 1 ∧ s.el.supplyCore = true then 2 else s.dstate .el e := by
  have h := raised (fun t d => t.dstate .el d ≤ 1 && t.el.supplyCore) (fun o => o ≤ 1 && s.el.supplyCore) s (fun t ht d => by rw [ht.kept.supply]) e
  rw [if_pos he] at h
  refine h.trans ?_
  simp only [Bool.and_eq_true, decide_eq_true_eq]

/-- PWR_STAT at the end of a wake. -/
def State.wakeShown (durNs : BitVec 32) : State := (s.domainsUp.put .el Reg.PWR_STAT_WAKING 0).put .el Reg.PWR_STAT_LAST_WAKE durNs.toNat

/-- A wake at its end, before it is logged: both PLLs are locked, and every ford is aligned. -/
def State.wokenUp (durNs : BitVec 32) (f g : Nat) : State :=
  (((s.wakeShown durNs).put .el Reg.CLK_STAT_FMUL_CUR f).modPll .el (fun _ => { activeLocked := true, standbyLocked := true, standbyMul := g, relocking := false })).align .el (fun _ => true)

/-- The next anchor of a sequencer that runs. -/
def State.anchorMet : State := if s.seqState .el = 3 then s.anchorIssue .el (s.seq .el).tStep (s.tbNow .el 0) else s

theorem wakeShown_regs (durNs : BitVec 32) : RegsBut [(.el, 0xA008)] s (s.wakeShown durNs) :=
  ((domainsUp_only s).regs.put .el Reg.PWR_STAT_WAKING 0 (by decide)).put .el Reg.PWR_STAT_LAST_WAKE durNs.toNat (by decide)

theorem wakeShown_rest (durNs : BitVec 32) : (s.wakeShown durNs).el.ports = s.el.ports ∧ (s.wakeShown durNs).el.base.events = s.el.base.events := by
  have h := (domainsUp_only s).rest
  unfold State.wakeShown
  generalize s.domainsUp.el.base.regs = r at h
  rw [h]
  exact ⟨rfl, rfl⟩

theorem wakeShown_reads (durNs : BitVec 32) : (s.wakeShown durNs).get .el Reg.PWR_STAT_WAKING = 0 ∧ (s.wakeShown durNs).get .el Reg.PWR_STAT_LAST_WAKE = durNs.toNat
    ∧ ∀ e, (s.wakeShown durNs).dstate .el e = s.domainsUp.dstate .el e := by
  obtain ⟨a, ha⟩ : ∃ a, s.domainsUp.put .el Reg.PWR_STAT_WAKING 0 = a := ⟨_, rfl⟩
  have hu : s.wakeShown durNs = a.put .el Reg.PWR_STAT_LAST_WAKE durNs.toNat := by rw [← ha]; rfl
  have hoth (f : Fld) (hf : f.hi < 16) : (s.wakeShown durNs).get .el f = a.get .el f := by
    rw [hu]
    exact get_put_other a .el Reg.PWR_STAT_LAST_WAKE f _ (by decide) (by decide) (by omega) (.inr (.inl hf))
  refine ⟨?_, ?_, fun e => congrArg (fun w => dsDigit w e) ?_⟩
  · rw [hoth _ (by decide), ← ha]
    exact get_put_same s.domainsUp .el _ 0 (by decide) (by decide)
  · rw [hu]
    exact (get_put_same a .el _ _ (by decide) (by decide)).trans (Nat.mod_eq_of_lt durNs.isLt)
  · refine (hoth Reg.PWR_STAT_DSTATE (by decide)).trans ?_
    rw [← ha]
    exact get_put_other s.domainsUp .el Reg.PWR_STAT_WAKING Reg.PWR_STAT_DSTATE 0 (by decide) (by decide) (by decide) (by decide)

theorem exec_wakeEnd (durNs : BitVec 32) (h : s.bit .el Reg.PWR_STAT_WAKING = true) :
    exec (.wakeEnd durNs) s = .next ((s.wokenUp durNs s.fmulEff s.fmulEff).log .el 0x0E 0x8010 0 durNs.toNat).anchorMet := by
  have hx : exec (.wakeEnd durNs) s = .next ((s.wokenUp durNs s.domainsUp.fmulEff ((s.wakeShown durNs).put .el Reg.CLK_STAT_FMUL_CUR s.domainsUp.fmulEff).fmulEff).log .el 0x0E 0x8010 0 durNs.toNat).anchorMet :=
    congrArg Host.Outcome.next (if_pos h)
  have hup : s.domainsUp.fmulEff = s.fmulEff :=
    (fmulEff_congr (by rw [(domainsUp_only s).rest]; rfl) ((domainsUp_only s).regs .el 0xA010 (by decide)) ((domainsUp_only s).regs .el 0x3040 (by decide))).1
  have hput (f : Nat) : ((s.wakeShown durNs).put .el Reg.CLK_STAT_FMUL_CUR f).fmulEff = s.fmulEff := by
    have hr (o : Nat) (ho : o ≠ 0xA008 ∧ o ≠ 0xA018) : ((s.wakeShown durNs).put .el Reg.CLK_STAT_FMUL_CUR f).reg .el o = s.reg .el o :=
      (regsBut_put (s.wakeShown durNs) .el Reg.CLK_STAT_FMUL_CUR f .el o (fun e => ho.2 (congrArg Prod.snd (List.mem_singleton.mp e)))).trans (wakeShown_regs s durNs .el o (by simpa using ho.1))
    exact (fmulEff_congr (t := (s.wakeShown durNs).put .el Reg.CLK_STAT_FMUL_CUR f) ((wakeShown_rest s durNs).1) (hr 0xA010 (by decide)) (hr 0x3040 (by decide))).1
  rw [hx, hput, hup]

/-- A wake at its end (R410, R418, R419). -/
theorem wokenUp_reads (durNs : BitVec 32) (f : Nat) : let t := (s.wokenUp durNs f f).log .el 0x0E 0x8010 0 durNs.toNat
    t.bit .el Reg.PWR_STAT_WAKING = false ∧ t.get .el Reg.PWR_STAT_LAST_WAKE = durNs.toNat
      ∧ (∀ e ∈ [1, 2, 3, 4, 5], t.dstate .el e = (if s.dstate .el e ≤ 1 ∧ s.el.supplyCore = true then 2 else s.dstate .el e)) ∧ t.get .el Reg.CLK_STAT_FMUL_CUR = f % 512
      ∧ t.el.base.pll = { activeLocked := true, standbyLocked := true, standbyMul := f, relocking := false } ∧ t.el.base.fords = [] ∧ Logged .el s t [(0x0E, 0x8010, 0, durNs.toNat)]
      ∧ t.seqState .el = s.seqState .el := by
  intro t
  obtain ⟨b, hb⟩ : ∃ b, (s.wakeShown durNs).put .el Reg.CLK_STAT_FMUL_CUR f = b := ⟨_, rfl⟩
  have hcore : t.core = (s.wokenUp durNs f f).core := core_log ..
  have hreg (o : Nat) : t.reg .el o = b.reg .el o := by
    rw [← hb]
    exact (reg_of_core hcore .el o).trans ((reg_mod _ .el .el _ o rfl).trans (reg_mod _ .el .el _ o rfl))
  have hget (g : Fld) (hg : g.off ≠ 0xA018) : t.get .el g = (s.wakeShown durNs).get .el g := by
    refine (get_of_reg (hreg _)).trans ?_
    rw [← hb]
    exact get_put_offs _ .el .el Reg.CLK_STAT_FMUL_CUR g f hg
  obtain ⟨hwaking, hlast, hds⟩ := wakeShown_reads s durNs
  refine ⟨?_, (hget _ (by decide)).trans hlast, fun e he => ?_, ?_, ?_, ?_, ?_, ?_⟩
  · unfold State.bit
    rw [hget _ (by decide), hwaking]
    rfl
  · exact (congrArg (fun w => dsDigit w e) (hget Reg.PWR_STAT_DSTATE (by decide))).trans ((hds e).trans (dstate_domainsUp s he))
  · refine (get_of_reg (hreg _)).trans ?_
    rw [← hb]
    exact get_put_same _ .el _ f (by decide) (by decide)
  · exact (pll_of_core hcore .el)
  · refine (congrArg (fun u => u.el.base.fords) hcore :).trans ?_
    exact List.filter_eq_nil_iff.mpr (fun _ _ => by simp)
  · exact logged_log 0x0E 0x8010 0 durNs.toNat (wakeShown_rest s durNs).2
  · refine (hget Reg.SEQ_STAT_STATE (by decide)).trans ?_
    exact (wakeShown_regs s durNs).get_eq .el Reg.SEQ_STAT_STATE (by decide)

end

/-- An anchor's registers are the sequencer's (R147). -/
theorem reg_anchorIssue (s : State) (t a : Nat) {o : Nat} (ho : 0x3000 ≤ o) : (s.anchorIssue .el t a).reg .el o = s.reg .el o := by
  have hanch : (s.anchored .el).reg .el o = s.reg .el o := by
    unfold State.anchored
    rw [reg_modSeq]
    exact regsBut_put s .el Reg.SEQ_PC_ANCHOR (s.pc .el) .el o (by simp [Reg.SEQ_PC_ANCHOR]; omega)
  have hput (f : Fld) (v : Nat) (hf : f.off < 0x3000) : ((s.anchored .el).put .el f v).reg .el o = s.reg .el o :=
    (regsBut_put (s.anchored .el) .el f v .el o (by simp; omega)).trans hanch
  by_cases h0 : s.tbState .el 0 = 0
  · rw [anchorIssue_unset t a h0]
    exact hanch
  · by_cases ha : a ≤ t
    · rw [anchorIssue_early h0 ha]
      exact hput _ _ (by decide)
    · rw [anchorIssue_late h0 (by omega), (anchorLate_leaves s .el _).2.1]
      exact hput _ _ (by decide)

theorem anchorMet_keeps (s : State) : s.anchorMet.bit .el Reg.PWR_STAT_WAKING = s.bit .el Reg.PWR_STAT_WAKING ∧ ∃ es, Logged .el s s.anchorMet es := by
  unfold State.anchorMet
  split
  · exact ⟨bit_of_reg (reg_anchorIssue s _ _ (by decide)), exists_logged_of_keeps .el (keeps_anchorIssue (keeps_refl s))⟩
  · exact ⟨rfl, [], logged_nil rfl⟩

/-! ### Supplies (R495, R496) -/

section
variable (s : State)

/-- VDD_CORE is good again: the domains that were OFF are ON, unless the PLLs are stopped. -/
theorem coreRises : Ends (.supplyChange 0 true) s (fun u => u.el.supplyCore = true
    ∧ (∀ e ∈ [1, 2, 3, 4, 5], u.dstate .el e = (if s.dstate .el e = 0 ∧ s.fclkStopped = false then 2 else s.dstate .el e)) ∧ RegsBut [(.el, 0xA008)] s u ∧ Logged .el s u []) := by
  obtain ⟨t, ht⟩ : ∃ t, s.modEl (fun e => { e with supplyCore := true }) = t := ⟨_, rfl⟩
  have hx : exec (.supplyChange 0 true) s = .next (if t.fclkStopped then t else ([1, 2, 3, 4, 5] : List Nat).foldl (fun t d => if t.dstate .el d = 0 then t.setDstate .el d 2 else t) t) := by
    rw [← ht]
    rfl
  have hreg : ∀ q o, t.reg q o = s.reg q o := fun q o => by
    rw [← ht]
    cases q <;> rfl
  have hcore : t.el.supplyCore = true := by
    rw [← ht]
    rfl
  have hev : t.el.base.events = s.el.base.events := by
    rw [← ht]
    rfl
  have hds (e : Nat) : t.dstate .el e = s.dstate .el e := dstate_of_reg (hreg ..) e
  have hstop : t.fclkStopped = s.fclkStopped := by
    unfold State.fclkStopped
    rw [bit_of_reg (hreg ..), bit_of_reg (hreg ..)]
  rw [hstop] at hx
  refine ⟨_, hx, ?_⟩
  cases hs : s.fclkStopped
  · rw [if_neg (by decide)]
    have hraise := raised (fun t d => decide (t.dstate .el d = 0)) (fun o => decide (o = 0)) t (fun _ _ _ => rfl)
    have honly := raiseFold (fun t d => decide (t.dstate .el d = 0)) t [1, 2, 3, 4, 5] t (.refl t)
    simp only [decide_eq_true_eq] at hraise honly
    refine ⟨honly.moved.kept.supply.trans hcore, fun e he => ?_, fun q o ho => (honly.regs q o ho).trans (hreg q o), logged_nil (honly.moved.kept.events.trans hev)⟩
    rw [hraise, if_pos he, hds]
    simp
  · rw [if_pos rfl]
    exact ⟨hcore, fun e _ => (hds e).trans (if_neg (by simp)).symm, fun q o _ => hreg q o, logged_nil hev⟩

/-- A domain that was ON loses what it holds with VDD_CORE; one that was OFF already, or held in reset, has none. -/
def State.coreFall (t : State) (d : Nat) : State :=
  if t.dstate .el d = 1 then t
  else if t.dstate .el d = 2 then
    (if d = 2 then (if d = 5 then t.domainLow 5 else t.elDomainReset d).modEl (fun e => { e with wakeQ := [] }) else (if d = 5 then t.domainLow 5 else t.elDomainReset d)).setDstate .el d 0
  else t

theorem moved_wakeQ (t : State) : DomainsMoved t (t.modEl (fun e => { e with wakeQ := [] })) :=
  ⟨⟨rfl, rfl, rfl, rfl, rfl, rfl, rfl, rfl⟩, fun _ _ _ => rfl, fun _ _ _ _ => rfl⟩

theorem coreFall_leaves (t : State) {d : Nat} (h0 : d ≠ 0) (h5 : d ≤ 5) : DomainsMoved t (t.coreFall d)
    ∧ ∀ e, (t.coreFall d).dstate .el e = if e = d then (if t.dstate .el d = 2 then 0 else t.dstate .el d) else t.dstate .el e := by
  have hlt : d < domainCount .el := Nat.lt_of_le_of_lt h5 (by decide)
  have hsame : ∀ n, t.dstate .el d = n → n ≠ 2 → ∀ e, t.dstate .el e = if e = d then (if t.dstate .el d = 2 then 0 else t.dstate .el d) else t.dstate .el e := fun n hn h2 e => by
    rw [if_neg (c := t.dstate .el d = 2) (by omega)]
    split
    · next he => rw [he]
    · rfl
  unfold State.coreFall
  by_cases h1 : t.dstate .el d = 1
  · rw [if_pos h1]
    exact ⟨.refl t, hsame 1 h1 (by decide)⟩
  · rw [if_neg h1]
    by_cases h2 : t.dstate .el d = 2
    · rw [if_pos h2]
      obtain ⟨a, ha⟩ : ∃ a, (if d = 5 then t.domainLow 5 else t.elDomainReset d) = a := ⟨_, rfl⟩
      have hma : DomainsMoved t a ∧ ∀ e, e ≠ d → a.dstate .el e = t.dstate .el e := by
        rw [← ha]
        split
        · next h =>
          subst h
          obtain ⟨hm, hd, -⟩ := domainLow_leaves t h0 h5
          exact ⟨hm, fun e he => (hd e).trans (if_neg he)⟩
        · exact ⟨.reset t h0, fun e _ => dstate_elDomainReset t h0 e⟩
      rw [ha]
      obtain ⟨b, hb⟩ : ∃ b, (if d = 2 then a.modEl (fun e => { e with wakeQ := [] }) else a) = b := ⟨_, rfl⟩
      have hmb : DomainsMoved a b ∧ ∀ e, b.dstate .el e = a.dstate .el e := by
        rw [← hb]
        split
        · exact ⟨moved_wakeQ a, fun e => dstate_of_reg rfl e⟩
        · exact ⟨.refl a, fun _ => rfl⟩
      rw [hb]
      refine ⟨(hma.1.trans hmb.1).trans (.setDstate ..), fun e => ?_⟩
      rw [dstate_setDstate b .el e 0 hlt, if_pos h2]
      split
      · rfl
      · next he => rw [hmb.2, hma.2 e he]
    · rw [if_neg h2]
      exact ⟨.refl t, hsame _ rfl h2⟩

/-- VDD_CORE falls (R495, R496). -/
theorem coreFalls_ends : Ends (.supplyChange 0 false) s (fun u => u.el.supplyCore = false ∧ (∀ e ∈ [1, 2, 3, 4, 5], u.dstate .el e = (if s.dstate .el e = 2 then 0 else s.dstate .el e))
    ∧ (u.dstate .el 1 = 0 → u.el.base.qops = []) ∧ Logged .el s u []) := by
  obtain ⟨t, ht⟩ : ∃ t, s.modEl (fun e => { e with supplyCore := false }) = t := ⟨_, rfl⟩
  obtain ⟨hm, hd⟩ := domainFold State.coreFall (fun _ o => if o = 2 then 0 else o) t [1, 2, 3, 4, 5] (by decide)
    (fun u _ d hd => by
      simp only [List.mem_cons, List.not_mem_nil, or_false] at hd
      exact coreFall_leaves u (by omega) (by omega)) t (.refl t)
  obtain ⟨v, hv⟩ : ∃ v, ([1, 2, 3, 4, 5] : List Nat).foldl State.coreFall t = v := ⟨_, rfl⟩
  rw [hv] at hm hd
  have hx : exec (.supplyChange 0 false) s = .next (if v.dstate .el 1 = 0 then v.mod .el (fun b => { b with qops := [] }) else v) := by
    rw [← hv, ← ht]
    rfl
  have hcore : t.el.supplyCore = false := by
    rw [← ht]
    rfl
  have hev : t.el.base.events = s.el.base.events := by
    rw [← ht]
    rfl
  have hds (e : Nat) : t.dstate .el e = s.dstate .el e := by
    rw [← ht]
    exact dstate_of_reg rfl e
  have hall (e : Nat) (he : e ∈ [1, 2, 3, 4, 5]) : v.dstate .el e = (if s.dstate .el e = 2 then 0 else s.dstate .el e) := by
    rw [hd, if_pos he, hds]
  refine ⟨_, hx, ?_⟩
  split
  · refine ⟨hm.kept.supply.trans hcore, fun e he => (dstate_of_reg rfl e).trans (hall e he), fun _ => rfl, logged_nil (hm.kept.events.trans hev)⟩
  · next h1 => exact ⟨hm.kept.supply.trans hcore, hall, fun h => absurd h h1, logged_nil (hm.kept.events.trans hev)⟩

/-- A domain that was in retention loses what it held with VDD_RET. -/
def State.retFall (t : State) (d : Nat) : State :=
  if t.dstate .el d = 1 then ((t.elDomainReset d).modEl (fun e => if d = 2 then { e with wakeQ := [] } else e)).setDstate .el d 0 else t

theorem retFall_leaves (t : State) {d : Nat} (h0 : d ≠ 0) (h5 : d ≤ 5) : DomainsMoved t (t.retFall d)
    ∧ ∀ e, (t.retFall d).dstate .el e = if e = d then (if t.dstate .el d = 1 then 0 else t.dstate .el d) else t.dstate .el e := by
  have hlt : d < domainCount .el := Nat.lt_of_le_of_lt h5 (by decide)
  unfold State.retFall
  split
  · obtain ⟨b, hb⟩ : ∃ b, (t.elDomainReset d).modEl (fun e => if d = 2 then { e with wakeQ := [] } else e) = b := ⟨_, rfl⟩
    have hmb : DomainsMoved (t.elDomainReset d) b ∧ ∀ e, b.dstate .el e = (t.elDomainReset d).dstate .el e := by
      rw [← hb]
      by_cases hd : d = 2
      · subst hd
        exact ⟨moved_wakeQ _, fun e => dstate_of_reg rfl e⟩
      · simp only [if_neg hd]
        exact ⟨.refl _, fun _ => rfl⟩
    rw [hb]
    refine ⟨((DomainsMoved.reset t h0).trans hmb.1).trans (.setDstate ..), fun e => ?_⟩
    rw [dstate_setDstate b .el e 0 hlt, hmb.2, dstate_elDomainReset t h0]
  · next h =>
    refine ⟨.refl t, fun e => ?_⟩
    split
    · next he => rw [he]
    · rfl

/-- VDD_RET falls (R495). -/
theorem retFalls_ends : Ends (.supplyChange 1 false) s (fun u => u.el.supplyRet = false ∧ (∀ e, e = 1 ∨ e = 2 ∨ e = 4 → u.dstate .el e = (if s.dstate .el e = 1 then 0 else s.dstate .el e))
    ∧ (s.dstate .el 5 = 0 → u.el.spm = []) ∧ Logged .el s u []) := by
  obtain ⟨t, ht⟩ : ∃ t, s.modEl (fun e => { e with supplyRet := false }) = t := ⟨_, rfl⟩
  obtain ⟨hm, hd⟩ := domainFold State.retFall (fun _ o => if o = 1 then 0 else o) t [1, 2, 4] (by decide)
    (fun u _ d hd => by
      simp only [List.mem_cons, List.not_mem_nil, or_false] at hd
      exact retFall_leaves u (by omega) (by omega)) t (.refl t)
  obtain ⟨v, hv⟩ : ∃ v, ([1, 2, 4] : List Nat).foldl State.retFall t = v := ⟨_, rfl⟩
  rw [hv] at hm hd
  have hx : exec (.supplyChange 1 false) s = .next (if v.dstate .el 5 = 0 then v.modEl (fun e => { e with spm := [], spmBad := [] }) else v) := by
    rw [← hv, ← ht]
    rfl
  have hret : t.el.supplyRet = false := by
    rw [← ht]
    rfl
  have hev : t.el.base.events = s.el.base.events := by
    rw [← ht]
    rfl
  have hds (e : Nat) : t.dstate .el e = s.dstate .el e := by
    rw [← ht]
    exact dstate_of_reg rfl e
  have hall (e : Nat) (he : e = 1 ∨ e = 2 ∨ e = 4) : v.dstate .el e = (if s.dstate .el e = 1 then 0 else s.dstate .el e) := by
    rw [hd, if_pos (by simpa using he), hds]
  have h5 : v.dstate .el 5 = s.dstate .el 5 := by
    rw [hd, if_neg (by decide), hds]
  refine ⟨_, hx, ?_⟩
  split
  · exact ⟨hm.kept.ret.trans hret, fun e he => (dstate_of_reg rfl e).trans (hall e he), fun _ => rfl, logged_nil (hm.kept.events.trans hev)⟩
  · next h => exact ⟨hm.kept.ret.trans hret, hall, fun h0 => absurd (h5.trans h0) h, logged_nil (hm.kept.events.trans hev)⟩

end

/-! ### Domains of a Uhloux chip (R420, R421) -/

section
variable (s : State) (d : Fin 24)

theorem uxLow_le {d v : Nat} (h : uxLow d = some v) : v ≤ 1 := by
  unfold uxLow at h
  split at h
  · have := Option.some.inj h
    omega
  · split at h
    · have := Option.some.inj h
      omega
    · split at h
      · have := Option.some.inj h
        omega
      · exact absurd h (by simp)

/-- FORCE_ON keeps a domain ON, but not E1 to E3 above the thermal warning (R421, R528). -/
def State.forcedOn (s : State) (d : Nat) : Bool := bitOf (s.get .ux Reg.UX_PWR_CTRL_FORCE_ON) d && !(s.ux.warnCap && decide (16 ≤ d) && decide (d ≤ 18))

theorem forcedOn_iff (s : State) (d : Nat) : s.forcedOn d = true ↔ bitOf (s.get .ux Reg.UX_PWR_CTRL_FORCE_ON) d = true ∧ ¬ (s.ux.warnCap = true ∧ 16 ≤ d ∧ d ≤ 18) := by
  unfold State.forcedOn
  rw [Bool.and_eq_true, Bool.not_eq_true', Bool.eq_false_iff, Ne, Bool.and_eq_true, Bool.and_eq_true, decide_eq_true_eq, decide_eq_true_eq, and_assoc]

theorem uxDomainIdle_stays (h : uxLow d = none ∨ s.dstate .ux d ≠ 2 ∨ s.forcedOn d = true) : exec (.uxDomainIdle d) s = .next s := by
  change execUxDomainIdle d s = _
  unfold execUxDomainIdle
  split
  · next v hv =>
    refine congrArg Host.Outcome.next (if_neg ?_)
    rintro hc
    rw [Bool.and_eq_true, decide_eq_true_eq, Bool.not_eq_true'] at hc
    rcases h with h | h | h
    · exact absurd (hv.symm.trans h) (by simp)
    · exact h hc.1
    · exact absurd (hc.2.symm.trans h) (by simp)
  · rfl

theorem uxDomainIdle_sleeps {v : Nat} (hv : uxLow d = some v) (h2 : s.dstate .ux d = 2) (hf : s.forcedOn d = false) : exec (.uxDomainIdle d) s = .next (s.setDstate .ux d v) := by
  change execUxDomainIdle d s = _
  unfold execUxDomainIdle
  rw [hv]
  exact congrArg Host.Outcome.next (if_pos (by rw [Bool.and_eq_true, decide_eq_true_eq, Bool.not_eq_true']; exact ⟨h2, hf⟩))

theorem uxDomainOn_stays (h : 2 ≤ s.dstate .ux d ∨ s.ux.stacksLost.contains d.val = true) : exec (.uxDomainOn d) s = .next s := by
  refine congrArg Host.Outcome.next (if_neg ?_)
  rw [Bool.and_eq_true, decide_eq_true_eq, Bool.not_eq_true']
  rintro ⟨h1, h2⟩
  rcases h with h | h
  · omega
  · exact absurd (h2.symm.trans h) (by simp)

/-- A domain wakes; a stack that comes back is in service (R420, R489). -/
theorem uxDomainOn_wakes (h1 : s.dstate .ux d ≤ 1) (h2 : s.ux.stacksLost.contains d.val = false) : Ends (.uxDomainOn d) s (fun u => u.dstate .ux d = 2
    ∧ (3 ≤ d.val → d.val ≤ 10 → bitOf (u.get .ux Reg.UX_IDENT_HBM_STACKS) (d - 3) = true) ∧ RegsBut [(.ux, 0xA008), (.ux, 0x10)] s u ∧ Logged .ux s u []) := by
  obtain ⟨t, ht⟩ : ∃ t, (if 3 ≤ d.val && d.val ≤ 10 then s.setBits .ux Reg.UX_IDENT_HBM_STACKS (2 ^ (d.val - 3)) else s) = t := ⟨_, rfl⟩
  have hx : exec (.uxDomainOn d) s = .next (t.setDstate .ux d.val 2) := by
    rw [← ht]
    exact congrArg Host.Outcome.next (if_pos (by rw [Bool.and_eq_true, decide_eq_true_eq, Bool.not_eq_true']; exact ⟨h1, h2⟩))
  have hregs : RegsBut [(.ux, 0xA008), (.ux, 0x10)] s t := by
    have h0 : RegsBut [(.ux, 0xA008), (.ux, 0x10)] s s := fun _ _ _ => rfl
    rw [← ht]
    split
    · exact h0.put .ux Reg.UX_IDENT_HBM_STACKS _ (by decide)
    · exact h0
  have hbit : 3 ≤ d.val → d.val ≤ 10 → bitOf (t.get .ux Reg.UX_IDENT_HBM_STACKS) (d - 3) = true := fun h3 h10 => by
    rw [← ht, if_pos (by simp [h3, h10])]
    unfold State.setBits
    rw [get_put_same s .ux Reg.UX_IDENT_HBM_STACKS _ (by decide) (by decide), bitOf_eq, Nat.testBit_mod_two_pow, Nat.testBit_or, Nat.testBit_two_pow_self, Bool.or_true, Bool.and_true]
    exact decide_eq_true (show d.val - 3 < 8 by omega)
  have hev : (t.base .ux).events = (s.base .ux).events := by
    rw [← ht]
    split
    · exact events_put ..
    · rfl
  refine ⟨_, hx, dstate_setDstate_same t .ux 2 d.isLt, fun h3 h10 => ?_, fun q o ho => (regs_setDstate t .ux d.val 2 q o ?_).trans (hregs q o ho), logged_nil ((events_setDstate ..).trans hev)⟩
  · exact (congrArg (fun n => bitOf n (d - 3)) (get_put_offs t .ux .ux Reg.UX_PWR_STAT_DSTATE Reg.UX_IDENT_HBM_STACKS _ (by decide))).trans (hbit h3 h10)
  · simp only [List.mem_cons, List.not_mem_nil, or_false, not_or] at ho ⊢
    exact ho.1

end

end Sys2Proof.Machine

/-! SUPPORT. Lanes that fail with their supply or their quadrant (R468, R496), and the obligation of clocks and power. -/

namespace Sys2Proof.Machine

set_option Elab.async false

section
variable (s : State) (p : Part)

/-- What a lane marked FAILED has written, on either part. -/
def failFlds (p : Part) (x : Nat) : List (Part × Fld) :=
  [(p, Reg.LANE_STAT_STATE (laneBlk p x)), (p, Reg.LANE_STAT_FAIL_CAUSE (laneBlk p x))] ++ calFlds p x

theorem failShown_writes (x cause : Nat) : Touch (failFlds p x) s (s.failShown p x cause) := by
  have h1 : Touch (failFlds p x) s (s.leaveFail p x) := .ite ((Touch.refl _ s).modLane ..) (.refl _ s)
  exact (((h1.laneSet p x 6 (by simp [failFlds])).put p _ cause (by simp [failFlds]) ⟨show 8 ≤ 11 by decide, show 11 < 64 by decide⟩).log ..).calClear p x (List.subset_append_right _ _)

theorem laneBlk_apart {x y : Nat} (h : y ≠ x) : laneBlk p y + 0x80 ≤ laneBlk p x ∨ laneBlk p x + 0x80 ≤ laneBlk p y := by
  cases p <;> simp only [laneBlk] <;> omega

/-- No lane that fails writes the state of another. -/
theorem failFlds_free {x y : Nat} (h : y ≠ x) : Fld.free (failFlds p x) p (Reg.LANE_STAT_STATE (laneBlk p y)) := by
  intro f hf _
  refine (Fld.apart_iff _ _).mpr (.inl ?_)
  have hb := laneBlk_apart p h
  have hlo := calShowFld_lo p x
  have hge := laneBlk_ge p y
  simp only [failFlds, calFlds, List.cons_append, List.nil_append, List.mem_cons, List.not_mem_nil, or_false] at hf
  rcases hf with rfl | rfl | rfl | rfl | rfl
  · simp only [Reg.LANE_STAT_STATE]; omega
  · simp only [Reg.LANE_STAT_STATE, Reg.LANE_STAT_FAIL_CAUSE]; omega
  · simp only [Reg.LANE_STAT_STATE, Reg.LANE_TCAL_CAL_DONE]; omega
  · simp only [Reg.LANE_STAT_STATE, Reg.LANE_DELAY_D_PS]; omega
  · simp only [Reg.LANE_STAT_STATE]; omega

theorem laneState_laneFail_other {x y : Nat} (cause : Nat) (hy : laneHere p y = true) (h : y ≠ x) : (s.laneFail p x cause).laneState p y = s.laneState p y := by
  have hk : LaneKept (s.failShown p x cause) (s.laneFail p x cause) := ((LaneKept.refl _).laneLoss p x).absentCheck p
  exact (hk.get p y hy _ (by simp [laneOwn])).trans ((failShown_writes s p x cause).get p _ ⟨show 0 ≤ 2 by decide, show 2 < 64 by decide⟩ (failFlds_free p h))

theorem laneUp_of_failed {s : State} {p : Part} {x : Nat} (h : s.laneState p x = 6) : s.laneUp p x = false := by
  unfold State.laneUp
  rw [h]
  rfl

/-- A lane that fails is not up, and makes no other lane so. -/
theorem laneFailOpen_dark {x y : Nat} (hx : laneHere p x = true) (hy : laneHere p y = true) (h : y = x ∨ s.laneUp p y = false) : (s.laneFailOpen p x).laneUp p y = false := by
  by_cases he : y = x
  · subst he
    exact laneUp_of_failed (laneFail_leaves s.draw.2 p y (1 + s.draw.1.toNat % 9) hx (by omega)).1
  · have hst : (s.laneFailOpen p x).laneState p y = s.laneState p y :=
      (laneState_laneFail_other s.draw.2 p (1 + s.draw.1.toNat % 9) hy he).trans (get_of_reg (reg_draw ..))
    unfold State.laneUp
    rw [hst]
    exact h.resolve_left he

/-- The lanes of a list that were up fail. -/
def State.lanesOff (s : State) (p : Part) (l : List Nat) : State := l.foldl (fun t x => if t.laneUp p x then t.laneFailOpen p x else t) s

theorem lanesOff_dark (l : List Nat) (hl : ∀ x ∈ l, laneHere p x = true) {y : Nat} (hy : laneHere p y = true) : ∀ s : State, y ∈ l ∨ s.laneUp p y = false → (s.lanesOff p l).laneUp p y = false := by
  induction l with
  | nil => exact fun s h => h.resolve_left (by simp)
  | cons x l ih =>
    intro s h
    have hx := hl x List.mem_cons_self
    refine ih (fun z hz => hl z (List.mem_cons_of_mem x hz)) (if s.laneUp p x then s.laneFailOpen p x else s) ?_
    by_cases hm : y ∈ l
    · exact .inl hm
    · right
      have hyx : y = x ∨ s.laneUp p y = false := by
        rcases h with h | h
        · exact .inl ((List.mem_cons.mp h).resolve_right hm)
        · exact .inr h
      split
      · exact laneFailOpen_dark s p hx hy hyx
      · next hup =>
        rcases hyx with rfl | h
        · simpa using hup
        · exact h

end

/-! ### The level of a supply stands -/

/-- The level of VDD_PHY is the same. -/
structure PhySame (s t : State) : Prop where
  phy : t.el.supplyPhy = s.el.supplyPhy

namespace PhySame

variable {s t u : State}

theorem refl (s : State) : PhySame s s := ⟨rfl⟩

theorem core (h : PhySame s t) (hc : u.core = t.core) : PhySame s u := ⟨((congrArg (fun v => v.el.supplyPhy) hc :) : u.el.supplyPhy = t.el.supplyPhy).trans h.phy⟩

theorem mod (h : PhySame s t) (p : Part) (f : Base → Base) : PhySame s (t.mod p f) := ⟨(mod_supplyPhy t p f).trans h.phy⟩

theorem modEl (h : PhySame s t) (f : Elesh → Elesh) (hf : ∀ e, (f e).supplyPhy = e.supplyPhy := by intro; rfl) : PhySame s (t.modEl f) := ⟨(hf t.el).trans h.phy⟩

theorem modUx (h : PhySame s t) (f : Uhloux → Uhloux) : PhySame s (t.modUx f) := ⟨h.phy⟩

theorem put (h : PhySame s t) (p : Part) (f : Fld) (v : Nat) : PhySame s (t.put p f v) := by
  unfold State.put State.setReg
  exact h.mod p _

theorem modLane (h : PhySame s t) (p : Part) (x : Nat) (f : Lane → Lane) : PhySame s (t.modLane p x f) := h.mod p _

theorem log (h : PhySame s t) (p : Part) (a b c d : Nat) : PhySame s (t.log p a b c d) := h.core (core_log ..)

theorem draw (h : PhySame s t) : PhySame s t.draw.2 := ⟨h.phy⟩

theorem ite {a b : State} {c : Prop} [Decidable c] (ha : PhySame s a) (hb : PhySame s b) : PhySame s (if c then a else b) := by
  split
  · exact ha
  · exact hb

theorem aclkSource (h : PhySame s t) : PhySame s t.aclkSource := by
  unfold State.aclkSource
  exact .ite h (.ite ((h.put ..).draw.log ..) (h.put ..))

theorem laneShow (h : PhySame s t) (p : Part) (x : Nat) : PhySame s (t.laneShow p x) := (h.put ..).put ..

theorem laneDrop (h : PhySame s t) (p : Part) (x : Nat) : PhySame s (t.laneDrop p x) := (h.modLane p x _).laneShow p x

theorem laneMove (h : PhySame s t) (p : Part) (x y : Nat) : PhySame s (t.laneMove p x y) := ((h.modLane ..).modLane ..).laneShow p x

theorem tbHoldover (h : PhySame s t) (p : Part) (n : Nat) : PhySame s (t.tbHoldover p n) := (h.put ..).log ..

theorem planeSwitch (h : PhySame s t) (x : Nat) : PhySame s (t.planeSwitch x) := by
  unfold State.planeSwitch
  refine PhySame.ite (PhySame.tbHoldover ?_ ..) ?_
  all_goals
    split
    · exact ((PhySame.ite (((h.modEl _).put ..).modEl _) ((((h.modEl _).put ..).modEl _).put ..)).put ..).log ..
    · exact .ite ((PhySame.ite (((h.modEl _).put ..).modEl _) ((((h.modEl _).put ..).modEl _).put ..)).modEl _) ((PhySame.ite (((h.modEl _).put ..).modEl _) ((((h.modEl _).put ..).modEl _).put ..)).log ..)

theorem elLaneLoss (h : PhySame s t) (x : Nat) : PhySame s (t.elLaneLoss x) := by
  have hd := (h.planeSwitch (1 - x)).laneDrop .el x
  have hf : PhySame s (t.failover x) := (((((h.put .el _ 0).put .el _ 1).planeSwitch (1 - x)).laneMove .el x (1 - x)).log ..).aclkSource
  unfold State.elLaneLoss
  exact .ite (.ite hf (((h.put ..).laneDrop .el x).log ..).aclkSource) (.ite (PhySame.aclkSource (.ite (hd.put ..) hd)) (h.laneDrop .el x))

theorem setMember (h : PhySame s t) (pdi code : Nat) : PhySame s (t.setMember pdi code) := by
  have hm := h.modUx (fun u => { u with members := tput 0 u.members pdi code })
  have hs := hm.put .ux (Reg.UX_LANE_HC_STATE (pdi % 128)) code
  unfold State.setMember
  exact .ite (.ite (hs.put .el Reg.HC_STAT_STATE code) hs) hm

theorem absentCheck (h : PhySame s t) : PhySame s (t.absentCheck .el) := .ite (.ite ((h.put .el Reg.HC_STAT_STATE 0).setMember ..) (h.put ..)) h

theorem laneFailOpen (h : PhySame s t) (x : Nat) : PhySame s (t.laneFailOpen .el x) := by
  have hl : PhySame s (t.draw.2.leaveFail .el x) := .ite (h.draw.modLane ..) h.draw
  exact ((((((hl.put ..).put ..).log ..).put ..).put ..).put ..).elLaneLoss x |>.absentCheck

end PhySame

theorem lanesOff_phy (s : State) (l : List Nat) : (s.lanesOff .el l).el.supplyPhy = s.el.supplyPhy :=
  (List.foldlRecOn (motive := PhySame s) l _ (PhySame.refl s) (fun _ ht x _ => .ite (ht.laneFailOpen x) ht)).phy

/-- With VDD_PHY both lanes of a die fail, and its domain is OFF (R495). -/
theorem phyFalls_ends (s : State) : Ends (.supplyChange 2 false) s (fun u => u.el.supplyPhy = false ∧ u.dstate .el 6 = 0 ∧ u.laneUp .el 0 = false ∧ u.laneUp .el 1 = false) := by
  obtain ⟨t, ht⟩ : ∃ t, s.modEl (fun e => { e with supplyPhy := false }) = t := ⟨_, rfl⟩
  have hx : exec (.supplyChange 2 false) s = .next ((t.lanesOff .el [0, 1]).setDstate .el 6 0) := by
    rw [← ht]
    rfl
  have hup (y : Nat) (hy : laneHere .el y = true) (hm : y ∈ [0, 1]) : ((t.lanesOff .el [0, 1]).setDstate .el 6 0).laneUp .el y = false := by
    have hst : ((t.lanesOff .el [0, 1]).setDstate .el 6 0).laneState .el y = (t.lanesOff .el [0, 1]).laneState .el y := get_of_reg (regs_setDstate _ .el 6 0 .el _ (by
      simp only [laneHere, decide_eq_true_eq] at hy
      simp [Reg.LANE_STAT_STATE, laneBlk]
      omega))
    unfold State.laneUp
    rw [hst]
    exact lanesOff_dark .el [0, 1] (by decide) hy t (.inl hm)
  refine ⟨_, hx, ?_, dstate_setDstate_same _ .el 0 (by decide), hup 0 (by decide) (by decide), hup 1 (by decide) (by decide)⟩
  have hphy : t.el.supplyPhy = false := by
    rw [← ht]
    rfl
  exact (lanesOff_phy t [0, 1]).trans hphy

/-- The lanes of a failed quadrant fail, and the chip asks for replacement (R468). -/
theorem quadrantFail_ends (s : State) (q : Fin 4) (x : Nat) : Ends (.quadrantFail q) s (fun u => bitOf (u.get .ux Reg.UX_REPLACE_CAUSE) 1 = true
    ∧ (40 * q.val ≤ x → x < 40 * q.val + 40 → u.laneUp .ux x = false)) := by
  obtain ⟨l, hl⟩ : ∃ l, (List.range 40).map (fun i => 40 * q.val + i) = l := ⟨_, rfl⟩
  have hx : exec (.quadrantFail q) s = .next ((s.lanesOff .ux l).replaceSet 1) := by
    rw [← hl]
    rfl
  have hmem (y : Nat) : y ∈ l ↔ 40 * q.val ≤ y ∧ y < 40 * q.val + 40 := by
    rw [← hl, List.mem_map]
    constructor
    · rintro ⟨i, hi, rfl⟩
      have := List.mem_range.mp hi
      omega
    · exact fun h => ⟨y - 40 * q.val, List.mem_range.mpr (by omega), by omega⟩
  have hhere (y : Nat) (h : y ∈ l) : laneHere .ux y = true := by
    have := (hmem y).mp h
    have := q.isLt
    exact decide_eq_true (show y < 160 by omega)
  obtain ⟨hset, hregs, -⟩ := replaceSet_leaves (s.lanesOff .ux l) 1 (by decide)
  refine ⟨_, hx, hset, fun h1 h2 => ?_⟩
  have hin := (hmem x).mpr ⟨h1, h2⟩
  have hst : ((s.lanesOff .ux l).replaceSet 1).laneState .ux x = (s.lanesOff .ux l).laneState .ux x := get_of_reg (hregs .ux _ (by
    simp [Reg.LANE_STAT_STATE, laneBlk]
    omega))
  unfold State.laneUp
  rw [hst]
  exact lanesOff_dark .ux l hhere (hhere x hin) s (.inl hin)

/-! ### The obligation -/

/-- The multiplier in use, of either part's clock (R403). -/
def State.mulOf (u : State) (p : Part) : Nat := match p with | .el => u.get .el Reg.CLK_STAT_FMUL_CUR | .ux => u.get .ux Reg.UX_CLK_CTRL_CMUL

theorem fclkSwitch_ends {s : State} {p : Part} (h : ¬ (p = .el ∧ s.fclkStopped = true)) (hr : (s.base p).pll.relocking = true) (ht : s.tick p % 64 = 0) :
    Ends (.fclkSwitch p) s (fun u => (u.get p selFld = 1 - s.get p selFld ∧ (u.base p).pll.activeLocked = true ∧ RegsBut [(p, 0xA018), (p, Reg.SEQ_SLIPS_STEP.off)] s u)
      ∧ (u.base p).pll.standbyLocked = true ∧ (u.base p).pll.relocking = false ∧ (p = .el → u.mulOf p = (s.base p).pll.standbyMul % 512)
      ∧ Logged p s u [(unitClk p, 0x8001, u.get p selFld, u.mulOf p)]) := by
  have hsw := switched_pllSwitch s p true
  obtain ⟨t, hts⟩ : ∃ t, s.pllSwitch p true = t := ⟨_, rfl⟩
  have hx : exec (.fclkSwitch p) s = .next (t.log p (unitClk p) 0x8001 (t.get p selFld) (t.mulOf p)) := by
    rw [← hts]
    cases p
    · exact fclkSwitch_switches h hr ht
    · exact fclkSwitch_switches h hr ht
  rw [hts] at hsw
  have hget (q : Part) (f : Fld) : (t.log p (unitClk p) 0x8001 (t.get p selFld) (t.mulOf p)).get q f = t.get q f := get_of_reg (reg_of_core (core_log ..) ..)
  have hmul : (t.log p (unitClk p) 0x8001 (t.get p selFld) (t.mulOf p)).mulOf p = t.mulOf p := by
    cases p
    · exact hget .el Reg.CLK_STAT_FMUL_CUR
    · exact hget .ux Reg.UX_CLK_CTRL_CMUL
  have hpll := (pll_of_core (core_log t p (unitClk p) 0x8001 (t.get p selFld) (t.mulOf p)) p).trans hsw.pll
  refine ⟨_, hx, ⟨(hget ..).trans hsw.sel, congrArg Pll.activeLocked hpll, fun q o ho => (reg_of_core (core_log ..) ..).trans (hsw.regs q o ho)⟩,
    congrArg Pll.standbyLocked hpll, congrArg Pll.relocking hpll, fun he => ?_, ?_⟩
  · subst he
    exact hmul.trans (hsw.mul rfl)
  · rw [hget p selFld, hmul]
    exact logged_log (unitClk p) 0x8001 (t.get p selFld) (t.mulOf p) hsw.events

theorem TookOver.all {p : Part} {s u : State} (h : TookOver p s u) : (u.get p selFld = 1 - s.get p selFld ∧ (u.base p).pll.activeLocked = true ∧ RegsBut [(p, 0xA018), (p, Reg.SEQ_SLIPS_STEP.off)] s u)
    ∧ u.bit p Reg.CLK_STAT_PLL_FAIL = true ∧ (u.base p).pll.standbyLocked = false ∧ Logged p s u [(unitClk p, 0x8002, s.get p selFld, s.get p selFld)] :=
  ⟨⟨h.sel, h.active, h.regs⟩, h.fail, h.alone, h.logged⟩

/-- A wake that ends on a sequencer that does not run (R418). -/
theorem wakeEnd_ends {s : State} (durNs : BitVec 32) (h : s.bit .el Reg.PWR_STAT_WAKING = true) : Ends (.wakeEnd durNs) s (fun u => u.bit .el Reg.PWR_STAT_WAKING = false
    ∧ ∃ es, Logged .el s u ((0x0E, 0x8010, 0, durNs.toNat) :: es)) := by
  obtain ⟨hw, -, -, -, -, -, hlog, -⟩ := wokenUp_reads s durNs s.fmulEff
  obtain ⟨hkeep, es, hes⟩ := anchorMet_keeps ((s.wokenUp durNs s.fmulEff s.fmulEff).log .el 0x0E 0x8010 0 durNs.toNat)
  exact ⟨_, exec_wakeEnd s durNs h, hkeep.trans hw, es, hlog.trans hes⟩

theorem wakeEnd_stopped {s : State} (durNs : BitVec 32) (h : s.bit .el Reg.PWR_STAT_WAKING = true) (hr : s.seqState .el ≠ 3) :
    exec (.wakeEnd durNs) s = .next ((s.wokenUp durNs s.fmulEff s.fmulEff).log .el 0x0E 0x8010 0 durNs.toNat) := by
  have hx := exec_wakeEnd s durNs h
  obtain ⟨-, -, -, -, -, -, -, hseq⟩ := wokenUp_reads s durNs s.fmulEff
  rwa [State.anchorMet, if_neg (by rwa [hseq])] at hx

/-- Settles O57: each command by its own lemma; the PLL pair, the fords, the domains and the supplies each have a relation for what they may change. -/
theorem clocksAndPower : Obligations.ClocksAndPower := by
  unfold Obligations.ClocksAndPower
  intro p region level durNs d e q x v s
  refine ⟨fclkSwitch_idle, fun hn hr ht => ?_, pllFail_stopped, fun hn hl => ?_, fun hp hl hc hf => ?_, fun hn hl hc hf => ?_, fun h => congrArg Host.Outcome.next (if_pos h), corePllTimeout_ends, fun h => ?_,
    fun h => ⟨droopStretch_ux_fords region h, droopStretch_ux region h⟩, ⟨droopStretch_el_fords s region, fun h => ?_, fun hr h => ?_⟩, throttleChange_ends s level, fun h => ?_, fun h => sleepEntry_ends s h e x,
    fun h => ?_, wakeTrigger_ends s, fun h => ?_, fun h hr => ?_, fun h _ => wakeEnd_ends durNs h, ?_, ?_, rfl, ?_, rfl, phyFalls_ends s, fun h => ?_, fun hv h2 hf => ?_, uxDomainOn_stays s d, uxDomainOn_wakes s d, quadrantFail_ends s q x⟩
  · cases p
    · exact fclkSwitch_ends hn hr ht
    · exact fclkSwitch_ends hn hr ht
  · have ht := (pllFailover_takes s p).all
    refine ⟨_, pllFail_standby hn hl, ?_⟩
    cases p
    · exact ht
    · exact ht
  · subst hp
    exact ⟨_, pllFail_lost hl hc, fclkLost_trips s .ux hf⟩
  · obtain ⟨u, hu, hto⟩ := pllFail_free hn hl hc hf
    refine ⟨u, hu, hto.imp_left fun ht => ?_⟩
    have hall := ht.all
    cases p
    · exact hall
    · exact hall
  · exact congrArg Host.Outcome.next (if_pos (by rw [h]; decide))
  · exact (droopStretch_el s region).trans (congrArg Host.Outcome.next (if_neg (by tauto)))
  · have hx := droopStretch_el s region
    rw [show s.regionOf region = 0 from hr] at hx
    exact hx.trans (congrArg Host.Outcome.next (if_pos ⟨rfl, h⟩))
  · exact congrArg Host.Outcome.next (if_neg (by simp [h]))
  · exact congrArg Host.Outcome.next (if_neg (by simp [h]))
  · exact congrArg Host.Outcome.next (if_neg (by simp [h]))
  · obtain ⟨hw, hlast, hds, hcur, hpll, hfords, hlog, -⟩ := wokenUp_reads s durNs s.fmulEff
    exact ⟨_, wakeEnd_stopped durNs h hr, hw, hlast, hds e, hcur, hpll, hfords, hlog⟩
  · obtain ⟨u, hu, hc, hd, hr, hl⟩ := coreRises s
    exact ⟨u, hu, hc, hd e, hr, hl⟩
  · obtain ⟨u, hu, hc, hd, hr, hl⟩ := coreFalls_ends s
    exact ⟨u, hu, hc, hd e, hr, hl⟩
  · obtain ⟨u, hu, hc, hd, hr, hl⟩ := retFalls_ends s
    exact ⟨u, hu, hc, hd e, hr, hl⟩
  · exact uxDomainIdle_stays s d (h.imp_right (Or.imp_right (forcedOn_iff s d).mpr))
  · exact ⟨uxDomainIdle_sleeps s d hv h2 (Bool.eq_false_iff.mpr fun hon => hf ((forcedOn_iff s d).mp hon)), dstate_setDstate_same s .ux v d.isLt |>.trans (Nat.mod_eq_of_lt (Nat.lt_of_le_of_lt (uxLow_le hv) (by decide)))⟩

end Sys2Proof.Machine

/-! SUPPORT. The stages of the reset ladder, and the end of a guard action (R426 to R429, R433). -/

namespace Sys2Proof.Machine

set_option Elab.async false

/-! ### What a part does beside its guard -/

/-- The guard stands, with GUARD_CTRL and all of GUARD_STAT but MEM_RETAIN and DIE_FATAL; an empty queue stays empty. -/
structure LadderKept (p : Part) (s t : State) : Prop where
  guard  : t.guard p = s.guard p
  stat   : ∀ f : Fld, f.off = 0x9008 → f.hi < 64 → (f.hi < 6 ∨ 7 < f.lo) → t.get p f = s.get p f
  ctrl   : t.reg p 0x9000 = s.reg p 0x9000
  qops   : p = .el → s.el.base.qops = [] → t.el.base.qops = []
  logged : ∃ es, Logged p s t es

namespace LadderKept

variable {p : Part} {s t u : State}

theorem refl (p : Part) (s : State) : LadderKept p s s := ⟨rfl, fun _ _ _ _ => rfl, rfl, fun _ h => h, [], logged_nil rfl⟩

theorem trans (h : LadderKept p s t) (k : LadderKept p t u) : LadderKept p s u := by
  obtain ⟨es, hes⟩ := h.logged
  obtain ⟨fs, hfs⟩ := k.logged
  exact ⟨k.guard.trans h.guard, fun f h1 h2 h3 => (k.stat f h1 h2 h3).trans (h.stat f h1 h2 h3), k.ctrl.trans h.ctrl, fun e hq => k.qops e (h.qops e hq), es ++ fs, hes.trans hfs⟩

theorem put (s : State) (p : Part) (f : Fld) (v : Nat) (hf : f.off = 0x9008 ∧ f.lo ≤ f.hi ∧ 6 ≤ f.lo ∧ f.hi ≤ 7) : LadderKept p s (s.put p f v) := by
  obtain ⟨ho, hlh, hlo, hhi⟩ := hf
  refine ⟨guard_put .., fun g _ h2 h3 => get_put_other s p f g v (by omega) hlh h2 (by omega), regsBut_put s p f v p _ (by simp [ho]), fun e hq => ?_, [], logged_nil (events_put ..)⟩
  subst e
  exact hq

theorem of_die (h : DieKept s t) (hk : Keeps s t) (hq : s.el.base.qops = [] → t.el.base.qops = []) : LadderKept .el s t :=
  ⟨h.held, fun f hf _ _ => get_of_reg (by rw [hf]; exact h.guard), h.ctrl, fun _ => hq, exists_logged_of_keeps .el hk⟩

theorem of_moved (h : DomainsMoved s t) : LadderKept .el s t :=
  ⟨h.kept.guard, fun f hf _ _ => get_of_reg (by rw [hf]; exact h.aon _ (by decide) (by decide)), h.aon _ (by decide) (by decide), fun _ hq => h.kept.qops.trans hq, [], logged_nil h.kept.events⟩

theorem watchKill (s : State) : LadderKept .el s s.watchKill :=
  .of_die (DieKept.watchKill (.refl s)) (keeps_watchKill (keeps_refl s)) (fun hq => (Quiet.watchKill (.refl s)).qops.trans hq)

theorem stepKill (s : State) : LadderKept .el s s.stepKill := by
  have hs : LadderKept .el s s.killStopped := by
    unfold State.killStopped
    split
    · refine ⟨?_, fun f hf _ _ => get_of_reg ((reg_mod _ .el .el _ _ rfl).trans (regsBut_put s .el Reg.SEQ_STAT_STATE 5 .el _ (by rw [hf]; decide))),
        (reg_mod _ .el .el _ _ rfl).trans (regsBut_put s .el Reg.SEQ_STAT_STATE 5 .el _ (by decide)), fun _ hq => hq, exists_logged_of_keeps .el (keeps_toFault (keeps_refl s))⟩
      rfl
    · exact .refl .el s
  have hk := killStopped_kept s
  refine ⟨hk.held.trans hs.guard, fun f hf h2 h3 => (get_of_reg (by rw [hf]; exact hk.guard)).trans (hs.stat f hf h2 h3), hk.ctrl.trans hs.ctrl, fun _ _ => qops_stepKill s, exists_logged_of_keeps .el (keeps_stepKill (keeps_refl s))⟩

end LadderKept

/-! ### A warm reset of a Uhloux chip keeps its guard (R433) -/

/-- The guard of a Uhloux chip stands, with its registers. -/
structure UxGuardKept (s t : State) : Prop where
  guard : t.guard .ux = s.guard .ux
  stat  : t.reg .ux 0x9008 = s.reg .ux 0x9008
  ctrl  : t.reg .ux 0x9000 = s.reg .ux 0x9000

namespace UxGuardKept

variable {s t u : State}

theorem refl (s : State) : UxGuardKept s s := ⟨rfl, rfl, rfl⟩

theorem trans (h : UxGuardKept s t) (k : UxGuardKept t u) : UxGuardKept s u := ⟨k.guard.trans h.guard, k.stat.trans h.stat, k.ctrl.trans h.ctrl⟩

theorem core (h : UxGuardKept s t) (hc : u.core = t.core) : UxGuardKept s u := h.trans ⟨guard_of_core hc .ux, reg_of_core hc .ux _, reg_of_core hc .ux _⟩

theorem put (h : UxGuardKept s t) (f : Fld) (v : Nat) (ho : f.off ≠ 0x9008 ∧ f.off ≠ 0x9000 := by decide) : UxGuardKept s (t.put .ux f v) :=
  h.trans ⟨guard_put .., reg_setReg_other t .ux _ _ _ (Ne.symm ho.1), reg_setReg_other t .ux _ _ _ (Ne.symm ho.2)⟩

theorem putEl (h : UxGuardKept s t) (f : Fld) (v : Nat) : UxGuardKept s (t.put .el f v) := h.trans ⟨rfl, rfl, rfl⟩

theorem modUx (h : UxGuardKept s t) (f : Uhloux → Uhloux) (hb : ∀ v, (f v).base = v.base := by intro; rfl) : UxGuardKept s (t.modUx f) :=
  h.trans ⟨congrArg Base.guard (hb t.ux), reg_modUx t f .ux _ (by rw [hb]), reg_modUx t f .ux _ (by rw [hb])⟩

theorem ite {a b : State} {c : Prop} [Decidable c] (ha : UxGuardKept s a) (hb : UxGuardKept s b) : UxGuardKept s (if c then a else b) := by
  split
  · exact ha
  · exact hb

/-- A register of a lane. -/
theorem putLane (h : UxGuardKept s t) (f : Fld) (v : Nat) (ho : 0x40000 ≤ f.off) : UxGuardKept s (t.put .ux f v) := h.put f v (by omega)

theorem log (h : UxGuardKept s t) (p : Part) (a b c d : Nat) : UxGuardKept s (t.log p a b c d) := h.core (core_log ..)

theorem laneShow (h : UxGuardKept s t) (x : Nat) : UxGuardKept s (t.laneShow .ux x) := by
  have hb := laneBlk_ge .ux x
  exact (h.putLane _ _ (by simp only [Reg.LANE_STAT_UNACKED, laneBlk]; omega)).putLane _ _ (by simp only [Reg.LANE_STAT_RETRY, laneBlk]; omega)

theorem select (h : UxGuardKept s t) (x v : Nat) : UxGuardKept s (t.put .ux (Reg.LANE_STAT_SELECTED (laneBlk .ux x)) v) :=
  h.putLane _ _ (by simp only [Reg.LANE_STAT_SELECTED, laneBlk]; omega)

theorem laneDrop (h : UxGuardKept s t) (x : Nat) : UxGuardKept s (t.laneDrop .ux x) := (h.core (core_modLane t .ux x _)).laneShow x

theorem laneMove (h : UxGuardKept s t) (x y : Nat) : UxGuardKept s (t.laneMove .ux x y) := ((h.core (core_modLane t .ux x _)).core (core_modLane _ .ux y _)).laneShow x

theorem laneSpread (h : UxGuardKept s t) (x : Nat) (ys : List Nat) : UxGuardKept s (t.laneSpread x ys) := by
  refine UxGuardKept.laneShow ?_ x
  exact List.foldlRecOn (motive := UxGuardKept s) _ _ (h.core (core_modLane t .ux x _)) (fun u hu e _ => hu.core (core_modLane u .ux e.1 _))

theorem setMember (h : UxGuardKept s t) (pdi code : Nat) : UxGuardKept s (t.setMember pdi code) := by
  have hm := h.modUx (fun u => { u with members := tput 0 u.members pdi code })
  have hs := hm.putLane (Reg.UX_LANE_HC_STATE (pdi % 128)) code (by simp only [Reg.UX_LANE_HC_STATE]; omega)
  exact .ite (.ite (hs.putEl ..) hs) hm

theorem vaultLost (h : UxGuardKept s t) : UxGuardKept s t.vaultLost := by
  have hm : ∀ {v : State}, UxGuardKept s v → UxGuardKept s v.mirrorFull := fun hv => .ite (hv.putEl ..) hv
  have hu : ∀ {v : State}, UxGuardKept s v → UxGuardKept s v.unmirrored := fun hv => .ite ((hm (hv.put ..)).log ..) (hm (hv.put ..))
  exact hu (UxGuardKept.modUx (.ite (h.putEl ..) h) _)

theorem childAbsent (h : UxGuardKept s t) (x : Nat) : UxGuardKept s (t.childAbsent x) := by
  have ho : ∀ pdi, UxGuardKept s (t.otherPlaneUp pdi).2 := fun pdi => by
    unfold State.otherPlaneUp
    split
    · exact h
    · exact h.core (core_draw t)
  exact .ite (.ite (ho _) ((ho _).setMember ..)) h

theorem candLost (h : UxGuardKept s t) (k : Fin 8) (monitor : Nat) : UxGuardKept s (t.candLost k monitor) := by
  have hclear : ∀ k : Fin 8, Fld.clear (candFlds k ++ lostFlds k ++ seekFlds) (wholeReg 0x9008) = true ∧ Fld.clear (candFlds k ++ lostFlds k ++ seekFlds) (wholeReg 0x9000) = true := by decide
  have hw := (Writes.refl .ux _ t).candLost k monitor (List.Subset.refl _)
  exact h.trans ⟨hw.held, hw.reg _ (hclear k).1, hw.reg _ (hclear k).2⟩

theorem uxLaneLoss (h : UxGuardKept s t) (x : Nat) : UxGuardKept s (t.uxLaneLoss x) := by
  have h1 : UxGuardKept s (match t.laneCand x with | some k => t.candLost k (if k = 6 || k = 7 then 3 else 0) | none => t) := by
    split
    · next k hk => exact h.candLost ⟨k, LaneKept.laneCand_lt t x k hk⟩ _
    · exact h
  unfold State.uxLaneLoss
  refine .ite (((h1.select x 0).laneDrop x).childAbsent x) (.ite ?_ (.ite ?_ (h1.laneDrop x)))
  · exact .ite (.ite ((((h1.select x 0).select _ 1).laneMove x _).log ..) ((((h1.select x 0).laneDrop x).core (core_sendDown ..)).modUx (fun u => { u with awaySent := true }))) (h1.laneDrop x)
  · exact .ite (.ite (h1.laneDrop x).vaultLost (h1.laneDrop x)) ((h1.laneSpread x _).log ..)

theorem setDstate (h : UxGuardKept s t) (d v : Nat) : UxGuardKept s (t.setDstate .ux d v) := h.put Reg.UX_PWR_STAT_DSTATE _

end UxGuardKept

theorem tget_filter {α : Type} (z : α) (t : Tbl α) (keep : Nat → Bool) (o : Nat) : tget z (t.filter (fun x => keep x.1)) o = if keep o then tget z t o else z := by
  induction t with
  | nil => simp [tget]
  | cons x r ih =>
    obtain ⟨k, w⟩ := x
    by_cases hk : keep k = true
    · rw [List.filter_cons_of_pos (by exact hk)]
      by_cases he : k = o
      · subst he
        rw [if_pos hk]
        exact (if_pos rfl).trans (if_pos rfl).symm
      · rw [show tget z ((k, w) :: r) o = tget z r o from if_neg he, ← ih]
        exact if_neg he
    · rw [List.filter_cons_of_neg (by exact hk), ih]
      by_cases he : k = o
      · subst he
        rw [if_neg hk, if_neg hk]
      · rw [show tget z ((k, w) :: r) o = tget z r o from if_neg he]

/-- The lanes that were up no longer serve. -/
def State.lanesLost (s : State) : State := (List.range 160).foldl (fun t x => if t.laneUp .ux x then t.uxLaneLoss x else t) s

/-- What a warm reset makes of a chip whose lanes are lost. -/
def State.warmed (t : State) : State :=
  let u := t.ux
  { t with ux := { u with
      base := { u.base with
        regs := u.base.regs.filter (fun x => uxKept x.1), staged := [], lanes := [], seq := Seq.zero, qops := [], manAt := none, hallArm := false, rbAt := none, mem := [] }
      tc := [], tcSat := [], bars := [], pending := [], slots := [], held := [], groups := [], chainD3 := [], chainLog := [], lastSeal := 0xFFFFFFFFFFFFFFFF, hallLsis := [], accepted := [],
      lockPri := [], lockShd := [], lockBlock := none, lockSync := false, passVotes := [], lseals := [], members := [], lsiOf := [], lsiPort := [], relayFrom := [], obs := [],
      proposals := [], rollback := none, expulsions := [], healthKind := [], vaults := [],
      attested := [], votesOut := [], deadOf := [], assigned := [], paths := [], hall := none, nonces := [], awaySent := false, pcie := none } }

theorem warmReset_eq (s : State) : s.warmReset = s.lanesLost.warmed := by
  unfold State.warmReset State.lanesLost
  obtain ⟨l, hl⟩ : ∃ l, List.range 160 = l := ⟨_, rfl⟩
  rw [hl]
  rfl

theorem reg_warmed (t : State) (o : Nat) : t.warmed.reg .ux o = if uxKept o then t.reg .ux o else uxResetWord o := tget_filter _ t.ux.base.regs uxKept o

theorem guardKept_warmReset (s : State) : UxGuardKept s s.warmReset := by
  have hl : UxGuardKept s s.lanesLost := List.foldlRecOn (motive := UxGuardKept s) _ _ (.refl s) (fun u hu x _ => .ite (hu.uxLaneLoss x) hu)
  rw [warmReset_eq]
  generalize s.lanesLost = t at hl ⊢
  exact hl.trans ⟨rfl, (reg_warmed _ _).trans (if_pos (by decide)), (reg_warmed _ _).trans (if_pos (by decide))⟩

theorem seqState_warmed (t : State) : t.warmed.seqState .ux = 0 := by
  have h : t.warmed.reg .ux Reg.SEQ_STAT_STATE.off = uxResetWord 0x2008 := (reg_warmed t _).trans (if_neg (by decide))
  unfold State.seqState State.get
  rw [h]
  decide

end Sys2Proof.Machine

/-! SUPPORT. The obligation of the guard: triggers, the crash dump, the ladder (R422 to R433, R439). -/

namespace Sys2Proof.Machine

set_option Elab.async false

/-! ### A stage starts (R427, R433) -/

/-- The event of a stage's start. -/
def stageEntry (p : Part) (g : Guard) (n : Nat) : Entry :=
  if n = 1 then (unitGuard p, 0x8022, g.culprit, g.trigger) else if n = 2 then (unitGuard p, 0x8023, g.culprit, unitDomain p g.culprit)
  else match p with | .el => (0x0A, 0x8024, 0, g.trigger) | .ux => (0x46, 0x8030, g.culprit, g.trigger)

/-- What a stage's start does to its domains. -/
structure StageResets (p : Part) (n d : Nat) (u : State) : Prop where
  domain : n = 2 → d ≠ 0 → u.dstate p d = 3
  all    : n = 3 → ∀ x ∈ stage3Domains p, u.dstate p x = 3
  die    : n = 3 → p = .el → u.bit .el Reg.GUARD_STAT_DIE_FATAL = true ∧ u.bit .el Reg.GUARD_STAT_MEM_RETAIN = true ∧ u.el.counters = [] ∧ u.el.spm = [] ∧ u.seqState .el = 0
  chip   : n = 3 → p = .ux → u.ux.base.qops = [] ∧ u.ux.base.mem = [] ∧ u.seqState .ux = 0

section
variable (s : State)

/-- A domain of a die is in reset. -/
def State.inReset (d : Nat) : State := (s.elDomainReset d).setDstate .el d 3

theorem inReset_moved {d : Nat} (h0 : d ≠ 0) (h5 : d ≤ 5) : DomainsMoved s (s.inReset d) ∧ ∀ e, (s.inReset d).dstate .el e = if e = d then 3 else s.dstate .el e := by
  refine ⟨(DomainsMoved.reset s h0).trans (.setDstate ..), fun e => ?_⟩
  unfold State.inReset
  rw [dstate_setDstate _ .el e 3 (Nat.lt_of_le_of_lt h5 (by decide)), dstate_elDomainReset s h0]

theorem seqStat_inReset {d : Nat} (h : d ≠ 1) : (s.inReset d).reg .el 0x2008 = s.reg .el 0x2008 :=
  (regs_setDstate _ .el d 3 .el _ (by decide)).trans (reg_elDomainReset_other s d (by rw [show elDomain 0x2008 = 1 from rfl]; omega))

theorem seqState_inReset : (s.inReset 1).seqState .el = 0 := by
  have h : (s.inReset 1).reg .el Reg.SEQ_STAT_STATE.off = elResetWord 0x2008 :=
    (regs_setDstate _ .el 1 3 .el _ (by decide)).trans (reg_elDomainReset_plain s 1 rfl (fun _ => rfl))
  unfold State.seqState State.get
  rw [h]
  decide

theorem counters_inReset {d : Nat} (h : d ≠ 2) : (s.inReset d).el.counters = s.el.counters := by
  unfold State.inReset
  rw [elDomainReset_eq]
  unfold State.domainDrop
  split
  · rfl
  · exact absurd rfl h
  · rfl
  · rfl
  · rfl

theorem spm_inReset {d : Nat} (h : d ≠ 5) : (s.inReset d).el.spm = s.el.spm := (spm_elDomainReset s d h).1

/-- All domains of a die but AON are in reset. -/
def State.dieReset : State := ([1, 2, 3, 4, 5] : List Nat).foldl State.inReset s

theorem dieReset_leaves : DomainsMoved s s.dieReset ∧ (∀ x ∈ stage3Domains .el, s.dieReset.dstate .el x = 3) ∧ s.dieReset.el.counters = [] ∧ s.dieReset.el.spm = [] ∧ s.dieReset.seqState .el = 0 := by
  obtain ⟨hm, hd⟩ := domainFold State.inReset (fun _ _ => 3) s [1, 2, 3, 4, 5] (by decide)
    (fun u _ d hd => by
      simp only [List.mem_cons, List.not_mem_nil, or_false] at hd
      exact inReset_moved u (by omega) (by omega)) s (.refl s)
  have hr : s.dieReset = ((((s.inReset 1).inReset 2).inReset 3).inReset 4).inReset 5 := rfl
  refine ⟨hm, fun x hx => (hd x).trans (if_pos hx), ?_, ?_, ?_⟩
  · rw [hr, counters_inReset _ (by decide), counters_inReset _ (by decide), counters_inReset _ (by decide)]
    rfl
  · rw [hr]
    rfl
  · rw [hr, seqState_congr (seqStat_inReset _ (by decide)), seqState_congr (seqStat_inReset _ (by decide)), seqState_congr (seqStat_inReset _ (by decide)), seqState_congr (seqStat_inReset _ (by decide)),
      seqState_inReset]

end

section
variable (s : State) (p : Part) (n : Nat)

theorem events_modGuard (f : Guard → Guard) (q : Part) : ((s.modGuard p f).base q).events = (s.base q).events := by cases p <;> cases q <;> rfl

/-- The guard and GUARD_STAT name the stage. -/
def State.stageShown : State := (s.put p Reg.GUARD_STAT_STAGE n).modGuard p (fun g => { g with phase := .stage n, done := [] })

/-- A stage's event. -/
def State.stageLogged : State := (s.stageShown p n).log p (stageEntry p (s.guard p) n).1 (stageEntry p (s.guard p) n).2.1 (stageEntry p (s.guard p) n).2.2.1 (stageEntry p (s.guard p) n).2.2.2

/-- What a stage's start shows, and what it leaves. -/
structure StageBegun (u : State) : Prop where
  guard  : u.guard p = { s.guard p with phase := .stage n, done := [] }
  stage  : n ≤ 3 → u.get p Reg.GUARD_STAT_STAGE = n
  stat   : ∀ f : Fld, f.off = 0x9008 → f.hi < 64 → (f.hi < 6 ∨ 7 < f.lo) → (f.hi < 18 ∨ 19 < f.lo) → u.get p f = s.get p f
  ctrl   : u.reg p 0x9000 = s.reg p 0x9000
  qops   : p = .el → s.el.base.qops = [] → u.el.base.qops = []
  logged : ∃ es, Logged p s u (stageEntry p (s.guard p) n :: es)

theorem stageLogged_begun : StageBegun s p n (s.stageLogged p n) ∧ Logged p s (s.stageLogged p n) [stageEntry p (s.guard p) n] := by
  have hg : (s.stageShown p n).guard p = { s.guard p with phase := .stage n, done := [] } := by
    unfold State.stageShown
    rw [guard_modGuard, guard_put]
  have hr : ∀ o, (s.stageLogged p n).reg p o = (s.put p Reg.GUARD_STAT_STAGE n).reg p o := fun o => (reg_of_core (core_log ..) p o).trans (reg_mod _ p p _ o rfl)
  have hev : ((s.stageShown p n).base p).events = (s.base p).events := (events_modGuard ..).trans (events_put ..)
  have hl : Logged p s (s.stageLogged p n) [stageEntry p (s.guard p) n] := logged_log _ _ _ _ hev
  refine ⟨⟨(guard_of_core (core_log ..) p).trans hg, fun hn => ?_, fun f hf h1 _ h2 => ?_, (hr _).trans (regsBut_put s p Reg.GUARD_STAT_STAGE n p _ (by simp [Reg.GUARD_STAT_STAGE])), fun e hq => ?_, [], hl⟩, hl⟩
  · exact (get_of_reg (hr _)).trans ((get_put_same s p Reg.GUARD_STAT_STAGE n (by decide) (by decide)).trans (Nat.mod_eq_of_lt (Nat.lt_of_le_of_lt hn (by decide))))
  · exact (get_of_reg (hr _)).trans (get_put_other s p Reg.GUARD_STAT_STAGE f n (by decide) (by decide) h1 (.inr h2))
  · subst e
    exact (qops_of_core .el (core_log ..)).trans hq

variable {s p n}

theorem StageBegun.then {u v : State} (h : StageBegun s p n u) (k : LadderKept p u v) : StageBegun s p n v := by
  obtain ⟨es, hes⟩ := h.logged
  obtain ⟨fs, hfs⟩ := k.logged
  exact ⟨k.guard.trans h.guard, fun hn => (k.stat _ rfl (by decide) (by decide)).trans (h.stage hn), fun f h1 h2 h3 h4 => (k.stat f h1 h2 h3).trans (h.stat f h1 h2 h3 h4), k.ctrl.trans h.ctrl,
    fun e hq => k.qops e (h.qops e hq), es ++ fs, hes.trans hfs⟩

end

section
variable (s : State)

/-- Stage 1 resets no domain. -/
theorem stageStart_one (p : Part) : StageBegun s p 1 (s.stageStart p 1) := by
  have h := (stageLogged_begun s p 1).1
  cases p
  · exact h
  · obtain ⟨a, ha⟩ : ∃ a, s.stageLogged .ux 1 = a := ⟨_, rfl⟩
    have hx : s.stageStart .ux 1 = a.mod .ux (fun b => { b with qops := b.qops.filter (fun o => some o.queue != unitQueue (s.guard .ux).culprit) }) := by
      rw [← ha]
      rfl
    rw [ha] at h
    rw [hx]
    exact h.then ⟨rfl, fun f _ _ _ => get_of_reg (reg_mod a .ux .ux _ _ rfl), reg_mod a .ux .ux _ _ rfl, fun e _ => absurd e (by decide), [], logged_nil rfl⟩

theorem elUnitDomain_le (u : Nat) : elUnitDomain u ≤ 5 := by
  unfold elUnitDomain
  split <;> decide

theorem uxUnitDomain_lt (u : Nat) : uxUnitDomain u < 24 := by
  unfold uxUnitDomain
  simp only [Bool.and_eq_true, decide_eq_true_eq]
  split_ifs <;> omega

/-- Stage 2 resets the culprit's domain (R427). -/
theorem stageStart_two_el : StageBegun s .el 2 (s.stageStart .el 2) ∧ StageResets .el 2 (elUnitDomain (s.guard .el).culprit) (s.stageStart .el 2) := by
  have h := (stageLogged_begun s .el 2).1
  obtain ⟨d, hd⟩ : ∃ d, elUnitDomain (s.guard .el).culprit = d := ⟨_, rfl⟩
  have h5 : d ≤ 5 := hd ▸ elUnitDomain_le _
  have hx : s.stageStart .el 2 = if d = 0 then s.stageLogged .el 2 else (if d = 2 then (s.stageLogged .el 2).watchKill else s.stageLogged .el 2).inReset d := by
    rw [← hd]
    rfl
  rw [hd, hx]
  by_cases h0 : d = 0
  · rw [if_pos h0]
    exact ⟨h, fun _ hne => absurd h0 hne, fun e => absurd e (by decide), fun e => absurd e (by decide), fun e => absurd e (by decide)⟩
  · rw [if_neg h0]
    have hk : LadderKept .el (s.stageLogged .el 2) (if d = 2 then (s.stageLogged .el 2).watchKill else s.stageLogged .el 2) := by
      split
      · exact .watchKill _
      · exact .refl ..
    obtain ⟨hm, hds⟩ := inReset_moved (if d = 2 then (s.stageLogged .el 2).watchKill else s.stageLogged .el 2) h0 h5
    exact ⟨(h.then hk).then (.of_moved hm), fun _ _ => (hds d).trans (if_pos rfl), fun e => absurd e (by decide), fun e => absurd e (by decide), fun e => absurd e (by decide)⟩

theorem ladderKept_uxDstate (t : State) (d v : Nat) : LadderKept .ux t (t.setDstate .ux d v) :=
  ⟨guard_put .., fun f hf _ _ => get_of_reg (regs_setDstate t .ux d v .ux _ (by rw [hf]; decide)), regs_setDstate t .ux d v .ux _ (by decide), fun e _ => absurd e (by decide), [], logged_nil (events_setDstate ..)⟩

theorem stageStart_two_ux : StageBegun s .ux 2 (s.stageStart .ux 2) ∧ StageResets .ux 2 (uxUnitDomain (s.guard .ux).culprit) (s.stageStart .ux 2) := by
  have h := (stageLogged_begun s .ux 2).1
  obtain ⟨d, hd⟩ : ∃ d, uxUnitDomain (s.guard .ux).culprit = d := ⟨_, rfl⟩
  have hlt : d < 24 := hd ▸ uxUnitDomain_lt _
  obtain ⟨t, ht⟩ : ∃ t, (s.stageLogged .ux 2).setDstate .ux d 3 = t := ⟨_, rfl⟩
  have hx : s.stageStart .ux 2 = if 3 ≤ d && d ≤ 10 then t.modUx (fun u => { u with vaults := u.vaults.map (fun v => (v.1, { VGen.zero with seen := true })) }) else t := by
    rw [← ht, ← hd]
    rfl
  have hbegun : StageBegun s .ux 2 t := ht ▸ h.then (ladderKept_uxDstate _ d 3)
  have hds : t.dstate .ux d = 3 := ht ▸ dstate_setDstate_same (s.stageLogged .ux 2) .ux 3 hlt
  rw [hd, hx]
  split
  · exact ⟨hbegun.then ⟨rfl, fun _ _ _ _ => rfl, rfl, fun _ hq => hq, [], logged_nil rfl⟩, fun _ _ => hds, fun e => absurd e (by decide), fun e => absurd e (by decide), fun e => absurd e (by decide)⟩
  · exact ⟨hbegun, fun _ _ => hds, fun e => absurd e (by decide), fun e => absurd e (by decide), fun e => absurd e (by decide)⟩

theorem stageEntry_last (p : Part) (g : Guard) {n : Nat} (hn : 3 ≤ n) : stageEntry p g n = match p with | .el => (0x0A, 0x8024, 0, g.trigger) | .ux => (0x46, 0x8030, g.culprit, g.trigger) :=
  (if_neg (by omega)).trans (if_neg (by omega))

/-- Stage 3 of a die resets all its domains but AON, which names the loss of the die (R427, R428). -/
theorem stageStart_three_el {n : Nat} (hn : 3 ≤ n) (d : Nat) : StageBegun s .el n (s.stageStart .el n) ∧ StageResets .el n d (s.stageStart .el n) := by
  have h := (stageLogged_begun s .el n).1
  obtain ⟨a, ha⟩ : ∃ a, (s.stageLogged .el n).put .el Reg.GUARD_STAT_MEM_RETAIN 1 = a := ⟨_, rfl⟩
  obtain ⟨b, hb⟩ : ∃ b, a.put .el Reg.GUARD_STAT_DIE_FATAL 1 = b := ⟨_, rfl⟩
  have hx : s.stageStart .el n = b.watchKill.dieReset := by
    rw [← hb, ← ha]
    unfold State.stageLogged
    rw [stageEntry_last .el _ hn]
    exact (if_neg (by omega)).trans (if_neg (by omega))
  have hka : LadderKept .el (s.stageLogged .el n) a := ha ▸ .put _ .el Reg.GUARD_STAT_MEM_RETAIN 1 (by decide)
  have hkb : LadderKept .el a b := hb ▸ .put _ .el Reg.GUARD_STAT_DIE_FATAL 1 (by decide)
  obtain ⟨hm, hds, hc, hs, hq⟩ := dieReset_leaves b.watchKill
  have hstat : b.watchKill.dieReset.reg .el 0x9008 = b.reg .el 0x9008 := (hm.aon _ (by decide) (by decide)).trans (DieKept.watchKill (.refl b)).guard
  have hfatal : b.get .el Reg.GUARD_STAT_DIE_FATAL = 1 := hb ▸ get_put_same a .el Reg.GUARD_STAT_DIE_FATAL 1 (by decide) (by decide)
  have hretain : b.get .el Reg.GUARD_STAT_MEM_RETAIN = 1 := by
    rw [← hb, get_put_other a .el Reg.GUARD_STAT_DIE_FATAL Reg.GUARD_STAT_MEM_RETAIN 1 (by decide) (by decide) (by decide) (by decide), ← ha]
    exact get_put_same _ .el Reg.GUARD_STAT_MEM_RETAIN 1 (by decide) (by decide)
  rw [hx]
  refine ⟨((h.then (hka.trans hkb)).then (.watchKill b)).then (.of_moved hm), fun e => absurd e (by omega), fun _ => hds, fun _ _ => ⟨?_, ?_, hc, hs, hq⟩, fun _ e => absurd e (by decide)⟩
  · exact bit_of_get ((get_of_reg hstat).trans hfatal)
  · exact bit_of_get ((get_of_reg hstat).trans hretain)

/-- Domains of a chip in reset. -/
theorem uxResetFold (l : List Nat) (hl : ∀ d ∈ l, d < 24) (t : State) : LadderKept .ux t (l.foldl (fun t d => t.setDstate .ux d 3) t)
    ∧ (∀ e, (l.foldl (fun t d => t.setDstate .ux d 3) t).dstate .ux e = if e ∈ l then 3 else t.dstate .ux e)
    ∧ (l.foldl (fun t d => t.setDstate .ux d 3) t).ux.base.qops = t.ux.base.qops ∧ (l.foldl (fun t d => t.setDstate .ux d 3) t).ux.base.mem = t.ux.base.mem
    ∧ (l.foldl (fun t d => t.setDstate .ux d 3) t).reg .ux 0x2008 = t.reg .ux 0x2008 := by
  induction l generalizing t with
  | nil => exact ⟨.refl .ux t, fun _ => rfl, rfl, rfl, rfl⟩
  | cons d l ih =>
    obtain ⟨hk, hd, hq, hm, hr⟩ := ih (fun x hx => hl x (List.mem_cons_of_mem d hx)) (t.setDstate .ux d 3)
    refine ⟨(ladderKept_uxDstate t d 3).trans hk, fun e => (hd e).trans ?_, hq, hm, hr.trans (regs_setDstate t .ux d 3 .ux _ (by decide))⟩
    rw [dstate_setDstate t .ux e 3 (hl d List.mem_cons_self)]
    by_cases he : e = d
    · simp [he]
    · simp [he]

/-- The warm reset of a chip resets all its domains but AON and TIME (R433). -/
theorem stageStart_three_ux {n : Nat} (hn : 3 ≤ n) (d : Nat) : StageBegun s .ux n (s.stageStart .ux n) ∧ StageResets .ux n d (s.stageStart .ux n) := by
  have h := (stageLogged_begun s .ux n).1
  obtain ⟨a, ha⟩ : ∃ a, s.stageLogged .ux n = a := ⟨_, rfl⟩
  have hx : s.stageStart .ux n = uxWarmDomains.foldl (fun t d => t.setDstate .ux d 3) a.warmReset := by
    rw [← ha]
    unfold State.stageLogged
    rw [stageEntry_last .ux _ hn]
    exact (if_neg (by omega)).trans (if_neg (by omega))
  rw [ha] at h
  have hwk := guardKept_warmReset a
  have hw : LadderKept .ux a a.warmReset := ⟨hwk.guard, fun f hf _ _ => get_of_reg (by rw [hf]; exact hwk.stat), hwk.ctrl, fun e _ => absurd e (by decide), exists_logged_of_keeps .ux (keeps_warmReset (keeps_refl a))⟩
  have hqops : a.warmReset.ux.base.qops = [] ∧ a.warmReset.ux.base.mem = [] ∧ a.warmReset.seqState .ux = 0 := by
    rw [warmReset_eq]
    exact ⟨rfl, rfl, seqState_warmed _⟩
  obtain ⟨w, hwr⟩ : ∃ w, a.warmReset = w := ⟨_, rfl⟩
  rw [hwr] at hx hw hqops
  obtain ⟨hk, hds, hrest⟩ := uxResetFold uxWarmDomains (by decide) w
  rw [hx]
  refine ⟨(h.then hw).then hk, fun e => absurd e (by omega), fun _ x hx => (hds x).trans (if_pos hx), fun _ e => absurd e (by decide), fun _ _ => ?_⟩
  obtain ⟨h1, h2, h3⟩ := hqops
  obtain ⟨k1, k2, k3⟩ := hrest
  exact ⟨k1.trans h1, k2.trans h2, (seqState_congr k3).trans h3⟩

end

/-- What a stage's start leaves, on either part. -/
theorem stageStart_begun (s : State) (p : Part) {n : Nat} (h1 : 1 ≤ n) :
    StageBegun s p n (s.stageStart p n) ∧ StageResets p n (unitDomain p (s.guard p).culprit) (s.stageStart p n) := by
  obtain rfl | rfl | h3 : n = 1 ∨ n = 2 ∨ 3 ≤ n := by omega
  · exact ⟨stageStart_one s p, fun e => absurd e (by decide), fun e => absurd e (by decide), fun e => absurd e (by decide), fun e => absurd e (by decide)⟩
  · cases p
    · exact stageStart_two_el s
    · exact stageStart_two_ux s
  · cases p
    · exact stageStart_three_el s h3 _
    · exact stageStart_three_ux s h3 _

/-! ### A guard action ends (R426, R429) -/

/-- The rollback request a guard held may go; nothing else changes. -/
theorem rbRequest_eq (s : State) (p : Part) : ∃ b x, s.rbRequest p = s.modEl (fun e => { e with base := { e.base with guard := { e.base.guard with rbHeld := b } }, ports := { e.ports with rollbackReq := x } })
    ∧ (p = .el → (s.guard .el).rbHeld = true → s.bit .el Reg.GUARD_STAT_DIE_FATAL = false → x = true) := by
  by_cases h : (p == .el && (s.guard .el).rbHeld && !s.bit .el Reg.GUARD_STAT_DIE_FATAL) = true
  · exact ⟨false, true, if_pos h, fun _ _ _ => rfl⟩
  · refine ⟨(s.guard .el).rbHeld, s.el.ports.rollbackReq, if_neg h, fun hp hr hd => absurd ?_ h⟩
    rw [hp, hr, hd]
    rfl

/-- No guard action is in progress. -/
structure LadderIdle (p : Part) (u : State) : Prop where
  phase  : (u.guard p).phase = .idle
  active : u.bit p Reg.GUARD_STAT_ACTIVE = false
  issue  : (u.seq p).stopIssue = false

/-- A rollback request the guard of `s` held goes where DIE_FATAL does not hold it (R429). -/
def State.asked (s : State) (p : Part) (u : State) : Prop := p = .el → (s.guard p).rbHeld = true → u.bit .el Reg.GUARD_STAT_DIE_FATAL = false → u.el.ports.rollbackReq = true

/-- A guard action has ended. -/
structure LadderOver (p : Part) (s u : State) : Prop where
  idle   : LadderIdle p u
  asks   : s.asked p u
  regs   : RegsBut [(p, 0x9008)] s u
  stat   : ∀ f : Fld, f.off = 0x9008 → f.hi < 64 → (f.hi < 3 ∨ 3 < f.lo) → u.get p f = s.get p f
  dump   : (u.guard p).dump = (s.guard p).dump
  beats  : (u.guard p).hbStopped = (s.guard p).hbStopped
  logged : Logged p s u []
  qops   : u.el.base.qops = s.el.base.qops
  chip   : u.ux.base.fords = s.ux.base.fords ∧ u.ux.pcie = s.ux.pcie ∧ u.ux.lanesHeld = s.ux.lanesHeld ∧ u.ux.fwNext = s.ux.fwNext

theorem guardEnd_over (s : State) (p : Part) : LadderOver p s (s.guardEnd p) := by
  obtain ⟨a, ha⟩ : ∃ a, s.put p Reg.GUARD_STAT_ACTIVE 0 = a := ⟨_, rfl⟩
  obtain ⟨t, ht⟩ : ∃ t, (a.modGuard p (fun g => { g with phase := .idle, done := [] })).modSeq p (fun q => { q with stopIssue := false }) = t := ⟨_, rfl⟩
  have hreg : ∀ q o, t.reg q o = a.reg q o := fun q o => ht ▸ reg_guardSeq a p q _ _ o
  have hguard : t.guard p = { s.guard p with phase := .idle, done := [] } := by
    rw [← ht, guard_modSeq, guard_modGuard, ← ha, guard_put]
  have hseq : (t.seq p).stopIssue = false := by
    rw [← ht]
    cases p <;> rfl
  have hrest : (t.base p).events = (s.base p).events ∧ t.el.base.qops = s.el.base.qops ∧ t.ux.base.fords = s.ux.base.fords ∧ t.ux.pcie = s.ux.pcie ∧ t.ux.lanesHeld = s.ux.lanesHeld ∧ t.ux.fwNext = s.ux.fwNext := by
    rw [← ht, ← ha]
    cases p <;> exact ⟨rfl, rfl, rfl, rfl, rfl, rfl⟩
  obtain ⟨hev, hq, hchip⟩ := hrest
  obtain ⟨b, x, hx, hasks⟩ := rbRequest_eq t p
  have hu : s.guardEnd p = t.rbRequest p := by
    rw [← ht, ← ha]
    rfl
  have hur : ∀ q o, (s.guardEnd p).reg q o = a.reg q o := fun q o => by
    rw [hu, hx, ← hreg]
    cases q <;> rfl
  have hug : ((s.guardEnd p).guard p).phase = (t.guard p).phase ∧ ((s.guardEnd p).guard p).dump = (t.guard p).dump ∧ ((s.guardEnd p).guard p).hbStopped = (t.guard p).hbStopped
      ∧ ((s.guardEnd p).seq p).stopIssue = (t.seq p).stopIssue ∧ ((s.guardEnd p).base p).events = (t.base p).events := by
    rw [hu, hx]
    cases p <;> exact ⟨rfl, rfl, rfl, rfl, rfl⟩
  obtain ⟨hphase, hdump, hbeat, hissue, hevents⟩ := hug
  have hother (f : Fld) (h1 : f.hi < 64) (h2 : f.off ≠ 0x9008 ∨ f.hi < 3 ∨ 3 < f.lo) : (s.guardEnd p).get p f = s.get p f :=
    (get_of_reg (hur ..)).trans (ha ▸ get_put_other s p Reg.GUARD_STAT_ACTIVE f 0 (by decide) (by decide) h1 h2)
  have hactive : (s.guardEnd p).bit p Reg.GUARD_STAT_ACTIVE = false := by
    unfold State.bit
    rw [get_of_reg (hur ..), ← ha, get_put_same s p Reg.GUARD_STAT_ACTIVE 0 (by decide) (by decide)]
    rfl
  refine ⟨⟨hphase.trans (congrArg Guard.phase hguard), hactive, hissue.trans hseq⟩,
    fun hp hh hd => ?_, fun q o ho => (hur q o).trans (ha ▸ regsBut_put s p Reg.GUARD_STAT_ACTIVE 0 q o ho), fun f hf h1 h2 => hother f h1 (.inr h2), hdump.trans (congrArg Guard.dump hguard :),
    hbeat.trans (congrArg Guard.hbStopped hguard :), logged_nil (hevents.trans hev), ?_, ?_⟩
  · subst hp
    have hfatal : t.bit .el Reg.GUARD_STAT_DIE_FATAL = false := (bit_of_reg ((hreg ..).trans (hur ..).symm)).trans hd
    have hheld : (t.guard .el).rbHeld = true := (congrArg Guard.rbHeld hguard).trans hh
    rw [hu, hx]
    exact hasks rfl hheld hfatal
  · rw [hu, hx]
    exact hq
  · rw [hu, hx]
    exact hchip

/-! ### The ladder begins (R426) -/

/-- What `starts` says of a ladder's stage. -/
def State.stageStarts (s : State) (p : Part) (g : Guard) (n : Nat) (v : State) : Prop :=
  (v.guard p).phase = .stage n ∧ v.get p Reg.GUARD_STAT_STAGE = n ∧ (∃ pre post, Logged p s v (pre ++ stageEntry p g n :: post))
    ∧ (n = 2 → unitDomain p g.culprit ≠ 0 → v.dstate p (unitDomain p g.culprit) = 3)
    ∧ (n = 3 → (∀ x ∈ stage3Domains p, v.dstate p x = 3) ∧ (p = .el → v.bit .el Reg.GUARD_STAT_DIE_FATAL = true ∧ v.bit .el Reg.GUARD_STAT_MEM_RETAIN = true ∧ v.el.counters = [] ∧ v.el.spm = [] ∧ v.seqState .el = 0)
      ∧ (p = .ux → v.ux.base.qops = [] ∧ v.ux.base.mem = [] ∧ v.seqState .ux = 0))

theorem stageStarts_of {s t : State} {p : Part} {n : Nat} {es : List Entry} (hl : Logged p s t es) (h1 : 1 ≤ n) (h3 : n ≤ 3) : s.stageStarts p (t.guard p) n (t.stageStart p n) := by
  obtain ⟨hb, hr⟩ := stageStart_begun t p h1
  obtain ⟨fs, hfs⟩ := hb.logged
  exact ⟨congrArg Guard.phase hb.guard, hb.stage h3, ⟨es, fs, hl.trans hfs⟩, hr.domain, fun e => ⟨hr.all e, hr.die e, hr.chip e⟩⟩

/-- The first stage of a ladder. -/
def Guard.first (g : Guard) : Nat := if g.fclkLoss = true then 3 else g.firstStage

/-- What follows a crash dump that holds no action (R426). -/
structure LadderProceeds (p : Part) (s v : State) : Prop where
  ends   : (s.guard p).first = 0 → LadderIdle p v
  starts : 1 ≤ (s.guard p).first → (s.guard p).first ≤ 3 → s.stageStarts p (s.guard p) (s.guard p).first v
  qops   : p = .el → v.el.base.qops = []

/-- What a ladder that begins leaves of the guard's registers, and of the dump. -/
structure GuardShown (p : Part) (s v : State) : Prop where
  busy  : v.get p Reg.GUARD_STAT_DUMP_BUSY = s.get p Reg.GUARD_STAT_DUMP_BUSY
  valid : v.get p Reg.GUARD_STAT_DUMP_VALID = s.get p Reg.GUARD_STAT_DUMP_VALID
  ctrl  : v.reg p 0x9000 = s.reg p 0x9000
  dump  : (v.guard p).dump = (s.guard p).dump

/-- The state the ladder begins from: a die has taken the step kill. -/
def State.ladderFrom (s : State) (p : Part) : State := match p with | .el => s.stepKill | .ux => s

theorem ladderFrom_kept (s : State) (p : Part) : LadderKept p s (s.ladderFrom p) ∧ (p = .el → (s.ladderFrom p).el.base.qops = []) := by
  cases p
  · have h : s.ladderFrom .el = s.stepKill := rfl
    rw [h]
    exact ⟨.stepKill s, fun _ => qops_stepKill s⟩
  · exact ⟨.refl .ux s, fun e => absurd e (by decide)⟩

/-- The guard's action is held (R426). -/
def State.holdsAction (s : State) (p : Part) : Prop := p = .el ∧ s.runMode = 2 ∧ s.bit .el Reg.GUARD_CTRL_FAULT_HOLD = true

theorem guardProceed_held {s : State} {p : Part} (h : s.holdsAction p) : s.guardProceed p = s.modGuard p (fun g => { g with phase := .heldFault }) := by
  obtain ⟨rfl, hm, hb⟩ := h
  exact if_pos (by rw [hm, hb]; rfl)

theorem guardProceed_free {s : State} {p : Part} (h : ¬ s.holdsAction p) :
    s.guardProceed p = if (s.guard p).first = 0 then (s.ladderFrom p).guardEnd p else (s.ladderFrom p).stageStart p (s.guard p).first := by
  have hc : ¬ (p == .el && s.runMode == 2 && s.bit .el Reg.GUARD_CTRL_FAULT_HOLD) = true := by
    rw [Bool.and_eq_true, Bool.and_eq_true, beq_iff_eq, beq_iff_eq, and_assoc]
    exact h
  have hx : s.guardProceed p = if p == .el && s.runMode == 2 && s.bit .el Reg.GUARD_CTRL_FAULT_HOLD then s.modGuard p (fun g => { g with phase := .heldFault })
      else if (s.guard p).first = 0 then (s.ladderFrom p).guardEnd p else (s.ladderFrom p).stageStart p (s.guard p).first := by
    cases p <;> rfl
  exact hx.trans (if_neg hc)

theorem guardProceed_proceeds {s : State} {p : Part} (h : ¬ s.holdsAction p) : LadderProceeds p s (s.guardProceed p) ∧ GuardShown p s (s.guardProceed p) ∧ ∃ es, Logged p s (s.guardProceed p) es := by
  obtain ⟨hk, hq⟩ := ladderFrom_kept s p
  obtain ⟨es, hes⟩ := hk.logged
  have hx := guardProceed_free h
  have hb := hk.stat Reg.GUARD_STAT_DUMP_BUSY rfl (by decide) (by decide)
  have hv := hk.stat Reg.GUARD_STAT_DUMP_VALID rfl (by decide) (by decide)
  by_cases h0 : (s.guard p).first = 0
  · have ho := guardEnd_over (s.ladderFrom p) p
    rw [if_pos h0] at hx
    rw [hx]
    refine ⟨⟨fun _ => ho.idle, fun h1 => absurd h0 (by omega), fun e => ho.qops.trans (hq e)⟩, ⟨(ho.stat _ rfl (by decide) (by decide)).trans hb, (ho.stat _ rfl (by decide) (by decide)).trans hv,
      (ho.regs p 0x9000 (by simp)).trans hk.ctrl, ho.dump.trans (congrArg Guard.dump hk.guard)⟩, es ++ [], hes.trans ho.logged⟩
  · obtain ⟨hbegun, -⟩ := stageStart_begun (s.ladderFrom p) p (n := (s.guard p).first) (by omega)
    obtain ⟨fs, hfs⟩ := hbegun.logged
    rw [if_neg h0] at hx
    rw [hx]
    refine ⟨⟨fun e => absurd e h0, fun h1 h3 => ?_, fun e => hbegun.qops e (hq e)⟩, ⟨(hbegun.stat _ rfl (by decide) (by decide) (by decide)).trans hb, (hbegun.stat _ rfl (by decide) (by decide) (by decide)).trans hv,
      hbegun.ctrl.trans hk.ctrl, (congrArg Guard.dump hbegun.guard).trans (congrArg Guard.dump hk.guard :)⟩, _, hes.trans hfs⟩
    rw [← hk.guard]
    exact stageStarts_of hes (by rw [hk.guard]; exact h1) (by rw [hk.guard]; exact h3)

/-! ### Triggers (R422, R424, R425) -/

theorem guardFree_log {s : State} {p : Part} (h : s.guardFree p) (a b c d : Nat) : (s.log p a b c d).guardFree p := by
  have hb : ∀ f, (s.log p a b c d).bit p f = s.bit p f := fun f => bit_of_reg (reg_of_core (core_log ..) p f.off)
  unfold State.guardFree State.guardActive
  rw [hb, hb, hb]
  exact h

/-- A command that logs its cause and triggers a free guard. -/
theorem triggers_free {i : Instr} {s : State} {p : Part} {U C o d code who : Nat} (hx : exec i s = .next ((s.log p U C o d).guardTrigger p code who 1 false)) (hc : code < 16) (hf : s.guardFree p) :
    Ends i s (fun v => v.triggered p code who 1 ∧ ∃ es, Logged p s v ((U, C, o, d) :: es)) := by
  obtain ⟨es, hes⟩ := exists_logged_of_keeps p (keeps_guardTrigger (p := p) (code := code) (unit := who) (first := 1) (ran := false) (keeps_refl (s.log p U C o d)))
  exact ⟨_, hx, (guardTrigger_trips (s.log p U C o d) p code who 1 false (guardFree_log hf ..) hc).triggered, es, (logged_log U C o d rfl).trans hes⟩

/-- A command that logs its cause and triggers a busy guard, which counts it (R426). -/
theorem triggers_active {i : Instr} {s : State} {p : Part} {U C o d code who : Nat} (hx : exec i s = .next ((s.log p U C o d).guardTrigger p code who 1 false)) (hc : code ≠ 6) (ha : s.guardActive p = true) :
    Ends i s (fun v => (v.get p Reg.GUARD_STAT_LATER = min 65535 (s.get p Reg.GUARD_STAT_LATER + 1) ∧ RegsBut [(p, Reg.GUARD_STAT_ACTIVE.off)] s v) ∧ v.guard p = s.guard p ∧ Logged p s v [(U, C, o, d)]) := by
  obtain ⟨t, ht⟩ : ∃ t, s.log p U C o d = t := ⟨_, rfl⟩
  have hcore : t.core = s.core := ht ▸ core_log ..
  have hact : t.guardActive p = true := (bit_of_reg (reg_of_core hcore p _)).trans ha
  rw [ht, guardTrigger_of_active who 1 false hact hc] at hx
  refine ⟨_, hx, ⟨?_, fun q o ho => (regsBut_put t p Reg.GUARD_STAT_LATER _ q o ho).trans (reg_of_core hcore q o)⟩, (guard_put ..).trans (guard_of_core hcore p), ?_⟩
  · rw [get_count t p Reg.GUARD_STAT_LATER 1 (by decide) (by decide), get_of_reg (reg_of_core hcore p _)]
    rfl
  · exact (ht ▸ logged_log U C o d rfl : Logged p s t [(U, C, o, d)]).congr (events_put ..)

/-! ### The crash dump (R430 to R432) -/

theorem modGuard_congr {s : State} {p : Part} {f g : Guard → Guard} (h : f (s.guard p) = g (s.guard p)) : s.modGuard p f = s.modGuard p g :=
  congrArg (fun x => s.setBase p { s.base p with guard := x }) h

theorem dumpReadTimeout_idle {s : State} {p : Part} {unit : Byte} {word : BitVec 32} (h : s.bit p Reg.GUARD_STAT_DUMP_BUSY = false ∨ s.dumpWordIn p unit.toNat word.toNat = false) :
    exec (.dumpReadTimeout p unit word) s = .next s :=
  congrArg Host.Outcome.next (if_neg (by rcases h with h | h <;> simp [h]))

/-- The section of a word that cannot be read ends there; one that has ended already stands. -/
theorem dumpReadTimeout_ends {s : State} {p : Part} {unit : Byte} {word : BitVec 32} {dump : Dump} (hb : s.bit p Reg.GUARD_STAT_DUMP_BUSY = true) (hw : s.dumpWordIn p unit.toNat word.toNat = true)
    (hd : (s.guard p).dump = some dump) : exec (.dumpReadTimeout p unit word) s = .next (s.modGuard p (fun x =>
      { x with dump := some (if dump.firstBad unit.toNat = none then { dump with bad := dump.bad ++ [(unit.toNat, word.toNat)] } else dump) })) := by
  refine congrArg Host.Outcome.next ((if_pos (by rw [hb, hw]; rfl)).trans (modGuard_congr ?_))
  rw [hd, Option.map_some]
  cases dump.firstBad unit.toNat <;> rfl

theorem dumpComplete_idle {s : State} {p : Part} (h : s.bit p Reg.GUARD_STAT_DUMP_BUSY = false ∨ (s.guard p).dump = none) : exec (.dumpComplete p) s = .next s := by
  change execDumpComplete p s = _
  unfold execDumpComplete
  rcases h with h | h
  · rw [h]
    cases (s.guard p).dump <;> rfl
  · rw [h]

/-- A dump that is complete, before it goes out. -/
def State.dumpShown (s : State) (p : Part) (dump : Dump) : State :=
  ((s.put p Reg.GUARD_STAT_DUMP_BUSY 0).put p Reg.GUARD_STAT_DUMP_VALID 1).modGuard p (fun g => { g with dump := some { dump with done := true } })

/-- A complete dump, before the guard's action proceeds. -/
def State.dumpSent (s : State) (p : Part) (dump : Dump) : State :=
  let t := (s.dumpShown p dump).log p (unitGuard p) 0x8025 dump.unit (dump.mask p)
  if t.bit p Reg.GUARD_CTRL_DUMP_PUSH then (fragments (dump.bytes t.el.lic p)).foldl (fun t f => t.sendUp p (.dump f.1 f.2.1 f.2.2)) t else t

theorem exec_dumpComplete {s : State} {p : Part} {dump : Dump} (hb : s.bit p Reg.GUARD_STAT_DUMP_BUSY = true) (hd : (s.guard p).dump = some dump) :
    exec (.dumpComplete p) s = .next ((s.dumpSent p dump).guardProceed p) := by
  change execDumpComplete p s = _
  unfold execDumpComplete
  rw [hd, hb]
  rfl

theorem reg_modGuard (s : State) (p q : Part) (f : Guard → Guard) (o : Nat) : (s.modGuard p f).reg q o = s.reg q o := reg_mod s p q _ o rfl

/-- What a complete dump shows. -/
structure DumpSent (p : Part) (s : State) (dump : Dump) (t : State) : Prop where
  busy   : t.get p Reg.GUARD_STAT_DUMP_BUSY = 0
  valid  : t.get p Reg.GUARD_STAT_DUMP_VALID = 1
  regs   : RegsBut [(p, 0x9008)] s t
  guard  : t.guard p = { s.guard p with dump := some { dump with done := true } }
  logged : Logged p s t [(unitGuard p, 0x8025, dump.unit, dump.mask p)]

theorem dumpSent_shows (s : State) (p : Part) (dump : Dump) : DumpSent p s dump (s.dumpSent p dump) := by
  obtain ⟨a, ha⟩ : ∃ a, s.put p Reg.GUARD_STAT_DUMP_BUSY 0 = a := ⟨_, rfl⟩
  obtain ⟨b, hb⟩ : ∃ b, s.dumpShown p dump = b := ⟨_, rfl⟩
  have hreg : ∀ q o, b.reg q o = (a.put p Reg.GUARD_STAT_DUMP_VALID 1).reg q o := fun q o => by
    rw [← hb, ← ha]
    exact reg_modGuard ..
  have hguard : b.guard p = { s.guard p with dump := some { dump with done := true } } := by
    rw [← hb]
    unfold State.dumpShown
    rw [guard_modGuard, guard_put, guard_put]
  have hev : (b.base p).events = (s.base p).events := by
    rw [← hb]
    exact (events_modGuard ..).trans ((events_put ..).trans (events_put ..))
  have hlog : Logged p s (b.log p (unitGuard p) 0x8025 dump.unit (dump.mask p)) [(unitGuard p, 0x8025, dump.unit, dump.mask p)] := logged_log _ _ _ _ hev
  obtain ⟨t, ht⟩ : ∃ t, b.log p (unitGuard p) 0x8025 dump.unit (dump.mask p) = t := ⟨_, rfl⟩
  have hsent : (s.dumpSent p dump).core = b.core ∧ ((s.dumpSent p dump).base p).events = (t.base p).events := by
    have hu : s.dumpSent p dump = if t.bit p Reg.GUARD_CTRL_DUMP_PUSH then (fragments (dump.bytes t.el.lic p)).foldl (fun t f => t.sendUp p (.dump f.1 f.2.1 f.2.2)) t else t := by
      rw [← ht, ← hb]
      rfl
    have htc : t.core = b.core := ht ▸ core_log ..
    rw [hu]
    split
    · exact List.foldlRecOn (motive := fun u : State => u.core = b.core ∧ (u.base p).events = (t.base p).events) _ _ ⟨htc, rfl⟩ (fun u hu f _ => ⟨(core_sendUp ..).trans hu.1, (events_sendUp ..).trans hu.2⟩)
    · exact ⟨htc, rfl⟩
  obtain ⟨hcore, hevents⟩ := hsent
  have hall : ∀ q o, (s.dumpSent p dump).reg q o = (a.put p Reg.GUARD_STAT_DUMP_VALID 1).reg q o := fun q o => (reg_of_core hcore q o).trans (hreg q o)
  refine ⟨?_, (get_of_reg (hall ..)).trans (get_put_same a p Reg.GUARD_STAT_DUMP_VALID 1 (by decide) (by decide)), fun q o ho => ?_, (guard_of_core hcore p).trans hguard, (ht ▸ hlog).congr hevents⟩
  · rw [get_of_reg (hall ..), get_put_other a p Reg.GUARD_STAT_DUMP_VALID Reg.GUARD_STAT_DUMP_BUSY 1 (by decide) (by decide) (by decide) (by decide), ← ha, get_put_same s p Reg.GUARD_STAT_DUMP_BUSY 0 (by decide) (by decide)]
    rfl
  · exact (hall q o).trans ((regsBut_put a p Reg.GUARD_STAT_DUMP_VALID 1 q o ho).trans (ha ▸ regsBut_put s p Reg.GUARD_STAT_DUMP_BUSY 0 q o ho))

theorem LadderProceeds.shift {s t v : State} {p : Part} {es : List Entry} (hl : Logged p s t es) (hf : (t.guard p).first = (s.guard p).first) (hc : (t.guard p).culprit = (s.guard p).culprit)
    (ht : (t.guard p).trigger = (s.guard p).trigger) (h : LadderProceeds p t v) : LadderProceeds p s v := by
  refine ⟨fun h0 => h.ends (hf.trans h0), fun h1 h3 => ?_, h.qops⟩
  obtain ⟨hphase, hstage, ⟨pre, post, hlog⟩, hdom, hall⟩ := h.starts (hf ▸ h1) (hf ▸ h3)
  have hentry : stageEntry p (t.guard p) (t.guard p).first = stageEntry p (s.guard p) (s.guard p).first := by
    unfold stageEntry
    rw [hf, hc, ht]
  rw [hf] at hphase hstage hdom hall
  rw [hc] at hdom
  rw [hentry] at hlog
  exact ⟨hphase, hstage, ⟨es ++ pre, post, by rw [List.append_assoc]; exact hl.trans hlog⟩, hdom, hall⟩

/-- A complete dump (R426, R432). -/
theorem dumpComplete_ends {s : State} {p : Part} {dump : Dump} (hb : s.bit p Reg.GUARD_STAT_DUMP_BUSY = true) (hd : (s.guard p).dump = some dump) :
    Ends (.dumpComplete p) s (fun v => v.bit p Reg.GUARD_STAT_DUMP_BUSY = false ∧ v.bit p Reg.GUARD_STAT_DUMP_VALID = true ∧ (v.guard p).dump = some { dump with done := true }
      ∧ (s.holdsAction p → (v.guard p).phase = .heldFault) ∧ (¬ s.holdsAction p → LadderProceeds p s v) ∧ ∃ es, Logged p s v ((unitGuard p, 0x8025, dump.unit, dump.mask p) :: es)) := by
  obtain ⟨t, ht⟩ : ∃ t, s.dumpSent p dump = t := ⟨_, rfl⟩
  obtain ⟨hbusy, hvalid, hregs, hguard, hlog⟩ : DumpSent p s dump t := ht ▸ dumpSent_shows s p dump
  have hx := exec_dumpComplete hb hd
  rw [ht] at hx
  have hheld : t.holdsAction p ↔ s.holdsAction p := by
    have h1 : t.runMode = s.runMode := hregs.get_eq .el Reg.SEQ_RUNCFG_MODE (by simp [Reg.SEQ_RUNCFG_MODE])
    have h2 : t.bit .el Reg.GUARD_CTRL_FAULT_HOLD = s.bit .el Reg.GUARD_CTRL_FAULT_HOLD := hregs.bit_eq .el Reg.GUARD_CTRL_FAULT_HOLD (by simp [Reg.GUARD_CTRL_FAULT_HOLD])
    unfold State.holdsAction
    rw [h1, h2]
  have hzero : ∀ u : State, u.get p Reg.GUARD_STAT_DUMP_BUSY = 0 → u.bit p Reg.GUARD_STAT_DUMP_BUSY = false := fun u h => by
    unfold State.bit
    rw [h]
    rfl
  refine ⟨_, hx, ?_⟩
  by_cases h : t.holdsAction p
  · rw [guardProceed_held h]
    refine ⟨hzero _ ((get_of_reg (reg_modGuard ..)).trans hbusy), bit_of_get ((get_of_reg (reg_modGuard ..)).trans hvalid), ?_, fun _ => ?_, fun hn => absurd (hheld.mp h) hn, [], hlog.congr (events_modGuard ..)⟩
    · rw [guard_modGuard]
      exact congrArg Guard.dump hguard
    · rw [guard_modGuard]
  · obtain ⟨hp, hshow, es, hes⟩ := guardProceed_proceeds h
    exact ⟨hzero _ (hshow.busy.trans hbusy), bit_of_get (hshow.valid.trans hvalid), hshow.dump.trans (congrArg Guard.dump hguard), fun hh => absurd (hheld.mpr hh) h,
      fun _ => hp.shift hlog (by rw [hguard]; rfl) (by rw [hguard]) (by rw [hguard]), es, hlog.trans hes⟩

/-! ### The report of a domain that has left reset (R410, R427, R437, R439) -/

/-- A domain is released, with its alignment pulse. -/
structure Released (p : Part) (d : Nat) (s t : State) : Prop where
  guard  : t.guard p = s.guard p
  regs   : RegsBut [(p, 0xA008)] s t
  dstate : t.dstate p d = 2
  fords  : p = .ux → t.ux.base.fords = []
  events : (t.base p).events = (s.base p).events
  next   : t.ux.fwNext = s.ux.fwNext

/-- A domain of a part is ON, its fords aligned. -/
def State.domainFreed (s : State) (p : Part) (d : Nat) : State := (s.setDstate p d 2).alignDomain p d

theorem domainFreed_released (s : State) (p : Part) {d : Nat} (hd : d < domainCount p) : Released p d s (s.domainFreed p d) := by
  have hr : ∀ q o, (s.domainFreed p d).reg q o = (s.setDstate p d 2).reg q o := fun q o => by
    unfold State.domainFreed State.alignDomain State.align
    split
    · exact reg_mod _ .el q _ o rfl
    · exact reg_mod _ .ux q _ o rfl
  refine ⟨?_, fun q o ho => (hr q o).trans (regs_setDstate s p d 2 q o ho), (dstate_of_reg (hr ..) d).trans (dstate_setDstate_same s p 2 hd), fun hp => ?_, ?_, ?_⟩
  · cases p <;> rfl
  · subst hp
    exact List.filter_eq_nil_iff.mpr (fun _ _ => by simp)
  · refine Eq.trans ?_ (events_setDstate s p d 2 p)
    cases p <;> rfl
  · cases p <;> rfl

theorem unitDomain_lt (p : Part) (u : Nat) : unitDomain p u < domainCount p := by
  cases p
  · exact Nat.lt_of_le_of_lt (elUnitDomain_le u) (by decide)
  · exact uxUnitDomain_lt u

theorem stage3Domains_lt (p : Part) {d : Nat} (h : (stage3Domains p).contains d = true) : d < domainCount p := by
  have hall : ∀ x ∈ stage3Domains p, x < domainCount p := by cases p <;> decide
  exact hall d (List.contains_iff_mem.mp h)

theorem resetDone_idle {s : State} {p : Part} {d : Fin 24} (h : (p = .ux ∧ s.ux.tripped = true) ∨ (s.guard p).phase = .idle ∨ (s.guard p).phase = .dumping ∨ (s.guard p).phase = .heldFault) :
    exec (.resetDoneReport p d) s = .next s := by
  change execResetDoneReport p d s = _
  unfold execResetDoneReport
  by_cases ht : (p == .ux && s.ux.tripped) = true
  · rw [if_pos ht]
  · rw [if_neg ht]
    rcases h with ⟨rfl, h⟩ | h | h | h
    · exact absurd h ht
    · rw [h]
    · rw [h]
    · rw [h]

theorem resetDone_mid {s : State} {p : Part} {n : Nat} (d : Fin 24) (ht : p = .el ∨ s.ux.tripped = false) (hn : n ≠ 3) (hg : (s.guard p).phase = .stage n) :
    exec (.resetDoneReport p d) s = .next (if d.val = unitDomain p (s.guard p).culprit then (if n = 2 then s.domainFreed p d.val else s).guardEnd p else s) := by
  change execResetDoneReport p d s = _
  unfold execResetDoneReport
  rw [if_neg (by rcases ht with rfl | ht <;> simp [*]), hg]
  split
  · next h => exact absurd (GPhase.stage.inj h) hn
  · next h => rw [GPhase.stage.inj h]; rfl
  · next h => exact absurd rfl (h n)

/-- Stages 1 and 2 succeed at the report of the culprit's domain (R427). -/
theorem resetDone_succeeds {s : State} {p : Part} {n : Nat} {d : Fin 24} (ht : p = .el ∨ s.ux.tripped = false) (hn : n ≠ 3) (hg : (s.guard p).phase = .stage n) (hd : d.val = unitDomain p (s.guard p).culprit) :
    Ends (.resetDoneReport p d) s (fun v => LadderIdle p v ∧ s.asked p v ∧ (n = 2 → v.dstate p d = 2 ∧ (p = .ux → v.ux.base.fords = [])) ∧ Logged p s v []) := by
  have hx := resetDone_mid d ht hn hg
  rw [if_pos hd] at hx
  refine ⟨_, hx, ?_⟩
  by_cases h2 : n = 2
  · rw [if_pos h2]
    obtain ⟨hguard, hregs, hds, hfords, hev, -⟩ := domainFreed_released s p (hd ▸ unitDomain_lt p (s.guard p).culprit : d.val < domainCount p)
    have ho := guardEnd_over (s.domainFreed p d.val) p
    exact ⟨ho.idle, fun hp hr hf => ho.asks hp (hguard ▸ hr) hf, fun _ => ⟨(dstate_of_reg (ho.regs p 0xA008 (by simp)) _).trans hds, fun hp => ho.chip.1.trans (hfords hp)⟩, (logged_nil hev).trans ho.logged⟩
  · rw [if_neg h2]
    have ho := guardEnd_over s p
    exact ⟨ho.idle, ho.asks, fun e => absurd e h2, ho.logged⟩

/-- A report of stage 3 that is no news. -/
theorem resetDone_again {s : State} {p : Part} {d : Fin 24} (ht : p = .el ∨ s.ux.tripped = false) (hg : (s.guard p).phase = .stage 3) (hd : (stage3Domains p).contains d.val = false ∨ (s.guard p).done.contains d.val = true) :
    exec (.resetDoneReport p d) s = .next s := by
  change execResetDoneReport p d s = _
  unfold execResetDoneReport
  rw [if_neg (by rcases ht with rfl | ht <;> simp [*]), hg]
  refine congrArg Host.Outcome.next (if_neg ?_)
  rcases hd with hd | hd
  · rw [hd, Bool.false_and]
    decide
  · rw [hd, Bool.not_true, Bool.and_false]
    decide

/-- A domain of stage 3 has reported. -/
def State.domainDone (s : State) (p : Part) (d : Nat) : State := (s.domainFreed p d).modGuard p (fun g => { g with done := g.done ++ [d] })

/-- With MGMT the PCIe endpoint trains again (R437). -/
def State.mgmtBack (s : State) (p : Part) (d : Nat) : State := if p == .ux && d == 1 then s.pcieTrain else s

/-- The ladder has succeeded; a received image is activated (R439). -/
def State.ladderDone (s : State) (p : Part) : State := match p with | .el => s.guardEnd .el | .ux => (s.guardEnd .ux).fwActivate

theorem resetDone_news {s : State} {p : Part} {d : Fin 24} (ht : p = .el ∨ s.ux.tripped = false) (hg : (s.guard p).phase = .stage 3) (hd : (stage3Domains p).contains d.val = true) (hn : (s.guard p).done.contains d.val = false) :
    exec (.resetDoneReport p d) s = .next (if (stage3Domains p).all (fun x => ((((s.domainDone p d.val).mgmtBack p d.val).guard p).done).contains x) then ((s.domainDone p d.val).mgmtBack p d.val).ladderDone p
      else (s.domainDone p d.val).mgmtBack p d.val) := by
  change execResetDoneReport p d s = _
  unfold execResetDoneReport
  rw [if_neg (by rcases ht with rfl | ht <;> simp [*]), hg]
  refine congrArg Host.Outcome.next ((if_pos (by rw [hd, hn]; rfl)).trans ?_)
  cases p <;> rfl

/-- The training of the endpoint, and the activation of an image, leave the guard and the registers. -/
structure ChipAside (s t : State) : Prop where
  guard  : ∀ p, t.guard p = s.guard p
  seq    : ∀ p, t.seq p = s.seq p
  regs   : ∀ q o, t.reg q o = s.reg q o
  fords  : t.ux.base.fords = s.ux.base.fords
  events : ∀ p, (t.base p).events = (s.base p).events
  el     : t.el = s.el

theorem chipAside_refl (s : State) : ChipAside s s := ⟨fun _ => rfl, fun _ => rfl, fun _ _ => rfl, rfl, fun _ => rfl, rfl⟩

theorem chipAside_mgmtBack (s : State) (p : Part) (d : Nat) : ChipAside s (s.mgmtBack p d) := by
  unfold State.mgmtBack
  split
  · exact ⟨fun q => by cases q <;> rfl, fun q => by cases q <;> rfl, fun q o => by cases q <;> rfl, rfl, fun q => by cases q <;> rfl, rfl⟩
  · exact chipAside_refl s

theorem chipAside_fwActivate (s : State) : ChipAside s s.fwActivate := by
  unfold State.fwActivate
  split
  · exact ⟨fun q => by cases q <;> rfl, fun q => by cases q <;> rfl, fun q o => by cases q <;> rfl, rfl, fun q => by cases q <;> rfl, rfl⟩
  · exact chipAside_refl s

theorem fwActivate_takes (s : State) : s.fwActivate.ux.pcie = s.ux.pcie ∧ ∀ h, s.ux.fwNext = some h → s.fwActivate.ux.base.fwHash = h := by
  unfold State.fwActivate
  split
  · next k hk => exact ⟨rfl, fun h hh => Option.some.inj (hk.symm.trans hh)⟩
  · next hk => exact ⟨rfl, fun h hh => absurd (hk.symm.trans hh) (by simp)⟩

theorem ladderDone_over (s : State) (p : Part) : LadderIdle p (s.ladderDone p) ∧ s.asked p (s.ladderDone p) ∧ (∀ d, (s.ladderDone p).dstate p d = s.dstate p d) ∧ (s.ladderDone p).ux.base.fords = s.ux.base.fords
    ∧ (s.ladderDone p).ux.pcie = s.ux.pcie ∧ Logged p s (s.ladderDone p) [] ∧ (p = .ux → ∀ h, s.ux.fwNext = some h → (s.ladderDone p).ux.base.fwHash = h) := by
  obtain ⟨t, ht⟩ : ∃ t, s.guardEnd p = t := ⟨_, rfl⟩
  obtain ⟨hidle, hasks, hregs, -, -, -, hlog, -, hfords, hpcie, -, hnext⟩ : LadderOver p s t := ht ▸ guardEnd_over s p
  have hds (d : Nat) : t.dstate p d = s.dstate p d := dstate_of_reg (hregs p 0xA008 (by simp)) d
  cases p
  · have hu : s.ladderDone .el = t := ht
    rw [hu]
    exact ⟨hidle, hasks, hds, hfords, hpcie, hlog, fun e => absurd e (by decide)⟩
  · have hu : s.ladderDone .ux = t.fwActivate := by
      rw [← ht]
      rfl
    obtain ⟨hguard, hseq, hreg, hf, hev, -⟩ := chipAside_fwActivate t
    obtain ⟨hp, hfw⟩ := fwActivate_takes t
    rw [hu]
    exact ⟨⟨(congrArg Guard.phase (hguard _)).trans hidle.phase, (bit_of_reg (hreg ..)).trans hidle.active, (congrArg Seq.stopIssue (hseq _)).trans hidle.issue⟩, fun e => absurd e (by decide),
      fun d => (dstate_of_reg (hreg ..) d).trans (hds d), hf.trans hfords, hp.trans hpcie, hlog.congr (hev _), fun _ h hh => hfw h (hnext.trans hh)⟩

/-- Stage 3 succeeds at the report of its last domain (R427, R439). -/
theorem resetDone_counts {s : State} {p : Part} {d : Fin 24} (ht : p = .el ∨ s.ux.tripped = false) (hg : (s.guard p).phase = .stage 3) (hd : (stage3Domains p).contains d.val = true) (hn : (s.guard p).done.contains d.val = false) :
    Ends (.resetDoneReport p d) s (fun v => v.dstate p d = 2 ∧ (p = .ux → v.ux.base.fords = []) ∧ (p = .ux → d.val = 1 → v.ux.pcie.isSome = true) ∧ Logged p s v []
      ∧ ((stage3Domains p).all (fun x => (s.guard p).done.contains x || x == d.val) = false → (v.guard p).phase = .stage 3 ∧ (v.guard p).done = (s.guard p).done ++ [d.val])
      ∧ ((stage3Domains p).all (fun x => (s.guard p).done.contains x || x == d.val) = true → LadderIdle p v ∧ s.asked p v ∧ (p = .ux → ∀ h, s.ux.fwNext = some h → v.ux.base.fwHash = h))) := by
  obtain ⟨hguard, hregs, hds, hfords, hev, hnext⟩ := domainFreed_released s p (stage3Domains_lt p hd)
  obtain ⟨a, ha⟩ : ∃ a, s.domainDone p d.val = a := ⟨_, rfl⟩
  have hag : a.guard p = { s.guard p with done := (s.guard p).done ++ [d.val] } := by
    rw [← ha]
    unfold State.domainDone
    rw [guard_modGuard, hguard]
  have hads : a.dstate p d.val = 2 := (dstate_of_reg (ha ▸ reg_modGuard ..) _).trans hds
  have haf : p = .ux → a.ux.base.fords = [] := fun hp => by
    subst hp
    exact ha ▸ hfords rfl
  have hae : (a.base p).events = (s.base p).events := ha ▸ (events_modGuard ..).trans hev
  have han : a.ux.fwNext = s.ux.fwNext := by
    refine Eq.trans ?_ hnext
    rw [← ha]
    cases p <;> rfl
  obtain ⟨b, hb⟩ : ∃ b, a.mgmtBack p d.val = b := ⟨_, rfl⟩
  obtain ⟨hbg, -, hbr, hbf, hbe, -⟩ : ChipAside a b := hb ▸ chipAside_mgmtBack a p d.val
  have hbn : b.ux.fwNext = s.ux.fwNext := by
    rw [← hb, ← han]
    unfold State.mgmtBack
    split <;> rfl
  have hbp : p = .ux → d.val = 1 → b.ux.pcie.isSome = true := fun hp h1 => by
    rw [← hb, hp, h1]
    rfl
  have hbds : b.dstate p d.val = 2 := (dstate_of_reg (hbr ..) _).trans hads
  have hball : (stage3Domains p).all (fun x => ((b.guard p).done).contains x) = (stage3Domains p).all (fun x => (s.guard p).done.contains x || x == d.val) := by
    rw [hbg, hag]
    simp only [List.contains_eq_mem, List.mem_append, List.mem_singleton, Bool.decide_or, beq_eq_decide]
  have hx := resetDone_news ht hg hd hn
  rw [ha, hb, hball] at hx
  refine ⟨_, hx, ?_⟩
  by_cases hl : (stage3Domains p).all (fun x => (s.guard p).done.contains x || x == d.val) = true
  · obtain ⟨hidle, hasks, hcd, hcf, hcp, hcl, hcfw⟩ := ladderDone_over b p
    rw [if_pos hl]
    refine ⟨(hcd _).trans hbds, fun hp => hcf.trans (hbf.trans (haf hp)), fun hp h1 => by rw [hcp]; exact hbp hp h1, (logged_nil ((hbe p).trans hae)).trans hcl, fun h0 => absurd (hl.symm.trans h0) (by decide),
      fun _ => ⟨hidle, fun hp hr hf => hasks hp ?_ hf, fun hp h hh => hcfw hp h (hbn.trans hh)⟩⟩
    rw [hbg, hag]
    exact hr
  · rw [if_neg hl]
    exact ⟨hbds, fun hp => hbf.trans (haf hp), hbp, logged_nil ((hbe p).trans hae), fun _ => ⟨(congrArg Guard.phase ((hbg p).trans hag)).trans hg, congrArg Guard.done ((hbg p).trans hag)⟩, fun h1 => absurd h1 hl⟩

/-! ### A stage that times out (R427, R428, R433) -/

theorem stageTimeout_idle {s : State} {p : Part} (h : (s.guard p).phase = .idle ∨ (s.guard p).phase = .dumping ∨ (s.guard p).phase = .heldFault) : exec (.stageTimeout p) s = .next s := by
  change execStageTimeout p s = _
  unfold execStageTimeout
  rcases h with h | h | h <;> rw [h]

/-- The last stage has failed (R428, R433). -/
def State.ladderFailed (s : State) (p : Part) : State :=
  match p with
  | .el => (s.modGuard .el (fun g => { g with hbStopped := true })).guardEnd .el
  | .ux => ((s.modUx (fun u => { u with lanesHeld := true })).replaceSet 4).guardEnd .ux

theorem exec_stageTimeout {s : State} {p : Part} {n : Nat} (h : (s.guard p).phase = .stage n) : exec (.stageTimeout p) s = .next
    (if n = 1 then (s.log p (unitGuard p) 0x8027 (s.guard p).culprit n).stageStart p (if p = .ux ∧ unitDomain .ux (s.guard p).culprit = 15 then 3 else 2)
      else if n = 2 then (s.log p (unitGuard p) 0x8027 (s.guard p).culprit n).stageStart p 3 else (s.log p (unitGuard p) 0x8027 (s.guard p).culprit n).ladderFailed p) := by
  change execStageTimeout p s = _
  unfold execStageTimeout
  rw [h]
  have hfirst : (if p == .ux && uxUnitDomain ((s.log p (unitGuard p) 0x8027 (s.guard p).culprit n).guard .ux).culprit == 15 then 3 else 2)
      = if p = .ux ∧ unitDomain .ux (s.guard p).culprit = 15 then 3 else 2 := by
    rw [guard_of_core (core_log ..)]
    cases p
    · rw [if_neg (by simp), if_neg (by simp)]
    · exact if_congr (by simp [unitDomain]) rfl rfl
  rw [← hfirst]
  cases p <;> rfl

/-- Stages 1 and 2 that time out start the next stage. -/
theorem stageTimeout_next {s : State} {p : Part} {n k : Nat} (h1 : 1 ≤ k) (h3 : k ≤ 3) (hx : exec (.stageTimeout p) s = .next ((s.log p (unitGuard p) 0x8027 (s.guard p).culprit n).stageStart p k)) :
    Ends (.stageTimeout p) s (fun v => (∃ es, Logged p s v ((unitGuard p, 0x8027, (s.guard p).culprit, n) :: es)) ∧ s.stageStarts p (s.guard p) k v) := by
  have hl : Logged p s (s.log p (unitGuard p) 0x8027 (s.guard p).culprit n) [(unitGuard p, 0x8027, (s.guard p).culprit, n)] := logged_log _ _ _ _ rfl
  have hg : (s.log p (unitGuard p) 0x8027 (s.guard p).culprit n).guard p = s.guard p := guard_of_core (core_log ..) p
  obtain ⟨es, hes⟩ := (stageStart_begun (s.log p (unitGuard p) 0x8027 (s.guard p).culprit n) p h1).1.logged
  have hs := stageStarts_of hl h1 h3
  rw [hg] at hs
  exact ⟨_, hx, ⟨_, hl.trans hes⟩, hs⟩

theorem ladderFailed_over (s : State) (p : Part) : LadderIdle p (s.ladderFailed p) ∧ (∃ es, Logged p s (s.ladderFailed p) es) ∧ (p = .el → ((s.ladderFailed p).guard .el).hbStopped = true)
    ∧ (p = .ux → (s.ladderFailed p).ux.lanesHeld = true ∧ bitOf ((s.ladderFailed p).get .ux Reg.UX_REPLACE_CAUSE) 4 = true) := by
  cases p
  · have ho := guardEnd_over (s.modGuard .el (fun g => { g with hbStopped := true })) .el
    exact ⟨ho.idle, ⟨_, (logged_nil (events_modGuard ..)).trans ho.logged⟩, fun _ => ho.beats.trans rfl, fun e => absurd e (by decide)⟩
  · obtain ⟨a, ha⟩ : ∃ a, s.modUx (fun u => { u with lanesHeld := true }) = a := ⟨_, rfl⟩
    obtain ⟨b, hb⟩ : ∃ b, a.replaceSet 4 = b := ⟨_, rfl⟩
    obtain ⟨hset, -, hlog⟩ := replaceSet_leaves a 4 (by decide)
    have hheld : b.ux.lanesHeld = true := by
      rw [← hb, ← ha]
      unfold State.replaceSet
      split <;> rfl
    rw [hb] at hset hlog
    have ho := guardEnd_over b .ux
    have hu : s.ladderFailed .ux = b.guardEnd .ux := by
      rw [← hb, ← ha]
      rfl
    have hev : Logged .ux s a [] := ha ▸ logged_nil rfl
    rw [hu]
    exact ⟨ho.idle, ⟨_, hev.trans (hlog.trans ho.logged)⟩, fun e => absurd e (by decide), fun _ => ⟨ho.chip.2.2.1.trans hheld, by
      rw [ho.regs.get_eq .ux Reg.UX_REPLACE_CAUSE (by simp [Reg.UX_REPLACE_CAUSE])]
      exact hset⟩⟩

/-! ### FATAL_CLR and FAULT_HOLD (R426, R428, R429) -/

theorem stageTimeout_last {s : State} {p : Part} (h : (s.guard p).phase = .stage 3) : Ends (.stageTimeout p) s (fun v => (∃ es, Logged p s v ((unitGuard p, 0x8027, (s.guard p).culprit, 3) :: es))
    ∧ LadderIdle p v ∧ (p = .el → (v.guard .el).hbStopped = true) ∧ (p = .ux → v.ux.lanesHeld = true ∧ bitOf (v.get .ux Reg.UX_REPLACE_CAUSE) 4 = true)) := by
  obtain ⟨hidle, ⟨es, hes⟩, hel, hux⟩ := ladderFailed_over (s.log p (unitGuard p) 0x8027 (s.guard p).culprit 3) p
  exact ⟨_, exec_stageTimeout h, ⟨es, (logged_log _ _ _ _ rfl : Logged p s _ [_]).trans hes⟩, hidle, hel, hux⟩

theorem fatalClr_idle {s : State} {p : Part} (h : ¬ (s.bit p Reg.GUARD_STAT_DIE_FATAL = true ∧ (s.guard p).phase ≠ .stage 3)) : exec (.fatalClr p) s = .next s :=
  congrArg Host.Outcome.next (if_neg (by rw [Bool.and_eq_true, bne_iff_ne]; exact h))

theorem fatalClr_ends {s : State} {p : Part} (h : s.bit p Reg.GUARD_STAT_DIE_FATAL = true ∧ (s.guard p).phase ≠ .stage 3) : Ends (.fatalClr p) s (fun v => v.bit p Reg.GUARD_STAT_DIE_FATAL = false
    ∧ v.bit p Reg.GUARD_STAT_MEM_RETAIN = false ∧ s.asked p v ∧ RegsBut [(p, Reg.GUARD_STAT_ACTIVE.off)] s v ∧ Logged p s v []) := by
  obtain ⟨a, ha⟩ : ∃ a, s.put p Reg.GUARD_STAT_DIE_FATAL 0 = a := ⟨_, rfl⟩
  obtain ⟨t, ht⟩ : ∃ t, a.put p Reg.GUARD_STAT_MEM_RETAIN 0 = t := ⟨_, rfl⟩
  obtain ⟨b, x, hx, hasks⟩ := rbRequest_eq t p
  have he : exec (.fatalClr p) s = .next (t.rbRequest p) := by
    rw [← ht, ← ha]
    exact congrArg Host.Outcome.next (if_pos (by rw [Bool.and_eq_true, bne_iff_ne]; exact h))
  have hreg : ∀ q o, (t.rbRequest p).reg q o = t.reg q o := fun q o => by
    rw [hx]
    cases q <;> rfl
  have hfatal : t.bit p Reg.GUARD_STAT_DIE_FATAL = false := by
    unfold State.bit
    rw [← ht, get_put_other a p Reg.GUARD_STAT_MEM_RETAIN Reg.GUARD_STAT_DIE_FATAL 0 (by decide) (by decide) (by decide) (by decide), ← ha, get_put_same s p Reg.GUARD_STAT_DIE_FATAL 0 (by decide) (by decide)]
    rfl
  have hretain : t.bit p Reg.GUARD_STAT_MEM_RETAIN = false := by
    unfold State.bit
    rw [← ht, get_put_same a p Reg.GUARD_STAT_MEM_RETAIN 0 (by decide) (by decide)]
    rfl
  have hguard : t.guard p = s.guard p := by rw [← ht, ← ha, guard_put, guard_put]
  have hev : (t.base p).events = (s.base p).events := ht ▸ (events_put ..).trans (ha ▸ events_put ..)
  refine ⟨_, he, (bit_of_reg (hreg ..)).trans hfatal, (bit_of_reg (hreg ..)).trans hretain, fun hp hr _ => ?_, fun q o ho => (hreg q o).trans (ht ▸ (regsBut_put a p Reg.GUARD_STAT_MEM_RETAIN 0 q o ho).trans (ha ▸ regsBut_put s p Reg.GUARD_STAT_DIE_FATAL 0 q o ho)), logged_nil ?_⟩
  · subst hp
    rw [hx]
    exact hasks rfl (hguard ▸ hr) hfatal
  · rw [hx]
    refine Eq.trans ?_ hev
    cases p <;> rfl

theorem faultHoldRelease_idle {s : State} {p : Part} (h : (s.guard p).phase ≠ .heldFault) : exec (.faultHoldRelease p) s = .next (s.put p Reg.GUARD_CTRL_FAULT_HOLD 0) :=
  congrArg Host.Outcome.next (if_neg (by rw [guard_put]; exact h))

/-- A held action proceeds once FAULT_HOLD is written 0 (R426). -/
theorem faultHoldRelease_ends {s : State} {p : Part} (h : (s.guard p).phase = .heldFault) : Ends (.faultHoldRelease p) s (fun v => v.bit p Reg.GUARD_CTRL_FAULT_HOLD = false ∧ LadderProceeds p s v) := by
  obtain ⟨t, ht⟩ : ∃ t, s.put p Reg.GUARD_CTRL_FAULT_HOLD 0 = t := ⟨_, rfl⟩
  have hguard : t.guard p = s.guard p := ht ▸ guard_put ..
  have hoff : t.bit p Reg.GUARD_CTRL_FAULT_HOLD = false := by
    unfold State.bit
    rw [← ht, get_put_same s p Reg.GUARD_CTRL_FAULT_HOLD 0 (by decide) (by decide)]
    rfl
  have hfree : ¬ t.holdsAction p := by
    rintro ⟨rfl, -, hb⟩
    exact absurd (hoff.symm.trans hb) (by decide)
  have hx : exec (.faultHoldRelease p) s = .next (t.guardProceed p) := by
    rw [← ht]
    exact congrArg Host.Outcome.next (if_pos (by rw [guard_put]; exact h))
  obtain ⟨hp, hshow, -⟩ := guardProceed_proceeds hfree
  exact ⟨_, hx, (bit_of_reg hshow.ctrl).trans hoff, hp.shift (logged_nil (ht ▸ events_put .. : (t.base p).events = (s.base p).events)) (by rw [hguard]) (by rw [hguard]) (by rw [hguard])⟩

/-! ### The obligation -/

theorem watchdog_idle {s : State} {p : Part} {unit : Byte} {i : Nat} (h : wdBit p unit.toNat = none ∨ (wdBit p unit.toNat = some i ∧ ¬ (bitOf (s.get p Reg.GUARD_WD_EN) i = true ∧ s.seqState p = 3 ∧ bitOf (s.windowMask p) i = false
    ∧ s.wdLimit p ≤ tget 0 (s.base p).wdCount i))) : exec (.watchdog p unit) s = .next s := by
  change execWatchdog p unit s = _
  unfold execWatchdog
  rcases h with h | ⟨h, hn⟩
  · rw [h]
  · rw [h]
    exact congrArg Host.Outcome.next (if_neg (by simpa [and_assoc] using hn))

theorem watchdog_expired {s : State} {p : Part} {unit : Byte} {i : Nat} (h : wdBit p unit.toNat = some i) (he : bitOf (s.get p Reg.GUARD_WD_EN) i = true ∧ s.seqState p = 3 ∧ bitOf (s.windowMask p) i = false
    ∧ s.wdLimit p ≤ tget 0 (s.base p).wdCount i) : exec (.watchdog p unit) s = .next ((s.log p (unitGuard p) 0x8020 unit.toNat (s.get p Reg.GUARD_WD_TMO)).guardTrigger p 1 unit.toNat 1 false) := by
  change execWatchdog p unit s = _
  unfold execWatchdog
  rw [h]
  exact congrArg Host.Outcome.next (if_pos (by simpa [and_assoc] using he))

theorem hang_culprit {s : State} {p : Part} {cause : Fin 10} {u : Nat} (h : s.hangCulprit p cause = some u) : exec (.hang p cause) s = .next ((s.log p (unitGuard p) 0x8021 u cause.val).guardTrigger p 2 u 1 false) := by
  change execHang p cause s = _
  unfold execHang
  rw [h]

theorem hang_idle {s : State} {p : Part} {cause : Fin 10} (h : s.hangCulprit p cause = none ∨ (s.seqState p ≠ 3 ∧ s.seqState p ≠ 4)) : exec (.hang p cause) s = .next s := by
  have hn : s.hangCulprit p cause = none := by
    rcases h with h | ⟨h3, h4⟩
    · exact h
    · unfold State.hangCulprit
      dsimp only
      by_cases hc : cause.val = 9
      · rw [if_pos hc, if_neg h4]
      · rw [if_neg hc, if_neg (by simp [h3])]
  change execHang p cause s = _
  unfold execHang
  rw [hn]

theorem LadderIdle.all {p : Part} {v : State} (h : LadderIdle p v) : (v.guard p).phase = .idle ∧ v.bit p Reg.GUARD_STAT_ACTIVE = false ∧ (v.seq p).stopIssue = false := ⟨h.phase, h.active, h.issue⟩

theorem LadderProceeds.all {p : Part} {s v : State} (h : LadderProceeds p s v) :
    ((s.guard p).first = 0 → (v.guard p).phase = .idle ∧ v.bit p Reg.GUARD_STAT_ACTIVE = false ∧ (v.seq p).stopIssue = false)
      ∧ (1 ≤ (s.guard p).first → (s.guard p).first ≤ 3 → s.stageStarts p (s.guard p) (s.guard p).first v) ∧ (p = .el → v.el.base.qops = []) :=
  ⟨fun h0 => (h.ends h0).all, h.starts, h.qops⟩

/-- Settles O58: a trigger, a complete dump, a report and a time-out each by the lemma of its case; the stages of the ladder by what `stageStart` and `guardEnd` leave. -/
theorem guardActions : Obligations.GuardActions := by
  unfold Obligations.GuardActions
  intro p unit cause u i word d dump s
  refine ⟨watchdog_idle, fun h he => ⟨triggers_free (watchdog_expired h he) (by decide), triggers_active (watchdog_expired h he) (by decide)⟩, hang_idle,
    fun h => ⟨triggers_free (hang_culprit h) (by decide), triggers_active (hang_culprit h) (by decide)⟩, dumpReadTimeout_idle, dumpReadTimeout_ends, dumpComplete_idle, fun hb hd => ?_, resetDone_idle,
    fun ht => ⟨fun n hn hg hd => ?_, fun n hn hg hd => ?_, resetDone_again ht, fun hg hd hn => ?_⟩, stageTimeout_idle, fun n h1 h3 hg => ?_, fatalClr_idle, fatalClr_ends, faultHoldRelease_idle, fun h => ?_⟩
  · obtain ⟨v, hv, h1, h2, h3, h4, h5, h6⟩ := dumpComplete_ends hb hd
    exact ⟨v, hv, h1, h2, h3, h4, fun hn => (h5 hn).all, h6⟩
  · exact (resetDone_mid d ht hn hg).trans (congrArg Host.Outcome.next (if_neg hd))
  · obtain ⟨v, hv, h1, h2, h3, h4⟩ := resetDone_succeeds ht hn hg hd
    exact ⟨v, hv, h1.all, h2, h3, h4⟩
  · obtain ⟨v, hv, h1, h2, h3, h4, h5, h6⟩ := resetDone_counts ht hg hd hn
    exact ⟨v, hv, h1, h2, h3, h4, h5, fun hl => ⟨(h6 hl).1.all, (h6 hl).2⟩⟩
  · have hx := exec_stageTimeout hg
    obtain rfl | rfl | rfl : n = 1 ∨ n = 2 ∨ n = 3 := by omega
    · rw [if_pos rfl] at hx
      obtain ⟨v, hv, hl, hs⟩ := stageTimeout_next (by split <;> decide) (by split <;> decide) hx
      exact ⟨v, hv, hl, fun _ => hs, fun e => absurd e (by decide), fun e => absurd e (by decide)⟩
    · rw [if_neg (by decide), if_pos rfl] at hx
      obtain ⟨v, hv, hl, hs⟩ := stageTimeout_next (by decide) (by decide) hx
      exact ⟨v, hv, hl, fun e => absurd e (by decide), fun _ => hs, fun e => absurd e (by decide)⟩
    · obtain ⟨v, hv, hl, hi, he, hu⟩ := stageTimeout_last hg
      exact ⟨v, hv, hl, fun e => absurd e (by decide), fun e => absurd e (by decide), fun _ => ⟨hi.all, he, hu⟩⟩
  · obtain ⟨v, hv, h1, h2⟩ := faultHoldRelease_ends h
    exact ⟨v, hv, h1, h2.all⟩

end Sys2Proof.Machine

/-! SUPPORT. The obligation of security: attestation, provisioning, debug, keys and firmware (R439, R451 to R459). -/

namespace Sys2Proof.Machine

set_option Elab.async false

section
variable (s : State) (p : Part)

/-! ### The report (R454) -/

/-- The bytes of a report ahead of its nonce. -/
def State.reportHead : List Byte :=
  ([0x48, 0x58, 0x41, 0x31] : List Byte) ++ leBytes 1 (partNo p)
    ++ leBytes 1 (s.get p Reg.SEC_STAT_LOCKED + 2 * s.get p Reg.SEC_STAT_DBG_OPEN + 4 * s.get p Reg.SEC_CTRL_TEST_PERMIT)
    ++ leBytes 2 1 ++ leBytes 4 (s.partPdi p) ++ leBytes 4 (match p with | .el => s.get .el Reg.SEED_RKCHK_CHK | .ux => 0)
    ++ leBytes 8 (s.tbNow p 0 / hxtSec)

theorem length_reportHead : (s.reportHead p).length = 0x18 := by
  unfold State.reportHead
  simp only [List.length_append, length_leBytes, List.length_cons, List.length_nil]

theorem reportBody_head (nonce : List Byte) (h : nonce.length = 32) : ∃ rest, s.reportBody p nonce = s.reportHead p ++ (nonce ++ rest) := by
  have ht : (nonce ++ List.replicate 32 0).take 32 = nonce := by rw [← h, List.take_left]
  have hb : s.reportBody p nonce = s.reportHead p ++ (nonce ++ List.replicate 32 0).take 32 ++ s.imageHash p
      ++ (match p with | .el => List.replicate 48 0 | .ux => (s.ux.base.fwHash ++ List.replicate 48 0).take 48) ++ s.configHash p := rfl
  rw [ht] at hb
  simp only [List.append_assoc] at hb
  exact ⟨_, hb⟩

/-- A report ends in its signature of 96 bytes. -/
theorem report_body (nonce : List Byte) : ∃ e, (s.report p nonce).1 = s.reportBody p nonce ++ e ∧ e.length = 96 := ⟨_, rfl, length_leBytes ..⟩

theorem report_nonce (nonce : List Byte) (h : nonce.length = 32) : ((s.report p nonce).1.drop 0x18).take 32 = nonce ∧ (s.report p nonce).1.take 4 = [0x48, 0x58, 0x41, 0x31] := by
  obtain ⟨e, he, -⟩ := report_body s p nonce
  obtain ⟨rest, hr⟩ := reportBody_head s p nonce h
  rw [he, hr]
  constructor
  · rw [List.append_assoc, ← length_reportHead s p, List.drop_left, ← h, List.append_assoc, List.take_left]
  · rfl

/-! ### Attestation (R453 to R455) -/

theorem attGo_ends : (s.bit p Reg.SEC_STAT_PUF_OK = true → exec (.attGo p) s = .next (s.mod p (fun b => { b with attPend := some (mread b.secBytes 0xC900 32) })))
    ∧ (s.bit p Reg.SEC_STAT_PUF_OK = false → exec (.attGo p) s = .next s) :=
  ⟨fun h => congrArg Host.Outcome.next (if_pos h), fun h => congrArg Host.Outcome.next (if_neg (by simp [h]))⟩

theorem attDone_idle (h : (s.base p).attPend = none) : exec (.attDone p) s = .next s := by
  change execAttDone p s = _
  unfold execAttDone
  rw [h]

/-- The report stands in its window (R454). -/
theorem attDone_ends {nonce : List Byte} (h : (s.base p).attPend = some nonce) : Ends (.attDone p) s (fun u => u.bit p Reg.SEC_CTRL_ATT_DONE = true ∧ (u.base p).attPend = none
    ∧ mread (u.base p).secBytes 0xCA00 (s.report p nonce).1.length = (s.report p nonce).1 ∧ RegsBut [(p, 0xC000)] s u ∧ Logged p s u []) := by
  obtain ⟨r, hr⟩ : ∃ r, (s.report p nonce).1 = r := ⟨_, rfl⟩
  obtain ⟨t, ht⟩ : ∃ t, State.mod { s with draws := s.draws + 1 } p (fun b => { b with attPend := none, secBytes := mwrite b.secBytes 0xCA00 r }) = t := ⟨_, rfl⟩
  have hx : exec (.attDone p) s = .next (t.put p Reg.SEC_CTRL_ATT_DONE 1) := by
    change execAttDone p s = _
    unfold execAttDone
    rw [h, ← ht, ← hr]
    rfl
  have hbase : (t.base p).attPend = none ∧ (t.base p).secBytes = mwrite (s.base p).secBytes 0xCA00 r ∧ (t.base p).events = (s.base p).events := by
    rw [← ht]
    cases p <;> exact ⟨rfl, rfl, rfl⟩
  have hreg : ∀ q o, t.reg q o = s.reg q o := fun q o => by
    rw [← ht]
    cases p <;> cases q <;> rfl
  have hput : ((t.put p Reg.SEC_CTRL_ATT_DONE 1).base p).attPend = (t.base p).attPend ∧ ((t.put p Reg.SEC_CTRL_ATT_DONE 1).base p).secBytes = (t.base p).secBytes := by
    cases p <;> exact ⟨rfl, rfl⟩
  rw [hr]
  refine ⟨_, hx, bit_of_get (get_put_same t p Reg.SEC_CTRL_ATT_DONE 1 (by decide) (by decide)), hput.1.trans hbase.1, ?_, fun q o ho => (regsBut_put t p Reg.SEC_CTRL_ATT_DONE 1 q o ho).trans (hreg q o), logged_nil ((events_put ..).trans hbase.2.2)⟩
  rw [hput.2, hbase.2.1, mread_mwrite]

theorem reportOk_iff (x : Nat) (report pub : List Byte) : s.reportOk x report pub = true ↔ report.length = 296 ∧ tget [] s.ux.nonces x ≠ [] ∧ (report.drop 0x18).take 32 = tget [] s.ux.nonces x ∧ s.allowed pub = true
    ∧ ecdsaVerify pub (sha384 (report.take 0xC8)) (report.drop 0xC8) = true := by
  unfold State.reportOk
  simp only [Bool.and_eq_true, beq_iff_eq, Bool.not_eq_true', List.isEmpty_eq_false_iff, ne_eq, and_assoc]

variable {s} in
theorem attestRsp_ends (lane : Fin 160) (report pub : List Byte) : (128 ≤ lane.val → exec (.attestRsp lane report pub) s = .next s)
    ∧ (lane.val < 128 → s.reportOk lane.val report pub = false → Goes (.attestRsp lane report pub) s s .ux [(0x47, 0x9021, lane.val, (s.childSubj lane.val).pdi.toNat)])
    ∧ (lane.val < 128 → s.reportOk lane.val report pub = true → exec (.attestRsp lane report pub) s
        = .next (s.modUx (fun u => { u with nonces := tput [] u.nonces lane.val [], attested := if u.attested.contains lane.val then u.attested else u.attested ++ [lane.val] }))) := by
  refine ⟨fun h => congrArg Host.Outcome.next (if_pos h), fun h hr => ?_, fun h hr => congrArg Host.Outcome.next ((if_neg (by omega)).trans (if_pos hr))⟩
  exact goes_of _ (congrArg Host.Outcome.next ((if_neg (by omega)).trans (if_neg (by simp [hr])))) (core_log ..) (logged_log _ _ _ _ rfl)

theorem send_aside (q : Part) (x : Nat) (m : Msg) : (s.send q x m).draws = s.draws := by
  have h1 : ∀ (t : State) (y : Nat), (t.sendOne q y m).draws = t.draws := fun t y => by
    unfold State.sendOne
    dsimp only
    split
    · cases q <;> rfl
    · rfl
  unfold State.send
  dsimp only
  split
  · rename_i hc
    obtain ⟨rfl, -⟩ : q = .ux ∧ _ := by simpa [and_assoc] using hc
    exact (h1 _ _).trans (h1 s x)
  · exact h1 s x

/-- An open attestation is asked again with a fresh nonce (R455). -/
theorem attestAsk_leaves (x : Nat) : (tget [] (s.attestAsk x).ux.nonces x).length = 32 ∧ (s.attestAsk x).draws = s.draws + 4 ∧ RegsBut [] s (s.attestAsk x) ∧ Logged .ux s (s.attestAsk x) [] := by
  obtain ⟨nonce, hn⟩ : ∃ nonce, leBytes 8 s.draw.1.toNat ++ leBytes 8 s.draw.2.draw.1.toNat ++ leBytes 8 s.draw.2.draw.2.draw.1.toNat ++ leBytes 8 s.draw.2.draw.2.draw.2.draw.1.toNat = nonce := ⟨_, rfl⟩
  obtain ⟨t, ht⟩ : ∃ t, (s.draw.2.draw.2.draw.2.draw.2).modUx (fun u => { u with nonces := tput [] u.nonces x nonce, attested := u.attested.filter (fun y => y != x) }) = t := ⟨_, rfl⟩
  have hu : s.attestAsk x = t.send .ux x (.attestReq nonce) := by
    rw [← ht, ← hn]
    rfl
  have hcore : (s.attestAsk x).core = t.core := by rw [hu, core_send]
  refine ⟨?_, ?_, fun q o _ => (reg_of_core hcore q o).trans ?_, logged_nil ?_⟩
  · have hnonces : (s.attestAsk x).ux.nonces = t.ux.nonces := (congrArg (fun v => v.ux.nonces) hcore :)
    rw [hnonces, ← ht]
    show (tget [] (tput [] s.ux.nonces x nonce) x).length = 32
    rw [tget_tput_same, ← hn]
    simp only [List.length_append, length_leBytes]
  · rw [hu, send_aside, ← ht]
    rfl
  · rw [← ht]
    cases q <;> rfl
  · rw [hu, events_send, ← ht]
    rfl

theorem attestRetry_ends (lane : Fin 160) : (¬ (lane.val < 128 ∧ s.laneState .ux lane.val = 4 ∧ tget [] s.ux.nonces lane.val ≠ []) → exec (.attestRetry lane) s = .next s)
    ∧ (lane.val < 128 ∧ s.laneState .ux lane.val = 4 ∧ tget [] s.ux.nonces lane.val ≠ [] → exec (.attestRetry lane) s = .next (s.attestAsk lane)) := by
  have hc : (lane.val < 128 && s.laneState .ux lane == 4 && !(tget [] s.ux.nonces lane).isEmpty) = true ↔ lane.val < 128 ∧ s.laneState .ux lane.val = 4 ∧ tget [] s.ux.nonces lane.val ≠ [] := by
    simp only [Bool.and_eq_true, decide_eq_true_eq, beq_iff_eq, Bool.not_eq_true', List.isEmpty_eq_false_iff, ne_eq, and_assoc]
  exact ⟨fun h => congrArg Host.Outcome.next (if_neg (fun hn => h (hc.mp hn))), fun h => congrArg Host.Outcome.next (if_pos (hc.mpr h))⟩

/-! ### Provisioning, debug and keys (R451, R452, R459, R471) -/

theorem reg_tdrGate (q : Part) (o : Nat) : s.tdrGate.reg q o = s.reg q o := by
  unfold State.tdrGate
  split
  · rfl
  · cases q <;> rfl

theorem dbgUnlock_goes (sig : List Byte) : Goes (.dbgUnlock p sig) s (if s.dbgOk p sig = true then s.put p Reg.SEC_STAT_DBG_OPEN 1 else s) p (if s.dbgOk p sig = true then [(unitSec p, 0x9022, 0, 0)] else []) := by
  by_cases h : s.dbgOk p sig = true
  · rw [if_pos h, if_pos h]
    exact goes_of _ (congrArg Host.Outcome.next (if_pos h)) (core_log ..) (logged_log _ _ _ _ (events_put ..))
  · rw [if_neg h, if_neg h]
    exact goes_of _ (congrArg Host.Outcome.next (if_neg h)) rfl (logged_nil rfl)

theorem dbgOk_noKey (sig : List Byte) (h : ∀ k < 8, s.keyRevoked p k = true) : s.dbgOk p sig = false := by
  refine List.any_eq_false.mpr fun k hk => ?_
  rw [h k (List.mem_range.mp hk)]
  exact Bool.false_ne_true

theorem sigOk_noKey (use : Nat) (keyId : Word) (digest sig : List Byte) (h : ∀ k < 8, s.keyRevoked p k = true) : s.sigOk p use keyId digest sig = false := by
  refine List.any_eq_false.mpr fun k hk => ?_
  rw [h k (List.mem_range.mp hk)]
  exact Bool.false_ne_true

/-- Slots are revoked for good (R451, R471). -/
theorem keyRevoke_ends (mask : Byte) : Ends (.keyRevoke p mask) s (fun u => u.get p Reg.SEC_KUSE_REVOKE = s.get p Reg.SEC_KUSE_REVOKE ||| mask.toNat
    ∧ u.get p Reg.SEC_STAT_REVOKED = (s.get p Reg.SEC_KUSE_REVOKE ||| mask.toNat) % 32 ∧ (∀ k < 8, u.keyRevoked p k = (s.keyRevoked p k || bitOf mask.toNat k))
    ∧ RegsBut [(p, 0xC010), (p, 0xC008)] s u ∧ Logged p s u []) := by
  obtain ⟨t, ht⟩ : ∃ t, s.put p Reg.SEC_KUSE_REVOKE (s.get p Reg.SEC_KUSE_REVOKE ||| mask.toNat) = t := ⟨_, rfl⟩
  have hx : exec (.keyRevoke p mask) s = .next (t.put p Reg.SEC_STAT_REVOKED (t.get p Reg.SEC_KUSE_REVOKE % 32)) := by
    rw [← ht]
    rfl
  have hlt : s.get p Reg.SEC_KUSE_REVOKE ||| mask.toNat < 2 ^ 8 := Nat.or_lt_two_pow (fget_lt ..) mask.isLt
  have htr : t.get p Reg.SEC_KUSE_REVOKE = s.get p Reg.SEC_KUSE_REVOKE ||| mask.toNat := by
    rw [← ht, get_put_same s p Reg.SEC_KUSE_REVOKE _ (by decide) (by decide)]
    exact Nat.mod_eq_of_lt hlt
  have hur : (t.put p Reg.SEC_STAT_REVOKED (t.get p Reg.SEC_KUSE_REVOKE % 32)).get p Reg.SEC_KUSE_REVOKE = s.get p Reg.SEC_KUSE_REVOKE ||| mask.toNat :=
    (get_put_other t p Reg.SEC_STAT_REVOKED Reg.SEC_KUSE_REVOKE _ (by decide) (by decide) (by decide) (by decide)).trans htr
  refine ⟨_, hx, hur, ?_, fun k _ => ?_, ?_, logged_nil ((events_put ..).trans (ht ▸ events_put ..))⟩
  · rw [get_put_same t p Reg.SEC_STAT_REVOKED _ (by decide) (by decide), htr]
    exact Nat.mod_eq_of_lt (Nat.mod_lt _ (by decide))
  · unfold State.keyRevoked
    rw [hur, bitOf_eq, bitOf_eq, bitOf_eq, Nat.testBit_or]
  · have h0 : RegsBut [(p, 0xC010), (p, 0xC008)] s s := fun _ _ _ => rfl
    rw [← ht]
    exact (h0.put p Reg.SEC_KUSE_REVOKE _ (by simp [Reg.SEC_KUSE_REVOKE])).put p Reg.SEC_STAT_REVOKED _ (by simp [Reg.SEC_STAT_REVOKED])

theorem fwImage_ends (image : List Byte) (keyId : Word) (sig : List Byte) : (s.sigOk .ux 1 keyId (sha384 image) sig = true → exec (.fwImage image keyId sig) s = .next (s.modUx (fun u => { u with fwNext := some (sha384 image) })))
    ∧ (s.sigOk .ux 1 keyId (sha384 image) sig = false → Goes (.fwImage image keyId sig) s s .ux [(0x47, 0x9060, 0, 0)]) :=
  ⟨fun h => congrArg Host.Outcome.next (if_pos h), fun h => goes_of _ (congrArg Host.Outcome.next (if_neg (by simp [h]))) (core_log ..) (logged_log _ _ _ _ rfl)⟩

end

/-- Settles O59: each command by its own lemma; the report is its head, the nonce, the rest of the body and the signature. -/
theorem security : Obligations.Security := by
  unfold Obligations.Security
  intro p lane nonce report pub image sig mask keyId s
  obtain ⟨h128, hbad, hgood⟩ := attestRsp_ends (s := s) lane report pub
  obtain ⟨hstay, hask⟩ := attestRetry_ends s lane
  refine ⟨(attGo_ends s p).1, (attGo_ends s p).2, attDone_idle s p, fun h => ?_, report_body s p nonce, report_nonce s p nonce, ?_, reportOk_iff s lane.val report pub, h128, hbad, hgood, hstay,
    fun h => ⟨_, hask h, attestAsk_leaves s lane.val⟩, rfl, fun q o _ => reg_tdrGate _ q o, dbgUnlock_goes s p sig, fun h => congrArg Host.Outcome.next (if_neg (by simp [h])), dbgOk_noKey s p sig,
    keyRevoke_ends s p mask, (fwImage_ends s image keyId sig).1, (fwImage_ends s image keyId sig).2, sigOk_noKey s .ux 1 keyId (sha384 image) sig⟩
  · obtain ⟨u, hu, h1, h2, h3, h4, h5⟩ := attDone_ends s p h
    exact ⟨u, hu, h1, h2, fun _ => h3, h4, h5⟩
  · rfl

end Sys2Proof.Machine

/-! SUPPORT. The obligation of tests and heat: self-test, the junction, degraded operation (R152, R153, R463 to R469, R528). -/

namespace Sys2Proof.Machine

set_option Elab.async false

/-! ### Test unlock and self-test (R463 to R465) -/

section
variable {s : State} {p : Part}

theorem testUnlock_refused {v : Bool} (hv : v = true) (h : s.bit p Reg.SEC_CTRL_TEST_PERMIT = false) : Goes (.testUnlock p v) s s p [(unitTest p, 0xA001, 0xD000, 0xD000)] :=
  goes_of _ (congrArg Host.Outcome.next (if_pos (by rw [hv, h]; rfl))) (core_log ..) (logged_log _ _ _ _ rfl)

theorem testUnlock_writes {v : Bool} (h : v = false ∨ s.bit p Reg.SEC_CTRL_TEST_PERMIT = true) : exec (.testUnlock p v) s = .next (s.put p Reg.TEST_CTRL_TEST_UNLOCK (if v then 1 else 0)) :=
  congrArg Host.Outcome.next (if_neg (by rcases h with h | h <;> simp [h]))

theorem actionKnown_iff (a : Nat) : actionKnown a = true ↔ 1 ≤ a ∧ a ≤ 4 := by
  unfold actionKnown
  rw [Bool.and_eq_true, decide_eq_true_eq, decide_eq_true_eq]

/-- A reserved ACTION leaves the field (R8, R463). -/
theorem selftestGo_reserved {action mask : Byte} {force : Bool} (h : action.toNat = 0 ∨ 4 < action.toNat) : Ends (.selftestGo p action mask force) s (fun u =>
    (∃ c < 0x1000, Logged p s u [(unitTest p, 0xA000 + c, 0xD008, 0)]) ∧ u.get p Reg.TEST_STREQ_ACTION = s.get p Reg.TEST_STREQ_ACTION ∧ RegsBut [(p, 0xD008)] s u) := by
  have hk : ¬ actionKnown action.toNat = true := by rw [actionKnown_iff]; omega
  obtain ⟨a, ha⟩ : ∃ a, s.put p Reg.TEST_STREQ_MASK mask.toNat = a := ⟨_, rfl⟩
  obtain ⟨t, ht⟩ : ∃ t, a.put p Reg.TEST_STREQ_FORCE (if force then 1 else 0) = t := ⟨_, rfl⟩
  have hx : exec (.selftestGo p action mask force) s = .next (t.logOpen p (unitTest p) 0xA 0xD008) := by
    have h1 : exec (.selftestGo p action mask force) s
        = .next (State.selftestGo (((if actionKnown action.toNat then s.put p Reg.TEST_STREQ_ACTION action.toNat else s).put p Reg.TEST_STREQ_MASK mask.toNat).put p Reg.TEST_STREQ_FORCE (if force then 1 else 0))
          p action.toNat mask.toNat force) := rfl
    rw [h1, if_neg hk, ha, ht]
    exact congrArg Host.Outcome.next (if_pos (by simpa using hk))
  have hev : (t.draw.2.base p).events = (s.base p).events := by
    have hd : (t.draw.2.base p).events = (t.base p).events := by cases p <;> rfl
    exact hd.trans (ht ▸ (events_put ..).trans (ha ▸ events_put ..))
  have hact : t.get p Reg.TEST_STREQ_ACTION = s.get p Reg.TEST_STREQ_ACTION := by
    rw [← ht, get_put_other a p Reg.TEST_STREQ_FORCE Reg.TEST_STREQ_ACTION _ (by decide) (by decide) (by decide) (by decide), ← ha]
    exact get_put_other s p Reg.TEST_STREQ_MASK Reg.TEST_STREQ_ACTION _ (by decide) (by decide) (by decide) (by decide)
  refine ⟨_, hx, ⟨t.draw.1.toNat % 0x1000, Nat.mod_lt _ (by decide), ?_⟩, (get_of_reg (reg_logOpen ..)).trans hact, fun q o ho => (reg_logOpen ..).trans ?_⟩
  · exact logged_log (unitTest p) (0xA * 0x1000 + t.draw.1.toNat % 0x1000) 0xD008 0 hev
  · exact ht ▸ (regsBut_put a p Reg.TEST_STREQ_FORCE _ q o ho).trans (ha ▸ regsBut_put s p Reg.TEST_STREQ_MASK _ q o ho)

/-- A known request stands in TEST_STREQ. -/
def State.testAsked (s : State) (p : Part) (action mask : Byte) (force : Bool) : State :=
  ((s.put p Reg.TEST_STREQ_ACTION action.toNat).put p Reg.TEST_STREQ_MASK mask.toNat).put p Reg.TEST_STREQ_FORCE (if force then 1 else 0)

theorem testAsked_regs (action mask : Byte) (force : Bool) : RegsBut [(p, 0xD008)] s (s.testAsked p action mask force) := by
  unfold State.testAsked
  exact ((regsBut_put s p Reg.TEST_STREQ_ACTION action.toNat).put p Reg.TEST_STREQ_MASK mask.toNat (List.mem_singleton_self _)).put p Reg.TEST_STREQ_FORCE (if force then 1 else 0) (List.mem_singleton_self _)

theorem actionFree_iff (a : Nat) : s.actionFree a = true ↔ (a = 2 → s.seqState .el = 0 ∨ s.seqState .el = 2) := by
  unfold State.actionFree
  simp only [Bool.or_eq_true, bne_iff_ne, beq_iff_eq, or_assoc]
  tauto

theorem selftestGo_known {action mask : Byte} {force : Bool} (h1 : 1 ≤ action.toNat) (h4 : action.toNat ≤ 4) : exec (.selftestGo p action mask force) s = .next
    (if s.get p Reg.TEST_STSTAT_STATE = 1 || s.get p Reg.TEST_STSTAT_STATE = 2 || !actionHere p action.toNat || (force && !s.actionFree action.toNat) then (s.testAsked p action mask force).put p Reg.TEST_STSTAT_STATUS 10
      else (((s.testAsked p action mask force).put p Reg.TEST_STSTAT_STATE 1).put p Reg.TEST_STSTAT_STATUS 0).mod p (fun b => { b with selftest := { action := action.toNat, mask := mask.toNat, force := force, logged := false } })) := by
  have hk : actionKnown action.toNat = true := (actionKnown_iff _).mpr ⟨h1, h4⟩
  have hx : exec (.selftestGo p action mask force) s
      = .next (State.selftestGo (((if actionKnown action.toNat then s.put p Reg.TEST_STREQ_ACTION action.toNat else s).put p Reg.TEST_STREQ_MASK mask.toNat).put p Reg.TEST_STREQ_FORCE (if force then 1 else 0))
        p action.toNat mask.toNat force) := rfl
  have hst : (s.testAsked p action mask force).get p Reg.TEST_STSTAT_STATE = s.get p Reg.TEST_STSTAT_STATE := (testAsked_regs action mask force).get_eq p Reg.TEST_STSTAT_STATE (by simp [Reg.TEST_STSTAT_STATE])
  have hseq : (s.testAsked p action mask force).seqState .el = s.seqState .el := (testAsked_regs action mask force).get_eq .el Reg.SEQ_STAT_STATE (by simp [Reg.SEQ_STAT_STATE])
  have hfree : (s.testAsked p action mask force).actionFree action.toNat = s.actionFree action.toNat := by
    unfold State.actionFree
    rw [hseq]
  rw [hx, if_pos hk, ← hst, ← hfree]
  exact congrArg Host.Outcome.next (if_neg (by rw [hk]; decide))

/-- A request that is refused: one in progress, an action the part lacks, or a forced march of a die that is not at rest (R464). -/
theorem refused_iff (a : Nat) (force : Bool) : (s.get p Reg.TEST_STSTAT_STATE = 1 || s.get p Reg.TEST_STSTAT_STATE = 2 || !actionHere p a || (force && !s.actionFree a)) = true
    ↔ s.get p Reg.TEST_STSTAT_STATE = 1 ∨ s.get p Reg.TEST_STSTAT_STATE = 2 ∨ (p = .el ∧ a = 4) ∨ (p = .ux ∧ a = 2) ∨ (force = true ∧ a = 2 ∧ ¬ (s.seqState .el = 0 ∨ s.seqState .el = 2)) := by
  have hfree : s.actionFree a = false ↔ a = 2 ∧ ¬ (s.seqState .el = 0 ∨ s.seqState .el = 2) := by
    rw [← Bool.not_eq_true, actionFree_iff, Classical.not_imp]
  have hhere : (!actionHere p a) = true ↔ (p = .el ∧ a = 4) ∨ (p = .ux ∧ a = 2) := by
    unfold actionHere
    cases p <;> simp
  rw [Bool.or_eq_true, Bool.or_eq_true, Bool.or_eq_true, hhere, Bool.and_eq_true, Bool.not_eq_true', hfree, decide_eq_true_eq, decide_eq_true_eq, or_assoc, or_assoc, or_assoc]

theorem starts_iff : (s.get p Reg.TEST_STSTAT_STATE = 1 && s.actionFree (s.base p).selftest.action && ((s.base p).selftest.force || s.actionFits p (s.base p).selftest.action (s.base p).selftest.mask)) = true
    ↔ s.get p Reg.TEST_STSTAT_STATE = 1 ∧ ((s.base p).selftest.action = 2 → s.seqState .el = 0 ∨ s.seqState .el = 2)
      ∧ ((s.base p).selftest.force = true ∨ s.actionFits p (s.base p).selftest.action (s.base p).selftest.mask = true) := by
  rw [Bool.and_eq_true, Bool.and_eq_true, Bool.or_eq_true, actionFree_iff, decide_eq_true_eq, and_assoc]

theorem actionFits_shut (a mask : Nat) (h : s.windowOpen p = none) (hp : p = .el ∨ s.seqState .ux = 3 ∨ s.seqState .ux = 4) : s.actionFits p a mask = false := by
  unfold State.actionFits
  rw [h]
  rcases hp with rfl | hp
  · rfl
  · cases p
    · rfl
    · rcases hp with hp | hp <;> simp [hp]

theorem actionFits_between (a mask : Nat) (h3 : s.seqState .ux ≠ 3) (h4 : s.seqState .ux ≠ 4) : s.actionFits .ux a mask = true := by
  unfold State.actionFits
  simp [h3, h4]

theorem selftestDefer_goes (h : s.get p Reg.TEST_STSTAT_STATE = 1) (hf : (s.base p).selftest.force = false) : Goes (.selftestDefer p) s ((s.put p Reg.TEST_STSTAT_STATE 3).put p Reg.TEST_STSTAT_STATUS 11) p
    [(unitTest p, 0x9030, (s.base p).selftest.action, (s.base p).selftest.action)] :=
  goes_of _ (congrArg Host.Outcome.next (if_pos (by rw [h, hf]; rfl))) (core_log ..) (logged_log _ _ _ _ ((events_put ..).trans (events_put ..)))

theorem selftestDefer_stays (h : s.get p Reg.TEST_STSTAT_STATE ≠ 1 ∨ (s.base p).selftest.force = true) : exec (.selftestDefer p) s = .next s :=
  congrArg Host.Outcome.next (if_neg (by rcases h with h | h <;> simp [h]))

end

section
variable (s : State) (p : Part) (result : Byte)

/-- An action that is over, before its event. -/
def State.testOver : State := ((s.put p Reg.TEST_STSTAT_STATE 3).put p Reg.TEST_STSTAT_STATUS 0).actionLeaves (s.base p).selftest.action (s.base p).selftest.mask result.toNat

/-- The event of an action that is over. -/
def State.testLogged : State := (s.testOver p result).log p (unitTest p) 0x9031 (s.base p).selftest.action result.toNat

theorem exec_selftestDone (h : s.get p Reg.TEST_STSTAT_STATE = 2) : exec (.selftestDone p result) s = .next
    (if p == .el && (s.testLogged p result).seqState .el == 2 && !((s.testLogged p result).seq .el).heldStarts.isEmpty then (s.testLogged p result).heldRelease else s.testLogged p result) :=
  congrArg Host.Outcome.next (if_pos h)

theorem testOver_reads : (s.testOver p result).get p Reg.TEST_STSTAT_STATE = 3 ∧ (s.testOver p result).get p Reg.TEST_STSTAT_STATUS = 0
    ∧ ((s.base p).selftest.action = 2 → (s.testOver p result).el.spm = [] ∧ (s.testOver p result).el.spmBad = [])
    ∧ ((s.base p).selftest.action = 4 → result = 0 → (s.testOver p result).get .ux Reg.UX_IDENT_HBM_STACKS = (s.get .ux Reg.UX_IDENT_HBM_STACKS ||| (s.base p).selftest.mask) % 256)
    ∧ RegsBut [(p, 0xD010), (.ux, 0x10)] s (s.testOver p result) ∧ ((s.testOver p result).base p).events = (s.base p).events ∧ (s.testOver p result).seq .el = s.seq .el := by
  obtain ⟨a, ha⟩ : ∃ a, s.put p Reg.TEST_STSTAT_STATE 3 = a := ⟨_, rfl⟩
  obtain ⟨t, ht⟩ : ∃ t, a.put p Reg.TEST_STSTAT_STATUS 0 = t := ⟨_, rfl⟩
  have h3 : t.get p Reg.TEST_STSTAT_STATE = 3 := by
    rw [← ht, get_put_other a p Reg.TEST_STSTAT_STATUS Reg.TEST_STSTAT_STATE 0 (by decide) (by decide) (by decide) (by decide), ← ha]
    exact get_put_same s p Reg.TEST_STSTAT_STATE 3 (by decide) (by decide)
  have h0 : t.get p Reg.TEST_STSTAT_STATUS = 0 := ht ▸ get_put_same a p Reg.TEST_STSTAT_STATUS 0 (by decide) (by decide)
  have hr : RegsBut [(p, 0xD010), (.ux, 0x10)] s t := by
    have hs : RegsBut [(p, 0xD010), (.ux, 0x10)] s s := fun _ _ _ => rfl
    rw [← ht, ← ha]
    exact (hs.put p Reg.TEST_STSTAT_STATE 3 (List.mem_cons_self ..)).put p Reg.TEST_STSTAT_STATUS 0 (List.mem_cons_self ..)
  have hstk : t.get .ux Reg.UX_IDENT_HBM_STACKS = s.get .ux Reg.UX_IDENT_HBM_STACKS := by
    rw [← ht, get_put_offs a p .ux Reg.TEST_STSTAT_STATUS Reg.UX_IDENT_HBM_STACKS 0 (by decide), ← ha]
    exact get_put_offs s p .ux Reg.TEST_STSTAT_STATE Reg.UX_IDENT_HBM_STACKS 3 (by decide)
  have hev : (t.base p).events = (s.base p).events := ht ▸ (events_put ..).trans (ha ▸ events_put ..)
  have hseq : t.seq .el = s.seq .el := by
    rw [← ht, ← ha]
    cases p <;> rfl
  have hu : s.testOver p result = t.actionLeaves (s.base p).selftest.action (s.base p).selftest.mask result.toNat := by
    rw [← ht, ← ha]
    rfl
  rw [hu]
  unfold State.actionLeaves
  by_cases h2 : (s.base p).selftest.action = 2
  · rw [if_pos h2]
    have hreg : ∀ q o, (t.modEl (fun e => { e with spm := [], spmBad := [] })).reg q o = t.reg q o := fun q o => by cases q <;> rfl
    refine ⟨(get_of_reg (hreg ..)).trans h3, (get_of_reg (hreg ..)).trans h0, fun _ => ⟨rfl, rfl⟩, fun h4 => absurd (h2.symm.trans h4) (by decide), fun q o ho => (hreg q o).trans (hr q o ho), Eq.trans ?_ hev, hseq⟩
    cases p <;> rfl
  · rw [if_neg h2]
    by_cases hc : ((s.base p).selftest.action = 4 && result.toNat == 0) = true
    · rw [if_pos hc]
      unfold State.setBits
      have hp : ∀ f : Fld, f.off = 0xD010 → (t.put .ux Reg.UX_IDENT_HBM_STACKS (t.get .ux Reg.UX_IDENT_HBM_STACKS ||| (s.base p).selftest.mask)).get p f = t.get p f := fun f hf =>
        get_put_offs t .ux p Reg.UX_IDENT_HBM_STACKS f _ (by rw [hf]; decide)
      refine ⟨(hp _ rfl).trans h3, (hp _ rfl).trans h0, fun e => absurd e h2, fun _ _ => ?_, hr.put .ux Reg.UX_IDENT_HBM_STACKS _ (by simp [Reg.UX_IDENT_HBM_STACKS]), (events_put ..).trans hev, hseq⟩
      rw [get_put_same t .ux Reg.UX_IDENT_HBM_STACKS _ (by decide) (by decide), hstk]
      rfl
    · rw [if_neg hc]
      refine ⟨h3, h0, fun e => absurd e h2, fun h4 hz => absurd ?_ hc, hr, hev, hseq⟩
      rw [h4, hz]
      rfl

theorem selftestDone_logs (h : s.get p Reg.TEST_STSTAT_STATE = 2) : Ends (.selftestDone p result) s (fun u => ∃ es, Logged p s u ((unitTest p, 0x9031, (s.base p).selftest.action, result.toNat) :: es)) := by
  have hev := (testOver_reads s p result).2.2.2.2.2.1
  have hl : Logged p s (s.testLogged p result) [(unitTest p, 0x9031, (s.base p).selftest.action, result.toNat)] := logged_log _ _ _ _ hev
  refine ⟨_, exec_selftestDone s p result h, ?_⟩
  split
  · obtain ⟨es, hes⟩ := exists_logged_of_keeps p (keeps_heldRelease (keeps_refl (s.testLogged p result)))
    exact ⟨es, hl.trans hes⟩
  · exact ⟨[], hl⟩

theorem selftestDone_ends (h : s.get p Reg.TEST_STSTAT_STATE = 2) (hn : ¬ (p = .el ∧ s.seqState .el = 2 ∧ (s.seq .el).heldStarts ≠ [])) : Ends (.selftestDone p result) s (fun u =>
    u.get p Reg.TEST_STSTAT_STATE = 3 ∧ u.get p Reg.TEST_STSTAT_STATUS = 0 ∧ ((s.base p).selftest.action = 2 → u.el.spm = [] ∧ u.el.spmBad = [])
      ∧ ((s.base p).selftest.action = 4 → result = 0 → u.get .ux Reg.UX_IDENT_HBM_STACKS = (s.get .ux Reg.UX_IDENT_HBM_STACKS ||| (s.base p).selftest.mask) % 256) ∧ RegsBut [(p, 0xD010), (.ux, 0x10)] s u
      ∧ Logged p s u [(unitTest p, 0x9031, (s.base p).selftest.action, result.toNat)]) := by
  obtain ⟨h3, h0, hspm, hstk, hregs, hev, hseq⟩ := testOver_reads s p result
  have hcore : (s.testLogged p result).core = (s.testOver p result).core := core_log ..
  have hreg : ∀ q o, (s.testLogged p result).reg q o = (s.testOver p result).reg q o := reg_of_core hcore
  have hst : (s.testLogged p result).seqState .el = s.seqState .el := (seqState_congr (hreg ..)).trans (hregs.get_eq .el Reg.SEQ_STAT_STATE (by cases p <;> decide))
  have hheld : ((s.testLogged p result).seq .el) = s.seq .el := (seq_of_core hcore .el).trans hseq
  have hx := exec_selftestDone s p result h
  rw [hst, hheld, if_neg (by simpa [and_assoc] using hn)] at hx
  refine ⟨_, hx, (get_of_reg (hreg ..)).trans h3, (get_of_reg (hreg ..)).trans h0, fun h2 => ?_, fun h4 hz => (get_of_reg (hreg ..)).trans (hstk h4 hz), fun q o ho => (hreg q o).trans (hregs q o ho), logged_log _ _ _ _ hev⟩
  obtain ⟨k1, k2⟩ := hspm h2
  exact ⟨((congrArg (fun v => v.el.spm) hcore :)).trans k1, ((congrArg (fun v => v.el.spmBad) hcore :)).trans k2⟩

end

end Sys2Proof.Machine

/-! SUPPORT. The junction of a Uhloux chip, its degraded operation, and the obligation of tests and heat (R468, R469, R528). -/

namespace Sys2Proof.Machine

set_option Elab.async false

/-! ### UX_REPLACE (R469) -/

section
variable (s : State)

/-- A cause that is set leaves the others. -/
theorem replaceSet_bit (k : Nat) {j : Nat} (hj : j < 6) : bitOf ((s.replaceSet k).get .ux Reg.UX_REPLACE_CAUSE) j = (bitOf (s.get .ux Reg.UX_REPLACE_CAUSE) j || decide (k = j)) := by
  by_cases h : bitOf (s.get .ux Reg.UX_REPLACE_CAUSE) k = true
  · have hs : s.replaceSet k = s := if_pos h
    rw [hs]
    by_cases he : k = j
    · rw [← he, h]
      rfl
    · rw [decide_eq_false he, Bool.or_false]
  · have hs : s.replaceSet k = (s.setBits .ux Reg.UX_REPLACE_CAUSE (2 ^ k)).log .ux 0x47 0x9050 0 k := if_neg h
    have hget : (s.replaceSet k).get .ux Reg.UX_REPLACE_CAUSE = (s.get .ux Reg.UX_REPLACE_CAUSE ||| 2 ^ k) % 2 ^ 6 := by
      rw [hs, get_of_reg (reg_of_core (core_log ..) ..)]
      exact get_put_same s .ux Reg.UX_REPLACE_CAUSE _ (by decide) (by decide)
    rw [hget, bitOf_eq, bitOf_eq, Nat.testBit_mod_two_pow, Nat.testBit_or, Nat.testBit_two_pow, decide_eq_true hj, Bool.true_and]

/-- Causes that were clear are set in turn, each with its event. -/
theorem replaceFold (f : Nat → Bool) (l : List Nat) (hl : l.Nodup) (h6 : ∀ k ∈ l, k < 6) : ∀ t : State, (∀ k ∈ l, f k = true → bitOf (t.get .ux Reg.UX_REPLACE_CAUSE) k = false) →
    (∀ j < 6, bitOf ((l.foldl (fun t k => if f k then t.replaceSet k else t) t).get .ux Reg.UX_REPLACE_CAUSE) j = (bitOf (t.get .ux Reg.UX_REPLACE_CAUSE) j || (decide (j ∈ l) && f j)))
      ∧ RegsBut [(.ux, 0x7090)] t (l.foldl (fun t k => if f k then t.replaceSet k else t) t)
      ∧ Logged .ux t (l.foldl (fun t k => if f k then t.replaceSet k else t) t) ((l.filter f).map (fun i => (0x47, 0x9050, 0, i))) := by
  induction l with
  | nil => exact fun t _ => ⟨fun _ _ => by simp, fun _ _ _ => rfl, logged_nil rfl⟩
  | cons k l ih =>
    intro t hclear
    obtain ⟨hnot, hnd⟩ := List.nodup_cons.mp hl
    have hk6 := h6 k List.mem_cons_self
    obtain ⟨u, hu⟩ : ∃ u, (if f k then t.replaceSet k else t) = u := ⟨_, rfl⟩
    have hstep : (∀ j < 6, bitOf (u.get .ux Reg.UX_REPLACE_CAUSE) j = (bitOf (t.get .ux Reg.UX_REPLACE_CAUSE) j || (decide (k = j) && f k))) ∧ RegsBut [(.ux, 0x7090)] t u
        ∧ Logged .ux t u (if f k then [(0x47, 0x9050, 0, k)] else []) := by
      by_cases hf : f k = true
      · obtain ⟨-, hr, hlog⟩ := replaceSet_leaves t k hk6
        have hc : ¬ bitOf (t.get .ux Reg.UX_REPLACE_CAUSE) k = true := by rw [hclear k List.mem_cons_self hf]; decide
        rw [← hu, if_pos hf, if_pos hf]
        rw [if_neg hc] at hlog
        exact ⟨fun j hj => by rw [replaceSet_bit t k hj, hf, Bool.and_true], hr, hlog⟩
      · rw [← hu, if_neg hf, if_neg hf]
        exact ⟨fun j _ => by simp [hf], fun _ _ _ => rfl, logged_nil rfl⟩
    obtain ⟨hbit, hregs, hlog⟩ := hstep
    have hclear' : ∀ j ∈ l, f j = true → bitOf (u.get .ux Reg.UX_REPLACE_CAUSE) j = false := fun j hj hf => by
      have hne : k ≠ j := fun e => hnot (e ▸ hj)
      rw [hbit j (h6 j (List.mem_cons_of_mem k hj)), hclear j (List.mem_cons_of_mem k hj) hf, decide_eq_false hne]
      rfl
    obtain ⟨jbit, jregs, jlog⟩ := ih hnd (fun j hj => h6 j (List.mem_cons_of_mem k hj)) u hclear'
    rw [List.foldl_cons, hu]
    refine ⟨fun j hj => ?_, hregs.trans jregs, ?_⟩
    · rw [jbit j hj, hbit j hj]
      by_cases he : k = j
      · subst he
        simp [hnot]
      · simp [he, Ne.symm he]
    · by_cases hf : f k = true
      · rw [if_pos hf] at hlog
        rw [List.filter_cons_of_pos hf]
        exact hlog.trans jlog
      · rw [if_neg hf] at hlog
        rw [List.filter_cons_of_neg hf]
        exact hlog.trans jlog

/-- The causes a clear names fall, and those whose condition persists are set again (R469). -/
theorem replaceClear_ends (m w : BitVec 6) : Ends (.replaceClear m w) s (fun u =>
    (∀ k < 6, bitOf (u.get .ux Reg.UX_REPLACE_CAUSE) k = (bitOf (s.get .ux Reg.UX_REPLACE_CAUSE) k && (!bitOf m.toNat k || bitOf w.toNat k))) ∧ RegsBut [(.ux, 0x7090)] s u
      ∧ Logged .ux s u (((List.range 6).filter (fun i => bitOf (s.get .ux Reg.UX_REPLACE_CAUSE) i && bitOf m.toNat i && bitOf w.toNat i)).map (fun i => (0x47, 0x9050, 0, i)))) := by
  obtain ⟨c, hc⟩ : ∃ c, s.get .ux Reg.UX_REPLACE_CAUSE = c := ⟨_, rfl⟩
  obtain ⟨t, ht⟩ : ∃ t, s.put .ux Reg.UX_REPLACE_CAUSE (Nat.land c (63 - Nat.land m.toNat c % 64)) = t := ⟨_, rfl⟩
  have hx : exec (.replaceClear m w) s = .next ((List.range 6).foldl (fun t k => if bitOf (Nat.land m.toNat c) k && bitOf w.toNat k then t.replaceSet k else t) t) := by
    rw [← ht, ← hc]
    rfl
  have hland (a b i : Nat) : (Nat.land a b).testBit i = (a.testBit i && b.testBit i) := Nat.testBit_and a b i
  have hbit : ∀ j < 6, bitOf (t.get .ux Reg.UX_REPLACE_CAUSE) j = (bitOf c j && !bitOf m.toNat j) := fun j hj => by
    have h63 : 63 - Nat.land m.toNat c % 64 = 2 ^ 6 - (Nat.land m.toNat c % 64 + 1) := by omega
    have hlt : Nat.land m.toNat c % 64 < 2 ^ 6 := Nat.mod_lt _ (by decide)
    have h64 : (Nat.land m.toNat c % 64).testBit j = (decide (j < 6) && (Nat.land m.toNat c).testBit j) := Nat.testBit_mod_two_pow _ 6 j
    have hg : t.get .ux Reg.UX_REPLACE_CAUSE = Nat.land c (63 - Nat.land m.toNat c % 64) % 2 ^ 6 := ht ▸ get_put_same s .ux Reg.UX_REPLACE_CAUSE _ (by decide) (by decide)
    rw [hg, bitOf_eq, bitOf_eq, bitOf_eq, Nat.testBit_mod_two_pow, hland, h63, Nat.testBit_two_pow_sub_succ hlt, h64, hland, decide_eq_true hj]
    cases c.testBit j <;> simp
  obtain ⟨ubit, uregs, ulog⟩ := replaceFold (fun k => bitOf (Nat.land m.toNat c) k && bitOf w.toNat k) (List.range 6) List.nodup_range (fun k hk => List.mem_range.mp hk) t (fun k hk hf => by
    have hm : bitOf m.toNat k = true := by
      rw [Bool.and_eq_true, bitOf_eq, hland, Bool.and_eq_true] at hf
      rw [bitOf_eq]
      exact hf.1.1
    rw [hbit k (List.mem_range.mp hk), hm]
    exact Bool.and_false _)
  have hfilter : (fun i => bitOf c i && bitOf m.toNat i && bitOf w.toNat i) = fun k => bitOf (Nat.land m.toNat c) k && bitOf w.toNat k := by
    funext i
    rw [bitOf_eq (Nat.land m.toNat c), hland, ← bitOf_eq, ← bitOf_eq, Bool.and_comm (bitOf c i)]
  have hregs : RegsBut [(.ux, 0x7090)] s t := ht ▸ regsBut_put s .ux Reg.UX_REPLACE_CAUSE _
  rw [hc, hfilter]
  refine ⟨_, hx, fun k hk => ?_, hregs.trans uregs, (logged_nil (ht ▸ events_put .. : (t.base .ux).events = (s.base .ux).events)).trans ulog⟩
  rw [ubit k hk, hbit k hk, decide_eq_true (List.mem_range.mpr hk), bitOf_eq (Nat.land m.toNat c), hland, ← bitOf_eq, ← bitOf_eq]
  cases bitOf c k <;> cases bitOf m.toNat k <;> simp

end

/-! ### The junction (R528) -/

section
variable (s : State)

/-- The last report of a sensor. -/
def State.junctionSeen (tj : BitVec 16) (sensor : Fin 16) : State := s.modUx (fun u => { u with junction := tput 0 u.junction sensor tj.toNat })

theorem thermWarn_idle {tj : BitVec 16} {sensor : Fin 16} (h : s.ux.warnCap = true ∨ tj.toNat < 1000) : exec (.thermWarn tj sensor) s = .next (s.junctionSeen tj sensor) :=
  congrArg Host.Outcome.next (if_pos (by
    rw [Bool.or_eq_true, decide_eq_true_eq]
    exact h))

/-- The warning caps the engines and asks for replacement (R528). -/
theorem thermWarn_warns {tj : BitVec 16} {sensor : Fin 16} (hc : s.ux.warnCap = false) (hj : 1000 ≤ tj.toNat) : Ends (.thermWarn tj sensor) s (fun u => u.ux.warnCap = true
    ∧ u.ux.junction = (s.junctionSeen tj sensor).ux.junction ∧ bitOf (u.get .ux Reg.UX_REPLACE_CAUSE) 5 = true ∧ RegsBut [(.ux, 0x7090)] s u
    ∧ Logged .ux s u ((if bitOf (s.get .ux Reg.UX_REPLACE_CAUSE) 5 then [] else [(0x47, 0x9050, 0, 5)]) ++ [(0x4D, 0x8040, sensor.val, tj.toNat)])) := by
  obtain ⟨t, ht⟩ : ∃ t, (s.junctionSeen tj sensor).modUx (fun u => { u with warnCap := true }) = t := ⟨_, rfl⟩
  have hx : exec (.thermWarn tj sensor) s = .next ((t.replaceSet 5).log .ux 0x4D 0x8040 sensor tj.toNat) := by
    rw [← ht]
    refine congrArg Host.Outcome.next (if_neg ?_)
    rw [Bool.or_eq_true, decide_eq_true_eq]
    rintro (h | h)
    · exact absurd (hc.symm.trans h) (by decide)
    · omega
  have hreg : ∀ q o, t.reg q o = s.reg q o := fun q o => by
    rw [← ht]
    cases q <;> rfl
  have hcause : t.get .ux Reg.UX_REPLACE_CAUSE = s.get .ux Reg.UX_REPLACE_CAUSE := get_of_reg (hreg ..)
  obtain ⟨hset, hregs, hlog⟩ := replaceSet_leaves t 5 (by decide)
  have hflags : (t.replaceSet 5).ux.warnCap = true ∧ (t.replaceSet 5).ux.junction = (s.junctionSeen tj sensor).ux.junction := by
    rw [← ht]
    unfold State.replaceSet
    split <;> exact ⟨rfl, rfl⟩
  have hev : (t.base .ux).events = (s.base .ux).events := by
    rw [← ht]
    rfl
  rw [hcause] at hlog
  refine ⟨_, hx, hflags.1, hflags.2, ?_, fun q o ho => (reg_of_core (core_log ..) q o).trans ((hregs q o ho).trans (hreg q o)), ((logged_nil hev).trans hlog).trans (logged_log _ _ _ _ rfl)⟩
  rw [get_of_reg (reg_of_core (core_log ..) ..)]
  exact hset

theorem thermtrip_idle {tj : BitVec 16} {sensor : Fin 16} (h : s.ux.tripped = true ∨ tj.toNat < 1150) : exec (.thermtrip tj sensor) s = .next (s.junctionSeen tj sensor) :=
  congrArg Host.Outcome.next (if_pos (by
    rw [Bool.or_eq_true, decide_eq_true_eq]
    exact h))

/-- The TIME domain of a chip is reset, and its lanes stay down. -/
def State.timeReset (t : State) : State :=
  t.modUx (fun u => { u with base := { u.base with regs := u.base.regs.filter (fun x => !(x.1 / 0x1000 == 3)) }, dpll := Uhloux.zero.dpll, todNext := [], todSkip := [], lanesHeld := true, tripped := true })

theorem reg_timeReset (t : State) (o : Nat) : t.timeReset.reg .ux o = if !(o / 0x1000 == 3) then t.reg .ux o else uxResetWord o := tget_filter _ t.ux.base.regs (fun o => !(o / 0x1000 == 3)) o

/-- Domains of a chip in reset, and nothing else changed. -/
theorem uxResets_aside (l : List Nat) (t : State) : RegsBut [(.ux, 0xA008)] t (l.foldl (fun t d => t.setDstate .ux d 3) t) ∧ (l.foldl (fun t d => t.setDstate .ux d 3) t).ux.tripped = t.ux.tripped
    ∧ (l.foldl (fun t d => t.setDstate .ux d 3) t).ux.lanesHeld = t.ux.lanesHeld :=
  List.foldlRecOn (motive := fun u : State => RegsBut [(.ux, 0xA008)] t u ∧ u.ux.tripped = t.ux.tripped ∧ u.ux.lanesHeld = t.ux.lanesHeld) _ _ ⟨fun _ _ _ => rfl, rfl, rfl⟩
    (fun u hu d _ => ⟨hu.1.trans (regs_setDstate u .ux d 3), hu.2⟩)

/-- No lane is in a state but DOWN at reset. -/
theorem laneState_reset {x : Nat} (h : x < 160) : fget (uxResetWord (Reg.LANE_STAT_STATE (laneBlk .ux x)).off) 2 0 = 0 := by
  have hall : ∀ y : Fin 160, fget (uxResetWord (Reg.LANE_STAT_STATE (laneBlk .ux y.val)).off) 2 0 = 0 := by decide +kernel
  exact hall ⟨x, h⟩

/-- The trip resets every domain of the chip but AON for good (R528). -/
theorem tripReset_leaves (t : State) : t.tripReset.ux.tripped = true ∧ t.tripReset.ux.lanesHeld = true ∧ (∀ k, 1 ≤ k → k ≤ 23 → t.tripReset.dstate .ux k = 3) ∧ (∀ x < 160, t.tripReset.laneState .ux x = 0)
    ∧ t.tripReset.seqState .ux = 0 ∧ t.tripReset.ux.base.qops = [] ∧ t.tripReset.ux.base.mem = [] ∧ ∀ x, x / 0x1000 = 3 → t.tripReset.reg .ux x = resetWord .ux x := by
  obtain ⟨a, ha⟩ : ∃ a, t.lanesLost.warmed.timeReset = a := ⟨_, rfl⟩
  obtain ⟨l, hl⟩ : ∃ l, (List.range 23).map (fun i => i + 1) = l := ⟨_, rfl⟩
  have hu : t.tripReset = l.foldl (fun t d => t.setDstate .ux d 3) a := by
    rw [← ha, ← hl, ← warmReset_eq]
    rfl
  have hmem (k : Nat) : k ∈ l ↔ 1 ≤ k ∧ k ≤ 23 := by
    rw [← hl, List.mem_map]
    constructor
    · rintro ⟨i, hi, rfl⟩
      have := List.mem_range.mp hi
      omega
    · exact fun h => ⟨k - 1, List.mem_range.mpr (by omega), by omega⟩
  obtain ⟨-, hds, hq, hm, -⟩ := uxResetFold l (fun d hd => by have := (hmem d).mp hd; omega) a
  obtain ⟨hregs, htrip, hheld⟩ := uxResets_aside l a
  have hreg (o : Nat) (h : uxKept o = false ∨ o / 0x1000 = 3) (ho : o ≠ 0xA008) : t.tripReset.reg .ux o = uxResetWord o := by
    rw [hu, hregs .ux o (by simpa using ho), ← ha, reg_timeReset, reg_warmed]
    rcases h with h | h
    · rw [h]
      split <;> rfl
    · rw [h]
      rfl
  have hbase : a.ux.tripped = true ∧ a.ux.lanesHeld = true ∧ a.ux.base.qops = [] ∧ a.ux.base.mem = [] := by
    rw [← ha]
    exact ⟨rfl, rfl, rfl, rfl⟩
  obtain ⟨b1, b2, b3, b4⟩ := hbase
  refine ⟨hu ▸ htrip.trans b1, hu ▸ hheld.trans b2, fun k h1 h23 => ?_, fun x hx => ?_, ?_, hu ▸ hq.trans b3, hu ▸ hm.trans b4, fun x hx => hreg x (.inr hx) (by omega)⟩
  · rw [hu, hds, if_pos ((hmem k).mpr ⟨h1, h23⟩)]
  · unfold State.laneState State.get
    rw [hreg _ (.inl ?_) (by simp only [Reg.LANE_STAT_STATE, laneBlk]; omega)]
    · exact laneState_reset hx
    · unfold uxKept
      rw [decide_eq_false (by simp only [Reg.LANE_STAT_STATE, laneBlk]; omega), Bool.false_and]
  · unfold State.seqState State.get
    rw [hreg _ (.inl (by decide)) (by decide)]
    decide

theorem thermtrip_trips {tj : BitVec 16} {sensor : Fin 16} (h : s.ux.tripped = false) (hj : 1150 ≤ tj.toNat) :
    exec (.thermtrip tj sensor) s = .next (((s.junctionSeen tj sensor).log .ux 0x4D 0x8041 sensor tj.toNat).tripReset) := by
  refine congrArg Host.Outcome.next (if_neg ?_)
  rw [Bool.or_eq_true, decide_eq_true_eq]
  rintro (h1 | h1)
  · exact absurd (h.symm.trans h1) (by decide)
  · omega

end

/-! ### A failed stack (R468) -/

section
variable (s : State)

/-- What UNMIRRORED shows (R355). -/
theorem unmirrored_leaves : RegsBut [(.ux, 0x7048), (.el, 0x3040)] s s.unmirrored ∧ s.unmirrored.get .ux Reg.UX_VAULT_STAT_CAP_DIES = s.get .ux Reg.UX_VAULT_STAT_CAP_DIES ∧ s.unmirrored.ux.stacksLost = s.ux.stacksLost := by
  obtain ⟨n, hn⟩ : ∃ n, min 255 (s.ux.vaults.countP (fun v => v.2.seen && !v.2.hasSealed) + s.ux.privLost.length) = n := ⟨_, rfl⟩
  obtain ⟨a, ha⟩ : ∃ a, s.put .ux Reg.UX_VAULT_STAT_UNMIRRORED n = a := ⟨_, rfl⟩
  have hu : s.unmirrored = if s.get .ux Reg.UX_VAULT_STAT_UNMIRRORED < n then a.mirrorFull.log .ux 0x44 0x6041 0 n else a.mirrorFull := by
    rw [← ha, ← hn]
    rfl
  have hm : RegsBut [(.ux, 0x7048), (.el, 0x3040)] s a.mirrorFull ∧ a.mirrorFull.get .ux Reg.UX_VAULT_STAT_CAP_DIES = s.get .ux Reg.UX_VAULT_STAT_CAP_DIES ∧ a.mirrorFull.ux.stacksLost = s.ux.stacksLost := by
    have h0 : RegsBut [(.ux, 0x7048), (.el, 0x3040)] s s := fun _ _ _ => rfl
    have hr : RegsBut [(.ux, 0x7048), (.el, 0x3040)] s a := ha ▸ h0.put .ux Reg.UX_VAULT_STAT_UNMIRRORED n (by decide)
    have hc : a.get .ux Reg.UX_VAULT_STAT_CAP_DIES = s.get .ux Reg.UX_VAULT_STAT_CAP_DIES :=
      ha ▸ get_put_other s .ux Reg.UX_VAULT_STAT_UNMIRRORED Reg.UX_VAULT_STAT_CAP_DIES n (by decide) (by decide) (by decide) (by decide)
    have hl : a.ux.stacksLost = s.ux.stacksLost := by
      rw [← ha]
      rfl
    unfold State.mirrorFull
    dsimp only
    split
    · exact ⟨hr.put .el Reg.HC_STAT_MIRROR_FULL _ (by decide), hc, hl⟩
    · exact ⟨hr, hc, hl⟩
  obtain ⟨hr, hc, hl⟩ := hm
  have hcore : s.unmirrored.core = a.mirrorFull.core := by
    rw [hu]
    split
    · exact core_log ..
    · rfl
  exact ⟨fun q o ho => (reg_of_core hcore q o).trans (hr q o ho), (get_of_reg (reg_of_core hcore ..)).trans hc, ((congrArg (fun v => v.ux.stacksLost) hcore :)).trans hl⟩

/-- What may be lost with a stack beside its capacity is the generations it held. -/
theorem stackGenerations_leaves : RegsBut [(.ux, 0x7048), (.el, 0x3040)] s s.stackGenerations ∧ s.stackGenerations.get .ux Reg.UX_VAULT_STAT_CAP_DIES = s.get .ux Reg.UX_VAULT_STAT_CAP_DIES
    ∧ s.stackGenerations.ux.stacksLost = s.ux.stacksLost := by
  obtain ⟨f, hf⟩ : ∃ f : Nat × VGen → Nat × VGen, (fun v => (v.1, if (Config.freeWord (s.draws + v.1)).toNat % 2 = 1 then { VGen.zero with seen := true, isOpen := v.2.isOpen, qid := v.2.qid } else v.2)) = f := ⟨_, rfl⟩
  obtain ⟨t, ht⟩ : ∃ t, ({ s.modUx (fun u => { u with vaults := u.vaults.map f }) with draws := s.draws + 256 } : State) = t := ⟨_, rfl⟩
  have hu : s.stackGenerations = t.unmirrored := by
    rw [← ht, ← hf]
    rfl
  have hreg : ∀ q o, t.reg q o = s.reg q o := fun q o => by
    rw [← ht]
    cases q <;> rfl
  have hlost : t.ux.stacksLost = s.ux.stacksLost := by
    rw [← ht]
    rfl
  obtain ⟨kr, kc, kl⟩ := unmirrored_leaves t
  rw [hu]
  exact ⟨fun q o ho => (kr q o ho).trans (hreg q o), kc.trans (get_of_reg (hreg ..)), kl.trans hlost⟩

/-- A stack that fails takes its capacity (R468). -/
theorem hbmStackFail_ends {stack : Fin 8} (h : s.ux.stacksLost.contains (3 + stack.val) = false) : Ends (.hbmStackFail stack) s (fun u => u.ux.stacksLost = s.ux.stacksLost ++ [3 + stack.val] ∧ u.dstate .ux (3 + stack.val) = 0
    ∧ bitOf (u.get .ux Reg.UX_IDENT_HBM_STACKS) stack = false ∧ u.get .ux Reg.UX_LEDG_CFG_GIB = s.get .ux Reg.UX_LEDG_CFG_GIB - 12 ∧ u.get .ux Reg.UX_LEDG_CFG_RET = min (64 * (s.get .ux Reg.UX_LEDG_CFG_GIB - 12)) 8192
    ∧ u.get .ux Reg.UX_VAULT_STAT_CAP_DIES = s.get .ux Reg.UX_VAULT_STAT_CAP_DIES - 16 ∧ bitOf (u.get .ux Reg.UX_REPLACE_CAUSE) 0 = true) := by
  have hk := stack.isLt
  obtain ⟨a, ha⟩ : ∃ a, (s.modUx (fun u => { u with stacksLost := u.stacksLost ++ [3 + stack.val] })).setDstate .ux (3 + stack.val) 0 = a := ⟨_, rfl⟩
  obtain ⟨b, hb⟩ : ∃ b, a.put .ux Reg.UX_IDENT_HBM_STACKS (bitSet (a.get .ux Reg.UX_IDENT_HBM_STACKS) stack.val false) = b := ⟨_, rfl⟩
  obtain ⟨c, hc⟩ : ∃ c, b.put .ux Reg.UX_LEDG_CFG_GIB (b.get .ux Reg.UX_LEDG_CFG_GIB - 12) = c := ⟨_, rfl⟩
  obtain ⟨e, he⟩ : ∃ e, c.put .ux Reg.UX_LEDG_CFG_RET (min (64 * c.get .ux Reg.UX_LEDG_CFG_GIB) 8192) = e := ⟨_, rfl⟩
  obtain ⟨f, hf⟩ : ∃ f, e.put .ux Reg.UX_VAULT_STAT_CAP_DIES (e.get .ux Reg.UX_VAULT_STAT_CAP_DIES - 16) = f := ⟨_, rfl⟩
  have hx : exec (.hbmStackFail stack) s = .next (f.stackGenerations.replaceSet 0) := by
    rw [← hf, ← he, ← hc, ← hb, ← ha]
    exact congrArg Host.Outcome.next (if_neg (by rw [h]; decide))
  obtain ⟨gr, gcap, glost⟩ := stackGenerations_leaves f
  obtain ⟨hset, ur, -⟩ := replaceSet_leaves f.stackGenerations 0 (by decide)
  have hreg (o : Nat) (h1 : o ≠ 0x7090) (h2 : o ≠ 0x7048) : (f.stackGenerations.replaceSet 0).reg .ux o = f.reg .ux o := (ur .ux o (by simpa using h1)).trans (gr .ux o (by simpa using h2))
  have hlost : (f.stackGenerations.replaceSet 0).ux.stacksLost = s.ux.stacksLost ++ [3 + stack.val] := by
    have hr : (f.stackGenerations.replaceSet 0).ux.stacksLost = f.stackGenerations.ux.stacksLost := by
      unfold State.replaceSet
      split <;> rfl
    rw [hr, glost, ← hf, ← he, ← hc, ← hb, ← ha]
    rfl
  have ads : a.dstate .ux (3 + stack.val) = 0 := ha ▸ dstate_setDstate_same _ .ux 0 (show 3 + stack.val < 24 by omega)
  have areg (o : Nat) (ho : o ≠ 0xA008) : a.reg .ux o = s.reg .ux o := ha ▸ regs_setDstate _ .ux (3 + stack.val) 0 .ux o (by simpa using ho)
  have bstk : b.get .ux Reg.UX_IDENT_HBM_STACKS = bitSet (a.get .ux Reg.UX_IDENT_HBM_STACKS) stack.val false % 2 ^ 8 := hb ▸ get_put_same a .ux Reg.UX_IDENT_HBM_STACKS _ (by decide) (by decide)
  have breg : RegsBut [(.ux, 0x10)] a b := hb ▸ regsBut_put a .ux Reg.UX_IDENT_HBM_STACKS _
  have creg : RegsBut [(.ux, 0x6000)] b c := hc ▸ regsBut_put b .ux Reg.UX_LEDG_CFG_GIB _
  have ereg : RegsBut [(.ux, 0x6000)] c e := he ▸ regsBut_put c .ux Reg.UX_LEDG_CFG_RET _
  have freg : RegsBut [(.ux, 0x7048)] e f := hf ▸ regsBut_put e .ux Reg.UX_VAULT_STAT_CAP_DIES _
  have bgib : b.get .ux Reg.UX_LEDG_CFG_GIB = s.get .ux Reg.UX_LEDG_CFG_GIB := (breg.get_eq .ux _ (by decide)).trans (get_of_reg (areg _ (by decide)))
  have hlt : s.get .ux Reg.UX_LEDG_CFG_GIB < 2 ^ 8 := fget_lt ..
  have cgib : c.get .ux Reg.UX_LEDG_CFG_GIB = s.get .ux Reg.UX_LEDG_CFG_GIB - 12 := by
    rw [← hc, get_put_same b .ux Reg.UX_LEDG_CFG_GIB _ (by decide) (by decide), bgib]
    exact Nat.mod_eq_of_lt (Nat.lt_of_le_of_lt (Nat.sub_le ..) hlt)
  have egib : e.get .ux Reg.UX_LEDG_CFG_GIB = s.get .ux Reg.UX_LEDG_CFG_GIB - 12 := by
    rw [← he, get_put_other c .ux Reg.UX_LEDG_CFG_RET Reg.UX_LEDG_CFG_GIB _ (by decide) (by decide) (by decide) (by decide), cgib]
  have eret : e.get .ux Reg.UX_LEDG_CFG_RET = min (64 * (s.get .ux Reg.UX_LEDG_CFG_GIB - 12)) 8192 := by
    rw [← he, get_put_same c .ux Reg.UX_LEDG_CFG_RET _ (by decide) (by decide), cgib]
    exact Nat.mod_eq_of_lt (Nat.lt_of_le_of_lt (Nat.min_le_right ..) (by decide))
  have ecap : e.get .ux Reg.UX_VAULT_STAT_CAP_DIES = s.get .ux Reg.UX_VAULT_STAT_CAP_DIES :=
    ((ereg.get_eq .ux _ (by decide)).trans (creg.get_eq .ux _ (by decide))).trans ((breg.get_eq .ux _ (by decide)).trans (get_of_reg (areg _ (by decide))))
  have fcap : f.get .ux Reg.UX_VAULT_STAT_CAP_DIES = s.get .ux Reg.UX_VAULT_STAT_CAP_DIES - 16 := by
    have hl : s.get .ux Reg.UX_VAULT_STAT_CAP_DIES < 2 ^ 8 := fget_lt ..
    rw [← hf, get_put_same e .ux Reg.UX_VAULT_STAT_CAP_DIES _ (by decide) (by decide), ecap]
    exact Nat.mod_eq_of_lt (Nat.lt_of_le_of_lt (Nat.sub_le ..) hl)
  have fds : f.reg .ux 0xA008 = a.reg .ux 0xA008 := ((freg .ux _ (by decide)).trans (ereg .ux _ (by decide))).trans ((creg .ux _ (by decide)).trans (breg .ux _ (by decide)))
  have fstk : f.get .ux Reg.UX_IDENT_HBM_STACKS = b.get .ux Reg.UX_IDENT_HBM_STACKS := ((freg.get_eq .ux _ (by decide)).trans (ereg.get_eq .ux _ (by decide))).trans (creg.get_eq .ux _ (by decide))
  refine ⟨_, hx, hlost, (dstate_of_reg ((hreg _ (by decide) (by decide)).trans fds) _).trans ads, ?_, ?_, ?_, ?_, hset⟩
  · rw [get_of_reg (f := Reg.UX_IDENT_HBM_STACKS) (hreg 0x10 (by decide) (by decide)), fstk, bstk]
    exact bitOf_bitSet _ _ _ 8 hk
  · exact (get_of_reg (f := Reg.UX_LEDG_CFG_GIB) (hreg 0x6000 (by decide) (by decide))).trans ((freg.get_eq .ux _ (by decide)).trans egib)
  · exact (get_of_reg (f := Reg.UX_LEDG_CFG_RET) (hreg 0x6000 (by decide) (by decide))).trans ((freg.get_eq .ux _ (by decide)).trans eret)
  · exact (ur.get_eq .ux _ (by decide)).trans (gcap.trans fcap)

end

/-- Settles O60: each command by its own lemma; UX_REPLACE by the fold over its causes, the trip by what a warm reset leaves. -/
theorem testAndThermal : Obligations.TestAndThermal := by
  unfold Obligations.TestAndThermal
  intro p v force action mask result tj sensor stack m w k x s
  refine ⟨testUnlock_refused, testUnlock_writes, selftestGo_reserved, fun h1 h4 hr => ?_, fun h1 h4 hr => ?_, fun h => congrArg Host.Outcome.next (if_pos (starts_iff.mpr h)),
    fun h => congrArg Host.Outcome.next (if_neg (fun hs => h (starts_iff.mp hs))), actionFits_shut _ _, actionFits_between _ _, selftestDefer_goes, selftestDefer_stays, fun h => congrArg Host.Outcome.next (if_neg h),
    selftestDone_logs s p result, selftestDone_ends s p result, thermWarn_idle s, thermWarn_warns s, rfl, thermtrip_idle s, fun h hj => ?_, fun h => congrArg Host.Outcome.next (if_pos h), hbmStackFail_ends s, ?_⟩
  · exact (selftestGo_known h1 h4).trans (congrArg Host.Outcome.next (if_pos ((refused_iff _ _).mpr hr)))
  · exact (selftestGo_known h1 h4).trans (congrArg Host.Outcome.next (if_neg (fun hs => hr ((refused_iff _ _).mp hs))))
  · obtain ⟨h1, h2, h3, h4, h5, h6, h7, h8⟩ := tripReset_leaves ((s.junctionSeen tj sensor).log .ux 0x4D 0x8041 sensor tj.toNat)
    obtain ⟨es, hes⟩ := exists_logged_of_keeps .ux (keeps_tripReset (keeps_refl ((s.junctionSeen tj sensor).log .ux 0x4D 0x8041 sensor tj.toNat)))
    exact ⟨_, thermtrip_trips s h hj, h1, h2, h3 k, h4 x, h5, h6, h7, h8 x, es, (logged_log _ _ _ _ rfl : Logged .ux s _ [_]).trans hes⟩
  · obtain ⟨u, hu, h1, h2, h3⟩ := replaceClear_ends s m w
    exact ⟨u, hu, h1 k, h2, h3⟩

end Sys2Proof.Machine
